-- ==== Sys2Proof/Word.lean ====
section
/-!
DEFINITION. Word.lean: the word types of the block.
-/
namespace Sys2Proof

/-- One byte of a memory, a record or a message. -/
abbrev Byte := BitVec 8

/-- A page register (R17): 32 bits, bit 0 the least significant. -/
abbrev W32 := BitVec 32

/-- A scalar register of an Ashlar core: 64 bits. -/
abbrev W64 := BitVec 64

end Sys2Proof
end

