-- ==== Sys2Proof/Syntax.lean ====
section
/-!
DEFINITION. Syntax.lean: the commands of the block, one constructor per row of spec/opcode_table.json, and the
types their operands use. A command is an event outside the block or a step of one of its engines; its operands
are what the event brings with it (an address, data, a measured value); everything else comes from the state.
-/
namespace Sys2Proof

/-- The requester of an access (REQUESTER of FAULT_CODE, R43): the PF, VF 1 to 8, core 0 to 7, Fypajo, the boot ROM,
or the block's own hardware. -/
inductive Req where
  | pf
  | vf (v : Nat)
  | core (n : Nat)
  | fyp
  | boot
  | hw
deriving DecidableEq, Repr

/-- Mortar's three virtual channels (R73), in order of priority. -/
inductive Chan where
  | urgent
  | normal
  | bulk
deriving DecidableEq, Repr

/-- The power states of an island (R59). -/
inductive IslState where
  | off
  | retain
  | gated
  | on
deriving DecidableEq, Repr

/-- What reaches a queue in the same FAB cycle as a pop (R238, R239): nothing, a trigger push, a requester's doorbell push of a
count, or the commit of the oldest admitted push; with the FAB cycles that its admission takes where the queue is urgent. -/
inductive HodMeet where
  | alone
  | trigger (cycles : Nat)
  | doorbell (req : Req) (count cycles : Nat)
  | commit
deriving DecidableEq, Repr

/-- A completion of the host for a memory read request of the device (R148, R152, R153): its data, its Completion Status (0 Successful), EP, and the
dwords of its header. -/
structure Cpl where
  data : List Byte
  status : Nat := 0
  ep : Bool := false
  hdr : List Nat := []
deriving DecidableEq, Repr

/-- A word of Quarry's store that has become uncorrectable (R280): pool, and the record of index `ix`, or word `ix` of the bitmap (from 2,048 on: a summary
that every operation on the pool reads). -/
structure Upset where
  pool : Nat
  ix : Nat
  bitmap : Bool := false
deriving DecidableEq, Repr

/-- What a CSI-2 receiver observes with a burst (09 R299 to R301): the data lanes that entered HS and their measured rate in Mbps, the lanes in ULPS, and
the packet header: 0 intact, 1 corrected in one bit, 2 not correctable, 3 lost in an SoT error. -/
structure CsiRx where
  lanes : Nat
  mbps : Nat
  ulps : Nat := 0
  header : Nat := 0
deriving DecidableEq, Repr

/-- What the training of a subchannel finds: a step in which no setting passes, and the passing ranges of the read, write and CA sides in delay steps
(06 R208, R218). -/
structure Train where
  fails : Option Nat
  rdEye : Nat
  wrEye : Nat
  caEye : Nat
deriving DecidableEq, Repr

/-- What the endpoint cannot serve (R142, R164): a non-posted request that reads or writes (I/O, Type 1 configuration, locked, AtomicOp), a message, an
arrival that sets a bit of AER's uncorrectable or correctable status. -/
inductive TlpKind where
  | read
  | write
  | message
  | uncorrectable (bitNo : Nat)
  | correctable (bitNo : Nat)
deriving DecidableEq, Repr

/-- What resets the endpoint alone (R101, R170). -/
inductive EndpointReset where
  | perst
  | hotReset
  | linkDown
deriving DecidableEq, Repr

/-- Why Fypajo shuts the module down (R734): VIN, a rail, the thermal trip, FAB_LOST, a mailbox command, WAKE, a second lockstep mismatch. -/
inductive ShutCause where
  | vin
  | rail
  | trip
  | fabLost
  | command
  | wake
  | lockstep
deriving DecidableEq, Repr

/-- Which condition of R740 makes the host lost. -/
inductive HostLoss where
  | heartbeat
  | perst
  | link
deriving DecidableEq, Repr

/-- What a pause finds on one side of a subchannel (R204): whether the setting 4 delay steps below, the current one, and
the one 4 above pass. -/
structure Probe where
  low : Bool
  cur : Bool
  high : Bool
deriving DecidableEq, Repr

/-- What the sequence header of a compressed frame says (R310, R314): profile_idc, general_profile_idc or seq_profile; level_idc, general_level_idc or the
highest seq_level_idx; general_tier_flag or seq_tier; chroma_format_idc (0 for a monochrome AV1 sequence); the bit depth; the decoded size;
frame_mbs_only_flag; constraint_set1_flag; a Main or Main 10 compatibility flag; a tool that R310 refuses (an H.265 extension, large_scale_tile). -/
structure SeqHdr where
  profile : Nat
  level : Nat
  tier : Nat := 0
  chroma : Nat := 1
  depth : Nat := 8
  width : Nat
  height : Nat
  frameMbsOnly : Bool := true
  set1 : Bool := false
  compat : Bool := false
  ext : Bool := false
deriving DecidableEq, Repr

/-- A damaged range of a picture (R329, R333): cause 1 to 5, unit index, kind of unit, first and last address. -/
structure Damage where
  cause : Nat
  unit : Nat
  kind : Nat
  first : Nat
  last : Nat
deriving DecidableEq, Repr

/-- A unit of a picture (R329): its bytes in the access unit, its first and last address, what parsing it finds (0 nothing wrong, 1 a syntax error or
out-of-range syntax, 5 a tool that R310 refuses), and what it predicts from: the output-order number of a picture, and the bytes of its luma plane. -/
structure DecUnit where
  off : Nat
  len : Nat
  first : Nat
  last : Nat
  outcome : Nat := 0
  refs : List (Nat × Nat × Nat) := []
deriving DecidableEq, Repr

/-- A picture of an access unit as its codec standard decodes it: the samples of both planes, its units in decoding order, whether they are tiles, the side of
an address block in samples, whether the picture is kept as a reference, the references that it releases and its own place in output order (both as
output-order numbers, which rise along the stream), whether it is shown, and where it is not whether a later access unit may show it. -/
structure DecPic where
  luma : List (BitVec 8)
  chroma : List (BitVec 8)
  units : List DecUnit
  tiles : Bool := false
  block : Nat
  keep : Bool
  release : List Nat := []
  order : Nat
  shown : Bool := true
  showable : Bool := false
deriving DecidableEq, Repr

/-- The decoding of one access unit as its codec standard gives it: its pictures in decoding order, how many pictures the codec's output process then lets
leave, the pictures decoded earlier that it shows again (show_existing_frame, output-order numbers), whether it ends the sequence. -/
structure Decoding where
  pics : List DecPic
  emit : Nat
  existing : List Nat := []
  endSeq : Bool := false
deriving DecidableEq, Repr


/-- One command per row of the table of operations and events. The docstring of each constructor names the rule that governs the row. -/
inductive Instr where
  /-- REGISTER_WRITE (R23) -/
  | registerWrite (req : Req) (off width : Nat) (data : W64)
  /-- RC_READ (R27) -/
  | rcRead (req : Req) (off : Nat)
  /-- EVT_STATUS_CLEAR (R38) -/
  | evtStatusClear (req : Req) (page : Nat) (data : W32)
  /-- EVT_ENABLE_WRITE (R38) -/
  | evtEnableWrite (req : Req) (page : Nat) (data : W32)
  /-- EVT_FORCE (R36) -/
  | evtForce (req : Req) (page : Nat) (data : W32)
  /-- ENABLE_WRITE (R33) -/
  | enableWrite (req : Req) (page : Nat) (data : W32)
  /-- SOFT_RESET (R34) -/
  | softReset (req : Req) (page : Nat) (data : W32)
  /-- SOFT_RESET_DONE (R34) -/
  | softResetDone (page : Nat)
  /-- TABLE_WINDOW_READ (R48) -/
  | tableWindowRead (req : Req) (off len : Nat) (ue : Bool)
  /-- TABLE_WINDOW_WRITE (R48) -/
  | tableWindowWrite (req : Req) (off : Nat) (data : List Byte)
  /-- XING_TIMEOUT (R58) -/
  | xingTimeout (dst src id : Nat) (resp : Bool) (host : List Cpl)
  /-- OP_POINT_REQUEST (R64) -/
  | opPointRequest (isl freq volt : Nat)
  /-- OP_POINT_STEP_DONE (R65) -/
  | opPointStepDone (isl : Nat)
  /-- STEP_LATE (R67) -/
  | stepLate (isl ns : Nat)
  /-- REG_FAULT (R68) -/
  | regFault (isl : Nat) (high : Bool) (dev : Nat)
  /-- ISLAND_FENCE (R68) -/
  | islandFence (isl : Nat)
  /-- AON_ISL_CTRL_WRITE (R59) -/
  | aonIslCtrlWrite (req : Req) (isl : Nat) (data : W32)
  /-- ISLAND_GATE (R562) -/
  | islandGate (isl : Nat) (retain : Bool)
  /-- ISLAND_POWER_UP (R95) -/
  | islandPowerUp (isl : Nat)
  /-- ISLAND_INIT_DONE (R96) -/
  | islandInitDone (isl : Nat)
  /-- MORTAR_REQUEST_INJECT (R792) -/
  | mortarRequestInject (req : Req) (src port : Nat) (chan : Chan) (addr len : Nat) (data : Option (List Byte)) (bad : List (Nat × Nat))
      (cls : Option Nat)
  /-- MORTAR_REQUEST_ARRIVE (R81) -/
  | mortarRequestArrive (arrivals : List (Nat × Nat)) (host : List Cpl)
  /-- WRITE_ACK (R80) -/
  | writeAck (id : Nat)
  /-- SRAM_SCRUB_STEP (R92) -/
  | sramScrubStep (bank : Nat) (busy : Bool)
  /-- SUPPLY_LOW (R770) -/
  | supplyLow (mv us : Nat)
  /-- PIN_RESET (R101) -/
  | pinReset (torn : Nat)
  /-- BOOT_RESET_REQ (R101) -/
  | bootResetReq (req : Req) (data : W32) (torn : Nat)
  /-- IMAGE_SELECT (R110) -/
  | imageSelect (glitch : List Bool)
  /-- MANIFEST_CHECK (R118) -/
  | manifestCheck (glitch : List Bool)
  /-- DRAM_TRAINING (R218) -/
  | dramTraining (trains : List (Nat × Train)) (bist : List (Nat × Nat × Nat)) (drfm : Bool) (rfm : Nat)
  /-- LINK_UP (R129) -/
  | linkUp (speed width : Nat)
  /-- ENDPOINT_RESET (R170) -/
  | endpointReset (cause : EndpointReset)
  /-- CONFIG_REQUEST (R133) -/
  | configRequest (fn reg : Nat) (write : Bool) (be : Nat) (data : W32) (hdr : List Nat)
  /-- INBOUND_READ_TLP (R142) -/
  | inboundReadTlp (fn addr len : Nat) (hdr : List Nat)
  /-- INBOUND_WRITE_TLP (R142) -/
  | inboundWriteTlp (fn addr : Nat) (data : List Byte) (ep : Bool) (host : List Cpl) (cycles : Nat) (hdr : List Nat)
  /-- INBOUND_UNSUPPORTED_TLP (R142) -/
  | inboundUnsupportedTlp (fn : Nat) (kind : TlpKind) (len : Nat) (hdr : List Nat)
  /-- DISABLED_VF_REQUEST (R798) -/
  | disabledVfRequest (posted write : Bool) (len : Nat) (hdr : List Nat)
  /-- HWIN_REQUEST (R146) -/
  | hwinRequest (req : Req) (addr len : Nat) (data : Option (List Byte)) (bad : List (Nat × Nat)) (bulk : Bool)
  /-- COMPLETION_ARRIVE (R153) -/
  | completionArrive (tag status : Nat) (ep : Bool) (data : List Byte) (hdr : List Nat)
  /-- CPL_TIMEOUT (R796) -/
  | cplTimeout (tag : Nat)
  /-- MSIX_UNMASK (R161) -/
  | msixUnmask (fn vector : Nat) (due : Bool)
  /-- FUNCTION_SEND_RESUME (R797) -/
  | functionSendResume (fn : Nat)
  /-- VF_FLR (R166) -/
  | vfFlr (vf : Nat)
  /-- FLR_DONE (R166) -/
  | flrDone (fn : Nat)
  /-- POWER_STATE_CHANGE (R168) -/
  | powerStateChange (fn : Nat) (d3 : Bool)
  /-- DRAM_REQUEST_ACCEPT (R190) -/
  | dramRequestAccept (src : Nat) (req : Req) (cls : Option Nat) (chan : Chan) (addr len : Nat) (data : Option (List Byte)) (bad : List (Nat × Nat))
  /-- DRAM_READ (R185) -/
  | dramRead (sub : Nat)
  /-- DRAM_WRITE (R186) -/
  | dramWrite (sub : Nat)
  /-- REQUEST_AGE (R189) -/
  | requestAge (sub index : Nat) (write : Bool)
  /-- ROW_ACTIVATE (R198) -/
  | rowActivate (sub bank row src : Nat)
  /-- MITIGATION_ISSUE (R199) -/
  | mitigationIssue (sub bank : Nat)
  /-- ACT_TABLE_CLEAR (R200) -/
  | actTableClear (sub : Nat)
  /-- THROTTLE_WINDOW_END (R202) -/
  | throttleWindowEnd (sub : Nat)
  /-- REFRESH_TICK (R193) -/
  | refreshTick (sub : Nat)
  /-- REFRESH_ISSUE (R194) -/
  | refreshIssue (sub : Nat)
  /-- REFRESH_PULLIN (R194) -/
  | refreshPullin (sub : Nat)
  /-- MR4_POLL (R193) -/
  | mr4Poll (sub rate : Nat)
  /-- POWER_DOWN_ENTRY (R203) -/
  | powerDownEntry (sub : Nat)
  /-- RETRAIN_PAUSE (R204) -/
  | retrainPause (sub : Nat) (rd wr : Probe)
  /-- RETRAIN_FORCE (R204) -/
  | retrainForce (req : Req) (page : Nat) (data : W32)
  /-- RETRAIN_WINDOW (R208) -/
  | retrainWindow (sub : Nat) (train : Train)
  /-- DRAM_ALERT (R211) -/
  | dramAlert (sub : Nat) (replay : Bool)
  /-- ALERT_RECOVERY (R212) -/
  | alertRecovery (sub : Nat) (parity crc : Bool)
  /-- RETRY_ENTRY_RETIRE (R210) -/
  | retryEntryRetire (sub : Nat) (write : Bool)
  /-- DRAM_PATROL_SCRUB (R187) -/
  | dramPatrolScrub (sub : Nat)
  /-- QUEUE_ENABLE (R226) -/
  | queueEnable (req : Req) (queue : Nat) (w1 : W32)
  /-- QUEUE_DISABLE (R227) -/
  | queueDisable (req : Req) (queue : Nat) (w1 : W32)
  /-- QUEUE_DISABLE_DONE (R227) -/
  | queueDisableDone (queue : Nat)
  /-- DEVICE_PUSH (R229) -/
  | devicePush (req : Req) (queue : Nat) (entries : List (List Byte)) (bad : List Nat) (cycles : Nat) (hold : Bool)
  /-- PUSH_COMMIT (R229) -/
  | pushCommit (queue : Nat)
  /-- TRIGGER_PUSH (R230) -/
  | triggerPush (queue count cycles : Nat) (hold : Bool)
  /-- DEVICE_POP (R231) -/
  | devicePop (req : Req) (queue count : Nat) (meet : HodMeet) (host : List Cpl)
  /-- DOORBELL_PUSHED (R248) -/
  | doorbellPushed (req : Req) (queue count ack cycles : Nat) (hold : Bool)
  /-- DOORBELL_POPPED (R248) -/
  | doorbellPopped (req : Req) (queue count ack : Nat) (meet : HodMeet)
  /-- DOORBELL_ACK (R247) -/
  | doorbellAck (req : Req) (queue ack : Nat)
  /-- COPY_DESCRIPTOR (R255) -/
  | copyDescriptor (queue : Nat) (meet : HodMeet) (host : List Cpl)
  /-- FILL_DESCRIPTOR (R254) -/
  | fillDescriptor (queue : Nat) (meet : HodMeet) (host : List Cpl)
  /-- COPY_COMPLETE (R257) -/
  | copyComplete (queue cycles : Nat)
  /-- CQ_PUSH_RETRY (R258) -/
  | cqPushRetry (queue cycles : Nat)
  /-- ALLOCATE (R270) -/
  | allocate (ident size : Nat) (ue : List Upset)
  /-- FREE (R272) -/
  | free (req : Req) (ident handle : Nat) (ue : List Upset)
  /-- RECLAIM (R279) -/
  | reclaim (req : Req) (ident : Nat)
  /-- RECLAIM_DONE (R279) -/
  | reclaimDone (ue : List (Nat × Nat))
  /-- CSI_FRAME_START (R288) -/
  | csiFrameStart (port vc frame : Nat) (rx : CsiRx)
  /-- CSI_FIRST_LINE (R288) -/
  | csiFirstLine (port vc dt wc : Nat) (data : List Byte) (crcOk : Bool) (rx : CsiRx)
  /-- CSI_LINE (R289) -/
  | csiLine (port vc dt wc : Nat) (data : List Byte) (crcOk : Bool) (rx : CsiRx)
  /-- CSI_FRAME_END (R293) -/
  | csiFrameEnd (port vc : Nat) (rx : CsiRx)
  /-- FRAME_TRIGGER (R293) -/
  | frameTrigger (source cycles : Nat)
  /-- CSI_DESKEW_DONE (R300) -/
  | csiDeskewDone (port : Nat) (rx : CsiRx)
  /-- ETH_FRAME_RECEIVE (R302) -/
  | ethFrameReceive (mac : Nat) (frame : List Byte) (fcsOk : Bool)
  /-- AVTP_PACKET (R303) -/
  | avtpPacket (mac : Nat) (packet : List Byte)
  /-- PTP_RX (R298) -/
  | ptpRx (mac : Nat) (frame : List Byte)
  /-- PTP_TX_SEND (R298) -/
  | ptpTxSend (req : Req) (mac : Nat) (data : W32)
  /-- PTP_TX_DONE (R298) -/
  | ptpTxDone (mac : Nat)
  /-- HOST_PUSH_DESC (R305) -/
  | hostPushDesc (mac entry : Nat) (meet : HodMeet) (host : List Cpl)
  /-- HOST_PUSH_READ_DONE (R307) -/
  | hostPushReadDone (source cycles : Nat)
  /-- STREAM_STALL (R308) -/
  | streamStall (source : Nat)
  /-- DEV_ENGINE_SELECT (R325) -/
  | devEngineSelect (engine : Nat) (hdr : Option SeqHdr) (rap : Bool) (refs : List Bool) (meet : HodMeet) (host : List Cpl)
  /-- DEV_DECODE_DONE (R320) -/
  | devDecodeDone (engine : Nat) (out : Decoding) (us stallNs : Nat)
  /-- DEV_PICTURE_OUTPUT (R320) -/
  | devPictureOutput (slot : Nat)
  /-- DEV_OUTPUT_FLUSH (R321) -/
  | devOutputFlush (slot : Nat)
  /-- DEV_RESYNC_DONE (R335) -/
  | devResyncDone (slot : Nat)
  /-- ENL_ENGINE_SELECT (R346) -/
  | enlEngineSelect (engine : Nat) (meet : HodMeet) (host : List Cpl)
  /-- ENL_TILE_END (R348) -/
  | enlTileEnd (engine us stallNs : Nat)
  /-- ENL_SAMPLE_COMPLETE (R353) -/
  | enlSampleComplete (engine : Nat)
  /-- ESL_LANE_REQUEST (R355) -/
  | eslLaneRequest (engine : Nat)
  /-- FILL_TIMER (R359) -/
  | fillTimer (group : Nat)
  /-- ESL_BATCH_RELEASE (R361) -/
  | eslBatchRelease (group : Nat)
  /-- ESL_BATCH_TRIGGER (R361) -/
  | eslBatchTrigger (group cycles : Nat)
  /-- JOB_START (R373) -/
  | jobStart (core : Nat) (urgent : Bool) (ns : Nat)
  /-- PREEMPTION_POINT (R373) -/
  | preemptionPoint (core cycles : Nat)
  /-- ITEM_ARRIVE (R393) -/
  | itemArrive (core : Nat) (urgent : Bool) (index : Nat)
  /-- STALL_TIMEOUT (R395) -/
  | stallTimeout (core : Nat)
  /-- PP_LATE (R378) -/
  | ppLate (core cycles : Nat)
  /-- JOB_END (R533) -/
  | jobEnd (core : Nat)
  /-- JOB_ABORT (R535) -/
  | jobAbort (core : Nat) (urgent : Bool)
  /-- ARRAY_COMMAND_COMPLETE (R462) -/
  | arrayCommandComplete (core : Nat)
  /-- MOVER_PIECE_RESPONSE (R439) -/
  | moverPieceResponse (core mover : Nat) (host : List Cpl)
  /-- LOOP_END_EVALUATE (R427) -/
  | loopEndEvaluate (core : Nat)
  /-- ADD_SUB_AND_OR_XOR_SLL_SRL_SRA (R419) -/
  | addSubAndOrXorSllSrlSra (core : Nat)
  /-- SLT_SLTU (R418) -/
  | sltSltu (core : Nat)
  /-- MIN_MAX_MINU_MAXU (R418) -/
  | minMaxMinuMaxu (core : Nat)
  /-- ADDS_SUBS (R419) -/
  | addsSubs (core : Nat)
  /-- MUL (R419) -/
  | mul (core : Nat)
  /-- MULH_MULHU (R418) -/
  | mulhMulhu (core : Nat)
  /-- DIV_DIVU_REM_REMU (R419) -/
  | divDivuRemRemu (core : Nat)
  /-- CLZ_POPC (R419) -/
  | clzPopc (core : Nat)
  /-- CMPEQ_CMPNE_CMPLT_CMPLTU_CMPGE_CMPGEU (R418) -/
  | cmpeqCmpneCmpltCmpltuCmpgeCmpgeu (core : Nat)
  /-- PAND_POR_PXOR_PANDN (R418) -/
  | pandPorPxorPandn (core : Nat)
  /-- PMOVX (R418) -/
  | pmovx (core : Nat)
  /-- XMOVP (R418) -/
  | xmovp (core : Nat)
  /-- FADD_FSUB_FMUL_FDIV_FMIN_FMAX (R422) -/
  | faddFsubFmulFdivFminFmax (core : Nat)
  /-- FSQRT (R422) -/
  | fsqrt (core : Nat)
  /-- FCVTIF (R422) -/
  | fcvtif (core : Nat)
  /-- FCVTFI (R422) -/
  | fcvtfi (core : Nat)
  /-- FCMPLT_FCMPEQ (R422) -/
  | fcmpltFcmpeq (core : Nat)
  /-- LDB_LDBU_LDH_LDHU_LDW_LDWU_LDD (R420) -/
  | ldbLdbuLdhLdhuLdwLdwuLdd (core : Nat)
  /-- STB_STH_STW_STD (R420) -/
  | stbSthStwStd (core : Nat)
  /-- BR (R423) -/
  | br (core : Nat)
  /-- JAL (R423) -/
  | jal (core : Nat)
  /-- JR (R424) -/
  | jr (core : Nat)
  /-- LOOP (R427) -/
  | loop (core : Nat)
  /-- LCLR (R423) -/
  | lclr (core : Nat)
  /-- LRD (R423) -/
  | lrd (core : Nat)
  /-- ENDJOB (R425) -/
  | endjob (core : Nat)
  /-- FENCE (R423) -/
  | fence (core : Nat)
  /-- MWAIT (R438) -/
  | mwait (core : Nat)
  /-- AWAIT (R423) -/
  | await (core : Nat)
  /-- RDSTAT (R426) -/
  | rdstat (core : Nat)
  /-- CLRSTAT (R423) -/
  | clrstat (core : Nat)
  /-- HPUSH (R430) -/
  | hpush (core cycles : Nat)
  /-- HPOP (R430) -/
  | hpop (core : Nat) (meet : HodMeet) (host : List Cpl)
  /-- HPEEK (R423) -/
  | hpeek (core : Nat)
  /-- QALLOC (R431) -/
  | qalloc (core : Nat)
  /-- QFREE (R431) -/
  | qfree (core : Nat)
  /-- SVC (R432) -/
  | svc (core : Nat)
  /-- LOAD (R434) -/
  | load (core : Nat)
  /-- STORE (R434) -/
  | store (core : Nat)
  /-- COPY (R434) -/
  | copy (core : Nat)
  /-- GATHER (R441) -/
  | gather (core : Nat)
  /-- FILL (R434) -/
  | fill (core : Nat)
  /-- MMA (R448) -/
  | mma (core : Nat)
  /-- DRAIN (R458) -/
  | drain (core : Nat)
  /-- ACLR (R460) -/
  | aclr (core : Nat)
  /-- VLD (R467) -/
  | vld (core : Nat)
  /-- VST (R467) -/
  | vst (core : Nat)
  /-- VBCAST (R466) -/
  | vbcast (core : Nat)
  /-- VMOV (R469) -/
  | vmov (core : Nat)
  /-- VADD_VSUB (R470) -/
  | vaddVsub (core : Nat)
  /-- VMUL (R470) -/
  | vmul (core : Nat)
  /-- VMULH (R470) -/
  | vmulh (core : Nat)
  /-- VMAC (R471) -/
  | vmac (core : Nat)
  /-- VMIN_VMAX (R471) -/
  | vminVmax (core : Nat)
  /-- VABS_VNEG (R470) -/
  | vabsVneg (core : Nat)
  /-- VAND_VOR_VXOR (R466) -/
  | vandVorVxor (core : Nat)
  /-- VSHL_VSHR (R470) -/
  | vshlVshr (core : Nat)
  /-- VSHRR (R470) -/
  | vshrr (core : Nat)
  /-- VCMPEQ_VCMPLT_VCMPLE (R471) -/
  | vcmpeqVcmpltVcmple (core : Nat)
  /-- VSEL (R466) -/
  | vsel (core : Nat)
  /-- VCVT (R472) -/
  | vcvt (core : Nat)
  /-- VRMAX (R471) -/
  | vrmax (core : Nat)
  /-- VRSUM (R471) -/
  | vrsum (core : Nat)
  /-- VPOOL (R473) -/
  | vpool (core : Nat)
  /-- VQROW (R474) -/
  | vqrow (core : Nat)
  /-- VRCP_VRSQRT_VEXP (R471) -/
  | vrcpVrsqrtVexp (core : Nat)
  /-- VSHUF (R466) -/
  | vshuf (core : Nat)
  /-- DISPATCH_NORMAL (R529) -/
  | dispatchNormal (core : Nat) (meet : HodMeet) (host : List Cpl)
  /-- PARTITION_QUIESCED (R526) -/
  | partitionQuiesced (part : Nat)
  /-- DEADLINE_PASS (R545) -/
  | deadlinePass (model : Nat) (meet : HodMeet) (host : List Cpl)
  /-- WINDOW_GRANT (R552) -/
  | windowGrant (sub : Nat) (late : Bool)
  /-- SENSOR_SAMPLE (R556) -/
  | sensorSample (sensor : Nat) (sample : Int) (ok : Bool)
  /-- PERIOD_BOUNDARY (R563) -/
  | periodBoundary (uj : List Nat)
  /-- PLAN_ACCEPT (R575) -/
  | planAccept (us iter : Nat) (x : List Nat)
  /-- PLAN_ABANDON (R575) -/
  | planAbandon (us iter status : Nat)
  /-- KEY_SOLVE (R603) -/
  | keySolve (host : List Cpl)
  /-- KEY_SETUP (R602) -/
  | keySetup (us stallNs uj : Nat)
  /-- KEY_SEGMENT_END (R612) -/
  | keySegmentEnd (us stallNs uj : Nat)
  /-- KEY_PF_SUBMIT (R595) -/
  | keyPfSubmit (req : Req) (ctx : Nat) (data : W32) (host : List Cpl)
  /-- LOAD_BASIS (R620) -/
  | loadBasis (host : List Cpl)
  /-- LOAD_MODULUS (R622) -/
  | loadModulus (host : List Cpl)
  /-- SFL_MUL (R626) -/
  | sflMul (host : List Cpl)
  /-- SFL_ADD (R626) -/
  | sflAdd (host : List Cpl)
  /-- SFL_SUB (R626) -/
  | sflSub (host : List Cpl)
  /-- MULADD (R626) -/
  | muladd (host : List Cpl)
  /-- MASK (R634) -/
  | mask (host : List Cpl)
  /-- NTT (R626) -/
  | ntt (host : List Cpl)
  /-- INTT (R626) -/
  | intt (host : List Cpl)
  /-- AUTO (R626) -/
  | auto (host : List Cpl)
  /-- BASE_EXT (R626) -/
  | baseExt (host : List Cpl)
  /-- LMUL (R626) -/
  | lmul (host : List Cpl)
  /-- LADD (R626) -/
  | ladd (host : List Cpl)
  /-- VAULT_IMPORT (R635) -/
  | vaultImport (host : List Cpl)
  /-- SFL_OPERATION_END (R643) -/
  | sflOperationEnd (us stallNs uj : Nat)
  /-- SFL_PF_SUBMIT (R643) -/
  | sflPfSubmit (req : Req) (data : W32) (host : List Cpl)
  /-- MIC_BLOCK (R649) -/
  | micBlock (times : List (List Int)) (ts : Nat)
  /-- MIC_STUCK (R652) -/
  | micStuck (mic : Nat)
  /-- TDM_IN_LOST (R654) -/
  | tdmInLost (ppm : Int)
  /-- TDM_IN_RELOCK (R654) -/
  | tdmInRelock (ppm : Int)
  /-- TDM_OUT_FRAME (R662) -/
  | tdmOutFrame (src : List Int)
  /-- ALERT_ENTRY_POP (R662) -/
  | alertEntryPop (meet : HodMeet) (host : List Cpl)
  /-- AMP_LATCH (R673) -/
  | ampLatch (chan cls : Nat)
  /-- AMP_IDLE_PULSE (R674) -/
  | ampIdlePulse (chan cls : Nat)
  /-- AMP_RETRY (R676) -/
  | ampRetry (chan : Nat) (good : Bool) (cls : Nat)
  /-- AMP_DIAG_WRITE (R675) -/
  | ampDiagWrite (chan : Nat) (data : W32)
  /-- CSH_OCCURRENCE (R703) -/
  | cshOccurrence (n : Nat)
  /-- CSH_SW_RECORD (R700) -/
  | cshSwRecord (req : Req) (data : W32)
  /-- FLT_FAULT_ARRIVE (R718) -/
  | fltFaultArrive (n : Nat)
  /-- VIN_CHANGE (R732) -/
  | vinChange (mv : Int) (ma : Nat)
  /-- ORDERLY_SHUTDOWN (R734) -/
  | orderlyShutdown (why : ShutCause)
  /-- MODULE_START (R735) -/
  | moduleStart (rose : Bool)
  /-- HEARTBEAT (R740) -/
  | heartbeat (count : W32)
  /-- HOST_LOST (R740) -/
  | hostLost (why : HostLoss)
  /-- COOLANT_UPDATE (R742) -/
  | coolantUpdate (cold reg : Int)
  /-- VEHICLE (R755) -/
  | vehicle (data : List Byte)
  /-- MGMT_WRITE (R776) -/
  | mgmtWrite (addr : Nat) (data : List Byte)
  /-- MGMT_READ (R776) -/
  | mgmtRead (addr words : Nat)
  /-- EXTEST (R780) -/
  | extest (data pins : Nat)
  /-- SAMPLE_PRELOAD (R780) -/
  | samplePreload (data pins : Nat)
  /-- REG_RETURN (R68) -/
  | regReturn (isl : Nat)
  /-- MIC_STUCK_CLEAR (R652) -/
  | micStuckClear (mic : Nat)
  /-- ETH_LINK_CHANGE (R302) -/
  | ethLinkChange (mac : Nat) (up : Bool)
  /-- CSI_IGNORED_PACKET (R299) -/
  | csiIgnoredPacket (port dt : Nat) (rx : CsiRx)
  /-- MAILBOX_WRITE (R751) -/
  | mailboxWrite (off : Nat) (data : List Byte)
  /-- SUPPLY_RAMP (R98) -/
  | supplyRamp
  /-- BROWNOUT (R98) -/
  | brownout
  /-- RESET_RELEASE (R99) -/
  | resetRelease
  /-- ISLAND_BRINGUP (R126) -/
  | islandBringup
  /-- LOCAL_MODEL_HASH (R121) -/
  | localModelHash
  /-- BOOT_ENABLE (R122) -/
  | bootEnable
  /-- STREAM_ENABLE (R126) -/
  | streamEnable
  /-- DIRECTORY_WRITE_DONE (R104) -/
  | directoryWriteDone
  /-- FLASH_DONE (R102) -/
  | flashDone
  /-- FLASH_TIMEOUT (R102) -/
  | flashTimeout
  /-- OTP_DONE (R125) -/
  | otpDone
  /-- LINK_TRAIN (R171) -/
  | linkTrain
  /-- TAG_WAIT_ISSUE (R150) -/
  | tagWaitIssue
  /-- POSTED_WRITE_SENT (R799) -/
  | postedWriteSent
  /-- PF_FLR (R167) -/
  | pfFlr
  /-- L1_ENTRY (R169) -/
  | l1Entry
  /-- LAYOUT_READY (R217) -/
  | layoutReady
  /-- TB_HOLDOVER (R296) -/
  | tbHoldover
  /-- ESL_AUDIO_WINDOW (R365) -/
  | eslAudioWindow
  /-- DISPATCH_URGENT (R530) -/
  | dispatchUrgent (meet : HodMeet) (host : List Cpl)
  /-- CLAMP_RELEASE (R588) -/
  | clampRelease
  /-- KEY_RELEASE (R596) -/
  | keyRelease
  /-- VAULT_CLEAR (R626) -/
  | vaultClear
  /-- MIC_BLOCK_HANDOFF (R650) -/
  | micBlockHandoff
  /-- ALERT_HOLD_EXPIRE (R661) -/
  | alertHoldExpire
  /-- SEAM_CHECK_DONE (R684) -/
  | seamCheckDone
  /-- SEAM_VOTES_DONE (R686) -/
  | seamVotesDone
  /-- SEAM_COMMIT (R688) -/
  | seamCommit
  /-- SEAM_TIMEOUT (R690) -/
  | seamTimeout
  /-- CSH_ACCEPT (R701) -/
  | cshAccept
  /-- CSH_RECORD_WRITE (R704) -/
  | cshRecordWrite
  /-- CSH_SNAPSHOT (R707) -/
  | cshSnapshot
  /-- CSH_EXT_COPY (R710) -/
  | cshExtCopy
  /-- INJECTION_EXPIRE (R730) -/
  | injectionExpire
  /-- VIN_RANGE_TIMEOUT (R732) -/
  | vinRangeTimeout
  /-- RAIL_FAULT (R738) -/
  | railFault
  /-- LOCKSTEP_MISMATCH (R743) -/
  | lockstepMismatch
  /-- THERMAL_TRIP_OFF (R744) -/
  | thermalTripOff
  /-- TRIP_RESTART (R745) -/
  | tripRestart
  /-- FYP_SAFETY_SAMPLE (R747) -/
  | fypSafetySample
  /-- FAB_LOST (R747) -/
  | fabLost
  /-- LEDGER_DELIVER (R749) -/
  | ledgerDeliver
  /-- LEDGER_UPDATE (R750) -/
  | ledgerUpdate
  /-- LEDGER_TIMEOUT (R778) -/
  | ledgerTimeout
  /-- WAKE_TIMEOUT (R753) -/
  | wakeTimeout
  /-- ALERT_FRAME (R754) -/
  | alertFrame
  /-- STATUS_FRAME (R754) -/
  | statusFrame
  /-- DEGRADED_FRAME (R754) -/
  | degradedFrame
  /-- VEHICLE_TIMEOUT (R755) -/
  | vehicleTimeout
  /-- IDCODE (R780) -/
  | idcode
  /-- BYPASS (R780) -/
  | bypass
  /-- LOCKSTEP_RESET_DONE (R743) -/
  | lockstepResetDone
  /-- TAP_RESET (R780) -/
  | tapReset
  /-- LOCK_SET (R35) -/
  | lockSet (req : Req) (page : Nat)
  /-- BOOT_CONFIRM (R112) -/
  | bootConfirm (req : Req) (data : W32)
  /-- FLASH_READ (R102) -/
  | flashRead (req : Req)
  /-- FLASH_PROGRAM (R102) -/
  | flashProgram (req : Req)
  /-- FLASH_ERASE (R102) -/
  | flashErase (req : Req)
  /-- FLASH_INSTALL (R109) -/
  | flashInstall (req : Req)
  /-- ADVANCE_ROLLBACK (R125) -/
  | advanceRollback (req : Req) (data : W32)
  /-- REVOKE_KEY (R125) -/
  | revokeKey (req : Req) (data : W32)
  /-- RETIRE (R125) -/
  | retire (req : Req) (data : W32)
  /-- PTP_RX_POP (R298) -/
  | ptpRxPop (req : Req) (mac : Nat) (data : W32)
  /-- TB_STEP (R295) -/
  | tbStep (req : Req) (data : W32)
  /-- TB_SLEW (R295) -/
  | tbSlew (req : Req) (data : W32)
  /-- TB_RATE (R294) -/
  | tbRate (req : Req) (data : W32)
  /-- TB_SERVO_LOCKED (R296) -/
  | tbServoLocked (req : Req) (data : W32)
  /-- DEV_RESYNC (R335) -/
  | devResync (req : Req) (slot : Nat) (data : W32)
  /-- PARTITION_QUIESCE (R526) -/
  | partitionQuiesce (req : Req) (part : Nat) (data : W32)
  /-- AMP_CLEAR (R676) -/
  | ampClear (req : Req) (chan : Nat) (data : W32)
  /-- PREPARE (R683) -/
  | prepare (req : Req)
  /-- ABORT (R690) -/
  | abort (req : Req)
  /-- DISCARD (R692) -/
  | discard (req : Req)
  /-- CSH_EXT_ENABLE (R713) -/
  | cshExtEnable (req : Req) (data : W32)
  /-- SAFE_STATUS_CLEAR (R723) -/
  | safeStatusClear (req : Req) (seen : Bool) (data : W32)
  /-- CLEAR_LAST (R725) -/
  | clearLast (req : Req) (data : W32)
  /-- SRAM_CE (R730) -/
  | sramCe (req : Req) (data : W32)
  /-- SRAM_UE (R730) -/
  | sramUe (req : Req) (data : W32)
  /-- PAIR (R730) -/
  | pair (req : Req) (data : W32)
  /-- CSI_CRC (R730) -/
  | csiCrc (req : Req) (data : W32)
  /-- DRAM_CA (R730) -/
  | dramCa (req : Req) (data : W32)
  /-- DRAM_CRC (R730) -/
  | dramCrc (req : Req) (data : W32)
  /-- DELAY (R730) -/
  | delay (req : Req) (data : W32)
  /-- HOLD_READ (R730) -/
  | holdRead (req : Req) (data : W32)
  /-- TEMP (R730) -/
  | temp (req : Req) (data : W32)
  /-- TRIP_TEST (R730) -/
  | tripTest (req : Req) (data : W32)
  /-- RESTART (R752) -/
  | restart (key : Nat) (wake : Bool)
  /-- SERVICE_BOOT (R752) -/
  | serviceBoot (key : Nat) (wake : Bool)
  /-- SHUTDOWN (R752) -/
  | shutdown (key : Nat) (wake : Bool)
  /-- LEDGER_CLEAR (R750) -/
  | ledgerClear (key : Nat) (wake : Bool)
  /-- CAN_SET (R752) -/
  | canSet (key : Nat) (wake : Bool)
deriving DecidableEq, Repr

end Sys2Proof
end

