-- ==== Sys2Proof/Decode.lean ====
section
/-!
DEFINITION. Decode.lean: the reading of a command from a word. The table of operations and events gives no row any bits
(R6: there is no encoding of a command), so no word spells one.
-/
namespace Sys2Proof

/-- The command that a word spells: none, since no row of the table has an encoding. -/
def decodeTableWord (_nbits _w : Nat) : Option Instr := none

end Sys2Proof
end

