-- ==== Sys2Proof/Config.lean ====
section
/-!
DEFINITION. Config.lean: the values that the spec leaves open, as constants without a body (free values).
-/
namespace Sys2Proof

/-- A value of any width that the spec leaves open, fresh at each use: the k-th one drawn in a run. -/
opaque Config.freeValue : Nat → Nat

/-- Enlarger's colour conversions are computed with 12 and this many more fractional bits (11 R342: at least 12). -/
opaque Config.matrixBits : Nat

/-- Whether a position or weight of Enlarger that lies between two steps of its grid is taken upwards, and to which code a result
half way between two codes goes (11 R342, R343); by the stage (0 position, 1 weight, 2 tie), remainder and divisor. -/
opaque Config.pixelUp : Nat → Nat → Nat → Bool

/-- VRCP, VRSQRT and VEXP of an FP32 operand (14 R471): operation 0, 1, 2, operand pattern; which of the results that the error
bound allows is given. -/
opaque Config.approx : Nat → Nat → Nat

/-- How Keystone associates the operations that 19 R602 and R603 leave open (R606 fixes rounding, fusing and index order alone): 0 which of
four products a factor term is, 1 (non-zero) whether it multiplies by rounded reciprocals instead of dividing. -/
opaque Config.keystoneForm : Nat → Nat

/-- Fypajo's firmware version as FYP_ID shows it: MAJOR, then MINOR (25 Register map). -/
opaque Config.fypVersion : Nat × Nat

/-- What an Ashlar cell holds that the tile kept by WL 0 does not reach (14 R448): core issue count, row and byte of the tile as the command takes it. -/
opaque Config.staleCell : Nat → Nat → Nat → BitVec 8

/-- The SHA-384 hashes of the signing keys that a customer's part is provisioned with, by key slot (01 R13, 04 R123); no rule gives one. -/
opaque Config.keyHash : Nat → List Byte

/-- The SHA-384 hash of Carvoux's development key, which an -ES part holds in slot 0 (01 R13, 04 R124); no rule gives it. -/
opaque Config.devKeyHash : List Byte

/-- The eight check bits of a 64-bit ECC word (03 R86, 06 R183): the spec names a single-error-correcting, double-error-detecting code and gives no
generator. -/
opaque Config.checkByte : BitVec 64 → BitVec 8

end Sys2Proof
end

