-- ==== Sys2Proof/Machine/Bits.lean ====
section
/-!
DEFINITION. Machine/Bits.lean: bit fields of a number, little-endian bytes, two's complement and saturation.
-/
namespace Sys2Proof.Machine
open Sys2Proof

/-- Bits [hi:lo] of `v`. -/
def bits (v hi lo : Nat) : Nat := (v >>> lo) % 2 ^ (hi + 1 - lo)

/-- `v` with bits [hi:lo] replaced by `x`. -/
def putBits (v hi lo x : Nat) : Nat :=
  v - (bits v hi lo <<< lo) + ((x % 2 ^ (hi + 1 - lo)) <<< lo)

/-- Bit `i` of `v` as a Bool. -/
def bit (v i : Nat) : Bool := v.testBit i

/-- 0 or 1. -/
def b2n (b : Bool) : Nat := if b then 1 else 0

/-- `v` with bit `i` set to `b`. -/
def putBit (v i : Nat) (b : Bool) : Nat := putBits v i i (b2n b)

/-- The sum of `a` and `b`, held at the largest value of `w` bits. -/
def satAdd (w a b : Nat) : Nat := min (2 ^ w - 1) (a + b)

/-- `v` of `w` bits read as two's complement. -/
def sx (w v : Nat) : Int :=
  let u := v % 2 ^ w
  if u < 2 ^ (w - 1) then (u : Int) else (u : Int) - (2 ^ w : Nat)

/-- `x` as a `w`-bit two's complement number. -/
def unsx (w : Nat) (x : Int) : Nat := (x % ((2 ^ w : Nat) : Int)).toNat

/-- `x` held within the range of `w`-bit two's complement. -/
def satI (w : Nat) (x : Int) : Int :=
  let hi : Int := (2 ^ (w - 1) : Nat) - 1
  let lo : Int := -((2 ^ (w - 1) : Nat) : Int)
  if x > hi then hi else if x < lo then lo else x

/-- The quotient of `a` and `b` rounded up. -/
def ceilDiv (a b : Nat) : Nat := (a + b - 1) / b

/-- `a` rounded up to a multiple of `b`. -/
def alignUp (a b : Nat) : Nat := ceilDiv a b * b

/-- The `n` little-endian bytes of `v`. -/
def leBytes : Nat → Nat → List Byte
  | 0, _ => []
  | n + 1, v => BitVec.ofNat 8 v :: leBytes n (v / 256)

/-- The number that little-endian bytes spell. -/
def ofLe : List Byte → Nat
  | [] => 0
  | b :: bs => b.toNat + 256 * ofLe bs

/-- Bytes [lo + n - 1 : lo] of a record as a little-endian number. -/
def field (bs : List Byte) (lo n : Nat) : Nat := ofLe ((bs.drop lo).take n)

/-- `bs` with the bytes from `lo` on replaced by `xs`. -/
def putBytes (bs : List Byte) (lo : Nat) (xs : List Byte) : List Byte :=
  bs.take lo ++ xs ++ bs.drop (lo + xs.length)

/-- Exactly `n` bytes: cut, or filled with zero bytes. -/
def padTo (n : Nat) (bs : List Byte) : List Byte :=
  bs.take n ++ List.replicate (n - bs.length) 0

/-- The numbers from `lo` on, `n` of them. -/
def span (lo n : Nat) : List Nat := (List.range n).map (lo + ·)

/-- The first index below `n` that satisfies `p`. -/
def firstIdx (n : Nat) (p : Nat → Bool) : Option Nat := (List.range n).find? p

/-- Element `i`, or `d`. -/
def nth {α : Type} (l : List α) (i : Nat) (d : α) : α := (l[i]?).getD d

/-- The list with element `i` changed by `f`. -/
def updAt {α : Type} (l : List α) (i : Nat) (f : α → α) : List α := l.modify i f

/-- The set bits of `v` below `n`, ascending. -/
def bitList (v n : Nat) : List Nat := (List.range n).filter (bit v)

/-- CRC over bytes, most significant bit first, of width 8 with the given polynomial and start. -/
def crc8 (poly start : Nat) (bs : List Byte) : Nat :=
  bs.foldl (fun c b =>
    (List.range 8).foldl (fun c _ => if c ≥ 128 then ((c * 2) % 256) ^^^ poly else c * 2) (c ^^^ b.toNat)) start

/-- The low `n` bits of `v`, most significant first. -/
def bitsHigh (v n : Nat) : List Bool := ((List.range n).map (bit v)).reverse

/-- A CRC of width `w` over bits, most significant first, with the given polynomial and start. -/
def crcBits (poly w start : Nat) (bs : List Bool) : Nat :=
  bs.foldl (fun c b => (if bit c (w - 1) = b then c * 2 else (c * 2) ^^^ poly) % 2 ^ w) start

/-- CRC-32 of IEEE 802.3 (reflected, start and final inversion) over bytes. -/
def crc32 (bs : List Byte) : Nat :=
  (bs.foldl (fun c b =>
    (List.range 8).foldl (fun c _ => if c % 2 = 1 then (c / 2) ^^^ 0xEDB88320 else c / 2) (c ^^^ b.toNat)) 0xFFFFFFFF)
    ^^^ 0xFFFFFFFF

end Sys2Proof.Machine
end

