-- ==== Sys2Proof/Machine/Num.lean ====
section
/-!
DEFINITION. Machine/Num.lean: the number formats of 15 (R475), their values, the one rounding of R477 and the arithmetic
that every unit shares (R422, R471, R476).
-/
namespace Sys2Proof.Machine
open Sys2Proof

/-- A floating format (R475): exponent and mantissa widths, its bias, and whether it has infinities; E4M3 has none and uses
its whole top binade but one. -/
structure Fmt where
  eb : Nat
  mb : Nat
  bias : Nat
  infs : Bool := true
deriving DecidableEq, Repr

abbrev fp32 : Fmt := { eb := 8, mb := 23, bias := 127 }
abbrev bf16 : Fmt := { eb := 8, mb := 7, bias := 127 }
abbrev fp64 : Fmt := { eb := 11, mb := 52, bias := 1023 }
abbrev e4m3 : Fmt := { eb := 4, mb := 3, bias := 7, infs := false }
abbrev e5m2 : Fmt := { eb := 5, mb := 2, bias := 15 }

/-- A value: NaN, an infinity, or (−1)^neg × m × 2^e exactly, zero with its sign. -/
inductive FVal where
  | nan
  | inf (neg : Bool)
  | fin (neg : Bool) (m : Nat) (e : Int)
deriving DecidableEq, Repr

/-- The bit width of a format. -/
def Fmt.width (F : Fmt) : Nat := 1 + F.eb + F.mb

/-- The pattern of +infinity, or for E4M3 of its NaN: every magnitude below it is finite. -/
def Fmt.top (F : Fmt) : Nat := if F.infs then (2 ^ F.eb - 1) * 2 ^ F.mb else 2 ^ (F.eb + F.mb) - 1

/-- The canonical NaN (R476, and the table of 14). -/
def Fmt.nan (F : Fmt) : Nat :=
  if !F.infs then 0x7F else if F.mb = 2 then 0x7E else F.top + 2 ^ (F.mb - 1)

/-- The value that a bit pattern encodes (R475): a subnormal at its exact value, a NaN of any payload as NaN. -/
def fdec (F : Fmt) (x : Nat) : FVal :=
  let neg := bit x (F.eb + F.mb)
  let mag := x % 2 ^ (F.eb + F.mb)
  let ex := mag / 2 ^ F.mb
  let m := mag % 2 ^ F.mb
  if F.infs && decide (ex = 2 ^ F.eb - 1) then (if m = 0 then .inf neg else .nan)
  else if !F.infs && decide (mag = F.top) then .nan
  else if ex = 0 then .fin neg m (1 - (F.bias : Int) - F.mb)
  else .fin neg (m + 2 ^ F.mb) ((ex : Int) - F.bias - F.mb)

/-- The number of bits of `m`. -/
def bitLen (m : Nat) : Nat := if m = 0 then 0 else Nat.log2 m + 1

/-- m ÷ 2^k rounded to nearest, ties to even. -/
def shrEven (m k : Nat) : Nat :=
  let q := m >>> k
  let r := m % 2 ^ k
  if 2 * r > 2 ^ k ∨ (2 * r = 2 ^ k ∧ q % 2 = 1 ∧ k > 0) then q + 1 else q

/-- Whether the magnitude m × 2^e rounds beyond the largest finite value, and the magnitude pattern it rounds to, ties to
even, subnormals kept (R477). -/
def roundMag (F : Fmt) (m : Nat) (e : Int) : Nat :=
  if m = 0 then 0
  else
    let qmin : Int := 1 - (F.bias : Int) - F.mb
    let q : Int := max (e + bitLen m - 1 - F.mb) qmin
    let r := if q ≤ e then m <<< (e - q).toNat else shrEven m (q - e).toNat
    (q - qmin).toNat * 2 ^ F.mb + r

/-- The bit pattern of a value in a format, rounded once (R477): overflow gives the infinity, and for E4M3 its largest
finite magnitude; an infinity in E4M3 likewise (R458, R472). -/
def fenc (F : Fmt) : FVal → Nat
  | .nan => F.nan
  | .inf neg => (if F.infs then F.top else F.top - 1) + b2n neg * 2 ^ (F.eb + F.mb)
  | .fin neg m e =>
    let r := roundMag F m e
    (if r ≥ F.top then (if F.infs then F.top else F.top - 1) else r) + b2n neg * 2 ^ (F.eb + F.mb)

/-- The same, with a finite value beyond the range of an FP8 format giving its largest finite magnitude (R458, R472); whether
it was so clamped. -/
def fencClamp (F : Fmt) (v : FVal) : Nat × Bool :=
  match v with
  | .fin neg m e =>
    if roundMag F m e ≥ F.top then (F.top - 1 + b2n neg * 2 ^ (F.eb + F.mb), true)
    else
      -- beyond the largest finite value before rounding, although it rounds to it
      let big := match fdec F (F.top - 1) with | .fin _ mm ee => decide ((m : Int) * 2 ^ (e - min e ee).toNat > mm * 2 ^ (ee - min e ee).toNat) | _ => false
      (fenc F v, big)
  | _ => (fenc F v, false)

/-- The value is a NaN. -/
def FVal.isNan : FVal → Bool
  | .nan => true
  | _ => false

/-- The sign bit of a value. -/
def FVal.neg : FVal → Bool
  | .nan => false
  | .inf n => n
  | .fin n _ _ => n

/-- The value with the other sign. -/
def FVal.flip : FVal → FVal
  | .nan => .nan
  | .inf n => .inf (!n)
  | .fin n m e => .fin (!n) m e

/-- The exact integer that a signed magnitude stands for, in units of 2^e. -/
def sgn (neg : Bool) (m : Nat) : Int := if neg then -(m : Int) else m

/-- An exact integer as a value. -/
def FVal.ofInt (x : Int) : FVal := .fin (decide (x < 0)) x.natAbs 0

/-- The exact sum (R422, R451, R471): opposite equal values give +0, ∞ − ∞ NaN. -/
def fadd : FVal → FVal → FVal
  | .nan, _ => .nan
  | _, .nan => .nan
  | .inf a, .inf b => if a = b then .inf a else .nan
  | .inf a, _ => .inf a
  | _, .inf b => .inf b
  | .fin a m e, .fin b n f =>
    if m = 0 ∧ n = 0 then .fin (a && b) 0 0
    else
      let g := min e f
      let x := sgn a m * 2 ^ (e - g).toNat + sgn b n * 2 ^ (f - g).toNat
      .fin (decide (x < 0)) x.natAbs g

/-- The exact product. -/
def fmul : FVal → FVal → FVal
  | .nan, _ => .nan
  | _, .nan => .nan
  | .inf a, .inf b => .inf (a != b)
  | .inf a, .fin b n _ => if n = 0 then .nan else .inf (a != b)
  | .fin a m _, .inf b => if m = 0 then .nan else .inf (a != b)
  | .fin a m e, .fin b n f => .fin (a != b) (m * n) (e + f)

/-- The quotient, exact but for a last bit that says whether something remains, far below every rounding position. -/
def fdiv : FVal → FVal → FVal
  | .nan, _ => .nan
  | _, .nan => .nan
  | .inf _, .inf _ => .nan
  | .inf a, .fin b _ _ => .inf (a != b)
  | .fin a _ _, .inf b => .fin (a != b) 0 0
  | .fin a m e, .fin b n f =>
    if n = 0 then (if m = 0 then .nan else .inf (a != b))
    else
      let k := 64 + bitLen n
      let x := m <<< k
      .fin (a != b) (2 * (x / n) + (if x % n = 0 then 0 else 1)) (e - f - k - 1)

/-- The square root in the same form (R422): −0 gives −0, a negative value NaN. -/
def fsqrt : FVal → FVal
  | .nan => .nan
  | .inf a => if a then .nan else .inf false
  | .fin a m e =>
    if m = 0 then .fin a 0 0
    else if a then .nan
    else
      let odd : Nat := (e % 2).toNat
      let x := m <<< (128 + odd)
      let r := Nat.sqrt x
      .fin false (2 * r + (if r * r = x then 0 else 1)) ((e - odd - 128) / 2 - 1)

/-- Comparison of two values that are not NaN: the first is less (−0 and +0 equal). -/
def flt : FVal → FVal → Bool
  | .nan, _ => false
  | _, .nan => false
  | .inf a, .inf b => a && !b
  | .inf a, _ => a
  | _, .inf b => !b
  | .fin a m e, .fin b n f =>
    let g := min e f
    decide (sgn a m * 2 ^ (e - g).toNat < sgn b n * 2 ^ (f - g).toNat)

/-- Equality of two values; false for NaN, true for the two zeros. -/
def feq (x y : FVal) : Bool := !x.isNan && !y.isNan && !flt x y && !flt y x

/-- The lesser for FMIN and VMIN (R422, R471): the other operand of one NaN, −0 below +0. -/
def fmin (x y : FVal) : FVal :=
  if x.isNan then y else if y.isNan then x
  else if flt x y then x else if flt y x then y else if x.neg then x else y

/-- The greater, likewise. -/
def fmax (x y : FVal) : FVal :=
  if x.isNan then y else if y.isNan then x
  else if flt x y then y else if flt y x then x else if x.neg then y else x

/-- The roundings of an exact value to an integer: 0 ties to even, 1 ties away from zero, 2 towards zero. -/
def roundInt (rm : Nat) (neg : Bool) (m : Nat) (e : Int) : Int :=
  if e ≥ 0 then sgn neg (m * 2 ^ e.toNat)
  else
    let k := (-e).toNat
    let q := m / 2 ^ k
    let r := m % 2 ^ k
    sgn neg (match rm with
      | 0 => shrEven m k
      | 1 => if 2 * r ≥ 2 ^ k then q + 1 else q
      | _ => q)

/-- The exact quotient a ÷ b (b > 0) rounded to an integer by the same modes. -/
def divRound (rm : Nat) (a : Int) (b : Nat) : Int :=
  let q := a.natAbs / b
  let r := a.natAbs % b
  let up := match rm with
    | 0 => decide (2 * r > b) || (decide (2 * r = b) && decide (q % 2 = 1))
    | 1 => decide (2 * r ≥ b)
    | _ => false
  sgn (decide (a < 0)) (if up then q + 1 else q)

/-- A value rounded to FP32. -/
def rnd32 (v : FVal) : FVal := fdec fp32 (fenc fp32 v)

/-- The FP32 value of a pattern. -/
def f32 (x : Nat) : FVal := fdec fp32 x

end Sys2Proof.Machine
end

