-- ==== Sys2Proof/Machine/SMap.lean ====
section
/-!
DEFINITION. Machine/SMap.lean: sparse maps from numbers as lists in one canonical form (keys strictly rising).
-/
namespace Sys2Proof.Machine
open Sys2Proof

/-- A sparse map: key and value pairs, keys strictly rising. -/
abbrev SMap (α : Type) := List (Nat × α)

/-- The value at key `k`. -/
def SMap.get {α : Type} : SMap α → Nat → Option α
  | [], _ => none
  | (j, v) :: m, k => if j = k then some v else SMap.get m k

/-- `m` with `v` at key `k`. -/
def SMap.set {α : Type} : SMap α → Nat → α → SMap α
  | [], k, v => [(k, v)]
  | (j, w) :: m, k, v =>
    if k < j then (k, v) :: (j, w) :: m
    else if k = j then (k, v) :: m
    else (j, w) :: SMap.set m k v

/-- `m` without key `k`. -/
def SMap.del {α : Type} (m : SMap α) (k : Nat) : SMap α := m.filter fun e => decide (e.1 ≠ k)

/-- `m` with `v` at `k`, or without `k` when `v` equals the value `d` an unlisted key reads as. -/
def SMap.put {α : Type} [DecidableEq α] (m : SMap α) (k : Nat) (v d : α) : SMap α :=
  if v = d then SMap.del m k else SMap.set m k v

/-- The value at `k`, an unlisted key reading as `d`. -/
def SMap.getD {α : Type} (m : SMap α) (k : Nat) (d : α) : α := (SMap.get m k).getD d

/-- Keys strictly rising. -/
def SMap.sorted {α : Type} : SMap α → Bool
  | [] => true
  | [_] => true
  | (j, _) :: (k, w) :: m => decide (j < k) && SMap.sorted ((k, w) :: m)

/-- A sorted set of numbers: the same lists without values. -/
abbrev NSet := List Nat

/-- `s` with `k`. -/
def NSet.add : NSet → Nat → NSet
  | [], k => [k]
  | j :: s, k => if k < j then k :: j :: s else if k = j then j :: s else j :: NSet.add s k

/-- `s` without `k`. -/
def NSet.del (s : NSet) (k : Nat) : NSet := s.filter (· ≠ k)

end Sys2Proof.Machine
end

