-- ==== Sys2Proof/Machine/State.lean ====
section
/-!
DEFINITION. Machine/State.lean: everything the spec gives the machine, as plain data; the reasons a step can stop;
the machine right after reset.
-/
namespace Sys2Proof.Machine
open Sys2Proof

/-- The access codes of a register field (R23, and the two boot and Fypajo marks of R286 and 21). -/
inductive Access where
  | rw | ro | w1c | w1s | wo | st | lk | rc | roBoot | roFyp
deriving DecidableEq, Repr

/-- One field of a register: bits [hi:lo], its access code, its reset value, the values that are not reserved. -/
structure FieldSpec where
  lo : Nat
  hi : Nat
  acc : Access
  reset : Nat
  okLo : Nat
  okHi : Nat
deriving DecidableEq, Repr

/-- A register, or an array of them with up to two indexes: first offset, count and stride of each index, fields. -/
structure RegSpec where
  name : String
  off : Nat
  n1 : Nat
  s1 : Nat
  n2 : Nat
  s2 : Nat
  fields : List FieldSpec
deriving DecidableEq, Repr

/-- The 23 kinds of page (R47). -/
inductive Page where
  | sys | aon | boot | flt | seam | csh | plb | dpt | sbt | hod | qry | mtr | pci | aud | key | sfl
  | dmc | csi | eth | esl | dev | enl | ash
deriving DecidableEq, Repr

/-- An occurrence on its way to Contact Sheet (R695, R697, R698): a code, its origin and detail, four parameters;
`queueEv` marks a Hod queue event, which precedes a page event of the same origin (R701). -/
structure Occurrence where
  code : Nat
  origin : Nat
  detail : Nat
  queueEv : Bool := false
  params : List Nat
  forced : Bool := false
deriving DecidableEq, Repr

/-- What a page sends to FLT: a fault with its own data (R41, R717), an event that is no fault (R786), or a stall and
its end of a sentinel slot (R721). -/
inductive FltMsg where
  | fault (page cause info : Nat)
  | event (page bit : Nat)
  | stall (slot : Nat)
  | unstall (slot : Nat)
deriving DecidableEq, Repr

/-- A signal to Fypajo (R37, R120, R548, R668, R672, R720): a page's summary, or the named reason. -/
inductive FypSignal where
  | summary (page : Nat)
  | service
  | sentinelMiss
  | alert
  | capability
  | severity (s : Nat)
deriving DecidableEq, Repr


/-- An operating point: frequency in MHz and regulator target in 5 mV units. -/
structure Point where
  mhz : Nat
  volt : Nat
deriving DecidableEq, Repr

/-- One island (R54, R59, R64 to R68): its power state, operating point, the step in progress with its target and the AON
clock at its start, the latest request waiting behind it, a state change waiting behind it, an excursion of its regulator, the fence, the
SRAM initialisation of a power-up (R95) and an idle island woken by a request (R60). -/
structure Island where
  st : IslState := .off
  point : Point := ⟨0, 0⟩
  step : Option Point := none
  stepAt : Nat := 0
  late : Bool := false
  nextPoint : Option Point := none
  nextState : Option IslState := none
  excursion : Bool := false
  fenced : Bool := false
  initing : Bool := false
deriving DecidableEq, Repr

/-- A Mortar request that its stop injected and its destination has not yet performed (R72 to R81); `bad` are the poisoned offset ranges of a
write (R89), `cls` the class that it carries to DRAM (R188). -/
structure Packet where
  id : Nat
  req : Req
  src : Nat
  port : Nat
  chan : Chan
  addr : Nat
  len : Nat
  data : Option (List Byte)
  bad : List (Nat × Nat) := []
  cls : Option Nat := none
deriving DecidableEq, Repr

/-- A response that a requester received: the packet's number, a status in the order of R84, the data of a read, the
poisoned offset ranges of it (R88, R89). -/
structure Response where
  id : Nat
  status : Nat
  data : List Byte := []
  bad : List (Nat × Nat) := []
deriving DecidableEq, Repr

/-- A response on its way back (R57, R78, R80): the requester, the agent (stop × 2 + local port) and the channel, whether it acknowledges a
write, the response itself. -/
structure Reply where
  req : Req
  agent : Nat
  chan : Chan
  write : Bool
  resp : Response
deriving DecidableEq, Repr

/-- A device read of an engine that waits for a completion which never comes, while no read times out (R796): its requester, function, range, the number of
the read, its tag, and whether a reset has ended it. -/
structure StuckRead where
  req : Req
  fn : Nat
  addr : Nat
  len : Nat
  read : Nat
  tag : Nat
  dead : Bool := false
deriving DecidableEq, Repr

/-- What the engine requests of one command meet; empty between commands. `host` are the host's completions not yet used,
`loads` the answers of the page window and the table window (status, bytes) not yet used, `want` a read of those windows that has no
answer yet (requester, address, length), `posted` the writes made to them (requester, address, bytes, whether poisoned), and `blocked` says that a request has to wait.
`met` are the subchannels that have served a request of the command, `spaced` the activates of it that a throttled source's gap follows (subchannel and the key
of `SubCh.lastAct`), `stuck` a read that waits for a completion that never comes, with the request that waits. -/
structure Io where
  host : List Cpl := []
  loads : List (Nat × List Byte) := []
  want : Option (Req × Nat × Nat) := none
  posted : List (Req × Nat × List Byte × Bool) := []
  blocked : Bool := false
  met : NSet := []
  spaced : List (Nat × Nat) := []
  stuck : Option (StuckRead × Nat × Nat) := none
deriving DecidableEq, Repr

/-- The Mortar mesh: packets in flight in order of injection, responses on their way back in order of performance (R78, R80), responses
delivered, newest first, the number of the next packet, the abandonments that meet the next engine request of a crossing (source island,
destination island, whether the response is abandoned; R58), and the requests of the command in progress. -/
structure Mortar where
  flight : List Packet := []
  acks : List Reply := []
  responses : List Response := []
  nextId : Nat := 0
  abandon : List (Nat × Nat × Bool) := []
  io : Io := {}
deriving DecidableEq, Repr



/-- The time base (R294 to R296): its value in units of 10^-9 ns, the part of a slew not yet applied in the same units,
its STATE (0 FREE, 1 LOCKED, 2 HOLDOVER), the AON cycle of the last RATE or SLEW write, the value held by
AON_TB_STEP_LO for the step. -/
structure TimeBase where
  acc : Nat := 0
  slew : Int := 0
  state : Nat := 0
  last : Nat := 0
  stepLo : Nat := 0
deriving DecidableEq, Repr



/-- OTP (R123): LIFECYCLE (0 BLANK, 1 DEVELOPMENT, 2 PRODUCTION, 3 RETIRED), the key hashes, the revoked slots, ROLLBACK, the columns blown bad of
each array (4 × core + array), DIE_ID. -/
structure Otp where
  lifecycle : Nat := 2
  keys : List (List Byte) := (List.range 4).map Config.keyHash
  revoked : Nat := 0
  rollback : Nat := 0
  fuses : List Nat := List.replicate 32 0
  dieId : Nat := 0
  subsystem : Nat := 0
deriving DecidableEq, Repr

/-- The running boot image: slot, SEC_VERSION, BUILD, KEY_INDEX. -/
structure Image where
  slot : Nat
  sec : Nat
  build : Nat
  key : Nat
deriving DecidableEq, Repr

/-- Power, reset and boot: VDD_DIE in range; reset held (R98, R99) and the cause it will show (a bit of BOOT_RESET_CAUSE); OTP; the boot flash by
address; the ledger buffer (R749, R778) and whether the ledger was delivered; SERVICE_N as sampled; the clock at reset release; the running image and
the verified manifest; the flash operation (OP, ADDR, how it will end: 0 done, else the cause and its data), OTP command and directory write in progress. -/
structure Boot where
  powered : Bool := false
  held : Bool := true
  cause : Nat := 0
  otp : Otp := {}
  flash : SMap Byte := []
  ledger : List Byte := List.replicate 2048 0
  ledgerIn : Bool := false
  strap : Bool := false
  released : Nat := 0
  image : Option Image := none
  man : List Byte := []
  op : Option (Nat × Nat) := none
  otpOp : Option (Nat × Nat) := none
  dirOp : Bool := false
deriving DecidableEq, Repr


/-- An entry of an MSI-X table: message address, data, Mask bit (R160, R161; the Mask bit resets to 1 by the PCI standard). -/
structure MsixEntry where
  addr : Nat := 0
  data : Nat := 0
  masked : Bool := true
deriving DecidableEq, Repr

/-- What the endpoint sends to the host: MSI-X messages, memory writes and reads, completions. -/
inductive HostMsg where
  | msix (fn vector addr data : Nat)
  | memWrite (fn addr : Nat) (data : List Byte) (ep relaxed : Bool)
  | memRead (fn tag addr len : Nat)
  | completion (fn status : Nat) (ep : Bool) (data : List Byte)
  | l1Request
deriving DecidableEq, Repr

/-- The configuration space of a function, as far as software changes it (R130, R133, R164): command and control
bits, AER registers, MSI-X table and pending bits; `cfg` holds the other bits that software writes, by register offset (BARs among them). `flr` holds
while a function-level reset runs (R166). -/
structure Func where
  mse : Bool := false
  bme : Bool := false
  d3 : Bool := false
  msixEn : Bool := false
  fmask : Bool := false
  mps : Nat := 0
  mrrs : Nat := 2
  relaxed : Bool := true
  extTag : Bool := true
  tag10 : Bool := false
  cplValue : Nat := 0
  cplDisable : Bool := false
  aspmL1 : Bool := false
  cfg : SMap Nat := []
  uncStatus : Nat := 0
  uncMask : Nat := 0x00400000
  uncSev : Nat := 0x00462010
  corStatus : Nat := 0
  corMask : Nat := 0x0000E000
  firstErr : Nat := 0
  hdrLog : List Nat := []
  flr : Bool := false
  table : SMap MsixEntry := []
  pba : NSet := []
deriving DecidableEq, Repr

/-- One memory read request of a device read that awaits its completion (R148 to R153): the range still to come, and the whole of it. -/
structure Outstanding where
  tag : Nat
  fn : Nat
  read : Nat
  addr : Nat
  len : Nat
  addr0 : Nat
  len0 : Nat
deriving DecidableEq, Repr

/-- A device read through a host-memory window: its requester, range, the bytes returned so far by offset, the
granules poisoned, and how many of its requests are still to be answered. -/
structure DevRead where
  id : Nat
  req : Req
  fn : Nat
  addr : Nat
  len : Nat
  left : Nat
  data : SMap Byte := []
  bad : NSet := []
deriving DecidableEq, Repr

/-- A device write through a host-memory window that has not yet left the endpoint, by its TLPs still to be sent (R799); `id` is none for an MSI-X
message that waits behind earlier writes (R157), and for a ring write of the queue `queue`. -/
structure DevWrite where
  id : Option Nat
  req : Req
  fn : Nat
  addr : Nat
  tlps : List HostMsg
  queue : Option Nat := none
deriving DecidableEq, Repr

/-- The PCI Express endpoint: functions PF and VF 1 to 8, SR-IOV controls of the PF, link, tags, the tags that a reset holds with the bytes of their
completions still to come (R166), device reads and writes, messages sent to the host (newest first), answers given to device requesters (newest first). -/
structure Pci where
  funcs : List Func := List.replicate 9 {}
  ari : Bool := false
  numVfs : Nat := 0
  vfEnable : Bool := false
  vfMse : Bool := false
  training : Bool := false
  speed : Nat := 0
  width : Nat := 0
  l1 : Bool := false
  inReset : Bool := true
  waiting : List (Nat × Nat × Nat × Nat) := []
  outstanding : List Outstanding := []
  stuck : List StuckRead := []
  heldTags : SMap Nat := []
  reads : List DevRead := []
  writes : List DevWrite := []
  nextId : Nat := 0
  answers : List Response := []
  sent : List HostMsg := []
deriving DecidableEq, Repr


/-- The states of a DRAM subchannel (DMC_SUB_STATUS[k].STATE). -/
inductive SubState where
  | absent | training | run | drifting | window | fenced | filling
deriving DecidableEq, Repr

/-- A request in a controller's queue (R188 to R192): source (stop × 2 + local port), requester, class as it is served and as it was accepted,
channel, internal and local address, length, write data with the poisoned offset ranges, the time it was accepted, its place in the order of
acceptance, and whether the controller answers it with a response of its own. -/
structure DramReq where
  src : Nat
  req : Req
  cls : Nat
  cls0 : Nat
  chan : Chan
  addr : Nat
  loc : Nat
  len : Nat
  data : Option (List Byte)
  bad : List (Nat × Nat) := []
  at_ : Nat
  seq : Nat := 0
  ack : Bool := true
deriving DecidableEq, Repr

/-- A command on a subchannel's command bus (R182, R189, R194, R197 to R199): an activate of a row for a source, a read or a write burst at a bank, row
and column, REFab, and RFMsb (`row` none) or DRFMsb of a bank. -/
inductive DramCmd where
  | activate (bank row src : Nat)
  | read (bank row col src : Nat)
  | write (bank row col src : Nat)
  | refresh
  | mitigate (bank : Nat) (row : Option Nat)
deriving DecidableEq, Repr

/-- A bank: its open row, its activate table (row, count) of at most 16 entries (R198), the rolling activate count of
R197, the mitigations queued (row, charged source). -/
structure DramBank where
  row : Option Nat := none
  table : List (Nat × Nat) := []
  rolling : Nat := 0
  mitig : List (Nat × Nat) := []
deriving DecidableEq, Repr

/-- A response of a controller: source, channel, status in the order of R84, data, the poisoned offset ranges of it. -/
structure DramResp where
  src : Nat
  chan : Chan
  status : Nat
  data : List Byte
  bad : List (Nat × Nat) := []
deriving DecidableEq, Repr

/-- A subchannel (R189 to R217). `retry` are the commands still within their alert delay and `held` the writes whose data is kept for replay
(R210), one entry for each burst. `stopped` are requests that wait at the stop for a place in a queue (R192). `replaying` is 1 while commands of a parity recovery are within their alert delay, 2 of a CRC replay; of those that the replay issued,
`replayed` counts all, `leftCmds` those still in `retry` and `leftWrites` those still in `held` (R212, R214). `acks` are responses
that wait for those to earlier reads, each with its place in the order of acceptance (R191). `charged` counts the mitigations
of each source in the window, `throttled` the sources held to one activate per gap, `lastAct` the time of their last activate by source × 64 +
bank (R202). -/
structure SubCh where
  st : SubState := .absent
  owed : Int := 0
  pd : Bool := false
  rate : Nat := 0
  reads : List DramReq := []
  writes : List DramReq := []
  stopped : List DramReq := []
  acks : List (Nat × DramResp) := []
  draining : Bool := false
  retry : List DramCmd := []
  held : List DramReq := []
  alert : Bool := false
  replaying : Nat := 0
  replayed : Nat := 0
  leftCmds : Nat := 0
  leftWrites : Nat := 0
  winReq : Bool := false
  rdSet : Int := 0
  wrSet : Int := 0
  banks : SMap DramBank := []
  charged : SMap Nat := []
  throttled : NSet := []
  lastAct : SMap Nat := []
  patrol : Nat := 0
  lastUse : Nat := 0
deriving DecidableEq, Repr

/-- The DRAM subsystem: the layouts of the manifest (32 masks each) and whether the spare is in effect (R177, R216), the
eight subchannels, the flipped bits of the 16 ECC bytes of a burst by granule number (R183), the regions being refilled (R217), whether the
components advertise DRFMsb, the RFMsb threshold that mode register fifty-eight advertises, the number of requests accepted, responses given
(newest first). -/
structure Dram where
  layouts : List (List Nat) := []
  spare : Bool := false
  sub : List SubCh := List.replicate 8 {}
  eccFlips : SMap Nat := []
  filling : NSet := []
  drfm : Bool := false
  rfmThreshold : Nat := 0
  seq : Nat := 0
  resp : List DramResp := []
deriving DecidableEq, Repr



/-- An admitted device push whose ring writes are in progress: queue, entries (R229). -/
structure Push where
  queue : Nat
  count : Nat
deriving DecidableEq, Repr

/-- A copy descriptor in progress (R253 to R258): submission and completion queue, USER, COMPLETE flag, the status and
bytes written it ends with, whether it carried poison. -/
structure CopyJob where
  sq : Nat
  cq : Nat
  user : List Byte
  complete : Bool
  status : Nat
  done : Nat
  carried : Bool
deriving DecidableEq, Repr

/-- A completion record whose push was refused as full and is retried every 1 µs (R258, R307): submission queue, completion
queue, record, and whether it is the copy engine's. -/
structure HeldCompletion where
  sq : Nat
  cq : Nat
  record : List Byte
  copy : Bool
deriving DecidableEq, Repr

/-- The push that waits in an urgent slot (R242): queue, entries whose data lie in the ring already, and the device pushes merged with them, each
with the requester, its entries and the indexes of the poisoned ones. -/
structure SlotPush where
  queue : Nat
  count : Nat := 0
  pushes : List (Req × List (List Byte) × List Nat) := []
deriving DecidableEq, Repr

/-- Hod: the cached contexts of enabled urgent queues (R223), the push that waits in each urgent slot (R242), admitted pushes in
order of admission, copy descriptors in progress, completions retried, the status and entries of the last push or pop as its issuer received
them, with the poisoned offset ranges of the entries (R89, R233). -/
structure Hod where
  cache : SMap Nat := []
  slots : SMap SlotPush := []
  inflight : List Push := []
  copies : List CopyJob := []
  heldCq : List HeldCompletion := []
  status : Nat := 0
  popped : List Byte := []
  poppedBad : List (Nat × Nat) := []
deriving DecidableEq, Repr



/-- Quarry's record of a buffer and its bitmap bit (R266, R271). -/
structure Buffer where
  gen : Nat := 0
  owner : Nat := 0
  used : Bool := false
deriving DecidableEq, Repr

/-- Quarry: the buffers by pool × 65,536 + index, the fenced pools (R280), the words of its store that have become uncorrectable, the RECLAIM scan in
progress (identity and the pools still to scan, the next record of the first of them, R279), USED by identity × 8 + pool, the answer of the last
operation (status, handle, address). -/
structure Quarry where
  bufs : SMap Buffer := []
  fenced : NSet := []
  upsets : List Upset := []
  scan : Option (Nat × List Nat) := none
  scanAt : Nat := 0
  used : SMap Nat := []
  status : Nat := 0
  handle : Nat := 0
  addr : Nat := 0
deriving DecidableEq, Repr



/-- A frame in progress or awaiting its trigger (R287 to R293). `lines` counts lines stored, `bytes` bytes written; a frame
whose first line has not arrived has no buffer (`got` false). -/
structure Frame where
  slot : Nat
  kind : Nat
  seq : Nat
  num : Nat
  epoch : Nat
  ts : Nat
  tEnd : Nat := 0
  got : Bool := false
  handle : Nat := 0
  addr : Nat := 0
  size : Nat := 0
  lines : Nat := 0
  bytes : Nat := 0
  loss : Bool := false
  poison : Bool := false
  fixed : Bool := false
  unsynced : Bool := false
  cq : Nat := 0
  sq : Nat := 0
  user : List Byte := []
  complete : Bool := false
  began : Nat := 0
deriving DecidableEq, Repr

/-- A source of a stream slot: its copy of the trigger queue's TAIL (R293), the frame in progress, the frames whose record is
written and whose trigger is due, the time of the last accepted frame start in ns, whether a frame was delivered, whether
STALL was raised (R308), and for AVTP the last sequence number, whether a packet with M = 1 was seen since enable, and
whether the packets up to the next M = 1 are skipped; and its credit while frames are thinned, in 1/256 (R571). -/
structure Source where
  tail : Nat := 0
  frame : Option Frame := none
  ready : List Frame := []
  lastStart : Option Nat := none
  delivered : Bool := false
  stalled : Bool := false
  seqNum : Option Nat := none
  synced : Bool := false
  skip : Bool := false
  credit : Nat := 0
deriving DecidableEq, Repr

/-- Stream ingress: the sources by number (CSI port × 16 + virtual channel; 128 + MAC × 36 + entry), FRAME_SEQ and the
FRAME_SEQ of the last record by slot (R290, R292), the PTP receive FIFO of each MAC (frame, timestamp), frames transmitted. -/
structure Ingress where
  src : SMap Source := []
  seq : SMap Nat := []
  lastRec : SMap Nat := []
  ptpRx : List (List (List Byte × Nat)) := [[], []]
  ptpSent : List (Nat × List Byte) := []
deriving DecidableEq, Repr



/-- A picture of Developer (R315, R324): its two buffers, what its record says of it, and the engine that decoded it. -/
structure Pic where
  hY : Nat
  hC : Nat
  aY : Nat
  aC : Nat
  depth10 : Bool
  width : Nat
  height : Nat
  good : Bool := true
  concealed : Bool := false
  damaged : Bool := false
  grey : Bool := false
  poison : Bool := false
  order : Nat := 0
  hidden : Bool := false
  reports : Nat := 0
  engine : Nat := 0
  done : Nat := 0
  record : List Byte := []
deriving DecidableEq, Repr

/-- A frame in decode on an engine: slot, input record, the output planes and, of a reference, the reference-store planes of each of its pictures, a random
access point. -/
structure DevWork where
  slot : Nat
  record : List Byte
  pics : List (Pic × Option Pic)
  rap : Bool
deriving DecidableEq, Repr

/-- A compressed slot of Developer: 0 WAIT_RAP, 1 RUN, 3 RESYNC; whether it is tainted; the last accepted sequence header, the decoded size and depth of its
sequence, whether that is monochrome; references oldest first, pictures awaiting output in decoding order, pictures emitted whose record is due, its last
input record. -/
structure DevSlot where
  st : Nat := 0
  depth10 : Bool := false
  width : Nat := 0
  height : Nat := 0
  taint : Bool := false
  mono : Bool := false
  seq : Option SeqHdr := none
  refs : List Pic := []
  wait : List Pic := []
  out : List Pic := []
  last : List Byte := []
deriving DecidableEq, Repr

/-- Developer: its engines, its slots, and the last partition by class and last slot by class × 8 + partition of the round
robins of R325. -/
structure Developer where
  eng : List (Option DevWork) := List.replicate 6 none
  slots : List DevSlot := List.replicate 36 {}
  rrPart : SMap Nat := []
  rrSlot : SMap Nat := []
deriving DecidableEq, Repr



/-- The ROI in progress of a frame on Enlarger (R347, R353, R354): its entry, the next output line, the lanes given to it, whether a
source read carried poison. -/
structure EnlRoi where
  entry : Nat
  line : Nat := 0
  batch : Nat
  lanes : List Nat
  poison : Bool := false
deriving DecidableEq, Repr

/-- A frame latched by Enlarger (R337, R347): its slot, its input record, the list as latched and which list it is, the entries still
to be done. -/
structure EnlFrame where
  slot : Nat
  record : List Byte
  list : List Byte
  sel : Nat
  todo : List Nat
  roi : Option EnlRoi := none
deriving DecidableEq, Repr

/-- Enlarger: the frames on its four engines, the frames that yielded (R348), the last partition by class and the last slot by class ×
8 + partition of the round robins of R346. -/
structure Enlarger where
  eng : List (Option EnlFrame) := List.replicate 4 none
  parked : List EnlFrame := []
  rrPart : SMap Nat := []
  rrSlot : SMap Nat := []
deriving DecidableEq, Repr

/-- A lane of a batch (R356 to R358): assigned, complete, holding a real sample; its tag, timestamp and flags. -/
structure Lane where
  assigned : Bool := false
  done : Bool := false
  ok : Bool := false
  tag : Nat := 0
  ts : Nat := 0
  flags : Nat := 0
deriving DecidableEq, Repr

/-- A batch (R355 to R364): its group, the identity its buffer is held under, handle and address, lane size, paired, the lanes, when it
opened and under which epoch, whether the fill timer closed it, and whether its record is written and its trigger due. -/
structure Batch where
  id : Nat
  group : Nat
  ident : Nat
  handle : Nat
  addr : Nat
  slot : Nat
  paired : Bool
  lanes : List Lane
  tOpen : Nat
  epoch : Nat
  closed : Bool := false
  written : Bool := false
deriving DecidableEq, Repr

/-- Easel: the batches in order of opening, the number of the next, its TAIL copy of each group's batch queue (R361); of the history
ring (R365, R367) the blocks written since enable or a change of size, the timestamps of the blocks by index, the blocks that failed, and the windows
that are due by their newest block. -/
structure Easel where
  batches : List Batch := []
  nextId : Nat := 0
  tail : SMap Nat := []
  blocks : Nat := 0
  blockTs : SMap Nat := []
  due : List Nat := []
  absent : NSet := []
deriving DecidableEq, Repr



/-- A job (R532, R544): its model, variant and class, the batch record as popped and its ring address, deadline and
time of selection in ns, the epoch it carries, whether it is a fallback job, whether its miss was reported and its batch has been taken from
it. -/
structure Job where
  model : Nat
  variant : Nat
  cls : Nat
  record : List Byte
  addr : Nat
  deadline : Nat
  selected : Nat
  epoch : Nat
  fallback : Bool := false
  reported : Bool := false
  disposed : Bool := false
deriving DecidableEq, Repr

/-- A job start on its way to a core (R532): core, bank, first bundle address, x1 to x6; the time from the trigger to
the issue of its first bundle in ns, as it will be measured (R539). -/
structure JobStart where
  core : Nat
  urgent : Bool
  entry : Nat
  xs : List Nat
  job : Job
  ns : Nat := 0
deriving DecidableEq, Repr

/-- A loop (R427): its counter, whether it is active, its start and end addresses. -/
structure Loop where
  count : Nat := 0
  active : Bool := false
  start : Nat := 0
  stop : Nat := 0
deriving DecidableEq, Repr

/-- A vector register (R465): 2,048 bits and one poison mark per quarter. -/
structure VReg where
  data : Nat := 0
  marks : Nat := 0
deriving DecidableEq, Repr

/-- An item (R393): the scalar registers it writes, its stall cause (R394), its place in issue order, the address of its request where it has one (R400), and,
once it is answered, its Mortar status, the values and whether they are poisoned. An SVC item carries the number of its Keystone or Safelight command. -/
structure Item where
  regs : List Nat
  cause : Nat
  seq : Nat := 0
  addr : Option Nat := none
  svc : Option Nat := none
  res : Option (Nat × List Nat × Bool) := none
deriving DecidableEq, Repr

/-- A register bank (R372): x0 to x31, p7 to p0 as bits, loops, v0 to v31, the bundle address, PREEMPTED; its job and, after ENDJOB, its
code; the items outstanding; registers written with poison, the request addresses of those that a load wrote, and registers whose item failed, with the status
and the request address (R397, R400, R421); whether the bundle at the bundle address was decoded as a preemption point (1), as none because an array command was in flight (2), or not yet (0),
whether a loop end waits to be evaluated, the status and request address of an item that failed after ENDJOB issued, the time to report with an urgent job's
first bundle, the saturation counts (R479), whether a drain of the job mismatched, whether a WS command of the job has issued (R448), and the core's cycle
count when the job started (R426). -/
structure Bank where
  x : List W64 := List.replicate 32 0
  p : Nat := 1
  loops : List Loop := List.replicate 4 {}
  v : List VReg := List.replicate 32 {}
  pc : Nat := 0
  preempted : Bool := false
  job : Option Job := none
  ended : Option Nat := none
  items : List Item := []
  poisoned : NSet := []
  poisonAt : SMap Nat := []
  failed : SMap (Nat × Option Nat) := []
  decoded : Nat := 0
  atEnd : Bool := false
  endFailed : Option (Nat × Option Nat) := none
  startNs : Option Nat := none
  accSat : Nat := 0
  outSat : Nat := 0
  mismatch : Bool := false
  wsIssued : Bool := false
  since : Nat := 0
deriving DecidableEq, Repr

/-- A mover instruction accepted and not complete (R434 to R442): its bank, opcode, addresses of source and destination (an address, or a
buffer destination DST, HALF, ARR, BOFF), pattern, LEN, GRAIN, BULK, the pieces still to be answered (offset, bytes), the
gather fields, the bytes a gather has read and the granules of them poisoned, its place in issue order, and once it failed the status and the address of
the piece. -/
structure MoverOp where
  urgent : Bool
  op : Nat
  src : Nat
  dst : Nat
  dstKind : Nat
  half : Nat
  arr : Nat
  boff : Nat
  pattern : Nat
  len : Nat
  grain : Bool
  bulk : Bool
  pieces : List (Nat × Nat)
  fields : Nat := 0
  rb : Nat := 0
  rc : Nat := 0
  got : SMap Byte := []
  gotBad : NSet := []
  seq : Nat
  failed : Option (Nat × Nat) := none
deriving DecidableEq, Repr

/-- An array command issued and not complete (R444 to R463): its bank, opcode (1 MMA, 4 DRAIN, 5 ACLR), dataflow and the fields of the
slot with the sums of R446 applied; for a drain the destination base and the scale table as read. -/
structure ArrayCmd where
  urgent : Bool
  op : Nat
  df : Nat := 0
  fmt : Nat := 0
  we5 : Bool := false
  ae5 : Bool := false
  wl : Bool := false
  wh : Nat := 0
  ah : Nat := 0
  acc : Bool := false
  row : Nat := 0
  m : Nat := 1
  k : Nat := 1
  nc : Nat := 1
  ap : Nat := 64
  aboff : Nat := 0
  wboff : Nat := 0
  ot : Nat := 0
  toBuf : Bool := false
  dh : Nat := 0
  sm : Bool := false
  relu : Bool := false
  clr : Bool := false
  c0 : Nat := 0
  rpitch : Nat := 0
  zp : Int := 0
  astride : Nat := 0
  dboff : Nat := 0
  base : Nat := 0
  table : List (Nat × Nat) := []
deriving DecidableEq, Repr

/-- What the cells hold (R448): a weight tile (df 0; the rows of its bytes, identical in all arrays), or an activation tile per array (df
2) of `n` positions each; which rows or arrays of it are poisoned. -/
structure Tile where
  df : Nat := 0
  n : Nat := 0
  rows : List (List Byte) := []
  bad : List Bool := []
deriving DecidableEq, Repr

/-- An Ashlar core (R370 to R403): the bank that runs (0 none, 1 normal, 2 urgent), whether a normal job is held, the job starts that
wait, the banks, the buffers (weight: half × 65,536 + byte; activation: (array × 2 + half) × 32,768 + byte) with the
granules poisoned, the accumulator words ((array × 512 + row) × 512 + column), those poisoned, those last written by an FP command, the cells' tile, the array
commands and mover instructions in issue order, the issue count, whether a preemption interval was reported late, and the bits that injections flipped in the
stores 1 to 4 of R402 and that no read has met yet (store; granule, accumulator key, or 32 × bank + register; 1 or 2 bits); the core cycles that have
passed, in thousandths (R426). -/
structure Core where
  active : Nat := 0
  held : Bool := false
  waitUrgent : Option JobStart := none
  waitNormal : Option JobStart := none
  normal : Bank := {}
  urgent : Bank := {}
  wbuf : SMap Byte := []
  wbad : NSet := []
  abuf : SMap Byte := []
  abad : NSet := []
  acc : SMap Nat := []
  accBad : NSet := []
  accFp : NSet := []
  tile : Tile := {}
  cmds : List ArrayCmd := []
  movers : List (List MoverOp) := [[], []]
  seq : Nat := 0
  stalled : Bool := false
  late : Bool := false
  /-- Flipped bits (R402, R730): store, ECC word (register for the register banks), 1 or 2 bits. -/
  flips : List (Nat × Nat × Nat) := []
  cycles : Nat := 0
deriving DecidableEq, Repr


/-- An entry of the model table (table 0x03): STATE (0 EMPTY, 1 LOADED, 2 SUSPENDED), class, partition, cores, queues, entry, core SRAM
region, Mortar and DRAM bases, deadline, MISS_ACTION, variant, fallback index (0xFFFF none), SAT_LIMIT, DRIFT_JOBS, HAS_DRAM;
the energies of R505 in nJ; whether the entry was written poisoned (R89); jobs ended, misses, last code; the saturation counts of the last 256 ended jobs, newest first
(R485), whether the drift event is out, and whether the job that heads IN_QUEUE has been reported. -/
structure Model where
  st : Nat := 0
  cls : Nat := 0
  part : Nat := 0
  cores : Nat := 0
  inQ : Nat := 0
  outQ : Nat := 0
  entry : Nat := 0
  region : Nat := 0
  mortar : Nat := 0
  dram : Nat := 0
  deadline : Nat := 0
  action : Nat := 0
  variant : Nat := 0
  fallback : Nat := 0
  satLimit : Nat := 0
  driftJobs : Nat := 0
  flags : Nat := 0
  energy : List Nat := [0, 0, 0, 0, 0]
  bad : Bool := false
  ended : Nat := 0
  misses : Nat := 0
  lastCode : Nat := 0
  history : List Nat := []
  drifted : Bool := false
  headReported : Bool := false
deriving DecidableEq, Repr

/-- The partition controls of a VF (the table of 17): PV_CTRL, event status, enable and vector, misses, the Quarry interface. -/
structure PartView where
  ctrl : Nat := 0
  evt : Nat := 0
  evtEn : Nat := 0
  vector : Nat := 0
  misses : Nat := 0
  qry : List W32 := List.replicate 5 0
  first : Nat := 0
  count : Nat := 0
deriving DecidableEq, Repr

/-- The dispatcher and Stop Bath: the model table, job starts and aborts on their way to cores, fallback jobs not yet started, the last
model selected by core × 4 + class (R529), consecutive mismatching jobs by core (R550), partitions in which a model was
refused at start-up (R525), partitions with a share, pool or ring in a fenced bank (R726), the partition states as last shown, the views of the VFs; the
ACC_SAT and OUT_SAT counts that a core's bank last reported (R482), by 2 × core + bank. -/
structure Dispatcher where
  models : SMap Model := []
  starts : List JobStart := []
  aborts : List (Nat × Bool) := []
  fallbacks : List Job := []
  last : SMap Nat := []
  mismatches : SMap Nat := []
  refused : NSet := []
  bankLost : NSet := []
  state : List Nat := List.replicate 8 0
  views : List PartView := List.replicate 8 {}
  noResults : List (Nat × Job) := []
  counts : SMap (Nat × Nat) := []
deriving DecidableEq, Repr



/-- The program of a period (R572 to R574): lower and upper power, demand of step 0 and of the later steps, and the power granted now, of
each group in µW; the base power in µW, the coolant temperature in units of 0.125 °C, Tm in 10⁻⁹ °C, cap in µW and junction limit in °C. -/
structure Program where
  lo : List Nat
  hi : List Nat
  d0 : List Nat
  dk : List Nat
  c : List Nat
  pb : Nat
  tc : Int
  tm : Int
  cap : Nat
  tLimit : Nat
deriving DecidableEq, Repr

/-- Plumb: the POWER, THERMAL and SAFE_TABLE sections of the manifest (R564 to R566); whether the ledger is open; the accounts in pJ (a
partition's allowance, what is left, its reserve, what is left of it; a group's; the reserve of group 9), the partitions from
whose allowance nothing was debited (R581) and those whose reserve was exceeded this period; energy debited by class; the
energy counters of the islands in µJ and their latched upper words; the plan accepted for the next period (power of each
group in µW), the powers granted now, the program last formed, the
number of the solve that is out, whether a plan has been abandoned since the last one accepted (R575); a sensor fails as its bit says; when the coolant was written;
whether thinning runs. -/
structure Plumb where
  capW : Nat := 0
  devPj : Nat := 0
  enlPj : Nat := 0
  weights : List Nat := List.replicate 12 0
  lambda : Nat := 0
  planEn : Bool := false
  rth : Nat := 0
  heat : Nat := 0
  tCoolMax : Nat := 0
  rise : List Nat := List.replicate 12 0
  safe : List (List Byte) := []
  opened : Bool := false
  partAllow : List Nat := List.replicate 8 0
  partLeft : List Nat := List.replicate 8 0
  partRes : List Nat := List.replicate 8 0
  partResLeft : List Nat := List.replicate 8 0
  grpAllow : List Nat := List.replicate 12 0
  grpLeft : List Nat := List.replicate 12 0
  res9 : Nat := 0
  res9Left : Nat := 0
  untouched : NSet := [0, 1, 2, 3, 4, 5, 6, 7]
  overdrawn : NSet := []
  spent : List Nat := List.replicate 4 0
  energy : List Nat := List.replicate 39 0
  energyHi : List Nat := List.replicate 39 0
  plan : Option (List Nat) := none
  granted : List Nat := List.replicate 12 0
  prog : Option Program := none
  solving : Option Nat := none
  degraded : Bool := false
  coolAt : Option Nat := none
deriving DecidableEq, Repr



/-- A matrix as its stored entries: row, column, binary64 pattern. -/
abbrev Entries := List (Nat × Nat × Nat)

/-- A Keystone command (R596, R612, R613): number, context, issuer, its bank and partition, class, the block, whether the block was
poisoned; how far it is (0 waiting, 1 factorising, 2 iterating), iterations done, the anchor (x and y patterns), the time of its first
segment, whether it is to end ABORTED, the tolerances it read. -/
structure KeyCmd where
  id : Nat
  ctx : Nat
  issuer : Req
  urgent : Bool := false
  part : Nat := 0
  cls : Nat := 2
  block : List Byte := []
  bad : Bool := false
  st : Nat := 0
  iter : Nat := 0
  anchorX : List Nat := []
  anchorY : List Nat := []
  tStart : Nat := 0
  stop : Bool := false
  eps : List Nat := []
deriving DecidableEq, Repr

/-- A Keystone context (R594, R601, R603): whether it holds a factor, whether vectors were loaded since SETUP, form, n, m, P (both triangles),
A, q, l, u, ρ by row, σ, α, the pivot order, the rows of the factor below the diagonal by pivot position, the pivots, and the
iterates x, z, w; numbers are binary64 patterns. -/
structure KeyCtx where
  factored : Bool := false
  vectors : Bool := false
  sparse : Bool := false
  n : Nat := 0
  m : Nat := 0
  p : Entries := []
  a : Entries := []
  q : List Nat := []
  l : List Nat := []
  u : List Nat := []
  rho : List Nat := []
  sigma : Nat := 0
  alpha : Nat := 0
  order : List Nat := []
  rows : List (List (Nat × Nat)) := []
  piv : List Nat := []
  x : List Nat := []
  z : List Nat := []
  w : List Nat := []
deriving DecidableEq, Repr

/-- Keystone: the contexts, the command whose segment runs, those waiting or interrupted in order of arrival, the next number, the last
partition served by class (R612). -/
structure Keystone where
  ctx : List KeyCtx := List.replicate 4 {}
  cur : Option KeyCmd := none
  held : List KeyCmd := []
  nextId : Nat := 0
  rr : SMap Nat := []
deriving DecidableEq, Repr


/-- A Safelight command (R638, R643): number, issuer, its bank and partition, class, the block, the status of the block's fetch, operations done,
whether it has started, the time of its start, whether the current operation met poison (opcode and first address), whether it is to end
ABORTED, and what it carries between operations (the entries of a basis being loaded; the scaled rows of a BASE_EXT). -/
structure SflCmd where
  id : Nat
  issuer : Req
  urgent : Bool := false
  part : Nat := 8
  cls : Nat := 2
  block : List Byte := []
  bad : Nat := 0
  ops : Nat := 0
  started : Bool := false
  tStart : Nat := 0
  poison : Option Nat := none
  stop : Bool := false
  entries : List (Nat × Nat) := []
  rows : List (List Nat) := []
deriving DecidableEq, Repr

/-- A basis slot (R620): whether it is VALID, n, and the primes with their roots. -/
structure Basis where
  valid : Bool := false
  n : Nat := 0
  ps : List (Nat × Nat) := []
deriving DecidableEq, Repr

/-- A modulus slot (R622): whether it is VALID, BITS and M. -/
structure Modulus where
  valid : Bool := false
  bits : Nat := 0
  m : Nat := 0
deriving DecidableEq, Repr

/-- A vault slot (R631): whether it is FULL, its kind, partition, uses, size parameter and contents. -/
structure VaultSlot where
  full : Bool := false
  kind : Nat := 0
  part : Nat := 0
  uses : Nat := 0
  size : Nat := 0
  data : List Byte := []
deriving DecidableEq, Repr

/-- Safelight: the slots, the command whose operation runs, those waiting or interrupted in order of arrival, the next number, the last partition
served by class (8 stands for the PF), the status of the last PF command. -/
structure Safelight where
  basis : List Basis := List.replicate 8 {}
  mods : List Modulus := List.replicate 4 {}
  vault : List VaultSlot := List.replicate 16 {}
  cur : Option SflCmd := none
  held : List SflCmd := []
  nextId : Nat := 0
  rr : SMap Nat := []
  last : Nat := 0
deriving DecidableEq, Repr


/-- The alert that plays (R661, R662): level, tone, whether CAN was asked for and is enabled, whether it has a HOLD_MS. -/
structure Alert where
  level : Nat
  tone : Nat
  can : Bool
  hold : Bool
deriving DecidableEq, Repr

/-- The ducking of a source in dB (R656): D lies between `lo` and `hi` and reaches `target` in `left` frames. -/
structure Duck where
  lo : Nat := 0
  hi : Nat := 0
  target : Nat := 0
  left : Nat := 0
deriving DecidableEq, Repr

/-- A CX-A20 channel (R673 to R677): STATE as AUD_AMP_DIAG codes it, CLASS, attempts made. -/
structure Amp where
  st : Nat := 0
  cls : Nat := 0
  tries : Nat := 0
deriving DecidableEq, Repr

/-- The audio block and the CX-A20: the tone memory, the entries popped for the next frame (with whether poisoned), the alert, the sample of
the tone to send next, the tone that fades with the frames left, the haptic pattern with the frames since its start and the line, the ducking
of the sources, the frames since each source was last above −60 dBFS, the frames of the ramp after a relock, the last samples sent, blocks
whose writes are under way (bytes, timestamp, Mortar status), the LEVEL last shown, the amplifier channels and their reports to Fypajo
(channel, register word), oldest first. -/
structure Audio where
  bank : List Byte := []
  popped : List (List Byte × Bool) := []
  alert : Option Alert := none
  pos : Nat := 0
  fade : Option (Nat × Nat) := none
  pattern : Nat := 0
  hapFrame : Nat := 0
  haptic : Bool := false
  duck : List Duck := List.replicate 16 {}
  quiet : List Nat := List.replicate 16 2400
  ramp : Nat := 0
  out : List Int := [0, 0]
  handoff : List (Nat × Nat × Nat) := []
  level : Nat := 2
  amps : List Amp := [{}, {}]
  reports : List (Nat × Nat) := []
deriving DecidableEq, Repr



/-- The change set in progress beside the SEAM registers: the clock at PREPARE (R689, R690). -/
structure Seam where
  since : Nat := 0
deriving DecidableEq, Repr



/-- An occurrence accepted by the recorder (R701, R707): its time stamp and the triggers that matched it and have not yet written their
continuations; `written` once its own record is in the ring. -/
structure Accepted where
  occ : Occurrence
  ts : Nat
  triggers : List Nat
  written : Bool := false
deriving DecidableEq, Repr

/-- Contact Sheet (R695 to R716): the ring by slot as 32-byte records (an unlisted slot holds zero), the granules of it found uncorrectable, S,
the occurrences that have reached the recorder, those accepted, whether the next record carries LOST. -/
structure Csh where
  ring : SMap (List Byte) := []
  bad : NSet := []
  seq : Nat := 0
  arrived : List Occurrence := []
  fifo : List Accepted := []
  lost : Bool := false
deriving DecidableEq, Repr



/-- A TEMP or TRIP_TEST injection that runs (R730): sensor, degrees added, whether the sample is set to 130.0 °C instead, the clock at which it ends. -/
structure Heat where
  sensor : Nat
  deg : Nat
  trip : Bool
  stop : Nat
deriving DecidableEq, Repr

/-- FLT beside its registers: the ARG with which an injection was armed (R730), the sentinel slots that stall (R721), whether a sentinel
job has ended on time (R723), the sensor under a TEMP or TRIP_TEST injection. -/
structure Flt where
  injArg : Nat := 0
  stalled : NSet := []
  sentDone : Bool := false
  heat : Option Heat := none
deriving DecidableEq, Repr



/-- A software record that Fypajo writes once the die is powered (R734, R742): code and parameters. -/
structure SwRecord where
  code : Nat
  params : List Nat
deriving DecidableEq, Repr

/-- The Jione module and Fypajo (R732 to R755): state and its cause (R739), VIN in mV and the input current in mA, WAKE and PERST_N high, the clock
when WAKE rose, the two temperature sensors in 0.125 °C, the board rails, the two ledger copies in flash, heartbeat supervision (R740), the mailbox
registers, trips with their flash records (R745, newest first), the CAN FD alive counters of the three frames and the counter last accepted from VEHICLE, the frames sent (identifier offset, eight
bytes, newest first), mismatches and FAB_LOST restarts of the WAKE cycle, the self-reset that runs (R743), SERVICE_N as it will be driven, the ledger to
be emptied at the next start, the wait for WAKE to rise again (R743, R746, R752), the DEGRADED patterns that its haptic output has driven, the safety bits as last sampled, the cause of
the DEGRADED frames that repeat, whether an alert frame is owed at the end of an alert, and the records to be written once the die is powered. -/
structure Module where
  st : Nat := 1
  cause : Nat := 0
  mv : Int := 13500
  ma : Nat := 0
  wake : Bool := false
  wakeAt : Nat := 0
  perst : Bool := false
  cold : Int := 0
  reg : Int := 0
  rails : Bool := false
  copies : List (List Byte) := [[], []]
  beat : Nat := 0
  beaten : Bool := false
  linked : Bool := false
  lost : Bool := false
  hbMs : Nat := 500
  linkMs : Nat := 200
  events : Nat := 0
  evtEn : Nat := 0
  arg : Nat := 0
  result : Nat := 0
  done : Bool := false
  trips : Nat := 0
  total : Nat := 0
  tripLog : List (List Nat) := []
  tripWait : Bool := false
  canBase : Nat := 0x1A0
  canEn : Bool := true
  moving : Bool := true
  alive : List Nat := [0, 0, 0]
  heard : Option Nat := none
  frames : List (Nat × List Byte) := []
  mismatches : Nat := 0
  fabRestarts : Nat := 0
  resetting : Bool := false
  service : Bool := false
  emptyLedger : Bool := false
  stay : Bool := false
  patterns : Nat := 0
  sampled : Nat := 0
  degraded : Nat := 0
  playing : Bool := false
  later : List SwRecord := []
deriving DecidableEq, Repr

/-- The TAP (R780, R781): the instruction register, the boundary register of 1,764 cells as sampled and as updated, whether the pins follow it. -/
structure Tap where
  ir : Nat := 2
  shift : Nat := 0
  latch : Nat := 0
  drives : Bool := false
deriving DecidableEq, Repr


/-- The state of the machine. -/
structure State where
  /-- The commands that are waiting, first in first out. -/
  pending : List Instr := []
  /-- AON clock cycles of 4 ns since power was applied; advanced by an idle step. -/
  clock : Nat := 0
  /-- Registers that differ from their reset value, by page-window offset (R17, R47). -/
  regs : SMap W32 := []
  /-- Staged copies that differ from the active copy, by page-window offset, the whole register word (R24). -/
  staged : SMap W32 := []
  /-- The signals sent to Fypajo, newest first (R777). -/
  fypSignals : List FypSignal := []
  /-- Faults and events on their way to FLT, oldest first (R717). -/
  toFlt : List FltMsg := []
  /-- Occurrences on their way to Contact Sheet, oldest first (R701). -/
  toCsh : List Occurrence := []
  /-- The data of the last register read and table window read, as the requester received it. -/
  readData : List Byte := []
  /-- The Mortar status of that read (R84). -/
  readSt : Nat := 0
  /-- What the pages last showed of QUIESCED, DEGRADED and FENCED, as bits [3:1] of STATUS, for the STATE event (02, common event bits). -/
  shown : SMap Nat := []
  /-- The 39 islands (R54). -/
  isl : List Island := { st := .on, point := ⟨250, 0⟩ } :: List.replicate 38 {}
  /-- The Mortar mesh. -/
  mortar : Mortar := {}
  /-- The bytes of core SRAM, Mortar SRAM and DRAM that differ from zero, by internal address (R82), addresses strictly rising. -/
  mem : List Host.Cell := []
  /-- The poisoned granules, by granule number (address div 64) (R88). -/
  poison : NSet := []
  /-- Stored bit errors by ECC word (address div 8): 1 single, 2 uncorrectable (R86). -/
  eccErr : SMap Nat := []
  /-- The scrub position of each SRAM bank: Mortar banks 0 to 15, then bank b of core n at 16 + 32 × n + b (R85, R92, R403). -/
  scrubPos : List Nat := List.replicate 272 0
  /-- The time base. -/
  tb : TimeBase := {}
  /-- How many free values have been drawn (a field of the model, not of the spec). -/
  drawn : Nat := 0
  /-- Power, reset and boot. -/
  boot : Boot := {}
  /-- The PCI Express endpoint. -/
  pci : Pci := {}
  /-- The DRAM subsystem. -/
  dram : Dram := {}
  /-- The queue engine Hod; the queue contexts lie in Mortar bank 15 (R221). -/
  hod : Hod := {}
  /-- The buffer pools of Quarry. -/
  qry : Quarry := {}
  /-- Stream ingress. -/
  ing : Ingress := {}
  /-- The Developer decode cluster. -/
  dev : Developer := {}
  /-- Enlarger. -/
  enl : Enlarger := {}
  /-- Easel. -/
  esl : Easel := {}
  /-- The eight Ashlar cores. -/
  cores : List Core := List.replicate 8 {}
  /-- The dispatcher and Stop Bath. -/
  dpt : Dispatcher := {}
  /-- Plumb. -/
  plb : Plumb := {}
  /-- Keystone. -/
  key : Keystone := {}
  /-- Safelight. -/
  sfl : Safelight := {}
  /-- The audio block and the amplifier. -/
  aud : Audio := {}
  /-- The change set in progress. -/
  seam : Seam := {}
  /-- Contact Sheet. -/
  csh : Csh := {}
  /-- Fault aggregation and injection. -/
  flt : Flt := {}
  /-- The Jione module and Fypajo. -/
  jione : Module := {}
  /-- The JTAG test access port. -/
  tap : Tap := {}
deriving DecidableEq, Repr

/-- The reasons for which the machine stops. A device fault of the spec is state (FAULT_CODE and FLT), never one of these. -/
inductive Fault where
  /-- Raised by VIN_CHANGE when VIN lies below -16 V or above 18 V: "Outside the survival range; no behaviour is stated" (R732). Safe: the model stops where the spec states nothing. -/
  | vinOutsideSurvival
deriving DecidableEq, Repr

/-- The reasons for which a command has no meaning in the model. -/
inductive Refusal where
  /-- The command's meaning is not written yet. Safe. -/
  | notModelled (mnemonic : String)
deriving DecidableEq, Repr

/-- The machine right after reset: VIN has just been applied, the module is in STANDBY and the die unpowered and in reset; every register at the
value the spec gives for reset and every store empty. -/
def State.reset : State := {}


end Sys2Proof.Machine
end

