-- ==== Sys2Proof/Machine/RegTable.lean ====
section
/-!
DEFINITION. Machine/RegTable.lean: the register pages as the Register page sections of spec/02 to spec/24 give them:
offsets, fields, access codes, reset values and the field values that are not reserved; and one address constant per register.
-/
namespace Sys2Proof.Machine

def regsSYS0 : List RegSpec := [
  ⟨"SYS_CAP_CORE", 0x100, 1, 0, 1, 0, [⟨0, 7, .ro, 8, 0, 255⟩, ⟨8, 11, .ro, 4, 0, 15⟩, ⟨16, 23, .ro, 8, 0, 255⟩]⟩,
  ⟨"SYS_CAP_ARRAY", 0x104, 1, 0, 1, 0, [⟨0, 15, .ro, 128, 0, 65535⟩, ⟨16, 31, .ro, 512, 0, 65535⟩]⟩,
  ⟨"SYS_CAP_SRAM", 0x108, 1, 0, 1, 0, [⟨0, 15, .ro, 16384, 0, 65535⟩, ⟨16, 31, .ro, 128, 0, 65535⟩]⟩,
  ⟨"SYS_CAP_MEDIA", 0x10C, 1, 0, 1, 0, [⟨0, 7, .ro, 6, 0, 255⟩, ⟨8, 15, .ro, 4, 0, 255⟩, ⟨16, 23, .ro, 36, 0, 255⟩, ⟨24, 31, .ro, 8, 0, 255⟩]⟩,
  ⟨"SYS_CAP_MEM", 0x110, 1, 0, 1, 0, [⟨0, 7, .ro, 8, 0, 255⟩, ⟨8, 15, .ro, 4, 0, 255⟩, ⟨16, 31, .ro, 0, 0, 65535⟩]⟩,
  ⟨"SYS_CAP_HOST", 0x114, 1, 0, 1, 0, [⟨0, 3, .ro, 4, 0, 15⟩, ⟨8, 15, .ro, 8, 0, 255⟩, ⟨16, 23, .ro, 8, 0, 255⟩]⟩,
  ⟨"SYS_CAP_OPT", 0x118, 1, 0, 1, 0, [⟨0, 0, .ro, 1, 0, 1⟩, ⟨1, 1, .ro, 1, 0, 1⟩, ⟨2, 2, .ro, 1, 0, 1⟩, ⟨8, 15, .ro, 39, 0, 255⟩, ⟨16, 19, .ro, 9, 0, 15⟩]⟩,
  ⟨"SYS_TWIN_SEL", 0x180, 4, 8, 1, 0, [⟨0, 7, .rw, 0, 0, 5⟩, ⟨8, 8, .rw, 0, 0, 1⟩]⟩]

def regsSYS1 : List RegSpec := [
  ⟨"SYS_TWIN_BASE", 0x184, 4, 8, 1, 0, [⟨22, 31, .rw, 0, 0, 1023⟩]⟩]

/-- The block registers of the SYS page. -/
def regsSYS : List RegSpec := regsSYS0 ++ regsSYS1

def regsAON0 : List RegSpec := [
  ⟨"AON_ISL_CTRL", 0x100, 39, 4, 1, 0, [⟨0, 1, .lk, 0, 0, 2⟩, ⟨2, 2, .lk, 0, 0, 1⟩]⟩,
  ⟨"AON_ISL_STATUS", 0x200, 39, 4, 1, 0, [⟨0, 1, .ro, 0, 0, 3⟩, ⟨2, 2, .ro, 0, 0, 1⟩, ⟨3, 3, .ro, 0, 0, 1⟩, ⟨8, 15, .ro, 0, 0, 255⟩, ⟨16, 31, .ro, 0, 0, 65535⟩]⟩,
  ⟨"AON_XING_TIMEOUTS", 0x2A0, 1, 0, 1, 0, [⟨0, 15, .rc, 0, 0, 65535⟩]⟩,
  ⟨"AON_REG_FAULTS", 0x2A4, 1, 0, 1, 0, [⟨0, 15, .rc, 0, 0, 65535⟩]⟩,
  ⟨"AON_TB_NOW_LO", 0x300, 1, 0, 1, 0, [⟨0, 31, .ro, 0, 0, 4294967295⟩]⟩,
  ⟨"AON_TB_NOW_HI", 0x304, 1, 0, 1, 0, [⟨0, 31, .ro, 0, 0, 4294967295⟩]⟩,
  ⟨"AON_TB_RATE", 0x308, 1, 0, 1, 0, [⟨0, 31, .rw, 0, 0, 4294967295⟩]⟩,
  ⟨"AON_TB_SLEW", 0x30C, 1, 0, 1, 0, [⟨0, 31, .wo, 0, 0, 4294967295⟩]⟩]

def regsAON1 : List RegSpec := [
  ⟨"AON_TB_STEP_LO", 0x310, 1, 0, 1, 0, [⟨0, 31, .wo, 0, 0, 4294967295⟩]⟩,
  ⟨"AON_TB_STEP_HI", 0x314, 1, 0, 1, 0, [⟨0, 31, .wo, 0, 0, 4294967295⟩]⟩,
  ⟨"AON_TB_STATUS", 0x318, 1, 0, 1, 0, [⟨0, 1, .ro, 0, 0, 3⟩, ⟨8, 31, .ro, 0, 0, 16777215⟩]⟩,
  ⟨"AON_TB_SERVO", 0x31C, 1, 0, 1, 0, [⟨0, 0, .w1s, 0, 0, 1⟩, ⟨8, 15, .rw, 20, 1, 255⟩]⟩]

/-- The block registers of the AON page. -/
def regsAON : List RegSpec := regsAON0 ++ regsAON1

def regsBOOT0 : List RegSpec := [
  ⟨"BOOT_PHASE", 0x100, 1, 0, 1, 0, [⟨0, 3, .ro, 0, 0, 15⟩]⟩,
  ⟨"BOOT_REASON", 0x104, 1, 0, 1, 0, [⟨0, 7, .ro, 0, 0, 255⟩, ⟨8, 15, .ro, 0, 0, 255⟩, ⟨16, 31, .ro, 0, 0, 65535⟩]⟩,
  ⟨"BOOT_SLOTS", 0x108, 1, 0, 1, 0, [⟨0, 0, .ro, 0, 0, 1⟩, ⟨1, 1, .ro, 0, 0, 1⟩, ⟨2, 2, .ro, 0, 0, 1⟩, ⟨3, 3, .ro, 0, 0, 1⟩, ⟨4, 4, .ro, 0, 0, 1⟩, ⟨5, 5, .ro, 0, 0, 1⟩]⟩,
  ⟨"BOOT_IMAGE_VER", 0x10C, 1, 0, 1, 0, [⟨0, 15, .ro, 0, 0, 65535⟩, ⟨16, 23, .ro, 0, 0, 255⟩]⟩,
  ⟨"BOOT_MANIFEST_VER", 0x110, 1, 0, 1, 0, [⟨0, 15, .ro, 0, 0, 65535⟩, ⟨16, 23, .ro, 0, 0, 255⟩]⟩,
  ⟨"BOOT_RESET_CAUSE", 0x114, 1, 0, 1, 0, [⟨0, 0, .rc, 0, 0, 1⟩, ⟨1, 1, .rc, 0, 0, 1⟩, ⟨2, 2, .rc, 0, 0, 1⟩, ⟨3, 3, .rc, 0, 0, 1⟩]⟩,
  ⟨"BOOT_OTP_STATE", 0x118, 1, 0, 1, 0, [⟨0, 1, .ro, 0, 0, 3⟩, ⟨2, 2, .ro, 0, 0, 1⟩, ⟨4, 5, .ro, 0, 0, 3⟩, ⟨8, 11, .ro, 0, 0, 15⟩, ⟨16, 22, .ro, 0, 0, 127⟩]⟩,
  ⟨"BOOT_ELAPSED", 0x11C, 1, 0, 1, 0, [⟨0, 31, .ro, 0, 0, 4294967295⟩]⟩]

def regsBOOT1 : List RegSpec := [
  ⟨"BOOT_MANIFEST_HASH", 0x120, 12, 4, 1, 0, [⟨0, 31, .ro, 0, 0, 4294967295⟩]⟩,
  ⟨"BOOT_CONFIRM", 0x150, 1, 0, 1, 0, [⟨0, 0, .wo, 0, 0, 1⟩]⟩,
  ⟨"BOOT_RESET_REQ", 0x154, 1, 0, 1, 0, [⟨0, 15, .wo, 0, 0, 65535⟩, ⟨16, 16, .wo, 0, 0, 1⟩]⟩,
  ⟨"BOOT_FLASH_ADDR", 0x158, 1, 0, 1, 0, [⟨0, 25, .rw, 0, 0, 67108863⟩]⟩,
  ⟨"BOOT_FLASH_CTRL", 0x15C, 1, 0, 1, 0, [⟨0, 2, .rw, 0, 1, 4⟩, ⟨30, 30, .ro, 0, 0, 1⟩, ⟨31, 31, .w1s, 0, 0, 1⟩]⟩,
  ⟨"BOOT_OTP_CMD", 0x160, 1, 0, 1, 0, [⟨0, 3, .wo, 0, 1, 3⟩, ⟨8, 11, .wo, 0, 0, 15⟩, ⟨16, 31, .wo, 0, 0, 65535⟩]⟩,
  ⟨"BOOT_FLASH_DATA", 0x200, 64, 4, 1, 0, [⟨0, 31, .rw, 0, 0, 4294967295⟩]⟩]

/-- The block registers of the BOOT page. -/
def regsBOOT : List RegSpec := regsBOOT0 ++ regsBOOT1

def regsFLT0 : List RegSpec := [
  ⟨"FLT_SAFE_STATUS", 0x100, 1, 0, 1, 0, [⟨0, 0, .w1c, 0, 0, 1⟩, ⟨1, 1, .ro, 0, 0, 1⟩, ⟨2, 2, .ro, 0, 0, 1⟩, ⟨3, 3, .ro, 0, 0, 1⟩, ⟨4, 4, .w1c, 0, 0, 1⟩, ⟨5, 5, .w1c, 0, 0, 1⟩, ⟨6, 6, .ro, 0, 0, 1⟩, ⟨7, 7, .ro, 0, 0, 1⟩, ⟨8, 8, .ro, 0, 0, 1⟩, ⟨9, 9, .ro, 0, 0, 1⟩, ⟨10, 10, .w1c, 0, 0, 1⟩, ⟨11, 11, .w1c, 0, 0, 1⟩, ⟨12, 12, .ro, 1, 0, 1⟩]⟩,
  ⟨"FLT_SAFE_SEEN", 0x104, 1, 0, 1, 0, [⟨0, 12, .w1c, 0, 0, 8191⟩]⟩,
  ⟨"FLT_LAST", 0x108, 1, 0, 1, 0, [⟨0, 7, .ro, 0, 0, 255⟩, ⟨8, 9, .ro, 0, 0, 3⟩, ⟨16, 31, .ro, 0, 0, 65535⟩]⟩,
  ⟨"FLT_LAST_TIME_LO", 0x10C, 1, 0, 1, 0, [⟨0, 31, .ro, 0, 0, 4294967295⟩]⟩,
  ⟨"FLT_LAST_TIME_HI", 0x110, 1, 0, 1, 0, [⟨0, 31, .ro, 0, 0, 4294967295⟩]⟩,
  ⟨"FLT_COUNT_MINOR", 0x114, 1, 0, 1, 0, [⟨0, 31, .rc, 0, 0, 4294967295⟩]⟩,
  ⟨"FLT_COUNT_MAJOR", 0x118, 1, 0, 1, 0, [⟨0, 31, .rc, 0, 0, 4294967295⟩]⟩,
  ⟨"FLT_COUNT_SAFETY", 0x11C, 1, 0, 1, 0, [⟨0, 31, .rc, 0, 0, 4294967295⟩]⟩]

def regsFLT1 : List RegSpec := [
  ⟨"FLT_EVT_COUNT", 0x120, 1, 0, 1, 0, [⟨0, 31, .rc, 0, 0, 4294967295⟩]⟩,
  ⟨"FLT_SENT_CFG", 0x124, 1, 0, 1, 0, [⟨0, 7, .lk, 3, 1, 255⟩, ⟨16, 31, .lk, 1000, 1, 65535⟩]⟩,
  ⟨"FLT_SENT_STATUS", 0x128, 1, 0, 1, 0, [⟨0, 7, .ro, 0, 0, 255⟩, ⟨16, 31, .ro, 0, 0, 65535⟩]⟩,
  ⟨"FLT_CTRL", 0x12C, 1, 0, 1, 0, [⟨0, 0, .wo, 0, 0, 1⟩]⟩,
  ⟨"FLT_INJ_ALLOW", 0x130, 1, 0, 1, 0, [⟨0, 0, .lk, 0, 0, 1⟩]⟩,
  ⟨"FLT_INJ_CTRL", 0x134, 1, 0, 1, 0, [⟨0, 7, .wo, 0, 1, 10⟩, ⟨15, 15, .wo, 0, 0, 1⟩, ⟨16, 31, .wo, 0, 0, 65535⟩]⟩,
  ⟨"FLT_INJ_ARG", 0x138, 1, 0, 1, 0, [⟨0, 31, .rw, 0, 0, 4294967295⟩]⟩,
  ⟨"FLT_INJ_STATUS", 0x13C, 1, 0, 1, 0, [⟨0, 1, .ro, 0, 0, 3⟩, ⟨8, 15, .ro, 0, 0, 255⟩]⟩]

def regsFLT2 : List RegSpec := [
  ⟨"FLT_BLOCK_COUNT", 0x140, 23, 4, 1, 0, [⟨0, 31, .rc, 0, 0, 4294967295⟩]⟩,
  ⟨"FLT_SEV", 0x400, 23, 64, 16, 4, [⟨0, 1, .lk, 0, 0, 3⟩, ⟨2, 3, .lk, 0, 0, 3⟩, ⟨4, 5, .lk, 0, 0, 3⟩, ⟨6, 7, .lk, 0, 0, 3⟩, ⟨8, 9, .lk, 0, 0, 3⟩, ⟨10, 11, .lk, 0, 0, 3⟩, ⟨12, 13, .lk, 0, 0, 3⟩, ⟨14, 15, .lk, 0, 0, 3⟩, ⟨16, 17, .lk, 0, 0, 3⟩, ⟨18, 19, .lk, 0, 0, 3⟩, ⟨20, 21, .lk, 0, 0, 3⟩, ⟨22, 23, .lk, 0, 0, 3⟩, ⟨24, 25, .lk, 0, 0, 3⟩, ⟨26, 27, .lk, 0, 0, 3⟩, ⟨28, 29, .lk, 0, 0, 3⟩, ⟨30, 31, .lk, 0, 0, 3⟩]⟩]

/-- The block registers of the FLT page. -/
def regsFLT : List RegSpec := regsFLT0 ++ regsFLT1 ++ regsFLT2

def regsSEAM0 : List RegSpec := [
  ⟨"SEAM_MASK_LO", 0x100, 1, 0, 1, 0, [⟨0, 31, .rw, 0, 0, 4294967295⟩]⟩,
  ⟨"SEAM_MASK_HI", 0x104, 1, 0, 1, 0, [⟨0, 23, .rw, 0, 0, 16777215⟩]⟩,
  ⟨"SEAM_CMD", 0x108, 1, 0, 1, 0, [⟨0, 1, .rw, 0, 1, 3⟩, ⟨31, 31, .w1s, 0, 0, 1⟩]⟩,
  ⟨"SEAM_STATE", 0x10C, 1, 0, 1, 0, [⟨0, 1, .ro, 0, 0, 3⟩]⟩,
  ⟨"SEAM_LAST", 0x110, 1, 0, 1, 0, [⟨0, 1, .ro, 0, 0, 3⟩, ⟨8, 15, .ro, 0, 0, 255⟩, ⟨16, 31, .ro, 0, 0, 65535⟩]⟩,
  ⟨"SEAM_EPOCH_NOW", 0x114, 1, 0, 1, 0, [⟨0, 15, .ro, 0, 0, 65535⟩]⟩,
  ⟨"SEAM_CANNOT_LO", 0x118, 1, 0, 1, 0, [⟨0, 31, .ro, 0, 0, 4294967295⟩]⟩,
  ⟨"SEAM_CANNOT_HI", 0x11C, 1, 0, 1, 0, [⟨0, 23, .ro, 0, 0, 16777215⟩]⟩]

def regsSEAM1 : List RegSpec := [
  ⟨"SEAM_WAIT_LO", 0x120, 1, 0, 1, 0, [⟨0, 31, .ro, 0, 0, 4294967295⟩]⟩,
  ⟨"SEAM_WAIT_HI", 0x124, 1, 0, 1, 0, [⟨0, 23, .ro, 0, 0, 16777215⟩]⟩,
  ⟨"SEAM_TIMEOUT", 0x128, 1, 0, 1, 0, [⟨0, 5, .lk, 50, 1, 50⟩]⟩,
  ⟨"SEAM_ELAPSED", 0x12C, 1, 0, 1, 0, [⟨0, 15, .ro, 0, 0, 65535⟩]⟩,
  ⟨"SEAM_COUNT", 0x130, 1, 0, 1, 0, [⟨0, 15, .rc, 0, 0, 65535⟩, ⟨16, 31, .rc, 0, 0, 65535⟩]⟩,
  ⟨"SEAM_REASON", 0x134, 1, 0, 1, 0, [⟨0, 7, .ro, 0, 0, 255⟩, ⟨8, 15, .ro, 0, 0, 255⟩]⟩]

/-- The block registers of the SEAM page. -/
def regsSEAM : List RegSpec := regsSEAM0 ++ regsSEAM1

def regsCSH0 : List RegSpec := [
  ⟨"CSH_CTRL", 0x100, 1, 0, 1, 0, [⟨0, 0, .rw, 0, 0, 1⟩]⟩,
  ⟨"CSH_SEQ", 0x104, 1, 0, 1, 0, [⟨0, 31, .ro, 0, 0, 4294967295⟩]⟩,
  ⟨"CSH_LOST", 0x108, 1, 0, 1, 0, [⟨0, 31, .rc, 0, 0, 4294967295⟩]⟩,
  ⟨"CSH_FIFO", 0x10C, 1, 0, 1, 0, [⟨0, 6, .ro, 0, 0, 127⟩, ⟨16, 22, .rc, 0, 0, 127⟩]⟩,
  ⟨"CSH_EXT_BASE_LO", 0x110, 1, 0, 1, 0, [⟨16, 31, .rw, 0, 0, 65535⟩]⟩,
  ⟨"CSH_EXT_BASE_HI", 0x114, 1, 0, 1, 0, [⟨0, 15, .rw, 0, 0, 65535⟩]⟩,
  ⟨"CSH_EXT_SIZE", 0x118, 1, 0, 1, 0, [⟨0, 9, .rw, 1, 1, 512⟩]⟩,
  ⟨"CSH_EXT_SEQ", 0x11C, 1, 0, 1, 0, [⟨0, 31, .ro, 0, 0, 4294967295⟩]⟩]

def regsCSH1 : List RegSpec := [
  ⟨"CSH_EXT_SKIPPED", 0x120, 1, 0, 1, 0, [⟨0, 31, .rc, 0, 0, 4294967295⟩]⟩,
  ⟨"CSH_SW_CODE", 0x124, 1, 0, 1, 0, [⟨0, 15, .rw, 0, 0, 65535⟩, ⟨31, 31, .w1s, 0, 0, 1⟩]⟩,
  ⟨"CSH_SW_PARAM", 0x128, 4, 4, 1, 0, [⟨0, 31, .rw, 0, 0, 4294967295⟩]⟩,
  ⟨"CSH_TRIG", 0x200, 64, 4, 1, 0, [⟨0, 15, .rw, 0, 0, 65535⟩, ⟨16, 20, .rw, 0, 0, 31⟩, ⟨24, 24, .rw, 0, 0, 1⟩, ⟨25, 25, .rw, 0, 0, 1⟩]⟩,
  ⟨"CSH_SNAP_SEL", 0x400, 64, 32, 8, 4, [⟨0, 15, .rw, 0, 0, 65535⟩, ⟨16, 31, .rw, 0, 0, 65535⟩]⟩]

/-- The block registers of the CSH page. -/
def regsCSH : List RegSpec := regsCSH0 ++ regsCSH1

def regsPLB0 : List RegSpec := [
  ⟨"PLB_CTRL", 0x100, 1, 0, 1, 0, [⟨0, 0, .rw, 0, 0, 1⟩]⟩,
  ⟨"PLB_STATUS", 0x104, 1, 0, 1, 0, [⟨0, 1, .ro, 0, 0, 3⟩, ⟨4, 7, .ro, 0, 0, 15⟩, ⟨8, 8, .ro, 0, 0, 1⟩, ⟨9, 9, .ro, 0, 0, 1⟩]⟩,
  ⟨"PLB_PLAN", 0x108, 1, 0, 1, 0, [⟨0, 10, .ro, 0, 0, 2047⟩, ⟨12, 15, .ro, 0, 0, 15⟩, ⟨16, 23, .ro, 0, 0, 255⟩]⟩,
  ⟨"PLB_FAILS", 0x10C, 1, 0, 1, 0, [⟨0, 31, .rc, 0, 0, 4294967295⟩]⟩,
  ⟨"PLB_T_COOL", 0x110, 1, 0, 1, 0, [⟨0, 15, .rw, 0, 0, 65535⟩]⟩,
  ⟨"PLB_SENT", 0x114, 1, 0, 1, 0, [⟨0, 8, .ro, 256, 0, 511⟩, ⟨9, 9, .ro, 0, 0, 1⟩]⟩,
  ⟨"PLB_CAP", 0x118, 1, 0, 1, 0, [⟨0, 9, .st, 0, 100, 1023⟩]⟩,
  ⟨"PLB_TLIMIT", 0x11C, 1, 0, 1, 0, [⟨0, 7, .st, 0, 0, 115⟩]⟩]

def regsPLB1 : List RegSpec := [
  ⟨"PLB_HOT", 0x120, 1, 0, 1, 0, [⟨0, 15, .ro, 0, 0, 65535⟩, ⟨16, 20, .ro, 0, 0, 31⟩]⟩,
  ⟨"PLB_SENSOR_FAIL", 0x124, 1, 0, 1, 0, [⟨0, 23, .ro, 0, 0, 16777215⟩]⟩,
  ⟨"PLB_RES_OVER", 0x128, 1, 0, 1, 0, [⟨0, 31, .rc, 0, 0, 4294967295⟩]⟩,
  ⟨"PLB_PERIOD", 0x12C, 1, 0, 1, 0, [⟨0, 31, .ro, 0, 0, 4294967295⟩]⟩,
  ⟨"PLB_TEMP", 0x180, 24, 4, 1, 0, [⟨0, 15, .ro, 0, 0, 65535⟩]⟩,
  ⟨"PLB_ISL_ENERGY_LO", 0x200, 39, 8, 1, 0, [⟨0, 31, .ro, 0, 0, 4294967295⟩]⟩,
  ⟨"PLB_ISL_ENERGY_HI", 0x204, 39, 8, 1, 0, [⟨0, 31, .ro, 0, 0, 4294967295⟩]⟩,
  ⟨"PLB_GRP_POINT", 0x400, 12, 16, 1, 0, [⟨0, 2, .ro, 0, 0, 7⟩, ⟨4, 6, .ro, 0, 0, 7⟩, ⟨16, 31, .ro, 0, 0, 65535⟩]⟩]

def regsPLB2 : List RegSpec := [
  ⟨"PLB_GRP_ALLOW", 0x404, 12, 16, 1, 0, [⟨0, 31, .ro, 0, 0, 4294967295⟩]⟩,
  ⟨"PLB_GRP_LEFT", 0x408, 12, 16, 1, 0, [⟨0, 31, .ro, 0, 0, 4294967295⟩]⟩,
  ⟨"PLB_PT_FULL", 0x500, 12, 32, 5, 4, [⟨0, 15, .roBoot, 0, 0, 65535⟩]⟩,
  ⟨"PLB_PT_IDLE", 0x680, 12, 32, 5, 4, [⟨0, 15, .roBoot, 0, 0, 65535⟩]⟩,
  ⟨"PLB_PART_ALLOW", 0x800, 8, 16, 1, 0, [⟨0, 31, .ro, 0, 0, 4294967295⟩]⟩,
  ⟨"PLB_PART_LEFT", 0x804, 8, 16, 1, 0, [⟨0, 31, .ro, 0, 0, 4294967295⟩]⟩,
  ⟨"PLB_PART_RESERVE", 0x808, 8, 16, 1, 0, [⟨0, 31, .ro, 0, 0, 4294967295⟩]⟩,
  ⟨"PLB_PART_RES_LEFT", 0x80C, 8, 16, 1, 0, [⟨0, 31, .ro, 0, 0, 4294967295⟩]⟩]

def regsPLB3 : List RegSpec := [
  ⟨"PLB_SPENT", 0x880, 4, 4, 1, 0, [⟨0, 31, .rc, 0, 0, 4294967295⟩]⟩]

/-- The block registers of the PLB page. -/
def regsPLB : List RegSpec := regsPLB0 ++ regsPLB1 ++ regsPLB2 ++ regsPLB3

def regsDPT0 : List RegSpec := [
  ⟨"DPT_CAPS_A", 0x8, 1, 0, 1, 0, [⟨0, 3, .ro, 8, 0, 15⟩, ⟨16, 24, .ro, 256, 0, 511⟩]⟩,
  ⟨"DPT_PART_CFG", 0x100, 8, 16, 1, 0, [⟨0, 7, .roBoot, 0, 0, 255⟩, ⟨8, 11, .roBoot, 0, 0, 15⟩, ⟨12, 12, .roBoot, 0, 0, 1⟩, ⟨13, 13, .roBoot, 0, 0, 1⟩, ⟨16, 23, .roBoot, 0, 0, 255⟩]⟩,
  ⟨"DPT_PART_CTRL", 0x104, 8, 16, 1, 0, [⟨0, 0, .st, 0, 0, 1⟩, ⟨1, 1, .rw, 0, 0, 1⟩, ⟨8, 15, .st, 0, 0, 255⟩]⟩,
  ⟨"DPT_PART_STATUS", 0x108, 8, 16, 1, 0, [⟨0, 2, .ro, 0, 0, 7⟩, ⟨8, 15, .ro, 0, 0, 255⟩, ⟨16, 20, .ro, 0, 0, 31⟩, ⟨24, 24, .ro, 0, 0, 1⟩]⟩,
  ⟨"DPT_PART_JOBS", 0x10C, 8, 16, 1, 0, [⟨0, 31, .rc, 0, 0, 4294967295⟩]⟩,
  ⟨"DPT_MISMATCH_LIMIT", 0x180, 1, 0, 1, 0, [⟨0, 7, .lk, 3, 0, 255⟩]⟩,
  ⟨"DPT_URGENT_PEAK", 0x184, 1, 0, 1, 0, [⟨0, 15, .rc, 0, 0, 65535⟩]⟩,
  ⟨"DPT_LOAD_STATUS", 0x188, 1, 0, 1, 0, [⟨0, 15, .ro, 0, 0, 65535⟩, ⟨16, 23, .ro, 0, 0, 255⟩, ⟨24, 31, .ro, 0, 0, 255⟩]⟩]

def regsDPT1 : List RegSpec := [
  ⟨"DPT_WINDOW", 0x18C, 1, 0, 1, 0, [⟨0, 2, .ro, 0, 0, 7⟩, ⟨3, 3, .ro, 0, 0, 1⟩, ⟨4, 4, .ro, 0, 0, 1⟩]⟩]

/-- The block registers of the DPT page. -/
def regsDPT : List RegSpec := regsDPT0 ++ regsDPT1

def regsSBT0 : List RegSpec := [
  ⟨"SBT_ACTIVE", 0x100, 1, 0, 1, 0, [⟨0, 8, .ro, 0, 0, 511⟩]⟩,
  ⟨"SBT_MISSES", 0x104, 1, 0, 1, 0, [⟨0, 31, .rc, 0, 0, 4294967295⟩]⟩,
  ⟨"SBT_SENTINEL_MISSES", 0x108, 1, 0, 1, 0, [⟨0, 31, .rc, 0, 0, 4294967295⟩]⟩,
  ⟨"SBT_LAST_MISS", 0x10C, 1, 0, 1, 0, [⟨0, 15, .ro, 0, 0, 65535⟩, ⟨16, 17, .ro, 0, 0, 3⟩, ⟨18, 18, .ro, 0, 0, 1⟩]⟩,
  ⟨"SBT_LOST", 0x110, 1, 0, 1, 0, [⟨0, 31, .rc, 0, 0, 4294967295⟩]⟩]

/-- The block registers of the SBT page. -/
def regsSBT : List RegSpec := regsSBT0

def regsHOD0 : List RegSpec := [
  ⟨"HOD_CAPS_A", 0x8, 1, 0, 1, 0, [⟨0, 4, .ro, 16, 0, 31⟩, ⟨16, 24, .ro, 256, 0, 511⟩]⟩,
  ⟨"HOD_PUSHES", 0x100, 1, 0, 1, 0, [⟨0, 31, .rc, 0, 0, 4294967295⟩]⟩,
  ⟨"HOD_POPS", 0x104, 1, 0, 1, 0, [⟨0, 31, .rc, 0, 0, 4294967295⟩]⟩,
  ⟨"HOD_REFUSED", 0x108, 1, 0, 1, 0, [⟨0, 31, .rc, 0, 0, 4294967295⟩]⟩,
  ⟨"HOD_LAST_DETACHED", 0x10C, 1, 0, 1, 0, [⟨0, 15, .ro, 0, 0, 65535⟩, ⟨16, 23, .ro, 0, 0, 255⟩]⟩,
  ⟨"HOD_URGENT_PEAK", 0x110, 1, 0, 1, 0, [⟨0, 7, .rc, 0, 0, 255⟩, ⟨8, 15, .ro, 0, 0, 255⟩]⟩,
  ⟨"HOD_COPY_STATUS", 0x114, 1, 0, 1, 0, [⟨0, 4, .ro, 0, 0, 31⟩]⟩]

/-- The block registers of the HOD page. -/
def regsHOD : List RegSpec := regsHOD0

def regsQRY0 : List RegSpec := [
  ⟨"QRY_CAPS_A", 0x8, 1, 0, 1, 0, [⟨0, 3, .ro, 8, 0, 15⟩, ⟨4, 8, .ro, 16, 0, 31⟩, ⟨16, 22, .ro, 64, 0, 127⟩]⟩,
  ⟨"QRY_POOL_BASE_LO", 0x100, 8, 16, 1, 0, [⟨8, 31, .st, 0, 0, 16777215⟩]⟩,
  ⟨"QRY_POOL_BASE_HI", 0x104, 8, 16, 1, 0, [⟨0, 15, .st, 0, 0, 65535⟩]⟩,
  ⟨"QRY_POOL_CFG", 0x108, 8, 16, 1, 0, [⟨0, 16, .st, 0, 0, 65536⟩, ⟨31, 31, .st, 0, 0, 1⟩]⟩,
  ⟨"QRY_POOL_STATUS", 0x10C, 8, 16, 1, 0, [⟨0, 16, .ro, 0, 0, 131071⟩, ⟨17, 17, .ro, 0, 0, 1⟩]⟩,
  ⟨"QRY_PF_ARG", 0x180, 1, 0, 1, 0, [⟨0, 31, .rw, 0, 0, 4294967295⟩]⟩,
  ⟨"QRY_PF_CMD", 0x184, 1, 0, 1, 0, [⟨0, 1, .rw, 0, 1, 3⟩, ⟨31, 31, .w1s, 0, 0, 1⟩]⟩,
  ⟨"QRY_PF_RESULT", 0x188, 1, 0, 1, 0, [⟨0, 3, .ro, 0, 0, 15⟩, ⟨4, 4, .ro, 0, 0, 1⟩]⟩]

def regsQRY1 : List RegSpec := [
  ⟨"QRY_PF_ADDR_LO", 0x18C, 1, 0, 1, 0, [⟨0, 31, .ro, 0, 0, 4294967295⟩]⟩,
  ⟨"QRY_PF_ADDR_HI", 0x190, 1, 0, 1, 0, [⟨0, 15, .ro, 0, 0, 65535⟩]⟩,
  ⟨"QRY_INSPECT", 0x1A0, 1, 0, 1, 0, [⟨0, 18, .rw, 0, 0, 524287⟩]⟩,
  ⟨"QRY_INSPECT_DATA", 0x1A4, 1, 0, 1, 0, [⟨0, 0, .ro, 0, 0, 1⟩, ⟨8, 15, .ro, 0, 0, 255⟩, ⟨16, 21, .ro, 0, 0, 63⟩]⟩,
  ⟨"QRY_ALLOCS", 0x1B0, 1, 0, 1, 0, [⟨0, 31, .rc, 0, 0, 4294967295⟩]⟩,
  ⟨"QRY_FREES", 0x1B4, 1, 0, 1, 0, [⟨0, 31, .rc, 0, 0, 4294967295⟩]⟩,
  ⟨"QRY_REFUSED", 0x1B8, 1, 0, 1, 0, [⟨0, 31, .rc, 0, 0, 4294967295⟩]⟩,
  ⟨"QRY_IDMAP", 0x1C0, 8, 4, 1, 0, [⟨0, 3, .st, 0, 0, 15⟩, ⟨4, 7, .st, 0, 0, 15⟩, ⟨8, 11, .st, 0, 0, 15⟩, ⟨12, 15, .st, 0, 0, 15⟩, ⟨16, 19, .st, 0, 0, 15⟩, ⟨20, 23, .st, 0, 0, 15⟩, ⟨24, 27, .st, 0, 0, 15⟩, ⟨28, 31, .st, 0, 0, 15⟩]⟩]

def regsQRY2 : List RegSpec := [
  ⟨"QRY_QUOTA", 0x400, 64, 16, 4, 4, [⟨0, 15, .st, 0, 0, 65535⟩, ⟨16, 31, .st, 0, 0, 65535⟩]⟩,
  ⟨"QRY_USED", 0x800, 64, 32, 8, 4, [⟨0, 16, .ro, 0, 0, 131071⟩]⟩]

/-- The block registers of the QRY page. -/
def regsQRY : List RegSpec := regsQRY0 ++ regsQRY1 ++ regsQRY2

def regsMTR0 : List RegSpec := [
  ⟨"MTR_SCRUB_CTRL", 0x100, 1, 0, 1, 0, [⟨0, 0, .rw, 1, 0, 1⟩, ⟨4, 11, .rw, 8, 2, 128⟩]⟩,
  ⟨"MTR_SCRUB_POS", 0x104, 1, 0, 1, 0, [⟨0, 3, .ro, 0, 0, 15⟩, ⟨4, 20, .ro, 0, 0, 131071⟩]⟩,
  ⟨"MTR_CE_THRESH", 0x108, 1, 0, 1, 0, [⟨0, 15, .rw, 16, 1, 65535⟩]⟩,
  ⟨"MTR_ECC_COUNT", 0x110, 16, 4, 1, 0, [⟨0, 15, .rc, 0, 0, 65535⟩, ⟨16, 31, .rc, 0, 0, 65535⟩]⟩,
  ⟨"MTR_WRR", 0x150, 1, 0, 1, 0, [⟨0, 3, .rw, 3, 1, 15⟩, ⟨4, 7, .rw, 1, 1, 15⟩]⟩,
  ⟨"MTR_URGENT_PEAK", 0x154, 1, 0, 1, 0, [⟨0, 15, .rc, 0, 0, 65535⟩]⟩,
  ⟨"MTR_FLITS_URGENT", 0x158, 1, 0, 1, 0, [⟨0, 31, .rc, 0, 0, 4294967295⟩]⟩,
  ⟨"MTR_FLITS_NORMAL", 0x15C, 1, 0, 1, 0, [⟨0, 31, .rc, 0, 0, 4294967295⟩]⟩]

def regsMTR1 : List RegSpec := [
  ⟨"MTR_FLITS_BULK", 0x160, 1, 0, 1, 0, [⟨0, 31, .rc, 0, 0, 4294967295⟩]⟩]

/-- The block registers of the MTR page. -/
def regsMTR : List RegSpec := regsMTR0 ++ regsMTR1

def regsPCI0 : List RegSpec := [
  ⟨"PCI_LINK_STATUS", 0x100, 1, 0, 1, 0, [⟨0, 3, .ro, 0, 0, 15⟩, ⟨4, 9, .ro, 0, 0, 63⟩, ⟨10, 10, .ro, 0, 0, 1⟩]⟩,
  ⟨"PCI_LINK_CTRL", 0x104, 1, 0, 1, 0, [⟨0, 7, .rw, 16, 1, 255⟩]⟩,
  ⟨"PCI_MASTER_CTRL", 0x108, 1, 0, 1, 0, [⟨0, 0, .rw, 0, 0, 1⟩]⟩,
  ⟨"PCI_TAGS", 0x10C, 1, 0, 1, 0, [⟨0, 9, .ro, 0, 0, 1023⟩, ⟨16, 25, .rc, 0, 0, 1023⟩]⟩,
  ⟨"PCI_REFUSALS", 0x110, 1, 0, 1, 0, [⟨0, 15, .rc, 0, 0, 65535⟩, ⟨16, 31, .rc, 0, 0, 65535⟩]⟩,
  ⟨"PCI_HWIN_BASE_LO", 0x180, 16, 16, 1, 0, [⟨12, 31, .st, 0, 0, 1048575⟩]⟩,
  ⟨"PCI_HWIN_BASE_HI", 0x184, 16, 16, 1, 0, [⟨0, 31, .st, 0, 0, 4294967295⟩]⟩,
  ⟨"PCI_HWIN_CFG", 0x188, 16, 16, 1, 0, [⟨0, 30, .st, 0, 0, 2147483647⟩]⟩]

def regsPCI1 : List RegSpec := [
  ⟨"PCI_HWIN_CFG_HI", 0x18C, 16, 16, 1, 0, [⟨0, 3, .st, 0, 0, 8⟩, ⟨4, 4, .st, 0, 0, 1⟩]⟩,
  ⟨"PCI_PWIN_BASE_LO", 0x400, 64, 16, 1, 0, [⟨12, 31, .st, 0, 0, 1048575⟩]⟩,
  ⟨"PCI_PWIN_BASE_HI", 0x404, 64, 16, 1, 0, [⟨0, 15, .st, 0, 0, 65535⟩, ⟨16, 16, .st, 0, 0, 1⟩, ⟨17, 17, .st, 0, 0, 1⟩, ⟨18, 18, .st, 0, 0, 1⟩, ⟨19, 19, .st, 0, 0, 1⟩, ⟨20, 20, .st, 0, 0, 1⟩, ⟨21, 21, .st, 0, 0, 1⟩, ⟨22, 22, .st, 0, 0, 1⟩]⟩,
  ⟨"PCI_PWIN_LIMIT_LO", 0x408, 64, 16, 1, 0, [⟨12, 31, .st, 0, 0, 1048575⟩]⟩,
  ⟨"PCI_PWIN_LIMIT_HI", 0x40C, 64, 16, 1, 0, [⟨0, 15, .st, 0, 0, 65535⟩]⟩]

/-- The block registers of the PCI page. -/
def regsPCI : List RegSpec := regsPCI0 ++ regsPCI1

def regsAUD0 : List RegSpec := [
  ⟨"AUD_CAPS_A", 0x8, 1, 0, 1, 0, [⟨0, 4, .ro, 16, 0, 31⟩, ⟨8, 12, .ro, 16, 0, 31⟩, ⟨16, 17, .ro, 2, 0, 3⟩]⟩,
  ⟨"AUD_MIC_CFG", 0x100, 1, 0, 1, 0, [⟨0, 0, .st, 0, 0, 1⟩, ⟨1, 1, .st, 0, 0, 1⟩, ⟨2, 2, .st, 0, 0, 1⟩, ⟨4, 6, .st, 0, 0, 7⟩, ⟨8, 12, .st, 10, 1, 32⟩, ⟨16, 31, .st, 0, 0, 65535⟩]⟩,
  ⟨"AUD_MIC_STATUS", 0x104, 1, 0, 1, 0, [⟨0, 15, .ro, 0, 0, 65535⟩]⟩,
  ⟨"AUD_MIC_SAT", 0x108, 1, 0, 1, 0, [⟨0, 31, .rc, 0, 0, 4294967295⟩]⟩,
  ⟨"AUD_BLOCK", 0x10C, 1, 0, 1, 0, [⟨0, 15, .ro, 0, 0, 65535⟩]⟩,
  ⟨"AUD_TDM_IN_STATUS", 0x110, 1, 0, 1, 0, [⟨0, 0, .ro, 0, 0, 1⟩, ⟨16, 31, .ro, 0, 0, 65535⟩]⟩,
  ⟨"AUD_OUT_CLIP", 0x114, 1, 0, 1, 0, [⟨0, 31, .rc, 0, 0, 4294967295⟩]⟩,
  ⟨"AUD_SRC_CFG", 0x140, 16, 4, 1, 0, [⟨0, 0, .st, 0, 0, 1⟩, ⟨1, 3, .st, 7, 1, 7⟩, ⟨4, 5, .st, 0, 0, 3⟩, ⟨6, 6, .st, 0, 0, 1⟩, ⟨8, 15, .st, 0, 0, 255⟩]⟩]

def regsAUD1 : List RegSpec := [
  ⟨"AUD_DUCK", 0x180, 7, 4, 1, 0, [⟨0, 7, .st, 12, 0, 255⟩]⟩,
  ⟨"AUD_DUCK_TIME", 0x1A0, 1, 0, 1, 0, [⟨0, 7, .st, 5, 0, 255⟩, ⟨8, 23, .st, 200, 0, 65535⟩]⟩,
  ⟨"AUD_ALERT_CFG", 0x1C0, 1, 0, 1, 0, [⟨0, 15, .roBoot, 65535, 0, 65535⟩, ⟨16, 18, .roBoot, 0, 0, 7⟩, ⟨19, 20, .roBoot, 0, 0, 3⟩, ⟨21, 22, .roBoot, 0, 0, 3⟩, ⟨24, 31, .roBoot, 0, 0, 255⟩]⟩,
  ⟨"AUD_ALERT_GAIN", 0x1C4, 1, 0, 1, 0, [⟨0, 7, .st, 0, 0, 255⟩, ⟨8, 15, .roBoot, 0, 0, 255⟩]⟩,
  ⟨"AUD_ALERT_STATE", 0x1C8, 1, 0, 1, 0, [⟨0, 0, .ro, 0, 0, 1⟩, ⟨1, 2, .ro, 0, 0, 3⟩, ⟨4, 7, .ro, 0, 0, 15⟩, ⟨8, 9, .ro, 0, 0, 3⟩, ⟨10, 12, .ro, 0, 0, 7⟩]⟩,
  ⟨"AUD_ALERT_CAP", 0x1CC, 1, 0, 1, 0, [⟨0, 1, .ro, 2, 0, 3⟩, ⟨4, 4, .ro, 0, 0, 1⟩, ⟨5, 6, .ro, 0, 0, 3⟩]⟩,
  ⟨"AUD_ALERTS", 0x1D0, 1, 0, 1, 0, [⟨0, 31, .rc, 0, 0, 4294967295⟩]⟩,
  ⟨"AUD_ALERT_IGNORED", 0x1D4, 1, 0, 1, 0, [⟨0, 31, .rc, 0, 0, 4294967295⟩]⟩]

def regsAUD2 : List RegSpec := [
  ⟨"AUD_AMP_DIAG", 0x200, 2, 8, 1, 0, [⟨0, 1, .roFyp, 0, 0, 3⟩, ⟨4, 6, .roFyp, 0, 0, 7⟩, ⟨8, 11, .roFyp, 0, 0, 15⟩]⟩,
  ⟨"AUD_AMP_CTRL", 0x204, 2, 8, 1, 0, [⟨0, 0, .w1s, 0, 0, 1⟩]⟩]

/-- The block registers of the AUD page. -/
def regsAUD : List RegSpec := regsAUD0 ++ regsAUD1 ++ regsAUD2

def regsKEY0 : List RegSpec := [
  ⟨"KEY_CAPS_A", 0x8, 1, 0, 1, 0, [⟨0, 2, .ro, 4, 0, 7⟩, ⟨8, 15, .ro, 12, 0, 255⟩]⟩,
  ⟨"KEY_STATE", 0x100, 1, 0, 1, 0, [⟨0, 0, .ro, 0, 0, 1⟩, ⟨1, 2, .ro, 0, 0, 3⟩, ⟨3, 3, .ro, 0, 0, 1⟩, ⟨4, 8, .ro, 0, 0, 31⟩]⟩,
  ⟨"KEY_CMDS", 0x104, 1, 0, 1, 0, [⟨0, 31, .rc, 0, 0, 4294967295⟩]⟩,
  ⟨"KEY_ITERS", 0x108, 1, 0, 1, 0, [⟨0, 31, .rc, 0, 0, 4294967295⟩]⟩,
  ⟨"KEY_BUSY", 0x10C, 1, 0, 1, 0, [⟨0, 31, .rc, 0, 0, 4294967295⟩]⟩,
  ⟨"KEY_STALL", 0x110, 1, 0, 1, 0, [⟨0, 31, .rc, 0, 0, 4294967295⟩]⟩,
  ⟨"KEY_CTX_CFG", 0x140, 4, 16, 1, 0, [⟨0, 2, .st, 0, 0, 7⟩, ⟨4, 5, .st, 2, 0, 3⟩]⟩,
  ⟨"KEY_CTX_STATE", 0x144, 4, 16, 1, 0, [⟨0, 1, .ro, 0, 0, 3⟩, ⟨2, 2, .ro, 0, 0, 1⟩, ⟨16, 27, .ro, 0, 0, 4095⟩]⟩]

def regsKEY1 : List RegSpec := [
  ⟨"KEY_CTX_LAST", 0x148, 4, 16, 1, 0, [⟨0, 3, .ro, 0, 0, 15⟩, ⟨8, 31, .ro, 0, 0, 16777215⟩]⟩,
  ⟨"KEY_PF_CMD_LO", 0x200, 3, 8, 1, 0, [⟨6, 31, .rw, 0, 0, 67108863⟩]⟩,
  ⟨"KEY_PF_CMD_HI", 0x204, 3, 8, 1, 0, [⟨0, 15, .rw, 0, 0, 65535⟩, ⟨31, 31, .w1s, 0, 0, 1⟩]⟩]

/-- The block registers of the KEY page. -/
def regsKEY : List RegSpec := regsKEY0 ++ regsKEY1

def regsSFL0 : List RegSpec := [
  ⟨"SFL_CAPS_A", 0x8, 1, 0, 1, 0, [⟨0, 3, .ro, 8, 0, 15⟩, ⟨4, 7, .ro, 4, 0, 15⟩, ⟨8, 12, .ro, 16, 0, 31⟩]⟩,
  ⟨"SFL_STATE", 0x100, 1, 0, 1, 0, [⟨0, 0, .ro, 0, 0, 1⟩, ⟨1, 5, .ro, 0, 0, 31⟩]⟩,
  ⟨"SFL_CMDS", 0x104, 1, 0, 1, 0, [⟨0, 31, .rc, 0, 0, 4294967295⟩]⟩,
  ⟨"SFL_OPS", 0x108, 1, 0, 1, 0, [⟨0, 31, .rc, 0, 0, 4294967295⟩]⟩,
  ⟨"SFL_BUSY", 0x10C, 1, 0, 1, 0, [⟨0, 31, .rc, 0, 0, 4294967295⟩]⟩,
  ⟨"SFL_STALL", 0x110, 1, 0, 1, 0, [⟨0, 31, .rc, 0, 0, 4294967295⟩]⟩,
  ⟨"SFL_CFG", 0x114, 1, 0, 1, 0, [⟨0, 7, .st, 0, 0, 255⟩, ⟨8, 9, .st, 2, 0, 3⟩]⟩,
  ⟨"SFL_BASIS_STATE", 0x140, 8, 4, 1, 0, [⟨0, 0, .ro, 0, 0, 1⟩, ⟨4, 7, .ro, 0, 0, 15⟩, ⟨8, 13, .ro, 0, 0, 63⟩]⟩]

def regsSFL1 : List RegSpec := [
  ⟨"SFL_MOD_STATE", 0x180, 4, 4, 1, 0, [⟨0, 0, .ro, 0, 0, 1⟩, ⟨16, 28, .ro, 0, 0, 8191⟩]⟩,
  ⟨"SFL_VAULT_STATE", 0x1C0, 16, 4, 1, 0, [⟨0, 0, .ro, 0, 0, 1⟩, ⟨1, 2, .ro, 0, 0, 3⟩, ⟨4, 6, .ro, 0, 0, 7⟩, ⟨8, 10, .ro, 0, 0, 7⟩]⟩,
  ⟨"SFL_PF_CMD_LO", 0x200, 1, 0, 1, 0, [⟨6, 31, .rw, 0, 0, 67108863⟩]⟩,
  ⟨"SFL_PF_CMD_HI", 0x204, 1, 0, 1, 0, [⟨0, 15, .rw, 0, 0, 65535⟩, ⟨31, 31, .w1s, 0, 0, 1⟩]⟩,
  ⟨"SFL_PF_RESULT", 0x208, 1, 0, 1, 0, [⟨0, 3, .ro, 0, 0, 15⟩, ⟨4, 4, .ro, 0, 0, 1⟩]⟩]

/-- The block registers of the SFL page. -/
def regsSFL : List RegSpec := regsSFL0 ++ regsSFL1

def regsDMC0 : List RegSpec := [
  ⟨"DMC_CAPS_A", 0x8, 1, 0, 1, 0, [⟨0, 1, .ro, 0, 0, 3⟩, ⟨8, 8, .ro, 0, 0, 1⟩]⟩,
  ⟨"DMC_REF_CTRL", 0x100, 1, 0, 1, 0, [⟨0, 3, .rw, 8, 1, 8⟩, ⟨8, 15, .rw, 20, 0, 255⟩]⟩,
  ⟨"DMC_ACT_CTRL", 0x104, 1, 0, 1, 0, [⟨0, 15, .lk, 512, 1, 65535⟩, ⟨16, 16, .lk, 1, 0, 1⟩]⟩,
  ⟨"DMC_THROTTLE", 0x108, 1, 0, 1, 0, [⟨0, 7, .lk, 16, 0, 255⟩, ⟨8, 15, .lk, 1, 1, 255⟩, ⟨16, 23, .lk, 50, 1, 255⟩]⟩,
  ⟨"DMC_PD_CTRL", 0x10C, 1, 0, 1, 0, [⟨0, 15, .rw, 100, 0, 65535⟩]⟩,
  ⟨"DMC_SCHED", 0x110, 1, 0, 1, 0, [⟨0, 7, .rw, 8, 1, 255⟩, ⟨8, 15, .rw, 16, 1, 255⟩, ⟨16, 22, .rw, 48, 8, 64⟩, ⟨24, 30, .rw, 16, 0, 63⟩]⟩,
  ⟨"DMC_RETRAIN_CTRL", 0x114, 1, 0, 1, 0, [⟨0, 0, .lk, 1, 0, 1⟩, ⟨8, 9, .w1s, 0, 0, 3⟩]⟩,
  ⟨"DMC_SCRUB_CTRL", 0x118, 1, 0, 1, 0, [⟨0, 0, .rw, 1, 0, 1⟩, ⟨8, 15, .rw, 24, 1, 255⟩]⟩]

def regsDMC1 : List RegSpec := [
  ⟨"DMC_LAYOUT", 0x11C, 1, 0, 1, 0, [⟨0, 0, .st, 0, 0, 1⟩, ⟨16, 16, .ro, 0, 0, 1⟩]⟩,
  ⟨"DMC_SUB_STATUS", 0x140, 2, 32, 1, 0, [⟨0, 2, .ro, 0, 0, 7⟩, ⟨8, 12, .ro, 0, 0, 31⟩, ⟨16, 16, .ro, 0, 0, 1⟩, ⟨17, 17, .ro, 0, 0, 1⟩, ⟨18, 19, .ro, 0, 0, 3⟩]⟩,
  ⟨"DMC_SUB_ECC", 0x144, 2, 32, 1, 0, [⟨0, 15, .rc, 0, 0, 65535⟩, ⟨16, 31, .rc, 0, 0, 65535⟩]⟩,
  ⟨"DMC_SUB_REPLAY", 0x148, 2, 32, 1, 0, [⟨0, 15, .rc, 0, 0, 65535⟩, ⟨16, 31, .rc, 0, 0, 65535⟩]⟩,
  ⟨"DMC_SUB_MITIG", 0x14C, 2, 32, 1, 0, [⟨0, 31, .rc, 0, 0, 4294967295⟩]⟩,
  ⟨"DMC_SUB_TRAIN", 0x150, 2, 32, 1, 0, [⟨0, 3, .ro, 0, 0, 15⟩, ⟨4, 5, .ro, 0, 0, 3⟩, ⟨8, 15, .ro, 0, 0, 255⟩, ⟨16, 23, .ro, 0, 0, 255⟩, ⟨24, 31, .ro, 0, 0, 255⟩]⟩,
  ⟨"DMC_SUB_THROTTLE", 0x154, 2, 32, 1, 0, [⟨0, 5, .ro, 0, 0, 63⟩, ⟨16, 31, .rc, 0, 0, 65535⟩]⟩,
  ⟨"DMC_SUB_REFBURST", 0x158, 2, 32, 1, 0, [⟨0, 15, .rc, 0, 0, 65535⟩, ⟨16, 31, .rc, 0, 0, 65535⟩]⟩]

/-- The block registers of the DMC page. -/
def regsDMC : List RegSpec := regsDMC0 ++ regsDMC1

def regsCSI0 : List RegSpec := [
  ⟨"CSI_PHY_STATUS", 0x100, 1, 0, 1, 0, [⟨0, 2, .ro, 0, 0, 7⟩, ⟨3, 15, .ro, 0, 0, 8191⟩, ⟨16, 16, .ro, 0, 0, 1⟩, ⟨17, 20, .ro, 0, 0, 15⟩]⟩,
  ⟨"CSI_ERRORS", 0x104, 1, 0, 1, 0, [⟨0, 7, .rc, 0, 0, 255⟩, ⟨8, 15, .rc, 0, 0, 255⟩, ⟨16, 23, .rc, 0, 0, 255⟩, ⟨24, 31, .rc, 0, 0, 255⟩]⟩,
  ⟨"CSI_IGNORED", 0x108, 1, 0, 1, 0, [⟨0, 15, .rc, 0, 0, 65535⟩, ⟨16, 31, .rc, 0, 0, 65535⟩]⟩,
  ⟨"CSI_VC_CFG", 0x200, 16, 16, 1, 0, [⟨0, 5, .roBoot, 0, 0, 63⟩, ⟨6, 6, .roBoot, 0, 0, 1⟩, ⟨8, 15, .roBoot, 0, 0, 255⟩, ⟨16, 17, .roBoot, 0, 0, 3⟩]⟩,
  ⟨"CSI_VC_DIM", 0x204, 16, 16, 1, 0, [⟨0, 15, .roBoot, 0, 0, 65535⟩, ⟨16, 31, .roBoot, 0, 0, 65535⟩]⟩,
  ⟨"CSI_VC_RQ", 0x208, 16, 16, 1, 0, [⟨0, 15, .roBoot, 0, 0, 65535⟩, ⟨16, 31, .roBoot, 0, 0, 65535⟩]⟩,
  ⟨"CSI_VC_CTRL", 0x20C, 16, 16, 1, 0, [⟨0, 0, .st, 0, 0, 1⟩]⟩,
  ⟨"CSI_VC_FRAMES", 0x400, 16, 8, 1, 0, [⟨0, 31, .rc, 0, 0, 4294967295⟩]⟩]

def regsCSI1 : List RegSpec := [
  ⟨"CSI_VC_DROPS", 0x404, 16, 8, 1, 0, [⟨0, 15, .rc, 0, 0, 65535⟩, ⟨16, 31, .rc, 0, 0, 65535⟩]⟩]

/-- The block registers of the CSI page. -/
def regsCSI : List RegSpec := regsCSI0 ++ regsCSI1

def regsETH0 : List RegSpec := [
  ⟨"ETH_MAC_ADDR_LO", 0x100, 1, 0, 1, 0, [⟨0, 31, .lk, 0, 0, 4294967295⟩]⟩,
  ⟨"ETH_MAC_ADDR_HI", 0x104, 1, 0, 1, 0, [⟨0, 15, .lk, 0, 0, 65535⟩]⟩,
  ⟨"ETH_LINK_STATUS", 0x108, 1, 0, 1, 0, [⟨0, 0, .ro, 0, 0, 1⟩]⟩,
  ⟨"ETH_RX_DROPS", 0x10C, 1, 0, 1, 0, [⟨0, 15, .rc, 0, 0, 65535⟩, ⟨16, 31, .rc, 0, 0, 65535⟩]⟩,
  ⟨"ETH_AVTP_ERRS", 0x110, 1, 0, 1, 0, [⟨0, 15, .rc, 0, 0, 65535⟩, ⟨16, 31, .rc, 0, 0, 65535⟩]⟩,
  ⟨"ETH_PTP_RX_STATUS", 0x140, 1, 0, 1, 0, [⟨0, 3, .ro, 0, 0, 15⟩, ⟨8, 15, .ro, 0, 0, 255⟩]⟩,
  ⟨"ETH_PTP_RX_TS_LO", 0x144, 1, 0, 1, 0, [⟨0, 31, .ro, 0, 0, 4294967295⟩]⟩,
  ⟨"ETH_PTP_RX_TS_HI", 0x148, 1, 0, 1, 0, [⟨0, 31, .ro, 0, 0, 4294967295⟩]⟩]

def regsETH1 : List RegSpec := [
  ⟨"ETH_PTP_RX_POP", 0x14C, 1, 0, 1, 0, [⟨0, 0, .wo, 0, 0, 1⟩]⟩,
  ⟨"ETH_PTP_TX_CTRL", 0x150, 1, 0, 1, 0, [⟨0, 7, .rw, 0, 14, 128⟩, ⟨30, 30, .ro, 0, 0, 1⟩, ⟨31, 31, .w1s, 0, 0, 1⟩]⟩,
  ⟨"ETH_PTP_TX_TS_LO", 0x154, 1, 0, 1, 0, [⟨0, 31, .ro, 0, 0, 4294967295⟩]⟩,
  ⟨"ETH_PTP_TX_TS_HI", 0x158, 1, 0, 1, 0, [⟨0, 31, .ro, 0, 0, 4294967295⟩]⟩,
  ⟨"ETH_PTP_RX_DATA", 0x180, 32, 4, 1, 0, [⟨0, 31, .ro, 0, 0, 4294967295⟩]⟩,
  ⟨"ETH_PTP_TX_DATA", 0x200, 32, 4, 1, 0, [⟨0, 31, .rw, 0, 0, 4294967295⟩]⟩,
  ⟨"ETH_STR_ID_LO", 0x400, 36, 32, 1, 0, [⟨0, 31, .roBoot, 0, 0, 4294967295⟩]⟩,
  ⟨"ETH_STR_ID_HI", 0x404, 36, 32, 1, 0, [⟨0, 31, .roBoot, 0, 0, 4294967295⟩]⟩]

def regsETH2 : List RegSpec := [
  ⟨"ETH_STR_CFG", 0x408, 36, 32, 1, 0, [⟨0, 5, .roBoot, 0, 0, 63⟩, ⟨6, 7, .roBoot, 0, 0, 3⟩, ⟨8, 8, .roBoot, 0, 0, 1⟩, ⟨9, 12, .roBoot, 0, 0, 15⟩, ⟨13, 14, .roBoot, 0, 0, 3⟩, ⟨16, 28, .roBoot, 0, 0, 8191⟩]⟩,
  ⟨"ETH_STR_DIM", 0x40C, 36, 32, 1, 0, [⟨0, 15, .roBoot, 0, 0, 65535⟩, ⟨16, 31, .roBoot, 0, 0, 65535⟩]⟩,
  ⟨"ETH_STR_RQ", 0x410, 36, 32, 1, 0, [⟨0, 15, .roBoot, 0, 0, 65535⟩, ⟨16, 31, .roBoot, 0, 0, 65535⟩]⟩,
  ⟨"ETH_STR_CTRL", 0x414, 36, 32, 1, 0, [⟨0, 0, .st, 0, 0, 1⟩]⟩,
  ⟨"ETH_STR_FRAMES", 0x418, 36, 32, 1, 0, [⟨0, 31, .rc, 0, 0, 4294967295⟩]⟩,
  ⟨"ETH_STR_DROPS", 0x41C, 36, 32, 1, 0, [⟨0, 15, .rc, 0, 0, 65535⟩, ⟨16, 31, .rc, 0, 0, 65535⟩]⟩]

/-- The block registers of the ETH page. -/
def regsETH : List RegSpec := regsETH0 ++ regsETH1 ++ regsETH2

def regsESL0 : List RegSpec := [
  ⟨"ESL_BATCHES", 0x100, 1, 0, 1, 0, [⟨0, 31, .rc, 0, 0, 4294967295⟩]⟩,
  ⟨"ESL_PADDED", 0x104, 1, 0, 1, 0, [⟨0, 31, .rc, 0, 0, 4294967295⟩]⟩,
  ⟨"ESL_REFUSED", 0x108, 1, 0, 1, 0, [⟨0, 15, .rc, 0, 0, 65535⟩, ⟨16, 31, .rc, 0, 0, 65535⟩]⟩,
  ⟨"ESL_EMPTY", 0x10C, 1, 0, 1, 0, [⟨0, 31, .rc, 0, 0, 4294967295⟩]⟩,
  ⟨"ESL_AUDIO_BASE_LO", 0x110, 1, 0, 1, 0, [⟨6, 31, .st, 0, 0, 67108863⟩]⟩,
  ⟨"ESL_AUDIO_BASE_HI", 0x114, 1, 0, 1, 0, [⟨0, 15, .st, 0, 0, 65535⟩]⟩,
  ⟨"ESL_AUDIO_CFG", 0x118, 1, 0, 1, 0, [⟨0, 5, .st, 0, 0, 63⟩, ⟨6, 6, .st, 0, 0, 1⟩, ⟨8, 15, .st, 1, 1, 255⟩, ⟨16, 23, .st, 1, 1, 255⟩, ⟨24, 31, .st, 2, 2, 255⟩]⟩,
  ⟨"ESL_AUDIO_BLOCK", 0x11C, 1, 0, 1, 0, [⟨0, 15, .ro, 0, 0, 65535⟩]⟩]

def regsESL1 : List RegSpec := [
  ⟨"ESL_AUDIO_POS", 0x120, 1, 0, 1, 0, [⟨0, 31, .ro, 0, 0, 4294967295⟩]⟩,
  ⟨"ESL_GRP_CFG", 0x400, 64, 16, 1, 0, [⟨0, 1, .st, 0, 0, 2⟩, ⟨2, 2, .roBoot, 0, 0, 1⟩, ⟨3, 3, .roBoot, 0, 0, 1⟩, ⟨4, 6, .roBoot, 0, 0, 7⟩, ⟨8, 9, .roBoot, 0, 0, 3⟩, ⟨10, 10, .roBoot, 0, 0, 1⟩, ⟨11, 11, .st, 0, 0, 1⟩, ⟨12, 20, .st, 0, 1, 511⟩]⟩,
  ⟨"ESL_GRP_QUEUE", 0x404, 64, 16, 1, 0, [⟨0, 15, .roBoot, 0, 0, 65535⟩, ⟨16, 31, .st, 100, 1, 65535⟩]⟩,
  ⟨"ESL_GRP_SEQ", 0x408, 64, 16, 1, 0, [⟨0, 31, .ro, 0, 0, 4294967295⟩]⟩,
  ⟨"ESL_GRP_STATUS", 0x40C, 64, 16, 1, 0, [⟨0, 0, .ro, 0, 0, 1⟩, ⟨8, 12, .ro, 0, 0, 31⟩, ⟨16, 20, .ro, 0, 0, 31⟩]⟩]

/-- The block registers of the ESL page. -/
def regsESL : List RegSpec := regsESL0 ++ regsESL1

def regsDEV0 : List RegSpec := [
  ⟨"DEV_CAPS_A", 0x8, 1, 0, 1, 0, [⟨0, 2, .ro, 7, 0, 7⟩, ⟨8, 11, .ro, 6, 0, 15⟩]⟩,
  ⟨"DEV_ENG_STATUS", 0x100, 1, 0, 1, 0, [⟨0, 0, .ro, 0, 0, 1⟩, ⟨8, 13, .ro, 0, 0, 63⟩]⟩,
  ⟨"DEV_ENG_FRAMES", 0x104, 1, 0, 1, 0, [⟨0, 31, .rc, 0, 0, 4294967295⟩]⟩,
  ⟨"DEV_ENG_PIXELS", 0x108, 1, 0, 1, 0, [⟨0, 31, .rc, 0, 0, 4294967295⟩]⟩,
  ⟨"DEV_ENG_BUSY", 0x10C, 1, 0, 1, 0, [⟨0, 31, .rc, 0, 0, 4294967295⟩]⟩,
  ⟨"DEV_ENG_STALL", 0x110, 1, 0, 1, 0, [⟨0, 31, .rc, 0, 0, 4294967295⟩]⟩,
  ⟨"DEV_DMG_COUNT", 0x114, 1, 0, 1, 0, [⟨0, 31, .rc, 0, 0, 4294967295⟩]⟩,
  ⟨"DEV_DMG_LAST", 0x120, 4, 4, 1, 0, [⟨0, 31, .ro, 0, 0, 4294967295⟩]⟩]

def regsDEV1 : List RegSpec := [
  ⟨"DEV_SLOT_CFG", 0x400, 36, 16, 1, 0, [⟨0, 15, .roBoot, 0, 0, 65535⟩, ⟨16, 16, .roBoot, 0, 0, 1⟩, ⟨17, 18, .roBoot, 0, 0, 3⟩]⟩,
  ⟨"DEV_SLOT_STATE", 0x404, 36, 16, 1, 0, [⟨0, 1, .ro, 0, 0, 3⟩, ⟨2, 2, .ro, 0, 0, 1⟩, ⟨8, 12, .ro, 0, 0, 31⟩, ⟨16, 20, .ro, 0, 0, 31⟩]⟩,
  ⟨"DEV_SLOT_CTRL", 0x408, 36, 16, 1, 0, [⟨0, 0, .w1s, 0, 0, 1⟩]⟩,
  ⟨"DEV_SLOT_COUNT", 0x40C, 36, 16, 1, 0, [⟨0, 15, .rc, 0, 0, 65535⟩, ⟨16, 31, .rc, 0, 0, 65535⟩]⟩]

/-- The block registers of the DEV page. -/
def regsDEV : List RegSpec := regsDEV0 ++ regsDEV1

def regsENL0 : List RegSpec := [
  ⟨"ENL_ENG_STATUS", 0x100, 1, 0, 1, 0, [⟨0, 0, .ro, 0, 0, 1⟩, ⟨1, 2, .ro, 0, 0, 3⟩, ⟨8, 13, .ro, 0, 0, 63⟩, ⟨16, 21, .ro, 0, 0, 63⟩]⟩,
  ⟨"ENL_ENG_TILES", 0x104, 1, 0, 1, 0, [⟨0, 31, .rc, 0, 0, 4294967295⟩]⟩,
  ⟨"ENL_ENG_PREEMPT", 0x108, 1, 0, 1, 0, [⟨0, 31, .rc, 0, 0, 4294967295⟩]⟩,
  ⟨"ENL_ENG_BUSY", 0x10C, 1, 0, 1, 0, [⟨0, 31, .rc, 0, 0, 4294967295⟩]⟩,
  ⟨"ENL_ENG_STALL", 0x110, 1, 0, 1, 0, [⟨0, 31, .rc, 0, 0, 4294967295⟩]⟩,
  ⟨"ENL_SAT", 0x114, 1, 0, 1, 0, [⟨0, 31, .rc, 0, 0, 4294967295⟩]⟩,
  ⟨"ENL_SLOT_CFG", 0x400, 36, 16, 1, 0, [⟨0, 15, .roBoot, 0, 0, 65535⟩, ⟨16, 16, .roBoot, 0, 0, 1⟩, ⟨17, 17, .roBoot, 0, 0, 1⟩, ⟨18, 19, .roBoot, 0, 0, 3⟩, ⟨20, 22, .roBoot, 0, 0, 7⟩]⟩,
  ⟨"ENL_SLOT_LIST_LO", 0x404, 36, 16, 1, 0, [⟨12, 31, .st, 0, 0, 1048575⟩]⟩]

def regsENL1 : List RegSpec := [
  ⟨"ENL_SLOT_LIST_HI", 0x408, 36, 16, 1, 0, [⟨0, 15, .st, 0, 0, 65535⟩, ⟨16, 16, .st, 0, 0, 1⟩]⟩,
  ⟨"ENL_SLOT_CTRL", 0x40C, 36, 16, 1, 0, [⟨0, 0, .rw, 0, 0, 1⟩, ⟨1, 1, .ro, 0, 0, 1⟩]⟩,
  ⟨"ENL_SLOT_COUNT", 0x700, 36, 4, 1, 0, [⟨0, 11, .rc, 0, 0, 4095⟩, ⟨12, 21, .rc, 0, 0, 1023⟩, ⟨22, 31, .rc, 0, 0, 1023⟩]⟩]

/-- The block registers of the ENL page. -/
def regsENL : List RegSpec := regsENL0 ++ regsENL1

def regsASH0 : List RegSpec := [
  ⟨"ASH_CAPS_A", 0x8, 1, 0, 1, 0, [⟨0, 7, .ro, 128, 0, 255⟩, ⟨8, 17, .ro, 512, 0, 1023⟩, ⟨20, 23, .ro, 4, 0, 15⟩]⟩,
  ⟨"ASH_STATE", 0x100, 1, 0, 1, 0, [⟨0, 2, .ro, 0, 0, 7⟩, ⟨3, 3, .ro, 0, 0, 1⟩, ⟨4, 4, .ro, 0, 0, 1⟩, ⟨5, 5, .ro, 0, 0, 1⟩]⟩,
  ⟨"ASH_MODE", 0x104, 1, 0, 1, 0, [⟨0, 2, .roBoot, 0, 0, 7⟩, ⟨3, 3, .roBoot, 0, 0, 1⟩, ⟨4, 4, .roBoot, 0, 0, 1⟩, ⟨5, 5, .st, 0, 0, 1⟩]⟩,
  ⟨"ASH_WIDTH", 0x108, 1, 0, 1, 0, [⟨0, 7, .roBoot, 0, 0, 255⟩, ⟨8, 15, .roBoot, 0, 0, 255⟩, ⟨16, 23, .roBoot, 0, 0, 255⟩, ⟨24, 31, .roBoot, 0, 0, 255⟩]⟩,
  ⟨"ASH_CLASS", 0x10C, 1, 0, 1, 0, [⟨0, 2, .roBoot, 0, 0, 7⟩, ⟨3, 3, .ro, 0, 0, 1⟩, ⟨4, 4, .ro, 0, 0, 1⟩, ⟨5, 5, .ro, 0, 0, 1⟩]⟩,
  ⟨"ASH_PP", 0x110, 1, 0, 1, 0, [⟨0, 15, .lk, 512, 1, 65535⟩, ⟨16, 31, .rc, 0, 0, 65535⟩]⟩,
  ⟨"ASH_STALL_LIMIT", 0x114, 1, 0, 1, 0, [⟨0, 15, .rw, 100, 1, 65535⟩]⟩,
  ⟨"ASH_SRAMCFG", 0x118, 1, 0, 1, 0, [⟨0, 0, .rw, 1, 0, 1⟩, ⟨4, 11, .rw, 8, 2, 128⟩]⟩]

def regsASH1 : List RegSpec := [
  ⟨"ASH_EXC_INFO", 0x120, 1, 0, 1, 0, [⟨0, 7, .ro, 0, 0, 255⟩, ⟨8, 8, .ro, 0, 0, 1⟩, ⟨9, 11, .ro, 0, 0, 7⟩]⟩,
  ⟨"ASH_EXC_PC_LO", 0x124, 1, 0, 1, 0, [⟨0, 31, .ro, 0, 0, 4294967295⟩]⟩,
  ⟨"ASH_EXC_PC_HI", 0x128, 1, 0, 1, 0, [⟨0, 15, .ro, 0, 0, 65535⟩]⟩,
  ⟨"ASH_EXC_ADDR_LO", 0x12C, 1, 0, 1, 0, [⟨0, 31, .ro, 0, 0, 4294967295⟩]⟩,
  ⟨"ASH_EXC_ADDR_HI", 0x130, 1, 0, 1, 0, [⟨0, 15, .ro, 0, 0, 65535⟩]⟩,
  ⟨"ASH_BUNDLES", 0x140, 1, 0, 1, 0, [⟨0, 31, .rc, 0, 0, 4294967295⟩]⟩,
  ⟨"ASH_CYCLES", 0x144, 1, 0, 1, 0, [⟨0, 31, .rc, 0, 0, 4294967295⟩]⟩,
  ⟨"ASH_STALL", 0x180, 12, 4, 1, 0, [⟨0, 31, .rc, 0, 0, 4294967295⟩]⟩]

def regsASH2 : List RegSpec := [
  ⟨"ASH_PAIR_COUNT", 0x1C0, 1, 0, 1, 0, [⟨0, 15, .rc, 0, 0, 65535⟩, ⟨16, 31, .rc, 0, 0, 65535⟩]⟩,
  ⟨"ASH_PAIR_STATUS", 0x1C4, 1, 0, 1, 0, [⟨0, 0, .w1c, 0, 0, 1⟩, ⟨1, 1, .w1c, 0, 0, 1⟩]⟩,
  ⟨"ASH_ECC", 0x200, 5, 4, 1, 0, [⟨0, 15, .rc, 0, 0, 65535⟩, ⟨16, 31, .rc, 0, 0, 65535⟩]⟩,
  ⟨"ASH_COLMAP", 0x400, 4, 64, 16, 4, [⟨0, 31, .roBoot, 0, 0, 4294967295⟩]⟩]

/-- The block registers of the ASH page. -/
def regsASH : List RegSpec := regsASH0 ++ regsASH1 ++ regsASH2

/-! Address constants: the page-window offset of each register; a multi-instance page takes its instance first. -/
namespace R
abbrev SYS_CAP_CORE : Nat := 0x100
abbrev SYS_CAP_ARRAY : Nat := 0x104
abbrev SYS_CAP_SRAM : Nat := 0x108
abbrev SYS_CAP_MEDIA : Nat := 0x10C
abbrev SYS_CAP_MEM : Nat := 0x110
abbrev SYS_CAP_HOST : Nat := 0x114
abbrev SYS_CAP_OPT : Nat := 0x118
abbrev SYS_TWIN_SEL (i : Nat) : Nat := 0x180 + 8 * i
abbrev SYS_TWIN_BASE (i : Nat) : Nat := 0x184 + 8 * i
abbrev AON_ISL_CTRL (i : Nat) : Nat := 0x1100 + 4 * i
abbrev AON_ISL_STATUS (i : Nat) : Nat := 0x1200 + 4 * i
abbrev AON_XING_TIMEOUTS : Nat := 0x12A0
abbrev AON_REG_FAULTS : Nat := 0x12A4
abbrev MTR_SCRUB_CTRL : Nat := 0xB100
abbrev MTR_SCRUB_POS : Nat := 0xB104
abbrev MTR_CE_THRESH : Nat := 0xB108
abbrev MTR_ECC_COUNT (i : Nat) : Nat := 0xB110 + 4 * i
abbrev MTR_WRR : Nat := 0xB150
abbrev MTR_URGENT_PEAK : Nat := 0xB154
abbrev MTR_FLITS_URGENT : Nat := 0xB158
abbrev MTR_FLITS_NORMAL : Nat := 0xB15C
abbrev MTR_FLITS_BULK : Nat := 0xB160
abbrev BOOT_PHASE : Nat := 0x2100
abbrev BOOT_REASON : Nat := 0x2104
abbrev BOOT_SLOTS : Nat := 0x2108
abbrev BOOT_IMAGE_VER : Nat := 0x210C
abbrev BOOT_MANIFEST_VER : Nat := 0x2110
abbrev BOOT_RESET_CAUSE : Nat := 0x2114
abbrev BOOT_OTP_STATE : Nat := 0x2118
abbrev BOOT_ELAPSED : Nat := 0x211C
abbrev BOOT_MANIFEST_HASH (i : Nat) : Nat := 0x2120 + 4 * i
abbrev BOOT_CONFIRM : Nat := 0x2150
abbrev BOOT_RESET_REQ : Nat := 0x2154
abbrev BOOT_FLASH_ADDR : Nat := 0x2158
abbrev BOOT_FLASH_CTRL : Nat := 0x215C
abbrev BOOT_OTP_CMD : Nat := 0x2160
abbrev BOOT_FLASH_DATA (i : Nat) : Nat := 0x2200 + 4 * i
abbrev PCI_LINK_STATUS : Nat := 0xC100
abbrev PCI_LINK_CTRL : Nat := 0xC104
abbrev PCI_MASTER_CTRL : Nat := 0xC108
abbrev PCI_TAGS : Nat := 0xC10C
abbrev PCI_REFUSALS : Nat := 0xC110
abbrev PCI_HWIN_BASE_LO (i : Nat) : Nat := 0xC180 + 16 * i
abbrev PCI_HWIN_BASE_HI (i : Nat) : Nat := 0xC184 + 16 * i
abbrev PCI_HWIN_CFG (i : Nat) : Nat := 0xC188 + 16 * i
abbrev PCI_HWIN_CFG_HI (i : Nat) : Nat := 0xC18C + 16 * i
abbrev PCI_PWIN_BASE_LO (i : Nat) : Nat := 0xC400 + 16 * i
abbrev PCI_PWIN_BASE_HI (i : Nat) : Nat := 0xC404 + 16 * i
abbrev PCI_PWIN_LIMIT_LO (i : Nat) : Nat := 0xC408 + 16 * i
abbrev PCI_PWIN_LIMIT_HI (i : Nat) : Nat := 0xC40C + 16 * i
abbrev DMC_REF_CTRL (q : Nat) : Nat := 0x10100 + 0x1000 * q
abbrev DMC_ACT_CTRL (q : Nat) : Nat := 0x10104 + 0x1000 * q
abbrev DMC_THROTTLE (q : Nat) : Nat := 0x10108 + 0x1000 * q
abbrev DMC_PD_CTRL (q : Nat) : Nat := 0x1010C + 0x1000 * q
abbrev DMC_SCHED (q : Nat) : Nat := 0x10110 + 0x1000 * q
abbrev DMC_RETRAIN_CTRL (q : Nat) : Nat := 0x10114 + 0x1000 * q
abbrev DMC_SCRUB_CTRL (q : Nat) : Nat := 0x10118 + 0x1000 * q
abbrev DMC_LAYOUT (q : Nat) : Nat := 0x1011C + 0x1000 * q
abbrev DMC_SUB_STATUS (q i : Nat) : Nat := 0x10140 + 0x1000 * q + 32 * i
abbrev DMC_SUB_ECC (q i : Nat) : Nat := 0x10144 + 0x1000 * q + 32 * i
abbrev DMC_SUB_REPLAY (q i : Nat) : Nat := 0x10148 + 0x1000 * q + 32 * i
abbrev DMC_SUB_MITIG (q i : Nat) : Nat := 0x1014C + 0x1000 * q + 32 * i
abbrev DMC_SUB_TRAIN (q i : Nat) : Nat := 0x10150 + 0x1000 * q + 32 * i
abbrev DMC_SUB_THROTTLE (q i : Nat) : Nat := 0x10154 + 0x1000 * q + 32 * i
abbrev DMC_SUB_REFBURST (q i : Nat) : Nat := 0x10158 + 0x1000 * q + 32 * i
abbrev HOD_PUSHES : Nat := 0x9100
abbrev HOD_POPS : Nat := 0x9104
abbrev HOD_REFUSED : Nat := 0x9108
abbrev HOD_LAST_DETACHED : Nat := 0x910C
abbrev HOD_URGENT_PEAK : Nat := 0x9110
abbrev HOD_COPY_STATUS : Nat := 0x9114
abbrev QRY_POOL_BASE_LO (i : Nat) : Nat := 0xA100 + 16 * i
abbrev QRY_POOL_BASE_HI (i : Nat) : Nat := 0xA104 + 16 * i
abbrev QRY_POOL_CFG (i : Nat) : Nat := 0xA108 + 16 * i
abbrev QRY_POOL_STATUS (i : Nat) : Nat := 0xA10C + 16 * i
abbrev QRY_PF_ARG : Nat := 0xA180
abbrev QRY_PF_CMD : Nat := 0xA184
abbrev QRY_PF_RESULT : Nat := 0xA188
abbrev QRY_PF_ADDR_LO : Nat := 0xA18C
abbrev QRY_PF_ADDR_HI : Nat := 0xA190
abbrev QRY_INSPECT : Nat := 0xA1A0
abbrev QRY_INSPECT_DATA : Nat := 0xA1A4
abbrev QRY_ALLOCS : Nat := 0xA1B0
abbrev QRY_FREES : Nat := 0xA1B4
abbrev QRY_REFUSED : Nat := 0xA1B8
abbrev QRY_IDMAP (i : Nat) : Nat := 0xA1C0 + 4 * i
abbrev QRY_QUOTA (i j : Nat) : Nat := 0xA400 + 16 * i + 4 * j
abbrev QRY_USED (i j : Nat) : Nat := 0xA800 + 32 * i + 4 * j
abbrev CSI_PHY_STATUS (q : Nat) : Nat := 0x14100 + 0x1000 * q
abbrev CSI_ERRORS (q : Nat) : Nat := 0x14104 + 0x1000 * q
abbrev CSI_IGNORED (q : Nat) : Nat := 0x14108 + 0x1000 * q
abbrev CSI_VC_CFG (q i : Nat) : Nat := 0x14200 + 0x1000 * q + 16 * i
abbrev CSI_VC_DIM (q i : Nat) : Nat := 0x14204 + 0x1000 * q + 16 * i
abbrev CSI_VC_RQ (q i : Nat) : Nat := 0x14208 + 0x1000 * q + 16 * i
abbrev CSI_VC_CTRL (q i : Nat) : Nat := 0x1420C + 0x1000 * q + 16 * i
abbrev CSI_VC_FRAMES (q i : Nat) : Nat := 0x14400 + 0x1000 * q + 8 * i
abbrev CSI_VC_DROPS (q i : Nat) : Nat := 0x14404 + 0x1000 * q + 8 * i
abbrev ETH_MAC_ADDR_LO (q : Nat) : Nat := 0x1C100 + 0x1000 * q
abbrev ETH_MAC_ADDR_HI (q : Nat) : Nat := 0x1C104 + 0x1000 * q
abbrev ETH_LINK_STATUS (q : Nat) : Nat := 0x1C108 + 0x1000 * q
abbrev ETH_RX_DROPS (q : Nat) : Nat := 0x1C10C + 0x1000 * q
abbrev ETH_AVTP_ERRS (q : Nat) : Nat := 0x1C110 + 0x1000 * q
abbrev ETH_PTP_RX_STATUS (q : Nat) : Nat := 0x1C140 + 0x1000 * q
abbrev ETH_PTP_RX_TS_LO (q : Nat) : Nat := 0x1C144 + 0x1000 * q
abbrev ETH_PTP_RX_TS_HI (q : Nat) : Nat := 0x1C148 + 0x1000 * q
abbrev ETH_PTP_RX_POP (q : Nat) : Nat := 0x1C14C + 0x1000 * q
abbrev ETH_PTP_TX_CTRL (q : Nat) : Nat := 0x1C150 + 0x1000 * q
abbrev ETH_PTP_TX_TS_LO (q : Nat) : Nat := 0x1C154 + 0x1000 * q
abbrev ETH_PTP_TX_TS_HI (q : Nat) : Nat := 0x1C158 + 0x1000 * q
abbrev ETH_PTP_RX_DATA (q i : Nat) : Nat := 0x1C180 + 0x1000 * q + 4 * i
abbrev ETH_PTP_TX_DATA (q i : Nat) : Nat := 0x1C200 + 0x1000 * q + 4 * i
abbrev ETH_STR_ID_LO (q i : Nat) : Nat := 0x1C400 + 0x1000 * q + 32 * i
abbrev ETH_STR_ID_HI (q i : Nat) : Nat := 0x1C404 + 0x1000 * q + 32 * i
abbrev ETH_STR_CFG (q i : Nat) : Nat := 0x1C408 + 0x1000 * q + 32 * i
abbrev ETH_STR_DIM (q i : Nat) : Nat := 0x1C40C + 0x1000 * q + 32 * i
abbrev ETH_STR_RQ (q i : Nat) : Nat := 0x1C410 + 0x1000 * q + 32 * i
abbrev ETH_STR_CTRL (q i : Nat) : Nat := 0x1C414 + 0x1000 * q + 32 * i
abbrev ETH_STR_FRAMES (q i : Nat) : Nat := 0x1C418 + 0x1000 * q + 32 * i
abbrev ETH_STR_DROPS (q i : Nat) : Nat := 0x1C41C + 0x1000 * q + 32 * i
abbrev DEV_ENG_STATUS (q : Nat) : Nat := 0x20100 + 0x1000 * q
abbrev DEV_ENG_FRAMES (q : Nat) : Nat := 0x20104 + 0x1000 * q
abbrev DEV_ENG_PIXELS (q : Nat) : Nat := 0x20108 + 0x1000 * q
abbrev DEV_ENG_BUSY (q : Nat) : Nat := 0x2010C + 0x1000 * q
abbrev DEV_ENG_STALL (q : Nat) : Nat := 0x20110 + 0x1000 * q
abbrev DEV_DMG_COUNT (q : Nat) : Nat := 0x20114 + 0x1000 * q
abbrev DEV_DMG_LAST (q i : Nat) : Nat := 0x20120 + 0x1000 * q + 4 * i
abbrev DEV_SLOT_CFG (q i : Nat) : Nat := 0x20400 + 0x1000 * q + 16 * i
abbrev DEV_SLOT_STATE (q i : Nat) : Nat := 0x20404 + 0x1000 * q + 16 * i
abbrev DEV_SLOT_CTRL (q i : Nat) : Nat := 0x20408 + 0x1000 * q + 16 * i
abbrev DEV_SLOT_COUNT (q i : Nat) : Nat := 0x2040C + 0x1000 * q + 16 * i
abbrev ENL_ENG_STATUS (q : Nat) : Nat := 0x28100 + 0x1000 * q
abbrev ENL_ENG_TILES (q : Nat) : Nat := 0x28104 + 0x1000 * q
abbrev ENL_ENG_PREEMPT (q : Nat) : Nat := 0x28108 + 0x1000 * q
abbrev ENL_ENG_BUSY (q : Nat) : Nat := 0x2810C + 0x1000 * q
abbrev ENL_ENG_STALL (q : Nat) : Nat := 0x28110 + 0x1000 * q
abbrev ENL_SAT (q : Nat) : Nat := 0x28114 + 0x1000 * q
abbrev ENL_SLOT_CFG (q i : Nat) : Nat := 0x28400 + 0x1000 * q + 16 * i
abbrev ENL_SLOT_LIST_LO (q i : Nat) : Nat := 0x28404 + 0x1000 * q + 16 * i
abbrev ENL_SLOT_LIST_HI (q i : Nat) : Nat := 0x28408 + 0x1000 * q + 16 * i
abbrev ENL_SLOT_CTRL (q i : Nat) : Nat := 0x2840C + 0x1000 * q + 16 * i
abbrev ENL_SLOT_COUNT (q i : Nat) : Nat := 0x28700 + 0x1000 * q + 4 * i
abbrev ESL_BATCHES : Nat := 0x1E100
abbrev ESL_PADDED : Nat := 0x1E104
abbrev ESL_REFUSED : Nat := 0x1E108
abbrev ESL_EMPTY : Nat := 0x1E10C
abbrev ESL_AUDIO_BASE_LO : Nat := 0x1E110
abbrev ESL_AUDIO_BASE_HI : Nat := 0x1E114
abbrev ESL_AUDIO_CFG : Nat := 0x1E118
abbrev ESL_AUDIO_BLOCK : Nat := 0x1E11C
abbrev ESL_AUDIO_POS : Nat := 0x1E120
abbrev ESL_GRP_CFG (i : Nat) : Nat := 0x1E400 + 16 * i
abbrev ESL_GRP_QUEUE (i : Nat) : Nat := 0x1E404 + 16 * i
abbrev ESL_GRP_SEQ (i : Nat) : Nat := 0x1E408 + 16 * i
abbrev ESL_GRP_STATUS (i : Nat) : Nat := 0x1E40C + 16 * i
abbrev ASH_STATE (q : Nat) : Nat := 0x30100 + 0x1000 * q
abbrev ASH_MODE (q : Nat) : Nat := 0x30104 + 0x1000 * q
abbrev ASH_WIDTH (q : Nat) : Nat := 0x30108 + 0x1000 * q
abbrev ASH_CLASS (q : Nat) : Nat := 0x3010C + 0x1000 * q
abbrev ASH_PP (q : Nat) : Nat := 0x30110 + 0x1000 * q
abbrev ASH_STALL_LIMIT (q : Nat) : Nat := 0x30114 + 0x1000 * q
abbrev ASH_SRAMCFG (q : Nat) : Nat := 0x30118 + 0x1000 * q
abbrev ASH_EXC_INFO (q : Nat) : Nat := 0x30120 + 0x1000 * q
abbrev ASH_EXC_PC_LO (q : Nat) : Nat := 0x30124 + 0x1000 * q
abbrev ASH_EXC_PC_HI (q : Nat) : Nat := 0x30128 + 0x1000 * q
abbrev ASH_EXC_ADDR_LO (q : Nat) : Nat := 0x3012C + 0x1000 * q
abbrev ASH_EXC_ADDR_HI (q : Nat) : Nat := 0x30130 + 0x1000 * q
abbrev ASH_BUNDLES (q : Nat) : Nat := 0x30140 + 0x1000 * q
abbrev ASH_CYCLES (q : Nat) : Nat := 0x30144 + 0x1000 * q
abbrev ASH_STALL (q i : Nat) : Nat := 0x30180 + 0x1000 * q + 4 * i
abbrev ASH_PAIR_COUNT (q : Nat) : Nat := 0x301C0 + 0x1000 * q
abbrev ASH_PAIR_STATUS (q : Nat) : Nat := 0x301C4 + 0x1000 * q
abbrev ASH_ECC (q i : Nat) : Nat := 0x30200 + 0x1000 * q + 4 * i
abbrev ASH_COLMAP (q i j : Nat) : Nat := 0x30400 + 0x1000 * q + 64 * i + 4 * j
abbrev DPT_PART_CFG (i : Nat) : Nat := 0x7100 + 16 * i
abbrev DPT_PART_CTRL (i : Nat) : Nat := 0x7104 + 16 * i
abbrev DPT_PART_STATUS (i : Nat) : Nat := 0x7108 + 16 * i
abbrev DPT_PART_JOBS (i : Nat) : Nat := 0x710C + 16 * i
abbrev DPT_MISMATCH_LIMIT : Nat := 0x7180
abbrev DPT_URGENT_PEAK : Nat := 0x7184
abbrev DPT_LOAD_STATUS : Nat := 0x7188
abbrev DPT_WINDOW : Nat := 0x718C
abbrev SBT_ACTIVE : Nat := 0x8100
abbrev SBT_MISSES : Nat := 0x8104
abbrev SBT_SENTINEL_MISSES : Nat := 0x8108
abbrev SBT_LAST_MISS : Nat := 0x810C
abbrev SBT_LOST : Nat := 0x8110
abbrev PLB_CTRL : Nat := 0x6100
abbrev PLB_STATUS : Nat := 0x6104
abbrev PLB_PLAN : Nat := 0x6108
abbrev PLB_FAILS : Nat := 0x610C
abbrev PLB_T_COOL : Nat := 0x6110
abbrev PLB_SENT : Nat := 0x6114
abbrev PLB_CAP : Nat := 0x6118
abbrev PLB_TLIMIT : Nat := 0x611C
abbrev PLB_HOT : Nat := 0x6120
abbrev PLB_SENSOR_FAIL : Nat := 0x6124
abbrev PLB_RES_OVER : Nat := 0x6128
abbrev PLB_PERIOD : Nat := 0x612C
abbrev PLB_TEMP (i : Nat) : Nat := 0x6180 + 4 * i
abbrev PLB_ISL_ENERGY_LO (i : Nat) : Nat := 0x6200 + 8 * i
abbrev PLB_ISL_ENERGY_HI (i : Nat) : Nat := 0x6204 + 8 * i
abbrev PLB_GRP_POINT (i : Nat) : Nat := 0x6400 + 16 * i
abbrev PLB_GRP_ALLOW (i : Nat) : Nat := 0x6404 + 16 * i
abbrev PLB_GRP_LEFT (i : Nat) : Nat := 0x6408 + 16 * i
abbrev PLB_PT_FULL (i j : Nat) : Nat := 0x6500 + 32 * i + 4 * j
abbrev PLB_PT_IDLE (i j : Nat) : Nat := 0x6680 + 32 * i + 4 * j
abbrev PLB_PART_ALLOW (i : Nat) : Nat := 0x6800 + 16 * i
abbrev PLB_PART_LEFT (i : Nat) : Nat := 0x6804 + 16 * i
abbrev PLB_PART_RESERVE (i : Nat) : Nat := 0x6808 + 16 * i
abbrev PLB_PART_RES_LEFT (i : Nat) : Nat := 0x680C + 16 * i
abbrev PLB_SPENT (i : Nat) : Nat := 0x6880 + 4 * i
abbrev KEY_STATE : Nat := 0xE100
abbrev KEY_CMDS : Nat := 0xE104
abbrev KEY_ITERS : Nat := 0xE108
abbrev KEY_BUSY : Nat := 0xE10C
abbrev KEY_STALL : Nat := 0xE110
abbrev KEY_CTX_CFG (i : Nat) : Nat := 0xE140 + 16 * i
abbrev KEY_CTX_STATE (i : Nat) : Nat := 0xE144 + 16 * i
abbrev KEY_CTX_LAST (i : Nat) : Nat := 0xE148 + 16 * i
abbrev KEY_PF_CMD_LO (i : Nat) : Nat := 0xE200 + 8 * i
abbrev KEY_PF_CMD_HI (i : Nat) : Nat := 0xE204 + 8 * i
abbrev SFL_STATE : Nat := 0xF100
abbrev SFL_CMDS : Nat := 0xF104
abbrev SFL_OPS : Nat := 0xF108
abbrev SFL_BUSY : Nat := 0xF10C
abbrev SFL_STALL : Nat := 0xF110
abbrev SFL_CFG : Nat := 0xF114
abbrev SFL_BASIS_STATE (i : Nat) : Nat := 0xF140 + 4 * i
abbrev SFL_MOD_STATE (i : Nat) : Nat := 0xF180 + 4 * i
abbrev SFL_VAULT_STATE (i : Nat) : Nat := 0xF1C0 + 4 * i
abbrev SFL_PF_CMD_LO : Nat := 0xF200
abbrev SFL_PF_CMD_HI : Nat := 0xF204
abbrev SFL_PF_RESULT : Nat := 0xF208
abbrev AUD_MIC_CFG : Nat := 0xD100
abbrev AUD_MIC_STATUS : Nat := 0xD104
abbrev AUD_MIC_SAT : Nat := 0xD108
abbrev AUD_BLOCK : Nat := 0xD10C
abbrev AUD_TDM_IN_STATUS : Nat := 0xD110
abbrev AUD_OUT_CLIP : Nat := 0xD114
abbrev AUD_SRC_CFG (i : Nat) : Nat := 0xD140 + 4 * i
abbrev AUD_DUCK (i : Nat) : Nat := 0xD180 + 4 * i
abbrev AUD_DUCK_TIME : Nat := 0xD1A0
abbrev AUD_ALERT_CFG : Nat := 0xD1C0
abbrev AUD_ALERT_GAIN : Nat := 0xD1C4
abbrev AUD_ALERT_STATE : Nat := 0xD1C8
abbrev AUD_ALERT_CAP : Nat := 0xD1CC
abbrev AUD_ALERTS : Nat := 0xD1D0
abbrev AUD_ALERT_IGNORED : Nat := 0xD1D4
abbrev AUD_AMP_DIAG (i : Nat) : Nat := 0xD200 + 8 * i
abbrev AUD_AMP_CTRL (i : Nat) : Nat := 0xD204 + 8 * i
abbrev SEAM_MASK_LO : Nat := 0x4100
abbrev SEAM_MASK_HI : Nat := 0x4104
abbrev SEAM_CMD : Nat := 0x4108
abbrev SEAM_STATE : Nat := 0x410C
abbrev SEAM_LAST : Nat := 0x4110
abbrev SEAM_EPOCH_NOW : Nat := 0x4114
abbrev SEAM_CANNOT_LO : Nat := 0x4118
abbrev SEAM_CANNOT_HI : Nat := 0x411C
abbrev SEAM_WAIT_LO : Nat := 0x4120
abbrev SEAM_WAIT_HI : Nat := 0x4124
abbrev SEAM_TIMEOUT : Nat := 0x4128
abbrev SEAM_ELAPSED : Nat := 0x412C
abbrev SEAM_COUNT : Nat := 0x4130
abbrev SEAM_REASON : Nat := 0x4134
abbrev CSH_CTRL : Nat := 0x5100
abbrev CSH_SEQ : Nat := 0x5104
abbrev CSH_LOST : Nat := 0x5108
abbrev CSH_FIFO : Nat := 0x510C
abbrev CSH_EXT_BASE_LO : Nat := 0x5110
abbrev CSH_EXT_BASE_HI : Nat := 0x5114
abbrev CSH_EXT_SIZE : Nat := 0x5118
abbrev CSH_EXT_SEQ : Nat := 0x511C
abbrev CSH_EXT_SKIPPED : Nat := 0x5120
abbrev CSH_SW_CODE : Nat := 0x5124
abbrev CSH_SW_PARAM (i : Nat) : Nat := 0x5128 + 4 * i
abbrev CSH_TRIG (i : Nat) : Nat := 0x5200 + 4 * i
abbrev CSH_SNAP_SEL (i j : Nat) : Nat := 0x5400 + 32 * i + 4 * j
abbrev FLT_SAFE_STATUS : Nat := 0x3100
abbrev FLT_SAFE_SEEN : Nat := 0x3104
abbrev FLT_LAST : Nat := 0x3108
abbrev FLT_LAST_TIME_LO : Nat := 0x310C
abbrev FLT_LAST_TIME_HI : Nat := 0x3110
abbrev FLT_COUNT_MINOR : Nat := 0x3114
abbrev FLT_COUNT_MAJOR : Nat := 0x3118
abbrev FLT_COUNT_SAFETY : Nat := 0x311C
abbrev FLT_EVT_COUNT : Nat := 0x3120
abbrev FLT_SENT_CFG : Nat := 0x3124
abbrev FLT_SENT_STATUS : Nat := 0x3128
abbrev FLT_CTRL : Nat := 0x312C
abbrev FLT_INJ_ALLOW : Nat := 0x3130
abbrev FLT_INJ_CTRL : Nat := 0x3134
abbrev FLT_INJ_ARG : Nat := 0x3138
abbrev FLT_INJ_STATUS : Nat := 0x313C
abbrev FLT_BLOCK_COUNT (i : Nat) : Nat := 0x3140 + 4 * i
abbrev FLT_SEV (i j : Nat) : Nat := 0x3400 + 64 * i + 4 * j
abbrev DMC_CAPS_A (q : Nat) : Nat := 0x10008 + 0x1000 * q
abbrev HOD_CAPS_A : Nat := 0x9008
abbrev QRY_CAPS_A : Nat := 0xA008
abbrev DEV_CAPS_A (q : Nat) : Nat := 0x20008 + 0x1000 * q
abbrev ASH_CAPS_A (q : Nat) : Nat := 0x30008 + 0x1000 * q
abbrev DPT_CAPS_A : Nat := 0x7008
abbrev KEY_CAPS_A : Nat := 0xE008
abbrev SFL_CAPS_A : Nat := 0xF008
abbrev AUD_CAPS_A : Nat := 0xD008
abbrev AON_TB_NOW_LO : Nat := 0x1300
abbrev AON_TB_NOW_HI : Nat := 0x1304
abbrev AON_TB_RATE : Nat := 0x1308
abbrev AON_TB_SLEW : Nat := 0x130C
abbrev AON_TB_STEP_LO : Nat := 0x1310
abbrev AON_TB_STEP_HI : Nat := 0x1314
abbrev AON_TB_STATUS : Nat := 0x1318
abbrev AON_TB_SERVO : Nat := 0x131C
end R

end Sys2Proof.Machine
end

