-- ==== Sys2Proof/Machine/Ops.lean ====
section
/-!
DEFINITION. Machine/Ops.lean: the named operations over registers, events, faults and messages that every block shares
(spec/02, the MSI-X rules of spec/05, the record fields of spec/23).
-/
namespace Sys2Proof.Machine
open Sys2Proof

/-- The state that an operation with an answer leaves, where the answer is dropped. -/
def after {α : Type} (r : State × α) : State := r.1

/-! Pages (R47, R54, R790). -/

/-- The REQUESTER code of R43's register. -/
def reqCode : Req → Nat
  | .pf => 0x00
  | .vf v => v
  | .core n => 0x10 + n
  | .fyp => 0x20
  | .boot => 0x21
  | .hw => 0x30

/-- The kind and the instance of the page with index `ix` (R47); none where no page is populated. -/
def pageOf (ix : Nat) : Option (Page × Nat) :=
  match ix with
  | 0 => some (.sys, 0) | 1 => some (.aon, 0) | 2 => some (.boot, 0) | 3 => some (.flt, 0)
  | 4 => some (.seam, 0) | 5 => some (.csh, 0) | 6 => some (.plb, 0) | 7 => some (.dpt, 0)
  | 8 => some (.sbt, 0) | 9 => some (.hod, 0) | 10 => some (.qry, 0) | 11 => some (.mtr, 0)
  | 12 => some (.pci, 0) | 13 => some (.aud, 0) | 14 => some (.key, 0) | 15 => some (.sfl, 0)
  | 30 => some (.esl, 0)
  | n =>
    if n < 20 then some (.dmc, n - 16)
    else if n < 28 then some (.csi, n - 20)
    else if n < 30 then some (.eth, n - 28)
    else if n = 31 then none
    else if n < 38 then some (.dev, n - 32)
    else if n < 40 then none
    else if n < 44 then some (.enl, n - 40)
    else if n < 48 then none
    else if n < 56 then some (.ash, n - 48)
    else none

/-- Page indexes by block. -/
abbrev P.sys : Nat := 0
abbrev P.aon : Nat := 1
abbrev P.boot : Nat := 2
abbrev P.flt : Nat := 3
abbrev P.seam : Nat := 4
abbrev P.csh : Nat := 5
abbrev P.plb : Nat := 6
abbrev P.dpt : Nat := 7
abbrev P.sbt : Nat := 8
abbrev P.hod : Nat := 9
abbrev P.qry : Nat := 10
abbrev P.mtr : Nat := 11
abbrev P.pci : Nat := 12
abbrev P.aud : Nat := 13
abbrev P.key : Nat := 14
abbrev P.sfl : Nat := 15
abbrev P.dmc (c : Nat) : Nat := 16 + c
abbrev P.csi (p : Nat) : Nat := 20 + p
abbrev P.eth (m : Nat) : Nat := 28 + m
abbrev P.esl : Nat := 30
abbrev P.dev (e : Nat) : Nat := 32 + e
abbrev P.enl (e : Nat) : Nat := 40 + e
abbrev P.ash (n : Nat) : Nat := 48 + n

/-- The block type code of a kind of page (R47). -/
def blockType : Page → Nat
  | .sys => 0x01 | .aon => 0x02 | .boot => 0x03 | .flt => 0x04 | .seam => 0x05 | .csh => 0x06
  | .plb => 0x07 | .dpt => 0x08 | .sbt => 0x09 | .hod => 0x0A | .qry => 0x0B | .mtr => 0x0C
  | .pci => 0x0D | .aud => 0x0E | .key => 0x0F | .sfl => 0x10 | .dmc => 0x11 | .csi => 0x12
  | .eth => 0x13 | .esl => 0x14 | .dev => 0x15 | .enl => 0x16 | .ash => 0x17

/-- The block type code of the page with index `ix`; 0 where no page is populated. -/
def blockTypeAt (ix : Nat) : Nat := ((pageOf ix).map fun p => blockType p.1).getD 0

/-- The island that holds a page's block (R54). -/
def pageIsland (k : Page) (i : Nat) : Nat :=
  match k with
  | .sys | .aon | .boot | .flt | .seam | .csh | .plb => 0
  | .dpt | .sbt | .hod | .qry | .mtr => 2
  | .pci => 1
  | .aud => 38
  | .key => 30
  | .sfl => 31
  | .dmc => 32 + i
  | .csi => 36
  | .eth => 37
  | .esl => 29
  | .dev => 27
  | .enl => 28
  | .ash => 19 + i

/-- The island of the page with index `ix`. -/
def islandAt (ix : Nat) : Nat := ((pageOf ix).map fun p => pageIsland p.1 p.2).getD 0

/-- The block registers of a page (offsets 0x100 on, and CAPS_A where the block's chapter gives it). The slot registers
of DEV and ENL exist on instance 0 alone. -/
def blockRegs (k : Page) (i : Nat) : List RegSpec :=
  match k with
  | .sys => regsSYS | .aon => regsAON | .boot => regsBOOT | .flt => regsFLT | .seam => regsSEAM
  | .csh => regsCSH | .plb => regsPLB | .dpt => regsDPT | .sbt => regsSBT | .hod => regsHOD
  | .qry => regsQRY | .mtr => regsMTR | .pci => regsPCI | .aud => regsAUD | .key => regsKEY
  | .sfl => regsSFL | .dmc => regsDMC | .csi => regsCSI | .eth => regsETH | .esl => regsESL
  | .dev => if i = 0 then regsDEV else regsDEV.filter (·.off < 0x400)
  | .enl => if i = 0 then regsENL else regsENL.filter (·.off < 0x400)
  | .ash => regsASH

/-- The highest event bit a page uses; 2 where it uses the common bits alone (02, and the event tables of each chapter). -/
def evtTop : Page → Nat
  | .sys => 2 | .aon => 12 | .boot => 11 | .flt => 12 | .seam => 9 | .csh => 9 | .plb => 13 | .dpt => 13
  | .sbt => 11 | .hod => 11 | .qry => 11 | .mtr => 10 | .pci => 14 | .aud => 13 | .key => 9 | .sfl => 10
  | .dmc => 14 | .csi => 10 | .eth => 13 | .esl => 10 | .dev => 10 | .enl => 9 | .ash => 12

/-- The fields of the three event registers of a page: the common bits and the block's bits. -/
def evtFields (k : Page) (a : Access) (reset : Nat) : List FieldSpec :=
  ⟨0, 2, a, reset, 0, 7⟩ :: (if evtTop k ≥ 8 then [⟨8, evtTop k, a, 0, 0, 2 ^ (evtTop k - 7) - 1⟩] else [])

/-- The blocks whose CTRL.ENABLE resets to 1. -/
def enableReset : Page → Nat
  | .sys | .aon | .boot | .flt | .seam | .csh | .plb | .mtr | .pci => 1
  | _ => 0

/-- The common header of a page (02, The common header). -/
def headerRegs (k : Page) (i : Nat) : List RegSpec := [
  ⟨"ID", 0x000, 1, 4, 1, 0, [⟨0, 31, .ro, blockType k + i * 0x10000 + 0x60000000, 0, 0⟩]⟩,
  ⟨"VERSION", 0x004, 1, 4, 1, 0, [⟨0, 15, .ro, 0x0100, 0, 0⟩]⟩,
  ⟨"CTRL", 0x010, 1, 4, 1, 0, [⟨0, 0, .rw, enableReset k, 0, 1⟩, ⟨1, 1, .w1s, 0, 0, 1⟩, ⟨2, 2, .rw, 0, 0, 1⟩, ⟨3, 3, .rw, 0, 0, 1⟩]⟩,
  ⟨"STATUS", 0x014, 1, 4, 1, 0, [⟨0, 6, .ro, 1, 0, 0⟩]⟩,
  ⟨"SEAM_EPOCH", 0x018, 1, 4, 1, 0, [⟨0, 15, .ro, 0, 0, 0⟩]⟩,
  ⟨"LOCK", 0x01C, 1, 4, 1, 0, [⟨0, 0, .w1s, 0, 0, 1⟩]⟩,
  ⟨"EVT_STATUS", 0x020, 1, 4, 1, 0, evtFields k .w1c 0⟩,
  ⟨"EVT_ENABLE", 0x024, 1, 4, 1, 0, evtFields k .rw 1⟩,
  ⟨"EVT_FORCE", 0x028, 1, 4, 1, 0, evtFields k .wo 0⟩,
  ⟨"EVT_ROUTE", 0x02C, 1, 4, 1, 0, [⟨0, 10, .lk, 0, 0, 2047⟩, ⟨16, 16, .lk, 0, 0, 1⟩, ⟨17, 17, .lk, 1, 0, 1⟩, ⟨18, 18, .lk, 1, 0, 1⟩, ⟨19, 19, .lk, 1, 0, 1⟩]⟩,
  ⟨"FAULT_CODE", 0x030, 1, 4, 1, 0, [⟨0, 31, .ro, 0, 0, 0⟩]⟩,
  ⟨"FAULT_INFO", 0x034, 1, 4, 1, 0, [⟨0, 31, .ro, 0, 0, 0⟩]⟩,
  ⟨"FAULT_ADDR_LO", 0x038, 1, 4, 1, 0, [⟨0, 31, .ro, 0, 0, 0⟩]⟩,
  ⟨"FAULT_ADDR_HI", 0x03C, 1, 4, 1, 0, [⟨0, 15, .ro, 0, 0, 0⟩, ⟨31, 31, .ro, 0, 0, 0⟩]⟩,
  ⟨"ENERGY", 0x040, 1, 4, 1, 0, [⟨0, 31, .ro, 0, 0, 0⟩]⟩]

/-- Offset `o` within a page is one of the places of register `r`. -/
def regHit (r : RegSpec) (o : Nat) : Bool :=
  let d := o - r.off
  let m := d % r.s1
  decide (r.off ≤ o) && decide (d / r.s1 < r.n1) && decide (m % r.s2 = 0) && decide (m / r.s2 < r.n2)

/-- The register at page-window offset `off`. CAPS_A and CAPS_B read zero where the block's chapter gives neither. -/
def findReg (off : Nat) : Option RegSpec :=
  match pageOf (off / 0x1000) with
  | none => none
  | some (k, i) =>
    let o := off % 0x1000
    match (blockRegs k i).find? (regHit · o) with
    | some r => some r
    | none =>
      if o = 0x008 ∨ o = 0x00C then some ⟨"CAPS", o, 1, 4, 1, 0, [⟨0, 31, .ro, 0, 0, 0⟩]⟩
      else (headerRegs k i).find? (regHit · o)

/-- The mask of a field. -/
def FieldSpec.mask (f : FieldSpec) : Nat := (2 ^ (f.hi + 1 - f.lo) - 1) <<< f.lo

/-- The bits of a register that lie in fields whose access code satisfies `p`. -/
def maskWhere (r : RegSpec) (p : Access → Bool) : Nat :=
  r.fields.foldl (fun m f => if p f.acc then m ||| f.mask else m) 0

/-- The severities of R719's table: 0 INFO, 1 MINOR, 2 MAJOR, 3 SAFETY; every cause not listed is MINOR. -/
def sevReset (b c : Nat) : Nat :=
  let major : List (Nat × List Nat) := [
    (0x02, [1, 2, 3, 6]), (0x07, [5, 6, 7]), (0x08, [2]), (0x0A, [0x0C]), (0x0B, [5]), (0x0C, [1, 2]),
    (0x0E, [1, 2]), (0x0F, [4]), (0x10, [5]), (0x11, [1, 2, 3, 4, 5, 9]), (0x17, [1, 2, 3, 4, 5, 6, 7, 8, 9, 10, 11, 12, 13])]
  let safety : List (Nat × List Nat) := [
    (0x07, [3, 4]), (0x08, [1]), (0x09, [2]), (0x0A, [0x0D]), (0x0C, [6])]
  if safety.any (fun e => e.1 = b && e.2.contains c) then 3
  else if major.any (fun e => e.1 = b && e.2.contains c) then 2
  else 1

/-- The reset value of the register at page-window offset `off`. -/
def resetWord (off : Nat) : W32 :=
  match findReg off with
  | none => 0
  | some r =>
    if r.name = "AON_ISL_CTRL" then (if (off - R.AON_ISL_CTRL 0) / 4 ≤ 2 then 1 else 2)
    else if r.name = "FLT_SEV" then
      let b := (off - R.FLT_SEV 0 0) / 64 + 1
      let w := ((off - R.FLT_SEV 0 0) % 64) / 4
      BitVec.ofNat 32 ((List.range 16).foldl (fun v i => v + (sevReset b (16 * w + i)) <<< (2 * i)) 0)
    else if r.name = "ETH_MAC_ADDR_HI" then 0x200
    else BitVec.ofNat 32 (r.fields.foldl (fun v f => v ||| (f.reset <<< f.lo)) 0)

/-! Registers. -/

/-- The stored value of a register (the active copy of its ST fields). -/
def rd (s : State) (off : Nat) : W32 := s.regs.getD off (resetWord off)

/-- `s` with the register at `off` holding `v`. -/
def setReg (s : State) (off : Nat) (v : W32) : State :=
  { s with regs := s.regs.put off v (resetWord off) }

/-- Field [hi:lo] of a register. -/
def rf (s : State) (off hi lo : Nat) : Nat := bits (rd s off).toNat hi lo

/-- Bit `i` of a register. -/
def rb (s : State) (off i : Nat) : Bool := bit (rd s off).toNat i

/-- `s` with field [hi:lo] of a register set to `x`. -/
def wf (s : State) (off hi lo x : Nat) : State :=
  setReg s off (BitVec.ofNat 32 (putBits (rd s off).toNat hi lo x))

/-- `s` with bit `i` of a register set to `b`. -/
def wb (s : State) (off i : Nat) (b : Bool) : State := wf s off i i (b2n b)

/-- A count field that saturates, increased by `n`. -/
def bump (s : State) (off hi lo n : Nat) : State :=
  wf s off hi lo (satAdd (hi + 1 - lo) (rf s off hi lo) n)

/-- A peak field: the larger of what it holds and `x`, `x` held at the field's largest value. -/
def peak (s : State) (off hi lo x : Nat) : State :=
  wf s off hi lo (max (rf s off hi lo) (min x (2 ^ (hi + 1 - lo) - 1)))

/-- The staged copy of a register; equal to the active copy where none is kept apart (R24). -/
def stagedOf (s : State) (off : Nat) : W32 := (s.staged.get off).getD (rd s off)

/-- Field [hi:lo] of the staged copy. -/
def sf (s : State) (off hi lo : Nat) : Nat := bits (stagedOf s off).toNat hi lo

/-- Common header registers of page `pg`. -/
abbrev hdr (pg o : Nat) : Nat := pg * 0x1000 + o

/-! Time. -/

/-- Nanoseconds since power was applied: an AON cycle is 4 ns (R54). -/
def nowNs (s : State) : Nat := 4 * s.clock

/-! MSI-X messages (R161 to R163, R797). -/

/-- A function of the endpoint: 0 the PF, v the VF v. -/
def funcOf (s : State) (fn : Nat) : Func := nth s.pci.funcs fn {}

/-- `s` with function `fn` changed. -/
def updFunc (s : State) (fn : Nat) (f : Func → Func) : State :=
  { s with pci := { s.pci with funcs := updAt s.pci.funcs fn f } }

/-- Messages may be sent by the function: Bus Master Enable 1, in D0, Function Mask 0. -/
def mayCall (f : Func) : Bool := f.bme && !f.d3 && !f.fmask

/-- `m` handed to the link. -/
def sendHost (s : State) (m : HostMsg) : State := { s with pci := { s.pci with sent := m :: s.pci.sent, l1 := false } }

/-- A message of a function leaves behind the posted writes that still wait in the endpoint (R157). -/
def sendAfterWrites (s : State) (fn : Nat) (m : HostMsg) : State :=
  if s.pci.writes.isEmpty then sendHost s m
  else { s with pci := { s.pci with writes := s.pci.writes ++ [{ id := none, req := .hw, fn := fn, addr := 0, tlps := [m] }] } }

/-- A message is due on a vector of a function. -/
def sendMsix (s : State) (fn vec : Nat) : State :=
  let f := funcOf s fn
  let e := SMap.getD f.table vec {}
  if !f.msixEn then s
  else if e.masked || !mayCall f then updFunc s fn fun f => { f with pba := NSet.add f.pba vec }
  else sendAfterWrites s fn (.msix fn vec e.addr e.data)

/-- A signal to Fypajo (R777). -/
def signalFyp (s : State) (g : FypSignal) : State := { s with fypSignals := g :: s.fypSignals }

/-! Events (R36 to R42, R786) and faults (R43 to R46, R699, R717). -/

/-- The summary of a page: a bit set in both EVT_STATUS and EVT_ENABLE. -/
def summary (s : State) (pg : Nat) : Bool :=
  decide (((rd s (hdr pg 0x20)).toNat &&& (rd s (hdr pg 0x24)).toNat) ≠ 0)

/-- The MSI-X message and the Fypajo signal of a summary, as EVT_ROUTE gives (R37). -/
def notify (s : State) (pg : Nat) : State :=
  let r := hdr pg 0x2C
  let s := if rb s r 16 then sendMsix s 0 (rf s r 10 0) else s
  if rb s r 18 then signalFyp s (.summary pg) else s

/-- Work of a page's block is in flight (STATUS.IDLE reads 0). -/
def working (s : State) (pg : Nat) : Bool :=
  let atCore (n : Nat) : Bool :=
    let k := nth s.cores n {}
    k.normal.job.isSome || k.urgent.job.isSome || k.waitNormal.isSome || k.waitUrgent.isSome
  let atSource (lo n : Nat) : Bool := s.ing.src.any fun e =>
    decide (lo ≤ e.1) && decide (e.1 < lo + n) && (e.2.frame.isSome || !e.2.ready.isEmpty)
  match pageOf pg with
  | some (.boot, _) => s.boot.op.isSome || s.boot.otpOp.isSome || s.boot.dirOp
  | some (.seam, _) => rf s R.SEAM_STATE 1 0 ≠ 0
  | some (.csh, _) => !s.toCsh.isEmpty || !s.csh.fifo.isEmpty
  | some (.plb, _) => s.plb.solving.isSome
  | some (.dpt, _) | some (.sbt, _) =>
    !s.dpt.starts.isEmpty || !s.dpt.aborts.isEmpty || !s.dpt.fallbacks.isEmpty || (List.range 8).any atCore
  | some (.hod, _) => !s.hod.inflight.isEmpty || !s.hod.copies.isEmpty || !s.hod.heldCq.isEmpty
  | some (.qry, _) => s.qry.scan.isSome
  | some (.mtr, _) => !s.mortar.flight.isEmpty || !s.mortar.acks.isEmpty
  | some (.pci, _) => !s.pci.outstanding.isEmpty || !s.pci.reads.isEmpty || !s.pci.writes.isEmpty || !s.pci.waiting.isEmpty
  | some (.aud, _) => s.aud.alert.isSome || !s.aud.popped.isEmpty || !s.aud.handoff.isEmpty
  | some (.key, _) => s.key.cur.isSome || !s.key.held.isEmpty
  | some (.sfl, _) => s.sfl.cur.isSome || !s.sfl.held.isEmpty
  | some (.dmc, c) => [2 * c, 2 * c + 1].any fun u => let k := nth s.dram.sub u {}; !k.reads.isEmpty || !k.writes.isEmpty
  | some (.csi, p) => atSource (16 * p) 16
  | some (.eth, m) => atSource (128 + 36 * m) 36
  | some (.esl, _) => !s.esl.batches.isEmpty || !s.esl.due.isEmpty
  | some (.dev, e) => (nth s.dev.eng e none).isSome
  | some (.enl, e) => (nth s.enl.eng e none).isSome
  | some (.ash, n) => atCore n
  | _ => false

/-- A block operates with reduced capability (STATUS.DEGRADED): Quarry with a fenced pool (R280), Plumb on safe rows because no plan can be
made (R576). -/
def degraded (s : State) (pg : Nat) : Bool :=
  (decide (pg = P.qry) && !s.qry.fenced.isEmpty) || (decide (pg = P.plb) && s.plb.degraded)

/-- The STATUS register of a page, GATED apart (02): IDLE, QUIESCED, DEGRADED, FENCED, SRESET_BUSY, STAGED_PENDING. -/
def statusWord (s : State) (pg : Nat) : Nat :=
  b2n (!working s pg) + 2 * b2n (rb s (hdr pg 0x10) 2 && !working s pg) + 4 * b2n (degraded s pg)
    + 8 * b2n (nth s.isl (islandAt pg) {}).fenced + 16 * b2n (rb s (hdr pg 0x10) 1)
    + 32 * b2n (s.staged.any fun e => decide (e.1 / 0x1000 = pg))

/-- The record of a page event (R697, R698). -/
def pageOccurrence (s : State) (pg b : Nat) (forced : Bool) (params : Option (List Nat)) : Occurrence :=
  { code := 0x8000 + 0x100 * blockTypeAt pg + b, origin := pg, detail := islandAt pg, forced := forced,
    params := params.getD [(rd s (hdr pg 0x20)).toNat, statusWord s pg, 0, 0] }

/-- An occurrence sent to the recorder. -/
def toRecorder (s : State) (o : Occurrence) : State := { s with toCsh := s.toCsh ++ [o] }

/-- A message sent to FLT. -/
def tellFlt (s : State) (m : FltMsg) : State := { s with toFlt := s.toFlt ++ [m] }

/-- An occurrence of event bit `b` of page `pg`: the bit rises (R37), one record (R40) and one message to FLT (R786).
An occurrence that finds its bit set changes nothing. FAULT is recorded by its code alone (R697). -/
def raiseWith (s : State) (pg b : Nat) (forced : Bool) (params : Option (List Nat)) : State :=
  if rb s (hdr pg 0x20) b then s
  else
    let was := summary s pg
    let s := wb s (hdr pg 0x20) b true
    let s := if !was && summary s pg then notify s pg else s
    let s := if b ≠ 0 && rb s (hdr pg 0x2C) 19 then tellFlt s (.event pg b) else s
    if b ≠ 0 && rb s (hdr pg 0x2C) 17 then toRecorder s (pageOccurrence s pg b forced params) else s

/-- An event of a page. -/
def raise (s : State) (pg b : Nat) : State := raiseWith s pg b false none

/-- An event whose record carries parameters that its chapter gives. -/
def raiseP (s : State) (pg b : Nat) (params : List Nat) : State := raiseWith s pg b false (some params)

/-- A fault arises on page `pg` (R43, R44): it is captured, or counted in OVERFLOW; it goes to FLT (R41) and, as
EVT_ROUTE gives, to Contact Sheet (R699). -/
def fault (s : State) (pg cause : Nat) (req : Req) (info : Nat) (addr : Option Nat) : State :=
  let held := rb s (hdr pg 0x20) 0
  let a := addr.getD 0
  let s1 :=
    if held then bump s (hdr pg 0x30) 23 16 1
    else
      let s := setReg s (hdr pg 0x30) (BitVec.ofNat 32 (blockTypeAt pg * 256 + cause + reqCode req * 0x1000000))
      let s := setReg s (hdr pg 0x34) (BitVec.ofNat 32 info)
      let s := setReg s (hdr pg 0x38) (BitVec.ofNat 32 a)
      let s := setReg s (hdr pg 0x3C) (BitVec.ofNat 32 (bits a 47 32 + b2n addr.isSome * 0x80000000))
      raise s pg 0
  let s2 := tellFlt s1 (.fault pg cause info)
  if rb s2 (hdr pg 0x2C) 17 then
    toRecorder s2 { code := blockTypeAt pg * 256 + cause, origin := pg, detail := islandAt pg,
                    params := [info % 2 ^ 32, bits a 31 0, bits a 47 32 + b2n addr.isSome * 0x80000000,
                      reqCode req + rf s2 (hdr pg 0x30) 23 16 * 0x100 + b2n (!held) * 0x10000] }
  else s2

/-- A fault of a block's own hardware, with no address. -/
def hwFault (s : State) (pg cause info : Nat) : State := fault s pg cause .hw info none

/-- An event whose chapter has a Contact Sheet record written with parameters at each occurrence: the bit rises where it is
clear, and the record is written in any case (R308, R731). -/
def raiseRecord (s : State) (pg b : Nat) (params : List Nat) : State :=
  if rb s (hdr pg 0x20) b then
    if rb s (hdr pg 0x2C) 17 then toRecorder s (pageOccurrence s pg b false (some params)) else s
  else raiseP s pg b params

/-- An armed injection with the given target whose ARG satisfies `p` fires (R730, R731): whether it did, and its ARG. -/
def injFire (s : State) (target : Nat) (p : Nat → Bool) : State × Bool :=
  if rf s R.FLT_INJ_STATUS 1 0 = 1 ∧ rf s R.FLT_INJ_STATUS 15 8 = target ∧ p s.flt.injArg then
    (raiseRecord (wf s R.FLT_INJ_STATUS 1 0 2) P.flt 11 [target, s.flt.injArg, 1, 0], true)
  else (s, false)

/-- What FLT shows of a safety bit changes (R721 to R723): a rise also sets FLT_SAFE_SEEN; when every bit reads 0, FLT.SAFE_CLEAR is raised. -/
def safeSet (s : State) (b : Nat) (on : Bool) : State :=
  if rb s R.FLT_SAFE_STATUS b = on then s
  else
    let s := wb s R.FLT_SAFE_STATUS b on
    let s := if on then wb s R.FLT_SAFE_SEEN b true else s
    if rd s R.FLT_SAFE_STATUS = 0 then raise s P.flt 12 else s

/-- FLT counts a sentinel job that ended with a miss, or without one (R723, R724). -/
def sentinelJob (s : State) (missed : Bool) : State :=
  let r := R.FLT_SENT_STATUS
  if missed then
    let s := wf (bump s r 7 0 1) r 31 16 0
    if rf s r 7 0 ≥ rf s R.FLT_SENT_CFG 7 0 then safeSet s 1 true else s
  else
    let s := wf (bump { s with flt := { s.flt with sentDone := true } } r 31 16 1) r 7 0 0
    if rf s r 31 16 ≥ rf s R.FLT_SENT_CFG 31 16 then safeSet s 1 false else s

/-- The registers of page `pg` return to their reset values, except the bits in fields whose access code satisfies `keep`
and the registers at the offsets `kept` (R34, R170). -/
def resetRegs (s : State) (pg : Nat) (keep : Access → Bool) (kept : Nat → Bool) : State :=
  { s with regs := s.regs.filterMap fun e =>
      if e.1 / 0x1000 ≠ pg || kept e.1 then some e
      else
        let m := BitVec.ofNat 32 (match findReg e.1 with | some r => maskWhere r keep | none => 0)
        let v := (e.2 &&& m) ||| (resetWord e.1 &&& ~~~m)
        if v = resetWord e.1 then none else some (e.1, v) }

/-- An island runs, or wakes for the work that reaches it: not OFF, not fenced, not initialising (R59 to R61, R68, R95). -/
def islandRuns (s : State) (n : Nat) : Bool :=
  let i := nth s.isl n {}
  decide (i.st ≠ .off) && !i.fenced && !i.initing

/-- Work or a request that reaches an island in GATED or in RETAIN wakes it (R60). -/
def wake (s : State) (n : Nat) : State :=
  if (nth s.isl n {}).st = .gated ∨ (nth s.isl n {}).st = .retain then { s with isl := updAt s.isl n fun i => { i with st := .on } } else s

/-- A block accepts work: CTRL.ENABLE 1, QUIESCE_REQ 0, and its island runs. -/
def accepts (s : State) (pg : Nat) : Bool :=
  rb s (hdr pg 0x10) 0 && !rb s (hdr pg 0x10) 2 && islandRuns s (islandAt pg)

end Sys2Proof.Machine
end

