-- ==== Sys2Proof/Machine/AddressMap.lean ====
section
/-!
DEFINITION. Machine/AddressMap.lean: the internal address map, DRAM translation, islands as destinations, the stops of Mortar and the requests that engines
present there (03 R57 to R84 and R790, 06 R177 to R182).
-/
namespace Sys2Proof.Machine
open Sys2Proof

/-- What an internal address names (R82). -/
inductive Place where
  | coreSram (n : Nat)
  | bank (b : Nat)
  | pageWindow
  | tableWindow
  | dram
  | host (w : Nat)
  | unmapped
deriving DecidableEq, Repr

/-- The place of internal address `a` (R82). -/
def placeOf (a : Nat) : Place :=
  if a < 0x08000000 then .coreSram (a / 0x01000000)
  else if a < 0x10000000 then .bank ((a - 0x08000000) / 0x00800000)
  else if 0x40000000 ≤ a ∧ a < 0x40040000 then .pageWindow
  else if 0x41000000 ≤ a ∧ a < 0x42000000 then .tableWindow
  else if 0x1000000000 ≤ a ∧ a < 0x1800000000 then .dram
  else if 0x800000000000 ≤ a ∧ a < 0x1000000000000 then .host ((a - 0x800000000000) / 0x80000000000)
  else .unmapped

/-- The number of set bits of an 8-bit mask. -/
def popc8 (m : Nat) : Nat := (bitList m 8).length

/-- The masks of the layout in effect (R177). -/
def layoutMasks (s : State) : List Nat := nth s.dram.layouts (b2n s.dram.spare) []

/-- The mask of region `r` in the layout in effect. -/
def regionMask (s : State) (r : Nat) : Nat := nth (layoutMasks s) r 0

/-- The base of region `r` in subchannel `u` under the masks `ms` (R179). -/
def regionBase (ms : List Nat) (r u : Nat) : Nat :=
  (List.range r).foldl (fun b q => let m := nth ms q 0; if bit m u then b + 0x40000000 / popc8 m else b) 0

/-- Subchannel and local address of DRAM address `a` under the layout in effect (R179); none where the region is unmapped
(R180). -/
def dramTarget (s : State) (a : Nat) : Option (Nat × Nat) :=
  let off := a - 0x1000000000
  let r := off / 0x40000000
  let m := regionMask s r
  let k := popc8 m
  if k = 0 then none
  else
    let g := (off % 0x40000000) / 512
    let u := nth (bitList m 8) (g % k) 0
    some (u, regionBase (layoutMasks s) r u + (g / k) * 512 + off % 512)

/-- Bank (bank group × 4 + bank) of a local address (R182). -/
def bankOf (l : Nat) : Nat := (bits l 10 9 ^^^ bits l 17 16) * 4 + (bits l 12 11 ^^^ bits l 19 18)

/-- Row of a local address (R182). -/
def rowOf (l : Nat) : Nat := bits l 31 16

/-- Column of a local address (R182): C[3:0] are zero, C[6:4] are L[8:6] and C[9:7] are L[15:13]. -/
def colOf (l : Nat) : Nat := bits l 8 6 * 16 + bits l 15 13 * 128

/-- Byte of a local address within its burst (R182). -/
def burstByte (l : Nat) : Nat := bits l 5 0

/-- The bank of core SRAM that an offset within it selects, and the location within the bank (R85). -/
def coreBank (o : Nat) : Nat × Nat := (bits o 12 8, bits o 23 13 * 256 + bits o 7 0)

/-- The offset within core SRAM of a location of a bank (R85 read backwards). -/
def coreOffset (b l : Nat) : Nat := bits l 18 8 * 8192 + b * 256 + bits l 7 0

/-- Island `n`. -/
def island (s : State) (n : Nat) : Island := nth s.isl n {}

/-- `s` with island `n` changed. -/
def updIsl (s : State) (n : Nat) (f : Island → Island) : State := { s with isl := updAt s.isl n f }

/-- Subchannel `u`. -/
def subch (s : State) (u : Nat) : SubCh := nth s.dram.sub u {}

/-- `s` with subchannel `u` changed. -/
def updSub (s : State) (u : Nat) (f : SubCh → SubCh) : State :=
  { s with dram := { s.dram with sub := updAt s.dram.sub u f } }

/-- Mortar status codes (R84). -/
abbrev MS.ok : Nat := 0
abbrev MS.poison : Nat := 1
abbrev MS.refused : Nat := 2
abbrev MS.unmapped : Nat := 3
abbrev MS.oversize : Nat := 4
abbrev MS.islandOff : Nat := 5
abbrev MS.fenced : Nat := 6

/-- The status an island gives a request: FENCED, ISLAND_OFF, or OK (R61, R68, R95). -/
def islandStatus (s : State) (n : Nat) : Nat :=
  let i := island s n
  if i.fenced then MS.fenced
  else if i.st = .off ∨ i.initing then MS.islandOff
  else MS.ok

/-- The island that holds an address of the map. -/
def islandOfAddr (s : State) (a : Nat) : Option Nat :=
  match placeOf a with
  | .coreSram n => some (19 + n)
  | .bank b => some (3 + b)
  | .pageWindow | .tableWindow => some 0
  | .dram => (dramTarget s a).map fun t => 32 + t.1 / 2
  | .host _ => some 1
  | .unmapped => none

/-- The status with which the destination answers a request to address `a` of SRAM or DRAM (R61, R68, R83, R180, R215). -/
def placeStatus (s : State) (a : Nat) : Nat :=
  match placeOf a with
  | .unmapped => MS.unmapped
  | .coreSram n => islandStatus s (19 + n)
  | .bank b => islandStatus s (3 + b)
  | .dram =>
    match dramTarget s a with
    | none => MS.unmapped
    | some (u, _) => if (subch s u).st = .fenced then MS.fenced else islandStatus s (32 + u / 2)
  | _ => MS.ok

/-- A request to address `a` wakes the island that holds it (R60). -/
def wakeAt (s : State) (a : Nat) : State := match islandOfAddr s a with | some n => wake s n | none => s

/-! Mortar (R69 to R75, R790, R792). -/

/-- `s` with the mesh changed. -/
def updMortar (s : State) (f : Mortar → Mortar) : State := { s with mortar := f s.mortar }

/-- The stop and local port of the agent of an island (R69). -/
def islandStop (n : Nat) : Nat × Nat :=
  if n = 0 then (5, 0) else if n = 1 then (0, 0) else if n = 2 then (20, 0)
  else if n ≤ 10 then ((if n < 7 then n + 4 else n + 6), 1)
  else if n ≤ 18 then (nth [18, 18, 19, 19, 22, 22, 23, 23] (n - 11) 0, (n - 11) % 2)
  else if n ≤ 26 then ((if n < 23 then n - 12 else n - 10), 0)
  else if n = 27 then (2, 0) else if n = 28 then (3, 0) else if n = 29 then (3, 1)
  else if n = 30 then (4, 0) else if n = 31 then (4, 1)
  else if n ≤ 35 then (nth [6, 11, 12, 17] (n - 32) 0, 0)
  else if n = 36 then (1, 0) else if n = 37 then (1, 1) else (5, 1)

/-- The stop and local port at which a page is answered (R790). -/
def pageStop (pg : Nat) : Nat × Nat :=
  match pageOf pg with
  | some (.qry, _) => (20, 1)
  | some (.dpt, _) => (21, 0)
  | some (.sbt, _) => (21, 1)
  | some (k, i) => islandStop (pageIsland k i)
  | none => (5, 0)

/-- The agent that answers an address: its stop and local port. -/
def agentOf (s : State) (a : Nat) : Nat × Nat :=
  match placeOf a with
  | .pageWindow => pageStop ((a - 0x40000000) / 0x1000)
  | .tableWindow => (5, 0)
  | _ => islandStop ((islandOfAddr s a).getD 0)

/-- Flits leave the mesh on a channel. -/
def countFlits (s : State) (c : Chan) (n : Nat) : State :=
  bump s (match c with | .urgent => R.MTR_FLITS_URGENT | .normal => R.MTR_FLITS_NORMAL | .bulk => R.MTR_FLITS_BULK) 31 0 n

/-- The first rule of R792 that a request breaks: the response's status and the MTR cause. -/
def injectRefusal (s : State) (chan : Chan) (addr n : Nat) : Option (Nat × Nat) :=
  if n = 0 ∨ 512 < n ∨ addr % 512 + n > 512 then some (MS.oversize, 3)
  else if chan = .urgent ∧ 64 < n then some (MS.oversize, 4)
  else if placeOf addr = .unmapped ∨ (placeOf addr = .dram ∧ (dramTarget s addr).isNone) then some (MS.unmapped, 5)
  else none

/-! Requests of engines. -/

/-- Who presents a request and how it travels: requester, source stop and local port, channel (R75), and the class it carries to DRAM (R188). -/
structure Via where
  req : Req
  stop : Nat
  port : Nat
  chan : Chan := .normal
  cls : Option Nat := none
deriving DecidableEq, Repr

/-- The number of a requester among the 48 of Mortar: stop × 2 + local port. -/
def Via.src (v : Via) : Nat := v.stop * 2 + v.port

/-- The island at whose stop and port a request is presented. -/
def Via.island (v : Via) : Nat := ((List.range 39).find? fun n => islandStop n = (v.stop, v.port)).getD 2

/-- The class as which a request is served in DRAM (R188): sentinel and prompt as prompt (1), steady 2, bulk 3; no class as steady; on the urgent
channel as prompt. -/
def servedClass (chan : Chan) (cls : Option Nat) : Nat := if chan = .urgent then 1 else max 1 (min 3 (cls.getD 2))

/-- The channel that carries traffic of a class which a chapter puts on the bulk channel for bulk work and on the normal channel otherwise. -/
def classChan (cls : Nat) : Chan := if cls = 3 then .bulk else .normal

/-- An engine of the block on an island, on the normal channel with no class. -/
def engineVia (isl : Nat) : Via := { req := .hw, stop := (islandStop isl).1, port := (islandStop isl).2 }

/-- A shared engine on an island at work of a class: bulk work travels on the bulk channel, other work on the normal channel (R322, R352, R615). -/
def classVia (isl cls : Nat) : Via := { engineVia isl with chan := classChan cls, cls := some cls }

/-- A bank of a core: the requests of the urgent bank travel urgent (R75, R433), and each carries the class of the job of its bank (R188). -/
def bankVia (s : State) (n : Nat) (urgent : Bool) : Via :=
  let k := nth s.cores n {}
  { req := .core n, stop := (islandStop (19 + n)).1, port := 0, chan := if urgent then .urgent else .normal,
    cls := (if urgent then k.urgent else k.normal).job.map (·.cls) }

/-- A core: the bank that is active presents its requests. -/
def coreVia (s : State) (n : Nat) : Via := bankVia s n (decide ((nth s.cores n {}).active = 2))

/-- The largest request of a channel: 512 bytes, or 64 on the urgent channel (R72, R74). -/
def chanBytes (c : Chan) : Nat := if c = .urgent then 64 else 512

/-! The requests of the command in progress. -/

/-- `s` with what the requests of the command meet changed. -/
def updIo (s : State) (f : Io → Io) : State := updMortar s fun m => { m with io := f m.io }

/-- A request of the command in progress has to wait: the command has no occasion yet. -/
def block (s : State) : State := updIo s fun i => { i with blocked := true }

end Sys2Proof.Machine
end

