-- ==== Sys2Proof/Machine/Storage.lean ====
section
/-!
DEFINITION. Machine/Storage.lean: the bytes of SRAM and DRAM with their ECC and poison (03 R85 to R91 and R791, 06 R183 to R186).
-/
namespace Sys2Proof.Machine
open Sys2Proof

/-- The byte at internal address `a`; an unlisted address reads as zero (R95, R220). -/
def memByte (s : State) (a : Nat) : Byte := SMap.getD s.mem a 0

/-- The `n` bytes from `a`. -/
def memBytes (s : State) (a n : Nat) : List Byte := (span a n).map (memByte s)

/-- `s` with the byte at `a` holding `b`. -/
def setByte (s : State) (a : Nat) (b : Byte) : State := { s with mem := SMap.put s.mem a b 0 }

/-- `s` with the bytes `bs` stored from `a` on. -/
def setBytes (s : State) : Nat → List Byte → State
  | _, [] => s
  | a, b :: bs => setBytes (setByte s a b) (a + 1) bs

/-! The ECC field of a DRAM burst (R183). -/

/-- The flipped bits of the 16 ECC bytes of burst `g`. -/
def eccFlips (s : State) (g : Nat) : Nat := SMap.getD s.dram.eccFlips g 0

/-- `s` with the ECC bytes of burst `g` written without a flipped bit. -/
def freshEcc (s : State) (g : Nat) : State := { s with dram := { s.dram with eccFlips := s.dram.eccFlips.del g } }

/-- The address tag of a burst: a CRC-16 with polynomial 0x8005 over the subchannel number and L[31:6] (R183). DESIGN CHOICE: it starts at 0 and takes
one byte of subchannel number, then L[31:6] as 26 bits, each most significant bit first. -/
def addressTag (u l : Nat) : Nat := crcBits 0x8005 16 0 ((bitsHigh u 8) ++ (bitsHigh (bits l 31 6) 26))

/-- The 16 ECC bytes of burst `g` as they are stored, as one number (R183): check bytes, poison mark, address tag, zero, with the flipped bits. -/
def eccField (s : State) (g : Nat) : Nat :=
  let check (k : Nat) : Nat := (Config.checkByte (BitVec.ofNat 64 (ofLe (memBytes s (64 * g + 8 * k) 8)))).toNat
  let t := (dramTarget s (64 * g)).getD (0, 0)
  let v := ofLe ((List.range 8).map fun k => BitVec.ofNat 8 (check k)) + (if s.poison.contains g then 0xFF else 0) * 2 ^ 64
    + addressTag t.1 t.2 * 2 ^ 72
  v ^^^ eccFlips s g

/-- A granule is poisoned: by its mark; in DRAM five or more bits of the poison mark as stored are 1 (R183). -/
def poisoned (s : State) (g : Nat) : Bool :=
  let f := bits (eccFlips s g) 71 64
  if f = 0 then s.poison.contains g
  else decide (5 ≤ popc8 ((if s.poison.contains g then 0xFF else 0) ^^^ f))

/-- The granule of internal address `a` is poisoned. -/
def granuleBad (s : State) (a : Nat) : Bool := poisoned s (a / 64)

/-- `s` with granule number `g` poisoned. -/
def markGranule (s : State) (g : Nat) : State := { s with poison := NSet.add s.poison g }

/-- `s` with granule number `g` clean. -/
def clearGranule (s : State) (g : Nat) : State := { s with poison := NSet.del s.poison g }

/-- The granules that `n` bytes from `a` touch. -/
def granulesOf (a n : Nat) : List Nat := if n = 0 then [] else span (a / 64) ((a + n - 1) / 64 + 1 - a / 64)

/-- The granules that the `n` bytes from `a` cover whole. -/
def wholeOf (a n : Nat) : List Nat := (granulesOf a n).filter fun g => decide (a ≤ 64 * g) && decide (64 * g + 64 ≤ a + n)

/-- The poisoned offset ranges of the `n` bytes from `a`. -/
def badRanges (s : State) (a n : Nat) : List (Nat × Nat) :=
  ((granulesOf a n).filter (poisoned s)).map fun g =>
    let lo := max a (64 * g)
    let hi := min (a + n) (64 * g + 64)
    (lo - a, hi - lo)

/-- The granules that receive a byte of the offset ranges `bad` of a write at `a` (R89). -/
def hitBy (a : Nat) (bad : List (Nat × Nat)) : List Nat := bad.flatMap fun r => granulesOf (a + r.1) r.2

/-! Checks at a read (R87, R88, R184, R185). -/

/-- A corrected word is counted where it lies: a Mortar bank, a core's SRAM (R87). DESIGN CHOICE: a word that a scrubber corrects is counted too. -/
def countCe (s : State) (a : Nat) : State :=
  match placeOf a with
  | .bank b =>
    let s := bump s (R.MTR_ECC_COUNT b) 15 0 1
    if rf s (R.MTR_ECC_COUNT b) 15 0 = rf s R.MTR_CE_THRESH 15 0 then raise s P.mtr 9 else s
  | .coreSram n => bump s (R.ASH_ECC n 0) 15 0 1
  | _ => s

/-- An uncorrectable word of SRAM poisons its granule, is counted and captured where it lies (R88, R402); `scrub` is 1 when
a scrubber found it. -/
def foundUe (s : State) (a scrub : Nat) : State :=
  let g := a / 64
  let s := markGranule s g
  match placeOf a with
  | .bank b =>
    let s := bump s (R.MTR_ECC_COUNT b) 31 16 1
    let s := fault s P.mtr (1 + scrub) .hw b (some (64 * g))
    raise s P.mtr 8
  | .coreSram n =>
    let s := bump s (R.ASH_ECC n 0) 31 16 1
    let s := fault s (P.ash n) 0x0D .hw 0 (some (64 * g))
    raise s (P.ash n) 11
  | _ => s

/-- The check of the ECC word `w` (address div 8) of SRAM at a read of it (R87, R88): a single-bit error is corrected and written
back, an uncorrectable one poisons the granule. -/
def checkWord (s : State) (scrub w : Nat) : State :=
  match s.eccErr.get w with
  | none => s
  | some e =>
    let s := { s with eccErr := s.eccErr.del w }
    if e = 1 then countCe s (8 * w) else foundUe s (8 * w) scrub

/-- The flipped bits of data word `k` of burst `g` and of its check byte: 1 single, 2 or more uncorrectable. -/
def wordErr (s : State) (g k : Nat) : Nat := SMap.getD s.eccErr (8 * g + k) 0 + popc8 (bits (eccFlips s g) (8 * k + 7) (8 * k))

/-- A burst of DRAM is read (R183 to R185): single-bit errors are corrected, written back and counted by word; an uncorrectable word or an address tag
that does not match poisons the burst, which is rewritten as read, counted once and captured; the single-bit errors of such a burst are counted as well. DESIGN
CHOICE: the granule of R185 is the 64-byte poison granule of 03 R88; where a bad word and a bad tag are found the cause is UE_READ. -/
def checkBurst (s : State) (scrub g : Nat) : State :=
  let es := (List.range 8).map (wordErr s g)
  let f := eccFlips s g
  if f = 0 ∧ es.all (· = 0) then s
  else
    let bad := poisoned s g
    let s := { freshEcc s g with eccErr := s.eccErr.filter fun e => decide (e.1 / 8 ≠ g) }
    let s := if bad then markGranule s g else clearGranule s g
    match dramTarget s (64 * g) with
    | none => s
    | some (u, _) =>
      let count := R.DMC_SUB_ECC (u / 2) (u % 2)
      let s := bump s count 15 0 (es.countP (· = 1))
      if es.any (2 ≤ ·) ∨ bits f 87 72 ≠ 0 then
        let s := bump (markGranule s g) count 31 16 1
        let s := if es.any (2 ≤ ·) then fault s (P.dmc (u / 2)) 1 .hw (u % 2 + 2 * scrub) (some (64 * g))
          else fault s (P.dmc (u / 2)) 2 .hw (u % 2) (some (64 * g))
        raise s (P.dmc (u / 2)) 8
      else s

/-- The check at a read of the `n` bytes from `a`: of SRAM every ECC word that they touch, of DRAM every burst. -/
def checkRange (s : State) (scrub a n : Nat) : State :=
  if n = 0 then s
  else match placeOf a with
    | .dram => if s.eccErr.isEmpty ∧ s.dram.eccFlips.isEmpty then s else (granulesOf a n).foldl (fun s g => checkBurst s scrub g) s
    | _ =>
      let ws := (s.eccErr.map (·.1)).filter fun w => decide (a / 8 ≤ w) && decide (w ≤ (a + n - 1) / 8)
      ws.foldl (fun s w => checkWord s scrub w) s

/-- An armed SRAM_CE or SRAM_UE injection flips one or two data bits of the first word written to core SRAM or to a Mortar bank (R730). -/
def injectSram (s : State) (a : Nat) : State :=
  let isl := match placeOf a with | .coreSram n => 19 + n | .bank b => 3 + b | _ => 0
  let hit (arg : Nat) : Bool := decide (isl ≠ 0) && decide (arg % 256 = isl) && decide (bits arg 10 8 = 0)
  let flip (s : State) (k : Nat) : State := { s with eccErr := SMap.set s.eccErr (a / 8) k }
  let r := injFire s 1 hit
  if r.2 then flip r.1 1
  else
    let r := injFire s 2 hit
    if r.2 then flip r.1 2 else s

/-! Writes (R89, R91, R186, R791). -/

/-- What a write of `n` bytes at `a` reads first: the partly covered ECC words of SRAM (R791), the partly covered bursts of DRAM (R186). -/
def checkParts (s : State) (a n : Nat) : State :=
  match placeOf a with
  | .dram => ((granulesOf a n).filter fun g => !(wholeOf a n).contains g).foldl (fun s g => checkBurst s 0 g) s
  | _ =>
    let part := (if a % 8 ≠ 0 then [a / 8] else []) ++ (if (a + n) % 8 ≠ 0 then [(a + n - 1) / 8] else [])
    part.foldl (fun s w => checkWord s 0 w) s

/-- The bytes are stored with valid check bits: what is partly covered is checked first, a granule covered whole becomes clean (R91), and each granule
that receives a byte from a poisoned source range is poisoned (R89). -/
def storeBytes (s : State) (a : Nat) (bs : List Byte) (bad : List (Nat × Nat)) : State :=
  let n := bs.length
  if n = 0 then s
  else
    let s := checkParts s a n
    let s := { s with eccErr := s.eccErr.filter fun e => !(decide (a / 8 ≤ e.1) && decide (e.1 ≤ (a + n - 1) / 8)) }
    let s := injectSram (setBytes s a bs) a
    let s := (wholeOf a n).foldl (fun s g => freshEcc (clearGranule s g) g) s
    (hitBy a bad).foldl markGranule s

/-- What a read returns: a status in the order of R84, the bytes, the poisoned offset ranges. -/
structure Got where
  st : Nat
  data : List Byte
  bad : List (Nat × Nat) := []
deriving DecidableEq, Repr

/-- The status of a read that was performed. -/
def readStatus (bad : List (Nat × Nat)) : Nat := if bad.isEmpty then MS.ok else MS.poison

/-- The answer to a read that its destination refuses: no data; FENCED carries the poison mark on every granule (R215). -/
def refusedGot (st n : Nat) : Got := { st := st, data := List.replicate n 0, bad := if st = MS.fenced then [(0, n)] else [] }

end Sys2Proof.Machine
end

