-- ==== Sys2Proof/Machine/DramCore.lean ====
section
/-!
DEFINITION. Machine/DramCore.lean: the commands of a DRAM subchannel: activates and their counting, mitigations, the retry buffer, and the order in which
requests are served (06 R182, R189 to R202, R210).
-/
namespace Sys2Proof.Machine
open Sys2Proof

/-- Bank `b` of a subchannel. -/
def bankAt (k : SubCh) (b : Nat) : DramBank := SMap.getD k.banks b {}

/-- A subchannel with bank `b` changed. -/
def updBank (k : SubCh) (b : Nat) (f : DramBank → DramBank) : SubCh :=
  { k with banks := SMap.put k.banks b (f (bankAt k b)) {} }

/-- All banks precharged: no row is open. -/
def precharge (k : SubCh) : SubCh :=
  { k with banks := (k.banks.map fun e => (e.1, { e.2 with row := none })).filter fun e => e.2 ≠ {} }

/-- The subchannel carries traffic: in RUN or DRIFTING, or in FILLING, with no alert in progress (R207, R208, R211). -/
def SubCh.live (k : SubCh) : Bool := (k.st == .run || k.st == .drifting || k.st == .filling) && !k.alert

/-- A command enters the retry buffer (R210). -/
def logCmd (s : State) (u : Nat) (c : DramCmd) : State := updSub s u fun k => { k with retry := k.retry ++ [c], pd := false }

/-- The buffers that hold commands and write data for replay have room (R210). -/
def retryRoom (k : SubCh) : Bool := decide (k.retry.length < 64) && decide (k.held.length < 64)

/-- They have room for `n` more commands and the data of `w` more writes (R210). -/
def roomFor (k : SubCh) (n w : Nat) : Bool := decide (k.retry.length + n ≤ 64) && (decide (k.held.length + w ≤ 64) || decide (w = 0))

/-- The oldest entries retire until `n` more commands and the data of `w` more writes have room. -/
def makeRoom (s : State) (u n w : Nat) : State :=
  updSub s u fun k =>
    let a := k.retry.length + n - 64
    let b := k.held.length + w - 64
    { k with retry := k.retry.drop a, leftCmds := k.leftCmds - a, held := k.held.drop b, leftWrites := k.leftWrites - b }

/-! Activates and mitigations (R197 to R202). -/

/-- The index of the entry with the least count, the lowest first. -/
def leastIdx (t : List (Nat × Nat)) : Nat :=
  let m := t.foldl (fun m e => min m e.2) (2 ^ 40)
  t.findIdx fun e => e.2 = m

/-- The least count among the entries other than `i` of a table of 16; an empty entry counts as 0. -/
def leastOther (t : List (Nat × Nat)) (i : Nat) : Nat :=
  if t.length < 16 then 0 else (t.eraseIdx i).foldl (fun m e => min m e.2) (2 ^ 40)

/-- The table after an activate of row `w`, and the index of its entry (R198). -/
def noteRow (t : List (Nat × Nat)) (w : Nat) : List (Nat × Nat) × Nat :=
  let i := t.findIdx fun e => e.1 = w
  if i < t.length then (t.modify i fun e => (e.1, e.2 + 1), i)
  else if t.length < 16 then (t ++ [(w, 1)], t.length)
  else
    let j := leastIdx t
    (t.modify j fun e => (w, e.2 + 1), j)

/-- A mitigation is charged to a source, one of the 48 requesters of Mortar (R202). -/
def chargeMitig (s : State) (u src : Nat) : State :=
  if src ≥ 48 then s
  else
  let c := SMap.getD (subch s u).charged src 0 + 1
  let s := updSub s u fun k => { k with charged := SMap.set k.charged src c }
  let lim := rf s (R.DMC_THROTTLE (u / 2)) 7 0
  if lim ≠ 0 ∧ c = lim then
    let s := updSub s u fun k => { k with throttled := NSet.add k.throttled src }
    let o := R.DMC_SUB_THROTTLE (u / 2) (u % 2)
    raise (wf (bump s o 31 16 1) o 5 0 src) (P.dmc (u / 2)) 12
  else s

/-- RFMsb is due on a bank: its rolling activate count has reached the threshold of mode register fifty-eight (R197). -/
def rfmDue (s : State) (u b : Nat) : Bool :=
  decide (s.dram.rfmThreshold ≠ 0) && decide (s.dram.rfmThreshold ≤ (bankAt (subch s u) b).rolling)

/-- An activate of a row by a source is allowed: no mitigation waits for the bank (R197, R199), and a throttled source keeps its
gap (R202). -/
def mayActivate (s : State) (u b src : Nat) : Bool :=
  let k := subch s u
  (bankAt k b).mitig.isEmpty && !rfmDue s u b
    && (!k.throttled.contains src
        || match k.lastAct.get (src * 64 + b) with
           | none => true
           | some t => decide (4 * t + 10 * rf s (R.DMC_THROTTLE (u / 2)) 23 16 ≤ nowNs s))

/-- An activate (R197, R198). -/
def activate (s : State) (u b row src : Nat) : State :=
  let s := logCmd s u (.activate b row src)
  let s := updSub s u fun k =>
    updBank { k with lastAct := SMap.set k.lastAct (src * 64 + b) s.clock } b fun d => { d with row := some row, rolling := d.rolling + 1 }
  if !rb s (R.DMC_ACT_CTRL (u / 2)) 16 then s
  else
    let t := noteRow (bankAt (subch s u) b).table row
    if (nth t.1 t.2 (0, 0)).2 ≥ rf s (R.DMC_ACT_CTRL (u / 2)) 15 0 then
      let s := updSub s u fun k => updBank k b fun d =>
        { d with table := t.1.modify t.2 fun e => (e.1, leastOther t.1 t.2), mitig := d.mitig ++ [(row, src)] }
      chargeMitig s u src
    else updSub s u fun k => updBank k b fun d => { d with table := t.1 }

/-- RFMsb lowers a bank's rolling activate count by the threshold. PRESUMED (JESD79-5, which R197 names and the spec does not quote). -/
def lowered (s : State) (d : DramBank) : DramBank := { d with rolling := d.rolling - s.dram.rfmThreshold, row := none }

/-- The queued mitigation of a bank is issued (R199): DRFMsb naming the row where the components advertise it, RFMsb otherwise; with none
queued, the RFMsb that the rolling activate count calls for (R197). -/
def mitigate (s : State) (u b : Nat) : State :=
  match (bankAt (subch s u) b).mitig with
  | e :: ms =>
    let s := logCmd s u (.mitigate b (if s.dram.drfm then some e.1 else none))
    let s := updSub s u fun k => updBank k b fun d => { (if s.dram.drfm then { d with row := none } else lowered s d) with mitig := ms }
    bump s (R.DMC_SUB_MITIG (u / 2) (u % 2)) 31 0 1
  | [] => if rfmDue s u b then updSub (logCmd s u (.mitigate b none)) u fun k => updBank k b (lowered s) else s

/-- Every mitigation that goes before the next activate of a bank is issued: those queued (R199), then the RFMsb that is due (R197). -/
def mitigateAll (s : State) (u b : Nat) : State :=
  (List.range ((bankAt (subch s u) b).mitig.length + 1)).foldl (fun s _ => mitigate s u b) s

/-- How many mitigations that is. -/
def mitigsDue (s : State) (u b : Nat) : Nat :=
  let d := bankAt (subch s u) b
  let d' := if s.dram.drfm then d else { d with rolling := d.rolling - d.mitig.length * s.dram.rfmThreshold }
  d.mitig.length + b2n (decide (s.dram.rfmThreshold ≠ 0) && decide (s.dram.rfmThreshold ≤ d'.rolling))

/-! Service (R189 to R191). -/

/-- The region of an address is being refilled (R217). -/
def regionFills (s : State) (a : Nat) : Bool := s.dram.filling.contains ((a - 0x1000000000) / 0x40000000)

/-- Two requests touch a common burst. -/
def shareBurst (a b : DramReq) : Bool :=
  decide (a.addr / 64 ≤ (b.addr + b.len - 1) / 64) && decide (b.addr / 64 ≤ (a.addr + a.len - 1) / 64)

/-- Everything that waits at the controller of subchannel `u`. -/
def waitingAt (s : State) (u : Nat) : List DramReq :=
  let a := subch s (u / 2 * 2)
  let b := subch s (u / 2 * 2 + 1)
  a.reads ++ a.writes ++ a.stopped ++ b.reads ++ b.writes ++ b.stopped

/-- A request may be served: its region is not being refilled, no earlier request at the controller touches a common burst, and no earlier read has
its source and channel (R191, R217). -/
def mayServe (s : State) (u : Nat) (r : DramReq) : Bool :=
  !regionFills s r.addr && (waitingAt s u).all fun e =>
    decide (r.seq ≤ e.seq) || !(shareBurst e r && decide (r.data.isSome ∨ e.data.isNone) || (decide (e.src = r.src) && decide (e.chan = r.chan) && e.data.isNone && r.data.isNone))

/-- The request to serve next: prompt before steady before bulk; within a class an open row first, then the oldest (R189); its index in the queue. -/
def pickReq (s : State) (u : Nat) (q : List DramReq) : Option (Nat × DramReq) :=
  let k := subch s u
  let room (r : DramReq) : Bool := (bankAt k (bankOf r.loc)).row = some (rowOf r.loc) || mayActivate s u (bankOf r.loc) r.src
  let cs := (q.zipIdx.filter fun e => mayServe s u e.1 && room e.1).map fun e => (e.2, e.1)
  let openRow (r : DramReq) : Bool := (bankAt k (bankOf r.loc)).row = some (rowOf r.loc)
  ((List.range 4).findSome? fun c =>
    match cs.find? fun e => e.2.cls = c && openRow e.2 with
    | some e => some e
    | none => cs.find? fun e => e.2.cls = c)

/-- The row of a request is open, or is opened. -/
def openFor (s : State) (u : Nat) (r : DramReq) : State :=
  if (bankAt (subch s u) (bankOf r.loc)).row = some (rowOf r.loc) then s else activate s u (bankOf r.loc) (rowOf r.loc) r.src

/-- The bursts of a request, each a request of its own (R186: a partly covered burst of a write is read first). -/
def burstsOf (r : DramReq) : List DramReq :=
  (granulesOf r.addr r.len).map fun g =>
    let lo := max r.addr (64 * g)
    let n := min (r.addr + r.len) (64 * g + 64) - lo
    let o := lo - r.addr
    { r with addr := lo, loc := r.loc + o, len := n, data := r.data.map fun bs => (bs.drop o).take n }

/-- The write command of a burst. -/
def writeCmd (r : DramReq) : DramCmd := .write (bankOf r.loc) (rowOf r.loc) (colOf r.loc) r.src

/-- The read command of a burst. -/
def readCmd (r : DramReq) : DramCmd := .read (bankOf r.loc) (rowOf r.loc) (colOf r.loc) r.src

/-- The commands of a request: one read or write for each burst, and a read before the write of a burst that is partly covered (R186). -/
def cmdsOf (r : DramReq) : List DramCmd :=
  (burstsOf r).flatMap fun b => if b.data.isNone then [readCmd b] else if b.len = 64 then [writeCmd b] else [readCmd b, writeCmd b]

/-- The commands that serving a request takes, with the activate of its row and the mitigations that go before it. -/
def cmdsNeeded (s : State) (u : Nat) (r : DramReq) : Nat :=
  (cmdsOf r).length + if (bankAt (subch s u) (bankOf r.loc)).row = some (rowOf r.loc) then 0 else 1 + mitigsDue s u (bankOf r.loc)

/-- The bursts of data that a request holds for replay. -/
def dataHeld (r : DramReq) : Nat := if r.data.isSome then (burstsOf r).length else 0

/-- The buffers have room for serving a request (R210). -/
def hasRoom (s : State) (u : Nat) (r : DramReq) : Bool := roomFor (subch s u) (cmdsNeeded s u r) (dataHeld r)

/-- The commands of a request are issued to its subchannel and held in the retry buffer (R210), with the write's data; an armed injection
inverts their parity, or the CRC of a write burst (R730). -/
def issueCommand (s : State) (u : Nat) (r : DramReq) : State :=
  let s := (injFire s 5 fun a => a % 8 = u).1
  let s := if r.data.isSome then (injFire s 6 fun a => a % 8 = u).1 else s
  let s := (cmdsOf r).foldl (fun s c => logCmd s u c) s
  updSub s u fun k => { k with held := if r.data.isSome then k.held ++ burstsOf r else k.held, lastUse := s.clock }

/-- A read of `n` bytes at `a` that the array performs: the bursts are checked, and bytes whose writes are still buffered before place `seq` come from the
write buffer (R185, R190). -/
def arrayRead (s : State) (u a n seq : Nat) : State × Got :=
  let ws := (subch s u).writes.filter fun w => decide (w.seq < seq) && decide (w.addr < a + n) && decide (a < w.addr + w.len)
  let covered (g : Nat) : Bool := ws.any fun w => (wholeOf w.addr w.len).contains g
  let s := ((granulesOf a n).filter fun g => !covered g).foldl (fun s g => checkBurst s 0 g) s
  let t := ws.foldl (fun t w => storeBytes t w.addr (w.data.getD []) w.bad) s
  let bad := badRanges t a n
  (s, { st := readStatus bad, data := memBytes t a n, bad := bad })

/-- A write put into a list in the order of acceptance. -/
def seqInsert (r : DramReq) : List DramReq → List DramReq
  | [] => [r]
  | q :: qs => if r.seq < q.seq then r :: q :: qs else q :: seqInsert r qs

/-- Memory as a read sees it: with the bytes of every write that is still buffered (R190). -/
def buffered (s : State) : State :=
  ((s.dram.sub.flatMap (·.writes)).foldl (fun l r => seqInsert r l) []).foldl (fun t w => storeBytes t w.addr (w.data.getD []) w.bad) s

/-- The granules of `n` bytes from `a` are poisoned, in the array and in the writes that are still buffered. -/
def poisonRange (s : State) (a n : Nat) : State :=
  let hit (w : DramReq) : DramReq :=
    let lo := max a w.addr
    let hi := min (a + n) (w.addr + w.len)
    if lo < hi then { w with bad := (lo - w.addr, hi - lo) :: w.bad } else w
  let s := (granulesOf a n).foldl markGranule s
  { s with dram := { s.dram with sub := s.dram.sub.map fun k =>
      if k.writes.isEmpty && k.stopped.isEmpty then k
      else { k with writes := k.writes.map hit, stopped := k.stopped.map fun w => if w.data.isSome then hit w else w } } }

/-! Refresh (R194, R195). -/

/-- One REFab: all banks are precharged and power-down is left. PRESUMED (JESD79-5): it lowers every bank's rolling activate count as RFMsb does. -/
def refab (s : State) (u : Nat) : State :=
  logCmd (updSub s u fun k => { k with banks := (k.banks.map fun e => (e.1, lowered s e.2)).filter fun e => e.2 ≠ {} }) u .refresh

/-! The queues (R190 to R192). -/

/-- A response of a controller. -/
def dramRespond (s : State) (src : Nat) (chan : Chan) (st : Nat) (data : List Byte) (bad : List (Nat × Nat)) : State :=
  { s with dram := { s.dram with resp := { src := src, chan := chan, status := st, data := data, bad := bad } :: s.dram.resp } }

/-- Draining of writes begins above WDRAIN_HI and ends at WDRAIN_LO (R190). -/
def drainState (s : State) (u : Nat) : State :=
  let n := (subch s u).writes.length
  if n > rf s (R.DMC_SCHED (u / 2)) 22 16 then updSub s u fun k => { k with draining := true }
  else if n ≤ rf s (R.DMC_SCHED (u / 2)) 30 24 then updSub s u fun k => { k with draining := false }
  else s

/-- An earlier read of a source and channel waits at the controller of subchannel `u`. -/
def readBefore (s : State) (u src : Nat) (chan : Chan) (seq : Nat) : Bool :=
  (waitingAt s u).any fun e => e.data.isNone && decide (e.src = src) && decide (e.chan = chan) && decide (e.seq < seq)

/-- A response put into a list in the order of acceptance. -/
def ackInsert (a : Nat × DramResp) : List (Nat × DramResp) → List (Nat × DramResp)
  | [] => [a]
  | b :: bs => if a.1 < b.1 then a :: b :: bs else b :: ackInsert a bs

/-- The responses that wait at the controller of subchannel `u` and that no earlier read holds back any longer are given, in the order of acceptance
(R191). -/
def releaseAcks (s : State) (u : Nat) : State :=
  let c := u / 2 * 2
  let go := ((subch s c).acks ++ (subch s (c + 1)).acks).filter fun a => !readBefore s u a.2.src a.2.chan a.1
  let s := [c, c + 1].foldl (fun s v => updSub s v fun k => { k with acks := k.acks.filter fun a => !go.contains a }) s
  (go.foldl (fun l a => ackInsert a l) []).foldl (fun s a => dramRespond s a.2.src a.2.chan a.2.status a.2.data a.2.bad) s

/-- The response to a request accepted at place `seq`: given at once, or behind the earlier reads of its source and channel (R191). -/
def respondInTurn (s : State) (u seq : Nat) (r : DramResp) : State :=
  releaseAcks (updSub s u fun k => { k with acks := k.acks ++ [(seq, r)] }) u

/-- A queue is full: 64 requests wait in it (R176). -/
def queueFull (q : List DramReq) : Bool := decide (64 ≤ q.length)

/-- A write enters the write buffer and is acknowledged, behind the earlier reads of its source and channel (R190, R191). -/
def acceptWrite (s : State) (u : Nat) (r : DramReq) : State :=
  let s := updSub s u fun k => { k with writes := k.writes ++ [r], pd := false, lastUse := s.clock }
  drainState (if r.ack then respondInTurn s u r.seq { src := r.src, chan := r.chan, status := MS.ok, data := [] } else s) u

/-- A request enters its queue. -/
def enterQueue (s : State) (u : Nat) (r : DramReq) : State :=
  if r.data.isSome then acceptWrite s u r
  else updSub s u fun k => { k with reads := k.reads ++ [r], pd := false, lastUse := s.clock }

/-- The requests that wait at the stop enter the queues as these have places, the oldest first; `n` at most. -/
def admitStopped (u : Nat) : Nat → State → State
  | 0, s => s
  | n + 1, s =>
    match (subch s u).stopped.find? fun r => !queueFull (if r.data.isSome then (subch s u).writes else (subch s u).reads) with
    | none => s
    | some r => admitStopped u n (enterQueue (updSub s u fun k => { k with stopped := k.stopped.erase r }) u r)

/-- A place in a queue has become free. -/
def placeFreed (s : State) (u : Nat) : State := admitStopped u (subch s u).stopped.length s

/-- The write at an index of the write buffer is issued to the array (R186, R190). -/
def issueWrite (s : State) (u i : Nat) (r : DramReq) : State :=
  let s := openFor s u r
  let s := updSub s u fun k => { k with writes := k.writes.eraseIdx i }
  placeFreed (drainState (storeBytes (issueCommand s u r) r.addr (r.data.getD []) r.bad) u) u

/-! Requests that one command presents and performs. DESIGN CHOICE: the controller serves such a read within the command, and a write enters the write
buffer within it. The first request of a command to a subchannel finds the retry buffer, the gap of a throttled source and the write buffer as they are,
and waits for them. Between the requests of one command time passes: the oldest entries of a full retry buffer retire, the gap after an activate of
the command passes, and a full write buffer drains. A read waits (the command has no occasion) while the subchannel's traffic is held (R195, R208,
R211, R217) and while R189 and R191 serve queued requests first. -/

/-- A read of an engine waits behind the queued requests. -/
def behindQueue (s : State) (u : Nat) (r : DramReq) : Bool :=
  (subch s u).draining || decide (((pickReq s u ((subch s u).reads ++ [r])).map (·.1)).getD (subch s u).reads.length ≠ (subch s u).reads.length)
    || !mayServe s u r

/-- The subchannel has served a request of the command in progress. -/
def metBefore (s : State) (u : Nat) : Bool := s.mortar.io.met.contains u

/-- A source may open a row of a bank: it is not throttled, its gap has passed, or the gap follows an activate of this command (R202). -/
def gapPassed (s : State) (u b src : Nat) : Bool :=
  let k := subch s u
  !k.throttled.contains src || s.mortar.io.spaced.contains (u, src * 64 + b)
    || match k.lastAct.get (src * 64 + b) with
       | none => true
       | some t => decide (4 * t + 10 * rf s (R.DMC_THROTTLE (u / 2)) 23 16 ≤ nowNs s)

/-- The read of an engine on subchannel `u`: it is served, or it waits. -/
def engineCommand (s : State) (u : Nat) (r : DramReq) : Option State :=
  let b := bankOf r.loc
  let open_ := decide ((bankAt (subch s u) b).row = some (rowOf r.loc))
  if !(subch s u).live || regionFills s r.addr || behindQueue s u r || !(open_ || gapPassed s u b r.src) || !(metBefore s u || hasRoom s u r) then none
  else
    let s := makeRoom s u (cmdsNeeded s u r) (dataHeld r)
    let s := if open_ then s else openFor (mitigateAll s u b) u r
    some (updIo (issueCommand s u r) fun i =>
      { i with met := NSet.add i.met u, spaced := if open_ then i.spaced else (u, r.src * 64 + b) :: i.spaced })

/-- The write buffer is full: the next write to issue is issued, where the subchannel is live. -/
def drainOne (s : State) (u : Nat) : Option State :=
  match pickReq s u (subch s u).writes with
  | none => none
  | some (i, r) =>
    if !(subch s u).live || !(metBefore s u || hasRoom s u r) then none
    else some (issueWrite (updIo (makeRoom s u (cmdsNeeded s u r) (dataHeld r)) fun i => { i with met := NSet.add i.met u }) u i r)

/-- The write of an engine on subchannel `u` enters the write buffer, which acknowledges it (R190), or waits: for a place, and for the earlier reads of its
source and channel (R191). -/
def engineWrite (s : State) (u : Nat) (r : DramReq) : Option State :=
  if readBefore s u r.src r.chan r.seq then none
  else
    let enter (s : State) : State := enterQueue { s with dram := { s.dram with seq := s.dram.seq + 1 } } u { r with seq := s.dram.seq }
    if queueFull (subch s u).writes then (drainOne s u).bind fun s => if queueFull (subch s u).writes then none else some (enter s)
    else some (enter s)

/-- The same of a write that nothing waits for: it stays behind those that wait at the stop. -/
def patientEnter (s : State) (u : Nat) (r : DramReq) : Option State := if (subch s u).stopped.isEmpty then engineWrite s u r else none

end Sys2Proof.Machine
end

