-- ==== Sys2Proof/Machine/HostPort.lean ====
section
/-!
DEFINITION. Machine/HostPort.lean: what guards and carries a device request to host memory: protection windows, host-memory windows, tags, error logging, and
the completions that answer a read (05 R141, R146 to R156, R164, R165).
-/
namespace Sys2Proof.Machine
open Sys2Proof

/-! Protection windows (R141). -/

/-- The entry point of a request: TLP through the VF, Hod descriptor, core Mortar request. -/
inductive Entry where
  | tlp | hod | core
deriving DecidableEq, Repr

/-- The permission an access needs. -/
inductive Perm where
  | read | write | fetch
deriving DecidableEq, Repr

/-- First and last byte of protection window `k` (R141: 4 KiB granularity, inclusive). -/
def pwinRange (s : State) (k : Nat) : Nat × Nat :=
  (rf s (R.PCI_PWIN_BASE_LO k) 31 12 * 0x1000 + rf s (R.PCI_PWIN_BASE_HI k) 15 0 * 0x100000000,
   rf s (R.PCI_PWIN_LIMIT_LO k) 31 12 * 0x1000 + rf s (R.PCI_PWIN_LIMIT_HI k) 15 0 * 0x100000000 + 0xFFF)

/-- Window `k` allows the access to the bytes `a` to `z`. -/
def pwinAllows (s : State) (k : Nat) (e : Entry) (p : Perm) (a z : Nat) : Bool :=
  let h := R.PCI_PWIN_BASE_HI k
  let r := pwinRange s k
  rb s h 16
    && rb s h (match p with | .read => 17 | .write => 18 | .fetch => 19)
    && rb s h (match e with | .tlp => 20 | .hod => 21 | .core => 22)
    && decide (r.1 ≤ a) && decide (z ≤ r.2)

/-- A request of partition `p` for `n` bytes from `a` lies whole in one window that allows it (R141). -/
def windowOk (s : State) (p : Nat) (e : Entry) (pm : Perm) (a n : Nat) : Bool :=
  (List.range 8).any fun j => pwinAllows s (8 * p + j) e pm a (a + n - 1)

/-! Host-memory windows (R146, R147). -/

/-- The function that owns host-memory window `w`. -/
def hwinFn (s : State) (w : Nat) : Nat := rf s (R.PCI_HWIN_CFG_HI w) 3 0

/-- Why a device request to host-memory window `w` is refused (R147): 9 HWIN_RANGE, 8 MASTER_OFF, 0 refused with no
capture; none where it is allowed. -/
def hwinRefusal (s : State) (w d n : Nat) : Option Nat :=
  let fn := hwinFn s w
  let f := funcOf s fn
  if s.pci.inReset then some 0
  else if !rb s (R.PCI_HWIN_CFG_HI w) 4 || decide (d + n > rf s (R.PCI_HWIN_CFG w) 30 0 * 0x1000) then some 9
  else if !f.bme || f.d3 || f.flr then some 8
  else if fn ≠ 0 ∧ !(s.pci.vfEnable && decide (fn ≤ s.pci.numVfs)) then some 8
  else none

/-- A refused device request is counted and captured (R147): MASTER_OFF with function and window, HWIN_RANGE with the window. -/
def hwinRefuse (s : State) (cause : Nat) (req : Req) (w a : Nat) : State :=
  let s := bump s R.PCI_REFUSALS 31 16 1
  if cause = 0 then s else fault s P.pci cause req ((if cause = 8 then hwinFn s w else 0) + w * 16) (some a)

/-- The host address of internal address `a` in window `w` (R146). -/
def hostAddr (s : State) (w a : Nat) : Nat :=
  rf s (R.PCI_HWIN_BASE_LO w) 31 12 * 0x1000 + rf s (R.PCI_HWIN_BASE_HI w) 31 0 * 0x100000000
    + (a - 0x800000000000 - w * 0x80000000000)

/-- Max_Payload_Size in bytes of a function, at most 512. -/
def mpsBytes (f : Func) : Nat := min 512 (128 * 2 ^ f.mps)

/-- A write of a run of bytes cut into chunks of `n`: (offset, bytes). -/
def chunks (n : Nat) : Nat → List Byte → List (Nat × List Byte)
  | 0, _ => []
  | fuel + 1, bs =>
    if bs.isEmpty then [] else (0, bs.take n) :: (chunks n fuel (bs.drop n)).map fun c => (c.1 + n, c.2)

/-- The memory writes that carry a device write to host memory (R148); `bad` marks poisoned offset ranges (R154). -/
def hostWriteTlps (s : State) (w a : Nat) (bs : List Byte) (bad : List (Nat × Nat)) (relaxed : Bool) : List HostMsg :=
  let fn := hwinFn s w
  let n := mpsBytes (funcOf s fn)
  (chunks n bs.length bs).map fun c =>
    .memWrite fn (hostAddr s w a + c.1) c.2
      (bad.any fun r => decide (r.1 < c.1 + c.2.length) && decide (c.1 < r.1 + r.2)) relaxed

/-! Error logging (R164, R165). -/

/-- The requester code of a function. -/
def fnReq (fn : Nat) : Req := if fn = 0 then .pf else .vf fn

/-- A correctable error is logged in a function (R164). -/
def logCor (s : State) (fn bitNo : Nat) : State := updFunc s fn fun f => { f with corStatus := f.corStatus ||| 2 ^ bitNo }

/-- An uncorrectable error is logged in a function (R164, R165): status bit, header log and first error pointer where none is held and the error is not
masked, Header Log Overflow where one is held, PCI.AER. PRESUMED (PCI Express Base Specification 4.0, which R164 names): what a mask keeps out. -/
def logAer (s : State) (fn bitNo : Nat) (header : List Nat) : State :=
  let f := funcOf s fn
  let seen := !bit f.uncMask bitNo
  let free := decide (f.uncStatus &&& (2 ^ 32 - 1 - f.uncMask) = 0)
  let s := updFunc s fn fun f =>
    { f with hdrLog := if seen && free then header else f.hdrLog, firstErr := if seen && free then bitNo else f.firstErr,
             uncStatus := f.uncStatus ||| 2 ^ bitNo }
  let s := if seen && !free && !header.isEmpty then logCor s fn 15 else s
  raise s P.pci 14

/-- An error met with a non-posted request or a completion: where its severity is non-fatal it is Advisory Non-Fatal too. PRESUMED (PCI Express Base
Specification 4.0, which R164 names). -/
def logAdvisory (s : State) (fn bitNo : Nat) (header : List Nat) : State :=
  let t := logAer s fn bitNo header
  if bit (funcOf s fn).uncSev bitNo then t else logCor t fn 13

/-- Poisoned TLP Received, from a write or a completion of a function (R143, R153, R165). -/
def poisonIn (s : State) (req : Req) (fn : Nat) (a : Option Nat) (hdr : List Nat) : State := logAer (fault s P.pci 5 req fn a) fn 12 hdr

/-! Device reads of host memory (R148 to R153, R796). -/

/-- The memory read requests that carry a read: at most Max_Read_Request_Size and 512 bytes, within one 512-byte block of
host address; (internal address, length). -/
def readRequests (mrrs : Nat) (off : Nat) : Nat → Nat → Nat → List (Nat × Nat)
  | 0, _, _ => []
  | fuel + 1, a, n =>
    if n = 0 then []
    else
      let k := min n (min mrrs (512 - (a + off) % 512))
      (a, k) :: readRequests mrrs off fuel (a + k) (n - k)

/-- The number of tags and the first of them (R149). -/
def tagSpace (s : State) : Nat × Nat := if (funcOf s 0).tag10 then (256, 768) else (0, 256)

/-- The lowest free tag. -/
def freeTag (s : State) : Option Nat :=
  let t := tagSpace s
  ((span t.1 t.2).find? fun k => !(s.pci.outstanding.any (·.tag = k)) && (s.pci.heldTags.get k).isNone)

/-- A request of a device read is sent with a tag. -/
def sendRead (s : State) (id fn a n tag : Nat) : State :=
  let w := (a - 0x800000000000) / 0x80000000000
  let s := sendHost s (.memRead fn tag (hostAddr s w a) n)
  let s := { s with pci := { s.pci with outstanding := s.pci.outstanding ++ [{ tag := tag, fn := fn, read := id, addr := a, len := n, addr0 := a, len0 := n }] } }
  peak s R.PCI_TAGS 25 16 s.pci.outstanding.length

/-- Of the `n` bytes of a request, what the host's next completions bring: data, poisoned ranges, completions left, the headers of completions with EP set, and the
failure: none, a completion that does not come (`some none`), a status that is not Successful. -/
structure Brought where
  data : List Byte := []
  bad : List (Nat × Nat) := []
  rest : List Cpl := []
  eps : List (List Nat) := []
  err : Option (Option Nat) := none
deriving DecidableEq, Repr

/-- The completions that answer a request of `n` bytes, in the order in which they arrive. -/
def bring : List Cpl → Nat → Brought
  | [], n => { err := if n = 0 then none else some none }
  | c :: cs, n =>
    if n = 0 then { rest := c :: cs }
    else if c.status ≠ 0 then { rest := cs, err := some (some c.status) }
    else
      let k := min n c.data.length
      let t := bring cs (n - k)
      { data := c.data.take k ++ t.data, bad := (if c.ep then [(0, k)] else []) ++ t.bad.map fun r => (r.1 + k, r.2),
        rest := t.rest, eps := (if c.ep then [c.hdr] else []) ++ t.eps, err := t.err }

/-- What the completions of a request bring, and what the endpoint makes of a failure (R152, R153, R165). Where no read times out and the completion never
comes, the request waits and its tag stays held (R796): `hold` is how. -/
def hostAnswer (s : State) (fn a0 tag n : Nat) (hold : State → State) : State × List Byte × List (Nat × Nat) :=
  let b := bring s.mortar.io.host n
  let s := updIo s fun i => { i with host := b.rest }
  let s := b.eps.foldl (fun s h => poisonIn s .hw fn (some a0) h) s
  match b.err with
  | none => (s, b.data, b.bad)
  | some none =>
    if (funcOf s 0).cplDisable then (block (hold s), [], [])
    else
      let s := fault s P.pci 3 .hw (fn + tag * 65536) (some a0)
      (raise (logAer s fn 14 []) P.pci 12, padTo n b.data, [(0, n)])
  | some (some st) => (fault s P.pci 4 .hw (fn + st % 8 * 16 + tag * 65536) (some a0), padTo n b.data, [(0, n)])

/-- One memory read request of an engine's read for the device request at `a0`: sent with the lowest free tag and answered by the host's next completions.
It waits where no tag is free (R150). -/
def hostRequest (s : State) (r : StuckRead) (a n : Nat) : State × List Byte × List (Nat × Nat) :=
  match freeTag s with
  | none => (block s, [], [])
  | some tag =>
    hostAnswer (sendRead s r.read r.fn a n tag) r.fn r.addr tag n fun s => updIo s fun i => { i with stuck := some ({ r with tag := tag }, a, n) }

/-- The requests of a device read in order. -/
def hostRequests (k : StuckRead) : List (Nat × Nat) → State → State × List Byte × List (Nat × Nat)
  | [], s => (s, [], [])
  | (a, n) :: ps, s =>
    let r := hostRequest s k a n
    let q := hostRequests k ps r.1
    (q.1, r.2.1 ++ q.2.1, r.2.2 ++ q.2.2.map fun b => (b.1 + n, b.2))

/-- A command of which a request waits for a completion that never comes leaves the request's tag held (R796). -/
def holdStuck (s : State) (x : Option (StuckRead × Nat × Nat)) : State :=
  match x with
  | none => s
  | some (r, a, n) =>
    let s := sendRead s r.read r.fn a n r.tag
    { s with pci := { s.pci with stuck := s.pci.stuck ++ [r], nextId := r.read + 1 } }

/-- A posted write of the function waits in the endpoint. -/
def writesWait (s : State) (fn : Nat) : Bool := s.pci.writes.any (·.fn = fn)

/-- A poisoned range of the `n` bytes from `a` widened to the granules that it touches (R152, R153). -/
def widen (a n : Nat) (r : Nat × Nat) : Nat × Nat :=
  let lo := (a + r.1) / 64 * 64 - a
  (lo, min n (((a + r.1 + r.2 - 1) / 64 + 1) * 64 - a) - lo)

/-- A read of `n` bytes at `a` of host-memory window `w` (R147 to R153). DESIGN CHOICE: its completions arrive within the command that makes it; it waits
behind reads that wait for a tag and behind earlier posted writes of its function (R150, R155). Where the same read has waited for a completion since an
earlier command (R796), that completion ends it, or a reset has: every granule then carries poison (R166, R170). -/
def hostRead (s : State) (req : Req) (w a n : Nat) : State × Got :=
  match s.pci.stuck.find? fun k => k.req = req && k.addr = a && k.len = n with
  | some k =>
    let t := { s with pci := { s.pci with stuck := s.pci.stuck.erase k, outstanding := s.pci.outstanding.filter (·.read ≠ k.read) } }
    if k.dead then (t, { st := MS.poison, data := List.replicate n 0, bad := [(0, n)] })
    else
      let r := hostAnswer t k.fn a k.tag n id
      (r.1, { st := readStatus r.2.2, data := padTo n r.2.1, bad := r.2.2.map (widen a n) })
  | none =>
  if (island s 1).fenced then (s, refusedGot MS.fenced n)
  else
  match hwinRefusal s w (a - 0x800000000000 - w * 0x80000000000) n with
  | some c => (hwinRefuse s c req w a, refusedGot MS.refused n)
  | none =>
    let fn := hwinFn s w
    if writesWait s fn || !s.pci.waiting.isEmpty then (block s, refusedGot MS.ok n)
    else
      let id := s.pci.nextId
      let r := hostRequests { req := req, fn := fn, addr := a, len := n, read := id, tag := 0 } (readRequests (min 512 (128 * 2 ^ (funcOf s fn).mrrs)) (hostAddr s w a - a) (n + 1) a n) s
      let s := { r.1 with pci := { r.1.pci with outstanding := r.1.pci.outstanding.filter fun o => decide (o.read ≠ id), nextId := id + 1 } }
      (s, { st := readStatus r.2.2, data := padTo n r.2.1, bad := r.2.2.map (widen a n) })

/-- A write of bytes at `a` of host-memory window `w`: it leaves as memory writes, with EP and cause POISON_OUT where it carries poison (R148, R154). DESIGN
CHOICE: the last of them leaves within the command that makes the write; it waits behind earlier posted writes of its function (R155). -/
def hostWrite (s : State) (req : Req) (w a : Nat) (bs : List Byte) (bad : List (Nat × Nat)) (relaxed : Bool) : State × Nat :=
  if (island s 1).fenced then (s, MS.fenced)
  else
  match hwinRefusal s w (a - 0x800000000000 - w * 0x80000000000) bs.length with
  | some c => (hwinRefuse s c req w a, MS.refused)
  | none =>
    let fn := hwinFn s w
    if writesWait s fn then (block s, MS.ok)
    else
      let ro := relaxed && rb s R.PCI_MASTER_CTRL 0 && (funcOf s fn).relaxed
      let s := (hostWriteTlps s w a bs bad ro).foldl sendHost s
      (if bad.isEmpty then s else fault s P.pci 6 req fn (some a), MS.ok)

end Sys2Proof.Machine
end

