-- ==== Sys2Proof/Machine/Access.lean ====
section
/-!
DEFINITION. Machine/Access.lean: the requests that engines present on Mortar and how they are performed: SRAM, DRAM, host memory, the page window and the
table window (02 R48 to R50 and R787, 03 R58, R71 to R84, R190, R215).
-/
namespace Sys2Proof.Machine
open Sys2Proof

/-! SRAM and DRAM. -/

/-- A read of `n` bytes at `a` of SRAM by the core or block that holds it: the island's status, or the bytes with POISON where a granule is poisoned
(R84, R88). -/
def localRead (s : State) (a n : Nat) : State × Got :=
  match placeStatus s a with
  | 0 =>
    let s := checkRange (wakeAt s a) 0 a n
    let bad := badRanges s a n
    (s, { st := readStatus bad, data := memBytes s a n, bad := bad })
  | st => (s, refusedGot st n)

/-- A write of bytes at `a` of SRAM by the core or block that holds it. -/
def localWrite (s : State) (a : Nat) (bs : List Byte) (bad : List (Nat × Nat)) : State × Nat :=
  match placeStatus s a with
  | 0 => (storeBytes (wakeAt s a) a bs bad, MS.ok)
  | st => (s, st)

/-- The request of an engine at its subchannel; the engine takes its answer itself. -/
def engineReq (s : State) (v : Via) (a l n : Nat) (data : Option (List Byte)) : DramReq :=
  { src := v.src, req := v.req, cls := servedClass v.chan v.cls, cls0 := servedClass v.chan v.cls, chan := v.chan, addr := a, loc := l, len := n,
    data := data, at_ := s.clock, seq := s.dram.seq, ack := false }

/-- A read of SRAM or DRAM: the destination's status, or the bytes with POISON where a granule is poisoned (R84, R88, R215). -/
def readMem (s : State) (v : Via) (a n : Nat) : State × Got :=
  match placeOf a, dramTarget s a, placeStatus s a with
  | .dram, some (u, l), 0 =>
    match engineCommand (wakeAt s a) u (engineReq s v a l n none) with
    | none => (block s, refusedGot MS.ok n)
    | some s => arrayRead s u a n s.dram.seq
  | _, _, _ => localRead s a n

/-- A write that a fenced subchannel drops is captured (R215). -/
def fencedWrite (s : State) (v : Via) (u a n : Nat) : State :=
  if (subch s u).st = .fenced then fault s (P.dmc (u / 2)) 6 v.req (u % 2 + n * 0x10000) (some a) else s

/-- A write of SRAM or DRAM: performed, or the destination's status; one that the write buffer of its subchannel takes is performed when it enters (R190),
and one to a fenced subchannel is dropped and captured (R215). -/
def writeMem (s : State) (v : Via) (a : Nat) (bs : List Byte) (bad : List (Nat × Nat)) : State × Nat :=
  match placeOf a, dramTarget s a, placeStatus s a with
  | .dram, some (u, l), 0 =>
    match engineWrite (wakeAt s a) u { engineReq s v a l bs.length (some bs) with bad := bad } with
    | none => (block s, MS.ok)
    | some s => (s, MS.ok)
  | .dram, some (u, _), st => (fencedWrite s v u a bs.length, st)
  | _, _, _ => localWrite s a bs bad

/-- A write that its source does not wait for: where the write buffer of its subchannel has no place, it waits at the stop, and what depends on its
acknowledgement waits instead. -/
def writeMemPatient (s : State) (v : Via) (a : Nat) (bs : List Byte) (bad : List (Nat × Nat)) : State × Nat :=
  match placeOf a, dramTarget s a, placeStatus s a with
  | .dram, some (u, l), 0 =>
    let r := { engineReq s v a l bs.length (some bs) with bad := bad }
    match patientEnter (wakeAt s a) u r with
    | none => (updSub { s with dram := { s.dram with seq := s.dram.seq + 1 } } u fun k => { k with stopped := k.stopped ++ [r] }, MS.ok)
    | some s => (s, MS.ok)
  | _, _, _ => writeMem s v a bs bad

/-- A write of `n` bytes at `a` that was presented waits at the stop of its subchannel. -/
def writeStops (s : State) (a n : Nat) : Bool :=
  s.dram.sub.any fun k => k.stopped.any fun r => r.data.isSome && decide (r.addr < a + n) && decide (a < r.addr + r.len)

/-- The subchannel of a DRAM address serves no request now: it is being trained, retrained or refilled, or an alert stops it (R208, R211, R217). -/
def heldUp (s : State) (a : Nat) : Bool :=
  match placeOf a, dramTarget s a, placeStatus s a with
  | .dram, some (u, _), 0 => !(subch s u).live || regionFills s a
  | _, _, _ => false

/-! The page window and the table window (R32, R48 to R50, R61, R787). -/

/-- The internal address of page-window offset `off`. -/
def regAddr (off : Nat) : Nat := 0x40000000 + off

/-- Why a page answers no access at `off`: the SYS cause, and the Mortar status of the response. -/
def pageRefusal (s : State) (off : Nat) : Option (Nat × Nat) :=
  let i := island s (islandAt (off / 0x1000))
  if (pageOf (off / 0x1000)).isNone then some (0xF4, MS.ok)
  else if i.st = .off ∨ i.initing then some (0xF5, MS.islandOff)
  else if i.fenced ∧ off % 0x1000 ≥ 0x100 then some (0xF9, MS.fenced)
  else none

/-- A table: its owning page, size and the size of the entry at a byte offset. -/
def tablePage (t : Nat) : Nat := if t = 1 then P.hod else if t = 2 then P.qry else if t = 3 then P.dpt else if t = 4 then P.sbt else P.csh

/-- The size of a table in bytes. -/
def tableSize (t : Nat) : Nat :=
  if t = 1 then 0x200000 else if t = 2 then 0x10000 else if t = 3 then 0x4200 else if t = 4 then 0x1000 else if t = 5 then 0x10000 else 0

/-- The size of the entry that holds byte `o` of a table. -/
def entrySize (t o : Nat) : Nat :=
  if t = 2 then 4 else if t = 3 then (if o < 0x4000 then 64 else 32) else if t = 4 then 16 else 32

/-- Slot and byte offset in its table of an offset of the window. -/
def slotOf (s : State) (off : Nat) : Nat × Nat × Nat :=
  let n := off / 0x400000
  (n, rf s (R.SYS_TWIN_SEL n) 7 0, rf s (R.SYS_TWIN_BASE n) 31 22 * 0x400000 + off % 0x400000)

/-- The owning page does not answer, or bank 15, which holds the contexts, is OFF or being initialised (R95): the SYS cause and the Mortar status of
the response. -/
def tableRefusal (s : State) (t : Nat) : Option (Nat × Nat) :=
  match pageRefusal s (hdr (tablePage t) 0x100) with
  | some r => some r
  | none => if t = 1 ∧ islandStatus s 18 ≠ MS.ok then some (if (island s 18).fenced then 0xF9 else 0xF5, islandStatus s 18) else none

/-- The access lies within one entry of its table and carries 4 to 64 bytes (R49, R50). -/
def inTable (t o n : Nat) : Bool :=
  decide (4 ≤ n) && decide (n ≤ 64) && decide (o + n ≤ tableSize t) && decide (o % entrySize t o + n ≤ entrySize t o)

/-- A requester may write an entry through a slot: the slot allows writes, and the entry is one that its chapter lets the requester write (R51). -/
def tableWritable (s : State) (req : Req) (k : Nat × Nat × Nat) : Bool :=
  rb s (R.SYS_TWIN_SEL k.1) 8 && (decide (k.2.1 = 1) || (decide (k.2.1 = 3) && decide (k.2.2 < 0x4000) && decide (req = .pf)))

/-- An engine's read of the page window or the table window: the answer that the windows gave (`Io.loads`), or the wish for one. -/
def windowRead (s : State) (v : Via) (a n : Nat) : State × Got :=
  match s.mortar.io.loads with
  | (st, bs) :: ls => (updIo s fun i => { i with loads := ls }, { st := st, data := padTo n bs, bad := if st = MS.poison then [(0, n)] else [] })
  | [] => (updIo s fun i => { i with want := i.want.orElse fun _ => some (v.req, a, n) }, refusedGot MS.ok n)

/-- The Mortar status with which the page window or the table window answers a write. -/
def windowStatus (s : State) (req : Req) (a n : Nat) : Nat :=
  if a < 0x41000000 then ((pageRefusal s (a - 0x40000000)).map (·.2)).getD MS.ok
  else
    let k := slotOf s (a - 0x41000000)
    if inTable k.2.1 k.2.2 n && tableWritable s req k then ((tableRefusal s k.2.1).map (·.2)).getD MS.ok else MS.ok

/-- An engine's write of the page window or the table window is made at the end of the command (`Io.posted`). -/
def windowWrite (s : State) (v : Via) (a : Nat) (bs : List Byte) (bad : List (Nat × Nat)) : State × Nat :=
  (updIo s fun i => { i with posted := i.posted ++ [(v.req, a, bs, !bad.isEmpty)] }, windowStatus s v.req a bs.length)

/-! Requests of engines: each goes through its stop, a crossing and Mortar. -/

/-- The data flits of `n` bytes (R71). -/
def dataFlits (n : Nat) : Nat := (n + 63) / 64

/-- A request that its stop refuses (R792): the MTR page captures the cause. -/
def stopRefuses (s : State) (v : Via) (cause a n : Nat) : State :=
  fault s P.mtr cause v.req ((if cause = 5 then 0 else min n 1023) + v.stop * 1024) (some a)

/-- The abandonment that meets a request to island `n` at its crossing, and whether it is the response that is abandoned (R58). -/
def abandonTo (s : State) (v : Via) (n : Nat) : Option (Nat × Nat × Bool) := s.mortar.abandon.find? fun x => x.1 = v.island && x.2.1 = n

/-- The abandonment that meets a request at `a`. -/
def abandonFor (s : State) (v : Via) (a : Nat) : Option (Nat × Nat × Bool) := (islandOfAddr s a).bind (abandonTo s v)

/-- `s` without an abandonment that has met its request. -/
def dropAbandon (s : State) (x : Nat × Nat × Bool) : State := updMortar s fun m => { m with abandon := m.abandon.erase x }

/-- A read by an engine, which its place performs. -/
def placeRead (s : State) (v : Via) (a n : Nat) : State × Got :=
  match placeOf a with
  | .host w => hostRead s v.req w a n
  | .pageWindow | .tableWindow => windowRead s v a n
  | _ => readMem s v a n

/-- A write by an engine, which its place performs. -/
def placeWrite (s : State) (v : Via) (a : Nat) (bs : List Byte) (bad : List (Nat × Nat)) (relaxed : Bool) : State × Nat :=
  match placeOf a with
  | .host w => hostWrite s v.req w a bs bad relaxed
  | .pageWindow | .tableWindow => windowWrite s v a bs bad
  | _ => writeMem s v a bs bad

/-- A read of `n` bytes at `a` on its way: refused by its stop (R792), abandoned at its crossing (R58), or performed by `f`; request and response are counted
in flits (R71). -/
def carryRead (s : State) (v : Via) (a n : Nat) (f : State → State × Got) : State × Got :=
  match injectRefusal s v.chan a n, abandonFor s v a with
  | some (st, cause), _ => (stopRefuses s v cause a n, refusedGot st n)
  | none, some x => (if x.2.2 then (f (dropAbandon s x)).1 else dropAbandon s x, refusedGot MS.islandOff n)
  | none, none =>
    let r := f (countFlits s v.chan 1)
    (countFlits r.1 v.chan (1 + dataFlits n), r.2)

/-- A write of `n` bytes at `a` on its way (R58, R71, R80, R792). -/
def carryWrite (s : State) (v : Via) (a n : Nat) (f : State → State × Nat) : State × Nat :=
  match injectRefusal s v.chan a n, abandonFor s v a with
  | some (st, cause), _ => (stopRefuses s v cause a n, st)
  | none, some x => (if x.2.2 then (f (dropAbandon s x)).1 else dropAbandon s x, MS.islandOff)
  | none, none =>
    let r := f (countFlits s v.chan (1 + dataFlits n))
    (countFlits r.1 v.chan 1, r.2)

/-- The flits of a message of `n` bytes (R71), in packets of the channel's largest size. -/
def messageFlits (c : Chan) (n : Nat) : Nat := max 1 ((n + chanBytes c - 1) / chanBytes c) + dataFlits n

/-- A message of `out` bytes to the block on island `isl`, which `f` performs, and its answer of `back` bytes; `lost` is what a Mortar status that is not OK
becomes (R58, R60, R61, R68, R71). -/
def carryCall {α : Type} (s : State) (v : Via) (isl out back : Nat) (lost : Nat → α) (f : State → State × α) : State × α :=
  match abandonTo s v isl with
  | some x => (if x.2.2 then (f (dropAbandon s x)).1 else dropAbandon s x, lost MS.islandOff)
  | none =>
    let s := countFlits (wake s isl) v.chan (messageFlits v.chan out + messageFlits v.chan back)
    if islandStatus s isl ≠ MS.ok then (s, lost (islandStatus s isl)) else f s

/-- A read by an engine. -/
def devRead (s : State) (v : Via) (a n : Nat) : State × Got := carryRead s v a n fun s => placeRead s v a n

/-- A write by an engine. -/
def devWrite (s : State) (v : Via) (a : Nat) (bs : List Byte) (bad : List (Nat × Nat)) (relaxed : Bool) : State × Nat :=
  carryWrite s v a bs.length fun s => placeWrite s v a bs bad relaxed

/-- A write that its source does not wait for; to host memory REFUSED (R7: the data paths end on the device). -/
def patientWrite (s : State) (v : Via) (a : Nat) (bs : List Byte) (bad : List (Nat × Nat)) : State × Nat :=
  match placeOf a with
  | .host _ => (s, MS.refused)
  | .dram => carryWrite s v a bs.length fun s => writeMemPatient s v a bs bad
  | _ => devWrite s v a bs bad false

/-- The offsets and lengths of the requests that cover `n` bytes from `a`: pieces at boundaries of `z` bytes. -/
def pieces (z : Nat) : Nat → Nat → Nat → List (Nat × Nat)
  | 0, _, _ => []
  | fuel + 1, a, n =>
    if n = 0 then []
    else
      let k := min n (z - a % z)
      (a, k) :: pieces z fuel (a + k) (n - k)

/-- The pieces of a range at 512-byte boundaries (R72, R140). -/
def piecesOf (a n : Nat) : List (Nat × Nat) := pieces 512 (n / 512 + 2) a n

/-- The pieces of a range on a channel; DESIGN CHOICE: on the urgent channel at 64-byte boundaries (R74). -/
def chanPieces (c : Chan) (a n : Nat) : List (Nat × Nat) := pieces (chanBytes c) (n / chanBytes c + 2) a n

/-- Reads the pieces in order, stopping at the first piece answered with neither OK nor POISON; the data are those of the pieces before. -/
def readPieces : List (Nat × Nat) → State → Via → State × Got
  | [], s, _ => (s, { st := MS.ok, data := [] })
  | (a, n) :: ps, s, v =>
    let r := devRead s v a n
    if r.2.st > 1 then (r.1, { st := r.2.st, data := [] })
    else
      let q := readPieces ps r.1 v
      (q.1, { st := if q.2.st > 1 then q.2.st else max r.2.st q.2.st, data := r.2.data ++ q.2.data,
              bad := r.2.bad ++ q.2.bad.map fun b => (b.1 + n, b.2) })

/-- A read of any length by a device engine. -/
def readRange (s : State) (v : Via) (a n : Nat) : State × Got := readPieces (chanPieces v.chan a n) s v

/-- The part of poisoned ranges that lies in the `n` bytes from offset `o`. -/
def rangesIn (bad : List (Nat × Nat)) (o n : Nat) : List (Nat × Nat) :=
  (bad.filter fun r => decide (r.1 < o + n) && decide (o < r.1 + r.2)).map fun r => (max r.1 o - o, min (r.1 + r.2) (o + n) - max r.1 o)

/-- Writes the pieces in order, stopping at the first that fails; the status, and the address of the failed piece. -/
def writePieces : List (Nat × Nat) → State → Via → Nat → List Byte → List (Nat × Nat) → State × Nat × Nat
  | [], s, _, a0, _, _ => (s, MS.ok, a0)
  | (a, n) :: ps, s, v, a0, bs, bad =>
    let r := devWrite s v a ((bs.drop (a - a0)).take n) (rangesIn bad (a - a0) n) (v.cls = some 3)
    if r.2 ≠ MS.ok then (r.1, r.2, a) else writePieces ps r.1 v a0 bs bad

/-- A write of any length by a device engine. -/
def writeRange (s : State) (v : Via) (a : Nat) (bs : List Byte) (bad : List (Nat × Nat)) : State × Nat :=
  let r := writePieces (chanPieces v.chan a bs.length) s v a bs bad
  (r.1, r.2.1)

/-- The pieces of a write that is not held up. -/
def patientPieces : List (Nat × Nat) → State → Via → Nat → List Byte → List (Nat × Nat) → State × Nat
  | [], s, _, _, _, _ => (s, MS.ok)
  | (a, n) :: ps, s, v, a0, bs, bad =>
    let r := patientWrite s v a ((bs.drop (a - a0)).take n) (rangesIn bad (a - a0) n)
    if r.2 ≠ MS.ok then r else patientPieces ps r.1 v a0 bs bad

/-- A write of any length of SRAM or DRAM that is not held up: data whose source cannot wait. -/
def patientRange (s : State) (v : Via) (a : Nat) (bs : List Byte) (bad : List (Nat × Nat)) : State × Nat :=
  patientPieces (chanPieces v.chan a bs.length) s v a bs bad

/-- An address that is not host memory: the data paths of the media engines end on the device (R7). -/
def onDevice (a : Nat) : Bool := match placeOf a with | .host _ => false | _ => true

/-- A read by a media engine: REFUSED where the range reaches host memory (R7); elsewhere as any request, the windows and the unmapped addresses included
(R83, R790). -/
def mediaRead (s : State) (v : Via) (a n : Nat) : State × Got :=
  if onDevice a && onDevice (a + (n - 1)) then readRange s v a n else (s, refusedGot MS.refused n)

/-- A write by a media engine, likewise. -/
def mediaWrite (s : State) (v : Via) (a : Nat) (bs : List Byte) (bad : List (Nat × Nat)) : State × Nat :=
  if onDevice a && onDevice (a + (bs.length - 1)) then writeRange s v a bs bad else (s, MS.refused)

end Sys2Proof.Machine
end

