-- ==== Sys2Proof/Machine/TimeBase.lean ====
section
/-!
DEFINITION. Machine/TimeBase.lean: the time base of AON (09 R294 to R296), the passing of one AON cycle, and the drawing of
free values.
-/
namespace Sys2Proof.Machine
open Sys2Proof

/-- A fresh value of `w` bits that the spec leaves open. -/
def fresh (s : State) (w : Nat) : State × Nat :=
  ({ s with drawn := s.drawn + 1 }, Config.freeValue s.drawn % 2 ^ w)

/-- A fault whose FAULT_INFO no chapter gives: it is a free value. -/
def faultOpen (s : State) (pg cause : Nat) (req : Req) : State :=
  let r := fresh s 32
  fault r.1 pg cause req r.2 none

/-- The time base in nanoseconds, 64 bits. -/
def tbNs (s : State) : Nat := (s.tb.acc / 1000000000) % 2 ^ 64

/-- What one AON cycle adds to the time base in units of 10^-9 ns: 4 × (1 + RATE × 10^-9) ns and at most 100 ppm of slew. -/
def tbStride (s : State) : Int := 4 * (1000000000 + sx 32 (rd s R.AON_TB_RATE).toNat)

/-- The slew that one AON cycle applies: at most 100 ppm of 4 ns. -/
def slewPart (x : Int) : Int := if x > 400000 then 400000 else if x < -400000 then -400000 else x

/-- Any CSI or ETH entry has EN at 1 (R295). -/
def streamEnabled (s : State) : Bool :=
  (List.range 8).any (fun p => (List.range 16).any fun v => rb s (R.CSI_VC_CTRL p v) 0)
    || (List.range 2).any (fun m => (List.range 36).any fun e => rb s (R.ETH_STR_CTRL m e) 0)

/-- A write of AON_TB_STEP_HI (R295): the time base takes {HI, LO}, or TB_STEP_REFUSED. -/
def tbStep (s : State) (req : Req) (v : Nat) : State :=
  if streamEnabled s then faultOpen s P.aon 0x10 req
  else { s with tb := { s.tb with acc := (v * 2 ^ 32 + s.tb.stepLo) * 1000000000 } }

/-- A write of AON_TB_SLEW (R295, R296). -/
def tbSlew (s : State) (v : Nat) : State :=
  { s with tb := { s.tb with slew := sx 32 v * 1000000000, last := s.clock } }

/-- A write of AON_TB_RATE restarts the holdover count and AGE_MS (R296); the register itself holds the rate. -/
def tbRate (s : State) : State := { s with tb := { s.tb with last := s.clock } }

/-- A write of AON_TB_SERVO.LOCKED (R296): entering LOCKED raises AON.TB_LOCKED. -/
def tbLocked (s : State) : State :=
  if s.tb.state = 1 then s
  else raise { s with tb := { s.tb with state := 1 } } P.aon 12

/-- TB_HOLDOVER (R296): the servo was silent for TIMEOUT × 100 ms in LOCKED. -/
def execTbHoldover (s : State) : Host.Outcome State Fault Refusal :=
  if s.tb.state = 1 then .next (raise { s with tb := { s.tb with state := 2 } } P.aon 11) else .next s

/-- AGE_MS of AON_TB_STATUS: milliseconds since the last RATE or SLEW write, saturating. -/
def tbAge (s : State) : Nat := min (2 ^ 24 - 1) (4 * (s.clock - s.tb.last) / 1000000)

end Sys2Proof.Machine
end

