-- ==== Sys2Proof/Machine/Hod.lean ====
section
/-!
DEFINITION. Machine/Hod.lean: queue contexts, pushes, pops, doorbells, queue events and the copy engine (07).
-/
namespace Sys2Proof.Machine
open Sys2Proof

/-! Queue contexts (R221 to R224): a context is one number of 256 bits. -/

/-- The address of the context of queue `q` (R221). -/
def ctxAddr (q : Nat) : Nat := 0x0FE00000 + 32 * q

/-- Field [hi:lo] of word `w` of a context. -/
def cf (c w hi lo : Nat) : Nat := bits c (32 * w + hi) (32 * w + lo)

/-- `c` with field [hi:lo] of word `w` set to `x`. -/
def cput (c w hi lo x : Nat) : Nat := putBits c (32 * w + hi) (32 * w + lo) x

abbrev ctxBase (c : Nat) : Nat := cf c 0 31 6 * 64 + cf c 1 15 0 * 2 ^ 32
abbrev ctxLog2 (c : Nat) : Nat := cf c 1 20 16
abbrev ctxCap (c : Nat) : Nat := 2 ^ max 3 (min 16 (ctxLog2 c))
abbrev ctxPart (c : Nat) : Nat := cf c 1 26 24
abbrev ctxUrgent (c : Nat) : Bool := bit c 60
abbrev ctxBulk (c : Nat) : Bool := bit c 61
abbrev ctxRecord (c : Nat) : Bool := bit c 62
abbrev ctxEn (c : Nat) : Bool := bit c 63
abbrev ctxHead (c : Nat) : Nat := cf c 2 15 0
abbrev ctxTail (c : Nat) : Nat := cf c 2 31 16
abbrev ctxDepth (c : Nat) : Nat := cf c 3 16 0
abbrev ctxSlot (c : Nat) : Nat := cf c 3 31 24
abbrev ctxResv (c : Nat) : Nat := cf c 4 16 0
abbrev ctxProd (c : Nat) : Nat := cf c 4 18 17
abbrev ctxCons (c : Nat) : Nat := cf c 4 20 19
abbrev ctxState (c : Nat) : Nat := cf c 4 22 21
abbrev ctxSeq (c : Nat) : Nat := cf c 7 31 0

/-- Bank 15, which holds the contexts, takes a write: it is neither OFF nor being initialised (R95), nor fenced. -/
def ctxBankUp (s : State) : Bool := decide (islandStatus s 18 = MS.ok)

/-- `s` with the context of `q` stored, where its bank takes the write; the on-die copy of an enabled urgent queue follows (R223). -/
def putCtx (s : State) (q c : Nat) : State :=
  let s := if ctxBankUp s then
      setBytes { s with eccErr := s.eccErr.filter fun e => !(decide (ctxAddr q / 8 ≤ e.1) && decide (e.1 < ctxAddr q / 8 + 4)) } (ctxAddr q) (leBytes 32 c)
    else s
  { s with hod := { s.hod with
      cache := if ctxEn c && ctxUrgent c then SMap.set s.hod.cache q c else SMap.del s.hod.cache q } }

/-- The context as stored, with no check of it. -/
def peekCtx (s : State) (q : Nat) : Nat :=
  (s.hod.cache.get q).getD (ofLe (memBytes s (ctxAddr q) 32))

/-- A queue is set DETACHED with a CAUSE (R226, R235, R236); its reserved entries never commit. -/
def detach (s : State) (q cause : Nat) : State :=
  let c := peekCtx s q
  let s := putCtx s q (cput (cput c 4 22 21 2) 4 31 24 cause)
  let s := { s with hod := { s.hod with inflight := s.hod.inflight.filter (·.queue ≠ q) } }
  let s := setReg s R.HOD_LAST_DETACHED (BitVec.ofNat 32 (q % 65536 + cause * 65536))
  raise s P.hod 8

/-- A context read by Hod: an uncorrectable error detaches the queue (R236). The granule, which holds two contexts, stays poisoned until it is
written whole (R91); a detached queue's is captured where the error is new. -/
def readCtx (s : State) (q : Nat) : State × Nat :=
  match s.hod.cache.get q with
  | some c => (s, c)
  | none =>
    let old := poisoned s (ctxAddr q / 64)
    let s := checkRange s 0 (ctxAddr q) 32
    let s := if poisoned s (ctxAddr q / 64) && (!old || decide (ctxState (peekCtx s q) ≠ 2)) then
        let s := detach s q 2
        raise (hwFault s P.hod 0x0C q) P.hod 10
      else s
    (s, peekCtx s q)

/-! Partition events (17 Register page). -/

/-- `s` with the dispatcher changed. -/
def updDpt (s : State) (f : Dispatcher → Dispatcher) : State := { s with dpt := f s.dpt }

/-- A partition event (0 STATE, 1 MISS, 2 CAL_DRIFT, 3 LOAD): its bit, and the VF's vector when the summary rises. -/
def partEvent (s : State) (p b : Nat) : State :=
  let v := nth s.dpt.views p {}
  if bit v.evt b then s
  else
    let e := putBit v.evt b true
    let s := updDpt s fun d => { d with views := updAt d.views p fun v => { v with evt := e } }
    if (v.evt &&& v.evtEn) = 0 ∧ (e &&& v.evtEn) ≠ 0 then sendMsix s (p + 1) v.vector else s

/-! Queue events (R240, R251). -/

/-- One event of a queue occurs: its pending bit, its message and its record. -/
def queueEvent (s : State) (q b : Nat) : State :=
  let c := peekCtx s q
  if bit c (32 * 6 + 8 + b) then s
  else
    let s := putCtx s q (putBit c (32 * 6 + 8 + b) true)
    let s :=
      if !bit c (32 * 6 + b) then s
      else match cf c 6 14 13 with
        | 1 => sendMsix s 0 (cf c 6 26 16)
        | 2 => sendMsix s (ctxPart c + 1) (cf c 6 21 16)
        | _ => s
    if bit c (32 * 6 + 15) then
      toRecorder s { code := 0xA000 + b, origin := P.hod, detail := 2, queueEv := true,
                     params := [q + b * 65536, ctxDepth c, ctxSeq c, 0] }
    else s

/-- The events of a cycle, from the depth before it and after it (R240). -/
def queueEvents (s : State) (q d0 d1 : Nat) (refused : Bool) : State :=
  let c := peekCtx s q
  let high := cf c 5 15 0
  let low := cf c 5 31 16
  let es := (if d0 = 0 ∧ d1 ≥ 1 then [0] else []) ++ (if d0 ≥ 1 ∧ d1 = 0 then [1] else [])
    ++ (if high ≠ 0 ∧ d0 < high ∧ high ≤ d1 then [2] else []) ++ (if d0 > low ∧ d1 ≤ low then [3] else [])
    ++ (if refused then [4] else [])
  es.foldl (fun s b => queueEvent s q b) s

/-! Table window writes of a context (R225 to R227, R30). -/

/-- The bits of a context that are reserved. -/
def ctxReserved : Nat :=
  0x3F + 2 ^ 32 * (0x08E00000 + 2 ^ 64 * 0x00FE0000 + 2 ^ 96 * 0x00800000 + 2 ^ 160 * 0xF80000E0)

/-- The bits of a context that hold RO fields (R224). -/
def ctxRo : Nat :=
  2 ^ 64 * 0xFFFFFFFF + 2 ^ 96 * 0x0001FFFF + 2 ^ 128 * 0xFF61FFFF

/-- The partition of a requester: of a core its page's, of a VF its own; none for the PF, Fypajo, the boot ROM and the
device's own blocks, which are bound to none. -/
def reqPart (s : State) (r : Req) : Option Nat :=
  match r with
  | .vf v => some (v - 1)
  | .core n => some (rf s (R.ASH_MODE n) 2 0)
  | _ => none

/-- The ring of a context lies in one HOD window of its partition with the permissions that PROD and CONS need (R226): a
device or trigger producer writes the ring, a consumer other than the host reads it. -/
def ringOk (s : State) (c : Nat) : Bool :=
  let n := 64 * ctxCap c
  let need (p : Perm) (k : Nat) := pwinAllows s k .hod p (ctxBase c) (ctxBase c + n - 1)
  (List.range 8).any fun j =>
    let k := 8 * ctxPart c + j
    (ctxProd c = 0 || need .write k) && (ctxCons c = 0 || need .read k)
      && (ctxProd c ≠ 0 || ctxCons c ≠ 0 || need .read k || need .write k)

/-- The pushes of a queue in flight. -/
def pushesOf (s : State) (q : Nat) : List Push := s.hod.inflight.filter (·.queue = q)

/-- EN goes from 1 to 0 (R227): DISABLED at once where no ring write is in flight. -/
def disableQueue (s : State) (q c : Nat) : State :=
  if (pushesOf s q).isEmpty then putCtx s q (cput c 4 22 21 0) else putCtx s q c

/-- Another enabled urgent queue holds the urgent slot of context `c` of queue `q`. -/
def slotHeld (s : State) (q c : Nat) : Bool := ctxUrgent c && s.hod.cache.any fun e => e.1 ≠ q && ctxSlot e.2 = ctxSlot c

/-- EN is written 1 (R226): `c` is the context as written. The slot check governs where both fail. DESIGN CHOICE: a queue that was enabled and whose new
slot is held by another is disabled, as by a write of EN 0. -/
def enableQueue (s : State) (req : Req) (q c : Nat) : State :=
  if slotHeld s q c then fault (disableQueue s q (putBit c 63 false)) P.hod 4 req (q + ctxSlot c * 65536) none
  else if ringOk s c then putCtx s q (cput (cput c 4 22 21 1) 4 31 24 0)
  else detach (putCtx s q c) q 1

/-- A write of `bs` at byte `o` of the context of queue `q` (R225). DESIGN CHOICE: a write that gives an enabled urgent queue the slot of another without
touching EN is dropped (R241). -/
def ctxWrite (s : State) (req : Req) (q o : Nat) (bs : List Byte) : State :=
  let r := readCtx s q
  let s := r.1
  let c := r.2
  let new := ofLe (putBytes (leBytes 32 c) o bs)
  let reach := (2 ^ (8 * bs.length) - 1) * 2 ^ (8 * o)
  let hit (w hi lo : Nat) : Bool := decide (cf reach w hi lo ≠ 0)
  let badValue := decide (new &&& reach &&& ctxReserved ≠ 0)
    || (hit 1 20 16 && (decide (ctxLog2 new < 3) || decide (ctxLog2 new > 16)))
    || (hit 4 18 17 && decide (ctxProd new = 3)) || (hit 4 22 21 && decide (ctxState new = 3))
    || ((hit 6 14 13 || hit 6 26 16) && (decide (cf new 6 14 13 = 3) || (decide (cf new 6 14 13 = 2) && decide (cf new 6 26 22 ≠ 0))))
  let busy := ctxEn c || !(pushesOf s q).isEmpty
  if badValue then fault s P.hod 0xF0 req (ofLe (bs.take 4)) none
  else if busy && decide ((new ^^^ c) &&& ctxRo ≠ 0) then fault s P.hod 3 req q none
  else if ctxEn c && ctxEn new && !hit 1 31 31 && hit 3 31 24 && slotHeld s q new then
    fault s P.hod 4 req (q + ctxSlot new * 65536) none
  else
    let pend := cf c 6 12 8 &&& (31 ^^^ (cf new 6 12 8 &&& cf reach 6 12 8))
    let new := cput new 6 12 8 pend
    if ctxEn new && (!ctxEn c || hit 1 31 31) then enableQueue s req q new
    else if ctxEn c && !ctxEn new then disableQueue s q new
    else putCtx s q new

/-- A write of word W1 of a context through the table, where the table answers (R49, R95). -/
def writeW1 (s : State) (req : Req) (q w : Nat) : State :=
  match tableRefusal s 1 with
  | some (cause, _) => fault s P.sys cause req w none
  | none => ctxWrite s req q 4 (leBytes 4 w)

/-- QUEUE_ENABLE (R226): word W1 is written with EN 1. -/
def execQueueEnable (req : Req) (queue : Nat) (w1 : W32) (s : State) : Host.Outcome State Fault Refusal :=
  .next (writeW1 s req (queue % 65536) (putBit w1.toNat 31 true))

/-- QUEUE_DISABLE (R227): word W1 is written with EN 0. -/
def execQueueDisable (req : Req) (queue : Nat) (w1 : W32) (s : State) : Host.Outcome State Fault Refusal :=
  .next (writeW1 s req (queue % 65536) (putBit w1.toNat 31 false))

/-! Pushes and pops (R228 to R240). -/

/-- The statuses of R233. -/
abbrev HS.ok : Nat := 0
abbrev HS.empty : Nat := 1
abbrev HS.full : Nat := 2
abbrev HS.disabled : Nat := 3
abbrev HS.detached : Nat := 4
abbrev HS.role : Nat := 5
abbrev HS.notOwner : Nat := 6
abbrev HS.poison : Nat := 7
abbrev HS.count : Nat := 8

/-- The answer of an operation, as its issuer receives it, with the poisoned offset ranges of the entries (R89). -/
def answer (s : State) (st : Nat) (es : List Byte) (bad : List (Nat × Nat)) : State :=
  { s with hod := { s.hod with status := st, popped := es, poppedBad := bad } }

/-- A queue is held by another partition than the requester's. -/
def otherPart (s : State) (req : Req) (c : Nat) : Bool :=
  match reqPart s req with
  | some p => decide (p ≠ ctxPart c)
  | none => false

/-- Hod takes no operation: not enabled, quiesced, or its context table does not answer: bank 15 is fenced, OFF or being initialised (R95, 24 R726). -/
def hodStops (s : State) : Bool := !accepts s P.hod || decide (islandStatus s 18 ≠ MS.ok)

/-- The checks that precede an operation (R227, R233, R234): a status that refuses it, or none. -/
def opCheck (s : State) (req : Req) (q c : Nat) (roleOk countOk : Bool) (n : Nat) : State × Nat :=
  if hodStops s || !ctxEn c then (s, HS.disabled)
  else if ctxState c = 2 then (s, HS.detached)
  else if otherPart s req c then (fault s P.hod 5 req q none, HS.notOwner)
  else if !roleOk then (fault s P.hod 6 req q none, HS.role)
  else if !countOk then (fault s P.hod 7 req (q + min n 511 * 65536) none, HS.count)
  else (s, HS.ok)

/-- The time of an urgent admission in FAB cycles (R245). -/
def urgentTime (s : State) (q c cycles : Nat) : State :=
  if !ctxUrgent c then s
  else
    let s := if cycles > rf s R.HOD_URGENT_PEAK 7 0 then
        wf (wf s R.HOD_URGENT_PEAK 7 0 (min cycles 255)) R.HOD_URGENT_PEAK 15 8 (ctxSlot c) else s
    if cycles > 24 then raise (hwFault s P.hod 0x0D (q + min cycles 255 * 65536)) P.hod 11 else s

/-- The time of an urgent admission that no command measures: a free value. -/
def urgentFree (s : State) (q c : Nat) : State :=
  if !ctxUrgent c then s
  else
    let r := fresh s 8
    urgentTime r.1 q c r.2

/-- A push of `n` entries already in the ring is admitted and committed, or refused as FULL (R228, R230), with a pop of
`m` entries performed in the same cycle (R238); `m` is at most DEPTH. -/
def hodCycle (s : State) (q n m : Nat) : State × Nat :=
  let c := peekCtx s q
  let d := ctxDepth c
  let full := decide (d + ctxResv c + n > ctxCap c)
  let k := if full then 0 else n
  let c1 := cput c 2 31 16 ((ctxTail c + k) % ctxCap c)
  let c2 := cput c1 2 15 0 ((ctxHead c + m) % ctxCap c)
  let s := putCtx s q (cput c2 3 16 0 (d + k - m))
  let s := if full then bump s R.HOD_REFUSED 31 0 1 else if n = 0 then s else bump s R.HOD_PUSHES 31 0 1
  let s := if m = 0 then s else bump s R.HOD_POPS 31 0 1
  (queueEvents s q d (d + k - m) full, if full then HS.full else HS.ok)

/-- The oldest admitted push of a queue commits (R229), with a pop of `m` entries in the same cycle (R239). -/
def commitCycle (s : State) (q m : Nat) : State :=
  let s := (readCtx s q).1
  match pushesOf s q with
  | [] => (hodCycle s q 0 m).1
  | p :: _ =>
    let c := peekCtx s q
    let d := ctxDepth c
    let c1 := cput c 4 16 0 (ctxResv c - p.count)
    let c2 := cput c1 2 15 0 ((ctxHead c + m) % ctxCap c)
    let s := putCtx s q (cput c2 3 16 0 (d + p.count - m))
    let s := { s with hod := { s.hod with inflight := s.hod.inflight.erase p } }
    let s := bump s R.HOD_PUSHES 31 0 1
    let s := if m = 0 then s else bump s R.HOD_POPS 31 0 1
    queueEvents s q d (d + p.count - m) false

/-! Ring accesses (R235, R237). -/

/-- How Hod's accesses to the ring of a queue travel (R237). -/
def ringVia (c : Nat) : Via :=
  { req := .hw, stop := 20, port := 0, chan := if ctxUrgent c then .urgent else if ctxBulk c then .bulk else .normal }

/-- How the copy traffic of a submission queue travels (R75, R224). -/
def copyVia (c : Nat) : Via := { ringVia c with chan := if !ctxUrgent c && ctxBulk c then .bulk else .normal }

/-- The CAUSE and the capture of a ring access that failed (R235): REFUSED becomes WINDOW, the others follow R84. -/
def ringFailed (s : State) (q st : Nat) : State :=
  let cause := if st = MS.refused then 1 else st + 1
  let s := detach s q cause
  hwFault s P.hod 2 (q + cause * 65536)

/-- The address of ring entry `i` (taken modulo the capacity). -/
def ringAddr (c i : Nat) : Nat := ctxBase c + 64 * (i % ctxCap c)

/-- A ring entry is written: one that finds no place in the write buffer of its subchannel waits at the stop, one for host memory leaves behind the writes
that wait, and its push commits once it is acknowledged. -/
def ringWrite (s : State) (q a : Nat) (e : List Byte) (bad : Bool) : State × Nat :=
  let v := ringVia (peekCtx s q)
  let marks := if bad then [(0, 64)] else []
  match placeOf a with
  | .host w =>
    let fn := hwinFn s w
    if writesWait s fn && (hwinRefusal s w (a - 0x800000000000 - w * 0x80000000000) 64).isNone && !(island s 1).fenced then
      ({ s with pci := { s.pci with writes := s.pci.writes ++
        [{ id := none, req := .hw, fn := fn, addr := a, tlps := hostWriteTlps s w a e marks false, queue := some q }] } }, MS.ok)
    else devWrite s v a e marks false
  | _ => patientWrite s v a e marks

/-- Ring writes in the order given: (index, bytes, poisoned). -/
def ringWrites : List (Nat × List Byte × Bool) → State → Nat → State
  | [], s, _ => s
  | (i, e, b) :: es, s, q =>
    let r := ringWrite s q (ringAddr (peekCtx s q) i) (padTo 64 e) b
    if r.2 ≠ MS.ok then ringFailed r.1 q r.2 else ringWrites es r.1 q

/-- A ring write of the oldest push of a queue has not been acknowledged: it waits in the endpoint, or at the stop of its subchannel. -/
def pushWaits (s : State) (q : Nat) : Bool :=
  let c := peekCtx s q
  s.pci.writes.any (fun w => w.queue = some q) || (span (ctxTail c + ctxCap c - ctxResv c) (((pushesOf s q).head?.map (·.count)).getD 0)).any fun i =>
    writeStops s (ringAddr c i) 64

/-- The context of a queue can be read and written: its on-die copy, or bank 15 (R95, R223). -/
def ctxReach (s : State) (q : Nat) : Bool := ctxBankUp s || (s.hod.cache.get q).isSome

/-- N of a device push is in range: 1 to 16 entries, which hold the record of a record queue (R228, R259 to R262). -/
def pushCountOk (c : Nat) (es : List (List Byte)) : Bool :=
  let n := es.length
  let len := field (padTo 64 (es.headD [])) 24 2
  decide (1 ≤ n) && decide (n ≤ 16) && !(ctxRecord c && (decide (n * 64 < 32 + len) || decide (len > 992)))

/-- The checks of a device push (R227, R233, R234). -/
def pushCheck (s : State) (req : Req) (q c : Nat) (es : List (List Byte)) : State × Nat :=
  opCheck s req q c (decide (ctxProd c = 1)) (pushCountOk c es) es.length

/-- The entries of a push on a record queue carry their number and the sequence number of the record (R260). -/
def stampEntries (c : Nat) (seq : Nat) (es : List (List Byte)) : List (List Byte) :=
  if ctxRecord c then
    es.modify 0 fun e => putBytes (putBytes (padTo 64 e) 26 [BitVec.ofNat 8 es.length]) 28 (leBytes 4 (seq % 2 ^ 32))
  else es

/-- Pushes that carry data are admitted together (R228, R229, R242): their entries are reserved, written in reverse ring order, and left to commit; or all
are refused. -/
def admitPushes (s : State) (q : Nat) (ps : List (List (List Byte) × List Nat)) : State × Nat :=
  let c := peekCtx s q
  let n := (ps.map (·.1.length)).sum
  if ctxDepth c + ctxResv c + n > ctxCap c then
    (queueEvents (bump s R.HOD_REFUSED 31 0 1) q (ctxDepth c) (ctxDepth c) true, HS.full)
  else
    let c1 := cput (cput c 4 16 0 (ctxResv c + n)) 2 31 16 ((ctxTail c + n) % ctxCap c)
    let c2 := if ctxRecord c then cput c1 7 31 0 (ctxSeq c + ps.length) else c1
    let s := putCtx s q c2
    let s := { s with hod := { s.hod with inflight := s.hod.inflight ++ [⟨q, n⟩] } }
    let es := ps.zipIdx.flatMap fun p => (stampEntries c (ctxSeq c + p.2) p.1.1).zipIdx.map fun e => (e.1, p.1.2.contains e.2)
    let ws := es.zipIdx.map fun e => (ctxTail c + e.2, e.1.1, e.1.2)
    (ringWrites ws.reverse s q, HS.ok)

/-! The urgent lane (R241, R242): one operation may wait in each slot. -/

/-- `s` with the operations that wait in the urgent slots changed. -/
def updSlots (s : State) (f : SMap SlotPush → SMap SlotPush) : State := { s with hod := { s.hod with slots := f s.hod.slots } }

/-- The push that waits in the slot of queue `q` of context `c`. -/
def heldPush (s : State) (q c : Nat) : SlotPush :=
  if !ctxUrgent c then { queue := q }
  else match s.hod.slots.get (ctxSlot c) with | some p => if p.queue = q then p else { queue := q } | none => { queue := q }

/-- A push of `n` entries that lie in the ring, or the device pushes `ps`, wait in the slot of queue `q`, merged with what waits there (R242). -/
def holdPush (s : State) (q c n : Nat) (ps : List (Req × List (List Byte) × List Nat)) : State :=
  let h := heldPush s q c
  updSlots s fun m => SMap.set m (ctxSlot c) { queue := q, count := h.count + n, pushes := h.pushes ++ ps }

/-- `s` without the push that waits in the slot of queue `q`: its admission takes it. -/
def dropHeld (s : State) (q c : Nat) : State :=
  if ctxUrgent c && (s.hod.slots.get (ctxSlot c)).any (fun p => p.queue = q) then updSlots s (·.del (ctxSlot c)) else s

/-- The device pushes that wait, as they are admitted. -/
def heldData (h : SlotPush) : List (List (List Byte) × List Nat) := h.pushes.map (·.2)

/-- The operation that waits in a slot is admitted; its issuer has its answer then. -/
def admitSlot (s : State) (slot : Nat) : State :=
  match s.hod.slots.get slot with
  | none => s
  | some p =>
    if !ctxReach s p.queue then s
    else
      let s := updSlots s (·.del slot)
      let c := peekCtx s p.queue
      if ctxEn c && decide (ctxState c = 1) then
        let t := if p.pushes.isEmpty then hodCycle s p.queue p.count 0 else admitPushes s p.queue (heldData p)
        let u := if t.2 = HS.ok then urgentFree t.1 p.queue c else t.1
        if p.pushes.isEmpty then u else answer u t.2 [] []
      else if p.pushes.isEmpty then s else answer s (if ctxEn c then HS.detached else HS.disabled) [] []

/-- Urgent operations that wait go before an operation on a queue: every one before a normal queue, those of lower slots before an urgent one (R241). -/
def urgentFirst (s : State) (c : Nat) : State :=
  ((s.hod.slots.map (·.1)).filter fun k => decide (!ctxUrgent c ∨ k < ctxSlot c)).foldl admitSlot s

/-- Hod admits an operation on a queue: its context is read, and the urgent operations that go first are admitted. -/
def takeQueue (s : State) (q : Nat) : State × Nat :=
  let r := readCtx s q
  let s := urgentFirst r.1 r.2
  (s, peekCtx s q)

/-- A device push that carries data (R228, R229, R259 to R262), with the device pushes that wait in its queue's urgent slot (R242). -/
def devPush (s : State) (req : Req) (q : Nat) (es : List (List Byte)) (bad : List Nat) : State × Nat :=
  let r := takeQueue s q
  let k := pushCheck r.1 req q r.2 es
  if k.2 ≠ HS.ok then k else admitPushes (dropHeld k.1 q r.2) q (heldData (heldPush k.1 q r.2) ++ [(es, bad)])

/-- A device push whose time of admission no command measures (R245). -/
def devPushFree (s : State) (q : Nat) (e : List Byte) : State × Nat :=
  let r := devPush s .hw q [e] []
  (if r.2 = HS.ok then urgentFree r.1 q (peekCtx r.1 q) else r.1, r.2)

/-- A trigger push of `n` pushes of one entry, merged with those that wait in the queue's slot (R230, R242). -/
def trigPush (s : State) (q n cycles : Nat) : State × Nat :=
  let r := takeQueue s q
  let k := opCheck r.1 .hw q r.2 (decide (ctxProd r.2 = 2)) true n
  if k.2 ≠ HS.ok then k
  else
    let t := hodCycle (dropHeld k.1 q r.2) q (n + (heldPush k.1 q r.2).count) 0
    (if t.2 = HS.ok then urgentTime t.1 q r.2 cycles else t.1, t.2)

/-- The ring entry at `a` is read by Hod; a failure detaches the queue. -/
def ringRead (s : State) (q a : Nat) : State × Got :=
  let r := devRead s (ringVia (peekCtx s q)) a 64
  if r.2.st > 1 then (ringFailed r.1 q r.2.st, r.2) else r

/-- What the entry `r` and the entries `t` after it give together. -/
def joinGot (r t : Got) (n : Nat) : Got :=
  { st := if t.st > 1 then t.st else max r.st t.st, data := r.data ++ t.data, bad := r.bad ++ t.bad.map fun b => (b.1 + n, b.2) }

/-- The entries of a ring from `i` on, `n` of them: read by Hod; the first status that fails, or POISON. -/
def ringReads : Nat → State → Nat → Nat → State × Got
  | 0, s, _, _ => (s, { st := MS.ok, data := [] })
  | n + 1, s, q, i =>
    let r := ringRead s q (ringAddr (peekCtx s q) i)
    if r.2.st > 1 then r
    else
      let t := ringReads n r.1 q (i + 1)
      (t.1, joinGot r.2 t.2 64)

/-- ACK clears pending events. -/
def ackQueue (s : State) (q ack : Nat) : State :=
  let c := peekCtx s q
  if ack % 32 = 0 then s else putCtx s q (cput c 6 12 8 (cf c 6 12 8 &&& (31 ^^^ ack % 32)))

/-- The push half of a doorbell (R247, R248, R250), with a pop of `m` entries performed in the same cycle: refusals change nothing but their
captures. -/
def doorbellPush (s : State) (req : Req) (q c n m cycles : Nat) : State :=
  let alone (s : State) : State := if m = 0 then s else (hodCycle s q 0 m).1
  if !ctxEn c || hodStops s then alone (fault s P.hod 9 req q none)
  else if n = 0 ∨ ctxState c = 2 then alone s
  else if ctxProd c = 1 ∨ ctxProd c = 3 then alone (fault s P.hod 6 req q none)
  else
    let t := hodCycle (dropHeld s q c) q (n + (heldPush s q c).count) m
    if t.2 = HS.ok then urgentTime t.1 q c cycles else t.1

/-- A pop of `m` entries, none where `m` is 0, and what meets it in the same cycle (R238, R239). What meets it is checked as it is alone. -/
def meetCycle (s : State) (q m : Nat) (meet : HodMeet) : State :=
  let c := peekCtx s q
  let alone (s : State) : State := if m = 0 then s else (hodCycle s q 0 m).1
  match meet with
  | .alone => alone s
  | .trigger cycles =>
    let k := opCheck s .hw q c (decide (ctxProd c = 2)) true 1
    if k.2 ≠ HS.ok then alone k.1
    else
      let t := hodCycle (dropHeld k.1 q c) q (1 + (heldPush k.1 q c).count) m
      if t.2 = HS.ok then urgentTime t.1 q c cycles else t.1
  | .doorbell req n cycles =>
    if n > 65536 then alone (fault s P.hod 8 req q none)
    else if ctxEn c && otherPart s req c then alone (fault s P.hod 5 req q none)
    else doorbellPush s req q c n m cycles
  | .commit => if pushWaits s q || !ctxReach s q then alone s else commitCycle s q m

/-- A pop by a consumer of the given role, met by a push or a commit in the same cycle (R231, R238, R239); status,
entries and their poisoned ranges. -/
def hodPop (s : State) (req : Req) (role q n : Nat) (meet : HodMeet) : State × Nat × Got :=
  let none_ : Got := { st := 0, data := [] }
  let r := takeQueue s q
  let s := r.1
  let c := r.2
  let k := opCheck s req q c (decide (ctxCons c = role)) (decide (1 ≤ n) && decide (n ≤ 16)) n
  let m := if k.2 = HS.ok ∧ n ≤ ctxDepth c then n else 0
  let s1 := meetCycle k.1 q m meet
  if k.2 ≠ HS.ok then (s1, k.2, none_)
  else if m = 0 then (s1, HS.empty, none_)
  else
    let t := ringReads n s1 q (ctxHead c)
    if t.2.st > 1 then (t.1, HS.detached, none_)
    else (t.1, if t.2.st = 1 then HS.poison else HS.ok, t.2)

/-- A queue's disable ends (R227): the pushes still in flight commit and the queue becomes DISABLED; nothing while one of their writes waits. -/
def queueDisableDone (queue : Nat) (s : State) : State :=
  let q := queue % 65536
  if ctxEn (peekCtx s q) || pushWaits s q || !ctxReach s q then s
  else
    let s := (pushesOf s q).foldl (fun s _ => commitCycle s q 0) s
    putCtx s q (cput (peekCtx s q) 4 22 21 0)

/-- A push commits (R229): nothing where no push of the queue is admitted, or a write of it is not acknowledged. -/
def pushCommit (queue : Nat) (s : State) : State :=
  let q := queue % 65536
  if (pushesOf s q).isEmpty || pushWaits s q || !ctxReach s q then s else commitCycle s q 0

/-- A trigger push (R230, R242): `count` pushes, more than one where pushes to an urgent queue merged; with `hold` they wait in the queue's urgent slot,
and a later push takes them along. -/
def triggerPush (queue count cycles : Nat) (hold : Bool) (s : State) : State :=
  let q := queue % 65536
  let c := peekCtx s q
  if hold && ctxUrgent c then
    let k := opCheck s .hw q c (decide (ctxProd c = 2)) true count
    answer (if k.2 = HS.ok then holdPush k.1 q c count [] else k.1) k.2 [] []
  else
    let r := trigPush s q (if ctxUrgent c then count else min count 1) cycles
    answer r.1 r.2 [] []

/-! Doorbells (R247 to R250). -/

/-- A doorbell word (R247, R248, R250), met by a push or a commit where it pops (R238). -/
def doorbell (s : State) (req : Req) (q v cycles : Nat) (meet : HodMeet) : State :=
  let n := bits v 16 0
  if bits v 23 18 ≠ 0 ∨ bits v 63 29 ≠ 0 ∨ n > 65536 then fault s P.hod 8 req q none
  else
    let r := takeQueue s q
    let s := r.1
    let c := r.2
    let ack := bits v 28 24
    if ctxEn c && otherPart s req c then fault s P.hod 5 req q none
    else
      let s := ackQueue s q ack
      if !bit v 17 then (if n = 0 ∧ ctxEn c ∧ !hodStops s then s else doorbellPush s req q c n 0 cycles)
      else if !ctxEn c || hodStops s then meetCycle (fault s P.hod 9 req q none) q 0 meet
      else if n = 0 ∨ ctxState c = 2 then meetCycle s q 0 meet
      else if ctxCons c ≠ 0 then meetCycle (fault s P.hod 6 req q none) q 0 meet
      else if n > ctxDepth c then meetCycle (fault s P.hod 0x0A req q none) q 0 meet
      else meetCycle s q n meet

/-- A doorbell read (R249): the context is read, and checked as any (R236). -/
def doorbellRead (s : State) (req : Req) (q : Nat) : State × Nat :=
  let r := readCtx s q
  let c := r.2
  (r.1, if otherPart s req c then 0
        else ctxDepth c + ctxState c * 2 ^ 17 + cf c 6 12 8 * 2 ^ 24 + ctxSeq c * 2 ^ 32)

/-- A pushed doorbell (R248): with `hold` the push waits in its queue's urgent slot (R242). -/
def doorbellPushed (req : Req) (queue count ack cycles : Nat) (hold : Bool) (s : State) : State :=
  let q := queue % 65536
  let c := peekCtx s q
  if hold && ctxUrgent c && ctxEn c && !hodStops s && !otherPart s req c && decide (ctxState c = 1) && (ctxProd c = 0 || ctxProd c = 2)
      && decide (1 ≤ count) && decide (count ≤ 65536) then
    (holdPush (ackQueue s q ack) q c count [])
  else (doorbell s req q (count % 2 ^ 17 + ack % 32 * 2 ^ 24) cycles .alone)

/-! The copy engine (R253 to R258). -/

/-- A copy descriptor of 64 bytes. -/
structure CopyDesc where
  opcode : Nat
  complete : Bool
  cq : Nat
  len : Nat
  src : Nat
  dst : Nat
  pattern : List Byte
  user : List Byte
  ok : Bool
deriving DecidableEq, Repr

/-- The fields of a descriptor, and whether it is well formed (R253). -/
def copyDesc (bs : List Byte) : CopyDesc :=
  let op := field bs 0 1
  let len := field bs 4 4
  { opcode := op, complete := bit (field bs 1 1) 0, cq := field bs 2 2, len := len, src := field bs 8 6, dst := field bs 16 6,
    pattern := (bs.drop 24).take 8, user := (bs.drop 32).take 8,
    ok := (op = 1 || op = 2) && decide (field bs 1 1 < 2) && decide (1 ≤ len) && decide (len ≤ 16777216)
      && decide (field bs 14 2 = 0) && decide (field bs 22 2 = 0) && decide (field bs 40 24 = 0)
      && (op ≠ 2 || decide (field bs 8 6 = 0)) && (op ≠ 1 || decide (field bs 24 8 = 0)) }

/-- The completion queue of a descriptor may take its completion (R257): same partition, PROD DEVICE. Its context is read, and checked as any (R236). -/
def cqCheck (s : State) (sq cq : Nat) : State × Bool :=
  let r := readCtx s cq
  (r.1, decide (ctxPart r.2 = ctxPart (peekCtx r.1 sq)) && decide (ctxProd r.2 = 1))

/-- Pieces of a copy: each within one 512-byte block of source and of destination (R255). -/
def copyPieces : Nat → Nat → Nat → Nat → List (Nat × Nat × Nat)
  | 0, _, _, _ => []
  | fuel + 1, src, dst, n =>
    if n = 0 then []
    else
      let k := min n (min (512 - src % 512) (512 - dst % 512))
      (src, dst, k) :: copyPieces fuel (src + k) (dst + k) (n - k)

/-- The completion status of a Mortar status (R255). -/
def copyStatus (st : Nat) : Nat :=
  if st = MS.refused then 3 else if st = MS.unmapped then 4 else if st = MS.fenced then 5
  else if st = MS.islandOff then 6 else 3

/-- Moves the pieces in order; the status, the bytes written, and whether poison was carried (R255, R256). -/
def copyRun : List (Nat × Nat × Nat) → State → Via → Nat → Bool → State × Nat × Nat × Bool
  | [], s, _, done, p => (s, 0, done, p)
  | (src, dst, k) :: ps, s, v, done, p =>
    let r := devRead s v src k
    if r.2.st > 1 then (r.1, copyStatus r.2.st, done, p)
    else
      let w := devWrite r.1 v dst r.2.data r.2.bad (v.chan = .bulk)
      if w.2 ≠ MS.ok then (w.1, copyStatus w.2, done, p)
      else copyRun ps w.1 v (done + k) (p || !r.2.bad.isEmpty)

/-- Fills the pieces in order with the pattern, which repeats from DST onwards. -/
def fillRun : List (Nat × Nat) → State → Via → List Byte → Nat → Nat → State × Nat × Nat
  | [], s, _, _, _, done => (s, 0, done)
  | (a, k) :: ps, s, v, pat, dst, done =>
    let w := devWrite s v a ((span (a - dst) k).map fun i => nth pat (i % 8) 0) [] (v.chan = .bulk)
    if w.2 ≠ MS.ok then (w.1, copyStatus w.2, done) else fillRun ps w.1 v pat dst (done + k)

/-- A descriptor is executed: the status it ends with, the bytes written, whether poison was carried (R253 to R256). -/
def copyExecute (s : State) (q : Nat) (d : CopyDesc) : State × Nat × Nat × Bool :=
  let c := peekCtx s q
  if !d.ok then (s, 2, 0, false)
  else if d.opcode = 1 ∧ !windowOk s (ctxPart c) .hod .read d.src d.len then
    (raise (fault s P.hod 1 .hw q (some d.src)) P.hod 9, 1, 0, false)
  else if !windowOk s (ctxPart c) .hod .write d.dst d.len then
    (raise (fault s P.hod 1 .hw (q + 65536) (some d.dst)) P.hod 9, 1, 0, false)
  else if d.opcode = 1 then copyRun (copyPieces (2 * (d.len / 512) + 4) d.src d.dst d.len) s (copyVia c) 0 false
  else
    let t := fillRun (piecesOf d.dst d.len) s (copyVia c) d.pattern d.dst 0
    (t.1, t.2.1, t.2.2, false)

/-- A descriptor that no completion queue can report (R257): the cause, and the event of the submission queue's partition. Which of the four partition
events the spec does not say: a free value. -/
def badDescriptor (s : State) (q : Nat) : State :=
  let r := fresh (fault s P.hod 0x0B .hw q none) 2
  partEvent r.1 (ctxPart (peekCtx r.1 q)) r.2

/-- A descriptor starts: the queue's head is popped, checked, executed, and waits to complete. DESIGN CHOICE: of a poisoned descriptor no field is used
(R90), its completion queue neither: it ends as one that no completion queue can report. -/
def copyStart (s : State) (q : Nat) (meet : HodMeet) : State :=
  let r := hodPop s .hw 3 q 1 meet
  let s := r.1
  if r.2.1 = HS.poison then badDescriptor s q
  else if r.2.1 ≠ HS.ok then s
  else
    let d := copyDesc r.2.2.data
    let k := cqCheck s q d.cq
    if !k.2 then badDescriptor k.1 q
    else
      let t := copyExecute k.1 q d
      { t.1 with hod := { t.1.hod with copies := t.1.hod.copies ++ [{ sq := q, cq := d.cq, user := d.user, complete := d.complete,
                                                                       status := t.2.1, done := t.2.2.1, carried := t.2.2.2 }] } }

/-- Descriptors in progress (HOD_COPY_STATUS.ACTIVE). -/
def copyActive (s : State) : Nat := s.hod.copies.length + (s.hod.heldCq.filter (·.copy)).length

/-- The copy engine may take from the queue: fewer than 16 descriptors in progress, no completion of this submission queue held (R258), and no
urgent submission queue with descriptors that goes before it (R241). -/
def copyReady (s : State) (q : Nat) : Bool :=
  let c := peekCtx s q
  decide (copyActive s < 16) && !s.hod.heldCq.any (fun h => h.sq = q)
    && !s.hod.cache.any fun e => e.1 ≠ q && ctxCons e.2 = 3 && ctxState e.2 = 1 && decide (ctxDepth e.2 ≥ 1)
         && !s.hod.heldCq.any (fun h => h.sq = e.1) && (!ctxUrgent c || decide (ctxSlot e.2 < ctxSlot c))

/-- The opcode of the descriptor at the head of a queue. -/
def headOpcode (s : State) (q : Nat) : Nat :=
  (memByte (buffered s) (ringAddr (peekCtx s q) (ctxHead (peekCtx s q)))).toNat

/-- The opcode at the head of a ring in host memory comes with the data read. -/
def nextOpcode (s : State) (q : Nat) (host : List Cpl) : Nat :=
  match placeOf (ringAddr (peekCtx s q) (ctxHead (peekCtx s q))) with
  | .host _ => ((host.flatMap fun (c : Cpl) => c.data).headD 0).toNat
  | _ => headOpcode s q

/-- A completion record (R257). -/
def copyRecord (s : State) (j : CopyJob) : List Byte :=
  padTo 64 (padTo 8 j.user ++ [BitVec.ofNat 8 j.status, BitVec.ofNat 8 (b2n j.carried)] ++ leBytes 2 j.sq ++ leBytes 4 j.done
    ++ leBytes 8 (tbNs s))

/-- The push of a completion record, with the time of its admission where the queue is urgent (R245). -/
def pushRecord (s : State) (cq : Nat) (rec : List Byte) (cycles : Option Nat) : State × Nat :=
  match cycles with
  | none => devPushFree s cq rec
  | some k =>
    let r := devPush s .hw cq [rec] []
    (if r.2 = HS.ok then urgentTime r.1 cq (peekCtx r.1 cq) k else r.1, r.2)

/-- The push of a completion record; one refused as full is held and retried (R258). -/
def pushCompletion (s : State) (sq cq : Nat) (rec : List Byte) (copy : Bool) (cycles : Option Nat) : State :=
  let r := pushRecord s cq rec cycles
  if r.2 = HS.full then
    { r.1 with hod := { r.1.hod with heldCq := r.1.hod.heldCq ++ [{ sq := sq, cq := cq, record := rec, copy := copy }] } }
  else r.1

/-- A descriptor ends (R257): it leaves the engine, with a completion where COMPLETE is 1 or the status is not OK. -/
def copyFinish (s : State) (j : CopyJob) (cycles : Option Nat) : State :=
  let s := { s with hod := { s.hod with copies := s.hod.copies.erase j } }
  let k := cqCheck s j.sq j.cq
  let s := k.1
  if !k.2 then badDescriptor s j.sq
  else if !j.complete && decide (j.status = 0) then s
  else pushCompletion s j.sq j.cq (copyRecord s j) true cycles

/-- COPY_COMPLETE (R257): the oldest descriptor of a submission queue ends; `cycles` are the FAB cycles of an urgent admission. -/
def copyComplete (queue cycles : Nat) (s : State) : Host.Outcome State Fault Refusal :=
  match s.hod.copies.find? fun j => j.sq = queue % 65536 with
  | none => .next s
  | some j => .next (copyFinish s j (some cycles))

/-- CQ_PUSH_RETRY (R258): the oldest held completion of a submission queue. -/
def cqPushRetry (queue cycles : Nat) (s : State) : Host.Outcome State Fault Refusal :=
  match s.hod.heldCq.find? fun h => h.sq = queue % 65536 with
  | none => .next s
  | some h =>
    let r := pushRecord s h.cq h.record (some cycles)
    .next (if r.2 = HS.full then r.1 else { r.1 with hod := { r.1.hod with heldCq := r.1.hod.heldCq.erase h } })

/-- DEVICE_PUSH (R229, R242): with `hold` the push waits in its queue's urgent slot, and its issuer has the answer when it is admitted. -/
def devicePush (req : Req) (queue : Nat) (entries : List (List Byte)) (bad : List Nat) (cycles : Nat) (hold : Bool) (s : State) :
    Host.Outcome State Fault Refusal :=
  let q := queue % 65536
  if hold && ctxUrgent (peekCtx s q) then
    let r := takeQueue s q
    let k := pushCheck r.1 req q r.2 entries
    .next (if k.2 = HS.ok then holdPush k.1 q r.2 0 [(req, entries, bad)] else answer k.1 k.2 [] [])
  else
    let r := devPush s req q entries bad
    let s := if r.2 = HS.ok then urgentTime r.1 q (peekCtx r.1 q) cycles else r.1
    .next (answer s r.2 [] [])

/-! Requests of engines to Hod, which island 2 holds: messages on Mortar (R58, R71, R75, R231). DESIGN CHOICE: a message that its crossing abandons, or that
island 2 does not answer, gives its sender the status DISABLED. -/

/-- How a request about queue `q` travels: urgent for an urgent queue (R75). -/
def laneVia (s : State) (v : Via) (q : Nat) : Via := if ctxUrgent (peekCtx s q) then { v with chan := .urgent } else v

/-- A pop of one entry by a device engine. -/
def popFrom (s : State) (v : Via) (role q : Nat) (meet : HodMeet) : State × Nat × Got :=
  carryCall s (laneVia s v q) 2 0 64 (fun _ => (HS.disabled, { st := MS.ok, data := [] })) fun s => hodPop s .hw role q 1 meet

/-- A push of one entry by a device engine. -/
def pushFrom (s : State) (v : Via) (q : Nat) (e : List Byte) : State × Nat :=
  carryCall s (laneVia s v q) 2 64 0 (fun _ => HS.disabled) fun s => devPushFree s q e

/-- A trigger push by a device engine. -/
def triggerFrom (s : State) (v : Via) (q n cycles : Nat) : State × Nat :=
  carryCall s (laneVia s v q) 2 0 0 (fun _ => HS.disabled) fun s => trigPush s q n cycles

end Sys2Proof.Machine
end

