-- ==== Sys2Proof/Machine/Quarry.lean ====
section
/-!
DEFINITION. Machine/Quarry.lean: buffer pools, allocate, free, quotas and reclaim (08).
-/
namespace Sys2Proof.Machine
open Sys2Proof

/-- The buffer size of a pool (R263). -/
def poolSize (p : Nat) : Nat := 256 * 4 ^ p

/-- The base of a pool. -/
def poolBase (s : State) (p : Nat) : Nat :=
  rf s (R.QRY_POOL_BASE_LO p) 31 8 * 256 + rf s (R.QRY_POOL_BASE_HI p) 15 0 * 2 ^ 32

/-- The buffers of a pool. -/
def poolCount (s : State) (p : Nat) : Nat := rf s (R.QRY_POOL_CFG p) 16 0

/-- A pool is enabled. -/
def poolEn (s : State) (p : Nat) : Bool := rb s (R.QRY_POOL_CFG p) 31

/-- The record of a buffer. -/
def bufOf (s : State) (p n : Nat) : Buffer := SMap.getD s.qry.bufs (p * 65536 + n) {}

/-- `s` with the record of a buffer. -/
def putBuf (s : State) (p n : Nat) (b : Buffer) : State :=
  { s with qry := { s.qry with bufs := SMap.put s.qry.bufs (p * 65536 + n) b {} } }

/-- USED of an identity and pool. -/
def usedOf (s : State) (i p : Nat) : Nat := SMap.getD s.qry.used (i * 8 + p) 0

/-- `s` with USED of an identity and pool. -/
def putUsed (s : State) (i p n : Nat) : State :=
  { s with qry := { s.qry with used := SMap.put s.qry.used (i * 8 + p) n 0 } }

/-- The quota of an identity in a pool (R277). -/
def quotaOf (s : State) (i p : Nat) : Nat :=
  if p % 2 = 0 then rf s (R.QRY_QUOTA i (p / 2)) 15 0 else rf s (R.QRY_QUOTA i (p / 2)) 31 16

/-- The partition of an identity (R268); none where it is mapped to none. -/
def idPart (s : State) (i : Nat) : Option Nat :=
  let f := rf s (R.QRY_IDMAP (i / 8)) (4 * (i % 8) + 3) (4 * (i % 8))
  if f ≥ 8 then some (f - 8) else none

/-- The requester that an identity stands for in FAULT_CODE (R43, R267). -/
def idReq (i : Nat) : Req :=
  if 36 ≤ i ∧ i ≤ 43 then .core (i - 36) else if 45 ≤ i ∧ i ≤ 52 then .vf (i - 44) else if i = 53 then .pf else .hw

/-- The statuses of R269. -/
abbrev QS.ok : Nat := 0
abbrev QS.noPool : Nat := 1
abbrev QS.quota : Nat := 2
abbrev QS.empty : Nat := 3
abbrev QS.badHandle : Nat := 4
abbrev QS.stale : Nat := 5
abbrev QS.doubleFree : Nat := 6
abbrev QS.notOwner : Nat := 7
abbrev QS.fenced : Nat := 8
abbrev QS.reclaiming : Nat := 9

/-- The lowest index of a pool whose buffer is free, from the indexes allocated in ascending order (R271). -/
def lowestFree : List Nat → Nat → Nat
  | [], n => n
  | i :: is, n => if i = n then lowestFree is (n + 1) else n

/-- The allocated indexes of a pool, ascending. -/
def allocated (s : State) (p : Nat) : List Nat :=
  (s.qry.bufs.filter fun e => decide (e.1 / 65536 = p) && e.2.used).map (·.1 % 65536)

/-- A handle (R266). -/
def handleOf (p n gen : Nat) : Nat := p + n * 8 + gen % 256 * 2 ^ 19

/-- `s` with Quarry changed. -/
def updQry (s : State) (f : Quarry → Quarry) : State := { s with qry := f s.qry }

/-- A pool is fenced (R280); `ix` is the index or word that the read was of. A scan in progress touches no later record of it (R279). -/
def fencePool (s : State) (p ix : Nat) : State :=
  let s := updQry s fun q => { q with
    fenced := NSet.add q.fenced p
    scanAt := if q.scan.any (fun c => c.2.head? = some p) then 0 else q.scanAt
    scan := q.scan.map fun c => (c.1, c.2.filter (· ≠ p)) }
  raise (hwFault s P.qry 5 (p + ix % 65536 * 8)) P.qry 11

/-- Words of Quarry's store become uncorrectable (R280). -/
def strike (s : State) (ue : List Upset) : State := updQry s fun q => { q with upsets := q.upsets ++ ue }

/-- The first uncorrectable word that an operation on pool `p` reads: a summary, and of buffer `n` the bitmap word and the record. DESIGN CHOICE: a free,
whose pipeline skips the scan (R276), reads the summary and the bitmap word all the same, since it writes them; an allocate that finds no free buffer reads
the summaries alone. -/
def meetUpset (s : State) (p : Nat) (n : Option Nat) : Option Nat :=
  (s.qry.upsets.find? fun u => u.pool = p && (if u.bitmap then decide (u.ix ≥ 2048) || n.any fun n => u.ix = n / 32 else n = some u.ix)).map (·.ix)

/-- Software reads bitmap word `ix` (with `bitmap`) or record `ix` of pool `p` out of Quarry's store: an uncorrectable one fences the pool (R280); whether it
was. -/
def inspectWord (s : State) (p ix : Nat) (bitmap : Bool) : State × Bool :=
  if s.qry.upsets.any fun u => u.pool = p && u.bitmap == bitmap && decide (u.ix = ix) then
    (if s.qry.fenced.contains p then s else fencePool s p ix, true)
  else (s, false)

/-! Reclaim (R279). -/

/-- One record of the scan. -/
def reclaimBuf (i : Nat) (s : State) (p n : Nat) : State :=
  let b := bufOf s p n
  if b.owner ≠ i then s
  else
    let s1 := putBuf s p n { gen := (b.gen + 1) % 256, owner := i, used := false }
    if b.used then putUsed s1 i p (usedOf s1 i p - 1) else s1

/-- The first record from `a` to before `z` at which the scan of pool `p` meets an uncorrectable word, and the word: the record itself, or a summary or bitmap
word that the scan reads where it frees the buffer of identity `i`. -/
def scanStop (s : State) (i p a z : Nat) : Option (Nat × Nat) :=
  let us := s.qry.upsets.filter fun u => u.pool = p
  let recs := (us.filter fun u => !u.bitmap && decide (a ≤ u.ix) && decide (u.ix < z)).map fun u => (u.ix, u.ix)
  let maps := (s.qry.bufs.filter fun e => decide (e.1 / 65536 = p) && e.2.used && decide (e.2.owner = i)).filterMap fun e =>
    let n := e.1 % 65536
    if a ≤ n ∧ n < z then (us.find? fun u => u.bitmap && (decide (u.ix ≥ 2048) || decide (u.ix = n / 32))).map fun u => (n, u.ix) else none
  (recs ++ maps).foldl (fun m e => match m with | some b => if e.1 < b.1 then some e else some b | none => some e) none

/-- The scan of pool `p` from record `a` to before record `z`: every record below one at which it meets an uncorrectable word, where the pool is fenced. A
record that is not listed has generation 0 and owner 0: the scan of identity 0 increments it as well. -/
def reclaimPool (i : Nat) (s : State) (p a z : Nat) : State :=
  let stop := scanStop s i p a z
  let lim := (stop.map (·.1)).getD z
  let ns := if i = 0 then span a (lim - a)
    else ((s.qry.bufs.filter fun e => decide (e.1 / 65536 = p)).map (·.1 % 65536)).filter fun n => decide (a ≤ n) && decide (n < lim)
  let s := ns.foldl (fun s n => reclaimBuf i s p n) s
  match stop with
  | some e => fencePool s p e.2
  | none => s

/-- The scan goes on by `k` records, or to its end. -/
def scanOn (i : Nat) : List Nat → State → Nat → State
  | [], s, _ => s
  | p :: ps, s, k =>
    let a := s.qry.scanAt
    let z := min (poolCount s p) (a + k)
    let s := reclaimPool i s p a z
    if z < poolCount s p then
      if s.qry.scan.any (fun c => c.2.head? = some p) then updQry s fun q => { q with scanAt := z } else s
    else scanOn i ps (updQry s fun q => { q with scanAt := 0, scan := q.scan.map fun c => (c.1, c.2.filter (· ≠ p)) }) (k - (z - a))

/-- The scan in progress has gone on since the operation before by a number of records that the spec does not fix: a free value. -/
def scanSome (s : State) : State :=
  match s.qry.scan with
  | none => s
  | some (i, ps) =>
    let r := fresh s 20
    scanOn i ps r.1 r.2

/-- The outcome of an allocate: status, handle, address, pool and index. -/
structure Alloc where
  st : Nat
  handle : Nat := 0
  addr : Nat := 0
deriving DecidableEq, Repr

/-- An allocate of `size` bytes under an identity (R270, R271, R280). -/
def allocate (s : State) (i size : Nat) : State × Alloc :=
  let s := scanSome s
  if !accepts s P.qry then (s, { st := QS.noPool })
  else if (s.qry.scan.map (·.1)) = some i then (s, { st := QS.reclaiming })
  else
    match (if size = 0 then none else firstIdx 8 fun p => poolEn s p && decide (size ≤ poolSize p)) with
    | none => (s, { st := QS.noPool })
    | some p =>
      if s.qry.fenced.contains p then (s, { st := QS.fenced })
      else if i ≠ 53 ∧ quotaOf s i p ≠ 0xFFFF ∧ usedOf s i p ≥ quotaOf s i p then
        (raise (bump s R.QRY_REFUSED 31 0 1) P.qry 9, { st := QS.quota })
      else
        let n := lowestFree (allocated s p) 0
        match meetUpset s p (if n < poolCount s p then some n else none) with
        | some ix => (fencePool s p ix, { st := QS.fenced })
        | none =>
          if n ≥ poolCount s p then (raise (bump s R.QRY_REFUSED 31 0 1) P.qry 8, { st := QS.empty })
          else
            let g := ((bufOf s p n).gen + 1) % 256
            let s := putBuf s p n { gen := g, owner := i, used := true }
            let s := putUsed s i p (usedOf s i p + 1)
            (bump s R.QRY_ALLOCS 31 0 1, { st := QS.ok, handle := handleOf p n g, addr := poolBase s p + n * poolSize p })

/-- A refused free is captured and raises QRY.BAD_FREE (R274). -/
def badFree (s : State) (req : Req) (cause h : Nat) : State := raise (fault s P.qry cause req h none) P.qry 10

/-- A requester may free what the recorded owner holds (R273). -/
def mayFree (s : State) (i owner : Nat) : Bool :=
  decide (i = 53) || decide (i = owner) ||
    match idPart s i, idPart s owner with
    | some a, some b => decide (a = b)
    | _, _ => false

/-- A free of a handle by an identity (R272 to R274, R280). DESIGN CHOICE: an index at or above COUNT and a disabled pool hold no buffer, so their handles
answer BAD_HANDLE while a scan runs too (R279); a block that accepts no work answers BAD_HANDLE. -/
def freeHandle (s : State) (req : Req) (i h : Nat) : State × Nat :=
  let s := scanSome s
  let p := h % 8
  let n := bits h 18 3
  let g := bits h 26 19
  let b := bufOf s p n
  if !accepts s P.qry then (badFree s req 3 h, QS.badHandle)
  else if h < 2 ^ 27 ∧ poolEn s p ∧ n < poolCount s p ∧ (s.qry.scan.map (·.1)) = some b.owner then (s, QS.reclaiming)
  else if h ≥ 2 ^ 27 ∨ !poolEn s p ∨ n ≥ poolCount s p then (badFree s req 3 h, QS.badHandle)
  else if s.qry.fenced.contains p then (s, QS.fenced)
  else
    match meetUpset s p (some n) with
    | some ix => (fencePool s p ix, QS.fenced)
    | none =>
      if g ≠ b.gen then (badFree s req 2 h, QS.stale)
      else if !b.used then (badFree s req 1 h, QS.doubleFree)
      else if !mayFree s i b.owner then (badFree s req 4 h, QS.notOwner)
      else
        let s := putBuf s p n { b with used := false }
        let s := putUsed s b.owner p (usedOf s b.owner p - 1)
        (bump s R.QRY_FREES 31 0 1, QS.ok)

/-- A free by the device's own blocks, of a handle they hold. -/
def freeOwn (s : State) (i h : Nat) : State := (freeHandle s .hw i h).1

/-- An allocate and a free by a device engine: messages on Mortar to island 2 (R58, R71, R75). DESIGN CHOICE: an allocate whose message its crossing abandons,
or that island 2 does not answer, gives its sender the status NO_POOL; such a free is not performed. -/
def allocFrom (s : State) (v : Via) (i size : Nat) : State × Alloc :=
  carryCall s v 2 0 0 (fun _ => { st := QS.noPool }) fun s => allocate s i size

/-- A free by a device engine. -/
def freeFrom (s : State) (v : Via) (i h : Nat) : State :=
  (carryCall s v 2 0 0 (fun _ => QS.ok) fun s => freeHandle s .hw i h).1

/-- The answer of an operation. -/
def answerQry (s : State) (st h a : Nat) : State :=
  { s with qry := { s.qry with status := st, handle := h, addr := a } }

/-- The PF interface shows the outcome of an allocate: status, the handle where it is OK, the address (08 Register page). -/
def pfAllocated (s : State) (r : Alloc) : State :=
  let s := wf s R.QRY_PF_RESULT 3 0 r.st
  let s := if r.st = QS.ok then setReg s R.QRY_PF_ARG (BitVec.ofNat 32 r.handle) else s
  setReg (setReg s R.QRY_PF_ADDR_LO (BitVec.ofNat 32 r.addr)) R.QRY_PF_ADDR_HI (BitVec.ofNat 32 (r.addr / 2 ^ 32))

/-- ALLOCATE (R270): `ue` are words of Quarry's store that have become uncorrectable. Identity 53 allocates through the PF interface. DESIGN CHOICE: an
identity that no request carries (R267) has no occasion; an allocate or a free of identity 53 is performed while BUSY is 1, since R279 lets every other
operation proceed and PF_BUSY drops writes of GO alone. -/
def execAllocate (ident size : Nat) (ue : List Upset) (s : State) : Host.Outcome State Fault Refusal :=
  if ident > 53 then .next s
  else
    let r := allocate (strike s ue) ident size
    let s := answerQry r.1 r.2.st r.2.handle r.2.addr
    .next (if ident = 53 then pfAllocated s r.2 else s)

/-- FREE (R272): the requester's path sets the identity (R267), so a requester with another's identity has no occasion. -/
def execFree (req : Req) (ident handle : Nat) (ue : List Upset) (s : State) : Host.Outcome State Fault Refusal :=
  if ident > 53 ∨ idReq ident ≠ req then .next s
  else
    let r := freeHandle (strike s ue) req ident handle
    let s := answerQry r.1 r.2 handle 0
    .next (if ident = 53 then wf s R.QRY_PF_RESULT 3 0 r.2 else s)

/-- A RECLAIM scan starts (R279). -/
def startReclaim (s : State) (i : Nat) : State :=
  updQry s fun q => { q with scan := some (i % 64, (List.range 8).filter (poolEn s)), scanAt := 0, status := QS.ok }

/-- RECLAIM (R279): the PF's operation; PF_BUSY while one runs. DESIGN CHOICE: QRY_PF_RESULT.STATUS shows OK from its start on, as after a write of GO. -/
def execReclaim (req : Req) (ident : Nat) (s : State) : Host.Outcome State Fault Refusal :=
  if req ≠ .pf then .next s
  else if s.qry.scan.isSome then .next (fault s P.qry 7 req 3 none)
  else if !accepts s P.qry then .next s
  else .next (wf (startReclaim s ident) R.QRY_PF_RESULT 3 0 QS.ok)

/-- RECLAIM_DONE (R279): the scan ends; `ue` lists the records (pool, index) that have become uncorrectable. -/
def execReclaimDone (ue : List (Nat × Nat)) (s : State) : Host.Outcome State Fault Refusal :=
  match s.qry.scan with
  | none => .next s
  | some (i, ps) =>
    let s := scanOn i ps (strike s (ue.map fun e => { pool := e.1, ix := e.2, bitmap := false })) (8 * 65536)
    .next (updQry s fun q => { q with scan := none, scanAt := 0 })

/-- A change set re-initialises a fenced pool (R281). -/
def reinitPool (s : State) (p : Nat) : State :=
  { s with qry := { s.qry with bufs := s.qry.bufs.filter fun e => e.1 / 65536 ≠ p,
                               used := s.qry.used.filter fun e => e.1 % 8 ≠ p,
                               upsets := s.qry.upsets.filter fun u => u.pool ≠ p,
                               fenced := NSet.del s.qry.fenced p } }

/-- The PF interface (QRY_PF_CMD.GO): operation `op` with the argument held by QRY_PF_ARG. -/
def qryPf (s : State) (req : Req) (op : Nat) : State :=
  let arg := (rd s R.QRY_PF_ARG).toNat
  let result (s : State) (st : Nat) : State := wf s R.QRY_PF_RESULT 3 0 st
  if s.qry.scan.isSome then fault s P.qry 7 req op none
  else match op with
    | 1 =>
      let r := allocate s 53 arg
      pfAllocated r.1 r.2
    | 2 =>
      let r := freeHandle s req 53 arg
      result r.1 r.2
    | 3 => if accepts s P.qry then result (startReclaim s arg) QS.ok else s
    | _ => s

/-- The free buffers of a pool (QRY_POOL_STATUS.FREE). -/
def freeCount (s : State) (p : Nat) : Nat :=
  poolCount s p - ((allocated s p).filter (· < poolCount s p)).length

/-- A word of the Quarry bitmaps at byte offset `t` of the table (table 0x02). -/
def bitmapWord (s : State) (t : Nat) : Nat :=
  let p := t / 8192
  let w := (t % 8192) / 4
  (List.range 32).foldl (fun v b => v + b2n (bufOf s p (32 * w + b)).used * 2 ^ b) 0

end Sys2Proof.Machine
end

