-- ==== Sys2Proof/Machine/Ledger.lean ====
section
/-!
DEFINITION. Machine/Ledger.lean: Plumb's ledger as the dispatcher and the shared engines consult it (18 R580 to R586). Accounts
are held in pJ; registers show whole µJ.
-/
namespace Sys2Proof.Machine
open Sys2Proof

/-- `s` with Plumb changed. -/
def updPlb (s : State) (f : Plumb → Plumb) : State := { s with plb := f s.plb }

/-- The frequency at which a core's energy is taken (R580): its point, or the higher of the two during a step. -/
def coreMhz (s : State) (n : Nat) : Nat :=
  let i := island s (19 + n)
  max i.point.mhz ((i.step.map (·.mhz)).getD 0)

/-- An energy of a model (R505) in nJ at a frequency: the entries stand for 0.60, 0.75, 0.90, 1.05 and 1.20 GHz. -/
def energyAt (m : Model) (mhz : Nat) : Nat := nth m.energy (min 4 ((mhz - 600) / 150)) 0

/-- The energy of a job of model `m` on core `n` in pJ. -/
def jobCost (s : State) (m : Model) (n : Nat) : Nat := 1000 * energyAt m (coreMhz s n)

/-- A subchannel reports a component above its operating range (R196). -/
def subHot (s : State) (u : Nat) : Bool := decide ((subch s u).rate ≥ 2)

/-- A job of a model may be selected on a core (R580, R581, R582, R586). -/
def ledgerOk (s : State) (m : Model) (n : Nat) : Bool :=
  let left := nth s.plb.partLeft m.part 0
  let hot := (List.range 8).any fun u => bit (rf s (R.DPT_PART_CFG m.part) 23 16) u && subHot s u
  m.cls = 0 || ((decide (left ≥ jobCost s m n) || s.plb.untouched.contains m.part)
    && (!(hot && decide (m.cls ≥ 2)) || decide (2 * left > nth s.plb.partAllow m.part 0)))

/-- SPENT of a class grows. -/
def spend (s : State) (c e : Nat) : State := updPlb s fun p => { p with spent := updAt p.spent c (· + e) }

/-- A job's energy is debited at selection (R580 to R582). -/
def debitJob (s : State) (m : Model) (n : Nat) : State :=
  let e := jobCost s m n
  let s := spend s m.cls e
  if m.cls = 0 then
    let left := nth s.plb.partResLeft m.part 0
    let excess := (e - left) / 1000000
    let again := s.plb.overdrawn.contains m.part
    let s := updPlb s fun p => { p with partResLeft := updAt p.partResLeft m.part (· - e) }
    if e ≤ left then s
    else
      let s := bump s R.PLB_RES_OVER 31 0 excess
      if again then s
      else
        let s := updPlb s fun p => { p with overdrawn := NSet.add p.overdrawn m.part }
        raise (hwFault s P.plb 6 (m.part + excess / 16 % 2 ^ 24 * 256)) P.plb 12
  else
    updPlb s fun p => { p with partLeft := updAt p.partLeft m.part (· - e), untouched := NSet.del p.untouched m.part }

/-- A frame of a slot of partition `p` and class `c` may start on the engines of group `g` (R583). -/
def mediaOk (s : State) (p c g cost : Nat) : Bool :=
  c = 0 || (decide (nth s.plb.partLeft p 0 > 0) && decide (nth s.plb.grpLeft g 0 ≥ cost))

/-- A frame's cost is debited at its start (R583): from S[g], or for a sentinel frame from the reserve of group 9. -/
def mediaDebit (s : State) (c g cost : Nat) : State :=
  let s := spend s c cost
  if c = 0 then updPlb s fun p => { p with res9Left := p.res9Left - cost }
  else updPlb s fun p => { p with grpLeft := updAt p.grpLeft g (· - cost) }

/-- Keystone or Safelight may start a host operation (R584). -/
def solveOk (s : State) : Bool := decide (nth s.plb.grpLeft 10 0 > 0)

/-- The measured energy of a host operation, in µJ, is debited at its end (R584). -/
def solveDebit (s : State) (c uj : Nat) : State :=
  updPlb (spend s c (uj * 1000000)) fun p => { p with grpLeft := updAt p.grpLeft 10 (· - uj * 1000000) }

end Sys2Proof.Machine
end

