-- ==== Sys2Proof/Machine/Dispatcher.lean ====
section
/-!
DEFINITION. Machine/Dispatcher.lean: partition states, selection of jobs, job ends and aborts as the dispatcher takes them, and Stop
Bath (17 R521 to R555, 15 R485 and R486).
-/
namespace Sys2Proof.Machine
open Sys2Proof

/-! Models, cores, partitions. -/

/-- An entry of the model table. -/
def modelOf (s : State) (m : Nat) : Model := SMap.getD s.dpt.models m {}

/-- `s` with a model table entry changed. -/
def updModel (s : State) (m : Nat) (f : Model → Model) : State :=
  updDpt s fun d => { d with models := SMap.put d.models m (f (modelOf s m)) {} }

/-- Core `n`. -/
def coreOf (s : State) (n : Nat) : Core := nth s.cores n {}

/-- `s` with core `n` changed. -/
def updCore (s : State) (n : Nat) (f : Core → Core) : State := { s with cores := updAt s.cores n f }

/-- A bank of a core. -/
def bankOf' (k : Core) (urgent : Bool) : Bank := if urgent then k.urgent else k.normal

/-- A core with one of its banks changed. -/
def updBank' (k : Core) (urgent : Bool) (f : Bank → Bank) : Core :=
  if urgent then { k with urgent := f k.urgent } else { k with normal := f k.normal }

/-- Every request of a bank has been answered: no item, mover instruction or array command of it is outstanding (R401, R528). -/
def answered (k : Core) (urgent : Bool) : Bool :=
  (bankOf' k urgent).items.isEmpty && k.movers.all (fun q => q.all fun i => i.urgent ≠ urgent)
    && k.cmds.all fun c => c.urgent ≠ urgent

/-- A bank is free (R528): no job runs or is on its way, and its last job's requests are answered. -/
def bankFree (s : State) (n : Nat) (urgent : Bool) : Bool :=
  let k := coreOf s n
  (bankOf' k urgent).job.isNone && answered k urgent
    && (if urgent then k.waitUrgent else k.waitNormal).isNone
    && !(s.dpt.starts.any fun j => j.core = n && j.urgent = urgent)

/-- The jobs of a partition that run or are on their way to a core. -/
def runningOf (s : State) (p : Nat) : Nat :=
  let inBank (b : Bank) : Nat := match b.job with
    | some j => b2n (decide ((modelOf s j.model).part = p))
    | none => 0
  (s.cores.map fun k => inBank k.normal + inBank k.urgent
      + (k.waitUrgent.toList ++ k.waitNormal.toList).countP fun j => (modelOf s j.job.model).part = p).sum
    + s.dpt.starts.countP fun j => (modelOf s j.job.model).part = p

/-- A quiesce of a partition is requested (R526). -/
def quiesceAsked (s : State) (p : Nat) : Bool := rb s (R.DPT_PART_CTRL p) 1 || bit (nth s.dpt.views p {}).ctrl 0

/-- A partition hosts a sentinel model (R522). -/
def hostsSentinel (s : State) (p : Nat) : Bool := rb s (R.DPT_PART_CFG p) 12 && rb s (R.DPT_PART_CFG p) 8

/-- The state of a partition (R525), with QUIESCED kept where it holds already or `now` lets it be entered. -/
def partStateOf (s : State) (p : Nat) (now : Bool) : Nat :=
  if !rb s (R.DPT_PART_CFG p) 12 then 0
  else if !rb s (R.DPT_PART_CTRL p) 0 then 1
  else if quiesceAsked s p && (now || decide (nth s.dpt.state p 0 = 4)) && decide (runningOf s p = 0) then 4
  else if rf s (R.DPT_PART_STATUS p) 15 8 ≠ 0 ∨ rb s (R.DPT_PART_STATUS p) 24 ∨ s.dpt.refused.contains p ∨ s.dpt.bankLost.contains p then 3
  else 2

/-- A partition is QUIESCED, or counts as quiesced because it is DISABLED or ABSENT (R795). -/
def isQuiet (s : State) (p : Nat) : Bool := let t := partStateOf s p false; t = 4 || t ≤ 1

/-- The state of a partition is brought up to date; a change raises DPT.PART_STATE and the partition's event (R525, R526). -/
def settlePart (now : Bool) (s : State) (p : Nat) : State :=
  let t := partStateOf s p now
  if t = nth s.dpt.state p 0 then s
  else
    let s := updDpt s fun d => { d with state := updAt d.state p fun _ => t }
    partEvent (raise s P.dpt 13) p 0

/-- Every partition state is brought up to date. -/
def settleParts (s : State) : State := (List.range 8).foldl (settlePart false) s

/-- PARTITION_QUIESCED (R526): the last running job of a quiescing partition has ended. -/
def execPartitionQuiesced (part : Nat) (s : State) : Host.Outcome State Fault Refusal :=
  .next (settlePart true s (part % 8))

/-- The dispatcher may select jobs of a partition: enabled, no quiesce requested. -/
def partSelects (s : State) (p : Nat) : Bool :=
  rb s (R.DPT_PART_CFG p) 12 && rb s (R.DPT_PART_CTRL p) 0 && !quiesceAsked s p

/-- A core is available to a model: owned by its partition, enabled, not withdrawn, its class and island usable, and not held by a
waiting change of PAIRED (R529, R530, R550, R551, R387, R687). -/
def coreServes (s : State) (m : Model) (n : Nat) : Bool :=
  bit m.cores n && rb s (R.ASH_MODE n) 3 && decide (rf s (R.ASH_MODE n) 2 0 = m.part)
    && bit (rf s (R.DPT_PART_CTRL m.part) 15 8) n && !bit (rf s (R.DPT_PART_STATUS m.part) 15 8) n
    && decide (rf s (R.ASH_CLASS n) 2 0 ≠ 7) && accepts s (P.ash n)
    && !(decide (rf s R.SEAM_STATE 1 0 = 3) && bit (rd s R.SEAM_MASK_HI).toNat (16 + n)
         && decide (stagedOf s (R.ASH_MODE n) ≠ rd s (R.ASH_MODE n)))

/-! Stop Bath (R544 to R548). -/

/-- The dispatcher's messages travel urgent from stop 21 (R75). -/
def dptVia : Via := { req := .hw, stop := 21, port := 0, chan := .urgent }

/-- A record's HANDLE is freed under an identity, except 0xFFFF_FFFF (R533). -/
def freeBatch (s : State) (ident : Nat) (rec_ : List Byte) : State :=
  if field rec_ 0 4 = 0xFFFFFFFF then s else freeFrom s dptVia ident (field rec_ 0 4)

/-- Stop Bath's messages travel urgent from its own port of stop 21 (R75, R790). -/
def stopBathVia : Via := { req := .hw, stop := 21, port := 1, chan := .urgent }

/-- The header of a no-result record (R259, R547). -/
def noResult (j : Job) (tag ts : Nat) (concealed : Bool) : List Byte :=
  padTo 64 (leBytes 8 tag ++ leBytes 8 ts ++ leBytes 2 j.model ++ leBytes 1 j.variant ++ [0] ++ leBytes 2 j.epoch
    ++ leBytes 2 (16 + b2n concealed))

/-- One no-result record is pushed to the model's OUT_QUEUE; a refusal loses it (R547). -/
def pushNoResult (s : State) (j : Job) (tag ts : Nat) (concealed : Bool) : State :=
  let q := (modelOf s j.model).outQ
  let r := pushFrom s stopBathVia q (noResult j tag ts concealed)
  if r.2 = HS.ok then r.1
  else raise (hwFault (bump r.1 R.SBT_LOST 31 0 1) P.sbt 3 q) P.sbt 11

/-- The batch header is read, the no-result records of the batch are pushed, and its buffer is freed (R545, R547). -/
def emitNoResults (s : State) (ident : Nat) (j : Job) : State :=
  let a := field j.record 32 6
  let h := readRange s stopBathVia a 512
  let s := h.1
  let s :=
    if h.2.st ≠ MS.ok then pushNoResult s j (2 ^ 64 - 1) 0 false
    else (List.range (min 16 (field j.record 5 1))).foldl (fun s l =>
      let f := field h.2.data (256 + l) 1
      if bit f 0 && !bit f 5 then pushNoResult s j (field h.2.data (8 * l) 8) (field h.2.data (128 + 8 * l) 8) (bit f 2) else s) s
  freeBatch s ident j.record

/-- The no-result records of a batch (R547). Stop Bath's read of the header waits where its subchannel is held up, and nothing but the records and the
freed buffer waits for it. -/
def noResults (s : State) (ident : Nat) (j : Job) : State :=
  if heldUp s (field j.record 32 6) then updDpt s fun d => { d with noResults := d.noResults ++ [(ident, j)] } else emitNoResults s ident j

/-- The batches whose header can be read now are taken up. -/
def resumeNoResults (s : State) : State :=
  let go := s.dpt.noResults.filter fun e => !heldUp s (field e.2.record 32 6)
  go.foldl (fun s e => emitNoResults s e.1 e.2) (updDpt s fun d => { d with noResults := d.noResults.filter fun e => !go.contains e })

/-- The action that applies to a job (R545, R546): FALLBACK becomes NO_RESULT for a fallback job and where no fallback is named. DESIGN CHOICE: no field of
a poisoned model entry is used (R90): its jobs are missed with NO_RESULT, and it is no fallback. -/
def actionOf (s : State) (j : Job) (asked : Nat) : Nat :=
  let f := (modelOf s j.model).fallback
  if (modelOf s j.model).bad then 2
  else if asked = 1 ∧ (j.fallback ∨ f = 0xFFFF ∨ (modelOf s f).st = 0 ∨ (modelOf s f).bad = true) then 2 else asked

/-- What becomes of a job's batch (R545 to R547): a fallback job starts on it, no-result records are emitted, or its buffer is freed
where `ended` says that the job is gone with no action to take. -/
def dispose (s : State) (ident : Nat) (j : Job) (action : Nat) (ended : Bool) : State :=
  match action with
  | 0 => if ended then freeBatch s ident j.record else s
  | 1 =>
    let f := (modelOf s j.model).fallback
    let m := modelOf s f
    let t := tbNs s
    updDpt s fun d => { d with fallbacks := d.fallbacks ++ [{ j with
      model := f, variant := m.variant, cls := m.cls, deadline := t + 1000 * m.deadline, fallback := true, reported := false, disposed := false }] }
  | _ => noResults s ident j

/-- A miss is counted and captured (R545): SBT.MISS is raised for every job, a sentinel job captures SENTINEL_MISS and raises its event as well (R548). -/
def reportMiss (s : State) (j : Job) (action : Nat) (running : Bool) : State :=
  let m := modelOf s j.model
  let info := j.model % 65536 + action % 4 * 65536 + b2n running * 2 ^ 18
  let s := bump s R.SBT_MISSES 31 0 1
  let s := setReg s R.SBT_LAST_MISS (BitVec.ofNat 32 info)
  let s := updModel s j.model fun m => { m with misses := satAdd 32 m.misses 1 }
  let s := updDpt s fun d => { d with views := updAt d.views m.part fun v => { v with misses := satAdd 32 v.misses 1 } }
  let s :=
    if j.cls = 0 then
      let s := raise (raise (hwFault (bump s R.SBT_SENTINEL_MISSES 31 0 1) P.sbt 2 info) P.sbt 8) P.sbt 9
      sentinelJob (signalFyp s .sentinelMiss) true
    else raise (hwFault s P.sbt 1 info) P.sbt 8
  partEvent s m.part 1

/-- An abort message is sent to a core's bank (R535). -/
def sendAbort (s : State) (n : Nat) (urgent : Bool) : State :=
  updDpt (countFlits (wake s (19 + n)) .urgent (messageFlits .urgent 0)) fun d => { d with aborts := d.aborts ++ [(n, urgent)] }

/-- An abort message whose job is over finds nothing to stop: it names the job that ran when it was sent (R535). -/
def dropAborts (s : State) (n : Nat) (urgent : Bool) : State := updDpt s fun d => { d with aborts := d.aborts.filter (· ≠ (n, urgent)) }

/-- A job that ran and was aborted counts as missed at the abort (R536, R553), unless it was reported already. -/
def missAborted (s : State) (n : Nat) (j : Job) : State :=
  if j.disposed then s
  else if j.reported then dispose s (36 + n) j 0 true
  else
    let a := actionOf s j (modelOf s j.model).action
    dispose (reportMiss s j a true) (36 + n) j a true

/-! Queued jobs. -/

/-- The batch record that heads a queue, as Stop Bath sees it, and its ring address; none where the queue is empty. -/
def headRecord (s : State) (q : Nat) : Option (List Byte × Nat) :=
  let c := peekCtx s q
  if ctxEn c ∧ ctxState c = 1 ∧ ctxDepth c ≥ 1 then some (memBytes (buffered s) (ringAddr c (ctxHead c)) 64, ringAddr c (ctxHead c)) else none

/-- The job that a batch record gives a model (R508, R544, R555). -/
def jobOf (s : State) (m : Nat) (rec_ : List Byte) (addr : Nat) : Job :=
  let k := modelOf s m
  { model := m, variant := k.variant, cls := k.cls, record := rec_, addr := addr,
    deadline := field rec_ 24 8 + 1000 * k.deadline, selected := tbNs s, epoch := rf s (hdr P.dpt 0x18) 15 0,
    reported := k.headReported }

/-- The batch record that heads a model's IN_QUEUE is popped: the job, or none where the pop gives nothing. DESIGN CHOICE: a poisoned record starts no
job and none of its fields is used (R90): its batch is missed with one no-result record of the padding tag, as where its header is poisoned. -/
def popJob (s : State) (m : Nat) (meet : HodMeet) : State × Option Job :=
  let q := (modelOf s m).inQ
  let a := ringAddr (peekCtx s q) (ctxHead (peekCtx s q))
  let r := popFrom s dptVia 2 q meet
  let s := updModel r.1 m fun k => { k with headReported := false }
  if r.2.1 = HS.ok then (s, some (jobOf r.1 m r.2.2.data a))
  else if r.2.1 = HS.poison then
    let j := jobOf r.1 m (List.replicate 64 0) a
    let s := if j.reported then s else reportMiss s j 2 false
    (pushNoResult s j (2 ^ 64 - 1) 0 false, none)
  else (r.1, none)

/-- The lowest-numbered core of a model. -/
def firstCore (m : Model) : Nat := (bitList m.cores 8).headD 0

/-- The job of a core's bank as the dispatcher holds it (R528, R532): the one that runs on it, waits at it, or is on its way to it. -/
def jobAt (s : State) (n : Nat) (urgent : Bool) : Option Job :=
  let k := coreOf s n
  match (bankOf' k urgent).job with
  | some j => some j
  | none => match if urgent then k.waitUrgent else k.waitNormal with
    | some w => some w.job
    | none => (s.dpt.starts.find? fun w => w.core = n && w.urgent = urgent).map (·.job)

/-- `s` with the job of a core's bank changed, wherever it is. -/
def updJobAt (s : State) (n : Nat) (urgent : Bool) (f : Job → Job) : State :=
  let onStart (w : JobStart) : JobStart := { w with job := f w.job }
  let s := updDpt s fun d => { d with starts := d.starts.map fun w => if w.core = n ∧ w.urgent = urgent then onStart w else w }
  updCore s n fun k =>
    let k : Core := if urgent then { k with waitUrgent := k.waitUrgent.map onStart } else { k with waitNormal := k.waitNormal.map onStart }
    updBank' k urgent fun b => { b with job := b.job.map f }

/-- The running jobs of a model: core, bank, job. DEDUCED: a job runs from the moment at which its start is sent (R532, R544). -/
def runningJobs (s : State) (m : Nat) : List (Nat × Bool × Job) :=
  (List.range 8).flatMap fun n =>
    [false, true].filterMap fun u => match jobAt s n u with
      | some j => if j.model = m then some (n, u, j) else none
      | none => none

/-- An outstanding job of a model: running on a core's bank, waiting as a fallback job, or heading IN_QUEUE. -/
inductive Outjob where
  | running (core : Nat) (urgent : Bool) (j : Job)
  | fallback (j : Job)
  | queued (j : Job)
deriving DecidableEq, Repr

/-- The job of an outstanding job. -/
def Outjob.job : Outjob → Job
  | .running _ _ j => j
  | .fallback j => j
  | .queued j => j

/-- The outstanding jobs of a model that are not yet reported (R544). DESIGN CHOICE: a poisoned batch record arms no deadline, nor does a queued job of a
poisoned model entry (R90). -/
def outstanding (s : State) (m : Nat) : List Outjob :=
  let run := (runningJobs s m).map fun e => Outjob.running e.1 e.2.1 e.2.2
  let fb := (s.dpt.fallbacks.filter (·.model = m)).map Outjob.fallback
  let head := match headRecord s (modelOf s m).inQ with
    | some r => if (modelOf s m).st ≠ 0 ∧ (modelOf s m).bad = false ∧ !granuleBad (buffered s) r.2 then [Outjob.queued (jobOf s m r.1 r.2)] else []
    | none => []
  (run ++ fb ++ head).filter fun o => !o.job.reported

/-- The armed entry of a model: the unreported outstanding job of the earliest deadline (R544). -/
def armed (s : State) (m : Nat) : Option Outjob :=
  (outstanding s m).foldl (fun a o => match a with
    | none => some o
    | some b => if o.job.deadline < b.job.deadline then some o else some b) none

/-- A miss of an outstanding job (R545, R546, R548). -/
def miss (s : State) (m : Nat) (o : Outjob) (meet : HodMeet) : State :=
  match o with
  | .running n u j =>
    let a := actionOf s j (modelOf s m).action
    let s := reportMiss s j a true
    let s := updJobAt s n u fun j => { j with reported := true, disposed := decide (a ≠ 0) }
    if a = 0 then s else dispose (sendAbort s n u) (36 + n) j a false
  | .fallback j =>
    let a := actionOf s j (modelOf s m).action
    let s := reportMiss s j a false
    if a = 0 then
      updDpt s fun d => { d with fallbacks := d.fallbacks.map fun f => if f = j then { f with reported := true } else f }
    else
      dispose (updDpt s fun d => { d with fallbacks := d.fallbacks.erase j }) (36 + firstCore (modelOf s m)) j a true
  | .queued j =>
    let a := actionOf s j (modelOf s m).action
    let s := reportMiss s j a false
    if a = 0 then updModel s m fun k => { k with headReported := true }
    else
      let r := popJob s m meet
      match r.2 with
      | some j => dispose r.1 (36 + firstCore (modelOf s m)) j a true
      | none => r.1

/-- The armed deadline of a model passes (R544 to R548); `meet` reaches IN_QUEUE in the cycle of a pop. -/
def deadlinePass (model : Nat) (meet : HodMeet) (s : State) : State :=
  match armed s model with
  | none => s
  | some o => (settleParts (miss s model o meet))

/-! Selection (R526 to R532). -/

/-- A retraining window in progress holds the steady and bulk jobs of a partition (R552). -/
def windowHolds (s : State) (p : Nat) : Bool :=
  (List.range 8).any fun u => bit (rf s (R.DPT_PART_CFG p) 23 16) u && decide ((subch s u).st = .window)

/-- A job is sent to a core (R508, R532): on the urgent channel for the urgent bank and on the normal one otherwise, with the epoch of its own selection (R555);
energy debited, SBT.FALLBACK where it is a fallback job. -/
def sendStart (s : State) (n : Nat) (urgent : Bool) (j : Job) : State :=
  let m := modelOf s j.model
  let base := n * 0x01000000 + m.region
  let j := { j with epoch := rf s (hdr P.dpt 0x18) 15 0 }
  let x6 := j.model % 65536 + j.variant % 256 * 65536 + j.epoch % 65536 * 2 ^ 32
  let s := debitJob s m n
  let st : JobStart := { core := n, urgent := urgent, entry := base + m.entry,
                         xs := [base, m.mortar, m.dram, j.addr, m.outQ % 65536, x6], job := { j with selected := tbNs s } }
  let ch : Chan := if urgent then .urgent else .normal
  let s := updDpt (countFlits (wake s (19 + n)) ch (messageFlits ch 64)) fun d => { d with starts := d.starts ++ [st] }
  let s := if urgent then (injFire s 7 fun _ => true).1 else s
  if j.fallback then raise s P.sbt 10 else s

/-- The queued job of a suspended model is missed at selection (R553). -/
def missSuspended (s : State) (m : Nat) (meet : HodMeet) : State :=
  match (outstanding s m).find? fun o => match o with | .queued _ => true | _ => false with
  | some o => miss s m o meet
  | none => s

/-- The fallback job of class `c` that a core's bank takes first (R546); one of a suspended model is missed at selection (R553). -/
def fallbackFor (s : State) (n c : Nat) : Option Job :=
  s.dpt.fallbacks.find? fun j =>
    let m := modelOf s j.model
    decide (j.cls = c) && partSelects s m.part && coreServes s m n && decide (m.st ≠ 0) && !m.bad && (decide (m.st = 2) || ledgerOk s m n)
      && !(decide (m.st = 2) && j.reported) && !(decide (c ≥ 2) && windowHolds s m.part)

/-- The models of class `c` that may be selected on a core (R529, R580). DESIGN CHOICE: one whose entry is poisoned starts no job (R90). -/
def candidates (s : State) (n c : Nat) : List Nat :=
  (s.dpt.models.filter fun e =>
    let m := e.2
    decide (m.st ≠ 0) && !m.bad && decide (m.cls = c) && partSelects s m.part && coreServes s m n && (headRecord s m.inQ).isSome
      && (decide (m.st = 2) || ledgerOk s m n) && !(decide (m.st = 2) && m.headReported)
      && !(decide (c ≥ 2) && windowHolds s m.part)).map (·.1)

/-- A free normal bank receives a prompt, steady or bulk job (R527, R529, R546, R580); `meet` reaches the queue in the cycle of the pop. -/
def dispatchNormal (core : Nat) (meet : HodMeet) (s : State) : State :=
  if core ≥ 8 ∨ !accepts s P.dpt ∨ !bankFree s core false then s
  else
    let pick := [1, 2, 3].findSome? fun c =>
      match fallbackFor s core c with
      | some j => some (Sum.inl j)
      | none => (nextRound (candidates s core c) (s.dpt.last.get (core * 4 + c))).map fun m => Sum.inr (c, m)
    match pick with
    | none => s
    | some (.inl j) =>
      if (modelOf s j.model).st = 2 then (settleParts (miss s j.model (.fallback j) meet))
      else (settleParts (sendStart (updDpt s fun d => { d with fallbacks := d.fallbacks.erase j }) core false j))
    | some (.inr (c, m)) =>
      let s := updDpt s fun d => { d with last := SMap.set d.last (core * 4 + c) m }
      if (modelOf s m).st = 2 then (missSuspended s m meet)
      else
        let r := popJob s m meet
        match r.2 with
        | some j => (settleParts (sendStart r.1 core false j))
        | none => r.1
where
  /-- Round robin in ascending order after the last one selected. -/
  nextRound (l : List Nat) (last : Option Nat) : Option Nat :=
    match last with
    | none => l.head?
    | some k => match l.find? (k < ·) with | some m => some m | none => l.head?

/-- The core that serves an urgent job (R530). -/
def urgentCore (s : State) (m : Model) : Option Nat :=
  let ok (n : Nat) : Bool := coreServes s m n && bankFree s n true
  match (List.range 8).find? fun n => ok n && bankFree s n false with
  | some n => some n
  | none => (List.range 8).find? ok

/-- The sentinel models whose urgent batch queue Hod presents, in ascending URG_SLOT (R243, R530): slot and model. -/
def presented (s : State) : List (Nat × Nat) :=
  let ms := s.dpt.models.filter fun e =>
    let c := peekCtx s e.2.inQ
    decide (e.2.st ≠ 0) && !e.2.bad && decide (e.2.cls = 0) && partSelects s e.2.part && ctxUrgent c && decide (ctxCons c = 2)
      && (headRecord s e.2.inQ).isSome && !(decide (e.2.st = 2) && e.2.headReported)
  (List.range 256).flatMap fun k => (ms.filter fun e => ctxSlot (peekCtx s e.2.inQ) = k).map fun e => (k, e.1)

/-- The sentinel fallback job that goes first: one whose model has a free urgent bank, or is suspended, so that the job is missed (R546, R553). -/
def urgentFallback (s : State) : Option Job :=
  s.dpt.fallbacks.find? fun j =>
    let m := modelOf s j.model
    j.cls = 0 && !m.bad && partSelects s m.part && (if m.st = 2 then !j.reported else (urgentCore s m).isSome)

/-- A sentinel fallback job, or the presented urgent queue of the lowest slot whose model has a
free urgent bank (R530, R546, R582). -/
def dispatchUrgent (meet : HodMeet) (s : State) : State :=
  if !accepts s P.dpt then s
  else
    match urgentFallback s with
    | some j =>
      if (modelOf s j.model).st = 2 then (settleParts (miss s j.model (.fallback j) meet))
      else
        let n := (urgentCore s (modelOf s j.model)).getD 0
        (settleParts (sendStart (updDpt s fun d => { d with fallbacks := d.fallbacks.erase j }) n true j))
    | none =>
      match (presented s).find? fun e => (modelOf s e.2).st = 2 || (urgentCore s (modelOf s e.2)).isSome with
      | none => s
      | some (_, m) =>
        if (modelOf s m).st = 2 then (missSuspended s m meet)
        else
          let n := (urgentCore s (modelOf s m)).getD 0
          let r := popJob s m meet
          match r.2 with
          | some j => (settleParts (sendStart r.1 n true j))
          | none => r.1

/-! The end of a job (R485, R486, R533, R534, R550). -/

/-- A job enters the drift history of its model (R485, R486). -/
def driftEntry (s : State) (m count : Nat) : State :=
  let k := modelOf s m
  let h := (count :: k.history).take 256
  let n := h.countP fun c => decide (c > k.satLimit)
  let rises := decide (n ≥ k.driftJobs) && decide (k.driftJobs > 0) && !k.drifted
  let s := updModel s m fun k => { k with history := h, drifted := decide (n ≥ k.driftJobs) && decide (k.driftJobs > 0) }
  if rises then partEvent (raiseRecord s P.dpt 8 [m, n, h.foldl max 0, k.satLimit]) k.part 2 else s

/-- The mismatch count of a core, and its withdrawal (R550). -/
def mismatchEntry (s : State) (n : Nat) (mism : Bool) : State :=
  if !mism then updDpt s fun d => { d with mismatches := SMap.del d.mismatches n }
  else
    let c := SMap.getD s.dpt.mismatches n 0 + 1
    let lim := rf s R.DPT_MISMATCH_LIMIT 7 0
    let p := rf s (R.ASH_MODE n) 2 0
    let s := updDpt s fun d => { d with mismatches := SMap.set d.mismatches n c }
    if lim ≠ 0 ∧ c ≥ lim ∧ !rb s (R.DPT_PART_STATUS p) (8 + n) then
      let s := wb s (R.DPT_PART_STATUS p) (8 + n) true
      raise (hwFault s P.dpt 2 (n + p * 256)) P.dpt 10
    else s

/-- The dispatcher takes the end of a job: core, job, ENDJOB code, saturation count, mismatch (R533, R534, R546). -/
def jobEnded (s : State) (n : Nat) (j : Job) (code count : Nat) (mism : Bool) : State :=
  let p := (modelOf s j.model).part
  let s := updModel s j.model fun k => { k with ended := satAdd 32 k.ended 1, lastCode := code }
  let s := bump s (R.DPT_PART_JOBS p) 31 0 1
  let s := mismatchEntry (driftEntry s j.model count) n mism
  let s := if j.cls = 0 && !j.reported && decide (code ≠ 0x80) then sentinelJob s false else s
  let s :=
    if j.disposed then s
    else if code = 0x80 then
      dispose s (36 + n) j (if j.fallback then 2 else actionOf s j 1) true
    else freeBatch s (36 + n) j.record
  settleParts s

/-! DRAM windows and fences (R552 to R554). -/

/-- WINDOW_GRANT (R206, R211, R552): no alert stops the subchannel, and no prompt job of a partition that uses the subchannel runs, or 10 ms have passed (`late`). -/
def execWindowGrant (sub : Nat) (late : Bool) (s : State) : Host.Outcome State Fault Refusal :=
  let k := subch s sub
  let uses (m : Model) : Bool := bit (rf s (R.DPT_PART_CFG m.part) 23 16) sub
  let prompt := s.dpt.models.any fun e => uses e.2 && (runningJobs s e.1).any fun j => j.2.2.cls = 1
  if !k.winReq ∨ k.alert ∨ (prompt ∧ !late) then .next s
  else
    let s := updSub s sub fun k => { precharge k with st := .window, winReq := false }
    let s := setReg s R.DPT_WINDOW (BitVec.ofNat 32 (sub % 8 + 16 + 8 * b2n (s.dram.sub.any (·.winReq))))
    .next (raise s P.dpt 12)

/-- A subchannel has been fenced (R553): the partitions that use it are degraded, their models with DRAM suspended, the running
jobs of those aborted and taken as missed. -/
def dramLost (s : State) (u : Nat) : State :=
  let ps := (List.range 8).filter fun p => rb s (R.DPT_PART_CFG p) 12 && bit (rf s (R.DPT_PART_CFG p) 23 16) u
  let s := ps.foldl (fun s p => wb s (R.DPT_PART_STATUS p) 24 true) s
  let ms := (s.dpt.models.filter fun e => decide (e.2.st = 1) && bit e.2.flags 0 && ps.contains e.2.part).map (·.1)
  let s := ms.foldl (fun s m =>
    let s := updModel s m fun k => { k with st := 2 }
    (runningJobs s m).foldl (fun s e =>
      let s := sendAbort s e.1 e.2.1
      let s := missAborted s e.1 e.2.2
      updJobAt s e.1 e.2.1 fun j => { j with reported := true, disposed := true }) s) s
  settleParts s

/-- The spare layout is ready (R554): suspended models are loaded again and the partitions no longer degraded by DRAM. -/
def dramBack (s : State) : State :=
  let s := (s.dpt.models.filter fun e => e.2.st = 2).foldl (fun s e => updModel s e.1 fun k => { k with st := 1 }) s
  settleParts ((List.range 8).foldl (fun s p => wb s (R.DPT_PART_STATUS p) 24 false) s)

end Sys2Proof.Machine
end

