-- ==== Sys2Proof/Machine/Operands.lean ====
section
/-!
DEFINITION. Machine/Operands.lean: bundles, slot fields, operand selection and the reserved encodings of an Ashlar bundle (13 R406 to
R418, R423, R434, 14 R444 to R448, R455, R464 to R466).
-/
namespace Sys2Proof.Machine
open Sys2Proof

/-- The base of a core's own SRAM (R370). -/
def sramBase (n : Nat) : Nat := n * 0x01000000

/-- A range lies in a core's own SRAM. -/
def inOwn (n a len : Nat) : Bool := decide (sramBase n ≤ a) && decide (a + len ≤ sramBase n + 0x01000000)

/-- The bundle stored at an address (R406), as a number of 1,024 bits. -/
def bundleAt (s : State) (a : Nat) : Nat := ofLe (memBytes s a 128)

/-- A slot of a bundle, by its highest and lowest bit. -/
abbrev slotS (b : Nat) : Nat := bits b 1023 960
abbrev slotC (b : Nat) : Nat := bits b 959 896
abbrev slotV (b i : Nat) : Nat := if i = 0 then bits b 895 768 else bits b 767 640
abbrev slotA (b : Nat) : Nat := bits b 639 384
abbrev slotM (b i : Nat) : Nat := if i = 0 then bits b 383 256 else bits b 255 128
abbrev slotI (b : Nat) : Nat := bits b 127 0

/-- The PP mark (R429). -/
def ppMark (b : Nat) : Bool := bit b 959

/-- Every slot but I is all zero, the PP mark aside. -/
def isEmpty (b : Nat) : Bool := decide (bits b 1023 960 = 0) && decide (bits b 958 128 = 0)

/-- A scalar register as a number (R410). -/
def xr (b : Bank) (r : Nat) : Nat := if r = 0 then 0 else (nth b.x r 0).toNat

/-- A predicate register; p0 reads 1. -/
def pr (b : Bank) (r : Nat) : Bool := r = 0 || bit b.p r

/-- A slot's predicate holds (R411). -/
def predOk (b : Bank) (pred : Nat) (neg : Bool) : Bool := pr b pred != neg

/-- IMMSEL values that are not reserved (R414). -/
def immselOk (i : Nat) : Bool := decide (i ≤ 1) || (decide (4 ≤ i) && decide (i ≤ 13))

/-- Operand B (R414): `reg` is the register the slot names, `imm` its IMM16. -/
def operandB (b i reg imm : Nat) : Nat :=
  let w (k : Nat) : Nat := bits (slotI b) (32 * k + 31) (32 * k)
  match i with
  | 0 => reg
  | 1 => unsx 64 (sx 16 imm)
  | 4 => unsx 64 (sx 32 (w 0))
  | 5 => unsx 64 (sx 32 (w 1))
  | 6 => unsx 64 (sx 32 (w 2))
  | 7 => unsx 64 (sx 32 (w 3))
  | 8 => w 0
  | 9 => w 1
  | 10 => w 2
  | 11 => w 3
  | 12 => w 0 + w 1 * 2 ^ 32
  | _ => w 2 + w 3 * 2 ^ 32

/-! S and C slots (R415). -/

abbrev scOp (s : Bool) (w : Nat) : Nat := if s then bits w 63 56 else bits w 62 56
abbrev scPred (w : Nat) : Nat := bits w 55 53
abbrev scNeg (w : Nat) : Bool := bit w 52
abbrev scRd (w : Nat) : Nat := bits w 51 47
abbrev scRs1 (w : Nat) : Nat := bits w 46 42
abbrev scRs2 (w : Nat) : Nat := bits w 41 37
abbrev scSel (w : Nat) : Nat := bits w 36 33
abbrev scImm (w : Nat) : Nat := bits w 32 17
abbrev scL (w : Nat) : Nat := bits w 16 15

/-- Scalar opcodes that exist (R418). -/
def sOpOk (o : Nat) : Bool :=
  decide (o ≤ 0x19) || (decide (0x20 ≤ o) && decide (o ≤ 0x25)) || (decide (0x28 ≤ o) && decide (o ≤ 0x2D))
    || (decide (0x30 ≤ o) && decide (o ≤ 0x3A)) || (decide (0x40 ≤ o) && decide (o ≤ 0x46)) || (decide (0x48 ≤ o) && decide (o ≤ 0x4B))

/-- The opcode writes a predicate. -/
def sPredDest (o : Nat) : Bool :=
  (decide (0x20 ≤ o) && decide (o ≤ 0x25)) || (decide (0x28 ≤ o) && decide (o ≤ 0x2B)) || o = 0x39 || o = 0x3A

/-- The S slot holds nothing reserved (R408, R415, R418). -/
def sSlotOk (w : Nat) : Bool :=
  let o := scOp true w
  w = 0 || (sOpOk o && decide (bits w 16 0 = 0) && immselOk (scSel w)
    && (!sPredDest o || decide (scRd w < 8))
    && (!(decide (0x28 ≤ o) && decide (o ≤ 0x2B)) || (decide (scRs1 w < 8) && decide (scRs2 w < 8)))
    && (!(decide (0x48 ≤ o) && decide (o ≤ 0x4B)) || decide (scSel w ≠ 0)))

/-- Control opcodes that exist (R423). -/
def cOpOk (o : Nat) : Bool :=
  decide (o ≤ 0x06) || (decide (0x08 ≤ o) && decide (o ≤ 0x0D)) || (decide (0x10 ≤ o) && decide (o ≤ 0x12))
    || o = 0x18 || o = 0x19 || o = 0x20

/-- The C slot holds nothing reserved (R408, R415, R423, R425 to R427, R430 to R432, R534). -/
def cSlotOk (w : Nat) : Bool :=
  let o := scOp false w
  let i := scImm w
  cOpOk o && decide (bits w 14 0 = 0) && immselOk (scSel w)
    && (decide (scL w = 0) || decide (4 ≤ o ∧ o ≤ 6))
    && (o ≠ 0x04 || (decide (scSel w ≠ 1) && decide (1 ≤ sx 16 i)))
    && (o ≠ 0x08 || decide (bits i 7 0 ≤ 0x80))
    && (o ≠ 0x0C || decide (bits i 3 0 ≤ 4))
    && (o ≠ 0x0D || decide (bits i 15 3 = 0))
    && (!(o = 0x10 || o = 0x11) || decide (bits i 15 4 = 0))
    && (o ≠ 0x18 || decide (scRd w % 2 = 0))
    && (o ≠ 0x20 || decide (bits i 15 1 = 0))

/-! V slots (R416, R464, R466). -/

abbrev vOp (w : Nat) : Nat := bits w 127 120
abbrev vPred (w : Nat) : Nat := bits w 119 117
abbrev vNeg (w : Nat) : Bool := bit w 116
abbrev vVd (w : Nat) : Nat := bits w 115 111
abbrev vVa (w : Nat) : Nat := bits w 110 106
abbrev vVb (w : Nat) : Nat := bits w 105 101
abbrev vVc (w : Nat) : Nat := bits w 100 96
abbrev vXs (w : Nat) : Nat := bits w 95 91
abbrev vSel (w : Nat) : Nat := bits w 90 87
abbrev vT (w : Nat) : Nat := bits w 86 84
abbrev vT2 (w : Nat) : Nat := bits w 83 81
abbrev vSat (w : Nat) : Bool := bit w 80
abbrev vRm (w : Nat) : Nat := bits w 79 78
abbrev vBs (w : Nat) : Bool := bit w 77
abbrev vImm (w : Nat) : Nat := bits w 76 61
abbrev vR (w : Nat) : Nat := bits w 60 57 + 1
abbrev vDiv (w : Nat) : Nat := bits w 56 49
abbrev vPart (w : Nat) : Nat := bits w 42 41

/-- Bits of an element type (R464, R465). -/
def ew (t : Nat) : Nat := match t with | 2 => 16 | 3 => 32 | 4 => 16 | 5 => 32 | _ => 8

/-- Lanes of a register by element type. -/
def lanes (t : Nat) : Nat := 2048 / ew t

/-- The types an opcode takes: 0 none (T zero), 1 integer, 2 FP, 3 integer or FP, 4 any, 5 not FP8, 6 bytes; none where the
opcode is reserved (R466). -/
def vTypes (o : Nat) : Option Nat :=
  match o with
  | 0x00 | 0x01 | 0x02 | 0x04 => some 0
  | 0x03 | 0x1F | 0x20 => some 4
  | 0x08 | 0x09 | 0x0A | 0x0C | 0x0D | 0x0E | 0x0F | 0x10 | 0x1C | 0x1D | 0x1E | 0x24 | 0x25 => some 3
  | 0x0B | 0x14 | 0x15 | 0x16 | 0x17 | 0x18 | 0x19 => some 1
  | 0x28 => some 5
  | 0x29 | 0x2C | 0x2D | 0x2E => some 2
  | 0x30 => some 6
  | _ => none

/-- A type is allowed in a class of `vTypes`. -/
def typeOk (c t : Nat) : Bool :=
  match c with
  | 0 => t = 0
  | 1 => decide (t < 4)
  | 2 => decide (t = 4 ∨ t = 5)
  | 3 => decide (t ≤ 5)
  | 4 => true
  | 5 => decide (t ≤ 5)
  | _ => decide (t ≤ 1)

/-- The vector registers that an opcode reads as VA, VB, VC, and whether it writes VD (R466). -/
def vReads (o : Nat) : Bool × Bool × Bool × Bool :=
  match o with
  | 0x01 | 0x03 => (false, false, false, true)
  | 0x02 => (true, false, false, false)
  | 0x08 | 0x09 | 0x0A | 0x0B | 0x0D | 0x0E | 0x14 | 0x15 | 0x16 | 0x17 | 0x18 | 0x19 | 0x1C | 0x1D | 0x1E | 0x30 =>
    (true, true, false, true)
  | 0x0C | 0x1F => (true, true, true, true)
  | 0x00 => (false, false, false, false)
  | _ => (true, false, false, true)

/-- Operand B is used: VBCAST, the address of VLD and VST, or BS. -/
def vUsesB (w : Nat) : Bool := let o := vOp w; o = 0x03 || o = 0x01 || o = 0x02 || vBs w

/-- A VCVT uses SAT: an integer is converted to an integer type that may not hold it (R472). DEDUCED: a signed type of the same width as UINT8 counts, and
under BS any type no wider than the source. -/
def cvtSat (w : Nat) : Bool :=
  decide (vT w < 4) && decide (vT2 w < 4) && decide (ew (vT2 w) ≤ ew (vT w)) && (decide (vT2 w ≠ vT w) || vBs w)

/-- A VCVT uses RM: its result is an integer that is rounded (R464, R472). -/
def cvtRm (w : Nat) : Bool := decide (vT2 w < 4) && (decide (4 ≤ vT w) || vBs w)

/-- A V slot holds nothing reserved (R408, R464, R466, R472 to R474): VMULH may carry SAT, which it ignores (R470). -/
def vSlotOk (w : Nat) : Bool :=
  let o := vOp w
  let t := vT w
  let r := vReads o
  let int := decide (t < 4)
  let usesSat := (decide (o = 0x08 ∨ o = 0x09 ∨ o = 0x0A ∨ o = 0x0B ∨ o = 0x0C ∨ o = 0x0F ∨ o = 0x10 ∨ o = 0x17) && int)
    || (o = 0x20 && cvtSat w)
  let usesRm := o = 0x19 || (o = 0x20 && cvtRm w) || (o = 0x28 && int && decide (vDiv w ≠ 0))
  w = 0 || (match vTypes o with
    | none => false
    | some c => typeOk c t
      && (o = 0x20 || (decide (vT2 w = 0) && decide (vPart w = 0)))
      && (!vSat w || usesSat) && decide (vRm w ≠ 3) && (decide (vRm w = 0) || usesRm)
      && (!vBs w || r.2.1 || (o = 0x20 && decide (t = 3 ∨ t = 5)))
      && immselOk (vSel w)
      && (vUsesB w || (decide (vSel w = 0) && decide (vXs w = 0)))
      && (decide (vSel w = 0) || decide (o = 0x01 ∨ o = 0x02) || decide (vXs w = 0))
      && (decide (vSel w = 1) || decide (vImm w = 0))
      && (o = 0x28 || o = 0x29 || decide (vR w = 1)) && (o = 0x28 || decide (vDiv w = 0))
      && decide (bits w 48 43 = 0) && decide (bits w 40 0 = 0)
      && (r.2.2.2 || decide (vVd w = 0)) && (r.1 || decide (vVa w = 0))
      && ((r.2.1 && !vBs w) || decide (vVb w = 0)) && (r.2.2.1 || decide (vVc w = 0))
      && (o ≠ 0x28 || decide (vVa w + vR w ≤ 32))
      && (o ≠ 0x29 || (decide (vVa w + vR w ≤ 32) && decide (vVd w ≤ 30) && decide (lanes t * vR w ≤ 256)))
      && (o ≠ 0x20 || decide (vPart w < max (lanes t) (lanes (vT2 w)) / min (lanes t) (lanes (vT2 w)))))

/-! M slots (R417, R434). -/

abbrev mOp (w : Nat) : Nat := bits w 127 122
abbrev mPred (w : Nat) : Nat := bits w 121 119
abbrev mNeg (w : Nat) : Bool := bit w 118
abbrev mRa (w : Nat) : Nat := bits w 117 113
abbrev mRb (w : Nat) : Nat := bits w 112 108
abbrev mRc (w : Nat) : Nat := bits w 107 103
abbrev mSel (w : Nat) : Nat := bits w 102 99
abbrev mDst (w : Nat) : Nat := bits w 98 96
abbrev mHalf (w : Nat) : Nat := bits w 95 95
abbrev mArr (w : Nat) : Nat := bits w 94 93
abbrev mGrain (w : Nat) : Bool := bit w 92
abbrev mBulk (w : Nat) : Bool := bit w 91
abbrev mPiece (w : Nat) : Nat := 64 * 2 ^ bits w 90 89
abbrev mLen (w : Nat) : Nat := bits w 88 72 + 1
abbrev mBoff (w : Nat) : Nat := bits w 71 56

/-- Bytes of a buffer half by DST (R382): weight buffer 64 KiB, activation buffers 32 KiB. -/
def halfSize (dst : Nat) : Nat := if dst = 1 then 0x10000 else 0x8000

/-- An M slot holds nothing reserved (R408, R417, R434, R441, R442). -/
def mSlotOk (w : Nat) : Bool :=
  let o := mOp w
  w = 0 || (decide (o ≤ 5) && immselOk (mSel w) && decide (mDst w ≤ 3) && decide (mBoff w % 64 = 0)
    && (o = 4 || decide (bits w 55 0 = 0))
    && (!(o = 2 || o = 3) || decide (mDst w = 0))
    && (o ≠ 4 || (decide (mDst w = 2 ∨ mDst w = 3) && decide (bits w 88 72 = 0) && decide (bits w 10 0 = 0)))
    && (!mGrain w || (decide (o = 1 ∨ o = 2) && decide (mLen w % 64 = 0)))
    && (o = 4 || decide (mDst w = 0) || decide (mBoff w + mLen w ≤ halfSize (mDst w))))

/-! A slot (R416, R444 to R447, R455). -/

abbrev aOp (w : Nat) : Nat := bits w 255 248
abbrev aPred (w : Nat) : Nat := bits w 247 245
abbrev aNeg (w : Nat) : Bool := bit w 244
abbrev aDf (w : Nat) : Nat := bits w 243 242
abbrev aSel (w : Nat) : Nat := bits w 241 238
abbrev aXr (w : Nat) : Nat := bits w 237 233

/-- The A slot holds nothing reserved (R408, R416, R444, R445, R447, R455); a field that the command does not use is zero: XR beside a pool word, ZP of an
FP or raw output. -/
def aSlotOk (w : Nat) : Bool :=
  let o := aOp w
  let fmt := bits w 222 220
  w = 0 || (immselOk (aSel w) && (decide (aSel w = 0) || decide (aXr w = 0)) && match o with
    | 0x00 => decide (bits w 243 0 = 0)
    | 0x01 => decide (aDf w ≠ 3) && decide (bits w 232 223 = 0) && decide (bits w 160 0 = 0) && decide (fmt ≤ 5)
        && (decide (fmt = 2) || decide (bits w 219 218 = 0)) && (decide (aDf w ≠ 1) || !bit w 217)
    | 0x04 => decide (aDf w = 0) && decide (fmt ≤ 6) && !bit w 214 && decide (bits w 140 0 = 0)
        && (decide (fmt ≠ 6) || (decide (bits w 217 216 = 0) && decide (bits w 173 166 = 0) && decide (bits w 227 223 = 0)))
        && (decide (fmt < 3) || decide (bits w 173 166 = 0))
        && (if bit w 219 then decide (bits w 232 228 = 0) && decide (bits w 165 150 = 0)
            else !bit w 218 && decide (bits w 149 141 = 0))
    | 0x05 => decide (aDf w = 0) && decide (bits w 232 214 = 0) && decide (bits w 195 0 = 0)
    | _ => false)

/-! Destinations of one bundle (R409). -/

/-- The scalar registers that a bundle names as destinations: S, C (two for QALLOC). -/
def xDests (b : Nat) : List Nat :=
  let s := slotS b
  let c := slotC b
  let o := scOp true s
  let k := scOp false c
  (if o = 0 ∨ sPredDest o ∨ o = 0x2D ∨ (0x48 ≤ o ∧ o ≤ 0x4B) then [] else [scRd s])
    ++ (if k = 0x18 then [scRd c, scRd c + 1]
        else if k = 2 ∨ k = 3 ∨ k = 6 ∨ k = 0x0C ∨ k = 0x10 ∨ k = 0x11 ∨ k = 0x12 ∨ k = 0x19 ∨ k = 0x20 then [scRd c] else [])

/-- The vector registers that a bundle names as destinations. -/
def vDests (b : Nat) : List Nat :=
  [0, 1].flatMap fun i =>
    let w := slotV b i
    if !(vReads (vOp w)).2.2.2 then [] else if vOp w = 0x29 then [vVd w, vVd w + 1] else [vVd w]

/-- The bundle is free of reserved encodings and of destinations named twice (R408, R409). -/
def bundleOk (b : Nat) : Bool :=
  sSlotOk (slotS b) && cSlotOk (slotC b) && vSlotOk (slotV b 0) && vSlotOk (slotV b 1) && aSlotOk (slotA b)
    && mSlotOk (slotM b 0) && mSlotOk (slotM b 1)
    && ((xDests b).filter (· ≠ 0)).dedup.length = ((xDests b).filter (· ≠ 0)).length
    && (vDests b).dedup.length = (vDests b).length

/-- The first slot in the order S, C, V0, V1, A, M0, M1 that holds something reserved; 7 where none does by itself. -/
def badSlot (b : Nat) : Nat :=
  if !sSlotOk (slotS b) then 0 else if !cSlotOk (slotC b) then 1 else if !vSlotOk (slotV b 0) then 2
  else if !vSlotOk (slotV b 1) then 3 else if !aSlotOk (slotA b) then 4 else if !mSlotOk (slotM b 0) then 5
  else if !mSlotOk (slotM b 1) then 6 else 7

/-- An exception (R397): cause, slot, Mortar status, request address. -/
structure Exc where
  cause : Nat
  slot : Nat
  st : Nat := 0
  addr : Option Nat := none
deriving DecidableEq, Repr

/-- The causes of R397 in the order of the ASH page. -/
abbrev EX.window : Nat := 1
abbrev EX.unmapped : Nat := 2
abbrev EX.align : Nat := 3
abbrev EX.illegal : Nat := 4
abbrev EX.width : Nat := 5
abbrev EX.dramUrgent : Nat := 6
abbrev EX.poisonUse : Nat := 7
abbrev EX.reqFailed : Nat := 8
abbrev EX.stallTimeout : Nat := 9

/-- The partition of a core. -/
def corePart (s : State) (n : Nat) : Nat := rf s (R.ASH_MODE n) 2 0

/-- A core request passes the protection windows (R141, R397). -/
def coreWindow (s : State) (n : Nat) (p : Perm) (a len : Nat) : Bool := windowOk s (corePart s n) .core p a len

/-- The width of a core by its class (R386); 0 where it is disabled. -/
def coreWidth (s : State) (n : Nat) : Nat :=
  let c := rf s (R.ASH_CLASS n) 2 0
  if c ≤ 4 then 512 - 16 * c else 0

end Sys2Proof.Machine
end

