-- ==== Sys2Proof/Machine/Vector.lean ====
section
/-!
DEFINITION. Machine/Vector.lean: the results of the vector instructions, lane by lane (14 R464 to R474).
-/
namespace Sys2Proof.Machine
open Sys2Proof

/-- Lane `i` of a register of element type `t`. -/
def lane (t v i : Nat) : Nat := (v >>> (ew t * i)) % 2 ^ ew t

/-- A register from its lanes of `w` bits, lowest first. -/
def ofLanes (w : Nat) : List Nat → Nat
  | [] => 0
  | x :: xs => x % 2 ^ w + 2 ^ w * ofLanes w xs

/-- The format of an FP type. -/
def fmtOf (t : Nat) : Fmt := match t with | 4 => bf16 | 5 => fp32 | 6 => e4m3 | _ => e5m2

/-- A lane of an integer type as a number. -/
def laneInt (t u : Nat) : Int := if t = 1 then (u % 256 : Nat) else sx (ew t) u

/-- The limits of an integer type. -/
def limits (t : Nat) : Int × Int :=
  if t = 1 then (0, 255) else (-((2 ^ (ew t - 1) : Nat) : Int), (2 ^ (ew t - 1) : Nat) - 1)

/-- An exact integer put into a lane of an integer type: the nearest limit, or the low bits (R470). -/
def toLane (t : Nat) (sat : Bool) (x : Int) : Nat :=
  let l := limits t
  unsx (ew t) (if sat then (if x < l.1 then l.1 else if x > l.2 then l.2 else x) else x)

/-- A lane of ones or of zeros (R466: comparisons). -/
def allOnes (t : Nat) (b : Bool) : Nat := if b then 2 ^ ew t - 1 else 0

/-- VADD, VSUB. -/
def laneAddSub (o t : Nat) (sat : Bool) (a b : Nat) : Nat :=
  if t < 4 then toLane t sat (if o = 0x08 then laneInt t a + laneInt t b else laneInt t a - laneInt t b)
  else
    let F := fmtOf t
    let y := fdec F b
    fenc F (fadd (fdec F a) (if o = 0x08 then y else y.flip))

/-- VMUL. -/
def laneMul (t : Nat) (sat : Bool) (a b : Nat) : Nat :=
  if t < 4 then toLane t sat (laneInt t a * laneInt t b) else fenc (fmtOf t) (fmul (fdec (fmtOf t) a) (fdec (fmtOf t) b))

/-- VMULH: the high half of the exact product. -/
def laneMulHigh (t a b : Nat) : Nat := unsx (ew t) (laneInt t a * laneInt t b / (2 ^ ew t : Nat))

/-- VMAC: VC + VA × VB, rounded once. -/
def laneMac (t : Nat) (sat : Bool) (a b c : Nat) : Nat :=
  if t < 4 then toLane t sat (laneInt t c + laneInt t a * laneInt t b)
  else
    let F := fmtOf t
    fenc F (fadd (fdec F c) (fmul (fdec F a) (fdec F b)))

/-- VMIN, VMAX. -/
def laneMinMax (o t a b : Nat) : Nat :=
  if t < 4 then
    let less := decide (laneInt t a < laneInt t b)
    if (o = 0x0D) = less then a else b
  else
    let F := fmtOf t
    fenc F (if o = 0x0D then fmin (fdec F a) (fdec F b) else fmax (fdec F a) (fdec F b))

/-- VABS, VNEG: of an FP type the sign bit alone, a NaN's payload kept. -/
def laneAbsNeg (o t : Nat) (sat : Bool) (a : Nat) : Nat :=
  if t < 4 then
    let x := laneInt t a
    toLane t sat (if o = 0x0F then (if x < 0 then -x else x) else -x)
  else
    let h := 2 ^ (ew t - 1)
    if o = 0x0F then a % h else (a + h) % (2 * h)

/-- VAND, VOR, VXOR. -/
def laneBits (o a b : Nat) : Nat := match o with | 0x14 => a &&& b | 0x15 => a ||| b | _ => a ^^^ b

/-- VSHL, VSHR by the unsigned lane of VB (R470). -/
def laneShift (o t : Nat) (sat : Bool) (a b : Nat) : Nat :=
  let x := laneInt t a
  if o = 0x17 then
    if sat then toLane t true (x * (2 ^ min b (2 * ew t) : Nat))
    else if b ≥ ew t then 0 else toLane t false (x * (2 ^ b : Nat))
  else unsx (ew t) (x / (2 ^ min b (ew t) : Nat))

/-- VSHRR: the exact quotient by 2^VB rounded by RM. -/
def laneShiftRound (t rm a b : Nat) : Nat := unsx (ew t) (divRound rm (laneInt t a) (2 ^ min b 64))

/-- VCMPEQ, VCMPLT, VCMPLE. -/
def laneCompare (o t a b : Nat) : Nat :=
  allOnes t (
    if t < 4 then
      let x := laneInt t a
      let y := laneInt t b
      match o with | 0x1C => decide (x = y) | 0x1D => decide (x < y) | _ => decide (x ≤ y)
    else
      let x := fdec (fmtOf t) a
      let y := fdec (fmtOf t) b
      match o with | 0x1C => feq x y | 0x1D => flt x y | _ => flt x y || feq x y)

/-- A lane as a result (R476): a NaN of an FP type becomes the canonical one. -/
def canonLane (t a : Nat) : Nat := if 4 ≤ t ∧ (fdec (fmtOf t) a).isNan then (fmtOf t).nan else a

/-- VSEL. -/
def laneSelect (t a b c : Nat) : Nat := canonLane t (if c ≠ 0 then a else b)

/-- A value narrowed to an integer type: a NaN gives 0, a value beyond the range the nearest limit, or under `wrap` its low bits (R472). -/
def valToInt (t rm : Nat) (wrap : Bool) (v : FVal) : Nat :=
  match v with
  | .nan => 0
  | .inf neg => toLane t true (if neg then -(2 ^ 70 : Nat) else (2 ^ 70 : Nat))
  | .fin neg m e => toLane t (!wrap) (roundInt rm neg m (min e 400))

/-- One lane converted from type `t` to type `t2` (R472); `scale` is the FP32 factor under BS. DEDUCED: a scaled
integer source stays an integer source: SAT 0 keeps the low bits of the rounded product. -/
def laneConvert (t t2 : Nat) (sat : Bool) (rm : Nat) (scale : Option Nat) (a : Nat) : Nat :=
  match scale with
  | none =>
    if t < 4 ∧ t2 < 4 then toLane t2 sat (laneInt t a)
    else
      let v := if t < 4 then FVal.ofInt (laneInt t a) else fdec (fmtOf t) a
      if t2 < 4 then valToInt t2 rm false v else if t2 ≥ 6 then (fencClamp (fmtOf t2) v).1 else fenc (fmtOf t2) v
  | some b =>
    let v := fmul (if t < 4 then FVal.ofInt (laneInt t a) else fdec (fmtOf t) a) (f32 (b % 2 ^ 32))
    if t2 < 4 then valToInt t2 rm (decide (t < 4) && !sat) v else if t2 ≥ 6 then (fencClamp (fmtOf t2) v).1 else fenc (fmtOf t2) v

/-- VCVT of a whole register (R472): `old` is VD before. -/
def convertVec (w old a : Nat) (scale : Option Nat) : Nat :=
  let t := vT w
  let t2 := vT2 w
  let n := lanes t
  let n2 := lanes t2
  let c (i : Nat) : Nat := laneConvert t t2 (vSat w) (vRm w) scale (lane t a i)
  if n ≥ n2 then ofLanes (ew t2) ((List.range n2).map fun i => c (vPart w * n2 + i))
  else ofLanes (ew t2) ((List.range n2).map fun i =>
    if vPart w * n ≤ i ∧ i < vPart w * n + n then c (i - vPart w * n) else lane t2 old i)

/-- VRMAX: the greatest lane, in lane 0. -/
def maxVec (t a : Nat) : Nat :=
  let l := (List.range (lanes t)).map (lane t a)
  if t < 4 then l.tail.foldl (fun m x => if laneInt t m < laneInt t x then x else m) (l.headD 0)
  else
    let F := fmtOf t
    fenc F ((l.map (fdec F)).foldl fmax .nan)

/-- VRSUM: INT32 of an integer type, saturated; FP32 of an FP type, added in ascending order from +0, each addition rounded. -/
def sumVec (t a : Nat) : Nat :=
  let l := (List.range (lanes t)).map (lane t a)
  if t < 4 then toLane 3 true ((l.map (laneInt t)).sum)
  else fenc fp32 ((l.map (fdec (fmtOf t))).foldl (fun x y => rnd32 (fadd x y)) (.fin false 0 0))

/-- VPOOL of one lane of the registers read (R473). -/
def poolLane (t div rm : Nat) (xs : List Nat) : Nat :=
  if t < 4 then
    if div = 0 then xs.tail.foldl (fun m x => if laneInt t m < laneInt t x then x else m) (xs.headD 0)
    else toLane t true (divRound rm ((xs.map (laneInt t)).sum) div)
  else
    let F := fmtOf t
    let vs := xs.map (fdec F)
    if div = 0 then (if vs.any (·.isNan) then F.nan else fenc F (vs.foldl fmax .nan))
    else
      let sum := vs.foldl (fun x y => rnd32 (fadd x y)) (.fin false 0 0)
      fenc F (rnd32 (fdiv sum (FVal.ofInt div)))

/-- VPOOL. -/
def poolVec (w : Nat) (regs : List Nat) : Nat :=
  let t := vT w
  ofLanes (ew t) ((List.range (lanes t)).map fun i => poolLane t (vDiv w) (vRm w) (regs.map fun r => lane t r i))

/-- VQROW (R474): the row as INT8 lanes and its scale as FP32. -/
def quantRow (t : Nat) (regs : List Nat) : Nat × Nat :=
  let vs := regs.flatMap fun r => (List.range (lanes t)).map fun i => fdec (fmtOf t) (lane t r i)
  let abs (v : FVal) : FVal := if v.neg then v.flip else v
  let amax := (vs.filter fun v => !v.isNan).foldl (fun m v => if flt m (abs v) then abs v else m) (.fin false 0 0)
  let s := fenc fp32 (fdiv amax (.fin false 127 0))
  let q (v : FVal) : Nat :=
    match amax with
    | .fin _ m _ =>
      if m = 0 ∨ v.isNan then 0
      else match fdiv v (f32 s) with
        | .fin neg m e => unsx 8 (let x := roundInt 0 neg m (min e 400); if x > 127 then 127 else if x < -127 then -127 else x)
        | .inf neg => unsx 8 (if neg then -127 else 127)
        | .nan => 0
    | _ => 0
  (ofLanes 8 (vs.map q), s)

/-! VRCP, VRSQRT, VEXP (R471). -/

/-- The magnitude pattern of the greatest FP32 number not above a positive value n ÷ d, and whether it equals it. -/
def floorPattern (n d : Nat) : Nat × Bool :=
  let k := 320 + bitLen d
  let x := (n <<< k) / d
  let exact := decide ((n <<< k) % d = 0)
  -- x × 2^-k truncated to FP32
  let e : Int := -(k : Int)
  let qmin : Int := -149
  let q : Int := max (e + bitLen x - 24) qmin
  let r := x >>> (q - e).toNat
  ((q - qmin).toNat * 2 ^ 23 + r, exact && decide (r <<< (q - e).toNat = x))

/-- The result allowed by an error bound of `u` units in the last place that the hardware gives: `f` is the pattern below the
exact value, `exact` whether it equals it. -/
def within (op x : Nat) (u : Nat) (f : Nat × Bool) : Nat :=
  let lo := if f.2 then f.1 - u else f.1 + 1 - u
  min (lo + Config.approx op x % (f.1 + u + 1 - lo)) fp32.top

/-- e^x for a finite x, as a number n of units of 2^-400: e^(|x| ÷ 2^12) by its series, raised by squaring, in units of 2^-1000, inverted for
a negative x. -/
def expUnits (neg : Bool) (m : Nat) (e : Int) : Nat :=
  let one := 2 ^ 1000
  let y : Nat := if e + 988 ≥ 0 then m <<< (e + 988).toNat else m >>> (-(e + 988)).toNat
  let series := (List.range 80).foldl (fun (a : Nat × Nat) k => let t := a.2 * y / one / (k + 1); (a.1 + t, t)) (one, one)
  let p := (List.range 12).foldl (fun v _ => v * v / one) series.1
  (if neg then one * one / (p + p / 2 ^ 900 + 1) else p) >>> 600

/-- VRCP, VRSQRT, VEXP of an FP32 pattern; the cases of R471 and, elsewhere, a result within the error bound. -/
def approx32 (o x : Nat) : Nat :=
  match f32 x with
  | .nan => fp32.nan
  | .inf neg =>
    if o = 0x2C then b2n neg * 2 ^ 31
    else if o = 0x2D then (if neg then fp32.nan else 0)
    else if neg then 0 else fp32.top
  | .fin neg m e =>
    if o = 0x2C then
      if m = 0 then fp32.top + b2n neg * 2 ^ 31
      else within 0 x 1 (if e ≥ 0 then floorPattern 1 (m <<< e.toNat) else floorPattern (2 ^ (-e).toNat) m) + b2n neg * 2 ^ 31
    else if o = 0x2D then
      if m = 0 then fp32.top + b2n neg * 2 ^ 31
      else if neg then fp32.nan
      else
        -- 1 ÷ √(m × 2^e) = √(2^(−e) ÷ m), in units of 2^-200
        let n := if e ≥ 0 then 2 ^ 400 / (m <<< e.toNat) else (2 ^ 400 <<< (-e).toNat) / m
        let whole := if e ≥ 0 then decide (2 ^ 400 % (m <<< e.toNat) = 0) else decide ((2 ^ 400 <<< (-e).toNat) % m = 0)
        let r := Nat.sqrt n
        let f := floorPattern r (2 ^ 200)
        within 1 x 1 (f.1, f.2 && whole && decide (r * r = n))
    else if m = 0 then 0x3F800000
    else if e + bitLen m > 8 then (if neg then within 2 x 2 (0, false) else fp32.top)
    else within 2 x 2 ((floorPattern (expUnits neg m e) (2 ^ 400)).1, false)

/-- The same on a lane of BF16 or FP32. -/
def laneApprox (o t a : Nat) : Nat := if t = 5 then approx32 o a else fenc bf16 (f32 (approx32 o (a * 65536)))

/-- VSHUF: lane i is lane (VB lane i) of VA. -/
def shuffleVec (a b : Nat) : Nat := ofLanes 8 ((List.range 256).map fun i => lane 0 a (lane 0 b i))

/-- The lanes of a result computed lane by lane. -/
def mapLanes (t : Nat) (f : Nat → Nat) : Nat := ofLanes (ew t) ((List.range (lanes t)).map f)

/-- The register that a V slot writes, from VA, VB (or the broadcast B), VC and the old VD; a second register for VQROW. VLD is
not among them. -/
def vectorResult (w bval : Nat) (va vb vc old : Nat) (regs : List Nat) : Nat × Option Nat :=
  let o := vOp w
  let t := vT w
  let sat := vSat w
  let vb := if vBs w then mapLanes t (fun _ => bval % 2 ^ ew t) else vb
  let l2 (f : Nat → Nat → Nat) : Nat × Option Nat := (mapLanes t fun i => f (lane t va i) (lane t vb i), none)
  match o with
  | 0x03 => (mapLanes t fun _ => canonLane t (bval % 2 ^ ew t), none)
  | 0x04 => (va, none)
  | 0x08 | 0x09 => l2 (laneAddSub o t sat)
  | 0x0A => l2 (laneMul t sat)
  | 0x0B => l2 (laneMulHigh t)
  | 0x0C => (mapLanes t fun i => laneMac t sat (lane t va i) (lane t vb i) (lane t vc i), none)
  | 0x0D | 0x0E => l2 (laneMinMax o t)
  | 0x0F | 0x10 => (mapLanes t fun i => laneAbsNeg o t sat (lane t va i), none)
  | 0x14 | 0x15 | 0x16 => l2 (laneBits o)
  | 0x17 | 0x18 => l2 (laneShift o t sat)
  | 0x19 => l2 (laneShiftRound t (vRm w))
  | 0x1C | 0x1D | 0x1E => l2 (laneCompare o t)
  | 0x1F => (mapLanes t fun i => laneSelect t (lane t va i) (lane t vb i) (lane t vc i), none)
  | 0x20 => (convertVec w old va (if vBs w then some bval else none), none)
  | 0x24 => (maxVec t va, none)
  | 0x25 => (sumVec t va, none)
  | 0x28 => (poolVec w regs, none)
  | 0x29 => let q := quantRow t regs; (q.1, some q.2)
  | 0x2C | 0x2D | 0x2E => (mapLanes t fun i => laneApprox o t (lane t va i), none)
  | _ => (shuffleVec va vb, none)

end Sys2Proof.Machine
end

