-- ==== Sys2Proof/Machine/ArrayUnit.lean ====
section
/-!
DEFINITION. Machine/ArrayUnit.lean: the array commands MMA, DRAIN and ACLR: their fields, their shapes, what they read and write
(14 R444 to R463, 12 R380 to R392, 15 R478 to R481).
-/
namespace Sys2Proof.Machine
open Sys2Proof

/-! The fields of a command (R445, R446). -/

/-- The command that an A slot issues; `b` is operand B, `xd` the register XD names, `table` the scale table as read. -/
def arrayCmd (w b xd : Nat) (urgent : Bool) (table : List (Nat × Nat)) : ArrayCmd :=
  let o := aOp w
  let row := bits w 213 205 + b % 512
  if o = 1 then
    { urgent := urgent, op := 1, df := aDf w, fmt := bits w 222 220, we5 := bit w 219, ae5 := bit w 218, wl := bit w 217,
      wh := bits w 216 216, ah := bits w 215 215, acc := bit w 214, row := row, m := bits w 204 196 + 1, k := bits w 195 188 + 1,
      nc := bits w 187 183 + 1, ap := 64 * (bits w 182 180 + 1), aboff := 64 * (bits w 179 171 + bits b 24 16),
      wboff := 64 * (bits w 170 161 + bits b 41 32) }
  else
    { urgent := urgent, op := o, row := row, m := bits w 204 196 + 1, ot := bits w 222 220, toBuf := bit w 219, dh := bits w 218 218,
      sm := bit w 217, relu := bit w 216, clr := bit w 215, c0 := bits w 195 191, nc := bits w 190 186 + 1, rpitch := 64 * bits w 185 174,
      zp := sx 8 (bits w 173 166), astride := 64 * bits w 165 150, dboff := 64 * bits w 149 141, base := xd, table := table }

/-- Columns that a command uses (N). -/
def ArrayCmd.n (c : ArrayCmd) : Nat := 16 * c.nc

/-- Bits of a weight element and bytes of an activation element, and the largest K, of an FMT (R447). -/
def fmtShape (f : Nat) : Nat × Nat × Nat :=
  match f with
  | 1 | 5 => (4, 1, 256)
  | 3 => (16, 2, 64)
  | _ => (8, 1, 128)

/-- The accumulator word of an FMT is FP32. -/
def ArrayCmd.isFp (c : ArrayCmd) : Bool := c.fmt = 2 || c.fmt = 3

/-- WR or WV of R448: a weight row of N elements, or for IS a weight vector of K, rounded up to 64 bytes. -/
def ArrayCmd.wpitch (c : ArrayCmd) : Nat := alignUp (ceilDiv ((if c.df = 2 then c.k else c.n) * (fmtShape c.fmt).1) 8) 64

/-- The conditions of R448. -/
def mmaShapeOk (c : ArrayCmd) : Bool :=
  let z := fmtShape c.fmt
  let even := !(c.fmt = 1 || c.fmt = 5) || decide (c.k % 2 = 0)
  let rows := decide (c.row + c.m ≤ 512)
  match c.df with
  | 0 => even && decide (c.k ≤ z.2.2) && decide (c.ap ≥ c.k * z.2.1) && decide (c.aboff + c.m * c.ap ≤ 0x8000)
      && decide (c.wboff + c.k * c.wpitch ≤ 0x10000) && rows
  | 1 => even && decide (c.m ≤ 128) && decide (c.k ≤ 256) && decide (c.ap ≥ c.m * z.2.1) && decide (c.aboff + c.k * c.ap ≤ 0x8000)
      && decide (c.wboff + c.k * c.wpitch ≤ 0x10000) && rows && !c.wl
  | _ => even && decide (c.k ≤ z.2.2) && decide (c.ap ≥ c.k * z.2.1) && decide (c.aboff + c.n * c.ap ≤ 0x8000)
      && decide (c.wboff + c.m * c.wpitch ≤ 0x10000) && rows

/-- Bits of an output element of a drain by OT (R455). -/
def otBits (ot : Nat) : Nat := match ot with | 2 => 4 | 5 => 16 | 6 => 32 | _ => 8

/-- Bytes that a drain writes of a row. -/
def ArrayCmd.rowBytes (c : ArrayCmd) : Nat := c.n * otBits c.ot / 8

/-- Where a drain writes row `r` (from 0) of array `a` (R457): an address, or a byte of the buffer half. -/
def ArrayCmd.rowAt (c : ArrayCmd) (a r : Nat) : Nat :=
  if c.toBuf then c.dboff + r * c.rpitch else c.base + a * c.astride + r * c.rpitch

/-- The end of what a drain writes. -/
def ArrayCmd.drainEnd (c : ArrayCmd) : Nat := c.rowAt (if c.toBuf then 0 else 3) (c.m - 1) + c.rowBytes

/-- The rows of two commands overlap. -/
def rowsMeet (c d : ArrayCmd) : Bool := decide (c.row < d.row + d.m) && decide (d.row < c.row + c.m)

/-- A command writes accumulator rows: MMA, ACLR, a drain with CLR. -/
def ArrayCmd.writesAcc (c : ArrayCmd) : Bool := c.op ≠ 4 || c.clr

/-- An MMA reads a weight half; an MMA reads an activation half. WS with WL 0 reads no weights, IS with WL 0 no activations. -/
def ArrayCmd.readsW (c : ArrayCmd) (h : Nat) : Bool := c.op = 1 && decide (c.wh = h) && (c.df ≠ 0 || c.wl)
def ArrayCmd.readsA (c : ArrayCmd) (h : Nat) : Bool := c.op = 1 && decide (c.ah = h) && (c.df ≠ 2 || c.wl)

/-! Buffers and accumulators. -/

/-- Byte `o` of weight half `h`. -/
def wByte (k : Core) (h o : Nat) : Nat := (SMap.getD k.wbuf (h * 65536 + o) 0).toNat

/-- Byte `o` of activation half `h` of array `a`. -/
def aByte (k : Core) (a h o : Nat) : Nat := (SMap.getD k.abuf ((a * 2 + h) * 32768 + o) 0).toNat

/-- A range of weight bytes meets a poisoned granule; a range of activation bytes. -/
def wBad (k : Core) (h o len : Nat) : Bool :=
  k.wbad.any fun g => decide (g * 64 < h * 65536 + o + len) && decide (h * 65536 + o < g * 64 + 64)
def aBad (k : Core) (a h o len : Nat) : Bool :=
  let z := (a * 2 + h) * 32768 + o
  k.abad.any fun g => decide (g * 64 < z + len) && decide (z < g * 64 + 64)

/-- The accumulator key of a word. -/
def accKey (a r c : Nat) : Nat := (a * 512 + r) * 512 + c

/-- An accumulator word. -/
def accWord (k : Core) (a r c : Nat) : Nat := SMap.getD k.acc (accKey a r c) 0

/-- A core with an accumulator word written, marked poisoned or clean, and as FP32 or INT32. -/
def putAcc (k : Core) (a r c v : Nat) (bad fp : Bool) : Core :=
  let i := accKey a r c
  { k with acc := SMap.put k.acc i v 0, accBad := if bad then NSet.add k.accBad i else NSet.del k.accBad i,
           accFp := if fp then NSet.add k.accFp i else NSet.del k.accFp i }

/-- Element `i` of a run of weight bytes by FMT: its value as read (R447, R448). -/
def weightElem (fmt : Nat) (byte : Nat → Nat) (i : Nat) : Nat :=
  match (fmtShape fmt).1 with
  | 4 => (byte (i / 2) >>> (4 * (i % 2))) % 16
  | 16 => byte (2 * i) + 256 * byte (2 * i + 1)
  | _ => byte i

/-- Element `i` of a run of activation bytes by FMT. -/
def actElem (fmt : Nat) (byte : Nat → Nat) (i : Nat) : Nat :=
  if (fmtShape fmt).2.1 = 2 then byte (2 * i) + 256 * byte (2 * i + 1) else byte i

/-- The integer value of a weight and of an activation (FMT 0, 1, 4, 5). -/
def weightInt (fmt v : Nat) : Int := if (fmtShape fmt).1 = 4 then sx 4 v else sx 8 v
def actInt (fmt v : Nat) : Int := if fmt = 4 ∨ fmt = 5 then (v % 256 : Nat) else sx 8 v

/-- The FP value of a weight or activation (FMT 2, 3). -/
def elemVal (fmt : Nat) (e5 : Bool) (v : Nat) : FVal := fdec (if fmt = 3 then bf16 else if e5 then e5m2 else e4m3) v

/-! MMA (R448 to R452). -/

/-- Byte `i` of row `r` of the cells' tile as a command of dataflow `df` takes it. DESIGN CHOICE: of a place that the tile it keeps does not reach, the
spec states no content: it is a free value. -/
def tileByte (k : Core) (tile : Tile) (df r i : Nat) : Nat :=
  match if tile.df = df then ((tile.rows[r]?).bind fun b => b[i]?) else none with
  | some b => b.toNat
  | none => (Config.staleCell k.seq r i).toNat

/-- The row of an activation tile that holds position `j` of array `a`; none where the tile holds fewer positions. -/
def tileRow (tile : Tile) (a j : Nat) : Nat := if j < tile.n then a * tile.n + j else 4 * tile.n + 4 * j + a

/-- What the weights of an MMA are for output (r, j) and step t: byte reader and element index, and whether they are poisoned. The
tile supplies them for WS, the buffer for OS and IS. -/
def mmaWeight (k : Core) (c : ArrayCmd) (tile : Tile) (r j t : Nat) : Nat :=
  match c.df with
  | 0 => weightElem c.fmt (tileByte k tile 0 t) j
  | 1 => weightElem c.fmt (fun i => wByte k c.wh (c.wboff + t * c.wpitch + i)) j
  | _ => weightElem c.fmt (fun i => wByte k c.wh (c.wboff + r * c.wpitch + i)) t

/-- The activation of array `a` for output (r, j) and step t. -/
def mmaAct (k : Core) (c : ArrayCmd) (tile : Tile) (a r j t : Nat) : Nat :=
  match c.df with
  | 0 => actElem c.fmt (fun i => aByte k a c.ah (c.aboff + r * c.ap + i)) t
  | 1 => actElem c.fmt (fun i => aByte k a c.ah (c.aboff + t * c.ap + i)) r
  | _ => actElem c.fmt (tileByte k tile 2 (tileRow tile a j)) t

/-- The tile after the load phase of an MMA (R448): WS the weight rows, IS the activation rows of the four arrays. -/
def loadTile (k : Core) (c : ArrayCmd) : Tile :=
  if !c.wl then k.tile
  else if c.df = 0 then
    { df := 0, n := c.n,
      rows := (List.range c.k).map fun t => (List.range c.wpitch).map fun i => BitVec.ofNat 8 (wByte k c.wh (c.wboff + t * c.wpitch + i)),
      bad := [wBad k c.wh c.wboff (c.k * c.wpitch)] }
  else
    { df := 2, n := c.n,
      rows := (List.range (4 * c.n)).map fun i => (List.range c.ap).map fun b =>
        BitVec.ofNat 8 (aByte k (i / c.n) c.ah (c.aboff + i % c.n * c.ap + b)),
      bad := (List.range (4 * c.n)).map fun i => aBad k (i / c.n) c.ah (c.aboff + i % c.n * c.ap) (c.k * (fmtShape c.fmt).2.1) }

/-- Whether output (r, j) of array `a` reads a poisoned granule (R452). -/
def mmaBad (k : Core) (c : ArrayCmd) (tile : Tile) (a r j : Nat) : Bool :=
  let ea := (fmtShape c.fmt).2.1
  match c.df with
  | 0 => (decide (tile.df = 0) && tile.bad.any id) || aBad k a c.ah (c.aboff + r * c.ap) (c.k * ea)
  | 1 => wBad k c.wh c.wboff (c.k * c.wpitch) || (List.range c.k).any fun t => aBad k a c.ah (c.aboff + t * c.ap) (c.m * ea)
  | _ => wBad k c.wh c.wboff (c.m * c.wpitch) || (decide (tile.df = 2) && nth tile.bad (tileRow tile a j) false)

/-- The integer sum of an output (R449, R450). -/
def mmaSum (k : Core) (c : ArrayCmd) (tile : Tile) (a r j : Nat) : Int :=
  ((List.range c.k).map fun t => weightInt c.fmt (mmaWeight k c tile r j t) * actInt c.fmt (mmaAct k c tile a r j t)).sum

/-- The FP32 sum of an output: products in ascending k from +0, each addition rounded (R451). -/
def mmaSumFp (k : Core) (c : ArrayCmd) (tile : Tile) (a r j : Nat) : FVal :=
  (List.range c.k).foldl (fun v t =>
    rnd32 (fadd v (fmul (elemVal c.fmt c.we5 (mmaWeight k c tile r j t)) (elemVal c.fmt c.ae5 (mmaAct k c tile a r j t)))))
    (.fin false 0 0)

/-- The accumulator word that an output gives, and whether its ACC 1 addition saturated (R450, R451). -/
def mmaWord (k : Core) (c : ArrayCmd) (tile : Tile) (a r j : Nat) : Nat × Bool :=
  let old := accWord k a (c.row + r) j
  if c.isFp then
    let v := mmaSumFp k c tile a r j
    (fenc fp32 (if c.acc then fadd (f32 old) v else v), false)
  else
    let x := mmaSum k c tile a r j
    let y := if c.acc then sx 32 old + x else x
    (unsx 32 (satI 32 y), c.acc && decide (satI 32 y ≠ y))

/-- The effect of an MMA on the core's tile and accumulators, and the saturations of each array. -/
def runMma (k : Core) (c : ArrayCmd) : Core × List Nat :=
  let tile := loadTile k c
  let outs := (List.range 4).flatMap fun a => (List.range c.m).flatMap fun r => (List.range c.n).map fun j => (a, r, j)
  let res := outs.map fun (o : Nat × Nat × Nat) =>
    let w := mmaWord k c tile o.1 o.2.1 o.2.2
    let bad := mmaBad k c tile o.1 o.2.1 o.2.2 || (c.acc && k.accBad.contains (accKey o.1 (c.row + o.2.1) o.2.2))
    (o, w, bad)
  let k' := res.foldl (fun k e => putAcc k e.1.1 (c.row + e.1.2.1) e.1.2.2 e.2.1.1 e.2.2 c.isFp) { k with tile := tile }
  (k', (List.range 4).map fun a => res.countP fun e => e.1.1 = a && e.2.1.2)

/-! DRAIN (R453 to R459) and ACLR. -/

/-- v of R458 for an INT32 word: w + b, exact. -/
def drainInt (word bias : Nat) : FVal := FVal.ofInt (sx 32 word + sx 32 bias)

/-- An integer output of a drain (R458): v, scale, zero point, RELU; the byte value and whether it saturated. -/
def drainToInt (v s : FVal) (z : Int) (relu exact : Bool) (lo hi : Int) : Int × Bool :=
  let fin (y : Int) : Int × Bool :=
    let y := y + z
    let y := if relu && decide (y < z) then z else y
    (clampI' y, decide (y ≠ clampI' y))
  match v, s with
  | .nan, _ => fin0
  | _, .nan => fin0
  | v, .inf neg =>
    match v with
    | .fin n m _ => if m = 0 then fin0 else lim (n != neg)
    | .inf n => lim (n != neg)
    | .nan => fin0
  | .inf n, .fin neg m _ => if m = 0 then fin0 else lim (n != neg)
  | .fin a m e, .fin b n f =>
    if n = 0 then fin 0
    else
      let p := fmul (.fin a m e) (.fin b n f)
      match (if exact then p else rnd32 p) with
      | .fin neg mm ee => fin (roundInt 0 neg mm (min ee 400))
      | .inf neg => lim neg
      | .nan => fin0
where
  clampI' (y : Int) : Int := if y < lo then lo else if y > hi then hi else y
  /-- The result z. -/
  fin0 : Int × Bool := (clampI' z, decide (z ≠ clampI' z))
  /-- The limit of OT that an infinite product reaches, counted; DEDUCED: under RELU the pseudocode raises a negative one to z, which does not count (R458,
  R479). -/
  lim (neg : Bool) : Int × Bool := if neg && relu then fin0 else (if neg then lo else hi, true)

/-- An output of a drain (R455, R458): its bits and whether it counts in OUT_SAT. -/
def drainOut (c : ArrayCmd) (fp : Bool) (word bias scale : Nat) : Nat × Bool :=
  if c.ot = 6 then (word, false)
  else
    let v := if fp then rnd32 (fadd (f32 word) (f32 bias)) else drainInt word bias
    let s := f32 scale
    let int (lo hi : Int) (w : Nat) : Nat × Bool := let r := drainToInt v s c.zp c.relu (!fp) lo hi; (unsx w r.1, r.2)
    match c.ot with
    | 0 => int (-128) 127 8
    | 1 => int 0 255 8
    | 2 => int (-8) 7 4
    | o =>
      let y := rnd32 (fmul v s)
      let y := if c.relu && (y.neg && !y.isNan) then .fin false 0 0 else y
      match o with
      | 3 => fencClamp e4m3 y
      | 4 => fencClamp e5m2 y
      | _ => (fenc bf16 y, false)

/-- The table entry of drained column `i` (R456). -/
def drainEntry (c : ArrayCmd) (i : Nat) : Nat × Nat := nth c.table (if c.sm then 0 else i) (0, 0)

/-- The bytes of a row from its outputs. -/
def packRow (ot : Nat) (vs : List Nat) : List Byte :=
  match ot with
  | 2 => (List.range (vs.length / 2)).map fun i => BitVec.ofNat 8 (nth vs (2 * i) 0 % 16 + 16 * (nth vs (2 * i + 1) 0 % 16))
  | 5 => vs.flatMap (leBytes 2)
  | 6 => vs.flatMap (leBytes 4)
  | _ => vs.map (BitVec.ofNat 8)

/-- The array whose words array `a` writes (R390, R391, R459): its own, or under PAIRED the lower one of its pair. -/
def drainSource (paired : Bool) (a : Nat) : Nat := if paired then a - a % 2 else a

/-- The first differing column of a pair over the rows a drain reads (R390): pair and column. -/
def pairDiffers (k : Core) (c : ArrayCmd) (p : Nat) : Option Nat :=
  (List.range c.n).find? fun j => (List.range c.m).any fun r =>
    let x := accKey (2 * p) (c.row + r) (c.c0 * 16 + j)
    let y := accKey (2 * p + 1) (c.row + r) (c.c0 * 16 + j)
    SMap.getD k.acc x 0 ≠ SMap.getD k.acc y 0 || k.accBad.contains x ≠ k.accBad.contains y

/-- The poisoned parts of a row that a drain writes, as ranges of its bytes: the outputs of words that are poisoned when it reads them (R90). -/
def drainBad (k : Core) (c : ArrayCmd) (paired : Bool) (a r : Nat) : List (Nat × Nat) :=
  (List.range c.n).filterMap fun i =>
    if k.accBad.contains (accKey (drainSource paired a) (c.row + r) (c.c0 * 16 + i)) then some (i * otBits c.ot / 8, max 1 (otBits c.ot / 8)) else none

/-- The rows that a drain writes: array, row, bytes; and the saturations of each array. -/
def drainRows (k : Core) (c : ArrayCmd) (paired : Bool) : List (Nat × Nat × List Byte) × List Nat :=
  let outs := (List.range 4).map fun a => (List.range c.m).map fun r => (List.range c.n).map fun i =>
    let key := accKey (drainSource paired a) (c.row + r) (c.c0 * 16 + i)
    let t := drainEntry c i
    drainOut c (k.accFp.contains key) (SMap.getD k.acc key 0) t.1 t.2
  (outs.zipIdx.flatMap fun e => e.1.zipIdx.map fun f => (e.2, f.2, packRow c.ot (f.1.map (·.1))),
   outs.map fun rows => (rows.map fun r => r.countP (·.2)).sum)

/-- Words of rows and columns are set to zero and clean. -/
def clearAcc (k : Core) (row m c0 n : Nat) : Core :=
  let hit (key : Nat) : Bool :=
    let c := key % 512
    let r := key / 512 % 512
    decide (row ≤ r) && decide (r < row + m) && decide (c0 ≤ c) && decide (c < c0 + n)
  { k with acc := k.acc.filter fun e => !hit e.1, accBad := k.accBad.filter fun e => !hit e }

/-- A drain or MMA reads a poisoned word of the rows and columns of a drain (R454). -/
def drainPoisoned (k : Core) (c : ArrayCmd) : Bool :=
  k.accBad.any fun key =>
    let x := key % 512
    let r := key / 512 % 512
    decide (c.row ≤ r) && decide (r < c.row + c.m) && decide (c.c0 * 16 ≤ x) && decide (x < c.c0 * 16 + c.n)

/-! Errors that an injection put into the stores of a core (R402, R730). Stores: 1 the weight buffer and 2 the activation buffers, by byte; 3 accumulator
memory, by word of 32 bits; 4 the register banks, by register (`regPlace`, `vregPlace`). -/

/-- The bytes, words or registers of a store that one of its ECC words holds. -/
def eccUnits (store : Nat) : Nat := if store = 3 then 2 else if store = 4 then 1 else 8

/-- An armed SRAM_CE or SRAM_UE injection on store `k` of core `n` flips bits of the ECC word just written, which holds unit `i`. -/
def flipStore (s : State) (n k i : Nat) : State :=
  let hit (arg : Nat) : Bool := decide (arg % 256 = 19 + n) && decide (bits arg 10 8 = k)
  let flip (s : State) (b : Nat) : State := updCore s n fun c => { c with flips := c.flips ++ [(k, i / eccUnits k, b)] }
  let r := injFire s 1 hit
  if r.2 then flip r.1 1
  else
    let r := injFire s 2 hit
    if r.2 then flip r.1 2 else s

/-- A read meets the flipped bits that satisfy `hit`: one bit is corrected and counted, two poison the granule, both accumulator words or the register that
the ECC word holds, are counted and captured (R87, R88, R402). -/
def meetFlips (s : State) (n : Nat) (hit : Nat → Nat → Bool) : State :=
  ((coreOf s n).flips.filter fun f => hit f.1 f.2.1).foldl (fun s f =>
    let s := updCore s n fun c => { c with flips := c.flips.erase f }
    if f.2.2 = 1 then bump s (R.ASH_ECC n f.1) 15 0 1
    else
      let s := updCore s n fun c => match f.1 with
        | 1 => { c with wbad := NSet.add c.wbad (f.2.1 / 8) }
        | 2 => { c with abad := NSet.add c.abad (f.2.1 / 8) }
        | 3 => { c with accBad := NSet.add (NSet.add c.accBad (2 * f.2.1)) (2 * f.2.1 + 1) }
        | _ => updBank' c (decide (f.2.1 / 32 % 2 = 1)) fun b =>
          if f.2.1 < 64 then { b with poisoned := NSet.add b.poisoned (f.2.1 % 32) }
          else { b with v := b.v.modify (f.2.1 % 32) fun r => { r with marks := r.marks ||| 1 } }
      raise (hwFault (bump s (R.ASH_ECC n f.1) 31 16 1) (P.ash n) 0x0D f.1) (P.ash n) 11) s

/-- Units `i` to `i + len - 1` of a store are about to be written: an ECC word that the write covers in part is read first (R791), and every word that it
touches gets valid check bits. -/
def overwrite (s : State) (n store i len : Nat) : State :=
  if len = 0 ∨ (coreOf s n).flips.isEmpty then s
  else
    let z := eccUnits store
    let holds (p u : Nat) : Bool := decide (p * z < u) && decide (u < p * z + z)
    let s := meetFlips s n fun st p => decide (st = store) && (holds p i || holds p (i + len))
    updCore s n fun k => { k with flips := k.flips.filter fun f => !(decide (f.1 = store) && decide (i < f.2.1 * z + z) && decide (f.2.1 * z < i + len)) }

/-- The places in store 4 of scalar register `r` and of vector register `r` of a bank; a vector register stands for its first word. -/
def regPlace (urgent : Bool) (r : Nat) : Nat := 32 * b2n urgent + r
def vregPlace (urgent : Bool) (r : Nat) : Nat := 64 + 32 * b2n urgent + r

/-- The registers at `places` are about to be written (R402, R730). -/
def touchRegs (s : State) (n : Nat) (places : List Nat) : State :=
  match places with
  | [] => s
  | p :: _ => flipStore (places.foldl (fun s p => overwrite s n 4 p 1) s) n 4 p

/-- The places of a write of a buffer: `kind` 1 weight buffer, 2 activation buffer of array `arr`, 3 all four; store and first byte. -/
def bufferPlaces (kind half arr o : Nat) : List (Nat × Nat) :=
  if kind = 1 then [(1, half * 65536 + o)]
  else (if kind = 3 then List.range 4 else [arr]).map fun a => (2, (a * 2 + half) * 32768 + o)

/-- A write of rows and columns of the four arrays' accumulators. -/
def overwriteAcc (s : State) (n row m c0 cols : Nat) : State :=
  if (coreOf s n).flips.isEmpty then s
  else (List.range 4).foldl (fun s a => (List.range m).foldl (fun s r => overwrite s n 3 (accKey a (row + r) c0) cols) s) s

/-- An MMA reads an ECC word of a store: one in a granule of its weights or activations, or one of accumulator words it adds to. -/
def mmaReads (k : Core) (c : ArrayCmd) (store place : Nat) : Bool :=
  let k1 : Core := { k with wbad := if store = 1 then [place / 8] else [], abad := if store = 2 then [place / 8] else [],
                            tile := { k.tile with bad := k.tile.bad.map fun _ => false } }
  let tile := loadTile k1 c
  (List.range 4).any fun a => (List.range c.m).any fun r => (List.range c.n).any fun j =>
    if store = 3 then c.acc && decide (place = accKey a (c.row + r) j / 2) else mmaBad k1 c tile a r j

/-- A drain reads an ECC word of accumulator memory. -/
def drainReads (k : Core) (c : ArrayCmd) (store place : Nat) : Bool :=
  decide (store = 3) && drainPoisoned { k with accBad := [2 * place, 2 * place + 1] } c

end Sys2Proof.Machine
end

