-- ==== Sys2Proof/Machine/Pci.lean ====
section
/-!
DEFINITION. Machine/Pci.lean: link, device reads and writes of host memory, MSI-X, error logging and function-level reset
of the host endpoint (05).
-/
namespace Sys2Proof.Machine
open Sys2Proof

/-- FAULT_INFO of the causes WINDOW and NO_BAR. -/
def tlpInfo (fn : Nat) (write : Bool) (len : Nat) : Nat := fn + b2n write * 16 + len % 65536 * 65536

/-- An Unsupported Request of a function (R142, R165, R168); `a` is the internal address that the first byte maps to. -/
def unsupported (s : State) (fn : Nat) (posted write : Bool) (len : Nat) (header : List Nat) (a : Option Nat) : State :=
  let s := fault s P.pci 2 (fnReq fn) (tlpInfo fn write len) a
  if posted then logAer s fn 20 header else logAdvisory s fn 20 header

/-- Traffic that arrives brings the link out of L1 (R169). -/
def inbound (s : State) : State := { s with pci := { s.pci with l1 := false } }

/-- The completion with Unsupported Request status. -/
def completeUr (s : State) (fn : Nat) : State := sendHost s (.completion fn 1 false [])

/-- The completion with Completer Abort status. -/
def completeCa (s : State) (fn : Nat) : State := sendHost s (.completion fn 4 false [])

/-- A VF is enabled (R798). -/
def vfOn (s : State) (v : Nat) : Bool := s.pci.vfEnable && decide (1 ≤ v) && decide (v ≤ s.pci.numVfs) && decide (v ≤ 8)

/-- LINK_TRAIN (R171): reset of the endpoint ends and training begins; nothing while the die is unpowered or held in reset. -/
def execLinkTrain (s : State) : Host.Outcome State Fault Refusal :=
  .next <| if !s.boot.powered || s.boot.held then s else { s with pci := { s.pci with inReset := false, training := true }, jione := { s.jione with perst := true } }

/-- LINK_UP (R129): speed 1 to 4, width 1 to 8; nothing where no training runs. -/
def execLinkUp (speed width : Nat) (s : State) : Host.Outcome State Fault Refusal :=
  if !s.pci.training then .next s
  else
    let s := { s with pci := { s.pci with training := false, speed := speed, width := width }, jione := { s.jione with linked := true } }
    let s := raise s P.pci 8
    .next (if speed < 4 ∨ width < 8 then raise s P.pci 10 else s)

/-! Device reads and writes through host-memory windows (R146 to R154). -/

/-- Requests are issued in order while tags are free and no earlier posted write of the function waits (R150, R155). -/
def issueReads : List (Nat × Nat × Nat × Nat) → State → State
  | [], s => { s with pci := { s.pci with waiting := [] } }
  | (id, fn, a, n) :: ws, s =>
    match (if s.pci.writes.any (·.fn = fn) then none else freeTag s) with
    | some t => issueReads ws (sendRead s id fn a n t)
    | none => { s with pci := { s.pci with waiting := (id, fn, a, n) :: ws } }

/-- HWIN_REQUEST (R146, R147): a device request to a host-memory window; a read of `len` bytes where `data` is none.
`bulk` marks a bulk-class payload write (R156). -/
def execHwinRequest (req : Req) (addr len : Nat) (data : Option (List Byte)) (bad : List (Nat × Nat)) (bulk : Bool) (s : State) :
    Host.Outcome State Fault Refusal :=
  match placeOf addr with
  | .host w =>
    let n := match data with | some bs => bs.length | none => len
    let id := s.pci.nextId
    let s := { s with pci := { s.pci with nextId := id + 1 } }
    if (island s 1).fenced then .next { s with pci := { s.pci with answers := { id := id, status := MS.fenced, bad := (refusedGot MS.fenced n).bad } :: s.pci.answers } }
    else
    match hwinRefusal s w (addr - 0x800000000000 - w * 0x80000000000) n with
    | some c =>
      let s := hwinRefuse s c req w addr
      .next { s with pci := { s.pci with answers := { id := id, status := MS.refused } :: s.pci.answers } }
    | none =>
      let fn := hwinFn s w
      let f := funcOf s fn
      match data with
      | some bs =>
        let tlps := hostWriteTlps s w addr bs bad (bulk && rb s R.PCI_MASTER_CTRL 0 && f.relaxed)
        let s := { s with pci := { s.pci with writes := s.pci.writes ++ [{ id := some id, req := req, fn := fn, addr := addr, tlps := tlps }] } }
        .next s
      | none =>
        let rs := readRequests (min 512 (128 * 2 ^ f.mrrs)) (hostAddr s w addr - addr) (n + 1) addr n
        let s := { s with pci := { s.pci with reads := s.pci.reads ++ [{ id := id, req := req, fn := fn, addr := addr, len := n, left := rs.length }] } }
        .next (issueReads (s.pci.waiting ++ rs.map fun r => (id, fn, r.1, r.2)) s)
  | _ => .next s

/-- TAG_WAIT_ISSUE (R150). -/
def execTagWaitIssue (s : State) : Host.Outcome State Fault Refusal := .next (issueReads s.pci.waiting s)

/-- The poisoned offset ranges of a device read, from the granules that carry poison (R152, R153). -/
def DevRead.ranges (r : DevRead) : List (Nat × Nat) := r.bad.map fun g =>
  let lo := max r.addr (64 * g)
  (lo - r.addr, min (r.addr + r.len) (64 * g + 64) - lo)

/-- A device read whose last request is answered returns to its requester. -/
def finishRead (s : State) (r : DevRead) : State :=
  if r.left ≠ 0 then s
  else
    let a : Response := { id := r.id, status := readStatus r.ranges, data := (List.range r.len).map fun k => SMap.getD r.data k 0, bad := r.ranges }
    { s with pci := { s.pci with reads := s.pci.reads.filter (·.id ≠ r.id), answers := a :: s.pci.answers } }

/-- `s` with device read `id` changed, and finished where nothing of it is outstanding. -/
def updRead (s : State) (id : Nat) (f : DevRead → DevRead) : State :=
  match s.pci.reads.find? (·.id = id) with
  | none => s
  | some r =>
    let r := f r
    finishRead { s with pci := { s.pci with reads := s.pci.reads.map fun q => if q.id = id then r else q } } r

/-- The request with a tag failed: every granule that it covers is poisoned and its tag is free (R152). -/
def failRead (s : State) (o : Outstanding) : State :=
  let s := { s with pci := { s.pci with outstanding := s.pci.outstanding.erase o } }
  updRead s o.read fun r => { r with left := r.left - 1, bad := (granulesOf o.addr0 o.len0).foldl NSet.add r.bad }

/-- A completion for a tag that a reset holds is discarded; the tag is free once the last of it has arrived (R166). -/
def dropCompletion (s : State) (tag left status n : Nat) : State :=
  { s with pci := { s.pci with
      heldTags := if status ≠ 0 ∨ left ≤ n then s.pci.heldTags.del tag else SMap.set s.pci.heldTags tag (left - n) } }

/-- An uncorrectable error that R165 lists as AER_OTHER. -/
def aerOther (s : State) (fn bitNo : Nat) (advisory : Bool) (hdr : List Nat) : State :=
  let s := fault s P.pci 0x0A (fnReq fn) (fn + bitNo * 256) none
  if advisory then logAdvisory s fn bitNo hdr else logAer s fn bitNo hdr

/-- COMPLETION_ARRIVE (R152, R153): the completion of the request with a tag, carrying its next bytes. DESIGN CHOICE: one for a tag that no request holds is
an Unexpected Completion of the PF (R165). -/
def execCompletionArrive (tag status : Nat) (ep : Bool) (data : List Byte) (hdr : List Nat) (s : State) :
    Host.Outcome State Fault Refusal :=
  let s := inbound s
  match s.pci.outstanding.find? (·.tag = tag), s.pci.heldTags.get tag with
  | none, some left => .next (dropCompletion s tag left status data.length)
  | none, none => .next (aerOther s 0 16 true hdr)
  | some o, _ =>
    let a0 := ((s.pci.reads.find? (·.id = o.read)).map (·.addr)).getD o.addr
    if status ≠ 0 then
      .next (failRead (fault s P.pci 4 .hw (o.fn + status % 8 * 16 + tag * 65536) (some a0)) o)
    else
      let n := min data.length o.len
      let s := if ep then poisonIn s .hw o.fn (some a0) hdr else s
      let o' := { o with addr := o.addr + n, len := o.len - n }
      let os := if o'.len = 0 then s.pci.outstanding.erase o
        else s.pci.outstanding.map fun q => if q.tag = tag then o' else q
      let s := { s with pci := { s.pci with outstanding := os } }
      .next (updRead s o.read fun r =>
        { r with left := if o'.len = 0 then r.left - 1 else r.left,
                 data := ((List.range n).foldl (fun d k => SMap.set d (o.addr - r.addr + k) (nth data k 0)) r.data),
                 bad := if ep then (granulesOf o.addr n).foldl NSet.add r.bad else r.bad })

/-- CPL_TIMEOUT (R152, R796): nothing while Completion Timeout Disable is 1; a tag held by a reset becomes free (R166). -/
def execCplTimeout (tag : Nat) (s : State) : Host.Outcome State Fault Refusal :=
  if (funcOf s 0).cplDisable then .next s
  else match s.pci.outstanding.find? (·.tag = tag) with
    | none => .next { s with pci := { s.pci with heldTags := s.pci.heldTags.del tag } }
    | some o =>
      let a0 := ((s.pci.reads.find? (·.id = o.read)).map (·.addr)).getD o.addr
      let s := fault s P.pci 3 .hw (o.fn + tag * 65536) (some a0)
      let s := raise (logAer s o.fn 14 []) P.pci 12
      .next (failRead s o)

/-- A TLP that carries poison. -/
def epSet : HostMsg → Bool
  | .memWrite _ _ _ ep _ => ep
  | _ => false

/-- A device write whose last TLP has left is acknowledged (R80, R799). -/
def writeDone (s : State) (w : DevWrite) : State :=
  match w.id with
  | some id => { s with pci := { s.pci with answers := { id := id, status := MS.ok } :: s.pci.answers } }
  | none => s

/-- POSTED_WRITE_SENT (R154, R155, R799): the next TLP of the oldest device write leaves the endpoint; the last of them acknowledges the write. DESIGN
CHOICE: POISON_OUT is captured once a write, when the last of its TLPs with EP set leaves. -/
def execPostedWriteSent (s : State) : Host.Outcome State Fault Refusal :=
  match s.pci.writes with
  | [] => .next s
  | w :: ws =>
    match w.tlps with
    | [] => .next (writeDone { s with pci := { s.pci with writes := ws } } w)
    | t :: ts =>
      let s := { sendHost s t with pci := { (sendHost s t).pci with writes := if ts.isEmpty then ws else { w with tlps := ts } :: ws } }
      let s := if ts.isEmpty then writeDone s w else s
      .next (if epSet t && !ts.any epSet then fault s P.pci 6 w.req w.fn (some w.addr) else s)

/-! MSI-X (R161, R797). -/

/-- One message for a vector whose pending bit is set, is unmasked and whose function may send. -/
def sendPending (s : State) (fn vec : Nat) : State :=
  let f := funcOf s fn
  let e := SMap.getD f.table vec {}
  if f.pba.contains vec && f.msixEn && !e.masked && mayCall f then
    sendAfterWrites (updFunc s fn fun f => { f with pba := NSet.del f.pba vec }) fn (.msix fn vec e.addr e.data)
  else s

/-- Every pending vector of a function that may now send. -/
def resumeSends (s : State) (fn : Nat) : State := (funcOf s fn).pba.foldl (fun s v => sendPending s fn v) s

/-- The Mask bit of a vector is written. -/
def setMask (s : State) (fn vec : Nat) (m : Bool) : State :=
  let s := updFunc s fn fun f => { f with table := SMap.put f.table vec { SMap.getD f.table vec {} with masked := m } {} }
  sendPending s fn vec

/-- MSIX_UNMASK (R161, R162): with `due` a message falls due on the vector in the same HOST cycle, and one message is sent. -/
def execMsixUnmask (fn vector : Nat) (due : Bool) (s : State) : Host.Outcome State Fault Refusal :=
  .next (setMask (if due && (funcOf s fn).msixEn then updFunc s fn fun f => { f with pba := NSet.add f.pba vector } else s) fn vector false)

/-- FUNCTION_SEND_RESUME (R797): the function has Bus Master Enable 1 and is in D0. -/
def execFunctionSendResume (fn : Nat) (s : State) : Host.Outcome State Fault Refusal :=
  .next (resumeSends (updFunc s fn fun f => { f with bme := true, d3 := false }) fn)

/-- POWER_STATE_CHANGE (R168, R797). -/
def execPowerStateChange (fn : Nat) (d3 : Bool) (s : State) : Host.Outcome State Fault Refusal :=
  .next (resumeSends (updFunc s fn fun f => { f with d3 := d3 }) fn)

/-- L1_ENTRY (R169): L1 is requested where the host enabled it and no TLP is pending. -/
def execL1Entry (s : State) : Host.Outcome State Fault Refusal :=
  if (funcOf s 0).aspmL1 && s.pci.outstanding.isEmpty && s.pci.waiting.isEmpty && s.pci.writes.isEmpty && decide (s.pci.speed ≠ 0) && !s.pci.l1 then
    let s := sendHost s .l1Request
    .next { s with pci := { s.pci with l1 := true } }
  else .next s

/-! Resets of functions and of the endpoint (R166, R167, R170). -/

/-- A ring write or an answered write that is discarded: it is answered REFUSED, and a queue whose ring write it is detaches (R235, R799). -/
def dropWrite (s : State) (w : DevWrite) : State :=
  match w.id, w.queue with
  | some id, _ => { s with pci := { s.pci with answers := { id := id, status := MS.refused } :: s.pci.answers } }
  | none, some q => ringFailed s q MS.refused
  | none, none => s

/-- The device writes of the functions that satisfy `p` are discarded; what has left of them is not recalled (R799). -/
def discardWrites (s : State) (p : Nat → Bool) : State :=
  (s.pci.writes.filter fun w => p w.fn).foldl dropWrite { s with pci := { s.pci with writes := s.pci.writes.filter fun w => !p w.fn } }

/-- The device reads of the functions that satisfy `p` return every granule poisoned; their tags stay held. -/
def poisonReads (s : State) (p : Nat → Bool) : State :=
  let gone := s.pci.reads.filter fun r => p r.fn
  let tags := s.pci.outstanding.filter fun o => p o.fn
  { s with pci := { s.pci with
      reads := s.pci.reads.filter fun r => !p r.fn,
      outstanding := s.pci.outstanding.filter fun o => !p o.fn,
      stuck := s.pci.stuck.map fun k => if p k.fn then { k with dead := true } else k,
      waiting := s.pci.waiting.filter fun w => !p w.2.1,
      heldTags := tags.foldl (fun m o => SMap.set m o.tag o.len) s.pci.heldTags,
      answers := (gone.map fun r => { id := r.id, status := MS.poison, data := List.replicate r.len 0, bad := [(0, r.len)] }).reverse ++ s.pci.answers } }

/-- The function-level reset of a VF starts (R166). -/
def resetVf (s : State) (v : Nat) : State :=
  let s := updFunc s v fun _ => { flr := true }
  poisonReads (discardWrites s (· = v)) (· = v)

/-- VF Enable becomes 0: each VF that it disables is reset, and PCI.FLR is raised (R166). -/
def clearVfEnable (s : State) : State :=
  let vs := if s.pci.vfEnable then span 1 (min 8 s.pci.numVfs) else []
  let s := { s with pci := { s.pci with vfEnable := false } }
  vs.foldl (fun s v => raise (updFunc (resetVf s v) v fun f => { f with flr := false }) P.pci 13) s

/-- The function-level reset of the PF starts (R167). -/
def resetPf (s : State) : State :=
  let s := clearVfEnable s
  let s := { s with pci := { s.pci with ari := false, numVfs := 0, vfMse := false } }
  let s := updFunc s 0 fun _ => { flr := true }
  poisonReads (discardWrites s (· = 0)) (· = 0)

/-- VF_FLR (R166). -/
def execVfFlr (vf : Nat) (s : State) : Host.Outcome State Fault Refusal :=
  if vfOn s vf then .next (resetVf s vf) else .next s

/-- PF_FLR (R167). -/
def execPfFlr (s : State) : Host.Outcome State Fault Refusal := .next (resetPf s)

/-- FLR_DONE (R166): PCI.FLR is raised. -/
def execFlrDone (fn : Nat) (s : State) : Host.Outcome State Fault Refusal :=
  if (funcOf s fn).flr then .next (raise (updFunc s fn fun f => { f with flr := false }) P.pci 13) else .next s

/-- The endpoint is reset (R170): island 1 alone; the PCI page keeps its ST and LK fields, LOCK and SEAM_EPOCH. The discarded writes are answered once the
functions are reset, so that nothing of what follows leaves the endpoint. -/
def resetEndpoint (s : State) : State :=
  let ws := s.pci.writes
  let s := poisonReads { s with pci := { s.pci with writes := [] } } fun _ => true
  let s := resetRegs s P.pci (fun a => a == .st || a == .lk) fun o => o == hdr P.pci 0x18 || o == hdr P.pci 0x1C
  ws.foldl dropWrite { s with pci := { answers := s.pci.answers, sent := s.pci.sent, nextId := s.pci.nextId, stuck := s.pci.stuck } }

/-- ENDPOINT_RESET (R170): PCI.LINK_DOWN is raised after it. -/
def execEndpointReset (cause : EndpointReset) (s : State) : Host.Outcome State Fault Refusal :=
  match cause with
  | .perst => .next { raise (resetEndpoint s) P.pci 9 with jione := { s.jione with perst := false } }
  | .hotReset | .linkDown => .next (raise (resetEndpoint s) P.pci 9)

/-- INBOUND_UNSUPPORTED_TLP (R142, R164, R165): a request that the endpoint does not support, or an arrival in which it finds another error of R164; errors of
the link, a malformed TLP among them (Edges), are logged in the PF; an ECRC is checked where ECRC Check Enable of its function is 1. -/
def execInboundUnsupportedTlp (fn : Nat) (kind : TlpKind) (len : Nat) (hdr : List Nat) (s : State) :
    Host.Outcome State Fault Refusal :=
  let s := inbound s
  let seen (posted write : Bool) : State := if (funcOf s fn).flr then s else unsupported s fn posted write len hdr none
  match kind with
  | .message => .next (seen true true)
  | .read => .next (completeUr (seen false false) fn)
  | .write => .next (completeUr (seen false true) fn)
  | .uncorrectable b =>
    if [4, 13, 17, 18].contains b then .next (aerOther s 0 b false hdr)
    else if [16, 22].contains b ∨ (b = 19 ∧ bit (SMap.getD (funcOf s fn).cfg 0x118 0) 8 = true) then .next (aerOther s fn b (b = 16) hdr)
    else .next s
  | .correctable b =>
    if [0, 6, 7, 8, 12].contains b then .next (logCor s 0 b)
    else if [13, 14, 15].contains b then .next (logCor s fn b)
    else .next s

/-- DISABLED_VF_REQUEST (R798): logged in the PF. -/
def execDisabledVfRequest (posted write : Bool) (len : Nat) (hdr : List Nat) (s : State) :
    Host.Outcome State Fault Refusal :=
  let s := unsupported (inbound s) 0 posted write len hdr none
  .next (if posted then s else completeUr s 0)

end Sys2Proof.Machine
end

