-- ==== Sys2Proof/Machine/Dram.lean ====
section
/-!
DEFINITION. Machine/Dram.lean: the request queues, refresh, activate counting, retraining, alerts and scrubbing of the DRAM
controllers (06).
-/
namespace Sys2Proof.Machine
open Sys2Proof

/-- DRAM_REQUEST_ACCEPT (R179, R188, R190 to R192, R215): where the queue of its kind is full, an urgent request waits at the stop, which keeps
credits of its own for that channel, and any other request is not accepted yet. DESIGN CHOICE: the stop has a credit for every urgent request. -/
def execDramRequestAccept (src : Nat) (req : Req) (cls : Option Nat) (chan : Chan) (addr len : Nat) (data : Option (List Byte))
    (bad : List (Nat × Nat)) (s : State) : Host.Outcome State Fault Refusal :=
  match placeOf addr, dramTarget s addr with
  | .dram, some (u, l) =>
    let k := subch s u
    let n := match data with | some bs => bs.length | none => len
    let c := servedClass chan cls
    let r : DramReq := { src := src, req := req, cls := c, cls0 := c, chan := chan, addr := addr, loc := l, len := n, data := data, bad := bad,
                         at_ := s.clock, seq := s.dram.seq }
    let next (s : State) : State := { s with dram := { s.dram with seq := s.dram.seq + 1 } }
    if k.st = .fenced then
      .next (match data with
        | some _ =>
          respondInTurn (next (fault s (P.dmc (u / 2)) 6 req (u % 2 + n * 65536) (some addr))) u r.seq { src := src, chan := chan, status := MS.fenced, data := [] }
        | none =>
          respondInTurn (next s) u r.seq { src := src, chan := chan, status := MS.fenced, data := List.replicate n 0, bad := [(0, n)] })
    else if queueFull (if data.isSome then k.writes else k.reads) then
      .next (if chan = .urgent then updSub (next s) u fun k => { k with stopped := k.stopped ++ [r] } else s)
    else .next (enterQueue (next s) u r)
  | _, _ => .next (dramRespond s src chan MS.unmapped [] [])

/-! Activates and mitigations (R197 to R202). -/

/-- ROW_ACTIVATE (R198). -/
def execRowActivate (sub bank row src : Nat) (s : State) : Host.Outcome State Fault Refusal :=
  let k := subch s sub
  if k.live && retryRoom k && mayActivate s sub bank src then .next (activate s sub bank row src) else .next s

/-- MITIGATION_ISSUE (R197, R199): the queued mitigation, or the RFMsb that the rolling activate count calls for. -/
def execMitigationIssue (sub bank : Nat) (s : State) : Host.Outcome State Fault Refusal :=
  let k := subch s sub
  .next (if k.live && retryRoom k then mitigate s sub bank else s)

/-- ACT_TABLE_CLEAR (R200). -/
def execActTableClear (sub : Nat) (s : State) : Host.Outcome State Fault Refusal :=
  .next (updSub s sub fun k =>
    { k with banks := (k.banks.map fun e => (e.1, { e.2 with table := [] })).filter fun e => e.2 ≠ {} })

/-- THROTTLE_WINDOW_END (R202). -/
def execThrottleWindowEnd (sub : Nat) (s : State) : Host.Outcome State Fault Refusal :=
  .next (updSub s sub fun k => { k with charged := [], throttled := [] })

/-! Service (R185, R186, R189 to R191). -/

/-- A read has been answered: the responses at its controller that waited for it follow, and a request at the stop takes its place. -/
def readAnswered (s : State) (u : Nat) : State := placeFreed (releaseAcks s u) u

/-- DRAM_READ (R185, R189): the read to serve next is performed and answered; nothing while the buffers drain, an alert or
a window holds the traffic, or the buffers that hold for replay are full. -/
def execDramRead (sub : Nat) (s : State) : Host.Outcome State Fault Refusal :=
  let k := subch s sub
  if !k.live || k.draining then .next s
  else
    match pickReq s sub k.reads with
    | none => .next s
    | some (i, r) =>
      if !hasRoom s sub r then .next s
      else
        let s := openFor s sub r
        let s := updSub s sub fun k => { k with reads := k.reads.eraseIdx i }
        let g := arrayRead (issueCommand s sub r) sub r.addr r.len r.seq
        .next (readAnswered (dramRespond g.1 r.src r.chan g.2.st g.2.data g.2.bad) sub)

/-- DRAM_WRITE (R186, R190): the write to issue next; its data stay held until the write-CRC alert delay has passed. -/
def execDramWrite (sub : Nat) (s : State) : Host.Outcome State Fault Refusal :=
  let k := subch s sub
  if !k.live || !(k.draining || k.reads.isEmpty) then .next s
  else
    match pickReq s sub k.writes with
    | none => .next s
    | some (i, r) => if !hasRoom s sub r then .next s else .next (issueWrite s sub i r)

/-- The request at an index is served as the next higher class: a steady one as prompt, a bulk one as steady and no higher. -/
def ageAt (q : List DramReq) (i : Nat) : List DramReq :=
  q.modify i fun r => { r with cls := if r.cls0 = 3 then min r.cls 2 else 1 }

/-- REQUEST_AGE (R189): request `index` of the queue has waited its threshold. -/
def execRequestAge (sub index : Nat) (write : Bool) (s : State) : Host.Outcome State Fault Refusal :=
  .next (updSub s sub fun k =>
    if write then { k with writes := ageAt k.writes index } else { k with reads := ageAt k.reads index })

/-! Refresh (R193 to R196). -/

/-- The subchannel takes refreshes: it is trained, not fenced, and no alert stops its commands (R211). -/
def refreshes (k : SubCh) : Bool := k.st ≠ .absent && k.st ≠ .fenced && k.st ≠ .training && !k.alert

/-- The ticks of a subchannel are counted: it is trained and not fenced. -/
def ticks (k : SubCh) : Bool := k.st ≠ .absent && k.st ≠ .fenced && k.st ≠ .training

/-- One REFab: OWED is one less. -/
def refreshOnce (s : State) (u : Nat) : State := updSub (refab s u) u fun k => { k with owed := k.owed - 1 }

/-- `n` REFab in succession, at tRFC2 spacing: the oldest entries of a full retry buffer retire meanwhile. -/
def refreshMany (s : State) (u : Nat) : Nat → State
  | 0 => s
  | n + 1 => refreshMany (refreshOnce (makeRoom s u 1 0) u) u n

/-- OWED at MAX_POSTPONE: a make-up burst (R195). -/
def makeUp (s : State) (u : Nat) : State :=
  if refreshes (subch s u) ∧ (subch s u).owed ≥ (rf s (R.DMC_REF_CTRL (u / 2)) 3 0 : Nat) then
    bump (refreshMany s u (subch s u).owed.toNat) (R.DMC_SUB_REFBURST (u / 2) (u % 2)) 15 0 1
  else s

/-- REFRESH_TICK (R193, R194): OWED reaching MAX_POSTPONE starts the make-up burst, behind an alert in progress (R211). -/
def execRefreshTick (sub : Nat) (s : State) : Host.Outcome State Fault Refusal :=
  if !ticks (subch s sub) then .next s
  else .next (makeUp (updSub s sub fun k => { k with owed := k.owed + 1 }) sub)

/-- No request of the subchannel is pending. -/
def noRequest (k : SubCh) : Bool := k.reads.isEmpty && k.writes.isEmpty

/-- REFRESH_ISSUE (R194): OWED at least 1 and no prompt or steady request pending. -/
def execRefreshIssue (sub : Nat) (s : State) : Host.Outcome State Fault Refusal :=
  let k := subch s sub
  if refreshes k && retryRoom k && decide (k.owed ≥ 1) && (k.reads ++ k.writes).all (·.cls = 3) then .next (refreshOnce s sub) else .next s

/-- REFRESH_PULLIN (R194). -/
def execRefreshPullin (sub : Nat) (s : State) : Host.Outcome State Fault Refusal :=
  let k := subch s sub
  if refreshes k && retryRoom k && decide (k.owed > -8) && decide (rf s (R.DMC_REF_CTRL (sub / 2)) 15 8 ≠ 0) && noRequest k then
    .next (bump (refreshOnce s sub) (R.DMC_SUB_REFBURST (sub / 2) (sub % 2)) 31 16 1)
  else .next s

/-- MR4_POLL (R193, R196): 0 1×, 1 above 1×, 2 above the operating range, as the worst component reports. -/
def execMr4Poll (sub rate : Nat) (s : State) : Host.Outcome State Fault Refusal :=
  if !refreshes (subch s sub) then .next s
  else
    let s := updSub s sub fun k => { k with rate := min rate 2 }
    .next (if rate ≥ 2 then raise s (P.dmc (sub / 2)) 13 else s)

/-- POWER_DOWN_ENTRY (R203). -/
def execPowerDownEntry (sub : Nat) (s : State) : Host.Outcome State Fault Refusal :=
  let k := subch s sub
  if k.live && noRequest k && decide (rf s (R.DMC_PD_CTRL (sub / 2)) 15 0 ≠ 0) then
    .next (updSub s sub fun k => { precharge k with pd := true })
  else .next s

/-! Retraining (R204 to R209). -/

/-- The move that a side makes (R206), in delay steps; none where no setting passes. A side whose current setting passes
moves one step towards the centre of the passing settings. -/
def probeMove (p : Probe) : Option Int :=
  if p.cur then
    if p.low = p.high then some 0 else if p.high then some 1 else some (-1)
  else if p.low then some (-4)
  else if p.high then some 4
  else none

/-- A window request is withdrawn at the dispatcher (R207): REQUESTED holds while another subchannel requests one. -/
def withdrawWindow (s : State) (u : Nat) : State :=
  let s := updSub s u fun k => { k with winReq := false }
  wb s R.DPT_WINDOW 3 (s.dram.sub.any (·.winReq))

/-- RETRAIN_PAUSE (R204 to R207): at its due time, or forced; refreshes come first where OWED is near MAX_POSTPONE. -/
def execRetrainPause (sub : Nat) (rd wr : Probe) (s : State) : Host.Outcome State Fault Refusal :=
  let k := subch s sub
  let o := R.DMC_RETRAIN_CTRL (sub / 2)
  let forced := rb s o (8 + sub % 2)
  if !k.live || !(rb s o 0 || forced) then .next s
  else
    let s := wb s o (8 + sub % 2) false
    let lim : Int := (rf s (R.DMC_REF_CTRL (sub / 2)) 3 0 : Nat) - 3
    let s := refreshMany s sub (k.owed - lim).toNat
    let s := updSub s sub fun k => { precharge k with pd := false }
    match probeMove rd, probeMove wr with
    | some x, some y =>
      let s := updSub s sub fun k => { k with rdSet := k.rdSet + x, wrSet := k.wrSet + y, st := if k.st = .drifting then .run else k.st }
      .next (if k.winReq then withdrawWindow s sub else s)
    | x, y =>
      let s := updSub s sub fun k =>
        { k with rdSet := k.rdSet + x.getD 0, wrSet := k.wrSet + y.getD 0, st := .drifting, winReq := true }
      let s := setReg s R.DPT_WINDOW (BitVec.ofNat 32 (sub % 8 + 8 + 16 * rf s R.DPT_WINDOW 4 4))
      .next (raise s (P.dmc (sub / 2)) 9)

/-- A subchannel is fenced (R209, R214): DMC.FENCED is raised, and the partitions that use it lose their DRAM models (R553). Responses that wait for
earlier reads at the sibling stay. -/
def fenceSub (s : State) (u : Nat) : State :=
  let s := updSub s u fun k => { k with st := .fenced, winReq := false, reads := [], writes := [], stopped := [], retry := [], held := [],
                                        alert := false, replaying := 0, leftCmds := 0, leftWrites := 0, draining := false, pd := false }
  dramLost (resumeNoResults (raise (releaseAcks s u) (P.dmc (u / 2)) 10)) u

/-- The requests that wait at a subchannel that is fenced are answered FENCED in the order of acceptance, every granule of a read poisoned (R215); a write
that was acknowledged has its response already. -/
def answerFenced (s : State) (u : Nat) : State :=
  let rs := ((subch s u).reads ++ (subch s u).stopped).foldl (fun l r => seqInsert r l) []
  let s := updSub s u fun k => { k with reads := [], stopped := [] }
  rs.foldl (fun s r =>
    match r.data with
    | some _ =>
      let s := fault s (P.dmc (u / 2)) 6 r.req (u % 2 + r.len * 65536) (some r.addr)
      if r.ack then respondInTurn s u r.seq { src := r.src, chan := r.chan, status := MS.fenced, data := [] } else s
    | none => respondInTurn s u r.seq { src := r.src, chan := r.chan, status := MS.fenced, data := List.replicate r.len 0, bad := [(0, r.len)] }) s

/-- The step of R218 in which a training fails: no setting passes, or a range narrower than 8 delay steps, of CA in step 3, of the read eye in step 6, of the
write eye in step 7. -/
def trainFails (t : Train) : Option Nat :=
  (span 1 8).find? fun k => decide (t.fails = some k) || (decide (k = 3) && decide (t.caEye < 8)) || (decide (k = 6) && decide (t.rdEye < 8))
    || (decide (k = 7) && decide (t.wrEye < 8))

/-- DMC_SUB_TRAIN after a training: the last step run, the result, and the ranges. DESIGN CHOICE: a range whose step was not run keeps its value. -/
def putTrain (s : State) (u : Nat) (t : Train) : State :=
  let o := R.DMC_SUB_TRAIN (u / 2) (u % 2)
  let last := (trainFails t).getD 8
  let s := wf (wf s o 3 0 last) o 5 4 (if (trainFails t).isSome then 2 else 1)
  let s := if 3 ≤ last then wf s o 31 24 (min t.caEye 255) else s
  let s := if 6 ≤ last then wf s o 15 8 (min t.rdEye 255) else s
  if 7 ≤ last then wf s o 23 16 (min t.wrEye 255) else s

/-- A subchannel carries a region that is being refilled (R217). -/
def fillsSub (s : State) (u : Nat) : Bool := s.dram.filling.any fun r => bit (nth (layoutMasks s) r 0) u

/-- A retraining window (R208, R209, R211): the steps of the granted window end. -/
def retrainWindow (sub : Nat) (t : Train) (s : State) : State :=
  if (subch s sub).st ≠ .window || (subch s sub).alert then s
  else
    let s := putTrain s sub t
    let s := wb s R.DPT_WINDOW 4 (((List.range 8).filter (· ≠ sub)).any fun u => decide ((subch s u).st = .window))
    match trainFails t with
    | none => resumeNoResults (updSub s sub fun k => { k with st := if fillsSub s sub then .filling else .run, winReq := false })
    | some step => (fenceSub (answerFenced (hwFault s (P.dmc (sub / 2)) 5 (sub % 2 + step * 256)) sub) sub)

/-! Alerts and replay (R210 to R214). -/

/-- An alert (R211, R214): with `replay` for a command that a replay issued and that is still within its alert delay, the subchannel is fenced. -/
def dramAlert (sub : Nat) (replay : Bool) (s : State) : State :=
  let k := subch s sub
  if !ticks k then s
  else if replay && decide (k.replaying ≠ 0) then
    let s := hwFault s (P.dmc (sub / 2)) (2 + k.replaying) (sub % 2 + min k.replayed 255 * 256)
    (fenceSub (answerFenced s sub) sub)
  else (updSub s sub fun k => { k with alert := true })

/-- A bank's row is opened for a replayed command, which counts as any activate; the mitigation of the bank goes first (R199, R212). -/
def reopen (s : State) (u b row src : Nat) : State :=
  if (bankAt (subch s u) b).row = some row then s
  else activate (mitigateAll (makeRoom s u (1 + mitigsDue s u b) 0) u b) u b row src

/-- A command is replayed (R212); the retry buffer never holds more than 64 (R210). -/
def replayCmd (u : Nat) (s : State) (c : DramCmd) : State :=
  match c with
  | .activate b row src => reopen s u b row src
  | .read b row _ src | .write b row _ src => logCmd (makeRoom (reopen s u b row src) u 1 0) u c
  | .refresh => refab (makeRoom s u 1 0) u
  | .mitigate b r =>
    logCmd (updSub (makeRoom s u 1 0) u fun k => updBank k b fun d => if r.isSome then { d with row := none } else lowered s d) u c

/-- A write command. -/
def isWrite : DramCmd → Bool
  | .write _ _ _ _ => true
  | _ => false

/-- The commands `cs` are replayed in order: those of a parity recovery take the place of what the retry buffer held. -/
def replayAll (s : State) (u kind : Nat) (cs : List DramCmd) : State :=
  if cs.isEmpty then updSub s u fun k => { k with replaying := 0, leftCmds := 0, leftWrites := 0 }
  else
    let s := if kind = 1 then updSub s u fun k => { k with retry := [] } else s
    updSub (cs.foldl (replayCmd u) s) u fun k =>
      { k with replaying := kind, replayed := cs.length, leftCmds := k.retry.length, leftWrites := k.held.length }

/-- The replay of a recovery (R212, R213): a parity error replays every held write whose command has left the retry buffer and every command in it; a CRC
error alone every held write. -/
def recover (s : State) (u : Nat) (parity : Bool) : State :=
  let k := subch s u
  if parity then
    let s := updSub s u fun k => precharge k
    replayAll s u 1 ((k.held.take (k.held.length - k.retry.countP isWrite)).map writeCmd ++ k.retry)
  else replayAll s u 2 (k.held.map writeCmd)

/-- A recovery (R212, R213): the error status that the components report; DMC.REPLAY follows the replay. -/
def alertRecovery (sub : Nat) (parity crc : Bool) (s : State) : State :=
  if !(subch s sub).alert then s
  else
    let o := R.DMC_SUB_REPLAY (sub / 2) (sub % 2)
    let s := if parity then bump s o 15 0 1 else s
    let s := if crc then bump s o 31 16 1 else s
    let s := updSub s sub fun k => { k with alert := false }
    resumeNoResults (if parity || crc then makeUp (raise (recover s sub parity) (P.dmc (sub / 2)) 11) sub else makeUp s sub)

/-- RETRY_ENTRY_RETIRE (R210): the oldest command, or the oldest held write, passes its maximum alert delay. -/
def execRetryEntryRetire (sub : Nat) (write : Bool) (s : State) : Host.Outcome State Fault Refusal :=
  .next (updSub s sub fun k =>
    let k := if write then { k with held := k.held.drop 1, leftWrites := k.leftWrites - 1 }
      else { k with retry := k.retry.drop 1, leftCmds := k.leftCmds - 1 }
    if k.leftCmds = 0 ∧ k.leftWrites = 0 then { k with replaying := 0 } else k)

/-! Patrol scrub and refill (R187, R217). -/

/-- The internal address of local address `l` of subchannel `u` under the layout in effect (R179 read backwards). -/
def internalOf (s : State) (u l : Nat) : Option Nat :=
  let ms := layoutMasks s
  (List.range 32).findSome? fun r =>
    let m := nth ms r 0
    let b := regionBase ms r u
    let n := 0x40000000 / popc8 m
    if bit m u && decide (b ≤ l) && decide (l < b + n) then
      let j := (bitList m 8).findIdx (· = u)
      some (0x1000000000 + r * 0x40000000 + ((l - b) / 512 * popc8 m + j) * 512 + l % 512)
    else none

/-- The scrub read of the burst at internal address `a`: bulk-class traffic of no requester of Mortar. -/
def patrolReq (s : State) (a l : Nat) : DramReq :=
  { src := 48, req := .hw, cls := 3, cls0 := 3, chan := .bulk, addr := a, loc := l, len := 64, data := none, at_ := s.clock, seq := s.dram.seq }

/-- DRAM_PATROL_SCRUB (R187): the next mapped burst of the subchannel is read; nothing while the traffic that R189 serves first waits. -/
def execDramPatrolScrub (sub : Nat) (s : State) : Host.Outcome State Fault Refusal :=
  let k := subch s sub
  if !k.live || !retryRoom k || !rb s (R.DMC_SCRUB_CTRL (sub / 2)) 0 then .next s
  else
    match internalOf s sub k.patrol with
    | none => .next (updSub s sub fun k => { k with patrol := 0 })
    | some a =>
      match engineCommand s sub (patrolReq s a k.patrol) with
      | none => .next s
      | some t => .next (updIo (updSub (checkBurst t 1 (a / 64)) sub fun k => { k with patrol := k.patrol + 64 }) fun _ => s.mortar.io)

/-- The regions that the layout in effect maps (SYS_CAP_MEM.DATA_GIB, R220). -/
def dataGib (s : State) : Nat := ((layoutMasks s).filter (· ≠ 0)).length

/-- The layout is ready (R217): filling ends on every subchannel that fills. -/
def layoutReady (s : State) : State :=
  if s.dram.filling.isEmpty then s
  else
    let us := (List.range 8).filter fun u => fillsSub s u && decide ((subch s u).st ≠ .fenced)
    let s := { s with dram := { s.dram with filling := [] } }
    let s := us.foldl (fun s u => updSub s u fun k => { k with st := if k.st = .filling then .run else k.st }) s
    let s := (List.range 4).foldl (fun s c => if us.any (· / 2 = c) then raise s (P.dmc c) 14 else s) s
    dramBack (resumeNoResults (wf s R.SYS_CAP_MEM 31 16 (dataGib s)))

end Sys2Proof.Machine
end

