-- ==== Sys2Proof/Machine/Ingress.lean ====
section
/-!
DEFINITION. Machine/Ingress.lean: CSI-2, AVTP and host-push frames, PTP frames (09).
-/
namespace Sys2Proof.Machine
open Sys2Proof

/-! Sources and their registers. -/

/-- Source number of a CSI virtual channel. -/
def csiSrc (p v : Nat) : Nat := p * 16 + v

/-- Source number of an ETH entry. -/
def ethSrc (m e : Nat) : Nat := 128 + m * 36 + e

/-- What the registers declare of a source: its page, entry, binding and enable. -/
structure Decl where
  page : Nat
  entry : Nat
  valid : Bool
  en : Bool
  kind : Nat
  slot : Nat
  format : Nat
  cls : Nat
  width : Nat
  height : Nat
  rate : Nat
  queue : Nat
  maxBytes : Nat
  drops : Nat
  frames : Nat
deriving DecidableEq, Repr

/-- The declaration of a source. -/
def declOf (s : State) (src : Nat) : Decl :=
  if src < 128 then
    let p := src / 16
    let v := src % 16
    { page := P.csi p, entry := v, valid := rb s (R.CSI_VC_CFG p v) 6, en := rb s (R.CSI_VC_CTRL p v) 0, kind := 1,
      slot := rf s (R.CSI_VC_CFG p v) 5 0, format := rf s (R.CSI_VC_CFG p v) 15 8, cls := rf s (R.CSI_VC_CFG p v) 17 16,
      width := rf s (R.CSI_VC_DIM p v) 15 0, height := rf s (R.CSI_VC_DIM p v) 31 16, rate := rf s (R.CSI_VC_RQ p v) 15 0,
      queue := rf s (R.CSI_VC_RQ p v) 31 16, maxBytes := 0, drops := R.CSI_VC_DROPS p v, frames := R.CSI_VC_FRAMES p v }
  else
    let m := (src - 128) / 36
    let e := (src - 128) % 36
    { page := P.eth m, entry := e, valid := rb s (R.ETH_STR_CFG m e) 8, en := rb s (R.ETH_STR_CTRL m e) 0,
      kind := rf s (R.ETH_STR_CFG m e) 7 6 + 1, slot := rf s (R.ETH_STR_CFG m e) 5 0,
      format := 16 + rf s (R.ETH_STR_CFG m e) 12 9, cls := rf s (R.ETH_STR_CFG m e) 14 13,
      width := rf s (R.ETH_STR_DIM m e) 15 0, height := rf s (R.ETH_STR_DIM m e) 31 16, rate := rf s (R.ETH_STR_RQ m e) 15 0,
      queue := rf s (R.ETH_STR_RQ m e) 31 16, maxBytes := rf s (R.ETH_STR_CFG m e) 28 16 * 1024,
      drops := R.ETH_STR_DROPS m e, frames := R.ETH_STR_FRAMES m e }

/-- A source. -/
def srcOf (s : State) (n : Nat) : Source := SMap.getD s.ing.src n {}

/-- `s` with a source changed. -/
def updSrc (s : State) (n : Nat) (f : Source → Source) : State :=
  { s with ing := { s.ing with src := SMap.put s.ing.src n (f (srcOf s n)) {} } }

/-- Stored bytes per pixel, wire bytes of a line, and CSI-2 data type of a raw format (R287). -/
def rawFormat (f w : Nat) : Nat × Nat × Nat :=
  match f with
  | 1 => (1, w, 0x2A)
  | 2 => (2, w * 5 / 4, 0x2B)
  | 3 => (2, w * 3 / 2, 0x2C)
  | 4 => (2, w * 2, 0x1E)
  | _ => (3, w * 3, 0x24)

/-- STRIDE of a raw frame (R287). -/
def strideOf (d : Decl) : Nat := alignUp (d.width * (rawFormat d.format d.width).1) 64

/-- The stored bytes of a line from its bytes on the wire (R287): RAW10 and RAW12 unpacked as CSI-2 packs them. -/
def storedLine : Nat → Nat → List Byte → List Byte
  | 0, _, _ => []
  | fuel + 1, f, bs =>
    match f, bs with
    | 2, a :: b :: c :: d :: e :: rest =>
      let px (x : Byte) (k : Nat) : List Byte := leBytes 2 (x.toNat * 4 + bits e.toNat (2 * k + 1) (2 * k))
      px a 0 ++ px b 1 ++ px c 2 ++ px d 3 ++ storedLine fuel f rest
    | 3, a :: b :: c :: rest =>
      leBytes 2 (a.toNat * 16 + c.toNat % 16) ++ leBytes 2 (b.toNat * 16 + c.toNat / 16) ++ storedLine fuel f rest
    | 2, _ => []
    | 3, _ => []
    | _, bs => bs

/-- FAULT_INFO of the CSI and ETH causes; DESIGN CHOICE: a detail above 65,535 reads 65,535. -/
def ingInfo (d : Decl) (detail : Nat) : Nat := d.slot + d.entry * 256 + min detail 65535 * 65536

/-- The causes of CSI and ETH. -/
abbrev IC.undeclared : Nat := 1
abbrev IC.format : Nat := 2
abbrev IC.width : Nat := 3
abbrev IC.heightOver : Nat := 4
abbrev IC.heightShort : Nat := 5
abbrev IC.rate : Nat := 6
abbrev IC.queue : Nat := 7
abbrev IC.pool : Nat := 8
abbrev IC.crc : Nat := 9
abbrev IC.noFe : Nat := 0x0A
abbrev IC.writeFailed : Nat := 0x0B
abbrev IC.oversize : Nat := 0x0C
abbrev IC.badDesc : Nat := 0x0D
abbrev IC.window : Nat := 0x0E
abbrev IC.readFailed : Nat := 0x0F
abbrev IC.ptpOverflow : Nat := 0x10

/-- A frame is refused (R288, R291). -/
def refuseFrame (s : State) (d : Decl) (cause detail : Nat) : State :=
  raise (hwFault (bump s d.drops 15 0 1) d.page cause (ingInfo d detail)) d.page 8

/-- The frame in progress of a source is dropped (R289, R291): its buffer is freed. -/
def dropFrame (s : State) (src : Nat) (cause detail : Nat) : State :=
  match (srcOf s src).frame with
  | none => s
  | some f =>
    let d := declOf s src
    let s := updSrc s src fun k => { k with frame := none }
    let s := if f.got then freeFrom s (engineVia (islandAt d.page)) f.slot f.handle else s
    raise (hwFault (bump s d.drops 31 16 1) d.page cause (ingInfo d detail)) d.page 9

/-- FRAME_SEQ of a slot advances (R290); the new value. -/
def nextSeq (s : State) (slot : Nat) : State × Nat :=
  let q := (SMap.getD s.ing.seq slot 0 + 1) % 2 ^ 32
  ({ s with ing := { s.ing with seq := SMap.put s.ing.seq slot q 0 } }, q)

/-- At least 90 % of the declared period has passed since the last accepted frame start (R288 check 4); the first frame
passes. -/
def rateOk (s : State) (d : Decl) (k : Source) : Bool :=
  match k.lastStart with
  | none => true
  | some t => decide ((nowNs s - t) * d.rate * 10 ≥ 9 * 100 * 1000000000)

/-- The trigger queue can take a frame (R288 check 5). -/
def queueOk (s : State) (d : Decl) : Bool :=
  let c := peekCtx s d.queue
  decide (ctxState c = 1) && decide (ctxDepth c < ctxCap c)

/-- Checks 4 and 5 of R288, in order; check 5 reads the context of the trigger queue (R236). -/
def startCheck (s : State) (d : Decl) (k : Source) : State × Option (Nat × Nat) :=
  if !rateOk s d k then (s, some (IC.rate, (nowNs s - k.lastStart.getD 0) / 1000))
  else
    let s := (readCtx s d.queue).1
    (s, if queueOk s d then none else some (IC.queue, 0))

/-- While THIN is 1 a source of sentinel class takes a frame only when its credit allows it (R571): whether the frame is not accepted. -/
def thinned (s : State) (src : Nat) (d : Decl) : State × Bool :=
  if !rb s R.PLB_SENT 9 || d.cls ≠ 0 then (s, false)
  else
    let c := (srcOf s src).credit + rf s R.PLB_SENT 8 0
    (updSrc s src fun k => { k with credit := if c ≥ 256 then c - 256 else c }, decide (c < 256))

/-- The slot accepts the frame start made at time `f.began` (R288), and the stall of the slot is re-armed (R308). -/
def acceptStart (s : State) (src : Nat) (f : Frame) : State :=
  updSrc s src fun k => { k with frame := some f, lastStart := some f.began, stalled := false }

/-- A slot has delivered a frame: FLT learns the end of a stall (R721). -/
def endStall (s : State) (slot : Nat) : State :=
  if s.flt.stalled.contains slot || s.toFlt.contains (.stall slot) then tellFlt s (.unstall slot) else s

/-- A source stalls (R308): its event and record, and FLT learns of it (R721). -/
def stallSource (s : State) (src : Nat) : State :=
  let d := declOf s src
  let s := updSrc s src fun k => { k with stalled := true }
  let s := raiseRecord s d.page 10 [(rd s (hdr d.page 0x20)).toNat ||| 1024, statusWord s d.page, 0, 0]
  tellFlt s (.stall d.slot)

/-- The epoch that a source page shows. -/
def pageEpoch (s : State) (pg : Nat) : Nat := rf s (hdr pg 0x18) 15 0

/-! CSI-2 (R288, R289, R300, R301). -/

/-- What the receiver observes of its lanes with a burst: those of the first burst after the enable are in use, at the rate measured then (R300); the lanes
in ULPS. -/
def measured (s : State) (p : Nat) (rx : CsiRx) : State :=
  let o := R.CSI_PHY_STATUS p
  let s := if rf s o 2 0 = 0 then wf (wf s o 2 0 rx.lanes) o 15 3 rx.mbps else s
  wf s o 20 17 rx.ulps

/-- The port takes packets: above 1.5 Gbps only once deskewed (R300). -/
def csiLive (s : State) (p : Nat) : Bool :=
  decide (rf s (R.CSI_PHY_STATUS p) 15 3 ≤ 1500) || rb s (R.CSI_PHY_STATUS p) 16

/-- A packet reaches an enabled port (R300, R301): the state after it was measured and its header counted, and, where the packet is taken, whether its header
was corrected. -/
def csiPacket (s : State) (p : Nat) (rx : CsiRx) : State × Option Bool :=
  let s := measured (wake s 36) p rx
  let e := R.CSI_ERRORS p
  if !csiLive s p then (s, none)
  else match rx.header with
    | 0 => (s, some false)
    | 1 => (bump s e 15 8 1, some true)
    | 2 => (bump s e 23 16 1, none)
    | _ => (bump s e 7 0 1, none)

/-- CSI_FRAME_START (R288, R290). -/
def execCsiFrameStart (port vc frame : Nat) (rx : CsiRx) (s : State) : Host.Outcome State Fault Refusal :=
  if port ≥ 8 ∨ vc ≥ 16 ∨ !accepts s (P.csi port) then .next s
  else
    let k := csiPacket s port rx
    match k.2 with
    | none => .next k.1
    | some fixed =>
      let s := k.1
      let src := csiSrc port vc
      let d := declOf s src
      let s := dropFrame s src IC.noFe (((srcOf s src).frame.map (·.lines)).getD 0)
      if !d.valid then .next (refuseFrame s d IC.undeclared 0)
      else
        let q := nextSeq s d.slot
        let s := q.1
        let h := if d.en then thinned s src d else (s, true)
        let s := h.1
        if h.2 then .next (bump s (R.CSI_IGNORED port) 15 0 1)
        else
          let g := startCheck s d (srcOf s src)
          match g.2 with
          | some c => .next (refuseFrame g.1 d c.1 c.2)
          | none =>
            let s := g.1
            .next (updSrc s src fun k => { k with frame := some {
              slot := d.slot, kind := 1, seq := q.2, num := frame % 65536, epoch := pageEpoch s d.page, ts := tbNs s, fixed := fixed,
              unsynced := decide (s.tb.state ≠ 1), began := nowNs s } })

/-- The five data types of R287. -/
def rawType (dt : Nat) : Bool := dt == 0x2A || dt == 0x2B || dt == 0x2C || dt == 0x1E || dt == 0x24

/-- How a source's own requests travel: from the port of its page's island, on the normal channel; pixel writes carry the slot's class (R188, R293). -/
def streamVia (d : Decl) (cls : Option Nat) : Via := { engineVia (islandAt d.page) with cls := cls }

/-- A line is stored, or the frame dropped (R289): CRC, then the write. -/
def storeLine (s : State) (src : Nat) (d : Decl) (f : Frame) (data : List Byte) (crcOk fixed : Bool) : State :=
  let p := src / 16
  let j := injFire s 4 fun a => a % 8 = p
  let s := j.1
  let f := { f with fixed := f.fixed || fixed }
  if !crcOk || j.2 then dropFrame (bump s (R.CSI_ERRORS p) 31 24 1) src IC.crc f.lines
  else
    let bs := storedLine (data.length + 1) d.format data
    let w := patientRange s (streamVia d (some d.cls)) (f.addr + f.lines * strideOf d) bs []
    if w.2 ≠ MS.ok then dropFrame w.1 src IC.writeFailed f.lines
    else updSrc w.1 src fun k => { k with frame := some { f with lines := f.lines + 1, bytes := f.bytes + bs.length } }

/-- The first long packet of a frame (R288): check 3, then the buffer, then the line. -/
def csiFirstLine (port vc dt wc : Nat) (data : List Byte) (crcOk : Bool) (rx : CsiRx) (s : State) : State :=
  if port ≥ 8 ∨ vc ≥ 16 ∨ !accepts s (P.csi port) then s
  else
    let k := csiPacket s port rx
    match k.2 with
    | none => k.1
    | some fixed =>
    let s := k.1
    let src := csiSrc port vc
    let d := declOf s src
    if !rawType dt then bump s (R.CSI_IGNORED port) 31 16 1
    else if d.valid && !d.en && (srcOf s src).frame.isNone then bump s (R.CSI_IGNORED port) 15 0 1
    else match (srcOf s src).frame with
    | none => s
    | some f =>
      if f.got then s
      else
        let none_ (s : State) : State := updSrc s src fun k => { k with frame := none }
        let r := rawFormat d.format d.width
        if dt ≠ r.2.2 then refuseFrame (none_ s) d IC.format wc
        else if wc ≠ r.2.1 then refuseFrame (none_ s) d IC.width wc
        else
          let a := allocFrom s (streamVia d none) d.slot (strideOf d * d.height)
          if a.2.st ≠ QS.ok then refuseFrame (none_ a.1) d IC.pool 0
          else
            let f := { f with got := true, handle := a.2.handle, addr := a.2.addr, size := strideOf d * d.height }
            storeLine (acceptStart a.1 src f) src d f (data.take wc) crcOk fixed

/-- A later long packet (R289). -/
def csiLine (port vc dt wc : Nat) (data : List Byte) (crcOk : Bool) (rx : CsiRx) (s : State) : State :=
  if port ≥ 8 ∨ vc ≥ 16 ∨ !accepts s (P.csi port) then s
  else
    let k := csiPacket s port rx
    match k.2 with
    | none => k.1
    | some fixed =>
    let s := k.1
    let src := csiSrc port vc
    let d := declOf s src
    if !rawType dt then bump s (R.CSI_IGNORED port) 31 16 1
    else if d.valid && !d.en && (srcOf s src).frame.isNone then bump s (R.CSI_IGNORED port) 15 0 1
    else match (srcOf s src).frame with
    | none => s
    | some f =>
      if !f.got then s
      else
        let r := rawFormat d.format d.width
        if dt ≠ r.2.2 then dropFrame s src IC.format wc
        else if wc ≠ r.2.1 then dropFrame s src IC.width wc
        else if f.lines ≥ d.height then dropFrame s src IC.heightOver f.lines
        else storeLine s src d f (data.take wc) crcOk fixed

/-- A frame record (R292). -/
def frameRecord (s : State) (d : Decl) (f : Frame) : List Byte :=
  let gap := match s.ing.lastRec.get f.slot with
    | none => false
    | some q => decide ((f.seq + 2 ^ 32 - q) % 2 ^ 32 > 1)
  let flags := b2n f.loss + b2n gap * 2 + b2n f.poison * 4 + b2n f.fixed * 8 + b2n f.unsynced * 16
  padTo 64 (leBytes 4 f.handle ++ leBytes 1 f.slot ++ leBytes 1 f.kind ++ leBytes 2 flags ++ leBytes 4 f.seq
    ++ leBytes 2 f.epoch ++ leBytes 2 f.num ++ leBytes 8 f.ts ++ leBytes 8 f.tEnd ++ leBytes 8 f.addr ++ leBytes 4 f.bytes
    ++ leBytes 2 d.width ++ leBytes 2 d.height ++ leBytes 2 (if f.kind = 1 then strideOf d else 0) ++ leBytes 1 d.format)

/-- The end of a frame (R293): its record is written to the ring entry at the source's TAIL copy, and its trigger is due. -/
def endFrame (s : State) (src : Nat) (f : Frame) : State :=
  let d := declOf s src
  let c := peekCtx s d.queue
  let w := patientWrite s (streamVia d none) (ringAddr c ((srcOf s src).tail + (srcOf s src).ready.length)) (frameRecord s d f) []
  if w.2 ≠ MS.ok then dropFrame w.1 src IC.writeFailed f.lines
  else
    let s := { w.1 with ing := { w.1.ing with lastRec := SMap.set w.1.ing.lastRec f.slot f.seq } }
    updSrc s src fun k => { k with frame := none, ready := k.ready ++ [f] }

/-- A Frame End packet (R289, R293, R301). -/
def csiFrameEnd (port vc : Nat) (rx : CsiRx) (s : State) : State :=
  if port ≥ 8 ∨ vc ≥ 16 ∨ !accepts s (P.csi port) then s
  else
    let k := csiPacket s port rx
    match k.2 with
    | none => k.1
    | some fixed =>
    let s := k.1
    let src := csiSrc port vc
    let d := declOf s src
    match (srcOf s src).frame with
    | none => if d.valid && !d.en then bump s (R.CSI_IGNORED port) 15 0 1 else bump s (R.CSI_IGNORED port) 31 16 1
    | some f =>
      if f.lines < d.height then dropFrame s src IC.heightShort f.lines
      else endFrame s src { f with tEnd := tbNs s, fixed := f.fixed || fixed }

/-- The trigger of the oldest delivered frame of a source, which travels urgent (R75, R293), and whether it was taken; a refused trigger drops the frame. -/
def sendTrigger (s : State) (src cycles : Nat) : State × Bool :=
  match (srcOf s src).ready with
  | [] => (s, false)
  | f :: fs =>
    let d := declOf s src
    let s := updSrc s src fun k => { k with ready := fs }
    let t := triggerFrom s { streamVia d none with chan := .urgent } d.queue 1 cycles
    if t.2 = HS.ok then
      let s := updSrc t.1 src fun k => { k with tail := (k.tail + 1) % ctxCap (peekCtx s d.queue), delivered := true }
      let s := endStall s d.slot
      (bump s d.frames 31 0 1, true)
    else
      let s := freeFrom t.1 (streamVia d none) f.slot f.handle
      (raise (hwFault (bump s d.drops 31 16 1) d.page IC.queue (ingInfo d 0)) d.page 9, false)

/-- A write of the oldest delivered frame of a source, that of its record among them, still waits at the stop of its subchannel (R293). -/
def frameWaits (s : State) (src : Nat) : Bool :=
  match (srcOf s src).ready with
  | [] => false
  | f :: _ => writeStops s f.addr f.size || writeStops s (ringAddr (peekCtx s (declOf s src).queue) (srcOf s src).tail) 64

/-- The record write of the oldest delivered frame of a source is acknowledged (R293). -/
def frameTrigger (source cycles : Nat) (s : State) : State :=
  let n := islandAt (declOf s source).page
  if islandRuns s n && !frameWaits s source then (sendTrigger (wake s n) source cycles).1 else s

/-- CSI_DESKEW_DONE (R300). -/
def execCsiDeskewDone (port : Nat) (rx : CsiRx) (s : State) : Host.Outcome State Fault Refusal :=
  if port < 8 ∧ accepts s (P.csi port) then .next (wb (measured (wake s 36) port rx) (R.CSI_PHY_STATUS port) 16 true) else .next s

/-! Ethernet, AVTP and PTP (R298, R302 to R304). -/

/-- Big-endian number of bytes. -/
def ofBe (bs : List Byte) : Nat := ofLe bs.reverse

/-- The NAL units of a STAP-A packet, each behind a start code (R304). -/
def stapUnits : Nat → List Byte → List Byte
  | 0, _ => []
  | fuel + 1, bs =>
    if bs.length < 2 then []
    else
      let n := ofBe (bs.take 2)
      [0, 0, 0, 1] ++ (bs.drop 2).take n ++ stapUnits fuel (bs.drop (2 + n))

/-- The Annex B bytes of an AVTP H.264 payload (R303, R304): single NAL unit, STAP-A, FU-A; none for another kind. -/
def annexB (pl : List Byte) : Option (List Byte) :=
  match pl with
  | [] => none
  | h :: rest =>
    let t := h.toNat % 32
    if 1 ≤ t ∧ t ≤ 23 then some ([0, 0, 0, 1] ++ pl)
    else if t = 24 then some (stapUnits rest.length rest)
    else if t = 28 then
      match rest with
      | [] => none
      | fu :: body =>
        if bit fu.toNat 7 then some ([0, 0, 0, 1, BitVec.ofNat 8 (h.toNat / 32 * 32 + fu.toNat % 32)] ++ body)
        else some body
    else none

/-- The 64-bit value nearest the time base whose low 32 bits are `t` (R297). -/
def nearTime (now t : Nat) : Nat :=
  let base := now / 2 ^ 32 * 2 ^ 32 + t % 2 ^ 32
  if base + 2 ^ 31 < now then base + 2 ^ 32
  else if now + 2 ^ 31 < base ∧ base ≥ 2 ^ 32 then base - 2 ^ 32
  else base

/-- A frame of a compressed stream takes bytes, or is dropped as OVERSIZE (R289). -/
def storeStream (s : State) (src : Nat) (f : Frame) (bs : List Byte) : State × Option Frame :=
  if f.bytes + bs.length > f.size then (dropFrame s src IC.oversize f.lines, none)
  else
    let d := declOf s src
    let w := patientRange s (streamVia d (some d.cls)) (f.addr + f.bytes) bs []
    if w.2 ≠ MS.ok then (dropFrame w.1 src IC.writeFailed f.lines, none)
    else
      let f := { f with bytes := f.bytes + bs.length }
      (updSrc w.1 src fun k => { k with frame := some f }, some f)

/-- What an AVTP packet of a stream says (R303, R304): its sequence number, the marker, a gap before it, its access-unit bytes where it is well formed,
its timestamp. -/
structure Avtp where
  seq : Nat
  mark : Bool
  gap : Bool
  pay : Option (List Byte)
  ts : Nat

/-- The packet read; `len` is stream_data_length. -/
def avtpRead (s : State) (src : Nat) (pk : List Byte) (len : Nat) : Avtp :=
  let b (i : Nat) : Nat := (nth pk i 0).toNat
  let pay := annexB ((pk.drop 28).take (len - 4))
  let good := b 0 = 3 && decide (b 1 / 16 = 8) && b 16 = 2 && b 17 = 1
  { seq := b 2, mark := bit (b 22) 4,
    gap := match (srcOf s src).seqNum with | none => false | some q => decide (b 2 ≠ (q + 1) % 256),
    pay := if good then pay else none,
    ts := if bit (b 1) 0 then nearTime (tbNs s) (ofBe ((pk.drop 12).take 4)) else tbNs s }

/-- The packets of the access unit that runs are skipped. -/
def avtpSkip (s : State) (src : Nat) (a : Avtp) : State := updSrc s src fun k => { k with skip := !a.mark }

/-- The payload is stored, none of a malformed packet; the marker ends the frame. -/
def avtpStore (s : State) (src : Nat) (a : Avtp) (f : Frame) : State :=
  let r := storeStream s src f (a.pay.getD [])
  match r.2 with
  | none => avtpSkip r.1 src a
  | some f => if a.mark then endFrame r.1 src { f with ts := a.ts, tEnd := tbNs r.1, unsynced := decide (r.1.tb.state ≠ 1) } else r.1

/-- The first packet of an access unit whose entry is enabled: the checks of R288 in order. -/
def avtpStart (s : State) (src : Nat) (a : Avtp) (d : Decl) (k : Source) : State :=
  let q := nextSeq s d.slot
  let h := thinned q.1 src d
  if h.2 then avtpSkip h.1 src a
  else
  let g := startCheck h.1 d k
  match g.2 with
  | some c => avtpSkip (refuseFrame g.1 d c.1 c.2) src a
  | none =>
    let s := g.1
    let b := allocFrom s (streamVia d none) d.slot d.maxBytes
    if b.2.st ≠ QS.ok then avtpSkip (refuseFrame b.1 d IC.pool 0) src a
    else
      let f : Frame := { slot := d.slot, kind := 2, seq := q.2, num := a.seq, epoch := pageEpoch s d.page, ts := 0,
                         got := true, handle := b.2.handle, addr := b.2.addr, size := d.maxBytes, loss := a.gap, began := nowNs s }
      avtpStore (acceptStart b.1 src f) src a f

/-- A packet of a declared stream. DESIGN CHOICE: a malformed packet of the access unit in progress is lost to it, with LOSS, and its M ends the access unit as
any packet's does. -/
def avtpStream (s : State) (m src : Nat) (a : Avtp) : State :=
  let d := declOf s src
  let k := srcOf s src
  let s := if a.gap then bump s (R.ETH_AVTP_ERRS m) 15 0 1 else s
  let s := updSrc s src fun k => { k with seqNum := some a.seq, synced := k.synced || a.mark, skip := k.skip && !a.mark }
  match k.frame with
  | some f =>
    let s := if a.pay.isNone then bump s (R.ETH_AVTP_ERRS m) 31 16 1 else s
    let f := { f with loss := f.loss || a.gap || a.pay.isNone }
    avtpStore (updSrc s src fun k => { k with frame := some f }) src a f
  | none =>
    if !k.synced || k.skip then s
    else if a.pay.isNone then avtpSkip (if d.en then refuseFrame s d IC.format 0 else s) src a
    else if !d.en then avtpSkip (nextSeq s d.slot).1 src a
    else avtpStart s src a d k

/-- The entry of a MAC that declares a stream_id for AVTP. -/
def avtpEntry (s : State) (m id : Nat) : Option Nat :=
  firstIdx 36 fun e => rb s (R.ETH_STR_CFG m e) 8 && decide (rf s (R.ETH_STR_CFG m e) 7 6 = 1)
    && decide ((rd s (R.ETH_STR_ID_HI m e)).toNat * 2 ^ 32 + (rd s (R.ETH_STR_ID_LO m e)).toNat = id)

/-- An AVTP packet of a page (R303, R304): header, H.264 header and payload as IEEE 1722 lays them out. -/
def avtpPacket (s : State) (m : Nat) (pk : List Byte) : State :=
  let len := ofBe ((pk.drop 20).take 2)
  if pk.length < 28 ∨ len < 4 ∨ pk.length < 24 + len then bump s (R.ETH_AVTP_ERRS m) 31 16 1
  else match avtpEntry s m (ofBe ((pk.drop 4).take 8)) with
  | none => raise (hwFault s (P.eth m) IC.undeclared 0) (P.eth m) 8
  | some e => avtpStream s m (ethSrc m e) (avtpRead s (ethSrc m e) pk len)

/-- A PTP frame enters the receive FIFO (R298), or is dropped with PTP_OVERFLOW. -/
def ptpReceive (s : State) (m : Nat) (fr : List Byte) : State :=
  let q := nth s.ing.ptpRx m []
  if q.length ≥ 8 ∨ fr.length > 128 then hwFault s (P.eth m) IC.ptpOverflow 0
  else
    let s := { s with ing := { s.ing with ptpRx := updAt s.ing.ptpRx m (· ++ [(fr, tbNs s)]) } }
    raise s (P.eth m) 11

/-- A frame without its FCS, from the destination address on, is received (R302). -/
def ethFrame (mac : Nat) (frame : List Byte) (fcsOk : Bool) (s : State) : State :=
  if mac ≥ 2 ∨ !accepts s (P.eth mac) then s
  else
    let s := wake s 37
    if !fcsOk then bump s (R.ETH_RX_DROPS mac) 15 0 1 else
    let t0 := ofBe ((frame.drop 12).take 2)
    let off := if t0 = 0x8100 then 18 else 14
    let t := if t0 = 0x8100 then ofBe ((frame.drop 16).take 2) else t0
    if frame.length + 4 > 1522 then bump s (R.ETH_RX_DROPS mac) 31 16 1
    else if t = 0x22F0 then avtpPacket s mac (frame.drop off)
    else if t = 0x88F7 then ptpReceive s mac frame
    else bump s (R.ETH_RX_DROPS mac) 31 16 1

/-- An AVTP packet from its subtype on is received (R303). -/
def avtpReceive (mac : Nat) (packet : List Byte) (s : State) : State :=
  if mac ≥ 2 ∨ !accepts s (P.eth mac) then s else avtpPacket (wake s 37) mac packet

/-- PTP_RX (R298). -/
def execPtpRx (mac : Nat) (frame : List Byte) (s : State) : Host.Outcome State Fault Refusal :=
  if mac ≥ 2 ∨ !accepts s (P.eth mac) then .next s else .next (ptpReceive (wake s 37) mac frame)

/-- A write of 1 to ETH_PTP_RX_POP.POP. -/
def ptpPop (s : State) (m : Nat) : State := { s with ing := { s.ing with ptpRx := updAt s.ing.ptpRx m (·.drop 1) } }

/-- A write of ETH_PTP_TX_CTRL.GO: the transmit buffer is sent, unless a transmission is in progress. -/
def ptpSend (s : State) (m : Nat) : State :=
  if rb s (R.ETH_PTP_TX_CTRL m) 30 then s
  else
    let n := rf s (R.ETH_PTP_TX_CTRL m) 7 0
    let bs := ((List.range 32).flatMap fun k => leBytes 4 (rd s (R.ETH_PTP_TX_DATA m k)).toNat).take n
    let s := wb { s with ing := { s.ing with ptpSent := (m, bs) :: s.ing.ptpSent } } (R.ETH_PTP_TX_CTRL m) 30 true
    let t := tbNs s
    setReg (setReg s (R.ETH_PTP_TX_TS_LO m) (BitVec.ofNat 32 t)) (R.ETH_PTP_TX_TS_HI m) (BitVec.ofNat 32 (t / 2 ^ 32))

/-- PTP_TX_DONE (R298). -/
def execPtpTxDone (mac : Nat) (s : State) : Host.Outcome State Fault Refusal :=
  if mac < 2 ∧ rb s (R.ETH_PTP_TX_CTRL mac) 30 then
    .next (raise (wb s (R.ETH_PTP_TX_CTRL mac) 30 false) (P.eth mac) 12)
  else .next s

/-! Host push (R305 to R307). -/

/-- A completion of a host-push descriptor (R307); a completion queue that breaks R257 gives BAD_DESC. -/
def hostPushComplete (s : State) (pg sq cq : Nat) (user : List Byte) (complete : Bool) (st seq info : Nat) : State :=
  let k := cqCheck s sq cq
  let s := k.1
  if !k.2 then
    let r := fresh (hwFault s pg IC.badDesc info) 2
    partEvent r.1 (ctxPart (peekCtx r.1 sq)) r.2
  else if st = 0 ∧ !complete then s
  else
    (carryCall s (laneVia s (engineVia (islandAt pg)) cq) 2 64 0 (fun _ => ()) fun s =>
      (pushCompletion s sq cq (padTo 64 (padTo 8 user ++ leBytes 4 st ++ leBytes 4 seq ++ leBytes 8 (tbNs s))) false none, ())).1

/-- The page pops a descriptor of an entry's host-push queue, checks it and reads its data (R305, R306); `meet` reaches the queue in the cycle of the pop.
DESIGN CHOICE: no field of a poisoned descriptor is used (R90): its frame is refused as BAD_DESC, with no completion. -/
def hostPushDesc (mac entry : Nat) (meet : HodMeet) (s : State) : State :=
  let src := ethSrc mac entry
  let d := declOf s src
  let sq := rf s (R.ETH_STR_ID_LO mac entry) 15 0
  if mac ≥ 2 ∨ entry ≥ 36 ∨ !accepts s (P.eth mac) ∨ !d.valid ∨ d.kind ≠ 3 ∨ (srcOf s src).frame.isSome
      ∨ s.hod.heldCq.any (fun h => h.sq = sq) then s
  else
    let r := popFrom (wake s 37) (streamVia d none) 1 sq meet
    let s := r.1
    if r.2.1 ≠ HS.ok ∧ r.2.1 ≠ HS.poison then s
    else
      let bs := r.2.2.data
      let cq := field bs 2 2
      let user := (bs.drop 32).take 8
      let complete := bit (field bs 1 1) 0
      let len := field bs 8 4
      let a := field bs 16 6
      let bad := field bs 0 1 ≠ 1 || decide (field bs 1 1 ≥ 2) || field bs 4 1 ≠ d.slot || field bs 5 3 ≠ 0
        || decide (len > d.maxBytes) || field bs 12 4 ≠ 0 || field bs 22 2 ≠ 0 || field bs 40 24 ≠ 0
      let q := nextSeq s d.slot
      let s := q.1
      let fail (s : State) (cause st : Nat) : State :=
        hostPushComplete (refuseFrame s d cause 0) d.page sq cq user complete st q.2 (ingInfo d 0)
      let h := if d.en then thinned s src d else (s, true)
      let s := h.1
      if r.2.1 = HS.poison then (if h.2 then s else refuseFrame s d IC.badDesc 0)
      else if h.2 then hostPushComplete s d.page sq cq user complete 8 q.2 (ingInfo d 0)
      else if bad then fail s IC.badDesc 1
      else if !windowOk s (ctxPart (peekCtx s sq)) .hod .read a len then fail s IC.window 2
      else
        let g := startCheck s d (srcOf s src)
        match g.2 with
        | some c => hostPushComplete (refuseFrame g.1 d c.1 c.2) d.page sq cq user complete (if c.1 = IC.rate then 4 else 5) q.2 (ingInfo d 0)
        | none =>
          let s := g.1
          let al := allocFrom s (streamVia d none) d.slot d.maxBytes
          if al.2.st ≠ QS.ok then fail al.1 IC.pool 6
          else
            let ts := field bs 24 8
            let f : Frame := { slot := d.slot, kind := 3, seq := q.2, num := 0, epoch := pageEpoch s d.page,
                               ts := if ts = 0 then tbNs s else ts, got := true, handle := al.2.handle, addr := al.2.addr,
                               size := d.maxBytes, unsynced := decide (s.tb.state ≠ 1), cq := cq, sq := sq, user := user,
                               complete := complete, began := nowNs s }
            let s := acceptStart al.1 src f
            let g := readRange s (streamVia d (some d.cls)) a len
            if g.2.st > 1 then
              hostPushComplete (dropFrame g.1 src IC.readFailed 0) d.page sq cq user complete 7 q.2 (ingInfo d 0)
            else
              let w := patientRange g.1 (streamVia d (some d.cls)) f.addr g.2.data g.2.bad
              if w.2 ≠ MS.ok then
                hostPushComplete (dropFrame w.1 src IC.writeFailed 0) d.page sq cq user complete 7 q.2 (ingInfo d 0)
              else
                updSrc w.1 src fun k => { k with frame := some { f with bytes := len, poison := !g.2.bad.isEmpty } }

/-- The data of a host-push frame are written (R307): the frame is delivered and its completion written. -/
def hostPushDone (source cycles : Nat) (s : State) : State :=
  match (srcOf s source).frame with
  | none => s
  | some f =>
    if f.kind ≠ 3 ∨ !islandRuns s (islandAt (declOf s source).page) ∨ writeStops s f.addr f.size then s
    else
      let d := declOf s source
      let s := endFrame (wake s 37) source { f with tEnd := tbNs s }
      let ok := !(srcOf s source).ready.isEmpty
      let s := if frameWaits s source then block s else s
      let t := sendTrigger s source cycles
      hostPushComplete t.1 d.page f.sq f.cq f.user f.complete (if !ok then 7 else if t.2 then 0 else 5) f.seq (ingInfo d 0)

/-- STREAM_STALL (R308): no frame start was accepted for 4 declared periods, or within 1 s of the entry's enable. -/
def execStreamStall (source : Nat) (s : State) : Host.Outcome State Fault Refusal :=
  let d := declOf s source
  if source ≥ 200 ∨ !d.valid ∨ (srcOf s source).stalled ∨ !(d.en || (srcOf s source).delivered) then .next s
  else .next (stallSource s source)

end Sys2Proof.Machine
end

