-- ==== Sys2Proof/Machine/Developer.lean ====
section
/-!
DEFINITION. Machine/Developer.lean: the decode cluster (10). What a bitstream decodes to is its codec standard's, and comes
with the command; what Developer does with it is this chapter's.
-/
namespace Sys2Proof.Machine
open Sys2Proof

/-- A slot of Developer. -/
def devSlot (s : State) (n : Nat) : DevSlot := nth s.dev.slots n {}

/-- `s` with a slot of Developer changed. -/
def updDev (s : State) (n : Nat) (f : DevSlot → DevSlot) : State :=
  { s with dev := { s.dev with slots := updAt s.dev.slots n f } }

/-- The source that feeds a slot (R283). -/
def slotSource (s : State) (n : Nat) : Option Nat :=
  (List.range 200).find? fun k => (declOf s k).valid && decide ((declOf s k).slot = n)

/-- The frame in decode of a slot. -/
def devBusy (s : State) (n : Nat) : Bool := s.dev.eng.any fun w => (w.map (·.slot)) = some n

/-- The partition of a slot (identity n, R267, R268). -/
def slotPart (s : State) (n : Nat) : Nat := (idPart s n).getD 0

/-- Condition 1 of R318: room in the output queue for the pictures awaiting output and one more. -/
def outRoom (s : State) (n : Nat) : Bool :=
  let c := peekCtx s (rf s (R.DEV_SLOT_CFG 0 n) 15 0)
  let d := devSlot s n
  decide (ctxState c = 1) && decide (ctxDepth c + ctxResv c + d.wait.length + d.out.length + 1 ≤ ctxCap c)

/-- A round robin: the first candidate after the last one served. -/
def nextRound (cands : List Nat) (last : Option Nat) : Option Nat :=
  match last with
  | none => cands.head?
  | some l => match cands.find? (l < ·) with
    | some c => some c
    | none => cands.head?

/-- The cost of a frame of a slot in pJ (R583): its luma pixels as declared × DEV_PJ_PX. -/
def devCost (s : State) (n : Nat) : Nat :=
  match slotSource s n with
  | some k => (declOf s k).width * (declOf s k).height * s.plb.devPj
  | none => 0

/-- The class of a slot. -/
def slotClass (s : State) (n : Nat) : Nat := ((slotSource s n).map fun k => (declOf s k).cls).getD 3

/-- The slot that an idle engine chooses (R325): class, then round robin across partitions, then across slots. -/
def devChoose (s : State) : Option (Nat × Nat × Nat) :=
  let ok (n : Nat) : Bool :=
    rb s (R.DEV_SLOT_CFG 0 n) 16 && !devBusy s n && decide ((devSlot s n).st ≠ 3) && outRoom s n
      && match slotSource s n with
         | some k => decide (ctxDepth (peekCtx s (declOf s k).queue) ≥ 1) && mediaOk s (slotPart s n) (declOf s k).cls 8 (devCost s n)
         | none => false
  let slots := (List.range 36).filter ok
  (List.range 4).findSome? fun c =>
    let cs := slots.filter fun n => slotClass s n = c
    match nextRound ((List.range 8).filter fun p => cs.any fun n => slotPart s n = p) (s.dev.rrPart.get c) with
    | none => none
    | some p =>
      match nextRound (cs.filter fun n => slotPart s n = p) (s.dev.rrSlot.get (8 * c + p)) with
      | none => none
      | some n => some (c, p, n)

/-- Developer's requests to Quarry and Hod. -/
def devVia : Via := engineVia 27

/-- A frame is dropped with a cause (R318): DROPPED counts, DEV.DROPPED is raised. -/
def devLose (s : State) (e n cause info : Nat) : State :=
  let s := bump s (R.DEV_SLOT_COUNT 0 n) 31 16 1
  raise (hwFault s (P.dev e) cause (n + info)) (P.dev e) 9

/-- A frame is dropped with a cause and its input buffer is freed. -/
def devDrop (s : State) (e n h cause info : Nat) : State := devLose (freeFrom s devVia n h) e n cause info

/-- FAULT_INFO [10:8] of POOL: the Quarry status, of which 8 and 9 show as 7 (log entry 13: a value above its field saturates). -/
def poolInfo (st : Nat) : Nat := min 7 st * 256

/-- The slot enters WAIT_RAP: DEV.SEQUENCE is raised. -/
def devWaitRap (s : State) (e n : Nat) : State := raise (updDev s n fun d => { d with st := 0 }) (P.dev e) 10

/-- A handle names an allocated buffer of its generation. -/
def handleLive (s : State) (h : Nat) : Bool :=
  let b := bufOf s (h % 8) (bits h 18 3)
  decide (h < 2 ^ 27) && b.used && decide (b.gen = bits h 26 19)

/-- The Accepted column of R310 for a FORMAT. -/
def hdrAccepted (format : Nat) (q : SeqHdr) : Bool :=
  !q.ext && match format with
  | 0x10 => (decide (q.profile = 100) || decide (q.profile = 77) || (decide (q.profile = 66) && q.set1)) && decide (q.level ≤ 52) && q.frameMbsOnly
      && decide (q.chroma ≤ 1) && decide (q.depth = 8)
  | 0x11 => (decide (q.profile = 1) || decide (q.profile = 2) || (decide (2 < q.profile) && q.compat)) && decide (q.tier = 0) && decide (q.level ≤ 153)
      && decide (q.chroma = 1) && (decide (q.depth = 8) || decide (q.depth = 10))
  | 0x12 => decide (q.profile = 0) && decide (q.tier = 0) && decide (q.level ≤ 13) && decide (q.chroma ≤ 1) && (decide (q.depth = 8) || decide (q.depth = 10))
  | _ => false

/-- STRIDE, luma and chroma plane sizes of a decoded picture (R315). -/
def planeSizes (w h : Nat) (d10 : Bool) : Nat × Nat × Nat :=
  let st := alignUp (w * (if d10 then 2 else 1)) 64
  (st, st * h, st * h / 2)

/-- Two planes under a slot's identity, or the failing status with nothing held. -/
def allocPlanes (s : State) (n : Nat) (y c : Nat) : State × Nat × Pic :=
  let none_ : Pic := { hY := 0, hC := 0, aY := 0, aC := 0, depth10 := false, width := 0, height := 0 }
  let a := allocFrom s devVia n y
  if a.2.st ≠ QS.ok then (a.1, a.2.st, none_)
  else
    let b := allocFrom a.1 devVia n c
    if b.2.st ≠ QS.ok then (freeFrom b.1 devVia n a.2.handle, b.2.st, none_)
    else (b.1, QS.ok, { none_ with hY := a.2.handle, hC := b.2.handle, aY := a.2.addr, aC := b.2.addr })

/-- Both planes of a picture are freed. -/
def freePic (s : State) (n : Nat) (p : Pic) : State := freeFrom (freeFrom s devVia n p.hY) devVia n p.hC

/-- The output planes of each picture of a frame and, of a reference, its reference-store planes (R318 condition 5), or the failing status with nothing
held. -/
def allocPics : List Bool → State → Nat → Nat → Nat → State × Nat × List (Pic × Option Pic)
  | [], s, _, _, _ => (s, QS.ok, [])
  | ref :: rs, s, n, y, c =>
    let a := allocPlanes s n y c
    if a.2.1 ≠ QS.ok then (a.1, a.2.1, [])
    else
      let b := if ref then allocPlanes a.1 n y c else (a.1, QS.ok, a.2.2)
      if b.2.1 ≠ QS.ok then (freePic b.1 n a.2.2, b.2.1, [])
      else
        let r := allocPics rs b.1 n y c
        if r.2.1 ≠ QS.ok then
          let t := freePic r.1 n a.2.2
          (if ref then freePic t n b.2.2 else t, r.2.1, [])
        else (r.1, QS.ok, (a.2.2, if ref then some b.2.2 else none) :: r.2.2)

/-- Condition 5 of R318; then the frame starts. -/
def devStart (s : State) (e n : Nat) (bs : List Byte) (h : Nat) (rap : Bool) (refs : List Bool) : State :=
  let k := devSlot s n
  let z := planeSizes k.width k.height k.depth10
  let mark (p : Pic) : Pic := { p with depth10 := k.depth10, width := k.width, height := k.height, engine := e, record := bs }
  let a := allocPics refs s n z.2.1 z.2.2
  if a.2.1 ≠ QS.ok then devDrop a.1 e n h 3 (poolInfo a.2.1)
  else
    let w : DevWork := { slot := n, record := bs, pics := a.2.2.map fun p => (mark p.1, p.2.map mark), rap := rap }
    let s := mediaDebit a.1 (slotClass s n) 8 (devCost s n)
    { s with dev := { s.dev with eng := updAt s.dev.eng e fun _ => some w } }

/-- The engine that chooses next: the lowest-numbered of those that are idle, enabled and not quiesced. DEDUCED (R326 says it of engines that become idle in
one cycle): the others find no frame that it has left. -/
def devIdle (s : State) : Option Nat := (List.range 6).find? fun e => accepts s (P.dev e) && (nth s.dev.eng e none).isNone

/-- An idle engine takes its next frame (R318, R325): `hdr` is the sequence header that the frame carries, `rap` whether it carries a random access point,
`refs` which of its pictures are references, `meet` what reaches the trigger queue in the cycle of the pop. DESIGN CHOICE: of a poisoned input record no
field is used (R90), and its buffer stays allocated. DEDUCED: the header of a frame that condition 3 drops is not taken, and DEV.SEQUENCE is raised for a
header that differs from the slot's. -/
def devEngineSelect (engine : Nat) (hdr : Option SeqHdr) (rap : Bool) (refs : List Bool) (meet : HodMeet) (s : State) : State :=
  if devIdle s ≠ some engine then s
  else
    match devChoose s with
    | none => s
    | some (c, p, n) =>
      let d := declOf s ((slotSource s n).getD 0)
      let s := wake s 27
      let s := { s with dev := { s.dev with rrPart := SMap.set s.dev.rrPart c p, rrSlot := SMap.set s.dev.rrSlot (8 * c + p) n } }
      let r := popFrom s devVia 1 d.queue meet
      let s := r.1
      let bs := r.2.2.data
      let h := field bs 0 4
      if r.2.1 ≠ HS.ok ∧ r.2.1 ≠ HS.poison then s
      else if r.2.1 = HS.poison then devLose s engine n 5 (d.queue * 65536)
      else if !handleLive s h ∨ field bs 50 1 ≠ d.format then devDrop s engine n h 5 (d.queue * 65536)
      else
        let k := devSlot s n
        let s := updDev s n fun k => { k with last := bs }
        let waits (known : Bool) : Bool := decide (k.st = 0) && !(rap && known)
        let drop (s : State) := bump (freeFrom s devVia n h) (R.DEV_SLOT_COUNT 0 n) 31 16 1
        match hdr with
        | some q =>
          let right := hdrAccepted d.format q
          let sized := decide (q.width = d.width) && decide (q.height = d.height)
          if waits (k.seq.isSome || (right && sized)) then drop s
          else if !right then devWaitRap (devDrop s engine n h 1 (q.profile % 65536 * 65536)) engine n
          else if !sized then devWaitRap (devDrop s engine n h 2 (min 65535 q.width * 65536)) engine n
          else
            let s := if k.seq = some q then s else raise s (P.dev engine) 10
            let s := updDev s n fun k => { k with seq := some q, depth10 := decide (q.depth = 10), width := q.width, height := q.height,
                                                  mono := decide (q.chroma = 0) }
            devStart s engine n bs h rap refs
        | none => if waits k.seq.isSome then drop s else devStart s engine n bs h rap refs

/-! The end of a frame (R319, R320, R329 to R333). -/

/-- The byte offsets of a plane that the addresses [first, last] cover: blocks of `side` bytes by `rows` lines, row by row of
`per` blocks, within a plane of `stride` × `h` bytes whose rows hold `w` bytes. -/
def blockBytes (side rows per stride w h first last : Nat) : List (Nat × Nat) :=
  (span first (last + 1 - first)).flatMap fun a =>
    let x := a % per * side
    let y := a / per * rows
    (List.range rows).filterMap fun j =>
      if y + j < h ∧ x < w then some ((y + j) * stride + x, min side (w - x)) else none

/-- The mid value of R315 at a byte offset of a plane. -/
def midByte (d10 : Bool) (i : Nat) : Byte := if d10 then (if i % 2 = 1 then 0x80 else 0) else 0x80

/-- A plane in the storage form of R315: of P010 bits [5:0] of each sample are zero. The samples are the codec's, without film grain synthesis (R312). -/
def stored (d10 : Bool) (bs : List Byte) : List Byte :=
  if d10 then bs.zipIdx.map fun b => if b.2 % 2 = 0 then b.1 &&& 0xC0 else b.1 else bs

/-- One damage report (R333). -/
def reportDamage (s : State) (e n seq : Nat) (d : Damage) : State :=
  let ps := [n + e * 256 + d.cause * 65536, seq, d.unit % 65536 + d.kind % 4 * 65536, d.first % 65536 + d.last % 65536 * 65536]
  let s := bump s (R.DEV_DMG_COUNT e) 31 0 1
  let s := ps.zipIdx.foldl (fun s p => setReg s (R.DEV_DMG_LAST e p.2) (BitVec.ofNat 32 p.1)) s
  raiseRecord s (P.dev e) 8 ps

/-- The ranges that are reported: at most 16, the last of them extended to the last damaged address (R333). -/
def reportRanges (ds : List Damage) : List Damage :=
  if ds.length ≤ 16 then ds
  else ds.take 15 ++ [{ nth ds 15 ⟨0, 0, 0, 0, 0⟩ with last := ((ds.getLast?).map (·.last)).getD 0 }]

/-- The planes of a picture are written; the first status that fails. -/
def writePlanes (s : State) (v : Via) (p : Pic) (y c : List Byte) : State × Nat :=
  let a := mediaWrite s v p.aY y []
  if a.2 ≠ MS.ok then a else mediaWrite a.1 v p.aC c []

/-- Bytes of a plane are replaced from offset `o` on. -/
def patchPlane (plane : List Byte) (o : Nat) (bs : List Byte) : List Byte := plane.take o ++ bs ++ plane.drop (o + bs.length)

/-- The runs (offset, bytes) of a plane at `base` are read, up to the first that does not read OK; none where one does not. -/
def readRuns : List (Nat × Nat) → State → Via → Nat → State × Option (List (Nat × List Byte))
  | [], s, _, _ => (s, some [])
  | (o, n) :: rs, s, v, base =>
    let g := mediaRead s v (base + o) n
    if g.2.st ≠ MS.ok then (g.1, none)
    else
      let r := readRuns rs g.1 v base
      (r.1, r.2.map fun l => (o, g.2.data) :: l)

/-- The runs of both planes of a reference are read for concealment (R330); none where there is no reference, or one reads other than OK. -/
def readGood (s : State) (v : Via) (good : Option Pic) (ry rc : List (Nat × Nat)) :
    State × Option (List (Nat × List Byte) × List (Nat × List Byte)) :=
  match good with
  | none => (s, none)
  | some p =>
    let a := readRuns ry s v p.aY
    let b := readRuns rc a.1 v p.aC
    (b.1, match a.2, b.2 with | some y, some c => some (y, c) | _, _ => none)

/-- One damaged range is concealed (R330) in the two planes: the co-located samples of the reference, or the mid value, with which the picture has grey
fill. -/
def concealRange (v : Via) (good : Option Pic) (d10 : Bool) (ry rc : List (Nat × Nat)) (a : State × List Byte × List Byte × Bool) :
    State × List Byte × List Byte × Bool :=
  let g := readGood a.1 v good ry rc
  let mid (rs : List (Nat × Nat)) := rs.map fun r => (r.1, (span r.1 r.2).map (midByte d10))
  let fill := g.2.getD (mid ry, mid rc)
  (g.1, fill.1.foldl (fun p r => patchPlane p r.1 r.2) a.2.1, fill.2.foldl (fun p r => patchPlane p r.1 r.2) a.2.2.1, a.2.2.2 || g.2.isNone)

/-- Whether the bytes [off, off + len) of a read hold poison, or the read gave none of them. -/
def spoiled (g : Got) (off len : Nat) : Bool :=
  decide (g.st ≠ MS.ok ∧ g.st ≠ MS.poison) || g.bad.any fun b => decide (b.1 < off + len ∧ off < b.1 + b.2)

/-- The runs of the references that a unit predicts from are read: whether one reads other than OK (its chroma with its luma). -/
def readRefs : List (Nat × Nat × Nat) → State → Via → List Pic → State × Bool
  | [], s, _, _ => (s, false)
  | (o, off, len) :: rs, s, v, held =>
    match held.find? (·.order = o) with
    | none => readRefs rs s v held
    | some p =>
      let y := mediaRead s v (p.aY + off) len
      let c := mediaRead y.1 v (p.aC + off / 2) (len / 2)
      let r := readRefs rs c.1 v held
      (r.1, r.2 || decide (y.2.st ≠ MS.ok) || decide (c.2.st ≠ MS.ok))

/-- The damaged range that a unit is (R329). DESIGN CHOICE: of several causes POISON goes first, then what the parse finds, then MISSING_REF; an input read
with a status other than OK and POISON is damaged as one with FENCED. -/
def unitDamage (s : State) (v : Via) (held : List Pic) (input : Got) (kind i : Nat) (u : DecUnit) : State × Option Damage :=
  let r := readRefs u.refs s v held
  let cause :=
    if spoiled input u.off u.len || r.2 then 4
    else if u.outcome = 1 ∨ u.outcome = 5 then u.outcome
    else if u.refs.any fun x => held.all (·.order ≠ x.1) then 3
    else 0
  (r.1, if cause = 0 then none else some ⟨cause, i, kind, u.first, u.last⟩)

/-- Addresses in runs of consecutive ones. -/
def runsOf : List Nat → List (Nat × Nat)
  | [] => []
  | a :: as => match runsOf as with
    | (b, c) :: rs => if b = a + 1 then (a, c) :: rs else (a, a) :: (b, c) :: rs
    | [] => [(a, a)]

/-- The ranges of `blocks` addresses that no unit covers; a picture with no unit at all is missing whole. -/
def unitGaps (units : List DecUnit) (tiles : Bool) (blocks : Nat) : List Damage :=
  (runsOf ((List.range blocks).filter fun a => units.all fun u => decide (a < u.first ∨ u.last < a))).map fun r =>
    ⟨2, (units.filter fun u => u.first < r.1).length, if units.isEmpty then 2 else b2n tiles, r.1, r.2⟩

/-- Ranges by first address. -/
def damageInsert (d : Damage) : List Damage → List Damage
  | [] => [d]
  | e :: es => if d.first < e.first then d :: e :: es else e :: damageInsert d es

/-- DEDUCED: ranges of one cause that touch are one contiguous range, named by its first unit. -/
def damageJoin : List Damage → List Damage
  | [] => []
  | d :: ds => match damageJoin ds with
    | e :: es => if e.cause = d.cause ∧ e.first ≤ d.last + 1 then { d with last := max d.last e.last } :: es else d :: e :: es
    | [] => [d]

/-- The damaged ranges of a picture of `blocks` addresses (R329), in address order. -/
def damageOf (s : State) (v : Via) (held : List Pic) (input : Got) (d : DecPic) (blocks : Nat) : State × List Damage :=
  let kind := if d.tiles then 1 else 0
  let us := d.units.zipIdx.foldl (fun a u =>
    let r := unitDamage a.1 v held input kind u.2 u.1
    (r.1, a.2 ++ r.2.toList)) (s, [])
  (us.1, damageJoin ((us.2 ++ unitGaps d.units d.tiles blocks).foldl (fun l d => damageInsert d l) []))

/-- The picture that leaves next: of those awaiting output that are shown, the first in output order. -/
def firstOut (ps : List Pic) : Option Pic :=
  (ps.filter fun p => !p.hidden).foldl (fun (a : Option Pic) p => match a with
    | some q => if p.order < q.order then some p else a
    | none => some p) none

/-- One picture leaves, with the input record that outputs it. -/
def emitOne (bs : List Byte) (k : DevSlot) : DevSlot :=
  match firstOut k.wait with
  | none => k
  | some p => { k with out := k.out ++ [{ p with record := bs }], wait := k.wait.erase p }

/-- `count` pictures awaiting output leave in output order (R320). -/
def emitPics (s : State) (n count : Nat) (bs : List Byte) : State := updDev s n fun k => (List.range count).foldl (fun k _ => emitOne bs k) k

/-- A pixel write of a picture failed (Edges): it is dropped, its buffers freed. -/
def picLost (s : State) (e n : Nat) (p : Pic × Option Pic) (st : Nat) : State :=
  let s := freePic s n p.1
  let s := match p.2 with | some q => freePic s n q | none => s
  devLose s e n 4 (st * 256)

/-- A picture of a frame is decoded (R319, R329 to R333). The units read the references where the store holds them, concealed ones as concealed (R331). -/
def decodePic (e : Nat) (w : DevWork) (v : Via) (input : Got) (s : State) (x : (Pic × Option Pic) × DecPic) : State :=
  let n := w.slot
  let p := x.1
  let d := x.2
  let k := devSlot s n
  let bps := if k.depth10 then 2 else 1
  let z := planeSizes k.width k.height k.depth10
  let side := max 1 d.block
  let per := ceilDiv k.width side
  let found := damageOf s v k.refs input d (per * ceilDiv k.height side)
  let damage := found.2
  let hurt := !damage.isEmpty
  let runs (rows h : Nat) (d : Damage) := blockBytes (side * bps) rows per z.1 (k.width * bps) h d.first d.last
  let good := k.refs.reverse.find? fun p => p.good && p.depth10 == k.depth10 && p.width == k.width && p.height == k.height
  let mid := (List.range z.2.2).map (midByte k.depth10)
  let pic := damage.foldl (fun a d => concealRange v good k.depth10 (runs side k.height d) (runs (side / 2) (k.height / 2) d) a)
    (found.1, padTo z.2.1 (stored k.depth10 d.luma), if k.mono then mid else padTo z.2.2 (stored k.depth10 d.chroma), false)
  let y := pic.2.1
  let c := pic.2.2.1
  let reps := reportRanges damage
  let s := reps.foldl (fun s d => reportDamage s e n (field w.record 8 4) d) pic.1
  -- the references that the picture releases
  let s := (k.refs.filter fun q => d.release.contains q.order).foldl (fun s q => freePic s n q) s
  let s := updDev s n fun k => { k with refs := k.refs.filter fun q => !d.release.contains q.order,
                                        taint := if w.rap && d.shown && !hurt then false else k.taint || (hurt && d.keep) }
  let tainted := (devSlot s n).taint
  let a := match p.2 with
    | some q => if d.keep then writePlanes s v q y c else (s, MS.ok)
    | none => (s, MS.ok)
  let b := if a.2 ≠ MS.ok then a else writePlanes a.1 v p.1 y c
  if b.2 ≠ MS.ok then picLost b.1 e n p b.2
  else
    let mark (q : Pic) : Pic :=
      { q with damaged := hurt, concealed := hurt || tainted, grey := pic.2.2.2, good := !hurt, reports := reps.length, done := tbNs b.1, order := d.order,
               hidden := !d.shown }
    let s := match p.2 with
      | some q => if d.keep then updDev b.1 n fun k => { k with refs := k.refs ++ [mark q] } else freePic b.1 n q
      | none => b.1
    if d.shown || d.showable then updDev s n fun k => { k with wait := k.wait ++ [mark p.1] } else freePic s n p.1

/-- A picture decoded earlier is shown (R320, show_existing_frame): the output copy that waits for it, or, where that has left, a copy of its reference-store
planes in buffers of its own, whose granules keep their poison. DESIGN CHOICE: a picture that is no longer held gives no record; one whose buffers are
refused is dropped with cause POOL; one that reads other than OK and POISON is filled grey. -/
def showExisting (e n : Nat) (v : Via) (bs : List Byte) (s : State) (o : Nat) : State :=
  let k := devSlot s n
  match k.wait.find? fun p => p.hidden && decide (p.order = o) with
  | some p => updDev s n fun k => { k with out := k.out ++ [{ p with hidden := false, record := bs }], wait := k.wait.erase p }
  | none =>
    match k.refs.find? (·.order = o) with
    | none => s
    | some p =>
      let z := planeSizes p.width p.height p.depth10
      let a := allocPlanes s n z.2.1 z.2.2
      if a.2.1 ≠ QS.ok then devLose a.1 e n 3 (poolInfo a.2.1)
      else
        let q := a.2.2
        let y := mediaRead a.1 v p.aY z.2.1
        let c := mediaRead y.1 v p.aC z.2.2
        let lost := decide (1 < y.2.st) || decide (1 < c.2.st)
        let grey (m : Nat) := (List.range m).map (midByte p.depth10)
        let w := mediaWrite c.1 v q.aY (if lost then grey z.2.1 else y.2.data) (if lost then [] else y.2.bad)
        let w := if w.2 ≠ MS.ok then w else mediaWrite w.1 v q.aC (if lost then grey z.2.2 else c.2.data) (if lost then [] else c.2.bad)
        if w.2 ≠ MS.ok then picLost w.1 e n (q, none) w.2
        else
          let p := { p with hY := q.hY, hC := q.hC, aY := q.aY, aC := q.aC, record := bs, hidden := false, engine := e, done := tbNs w.1,
                            concealed := p.concealed || lost, grey := p.grey || lost, poison := !lost && !(y.2.bad.isEmpty && c.2.bad.isEmpty) }
          updDev w.1 n fun k => { k with out := k.out ++ [p] }

/-- The decoding of a frame is complete (R319, R320, R322, R329 to R333). -/
def devDecodeDone (engine : Nat) (out : Decoding) (us stallNs : Nat) (s : State) : State :=
  if !islandRuns s 27 then s else
  match nth s.dev.eng engine none with
  | none => s
  | some w =>
    let n := w.slot
    let k := devSlot s n
    let s := wake s 27
    let s := { s with dev := { s.dev with eng := updAt s.dev.eng engine fun _ => none } }
    let v := classVia 27 (slotClass s n)
    let input := mediaRead s v (field w.record 32 6) (field w.record 40 4)
    let s := bump (bump input.1 (R.DEV_ENG_BUSY engine) 31 0 us) (R.DEV_ENG_STALL engine) 31 0 stallNs
    let s := bump (bump s (R.DEV_ENG_FRAMES engine) 31 0 1) (R.DEV_ENG_PIXELS engine) 31 0 (k.width * k.height * out.pics.length / 256)
    let s := freeFrom s devVia n (field w.record 0 4)
    let s := (w.pics.zip out.pics).foldl (decodePic engine w v input.2) s
    let s := (w.pics.drop out.pics.length).foldl (fun s p =>
      let s := freePic s n p.1
      match p.2 with | some q => freePic s n q | none => s) s
    let s := updDev s n fun k => { k with st := if k.st = 3 then 3 else 1 }
    let s := out.existing.foldl (showExisting engine n v w.record) s
    let s := emitPics s n out.emit w.record
    if out.endSeq then emitPics s n (devSlot s n).wait.length w.record else s

/-- A decoded-picture record (R324) of a slot, which is tainted or not when it is made. -/
def pictureRecord (n : Nat) (taint : Bool) (p : Pic) : List Byte :=
  let inFlags := field p.record 6 2
  let flags := b2n (p.concealed || taint) + b2n p.damaged * 2 + b2n p.grey * 4 + b2n p.poison * 8 + b2n (bit inFlags 4) * 16 + b2n (bit inFlags 0) * 32
  padTo 64 (leBytes 4 p.hY ++ leBytes 4 p.hC ++ leBytes 1 n ++ leBytes 1 (if p.depth10 then 2 else 1) ++ leBytes 2 flags
    ++ leBytes 4 (field p.record 8 4) ++ leBytes 2 (field p.record 12 2) ++ leBytes 2 p.width ++ leBytes 2 p.height
    ++ leBytes 2 (planeSizes p.width p.height p.depth10).1 ++ leBytes 8 (field p.record 16 8) ++ leBytes 8 p.done
    ++ leBytes 8 p.aY ++ leBytes 8 p.aC ++ leBytes 1 p.engine ++ [0] ++ leBytes 2 p.reports)

/-- The record of the oldest emitted picture of a slot (R320, R323). -/
def devPictureOutput (slot : Nat) (s : State) : State :=
  if !islandRuns s 27 then s else
  match (devSlot s slot).out with
  | [] => s
  | p :: ps =>
    let q := rf s (R.DEV_SLOT_CFG 0 slot) 15 0
    let s := updDev (wake s 27) slot fun k => { k with out := ps }
    let r := pushFrom s devVia q (pictureRecord slot (devSlot s slot).taint p)
    if r.2 = HS.ok then bump r.1 (R.DEV_SLOT_COUNT 0 slot) 15 0 1
    else devLose (freePic r.1 slot p) p.engine slot 6 (q * 65536)

/-- The pictures of a slot that await output and are shown leave (R321): no input record came for 4 declared frame periods. -/
def devOutputFlush (slot : Nat) (s : State) : State :=
  if !islandRuns s 27 then s else
  emitPics (wake s 27) slot (devSlot s slot).wait.length (devSlot s slot).last

/-- A write of DEV_SLOT_CTRL[n].RESYNC (R335): the slot is in RESYNC until its frame in decode ends. -/
def devResync (s : State) (n : Nat) : State := updDev s n fun k => { k with st := 3 }

/-- The end of a resynchronisation (R335): nothing while a frame of the slot is in decode. The slot stays tainted until a clean random access point (R332). -/
def devResyncDone (slot : Nat) (s : State) : State :=
  if !islandRuns s 27 then s else
  let k := devSlot s slot
  if k.st ≠ 3 ∨ devBusy s slot then s
  else
    let s := (k.refs ++ k.wait).foldl (fun s p => freePic s slot p) (wake s 27)
    let s := updDev s slot fun k => { k with st := 0, refs := [], wait := [] }
    raise (wb s (R.DEV_SLOT_CTRL 0 slot) 0 false) (P.dev 0) 10

end Sys2Proof.Machine
end

