-- ==== Sys2Proof/Machine/Enlarger.lean ====
section
/-!
DEFINITION. Machine/Enlarger.lean: Enlarger's ROI lists, pixel pipeline, tiles and engine sharing; Easel's groups, lanes, batches and
audio tensors (11).
-/
namespace Sys2Proof.Machine
open Sys2Proof

/-! ROI entries (R338, R339, R345). -/

/-- A ROI entry as R338 lays it out. -/
structure Roi where
  x0 : Int
  y0 : Int
  sw : Nat
  sh : Nat
  dw : Nat
  dh : Nat
  filter : Nat
  layout : Nat
  type : Nat
  chans : Nat
  group : Nat
  offset : List Nat
  gain : List Nat
  mat : Nat
  clean : Bool
deriving DecidableEq, Repr

/-- The channels of a sample (K of R345). -/
def Roi.k (r : Roi) : Nat := if r.chans = 0 then 1 else 3

/-- Entry `i` of a list. -/
def roiOf (list : List Byte) (i : Nat) : Roi :=
  let b := (list.drop (64 + 32 * i)).take 32
  let a := field b 12 1
  let o := field b 13 1
  let offs := (List.range 3).map fun c => field b (16 + 2 * c) 2
  let k := if bits o 3 2 = 0 then 1 else 3
  { x0 := sx 16 (field b 0 2), y0 := sx 16 (field b 2 2), sw := field b 4 2, sh := field b 6 2, dw := field b 8 2, dh := field b 10 2,
    filter := a % 4, layout := bits a 3 2, type := o % 4, chans := bits o 3 2, group := field b 14 1, offset := offs,
    gain := (List.range 3).map fun c => field b (22 + 2 * c) 2, mat := field b 28 1,
    clean := decide (a / 16 = 0) && decide (o / 16 = 0) && decide (field b 15 1 = 0) && decide (field b 29 3 = 0)
      && decide (a % 4 ≠ 3) && decide (bits a 3 2 ≤ 1) && decide (o % 4 ≠ 3) && decide (field b 14 1 ≤ 63) && decide (field b 28 1 ≤ 3)
      && (offs.take k).all (· ≤ 1023) }

/-- An entry holds no reserved value and no non-zero reserved byte (R338). -/
def roiValues (r : Roi) : Bool :=
  r.clean && decide (1 ≤ r.sw) && decide (r.sw ≤ 4096) && decide (1 ≤ r.sh) && decide (r.sh ≤ 4096)
    && decide (1 ≤ r.dw) && decide (r.dw ≤ 1024) && decide (1 ≤ r.dh) && decide (r.dh ≤ 1024)

/-- Element size, row pitch and sample size (R345). -/
def roiSize (r : Roi) : Nat × Nat × Nat :=
  let e := if r.type = 2 then 2 else 1
  if r.layout = 0 then
    let p := alignUp (r.dw * (if r.k = 1 then 1 else 4) * e) 64
    (e, p, p * r.dh)
  else
    let p := alignUp (r.dw * e) 64
    (e, p, p * r.dh * r.k)

/-- Lanes of a group's batch. -/
def grpLanes (s : State) (g : Nat) : Nat := 4 * 2 ^ rf s (R.ESL_GRP_CFG g) 1 0

/-- SLOT of a group in bytes. -/
def grpSlot (s : State) (g : Nat) : Nat := 512 * rf s (R.ESL_GRP_CFG g) 20 12

/-- How the requests for a group's batches travel: with the class of its samples (R352). -/
def grpVia (s : State) (g : Nat) : Via := classVia 29 (rf s (R.ESL_GRP_CFG g) 9 8)

/-- Easel's requests to Quarry and Hod. -/
def eslVia : Via := engineVia 29

/-- The batch queue of a group. -/
def grpQueue (s : State) (g : Nat) : Nat := rf s (R.ESL_GRP_QUEUE g) 15 0

/-- The checks of R339 in order: the cause of the first that fails, or 0. `w` and `h` are the input's size, `p` and `c` the slot's
partition and class. -/
def roiCheck (s : State) (r : Roi) (w h p c : Nat) : Nat :=
  let sizes := decide (r.sw ≤ 16 * r.dw) && decide (r.dw ≤ 8 * r.sw) && decide (r.sh ≤ 16 * r.dh) && decide (r.dh ≤ 8 * r.sh)
    && (r.filter ≠ 2 || (decide (r.dw ≤ r.sw) && decide (r.dh ≤ r.sh)))
  let g := R.ESL_GRP_CFG r.group
  if !roiValues r || !sizes then 2
  else if r.x0 ≥ w ∨ r.y0 ≥ h ∨ r.x0 + r.sw ≤ 0 ∨ r.y0 + r.sh ≤ 0 then 3
  else if !rb s g 10 || !rb s g 11 || rb s g 3 || rf s g 6 4 ≠ p || rf s g 9 8 ≠ c then 4
  else if alignUp (roiSize r).2.2 512 ≠ grpSlot s r.group then 5
  else 0

/-! The pixel pipeline (R341 to R344). -/

/-- An input picture: its form (1 to 5 the raw formats of R287, 6 NV12, 7 P010), size, line pitch, addresses of its planes. -/
structure Img where
  form : Nat
  w : Nat
  h : Nat
  stride : Nat
  y : Nat
  c : Nat
deriving DecidableEq, Repr

/-- The picture that an input record describes (R292, R324). -/
def imgOf (decoded : Bool) (b : List Byte) : Img :=
  if decoded then
    { form := if field b 9 1 = 1 then 6 else 7, w := field b 18 2, h := field b 20 2, stride := field b 22 2,
      y := field b 40 8, c := field b 48 8 }
  else
    { form := field b 50 1, w := field b 44 2, h := field b 46 2, stride := field b 48 2, y := field b 32 6, c := 0 }

/-- Bytes per pixel of the picture's first plane. -/
def Img.bpp (i : Img) : Nat := match i.form with | 1 => 1 | 5 => 3 | 6 => 1 | _ => 2

/-- An integer held within a range. -/
def clampI (x lo hi : Int) : Int := if x < lo then lo else if x > hi then hi else x

/-- A number n ÷ d (d > 0) rounded to the nearest integer; a tie as the hardware takes it (R342, R343). -/
def nearest (n : Int) (d : Nat) : Int :=
  let q := n / (d : Int)
  let r := (n % (d : Int)).toNat
  if 2 * r > d ∨ (2 * r = d ∧ Config.pixelUp 2 r d) then q + 1 else q

/-- A code of 10 bits from n ÷ d. -/
def code10 (n : Int) (d : Nat) : Int := clampI (nearest n d) 0 1023

/-- n ÷ d on the grid of whole steps, taken down or up as the hardware does (R343). -/
def gridOf (stage n d : Nat) : Nat := n / d + b2n (decide (n % d ≠ 0) && Config.pixelUp stage (n % d) d)

/-- The sample of plane byte `a` of 8 bits, as a code (R341). -/
def code8 (s : State) (a : Nat) : Int := 4 * (memByte s a).toNat

/-- The 16-bit sample at `a`. -/
def word16 (s : State) (a : Nat) : Nat := (memByte s a).toNat + 256 * (memByte s (a + 1)).toNat

/-- The luma code of pixel (x, y) (R341). -/
def lumaCode (s : State) (i : Img) (x y : Nat) : Int :=
  match i.form with
  | 1 => code8 s (i.y + y * i.stride + x)
  | 2 => word16 s (i.y + y * i.stride + 2 * x) % 1024
  | 3 => min 1023 ((word16 s (i.y + y * i.stride + 2 * x) + 2) / 4)
  | 4 => code8 s (i.y + y * i.stride + 2 * x + 1)
  | 6 => code8 s (i.y + y * i.stride + x)
  | _ => word16 s (i.y + y * i.stride + 2 * x) / 64

/-- The chroma code `k` (0 U, 1 V) of chroma column `cx` of line `cy`, the nearest one at the frame edge. -/
def chromaAt (s : State) (i : Img) (k : Nat) (cx cy : Int) : Int :=
  let n := (i.w + 1) / 2
  let x := (clampI cx 0 (n - 1 : Nat)).toNat
  if i.form = 4 then code8 s (i.y + cy.toNat * i.stride + 4 * x + 2 * k)
  else
    let y := (clampI cy 0 ((i.h + 1) / 2 - 1 : Nat)).toNat
    if i.form = 6 then code8 s (i.c + y * i.stride + 2 * x + k) else word16 s (i.c + y * i.stride + 4 * x + 2 * k) / 64

/-- The chroma code of pixel (x, y): bilinear, left horizontal siting and, for 4:2:0, centred vertical siting (R342). -/
def chromaCode (s : State) (i : Img) (k x y : Nat) : Int :=
  let cx : Int := (x / 2 : Nat)
  let row (cy : Int) : Int := chromaAt s i k cx cy + chromaAt s i k (if x % 2 = 1 then cx + 1 else cx) cy
  if i.form = 4 then code10 (row y) 2
  else
    let cy : Int := (y / 2 : Nat)
    code10 (3 * row cy + row (if y % 2 = 1 then cy + 1 else cy - 1)) 8

/-- The luma coefficients Kr, Kb of a MATRIX in units of 1/10,000 (BT.601, BT.709). -/
def matK (mat : Nat) : Int × Int := if mat / 2 = 0 then (2990, 1140) else (2126, 722)

/-- n ÷ d in units of 2^-F, F the fractional bits of the hardware's conversions. -/
def coef (n : Int) (d : Nat) : Int := divRound 1 (n * 2 ^ (12 + Config.matrixBits)) d

/-- One conversion: the weighted sum of centred inputs and an offset in codes, clamped and rounded (R342). -/
def convert (off : Int) (terms : List (Int × Int)) : Int :=
  code10 (off * 2 ^ (12 + Config.matrixBits) + (terms.map fun t => t.1 * t.2).sum) (2 ^ (12 + Config.matrixBits))

/-- Red, green and blue codes from YUV codes through a MATRIX (R342). -/
def yuvToRgb (mat : Nat) (y u v : Int) : Int × Int × Int :=
  let k := matK mat
  let kg := 10000 - k.1 - k.2
  let full := mat % 2 = 1
  let yo : Int := if full then 0 else 64
  let yd : Nat := if full then 1023 else 876
  let cd : Nat := if full then 1023 else 896
  let a := coef 1023 yd
  let r := coef (2 * (10000 - k.1) * 1023) (10000 * cd)
  let b := coef (2 * (10000 - k.2) * 1023) (10000 * cd)
  let gu := coef (-(2 * k.2 * (10000 - k.2) * 1023)) (10000 * kg.toNat * cd)
  let gv := coef (-(2 * k.1 * (10000 - k.1) * 1023)) (10000 * kg.toNat * cd)
  let l := (a, y - yo)
  (convert 0 [l, (r, v - 512)], convert 0 [l, (gu, u - 512), (gv, v - 512)], convert 0 [l, (b, u - 512)])

/-- YUV codes from red, green and blue codes through a MATRIX. -/
def rgbToYuv (mat : Nat) (r g b : Int) : Int × Int × Int :=
  let k := matK mat
  let kg := 10000 - k.1 - k.2
  let full := mat % 2 = 1
  let yo : Int := if full then 0 else 64
  let yn : Int := if full then 1023 else 876
  let cn : Int := if full then 1023 else 896
  let row (m : Int) (d : Nat) (l : List (Int × Int)) : List (Int × Int) := l.map fun t => (coef (t.1 * m) (d * 1023), t.2)
  (convert yo (row yn 10000 [(k.1, r), (kg, g), (k.2, b)]),
   convert 512 (row cn (20000 - 2 * k.2).toNat [(-k.1, r), (-kg, g), (10000 - k.2, b)]),
   convert 512 (row cn (20000 - 2 * k.1).toNat [(10000 - k.1, r), (-kg, g), (-k.2, b)]))

/-- Channel `c` of pixel (x, y) as the output's CHANNELS names it (0 Y, 1 RGB, 2 BGR, 3 YUV), before filtering (R342). -/
def pixelCode (s : State) (i : Img) (r : Roi) (c x y : Nat) : Int :=
  let pick (t : Int × Int × Int) (j : Nat) : Int := if j = 0 then t.1 else if j = 1 then t.2.1 else t.2.2
  let rgbIx := if r.chans = 2 then 2 - c else c
  if i.form = 5 then
    let px3 (j : Nat) := code8 s (i.y + y * i.stride + 3 * x + j)
    let rgb := (px3 2, px3 1, px3 0)
    if r.chans = 1 ∨ r.chans = 2 then pick rgb rgbIx else pick (rgbToYuv r.mat rgb.1 rgb.2.1 rgb.2.2) c
  else
    let l := lumaCode s i x y
    if i.form ≤ 3 then (if r.chans = 3 ∧ c > 0 then 512 else l)
    else if r.chans = 0 then l
    else if r.chans = 3 then (if c = 0 then l else chromaCode s i (c - 1) x y)
    else pick (yuvToRgb r.mat l (chromaCode s i 0 x y) (chromaCode s i 1 x y)) rgbIx

/-- The pixel of the frame nearest to a source position. -/
def edgePixel (s : State) (i : Img) (r : Roi) (c : Nat) (x y : Int) : Int :=
  pixelCode s i r c (clampI x 0 (i.w - 1 : Nat)).toNat (clampI y 0 (i.h - 1 : Nat)).toNat

/-- The source position of output index `j` in 16.16 fixed point: o + (j + 0.5) × sw ÷ dw − 0.5 (R343). -/
def srcPos (o : Int) (sw dw j : Nat) : Int := o * 65536 + gridOf 0 ((2 * j + 1) * sw * 65536) (2 * dw) - 32768

/-- The source indexes that output index `j` of one axis reads, before the frame edge; `down` is the vertical axis, whose lines count downwards from the
top: a tie of NEAREST goes to the line below and to the pixel on the left. -/
def srcSpan (filter : Nat) (down : Bool) (o : Int) (sw dw j : Nat) : Int × Int :=
  match filter with
  | 0 => let p := (srcPos o sw dw j + 32767 + b2n down) / 65536; (p, p)
  | 1 => let p := srcPos o sw dw j / 65536; (p, p + 1)
  | _ => (o + (j * sw / dw : Nat), o + (ceilDiv ((j + 1) * sw) dw : Nat) - 1)

/-- The overlap of source index `k` (from the ROI's origin) with output index `j`, in units of 1 ÷ dw. -/
def overlap (sw dw j k : Nat) : Nat := min ((j + 1) * sw) ((k + 1) * dw) - max (j * sw) (k * dw)

/-- Channel `c` of output pixel (i, j): the filtered code (R343). -/
def filtered (s : State) (img : Img) (r : Roi) (c i j : Nat) : Int :=
  let px := srcSpan r.filter false r.x0 r.sw r.dw i
  let py := srcSpan r.filter true r.y0 r.sh r.dh j
  match r.filter with
  | 0 => edgePixel s img r c px.1 py.1
  | 1 =>
    let wx : Int := gridOf 1 ((srcPos r.x0 r.sw r.dw i) % 65536).toNat 256
    let wy : Int := gridOf 1 ((srcPos r.y0 r.sh r.dh j) % 65536).toNat 256
    let at_ := edgePixel s img r c
    code10 ((256 - wy) * ((256 - wx) * at_ px.1 py.1 + wx * at_ px.2 py.1)
      + wy * ((256 - wx) * at_ px.1 py.2 + wx * at_ px.2 py.2)) 65536
  | _ =>
    let xs := span (i * r.sw / r.dw) (px.2 + 1 - px.1).toNat
    let ys := span (j * r.sh / r.dh) (py.2 + 1 - py.1).toNat
    let ws := ys.flatMap fun y => xs.map fun x =>
      let w := gridOf 1 (overlap r.sw r.dw i x * overlap r.sh r.dh j y * 256) (r.dw * r.dh)
      ((w : Int), edgePixel s img r c (r.x0 + x) (r.y0 + y))
    code10 ((ws.map (fun (t : Int × Int) => t.1 * t.2)).sum) (max 1 ((ws.map (fun (t : Int × Int) => t.1)).sum).toNat)

/-- An output element from a code (R344): its bytes, and whether it saturated. -/
def element (r : Roi) (c : Nat) (v : Int) : List Byte × Bool :=
  let p := fmul (FVal.ofInt (v - nth r.offset c 0)) (fdec bf16 (nth r.gain c 0))
  if r.type = 2 then (leBytes 2 (fenc bf16 p), false)
  else
    let lo : Int := if r.type = 0 then 0 else -128
    let hi : Int := if r.type = 0 then 255 else 127
    match p with
    | .nan => ([0], false)
    | .inf neg => (leBytes 1 (unsx 8 (if neg then lo else hi)), true)
    | .fin neg m e =>
      let x := roundInt 0 neg m e
      (leBytes 1 (unsx 8 (clampI x lo hi)), decide (x ≠ clampI x lo hi))

/-- The bytes of output line `j` by channel plane (one plane for HWC) and the elements that saturated. -/
def lineBytes (s : State) (img : Img) (r : Roi) (j : Nat) : List (List Byte) × Nat :=
  let el (c i : Nat) := element r c (filtered s img r c i j)
  let cols := List.range r.dw
  if r.layout = 0 then
    let px := cols.map fun i => (List.range r.k).map fun c => el c i
    let pad := if r.k = 1 then [] else List.replicate (roiSize r).1 (0 : Byte)
    ([px.flatMap fun es => es.flatMap (·.1) ++ pad], (px.flatMap fun es => es.filter (·.2)).length)
  else
    let ps := (List.range r.k).map fun c => cols.map fun i => el c i
    (ps.map fun es => es.flatMap (·.1), (ps.flatMap fun es => es.filter (·.2)).length)

/-! Tiles (R347). -/

/-- The output lines of the tile that starts at `line`: the longest run of at most 64 whose source lines span at most 64, at
least one (R347). -/
def tileLines (r : Roi) (h line : Nat) : Nat :=
  let clampY (y : Int) : Int := clampI y 0 (h - 1 : Nat)
  let lo := clampY (srcSpan r.filter true r.y0 r.sh r.dh line).1
  let fits (n : Nat) : Bool := decide (clampY (srcSpan r.filter true r.y0 r.sh r.dh (line + n)).2 - lo + 1 ≤ 64)
  let n := ((List.range (min 64 (r.dh - line))).takeWhile fits).length
  max 1 n

/-- Source ranges (address, bytes) of the footprint of output lines [line, line + n). -/
def tileReads (img : Img) (r : Roi) (line n : Nat) : List (Nat × Nat) :=
  let cx (x : Int) : Nat := (clampI x 0 (img.w - 1 : Nat)).toNat
  let cy (y : Int) : Nat := (clampI y 0 (img.h - 1 : Nat)).toNat
  let x0 := cx (srcSpan r.filter false r.x0 r.sw r.dw 0).1
  let x1 := cx (srcSpan r.filter false r.x0 r.sw r.dw (r.dw - 1)).2
  let y0 := cy (srcSpan r.filter true r.y0 r.sh r.dh line).1
  let y1 := cy (srcSpan r.filter true r.y0 r.sh r.dh (line + n - 1)).2
  let b := img.bpp
  let pairs := img.form = 4 && r.chans ≠ 0
  let l0 := if pairs then x0 - x0 % 2 else x0
  let l1 := if pairs then min (img.w - 1) (x1 - x1 % 2 + 3) else x1
  let luma := (span y0 (y1 + 1 - y0)).map fun y => (img.y + y * img.stride + l0 * b, (l1 + 1 - l0) * b)
  if img.form < 6 ∨ r.chans = 0 then luma
  else
    let c0 := x0 / 2
    let c1 := min ((img.w + 1) / 2 - 1) (x1 / 2 + 1)
    luma ++ (span ((y0 - 1) / 2) (min ((img.h + 1) / 2 - 1) ((y1 + 1) / 2) + 1 - (y0 - 1) / 2)).map fun y =>
      (img.c + y * img.stride + 2 * b * c0, 2 * b * (c1 + 1 - c0))

/-! Easel (R355 to R364). -/

/-- A change set that waits affects a group (R368, R687): the ESL page is a member and the group's registers, or the audio registers of the audio
group, are staged. -/
def groupHeld (s : State) (g : Nat) : Bool :=
  decide (rf s R.SEAM_STATE 1 0 = 3) && rb s R.SEAM_MASK_LO 30
    && s.staged.any (fun e => decide (e.1 = R.ESL_GRP_CFG g) || decide (e.1 = R.ESL_GRP_QUEUE g)
      || ([R.ESL_AUDIO_BASE_LO, R.ESL_AUDIO_BASE_HI, R.ESL_AUDIO_CFG].contains e.1
          && (decide (rf s R.ESL_AUDIO_CFG 5 0 = g) || decide (sf s R.ESL_AUDIO_CFG 5 0 = g))))

/-- Condition 1 of R340: the occupancy of the batch queue and the group's batches are below C. -/
def groupRoom (s : State) (g : Nat) : Bool :=
  let c := peekCtx s (grpQueue s g)
  decide (ctxDepth c + ctxResv c + (s.esl.batches.filter (·.group = g)).length < ctxCap c)

/-- The batch of a group that takes lanes: not closed, with an unassigned lane. -/
def openBatch (s : State) (g : Nat) : Option Batch :=
  s.esl.batches.find? fun b => b.group = g && !b.closed && !b.written && b.lanes.any (!·.assigned)

/-- `s` with the batch `id` changed. -/
def updBatch (s : State) (id : Nat) (f : Batch → Batch) : State :=
  { s with esl := { s.esl with batches := s.esl.batches.map fun b => if b.id = id then f b else b } }

/-- Lanes are assigned in an open batch: the next lane, or pair in a paired group (R356). -/
def assignLanes (s : State) (b : Batch) : State × Nat × List Nat :=
  let l := (firstIdx b.lanes.length fun i => !(nth b.lanes i {}).assigned).getD 0
  let ls := if b.paired then [l, l + 1] else [l]
  (updBatch s b.id fun b => { b with lanes := ls.foldl (fun ls i => updAt ls i fun k => { k with assigned := true }) b.lanes }, b.id, ls)

/-- A lane request of group `g` under an identity (R355): batch and lanes; or why it is refused: 1 QUEUE, 2 POOL. -/
def laneRequest (s : State) (g ident : Nat) : State × (Nat ⊕ (Nat × List Nat)) :=
  match openBatch s g with
  | some b => let r := assignLanes s b; (r.1, .inr r.2)
  | none =>
    let refuse (s : State) (why info : Nat) : State :=
      let s := if why = 1 then bump s R.ESL_REFUSED 31 16 1 else bump s R.ESL_REFUSED 15 0 1
      raise (hwFault s P.esl (3 - why) (g + info)) P.esl 8
    if !groupRoom s g then (refuse s 1 (grpQueue s g * 65536), .inl 1)
    else
      let a := allocFrom s eslVia ident (512 + grpLanes s g * grpSlot s g)
      if a.2.st ≠ QS.ok then (refuse a.1 2 (a.2.st * 256), .inl 2)
      else
        let b : Batch := {
          id := a.1.esl.nextId, group := g, ident := ident, handle := a.2.handle, addr := a.2.addr,
          slot := grpSlot s g, paired := rb s (R.ESL_GRP_CFG g) 2, lanes := List.replicate (grpLanes s g) {},
          tOpen := tbNs s, epoch := rf s (hdr P.esl 0x18) 15 0 }
        let s := { a.1 with esl := { a.1.esl with batches := a.1.esl.batches ++ [b], nextId := a.1.esl.nextId + 1 } }
        let r := assignLanes s b
        (r.1, .inr r.2)

/-- The lanes of a batch are reported complete, or failed (R353, R354). -/
def lanesDone (s : State) (id : Nat) (ls : List Nat) (ok : Bool) (tag ts flags : Nat) : State :=
  updBatch s id fun b => { b with lanes := ls.zipIdx.foldl (fun k e =>
    updAt k e.1 fun _ => { assigned := true, done := true, ok := ok, tag := tag, ts := ts, flags := flags + e.2 * 32 }) b.lanes }

/-- The address of lane `l` of a batch. -/
def Batch.lane (b : Batch) (l : Nat) : Nat := b.addr + 512 + l * b.slot

/-- All lanes of a batch are complete; a lane that failed is not. -/
def Batch.full (b : Batch) : Bool := b.lanes.all fun l => l.done && l.ok

/-- A batch is full, or closed with every assigned lane complete or failed (R359). -/
def Batch.ready (b : Batch) : Bool :=
  !b.written && (b.full || (b.closed && b.lanes.all fun l => !l.assigned || l.done))

/-- The batch leaves Easel. -/
def dropBatch (s : State) (id : Nat) : State :=
  { s with esl := { s.esl with batches := s.esl.batches.filter (·.id ≠ id) } }

/-- The release of a batch fails (R364): its buffer is freed and it is lost. -/
def releaseFailed (s : State) (b : Batch) (st : Nat) : State :=
  let s := freeFrom (dropBatch s b.id) eslVia b.ident b.handle
  raise (hwFault s P.esl 3 (b.group + st * 256)) P.esl 9

/-- The oldest batch of a group that is neither closed nor full. -/
def fillingBatch (s : State) (g : Nat) : Option Batch :=
  s.esl.batches.find? fun b => b.group = g && !b.closed && !b.written && !b.full

/-- FILL_TIMER (R359): FILL_US have passed since the oldest batch of a group opened that is neither closed nor full. -/
def execFillTimer (group : Nat) (s : State) : Host.Outcome State Fault Refusal :=
  if !islandRuns s 29 then .next s else
  match fillingBatch s group with
  | none => .next s
  | some b => .next (updBatch (wake s 29) b.id fun b => { b with closed := true })

/-- A padding lane is written (R359): zero, or in a paired group a copy of the lane of the highest real pair. -/
def padLane (s : State) (b : Batch) (src : Option Nat) (l : Nat) : State × Nat :=
  match src with
  | none => mediaWrite s (grpVia s b.group) (b.lane l) (List.replicate b.slot 0) []
  | some r =>
    let g := mediaRead s (grpVia s b.group) (b.lane (r + l % 2)) b.slot
    if g.2.st > 1 then (g.1, g.2.st) else mediaWrite g.1 (grpVia s b.group) (b.lane l) g.2.data g.2.bad

/-- The header of a batch (R357, R358). -/
def batchHeader (b : Batch) : List Byte :=
  let n := b.lanes.length
  let tag (l : Lane) : Nat := if l.ok then l.tag else 2 ^ 64 - 1
  let flag (l : Lane) : Nat := if l.ok then 1 + l.flags else if b.paired then 0x22 else 2
  let pad (k : Nat) (bs : List Byte) := padTo (16 * k) bs
  padTo 512 (pad 8 (b.lanes.flatMap fun l => leBytes 8 (tag l))
    ++ pad 8 (b.lanes.flatMap fun l => leBytes 8 (if l.ok then l.ts else 0))
    ++ pad 1 (b.lanes.flatMap fun l => leBytes 1 (flag l))) |>.take (if n = 0 then 0 else 512)

/-- The batch record (R362). -/
def batchRecord (s : State) (b : Batch) : List Byte :=
  let n := b.lanes.length
  let mask (p : Lane → Bool) : Nat := ((List.range n).filter fun i => p (nth b.lanes i {})).foldl (fun m i => m + 2 ^ i) 0
  let real := (b.lanes.filter (·.ok)).length
  let any (i : Nat) : Nat := b2n (b.lanes.any fun l => l.ok && bit l.flags i)
  padTo 64 (leBytes 4 b.handle ++ leBytes 1 b.group ++ leBytes 1 n ++ leBytes 1 (if b.paired then real / 2 else real)
    ++ leBytes 1 (b2n b.paired + 2 * b2n b.closed + 4 * any 2 + 8 * any 3) ++ leBytes 2 (mask (·.ok)) ++ leBytes 2 (mask (!·.ok))
    ++ leBytes 2 b.epoch ++ [0, 0] ++ leBytes 8 b.tOpen ++ leBytes 8 (tbNs s) ++ leBytes 8 b.addr ++ leBytes 4 b.slot
    ++ leBytes 4 (rf s (R.ESL_GRP_SEQ b.group) 31 0))

/-- The oldest full or closed batch of a group is released (R358 to R362, R364), behind a batch of the group whose trigger is still due, since TAIL advances
with that one (R361). DESIGN CHOICE: header, padding and record travel with the group's class. -/
def eslBatchRelease (group : Nat) (s : State) : State :=
  if !islandRuns s 29 then s else
  match if s.esl.batches.any fun b => b.group = group && b.written then none else s.esl.batches.find? fun b => b.group = group && b.ready with
  | none => s
  | some b =>
    let s := wake s 29
    let ix := (List.range b.lanes.length).filter fun i => (nth b.lanes i {}).ok
    let q := grpQueue s group
    let c := peekCtx s q
    if ix.isEmpty then (bump (freeFrom (dropBatch s b.id) eslVia b.ident b.handle) R.ESL_EMPTY 31 0 1)
    else if !ctxEn c ∨ ctxState c ≠ 1 then (releaseFailed s b (if ctxState c = 2 then HS.detached else HS.disabled))
    else
      let pads := (List.range b.lanes.length).filter fun i => !(nth b.lanes i {}).ok
      let src := if b.paired then (ix.getLast?).map fun i => i - i % 2 else none
      let p := pads.foldl (fun (a : State × Nat) l => if a.2 ≠ MS.ok then a else padLane a.1 b src l) (s, MS.ok)
      let p := if p.2 ≠ MS.ok then p else mediaWrite p.1 (grpVia s group) b.addr (batchHeader b) []
      let p := if p.2 ≠ MS.ok then p else
        mediaWrite p.1 (grpVia s group) (ringAddr c (SMap.getD s.esl.tail group 0)) (batchRecord p.1 b) []
      if p.2 ≠ MS.ok then (releaseFailed p.1 b HS.detached)
      else
        let s := bump p.1 R.ESL_PADDED 31 0 pads.length
        let s := setReg s (R.ESL_GRP_SEQ group) (rd s (R.ESL_GRP_SEQ group) + 1)
        (updBatch s b.id fun b => { b with written := true })

/-- The trigger (R361, R364): the trigger push of the oldest batch of the group whose record is written. -/
def eslBatchTrigger (group cycles : Nat) (s : State) : State :=
  if !islandRuns s 29 then s else
  match s.esl.batches.find? fun b => b.group = group && b.written with
  | none => s
  | some b =>
    let q := grpQueue s group
    let r := triggerFrom (wake s 29) eslVia q 1 cycles
    if r.2 ≠ HS.ok then (releaseFailed r.1 b r.2)
    else
      let s := bump (dropBatch r.1 b.id) R.ESL_BATCHES 31 0 1
      { s with esl := { s.esl with
        tail := SMap.put s.esl.tail group ((SMap.getD s.esl.tail group 0 + 1) % ctxCap (peekCtx s q)) 0 } }

/-! Engines (R336 to R340, R346 to R354). -/

/-- A slot is of class `c`, or the class of a slot. -/
def enlClass (s : State) (n : Nat) : Nat := rf s (R.ENL_SLOT_CFG 0 n) 19 18

/-- The partition of a slot. -/
def enlPart (s : State) (n : Nat) : Nat := rf s (R.ENL_SLOT_CFG 0 n) 22 20

/-- The frames in progress: on engines, and yielded. -/
def enlFrames (s : State) : List EnlFrame := s.enl.eng.filterMap id ++ s.enl.parked

/-- The address of list `sel` of a slot (R337). -/
def listAddr (s : State) (n sel : Nat) : Nat :=
  rf s (R.ENL_SLOT_LIST_LO 0 n) 31 12 * 0x1000 + rf s (R.ENL_SLOT_LIST_HI 0 n) 15 0 * 2 ^ 32 + 4096 * sel

/-- Condition 1 of R340 for the list that SELECT names now: every valid group that an entry names has room. -/
def enlRoom (s : State) (n : Nat) : Bool :=
  let a := listAddr s n (rf s (R.ENL_SLOT_CTRL 0 n) 0 0)
  let m := buffered s
  (List.range (min 64 (memByte m a).toNat)).all fun i =>
    let g := (memByte m (a + 64 + 32 * i + 14)).toNat
    g > 63 || !rb s (R.ESL_GRP_CFG g) 10 || groupRoom s g

/-- The cost of a frame in pJ (R583): over the entries of the list, source pixels and output pixels, twice for a paired group. -/
def listCost (s : State) (list : List Byte) : Nat :=
  s.plb.enlPj * (((List.range (min 64 (field list 0 1))).map fun i =>
    let r := roiOf list i
    r.sw * r.sh + r.dw * r.dh * (if rb s (R.ESL_GRP_CFG (r.group % 64)) 2 then 2 else 1)).sum)

/-- The cost of the next frame of a slot, by the list that SELECT names now. -/
def enlCost (s : State) (n : Nat) : Nat :=
  let a := listAddr s n (rf s (R.ENL_SLOT_CTRL 0 n) 0 0)
  let m := buffered s
  listCost s (memBytes m a (64 + 32 * min 64 (memByte m a).toNat))

/-- A slot waits for an engine: a new frame of it may start, or its frame yielded (R346, R348). -/
def enlWaits (s : State) (n : Nat) : Bool :=
  s.enl.parked.any (·.slot = n)
  || (rb s (R.ENL_SLOT_CFG 0 n) 16 && rb s (R.ENL_SLOT_LIST_HI 0 n) 16 && !(enlFrames s).any (·.slot = n)
      && decide (ctxDepth (peekCtx s (rf s (R.ENL_SLOT_CFG 0 n) 15 0)) ≥ 1) && enlRoom s n && mediaOk s (enlPart s n) (enlClass s n) 9 (enlCost s n))

/-- The slot that an engine chooses (R346): class, partition and slot. -/
def enlChoose (s : State) : Option (Nat × Nat × Nat) :=
  let slots := (List.range 36).filter (enlWaits s)
  (List.range 4).findSome? fun c =>
    let cs := slots.filter fun n => enlClass s n = c
    match nextRound ((List.range 8).filter fun p => cs.any fun n => enlPart s n = p) (s.enl.rrPart.get c) with
    | none => none
    | some p =>
      match nextRound (cs.filter fun n => enlPart s n = p) (s.enl.rrSlot.get (8 * c + p)) with
      | none => none
      | some n => some (c, p, n)

/-- `s` with the frame of an engine. -/
def setEng (s : State) (e : Nat) (f : Option EnlFrame) : State :=
  { s with enl := { s.enl with eng := updAt s.enl.eng e fun _ => f } }

/-- FAULT_INFO of the ENL causes: slot, entry, and the rest. -/
def enlInfo (n i rest : Nat) : Nat := n + i * 256 + rest

/-- Enlarger's requests to Quarry and Hod. -/
def enlVia : Via := engineVia 28

/-- The buffers of an input record are freed: one, or both planes of a decoded picture (R353). -/
def freeInput (s : State) (n : Nat) (rec_ : List Byte) : State :=
  let s := freeFrom s enlVia n (field rec_ 0 4)
  if rb s (R.ENL_SLOT_CFG 0 n) 17 then freeFrom s enlVia n (field rec_ 4 4) else s

/-- How the requests of an engine at work of a slot travel (R352). -/
def slotVia (s : State) (n : Nat) : Via := classVia 28 (enlClass s n)

/-- A frame is dropped (R340). -/
def enlDrop (s : State) (e n : Nat) (rec_ : List Byte) (cause info : Nat) : State :=
  let s := bump (freeInput s n rec_) (R.ENL_SLOT_COUNT 0 n) 31 22 1
  raise (hwFault s (P.enl e) cause info) (P.enl e) 9

/-- A frame whose record is poisoned is dropped. DESIGN CHOICE: no field of the record is used (R90), and its buffers stay allocated. -/
def enlLose (s : State) (e n q : Nat) : State :=
  raise (hwFault (bump s (R.ENL_SLOT_COUNT 0 n) 31 22 1) (P.enl e) 1 (n + q * 65536)) (P.enl e) 9

/-- The frame of an engine ends when no ROI is left (R353): the input is freed and FRAMES counts. -/
def frameEnd (s : State) (e : Nat) : State :=
  match nth s.enl.eng e none with
  | some f => if f.roi.isNone && f.todo.isEmpty then
      setEng (bump (freeInput s f.slot f.record) (R.ENL_SLOT_COUNT 0 f.slot) 11 0 1) e none else s
  | none => s

/-- Condition 2 of R340: slot, valid handles and format. -/
def inputOk (s : State) (n : Nat) (b : List Byte) : Bool :=
  if rb s (R.ENL_SLOT_CFG 0 n) 17 then
    decide (field b 8 1 = n) && handleLive s (field b 0 4) && handleLive s (field b 4 4)
      && (decide (field b 9 1 = 1) || decide (field b 9 1 = 2))
  else
    decide (field b 4 1 = n) && handleLive s (field b 0 4)
      && match slotSource s n with
         | some k => decide (field b 50 1 = (declOf s k).format)
         | none => false

/-- The entries of a latched list are checked in order (R339): each that fails is skipped; the entries that remain. -/
def latchList (s : State) (e n : Nat) (rec_ list : List Byte) : State × List Nat :=
  let i := imgOf (rb s (R.ENL_SLOT_CFG 0 n) 17) rec_
  (List.range (field list 0 1)).foldl (fun (a : State × List Nat) k =>
    let r := roiOf list k
    let c := roiCheck a.1 r i.w i.h (enlPart s n) (enlClass s n)
    if c = 0 then (a.1, a.2 ++ [k])
    else
      let s := bump a.1 (R.ENL_SLOT_COUNT 0 n) 21 12 1
      (raise (hwFault s (P.enl e) c (enlInfo n k (if c ≥ 4 then r.group * 65536 else 0))) (P.enl e) 8, a.2)) (s, [])

/-- The ROI list `sel` of a slot is read (R338): its header, the number of its entries, the entries. -/
def readList (s : State) (n sel : Nat) : State × Got × Got :=
  let h := mediaRead s (slotVia s n) (listAddr s n sel) 64
  let l := mediaRead h.1 (slotVia s n) (listAddr s n sel + 64) (32 * field h.2.data 0 1)
  if field h.2.data 0 1 = 0 then (h.1, h.2, { st := MS.ok, data := [] }) else (l.1, h.2, l.2)

/-- A list as read breaks R338. -/
def listBad (h l : Got) : Bool :=
  decide (h.st ≠ MS.ok) || decide (field h.data 0 1 > 64) || (h.data.drop 1).any (· ≠ 0) || decide (l.st ≠ MS.ok)

/-- An engine starts on a frame whose record it took: the list is latched, or the frame dropped. -/
def startFrame (s : State) (engine n c : Nat) (b : List Byte) : State :=
  let sel := rf s (R.ENL_SLOT_CTRL 0 n) 0 0
  let r := readList s n sel
  if listBad r.2.1 r.2.2 then enlDrop r.1 engine n b 9 n
  else
    let list := r.2.1.data ++ r.2.2.data
    let t := latchList (mediaDebit r.1 c 9 (listCost r.1 list)) engine n b list
    frameEnd (setEng t.1 engine (some { slot := n, record := b, list := list, sel := sel, todo := t.2 })) engine

/-- The engine that chooses next: the lowest-numbered of those that are idle, enabled and not quiesced. DEDUCED (R346 says it of engines that become idle in
one cycle): the others find no frame that it has left. -/
def enlIdle (s : State) : Option Nat := (List.range 4).find? fun e => accepts s (P.enl e) && (nth s.enl.eng e none).isNone

/-- An idle engine takes the next frame, or a frame that yielded (R336 to R340, R346); `meet` is what reaches the input queue in the cycle of the pop. -/
def enlEngineSelect (engine : Nat) (meet : HodMeet) (s : State) : State :=
  if enlIdle s ≠ some engine then s
  else
    match enlChoose s with
    | none => s
    | some (c, p, n) =>
      let s := wake s 28
      let s := { s with enl := { s.enl with rrPart := SMap.set s.enl.rrPart c p, rrSlot := SMap.set s.enl.rrSlot (8 * c + p) n } }
      match s.enl.parked.find? (·.slot = n) with
      | some f =>
        (setEng { s with enl := { s.enl with parked := s.enl.parked.filter (·.slot ≠ n) } } engine (some f))
      | none =>
        let q := rf s (R.ENL_SLOT_CFG 0 n) 15 0
        let r := popFrom s enlVia 1 q meet
        let b := r.2.2.data
        if r.2.1 ≠ HS.ok ∧ r.2.1 ≠ HS.poison then r.1
        else if r.2.1 = HS.poison then (enlLose r.1 engine n q)
        else if !inputOk r.1 n b then (enlDrop r.1 engine n b 1 (n + q * 65536))
        else (startFrame r.1 engine n c b)

/-- ESL_LANE_REQUEST (R355, R356, R368): the engine starts its next ROI and requests lanes of the ROI's group. -/
def execEslLaneRequest (engine : Nat) (s : State) : Host.Outcome State Fault Refusal :=
  if !islandRuns s 28 then .next s else
  match nth s.enl.eng engine none with
  | none => .next s
  | some f =>
    match f.roi, f.todo with
    | none, i :: rest =>
      let r := roiOf f.list i
      if !accepts s P.esl ∨ groupHeld s r.group then .next s
      else
        let t := laneRequest (wake (wake s 28) 29) r.group f.slot
        match t.2 with
        | .inr (id, ls) => .next (setEng t.1 engine (some { f with todo := rest, roi := some { entry := i, batch := id, lanes := ls } }))
        | .inl why =>
          let s := bump (setEng t.1 engine (some { f with todo := rest })) (R.ENL_SLOT_COUNT 0 f.slot) 21 12 1
          let s := hwFault s (P.enl engine) 6 (enlInfo f.slot i (r.group * 65536 + why * 2 ^ 24))
          .next (frameEnd (raise s (P.enl engine) 8) engine)
    | _, _ => .next s

/-- A sample is abandoned (R354): its lanes fail and the ROI ends. -/
def abandon (s : State) (e : Nat) (f : EnlFrame) (r : EnlRoi) (cause st : Nat) : State :=
  let s := lanesDone s r.batch r.lanes false 0 0 0
  let s := raise (hwFault s (P.enl e) cause (enlInfo f.slot r.entry (st * 65536))) (P.enl e) 8
  frameEnd (setEng s e (some { f with roi := none })) e

/-- The writes of output line `j` to one lane (R345). -/
def writeLine (s : State) (v : Via) (r : Roi) (base j : Nat) (planes : List (List Byte)) : State × Nat :=
  let z := roiSize r
  planes.zipIdx.foldl (fun (a : State × Nat) pl =>
    if a.2 ≠ MS.ok then a else mediaWrite a.1 v (base + pl.2 * z.2.1 * r.dh + j * z.2.1) (padTo z.2.1 pl.1) []) (s, MS.ok)

/-- The engine yields at a tile end (R348): a frame of a higher class waits and no engine that may choose is idle. -/
def enlYields (s : State) (f : EnlFrame) : Bool :=
  (List.range 4).all (fun e => (nth s.enl.eng e none).isSome || !accepts s (P.enl e))
    && (List.range 36).any fun n => decide (enlClass s n < enlClass s f.slot) && enlWaits s n

/-- The engine ends a tile of its ROI; `us` and `stallNs` are the busy time and the latency beyond
1 µs that the tile took (R341 to R348, R354). -/
def enlTileEnd (engine us stallNs : Nat) (s : State) : State :=
  if !islandRuns s 28 then s else
  match nth s.enl.eng engine none with
  | none => s
  | some f =>
    match f.roi, s.esl.batches.find? (fun b => some b.id = f.roi.map (·.batch)) with
    | some r, some b =>
      let roi := roiOf f.list r.entry
      if r.line ≥ roi.dh then s
      else
        let s := wake s 28
        let img := imgOf (rb s (R.ENL_SLOT_CFG 0 f.slot) 17) f.record
        let n := tileLines roi img.h r.line
        let g := (tileReads img roi r.line n).foldl (fun (a : State × Nat) x =>
          if a.2 > 1 then a else let q := mediaRead a.1 (slotVia s f.slot) x.1 x.2; (q.1, max a.2 q.2.st)) (s, MS.ok)
        let s := bump (bump (bump g.1 (R.ENL_ENG_TILES engine) 31 0 1) (R.ENL_ENG_BUSY engine) 31 0 us) (R.ENL_ENG_STALL engine) 31 0 stallNs
        if g.2 > 1 then (abandon s engine f r 7 g.2)
        else
          let m := buffered s
          let out := (span r.line n).map fun j => (j, lineBytes m img roi j)
          let w := r.lanes.foldl (fun (a : State × Nat) l => out.foldl (fun (a : State × Nat) o =>
            if a.2 ≠ MS.ok then a else writeLine a.1 (slotVia s f.slot) roi (b.lane l) o.1 o.2.1) a) (s, MS.ok)
          let s := bump w.1 (R.ENL_SAT engine) 31 0 ((out.map (·.2.2)).sum)
          if w.2 ≠ MS.ok then (abandon s engine f r 8 w.2)
          else
            let f := { f with roi := some { r with line := r.line + n, poison := r.poison || decide (g.2 = 1) } }
            if enlYields s f then
              let s := bump (setEng s engine none) (R.ENL_ENG_PREEMPT engine) 31 0 1
              { s with enl := { s.enl with parked := s.enl.parked ++ [f] } }
            else (setEng s engine (some f))
    | _, _ => s

/-- The sample tag of a ROI (R357). -/
def sampleTag (decoded : Bool) (b : List Byte) (entry slot : Nat) : Nat :=
  (if decoded then field b 12 4 + field b 16 2 * 2 ^ 32 else field b 8 4 + field b 12 2 * 2 ^ 32) + entry * 2 ^ 48 + slot * 2 ^ 54

/-- The lane flags that the input record gives (R354): CONCEALED of a decoded picture, POISON and UNSYNCED of either kind. -/
def inputFlags (decoded : Bool) (b : List Byte) : Nat :=
  if decoded then
    let x := field b 10 2
    4 * b2n (bit x 0) + 8 * b2n (bit x 3) + 16 * b2n (bit x 4)
  else
    let x := field b 6 2
    8 * b2n (bit x 2) + 16 * b2n (bit x 4)

/-- Every tile of the ROI is done and acknowledged (R353, R354, R359). -/
def enlSampleComplete (engine : Nat) (s : State) : State :=
  if !islandRuns s 28 then s else
  match nth s.enl.eng engine none with
  | none => s
  | some f =>
    match f.roi, s.esl.batches.find? (fun b => some b.id = f.roi.map (·.batch)) with
    | some r, some b =>
      let roi := roiOf f.list r.entry
      if r.line < roi.dh then s
      else
        let s := wake (wake s 28) 29
        let dec := rb s (R.ENL_SLOT_CFG 0 f.slot) 17
        let size := (roiSize roi).2.2
        let w := r.lanes.foldl (fun (a : State × Nat) l =>
          if a.2 ≠ MS.ok ∨ b.slot = size then a
          else mediaWrite a.1 (slotVia s f.slot) (b.lane l + size) (List.replicate (b.slot - size) 0) []) (s, MS.ok)
        if w.2 ≠ MS.ok then (abandon w.1 engine f r 8 w.2)
        else
          let s := if r.poison then
              r.lanes.foldl (fun s l => poisonRange s (b.lane l) b.slot) w.1 else w.1
          let fl := inputFlags dec f.record
          let fl := if r.poison && !bit fl 3 then fl + 8 else fl
          let ts := if dec then field f.record 24 8 else field f.record 16 8
          let s := lanesDone s r.batch r.lanes true (sampleTag dec f.record r.entry f.slot) ts fl
          (frameEnd (setEng s engine (some { f with roi := none })) engine)
    | _, _ => s

/-! Audio tensors (R365 to R367). -/

/-- The address of a block of `n` bytes in the history ring (R365): block `k`, counted from 0. -/
def historyAddr (s : State) (k n : Nat) : Nat :=
  rf s R.ESL_AUDIO_BASE_LO 31 6 * 64 + rf s R.ESL_AUDIO_BASE_HI 15 0 * 2 ^ 32 + k % rf s R.ESL_AUDIO_CFG 31 24 * n

/-- A microphone block is written at its place in the history ring (R365). DESIGN CHOICE: the microphones do not wait for a DRAM subchannel: the write waits
at its stop. -/
def historyWrite (s : State) (k : Nat) (bs : List Byte) : State × Nat :=
  patientRange s (engineVia 38) (historyAddr s k bs.length) bs []

/-- A block whose writes are done passes to Easel (R365, R651): its timestamp is kept, one that failed is marked, and the window of HOP new blocks
becomes due. NEWEST is the index of the newest block. -/
def historyPass (s : State) (ts : Nat) (failed : Bool) : State :=
  let c := R.ESL_AUDIO_CFG
  let n := s.esl.blocks
  let ring := rf s c 31 24
  let s := setReg s R.ESL_AUDIO_POS (BitVec.ofNat 32 n)
  let win := rf s c 15 8
  let hop := rf s c 23 16
  let isDue := decide (n + 1 ≥ win) && decide ((n + 1 - win) % hop = 0)
  let gone := s.esl.absent.filter (· + ring > n)
  { s with esl := { s.esl with blocks := n + 1, blockTs := SMap.set (s.esl.blockTs.filter fun e => e.1 + ring > n) n ts,
                               due := if isDue then s.esl.due ++ [n] else s.esl.due,
                               absent := if failed then NSet.add gone n else gone } }

/-- The block size changed (R367): every block of the ring is absent. -/
def historyRestart (s : State) : State := { s with esl := { s.esl with blocks := 0, blockTs := [], due := [], absent := [] } }

/-- The blocks `ks` of the audio history are read in order, up to the first that is refused. -/
def readBlocks (s : State) (v : Via) (ks : List Nat) (at_ : Nat → Nat) (size : Nat) : State × Got :=
  ks.foldl (fun (a : State × Got) k =>
    if a.2.st > 1 then a
    else
      let q := mediaRead a.1 v (at_ k) size
      (q.1, { st := max a.2.st q.2.st, data := a.2.data ++ q.2.data,
              bad := a.2.bad ++ q.2.bad.map fun x => (x.1 + a.2.data.length, x.2) })) (s, { st := MS.ok, data := [] })

/-- The lanes of a batch are written with a sample, up to the first that is refused. -/
def writeLanes (s : State) (v : Via) (b : Batch) (ls : List Nat) (data : List Byte) (bad : List (Nat × Nat)) : State × Nat :=
  ls.foldl (fun (a : State × Nat) l => if a.2 ≠ MS.ok then a else mediaWrite a.1 v (b.lane l) (padTo b.slot data) bad) (s, MS.ok)

/-- The window that ends with block `n` fills the lanes of its batch (R365). -/
def fillWindow (s : State) (g n id : Nat) (ls : List Nat) : State :=
  let c := R.ESL_AUDIO_CFG
  let win := rf s c 15 8
  let size := rf s R.ESL_AUDIO_BLOCK 15 0
  let base := rf s R.ESL_AUDIO_BASE_LO 31 6 * 64 + rf s R.ESL_AUDIO_BASE_HI 15 0 * 2 ^ 32
  match s.esl.batches.find? (·.id = id) with
  | none => s
  | some b =>
    let r := readBlocks s (grpVia s g) (span (n + 1 - win) win) (fun k => base + k % rf s c 31 24 * size) size
    if r.2.st > 1 then lanesDone r.1 id ls false 0 0 0
    else
      let w := writeLanes r.1 (grpVia s g) b ls r.2.data r.2.bad
      let tag := n % 2 ^ 32 + rf s (hdr P.esl 0x18) 15 0 * 2 ^ 32 + 0x3F * 2 ^ 54
      lanesDone w.1 id ls (decide (w.2 = MS.ok)) tag (SMap.getD s.esl.blockTs (n + 1 - win) 0) (8 * b2n (decide (r.2.st = 1)))

/-- The oldest window due takes a lane of the audio group and is copied into it (R355, R357, R365 to R367). DESIGN CHOICE: one that comes due while the
group accepts no lanes (EN 0) is passed over. -/
def eslAudioWindow (s : State) : State :=
  let c := R.ESL_AUDIO_CFG
  let g := rf s c 5 0
  match s.esl.due with
  | [] => s
  | n :: rest =>
    if !accepts s P.esl ∨ groupHeld s g then s
    else if !(rb s (R.ESL_GRP_CFG g) 10 && rb s (R.ESL_GRP_CFG g) 11) then { s with esl := { s.esl with due := rest } }
    else
      let win := rf s c 15 8
      let ring := rf s c 31 24
      let s := { s with esl := { s.esl with due := rest } }
      let t := laneRequest (wake s 29) g 44
      match t.2 with
      | .inl _ => t.1
      | .inr (id, ls) =>
        let s := t.1
        let first := n + 1 - win
        let written := s.esl.blocks + s.aud.handoff.length
        if written > first + ring then
          (raise (hwFault (lanesDone s id ls false 0 0 0) P.esl 4 (written - 1)) P.esl 10)
        else if s.esl.absent.any fun k => decide (first ≤ k) && decide (k ≤ n) then (lanesDone s id ls false 0 0 0)
        else (fillWindow s g n id ls)

end Sys2Proof.Machine
end

