-- ==== Sys2Proof/Machine/Audio.lean ====
section
/-!
DEFINITION. Machine/Audio.lean: microphones, host audio, mixing, the alert path, capability and the amplifier (21 R647 to R677).
-/
namespace Sys2Proof.Machine
open Sys2Proof

/-- `s` with the audio block changed. -/
def updAud (s : State) (f : Audio → Audio) : State := { s with aud := f s.aud }

/-! Microphones (R648 to R652). -/

/-- A value in units of 2^-16 rounded to an integer, ties to even. -/
def roundQ16 (x : Int) : Int :=
  let q := x / 65536
  let r := x % 65536
  if r > 32768 ∨ (r = 32768 ∧ q % 2 = 1) then q + 1 else q

/-- The channels of a block. -/
def micChannels (s : State) : Nat := if rb s R.AUD_MIC_CFG 2 then 18 else 16

/-- The sample times of a block (R649). -/
def micTimes (s : State) : Nat := rf s R.AUD_MIC_CFG 12 8 * (if rb s R.AUD_MIC_CFG 1 then 48 else 16)

/-- A sample of channel `c` (R648): the sample stored, and whether it saturated. Channels 16 and 17 carry the references. -/
def micSample (s : State) (c : Nat) (x : Int) : Int × Bool :=
  if c < 16 && (!rb s R.AUD_MIC_CFG (16 + c) || rb s R.AUD_MIC_STATUS c) then (0, false)
  else
    let v := roundQ16 (if c < 16 then x * 2 ^ rf s R.AUD_MIC_CFG 6 4 else x)
    (satI 16 v, decide (c < 16) && decide (satI 16 v ≠ v))

/-- A block of decimated samples (R648, R649, R651) completes and is written to the history ring; `times` are the decimated values of
each sample time in units of 2^-16 of an INT16 step, microphones 0 to 15, then the two references. -/
def micBlock (times : List (List Int)) (ts : Nat) (s : State) : State :=
  if !accepts s P.aud ∨ !rb s R.AUD_MIC_CFG 0 ∨ !rb s R.ESL_AUDIO_CFG 6 then s
  else
    let xs := (List.range (micTimes s)).flatMap fun t =>
      (List.range (micChannels s)).map fun c => micSample s c (nth (nth times t []) c 0)
    let bs := xs.flatMap fun x => leBytes 2 (unsx 16 x.1)
    let s := bump (wake s 38) R.AUD_MIC_SAT 31 0 (xs.countP (·.2))
    let w := historyWrite s (s.esl.blocks + s.aud.handoff.length) bs
    let s := if w.2 = MS.ok then w.1 else hwFault w.1 P.aud 6 w.2
    (updAud s fun a => { a with handoff := a.handoff ++ [(bs.length, ts, w.2)] })

/-- MIC_BLOCK_HANDOFF (R650, R651): the oldest block whose writes are acknowledged passes to Easel. -/
def execMicBlockHandoff (s : State) : Host.Outcome State Fault Refusal :=
  match s.aud.handoff with
  | [] => .next s
  | (n, ts, st) :: rest =>
    if writeStops s (historyAddr s s.esl.blocks n) n then .next s else
    let s := updAud s fun a => { a with handoff := rest }
    let s := setReg (setReg s R.AUD_BLOCK (BitVec.ofNat 32 n)) R.ESL_AUDIO_BLOCK (BitVec.ofNat 32 n)
    .next (historyPass s ts (decide (st ≠ MS.ok)))

/-- MIC_STUCK (R652): an enabled microphone was constant for 4 ms. -/
def execMicStuck (mic : Nat) (s : State) : Host.Outcome State Fault Refusal :=
  if mic ≥ 16 ∨ !rb s R.AUD_MIC_CFG (16 + mic) ∨ rb s R.AUD_MIC_STATUS mic then .next s
  else
    let s := wb s R.AUD_MIC_STATUS mic true
    .next (raise (hwFault s P.aud 5 (rf s R.AUD_MIC_STATUS 15 0)) P.aud 12)

/-- MIC_STUCK_CLEAR (R652): 4 ms of toggling input. -/
def execMicStuckClear (mic : Nat) (s : State) : Host.Outcome State Fault Refusal :=
  if mic ≥ 16 then .next s else .next (wb s R.AUD_MIC_STATUS mic false)

/-! Host audio in (R653, R654). -/

/-- The measured offset of TDM_IN. -/
def putPpm (s : State) (ppm : Int) : State := wf s R.AUD_TDM_IN_STATUS 31 16 (unsx 16 (satI 16 ppm))

/-- TDM_IN_LOST (R654). -/
def execTdmInLost (ppm : Int) (s : State) : Host.Outcome State Fault Refusal :=
  if !rb s R.AUD_TDM_IN_STATUS 0 then .next (putPpm s ppm)
  else
    let s := wb (putPpm s ppm) R.AUD_TDM_IN_STATUS 0 false
    .next (raise (hwFault s P.aud 4 (rf s R.AUD_TDM_IN_STATUS 31 16)) P.aud 11)

/-- TDM_IN_RELOCK (R654): the sources ramp in over RELEASE_MS. -/
def execTdmInRelock (ppm : Int) (s : State) : Host.Outcome State Fault Refusal :=
  let s := putPpm s ppm
  if rb s R.AUD_TDM_IN_STATUS 0 then .next s
  else .next (updAud (wb s R.AUD_TDM_IN_STATUS 0 true) fun a => { a with ramp := rf s R.AUD_DUCK_TIME 23 8 * 48 })

/-! Capability (R671, R672). -/

/-- STATE of amplifier channel `c` is OK. -/
def ampOk (s : State) (c : Nat) : Bool := decide (rf s (R.AUD_AMP_DIAG c) 1 0 = 0)

/-- CHANNELS names channel `c`. -/
def alertChan (s : State) (c : Nat) : Bool := rb s R.AUD_ALERT_CFG (21 + c)

/-- MONITOR (R671); partition states 2 RUN and 3 DEGRADED count. -/
def audMonitor (s : State) : Bool :=
  let q := rf s R.AUD_ALERT_CFG 15 0
  let p := nth s.dpt.state (rf s R.AUD_ALERT_CFG 18 16) 0
  decide (q ≠ 0xFFFF) && decide (ctxState (peekCtx s q) = 1) && (p = 2 || p = 3)

/-- LEVEL of AUD_ALERT_CAP: 0 FULL, 1 DEGRADED, 2 NONE. -/
def audLevel (s : State) : Nat :=
  let m := audMonitor s
  if m && (List.range 2).all fun c => !alertChan s c || ampOk s c then 0
  else if !m || ((List.range 2).all fun c => !ampOk s c) && !rb s R.AUD_ALERT_CFG 19 then 2
  else 1

/-- The word of AUD_ALERT_CAP. -/
def audCap (s : State) : Nat :=
  audLevel s + 16 * b2n (audMonitor s) + 32 * b2n (alertChan s 0 && ampOk s 0) + 64 * b2n (alertChan s 1 && ampOk s 1)

/-- A change of LEVEL (R672): the event, the signal to Fypajo whatever EVT_ENABLE and EVT_ROUTE hold (FLT follows the level itself, R721), and the
DEGRADED pattern where LEVEL leaves FULL and no alert plays. -/
def audSettle (s : State) : State :=
  let l := audLevel s
  let was := s.aud.level
  if l = was then s
  else
    let s := updAud s fun a => { a with level := l }
    let s := raise s P.aud 10
    let s := signalFyp s .capability
    if was = 0 && s.aud.alert.isNone then updAud s fun a => { a with pattern := 4, hapFrame := 0 } else s

/-! The alert path (R661 to R668). -/

/-- Hod presents the alert queue, and its head is popped (R662); `meet` is what reaches the queue in the cycle of the pop. -/
def alertEntryPop (meet : HodMeet) (s : State) : State :=
  let q := rf s R.AUD_ALERT_CFG 15 0
  if !accepts s P.aud ∨ q = 0xFFFF then s
  else
    let r := popFrom (wake s 38) (engineVia 38) 1 q meet
    if r.2.1 = HS.ok ∨ r.2.1 = HS.poison then
      (updAud r.1 fun a => { a with popped := a.popped ++ [(r.2.2.data, decide (r.2.1 = HS.poison))] })
    else r.1

/-- An entry holds a reserved value or a byte that is not zero (R663). -/
def entryBad (e : List Byte) : Bool :=
  decide (field e 0 1 > 3) || decide (field e 1 1 > 15) || decide (field e 2 1 > 3) || decide (field e 3 1 > 1) || decide (field e 6 2 ≠ 0)
    || decide (field e 16 48 ≠ 0)

/-- The tones that the bank holds (R664). -/
def toneCount (s : State) : Nat := field s.aud.bank 0 1

/-- Sample `i` of tone `t` in 24 bits; the tone repeats (R664, R665). -/
def toneSample (s : State) (t i : Nat) : Int :=
  let off := field s.aud.bank (8 * t + 8) 4
  let len := field s.aud.bank (8 * t + 12) 4
  if len = 0 then 0 else 256 * sx 16 (field s.aud.bank (off + 2 * (i % len)) 2)

/-- The alert that plays ends (R661, R665, R668): the tone fades, the pattern stops, Fypajo is signalled where CAN was asked for. -/
def endAlert (s : State) : State :=
  match s.aud.alert with
  | none => s
  | some a =>
    let s := if a.can then signalFyp s .alert else s
    updAud s fun k => { k with alert := none, fade := some (a.tone, 48), pattern := 0, hapFrame := 0 }

/-- An alert starts (R662, R663, R667, R668): `tag` is its SAMPLE_TAG. -/
def startAlert (s : State) (level tone haptic tag : Nat) (can hold : Bool) : State :=
  let s := if tone ≥ toneCount s then hwFault s P.aud 3 tone else s
  let tone := if tone ≥ toneCount s then 0 else tone
  let can := can && rb s R.AUD_ALERT_CFG 20
  let pat := if haptic = 0 && (List.range 2).all (fun c => !ampOk s c) then 2 else haptic
  let s := updAud s fun k => { k with alert := some { level := level, tone := tone, can := can, hold := hold }, pos := 0, fade := none,
                                      pattern := pat, hapFrame := 0 }
  let s := bump s R.AUD_ALERTS 31 0 1
  let ps := [tag % 2 ^ 32, tag / 2 ^ 32, 0, 0]
  let s := if rb s (hdr P.aud 0x20) 8 && rb s (hdr P.aud 0x2C) 17 then toRecorder s (pageOccurrence s P.aud 8 false (some ps)) else s
  let s := raiseP s P.aud 8 ps
  if can then signalFyp s .alert else s

/-- One popped entry is applied at the start of a frame (R662, R663). -/
def applyEntry (s : State) (e : List Byte × Bool) : State :=
  let bad := e.2 || entryBad e.1
  let s := if bad then hwFault s P.aud 2 (rf s R.AUD_ALERT_CFG 15 0) else s
  let level := if bad then 3 else field e.1 0 1
  if level = 0 then endAlert s
  else if (s.aud.alert.any fun a => decide (level < a.level)) then bump s R.AUD_ALERT_IGNORED 31 0 1
  else if bad then startAlert s 3 0 2 (field e.1 8 8) true false
  else startAlert s level (field e.1 1 1) (field e.1 2 1) (field e.1 8 8) (bit (field e.1 3 1) 0) (decide (field e.1 4 2 ≠ 0))

/-- ALERT_HOLD_EXPIRE (R661): the HOLD_MS of the alert that plays has passed. -/
def execAlertHoldExpire (s : State) : Host.Outcome State Fault Refusal :=
  if s.aud.alert.any (·.hold) then .next (endAlert s) else .next s

/-- The channels that carry the tone (R665). -/
def toneChannels (s : State) : List Nat :=
  let own := (List.range 2).filter fun c => alertChan s c && ampOk s c
  if own.isEmpty then (List.range 2).filter (ampOk s) else own

/-! Mixing (R655 to R658). -/

/-- 10^(-g/20) × 2^80, rounded down; a mute is zero. -/
def dbGain (g : Nat) : Nat :=
  (List.range 81).foldl (fun x i => let y := x + 2 ^ (80 - i); if y ^ 20 * 10 ^ g ≤ 2 ^ 1600 then y else x) 0

/-- The gain of an attenuation of `g` dB and a ducking of `d` dB; ATTEN 255 mutes. -/
def duckGain (g d : Nat) : Nat := if d ≥ 255 then 0 else dbGain (g + d)

/-- A source is enabled. -/
def srcOn (s : State) (i : Nat) : Bool := rb s (R.AUD_SRC_CFG i) 0

/-- The attenuation D that a source's ducking moves to (R656), and whether the alert sets it. -/
def duckTarget (s : State) (i : Nat) : Nat × Bool :=
  let j := rf s (R.AUD_SRC_CFG i) 3 1
  let below := (List.range 16).any fun k => srcOn s k && decide (rf s (R.AUD_SRC_CFG k) 3 1 < j) && decide (nth s.aud.quiet k 2400 < 2400)
  let d := if below then rf s (R.AUD_DUCK (j - 1)) 7 0 else 0
  let a := if s.aud.alert.isSome then rf s R.AUD_ALERT_CFG 31 24 else 0
  (max d a, decide (a ≥ d) && s.aud.alert.isSome)

/-- The ducking of a source advances by a frame. -/
def stepDuck (s : State) (i : Nat) (k : Duck) : Duck :=
  let t := duckTarget s i
  let k :=
    if t.1 = k.target then k
    else
      let up := rf s R.AUD_DUCK_TIME 7 0 * 48
      let left := if t.1 > k.target then (if t.2 then min up 96 else up) else rf s R.AUD_DUCK_TIME 23 8 * 48
      { lo := min k.lo t.1, hi := max k.hi t.1, target := t.1, left := left + 1 }
  if k.left ≤ 1 then { lo := k.target, hi := k.target, target := k.target, left := 0 } else { k with left := k.left - 1 }

/-- The gain of a source in a frame × 2^80: while its ducking moves, or the sources ramp in, a free value between the ends. -/
def sourceGain (s : State) (i : Nat) (k : Duck) : State × Nat :=
  let g := rf s (R.AUD_SRC_CFG i) 15 8
  let lo := if s.aud.ramp > 0 then 0 else duckGain g k.hi
  let hi := duckGain g k.lo
  if lo = hi then (s, hi) else let r := fresh s 80; (r.1, lo + (hi - lo) * r.2 / 2 ^ 80)

/-- A sum × 2^80 rounded to an integer, ties to even. -/
def roundMix (x : Int) : Int :=
  let m : Int := 2 ^ 80
  let q := x / m
  let r := x % m
  if 2 * r > m ∨ (2 * r = m ∧ q % 2 = 1) then q + 1 else q

/-- The line of a haptic pattern at a frame since its start (R666). -/
def hapticLine (p f : Nat) : Bool :=
  match p with
  | 1 => true
  | 2 => decide (f % 19200 < 9600)
  | 3 => let t := f % 38400; decide (t < 4800) || (decide (9600 ≤ t) && decide (t < 14400))
  | 4 => decide (f < 24000) && decide (f / 4800 % 2 = 0)
  | _ => false

/-- The tone's contribution × 2^80 in this frame (R658, R665). -/
def toneMix (s : State) : Int :=
  let g : Int := dbGain (rf s R.AUD_ALERT_GAIN 7 0)
  match s.aud.alert, s.aud.fade with
  | some a, _ => toneSample s a.tone s.aud.pos * g
  | none, some (t, left) => toneSample s t s.aud.pos * g * left / 48
  | none, none => 0

/-- TDM_OUT_FRAME (R654 to R657, R662, R665, R666): a frame begins; `src` are the sources' samples after their conversion. -/
def execTdmOutFrame (src : List Int) (s : State) : Host.Outcome State Fault Refusal :=
  if !islandRuns s 38 then .next s
  else if !accepts s P.aud then .next (updAud (wake s 38) fun a => { a with out := [0, 0], haptic := false })
  else
    let s := s.aud.popped.foldl applyEntry (updAud (wake s 38) fun a => { a with popped := [] })
    let lock := rb s R.AUD_TDM_IN_STATUS 0
    let x (i : Nat) : Int := if lock && srcOn s i then satI 24 (nth src i 0) else 0
    let s := updAud s fun a => { a with quiet := (List.range 16).map fun i =>
      if (x i).natAbs ≥ 8389 then 0 else min 2400 (nth a.quiet i 2400 + 1) }
    let s := updAud s fun a => { a with duck := (List.range 16).map fun i => stepDuck s i (nth a.duck i {}) }
    let gs := (List.range 16).foldl (fun (p : State × List Nat) i =>
      let r := sourceGain p.1 i (nth s.aud.duck i {}); (r.1, p.2 ++ [r.2])) (s, [])
    let s := gs.1
    let tone := toneMix s
    let carry := toneChannels s
    let sum (c : Nat) : Int := roundMix
      ((List.range 16).foldl (fun v i => if srcOn s i && bit (rf s (R.AUD_SRC_CFG i) 5 4) c then v + x i * (nth gs.2 i 0 : Int) else v)
        (if carry.contains c then tone else 0))
    let clips := (List.range 2).countP fun c => satI 24 (sum c) ≠ sum c
    let line := rb s R.AUD_ALERT_CFG 19 && hapticLine s.aud.pattern s.aud.hapFrame
    let s := bump s R.AUD_OUT_CLIP 31 0 clips
    .next (updAud s fun a => { a with
      out := (List.range 2).map fun c => satI 24 (sum c)
      pos := a.pos + 1
      fade := match a.fade with
        | some (t, n) => if n ≤ 1 then none else some (t, n - 1)
        | none => none
      ramp := a.ramp - 1
      haptic := line
      pattern := if a.pattern = 4 && decide (a.hapFrame + 1 ≥ 24000) then 0 else a.pattern
      hapFrame := a.hapFrame + 1 })

/-- The word of AUD_ALERT_STATE. -/
def audAlertState (s : State) : Nat :=
  let p := s.aud.pattern % 8 * 1024
  match s.aud.alert with
  | none => p
  | some a => 1 + 2 * a.level + 16 * a.tone + 256 * (toneChannels s).foldl (fun v c => v + 2 ^ c) 0 + p

/-! The amplifier (R673 to R677). -/

/-- The CX-A20 changes a channel and informs Fypajo. -/
def ampReport (s : State) (c : Nat) (k : Amp) : State :=
  updAud s fun a => { a with amps := updAt a.amps c fun _ => k,
                             reports := a.reports ++ [(c, k.st + 16 * (k.cls % 8) + 256 * (k.tries % 16))] }

/-- Channel `c` of the CX-A20. -/
def ampOf (s : State) (c : Nat) : Amp := nth s.aud.amps c {}

/-- AMP_LATCH (R673): a channel latches off and its fault is classified. -/
def execAmpLatch (chan cls : Nat) (s : State) : Host.Outcome State Fault Refusal :=
  if chan ≥ 2 ∨ (ampOf s chan).st ≠ 0 then .next s
  else .next (ampReport s chan { st := 1, cls := cls % 8, tries := 0 })

/-- AMP_IDLE_PULSE (R674): the diagnostic pulse of a quiet channel; a fault that it finds (`cls` not 0) latches the channel. -/
def execAmpIdlePulse (chan cls : Nat) (s : State) : Host.Outcome State Fault Refusal :=
  if chan ≥ 2 ∨ (ampOf s chan).st ≠ 0 ∨ cls % 8 = 0 then .next s
  else .next (ampReport s chan { st := 1, cls := cls % 8, tries := 0 })

/-- AMP_RETRY (R676, R677): a latched channel, or one told to try, makes a soft start; the retry and its result are reported (R675). -/
def execAmpRetry (chan : Nat) (good : Bool) (cls : Nat) (s : State) : Host.Outcome State Fault Refusal :=
  let k := ampOf s chan
  if chan ≥ 2 ∨ k.st = 0 ∨ k.st = 3 then .next s
  else
    let n := k.tries + 1
    let s := ampReport s chan { k with st := 2, tries := n }
    .next (ampReport s chan (if good then { st := 0, cls := 0, tries := n } else { st := if n ≥ 8 then 3 else 1, cls := cls % 8, tries := n }))

/-- A write of AUD_AMP_CTRL[c].CLEAR (R676): TRIES returns to 0 and one attempt starts; nothing where STATE is OK. -/
def ampClear (s : State) (c : Nat) : State :=
  let k := ampOf s c
  if k.st = 0 then s else ampReport s c { k with st := 2, tries := 0 }

/-- A write of AUD_AMP_DIAG[c] by Fypajo (R675, R677). -/
def ampDiag (s : State) (c : Nat) (data : Nat) : State :=
  let was := ampOk s c
  let s := setReg s (R.AUD_AMP_DIAG c) (BitVec.ofNat 32 (data % 4 + bits data 6 4 * 16 + bits data 11 8 * 256))
  let s := updAud s fun a => { a with reports := match a.reports.find? (·.1 = c) with | some r => a.reports.erase r | none => a.reports }
  let s :=
    if was && !ampOk s c then raise (fault s P.aud 1 .fyp (c + bits data 6 4 * 16 + bits data 11 8 * 256) none) P.aud 9
    else if !was && ampOk s c then raise s P.aud 13
    else s
  audSettle s

/-- AMP_DIAG_WRITE (R675): Fypajo's write. -/
def execAmpDiagWrite (chan : Nat) (data : W32) (s : State) : Host.Outcome State Fault Refusal :=
  if chan ≥ 2 ∨ !islandRuns s 38 then .next s
  else
    let s := ampDiag (wake s 38) chan data.toNat
    .next { s with jione := { s.jione with events := s.jione.events ||| 4 } }

end Sys2Proof.Machine
end

