-- ==== Sys2Proof/Machine/Islands.lean ====
section
/-!
DEFINITION. Machine/Islands.lean: islands, their operating points, regulators and power states (03 R54 to R68, R94 to R96,
R562).
-/
namespace Sys2Proof.Machine
open Sys2Proof

/-! Groups and their points (R559). -/

/-- The islands of a group (R559). -/
def grpIslands (g : Nat) : List Nat :=
  if g < 8 then [19 + g] else if g = 8 then [27] else if g = 9 then [28, 29] else if g = 10 then [30, 31] else [32, 33, 34, 35]

/-- The points of R559: frequency in MHz, target in 5 mV units. -/
def grpPoints (g : Nat) : List Point :=
  if g < 8 then [⟨600, 110⟩, ⟨750, 123⟩, ⟨900, 135⟩, ⟨1050, 148⟩, ⟨1200, 160⟩]
  else if g < 10 then [⟨400, 110⟩, ⟨600, 120⟩, ⟨800, 136⟩, ⟨1000, 156⟩]
  else if g = 10 then [⟨500, 110⟩, ⟨750, 130⟩, ⟨1000, 156⟩]
  else [⟨800, 140⟩]

/-- The group of a scaled island. -/
def islandGroup (n : Nat) : Option Nat :=
  if 19 ≤ n ∧ n ≤ 26 then some (n - 19) else if n = 27 then some 8 else if n = 28 ∨ n = 29 then some 9
  else if n = 30 ∨ n = 31 then some 10 else none

/-! Operating points (R54, R64 to R67, R788). -/

/-- The lowest frequency of an island's domain in MHz (R54). -/
def lowestMhz (n : Nat) : Nat :=
  if n = 0 then 250 else if n = 1 then 500 else if n ≤ 18 then 1500 else if n ≤ 26 then 600
  else if n ≤ 29 then 400 else if n ≤ 31 then 500 else if n ≤ 35 then 800 else if n ≤ 37 then 500 else 98

/-- The point at which an island comes up: the fixed clock and target of R54 and R788, or point 0 of a scaled island. DESIGN CHOICE: the 98.304 MHz of
island 38 are shown as 98, rounded down. -/
def startPoint (n : Nat) : Point :=
  if n = 0 then ⟨250, 0⟩ else if n = 1 then ⟨500, 150⟩ else if n ≤ 18 then ⟨1500, 160⟩
  else if n ≤ 26 then ⟨600, 110⟩ else if n ≤ 29 then ⟨400, 110⟩ else if n ≤ 31 then ⟨500, 110⟩
  else if n ≤ 35 then ⟨800, 140⟩ else if n ≤ 37 then ⟨500, 140⟩ else ⟨98, 120⟩

/-- The island's clock and regulator can take a new point. -/
def Island.live (i : Island) : Bool := decide (i.st ≠ .off) && !i.fenced

/-- A new operating point is asked of a scaled island (R54, R64, R65): one of its group's points. A step starts, or the request waits behind the step in
progress and replaces an earlier one; a request for the point already reached is discarded. -/
def requestPoint (s : State) (n : Nat) (p : Point) : State :=
  match islandGroup n with
  | none => s
  | some g =>
    if !(grpPoints g).contains p then s
    else updIsl s n fun i =>
      if !i.live then i
      else if i.step.isSome then { i with nextPoint := some p }
      else if p = i.point then i
      else { i with step := some p, stepAt := s.clock, late := false }

/-- Every core but `n` runs at 1.20 GHz, or is on its way there. -/
def othersTop (s : State) (n : Nat) : Bool :=
  (List.range 8).all fun c => 19 + c = n || [some (island s (19 + c)).point, (island s (19 + c)).step, (island s (19 + c)).nextPoint].contains (some ⟨1200, 160⟩)

/-- A point that the requests of R64 may name for island `n` of a group: before the ledger opens the boot ROM sets points itself, never 1.20 GHz on every
core at once; then the point that Plumb's current plan grants, or point 0 once the trip has placed every scaled island there (R12, R561, R590). -/
def pointGranted (s : State) (n g : Nat) (p : Point) : Bool :=
  if !s.plb.opened then !(decide (g < 8) && decide (p = ⟨1200, 160⟩) && othersTop s n)
  else decide (nth (grpPoints g) (if rb s R.PLB_STATUS 9 then 0 else rf s (R.PLB_GRP_POINT g) 2 0) ⟨0, 0⟩ = p)

/-- OP_POINT_REQUEST (R64): a clock of R54 that is fixed, or a point that is not granted, is no occasion. -/
def execOpPointRequest (isl freq volt : Nat) (s : State) : Host.Outcome State Fault Refusal :=
  match islandGroup isl with
  | none => .next s
  | some g => .next (if pointGranted s isl g ⟨freq, volt⟩ then requestPoint s isl ⟨freq, volt⟩ else s)

/-- A power state change takes effect (R59); OFF loses the island's point. -/
def enterState (i : Island) (t : IslState) : Island :=
  match t with
  | .off => { st := .off, fenced := i.fenced }
  | t => { i with st := t, nextState := none }

/-- The end of a step at AON cycle `now`: the new point is reached, then the latest request starts, or the waiting state change (R65, R66). DESIGN CHOICE:
where both wait the point goes first; a waiting state change that `may` no longer allows is dropped (R63). -/
def stepDone (now : Nat) (may : IslState → Bool) (i : Island) : Island :=
  match i.step with
  | none => i
  | some p =>
    if i.excursion then i
    else
      let q := i.nextPoint.filter (· ≠ p)
      let i := { i with point := p, step := none, late := false, nextPoint := none }
      match q, i.nextState with
      | some q, _ => { i with step := some q, stepAt := now }
      | none, some t => if may t then enterState i t else { i with nextState := none }
      | none, none => i

/-- A core of a partition that hosts a sentinel model, while the partition is enabled: it enters neither RETAIN nor OFF (R63). -/
def coreHeld (s : State) (n : Nat) : Bool :=
  decide (19 ≤ n) && decide (n ≤ 26) && (List.range 8).any fun p =>
    hostsSentinel s p && rb s (R.DPT_PART_CTRL p) 0 && bit (rf s (R.DPT_PART_CFG p) 7 0) (n - 19)

/-- `s` with the bytes of `n` addresses from `a` zero, clean and free of errors. -/
def clearMem (s : State) (a n : Nat) : State :=
  { s with
    mem := s.mem.filter fun e => !(decide (a ≤ e.1) && decide (e.1 < a + n))
    poison := s.poison.filter fun g => !(decide (a ≤ 64 * g) && decide (64 * g < a + n))
    eccErr := s.eccErr.filter fun e => !(decide (a ≤ 8 * e.1) && decide (8 * e.1 < a + n))
    dram := { s.dram with eccFlips := s.dram.eccFlips.filter fun e => !(decide (a ≤ 64 * e.1) && decide (64 * e.1 < a + n)) } }

/-- The page indexes of the blocks of island `n`. -/
def pagesIn (n : Nat) : List Nat := (List.range 64).filter fun pg => (pageOf pg).isSome && decide (islandAt pg = n)

/-- The engines of an island lose their state, and its stores read zero when it comes up again (R95): with bank 15 the queue contexts are lost, and the
admitted pushes of the queues of which Hod holds no copy. DESIGN CHOICE: the scrubber of a bank that was OFF goes
on from the granule where it stopped. -/
def loseEngines (s : State) (n : Nat) : State :=
  if n < 3 then s
  else if n ≤ 18 then
    let s := clearMem s (0x08000000 + (n - 3) * 0x00800000) 0x00800000
    if n = 18 then { s with hod := { s.hod with inflight := s.hod.inflight.filter fun p => (s.hod.cache.get p.queue).isSome } } else s
  else if n ≤ 26 then { clearMem s ((n - 19) * 0x01000000) 0x01000000 with cores := s.cores.set (n - 19) {} }
  else if n = 27 then { s with dev := {} }
  else if n = 28 then { s with enl := {} }
  else if n = 29 then { s with esl := {} }
  else if n = 30 then { s with key := {} }
  else if n = 31 then { s with sfl := {} }
  else if n ≤ 35 then
    let s := updSub s (2 * (n - 32)) fun _ => {}
    updSub s (2 * (n - 32) + 1) fun _ => {}
  else if n = 36 then { s with ing := { s.ing with src := s.ing.src.filter fun e => decide (128 ≤ e.1) } }
  else if n = 37 then { s with ing := { s.ing with src := s.ing.src.filter fun e => decide (e.1 < 128), ptpRx := [[], []] } }
  else { s with aud := { amps := s.aud.amps, reports := s.aud.reports } }

/-- The registers that show the column map of a core (R404): they change at a die reset alone (12 Start-up). -/
def columnRegs (n : Nat) : List Nat :=
  [R.ASH_CLASS n, R.ASH_WIDTH n] ++ (List.range 4).flatMap fun a => (List.range 16).map fun w => R.ASH_COLMAP n a w

/-- Logic and SRAM contents of an island that is OFF are lost (R59): its pages take their reset values, LOCK (02 R35) and the column map of a core apart. -/
def loseIsland (s : State) (n : Nat) : State :=
  let kept := if 19 ≤ n ∧ n ≤ 26 then columnRegs (n - 19) else []
  let s := (pagesIn n).foldl (fun s pg => resetRegs s pg (fun _ => false) (fun o => decide (o = hdr pg 0x1C) || kept.contains o)) s
  loseEngines { s with staged := s.staged.filter fun e => decide (islandAt (e.1 / 0x1000) ≠ n) } n

/-- The island changes by `f`; where it becomes OFF, its contents are lost. -/
def changeIsland (s : State) (n : Nat) (f : Island → Island) : State :=
  let t := updIsl s n f
  if (island s n).st ≠ .off ∧ (island t n).st = .off then loseIsland t n else t

/-- The boot ROM puts an island OFF: after the step in progress (R66), and no core that R63 keeps up. -/
def putOff (s : State) (n : Nat) : State :=
  if coreHeld s n then s
  else if (island s n).step.isSome then updIsl s n fun i => { i with nextState := some .off }
  else changeIsland s n fun i => enterState i .off

/-- STEP_LATE (R67): captured once for the step. -/
def execStepLate (isl ns : Nat) (s : State) : Host.Outcome State Fault Refusal :=
  let i := island s isl
  if i.step.isSome && !i.late then
    let s := updIsl s isl fun i => { i with late := true }
    let s := hwFault s P.aon 4 (isl + min ns 0xFFFF * 0x10000)
    .next (raise s P.aon 10)
  else .next s

/-- REG_FAULT (R68): the output differs from its target by more than 40 mV for more than 200 ns; `dev` is the largest
difference of the first 200 ns in 5 mV units. -/
def execRegFault (isl : Nat) (high : Bool) (dev : Nat) (s : State) : Host.Outcome State Fault Refusal :=
  let i := island s isl
  if isl = 0 || !i.live || i.excursion then .next s
  else
    let s := updIsl s isl fun i => { i with excursion := true }
    let s := bump s R.AON_REG_FAULTS 15 0 1
    let s := hwFault s P.aon (if high then 3 else 2) (isl + min dev 255 * 0x100)
    .next (raise s P.aon 9)

/-- REG_RETURN (R68): the output returns before 20 µs pass and the island leaves its lowest frequency. -/
def execRegReturn (isl : Nat) (s : State) : Host.Outcome State Fault Refusal :=
  .next (updIsl s isl fun i => if i.fenced then i else { i with excursion := false })

/-- The frequency at which an island runs now (AON_ISL_STATUS[n].FREQ_MHZ without the clamp of R588): the lower one during
a step, the lowest of its domain during an excursion. -/
def runMhz (n : Nat) (i : Island) : Nat :=
  if i.st = .off then 0
  else if i.excursion then lowestMhz n
  else match i.step with
    | some p => min p.mhz i.point.mhz
    | none => i.point.mhz

/-- The frequency that AON_ISL_STATUS shows (R588: a clamp takes a third of it from islands 19 to 31). -/
def shownMhz (s : State) (n : Nat) : Nat :=
  let f := runMhz n (island s n)
  if rb s R.PLB_STATUS 8 && decide (19 ≤ n) && decide (n ≤ 31) then f * 2 / 3 else f

/-- The regulator's target in 5 mV units (AON_ISL_STATUS[n].VOLT, R64, R788): in the first phase of a downward step the old point's. DESIGN CHOICE: that
phase, of at most 50 ns, lasts 12 AON cycles. -/
def targetVolt (now n : Nat) (i : Island) : Nat :=
  if n = 0 ∨ i.st = .off then 0 else if i.st = .retain then 100
  else match i.step with
    | none => i.point.volt
    | some p => if i.point.mhz ≤ p.mhz ∨ i.stepAt + 12 < now then p.volt else i.point.volt

end Sys2Proof.Machine
end

