-- ==== Sys2Proof/Machine/Solver.lean ====
section
/-!
DEFINITION. Machine/Solver.lean: the arithmetic of Keystone: binary64, the LDLᵀ factor of the KKT matrix, the ADMM iteration and its tests
(19 R601 to R606).
-/
namespace Sys2Proof.Machine
open Sys2Proof

/-! Binary64 patterns (R606). -/

abbrev d64 (x : Nat) : FVal := fdec fp64 x
def dAdd (a b : Nat) : Nat := fenc fp64 (fadd (d64 a) (d64 b))
def dSub (a b : Nat) : Nat := fenc fp64 (fadd (d64 a) (d64 b).flip)
def dMul (a b : Nat) : Nat := fenc fp64 (fmul (d64 a) (d64 b))
def dDiv (a b : Nat) : Nat := fenc fp64 (fdiv (d64 a) (d64 b))
/-- c + a × b, rounded once. -/
def dFma (a b c : Nat) : Nat := fenc fp64 (fadd (d64 c) (fmul (d64 a) (d64 b)))
/-- c − a × b, rounded once. -/
def dFms (a b c : Nat) : Nat := fenc fp64 (fadd (d64 c) (fmul (d64 a) (d64 b)).flip)
def dNeg (a : Nat) : Nat := fenc fp64 (d64 a).flip
def dAbs (a : Nat) : Nat := a % 2 ^ 63
def dMax (a b : Nat) : Nat := fenc fp64 (fmax (d64 a) (d64 b))
def dMin (a b : Nat) : Nat := fenc fp64 (fmin (d64 a) (d64 b))
def dLt (a b : Nat) : Bool := flt (d64 a) (d64 b)
def dLe (a b : Nat) : Bool := dLt a b || feq (d64 a) (d64 b)
def dFinite (a : Nat) : Bool := match d64 a with | .fin _ _ _ => true | _ => false
abbrev dOne : Nat := 0x3FF0000000000000
abbrev dInf : Nat := 0x7FF0000000000000
abbrev dNegInf : Nat := 0xFFF0000000000000

/-- a × 2^k; exact but for overflow. -/
def dScale (a : Nat) (k : Int) : Nat :=
  match d64 a with
  | .fin s m e => fenc fp64 (.fin s m (e + k))
  | _ => a

/-- The maximum norm. -/
def dNorm (v : List Nat) : Nat := v.foldl (fun m x => if dLt m (dAbs x) then dAbs x else m) 0

/-- M × v by rows, each sum in ascending index order (`len` rows). -/
def dMatVec (m : Entries) (len : Nat) (v : List Nat) : List Nat :=
  (List.range len).map fun i =>
    ((m.filter fun e => e.1 = i).mergeSort fun a b => decide (a.2.1 ≤ b.2.1)).foldl (fun s e => dFma e.2.2 (nth v e.2.1 0) s) 0

/-- The transpose of a matrix. -/
def transposed (m : Entries) : Entries := m.map fun e => (e.2.1, e.1, e.2.2)

/-- A dot product. -/
def dDot (a b : List Nat) : Nat := (a.zip b).foldl (fun s e => dFma e.1 e.2 s) 0

/-! The factor (R602). -/

/-- The KKT matrix's lower triangle by pivot position: entry (i, j), j ≤ i, or none where no entry is stored. -/
def kktEntry (c : KeyCtx) (i j : Nat) : Option Nat :=
  let a := nth c.order i 0
  let b := nth c.order j 0
  let find (m : Entries) (r k : Nat) : Option Nat := (m.find? fun e => e.1 = r && e.2.1 = k).map (·.2.2)
  if a < c.n ∧ b < c.n then
    if a = b then some (dAdd ((find c.p a a).getD 0) c.sigma) else find c.p a b
  else if a < c.n then find c.a (b - c.n) a
  else if b < c.n then find c.a (a - c.n) b
  else if a = b then some (dNeg (dDiv dOne (nth c.rho (a - c.n) 0))) else none

/-- The factor's pattern: by row, the positions below it that hold an entry, ascending. -/
def factorPattern (c : KeyCtx) : List (List Nat) :=
  (List.range (c.n + c.m)).foldl (fun rows i =>
    let r := (List.range i).foldl (fun (r : List Nat) j =>
      if (kktEntry c i j).isSome || r.any (fun k => (nth rows j []).contains k) then r ++ [j] else r) []
    rows ++ [r]) []

/-- The non-zeros of each column of the factor, the unit diagonal not among them. -/
def columnCounts (pat : List (List Nat)) : List Nat :=
  (List.range pat.length).map fun j => pat.countP fun r => r.contains j

/-- The term that column `k` takes from entry (i, j): `l` the factor entries of the two rows, `v` the same before their division, `d` the pivot. -/
def factorTerm (li vi lj vj d acc : Nat) : Nat :=
  match Config.keystoneForm 0 % 4 with
  | 0 => dFms (dMul li d) lj acc
  | 1 => dFms li (dMul lj d) acc
  | 2 => dFms vi lj acc
  | _ => dFms li vj acc

/-- Division by a pivot. -/
def pivotDiv (v d : Nat) : Nat := if Config.keystoneForm 1 = 0 then dDiv v d else dMul v (dDiv dOne d)

/-- A pivot that R602 accepts: finite, at least 2^-960 in magnitude, negative for a constraint and positive for a variable. -/
def pivotOk (c : KeyCtx) (i d : Nat) : Bool :=
  dFinite d && dLe ((1023 - 960) * 2 ^ 52) (dAbs d) && (d64 d).neg == decide (nth c.order i 0 ≥ c.n)

/-- One row of the factor: (position, l, v) of its entries, and its pivot. -/
def factorRow (c : KeyCtx) (pat : List (List Nat)) (rows : List (List (Nat × Nat × Nat))) (piv : List Nat) (i : Nat) :
    List (Nat × Nat × Nat) × Nat :=
  let at_ (r : List (Nat × Nat × Nat)) (k : Nat) : Option (Nat × Nat) := (r.find? fun e => e.1 = k).map (·.2)
  let r := (nth pat i []).foldl (fun (r : List (Nat × Nat × Nat)) j =>
    let rj := nth rows j []
    let v := r.foldl (fun v e => match at_ rj e.1 with
      | some f => factorTerm e.2.1 e.2.2 f.1 f.2 (nth piv e.1 0) v
      | none => v) ((kktEntry c i j).getD 0)
    r ++ [(j, pivotDiv v (nth piv j 0), v)]) []
  (r, r.foldl (fun v e => factorTerm e.2.1 e.2.2 e.2.1 e.2.2 (nth piv e.1 0) v) ((kktEntry c i i).getD 0))

/-- The factorisation: the context with its factor, or none where a pivot fails. -/
def factorise (c : KeyCtx) : Option KeyCtx :=
  let pat := factorPattern c
  let r := (List.range (c.n + c.m)).foldl (fun (a : Option (List (List (Nat × Nat × Nat)) × List Nat)) i =>
    a.bind fun f =>
      let t := factorRow c pat f.1 f.2 i
      if pivotOk c i t.2 then some (f.1 ++ [t.1], f.2 ++ [t.2]) else none) (some ([], []))
  r.map fun f => { c with rows := f.1.map fun r => r.map fun e => (e.1, e.2.1), piv := f.2, factored := true }

/-- The solution of the KKT system for a right side by index (variables, then constraints). -/
def kktSolve (c : KeyCtx) (rhs : List Nat) : List Nat :=
  let len := c.n + c.m
  let b := (List.range len).map fun i => nth rhs (nth c.order i 0) 0
  let y := (List.range len).foldl (fun (y : List Nat) i =>
    y ++ [(nth c.rows i []).foldl (fun v e => dFms e.2 (nth y e.1 0) v) (nth b i 0)]) []
  let g := (List.range len).map fun i => pivotDiv (nth y i 0) (nth c.piv i 0)
  -- backward: position i needs the positions above it, in ascending order
  let x := (List.range len).foldl (fun (x : List Nat) k =>
    let i := len - 1 - k
    let v := (List.range k).foldl (fun v t =>
      let j := i + 1 + t
      match (nth c.rows j []).find? fun e => e.1 = i with
      | some e => dFms e.2 (nth x t 0) v
      | none => v) (nth g i 0)
    v :: x) []
  (List.range len).map fun i => nth x ((c.order.findIdx? (· = i)).getD 0) 0

/-! The iteration (R603). -/

/-- μ ÷ ρ added to z, less w. -/
def stepT (rho mu z w : Nat) : Nat :=
  if Config.keystoneForm 1 = 0 then dSub (dAdd z (dDiv mu rho)) w else dSub (dFma (dDiv dOne rho) mu z) w

/-- y = Rw. -/
def dualOf (c : KeyCtx) : List Nat := (List.range c.m).map fun i => dMul (nth c.rho i 0) (nth c.w i 0)

/-- One iteration. -/
def iterate (c : KeyCtx) : KeyCtx :=
  let rx := (List.range c.n).map fun i => fenc fp64 (fadd (fmul (d64 c.sigma) (d64 (nth c.x i 0))) (d64 (nth c.q i 0)).flip)
  let rz := (List.range c.m).map fun i => dSub (nth c.z i 0) (nth c.w i 0)
  let s := kktSolve c (rx ++ rz)
  let xt := s.take c.n
  let mu := s.drop c.n
  let tr := (List.range c.m).map fun i =>
    let z := nth c.z i 0
    dFma c.alpha (dSub (stepT (nth c.rho i 0) (nth mu i 0) z (nth c.w i 0)) z) z
  let zn := (List.range c.m).map fun i => dMin (dMax (dAdd (nth tr i 0) (nth c.w i 0)) (nth c.l i 0)) (nth c.u i 0)
  { c with
    x := (List.range c.n).map fun i => dFma c.alpha (dSub (nth xt i 0) (nth c.x i 0)) (nth c.x i 0),
    z := zn,
    w := (List.range c.m).map fun i => dSub (dAdd (nth c.w i 0) (nth tr i 0)) (nth zn i 0) }

/-! The tests (R604, R605). -/

/-- rp and rd. -/
def residuals (c : KeyCtx) : Nat × Nat :=
  let ax := dMatVec c.a c.m c.x
  let px := dMatVec c.p c.n c.x
  let aty := dMatVec (transposed c.a) c.n (dualOf c)
  (dNorm ((ax.zip c.z).map fun e => dSub e.1 e.2),
   dNorm ((List.range c.n).map fun i => dAdd (dAdd (nth px i 0) (nth c.q i 0)) (nth aty i 0)))

/-- ep and ed, `eps` the tolerances EPS_ABS, EPS_REL, EPS_PINF, EPS_DINF. -/
def tolerances (c : KeyCtx) (eps : List Nat) : Nat × Nat :=
  let ax := dNorm (dMatVec c.a c.m c.x)
  let px := dNorm (dMatVec c.p c.n c.x)
  let aty := dNorm (dMatVec (transposed c.a) c.n (dualOf c))
  let e (v : Nat) : Nat := dFma (nth eps 1 0) v (nth eps 0 0)
  (e (dMax ax (dNorm c.z)), e (dMax px (dMax aty (dNorm c.q))))

/-- Test 3: the change of y over the anchor certifies primal infeasibility. -/
def primalInfeasible (c : KeyCtx) (eps dy : List Nat) : Bool :=
  let n := dNorm dy
  let lim := dMul (nth eps 2 0) n
  let terms := (List.range c.m).map fun i =>
    let y := nth dy i 0
    (nth c.u i 0, dMax y 0, nth c.l i 0, dMin y 0)
  let open_ := terms.any fun t => (!dFinite t.1 && !feq (d64 t.2.1) (d64 0)) || (!dFinite t.2.2.1 && !feq (d64 t.2.2.2) (d64 0))
  let sum := terms.foldl (fun s t =>
    let s := if dFinite t.1 then dFma t.1 t.2.1 s else s
    if dFinite t.2.2.1 then dFma t.2.2.1 t.2.2.2 s else s) 0
  dLt 0 n && dLe (dNorm (dMatVec (transposed c.a) c.n dy)) lim && !open_ && dLt sum (dNeg lim)

/-- Test 4: the change of x certifies dual infeasibility. -/
def dualInfeasible (c : KeyCtx) (eps dx : List Nat) : Bool :=
  let n := dNorm dx
  let lim := dMul (nth eps 3 0) n
  let adx := dMatVec c.a c.m dx
  dLt 0 n && dLe (dNorm (dMatVec c.p c.n dx)) lim && dLt (dDot c.q dx) (dNeg lim)
    && (List.range c.m).all fun i =>
      (!dFinite (nth c.u i 0) || dLe (nth adx i 0) lim) && (!dFinite (nth c.l i 0) || dLe (dNeg lim) (nth adx i 0))

/-- The objective ½xᵀPx + qᵀx. -/
def objective (c : KeyCtx) : Nat := dFma (1022 * 2 ^ 52) (dDot c.x (dMatVec c.p c.n c.x)) (dDot c.q c.x)

/-- The status after iteration `k` (R605): in WCET mode tests only at the last; none where the solve goes on. -/
def testStatus (c : KeyCtx) (eps : List Nat) (wcet : Bool) (k cap : Nat) (dx dy : List Nat) : Option Nat :=
  let last := decide (k ≥ cap)
  let certs := last && wcet || decide (k % 16 = 0)
  if wcet && !last then none
  else if !((c.x ++ c.z ++ dualOf c).all dFinite) then some 5
  else
    let r := residuals c
    let e := tolerances c eps
    if dLe r.1 e.1 && dLe r.2 e.2 then some 1
    else if certs && primalInfeasible c eps dy then some 3
    else if certs && dualInfeasible c eps dx then some 4
    else if last then some 2 else none

end Sys2Proof.Machine
end

