-- ==== Sys2Proof/Machine/Keystone.lean ====
section
/-!
DEFINITION. Machine/Keystone.lean: Keystone's commands, contexts and segments (19 R592 to R619).
-/
namespace Sys2Proof.Machine
open Sys2Proof

/-- `s` with Keystone changed. -/
def updKey (s : State) (f : Keystone → Keystone) : State := { s with key := f s.key }

/-- Context `c`. -/
def keyCtx (s : State) (c : Nat) : KeyCtx := nth s.key.ctx c {}

/-- `s` with a context changed. -/
def updCtx (s : State) (c : Nat) (f : KeyCtx → KeyCtx) : State := updKey s fun k => { k with ctx := updAt k.ctx c f }

/-- The status codes of R608. -/
abbrev KS.solved : Nat := 1
abbrev KS.primalInf : Nat := 3
abbrev KS.nonfinite : Nat := 5
abbrev KS.factorFailed : Nat := 6
abbrev KS.dimLimit : Nat := 7
abbrev KS.badCommand : Nat := 8
abbrev KS.window : Nat := 9
abbrev KS.poison : Nat := 0xA
abbrev KS.noFactor : Nat := 0xB
abbrev KS.notOwner : Nat := 0xC
abbrev KS.busy : Nat := 0xD
abbrev KS.aborted : Nat := 0xE

/-! The end of a command. -/

/-- The SVC item of a command receives its status word (R393, R432). -/
def answerSvc (s : State) (n : Nat) (urgent : Bool) (cause id word : Nat) : State :=
  updCore s n fun k => updBank' k urgent fun b => { b with items := b.items.map fun it =>
    if (it.svc == some id) && it.cause = cause && it.res.isNone then { it with res := some (MS.ok, [word], false) } else it }

/-- A command completes (R608, R609): the counts, the context's last status, the item of a core or the event of the PF. -/
def keyComplete (s : State) (c : KeyCmd) (st : Nat) : State :=
  let s := updKey s fun k => { k with cur := k.cur.filter fun d => d.id ≠ c.id, held := k.held.filter fun d => d.id ≠ c.id }
  let s := bump s R.KEY_CMDS 31 0 1
  let s := if c.ctx < 4 then setReg s (R.KEY_CTX_LAST c.ctx) (BitVec.ofNat 32 (st + c.iter * 256)) else s
  let us := if c.st = 0 then 0 else min (2 ^ 32 - 1) ((tbNs s - c.tStart) / 1000)
  match c.issuer with
  | .core n => answerSvc s n c.urgent 6 c.id (st + c.iter * 256 + us * 2 ^ 32)
  | .pf => raise s P.key 8
  | _ => s

/-- A command completes with a capture (the causes of the KEY page). -/
def keyFail (s : State) (c : KeyCmd) (st cause info : Nat) (addr : Option Nat) : State :=
  keyComplete (fault s P.key cause c.issuer (c.ctx % 4 + info) addr) c st

/-! Submission (R595, R613). -/

/-- A command arrives: held, or completed at once with BUSY. -/
def keySubmit (s : State) (c : KeyCmd) : State × Nat :=
  let c := { c with id := s.key.nextId }
  let s := updKey s fun k => { k with nextId := k.nextId + 1 }
  let n := (s.key.held ++ s.key.cur.toList).countP fun d => decide (d.issuer = .hw) == decide (c.issuer = .hw)
  if n ≥ (if c.issuer = .hw then 1 else 16) then (keyComplete s c KS.busy, c.id)
  else (updKey s fun k => { k with held := k.held ++ [c] }, c.id)

/-- How Keystone's requests for a command travel (R615): under its issuer, with its class, on the bulk channel for bulk class and on the normal channel
otherwise; Plumb's on the normal channel. -/
def keyVia (c : KeyCmd) : Via :=
  { classVia 30 c.cls with req := c.issuer, chan := if c.issuer = .hw then .normal else classChan c.cls }

/-- GO of KEY_PF_CMD_HI[c] (R595): the block at ADDR is submitted. DESIGN CHOICE: the block itself, whose context and so whose class is not known before it
is read, is read with no class on the normal channel. -/
def keyPfSubmit (s : State) (x : Nat) : State :=
  let a := rf s (R.KEY_PF_CMD_LO x) 31 6 * 64 + rf s (R.KEY_PF_CMD_HI x) 15 0 * 2 ^ 32
  let r := readRange s { engineVia 30 with req := .pf } a 64
  after (keySubmit r.1 { id := 0, ctx := field r.2.data 1 1, issuer := .pf, part := rf s (R.KEY_CTX_CFG (field r.2.data 1 1 % 4)) 2 0,
                         cls := rf s (R.KEY_CTX_CFG (field r.2.data 1 1 % 4)) 5 4, block := r.2.data, bad := decide (r.2.st ≠ 0) })

/-! The choice of a command (R584, R612 to R614). -/

/-- The oldest command of each context that may run now. -/
def keyReady (s : State) : List KeyCmd :=
  let all := s.key.held
  all.filter fun c => c.issuer ≠ .hw && (all.find? fun d => d.ctx = c.ctx && d.issuer ≠ .hw).map (·.id) = some c.id
    && (decide (c.st > 0) || solveOk s)

/-- The command that Keystone takes at a segment end. -/
def keyChoose (s : State) : Option KeyCmd :=
  match s.key.held.find? fun c => c.issuer = .hw with
  | some c => some c
  | none =>
    let cs := keyReady s
    (List.range 4).findSome? fun k =>
      let of := cs.filter fun c => c.cls = k
      match nextRound ((List.range 8).filter fun p => of.any fun c => c.part = p) (s.key.rr.get k) with
      | none => none
      | some p => of.find? fun c => c.part = p

/-- A command becomes the one whose segment runs. -/
def keyRun (s : State) (c : KeyCmd) : State :=
  updKey s fun k => { k with cur := some c, held := k.held.filter fun d => d.id ≠ c.id,
                             rr := if c.issuer = .hw then k.rr else SMap.set k.rr c.cls c.part }

/-- The running command is changed. -/
def keyCur (s : State) (c : KeyCmd) : State := updKey s fun k => { k with cur := some c }

/-- The running command is interrupted: it keeps its place by arrival (R612, R613). -/
def keyPark (s : State) (c : KeyCmd) : State :=
  updKey s fun k => { k with cur := none, held := k.held.filter (·.id < c.id) ++ c :: k.held.filter (fun d => !(d.id < c.id)) }

/-- A segment end (R612, R616, R617): a command told to stop ends ABORTED; else the next command is chosen, and a chosen one that has begun
runs on. -/
def keySwitch (s : State) : State :=
  let s := match s.key.cur with
    | some c =>
      if c.stop then keyComplete (if c.st = 1 then updCtx s c.ctx fun k => { k with factored := false } else s) c KS.aborted
      else keyPark s c
    | none => s
  match keyChoose s with
  | some c => if c.st > 0 then keyRun s c else s
  | none => s

/-! Reading an image (R598 to R600). -/

/-- Every block of a range lies in SRAM, DRAM or a host-memory window (R600). -/
def keyMapped (s : State) (a n : Nat) : Bool :=
  decide (a + n ≤ 2 ^ 48) && (piecesOf a n).all fun p => match placeOf p.1 with
    | .coreSram _ | .bank _ | .host _ => true
    | .dram => (dramTarget s p.1).isSome
    | _ => false

/-- A range passes check 3: its place, and for a core's command the windows of its partition. -/
def keyRangeOk (s : State) (c : KeyCmd) (pm : Perm) (a n : Nat) : Bool :=
  n = 0 || (keyMapped s a n && (match c.issuer with | .core _ => windowOk s c.part .core pm a n | _ => true))

/-- The fields of an image header. -/
structure KeyImage where
  n : Nat
  m : Nat
  form : Nat
  nnzP : Nat
  nnzA : Nat
  nums : List Nat
  offs : List Nat
  eq : Nat
  free : Int
  clean : Bool
deriving DecidableEq, Repr

/-- A header of 128 bytes. -/
def keyImage (b : List Byte) : KeyImage :=
  { n := field b 0 2, m := field b 2 2, form := field b 4 1, nnzP := field b 8 4, nnzA := field b 12 4,
    nums := (List.range 7).map fun i => field b (16 + 8 * i) 8, offs := (List.range 8).map fun i => field b (72 + 4 * i) 4,
    eq := field b 104 1, free := sx 8 (field b 105 1), clean := decide (field b 5 3 = 0) && decide (field b 106 22 = 0) }

/-- The bytes of each section: P, A, q, l, u, x0, y0, ORDER (R599). -/
def KeyImage.sizes (h : KeyImage) : List Nat :=
  let col (k : Nat) : Nat := alignUp (4 * (h.n + 1 + k)) 8 + 8 * k
  let v := 8 * h.n
  let w := 8 * h.m
  if h.form = 0 then [4 * h.n * (h.n + 1), 8 * h.m * h.n, v, w, w, v, w, 0]
  else [col h.nnzP, col h.nnzA, v, w, w, v, w, 4 * (h.n + h.m)]

/-- The sections that a command reads. -/
def keySections (h : KeyImage) (flags : Nat) : List Bool :=
  let su := bit flags 0
  let ve := bit flags 1
  let wa := bit flags 2
  [su, su, ve, ve, ve, wa, wa, su && decide (h.form ≠ 0)]

/-- The header satisfies R598 for the command's flags and mode. -/
def keyHeaderOk (h : KeyImage) (flags : Nat) : Bool :=
  let num (i : Nat) : FVal := d64 (nth h.nums i 0)
  let pos (i : Nat) : Bool := flt (.fin false 0 0) (num i)
  let nonneg (i : Nat) : Bool := !(num i).isNan && !flt (num i) (.fin false 0 0)
  h.clean && decide (h.form ≤ 1) && (decide (h.form = 1) || (decide (h.nnzP = 0) && decide (h.nnzA = 0)))
    && (h.offs.zip (keySections h flags)).all (fun e => decide (e.1 % 64 = 0) && (e.2 || decide (e.1 = 0)))
    && (!bit flags 0 || (pos 0 && pos 1 && pos 2 && flt (num 2) (.fin false 2 0) && decide (h.eq ≤ 16) && decide (-30 ≤ h.free)
        && decide (h.free ≤ 0)))
    && (List.range 4).all (fun i => nonneg (3 + i))
    && (bit flags 3 || pos 3 || pos 4)

/-- 32-bit indices and binary64 numbers of a section. -/
def words32 (b : List Byte) (lo k : Nat) : List Nat := (List.range k).map fun i => field b (lo + 4 * i) 4
def words64 (b : List Byte) (lo k : Nat) : List Nat := (List.range k).map fun i => field b (lo + 8 * i) 8

/-- The entries of a sparse section by compressed columns, and whether its layout is sound (R599). -/
def sparseEntries (b : List Byte) (cols rows nnz : Nat) (upper : Bool) : Entries × Bool :=
  let starts := words32 b 0 (cols + 1)
  let idx := words32 b (4 * (cols + 1)) nnz
  let vals := words64 b (alignUp (4 * (cols + 1 + nnz)) 8) nnz
  let ok := decide (nth starts 0 1 = 0) && decide (nth starts cols 0 = nnz)
    && (List.range cols).all fun j =>
      let a := nth starts j 0
      let z := nth starts (j + 1) 0
      decide (a ≤ z) && (List.range (z - a)).all fun t =>
        decide (nth idx (a + t) rows < rows) && (!upper || decide (nth idx (a + t) 0 ≤ j))
          && (decide (t = 0) || decide (nth idx (a + t - 1) 0 < nth idx (a + t) 0))
  ((List.range cols).flatMap fun j => (span (nth starts j 0) (nth starts (j + 1) 0 - nth starts j 0)).map fun t =>
    (nth idx t 0, j, nth vals t 0), ok)

/-- P and A of a dense image. -/
def denseEntries (h : KeyImage) (bp ba : List Byte) : Entries × Entries :=
  ((List.range h.n).flatMap fun j => (List.range (j + 1)).map fun i => (i, j, field bp (8 * (j * (j + 1) / 2 + i)) 8),
   (List.range h.m).flatMap fun i => (List.range h.n).map fun j => (i, j, field ba (8 * (i * h.n + j)) 8))

/-- Both triangles of P. -/
def bothTriangles (p : Entries) : Entries := p ++ (p.filter fun e => e.1 ≠ e.2.1).map fun e => (e.2.1, e.1, e.2.2)

/-- A read of Keystone: the status it gives the command (0 for none), the first failing address, the bytes. -/
def keyFetch (s : State) (c : KeyCmd) (a n : Nat) : State × Nat × Nat × List Byte :=
  if n = 0 then (s, 0, 0, [])
  else
    let r := readRange s (keyVia c) a n
    if r.2.st > 1 then (r.1, KS.window, a + r.2.data.length, [])
    else match r.2.bad with
      | b :: _ => (r.1, KS.poison, a + b.1, [])
      | [] => (r.1, 0, 0, r.2.data)

/-- Reads the sections in order; stops at the first failure. -/
def keySectionsRead (s : State) (c : KeyCmd) (base : Nat) : List (Nat × Nat) → List (List Byte) → State × Nat × Nat × List (List Byte)
  | [], got => (s, 0, 0, got)
  | (o, n) :: rest, got =>
    let r := keyFetch s c (base + o) n
    if r.2.1 ≠ 0 then (r.1, r.2.1, r.2.2.1, got)
    else keySectionsRead r.1 c base rest (got ++ [r.2.2.2])

/-- The result block's bytes (R607). -/
def keyResultSize (n m flags : Nat) : Nat :=
  let y := alignUp (64 + 8 * n) 64
  if bit flags 4 then alignUp (y + 8 * m) 64 + 8 * m else y + 8 * m

/-- The command may use its context (R595). -/
def keyOwner (s : State) (c : KeyCmd) : Bool :=
  if c.ctx = 3 then c.issuer = .hw
  else match c.issuer with
    | .core _ => decide (rf s (R.KEY_CTX_CFG c.ctx) 2 0 = c.part)
    | _ => true

/-- Check 1 of R600 on a block (R596). -/
def keyBlockOk (b : List Byte) : Bool :=
  let op := field b 0 1
  (op = 1 || op = 2) && decide (field b 1 1 ≤ 3) && decide (field b 2 1 < 32) && decide (field b 3 1 = 0) && decide (field b 32 32 = 0)
    && (op = 2 || (decide (1 ≤ field b 4 4) && decide (field b 4 4 ≤ 1000000) && decide (field b 8 8 % 64 = 0) && decide (field b 14 2 = 0)
      && decide (field b 16 8 % 64 = 0) && decide (field b 22 2 = 0)))

/-! Results. -/

/-- The result header (R607), then the vectors given. OBJECTIVE of a command that ran no iteration is a free value. -/
def keyResult (s : State) (c : KeyCmd) (k : KeyCtx) (st stage : Nat) (vecs : Option (List Nat × List Nat)) : State × Nat × Nat :=
  let o := if c.iter = 0 then fresh s 64 else (s, objective k)
  let s := o.1
  let flags := field c.block 2 1
  let res := if c.iter = 0 then (0, 0) else residuals k
  let head := padTo 64 ([BitVec.ofNat 8 st, BitVec.ofNat 8 stage] ++ leBytes 2 0 ++ leBytes 4 c.iter ++ (c.block.drop 24).take 8
    ++ leBytes 8 res.1 ++ leBytes 8 res.2 ++ leBytes 8 o.2 ++ leBytes 8 c.tStart ++ leBytes 8 (tbNs s))
  let body := match vecs with
    | none => []
    | some (x, y) =>
      let b := padTo (alignUp (64 + 8 * k.n) 64 - 64) (x.flatMap (leBytes 8)) ++ y.flatMap (leBytes 8)
      if bit flags 4 then padTo (keyResultSize k.n k.m flags - 64 - 8 * k.m) b ++ k.z.flatMap (leBytes 8) else b
  let a := field c.block 16 8
  let w := writePieces (piecesOf a (head ++ body).length) s (keyVia c) a (head ++ body) []
  (w.1, w.2.1, w.2.2)

/-- A SOLVE that passed checks 1 to 5 completes: the result is written, the energy debited (R584, R607). A result write that fails ends it with
WINDOW. -/
def keyFinish (s : State) (c : KeyCmd) (st stage uj : Nat) (vecs : Option (List Nat × List Nat)) : State :=
  let r := keyResult s c (keyCtx s c.ctx) st stage vecs
  let s := if c.issuer = .hw then r.1 else solveDebit r.1 c.cls uj
  if r.2.1 ≠ MS.ok then keyFail s c KS.window 2 16 (some r.2.2) else keyComplete s c st

/-! The rows. -/

/-- The start of a SOLVE: the checks of R600 in order, then the loads; the command is left factorising or iterating. -/
def keyStart (s : State) (c : KeyCmd) : State :=
  let b := c.block
  let flags := field b 2 1
  let su := bit flags 0
  let a := field b 8 8
  let c := { c with tStart := tbNs s }
  let drop (s : State) : State := if su then updCtx s c.ctx fun k => { k with factored := false } else s
  if c.bad then keyFail s c KS.poison 3 0 none
  else if !keyBlockOk b then keyFail s c KS.badCommand 1 16 none
  else if !keyOwner s c then keyFail s c KS.notOwner 5 0 none
  else if !keyRangeOk s c .read a 128 then keyFail s c KS.window 2 0 (some a)
  else
    let r := keyFetch s c a 128
    let s := r.1
    if r.2.1 ≠ 0 then keyFail (drop s) c r.2.1 (if r.2.1 = KS.poison then 3 else 2) 0 (some r.2.2.1)
    else
      let h := keyImage r.2.2.2
      let secs := ((h.offs.zip h.sizes).zip (keySections h flags)).map fun e => (e.1.1, if e.2 then e.1.2 else 0)
      let ra := field b 16 8
      match secs.find? fun e => !keyRangeOk s c .read (a + e.1) e.2 with
      | some e => keyFail s c KS.window 2 0 (some ((a + e.1) % 2 ^ 48))
      | none =>
        if !keyRangeOk s c .write ra (keyResultSize h.n h.m flags) then keyFail s c KS.window 2 16 (some ra)
        else
          let k := keyCtx s c.ctx
          if !keyHeaderOk h flags then keyFail s c KS.badCommand 1 64 none
          else if !su && !k.factored then keyComplete s c KS.noFactor
          else if (!su && (decide (h.n ≠ k.n) || decide (h.m ≠ k.m) || (decide (h.form = 1) != k.sparse)))
              || (!bit flags 1 && (su || !k.vectors)) then keyFail s c KS.badCommand 1 64 none
          else
            let t := keySectionsRead s c a secs []
            let s := t.1
            if t.2.1 ≠ 0 then keyFail (drop s) c t.2.1 (if t.2.1 = KS.poison then 3 else 2) 0 (some t.2.2.1)
            else
              let sec (i : Nat) : List Byte := nth t.2.2.2 i []
              let sp := sparseEntries (sec 0) h.n h.n h.nnzP true
              let sa := sparseEntries (sec 1) h.n h.m h.nnzA false
              let dn := denseEntries h (sec 0) (sec 1)
              let order := if h.form = 1 then words32 (sec 7) 0 (h.n + h.m) else span h.n h.m ++ List.range h.n
              let perm := (List.range (h.n + h.m)).all order.contains
              if su && h.form = 1 && !(sp.2 && sa.2 && perm) then keyFail s c KS.badCommand 1 64 none
              else
                let new : KeyCtx :=
                  if su then { k with sparse := decide (h.form = 1), n := h.n, m := h.m, p := bothTriangles (if h.form = 1 then sp.1 else dn.1),
                                      a := if h.form = 1 then sa.1 else dn.2, order := order, factored := false, vectors := false,
                                      sigma := nth h.nums 1 0, alpha := nth h.nums 2 0, x := List.replicate h.n 0, z := List.replicate h.m 0,
                                      w := List.replicate h.m 0 }
                  else k
                let new := if bit flags 1 then { new with q := words64 (sec 2) 0 h.n, l := words64 (sec 3) 0 h.m, u := words64 (sec 4) 0 h.m,
                                                          vectors := true } else new
                let cols := columnCounts (factorPattern new)
                let dims := decide (1 ≤ h.n) && decide (1 ≤ h.m)
                  && (if h.form = 0 then decide (h.n ≤ 256) && decide (h.m ≤ 1024)
                      else decide (h.n ≤ 2048) && decide (h.m ≤ 8192) && (!su || (decide (h.nnzP + h.nnzA ≤ 65536) && decide (cols.sum ≤ 131072)
                        && cols.all (· ≤ 768))))
                let read := (if su then (new.p ++ new.a).map (·.2.2) else []) ++ (if bit flags 1 then new.q else [])
                  ++ (if bit flags 2 then words64 (sec 5) 0 h.n ++ words64 (sec 6) 0 h.m else []) ++ h.nums.drop 3
                  ++ (if su then h.nums.take 3 else [])
                let bounds := !bit flags 1 || ((new.l.all fun v => dFinite v || v = dNegInf) && new.u.all fun v => dFinite v || v = dInf)
                let c := { c with st := 2, eps := h.nums.drop 3 }
                if !dims then keyComplete s c KS.dimLimit
                else if !(read.all dFinite) || !bounds then keyFinish s c KS.nonfinite 1 0 none
                else if (new.l.zip new.u).any fun e => !dLe e.1 e.2 then keyFinish s c KS.primalInf 1 0 none
                else
                  let rho (i : Nat) : Nat :=
                    let l := nth new.l i 0
                    let u := nth new.u i 0
                    if feq (d64 l) (d64 u) then dScale (nth h.nums 0 0) h.eq
                    else if l = dNegInf ∧ u = dInf then dScale (nth h.nums 0 0) h.free
                    else nth h.nums 0 0
                  let new := if su then { new with rho := (List.range h.m).map rho } else new
                  let new := if bit flags 2 then
                      let x0 := words64 (sec 5) 0 h.n
                      { new with x := x0, z := dMatVec new.a new.m x0, w := (List.range h.m).map fun i =>
                          let y := field (sec 6) (8 * i) 8
                          if Config.keystoneForm 1 = 0 then dDiv y (nth new.rho i 0) else dMul y (dDiv dOne (nth new.rho i 0)) }
                    else new
                  let s := updCtx s c.ctx fun _ => new
                  keyCur s { c with st := if su then 1 else 2, anchorX := new.x, anchorY := dualOf new }

/-- Plumb's command starts (R575, R617): a SETUP where context 3 holds no factor, else with the cached one. -/
def keyPlumb (s : State) (c : KeyCmd) : State :=
  let c := { c with tStart := tbNs s }
  if (keyCtx s 3).factored then keyRun s { c with st := 2 }
  else keyRun (updCtx s 3 fun _ => { n := 192, m := 400 }) { c with st := 1 }

/-- An idle engine takes the next command, and it is no RELEASE (R600, R603). -/
def keySolve (s : State) : State :=
  if s.key.cur.isSome ∨ !accepts s P.key then s
  else match keyChoose s with
    | none => s
    | some c =>
      if c.st > 0 ∨ (c.issuer ≠ .hw ∧ field c.block 0 1 = 2) then s
      else if c.issuer = .hw then (keyPlumb (wake s 30) c)
      else (keyStart (keyRun (wake s 30) c) c)

/-- KEY_RELEASE (R596): an idle engine takes a RELEASE; the context's data and factor are discarded. The status of a RELEASE that is done is
none that R608 names for it: a free value among the codes in use. -/
def execKeyRelease (s : State) : Host.Outcome State Fault Refusal :=
  if s.key.cur.isSome ∨ !accepts s P.key then .next s
  else match keyChoose s with
    | none => .next s
    | some c =>
      if c.st > 0 ∨ c.issuer = .hw ∨ field c.block 0 1 ≠ 2 then .next s
      else
        let s := keyRun (wake s 30) c
        if c.bad then .next (keyFail s c KS.poison 3 0 none)
        else if !keyBlockOk c.block then .next (keyFail s c KS.badCommand 1 16 none)
        else if !keyOwner s c then .next (keyFail s c KS.notOwner 5 0 none)
        else
          let r := fresh s 16
          .next (keyComplete (updCtx r.1 c.ctx fun _ => {}) c (1 + r.2 % 14))

/-- The time of a segment, and the request latency beyond 1 µs (R610). -/
def keyTime (s : State) (us stallNs : Nat) : State := bump (bump s R.KEY_BUSY 31 0 us) R.KEY_STALL 31 0 stallNs

/-- The last segment of a factorisation ends (R602, R611). -/
def keySetup (us stallNs uj : Nat) (s : State) : State :=
  if !islandRuns s 30 then s else
  match s.key.cur with
  | none => s
  | some c =>
    if c.st ≠ 1 then s
    else
      let s := keyTime (wake s 30) us stallNs
      if c.stop then (keySwitch s)
      else if c.issuer = .hw then (keySwitch (keyCur (updCtx s c.ctx fun k => { k with factored := true }) { c with st := 2 }))
      else match factorise (keyCtx s c.ctx) with
        | none => (keySwitch (keyFinish (updCtx s c.ctx fun k => { k with factored := false }) c KS.factorFailed 2 uj none))
        | some k => (keySwitch (keyCur (updCtx s c.ctx fun _ => k) { c with st := 2 }))

/-- The iteration of a running command ends (R603 to R605, R607). The STAGE of a command that its iterations end is none (0) or iteration (3): a
free value. -/
def keyIterate (s : State) (c : KeyCmd) (uj : Nat) : State :=
  let k := iterate (keyCtx s c.ctx)
  let s := bump (updCtx s c.ctx fun _ => k) R.KEY_ITERS 31 0 1
  let c := { c with iter := c.iter + 1 }
  let y := dualOf k
  let dx := (k.x.zip c.anchorX).map fun e => dSub e.1 e.2
  let dy := (y.zip c.anchorY).map fun e => dSub e.1 e.2
  match testStatus k c.eps (bit (field c.block 2 1) 3) c.iter (field c.block 4 4) dx dy with
  | none => keyCur s (if c.iter % 16 = 0 then { c with anchorX := k.x, anchorY := y } else c)
  | some 5 => keyFinish s c KS.nonfinite 3 uj none
  | some st =>
    let f := fresh s 1
    keyFinish f.1 c st (3 * f.2) uj (some (if st = 4 then dx else k.x, if st = 3 then dy else y))

/-- A segment ends (R605, R611, R612): an iteration takes effect, a factorisation goes on; then the engine continues, ends or
switches. `uj` is the energy measured, debited where the command ends with it. -/
def keySegmentEnd (us stallNs uj : Nat) (s : State) : State :=
  if !islandRuns s 30 then s else
  match s.key.cur with
  | none => (keySwitch s)
  | some c =>
    let s := keyTime (wake s 30) us stallNs
    if c.stop ∨ c.st ≠ 2 then (keySwitch s)
    else if c.issuer = .hw then (keySwitch (keyCur (bump s R.KEY_ITERS 31 0 1) { c with iter := c.iter + 1 }))
    else (keySwitch (keyIterate s c uj))

/-- A waiting command with this identity completes ABORTED. -/
def fromHeld (id : Nat) (s : State) : State :=
  match s.key.held.find? fun c => c.id = id with
  | some c => keyComplete (if c.st = 1 then updCtx s c.ctx fun k => { k with factored := false } else s) c KS.aborted
  | none => s

/-- The command of an aborted job, or of Plumb, is to end (R616, R617): at once where it waits, else at its segment's end. -/
def keyAbort (s : State) (id : Nat) : State :=
  match s.key.cur with
  | some c => if c.id = id then keyCur s { c with stop := true } else fromHeld id s
  | none => fromHeld id s

/-- An uncorrectable word of the factor store is found by the running command (R618). -/
def keyStoreUe (s : State) : State :=
  match s.key.cur with
  | some c => raise (keyFail (updCtx s c.ctx fun _ => {}) c KS.poison 4 0 none) P.key 9
  | none => s

/-- KEY_CTX_STATE of context `c`. -/
def keyCtxState (s : State) (c : Nat) : Nat :=
  let k := keyCtx s c
  let running := s.key.cur.any fun d => d.ctx = c
  let waiting := s.key.held.any fun d => d.ctx = c
  (if running then 2 else if waiting then 3 else b2n k.factored) + 4 * b2n k.sparse + k.n % 4096 * 65536

/-- KEY_STATE. -/
def keyState (s : State) : Nat :=
  (match s.key.cur with
   | some c => 1 + 2 * (c.ctx % 4) + 8 * b2n (decide (c.st = 1))
   | none => 0) + 16 * (s.key.held.length + s.key.cur.toList.length)

end Sys2Proof.Machine
end

