-- ==== Sys2Proof/Machine/Plumb.lean ====
section
/-!
DEFINITION. Machine/Plumb.lean: sensors and clamps, power groups, the program of a period, the period boundary (18 R556 to R591).
-/
namespace Sys2Proof.Machine
open Sys2Proof

/-! Sensors, clamp and trip (R556, R557, R588, R590). -/

/-- The latest sample of a sensor in units of 0.125 °C. -/
def tempOf (s : State) (i : Nat) : Int := sx 16 (rf s (R.PLB_TEMP i) 15 0)

/-- The sensors of a group (R556). -/
def grpSensors (g : Nat) : List Nat :=
  if g < 8 then [2 * g, 2 * g + 1] else if g = 8 then [16] else if g = 9 then [17] else if g = 10 then [18] else [19, 20]

/-- The highest of some sensors. -/
def hottest (s : State) (l : List Nat) : Int := (l.map (tempOf s)).foldl max (tempOf s (l.headD 0))

/-- The temperature of a group. -/
def grpTemp (s : State) (g : Nat) : Int := hottest s (grpSensors g)

/-- PLB_HOT after a sample: the highest and the lowest-numbered sensor that shows it. -/
def setHot (s : State) : State :=
  let h := hottest s (List.range 24)
  let i := (firstIdx 24 fun i => tempOf s i = h).getD 0
  setReg s R.PLB_HOT (BitVec.ofNat 32 (unsx 16 h + i * 65536))

/-- Plumb's clamp messages (R75, R588). DEDUCED: a packet without data to each of the 13 islands of the CORE, MEDIA and SOLVE domains. -/
def clampMessages (s : State) : State := countFlits s .urgent (13 * messageFlits .urgent 0)

/-- The clamp engages (R588). -/
def engageClamp (s : State) (i : Nat) (t : Int) : State :=
  if rb s R.PLB_STATUS 8 then s
  else clampMessages <| raise (hwFault (wb s R.PLB_STATUS 8 true) P.plb 3 (unsx 16 t + i * 65536)) P.plb 9

/-- The trip (R590): THERM_TRIP_N falls and every scaled island is placed at point 0 with the clamp engaged. -/
def engageTrip (s : State) (i : Nat) (t : Int) : State :=
  let s := engageClamp s i t
  if rb s R.PLB_STATUS 9 then s
  else
    let s := raise (hwFault (wb s R.PLB_STATUS 9 true) P.plb 4 (unsx 16 t + i * 65536)) P.plb 10
    (List.range 11).foldl (fun s g =>
      (grpIslands g).foldl (fun s n => requestPoint s n (nth (grpPoints g) 0 ⟨0, 0⟩)) (wf s (R.PLB_GRP_POINT g) 2 0 0)) s

/-- A sample takes effect: its register, the clamp and the trip. -/
def takeSample (s : State) (i : Nat) (t : Int) : State :=
  let s := setHot (setReg s (R.PLB_TEMP i) (BitVec.ofNat 32 (unsx 16 t)))
  let s := if t ≥ 968 then engageClamp s i t else s
  if t ≥ 1040 then engageTrip s i t else s

/-- The sample of a sensor under a TEMP or TRIP_TEST injection (R730). -/
def heated (s : State) (i : Nat) (t : Int) : Int :=
  match s.flt.heat with
  | some h => if h.sensor = i ∧ s.clock ≤ h.stop then (if h.trip then 1040 else t + 8 * h.deg) else t
  | none => t

/-- SENSOR_SAMPLE (R556, R557): `sample` in units of 0.125 °C, `ok` the sensor's internal check. A sensor that failed stays failed; with no working
sensor left the substitute is a free value. -/
def execSensorSample (sensor : Nat) (sample : Int) (ok : Bool) (s : State) : Host.Outcome State Fault Refusal :=
  if sensor ≥ 24 then .next s
  else
    let sample := heated s sensor sample
    let bad := !ok || decide (sample < -320) || decide (sample > 1200)
    let was := rb s R.PLB_SENSOR_FAIL sensor
    let s := if bad && !was then wb (hwFault s P.plb 5 (sensor + unsx 16 sample * 65536)) R.PLB_SENSOR_FAIL sensor true else s
    if !bad && !was then .next (takeSample s sensor sample)
    else
      match (List.range 24).filter fun i => !rb s R.PLB_SENSOR_FAIL i with
      | [] => let r := fresh s 16; .next (takeSample r.1 sensor (sx 16 r.2))
      | w => .next (takeSample s sensor (hottest s w + 40))

/-- CLAMP_RELEASE (R588): every sample has been at most 116.0 °C for 1 ms; a trip holds. -/
def execClampRelease (s : State) : Host.Outcome State Fault Refusal :=
  if rb s R.PLB_STATUS 9 ∨ hottest s (List.range 24) > 928 then .next s else .next (clampMessages (wb s R.PLB_STATUS 8 false))

/-! Floors and safe rows (R560, R566). -/

/-- A core group belongs to an owned core whose island is not OFF. -/
def grpOwned (s : State) (g : Nat) : Bool := rb s (R.ASH_MODE g) 3 && decide ((island s (19 + g)).st ≠ .off)

/-- The entry of a slot is declared of sentinel class. -/
def sentinelSources (s : State) : List Nat :=
  (List.range 200).filter fun k => let d := declOf s k; d.valid && decide (d.cls = 0)

/-- A stream slot of sentinel class has EN 1: Enlarger consumes it (R350). -/
def sentinelOn (s : State) : Bool :=
  (List.range 36).any fun n =>
    rb s (R.ENL_SLOT_CFG 0 n) 16 && decide (rf s (R.ENL_SLOT_CFG 0 n) 19 18 = 0) && rb s (R.ENL_SLOT_LIST_HI 0 n) 16

/-- The floor of a group (R560). -/
def floorOf (s : State) (g : Nat) : Nat :=
  if g < 8 then
    let p := rf s (R.ASH_MODE g) 2 0
    if rb s (R.ASH_MODE g) 3 && hostsSentinel s p && rb s (R.DPT_PART_CTRL p) 0 then 2 else 0
  else if g = 9 then (if sentinelOn s then 2 else 0)
  else 0

/-- Full-load and idle power of a point in µW. -/
def ptFull (s : State) (g i : Nat) : Nat := rf s (R.PLB_PT_FULL g i) 15 0 * 10000
def ptIdle (s : State) (g i : Nat) : Nat := rf s (R.PLB_PT_IDLE g i) 15 0 * 10000

/-- The row of the safe table in use at a temperature: the first whose T_MAX covers it, or the last (R566). -/
def safeRow (s : State) : Nat :=
  let t := hottest s (List.range 24)
  (s.plb.safe.findIdx? fun r => decide (((8 * field r 0 1 : Nat) : Int) ≥ t)).getD (s.plb.safe.length - 1)

/-- The point of group `g` in a row. -/
def rowPoint (row : List Byte) (g : Nat) : Nat := bits (field row (2 + g / 2) 1) (4 * (g % 2) + 3) (4 * (g % 2))

/-- The power that a safe row grants each group, in µW (R577). -/
def safePower (s : State) (row : Nat) : List Nat :=
  (List.range 12).map fun g => ptFull s g (max (rowPoint (nth s.plb.safe row []) g) (floorOf s g))

/-! The reserve (R568 to R570). -/

/-- The sentinel models of a partition. -/
def sentinelModels (s : State) (p : Nat) : List Model :=
  (s.dpt.models.filter fun e => decide (e.2.st ≠ 0) && decide (e.2.cls = 0) && decide (e.2.part = p)).map (·.2)

/-- The lists of a slot, when they are valid. -/
def slotLists (s : State) (n : Nat) : List (List Byte) :=
  if rb s (R.ENL_SLOT_LIST_HI 0 n) 16 then
    [0, 1].map fun k => let a := listAddr s n k; let m := buffered s; memBytes m a (64 + 32 * min 64 (memByte m a).toNat)
  else []

/-- A slot's lists name the input group of a model: a valid group whose batch queue is the model's IN_QUEUE. -/
def slotFeeds (s : State) (n : Nat) (m : Model) : Bool :=
  (slotLists s n).any fun l => (List.range (min 64 (field l 0 1))).any fun i =>
    let g := (roiOf l i).group
    decide (g < 64) && rb s (R.ESL_GRP_CFG g) 10 && decide (grpQueue s g = m.inQ)

/-- F of R568. -/
def framesOf (s : State) (m : Model) (keep : Nat) : Nat :=
  let r := ((List.range 36).filter fun n => slotFeeds s n m).map fun n => ((slotSource s n).map fun k => (declOf s k).rate).getD 0
  ceilDiv (r.sum * keep) 2560000 + 1

/-- Emax of a model in nJ: the largest of its energies at points at or above the floor of 0.90 GHz. -/
def emax (m : Model) : Nat := (m.energy.drop 2).foldl max 0

/-- Rs_p in µJ. -/
def reserveOf (s : State) (p keep : Nat) : Nat :=
  ceilDiv (((sentinelModels s p).map fun m =>
    framesOf s m keep * emax m + (if m.fallback = 0xFFFF then 0 else emax (modelOf s m.fallback))).sum) 1000

/-- Rs_9 in µJ: F over every sentinel model, times the cost of a frame by the larger of a slot's lists. -/
def reserve9 (s : State) (keep : Nat) : Nat :=
  let f := ((List.range 8).flatMap fun p => (sentinelModels s p).map fun m => framesOf s m keep).sum
  let cost := (((List.range 36).filter fun n => enlClass s n = 0).flatMap fun n => (slotLists s n).map (listCost s)).foldl max 0
  ceilDiv (f * cost) 1000000

/-- The sum of the declared rates of sentinel entries, in 0.01 frames per second. -/
def sentinelRate (s : State) : Nat := ((sentinelSources s).map fun k => (declOf s k).rate).sum

/-- KEEP while thinning is engaged (R570). -/
def thinKeep (s : State) : Nat := ceilDiv 25600000 (max 1 (sentinelRate s))

/-- The core groups of a partition. -/
def partGroups (s : State) (p : Nat) : List Nat := (List.range 8).filter fun g => rb s (R.ASH_MODE g) 3 && decide (rf s (R.ASH_MODE g) 2 0 = p)

/-! The program (R572 to R574). -/

/-- lo[g] in µW. -/
def progLo (s : State) (mean : List Nat) (keep g : Nat) : Nat :=
  if g < 8 then
    if !grpOwned s g then 0
    else
      let p := rf s (R.ASH_MODE g) 2 0
      if hostsSentinel s p then ceilDiv (reserveOf s p keep * 100) (max 1 (partGroups s p).length) + ptIdle s g (floorOf s g)
      else ptIdle s g 0
  else if g = 11 then nth mean 11 0
  else ptIdle s g 0 + (if g = 9 then reserve9 s keep * 100 else 0)

/-- hi[g] in µW. -/
def progHi (s : State) (mean : List Nat) (g : Nat) : Nat :=
  if g < 8 then (if grpOwned s g then ptFull s g 4 else 0)
  else if g = 11 then nth mean 11 0
  else ptFull s g ((grpPoints g).length - 1)

/-- B of R572 as a power in µW: the waiting batches of the non-sentinel models on a core. -/
def backlog (s : State) (g : Nat) : Nat :=
  ((s.dpt.models.filter fun e => decide (e.2.st ≠ 0) && decide (e.2.cls ≠ 0) && bit e.2.cores g).map fun e =>
    ctxDepth (peekCtx s e.2.inQ) * energyAt e.2 (coreMhz s g) / (10 * max 1 (popc8 e.2.cores))).sum

/-- The coolant temperature (R574): as written within the last second, else T_COOL_MAX; units of 0.125 °C. -/
def coolant (s : State) : Int :=
  match s.plb.coolAt with
  | some t => if nowNs s - t ≤ 1000000000 then sx 16 (rf s R.PLB_T_COOL 15 0) else 8 * (s.plb.tCoolMax : Int)
  | none => 8 * (s.plb.tCoolMax : Int)

/-- The die power cap in µW. -/
def capUw (s : State) : Nat := rf s R.PLB_CAP 9 0 * 100000

/-- The program of a period from the mean powers of the groups and of the base over the ending period, in µW. -/
def formProgram (s : State) (mean : List Nat) (pb keep : Nat) : Program :=
  let hi (g : Nat) : Nat := progHi s mean g
  let d (g b : Nat) : Nat := if g < 8 then min (hi g) (nth mean g 0 + b) else if g = 11 then nth mean 11 0 else min (hi g) (nth mean g 0)
  let tms := (List.range 12).map fun g => grpTemp s g * 125000000 - ((nth s.plb.rise g 0 * nth mean g 0 : Nat) : Int)
  { lo := (List.range 12).map (progLo s mean keep), hi := (List.range 12).map hi,
    d0 := (List.range 12).map fun g => d g (if g < 8 ∧ grpOwned s g then backlog s g else 0), dk := (List.range 12).map fun g => d g 0,
    c := s.plb.granted, pb := pb, tc := coolant s, tm := tms.foldl max (nth tms 0 0), cap := capUw s, tLimit := rf s R.PLB_TLIMIT 7 0 }

/-- P of Keystone's form (R573), for variables (g, k) and (h, j) numbered 12k + g: weights `w` and λ × 16 = `lam`. -/
def Program.hessian (w : List Nat) (lam i j : Nat) : ℚ :=
  let l : ℚ := lam / 16
  if i = j then 2 * nth w (i % 12) 0 + (if i / 12 < 15 then 4 else 2) * l
  else if i = j + 12 ∨ j = i + 12 then -2 * l else 0

/-- q of Keystone's form in W. -/
def Program.gradient (p : Program) (w : List Nat) (lam i : Nat) : ℚ :=
  let g := i % 12
  let d : ℚ := nth (if i / 12 = 0 then p.d0 else p.dk) g 0 / 1000000
  (-2 : ℚ) * nth w g 0 * d - (if i / 12 = 0 then 2 * (lam / 16) * (nth p.c g 0 / 1000000) else 0)

/-- α and β of R574 from RTH and CAP. -/
def thermalAlpha (rth heat : Nat) : ℚ := 1000 / (rth * heat)
def thermalBeta (heat : Nat) : ℚ := 1 / heat

/-- A constraint row's coefficient of variable `i` (R574): rows 0 to 191 the variables, 192 to 207 the sums, 208 to 399 the temperatures. -/
def Program.coefficient (rise : List Nat) (rth heat row i : Nat) : ℚ :=
  if row < 192 then (if row = i then 1 else 0)
  else if row < 208 then (if i / 12 = row - 192 then 1 else 0)
  else
    let k := (row - 208) / 12
    let j := i / 12
    (if j ≤ k then thermalBeta heat * (1 - thermalAlpha rth heat) ^ (k - j) else 0)
      + (if j = k ∧ i % 12 = (row - 208) % 12 then (nth rise (i % 12) 0 : ℚ) / 1000 else 0)

/-- T0 of R574 in °C. -/
def Program.start (p : Program) (rth heat : Nat) : ℚ :=
  let tc : ℚ := p.tc / 8
  tc + (1 - thermalAlpha rth heat) * (p.tm / 1000000000 - tc) + thermalBeta heat * ((p.c.sum + p.pb : Nat) / 1000000)

/-- The bounds of a row. -/
def Program.bounds (p : Program) (rth heat row : Nat) : ℚ × ℚ :=
  if row < 192 then (nth p.lo (row % 12) 0 / 1000000, nth p.hi (row % 12) 0 / 1000000)
  else if row < 208 then (0, ((p.cap : ℚ) - p.pb) / 1000000)
  else
    let k := (row - 208) / 12
    let a := 1 - thermalAlpha rth heat
    (-1000000000, p.tLimit - p.tc / 8 - a ^ (k + 1) * (p.start rth heat - p.tc / 8)
      - thermalBeta heat * (p.pb / 1000000) * ((List.range (k + 1)).map fun j => a ^ (k - j)).sum)

/-- The program is feasible in its bounds and its cap rows. -/
def Program.feasible (p : Program) : Bool := (p.lo.zip p.hi).all (fun e => decide (e.1 ≤ e.2)) && decide (p.lo.sum + p.pb ≤ p.cap)

/-- p̂ from the powers of step 0 of a solution (R577). -/
def planPower (p : Program) (x : List Nat) : List Nat :=
  let q := (List.range 12).map fun g => min (nth p.hi g 0) (max (nth p.lo g 0) (nth x g 0))
  if q.sum + p.pb ≤ p.cap then q
  else
    let room := p.cap - p.pb - p.lo.sum
    let excess := (q.zip p.lo).map fun e => e.1 - e.2
    (p.lo.zip excess).map fun e => e.1 + room * e.2 / max 1 excess.sum

/-! The boundary (R561, R563, R577 to R579). -/

/-- The highest point that a power covers, raised to the floor (R578). -/
def pointFor (s : State) (g power : Nat) : Nat :=
  let is := (List.range (grpPoints g).length).filter fun i => decide (ptFull s g i ≤ power)
  max (is.getLastD 0) (floorOf s g)

/-- The point of a group takes effect: requested of every island of it that is not OFF, when it changes (R561) and where the ledger opens, behind the points
that the boot ROM set itself; after a trip point 0 is held (R590). -/
def grantGroup (s : State) (g power : Nat) : State :=
  let i := if rb s R.PLB_STATUS 9 then 0 else pointFor s g power
  let was := rf s (R.PLB_GRP_POINT g) 2 0
  let s := setReg s (R.PLB_GRP_POINT g) (BitVec.ofNat 32 (i + floorOf s g * 16 + min 65535 (power / 10000) * 65536))
  if i = was ∧ s.plb.opened then s
  else (grpIslands g).foldl (fun s n => requestPoint s n (nth (grpPoints g) i ⟨0, 0⟩)) s

/-- The floor of a group has risen: it holds at once (R350, R560). -/
def raiseFloor (s : State) (g : Nat) : State :=
  let f := floorOf s g
  let s := wf s (R.PLB_GRP_POINT g) 6 4 f
  if rb s R.PLB_STATUS 9 ∨ f ≤ rf s (R.PLB_GRP_POINT g) 2 0 then s
  else (grpIslands g).foldl (fun s n => requestPoint s n (nth (grpPoints g) f ⟨0, 0⟩)) (wf s (R.PLB_GRP_POINT g) 2 0 f)

/-- An island that is to be in neither RETAIN nor OFF leaves them (R60, R95, R350). -/
def keepUp (s : State) (n : Nat) : State :=
  let i := island s n
  if i.fenced ∨ i.initing then s
  else if i.st = .off then updIsl (loseEngines s n) n fun _ => { initing := true }
  else updIsl s n fun i => { i with st := if i.st = .retain then .on else i.st, nextState := i.nextState.filter (decide <| · = .gated) }

/-- Islands 28 and 29 and their point while a slot of sentinel class is enabled (R350). -/
def holdMedia (s : State) : State := if sentinelOn s then raiseFloor (keepUp (keepUp s 28) 29) 9 else s

/-- Powers, points, allowances and reserves of a period take effect (R577 to R579): accounts in pJ. -/
def grantPeriod (s : State) (power : List Nat) (keep : Nat) : State :=
  let s := (List.range 12).foldl (fun s g => grantGroup s g (nth power g 0)) s
  let e (g : Nat) : Nat := nth power g 0 / 100
  let rs := (List.range 8).map fun p => reserveOf s p keep
  let r9 := reserve9 s keep
  let allow := (List.range 8).map fun p => (((partGroups s p).map e).sum - nth rs p 0) * 1000000
  let grp := (List.range 12).map fun g => if g = 9 then (e 9 - r9) * 1000000 else if g = 8 ∨ g = 10 then e g * 1000000 else 0
  updPlb s fun b => { b with
    granted := power, partAllow := allow, partLeft := allow, partRes := rs.map (· * 1000000), partResLeft := rs.map (· * 1000000),
    grpAllow := grp, grpLeft := grp, res9 := r9 * 1000000, res9Left := r9 * 1000000, untouched := List.range 8, overdrawn := [] }

/-- PLB_STATUS.SOURCE and ROW. -/
def setSource (s : State) (src row : Nat) : State := wf (wf s R.PLB_STATUS 1 0 src) R.PLB_STATUS 7 4 row

/-- Full-load and idle power of the points of a group in units of 10 mW (R559). -/
def pointPower (g : Nat) : List (Nat × Nat) :=
  if g < 8 then [(540, 90), (810, 110), (1150, 130), (1580, 160), (2100, 200)]
  else if g = 8 then [(90, 20), (150, 25), (250, 30), (400, 40)]
  else if g = 9 then [(70, 15), (110, 18), (190, 23), (300, 30)]
  else if g = 10 then [(100, 20), (190, 28), (350, 40)]
  else [(600, 200)]

/-- The boot ROM writes PLB_PT_FULL and PLB_PT_IDLE. DESIGN CHOICE: at step 9, before the ledger opens on them; the spec names no step. -/
def writePoints (s : State) : State :=
  (List.range 12).foldl (fun s g => (pointPower g).zipIdx.foldl (fun s e =>
    setReg (setReg s (R.PLB_PT_FULL g e.2) (BitVec.ofNat 32 e.1.1)) (R.PLB_PT_IDLE g e.2) (BitVec.ofNat 32 e.1.2)) s) s

/-- The ledger opens on a safe row (step 9 of the bring-up). -/
def openLedger (s : State) : State :=
  let s := writePoints s
  let row := safeRow s
  updPlb (grantPeriod (setSource s 3 row) (safePower s row) 256) fun b => { b with opened := true }

/-- Thinning is engaged for the coming period (R570). -/
def thinNeeded (s : State) (mean : List Nat) (pb row : Nat) : Bool :=
  decide (sentinelRate s > 100000)
    && (!(formProgram s mean pb 256).feasible
      || (List.range 8).any fun p => decide (((partGroups s p).map fun g => nth (safePower s row) g 0 / 100).sum < reserveOf s p 256))

/-- THIN and KEEP (R570, R571): PLB.THIN on engagement; the credits of the sources are zeroed. -/
def setThin (s : State) (on : Bool) : State :=
  let was := rb s R.PLB_SENT 9
  let s := setReg s R.PLB_SENT (BitVec.ofNat 32 ((if on then min 256 (thinKeep s) else 256) + 512 * b2n on))
  if on && !was then
    raise { s with ing := { s.ing with src := s.ing.src.map fun e => (e.1, { e.2 with credit := 0 }) } } P.plb 11
  else s

/-- Keystone can take Plumb's program: its island runs and its page is not fenced. -/
def keyUsable (s : State) : Bool := islandRuns s 30

/-- PERIOD_BOUNDARY (R563): the plan solved in the ending period, or a safe row, takes effect; measurements are latched; the next program is formed
and submitted. `uj` is the energy of each island over the ending period in µJ. -/
def execPeriodBoundary (uj : List Nat) (s : State) : Host.Outcome State Fault Refusal :=
  if !s.plb.opened then .next s
  else
    let s := updPlb s fun b => { b with energy := (List.range 39).map fun n => (nth b.energy n 0 + nth uj n 0) % 2 ^ 64 }
    let mean := (List.range 12).map fun g => 100 * ((grpIslands g).map fun n => nth uj n 0).sum
    let pb := 100 * ((List.range 39).map fun n => nth uj n 0).sum - mean.sum
    let row := safeRow s
    let forced := rb s R.PLB_CTRL 0 || !s.plb.planEn
    let thin := thinNeeded s mean pb row
    let s := setThin s thin
    let keep := rf s R.PLB_SENT 8 0
    let first := decide (rf s R.PLB_PERIOD 31 0 = 0)
    let s := if forced then grantPeriod (setSource s 2 row) (safePower s row) keep
      else match s.plb.plan with
        | some p => grantPeriod (wf s R.PLB_STATUS 1 0 0) p keep
        | none =>
          if first then grantPeriod (setSource s 3 row) (safePower s row) keep
          else grantPeriod (bump (setSource s 1 row) R.PLB_FAILS 31 0 1) (safePower s row) keep
    let s := setReg s R.PLB_PERIOD (rd s R.PLB_PERIOD + 1)
    let prog := formProgram s mean pb keep
    let s := updPlb s fun b => { b with plan := none, prog := some prog }
    if forced ∨ !keyUsable s ∨ s.plb.solving.isSome then .next s
    else if !prog.feasible then .next (raise (hwFault s P.plb 7 (min 65535 ((prog.lo.sum + pb) / 10000))) P.plb 13)
    else
      let r := keySubmit s { id := 0, ctx := 3, issuer := .hw, cls := 0 }
      .next (updPlb r.1 fun b => { b with solving := some r.2 })

/-- The command of context 3 ends with a status and a number of iterations. -/
def endSolve (s : State) (id st iter : Nat) : State :=
  let s := updPlb s fun b => { b with solving := none }
  match (s.key.cur.toList ++ s.key.held).find? fun c => c.id = id with
  | some c => keySwitch (keyComplete s { c with iter := iter } st)
  | none => s

/-- PLAN_ACCEPT (R575): Keystone reports SOLVED `us` µs after the boundary with the powers `x` of step 0, in µW. -/
def execPlanAccept (us iter : Nat) (x : List Nat) (s : State) : Host.Outcome State Fault Refusal :=
  match s.plb.solving, s.plb.prog with
  | some id, some p =>
    if us ≥ 2000 then .next s
    else
      let s := endSolve s id KS.solved iter
      let s := setReg s R.PLB_PLAN (BitVec.ofNat 32 (us + KS.solved * 4096 + min iter 255 * 65536))
      .next (updPlb s fun b => { b with plan := some (planPower p x), degraded := false })
  | _, _ => .next s

/-- PLAN_ABANDON (R575, R576, R617): no result before 2,000 µs, or a status other than SOLVED; Keystone's command ends at its next segment end. -/
def execPlanAbandon (us iter status : Nat) (s : State) : Host.Outcome State Fault Refusal :=
  match s.plb.solving with
  | none => .next s
  | some id =>
    let late := decide (us ≥ 2000)
    let s := if late then keyAbort (updPlb s fun b => { b with solving := none }) id else endSolve s id (status % 16) iter
    let s := setReg s R.PLB_PLAN (BitVec.ofNat 32 ((if late then 2047 else us) + status % 16 * 4096 + min iter 255 * 65536))
    let s := updPlb s fun b => { b with plan := none, degraded := true }
    let s := if late then hwFault s P.plb 1 (rd s R.PLB_PERIOD).toNat else hwFault s P.plb 2 (status % 16 + min iter 255 * 256)
    .next (raise s P.plb 8)

end Sys2Proof.Machine
end

