-- ==== Sys2Proof/Machine/Levels.lean ====
section
/-!
DEFINITION. Machine/Levels.lean: what follows from the state itself and is brought up to date as time passes: the STATE events of the pages (02),
partition states (17 R525), the alert capability (21 R672), the level bits of FLT_SAFE_STATUS (24 R721 to R724, R726); and the passing of one AON
cycle.
-/
namespace Sys2Proof.Machine
open Sys2Proof

/-- The page indexes at which a page is populated (R47). -/
def pages : List Nat := (List.range 64).filter fun i => (pageOf i).isSome

/-- QUIESCED, DEGRADED and FENCED of a page are brought up to date; a change raises STATE (02). -/
def settlePage (s : State) (pg : Nat) : State :=
  let v := bits (statusWord s pg) 3 1
  if v = SMap.getD s.shown pg 0 then s else raise { s with shown := SMap.put s.shown pg v 0 } pg 2

/-- Island `n` is fenced. -/
def fenced (s : State) (n : Nat) : Bool := (island s n).fenced

/-- A stream slot is of sentinel class and its entry is enabled: the slots of the enabled sentinel sources. -/
def sentinelSlots (s : State) : List Nat :=
  ((sentinelSources s).filter fun k => (declOf s k).en).map fun k => (declOf s k).slot

/-- SENT_INPUT (R721, R726): a sentinel slot stalls, or a fenced media or link island stops one. -/
def inputLost (s : State) : Bool :=
  !s.flt.stalled.isEmpty
    || ((fenced s 28 || fenced s 29) && !(sentinelSlots s).isEmpty)
    || (fenced s 27 && (sentinelSources s).any fun k => (declOf s k).en && decide ((declOf s k).format ≥ 0x10))
    || (fenced s 36 && (sentinelSources s).any fun k => (declOf s k).en && decide (k < 128))
    || (fenced s 37 && (sentinelSources s).any fun k => (declOf s k).en && decide (128 ≤ k))

/-- CORE_LOST (R721, R726): a core of a sentinel-hosting partition is withdrawn or fenced. -/
def coreLost (s : State) : Bool :=
  (List.range 8).any fun p => hostsSentinel s p && (bitList (rf s (R.DPT_PART_CFG p) 7 0) 8).any fun n =>
    bit (rf s (R.DPT_PART_STATUS p) 15 8) n || fenced s (19 + n)

/-- What ends NOT_READY (R723): RUN, a sentinel job ended on time or no partition that hosts sentinels, and every enabled sentinel slot has
delivered a frame. -/
def sentinelReady (s : State) : Bool :=
  decide (rf s R.BOOT_PHASE 3 0 = 7) && (s.flt.sentDone || !(List.range 8).any (hostsSentinel s))
    && (sentinelSources s).all fun k => !(declOf s k).en || (srcOf s k).delivered

/-- The level bits of FLT_SAFE_STATUS follow their conditions (R721, R723); SENT_LOST follows the job counts. -/
def safeLevels (s : State) : State :=
  let s := safeSet s 2 (inputLost s)
  let s := safeSet s 3 (decide (audLevel s = 2) || fenced s 38)
  let s := safeSet s 6 (coreLost s)
  let s := safeSet s 7 (rb s R.PLB_STATUS 8)
  let s := safeSet s 8 (rb s R.PLB_STATUS 9)
  let s := safeSet s 9 (fenced s 2 || fenced s 18)
  if rb s R.FLT_SAFE_STATUS 12 && sentinelReady s then safeSet s 12 false else s

/-- Everything that follows from the state is brought up to date. -/
def settle (s : State) : State := safeLevels (audSettle (settleParts (pages.foldl settlePage s)))

/-- FAULT_N is low (R722): a bit of FLT_SAFE_STATUS is 1, or the die is in reset or unpowered (R773). -/
def faultLow (s : State) : Bool := s.boot.held || decide (rd s R.FLT_SAFE_STATUS ≠ 0)

/-- Core `n` runs for one AON cycle of 4 ns: its cycles are counted, those while it is not IDLE in ASH_CYCLES too (12 R426, Register map); a core whose island
is not ON has no clock. -/
def coreTick (s : State) (n : Nat) : State :=
  let d := if (island s (19 + n)).st = .on ∧ islandRuns s (19 + n) then 4 * shownMhz s (19 + n) else 0
  if d = 0 then s
  else
    let k := coreOf s n
    let s := updCore s n fun k => { k with cycles := k.cycles + d }
    if k.active = 0 then s else bump s (R.ASH_CYCLES n) 31 0 ((k.cycles + d) / 1000 - k.cycles / 1000)

/-- One AON cycle of 4 ns passes (R294, R295): the die's time base and the cores' cycle counts advance and the levels follow; a die in reset keeps still. -/
def tick (s : State) : State :=
  let s := { s with clock := s.clock + 1 }
  if s.boot.held then s
  else
    let d := slewPart s.tb.slew
    settle ((List.range 8).foldl coreTick { s with tb := { s.tb with acc := s.tb.acc + (tbStride s + d).toNat, slew := s.tb.slew - d } })

end Sys2Proof.Machine
end

