-- ==== Sys2Proof/Machine/Modular.lean ====
section
/-!
DEFINITION. Machine/Modular.lean: the arithmetic of Safelight: Barrett reduction, the transforms, the fast base extension and the mask
words from SHAKE256 (20 R623 to R627, R634).
-/
namespace Sys2Proof.Machine
open Sys2Proof

/-- The Barrett reciprocal of a modulus (R623). -/
def barrettMu (m : Nat) : Nat := 2 ^ (2 * bitLen m + 4) / m

/-- One conditional subtraction of R624. -/
def subOnce (r m : Nat) : Nat := if m ≤ r then r - m else r

/-- The reduction of R624. -/
def barrett (m x : Nat) : Nat :=
  let k := bitLen m
  let t := x / 2 ^ (k - 1) * barrettMu m / 2 ^ (k + 5)
  subOnce (subOnce (x - t * m) m) m

/-- A value reduced modulo `m`: under R624 where it lies in its range, else as the residue that R626 names. -/
def reduce (m x : Nat) : Nat := if x < 2 ^ (2 * bitLen m + 4) then barrett m x else x % m

/-- A power modulo `m` by squaring; `fuel` bounds the bits of the exponent. -/
def powMod : Nat → Nat → Nat → Nat → Nat
  | 0, _, _, m => 1 % m
  | fuel + 1, a, e, m =>
    let h := powMod fuel (a * a % m) (e / 2) m
    if e % 2 = 1 then h * a % m else h

/-- The steps of the extended algorithm of Euclid: remainders and the coefficients of `a`. -/
def euclid : Nat → Nat → Nat → Int → Int → Nat × Int
  | 0, r, _, u, _ => (r, u)
  | fuel + 1, r, t, u, v => if t = 0 then (r, u) else euclid fuel t (r % t) v (u - (r / t : Nat) * v)

/-- The inverse of `a` modulo `m`; 0 where there is none (R621). -/
def invMod (a m : Nat) : Nat :=
  let e := euclid (2 * bitLen m + 2) (a % m) m 1 0
  if e.1 = 1 then (e.2 % (m : Int)).toNat else 0

/-- `v` with its `n` bits in reverse order. -/
def brv (n v : Nat) : Nat := (List.range n).foldl (fun r i => 2 * r + v / 2 ^ i % 2) 0

/-- The value of a polynomial at a point modulo `q`. -/
def evalPoly (q x : Nat) (a : List Nat) : Nat := a.foldr (fun c r => (c + x * r) % q) 0

/-- The forward transform with root ψ (R626): evaluations in bit-reversed order. -/
def forwardNtt (q psi n : Nat) (a : List Nat) : List Nat :=
  (List.range (2 ^ n)).map fun j => evalPoly q (powMod 18 psi (2 * brv n j + 1) q) a

/-- The inverse transform (R626): N⁻¹ times the evaluation at the powers of ψ⁻¹ of the input in natural order. -/
def inverseNtt (q psi n : Nat) (d : List Nat) : List Nat :=
  let ps := invMod psi q
  let nat := (List.range (2 ^ n)).map fun j => nth d (brv n j) 0
  let inv := invMod (2 ^ n) q
  (List.range (2 ^ n)).map fun i =>
    inv * (powMod 18 ps i q * evalPoly q (powMod 18 ps (2 * i) q) nat % q) % q

/-- The automorphism X → X^G (R626): the coefficient at `t` comes from the one index whose product with G is t modulo N. -/
def automorph (q g n : Nat) (a : List Nat) : List Nat :=
  let big := 2 ^ n
  let gi := invMod g (2 * big)
  (List.range big).map fun t =>
    let j := t * gi % (2 * big)
    if j < big then nth a j 0 else (q - nth a (j - big) 0) % q

/-- q̂_i of the primes `qs`: the product of the others. -/
def coPrime (qs : List Nat) (i : Nat) : Nat := (qs.zipIdx.map fun e => if e.2 = i then 1 else e.1).foldl (· * ·) 1

/-- [A_i × q̂_i⁻¹] modulo q_i (R626). -/
def extScale (qs : List Nat) (i : Nat) (a : List Nat) : List Nat :=
  let q := nth qs i 1
  let v := invMod (coPrime qs i) q
  a.map fun x => x * v % q

/-- A row of the fast base extension modulo `p` (R626) from the scaled rows. -/
def extRow (qs : List Nat) (p n : Nat) (rows : List (List Nat)) : List Nat :=
  let hat := (List.range qs.length).map fun i => coPrime qs i % p
  (rows.zip hat).foldl (fun acc r => (acc.zip r.1).map fun e => (e.1 + e.2 * r.2) % p) (List.replicate n 0)

/-! SHAKE256 (FIPS 202), as far as one block in and one block out. -/

/-- A 64-bit lane rotated left. -/
def rotl64 (v k : Nat) : Nat := (v <<< (k % 64)) % 2 ^ 64 + v >>> (64 - k % 64) % 2 ^ (k % 64)

/-- The rotation offsets of ρ by lane x + 5y. -/
def rhoOffsets : List Nat := [0, 1, 62, 28, 27, 36, 44, 6, 55, 20, 3, 10, 43, 25, 39, 41, 45, 15, 21, 8, 18, 2, 61, 56, 14]

/-- The round constants of ι. -/
def iotaWords : List Nat :=
  [0x0000000000000001, 0x0000000000008082, 0x800000000000808A, 0x8000000080008000, 0x000000000000808B, 0x0000000080000001,
   0x8000000080008081, 0x8000000000008009, 0x000000000000008A, 0x0000000000000088, 0x0000000080008009, 0x000000008000000A]
  ++ [0x000000008000808B, 0x800000000000008B, 0x8000000000008089, 0x8000000000008003, 0x8000000000008002, 0x8000000000000080,
   0x000000000000800A, 0x800000008000000A, 0x8000000080008081, 0x8000000000008080, 0x0000000080000001, 0x8000000080008008]

/-- One round of Keccak-f[1600] on 25 lanes. -/
def keccakRound (a : List Nat) (rc : Nat) : List Nat :=
  let g (l : List Nat) (x y : Nat) : Nat := nth l (x % 5 + 5 * (y % 5)) 0
  let col := (List.range 5).map fun x => (List.range 5).foldl (fun v y => v ^^^ g a x y) 0
  let d := (List.range 5).map fun x => nth col ((x + 4) % 5) 0 ^^^ rotl64 (nth col ((x + 1) % 5) 0) 1
  let t := (List.range 25).map fun i => rotl64 (nth a i 0 ^^^ nth d (i % 5) 0) (nth rhoOffsets i 0)
  let b := (List.range 25).map fun i => g t (i % 5 + 3 * (i / 5)) (i % 5)
  (List.range 25).map fun i =>
    let x := i % 5
    let y := i / 5
    g b x y ^^^ ((2 ^ 64 - 1 - g b (x + 1) y) &&& g b (x + 2) y) ^^^ (if i = 0 then rc else 0)

/-- SHAKE256 of a message shorter than 136 bytes: the first `n` ≤ 136 bytes of output. -/
def shake256 (msg : List Byte) (n : Nat) : List Byte :=
  let blk := padTo 135 (msg ++ [0x1F]) ++ [0x80]
  let blk := if msg.length = 135 then msg ++ [0x9F] else blk
  let st := (List.range 25).map fun i => if i < 17 then field blk (8 * i) 8 else 0
  ((iotaWords.foldl keccakRound st).flatMap (leBytes 8)).take n

/-- The mask word m[j] of prime index `r` (R634). -/
def maskWord (seed nonce : List Byte) (r j q : Nat) : Nat :=
  let z := shake256 (seed ++ nonce ++ [0x4D, BitVec.ofNat 8 r] ++ leBytes 4 j) 16
  reduce q (field z 8 8 % q * (2 ^ 64 % q) + field z 0 8)

end Sys2Proof.Machine
end

