-- ==== Sys2Proof/Machine/Safelight.lean ====
section
/-!
DEFINITION. Machine/Safelight.lean: Safelight's commands, slots, vault and operations (20 R620 to R646).
-/
namespace Sys2Proof.Machine
open Sys2Proof

/-- `s` with Safelight changed. -/
def updSfl (s : State) (f : Safelight → Safelight) : State := { s with sfl := f s.sfl }

/-- The slots. -/
def basisOf (s : State) (b : Nat) : Basis := nth s.sfl.basis b {}
def modulusOf (s : State) (m : Nat) : Modulus := nth s.sfl.mods m {}
def vaultOf (s : State) (v : Nat) : VaultSlot := nth s.sfl.vault v {}

/-- `s` with a slot replaced. -/
def putBasis (s : State) (b : Nat) (x : Basis) : State := updSfl s fun k => { k with basis := updAt k.basis b fun _ => x }
def putModulus (s : State) (m : Nat) (x : Modulus) : State := updSfl s fun k => { k with mods := updAt k.mods m fun _ => x }
def putVault (s : State) (v : Nat) (x : VaultSlot) : State := updSfl s fun k => { k with vault := updAt k.vault v fun _ => x }

/-- The status codes of R641. -/
abbrev SS.done : Nat := 1
abbrev SS.vaultDenied : Nat := 2
abbrev SS.noSlot : Nat := 3
abbrev SS.basisBad : Nat := 4
abbrev SS.badCommand : Nat := 8
abbrev SS.window : Nat := 9
abbrev SS.poison : Nat := 0xA
abbrev SS.notOwner : Nat := 0xC
abbrev SS.busy : Nat := 0xD
abbrev SS.aborted : Nat := 0xE

/-! The fields of a command block (R638). -/

abbrev SflCmd.op (c : SflCmd) : Nat := field c.block 0 1
abbrev SflCmd.flags (c : SflCmd) : Nat := field c.block 1 1
abbrev SflCmd.blind (c : SflCmd) : Bool := bit c.flags 0
abbrev SflCmd.vaultB (c : SflCmd) : Bool := bit c.flags 1
abbrev SflCmd.slot (c : SflCmd) : Nat := field c.block 2 1
abbrev SflCmd.slot2 (c : SflCmd) : Nat := field c.block 3 1
abbrev SflCmd.vslot (c : SflCmd) : Nat := field c.block 4 1
abbrev SflCmd.bslot (c : SflCmd) : Nat := field c.block 5 1
abbrev SflCmd.first (c : SflCmd) : Nat := field c.block 6 1
abbrev SflCmd.nrows (c : SflCmd) : Nat := field c.block 7 1
abbrev SflCmd.param (c : SflCmd) : Nat := field c.block 8 8
abbrev SflCmd.a (c : SflCmd) : Nat := field c.block 16 8
abbrev SflCmd.b (c : SflCmd) : Nat := field c.block 24 8
abbrev SflCmd.c (c : SflCmd) : Nat := field c.block 32 8
abbrev SflCmd.d (c : SflCmd) : Nat := field c.block 40 8

/-- The opcodes of R626. -/
def sflOpcodes : List Nat := [0x01, 0x02, 0x10, 0x11, 0x12, 0x13, 0x14, 0x18, 0x19, 0x1A, 0x1B, 0x20, 0x21, 0x30, 0x31]

/-- The command works on polynomial rows of a basis slot. -/
def SflCmd.poly (c : SflCmd) : Bool := decide (0x10 ≤ c.op) && decide (c.op ≤ 0x1B)

/-- The command works on large elements. -/
def SflCmd.large (c : SflCmd) : Bool := c.op = 0x20 || c.op = 0x21

/-- Only the PF and Fypajo may issue it (R640). -/
def SflCmd.managed (c : SflCmd) : Bool := c.op = 1 || c.op = 2 || c.op = 0x30 || c.op = 0x31

/-- The limbs of a number of `bits` bits. -/
def limbs (bits : Nat) : Nat := ceilDiv bits 64

/-- The bytes of a vault import (R631). -/
def importSize (kind size : Nat) : Nat := if kind = 1 then 2 ^ size / 4 else if kind = 2 then limbs size * 8 else 32

/-- The operands in use: number (0 A, 1 B, 2 C, 3 D), address, bytes, for the slots as they stand (R626, R638). -/
def sflRanges (s : State) (c : SflCmd) : List (Nat × Nat × Nat) :=
  let n := 2 ^ (basisOf s c.slot).n * 8
  let rows := c.nrows * n
  let w := limbs (modulusOf s c.slot).bits * 8
  let lg := (field c.block 8 2 - 1) * alignUp w 64 + w
  match c.op with
  | 0x01 => [(0, c.a, c.param / 256 % 256 * 16)]
  | 0x02 => [(0, c.a, limbs (c.param % 2 ^ 16) * 8)]
  | 0x10 => (0, c.a, rows) :: (if c.vaultB then [] else [(1, c.b, rows)]) ++ [(3, c.d, rows)]
  | 0x11 | 0x12 => [(0, c.a, rows), (1, c.b, rows), (3, c.d, rows)]
  | 0x13 => (0, c.a, rows) :: (if c.vaultB then [] else [(1, c.b, rows)]) ++ [(2, c.c, rows), (3, c.d, rows)]
  | 0x14 | 0x18 | 0x19 | 0x1A => [(0, c.a, rows), (3, c.d, rows)]
  | 0x1B => [(0, c.a, (basisOf s c.slot).ps.length * n), (3, c.d, (basisOf s c.slot2).ps.length * n)]
  | 0x20 => (0, c.a, lg) :: (if c.vaultB then [] else [(1, c.b, lg)]) ++ [(3, c.d, lg)]
  | 0x21 => [(0, c.a, lg), (1, c.b, lg), (3, c.d, lg)]
  | 0x30 => [(0, c.a, importSize (c.param % 256) (c.param / 256 % 2 ^ 16))]
  | _ => []

/-- The slots that it names are VALID, with matching N (check 3). -/
def sflSlotsOk (s : State) (c : SflCmd) : Bool :=
  if c.op = 0x1B then (basisOf s c.slot).valid && (basisOf s c.slot2).valid && decide ((basisOf s c.slot).n = (basisOf s c.slot2).n)
  else if c.poly then (basisOf s c.slot).valid
  else if c.large then (modulusOf s c.slot).valid
  else true

/-- PARAM holds what the opcode uses and nothing else (R638). -/
def sflParamOk (c : SflCmd) : Bool :=
  let p := c.param
  match c.op with
  | 0x01 => decide (12 ≤ p % 256) && decide (p % 256 ≤ 16) && decide (1 ≤ p / 256 % 256) && decide (p / 256 % 256 ≤ 48) && decide (p < 2 ^ 16)
  | 0x02 => decide (64 ≤ p) && decide (p ≤ 4096)
  | 0x14 => true
  | 0x1A => decide (p < 2 ^ 32) && decide (p % 2 = 1)
  | 0x20 | 0x21 => decide (1 ≤ p) && decide (p ≤ 4096)
  | 0x30 =>
    let size := p / 256 % 2 ^ 16
    (match p % 256 with
     | 1 => decide (12 ≤ size) && decide (size ≤ 16)
     | 2 => decide (64 ≤ size) && decide (size ≤ 4096)
     | 3 => decide (size = 0)
     | _ => false)
      && decide (p / 2 ^ 27 % 32 = 0) && decide (p < 2 ^ 35)
  | _ => decide (p = 0)

/-- The range of the destination meets one of a source and is not that range exactly (R639). -/
def sflOverlaps (rs : List (Nat × Nat × Nat)) : Bool :=
  rs.any fun d => d.1 = 3 && rs.any fun x => x.1 ≠ 3 && decide (x.2 ≠ d.2)
    && decide (x.2.1 < d.2.1 + d.2.2) && decide (d.2.1 < x.2.1 + x.2.2)

/-- Check 1 of R640 (R638, R639); what depends on the slots named is looked at where they pass check 3. -/
def sflBlockOk (s : State) (c : SflCmd) : Bool :=
  let addr (used : Bool) (a : Nat) : Bool := if used then decide (a % 64 = 0) && decide (a < 2 ^ 48) else decide (a = 0)
  let low (used : Bool) (n v : Nat) : Bool := if used then decide (v < n) else decide (v = 0)
  let o := c.op
  let rowed := decide (0x10 ≤ o) && decide (o ≤ 0x1A)
  sflOpcodes.contains o
    && (!c.blind || [0x10, 0x13, 0x18, 0x19, 0x1B, 0x20].contains o)
    && (!c.vaultB || [0x10, 0x13, 0x20].contains o)
    && (!bit c.flags 2 || o = 0x14) && decide (c.flags < 8)
    && (if c.poly || o = 1 then decide (c.slot < 8) else low (c.large || o = 2) 4 c.slot)
    && low (o = 0x1B) 8 c.slot2
    && low (c.vaultB || o = 0x14 || o = 0x30 || o = 0x31) 16 c.vslot && low c.blind 16 c.bslot
    && low rowed 48 c.first && (if rowed then decide (1 ≤ c.nrows) && decide (c.nrows ≤ 48) else decide (c.nrows = 0))
    && sflParamOk c
    && addr (o ≠ 0x31) c.a
    && addr (((decide (0x10 ≤ o) && decide (o ≤ 0x13)) || c.large) && !c.vaultB) c.b
    && addr (o = 0x13) c.c
    && addr (c.poly || c.large) c.d
    && decide (field c.block 56 8 = 0)
    && (!sflSlotsOk s c
        || ((!rowed || decide (c.first + c.nrows ≤ (basisOf s c.slot).ps.length))
            && (o ≠ 0x1A || decide (c.param < 2 ^ ((basisOf s c.slot).n + 1)))
            && !sflOverlaps (sflRanges s c)))

/-- The vault roles of a command (R631): slot, role (0 operand B, 1 MASK seed, 2 BLIND seed). -/
def sflRoles (c : SflCmd) : List (Nat × Nat) :=
  (if c.vaultB then [(c.vslot, 0)] else []) ++ (if c.op = 0x14 then [(c.vslot, 1)] else []) ++ (if c.blind then [(c.bslot, 2)] else [])

/-- The vault slot may serve the role (R633). -/
def sflRoleOk (s : State) (c : SflCmd) (v role : Nat) : Bool :=
  let k := vaultOf s v
  k.full && decide (k.kind = if role ≠ 0 then 3 else if c.large then 2 else 1) && bit k.uses role
    && (match c.issuer with | .core _ => decide (k.part = c.part) | _ => true)
    && (role ≠ 0 || c.large || decide (k.size = (basisOf s c.slot).n))

/-- A range passes check 5. -/
def sflRangeOk (s : State) (c : SflCmd) (r : Nat × Nat × Nat) : Bool :=
  keyMapped s r.2.1 r.2.2
    && (match c.issuer with | .core _ => windowOk s c.part .core (if r.1 = 3 then .write else .read) r.2.1 r.2.2 | _ => true)

/-! The end of a command. -/

/-- A command completes (R641): the counts, the item of a core, or the result and the event of the PF. -/
def sflComplete (s : State) (c : SflCmd) (st : Nat) : State :=
  let s := updSfl s fun k => { k with cur := k.cur.filter fun d => d.id ≠ c.id, held := k.held.filter fun d => d.id ≠ c.id }
  let s := bump s R.SFL_CMDS 31 0 1
  let us := if c.started then min (2 ^ 32 - 1) ((tbNs s - c.tStart) / 1000) else 0
  match c.issuer with
  | .core n => answerSvc s n c.urgent 7 c.id (st + c.ops % 2 ^ 24 * 256 + us * 2 ^ 32)
  | _ => raise (updSfl s fun k => { k with last := st }) P.sfl 8

/-- A command completes with a capture (the causes of the SFL page). -/
def sflFail (s : State) (c : SflCmd) (st cause info : Nat) (addr : Option Nat) : State :=
  sflComplete (fault s P.sfl cause c.issuer info addr) c st

/-- A command arrives (R643): held, or completed at once with BUSY. -/
def sflSubmit (s : State) (c : SflCmd) : State × Nat :=
  let c := { c with id := s.sfl.nextId }
  let s := updSfl s fun k => { k with nextId := k.nextId + 1 }
  if s.sfl.held.length + s.sfl.cur.toList.length ≥ 16 then (sflComplete s c SS.busy, c.id)
  else (updSfl s fun k => { k with held := k.held ++ [c] }, c.id)

/-- How Safelight's requests for a command travel (R645): under its issuer, with its class, on the bulk channel for bulk class. -/
def sflVia (c : SflCmd) : Via := { classVia 31 c.cls with req := c.issuer }

/-- GO of SFL_PF_CMD_HI: the block at ADDR is submitted; it is read with the class of PF commands. -/
def sflPfSubmit (s : State) : State :=
  let a := rf s R.SFL_PF_CMD_LO 31 6 * 64 + rf s R.SFL_PF_CMD_HI 15 0 * 2 ^ 32
  let r := readRange s { classVia 31 (rf s R.SFL_CFG 9 8) with req := .pf } a 64
  after (sflSubmit r.1 { id := 0, issuer := .pf, cls := rf s R.SFL_CFG 9 8, block := r.2.data, bad := r.2.st })

/-! The choice of a command (R643 to R645). -/

/-- The slot that a command names, as a number: basis slots 0 to 7, modulus slots 8 to 11. -/
def sflNames (c : SflCmd) : List Nat :=
  if c.op = 0x1B then [c.slot, c.slot2] else if c.poly || c.op = 1 then [c.slot]
  else if c.large || c.op = 2 then [8 + c.slot] else []

/-- It is a load of a basis or modulus slot. -/
def SflCmd.load (c : SflCmd) : Bool := c.op = 1 || c.op = 2

/-- A held command may run now: a load waits for started commands on its slot, a later command on the slot waits for the load (R644); a start
needs the allowance (R645). -/
def sflReady (s : State) (c : SflCmd) : Bool :=
  let others := s.sfl.held.filter fun d => d.id ≠ c.id
  let meet (d : SflCmd) : Bool := (sflNames d).any (sflNames c).contains
  c.started || (solveOk s && (!c.load || !others.any fun d => d.started && meet d)
    && !others.any fun d => d.load && decide (d.id < c.id) && meet d)

/-- The command that Safelight takes at an operation end. -/
def sflChoose (s : State) : Option SflCmd :=
  let cs := s.sfl.held.filter (sflReady s)
  (List.range 4).findSome? fun k =>
    let of := cs.filter fun c => c.cls = k
    match nextRound ((List.range 9).filter fun p => of.any fun c => c.part = p) (s.sfl.rr.get k) with
    | none => none
    | some p => of.find? fun c => c.part = p

/-- A command's operation runs. -/
def sflRun (s : State) (c : SflCmd) : State :=
  updSfl s fun k => { k with cur := some c, held := k.held.filter fun d => d.id ≠ c.id, rr := SMap.set k.rr c.cls c.part }

/-- The chosen command completes at once where its block could not be read or its opcode is reserved. -/
def sflUnusable (s : State) : State :=
  match sflChoose s with
  | none => s
  | some c =>
    if c.bad > 1 then sflFail s c SS.window 2 c.op none
    else if c.bad = 1 then sflFail s c SS.poison 3 c.op none
    else if !sflOpcodes.contains c.op then sflFail s c SS.badCommand 1 c.op none
    else s

/-! Operations. -/

/-- What an operation came to: the state, the command after it, and where it stopped: status, operand, address. -/
structure SflOut where
  s : State
  c : SflCmd
  stop : Option (Nat × Nat × Nat) := none
deriving DecidableEq, Repr

/-- Reads operands of an operation in order: the bytes of each, or the operand and address that failed, and the first poisoned address. -/
def sflRead (s : State) (c : SflCmd) : List (Nat × Nat × Nat) → List (List Byte) → Option Nat → State × Option (Nat × Nat) × List (List Byte) × Option Nat
  | [], got, p => (s, none, got, p)
  | (o, a, n) :: rest, got, p =>
    let r := readRange s (sflVia c) a n
    if r.2.st > 1 then (r.1, some (o, a + r.2.data.length), got, p)
    else
      sflRead r.1 c rest (got ++ [r.2.data]) (match p with | some x => some x | none => r.2.bad.head?.map fun b => a + b.1)

/-- The bytes as 64-bit words, each reduced (R625). -/
def wordsOf (q : Nat) : Nat → List Byte → List Nat
  | 0, _ => []
  | k + 1, bs => reduce q (ofLe (bs.take 8)) :: wordsOf q k (bs.drop 8)

/-- Coefficient `j` of a TERNARY slot modulo `q` (R633). -/
def ternary (data : List Byte) (q j : Nat) : Nat :=
  match bits (field data (j / 4) 1) (2 * (j % 4) + 1) (2 * (j % 4)) with
  | 0 => 0
  | 1 => 1
  | _ => q - 1

/-- The row `r` of a command: its prime and root. -/
def sflPrime (s : State) (c : SflCmd) : Nat × Nat := nth (basisOf s c.slot).ps (c.first + c.ops) (1, 0)

/-- The words of an output row (R626). -/
def sflRowResult (s : State) (c : SflCmd) (bs : List (List Byte)) : List Nat :=
  let k := basisOf s c.slot
  let q := (sflPrime s c).1
  let psi := (sflPrime s c).2
  let v := vaultOf s c.vslot
  let big := 2 ^ k.n
  let row (i : Nat) : List Nat := wordsOf q big (nth bs i [])
  let a := row 0
  let b := if c.vaultB then (List.range big).map (ternary v.data q) else row 1
  match c.op with
  | 0x10 => (a.zip b).map fun e => reduce q (e.1 * e.2)
  | 0x11 => (a.zip b).map fun e => reduce q (e.1 + e.2)
  | 0x12 => (a.zip b).map fun e => reduce q (e.1 + q - e.2)
  | 0x13 => ((a.zip b).zip (row (if c.vaultB then 1 else 2))).map fun e => reduce q (e.1.1 * e.1.2 + e.2)
  | 0x14 => a.zipIdx.map fun e =>
      let m := maskWord v.data ((c.block.drop 8).take 8) (c.first + c.ops) e.2 q
      reduce q (if bit c.flags 2 then e.1 + q - m else e.1 + m)
  | 0x18 => forwardNtt q psi k.n a
  | 0x19 => inverseNtt q psi k.n a
  | _ => automorph q (c.param % 2 ^ 32) k.n a

/-- An operation's output is written, poisoned where an input was (R640). -/
def sflWrite (s : State) (c : SflCmd) (a : Nat) (bs : List Byte) (p : Option Nat) : SflOut :=
  let w := writePieces (piecesOf a bs.length) s (sflVia c) a bs (if p.isSome then [(0, bs.length)] else [])
  if w.2.1 ≠ MS.ok then { s := w.1, c := c, stop := some (SS.window, 3, w.2.2) }
  else { s := w.1, c := { c with ops := c.ops + 1, poison := p } }

/-- Operation of a row command, MUL to AUTO. -/
def sflRowOp (s : State) (c : SflCmd) : SflOut :=
  let n := 2 ^ (basisOf s c.slot).n * 8
  let r := sflRead s c (((sflRanges s c).filter fun x => x.1 ≠ 3).map fun x => (x.1, x.2.1 + c.ops * n, n)) [] none
  match r.2.1 with
  | some e => { s := r.1, c := c, stop := some (SS.window, e.1, e.2) }
  | none => sflWrite r.1 c (c.d + c.ops * n) ((sflRowResult r.1 c r.2.2.1).flatMap (leBytes 8)) r.2.2.2

/-- Operation of a BASE_EXT: the rows of BASIS are read and scaled, then the rows of BASIS2 are written. -/
def sflExtOp (s : State) (c : SflCmd) : SflOut :=
  let k := basisOf s c.slot
  let qs := k.ps.map (·.1)
  let n := 2 ^ k.n * 8
  if c.ops < qs.length then
    let r := sflRead s c [(0, c.a + c.ops * n, n)] [] none
    match r.2.1 with
    | some e => { s := r.1, c := c, stop := some (SS.window, e.1, e.2) }
    | none =>
      { s := r.1, c := { c with ops := c.ops + 1, poison := r.2.2.2,
                                rows := c.rows ++ [extScale qs c.ops (wordsOf (nth qs c.ops 1) (2 ^ k.n) (nth r.2.2.1 0 []))] } }
  else
    let j := c.ops - qs.length
    sflWrite s c (c.d + j * n) ((extRow qs (nth (basisOf s c.slot2).ps j (1, 0)).1 (2 ^ k.n) c.rows).flatMap (leBytes 8)) none

/-- Operation of LMUL or LADD on one element. -/
def sflLargeOp (s : State) (c : SflCmd) : SflOut :=
  let m := modulusOf s c.slot
  let w := limbs m.bits * 8
  let o := c.ops * alignUp w 64
  let r := sflRead s c ((0, c.a + o, w) :: (if c.vaultB then [] else [(1, c.b + o, w)])) [] none
  match r.2.1 with
  | some e => { s := r.1, c := c, stop := some (SS.window, e.1, e.2) }
  | none =>
    let a := reduce m.m (ofLe (nth r.2.2.1 0 []))
    let b := reduce m.m (if c.vaultB then ofLe (vaultOf s c.vslot).data else ofLe (nth r.2.2.1 1 []))
    sflWrite r.1 c (c.d + o) (leBytes w (reduce m.m (if c.op = 0x20 then a * b else a + b))) r.2.2.2

/-- Operation of a LOAD_BASIS: one entry (R620). -/
def sflBasisOp (s : State) (c : SflCmd) : SflOut :=
  let n := c.param % 256
  let big := 2 ^ n
  let s := if c.ops = 0 then putBasis s c.slot {} else s
  let r := sflRead s c [(0, c.a + 16 * c.ops, 16)] [] none
  let e := nth r.2.2.1 0 []
  let q := field e 0 8
  let psi := field e 8 8
  match r.2.1, r.2.2.2 with
  | some x, _ => { s := r.1, c := c, stop := some (SS.window, x.1, x.2) }
  | none, some p => { s := r.1, c := { c with ops := c.ops + 1, poison := some p } }
  | none, none =>
    if !(decide (2 ^ 30 < q) && decide (q < 2 ^ 61) && decide (q % (2 * big) = 1) && decide (psi < q) && decide (powMod 18 psi big q = q - 1)
        && !c.entries.any fun x => x.1 = q) then { s := r.1, c := c, stop := some (SS.basisBad, 0, 0) }
    else
      let es := c.entries ++ [(q, psi)]
      { s := if es.length = c.param / 256 % 256 then putBasis r.1 c.slot { valid := true, n := n, ps := es } else r.1,
        c := { c with ops := c.ops + 1, entries := es } }

/-- Operation of a LOAD_MODULUS (R622). -/
def sflModulusOp (s : State) (c : SflCmd) : SflOut :=
  let bs := c.param % 2 ^ 16
  let r := sflRead s c [(0, c.a, limbs bs * 8)] [] none
  let m := ofLe (nth r.2.2.1 0 [])
  match r.2.1, r.2.2.2 with
  | some x, _ => { s := r.1, c := c, stop := some (SS.window, x.1, x.2) }
  | none, some p => { s := r.1, c := { c with ops := c.ops + 1, poison := some p } }
  | none, none =>
    if bitLen m ≠ bs then { s := r.1, c := c, stop := some (SS.basisBad, 0, 0) }
    else { s := putModulus r.1 c.slot { valid := true, bits := bs, m := m }, c := { c with ops := c.ops + 1 } }

/-- Operation of a VAULT_IMPORT (R635). -/
def sflImportOp (s : State) (c : SflCmd) : SflOut :=
  let kind := c.param % 256
  let size := c.param / 256 % 2 ^ 16
  let r := sflRead s c [(0, c.a, importSize kind size)] [] none
  let data := nth r.2.2.1 0 []
  match r.2.1, r.2.2.2 with
  | some x, _ => { s := r.1, c := c, stop := some (SS.window, x.1, x.2) }
  | none, some p => { s := r.1, c := { c with ops := c.ops + 1, poison := some p } }
  | none, none =>
    if kind = 1 && data.any fun b => (List.range 4).any fun i => bits b.toNat (2 * i + 1) (2 * i) = 2 then
      { s := r.1, c := c, stop := some (SS.badCommand, 0, 0) }
    else
      { s := putVault r.1 c.vslot { full := true, kind := kind, part := c.param / 2 ^ 24 % 8, uses := c.param / 2 ^ 32 % 8, size := size,
                                    data := data },
        c := { c with ops := c.ops + 1 } }

/-- The next operation of a started command. -/
def sflOperation (s : State) (c : SflCmd) : SflOut :=
  if c.op = 0x01 then sflBasisOp s c
  else if c.op = 0x02 then sflModulusOp s c
  else if c.op = 0x1B then sflExtOp s c
  else if c.large then sflLargeOp s c
  else if c.op = 0x30 then sflImportOp s c
  else if c.op = 0x31 then { s := putVault s c.vslot {}, c := { c with ops := c.ops + 1 } }
  else sflRowOp s c

/-- The operations of a command (R642). -/
def sflTotal (s : State) (c : SflCmd) : Nat :=
  if c.op = 0x01 then c.param / 256 % 256
  else if c.op = 0x1B then (basisOf s c.slot).ps.length + (basisOf s c.slot2).ps.length
  else if c.large then field c.block 8 2
  else if c.poly then c.nrows
  else 1

/-- The checks of R640 in order: none where the command may start or has started, else the state with the command completed. -/
def sflChecks (s : State) (c : SflCmd) : Option State :=
  if c.started then none
  else if !sflBlockOk s c then some (sflFail s c SS.badCommand 1 c.op none)
  else if (match c.issuer with | .core _ => c.managed || !bit (rf s R.SFL_CFG 7 0) c.part | _ => false) then some (sflComplete s c SS.notOwner)
  else if !sflSlotsOk s c then some (sflComplete s c SS.noSlot)
  else if c.op = 0x30 && (vaultOf s c.vslot).full then some (sflComplete s c SS.vaultDenied)
  else match (sflRoles c).find? fun r => !sflRoleOk s c r.1 r.2 with
    | some r => some (sflComplete (raise (fault s P.sfl 4 c.issuer (r.1 + r.2 * 256) none) P.sfl 9) c SS.vaultDenied)
    | none => match (sflRanges s c).find? fun r => !sflRangeOk s c r with
      | some r => some (sflFail s c SS.window 2 (c.op + r.1 * 256) (some r.2.1))
      | none => none

/-- A row of a Safelight command: the idle engine takes the chosen command, if its opcode is `op`, for its checks where it has not started, and for
its next operation. -/
def sflRow (op : Nat) (s : State) : State :=
  if s.sfl.cur.isSome ∨ !accepts s P.sfl then s
  else match sflChoose s with
    | none => s
    | some c =>
      if c.op ≠ op ∨ c.bad ≠ 0 then s
      else
        let s := wake s 31
        match sflChecks s c with
        | some t => t
        | none =>
          let c := if c.started then c else { c with started := true, tStart := tbNs s }
          let r := sflOperation (sflRun s c) c
          match r.stop with
          | none => updSfl r.s fun k => { k with cur := some r.c }
          | some (st, o, a) =>
            if st = SS.window then sflFail r.s r.c st 2 (c.op + o * 256) (some a)
            else if st = SS.badCommand then sflFail r.s r.c st 1 c.op none
            else sflComplete r.s r.c st

/-- The running command leaves the engine to wait, in its place by arrival. -/
def sflPark (s : State) (c : SflCmd) : State :=
  updSfl s fun k => { k with cur := none, held := k.held.filter (·.id < c.id) ++ c :: k.held.filter (fun d => !(d.id < c.id)) }

/-- SFL_OPERATION_END (R640, R642, R643, R584): the operation's energy is debited; the command ends or waits for its next operation, and a
command that cannot be worked on completes. -/
def execSflOperationEnd (us stallNs uj : Nat) (s : State) : Host.Outcome State Fault Refusal :=
  if !islandRuns s 31 then .next s else
  match s.sfl.cur with
  | none => .next (if accepts s P.sfl then sflUnusable s else s)
  | some c =>
    let s := bump (bump (bump (wake s 31) R.SFL_OPS 31 0 1) R.SFL_BUSY 31 0 us) R.SFL_STALL 31 0 stallNs
    let s := solveDebit s c.cls uj
    .next (sflUnusable (match c.poison with
      | some a => sflFail s c SS.poison 3 c.op (some a)
      | none =>
        if c.stop then sflComplete s c SS.aborted
        else if c.ops ≥ sflTotal s c then sflComplete s c SS.done
        else sflPark s c))

/-- A waiting command with this identity completes ABORTED. -/
def sflWaiting (id : Nat) (s : State) : State :=
  match s.sfl.held.find? fun c => c.id = id with
  | some c => sflComplete s c SS.aborted
  | none => s

/-- The command of an aborted job is to end (R645): at once where it waits, else at its operation's end. -/
def sflAbort (s : State) (id : Nat) : State :=
  match s.sfl.cur with
  | some c => if c.id = id then updSfl s fun k => { k with cur := some { c with stop := true } } else sflWaiting id s
  | none => sflWaiting id s

/-- An uncorrectable word in a vault slot or a basis slot is found (R646); the command being worked on ends with POISON. -/
def sflStoreUe (s : State) (basis : Bool) (n : Nat) : State :=
  let s := if basis then putBasis s (n % 8) {} else putVault s (n % 16) {}
  let s := match s.sfl.cur with
    | some c => sflComplete s c SS.poison
    | none => s
  raise (hwFault s P.sfl 5 (n % 16 + (if basis then 16 else 0))) P.sfl 10

/-- The register views of the slots. -/
def sflBasisState (s : State) (b : Nat) : Nat :=
  let k := basisOf s b
  if k.valid then 1 + k.n * 16 + k.ps.length * 256 else 0
def sflModState (s : State) (m : Nat) : Nat :=
  let k := modulusOf s m
  if k.valid then 1 + k.bits * 65536 else 0
def sflVaultState (s : State) (v : Nat) : Nat :=
  let k := vaultOf s v
  if k.full then 1 + k.kind * 2 + k.part * 16 + k.uses * 256 else 0

/-- SFL_STATE and SFL_PF_RESULT. -/
def sflState (s : State) : Nat := b2n s.sfl.cur.isSome + 2 * (s.sfl.held.length + s.sfl.cur.toList.length)
def sflPfResult (s : State) : Nat :=
  s.sfl.last % 16 + 16 * b2n ((s.sfl.held ++ s.sfl.cur.toList).any fun c => match c.issuer with | .core _ => false | _ => true)

end Sys2Proof.Machine
end

