-- ==== Sys2Proof/Machine/SeamWait.lean ====
section
/-!
DEFINITION. Machine/SeamWait.lean: the members of a change set, what their staged copies affect, and the condition under which each page is at its seam
(22 R678, R685 to R687, R795; 06 R216, R217; 08 R281).
-/
namespace Sys2Proof.Machine
open Sys2Proof

/-- The members of the change set that SEAM_MASK names, ascending (R678). -/
def seamMembers (s : State) : List Nat :=
  (bitList ((rd s R.SEAM_MASK_LO).toNat + (rd s R.SEAM_MASK_HI).toNat * 2 ^ 32) 56).filter fun pg => (pageOf pg).isSome && decide (pg ≠ P.seam)

/-- The staged copy of a register differs from its active copy. -/
def affected (s : State) (off : Nat) : Bool := decide (stagedOf s off ≠ rd s off)

/-- A word as it stands before (`new` false) or after a commit. -/
def copyOf (s : State) (new : Bool) (off : Nat) : Nat := (if new then stagedOf s off else rd s off).toNat

/-- The sources whose entry a page's staged copies affect. -/
def seamSources (s : State) (pg : Nat) : List Nat :=
  match pageOf pg with
  | some (.csi, p) => ((List.range 16).filter fun v => affected s (R.CSI_VC_CTRL p v)).map (csiSrc p)
  | some (.eth, m) => ((List.range 36).filter fun e => affected s (R.ETH_STR_CTRL m e)).map (ethSrc m)
  | _ => []

/-- The stream slots whose lists ENL's staged copies affect. -/
def seamSlots (s : State) : List Nat :=
  (List.range 36).filter fun n => affected s (R.ENL_SLOT_LIST_LO 0 n) || affected s (R.ENL_SLOT_LIST_HI 0 n)

/-- The groups that ESL's staged copies affect: by their own registers, or as audio group by the audio registers. -/
def seamGroups (s : State) : List Nat :=
  let audio := affected s R.ESL_AUDIO_BASE_LO || affected s R.ESL_AUDIO_BASE_HI || affected s R.ESL_AUDIO_CFG
  (List.range 64).filter fun g => affected s (R.ESL_GRP_CFG g) || affected s (R.ESL_GRP_QUEUE g)
    || (audio && (decide (rf s R.ESL_AUDIO_CFG 5 0 = g) || decide (sf s R.ESL_AUDIO_CFG 5 0 = g)))

/-- A group has an open batch: neither closed nor full (R359). -/
def groupOpen (s : State) (g : Nat) : Bool := s.esl.batches.any fun b => b.group = g && !b.closed && !b.ready && !b.written

/-- The partitions that a change of PCI's windows concerns: the owner of a protection window, the VF of a host-memory window before and after. -/
def seamWindows (s : State) : List Nat :=
  let pw := (List.range 64).filter fun k => affected s (R.PCI_PWIN_BASE_LO k) || affected s (R.PCI_PWIN_BASE_HI k) || affected s (R.PCI_PWIN_LIMIT_LO k)
    || affected s (R.PCI_PWIN_LIMIT_HI k)
  let hw := (List.range 16).filter fun w => affected s (R.PCI_HWIN_BASE_LO w) || affected s (R.PCI_HWIN_BASE_HI w) || affected s (R.PCI_HWIN_CFG w)
    || affected s (R.PCI_HWIN_CFG_HI w)
  let fns := hw.flatMap fun w => [false, true].map fun c => bits (copyOf s c (R.PCI_HWIN_CFG_HI w)) 3 0
  pw.map (· / 8) ++ (fns.filter fun f => decide (1 ≤ f) && decide (f ≤ 8)).map (· - 1)

/-- The partitions that DPT's staged copies disable or take a core from. -/
def seamParts (s : State) : List Nat :=
  (List.range 8).filter fun p =>
    let a := copyOf s false (R.DPT_PART_CTRL p)
    let b := copyOf s true (R.DPT_PART_CTRL p)
    (bit a 0 && !bit b 0) || decide (bits a 15 8 &&& (255 - bits b 15 8) ≠ 0)

/-- The pools whose place the QRY page changes, or that it re-initialises (R281). -/
def seamPools (s : State) : List Nat :=
  (List.range 8).filter fun k =>
    affected s (R.QRY_POOL_BASE_LO k) || affected s (R.QRY_POOL_BASE_HI k) || affected s (R.QRY_POOL_CFG k)
      || (s.qry.fenced.contains k && bit (copyOf s true (R.QRY_POOL_CFG k)) 31)

/-- The partition that an identity maps to in one of the two copies. -/
def idPartIn (s : State) (new : Bool) (i : Nat) : Option Nat :=
  let f := bits (copyOf s new (R.QRY_IDMAP (i / 8))) (4 * (i % 8) + 3) (4 * (i % 8))
  if f ≥ 8 then some (f - 8) else none

/-- The quota of an identity in a pool in one of the two copies. -/
def quotaFrom (s : State) (new : Bool) (i k : Nat) : Nat :=
  let w := copyOf s new (R.QRY_QUOTA i (k / 2))
  if k % 2 = 0 then bits w 15 0 else bits w 31 16

/-- The partitions with a non-zero quota in pool `k`, in the active or the staged quotas. -/
def poolParts (s : State) (k : Nat) : List Nat :=
  (List.range 64).flatMap fun i =>
    if quotaFrom s false i k ≠ 0 ∨ quotaFrom s true i k ≠ 0 then (idPartIn s false i).toList ++ (idPartIn s true i).toList else []

/-- The old and the new partition of every identity that the QRY page maps anew. -/
def idParts (s : State) : List Nat :=
  (List.range 64).flatMap fun i =>
    if idPartIn s false i ≠ idPartIn s true i then (idPartIn s false i).toList ++ (idPartIn s true i).toList else []

/-- The regions whose mapping differs between two layouts (R217). -/
def changedRegions (a b : List Nat) : List Nat :=
  (List.range 32).filter fun r => decide (nth a r 0 ≠ nth b r 0)
    || (bitList (nth a r 0) 8).any fun u => decide (regionBase a r u ≠ regionBase b r u)

/-- The mask lists before and after the commit of a DMC page's SPARE. -/
def layoutIn (s : State) (spare : Nat) : List Nat := nth s.dram.layouts spare []

/-- The partitions whose channel set includes a subchannel of a region whose mapping changes between the two layouts (R216). -/
def spareParts (s : State) : List Nat :=
  let a := layoutIn s 0
  let b := layoutIn s 1
  let m := (changedRegions a b).foldl (fun m r => m ||| nth a r 0 ||| nth b r 0) 0
  (List.range 8).filter fun p => rb s (R.DPT_PART_CFG p) 12 && decide (rf s (R.DPT_PART_CFG p) 23 16 &&& m ≠ 0)

/-- A core runs a job or one is on its way to it. -/
def coreBusy (s : State) (n : Nat) : Bool :=
  let k := coreOf s n
  k.normal.job.isSome || k.urgent.job.isSome || k.waitNormal.isSome || k.waitUrgent.isSome || s.dpt.starts.any (·.core = n)

/-- A Keystone context has a command waiting or running. -/
def ctxBusy (s : State) (c : Nat) : Bool := (s.key.cur.toList ++ s.key.held).any (·.ctx = c)

/-- A command of partition `p` is held by Safelight. -/
def sflHolds (s : State) (p : Nat) : Bool := (s.sfl.cur.toList ++ s.sfl.held).any (·.part = p)

/-- The partitions whose bit of SFL_CFG.PART_EN the SFL page clears. -/
def sflCleared (s : State) : List Nat := bitList (bits (copyOf s false R.SFL_CFG) 7 0 &&& (255 - bits (copyOf s true R.SFL_CFG) 7 0)) 8

/-- A member page is at its seam (R685, R686): AUD's boundaries lie between two commands. -/
def atSeam (s : State) (pg : Nat) : Bool :=
  match pageOf pg with
  | some (.pci, _) => (seamWindows s).all (isQuiet s)
  | some (.dpt, _) => (seamParts s).all (isQuiet s)
  | some (.qry, _) =>
    (seamPools s).all (fun k => (poolParts s k).all (isQuiet s) && (s.qry.fenced.contains k || (allocated s k).isEmpty))
      && (idParts s).all (isQuiet s)
  | some (.dmc, c) => !affected s (R.DMC_LAYOUT c) || (spareParts s).all (isQuiet s)
  | some (.csi, _) | some (.eth, _) => (seamSources s pg).all fun k => (srcOf s k).frame.isNone
  | some (.enl, 0) => (seamSlots s).all fun n => (enlFrames s).all fun f => f.slot ≠ n
  | some (.esl, _) => (seamGroups s).all fun g => !groupOpen s g
  | some (.ash, n) => !affected s (R.ASH_MODE n) || !coreBusy s n
  | some (.key, _) => (List.range 4).all fun c => !affected s (R.KEY_CTX_CFG c) || !ctxBusy s c
  | some (.sfl, _) => (sflCleared s).all fun p => !sflHolds s p
  | _ => true

/-- The members not at their seam as a mask of pages; zero unless a set waits (SEAM_WAIT). -/
def waitMask (s : State) : Nat :=
  if rf s R.SEAM_STATE 1 0 = 3 then ((seamMembers s).filter fun pg => !atSeam s pg).foldl (fun m pg => m ||| 2 ^ pg) 0 else 0

end Sys2Proof.Machine
end

