-- ==== Sys2Proof/Machine/RegRead.lean ====
section
/-!
DEFINITION. Machine/RegRead.lean: the value of a page register as a read returns it: the stored value, staged copies (02 R24), and the registers that
report the state of a block.
-/
namespace Sys2Proof.Machine
open Sys2Proof

/-- The indexes of the instance of register `r` at page-window offset `off`. -/
def regIndex (r : RegSpec) (off : Nat) : Nat × Nat :=
  let d := off % 0x1000 - r.off
  (d / r.s1, if r.n2 ≤ 1 then 0 else d % r.s1 / r.s2)

/-- A requester may write fields of an access code: RW, W1C, W1S, WO, ST and LK fields; RO (boot) and RO (Fypajo) fields only their writer. -/
def mayWrite (req : Req) (a : Access) : Bool :=
  match a with
  | .ro | .rc => false
  | .roBoot => decide (req = .boot)
  | .roFyp => decide (req = .fyp)
  | _ => true

/-- A word carries no 1 in a reserved bit and no reserved value in a field that the write reaches (R30); bits of fields that are read-only
have no effect (R23). -/
def wordOk (r : RegSpec) (req : Req) (w : Nat) : Bool :=
  decide (w &&& (2 ^ 32 - 1 - maskWhere r fun _ => true) = 0)
    && r.fields.all fun f => !mayWrite req f.acc || decide (f.acc = .w1c) || decide (f.acc = .w1s)
        || (decide (f.okLo ≤ bits w f.hi f.lo) && decide (bits w f.hi f.lo ≤ f.okHi))

/-- AON_ISL_STATUS (R59, R64, R68, R588, R788). -/
def islandWord (s : State) (n : Nat) : Nat :=
  let i := island s n
  let code := match i.st with | .off => 0 | .retain => 1 | .gated => 2 | .on => 3
  let volt := targetVolt s.clock n i
  code + 4 * b2n i.step.isSome + 8 * b2n i.fenced + 256 * volt + 65536 * shownMhz s n

/-- BOOT_OTP_STATE. -/
def otpWord (s : State) : Nat :=
  let o := s.boot.otp
  o.lifecycle + 4 * b2n (decide (o.lifecycle ≠ 2)) + 16 * ((s.boot.image.map (·.key)).getD 0) + 256 * o.revoked + 65536 * o.rollback

/-- DMC_SUB_STATUS. -/
def subWord (k : SubCh) : Nat :=
  let st := match k.st with
    | .absent => 0 | .training => 1 | .run => 2 | .drifting => 3 | .window => 4 | .fenced => 5 | .filling => 6
  st + 256 * unsx 5 k.owed + 65536 * b2n k.pd + 2 ^ 17 * b2n (!k.throttled.isEmpty) + 2 ^ 18 * k.rate

/-- ASH_STATE: DISABLED while the page is not enabled or the core has no width class. -/
def coreStateWord (s : State) (n : Nat) : Nat :=
  let k := coreOf s n
  (if !rb s (hdr (P.ash n) 0x10) 0 || decide (rf s (R.ASH_CLASS n) 2 0 = 7) then 4 else k.active)
    + 8 * b2n k.stalled + 16 * b2n k.waitUrgent.isSome + 32 * b2n k.held

/-- The head of a PTP receive FIFO. -/
def ptpHead (s : State) (m : Nat) : List Byte × Nat := (nth s.ing.ptpRx m []).headD ([], 0)

/-- ESL_GRP_STATUS. -/
def groupWord (s : State) (g : Nat) : Nat :=
  match openBatch s g with
  | some b => 1 + 256 * b.lanes.countP (·.assigned) + 65536 * b.lanes.countP (·.done)
  | none => 0

/-- The value of a register that reports the state of its block; none where the stored value is read. -/
def viewOf (s : State) (r : RegSpec) (pg off : Nat) : Option Nat :=
  let x := regIndex r off
  let i := x.1
  let v := (rd s off).toNat
  let uj (l : List Nat) : Option Nat := some (nth l i 0 / 1000000 % 2 ^ 32)
  match r.name with
  | "STATUS" => some (statusWord s pg)
  | "ENERGY" => some (nth s.plb.energy (islandAt pg) 0 % 2 ^ 32)
  | "AON_ISL_STATUS" => some (islandWord s i)
  | "AON_TB_NOW_LO" => some (tbNs s % 2 ^ 32)
  | "AON_TB_STATUS" => some (s.tb.state + 256 * tbAge s)
  | "BOOT_OTP_STATE" => some (otpWord s)
  | "BOOT_FLASH_CTRL" => some (v + 2 ^ 30 * b2n s.boot.op.isSome)
  | "SEAM_WAIT_LO" => some (waitMask s % 2 ^ 32)
  | "SEAM_WAIT_HI" => some (waitMask s / 2 ^ 32)
  | "CSH_SEQ" => some s.csh.seq
  | "CSH_FIFO" => some (putBits v 6 0 (s.csh.arrived.length + s.csh.fifo.countP (!·.written)))
  | "PLB_ISL_ENERGY_LO" => some (nth s.plb.energy i 0 % 2 ^ 32)
  | "PLB_ISL_ENERGY_HI" => some (nth s.plb.energyHi i 0 % 2 ^ 32)
  | "PLB_GRP_ALLOW" => if i = 8 ∨ i = 9 ∨ i = 10 then uj s.plb.grpAllow else some 0
  | "PLB_GRP_LEFT" => if i = 8 ∨ i = 9 ∨ i = 10 then uj s.plb.grpLeft else some 0
  | "PLB_PART_ALLOW" => uj s.plb.partAllow
  | "PLB_PART_LEFT" => uj s.plb.partLeft
  | "PLB_PART_RESERVE" => uj s.plb.partRes
  | "PLB_PART_RES_LEFT" => uj s.plb.partResLeft
  | "PLB_SPENT" => some (min (nth s.plb.spent i 0 / 1000000) (2 ^ 32 - 1))
  | "DPT_PART_STATUS" => some (v + nth s.dpt.state i 0 + 65536 * runningOf s i)
  | "SBT_ACTIVE" => some (s.dpt.models.countP fun e => (armed s e.1).isSome)
  | "HOD_COPY_STATUS" => some (copyActive s)
  | "QRY_POOL_STATUS" => some (freeCount s i + 2 ^ 17 * b2n (s.qry.fenced.contains i))
  | "QRY_USED" => some (usedOf s i x.2)
  | "QRY_INSPECT_DATA" =>
    let b := bufOf s (rf s R.QRY_INSPECT 2 0) (rf s R.QRY_INSPECT 18 3)
    some (b2n b.used + 256 * b.gen + 65536 * b.owner)
  | "QRY_PF_RESULT" => some (putBit v 4 s.qry.scan.isSome)
  | "PCI_LINK_STATUS" => some (s.pci.speed + 16 * s.pci.width + 1024 * b2n s.pci.l1)
  | "PCI_TAGS" => some (putBits v 9 0 s.pci.outstanding.length)
  | "AUD_ALERT_STATE" => some (audAlertState s)
  | "AUD_ALERT_CAP" => some (audCap s)
  | "KEY_STATE" => some (keyState s)
  | "KEY_CTX_STATE" => some (keyCtxState s i)
  | "SFL_STATE" => some (sflState s)
  | "SFL_BASIS_STATE" => some (sflBasisState s i)
  | "SFL_MOD_STATE" => some (sflModState s i)
  | "SFL_VAULT_STATE" => some (sflVaultState s i)
  | "SFL_PF_RESULT" => some (sflPfResult s)
  | "DMC_CAPS_A" =>
    let used := s.dram.layouts.foldl (fun m l => l.foldl (· ||| ·) m) 0
    some (bits used (2 * (pg - 16) + 1) (2 * (pg - 16)) + 256 * b2n s.dram.drfm)
  | "DMC_LAYOUT" => some (putBit v 16 (!s.dram.filling.isEmpty))
  | "DMC_SUB_STATUS" => some (subWord (subch s (2 * (pg - 16) + i)))
  | "ETH_PTP_RX_STATUS" => some (min 8 (nth s.ing.ptpRx (pg - 28) []).length + 256 * (ptpHead s (pg - 28)).1.length)
  | "ETH_PTP_RX_TS_LO" => some ((ptpHead s (pg - 28)).2 % 2 ^ 32)
  | "ETH_PTP_RX_TS_HI" => some ((ptpHead s (pg - 28)).2 / 2 ^ 32 % 2 ^ 32)
  | "ETH_PTP_RX_DATA" => some (field (ptpHead s (pg - 28)).1 (4 * i) 4)
  | "ESL_GRP_STATUS" => some (groupWord s i)
  | "DEV_ENG_STATUS" => some (match nth s.dev.eng (pg - 32) none with | some w => 1 + 256 * w.slot | none => 0)
  | "DEV_SLOT_STATE" =>
    let d := devSlot s i
    some ((if d.st = 1 ∧ d.taint = true then 2 else d.st) + 4 * b2n d.depth10 + 256 * d.refs.length + 65536 * d.wait.length)
  | "DEV_SLOT_CTRL" => some (b2n (decide ((devSlot s i).st = 3)))
  | "ENL_ENG_STATUS" => some (match nth s.enl.eng (pg - 40) none with
    | some f => 1 + 2 * enlClass s f.slot + 256 * f.slot + 65536 * ((f.roi.map (·.entry)).getD (f.todo.headD 0))
    | none => 0)
  | "ENL_SLOT_CTRL" => some (putBit v 1 ((enlFrames s).any fun f => f.slot = i && f.sel = 1))
  | "ASH_STATE" => some (coreStateWord s (pg - 48))
  | _ => none

/-- The W1S fields of a register keep the bit written: LOCK, CTRL.SRESET and FORCE of DMC_RETRAIN_CTRL. The others read 0, but for RESYNC of
DEV_SLOT_CTRL, which the slot's state shows. -/
def holdsW1s (r : RegSpec) : Bool := r.name == "LOCK" || r.name == "CTRL" || r.name == "DMC_RETRAIN_CTRL"

/-- The bits of a register that a read returns as zero: WO fields. -/
def hiddenBits (r : RegSpec) : Nat := maskWhere r (decide <| · = .wo)

/-- What a read of the register at page-window offset `off` returns, with no effect on it (R23, R24, R29, R31, R32). -/
def regValue (s : State) (off : Nat) : Nat :=
  match findReg off with
  | none => 0
  | some r =>
    let pg := off / 0x1000
    let v := (viewOf s r pg off).getD (rd s off).toNat
    let st := maskWhere r (decide <| · = .st)
    let v := if rb s (hdr pg 0x10) 3 then (v &&& (2 ^ 32 - 1 - st)) ||| ((stagedOf s off).toNat &&& st) else v
    v &&& (2 ^ 32 - 1 - hiddenBits r)

/-- A read of a 32-bit register at `off`: AON_TB_NOW_LO and PLB_ISL_ENERGY_LO latch the upper word, RC fields are cleared (R23), an uncorrectable
record that QRY_INSPECT_DATA shows fences its pool (08 R280). -/
def readReg (s : State) (off : Nat) : State × Nat :=
  match findReg off with
  | none => (s, 0)
  | some r =>
    let rc := maskWhere r (decide <| · = .rc)
    let v := regValue s off
    let i := (regIndex r off).1
    let s := if r.name = "AON_TB_NOW_LO" then setReg s R.AON_TB_NOW_HI (BitVec.ofNat 32 (tbNs s / 2 ^ 32))
      else if r.name = "PLB_ISL_ENERGY_LO" then
        updPlb s fun p => { p with energyHi := p.energyHi.set i (nth p.energy i 0 / 2 ^ 32) }
      else if r.name = "PLB_SPENT" then updPlb s fun p => { p with spent := updAt p.spent i (· % 1000000) }
      else if r.name = "QRY_INSPECT_DATA" then (inspectWord s (rf s R.QRY_INSPECT 2 0) (rf s R.QRY_INSPECT 18 3) false).1
      else s
    (if rc = 0 then s else setReg s off (rd s off &&& BitVec.ofNat 32 (2 ^ 32 - 1 - rc)), v)

end Sys2Proof.Machine
end

