-- ==== Sys2Proof/Machine/Csh.lean ====
section
/-!
DEFINITION. Machine/Csh.lean: the event recorder Contact Sheet (23 R695 to R716).
-/
namespace Sys2Proof.Machine
open Sys2Proof

/-- `s` with the recorder changed. -/
def updCsh (s : State) (f : Csh → Csh) : State := { s with csh := f s.csh }

/-- The 32 bytes of a record (R695, R696): `mid` holds bytes [11:4], `flags` the FORCED, SNAP and LOST bits. -/
def cshBytes (code source mid : Nat) (params : List Nat) (seq flags : Nat) : List Byte :=
  let body := leBytes 2 code ++ leBytes 2 source ++ leBytes 8 mid ++ ((List.range 4).flatMap fun k => leBytes 4 (nth params k 0))
    ++ leBytes 3 (seq % 2 ^ 20 + 2 ^ 20 + flags)
  body ++ [BitVec.ofNat 8 (crc8 7 0 body)]

/-- The slot of the record with sequence number `n`. -/
def cshSlot (n : Nat) : Nat := n % 2048

/-- The entry of the ring at a slot; a slot never written reads zero. -/
def cshEntry (s : State) (i : Nat) : List Byte := SMap.getD s.csh.ring i (List.replicate 32 0)

/-- `s` with the entry of a slot. -/
def putEntry (s : State) (i : Nat) (b : List Byte) : State :=
  updCsh s fun c => { c with ring := SMap.put c.ring i b (List.replicate 32 0) }

/-- The first `k` of the four steps that write a record (R704), with the whole-granule write of step 2 into a poisoned granule (R706). -/
def writeSteps (s : State) (b : List Byte) (k : Nat) : State :=
  let n := s.csh.seq
  let i := cshSlot n
  let s := if k ≥ 1 then updCsh s fun c => { c with seq := (n + 1) % 2 ^ 32 } else s
  let s :=
    if k < 2 then s
    else
      let s := if s.csh.bad.contains (i / 2) then
          putEntry (updCsh s fun c => { c with bad := NSet.del c.bad (i / 2) }) (if i % 2 = 0 then i + 1 else i - 1) (List.replicate 32 0)
        else s
      putEntry s i (putBytes (cshEntry s i) 24 (List.replicate 8 0))
  let s := if k ≥ 3 then putEntry s i (putBytes (cshEntry s i) 0 (b.take 24)) else s
  if k ≥ 4 then putEntry s i (putBytes (cshEntry s i) 24 (b.drop 24)) else s

/-- A record is written whole (R704, R705). -/
def writeRecord (s : State) (b : List Byte) : State := writeSteps s b 4

/-- The record of an accepted occurrence; LOST where occurrences were lost before it. -/
def occurrenceBytes (s : State) (a : Accepted) : List Byte :=
  cshBytes a.occ.code (a.occ.origin + 256 * a.occ.detail) a.ts a.occ.params s.csh.seq
    (2 ^ 21 * b2n a.occ.forced + 2 ^ 22 * b2n (!a.triggers.isEmpty) + 2 ^ 23 * b2n s.csh.lost)

/-- The occurrences that have reached the recorder and are not yet written (R703). -/
def cshHeld (s : State) : Nat := s.csh.arrived.length + s.csh.fifo.countP (!·.written)

/-- The order in which occurrences of one cycle are taken (R701). -/
def occOrder (o : Occurrence) : Nat := 2 * o.origin + b2n (!o.queueEv)

/-- `o` put into a list sorted by R701, behind its equals. -/
def occInsert (o : Occurrence) : List Occurrence → List Occurrence
  | [] => [o]
  | p :: ps => if occOrder o < occOrder p then o :: p :: ps else p :: occInsert o ps

/-- An occurrence reaches the recorder: it is held, or discarded when 64 are held (R703). -/
def occArrive (s : State) (o : Occurrence) : State :=
  if cshHeld s ≥ 64 then
    raise (updCsh (bump s R.CSH_LOST 31 0 1) fun c => { c with lost := true }) P.csh 8
  else
    let s := updCsh s fun c => { c with arrived := c.arrived ++ [o] }
    peak s R.CSH_FIFO 22 16 (cshHeld s)

/-- CSH_OCCURRENCE (R701, R703): the `n` oldest occurrences on their way reach the recorder in one AON cycle. -/
def execCshOccurrence (n : Nat) (s : State) : Host.Outcome State Fault Refusal :=
  if s.boot.held then .next s
  else
    let now := (s.toCsh.take n).foldl (fun l o => occInsert o l) []
    .next (now.foldl occArrive { s with toCsh := s.toCsh.drop n })

/-- The triggers that match a record's code (R707). -/
def matching (s : State) (code : Nat) : List Nat :=
  (List.range 64).filter fun t =>
    let r := R.CSH_TRIG t
    rb s r 24 && decide (if rb s r 25 then rf s r 15 8 = code / 256 else rf s r 15 0 = code)

/-- CSH_ACCEPT (R701, R702, R707): one occurrence is accepted and stamped. -/
def execCshAccept (s : State) : Host.Outcome State Fault Refusal :=
  match s.csh.arrived with
  | [] => .next s
  | o :: rest =>
    .next (updCsh s fun c => { c with arrived := rest, fifo := c.fifo ++ [{ occ := o, ts := tbNs s, triggers := matching s o.code }] })

/-- CSH_RECORD_WRITE (R702, R704, R708): the oldest accepted occurrence is written, unless continuations come first. -/
def execCshRecordWrite (s : State) : Host.Outcome State Fault Refusal :=
  match s.csh.fifo with
  | [] => .next s
  | a :: rest =>
    if a.written then .next s
    else
      let s := writeRecord s (occurrenceBytes s a)
      .next (updCsh s fun c => { c with lost := false, fifo := if a.triggers.isEmpty then rest else { a with written := true } :: rest })

/-- Selector `i` of trigger `t`. -/
def selector (s : State) (t i : Nat) : Nat := rf s (R.CSH_SNAP_SEL t (i / 2)) (16 * (i % 2) + 15) (16 * (i % 2))

/-- A snapshot reads a register without clearing it (R28, R709); a gated island wakes (R22). -/
def snapRead (s : State) (sel : Nat) : State × Nat :=
  let off := 4 * sel
  let n := islandAt (off / 0x1000)
  let i := island s n
  match pageOf (off / 0x1000) with
  | none => (s, 0)
  | some (k, _) =>
    if i.st = .off ∨ i.fenced ∨ i.initing then (s, 0)
    else
      let s := wake s n
      if k = .ash ∧ off % 0x1000 = 0x144 then fresh s 32 else (s, regValue s off)

/-- The continuations of a trigger (R707, R708). -/
def continuations (t : Nat) (sels vals : List Nat) : Nat → State → State
  | 0, s => s
  | fuel + 1, s =>
    if sels.isEmpty then s
    else
      let pick (l : List Nat) : List Nat := l.take 4
      let mid := ((pick sels).zipIdx.map fun e => e.1 * 2 ^ (16 * e.2)).sum
      let b := cshBytes (0xE000 + t) 0xFF mid (pick vals) s.csh.seq (2 ^ 23 * b2n s.csh.lost)
      continuations t (sels.drop 4) (vals.drop 4) fuel (updCsh (writeRecord s b) fun c => { c with lost := false })

/-- CSH_SNAPSHOT (R707 to R709): the next matching trigger of the record just written reads its registers and writes its continuations. -/
def execCshSnapshot (s : State) : Host.Outcome State Fault Refusal :=
  match s.csh.fifo with
  | [] => .next s
  | a :: rest =>
    match a.triggers with
    | [] => .next s
    | t :: ts =>
      if !a.written then .next s
      else
        let sels := (List.range (min 16 (rf s (R.CSH_TRIG t) 20 16))).map (selector s t)
        let r := sels.foldl (fun (p : State × List Nat) x => let q := snapRead p.1 x; (q.1, p.2 ++ [q.2])) (s, [])
        let s := continuations t sels r.2 4 r.1
        .next (updCsh s fun c => { c with fifo := if ts.isEmpty then rest else { a with triggers := ts } :: rest })

/-! Software records (R700). -/

/-- A software record of a requester. -/
def softRecord (s : State) (req : Req) (code : Nat) (params : List Nat) : State :=
  toRecorder s { code := code, origin := 0xFE, detail := reqCode req, params := params }

/-- CSH_SW_CODE was written with GO: the record takes the code and CSH_SW_PARAM (R700). -/
def cshSoftware (s : State) (req : Req) (code : Nat) : State :=
  softRecord s req code ((List.range 4).map fun k => (rd s (R.CSH_SW_PARAM k)).toNat)

/-! The extension (R710 to R713). -/

/-- Base and length of the extension. -/
def extRange (s : State) : Nat × Nat :=
  (rf s R.CSH_EXT_BASE_LO 31 16 * 65536 + rf s R.CSH_EXT_BASE_HI 15 0 * 2 ^ 32, 65536 * rf s R.CSH_EXT_SIZE 9 0)

/-- A range lies in DRAM regions whose mask is not zero in the layout in effect. -/
def dramMapped (s : State) (a n : Nat) : Bool :=
  decide (0x1000000000 ≤ a) && decide (a + n ≤ 0x1800000000) && decide (0 < n)
    && (span ((a - 0x1000000000) / 0x40000000) ((a + n - 1 - 0x1000000000) / 0x40000000 + 1 - (a - 0x1000000000) / 0x40000000)).all
        fun r => regionMask s r ≠ 0

/-- EXT_EN is written 1 (R713): copying starts at S, or EXT_RANGE. -/
def cshExtEnable (s : State) (req : Req) : State :=
  let r := extRange s
  if dramMapped s r.1 r.2 then
    if rb s R.CSH_CTRL 0 then s else setReg (wb s R.CSH_CTRL 0 true) R.CSH_EXT_SEQ (BitVec.ofNat 32 s.csh.seq)
  else fault s P.csh 4 req (rf s R.CSH_EXT_SIZE 9 0) none

/-- The three writes of a copy on the bulk channel (R710), poisoned where the ring's granule is (R89): the status of the first that fails, or OK. -/
def copyWrites (s : State) (a : Nat) (b : List Byte) (poison : Bool) : State × Nat :=
  let put (s : State) (a : Nat) (bs : List Byte) : State × Nat :=
    devWrite s { engineVia 0 with chan := .bulk } a bs (if poison then [(0, bs.length)] else []) false
  let r := put s (a + 24) ((b.drop 24).take 4 ++ List.replicate 4 0)
  if r.2 ≠ MS.ok then r
  else
    let r := put r.1 a (b.take 24)
    if r.2 ≠ MS.ok then r else put r.1 (a + 24) (b.drop 24)

/-- The next record is copied, after a skip to the oldest record still in the ring (R710 to R712). -/
def cshExtCopy (s : State) : State :=
  let n := (rd s R.CSH_EXT_SEQ).toNat
  let behind := (s.csh.seq + 2 ^ 32 - n) % 2 ^ 32
  if !rb s R.CSH_CTRL 0 ∨ behind = 0 then s
  else
    let skip := behind - 2048
    let n := (n + skip) % 2 ^ 32
    let s := bump s R.CSH_EXT_SKIPPED 31 0 skip
    let a := (extRange s).1 + 32 * (n % (2048 * rf s R.CSH_EXT_SIZE 9 0))
    let r := copyWrites s a (cshEntry s (cshSlot n)) (s.csh.bad.contains (cshSlot n / 2))
    if r.2 = MS.ok then (setReg r.1 R.CSH_EXT_SEQ (BitVec.ofNat 32 (n + 1)))
    else (raise (hwFault (wb (setReg r.1 R.CSH_EXT_SEQ (BitVec.ofNat 32 n)) R.CSH_CTRL 0 false) P.csh 1 r.2) P.csh 9)

/-! Resets (R715, R789). -/

/-- A soft reset of the page discards what is not yet written and counts it after CSH_LOST has returned to zero (R789). -/
def cshSoftReset (s : State) : State :=
  let n := cshHeld s
  let s := setReg s R.CSH_LOST (BitVec.ofNat 32 n)
  updCsh s fun c => { c with arrived := [], fifo := c.fifo.filter (·.written), lost := c.lost || decide (n > 0) }

/-- The record being written when reset falls, broken off after `k` steps of R704. -/
def tornWrite (s : State) (k : Nat) : State :=
  match s.csh.fifo.find? (!·.written) with
  | some a => writeSteps s (occurrenceBytes s a) (min k 4)
  | none => s

/-- The first record after a reset (R715). -/
def resetRecord (s : State) : State :=
  updCsh s fun c => { c with arrived := { code := 0xC001, origin := 0xFF, detail := 0, params := [(rd s R.BOOT_RESET_CAUSE).toNat, 0, 0, 0] } :: c.arrived }

end Sys2Proof.Machine
end

