-- ==== Sys2Proof/Machine/Flt.lean ====
section
/-!
DEFINITION. Machine/Flt.lean: the fault aggregator FLT: severities, counts, the most severe fault, safety bits and error injection (24 R717 to R731).
-/
namespace Sys2Proof.Machine
open Sys2Proof

/-- A slot is of sentinel class. -/
def slotSentinel (s : State) (slot : Nat) : Bool := (sentinelSources s).any fun k => (declOf s k).slot = slot

/-- An Easel group is of sentinel class. -/
def groupSentinel (s : State) (g : Nat) : Bool := rb s (R.ESL_GRP_CFG g) 10 && decide (rf s (R.ESL_GRP_CFG g) 9 8 = 0)

/-- A fault is in sentinel context (R718). -/
def inSentinel (s : State) (pg cause info : Nat) : Bool :=
  if cause ≥ 0xF0 then false
  else match pageOf pg with
    | some (.ash, n) => rb s (R.ASH_MODE n) 4
    | some (.csi, _) | some (.eth, _) | some (.enl, _) => slotSentinel s (bits info 5 0)
    | some (.esl, _) => groupSentinel s (if cause = 4 then rf s R.ESL_AUDIO_CFG 5 0 else bits info 5 0)
    | some (.dpt, _) => decide (cause = 2) && hostsSentinel s (bits info 10 8)
    | _ => false

/-- The severity of a fault: 0 INFO, 1 MINOR, 2 MAJOR, 3 SAFETY (R718). -/
def severity (s : State) (pg cause info : Nat) : Nat :=
  let v := rf s (R.FLT_SEV (blockTypeAt pg - 1) (cause / 16)) (2 * (cause % 16) + 1) (2 * (cause % 16))
  if inSentinel s pg cause info then min 3 (v + 1) else v

/-- The pulse bit of FLT_SAFE_STATUS that a fault at SAFETY sets; none for CLAMP and TRIP, whose level bits stand for them (R721). -/
def pulseBit (pg cause : Nat) : Option Nat :=
  match pageOf pg with
  | some (.sbt, _) => some (if cause = 2 then 0 else 11)
  | some (.dpt, _) => some (if cause = 1 then 5 else 11)
  | some (.hod, _) => some (if cause = 0x0D then 5 else 11)
  | some (.mtr, _) => some (if cause = 6 then 5 else 11)
  | some (.ash, _) => some (if cause = 0x0C then 4 else if cause = 7 ∨ cause = 0x0D then 10 else 11)
  | some (.plb, _) => if cause = 3 ∨ cause = 4 then none else some 11
  | _ => some 11

/-- FLT_LAST takes a fault of a strictly higher severity (R725). -/
def lastFault (s : State) (pg cause sev : Nat) : State :=
  if sev ≤ rf s R.FLT_LAST 9 8 then s
  else
    let s := setReg s R.FLT_LAST (BitVec.ofNat 32 (pg + 256 * sev + 65536 * (blockTypeAt pg * 256 + cause)))
    let t := tbNs s
    setReg (setReg s R.FLT_LAST_TIME_LO (BitVec.ofNat 32 t)) R.FLT_LAST_TIME_HI (BitVec.ofNat 32 (t / 2 ^ 32))

/-- FLT reacts to a fault by its severity (R720). -/
def classify (s : State) (pg cause info : Nat) : State :=
  let sev := severity s pg cause info
  let s := bump s (R.FLT_BLOCK_COUNT (blockTypeAt pg - 1)) 31 0 1
  match sev with
  | 0 => s
  | 1 => lastFault (raise (bump s R.FLT_COUNT_MINOR 31 0 1) P.flt 8) pg cause 1
  | 2 => lastFault (signalFyp (raise (bump s R.FLT_COUNT_MAJOR 31 0 1) P.flt 9) (.severity 2)) pg cause 2
  | _ =>
    let s := lastFault (signalFyp (raise (bump s R.FLT_COUNT_SAFETY 31 0 1) P.flt 10) (.severity 3)) pg cause 3
    match pulseBit pg cause with
    | some b => safeSet s b true
    | none => s

/-- A message takes effect: a fault, an event (R720, R786), or a stall or its end (R721). -/
def takeMsg (s : State) (m : FltMsg) : State :=
  match m with
  | .fault pg cause info => classify s pg cause info
  | .event _ _ => bump s R.FLT_EVT_COUNT 31 0 1
  | .stall n =>
    if slotSentinel s n then safeSet { s with flt := { s.flt with stalled := NSet.add s.flt.stalled n } } 2 true else s
  | .unstall n =>
    let s := { s with flt := { s.flt with stalled := NSet.del s.flt.stalled n } }
    safeSet s 2 (inputLost s)

/-- The place of a message among those of one AON cycle: faults of equal severity in ascending page index (R725). -/
def msgOrder : FltMsg → Nat
  | .fault pg _ _ => pg
  | _ => 64

/-- `m` put into a list by `msgOrder`, behind its equals. -/
def msgInsert (m : FltMsg) : List FltMsg → List FltMsg
  | [] => [m]
  | p :: ps => if msgOrder m < msgOrder p then m :: p :: ps else p :: msgInsert m ps

/-- FLT_FAULT_ARRIVE (R717, R718): the `n` oldest messages reach FLT in one AON cycle. -/
def execFltFaultArrive (n : Nat) (s : State) : Host.Outcome State Fault Refusal :=
  let now := (s.toFlt.take n).foldl (fun l m => msgInsert m l) []
  .next (now.foldl takeMsg { s with toFlt := s.toFlt.drop n })

/-- The pulse bits of FLT_SAFE_STATUS. -/
def pulseMask : Nat := 0xC31

/-- A write of FLT_SAFE_STATUS, or of FLT_SAFE_SEEN (`seen`): the PF and Fypajo clear pulse or seen bits, others are refused (R723). -/
def safeClear (s : State) (req : Req) (seen : Bool) (v : Nat) : State :=
  let hit := if seen then v % 8192 else v &&& pulseMask
  if hit = 0 then s
  else if req ≠ .pf ∧ req ≠ .fyp then fault s P.flt 3 req (v % 8192 + 8192 * b2n seen + 0x1000000 * reqCode req) none
  else if seen then setReg s R.FLT_SAFE_SEEN (rd s R.FLT_SAFE_SEEN &&& BitVec.ofNat 32 (0x1FFF - hit))
  else (bitList hit 13).foldl (fun s b => safeSet s b false) s

/-- FLT_CTRL.CLEAR_LAST (R725). -/
def clearLast (s : State) : State :=
  setReg (setReg (setReg s R.FLT_LAST 0) R.FLT_LAST_TIME_LO 0) R.FLT_LAST_TIME_HI 0

/-! Error injection (R729 to R731). -/

/-- An injection is armed, and its first record written (R731). -/
def arm (s : State) (target : Nat) : State :=
  let a := (rd s R.FLT_INJ_ARG).toNat
  let s := setReg { s with flt := { s.flt with injArg := a } } R.FLT_INJ_STATUS (BitVec.ofNat 32 (1 + 256 * target))
  raiseRecord s P.flt 11 [target, a, 0, 0]

/-- TEMP and TRIP_TEST fire at once (R730). -/
def fireHeat (s : State) (trip : Bool) : State :=
  let a := s.flt.injArg
  let s := { s with flt := { s.flt with heat := some { sensor := bits a 4 0, deg := bits a 15 8, trip := trip, stop := s.clock + 2500000 } } }
  raiseRecord (wf s R.FLT_INJ_STATUS 1 0 2) P.flt 11 [if trip then 10 else 9, a, 1, 0]

/-- A write of FLT_INJ_CTRL (R729, R730). -/
def inject (s : State) (req : Req) (v : Nat) : State :=
  let target := bits v 7 0
  let life := s.boot.otp.lifecycle
  if (req ≠ .pf ∧ req ≠ .fyp) ∨ bits v 31 16 ≠ 0x1A7E ∨ bits v 15 15 ≠ 1
      ∨ (life = 2 ∧ !rb s R.FLT_INJ_ALLOW 0) ∨ (target = 10 ∧ life ≠ 1) then
    fault s P.flt 1 req (target + 256 * life) none
  else if rf s R.FLT_INJ_STATUS 1 0 = 1 then fault s P.flt 2 req target none
  else
    let s := arm s target
    if target = 9 then fireHeat s false else if target = 10 then fireHeat s true else s

/-- INJECTION_EXPIRE (R730): an armed injection has not fired within 1 s. -/
def execInjectionExpire (s : State) : Host.Outcome State Fault Refusal :=
  .next (if rf s R.FLT_INJ_STATUS 1 0 = 1 then wf s R.FLT_INJ_STATUS 1 0 3 else s)

end Sys2Proof.Machine
end

