-- ==== Sys2Proof/Machine/Crypto.lean ====
section
/-!
DEFINITION. Machine/Crypto.lean: SHA-384 (FIPS 180-4) and the verification of ECDSA P-384 signatures (FIPS 186), which the boot ROM uses
(04 R108, R109, R121).
-/
namespace Sys2Proof.Machine
open Sys2Proof

/-- The round constants of SHA-512 and SHA-384. -/
def shaK : List Nat :=
  [0x428A2F98D728AE22, 0x7137449123EF65CD, 0xB5C0FBCFEC4D3B2F, 0xE9B5DBA58189DBBC,
   0x3956C25BF348B538, 0x59F111F1B605D019, 0x923F82A4AF194F9B, 0xAB1C5ED5DA6D8118,
   0xD807AA98A3030242, 0x12835B0145706FBE, 0x243185BE4EE4B28C, 0x550C7DC3D5FFB4E2,
   0x72BE5D74F27B896F, 0x80DEB1FE3B1696B1, 0x9BDC06A725C71235, 0xC19BF174CF692694]
  ++ [0xE49B69C19EF14AD2, 0xEFBE4786384F25E3, 0x0FC19DC68B8CD5B5, 0x240CA1CC77AC9C65,
   0x2DE92C6F592B0275, 0x4A7484AA6EA6E483, 0x5CB0A9DCBD41FBD4, 0x76F988DA831153B5,
   0x983E5152EE66DFAB, 0xA831C66D2DB43210, 0xB00327C898FB213F, 0xBF597FC7BEEF0EE4,
   0xC6E00BF33DA88FC2, 0xD5A79147930AA725, 0x06CA6351E003826F, 0x142929670A0E6E70]
  ++ [0x27B70A8546D22FFC, 0x2E1B21385C26C926, 0x4D2C6DFC5AC42AED, 0x53380D139D95B3DF,
   0x650A73548BAF63DE, 0x766A0ABB3C77B2A8, 0x81C2C92E47EDAEE6, 0x92722C851482353B,
   0xA2BFE8A14CF10364, 0xA81A664BBC423001, 0xC24B8B70D0F89791, 0xC76C51A30654BE30,
   0xD192E819D6EF5218, 0xD69906245565A910, 0xF40E35855771202A, 0x106AA07032BBD1B8]
  ++ [0x19A4C116B8D2D0C8, 0x1E376C085141AB53, 0x2748774CDF8EEB99, 0x34B0BCB5E19B48A8,
   0x391C0CB3C5C95A63, 0x4ED8AA4AE3418ACB, 0x5B9CCA4F7763E373, 0x682E6FF3D6B2B8A3,
   0x748F82EE5DEFB2FC, 0x78A5636F43172F60, 0x84C87814A1F0AB72, 0x8CC702081A6439EC,
   0x90BEFFFA23631E28, 0xA4506CEBDE82BDE9, 0xBEF9A3F7B2C67915, 0xC67178F2E372532B]
  ++ [0xCA273ECEEA26619C, 0xD186B8C721C0C207, 0xEADA7DD6CDE0EB1E, 0xF57D4F7FEE6ED178,
   0x06F067AA72176FBA, 0x0A637DC5A2C898A6, 0x113F9804BEF90DAE, 0x1B710B35131C471B,
   0x28DB77F523047D84, 0x32CAAB7B40C72493, 0x3C9EBE0A15C9BEBC, 0x431D67C49C100D4C,
   0x4CC5D4BECB3E42B6, 0x597F299CFC657E2A, 0x5FCB6FAB3AD6FAEC, 0x6C44198C4A475817]

/-- The initial hash value of SHA-384. -/
def shaIv : List Nat :=
  [0xCBBB9D5DC1059ED8, 0x629A292A367CD507, 0x9159015A3070DD17, 0x152FECD8F70E5939,
   0x67332667FFC00B31, 0x8EB44A8768581511, 0xDB0C2E0D64F98FA7, 0x47B5481DBEFA4FA4]

/-- A 64-bit word rotated right. -/
def rotr64 (v k : Nat) : Nat := v >>> k + (v % 2 ^ k) <<< (64 - k)

/-- The bytes as a big-endian number. -/
def beNum (bs : List Byte) : Nat := bs.foldl (fun v b => v * 256 + b.toNat) 0

/-- A number as `n` bytes, big-endian. -/
def beBytes (n v : Nat) : List Byte := (leBytes n v).reverse

/-- The message schedule: words 16 to 79 from the sixteen of the block, newest first. -/
def shaExtend : Nat → List Nat → List Nat
  | 0, w => w
  | k + 1, w =>
    let x := nth w 14 0
    let y := nth w 1 0
    let s0 := rotr64 x 1 ^^^ rotr64 x 8 ^^^ x >>> 7
    let s1 := rotr64 y 19 ^^^ rotr64 y 61 ^^^ y >>> 6
    shaExtend k ((nth w 15 0 + s0 + nth w 6 0 + s1) % 2 ^ 64 :: w)

/-- One step of the compression: the working variables a to h. -/
def shaStep (v : List Nat) (kw : Nat) : List Nat :=
  let a := nth v 0 0
  let b := nth v 1 0
  let c := nth v 2 0
  let e := nth v 4 0
  let t1 := nth v 7 0 + (rotr64 e 14 ^^^ rotr64 e 18 ^^^ rotr64 e 41) + ((e &&& nth v 5 0) ^^^ ((2 ^ 64 - 1 - e) &&& nth v 6 0)) + kw
  let t2 := (rotr64 a 28 ^^^ rotr64 a 34 ^^^ rotr64 a 39) + ((a &&& b) ^^^ (a &&& c) ^^^ (b &&& c))
  [(t1 + t2) % 2 ^ 64, a, b, c, (nth v 3 0 + t1) % 2 ^ 64, e, nth v 5 0, nth v 6 0]

/-- The compression of one block of 128 bytes. -/
def shaBlock (h : List Nat) (blk : List Byte) : List Nat :=
  let w := (shaExtend 64 ((List.range 16).map fun i => beNum ((blk.drop (8 * i)).take 8)).reverse).reverse
  let v := ((shaK.zip w).map fun e => e.1 + e.2).foldl shaStep h
  (h.zip v).map fun e => (e.1 + e.2) % 2 ^ 64

/-- The blocks of a padded message, in order. -/
def shaBlocks : Nat → List Nat → List Byte → List Nat
  | 0, h, _ => h
  | k + 1, h, bs => shaBlocks k (shaBlock h (bs.take 128)) (bs.drop 128)

/-- SHA-384 of a message: 48 bytes. -/
def sha384 (msg : List Byte) : List Byte :=
  let n := msg.length
  let blocks := (n + 17 + 127) / 128
  let padded := msg ++ [0x80] ++ List.replicate (128 * blocks - n - 17) 0 ++ beBytes 16 (8 * n)
  ((shaBlocks blocks shaIv padded).flatMap (beBytes 8)).take 48

/-! P-384. -/

/-- The field prime, the coefficient b, the group order and the base point of P-384. -/
def p384 : Nat := 2 ^ 384 - 2 ^ 128 - 2 ^ 96 + 2 ^ 32 - 1
def b384 : Nat := 0xB3312FA7E23EE7E4988E056BE3F82D19181D9C6EFE8141120314088F5013875AC656398D8A2ED19D2A85C8EDD3EC2AEF
def n384 : Nat := 0xFFFFFFFFFFFFFFFFFFFFFFFFFFFFFFFFFFFFFFFFFFFFFFFFC7634D81F4372DDF581A0DB248B0A77AECEC196ACCC52973
def g384 : Nat × Nat :=
  (0xAA87CA22BE8B05378EB1C71EF320AD746E1D3B628BA79B9859F741E082542A385502F25DBF55296C3A545E3872760AB7,
   0x3617DE4A96262C6F5D9E98BF9292DC29F8F41DBD289A147CE9DA3113B5F0B8C00A60B1CE1D7E819D7A431D7C90EA0E5F)

/-- A point lies on the curve. -/
def onCurve (q : Nat × Nat) : Bool :=
  decide (q.1 < p384) && decide (q.2 < p384)
    && decide (q.2 * q.2 % p384 = (q.1 * q.1 % p384 * q.1 + (p384 - 3) * q.1 + b384) % p384)

/-- The sum of two points; none is the point at infinity. -/
def addPoint (a b : Option (Nat × Nat)) : Option (Nat × Nat) :=
  match a, b with
  | none, q => q
  | q, none => q
  | some (x1, y1), some (x2, y2) =>
    if x1 = x2 ∧ (y1 + y2) % p384 = 0 then none
    else
      let m := if x1 = x2 then (3 * x1 * x1 + p384 - 3) * invMod (2 * y1) p384 % p384
               else (y2 + p384 - y1) * invMod (x2 + p384 - x1) p384 % p384
      let x := (m * m + 2 * p384 - x1 - x2) % p384
      some (x, (m * (x1 + p384 - x) + p384 - y1) % p384)

/-- A multiple of a point, by the bits of `k` from the lowest. -/
def mulPoint : Nat → Nat → Option (Nat × Nat) → Option (Nat × Nat)
  | 0, _, _ => none
  | fuel + 1, k, q =>
    let r := mulPoint fuel (k / 2) (addPoint q q)
    if k % 2 = 1 then addPoint r q else r

/-- The signature (r, s) of a hash is valid under the public key `q`. -/
def ecdsaOk (q : Nat × Nat) (hash r s : Nat) : Bool :=
  onCurve q && decide (0 < r) && decide (r < n384) && decide (0 < s) && decide (s < n384) &&
    (let w := invMod s n384
     match addPoint (mulPoint 384 (hash * w % n384) (some g384)) (mulPoint 384 (r * w % n384) (some q)) with
     | some p => decide (p.1 % n384 = r)
     | none => false)

end Sys2Proof.Machine
end

