-- ==== Sys2Proof/Machine/Manifest.lean ====
section
/-!
DEFINITION. Machine/Manifest.lean: the boot flash, containers and their verification (04 R102 to R109), the sections of the manifest, the declaration
blocks, and the checks of 04 R118 with the rules that other chapters add to them.
-/
namespace Sys2Proof.Machine
open Sys2Proof

/-- The `n` bytes of the boot flash from `a`; an erased byte reads 0xFF. -/
def flashBytes (s : State) (a n : Nat) : List Byte := (span a n).map fun k => SMap.getD s.boot.flash k 0xFF

/-- `s` with the bytes `bs` in flash from `a` on. -/
def setFlash (s : State) (a : Nat) (bs : List Byte) : State :=
  { s with boot := { s.boot with flash := (bs.zip (span a bs.length)).foldl (fun m e => SMap.put m e.2 e.1 0xFF) s.boot.flash } }

/-- First address and size of the model store (R102). -/
abbrev storeBase : Nat := 0x00A50000
abbrev storeSize : Nat := 0x035B0000

/-! Containers. -/

/-- The start of slot `ab` (0 A, 1 B) of a kind (0 image, 1 manifest) and the longest container of it. -/
def slotBase (kind ab : Nat) : Nat :=
  if kind = 0 then (if ab = 0 then 0x00010000 else 0x00420000) else (if ab = 0 then 0x00830000 else 0x00940000)
def slotMax (kind : Nat) : Nat := if kind = 0 then 0x400000 else 0x100000

/-- LENGTH, SEC_VERSION, BUILD, SECTIONS, KEY_INDEX and MIN_IMAGE of a container (R106). -/
abbrev cLen (c : List Byte) : Nat := field c 8 4
abbrev cSec (c : List Byte) : Nat := field c 12 4
abbrev cBuild (c : List Byte) : Nat := field c 16 4
abbrev cSections (c : List Byte) : Nat := field c 20 2
abbrev cKey (c : List Byte) : Nat := field c 22 1
abbrev cMin (c : List Byte) : Nat := field c 24 4

/-- The container in a slot, as far as its LENGTH and its slot allow. -/
def containerIn (s : State) (kind ab : Nat) : List Byte :=
  flashBytes s (slotBase kind ab) (max 128 (min (slotMax kind) (field (flashBytes s (slotBase kind ab) 128) 8 4)))

/-- The signed bytes of a container and its trailer (R108). -/
def cSigned (c : List Byte) : List Byte := c.take (cLen c - 200)
def cTrailer (c : List Byte) : List Byte := (c.drop (cLen c - 200)).take 200

/-- The first condition of R109 that a container fails: 1 format, 2 key, 3 signature, 4 rollback; 0 where it verifies. A RETIRED die treats every
key slot as revoked (R124). DEDUCED: a SEC_VERSION above the 64 of R106, which no count of 64 fuses can reach (R123), is a format that fails. -/
def verify (s : State) (kind : Nat) (c : List Byte) : Nat :=
  let t := cTrailer c
  let magic := if kind = 0 then 0x474D4943 else 0x464E4D43
  let key := nth s.boot.otp.keys (cKey c) []
  if field c 0 4 ≠ magic ∨ field c 4 2 ≠ 1 ∨ field c 6 2 ≠ 128 ∨ cLen c > slotMax kind ∨ cLen c < 328 ∨ cSec c > 64 then 1
  else if cKey c > 3 ∨ bit s.boot.otp.revoked (cKey c) ∨ s.boot.otp.lifecycle = 3 ∨ sha384 (t.take 97) ≠ key then 2
  else if field t 0 1 ≠ 4 ∨ !ecdsaOk (beNum ((t.drop 1).take 48), beNum ((t.drop 49).take 48)) (beNum (sha384 (cSigned c)))
      (beNum ((t.drop 100).take 48)) (beNum ((t.drop 148).take 48)) then 3
  else if cSec c < s.boot.otp.rollback then 4
  else 0

/-! Sections (R107, R115). -/

/-- Entry `i` of the section directory: type, entry count, offset, length. -/
def dirEntry (c : List Byte) (i : Nat) : Nat × Nat × Nat × Nat :=
  let b := 128 + 16 * i
  (field c b 2, field c (b + 4) 4, field c (b + 8) 4, field c (b + 12) 4)

/-- The section directory. -/
def directory (c : List Byte) : List (Nat × Nat × Nat × Nat) := (List.range (cSections c)).map (dirEntry c)

/-- Entry size, fewest and most entries of a section type. -/
def sectionShape (t : Nat) : Nat × Nat × Nat :=
  match t with
  | 1 => (32, 0, 36) | 2 => (64, 0, 8) | 3 => (96, 0, 256) | 4 => (32, 1, 2) | 5 => (32, 1, 1)
  | 6 => (64, 1, 1) | 7 => (32, 1, 1) | 8 => (16, 1, 16) | _ => (4, 39, 39)

/-- The entries of a section. -/
def entries (c : List Byte) (t : Nat) : List (List Byte) :=
  match (directory c).find? (·.1 = t) with
  | none => []
  | some (_, n, off, _) => let z := (sectionShape t).1; (List.range n).map fun i => (c.drop (off + i * z)).take z

/-- Entry `i` of a section. -/
def entryOf (c : List Byte) (t i : Nat) : List Byte := nth (entries c t) i []

/-- Why a manifest is refused: reason, section, entry (BOOT_REASON). -/
abbrev Why := Nat × Nat × Nat

/-- A check: none where it holds. -/
def chk (ok : Bool) (r sec e : Nat) : Option Why := if ok then none else some (r, sec, e)

/-- The first failure of a list of checks. -/
def firstOf (l : List (Option Why)) : Option Why := l.findSome? id

/-- A check of each entry of a section, in order. -/
def eachEntry (c : List Byte) (t r : Nat) (ok : Nat → List Byte → Bool) : Option Why :=
  firstOf ((entries c t).zipIdx.map fun e => chk (ok e.2 e.1) r t e.2)

/-- Two byte ranges overlap. -/
def meets (a n b m : Nat) : Bool := decide (0 < n) && decide (0 < m) && decide (a < b + m) && decide (b < a + n)

/-- No two ranges of a list overlap. -/
def apart : List (Nat × Nat) → Bool
  | [] => true
  | r :: rs => rs.all (fun q => !meets r.1 r.2 q.1 q.2) && apart rs

/-- Check 2: every section of R115 once, no other, within bounds, aligned, apart (R107). The failing section is named by its type (BOOT_REASON); of two that
overlap it is the later one of the directory. -/
def checkSections (c : List Byte) : Option Why :=
  let d := directory c
  let lo := 128 + 16 * cSections c
  let hi := cLen c - 200
  firstOf ((span 1 9).map (fun t => chk (d.countP (·.1 = t) = 1) 7 t 0)
    ++ d.map (fun e => chk (decide (1 ≤ e.1) && decide (e.1 ≤ 9)) 7 e.1 0)
    ++ d.map (fun e =>
      let z := sectionShape e.1
      chk (decide (e.2.2.1 % 8 = 0) && decide (lo ≤ e.2.2.1) && decide (e.2.2.1 + e.2.2.2 ≤ hi) && decide (e.2.2.2 = e.2.1 * z.1)
        && decide (z.2.1 ≤ e.2.1) && decide (e.2.1 ≤ z.2.2)) 7 e.1 0)
    ++ d.zipIdx.map fun e => chk ((d.take e.2).all fun q => !meets q.2.2.1 q.2.2.2 e.1.2.2.1 e.1.2.2.2) 7 e.1.1 0)

/-! Entries. -/

/-- Fields of a STREAMS entry (R284). -/
abbrev sSlot (e : List Byte) : Nat := field e 0 1
abbrev sKind (e : List Byte) : Nat := field e 1 1
abbrev sPort (e : List Byte) : Nat := field e 2 1
abbrev sVc (e : List Byte) : Nat := field e 3 1
abbrev sFormat (e : List Byte) : Nat := field e 12 1
abbrev sPart (e : List Byte) : Nat := bits (field e 13 1) 2 0
abbrev sClass (e : List Byte) : Nat := bits (field e 13 1) 5 4
abbrev sWidth (e : List Byte) : Nat := field e 14 2
abbrev sHeight (e : List Byte) : Nat := field e 16 2
abbrev sRate (e : List Byte) : Nat := field e 18 2
abbrev sQueue (e : List Byte) : Nat := field e 20 2
abbrev sMaxKib (e : List Byte) : Nat := field e 22 2
abbrev sOn (e : List Byte) : Bool := bit (field e 24 1) 0

/-- Fields of a PARTITIONS entry (R522). -/
abbrev pIndex (e : List Byte) : Nat := field e 0 1
abbrev pClasses (e : List Byte) : Nat := field e 1 1
abbrev pFlags (e : List Byte) : Nat := field e 2 1
abbrev pCores (e : List Byte) : Nat := field e 3 1
abbrev pChannels (e : List Byte) : Nat := field e 4 1
abbrev pMbase (e : List Byte) : Nat := 0x08000000 + 4096 * field e 6 2
abbrev pMsize (e : List Byte) : Nat := 4096 * field e 8 2
abbrev pDeclAt (e : List Byte) : Nat := 4096 * field e 10 2
abbrev pDeclLen (e : List Byte) : Nat := 8 * field e 12 2

/-- Fields of a MODELS entry (R507). -/
abbrev mLocal (e : List Byte) : Bool := bit (field e 48 1) 0
abbrev mPart (e : List Byte) : Nat := field e 49 1
abbrev mInQ (e : List Byte) : Nat := field e 50 2
abbrev mOutQ (e : List Byte) : Nat := field e 52 2
abbrev mStoreAt (e : List Byte) : Nat := field e 56 4
abbrev mStoreLen (e : List Byte) : Nat := field e 60 4
abbrev mDeadline (e : List Byte) : Nat := field e 64 4
abbrev mAction (e : List Byte) : Nat := field e 68 1

/-- The masks of a DRAM_LAYOUT entry (R177). -/
def layoutOf (e : List Byte) : List Nat := e.map (·.toNat)

/-- ISLANDS entry `n` (R116). -/
def islandPolicy (c : List Byte) (n : Nat) : Nat := field (entryOf c 9 n) 0 4

/-- The PARTITIONS entry of partition `p`. -/
def partEntry (c : List Byte) (p : Nat) : Option (List Byte) := (entries c 2).find? fun e => pIndex e = p

/-! Declaration blocks (R523). -/

/-- A record of a declaration block: its partition, the PARTITIONS entry that names the block, its bytes. -/
structure DeclRec where
  part : Nat
  entry : Nat
  bytes : List Byte
deriving DecidableEq, Repr

/-- The type of a record, and the number it declares (k, window, queue, pool, identity, group, slot; 0 for AUDIO). -/
abbrev DeclRec.kind (r : DeclRec) : Nat := field r.bytes 0 1
def DeclRec.key (r : DeclRec) : Nat := if r.kind = 3 then field r.bytes 4 2 else if r.kind = 8 then 0 else field r.bytes 4 1

/-- The 32-bit image at byte `o` of a record. -/
abbrev DeclRec.word (r : DeclRec) (o : Nat) : Nat := field r.bytes o 4

/-- The context image of a QUEUE record, EN clear, as one number of eight words. -/
def DeclRec.ctx (r : DeclRec) : Nat := cput (ofLe ((r.bytes.drop 8).take 32)) 1 31 31 0

/-- A block cut into its records; none where a length is wrong. -/
def cutRecords : Nat → List Byte → Option (List (List Byte))
  | 0, bs => if bs.isEmpty then some [] else none
  | fuel + 1, bs =>
    if bs.isEmpty then some []
    else
      let n := field bs 2 2
      if n < 8 ∨ n % 8 ≠ 0 ∨ n > bs.length then none else (cutRecords fuel (bs.drop n)).map (bs.take n :: ·)

/-- The declaration block of a PARTITIONS entry. -/
def declBlock (s : State) (e : List Byte) : List Byte := flashBytes s (storeBase + pDeclAt e) (pDeclLen e)

/-- The records of every block, in the order of the PARTITIONS entries. -/
def declRecs (s : State) (c : List Byte) : List DeclRec :=
  (entries c 2).zipIdx.flatMap fun e =>
    let b := declBlock s e.1
    ((cutRecords b.length b).getD []).map fun r => { part := pIndex e.1, entry := e.2, bytes := r }

/-- The record that declares something: by type and number. -/
def declared (rs : List DeclRec) (kind key : Nat) : Option DeclRec := rs.find? fun r => r.kind = kind && r.key = key

/-- The QUEUE image that partition `p` declares for queue `q`. -/
def queueDecl (rs : List DeclRec) (p q : Nat) : Option Nat :=
  (rs.find? fun r => r.kind = 3 && r.part = p && r.key = q).map (·.ctx)

/-- The ring of a context image lies in Mortar SRAM. -/
def ringInMortar (c : Nat) : Bool := decide (0x08000000 ≤ ctxBase c) && decide (ctxBase c + 64 * ctxCap c ≤ 0x10000000)

/-- An image of the register at `off` carries no reserved bit or value. -/
def imageOk (off w : Nat) : Bool :=
  match findReg off with
  | some r => wordOk r .boot w
  | none => false

/-- The layout and images of a record (R523, R524): no reserved value in them, nor in the entries of a ROI list (R338); a raw slot has no Developer output
queue. -/
def recordOk (c : List Byte) (r : DeclRec) : Bool :=
  let b := r.bytes
  let len := b.length
  let zero (lo n : Nat) : Bool := decide (field b lo n = 0)
  let k := r.key
  zero 1 1 && (match r.kind with
    | 1 => decide (len = 24) && decide (k ≤ 7) && zero 5 3 && imageOk (R.PCI_PWIN_BASE_LO 0) (r.word 8) && imageOk (R.PCI_PWIN_BASE_HI 0) (r.word 12)
        && imageOk (R.PCI_PWIN_LIMIT_LO 0) (r.word 16) && imageOk (R.PCI_PWIN_LIMIT_HI 0) (r.word 20)
    | 2 => decide (len = 24) && decide (k ≤ 15) && zero 5 3 && imageOk (R.PCI_HWIN_BASE_LO 0) (r.word 8) && imageOk (R.PCI_HWIN_CFG 0) (r.word 16)
        && imageOk (R.PCI_HWIN_CFG_HI 0) (r.word 20) && decide (bits (r.word 20) 3 0 = r.part + 1)
    | 3 =>
      let c := ofLe ((b.drop 8).take 32)
      decide (len = 40) && decide (field b 6 1 ≤ 1) && zero 7 1 && decide (c &&& ctxReserved = 0) && decide (3 ≤ ctxLog2 c) && decide (ctxLog2 c ≤ 16)
        && decide (ctxProd c ≠ 3) && !(cf c 6 14 13 = 3) && (decide (cf c 6 14 13 ≠ 2) || decide (cf c 6 26 22 = 0)) && decide (ctxPart c = r.part)
        && decide (ctxHead c = 0) && decide (ctxTail c = 0) && decide (ctxDepth c = 0) && decide (ctxResv c = 0) && decide (ctxState c = 0) && decide (cf c 4 31 24 = 0)
    | 4 => decide (len = 24) && decide (k ≤ 7) && zero 5 3 && zero 20 4 && imageOk (R.QRY_POOL_BASE_LO 0) (r.word 8)
        && imageOk (R.QRY_POOL_BASE_HI 0) (r.word 12) && imageOk (R.QRY_POOL_CFG 0) (r.word 16)
    | 5 => decide (len = 24) && decide (k ≤ 63) && zero 5 3
    | 6 => decide (len = 16) && decide (k ≤ 63) && zero 5 3 && imageOk (R.ESL_GRP_CFG 0) (r.word 8) && imageOk (R.ESL_GRP_QUEUE 0) (r.word 12)
    | 7 => decide (len = 80 + 32 * field b 16 1) && decide (field b 16 1 ≤ 64) && decide (k ≤ 35) && zero 5 1 && zero 17 63
        && imageOk (R.ENL_SLOT_LIST_LO 0 0) (r.word 8) && imageOk (R.ENL_SLOT_LIST_HI 0 0) (r.word 12)
        && (List.range (field b 16 1)).all (fun i => roiValues (roiOf (b.drop 16) i))
        && (zero 6 2 || !(entries c 1).any fun e => sSlot e = k && decide (sFormat e < 0x10))
    | 8 => decide (len = 24) && zero 4 4 && imageOk R.ESL_AUDIO_BASE_LO (r.word 8) && imageOk R.ESL_AUDIO_BASE_HI (r.word 12)
        && imageOk R.ESL_AUDIO_CFG (r.word 16) && imageOk R.AUD_MIC_CFG (r.word 20)
        && (let w := r.word 16
            decide (bits w 23 16 ≤ bits w 15 8) && decide (bits w 15 8 < bits w 31 24))
    | _ => false)

/-! Check 3: fields (R118, R524). -/

/-- No reserved value and no non-zero reserved byte in a STREAMS entry (R284). -/
def streamFieldsOk (e : List Byte) : Bool :=
  let csi := decide (sKind e = 1)
  decide (sSlot e ≤ 35) && decide (1 ≤ sKind e) && decide (sKind e ≤ 3) && decide (sPort e ≤ if csi then 7 else 1)
    && decide (sVc e ≤ if csi then 15 else 0) && (!csi || decide (field e 4 8 = 0)) && (sKind e ≠ 3 || decide (field e 6 6 = 0))
    && [1, 2, 3, 4, 5, 0x10, 0x11, 0x12].contains (sFormat e) && decide (field e 13 1 &&& 0xC8 = 0) && decide (1 ≤ sRate e)
    && (sFormat e ≥ 0x10 || decide (sMaxKib e = 0)) && decide (field e 24 1 ≤ 1) && decide (field e 25 7 = 0)

/-- The same of a PARTITIONS entry (R522), its index not used before. -/
def partFieldsOk (c : List Byte) (i : Nat) (e : List Byte) : Bool :=
  decide (pIndex e ≤ 7) && ((entries c 2).take i).all (fun d => pIndex d ≠ pIndex e) && decide (pClasses e ≤ 15) && decide (pFlags e ≤ 3)
    && decide (field e 5 1 = 0) && decide (field e 14 2 = 0) && decide (pDeclLen e ≤ 65536)
    && (pDeclLen e ≠ 0 || decide (field e 16 48 = 0)) && (!bit (pFlags e) 1 || bit (pClasses e) 0)

/-- The same of a MODELS entry (R507). -/
def modelFieldsOk (e : List Byte) : Bool :=
  decide (field e 48 1 ≤ 1) && decide (mPart e ≤ 7) && decide (field e 54 2 = 0) && decide (mStoreAt e % 4096 = 0)
    && (mLocal e || decide (field e 56 8 = 0)) && decide (1 ≤ mDeadline e) && decide (mDeadline e ≤ 1000000) && decide (mAction e ≤ 2)
    && decide (field e 69 27 = 0)

/-- The same of the single-entry sections (R564, R565, R566, R659) and of ISLANDS (R116). -/
def powerFieldsOk (e : List Byte) : Bool :=
  decide (1 ≤ field e 2 2) && decide (1 ≤ field e 4 2) && (span 6 12).all (fun i => decide (1 ≤ field e i 1)) && decide (field e 19 1 ≤ 1)
    && decide (field e 20 12 = 0)
def thermalFieldsOk (e : List Byte) : Bool :=
  decide (1 ≤ field e 0 2) && decide (field e 0 2 ≤ 10000) && decide (1 ≤ field e 2 2) && decide (60 ≤ field e 4 1) && decide (field e 4 1 ≤ 115)
    && decide (field e 5 1 + 1 ≤ field e 4 1) && decide (field e 6 2 = 0) && decide (field e 32 32 = 0)
def alertFieldsOk (e : List Byte) : Bool :=
  decide (field e 2 1 ≤ 7) && decide (field e 3 1 ≤ 3) && decide (1 ≤ field e 4 1) && decide (field e 4 1 ≤ 3) && decide (field e 5 1 ≤ 40)
    && ((decide (20 ≤ field e 6 1) && decide (field e 6 1 ≤ 96)) || decide (field e 6 1 = 255)) && decide (field e 7 1 = 0)
    && decide (field e 8 4 % 4096 = 0) && decide (256 ≤ field e 12 4) && decide (field e 12 4 ≤ 524288)
def safeFieldsOk (e : List Byte) : Bool := decide (field e 1 1 = 0) && decide (field e 8 8 = 0)
def islandFieldsOk (e : List Byte) : Bool := decide (field e 0 4 ≤ 7) && decide (bits (field e 0 4) 1 0 ≠ 3)

/-- Check 3 of R118, with the record checks of R524 and the mask check of R178. -/
def checkFields (s : State) (c : List Byte) : Option Why :=
  let parts := (entries c 2).zipIdx
  firstOf [
    eachEntry c 1 8 fun _ => streamFieldsOk,
    firstOf (parts.map fun e =>
      let b := declBlock s e.1
      let good := match cutRecords b.length b with
        | none => false
        | some rs => rs.all fun r => recordOk c { part := pIndex e.1, entry := e.2, bytes := r }
      chk (partFieldsOk c e.2 e.1 && good) 8 2 e.2),
    eachEntry c 3 8 fun _ => modelFieldsOk,
    eachEntry c 4 8 fun _ e => (layoutOf e).all fun m => [0, 1, 2, 4, 8].contains (popc8 m),
    eachEntry c 5 8 fun _ => powerFieldsOk,
    eachEntry c 6 8 fun _ => thermalFieldsOk,
    eachEntry c 7 8 fun _ => alertFieldsOk,
    eachEntry c 8 8 fun _ => safeFieldsOk,
    eachEntry c 9 8 fun _ => islandFieldsOk]

/-- Each declaration block lies in the model store and has its hash (R524). -/
def checkBlocks (s : State) (c : List Byte) : Option Why :=
  eachEntry c 2 7 fun _ e => decide (pDeclAt e + pDeclLen e ≤ storeSize)
    && (decide (pDeclLen e = 0) || decide (sha384 (declBlock s e) = (e.drop 16).take 48))

/-! Check 4: streams (R118, R285, R369). -/

/-- The size of a frame and the limits of a stream's format (R285, R287, R316). -/
def streamSizeOk (e : List Byte) : Bool :=
  let w := sWidth e
  let h := sHeight e
  let f := sFormat e
  if f < 0x10 then
    decide (16 ≤ w) && decide (w ≤ 4096) && decide (16 ≤ h) && decide (h ≤ 4096) && decide (w % (if f = 2 then 4 else if f = 3 ∨ f = 4 then 2 else 1) = 0)
      && decide (alignUp (w * (rawFormat f w).1) 64 * h ≤ 0x400000)
  else
    decide (64 ≤ w) && decide (w ≤ 4096) && decide (64 ≤ h) && decide (h ≤ 2304) && decide (w % 2 = 0) && decide (h % 2 = 0)
      && decide (1 ≤ sMaxKib e) && decide (sMaxKib e ≤ 4096) && decide (alignUp (w * (if f = 0x10 then 1 else 2)) 64 * h ≤ 4194304)

/-- The source that a STREAMS entry names (R283): port and virtual channel, MAC and stream, or the host-push queue whichever page serves it. -/
def sourceOf (e : List Byte) : Nat × Nat × Nat :=
  match sKind e with
  | 1 => (1, sPort e, sVc e)
  | 2 => (2, sPort e, ofLe ((e.drop 4).take 8))
  | k => (k, 0, field e 4 2)

/-- A STREAMS entry in its place among the entries before it: its slot, its source and its trigger queue are its own (R283). -/
def streamOk (rs : List DeclRec) (before : List (List Byte)) (e : List Byte) : Bool :=
  let f := sFormat e
  let kindOk := (sKind e = 1 && decide (f ≤ 5)) || (sKind e = 2 && f = 0x10) || (sKind e = 3 && decide (0x10 ≤ f))
  kindOk && before.all (fun d => sSlot d ≠ sSlot e && sourceOf d ≠ sourceOf e && sQueue d ≠ sQueue e) && streamSizeOk e
    && (match queueDecl rs (sPart e) (sQueue e) with
        | some q => ctxProd q = 2 && ctxCons q = 1 && ringInMortar q && (sClass e ≠ 0 || ctxUrgent q)
        | none => false)
    && (sKind e ≠ 3 || (match queueDecl rs (sPart e) (field e 4 2) with
        | some q => ctxProd q = 0 && ctxCons q = 1
        | none => false))
    && decide ((((before ++ [e]).filter fun d => sClass d = 0).map sRate).sum ≤ 200000)

/-- VALID of a group: it is declared. Its class, PAIRED and AUDIO as its image gives. -/
def groupImage (rs : List DeclRec) (g : Nat) : Option Nat := (declared rs 6 g).map (·.word 8)

/-- Bytes of an audio block as an AUD_MIC_CFG image gives (R367, R649). -/
def micBytes (w : Nat) : Nat := bits w 12 8 * (if bit w 1 then 48 else 16) * 2 * (if bit w 2 then 18 else 16)

/-- The declarations of one record (R369). -/
def easelOk (rs : List DeclRec) (r : DeclRec) : Bool :=
  match r.kind with
  | 7 => (List.range (field r.bytes 16 1)).all fun i => (groupImage rs (field r.bytes (80 + 32 * i + 14) 1)).isSome
  | 6 =>
    let w := r.word 8
    (!bit w 2 || bits w 9 8 = 0) && (match queueDecl rs (bits w 6 4) (bits (r.word 12) 15 0) with
      | some q => ctxProd q = 2 && ctxCons q = 2 && ringInMortar q && (bits w 9 8 ≠ 0 || ctxUrgent q)
      | none => false)
  | 8 =>
    let w := r.word 16
    match groupImage rs (bits w 5 0) with
    | some g => bit g 3 && decide (bits w 15 8 * micBytes (r.word 20) ≤ 512 * bits g 20 12)
    | none => false
  | _ => true

/-- A compressed slot's output queue (10, Start-up). -/
def outQueueOk (rs : List DeclRec) (e : List Byte) : Bool :=
  decide (sFormat e < 0x10) || (match declared rs 7 (sSlot e) with
    | some r => (match queueDecl rs (sPart e) (field r.bytes 6 2) with
      | some q => ctxProd q = 1 && ringInMortar q
      | none => false)
    | none => false)

/-- Check 4 of R118. -/
def checkStreams (rs : List DeclRec) (c : List Byte) : Option Why :=
  firstOf [eachEntry c 1 9 fun i e => streamOk rs ((entries c 1).take i) e && outQueueOk rs e,
    firstOf (rs.map fun r => chk (easelOk rs r) 9 2 r.entry)]

/-! Check 5: resources (R118, R524, R265, R178, R144, R222, R181, R116, R660). -/

/-- Every enabled pool that the blocks declare: its record, base and size. -/
def pools (rs : List DeclRec) : List (DeclRec × Nat × Nat) :=
  (rs.filter fun r => r.kind = 4 && bit (r.word 16) 31).map fun r =>
    (r, bits (r.word 8) 31 8 * 256 + bits (r.word 12) 15 0 * 2 ^ 32, bits (r.word 16) 16 0 * poolSize r.key)

/-- The queue context table (R221). -/
abbrev tableRange : Nat × Nat := (0x0FE00000, 0x200000)

/-- A range lies in regions that every mask list maps. -/
def inRegions (ls : List (List Nat)) (a n : Nat) : Bool :=
  decide (0x1000000000 ≤ a) && decide (a + n ≤ 0x1800000000)
    && ls.all fun ms => (span ((a - 0x1000000000) / 0x40000000) ((a + (n - 1) - 0x1000000000) / 0x40000000 + 1 - (a - 0x1000000000) / 0x40000000)).all
        fun r => decide (nth ms r 0 ≠ 0)

/-- The quota that an IDENTITY record gives in pool `k`. -/
def quotaIn (r : DeclRec) (k : Nat) : Nat := field r.bytes (8 + 2 * k) 2

/-- The partition hosts a sentinel model by its entry. -/
def partSentinel (c : List Byte) (p : Nat) : Bool := ((partEntry c p).map fun e => bit (pClasses e) 0).getD false

/-- A pool placement (R265). -/
def poolOk (c : List Byte) (rs : List DeclRec) (k base n : Nat) : Bool :=
  let ids := rs.filter (·.kind = 5)
  let inMortar := decide (0x08000000 ≤ base) && decide (base + n ≤ 0x10000000)
  decide (base % poolSize k = 0) && (decide (n = 0) || inMortar || inRegions ((entries c 4).map layoutOf) base n)
    && !meets base n tableRange.1 tableRange.2
    && (pools rs).all (fun q => q.1.key = k || !meets base n q.2.1 q.2.2)
    && (entries c 2).all (fun e => !meets base n (pMbase e) (pMsize e))
    && (inMortar || ids.all fun r => !(partSentinel c r.part && decide (quotaIn r k ≠ 0)))
    && decide (((ids.map (quotaIn · k)).filter (· ≠ 0xFFFF)).sum * poolSize k ≤ n)

/-- The range of an enabled protection window; none where it is disabled or empty (R141). -/
def windowRange (r : DeclRec) : Option (Nat × Nat) :=
  let a := bits (r.word 8) 31 12 * 4096 + bits (r.word 12) 15 0 * 2 ^ 32
  let z := bits (r.word 16) 31 12 * 4096 + 4095 + bits (r.word 20) 15 0 * 2 ^ 32
  if bit (r.word 12) 16 && decide (a ≤ z) then some (a, z + 1 - a) else none

/-- A protection window of a partition (R144, R178, R222, R524). -/
def windowPlaceOk (c : List Byte) (rs : List DeclRec) (r : DeclRec) : Bool :=
  match windowRange r, partEntry c r.part with
  | some (a, n), some e =>
    let lo := max a 0x08000000
    let hi := min (a + n) 0x10000000
    let dlo := max a 0x1000000000
    let dhi := min (a + n) 0x1800000000
    let within (b m : Nat) : Bool := decide (b ≤ lo) && decide (hi ≤ b + m)
    !meets a n tableRange.1 tableRange.2
      && (decide (hi ≤ lo) || within (pMbase e) (pMsize e) || (pools rs).any fun q => within q.2.1 q.2.2)
      && (List.range 8).all (fun k => bit (pCores e) k || !meets a n (k * 0x01000000) 0x01000000)
      && (List.range 16).all (fun w => !meets a n (0x800000000000 + w * 0x80000000000) 0x80000000000
          || ((declared rs 2 w).map fun h => decide (h.part = r.part)).getD true)
      && (decide (dhi ≤ dlo) || ((entries c 4).map layoutOf).all fun ms =>
          (span ((dlo - 0x1000000000) / 0x40000000) ((dhi - 1 - 0x1000000000) / 0x40000000 + 1 - (dlo - 0x1000000000) / 0x40000000)).all fun g =>
            decide (nth ms g 0 &&& (0xFF - pChannels e) = 0))
  | _, _ => true

/-- A store that the boot ROM can write: core SRAM, Mortar SRAM, or DRAM that the primary layout maps. -/
def storeOk (c : List Byte) (a n : Nat) : Bool :=
  decide (a + n ≤ 0x08000000) || (decide (0x08000000 ≤ a) && decide (a + n ≤ 0x10000000)) || inRegions [layoutOf (entryOf c 4 0)] a n

/-- One record's own resource rules (R524). -/
def recordPlaceOk (c : List Byte) (rs : List DeclRec) (r : DeclRec) : Bool :=
  let slotOf (n : Nat) : Bool := (entries c 1).any fun e => sSlot e = n && sPart e = r.part
  let cores := ((partEntry c r.part).map pCores).getD 0
  match r.kind with
  | 1 => windowPlaceOk c rs r
  | 3 => !partSentinel c r.part || !(ctxUrgent r.ctx && ctxProd r.ctx = 2 && ctxCons r.ctx = 2)
      || (decide (ctxSlot r.ctx ≤ 15) && decide (0x0E000000 ≤ ctxBase r.ctx) && decide (ctxBase r.ctx + 64 * ctxCap r.ctx ≤ 0x0F000000))
  | 4 => !bit (r.word 16) 31 || (pools rs).all fun q => q.1.key ≠ r.key || poolOk c rs r.key q.2.1 q.2.2
  | 5 => slotOf r.key || (decide (36 ≤ r.key) && decide (r.key ≤ 43) && bit cores (r.key - 36)) || r.key = 44 || r.key = 45 + r.part
  | 6 => decide (bits (r.word 8) 6 4 = r.part)
  | 7 => slotOf r.key && storeOk c (bits (r.word 8) 31 12 * 4096 + bits (r.word 12) 15 0 * 2 ^ 32) 8192
  | _ => true

/-- Each thing that R524 names is declared at most once over all blocks; it names no protection window, and of two images of one the later stands. -/
def onceOk (rs : List DeclRec) (r : DeclRec) : Bool :=
  r.kind = 1 || decide ((rs.filter fun q => q.kind = r.kind && q.key = r.key).length ≤ 1)

/-- The union of a layout's masks. -/
def layoutUse (ms : List Nat) : Nat := ms.foldl (· ||| ·) 0

/-- Check 5 of R118. -/
def checkResources (rs : List DeclRec) (c : List Byte) : Option Why :=
  let parts := entries c 2
  let ls := (entries c 4).map layoutOf
  let cores := parts.foldl (fun m e => m ||| pCores e) 0
  let hold (n : Nat) : Bool := decide (bits (islandPolicy c n) 1 0 = 1)
  let off (n : Nat) : Bool := decide (bits (islandPolicy c n) 1 0 = 2)
  let alert := entryOf c 7 0
  firstOf [
    eachEntry c 2 0x0A fun i e => (parts.take i).all (fun d => decide (pCores d &&& pCores e = 0) && !meets (pMbase d) (pMsize d) (pMbase e) (pMsize e))
      && decide (pMbase e + pMsize e ≤ 0x10000000) && !meets (pMbase e) (pMsize e) tableRange.1 tableRange.2,
    firstOf (rs.map fun r => chk (onceOk rs r && recordPlaceOk c rs r) 0x0A 2 r.entry),
    eachEntry c 4 0x0A fun _ e => (List.range 8).all fun u =>
      decide ((((layoutOf e).filter fun m => bit m u).map fun m => 8 / popc8 m).sum ≤ 32),
    chk (decide (ls.length < 2) || (let a := layoutUse (nth ls 0 [])
      let b := layoutUse (nth ls 1 [])
      decide (popc8 b + 1 = popc8 a) && decide (b &&& a = b))) 0x0A 4 1,
    firstOf ([0, 1, 2, 18].map fun n => chk (hold n) 0x0A 9 n),
    firstOf ((bitList cores 8).map fun n => chk (!off (19 + n)) 0x0A 9 (19 + n)),
    firstOf ((bitList (layoutUse (nth ls 0 [])) 8).map fun u => chk (!off (32 + u / 2)) 0x0A 9 (32 + u / 2)),
    chk (decide (field alert 0 2 = 0xFFFF) || (partSentinel c (field alert 2 1) && hold 38
        && decide (field alert 8 4 + field alert 12 4 ≤ storeSize)
        && (match queueDecl rs (field alert 2 1) (field alert 0 2) with
            | some q => ctxUrgent q && ctxProd q = 1 && ctxCons q = 1 && ringInMortar q
            | none => false))) 0x0A 7 0]

/-! Checks 6 to 8. -/

/-- The ledger's bad columns of array `a` of core `n` (R748), as a mask of 512 bits. -/
def ledgerCols (l : List Byte) (n a : Nat) : Nat := ofLe ((l.drop (64 * (4 * n + a))).take 64)

/-- The number of set bits of a mask of 512 bits. -/
def popc512 (m : Nat) : Nat := (bitList m 512).length

/-- The width class that the bad columns of a core's four arrays give (R385 to R387). -/
def widthClass (cols : List Nat) : Nat :=
  let w := (cols.map fun m => 512 - 16 * ceilDiv (popc512 m) 16).foldl min 512
  if w < 448 then 7 else (512 - w) / 16

/-- The bad columns of array `a` of core `n` by fuses and ledger. -/
def knownCols (s : State) (n a : Nat) : Nat := nth s.boot.otp.fuses (4 * n + a) 0 ||| ledgerCols s.boot.ledger n a

/-- The class of core `n` by fuses and ledger (12, Start-up). -/
def knownClass (s : State) (n : Nat) : Nat := widthClass ((List.range 4).map (knownCols s n))

/-- The floor of group `g` for what the manifest enables at start-up (R560, R567). -/
def manifestFloor (c : List Byte) (g : Nat) : Nat :=
  if g < 8 then (if (entries c 2).any fun e => bit (pClasses e) 0 && bit (pFlags e) 0 && bit (pCores e) g then 2 else 0)
  else if g = 9 then (if (entries c 1).any fun e => sClass e = 0 && sOn e then 2 else 0)
  else 0

/-- A safe row fits its groups and the cap (R567), by the powers of R559 in units of 10 mW. -/
def safeRowOk (c : List Byte) (row : List Byte) : Bool :=
  (List.range 12).all (fun g => decide (rowPoint row g < (grpPoints g).length))
    && decide (((List.range 11).map fun g => (nth (pointPower g) (max (rowPoint row g) (manifestFloor c g)) (0, 0)).1).sum + 1400
        ≤ field (entryOf c 5 0) 0 2 * 10)

/-- Checks 6, 7 and 8 of R118. -/
def checkRest (s : State) (c : List Byte) : Option Why :=
  firstOf [
    eachEntry c 2 0x0B fun _ e => (bitList (pCores e) 8).all fun n => decide (knownClass s n ≠ 7),
    eachEntry c 5 0x0C fun _ e => decide (100 ≤ field e 0 2) && decide (field e 0 2 ≤ 950),
    eachEntry c 8 0x0C fun i e => (decide (i = 0) || decide (field (entryOf c 8 (i - 1)) 0 1 < field e 0 1)) && safeRowOk c e,
    eachEntry c 3 0x0D fun _ e => (mLocal e || !partSentinel c (mPart e)) && (!mLocal e || decide (mStoreAt e + mStoreLen e ≤ storeSize))]

/-- The consistency checks of a verified manifest in the order of R118; `sec` is SEC_VERSION of the running image. -/
def manifestWhy (s : State) (sec : Nat) (c : List Byte) : Option Why :=
  match chk (decide (cMin c ≤ sec)) 6 0 0 with
  | some w => some w
  | none =>
    match checkSections c with
    | some w => some w
    | none =>
      let rs := declRecs s c
      firstOf [checkBlocks s c, checkFields s c, checkStreams rs c, checkResources rs c, checkRest s c]

end Sys2Proof.Machine
end

