-- ==== Sys2Proof/Machine/Boot.lean ====
section
/-!
DEFINITION. Machine/Boot.lean: the die supply and resets (04 R97 to R101), slot selection (R103 to R114), the checks of the manifest, the bring-up of islands
and DRAM, the hash check of LOCAL models, flash operations and OTP commands (04; 06 R218 to R220; 12 R404 and R405; 21 R664).
-/
namespace Sys2Proof.Machine
open Sys2Proof

/-- `s` with the boot state changed. -/
def updBoot (s : State) (f : Boot → Boot) : State := { s with boot := f s.boot }

/-- BOOT_PHASE.PHASE. -/
def phase (s : State) : Nat := rf s R.BOOT_PHASE 3 0

/-! Resets of the whole die (R101). -/

/-- A reset of the whole die with the cause it will show (a bit of BOOT_RESET_CAUSE): every island returns to its reset state. A reset by pin or
request keeps the Contact Sheet ring with S, BOOT_RESET_CAUSE and FLT_SAFE_SEEN; every reset keeps OTP, the boot flash, what lies outside the die, and
the commands that wait. -/
def dieReset (s : State) (cause : Nat) (kept : Bool) : State :=
  let z : State := {}
  let b := s.boot
  let z := { z with
    pending := s.pending
    clock := s.clock
    drawn := s.drawn
    fypSignals := s.fypSignals
    jione := s.jione
    tap := if kept then s.tap else {}
    aud := { z.aud with amps := s.aud.amps, reports := s.aud.reports }
    pci := { z.pci with sent := s.pci.sent }
    boot := { powered := b.powered, cause := cause, otp := b.otp, flash := b.flash } }
  if kept then
    let z := { z with csh := { z.csh with ring := s.csh.ring, bad := s.csh.bad, seq := s.csh.seq } }
    setReg (setReg z R.BOOT_RESET_CAUSE (rd s R.BOOT_RESET_CAUSE)) R.FLT_SAFE_SEEN (rd s R.FLT_SAFE_SEEN)
  else z

/-- A module as it is delivered (01 R13): the boot image in slots A and B, no manifest, the key hashes of the order's provisioning record, Subsystem ID
0x0196 (05 R132); debug open in an -ES part, which leaves in DEVELOPMENT with Carvoux's development key in slot 0 (R124). State.reset is the part without a
module, CX-O96, whose boot flash is not delivered. DESIGN CHOICE: no rule gives what the flash directory of a delivered module holds; both copies are erased,
so that its first boot shows DIR_LOST (R105) and marks the empty manifest slots BAD. -/
def delivered (es : Bool) (image : List Byte) : State :=
  updBoot (setFlash (setFlash {} (slotBase 0 0) image) (slotBase 0 1) image) fun b =>
    { b with otp := { b.otp with
      lifecycle := if es then 1 else 2, subsystem := 0x0196,
      keys := if es then updAt b.otp.keys 0 fun _ => Config.devKeyHash else b.otp.keys } }

/-- The die loses its supply. -/
def powerOff (s : State) : State := updBoot (dieReset s 0 false) fun b => { b with powered := false }

/-- SUPPLY_RAMP (R98): the supply comes up; reset is held. -/
def execSupplyRamp (s : State) : Host.Outcome State Fault Refusal :=
  if s.boot.powered then .next s else .next (updBoot (dieReset s 0 false) fun b => { b with powered := true })

/-- BROWNOUT (R98, R101): a power-on reset. -/
def execBrownout (s : State) : Host.Outcome State Fault Refusal :=
  if !s.boot.powered || s.boot.held then .next s else .next (dieReset s 1 false)

/-- SUPPLY_LOW (26 R770): an excursion of 10 µs or more with its lowest sample and duration. -/
def execSupplyLow (mv us : Nat) (s : State) : Host.Outcome State Fault Refusal :=
  if s.boot.held ∨ us < 10 ∨ mv < 1620 ∨ 1710 ≤ mv then .next s
  else .next (hwFault s P.aon 6 (mv % 65536 + min us 65535 * 65536))

/-- PIN_RESET (R101): a ring record being written breaks off after `torn` of the four steps of 23 R704. -/
def execPinReset (torn : Nat) (s : State) : Host.Outcome State Fault Refusal :=
  if s.boot.powered then .next (dieReset (tornWrite s torn) 2 true) else .next s

/-- RESET_RELEASE (R99, R100): SERVICE_N is sampled, AON starts, the RESET record is written first (23 R715), then the records that Fypajo owes. DESIGN CHOICE:
a reset that keeps BOOT_RESET_CAUSE (R101) adds its bit to it, so that causes of earlier resets that nobody has cleared read 1 beside it, although each bit
reads "Last reset was". -/
def execResetRelease (s : State) : Host.Outcome State Fault Refusal :=
  if !s.boot.powered || !s.boot.held then .next s
  else
    let s := updBoot s fun b => { b with held := false, strap := s.jione.service, released := s.clock }
    let s := wb s R.BOOT_RESET_CAUSE s.boot.cause true
    let s := [1, 2].foldl (fun s n => updIsl s n fun _ => { st := .on, point := startPoint n }) s
    let s := resetRecord s
    let s := s.jione.later.foldl (fun s r => softRecord s .fyp r.code r.params) s
    .next { s with jione := { s.jione with later := [] } }

/-! The service and recovery states (R113, R119, R120). -/

/-- BOOT_ELAPSED: µs since reset release. -/
def bootEnds (s : State) (ph : Nat) : State :=
  let s := setReg s R.BOOT_ELAPSED (BitVec.ofNat 32 (4 * (s.clock - s.boot.released) / 1000))
  wb (wf s R.BOOT_PHASE 3 0 ph) (hdr P.boot 0x1C) 0 true

/-- Only the islands `on` are powered, beside those of R62. -/
def powerOnly (s : State) (on : List Nat) : State :=
  (span 3 36).foldl (fun s n =>
    if on.contains n then
      let s := setReg s (R.AON_ISL_CTRL n) 1
      if (island s n).st = .off then updIsl s n fun i => { st := .on, point := startPoint n, fenced := i.fenced } else s
    else
      let s := setReg s (R.AON_ISL_CTRL n) 2
      if (island s n).st = .off then s else putOff s n) s

/-- The service state (phase 8) or the recovery state (phase 9) is entered with its reason, section and entry. -/
def enterService (s : State) (ph : Nat) (w : Why) : State :=
  let s := powerOnly s (if ph = 9 then [] else [30, 31])
  let s := setReg s R.BOOT_REASON (BitVec.ofNat 32 (w.1 + w.2.1 % 256 * 256 + w.2.2 % 65536 * 65536))
  signalFyp (raise (bootEnds s ph) P.boot 8) .service

/-! The directory (R103 to R105). -/

/-- Directory copy `k`, and whether its MAGIC and CRC are correct. -/
def dirCopy (s : State) (k : Nat) : List Byte := flashBytes s (0x8000 * k) 256
def dirOk (s : State) (k : Nat) : Bool :=
  let d := dirCopy s k
  decide (field d 0 4 = 0x31445843) && decide (field d 252 4 = crc32 (d.take 252))

/-- The copy that governs; none where both are lost. -/
def dirGovern (s : State) : Option Nat :=
  if dirOk s 0 && dirOk s 1 then some (if field (dirCopy s 1) 4 4 > field (dirCopy s 0) 4 4 then 1 else 0)
  else if dirOk s 0 then some 0
  else if dirOk s 1 then some 1
  else none

/-- What the directory says: the governing copy, or the values of R105. -/
def dirNow (s : State) : List Byte :=
  match dirGovern s with
  | some k => dirCopy s k
  | none => putBytes (List.replicate 256 0) 8 [25, 8, 0, 0, 1, 0, 1, 0, 1, 1]

/-- A directory of the given SEQUENCE and content, with its MAGIC and CRC. -/
def dirBytes (seq : Nat) (d : List Byte) : List Byte :=
  let d := putBytes (putBytes d 0 (leBytes 4 0x31445843)) 4 (leBytes 4 seq)
  d.take 252 ++ leBytes 4 (crc32 (d.take 252))

/-- A directory write (R104, R105); BOOT.FLASH_DONE is raised. DESIGN CHOICE: with one copy invalid that copy is the one written, whatever its SEQUENCE. -/
def writeDir (s : State) (d : List Byte) : State :=
  let s := match dirGovern s with
    | none => setFlash (setFlash s 0 (dirBytes 1 d)) 0x8000 (dirBytes 2 d)
    | some k =>
      let q := field (dirCopy s k) 4 4
      let other := if dirOk s (1 - k) && decide (field (dirCopy s (1 - k)) 4 4 = q) then 0 else 1 - k
      setFlash s (0x8000 * other) (dirBytes (q + 1) d)
  raise s P.boot 10

/-- The byte of the directory that holds a slot's state. -/
def slotByte (kind ab : Nat) : Nat := if kind = 0 then 12 + 2 * ab else 16 + ab

/-- A slot's state: 0 EMPTY, 1 VALID, 2 TRIAL, 3 BAD; 0xFF and values without a meaning read as EMPTY. -/
def slotState (s : State) (kind ab : Nat) : Nat := let v := field (dirNow s) (slotByte kind ab) 1; if v ≤ 3 then v else 0

/-- The trial attempts left of a slot; a manifest slot has no count. -/
def slotTries (s : State) (kind ab : Nat) : Nat := if kind = 0 then field (dirNow s) (13 + 2 * ab) 1 else 1

/-- A slot is marked BAD (R110, R111). -/
def markBad (s : State) (kind ab : Nat) : State :=
  raise (wb (writeDir s (putBytes (dirNow s) (slotByte kind ab) [3])) R.BOOT_SLOTS (2 + kind) true) P.boot 9

/-! Slot selection (R110 to R112). -/

/-- A selection under way: the slot chosen, the condition of R109 that the last slot tried failed (0 none tried), and for each attempt still to come
whether its flash read fails. -/
structure Pick where
  s : State
  got : Option Nat := none
  last : Nat := 0
  gl : List Bool
deriving DecidableEq, Repr

/-- One attempt: a failed flash read breaks the signature. -/
def tryOnce (k : Pick) (kind ab : Nat) : Nat := if k.gl.headD false then 3 else verify k.s kind (containerIn k.s kind ab)

/-- A slot is tried, twice where the first attempt fails (R110). -/
def trySlot (kind : Nat) (k : Pick) (ab : Nat) : Pick :=
  if k.got.isSome then k
  else if tryOnce k kind ab = 0 then { k with got := some ab, gl := k.gl.drop 1 }
  else
    let k := { k with gl := k.gl.drop 1 }
    let r := tryOnce k kind ab
    let k := { k with gl := k.gl.drop 1 }
    if r = 0 then { k with got := some ab } else { k with s := markBad k.s kind ab, last := r }

/-- A slot in state TRIAL: one attempt is counted, then it is tried; without an attempt left it is BAD (R111). -/
def tryTrial (kind : Nat) (k : Pick) (ab : Nat) : Pick :=
  if k.got.isSome ∨ slotState k.s kind ab ≠ 2 then k
  else if slotTries k.s kind ab = 0 then { k with s := markBad k.s kind ab }
  else
    let k := if kind = 0 then { k with s := writeDir k.s (putBytes (dirNow k.s) (13 + 2 * ab) (leBytes 1 (slotTries k.s 0 ab - 1))) } else k
    trySlot kind k ab

/-- The choice of a slot. DESIGN CHOICE: of two slots in TRIAL, and of VALID slots equal in SEC_VERSION and BUILD, slot A is tried first. -/
def selectSlot (s : State) (kind : Nat) (gl : List Bool) : Pick :=
  let k := tryTrial kind (tryTrial kind { s := s, gl := gl } 0) 1
  let c (ab : Nat) : List Byte := containerIn k.s kind ab
  let first := if cSec (c 1) > cSec (c 0) ∨ (cSec (c 1) = cSec (c 0) ∧ cBuild (c 1) > cBuild (c 0)) then [1, 0] else [0, 1]
  (first.filter fun ab => slotState k.s kind ab = 1).foldl (trySlot kind) k

/-- IMAGE_SELECT (R110 to R113): step 4, once the ledger was delivered. `glitch` says of each attempt whether its flash read fails. A BLANK die does not
boot (R124). -/
def execImageSelect (glitch : List Bool) (s : State) : Host.Outcome State Fault Refusal :=
  if s.boot.held ∨ phase s ≠ 1 ∨ s.boot.otp.lifecycle = 0 then .next s
  else
    let s := wb s R.BOOT_SLOTS 5 (dirGovern s).isNone
    let k := selectSlot s 0 glitch
    match k.got with
    | none => .next (enterService k.s 9 (1, 0, 0))
    | some ab =>
      let c := containerIn k.s 0 ab
      let s := updBoot k.s fun b => { b with image := some { slot := ab, sec := cSec c, build := cBuild c, key := cKey c } }
      let s := wb s R.BOOT_SLOTS 0 (decide (ab = 1))
      let s := setReg s R.BOOT_IMAGE_VER (BitVec.ofNat 32 (cBuild c % 65536 + cSec c % 256 * 65536))
      .next (if s.boot.strap then enterService s 8 (0x10, 0, 0) else wf s R.BOOT_PHASE 3 0 2)

/-- MANIFEST_CHECK (R114, R118): step 5. -/
def execManifestCheck (glitch : List Bool) (s : State) : Host.Outcome State Fault Refusal :=
  if s.boot.held ∨ phase s ≠ 2 then .next s
  else
    let k := selectSlot s 1 glitch
    match k.got with
    | none => .next (enterService k.s 8 (if k.last ≤ 1 then 2 else if k.last = 2 then 4 else if k.last = 3 then 3 else 5, 0, 0))
    | some ab =>
      let c := (containerIn k.s 1 ab).take (cLen (containerIn k.s 1 ab))
      let h := sha384 (cSigned c)
      let s := wb k.s R.BOOT_SLOTS 1 (decide (ab = 1))
      let s := setReg s R.BOOT_MANIFEST_VER (BitVec.ofNat 32 (cBuild c % 65536 + cSec c % 256 * 65536))
      let s := (List.range 12).foldl (fun s i => setReg s (R.BOOT_MANIFEST_HASH i) (BitVec.ofNat 32 (field h (4 * i) 4))) s
      match manifestWhy s ((s.boot.image.map (·.sec)).getD 0) c with
      | some w => .next (enterService s 8 w)
      | none => .next (wf (updBoot s fun b => { b with man := c }) R.BOOT_PHASE 3 0 3)

/-! Steps 6 to 8. -/

/-- A page's register is written by the boot ROM as it stands (a staged field's active copy stays). -/
def setWord (s : State) (off w : Nat) : State := setReg s off (BitVec.ofNat 32 w)

/-- ASH_COLMAP, ASH_WIDTH and ASH_CLASS of a core (R404, R405) from the bad columns of its arrays; `bist` and `new` are BIST_DONE and BIST_NEW. -/
def putColumns (s : State) (n : Nat) (cols : List Nat) (bist new : Bool) : State :=
  let s := (List.range 4).foldl (fun s a => (List.range 16).foldl (fun s w =>
    setWord s (R.ASH_COLMAP n a w) (bits (nth cols a 0) (32 * w + 31) (32 * w))) s) s
  let s := setWord s (R.ASH_WIDTH n) (((List.range 4).map fun a => min 255 (popc512 (nth cols a 0)) * 256 ^ a).sum)
  let cls := widthClass cols
  let fuse := widthClass ((List.range 4).map fun a => nth s.boot.otp.fuses (4 * n + a) 0)
  setWord s (R.ASH_CLASS n) (cls + 8 * b2n (decide (cls > fuse)) + 16 * b2n bist + 32 * b2n new)

/-- ISLAND_BRINGUP (R126 step 6, R95, R96, R116, R387): the islands whose policy is not OFF come ON with their stores zero; the AON page is locked. -/
def execIslandBringup (s : State) : Host.Outcome State Fault Refusal :=
  if s.boot.held ∨ phase s ≠ 3 then .next s
  else
    let c := s.boot.man
    let s := (List.range 39).foldl (fun s n =>
      let v := islandPolicy c n
      let v := if 19 ≤ n ∧ n ≤ 26 ∧ knownClass s (n - 19) = 7 then putBits v 1 0 2 else v
      let s := setWord s (R.AON_ISL_CTRL n) v
      if n ≤ 2 ∨ bits v 1 0 = 2 then s else updIsl s n fun i => { st := .on, point := startPoint n, fenced := i.fenced }) s
    let s := (List.range 8).foldl (fun s n => putColumns s n ((List.range 4).map (knownCols s n)) false false) s
    .next (wf (wb s (hdr P.aon 0x1C) 0 true) R.BOOT_PHASE 3 0 4)

/-- The array self-test of the powered cores (R404, R405); `bist` lists core, array and column found bad. A core below W448 is set OFF; its page shows the
column map and the event of its narrowing all the same. -/
def selfTest (s : State) (bist : List (Nat × Nat × Nat)) : State :=
  (List.range 8).foldl (fun s n =>
    if (island s (19 + n)).st = .off then s
    else
      let known := (List.range 4).map (knownCols s n)
      let cols := known.zipIdx.map fun e => (bist.filter fun b => b.1 = n && b.2.1 = e.2).foldl (fun m b => m ||| 2 ^ (b.2.2 % 512)) e.1
      let s := putColumns s n cols true (decide (cols ≠ known))
      let s := if widthClass cols = 7 then putOff (setWord s (R.AON_ISL_CTRL (19 + n)) 2) (19 + n) else s
      if widthClass cols > widthClass known then raise s (P.ash n) 12 else s) s

/-- After step 7 the ledger buffer holds every column marked bad in this boot (26 R778). -/
def ledgerBuffer (s : State) : State :=
  let cols (i : Nat) : List Byte := (List.range 16).flatMap fun w => leBytes 4 (rd s (R.ASH_COLMAP (i / 4) (i % 4) w)).toNat
  updBoot s fun b => { b with ledger := (List.range 32).flatMap cols }

/-- What the training of a subchannel of which the command says nothing finds: every step passes, with ranges of at least 8 that no rule gives. -/
def freeTrain (s : State) : State × Train :=
  let r := fresh s 8
  let w := fresh r.1 8
  let c := fresh w.1 8
  (c.1, { fails := none, rdEye := 8 + r.2 % 248, wrEye := 8 + w.2 % 248, caEye := 8 + c.2 % 248 })

/-- A subchannel ends its initial training; the subchannels that failed are collected. -/
def trainSub (trains : List (Nat × Train)) (a : State × List Nat) (u : Nat) : State × List Nat :=
  let r := match trains.find? (·.1 = u) with
    | some e => (a.1, e.2)
    | none => freeTrain a.1
  let s := putTrain r.1 u r.2
  match trainFails r.2 with
  | some step => (hwFault s (P.dmc (u / 2)) 9 (u % 2 + step * 256), a.2 ++ [u])
  | none => (s, a.2)

/-- DRAM_TRAINING (R218 to R220, R404, R405): step 7. `trains` lists what the training of subchannels finds, `bist` the columns that the
array self-test finds bad; `drfm` and `rfm` are what the components advertise (R197, R199). Where the spare is applied DMC_LAYOUT shows it. DESIGN
CHOICE: the subchannel that failed is ABSENT then, as one that no layout in effect uses; R219 gives it no state. -/
def execDramTraining (trains : List (Nat × Train)) (bist : List (Nat × Nat × Nat)) (drfm : Bool) (rfm : Nat) (s : State) : Host.Outcome State Fault Refusal :=
  if s.boot.held ∨ phase s ≠ 4 then .next s
  else
    let c := s.boot.man
    let ls := (entries c 4).map layoutOf
    let used := bitList (layoutUse (nth ls 0 [])) 8
    let r := used.foldl (trainSub trains) (s, [])
    let failed := r.2
    let s := ledgerBuffer (selfTest r.1 bist)
    let spare := decide (failed ≠ [])
    if spare ∧ !(failed.length = 1 && decide (ls.length = 2) && failed.all fun u => !bit (layoutUse (nth ls 1 [])) u) then
      .next (enterService s 8 (0x0F, 0, 0))
    else
      let lost := (entries c 2).zipIdx.find? fun e => (bitList (pCores e.1) 8).any fun n => rf s (R.ASH_CLASS n) 2 0 = 7
      match lost with
      | some e => .next (enterService s 8 (0x0B, 2, e.2))
      | none =>
        let s := { s with dram := { s.dram with layouts := ls, spare := spare, drfm := drfm, rfmThreshold := rfm } }
        let s := (List.range 4).foldl (fun s q => wb s (R.DMC_LAYOUT q) 0 spare) s
        let s := (bitList (layoutUse (nth ls (b2n spare) [])) 8).foldl (fun s u => updSub s u fun _ => { st := .run }) s
        let s := clearMem s 0x1000000000 0x800000000
        let s := wb (wf s R.SYS_CAP_MEM 31 16 (dataGib s)) R.BOOT_SLOTS 4 spare
        .next (wf s R.BOOT_PHASE 3 0 5)

/-- A tone bank keeps R664. -/
def toneBankOk (b : List Byte) : Bool :=
  let n := field b 0 1
  decide (1 ≤ n) && decide (n ≤ 16)
    && (List.range 256).all (fun i => decide (i = 0) || (decide (8 ≤ i) && decide (i < 8 + 8 * n)) || decide (field b i 1 = 0))
    && (List.range n).all fun t =>
      let off := field b (8 * t + 8) 4
      let len := field b (8 * t + 12) 4
      decide (off % 64 = 0) && decide (480 ≤ len) && decide (len ≤ 262016) && decide (off + 2 * len ≤ b.length)

/-- The file of a LOCAL model. -/
def localFile (s : State) (e : List Byte) : List Byte := flashBytes s (storeBase + mStoreAt e) (mStoreLen e)

/-- LOCAL_MODEL_HASH (R121, 21 Start-up): step 8; the tone bank is read where the manifest has an alert path. -/
def execLocalModelHash (s : State) : Host.Outcome State Fault Refusal :=
  if s.boot.held ∨ phase s ≠ 5 then .next s
  else
    let c := s.boot.man
    let a := entryOf c 7 0
    let path := decide (field a 0 2 ≠ 0xFFFF)
    let bank := flashBytes s (storeBase + field a 8 4) (field a 12 4)
    match firstOf [eachEntry c 3 0x0E fun _ e => !mLocal e || decide (sha384 (localFile s e) = e.take 48),
        chk (!path || (decide ((sha384 bank).take 16 = (a.drop 16).take 16) && toneBankOk bank)) 0x0E 7 0] with
    | some w => .next (enterService s 8 w)
    | none => .next (wf (if path then updAud s fun d => { d with bank := bank } else s) R.BOOT_PHASE 3 0 6)

/-! BOOT_CONFIRM (R112), flash operations (R102, R109) and OTP commands (R125). -/

/-- The slots the device booted from that are in state TRIAL: kind and slot. -/
def trialBooted (s : State) : List (Nat × Nat) :=
  [(0, rf s R.BOOT_SLOTS 0 0), (1, rf s R.BOOT_SLOTS 1 1)].filter fun e => slotState s e.1 e.2 = 2

/-- CONFIRM is written in RUN. -/
def bootConfirm (s : State) : State := if (trialBooted s).isEmpty then s else updBoot s fun b => { b with dirOp := true }

/-- DIRECTORY_WRITE_DONE (R104, R112). -/
def execDirectoryWriteDone (s : State) : Host.Outcome State Fault Refusal :=
  if s.boot.held || !s.boot.dirOp then .next s
  else
    let d := (trialBooted s).foldl (fun d e => putBytes d (slotByte e.1 e.2) [1]) (dirNow s)
    .next (writeDir (updBoot s fun b => { b with dirOp := false }) d)

/-- An address lies in the slots that the device runs from. -/
def inActiveSlot (s : State) (a : Nat) : Bool :=
  let inSlot (kind ab : Nat) : Bool := decide (slotBase kind ab ≤ a) && decide (a < slotBase kind ab + slotMax kind + 0x10000)
  (s.boot.image.isSome && inSlot 0 (rf s R.BOOT_SLOTS 0 0)) || (decide (s.boot.man ≠ []) && inSlot 1 (rf s R.BOOT_SLOTS 1 1))

/-- GO of BOOT_FLASH_CTRL with operation `op`: PROGRAM and ERASE of a running slot or the directory are refused. DESIGN CHOICE: the
reserved range between and behind the directory copies counts with the directory. -/
def flashStart (s : State) (req : Req) (op : Nat) : State :=
  let a := rf s R.BOOT_FLASH_ADDR 25 0
  let refuse (cause : Nat) : State := raise (fault s P.boot cause req a none) P.boot 10
  if (op = 2 ∨ op = 3) ∧ a < 0x10000 then refuse 3
  else if (op = 2 ∨ op = 3) ∧ inActiveSlot s a then refuse 2
  else updBoot s fun b => { b with op := some (op, a) }

/-- Kind and number of the slot that starts at a flash address. -/
def slotAt (a : Nat) : Option (Nat × Nat) := [(0, 0), (0, 1), (1, 0), (1, 1)].find? fun e => slotBase e.1 e.2 = a

/-- INSTALL of the slot at an address (R109): TRIAL with TRIES 3, or its refusal. -/
def install (s : State) (a : Nat) : State :=
  match slotAt a with
  | none => raise (hwFault s P.boot 4 1) P.boot 10
  | some (kind, ab) =>
    let c := containerIn s kind ab
    match verify s kind c with
    | 0 =>
      let d := putBytes (dirNow s) (slotByte kind ab) [2]
      writeDir s (if kind = 0 then putBytes d (13 + 2 * ab) [3] else d)
    | 4 => raise (hwFault s P.boot 5 (cSec c % 256 + s.boot.otp.rollback * 256)) P.boot 10
    | n => raise (hwFault s P.boot 4 n) P.boot 10

/-- The 256 bytes of BOOT_FLASH_DATA. -/
def flashData (s : State) : List Byte := (List.range 64).flatMap fun k => leBytes 4 (rd s (R.BOOT_FLASH_DATA k)).toNat

/-- `s` with BOOT_FLASH_DATA holding 256 bytes. -/
def putFlashData (s : State) (bs : List Byte) : State :=
  (List.range 64).foldl (fun s k => setWord s (R.BOOT_FLASH_DATA k) (field bs (4 * k) 4)) s

/-- FLASH_DONE (R102): the operation in progress completes. PROGRAM can only clear bits of erased bytes. -/
def execFlashDone (s : State) : Host.Outcome State Fault Refusal :=
  match s.boot.op with
  | none => .next s
  | some (op, a) =>
    let s := updBoot s fun b => { b with op := none }
    .next (match op with
      | 1 => raise (putFlashData s (flashBytes s a 256)) P.boot 10
      | 2 => raise (setFlash s a (((flashBytes s a 256).zip (flashData s)).map fun e => e.1 &&& e.2)) P.boot 10
      | 3 => raise (setFlash s a (List.replicate 65536 0xFF)) P.boot 10
      | _ => install s a)

/-- `n` bytes that the spec leaves open. -/
def freshBytes : Nat → State → List Byte → State × List Byte
  | 0, s, bs => (s, bs)
  | n + 1, s, bs => let r := fresh s 8; freshBytes n r.1 (BitVec.ofNat 8 r.2 :: bs)

/-- FLASH_TIMEOUT (R102): the flash gave no completion within 2 s; what it was reading or writing is open. -/
def execFlashTimeout (s : State) : Host.Outcome State Fault Refusal :=
  match s.boot.op with
  | none => .next s
  | some (op, a) =>
    let s := updBoot s fun b => { b with op := none }
    let s := match op with
      | 1 => let r := freshBytes 256 s []; putFlashData r.1 r.2
      | 2 => let r := freshBytes 256 s []; setFlash r.1 a r.2
      | 3 => let r := freshBytes 65536 s []; setFlash r.1 a r.2
      | _ => s
    .next (raise (hwFault s P.boot 1 op) P.boot 10)

/-- A BOOT_OTP_CMD write is refused (R125): wrong KEY, phase or requester, the running key or no slot for REVOKE_KEY, another command in progress. -/
def otpRefused (s : State) (req : Req) (v : Nat) : Bool :=
  decide (bits v 31 16 ≠ 0x07C0) || !(phase s = 7 || phase s = 8) || !(req = .pf || req = .fyp)
    || (decide (bits v 3 0 = 2) && (decide (bits v 11 8 > 3) || decide (some (bits v 11 8) = s.boot.image.map (·.key)))) || s.boot.otpOp.isSome

/-- OTP_DONE (R125). -/
def execOtpDone (s : State) : Host.Outcome State Fault Refusal :=
  match s.boot.otpOp with
  | none => .next s
  | some (cmd, arg) =>
    let sec := (s.boot.image.map (·.sec)).getD 0
    let s := updBoot s fun b => { b with otpOp := none, otp := match cmd with
      | 1 => { b.otp with rollback := max b.otp.rollback sec }
      | 2 => { b.otp with revoked := b.otp.revoked ||| 2 ^ arg }
      | _ => { b.otp with lifecycle := 3 } }
    .next (raise s P.boot 11)

end Sys2Proof.Machine
end

