-- ==== Sys2Proof/Machine/Seam.lean ====
section
/-!
DEFINITION. Machine/Seam.lean: change sets: commands, consistency checks, votes, commit and abort (22 R678 to R693), and what a commit does on each
page (06 R217, 08 R281, 11 R367, 17 R551, 19 R619).
-/
namespace Sys2Proof.Machine
open Sys2Proof

/-- SEAM_STATE.STATE: 0 IDLE, 1 CHECKING, 2 VOTING, 3 WAITING. -/
def seamState (s : State) : Nat := rf s R.SEAM_STATE 1 0

/-- A page is frozen: a member of the set in progress (R25, R683). -/
def frozen (s : State) (pg : Nat) : Bool := decide (seamState s ≠ 0) && (seamMembers s).contains pg

/-! The checks of R684 on the copies that the commit would leave. -/

/-- The word of a register as the commit would leave it. -/
def willBe (s : State) (off : Nat) : Nat := copyOf s ((seamMembers s).contains (off / 0x1000)) off

/-- Protection windows, host-memory windows, pools and identities as the commit would leave them, as declaration records. -/
def seamRecs (s : State) : List DeclRec :=
  let word (off : Nat) : List Byte := leBytes 4 (willBe s off)
  let rec_ (part kind k : Nat) (body : List Byte) : DeclRec := { part := part, entry := 0, bytes := leBytes 4 kind ++ leBytes 4 k ++ body }
  (List.range 64).map (fun k => rec_ (k / 8) 1 (k % 8) (word (R.PCI_PWIN_BASE_LO k) ++ word (R.PCI_PWIN_BASE_HI k)
      ++ word (R.PCI_PWIN_LIMIT_LO k) ++ word (R.PCI_PWIN_LIMIT_HI k)))
    ++ ((List.range 16).filter fun w => bits (willBe s (R.PCI_HWIN_CFG_HI w)) 3 0 ≠ 0).map (fun w =>
        rec_ (bits (willBe s (R.PCI_HWIN_CFG_HI w)) 3 0 - 1) 2 w [])
    ++ (List.range 8).map (fun k => rec_ 8 4 k (word (R.QRY_POOL_BASE_LO k) ++ word (R.QRY_POOL_BASE_HI k) ++ word (R.QRY_POOL_CFG k)))
    ++ (List.range 64).map fun i =>
        let f := bits (willBe s (R.QRY_IDMAP (i / 8))) (4 * (i % 8) + 3) (4 * (i % 8))
        rec_ (if f ≥ 8 then f - 8 else 8) 5 i ((List.range 4).flatMap fun w => word (R.QRY_QUOTA i w))

/-- The pages that bind something to what the manifest does not bind it to (R10). -/
def undeclared (s : State) : List Nat :=
  let m := seamMembers s
  let rs := declRecs s s.boot.man
  m.filter fun pg => match pageOf pg with
    | some (.csi, _) | some (.eth, _) => (seamSources s pg).any fun k => let d := declOf s k; !d.valid && !d.en
    | some (.enl, 0) => (List.range 36).any fun n => bit (willBe s (R.ENL_SLOT_LIST_HI 0 n)) 16 && !rb s (R.ENL_SLOT_CFG 0 n) 16
    | some (.esl, _) => ((List.range 64).any fun g => bit (willBe s (R.ESL_GRP_CFG g)) 11 && !rb s (R.ESL_GRP_CFG g) 10)
        || (let a := willBe s R.ESL_AUDIO_CFG
            bit a 6 && !(rb s (R.ESL_GRP_CFG (bits a 5 0)) 10 && rb s (R.ESL_GRP_CFG (bits a 5 0)) 3))
    | some (.dpt, _) => (List.range 8).any fun p => bit (willBe s (R.DPT_PART_CTRL p)) 0 && !rb s (R.DPT_PART_CFG p) 12
    | some (.qry, _) => (List.range 64).any fun i =>
        match idPartIn s true i with
        | some p => !(rs.any fun r => r.kind = 5 && r.key = i && r.part = p)
        | none => false
    | _ => false

/-- The pages that fail an INCONSISTENT row of R684, by row: windows, pools, ranges, SPARE. -/
def inconsistent (s : State) : List (List Nat) :=
  let m := seamMembers s
  let c := s.boot.man
  let rs := seamRecs s
  let a := willBe s R.ESL_AUDIO_CFG
  let grp (g : Nat) : Nat := willBe s (R.ESL_GRP_CFG g)
  let has (pg : Nat) (bad : Bool) : List Nat := if m.contains pg && bad then [pg] else []
  let spares := ((List.range 4).filter fun k => m.contains (P.dmc k)).map fun k => bits (willBe s (R.DMC_LAYOUT k)) 0 0
  let audioBad := decide (bits a 15 8 * micBytes (willBe s R.AUD_MIC_CFG) > 512 * bits (grp (bits a 5 0)) 20 12)
  [ if (m.contains P.pci || m.contains P.qry) && rs.any (fun r => r.kind = 1 && !windowPlaceOk c rs r) then [P.pci] else [],
    has P.qry ((pools rs).any fun q => !poolOk c rs q.1.key q.2.1 q.2.2),
    has P.esl (!(decide (bits a 23 16 ≤ bits a 15 8) && decide (bits a 15 8 < bits a 31 24))
        || (List.range 64).any fun g => decide (512 + 4 * 2 ^ bits (grp g) 1 0 * 512 * bits (grp g) 20 12 > 4194304))
      ++ (if audioBad && (m.contains P.esl || m.contains P.aud) then [if m.contains P.aud then P.aud else P.esl] else [])
      ++ has P.dpt ((List.range 8).any fun p => decide (bits (willBe s (R.DPT_PART_CTRL p)) 15 8 &&& (255 - rf s (R.DPT_PART_CFG p) 7 0) ≠ 0))
      ++ has P.plb (decide (bits (willBe s R.PLB_TLIMIT) 7 0 ≤ s.plb.tCoolMax)),
    if spares.any (fun v => v ≠ spares.headD 0 || (v = 1 && decide (s.dram.layouts.length < 2))) then
      ((List.range 4).map P.dmc).filter m.contains else [] ]

/-- The first failing row of R684: the lowest failing page index, and the reason. -/
def seamFailure (s : State) : Option (Nat × Nat) :=
  match undeclared s with
  | pg :: _ => some (pg, 1)
  | [] => ((inconsistent s).find? fun l => !l.isEmpty).map fun l => (l.foldl min 63, 4)

/-! Votes (R685, R686). -/

/-- A member votes CANNOT: its reason (2 NOT_QUIESCENT, 3 BUSY, 4 INCONSISTENT), with the fault that its chapter names. DESIGN
CHOICE: of several busy pools the lowest-numbered is captured, once (R281). -/
def vote (s : State) (pg : Nat) : State × Option Nat :=
  let i := island s (islandAt pg)
  let quietAll (l : List Nat) : Option Nat := l.find? fun p => !isQuiet s p
  if s.staged.all (fun e => decide (e.1 / 0x1000 ≠ pg)) && !(decide (pg = P.qry) && !(seamPools s).isEmpty) then
    (s, if i.st = .off || i.fenced then some 3 else none)
  else if i.st = .off || i.fenced then (s, some 3)
  else match pageOf pg with
  | some (.pci, _) => (s, (quietAll (seamWindows s)).map fun _ => 2)
  | some (.dpt, _) => (s, (quietAll (seamParts s)).map fun _ => 2)
  | some (.qry, _) =>
    let busy := (seamPools s).find? fun k => !s.qry.fenced.contains k && poolEn s k && !(allocated s k).isEmpty
      && (affected s (R.QRY_POOL_BASE_LO k) || affected s (R.QRY_POOL_BASE_HI k)
          || decide (bits (copyOf s true (R.QRY_POOL_CFG k)) 16 0 ≠ poolCount s k))
    match busy with
    | some k => (hwFault s pg 6 (k + min (allocated s k).length 0x1FFFF * 2 ^ 15), some 3)
    | none => (s, (quietAll ((seamPools s).flatMap (poolParts s) ++ idParts s)).map fun _ => 2)
  | some (.dmc, c) =>
    if !affected s (R.DMC_LAYOUT c) then (s, none)
    else if (List.range 4).any fun k => decide (bits (willBe s (R.DMC_LAYOUT k)) 0 0 ≠ bits (willBe s (R.DMC_LAYOUT c)) 0 0) then
      (hwFault s pg 7 (bits (willBe s (R.DMC_LAYOUT c)) 0 0), some 4)
    else match (List.range 8).find? fun p => (spareParts s).contains p && !isQuiet s p with
      | some p => (hwFault s pg 8 p, some 2)
      | none => (s, none)
  | some (.ash, n) => (s, if affected s (R.ASH_MODE n) && coreBusy s n then some 3 else none)
  | some (.key, _) =>
    (s, if (List.range 4).any fun c => decide (bits (copyOf s true (R.KEY_CTX_CFG c)) 2 0 ≠ rf s (R.KEY_CTX_CFG c) 2 0) && ctxBusy s c then some 3
        else none)
  | some (.sfl, _) => (s, if (sflCleared s).any (sflHolds s) then some 3 else none)
  | _ => (s, none)

/-! Commit (R678, R688, R689). -/

/-- A member makes its staged copies active, takes the epoch and raises EPOCH. -/
def commitPage (e : Nat) (s : State) (pg : Nat) : State :=
  let mine := s.staged.filter fun x => decide (x.1 / 0x1000 = pg)
  let s := mine.foldl (fun s x =>
    let m := BitVec.ofNat 32 (match findReg x.1 with | some r => maskWhere r (decide <| · = .st) | none => 0)
    setReg s x.1 ((rd s x.1 &&& ~~~m) ||| (x.2 &&& m))) s
  let s := { s with staged := s.staged.filter fun x => decide (x.1 / 0x1000 ≠ pg) }
  raise (wf s (hdr pg 0x18) 15 0 e) pg 1

/-- The layout changes (R216, R217): changed regions lose their contents and are refilled; a subchannel of the new layout that a change touches fills, and the
spare layout ends a fence; a subchannel outside the change is left. DEDUCED: a request that waits for a changed region waits on at its place in the new
layout, and a buffered write of one is gone with the region's contents. -/
def switchLayout (s : State) (spare : Bool) : State :=
  let a := layoutMasks s
  let b := layoutIn s (b2n spare)
  let rs := changedRegions a b
  let changed (r : DramReq) : Bool := rs.contains ((r.addr - 0x1000000000) / 0x40000000)
  let moved := ((s.dram.sub.flatMap fun k => k.reads ++ k.stopped).filter changed).foldl (fun l r => seqInsert r l) []
  let touched := rs.foldl (fun m r => m ||| nth a r 0 ||| nth b r 0) 0
  let s := rs.foldl (fun s r => clearMem s (0x1000000000 + r * 0x40000000) 0x40000000) s
  let s := { s with dram := { s.dram with spare := spare, filling := rs } }
  let s := (List.range 8).foldl (fun s u => updSub s u fun k =>
    let k := { k with reads := k.reads.filter (!changed ·), stopped := k.stopped.filter (!changed ·), writes := k.writes.filter (!changed ·) }
    if k.st = .fenced ∧ !spare then k
    else if !bit (layoutUse b) u then { st := .absent, acks := k.acks }
    else if k.st = .fenced ∨ k.st = .absent then { st := .filling, acks := k.acks }
    else if bit touched u then { k with st := .filling }
    else k) s
  let s := moved.foldl (fun s r => match dramTarget s r.addr with
    | some (u, l) => updSub s u fun k => { k with stopped := k.stopped ++ [{ r with loc := l }] }
    | none => dramRespond s r.src r.chan MS.unmapped [] []) s
  (List.range 8).foldl (fun s u => releaseAcks (placeFreed s u) u) s

/-- An entry's EN was set: its source begins afresh, with the queue's TAIL. -/
def enableSource (s : State) (k : Nat) : State :=
  let t := ctxTail (peekCtx s (declOf s k).queue)
  updSrc s k fun x => { x with tail := t, lastStart := none, delivered := false, stalled := false, synced := false, seqNum := none, skip := false, credit := 0 }

/-- The withdrawn cores whose bit of CORE_EN is 1 return to selection (R551). -/
def returnCores (s : State) : State :=
  (List.range 8).foldl (fun s p =>
    let back := bitList (rf s (R.DPT_PART_STATUS p) 15 8 &&& rf s (R.DPT_PART_CTRL p) 15 8) 8
    let s := wf s (R.DPT_PART_STATUS p) 15 8 (rf s (R.DPT_PART_STATUS p) 15 8 - (back.map (2 ^ ·)).sum)
    updDpt s fun d => { d with mismatches := d.mismatches.filter fun e => !back.contains e.1 }) s

/-- What the commit brings about beyond the new values; `old` is the state before it. -/
def commitEffects (old : State) (pages : List Nat) (s : State) : State :=
  let s := if pages.contains P.qry then (old.qry.fenced.filter (poolEn s)).foldl reinitPool s else s
  let s := if pages.any fun pg => (pageOf pg).any (decide <| ·.1 = .dmc) && affected old (R.DMC_LAYOUT (pg - 16)) then
      switchLayout s (rb s (R.DMC_LAYOUT 0) 0) else s
  let s := if pages.contains P.dpt then settleParts (returnCores s) else s
  let s := (List.range 4).foldl (fun s c =>
    if rf old (R.KEY_CTX_CFG c) 2 0 ≠ rf s (R.KEY_CTX_CFG c) 2 0 then updCtx s c fun _ => {} else s) s
  let s := if micBytes (rd old R.AUD_MIC_CFG).toNat ≠ micBytes (rd s R.AUD_MIC_CFG).toNat then
      updAud (historyRestart s) fun a => { a with handoff := [] } else s
  let s := (List.range 64).foldl (fun s g =>
    if rb s (R.ESL_GRP_CFG g) 11 && !rb old (R.ESL_GRP_CFG g) 11 then
      { s with esl := { s.esl with tail := SMap.put s.esl.tail g (ctxTail (peekCtx s (grpQueue s g))) 0 } } else s) s
  let s := if sentinelOn old then s else holdMedia s
  (List.range 200).foldl (fun s k => if (declOf s k).en && !(declOf old k).en then enableSource s k else s) s

/-- A change set of the given pages commits under epoch `e`. -/
def commitPages (s : State) (pages : List Nat) (e : Nat) : State := commitEffects s pages (pages.foldl (commitPage e) s)

/-- SEAM_ELAPSED, SEAM_LAST, SEAM_COUNT at the end of a set; STATE is IDLE. -/
def seamEnd (s : State) (result cause e : Nat) : State :=
  let us := min 0xFFFF (4 * (s.clock - s.seam.since) / 1000)
  let s := setReg (setReg s R.SEAM_ELAPSED (BitVec.ofNat 32 us)) R.SEAM_LAST (BitVec.ofNat 32 (result + cause * 256 + e * 65536))
  let s := if result = 1 then bump s R.SEAM_COUNT 15 0 1 else bump s R.SEAM_COUNT 31 16 1
  wf s R.SEAM_STATE 1 0 0

/-- The next epoch (R688). -/
def nextEpoch (s : State) : Nat := (rf s R.SEAM_EPOCH_NOW 15 0 + 1) % 65536

/-- The set commits (R688): one record in any case. -/
def seamCommit (s : State) : State :=
  let e := nextEpoch s
  let s := commitPages s (seamMembers s) e
  let s := seamEnd (wf s R.SEAM_EPOCH_NOW 15 0 e) 1 0 e
  let wrote := !rb s (hdr P.seam 0x20) 8 && rb s (hdr P.seam 0x2C) 17
  let s := raise s P.seam 8
  if wrote then s else toRecorder s (pageOccurrence s P.seam 8 false none)

/-- Every member is at its seam and the set waits. -/
def mayCommit (s : State) : Bool := decide (seamState s = 3) && (seamMembers s).all (atSeam s)

/-- The set in progress aborts with a cause (R690), unless it commits in the same cycle (R691). -/
def seamAbort (s : State) (cause : Nat) : State :=
  if seamState s = 0 then s
  else if mayCommit s then seamCommit s
  else raise (seamEnd s 2 cause (nextEpoch s)) P.seam 9

/-- The island of a member is about to become OFF or fenced (R690 MEMBER_LOST). -/
def seamLoses (s : State) (isl : Nat) : State :=
  if decide (seamState s ≠ 0) && (seamMembers s).any (fun pg => islandAt pg = isl) then seamAbort s 6 else s

/-- A page's CTRL.SRESET is written (R690 MEMBER_RESET). -/
def seamResets (s : State) (pg : Nat) : State := if frozen s pg then seamAbort s 5 else s

/-- A soft reset of the SEAM page aborts the set (R789). -/
def seamSoftReset (s : State) : State := if seamState s = 0 then s else raise (seamEnd s 2 4 (nextEpoch s)) P.seam 9

/-! The commands (R680, R681, R690, R692). -/

/-- Why a GO with an operation is dropped: cause and FAULT_INFO. -/
def seamRefusal (s : State) (op : Nat) : Option (Nat × Nat) :=
  if op = 1 then
    if seamState s ≠ 0 then some (1, seamState s)
    else if rd s R.SEAM_MASK_LO = 0 ∧ rd s R.SEAM_MASK_HI = 0 then some (2, 0)
    else if rf s R.BOOT_PHASE 3 0 = 8 ∨ rf s R.BOOT_PHASE 3 0 = 9 then some (3, rf s R.BOOT_PHASE 3 0)
    else none
  else if op = 3 ∧ seamState s ≠ 0 then some (4, 3)
  else none

/-- PREPARE: the members freeze and CHECKING begins. -/
def seamPrepare (s : State) : State :=
  let s := [R.SEAM_CANNOT_LO, R.SEAM_CANNOT_HI, R.SEAM_REASON].foldl (fun s r => setReg s r 0) s
  wf { s with seam := { since := s.clock } } R.SEAM_STATE 1 0 1

/-- GO is written with an operation that is not refused. -/
def seamCommand (s : State) (op : Nat) : State :=
  match op with
  | 1 => seamPrepare s
  | 2 => seamAbort s 4
  | 3 =>
    let m := seamMembers s
    { s with staged := s.staged.filter fun e => !m.contains (e.1 / 0x1000) }
  | _ => s

/-- The DMC members stage SPARE otherwise than alike: each captures LAYOUT_MISMATCH (06 R216). -/
def captureMismatch (s : State) : State :=
  let cs := (List.range 4).filter fun c => (seamMembers s).contains (P.dmc c)
  let spare (c : Nat) : Nat := bits (willBe s (R.DMC_LAYOUT c)) 0 0
  if cs.all fun c => spare c = spare (cs.headD 0) then s
  else cs.foldl (fun t c => hwFault t (P.dmc c) 7 (spare c)) s

/-- SEAM_CHECK_DONE (R683, R684). -/
def execSeamCheckDone (s : State) : Host.Outcome State Fault Refusal :=
  if seamState s ≠ 1 then .next s
  else match seamFailure s with
    | some (pg, r) =>
      let s := if P.dmc 0 ≤ pg ∧ pg ≤ P.dmc 3 then captureMismatch s else s
      .next (seamAbort (setReg s R.SEAM_REASON (BitVec.ofNat 32 (pg + r * 256))) 2)
    | none => .next (wf s R.SEAM_STATE 1 0 2)

/-- The votes of the members in order: the pages that vote CANNOT with their reasons. -/
def votes : List Nat → State → State × List (Nat × Nat)
  | [], s => (s, [])
  | pg :: ps, s =>
    let v := vote s pg
    let r := votes ps v.1
    (r.1, (v.2.toList.map fun n => (pg, n)) ++ r.2)

/-- What the votes lead to (R685, R686): `cannot` lists the pages that voted against and their reasons, lowest page first. -/
def seamVoted (s : State) (cannot : List (Nat × Nat)) : State :=
  match cannot with
  | [] => wf s R.SEAM_STATE 1 0 3
  | (pg, n) :: _ =>
    let m := cannot.foldl (fun m e => m ||| 2 ^ e.1) 0
    let s := setReg s R.SEAM_CANNOT_LO (BitVec.ofNat 32 m)
    let s := setReg s R.SEAM_CANNOT_HI (BitVec.ofNat 32 (m / 2 ^ 32))
    seamAbort (setReg s R.SEAM_REASON (BitVec.ofNat 32 (pg + n * 256))) 1

/-- SEAM_VOTES_DONE (R683, R685, R686). -/
def execSeamVotesDone (s : State) : Host.Outcome State Fault Refusal :=
  if seamState s ≠ 2 then .next s
  else .next (seamVoted (votes (seamMembers s) s).1 (votes (seamMembers s) s).2)

/-- SEAM_COMMIT (R688): a cycle in which every member is at its seam. -/
def execSeamCommit (s : State) : Host.Outcome State Fault Refusal := .next (if mayCommit s then seamCommit s else s)

/-- SEAM_TIMEOUT (R690, R691): MS ms have passed since PREPARE. -/
def execSeamTimeout (s : State) : Host.Outcome State Fault Refusal := .next (seamAbort s 3)

end Sys2Proof.Machine
end

