-- ==== Sys2Proof/Machine/Loader.lean ====
section
/-!
DEFINITION. Machine/Loader.lean: the .wlb format and the loader's checks (16 R499 to R519, 17 R531, R542, R543, 18 R569), and step 9 of the bring-up: the
images of the declaration blocks, the LOCAL models, one change set committed as epoch 1 (17 R523, Start-up); step 10.
-/
namespace Sys2Proof.Machine
open Sys2Proof

/-! Variants (R499 to R505). -/

/-- A variant of a file: its index, its WIDTH by the variant directory, its sections by type. -/
structure Variant where
  index : Nat
  width : Nat
  secs : List (Nat × List Byte)
deriving DecidableEq, Repr

/-- The bytes of a section; empty where the variant lacks it. -/
def Variant.sec (v : Variant) (t : Nat) : List Byte := ((v.secs.find? (·.1 = t)).map (·.2)).getD []

/-- The variant has a section. -/
def Variant.has (v : Variant) (t : Nat) : Bool := v.secs.any (·.1 = t)

/-- Fields of RESOURCES (R502). -/
abbrev Variant.res (v : Variant) : List Byte := v.sec 0x10
abbrev Variant.coreSram (v : Variant) : Nat := field v.res 0 4
abbrev Variant.mortarSram (v : Variant) : Nat := field v.res 4 4
abbrev Variant.dramKib (v : Variant) : Nat := field v.res 8 4
abbrev Variant.channels (v : Variant) : Nat := field v.res 12 1
abbrev Variant.cores (v : Variant) : Nat := field v.res 13 1
abbrev Variant.pairedIn (v : Variant) : Nat := field v.res 15 1
abbrev Variant.quota (v : Variant) (k : Nat) : Nat := field v.res (16 + 2 * k) 2
abbrev Variant.entry (v : Variant) : Nat := field v.res 32 4
abbrev Variant.slot512 (v : Variant) : Nat := field v.res 36 2
abbrev Variant.batch (v : Variant) : Nat := field v.res 38 1

/-- Fields of TIMING (R503). -/
abbrev Variant.timing (v : Variant) : List Byte := v.sec 0x11
abbrev Variant.spacing (v : Variant) : Nat := field v.timing 0 2
abbrev Variant.fallback (v : Variant) : Nat := field v.timing 10 2

/-- Variant `i` of a file; its section directory gives offsets from the variant's start (R500). -/
def variantOf (f : List Byte) (i : Nat) : Variant :=
  let d := 64 + 16 * i
  let v := (f.drop (field f d 4)).take (field f (d + 8) 4)
  { index := i, width := field f (d + 6) 1,
    secs := (List.range (field f (d + 4) 2)).map fun j => (field v (16 * j) 2, (v.drop (field v (16 * j + 8) 4)).take (field v (16 * j + 12) 4)) }

/-- The variants in preference order. -/
def variantsOf (f : List Byte) : List Variant := (List.range (field f 12 1)).map (variantOf f)

/-- CLASS and the FLAGS bit GRAIN of a file (R499). -/
abbrev wlbClass (f : List Byte) : Nat := field f 13 1
abbrev wlbGrain (f : List Byte) : Bool := bit (field f 14 1) 2

/-- The bytes from `lo`, `n` of them, are zero. -/
def zeroAt (b : List Byte) (lo n : Nat) : Bool := decide (field b lo n = 0)

/-- The layout of a variant (R500 to R504): sections placed as R107 gives within it, lengths, no reserved value. -/
def variantOk (f : List Byte) (i : Nat) : Bool :=
  let d := 64 + 16 * i
  let at_ := field f d 4
  let len := field f (d + 8) 4
  let n := field f (d + 4) 2
  let v := variantOf f i
  let b := (f.drop at_).take len
  let dirs := (List.range n).map fun j => (field b (16 * j + 8) 4, field b (16 * j + 12) 4)
  let code := v.sec 0x14
  let r := v.res
  decide (64 + 16 * field f 12 1 ≤ at_) && decide (at_ + len ≤ f.length) && decide (16 * n ≤ len) && zeroAt f (d + 7) 1 && zeroAt f (d + 12) 4
    && dirs.all (fun e => decide (e.1 % 8 = 0) && decide (16 * n ≤ e.1) && decide (e.1 + e.2 ≤ len)) && apart dirs
    && (List.range n).all (fun j => zeroAt b (16 * j + 2) 2)
    && v.secs.all (fun e => decide (0x10 ≤ e.1) && decide (e.1 ≤ 0x17) && decide (v.secs.countP (·.1 = e.1) = 1))
    && [0x10, 0x11, 0x13, 0x14].all v.has && (v.has 0x12 == decide (wlbClass f = 0))
    && decide (r.length = 64) && decide (v.timing.length = 32) && decide ((v.sec 0x13).length = 32) && (!v.has 0x12 || decide ((v.sec 0x12).length = 64))
    && decide (code.length % 128 = 0) && decide (0 < code.length) && decide (code.length + (v.sec 0x15).length ≤ v.coreSram)
    && decide ((v.sec 0x16).length ≤ v.mortarSram) && decide ((v.sec 0x17).length ≤ v.dramKib * 1024)
    && decide (v.coreSram % 4096 = 0) && decide (v.mortarSram % 4096 = 0) && (v.dramKib ≠ 0 || decide (v.channels = 0))
    && decide (1 ≤ v.cores) && decide (v.cores ≤ 8) && decide (field r 14 1 = v.width) && decide (v.width ≤ 4) && decide (v.pairedIn ≤ 1)
    && decide (v.entry % 128 = 0) && decide (v.entry < code.length) && decide (v.batch ≤ 2) && zeroAt r 39 25
    && zeroAt v.timing 2 2 && zeroAt v.timing 9 1 && decide (field v.timing 12 1 ≤ 1) && zeroAt v.timing 13 19
    && zeroAt (v.sec 0x12) 14 2 && zeroAt (v.sec 0x13) 20 12

/-- Check 2 of R517. -/
def wlbOk (f : List Byte) : Bool :=
  decide (field f 0 4 = 0x30424C57) && decide (field f 4 2 = 1) && decide (field f 6 2 = 1) && decide (field f 8 4 = f.length)
    && decide (1 ≤ field f 12 1) && decide (field f 12 1 ≤ 8) && decide (wlbClass f ≤ 3) && decide (field f 14 1 ≤ 7) && zeroAt f 15 1 && zeroAt f 48 16
    && (List.range (field f 12 1)).all (variantOk f)

/-! Placement. -/

/-- A refusal: model, reason, the four words of each shortfall record (R542). -/
abbrev Refused := Nat × Nat × List (List Nat)

/-- What the loader keeps while it places models: the state, the ranges of its SRAM in use by core, the Quarry buffers that loaded models claim by core × 8 + pool, the
ranges of Mortar SRAM and DRAM in use, the refusals so far. -/
structure Loader where
  s : State
  used : List (List (Nat × Nat)) := List.replicate 8 []
  claims : SMap Nat := []
  taken : List (Nat × Nat)
  refused : List Refused := []
deriving DecidableEq, Repr

/-- A range put into a list in order of its start. -/
def sortIn (r : Nat × Nat) : List (Nat × Nat) → List (Nat × Nat)
  | [] => [r]
  | q :: l => if r.1 ≤ q.1 then r :: q :: l else q :: sortIn r l

/-- The free ranges between `c` and `hi` outside sorted ranges, in units of 4 KiB. -/
def gapsOf : List (Nat × Nat) → Nat → Nat → List (Nat × Nat)
  | [], c, hi => if c < hi then [(c, hi - c)] else []
  | (a, n) :: l, c, hi =>
    let a' := a / 4096 * 4096
    (if c < min a' hi then [(c, min a' hi - c)] else []) ++ gapsOf l (max c (alignUp (a + n) 4096)) hi

/-- The free ranges of [lo, hi) beside what is in use and `ex`. -/
def freeIn (k : Loader) (ex : List (Nat × Nat)) (lo hi : Nat) : List (Nat × Nat) :=
  gapsOf ((ex ++ k.taken).foldl (fun l r => if r.2 = 0 then l else sortIn r l) []) lo hi

/-- The longest of some ranges. -/
def longest (l : List (Nat × Nat)) : Nat := l.foldl (fun m r => max m r.2) 0

/-- The 1 GiB regions that a channel set does not cover, as ranges. -/
def outside (s : State) (channels : Nat) : List (Nat × Nat) :=
  ((List.range 32).filter fun r => let m := regionMask s r; decide (m = 0) || decide (m &&& (255 - channels) ≠ 0)).map fun r =>
    (0x1000000000 + r * 0x40000000, 0x40000000)

/-- The free Mortar SRAM of a partition's share, and the free DRAM of a channel set. -/
def freeMortar (k : Loader) (e : List Byte) : List (Nat × Nat) := freeIn k [] (pMbase e) (pMbase e + pMsize e)
def freeDram (k : Loader) (channels : Nat) : List (Nat × Nat) := freeIn k (outside k.s channels) 0x1000000000 0x1800000000

/-- The first range that holds `n` bytes; 0 where nothing is asked. -/
def placeIn (l : List (Nat × Nat)) (n : Nat) : Nat := if n = 0 then 0 else ((l.find? fun r => n ≤ r.2).map (·.1)).getD 0

/-- The ranges that declarations keep for other uses: rings, pools, ROI lists, the history ring, the queue context table. -/
def declaredRanges (rs : List DeclRec) : List (Nat × Nat) :=
  tableRange :: (pools rs).map (·.2) ++ rs.filterMap fun r => match r.kind with
    | 3 => some (ctxBase r.ctx, 64 * ctxCap r.ctx)
    | 7 => some (bits (r.word 8) 31 12 * 4096 + bits (r.word 12) 15 0 * 2 ^ 32, 8192)
    | 8 => some (bits (r.word 8) 31 6 * 64 + bits (r.word 12) 15 0 * 2 ^ 32, bits (r.word 16) 31 24 * micBytes (r.word 20))
    | _ => none

/-- Numbers in descending order. -/
def descend (l : List Nat) : List Nat := l.foldl (fun a x => (a.takeWhile (fun y => decide (x ≤ y))) ++ x :: a.dropWhile (fun y => decide (x ≤ y))) []

/-- The free ranges of core SRAM that some cores have in common. -/
def freeCores (k : Loader) (ns : List Nat) : List (Nat × Nat) :=
  gapsOf ((ns.flatMap fun n => nth k.used n []).foldl (fun l r => sortIn r l) []) 0 0x01000000

/-- Checks 4 and 5 of R517: the cores chosen and the region's offset, which a model table entry holds once for all of them (17 Table window), or the shortfall records of R542. Without a core of the variant's class
CORES alone is reported, as the worked example of 17 has it. -/
def fits (k : Loader) (e : List Byte) (v : Variant) : (List Nat × Nat) ⊕ List (List Nat) :=
  let p := pIndex e
  let free (n : Nat) : Nat := longest (freeCores k [n])
  let same := (bitList (pCores e) 8).filter fun n => bit (rf k.s (R.DPT_PART_CTRL p) 15 8) n && decide (rf k.s (R.ASH_CLASS n) 2 0 = v.width)
  let fit := same.filter fun n => decide (v.coreSram ≤ free n)
  let row (res need avail : Nat) : List (List Nat) := if need ≤ avail then [] else [[v.index + res * 256, need, avail, need - avail]]
  let most := nth (descend (same.map free)) (v.cores - 1) (nth (descend (same.map free)) (same.length - 1) 0)
  let chosen := fit.take v.cores
  let common := freeCores k chosen
  let left (n j : Nat) : Nat :=
    let q := quotaOf k.s (36 + n) j
    if q = 0xFFFF then 0xFFFFFFFF else q - SMap.getD k.claims (8 * n + j) 0
  let quotas := (List.range 8).flatMap fun j =>
    let l := (if fit.isEmpty then same else fit).map (left · j)
    row (8 + j) (v.quota j) (l.foldl min (l.headD 0))
  let rows := row 1 v.cores fit.length
    ++ (if same.isEmpty then [] else
      (if same.length < v.cores ∨ most < v.coreSram then row 2 (v.coreSram / 1024) (most / 1024) else [])
        ++ row 3 (v.mortarSram / 1024) (longest (freeMortar k e) / 1024) ++ row 4 v.dramKib (longest (freeDram k v.channels) / 1024)
        ++ (if v.channels &&& (255 - pChannels e) = 0 then [] else [[v.index + 5 * 256, v.channels, pChannels e, v.channels &&& (255 - pChannels e)]])
        ++ quotas)
  if rows ≠ [] then .inr rows
  else if longest common < v.coreSram then .inr (row 2 (v.coreSram / 1024) (longest common / 1024))
  else .inl (chosen, placeIn common v.coreSram)

/-- A pool lies in Mortar SRAM. -/
def poolInMortar (s : State) (k : Nat) : Bool :=
  poolEn s k && decide (0x08000000 ≤ poolBase s k) && decide (poolBase s k + poolCount s k * poolSize k ≤ 0x10000000)

/-- Check 8 of R517 (R504, R516): the loader's rows for a sentinel variant. -/
def certified (s : State) (f me : List Byte) (v : Variant) : Bool :=
  let w := v.sec 0x12
  decide (v.dramKib = 0) && decide (v.channels = 0) && !v.has 0x17 && (List.range 8).all (fun k => decide (v.quota k = 0) || poolInMortar s k)
    && (!wlbGrain f || bit (field v.timing 12 1) 0) && mLocal me && decide (field w 12 2 = 1) && decide ((w.drop 16).take 48 = sha384 (v.sec 0x14))
    && decide (field w 10 1 = v.width) && decide (field w 11 1 = v.pairedIn) && decide (field w 8 2 = 900)
    && decide (field w 0 4 ≤ 900 * mDeadline me)

/-- The Easel group that a queue is the batch queue of. -/
def groupOfQueue (s : State) (q : Nat) : Option Nat := (List.range 64).find? fun g => rb s (R.ESL_GRP_CFG g) 10 && decide (grpQueue s g = q)

/-- Checks 6 to 8 of R517 for a variant that fits on `cores`: the reason of the first that fails, or 0. DEDUCED: a queue that no group feeds fails check 6, and
so does a variant with PAIRED 1 on a core whose ASH_MODE.PAIRED is 0 (R502). -/
def shapeWhy (k : Loader) (f me e : List Byte) (v : Variant) (cores : List Nat) : Nat :=
  let grp := match groupOfQueue k.s (mInQ me) with
    | some g => decide (rf k.s (R.ESL_GRP_CFG g) 20 12 = v.slot512) && decide (rf k.s (R.ESL_GRP_CFG g) 1 0 = v.batch)
        && decide (rf k.s (R.ESL_GRP_CFG g) 2 2 = v.pairedIn) && (v.pairedIn = 0 || cores.all fun n => rb k.s (R.ASH_MODE n) 5)
    | none => false
  if !grp then 3
  else if bit (pClasses e) 0 && !(decide (1 ≤ v.spacing) && decide (v.spacing ≤ 512)) then 5
  else if wlbClass f = 0 ∧ !certified k.s f me v then 6
  else 0

/-- Check 10 of R517. -/
def energyOk (v : Variant) : Bool := (List.range 5).all fun i => field (v.sec 0x13) (4 * i) 4 ≠ 0

/-- Bytes put into a store that reads zero (R506). -/
def putImage (s : State) (a n : Nat) (bs : List Byte) : State := setBytes (clearMem s a n) a bs

/-- A model is placed (R506, R508) and its table entry written. -/
def placeModel (k : Loader) (i : Nat) (f me e : List Byte) (v : Variant) (cores : List Nat) (off : Nat) : Loader :=
  let m := placeIn (freeMortar k e) v.mortarSram
  let d := placeIn (freeDram k v.channels) (v.dramKib * 1024)
  let s := cores.foldl (fun s n => putImage s (n * 0x01000000 + off) v.coreSram (v.sec 0x14 ++ v.sec 0x15)) k.s
  let s := if v.mortarSram = 0 then s else putImage s m v.mortarSram (v.sec 0x16)
  let s := if v.dramKib = 0 then s else putImage s d (v.dramKib * 1024) (v.sec 0x17)
  let model : Model := { st := 1, cls := wlbClass f, part := pIndex e, cores := (cores.map (2 ^ ·)).sum, inQ := mInQ me, outQ := mOutQ me,
                         entry := v.entry, region := off, mortar := m, dram := d, deadline := mDeadline me, action := mAction me, variant := v.index,
                         fallback := v.fallback, satLimit := field v.timing 4 4, driftJobs := field v.timing 8 1, flags := b2n (decide (v.dramKib ≠ 0)),
                         energy := (List.range 5).map fun j => field (v.sec 0x13) (4 * j) 4 }
  { k with
    s := updModel s i fun _ => model
    used := cores.foldl (fun l n => updAt l n fun u => (off, v.coreSram) :: u) k.used
    claims := cores.foldl (fun q n => (List.range 8).foldl (fun q j => SMap.put q (8 * n + j) (SMap.getD q (8 * n + j) 0 + v.quota j) 0) q) k.claims
    taken := (m, v.mortarSram) :: (d, v.dramKib * 1024) :: k.taken }

/-- The bindings of a model in its partition (checks 3 of R517 and R531). -/
def bound (rs : List DeclRec) (k : Loader) (f me e : List Byte) : Bool :=
  bit (pClasses e) (wlbClass f) && (queueDecl rs (mPart me) (mInQ me)).isSome && !k.s.dpt.models.any (fun m => m.2.inQ = mInQ me)
    && match queueDecl rs (mPart me) (mOutQ me) with | some q => ctxRecord q && decide (ctxProd q = 1) | none => false

/-- Model `b` is loadable in partition `p` beside the models that `k` holds: a LOCAL model of the partition some variant of which passes the checks but that of its
own fallback. -/
def loadable (c : List Byte) (rs : List DeclRec) (k : Loader) (b p : Nat) : Bool :=
  let me := entryOf c 3 b
  let f := localFile k.s me
  decide (b < (entries c 3).length) && mLocal me && decide (mPart me = p) && !(k.refused.any (·.1 = b)) && wlbOk f
    && match partEntry c p with
      | none => false
      | some e => bound rs k f me e && (variantsOf f).any fun v => match fits k e v with
        | .inr _ => false
        | .inl r => decide (shapeWhy k f me e v r.1 = 0) && energyOk v

/-- Check 9 of R517, R518: the fallback of a variant is loaded, or loadable once the model is placed; of its class or a lower one. -/
def fallbackOk (c : List Byte) (rs : List DeclRec) (k t : Loader) (f me : List Byte) (b : Nat) : Bool :=
  let fb := modelOf k.s b
  let cls := wlbClass f
  decide (b = 0xFFFF) || ((if fb.st ≠ 0 then decide (fb.part = mPart me) && decide (cls ≤ fb.cls)
      else loadable c rs t b (mPart me) && decide (cls ≤ wlbClass (localFile k.s (entryOf c 3 b))))
    && (decide (cls ≠ 0) || (decide (fb.st ≠ 0) && decide (fb.cls = 0) && mLocal (entryOf c 3 b))))

/-- The first variant that passes checks 4 to 10, placed; else the first variant's reason and every shortfall record. -/
def pickVariant (c : List Byte) (rs : List DeclRec) (k : Loader) (i : Nat) (f me e : List Byte) : List Variant → Loader ⊕ (Nat × List (List Nat))
  | [] => .inr (0, [])
  | v :: vs =>
    let next (why : Nat) (rows : List (List Nat)) : Loader ⊕ (Nat × List (List Nat)) :=
      match pickVariant c rs k i f me e vs with
      | .inl p => .inl p
      | .inr (_, more) => .inr (why, rows ++ more)
    match fits k e v with
    | .inr rows => next 4 rows
    | .inl (cores, off) =>
      let t := placeModel k i f me e v cores off
      let why := shapeWhy k f me e v cores
      if why ≠ 0 then next why []
      else if !fallbackOk c rs k t f me v.fallback then next 7 []
      else if !energyOk v then next 8 []
      else .inl t

/-- The reserve of a partition stays within what every safe row grants its core groups (R569). -/
def reserveOk (s : State) (p : Nat) : Bool :=
  let keep := if sentinelRate s > 100000 then thinKeep s else 256
  (List.range s.plb.safe.length).all fun r => decide (reserveOf s p keep ≤ ((partGroups s p).map fun g => nth (safePower s r) g 0 / 100).sum)

/-- One LOCAL model is checked and placed, or refused whole (R517, R519). -/
def loadModel (c : List Byte) (rs : List DeclRec) (k : Loader) (i : Nat) : Loader :=
  let me := entryOf c 3 i
  let f := localFile k.s me
  let refuse (why : Nat) (rows : List (List Nat)) : Loader := { k with refused := k.refused ++ [(i, why, rows)] }
  if !wlbOk f then refuse 2 []
  else match partEntry c (mPart me) with
  | none => refuse 3 []
  | some e =>
    if !bound rs k f me e then refuse 3 []
    else match pickVariant c rs k i f me e (variantsOf f) with
      | .inr (why, rows) => refuse why rows
      | .inl t => if wlbClass f = 0 ∧ !reserveOk t.s (pIndex e) then refuse 8 [] else t

/-- The fallbacks that a LOCAL model's variants name. -/
def fallbacksOf (s : State) (me : List Byte) : List Nat :=
  let f := localFile s me
  (((List.range (min 8 (field f 12 1))).map fun i => (variantOf f i).fallback).filter (· ≠ 0xFFFF))

/-- LOCAL models in the order of loading: of those left, the first whose fallbacks are not among them (R518). -/
def loadOrder (s : State) (c : List Byte) : Nat → List Nat → List Nat
  | 0, _ => []
  | fuel + 1, l =>
    match l with
    | [] => []
    | i :: _ =>
      let j := (l.find? fun i => (fallbacksOf s (entryOf c 3 i)).all fun f => f = i || !l.contains f).getD i
      j :: loadOrder s c fuel (l.erase j)

/-- The LOCAL models of a manifest are loaded (R122). -/
def loadLocal (s : State) (c : List Byte) (rs : List DeclRec) : Loader :=
  let l := (List.range (entries c 3).length).filter fun i => mLocal (entryOf c 3 i)
  (loadOrder s c l.length l).foldl (loadModel c rs) { s := s, taken := declaredRanges rs }

/-- What a refusal shows (R543): its shortfall records, DPT_LOAD_STATUS, cause LOAD_REFUSED, DPT.LOAD_REFUSED and the partition's event. -/
def showRefusal (c : List Byte) (s : State) (r : Refused) : State :=
  let s := r.2.2.foldl (fun s w => softRecord s .boot 0xD001 w) s
  let s := setReg s R.DPT_LOAD_STATUS (BitVec.ofNat 32 (r.1 + r.2.1 * 65536 + min 255 r.2.2.length * 0x1000000))
  partEvent (raise (fault s P.dpt 3 .boot (r.1 + r.2.1 * 65536) none) P.dpt 9) (mPart (entryOf c 3 r.1)) 3

/-! Step 9 (17 Start-up, and the Start-up of the engines' chapters). -/

/-- The boot ROM writes a register: its ST fields as a staged copy, the rest at once. -/
def bootWord (s : State) (off w : Nat) : State :=
  let m := BitVec.ofNat 32 (match findReg off with | some r => maskWhere r (decide <| · = .st) | none => 0)
  let v := BitVec.ofNat 32 w
  let now := (rd s off &&& m) ||| (v &&& ~~~m)
  { setReg s off now with staged := SMap.put s.staged off v now }

/-- Some registers are written in order. -/
def bootWords (s : State) (l : List (Nat × Nat)) : State := l.foldl (fun s e => bootWord s e.1 e.2) s

/-- The images of a record (R523); queues and lists apart. -/
def recordWords (s : State) (r : DeclRec) : List (Nat × Nat) :=
  let k := r.key
  match r.kind with
  | 1 =>
    let i := 8 * r.part + k
    [(R.PCI_PWIN_BASE_LO i, r.word 8), (R.PCI_PWIN_BASE_HI i, r.word 12), (R.PCI_PWIN_LIMIT_LO i, r.word 16), (R.PCI_PWIN_LIMIT_HI i, r.word 20)]
  | 2 => [(R.PCI_HWIN_BASE_LO k, r.word 8), (R.PCI_HWIN_BASE_HI k, r.word 12), (R.PCI_HWIN_CFG k, r.word 16), (R.PCI_HWIN_CFG_HI k, r.word 20)]
  | 4 => [(R.QRY_POOL_BASE_LO k, r.word 8), (R.QRY_POOL_BASE_HI k, r.word 12), (R.QRY_POOL_CFG k, r.word 16)]
  | 5 =>
    let m := R.QRY_IDMAP (k / 8)
    (m, putBits (stagedOf s m).toNat (4 * (k % 8) + 3) (4 * (k % 8)) (8 + r.part)) :: (List.range 4).map fun j => (R.QRY_QUOTA k j, r.word (8 + 4 * j))
  | 6 => [(R.ESL_GRP_CFG k, r.word 8 ||| 1024), (R.ESL_GRP_QUEUE k, r.word 12)]
  | 7 => [(R.ENL_SLOT_LIST_LO 0 k, r.word 8), (R.ENL_SLOT_LIST_HI 0 k, r.word 12)]
  | 8 => [(R.ESL_AUDIO_BASE_LO, r.word 8), (R.ESL_AUDIO_BASE_HI, r.word 12), (R.ESL_AUDIO_CFG, r.word 16), (R.AUD_MIC_CFG, r.word 20)]
  | _ => []

/-- A record takes effect: images, a queue's context, both lists of a slot. -/
def applyRecord (s : State) (r : DeclRec) : State :=
  let s := bootWords s (recordWords s r)
  match r.kind with
  | 3 => putCtx s r.key r.ctx
  | 7 =>
    let a := bits (r.word 8) 31 12 * 4096 + bits (r.word 12) 15 0 * 2 ^ 32
    setBytes (setBytes s a (r.bytes.drop 16)) (a + 4096) (r.bytes.drop 16)
  | _ => s

/-- The source number of STREAMS entry `i`: a MAC's entries lie in the order of the section. -/
def streamSource (c : List Byte) (i : Nat) : Nat :=
  let e := entryOf c 1 i
  if sKind e = 1 then csiSrc (sPort e) (sVc e)
  else ethSrc (sPort e) (((entries c 1).take i).countP fun d => sKind d ≠ 1 && sPort d = sPort e)

/-- The bindings of STREAMS entry `i` (R286), and of its slot on ENL and DEV. -/
def streamWords (c : List Byte) (rs : List DeclRec) (i : Nat) : List (Nat × Nat) :=
  let e := entryOf c 1 i
  let k := streamSource c i
  let dim := sWidth e + sHeight e * 65536
  let rq := sRate e + sQueue e * 65536
  let outQ := match declared rs 7 (sSlot e) with | some r => field r.bytes 6 2 | none => 0
  let raw := decide (sFormat e < 0x10)
  (if sKind e = 1 then
    [(R.CSI_VC_CFG (k / 16) (k % 16), sSlot e + 64 + sFormat e * 256 + sClass e * 65536), (R.CSI_VC_DIM (k / 16) (k % 16), dim),
      (R.CSI_VC_RQ (k / 16) (k % 16), rq)]
  else
    let m := (k - 128) / 36
    let j := (k - 128) % 36
    let id := if sKind e = 2 then ofBe ((e.drop 4).take 8) else field e 4 2
    [(R.ETH_STR_ID_LO m j, id % 2 ^ 32), (R.ETH_STR_ID_HI m j, id / 2 ^ 32),
      (R.ETH_STR_CFG m j, sSlot e + (sKind e - 1) * 64 + 256 + sFormat e % 16 * 512 + sClass e * 8192 + sMaxKib e * 65536),
      (R.ETH_STR_DIM m j, dim), (R.ETH_STR_RQ m j, rq)])
    ++ [(R.ENL_SLOT_CFG 0 (sSlot e), (if raw then sQueue e else outQ) + 65536 + b2n (!raw) * 131072 + sClass e * 262144 + sPart e * 1048576)]
    ++ (if raw then [] else [(R.DEV_SLOT_CFG 0 (sSlot e), outQ + 65536 + (sFormat e - 0x0F) * 131072)])

/-- The registers that a PARTITIONS entry gives (R522, R549). -/
def partWords (e : List Byte) : List (Nat × Nat) :=
  let p := pIndex e
  let sent := bits (pClasses e) 0 0
  [(R.DPT_PART_CFG p, pCores e + pClasses e * 256 + 4096 + bits (pFlags e) 1 1 * 8192 + pChannels e * 65536),
    (R.DPT_PART_CTRL p, bits (pFlags e) 0 0 + pCores e * 256)]
    ++ (bitList (pCores e) 8).map fun n => (R.ASH_MODE n, p + 8 + sent * 16 + bits (pFlags e) 1 1 * 32)

/-- The registers of the single-entry sections (R564, R565, R659), KEY and SFL. -/
def sectionWords (c : List Byte) : List (Nat × Nat) :=
  let a := entryOf c 7 0
  [(R.AUD_ALERT_CFG, field a 0 2 + field a 2 1 * 65536 + field a 3 1 * 524288 + field a 4 1 * 2097152 + field a 6 1 * 0x1000000),
    (R.AUD_ALERT_GAIN, field a 5 1 * 256), (R.PLB_CAP, field (entryOf c 5 0) 0 2), (R.PLB_TLIMIT, field (entryOf c 6 0) 4 1),
    (R.KEY_CTX_CFG 0, 0x20), (R.KEY_CTX_CFG 1, 0x20), (R.KEY_CTX_CFG 2, 0x20), (R.SFL_CFG, 0x200)]

/-- Plumb takes the POWER, THERMAL and SAFE_TABLE sections. -/
def plumbSections (c : List Byte) (b : Plumb) : Plumb :=
  let w := entryOf c 5 0
  let t := entryOf c 6 0
  { b with
    capW := field w 0 2, devPj := field w 2 2, enlPj := field w 4 2, weights := (List.range 12).map fun g => field w (6 + g) 1, lambda := field w 18 1
    planEn := bit (field w 19 1) 0, rth := field t 0 2, heat := field t 2 2, tCoolMax := field t 5 1
    rise := (List.range 12).map fun g => field t (8 + 2 * g) 2, safe := entries c 8 }

/-- The pages of the boot ROM's change set: every page it wrote. -/
def bootPages (l : List (Nat × Nat)) : List Nat :=
  ((List.range 64).filter fun pg => l.any fun e => e.1 / 0x1000 = pg)

/-- The doorbell view of a partition (05 PCI_PV_QUEUES): from its lowest declared queue to its highest, at most 1,024. -/
def showQueues (rs : List DeclRec) (s : State) (p : Nat) : State :=
  match (rs.filter fun r => r.kind = 3 && r.part = p).map (·.key) with
  | [] => s
  | q :: qs =>
    let lo := qs.foldl min q
    let n := min 1024 (qs.foldl max q + 1 - lo)
    updDpt s fun d => { d with views := updAt d.views p fun v => { v with first := lo, count := n } }

/-- Everything that step 9 writes before the models: images, bindings, sections, CTRL.ENABLE of every page that holds one, and the change set of epoch 1. -/
def applyManifest (s : State) (c : List Byte) (rs : List DeclRec) : State :=
  let fixed := (entries c 2).flatMap partWords ++ (List.range (entries c 1).length).flatMap (streamWords c rs) ++ sectionWords c
  let s := bootWords s fixed
  let s := (List.range 8).foldl (showQueues rs) (rs.foldl applyRecord s)
  let pgs := bootPages (fixed ++ rs.flatMap (recordWords s))
  let s := updPlb s (plumbSections c)
  let s := pages.foldl (fun s pg => wb s (hdr pg 0x10) 0 true) s
  let m := pgs.foldl (fun m pg => m ||| 2 ^ pg) 0
  let s := setReg (setReg s R.SEAM_MASK_LO (BitVec.ofNat 32 m)) R.SEAM_MASK_HI (BitVec.ofNat 32 (m / 2 ^ 32))
  seamCommit { s with seam := { since := s.clock } }

/-- The queues marked for start-up are enabled, after the commit (R226). -/
def enableQueues (s : State) (rs : List DeclRec) : State :=
  (rs.filter fun r => r.kind = 3 && bit (field r.bytes 6 1) 0).foldl (fun s r => enableQueue s .boot r.key (putBit (peekCtx s r.key) 63 true)) s

/-- BOOT_ENABLE (R122, R126 step 9). -/
def execBootEnable (s : State) : Host.Outcome State Fault Refusal :=
  if s.boot.held ∨ phase s ≠ 6 then .next s
  else
    let c := s.boot.man
    let rs := declRecs s c
    let k := loadLocal (enableQueues (applyManifest s c rs) rs) c rs
    let sentinel (r : Refused) : Bool := decide (wlbClass (localFile s (entryOf c 3 r.1)) = 0)
    match k.refused.find? sentinel with
    | some r =>
      let shown := k.refused.takeWhile (fun q => !sentinel q) ++ [r]
      .next (enterService (shown.foldl (showRefusal c) s) 8 (0x0D, 3, r.1))
    | none =>
      let s := k.refused.foldl (showRefusal c) k.s
      let s := updDpt s fun d => { d with refused := k.refused.foldl (fun l r => NSet.add l (mPart (entryOf c 3 r.1))) d.refused }
      .next (settleParts (bootEnds (openLedger s) 7))

/-- STREAM_ENABLE (R126 step 10, 09 Start-up): EN of every entry whose FLAGS.ENABLED is 1 is committed; the pages keep epoch 1, which the first frames
carry (22 Start-up). -/
def execStreamEnable (s : State) : Host.Outcome State Fault Refusal :=
  if s.boot.held ∨ phase s ≠ 7 ∨ nextEpoch s ≠ 2 then .next s
  else
    let c := s.boot.man
    let ks := ((List.range (entries c 1).length).filter fun i => sOn (entryOf c 1 i)).map (streamSource c)
    .next (ks.foldl (fun s k =>
      let r := if k < 128 then R.CSI_VC_CTRL (k / 16) (k % 16) else R.ETH_STR_CTRL ((k - 128) / 36) ((k - 128) % 36)
      if rb s r 0 then s else enableSource (setReg { s with staged := SMap.del s.staged r } r 1) k) s)

end Sys2Proof.Machine
end

