-- ==== Sys2Proof/Machine/Power.lean ====
section
/-!
DEFINITION. Machine/Power.lean: the policies and power states of islands, power-up, the fence of an island and what it brings about (03 R59 to R68, R92 to
R96; 12 R403; 18 R562; 24 R726).
-/
namespace Sys2Proof.Machine
open Sys2Proof

/-! Power states (R59 to R66). -/

/-- An island changes by `f`; a change set in progress whose member it holds aborts before the island becomes OFF (R690). -/
def changePower (s : State) (n : Nat) (f : Island → Island) : State :=
  if (island s n).st ≠ .off ∧ (f (island s n)).st = .off then changeIsland (seamLoses s n) n f else changeIsland s n f

/-- A power state is asked of an island; it follows the step in progress (R66). -/
def askState (s : State) (n : Nat) (t : IslState) : State :=
  if (island s n).st = .off ∨ (island s n).st = t then s
  else if (island s n).step.isSome then updIsl s n fun i => { i with nextState := some t }
  else changePower s n fun i => enterState i t

/-- The island may not enter RETAIN or OFF: a core that R63 keeps up, or Enlarger and Easel while a slot of sentinel class is enabled (11 R350). -/
def staysUp (s : State) (n : Nat) : Bool := coreHeld s n || ((n = 28 || n = 29) && sentinelOn s)

/-- An island may enter a power state. -/
def mayEnter (s : State) (n : Nat) (t : IslState) : Bool := t = .on || t = .gated || !staysUp s n

/-- A controller that the layout in effect uses: under AUTO it stays ON (06 R181). -/
def dmcInUse (s : State) (n : Nat) : Bool :=
  decide (32 ≤ n) && decide (n ≤ 35) && (layoutMasks s).any fun m => bit m (2 * (n - 32)) || bit m (2 * (n - 32) + 1)

/-- Mortar holds a packet for the island. -/
def mortarBusy (s : State) (n : Nat) : Bool := s.mortar.flight.any fun p => islandOfAddr s p.addr = some n

/-- The island has work in flight. -/
def islandBusy (s : State) (n : Nat) : Bool := (pagesIn n).any (working s) || mortarBusy s n

/-- The policy of an island was written (R59, AON_ISL_CTRL): OFF asks for OFF, HOLD_ON wakes the island, and a state change that waited is dropped. -/
def newPolicy (s : State) (n : Nat) : State :=
  match rf s (R.AON_ISL_CTRL n) 1 0 with
  | 2 => if staysUp s n then s else askState s n .off
  | 1 => wake (updIsl s n fun i => { i with nextState := none }) n
  | _ => updIsl s n fun i => { i with nextState := none }

/-- The island is idle as R562 asks of the group that it belongs to. -/
def islandIdle (s : State) (n : Nat) : Bool :=
  if 19 ≤ n ∧ n ≤ 26 then
    bankFree s (n - 19) false && bankFree s (n - 19) true && (coreOf s (n - 19)).cmds.isEmpty && (coreOf s (n - 19)).movers.all (·.isEmpty)
  else !islandBusy s n

/-- OP_POINT_STEP_DONE (R65): a regulator out of tolerance holds the step (R67); a GATED or RETAIN that waits is dropped where work has arrived (R60). -/
def execOpPointStepDone (isl : Nat) (s : State) : Host.Outcome State Fault Refusal :=
  .next (changePower s isl (stepDone s.clock fun t => mayEnter s isl t && (decide (t = .off) || islandIdle s isl)))

/-- ISLAND_GATE (R562): under AUTO an island idle for 2 µs is placed in GATED, or, idle for 10 ms and allowed to, in RETAIN. -/
def execIslandGate (isl : Nat) (retain : Bool) (s : State) : Host.Outcome State Fault Refusal :=
  if isl < 3 ∨ isl > 38 ∨ rf s (R.AON_ISL_CTRL isl) 1 0 ≠ 0 ∨ !islandRuns s isl ∨ !islandIdle s isl ∨ dmcInUse s isl then .next s
  else if !retain then .next (if (island s isl).st = .on then askState s isl .gated else s)
  else if rb s (R.AON_ISL_CTRL isl) 2 && !staysUp s isl then .next (askState s isl .retain)
  else .next s

/-- ISLAND_POWER_UP (R95): an island that is OFF and whose policy is not OFF begins to write zero to its stores. -/
def execIslandPowerUp (isl : Nat) (s : State) : Host.Outcome State Fault Refusal :=
  if s.boot.held ∨ isl < 3 ∨ isl > 38 ∨ rf s (R.AON_ISL_CTRL isl) 1 0 = 2 ∨ (island s isl).st ≠ .off ∨ (island s isl).fenced then .next s
  else .next (updIsl (loseEngines s isl) isl fun _ => { initing := true })

/-- ISLAND_INIT_DONE (R96): the island is ON, and island 28 or 29 goes on to the point that R350 holds. -/
def execIslandInitDone (isl : Nat) (s : State) : Host.Outcome State Fault Refusal :=
  if !(island s isl).initing then .next s
  else
    let s := updIsl s isl fun _ => { st := .on, point := startPoint isl }
    .next (if (isl = 28 ∨ isl = 29) ∧ sentinelOn s then requestPoint s isl (nth (grpPoints 9) (rf s (R.PLB_GRP_POINT 9) 2 0) ⟨0, 0⟩) else s)

/-! The fence of an island (R68, R726). -/

/-- The numbers of the queues whose context holds a byte other than zero. -/
def heldQueues (s : State) : List Nat :=
  (s.mem.filter fun e => decide (0x0FE00000 ≤ e.1) && decide (e.1 < 0x10000000)).map fun e => (e.1 - 0x0FE00000) / 32

/-- Two address ranges meet. -/
def rangesMeet (a n b m : Nat) : Bool := decide (0 < n) && decide (0 < m) && decide (a < b + m) && decide (b < a + n)

/-- The partitions whose Mortar share, whose pool, or a queue ring of which lies in a Mortar bank. -/
def bankParts (s : State) (b : Nat) : List Nat :=
  let a := 0x08000000 + b * 0x00800000
  let n := 0x00800000
  (List.range 8).filter fun p => rb s (R.DPT_PART_CFG p) 12
    && ((entries s.boot.man 2).zipIdx.any (fun e => decide (e.2 = p) && rangesMeet a n (pMbase e.1) (pMsize e.1))
        || (List.range 8).any (fun k => poolEn s k && rangesMeet a n (poolBase s k) (poolCount s k * poolSize k) && (poolParts s k).contains p)
        || (heldQueues s).any fun q => let c := peekCtx s q
            ctxEn c && decide (ctxPart c = p) && rangesMeet a n (ctxBase c) (64 * ctxCap c))

/-- A fenced core is withdrawn (R550, R726). -/
def withdrawFenced (s : State) (n : Nat) : State :=
  let p := rf s (R.ASH_MODE n) 2 0
  if rb s (R.DPT_PART_STATUS p) (8 + n) then s
  else raise (hwFault (wb s (R.DPT_PART_STATUS p) (8 + n) true) P.dpt 2 (n + p * 256)) P.dpt 10

/-- The sources that stall because an island serves them: those of sentinel class for a media island, every enabled one for a link island. -/
def stalledBy (s : State) (n : Nat) : List Nat :=
  let all := (List.range 200).filter fun k => (declOf s k).valid && (declOf s k).en && !(srcOf s k).stalled
  let sent := all.filter (sentinelSources s).contains
  if n = 27 then sent.filter fun k => decide ((declOf s k).format ≥ 0x10)
  else if n = 28 ∨ n = 29 then sent
  else if n = 36 then all.filter (decide <| · < 128)
  else if n = 37 then all.filter (decide <| 128 ≤ ·)
  else []

/-- The items of a bank that await a unit's answer receive a status. -/
def answerItems (b : Bank) (cause st : Nat) : Bank :=
  { b with items := b.items.map fun it => if it.cause = cause ∧ it.svc.isSome ∧ it.res.isNone then { it with res := some (st, [], false) } else it }

/-- The service calls that Keystone (unit 0) or Safelight (unit 1) holds are answered FENCED, and its commands are gone. -/
def fenceUnit (s : State) (unit : Nat) : State :=
  let answer (k : Core) : Core :=
    { k with normal := answerItems k.normal (6 + unit) MS.fenced, urgent := answerItems k.urgent (6 + unit) MS.fenced }
  let s := { s with cores := s.cores.map answer }
  if unit = 0 then { s with key := { s.key with cur := none, held := [] } } else { s with sfl := { s.sfl with cur := none, held := [] } }

/-- What R726 gives for the fenced island `n`. -/
def fenceOutcome (s : State) (n : Nat) : State :=
  if 3 ≤ n ∧ n ≤ 17 then updDpt s fun d => { d with bankLost := (bankParts s (n - 3)).foldl NSet.add d.bankLost }
  else if 19 ≤ n ∧ n ≤ 26 then withdrawFenced s (n - 19)
  else if n = 30 ∨ n = 31 then fenceUnit s (n - 30)
  else if 32 ≤ n ∧ n ≤ 35 then
    [2 * (n - 32), 2 * (n - 32) + 1].foldl (fun s u => if (subch s u).st = .fenced ∨ (subch s u).st = .absent then s else fenceSub (answerFenced s u) u) s
  else (stalledBy s n).foldl stallSource s

/-- The fence of an island (R68, R726): the output has not returned within 20 µs; the step in progress is abandoned. -/
def islandFence (isl : Nat) (s : State) : State :=
  if isl = 0 ∨ !(island s isl).excursion ∨ (island s isl).fenced then s
  else
    let s := updIsl (seamLoses s isl) isl fun i => { i with fenced := true, step := none, nextPoint := none, nextState := none }
    (settle (fenceOutcome s isl))

/-! Scrubbing (R92 to R94, R403). -/

/-- The island of an SRAM bank: the Mortar banks 0 to 15, then the 32 banks of each core (R85). -/
def bankIsland (bank : Nat) : Nat := if bank < 16 then bank + 3 else 19 + (bank - 16) / 32

/-- The granules of an SRAM bank: 8 MiB of a Mortar bank, 512 KiB of a core's bank. -/
def bankGranules (bank : Nat) : Nat := if bank < 16 then 131072 else 8192

/-- The address of granule `g` of an SRAM bank (R82, R85). -/
def bankGranule (bank g : Nat) : Nat :=
  if bank < 16 then 0x08000000 + bank * 0x00800000 + 64 * g
  else (bank - 16) / 32 * 0x01000000 + coreOffset ((bank - 16) % 32) (64 * g)

/-- SRAM_SCRUB_STEP (R92, R403): the next granule of an SRAM bank; `busy` where a write reaches the granule in the same cycle (R93). DESIGN CHOICE: a pass
takes the granules in ascending order; a scrubber works on in GATED, without waking the island, and not while the island is fenced or initialising. -/
def execSramScrubStep (bank : Nat) (busy : Bool) (s : State) : Host.Outcome State Fault Refusal :=
  let on := if bank < 16 then rb s R.MTR_SCRUB_CTRL 0 else rb s (R.ASH_SRAMCFG ((bank - 16) / 32)) 0
  let i := island s (bankIsland bank)
  if bank ≥ 272 ∨ !on ∨ i.st = .off ∨ i.st = .retain ∨ i.fenced ∨ i.initing then .next s
  else
    let g := nth s.scrubPos bank 0
    let s := if busy then s else checkRange s 1 (bankGranule bank g) 64
    let s := { s with scrubPos := updAt s.scrubPos bank fun _ => (g + 1) % bankGranules bank }
    .next (if bank < 16 then setReg s R.MTR_SCRUB_POS (BitVec.ofNat 32 (bank + 16 * g)) else s)

end Sys2Proof.Machine
end

