-- ==== Sys2Proof/Machine/SoftReset.lean ====
section
/-!
DEFINITION. Machine/SoftReset.lean: the soft reset of a page (02 R34, R789).
-/
namespace Sys2Proof.Machine
open Sys2Proof

/-- The registers of a page that R34 and R789 keep whole: LOCK, SEAM_EPOCH, the values that R789 names, and RO registers that report the state
of the block. -/
def softKept (s : State) (pg off : Nat) : Bool :=
  let among (l : List Nat) : Bool := l.contains off
  off = hdr pg 0x1C || off = hdr pg 0x18 || match pageOf pg with
    | some (.sys, _) => off = R.SYS_CAP_MEM
    | some (.aon, _) => among [R.AON_TB_RATE, R.AON_TB_SERVO]
    | some (.boot, _) => among [R.BOOT_PHASE, R.BOOT_REASON, R.BOOT_SLOTS, R.BOOT_IMAGE_VER, R.BOOT_MANIFEST_VER, R.BOOT_ELAPSED, R.BOOT_RESET_CAUSE]
        || among ((List.range 12).map R.BOOT_MANIFEST_HASH)
        || (s.boot.op.any (decide <| ·.1 = 2) && among ((List.range 64).map R.BOOT_FLASH_DATA))
    | some (.flt, _) => among [R.FLT_SAFE_STATUS, R.FLT_SAFE_SEEN, R.FLT_SENT_STATUS]
    | some (.seam, _) => among [R.SEAM_EPOCH_NOW, R.SEAM_LAST]
    | some (.csh, _) => off = R.CSH_EXT_SEQ
    | some (.plb, _) => among [R.PLB_STATUS, R.PLB_PERIOD, R.PLB_SENT, R.PLB_HOT, R.PLB_SENSOR_FAIL]
        || among ((List.range 24).map R.PLB_TEMP) || among ((List.range 12).map R.PLB_GRP_POINT)
    | some (.dpt, _) => off = R.DPT_WINDOW || among ((List.range 8).map R.DPT_PART_STATUS) || among ((List.range 8).map R.DPT_PART_CTRL)
    | some (.mtr, _) => off = R.MTR_SCRUB_POS
    | some (.aud, _) => among [R.AUD_MIC_STATUS, R.AUD_BLOCK, R.AUD_TDM_IN_STATUS]
    | some (.dmc, c) => among [R.DMC_SUB_TRAIN c 0, R.DMC_SUB_TRAIN c 1]
    | some (.csi, p) => off = R.CSI_PHY_STATUS p
    | some (.eth, m) => off = R.ETH_LINK_STATUS m
    | some (.esl, _) => among [R.ESL_AUDIO_BLOCK, R.ESL_AUDIO_POS] || among ((List.range 64).map R.ESL_GRP_SEQ)
    | some (.ash, n) => off = R.ASH_CLASS n
    | _ => false

/-- The fields that a soft reset keeps by their access code (R34). -/
def softAccess (a : Access) : Bool := a == .lk || a == .st || a == .roBoot || a == .roFyp

/-- A running job is aborted by the soft reset of its core's page (R535, R536, R789). -/
def resetJob (n : Nat) (urgent : Bool) (s : State) : State :=
  match jobAt s n urgent with
  | none => s
  | some j => sendAbort (updJobAt (missAborted s n j) n urgent fun j => { j with reported := true, disposed := true }) n urgent

/-- The frames in progress of a page's sources are dropped and their buffers freed (R289, R789). -/
def resetSources (s : State) (lo n : Nat) : State :=
  (span lo n).foldl (fun s k =>
    match (srcOf s k).frame with
    | some f =>
      let s := updSrc s k fun x => { x with frame := none }
      if f.got then freeOwn s (declOf s k).slot f.handle else s
    | none => s) s

/-- A frame in decode is dropped, its buffers freed, and its slot waits for a random access point without its references and the pictures that await output
(R789 keeps those of every other slot). -/
def resetDev (s : State) (e : Nat) : State :=
  match nth s.dev.eng e none with
  | none => s
  | some w =>
    let s := { s with dev := { s.dev with eng := updAt s.dev.eng e fun _ => none } }
    let s := freeOwn s w.slot (field w.record 0 4)
    let s := w.pics.foldl (fun s p =>
      let s := freePic s w.slot p.1
      match p.2 with | some q => freePic s w.slot q | none => s) s
    let k := devSlot s w.slot
    let s := (k.refs ++ k.wait).foldl (fun s p => freePic s w.slot p) s
    updDev s w.slot fun d => { d with st := if d.st = 3 then 3 else 0, refs := [], wait := [] }

/-- A frame in progress on an Enlarger engine is dropped: its lanes are reported failed, its buffers freed. -/
def resetEnl (s : State) (e : Nat) : State :=
  match nth s.enl.eng e none with
  | none => s
  | some f =>
    let s := match f.roi with | some r => lanesDone s r.batch r.lanes false 0 0 0 | none => s
    freeInput (setEng s e none) f.slot f.record

/-- Keystone's commands of cores and the PF end: those that wait complete with ABORTED, the running one ends at its segment's end. -/
def resetKey (s : State) : State :=
  let waiting := s.key.held.map (·.id)
  let s := match s.key.cur with | some c => updKey s fun k => { k with cur := some { c with stop := true } } | none => s
  waiting.foldl (fun s id => fromHeld id s) s

/-- The same of Safelight. -/
def resetSfl (s : State) : State :=
  let waiting := s.sfl.held.map (·.id)
  let s := match s.sfl.cur with | some c => updSfl s fun k => { k with cur := some { c with stop := true } } | none => s
  waiting.foldl (fun s id => sflWaiting id s) s

/-- Plumb's solve is abandoned (R575): the next boundary uses a safe row. DESIGN CHOICE: PLAN_LATE is captured, since no result comes before the limit. -/
def resetPlan (s : State) : State :=
  match s.plb.solving with
  | none => s
  | some id => raise (hwFault (updPlb (keyAbort s id) fun b => { b with solving := none, plan := none, degraded := true }) P.plb 1 (rd s R.PLB_PERIOD).toNat) P.plb 8

/-- What the soft reset does to the work in flight, before the fields take their reset values. -/
def softWork (s : State) (pg : Nat) : State :=
  match pageOf pg with
  | some (.flt, _) => { s with flt := { s.flt with injArg := 0, heat := none } }
  | some (.seam, _) => seamSoftReset s
  | some (.plb, _) => resetPlan s
  | some (.hod, _) =>
    let t := { s with hod := { s.hod with copies := s.hod.copies.map fun j => { j with status := 7, complete := true }, slots := [] } }
    if s.hod.slots.isEmpty then t else answer t HS.disabled [] []
  | some (.qry, _) => { s with qry := { s.qry with scan := none } }
  | some (.ash, n) => resetJob n true (resetJob n false s)
  | some (.dev, e) => resetDev s e
  | some (.enl, e) => resetEnl s e
  | some (.esl, _) =>
    let close (b : Batch) : Batch := { b with closed := true }
    { s with esl := { s.esl with batches := s.esl.batches.map close } }
  | some (.csi, p) => resetSources s (16 * p) 16
  | some (.eth, m) =>
    let s := resetSources s (128 + 36 * m) 36
    { s with ing := { s.ing with ptpRx := updAt s.ing.ptpRx m fun _ => [] } }
  | _ => s

/-- What happens once the fields have their reset values: the counts of CSH, the commands of KEY and SFL that end, a transmission that goes on, the
throttled sources that DMC shows. -/
def softAfter (old s : State) (pg : Nat) : State :=
  match pageOf pg with
  | some (.csh, _) => cshSoftReset s
  | some (.key, _) => resetKey s
  | some (.sfl, _) => resetSfl s
  | some (.eth, m) => wb s (R.ETH_PTP_TX_CTRL m) 30 (rb old (R.ETH_PTP_TX_CTRL m) 30)
  | some (.dmc, c) => [0, 1].foldl (fun s k => wf s (R.DMC_SUB_THROTTLE c k) 5 0 (rf old (R.DMC_SUB_THROTTLE c k) 5 0)) s
  | _ => s

/-- The soft reset of page `pg`: SRESET and SRESET_BUSY read 1 until it completes. -/
def softReset (s : State) (pg : Nat) : State :=
  let s := softWork (seamResets s pg) pg
  let t := resetRegs s pg softAccess (softKept s pg)
  wb (softAfter s t pg) (hdr pg 0x10) 1 true

/-- SOFT_RESET_DONE (R34): SRESET and SRESET_BUSY clear. -/
def execSoftResetDone (page : Nat) (s : State) : Host.Outcome State Fault Refusal :=
  .next (if (pageOf page).isSome then wb s (hdr page 0x10) 1 false else s)

end Sys2Proof.Machine
end

