-- ==== Sys2Proof/Machine/RegAccess.lean ====
section
/-!
DEFINITION. Machine/RegAccess.lean: reads and writes of page registers by any requester (02 R17 to R38, R787, R789), with what a write of each register brings
about.
-/
namespace Sys2Proof.Machine
open Sys2Proof

/-! Reads (R18, R22, R23). -/

/-- A 32-bit read at page-window offset `off`: the state after it, a Mortar status, the word. STATUS shows GATED where the island was gated when the
access arrived. -/
def regRead (s : State) (req : Req) (off : Nat) : State × Nat × Nat :=
  match pageRefusal s off with
  | some (0xF4, st) => (s, st, 0)
  | some (cause, st) => (fault s P.sys cause req 0 (some (regAddr off)), st, 0)
  | none =>
    let n := islandAt (off / 0x1000)
    let gated := decide ((island s n).st = .gated ∨ (island s n).st = .retain)
    let r := readReg (wake s n) off
    (r.1, MS.ok, if off % 0x1000 = 0x14 then putBit r.2 6 gated else r.2)

/-! Writes (R19, R24 to R26, R30, R33). -/

/-- The bits of a register that the requester's write sets as written: RW and LK fields, and boot or Fypajo fields for their writer; the SAFETY
entries of FLT_SEV are read-only (24 R719). -/
def plainMask (r : RegSpec) (req : Req) (off : Nat) : Nat :=
  let m := maskWhere r fun a => a == .rw || a == .lk || (a == .roBoot && req == .boot) || (a == .roFyp && req == .fyp)
  if r.name = "FLT_SEV" then
    let v := (resetWord off).toNat
    (List.range 16).foldl (fun m i => if bits v (2 * i + 1) (2 * i) = 3 then putBits m (2 * i + 1) (2 * i) 0 else m) m
  else m

/-- `v` with the bits of mask `m` taken from `w`. -/
def mix (v m w : Nat) : Nat := (v &&& (2 ^ 32 - 1 - m)) ||| (w &&& m)

/-- A write takes effect as its access codes give (R23, R24): the active copy, and the staged copy of ST fields. -/
def regStore (s : State) (req : Req) (r : RegSpec) (off w : Nat) : State :=
  let v := (rd s off).toNat
  let v := mix v (plainMask r req off) w
  let v := v &&& (2 ^ 32 - 1 - (w &&& maskWhere r (decide <| · = .w1c)))
  let v := if holdsW1s r then v ||| (w &&& maskWhere r (decide <| · = .w1s)) else v
  let st := maskWhere r (decide <| · = .st)
  let t := mix v st (mix (stagedOf s off).toNat st w)
  let s := setReg s off (BitVec.ofNat 32 v)
  if st = 0 then s else { s with staged := SMap.put s.staged off (BitVec.ofNat 32 t) (BitVec.ofNat 32 v) }

/-- The rules of single registers on the values that are not reserved (R30). -/
def wordLegal (s : State) (r : RegSpec) (off w : Nat) : Bool :=
  let x := regIndex r off
  let i := x.1
  match r.name with
  | "AON_ISL_CTRL" => decide (2 < i) || decide (bits w 1 0 = 1)
  | "AON_TB_RATE" => decide (-500000 ≤ sx 32 w) && decide (sx 32 w ≤ 500000)
  | "AON_TB_SLEW" => decide (-1000000 ≤ sx 32 w) && decide (sx 32 w ≤ 1000000)
  | "SEAM_MASK_LO" => !bit w 4 && !bit w 31
  | "SEAM_MASK_HI" => decide (w &&& 0xF0C0 = 0)
  | "CSH_TRIG" => !bit w 24 || (decide (1 ≤ bits w 20 16) && decide (bits w 20 16 ≤ 16))
  | "PLB_CAP" => decide (w ≤ s.plb.capW)
  | "PLB_TLIMIT" => decide (s.plb.tCoolMax < bits w 7 0)
  | "DPT_PART_CTRL" => decide (bits w 15 8 &&& (255 - rf s (R.DPT_PART_CFG i) 7 0) = 0)
  | "AUD_ALERT_GAIN" => decide (bits w 7 0 ≤ rf s R.AUD_ALERT_GAIN 15 8)
  | "AUD_SRC_CFG" => !bit w 6 || (List.range 16).all fun k => k = i || sf s (R.AUD_SRC_CFG k) 6 6 = 0
  | "KEY_CTX_CFG" => decide (i ≠ 3) || decide (bits w 2 0 = 0)
  | "DMC_SCHED" => decide (bits w 30 24 < bits w 22 16)
  | "ESL_AUDIO_CFG" => decide (bits w 23 16 ≤ bits w 15 8) && decide (bits w 15 8 < bits w 31 24)
  | _ => true

/-- The common causes for which a write of `w` is dropped, lowest first (R25, R26, R30). -/
def writeCauses (s : State) (req : Req) (r : RegSpec) (off w : Nat) : List Nat :=
  let pg := off / 0x1000
  let lk := maskWhere r (decide <| · = .lk) &&& plainMask r req off
  let st := maskWhere r (decide <| · = .st)
  (if wordOk r req w && wordLegal s r off w then [] else [0xF0])
    ++ (if rb s (hdr pg 0x1C) 0 && decide (((rd s off).toNat ^^^ w) &&& lk ≠ 0) then [0xF1] else [])
    ++ (if frozen s pg && decide (((stagedOf s off).toNat ^^^ w) &&& st ≠ 0) then [0xF2] else [])

/-- EVT_STATUS or EVT_ENABLE was written: a summary of 1 sends a fresh notification (R38). -/
def freshNotice (s : State) (pg : Nat) : State := if summary s pg then notify s pg else s

/-- A write of CTRL (R33, R34): ENABLE stays 1 where work is in flight and nothing has quiesced; SRESET resets the page. -/
def ctrlWrite (s : State) (req : Req) (r : RegSpec) (pg w : Nat) : State :=
  let off := hdr pg 0x10
  let stuck := rb s off 0 && !bit w 0 && working s pg
  let was := rb s off 0
  let s := regStore s req r off (if stuck then putBit (putBit w 0 true) 1 false else putBit w 1 false)
  let s := if stuck then fault s pg 0xF8 req w (some (regAddr off)) else s
  let s := match pageOf pg with
    | some (.csi, p) => if !was && rb s off 0 then setReg s (R.CSI_PHY_STATUS p) (resetWord (R.CSI_PHY_STATUS p)) else s
    | _ => s
  let s := settlePage s pg
  if bit w 1 then softReset s pg else s

/-- GO of BOOT_FLASH_CTRL (R102): dropped while an operation is in progress. -/
def flashWrite (s : State) (req : Req) (r : RegSpec) (w : Nat) : State :=
  let off := R.BOOT_FLASH_CTRL
  let op := bits w 2 0
  let a := rf s R.BOOT_FLASH_ADDR 25 0
  if !bit w 31 then regStore s req r off w
  else if s.boot.op.isSome then fault s P.boot 8 req op none
  else if (op = 2 ∧ a % 256 ≠ 0) ∨ (op ≥ 3 ∧ a % 65536 ≠ 0) then fault s P.boot 0xF0 req w (some (regAddr off))
  else flashStart (regStore s req r off w) req op

/-- A write of SEAM_CMD (R680, R681, R690, R692). -/
def seamWrite (s : State) (req : Req) (r : RegSpec) (w : Nat) : State :=
  let op := bits w 1 0
  if !bit w 31 then regStore s req r R.SEAM_CMD w
  else match seamRefusal s op with
    | some (cause, info) => fault s P.seam cause req info none
    | none => seamCommand (regStore s req r R.SEAM_CMD w) op

/-- A write of CSH_SW_CODE (23 R700). -/
def softwareWrite (s : State) (req : Req) (r : RegSpec) (w : Nat) : State :=
  let code := bits w 15 0
  if req ≠ .pf ∧ req ≠ .fyp ∧ req ≠ .boot then fault s P.csh 5 req (code + 0x1000000 * reqCode req) none
  else if !bit w 31 then regStore s req r R.CSH_SW_CODE w
  else if code < 0xD000 ∨ 0xDFFF < code then fault s P.csh 3 req code none
  else cshSoftware (regStore s req r R.CSH_SW_CODE w) req code

/-- A write of AON_ISL_CTRL[n] (03 R59): OFF is refused while the island has work in flight. -/
def policyWrite (s : State) (req : Req) (r : RegSpec) (n w : Nat) : State :=
  if bits w 1 0 = 2 ∧ (island s n).st ≠ .off ∧ islandBusy s n then fault s P.aon 5 req n none
  else newPolicy (regStore s req r (R.AON_ISL_CTRL n) w) n

/-- What an accepted write of the register brings about. -/
def regAct (s : State) (req : Req) (r : RegSpec) (off w : Nat) : State :=
  let pg := off / 0x1000
  let x := regIndex r off
  let t := regStore s req r off w
  match r.name with
  | "CTRL" => ctrlWrite s req r pg w
  | "EVT_STATUS" | "EVT_ENABLE" => freshNotice t pg
  | "EVT_FORCE" => (bitList w 32).foldl (fun s b => raiseWith s pg b true none) s
  | "AON_ISL_CTRL" => policyWrite s req r x.1 w
  | "AON_TB_RATE" => tbRate t
  | "AON_TB_SLEW" => tbSlew s w
  | "AON_TB_STEP_LO" => { s with tb := { s.tb with stepLo := w } }
  | "AON_TB_STEP_HI" => tbStep s req w
  | "AON_TB_SERVO" => if bit w 0 then tbLocked t else t
  | "BOOT_CONFIRM" => if !bit w 0 then s else if phase s ≠ 7 then fault s P.boot 9 req (phase s) none else bootConfirm s
  | "BOOT_RESET_REQ" =>
    if bits w 15 0 ≠ 0x5EED then fault s P.boot 6 req (bits w 15 0) none
    else if bit w 16 && (req == .pf || req == .fyp) then dieReset s 3 true else s
  | "BOOT_FLASH_CTRL" => flashWrite s req r w
  | "BOOT_OTP_CMD" =>
    if otpRefused s req w then fault s P.boot 7 req (bits w 3 0 + bits w 11 8 * 256) none
    else updBoot s fun b => { b with otpOp := some (bits w 3 0, bits w 11 8) }
  | "FLT_SAFE_STATUS" => safeClear s req false w
  | "FLT_SAFE_SEEN" => safeClear s req true w
  | "FLT_CTRL" => if bit w 0 then clearLast s else s
  | "FLT_INJ_CTRL" => inject s req w
  | "SEAM_MASK_LO" | "SEAM_MASK_HI" => if seamState s ≠ 0 then fault s P.seam 4 req 0 none else t
  | "SEAM_CMD" => seamWrite s req r w
  | "CSH_CTRL" => if bit w 0 then cshExtEnable s req else t
  | "CSH_EXT_BASE_LO" | "CSH_EXT_BASE_HI" | "CSH_EXT_SIZE" => if rb s R.CSH_CTRL 0 then fault s P.csh 2 req w none else t
  | "CSH_SW_CODE" => softwareWrite s req r w
  | "PLB_T_COOL" => updPlb t fun b => { b with coolAt := some s.clock }
  | "DPT_PART_CTRL" => settleParts t
  | "QRY_PF_CMD" => if bit w 31 then qryPf (if s.qry.scan.isSome then s else t) req (bits w 1 0) else t
  | "AUD_AMP_DIAG" => if req = .fyp then ampDiag s x.1 w else s
  | "AUD_AMP_CTRL" => if bit w 0 then ampClear s x.1 else s
  | "KEY_PF_CMD_HI" => if bit w 31 then keyPfSubmit t x.1 else t
  | "SFL_PF_CMD_HI" => if bit w 31 then sflPfSubmit t else t
  | "ETH_PTP_RX_POP" => if bit w 0 then ptpPop s (pg - 28) else s
  | "ETH_PTP_TX_CTRL" => if bit w 31 then ptpSend t (pg - 28) else t
  | "DEV_SLOT_CTRL" => if bit w 0 then devResync s x.1 else s
  | _ => t

/-- A 32-bit write of `w` at page-window offset `off`; `part` marks one that is narrow or unaligned (R19). The state after it and a Mortar status. -/
def regWrite (s : State) (req : Req) (off w : Nat) (part : Bool) : State × Nat :=
  let bad (s : State) (pg cause : Nat) : State := fault s pg cause req w (some (regAddr off))
  let pg := off / 0x1000
  match pageRefusal s off with
  | some (0xF4, st) => (if w = 0 then s else bad s P.sys 0xF4, st)
  | some (cause, st) => (bad s P.sys cause, st)
  | none =>
    let s := wake s (islandAt pg)
    if part then (bad s pg 0xF3, MS.ok)
    else match findReg off with
      | none => (if w = 0 then s else bad s pg 0xF4, MS.ok)
      | some r => match writeCauses s req r off w with
        | [] => (regAct s req r off w, MS.ok)
        | cs => (cs.foldl (fun s c => bad s pg c) s, MS.ok)

/-- The first word of an aligned write of another width that a page refuses or that meets no register (R31, R32, R787): its offset and value. -/
def refusedWord (s : State) (off n v : Nat) : Option (Nat × Nat) :=
  ((List.range ((n + 3) / 4)).map fun i => (off + 4 * i, v / 2 ^ (32 * i) % 2 ^ 32)).find? fun x =>
    match pageRefusal s x.1 with
    | some (cause, _) => decide (cause ≠ 0xF4) || decide (x.2 ≠ 0)
    | none => (findReg x.1).isNone && decide (x.2 ≠ 0)

/-- A write of `n` bytes of the number `v` at page-window offset `off` (R19): 4 bytes aligned, or 8 bytes aligned as two writes with the lower address
first; a narrower or unaligned one is PARTIAL_WRITE; any other takes no effect, and is answered as the first of its words that no register takes. -/
def pageWrite (s : State) (req : Req) (off n v : Nat) : State × Nat :=
  if off ≥ 0x40000 then (s, MS.unmapped)
  else if n = 4 ∧ off % 4 = 0 then regWrite s req off (v % 2 ^ 32) false
  else if n = 8 ∧ off % 8 = 0 then
    let r := regWrite s req off (v % 2 ^ 32) false
    let q := regWrite r.1 req (off + 4) (v / 2 ^ 32 % 2 ^ 32) false
    (q.1, if r.2 ≠ MS.ok then r.2 else q.2)
  else if n < 4 ∨ n = 8 ∨ off % 4 ≠ 0 then regWrite s req off (if v % 2 ^ 32 = 0 then v / 2 ^ 32 % 2 ^ 32 else v % 2 ^ 32) true
  else match refusedWord s off n v with
    | some (o, w) => regWrite s req o w false
    | none => (wake s (islandAt (off / 0x1000)), MS.ok)

/-- Successive 32-bit reads of the words from offset `off`. -/
def readWords (req : Req) : Nat → State → Nat → State × Nat × List Byte
  | 0, s, _ => (s, MS.ok, [])
  | n + 1, s, off =>
    let r := regRead s req off
    let q := readWords req n r.1 (off + 4)
    (q.1, if r.2.1 ≠ MS.ok then r.2.1 else q.2.1, leBytes 4 r.2.2 ++ q.2.2)

/-- A read of `n` bytes at page-window offset `off` (R18): every register that it covers is read, the lower address first. -/
def pageRead (s : State) (req : Req) (off n : Nat) : State × Nat × List Byte :=
  if n = 0 ∨ off + n > 0x40000 then (s, MS.unmapped, List.replicate n 0)
  else
    let r := readWords req ((off + n - 1) / 4 + 1 - off / 4) s (off / 4 * 4)
    (r.1, r.2.1, (r.2.2.drop (off % 4)).take n)

end Sys2Proof.Machine
end

