-- ==== Sys2Proof/Machine/TableWindow.lean ====
section
/-!
DEFINITION. Machine/TableWindow.lean: the table window (02 R48 to R52, R787), the tables of the dispatcher and Stop Bath (17), and the reads and writes that
requests on Mortar make of the page window and the table window.
-/
namespace Sys2Proof.Machine
open Sys2Proof

/-! The tables (R48, 17 Tables). -/

/-- The jobs of a model's history whose saturation count lies above SAT_LIMIT (15 R485). -/
def overBudget (m : Model) : Nat := m.history.countP (m.satLimit < ·)

/-- The 64 bytes of an entry of the model table. -/
def modelBytes (m : Model) : List Byte :=
  leBytes 1 m.st ++ leBytes 1 m.cls ++ leBytes 1 m.part ++ leBytes 1 m.cores ++ leBytes 2 m.inQ ++ leBytes 2 m.outQ ++ leBytes 4 m.entry
    ++ leBytes 4 m.region ++ leBytes 8 m.mortar ++ leBytes 8 m.dram ++ leBytes 4 m.deadline ++ leBytes 1 m.action ++ leBytes 1 m.variant
    ++ leBytes 2 m.fallback ++ leBytes 4 m.satLimit ++ leBytes 1 m.driftJobs ++ leBytes 1 m.flags ++ [0, 0] ++ leBytes 4 m.ended
    ++ leBytes 4 m.misses ++ leBytes 1 (overBudget m) ++ leBytes 1 m.lastCode ++ List.replicate 6 0

/-- `m` with the fields that software writes taken from the 64 bytes of an entry. -/
def modelFrom (m : Model) (b : List Byte) : Model :=
  { m with st := field b 0 1, cls := field b 1 1, part := field b 2 1, cores := field b 3 1, inQ := field b 4 2, outQ := field b 6 2,
           entry := field b 8 4, region := field b 12 4, mortar := field b 16 8, dram := field b 24 8, deadline := field b 32 4,
           action := field b 36 1, variant := field b 37 1, fallback := field b 38 2, satLimit := field b 40 4, driftJobs := field b 44 1,
           flags := field b 45 1 }

/-- A value of a model table entry is one that its field has. -/
def modelLegal (old : Model) (b : List Byte) : Bool :=
  (decide (field b 0 1 ≤ 1) || decide (field b 0 1 = old.st)) && decide (field b 1 1 ≤ 3) && decide (field b 2 1 ≤ 7) && decide (field b 36 1 ≤ 2)
    && decide (field b 45 1 ≤ 1) && decide (field b 46 2 = 0) && decide (field b 58 6 = 0)

/-- An entry of the running-job table: entry 2 × core + bank. -/
def runningBytes (s : State) (e : Nat) : List Byte :=
  match jobAt s (e / 2) (decide (e % 2 = 1)) with
  | none => List.replicate 32 0
  | some j => leBytes 1 1 ++ leBytes 1 j.cls ++ leBytes 2 j.model ++ List.replicate 4 0 ++ leBytes 8 j.deadline ++ leBytes 8 j.selected ++ leBytes 8 j.addr

/-- An entry of the deadline table: the armed deadline with ARMED, REPORTED and RUNNING; a job that was reported and still runs shows where none is
armed. -/
def deadlineBytes (s : State) (m : Nat) : List Byte :=
  match armed s m with
  | some o => padTo 16 (leBytes 8 o.job.deadline ++ leBytes 1 (1 + 4 * match o with | .running _ _ _ => 1 | _ => 0))
  | none =>
    match (runningJobs s m).find? fun e => e.2.2.reported with
    | some e => padTo 16 (leBytes 8 e.2.2.deadline ++ leBytes 1 6)
    | none => List.replicate 16 0

/-- The bytes of the entry that starts at byte `o` of a table. -/
def entryBytes (s : State) (t o : Nat) : List Byte :=
  if t = 1 then leBytes 32 (peekCtx s (o / 32))
  else if t = 2 then leBytes 4 (bitmapWord s o)
  else if t = 3 then (if o < 0x4000 then modelBytes (modelOf s (o / 64)) else runningBytes s ((o - 0x4000) / 32))
  else if t = 4 then deadlineBytes s (o / 16)
  else cshEntry s (o / 32)

/-- The loader's work of writing a model (R506): an entry that becomes LOADED holds energies that the table does not carry, and starts its history. -/
def startModel (s : State) (i : Nat) : State :=
  let e := (List.range 5).foldl (fun (a : State × List Nat) _ => let r := fresh a.1 32; (r.1, a.2 ++ [r.2])) (s, [])
  updModel e.1 i fun m => { m with energy := e.2, history := [], drifted := false, headReported := false }

/-- A model that took poisoned bytes is marked; written whole and clean, it is clean (R89, R91). -/
def markModel (s : State) (i : Nat) (bs : List Byte) (poison : Bool) : State :=
  if poison then updModel s i fun m => { m with bad := true }
  else if bs.length = 64 then updModel s i fun m => { m with bad := false } else s

/-- A write of the model table (17): only while STATE is EMPTY or the partition is QUIESCED; hardware fields stay. -/
def modelWrite (s : State) (req : Req) (i o : Nat) (bs : List Byte) (poison : Bool) : State :=
  let m := modelOf s i
  let b := putBytes (modelBytes m) o bs
  if o ≥ 48 ∧ o + bs.length ≤ 58 then s
  else if !modelLegal m b then fault s P.dpt 0xF0 req (ofLe (bs.take 4)) none
  else if m.st ≠ 0 ∧ !isQuiet s m.part then fault s P.dpt 4 req i none
  else
    let t := markModel (updModel s i fun m => modelFrom m b) i bs poison
    if m.st = 0 ∧ field b 0 1 = 1 then startModel t i else t

/-! Accesses (R48 to R52). -/

/-- An entry of a table carries poison: a context that was written poisoned or found uncorrectable, a model written poisoned, a granule of the ring. -/
def tableEntryBad (s : State) (t o : Nat) : Bool :=
  (decide (t = 1) && poisoned s (ctxAddr (o / 32) / 64)) || (decide (t = 3 ∧ o < 0x4000) && (modelOf s (o / 64)).bad)
    || (decide (t = 5) && s.csh.bad.contains (o / 64))

/-- A write of a context: what it stores with poisoned bytes is marked with its granule; a refused one stores nothing. -/
def ctxStore (s : State) (req : Req) (q o : Nat) (bs : List Byte) (poison : Bool) : State :=
  let t := ctxWrite s req q o bs
  if poison && decide (peekCtx t q ≠ peekCtx s q) then markGranule t (ctxAddr q / 64) else t

/-- A read of `n` bytes through the table window; `ue` where the entry of the ring holds an uncorrectable word (23 R706); an uncorrectable bitmap word of Quarry fences its pool and answers POISON (08 R280). A slot with TABLE 0 reads
zero; the limits of R50 on size hold there too. -/
def tableRead (s : State) (req : Req) (off n : Nat) (ue : Bool) : State × Nat × List Byte :=
  let k := slotOf s off
  let zero := List.replicate n (0 : Byte)
  let range := if k.2.1 = 0 then decide (4 ≤ n) && decide (n ≤ 64) else inTable k.2.1 k.2.2 n
  if off ≥ 0x1000000 then (s, MS.unmapped, zero)
  else if !range then (fault s P.sys 0xF6 req 0 (some (0x41000000 + off)), MS.ok, zero)
  else if k.2.1 = 0 then (s, MS.ok, zero)
  else match tableRefusal s k.2.1 with
    | some (cause, st) => (fault s P.sys cause req 0 (some (0x41000000 + off)), st, zero)
    | none =>
      let z := entrySize k.2.1 k.2.2
      let o := k.2.2 - k.2.2 % z
      let s := if k.2.1 = 1 then (readCtx s (o / 32)).1 else s
      let s := if ue ∧ k.2.1 = 5 then updCsh s fun c => { c with bad := NSet.add c.bad (o / 64) } else s
      let m := if k.2.1 = 2 then inspectWord s (o / 8192) (o % 8192 / 4) true else (s, false)
      let s := m.1
      (s, if m.2 || tableEntryBad s k.2.1 o then MS.poison else MS.ok, ((entryBytes s k.2.1 o).drop (k.2.2 % z)).take n)

/-- A write through the table window: range and permission are checked together, the lower cause captured first (R45). DESIGN CHOICE: a write that fails
either is not checked against the fence of the owning page (R787 gives no order). Bytes that carry poison are stored, and the entry is marked; a write that
the table refuses leaves the marks as they are (R89, R91). -/
def tableWrite (s : State) (req : Req) (off : Nat) (bs : List Byte) (poison : Bool) : State × Nat :=
  let k := slotOf s off
  let t := k.2.1
  let bad (s : State) (cause : Nat) : State := fault s P.sys cause req (ofLe (bs.take 4)) (some (0x41000000 + off))
  let range := inTable t k.2.2 bs.length
  let perm := tableWritable s req k
  if off ≥ 0x1000000 then (s, MS.unmapped)
  else if !range || !perm then
    let s := if range then s else bad s 0xF6
    (if perm then s else bad s 0xF7, MS.ok)
  else match tableRefusal s t with
    | some (cause, st) => (bad s cause, st)
    | none => (if t = 1 then ctxStore s req (k.2.2 / 32) (k.2.2 % 32) bs poison else modelWrite s req (k.2.2 / 64) (k.2.2 % 64) bs poison, MS.ok)

/-! Requests on Mortar to the two windows (R82, R790). -/

/-- A read of `n` bytes at address `a` of the page window or the table window: a Mortar status and the bytes. -/
def busLoad (s : State) (req : Req) (a n : Nat) : State × Nat × List Byte :=
  if a < 0x41000000 then pageRead s req (a - 0x40000000) n else tableRead s req (a - 0x41000000) n false

/-- A write at address `a` of the page window or the table window: a Mortar status. DESIGN CHOICE: a register takes no poisoned bytes, since it has no
mark for them (R90). -/
def busStore (s : State) (req : Req) (a : Nat) (bs : List Byte) (poison : Bool) : State × Nat :=
  if a < 0x41000000 then (if poison then (s, windowStatus s req a bs.length) else pageWrite s req (a - 0x40000000) bs.length (ofLe bs))
  else tableWrite s req (a - 0x41000000) bs poison

/-- The address lies in the page window or the table window. -/
def inWindows (a : Nat) : Bool := decide (0x40000000 ≤ a) && decide (a < 0x42000000)

/-- A read of `n` bytes at `a` that its place performs at once, the two windows included. -/
def placeLoad (s : State) (v : Via) (a n : Nat) : State × Got :=
  if inWindows a then
    let r := busLoad s v.req a n
    (r.1, { st := r.2.1, data := r.2.2, bad := if r.2.1 = MS.poison then [(0, n)] else [] })
  else placeRead s v a n

/-- A write at `a` that its place performs at once. -/
def placeStore (s : State) (v : Via) (a : Nat) (bs : List Byte) (bad : List (Nat × Nat)) (relaxed : Bool) : State × Nat :=
  if inWindows a then busStore s v.req a bs (!bad.isEmpty) else placeWrite s v a bs bad relaxed

/-! A command whose engines present requests. DESIGN CHOICE: it has no occasion, and changes nothing but the tag of a read whose completion never comes, while one of its requests has to wait; what it reads
of the page window and the table window it reads before its other effects, and what it writes there it writes after them. -/

/-- Runs `f` with the host's completions, and again with the answers of the windows that it asks for. -/
def serveLoads (f : State → Host.Outcome State Fault Refusal) (host : List Cpl) (s0 : State) : Nat → State → List (Nat × List Byte) →
    Host.Outcome State Fault Refusal
  | 0, _, _ => .next s0
  | n + 1, s, got =>
    match f (updIo s fun _ => { host := host, loads := got }) with
    | .next t =>
      if t.mortar.io.blocked then .next (holdStuck s0 t.mortar.io.stuck)
      else match t.mortar.io.want with
        | none => .next t
        | some (req, a, k) =>
          let r := busLoad s req a k
          serveLoads f host s0 n r.1 (got ++ [(r.2.1, r.2.2)])
    | o => o

/-- One of the writes that a command made to the windows. -/
def storePosted (s : State) (p : Req × Nat × List Byte × Bool) : State :=
  match serveLoads (fun s => .next (after (busStore s p.1 p.2.1 p.2.2.1 p.2.2.2))) [] s 64 s [] with
  | .next t => t
  | _ => s

/-- `f` with the requests of its engines served. -/
def served (host : List Cpl) (f : State → Host.Outcome State Fault Refusal) (s : State) : Host.Outcome State Fault Refusal :=
  match serveLoads f host s 65536 s [] with
  | .next t => .next (updIo (t.mortar.io.posted.foldl storePosted t) fun _ => s.mortar.io)
  | o => o

/-- `f`, which only ever goes on, with the requests of its engines served. -/
def serves (host : List Cpl) (f : State → State) (s : State) : Host.Outcome State Fault Refusal := served host (fun s => .next (f s)) s

/-- `f`, which asks nothing of anything in most states; where it presents a request, it is served. -/
def servesIf (f : State → State) (s : State) : Host.Outcome State Fault Refusal :=
  let t := f s
  if t.mortar.io = s.mortar.io then .next t else serves [] f s

/-- TABLE_WINDOW_READ (R48). -/
def execTableWindowRead (req : Req) (off len : Nat) (ue : Bool) (s : State) : Host.Outcome State Fault Refusal :=
  if s.boot.held then .next s
  else
    let r := tableRead s req off len ue
    .next { r.1 with readData := r.2.2, readSt := r.2.1 }

/-- TABLE_WINDOW_WRITE (R48). -/
def execTableWindowWrite (req : Req) (off : Nat) (data : List Byte) (s : State) : Host.Outcome State Fault Refusal :=
  .next (if s.boot.held then s else after (tableWrite s req off data false))

end Sys2Proof.Machine
end

