-- ==== Sys2Proof/Machine/Mover.lean ====
section
/-!
DEFINITION. Machine/Mover.lean: the movers of a core: Grain blocks, pieces, the checks at issue, the effect of a piece (13 R434 to
R442, 12 R383, 15 R488 to R493).
-/
namespace Sys2Proof.Machine
open Sys2Proof

/-! Grain blocks. -/

/-- A block of 32 bytes decoded into 64 INT8 values (R489), and whether it is malformed (R490). -/
def grainDecode (bs : List Byte) : List Byte × Bool :=
  let v := ofLe bs
  let base := sx 8 (bits v 7 0)
  let sh := bits v 11 8
  let h : Int := if sh = 0 then 0 else (2 ^ (sh - 1) : Nat)
  let r := (List.range 64).map fun i => satI 8 (base + (bits v (66 + 3 * i) (64 + 3 * i) * 2 ^ sh : Nat) + h)
  let r := (List.range (bits v 13 12)).foldl (fun r k =>
    let lo := 14 + 14 * k
    r.set (bits v (lo + 5) lo) (sx 8 (bits v (lo + 13) (lo + 6)))) r
  (r.map fun x => BitVec.ofNat 8 (unsx 8 x), decide (sh > 5) || decide (bits v 63 56 ≠ 0))

/-- A list of positions with values in the order of R491: ascending by (value, position). -/
def grainOrder (xs : List Int) : List (Int × Nat) :=
  xs.zipIdx.foldl insert []
where
  insert (l : List (Int × Nat)) (e : Int × Nat) : List (Int × Nat) :=
    l.takeWhile (fun d => decide (d.1 < e.1) || (decide (d.1 = e.1) && decide (d.2 < e.2))) ++ e ::
      l.dropWhile (fun d => decide (d.1 < e.1) || (decide (d.1 = e.1) && decide (d.2 < e.2)))

/-- The step exponent that fits the values left when `a` and `b` positions are set aside (R491). -/
def grainStep (o : List (Int × Nat)) (a b : Nat) : Nat :=
  let lo := (nth o a (0, 0)).1
  let hi := (nth o (63 - b) (0, 0)).1
  ((List.range 6).find? fun s => decide (hi - lo ≤ ((8 * 2 ^ s : Nat) : Int) - 1)).getD 5

/-- The pairs (a, b) of R491 in the order of a + b, then a. -/
def grainPairs : List (Nat × Nat) :=
  [(0, 0), (0, 1), (1, 0), (0, 2), (1, 1), (2, 0), (0, 3), (1, 2), (2, 1), (3, 0)]

/-- 64 INT8 values encoded into one block (R491). -/
def grainEncode (bs : List Byte) : List Byte :=
  let xs := bs.map fun b => sx 8 b.toNat
  let o := grainOrder xs
  let best := grainPairs.foldl (fun m p => if grainStep o p.1 p.2 < grainStep o m.1 m.2 then p else m) (0, 0)
  let sh := grainStep o best.1 best.2
  let base := (nth o best.1 (0, 0)).1
  let aside := ((o.take best.1) ++ o.drop (64 - best.2)).map (·.2)
  let outs := (List.range 64).filter aside.contains
  let code (i : Nat) : Nat := if aside.contains i then 0 else ((nth xs i 0 - base) / ((2 ^ sh : Nat) : Int)).toNat
  let body := (List.range 64).foldl (fun v i => v + code i * 2 ^ (64 + 3 * i)) 0
  let head := outs.zipIdx.foldl (fun v e => v + (e.1 + unsx 8 (nth xs e.1 0) * 64) * 2 ^ (14 + 14 * e.2)) 0
  leBytes 32 (unsx 8 base + sh * 256 + (best.1 + best.2) * 4096 + head + body)

/-! Buffers. -/

/-- Bytes put into a buffer's map from key `i` on. -/
def putRun : SMap Byte → Nat → List Byte → SMap Byte
  | m, _, [] => m
  | m, i, b :: bs => putRun (SMap.put m i b 0) (i + 1) bs

/-- The poison marks of a buffer after `n` bytes were written from key `i` on with the given poisoned ranges: granules covered whole
become clean first (R89, R91). -/
def putMarks (g : NSet) (i n : Nat) (bad : List (Nat × Nat)) : NSet :=
  let g := g.filter fun x => !(decide (i ≤ 64 * x) && decide (64 * x + 64 ≤ i + n))
  bad.foldl (fun g r => (span ((i + r.1) / 64) ((i + r.1 + r.2 - 1) / 64 + 1 - (i + r.1) / 64)).foldl NSet.add g) g

/-- A write to a buffer: `kind` 1 weight buffer, 2 activation buffer of array `arr`, 3 all four. -/
def putBuffer (k : Core) (kind half arr o : Nat) (bs : List Byte) (bad : List (Nat × Nat)) : Core :=
  if kind = 1 then
    let i := half * 65536 + o
    { k with wbuf := putRun k.wbuf i bs, wbad := putMarks k.wbad i bs.length bad }
  else
    (if kind = 3 then List.range 4 else [arr]).foldl (fun k a =>
      let i := (a * 2 + half) * 32768 + o
      { k with abuf := putRun k.abuf i bs, abad := putMarks k.abad i bs.length bad }) k

/-- A write to a buffer of core `n` takes place: partly covered words are checked (R791), the bytes are stored, an armed injection flips bits of the first
word (R730). -/
def writeBuffer (s : State) (n kind half arr o : Nat) (bs : List Byte) (bad : List (Nat × Nat)) : State :=
  if bs.isEmpty then s
  else
    let ps := bufferPlaces kind half arr o
    let s := ps.foldl (fun s p => overwrite s n p.1 p.2 bs.length) s
    let s := updCore s n fun k => putBuffer k kind half arr o bs bad
    let p := ps.headD (0, 0)
    flipStore s n p.1 p.2

/-! The instruction of an M slot. -/

/-- Pieces of at most `piece` bytes, each within one 512-byte block of every address of `addrs` (R436): offset and bytes. -/
def cutPieces (piece : Nat) (addrs : List Nat) : Nat → Nat → Nat → List (Nat × Nat)
  | 0, _, _ => []
  | fuel + 1, o, n =>
    if n = 0 then []
    else
      let k := addrs.foldl (fun k a => min k (512 - (a + o) % 512)) (min piece n)
      (o, k) :: cutPieces piece addrs fuel (o + k) (n - k)

/-- Pieces of a compressed range of `n` bytes at `a`, each with the twice as many bytes at `v` that it stands for: both sides of a piece hold at most `piece`
bytes and lie within one 512-byte block (R436, R442), in whole Grain blocks of 32 bytes. DEDUCED: where an address of the uncompressed side is no multiple of
64, a block that crosses a boundary there is a piece of its own. -/
def grainPieces (piece a : Nat) (v : Option Nat) : Nat → Nat → Nat → List (Nat × Nat)
  | 0, _, _ => []
  | fuel + 1, o, n =>
    if n = 0 then []
    else
      let k := min (min (piece / 2) n) (512 - (a + o) % 512)
      let k := match v with | some v => min k ((512 - (v + 2 * o) % 512) / 2) | none => k
      let k := max 32 (k / 32 * 32)
      (o, k) :: grainPieces piece a v fuel (o + k) (n - k)

/-- The fields of a gather (R441). -/
structure Gather where
  kh : Nat
  kw : Nat
  sy : Nat
  sx : Nat
  dy : Nat
  dx : Nat
  pt : Nat
  pl : Nat
  padv : Nat
  e : Nat
  ox0 : Nat
  oy0 : Nat
  npos : Nat
  pitch : Nat
  wi : Nat
  h : Nat
  c : Nat
  ow : Nat
deriving DecidableEq, Repr

/-- The fields as the slot bits [55:0], xRB and xRC give them. -/
def gatherOf (f rb rc : Nat) : Gather :=
  { kh := bits f 55 52 + 1, kw := bits f 51 48 + 1, sy := bits f 47 45 + 1, sx := bits f 44 42 + 1, dy := bits f 41 39 + 1,
    dx := bits f 38 36 + 1, pt := bits f 35 32, pl := bits f 31 28, padv := bits f 27 12, e := bits f 11 11 + 1,
    ox0 := bits rb 15 0, oy0 := bits rb 31 16, npos := bits rb 47 32, pitch := 64 * bits rb 63 48,
    wi := bits rc 15 0, h := bits rc 31 16, c := bits rc 47 32, ow := bits rc 63 48 }

/-- RP: the bytes of a row, rounded up to 64. -/
def Gather.rowPitch (g : Gather) : Nat := alignUp (g.kh * g.kw * g.c * g.e) 64

/-- The input row and column of position `j`, kernel place (ky, kx), where they lie in the tensor. -/
def Gather.source (g : Gather) (j ky kx : Nat) : Option (Nat × Nat) :=
  let t := g.oy0 * g.ow + g.ox0 + j
  let iy := t / g.ow * g.sy + ky * g.dy
  let ix := t % g.ow * g.sx + kx * g.dx
  if g.pt ≤ iy ∧ iy - g.pt < g.h ∧ g.pl ≤ ix ∧ ix - g.pl < g.wi then some (iy - g.pt, ix - g.pl) else none

/-- Every input row and column that the gather reads. -/
def Gather.reads (g : Gather) : List (Nat × Nat) :=
  (List.range g.npos).flatMap fun j => (List.range g.kh).flatMap fun ky => (List.range g.kw).filterMap fun kx => g.source j ky kx

/-- Bytes [first, end) of each input row that is needed, from the lowest to the highest needed column, rows ascending. -/
def Gather.rows (g : Gather) : List (Nat × Nat) :=
  let need := g.reads.foldl (fun (m : SMap (Nat × Nat)) p =>
    match m.get p.1 with
    | none => m.set p.1 (p.2, p.2)
    | some r => m.set p.1 (min r.1 p.2, max r.2 p.2)) []
  need.map fun e => (e.1 * g.pitch + e.2.1 * g.c * g.e, e.1 * g.pitch + (e.2.2 + 1) * g.c * g.e)

/-- The fields of a gather satisfy R441: no reserved zero count, the rows fit the half, the pitch holds a row. -/
def Gather.ok (g : Gather) (boff half : Nat) : Bool :=
  decide (1 ≤ g.npos) && decide (1 ≤ g.c) && decide (1 ≤ g.ow) && decide (boff + g.npos * g.rowPitch ≤ half)
    && decide (g.pitch ≥ g.wi * g.c * g.e)

/-- The instruction that an M slot issues, with its pieces; `k` is the bank as it stood before the bundle. -/
def moverOp (w : Nat) (k : Bank) (urgent : Bool) (seq : Nat) : MoverOp :=
  let o := mOp w
  let a := xr k (mRa w)
  let b := xr k (mRb w)
  let addr := decide (mDst w = 0)
  let len := if o = 4 then 0 else mLen w
  let n := if mGrain w then len / 2 else len
  let fuel := 2 * n / 64 + 600
  let ps :=
    if o = 4 then
      (gatherOf (bits w 55 0) b (xr k (mRc w))).rows.flatMap fun r =>
        (cutPieces (mPiece w) [a + r.1] ((r.2 - r.1) / 64 + 600) 0 (r.2 - r.1)).map fun p => (p.1 + r.1, p.2)
    else if mGrain w then grainPieces (mPiece w) (if o = 1 then a else b) (if o = 1 then (if addr then some b else none) else some a) fuel 0 n
    else if o = 5 then cutPieces (mPiece w) (if addr then [b] else []) fuel 0 n
    else cutPieces (mPiece w) (if addr then [a, b] else [a]) fuel 0 n
  { urgent := urgent, op := o, src := a, dst := b, dstKind := mDst w, half := mHalf w, arr := mArr w, boff := mBoff w,
    pattern := xr k (mRc w), len := len, grain := mGrain w, bulk := mBulk w, pieces := ps, fields := bits w 55 0,
    rb := b, rc := xr k (mRc w), seq := seq }

/-- The gather of an instruction. -/
def MoverOp.gather (m : MoverOp) : Gather := gatherOf m.fields m.rb m.rc

/-- Source range of an instruction: address, bytes; none for FILL. That of a GATHER with H zero is empty (R441). -/
def MoverOp.source (m : MoverOp) : Option (Nat × Nat) :=
  match m.op with
  | 5 => none
  | 4 => let g := m.gather; some (m.src, g.h * g.pitch + g.wi * g.c * g.e - g.pitch)
  | 1 => some (m.src, if m.grain then m.len / 2 else m.len)
  | _ => some (m.src, m.len)

/-- Destination range of an instruction; none for a buffer. -/
def MoverOp.dest (m : MoverOp) : Option (Nat × Nat) :=
  if m.dstKind ≠ 0 then none else some (m.dst, if m.op = 2 ∧ m.grain then m.len / 2 else m.len)

/-- Every 512-byte block of a range is mapped (R82, R180). -/
def allMapped (s : State) (a n : Nat) : Bool :=
  decide (a + n ≤ 2 ^ 48) && (piecesOf a n).all fun p => match placeOf p.1 with
    | .unmapped => false
    | .dram => (dramTarget s p.1).isSome
    | _ => true

/-- A range touches DRAM. -/
def touchesDram (a n : Nat) : Bool := decide (a < 0x1800000000) && decide (0x1000000000 < a + n)

/-- The exception that an instruction takes at issue (R434, R435, R436, R441, R442), in the order ILLEGAL, WINDOW, UNMAPPED, ALIGN,
DRAM_URGENT; `slot` 5 or 6. -/
def moverExc (s : State) (n : Nat) (m : MoverOp) (piece slot : Nat) : Option Exc :=
  let ranges := m.source.toList ++ m.dest.toList
  let illegal := (m.op = 3 && decide (m.src < m.dst + m.len) && decide (m.dst < m.src + m.len))
    || (m.op = 4 && !m.gather.ok m.boff 0x8000)
  let readBad := match m.source with | some r => !coreWindow s n .read r.1 r.2 | none => false
  let writeBad := match m.dest with | some r => !coreWindow s n .write r.1 r.2 | none => false
  let own (r : Option (Nat × Nat)) : Bool := match r with | some r => inOwn n r.1 r.2 | none => true
  let unmapped := !(ranges.all fun r => allMapped s r.1 r.2)
    || (m.op = 1 && !own m.dest) || (m.op = 2 && !own m.source)
  let align := (m.grain && decide ((if m.op = 1 then m.src else m.dst) % 32 ≠ 0))
    || (m.urgent && decide (piece > 64) && ranges.any fun r => !inOwn n r.1 r.2)
  let exc (c : Nat) (a : Nat) : Option Exc := some { cause := c, slot := slot, addr := some a }
  if illegal then some { cause := EX.illegal, slot := slot }
  else if readBad then exc EX.window m.src
  else if writeBad then exc EX.window m.dst
  else if unmapped then
    exc EX.unmapped (if m.source.all (fun r => allMapped s r.1 r.2) && (m.op ≠ 2 || own m.source) then m.dst else m.src)
  else if align then exc EX.align (if m.op = 1 ∨ m.op = 4 then m.src else m.dst)
  else if m.urgent && ranges.any (fun r => touchesDram r.1 r.2) then
    exc EX.dramUrgent (if m.source.any (fun r => touchesDram r.1 r.2) then m.src else m.dst)
  else none

/-! The effect of a piece. -/

/-- How a mover's pieces travel (R75, R188, R436): under the bank that issued them, with its job's class; those of the normal bank on the bulk channel where
BULK is 1. -/
def moverVia (s : State) (n : Nat) (m : MoverOp) : Via :=
  let v := bankVia s n m.urgent
  { v with chan := if m.urgent then .urgent else if m.bulk then .bulk else .normal }

/-- A read by a core: of its own SRAM, or through Mortar of any mapped range. -/
def coreRead (s : State) (n : Nat) (v : Via) (a len : Nat) : State × Got :=
  if inOwn n a len then localRead s a len else carryRead s v a len fun s => placeLoad s v a len

/-- A write by a core: to its own SRAM, or through Mortar to any mapped range. -/
def coreWrite (s : State) (n : Nat) (v : Via) (a : Nat) (bs : List Byte) (bad : List (Nat × Nat)) : State × Nat :=
  if inOwn n a bs.length then localWrite s a bs bad
  else carryWrite s v a bs.length fun s => placeStore s v a bs bad (decide (v.cls = some 3))

/-- The bytes that a source range becomes at the destination: as they are, decoded, or encoded (R442). -/
def moverData (m : MoverOp) (g : Got) : List Byte × List (Nat × Nat) :=
  if !m.grain then (g.data, g.bad)
  else if m.op = 1 then
    let bl := (List.range (g.data.length / 32)).map fun i =>
      let d := grainDecode ((g.data.drop (32 * i)).take 32)
      (d.1, d.2 || g.bad.any fun r => decide (r.1 < 32 * i + 32) && decide (32 * i < r.1 + r.2))
    (bl.flatMap (·.1), bl.zipIdx.filterMap fun e => if e.1.2 then some (64 * e.2, 64) else none)
  else
    let bl := (List.range (g.data.length / 64)).map fun i =>
      (grainEncode ((g.data.drop (64 * i)).take 64), g.bad.any fun r => decide (r.1 < 64 * i + 64) && decide (64 * i < r.1 + r.2))
    (bl.flatMap (·.1), bl.zipIdx.filterMap fun e => if e.1.2 then some (32 * e.2, 32) else none)

/-- The bytes a piece puts at its destination: a Mortar status and the data. -/
def pieceData (s : State) (n : Nat) (m : MoverOp) (o len : Nat) : State × Nat × List Byte × List (Nat × Nat) :=
  if m.op = 5 then (s, 0, (span o len).map fun i => BitVec.ofNat 8 (bits m.pattern (8 * (i % 8) + 7) (8 * (i % 8))), [])
  else
    let f := if m.grain && decide (m.op = 2) then 2 else 1
    let r := coreRead s n (moverVia s n m) (m.src + f * o) (f * len)
    if r.2.st > 1 then (r.1, r.2.st, [], [])
    else let d := moverData m r.2; (r.1, 0, d.1, d.2)

/-- The rows that a gather writes, from the bytes it has read (R441): bytes and poisoned ranges from BOFF on. -/
def gatherRows (m : MoverOp) : List Byte × List (Nat × Nat) :=
  let g := m.gather
  let elem (j ky kx c : Nat) : List Byte × Bool :=
    match g.source j ky kx with
    | none => (leBytes g.e g.padv, false)
    | some (iy, ix) =>
      let o := iy * g.pitch + (ix * g.c + c) * g.e
      ((List.range g.e).map fun i => SMap.getD m.got (o + i) 0, (List.range g.e).any fun i => m.gotBad.contains ((m.src + o + i) / 64))
  let rows := (List.range g.npos).map fun j =>
    let es := (List.range g.kh).flatMap fun ky => (List.range g.kw).flatMap fun kx => (List.range g.c).map fun c => elem j ky kx c
    (padTo g.rowPitch (es.flatMap (·.1)), es.zipIdx.filterMap fun e => if e.1.2 then some (j * g.rowPitch + e.2 * g.e, g.e) else none)
  (rows.flatMap (·.1), rows.flatMap (·.2))

/-- An issued array command has not finished with the buffer half that an instruction writes (R383, R463). -/
def halfHeld (k : Core) (m : MoverOp) : Bool :=
  m.dstKind ≠ 0 && k.cmds.any fun c =>
    if m.dstKind = 1 then c.readsW m.half
    else c.readsA m.half || (c.op = 4 && c.toBuf && decide (c.dh = m.half))

/-- Two instructions write bytes of one buffer half: of the weight buffer, or of one array's activation buffer. -/
def sameHalf (m d : MoverOp) : Bool :=
  decide (m.half = d.half) && ((m.dstKind = 1 && d.dstKind = 1)
    || (decide (m.dstKind ≥ 2) && decide (d.dstKind ≥ 2) && (m.dstKind = 3 || d.dstKind = 3 || decide (m.arr = d.arr))))

/-- An instruction's write to a buffer half waits: for an array command, or for an earlier instruction's write to that half (R383). -/
def fillWaits (k : Core) (m : MoverOp) : Bool :=
  halfHeld k m || (k.movers.flatMap id).any fun d => decide (d.seq < m.seq) && d.failed.isNone && sameHalf m d

/-- An instruction writes a weight half, or an activation half of some array. -/
def MoverOp.fillsW (m : MoverOp) (h : Nat) : Bool := m.dstKind = 1 && decide (m.half = h)
def MoverOp.fillsA (m : MoverOp) (h : Nat) : Bool := decide (m.dstKind ≥ 2) && decide (m.half = h)

/-- A mover's instructions changed. -/
def updMover (k : Core) (i : Nat) (f : List MoverOp → List MoverOp) : Core := { k with movers := updAt k.movers i f }

/-- A piece to address `a` failed (R439): that instruction and every later one of the mover complete as failed. -/
def failMover (k : Core) (i seq st a : Nat) : Core :=
  updMover k i fun q => q.map fun m => if m.seq ≥ seq && m.failed.isNone then { m with failed := some (st, a), pieces := [] } else m

/-- The oldest piece of an instruction is answered OK: the instruction without it; complete where none is left. -/
def popPiece (k : Core) (i seq : Nat) : Core :=
  updMover k i fun q => (q.map fun m => if m.seq = seq then { m with pieces := m.pieces.tail } else m).filter fun m =>
    m.seq ≠ seq || !m.pieces.isEmpty

/-- The instruction of a gather with one more piece kept. -/
def keepPiece (m : MoverOp) (o : Nat) (bs : List Byte) (bad : List (Nat × Nat)) : MoverOp :=
  { m with got := putRun m.got o bs, gotBad := bad.foldl (fun g r =>
    (span ((m.src + o + r.1) / 64) ((m.src + o + r.1 + r.2 - 1) / 64 + 1 - (m.src + o + r.1) / 64)).foldl NSet.add g) m.gotBad }

/-- A piece of a gather is kept; with the last one the rows are written and the instruction completes. -/
def gatherPiece (s : State) (n i : Nat) (m : MoverOp) (o : Nat) (bs : List Byte) (bad : List (Nat × Nat)) : State :=
  let m' := keepPiece m o bs bad
  if m.pieces.length ≤ 1 then
    let d := gatherRows m'
    updCore (writeBuffer s n m.dstKind m.half m.arr m.boff d.1 d.2) n fun k => popPiece k i m.seq
  else updCore s n fun k => updMover k i fun q => q.map fun x => if x.seq = m.seq then { m' with pieces := m.pieces.tail } else x

/-- The oldest unanswered piece of mover `mover` of a core is performed and answered (R383, R436 to R442). -/
def answerPiece (core mover : Nat) (s : State) : State :=
  let k := coreOf s core
  match if islandRuns s (19 + core) then (nth k.movers mover []).find? fun m => m.failed.isNone else none with
  | none => s
  | some m =>
    if halfHeld k m then bump s (R.ASH_STALL core 8) 31 0 1
    else if fillWaits k m then s
    else
      match m.pieces with
      -- a gather none of whose elements lies in the tensor has no piece to wait for
      | [] => gatherPiece s core mover m 0 [] []
      | (o, len) :: _ =>
        let s := if placeOf m.src = .coreSram core then s else (injFire s 8 fun a => a % 8 = core).1
        let r := pieceData s core m o len
        if r.2.1 ≠ 0 then updCore r.1 core fun k => failMover k mover m.seq r.2.1 (m.src + (if m.grain && decide (m.op = 2) then 2 else 1) * o)
        else if m.op = 4 then gatherPiece r.1 core mover m o r.2.2.1 r.2.2.2
        else
          let f := if m.grain && decide (m.op = 1) then 2 else 1
          if m.dstKind ≠ 0 then
            updCore (writeBuffer r.1 core m.dstKind m.half m.arr (m.boff + f * o) r.2.2.1 r.2.2.2) core fun k => popPiece k mover m.seq
          else
            let w := coreWrite r.1 core (moverVia s core m) (m.dst + f * o) r.2.2.1 r.2.2.2
            if w.2 ≠ MS.ok then updCore w.1 core fun k => failMover k mover m.seq w.2 (m.dst + f * o)
            else updCore w.1 core fun k => popPiece k mover m.seq

/-- MOVER_PIECE_RESPONSE (R439): `host` are the completions that the piece's read of host memory meets. -/
def execMoverPieceResponse (core mover : Nat) (host : List Cpl) (s : State) : Host.Outcome State Fault Refusal :=
  served host (fun s => .next (answerPiece core mover s)) s

end Sys2Proof.Machine
end

