-- ==== Sys2Proof/Machine/Scalar.lean ====
section
/-!
DEFINITION. Machine/Scalar.lean: the results of the scalar instructions (13 R418 to R422). Operands and results are 64-bit numbers.
-/
namespace Sys2Proof.Machine
open Sys2Proof

/-- A 64-bit number as two's complement. -/
def s64 (a : Nat) : Int := sx 64 a

/-- ADD, SUB, AND, OR, XOR, SLL, SRL, SRA: opcodes 0x01 to 0x08; shifts use B[5:0] (R418, R419). -/
def aluResult (o a b : Nat) : Nat :=
  match o with
  | 0x01 => (a + b) % 2 ^ 64
  | 0x02 => unsx 64 ((a : Int) - b)
  | 0x03 => a &&& b
  | 0x04 => a ||| b
  | 0x05 => a ^^^ b
  | 0x06 => (a <<< (b % 64)) % 2 ^ 64
  | 0x07 => a >>> (b % 64)
  | _ => unsx 64 (s64 a / (2 ^ (b % 64) : Nat))

/-- SLT, SLTU. -/
def setLessResult (o a b : Nat) : Nat := b2n (if o = 0x09 then decide (s64 a < s64 b) else decide (a < b))

/-- MIN, MAX, MINU, MAXU. -/
def minMaxResult (o a b : Nat) : Nat :=
  match o with
  | 0x0B => if s64 a < s64 b then a else b
  | 0x0C => if s64 a < s64 b then b else a
  | 0x0D => min a b
  | _ => max a b

/-- ADDS, SUBS: saturating. -/
def satResult (o a b : Nat) : Nat := unsx 64 (satI 64 (if o = 0x0F then s64 a + s64 b else s64 a - s64 b))

/-- MUL: the low 64 bits. -/
def mulResult (a b : Nat) : Nat := (a * b) % 2 ^ 64

/-- MULH, MULHU: the high 64 bits of the product. -/
def mulHighResult (o a b : Nat) : Nat :=
  if o = 0x12 then unsx 64 (s64 a * s64 b / (2 ^ 64 : Nat)) else a * b / 2 ^ 64

/-- DIV, DIVU, REM, REMU: the quotient towards zero, the remainder with the dividend's sign, and the cases of R419. -/
def divResult (o a b : Nat) : Nat :=
  match o with
  | 0x14 => if b = 0 then 2 ^ 64 - 1 else unsx 64 (Int.tdiv (s64 a) (s64 b))
  | 0x15 => if b = 0 then 2 ^ 64 - 1 else a / b
  | 0x16 => if b = 0 then a else unsx 64 (Int.tmod (s64 a) (s64 b))
  | _ => if b = 0 then a else a % b

/-- CLZ, POPC. -/
def countResult (o a : Nat) : Nat := if o = 0x18 then 64 - bitLen a else (bitList a 64).length

/-- CMPEQ, CMPNE, CMPLT, CMPLTU, CMPGE, CMPGEU. -/
def compareResult (o a b : Nat) : Bool :=
  match o with
  | 0x20 => decide (a = b)
  | 0x21 => decide (a ≠ b)
  | 0x22 => decide (s64 a < s64 b)
  | 0x23 => decide (a < b)
  | 0x24 => decide (s64 b ≤ s64 a)
  | _ => decide (b ≤ a)

/-- PAND, POR, PXOR, PANDN. -/
def predResult (o : Nat) (p q : Bool) : Bool :=
  match o with
  | 0x28 => p && q
  | 0x29 => p || q
  | 0x2A => p != q
  | _ => p && !q

/-- FADD, FSUB, FMUL, FDIV, FMIN, FMAX on bits [31:0] (R422). -/
def floatResult (o a b : Nat) : Nat :=
  let x := f32 (a % 2 ^ 32)
  let y := f32 (b % 2 ^ 32)
  fenc fp32 (match o with
    | 0x30 => fadd x y
    | 0x31 => fadd x y.flip
    | 0x32 => fmul x y
    | 0x33 => fdiv x y
    | 0x34 => fmin x y
    | _ => fmax x y)

/-- FSQRT. -/
def rootResult (a : Nat) : Nat := fenc fp32 (fsqrt (f32 (a % 2 ^ 32)))

/-- FCVTIF: a signed 64-bit integer to FP32. -/
def fromIntResult (a : Nat) : Nat := fenc fp32 (FVal.ofInt (s64 a))

/-- FCVTFI: FP32 to a signed 64-bit integer, saturating; a NaN gives 0. The rounding is to nearest, ties to even (R422). -/
def toIntResult (a : Nat) : Nat :=
  unsx 64 (match f32 (a % 2 ^ 32) with
    | .nan => 0
    | .inf neg => satI 64 (if neg then -(2 ^ 64 : Nat) else (2 ^ 64 : Nat))
    | .fin neg m e => satI 64 (roundInt 0 neg m e))

/-- FCMPLT, FCMPEQ. -/
def floatCompare (o a b : Nat) : Bool :=
  let x := f32 (a % 2 ^ 32)
  let y := f32 (b % 2 ^ 32)
  if o = 0x39 then flt x y else feq x y

/-- The bytes of a scalar load or store by its opcode, and whether a load extends its sign (R418). -/
def accessSize (o : Nat) : Nat × Bool :=
  match o with
  | 0x40 => (1, true)
  | 0x41 => (1, false)
  | 0x42 => (2, true)
  | 0x43 => (2, false)
  | 0x44 => (4, true)
  | 0x45 => (4, false)
  | 0x46 => (8, false)
  | 0x48 => (1, false)
  | 0x49 => (2, false)
  | 0x4A => (4, false)
  | _ => (8, false)

/-- A loaded value extended to 64 bits. -/
def extendLoad (o v : Nat) : Nat :=
  let z := accessSize o
  if z.2 then unsx 64 (sx (8 * z.1) v) else v % 2 ^ (8 * z.1)

/-- The value that a scalar opcode puts into xRD; none for the opcodes that write a predicate or touch memory. -/
def scalarValue (o a b : Nat) (p : Nat) : Option Nat :=
  if 0x01 ≤ o ∧ o ≤ 0x08 then some (aluResult o a b)
  else if o = 0x09 ∨ o = 0x0A then some (setLessResult o a b)
  else if 0x0B ≤ o ∧ o ≤ 0x0E then some (minMaxResult o a b)
  else if o = 0x0F ∨ o = 0x10 then some (satResult o a b)
  else if o = 0x11 then some (mulResult a b)
  else if o = 0x12 ∨ o = 0x13 then some (mulHighResult o a b)
  else if 0x14 ≤ o ∧ o ≤ 0x17 then some (divResult o a b)
  else if o = 0x18 ∨ o = 0x19 then some (countResult o a)
  else if o = 0x2C then some (p % 256)
  else if 0x30 ≤ o ∧ o ≤ 0x35 then some (floatResult o a b)
  else if o = 0x36 then some (rootResult a)
  else if o = 0x37 then some (fromIntResult a)
  else if o = 0x38 then some (toIntResult a)
  else none

/-- The predicate that a scalar opcode computes; `rs1` and `rs2` are the register fields. -/
def scalarPred (o a b : Nat) (k : Bank) (rs1 rs2 : Nat) : Option Bool :=
  if 0x20 ≤ o ∧ o ≤ 0x25 then some (compareResult o a b)
  else if 0x28 ≤ o ∧ o ≤ 0x2B then some (predResult o (pr k rs1) (pr k rs2))
  else if o = 0x39 ∨ o = 0x3A then some (floatCompare o a b)
  else none

end Sys2Proof.Machine
end

