-- ==== Sys2Proof/Machine/Svc.lean ====
section
/-!
DEFINITION. Machine/Svc.lean: the service calls of a core (13 R432).
-/
namespace Sys2Proof.Machine
open Sys2Proof

/-- The command block of an SVC goes to Keystone (unit 0) or Safelight (unit 1) with the identity of the core's job; the item that awaits
the answer. A unit whose island does not answer gives the item its status. -/
def svcSubmit (s : State) (n : Nat) (urgent : Bool) (unit addr : Nat) (reg : Nat) : State × Item :=
  let r := localRead s addr 64
  let it : Item := { regs := [reg], cause := 6 + unit }
  let v := bankVia s n urgent
  carryCall r.1 v (30 + unit) 64 0 (fun st => { it with res := some (st, [], false) }) fun s =>
    if unit = 0 then
      svcItem it (keySubmit s { id := 0, ctx := field r.2.data 1 1, issuer := .core n, urgent := urgent, part := corePart s n, cls := v.cls.getD 2,
                                block := r.2.data, bad := decide (r.2.st ≠ 0) })
    else
      svcItem it (sflSubmit s { id := 0, issuer := .core n, urgent := urgent, part := corePart s n, cls := v.cls.getD 2, block := r.2.data,
                                bad := r.2.st })
where
  /-- A command refused with BUSY has its answer at once. -/
  svcItem (it : Item) (t : State × Nat) : State × Item :=
    if (t.1.key.held.any (·.id = t.2) && it.cause = 6) || (t.1.sfl.held.any (·.id = t.2) && it.cause = 7) then
      (t.1, { it with svc := some t.2 })
    else (t.1, { it with svc := some t.2, res := some (MS.ok, [0xD], false) })

/-- The commands of a bank's service calls are told to end (R616, R645). -/
def svcAbort (s : State) (b : Bank) : State :=
  b.items.foldl (fun s it => match it.svc with
    | some id => if it.res.isSome then s else if it.cause = 6 then keyAbort s id else if it.cause = 7 then sflAbort s id else s
    | none => s) s

end Sys2Proof.Machine
end

