-- ==== Sys2Proof/Machine/Issue.lean ====
section
/-!
DEFINITION. Machine/Issue.lean: the issue of a bundle on an Ashlar core: what its slots read, what it waits for, its exceptions, its
effects (12 R371 to R401, 13 R406 to R443, 14 R444 to R469).
-/
namespace Sys2Proof.Machine
open Sys2Proof

/-! Banks that run. -/

/-- The bank that runs on a core: none, the normal (false) or the urgent (true). -/
def runningBank (k : Core) : Option Bool := if k.active = 1 then some false else if k.active = 2 then some true else none

/-- A job begins on a bank (R373, R374, R443, R479): the registers are zeroed and those of the job start written. -/
def beginJob (k : Core) (j : JobStart) : Core :=
  let k := updBank' k j.urgent fun b =>
    { b with
      x := [0] ++ (List.range 6).map (fun i => BitVec.ofNat 64 (nth j.xs i 0)) ++ List.replicate 25 0,
      p := 1, loops := List.replicate 4 {}, pc := j.entry, job := some j.job, ended := none, items := [], poisoned := [],
      poisonAt := [], failed := [], decoded := 0, atEnd := false, endFailed := none, startNs := if j.urgent then some j.ns else none, accSat := 0,
      outSat := 0, mismatch := false, wsIssued := false, since := k.cycles }
  { k with active := if j.urgent then 2 else 1, stalled := false, late := if j.urgent then k.late else false,
           flips := k.flips.filter fun f => !(decide (f.1 = 4) && decide (f.2.1 / 32 = b2n j.urgent)) }

/-- What a core runs once no bank is active: an urgent start that waits (R374, R401), else a normal one. -/
def startWaiting (k : Core) : Core :=
  match k.waitUrgent, k.waitNormal with
  | some j, _ => beginJob { k with waitUrgent := none } j
  | none, some j => beginJob { k with waitNormal := none } j
  | none, none => { k with active := 0, stalled := false }

/-- The bank that runs on core `n` of eight, while its island runs; a fenced core issues nothing and completes nothing (R68). -/
def bankAtWork (s : State) (n : Nat) : Option Bool := if n < 8 && islandRuns s (19 + n) then runningBank (coreOf s n) else none

/-- A bank's job is over (R375, R401): the urgent bank gives way to the normal one, PREEMPTED set, and a held job resumes with its held
bundle; the normal bank to what waits. -/
def leaveBank (k : Core) (urgent : Bool) : Core :=
  let k := updBank' k urgent fun b => { b with job := none, ended := none, atEnd := false, poisoned := [], poisonAt := [], failed := [], endFailed := none }
  let k : Core := { k with movers := k.movers.map fun q => q.filter fun m => !(decide (m.urgent = urgent) && m.failed.isSome) }
  if urgent then
    let k : Core := { k with normal := { k.normal with preempted := true } }
    if k.active ≠ 2 then k
    else if k.held then { k with active := 1, held := false, stalled := false, normal := { k.normal with decoded := 1 } }
    else startWaiting k
  else if k.active = 1 then startWaiting k
  else { k with held := false }

/-- A bank's job is over: its saturation counts reach the dispatcher as they stand (R482), and an abort message that named it finds nothing to stop. -/
def reportCounts (s : State) (n : Nat) (urgent : Bool) : State :=
  let b := bankOf' (coreOf s n) urgent
  updDpt (dropAborts s n urgent) fun d => { d with counts := SMap.set d.counts (2 * n + b2n urgent) (b.accSat, b.outSat) }

/-- The exception of a bundle (R396, R400, R401, R482, R536): the ASH_EXC registers, the capture, the event, the abort of the job and its report. -/
def takeException (s : State) (n : Nat) (urgent : Bool) (e : Exc) : State :=
  let b := bankOf' (coreOf s n) urgent
  let a := e.addr.getD 0
  let s := setReg s (R.ASH_EXC_INFO n) (BitVec.ofNat 32 (e.cause + 256 * b2n urgent + 512 * e.slot))
  let s := setReg s (R.ASH_EXC_PC_LO n) (BitVec.ofNat 32 b.pc)
  let s := setReg s (R.ASH_EXC_PC_HI n) (BitVec.ofNat 32 (bits b.pc 47 32))
  let s := setReg s (R.ASH_EXC_ADDR_LO n) (BitVec.ofNat 32 a)
  let s := setReg s (R.ASH_EXC_ADDR_HI n) (BitVec.ofNat 32 (bits a 47 32))
  let s := fault s (P.ash n) e.cause (.core n) (256 * b2n urgent + 512 * e.slot + e.st * 65536) e.addr
  let s := raise s (P.ash n) 8
  let s := match b.job with | some j => missAborted (reportCounts s n urgent) n j | none => s
  settleParts (updCore s n fun k => leaveBank k urgent)

/-! What a bundle reads. -/

/-- The bundle has nothing to perform: every slot holds NOP and nothing reserved (R408). -/
def isNop (b : Nat) : Bool :=
  scOp true (slotS b) = 0 && scOp false (slotC b) = 0 && vOp (slotV b 0) = 0 && vOp (slotV b 1) = 0 && aOp (slotA b) = 0
    && mOp (slotM b 0) = 0 && mOp (slotM b 1) = 0 && bundleOk b

/-- The slot's predicate holds and it is no NOP; slots 0 S, 1 C, 2 V0, 3 V1, 4 A, 5 M0, 6 M1 (R408, R411). -/
def slotRuns (b : Nat) (k : Bank) (slot : Nat) : Bool :=
  match slot with
  | 0 => scOp true (slotS b) ≠ 0 && predOk k (scPred (slotS b)) (scNeg (slotS b))
  | 1 => scOp false (slotC b) ≠ 0 && predOk k (scPred (slotC b)) (scNeg (slotC b))
  | 4 => aOp (slotA b) ≠ 0 && predOk k (aPred (slotA b)) (aNeg (slotA b))
  | 5 | 6 => let w := slotM b (slot - 5); mOp w ≠ 0 && predOk k (mPred w) (mNeg w)
  | _ => let w := slotV b (slot - 2); vOp w ≠ 0 && predOk k (vPred w) (vNeg w)

/-- The scalar registers that a slot reads. -/
def slotReads (b slot : Nat) : List Nat :=
  match slot with
  | 0 =>
    let w := slotS b
    let o := scOp true w
    let a := if (0x28 ≤ o ∧ o ≤ 0x2C) ∨ o = 0 then [] else [scRs1 w]
    let unary := o = 0x18 || o = 0x19 || o = 0x2D || (decide (0x36 ≤ o) && decide (o ≤ 0x38)) || (decide (0x28 ≤ o) && decide (o ≤ 0x2C))
    let c := if (0x48 ≤ o ∧ o ≤ 0x4B) ∨ (scSel w = 0 ∧ !unary) then [scRs2 w] else []
    a ++ c
  | 1 =>
    let w := slotC b
    match scOp false w with
    | 0x03 | 0x12 | 0x18 | 0x19 | 0x20 => [scRs1 w]
    | 0x04 => if scSel w = 0 then [scRs1 w] else []
    | 0x10 | 0x11 => [scRs1 w, scRs2 w]
    | _ => []
  | 4 =>
    let w := slotA b
    let q := if aOp w = 4 then (if bits w 222 220 = 6 then [] else [bits w 227 223]) ++ (if bit w 219 then [] else [bits w 232 228]) else []
    (if aSel w = 0 then [aXr w] else []) ++ q
  | 5 | 6 =>
    let w := slotM b (slot - 5)
    (if mOp w = 5 then [] else [mRa w]) ++ (if mDst w = 0 ∨ mOp w = 4 then [mRb w] else []) ++ (if mOp w ≥ 4 then [mRc w] else [])
  | _ =>
    let w := slotV b (slot - 2)
    if vUsesB w && (decide (vSel w = 0) || vOp w = 1 || vOp w = 2) then [vXs w] else []

/-- The vector registers that a V slot reads. -/
def vectorReads (w : Nat) : List Nat :=
  let r := vReads (vOp w)
  let o := vOp w
  (if o = 0x28 ∨ o = 0x29 then span (vVa w) (vR w) else if r.1 then [vVa w] else [])
    ++ (if r.2.1 && !vBs w then [vVb w] else []) ++ (if r.2.2.1 then [vVc w] else [])
    ++ (if o = 0x20 ∧ lanes (vT w) < lanes (vT2 w) then [vVd w] else [])

/-- Operand B of a V slot (R464); its address displacement for VLD and VST (R467). -/
def vOperand (b w : Nat) (k : Bank) : Nat := operandB b (vSel w) (xr k (vXs w)) (vImm w)
def vAddress (b w : Nat) (k : Bank) : Nat :=
  let d : Int := if vSel w = 0 then 0 else if vSel w = 1 then 64 * sx 16 (vImm w) else s64 (operandB b (vSel w) 0 0)
  unsx 64 (s64 (xr k (vXs w)) + d)

/-- Operands A and B of the S slot, and the address of a load or store. -/
def sOperands (b : Nat) (k : Bank) : Nat × Nat :=
  let w := slotS b
  (xr k (scRs1 w), operandB b (scSel w) (xr k (scRs2 w)) (scImm w))
def sAddress (b : Nat) (k : Bank) : Nat := let o := sOperands b k; (o.1 + o.2) % 2 ^ 64

/-- The command of the A slot, `bval` standing for operand B. -/
def bundleCmd (s : State) (b : Nat) (k : Bank) (urgent : Bool) (bval : Nat) : ArrayCmd :=
  let w := slotA b
  let c := arrayCmd w bval (xr k (bits w 232 228)) urgent []
  if aOp w = 4 ∧ c.ot ≠ 6 then
    let q := xr k (bits w 227 223)
    let n := if c.sm then 1 else c.n
    { c with table := (List.range n).map fun i => (ofLe (memBytes s (q + 8 * i) 4), ofLe (memBytes s (q + 8 * i + 4) 4)) }
  else c

/-- Operand B of the A slot. -/
def aOperand (b : Nat) (k : Bank) : Nat := operandB b (aSel (slotA b)) (xr k (aXr (slotA b))) 0

/-! What a bundle waits for. -/

/-- The stall cause of a request to an address (R394). -/
def stallCause (n a : Nat) : Nat :=
  match placeOf a with
  | .coreSram c => if c = n then 0 else 1
  | .bank _ => 1
  | .dram => 2
  | .host _ => 3
  | .pageWindow | .tableWindow => 10
  | .unmapped => 11

/-- The cause of the oldest unanswered piece of a mover instruction: BUFFER where it waits for its half, else of what it reads outside the core, else of what
it writes (R394, R438). -/
def pieceCause (n : Nat) (k : Core) (m : MoverOp) : Nat :=
  if fillWaits k m then 8
  else match m.pieces with
    | [] => 11
    | (o, _) :: _ =>
      let src := m.src + (if m.grain && m.op = 2 then 2 else 1) * o
      let dst := stallCause n (m.dst + (if m.grain && m.op = 1 then 2 else 1) * o)
      if m.op = 5 then (if m.dstKind ≠ 0 then 11 else dst)
      else if m.dstKind = 0 ∧ inOwn n src 1 then dst
      else stallCause n src

/-- The mover instructions that an MWAIT or FENCE of a bank waits for. -/
def awaited (k : Core) (urgent : Bool) (w : Nat) : List MoverOp :=
  let i := scImm w
  match scOp false w with
  | 0x09 => (k.movers.flatMap fun q => q).filter fun m => m.urgent = urgent && m.dstKind = 0
  | 0x0A => let q := nth k.movers (bits i 4 4) []; q.take (q.length - bits i 3 0)
  | _ => []

/-- An array command needs a half that mover instructions are still filling (R383, R463), by the movers' lists. -/
def fillsFor (k : Core) (c : ArrayCmd) : List MoverOp :=
  (k.movers.flatMap fun q => q).filter fun m =>
    (c.op = 1 && ((c.readsW c.wh && m.fillsW c.wh) || (c.readsA c.ah && m.fillsA c.ah)))
      || (c.op = 4 && c.toBuf && m.fillsA c.dh)

/-- A drain writes an activation half that an MMA in the other place reads, either way round (R463). -/
def drainMeets (c d : ArrayCmd) : Bool :=
  (c.op = 1 && d.op = 4 && d.toBuf && c.readsA d.dh) || (c.op = 4 && c.toBuf && d.op = 1 && d.readsA c.dh)

/-- A wait for a mover instruction ends only with an array command that holds a buffer half (R383). -/
def heldByArray (k : Core) : Bool := (k.movers.flatMap id).any fun m => m.failed.isNone && halfHeld k m

/-- What a bundle waits for in its slots below `upto` (R383, R393, R394, R423, R437, R438, R454, R461, R463): place in issue order, stall cause, and whether the
wait ends with an array command. First the missing items and mover instructions issued earlier, then its own accesses. -/
def waits (n : Nat) (k : Core) (urgent : Bool) (b : Nat) (c : ArrayCmd) (upto : Nat) : List (Nat × Nat × Bool) × List (Nat × Bool) :=
  let bk := bankOf' k urgent
  let runs (i : Nat) : Bool := decide (i < upto) && slotRuns b bk i
  let need := (List.range 7).flatMap fun i => if runs i then slotReads b i else []
  let wc := slotC b
  let held := heldByArray k
  let items := (bk.items.filter fun it => it.regs.any fun r => r ≠ 0 && need.contains r).map fun it => (it.seq, it.cause, false)
  let late := if runs 1 then (awaited k urgent wc).filter (·.failed.isNone) else []
  let fills := if runs 4 then (fillsFor k c).filter (·.failed.isNone) else []
  (items ++ late.map (fun m => (m.seq, pieceCause n k m, held)) ++ fills.map (fun m => (m.seq, 8, held)),
   (if runs 1 && scOp false wc = 0x0B && decide ((k.cmds.countP fun d => d.urgent = urgent) > bits (scImm wc) 3 0) then [(11, true)] else [])
    ++ (if runs 4 && decide (k.cmds.length ≥ 4) then [(11, true)] else [])
    ++ (if runs 4 && k.cmds.any (fun d => (aOp (slotA b) = 4 && d.writesAcc && rowsMeet c d) || drainMeets c d) then [(8, true)] else [])
    ++ (if (List.range 2).any fun i => runs (5 + i) &&
          (let p := ((nth k.movers i []).map fun m => m.pieces.length).sum
           decide (p ≥ 64) || (decide ((moverOp (slotM b i) bk urgent 0).pieces.length > 64) && decide (p > 0))) then [(9, held)] else []))

/-- The oldest thing that a bundle waits for (R394): its stall cause, and whether the wait ends with an array command; none where it does not wait. -/
def waitFor (n : Nat) (k : Core) (urgent : Bool) (b : Nat) (c : ArrayCmd) (upto : Nat) : Option (Nat × Bool) :=
  let w := waits n k urgent b c upto
  match w.1.foldl (fun o e => match o with
    | none => some e
    | some x => if e.1 < x.1 then some e else some x) none with
  | some e => some e.2
  | none => w.2.head?

/-- The cause for which a bundle waits, or none. -/
def waitCause (n : Nat) (k : Core) (urgent : Bool) (b : Nat) (c : ArrayCmd) : Option Nat := (waitFor n k urgent b c 7).map (·.1)

/-! Control flow. -/

/-- A bundle may be fetched at a target (R424). -/
def fetchOk (s : State) (n a : Nat) : Bool := inOwn n a 128 && coreWindow s n .fetch a 128

/-- The target of the transfer that a bundle makes, if any: a branch, a jump, or the end of a loop of count 0 (R423, R427). -/
def transfer (b : Nat) (k : Bank) : Option Nat :=
  let w := slotC b
  let rel : Nat := unsx 64 (s64 k.pc + 128 * sx 16 (scImm w))
  if !slotRuns b k 1 then none
  else match scOp false w with
    | 0x01 | 0x02 => some rel
    | 0x03 => some (xr k (scRs1 w))
    | 0x04 => if operandB b (scSel w) (xr k (scRs1 w)) 0 % 2 ^ 32 = 0 then some (rel + 128) else none
    | _ => none

/-- The loops after the C slot of a bundle (R427). -/
def loopsAfter (b : Nat) (k : Bank) : List Loop :=
  let w := slotC b
  if !slotRuns b k 1 then k.loops
  else match scOp false w with
    | 0x04 =>
      let n := operandB b (scSel w) (xr k (scRs1 w)) 0 % 2 ^ 32
      k.loops.set (scL w) { count := n, active := decide (n ≠ 0), start := k.pc + 128, stop := unsx 64 (s64 k.pc + 128 * sx 16 (scImm w)) }
    | 0x05 => k.loops.modify (scL w) fun l => { l with count := 0, active := false }
    | _ => k.loops

/-- The active loop of the highest start whose end is at `pc`. -/
def innerLoop (ls : List Loop) (pc : Nat) : Option (Nat × Loop) :=
  ls.zipIdx.foldl (fun m e =>
    if e.1.active && decide (e.1.stop = pc) then
      match m with
      | none => some (e.2, e.1)
      | some o => if o.2.start < e.1.start then some (e.2, e.1) else m
    else m) none

/-- The evaluation at an end bundle (R427, R428): the loops after it and the next bundle. -/
def evalLoops : Nat → List Loop → Nat → List Loop × Nat
  | 0, ls, pc => (ls, pc + 128)
  | fuel + 1, ls, pc =>
    match innerLoop ls pc with
    | none => (ls, pc + 128)
    | some (i, l) =>
      if l.count > 1 then (ls.set i { l with count := l.count - 1 }, l.start)
      else evalLoops fuel (ls.set i { l with count := 0, active := false }) pc

/-- The C slot of an end bundle starts, clears or reads the counter of a loop that ends there (R428). -/
def loopClash (b : Nat) (k : Bank) : Bool :=
  let w := slotC b
  decide (4 ≤ scOp false w) && decide (scOp false w ≤ 6)
    && (let l := nth k.loops (scL w) {}; l.active && decide (l.stop = k.pc))

/-! Exceptions. -/

/-- The first slot in the order of R399 that makes a bundle ILLEGAL (R397, R408, R409, R428); 7 where a destination named twice alone does. -/
def illegalSlot (b : Nat) (k : Bank) : Option Nat :=
  if badSlot b = 0 then some 0 else if loopClash b k then some 1 else if bundleOk b then none else some (badSlot b)

/-- The first poisoned or failed scalar register that a slot reads (R397, R400, R421, R439). -/
def regExc (k : Bank) (b slot : Nat) : Option Exc :=
  (slotReads b slot).findSome? fun r =>
    if k.poisoned.contains r then some { cause := EX.poisonUse, slot := slot, addr := SMap.get k.poisonAt r }
    else (SMap.get k.failed r).map fun f => { cause := EX.reqFailed, slot := slot, st := f.1, addr := f.2 }

/-- Bytes of the scalar store of a bundle and of the VST of a V slot meet (R468). -/
def storesMeet (b : Nat) (k : Bank) (slot : Nat) : Bool :=
  let o := scOp true (slotS b)
  let a := sAddress b k
  let v := vAddress b (slotV b (slot - 2)) k
  slotRuns b k 0 && decide (0x48 ≤ o) && decide (o ≤ 0x4B) && decide (a < v + 256) && decide (v < a + (accessSize o).1)

/-- The exception of the S slot (R397, R420). -/
def scalarExc (s : State) (n : Nat) (k : Bank) (b : Nat) : Option Exc :=
  let o := scOp true (slotS b)
  let a := sAddress b k
  let z := (accessSize o).1
  if !(decide (0x40 ≤ o) && decide (o ≤ 0x4B)) then none
  else
    let page := match placeOf a with | .pageWindow | .tableWindow => true | _ => false
    let e (c : Nat) : Option Exc := some { cause := c, slot := 0, addr := some (a % 2 ^ 48) }
    if !inOwn n a 1 && !page then e EX.unmapped
    else if a % z ≠ 0 then e EX.align
    else if !coreWindow s n (if o ≥ 0x48 then .write else .read) a z then e EX.window
    else none

/-- The exception of the C slot (R424, R430, R432, R439). -/
def controlExc (s : State) (n : Nat) (k : Core) (urgent : Bool) (b : Nat) : Option Exc :=
  let bk := bankOf' k urgent
  let w := slotC b
  let o := scOp false w
  let e (c : Nat) (a : Option Nat) : Option Exc := some { cause := c, slot := 1, addr := a }
  match o with
  | 0x01 | 0x02 | 0x03 =>
    let t := (transfer b bk).getD 0
    if o = 3 ∧ t % 128 ≠ 0 then e EX.align (some (t % 2 ^ 48))
    else if !fetchOk s n t then e EX.window (some (t % 2 ^ 48)) else none
  | 0x09 | 0x0A => match (awaited k urgent w).findSome? (·.failed) with
    | some f => some { cause := EX.reqFailed, slot := 1, st := f.1, addr := some f.2 }
    | none => none
  | 0x10 | 0x11 =>
    let a := xr bk (scRs2 w)
    if a % 64 ≠ 0 then e EX.align (some (a % 2 ^ 48))
    else if !inOwn n a (64 * (bits (scImm w) 3 0 + 1)) then e EX.unmapped (some (a % 2 ^ 48)) else none
  | 0x20 =>
    let a := xr bk (scRs1 w)
    if a % 64 ≠ 0 then e EX.align (some (a % 2 ^ 48))
    else if !inOwn n a 64 then e EX.unmapped (some (a % 2 ^ 48)) else none
  | _ => none

/-- The exception of a V slot (R467 to R469). -/
def vectorExc (s : State) (n : Nat) (k : Bank) (b slot : Nat) : Option Exc :=
  let w := slotV b (slot - 2)
  let o := vOp w
  if o = 1 ∨ o = 2 then
    let a := vAddress b w k
    let e (c : Nat) : Option Exc := some { cause := c, slot := slot, addr := some (a % 2 ^ 48) }
    if o = 2 && storesMeet b k slot then some { cause := EX.illegal, slot := slot }
    else if a % 64 ≠ 0 then e EX.align
    else if !inOwn n a 256 then e EX.unmapped
    else if !coreWindow s n (if o = 2 then .write else .read) a 256 then e EX.window
    else none
  else if o ≠ 4 && (vectorReads w).any (fun r => (nth k.v r {}).marks ≠ 0) then some { cause := EX.poisonUse, slot := slot }
  else none

/-- The exception of the A slot (R389, R439, R448, R453, R454, R456, R457). -/
def arrayExc (s : State) (n : Nat) (k : Core) (bk : Bank) (b : Nat) (c : ArrayCmd) : Option Exc :=
  let e (x : Nat) (a : Option Nat) : Option Exc := some { cause := x, slot := 4, addr := a }
  let failed := (fillsFor k c).findSome? (·.failed)
  match failed with
  | some f => some { cause := EX.reqFailed, slot := 4, st := f.1, addr := some f.2 }
  | none =>
    if c.op = 1 then
      if !mmaShapeOk c || (c.df = 0 && !c.wl && !bk.wsIssued) then e EX.illegal none
      else if c.n > coreWidth s n then e EX.width none else none
    else if c.op = 4 then
      let q := xr bk (bits (slotA b) 227 223)
      let tab := 8 * (if c.sm then 1 else c.n)
      if c.c0 * 16 + c.n > coreWidth s n then e EX.width none
      else if c.row + c.m > 512 ∨ (c.toBuf ∧ c.drainEnd > 0x8000) then e EX.illegal none
      else if c.ot ≠ 6 ∧ q % 8 ≠ 0 then e EX.align (some (q % 2 ^ 48))
      else if c.ot ≠ 6 ∧ !inOwn n q tab then e EX.unmapped (some (q % 2 ^ 48))
      else if c.ot ≠ 6 ∧ !coreWindow s n .read q tab then e EX.window (some (q % 2 ^ 48))
      else if !c.toBuf ∧ !inOwn n c.base (c.drainEnd - c.base) then e EX.unmapped (some (c.base % 2 ^ 48))
      else if !c.toBuf ∧ !coreWindow s n .write c.base (c.drainEnd - c.base) then e EX.window (some (c.base % 2 ^ 48))
      else if !c.toBuf ∧ c.base % 64 ≠ 0 then e EX.align (some (c.base % 2 ^ 48))
      else if drainPoisoned k c then e EX.poisonUse none
      else if c.ot ≠ 6 ∧ !(badRanges s q tab).isEmpty then e EX.poisonUse (some (q % 2 ^ 48))
      else none
    else if c.row + c.m > 512 then e EX.illegal none
    else none

/-- The first exception of a bundle in slot order (R399), ILLEGAL at the slot that is illegal, the ends of control flow last; none where it issues. -/
def bundleExc (s : State) (n : Nat) (k : Core) (urgent : Bool) (b : Nat) (c : ArrayCmd) : Option Exc :=
  let bk := bankOf' k urgent
  let slot (i : Nat) : Option Exc :=
    if !slotRuns b bk i then none
    else match regExc bk b i with
      | some e => some e
      | none => match i with
        | 0 => scalarExc s n bk b
        | 1 => controlExc s n k urgent b
        | 4 => arrayExc s n k bk b c
        | 5 | 6 => let w := slotM b (i - 5); moverExc s n (moverOp w bk urgent 0) (mPiece w) i
        | _ => vectorExc s n bk b i
  let bad := illegalSlot b bk
  match (List.range (bad.getD 7)).findSome? slot, bad with
  | some e, _ => some e
  | none, some i => some { cause := EX.illegal, slot := i }
  | none, none =>
    let flow (a : Nat) (seq : Bool) : Option Exc :=
      if (if seq then inOwn n a 128 else fetchOk s n a) then none else some { cause := EX.window, slot := 7, addr := some (a % 2 ^ 48) }
    let ends := scOp false (slotC b) = 0x08 && slotRuns b bk 1
    match transfer b bk with
    | some t => if scOp false (slotC b) = 0x04 then flow t true else none
    | none =>
      if ends then none
      else match innerLoop (loopsAfter b bk) bk.pc with
        | some _ => let r := evalLoops 4 (loopsAfter b bk) bk.pc; flow r.2 (r.2 = bk.pc + 128)
        | none => flow (bk.pc + 128) true

/-! Effects. -/

/-- What the slots of a bundle write into the bank: scalar registers (value, poisoned), the request addresses of those that a load writes, predicates, vector
registers, items. -/
structure Effect where
  xs : List (Nat × Nat × Bool) := []
  froms : List (Nat × Nat) := []
  ps : List (Nat × Bool) := []
  vs : List (Nat × VReg) := []
  items : List Item := []
deriving DecidableEq, Repr

/-- The bank after the writes of a bundle (R410, R421, R469). DEDUCED: what an earlier item has on its way to a register that the bundle writes no longer
reaches it, so that results do not depend on when items arrive (R495). -/
def writeBank (b : Bank) (e : Effect) : Bank :=
  let new := e.xs.map (·.1) ++ e.items.flatMap (·.regs)
  let b := { b with items := b.items.map fun it => { it with regs := it.regs.map fun r => if new.contains r then 0 else r } }
  let b := e.xs.foldl (fun (b : Bank) w =>
    if w.1 = 0 then b
    else { b with x := b.x.set w.1 (BitVec.ofNat 64 w.2.1), failed := SMap.del b.failed w.1,
                  poisoned := if w.2.2 then NSet.add b.poisoned w.1 else NSet.del b.poisoned w.1,
                  poisonAt := match if w.2.2 then e.froms.find? (·.1 = w.1) else none with
                    | some f => SMap.set b.poisonAt w.1 f.2
                    | none => SMap.del b.poisonAt w.1 }) b
  let b := e.ps.foldl (fun (b : Bank) w => if w.1 = 0 then b else { b with p := putBit b.p w.1 w.2 }) b
  let b := e.vs.foldl (fun (b : Bank) w => { b with v := b.v.set w.1 w.2 }) b
  { b with items := b.items ++ e.items }

/-- The scalar destinations of items are no longer poisoned or failed: they are not ready (R393). -/
def itemOf (regs : List Nat) (cause st : Nat) (vals : List Nat) : Item := { regs := regs, cause := cause, res := some (st, vals, false) }

/-- The S slot (R418 to R422): loads, computations. -/
def scalarEffect (s : State) (n : Nat) (k : Bank) (b : Nat) : State × Effect :=
  let w := slotS b
  let o := scOp true w
  let v := sOperands b k
  let rd := scRd w
  if !slotRuns b k 0 then (s, {})
  else if 0x40 ≤ o ∧ o ≤ 0x46 then
    let a := sAddress b k
    let z := (accessSize o).1
    if inOwn n a 1 then
      let r := localRead s a z
      (r.1, { xs := [(rd, extendLoad o (ofLe r.2.data), !r.2.bad.isEmpty)], froms := [(rd, a % 2 ^ 48)] })
    else
      let r := coreRead s n (coreVia s n) a z
      (r.1, { items := [{ itemOf [rd] 10 r.2.st [extendLoad o (ofLe r.2.data)] with addr := some (a % 2 ^ 48) }] })
  else if o = 0x2D then (s, { ps := (span 1 7).map fun i => (i, bit v.1 i) })
  else match scalarPred o v.1 v.2 k (scRs1 w) (scRs2 w), scalarValue o v.1 v.2 k.p with
    | some p, _ => (s, { ps := [(rd, p)] })
    | none, some x => (s, { xs := [(rd, x, false)] })
    | none, none => (s, {})

/-- The store of the S slot (R418, R420). -/
def scalarStore (s : State) (n : Nat) (k : Bank) (b : Nat) : State :=
  let w := slotS b
  let o := scOp true w
  if !slotRuns b k 0 || !(decide (0x48 ≤ o) && decide (o ≤ 0x4B)) then s
  else
    let a := sAddress b k
    let bs := leBytes (accessSize o).1 (xr k (scRs2 w))
    after (coreWrite s n (coreVia s n) a bs [])

/-- The word that RDSTAT returns (R426). -/
def statWord (s : State) (n : Nat) (urgent : Bool) (k : Bank) (sel : Nat) : Nat :=
  match sel with
  | 0 => if urgent then 0 else b2n k.preempted
  | 1 => rf s (R.ASH_PAIR_STATUS n) 1 0
  | 2 => n + 256 * b2n urgent + corePart s n * 65536
  | 3 => rf s (R.ASH_CLASS n) 2 0 + coreWidth s n * 65536
  | _ => ((coreOf s n).cycles - k.since) / 1000 % 2 ^ 64

/-- HPUSH (R430): Hod takes the entries from core SRAM and pushes them; `cycles` is the time that an urgent admission takes. -/
def corePush (s : State) (n : Nat) (v : Via) (rd q d c cycles : Nat) : State × Item :=
  let r := localRead s d (64 * c)
  let es := (List.range c).map fun j => (r.2.data.drop (64 * j)).take 64
  let bad := (List.range c).filter fun j => r.2.bad.any fun x => decide (x.1 < 64 * j + 64) && decide (64 * j < x.1 + x.2)
  carryCall r.1 v 2 (64 * c) 0 (fun st => itemOf [rd] 4 st []) fun s =>
    let t := devPush s (.core n) q es bad
    (if t.2 = HS.ok then urgentTime t.1 q (peekCtx t.1 q) cycles else t.1, itemOf [rd] 4 MS.ok [t.2])

/-- HPOP (R430): the popped entries are written to core SRAM. -/
def corePop (s : State) (n : Nat) (v : Via) (rd q d c : Nat) (meet : HodMeet) : State × Item :=
  carryCall s v 2 0 (64 * c) (fun st => itemOf [rd] 4 st []) fun s =>
    let t := hodPop s (.core n) 1 q c meet
    (if t.2.1 = HS.ok ∨ t.2.1 = HS.poison then after (localWrite t.1 d t.2.2.data t.2.2.bad) else t.1, itemOf [rd] 4 MS.ok [t.2.1])

/-- The C slot, but for the transfer of control and the loops (R423, R426, R430 to R433). -/
def controlEffect (s : State) (n : Nat) (urgent : Bool) (k : Bank) (b cycles : Nat) (meet : HodMeet) : State × Effect :=
  let w := slotC b
  let rd := scRd w
  let a := xr k (scRs1 w)
  let d := xr k (scRs2 w)
  let i := scImm w
  let v := bankVia s n urgent
  let item (r : State × Item) : State × Effect := (r.1, { items := [r.2] })
  if !slotRuns b k 1 then (s, {})
  else match scOp false w with
    | 0x02 | 0x03 => (s, { xs := [(rd, (k.pc + 128) % 2 ^ 64, false)] })
    | 0x06 => (s, { xs := [(rd, (nth k.loops (scL w) {}).count, false)] })
    | 0x0C => (s, { xs := [(rd, statWord s n urgent k (bits i 3 0), false)] })
    | 0x0D =>
      let s := if bit i 1 then wb s (R.ASH_PAIR_STATUS n) 0 false else s
      (if bit i 2 then wb s (R.ASH_PAIR_STATUS n) 1 false else s, {})
    | 0x10 => item (corePush s n v rd (a % 65536) d (bits i 3 0 + 1) cycles)
    | 0x11 => item (corePop s n v rd (a % 65536) d (bits i 3 0 + 1) meet)
    | 0x12 =>
      item (carryCall s v 2 0 0 (fun st => itemOf [rd] 4 st []) fun s =>
        let r := doorbellRead s (.core n) (a % 65536)
        (r.1, itemOf [rd] 4 MS.ok [r.2]))
    | 0x18 =>
      item (carryCall s v 2 0 0 (fun st => itemOf [rd, rd + 1] 5 st []) fun s =>
        let r := allocate s (36 + n) a
        (r.1, itemOf [rd, rd + 1] 5 MS.ok [r.2.handle % 2 ^ 32 + r.2.st * 2 ^ 32, if r.2.st = QS.ok then r.2.addr else 0]))
    | 0x19 =>
      item (carryCall s v 2 0 0 (fun st => itemOf [rd] 5 st []) fun s =>
        let r := freeHandle s (.core n) (36 + n) (a % 2 ^ 32)
        (r.1, itemOf [rd] 5 MS.ok [r.2]))
    | 0x20 => item (svcSubmit s n urgent (bits i 0 0) a rd)
    | _ => (s, {})

/-- The poisoned quarters of 256 bytes as marks. -/
def quarterMarks (bad : List (Nat × Nat)) : Nat :=
  (List.range 4).foldl (fun m q => putBit m q (bad.any fun r => decide (r.1 < 64 * q + 64) && decide (64 * q < r.1 + r.2))) 0

/-- A V slot but for VST (R466 to R474). -/
def vectorEffect (s : State) (k : Bank) (b i : Nat) : State × Effect :=
  let w := slotV b i
  let o := vOp w
  let r (j : Nat) : VReg := nth k.v j {}
  if !slotRuns b k (2 + i) || o = 2 then (s, {})
  else if o = 1 then
    let g := localRead s (vAddress b w k) 256
    (g.1, { vs := [(vVd w, { data := ofLe g.2.data, marks := quarterMarks g.2.bad })] })
  else if o = 4 then (s, { vs := [(vVd w, r (vVa w))] })
  else
    let regs := (span (vVa w) (vR w)).map fun j => (r j).data
    let t := vectorResult w (vOperand b w k) (r (vVa w)).data (r (vVb w)).data (r (vVc w)).data (r (vVd w)).data regs
    (s, { vs := (vVd w, { data := t.1 }) :: (match t.2 with | some x => [(vVd w + 1, { data := x })] | none => []) })

/-- The VST of a V slot (R467, R469). -/
def vectorStore (s : State) (k : Bank) (b i : Nat) : State :=
  let w := slotV b i
  if !slotRuns b k (2 + i) || vOp w ≠ 2 then s
  else
    let v := nth k.v (vVa w) {}
    after (localWrite s (vAddress b w k) (leBytes 256 v.data) ((bitList v.marks 4).map fun q => (64 * q, 64)))

/-- The array command and the mover instructions of a bundle are accepted (R437, R439, R461). -/
def acceptUnits (k : Core) (bk : Bank) (urgent : Bool) (b : Nat) (c : ArrayCmd) : Core :=
  let k := if slotRuns b bk 4 then { k with cmds := k.cmds ++ [c] } else k
  (List.range 2).foldl (fun k i =>
    if !slotRuns b bk (5 + i) then k
    else
      let m := moverOp (slotM b i) bk urgent k.seq
      let broken := (nth k.movers i []).findSome? (·.failed)
      let m := if broken.isSome then { m with failed := broken, pieces := [] } else m
      updMover { k with seq := k.seq + 1 } i fun q => q ++ [m]) k

/-- The time of an urgent dispatch is reported with the job's first bundle (R539). -/
def reportStart (s : State) (n : Nat) (k : Bank) : State :=
  match k.startNs with
  | none => s
  | some ns =>
    let s := peak s R.DPT_URGENT_PEAK 15 0 ns
    if ns > 1000 then raise (hwFault s P.dpt 1 (min ns 65535 + n * 65536)) P.dpt 11 else s

/-- A bundle issues (R371, R396): its effects, then the bundle address. -/
def issueEffects (s : State) (n : Nat) (urgent : Bool) (b cycles : Nat) (meet : HodMeet) (c : ArrayCmd) : State :=
  let k := bankOf' (coreOf s n) urgent
  let v0 := vectorEffect s k b 0
  let v1 := vectorEffect v0.1 k b 1
  let a := scalarEffect v1.1 n k b
  let d := controlEffect a.1 n urgent k b cycles meet
  let s := vectorStore (vectorStore (scalarStore d.1 n k b) k b 0) k b 1
  let e : Effect := { xs := a.2.xs ++ d.2.xs, froms := a.2.froms, ps := a.2.ps, vs := v0.2.vs ++ v1.2.vs, items := a.2.items ++ d.2.items }
  let w := slotC b
  let cop := if slotRuns b k 1 then scOp false w else 0
  let loops := loopsAfter b k
  let point := ppMark b && !urgent && decide (k.decoded = 1)
  let s := reportStart (bump s (R.ASH_BUNDLES n) 31 0 1) n k
  let s := touchRegs s n ((e.xs.filter (·.1 ≠ 0)).map (fun w => regPlace urgent w.1) ++ e.vs.map fun w => vregPlace urgent w.1)
  updCore s n fun core =>
    let e := { e with items := e.items.map fun it => { it with seq := core.seq } }
    let core := acceptUnits { core with seq := core.seq + 1 } k urgent b c
    let core := { core with stalled := false, late := if point then false else core.late }
    updBank' core urgent fun bk =>
      let bk := writeBank bk e
      let bk := { bk with loops := loops, decoded := 0, startNs := none, wsIssued := bk.wsIssued || (slotRuns b k 4 && c.op = 1 && c.df = 0),
                          preempted := bk.preempted && !(cop = 0x0D && bit (scImm w) 0 && !urgent) }
      if cop = 0x08 then { bk with ended := some (bits (scImm w) 7 0) }
      else match transfer b k with
        | some t => { bk with pc := t }
        | none => if (innerLoop loops k.pc).isSome then { bk with atEnd := true } else { bk with pc := k.pc + 128 }

/-- The bundle that a core would issue next, on its running bank. -/
def nextBundle (s : State) (n : Nat) (urgent : Bool) : Nat := bundleAt s (bankOf' (coreOf s n) urgent).pc

/-- The fetch unit reads the next bundle (R87, R88, R407). DESIGN CHOICE: what the read meets is met when the bundle would issue or be decoded, however far
ahead the unit reads. -/
def fetchNext (s : State) (n : Nat) (urgent : Bool) : State := checkRange s 0 (bankOf' (coreOf s n) urgent).pc 128

/-- The next bundle holds a poisoned granule. -/
def fetchBad (s : State) (n : Nat) (urgent : Bool) : Bool := !(badRanges s (bankOf' (coreOf s n) urgent).pc 128).isEmpty

/-- The next bundle is a preemption point of the normal bank that is not decoded yet (R373, R429). -/
def awaitsPoint (s : State) (n : Nat) (urgent : Bool) : Bool :=
  !urgent && ppMark (nextBundle s n urgent) && decide ((bankOf' (coreOf s n) urgent).decoded = 0) && !fetchBad s n urgent

/-- Bundles with nothing to perform issue one after the other (R408), up to a preemption point, a loop's end, a poisoned bundle, or the end of core SRAM;
the next bundle is fetched. -/
def skipNops : Nat → State → Nat → Bool → State
  | 0, s, _, _ => s
  | fuel + 1, s, n, urgent =>
    let k := bankOf' (coreOf s n) urgent
    let s := if inOwn n k.pc 128 then fetchNext s n urgent else s
    if inOwn n k.pc 128 && isNop (nextBundle s n urgent) && !fetchBad s n urgent && !awaitsPoint s n urgent && (innerLoop k.loops k.pc).isNone
        && inOwn n (k.pc + 128) 128 then
      skipNops fuel (issueEffects s n urgent (nextBundle s n urgent) 0 .alone {urgent := urgent, op := 0}) n urgent
    else s

/-- The reads of a bundle's slots below `upto` find what the stores hold (R87, R88, R402): registers, the accumulators of a drain, its scale table. -/
def meetReads (s : State) (n : Nat) (urgent : Bool) (b : Nat) (c : ArrayCmd) (upto : Nat) : State :=
  let k := coreOf s n
  let bk := bankOf' k urgent
  let runs (i : Nat) : Bool := decide (i < upto) && slotRuns b bk i
  let xs := (List.range 7).flatMap fun i => if runs i then slotReads b i else []
  let vs := (List.range 2).flatMap fun i => if runs (2 + i) then vectorReads (slotV b i) else []
  let drains := runs 4 && decide (c.op = 4)
  let s := meetFlips s n fun st p =>
    (decide (st = 4) && (xs.any (fun r => decide (p = regPlace urgent r)) || vs.any fun r => decide (p = vregPlace urgent r)))
      || (drains && drainReads k c st p)
  let q := xr bk (bits (slotA b) 227 223)
  if drains && inOwn n q (8 * c.table.length) then checkRange s 0 q (8 * c.table.length) else s

/-- The unit that a row's instructions belong to. -/
inductive SlotKind where
  | s | c | v | a | m
deriving DecidableEq, Repr

/-- A bundle holds one of the opcodes `ops` in a slot of a kind. A bundle with HPUSH or HPOP is issued by their own row, whose operands it
needs. -/
def holdsRow (b : Nat) (kind : SlotKind) (ops : List Nat) : Bool :=
  let c := scOp false (slotC b)
  if (c = 0x10 || c = 0x11) && !(kind = .c && ops.contains c) then false
  else match kind with
    | .s => ops.contains (scOp true (slotS b))
    | .c => ops.contains c
    | .v => ops.contains (vOp (slotV b 0)) || ops.contains (vOp (slotV b 1))
    | .a => ops.contains (aOp (slotA b))
    | .m => ops.contains (mOp (slotM b 0)) || ops.contains (mOp (slotM b 1))

/-- A preemption-point bundle of the normal bank is decoded (R373, R379, R498): it is no preemption point while an array command of the bank is in flight, which
PP_BUSY reports with the lowest busy array, 0, since every command drives all four (R380); an urgent start that waits is taken. -/
def decodePoint (s : State) (n : Nat) : State :=
  if (coreOf s n).cmds.any fun c => !c.urgent then
    updCore (hwFault s (P.ash n) 0x0B 0) n fun k => { k with normal := { k.normal with decoded := 2 } }
  else updCore s n fun k => match k.waitUrgent with
    | some j => beginJob { k with held := true, waitUrgent := none } j
    | none => { k with normal := { k.normal with decoded := 1 } }

/-- The array command of the next bundle. The A slot has no IMM16: operand B of IMMSEL 1 is a free value. -/
def readyCmd (s : State) (n : Nat) (urgent : Bool) : State × ArrayCmd :=
  let bk := bankOf' (coreOf s n) urgent
  let b := nextBundle s n urgent
  let f := if slotRuns b bk 4 && aSel (slotA b) = 1 then fresh s 64 else (s, aOperand b bk)
  (f.1, bundleCmd f.1 b bk urgent f.2)

/-- The next bundle waits for a stall cycle, takes its exception or issues (R393, R396, R399). -/
def tryIssue (s : State) (n : Nat) (urgent : Bool) (cycles : Nat) (meet : HodMeet) : State :=
  let bk := bankOf' (coreOf s n) urgent
  let b := nextBundle s n urgent
  let upto := (illegalSlot b bk).getD 7
  let f := readyCmd s n urgent
  let c := f.2
  match waitFor n (coreOf f.1 n) urgent b c upto with
  | some w => updCore (bump f.1 (R.ASH_STALL n w.1) 31 0 1) n fun k => { k with stalled := true }
  | none =>
    let s := meetReads f.1 n urgent b c upto
    match bundleExc s n (coreOf s n) urgent b c with
    | some e => takeException s n urgent e
    | none => issueEffects s n urgent b cycles meet c

/-- The next bundle of a core, which holds an instruction of the row, issues, waits (one stall cycle) or takes its exception; a preemption point that a stall
holds is decoded again first (R498). A bundle that holds something reserved stands for every row, and so does a poisoned one; DEDUCED: that one takes POISON_USE
(R90, R397: what the core fetches it uses), and a bundle address outside core SRAM, which no transfer checked, takes WINDOW (R407, R424). -/
def issueBundle (n : Nat) (kind : SlotKind) (ops : List Nat) (cycles : Nat) (meet : HodMeet) (start : State) : State :=
  match bankAtWork start n with
  | none => start
  | some urgent =>
    let s := skipNops 131072 start n urgent
    let k := coreOf s n
    let bk := bankOf' k urgent
    let b := nextBundle s n urgent
    if bk.ended.isSome || bk.atEnd then start
    else if !inOwn n bk.pc 128 then takeException s n urgent { cause := EX.window, slot := 7, addr := some (bk.pc % 2 ^ 48) }
    else if awaitsPoint s n urgent || !(holdsRow b kind ops || (illegalSlot b bk).isSome || isNop b || fetchBad s n urgent) then start
    else if fetchBad s n urgent then takeException s n urgent { cause := EX.poisonUse, slot := 7, addr := some bk.pc }
    else
      let s := if k.stalled && !urgent && ppMark b then decodePoint s n else s
      if runningBank (coreOf s n) ≠ some urgent then s else tryIssue s n urgent cycles meet

/-- The stall in progress stops the arrays (R393, R497). DEDUCED: a wait that only an array command can end does not. -/
def arraysHeld (s : State) (n : Nat) : Bool :=
  (coreOf s n).stalled && match runningBank (coreOf s n) with
    | none => false
    | some u =>
      let bk := bankOf' (coreOf s n) u
      let b := nextBundle s n u
      (waitFor n (coreOf s n) u b (bundleCmd s b bk u (aOperand b bk)) ((illegalSlot b bk).getD 7)).any fun w => !w.2

/-- The next bundle presents requests that may have to wait or that ask something of the windows: a scalar access outside core SRAM, HPUSH or HPOP, or what
Stop Bath does with a job that an exception aborts. -/
def presents (n : Nat) (start : State) : Bool :=
  match bankAtWork start n with
  | none => false
  | some urgent =>
    let s := skipNops 131072 start n urgent
    let bk := bankOf' (coreOf s n) urgent
    let b := nextBundle s n urgent
    let o := scOp true (slotS b)
    let c := scOp false (slotC b)
    let f := readyCmd s n urgent
    let t := meetReads f.1 n urgent b f.2 ((illegalSlot b bk).getD 7)
    !inOwn n bk.pc 128 || fetchBad s n urgent || (bundleExc t n (coreOf t n) urgent b f.2).isSome
      || (slotRuns b bk 0 && decide (0x40 ≤ o) && decide (o ≤ 0x4B) && !inOwn n (sAddress b bk) 1) || (slotRuns b bk 1 && (c = 0x10 || c = 0x11))

/-- The row of a core's instructions; `host` are the completions that reads of host memory meet. -/
def issueRow (n : Nat) (kind : SlotKind) (ops : List Nat) (cycles : Nat) (meet : HodMeet) (host : List Cpl) (s : State) :
    Host.Outcome State Fault Refusal :=
  if presents n s then served host (fun s => .next (issueBundle n kind ops cycles meet s)) s else .next (issueBundle n kind ops cycles meet s)

end Sys2Proof.Machine
end

