-- ==== Sys2Proof/Machine/ArrayRows.lean ====
section
/-!
DEFINITION. Machine/ArrayRows.lean: the rows of the array commands (14 R444 to R460). A row names the slot and the opcodes of its instructions; the bundle
that holds one issues whole.
-/
namespace Sys2Proof.Machine
open Sys2Proof

/-- MMA (R448). -/
def execMma (core : Nat) (s : State) : Host.Outcome State Fault Refusal :=
  issueRow core .a [0x01] 0 .alone [] s

/-- DRAIN (R458). -/
def execDrain (core : Nat) (s : State) : Host.Outcome State Fault Refusal :=
  issueRow core .a [0x04] 0 .alone [] s

/-- ACLR (R460). -/
def execAclr (core : Nat) (s : State) : Host.Outcome State Fault Refusal :=
  issueRow core .a [0x05] 0 .alone [] s

end Sys2Proof.Machine
end

