-- ==== Sys2Proof/Machine/ConfigSpace.lean ====
section
/-!
DEFINITION. Machine/ConfigSpace.lean: the configuration space of the functions (05 R130 to R133, R164, R796), its registers laid out as PCI Express Base
Specification 4.0 and SR-IOV give them (PRESUMED), and configuration requests.
-/
namespace Sys2Proof.Machine
open Sys2Proof

/-- The bits of AER's uncorrectable and correctable registers that are not hardwired to 0 (R164). -/
def uncBits : Nat := 0x005FF010
def corBits : Nat := 0x0000F1C1

/-- A dword of the configuration space that software writes without a further effect. -/
def cfgWord (s : State) (fn off : Nat) : Nat := SMap.getD (funcOf s fn).cfg off 0

/-- The writable bits of those dwords: of the PF, and of a VF. -/
def cfgMask (fn off : Nat) : Nat :=
  if fn ≠ 0 then (if off = 0x68 then 0x0000000F else if off = 0x118 then 0x00000140 else 0)
  else match off with
    | 0x04 => 0x00000540
    | 0x0C => 0x000000FF
    | 0x10 => 0xFFFC0000
    | 0x14 => 0xFFFF0000
    | 0x18 => 0xF0000000
    | 0x1C => 0xFFFFFFFF
    | 0x20 => 0xFFF80000
    | 0x24 => 0xFFFFFFFF
    | 0x3C => 0x000000FF
    | 0x68 => 0x0000000F
    | 0x70 => 0x000000C8
    | 0x90 => 0x0000000F
    | 0x118 => 0x00000140
    | 0x1F4 => 0xFFFFC000
    | 0x1F8 => 0xFFFFFFFF
    | 0x1FC => 0xF0000000
    | 0x200 => 0xFFFFFFFF
    | _ => 0

/-- Registers that the PF and the VFs share: the PCI Express capability, MSI-X and AER. -/
def cfgCommon (s : State) (fn off : Nat) : Nat :=
  let f := funcOf s fn
  let c := cfgWord s fn off
  match off with
  | 0x08 => 0x12000001
  | 0x2C => 0x1F8B + s.boot.otp.subsystem % 65536 * 65536
  | 0x50 => 0x6011 + ((if fn = 0 then 2047 else 63) + b2n f.fmask * 2 ^ 14 + b2n f.msixEn * 2 ^ 15) * 2 ^ 16
  | 0x54 => if fn = 0 then 0x00000001 else 0x00001000
  | 0x58 => if fn = 0 then 0x00008001 else 0x00001800
  | 0x60 => 0x00020010
  | 0x64 => 0x10008022
  | 0x68 => c + b2n f.relaxed * 2 ^ 4 + f.mps * 2 ^ 5 + b2n f.extTag * 2 ^ 8 + f.mrrs * 2 ^ 12
              + b2n (s.pci.outstanding.any (·.fn = fn)) * 2 ^ 21
  | 0x6C => 0x00410884
  | 0x70 => if fn = 0 then c + b2n f.aspmL1 * 2 + s.pci.speed * 2 ^ 16 + s.pci.width * 2 ^ 20 + 2 ^ 28 else 0
  | 0x84 => 0x00030017
  | 0x88 => if fn = 0 then f.cplValue + b2n f.cplDisable * 2 ^ 4 + b2n f.tag10 * 2 ^ 12 else 0
  | 0x8C => 0x0000001E
  | 0x100 => 0x14820001
  | 0x104 => f.uncStatus
  | 0x108 => f.uncMask
  | 0x10C => f.uncSev
  | 0x110 => f.corStatus
  | 0x114 => f.corMask
  | 0x118 => c + f.firstErr + 0xA0
  | 0x11C => nth f.hdrLog 0 0
  | 0x120 => nth f.hdrLog 1 0
  | 0x124 => nth f.hdrLog 2 0
  | 0x128 => nth f.hdrLog 3 0
  | _ => c

/-- The dword at a configuration-space offset (R130 to R133). -/
def cfgRead (s : State) (fn off : Nat) : Nat :=
  let f := funcOf s fn
  if fn ≠ 0 then
    match off with
    | 0x00 => 0x0097FFFF
    | 0x04 => 0x00100000 + b2n f.bme * 4
    | 0x34 => 0x50
    | 0x148 => 0x0001000E
    | _ => cfgCommon s fn off
  else
    let c := cfgWord s 0 off
    match off with
    | 0x00 => 0x00961F8B
    | 0x04 => 0x00100000 + c + b2n f.mse * 2 + b2n f.bme * 4
    | 0x18 => c + 0xC
    | 0x20 => c + 0x4
    | 0x34 => 0x40
    | 0x40 => 0x00035001
    | 0x44 => 0x00000008 + b2n f.d3 * 3
    | 0x90 => if (f.cfg.get 0x90).isSome then c else 4
    | 0x148 => 0x15810003
    | 0x14C => s.boot.otp.dieId % 2 ^ 32
    | 0x150 => s.boot.otp.dieId / 2 ^ 32 % 2 ^ 32
    | 0x158 => 0x17810019
    | 0x178 => 0x1A010026
    | 0x1A0 => 0x1C810027
    | 0x1C8 => 0x1D01000E
    | 0x1D0 => 0x00010010
    | 0x1D4 => 0x00000002
    | 0x1D8 => b2n s.pci.vfEnable + b2n s.pci.vfMse * 8 + b2n s.pci.ari * 16
    | 0x1DC => 0x00080008
    | 0x1E0 => s.pci.numVfs
    | 0x1E4 => (if s.pci.ari then 1 else 0x0100) + 0x00010000
    | 0x1E8 => 0x00970000
    | 0x1EC => 1
    | 0x1F0 => 1
    | 0x1F4 => c + 0x4
    | 0x1FC => c + 0xC
    | _ => cfgCommon s 0 off

/-- `old` with the enabled bytes of `w`. -/
def byEnables (be old w : Nat) : Nat :=
  ((List.range 4).map fun k => (if bit be k then bits w (8 * k + 7) (8 * k) else bits old (8 * k + 7) (8 * k)) * 2 ^ (8 * k)).sum

/-- The fields of Device Control that the endpoint acts on. -/
def deviceControl (w : Nat) (f : Func) : Func :=
  { f with relaxed := bit w 4, mps := bits w 7 5, extTag := bit w 8, mrrs := bits w 14 12 }

/-- Device Control 2 of the PF: a reserved Completion Timeout Value counts as 0b0000 (R796). -/
def deviceControl2 (w : Nat) (f : Func) : Func :=
  { f with cplValue := if [0, 1, 2, 5, 6, 9, 10].contains (bits w 3 0) then bits w 3 0 else 0, cplDisable := bit w 4, tag10 := bit w 12 }

/-- Command, MSI-X control and AER: what a write of `w` at `off` sets, where `hit` holds the written bits that are 1. -/
def cfgFields (fn off w hit : Nat) (f : Func) : Func :=
  match off with
  | 0x04 => { f with mse := fn = 0 && bit w 1, bme := bit w 2 }
  | 0x44 => if fn = 0 ∧ (bits w 1 0 = 0 ∨ bits w 1 0 = 3) then { f with d3 := bit w 0 } else f
  | 0x50 => { f with fmask := bit w 30, msixEn := bit w 31 }
  | 0x68 => deviceControl w f
  | 0x70 => { f with aspmL1 := fn = 0 && bit w 1 }
  | 0x88 => if fn = 0 then deviceControl2 w f else f
  | 0x104 => { f with uncStatus := f.uncStatus &&& (2 ^ 32 - 1 - hit) }
  | 0x108 => { f with uncMask := w &&& uncBits }
  | 0x10C => { f with uncSev := w &&& uncBits }
  | 0x110 => { f with corStatus := f.corStatus &&& (2 ^ 32 - 1 - hit) }
  | 0x114 => { f with corMask := w &&& corBits }
  | _ => f

/-- The SR-IOV control: clearing VF Enable resets the VFs that it disables (R166). -/
def sriovControl (s : State) (w : Nat) : State :=
  let s := if s.pci.vfEnable && !bit w 0 then clearVfEnable s else s
  { s with pci := { s.pci with vfEnable := bit w 0, vfMse := bit w 3, ari := bit w 4 } }

/-- A configuration write of the dword at `off` with byte enables. -/
def cfgWrite (s : State) (fn off be data : Nat) : State :=
  let w := byEnables be (cfgRead s fn off) data
  let hit := byEnables be 0 data
  if fn = 0 ∧ off = 0x1D8 then sriovControl s w
  else if fn = 0 ∧ off = 0x1E0 then
    if s.pci.vfEnable then s else { s with pci := { s.pci with numVfs := w % 65536 } }
  else if off = 0x68 ∧ bit hit 15 then (if fn = 0 then resetPf s else resetVf s fn)
  else
    let s := updFunc s fn fun f => cfgFields fn off w hit { f with cfg := SMap.put f.cfg off (w &&& cfgMask fn off) 0 }
    resumeSends s fn

/-- The endpoint answers the host: its reset has ended and its link is up (R170, R171). -/
def answers (s : State) : Bool := !s.boot.held && !s.pci.inReset && decide (s.pci.speed ≠ 0) && !(nth s.isl 1 {}).fenced

/-- A request to a function: what the endpoint answers where no such function exists (R798) or a function-level reset of it runs (R166, R167). -/
def turnedAway (s : State) (fn : Nat) (posted write : Bool) (len : Nat) (hdr : List Nat) : Option State :=
  let ur (s : State) (fn : Nat) : State := if posted then s else completeUr s fn
  if fn ≠ 0 ∧ !vfOn s fn then some (ur (unsupported s 0 posted write len hdr none) 0)
  else if (funcOf s fn).flr then some (ur s fn)
  else none

/-- CONFIG_REQUEST (R133, R171): a Type 0 configuration read or write of the dword at `reg`. -/
def execConfigRequest (fn reg : Nat) (write : Bool) (be : Nat) (data : W32) (hdr : List Nat) (s : State) : Host.Outcome State Fault Refusal :=
  let off := reg % 0x1000 / 4 * 4
  let s := inbound s
  if !answers s then .next s
  else match turnedAway s fn false write 4 hdr with
    | some t => .next t
    | none =>
      if write then .next (cfgWrite (sendHost s (.completion fn 0 false [])) fn off be data.toNat)
      else .next (sendHost s (.completion fn 0 false (leBytes 4 (cfgRead s fn off))))

end Sys2Proof.Machine
end

