-- ==== Sys2Proof/Machine/ControlRows.lean ====
section
/-!
DEFINITION. Machine/ControlRows.lean: the rows of the control instructions (13 R423 to R432). A row names the slot and the opcodes of its instructions; the bundle
that holds one issues whole.
-/
namespace Sys2Proof.Machine
open Sys2Proof

/-- BR (R423). -/
def execBr (core : Nat) (s : State) : Host.Outcome State Fault Refusal :=
  issueRow core .c [0x01] 0 .alone [] s

/-- JAL (R423). -/
def execJal (core : Nat) (s : State) : Host.Outcome State Fault Refusal :=
  issueRow core .c [0x02] 0 .alone [] s

/-- JR (R424). -/
def execJr (core : Nat) (s : State) : Host.Outcome State Fault Refusal :=
  issueRow core .c [0x03] 0 .alone [] s

/-- LOOP (R427). -/
def execLoop (core : Nat) (s : State) : Host.Outcome State Fault Refusal :=
  issueRow core .c [0x04] 0 .alone [] s

/-- LCLR (R423). -/
def execLclr (core : Nat) (s : State) : Host.Outcome State Fault Refusal :=
  issueRow core .c [0x05] 0 .alone [] s

/-- LRD (R423). -/
def execLrd (core : Nat) (s : State) : Host.Outcome State Fault Refusal :=
  issueRow core .c [0x06] 0 .alone [] s

/-- ENDJOB (R425). -/
def execEndjob (core : Nat) (s : State) : Host.Outcome State Fault Refusal :=
  issueRow core .c [0x08] 0 .alone [] s

/-- FENCE (R423). -/
def execFence (core : Nat) (s : State) : Host.Outcome State Fault Refusal :=
  issueRow core .c [0x09] 0 .alone [] s

/-- MWAIT (R438). -/
def execMwait (core : Nat) (s : State) : Host.Outcome State Fault Refusal :=
  issueRow core .c [0x0A] 0 .alone [] s

/-- AWAIT (R423). -/
def execAwait (core : Nat) (s : State) : Host.Outcome State Fault Refusal :=
  issueRow core .c [0x0B] 0 .alone [] s

/-- RDSTAT (R426). -/
def execRdstat (core : Nat) (s : State) : Host.Outcome State Fault Refusal :=
  issueRow core .c [0x0C] 0 .alone [] s

/-- CLRSTAT (R423). -/
def execClrstat (core : Nat) (s : State) : Host.Outcome State Fault Refusal :=
  issueRow core .c [0x0D] 0 .alone [] s

/-- HPUSH (R430); `cycles` is the time of an admission to an urgent queue. -/
def execHpush (core cycles : Nat) (s : State) : Host.Outcome State Fault Refusal :=
  issueRow core .c [0x10] cycles .alone [] s

/-- HPOP (R430); `meet` and `host` as of DEVICE_POP. -/
def execHpop (core : Nat) (meet : HodMeet) (host : List Cpl) (s : State) : Host.Outcome State Fault Refusal :=
  issueRow core .c [0x11] 0 meet host s

/-- HPEEK (R423). -/
def execHpeek (core : Nat) (s : State) : Host.Outcome State Fault Refusal :=
  issueRow core .c [0x12] 0 .alone [] s

/-- QALLOC (R431). -/
def execQalloc (core : Nat) (s : State) : Host.Outcome State Fault Refusal :=
  issueRow core .c [0x18] 0 .alone [] s

/-- QFREE (R431). -/
def execQfree (core : Nat) (s : State) : Host.Outcome State Fault Refusal :=
  issueRow core .c [0x19] 0 .alone [] s

/-- SVC (R432). -/
def execSvc (core : Nat) (s : State) : Host.Outcome State Fault Refusal :=
  issueRow core .c [0x20] 0 .alone [] s

end Sys2Proof.Machine
end

