-- ==== Sys2Proof/Machine/CoreEvents.lean ====
section
/-!
DEFINITION. Machine/CoreEvents.lean: job starts and ends, preemption points, items, array commands and loop ends of a core (12 R373 to
R403, 13 R425 to R429, 14 R449 to R462, 15 R479 to R482).
-/
namespace Sys2Proof.Machine
open Sys2Proof

/-- How a message of the dispatcher to a bank travels (R75, R532). -/
def bankMessage (urgent : Bool) : Via := { dptVia with chan := if urgent then .urgent else .normal }

/-- A job start reaches its core (R373, R374): one that finds no bank running begins at once, a gated core wakes. DESIGN CHOICE: one
that finds its core OFF or fenced, or that its crossing has abandoned (R58), is lost, and its job is missed as an aborted one is (R536). -/
def startArrives (core : Nat) (urgent : Bool) (ns : Nat) (s : State) : State :=
  match s.dpt.starts.find? fun j => j.core = core && j.urgent = urgent with
  | none => s
  | some j =>
    let s := updDpt s fun d => { d with starts := d.starts.erase j }
    let gone := abandonTo s (bankMessage urgent) (19 + core)
    let s := match gone with | some x => dropAbandon s x | none => s
    if !islandRuns s (19 + core) || gone.any (fun x => !x.2.2) then settleParts (missAborted (dropAborts s core urgent) core j.job)
    else
      let j := { j with ns := ns }
      updCore (wake s (19 + core)) core fun k =>
        let k : Core := if urgent then { k with waitUrgent := some j } else { k with waitNormal := some j }
        if k.active = 0 then startWaiting k else k

/-- JOB_START. `ns` is the time from the trigger of an urgent job to the issue of its first bundle, as it is measured. -/
def execJobStart (core : Nat) (urgent : Bool) (ns : Nat) (s : State) : Host.Outcome State Fault Refusal :=
  serves [] (startArrives core urgent ns) s

/-- PREEMPTION_POINT (R373, R378, R379, R498): the preemption-point bundle that the normal bank would issue next, not decoded yet or held by a stall, is decoded;
`cycles` is the interval since the last one. -/
def execPreemptionPoint (core cycles : Nat) (start : State) : Host.Outcome State Fault Refusal :=
  if bankAtWork start core ≠ some false then .next start
  else
    let s := if ppMark (nextBundle start core false) then fetchNext start core false else skipNops 131072 start core false
    let k := coreOf s core
    if !inOwn core k.normal.pc 128 || !ppMark (nextBundle s core false) || fetchBad s core false || k.normal.ended.isSome || k.normal.atEnd
        || (decide (k.normal.decoded ≠ 0) && !k.stalled) then .next start
    else
      let s := if rb s (R.ASH_MODE core) 4 && k.cmds.all (·.urgent) then peak s (R.ASH_PP core) 31 16 cycles else s
      .next (decodePoint s core)

/-- PP_LATE (R378): the interval of the normal bank exceeds ASH_PP.LIMIT; captured once for the interval. -/
def execPpLate (core cycles : Nat) (s : State) : Host.Outcome State Fault Refusal :=
  let k := coreOf s core
  if bankAtWork s core ≠ some false ∨ !rb s (R.ASH_MODE core) 4 ∨ cycles ≤ rf s (R.ASH_PP core) 15 0 then .next s
  else
    let s := peak s (R.ASH_PP core) 31 16 cycles
    if k.late then .next s
    else .next (updCore (raise (hwFault s (P.ash core) 0x0A (min cycles 65535)) (P.ash core) 10) core fun k => { k with late := true })

/-- The registers of an item are written, or marked failed (R393, R397), those of an aborted job too (R396). -/
def arrive (b : Bank) (it : Item) (r : Nat × List Nat × Bool) : Bank :=
  let b := { b with items := b.items.erase it }
  if r.1 > 1 then
    { b with failed := it.regs.foldl (fun f x => if x = 0 then f else SMap.set f x (r.1, it.addr)) b.failed,
             endFailed := if b.ended.isSome then some (r.1, it.addr) else b.endFailed }
  else writeBank b { froms := it.addr.toList.flatMap fun a => it.regs.map fun x => (x, a), xs := (it.regs.zip r.2.1).map fun p => (p.1, p.2 % 2 ^ 64, r.2.2 || decide (r.1 = 1)) }

/-- ITEM_ARRIVE (R393): an answered item of a bank reaches its registers. -/
def execItemArrive (core : Nat) (urgent : Bool) (index : Nat) (s : State) : Host.Outcome State Fault Refusal :=
  match (bankOf' (coreOf s core) urgent).items[index]? with
  | none => .next s
  | some it => match it.res with
    | none => .next s
    | some r =>
      let s := if r.1 ≤ 1 then touchRegs s core ((it.regs.filter (· ≠ 0)).map (regPlace urgent)) else s
      let s := updCore s core fun k => updBank' k urgent fun b => arrive b it r
      .next (if it.cause = 10 then (injFire s 8 fun a => a % 8 = core).1 else s)

/-- STALL_TIMEOUT (R395): the stalled bundle takes the exception. -/
def execStallTimeout (core : Nat) (s : State) : Host.Outcome State Fault Refusal :=
  let k := coreOf s core
  match bankAtWork s core with
  | some u => if k.stalled then serves [] (fun s => takeException s core u { cause := EX.stallTimeout, slot := 7 }) s else .next s
  | none => .next s

/-- All that ENDJOB waits for is complete (R425, R482, R533): the end is reported, or REQ_FAILED taken where any of it failed. -/
def endJob (core : Nat) (s : State) : State :=
  let k := coreOf s core
  match bankAtWork s core with
  | none => s
  | some u =>
    let b := bankOf' k u
    match b.ended, b.job with
    | some code, some j =>
      let broken := (k.movers.flatMap fun q => q).findSome? fun m => if m.urgent = u then m.failed else none
      match b.endFailed, broken with
      | some f, _ => takeException s core u { cause := EX.reqFailed, slot := 1, st := f.1, addr := f.2 }
      | none, some f => takeException s core u { cause := EX.reqFailed, slot := 1, st := f.1, addr := some f.2 }
      | none, none =>
        if !answered k u then s
        else jobEnded (updCore (reportCounts s core u) core fun k => leaveBank k u) core j code (satAdd 32 b.accSat b.outSat) b.mismatch
    | _, _ => s

/-- JOB_END. -/
def execJobEnd (core : Nat) (s : State) : Host.Outcome State Fault Refusal := serves [] (endJob core) s

/-- JOB_ABORT (R482, R535): the abort message stops the bank's job, whose counts are reported; nothing is captured. DESIGN CHOICE: a job that waits at the
core, or whose start is still on its way, does not begin; a message that its crossing has abandoned (R58) stops nothing. -/
def execJobAbort (core : Nat) (urgent : Bool) (s : State) : Host.Outcome State Fault Refusal :=
  if !s.dpt.aborts.contains (core, urgent) then .next s
  else
    let s := updDpt s fun d => { d with aborts := d.aborts.erase (core, urgent) }
    let gone := abandonTo s dptVia (19 + core)
    let s := match gone with | some x => dropAbandon s x | none => s
    if gone.any (fun x => !x.2.2) then .next s
    else if (bankOf' (coreOf s core) urgent).job.isNone then
      let s := updDpt s fun d => { d with starts := d.starts.filter fun w => w.core ≠ core ∨ w.urgent ≠ urgent }
      .next (settleParts (updCore s core fun k => if urgent then { k with waitUrgent := none } else { k with waitNormal := none }))
    else .next (settleParts (updCore (reportCounts (svcAbort s (bankOf' (coreOf s core) urgent)) core urgent) core fun k => leaveBank k urgent))

/-- Saturations of array commands that count: of A0 and A2 alone in paired-lane mode (R480). -/
def countSats (paired : Bool) (xs : List Nat) : Nat :=
  (xs.zipIdx.map fun e => if paired && decide (e.2 % 2 = 1) then 0 else e.1).sum

/-- A pair that differs in a drain (R390, R391). -/
def pairMismatch (s : State) (n : Nat) (urgent : Bool) (k : Core) (c : ArrayCmd) (p : Nat) : State :=
  match pairDiffers k c p with
  | none => s
  | some j =>
    let first := !(bankOf' (coreOf s n) urgent).mismatch
    let s := bump (wb s (R.ASH_PAIR_STATUS n) p true) (R.ASH_PAIR_COUNT n) (16 * p + 15) (16 * p) 1
    let s := if first then hwFault s (P.ash n) 0x0C (p + (c.c0 * 16 + j) * 65536) else s
    raise (updCore s n fun k => updBank' k urgent fun b => { b with mismatch := true }) (P.ash n) 9

/-- The effect of a drain (R453 to R459). What a word that its read finds uncorrectable gives is written poisoned (R90). -/
def runDrain (s : State) (n : Nat) (c : ArrayCmd) : State :=
  let j := injFire (meetFlips s n (drainReads (coreOf s n) c)) 3 fun a => a % 8 = n
  let s := j.1
  let k := coreOf s n
  let x := accKey (2 * bits s.flt.injArg 4 4 + 1) c.row (c.c0 * 16)
  let k : Core := if j.2 then { k with acc := SMap.put k.acc x (SMap.getD k.acc x 0 ^^^ 1) 0 } else k
  let paired := rb s (R.ASH_MODE n) 5
  let r := drainRows k c paired
  let s := if paired then (List.range 2).foldl (fun s p => pairMismatch s n c.urgent k c p) s else s
  let s := r.1.foldl (fun s w =>
    let o := c.rowAt w.1 w.2.1
    let bad := drainBad k c paired w.1 w.2.1
    if c.toBuf then writeBuffer s n 2 c.dh w.1 o w.2.2 bad
    else after (localWrite s o w.2.2 bad)) s
  let s := if c.clr then flipStore (overwriteAcc s n c.row c.m (c.c0 * 16) c.n) n 3 (accKey 0 c.row (c.c0 * 16)) else s
  updCore s n fun k =>
    let k := if c.clr then clearAcc k c.row c.m (c.c0 * 16) c.n else k
    updBank' k c.urgent fun b => { b with outSat := satAdd 32 b.outSat (countSats paired r.2) }

/-- ARRAY_COMMAND_COMPLETE (R449, R462): the oldest array command takes effect and leaves the array unit; none while a stall holds the arrays (R393, R497). -/
def execArrayCommandComplete (core : Nat) (s : State) : Host.Outcome State Fault Refusal :=
  match if islandRuns s (19 + core) && !arraysHeld s core then (coreOf s core).cmds else [] with
  | [] => .next s
  | c :: _ =>
    let s := match c.op with
      | 1 =>
        let paired := rb s (R.ASH_MODE core) 5
        let s := meetFlips s core (mmaReads (coreOf s core) c)
        let s := overwriteAcc s core c.row c.m 0 c.n
        let s := updCore s core fun k =>
          let r := runMma k c
          updBank' r.1 c.urgent fun b => { b with accSat := satAdd 32 b.accSat (countSats paired r.2) }
        flipStore s core 3 (accKey 0 c.row 0)
      | 4 => runDrain s core c
      | _ => updCore (flipStore (overwriteAcc s core c.row c.m 0 512) core 3 (accKey 0 c.row 0)) core fun k => clearAcc k c.row c.m 0 512
    .next (updCore s core fun k => { k with cmds := k.cmds.tail })

/-- The end bundle of an active loop has issued (R427, R428); a bundle with nothing to perform issues here, or takes the exception of its transfer (R424). -/
def evaluateEnd (core : Nat) (start : State) : State :=
  match bankAtWork start core with
  | none => start
  | some u =>
    let s := if (bankOf' (coreOf start core) u).atEnd then start else skipNops 131072 start core u
    let b := bankOf' (coreOf s core) u
    let w := nextBundle s core u
    let empty := inOwn core b.pc 128 && isNop w && !fetchBad s core u && !awaitsPoint s core u && (innerLoop b.loops b.pc).isSome
    if b.ended.isSome || !(b.atEnd || empty) then start
    else
      match if b.atEnd then none else bundleExc s core (coreOf s core) u w { urgent := u, op := 0 } with
      | some e => takeException s core u e
      | none =>
        let s := if b.atEnd then s else issueEffects s core u w 0 .alone { urgent := u, op := 0 }
        updCore s core fun k => updBank' k u fun b =>
          let r := evalLoops 4 b.loops b.pc
          { b with loops := r.1, pc := r.2, atEnd := false, decoded := 0 }

/-- LOOP_END_EVALUATE. -/
def execLoopEndEvaluate (core : Nat) (s : State) : Host.Outcome State Fault Refusal := serves [] (evaluateEnd core) s

end Sys2Proof.Machine
end

