-- ==== Sys2Proof/Machine/DispatchRows.lean ====
section
/-!
DEFINITION. Machine/DispatchRows.lean: the commands with which the dispatcher takes batch records from a queue (17), and those of the DRAM controllers
that abort jobs or let Stop Bath read on (06).
-/
namespace Sys2Proof.Machine
open Sys2Proof

/-- DISPATCH_NORMAL (17 R527, R529, R546, 18 R580): a free normal bank receives a prompt, steady or bulk job. -/
def execDispatchNormal (core : Nat) (meet : HodMeet) (host : List Cpl) (s : State) : Host.Outcome State Fault Refusal :=
  serves host (dispatchNormal core meet) s

/-- DISPATCH_URGENT (17 R530, R546, 18 R582). -/
def execDispatchUrgent (meet : HodMeet) (host : List Cpl) (s : State) : Host.Outcome State Fault Refusal := serves host (dispatchUrgent meet) s

/-- DEADLINE_PASS (17 R544 to R548): the armed deadline of a model passes. -/
def execDeadlinePass (model : Nat) (meet : HodMeet) (host : List Cpl) (s : State) : Host.Outcome State Fault Refusal :=
  serves host (deadlinePass model meet) s

/-- RETRAIN_WINDOW (06 R208, R209, R211). -/
def execRetrainWindow (sub : Nat) (t : Train) (s : State) : Host.Outcome State Fault Refusal := serves [] (retrainWindow sub t) s

/-- DRAM_ALERT (06 R211, R214). -/
def execDramAlert (sub : Nat) (replay : Bool) (s : State) : Host.Outcome State Fault Refusal := serves [] (dramAlert sub replay) s

/-- ALERT_RECOVERY (06 R212, R213). -/
def execAlertRecovery (sub : Nat) (parity crc : Bool) (s : State) : Host.Outcome State Fault Refusal := serves [] (alertRecovery sub parity crc) s

/-- LAYOUT_READY (06 R217). -/
def execLayoutReady (s : State) : Host.Outcome State Fault Refusal := serves [] layoutReady s

/-- ISLAND_FENCE (03 R68, 24 R726). -/
def execIslandFence (isl : Nat) (s : State) : Host.Outcome State Fault Refusal := serves [] (islandFence isl) s

end Sys2Proof.Machine
end

