-- ==== Sys2Proof/Machine/HodRows.lean ====
section
/-!
DEFINITION. Machine/HodRows.lean: the commands that write and read the rings of queues (07 R229, R231, R238, R239, R253 to R258).
-/
namespace Sys2Proof.Machine
open Sys2Proof

/-- QUEUE_DISABLE_DONE (R227). -/
def execQueueDisableDone (queue : Nat) (s : State) : Host.Outcome State Fault Refusal := servesIf (queueDisableDone queue) s

/-- PUSH_COMMIT (R229). -/
def execPushCommit (queue : Nat) (s : State) : Host.Outcome State Fault Refusal := servesIf (pushCommit queue) s

/-- TRIGGER_PUSH (R230, R242). -/
def execTriggerPush (queue count cycles : Nat) (hold : Bool) (s : State) : Host.Outcome State Fault Refusal :=
  servesIf (triggerPush queue count cycles hold) s

/-- DOORBELL_PUSHED (R248). -/
def execDoorbellPushed (req : Req) (queue count ack cycles : Nat) (hold : Bool) (s : State) : Host.Outcome State Fault Refusal :=
  servesIf (doorbellPushed req queue count ack cycles hold) s

/-- DOORBELL_POPPED (R248). -/
def execDoorbellPopped (req : Req) (queue count ack : Nat) (meet : HodMeet) (s : State) : Host.Outcome State Fault Refusal :=
  servesIf (fun s => doorbell s req (queue % 65536) (count % 2 ^ 17 + 2 ^ 17 + ack % 32 * 2 ^ 24) 0 meet) s

/-- DOORBELL_ACK (R247): a doorbell with COUNT 0. -/
def execDoorbellAck (req : Req) (queue ack : Nat) (s : State) : Host.Outcome State Fault Refusal :=
  servesIf (fun s => doorbell s req (queue % 65536) (ack % 32 * 2 ^ 24) 0 .alone) s

/-- DEVICE_POP (R231): the pop of a device consumer. -/
def execDevicePop (req : Req) (queue count : Nat) (meet : HodMeet) (host : List Cpl) (s : State) : Host.Outcome State Fault Refusal :=
  served host (fun s =>
    let r := hodPop s req 1 (queue % 65536) count meet
    .next (answer r.1 r.2.1 r.2.2.data r.2.2.bad)) s

/-- DEVICE_PUSH (R229, R242). -/
def execDevicePush (req : Req) (queue : Nat) (entries : List (List Byte)) (bad : List Nat) (cycles : Nat) (hold : Bool) (s : State) :
    Host.Outcome State Fault Refusal :=
  served [] (devicePush req queue entries bad cycles hold) s

/-- COPY_COMPLETE (R257). -/
def execCopyComplete (queue cycles : Nat) (s : State) : Host.Outcome State Fault Refusal :=
  served [] (copyComplete queue cycles) s

/-- CQ_PUSH_RETRY (R258). -/
def execCqPushRetry (queue cycles : Nat) (s : State) : Host.Outcome State Fault Refusal :=
  served [] (cqPushRetry queue cycles) s

/-- COPY_DESCRIPTOR (R255): any descriptor that is not a FILL. -/
def execCopyDescriptor (queue : Nat) (meet : HodMeet) (host : List Cpl) (s : State) : Host.Outcome State Fault Refusal :=
  let q := queue % 65536
  if copyReady s q && decide (nextOpcode s q host ≠ 2) then served host (fun s => .next (copyStart s q meet)) s else .next s

/-- FILL_DESCRIPTOR (R253, R254). -/
def execFillDescriptor (queue : Nat) (meet : HodMeet) (host : List Cpl) (s : State) : Host.Outcome State Fault Refusal :=
  let q := queue % 65536
  if copyReady s q && decide (nextOpcode s q host = 2) then served host (fun s => .next (copyStart s q meet)) s else .next s

end Sys2Proof.Machine
end

