-- ==== Sys2Proof/Machine/Module.lean ====
section
/-!
DEFINITION. Machine/Module.lean: the Jione module and Fypajo (25): supply and states, host supervision, thermal trip, safety conditions, the column ledger,
the mailbox, CAN FD frames.
-/
namespace Sys2Proof.Machine
open Sys2Proof

/-- `s` with the module changed. -/
def updMod (s : State) (f : Module → Module) : State := { s with jione := f s.jione }

/-- Fypajo runs: VIN is at least 5.0 V (R732). -/
def fypOn (s : State) : Bool := decide (5000 ≤ s.jione.mv)

/-- The die runs and answers Fypajo. -/
def dieUp (s : State) : Bool := s.boot.powered && !s.boot.held

/-- The module has left STANDBY. -/
def modOn (s : State) : Bool := s.jione.rails || s.boot.powered

/-- A software record of Fypajo: written now where the die runs, else owed (R734, R742). -/
def fypRecord (s : State) (code : Nat) (params : List Nat) : State :=
  if dieUp s then softRecord s .fyp code params
  else updMod s fun j => { j with later := j.later ++ [{ code := code, params := params }] }

/-! CAN FD frames (R754). -/

/-- A frame with identifier BASE + `k`: its six bytes, the alive counter, the CRC-8. -/
def sendCan (s : State) (k : Nat) (data : List Byte) : State :=
  let j := s.jione
  if !fypOn s || j.resetting || !j.canEn then s
  else
    let a := nth j.alive k 0
    let b := padTo 6 data ++ leBytes 1 a
    let b := b ++ leBytes 1 (crc8 0x1D 0xFF b)
    updMod s fun j => { j with alive := updAt j.alive k (fun n => (n + 1) % 16), frames := (j.canBase + k, b) :: j.frames }

/-- LEVEL of the alert path's capability. -/
def capLevel (s : State) : Nat := audCap s % 4

/-- Bytes 0 to 5 of the STATUS frame while the die is powered. -/
def statusBytes (s : State) : List Byte :=
  let j := s.jione
  let b0 := j.st % 8 + 8 * b2n (faultLow s) + 16 * b2n j.lost + 32 * b2n (rb s R.PLB_SENT 9) + 64 * capLevel s
  leBytes 1 b0 ++ leBytes 2 (rf s R.FLT_SAFE_STATUS 12 0) ++ leBytes 1 j.cause ++ leBytes 1 (unsx 8 (hottest s (List.range 24) / 8))
    ++ leBytes 1 (j.mv.toNat / 100)

/-- A STATUS frame; what it says of a die that is not powered is a free value. -/
def statusFrame (s : State) : State :=
  if s.boot.powered then sendCan s 1 (statusBytes s)
  else
    let r := fresh s 27
    let j := s.jione
    sendCan r.1 1 (leBytes 1 (j.st % 8 + 8 * b2n (faultLow s) + 16 * b2n j.lost + 32 * (r.2 % 8)) ++ leBytes 2 (r.2 / 8 % 65536) ++ leBytes 1 j.cause
      ++ leBytes 1 (r.2 / 2 ^ 19) ++ leBytes 1 (j.mv.toNat / 100))

/-- A DEGRADED frame with a cause. -/
def degradedFrame (s : State) (cause : Nat) : State :=
  let cap := audCap s
  let amp (c : Nat) : Nat := (rd s (R.AUD_AMP_DIAG c)).toNat &&& 0x73
  let s := sendCan s 2 (leBytes 1 (cap % 4) ++ leBytes 1 (bits cap 6 4 + 8 * b2n (rb s R.AUD_ALERT_CFG 19)) ++ leBytes 1 cause ++ leBytes 1 (amp 0)
    ++ leBytes 1 (amp 1))
  updMod s fun j => { j with degraded := cause % 256 }

/-- The cause of a capability below FULL: AMP, else MONITOR. -/
def capCause (s : State) : Nat :=
  if rf s (R.AUD_AMP_DIAG 0) 1 0 ≠ 0 ∨ rf s (R.AUD_AMP_DIAG 1) 1 0 ≠ 0 then 1 else 2

/-- The cause for which DEGRADED frames repeat, 0 where none persists (R747, R754). -/
def persisting (s : State) : Nat :=
  if s.jione.tripWait then 6
  else if !modOn s then (if s.jione.degraded = 7 then 7 else 0)
  else if phase s ≥ 8 then 3
  else if phase s ≠ 7 then 0
  else if rb s R.FLT_SAFE_STATUS 9 then 4
  else if capLevel s ≠ 0 then capCause s
  else if rb s R.FLT_SAFE_STATUS 1 then 5
  else if rb s R.FLT_SAFE_STATUS 6 then s.jione.degraded
  else 0

/-! Module states (R739). -/

/-- A condition of DEGRADED holds. -/
def modDegraded (s : State) : Bool := faultLow s || s.dpt.state.contains 3 || decide (capLevel s ≠ 0)

/-- The state that the module is in. -/
def modState (s : State) : Nat :=
  if !fypOn s then 0 else if !modOn s then 1 else if phase s ≠ 7 then 2 else if s.jione.lost then 5 else if modDegraded s then 4 else 3

/-- The module enters a state for a cause: record 0xD101, FYP_EVENTS.STATE, a STATUS frame. -/
def enterMod (s : State) (st cause : Nat) : State :=
  if st = s.jione.st then s
  else
    let s := fypRecord s 0xD101 [s.jione.st, st, cause]
    statusFrame (updMod s fun j => { j with st := st, cause := cause, events := j.events ||| 1 })

/-- The cause of a change to state `n` that the die or the host brings about. -/
def causeOf (s : State) (n : Nat) : Nat :=
  let old := s.jione.st
  if n = 5 then 6
  else if old = 5 then 7
  else if n = 2 then (if phase s ≥ 8 then 0x0B else if s.boot.cause = 1 then 8 else 0x0A)
  else if old = 2 then 2
  else if n = 4 then (if faultLow s then 4 else if s.dpt.state.contains 3 then 3 else 5)
  else if 3 ≤ s.jione.cause ∧ s.jione.cause ≤ 5 then s.jione.cause
  else 4

/-- Fypajo brings the module state up to date. -/
def settleMod (s : State) : State := let n := modState s; enterMod s n (causeOf s n)

/-- A cause for which the spec gives no code is a free value. -/
def shutCode (s : State) : ShutCause → State × Nat
  | .vin => (s, 8)
  | .trip => (s, 9)
  | .command => (s, 0x0A)
  | .wake => (s, 1)
  | .rail | .fabLost | .lockstep => fresh s 32

/-- FYP_STATE.CAUSE of a shutdown. -/
def shutState (s : State) : ShutCause → State × Nat
  | .vin | .rail => (s, 8)
  | .trip => (s, 9)
  | .command => (s, 0x0A)
  | .wake => (s, 1)
  | .fabLost => (s, 4)
  | .lockstep => fresh s 8

/-- The orderly shutdown (R734): record 0xD103, the die reset and unpowered, every rail off, STANDBY. -/
def shutDown (s : State) (why : ShutCause) : State :=
  if !modOn s then s
  else
    let r := shutCode s why
    let s := if fypOn s then fypRecord r.1 0xD103 [unsx 32 s.jione.mv, r.2]
      else updMod r.1 fun j => { j with later := j.later ++ [{ code := 0xD103, params := [unsx 32 j.mv, r.2] }] }
    let s := updMod (powerOff s) fun j => { j with rails := false, perst := j.perst }
    let r := shutState s why
    enterMod r.1 (modState r.1) r.2

/-- The module leaves STANDBY (R737): the rails come up, DIE_RESET_N is low, SERVICE_N as the start asks. -/
def startDie (s : State) (service : Bool) (cause : Nat) : State :=
  let s := updMod s fun j => { j with rails := true, service := service, tripWait := false }
  enterMod s (modState s) cause

/-- VIN lies in the range of full operation (R732, R735). -/
def vinFull (s : State) : Bool := decide (9000 ≤ s.jione.mv) && decide (s.jione.mv ≤ 16000)

/-- Nothing keeps the module in STANDBY (R735). -/
def mayStart (s : State) : Bool :=
  fypOn s && !modOn s && vinFull s && s.jione.wake && !s.jione.tripWait && !s.jione.stay && !s.jione.resetting

/-- The mailbox registers at the values of the register map (a reset of Fypajo). -/
def mailboxReset (j : Module) : Module :=
  { j with beat := 0, hbMs := 500, linkMs := 200, events := 0, evtEn := 0, arg := 0, result := 0, done := false, moving := true, heard := none }

/-! The supply (R732 to R738). -/

/-- VIN inside the survival range (R732, R734). -/
def vinTo (mv : Int) (ma : Nat) (s : State) : State :=
  let was := fypOn s
  let s := updMod s fun j => { j with mv := mv, ma := ma }
  let s := if mv < 6000 then shutDown (if modOn s then updMod s fun j => { j with events := j.events ||| 16 } else s) .vin else s
  let s := if was && !fypOn s then updMod s mailboxReset else s
  enterMod s (modState s) 8

/-- VIN_CHANGE (R732). -/
def execVinChange (mv : Int) (ma : Nat) (s : State) : Host.Outcome State Fault Refusal :=
  if mv < -16000 ∨ 18000 < mv then .fault .vinOutsideSurvival else .next (vinTo mv ma s)

/-- VIN_RANGE_TIMEOUT (R732): VIN has lain between 6 V and 9 V for 200 ms, or above 16 V for 1 s. -/
def execVinRangeTimeout (s : State) : Host.Outcome State Fault Refusal :=
  if !modOn s || vinFull s then .next s
  else
    let s := updMod s fun j => { j with events := j.events ||| 16 }
    .next (degradedFrame (shutDown s .vin) 7)

/-- ORDERLY_SHUTDOWN (R734). -/
def execOrderlyShutdown (why : ShutCause) (s : State) : Host.Outcome State Fault Refusal := .next (shutDown s why)

/-- A new WAKE cycle begins (R740, R743, R745 to R747). -/
def wakeRises (s : State) : State :=
  updMod s fun j => { j with wake := true, wakeAt := s.clock, beaten := false, linked := false, trips := 0, mismatches := 0, fabRestarts := 0,
                             stay := false }

/-- MODULE_START (R735, R737): `rose` where WAKE has risen since the last start. -/
def execModuleStart (rose : Bool) (s : State) : Host.Outcome State Fault Refusal :=
  let s := if rose && fypOn s then wakeRises s else s
  .next (if mayStart s then startDie s false 1 else s)

/-- RAIL_FAULT (R738): the shutdown; the restart is MODULE_START. -/
def execRailFault (s : State) : Host.Outcome State Fault Refusal := .next (shutDown s .rail)

/-- WAKE_TIMEOUT (R753): WAKE has been low for 1 s. -/
def execWakeTimeout (s : State) : Host.Outcome State Fault Refusal :=
  .next (updMod (shutDown s .wake) fun j => { j with wake := false })

/-! Supervision of the host (R740, R741). -/

/-- The link that Fypajo sees: PCI_LINK_STATUS.SPEED, which reads 0 of a fenced island 1 (24 R726). -/
def linkSeen (s : State) : Bool := decide (s.pci.speed ≠ 0) && !(island s 1).fenced

/-- PERST_N is high and the link is up. -/
def hostThere (s : State) : Bool := s.jione.perst && linkSeen s

/-- The host is no longer lost. -/
def hostBack (s : State) : State := settleMod (updMod s fun j => { j with lost := false })

/-- A write of FYP_HEARTBEAT: one that changes it is a heartbeat. -/
def heartbeat (s : State) (count : Nat) : State :=
  if s.jione.st = 0 ∨ count = s.jione.beat then s
  else
    let s := updMod s fun j => { j with beat := count, beaten := true }
    if s.jione.lost && hostThere s then hostBack s else s

/-- HEARTBEAT (R740). -/
def execHeartbeat (count : W32) (s : State) : Host.Outcome State Fault Refusal := .next (heartbeat s count.toNat)

/-- HOST_LOST (R740): the time of a condition has passed. -/
def execHostLost (why : HostLoss) (s : State) : Host.Outcome State Fault Refusal :=
  let j := s.jione
  let holds := match why with
    | .heartbeat => decide (j.hbMs ≠ 0) && j.beaten
    | .perst => j.linked && !j.perst
    | .link => j.linked && !linkSeen s
  .next (if fypOn s && holds then settleMod (updMod s fun j => { j with lost := true }) else s)

/-! Fypajo itself, the thermal trip, safety conditions (R742 to R747). -/

/-- LOCKSTEP_MISMATCH (R743): Fypajo resets itself; the second of a WAKE cycle shuts the module down. -/
def execLockstepMismatch (s : State) : Host.Outcome State Fault Refusal :=
  if !fypOn s then .next s
  else
    let n := s.jione.mismatches + 1
    let s := updMod s fun j => { j with mismatches := n }
    if n ≥ 2 then .next (updMod (shutDown s .lockstep) fun j => { j with stay := true })
    else .next (updMod s fun j => { mailboxReset j with resetting := true })

/-- LOCKSTEP_RESET_DONE (R743): the die's state is read, a STATUS frame and record 0xD106 follow. -/
def execLockstepResetDone (s : State) : Host.Outcome State Fault Refusal :=
  if !s.jione.resetting then .next s
  else
    let s := settleMod (updMod s fun j => { j with resetting := false })
    .next (fypRecord (statusFrame s) 0xD106 [])

/-- THERMAL_TRIP_OFF (R744 to R746): the converter is off; Fypajo completes the shutdown, counts and records the trip. The unit of the time since WAKE
rose is not given: a free value. -/
def execThermalTripOff (s : State) : Host.Outcome State Fault Refusal :=
  if !modOn s then .next s
  else
    let j := s.jione
    let r := fresh s 32
    let rec4 := [r.2, unsx 32 j.cold, unsx 32 j.reg, unsx 32 j.mv]
    let s := updMod (powerOff r.1) fun j => { j with rails := true }
    let s := updMod (shutDown s .trip) fun j =>
      { j with trips := min 255 (j.trips + 1), total := min (2 ^ 24 - 1) (j.total + 1), tripLog := rec4 :: j.tripLog, tripWait := true,
               stay := j.stay || decide (j.trips + 1 ≥ 3), events := j.events ||| 8, later := j.later ++ [{ code := 0xD104, params := rec4 }] }
    .next (degradedFrame s 6)

/-- TRIP_RESTART (R745): 10 s have passed and the cold plate has read below 85 °C for 1 s; a third trip of the WAKE cycle waits for WAKE (R746). -/
def execTripRestart (s : State) : Host.Outcome State Fault Refusal :=
  if !s.jione.tripWait || s.jione.stay || decide (s.jione.cold ≥ 680) then .next s
  else
    let s := updMod s fun j => { j with tripWait := false }
    .next (if mayStart s then startDie s false 9 else s)

/-- Fypajo's own DEGRADED haptic pattern is driven once, unless an alert plays (R747). -/
def fypHaptic (s : State) (always : Bool) : State :=
  if s.aud.alert.isSome && !always then s else updMod s fun j => { j with patterns := j.patterns + 1 }

/-- DEGRADED frames of the safety bits that have risen. -/
def risenFrames (s : State) (rises : Nat) : State :=
  let s := if bit rises 3 then fypHaptic (degradedFrame s (capCause s)) false else s
  let s := if bit rises 1 then fypHaptic (degradedFrame s 5) false else s
  if bit rises 6 then let r := fresh s 8; fypHaptic (degradedFrame r.1 r.2) false else s

/-- FYP_SAFETY_SAMPLE (R747): FAULT_N, FLT_SAFE_STATUS, the boot phase and the host's return. -/
def execFypSafetySample (s : State) : Host.Outcome State Fault Refusal :=
  if !fypOn s || s.jione.resetting then .next s
  else
    let old := s.jione.sampled
    let now := if dieUp s then rf s R.FLT_SAFE_STATUS 12 0 else 0
    let low := faultLow s
    let back := s.jione.lost && !s.jione.beaten && hostThere s
    let s := settleMod (updMod s fun j => { j with sampled := now + b2n low * 2 ^ 13, lost := j.lost && !back })
    let s := if low && !bit old 13 then statusFrame s else s
    let s := if dieUp s && decide (phase s = 7) then risenFrames s (now &&& (2 ^ 13 - 1 - old % 2 ^ 13)) else s
    if dieUp s && decide (phase s ≥ 8) && decide (s.jione.cause ≠ 0x0B) then
      .next (degradedFrame (updMod s fun j => { j with cause := 0x0B }) 3)
    else .next s

/-- FAB_LOST (R747): the bit has held for 100 ms; at most two restarts of the die in a WAKE cycle. -/
def execFabLost (s : State) : Host.Outcome State Fault Refusal :=
  if !(dieUp s && decide (phase s = 7) && rb s R.FLT_SAFE_STATUS 9) || s.jione.resetting then .next s
  else
    let s := fypHaptic (degradedFrame s 4) true
    if s.jione.fabRestarts ≥ 2 then .next s
    else
      let s := updMod (shutDown s .fabLost) fun j => { j with fabRestarts := j.fabRestarts + 1 }
      .next (if mayStart s then startDie s false 4 else s)

/-- COOLANT_UPDATE (R742): the sensors, and PLB_T_COOL from step 9 of the bring-up. -/
def execCoolantUpdate (cold reg : Int) (s : State) : Host.Outcome State Fault Refusal :=
  let s := updMod s fun j => { j with cold := cold, reg := reg }
  if dieUp s && fypOn s && !s.jione.resetting && (decide (phase s = 6) || decide (phase s = 7)) then
    .next (pageWrite s .fyp R.PLB_T_COOL 4 (unsx 16 cold)).1
  else .next s

/-! The column ledger (R748 to R750, 26 R778). -/

/-- A copy of the ledger for a die: MAGIC, SEQUENCE, DIE_ID, bitmap, CRC-32. -/
def ledgerCopy (seq die : Nat) (bitmap : List Byte) : List Byte :=
  let b := leBytes 4 0x47444C43 ++ leBytes 4 seq ++ leBytes 8 die ++ bitmap
  b ++ leBytes 4 (crc32 b)

/-- A copy is whole. -/
def copyOk (b : List Byte) : Bool := decide (b.length = 2068) && decide (field b 0 4 = 0x47444C43) && decide (field b 2064 4 = crc32 (b.take 2064))

/-- The copy that governs. -/
def governing (s : State) : Option Nat :=
  let c (k : Nat) : List Byte := nth s.jione.copies k []
  match copyOk (c 0), copyOk (c 1) with
  | true, true => some (if field (c 0) 4 4 < field (c 1) 4 4 then 1 else 0)
  | true, false => some 0
  | false, true => some 1
  | false, false => none

/-- The governing bitmap. -/
def fypBitmap (s : State) : List Byte :=
  match governing s with
  | none => List.replicate 2048 0
  | some k => ((nth s.jione.copies k []).drop 16).take 2048

/-- Fypajo writes the other copy with the next SEQUENCE. -/
def writeLedger (s : State) (bitmap : List Byte) : State :=
  let k := match governing s with | none => 0 | some k => 1 - k
  let seq := match governing s with | none => 1 | some k => (field (nth s.jione.copies k []) 4 4 + 1) % 2 ^ 32
  updMod s fun j => { j with copies := updAt j.copies k fun _ => ledgerCopy seq s.boot.otp.dieId bitmap, emptyLedger := false }

/-- The boot ROM awaits the ledger (step 3); a BLANK die does not boot (04 R124). -/
def ledgerOpen (s : State) : Bool := dieUp s && decide (phase s = 0) && !s.boot.ledgerIn && decide (s.boot.otp.lifecycle ≠ 0)

/-- The request ends with a ledger in the buffer. -/
def ledgerTaken (s : State) (bitmap : List Byte) : State :=
  wf (updBoot s fun b => { b with ledger := bitmap, ledgerIn := true }) R.BOOT_PHASE 3 0 1

/-- LEDGER_DELIVER (R749): the governing bitmap of this die, or an empty one. -/
def execLedgerDeliver (s : State) : Host.Outcome State Fault Refusal :=
  if !ledgerOpen s || !fypOn s || s.jione.resetting then .next s
  else
    let empty := List.replicate 2048 (0 : Byte)
    let mine := match governing s with
      | none => false
      | some k => decide (field (nth s.jione.copies k []) 8 8 = s.boot.otp.dieId)
    if !mine then .next (fypRecord (ledgerTaken (writeLedger s empty) empty) 0xD105 [0xFFFFFFFF])
    else if s.jione.emptyLedger then .next (ledgerTaken (writeLedger s empty) empty)
    else .next (ledgerTaken s (fypBitmap s))

/-- LEDGER_TIMEOUT (26 R778): an empty ledger after 2 ms. -/
def execLedgerTimeout (s : State) : Host.Outcome State Fault Refusal :=
  if !ledgerOpen s then .next s
  else .next (softRecord (ledgerTaken s (List.replicate 2048 0)) .boot 0xD105 [0xFFFFFFFE])

/-- Columns that a bitmap marks. -/
def columnCount (b : List Byte) : Nat := (b.map fun x => (bitList x.toNat 8).length).sum

/-- LEDGER_UPDATE (R750): the columns of the buffer that neither the fuses nor the ledger held are added. -/
def execLedgerUpdate (s : State) : Host.Outcome State Fault Refusal :=
  if !dieUp s || !fypOn s || !((List.range 8).any fun n => rb s (R.ASH_CLASS n) 5) then .next s
  else
    let old := fypBitmap s
    let fuses := (List.range 32).flatMap fun i => leBytes 64 (nth s.boot.otp.fuses i 0)
    let new := (List.range 2048).map fun i =>
      nth old i 0 ||| (nth s.boot.ledger i 0 &&& ~~~ (nth fuses i 0))
    if columnCount new = columnCount old then .next s
    else .next (fypRecord (writeLedger s new) 0xD105 [columnCount new - columnCount old])

/-! The mailbox (R751, R752). -/

/-- What an accepted command does. -/
def fypRun (s : State) (cmd : Nat) : State :=
  match cmd with
  | 1 => let s := shutDown s .command; if mayStart s then startDie s false 0x0A else s
  | 2 => let s := shutDown s .command; if mayStart s then startDie s true 0x0A else s
  | 3 => updMod (shutDown s .command) fun j => { j with stay := true }
  | 4 => updMod s fun j => { j with emptyLedger := true }
  | _ => updMod s fun j => { j with canBase := j.arg % 2048, canEn := bit j.arg 16 }

/-- A write of FYP_CMD: `wake` is WAKE at that moment (R753). STATUS: 0 OK, 2 KEY, 3 MOVING, 4 STATE, 5 BAD_CMD. -/
def fypCommand (s : State) (cmd key : Nat) (wake : Bool) : State :=
  let status :=
    if key % 65536 ≠ 0xA55A then 2
    else if cmd = 0 ∨ cmd > 5 then 5
    else if s.jione.wake && !wake then 4
    else if cmd ≤ 3 ∧ s.jione.moving then 3
    else if cmd = 4 ∧ ¬(dieUp s ∧ phase s = 8) then 4
    else 0
  if s.jione.st = 0 then s
  else
    let s := if status = 0 then fypRun s cmd else s
    updMod s fun j => { j with result := status, done := true }

/-- RESTART (R752). -/
def execRestart (key : Nat) (wake : Bool) (s : State) : Host.Outcome State Fault Refusal := .next (fypCommand s 1 key wake)

/-- SERVICE_BOOT (R752). -/
def execServiceBoot (key : Nat) (wake : Bool) (s : State) : Host.Outcome State Fault Refusal := .next (fypCommand s 2 key wake)

/-- SHUTDOWN (R752). -/
def execShutdown (key : Nat) (wake : Bool) (s : State) : Host.Outcome State Fault Refusal := .next (fypCommand s 3 key wake)

/-- LEDGER_CLEAR (R750, R752). -/
def execLedgerClear (key : Nat) (wake : Bool) (s : State) : Host.Outcome State Fault Refusal := .next (fypCommand s 4 key wake)

/-- CAN_SET (R752). -/
def execCanSet (key : Nat) (wake : Bool) (s : State) : Host.Outcome State Fault Refusal := .next (fypCommand s 5 key wake)

/-- A value of FYP_HOST_CFG outside its range leaves a free value. -/
def hostCfg (s : State) (w : Nat) : State :=
  let hb := w % 65536
  let link := w / 65536
  let r := fresh s 32
  let okHb := decide (hb = 0) || (decide (100 ≤ hb) && decide (hb ≤ 10000))
  let okLink := decide (50 ≤ link) && decide (link ≤ 5000)
  let s := if okHb && okLink then s else r.1
  updMod s fun j => { j with hbMs := if okHb then hb else r.2 % 65536, linkMs := if okLink then link else r.2 / 65536 }

/-- A 32-bit write of a mailbox register. -/
def mailboxSet (s : State) (off w : Nat) : State :=
  match off with
  | 0x08 => heartbeat s w
  | 0x0C => hostCfg s w
  | 0x10 => updMod s fun j => { j with events := j.events &&& (31 - w % 32) }
  | 0x14 => updMod s fun j => { j with evtEn := w % 32 }
  | 0x20 => fypCommand s (w % 256) (w / 65536) s.jione.wake
  | 0x24 => updMod s fun j => { j with arg := w }
  | _ => s

/-- MAILBOX_WRITE (R751): whole aligned registers, the offset advancing by 4. -/
def execMailboxWrite (off : Nat) (data : List Byte) (s : State) : Host.Outcome State Fault Refusal :=
  if s.jione.st = 0 ∨ off % 4 ≠ 0 ∨ data.length % 4 ≠ 0 then .next s
  else .next ((List.range (data.length / 4)).foldl (fun s k => mailboxSet s (off + 4 * k) (field data (4 * k) 4)) s)

/-- MGMT_INT_N is low (R751). -/
def mgmtInt (s : State) : Bool := decide (s.jione.events &&& s.jione.evtEn ≠ 0)

/-- The mailbox registers as the host reads them (25 Register map). -/
def mailboxWord (s : State) (off : Nat) : Nat :=
  let j := s.jione
  match off with
  | 0x00 => 0x00F2 + Config.fypVersion.1 % 256 * 2 ^ 16 + Config.fypVersion.2 % 256 * 2 ^ 24
  | 0x04 => j.st + j.cause * 2 ^ 8 + b2n j.lost * 2 ^ 16 + b2n (faultLow s) * 2 ^ 17 + b2n j.moving * 2 ^ 18 + b2n j.tripWait * 2 ^ 19
  | 0x08 => j.beat
  | 0x0C => j.hbMs + j.linkMs * 2 ^ 16
  | 0x10 => j.events
  | 0x14 => j.evtEn
  | 0x18 => j.mv.toNat % 65536 + j.ma % 65536 * 2 ^ 16
  | 0x1C => unsx 16 j.cold + unsx 16 j.reg * 2 ^ 16
  | 0x24 => j.arg
  | 0x28 => j.result + b2n j.done * 2 ^ 8
  | 0x2C => columnCount (fypBitmap s) % 4096
  | 0x30 => j.trips + j.total * 2 ^ 8
  | 0x34 => j.canBase + b2n j.canEn * 2 ^ 16
  | 0x38 => b2n j.moving
  | _ => 0

/-! The periodic frames and VEHICLE (R754, R755). -/

/-- ALERT_FRAME (R754): at the start of an alert, while it plays, once at its end. -/
def execAlertFrame (s : State) : Host.Outcome State Fault Refusal :=
  let w := audAlertState s
  match s.aud.alert with
  | some a =>
    let s := sendCan s 0 (leBytes 1 a.level ++ leBytes 1 a.tone ++ leBytes 1 (bits w 12 10) ++ leBytes 1 (1 + 2 * bits w 9 8))
    .next (updMod s fun j => { j with playing := true, events := if j.playing then j.events else j.events ||| 2 })
  | none =>
    if s.jione.playing then .next (updMod (sendCan s 0 [0, 0, 0, 0]) fun j => { j with playing := false }) else .next s

/-- STATUS_FRAME (R754). -/
def execStatusFrame (s : State) : Host.Outcome State Fault Refusal := .next (statusFrame s)

/-- DEGRADED_FRAME (R754): a cause begins or persists, or has ended. -/
def execDegradedFrame (s : State) : Host.Outcome State Fault Refusal :=
  match persisting s with
  | 0 => if s.jione.degraded = 0 then .next s else .next (updMod (degradedFrame s s.jione.degraded) fun j => { j with degraded := 0 })
  | c => .next (degradedFrame s c)

/-- VEHICLE (R755): accepted with a good CRC and a counter that differs from the last. -/
def execVehicle (data : List Byte) (s : State) : Host.Outcome State Fault Refusal :=
  let n := field data 6 1 % 16
  if !fypOn s || s.jione.resetting || decide (data.length ≠ 8) || decide (crc8 0x1D 0xFF (data.take 7) ≠ field data 7 1)
      || decide (s.jione.heard = some n) then .next s
  else .next (updMod s fun j => { j with heard := some n, moving := bit (field data 0 1) 0 })

/-- VEHICLE_TIMEOUT (R755). -/
def execVehicleTimeout (s : State) : Host.Outcome State Fault Refusal := .next (updMod s fun j => { j with moving := true })

end Sys2Proof.Machine
end

