-- ==== Sys2Proof/Machine/MortarRows.lean ====
section
/-!
DEFINITION. Machine/MortarRows.lean: requests on the Mortar mesh: injection, arrival at the destination agent, acknowledgement, and crossings that time out
(03 R58, R69 to R84, R790, R792).
-/
namespace Sys2Proof.Machine
open Sys2Proof

/-- A response reaches its requester. -/
def respond (s : State) (r : Response) : State := updMortar s fun m => { m with responses := r :: m.responses }

/-- The channel of a request that a requester presents at a stop (R75): urgent for a core whose urgent bank is active, and for the device's own urgent
messages, which come from Hod, the dispatcher and Stop Bath, the AON agent, and the trigger sources CSI, ETH and Easel; bulk where a chapter sets it, of cores
and engines; otherwise normal. -/
def channelFor (s : State) (req : Req) (src port : Nat) (chan : Chan) : Chan :=
  match req with
  | .core n => if (coreVia s n).chan = .urgent then .urgent else if chan = .bulk then .bulk else .normal
  | .hw => if chan = .urgent && !((src = 20 && port = 0) || src = 21 || src = 1 || (src = 5 && port = 0) || (src = 3 && port = 1)) then .normal else chan
  | _ => .normal

/-- The class that a request carries to DRAM (R188): of a core its job's, of an engine that of its stream or job. -/
def classFor (s : State) (req : Req) (cls : Option Nat) : Option Nat :=
  match req with
  | .core n => (coreVia s n).cls
  | .hw => cls
  | _ => none

/-- MORTAR_REQUEST_INJECT (R72, R74, R75, R83, R180, R792): a requester at a stop presents a read of `len` bytes, or a write of `data` with its poisoned
ranges. -/
def execMortarRequestInject (req : Req) (src port : Nat) (chan : Chan) (addr len : Nat) (data : Option (List Byte)) (bad : List (Nat × Nat))
    (cls : Option Nat) (s : State) : Host.Outcome State Fault Refusal :=
  if !islandRuns s 2 ∨ src ≥ 24 then .next s
  else
    let n := match data with | some bs => bs.length | none => len
    let id := s.mortar.nextId
    let c := channelFor s req src (port % 2) chan
    let k := classFor s req cls
    let s := updMortar s fun m => { m with nextId := id + 1 }
    match injectRefusal s c addr n with
    | some (st, cause) =>
      let info := (if cause = 5 then 0 else min n 1023) + src * 1024
      .next (respond (fault s P.mtr cause req info (some addr)) { id := id, status := st })
    | none =>
      let p : Packet := { id := id, req := req, src := src, port := port % 2, chan := c, addr := addr, len := n, data := data, bad := bad, cls := k }
      .next (updMortar s fun m => { m with flight := m.flight ++ [p] })

/-! Performance at the destination (R80, R81, R84). -/

/-- How a packet was presented. -/
def Packet.via (p : Packet) : Via := { req := p.req, stop := p.src, port := p.port, chan := p.chan, cls := p.cls }

/-- The destination performs a packet: the state after it and its response. -/
def perform (s : State) (p : Packet) : State × Response :=
  match p.data with
  | some bs =>
    let r := placeStore s p.via p.addr bs p.bad (decide (p.via.cls = some 3))
    (r.1, { id := p.id, status := r.2 })
  | none =>
    let r := placeLoad s p.via p.addr p.len
    (r.1, { id := p.id, status := r.2.st, data := r.2.data, bad := r.2.bad })

/-- The rank of a packet among those that reach an agent in one cycle (R81). -/
def rank (p : Packet) : Nat := (match p.chan with | .urgent => 0 | .normal => 1 | .bulk => 2) * 64 + p.src * 2 + p.port

/-- A packet put into a list in the order of R81, behind its equals. -/
def rankInsert (p : Packet × Nat) : List (Packet × Nat) → List (Packet × Nat)
  | [] => [p]
  | q :: qs => if rank p.1 < rank q.1 then p :: q :: qs else q :: rankInsert p qs

/-- The page that a packet reaches; table window accesses are ordered as accesses to the SYS page (R790). -/
def pageKey (p : Packet) : Option Nat :=
  match placeOf p.addr with
  | .pageWindow => some ((p.addr - 0x40000000) / 0x1000)
  | .tableWindow => some 0
  | _ => none

/-- The order of requesters at a page (R20). -/
def pageRank : Req → Nat
  | .fyp => 0
  | .boot => 1
  | .pf => 2
  | .vf v => 3 + v
  | .core n => 16 + n
  | .hw => 32

/-- A packet put into a list in the order of R20, behind its equals. -/
def pageInsert (p : Packet × Nat) : List (Packet × Nat) → List (Packet × Nat)
  | [] => [p]
  | q :: qs => if pageRank p.1.req < pageRank q.1.req then p :: q :: qs else q :: pageInsert p qs

/-- The packets that reach agents in one cycle, in the order in which they are performed: by R81, and those for one page among themselves by R20.
DESIGN CHOICE: R20 goes before R81 at a page. -/
def arrivalOrder (l : List (Packet × Nat)) : List (Packet × Nat) :=
  let l := l.foldl (fun l p => rankInsert p l) []
  let at_ (k : Option Nat) := l.filter fun x => pageKey x.1 = k
  l.mapIdx fun i x =>
    match pageKey x.1 with
    | none => x
    | some k => nth ((at_ (some k)).foldl (fun l p => pageInsert p l) []) ((l.take i).countP fun y => pageKey y.1 = some k) x

/-- The agent of a packet as one number. -/
def agentNo (s : State) (a : Nat) : Nat := (agentOf s a).1 * 2 + (agentOf s a).2

/-- A packet in flight from a requester to an agent on a channel that was issued before packet `id` (R78). -/
def earlier (s : State) (req : Req) (agent : Nat) (chan : Chan) (id : Nat) : Bool :=
  s.mortar.flight.any fun q => decide (q.id < id) && decide (q.req = req) && decide (q.chan = chan) && decide (agentNo s q.addr = agent)

/-- No earlier request of the same requester to the same agent on the same channel is still in flight (R78). -/
def inTurn (s : State) (p : Packet) : Bool := !earlier s p.req (agentNo s p.addr) p.chan p.id

/-! Responses return in the order of their requests (R57, R78). -/

/-- A response may return: no earlier request of its requester to its agent on its channel awaits its own response. -/
def mayReturn (s : State) (r : Reply) : Bool :=
  !earlier s r.req r.agent r.chan r.resp.id
    && !s.mortar.acks.any fun q => decide (q.resp.id < r.resp.id) && decide (q.req = r.req) && decide (q.chan = r.chan) && decide (q.agent = r.agent)

/-- `s` without a response that waits. -/
def dropReply (s : State) (r : Reply) : State := updMortar s fun m => { m with acks := m.acks.erase r }

/-- The responses that wait for nothing but earlier ones return, `n` at most; an acknowledgement waits for WRITE_ACK. -/
def drainReplies : Nat → State → State
  | 0, s => s
  | n + 1, s =>
    match s.mortar.acks.find? fun r => !r.write && mayReturn s r with
    | none => s
    | some r => drainReplies n (respond (dropReply s r) r.resp)

/-- A response is given by the agent: it joins those on their way, and those that may return do. -/
def reply (s : State) (p : Packet) (write : Bool) (r : Response) : State :=
  let x : Reply := { req := p.req, agent := agentNo s p.addr, chan := p.chan, write := write, resp := r }
  let s := updMortar s fun m => { m with acks := m.acks ++ [x] }
  drainReplies s.mortar.acks.length s

/-- An urgent packet's transit is recorded; above 240 cycles it is captured (R77). -/
def urgentTransit (s : State) (p : Packet) (t : Nat) : State :=
  if p.chan ≠ .urgent then s
  else
    let s := peak s R.MTR_URGENT_PEAK 15 0 t
    if t ≤ 240 then s
    else raise (fault s P.mtr 6 p.req (min t 0xFFFF + p.src * 2 ^ 16 + (agentOf s p.addr).1 * 2 ^ 21) (some p.addr)) P.mtr 10

/-- The destination accepts and performs a packet; a read is answered, a write waits for its acknowledgement. A packet that is not in turn, or whose
subchannel is held, stays. DESIGN CHOICE: the response to a read that its destination refuses counts with the data flits of a read that is performed. -/
def land (s : State) (e : Packet × Nat) : State :=
  let p := e.1
  if !inTurn s p then s
  else
    let t := updMortar s fun m => { m with flight := m.flight.filter (·.id ≠ p.id) }
    let t := urgentTransit (countFlits t p.chan (1 + match p.data with | some bs => dataFlits bs.length | none => 0)) p e.2
    let r := perform t p
    if r.1.mortar.io.blocked && !s.mortar.io.blocked then s
    else reply (if p.data.isSome then r.1 else countFlits r.1 p.chan (1 + dataFlits p.len)) p p.data.isSome r.2

/-- MORTAR_REQUEST_ARRIVE (R78, R81, R84): the packets named, with their transits in FAB cycles, reach their agents in one cycle; `host` are the host's
completions for reads of host memory. -/
def execMortarRequestArrive (arrivals : List (Nat × Nat)) (host : List Cpl) (s : State) : Host.Outcome State Fault Refusal :=
  if !islandRuns s 2 then .next s
  else
    let now := arrivals.filterMap fun e => (s.mortar.flight.find? fun p => p.id = e.1).map fun p => (p, e.2)
    served host (fun s => .next ((arrivalOrder now).foldl land s)) s

/-- WRITE_ACK (R71, R78, R80): the acknowledgement of a performed write, a packet of one header flit, reaches its requester; the responses behind it follow. -/
def execWriteAck (id : Nat) (s : State) : Host.Outcome State Fault Refusal :=
  match s.mortar.acks.find? fun r => r.write && decide (r.resp.id = id) && mayReturn s r with
  | none => .next s
  | some r => .next (drainReplies s.mortar.acks.length (respond (countFlits (dropReply s r) r.chan 1) r.resp))

/-- A crossing timeout is captured (R58). -/
def xingCapture (s : State) (dst src : Nat) : State :=
  bump (raise (hwFault s P.aon 1 (dst + src * 256)) P.aon 8) R.AON_XING_TIMEOUTS 15 0 1

/-- XING_TIMEOUT (R58): the crossing from island `src` to island `dst` abandons packet `id`, or with `resp` the response to it; the requester receives
ISLAND_OFF in its turn, and a write whose acknowledgement is abandoned was performed. A number that no packet has stands for the next request of an engine
at that crossing. A response is abandoned where it could return, a request whose response is abandoned is performed where it is in turn. -/
def execXingTimeout (dst src id : Nat) (resp : Bool) (host : List Cpl) (s : State) : Host.Outcome State Fault Refusal :=
  if s.boot.held ∨ dst ≥ 39 ∨ src ≥ 39 then .next s
  else
    match s.mortar.acks.find? (fun r => r.resp.id = id), s.mortar.flight.find? fun p => p.id = id with
    | some r, _ =>
      if !resp || !mayReturn s r then .next s
      else .next (drainReplies s.mortar.acks.length (respond (dropReply (xingCapture s dst src) r) { id := id, status := MS.islandOff }))
    | none, some p =>
      if resp && !inTurn s p then .next s
      else
        served host (fun s =>
          let t := updMortar (xingCapture s dst src) fun m => { m with flight := m.flight.filter (·.id ≠ id) }
          .next (reply (if resp then (perform t p).1 else t) p false { id := id, status := MS.islandOff })) s
    | none, none => .next (updMortar (xingCapture s dst src) fun m => { m with abandon := m.abandon ++ [(src, dst, resp)] })

end Sys2Proof.Machine
end

