-- ==== Sys2Proof/Machine/MoverRows.lean ====
section
/-!
DEFINITION. Machine/MoverRows.lean: the rows of the mover instructions (13 R434 to R442). A row names the slot and the opcodes of its instructions; the bundle
that holds one issues whole.
-/
namespace Sys2Proof.Machine
open Sys2Proof

/-- LOAD (R434). -/
def execLoad (core : Nat) (s : State) : Host.Outcome State Fault Refusal :=
  issueRow core .m [0x01] 0 .alone [] s

/-- STORE (R434). -/
def execStore (core : Nat) (s : State) : Host.Outcome State Fault Refusal :=
  issueRow core .m [0x02] 0 .alone [] s

/-- COPY (R434). -/
def execCopy (core : Nat) (s : State) : Host.Outcome State Fault Refusal :=
  issueRow core .m [0x03] 0 .alone [] s

/-- GATHER (R441). -/
def execGather (core : Nat) (s : State) : Host.Outcome State Fault Refusal :=
  issueRow core .m [0x04] 0 .alone [] s

/-- FILL (R434). -/
def execFill (core : Nat) (s : State) : Host.Outcome State Fault Refusal :=
  issueRow core .m [0x05] 0 .alone [] s

end Sys2Proof.Machine
end

