-- ==== Sys2Proof/Machine/PciTlp.lean ====
section
/-!
DEFINITION. Machine/PciTlp.lean: inbound memory requests: BARs, the MSI-X tables, the partition view with the partition controls of a VF, the pieces of
BAR index 2 (05 R134 to R143, R168, R798; 17 Register page).
-/
namespace Sys2Proof.Machine
open Sys2Proof

/-! MSI-X tables and pending bits (R160). -/

/-- The 16 bytes of a vector's entry. -/
def msixBytes (e : MsixEntry) : List Byte := leBytes 8 e.addr ++ leBytes 4 e.data ++ leBytes 4 (b2n e.masked)

/-- `n` bytes from byte `o` of a function's MSI-X table. -/
def msixRead (s : State) (fn o n : Nat) : List Byte :=
  (span o n).map fun k => nth (msixBytes (SMap.getD (funcOf s fn).table (k / 16) {})) (k % 16) 0

/-- A write within one dword of the table: a vector that becomes unmasked with its pending bit set sends (R161). -/
def msixWrite (s : State) (fn o : Nat) (bs : List Byte) : State :=
  let v := o / 16
  let e := SMap.getD (funcOf s fn).table v {}
  let b := putBytes (msixBytes e) (o % 16) bs
  let e : MsixEntry := { addr := field b 0 8, data := field b 8 4, masked := bit (field b 12 1) 0 }
  sendPending (updFunc s fn fun f => { f with table := SMap.put f.table v e {} }) fn v

/-- `n` bytes from byte `o` of a function's pending bits. -/
def pbaRead (s : State) (fn o n : Nat) : List Byte :=
  (span o n).map fun k => BitVec.ofNat 8 ((List.range 8).map fun j => b2n ((funcOf s fn).pba.contains (8 * k + j)) * 2 ^ j).sum

/-- The parts of a range of bytes that lie in one dword each: offset and bytes. -/
def dwordParts : Nat → Nat → List Byte → List (Nat × List Byte)
  | 0, _, _ => []
  | fuel + 1, o, bs =>
    if bs.isEmpty then []
    else
      let k := 4 - o % 4
      (o, bs.take k) :: dwordParts fuel (o + k) (bs.drop k)

/-! The partition view (R138, 17 Register page). -/

/-- The controls of partition `p`. -/
def viewOfPart (s : State) (p : Nat) : PartView := nth s.dpt.views p {}

/-- `s` with the controls of a partition changed. -/
def updView (s : State) (p : Nat) (f : PartView → PartView) : State := updDpt s fun d => { d with views := updAt d.views p f }

/-- The word at an offset below 0x1000 of the view of VF `p + 1`. -/
def viewWord (s : State) (p off : Nat) : Nat :=
  let v := viewOfPart s p
  match off with
  | 0x000 => p + (p + 1) * 256
  | 0x004 => nth s.dpt.state p 0
  | 0x008 => rf s (R.DPT_PART_CFG p) 7 0
  | 0x00C => v.first + v.count * 65536
  | 0x100 => v.ctrl
  | 0x104 => v.evt
  | 0x108 => v.evtEn
  | 0x10C => v.vector
  | 0x110 => v.misses
  | 0x180 | 0x184 | 0x188 | 0x18C | 0x190 => (nth v.qry ((off - 0x180) / 4) 0).toNat
  | _ => 0

/-- A read of a word of the view: COUNT of DPT_PV_MISSES clears. -/
def viewRead (s : State) (p off : Nat) : State × Nat :=
  (if off = 0x110 then updView s p fun v => { v with misses := 0 } else s, viewWord s p off)

/-- The bits of a register of the view that are not reserved; none where no register is listed. DEDUCED: bits that the tables do not list are reserved. -/
def viewMask (off : Nat) : Option Nat :=
  match off with
  | 0x000 => some 0xF07
  | 0x004 => some 7
  | 0x008 => some 0xFF
  | 0x00C => some 0x07FFFFFF
  | 0x100 => some 1
  | 0x104 | 0x108 => some 0xF
  | 0x10C => some 0x3F
  | 0x110 | 0x180 | 0x18C => some 0xFFFFFFFF
  | 0x184 => some 0x80000003
  | 0x188 => some 0x1F
  | 0x190 => some 0xFFFF
  | _ => none

/-- `s` with a word of the Quarry interface of a partition's view set. -/
def setViewQry (s : State) (p i w : Nat) : State := updView s p fun v => { v with qry := updAt v.qry i fun _ => BitVec.ofNat 32 w }

/-- The Quarry interface of VF `p + 1` acts under identity 45 + p, with the fields of the PF's. -/
def viewQuarry (s : State) (p op : Nat) : State :=
  let arg := (nth (viewOfPart s p).qry 0 0).toNat
  if op = 1 then
    let r := allocate s (45 + p) arg
    let s := setViewQry r.1 p 2 r.2.st
    let s := if r.2.st = QS.ok then setViewQry s p 0 r.2.handle else s
    setViewQry (setViewQry s p 3 (r.2.addr % 2 ^ 32)) p 4 (r.2.addr / 2 ^ 32)
  else
    let r := freeHandle s (.vf (p + 1)) (45 + p) arg
    setViewQry r.1 p 2 r.2

/-- EVT_STATUS or EVT_ENABLE of the view was written: a summary of 1 sends a fresh message (R38). -/
def viewNotice (s : State) (p : Nat) : State :=
  let v := viewOfPart s p
  if v.evt &&& v.evtEn ≠ 0 then sendMsix s (p + 1) v.vector else s

/-- A legal write of a partition control. -/
def viewSet (s : State) (p off w : Nat) : State :=
  match off with
  | 0x100 => settleParts (updView s p fun v => { v with ctrl := w })
  | 0x104 => viewNotice (updView s p fun v => { v with evt := v.evt &&& (15 - w) }) p
  | 0x108 => viewNotice (updView s p fun v => { v with evtEn := w }) p
  | 0x10C => updView s p fun v => { v with vector := w }
  | 0x180 => setViewQry s p 0 w
  | 0x184 =>
    let t := setViewQry s p 1 (w % 4)
    if bit w 31 then viewQuarry t p (w % 4) else t
  | _ => s

/-- A 32-bit write of the view, or a part of one (R19, R23, R30, R138): a register that only reads takes nothing. -/
def viewWrite (s : State) (p off w : Nat) (part : Bool) : State :=
  let bad (cause : Nat) : State := fault s (if off < 0x100 then P.pci else P.dpt) cause (.vf (p + 1)) w none
  match viewMask off with
  | none => s
  | some m =>
    if part then bad 0xF3
    else if w &&& (2 ^ 32 - 1 - m) ≠ 0 ∨ (off = 0x184 ∧ (w % 4 = 0 ∨ w % 4 = 3)) then bad 0xF0
    else viewSet s p off w

/-- The status with which the page behind an offset below 0x1000 of the view answers. -/
def viewStatus (s : State) (off : Nat) : Nat :=
  if off < 0x100 then MS.ok
  else ((pageRefusal s (Sys2Proof.Machine.hdr (if 0x180 ≤ off ∧ off ≤ 0x193 then P.qry else P.dpt) 0x100)).map (·.2)).getD MS.ok

/-- The first status that is neither OK nor POISON, else the worse of the two. -/
def joinStatus (a b : Nat) : Nat := if a > 1 then a else if b > 1 then b else max a b

/-- Reads of the words from offset `off` of the view: a status and the bytes. -/
def viewWords (p : Nat) : Nat → State → Nat → State × Nat × List Byte
  | 0, s, _ => (s, MS.ok, [])
  | n + 1, s, off =>
    let st := viewStatus s off
    let r := if st = MS.ok then viewRead s p off else (s, 0)
    let q := viewWords p n r.1 (off + 4)
    (q.1, joinStatus st q.2.1, leBytes 4 r.2 ++ q.2.2)

/-! Doorbells. -/

/-- A doorbell write of any size (R247): 8 bytes aligned, or the low word alone. -/
def doorbellTlp (s : State) (req : Req) (q o : Nat) (bs : List Byte) (cycles : Nat) : State :=
  if o % 8 = 0 ∧ (bs.length = 8 ∨ bs.length = 4) then doorbell s req q (ofLe bs) cycles .alone else fault s P.hod 8 req q none

/-- The doorbells of `n` queues from `q` on are read. -/
def doorbellWords (req : Req) : Nat → State → Nat → State × List Byte
  | 0, s, _ => (s, [])
  | n + 1, s, q =>
    let r := doorbellRead s req (q % 65536)
    let t := doorbellWords req n r.1 (q + 1)
    (t.1, leBytes 8 r.2 ++ t.2)

/-- `n` bytes from byte `o` of a doorbell window whose first queue is `first`. -/
def doorbellBytes (s : State) (req : Req) (first o n : Nat) : State × List Byte :=
  let r := doorbellWords req ((o + n - 1) / 8 + 1 - o / 8) s (first + o / 8)
  (r.1, (r.2.drop (o % 8)).take n)

/-- The status with which Hod's page answers a doorbell. -/
def doorbellStatus (s : State) : Nat := ((pageRefusal s (Sys2Proof.Machine.hdr P.hod 0x100)).map (·.2)).getD MS.ok

/-! Decoding an address (R134 to R138, R168). -/

/-- What a byte of a function's BARs reaches; `mem` carries the offset in BAR index 2. -/
inductive Target where
  | pages (off : Nat)
  | msix (off : Nat)
  | doorbells (off : Nat)
  | view (off : Nat)
  | mem (off : Nat)
deriving DecidableEq, Repr

/-- Offset of an address in a BAR of a base and size. -/
def barHit (base size a : Nat) : Option Nat := if base ≤ a ∧ a < base + size then some (a - base) else none

/-- What address `a` of function `fn` reaches, whatever its Memory Space Enable. -/
def decodeBar (s : State) (fn a : Nat) : Option Target :=
  let lo (off : Nat) : Nat := cfgWord s 0 off
  let wide (off : Nat) : Nat := lo off + lo (off + 4) * 2 ^ 32
  let hits : List (Option Target) :=
    if fn = 0 then
      [(barHit (lo 0x10) 0x40000 a).map .pages, (barHit (lo 0x14) 0x10000 a).map .msix,
       (barHit (wide 0x18) 0x10000000 a).map .mem,
       (barHit (wide 0x20) 0x80000 a).map .doorbells]
    else
      [(barHit (wide 0x1F4 + (fn - 1) * 0x4000) 0x4000 a).map .view, (barHit (wide 0x1FC + (fn - 1) * 0x10000000) 0x10000000 a).map .mem]
  hits.findSome? id

/-- The internal address of an offset in BAR index 2 of a function (R136, R137). -/
def barAddr (fn o : Nat) : Nat := if fn = 0 ∧ 0x0F000000 ≤ o then 0x41000000 + (o - 0x0F000000) else o

/-- The internal address of a target, where it has one. -/
def targetAddr (fn : Nat) : Target → Option Nat
  | .pages o => some (regAddr o)
  | .mem o => some (barAddr fn o)
  | _ => none

/-- The function's memory space is enabled and it is in D0. -/
def memOn (s : State) (fn : Nat) : Bool := (if fn = 0 then (funcOf s 0).mse else s.pci.vfMse) && !(funcOf s fn).d3

/-- Completer Abort is logged: with a read it is an error of a non-posted request. -/
def logAbort (s : State) (fn : Nat) (write : Bool) (hdr : List Nat) : State := if write then logAer s fn 15 hdr else logAdvisory s fn 15 hdr

/-- A refusal under R141 (R142): cause WINDOW, the count and PCI.REFUSAL, AER Completer Abort. -/
def windowRefused (s : State) (fn a : Nat) (write : Bool) (len : Nat) (hdr : List Nat) : State :=
  let s := bump (fault s P.pci 1 (fnReq fn) (tlpInfo fn write len) (some a)) R.PCI_REFUSALS 15 0 1
  logAbort (raise s P.pci 11) fn write hdr

/-- A piece failed with a Mortar status (R142). -/
def pieceFailed (s : State) (fn a st : Nat) (write : Bool) (hdr : List Nat) : State :=
  logAbort (fault s P.pci 7 (fnReq fn) (fn + st % 8 * 256) (some a)) fn write hdr

/-- How the endpoint presents the request of a function. -/
def tlpVia (fn : Nat) : Via := { engineVia 1 with req := fnReq fn }

/-- The requests that a TLP becomes: consecutive 32-bit register accesses (R139), or pieces at 512-byte boundaries (R140). -/
def tlpPieces (fn : Nat) (t : Target) (n : Nat) : List (Nat × Nat) :=
  match t with
  | .pages o => pieces 4 (n / 4 + 2) (regAddr o) n
  | .mem o => (piecesOf o n).map fun e => (barAddr fn e.1, e.2)
  | _ => []

/-- The pieces of a read, each performed (R140): a status and the data. -/
def readTlp (fn : Nat) : List (Nat × Nat) → State → State × Nat × List Byte
  | [], s => (s, MS.ok, [])
  | (a, n) :: ps, s =>
    let r := carryRead s (tlpVia fn) a n fun s => placeLoad s (tlpVia fn) a n
    let q := readTlp fn ps r.1
    (q.1, joinStatus r.2.st q.2.1, r.2.data ++ q.2.2)

/-- The pieces of a write, each performed; with `ep` every granule touched is marked poisoned. -/
def writeTlp (fn : Nat) (ep : Bool) : List (Nat × Nat) → State → List Byte → State × Nat
  | [], s, _ => (s, MS.ok)
  | (a, n) :: ps, s, bs =>
    let r := carryWrite s (tlpVia fn) a n fun s => placeStore s (tlpVia fn) a (bs.take n) (if ep then [(0, n)] else []) false
    let q := writeTlp fn ep ps r.1 (bs.drop n)
    (q.1, joinStatus r.2 q.2)

/-- A range from `o` of `n` bytes cut at the given rising bounds: (offset, length). -/
def cutAt : List Nat → Nat → Nat → List (Nat × Nat)
  | [], o, n => if n = 0 then [] else [(o, n)]
  | b :: bs, o, n =>
    if b ≤ o then cutAt bs o n
    else if o + n ≤ b then (if n = 0 then [] else [(o, n)])
    else (o, b - o) :: cutAt bs b (o + n - b)

/-- The bounds of the regions of the partition view of VF `fn` (R138), and of PF BAR index 1. -/
def viewBounds (s : State) (fn : Nat) : List Nat := [0x1000, 0x1400, 0x1800, 0x1808, 0x2000, 0x2000 + 8 * (viewOfPart s (fn - 1)).count]
def msixBounds : List Nat := [0x8000, 0x8100]

/-- A read within one region of the partition view of VF `fn`: a status and the bytes. -/
def readView (s : State) (fn o n : Nat) : State × Nat × List Byte :=
  let v := viewOfPart s (fn - 1)
  if o < 0x1000 then
    let r := viewWords (fn - 1) ((o + n - 1) / 4 + 1 - o / 4) s (o / 4 * 4)
    (r.1, r.2.1, (r.2.2.drop (o % 4)).take n)
  else if o < 0x1400 then (s, MS.ok, msixRead s fn (o - 0x1000) n)
  else if 0x1800 ≤ o ∧ o < 0x1808 then (s, MS.ok, pbaRead s fn (o - 0x1800) n)
  else if 0x2000 ≤ o ∧ o < 0x2000 + 8 * v.count then
    if doorbellStatus s ≠ MS.ok then (s, doorbellStatus s, List.replicate n 0)
    else
      let r := doorbellBytes s (fnReq fn) v.first (o - 0x2000) n
      (r.1, MS.ok, r.2)
  else (s, MS.ok, List.replicate n 0)

/-- A write within one region of the partition view of VF `fn`: a status. -/
def writeView (s : State) (fn o : Nat) (bs : List Byte) (cycles : Nat) : State × Nat :=
  let v := viewOfPart s (fn - 1)
  if o < 0x1000 then
    (dwordParts (bs.length + 1) o bs).foldl (fun a e =>
      let st := viewStatus a.1 e.1
      (if st = MS.ok then viewWrite a.1 (fn - 1) (e.1 / 4 * 4) (ofLe e.2) (decide (e.2.length < 4)) else a.1, joinStatus a.2 st)) (s, MS.ok)
  else if o < 0x1400 then ((dwordParts (bs.length + 1) (o - 0x1000) bs).foldl (fun s e => msixWrite s fn e.1 e.2) s, MS.ok)
  else if 0x2000 ≤ o ∧ o < 0x2000 + 8 * v.count then
    if doorbellStatus s ≠ MS.ok then (s, doorbellStatus s)
    else (doorbellTlp s (fnReq fn) (v.first + (o - 0x2000) / 8) o bs cycles, MS.ok)
  else (s, MS.ok)

/-- The parts of a read of a partition view in order. -/
def readViews (fn : Nat) : List (Nat × Nat) → State → State × Nat × List Byte
  | [], s => (s, MS.ok, [])
  | (o, n) :: ps, s =>
    let r := readView s fn o n
    let q := readViews fn ps r.1
    (q.1, joinStatus r.2.1 q.2.1, r.2.2 ++ q.2.2)

/-- The parts of a write of a partition view in order. -/
def writeViews (fn cycles : Nat) : List (Nat × Nat) → State → List Byte → State × Nat
  | [], s, _ => (s, MS.ok)
  | (o, n) :: ps, s, bs =>
    let r := writeView s fn o (bs.take n) cycles
    let q := writeViews fn cycles ps r.1 (bs.drop n)
    (q.1, joinStatus r.2 q.2)

/-- `n` bytes from `o` of PF BAR index 1. -/
def readMsix (s : State) (o n : Nat) : List Byte :=
  (cutAt msixBounds o n).flatMap fun e =>
    if e.1 < 0x8000 then msixRead s 0 e.1 e.2 else if e.1 < 0x8100 then pbaRead s 0 (e.1 - 0x8000) e.2 else List.replicate e.2 0

/-- The address that a failed part of a target shows. -/
def failAddr (fn : Nat) (t : Target) : Nat :=
  match t, targetAddr fn t with
  | _, some a => a
  | .view o, none => regAddr (Sys2Proof.Machine.hdr (if o < 0x1000 then P.dpt else P.hod) 0)
  | _, none => regAddr (Sys2Proof.Machine.hdr P.hod 0)

/-- The completion of a read with the status and the data that its parts gave (R142, R143). -/
def completeRead (s : State) (fn a st : Nat) (bs : List Byte) (hdr : List Nat) : State :=
  if st > 1 then completeCa (pieceFailed s fn a st false hdr) fn
  else if st = MS.poison then sendHost (fault s P.pci 6 (fnReq fn) fn (some a)) (.completion fn 0 true bs)
  else sendHost s (.completion fn 0 false bs)

/-- What a read of a target brings and answers (R139 to R143). -/
def readTarget (s : State) (fn : Nat) (t : Target) (n : Nat) (hdr : List Nat) : State :=
  let done (r : State × Nat × List Byte) : State := completeRead r.1 fn (failAddr fn t) r.2.1 r.2.2 hdr
  if n = 0 then done (s, MS.ok, [])
  else match t with
    | .pages _ => done (readTlp fn (tlpPieces fn t n) s)
    | .msix o => done (s, MS.ok, readMsix s o n)
    | .doorbells o =>
      if doorbellStatus s ≠ MS.ok then done (s, doorbellStatus s, [])
      else
        let r := doorbellBytes s (fnReq fn) 0 o n
        done (r.1, MS.ok, r.2)
    | .view o => done (readViews fn (cutAt (viewBounds s fn) o n) s)
    | .mem o =>
      if fn ≠ 0 ∧ !windowOk s (fn - 1) .tlp .read o n then completeCa (windowRefused s fn o false n hdr) fn
      else done (readTlp fn (tlpPieces fn t n) s)

/-- What a posted write of a target does (R139 to R143). -/
def writeTarget (s : State) (fn : Nat) (t : Target) (bs : List Byte) (ep : Bool) (cycles : Nat) (hdr : List Nat) : State :=
  let done (r : State × Nat) : State := if r.2 > 1 then pieceFailed r.1 fn (failAddr fn t) r.2 true hdr else r.1
  if bs.isEmpty then s
  else match t with
    | .mem o =>
      if fn ≠ 0 ∧ !windowOk s (fn - 1) .tlp .write o bs.length then windowRefused s fn o true bs.length hdr
      else done (writeTlp fn ep (tlpPieces fn t bs.length) (if ep then poisonIn s (fnReq fn) fn (targetAddr fn t) hdr else s) bs)
    | t =>
      if ep then poisonIn s (fnReq fn) fn (targetAddr fn t) hdr
      else match t with
        | .msix o => (dwordParts (bs.length + 1) o bs).foldl (fun s e => if e.1 < 0x8000 then msixWrite s fn e.1 e.2 else s) s
        | .doorbells o => if doorbellStatus s ≠ MS.ok then done (s, doorbellStatus s) else doorbellTlp s (fnReq fn) (o / 8) o bs cycles
        | .view o => done (writeViews fn cycles (cutAt (viewBounds s fn) o bs.length) s bs)
        | t => done (writeTlp fn false (tlpPieces fn t bs.length) s bs)

/-- INBOUND_READ_TLP (R142, R143, R168, R798). -/
def execInboundReadTlp (fn addr len : Nat) (hdr : List Nat) (s : State) : Host.Outcome State Fault Refusal :=
  if !answers s then .next s
  else
    let s := inbound s
    match turnedAway s fn false false len hdr with
    | some t => .next t
    | none =>
      match decodeBar s fn addr, memOn s fn with
      | some t, true => served [] (fun s => .next (readTarget s fn t len hdr)) s
      | t, _ => .next (completeUr (unsupported s fn false false len hdr (t.bind (targetAddr fn))) fn)

/-- INBOUND_WRITE_TLP (R142, R143, R168, R798): `host` are the host's completions for what a register write makes an engine read, `cycles` the FAB cycles
that an urgent doorbell takes. -/
def execInboundWriteTlp (fn addr : Nat) (data : List Byte) (ep : Bool) (host : List Cpl) (cycles : Nat) (hdr : List Nat) (s : State) :
    Host.Outcome State Fault Refusal :=
  if !answers s then .next s
  else
    let s := inbound s
    match turnedAway s fn true true data.length hdr with
    | some t => .next t
    | none =>
      match decodeBar s fn addr, memOn s fn with
      | some t, true => served host (fun s => .next (writeTarget s fn t data ep cycles hdr)) s
      | t, _ => .next (unsupported s fn true true data.length hdr (t.bind (targetAddr fn)))

end Sys2Proof.Machine
end

