-- ==== Sys2Proof/Machine/Ports.lean ====
section
/-!
DEFINITION. Machine/Ports.lean: the management port and the test access port (26 R776, R778, R780, R781), the Ethernet link and ignored CSI-2 packets
(09 R299, R302).
-/
namespace Sys2Proof.Machine
open Sys2Proof

/-! The management port. -/

/-- The size of the ledger buffer. -/
def ledgerBase : Nat := 0x100000

/-- A word is written through the management port; the write of 0x10_07FC ends the ledger request. -/
def mgmtStore (s : State) (a w : Nat) : State :=
  if a < 0x40000 then (pageWrite s .fyp a 4 w).1
  else if ledgerBase ≤ a ∧ a < ledgerBase + 0x800 then
    let s' := updBoot s fun b => { b with ledger := (putBytes b.ledger (a - ledgerBase) (leBytes 4 w)).take 2048 }
    if a = 0x1007FC && ledgerOpen s then ledgerTaken s' s'.boot.ledger else s'
  else s

/-- A word is read through the management port. -/
def mgmtLoad (s : State) (a : Nat) : State × List Byte :=
  if a < 0x40000 then let r := pageRead s .fyp a 4; (r.1, r.2.2)
  else if ledgerBase ≤ a ∧ a < ledgerBase + 0x800 then (s, padTo 4 ((s.boot.ledger.drop (a - ledgerBase)).take 4))
  else (s, [0, 0, 0, 0])

/-- The words of a WRITE transaction; an incomplete one is dropped. -/
def mgmtStores : Nat → State → Nat → List Byte → State
  | 0, s, _, _ => s
  | n + 1, s, a, bs => mgmtStores n (mgmtStore s (a % 2 ^ 24) (field bs 0 4)) (a + 4) (bs.drop 4)

/-- The words of a READ transaction. -/
def mgmtLoads : Nat → State → Nat → State × List Byte
  | 0, s, _ => (s, [])
  | n + 1, s, a =>
    let r := mgmtLoad s (a % 2 ^ 24)
    let q := mgmtLoads n r.1 (a + 4)
    (q.1, r.2 ++ q.2)

/-- MGMT_WRITE (R776). -/
def execMgmtWrite (addr : Nat) (data : List Byte) (s : State) : Host.Outcome State Fault Refusal :=
  if dieUp s then served [] (fun s => .next (mgmtStores (data.length / 4) s addr data)) s else .next s

/-- MGMT_READ (R776). -/
def execMgmtRead (addr words : Nat) (s : State) : Host.Outcome State Fault Refusal :=
  if !dieUp s then .next s
  else
    let r := mgmtLoads words s addr
    .next { r.1 with readData := r.2 }

/-! The test access port. -/

/-- The boundary register's length. -/
def boundaryCells : Nat := 1764

/-- An instruction of the TAP with what its data register captures and holds. -/
def tapTake (s : State) (f : Tap → Tap) : State := if s.boot.powered then { s with tap := f s.tap } else s

/-- EXTEST (R780, R781): the pins are captured, the boundary register drives the pins. -/
def execExtest (data pins : Nat) (s : State) : Host.Outcome State Fault Refusal :=
  .next (tapTake s fun _ => { ir := 0, shift := pins % 2 ^ boundaryCells, latch := data % 2 ^ boundaryCells, drives := true })

/-- SAMPLE_PRELOAD (R780, R781): the pins are captured and the boundary register is loaded, without driving. -/
def execSamplePreload (data pins : Nat) (s : State) : Host.Outcome State Fault Refusal :=
  .next (tapTake s fun _ => { ir := 1, shift := pins % 2 ^ boundaryCells, latch := data % 2 ^ boundaryCells, drives := false })

/-- IDCODE (R780). -/
def execIdcode (s : State) : Host.Outcome State Fault Refusal :=
  .next (tapTake s fun t => { t with ir := 2, shift := 0x1009656B, drives := false })

/-- BYPASS (R780). -/
def execBypass (s : State) : Host.Outcome State Fault Refusal :=
  .next (tapTake s fun t => { t with ir := 0xFF, shift := 0, drives := false })

/-- TAP_RESET (R780): TRST_N has been low for at least 100 ns; IDCODE is selected. -/
def execTapReset (s : State) : Host.Outcome State Fault Refusal :=
  .next (tapTake s fun t => { t with ir := 2, drives := false })

/-! Ethernet link and ignored packets. -/

/-- ETH_LINK_CHANGE (R302): UP follows the link; a change raises ETH.LINK. -/
def execEthLinkChange (mac : Nat) (up : Bool) (s : State) : Host.Outcome State Fault Refusal :=
  if mac ≥ 2 ∨ !islandRuns s 37 ∨ rb s (R.ETH_LINK_STATUS mac) 0 = up then .next s
  else .next (raise (wb s (R.ETH_LINK_STATUS mac) 0 up) (P.eth mac) 13)

/-- CSI_IGNORED_PACKET (R299, R301): embedded data or an unsupported data type is discarded and counted; a generic short packet is discarded (DEDUCED: R299
and the field OTHER of CSI_IGNORED count the others alone). -/
def execCsiIgnoredPacket (port dt : Nat) (rx : CsiRx) (s : State) : Host.Outcome State Fault Refusal :=
  if port ≥ 8 ∨ dt < 4 ∨ rawType dt ∨ !accepts s (P.csi port) then .next s
  else
    let k := csiPacket s port rx
    match k.2 with
    | none => .next k.1
    | some _ => .next (if 8 ≤ dt ∧ dt < 16 then k.1 else bump k.1 (R.CSI_IGNORED port) 31 16 1)

end Sys2Proof.Machine
end

