-- ==== Sys2Proof/Machine/RegRows.lean ====
section
/-!
DEFINITION. Machine/RegRows.lean: the register accesses that have a command of their own (02 R19 to R38 and the chapters' registers).
-/
namespace Sys2Proof.Machine
open Sys2Proof

/-! The commands that read or write one register. The die answers while it is powered and not in reset. -/

/-- A write of `n` bytes at a page-window offset by a requester, with the host's completions for what it makes an engine read. -/
def writeN (host : List Cpl) (s : State) (req : Req) (off n w : Nat) : Host.Outcome State Fault Refusal :=
  if s.boot.held then .next s else served host (fun s => .next (after (pageWrite s req off n w))) s

/-- One aligned 32-bit write. -/
def write1 (s : State) (req : Req) (off w : Nat) (host : List Cpl) : Host.Outcome State Fault Refusal := writeN host s req off 4 w

/-- REGISTER_WRITE (R19, R23): a write of `width` bytes. -/
def execRegisterWrite (req : Req) (off width : Nat) (data : W64) (s : State) : Host.Outcome State Fault Refusal :=
  writeN [] s req off width (data.toNat % 2 ^ (8 * min width 8))

/-- RC_READ (R23, R27): a read of a register; its data go to the requester. -/
def execRcRead (req : Req) (off : Nat) (s : State) : Host.Outcome State Fault Refusal :=
  if s.boot.held then .next s
  else
    let r := pageRead s req (off / 4 * 4) 4
    .next { r.1 with readData := r.2.2, readSt := r.2.1 }

/-- EVT_STATUS_CLEAR (R38). -/
def execEvtStatusClear (req : Req) (page : Nat) (data : W32) (s : State) : Host.Outcome State Fault Refusal :=
  write1 s req (hdr page 0x20) data.toNat []

/-- EVT_ENABLE_WRITE (R38). -/
def execEvtEnableWrite (req : Req) (page : Nat) (data : W32) (s : State) : Host.Outcome State Fault Refusal :=
  write1 s req (hdr page 0x24) data.toNat []

/-- EVT_FORCE (R36). -/
def execEvtForce (req : Req) (page : Nat) (data : W32) (s : State) : Host.Outcome State Fault Refusal :=
  write1 s req (hdr page 0x28) data.toNat []

/-- LOCK_SET (R35). -/
def execLockSet (req : Req) (page : Nat) (s : State) : Host.Outcome State Fault Refusal := write1 s req (hdr page 0x1C) 1 []

/-- ENABLE_WRITE (R33): a write of CTRL. -/
def execEnableWrite (req : Req) (page : Nat) (data : W32) (s : State) : Host.Outcome State Fault Refusal :=
  write1 s req (hdr page 0x10) data.toNat []

/-- SOFT_RESET (R34): a write of CTRL with SRESET 1. -/
def execSoftReset (req : Req) (page : Nat) (data : W32) (s : State) : Host.Outcome State Fault Refusal :=
  write1 s req (hdr page 0x10) (putBit data.toNat 1 true) []

/-- AON_ISL_CTRL_WRITE (03 R59). -/
def execAonIslCtrlWrite (req : Req) (isl : Nat) (data : W32) (s : State) : Host.Outcome State Fault Refusal :=
  if isl < 39 then write1 s req (R.AON_ISL_CTRL isl) data.toNat [] else .next s

/-- BOOT_RESET_REQ (04 R101): a record being written breaks off after `torn` of the four steps of 23 R704. -/
def execBootResetReq (req : Req) (data : W32) (torn : Nat) (s : State) : Host.Outcome State Fault Refusal :=
  if s.boot.held then .next s
  else
    let t := (pageWrite s req R.BOOT_RESET_REQ 4 data.toNat).1
    .next (if t.boot.held then (pageWrite (tornWrite s torn) req R.BOOT_RESET_REQ 4 data.toNat).1 else t)

/-- BOOT_CONFIRM (04 R112). -/
def execBootConfirm (req : Req) (data : W32) (s : State) : Host.Outcome State Fault Refusal := write1 s req R.BOOT_CONFIRM data.toNat []

/-- FLASH_READ (04 R102). -/
def execFlashRead (req : Req) (s : State) : Host.Outcome State Fault Refusal := write1 s req R.BOOT_FLASH_CTRL 0x80000001 []

/-- FLASH_PROGRAM (04 R102). -/
def execFlashProgram (req : Req) (s : State) : Host.Outcome State Fault Refusal := write1 s req R.BOOT_FLASH_CTRL 0x80000002 []

/-- FLASH_ERASE (04 R102). -/
def execFlashErase (req : Req) (s : State) : Host.Outcome State Fault Refusal := write1 s req R.BOOT_FLASH_CTRL 0x80000003 []

/-- FLASH_INSTALL (04 R109). -/
def execFlashInstall (req : Req) (s : State) : Host.Outcome State Fault Refusal := write1 s req R.BOOT_FLASH_CTRL 0x80000004 []

/-- ADVANCE_ROLLBACK (04 R125): `data` with the command in its CMD field. -/
def execAdvanceRollback (req : Req) (data : W32) (s : State) : Host.Outcome State Fault Refusal :=
  write1 s req R.BOOT_OTP_CMD (putBits data.toNat 3 0 1) []

/-- REVOKE_KEY (04 R125). -/
def execRevokeKey (req : Req) (data : W32) (s : State) : Host.Outcome State Fault Refusal :=
  write1 s req R.BOOT_OTP_CMD (putBits data.toNat 3 0 2) []

/-- RETIRE (04 R125). -/
def execRetire (req : Req) (data : W32) (s : State) : Host.Outcome State Fault Refusal :=
  write1 s req R.BOOT_OTP_CMD (putBits data.toNat 3 0 3) []

/-- RETRAIN_FORCE (06 R204): DMC_RETRAIN_CTRL of a DMC page is written. -/
def execRetrainForce (req : Req) (page : Nat) (data : W32) (s : State) : Host.Outcome State Fault Refusal :=
  if 16 ≤ page ∧ page < 20 then write1 s req (R.DMC_RETRAIN_CTRL (page - 16)) data.toNat [] else .next s

/-- PTP_RX_POP (09 R298). -/
def execPtpRxPop (req : Req) (mac : Nat) (data : W32) (s : State) : Host.Outcome State Fault Refusal :=
  if mac < 2 then write1 s req (R.ETH_PTP_RX_POP mac) data.toNat [] else .next s

/-- PTP_TX_SEND (09 R298). -/
def execPtpTxSend (req : Req) (mac : Nat) (data : W32) (s : State) : Host.Outcome State Fault Refusal :=
  if mac < 2 then write1 s req (R.ETH_PTP_TX_CTRL mac) data.toNat [] else .next s

/-- TB_STEP (09 R295). -/
def execTbStep (req : Req) (data : W32) (s : State) : Host.Outcome State Fault Refusal := write1 s req R.AON_TB_STEP_HI data.toNat []

/-- TB_SLEW (09 R295). -/
def execTbSlew (req : Req) (data : W32) (s : State) : Host.Outcome State Fault Refusal := write1 s req R.AON_TB_SLEW data.toNat []

/-- TB_RATE (09 R294). -/
def execTbRate (req : Req) (data : W32) (s : State) : Host.Outcome State Fault Refusal := write1 s req R.AON_TB_RATE data.toNat []

/-- TB_SERVO_LOCKED (09 R296). -/
def execTbServoLocked (req : Req) (data : W32) (s : State) : Host.Outcome State Fault Refusal := write1 s req R.AON_TB_SERVO data.toNat []

/-- DEV_RESYNC (10 R335). -/
def execDevResync (req : Req) (slot : Nat) (data : W32) (s : State) : Host.Outcome State Fault Refusal :=
  if slot < 36 then write1 s req (R.DEV_SLOT_CTRL 0 slot) data.toNat [] else .next s

/-- PARTITION_QUIESCE (17 R526). -/
def execPartitionQuiesce (req : Req) (part : Nat) (data : W32) (s : State) : Host.Outcome State Fault Refusal :=
  if part < 8 then write1 s req (R.DPT_PART_CTRL part) data.toNat [] else .next s

/-- KEY_PF_SUBMIT (19 R595). -/
def execKeyPfSubmit (req : Req) (ctx : Nat) (data : W32) (host : List Cpl) (s : State) : Host.Outcome State Fault Refusal :=
  if ctx < 3 then write1 s req (R.KEY_PF_CMD_HI ctx) data.toNat host else .next s

/-- SFL_PF_SUBMIT (20 R643). -/
def execSflPfSubmit (req : Req) (data : W32) (host : List Cpl) (s : State) : Host.Outcome State Fault Refusal :=
  write1 s req R.SFL_PF_CMD_HI data.toNat host

/-- AMP_CLEAR (21 R676). -/
def execAmpClear (req : Req) (chan : Nat) (data : W32) (s : State) : Host.Outcome State Fault Refusal :=
  if chan < 2 then write1 s req (R.AUD_AMP_CTRL chan) data.toNat [] else .next s

/-- PREPARE (22 R680, R683). -/
def execPrepare (req : Req) (s : State) : Host.Outcome State Fault Refusal := write1 s req R.SEAM_CMD 0x80000001 []

/-- ABORT (22 R690). -/
def execAbort (req : Req) (s : State) : Host.Outcome State Fault Refusal := write1 s req R.SEAM_CMD 0x80000002 []

/-- DISCARD (22 R692). -/
def execDiscard (req : Req) (s : State) : Host.Outcome State Fault Refusal := write1 s req R.SEAM_CMD 0x80000003 []

/-- CSH_EXT_ENABLE (23 R713). -/
def execCshExtEnable (req : Req) (data : W32) (s : State) : Host.Outcome State Fault Refusal := write1 s req R.CSH_CTRL data.toNat []

/-- CSH_SW_RECORD (23 R700). -/
def execCshSwRecord (req : Req) (data : W32) (s : State) : Host.Outcome State Fault Refusal := write1 s req R.CSH_SW_CODE data.toNat []

/-- SAFE_STATUS_CLEAR (24 R723): FLT_SAFE_STATUS or FLT_SAFE_SEEN is written. -/
def execSafeStatusClear (req : Req) (seen : Bool) (data : W32) (s : State) : Host.Outcome State Fault Refusal :=
  write1 s req (if seen then R.FLT_SAFE_SEEN else R.FLT_SAFE_STATUS) data.toNat []

/-- CLEAR_LAST (24 R725). -/
def execClearLast (req : Req) (data : W32) (s : State) : Host.Outcome State Fault Refusal := write1 s req R.FLT_CTRL data.toNat []

/-! Injections (24 R730): FLT_INJ_CTRL is written with `data` and the row's TARGET. -/

/-- A write of FLT_INJ_CTRL with the TARGET `t`. -/
def injWrite (t : Nat) (req : Req) (data : W32) (s : State) : Host.Outcome State Fault Refusal :=
  write1 s req R.FLT_INJ_CTRL (putBits data.toNat 7 0 t) []

/-- SRAM_CE (24 R730). -/
def execSramCe (req : Req) (data : W32) (s : State) : Host.Outcome State Fault Refusal := injWrite 1 req data s
/-- SRAM_UE (24 R730). -/
def execSramUe (req : Req) (data : W32) (s : State) : Host.Outcome State Fault Refusal := injWrite 2 req data s
/-- PAIR (24 R730). -/
def execPair (req : Req) (data : W32) (s : State) : Host.Outcome State Fault Refusal := injWrite 3 req data s
/-- CSI_CRC (24 R730). -/
def execCsiCrc (req : Req) (data : W32) (s : State) : Host.Outcome State Fault Refusal := injWrite 4 req data s
/-- DRAM_CA (24 R730). -/
def execDramCa (req : Req) (data : W32) (s : State) : Host.Outcome State Fault Refusal := injWrite 5 req data s
/-- DRAM_CRC (24 R730). -/
def execDramCrc (req : Req) (data : W32) (s : State) : Host.Outcome State Fault Refusal := injWrite 6 req data s
/-- DELAY (24 R730). -/
def execDelay (req : Req) (data : W32) (s : State) : Host.Outcome State Fault Refusal := injWrite 7 req data s
/-- HOLD_READ (24 R730). -/
def execHoldRead (req : Req) (data : W32) (s : State) : Host.Outcome State Fault Refusal := injWrite 8 req data s
/-- TEMP (24 R730). -/
def execTemp (req : Req) (data : W32) (s : State) : Host.Outcome State Fault Refusal := injWrite 9 req data s
/-- TRIP_TEST (24 R730). -/
def execTripTest (req : Req) (data : W32) (s : State) : Host.Outcome State Fault Refusal := injWrite 10 req data s

end Sys2Proof.Machine
end

