-- ==== Sys2Proof/Machine/ScalarRows.lean ====
section
/-!
DEFINITION. Machine/ScalarRows.lean: the rows of the scalar instructions (13 R418 to R422). A row names the slot and the opcodes of its instructions; the bundle
that holds one issues whole.
-/
namespace Sys2Proof.Machine
open Sys2Proof

/-- ADD_SUB_AND_OR_XOR_SLL_SRL_SRA (R419). -/
def execAddSubAndOrXorSllSrlSra (core : Nat) (s : State) : Host.Outcome State Fault Refusal :=
  issueRow core .s [0x01, 0x02, 0x03, 0x04, 0x05, 0x06, 0x07, 0x08] 0 .alone [] s

/-- SLT_SLTU (R418). -/
def execSltSltu (core : Nat) (s : State) : Host.Outcome State Fault Refusal :=
  issueRow core .s [0x09, 0x0A] 0 .alone [] s

/-- MIN_MAX_MINU_MAXU (R418). -/
def execMinMaxMinuMaxu (core : Nat) (s : State) : Host.Outcome State Fault Refusal :=
  issueRow core .s [0x0B, 0x0C, 0x0D, 0x0E] 0 .alone [] s

/-- ADDS_SUBS (R419). -/
def execAddsSubs (core : Nat) (s : State) : Host.Outcome State Fault Refusal :=
  issueRow core .s [0x0F, 0x10] 0 .alone [] s

/-- MUL (R419). -/
def execMul (core : Nat) (s : State) : Host.Outcome State Fault Refusal :=
  issueRow core .s [0x11] 0 .alone [] s

/-- MULH_MULHU (R418). -/
def execMulhMulhu (core : Nat) (s : State) : Host.Outcome State Fault Refusal :=
  issueRow core .s [0x12, 0x13] 0 .alone [] s

/-- DIV_DIVU_REM_REMU (R419). -/
def execDivDivuRemRemu (core : Nat) (s : State) : Host.Outcome State Fault Refusal :=
  issueRow core .s [0x14, 0x15, 0x16, 0x17] 0 .alone [] s

/-- CLZ_POPC (R419). -/
def execClzPopc (core : Nat) (s : State) : Host.Outcome State Fault Refusal :=
  issueRow core .s [0x18, 0x19] 0 .alone [] s

/-- CMPEQ_CMPNE_CMPLT_CMPLTU_CMPGE_CMPGEU (R418). -/
def execCmpeqCmpneCmpltCmpltuCmpgeCmpgeu (core : Nat) (s : State) : Host.Outcome State Fault Refusal :=
  issueRow core .s [0x20, 0x21, 0x22, 0x23, 0x24, 0x25] 0 .alone [] s

/-- PAND_POR_PXOR_PANDN (R418). -/
def execPandPorPxorPandn (core : Nat) (s : State) : Host.Outcome State Fault Refusal :=
  issueRow core .s [0x28, 0x29, 0x2A, 0x2B] 0 .alone [] s

/-- PMOVX (R418). -/
def execPmovx (core : Nat) (s : State) : Host.Outcome State Fault Refusal :=
  issueRow core .s [0x2C] 0 .alone [] s

/-- XMOVP (R418). -/
def execXmovp (core : Nat) (s : State) : Host.Outcome State Fault Refusal :=
  issueRow core .s [0x2D] 0 .alone [] s

/-- FADD_FSUB_FMUL_FDIV_FMIN_FMAX (R422). -/
def execFaddFsubFmulFdivFminFmax (core : Nat) (s : State) : Host.Outcome State Fault Refusal :=
  issueRow core .s [0x30, 0x31, 0x32, 0x33, 0x34, 0x35] 0 .alone [] s

/-- FSQRT (R422). -/
def execFsqrt (core : Nat) (s : State) : Host.Outcome State Fault Refusal :=
  issueRow core .s [0x36] 0 .alone [] s

/-- FCVTIF (R422). -/
def execFcvtif (core : Nat) (s : State) : Host.Outcome State Fault Refusal :=
  issueRow core .s [0x37] 0 .alone [] s

/-- FCVTFI (R422). -/
def execFcvtfi (core : Nat) (s : State) : Host.Outcome State Fault Refusal :=
  issueRow core .s [0x38] 0 .alone [] s

/-- FCMPLT_FCMPEQ (R422). -/
def execFcmpltFcmpeq (core : Nat) (s : State) : Host.Outcome State Fault Refusal :=
  issueRow core .s [0x39, 0x3A] 0 .alone [] s

/-- LDB_LDBU_LDH_LDHU_LDW_LDWU_LDD (R420). -/
def execLdbLdbuLdhLdhuLdwLdwuLdd (core : Nat) (s : State) : Host.Outcome State Fault Refusal :=
  issueRow core .s [0x40, 0x41, 0x42, 0x43, 0x44, 0x45, 0x46] 0 .alone [] s

/-- STB_STH_STW_STD (R420). -/
def execStbSthStwStd (core : Nat) (s : State) : Host.Outcome State Fault Refusal :=
  issueRow core .s [0x48, 0x49, 0x4A, 0x4B] 0 .alone [] s

end Sys2Proof.Machine
end

