-- ==== Sys2Proof/Machine/SolverRows.lean ====
section
/-!
DEFINITION. Machine/SolverRows.lean: the commands of Keystone and Safelight whose work presents requests on Mortar (19, 20).
-/
namespace Sys2Proof.Machine
open Sys2Proof

/-- KEY_SOLVE (19 R600, R603): an idle engine takes the next command, and it is no RELEASE. -/
def execKeySolve (host : List Cpl) (s : State) : Host.Outcome State Fault Refusal := serves host keySolve s

/-- KEY_SETUP (19 R602, R611): the last segment of a factorisation ends. -/
def execKeySetup (us stallNs uj : Nat) (s : State) : Host.Outcome State Fault Refusal := serves [] (keySetup us stallNs uj) s

/-- KEY_SEGMENT_END (19 R605, R611, R612). -/
def execKeySegmentEnd (us stallNs uj : Nat) (s : State) : Host.Outcome State Fault Refusal := serves [] (keySegmentEnd us stallNs uj) s

/-- A command of Safelight, with the host's completions for what it reads. -/
def sflCommand (op : Nat) (host : List Cpl) (s : State) : Host.Outcome State Fault Refusal := served host (fun s => .next (sflRow op s)) s

/-- LOAD_BASIS (R620). -/
def execLoadBasis (host : List Cpl) (s : State) : Host.Outcome State Fault Refusal := sflCommand 0x01 host s

/-- LOAD_MODULUS (R622). -/
def execLoadModulus (host : List Cpl) (s : State) : Host.Outcome State Fault Refusal := sflCommand 0x02 host s

/-- MUL (R626). -/
def execSflMul (host : List Cpl) (s : State) : Host.Outcome State Fault Refusal := sflCommand 0x10 host s

/-- ADD (R626). -/
def execSflAdd (host : List Cpl) (s : State) : Host.Outcome State Fault Refusal := sflCommand 0x11 host s

/-- SUB (R626). -/
def execSflSub (host : List Cpl) (s : State) : Host.Outcome State Fault Refusal := sflCommand 0x12 host s

/-- MULADD (R626). -/
def execMuladd (host : List Cpl) (s : State) : Host.Outcome State Fault Refusal := sflCommand 0x13 host s

/-- MASK (R626, R634). -/
def execMask (host : List Cpl) (s : State) : Host.Outcome State Fault Refusal := sflCommand 0x14 host s

/-- NTT (R626). -/
def execNtt (host : List Cpl) (s : State) : Host.Outcome State Fault Refusal := sflCommand 0x18 host s

/-- INTT (R626). -/
def execIntt (host : List Cpl) (s : State) : Host.Outcome State Fault Refusal := sflCommand 0x19 host s

/-- AUTO (R626). -/
def execAuto (host : List Cpl) (s : State) : Host.Outcome State Fault Refusal := sflCommand 0x1A host s

/-- BASE_EXT (R626). -/
def execBaseExt (host : List Cpl) (s : State) : Host.Outcome State Fault Refusal := sflCommand 0x1B host s

/-- LMUL (R626). -/
def execLmul (host : List Cpl) (s : State) : Host.Outcome State Fault Refusal := sflCommand 0x20 host s

/-- LADD (R626). -/
def execLadd (host : List Cpl) (s : State) : Host.Outcome State Fault Refusal := sflCommand 0x21 host s

/-- VAULT_IMPORT (R635). -/
def execVaultImport (host : List Cpl) (s : State) : Host.Outcome State Fault Refusal := sflCommand 0x30 host s

/-- VAULT_CLEAR (R626). -/
def execVaultClear (s : State) : Host.Outcome State Fault Refusal := sflCommand 0x31 [] s

end Sys2Proof.Machine
end

