-- ==== Sys2Proof/Machine/StreamRows.lean ====
section
/-!
DEFINITION. Machine/StreamRows.lean: the commands of the media engines, host push, the alert path and the recorder's extension whose work presents requests on
Mortar that may wait (09 R307, 10, 11, 21, 23 R710).
-/
namespace Sys2Proof.Machine
open Sys2Proof

/-- CSI_FIRST_LINE (09 R288). -/
def execCsiFirstLine (port vc dt wc : Nat) (data : List Byte) (crcOk : Bool) (rx : CsiRx) (s : State) : Host.Outcome State Fault Refusal :=
  serves [] (csiFirstLine port vc dt wc data crcOk rx) s

/-- CSI_LINE (09 R289). -/
def execCsiLine (port vc dt wc : Nat) (data : List Byte) (crcOk : Bool) (rx : CsiRx) (s : State) : Host.Outcome State Fault Refusal :=
  serves [] (csiLine port vc dt wc data crcOk rx) s

/-- CSI_FRAME_END (09 R289, R293, R301). -/
def execCsiFrameEnd (port vc : Nat) (rx : CsiRx) (s : State) : Host.Outcome State Fault Refusal := serves [] (csiFrameEnd port vc rx) s

/-- FRAME_TRIGGER (09 R293). -/
def execFrameTrigger (source cycles : Nat) (s : State) : Host.Outcome State Fault Refusal := serves [] (frameTrigger source cycles) s

/-- ETH_FRAME_RECEIVE (09 R302). -/
def execEthFrameReceive (mac : Nat) (frame : List Byte) (fcsOk : Bool) (s : State) : Host.Outcome State Fault Refusal :=
  serves [] (ethFrame mac frame fcsOk) s

/-- AVTP_PACKET (09 R303). -/
def execAvtpPacket (mac : Nat) (packet : List Byte) (s : State) : Host.Outcome State Fault Refusal := serves [] (avtpReceive mac packet) s

/-- HOST_PUSH_DESC (09 R305, R306). -/
def execHostPushDesc (mac entry : Nat) (meet : HodMeet) (host : List Cpl) (s : State) : Host.Outcome State Fault Refusal :=
  serves host (hostPushDesc mac entry meet) s

/-- HOST_PUSH_READ_DONE (09 R307). -/
def execHostPushReadDone (source cycles : Nat) (s : State) : Host.Outcome State Fault Refusal := serves [] (hostPushDone source cycles) s

/-- DEV_ENGINE_SELECT (10 R318, R325). -/
def execDevEngineSelect (engine : Nat) (hdr : Option SeqHdr) (rap : Bool) (refs : List Bool) (meet : HodMeet) (host : List Cpl) (s : State) :
    Host.Outcome State Fault Refusal := serves host (devEngineSelect engine hdr rap refs meet) s

/-- DEV_DECODE_DONE (10 R319, R320, R329 to R333). -/
def execDevDecodeDone (engine : Nat) (out : Decoding) (us stallNs : Nat) (s : State) : Host.Outcome State Fault Refusal :=
  serves [] (devDecodeDone engine out us stallNs) s

/-- DEV_PICTURE_OUTPUT (10 R320, R323). -/
def execDevPictureOutput (slot : Nat) (s : State) : Host.Outcome State Fault Refusal := serves [] (devPictureOutput slot) s

/-- DEV_OUTPUT_FLUSH (10 R321). -/
def execDevOutputFlush (slot : Nat) (s : State) : Host.Outcome State Fault Refusal := .next (devOutputFlush slot s)

/-- DEV_RESYNC_DONE (10 R335). -/
def execDevResyncDone (slot : Nat) (s : State) : Host.Outcome State Fault Refusal := serves [] (devResyncDone slot) s

/-- ENL_ENGINE_SELECT (11 R336 to R340, R346). -/
def execEnlEngineSelect (engine : Nat) (meet : HodMeet) (host : List Cpl) (s : State) : Host.Outcome State Fault Refusal :=
  serves host (enlEngineSelect engine meet) s

/-- ENL_TILE_END (11 R341 to R348, R354). -/
def execEnlTileEnd (engine us stallNs : Nat) (s : State) : Host.Outcome State Fault Refusal := serves [] (enlTileEnd engine us stallNs) s

/-- ENL_SAMPLE_COMPLETE (11 R353, R354, R359). -/
def execEnlSampleComplete (engine : Nat) (s : State) : Host.Outcome State Fault Refusal := serves [] (enlSampleComplete engine) s

/-- ESL_BATCH_RELEASE (11 R358 to R362, R364). -/
def execEslBatchRelease (group : Nat) (s : State) : Host.Outcome State Fault Refusal := serves [] (eslBatchRelease group) s

/-- ESL_BATCH_TRIGGER (11 R361, R364). -/
def execEslBatchTrigger (group cycles : Nat) (s : State) : Host.Outcome State Fault Refusal := serves [] (eslBatchTrigger group cycles) s

/-- ESL_AUDIO_WINDOW (11 R355, R357, R365 to R367). -/
def execEslAudioWindow (s : State) : Host.Outcome State Fault Refusal := serves [] eslAudioWindow s

/-- ALERT_ENTRY_POP (21 R662). -/
def execAlertEntryPop (meet : HodMeet) (host : List Cpl) (s : State) : Host.Outcome State Fault Refusal := serves host (alertEntryPop meet) s

/-- CSH_EXT_COPY (23 R710 to R712). -/
def execCshExtCopy (s : State) : Host.Outcome State Fault Refusal := serves [] cshExtCopy s

/-- MIC_BLOCK (21 R648, R649, R651). -/
def execMicBlock (times : List (List Int)) (ts : Nat) (s : State) : Host.Outcome State Fault Refusal := serves [] (micBlock times ts) s

end Sys2Proof.Machine
end

