-- ==== Sys2Proof/Machine/VectorRows.lean ====
section
/-!
DEFINITION. Machine/VectorRows.lean: the rows of the vector instructions (14 R466 to R474). A row names the slot and the opcodes of its instructions; the bundle
that holds one issues whole.
-/
namespace Sys2Proof.Machine
open Sys2Proof

/-- VLD (R467). -/
def execVld (core : Nat) (s : State) : Host.Outcome State Fault Refusal :=
  issueRow core .v [0x01] 0 .alone [] s

/-- VST (R467). -/
def execVst (core : Nat) (s : State) : Host.Outcome State Fault Refusal :=
  issueRow core .v [0x02] 0 .alone [] s

/-- VBCAST (R466). -/
def execVbcast (core : Nat) (s : State) : Host.Outcome State Fault Refusal :=
  issueRow core .v [0x03] 0 .alone [] s

/-- VMOV (R469). -/
def execVmov (core : Nat) (s : State) : Host.Outcome State Fault Refusal :=
  issueRow core .v [0x04] 0 .alone [] s

/-- VADD_VSUB (R470). -/
def execVaddVsub (core : Nat) (s : State) : Host.Outcome State Fault Refusal :=
  issueRow core .v [0x08, 0x09] 0 .alone [] s

/-- VMUL (R470). -/
def execVmul (core : Nat) (s : State) : Host.Outcome State Fault Refusal :=
  issueRow core .v [0x0A] 0 .alone [] s

/-- VMULH (R470). -/
def execVmulh (core : Nat) (s : State) : Host.Outcome State Fault Refusal :=
  issueRow core .v [0x0B] 0 .alone [] s

/-- VMAC (R471). -/
def execVmac (core : Nat) (s : State) : Host.Outcome State Fault Refusal :=
  issueRow core .v [0x0C] 0 .alone [] s

/-- VMIN_VMAX (R471). -/
def execVminVmax (core : Nat) (s : State) : Host.Outcome State Fault Refusal :=
  issueRow core .v [0x0D, 0x0E] 0 .alone [] s

/-- VABS_VNEG (R470). -/
def execVabsVneg (core : Nat) (s : State) : Host.Outcome State Fault Refusal :=
  issueRow core .v [0x0F, 0x10] 0 .alone [] s

/-- VAND_VOR_VXOR (R466). -/
def execVandVorVxor (core : Nat) (s : State) : Host.Outcome State Fault Refusal :=
  issueRow core .v [0x14, 0x15, 0x16] 0 .alone [] s

/-- VSHL_VSHR (R470). -/
def execVshlVshr (core : Nat) (s : State) : Host.Outcome State Fault Refusal :=
  issueRow core .v [0x17, 0x18] 0 .alone [] s

/-- VSHRR (R470). -/
def execVshrr (core : Nat) (s : State) : Host.Outcome State Fault Refusal :=
  issueRow core .v [0x19] 0 .alone [] s

/-- VCMPEQ_VCMPLT_VCMPLE (R471). -/
def execVcmpeqVcmpltVcmple (core : Nat) (s : State) : Host.Outcome State Fault Refusal :=
  issueRow core .v [0x1C, 0x1D, 0x1E] 0 .alone [] s

/-- VSEL (R466). -/
def execVsel (core : Nat) (s : State) : Host.Outcome State Fault Refusal :=
  issueRow core .v [0x1F] 0 .alone [] s

/-- VCVT (R472). -/
def execVcvt (core : Nat) (s : State) : Host.Outcome State Fault Refusal :=
  issueRow core .v [0x20] 0 .alone [] s

/-- VRMAX (R471). -/
def execVrmax (core : Nat) (s : State) : Host.Outcome State Fault Refusal :=
  issueRow core .v [0x24] 0 .alone [] s

/-- VRSUM (R471). -/
def execVrsum (core : Nat) (s : State) : Host.Outcome State Fault Refusal :=
  issueRow core .v [0x25] 0 .alone [] s

/-- VPOOL (R473). -/
def execVpool (core : Nat) (s : State) : Host.Outcome State Fault Refusal :=
  issueRow core .v [0x28] 0 .alone [] s

/-- VQROW (R474). -/
def execVqrow (core : Nat) (s : State) : Host.Outcome State Fault Refusal :=
  issueRow core .v [0x29] 0 .alone [] s

/-- VRCP_VRSQRT_VEXP (R471). -/
def execVrcpVrsqrtVexp (core : Nat) (s : State) : Host.Outcome State Fault Refusal :=
  issueRow core .v [0x2C, 0x2D, 0x2E] 0 .alone [] s

/-- VSHUF (R466). -/
def execVshuf (core : Nat) (s : State) : Host.Outcome State Fault Refusal :=
  issueRow core .v [0x30] 0 .alone [] s

end Sys2Proof.Machine
end

