-- ==== Sys2Proof/Machine/Dispatch.lean ====
section
/-!
DEFINITION. Machine/Dispatch.lean: one arm per constructor of Instr, each a direct call of its meaning.
-/
namespace Sys2Proof.Machine
open Sys2Proof

/-- The effect of the command `i` on everything but the queue. -/
def exec (i : Instr) (s : State) : Host.Outcome State Fault Refusal :=
  match i with
  | .registerWrite req off width data => Sys2Proof.Machine.execRegisterWrite req off width data s
  | .rcRead req off => Sys2Proof.Machine.execRcRead req off s
  | .evtStatusClear req page data => Sys2Proof.Machine.execEvtStatusClear req page data s
  | .evtEnableWrite req page data => Sys2Proof.Machine.execEvtEnableWrite req page data s
  | .evtForce req page data => Sys2Proof.Machine.execEvtForce req page data s
  | .enableWrite req page data => Sys2Proof.Machine.execEnableWrite req page data s
  | .softReset req page data => Sys2Proof.Machine.execSoftReset req page data s
  | .softResetDone page => Sys2Proof.Machine.execSoftResetDone page s
  | .tableWindowRead req off len ue => Sys2Proof.Machine.execTableWindowRead req off len ue s
  | .tableWindowWrite req off data => Sys2Proof.Machine.execTableWindowWrite req off data s
  | .xingTimeout dst src id resp host => Sys2Proof.Machine.execXingTimeout dst src id resp host s
  | .opPointRequest isl freq volt => Sys2Proof.Machine.execOpPointRequest isl freq volt s
  | .opPointStepDone isl => Sys2Proof.Machine.execOpPointStepDone isl s
  | .stepLate isl ns => Sys2Proof.Machine.execStepLate isl ns s
  | .regFault isl high dev => Sys2Proof.Machine.execRegFault isl high dev s
  | .islandFence isl => Sys2Proof.Machine.execIslandFence isl s
  | .aonIslCtrlWrite req isl data => Sys2Proof.Machine.execAonIslCtrlWrite req isl data s
  | .islandGate isl retain => Sys2Proof.Machine.execIslandGate isl retain s
  | .islandPowerUp isl => Sys2Proof.Machine.execIslandPowerUp isl s
  | .islandInitDone isl => Sys2Proof.Machine.execIslandInitDone isl s
  | .mortarRequestInject req src port chan addr len data bad cls => Sys2Proof.Machine.execMortarRequestInject req src port chan addr len data bad cls s
  | .mortarRequestArrive arrivals host => Sys2Proof.Machine.execMortarRequestArrive arrivals host s
  | .writeAck id => Sys2Proof.Machine.execWriteAck id s
  | .sramScrubStep bank busy => Sys2Proof.Machine.execSramScrubStep bank busy s
  | .supplyLow mv us => Sys2Proof.Machine.execSupplyLow mv us s
  | .pinReset torn => Sys2Proof.Machine.execPinReset torn s
  | .bootResetReq req data torn => Sys2Proof.Machine.execBootResetReq req data torn s
  | .imageSelect glitch => Sys2Proof.Machine.execImageSelect glitch s
  | .manifestCheck glitch => Sys2Proof.Machine.execManifestCheck glitch s
  | .dramTraining trains bist drfm rfm => Sys2Proof.Machine.execDramTraining trains bist drfm rfm s
  | .linkUp speed width => Sys2Proof.Machine.execLinkUp speed width s
  | .endpointReset cause => Sys2Proof.Machine.execEndpointReset cause s
  | .configRequest fn reg write be data hdr => Sys2Proof.Machine.execConfigRequest fn reg write be data hdr s
  | .inboundReadTlp fn addr len hdr => Sys2Proof.Machine.execInboundReadTlp fn addr len hdr s
  | .inboundWriteTlp fn addr data ep host cycles hdr => Sys2Proof.Machine.execInboundWriteTlp fn addr data ep host cycles hdr s
  | .inboundUnsupportedTlp fn kind len hdr => Sys2Proof.Machine.execInboundUnsupportedTlp fn kind len hdr s
  | .disabledVfRequest posted write len hdr => Sys2Proof.Machine.execDisabledVfRequest posted write len hdr s
  | .hwinRequest req addr len data bad bulk => Sys2Proof.Machine.execHwinRequest req addr len data bad bulk s
  | .completionArrive tag status ep data hdr => Sys2Proof.Machine.execCompletionArrive tag status ep data hdr s
  | .cplTimeout tag => Sys2Proof.Machine.execCplTimeout tag s
  | .msixUnmask fn vector due => Sys2Proof.Machine.execMsixUnmask fn vector due s
  | .functionSendResume fn => Sys2Proof.Machine.execFunctionSendResume fn s
  | .vfFlr vf => Sys2Proof.Machine.execVfFlr vf s
  | .flrDone fn => Sys2Proof.Machine.execFlrDone fn s
  | .powerStateChange fn d3 => Sys2Proof.Machine.execPowerStateChange fn d3 s
  | .dramRequestAccept src req cls chan addr len data bad => Sys2Proof.Machine.execDramRequestAccept src req cls chan addr len data bad s
  | .dramRead sub => Sys2Proof.Machine.execDramRead sub s
  | .dramWrite sub => Sys2Proof.Machine.execDramWrite sub s
  | .requestAge sub index write => Sys2Proof.Machine.execRequestAge sub index write s
  | .rowActivate sub bank row src => Sys2Proof.Machine.execRowActivate sub bank row src s
  | .mitigationIssue sub bank => Sys2Proof.Machine.execMitigationIssue sub bank s
  | .actTableClear sub => Sys2Proof.Machine.execActTableClear sub s
  | .throttleWindowEnd sub => Sys2Proof.Machine.execThrottleWindowEnd sub s
  | .refreshTick sub => Sys2Proof.Machine.execRefreshTick sub s
  | .refreshIssue sub => Sys2Proof.Machine.execRefreshIssue sub s
  | .refreshPullin sub => Sys2Proof.Machine.execRefreshPullin sub s
  | .mr4Poll sub rate => Sys2Proof.Machine.execMr4Poll sub rate s
  | .powerDownEntry sub => Sys2Proof.Machine.execPowerDownEntry sub s
  | .retrainPause sub rd wr => Sys2Proof.Machine.execRetrainPause sub rd wr s
  | .retrainForce req page data => Sys2Proof.Machine.execRetrainForce req page data s
  | .retrainWindow sub train => Sys2Proof.Machine.execRetrainWindow sub train s
  | .dramAlert sub replay => Sys2Proof.Machine.execDramAlert sub replay s
  | .alertRecovery sub parity crc => Sys2Proof.Machine.execAlertRecovery sub parity crc s
  | .retryEntryRetire sub write => Sys2Proof.Machine.execRetryEntryRetire sub write s
  | .dramPatrolScrub sub => Sys2Proof.Machine.execDramPatrolScrub sub s
  | .queueEnable req queue w1 => Sys2Proof.Machine.execQueueEnable req queue w1 s
  | .queueDisable req queue w1 => Sys2Proof.Machine.execQueueDisable req queue w1 s
  | .queueDisableDone queue => Sys2Proof.Machine.execQueueDisableDone queue s
  | .devicePush req queue entries bad cycles hold => Sys2Proof.Machine.execDevicePush req queue entries bad cycles hold s
  | .pushCommit queue => Sys2Proof.Machine.execPushCommit queue s
  | .triggerPush queue count cycles hold => Sys2Proof.Machine.execTriggerPush queue count cycles hold s
  | .devicePop req queue count meet host => Sys2Proof.Machine.execDevicePop req queue count meet host s
  | .doorbellPushed req queue count ack cycles hold => Sys2Proof.Machine.execDoorbellPushed req queue count ack cycles hold s
  | .doorbellPopped req queue count ack meet => Sys2Proof.Machine.execDoorbellPopped req queue count ack meet s
  | .doorbellAck req queue ack => Sys2Proof.Machine.execDoorbellAck req queue ack s
  | .copyDescriptor queue meet host => Sys2Proof.Machine.execCopyDescriptor queue meet host s
  | .fillDescriptor queue meet host => Sys2Proof.Machine.execFillDescriptor queue meet host s
  | .copyComplete queue cycles => Sys2Proof.Machine.execCopyComplete queue cycles s
  | .cqPushRetry queue cycles => Sys2Proof.Machine.execCqPushRetry queue cycles s
  | .allocate ident size ue => Sys2Proof.Machine.execAllocate ident size ue s
  | .free req ident handle ue => Sys2Proof.Machine.execFree req ident handle ue s
  | .reclaim req ident => Sys2Proof.Machine.execReclaim req ident s
  | .reclaimDone ue => Sys2Proof.Machine.execReclaimDone ue s
  | .csiFrameStart port vc frame rx => Sys2Proof.Machine.execCsiFrameStart port vc frame rx s
  | .csiFirstLine port vc dt wc data crcOk rx => Sys2Proof.Machine.execCsiFirstLine port vc dt wc data crcOk rx s
  | .csiLine port vc dt wc data crcOk rx => Sys2Proof.Machine.execCsiLine port vc dt wc data crcOk rx s
  | .csiFrameEnd port vc rx => Sys2Proof.Machine.execCsiFrameEnd port vc rx s
  | .frameTrigger source cycles => Sys2Proof.Machine.execFrameTrigger source cycles s
  | .csiDeskewDone port rx => Sys2Proof.Machine.execCsiDeskewDone port rx s
  | .ethFrameReceive mac frame fcsOk => Sys2Proof.Machine.execEthFrameReceive mac frame fcsOk s
  | .avtpPacket mac packet => Sys2Proof.Machine.execAvtpPacket mac packet s
  | .ptpRx mac frame => Sys2Proof.Machine.execPtpRx mac frame s
  | .ptpTxSend req mac data => Sys2Proof.Machine.execPtpTxSend req mac data s
  | .ptpTxDone mac => Sys2Proof.Machine.execPtpTxDone mac s
  | .hostPushDesc mac entry meet host => Sys2Proof.Machine.execHostPushDesc mac entry meet host s
  | .hostPushReadDone source cycles => Sys2Proof.Machine.execHostPushReadDone source cycles s
  | .streamStall source => Sys2Proof.Machine.execStreamStall source s
  | .devEngineSelect engine hdr rap refs meet host => Sys2Proof.Machine.execDevEngineSelect engine hdr rap refs meet host s
  | .devDecodeDone engine out us stallNs => Sys2Proof.Machine.execDevDecodeDone engine out us stallNs s
  | .devPictureOutput slot => Sys2Proof.Machine.execDevPictureOutput slot s
  | .devOutputFlush slot => Sys2Proof.Machine.execDevOutputFlush slot s
  | .devResyncDone slot => Sys2Proof.Machine.execDevResyncDone slot s
  | .enlEngineSelect engine meet host => Sys2Proof.Machine.execEnlEngineSelect engine meet host s
  | .enlTileEnd engine us stallNs => Sys2Proof.Machine.execEnlTileEnd engine us stallNs s
  | .enlSampleComplete engine => Sys2Proof.Machine.execEnlSampleComplete engine s
  | .eslLaneRequest engine => Sys2Proof.Machine.execEslLaneRequest engine s
  | .fillTimer group => Sys2Proof.Machine.execFillTimer group s
  | .eslBatchRelease group => Sys2Proof.Machine.execEslBatchRelease group s
  | .eslBatchTrigger group cycles => Sys2Proof.Machine.execEslBatchTrigger group cycles s
  | .jobStart core urgent ns => Sys2Proof.Machine.execJobStart core urgent ns s
  | .preemptionPoint core cycles => Sys2Proof.Machine.execPreemptionPoint core cycles s
  | .itemArrive core urgent index => Sys2Proof.Machine.execItemArrive core urgent index s
  | .stallTimeout core => Sys2Proof.Machine.execStallTimeout core s
  | .ppLate core cycles => Sys2Proof.Machine.execPpLate core cycles s
  | .jobEnd core => Sys2Proof.Machine.execJobEnd core s
  | .jobAbort core urgent => Sys2Proof.Machine.execJobAbort core urgent s
  | .arrayCommandComplete core => Sys2Proof.Machine.execArrayCommandComplete core s
  | .moverPieceResponse core mover host => Sys2Proof.Machine.execMoverPieceResponse core mover host s
  | .loopEndEvaluate core => Sys2Proof.Machine.execLoopEndEvaluate core s
  | .addSubAndOrXorSllSrlSra core => Sys2Proof.Machine.execAddSubAndOrXorSllSrlSra core s
  | .sltSltu core => Sys2Proof.Machine.execSltSltu core s
  | .minMaxMinuMaxu core => Sys2Proof.Machine.execMinMaxMinuMaxu core s
  | .addsSubs core => Sys2Proof.Machine.execAddsSubs core s
  | .mul core => Sys2Proof.Machine.execMul core s
  | .mulhMulhu core => Sys2Proof.Machine.execMulhMulhu core s
  | .divDivuRemRemu core => Sys2Proof.Machine.execDivDivuRemRemu core s
  | .clzPopc core => Sys2Proof.Machine.execClzPopc core s
  | .cmpeqCmpneCmpltCmpltuCmpgeCmpgeu core => Sys2Proof.Machine.execCmpeqCmpneCmpltCmpltuCmpgeCmpgeu core s
  | .pandPorPxorPandn core => Sys2Proof.Machine.execPandPorPxorPandn core s
  | .pmovx core => Sys2Proof.Machine.execPmovx core s
  | .xmovp core => Sys2Proof.Machine.execXmovp core s
  | .faddFsubFmulFdivFminFmax core => Sys2Proof.Machine.execFaddFsubFmulFdivFminFmax core s
  | .fsqrt core => Sys2Proof.Machine.execFsqrt core s
  | .fcvtif core => Sys2Proof.Machine.execFcvtif core s
  | .fcvtfi core => Sys2Proof.Machine.execFcvtfi core s
  | .fcmpltFcmpeq core => Sys2Proof.Machine.execFcmpltFcmpeq core s
  | .ldbLdbuLdhLdhuLdwLdwuLdd core => Sys2Proof.Machine.execLdbLdbuLdhLdhuLdwLdwuLdd core s
  | .stbSthStwStd core => Sys2Proof.Machine.execStbSthStwStd core s
  | .br core => Sys2Proof.Machine.execBr core s
  | .jal core => Sys2Proof.Machine.execJal core s
  | .jr core => Sys2Proof.Machine.execJr core s
  | .loop core => Sys2Proof.Machine.execLoop core s
  | .lclr core => Sys2Proof.Machine.execLclr core s
  | .lrd core => Sys2Proof.Machine.execLrd core s
  | .endjob core => Sys2Proof.Machine.execEndjob core s
  | .fence core => Sys2Proof.Machine.execFence core s
  | .mwait core => Sys2Proof.Machine.execMwait core s
  | .await core => Sys2Proof.Machine.execAwait core s
  | .rdstat core => Sys2Proof.Machine.execRdstat core s
  | .clrstat core => Sys2Proof.Machine.execClrstat core s
  | .hpush core cycles => Sys2Proof.Machine.execHpush core cycles s
  | .hpop core meet host => Sys2Proof.Machine.execHpop core meet host s
  | .hpeek core => Sys2Proof.Machine.execHpeek core s
  | .qalloc core => Sys2Proof.Machine.execQalloc core s
  | .qfree core => Sys2Proof.Machine.execQfree core s
  | .svc core => Sys2Proof.Machine.execSvc core s
  | .load core => Sys2Proof.Machine.execLoad core s
  | .store core => Sys2Proof.Machine.execStore core s
  | .copy core => Sys2Proof.Machine.execCopy core s
  | .gather core => Sys2Proof.Machine.execGather core s
  | .fill core => Sys2Proof.Machine.execFill core s
  | .mma core => Sys2Proof.Machine.execMma core s
  | .drain core => Sys2Proof.Machine.execDrain core s
  | .aclr core => Sys2Proof.Machine.execAclr core s
  | .vld core => Sys2Proof.Machine.execVld core s
  | .vst core => Sys2Proof.Machine.execVst core s
  | .vbcast core => Sys2Proof.Machine.execVbcast core s
  | .vmov core => Sys2Proof.Machine.execVmov core s
  | .vaddVsub core => Sys2Proof.Machine.execVaddVsub core s
  | .vmul core => Sys2Proof.Machine.execVmul core s
  | .vmulh core => Sys2Proof.Machine.execVmulh core s
  | .vmac core => Sys2Proof.Machine.execVmac core s
  | .vminVmax core => Sys2Proof.Machine.execVminVmax core s
  | .vabsVneg core => Sys2Proof.Machine.execVabsVneg core s
  | .vandVorVxor core => Sys2Proof.Machine.execVandVorVxor core s
  | .vshlVshr core => Sys2Proof.Machine.execVshlVshr core s
  | .vshrr core => Sys2Proof.Machine.execVshrr core s
  | .vcmpeqVcmpltVcmple core => Sys2Proof.Machine.execVcmpeqVcmpltVcmple core s
  | .vsel core => Sys2Proof.Machine.execVsel core s
  | .vcvt core => Sys2Proof.Machine.execVcvt core s
  | .vrmax core => Sys2Proof.Machine.execVrmax core s
  | .vrsum core => Sys2Proof.Machine.execVrsum core s
  | .vpool core => Sys2Proof.Machine.execVpool core s
  | .vqrow core => Sys2Proof.Machine.execVqrow core s
  | .vrcpVrsqrtVexp core => Sys2Proof.Machine.execVrcpVrsqrtVexp core s
  | .vshuf core => Sys2Proof.Machine.execVshuf core s
  | .dispatchNormal core meet host => Sys2Proof.Machine.execDispatchNormal core meet host s
  | .partitionQuiesced part => Sys2Proof.Machine.execPartitionQuiesced part s
  | .deadlinePass model meet host => Sys2Proof.Machine.execDeadlinePass model meet host s
  | .windowGrant sub late => Sys2Proof.Machine.execWindowGrant sub late s
  | .sensorSample sensor sample ok => Sys2Proof.Machine.execSensorSample sensor sample ok s
  | .periodBoundary uj => Sys2Proof.Machine.execPeriodBoundary uj s
  | .planAccept us iter x => Sys2Proof.Machine.execPlanAccept us iter x s
  | .planAbandon us iter status => Sys2Proof.Machine.execPlanAbandon us iter status s
  | .keySolve host => Sys2Proof.Machine.execKeySolve host s
  | .keySetup us stallNs uj => Sys2Proof.Machine.execKeySetup us stallNs uj s
  | .keySegmentEnd us stallNs uj => Sys2Proof.Machine.execKeySegmentEnd us stallNs uj s
  | .keyPfSubmit req ctx data host => Sys2Proof.Machine.execKeyPfSubmit req ctx data host s
  | .loadBasis host => Sys2Proof.Machine.execLoadBasis host s
  | .loadModulus host => Sys2Proof.Machine.execLoadModulus host s
  | .sflMul host => Sys2Proof.Machine.execSflMul host s
  | .sflAdd host => Sys2Proof.Machine.execSflAdd host s
  | .sflSub host => Sys2Proof.Machine.execSflSub host s
  | .muladd host => Sys2Proof.Machine.execMuladd host s
  | .mask host => Sys2Proof.Machine.execMask host s
  | .ntt host => Sys2Proof.Machine.execNtt host s
  | .intt host => Sys2Proof.Machine.execIntt host s
  | .auto host => Sys2Proof.Machine.execAuto host s
  | .baseExt host => Sys2Proof.Machine.execBaseExt host s
  | .lmul host => Sys2Proof.Machine.execLmul host s
  | .ladd host => Sys2Proof.Machine.execLadd host s
  | .vaultImport host => Sys2Proof.Machine.execVaultImport host s
  | .sflOperationEnd us stallNs uj => Sys2Proof.Machine.execSflOperationEnd us stallNs uj s
  | .sflPfSubmit req data host => Sys2Proof.Machine.execSflPfSubmit req data host s
  | .micBlock times ts => Sys2Proof.Machine.execMicBlock times ts s
  | .micStuck mic => Sys2Proof.Machine.execMicStuck mic s
  | .tdmInLost ppm => Sys2Proof.Machine.execTdmInLost ppm s
  | .tdmInRelock ppm => Sys2Proof.Machine.execTdmInRelock ppm s
  | .tdmOutFrame src => Sys2Proof.Machine.execTdmOutFrame src s
  | .alertEntryPop meet host => Sys2Proof.Machine.execAlertEntryPop meet host s
  | .ampLatch chan cls => Sys2Proof.Machine.execAmpLatch chan cls s
  | .ampIdlePulse chan cls => Sys2Proof.Machine.execAmpIdlePulse chan cls s
  | .ampRetry chan good cls => Sys2Proof.Machine.execAmpRetry chan good cls s
  | .ampDiagWrite chan data => Sys2Proof.Machine.execAmpDiagWrite chan data s
  | .cshOccurrence n => Sys2Proof.Machine.execCshOccurrence n s
  | .cshSwRecord req data => Sys2Proof.Machine.execCshSwRecord req data s
  | .fltFaultArrive n => Sys2Proof.Machine.execFltFaultArrive n s
  | .vinChange mv ma => Sys2Proof.Machine.execVinChange mv ma s
  | .orderlyShutdown why => Sys2Proof.Machine.execOrderlyShutdown why s
  | .moduleStart rose => Sys2Proof.Machine.execModuleStart rose s
  | .heartbeat count => Sys2Proof.Machine.execHeartbeat count s
  | .hostLost why => Sys2Proof.Machine.execHostLost why s
  | .coolantUpdate cold reg => Sys2Proof.Machine.execCoolantUpdate cold reg s
  | .vehicle data => Sys2Proof.Machine.execVehicle data s
  | .mgmtWrite addr data => Sys2Proof.Machine.execMgmtWrite addr data s
  | .mgmtRead addr words => Sys2Proof.Machine.execMgmtRead addr words s
  | .extest data pins => Sys2Proof.Machine.execExtest data pins s
  | .samplePreload data pins => Sys2Proof.Machine.execSamplePreload data pins s
  | .regReturn isl => Sys2Proof.Machine.execRegReturn isl s
  | .micStuckClear mic => Sys2Proof.Machine.execMicStuckClear mic s
  | .ethLinkChange mac up => Sys2Proof.Machine.execEthLinkChange mac up s
  | .csiIgnoredPacket port dt rx => Sys2Proof.Machine.execCsiIgnoredPacket port dt rx s
  | .mailboxWrite off data => Sys2Proof.Machine.execMailboxWrite off data s
  | .supplyRamp => Sys2Proof.Machine.execSupplyRamp s
  | .brownout => Sys2Proof.Machine.execBrownout s
  | .resetRelease => Sys2Proof.Machine.execResetRelease s
  | .islandBringup => Sys2Proof.Machine.execIslandBringup s
  | .localModelHash => Sys2Proof.Machine.execLocalModelHash s
  | .bootEnable => Sys2Proof.Machine.execBootEnable s
  | .streamEnable => Sys2Proof.Machine.execStreamEnable s
  | .directoryWriteDone => Sys2Proof.Machine.execDirectoryWriteDone s
  | .flashDone => Sys2Proof.Machine.execFlashDone s
  | .flashTimeout => Sys2Proof.Machine.execFlashTimeout s
  | .otpDone => Sys2Proof.Machine.execOtpDone s
  | .linkTrain => Sys2Proof.Machine.execLinkTrain s
  | .tagWaitIssue => Sys2Proof.Machine.execTagWaitIssue s
  | .postedWriteSent => Sys2Proof.Machine.execPostedWriteSent s
  | .pfFlr => Sys2Proof.Machine.execPfFlr s
  | .l1Entry => Sys2Proof.Machine.execL1Entry s
  | .layoutReady => Sys2Proof.Machine.execLayoutReady s
  | .tbHoldover => Sys2Proof.Machine.execTbHoldover s
  | .eslAudioWindow => Sys2Proof.Machine.execEslAudioWindow s
  | .dispatchUrgent meet host => Sys2Proof.Machine.execDispatchUrgent meet host s
  | .clampRelease => Sys2Proof.Machine.execClampRelease s
  | .keyRelease => Sys2Proof.Machine.execKeyRelease s
  | .vaultClear => Sys2Proof.Machine.execVaultClear s
  | .micBlockHandoff => Sys2Proof.Machine.execMicBlockHandoff s
  | .alertHoldExpire => Sys2Proof.Machine.execAlertHoldExpire s
  | .seamCheckDone => Sys2Proof.Machine.execSeamCheckDone s
  | .seamVotesDone => Sys2Proof.Machine.execSeamVotesDone s
  | .seamCommit => Sys2Proof.Machine.execSeamCommit s
  | .seamTimeout => Sys2Proof.Machine.execSeamTimeout s
  | .cshAccept => Sys2Proof.Machine.execCshAccept s
  | .cshRecordWrite => Sys2Proof.Machine.execCshRecordWrite s
  | .cshSnapshot => Sys2Proof.Machine.execCshSnapshot s
  | .cshExtCopy => Sys2Proof.Machine.execCshExtCopy s
  | .injectionExpire => Sys2Proof.Machine.execInjectionExpire s
  | .vinRangeTimeout => Sys2Proof.Machine.execVinRangeTimeout s
  | .railFault => Sys2Proof.Machine.execRailFault s
  | .lockstepMismatch => Sys2Proof.Machine.execLockstepMismatch s
  | .thermalTripOff => Sys2Proof.Machine.execThermalTripOff s
  | .tripRestart => Sys2Proof.Machine.execTripRestart s
  | .fypSafetySample => Sys2Proof.Machine.execFypSafetySample s
  | .fabLost => Sys2Proof.Machine.execFabLost s
  | .ledgerDeliver => Sys2Proof.Machine.execLedgerDeliver s
  | .ledgerUpdate => Sys2Proof.Machine.execLedgerUpdate s
  | .ledgerTimeout => Sys2Proof.Machine.execLedgerTimeout s
  | .wakeTimeout => Sys2Proof.Machine.execWakeTimeout s
  | .alertFrame => Sys2Proof.Machine.execAlertFrame s
  | .statusFrame => Sys2Proof.Machine.execStatusFrame s
  | .degradedFrame => Sys2Proof.Machine.execDegradedFrame s
  | .vehicleTimeout => Sys2Proof.Machine.execVehicleTimeout s
  | .idcode => Sys2Proof.Machine.execIdcode s
  | .bypass => Sys2Proof.Machine.execBypass s
  | .lockstepResetDone => Sys2Proof.Machine.execLockstepResetDone s
  | .tapReset => Sys2Proof.Machine.execTapReset s
  | .lockSet req page => Sys2Proof.Machine.execLockSet req page s
  | .bootConfirm req data => Sys2Proof.Machine.execBootConfirm req data s
  | .flashRead req => Sys2Proof.Machine.execFlashRead req s
  | .flashProgram req => Sys2Proof.Machine.execFlashProgram req s
  | .flashErase req => Sys2Proof.Machine.execFlashErase req s
  | .flashInstall req => Sys2Proof.Machine.execFlashInstall req s
  | .advanceRollback req data => Sys2Proof.Machine.execAdvanceRollback req data s
  | .revokeKey req data => Sys2Proof.Machine.execRevokeKey req data s
  | .retire req data => Sys2Proof.Machine.execRetire req data s
  | .ptpRxPop req mac data => Sys2Proof.Machine.execPtpRxPop req mac data s
  | .tbStep req data => Sys2Proof.Machine.execTbStep req data s
  | .tbSlew req data => Sys2Proof.Machine.execTbSlew req data s
  | .tbRate req data => Sys2Proof.Machine.execTbRate req data s
  | .tbServoLocked req data => Sys2Proof.Machine.execTbServoLocked req data s
  | .devResync req slot data => Sys2Proof.Machine.execDevResync req slot data s
  | .partitionQuiesce req part data => Sys2Proof.Machine.execPartitionQuiesce req part data s
  | .ampClear req chan data => Sys2Proof.Machine.execAmpClear req chan data s
  | .prepare req => Sys2Proof.Machine.execPrepare req s
  | .abort req => Sys2Proof.Machine.execAbort req s
  | .discard req => Sys2Proof.Machine.execDiscard req s
  | .cshExtEnable req data => Sys2Proof.Machine.execCshExtEnable req data s
  | .safeStatusClear req seen data => Sys2Proof.Machine.execSafeStatusClear req seen data s
  | .clearLast req data => Sys2Proof.Machine.execClearLast req data s
  | .sramCe req data => Sys2Proof.Machine.execSramCe req data s
  | .sramUe req data => Sys2Proof.Machine.execSramUe req data s
  | .pair req data => Sys2Proof.Machine.execPair req data s
  | .csiCrc req data => Sys2Proof.Machine.execCsiCrc req data s
  | .dramCa req data => Sys2Proof.Machine.execDramCa req data s
  | .dramCrc req data => Sys2Proof.Machine.execDramCrc req data s
  | .delay req data => Sys2Proof.Machine.execDelay req data s
  | .holdRead req data => Sys2Proof.Machine.execHoldRead req data s
  | .temp req data => Sys2Proof.Machine.execTemp req data s
  | .tripTest req data => Sys2Proof.Machine.execTripTest req data s
  | .restart key wake => Sys2Proof.Machine.execRestart key wake s
  | .serviceBoot key wake => Sys2Proof.Machine.execServiceBoot key wake s
  | .shutdown key wake => Sys2Proof.Machine.execShutdown key wake s
  | .ledgerClear key wake => Sys2Proof.Machine.execLedgerClear key wake s
  | .canSet key wake => Sys2Proof.Machine.execCanSet key wake s

end Sys2Proof.Machine
end

