-- ==== Sys2Proof/Safety.lean ====
section
/-!
DEFINITION. Safety.lean: what a well-kept state is, in the terms that claims use.
-/
namespace Sys2Proof.Machine
open Sys2Proof

/-- The memory is in its canonical form: addresses strictly rising, no entry equal to the 0 that an unlisted address reads as. -/
def Memory.wf (m : List Host.Cell) : Bool := SMap.sorted m && m.all fun e => decide (e.2 ≠ 0)

end Sys2Proof.Machine
end

