-- ==== Sys2Proof/Certificates/Slice0/Obligations.lean ====
section
/-!
DEFINITION. Certificates/Slice0/Obligations.lean: the statements for the provers, and the few words that they are written in.
-/
open Sys2Proof Sys2Proof.Machine

namespace Sys2Proof.Claims

/-- The command answers a next state, of which `P` holds. -/
def Runs (c : Instr) (s : State) (P : State → Prop) : Prop := ∃ t, exec c s = .next t ∧ P t

/-- The command answers the next state `t`. -/
def Gives (c : Instr) (s t : State) : Prop := exec c s = .next t

/-- Event bit `b` of a page reads 1. -/
def Raised (t : State) (pg b : Nat) : Prop := rb t (hdr pg 0x20) b = true

/-- From `s` to `t` the bytes of memory stay: every address reads as before. -/
def SameBytes (s t : State) : Prop := ∀ a, memByte t a = memByte s a

/-- `u` with the registers, the messages and the interrupts of `s` taken back. -/
def back (s u : State) : State :=
  let pci := { u.pci with sent := s.pci.sent, funcs := s.pci.funcs, l1 := s.pci.l1, writes := s.pci.writes }
  { u with regs := s.regs, fypSignals := s.fypSignals, toFlt := s.toFlt, toCsh := s.toCsh, pci := pci }

/-- A frame: where `u` is the next state with the fields that a command may change taken back, nothing else has changed but the registers of the pages
`ps` and the messages that their events send; the whole memory is among what stays. -/
def Frame (s u : State) (ps : List Nat) : Prop := back s u = s ∧ ∀ off, off / 0x1000 ∉ ps → rd u off = rd s off

/-- The bundle at the bundle address of bank `u` of core `n` issues: the bank runs and has work left, the bundle holds something and nothing
reserved, it lies in the core's SRAM, it waits for nothing and no stall holds it at a preemption point, no slot of it takes an exception, no bit that it reads
has flipped and no injection is armed (13 R393, R396, R407, R408; 12 R371; 16 R498). -/
def Ready (s : State) (n : Nat) (u : Bool) (b : Nat) : Bool :=
  let k := coreOf s n
  let bk := bankOf' k u
  let c := bundleCmd s b bk u (aOperand b bk)
  decide (n < 8) && decide (n < s.cores.length) && decide (bankAtWork s n = some u) && decide (nextBundle s n u = b) && !isNop b
    && bk.ended.isNone && !bk.atEnd && !awaitsPoint s n u && (illegalSlot b bk).isNone && inOwn n bk.pc 128
    && !(k.stalled && !u && ppMark b) && !(slotRuns b bk 4 && decide (aSel (slotA b) = 1))
    && (waitCause n k u b c).isNone && k.flips.isEmpty && (bundleExc s n k u b c).isNone && s.eccErr.isEmpty && s.dram.eccFlips.isEmpty
    && !fetchBad s n u && decide (rf s R.FLT_INJ_STATUS 1 0 ≠ 1)

/-- The same for a bundle that presents no request that may have to wait: no access outside the core's SRAM, no HPUSH and no HPOP. -/
def Issues (s : State) (n : Nat) (u : Bool) (b : Nat) : Bool := Ready s n u b && !presents n s

/-- The bank that issues, the bundle's array command, and the state after the bundle. -/
abbrev bankNow (s : State) (n : Nat) (u : Bool) : Bank := bankOf' (coreOf s n) u
abbrev cmdNow (s : State) (n : Nat) (u : Bool) (b : Nat) : ArrayCmd := bundleCmd s b (bankNow s n u) u (aOperand b (bankNow s n u))
abbrev issued (s : State) (n : Nat) (u : Bool) (b : Nat) : State := issueEffects s n u b 0 .alone (cmdNow s n u b)

/-- The state in which the requests of a command are presented; no request of it has to wait, and none goes to the page window or the table window; what
the command gives then. -/
abbrev withHost (s : State) (host : List Cpl) : State := updIo s fun _ => { host := host }
def Unheld (t : State) : Prop := t.mortar.io.blocked = false ∧ t.mortar.io.want = none ∧ t.mortar.io.posted = []
abbrev given (s t : State) : State := updIo t fun _ => s.mortar.io

/-- The command's work ends in `u`, of which `P` holds; where none of the requests in it has to wait, the command answers the next state that this gives. -/
def Completes (c : Instr) (s u : State) (P : State → Prop) : Prop := P u ∧ (Unheld u → Gives c s (given s u))

/-- The row of a scalar opcode (13 R418). -/
def scalarRow (n op : Nat) : Option Instr :=
  if 0x01 ≤ op ∧ op ≤ 0x08 then some (.addSubAndOrXorSllSrlSra n)
  else if op = 0x09 ∨ op = 0x0A then some (.sltSltu n)
  else if 0x0B ≤ op ∧ op ≤ 0x0E then some (.minMaxMinuMaxu n)
  else if op = 0x0F ∨ op = 0x10 then some (.addsSubs n)
  else if op = 0x11 then some (.mul n)
  else if op = 0x12 ∨ op = 0x13 then some (.mulhMulhu n)
  else if 0x14 ≤ op ∧ op ≤ 0x17 then some (.divDivuRemRemu n)
  else if op = 0x18 ∨ op = 0x19 then some (.clzPopc n)
  else if 0x20 ≤ op ∧ op ≤ 0x25 then some (.cmpeqCmpneCmpltCmpltuCmpgeCmpgeu n)
  else if 0x28 ≤ op ∧ op ≤ 0x2B then some (.pandPorPxorPandn n)
  else if op = 0x2C then some (.pmovx n)
  else if op = 0x2D then some (.xmovp n)
  else if 0x30 ≤ op ∧ op ≤ 0x35 then some (.faddFsubFmulFdivFminFmax n)
  else if op = 0x36 then some (.fsqrt n)
  else if op = 0x37 then some (.fcvtif n)
  else if op = 0x38 then some (.fcvtfi n)
  else if op = 0x39 ∨ op = 0x3A then some (.fcmpltFcmpeq n)
  else if 0x40 ≤ op ∧ op ≤ 0x46 then some (.ldbLdbuLdhLdhuLdwLdwuLdd n)
  else if 0x48 ≤ op ∧ op ≤ 0x4B then some (.stbSthStwStd n)
  else none

/-- The row of a control opcode, but for HPUSH and HPOP, whose rows carry operands (13 R423, R426, R430 to R432). -/
def controlRow (n op : Nat) : Option Instr :=
  match op with
  | 0x01 => some (.br n)
  | 0x02 => some (.jal n)
  | 0x03 => some (.jr n)
  | 0x04 => some (.loop n)
  | 0x05 => some (.lclr n)
  | 0x06 => some (.lrd n)
  | 0x08 => some (.endjob n)
  | 0x09 => some (.fence n)
  | 0x0A => some (.mwait n)
  | 0x0B => some (.await n)
  | 0x0C => some (.rdstat n)
  | 0x0D => some (.clrstat n)
  | 0x12 => some (.hpeek n)
  | 0x18 => some (.qalloc n)
  | 0x19 => some (.qfree n)
  | 0x20 => some (.svc n)
  | _ => none

/-- The row of a vector opcode (15 R466). -/
def vectorRow (n op : Nat) : Option Instr :=
  match op with
  | 0x01 => some (.vld n)
  | 0x02 => some (.vst n)
  | 0x03 => some (.vbcast n)
  | 0x04 => some (.vmov n)
  | 0x08 | 0x09 => some (.vaddVsub n)
  | 0x0A => some (.vmul n)
  | 0x0B => some (.vmulh n)
  | 0x0C => some (.vmac n)
  | 0x0D | 0x0E => some (.vminVmax n)
  | 0x0F | 0x10 => some (.vabsVneg n)
  | 0x14 | 0x15 | 0x16 => some (.vandVorVxor n)
  | 0x17 | 0x18 => some (.vshlVshr n)
  | 0x19 => some (.vshrr n)
  | 0x1C | 0x1D | 0x1E => some (.vcmpeqVcmpltVcmple n)
  | 0x1F => some (.vsel n)
  | 0x20 => some (.vcvt n)
  | 0x24 => some (.vrmax n)
  | 0x25 => some (.vrsum n)
  | 0x28 => some (.vpool n)
  | 0x29 => some (.vqrow n)
  | 0x2C | 0x2D | 0x2E => some (.vrcpVrsqrtVexp n)
  | 0x30 => some (.vshuf n)
  | _ => none

/-- The row of an array opcode (14 R446) and of a mover opcode (13 R436). -/
def arrayRow (n op : Nat) : Option Instr :=
  match op with
  | 0x01 => some (.mma n)
  | 0x04 => some (.drain n)
  | 0x05 => some (.aclr n)
  | _ => none
def moverRow (n op : Nat) : Option Instr :=
  match op with
  | 0x01 => some (.load n)
  | 0x02 => some (.store n)
  | 0x03 => some (.copy n)
  | 0x04 => some (.gather n)
  | 0x05 => some (.fill n)
  | _ => none

/-- Only the S slot of a bundle holds an instruction; only its C slot; only V slot 0. -/
def onlyS (b : Nat) : Bool :=
  scOp false (slotC b) = 0 && vOp (slotV b 0) = 0 && vOp (slotV b 1) = 0 && aOp (slotA b) = 0 && mOp (slotM b 0) = 0 && mOp (slotM b 1) = 0
def onlyC (b : Nat) : Bool :=
  scOp true (slotS b) = 0 && vOp (slotV b 0) = 0 && vOp (slotV b 1) = 0 && aOp (slotA b) = 0 && mOp (slotM b 0) = 0 && mOp (slotM b 1) = 0
def onlyV (b : Nat) : Bool :=
  scOp true (slotS b) = 0 && scOp false (slotC b) = 0 && vOp (slotV b 1) = 0 && aOp (slotA b) = 0 && mOp (slotM b 0) = 0 && mOp (slotM b 1) = 0

/-- Only the A and M slots of a bundle hold instructions. -/
def onlyUnits (b : Nat) : Bool :=
  scOp true (slotS b) = 0 && scOp false (slotC b) = 0 && vOp (slotV b 0) = 0 && vOp (slotV b 1) = 0

/-- No active loop ends at the bundle address: the next bundle is the next in memory. -/
abbrev Straight (k : Bank) : Prop := innerLoop k.loops k.pc = none

/-- The other banks of the machine stay: those of other cores, and the other bank of core `n`. -/
def OtherBanks (s t : State) (n : Nat) (u : Bool) : Prop :=
  bankNow t n (!u) = bankNow s n (!u) ∧ ∀ m, m ≠ n → coreOf t m = coreOf s m

end Sys2Proof.Claims
open Sys2Proof.Claims

/-! The queue and the step. -/

/-- A step takes the command at the front and runs it on the queue's rest. -/
def Obligations.StepRunsTheFrontCommand : Prop :=
  ∀ (c : Instr) (s : State), step { s with pending := c :: s.pending } = exec c s

/-- An empty queue lets one AON cycle pass and stays empty (DESIGN CHOICE, notes/assumptions/1.md). -/
def Obligations.EmptyQueueLetsOneCyclePass : Prop :=
  ∀ s : State, s.pending = [] → ∃ t, step s = .next t ∧ t.pending = [] ∧ t.clock = s.clock + 1

/-- Every command whose supply voltage is survivable runs to a next state in which the commands behind it wait as before and no AON cycle
has passed; the clock is the model's (DESIGN CHOICE, notes/assumptions/1.md). -/
def Obligations.EveryCommandRunsAndKeepsTheQueue : Prop :=
  ∀ (c : Instr) (s : State), (∀ mv ma, c = .vinChange mv ma → -16000 ≤ mv ∧ mv ≤ 18000) →
    Runs c s fun t => t.pending = s.pending ∧ t.clock = s.clock ∧ s.drawn ≤ t.drawn

/-- Every step keeps the canonical form of the memory. -/
def Obligations.StepKeepsMemoryCanonical : Prop :=
  ∀ s t : State, Memory.wf s.mem = true → step s = .next t → Memory.wf t.mem = true

/-- At reset the memory is canonical and lists nothing, the queue is empty, and every register reads its reset word. -/
def Obligations.ResetIsCanonicalAndEmpty : Prop :=
  Memory.wf State.reset.mem = true ∧ State.reset.mem = [] ∧ State.reset.pending = [] ∧ ∀ off, rd State.reset off = resetWord off

/-- A module supply outside −16 V to +18 V is outside the range in which the module survives: the model stops there by name. -/
def Obligations.SupplyOutsideSurvivalStops : Prop :=
  ∀ (mv : Int) (ma : Nat) (s : State), (mv < -16000 ∨ 18000 < mv) → exec (.vinChange mv ma) s = .fault .vinOutsideSurvival

/-! Cores (chapters 12 to 15). -/

/-- A scalar instruction of the next bundle issues whole with its bundle. -/
def Obligations.ScalarRowsIssue : Prop :=
  ∀ (s : State) (n : Nat) (u : Bool) (b : Nat) (i : Instr),
    Issues s n u b = true → scOp false (slotC b) ≠ 0x10 → scOp false (slotC b) ≠ 0x11 → slotRuns b (bankNow s n u) 0 = true →
    scalarRow n (scOp true (slotS b)) = some i → Gives i s (issued s n u b)

/-- No case of an integer instruction of the S slot traps, whatever the operands; each writes its destination with the value of the table, and nothing
else of the core's registers. -/
def Obligations.IntegerScalarResult : Prop :=
  (∀ (s : State) (n : Nat) (k : Bank) (b : Nat), scOp true (slotS b) ≤ 0x19 → scalarExc s n k b = none)
  ∧ ∀ (s : State) (n : Nat) (u : Bool) (b : Nat) (i : Instr) (x y : BitVec 64) (r : BitVec 64),
    Issues s n u b = true → onlyS b = true → slotRuns b (bankNow s n u) 0 = true → Straight (bankNow s n u) →
    (bankNow s n u).x.length = 32 → (sOperands b (bankNow s n u)).1 = x.toNat → (sOperands b (bankNow s n u)).2 = y.toNat →
    scalarRow n (scOp true (slotS b)) = some i →
    (match scOp true (slotS b) with
      | 0x01 => r = x + y
      | 0x02 => r = x - y
      | 0x03 => r = x &&& y
      | 0x04 => r = x ||| y
      | 0x05 => r = x ^^^ y
      | 0x06 => r = x <<< (y.toNat % 64)
      | 0x07 => r = x >>> (y.toNat % 64)
      | 0x08 => r = x.sshiftRight (y.toNat % 64)
      | 0x09 => r = if x.slt y then 1 else 0
      | 0x0A => r = if x.ult y then 1 else 0
      | 0x0B => r = if x.slt y then x else y
      | 0x0C => r = if x.slt y then y else x
      | 0x0D => r = if x.ult y then x else y
      | 0x0E => r = if x.ult y then y else x
      | 0x0F => r = BitVec.ofInt 64 (max (-(2 ^ 63)) (min (2 ^ 63 - 1) (x.toInt + y.toInt)))
      | 0x10 => r = BitVec.ofInt 64 (max (-(2 ^ 63)) (min (2 ^ 63 - 1) (x.toInt - y.toInt)))
      | 0x11 => r = x * y
      | 0x12 => r = BitVec.ofInt 64 (x.toInt * y.toInt / 2 ^ 64)
      | 0x13 => r = BitVec.ofNat 64 (x.toNat * y.toNat / 2 ^ 64)
      | 0x14 => r = if y = 0 then BitVec.allOnes 64 else x.sdiv y
      | 0x15 => r = if y = 0 then BitVec.allOnes 64 else x / y
      | 0x16 => r = if y = 0 then x else x.srem y
      | 0x17 => r = if y = 0 then x else x % y
      | 0x18 => r.toNat = 64 - (if x.toNat = 0 then 0 else x.toNat.log2 + 1)
      | 0x19 => r.toNat = ((List.range 64).filter x.getLsbD).length
      | _ => False) →
    Runs i s fun t =>
      (∀ d, xr (bankNow t n u) d = if d ≠ 0 ∧ d = scRd (slotS b) then r.toNat else xr (bankNow s n u) d)
        ∧ (bankNow t n u).pc = (bankNow s n u).pc + 128 ∧ (bankNow t n u).p = (bankNow s n u).p ∧ (bankNow t n u).v = (bankNow s n u).v
        ∧ OtherBanks s t n u ∧ Frame s { t with cores := s.cores } [P.ash n, P.dpt]

/-- A scalar load of the core's own SRAM writes the bytes at its address, sign- or zero-extended, and memory reads as before. -/
def Obligations.ScalarLoadResult : Prop :=
  ∀ (s : State) (n : Nat) (u : Bool) (b : Nat),
    let k := bankNow s n u
    let o := scOp true (slotS b)
    let a := sAddress b k
    Issues s n u b = true → onlyS b = true → slotRuns b k 0 = true → Straight k → k.x.length = 32 → 0x40 ≤ o → o ≤ 0x46 → inOwn n a 1 = true →
    badRanges s a (accessSize o).1 = [] →
    islandStatus s (19 + n) = MS.ok →
    Runs (.ldbLdbuLdhLdhuLdwLdwuLdd n) s fun t =>
      (∀ d, xr (bankNow t n u) d =
        if d ≠ 0 ∧ d = scRd (slotS b) then
          (match o with
            | 0x40 => unsx 64 (sx 8 (ofLe (memBytes s a 1)))
            | 0x41 => ofLe (memBytes s a 1)
            | 0x42 => unsx 64 (sx 16 (ofLe (memBytes s a 2)))
            | 0x43 => ofLe (memBytes s a 2)
            | 0x44 => unsx 64 (sx 32 (ofLe (memBytes s a 4)))
            | 0x45 => ofLe (memBytes s a 4)
            | _ => ofLe (memBytes s a 8))
        else xr k d)
        ∧ (bankNow t n u).pc = k.pc + 128 ∧ OtherBanks s t n u ∧ SameBytes s t

/-- A scalar store to the core's own SRAM writes the low bytes of its source register, the least significant byte first, and every byte outside
[address, address + size) reads as before; no register of the core changes. -/
def Obligations.ScalarStoreResult : Prop :=
  ∀ (s : State) (n : Nat) (u : Bool) (b : Nat),
    let k := bankNow s n u
    let o := scOp true (slotS b)
    let a := sAddress b k
    let z := (accessSize o).1
    Issues s n u b = true → onlyS b = true → slotRuns b k 0 = true → Straight k → 0x48 ≤ o → o ≤ 0x4B → inOwn n a 1 = true →
    islandStatus s (19 + n) = MS.ok →
    Runs (.stbSthStwStd n) s fun t =>
      (∀ i, i < z → (memByte t (a + i)).toNat = xr k (scRs2 (slotS b)) / 256 ^ i % 256)
        ∧ (∀ c, (c < a ∨ a + z ≤ c) → memByte t c = memByte s c)
        ∧ (∀ d, xr (bankNow t n u) d = xr k d) ∧ (bankNow t n u).p = k.p ∧ (bankNow t n u).v = k.v ∧ OtherBanks s t n u

/-- The comparisons, the predicate operations and XMOVP write predicates, PMOVX reads them, and no other register of the core changes. -/
def Obligations.PredicateScalarResult : Prop :=
  ∀ (s : State) (n : Nat) (u : Bool) (b : Nat) (i : Instr),
    let k := bankNow s n u
    let w := slotS b
    let x := (sOperands b k).1
    let y := (sOperands b k).2
    Issues s n u b = true → onlyS b = true → slotRuns b k 0 = true → Straight k → k.x.length = 32 → k.p < 256 →
    scalarRow n (scOp true w) = some i →
    (scOp true w = 0x2C → Runs i s fun t => ∀ d, xr (bankNow t n u) d = if d ≠ 0 ∧ d = scRd w then k.p else xr k d)
      ∧ (scOp true w = 0x2D → Runs i s fun t =>
          (∀ d, 1 ≤ d → d ≤ 7 → pr (bankNow t n u) d = bit x d) ∧ (∀ d, xr (bankNow t n u) d = xr k d))
      ∧ (∀ q : Bool,
          (match scOp true w with
            | 0x20 => q = decide (x = y)
            | 0x21 => q = decide (x ≠ y)
            | 0x22 => q = (BitVec.ofNat 64 x).slt (BitVec.ofNat 64 y)
            | 0x23 => q = decide (x % 2 ^ 64 < y % 2 ^ 64)
            | 0x24 => q = !(BitVec.ofNat 64 x).slt (BitVec.ofNat 64 y)
            | 0x25 => q = decide (y % 2 ^ 64 ≤ x % 2 ^ 64)
            | 0x28 => q = (pr k (scRs1 w) && pr k (scRs2 w))
            | 0x29 => q = (pr k (scRs1 w) || pr k (scRs2 w))
            | 0x2A => q = (pr k (scRs1 w) != pr k (scRs2 w))
            | 0x2B => q = (pr k (scRs1 w) && !pr k (scRs2 w))
            | _ => False) → x < 2 ^ 64 → y < 2 ^ 64 →
          Runs i s fun t =>
            (∀ d, d < 8 → pr (bankNow t n u) d = if d ≠ 0 ∧ d = scRd w then q else pr k d) ∧ (∀ d, xr (bankNow t n u) d = xr k d)
              ∧ (bankNow t n u).v = k.v ∧ OtherBanks s t n u ∧ Frame s { t with cores := s.cores } [P.ash n, P.dpt])

/-- An arithmetic FP32 instruction with a NaN operand writes 0x7FC00000; a comparison with one writes 0. -/
def Obligations.FloatScalarNaN : Prop :=
  ∀ (s : State) (n : Nat) (u : Bool) (b : Nat) (i : Instr),
    let k := bankNow s n u
    let w := slotS b
    let nan (v : Nat) : Prop := bits v 30 23 = 255 ∧ bits v 22 0 ≠ 0
    let x := (sOperands b k).1
    let y := (sOperands b k).2
    Issues s n u b = true → onlyS b = true → slotRuns b k 0 = true → k.x.length = 32 → scalarRow n (scOp true w) = some i → scRd w ≠ 0 →
    ((0x30 ≤ scOp true w ∧ scOp true w ≤ 0x33 ∧ (nan x ∨ nan y)) ∨ (scOp true w = 0x36 ∧ nan x) →
        Runs i s fun t => xr (bankNow t n u) (scRd w) = 0x7FC00000)
      ∧ ((scOp true w = 0x39 ∨ scOp true w = 0x3A) ∧ (nan x ∨ nan y) ∧ scRd w < 8 → Runs i s fun t => pr (bankNow t n u) (scRd w) = false)
      ∧ (scOp true w = 0x38 ∧ nan x → Runs i s fun t => xr (bankNow t n u) (scRd w) = 0)
      ∧ (scOp true w = 0x37 ∧ x = 0 → Runs i s fun t => xr (bankNow t n u) (scRd w) = 0)

/-- A control instruction of the next bundle issues whole with its bundle; so do HPUSH and HPOP with what their rows carry, where none of the bundle's
requests has to wait. -/
def Obligations.ControlRowsIssue : Prop :=
  ∀ (s : State) (n : Nat) (u : Bool) (b : Nat),
    (Issues s n u b = true → slotRuns b (bankNow s n u) 1 = true → ∀ i, controlRow n (scOp false (slotC b)) = some i → Gives i s (issued s n u b))
      ∧ (∀ cycles,
        let t := issueEffects (withHost s []) n u b cycles .alone (cmdNow s n u b)
        Ready s n u b = true → slotRuns b (bankNow s n u) 1 = true → scOp false (slotC b) = 0x10 → Unheld t → Gives (.hpush n cycles) s (given s t))
      ∧ (∀ meet host,
        let t := issueEffects (withHost s host) n u b 0 meet (cmdNow s n u b)
        Ready s n u b = true → slotRuns b (bankNow s n u) 1 = true → scOp false (slotC b) = 0x11 → Unheld t → Gives (.hpop n meet host) s (given s t))

/-- Branches and jumps: BR and JAL to PC + 128 × IMM16, JR to xRS1; JAL and JR write PC + 128; memory and the other banks stay. -/
def Obligations.BranchesAndJumps : Prop :=
  ∀ (s : State) (n : Nat) (u : Bool) (b : Nat),
    let k := bankNow s n u
    let w := slotC b
    let rel : BitVec 64 := BitVec.ofNat 64 k.pc + 128 * (BitVec.ofNat 16 (scImm w)).signExtend 64
    Issues s n u b = true → onlyC b = true → slotRuns b k 1 = true → k.x.length = 32 → k.pc < 2 ^ 63 →
    (scOp false w = 0x01 → Runs (.br n) s fun t => (bankNow t n u).pc = rel.toNat ∧ (bankNow t n u).x = k.x ∧ OtherBanks s t n u
          ∧ Frame s { t with cores := s.cores } [P.ash n, P.dpt])
      ∧ (scOp false w = 0x02 → Runs (.jal n) s fun t => (bankNow t n u).pc = rel.toNat ∧
          (∀ d, xr (bankNow t n u) d = if d ≠ 0 ∧ d = scRd w then k.pc + 128 else xr k d) ∧ OtherBanks s t n u
          ∧ Frame s { t with cores := s.cores } [P.ash n, P.dpt])
      ∧ (scOp false w = 0x03 → Runs (.jr n) s fun t => (bankNow t n u).pc = xr k (scRs1 w) ∧
          (∀ d, xr (bankNow t n u) d = if d ≠ 0 ∧ d = scRd w then k.pc + 128 else xr k d) ∧ OtherBanks s t n u
          ∧ Frame s { t with cores := s.cores } [P.ash n, P.dpt])

/-- LOOP sets the counter, the start and the end of its loop, and goes past the end where the count is 0; LCLR clears; LRD reads the counter. -/
def Obligations.LoopInstructions : Prop :=
  ∀ (s : State) (n : Nat) (u : Bool) (b : Nat),
    let k := bankNow s n u
    let w := slotC b
    let count := operandB b (scSel w) (xr k (scRs1 w)) 0 % 2 ^ 32
    let stop := unsx 64 (s64 k.pc + 128 * sx 16 (scImm w))
    Issues s n u b = true → onlyC b = true → slotRuns b k 1 = true → k.x.length = 32 → k.loops.length = 4 →
    (scOp false w = 0x04 → Runs (.loop n) s fun t =>
        nth (bankNow t n u).loops (scL w) {} = { count := count, active := decide (count ≠ 0), start := k.pc + 128, stop := stop }
          ∧ (count = 0 → (bankNow t n u).pc = stop + 128))
      ∧ (scOp false w = 0x05 → Runs (.lclr n) s fun t =>
          (nth (bankNow t n u).loops (scL w) {}).count = 0 ∧ (nth (bankNow t n u).loops (scL w) {}).active = false)
      ∧ (scOp false w = 0x06 → Straight k → Runs (.lrd n) s fun t =>
          (∀ d, xr (bankNow t n u) d = if d ≠ 0 ∧ d = scRd w then (nth k.loops (scL w) {}).count % 2 ^ 64 else xr k d)
            ∧ (bankNow t n u).loops = k.loops)

/-- ENDJOB ends the bank's issue with its code; CLRSTAT clears PREEMPTED of the normal bank; RDSTAT returns the words of R426, the cycles of its bank's job among them; FENCE, MWAIT and AWAIT,
once what they wait for is complete, only pass to the next bundle. -/
def Obligations.StatusAndWaits : Prop :=
  ∀ (s : State) (n : Nat) (u : Bool) (b : Nat),
    let k := bankNow s n u
    let w := slotC b
    Issues s n u b = true → onlyC b = true → slotRuns b k 1 = true → k.x.length = 32 →
    (scOp false w = 0x08 → Runs (.endjob n) s fun t => (bankNow t n u).ended = some (bits (scImm w) 7 0))
      ∧ (scOp false w = 0x0D → bit (scImm w) 0 = true → u = false → Runs (.clrstat n) s fun t => (bankNow t n u).preempted = false)
      ∧ (scOp false w = 0x0C → scRd w ≠ 0 →
          (bits (scImm w) 3 0 = 0 → Runs (.rdstat n) s fun t => xr (bankNow t n u) (scRd w) = if u then 0 else b2n k.preempted)
            ∧ (bits (scImm w) 3 0 = 1 → Runs (.rdstat n) s fun t => xr (bankNow t n u) (scRd w) = rf s (R.ASH_PAIR_STATUS n) 1 0)
            ∧ (bits (scImm w) 3 0 = 2 → Runs (.rdstat n) s fun t => xr (bankNow t n u) (scRd w) = n + 256 * b2n u + 65536 * corePart s n)
            ∧ (bits (scImm w) 3 0 = 4 → Runs (.rdstat n) s fun t =>
                xr (bankNow t n u) (scRd w) = ((coreOf s n).cycles - k.since) / 1000 % 2 ^ 64))
      ∧ (∀ i, Straight k →
          ((scOp false w = 0x09 ∧ i = .fence n) ∨ (scOp false w = 0x0A ∧ i = .mwait n) ∨ (scOp false w = 0x0B ∧ i = .await n)) →
          Runs i s fun t => (bankNow t n u).pc = k.pc + 128 ∧ (bankNow t n u).x = k.x ∧ (bankNow t n u).p = k.p ∧ (bankNow t n u).v = k.v
            ∧ OtherBanks s t n u ∧ Frame s { t with cores := s.cores } [P.ash n, P.dpt])

/-- A vector instruction of the next bundle issues whole with its bundle. -/
def Obligations.VectorRowsIssue : Prop :=
  ∀ (s : State) (n : Nat) (u : Bool) (b j : Nat) (i : Instr),
    Issues s n u b = true → scOp false (slotC b) ≠ 0x10 → scOp false (slotC b) ≠ 0x11 → j < 2 → slotRuns b (bankNow s n u) (2 + j) = true →
    vectorRow n (vOp (slotV b j)) = some i → Gives i s (issued s n u b)

/-- Every vector instruction but VST writes the result of its operation, in one register or two, and no other vector register, no scalar register, no
predicate and no byte of memory; a written register carries no mark. -/
def Obligations.VectorResult : Prop :=
  ∀ (s : State) (n : Nat) (u : Bool) (b : Nat) (i : Instr),
    let k := bankNow s n u
    let w := slotV b 0
    let r (j : Nat) : Nat := (nth k.v j {}).data
    let res := vectorResult w (vOperand b w k) (r (vVa w)) (r (vVb w)) (r (vVc w)) (r (vVd w)) ((span (vVa w) (vR w)).map r)
    Issues s n u b = true → onlyV b = true → slotRuns b k 2 = true → Straight k → k.v.length = 32 → vectorRow n (vOp w) = some i →
    vOp w ≠ 0x01 → vOp w ≠ 0x02 → vOp w ≠ 0x04 → (res.2 ≠ none → vVd w + 1 < 32) →
    Runs i s fun t =>
      (∀ d, nth (bankNow t n u).v d {} =
        if d = vVd w then { data := res.1, marks := 0 }
        else match res.2 with
          | some y => if d = vVd w + 1 then { data := y, marks := 0 } else nth k.v d {}
          | none => nth k.v d {})
        ∧ (bankNow t n u).x = k.x ∧ (bankNow t n u).p = k.p ∧ (bankNow t n u).pc = k.pc + 128 ∧ OtherBanks s t n u
        ∧ Frame s { t with cores := s.cores } [P.ash n, P.dpt]

/-- VMOV copies a register with its marks; VLD reads the 256 bytes at its address into its register; VST writes those of its register, and no other
byte of memory changes. -/
def Obligations.VectorMoveLoadStore : Prop :=
  ∀ (s : State) (n : Nat) (u : Bool) (b : Nat),
    let k := bankNow s n u
    let w := slotV b 0
    let a := vAddress b w k
    Issues s n u b = true → onlyV b = true → slotRuns b k 2 = true → k.v.length = 32 →
    (vOp w = 0x04 → Runs (.vmov n) s fun t => ∀ d, nth (bankNow t n u).v d {} = if d = vVd w then nth k.v (vVa w) {} else nth k.v d {})
      ∧ (vOp w = 0x01 → islandStatus s (19 + n) = MS.ok → badRanges s a 256 = [] → Runs (.vld n) s fun t =>
        nth (bankNow t n u).v (vVd w) {} = { data := ofLe (memBytes s a 256), marks := 0 } ∧ SameBytes s t)
      ∧ (vOp w = 0x02 → islandStatus s (19 + n) = MS.ok → Runs (.vst n) s fun t =>
          (∀ i, i < 256 → (memByte t (a + i)).toNat = (nth k.v (vVa w) {}).data / 256 ^ i % 256)
            ∧ (∀ c, (c < a ∨ a + 256 ≤ c) → memByte t c = memByte s c) ∧ (bankNow t n u).v = k.v ∧ (bankNow t n u).x = k.x ∧ OtherBanks s t n u)

/-- An array command or a mover instruction of the next bundle is accepted with it: where the other slots are empty, the command joins the array
unit's list, the instruction its mover's, and no register or byte of memory changes yet. -/
def Obligations.ArrayAndMoverRowsIssue : Prop :=
  ∀ (s : State) (n : Nat) (u : Bool) (b : Nat) (i : Instr),
    let t := issued s n u b
    Issues s n u b = true → scOp false (slotC b) ≠ 0x10 → scOp false (slotC b) ≠ 0x11 →
    (slotRuns b (bankNow s n u) 4 = true → arrayRow n (aOp (slotA b)) = some i →
        Gives i s t ∧ (onlyUnits b = true → (coreOf t n).cmds = (coreOf s n).cmds ++ [cmdNow s n u b] ∧ SameBytes s t ∧ (bankNow t n u).x = (bankNow s n u).x))
      ∧ (∀ j, j < 2 → slotRuns b (bankNow s n u) (5 + j) = true → (coreOf s n).movers.length = 2 → moverRow n (mOp (slotM b j)) = some i →
          Gives i s t ∧ (onlyUnits b = true → SameBytes s t ∧ (bankNow t n u).x = (bankNow s n u).x ∧
            ∃ m, nth (coreOf t n).movers j [] = nth (coreOf s n).movers j [] ++ [m] ∧ m.op = mOp (slotM b j) ∧ m.urgent = u))

/-- A bundle that holds something reserved takes ILLEGAL at the slot that holds it, whichever unit's row issues it, unless an earlier slot of it takes an exception
of its own; none of its slots takes effect. -/
def Obligations.ReservedBundleTakesIllegal : Prop :=
  ∀ (s : State) (n : Nat) (u : Bool) (b j : Nat) (i : Instr),
    let k := coreOf s n
    let bk := bankNow s n u
    n < 8 → bankAtWork s n = some u → nextBundle s n u = b → illegalSlot b bk = some j → inOwn n bk.pc 128 = true → bk.ended = none → bk.atEnd = false →
    awaitsPoint s n u = false → ¬(k.stalled = true ∧ u = false ∧ ppMark b = true) → ¬(slotRuns b bk 4 = true ∧ aSel (slotA b) = 1) →
    waitFor n k u b (cmdNow s n u b) j = none → k.flips = [] → s.eccErr = [] → s.dram.eccFlips = [] → fetchBad s n u = false →
    rf s R.FLT_INJ_STATUS 1 0 ≠ 1 → (i = .mul n ∨ i = .br n ∨ i = .vmul n ∨ i = .mma n ∨ i = .load n) →
    ∃ e, bundleExc s n k u b (cmdNow s n u b) = some e ∧ (e = { cause := EX.illegal, slot := j } ∨ e.slot < j)
      ∧ (let t := takeException (withHost s []) n u e
        Unheld t → Gives i s (given s t))

/-! Registers (chapter 2). -/

/-- The requester, page-window offset, word and host completions of a command that is a write of one register. -/
def Sys2Proof.Claims.registerOf : Instr → Option (Req × Nat × Nat × List Cpl)
  | .evtStatusClear req page data => some (req, hdr page 0x20, data.toNat, [])
  | .evtEnableWrite req page data => some (req, hdr page 0x24, data.toNat, [])
  | .evtForce req page data => some (req, hdr page 0x28, data.toNat, [])
  | .lockSet req page => some (req, hdr page 0x1C, 1, [])
  | .enableWrite req page data => some (req, hdr page 0x10, data.toNat, [])
  | .softReset req page data => some (req, hdr page 0x10, putBit data.toNat 1 true, [])
  | .aonIslCtrlWrite req isl data => if isl < 39 then some (req, R.AON_ISL_CTRL isl, data.toNat, []) else none
  | .bootConfirm req data => some (req, R.BOOT_CONFIRM, data.toNat, [])
  | .flashRead req => some (req, R.BOOT_FLASH_CTRL, 0x80000001, [])
  | .flashProgram req => some (req, R.BOOT_FLASH_CTRL, 0x80000002, [])
  | .flashErase req => some (req, R.BOOT_FLASH_CTRL, 0x80000003, [])
  | .flashInstall req => some (req, R.BOOT_FLASH_CTRL, 0x80000004, [])
  | .advanceRollback req data => some (req, R.BOOT_OTP_CMD, putBits data.toNat 3 0 1, [])
  | .revokeKey req data => some (req, R.BOOT_OTP_CMD, putBits data.toNat 3 0 2, [])
  | .retire req data => some (req, R.BOOT_OTP_CMD, putBits data.toNat 3 0 3, [])
  | .retrainForce req page data => if 16 ≤ page ∧ page < 20 then some (req, R.DMC_RETRAIN_CTRL (page - 16), data.toNat, []) else none
  | .ptpRxPop req mac data => if mac < 2 then some (req, R.ETH_PTP_RX_POP mac, data.toNat, []) else none
  | .ptpTxSend req mac data => if mac < 2 then some (req, R.ETH_PTP_TX_CTRL mac, data.toNat, []) else none
  | .tbStep req data => some (req, R.AON_TB_STEP_HI, data.toNat, [])
  | .tbSlew req data => some (req, R.AON_TB_SLEW, data.toNat, [])
  | .tbRate req data => some (req, R.AON_TB_RATE, data.toNat, [])
  | .tbServoLocked req data => some (req, R.AON_TB_SERVO, data.toNat, [])
  | .devResync req slot data => if slot < 36 then some (req, R.DEV_SLOT_CTRL 0 slot, data.toNat, []) else none
  | .partitionQuiesce req part data => if part < 8 then some (req, R.DPT_PART_CTRL part, data.toNat, []) else none
  | .keyPfSubmit req ctx data host => if ctx < 3 then some (req, R.KEY_PF_CMD_HI ctx, data.toNat, host) else none
  | .sflPfSubmit req data host => some (req, R.SFL_PF_CMD_HI, data.toNat, host)
  | .ampClear req chan data => if chan < 2 then some (req, R.AUD_AMP_CTRL chan, data.toNat, []) else none
  | .prepare req => some (req, R.SEAM_CMD, 0x80000001, [])
  | .abort req => some (req, R.SEAM_CMD, 0x80000002, [])
  | .discard req => some (req, R.SEAM_CMD, 0x80000003, [])
  | .cshExtEnable req data => some (req, R.CSH_CTRL, data.toNat, [])
  | .cshSwRecord req data => some (req, R.CSH_SW_CODE, data.toNat, [])
  | .safeStatusClear req seen data => some (req, if seen then R.FLT_SAFE_SEEN else R.FLT_SAFE_STATUS, data.toNat, [])
  | .clearLast req data => some (req, R.FLT_CTRL, data.toNat, [])
  | .sramCe req data => some (req, R.FLT_INJ_CTRL, putBits data.toNat 7 0 1, [])
  | .sramUe req data => some (req, R.FLT_INJ_CTRL, putBits data.toNat 7 0 2, [])
  | .pair req data => some (req, R.FLT_INJ_CTRL, putBits data.toNat 7 0 3, [])
  | .csiCrc req data => some (req, R.FLT_INJ_CTRL, putBits data.toNat 7 0 4, [])
  | .dramCa req data => some (req, R.FLT_INJ_CTRL, putBits data.toNat 7 0 5, [])
  | .dramCrc req data => some (req, R.FLT_INJ_CTRL, putBits data.toNat 7 0 6, [])
  | .delay req data => some (req, R.FLT_INJ_CTRL, putBits data.toNat 7 0 7, [])
  | .holdRead req data => some (req, R.FLT_INJ_CTRL, putBits data.toNat 7 0 8, [])
  | .temp req data => some (req, R.FLT_INJ_CTRL, putBits data.toNat 7 0 9, [])
  | .tripTest req data => some (req, R.FLT_INJ_CTRL, putBits data.toNat 7 0 10, [])
  | .registerWrite req off width data => if width = 4 ∧ off % 4 = 0 then some (req, off, data.toNat % 2 ^ 32, []) else none
  | _ => none

namespace Sys2Proof.Claims

/-- A register of a page that answers, and a word that no rule drops: the die is up, the page's island answers, no requester's write of a
reserved value, of a locked field or of a frozen staged copy is made (R25, R26, R30, R32). -/
abbrev Accepted (s : State) (req : Req) (off w : Nat) (r : RegSpec) : Prop :=
  s.boot.held = false ∧ off < 0x40000 ∧ w < 2 ^ 32 ∧ pageRefusal s off = none ∧ findReg off = some r
    ∧ writeCauses (wake s (islandAt (off / 0x1000))) req r off w = []

/-- The state in which an access finds its page: an island that was gated is awake. -/
abbrev awake (s : State) (off : Nat) : State := wake s (islandAt (off / 0x1000))

end Sys2Proof.Claims

/-- Every command that writes one register does what a write of that word by that requester brings about, where no rule drops it and no request of an
engine that it starts has to wait. -/
def Obligations.RegisterCommandsTakeEffect : Prop :=
  ∀ (c : Instr) (s : State) (req : Req) (off w : Nat) (host : List Cpl) (r : RegSpec),
    let t := regAct (awake (withHost s host) off) req r off w
    registerOf c = some (req, off, w, host) → off % 4 = 0 → Accepted s req off w r → Unheld t → Gives c s (given s t)

/-- BOOT_RESET_REQ resets the die where its word is 0x5EED with RESET 1 and the requester is the PF or Fypajo, after `torn` of the four steps of a
record being written. -/
def Obligations.ResetRequestResetsTheDie : Prop :=
  ∀ (s : State) (req : Req) (w : W32) (torn : Nat) (r : RegSpec),
    Accepted s req R.BOOT_RESET_REQ w.toNat r → writeCauses (awake (tornWrite s torn) R.BOOT_RESET_REQ) req r R.BOOT_RESET_REQ w.toNat = [] →
    pageRefusal (tornWrite s torn) R.BOOT_RESET_REQ = none → (tornWrite s torn).boot.held = false →
    bits w.toNat 15 0 = 0x5EED → bit w.toNat 16 = true → (req = .pf ∨ req = .fyp) →
    Gives (.bootResetReq req w torn) s (dieReset (awake (tornWrite s torn) R.BOOT_RESET_REQ) 3 true)

/-- What a write stores in a register follows the access code of each bit: RW and LK bits take the word's, W1C bits clear where it holds 1,
ST bits go to the staged copy alone, and all others stay. -/
def Obligations.AccessCodesGovernEachBit : Prop :=
  ∀ (s : State) (req : Req) (r : RegSpec) (off w i : Nat), i < 32 → w < 2 ^ 32 → holdsW1s r = false →
    let t := regStore s req r off w
    let plain := bit (plainMask r req off) i
    let w1c := bit (maskWhere r fun a => decide (a = .w1c)) i
    let st := bit (maskWhere r fun a => decide (a = .st)) i
    rb t off i = (if w1c && bit w i then false else if plain then bit w i else rb s off i)
      ∧ (st = true → bit (stagedOf t off).toNat i = bit w i)
      ∧ (∀ o, o ≠ off → rd t o = rd s o ∧ stagedOf t o = stagedOf s o)

/-- A write that a rule drops leaves the register as it was, whatever the word: a reserved value, a change of a locked field, a change of a frozen
staged copy; so does one that is narrower than 32 bits or unaligned, which its page captures. -/
def Obligations.DroppedWritesChangeNothing : Prop :=
  ∀ (s : State) (req : Req) (off : Nat) (w : W64),
    s.boot.held = false → off < 0x40000 → 0x100 ≤ off % 0x1000 → pageRefusal s off = none →
    (∀ r, off % 4 = 0 → findReg off = some r → writeCauses (awake s off) req r off (w.toNat % 2 ^ 32) ≠ [] →
        Runs (.registerWrite req off 4 w) s fun t => rd t off = rd s off ∧ stagedOf t off = stagedOf s off ∧ SameBytes s t ∧ Raised t (off / 0x1000) 0)
      ∧ (∀ width, (width < 4 ∨ width = 8 ∨ off % 4 ≠ 0) → ¬(width = 8 ∧ off % 8 = 0) →
        Runs (.registerWrite req off width w) s fun t =>
          (∀ o, o / 0x1000 = off / 0x1000 → 0x100 ≤ o % 0x1000 → rd t o = rd s o) ∧ SameBytes s t ∧ Raised t (off / 0x1000) 0)

/-- Where EVT_STATUS.FAULT is 0, a fault is captured: FAULT_CODE, FAULT_INFO and both FAULT_ADDR words take it together, with OVERFLOW 0, and
EVT_STATUS.FAULT reads 1. Where it is 1, the four words keep what they hold and OVERFLOW grows by one, held at 255; where it has been cleared, the next is
captured again. -/
def Obligations.FirstFaultIsCaptured : Prop :=
  ∀ (s : State) (pg cause info : Nat) (req : Req) (a : Option Nat), cause < 256 →
    let t := fault s pg cause req info a
    let code := hdr pg 0x30
    (rb s (hdr pg 0x20) 0 = false →
        rf t code 7 0 = cause ∧ rf t code 15 8 = blockTypeAt pg % 256 ∧ rf t code 23 16 = 0 ∧ rf t code 31 24 = reqCode req % 256
          ∧ rd t (hdr pg 0x34) = BitVec.ofNat 32 info ∧ rd t (hdr pg 0x38) = BitVec.ofNat 32 (a.getD 0)
          ∧ rf t (hdr pg 0x3C) 15 0 = bits (a.getD 0) 47 32 ∧ rb t (hdr pg 0x3C) 31 = a.isSome ∧ Raised t pg 0)
      ∧ (rb s (hdr pg 0x20) 0 = true →
          rf t code 23 16 = min 255 (rf s code 23 16 + 1) ∧ rf t code 15 0 = rf s code 15 0 ∧ rf t code 31 24 = rf s code 31 24
            ∧ (∀ o, o = hdr pg 0x34 ∨ o = hdr pg 0x38 ∨ o = hdr pg 0x3C → rd t o = rd s o) ∧ Raised t pg 0)

/-- RC_READ answers the word of the register that lies at the offset, as its page shows it; an unpopulated page of the page window reads zero, and a read
of it changes nothing but the data returned. -/
def Obligations.ReadAnswersTheWord : Prop :=
  ∀ (s : State) (req : Req) (off : Nat), s.boot.held = false → off % 4 = 0 → off + 4 ≤ 0x40000 →
    (Runs (.rcRead req off) s fun t => t.readData = leBytes 4 (regRead s req off).2.2)
      ∧ (pageOf (off / 0x1000) = none → Gives (.rcRead req off) s { s with readData := [0, 0, 0, 0], readSt := MS.ok })

/-- EVT_FORCE sets the bits it names, each as its event would; EVT_STATUS_CLEAR clears the bits it names; SOFT_RESET_DONE clears SRESET. -/
def Obligations.EventRegisters : Prop :=
  ∀ (s : State) (req : Req) (page : Nat) (w : W32) (r : RegSpec) (i : Nat), i < 32 →
    (Accepted s req (hdr page 0x28) w.toNat r → r.name = "EVT_FORCE" → bit w.toNat i = true → page < 64 →
        Runs (.evtForce req page w) s fun t => Raised t page i)
      ∧ (Accepted s req (hdr page 0x20) w.toNat r → r.name = "EVT_STATUS" → page < 64 → bit w.toNat i = true →
          bit (maskWhere r fun a => decide (a = .w1c)) i = true →
          Runs (.evtStatusClear req page w) s fun t => rb t (hdr page 0x20) i = false)
      ∧ (pageOf page ≠ none → Runs (.softResetDone page) s fun t => rb t (hdr page 0x10) 1 = false)

/-- Writing 1 to LOCK locks the page: from then on a write that would change a locked field is dropped. -/
def Obligations.LockStops : Prop :=
  ∀ (s : State) (req by_ : Req) (page off w : Nat) (r q : RegSpec),
    Accepted s req (hdr page 0x1C) 1 r → r.name = "LOCK" → bit (plainMask r req (hdr page 0x1C) ||| maskWhere r fun a => decide (a = .w1s)) 0 = true →
    page < 64 → off / 0x1000 = page → off % 4 = 0 → 0x100 ≤ off % 0x1000 →
    Runs (.lockSet req page) s fun t =>
      findReg off = some q → ((rd t off).toNat ^^^ w) &&& (maskWhere q (fun a => decide (a = .lk)) &&& plainMask q by_ off) ≠ 0 →
        0xF1 ∈ writeCauses t by_ q off w

/-- A context reads without an error (07 R236). -/
abbrev Sys2Proof.Claims.CleanCtx (s : State) (q : Nat) : Prop :=
  s.eccErr = [] ∧ poisoned s (ctxAddr q / 64) = false ∧ peekCtx s q < 2 ^ 256

/-- The table window answers a read within one entry with the entry's bytes, and changes no byte; a slot with TABLE 0 reads zero; an access outside its table
reads zero and is captured. A write of a model table entry that its rules allow puts its bytes into the software's fields of the entry, and changes nothing else; a
write outside a table or without permission changes no entry and is captured. -/
def Obligations.TableWindowAnswers : Prop :=
  ∀ (s : State) (req : Req) (off len : Nat) (ue : Bool) (data : List Byte), s.boot.held = false → off < 0x1000000 →
    let k := slotOf s off
    let t := k.2.1
    let o := k.2.2
    let z := entrySize t o
    let m := modelOf s (o / 64)
    let b := putBytes (modelBytes m) (o % 64) data
    (t ≠ 0 → inTable t o len = true → tableRefusal s t = none → (t = 1 → CleanCtx s (o / 32)) → (t = 2 → s.qry.upsets = []) →
        Runs (.tableWindowRead req off len ue) s fun u => u.readData = ((entryBytes s t (o - o % z)).drop (o % z)).take len ∧ SameBytes s u)
      ∧ (t = 0 → 4 ≤ len → len ≤ 64 → Gives (.tableWindowRead req off len ue) s
          { s with readData := List.replicate len 0, readSt := MS.ok })
      ∧ ((t = 0 ∧ (len < 4 ∨ 64 < len)) ∨ (t ≠ 0 ∧ inTable t o len = false) →
        Runs (.tableWindowRead req off len ue) s fun u => u.readData = List.replicate len 0 ∧ SameBytes s u ∧ Raised u P.sys 0)
      ∧ (t = 3 → o < 0x4000 → inTable t o data.length = true → tableWritable s req k = true → tableRefusal s t = none →
        (o % 64 < 48 ∨ 58 < o % 64 + data.length) → modelLegal m b = true → (m.st = 0 ∨ isQuiet s m.part = true) → ¬(m.st = 0 ∧ field b 0 1 = 1) →
        Runs (.tableWindowWrite req off data) s fun u =>
          modelOf u (o / 64) = { modelFrom m b with bad := m.bad && decide (data.length ≠ 64) }
            ∧ (∀ i, i ≠ o / 64 → modelOf u i = modelOf s i) ∧ Frame s { u with dpt := { u.dpt with models := s.dpt.models } } [])
      ∧ (inTable t o data.length = false ∨ tableWritable s req k = false →
        Runs (.tableWindowWrite req off data) s fun u => SameBytes s u ∧ u.dpt.models = s.dpt.models ∧ Raised u P.sys 0)

/-! Islands, SRAM and the mesh (chapter 3). -/

/-- A granted point asked of a scaled island during a step waits for its end, replacing an earlier one; the point already reached is discarded; any other
starts a step. A clock that is fixed, or a point that is not granted, is no occasion (log entry 98). The end of a step reaches its point, and the point or
the state change that waits follows (log entry 18). -/
def Obligations.OperatingPointRequests : Prop :=
  ∀ (s : State) (n f v : Nat), n < s.isl.length →
    (∀ g, islandGroup n = some g → (⟨f, v⟩ : Point) ∈ grpPoints g → pointGranted s n g ⟨f, v⟩ = true → (island s n).live = true →
      (∀ p, (island s n).step = some p → Runs (.opPointRequest n f v) s fun t =>
          island t n = { island s n with nextPoint := some ⟨f, v⟩ } ∧ Frame s { t with isl := s.isl } [])
        ∧ ((island s n).step = none → (island s n).point = ⟨f, v⟩ → Runs (.opPointRequest n f v) s fun t =>
          island t n = island s n ∧ Frame s { t with isl := s.isl } [])
        ∧ ((island s n).step = none → (island s n).point ≠ ⟨f, v⟩ → Runs (.opPointRequest n f v) s fun t =>
          island t n = { island s n with step := some ⟨f, v⟩, stepAt := s.clock, late := false } ∧ Frame s { t with isl := s.isl } []))
      ∧ ((∀ g, islandGroup n = some g → pointGranted s n g ⟨f, v⟩ = false) → Gives (.opPointRequest n f v) s s)
      ∧ (∀ p q, (island s n).st ≠ .off → (island s n).step = some p → (island s n).excursion = false → (island s n).nextState = none →
          (island s n).nextPoint = some q →
          Runs (.opPointStepDone n) s fun t => (island t n).point = p ∧ (island t n).nextPoint = none ∧ ((island t n).step = if q = p then none else some q)
            ∧ Frame s { t with isl := s.isl } [])
      ∧ (∀ p, (island s n).st ≠ .off → (island s n).step = some p → (island s n).excursion = false → (island s n).nextState = none →
          (island s n).nextPoint = none →
          Runs (.opPointStepDone n) s fun t => (island t n).point = p ∧ (island t n).step = none ∧ Frame s { t with isl := s.isl } [])
      ∧ (∀ p w, (island s n).st ≠ .off → (island s n).step = some p → (island s n).excursion = false → (island s n).nextState = some w → w ≠ .off →
          mayEnter s n w = true → islandIdle s n = true → (island s n).nextPoint = none →
          Runs (.opPointStepDone n) s fun t => (island t n).point = p ∧ (island t n).step = none ∧ (island t n).st = w ∧ Frame s { t with isl := s.isl } [])

/-- A step that runs late, and a regulator that leaves its tolerance, are noted at their island, captured by AON and raise its event; a return in time
ends the excursion; an excursion that lasts fences the island. An idle island under AUTO is gated or retained; one that is OFF under a policy that
is not OFF begins to write its stores, and is ON at its starting point when that is done. A scrub step goes on to its next granule and stores no byte. -/
def Obligations.IslandSupervision : Prop :=
  ∀ (s : State) (n ns dev : Nat) (high : Bool), n < s.isl.length →
    ((island s n).step.isSome = true → (island s n).late = false →
        Runs (.stepLate n ns) s fun t => (island t n).late = true ∧ Raised t P.aon 10 ∧ Frame s { t with isl := s.isl } [P.aon])
      ∧ (n ≠ 0 → (island s n).live = true → (island s n).excursion = false →
        Runs (.regFault n high dev) s fun t => (island t n).excursion = true ∧ Raised t P.aon 9 ∧ Frame s { t with isl := s.isl } [P.aon])
      ∧ ((island s n).fenced = false → Runs (.regReturn n) s fun t => (island t n).excursion = false ∧ Frame s { t with isl := s.isl } [])
      ∧ (n ≠ 0 → (island s n).excursion = true → (island s n).fenced = false → n < 39 →
        let u := settle (fenceOutcome (updIsl (seamLoses (withHost s []) n) n fun i =>
          { i with fenced := true, step := none, nextPoint := none, nextState := none }) n)
        Completes (.islandFence n) s u fun t => (island t n).fenced = true ∧ (island t n).step = none)
      ∧ (3 ≤ n → n ≤ 38 →
        (rf s (R.AON_ISL_CTRL n) 1 0 = 0 → islandRuns s n = true → islandIdle s n = true → dmcInUse s n = false → (island s n).st = .on →
          Gives (.islandGate n false) s (askState s n .gated))
        ∧ (rf s (R.AON_ISL_CTRL n) 1 0 = 0 → islandRuns s n = true → islandIdle s n = true → dmcInUse s n = false → rb s (R.AON_ISL_CTRL n) 2 = true →
          staysUp s n = false →
          Gives (.islandGate n true) s (askState s n .retain))
        ∧ (s.boot.held = false → rf s (R.AON_ISL_CTRL n) 1 0 ≠ 2 → (island s n).st = .off → (island s n).fenced = false →
          Runs (.islandPowerUp n) s fun t => (island t n).initing = true ∧ islandRuns t n = false)
        ∧ ((island s n).initing = true →
          Runs (.islandInitDone n) s fun t => (island t n).st = .on ∧ (island t n).point = startPoint n ∧ (island t n).initing = false))
      ∧ (∀ bank busy, bank < 272 → s.scrubPos.length = 272 →
        (if bank < 16 then rb s R.MTR_SCRUB_CTRL 0 else rb s (R.ASH_SRAMCFG ((bank - 16) / 32)) 0) = true →
        (island s (bankIsland bank)).st ≠ .off → (island s (bankIsland bank)).st ≠ .retain → (island s (bankIsland bank)).fenced = false →
        (island s (bankIsland bank)).initing = false →
        Runs (.sramScrubStep bank busy) s fun t => nth t.scrubPos bank 0 = (nth s.scrubPos bank 0 + 1) % bankGranules bank ∧ SameBytes s t)

/-- A Mortar request that the stop accepts is in flight under the next number; one that it refuses is answered at once with the status of R84. -/
def Obligations.MortarInjection : Prop :=
  ∀ (s : State) (req : Req) (src port : Nat) (chan : Chan) (addr len : Nat) (data : Option (List Byte)) (bad : List (Nat × Nat)) (cls : Option Nat),
    let n := match data with | some bs => bs.length | none => len
    let c := channelFor s req src (port % 2) chan
    let p : Packet :=
      { id := s.mortar.nextId, req := req, src := src, port := port % 2, chan := c, addr := addr, len := n, data := data, bad := bad, cls := classFor s req cls }
    islandRuns s 2 = true → src < 24 →
    (injectRefusal s c addr n = none → Runs (.mortarRequestInject req src port chan addr len data bad cls) s fun t =>
        t.mortar = { s.mortar with nextId := s.mortar.nextId + 1, flight := s.mortar.flight ++ [p] }
          ∧ Frame s { t with mortar := s.mortar } [])
      ∧ (∀ st cause, injectRefusal s c addr n = some (st, cause) → Runs (.mortarRequestInject req src port chan addr len data bad cls) s fun t =>
        t.mortar.flight = s.mortar.flight ∧ t.mortar.responses = { id := s.mortar.nextId, status := st } :: s.mortar.responses ∧ SameBytes s t
          ∧ Raised t P.mtr 0)

/-- No response of a read waits, and none of the packet's requester, agent and channel. -/
abbrev Sys2Proof.Claims.NoneBefore (s : State) (p : Packet) : Prop :=
  ∀ r ∈ s.mortar.acks, r.write = true ∧ ¬(r.req = p.req ∧ r.agent = agentNo s p.addr ∧ r.chan = p.chan)

/-- A read of SRAM that reaches its agent in its turn is answered with the bytes that lie there; a write puts its bytes at its address and nowhere else, and its
acknowledgement, which comes later, answers it. A request or a response abandoned at a crossing is answered ISLAND_OFF and leaves the mesh, and AON captures
XING_TIMEOUT; with no packet of the number the next request of an engine at the crossing is abandoned (the model's choice, log entry 92). -/
def Obligations.MortarArrivalAndAcknowledgement : Prop :=
  (∀ (s : State) (p : Packet) (k b : Nat) (host : List Cpl), islandRuns s 2 = true → (placeOf p.addr = .bank b ∨ placeOf p.addr = .coreSram b) →
    inTurn s p = true → NoneBefore s p → (s.mortar.flight.find? fun q => q.id = p.id) = some p →
    (p.data = none → Runs (.mortarRequestArrive [(p.id, k)] host) s fun t =>
        (∃ r, t.mortar.responses = r :: s.mortar.responses ∧ r.id = p.id
          ∧ (placeStatus s p.addr = MS.ok → s.eccErr = [] → badRanges s p.addr p.len = [] → r = { id := p.id, status := MS.ok, data := memBytes s p.addr p.len }))
          ∧ t.mortar.flight = s.mortar.flight.filter (fun q => q.id ≠ p.id) ∧ SameBytes s t)
      ∧ (∀ bs, p.data = some bs → Runs (.mortarRequestArrive [(p.id, k)] host) s fun t =>
        (∃ r, t.mortar.acks = s.mortar.acks ++ [r] ∧ r.write = true ∧ r.resp.id = p.id) ∧ t.mortar.responses = s.mortar.responses
          ∧ (placeStatus s p.addr = MS.ok → ∀ i, i < bs.length → memByte t (p.addr + i) = nth bs i 0)
          ∧ ∀ a, (a < p.addr ∨ p.addr + bs.length ≤ a) → memByte t a = memByte s a)
      ∧ (∀ dst src, s.boot.held = false → dst < 39 → src < 39 → (s.mortar.acks.find? fun r => r.resp.id = p.id) = none →
        Runs (.xingTimeout dst src p.id false host) s fun t =>
          t.mortar.responses = { id := p.id, status := MS.islandOff } :: s.mortar.responses ∧ t.mortar.flight = s.mortar.flight.filter (fun q => q.id ≠ p.id)
            ∧ Raised t P.aon 8 ∧ SameBytes s t))
    ∧ ∀ (s : State) (id : Nat) (host : List Cpl),
      (∀ r, (∀ q ∈ s.mortar.acks, q.write = true) → (s.mortar.acks.find? fun r => r.write && decide (r.resp.id = id) && mayReturn s r) = some r →
        Runs (.writeAck id) s fun t =>
          t.mortar.responses = r.resp :: s.mortar.responses ∧ t.mortar.acks = s.mortar.acks.erase r ∧ Frame s { t with mortar := s.mortar } [P.mtr])
        ∧ (∀ dst src resp, s.boot.held = false → dst < 39 → src < 39 → (s.mortar.acks.find? fun r => r.resp.id = id) = none →
          (s.mortar.flight.find? fun p => p.id = id) = none →
          Runs (.xingTimeout dst src id resp host) s fun t =>
            t.mortar = { s.mortar with abandon := s.mortar.abandon ++ [(src, dst, resp)] } ∧ Raised t P.aon 8 ∧ Frame s { t with mortar := s.mortar } [P.aon])

/-! The endpoint (chapter 5). -/

/-- Link events: training ends the endpoint's reset, the link comes up with its speed and width, an endpoint reset takes it down; L1 is entered where
the host allows it and nothing is pending. Function events: power states, resets of a function, and the masks of its vectors. -/
def Obligations.LinkAndFunctionEvents : Prop :=
  ∀ s : State,
    (s.boot.powered = true → s.boot.held = false → Runs .linkTrain s fun t => t.pci.inReset = false ∧ t.pci.training = true ∧ SameBytes s t)
      ∧ (∀ speed width, s.pci.training = true → Runs (.linkUp speed width) s fun t =>
          t.pci.speed = speed ∧ t.pci.width = width ∧ t.pci.training = false ∧ Raised t P.pci 8 ∧ (speed < 4 ∨ width < 8 → Raised t P.pci 10))
      ∧ (∀ cause, Runs (.endpointReset cause) s fun t =>
          t.pci.inReset = true ∧ t.pci.speed = 0 ∧ t.pci.outstanding = [] ∧ t.pci.reads = [] ∧ t.pci.writes = [] ∧ Raised t P.pci 9
            ∧ ((∀ w ∈ s.pci.writes, w.queue = none) → SameBytes s t))
      ∧ ((funcOf s 0).aspmL1 = true → s.pci.outstanding = [] → s.pci.waiting = [] → s.pci.writes = [] → s.pci.speed ≠ 0 → s.pci.l1 = false →
          Runs .l1Entry s fun t => t.pci.l1 = true ∧ t.pci.sent = .l1Request :: s.pci.sent)
      ∧ (∀ fn, fn < s.pci.funcs.length →
    (∀ d3, Runs (.powerStateChange fn d3) s fun t => (funcOf t fn).d3 = d3 ∧ SameBytes s t)
          ∧ (Runs (.functionSendResume fn) s fun t => (funcOf t fn).bme = true ∧ (funcOf t fn).d3 = false)
          ∧ (∀ v due, Runs (.msixUnmask fn v due) s fun t => (SMap.getD (funcOf t fn).table v {}).masked = false)
          ∧ (vfOn s fn = true → Runs (.vfFlr fn) s fun t => (funcOf t fn).flr = true ∧ (funcOf t fn).table = [] ∧ ∀ r ∈ t.pci.reads, r.fn ≠ fn)
          ∧ (Runs .pfFlr s fun t => t.pci.vfEnable = false ∧ t.pci.numVfs = 0 ∧ ∀ r ∈ t.pci.reads, r.fn ≠ 0)
          ∧ ((funcOf s fn).flr = true → Runs (.flrDone fn) s fun t => (funcOf t fn).flr = false ∧ Raised t P.pci 13))

/-- The endpoint refuses a device request to host-memory window `w` with REFUSED and sends nothing in each of the cases of R147, and counts it. A device
write to an open window waits to leave and is acknowledged when it has left; a device read is on its way under its number. -/
def Obligations.HostWindowRequests : Prop :=
  ∀ (s : State) (req : Req) (addr w : Nat) (bad : List (Nat × Nat)) (bulk : Bool), placeOf addr = .host w → (island s 1).fenced = false →
    let d := addr - 0x800000000000 - w * 0x80000000000
    (∀ (len : Nat) (data : Option (List Byte)),
      let n := match data with | some bs => bs.length | none => len
      let fn := hwinFn s w
      (rb s (R.PCI_HWIN_CFG_HI w) 4 = false ∨ d + n > rf s (R.PCI_HWIN_CFG w) 30 0 * 0x1000 ∨ (funcOf s fn).bme = false ∨ (funcOf s fn).d3 = true
        ∨ (funcOf s fn).flr = true ∨ (fn ≠ 0 ∧ s.pci.vfEnable = false) ∨ s.pci.inReset = true) →
      Runs (.hwinRequest req addr len data bad bulk) s fun t =>
        (∃ rest, t.pci.answers = { id := s.pci.nextId, status := MS.refused } :: rest) ∧ t.pci.reads = s.pci.reads
          ∧ (∀ x ∈ t.pci.writes, x ∈ s.pci.writes ∨ x.id = none)
          ∧ rf t R.PCI_REFUSALS 31 16 = min 65535 (rf s R.PCI_REFUSALS 31 16 + 1) ∧ SameBytes s t)
      ∧ (∀ len bs, hwinRefusal s w d (bs : List Byte).length = none → Runs (.hwinRequest req addr len (some bs) bad bulk) s fun t =>
          ∃ x, t.pci.writes = s.pci.writes ++ [x] ∧ x.id = some s.pci.nextId ∧ x.addr = addr ∧ t.pci.answers = s.pci.answers)
      ∧ (∀ len, hwinRefusal s w d len = none → Runs (.hwinRequest req addr len none bad bulk) s fun t =>
          ∃ x, t.pci.reads = s.pci.reads ++ [x] ∧ x.id = s.pci.nextId ∧ x.addr = addr ∧ x.len = len)
      ∧ (∀ x xs i, s.pci.writes = x :: xs → x.id = some i → x.tlps.length ≤ 1 → Runs .postedWriteSent s fun t =>
          (∃ ms, t.pci.writes = xs ++ ms ∧ ∀ m ∈ ms, m.id = none) ∧ t.pci.answers = { id := i, status := MS.ok } :: s.pci.answers)
      ∧ (∀ x xs m n r, s.pci.writes = x :: xs → x.tlps = m :: n :: r → Runs .postedWriteSent s fun t =>
          (∃ ms, t.pci.writes = { x with tlps := n :: r } :: (xs ++ ms) ∧ ∀ m ∈ ms, m.id = none) ∧ t.pci.answers = s.pci.answers)
      ∧ Gives .tagWaitIssue s (issueReads s.pci.waiting s)

/-- Completions and their timeout: a completion that brings all the bytes of its request takes it off the list, one that brings a part leaves the rest; a
timeout or a bad status poisons what the request covers. Of a tag that a reset holds, the last completion or its timeout frees it; of any other tag that no request
holds the completion is captured (the model's choice, log entry 40). -/
def Obligations.CompletionsAndTimeouts : Prop :=
  ∀ (s : State) (tag : Nat) (ep : Bool) (data : List Byte) (hdr : List Nat) (status : Nat),
    ((s.pci.outstanding.find? fun o => o.tag = tag) = none →
        (∀ left, s.pci.heldTags.get tag = some left →
          ((status ≠ 0 ∨ left ≤ data.length) → Runs (.completionArrive tag status ep data hdr) s fun t => t.pci.heldTags.get tag = none)
            ∧ (status = 0 → data.length < left → Runs (.completionArrive tag status ep data hdr) s fun t =>
                t.pci.heldTags.get tag = some (left - data.length)))
          ∧ (s.pci.heldTags.get tag = none → Runs (.completionArrive tag status ep data hdr) s fun t =>
              t.pci.outstanding = s.pci.outstanding ∧ t.pci.heldTags = s.pci.heldTags ∧ Raised t P.pci 0 ∧ SameBytes s t)
          ∧ ((funcOf s 0).cplDisable = false → Runs (.cplTimeout tag) s fun t => t.pci.heldTags.get tag = none))
      ∧ (∀ o, (s.pci.outstanding.find? fun o => o.tag = tag) = some o →
        (data.length = o.len → Runs (.completionArrive tag 0 false data hdr) s fun t => t.pci.outstanding = s.pci.outstanding.erase o)
          ∧ (data.length < o.len → Runs (.completionArrive tag 0 false data hdr) s fun t => t.pci.outstanding = s.pci.outstanding.map fun q =>
              if q.tag = tag then { o with addr := o.addr + data.length, len := o.len - data.length } else q)
          ∧ (status ≠ 0 → Runs (.completionArrive tag status ep data hdr) s fun t =>
              t.pci.outstanding = s.pci.outstanding.erase o ∧ Raised t P.pci 0)
          ∧ ((funcOf s 0).cplDisable = false → Runs (.cplTimeout tag) s fun t =>
              t.pci.outstanding = s.pci.outstanding.erase o ∧ Raised t P.pci 12 ∧ Raised t P.pci 0))
      ∧ ((funcOf s 0).cplDisable = true → Gives (.cplTimeout tag) s s)

/-- Requests of the host: a configuration read is completed with the dword; a request that no BAR answers with Unsupported Request where it expects a
completion; one that a BAR answers by the rules of what lies there, where no request that it makes has to wait. -/
def Obligations.HostRequests : Prop :=
  ∀ (s : State) (fn : Nat) (hdr : List Nat), answers s = true →
    let a := inbound s
    (∀ reg data be, turnedAway a fn false false 4 hdr = none → Runs (.configRequest fn reg false be data hdr) s fun t =>
        t.pci.sent = .completion fn 0 false (leBytes 4 (cfgRead a fn (reg % 0x1000 / 4 * 4))) :: s.pci.sent ∧ SameBytes s t)
      ∧ (∀ reg data be, turnedAway a fn false true 4 hdr = none →
        Gives (.configRequest fn reg true be data hdr) s (cfgWrite (sendHost a (.completion fn 0 false [])) fn (reg % 0x1000 / 4 * 4) be data.toNat))
      ∧ (∀ addr len t, turnedAway a fn false false len hdr = none → decodeBar a fn addr = some t → memOn a fn = true →
        let u := readTarget (withHost a []) fn t len hdr
        Unheld u → Gives (.inboundReadTlp fn addr len hdr) s (given s u))
      ∧ (∀ addr len, turnedAway a fn false false len hdr = none → (decodeBar a fn addr = none ∨ memOn a fn = false) →
        Runs (.inboundReadTlp fn addr len hdr) s fun t => (∃ rest, t.pci.sent = .completion fn 1 false [] :: rest) ∧ Raised t P.pci 0 ∧ SameBytes s t)
      ∧ (∀ addr data ep host cycles t, turnedAway a fn true true data.length hdr = none → decodeBar a fn addr = some t → memOn a fn = true →
        let u := writeTarget (withHost a host) fn t data ep cycles hdr
        Unheld u → Gives (.inboundWriteTlp fn addr data ep host cycles hdr) s (given s u))
      ∧ (∀ addr data ep host cycles, turnedAway a fn true true data.length hdr = none → (decodeBar a fn addr = none ∨ memOn a fn = false) →
        Runs (.inboundWriteTlp fn addr data ep host cycles hdr) s fun t => Raised t P.pci 0 ∧ SameBytes s t)
      ∧ (∀ kind len, (kind = .read ∨ kind = .write) →
        Runs (.inboundUnsupportedTlp fn kind len hdr) s fun t => ∃ rest, t.pci.sent = .completion fn 1 false [] :: rest)
      ∧ (∀ write len, Runs (.disabledVfRequest false write len hdr) s fun t => (∃ rest, t.pci.sent = .completion 0 1 false [] :: rest) ∧ Raised t P.pci 0)

/-! DRAM (chapter 6). -/

/-- The request queues of a subchannel: a read or a write joins its queue, a write is acknowledged as it enters where no earlier read of its source
and channel waits, a full queue takes nothing while an urgent request waits at the stop, a fenced subchannel answers FENCED; the request picked is served and leaves; a
read brings the bytes at its address, a write puts its bytes there and nowhere else; ageing promotes a request by one class. -/
def Obligations.DramRequestQueues : Prop :=
  ∀ (s : State) (u : Nat), u < s.dram.sub.length →
    let k := subch s u
    let quiet := (subch s (u / 2 * 2)).acks = [] ∧ (subch s (u / 2 * 2 + 1)).acks = []
    (∀ (l src addr len : Nat) (req : Req) (cls : Option Nat) (chan : Chan) (bs : List Byte) (bad : List (Nat × Nat)),
      placeOf addr = .dram → dramTarget s addr = some (u, l) →
        (k.st ≠ .fenced → queueFull k.reads = false → Runs (.dramRequestAccept src req cls chan addr len none bad) s fun t =>
            (∃ r, (subch t u).reads = k.reads ++ [r] ∧ r.src = src ∧ r.addr = addr ∧ r.loc = l ∧ r.len = len ∧ r.cls = servedClass chan cls)
              ∧ t.dram.resp = s.dram.resp ∧ Frame s { t with dram := s.dram } [])
          ∧ (k.st ≠ .fenced → queueFull k.writes = false → quiet → readBefore s u src chan s.dram.seq = false →
            Runs (.dramRequestAccept src req cls chan addr len (some bs) bad) s fun t =>
            (∃ r, (subch t u).writes = k.writes ++ [r] ∧ r.addr = addr ∧ r.data = some bs ∧ r.bad = bad)
              ∧ t.dram.resp = { src := src, chan := chan, status := MS.ok, data := [] } :: s.dram.resp ∧ Frame s { t with dram := s.dram } [])
          ∧ (∀ data, k.st ≠ .fenced → queueFull (if data.isSome then k.writes else k.reads) = true →
            (chan ≠ .urgent → Gives (.dramRequestAccept src req cls chan addr len data bad) s s)
              ∧ (chan = .urgent → Runs (.dramRequestAccept src req cls chan addr len data bad) s fun t =>
                (∃ r, (subch t u).stopped = k.stopped ++ [r] ∧ r.addr = addr ∧ r.data = data ∧ r.cls = 1) ∧ (subch t u).reads = k.reads
                  ∧ (subch t u).writes = k.writes ∧ t.dram.resp = s.dram.resp ∧ Frame s { t with dram := s.dram } []))
          ∧ (k.st = .fenced → quiet → readBefore s u src chan s.dram.seq = false → Runs (.dramRequestAccept src req cls chan addr len none bad) s fun t =>
            t.dram.resp = { src := src, chan := chan, status := MS.fenced, data := List.replicate len 0, bad := [(0, len)] } :: s.dram.resp ∧ SameBytes s t))
      ∧ (∀ i r, k.live = true → k.draining = false → pickReq s u k.reads = some (i, r) → hasRoom s u r = true →
          (bankAt k (bankOf r.loc)).row = some (rowOf r.loc) → quiet → k.stopped = [] →
          Runs (.dramRead u) s fun t => (subch t u).reads = k.reads.eraseIdx i ∧ SameBytes s t ∧ ∃ x, t.dram.resp = x :: s.dram.resp ∧ x.src = r.src
            ∧ x.chan = r.chan ∧ (k.writes = [] → s.eccErr = [] → s.dram.eccFlips = [] → badRanges s r.addr r.len = [] →
              x.data = memBytes s r.addr r.len ∧ x.status = MS.ok))
      ∧ (∀ i r bs, k.live = true → (k.draining = true ∨ k.reads = []) → pickReq s u k.writes = some (i, r) → hasRoom s u r = true → r.data = some bs →
          (bankAt k (bankOf r.loc)).row = some (rowOf r.loc) → k.stopped = [] →
          Runs (.dramWrite u) s fun t => (subch t u).writes = k.writes.eraseIdx i ∧ (subch t u).held = k.held ++ burstsOf r
            ∧ (∀ j, j < bs.length → memByte t (r.addr + j) = nth bs j 0)
            ∧ (∀ a, (a < r.addr ∨ r.addr + bs.length ≤ a) → memByte t a = memByte s a))
      ∧ (∀ i, Runs (.requestAge u i false) s fun t => (subch t u).reads = k.reads.modify i (fun r => { r with cls := if r.cls0 = 3 then min r.cls 2 else 1 })
          ∧ (subch t u).writes = k.writes ∧ Frame s { t with dram := s.dram } [])

/-- Activates and mitigations, refresh, power-down and the patrol scrub of a subchannel. -/
def Obligations.DramUpkeep : Prop :=
  ∀ (s : State) (u b : Nat), u < 8 → s.dram.sub.length = 8 →
    let k := subch s u
    let most := rf s (R.DMC_REF_CTRL (u / 2)) 3 0
    (∀ row src, k.live = true → retryRoom k = true → mayActivate s u b src = true → Runs (.rowActivate u b row src) s fun t =>
        (bankAt (subch t u) b).row = some row ∧ (bankAt (subch t u) b).rolling = (bankAt k b).rolling + 1 ∧ Frame s { t with dram := s.dram } [P.dmc (u / 2)])
      ∧ (∀ m ms, k.live = true → retryRoom k = true → (bankAt k b).mitig = m :: ms → Runs (.mitigationIssue u b) s fun t =>
          (bankAt (subch t u) b).mitig = ms ∧ (bankAt (subch t u) b).row = none ∧ (∃ c, (subch t u).retry = k.retry ++ [c])
            ∧ Frame s { t with dram := s.dram } [P.dmc (u / 2)])
      ∧ (k.live = true → retryRoom k = true → (bankAt k b).mitig = [] → rfmDue s u b = true →
          Runs (.mitigationIssue u b) s fun t => (bankAt (subch t u) b).rolling = (bankAt k b).rolling - s.dram.rfmThreshold ∧ Frame s { t with dram := s.dram } [])
      ∧ (Runs (.actTableClear u) s fun t => (∀ i, (bankAt (subch t u) i).table = []) ∧ Frame s { t with dram := s.dram } [])
      ∧ (Runs (.throttleWindowEnd u) s fun t => (subch t u).charged = [] ∧ (subch t u).throttled = [] ∧ Frame s { t with dram := s.dram } [])
      ∧ (ticks k = true → k.owed + 1 < most → Runs (.refreshTick u) s fun t => (subch t u).owed = k.owed + 1 ∧ Frame s { t with dram := s.dram } [])
      ∧ (refreshes k = true → 0 < most → most ≤ k.owed + 1 → Runs (.refreshTick u) s fun t => (subch t u).owed = 0
          ∧ (∀ i, (bankAt (subch t u) i).row = none) ∧ Frame s { t with dram := s.dram } [P.dmc (u / 2)])
      ∧ (refreshes k = true → retryRoom k = true → 1 ≤ k.owed → (∀ r ∈ k.reads ++ k.writes, r.cls = 3) → Runs (.refreshIssue u) s fun t =>
          (subch t u).owed = k.owed - 1 ∧ Frame s { t with dram := s.dram } [])
      ∧ (refreshes k = true → retryRoom k = true → -8 < k.owed → rf s (R.DMC_REF_CTRL (u / 2)) 15 8 ≠ 0 → k.reads = [] → k.writes = [] →
          Runs (.refreshPullin u) s fun t => (subch t u).owed = k.owed - 1 ∧ Frame s { t with dram := s.dram } [P.dmc (u / 2)])
      ∧ (∀ rate, refreshes k = true → Runs (.mr4Poll u rate) s fun t => (subch t u).rate = min rate 2 ∧ (2 ≤ rate → Raised t (P.dmc (u / 2)) 13)
          ∧ Frame s { t with dram := s.dram } [P.dmc (u / 2)])
      ∧ (k.live = true → k.reads = [] → k.writes = [] → rf s (R.DMC_PD_CTRL (u / 2)) 15 0 ≠ 0 → Runs (.powerDownEntry u) s fun t => (subch t u).pd = true
          ∧ Frame s { t with dram := s.dram } [])
      ∧ (∀ a, k.live = true → retryRoom k = true → rb s (R.DMC_SCRUB_CTRL (u / 2)) 0 = true → internalOf s u k.patrol = some a →
          engineCommand s u (patrolReq s a k.patrol) ≠ none →
          Runs (.dramPatrolScrub u) s fun t => (subch t u).patrol = k.patrol + 64 ∧ SameBytes s t)

/-- Retraining and alerts: a side whose setting passes moves one step towards the passing centre; where none passes the subchannel drifts and asks for
a window; a window whose training passes ends it, one that fails fences it, and an alert holds its steps; an alert stops its traffic until the recovery, and one for a replayed command
fences it. -/
def Obligations.DramTrainingAndAlerts : Prop :=
  ∀ (s : State) (u : Nat), u < 8 → s.dram.sub.length = 8 →
    let k := subch s u
    let o := R.DMC_RETRAIN_CTRL (u / 2)
    (∀ rd wr x y, k.live = true → (rb s o 0 = true ∨ rb s o (8 + u % 2) = true) → probeMove rd = some x → probeMove wr = some y →
        Runs (.retrainPause u rd wr) s fun t =>
          (subch t u).rdSet = k.rdSet + x ∧ (subch t u).wrSet = k.wrSet + y ∧ (subch t u).winReq = false
            ∧ Frame s { t with dram := s.dram } [P.dmc (u / 2), P.dpt])
      ∧ (∀ rd wr, k.live = true → (rb s o 0 = true ∨ rb s o (8 + u % 2) = true) → (probeMove rd = none ∨ probeMove wr = none) →
        Runs (.retrainPause u rd wr) s fun t => (subch t u).st = .drifting ∧ (subch t u).winReq = true ∧ Raised t (P.dmc (u / 2)) 9
          ∧ Frame s { t with dram := s.dram } [P.dmc (u / 2), P.dpt])
      ∧ (∀ t : Train, k.st = .window → k.alert = false →
        (trainFails t = none → s.dpt.noResults = [] → Runs (.retrainWindow u t) s fun n =>
            (subch n u).st = (if fillsSub s u then .filling else .run) ∧ (subch n u).winReq = false
              ∧ Frame s { n with dram := s.dram } [P.dmc (u / 2), P.dpt])
          ∧ (trainFails t ≠ none → Completes (.retrainWindow u t) s (retrainWindow u t (withHost s [])) fun n =>
            (subch n u).st = .fenced ∧ (subch n u).reads = [] ∧ Raised n (P.dmc (u / 2)) 0 ∧ Raised n (P.dmc (u / 2)) 10))
      ∧ (∀ t : Train, k.alert = true → Gives (.retrainWindow u t) s s)
      ∧ (∀ replay, ticks k = true → (replay = false ∨ k.replaying = 0) → Runs (.dramAlert u replay) s fun t =>
          (subch t u).alert = true ∧ Frame s { t with dram := s.dram } [])
      ∧ (ticks k = true → k.replaying ≠ 0 → Completes (.dramAlert u true) s (dramAlert u true (withHost s [])) fun t =>
        (subch t u).st = .fenced ∧ Raised t (P.dmc (u / 2)) 0)
      ∧ (∀ parity crc, k.alert = true → s.dpt.noResults = [] → Runs (.alertRecovery u parity crc) s fun t =>
          (subch t u).alert = false ∧ ((parity || crc) = true → Raised t (P.dmc (u / 2)) 11) ∧ Frame s { t with dram := s.dram } [P.dmc (u / 2)])
      ∧ (Runs (.retryEntryRetire u false) s fun t => (subch t u).retry = k.retry.drop 1 ∧ (subch t u).held = k.held ∧ Frame s { t with dram := s.dram } [])
      ∧ (Runs (.retryEntryRetire u true) s fun t => (subch t u).held = k.held.drop 1 ∧ (subch t u).retry = k.retry ∧ Frame s { t with dram := s.dram } [])
      ∧ (k.st = .filling → fillsSub s u = true → Completes .layoutReady s (layoutReady (withHost s [])) fun t =>
          (subch t u).st = .run ∧ t.dram.filling = [])

/-! Hod and Quarry (chapters 7 and 8). -/

/-- Queue contexts, doorbells and commits: what each writes into the context of its queue. With no operation waiting in an urgent slot (07 R241). What a rewrite of an
enabled queue does to a slot held by another is the model's choice (log entry 119). -/
def Obligations.QueueContexts : Prop :=
  ∀ (s : State) (req : Req) (q : Nat), q < 65536 → CleanCtx s q → s.hod.slots = [] →
    let c := peekCtx s q
    (∀ w1 : W32,
      let w := putBit w1.toNat 31 true
      let new := putBits c 63 32 w
      tableRefusal s 1 = none → ctxEn c = false → pushesOf s q = [] → w &&& 0x08E00000 = 0 → 3 ≤ bits w 20 16 → bits w 20 16 ≤ 16 →
      (bit w 28 = true → ∀ e ∈ s.hod.cache, e.1 = q ∨ ctxSlot e.2 ≠ ctxSlot c) →
      (ringOk s new = true → Runs (.queueEnable req q w1) s fun t =>
          ctxEn (peekCtx t q) = true ∧ ctxState (peekCtx t q) = 1 ∧ ctxDepth (peekCtx t q) = ctxDepth c)
        ∧ (ringOk s new = false → Runs (.queueEnable req q w1) s fun t => ctxState (peekCtx t q) = 2 ∧ Raised t P.hod 8))
      ∧ (∀ w1 : W32,
        let w := putBit w1.toNat 31 false
        tableRefusal s 1 = none → ctxEn c = true → pushesOf s q = [] → w &&& 0x08E00000 = 0 → 3 ≤ bits w 20 16 → bits w 20 16 ≤ 16 →
        Runs (.queueDisable req q w1) s fun t => ctxEn (peekCtx t q) = false ∧ ctxState (peekCtx t q) = 0 ∧ ctxDepth (peekCtx t q) = ctxDepth c)
      ∧ (ctxEn c = false → pushWaits s q = false → islandStatus s 18 = MS.ok → Runs (.queueDisableDone q) s fun t =>
          pushesOf t q = [] ∧ (pushesOf s q = [] → ctxState (peekCtx t q) = 0))
      ∧ (∀ n cycles, ctxEn c = true → hodStops s = false → otherPart s req c = false → ctxState c ≠ 2 → (ctxProd c = 0 ∨ ctxProd c = 2) →
        1 ≤ n → n ≤ 65536 →
        (ctxDepth c + ctxResv c + n ≤ ctxCap c → Runs (.doorbellPushed req q n 0 cycles false) s fun t =>
            ctxDepth (peekCtx t q) = ctxDepth c + n ∧ ctxTail (peekCtx t q) = (ctxTail c + n) % ctxCap c ∧ ctxHead (peekCtx t q) = ctxHead c % ctxCap c)
          ∧ (ctxCap c < ctxDepth c + ctxResv c + n → ctxDepth c ≤ ctxCap c → Runs (.doorbellPushed req q n 0 cycles false) s fun t =>
            ctxDepth (peekCtx t q) = ctxDepth c ∧ rf t R.HOD_REFUSED 31 0 = min (2 ^ 32 - 1) (rf s R.HOD_REFUSED 31 0 + 1))
          ∧ (ctxUrgent c = true → ctxState c = 1 → Runs (.doorbellPushed req q n 0 cycles true) s fun t =>
            t.hod.slots.get (ctxSlot c) = some { queue := q, count := n } ∧ peekCtx t q = c ∧ SameBytes s t))
      ∧ (∀ n, ctxEn c = true → hodStops s = false → otherPart s req c = false → ctxState c ≠ 2 → ctxCons c = 0 → 1 ≤ n → n ≤ ctxDepth c →
        ctxDepth c ≤ 65536 → ctxResv c + ctxDepth c ≤ ctxCap c →
        Runs (.doorbellPopped req q n 0 .alone) s fun t => ctxDepth (peekCtx t q) = ctxDepth c - n ∧ ctxHead (peekCtx t q) = (ctxHead c + n) % ctxCap c)
      ∧ (∀ ack, ctxEn c = true → hodStops s = false → otherPart s req c = false →
        Runs (.doorbellAck req q ack) s fun t => cf (peekCtx t q) 6 12 8 = cf c 6 12 8 &&& (31 ^^^ ack % 32))
      ∧ (∀ p ps, pushesOf s q = p :: ps → pushWaits s q = false → islandStatus s 18 = MS.ok → p.count ≤ ctxResv c → ctxDepth c + p.count ≤ 65536 →
        Runs (.pushCommit q) s fun t =>
        ctxDepth (peekCtx t q) = ctxDepth c + p.count ∧ ctxResv (peekCtx t q) = ctxResv c - p.count ∧ t.hod.inflight = s.hod.inflight.erase p)

/-- The statuses of device pushes, trigger pushes and pops, and what the copy engine does with a descriptor and its completion. A push that fits joins the
pushes in flight, unless its ring cannot be written, which detaches the queue, or waits in the slot of its urgent queue; a pop takes its entries from the head and answers
their bytes. -/
def Obligations.PushesPopsAndCopies : Prop :=
  ∀ (s : State) (req : Req) (q : Nat), q < 65536 → CleanCtx s q → s.hod.slots = [] →
    let c := peekCtx s q
    (∀ es bad cycles hold, ctxEn c = false → Runs (.devicePush req q es bad cycles hold) s fun t => t.hod.status = HS.disabled ∧ SameBytes s t)
      ∧ (∀ es bad cycles hold, hodStops s = false → ctxEn c = true → ctxState c = 2 →
        Runs (.devicePush req q es bad cycles hold) s fun t => t.hod.status = HS.detached ∧ SameBytes s t)
      ∧ (∀ es bad cycles, hodStops s = false → ctxEn c = true → ctxState c ≠ 2 → otherPart s req c = false → ctxProd c = 1 → ctxRecord c = false →
        1 ≤ es.length → es.length ≤ 16 →
        (ctxUrgent c = true → Runs (.devicePush req q es bad cycles true) s fun t =>
            t.hod.slots.get (ctxSlot c) = some { queue := q, pushes := [(req, es, bad)] } ∧ pushesOf t q = pushesOf s q ∧ SameBytes s t)
          ∧ (ctxDepth c + ctxResv c + es.length ≤ ctxCap c → ∃ u, devicePush req q es bad cycles false (withHost s []) = .next u ∧
            Completes (.devicePush req q es bad cycles false) s u fun t =>
              t.hod.status = HS.ok ∧ (pushesOf t q = pushesOf s q ++ [⟨q, es.length⟩] ∨ ctxState (peekCtx t q) = 2))
          ∧ (ctxCap c < ctxDepth c + ctxResv c + es.length → Runs (.devicePush req q es bad cycles false) s fun t =>
            t.hod.status = HS.full ∧ pushesOf t q = pushesOf s q))
      ∧ (∀ n cycles,
        let k := if ctxUrgent c then n else 1
        1 ≤ n → hodStops s = false → ctxEn c = true → ctxState c ≠ 2 → ctxProd c = 2 →
        (Runs (.triggerPush q n cycles false) s fun t =>
          if ctxDepth c + ctxResv c + k > ctxCap c then t.hod.status = HS.full
          else t.hod.status = HS.ok ∧ ctxDepth (peekCtx t q) = ctxDepth c + k)
          ∧ (ctxUrgent c = true → Runs (.triggerPush q n cycles true) s fun t =>
            t.hod.status = HS.ok ∧ t.hod.slots.get (ctxSlot c) = some { queue := q, count := n } ∧ SameBytes s t))
      ∧ (∀ n host, 1 ≤ n → n ≤ 16 → hodStops s = false → ctxEn c = true → ctxState c ≠ 2 → otherPart s req c = false → ctxCons c = 1 → ctxDepth c < n →
        Runs (.devicePop req q n .alone host) s fun t => t.hod.status = HS.empty ∧ t.hod.popped = [] ∧ SameBytes s t)
      ∧ (∀ n host,
        let popped := (hodCycle (withHost s host) q 0 n).1
        let r := ringReads n popped q (ctxHead c)
        1 ≤ n → n ≤ 16 → hodStops s = false → ctxEn c = true → ctxState c ≠ 2 → otherPart s req c = false → ctxCons c = 1 → n ≤ ctxDepth c →
        r.2.st ≤ 1 → Unheld r.1 →
        ctxDepth (peekCtx popped q) = ctxDepth c - n
          ∧ Gives (.devicePop req q n .alone host) s (given s (answer r.1 (if r.2.st = 1 then HS.poison else HS.ok) r.2.data r.2.bad)))
      ∧ (∀ host,
        let p := withHost s host
        let r := hodPop p .hw 3 q 1 .alone
        let d := copyDesc r.2.2.data
        copyReady s q = true → r.2.1 = HS.ok → (cqCheck r.1 q d.cq).2 = true → Unheld (copyStart p q .alone) →
        (nextOpcode s q host ≠ 2 → Runs (.copyDescriptor q .alone host) s fun t => ∃ j, t.hod.copies = s.hod.copies ++ [j] ∧ j.sq = q ∧ j.cq = d.cq)
          ∧ (nextOpcode s q host = 2 → Runs (.fillDescriptor q .alone host) s fun t => ∃ j, t.hod.copies = s.hod.copies ++ [j] ∧ j.sq = q ∧ j.cq = d.cq))
      ∧ (∀ j cycles, (s.hod.copies.find? fun j => j.sq = q) = some j →
        Completes (.copyComplete q cycles) s (copyFinish (withHost s []) j (some cycles)) fun t => t.hod.copies = s.hod.copies.erase j)
      ∧ (∀ h cycles, (s.hod.heldCq.find? fun h => h.sq = q) = some h →
        let r := pushRecord (withHost s []) h.cq h.record (some cycles)
        let left := if r.2 = HS.full then s.hod.heldCq else s.hod.heldCq.erase h
        Completes (.cqPushRetry q cycles) s { r.1 with hod := { r.1.hod with heldCq := left } } fun t => t.hod.heldCq = left)

/-- Buffer pools: an allocate takes the lowest free buffer of the smallest pool that holds the size, with the next generation; a free returns a buffer
to its pool and a second one is refused; a reclaim frees every buffer of its identity when it ends. -/
def Obligations.BufferPools : Prop :=
  ∀ (s : State) (req : Req) (i : Nat), accepts s P.qry = true → s.qry.scan = none → i ≤ 53 →
    (∀ size p, (firstIdx 8 fun p => poolEn s p && decide (size ≤ poolSize p)) = some p → size ≠ 0 → p ∉ s.qry.fenced →
      (i = 53 ∨ quotaOf s i p = 0xFFFF ∨ usedOf s i p < quotaOf s i p) → meetUpset s p (some (lowestFree (allocated s p) 0)) = none →
      lowestFree (allocated s p) 0 < poolCount s p → lowestFree (allocated s p) 0 < 65536 →
      let n := lowestFree (allocated s p) 0
      Runs (.allocate i size []) s fun t =>
        t.qry.status = QS.ok ∧ t.qry.handle = handleOf p n (((bufOf s p n).gen + 1) % 256) ∧ t.qry.addr = poolBase s p + n * poolSize p
          ∧ bufOf t p n = { gen := ((bufOf s p n).gen + 1) % 256, owner := i, used := true } ∧ usedOf t i p = usedOf s i p + 1 ∧ SameBytes s t)
      ∧ (∀ size, size = 0 → Runs (.allocate i size []) s fun t => t.qry.status = QS.noPool)
      ∧ (∀ p n, idReq i = req → p < 8 → n < poolCount s p → n < 65536 → poolEn s p = true → p ∉ s.qry.fenced → (bufOf s p n).gen < 256 →
        meetUpset s p (some n) = none →
        ((bufOf s p n).used = true → mayFree s i (bufOf s p n).owner = true →
            Runs (.free req i (handleOf p n (bufOf s p n).gen) []) s fun t => t.qry.status = QS.ok ∧ (bufOf t p n).used = false ∧ SameBytes s t)
          ∧ ((bufOf s p n).used = false → Runs (.free req i (handleOf p n (bufOf s p n).gen) []) s fun t =>
              t.qry.status = QS.doubleFree ∧ bufOf t p n = bufOf s p n ∧ Raised t P.qry 10)
          ∧ (∀ g, g < 256 → g ≠ (bufOf s p n).gen → Runs (.free req i (handleOf p n g) []) s fun t =>
              t.qry.status = QS.stale ∧ bufOf t p n = bufOf s p n ∧ Raised t P.qry 10))
      ∧ (Runs (.reclaim .pf i) s fun t => t.qry.scan = some (i, (List.range 8).filter (poolEn s)) ∧ t.qry.status = QS.ok ∧ t.qry.bufs = s.qry.bufs)
      ∧ (∀ ue ps,
        let r := { s with qry := { s.qry with scan := some (i, ps) } }
        Runs (.reclaimDone ue) r fun t => t.qry.scan = none
          ∧ (ue = [] → s.qry.upsets = [] → s.qry.scanAt = 0 → ps.length ≤ 8 → (∀ p, poolCount s p ≤ 65536) →
            ∀ p ∈ ps, ∀ n, n < poolCount s p → (bufOf s p n).owner = i → (bufOf t p n).used = false))

/-! Ingress (chapter 9). -/

/-- CSI-2 frames: a frame start declared, enabled and on time opens a frame with the next sequence number; a line of the wrong type, one too many, one
with a bad CRC or an early end drops it; each good line is stored below the last; a packet whose header cannot be corrected, or that reaches lanes not deskewed, is only
counted; other data types are counted, generic short packets are not. -/
def Obligations.CsiFrames : Prop :=
  ∀ (s : State) (port vc : Nat) (rx : CsiRx) (fixed : Bool), port < 8 → vc < 16 → accepts s (P.csi port) = true →
    let src := csiSrc port vc
    let p := (csiPacket s port rx).1
    let h := (csiPacket (withHost s []) port rx).1
    let taken := (csiPacket s port rx).2 = some fixed ∧ (csiPacket (withHost s []) port rx).2 = some fixed
    (∀ num, taken → (srcOf p src).frame = none →
      let d := declOf p src
      let q := nextSeq p d.slot
      let g := startCheck q.1 d (srcOf q.1 src)
      (d.valid = false → Runs (.csiFrameStart port vc num rx) s fun t => (srcOf t src).frame = none ∧ Raised t (P.csi port) 8)
        ∧ (d.valid = true → d.en = true → (d.cls ≠ 0 ∨ rb p R.PLB_SENT 9 = false) → g.2 = none →
          Runs (.csiFrameStart port vc num rx) s fun t => ∃ f, (srcOf t src).frame = some f ∧ f.slot = d.slot ∧ f.num = num % 65536
            ∧ f.seq = (SMap.getD p.ing.seq d.slot 0 + 1) % 2 ^ 32 ∧ f.ts = tbNs g.1 ∧ f.lines = 0 ∧ f.fixed = fixed ∧ SameBytes g.1 t)
        ∧ (∀ e, d.valid = true → d.en = true → (d.cls ≠ 0 ∨ rb p R.PLB_SENT 9 = false) → g.2 = some e →
          Runs (.csiFrameStart port vc num rx) s fun t => (srcOf t src).frame = none ∧ Raised t (P.csi port) 8))
      ∧ (∀ f dt wc data crcOk, taken →
        let d := declOf h src
        (srcOf h src).frame = some f → f.got = false → rawType dt = true →
        (dt ≠ (rawFormat d.format d.width).2.2 ∨ wc ≠ (rawFormat d.format d.width).2.1) →
        Runs (.csiFirstLine port vc dt wc data crcOk rx) s fun t => (srcOf t src).frame = none ∧ Raised t (P.csi port) 8)
      ∧ (∀ f data crcOk, taken →
        let d := declOf h src
        let wc := (rawFormat d.format d.width).2.1
        let al := allocFrom h (streamVia d none) d.slot (strideOf d * d.height)
        let g := { f with got := true, handle := al.2.handle, addr := al.2.addr, size := strideOf d * d.height }
        let u := storeLine (acceptStart al.1 src g) src d g (data.take wc) crcOk fixed
        (srcOf h src).frame = some f → f.got = false → rawType (rawFormat d.format d.width).2.2 = true →
        (al.2.st = QS.ok → Unheld u → Gives (.csiFirstLine port vc (rawFormat d.format d.width).2.2 wc data crcOk rx) s (given s u))
          ∧ (al.2.st ≠ QS.ok → Runs (.csiFirstLine port vc (rawFormat d.format d.width).2.2 wc data crcOk rx) s fun t =>
            (srcOf t src).frame = none ∧ Raised t (P.csi port) 8))
      ∧ (∀ f dt wc data crcOk, taken →
        let d := declOf h src
        (srcOf h src).frame = some f → f.got = true → rawType dt = true →
        (dt ≠ (rawFormat d.format d.width).2.2 ∨ wc ≠ (rawFormat d.format d.width).2.1 ∨ d.height ≤ f.lines ∨ crcOk = false) →
        Runs (.csiLine port vc dt wc data crcOk rx) s fun t => (srcOf t src).frame = none ∧ Raised t (P.csi port) 9)
      ∧ (∀ f data, taken →
        let d := declOf h src
        let wc := (rawFormat d.format d.width).2.1
        let u := storeLine h src d f (data.take wc) true fixed
        (srcOf h src).frame = some f → f.got = true → rawType (rawFormat d.format d.width).2.2 = true → f.lines < d.height →
        Unheld u → Gives (.csiLine port vc (rawFormat d.format d.width).2.2 wc data true rx) s (given s u))
      ∧ (∀ f, taken →
        let d := declOf h src
        (srcOf h src).frame = some f →
        (f.lines < d.height → Runs (.csiFrameEnd port vc rx) s fun t => (srcOf t src).frame = none ∧ Raised t (P.csi port) 9)
          ∧ (d.height ≤ f.lines →
            Completes (.csiFrameEnd port vc rx) s (endFrame h src { f with tEnd := tbNs h, fixed := f.fixed || fixed }) fun t => (srcOf t src).frame = none))
      ∧ (Runs (.csiDeskewDone port rx) s fun t => rb t (R.CSI_PHY_STATUS port) 16 = true ∧ SameBytes s t)
      ∧ (∀ dt, 4 ≤ dt → rawType dt = false → taken →
        (dt < 8 ∨ 16 ≤ dt → Runs (.csiIgnoredPacket port dt rx) s fun t =>
            rf t (R.CSI_IGNORED port) 31 16 = min 65535 (rf p (R.CSI_IGNORED port) 31 16 + 1) ∧ SameBytes s t)
          ∧ (8 ≤ dt → dt < 16 → Gives (.csiIgnoredPacket port dt rx) s p))
      ∧ (∀ num dt, (csiPacket s port rx).2 = none → Gives (.csiFrameStart port vc num rx) s p
          ∧ (4 ≤ dt → rawType dt = false → Gives (.csiIgnoredPacket port dt rx) s p))

/-- What R305 and R306 ask of a host-push descriptor: TYPE 1, one flag, the entry's slot, a LENGTH within the entry's largest, reserved bytes zero. -/
def Sys2Proof.Claims.descOk (d : Decl) (bs : List Byte) : Bool :=
  decide (field bs 0 1 = 1) && decide (field bs 1 1 < 2) && decide (field bs 4 1 = d.slot) && decide (field bs 5 3 = 0)
    && decide (field bs 8 4 ≤ d.maxBytes) && decide (field bs 12 4 = 0) && decide (field bs 22 2 = 0) && decide (field bs 40 24 = 0)

/-- The frame that such a descriptor starts, in the buffer `al`. -/
def Sys2Proof.Claims.pushFrame (s : State) (d : Decl) (bs : List Byte) (seq sq : Nat) (al : Alloc) : Sys2Proof.Machine.Frame :=
  { slot := d.slot, kind := 3, seq := seq, num := 0, epoch := pageEpoch s d.page, ts := if field bs 24 8 = 0 then tbNs s else field bs 24 8, got := true,
    handle := al.handle, addr := al.addr, size := d.maxBytes, unsynced := decide (s.tb.state ≠ 1), cq := field bs 2 2, sq := sq,
    user := (bs.drop 32).take 8, complete := bit (field bs 1 1) 0, began := nowNs s }

/-- Ethernet, host push, triggers and stalls of the sources. -/
def Obligations.EthernetAndTriggers : Prop :=
  ∀ (s : State) (mac : Nat), mac < 2 → s.ing.ptpRx.length = 2 →
    (∀ frame, accepts s (P.eth mac) = true → Runs (.ethFrameReceive mac frame false) s fun t =>
        rf t (R.ETH_RX_DROPS mac) 15 0 = min 65535 (rf s (R.ETH_RX_DROPS mac) 15 0 + 1) ∧ t.ing = s.ing ∧ SameBytes s t)
      ∧ (∀ frame, accepts s (P.eth mac) = true → frame.length ≤ 1518 → ofBe ((frame.drop 12).take 2) = 0x22F0 →
        let u := avtpPacket (wake (withHost s []) 37) mac (frame.drop 14)
        Unheld u → Gives (.ethFrameReceive mac frame true) s (given s u))
      ∧ (∀ frame, accepts s (P.eth mac) = true → (nth s.ing.ptpRx mac []).length < 8 → frame.length ≤ 128 → ofBe ((frame.drop 12).take 2) = 0x88F7 →
        Runs (.ethFrameReceive mac frame true) s fun t => nth t.ing.ptpRx mac [] = nth s.ing.ptpRx mac [] ++ [(frame, tbNs s)] ∧ Raised t (P.eth mac) 11)
      ∧ (∀ frame, accepts s (P.eth mac) = true → (nth s.ing.ptpRx mac []).length < 8 → frame.length ≤ 128 → Runs (.ptpRx mac frame) s fun t =>
        nth t.ing.ptpRx mac [] = nth s.ing.ptpRx mac [] ++ [(frame, tbNs s)] ∧ Raised t (P.eth mac) 11)
      ∧ (∀ pk, accepts s (P.eth mac) = true → pk.length < 28 → Runs (.avtpPacket mac pk) s fun t =>
        rf t (R.ETH_AVTP_ERRS mac) 31 16 = min 65535 (rf s (R.ETH_AVTP_ERRS mac) 31 16 + 1) ∧ t.ing = s.ing ∧ SameBytes s t)
      ∧ (∀ pk e,
        let w := wake (withHost s []) 37
        let len := ofBe ((pk.drop 20).take 2)
        let u := avtpStream w mac (ethSrc mac e) (avtpRead w (ethSrc mac e) pk len)
        accepts s (P.eth mac) = true → 28 ≤ pk.length → 4 ≤ len → 24 + len ≤ pk.length → avtpEntry w mac (ofBe ((pk.drop 4).take 8)) = some e →
        Unheld u → Gives (.avtpPacket mac pk) s (given s u))
      ∧ (rb s (R.ETH_PTP_TX_CTRL mac) 30 = true → Runs (.ptpTxDone mac) s fun t => rb t (R.ETH_PTP_TX_CTRL mac) 30 = false ∧ Raised t (P.eth mac) 12)
      ∧ (∀ up, islandRuns s 37 = true → rb s (R.ETH_LINK_STATUS mac) 0 ≠ up → Runs (.ethLinkChange mac up) s fun t =>
        rb t (R.ETH_LINK_STATUS mac) 0 = up ∧ Raised t (P.eth mac) 13)
      ∧ (∀ source f fs cycles, (srcOf s source).ready = f :: fs → islandRuns s (islandAt (declOf s source).page) = true → frameWaits s source = false →
        let d := declOf s source
        Completes (.frameTrigger source cycles) s (frameTrigger source cycles (withHost s [])) fun t => (srcOf t source).ready = fs
          ∧ (if (sendTrigger (wake (withHost s []) (islandAt d.page)) source cycles).2 then (srcOf t source).delivered = true else Raised t d.page 9))
      ∧ (∀ entry meet host, (srcOf s (ethSrc mac entry)).frame ≠ none → Gives (.hostPushDesc mac entry meet host) s s)
      ∧ (∀ entry host,
        let src := ethSrc mac entry
        let d := declOf s src
        let sq := rf s (R.ETH_STR_ID_LO mac entry) 15 0
        let r := popFrom (wake (withHost s host) 37) (streamVia d none) 1 sq .alone
        let bs := r.2.2.data
        let q := nextSeq r.1 d.slot
        let k := startCheck q.1 d (srcOf q.1 src)
        let al := allocFrom k.1 (streamVia d none) d.slot d.maxBytes
        let f := Claims.pushFrame k.1 d bs q.2 sq al.2
        let v := streamVia d (some d.cls)
        let g := readRange (acceptStart al.1 src f) v (field bs 16 6) (field bs 8 4)
        let w := patientRange g.1 v f.addr g.2.data g.2.bad
        entry < 36 → accepts s (P.eth mac) = true → d.valid = true → d.en = true → d.kind = 3 → d.cls ≠ 0 → (srcOf s src).frame = none →
        (∀ h ∈ s.hod.heldCq, h.sq ≠ sq) → r.2.1 = HS.ok → Claims.descOk d bs = true →
        windowOk q.1 (ctxPart (peekCtx q.1 sq)) .hod .read (field bs 16 6) (field bs 8 4) = true → k.2 = none →
        al.2.st = QS.ok → g.2.st ≤ 1 → w.2 = MS.ok → Unheld w.1 →
        Runs (.hostPushDesc mac entry .alone host) s fun t =>
          (srcOf t src).frame = some { f with bytes := field bs 8 4, poison := !g.2.bad.isEmpty })
      ∧ (∀ source f cycles, (srcOf s source).frame = some f → f.kind = 3 → islandRuns s (islandAt (declOf s source).page) = true → writeStops s f.addr f.size = false →
        Completes (.hostPushReadDone source cycles) s (hostPushDone source cycles (withHost s [])) fun t => (srcOf t source).frame = none)
      ∧ (∀ source, source < 200 → (declOf s source).valid = true → (srcOf s source).stalled = false → (declOf s source).en = true →
        Runs (.streamStall source) s fun t => (srcOf t source).stalled = true ∧ Raised t (declOf s source).page 10)

/-! Media engines (chapters 10 and 11). -/

/-- Developer: a frame whose record is poisoned, whose handle is not live or whose header is not accepted is dropped, the last with its slot waiting for a
random access point; a frame that needs no header starts on the engine once the planes of its pictures are allocated; a decode leaves the engine idle; pictures leave in
order; a flush lets those that are shown leave, and a resync empties the slot. That no field of a poisoned record is used is the model's choice (log entry 94). -/
def Obligations.VideoDecoding : Prop :=
  ∀ (s : State) (e n : Nat), islandRuns s 27 = true →
    (∀ c p hdr rap refs meet host, devIdle s = some e → devChoose s = some (c, p, n) →
      let d := declOf s ((slotSource s n).getD 0)
      let w := wake (withHost s host) 27
      let r := popFrom { w with dev := { w.dev with rrPart := SMap.set w.dev.rrPart c p, rrSlot := SMap.set w.dev.rrSlot (8 * c + p) n } } devVia 1 d.queue meet
      let h := field r.2.2.data 0 4
      Unheld r.1 →
        (r.2.1 ≠ HS.ok → r.2.1 ≠ HS.poison → Gives (.devEngineSelect e hdr rap refs meet host) s (given s r.1))
        ∧ (r.2.1 = HS.poison ∨ (r.2.1 = HS.ok ∧ handleLive r.1 h = false) → Runs (.devEngineSelect e hdr rap refs meet host) s fun t =>
            nth t.dev.eng e none = none ∧ Raised t (P.dev e) 9)
        ∧ (∀ q, r.2.1 = HS.ok → handleLive r.1 h = true → field r.2.2.data 50 1 = d.format → hdr = some q →
            ((devSlot r.1 n).st ≠ 0 ∨ (rap = true ∧ (devSlot r.1 n).seq.isSome = true)) →
            (hdrAccepted d.format q = false ∨ q.width ≠ d.width ∨ q.height ≠ d.height) →
            Runs (.devEngineSelect e hdr rap refs meet host) s fun t => (devSlot t n).st = 0 ∧ Raised t (P.dev e) 9 ∧ Raised t (P.dev e) 10)
        ∧ (let bs := r.2.2.data
          let k := devSlot r.1 n
          let z := planeSizes k.width k.height k.depth10
          s.dev.eng.length = 6 → r.2.1 = HS.ok → handleLive r.1 h = true → field bs 50 1 = d.format → k.st ≠ 0 → hdr = none →
          (allocPics refs (updDev r.1 n fun k => { k with last := bs }) n z.2.1 z.2.2).2.1 = QS.ok →
          Runs (.devEngineSelect e hdr rap refs meet host) s fun t =>
            ∃ w, nth t.dev.eng e none = some w ∧ w.slot = n ∧ w.record = bs ∧ w.pics.length = refs.length ∧ w.rap = rap))
      ∧ (∀ w out us stall, nth s.dev.eng e none = some w →
          Completes (.devDecodeDone e out us stall) s (devDecodeDone e out us stall (withHost s [])) fun t => nth t.dev.eng e none = none)
      ∧ (∀ p ps, (devSlot s n).out = p :: ps →
          Completes (.devPictureOutput n) s (devPictureOutput n (withHost s [])) fun t => (devSlot t n).out = ps)
      ∧ (Runs (.devOutputFlush n) s fun t =>
          (devSlot t n).wait = (devSlot s n).wait.filter (·.hidden)
            ∧ (devSlot t n).out.length = (devSlot s n).out.length + ((devSlot s n).wait.filter (!·.hidden)).length ∧ SameBytes s t)
      ∧ ((devSlot s n).st = 3 → devBusy s n = false → Runs (.devResyncDone n) s fun t =>
          (devSlot t n).st = 0 ∧ (devSlot t n).refs = [] ∧ (devSlot t n).wait = [] ∧ Raised t (P.dev 0) 10)

/-- Enlarger and Easel: a frame that yielded is taken up again, a popped record that is bad is dropped, and one that is good starts a frame; a region takes
its lanes; a tile advances its region, and keeps the frame on its engine or parks it; the end of the last region frees the engine; a batch that its lanes do not fill is closed, a full or closed one is written, behind none whose
trigger is due, and triggered, and a trigger or a failed release removes it; a due window is taken. That no field of a poisoned record is used is the model's choice (log entry 94). -/
def Obligations.RegionsAndBatches : Prop :=
  ∀ (s : State) (e g : Nat), e < s.enl.eng.length → islandRuns s 28 = true → islandRuns s 29 = true →
    (∀ c p n f meet host, enlIdle s = some e → enlChoose s = some (c, p, n) →
      (s.enl.parked.find? fun x => x.slot = n) = some f →
      Runs (.enlEngineSelect e meet host) s fun t =>
        nth t.enl.eng e none = some f ∧ t.enl.parked = s.enl.parked.filter (fun x => x.slot ≠ n) ∧ SameBytes s t)
      ∧ (∀ c p n meet host, enlIdle s = some e → enlChoose s = some (c, p, n) →
        (s.enl.parked.find? fun x => x.slot = n) = none →
        let w := wake (withHost s host) 28
        let q := rf s (R.ENL_SLOT_CFG 0 n) 15 0
        let r := popFrom { w with enl := { w.enl with rrPart := SMap.set w.enl.rrPart c p, rrSlot := SMap.set w.enl.rrSlot (8 * c + p) n } } enlVia 1 q meet
        let bs := r.2.2.data
        (r.2.1 = HS.poison ∨ (r.2.1 = HS.ok ∧ inputOk r.1 n bs = false) → Unheld r.1 → Runs (.enlEngineSelect e meet host) s fun t =>
          nth t.enl.eng e none = none ∧ Raised t (P.enl e) 9)
          ∧ (r.2.1 = HS.ok → inputOk r.1 n bs = true → Unheld (startFrame r.1 e n c bs) →
            Gives (.enlEngineSelect e meet host) s (given s (startFrame r.1 e n c bs))))
      ∧ (∀ f i rest, nth s.enl.eng e none = some f → f.roi = none → f.todo = i :: rest → accepts s P.esl = true →
        groupHeld s (roiOf f.list i).group = false →
        let l := (laneRequest (wake (wake s 28) 29) (roiOf f.list i).group f.slot).2
        (∀ id ls, l = .inr (id, ls) → Runs (.eslLaneRequest e) s fun t =>
            nth t.enl.eng e none = some { f with todo := rest, roi := some { entry := i, batch := id, lanes := ls } })
          ∧ (∀ why, l = .inl why → Runs (.eslLaneRequest e) s fun t => Raised t (P.enl e) 8))
      ∧ (∀ f r b us stall, nth s.enl.eng e none = some f → f.roi = some r →
          (s.esl.batches.find? fun b => some b.id = f.roi.map (·.batch)) = some b → r.line < (roiOf f.list r.entry).dh →
          Completes (.enlTileEnd e us stall) s (enlTileEnd e us stall (withHost s [])) fun t =>
            nth t.enl.eng e none = none ∨ ∃ f', nth t.enl.eng e none = some f' ∧ f'.slot = f.slot ∧ f'.todo = f.todo
              ∧ (f'.roi = none ∨ ∃ r', f'.roi = some r' ∧ r.line < r'.line))
      ∧ (∀ f r b, nth s.enl.eng e none = some f → f.roi = some r →
          (s.esl.batches.find? fun b => some b.id = f.roi.map (·.batch)) = some b → (roiOf f.list r.entry).dh ≤ r.line →
          Completes (.enlSampleComplete e) s (enlSampleComplete e (withHost s [])) fun t =>
            nth t.enl.eng e none = if f.todo = [] then none else some { f with roi := none })
      ∧ (∀ b, fillingBatch s g = some b → Runs (.fillTimer g) s fun t => (∀ x ∈ t.esl.batches, x.id = b.id → x.closed = true) ∧ SameBytes s t)
      ∧ (∀ b, (s.esl.batches.any fun b => b.group = g && b.written) = false → (s.esl.batches.find? fun b => b.group = g && b.ready) = some b →
          Completes (.eslBatchRelease g) s (eslBatchRelease g (withHost s [])) fun t => ∀ x ∈ t.esl.batches, x.id = b.id → x.written = true)
      ∧ (∀ b cycles, (s.esl.batches.find? fun b => b.group = g && b.written) = some b → Runs (.eslBatchTrigger g cycles) s fun t =>
          ∀ x ∈ t.esl.batches, x.id ≠ b.id)
      ∧ (∀ n rest, s.esl.due = n :: rest → accepts s P.esl = true → groupHeld s (rf s R.ESL_AUDIO_CFG 5 0) = false →
          Completes .eslAudioWindow s (eslAudioWindow (withHost s [])) fun t => t.esl.due = rest)

/-! Cores and the dispatcher (chapters 12, 13 and 16). -/

/-- What reaches a core from outside its bundles: starts, preemption points, items, aborts, the end of a job, the completion of a command of the array unit
and of a piece of a mover, and the evaluation at the end bundle of a loop. A start begins its job where no bank is active and waits where one is. A start that finds its
core OFF or fenced is lost, and its job is missed: the model's choice (log entry 123). -/
def Obligations.CoreEvents : Prop :=
  ∀ (s : State) (n : Nat), n < 8 → n < s.cores.length →
    let k := coreOf s n
    (islandRuns s (19 + n) = true →
    (∀ j u ns, (s.dpt.starts.find? fun j => j.core = n && j.urgent = u) = some j → abandonTo s (bankMessage u) (19 + n) = none →
      Runs (.jobStart n u ns) s fun t => t.dpt.starts = s.dpt.starts.erase j ∧ SameBytes s t
        ∧ (k.active ≠ 0 → (if u then (coreOf t n).waitUrgent else (coreOf t n).waitNormal) = some { j with ns := ns })
        ∧ (k.active = 0 → (u = true ∨ k.waitUrgent = none) → (coreOf t n).active = (if u then 2 else 1) ∧ (bankNow t n u).pc = j.entry
            ∧ (bankNow t n u).job = some j.job ∧ (∀ i, i < 6 → xr (bankNow t n u) (i + 1) = nth j.xs i 0 % 2 ^ 64) ∧ (∀ d, 6 < d → xr (bankNow t n u) d = 0)))
      ∧ (∀ cycles, k.active = 1 → ppMark (nextBundle s n false) = true → inOwn n k.normal.pc 128 = true → (k.normal.decoded = 0 ∨ k.stalled = true) →
        k.normal.ended = none → k.normal.atEnd = false → s.eccErr = [] → s.dram.eccFlips = [] → fetchBad s n false = false →
        (k.cmds.all (·.urgent) = true →
          (k.waitUrgent = none → Runs (.preemptionPoint n cycles) s fun t => (coreOf t n).normal.decoded = 1 ∧ (coreOf t n).active = 1 ∧ SameBytes s t)
            ∧ (∀ j, k.waitUrgent = some j → j.urgent = true → Runs (.preemptionPoint n cycles) s fun t =>
                (coreOf t n).active = 2 ∧ (coreOf t n).held = true ∧ (coreOf t n).waitUrgent = none ∧ (coreOf t n).urgent.pc = j.entry
                  ∧ (coreOf t n).normal = k.normal ∧ SameBytes s t))
          ∧ (k.cmds.all (·.urgent) = false → Runs (.preemptionPoint n cycles) s fun t => (coreOf t n).normal.decoded = 2 ∧ Raised t (P.ash n) 0))
      ∧ (∀ cycles, k.active = 1 → rb s (R.ASH_MODE n) 4 = true → rf s (R.ASH_PP n) 15 0 < cycles → k.late = false →
        Runs (.ppLate n cycles) s fun t => (coreOf t n).late = true ∧ Raised t (P.ash n) 10 ∧ Raised t (P.ash n) 0)
      ∧ (∀ u i it r, (bankNow s n u).items[i]? = some it → it.res = some r → k.flips = [] → Runs (.itemArrive n u i) s fun t =>
        (bankNow t n u).items.length + 1 = (bankNow s n u).items.length
          ∧ (r.1 > 1 → (bankNow t n u).items = (bankNow s n u).items.erase it ∧ (bankNow t n u).x = (bankNow s n u).x)
          ∧ (∀ d v, (bankNow s n u).x.length = 32 → r.1 ≤ 1 → it.regs = [d] → r.2.1 = [v] → 1 ≤ d → d < 32 →
              ∀ e, xr (bankNow t n u) e = if e = d then v % 2 ^ 64 else xr (bankNow s n u) e))
      ∧ (∀ u, runningBank k = some u → k.stalled = true →
        let t := takeException (withHost s []) n u { cause := EX.stallTimeout, slot := 7 }
        Unheld t → Gives (.stallTimeout n) s (given s t))
      ∧ (∀ u j code, runningBank k = some u → (bankNow s n u).ended = some code → (bankNow s n u).job = some j → (bankNow s n u).endFailed = none →
        (∀ m ∈ k.movers.flatMap id, m.failed = none) → answered k u = true →
        let sat := satAdd 32 (bankNow s n u).accSat (bankNow s n u).outSat
        let t := jobEnded (updCore (reportCounts (withHost s []) n u) n fun k => leaveBank k u) n j code sat (bankNow s n u).mismatch
        Unheld t → Gives (.jobEnd n) s (given s t))
      ∧ (∀ c cs, k.cmds = c :: cs → arraysHeld s n = false → Runs (.arrayCommandComplete n) s fun t => (coreOf t n).cmds = cs)
      ∧ (∀ c cs, k.cmds = c :: cs → arraysHeld s n = true → Gives (.arrayCommandComplete n) s s)
      ∧ (∀ j m host, ((nth k.movers j []).find? fun m => m.failed.isNone) = some m → halfHeld k m = true →
        Runs (.moverPieceResponse n j host) s fun t => rf t (R.ASH_STALL n 8) 31 0 = min (2 ^ 32 - 1) (rf s (R.ASH_STALL n 8) 31 0 + 1) ∧ SameBytes s t)
      ∧ (∀ j m o len ps host, ((nth k.movers j []).find? fun m => m.failed.isNone) = some m → m.pieces = (o, len) :: ps → fillWaits k m = false →
        let p := withHost s host
        let a := if placeOf m.src = .coreSram n then p else (injFire p 8 fun a => a % 8 = n).1
        let r := pieceData a n m o len
        let f := if m.grain && decide (m.op = 1) then 2 else 1
        let w := coreWrite r.1 n (moverVia a n m) (m.dst + f * o) r.2.2.1 r.2.2.2
        let b := writeBuffer r.1 n m.dstKind m.half m.arr (m.boff + f * o) r.2.2.1 r.2.2.2
        let from_ := m.src + (if m.grain && decide (m.op = 2) then 2 else 1) * o
        (r.2.1 ≠ 0 → Unheld r.1 → Gives (.moverPieceResponse n j host) s (given s (updCore r.1 n fun k => failMover k j m.seq r.2.1 from_)))
          ∧ (r.2.1 = 0 → m.op ≠ 4 → m.dstKind = 0 → w.2 = MS.ok → Unheld w.1 →
            Gives (.moverPieceResponse n j host) s (given s (updCore w.1 n fun k => popPiece k j m.seq)))
          ∧ (r.2.1 = 0 → m.op ≠ 4 → m.dstKind = 0 → w.2 ≠ MS.ok → Unheld w.1 →
            Gives (.moverPieceResponse n j host) s (given s (updCore w.1 n fun k => failMover k j m.seq w.2 (m.dst + f * o))))
          ∧ (r.2.1 = 0 → m.op ≠ 4 → m.dstKind ≠ 0 → Unheld r.1 →
            Gives (.moverPieceResponse n j host) s (given s (updCore b n fun k => popPiece k j m.seq)))
          ∧ (r.2.1 = 0 → m.op = 4 → Unheld r.1 → Gives (.moverPieceResponse n j host) s (given s (gatherPiece r.1 n j m o r.2.2.1 r.2.2.2))))
      ∧ (∀ u i l, runningBank k = some u → (bankNow s n u).ended = none → (bankNow s n u).atEnd = true →
        innerLoop (bankNow s n u).loops (bankNow s n u).pc = some (i, l) → i < (bankNow s n u).loops.length →
        (2 ≤ l.count → Runs (.loopEndEvaluate n) s fun t => (bankNow t n u).pc = l.start
            ∧ nth (bankNow t n u).loops i {} = { l with count := l.count - 1 } ∧ (bankNow t n u).x = (bankNow s n u).x ∧ SameBytes s t)
          ∧ (l.count ≤ 1 → innerLoop ((bankNow s n u).loops.set i { l with count := 0, active := false }) (bankNow s n u).pc = none →
            Runs (.loopEndEvaluate n) s fun t => (bankNow t n u).pc = (bankNow s n u).pc + 128 ∧ (nth (bankNow t n u).loops i {}).active = false)))
      ∧ (∀ u, (n, u) ∈ s.dpt.aborts → abandonTo s dptVia (19 + n) = none →
        ((bankNow s n u).job ≠ none → k.active = (if u then 2 else 1) → k.held = false → k.waitUrgent = none → k.waitNormal = none →
            Runs (.jobAbort n u) s fun t => (n, u) ∉ t.dpt.aborts ∧ (coreOf t n).active = 0 ∧ (bankNow t n u).job = none ∧ SameBytes s t)
          ∧ ((bankNow s n u).job = none → Runs (.jobAbort n u) s fun t =>
              t.dpt.aborts = s.dpt.aborts.erase (n, u) ∧ (∀ w ∈ t.dpt.starts, w.core ≠ n ∨ w.urgent ≠ u)
                ∧ (if u then (coreOf t n).waitUrgent else (coreOf t n).waitNormal) = none ∧ SameBytes s t))
      ∧ (islandRuns s (19 + n) = false → ∀ j u ns, (s.dpt.starts.find? fun j => j.core = n && j.urgent = u) = some j →
        abandonTo s (bankMessage u) (19 + n) = none →
        let t := settleParts (missAborted (dropAborts (updDpt (withHost s []) fun d => { d with starts := d.starts.erase j }) n u) n j.job)
        Unheld t → Gives (.jobStart n u ns) s (given s t))

/-- The dispatcher: of the classes in order, a fallback job goes first to a bank that is free, then the job that heads the next queue; a sentinel job goes to
an urgent bank; a deadline that passes is a miss; a window is granted once no alert stops the subchannel and no prompt job of a partition that uses it runs, or late; a partition with nothing running becomes QUIESCED. -/
def Obligations.DispatchAndDeadlines : Prop :=
  ∀ s : State, s.dpt.state.length = 8 →
    (∀ n c j meet host, n < 8 → accepts s P.dpt = true → bankFree s n false = true → 1 ≤ c → c ≤ 3 →
      (∀ k, 1 ≤ k → k < c → fallbackFor s n k = none ∧ candidates s n k = []) → fallbackFor s n c = some j →
      ((modelOf s j.model).st ≠ 2 → Runs (.dispatchNormal n meet host) s fun t =>
          t.dpt.fallbacks = s.dpt.fallbacks.erase j ∧ ∃ x, t.dpt.starts = s.dpt.starts ++ [x] ∧ x.core = n ∧ x.urgent = false ∧ x.job.model = j.model)
        ∧ (let u := settleParts (miss (withHost s host) j.model (.fallback j) meet)
          (modelOf s j.model).st = 2 → Unheld u → Gives (.dispatchNormal n meet host) s (given s u)))
      ∧ (∀ n c m j meet host,
        let r := popJob (updDpt (withHost s host) fun d => { d with last := SMap.set d.last (n * 4 + c) m }) m meet
        n < 8 → accepts s P.dpt = true → bankFree s n false = true → 1 ≤ c → c ≤ 3 →
        (∀ k, 1 ≤ k → k < c → fallbackFor s n k = none ∧ candidates s n k = []) → fallbackFor s n c = none →
        dispatchNormal.nextRound (candidates s n c) (s.dpt.last.get (n * 4 + c)) = some m → (modelOf s m).st ≠ 2 → r.2 = some j → Unheld r.1 →
        Gives (.dispatchNormal n meet host) s (given s (settleParts (sendStart r.1 n false j))))
      ∧ (∀ n meet host, (∀ c, 1 ≤ c → c ≤ 3 → fallbackFor s n c = none ∧ candidates s n c = []) → Gives (.dispatchNormal n meet host) s s)
      ∧ (∀ j meet host, accepts s P.dpt = true → urgentFallback s = some j → (modelOf s j.model).st ≠ 2 →
        Runs (.dispatchUrgent meet host) s fun t => t.dpt.fallbacks = s.dpt.fallbacks.erase j ∧ ∃ x, t.dpt.starts = s.dpt.starts ++ [x] ∧ x.urgent = true
          ∧ some x.core = urgentCore s (modelOf s j.model) ∧ x.job.model = j.model)
      ∧ (∀ j meet host, accepts s P.dpt = true → urgentFallback s = some j → (modelOf s j.model).st = 2 →
        let u := settleParts (miss (withHost s host) j.model (.fallback j) meet)
        Unheld u → Gives (.dispatchUrgent meet host) s (given s u))
      ∧ (∀ k m n j meet host,
        let r := popJob (withHost s host) m meet
        accepts s P.dpt = true → urgentFallback s = none →
        ((presented s).find? fun e => (modelOf s e.2).st = 2 || (urgentCore s (modelOf s e.2)).isSome) = some (k, m) → (modelOf s m).st ≠ 2 →
        urgentCore s (modelOf s m) = some n → r.2 = some j → Unheld r.1 →
        Gives (.dispatchUrgent meet host) s (given s (settleParts (sendStart r.1 n true j))))
      ∧ (∀ m meet host, armed s m = none → Gives (.deadlinePass m meet host) s s)
      ∧ (∀ m o meet host, armed s m = some o → actionOf s o.job (modelOf s m).action = 0 → Runs (.deadlinePass m meet host) s fun t =>
        Raised t P.sbt 8 ∧ (o.job.cls = 0 → Raised t P.sbt 9) ∧ SameBytes s t)
      ∧ (∀ m n u j meet host, armed s m = some (.running n u j) → actionOf s j (modelOf s m).action = 1 → Runs (.deadlinePass m meet host) s fun t =>
        Raised t P.sbt 8 ∧ (j.cls = 0 → Raised t P.sbt 9) ∧ (n, u) ∈ t.dpt.aborts ∧ t.dpt.fallbacks.length = s.dpt.fallbacks.length + 1 ∧ SameBytes s t)
      ∧ (∀ u late, u < s.dram.sub.length → (subch s u).winReq = true → (subch s u).alert = false →
        (late = true ∨ ∀ e ∈ s.dpt.models, bit (rf s (R.DPT_PART_CFG e.2.part) 23 16) u = true → ∀ j ∈ runningJobs s e.1, j.2.2.cls ≠ 1) →
        Runs (.windowGrant u late) s fun t =>
          (subch t u).st = .window ∧ (subch t u).winReq = false ∧ rb t R.DPT_WINDOW 4 = true ∧ Raised t P.dpt 12 ∧ SameBytes s t)
      ∧ (∀ p, p < 8 → rb s (R.DPT_PART_CFG p) 12 = true → rb s (R.DPT_PART_CTRL p) 0 = true → quiesceAsked s p = true → runningOf s p = 0 →
        Runs (.partitionQuiesced p) s fun t => nth t.dpt.state p 0 = 4 ∧ (nth s.dpt.state p 0 ≠ 4 → Raised t P.dpt 13) ∧ SameBytes s t)

/-! Plumb, Keystone, Safelight (chapters 18 to 20). -/

/-- Plumb: a good sample is what its sensor shows, one at 121 °C engages the clamp and one at 130 °C the trip; a bad one marks its sensor failed; the
clamp is released when every sensor has cooled; a period begins; a plan is accepted or abandoned. -/
def Obligations.SensorsAndPlans : Prop :=
  ∀ s : State,
    (∀ i v, i < 24 → s.flt.heat = none → -320 ≤ v → v ≤ 1200 → rb s R.PLB_SENSOR_FAIL i = false → Runs (.sensorSample i v true) s fun t =>
        tempOf t i = v ∧ (968 ≤ v → rb t R.PLB_STATUS 8 = true) ∧ (1040 ≤ v → rb t R.PLB_STATUS 9 = true ∧ rb t R.PLB_STATUS 8 = true) ∧ SameBytes s t)
      ∧ (∀ i v, i < 24 → rb s R.PLB_SENSOR_FAIL i = false → Runs (.sensorSample i v false) s fun t =>
        rb t R.PLB_SENSOR_FAIL i = true ∧ Raised t P.plb 0 ∧ SameBytes s t)
      ∧ (rb s R.PLB_STATUS 9 = false → hottest s (List.range 24) ≤ 928 → Runs .clampRelease s fun t => rb t R.PLB_STATUS 8 = false ∧ Frame s t [P.plb, P.mtr])
      ∧ (rb s R.PLB_STATUS 9 = true → Gives .clampRelease s s)
      ∧ (∀ uj, s.plb.opened = true → Runs (.periodBoundary uj) s fun t => rd t R.PLB_PERIOD = rd s R.PLB_PERIOD + 1 ∧ t.plb.plan = none)
      ∧ (∀ us iter x id p, us < 2000 → s.plb.solving = some id → s.plb.prog = some p → Runs (.planAccept us iter x) s fun t =>
        t.plb.plan = some (planPower p x) ∧ t.plb.solving = none ∧ t.plb.degraded = false ∧ SameBytes s t)
      ∧ (∀ us iter st id, s.plb.solving = some id → Runs (.planAbandon us iter st) s fun t =>
        t.plb.plan = none ∧ t.plb.solving = none ∧ t.plb.degraded = true ∧ Raised t P.plb 8 ∧ Raised t P.plb 0 ∧ SameBytes s t)

/-- Keystone: an idle engine takes Plumb's command, with a factorisation where context 3 holds no factor, or starts a SOLVE of a holder; a RELEASE of its
owner discards the context; a factorisation ends with the factor or with FACTOR_FAILED; a segment end counts an iteration of Plumb's command and keeps the command, or performs an iteration of a holder's. -/
def Obligations.KeystoneSegments : Prop :=
  ∀ (s : State) (host : List Cpl) (us stall uj : Nat),
    (∀ c, s.key.cur = none → accepts s P.key = true → keyChoose s = some c → c.st = 0 →
      (c.issuer = .hw → Runs (.keySolve host) s fun t => t.key.cur = some { c with st := if (keyCtx s 3).factored then 2 else 1, tStart := tbNs s } ∧ SameBytes s t)
        ∧ (let u := keyStart (keyRun (wake (withHost s host) 30) c) c
          c.issuer ≠ .hw → field c.block 0 1 ≠ 2 → Unheld u → Gives (.keySolve host) s (given s u)))
      ∧ (∀ c, s.key.cur = none → accepts s P.key = true → keyChoose s = some c → c.st = 0 → c.issuer ≠ .hw → field c.block 0 1 = 2 → c.bad = false →
        keyBlockOk c.block = true → keyOwner s c = true → c.ctx < s.key.ctx.length →
        Runs .keyRelease s fun t => keyCtx t c.ctx = {} ∧ t.key.cur = none ∧ c ∉ t.key.held ∧ SameBytes s t)
      ∧ (∀ c, islandRuns s 30 = true → s.key.cur = some c → c.st = 1 → c.stop = false → c.ctx < s.key.ctx.length →
        (c.issuer = .hw → Runs (.keySetup us stall uj) s fun t => (keyCtx t c.ctx).factored = true ∧ SameBytes s t)
          ∧ (∀ k, c.issuer ≠ .hw → factorise (keyCtx s c.ctx) = some k → Runs (.keySetup us stall uj) s fun t => keyCtx t c.ctx = k ∧ SameBytes s t)
          ∧ (c.issuer ≠ .hw → factorise (keyCtx s c.ctx) = none →
            Completes (.keySetup us stall uj) s (keySetup us stall uj (withHost s [])) fun t => (keyCtx t c.ctx).factored = false))
      ∧ (∀ c, islandRuns s 30 = true → s.key.cur = some c → c.st = 2 → c.stop = false →
        (c.issuer = .hw → (∀ d ∈ s.key.held, d.id ≠ c.id) → Runs (.keySegmentEnd us stall uj) s fun t =>
          { c with iter := c.iter + 1 } ∈ t.key.cur.toList ++ t.key.held ∧ SameBytes s t)
          ∧ (c.issuer ≠ .hw → c.ctx < s.key.ctx.length →
            Completes (.keySegmentEnd us stall uj) s (keySegmentEnd us stall uj (withHost s [])) fun t => keyCtx t c.ctx = iterate (keyCtx s c.ctx)))

/-- The row of a Safelight opcode (20 R626). -/
def Sys2Proof.Claims.sflInstr (op : Nat) (host : List Cpl) : Option Instr :=
  match op with
  | 0x01 => some (.loadBasis host)
  | 0x02 => some (.loadModulus host)
  | 0x10 => some (.sflMul host)
  | 0x11 => some (.sflAdd host)
  | 0x12 => some (.sflSub host)
  | 0x13 => some (.muladd host)
  | 0x14 => some (.mask host)
  | 0x18 => some (.ntt host)
  | 0x19 => some (.intt host)
  | 0x1A => some (.auto host)
  | 0x1B => some (.baseExt host)
  | 0x20 => some (.lmul host)
  | 0x21 => some (.ladd host)
  | 0x30 => some (.vaultImport host)
  | _ => none

/-- Safelight: the row of an opcode performs the next operation of the chosen command of that opcode, which then is the command in operation; a check
that fails completes the command; another opcode's row changes nothing; VAULT_CLEAR empties its slot; an operation's end completes the command or lets it
wait for its next. -/
def Obligations.SafelightOperations : Prop :=
  ∀ (s : State) (op : Nat) (host : List Cpl) (i : Instr) (c : SflCmd), s.sfl.cur = none → accepts s P.sfl = true → sflChoose s = some c → c.bad = 0 →
    let p := wake (withHost s host) 31
    (sflInstr op host = some i → c.op ≠ op → Gives i s s)
      ∧ (sflInstr op host = some i → c.op = op → ∀ t, sflChecks p c = some t → Gives i s (given s t))
      ∧ (sflInstr op host = some i → c.op = op → sflChecks p c = none →
        let d := if c.started then c else { c with started := true, tStart := tbNs s }
        let r := sflOperation (sflRun p d) d
        r.stop = none → Unheld r.s → Runs i s fun t => t.sfl.cur = some r.c ∧ SameBytes r.s t)
      ∧ (host = [] → c.op = 0x31 → sflChecks p c = none → c.vslot < s.sfl.vault.length → Runs .vaultClear s fun t =>
        vaultOf t c.vslot = {} ∧ (∃ d, t.sfl.cur = some d ∧ d.id = c.id ∧ d.ops = c.ops + 1) ∧ SameBytes s t)
      ∧ (∀ us stall uj, islandRuns s 31 = true → c.poison = none → c.stop = false → c.ops < sflTotal s c →
        Runs (.sflOperationEnd us stall uj) { s with sfl := { s.sfl with cur := some c, held := [] } } fun t => t.sfl.cur = none ∧ SameBytes s t)

/-- The reduction of R624 takes the two divisions and the two subtractions of its formula, and for every modulus and every value in its range it gives
x mod m, which lies below the modulus. -/
def Obligations.BarrettReductionIsRemainder : Prop :=
  ∀ m x : Nat, 0 < m → x < 2 ^ (2 * bitLen m + 4) →
    let k := bitLen m
    let t := x / 2 ^ (k - 1) * (2 ^ (2 * k + 4) / m) / 2 ^ (k + 5)
    let r := x - t * m
    let r1 := if r ≥ m then r - m else r
    let r2 := if r1 ≥ m then r1 - m else r1
    barrett m x = r2 ∧ r2 = x % m ∧ t * m ≤ x

/-! Audio (chapter 21). -/

/-- Microphone blocks, the lock of the host's audio, the alert queue, the output frame and the amplifier. -/
def Obligations.AudioPath : Prop :=
  ∀ s : State,
    (∀ times ts, accepts s P.aud = true → rb s R.AUD_MIC_CFG 0 = true → rb s R.ESL_AUDIO_CFG 6 = true →
        Completes (.micBlock times ts) s (micBlock times ts (withHost s [])) fun t => ∃ n st, t.aud.handoff = s.aud.handoff ++ [(n, ts, st)])
      ∧ (∀ n ts st rest, s.aud.handoff = (n, ts, st) :: rest → writeStops s (historyAddr s s.esl.blocks n) n = false → Runs .micBlockHandoff s fun t =>
        t.aud.handoff = rest ∧ t.esl.blocks = s.esl.blocks + 1 ∧ rd t R.AUD_BLOCK = BitVec.ofNat 32 n
          ∧ Frame s { t with aud := s.aud, esl := s.esl } [P.aud, P.esl])
      ∧ (∀ m, m < 16 → rb s R.AUD_MIC_CFG (16 + m) = true → rb s R.AUD_MIC_STATUS m = false → Runs (.micStuck m) s fun t =>
        rb t R.AUD_MIC_STATUS m = true ∧ Raised t P.aud 12 ∧ Raised t P.aud 0 ∧ Frame s t [P.aud])
      ∧ (∀ m, m < 16 → Runs (.micStuckClear m) s fun t => rb t R.AUD_MIC_STATUS m = false ∧ Frame s t [P.aud])
      ∧ (∀ ppm, rb s R.AUD_TDM_IN_STATUS 0 = true → Runs (.tdmInLost ppm) s fun t => rb t R.AUD_TDM_IN_STATUS 0 = false ∧ Raised t P.aud 11
          ∧ Frame s t [P.aud])
      ∧ (∀ ppm, rb s R.AUD_TDM_IN_STATUS 0 = false → Runs (.tdmInRelock ppm) s fun t =>
        rb t R.AUD_TDM_IN_STATUS 0 = true ∧ t.aud.ramp = rf s R.AUD_DUCK_TIME 23 8 * 48
          ∧ Frame s { t with aud := s.aud } [P.aud])
      ∧ (∀ meet host,
        let r := popFrom (wake (withHost s host) 38) (engineVia 38) 1 (rf s R.AUD_ALERT_CFG 15 0) meet
        accepts s P.aud = true → rf s R.AUD_ALERT_CFG 15 0 ≠ 0xFFFF → (r.2.1 = HS.ok ∨ r.2.1 = HS.poison) → Unheld r.1 →
        Runs (.alertEntryPop meet host) s fun t => t.aud.popped = s.aud.popped ++ [(r.2.2.data, decide (r.2.1 = HS.poison))])
      ∧ (∀ a, s.aud.alert = some a → a.hold = true → Runs .alertHoldExpire s fun t =>
        t.aud.alert = none ∧ t.aud.pattern = 0 ∧ t.aud.fade = some (a.tone, 48) ∧ Frame s { t with aud := s.aud } [])
      ∧ (∀ src, islandRuns s 38 = true → accepts s P.aud = true → Runs (.tdmOutFrame src) s fun t =>
        t.aud.popped = [] ∧ t.aud.out.length = 2 ∧ (∀ v ∈ t.aud.out, -(2 ^ 23) ≤ v ∧ v ≤ 2 ^ 23 - 1)
          ∧ Frame (wake s 38) { t with aud := s.aud, drawn := s.drawn } [P.aud])
      ∧ (∀ src, islandRuns s 38 = true → accepts s P.aud = false → Runs (.tdmOutFrame src) s fun t => t.aud.out = [0, 0] ∧ t.aud.haptic = false
          ∧ Frame (wake s 38) { t with aud := s.aud } [])
      ∧ (∀ c cls good, c < 2 → s.aud.amps.length = 2 →
        ((ampOf s c).st = 0 → Runs (.ampLatch c cls) s fun t => ampOf t c = { st := 1, cls := cls % 8, tries := 0 }
            ∧ Frame s { t with aud := s.aud } [])
          ∧ ((ampOf s c).st = 0 → cls % 8 ≠ 0 → Runs (.ampIdlePulse c cls) s fun t => ampOf t c = { st := 1, cls := cls % 8, tries := 0 }
            ∧ Frame s { t with aud := s.aud } [])
          ∧ ((ampOf s c).st = 0 → cls % 8 = 0 → Gives (.ampIdlePulse c cls) s s)
          ∧ ((ampOf s c).st = 1 ∨ (ampOf s c).st = 2 → Runs (.ampRetry c good cls) s fun t =>
              (good = true → (ampOf t c).st = 0) ∧ (good = false → (ampOf t c).st = if (ampOf s c).tries + 1 ≥ 8 then 3 else 1)
                ∧ (ampOf t c).tries = (ampOf s c).tries + 1 ∧ Frame s { t with aud := s.aud } []))
      ∧ (∀ c w, c < 2 → islandRuns s 38 = true → Runs (.ampDiagWrite c w) s fun t =>
        rf t (R.AUD_AMP_DIAG c) 1 0 = w.toNat % 4 ∧ rf t (R.AUD_AMP_DIAG c) 6 4 = bits w.toNat 6 4 ∧ rf t (R.AUD_AMP_DIAG c) 11 8 = bits w.toNat 11 8
          ∧ (ampOk s c = true → w.toNat % 4 ≠ 0 → Raised t P.aud 9 ∧ Raised t P.aud 0) ∧ SameBytes s t)

/-! Seam, Contact Sheet, FLT (chapters 22 to 24). -/

/-- A change set is checked, voted on, committed under the next epoch, or aborted; the recorder takes, stamps and writes occurrences in their order, and
copies its ring; FLT takes the messages on their way. -/
def Obligations.SeamRecorderAndFlt : Prop :=
  ∀ s : State,
    (seamState s = 1 → seamFailure s = none → Runs .seamCheckDone s fun t => seamState t = 2 ∧ Frame s t [P.seam])
      ∧ (∀ e, seamState s = 1 → seamFailure s = some e → Runs .seamCheckDone s fun t => seamState t = 0 ∧ Raised t P.seam 9 ∧ SameBytes s t)
      ∧ (seamState s = 2 → (votes (seamMembers s) s).2 = [] → Runs .seamVotesDone s fun t => seamState t = 3)
      ∧ (mayCommit s = true → Runs .seamCommit s fun t => seamState t = 0 ∧ rf t R.SEAM_EPOCH_NOW 15 0 = nextEpoch s ∧ Raised t P.seam 8)
      ∧ (mayCommit s = false → Gives .seamCommit s s)
      ∧ (seamState s ≠ 0 → mayCommit s = false → Runs .seamTimeout s fun t => seamState t = 0 ∧ Raised t P.seam 9 ∧ SameBytes s t)
      ∧ (seamState s = 0 → Gives .seamTimeout s s)
      ∧ (∀ n, s.boot.held = false → cshHeld s + n ≤ 64 → Runs (.cshOccurrence n) s fun t =>
        t.toCsh = s.toCsh.drop n ∧ t.csh.arrived.length = s.csh.arrived.length + min n s.toCsh.length ∧ SameBytes s t)
      ∧ (∀ o rest, s.csh.arrived = o :: rest → Runs .cshAccept s fun t =>
        t.csh.arrived = rest ∧ (∃ a, t.csh.fifo = s.csh.fifo ++ [a] ∧ a.occ = o ∧ a.ts = tbNs s ∧ a.written = false)
          ∧ Frame s { t with csh := s.csh } [])
      ∧ (∀ a rest, s.csh.fifo = a :: rest → a.written = false → (cshEntry s (cshSlot s.csh.seq)).length = 32 → Runs .cshRecordWrite s fun t =>
        cshEntry t (cshSlot s.csh.seq) = occurrenceBytes s a ∧ t.csh.seq = (s.csh.seq + 1) % 2 ^ 32 ∧ t.csh.lost = false
          ∧ Frame s { t with csh := s.csh } [])
      ∧ (∀ a rest x xs, s.csh.fifo = a :: rest → a.triggers = x :: xs → a.written = true → Runs .cshSnapshot s fun t =>
        t.csh.fifo = (if xs = [] then rest else { a with triggers := xs } :: rest) ∧ SameBytes s t)
      ∧ (rb s R.CSH_CTRL 0 = false → Gives .cshExtCopy s s)
      ∧ (let n := (rd s R.CSH_EXT_SEQ).toNat
        let a := (extRange s).1 + 32 * (n % (2048 * rf s R.CSH_EXT_SIZE 9 0))
        let w := copyWrites (bump (withHost s []) R.CSH_EXT_SKIPPED 31 0 0) a (cshEntry s (cshSlot n)) (s.csh.bad.contains (cshSlot n / 2))
        rb s R.CSH_CTRL 0 = true → s.csh.seq = (n + 1) % 2 ^ 32 → Unheld w.1 →
        (w.2 = MS.ok → Runs .cshExtCopy s fun t => rd t R.CSH_EXT_SEQ = rd s R.CSH_EXT_SEQ + 1)
          ∧ (w.2 ≠ MS.ok → Runs .cshExtCopy s fun t => rb t R.CSH_CTRL 0 = false ∧ Raised t P.csh 9))
      ∧ (∀ pg b rest, s.toFlt = .event pg b :: rest → Runs (.fltFaultArrive 1) s fun t =>
        t.toFlt = rest ∧ rf t R.FLT_EVT_COUNT 31 0 = min (2 ^ 32 - 1) (rf s R.FLT_EVT_COUNT 31 0 + 1) ∧ SameBytes s t)
      ∧ (∀ n rest, s.toFlt = .stall n :: rest → slotSentinel s n = true → Runs (.fltFaultArrive 1) s fun t => rb t R.FLT_SAFE_STATUS 2 = true ∧ SameBytes s t)
      ∧ (rf s R.FLT_INJ_STATUS 1 0 = 1 → Runs .injectionExpire s fun t => rf t R.FLT_INJ_STATUS 1 0 = 3 ∧ Frame s t [P.flt])

/-! Boot (chapter 4). -/

/-- The supply, resets and the phases of a boot: each step ends in the next phase, or in the service or the recovery state; flash and OTP operations end
with their event. -/
def Obligations.BootSequence : Prop :=
  ∀ (s : State) (glitch : List Bool),
    (s.boot.powered = false → Runs .supplyRamp s fun t => t.boot.powered = true ∧ t.boot.held = true ∧ t.mem = [] ∧ t.boot.otp = s.boot.otp)
      ∧ (s.boot.powered = true → s.boot.held = false → Runs .brownout s fun t =>
        t.boot.held = true ∧ t.boot.cause = 1 ∧ t.mem = [] ∧ t.boot.flash = s.boot.flash ∧ t.csh.ring = [])
      ∧ (∀ torn, s.boot.powered = true → Runs (.pinReset torn) s fun t =>
        t.boot.held = true ∧ t.boot.cause = 2 ∧ t.mem = [] ∧ t.csh.ring = (tornWrite s torn).csh.ring ∧ rd t R.FLT_SAFE_SEEN = rd s R.FLT_SAFE_SEEN)
      ∧ (∀ mv us, s.boot.held = false → 10 ≤ us → 1620 ≤ mv → mv < 1710 → Runs (.supplyLow mv us) s fun t => Raised t P.aon 0 ∧ SameBytes s t)
      ∧ (s.boot.powered = true → s.boot.held = true → s.boot.cause < 32 → s.isl.length = 39 → Runs .resetRelease s fun t =>
        t.boot.held = false ∧ t.boot.strap = s.jione.service ∧ rb t R.BOOT_RESET_CAUSE s.boot.cause = true ∧ (island t 1).st = .on
          ∧ ∃ o, t.csh.arrived = o :: s.csh.arrived ∧ o.code = 0xC001)
      ∧ (s.boot.held = false →
        (phase s = 1 → s.boot.otp.lifecycle ≠ 0 →
            let k := selectSlot (wb s R.BOOT_SLOTS 5 (dirGovern s).isNone) 0 glitch
            (k.got = none → Runs (.imageSelect glitch) s fun t => phase t = 9 ∧ Raised t P.boot 8)
              ∧ (∀ ab, k.got = some ab → Runs (.imageSelect glitch) s fun t =>
                  phase t = (if k.s.boot.strap then 8 else 2) ∧ ∃ m, t.boot.image = some m ∧ m.slot = ab))
          ∧ (phase s = 2 → Runs (.manifestCheck glitch) s fun t =>
              if (selectSlot s 1 glitch).got = none then phase t = 8 ∧ Raised t P.boot 8 else phase t = 3 ∨ (phase t = 8 ∧ Raised t P.boot 8))
          ∧ (phase s = 3 → Runs .islandBringup s fun t => phase t = 4 ∧ rb t (hdr P.aon 0x1C) 0 = true)
          ∧ (∀ trains bist drfm rfm, phase s = 4 → Runs (.dramTraining trains bist drfm rfm) s fun t => phase t = 5 ∨ (phase t = 8 ∧ Raised t P.boot 8))
          ∧ (phase s = 5 → Runs .localModelHash s fun t => phase t = 6 ∨ (phase t = 8 ∧ Raised t P.boot 8))
          ∧ (phase s = 6 → Runs .bootEnable s fun t => phase t = 7 ∨ (phase t = 8 ∧ Raised t P.boot 8))
          ∧ (phase s = 7 → nextEpoch s = 2 → Runs .streamEnable s fun t => phase t = 7 ∧
              ∀ i, i < (entries s.boot.man 1).length → sOn (entryOf s.boot.man 1 i) = true → (declOf t (streamSource s.boot.man i)).en = true)
          ∧ (s.boot.dirOp = true → Runs .directoryWriteDone s fun t => t.boot.dirOp = false ∧ Raised t P.boot 10 ∧ SameBytes s t))
      ∧ (∀ e, s.boot.op = some e → (Runs .flashDone s fun t => t.boot.op = none ∧ Raised t P.boot 10 ∧ SameBytes s t)
        ∧ Runs .flashTimeout s fun t => t.boot.op = none ∧ Raised t P.boot 10 ∧ Raised t P.boot 0 ∧ SameBytes s t)
      ∧ (∀ cmd arg, s.boot.otpOp = some (cmd, arg) → Runs .otpDone s fun t =>
        t.boot.otpOp = none ∧ Raised t P.boot 11 ∧ SameBytes s t
          ∧ (cmd = 1 → t.boot.otp.rollback = max s.boot.otp.rollback ((s.boot.image.map (·.sec)).getD 0))
          ∧ (cmd = 2 → t.boot.otp.revoked = s.boot.otp.revoked ||| 2 ^ arg) ∧ (cmd = 3 → t.boot.otp.lifecycle = 3))

/-! The module and its ports (chapters 25 and 26). -/

/-- The module's supply and supervision: every shutdown leaves the module in STANDBY with the die unpowered; a start brings the rails up; a trip is
counted and waits; a lost host, a lockstep mismatch and the safety sample are noted; the ledger reaches the boot. -/
def Obligations.ModuleSupervision : Prop :=
  ∀ s : State,
    (∀ mv ma, -16000 ≤ mv → mv ≤ 18000 → Runs (.vinChange mv ma) s fun t => t.jione.mv = mv ∧ t.jione.ma = ma ∧ (mv < 6000 → modOn t = false))
      ∧ (modOn s = true → vinFull s = false → Runs .vinRangeTimeout s fun t => modOn t = false)
      ∧ (∀ why, Runs (.orderlyShutdown why) s fun t => modOn t = false ∧ (modOn s = true → t.mem = []))
      ∧ (Runs .railFault s fun t => modOn t = false)
      ∧ (Runs .wakeTimeout s fun t => modOn t = false ∧ t.jione.wake = false)
      ∧ (mayStart s = true → Runs (.moduleStart false) s fun t => t.jione.rails = true ∧ t.jione.service = false)
      ∧ (∀ n : W32, s.jione.st ≠ 0 → n.toNat ≠ s.jione.beat → Runs (.heartbeat n) s fun t => t.jione.beat = n.toNat ∧ t.jione.beaten = true)
      ∧ (fypOn s = true → s.jione.linked = true → s.pci.speed = 0 → Runs (.hostLost .link) s fun t => t.jione.lost = true)
      ∧ (fypOn s = true → s.jione.mismatches = 0 → Runs .lockstepMismatch s fun t => t.jione.resetting = true ∧ t.jione.mismatches = 1 ∧ t.jione.moving = true)
      ∧ (fypOn s = true → 1 ≤ s.jione.mismatches → Runs .lockstepMismatch s fun t => modOn t = false ∧ t.jione.stay = true)
      ∧ (s.jione.resetting = true → Runs .lockstepResetDone s fun t => t.jione.resetting = false)
      ∧ (modOn s = true → Runs .thermalTripOff s fun t =>
        modOn t = false ∧ t.jione.tripWait = true ∧ t.jione.trips = min 255 (s.jione.trips + 1) ∧ (2 ≤ s.jione.trips → t.jione.stay = true))
      ∧ (s.jione.tripWait = true → s.jione.stay = false → s.jione.cold < 680 → Runs .tripRestart s fun t => t.jione.tripWait = false)
      ∧ (fypOn s = true → s.jione.resetting = false → dieUp s = true → Runs .fypSafetySample s fun t =>
        t.jione.sampled = rf s R.FLT_SAFE_STATUS 12 0 + b2n (faultLow s) * 2 ^ 13)
      ∧ (dieUp s = true → phase s = 7 → rb s R.FLT_SAFE_STATUS 9 = true → s.jione.resetting = false → s.jione.fabRestarts < 2 →
        Runs .fabLost s fun t => t.jione.fabRestarts = s.jione.fabRestarts + 1)
      ∧ (∀ cold reg, dieUp s = true → fypOn s = true → s.jione.resetting = false → (phase s = 6 ∨ phase s = 7) →
        Gives (.coolantUpdate cold reg) s
          (pageWrite { s with jione := { s.jione with cold := cold, reg := reg } } .fyp R.PLB_T_COOL 4 (unsx 16 cold)).1)
      ∧ (∀ cold reg, dieUp s = false → Gives (.coolantUpdate cold reg) s { s with jione := { s.jione with cold := cold, reg := reg } })
      ∧ (ledgerOpen s = true → fypOn s = true → s.jione.resetting = false → Runs .ledgerDeliver s fun t => phase t = 1 ∧ t.boot.ledgerIn = true)
      ∧ (ledgerOpen s = true → Runs .ledgerTimeout s fun t => phase t = 1 ∧ t.boot.ledgerIn = true ∧ t.boot.ledger = List.replicate 2048 0)
      ∧ (dieUp s = true → (∀ n, n < 8 → rb s (R.ASH_CLASS n) 5 = false) → Gives .ledgerUpdate s s)
      ∧ (∀ n, dieUp s = true → fypOn s = true → n < 8 → rb s (R.ASH_CLASS n) 5 = true →
        let fuses := (List.range 32).flatMap fun i => leBytes 64 (nth s.boot.otp.fuses i 0)
        let new := (List.range 2048).map fun i => nth (fypBitmap s) i 0 ||| (nth s.boot.ledger i 0 &&& ~~~ (nth fuses i 0))
        (columnCount new ≠ columnCount (fypBitmap s) →
            Gives .ledgerUpdate s (fypRecord (writeLedger s new) 0xD105 [columnCount new - columnCount (fypBitmap s)]))
          ∧ (columnCount new = columnCount (fypBitmap s) → Gives .ledgerUpdate s s))

/-- The mailbox and the CAN frames: a command with a wrong key is answered KEY and does nothing; an accepted one does what it names; frames go out with
their identifiers and their alive counters; VEHICLE says whether the vehicle moves. -/
def Obligations.MailboxAndFrames : Prop :=
  ∀ (s : State) (key : Nat) (wake : Bool), s.jione.st ≠ 0 →
    (∀ i, key % 65536 ≠ 0xA55A →
      (i = .restart key wake ∨ i = .serviceBoot key wake ∨ i = .shutdown key wake ∨ i = .ledgerClear key wake ∨ i = .canSet key wake) →
      Gives i s { s with jione := { s.jione with result := 2, done := true } })
      ∧ (key % 65536 = 0xA55A → wake = true → s.jione.moving = false →
        (Runs (.shutdown key wake) s fun t => modOn t = false ∧ t.jione.stay = true ∧ t.jione.result = 0 ∧ t.jione.done = true)
          ∧ (mayStart (shutDown s .command) = true →
            (Runs (.restart key wake) s fun t => t.jione.rails = true ∧ t.jione.service = false ∧ t.jione.result = 0)
              ∧ Runs (.serviceBoot key wake) s fun t => t.jione.rails = true ∧ t.jione.service = true ∧ t.jione.result = 0))
      ∧ (key % 65536 = 0xA55A → wake = true → s.jione.moving = true → ∀ i, (i = .restart key wake ∨ i = .serviceBoot key wake ∨ i = .shutdown key wake) →
        Gives i s { s with jione := { s.jione with result := 3, done := true } })
      ∧ (key % 65536 = 0xA55A → wake = true → Runs (.canSet key wake) s fun t =>
        t.jione.canBase = s.jione.arg % 2048 ∧ t.jione.canEn = bit s.jione.arg 16 ∧ t.jione.result = 0
          ∧ Frame s { t with jione := s.jione } [])
      ∧ (key % 65536 = 0xA55A → wake = true → dieUp s = true → phase s = 8 → Runs (.ledgerClear key wake) s fun t => t.jione.emptyLedger = true ∧ t.jione.result = 0)
      ∧ (∀ d : List Byte, d.length = 4 → (Runs (.mailboxWrite 0x14 d) s fun t => t.jione.evtEn = ofLe d % 32 ∧ Frame s { t with jione := s.jione } [])
        ∧ Runs (.mailboxWrite 0x24 d) s fun t => t.jione.arg = ofLe d ∧ Frame s { t with jione := s.jione } [])
      ∧ (∀ a, s.aud.alert = some a → fypOn s = true → s.jione.resetting = false → s.jione.canEn = true → Runs .alertFrame s fun t =>
        t.jione.playing = true ∧ ∃ b, t.jione.frames = (s.jione.canBase, b) :: s.jione.frames ∧ b.length = 8)
      ∧ (s.boot.powered = true → fypOn s = true → s.jione.resetting = false → s.jione.canEn = true → Runs .statusFrame s fun t =>
        ∃ b, t.jione.frames = (s.jione.canBase + 1, b) :: s.jione.frames ∧ b.length = 8)
      ∧ (persisting s ≠ 0 → Runs .degradedFrame s fun t => t.jione.degraded = persisting s % 256)
      ∧ (persisting s = 0 → Runs .degradedFrame s fun t => t.jione.degraded = 0)
      ∧ (∀ d : List Byte, fypOn s = true → s.jione.resetting = false → d.length = 8 → crc8 0x1D 0xFF (d.take 7) = field d 7 1 →
        s.jione.heard ≠ some (field d 6 1 % 16) → Runs (.vehicle d) s fun t =>
          t.jione.heard = some (field d 6 1 % 16) ∧ t.jione.moving = bit (field d 0 1) 0 ∧ Frame s { t with jione := s.jione } [])
      ∧ (Runs .vehicleTimeout s fun t => t.jione.moving = true ∧ Frame s { t with jione := s.jione } [])

/-- The test access port, the management port and the holdover of the time base. -/
def Obligations.PortsAndHoldover : Prop :=
  ∀ s : State,
    (s.boot.powered = true →
      (∀ data pins, Gives (.extest data pins) s { s with tap := { ir := 0, shift := pins % 2 ^ 1764, latch := data % 2 ^ 1764, drives := true } })
        ∧ (∀ data pins, Gives (.samplePreload data pins) s
            { s with tap := { ir := 1, shift := pins % 2 ^ 1764, latch := data % 2 ^ 1764, drives := false } })
        ∧ (Runs .idcode s fun t => t.tap.ir = 2 ∧ t.tap.shift = 0x1009656B ∧ t.tap.drives = false ∧ t.tap.latch = s.tap.latch
          ∧ Frame s { t with tap := s.tap } [])
        ∧ (Runs .bypass s fun t => t.tap.ir = 0xFF ∧ t.tap.shift = 0 ∧ t.tap.drives = false ∧ t.tap.latch = s.tap.latch
          ∧ Frame s { t with tap := s.tap } [])
        ∧ (Runs .tapReset s fun t => t.tap.ir = 2 ∧ t.tap.drives = false ∧ Frame s { t with tap := s.tap } []))
      ∧ (s.boot.powered = false → ∀ data pins, Gives (.extest data pins) s s)
      ∧ (dieUp s = false → ∀ a d words, Gives (.mgmtWrite a d) s s ∧ Gives (.mgmtRead a words) s s)
      ∧ (∀ a (d : List Byte), dieUp s = true → 0x100000 ≤ a → a < 0x1007FC → d.length = 4 →
        (Runs (.mgmtWrite a d) s fun t =>
            t.boot.ledger = (putBytes s.boot.ledger (a - 0x100000) (leBytes 4 (ofLe d))).take 2048 ∧ rd t R.BOOT_PHASE = rd s R.BOOT_PHASE
            ∧ Frame s { t with boot := s.boot } [])
          ∧ (Runs (.mgmtRead a 1) s fun t => t.readData = padTo 4 ((s.boot.ledger.drop (a - 0x100000)).take 4) ∧ SameBytes s t))
      ∧ (∀ (d : List Byte), dieUp s = true → ledgerOpen s = true → d.length = 4 → Runs (.mgmtWrite 0x1007FC d) s fun t =>
        phase t = 1 ∧ t.boot.ledgerIn = true ∧ t.boot.ledger = (putBytes s.boot.ledger 0x7FC (leBytes 4 (ofLe d))).take 2048)
      ∧ (∀ a (d : List Byte), dieUp s = true → a < 0x40000 → d.length = 4 →
        let u := (pageWrite (withHost s []) .fyp a 4 (ofLe d)).1
        let r := pageRead s .fyp a 4
        (Unheld u → Gives (.mgmtWrite a d) s (given s u)) ∧ Gives (.mgmtRead a 1) s { r.1 with readData := r.2.2 })
      ∧ (s.tb.state = 1 → Runs .tbHoldover s fun t => t.tb.state = 2 ∧ Raised t P.aon 11 ∧ Frame s { t with tb := s.tb } [P.aon])
      ∧ (s.tb.state ≠ 1 → Gives .tbHoldover s s)
end

