-- ==== Sys2Proof/Laws/Memory.lean ====
section
/-!
SUPPORT. Laws/Memory.lean: sparse maps: a read after a write, and the canonical form that every memory operation keeps.
-/
namespace Sys2Proof.Laws
open Sys2Proof Sys2Proof.Machine

variable {α : Type}

/-- Every key of a map exceeds a bound. -/
def Above (m : SMap α) (k : Nat) : Prop := ∀ e ∈ m, k < e.1

theorem SMap.sorted_cons {j : Nat} {v : α} {m : SMap α} : SMap.sorted ((j, v) :: m) = true ↔ Above m j ∧ SMap.sorted m = true := by
  induction m generalizing j v with
  | nil => simp [SMap.sorted, Above]
  | cons e m ih =>
    obtain ⟨k, w⟩ := e
    simp only [SMap.sorted, Bool.and_eq_true, decide_eq_true_eq]
    constructor
    · rintro ⟨hjk, hm⟩
      refine ⟨fun e he => ?_, hm⟩
      rcases List.mem_cons.1 he with rfl | he
      · exact hjk
      · exact Nat.lt_trans hjk ((ih.1 hm).1 e he)
    · rintro ⟨ha, hm⟩
      exact ⟨ha (k, w) (List.mem_cons_self), hm⟩

theorem SMap.above_set {m : SMap α} {b k : Nat} {v : α} (h : Above m b) (hk : b < k) : Above (SMap.set m k v) b := by
  induction m with
  | nil => intro e he; simp [SMap.set] at he; subst he; exact hk
  | cons e m ih =>
    obtain ⟨j, w⟩ := e
    have hj : b < j := h (j, w) List.mem_cons_self
    have hm : Above m b := fun e he => h e (List.mem_cons_of_mem _ he)
    unfold SMap.set
    split
    · intro e he
      rcases List.mem_cons.1 he with rfl | he
      · exact hk
      · exact h e he
    · split
      · intro e he
        rcases List.mem_cons.1 he with rfl | he
        · exact hk
        · exact hm e he
      · intro e he
        rcases List.mem_cons.1 he with rfl | he
        · exact hj
        · exact ih hm e he

theorem SMap.sorted_set {m : SMap α} {k : Nat} {v : α} (h : SMap.sorted m = true) : SMap.sorted (SMap.set m k v) = true := by
  induction m with
  | nil => rfl
  | cons e m ih =>
    obtain ⟨j, w⟩ := e
    obtain ⟨ha, hm⟩ := SMap.sorted_cons.1 h
    unfold SMap.set
    split
    · rename_i hkj
      refine SMap.sorted_cons.2 ⟨fun e he => ?_, h⟩
      rcases List.mem_cons.1 he with rfl | he
      · exact hkj
      · exact Nat.lt_trans hkj (ha e he)
    · split
      · rename_i hkj; subst hkj; exact SMap.sorted_cons.2 ⟨ha, hm⟩
      · exact SMap.sorted_cons.2 ⟨SMap.above_set ha (by omega), ih hm⟩

theorem SMap.sorted_filter {m : SMap α} {p : Nat × α → Bool} (h : SMap.sorted m = true) : SMap.sorted (m.filter p) = true := by
  induction m with
  | nil => rfl
  | cons e m ih =>
    obtain ⟨j, w⟩ := e
    obtain ⟨ha, hm⟩ := SMap.sorted_cons.1 h
    rw [List.filter_cons]
    split
    · exact SMap.sorted_cons.2 ⟨fun e he => ha e (List.mem_filter.1 he).1, ih hm⟩
    · exact ih hm

theorem SMap.mem_del {m : SMap α} {k : Nat} {e : Nat × α} (h : e ∈ SMap.del m k) : e ∈ m := (List.mem_filter.1 h).1

theorem SMap.sorted_del {m : SMap α} {k : Nat} (h : SMap.sorted m = true) : SMap.sorted (SMap.del m k) = true := SMap.sorted_filter h

theorem SMap.mem_set {m : SMap α} {k : Nat} {v : α} {e : Nat × α} (h : e ∈ SMap.set m k v) : e = (k, v) ∨ e ∈ m := by
  induction m with
  | nil => left; simpa [SMap.set] using h
  | cons f m ih =>
    obtain ⟨j, w⟩ := f
    unfold SMap.set at h
    split at h
    · rcases List.mem_cons.1 h with rfl | h
      · exact .inl rfl
      · exact .inr h
    · split at h
      · rcases List.mem_cons.1 h with rfl | h
        · exact .inl rfl
        · exact .inr (List.mem_cons_of_mem _ h)
      · rcases List.mem_cons.1 h with rfl | h
        · exact .inr List.mem_cons_self
        · rcases ih h with h | h
          · exact .inl h
          · exact .inr (List.mem_cons_of_mem _ h)

/-- Reading the key that was written. -/
theorem SMap.get_set_self {m : SMap α} {k : Nat} {v : α} : SMap.get (SMap.set m k v) k = some v := by
  induction m with
  | nil => simp [SMap.set, SMap.get]
  | cons e m ih =>
    obtain ⟨j, w⟩ := e
    unfold SMap.set
    split
    · simp [SMap.get]
    · split
      · simp [SMap.get]
      · rename_i h; simp [SMap.get, Ne.symm h, ih]

/-- Reading another key. -/
theorem SMap.get_set_ne {m : SMap α} {k i : Nat} {v : α} (h : i ≠ k) : SMap.get (SMap.set m k v) i = SMap.get m i := by
  induction m with
  | nil => simp [SMap.set, SMap.get, Ne.symm h]
  | cons e m ih =>
    obtain ⟨j, w⟩ := e
    unfold SMap.set
    split
    · simp [SMap.get, Ne.symm h]
    · split
      · rename_i hkj; subst hkj; simp [SMap.get, Ne.symm h]
      · simp [SMap.get, ih]

/-- The key that was removed is gone. -/
theorem SMap.get_del_self {m : SMap α} {k : Nat} : SMap.get (SMap.del m k) k = none := by
  unfold SMap.del
  induction m with
  | nil => rfl
  | cons e m ih =>
    obtain ⟨j, w⟩ := e
    rw [List.filter_cons]
    split
    · rename_i hj; rw [SMap.get, if_neg (by simpa using hj)]; exact ih
    · exact ih

theorem SMap.get_del_ne {m : SMap α} {k i : Nat} (h : i ≠ k) : SMap.get (SMap.del m k) i = SMap.get m i := by
  unfold SMap.del
  induction m with
  | nil => rfl
  | cons e m ih =>
    obtain ⟨j, w⟩ := e
    rw [List.filter_cons]
    split
    · simp only [SMap.get, ih]
    · rename_i hj; rw [SMap.get, if_neg (by simp at hj; omega)]; exact ih

/-- A read of the key that `put` wrote. -/
theorem SMap.getD_put_self [DecidableEq α] {m : SMap α} {k : Nat} {v d : α} : SMap.getD (SMap.put m k v d) k d = v := by
  unfold SMap.getD SMap.put
  split
  · rename_i hv; rw [SMap.get_del_self, hv]; rfl
  · rw [SMap.get_set_self]; rfl

/-- A read of another key. -/
theorem SMap.getD_put_ne [DecidableEq α] {m : SMap α} {k i : Nat} {v d e : α} (h : i ≠ k) : SMap.getD (SMap.put m k v d) i e = SMap.getD m i e := by
  unfold SMap.getD SMap.put
  split
  · rw [SMap.get_del_ne h]
  · rw [SMap.get_set_ne h]

theorem Memory.wf_iff {m : List Host.Cell} : Memory.wf m = true ↔ SMap.sorted m = true ∧ ∀ e ∈ m, e.2 ≠ 0 := by
  simp only [Memory.wf, Bool.and_eq_true, List.all_eq_true, decide_eq_true_eq]

/-- A write of one byte keeps the canonical form. -/
theorem Memory.wf_put {m : List Host.Cell} {a : Nat} {b : Byte} (h : Memory.wf m = true) : Memory.wf (SMap.put m a b 0) = true := by
  obtain ⟨hs, hz⟩ := Memory.wf_iff.1 h
  unfold SMap.put
  split
  · exact Memory.wf_iff.2 ⟨SMap.sorted_del hs, fun e he => hz e (SMap.mem_del he)⟩
  · rename_i hb
    refine Memory.wf_iff.2 ⟨SMap.sorted_set hs, fun e he => ?_⟩
    rcases SMap.mem_set he with rfl | he
    · exact hb
    · exact hz e he

/-- Forgetting a part of the memory keeps the canonical form. -/
theorem Memory.wf_filter {m : List Host.Cell} {p : Host.Cell → Bool} (h : Memory.wf m = true) : Memory.wf (m.filter p) = true := by
  obtain ⟨hs, hz⟩ := Memory.wf_iff.1 h
  exact Memory.wf_iff.2 ⟨SMap.sorted_filter hs, fun e he => hz e (List.mem_filter.1 he).1⟩

end Sys2Proof.Laws
end

