-- ==== Sys2Proof/Laws/State.lean ====
section
/-!
SUPPORT. Laws/State.lean: every named update of the state leaves every other field as it was; one lemma per field and update, each true by unfolding.
-/
namespace Sys2Proof.Laws
open Sys2Proof Sys2Proof.Machine

/-! setReg changes regs alone. -/

section
variable (s : State) (off : Nat) (v : W32)
@[simp] theorem setReg_pending : (setReg s off v).pending = s.pending := rfl
@[simp] theorem setReg_clock : (setReg s off v).clock = s.clock := rfl
@[simp] theorem setReg_staged : (setReg s off v).staged = s.staged := rfl
@[simp] theorem setReg_fypSignals : (setReg s off v).fypSignals = s.fypSignals := rfl
@[simp] theorem setReg_toFlt : (setReg s off v).toFlt = s.toFlt := rfl
@[simp] theorem setReg_toCsh : (setReg s off v).toCsh = s.toCsh := rfl
@[simp] theorem setReg_readData : (setReg s off v).readData = s.readData := rfl
@[simp] theorem setReg_readSt : (setReg s off v).readSt = s.readSt := rfl
@[simp] theorem setReg_shown : (setReg s off v).shown = s.shown := rfl
@[simp] theorem setReg_isl : (setReg s off v).isl = s.isl := rfl
@[simp] theorem setReg_mortar : (setReg s off v).mortar = s.mortar := rfl
@[simp] theorem setReg_mem : (setReg s off v).mem = s.mem := rfl
@[simp] theorem setReg_poison : (setReg s off v).poison = s.poison := rfl
@[simp] theorem setReg_eccErr : (setReg s off v).eccErr = s.eccErr := rfl
@[simp] theorem setReg_scrubPos : (setReg s off v).scrubPos = s.scrubPos := rfl
@[simp] theorem setReg_tb : (setReg s off v).tb = s.tb := rfl
@[simp] theorem setReg_drawn : (setReg s off v).drawn = s.drawn := rfl
@[simp] theorem setReg_boot : (setReg s off v).boot = s.boot := rfl
@[simp] theorem setReg_pci : (setReg s off v).pci = s.pci := rfl
@[simp] theorem setReg_dram : (setReg s off v).dram = s.dram := rfl
@[simp] theorem setReg_hod : (setReg s off v).hod = s.hod := rfl
@[simp] theorem setReg_qry : (setReg s off v).qry = s.qry := rfl
@[simp] theorem setReg_ing : (setReg s off v).ing = s.ing := rfl
@[simp] theorem setReg_dev : (setReg s off v).dev = s.dev := rfl
@[simp] theorem setReg_enl : (setReg s off v).enl = s.enl := rfl
@[simp] theorem setReg_esl : (setReg s off v).esl = s.esl := rfl
@[simp] theorem setReg_cores : (setReg s off v).cores = s.cores := rfl
@[simp] theorem setReg_dpt : (setReg s off v).dpt = s.dpt := rfl
@[simp] theorem setReg_plb : (setReg s off v).plb = s.plb := rfl
@[simp] theorem setReg_key : (setReg s off v).key = s.key := rfl
@[simp] theorem setReg_sfl : (setReg s off v).sfl = s.sfl := rfl
@[simp] theorem setReg_aud : (setReg s off v).aud = s.aud := rfl
@[simp] theorem setReg_seam : (setReg s off v).seam = s.seam := rfl
@[simp] theorem setReg_csh : (setReg s off v).csh = s.csh := rfl
@[simp] theorem setReg_flt : (setReg s off v).flt = s.flt := rfl
@[simp] theorem setReg_jione : (setReg s off v).jione = s.jione := rfl
@[simp] theorem setReg_tap : (setReg s off v).tap = s.tap := rfl
end

/-! wf changes regs alone. -/

section
variable (s : State) (off hi lo x : Nat)
@[simp] theorem wf_pending : (wf s off hi lo x).pending = s.pending := rfl
@[simp] theorem wf_clock : (wf s off hi lo x).clock = s.clock := rfl
@[simp] theorem wf_staged : (wf s off hi lo x).staged = s.staged := rfl
@[simp] theorem wf_fypSignals : (wf s off hi lo x).fypSignals = s.fypSignals := rfl
@[simp] theorem wf_toFlt : (wf s off hi lo x).toFlt = s.toFlt := rfl
@[simp] theorem wf_toCsh : (wf s off hi lo x).toCsh = s.toCsh := rfl
@[simp] theorem wf_readData : (wf s off hi lo x).readData = s.readData := rfl
@[simp] theorem wf_readSt : (wf s off hi lo x).readSt = s.readSt := rfl
@[simp] theorem wf_shown : (wf s off hi lo x).shown = s.shown := rfl
@[simp] theorem wf_isl : (wf s off hi lo x).isl = s.isl := rfl
@[simp] theorem wf_mortar : (wf s off hi lo x).mortar = s.mortar := rfl
@[simp] theorem wf_mem : (wf s off hi lo x).mem = s.mem := rfl
@[simp] theorem wf_poison : (wf s off hi lo x).poison = s.poison := rfl
@[simp] theorem wf_eccErr : (wf s off hi lo x).eccErr = s.eccErr := rfl
@[simp] theorem wf_scrubPos : (wf s off hi lo x).scrubPos = s.scrubPos := rfl
@[simp] theorem wf_tb : (wf s off hi lo x).tb = s.tb := rfl
@[simp] theorem wf_drawn : (wf s off hi lo x).drawn = s.drawn := rfl
@[simp] theorem wf_boot : (wf s off hi lo x).boot = s.boot := rfl
@[simp] theorem wf_pci : (wf s off hi lo x).pci = s.pci := rfl
@[simp] theorem wf_dram : (wf s off hi lo x).dram = s.dram := rfl
@[simp] theorem wf_hod : (wf s off hi lo x).hod = s.hod := rfl
@[simp] theorem wf_qry : (wf s off hi lo x).qry = s.qry := rfl
@[simp] theorem wf_ing : (wf s off hi lo x).ing = s.ing := rfl
@[simp] theorem wf_dev : (wf s off hi lo x).dev = s.dev := rfl
@[simp] theorem wf_enl : (wf s off hi lo x).enl = s.enl := rfl
@[simp] theorem wf_esl : (wf s off hi lo x).esl = s.esl := rfl
@[simp] theorem wf_cores : (wf s off hi lo x).cores = s.cores := rfl
@[simp] theorem wf_dpt : (wf s off hi lo x).dpt = s.dpt := rfl
@[simp] theorem wf_plb : (wf s off hi lo x).plb = s.plb := rfl
@[simp] theorem wf_key : (wf s off hi lo x).key = s.key := rfl
@[simp] theorem wf_sfl : (wf s off hi lo x).sfl = s.sfl := rfl
@[simp] theorem wf_aud : (wf s off hi lo x).aud = s.aud := rfl
@[simp] theorem wf_seam : (wf s off hi lo x).seam = s.seam := rfl
@[simp] theorem wf_csh : (wf s off hi lo x).csh = s.csh := rfl
@[simp] theorem wf_flt : (wf s off hi lo x).flt = s.flt := rfl
@[simp] theorem wf_jione : (wf s off hi lo x).jione = s.jione := rfl
@[simp] theorem wf_tap : (wf s off hi lo x).tap = s.tap := rfl
end

/-! wb changes regs alone. -/

section
variable (s : State) (off i : Nat) (b : Bool)
@[simp] theorem wb_pending : (wb s off i b).pending = s.pending := rfl
@[simp] theorem wb_clock : (wb s off i b).clock = s.clock := rfl
@[simp] theorem wb_staged : (wb s off i b).staged = s.staged := rfl
@[simp] theorem wb_fypSignals : (wb s off i b).fypSignals = s.fypSignals := rfl
@[simp] theorem wb_toFlt : (wb s off i b).toFlt = s.toFlt := rfl
@[simp] theorem wb_toCsh : (wb s off i b).toCsh = s.toCsh := rfl
@[simp] theorem wb_readData : (wb s off i b).readData = s.readData := rfl
@[simp] theorem wb_readSt : (wb s off i b).readSt = s.readSt := rfl
@[simp] theorem wb_shown : (wb s off i b).shown = s.shown := rfl
@[simp] theorem wb_isl : (wb s off i b).isl = s.isl := rfl
@[simp] theorem wb_mortar : (wb s off i b).mortar = s.mortar := rfl
@[simp] theorem wb_mem : (wb s off i b).mem = s.mem := rfl
@[simp] theorem wb_poison : (wb s off i b).poison = s.poison := rfl
@[simp] theorem wb_eccErr : (wb s off i b).eccErr = s.eccErr := rfl
@[simp] theorem wb_scrubPos : (wb s off i b).scrubPos = s.scrubPos := rfl
@[simp] theorem wb_tb : (wb s off i b).tb = s.tb := rfl
@[simp] theorem wb_drawn : (wb s off i b).drawn = s.drawn := rfl
@[simp] theorem wb_boot : (wb s off i b).boot = s.boot := rfl
@[simp] theorem wb_pci : (wb s off i b).pci = s.pci := rfl
@[simp] theorem wb_dram : (wb s off i b).dram = s.dram := rfl
@[simp] theorem wb_hod : (wb s off i b).hod = s.hod := rfl
@[simp] theorem wb_qry : (wb s off i b).qry = s.qry := rfl
@[simp] theorem wb_ing : (wb s off i b).ing = s.ing := rfl
@[simp] theorem wb_dev : (wb s off i b).dev = s.dev := rfl
@[simp] theorem wb_enl : (wb s off i b).enl = s.enl := rfl
@[simp] theorem wb_esl : (wb s off i b).esl = s.esl := rfl
@[simp] theorem wb_cores : (wb s off i b).cores = s.cores := rfl
@[simp] theorem wb_dpt : (wb s off i b).dpt = s.dpt := rfl
@[simp] theorem wb_plb : (wb s off i b).plb = s.plb := rfl
@[simp] theorem wb_key : (wb s off i b).key = s.key := rfl
@[simp] theorem wb_sfl : (wb s off i b).sfl = s.sfl := rfl
@[simp] theorem wb_aud : (wb s off i b).aud = s.aud := rfl
@[simp] theorem wb_seam : (wb s off i b).seam = s.seam := rfl
@[simp] theorem wb_csh : (wb s off i b).csh = s.csh := rfl
@[simp] theorem wb_flt : (wb s off i b).flt = s.flt := rfl
@[simp] theorem wb_jione : (wb s off i b).jione = s.jione := rfl
@[simp] theorem wb_tap : (wb s off i b).tap = s.tap := rfl
end

/-! bump changes regs alone. -/

section
variable (s : State) (off hi lo n : Nat)
@[simp] theorem bump_pending : (bump s off hi lo n).pending = s.pending := rfl
@[simp] theorem bump_clock : (bump s off hi lo n).clock = s.clock := rfl
@[simp] theorem bump_staged : (bump s off hi lo n).staged = s.staged := rfl
@[simp] theorem bump_fypSignals : (bump s off hi lo n).fypSignals = s.fypSignals := rfl
@[simp] theorem bump_toFlt : (bump s off hi lo n).toFlt = s.toFlt := rfl
@[simp] theorem bump_toCsh : (bump s off hi lo n).toCsh = s.toCsh := rfl
@[simp] theorem bump_readData : (bump s off hi lo n).readData = s.readData := rfl
@[simp] theorem bump_readSt : (bump s off hi lo n).readSt = s.readSt := rfl
@[simp] theorem bump_shown : (bump s off hi lo n).shown = s.shown := rfl
@[simp] theorem bump_isl : (bump s off hi lo n).isl = s.isl := rfl
@[simp] theorem bump_mortar : (bump s off hi lo n).mortar = s.mortar := rfl
@[simp] theorem bump_mem : (bump s off hi lo n).mem = s.mem := rfl
@[simp] theorem bump_poison : (bump s off hi lo n).poison = s.poison := rfl
@[simp] theorem bump_eccErr : (bump s off hi lo n).eccErr = s.eccErr := rfl
@[simp] theorem bump_scrubPos : (bump s off hi lo n).scrubPos = s.scrubPos := rfl
@[simp] theorem bump_tb : (bump s off hi lo n).tb = s.tb := rfl
@[simp] theorem bump_drawn : (bump s off hi lo n).drawn = s.drawn := rfl
@[simp] theorem bump_boot : (bump s off hi lo n).boot = s.boot := rfl
@[simp] theorem bump_pci : (bump s off hi lo n).pci = s.pci := rfl
@[simp] theorem bump_dram : (bump s off hi lo n).dram = s.dram := rfl
@[simp] theorem bump_hod : (bump s off hi lo n).hod = s.hod := rfl
@[simp] theorem bump_qry : (bump s off hi lo n).qry = s.qry := rfl
@[simp] theorem bump_ing : (bump s off hi lo n).ing = s.ing := rfl
@[simp] theorem bump_dev : (bump s off hi lo n).dev = s.dev := rfl
@[simp] theorem bump_enl : (bump s off hi lo n).enl = s.enl := rfl
@[simp] theorem bump_esl : (bump s off hi lo n).esl = s.esl := rfl
@[simp] theorem bump_cores : (bump s off hi lo n).cores = s.cores := rfl
@[simp] theorem bump_dpt : (bump s off hi lo n).dpt = s.dpt := rfl
@[simp] theorem bump_plb : (bump s off hi lo n).plb = s.plb := rfl
@[simp] theorem bump_key : (bump s off hi lo n).key = s.key := rfl
@[simp] theorem bump_sfl : (bump s off hi lo n).sfl = s.sfl := rfl
@[simp] theorem bump_aud : (bump s off hi lo n).aud = s.aud := rfl
@[simp] theorem bump_seam : (bump s off hi lo n).seam = s.seam := rfl
@[simp] theorem bump_csh : (bump s off hi lo n).csh = s.csh := rfl
@[simp] theorem bump_flt : (bump s off hi lo n).flt = s.flt := rfl
@[simp] theorem bump_jione : (bump s off hi lo n).jione = s.jione := rfl
@[simp] theorem bump_tap : (bump s off hi lo n).tap = s.tap := rfl
end

/-! peak changes regs alone. -/

section
variable (s : State) (off hi lo x : Nat)
@[simp] theorem peak_pending : (peak s off hi lo x).pending = s.pending := rfl
@[simp] theorem peak_clock : (peak s off hi lo x).clock = s.clock := rfl
@[simp] theorem peak_staged : (peak s off hi lo x).staged = s.staged := rfl
@[simp] theorem peak_fypSignals : (peak s off hi lo x).fypSignals = s.fypSignals := rfl
@[simp] theorem peak_toFlt : (peak s off hi lo x).toFlt = s.toFlt := rfl
@[simp] theorem peak_toCsh : (peak s off hi lo x).toCsh = s.toCsh := rfl
@[simp] theorem peak_readData : (peak s off hi lo x).readData = s.readData := rfl
@[simp] theorem peak_readSt : (peak s off hi lo x).readSt = s.readSt := rfl
@[simp] theorem peak_shown : (peak s off hi lo x).shown = s.shown := rfl
@[simp] theorem peak_isl : (peak s off hi lo x).isl = s.isl := rfl
@[simp] theorem peak_mortar : (peak s off hi lo x).mortar = s.mortar := rfl
@[simp] theorem peak_mem : (peak s off hi lo x).mem = s.mem := rfl
@[simp] theorem peak_poison : (peak s off hi lo x).poison = s.poison := rfl
@[simp] theorem peak_eccErr : (peak s off hi lo x).eccErr = s.eccErr := rfl
@[simp] theorem peak_scrubPos : (peak s off hi lo x).scrubPos = s.scrubPos := rfl
@[simp] theorem peak_tb : (peak s off hi lo x).tb = s.tb := rfl
@[simp] theorem peak_drawn : (peak s off hi lo x).drawn = s.drawn := rfl
@[simp] theorem peak_boot : (peak s off hi lo x).boot = s.boot := rfl
@[simp] theorem peak_pci : (peak s off hi lo x).pci = s.pci := rfl
@[simp] theorem peak_dram : (peak s off hi lo x).dram = s.dram := rfl
@[simp] theorem peak_hod : (peak s off hi lo x).hod = s.hod := rfl
@[simp] theorem peak_qry : (peak s off hi lo x).qry = s.qry := rfl
@[simp] theorem peak_ing : (peak s off hi lo x).ing = s.ing := rfl
@[simp] theorem peak_dev : (peak s off hi lo x).dev = s.dev := rfl
@[simp] theorem peak_enl : (peak s off hi lo x).enl = s.enl := rfl
@[simp] theorem peak_esl : (peak s off hi lo x).esl = s.esl := rfl
@[simp] theorem peak_cores : (peak s off hi lo x).cores = s.cores := rfl
@[simp] theorem peak_dpt : (peak s off hi lo x).dpt = s.dpt := rfl
@[simp] theorem peak_plb : (peak s off hi lo x).plb = s.plb := rfl
@[simp] theorem peak_key : (peak s off hi lo x).key = s.key := rfl
@[simp] theorem peak_sfl : (peak s off hi lo x).sfl = s.sfl := rfl
@[simp] theorem peak_aud : (peak s off hi lo x).aud = s.aud := rfl
@[simp] theorem peak_seam : (peak s off hi lo x).seam = s.seam := rfl
@[simp] theorem peak_csh : (peak s off hi lo x).csh = s.csh := rfl
@[simp] theorem peak_flt : (peak s off hi lo x).flt = s.flt := rfl
@[simp] theorem peak_jione : (peak s off hi lo x).jione = s.jione := rfl
@[simp] theorem peak_tap : (peak s off hi lo x).tap = s.tap := rfl
end

/-! updFunc changes pci alone. -/

section
variable (s : State) (fn : Nat) (f : Func → Func)
@[simp] theorem updFunc_pending : (updFunc s fn f).pending = s.pending := rfl
@[simp] theorem updFunc_clock : (updFunc s fn f).clock = s.clock := rfl
@[simp] theorem updFunc_regs : (updFunc s fn f).regs = s.regs := rfl
@[simp] theorem updFunc_staged : (updFunc s fn f).staged = s.staged := rfl
@[simp] theorem updFunc_fypSignals : (updFunc s fn f).fypSignals = s.fypSignals := rfl
@[simp] theorem updFunc_toFlt : (updFunc s fn f).toFlt = s.toFlt := rfl
@[simp] theorem updFunc_toCsh : (updFunc s fn f).toCsh = s.toCsh := rfl
@[simp] theorem updFunc_readData : (updFunc s fn f).readData = s.readData := rfl
@[simp] theorem updFunc_readSt : (updFunc s fn f).readSt = s.readSt := rfl
@[simp] theorem updFunc_shown : (updFunc s fn f).shown = s.shown := rfl
@[simp] theorem updFunc_isl : (updFunc s fn f).isl = s.isl := rfl
@[simp] theorem updFunc_mortar : (updFunc s fn f).mortar = s.mortar := rfl
@[simp] theorem updFunc_mem : (updFunc s fn f).mem = s.mem := rfl
@[simp] theorem updFunc_poison : (updFunc s fn f).poison = s.poison := rfl
@[simp] theorem updFunc_eccErr : (updFunc s fn f).eccErr = s.eccErr := rfl
@[simp] theorem updFunc_scrubPos : (updFunc s fn f).scrubPos = s.scrubPos := rfl
@[simp] theorem updFunc_tb : (updFunc s fn f).tb = s.tb := rfl
@[simp] theorem updFunc_drawn : (updFunc s fn f).drawn = s.drawn := rfl
@[simp] theorem updFunc_boot : (updFunc s fn f).boot = s.boot := rfl
@[simp] theorem updFunc_dram : (updFunc s fn f).dram = s.dram := rfl
@[simp] theorem updFunc_hod : (updFunc s fn f).hod = s.hod := rfl
@[simp] theorem updFunc_qry : (updFunc s fn f).qry = s.qry := rfl
@[simp] theorem updFunc_ing : (updFunc s fn f).ing = s.ing := rfl
@[simp] theorem updFunc_dev : (updFunc s fn f).dev = s.dev := rfl
@[simp] theorem updFunc_enl : (updFunc s fn f).enl = s.enl := rfl
@[simp] theorem updFunc_esl : (updFunc s fn f).esl = s.esl := rfl
@[simp] theorem updFunc_cores : (updFunc s fn f).cores = s.cores := rfl
@[simp] theorem updFunc_dpt : (updFunc s fn f).dpt = s.dpt := rfl
@[simp] theorem updFunc_plb : (updFunc s fn f).plb = s.plb := rfl
@[simp] theorem updFunc_key : (updFunc s fn f).key = s.key := rfl
@[simp] theorem updFunc_sfl : (updFunc s fn f).sfl = s.sfl := rfl
@[simp] theorem updFunc_aud : (updFunc s fn f).aud = s.aud := rfl
@[simp] theorem updFunc_seam : (updFunc s fn f).seam = s.seam := rfl
@[simp] theorem updFunc_csh : (updFunc s fn f).csh = s.csh := rfl
@[simp] theorem updFunc_flt : (updFunc s fn f).flt = s.flt := rfl
@[simp] theorem updFunc_jione : (updFunc s fn f).jione = s.jione := rfl
@[simp] theorem updFunc_tap : (updFunc s fn f).tap = s.tap := rfl
end

/-! sendHost changes pci alone. -/

section
variable (s : State) (m : HostMsg)
@[simp] theorem sendHost_pending : (sendHost s m).pending = s.pending := rfl
@[simp] theorem sendHost_clock : (sendHost s m).clock = s.clock := rfl
@[simp] theorem sendHost_regs : (sendHost s m).regs = s.regs := rfl
@[simp] theorem sendHost_staged : (sendHost s m).staged = s.staged := rfl
@[simp] theorem sendHost_fypSignals : (sendHost s m).fypSignals = s.fypSignals := rfl
@[simp] theorem sendHost_toFlt : (sendHost s m).toFlt = s.toFlt := rfl
@[simp] theorem sendHost_toCsh : (sendHost s m).toCsh = s.toCsh := rfl
@[simp] theorem sendHost_readData : (sendHost s m).readData = s.readData := rfl
@[simp] theorem sendHost_readSt : (sendHost s m).readSt = s.readSt := rfl
@[simp] theorem sendHost_shown : (sendHost s m).shown = s.shown := rfl
@[simp] theorem sendHost_isl : (sendHost s m).isl = s.isl := rfl
@[simp] theorem sendHost_mortar : (sendHost s m).mortar = s.mortar := rfl
@[simp] theorem sendHost_mem : (sendHost s m).mem = s.mem := rfl
@[simp] theorem sendHost_poison : (sendHost s m).poison = s.poison := rfl
@[simp] theorem sendHost_eccErr : (sendHost s m).eccErr = s.eccErr := rfl
@[simp] theorem sendHost_scrubPos : (sendHost s m).scrubPos = s.scrubPos := rfl
@[simp] theorem sendHost_tb : (sendHost s m).tb = s.tb := rfl
@[simp] theorem sendHost_drawn : (sendHost s m).drawn = s.drawn := rfl
@[simp] theorem sendHost_boot : (sendHost s m).boot = s.boot := rfl
@[simp] theorem sendHost_dram : (sendHost s m).dram = s.dram := rfl
@[simp] theorem sendHost_hod : (sendHost s m).hod = s.hod := rfl
@[simp] theorem sendHost_qry : (sendHost s m).qry = s.qry := rfl
@[simp] theorem sendHost_ing : (sendHost s m).ing = s.ing := rfl
@[simp] theorem sendHost_dev : (sendHost s m).dev = s.dev := rfl
@[simp] theorem sendHost_enl : (sendHost s m).enl = s.enl := rfl
@[simp] theorem sendHost_esl : (sendHost s m).esl = s.esl := rfl
@[simp] theorem sendHost_cores : (sendHost s m).cores = s.cores := rfl
@[simp] theorem sendHost_dpt : (sendHost s m).dpt = s.dpt := rfl
@[simp] theorem sendHost_plb : (sendHost s m).plb = s.plb := rfl
@[simp] theorem sendHost_key : (sendHost s m).key = s.key := rfl
@[simp] theorem sendHost_sfl : (sendHost s m).sfl = s.sfl := rfl
@[simp] theorem sendHost_aud : (sendHost s m).aud = s.aud := rfl
@[simp] theorem sendHost_seam : (sendHost s m).seam = s.seam := rfl
@[simp] theorem sendHost_csh : (sendHost s m).csh = s.csh := rfl
@[simp] theorem sendHost_flt : (sendHost s m).flt = s.flt := rfl
@[simp] theorem sendHost_jione : (sendHost s m).jione = s.jione := rfl
@[simp] theorem sendHost_tap : (sendHost s m).tap = s.tap := rfl
end

/-! signalFyp changes fypSignals alone. -/

section
variable (s : State) (g : FypSignal)
@[simp] theorem signalFyp_pending : (signalFyp s g).pending = s.pending := rfl
@[simp] theorem signalFyp_clock : (signalFyp s g).clock = s.clock := rfl
@[simp] theorem signalFyp_regs : (signalFyp s g).regs = s.regs := rfl
@[simp] theorem signalFyp_staged : (signalFyp s g).staged = s.staged := rfl
@[simp] theorem signalFyp_toFlt : (signalFyp s g).toFlt = s.toFlt := rfl
@[simp] theorem signalFyp_toCsh : (signalFyp s g).toCsh = s.toCsh := rfl
@[simp] theorem signalFyp_readData : (signalFyp s g).readData = s.readData := rfl
@[simp] theorem signalFyp_readSt : (signalFyp s g).readSt = s.readSt := rfl
@[simp] theorem signalFyp_shown : (signalFyp s g).shown = s.shown := rfl
@[simp] theorem signalFyp_isl : (signalFyp s g).isl = s.isl := rfl
@[simp] theorem signalFyp_mortar : (signalFyp s g).mortar = s.mortar := rfl
@[simp] theorem signalFyp_mem : (signalFyp s g).mem = s.mem := rfl
@[simp] theorem signalFyp_poison : (signalFyp s g).poison = s.poison := rfl
@[simp] theorem signalFyp_eccErr : (signalFyp s g).eccErr = s.eccErr := rfl
@[simp] theorem signalFyp_scrubPos : (signalFyp s g).scrubPos = s.scrubPos := rfl
@[simp] theorem signalFyp_tb : (signalFyp s g).tb = s.tb := rfl
@[simp] theorem signalFyp_drawn : (signalFyp s g).drawn = s.drawn := rfl
@[simp] theorem signalFyp_boot : (signalFyp s g).boot = s.boot := rfl
@[simp] theorem signalFyp_pci : (signalFyp s g).pci = s.pci := rfl
@[simp] theorem signalFyp_dram : (signalFyp s g).dram = s.dram := rfl
@[simp] theorem signalFyp_hod : (signalFyp s g).hod = s.hod := rfl
@[simp] theorem signalFyp_qry : (signalFyp s g).qry = s.qry := rfl
@[simp] theorem signalFyp_ing : (signalFyp s g).ing = s.ing := rfl
@[simp] theorem signalFyp_dev : (signalFyp s g).dev = s.dev := rfl
@[simp] theorem signalFyp_enl : (signalFyp s g).enl = s.enl := rfl
@[simp] theorem signalFyp_esl : (signalFyp s g).esl = s.esl := rfl
@[simp] theorem signalFyp_cores : (signalFyp s g).cores = s.cores := rfl
@[simp] theorem signalFyp_dpt : (signalFyp s g).dpt = s.dpt := rfl
@[simp] theorem signalFyp_plb : (signalFyp s g).plb = s.plb := rfl
@[simp] theorem signalFyp_key : (signalFyp s g).key = s.key := rfl
@[simp] theorem signalFyp_sfl : (signalFyp s g).sfl = s.sfl := rfl
@[simp] theorem signalFyp_aud : (signalFyp s g).aud = s.aud := rfl
@[simp] theorem signalFyp_seam : (signalFyp s g).seam = s.seam := rfl
@[simp] theorem signalFyp_csh : (signalFyp s g).csh = s.csh := rfl
@[simp] theorem signalFyp_flt : (signalFyp s g).flt = s.flt := rfl
@[simp] theorem signalFyp_jione : (signalFyp s g).jione = s.jione := rfl
@[simp] theorem signalFyp_tap : (signalFyp s g).tap = s.tap := rfl
end

/-! toRecorder changes toCsh alone. -/

section
variable (s : State) (o : Occurrence)
@[simp] theorem toRecorder_pending : (toRecorder s o).pending = s.pending := rfl
@[simp] theorem toRecorder_clock : (toRecorder s o).clock = s.clock := rfl
@[simp] theorem toRecorder_regs : (toRecorder s o).regs = s.regs := rfl
@[simp] theorem toRecorder_staged : (toRecorder s o).staged = s.staged := rfl
@[simp] theorem toRecorder_fypSignals : (toRecorder s o).fypSignals = s.fypSignals := rfl
@[simp] theorem toRecorder_toFlt : (toRecorder s o).toFlt = s.toFlt := rfl
@[simp] theorem toRecorder_readData : (toRecorder s o).readData = s.readData := rfl
@[simp] theorem toRecorder_readSt : (toRecorder s o).readSt = s.readSt := rfl
@[simp] theorem toRecorder_shown : (toRecorder s o).shown = s.shown := rfl
@[simp] theorem toRecorder_isl : (toRecorder s o).isl = s.isl := rfl
@[simp] theorem toRecorder_mortar : (toRecorder s o).mortar = s.mortar := rfl
@[simp] theorem toRecorder_mem : (toRecorder s o).mem = s.mem := rfl
@[simp] theorem toRecorder_poison : (toRecorder s o).poison = s.poison := rfl
@[simp] theorem toRecorder_eccErr : (toRecorder s o).eccErr = s.eccErr := rfl
@[simp] theorem toRecorder_scrubPos : (toRecorder s o).scrubPos = s.scrubPos := rfl
@[simp] theorem toRecorder_tb : (toRecorder s o).tb = s.tb := rfl
@[simp] theorem toRecorder_drawn : (toRecorder s o).drawn = s.drawn := rfl
@[simp] theorem toRecorder_boot : (toRecorder s o).boot = s.boot := rfl
@[simp] theorem toRecorder_pci : (toRecorder s o).pci = s.pci := rfl
@[simp] theorem toRecorder_dram : (toRecorder s o).dram = s.dram := rfl
@[simp] theorem toRecorder_hod : (toRecorder s o).hod = s.hod := rfl
@[simp] theorem toRecorder_qry : (toRecorder s o).qry = s.qry := rfl
@[simp] theorem toRecorder_ing : (toRecorder s o).ing = s.ing := rfl
@[simp] theorem toRecorder_dev : (toRecorder s o).dev = s.dev := rfl
@[simp] theorem toRecorder_enl : (toRecorder s o).enl = s.enl := rfl
@[simp] theorem toRecorder_esl : (toRecorder s o).esl = s.esl := rfl
@[simp] theorem toRecorder_cores : (toRecorder s o).cores = s.cores := rfl
@[simp] theorem toRecorder_dpt : (toRecorder s o).dpt = s.dpt := rfl
@[simp] theorem toRecorder_plb : (toRecorder s o).plb = s.plb := rfl
@[simp] theorem toRecorder_key : (toRecorder s o).key = s.key := rfl
@[simp] theorem toRecorder_sfl : (toRecorder s o).sfl = s.sfl := rfl
@[simp] theorem toRecorder_aud : (toRecorder s o).aud = s.aud := rfl
@[simp] theorem toRecorder_seam : (toRecorder s o).seam = s.seam := rfl
@[simp] theorem toRecorder_csh : (toRecorder s o).csh = s.csh := rfl
@[simp] theorem toRecorder_flt : (toRecorder s o).flt = s.flt := rfl
@[simp] theorem toRecorder_jione : (toRecorder s o).jione = s.jione := rfl
@[simp] theorem toRecorder_tap : (toRecorder s o).tap = s.tap := rfl
end

/-! tellFlt changes toFlt alone. -/

section
variable (s : State) (m : FltMsg)
@[simp] theorem tellFlt_pending : (tellFlt s m).pending = s.pending := rfl
@[simp] theorem tellFlt_clock : (tellFlt s m).clock = s.clock := rfl
@[simp] theorem tellFlt_regs : (tellFlt s m).regs = s.regs := rfl
@[simp] theorem tellFlt_staged : (tellFlt s m).staged = s.staged := rfl
@[simp] theorem tellFlt_fypSignals : (tellFlt s m).fypSignals = s.fypSignals := rfl
@[simp] theorem tellFlt_toCsh : (tellFlt s m).toCsh = s.toCsh := rfl
@[simp] theorem tellFlt_readData : (tellFlt s m).readData = s.readData := rfl
@[simp] theorem tellFlt_readSt : (tellFlt s m).readSt = s.readSt := rfl
@[simp] theorem tellFlt_shown : (tellFlt s m).shown = s.shown := rfl
@[simp] theorem tellFlt_isl : (tellFlt s m).isl = s.isl := rfl
@[simp] theorem tellFlt_mortar : (tellFlt s m).mortar = s.mortar := rfl
@[simp] theorem tellFlt_mem : (tellFlt s m).mem = s.mem := rfl
@[simp] theorem tellFlt_poison : (tellFlt s m).poison = s.poison := rfl
@[simp] theorem tellFlt_eccErr : (tellFlt s m).eccErr = s.eccErr := rfl
@[simp] theorem tellFlt_scrubPos : (tellFlt s m).scrubPos = s.scrubPos := rfl
@[simp] theorem tellFlt_tb : (tellFlt s m).tb = s.tb := rfl
@[simp] theorem tellFlt_drawn : (tellFlt s m).drawn = s.drawn := rfl
@[simp] theorem tellFlt_boot : (tellFlt s m).boot = s.boot := rfl
@[simp] theorem tellFlt_pci : (tellFlt s m).pci = s.pci := rfl
@[simp] theorem tellFlt_dram : (tellFlt s m).dram = s.dram := rfl
@[simp] theorem tellFlt_hod : (tellFlt s m).hod = s.hod := rfl
@[simp] theorem tellFlt_qry : (tellFlt s m).qry = s.qry := rfl
@[simp] theorem tellFlt_ing : (tellFlt s m).ing = s.ing := rfl
@[simp] theorem tellFlt_dev : (tellFlt s m).dev = s.dev := rfl
@[simp] theorem tellFlt_enl : (tellFlt s m).enl = s.enl := rfl
@[simp] theorem tellFlt_esl : (tellFlt s m).esl = s.esl := rfl
@[simp] theorem tellFlt_cores : (tellFlt s m).cores = s.cores := rfl
@[simp] theorem tellFlt_dpt : (tellFlt s m).dpt = s.dpt := rfl
@[simp] theorem tellFlt_plb : (tellFlt s m).plb = s.plb := rfl
@[simp] theorem tellFlt_key : (tellFlt s m).key = s.key := rfl
@[simp] theorem tellFlt_sfl : (tellFlt s m).sfl = s.sfl := rfl
@[simp] theorem tellFlt_aud : (tellFlt s m).aud = s.aud := rfl
@[simp] theorem tellFlt_seam : (tellFlt s m).seam = s.seam := rfl
@[simp] theorem tellFlt_csh : (tellFlt s m).csh = s.csh := rfl
@[simp] theorem tellFlt_flt : (tellFlt s m).flt = s.flt := rfl
@[simp] theorem tellFlt_jione : (tellFlt s m).jione = s.jione := rfl
@[simp] theorem tellFlt_tap : (tellFlt s m).tap = s.tap := rfl
end

/-! setByte changes mem alone. -/

section
variable (s : State) (a : Nat) (b : Byte)
@[simp] theorem setByte_pending : (setByte s a b).pending = s.pending := rfl
@[simp] theorem setByte_clock : (setByte s a b).clock = s.clock := rfl
@[simp] theorem setByte_regs : (setByte s a b).regs = s.regs := rfl
@[simp] theorem setByte_staged : (setByte s a b).staged = s.staged := rfl
@[simp] theorem setByte_fypSignals : (setByte s a b).fypSignals = s.fypSignals := rfl
@[simp] theorem setByte_toFlt : (setByte s a b).toFlt = s.toFlt := rfl
@[simp] theorem setByte_toCsh : (setByte s a b).toCsh = s.toCsh := rfl
@[simp] theorem setByte_readData : (setByte s a b).readData = s.readData := rfl
@[simp] theorem setByte_readSt : (setByte s a b).readSt = s.readSt := rfl
@[simp] theorem setByte_shown : (setByte s a b).shown = s.shown := rfl
@[simp] theorem setByte_isl : (setByte s a b).isl = s.isl := rfl
@[simp] theorem setByte_mortar : (setByte s a b).mortar = s.mortar := rfl
@[simp] theorem setByte_poison : (setByte s a b).poison = s.poison := rfl
@[simp] theorem setByte_eccErr : (setByte s a b).eccErr = s.eccErr := rfl
@[simp] theorem setByte_scrubPos : (setByte s a b).scrubPos = s.scrubPos := rfl
@[simp] theorem setByte_tb : (setByte s a b).tb = s.tb := rfl
@[simp] theorem setByte_drawn : (setByte s a b).drawn = s.drawn := rfl
@[simp] theorem setByte_boot : (setByte s a b).boot = s.boot := rfl
@[simp] theorem setByte_pci : (setByte s a b).pci = s.pci := rfl
@[simp] theorem setByte_dram : (setByte s a b).dram = s.dram := rfl
@[simp] theorem setByte_hod : (setByte s a b).hod = s.hod := rfl
@[simp] theorem setByte_qry : (setByte s a b).qry = s.qry := rfl
@[simp] theorem setByte_ing : (setByte s a b).ing = s.ing := rfl
@[simp] theorem setByte_dev : (setByte s a b).dev = s.dev := rfl
@[simp] theorem setByte_enl : (setByte s a b).enl = s.enl := rfl
@[simp] theorem setByte_esl : (setByte s a b).esl = s.esl := rfl
@[simp] theorem setByte_cores : (setByte s a b).cores = s.cores := rfl
@[simp] theorem setByte_dpt : (setByte s a b).dpt = s.dpt := rfl
@[simp] theorem setByte_plb : (setByte s a b).plb = s.plb := rfl
@[simp] theorem setByte_key : (setByte s a b).key = s.key := rfl
@[simp] theorem setByte_sfl : (setByte s a b).sfl = s.sfl := rfl
@[simp] theorem setByte_aud : (setByte s a b).aud = s.aud := rfl
@[simp] theorem setByte_seam : (setByte s a b).seam = s.seam := rfl
@[simp] theorem setByte_csh : (setByte s a b).csh = s.csh := rfl
@[simp] theorem setByte_flt : (setByte s a b).flt = s.flt := rfl
@[simp] theorem setByte_jione : (setByte s a b).jione = s.jione := rfl
@[simp] theorem setByte_tap : (setByte s a b).tap = s.tap := rfl
end

/-! markGranule changes poison alone. -/

section
variable (s : State) (g : Nat)
@[simp] theorem markGranule_pending : (markGranule s g).pending = s.pending := rfl
@[simp] theorem markGranule_clock : (markGranule s g).clock = s.clock := rfl
@[simp] theorem markGranule_regs : (markGranule s g).regs = s.regs := rfl
@[simp] theorem markGranule_staged : (markGranule s g).staged = s.staged := rfl
@[simp] theorem markGranule_fypSignals : (markGranule s g).fypSignals = s.fypSignals := rfl
@[simp] theorem markGranule_toFlt : (markGranule s g).toFlt = s.toFlt := rfl
@[simp] theorem markGranule_toCsh : (markGranule s g).toCsh = s.toCsh := rfl
@[simp] theorem markGranule_readData : (markGranule s g).readData = s.readData := rfl
@[simp] theorem markGranule_readSt : (markGranule s g).readSt = s.readSt := rfl
@[simp] theorem markGranule_shown : (markGranule s g).shown = s.shown := rfl
@[simp] theorem markGranule_isl : (markGranule s g).isl = s.isl := rfl
@[simp] theorem markGranule_mortar : (markGranule s g).mortar = s.mortar := rfl
@[simp] theorem markGranule_mem : (markGranule s g).mem = s.mem := rfl
@[simp] theorem markGranule_eccErr : (markGranule s g).eccErr = s.eccErr := rfl
@[simp] theorem markGranule_scrubPos : (markGranule s g).scrubPos = s.scrubPos := rfl
@[simp] theorem markGranule_tb : (markGranule s g).tb = s.tb := rfl
@[simp] theorem markGranule_drawn : (markGranule s g).drawn = s.drawn := rfl
@[simp] theorem markGranule_boot : (markGranule s g).boot = s.boot := rfl
@[simp] theorem markGranule_pci : (markGranule s g).pci = s.pci := rfl
@[simp] theorem markGranule_dram : (markGranule s g).dram = s.dram := rfl
@[simp] theorem markGranule_hod : (markGranule s g).hod = s.hod := rfl
@[simp] theorem markGranule_qry : (markGranule s g).qry = s.qry := rfl
@[simp] theorem markGranule_ing : (markGranule s g).ing = s.ing := rfl
@[simp] theorem markGranule_dev : (markGranule s g).dev = s.dev := rfl
@[simp] theorem markGranule_enl : (markGranule s g).enl = s.enl := rfl
@[simp] theorem markGranule_esl : (markGranule s g).esl = s.esl := rfl
@[simp] theorem markGranule_cores : (markGranule s g).cores = s.cores := rfl
@[simp] theorem markGranule_dpt : (markGranule s g).dpt = s.dpt := rfl
@[simp] theorem markGranule_plb : (markGranule s g).plb = s.plb := rfl
@[simp] theorem markGranule_key : (markGranule s g).key = s.key := rfl
@[simp] theorem markGranule_sfl : (markGranule s g).sfl = s.sfl := rfl
@[simp] theorem markGranule_aud : (markGranule s g).aud = s.aud := rfl
@[simp] theorem markGranule_seam : (markGranule s g).seam = s.seam := rfl
@[simp] theorem markGranule_csh : (markGranule s g).csh = s.csh := rfl
@[simp] theorem markGranule_flt : (markGranule s g).flt = s.flt := rfl
@[simp] theorem markGranule_jione : (markGranule s g).jione = s.jione := rfl
@[simp] theorem markGranule_tap : (markGranule s g).tap = s.tap := rfl
end

/-! clearGranule changes poison alone. -/

section
variable (s : State) (g : Nat)
@[simp] theorem clearGranule_pending : (clearGranule s g).pending = s.pending := rfl
@[simp] theorem clearGranule_clock : (clearGranule s g).clock = s.clock := rfl
@[simp] theorem clearGranule_regs : (clearGranule s g).regs = s.regs := rfl
@[simp] theorem clearGranule_staged : (clearGranule s g).staged = s.staged := rfl
@[simp] theorem clearGranule_fypSignals : (clearGranule s g).fypSignals = s.fypSignals := rfl
@[simp] theorem clearGranule_toFlt : (clearGranule s g).toFlt = s.toFlt := rfl
@[simp] theorem clearGranule_toCsh : (clearGranule s g).toCsh = s.toCsh := rfl
@[simp] theorem clearGranule_readData : (clearGranule s g).readData = s.readData := rfl
@[simp] theorem clearGranule_readSt : (clearGranule s g).readSt = s.readSt := rfl
@[simp] theorem clearGranule_shown : (clearGranule s g).shown = s.shown := rfl
@[simp] theorem clearGranule_isl : (clearGranule s g).isl = s.isl := rfl
@[simp] theorem clearGranule_mortar : (clearGranule s g).mortar = s.mortar := rfl
@[simp] theorem clearGranule_mem : (clearGranule s g).mem = s.mem := rfl
@[simp] theorem clearGranule_eccErr : (clearGranule s g).eccErr = s.eccErr := rfl
@[simp] theorem clearGranule_scrubPos : (clearGranule s g).scrubPos = s.scrubPos := rfl
@[simp] theorem clearGranule_tb : (clearGranule s g).tb = s.tb := rfl
@[simp] theorem clearGranule_drawn : (clearGranule s g).drawn = s.drawn := rfl
@[simp] theorem clearGranule_boot : (clearGranule s g).boot = s.boot := rfl
@[simp] theorem clearGranule_pci : (clearGranule s g).pci = s.pci := rfl
@[simp] theorem clearGranule_dram : (clearGranule s g).dram = s.dram := rfl
@[simp] theorem clearGranule_hod : (clearGranule s g).hod = s.hod := rfl
@[simp] theorem clearGranule_qry : (clearGranule s g).qry = s.qry := rfl
@[simp] theorem clearGranule_ing : (clearGranule s g).ing = s.ing := rfl
@[simp] theorem clearGranule_dev : (clearGranule s g).dev = s.dev := rfl
@[simp] theorem clearGranule_enl : (clearGranule s g).enl = s.enl := rfl
@[simp] theorem clearGranule_esl : (clearGranule s g).esl = s.esl := rfl
@[simp] theorem clearGranule_cores : (clearGranule s g).cores = s.cores := rfl
@[simp] theorem clearGranule_dpt : (clearGranule s g).dpt = s.dpt := rfl
@[simp] theorem clearGranule_plb : (clearGranule s g).plb = s.plb := rfl
@[simp] theorem clearGranule_key : (clearGranule s g).key = s.key := rfl
@[simp] theorem clearGranule_sfl : (clearGranule s g).sfl = s.sfl := rfl
@[simp] theorem clearGranule_aud : (clearGranule s g).aud = s.aud := rfl
@[simp] theorem clearGranule_seam : (clearGranule s g).seam = s.seam := rfl
@[simp] theorem clearGranule_csh : (clearGranule s g).csh = s.csh := rfl
@[simp] theorem clearGranule_flt : (clearGranule s g).flt = s.flt := rfl
@[simp] theorem clearGranule_jione : (clearGranule s g).jione = s.jione := rfl
@[simp] theorem clearGranule_tap : (clearGranule s g).tap = s.tap := rfl
end

/-! updIsl changes isl alone. -/

section
variable (s : State) (n : Nat) (f : Island → Island)
@[simp] theorem updIsl_pending : (updIsl s n f).pending = s.pending := rfl
@[simp] theorem updIsl_clock : (updIsl s n f).clock = s.clock := rfl
@[simp] theorem updIsl_regs : (updIsl s n f).regs = s.regs := rfl
@[simp] theorem updIsl_staged : (updIsl s n f).staged = s.staged := rfl
@[simp] theorem updIsl_fypSignals : (updIsl s n f).fypSignals = s.fypSignals := rfl
@[simp] theorem updIsl_toFlt : (updIsl s n f).toFlt = s.toFlt := rfl
@[simp] theorem updIsl_toCsh : (updIsl s n f).toCsh = s.toCsh := rfl
@[simp] theorem updIsl_readData : (updIsl s n f).readData = s.readData := rfl
@[simp] theorem updIsl_readSt : (updIsl s n f).readSt = s.readSt := rfl
@[simp] theorem updIsl_shown : (updIsl s n f).shown = s.shown := rfl
@[simp] theorem updIsl_mortar : (updIsl s n f).mortar = s.mortar := rfl
@[simp] theorem updIsl_mem : (updIsl s n f).mem = s.mem := rfl
@[simp] theorem updIsl_poison : (updIsl s n f).poison = s.poison := rfl
@[simp] theorem updIsl_eccErr : (updIsl s n f).eccErr = s.eccErr := rfl
@[simp] theorem updIsl_scrubPos : (updIsl s n f).scrubPos = s.scrubPos := rfl
@[simp] theorem updIsl_tb : (updIsl s n f).tb = s.tb := rfl
@[simp] theorem updIsl_drawn : (updIsl s n f).drawn = s.drawn := rfl
@[simp] theorem updIsl_boot : (updIsl s n f).boot = s.boot := rfl
@[simp] theorem updIsl_pci : (updIsl s n f).pci = s.pci := rfl
@[simp] theorem updIsl_dram : (updIsl s n f).dram = s.dram := rfl
@[simp] theorem updIsl_hod : (updIsl s n f).hod = s.hod := rfl
@[simp] theorem updIsl_qry : (updIsl s n f).qry = s.qry := rfl
@[simp] theorem updIsl_ing : (updIsl s n f).ing = s.ing := rfl
@[simp] theorem updIsl_dev : (updIsl s n f).dev = s.dev := rfl
@[simp] theorem updIsl_enl : (updIsl s n f).enl = s.enl := rfl
@[simp] theorem updIsl_esl : (updIsl s n f).esl = s.esl := rfl
@[simp] theorem updIsl_cores : (updIsl s n f).cores = s.cores := rfl
@[simp] theorem updIsl_dpt : (updIsl s n f).dpt = s.dpt := rfl
@[simp] theorem updIsl_plb : (updIsl s n f).plb = s.plb := rfl
@[simp] theorem updIsl_key : (updIsl s n f).key = s.key := rfl
@[simp] theorem updIsl_sfl : (updIsl s n f).sfl = s.sfl := rfl
@[simp] theorem updIsl_aud : (updIsl s n f).aud = s.aud := rfl
@[simp] theorem updIsl_seam : (updIsl s n f).seam = s.seam := rfl
@[simp] theorem updIsl_csh : (updIsl s n f).csh = s.csh := rfl
@[simp] theorem updIsl_flt : (updIsl s n f).flt = s.flt := rfl
@[simp] theorem updIsl_jione : (updIsl s n f).jione = s.jione := rfl
@[simp] theorem updIsl_tap : (updIsl s n f).tap = s.tap := rfl
end

/-! updSub changes dram alone. -/

section
variable (s : State) (u : Nat) (f : SubCh → SubCh)
@[simp] theorem updSub_pending : (updSub s u f).pending = s.pending := rfl
@[simp] theorem updSub_clock : (updSub s u f).clock = s.clock := rfl
@[simp] theorem updSub_regs : (updSub s u f).regs = s.regs := rfl
@[simp] theorem updSub_staged : (updSub s u f).staged = s.staged := rfl
@[simp] theorem updSub_fypSignals : (updSub s u f).fypSignals = s.fypSignals := rfl
@[simp] theorem updSub_toFlt : (updSub s u f).toFlt = s.toFlt := rfl
@[simp] theorem updSub_toCsh : (updSub s u f).toCsh = s.toCsh := rfl
@[simp] theorem updSub_readData : (updSub s u f).readData = s.readData := rfl
@[simp] theorem updSub_readSt : (updSub s u f).readSt = s.readSt := rfl
@[simp] theorem updSub_shown : (updSub s u f).shown = s.shown := rfl
@[simp] theorem updSub_isl : (updSub s u f).isl = s.isl := rfl
@[simp] theorem updSub_mortar : (updSub s u f).mortar = s.mortar := rfl
@[simp] theorem updSub_mem : (updSub s u f).mem = s.mem := rfl
@[simp] theorem updSub_poison : (updSub s u f).poison = s.poison := rfl
@[simp] theorem updSub_eccErr : (updSub s u f).eccErr = s.eccErr := rfl
@[simp] theorem updSub_scrubPos : (updSub s u f).scrubPos = s.scrubPos := rfl
@[simp] theorem updSub_tb : (updSub s u f).tb = s.tb := rfl
@[simp] theorem updSub_drawn : (updSub s u f).drawn = s.drawn := rfl
@[simp] theorem updSub_boot : (updSub s u f).boot = s.boot := rfl
@[simp] theorem updSub_pci : (updSub s u f).pci = s.pci := rfl
@[simp] theorem updSub_hod : (updSub s u f).hod = s.hod := rfl
@[simp] theorem updSub_qry : (updSub s u f).qry = s.qry := rfl
@[simp] theorem updSub_ing : (updSub s u f).ing = s.ing := rfl
@[simp] theorem updSub_dev : (updSub s u f).dev = s.dev := rfl
@[simp] theorem updSub_enl : (updSub s u f).enl = s.enl := rfl
@[simp] theorem updSub_esl : (updSub s u f).esl = s.esl := rfl
@[simp] theorem updSub_cores : (updSub s u f).cores = s.cores := rfl
@[simp] theorem updSub_dpt : (updSub s u f).dpt = s.dpt := rfl
@[simp] theorem updSub_plb : (updSub s u f).plb = s.plb := rfl
@[simp] theorem updSub_key : (updSub s u f).key = s.key := rfl
@[simp] theorem updSub_sfl : (updSub s u f).sfl = s.sfl := rfl
@[simp] theorem updSub_aud : (updSub s u f).aud = s.aud := rfl
@[simp] theorem updSub_seam : (updSub s u f).seam = s.seam := rfl
@[simp] theorem updSub_csh : (updSub s u f).csh = s.csh := rfl
@[simp] theorem updSub_flt : (updSub s u f).flt = s.flt := rfl
@[simp] theorem updSub_jione : (updSub s u f).jione = s.jione := rfl
@[simp] theorem updSub_tap : (updSub s u f).tap = s.tap := rfl
end

/-! updMortar changes mortar alone. -/

section
variable (s : State) (f : Mortar → Mortar)
@[simp] theorem updMortar_pending : (updMortar s f).pending = s.pending := rfl
@[simp] theorem updMortar_clock : (updMortar s f).clock = s.clock := rfl
@[simp] theorem updMortar_regs : (updMortar s f).regs = s.regs := rfl
@[simp] theorem updMortar_staged : (updMortar s f).staged = s.staged := rfl
@[simp] theorem updMortar_fypSignals : (updMortar s f).fypSignals = s.fypSignals := rfl
@[simp] theorem updMortar_toFlt : (updMortar s f).toFlt = s.toFlt := rfl
@[simp] theorem updMortar_toCsh : (updMortar s f).toCsh = s.toCsh := rfl
@[simp] theorem updMortar_readData : (updMortar s f).readData = s.readData := rfl
@[simp] theorem updMortar_readSt : (updMortar s f).readSt = s.readSt := rfl
@[simp] theorem updMortar_shown : (updMortar s f).shown = s.shown := rfl
@[simp] theorem updMortar_isl : (updMortar s f).isl = s.isl := rfl
@[simp] theorem updMortar_mem : (updMortar s f).mem = s.mem := rfl
@[simp] theorem updMortar_poison : (updMortar s f).poison = s.poison := rfl
@[simp] theorem updMortar_eccErr : (updMortar s f).eccErr = s.eccErr := rfl
@[simp] theorem updMortar_scrubPos : (updMortar s f).scrubPos = s.scrubPos := rfl
@[simp] theorem updMortar_tb : (updMortar s f).tb = s.tb := rfl
@[simp] theorem updMortar_drawn : (updMortar s f).drawn = s.drawn := rfl
@[simp] theorem updMortar_boot : (updMortar s f).boot = s.boot := rfl
@[simp] theorem updMortar_pci : (updMortar s f).pci = s.pci := rfl
@[simp] theorem updMortar_dram : (updMortar s f).dram = s.dram := rfl
@[simp] theorem updMortar_hod : (updMortar s f).hod = s.hod := rfl
@[simp] theorem updMortar_qry : (updMortar s f).qry = s.qry := rfl
@[simp] theorem updMortar_ing : (updMortar s f).ing = s.ing := rfl
@[simp] theorem updMortar_dev : (updMortar s f).dev = s.dev := rfl
@[simp] theorem updMortar_enl : (updMortar s f).enl = s.enl := rfl
@[simp] theorem updMortar_esl : (updMortar s f).esl = s.esl := rfl
@[simp] theorem updMortar_cores : (updMortar s f).cores = s.cores := rfl
@[simp] theorem updMortar_dpt : (updMortar s f).dpt = s.dpt := rfl
@[simp] theorem updMortar_plb : (updMortar s f).plb = s.plb := rfl
@[simp] theorem updMortar_key : (updMortar s f).key = s.key := rfl
@[simp] theorem updMortar_sfl : (updMortar s f).sfl = s.sfl := rfl
@[simp] theorem updMortar_aud : (updMortar s f).aud = s.aud := rfl
@[simp] theorem updMortar_seam : (updMortar s f).seam = s.seam := rfl
@[simp] theorem updMortar_csh : (updMortar s f).csh = s.csh := rfl
@[simp] theorem updMortar_flt : (updMortar s f).flt = s.flt := rfl
@[simp] theorem updMortar_jione : (updMortar s f).jione = s.jione := rfl
@[simp] theorem updMortar_tap : (updMortar s f).tap = s.tap := rfl
end

/-! updBoot changes boot alone. -/

section
variable (s : State) (f : Boot → Boot)
@[simp] theorem updBoot_pending : (updBoot s f).pending = s.pending := rfl
@[simp] theorem updBoot_clock : (updBoot s f).clock = s.clock := rfl
@[simp] theorem updBoot_regs : (updBoot s f).regs = s.regs := rfl
@[simp] theorem updBoot_staged : (updBoot s f).staged = s.staged := rfl
@[simp] theorem updBoot_fypSignals : (updBoot s f).fypSignals = s.fypSignals := rfl
@[simp] theorem updBoot_toFlt : (updBoot s f).toFlt = s.toFlt := rfl
@[simp] theorem updBoot_toCsh : (updBoot s f).toCsh = s.toCsh := rfl
@[simp] theorem updBoot_readData : (updBoot s f).readData = s.readData := rfl
@[simp] theorem updBoot_readSt : (updBoot s f).readSt = s.readSt := rfl
@[simp] theorem updBoot_shown : (updBoot s f).shown = s.shown := rfl
@[simp] theorem updBoot_isl : (updBoot s f).isl = s.isl := rfl
@[simp] theorem updBoot_mortar : (updBoot s f).mortar = s.mortar := rfl
@[simp] theorem updBoot_mem : (updBoot s f).mem = s.mem := rfl
@[simp] theorem updBoot_poison : (updBoot s f).poison = s.poison := rfl
@[simp] theorem updBoot_eccErr : (updBoot s f).eccErr = s.eccErr := rfl
@[simp] theorem updBoot_scrubPos : (updBoot s f).scrubPos = s.scrubPos := rfl
@[simp] theorem updBoot_tb : (updBoot s f).tb = s.tb := rfl
@[simp] theorem updBoot_drawn : (updBoot s f).drawn = s.drawn := rfl
@[simp] theorem updBoot_pci : (updBoot s f).pci = s.pci := rfl
@[simp] theorem updBoot_dram : (updBoot s f).dram = s.dram := rfl
@[simp] theorem updBoot_hod : (updBoot s f).hod = s.hod := rfl
@[simp] theorem updBoot_qry : (updBoot s f).qry = s.qry := rfl
@[simp] theorem updBoot_ing : (updBoot s f).ing = s.ing := rfl
@[simp] theorem updBoot_dev : (updBoot s f).dev = s.dev := rfl
@[simp] theorem updBoot_enl : (updBoot s f).enl = s.enl := rfl
@[simp] theorem updBoot_esl : (updBoot s f).esl = s.esl := rfl
@[simp] theorem updBoot_cores : (updBoot s f).cores = s.cores := rfl
@[simp] theorem updBoot_dpt : (updBoot s f).dpt = s.dpt := rfl
@[simp] theorem updBoot_plb : (updBoot s f).plb = s.plb := rfl
@[simp] theorem updBoot_key : (updBoot s f).key = s.key := rfl
@[simp] theorem updBoot_sfl : (updBoot s f).sfl = s.sfl := rfl
@[simp] theorem updBoot_aud : (updBoot s f).aud = s.aud := rfl
@[simp] theorem updBoot_seam : (updBoot s f).seam = s.seam := rfl
@[simp] theorem updBoot_csh : (updBoot s f).csh = s.csh := rfl
@[simp] theorem updBoot_flt : (updBoot s f).flt = s.flt := rfl
@[simp] theorem updBoot_jione : (updBoot s f).jione = s.jione := rfl
@[simp] theorem updBoot_tap : (updBoot s f).tap = s.tap := rfl
end

/-! updSrc changes ing alone. -/

section
variable (s : State) (n : Nat) (f : Source → Source)
@[simp] theorem updSrc_pending : (updSrc s n f).pending = s.pending := rfl
@[simp] theorem updSrc_clock : (updSrc s n f).clock = s.clock := rfl
@[simp] theorem updSrc_regs : (updSrc s n f).regs = s.regs := rfl
@[simp] theorem updSrc_staged : (updSrc s n f).staged = s.staged := rfl
@[simp] theorem updSrc_fypSignals : (updSrc s n f).fypSignals = s.fypSignals := rfl
@[simp] theorem updSrc_toFlt : (updSrc s n f).toFlt = s.toFlt := rfl
@[simp] theorem updSrc_toCsh : (updSrc s n f).toCsh = s.toCsh := rfl
@[simp] theorem updSrc_readData : (updSrc s n f).readData = s.readData := rfl
@[simp] theorem updSrc_readSt : (updSrc s n f).readSt = s.readSt := rfl
@[simp] theorem updSrc_shown : (updSrc s n f).shown = s.shown := rfl
@[simp] theorem updSrc_isl : (updSrc s n f).isl = s.isl := rfl
@[simp] theorem updSrc_mortar : (updSrc s n f).mortar = s.mortar := rfl
@[simp] theorem updSrc_mem : (updSrc s n f).mem = s.mem := rfl
@[simp] theorem updSrc_poison : (updSrc s n f).poison = s.poison := rfl
@[simp] theorem updSrc_eccErr : (updSrc s n f).eccErr = s.eccErr := rfl
@[simp] theorem updSrc_scrubPos : (updSrc s n f).scrubPos = s.scrubPos := rfl
@[simp] theorem updSrc_tb : (updSrc s n f).tb = s.tb := rfl
@[simp] theorem updSrc_drawn : (updSrc s n f).drawn = s.drawn := rfl
@[simp] theorem updSrc_boot : (updSrc s n f).boot = s.boot := rfl
@[simp] theorem updSrc_pci : (updSrc s n f).pci = s.pci := rfl
@[simp] theorem updSrc_dram : (updSrc s n f).dram = s.dram := rfl
@[simp] theorem updSrc_hod : (updSrc s n f).hod = s.hod := rfl
@[simp] theorem updSrc_qry : (updSrc s n f).qry = s.qry := rfl
@[simp] theorem updSrc_dev : (updSrc s n f).dev = s.dev := rfl
@[simp] theorem updSrc_enl : (updSrc s n f).enl = s.enl := rfl
@[simp] theorem updSrc_esl : (updSrc s n f).esl = s.esl := rfl
@[simp] theorem updSrc_cores : (updSrc s n f).cores = s.cores := rfl
@[simp] theorem updSrc_dpt : (updSrc s n f).dpt = s.dpt := rfl
@[simp] theorem updSrc_plb : (updSrc s n f).plb = s.plb := rfl
@[simp] theorem updSrc_key : (updSrc s n f).key = s.key := rfl
@[simp] theorem updSrc_sfl : (updSrc s n f).sfl = s.sfl := rfl
@[simp] theorem updSrc_aud : (updSrc s n f).aud = s.aud := rfl
@[simp] theorem updSrc_seam : (updSrc s n f).seam = s.seam := rfl
@[simp] theorem updSrc_csh : (updSrc s n f).csh = s.csh := rfl
@[simp] theorem updSrc_flt : (updSrc s n f).flt = s.flt := rfl
@[simp] theorem updSrc_jione : (updSrc s n f).jione = s.jione := rfl
@[simp] theorem updSrc_tap : (updSrc s n f).tap = s.tap := rfl
end

/-! updDev changes dev alone. -/

section
variable (s : State) (n : Nat) (f : DevSlot → DevSlot)
@[simp] theorem updDev_pending : (updDev s n f).pending = s.pending := rfl
@[simp] theorem updDev_clock : (updDev s n f).clock = s.clock := rfl
@[simp] theorem updDev_regs : (updDev s n f).regs = s.regs := rfl
@[simp] theorem updDev_staged : (updDev s n f).staged = s.staged := rfl
@[simp] theorem updDev_fypSignals : (updDev s n f).fypSignals = s.fypSignals := rfl
@[simp] theorem updDev_toFlt : (updDev s n f).toFlt = s.toFlt := rfl
@[simp] theorem updDev_toCsh : (updDev s n f).toCsh = s.toCsh := rfl
@[simp] theorem updDev_readData : (updDev s n f).readData = s.readData := rfl
@[simp] theorem updDev_readSt : (updDev s n f).readSt = s.readSt := rfl
@[simp] theorem updDev_shown : (updDev s n f).shown = s.shown := rfl
@[simp] theorem updDev_isl : (updDev s n f).isl = s.isl := rfl
@[simp] theorem updDev_mortar : (updDev s n f).mortar = s.mortar := rfl
@[simp] theorem updDev_mem : (updDev s n f).mem = s.mem := rfl
@[simp] theorem updDev_poison : (updDev s n f).poison = s.poison := rfl
@[simp] theorem updDev_eccErr : (updDev s n f).eccErr = s.eccErr := rfl
@[simp] theorem updDev_scrubPos : (updDev s n f).scrubPos = s.scrubPos := rfl
@[simp] theorem updDev_tb : (updDev s n f).tb = s.tb := rfl
@[simp] theorem updDev_drawn : (updDev s n f).drawn = s.drawn := rfl
@[simp] theorem updDev_boot : (updDev s n f).boot = s.boot := rfl
@[simp] theorem updDev_pci : (updDev s n f).pci = s.pci := rfl
@[simp] theorem updDev_dram : (updDev s n f).dram = s.dram := rfl
@[simp] theorem updDev_hod : (updDev s n f).hod = s.hod := rfl
@[simp] theorem updDev_qry : (updDev s n f).qry = s.qry := rfl
@[simp] theorem updDev_ing : (updDev s n f).ing = s.ing := rfl
@[simp] theorem updDev_enl : (updDev s n f).enl = s.enl := rfl
@[simp] theorem updDev_esl : (updDev s n f).esl = s.esl := rfl
@[simp] theorem updDev_cores : (updDev s n f).cores = s.cores := rfl
@[simp] theorem updDev_dpt : (updDev s n f).dpt = s.dpt := rfl
@[simp] theorem updDev_plb : (updDev s n f).plb = s.plb := rfl
@[simp] theorem updDev_key : (updDev s n f).key = s.key := rfl
@[simp] theorem updDev_sfl : (updDev s n f).sfl = s.sfl := rfl
@[simp] theorem updDev_aud : (updDev s n f).aud = s.aud := rfl
@[simp] theorem updDev_seam : (updDev s n f).seam = s.seam := rfl
@[simp] theorem updDev_csh : (updDev s n f).csh = s.csh := rfl
@[simp] theorem updDev_flt : (updDev s n f).flt = s.flt := rfl
@[simp] theorem updDev_jione : (updDev s n f).jione = s.jione := rfl
@[simp] theorem updDev_tap : (updDev s n f).tap = s.tap := rfl
end

/-! updBatch changes esl alone. -/

section
variable (s : State) (id : Nat) (f : Batch → Batch)
@[simp] theorem updBatch_pending : (updBatch s id f).pending = s.pending := rfl
@[simp] theorem updBatch_clock : (updBatch s id f).clock = s.clock := rfl
@[simp] theorem updBatch_regs : (updBatch s id f).regs = s.regs := rfl
@[simp] theorem updBatch_staged : (updBatch s id f).staged = s.staged := rfl
@[simp] theorem updBatch_fypSignals : (updBatch s id f).fypSignals = s.fypSignals := rfl
@[simp] theorem updBatch_toFlt : (updBatch s id f).toFlt = s.toFlt := rfl
@[simp] theorem updBatch_toCsh : (updBatch s id f).toCsh = s.toCsh := rfl
@[simp] theorem updBatch_readData : (updBatch s id f).readData = s.readData := rfl
@[simp] theorem updBatch_readSt : (updBatch s id f).readSt = s.readSt := rfl
@[simp] theorem updBatch_shown : (updBatch s id f).shown = s.shown := rfl
@[simp] theorem updBatch_isl : (updBatch s id f).isl = s.isl := rfl
@[simp] theorem updBatch_mortar : (updBatch s id f).mortar = s.mortar := rfl
@[simp] theorem updBatch_mem : (updBatch s id f).mem = s.mem := rfl
@[simp] theorem updBatch_poison : (updBatch s id f).poison = s.poison := rfl
@[simp] theorem updBatch_eccErr : (updBatch s id f).eccErr = s.eccErr := rfl
@[simp] theorem updBatch_scrubPos : (updBatch s id f).scrubPos = s.scrubPos := rfl
@[simp] theorem updBatch_tb : (updBatch s id f).tb = s.tb := rfl
@[simp] theorem updBatch_drawn : (updBatch s id f).drawn = s.drawn := rfl
@[simp] theorem updBatch_boot : (updBatch s id f).boot = s.boot := rfl
@[simp] theorem updBatch_pci : (updBatch s id f).pci = s.pci := rfl
@[simp] theorem updBatch_dram : (updBatch s id f).dram = s.dram := rfl
@[simp] theorem updBatch_hod : (updBatch s id f).hod = s.hod := rfl
@[simp] theorem updBatch_qry : (updBatch s id f).qry = s.qry := rfl
@[simp] theorem updBatch_ing : (updBatch s id f).ing = s.ing := rfl
@[simp] theorem updBatch_dev : (updBatch s id f).dev = s.dev := rfl
@[simp] theorem updBatch_enl : (updBatch s id f).enl = s.enl := rfl
@[simp] theorem updBatch_cores : (updBatch s id f).cores = s.cores := rfl
@[simp] theorem updBatch_dpt : (updBatch s id f).dpt = s.dpt := rfl
@[simp] theorem updBatch_plb : (updBatch s id f).plb = s.plb := rfl
@[simp] theorem updBatch_key : (updBatch s id f).key = s.key := rfl
@[simp] theorem updBatch_sfl : (updBatch s id f).sfl = s.sfl := rfl
@[simp] theorem updBatch_aud : (updBatch s id f).aud = s.aud := rfl
@[simp] theorem updBatch_seam : (updBatch s id f).seam = s.seam := rfl
@[simp] theorem updBatch_csh : (updBatch s id f).csh = s.csh := rfl
@[simp] theorem updBatch_flt : (updBatch s id f).flt = s.flt := rfl
@[simp] theorem updBatch_jione : (updBatch s id f).jione = s.jione := rfl
@[simp] theorem updBatch_tap : (updBatch s id f).tap = s.tap := rfl
end

/-! setEng changes enl alone. -/

section
variable (s : State) (e : Nat) (f : Option EnlFrame)
@[simp] theorem setEng_pending : (setEng s e f).pending = s.pending := rfl
@[simp] theorem setEng_clock : (setEng s e f).clock = s.clock := rfl
@[simp] theorem setEng_regs : (setEng s e f).regs = s.regs := rfl
@[simp] theorem setEng_staged : (setEng s e f).staged = s.staged := rfl
@[simp] theorem setEng_fypSignals : (setEng s e f).fypSignals = s.fypSignals := rfl
@[simp] theorem setEng_toFlt : (setEng s e f).toFlt = s.toFlt := rfl
@[simp] theorem setEng_toCsh : (setEng s e f).toCsh = s.toCsh := rfl
@[simp] theorem setEng_readData : (setEng s e f).readData = s.readData := rfl
@[simp] theorem setEng_readSt : (setEng s e f).readSt = s.readSt := rfl
@[simp] theorem setEng_shown : (setEng s e f).shown = s.shown := rfl
@[simp] theorem setEng_isl : (setEng s e f).isl = s.isl := rfl
@[simp] theorem setEng_mortar : (setEng s e f).mortar = s.mortar := rfl
@[simp] theorem setEng_mem : (setEng s e f).mem = s.mem := rfl
@[simp] theorem setEng_poison : (setEng s e f).poison = s.poison := rfl
@[simp] theorem setEng_eccErr : (setEng s e f).eccErr = s.eccErr := rfl
@[simp] theorem setEng_scrubPos : (setEng s e f).scrubPos = s.scrubPos := rfl
@[simp] theorem setEng_tb : (setEng s e f).tb = s.tb := rfl
@[simp] theorem setEng_drawn : (setEng s e f).drawn = s.drawn := rfl
@[simp] theorem setEng_boot : (setEng s e f).boot = s.boot := rfl
@[simp] theorem setEng_pci : (setEng s e f).pci = s.pci := rfl
@[simp] theorem setEng_dram : (setEng s e f).dram = s.dram := rfl
@[simp] theorem setEng_hod : (setEng s e f).hod = s.hod := rfl
@[simp] theorem setEng_qry : (setEng s e f).qry = s.qry := rfl
@[simp] theorem setEng_ing : (setEng s e f).ing = s.ing := rfl
@[simp] theorem setEng_dev : (setEng s e f).dev = s.dev := rfl
@[simp] theorem setEng_esl : (setEng s e f).esl = s.esl := rfl
@[simp] theorem setEng_cores : (setEng s e f).cores = s.cores := rfl
@[simp] theorem setEng_dpt : (setEng s e f).dpt = s.dpt := rfl
@[simp] theorem setEng_plb : (setEng s e f).plb = s.plb := rfl
@[simp] theorem setEng_key : (setEng s e f).key = s.key := rfl
@[simp] theorem setEng_sfl : (setEng s e f).sfl = s.sfl := rfl
@[simp] theorem setEng_aud : (setEng s e f).aud = s.aud := rfl
@[simp] theorem setEng_seam : (setEng s e f).seam = s.seam := rfl
@[simp] theorem setEng_csh : (setEng s e f).csh = s.csh := rfl
@[simp] theorem setEng_flt : (setEng s e f).flt = s.flt := rfl
@[simp] theorem setEng_jione : (setEng s e f).jione = s.jione := rfl
@[simp] theorem setEng_tap : (setEng s e f).tap = s.tap := rfl
end

/-! updCore changes cores alone. -/

section
variable (s : State) (n : Nat) (f : Core → Core)
@[simp] theorem updCore_pending : (updCore s n f).pending = s.pending := rfl
@[simp] theorem updCore_clock : (updCore s n f).clock = s.clock := rfl
@[simp] theorem updCore_regs : (updCore s n f).regs = s.regs := rfl
@[simp] theorem updCore_staged : (updCore s n f).staged = s.staged := rfl
@[simp] theorem updCore_fypSignals : (updCore s n f).fypSignals = s.fypSignals := rfl
@[simp] theorem updCore_toFlt : (updCore s n f).toFlt = s.toFlt := rfl
@[simp] theorem updCore_toCsh : (updCore s n f).toCsh = s.toCsh := rfl
@[simp] theorem updCore_readData : (updCore s n f).readData = s.readData := rfl
@[simp] theorem updCore_readSt : (updCore s n f).readSt = s.readSt := rfl
@[simp] theorem updCore_shown : (updCore s n f).shown = s.shown := rfl
@[simp] theorem updCore_isl : (updCore s n f).isl = s.isl := rfl
@[simp] theorem updCore_mortar : (updCore s n f).mortar = s.mortar := rfl
@[simp] theorem updCore_mem : (updCore s n f).mem = s.mem := rfl
@[simp] theorem updCore_poison : (updCore s n f).poison = s.poison := rfl
@[simp] theorem updCore_eccErr : (updCore s n f).eccErr = s.eccErr := rfl
@[simp] theorem updCore_scrubPos : (updCore s n f).scrubPos = s.scrubPos := rfl
@[simp] theorem updCore_tb : (updCore s n f).tb = s.tb := rfl
@[simp] theorem updCore_drawn : (updCore s n f).drawn = s.drawn := rfl
@[simp] theorem updCore_boot : (updCore s n f).boot = s.boot := rfl
@[simp] theorem updCore_pci : (updCore s n f).pci = s.pci := rfl
@[simp] theorem updCore_dram : (updCore s n f).dram = s.dram := rfl
@[simp] theorem updCore_hod : (updCore s n f).hod = s.hod := rfl
@[simp] theorem updCore_qry : (updCore s n f).qry = s.qry := rfl
@[simp] theorem updCore_ing : (updCore s n f).ing = s.ing := rfl
@[simp] theorem updCore_dev : (updCore s n f).dev = s.dev := rfl
@[simp] theorem updCore_enl : (updCore s n f).enl = s.enl := rfl
@[simp] theorem updCore_esl : (updCore s n f).esl = s.esl := rfl
@[simp] theorem updCore_dpt : (updCore s n f).dpt = s.dpt := rfl
@[simp] theorem updCore_plb : (updCore s n f).plb = s.plb := rfl
@[simp] theorem updCore_key : (updCore s n f).key = s.key := rfl
@[simp] theorem updCore_sfl : (updCore s n f).sfl = s.sfl := rfl
@[simp] theorem updCore_aud : (updCore s n f).aud = s.aud := rfl
@[simp] theorem updCore_seam : (updCore s n f).seam = s.seam := rfl
@[simp] theorem updCore_csh : (updCore s n f).csh = s.csh := rfl
@[simp] theorem updCore_flt : (updCore s n f).flt = s.flt := rfl
@[simp] theorem updCore_jione : (updCore s n f).jione = s.jione := rfl
@[simp] theorem updCore_tap : (updCore s n f).tap = s.tap := rfl
end

/-! updDpt changes dpt alone. -/

section
variable (s : State) (f : Dispatcher → Dispatcher)
@[simp] theorem updDpt_pending : (updDpt s f).pending = s.pending := rfl
@[simp] theorem updDpt_clock : (updDpt s f).clock = s.clock := rfl
@[simp] theorem updDpt_regs : (updDpt s f).regs = s.regs := rfl
@[simp] theorem updDpt_staged : (updDpt s f).staged = s.staged := rfl
@[simp] theorem updDpt_fypSignals : (updDpt s f).fypSignals = s.fypSignals := rfl
@[simp] theorem updDpt_toFlt : (updDpt s f).toFlt = s.toFlt := rfl
@[simp] theorem updDpt_toCsh : (updDpt s f).toCsh = s.toCsh := rfl
@[simp] theorem updDpt_readData : (updDpt s f).readData = s.readData := rfl
@[simp] theorem updDpt_readSt : (updDpt s f).readSt = s.readSt := rfl
@[simp] theorem updDpt_shown : (updDpt s f).shown = s.shown := rfl
@[simp] theorem updDpt_isl : (updDpt s f).isl = s.isl := rfl
@[simp] theorem updDpt_mortar : (updDpt s f).mortar = s.mortar := rfl
@[simp] theorem updDpt_mem : (updDpt s f).mem = s.mem := rfl
@[simp] theorem updDpt_poison : (updDpt s f).poison = s.poison := rfl
@[simp] theorem updDpt_eccErr : (updDpt s f).eccErr = s.eccErr := rfl
@[simp] theorem updDpt_scrubPos : (updDpt s f).scrubPos = s.scrubPos := rfl
@[simp] theorem updDpt_tb : (updDpt s f).tb = s.tb := rfl
@[simp] theorem updDpt_drawn : (updDpt s f).drawn = s.drawn := rfl
@[simp] theorem updDpt_boot : (updDpt s f).boot = s.boot := rfl
@[simp] theorem updDpt_pci : (updDpt s f).pci = s.pci := rfl
@[simp] theorem updDpt_dram : (updDpt s f).dram = s.dram := rfl
@[simp] theorem updDpt_hod : (updDpt s f).hod = s.hod := rfl
@[simp] theorem updDpt_qry : (updDpt s f).qry = s.qry := rfl
@[simp] theorem updDpt_ing : (updDpt s f).ing = s.ing := rfl
@[simp] theorem updDpt_dev : (updDpt s f).dev = s.dev := rfl
@[simp] theorem updDpt_enl : (updDpt s f).enl = s.enl := rfl
@[simp] theorem updDpt_esl : (updDpt s f).esl = s.esl := rfl
@[simp] theorem updDpt_cores : (updDpt s f).cores = s.cores := rfl
@[simp] theorem updDpt_plb : (updDpt s f).plb = s.plb := rfl
@[simp] theorem updDpt_key : (updDpt s f).key = s.key := rfl
@[simp] theorem updDpt_sfl : (updDpt s f).sfl = s.sfl := rfl
@[simp] theorem updDpt_aud : (updDpt s f).aud = s.aud := rfl
@[simp] theorem updDpt_seam : (updDpt s f).seam = s.seam := rfl
@[simp] theorem updDpt_csh : (updDpt s f).csh = s.csh := rfl
@[simp] theorem updDpt_flt : (updDpt s f).flt = s.flt := rfl
@[simp] theorem updDpt_jione : (updDpt s f).jione = s.jione := rfl
@[simp] theorem updDpt_tap : (updDpt s f).tap = s.tap := rfl
end

/-! updPlb changes plb alone. -/

section
variable (s : State) (f : Plumb → Plumb)
@[simp] theorem updPlb_pending : (updPlb s f).pending = s.pending := rfl
@[simp] theorem updPlb_clock : (updPlb s f).clock = s.clock := rfl
@[simp] theorem updPlb_regs : (updPlb s f).regs = s.regs := rfl
@[simp] theorem updPlb_staged : (updPlb s f).staged = s.staged := rfl
@[simp] theorem updPlb_fypSignals : (updPlb s f).fypSignals = s.fypSignals := rfl
@[simp] theorem updPlb_toFlt : (updPlb s f).toFlt = s.toFlt := rfl
@[simp] theorem updPlb_toCsh : (updPlb s f).toCsh = s.toCsh := rfl
@[simp] theorem updPlb_readData : (updPlb s f).readData = s.readData := rfl
@[simp] theorem updPlb_readSt : (updPlb s f).readSt = s.readSt := rfl
@[simp] theorem updPlb_shown : (updPlb s f).shown = s.shown := rfl
@[simp] theorem updPlb_isl : (updPlb s f).isl = s.isl := rfl
@[simp] theorem updPlb_mortar : (updPlb s f).mortar = s.mortar := rfl
@[simp] theorem updPlb_mem : (updPlb s f).mem = s.mem := rfl
@[simp] theorem updPlb_poison : (updPlb s f).poison = s.poison := rfl
@[simp] theorem updPlb_eccErr : (updPlb s f).eccErr = s.eccErr := rfl
@[simp] theorem updPlb_scrubPos : (updPlb s f).scrubPos = s.scrubPos := rfl
@[simp] theorem updPlb_tb : (updPlb s f).tb = s.tb := rfl
@[simp] theorem updPlb_drawn : (updPlb s f).drawn = s.drawn := rfl
@[simp] theorem updPlb_boot : (updPlb s f).boot = s.boot := rfl
@[simp] theorem updPlb_pci : (updPlb s f).pci = s.pci := rfl
@[simp] theorem updPlb_dram : (updPlb s f).dram = s.dram := rfl
@[simp] theorem updPlb_hod : (updPlb s f).hod = s.hod := rfl
@[simp] theorem updPlb_qry : (updPlb s f).qry = s.qry := rfl
@[simp] theorem updPlb_ing : (updPlb s f).ing = s.ing := rfl
@[simp] theorem updPlb_dev : (updPlb s f).dev = s.dev := rfl
@[simp] theorem updPlb_enl : (updPlb s f).enl = s.enl := rfl
@[simp] theorem updPlb_esl : (updPlb s f).esl = s.esl := rfl
@[simp] theorem updPlb_cores : (updPlb s f).cores = s.cores := rfl
@[simp] theorem updPlb_dpt : (updPlb s f).dpt = s.dpt := rfl
@[simp] theorem updPlb_key : (updPlb s f).key = s.key := rfl
@[simp] theorem updPlb_sfl : (updPlb s f).sfl = s.sfl := rfl
@[simp] theorem updPlb_aud : (updPlb s f).aud = s.aud := rfl
@[simp] theorem updPlb_seam : (updPlb s f).seam = s.seam := rfl
@[simp] theorem updPlb_csh : (updPlb s f).csh = s.csh := rfl
@[simp] theorem updPlb_flt : (updPlb s f).flt = s.flt := rfl
@[simp] theorem updPlb_jione : (updPlb s f).jione = s.jione := rfl
@[simp] theorem updPlb_tap : (updPlb s f).tap = s.tap := rfl
end

/-! updKey changes key alone. -/

section
variable (s : State) (f : Keystone → Keystone)
@[simp] theorem updKey_pending : (updKey s f).pending = s.pending := rfl
@[simp] theorem updKey_clock : (updKey s f).clock = s.clock := rfl
@[simp] theorem updKey_regs : (updKey s f).regs = s.regs := rfl
@[simp] theorem updKey_staged : (updKey s f).staged = s.staged := rfl
@[simp] theorem updKey_fypSignals : (updKey s f).fypSignals = s.fypSignals := rfl
@[simp] theorem updKey_toFlt : (updKey s f).toFlt = s.toFlt := rfl
@[simp] theorem updKey_toCsh : (updKey s f).toCsh = s.toCsh := rfl
@[simp] theorem updKey_readData : (updKey s f).readData = s.readData := rfl
@[simp] theorem updKey_readSt : (updKey s f).readSt = s.readSt := rfl
@[simp] theorem updKey_shown : (updKey s f).shown = s.shown := rfl
@[simp] theorem updKey_isl : (updKey s f).isl = s.isl := rfl
@[simp] theorem updKey_mortar : (updKey s f).mortar = s.mortar := rfl
@[simp] theorem updKey_mem : (updKey s f).mem = s.mem := rfl
@[simp] theorem updKey_poison : (updKey s f).poison = s.poison := rfl
@[simp] theorem updKey_eccErr : (updKey s f).eccErr = s.eccErr := rfl
@[simp] theorem updKey_scrubPos : (updKey s f).scrubPos = s.scrubPos := rfl
@[simp] theorem updKey_tb : (updKey s f).tb = s.tb := rfl
@[simp] theorem updKey_drawn : (updKey s f).drawn = s.drawn := rfl
@[simp] theorem updKey_boot : (updKey s f).boot = s.boot := rfl
@[simp] theorem updKey_pci : (updKey s f).pci = s.pci := rfl
@[simp] theorem updKey_dram : (updKey s f).dram = s.dram := rfl
@[simp] theorem updKey_hod : (updKey s f).hod = s.hod := rfl
@[simp] theorem updKey_qry : (updKey s f).qry = s.qry := rfl
@[simp] theorem updKey_ing : (updKey s f).ing = s.ing := rfl
@[simp] theorem updKey_dev : (updKey s f).dev = s.dev := rfl
@[simp] theorem updKey_enl : (updKey s f).enl = s.enl := rfl
@[simp] theorem updKey_esl : (updKey s f).esl = s.esl := rfl
@[simp] theorem updKey_cores : (updKey s f).cores = s.cores := rfl
@[simp] theorem updKey_dpt : (updKey s f).dpt = s.dpt := rfl
@[simp] theorem updKey_plb : (updKey s f).plb = s.plb := rfl
@[simp] theorem updKey_sfl : (updKey s f).sfl = s.sfl := rfl
@[simp] theorem updKey_aud : (updKey s f).aud = s.aud := rfl
@[simp] theorem updKey_seam : (updKey s f).seam = s.seam := rfl
@[simp] theorem updKey_csh : (updKey s f).csh = s.csh := rfl
@[simp] theorem updKey_flt : (updKey s f).flt = s.flt := rfl
@[simp] theorem updKey_jione : (updKey s f).jione = s.jione := rfl
@[simp] theorem updKey_tap : (updKey s f).tap = s.tap := rfl
end

/-! updSfl changes sfl alone. -/

section
variable (s : State) (f : Safelight → Safelight)
@[simp] theorem updSfl_pending : (updSfl s f).pending = s.pending := rfl
@[simp] theorem updSfl_clock : (updSfl s f).clock = s.clock := rfl
@[simp] theorem updSfl_regs : (updSfl s f).regs = s.regs := rfl
@[simp] theorem updSfl_staged : (updSfl s f).staged = s.staged := rfl
@[simp] theorem updSfl_fypSignals : (updSfl s f).fypSignals = s.fypSignals := rfl
@[simp] theorem updSfl_toFlt : (updSfl s f).toFlt = s.toFlt := rfl
@[simp] theorem updSfl_toCsh : (updSfl s f).toCsh = s.toCsh := rfl
@[simp] theorem updSfl_readData : (updSfl s f).readData = s.readData := rfl
@[simp] theorem updSfl_readSt : (updSfl s f).readSt = s.readSt := rfl
@[simp] theorem updSfl_shown : (updSfl s f).shown = s.shown := rfl
@[simp] theorem updSfl_isl : (updSfl s f).isl = s.isl := rfl
@[simp] theorem updSfl_mortar : (updSfl s f).mortar = s.mortar := rfl
@[simp] theorem updSfl_mem : (updSfl s f).mem = s.mem := rfl
@[simp] theorem updSfl_poison : (updSfl s f).poison = s.poison := rfl
@[simp] theorem updSfl_eccErr : (updSfl s f).eccErr = s.eccErr := rfl
@[simp] theorem updSfl_scrubPos : (updSfl s f).scrubPos = s.scrubPos := rfl
@[simp] theorem updSfl_tb : (updSfl s f).tb = s.tb := rfl
@[simp] theorem updSfl_drawn : (updSfl s f).drawn = s.drawn := rfl
@[simp] theorem updSfl_boot : (updSfl s f).boot = s.boot := rfl
@[simp] theorem updSfl_pci : (updSfl s f).pci = s.pci := rfl
@[simp] theorem updSfl_dram : (updSfl s f).dram = s.dram := rfl
@[simp] theorem updSfl_hod : (updSfl s f).hod = s.hod := rfl
@[simp] theorem updSfl_qry : (updSfl s f).qry = s.qry := rfl
@[simp] theorem updSfl_ing : (updSfl s f).ing = s.ing := rfl
@[simp] theorem updSfl_dev : (updSfl s f).dev = s.dev := rfl
@[simp] theorem updSfl_enl : (updSfl s f).enl = s.enl := rfl
@[simp] theorem updSfl_esl : (updSfl s f).esl = s.esl := rfl
@[simp] theorem updSfl_cores : (updSfl s f).cores = s.cores := rfl
@[simp] theorem updSfl_dpt : (updSfl s f).dpt = s.dpt := rfl
@[simp] theorem updSfl_plb : (updSfl s f).plb = s.plb := rfl
@[simp] theorem updSfl_key : (updSfl s f).key = s.key := rfl
@[simp] theorem updSfl_aud : (updSfl s f).aud = s.aud := rfl
@[simp] theorem updSfl_seam : (updSfl s f).seam = s.seam := rfl
@[simp] theorem updSfl_csh : (updSfl s f).csh = s.csh := rfl
@[simp] theorem updSfl_flt : (updSfl s f).flt = s.flt := rfl
@[simp] theorem updSfl_jione : (updSfl s f).jione = s.jione := rfl
@[simp] theorem updSfl_tap : (updSfl s f).tap = s.tap := rfl
end

/-! updAud changes aud alone. -/

section
variable (s : State) (f : Audio → Audio)
@[simp] theorem updAud_pending : (updAud s f).pending = s.pending := rfl
@[simp] theorem updAud_clock : (updAud s f).clock = s.clock := rfl
@[simp] theorem updAud_regs : (updAud s f).regs = s.regs := rfl
@[simp] theorem updAud_staged : (updAud s f).staged = s.staged := rfl
@[simp] theorem updAud_fypSignals : (updAud s f).fypSignals = s.fypSignals := rfl
@[simp] theorem updAud_toFlt : (updAud s f).toFlt = s.toFlt := rfl
@[simp] theorem updAud_toCsh : (updAud s f).toCsh = s.toCsh := rfl
@[simp] theorem updAud_readData : (updAud s f).readData = s.readData := rfl
@[simp] theorem updAud_readSt : (updAud s f).readSt = s.readSt := rfl
@[simp] theorem updAud_shown : (updAud s f).shown = s.shown := rfl
@[simp] theorem updAud_isl : (updAud s f).isl = s.isl := rfl
@[simp] theorem updAud_mortar : (updAud s f).mortar = s.mortar := rfl
@[simp] theorem updAud_mem : (updAud s f).mem = s.mem := rfl
@[simp] theorem updAud_poison : (updAud s f).poison = s.poison := rfl
@[simp] theorem updAud_eccErr : (updAud s f).eccErr = s.eccErr := rfl
@[simp] theorem updAud_scrubPos : (updAud s f).scrubPos = s.scrubPos := rfl
@[simp] theorem updAud_tb : (updAud s f).tb = s.tb := rfl
@[simp] theorem updAud_drawn : (updAud s f).drawn = s.drawn := rfl
@[simp] theorem updAud_boot : (updAud s f).boot = s.boot := rfl
@[simp] theorem updAud_pci : (updAud s f).pci = s.pci := rfl
@[simp] theorem updAud_dram : (updAud s f).dram = s.dram := rfl
@[simp] theorem updAud_hod : (updAud s f).hod = s.hod := rfl
@[simp] theorem updAud_qry : (updAud s f).qry = s.qry := rfl
@[simp] theorem updAud_ing : (updAud s f).ing = s.ing := rfl
@[simp] theorem updAud_dev : (updAud s f).dev = s.dev := rfl
@[simp] theorem updAud_enl : (updAud s f).enl = s.enl := rfl
@[simp] theorem updAud_esl : (updAud s f).esl = s.esl := rfl
@[simp] theorem updAud_cores : (updAud s f).cores = s.cores := rfl
@[simp] theorem updAud_dpt : (updAud s f).dpt = s.dpt := rfl
@[simp] theorem updAud_plb : (updAud s f).plb = s.plb := rfl
@[simp] theorem updAud_key : (updAud s f).key = s.key := rfl
@[simp] theorem updAud_sfl : (updAud s f).sfl = s.sfl := rfl
@[simp] theorem updAud_seam : (updAud s f).seam = s.seam := rfl
@[simp] theorem updAud_csh : (updAud s f).csh = s.csh := rfl
@[simp] theorem updAud_flt : (updAud s f).flt = s.flt := rfl
@[simp] theorem updAud_jione : (updAud s f).jione = s.jione := rfl
@[simp] theorem updAud_tap : (updAud s f).tap = s.tap := rfl
end

/-! updCsh changes csh alone. -/

section
variable (s : State) (f : Csh → Csh)
@[simp] theorem updCsh_pending : (updCsh s f).pending = s.pending := rfl
@[simp] theorem updCsh_clock : (updCsh s f).clock = s.clock := rfl
@[simp] theorem updCsh_regs : (updCsh s f).regs = s.regs := rfl
@[simp] theorem updCsh_staged : (updCsh s f).staged = s.staged := rfl
@[simp] theorem updCsh_fypSignals : (updCsh s f).fypSignals = s.fypSignals := rfl
@[simp] theorem updCsh_toFlt : (updCsh s f).toFlt = s.toFlt := rfl
@[simp] theorem updCsh_toCsh : (updCsh s f).toCsh = s.toCsh := rfl
@[simp] theorem updCsh_readData : (updCsh s f).readData = s.readData := rfl
@[simp] theorem updCsh_readSt : (updCsh s f).readSt = s.readSt := rfl
@[simp] theorem updCsh_shown : (updCsh s f).shown = s.shown := rfl
@[simp] theorem updCsh_isl : (updCsh s f).isl = s.isl := rfl
@[simp] theorem updCsh_mortar : (updCsh s f).mortar = s.mortar := rfl
@[simp] theorem updCsh_mem : (updCsh s f).mem = s.mem := rfl
@[simp] theorem updCsh_poison : (updCsh s f).poison = s.poison := rfl
@[simp] theorem updCsh_eccErr : (updCsh s f).eccErr = s.eccErr := rfl
@[simp] theorem updCsh_scrubPos : (updCsh s f).scrubPos = s.scrubPos := rfl
@[simp] theorem updCsh_tb : (updCsh s f).tb = s.tb := rfl
@[simp] theorem updCsh_drawn : (updCsh s f).drawn = s.drawn := rfl
@[simp] theorem updCsh_boot : (updCsh s f).boot = s.boot := rfl
@[simp] theorem updCsh_pci : (updCsh s f).pci = s.pci := rfl
@[simp] theorem updCsh_dram : (updCsh s f).dram = s.dram := rfl
@[simp] theorem updCsh_hod : (updCsh s f).hod = s.hod := rfl
@[simp] theorem updCsh_qry : (updCsh s f).qry = s.qry := rfl
@[simp] theorem updCsh_ing : (updCsh s f).ing = s.ing := rfl
@[simp] theorem updCsh_dev : (updCsh s f).dev = s.dev := rfl
@[simp] theorem updCsh_enl : (updCsh s f).enl = s.enl := rfl
@[simp] theorem updCsh_esl : (updCsh s f).esl = s.esl := rfl
@[simp] theorem updCsh_cores : (updCsh s f).cores = s.cores := rfl
@[simp] theorem updCsh_dpt : (updCsh s f).dpt = s.dpt := rfl
@[simp] theorem updCsh_plb : (updCsh s f).plb = s.plb := rfl
@[simp] theorem updCsh_key : (updCsh s f).key = s.key := rfl
@[simp] theorem updCsh_sfl : (updCsh s f).sfl = s.sfl := rfl
@[simp] theorem updCsh_aud : (updCsh s f).aud = s.aud := rfl
@[simp] theorem updCsh_seam : (updCsh s f).seam = s.seam := rfl
@[simp] theorem updCsh_flt : (updCsh s f).flt = s.flt := rfl
@[simp] theorem updCsh_jione : (updCsh s f).jione = s.jione := rfl
@[simp] theorem updCsh_tap : (updCsh s f).tap = s.tap := rfl
end

/-! updMod changes jione alone. -/

section
variable (s : State) (f : Module → Module)
@[simp] theorem updMod_pending : (updMod s f).pending = s.pending := rfl
@[simp] theorem updMod_clock : (updMod s f).clock = s.clock := rfl
@[simp] theorem updMod_regs : (updMod s f).regs = s.regs := rfl
@[simp] theorem updMod_staged : (updMod s f).staged = s.staged := rfl
@[simp] theorem updMod_fypSignals : (updMod s f).fypSignals = s.fypSignals := rfl
@[simp] theorem updMod_toFlt : (updMod s f).toFlt = s.toFlt := rfl
@[simp] theorem updMod_toCsh : (updMod s f).toCsh = s.toCsh := rfl
@[simp] theorem updMod_readData : (updMod s f).readData = s.readData := rfl
@[simp] theorem updMod_readSt : (updMod s f).readSt = s.readSt := rfl
@[simp] theorem updMod_shown : (updMod s f).shown = s.shown := rfl
@[simp] theorem updMod_isl : (updMod s f).isl = s.isl := rfl
@[simp] theorem updMod_mortar : (updMod s f).mortar = s.mortar := rfl
@[simp] theorem updMod_mem : (updMod s f).mem = s.mem := rfl
@[simp] theorem updMod_poison : (updMod s f).poison = s.poison := rfl
@[simp] theorem updMod_eccErr : (updMod s f).eccErr = s.eccErr := rfl
@[simp] theorem updMod_scrubPos : (updMod s f).scrubPos = s.scrubPos := rfl
@[simp] theorem updMod_tb : (updMod s f).tb = s.tb := rfl
@[simp] theorem updMod_drawn : (updMod s f).drawn = s.drawn := rfl
@[simp] theorem updMod_boot : (updMod s f).boot = s.boot := rfl
@[simp] theorem updMod_pci : (updMod s f).pci = s.pci := rfl
@[simp] theorem updMod_dram : (updMod s f).dram = s.dram := rfl
@[simp] theorem updMod_hod : (updMod s f).hod = s.hod := rfl
@[simp] theorem updMod_qry : (updMod s f).qry = s.qry := rfl
@[simp] theorem updMod_ing : (updMod s f).ing = s.ing := rfl
@[simp] theorem updMod_dev : (updMod s f).dev = s.dev := rfl
@[simp] theorem updMod_enl : (updMod s f).enl = s.enl := rfl
@[simp] theorem updMod_esl : (updMod s f).esl = s.esl := rfl
@[simp] theorem updMod_cores : (updMod s f).cores = s.cores := rfl
@[simp] theorem updMod_dpt : (updMod s f).dpt = s.dpt := rfl
@[simp] theorem updMod_plb : (updMod s f).plb = s.plb := rfl
@[simp] theorem updMod_key : (updMod s f).key = s.key := rfl
@[simp] theorem updMod_sfl : (updMod s f).sfl = s.sfl := rfl
@[simp] theorem updMod_aud : (updMod s f).aud = s.aud := rfl
@[simp] theorem updMod_seam : (updMod s f).seam = s.seam := rfl
@[simp] theorem updMod_csh : (updMod s f).csh = s.csh := rfl
@[simp] theorem updMod_flt : (updMod s f).flt = s.flt := rfl
@[simp] theorem updMod_tap : (updMod s f).tap = s.tap := rfl
end

/-! updIo changes mortar alone. -/

section
variable (s : State) (f : Io → Io)
@[simp] theorem updIo_pending : (updIo s f).pending = s.pending := rfl
@[simp] theorem updIo_clock : (updIo s f).clock = s.clock := rfl
@[simp] theorem updIo_regs : (updIo s f).regs = s.regs := rfl
@[simp] theorem updIo_staged : (updIo s f).staged = s.staged := rfl
@[simp] theorem updIo_fypSignals : (updIo s f).fypSignals = s.fypSignals := rfl
@[simp] theorem updIo_toFlt : (updIo s f).toFlt = s.toFlt := rfl
@[simp] theorem updIo_toCsh : (updIo s f).toCsh = s.toCsh := rfl
@[simp] theorem updIo_readData : (updIo s f).readData = s.readData := rfl
@[simp] theorem updIo_readSt : (updIo s f).readSt = s.readSt := rfl
@[simp] theorem updIo_shown : (updIo s f).shown = s.shown := rfl
@[simp] theorem updIo_isl : (updIo s f).isl = s.isl := rfl
@[simp] theorem updIo_mem : (updIo s f).mem = s.mem := rfl
@[simp] theorem updIo_poison : (updIo s f).poison = s.poison := rfl
@[simp] theorem updIo_eccErr : (updIo s f).eccErr = s.eccErr := rfl
@[simp] theorem updIo_scrubPos : (updIo s f).scrubPos = s.scrubPos := rfl
@[simp] theorem updIo_tb : (updIo s f).tb = s.tb := rfl
@[simp] theorem updIo_drawn : (updIo s f).drawn = s.drawn := rfl
@[simp] theorem updIo_boot : (updIo s f).boot = s.boot := rfl
@[simp] theorem updIo_pci : (updIo s f).pci = s.pci := rfl
@[simp] theorem updIo_dram : (updIo s f).dram = s.dram := rfl
@[simp] theorem updIo_hod : (updIo s f).hod = s.hod := rfl
@[simp] theorem updIo_qry : (updIo s f).qry = s.qry := rfl
@[simp] theorem updIo_ing : (updIo s f).ing = s.ing := rfl
@[simp] theorem updIo_dev : (updIo s f).dev = s.dev := rfl
@[simp] theorem updIo_enl : (updIo s f).enl = s.enl := rfl
@[simp] theorem updIo_esl : (updIo s f).esl = s.esl := rfl
@[simp] theorem updIo_cores : (updIo s f).cores = s.cores := rfl
@[simp] theorem updIo_dpt : (updIo s f).dpt = s.dpt := rfl
@[simp] theorem updIo_plb : (updIo s f).plb = s.plb := rfl
@[simp] theorem updIo_key : (updIo s f).key = s.key := rfl
@[simp] theorem updIo_sfl : (updIo s f).sfl = s.sfl := rfl
@[simp] theorem updIo_aud : (updIo s f).aud = s.aud := rfl
@[simp] theorem updIo_seam : (updIo s f).seam = s.seam := rfl
@[simp] theorem updIo_csh : (updIo s f).csh = s.csh := rfl
@[simp] theorem updIo_flt : (updIo s f).flt = s.flt := rfl
@[simp] theorem updIo_jione : (updIo s f).jione = s.jione := rfl
@[simp] theorem updIo_tap : (updIo s f).tap = s.tap := rfl
end

/-! updQry changes qry alone. -/

section
variable (s : State) (f : Quarry → Quarry)
@[simp] theorem updQry_pending : (updQry s f).pending = s.pending := rfl
@[simp] theorem updQry_clock : (updQry s f).clock = s.clock := rfl
@[simp] theorem updQry_regs : (updQry s f).regs = s.regs := rfl
@[simp] theorem updQry_staged : (updQry s f).staged = s.staged := rfl
@[simp] theorem updQry_fypSignals : (updQry s f).fypSignals = s.fypSignals := rfl
@[simp] theorem updQry_toFlt : (updQry s f).toFlt = s.toFlt := rfl
@[simp] theorem updQry_toCsh : (updQry s f).toCsh = s.toCsh := rfl
@[simp] theorem updQry_readData : (updQry s f).readData = s.readData := rfl
@[simp] theorem updQry_readSt : (updQry s f).readSt = s.readSt := rfl
@[simp] theorem updQry_shown : (updQry s f).shown = s.shown := rfl
@[simp] theorem updQry_isl : (updQry s f).isl = s.isl := rfl
@[simp] theorem updQry_mortar : (updQry s f).mortar = s.mortar := rfl
@[simp] theorem updQry_mem : (updQry s f).mem = s.mem := rfl
@[simp] theorem updQry_poison : (updQry s f).poison = s.poison := rfl
@[simp] theorem updQry_eccErr : (updQry s f).eccErr = s.eccErr := rfl
@[simp] theorem updQry_scrubPos : (updQry s f).scrubPos = s.scrubPos := rfl
@[simp] theorem updQry_tb : (updQry s f).tb = s.tb := rfl
@[simp] theorem updQry_drawn : (updQry s f).drawn = s.drawn := rfl
@[simp] theorem updQry_boot : (updQry s f).boot = s.boot := rfl
@[simp] theorem updQry_pci : (updQry s f).pci = s.pci := rfl
@[simp] theorem updQry_dram : (updQry s f).dram = s.dram := rfl
@[simp] theorem updQry_hod : (updQry s f).hod = s.hod := rfl
@[simp] theorem updQry_ing : (updQry s f).ing = s.ing := rfl
@[simp] theorem updQry_dev : (updQry s f).dev = s.dev := rfl
@[simp] theorem updQry_enl : (updQry s f).enl = s.enl := rfl
@[simp] theorem updQry_esl : (updQry s f).esl = s.esl := rfl
@[simp] theorem updQry_cores : (updQry s f).cores = s.cores := rfl
@[simp] theorem updQry_dpt : (updQry s f).dpt = s.dpt := rfl
@[simp] theorem updQry_plb : (updQry s f).plb = s.plb := rfl
@[simp] theorem updQry_key : (updQry s f).key = s.key := rfl
@[simp] theorem updQry_sfl : (updQry s f).sfl = s.sfl := rfl
@[simp] theorem updQry_aud : (updQry s f).aud = s.aud := rfl
@[simp] theorem updQry_seam : (updQry s f).seam = s.seam := rfl
@[simp] theorem updQry_csh : (updQry s f).csh = s.csh := rfl
@[simp] theorem updQry_flt : (updQry s f).flt = s.flt := rfl
@[simp] theorem updQry_jione : (updQry s f).jione = s.jione := rfl
@[simp] theorem updQry_tap : (updQry s f).tap = s.tap := rfl
end

/-! updSlots changes hod alone. -/

section
variable (s : State) (f : SMap SlotPush → SMap SlotPush)
@[simp] theorem updSlots_pending : (updSlots s f).pending = s.pending := rfl
@[simp] theorem updSlots_clock : (updSlots s f).clock = s.clock := rfl
@[simp] theorem updSlots_regs : (updSlots s f).regs = s.regs := rfl
@[simp] theorem updSlots_staged : (updSlots s f).staged = s.staged := rfl
@[simp] theorem updSlots_fypSignals : (updSlots s f).fypSignals = s.fypSignals := rfl
@[simp] theorem updSlots_toFlt : (updSlots s f).toFlt = s.toFlt := rfl
@[simp] theorem updSlots_toCsh : (updSlots s f).toCsh = s.toCsh := rfl
@[simp] theorem updSlots_readData : (updSlots s f).readData = s.readData := rfl
@[simp] theorem updSlots_readSt : (updSlots s f).readSt = s.readSt := rfl
@[simp] theorem updSlots_shown : (updSlots s f).shown = s.shown := rfl
@[simp] theorem updSlots_isl : (updSlots s f).isl = s.isl := rfl
@[simp] theorem updSlots_mortar : (updSlots s f).mortar = s.mortar := rfl
@[simp] theorem updSlots_mem : (updSlots s f).mem = s.mem := rfl
@[simp] theorem updSlots_poison : (updSlots s f).poison = s.poison := rfl
@[simp] theorem updSlots_eccErr : (updSlots s f).eccErr = s.eccErr := rfl
@[simp] theorem updSlots_scrubPos : (updSlots s f).scrubPos = s.scrubPos := rfl
@[simp] theorem updSlots_tb : (updSlots s f).tb = s.tb := rfl
@[simp] theorem updSlots_drawn : (updSlots s f).drawn = s.drawn := rfl
@[simp] theorem updSlots_boot : (updSlots s f).boot = s.boot := rfl
@[simp] theorem updSlots_pci : (updSlots s f).pci = s.pci := rfl
@[simp] theorem updSlots_dram : (updSlots s f).dram = s.dram := rfl
@[simp] theorem updSlots_qry : (updSlots s f).qry = s.qry := rfl
@[simp] theorem updSlots_ing : (updSlots s f).ing = s.ing := rfl
@[simp] theorem updSlots_dev : (updSlots s f).dev = s.dev := rfl
@[simp] theorem updSlots_enl : (updSlots s f).enl = s.enl := rfl
@[simp] theorem updSlots_esl : (updSlots s f).esl = s.esl := rfl
@[simp] theorem updSlots_cores : (updSlots s f).cores = s.cores := rfl
@[simp] theorem updSlots_dpt : (updSlots s f).dpt = s.dpt := rfl
@[simp] theorem updSlots_plb : (updSlots s f).plb = s.plb := rfl
@[simp] theorem updSlots_key : (updSlots s f).key = s.key := rfl
@[simp] theorem updSlots_sfl : (updSlots s f).sfl = s.sfl := rfl
@[simp] theorem updSlots_aud : (updSlots s f).aud = s.aud := rfl
@[simp] theorem updSlots_seam : (updSlots s f).seam = s.seam := rfl
@[simp] theorem updSlots_csh : (updSlots s f).csh = s.csh := rfl
@[simp] theorem updSlots_flt : (updSlots s f).flt = s.flt := rfl
@[simp] theorem updSlots_jione : (updSlots s f).jione = s.jione := rfl
@[simp] theorem updSlots_tap : (updSlots s f).tap = s.tap := rfl
end

/-! updView changes dpt alone. -/

section
variable (s : State) (p : Nat) (f : PartView → PartView)
@[simp] theorem updView_pending : (updView s p f).pending = s.pending := rfl
@[simp] theorem updView_clock : (updView s p f).clock = s.clock := rfl
@[simp] theorem updView_regs : (updView s p f).regs = s.regs := rfl
@[simp] theorem updView_staged : (updView s p f).staged = s.staged := rfl
@[simp] theorem updView_fypSignals : (updView s p f).fypSignals = s.fypSignals := rfl
@[simp] theorem updView_toFlt : (updView s p f).toFlt = s.toFlt := rfl
@[simp] theorem updView_toCsh : (updView s p f).toCsh = s.toCsh := rfl
@[simp] theorem updView_readData : (updView s p f).readData = s.readData := rfl
@[simp] theorem updView_readSt : (updView s p f).readSt = s.readSt := rfl
@[simp] theorem updView_shown : (updView s p f).shown = s.shown := rfl
@[simp] theorem updView_isl : (updView s p f).isl = s.isl := rfl
@[simp] theorem updView_mortar : (updView s p f).mortar = s.mortar := rfl
@[simp] theorem updView_mem : (updView s p f).mem = s.mem := rfl
@[simp] theorem updView_poison : (updView s p f).poison = s.poison := rfl
@[simp] theorem updView_eccErr : (updView s p f).eccErr = s.eccErr := rfl
@[simp] theorem updView_scrubPos : (updView s p f).scrubPos = s.scrubPos := rfl
@[simp] theorem updView_tb : (updView s p f).tb = s.tb := rfl
@[simp] theorem updView_drawn : (updView s p f).drawn = s.drawn := rfl
@[simp] theorem updView_boot : (updView s p f).boot = s.boot := rfl
@[simp] theorem updView_pci : (updView s p f).pci = s.pci := rfl
@[simp] theorem updView_dram : (updView s p f).dram = s.dram := rfl
@[simp] theorem updView_hod : (updView s p f).hod = s.hod := rfl
@[simp] theorem updView_qry : (updView s p f).qry = s.qry := rfl
@[simp] theorem updView_ing : (updView s p f).ing = s.ing := rfl
@[simp] theorem updView_dev : (updView s p f).dev = s.dev := rfl
@[simp] theorem updView_enl : (updView s p f).enl = s.enl := rfl
@[simp] theorem updView_esl : (updView s p f).esl = s.esl := rfl
@[simp] theorem updView_cores : (updView s p f).cores = s.cores := rfl
@[simp] theorem updView_plb : (updView s p f).plb = s.plb := rfl
@[simp] theorem updView_key : (updView s p f).key = s.key := rfl
@[simp] theorem updView_sfl : (updView s p f).sfl = s.sfl := rfl
@[simp] theorem updView_aud : (updView s p f).aud = s.aud := rfl
@[simp] theorem updView_seam : (updView s p f).seam = s.seam := rfl
@[simp] theorem updView_csh : (updView s p f).csh = s.csh := rfl
@[simp] theorem updView_flt : (updView s p f).flt = s.flt := rfl
@[simp] theorem updView_jione : (updView s p f).jione = s.jione := rfl
@[simp] theorem updView_tap : (updView s p f).tap = s.tap := rfl
end

/-! updCtx changes key alone. -/

section
variable (s : State) (c : Nat) (f : KeyCtx → KeyCtx)
@[simp] theorem updCtx_pending : (updCtx s c f).pending = s.pending := rfl
@[simp] theorem updCtx_clock : (updCtx s c f).clock = s.clock := rfl
@[simp] theorem updCtx_regs : (updCtx s c f).regs = s.regs := rfl
@[simp] theorem updCtx_staged : (updCtx s c f).staged = s.staged := rfl
@[simp] theorem updCtx_fypSignals : (updCtx s c f).fypSignals = s.fypSignals := rfl
@[simp] theorem updCtx_toFlt : (updCtx s c f).toFlt = s.toFlt := rfl
@[simp] theorem updCtx_toCsh : (updCtx s c f).toCsh = s.toCsh := rfl
@[simp] theorem updCtx_readData : (updCtx s c f).readData = s.readData := rfl
@[simp] theorem updCtx_readSt : (updCtx s c f).readSt = s.readSt := rfl
@[simp] theorem updCtx_shown : (updCtx s c f).shown = s.shown := rfl
@[simp] theorem updCtx_isl : (updCtx s c f).isl = s.isl := rfl
@[simp] theorem updCtx_mortar : (updCtx s c f).mortar = s.mortar := rfl
@[simp] theorem updCtx_mem : (updCtx s c f).mem = s.mem := rfl
@[simp] theorem updCtx_poison : (updCtx s c f).poison = s.poison := rfl
@[simp] theorem updCtx_eccErr : (updCtx s c f).eccErr = s.eccErr := rfl
@[simp] theorem updCtx_scrubPos : (updCtx s c f).scrubPos = s.scrubPos := rfl
@[simp] theorem updCtx_tb : (updCtx s c f).tb = s.tb := rfl
@[simp] theorem updCtx_drawn : (updCtx s c f).drawn = s.drawn := rfl
@[simp] theorem updCtx_boot : (updCtx s c f).boot = s.boot := rfl
@[simp] theorem updCtx_pci : (updCtx s c f).pci = s.pci := rfl
@[simp] theorem updCtx_dram : (updCtx s c f).dram = s.dram := rfl
@[simp] theorem updCtx_hod : (updCtx s c f).hod = s.hod := rfl
@[simp] theorem updCtx_qry : (updCtx s c f).qry = s.qry := rfl
@[simp] theorem updCtx_ing : (updCtx s c f).ing = s.ing := rfl
@[simp] theorem updCtx_dev : (updCtx s c f).dev = s.dev := rfl
@[simp] theorem updCtx_enl : (updCtx s c f).enl = s.enl := rfl
@[simp] theorem updCtx_esl : (updCtx s c f).esl = s.esl := rfl
@[simp] theorem updCtx_cores : (updCtx s c f).cores = s.cores := rfl
@[simp] theorem updCtx_dpt : (updCtx s c f).dpt = s.dpt := rfl
@[simp] theorem updCtx_plb : (updCtx s c f).plb = s.plb := rfl
@[simp] theorem updCtx_sfl : (updCtx s c f).sfl = s.sfl := rfl
@[simp] theorem updCtx_aud : (updCtx s c f).aud = s.aud := rfl
@[simp] theorem updCtx_seam : (updCtx s c f).seam = s.seam := rfl
@[simp] theorem updCtx_csh : (updCtx s c f).csh = s.csh := rfl
@[simp] theorem updCtx_flt : (updCtx s c f).flt = s.flt := rfl
@[simp] theorem updCtx_jione : (updCtx s c f).jione = s.jione := rfl
@[simp] theorem updCtx_tap : (updCtx s c f).tap = s.tap := rfl
end

/-! setWord changes regs alone. -/

section
variable (s : State) (off w : Nat)
@[simp] theorem setWord_pending : (setWord s off w).pending = s.pending := rfl
@[simp] theorem setWord_clock : (setWord s off w).clock = s.clock := rfl
@[simp] theorem setWord_staged : (setWord s off w).staged = s.staged := rfl
@[simp] theorem setWord_fypSignals : (setWord s off w).fypSignals = s.fypSignals := rfl
@[simp] theorem setWord_toFlt : (setWord s off w).toFlt = s.toFlt := rfl
@[simp] theorem setWord_toCsh : (setWord s off w).toCsh = s.toCsh := rfl
@[simp] theorem setWord_readData : (setWord s off w).readData = s.readData := rfl
@[simp] theorem setWord_readSt : (setWord s off w).readSt = s.readSt := rfl
@[simp] theorem setWord_shown : (setWord s off w).shown = s.shown := rfl
@[simp] theorem setWord_isl : (setWord s off w).isl = s.isl := rfl
@[simp] theorem setWord_mortar : (setWord s off w).mortar = s.mortar := rfl
@[simp] theorem setWord_mem : (setWord s off w).mem = s.mem := rfl
@[simp] theorem setWord_poison : (setWord s off w).poison = s.poison := rfl
@[simp] theorem setWord_eccErr : (setWord s off w).eccErr = s.eccErr := rfl
@[simp] theorem setWord_scrubPos : (setWord s off w).scrubPos = s.scrubPos := rfl
@[simp] theorem setWord_tb : (setWord s off w).tb = s.tb := rfl
@[simp] theorem setWord_drawn : (setWord s off w).drawn = s.drawn := rfl
@[simp] theorem setWord_boot : (setWord s off w).boot = s.boot := rfl
@[simp] theorem setWord_pci : (setWord s off w).pci = s.pci := rfl
@[simp] theorem setWord_dram : (setWord s off w).dram = s.dram := rfl
@[simp] theorem setWord_hod : (setWord s off w).hod = s.hod := rfl
@[simp] theorem setWord_qry : (setWord s off w).qry = s.qry := rfl
@[simp] theorem setWord_ing : (setWord s off w).ing = s.ing := rfl
@[simp] theorem setWord_dev : (setWord s off w).dev = s.dev := rfl
@[simp] theorem setWord_enl : (setWord s off w).enl = s.enl := rfl
@[simp] theorem setWord_esl : (setWord s off w).esl = s.esl := rfl
@[simp] theorem setWord_cores : (setWord s off w).cores = s.cores := rfl
@[simp] theorem setWord_dpt : (setWord s off w).dpt = s.dpt := rfl
@[simp] theorem setWord_plb : (setWord s off w).plb = s.plb := rfl
@[simp] theorem setWord_key : (setWord s off w).key = s.key := rfl
@[simp] theorem setWord_sfl : (setWord s off w).sfl = s.sfl := rfl
@[simp] theorem setWord_aud : (setWord s off w).aud = s.aud := rfl
@[simp] theorem setWord_seam : (setWord s off w).seam = s.seam := rfl
@[simp] theorem setWord_csh : (setWord s off w).csh = s.csh := rfl
@[simp] theorem setWord_flt : (setWord s off w).flt = s.flt := rfl
@[simp] theorem setWord_jione : (setWord s off w).jione = s.jione := rfl
@[simp] theorem setWord_tap : (setWord s off w).tap = s.tap := rfl
end

end Sys2Proof.Laws
end

