-- ==== Sys2Proof/Laws/Regs.lean ====
section
/-!
SUPPORT. Laws/Regs.lean: bit fields and registers: a read after a write of a field, of a bit and of a whole register; and what an event or a fault of a page
may change.
-/
namespace Sys2Proof.Laws
open Sys2Proof Sys2Proof.Machine

/-! Bit fields. -/

/-- A field is replaced bit by bit, and every other bit stays. -/
theorem testBit_putBits (v hi lo x i : Nat) :
    (putBits v hi lo x).testBit i = if lo ≤ i ∧ i ≤ hi then x.testBit (i - lo) else v.testBit i := by
  obtain ⟨w, hw⟩ : ∃ w, w = hi + 1 - lo := ⟨_, rfl⟩
  have hv : v = 2 ^ lo * (2 ^ w * (v / 2 ^ lo / 2 ^ w) + v / 2 ^ lo % 2 ^ w) + v % 2 ^ lo := by
    rw [Nat.div_add_mod, Nat.div_add_mod]
  have hL : v % 2 ^ lo < 2 ^ lo := Nat.mod_lt _ (Nat.two_pow_pos _)
  have hX : x % 2 ^ w < 2 ^ w := Nat.mod_lt _ (Nat.two_pow_pos _)
  have hM : v / 2 ^ lo % 2 ^ w < 2 ^ w := Nat.mod_lt _ (Nat.two_pow_pos _)
  have hp : putBits v hi lo x = 2 ^ lo * (2 ^ w * (v / 2 ^ lo / 2 ^ w) + x % 2 ^ w) + v % 2 ^ lo := by
    unfold putBits bits
    rw [← hw, Nat.shiftLeft_eq, Nat.shiftLeft_eq, Nat.shiftRight_eq_div_pow]
    generalize x % 2 ^ w = X
    generalize v / 2 ^ lo / 2 ^ w = H at hv
    generalize v / 2 ^ lo % 2 ^ w = M at hv
    generalize v % 2 ^ lo = L at hv
    rw [hv, Nat.mul_add, Nat.mul_add, Nat.mul_comm M, Nat.mul_comm X]
    omega
  rw [hp, Nat.testBit_two_pow_mul_add _ hL, Nat.testBit_two_pow_mul_add _ hX]
  conv => rhs; rw [hv, Nat.testBit_two_pow_mul_add _ hL, Nat.testBit_two_pow_mul_add _ hM]
  simp only [Nat.testBit_mod_two_pow]
  by_cases h1 : i < lo
  · have : ¬lo ≤ i := by omega
    simp [h1, this]
  · by_cases h2 : i - lo < w
    · have h3 : lo ≤ i ∧ i ≤ hi := by omega
      simp [h1, h2, h3]
    · have h3 : ¬(lo ≤ i ∧ i ≤ hi) := by omega
      simp [h1, h2, h3]

/-! Registers. -/

@[simp] theorem rd_setReg_self (s : State) (off : Nat) (v : W32) : rd (setReg s off v) off = v := SMap.getD_put_self

theorem rd_setReg_ne {s : State} {off o : Nat} {v : W32} (h : o ≠ off) : rd (setReg s off v) o = rd s o := SMap.getD_put_ne h

theorem rd_wf_ne {s : State} {off o hi lo x : Nat} (h : o ≠ off) : rd (wf s off hi lo x) o = rd s o := rd_setReg_ne h

theorem rd_wb_ne {s : State} {off o i : Nat} {b : Bool} (h : o ≠ off) : rd (wb s off i b) o = rd s o := rd_setReg_ne h

theorem rd_bump_ne {s : State} {off o hi lo n : Nat} (h : o ≠ off) : rd (bump s off hi lo n) o = rd s o := rd_setReg_ne h

/-- Bit `i` after a field is written. -/
theorem rb_wf {s : State} {off hi lo x i : Nat} (h : i < 32) :
    rb (wf s off hi lo x) off i = if lo ≤ i ∧ i ≤ hi then x.testBit (i - lo) else rb s off i := by
  unfold rb wf bit
  rw [rd_setReg_self, BitVec.toNat_ofNat, Nat.testBit_mod_two_pow, testBit_putBits]
  simp [h]

@[simp] theorem rb_wb_self {s : State} {off i : Nat} {b : Bool} (h : i < 32) : rb (wb s off i b) off i = b := by
  unfold wb
  rw [rb_wf h]
  cases b <;> simp [b2n]

theorem rb_wb_ne {s : State} {off i j : Nat} {b : Bool} (h : j < 32) (n : j ≠ i) : rb (wb s off i b) off j = rb s off j := by
  unfold wb
  rw [rb_wf h]
  have : ¬(i ≤ j ∧ j ≤ i) := by omega
  simp [this]

theorem rb_wb_off {s : State} {off o i j : Nat} {b : Bool} (h : o ≠ off) : rb (wb s off i b) o j = rb s o j := by
  unfold rb; rw [rd_wb_ne h]

/-! Events and faults. -/

/-- From `s` to `t` nothing changes but registers of page `pg` and the messages: to the host, to Fypajo, to FLT and to Contact Sheet. -/
structure OnPage (pg : Nat) (s t : State) : Prop where
  rest : t = { s with
    regs := t.regs, fypSignals := t.fypSignals, toFlt := t.toFlt, toCsh := t.toCsh,
    pci := { s.pci with sent := t.pci.sent, funcs := t.pci.funcs, l1 := t.pci.l1, writes := t.pci.writes } }
  regs : ∀ off, off / 0x1000 ≠ pg → rd t off = rd s off

variable {pg : Nat} {s t u : State}

theorem OnPage.refl (pg : Nat) (s : State) : OnPage pg s s := ⟨rfl, fun _ _ => rfl⟩

theorem OnPage.trans (h : OnPage pg s t) (k : OnPage pg t u) : OnPage pg s u := by
  refine ⟨?_, fun off ho => (k.regs off ho).trans (h.regs off ho)⟩
  have hr := h.rest
  have kr := k.rest
  rw [hr] at kr
  exact kr

theorem OnPage.ite {c : Prop} [Decidable c] (ht : OnPage pg s t) (hu : OnPage pg s u) : OnPage pg s (if c then t else u) := by
  split <;> assumption

theorem onPage_setReg {off : Nat} {v : W32} (h : off / 0x1000 = pg) : OnPage pg s (setReg s off v) :=
  ⟨rfl, fun _ ho => rd_setReg_ne fun e => ho (e ▸ h)⟩

theorem onPage_wf {off hi lo x : Nat} (h : off / 0x1000 = pg) : OnPage pg s (wf s off hi lo x) := onPage_setReg h

theorem onPage_wb {off i : Nat} {b : Bool} (h : off / 0x1000 = pg) : OnPage pg s (wb s off i b) := onPage_setReg h

theorem onPage_bump {off hi lo n : Nat} (h : off / 0x1000 = pg) : OnPage pg s (bump s off hi lo n) := onPage_setReg h

theorem onPage_sendHost (m : HostMsg) : OnPage pg s (sendHost s m) := ⟨rfl, fun _ _ => rfl⟩

theorem onPage_sendAfterWrites (fn : Nat) (m : HostMsg) : OnPage pg s (sendAfterWrites s fn m) := by
  unfold sendAfterWrites
  exact .ite (onPage_sendHost _) ⟨rfl, fun _ _ => rfl⟩

theorem onPage_updFunc (fn : Nat) (f : Func → Func) : OnPage pg s (updFunc s fn f) := ⟨rfl, fun _ _ => rfl⟩

theorem onPage_signalFyp (g : FypSignal) : OnPage pg s (signalFyp s g) := ⟨rfl, fun _ _ => rfl⟩

theorem onPage_tellFlt (m : FltMsg) : OnPage pg s (tellFlt s m) := ⟨rfl, fun _ _ => rfl⟩

theorem onPage_toRecorder (x : Occurrence) : OnPage pg s (toRecorder s x) := ⟨rfl, fun _ _ => rfl⟩

theorem onPage_sendMsix (fn vec : Nat) : OnPage pg s (sendMsix s fn vec) := by
  unfold sendMsix
  exact .ite (.refl _ _) (.ite (onPage_updFunc _ _) (onPage_sendAfterWrites _ _))

theorem onPage_notify (q : Nat) : OnPage pg s (notify s q) := by
  unfold notify
  refine .ite (.trans (.ite (onPage_sendMsix _ _) (.refl _ _)) (onPage_signalFyp _)) (.ite (onPage_sendMsix _ _) (.refl _ _))

theorem hdr_page {o : Nat} (h : o < 0x1000) : hdr pg o / 0x1000 = pg := by
  unfold hdr; omega

/-- An event changes registers of its page and messages, and nothing else. -/
theorem onPage_raiseWith (b : Nat) (forced : Bool) (params : Option (List Nat)) : OnPage pg s (raiseWith s pg b forced params) := by
  unfold raiseWith
  refine .ite (.refl _ _) ?_
  have h1 : OnPage pg s (wb s (hdr pg 0x20) b true) := onPage_wb (hdr_page (by decide))
  have h2 := OnPage.ite (c := (!summary s pg && summary (wb s (hdr pg 0x20) b true) pg) = true) (h1.trans (onPage_notify pg)) h1
  refine .ite (.trans (.ite (h2.trans (onPage_tellFlt _)) h2) (onPage_toRecorder _)) (.ite (h2.trans (onPage_tellFlt _)) h2)

theorem onPage_raise (b : Nat) : OnPage pg s (raise s pg b) := onPage_raiseWith _ _ _

theorem onPage_raiseP (b : Nat) (params : List Nat) : OnPage pg s (raiseP s pg b params) := onPage_raiseWith _ _ _

/-- A fault changes registers of its page and messages, and nothing else. -/
theorem onPage_fault (cause : Nat) (req : Req) (info : Nat) (addr : Option Nat) : OnPage pg s (fault s pg cause req info addr) := by
  unfold fault
  have h (o : Nat) (ho : o < 0x1000) (r : State) (v : W32) : OnPage pg r (setReg r (hdr pg o) v) := onPage_setReg (hdr_page ho)
  have k := OnPage.ite (c := rb s (hdr pg 0x20) 0 = true) (onPage_bump (s := s) (hi := 23) (lo := 16) (n := 1) (hdr_page (pg := pg) (o := 0x30) (by decide)))
    (.trans (.trans (.trans (.trans (h 0x30 (by decide) s (BitVec.ofNat 32 (blockTypeAt pg * 256 + cause + reqCode req * 0x1000000)))
      (h 0x34 (by decide) _ (BitVec.ofNat 32 info))) (h 0x38 (by decide) _ (BitVec.ofNat 32 (addr.getD 0))))
      (h 0x3C (by decide) _ (BitVec.ofNat 32 (bits (addr.getD 0) 47 32 + b2n addr.isSome * 0x80000000)))) (onPage_raise 0))
  exact .ite ((k.trans (onPage_tellFlt _)).trans (onPage_toRecorder _)) (k.trans (onPage_tellFlt _))

theorem onPage_hwFault (cause info : Nat) : OnPage pg s (hwFault s pg cause info) := onPage_fault _ _ _ _

/-- The event register of another page, and every register of one, reads as before. -/
theorem raise_other {q b off : Nat} (h : off / 0x1000 ≠ q) : rd (raise s q b) off = rd s off := (onPage_raise b).regs off h

theorem fault_other {q cause info off : Nat} {req : Req} {a : Option Nat} (h : off / 0x1000 ≠ q) : rd (fault s q cause req info a) off = rd s off :=
  (onPage_fault cause req info a).regs off h

/-! What an event does to the registers: its bit rises, and nothing else changes. -/

theorem regs_sendAfterWrites (s : State) (fn : Nat) (m : HostMsg) : (sendAfterWrites s fn m).regs = s.regs := by
  unfold sendAfterWrites
  split <;> rfl

theorem regs_sendMsix (s : State) (fn vec : Nat) : (sendMsix s fn vec).regs = s.regs := by
  unfold sendMsix
  dsimp only
  split
  · rfl
  · split
    · rfl
    · exact regs_sendAfterWrites _ _ _

theorem regs_notify (s : State) (q : Nat) : (notify s q).regs = s.regs := by
  unfold notify
  dsimp only
  split <;> split <;> simp [regs_sendMsix]

theorem regs_raiseWith (b : Nat) (forced : Bool) (params : Option (List Nat)) :
    (raiseWith s pg b forced params).regs = if rb s (hdr pg 0x20) b then s.regs else (wb s (hdr pg 0x20) b true).regs := by
  unfold raiseWith
  dsimp only
  split
  · rfl
  · split <;> split <;> split <;> simp [regs_notify]

/-- The bit of an event reads 1 after it. -/
theorem rb_raise (s : State) (pg : Nat) {b : Nat} (h : b < 32) : rb (raise s pg b) (hdr pg 0x20) b = true := by
  unfold raise rb rd
  rw [regs_raiseWith]
  split
  · assumption
  · exact rb_wb_self h

/-- Every register but EVT_STATUS of its page reads as before. -/
theorem rd_raise_ne {b off : Nat} (h : off ≠ hdr pg 0x20) : rd (raise s pg b) off = rd s off := by
  unfold raise
  rw [rd, regs_raiseWith]
  split
  · rfl
  · exact rd_wb_ne h

/-- Another event bit reads as before. -/
theorem rb_raise_ne {b i : Nat} (h : i < 32) (n : i ≠ b) : rb (raise s pg b) (hdr pg 0x20) i = rb s (hdr pg 0x20) i := by
  unfold raise rb rd
  rw [regs_raiseWith]
  split
  · rfl
  · exact rb_wb_ne h n

end Sys2Proof.Laws
end

