-- ==== Sys2Proof/Laws/Bytes.lean ====
section
/-!
SUPPORT. Laws/Bytes.lean: the bytes of memory and numbers: a read after a store, little-endian bytes, and the bundles that a core passes over.
-/
namespace Sys2Proof.Laws
open Sys2Proof Sys2Proof.Machine

@[simp] theorem memByte_setByte_self (s : State) (a : Nat) (b : Byte) : memByte (setByte s a b) a = b := SMap.getD_put_self

theorem memByte_setByte_ne {s : State} {a c : Nat} {b : Byte} (h : c ≠ a) : memByte (setByte s a b) c = memByte s c := SMap.getD_put_ne h

/-- A store of bytes leaves every byte outside them. -/
theorem memByte_setBytes_ne {s : State} {a c : Nat} {bs : List Byte} (h : c < a ∨ a + bs.length ≤ c) : memByte (setBytes s a bs) c = memByte s c := by
  induction bs generalizing s a with
  | nil => rfl
  | cons b bs ih =>
    simp only [List.length_cons] at h
    rw [setBytes, ih (by omega), memByte_setByte_ne (by omega)]

/-- A store of bytes puts each at its place. -/
theorem memByte_setBytes {s : State} {a i : Nat} {bs : List Byte} (h : i < bs.length) : memByte (setBytes s a bs) (a + i) = bs[i] := by
  induction bs generalizing s a i with
  | nil => cases h
  | cons b bs ih =>
    rw [setBytes]
    cases i with
    | zero => rw [memByte_setBytes_ne (by omega)]; exact memByte_setByte_self _ _ _
    | succ i =>
      have := ih (s := setByte s a b) (a := a + 1) (i := i) (by simpa using h)
      rw [show a + (i + 1) = a + 1 + i by omega, this]
      rfl

/-- A store of bytes changes the memory alone. -/
theorem setBytes_rest (s : State) (a : Nat) (bs : List Byte) : setBytes s a bs = { s with mem := (setBytes s a bs).mem } := by
  induction bs generalizing s a with
  | nil => rfl
  | cons b bs ih => exact ih (setByte s a b) (a + 1)

@[simp] theorem leBytes_length (n v : Nat) : (leBytes n v).length = n := by
  induction n generalizing v with
  | zero => rfl
  | succ n ih => simp [leBytes, ih]

/-- The little-endian bytes of a number. -/
theorem leBytes_get {n v i : Nat} (h : i < (leBytes n v).length) : ((leBytes n v)[i]).toNat = v / 256 ^ i % 256 := by
  induction n generalizing v i with
  | zero => cases h
  | succ n ih =>
    cases i with
    | zero => simp [leBytes]
    | succ i =>
      have h' : i < (leBytes n (v / 256)).length := by simpa [leBytes] using h
      simp only [leBytes, List.getElem_cons_succ]
      rw [ih h', Nat.div_div_eq_div_mul, Nat.pow_succ, Nat.mul_comm]

/-- A number of `n` bytes is what its little-endian bytes spell. -/
theorem ofLe_leBytes (n v : Nat) : ofLe (leBytes n v) = v % 256 ^ n := by
  induction n generalizing v with
  | zero => simp [leBytes, ofLe, Nat.mod_one]
  | succ n ih =>
    rw [leBytes, ofLe, ih, BitVec.toNat_ofNat, show 256 ^ (n + 1) = 256 * 256 ^ n by rw [Nat.pow_succ, Nat.mul_comm], Nat.mod_mul]

/-- Where no stored word holds an error, a check of a range finds nothing. -/
theorem checkRange_clean {s : State} (h : s.eccErr = []) (d : s.dram.eccFlips = []) (scrub a n : Nat) : checkRange s scrub a n = s := by
  unfold checkRange
  split
  · rfl
  · split
    · simp [h, d]
    · simp [h]

theorem fetchNext_clean {s : State} (h : s.eccErr = []) (d : s.dram.eccFlips = []) (n : Nat) (u : Bool) : fetchNext s n u = s :=
  checkRange_clean h d _ _ _

/-- A bundle of own SRAM that has something to perform is fetched and not passed over. -/
theorem skipNops_stop {fuel n : Nat} {s : State} {u : Bool} (o : inOwn n (bankOf' (coreOf s n) u).pc 128 = true)
    (h : isNop (nextBundle (fetchNext s n u) n u) = false) : skipNops (fuel + 1) s n u = fetchNext s n u := by
  simp [skipNops, o, h]

/-- A program counter outside own SRAM is not moved on. -/
theorem skipNops_outside {fuel n : Nat} {s : State} {u : Bool} (o : inOwn n (bankOf' (coreOf s n) u).pc 128 = false) :
    skipNops fuel s n u = s := by
  cases fuel <;> simp [skipNops, o]

end Sys2Proof.Laws
end

