-- ==== Sys2Proof/Laws/Keeps.lean ====
section
/-!
SUPPORT. Laws/Keeps.lean: what every operation of the block leaves alone. `Keeps s t` says that on the way from `s` to `t` the queue and the clock stay, no
free value is drawn twice, and the memory stays in its canonical form.
-/
namespace Sys2Proof.Laws
open Sys2Proof Sys2Proof.Machine

/-- On the way from `s` to `t` the queue and the clock stay, no free value is drawn twice, and the memory stays canonical. -/
structure Keeps (s t : State) : Prop where
  pending : t.pending = s.pending
  clock : t.clock = s.clock
  drawn : s.drawn ≤ t.drawn
  mem : Memory.wf s.mem = true → Memory.wf t.mem = true

/-- The outcome is a next state, and it keeps. -/
def KeepsO (s : State) (o : Host.Outcome State Fault Refusal) : Prop := ∃ t, o = .next t ∧ Keeps s t

variable {s0 s t : State}

theorem Keeps.refl (s : State) : Keeps s s := ⟨rfl, rfl, Nat.le_refl _, id⟩

theorem Keeps.trans {u : State} (h : Keeps s t) (k : Keeps t u) : Keeps s u :=
  ⟨k.pending.trans h.pending, k.clock.trans h.clock, Nat.le_trans h.drawn k.drawn, fun m => k.mem (h.mem m)⟩

/-- A change of other fields keeps. -/
theorem Keeps.same (h : Keeps s0 s) (p : t.pending = s.pending) (c : t.clock = s.clock) (d : t.drawn = s.drawn) (m : t.mem = s.mem) : Keeps s0 t :=
  ⟨p.trans h.pending, c.trans h.clock, d ▸ h.drawn, fun w => m ▸ h.mem w⟩

/-- A record update of other fields keeps. -/
theorem Keeps.update {x2 : SMap W32} {x3 : SMap W32} {x4 : List FypSignal} {x5 : List FltMsg} {x6 : List Occurrence} {x7 : List Byte} {xr : Nat} {x8 : SMap Nat}
    {x9 : List Island} {x10 : Mortar} {x12 : NSet} {x13 : SMap Nat} {x14 : List Nat} {x15 : TimeBase} {x17 : Boot} {x18 : Pci} {x19 : Dram} {x20 :
    Hod} {x21 : Quarry} {x22 : Ingress} {x23 : Developer} {x24 : Enlarger} {x25 : Easel} {x26 : List Core} {x27 : Dispatcher} {x28 : Plumb} {x29 :
    Keystone} {x30 : Safelight} {x31 : Audio} {x32 : Seam} {x33 : Csh} {x34 : Flt} {x35 : Module} {x36 : Tap} (h : Keeps s0 s) :
    Keeps s0 ⟨s.pending, s.clock, x2, x3, x4, x5, x6, x7, xr, x8, x9, x10, s.mem, x12, x13, x14, x15, s.drawn, x17, x18,
      x19, x20, x21, x22, x23, x24, x25, x26, x27, x28, x29, x30, x31, x32, x33, x34, x35, x36⟩ := ⟨h.pending, h.clock, h.drawn, h.mem⟩

theorem Keeps.ite {c : Prop} [Decidable c] {a b : State} (ha : Keeps s0 a) (hb : Keeps s0 b) : Keeps s0 (if c then a else b) := by
  split <;> assumption

theorem Keeps.ite1 {α : Type} {c : Prop} [Decidable c] {a b : State × α} (ha : Keeps s0 a.1) (hb : Keeps s0 b.1) : Keeps s0 (if c then a else b).1 := by
  split <;> assumption

/-- The same for a result that carries a state in a field. -/
theorem Keeps.iteF {α : Type} {c : Prop} [Decidable c] {a b : α} (f : α → State) (ha : Keeps s0 (f a)) (hb : Keeps s0 (f b)) :
    Keeps s0 (f (if c then a else b)) := by
  split <;> assumption

/-- The same from an equation, for a goal whose head must not be reduced. -/
theorem Keeps.iteP {α : Type} {c : Prop} [Decidable c] {a b x : State × α} (e : x = if c then a else b) (ha : Keeps s0 a.1) (hb : Keeps s0 b.1) :
    Keeps s0 x.1 := by
  subst e; split <;> assumption

/-- The same for a pair that is written out. -/
theorem Keeps.pairP {α : Type} {a : State} {b : α} {x : State × α} (e : x = (a, b)) (h : Keeps s0 a) : Keeps s0 x.1 := by
  subst e; exact h

theorem KeepsO.ite {c : Prop} [Decidable c] {a b : Host.Outcome State Fault Refusal} (ha : KeepsO s0 a) (hb : KeepsO s0 b) :
    KeepsO s0 (if c then a else b) := by
  split <;> assumption

theorem KeepsO.next (h : Keeps s0 s) : KeepsO s0 (.next s) := ⟨s, rfl, h⟩

/-- A result whose state keeps, as one fact about the result, so that a name given to it can be forgotten. -/
def KeepsF {α : Type} (f : α → State) (s0 : State) (x : α) : Prop := Keeps s0 (f x)

theorem KeepsF.of {α : Type} {f : α → State} {x : α} (h : Keeps s0 (f x)) : KeepsF f s0 x := h

theorem KeepsF.keeps {α : Type} {f : α → State} {x : α} (h : KeepsF f s0 x) : Keeps s0 (f x) := h

theorem KeepsF.fst {α : Type} {x : State × α} (h : KeepsF Prod.fst s0 x) : Keeps s0 x.1 := h

theorem KeepsF.ofFst {α : Type} {x : State × α} (h : Keeps s0 x.1) : KeepsF Prod.fst s0 x := h

theorem KeepsF.pair {α : Type} {a : State} {b : α} (h : Keeps s0 a) : KeepsF Prod.fst s0 (a, b) := h

theorem KeepsF.ite {α : Type} {f : α → State} {c : Prop} [Decidable c] {a b : α} (ha : KeepsF f s0 a) (hb : KeepsF f s0 b) :
    KeepsF f s0 (if c then a else b) := by
  split <;> assumption

theorem Keeps.foldl {α : Type} {f : State → α → State} (hf : ∀ s x, Keeps s0 s → Keeps s0 (f s x)) {l : List α} (h : Keeps s0 s) :
    Keeps s0 (l.foldl f s) := by
  induction l generalizing s with
  | nil => exact h
  | cons x l ih => exact ih (hf _ _ h)

/-- The same for a result that carries a state in a field. -/
theorem Keeps.foldlF {α β : Type} (g : β → State) {f : β → α → β} (hf : ∀ p x, Keeps s0 (g p) → Keeps s0 (g (f p x))) {l : List α} {p : β}
    (h : Keeps s0 (g p)) : Keeps s0 (g (l.foldl f p)) := by
  induction l generalizing p with
  | nil => exact h
  | cons x l ih => exact ih (hf _ _ h)

theorem Keeps.foldl1 {α β : Type} {f : State × β → α → State × β} (hf : ∀ p x, Keeps s0 p.1 → Keeps s0 (f p x).1) {l : List α} {p : State × β}
    (h : Keeps s0 p.1) : Keeps s0 (l.foldl f p).1 := by
  induction l generalizing p with
  | nil => exact h
  | cons x l ih => exact ih (hf _ _ h)

end Sys2Proof.Laws
end

