-- ==== Sys2Proof/Laws/KeepsOps.lean ====
section
/-!
SUPPORT. Laws/KeepsOps.lean: the operations of Machine/Ops.lean keep the queue, the clock and the form of the memory.
-/
namespace Sys2Proof.Laws
open Sys2Proof Sys2Proof.Machine

variable {s0 : State}
set_option linter.unreachableTactic false
set_option linter.unusedTactic false

theorem keeps_after {α : Type} {r : State × α} (h : Keeps s0 r.1) : Keeps s0 (after r) := h

theorem keeps_setReg {s : State} {off : Nat} {v : W32} (hk : Keeps s0 s) :
    Keeps s0 (setReg s off v) := by
  unfold setReg
  repeat' (first | with_reducible assumption | fail_if_no_progress (with_reducible apply Keeps.update) | dsimp only)

theorem keeps_wf {s : State} {off : Nat} {hi : Nat} {lo : Nat} {x : Nat} (hk : Keeps s0 s) :
    Keeps s0 (wf s off hi lo x) := by
  unfold wf
  repeat' (first | with_reducible assumption | with_reducible apply keeps_setReg | dsimp only)

theorem keeps_wb {s : State} {off : Nat} {i : Nat} {b : Bool} (hk : Keeps s0 s) :
    Keeps s0 (wb s off i b) := by
  unfold wb
  repeat' (first | with_reducible assumption | with_reducible apply keeps_wf | dsimp only)

theorem keeps_bump {s : State} {off : Nat} {hi : Nat} {lo : Nat} {n : Nat} (hk : Keeps s0 s) :
    Keeps s0 (bump s off hi lo n) := by
  unfold bump
  repeat' (first | with_reducible assumption | with_reducible apply keeps_wf | dsimp only)

theorem keeps_peak {s : State} {off : Nat} {hi : Nat} {lo : Nat} {x : Nat} (hk : Keeps s0 s) :
    Keeps s0 (peak s off hi lo x) := by
  unfold peak
  repeat' (first | with_reducible assumption | with_reducible apply keeps_wf | dsimp only)

theorem keeps_updFunc {s : State} {fn : Nat} {f : Func → Func} (hk : Keeps s0 s) :
    Keeps s0 (updFunc s fn f) := by
  unfold updFunc
  repeat' (first | with_reducible assumption | fail_if_no_progress (with_reducible apply Keeps.update) | dsimp only)

theorem keeps_sendHost {s : State} {m : HostMsg} (hk : Keeps s0 s) :
    Keeps s0 (sendHost s m) := by
  unfold sendHost
  repeat' (first | with_reducible assumption | fail_if_no_progress (with_reducible apply Keeps.update) | dsimp only)

theorem keeps_sendAfterWrites {s : State} {fn : Nat} {m : HostMsg} (hk : Keeps s0 s) :
    Keeps s0 (sendAfterWrites s fn m) := by
  unfold sendAfterWrites
  repeat' (first | (extract_lets +onlyGivenNames x; first | (refine (fun hx : Keeps s0 x => ?_) ?_ <;> [clear_value x; subst x]) | (refine (fun hx : KeepsF Prod.fst s0 x => ?_) ?_ <;> [(clear_value x; replace hx := hx.fst); (subst x; refine KeepsF.ofFst ?_)]) | (have _f := fun a => x a; clear _f; subst x) | clear_value x) | with_reducible assumption | with_reducible apply keeps_sendHost | with_reducible refine Keeps.ite1 ?_ ?_ | with_reducible refine Keeps.ite ?_ ?_ | split | fail_if_no_progress (with_reducible apply Keeps.update) | dsimp only)

theorem keeps_sendMsix {s : State} {fn : Nat} {vec : Nat} (hk : Keeps s0 s) :
    Keeps s0 (sendMsix s fn vec) := by
  unfold sendMsix
  repeat' (first | (extract_lets +onlyGivenNames x; first | (refine (fun hx : Keeps s0 x => ?_) ?_ <;> [clear_value x; subst x]) | (refine (fun hx : KeepsF Prod.fst s0 x => ?_) ?_ <;> [(clear_value x; replace hx := hx.fst); (subst x; refine KeepsF.ofFst ?_)]) | (have _f := fun a => x a; clear _f; subst x) | clear_value x) | with_reducible assumption | with_reducible apply keeps_updFunc | with_reducible apply keeps_sendAfterWrites | with_reducible refine Keeps.ite1 ?_ ?_ | with_reducible refine Keeps.ite ?_ ?_ | split | fail_if_no_progress (with_reducible apply Keeps.update) | intro _ _ | dsimp only)

theorem keeps_signalFyp {s : State} {g : FypSignal} (hk : Keeps s0 s) :
    Keeps s0 (signalFyp s g) := by
  unfold signalFyp
  repeat' (first | with_reducible assumption | fail_if_no_progress (with_reducible apply Keeps.update) | dsimp only)

theorem keeps_notify {s : State} {pg : Nat} (hk : Keeps s0 s) :
    Keeps s0 (notify s pg) := by
  unfold notify
  repeat' (first | (extract_lets +onlyGivenNames x; first | (refine (fun hx : Keeps s0 x => ?_) ?_ <;> [clear_value x; subst x]) | (refine (fun hx : KeepsF Prod.fst s0 x => ?_) ?_ <;> [(clear_value x; replace hx := hx.fst); (subst x; refine KeepsF.ofFst ?_)]) | (have _f := fun a => x a; clear _f; subst x) | clear_value x) | with_reducible assumption | with_reducible apply keeps_sendMsix | with_reducible apply keeps_signalFyp | with_reducible refine Keeps.ite ?_ ?_ | split | dsimp only)

theorem keeps_toRecorder {s : State} {o : Occurrence} (hk : Keeps s0 s) :
    Keeps s0 (toRecorder s o) := by
  unfold toRecorder
  repeat' (first | with_reducible assumption | fail_if_no_progress (with_reducible apply Keeps.update) | dsimp only)

theorem keeps_tellFlt {s : State} {m : FltMsg} (hk : Keeps s0 s) :
    Keeps s0 (tellFlt s m) := by
  unfold tellFlt
  repeat' (first | with_reducible assumption | fail_if_no_progress (with_reducible apply Keeps.update) | dsimp only)

theorem keeps_raiseWith {s : State} {pg : Nat} {b : Nat} {forced : Bool} {params : Option (List Nat)} (hk : Keeps s0 s) :
    Keeps s0 (raiseWith s pg b forced params) := by
  unfold raiseWith
  repeat' (first | (extract_lets +onlyGivenNames x; first | (refine (fun hx : Keeps s0 x => ?_) ?_ <;> [clear_value x; subst x]) | (refine (fun hx : KeepsF Prod.fst s0 x => ?_) ?_ <;> [(clear_value x; replace hx := hx.fst); (subst x; refine KeepsF.ofFst ?_)]) | (have _f := fun a => x a; clear _f; subst x) | clear_value x) | with_reducible assumption | with_reducible apply keeps_wb | with_reducible apply keeps_notify | with_reducible apply keeps_tellFlt | with_reducible apply keeps_toRecorder | with_reducible refine Keeps.ite ?_ ?_ | split | dsimp only)

theorem keeps_raise {s : State} {pg : Nat} {b : Nat} (hk : Keeps s0 s) :
    Keeps s0 (raise s pg b) := by
  unfold raise
  repeat' (first | with_reducible assumption | with_reducible apply keeps_raiseWith | dsimp only)

theorem keeps_raiseP {s : State} {pg : Nat} {b : Nat} {params : List Nat} (hk : Keeps s0 s) :
    Keeps s0 (raiseP s pg b params) := by
  unfold raiseP
  repeat' (first | with_reducible assumption | with_reducible apply keeps_raiseWith | dsimp only)

theorem keeps_fault {s : State} {pg : Nat} {cause : Nat} {req : Req} {info : Nat} {addr : Option Nat} (hk : Keeps s0 s) :
    Keeps s0 (fault s pg cause req info addr) := by
  unfold fault
  repeat' (first | (extract_lets +onlyGivenNames x; first | (refine (fun hx : Keeps s0 x => ?_) ?_ <;> [clear_value x; subst x]) | (refine (fun hx : KeepsF Prod.fst s0 x => ?_) ?_ <;> [(clear_value x; replace hx := hx.fst); (subst x; refine KeepsF.ofFst ?_)]) | (have _f := fun a => x a; clear _f; subst x) | clear_value x) | with_reducible assumption | with_reducible apply keeps_bump | with_reducible apply keeps_setReg | with_reducible apply keeps_raise | with_reducible apply keeps_tellFlt | with_reducible apply keeps_toRecorder | exact KeepsO.fault | with_reducible refine Keeps.ite ?_ ?_ | split | dsimp only)

theorem keeps_hwFault {s : State} {pg : Nat} {cause : Nat} {info : Nat} (hk : Keeps s0 s) :
    Keeps s0 (hwFault s pg cause info) := by
  unfold hwFault
  repeat' (first | with_reducible assumption | with_reducible apply keeps_fault | dsimp only)

theorem keeps_raiseRecord {s : State} {pg : Nat} {b : Nat} {params : List Nat} (hk : Keeps s0 s) :
    Keeps s0 (raiseRecord s pg b params) := by
  unfold raiseRecord
  repeat' (first | with_reducible assumption | with_reducible apply keeps_toRecorder | with_reducible apply keeps_raiseP | with_reducible refine Keeps.ite ?_ ?_ | split | dsimp only)

theorem keeps_injFire {s : State} {target : Nat} {p : Nat → Bool} (hk : Keeps s0 s) :
    Keeps s0 (injFire s target p).1 := by
  unfold injFire
  repeat' (first | with_reducible assumption | with_reducible apply keeps_raiseRecord | with_reducible apply keeps_wf | with_reducible refine Keeps.ite1 ?_ ?_ | with_reducible refine Keeps.ite ?_ ?_ | split | dsimp only)

theorem keeps_safeSet {s : State} {b : Nat} {on : Bool} (hk : Keeps s0 s) :
    Keeps s0 (safeSet s b on) := by
  unfold safeSet
  repeat' (first | (extract_lets +onlyGivenNames x; first | (refine (fun hx : Keeps s0 x => ?_) ?_ <;> [clear_value x; subst x]) | (refine (fun hx : KeepsF Prod.fst s0 x => ?_) ?_ <;> [(clear_value x; replace hx := hx.fst); (subst x; refine KeepsF.ofFst ?_)]) | (have _f := fun a => x a; clear _f; subst x) | clear_value x) | with_reducible assumption | with_reducible apply keeps_wb | with_reducible apply keeps_raise | with_reducible refine Keeps.ite ?_ ?_ | split | dsimp only)

theorem keeps_sentinelJob {s : State} {missed : Bool} (hk : Keeps s0 s) :
    Keeps s0 (sentinelJob s missed) := by
  unfold sentinelJob
  repeat' (first | (extract_lets +onlyGivenNames x; first | (refine (fun hx : Keeps s0 x => ?_) ?_ <;> [clear_value x; subst x]) | (refine (fun hx : KeepsF Prod.fst s0 x => ?_) ?_ <;> [(clear_value x; replace hx := hx.fst); (subst x; refine KeepsF.ofFst ?_)]) | (have _f := fun a => x a; clear _f; subst x) | clear_value x) | with_reducible assumption | with_reducible apply keeps_wf | with_reducible apply keeps_bump | with_reducible apply keeps_safeSet | with_reducible refine Keeps.ite ?_ ?_ | fail_if_no_progress (with_reducible apply Keeps.update) | split | dsimp only)

theorem keeps_resetRegs {s : State} {pg : Nat} {keep : Access → Bool} {kept : Nat → Bool} (hk : Keeps s0 s) :
    Keeps s0 (resetRegs s pg keep kept) := by
  unfold resetRegs
  repeat' (first | (extract_lets +onlyGivenNames x; first | (refine (fun hx : Keeps s0 x => ?_) ?_ <;> [clear_value x; subst x]) | (refine (fun hx : KeepsF Prod.fst s0 x => ?_) ?_ <;> [(clear_value x; replace hx := hx.fst); (subst x; refine KeepsF.ofFst ?_)]) | (have _f := fun a => x a; clear _f; subst x) | clear_value x) | with_reducible assumption | with_reducible refine Keeps.ite ?_ ?_ | split | fail_if_no_progress (with_reducible apply Keeps.update) | dsimp only)

theorem keeps_wake {s : State} {n : Nat} (hk : Keeps s0 s) :
    Keeps s0 (wake s n) := by
  unfold wake
  repeat' (first | (extract_lets +onlyGivenNames x; first | (refine (fun hx : Keeps s0 x => ?_) ?_ <;> [clear_value x; subst x]) | (refine (fun hx : KeepsF Prod.fst s0 x => ?_) ?_ <;> [(clear_value x; replace hx := hx.fst); (subst x; refine KeepsF.ofFst ?_)]) | (have _f := fun a => x a; clear _f; subst x) | clear_value x) | with_reducible assumption | with_reducible refine Keeps.ite1 ?_ ?_ | with_reducible refine Keeps.ite ?_ ?_ | split | fail_if_no_progress (with_reducible apply Keeps.update) | intro _ _ | dsimp only)

end Sys2Proof.Laws
end

