-- ==== Sys2Proof/Laws/KeepsAddressMap.lean ====
section
/-!
SUPPORT. Laws/KeepsAddressMap.lean: the operations of Machine/AddressMap.lean keep the queue, the clock and the form of the memory.
-/
namespace Sys2Proof.Laws
open Sys2Proof Sys2Proof.Machine

variable {s0 : State}
set_option linter.unreachableTactic false
set_option linter.unusedTactic false

theorem keeps_updIsl {s : State} {n : Nat} {f : Island → Island} (hk : Keeps s0 s) :
    Keeps s0 (updIsl s n f) := by
  unfold updIsl
  repeat' (first | with_reducible assumption | fail_if_no_progress (with_reducible apply Keeps.update) | dsimp only)

theorem keeps_updSub {s : State} {u : Nat} {f : SubCh → SubCh} (hk : Keeps s0 s) :
    Keeps s0 (updSub s u f) := by
  unfold updSub
  repeat' (first | with_reducible assumption | fail_if_no_progress (with_reducible apply Keeps.update) | dsimp only)

theorem keeps_wakeAt {s : State} {a : Nat} (hk : Keeps s0 s) :
    Keeps s0 (wakeAt s a) := by
  unfold wakeAt
  repeat' (first | with_reducible assumption | with_reducible apply keeps_wake | split | dsimp only)

theorem keeps_updMortar {s : State} {f : Mortar → Mortar} (hk : Keeps s0 s) :
    Keeps s0 (updMortar s f) := by
  unfold updMortar
  repeat' (first | with_reducible assumption | fail_if_no_progress (with_reducible apply Keeps.update) | dsimp only)

theorem keeps_countFlits {s : State} {c : Chan} {n : Nat} (hk : Keeps s0 s) :
    Keeps s0 (countFlits s c n) := by
  unfold countFlits
  repeat' (first | with_reducible assumption | with_reducible apply keeps_bump | split | dsimp only)

theorem keeps_updIo {s : State} {f : Io → Io} (hk : Keeps s0 s) :
    Keeps s0 (updIo s f) := by
  unfold updIo
  repeat' (first | (extract_lets +onlyGivenNames x; first | (refine (fun hx : Keeps s0 x => ?_) ?_ <;> [clear_value x; subst x]) | (refine (fun hx : KeepsF Prod.fst s0 x => ?_) ?_ <;> [(clear_value x; replace hx := hx.fst); (subst x; refine KeepsF.ofFst ?_)]) | (have _f := fun a => x a; clear _f; subst x) | clear_value x) | with_reducible assumption | with_reducible apply keeps_updMortar | with_reducible refine Keeps.ite1 ?_ ?_ | with_reducible refine Keeps.ite ?_ ?_ | split | fail_if_no_progress (with_reducible apply Keeps.update) | intro _ _ | dsimp only)

theorem keeps_block {s : State} (hk : Keeps s0 s) :
    Keeps s0 (block s) := by
  unfold block
  repeat' (first | (extract_lets +onlyGivenNames x; first | (refine (fun hx : Keeps s0 x => ?_) ?_ <;> [clear_value x; subst x]) | (refine (fun hx : KeepsF Prod.fst s0 x => ?_) ?_ <;> [(clear_value x; replace hx := hx.fst); (subst x; refine KeepsF.ofFst ?_)]) | (have _f := fun a => x a; clear _f; subst x) | clear_value x) | with_reducible assumption | with_reducible apply keeps_updIo | with_reducible refine Keeps.ite1 ?_ ?_ | with_reducible refine Keeps.ite ?_ ?_ | split | fail_if_no_progress (with_reducible apply Keeps.update) | intro _ _ | dsimp only)

end Sys2Proof.Laws
end

