-- ==== Sys2Proof/Laws/KeepsStorage.lean ====
section
/-!
SUPPORT. Laws/KeepsStorage.lean: the operations of Machine/Storage.lean keep the queue, the clock and the form of the memory.
-/
namespace Sys2Proof.Laws
open Sys2Proof Sys2Proof.Machine

variable {s0 : State}
set_option linter.unreachableTactic false
set_option linter.unusedTactic false

theorem keeps_setByte {a : Nat} {b : Byte} {s : State} (h : Keeps s0 s) : Keeps s0 (setByte s a b) :=
  ⟨h.pending, h.clock, h.drawn, fun w => Memory.wf_put (h.mem w)⟩

theorem keeps_setBytes {s : State} {a : Nat} {bs : List Byte} (h : Keeps s0 s) : Keeps s0 (setBytes s a bs) := by
  induction bs generalizing s a with
  | nil => exact h
  | cons b bs ih => exact ih (keeps_setByte h)

theorem keeps_freshEcc {s : State} {g : Nat} (hk : Keeps s0 s) :
    Keeps s0 (freshEcc s g) := by
  unfold freshEcc
  repeat' (first | (extract_lets +onlyGivenNames x; first | (refine (fun hx : Keeps s0 x => ?_) ?_ <;> [clear_value x; subst x]) | (refine (fun hx : KeepsF Prod.fst s0 x => ?_) ?_ <;> [(clear_value x; replace hx := hx.fst); (subst x; refine KeepsF.ofFst ?_)]) | (have _f := fun a => x a; clear _f; subst x) | clear_value x) | with_reducible assumption | with_reducible refine Keeps.ite1 ?_ ?_ | with_reducible refine Keeps.ite ?_ ?_ | split | fail_if_no_progress (with_reducible apply Keeps.update) | dsimp only)

theorem keeps_markGranule {s : State} {g : Nat} (hk : Keeps s0 s) :
    Keeps s0 (markGranule s g) := by
  unfold markGranule
  repeat' (first | with_reducible assumption | fail_if_no_progress (with_reducible apply Keeps.update) | dsimp only)

theorem keeps_clearGranule {s : State} {g : Nat} (hk : Keeps s0 s) :
    Keeps s0 (clearGranule s g) := by
  unfold clearGranule
  repeat' (first | with_reducible assumption | fail_if_no_progress (with_reducible apply Keeps.update) | dsimp only)

theorem keeps_countCe {s : State} {a : Nat} (hk : Keeps s0 s) :
    Keeps s0 (countCe s a) := by
  unfold countCe
  repeat' (first | (extract_lets +onlyGivenNames x; first | (refine (fun hx : Keeps s0 x => ?_) ?_ <;> [clear_value x; subst x]) | (refine (fun hx : KeepsF Prod.fst s0 x => ?_) ?_ <;> [(clear_value x; replace hx := hx.fst); (subst x; refine KeepsF.ofFst ?_)]) | (have _f := fun a => x a; clear _f; subst x) | clear_value x) | with_reducible assumption | with_reducible apply keeps_bump | with_reducible apply keeps_raise | with_reducible refine Keeps.ite1 ?_ ?_ | with_reducible refine Keeps.ite ?_ ?_ | split | fail_if_no_progress (with_reducible apply Keeps.update) | dsimp only)

theorem keeps_foundUe {s : State} {a : Nat} {scrub : Nat} (hk : Keeps s0 s) :
    Keeps s0 (foundUe s a scrub) := by
  unfold foundUe
  repeat' (first | (extract_lets +onlyGivenNames x; first | (refine (fun hx : Keeps s0 x => ?_) ?_ <;> [clear_value x; subst x]) | (refine (fun hx : KeepsF Prod.fst s0 x => ?_) ?_ <;> [(clear_value x; replace hx := hx.fst); (subst x; refine KeepsF.ofFst ?_)]) | (have _f := fun a => x a; clear _f; subst x) | clear_value x) | with_reducible assumption | with_reducible apply keeps_markGranule | with_reducible apply keeps_bump | with_reducible apply keeps_fault | with_reducible apply keeps_raise | with_reducible refine Keeps.ite1 ?_ ?_ | with_reducible refine Keeps.ite ?_ ?_ | split | fail_if_no_progress (with_reducible apply Keeps.update) | dsimp only)

theorem keeps_checkWord {s : State} {scrub : Nat} {w : Nat} (hk : Keeps s0 s) :
    Keeps s0 (checkWord s scrub w) := by
  unfold checkWord
  repeat' (first | (extract_lets +onlyGivenNames x; first | (refine (fun hx : Keeps s0 x => ?_) ?_ <;> [clear_value x; subst x]) | (refine (fun hx : KeepsF Prod.fst s0 x => ?_) ?_ <;> [(clear_value x; replace hx := hx.fst); (subst x; refine KeepsF.ofFst ?_)]) | (have _f := fun a => x a; clear _f; subst x) | clear_value x) | with_reducible assumption | with_reducible apply keeps_countCe | with_reducible apply keeps_foundUe | with_reducible refine Keeps.ite ?_ ?_ | split | fail_if_no_progress (with_reducible apply Keeps.update) | dsimp only)

theorem keeps_checkBurst {s : State} {scrub : Nat} {g : Nat} (hk : Keeps s0 s) :
    Keeps s0 (checkBurst s scrub g) := by
  unfold checkBurst
  repeat' (first | (extract_lets +onlyGivenNames x; first | (refine (fun hx : Keeps s0 x => ?_) ?_ <;> [clear_value x; subst x]) | (refine (fun hx : KeepsF Prod.fst s0 x => ?_) ?_ <;> [(clear_value x; replace hx := hx.fst); (subst x; refine KeepsF.ofFst ?_)]) | (have _f := fun a => x a; clear _f; subst x) | clear_value x) | with_reducible assumption | with_reducible apply keeps_freshEcc | with_reducible apply keeps_markGranule | with_reducible apply keeps_clearGranule | with_reducible apply keeps_bump | with_reducible apply keeps_fault | with_reducible apply keeps_raise | with_reducible refine Keeps.ite1 ?_ ?_ | with_reducible refine Keeps.ite ?_ ?_ | split | fail_if_no_progress (with_reducible apply Keeps.update) | intro _ _ | dsimp only)

theorem keeps_checkRange {s : State} {scrub : Nat} {a : Nat} {n : Nat} (hk : Keeps s0 s) :
    Keeps s0 (checkRange s scrub a n) := by
  unfold checkRange
  repeat' (first | (extract_lets +onlyGivenNames x; first | (refine (fun hx : Keeps s0 x => ?_) ?_ <;> [clear_value x; subst x]) | (refine (fun hx : KeepsF Prod.fst s0 x => ?_) ?_ <;> [(clear_value x; replace hx := hx.fst); (subst x; refine KeepsF.ofFst ?_)]) | (have _f := fun a => x a; clear _f; subst x) | clear_value x) | with_reducible assumption | with_reducible apply keeps_checkBurst | with_reducible apply keeps_checkWord | with_reducible refine Keeps.ite1 ?_ ?_ | with_reducible refine Keeps.ite ?_ ?_ | with_reducible refine Keeps.foldl (fun _ _ _ => ?_) ?_ | with_reducible refine Keeps.foldl1 (fun _ _ _ => ?_) ?_ | split | fail_if_no_progress (with_reducible apply Keeps.update) | intro _ _ | dsimp only)

theorem keeps_injectSram {s : State} {a : Nat} (hk : Keeps s0 s) :
    Keeps s0 (injectSram s a) := by
  unfold injectSram
  repeat' (first | (extract_lets +onlyGivenNames x; first | (refine (fun hx : Keeps s0 x => ?_) ?_ <;> [clear_value x; subst x]) | (refine (fun hx : KeepsF Prod.fst s0 x => ?_) ?_ <;> [(clear_value x; replace hx := hx.fst); (subst x; refine KeepsF.ofFst ?_)]) | (have _f := fun a => x a; clear _f; subst x) | clear_value x) | with_reducible assumption | with_reducible apply keeps_injFire | with_reducible refine Keeps.ite ?_ ?_ | split | fail_if_no_progress (with_reducible apply Keeps.update) | dsimp only)

theorem keeps_checkParts {s : State} {a : Nat} {n : Nat} (hk : Keeps s0 s) :
    Keeps s0 (checkParts s a n) := by
  unfold checkParts
  repeat' (first | (extract_lets +onlyGivenNames x; first | (refine (fun hx : Keeps s0 x => ?_) ?_ <;> [clear_value x; subst x]) | (refine (fun hx : KeepsF Prod.fst s0 x => ?_) ?_ <;> [(clear_value x; replace hx := hx.fst); (subst x; refine KeepsF.ofFst ?_)]) | (have _f := fun a => x a; clear _f; subst x) | clear_value x) | with_reducible assumption | with_reducible apply keeps_checkBurst | with_reducible apply keeps_checkWord | with_reducible refine Keeps.ite1 ?_ ?_ | with_reducible refine Keeps.ite ?_ ?_ | with_reducible refine Keeps.foldl (fun _ _ _ => ?_) ?_ | with_reducible refine Keeps.foldl1 (fun _ _ _ => ?_) ?_ | split | fail_if_no_progress (with_reducible apply Keeps.update) | intro _ _ | dsimp only)

theorem keeps_storeBytes {s : State} {a : Nat} {bs : List Byte} {bad : List (Nat × Nat)} (hk : Keeps s0 s) :
    Keeps s0 (storeBytes s a bs bad) := by
  unfold storeBytes
  repeat' (first | (extract_lets +onlyGivenNames x; first | (refine (fun hx : Keeps s0 x => ?_) ?_ <;> [clear_value x; subst x]) | (refine (fun hx : KeepsF Prod.fst s0 x => ?_) ?_ <;> [(clear_value x; replace hx := hx.fst); (subst x; refine KeepsF.ofFst ?_)]) | (have _f := fun a => x a; clear _f; subst x) | clear_value x) | with_reducible assumption | with_reducible apply keeps_checkParts | with_reducible apply keeps_injectSram | with_reducible apply keeps_setBytes | with_reducible apply keeps_freshEcc | with_reducible apply keeps_clearGranule | with_reducible apply keeps_markGranule | with_reducible refine Keeps.ite1 ?_ ?_ | with_reducible refine Keeps.ite ?_ ?_ | with_reducible refine Keeps.foldl (fun _ _ _ => ?_) ?_ | with_reducible refine Keeps.foldl1 (fun _ _ _ => ?_) ?_ | split | fail_if_no_progress (with_reducible apply Keeps.update) | intro _ _ | dsimp only)

end Sys2Proof.Laws
end

