-- ==== Sys2Proof/Laws/KeepsDramCore.lean ====
section
/-!
SUPPORT. Laws/KeepsDramCore.lean: the operations of Machine/DramCore.lean keep the queue, the clock and the form of the memory.
-/
namespace Sys2Proof.Laws
open Sys2Proof Sys2Proof.Machine

variable {s0 : State}
set_option linter.unreachableTactic false
set_option linter.unusedTactic false

theorem keeps_logCmd {s : State} {u : Nat} {c : DramCmd} (hk : Keeps s0 s) :
    Keeps s0 (logCmd s u c) := by
  unfold logCmd
  repeat' (first | (extract_lets +onlyGivenNames x; first | (refine (fun hx : Keeps s0 x => ?_) ?_ <;> [clear_value x; subst x]) | (refine (fun hx : KeepsF Prod.fst s0 x => ?_) ?_ <;> [(clear_value x; replace hx := hx.fst); (subst x; refine KeepsF.ofFst ?_)]) | (have _f := fun a => x a; clear _f; subst x) | clear_value x) | with_reducible assumption | with_reducible apply keeps_updSub | with_reducible refine Keeps.ite1 ?_ ?_ | with_reducible refine Keeps.ite ?_ ?_ | split | fail_if_no_progress (with_reducible apply Keeps.update) | intro _ _ | dsimp only)

theorem keeps_makeRoom {s : State} {u : Nat} {n : Nat} {w : Nat} (hk : Keeps s0 s) :
    Keeps s0 (makeRoom s u n w) := by
  unfold makeRoom
  repeat' (first | (extract_lets +onlyGivenNames x; first | (refine (fun hx : Keeps s0 x => ?_) ?_ <;> [clear_value x; subst x]) | (refine (fun hx : KeepsF Prod.fst s0 x => ?_) ?_ <;> [(clear_value x; replace hx := hx.fst); (subst x; refine KeepsF.ofFst ?_)]) | (have _f := fun a => x a; clear _f; subst x) | clear_value x) | with_reducible assumption | with_reducible apply keeps_updSub | with_reducible refine Keeps.ite1 ?_ ?_ | with_reducible refine Keeps.ite ?_ ?_ | split | fail_if_no_progress (with_reducible apply Keeps.update) | intro _ _ | dsimp only)

theorem keeps_chargeMitig {s : State} {u : Nat} {src : Nat} (hk : Keeps s0 s) :
    Keeps s0 (chargeMitig s u src) := by
  unfold chargeMitig
  repeat' (first | (extract_lets +onlyGivenNames x; first | (refine (fun hx : Keeps s0 x => ?_) ?_ <;> [clear_value x; subst x]) | (refine (fun hx : KeepsF Prod.fst s0 x => ?_) ?_ <;> [(clear_value x; replace hx := hx.fst); (subst x; refine KeepsF.ofFst ?_)]) | (have _f := fun a => x a; clear _f; subst x) | clear_value x) | with_reducible assumption | with_reducible apply keeps_updSub | with_reducible apply keeps_raise | with_reducible apply keeps_wf | with_reducible apply keeps_bump | with_reducible refine Keeps.ite1 ?_ ?_ | with_reducible refine Keeps.ite ?_ ?_ | split | fail_if_no_progress (with_reducible apply Keeps.update) | intro _ _ | dsimp only)

theorem keeps_activate {s : State} {u : Nat} {b : Nat} {row : Nat} {src : Nat} (hk : Keeps s0 s) :
    Keeps s0 (activate s u b row src) := by
  unfold activate
  repeat' (first | (extract_lets +onlyGivenNames x; first | (refine (fun hx : Keeps s0 x => ?_) ?_ <;> [clear_value x; subst x]) | (refine (fun hx : KeepsF Prod.fst s0 x => ?_) ?_ <;> [(clear_value x; replace hx := hx.fst); (subst x; refine KeepsF.ofFst ?_)]) | (have _f := fun a => x a; clear _f; subst x) | clear_value x) | with_reducible assumption | with_reducible apply keeps_logCmd | with_reducible apply keeps_updSub | with_reducible apply keeps_chargeMitig | with_reducible refine Keeps.ite1 ?_ ?_ | with_reducible refine Keeps.ite ?_ ?_ | split | fail_if_no_progress (with_reducible apply Keeps.update) | intro _ _ | dsimp only)

theorem keeps_mitigate {s : State} {u : Nat} {b : Nat} (hk : Keeps s0 s) :
    Keeps s0 (mitigate s u b) := by
  unfold mitigate
  repeat' (first | (extract_lets +onlyGivenNames x; first | (refine (fun hx : Keeps s0 x => ?_) ?_ <;> [clear_value x; subst x]) | (refine (fun hx : KeepsF Prod.fst s0 x => ?_) ?_ <;> [(clear_value x; replace hx := hx.fst); (subst x; refine KeepsF.ofFst ?_)]) | (have _f := fun a => x a; clear _f; subst x) | clear_value x) | with_reducible assumption | with_reducible apply keeps_logCmd | with_reducible apply keeps_updSub | with_reducible apply keeps_bump | with_reducible refine Keeps.ite1 ?_ ?_ | with_reducible refine Keeps.ite ?_ ?_ | split | fail_if_no_progress (with_reducible apply Keeps.update) | intro _ _ | dsimp only)

theorem keeps_mitigateAll {s : State} {u : Nat} {b : Nat} (hk : Keeps s0 s) :
    Keeps s0 (mitigateAll s u b) := by
  unfold mitigateAll
  repeat' (first | (extract_lets +onlyGivenNames x; first | (refine (fun hx : Keeps s0 x => ?_) ?_ <;> [clear_value x; subst x]) | (refine (fun hx : KeepsF Prod.fst s0 x => ?_) ?_ <;> [(clear_value x; replace hx := hx.fst); (subst x; refine KeepsF.ofFst ?_)]) | (have _f := fun a => x a; clear _f; subst x) | clear_value x) | with_reducible assumption | with_reducible apply keeps_mitigate | with_reducible refine Keeps.ite1 ?_ ?_ | with_reducible refine Keeps.ite ?_ ?_ | with_reducible refine Keeps.foldl (fun _ _ _ => ?_) ?_ | with_reducible refine Keeps.foldl1 (fun _ _ _ => ?_) ?_ | split | intro _ _ | dsimp only)

theorem keeps_openFor {s : State} {u : Nat} {r : DramReq} (hk : Keeps s0 s) :
    Keeps s0 (openFor s u r) := by
  unfold openFor
  repeat' (first | (extract_lets +onlyGivenNames x; first | (refine (fun hx : Keeps s0 x => ?_) ?_ <;> [clear_value x; subst x]) | (refine (fun hx : KeepsF Prod.fst s0 x => ?_) ?_ <;> [(clear_value x; replace hx := hx.fst); (subst x; refine KeepsF.ofFst ?_)]) | (have _f := fun a => x a; clear _f; subst x) | clear_value x) | with_reducible assumption | with_reducible apply keeps_activate | with_reducible refine Keeps.ite1 ?_ ?_ | with_reducible refine Keeps.ite ?_ ?_ | split | dsimp only)

theorem keeps_issueCommand {s : State} {u : Nat} {r : DramReq} (hk : Keeps s0 s) :
    Keeps s0 (issueCommand s u r) := by
  unfold issueCommand
  repeat' (first | (extract_lets +onlyGivenNames x; first | (refine (fun hx : Keeps s0 x => ?_) ?_ <;> [clear_value x; subst x]) | (refine (fun hx : KeepsF Prod.fst s0 x => ?_) ?_ <;> [(clear_value x; replace hx := hx.fst); (subst x; refine KeepsF.ofFst ?_)]) | (have _f := fun a => x a; clear _f; subst x) | clear_value x) | with_reducible assumption | with_reducible apply keeps_injFire | with_reducible apply keeps_logCmd | with_reducible apply keeps_updSub | with_reducible refine Keeps.ite1 ?_ ?_ | with_reducible refine Keeps.ite ?_ ?_ | with_reducible refine Keeps.foldl (fun _ _ _ => ?_) ?_ | with_reducible refine Keeps.foldl1 (fun _ _ _ => ?_) ?_ | split | fail_if_no_progress (with_reducible apply Keeps.update) | intro _ _ | dsimp only)

theorem keeps_arrayRead {s : State} {u : Nat} {a : Nat} {n : Nat} {seq : Nat} (hk : Keeps s0 s) :
    Keeps s0 (arrayRead s u a n seq).1 := by
  unfold arrayRead
  repeat' (first | (extract_lets +onlyGivenNames x; first | (refine (fun hx : Keeps s0 x => ?_) ?_ <;> [clear_value x; subst x]) | (refine (fun hx : KeepsF Prod.fst s0 x => ?_) ?_ <;> [(clear_value x; replace hx := hx.fst); (subst x; refine KeepsF.ofFst ?_)]) | (have _f := fun a => x a; clear _f; subst x) | clear_value x) | with_reducible assumption | with_reducible apply keeps_checkBurst | with_reducible apply keeps_storeBytes | with_reducible refine Keeps.ite1 ?_ ?_ | with_reducible refine Keeps.ite ?_ ?_ | with_reducible refine Keeps.foldl (fun _ _ _ => ?_) ?_ | with_reducible refine Keeps.foldl1 (fun _ _ _ => ?_) ?_ | split | intro _ _ | dsimp only)

theorem keeps_buffered {s : State} (hk : Keeps s0 s) :
    Keeps s0 (buffered s) := by
  unfold buffered
  repeat' (first | (extract_lets +onlyGivenNames x; first | (refine (fun hx : Keeps s0 x => ?_) ?_ <;> [clear_value x; subst x]) | (refine (fun hx : KeepsF Prod.fst s0 x => ?_) ?_ <;> [(clear_value x; replace hx := hx.fst); (subst x; refine KeepsF.ofFst ?_)]) | (have _f := fun a => x a; clear _f; subst x) | clear_value x) | with_reducible assumption | with_reducible apply keeps_storeBytes | with_reducible refine Keeps.ite1 ?_ ?_ | with_reducible refine Keeps.ite ?_ ?_ | with_reducible refine Keeps.foldl (fun _ _ _ => ?_) ?_ | with_reducible refine Keeps.foldl1 (fun _ _ _ => ?_) ?_ | split | intro _ _ | dsimp only)

theorem keeps_poisonRange {s : State} {a : Nat} {n : Nat} (hk : Keeps s0 s) :
    Keeps s0 (poisonRange s a n) := by
  unfold poisonRange
  repeat' (first | (extract_lets +onlyGivenNames x; first | (refine (fun hx : Keeps s0 x => ?_) ?_ <;> [clear_value x; subst x]) | (refine (fun hx : KeepsF Prod.fst s0 x => ?_) ?_ <;> [(clear_value x; replace hx := hx.fst); (subst x; refine KeepsF.ofFst ?_)]) | (have _f := fun a => x a; clear _f; subst x) | clear_value x) | with_reducible assumption | with_reducible apply keeps_markGranule | with_reducible refine Keeps.ite1 ?_ ?_ | with_reducible refine Keeps.ite ?_ ?_ | with_reducible refine Keeps.foldl (fun _ _ _ => ?_) ?_ | with_reducible refine Keeps.foldl1 (fun _ _ _ => ?_) ?_ | split | fail_if_no_progress (with_reducible apply Keeps.update) | intro _ _ | dsimp only)

theorem keeps_refab {s : State} {u : Nat} (hk : Keeps s0 s) :
    Keeps s0 (refab s u) := by
  unfold refab
  repeat' (first | (extract_lets +onlyGivenNames x; first | (refine (fun hx : Keeps s0 x => ?_) ?_ <;> [clear_value x; subst x]) | (refine (fun hx : KeepsF Prod.fst s0 x => ?_) ?_ <;> [(clear_value x; replace hx := hx.fst); (subst x; refine KeepsF.ofFst ?_)]) | (have _f := fun a => x a; clear _f; subst x) | clear_value x) | with_reducible assumption | with_reducible apply keeps_logCmd | with_reducible apply keeps_updSub | with_reducible refine Keeps.ite1 ?_ ?_ | with_reducible refine Keeps.ite ?_ ?_ | split | fail_if_no_progress (with_reducible apply Keeps.update) | intro _ _ | dsimp only)

theorem keeps_dramRespond {s : State} {src : Nat} {chan : Chan} {st : Nat} {data : List Byte} {bad : List (Nat × Nat)} (hk : Keeps s0 s) :
    Keeps s0 (dramRespond s src chan st data bad) := by
  unfold dramRespond
  repeat' (first | (extract_lets +onlyGivenNames x; first | (refine (fun hx : Keeps s0 x => ?_) ?_ <;> [clear_value x; subst x]) | (refine (fun hx : KeepsF Prod.fst s0 x => ?_) ?_ <;> [(clear_value x; replace hx := hx.fst); (subst x; refine KeepsF.ofFst ?_)]) | (have _f := fun a => x a; clear _f; subst x) | clear_value x) | with_reducible assumption | with_reducible refine Keeps.ite1 ?_ ?_ | with_reducible refine Keeps.ite ?_ ?_ | split | fail_if_no_progress (with_reducible apply Keeps.update) | dsimp only)

theorem keeps_drainState {s : State} {u : Nat} (hk : Keeps s0 s) :
    Keeps s0 (drainState s u) := by
  unfold drainState
  repeat' (first | (extract_lets +onlyGivenNames x; first | (refine (fun hx : Keeps s0 x => ?_) ?_ <;> [clear_value x; subst x]) | (refine (fun hx : KeepsF Prod.fst s0 x => ?_) ?_ <;> [(clear_value x; replace hx := hx.fst); (subst x; refine KeepsF.ofFst ?_)]) | (have _f := fun a => x a; clear _f; subst x) | clear_value x) | with_reducible assumption | with_reducible apply keeps_updSub | with_reducible refine Keeps.ite ?_ ?_ | fail_if_no_progress (with_reducible apply Keeps.update) | split | dsimp only)

theorem keeps_releaseAcks {s : State} {u : Nat} (hk : Keeps s0 s) :
    Keeps s0 (releaseAcks s u) := by
  unfold releaseAcks
  repeat' (first | (extract_lets +onlyGivenNames x; first | (refine (fun hx : Keeps s0 x => ?_) ?_ <;> [clear_value x; subst x]) | (refine (fun hx : KeepsF Prod.fst s0 x => ?_) ?_ <;> [(clear_value x; replace hx := hx.fst); (subst x; refine KeepsF.ofFst ?_)]) | (have _f := fun a => x a; clear _f; subst x) | clear_value x) | with_reducible assumption | with_reducible apply keeps_updSub | with_reducible apply keeps_dramRespond | with_reducible refine Keeps.ite1 ?_ ?_ | with_reducible refine Keeps.ite ?_ ?_ | with_reducible refine Keeps.foldl (fun _ _ _ => ?_) ?_ | with_reducible refine Keeps.foldl1 (fun _ _ _ => ?_) ?_ | split | fail_if_no_progress (with_reducible apply Keeps.update) | intro _ _ | dsimp only)

theorem keeps_respondInTurn {s : State} {u : Nat} {seq : Nat} {r : DramResp} (hk : Keeps s0 s) :
    Keeps s0 (respondInTurn s u seq r) := by
  unfold respondInTurn
  repeat' (first | (extract_lets +onlyGivenNames x; first | (refine (fun hx : Keeps s0 x => ?_) ?_ <;> [clear_value x; subst x]) | (refine (fun hx : KeepsF Prod.fst s0 x => ?_) ?_ <;> [(clear_value x; replace hx := hx.fst); (subst x; refine KeepsF.ofFst ?_)]) | (have _f := fun a => x a; clear _f; subst x) | clear_value x) | with_reducible assumption | with_reducible apply keeps_releaseAcks | with_reducible apply keeps_updSub | with_reducible refine Keeps.ite1 ?_ ?_ | with_reducible refine Keeps.ite ?_ ?_ | split | fail_if_no_progress (with_reducible apply Keeps.update) | intro _ _ | dsimp only)

theorem keeps_acceptWrite {s : State} {u : Nat} {r : DramReq} (hk : Keeps s0 s) :
    Keeps s0 (acceptWrite s u r) := by
  unfold acceptWrite
  repeat' (first | (extract_lets +onlyGivenNames x; first | (refine (fun hx : Keeps s0 x => ?_) ?_ <;> [clear_value x; subst x]) | (refine (fun hx : KeepsF Prod.fst s0 x => ?_) ?_ <;> [(clear_value x; replace hx := hx.fst); (subst x; refine KeepsF.ofFst ?_)]) | (have _f := fun a => x a; clear _f; subst x) | clear_value x) | with_reducible assumption | with_reducible apply keeps_updSub | with_reducible apply keeps_drainState | with_reducible apply keeps_respondInTurn | with_reducible refine Keeps.ite1 ?_ ?_ | with_reducible refine Keeps.ite ?_ ?_ | split | fail_if_no_progress (with_reducible apply Keeps.update) | intro _ _ | dsimp only)

theorem keeps_enterQueue {s : State} {u : Nat} {r : DramReq} (hk : Keeps s0 s) :
    Keeps s0 (enterQueue s u r) := by
  unfold enterQueue
  repeat' (first | (extract_lets +onlyGivenNames x; first | (refine (fun hx : Keeps s0 x => ?_) ?_ <;> [clear_value x; subst x]) | (refine (fun hx : KeepsF Prod.fst s0 x => ?_) ?_ <;> [(clear_value x; replace hx := hx.fst); (subst x; refine KeepsF.ofFst ?_)]) | (have _f := fun a => x a; clear _f; subst x) | clear_value x) | with_reducible assumption | with_reducible apply keeps_acceptWrite | with_reducible apply keeps_updSub | with_reducible refine Keeps.ite1 ?_ ?_ | with_reducible refine Keeps.ite ?_ ?_ | split | fail_if_no_progress (with_reducible apply Keeps.update) | intro _ _ | dsimp only)

theorem keeps_admitStopped {u : Nat} {z0 : Nat} {z1 : State} (hk : Keeps s0 z1) :
    Keeps s0 (admitStopped u z0 z1) := by
  induction z0 generalizing z1 with
  | zero =>
    unfold admitStopped
    repeat' (first | (extract_lets +onlyGivenNames x; first | (refine (fun hx : Keeps s0 x => ?_) ?_ <;> [clear_value x; subst x]) | (refine (fun hx : KeepsF Prod.fst s0 x => ?_) ?_ <;> [(clear_value x; replace hx := hx.fst); (subst x; refine KeepsF.ofFst ?_)]) | (have _f := fun a => x a; clear _f; subst x) | clear_value x) | with_reducible assumption | with_reducible apply keeps_enterQueue | with_reducible apply keeps_updSub | with_reducible refine Keeps.ite1 ?_ ?_ | with_reducible refine Keeps.ite ?_ ?_ | split | fail_if_no_progress (with_reducible apply Keeps.update) | intro _ _ | dsimp only)
  | succ y ihk =>
    unfold admitStopped
    repeat' (first | (extract_lets +onlyGivenNames x; first | (refine (fun hx : Keeps s0 x => ?_) ?_ <;> [clear_value x; subst x]) | (refine (fun hx : KeepsF Prod.fst s0 x => ?_) ?_ <;> [(clear_value x; replace hx := hx.fst); (subst x; refine KeepsF.ofFst ?_)]) | (have _f := fun a => x a; clear _f; subst x) | clear_value x) | with_reducible assumption | with_reducible apply ihk | with_reducible apply keeps_enterQueue | with_reducible apply keeps_updSub | with_reducible refine Keeps.ite1 ?_ ?_ | with_reducible refine Keeps.ite ?_ ?_ | split | fail_if_no_progress (with_reducible apply Keeps.update) | intro _ _ | dsimp only)

theorem keeps_placeFreed {s : State} {u : Nat} (hk : Keeps s0 s) :
    Keeps s0 (placeFreed s u) := by
  unfold placeFreed
  repeat' (first | (extract_lets +onlyGivenNames x; first | (refine (fun hx : Keeps s0 x => ?_) ?_ <;> [clear_value x; subst x]) | (refine (fun hx : KeepsF Prod.fst s0 x => ?_) ?_ <;> [(clear_value x; replace hx := hx.fst); (subst x; refine KeepsF.ofFst ?_)]) | (have _f := fun a => x a; clear _f; subst x) | clear_value x) | with_reducible assumption | with_reducible apply keeps_admitStopped | with_reducible refine Keeps.ite1 ?_ ?_ | with_reducible refine Keeps.ite ?_ ?_ | split | dsimp only)

theorem keeps_issueWrite {s : State} {u : Nat} {i : Nat} {r : DramReq} (hk : Keeps s0 s) :
    Keeps s0 (issueWrite s u i r) := by
  unfold issueWrite
  repeat' (first | (extract_lets +onlyGivenNames x; first | (refine (fun hx : Keeps s0 x => ?_) ?_ <;> [clear_value x; subst x]) | (refine (fun hx : KeepsF Prod.fst s0 x => ?_) ?_ <;> [(clear_value x; replace hx := hx.fst); (subst x; refine KeepsF.ofFst ?_)]) | (have _f := fun a => x a; clear _f; subst x) | clear_value x) | with_reducible assumption | with_reducible apply keeps_openFor | with_reducible apply keeps_updSub | with_reducible apply keeps_placeFreed | with_reducible apply keeps_drainState | with_reducible apply keeps_storeBytes | with_reducible apply keeps_issueCommand | with_reducible refine Keeps.ite1 ?_ ?_ | with_reducible refine Keeps.ite ?_ ?_ | split | fail_if_no_progress (with_reducible apply Keeps.update) | intro _ _ | dsimp only)

theorem keeps_engineCommand {s : State} {u : Nat} {r : DramReq} {t0 : State}
    (e : engineCommand s u r = some t0) (hk : Keeps s0 s) : Keeps s0 t0 := by
  unfold engineCommand at e
  repeat' (first | (cases e; done) | (obtain rfl := Option.some.inj e; repeat' (first | (extract_lets +onlyGivenNames x; first | (refine (fun hx : Keeps s0 x => ?_) ?_ <;> [clear_value x; subst x]) | (refine (fun hx : KeepsF Prod.fst s0 x => ?_) ?_ <;> [(clear_value x; replace hx := hx.fst); (subst x; refine KeepsF.ofFst ?_)]) | (have _f := fun a => x a; clear _f; subst x) | clear_value x) | with_reducible assumption | with_reducible apply keeps_makeRoom | with_reducible apply keeps_openFor | with_reducible apply keeps_mitigateAll | with_reducible apply keeps_updIo | with_reducible apply keeps_issueCommand | with_reducible refine Keeps.ite1 ?_ ?_ | with_reducible refine Keeps.ite ?_ ?_ | split | fail_if_no_progress (with_reducible apply Keeps.update) | intro _ _ | dsimp only)) | split at e | dsimp only at e)

theorem keeps_drainOne {s : State} {u : Nat} {t0 : State}
    (e : drainOne s u = some t0) (hk : Keeps s0 s) : Keeps s0 t0 := by
  unfold drainOne at e
  repeat' (first | (cases e; done) | (obtain rfl := Option.some.inj e; repeat' (first | (extract_lets +onlyGivenNames x; first | (refine (fun hx : Keeps s0 x => ?_) ?_ <;> [clear_value x; subst x]) | (refine (fun hx : KeepsF Prod.fst s0 x => ?_) ?_ <;> [(clear_value x; replace hx := hx.fst); (subst x; refine KeepsF.ofFst ?_)]) | (have _f := fun a => x a; clear _f; subst x) | clear_value x) | with_reducible assumption | with_reducible apply keeps_issueWrite | with_reducible apply keeps_updIo | with_reducible apply keeps_makeRoom | with_reducible refine Keeps.ite1 ?_ ?_ | with_reducible refine Keeps.ite ?_ ?_ | split | fail_if_no_progress (with_reducible apply Keeps.update) | intro _ _ | dsimp only)) | split at e | dsimp only at e)

theorem keeps_engineWrite {s : State} {u : Nat} {r : DramReq} {t0 : State}
    (e : engineWrite s u r = some t0) (hk : Keeps s0 s) : Keeps s0 t0 := by
  unfold engineWrite at e
  split at e
  · cases e
  · dsimp only at e
    split at e
    · obtain ⟨t, he, hx⟩ := Option.bind_eq_some_iff.1 e
      have ht := keeps_drainOne he hk
      split at hx
      · cases hx
      · cases hx; exact keeps_enterQueue (Keeps.update ht)
    · cases e; exact keeps_enterQueue (Keeps.update hk)

theorem keeps_patientEnter {s : State} {u : Nat} {r : DramReq} {t0 : State}
    (e : patientEnter s u r = some t0) (hk : Keeps s0 s) : Keeps s0 t0 := by
  unfold patientEnter at e
  split at e
  · exact keeps_engineWrite e hk
  · cases e

end Sys2Proof.Laws
end

