-- ==== Sys2Proof/Laws/KeepsHostPort.lean ====
section
/-!
SUPPORT. Laws/KeepsHostPort.lean: the operations of Machine/HostPort.lean keep the queue, the clock and the form of the memory.
-/
namespace Sys2Proof.Laws
open Sys2Proof Sys2Proof.Machine

variable {s0 : State}
set_option linter.unreachableTactic false
set_option linter.unusedTactic false

theorem keeps_hwinRefuse {s : State} {cause : Nat} {req : Req} {w : Nat} {a : Nat} (hk : Keeps s0 s) :
    Keeps s0 (hwinRefuse s cause req w a) := by
  unfold hwinRefuse
  repeat' (first | (extract_lets +onlyGivenNames x; first | (refine (fun hx : Keeps s0 x => ?_) ?_ <;> [clear_value x; subst x]) | (refine (fun hx : KeepsF Prod.fst s0 x => ?_) ?_ <;> [(clear_value x; replace hx := hx.fst); (subst x; refine KeepsF.ofFst ?_)]) | (have _f := fun a => x a; clear _f; subst x) | clear_value x) | with_reducible assumption | with_reducible apply keeps_bump | with_reducible apply keeps_fault | with_reducible refine Keeps.ite ?_ ?_ | split | dsimp only)

theorem keeps_logCor {s : State} {fn : Nat} {bitNo : Nat} (hk : Keeps s0 s) :
    Keeps s0 (logCor s fn bitNo) := by
  unfold logCor
  repeat' (first | (extract_lets +onlyGivenNames x; first | (refine (fun hx : Keeps s0 x => ?_) ?_ <;> [clear_value x; subst x]) | (refine (fun hx : KeepsF Prod.fst s0 x => ?_) ?_ <;> [(clear_value x; replace hx := hx.fst); (subst x; refine KeepsF.ofFst ?_)]) | (have _f := fun a => x a; clear _f; subst x) | clear_value x) | with_reducible assumption | with_reducible apply keeps_updFunc | with_reducible refine Keeps.ite1 ?_ ?_ | with_reducible refine Keeps.ite ?_ ?_ | split | fail_if_no_progress (with_reducible apply Keeps.update) | intro _ _ | dsimp only)

theorem keeps_logAer {s : State} {fn : Nat} {bitNo : Nat} {header : List Nat} (hk : Keeps s0 s) :
    Keeps s0 (logAer s fn bitNo header) := by
  unfold logAer
  repeat' (first | (extract_lets +onlyGivenNames x; first | (refine (fun hx : Keeps s0 x => ?_) ?_ <;> [clear_value x; subst x]) | (refine (fun hx : KeepsF Prod.fst s0 x => ?_) ?_ <;> [(clear_value x; replace hx := hx.fst); (subst x; refine KeepsF.ofFst ?_)]) | (have _f := fun a => x a; clear _f; subst x) | clear_value x) | with_reducible assumption | with_reducible apply keeps_updFunc | with_reducible apply keeps_logCor | with_reducible apply keeps_raise | with_reducible refine Keeps.ite1 ?_ ?_ | with_reducible refine Keeps.ite ?_ ?_ | split | fail_if_no_progress (with_reducible apply Keeps.update) | intro _ _ | dsimp only)

theorem keeps_logAdvisory {s : State} {fn : Nat} {bitNo : Nat} {header : List Nat} (hk : Keeps s0 s) :
    Keeps s0 (logAdvisory s fn bitNo header) := by
  unfold logAdvisory
  repeat' (first | (extract_lets +onlyGivenNames x; first | (refine (fun hx : Keeps s0 x => ?_) ?_ <;> [clear_value x; subst x]) | (refine (fun hx : KeepsF Prod.fst s0 x => ?_) ?_ <;> [(clear_value x; replace hx := hx.fst); (subst x; refine KeepsF.ofFst ?_)]) | (have _f := fun a => x a; clear _f; subst x) | clear_value x) | with_reducible assumption | with_reducible apply keeps_logAer | with_reducible apply keeps_logCor | with_reducible refine Keeps.ite1 ?_ ?_ | with_reducible refine Keeps.ite ?_ ?_ | split | intro _ _ | dsimp only)

theorem keeps_poisonIn {s : State} {req : Req} {fn : Nat} {a : Option Nat} {hdr : List Nat} (hk : Keeps s0 s) :
    Keeps s0 (poisonIn s req fn a hdr) := by
  unfold poisonIn
  repeat' (first | (extract_lets +onlyGivenNames x; first | (refine (fun hx : Keeps s0 x => ?_) ?_ <;> [clear_value x; subst x]) | (refine (fun hx : KeepsF Prod.fst s0 x => ?_) ?_ <;> [(clear_value x; replace hx := hx.fst); (subst x; refine KeepsF.ofFst ?_)]) | (have _f := fun a => x a; clear _f; subst x) | clear_value x) | with_reducible assumption | with_reducible apply keeps_logAer | with_reducible apply keeps_fault | with_reducible refine Keeps.ite1 ?_ ?_ | with_reducible refine Keeps.ite ?_ ?_ | split | dsimp only)

theorem keeps_sendRead {s : State} {id : Nat} {fn : Nat} {a : Nat} {n : Nat} {tag : Nat} (hk : Keeps s0 s) :
    Keeps s0 (sendRead s id fn a n tag) := by
  unfold sendRead
  repeat' (first | (extract_lets +onlyGivenNames x; first | (refine (fun hx : Keeps s0 x => ?_) ?_ <;> [clear_value x; subst x]) | (refine (fun hx : KeepsF Prod.fst s0 x => ?_) ?_ <;> [(clear_value x; replace hx := hx.fst); (subst x; refine KeepsF.ofFst ?_)]) | (have _f := fun a => x a; clear _f; subst x) | clear_value x) | with_reducible assumption | with_reducible apply keeps_sendHost | with_reducible apply keeps_peak | with_reducible refine Keeps.ite1 ?_ ?_ | with_reducible refine Keeps.ite ?_ ?_ | split | fail_if_no_progress (with_reducible apply Keeps.update) | dsimp only)

theorem keeps_hostAnswer {s : State} {fn : Nat} {a0 : Nat} {tag : Nat} {n : Nat} {hold : State → State} (hk : Keeps s0 s) (hhold : ∀ v0, Keeps s0 v0 → Keeps s0 (hold v0)) :
    Keeps s0 (hostAnswer s fn a0 tag n hold).1 := by
  unfold hostAnswer
  repeat' (first | (extract_lets +onlyGivenNames x; first | (refine (fun hx : Keeps s0 x => ?_) ?_ <;> [clear_value x; subst x]) | (refine (fun hx : KeepsF Prod.fst s0 x => ?_) ?_ <;> [(clear_value x; replace hx := hx.fst); (subst x; refine KeepsF.ofFst ?_)]) | (have _f := fun a => x a; clear _f; subst x) | clear_value x) | with_reducible assumption | with_reducible apply hhold | with_reducible apply keeps_updIo | with_reducible apply keeps_poisonIn | with_reducible apply keeps_block | with_reducible apply keeps_fault | with_reducible apply keeps_raise | with_reducible apply keeps_logAer | with_reducible refine Keeps.ite1 ?_ ?_ | with_reducible refine Keeps.ite ?_ ?_ | with_reducible refine Keeps.foldl (fun _ _ _ => ?_) ?_ | with_reducible refine Keeps.foldl1 (fun _ _ _ => ?_) ?_ | split | fail_if_no_progress (with_reducible apply Keeps.update) | intro _ _ | dsimp only)

theorem keeps_hostRequest {s : State} {r : StuckRead} {a : Nat} {n : Nat} (hk : Keeps s0 s) :
    Keeps s0 (hostRequest s r a n).1 := by
  unfold hostRequest
  repeat' (first | (extract_lets +onlyGivenNames x; first | (refine (fun hx : Keeps s0 x => ?_) ?_ <;> [clear_value x; subst x]) | (refine (fun hx : KeepsF Prod.fst s0 x => ?_) ?_ <;> [(clear_value x; replace hx := hx.fst); (subst x; refine KeepsF.ofFst ?_)]) | (have _f := fun a => x a; clear _f; subst x) | clear_value x) | with_reducible assumption | with_reducible apply keeps_block | with_reducible apply keeps_hostAnswer | with_reducible apply keeps_sendRead | with_reducible apply keeps_updIo | with_reducible refine Keeps.ite1 ?_ ?_ | with_reducible refine Keeps.ite ?_ ?_ | split | fail_if_no_progress (with_reducible apply Keeps.update) | intro _ _ | dsimp only)

theorem keeps_hostRequests {k : StuckRead} {z0 : List (Nat × Nat)} {z1 : State} (hk : Keeps s0 z1) :
    Keeps s0 (hostRequests k z0 z1).1 := by
  induction z0 generalizing z1 with
  | nil =>
    unfold hostRequests
    repeat' (first | (extract_lets +onlyGivenNames x; first | (refine (fun hx : Keeps s0 x => ?_) ?_ <;> [clear_value x; subst x]) | (refine (fun hx : KeepsF Prod.fst s0 x => ?_) ?_ <;> [(clear_value x; replace hx := hx.fst); (subst x; refine KeepsF.ofFst ?_)]) | (have _f := fun a => x a; clear _f; subst x) | clear_value x) | with_reducible assumption | with_reducible apply keeps_hostRequest | with_reducible refine Keeps.ite1 ?_ ?_ | with_reducible refine Keeps.ite ?_ ?_ | split | intro _ _ | dsimp only)
  | cons y ys ihk =>
    obtain ⟨_,_⟩ := y
    unfold hostRequests
    repeat' (first | (extract_lets +onlyGivenNames x; first | (refine (fun hx : Keeps s0 x => ?_) ?_ <;> [clear_value x; subst x]) | (refine (fun hx : KeepsF Prod.fst s0 x => ?_) ?_ <;> [(clear_value x; replace hx := hx.fst); (subst x; refine KeepsF.ofFst ?_)]) | (have _f := fun a => x a; clear _f; subst x) | clear_value x) | with_reducible assumption | with_reducible apply ihk | with_reducible apply keeps_hostRequest | with_reducible refine Keeps.ite1 ?_ ?_ | with_reducible refine Keeps.ite ?_ ?_ | split | intro _ _ | dsimp only)

theorem keeps_holdStuck {s : State} {x : Option (StuckRead × Nat × Nat)} (hk : Keeps s0 s) :
    Keeps s0 (holdStuck s x) := by
  unfold holdStuck
  repeat' (first | (extract_lets +onlyGivenNames x; first | (refine (fun hx : Keeps s0 x => ?_) ?_ <;> [clear_value x; subst x]) | (refine (fun hx : KeepsF Prod.fst s0 x => ?_) ?_ <;> [(clear_value x; replace hx := hx.fst); (subst x; refine KeepsF.ofFst ?_)]) | (have _f := fun a => x a; clear _f; subst x) | clear_value x) | with_reducible assumption | with_reducible apply keeps_sendRead | with_reducible refine Keeps.ite1 ?_ ?_ | with_reducible refine Keeps.ite ?_ ?_ | split | fail_if_no_progress (with_reducible apply Keeps.update) | dsimp only)

theorem keeps_hostRead {s : State} {req : Req} {w : Nat} {a : Nat} {n : Nat} (hk : Keeps s0 s) :
    Keeps s0 (hostRead s req w a n).1 := by
  unfold hostRead
  repeat' (first | (extract_lets +onlyGivenNames x; first | (refine (fun hx : Keeps s0 x => ?_) ?_ <;> [clear_value x; subst x]) | (refine (fun hx : KeepsF Prod.fst s0 x => ?_) ?_ <;> [(clear_value x; replace hx := hx.fst); (subst x; refine KeepsF.ofFst ?_)]) | (have _f := fun a => x a; clear _f; subst x) | clear_value x) | with_reducible assumption | with_reducible apply keeps_hostAnswer | with_reducible apply keeps_hwinRefuse | with_reducible apply keeps_block | with_reducible apply keeps_hostRequests | with_reducible refine Keeps.ite1 ?_ ?_ | with_reducible refine Keeps.ite ?_ ?_ | split | fail_if_no_progress (with_reducible apply Keeps.update) | intro _ _ | dsimp only [id] | dsimp only)

theorem keeps_hostWrite {s : State} {req : Req} {w : Nat} {a : Nat} {bs : List Byte} {bad : List (Nat × Nat)} {relaxed : Bool} (hk : Keeps s0 s) :
    Keeps s0 (hostWrite s req w a bs bad relaxed).1 := by
  unfold hostWrite
  repeat' (first | (extract_lets +onlyGivenNames x; first | (refine (fun hx : Keeps s0 x => ?_) ?_ <;> [clear_value x; subst x]) | (refine (fun hx : KeepsF Prod.fst s0 x => ?_) ?_ <;> [(clear_value x; replace hx := hx.fst); (subst x; refine KeepsF.ofFst ?_)]) | (have _f := fun a => x a; clear _f; subst x) | clear_value x) | with_reducible assumption | with_reducible apply keeps_hwinRefuse | with_reducible apply keeps_block | with_reducible apply keeps_sendHost | with_reducible apply keeps_fault | with_reducible refine Keeps.ite1 ?_ ?_ | with_reducible refine Keeps.ite ?_ ?_ | with_reducible refine Keeps.foldl (fun _ _ _ => ?_) ?_ | with_reducible refine Keeps.foldl1 (fun _ _ _ => ?_) ?_ | split | fail_if_no_progress (with_reducible apply Keeps.update) | intro _ _ | dsimp only)

end Sys2Proof.Laws
end

