-- ==== Sys2Proof/Laws/KeepsAccess.lean ====
section
/-!
SUPPORT. Laws/KeepsAccess.lean: the operations of Machine/Access.lean keep the queue, the clock and the form of the memory.
-/
namespace Sys2Proof.Laws
open Sys2Proof Sys2Proof.Machine

variable {s0 : State}
set_option linter.unreachableTactic false
set_option linter.unusedTactic false

theorem keeps_localRead {s : State} {a : Nat} {n : Nat} (hk : Keeps s0 s) :
    Keeps s0 (localRead s a n).1 := by
  unfold localRead
  repeat' (first | (extract_lets +onlyGivenNames x; first | (refine (fun hx : Keeps s0 x => ?_) ?_ <;> [clear_value x; subst x]) | (refine (fun hx : KeepsF Prod.fst s0 x => ?_) ?_ <;> [(clear_value x; replace hx := hx.fst); (subst x; refine KeepsF.ofFst ?_)]) | (have _f := fun a => x a; clear _f; subst x) | clear_value x) | with_reducible assumption | with_reducible apply keeps_checkRange | with_reducible apply keeps_wakeAt | with_reducible refine Keeps.ite1 ?_ ?_ | with_reducible refine Keeps.ite ?_ ?_ | split | fail_if_no_progress (with_reducible apply Keeps.update) | dsimp only)

theorem keeps_localWrite {s : State} {a : Nat} {bs : List Byte} {bad : List (Nat × Nat)} (hk : Keeps s0 s) :
    Keeps s0 (localWrite s a bs bad).1 := by
  unfold localWrite
  repeat' (first | (extract_lets +onlyGivenNames x; first | (refine (fun hx : Keeps s0 x => ?_) ?_ <;> [clear_value x; subst x]) | (refine (fun hx : KeepsF Prod.fst s0 x => ?_) ?_ <;> [(clear_value x; replace hx := hx.fst); (subst x; refine KeepsF.ofFst ?_)]) | (have _f := fun a => x a; clear _f; subst x) | clear_value x) | with_reducible assumption | with_reducible apply keeps_storeBytes | with_reducible apply keeps_wakeAt | with_reducible refine Keeps.ite1 ?_ ?_ | with_reducible refine Keeps.ite ?_ ?_ | split | fail_if_no_progress (with_reducible apply Keeps.update) | dsimp only)

theorem keeps_readMem {s : State} {v : Via} {a : Nat} {n : Nat} (hk : Keeps s0 s) :
    Keeps s0 (readMem s v a n).1 := by
  unfold readMem
  repeat' (first | (extract_lets +onlyGivenNames x; first | (refine (fun hx : Keeps s0 x => ?_) ?_ <;> [clear_value x; subst x]) | (refine (fun hx : KeepsF Prod.fst s0 x => ?_) ?_ <;> [(clear_value x; replace hx := hx.fst); (subst x; refine KeepsF.ofFst ?_)]) | (have _f := fun a => x a; clear _f; subst x) | clear_value x) | with_reducible assumption | with_reducible refine keeps_engineCommand ‹_› ?_ | with_reducible apply keeps_wakeAt | with_reducible apply keeps_block | with_reducible apply keeps_arrayRead | with_reducible apply keeps_localRead | with_reducible refine Keeps.ite1 ?_ ?_ | with_reducible refine Keeps.ite ?_ ?_ | split | fail_if_no_progress (with_reducible apply Keeps.update) | dsimp only)

theorem keeps_fencedWrite {s : State} {v : Via} {u : Nat} {a : Nat} {n : Nat} (hk : Keeps s0 s) :
    Keeps s0 (fencedWrite s v u a n) := by
  unfold fencedWrite
  repeat' (first | (extract_lets +onlyGivenNames x; first | (refine (fun hx : Keeps s0 x => ?_) ?_ <;> [clear_value x; subst x]) | (refine (fun hx : KeepsF Prod.fst s0 x => ?_) ?_ <;> [(clear_value x; replace hx := hx.fst); (subst x; refine KeepsF.ofFst ?_)]) | (have _f := fun a => x a; clear _f; subst x) | clear_value x) | with_reducible assumption | with_reducible apply keeps_fault | with_reducible refine Keeps.ite1 ?_ ?_ | with_reducible refine Keeps.ite ?_ ?_ | split | dsimp only)

theorem keeps_writeMem {s : State} {v : Via} {a : Nat} {bs : List Byte} {bad : List (Nat × Nat)} (hk : Keeps s0 s) :
    Keeps s0 (writeMem s v a bs bad).1 := by
  unfold writeMem
  repeat' (first | (extract_lets +onlyGivenNames x; first | (refine (fun hx : Keeps s0 x => ?_) ?_ <;> [clear_value x; subst x]) | (refine (fun hx : KeepsF Prod.fst s0 x => ?_) ?_ <;> [(clear_value x; replace hx := hx.fst); (subst x; refine KeepsF.ofFst ?_)]) | (have _f := fun a => x a; clear _f; subst x) | clear_value x) | with_reducible assumption | with_reducible refine keeps_engineWrite ‹_› ?_ | with_reducible apply keeps_wakeAt | with_reducible apply keeps_block | with_reducible apply keeps_fencedWrite | with_reducible apply keeps_localWrite | with_reducible refine Keeps.ite1 ?_ ?_ | with_reducible refine Keeps.ite ?_ ?_ | split | fail_if_no_progress (with_reducible apply Keeps.update) | dsimp only)

theorem keeps_writeMemPatient {s : State} {v : Via} {a : Nat} {bs : List Byte} {bad : List (Nat × Nat)} (hk : Keeps s0 s) :
    Keeps s0 (writeMemPatient s v a bs bad).1 := by
  unfold writeMemPatient
  repeat' (first | (extract_lets +onlyGivenNames x; first | (refine (fun hx : Keeps s0 x => ?_) ?_ <;> [clear_value x; subst x]) | (refine (fun hx : KeepsF Prod.fst s0 x => ?_) ?_ <;> [(clear_value x; replace hx := hx.fst); (subst x; refine KeepsF.ofFst ?_)]) | (have _f := fun a => x a; clear _f; subst x) | clear_value x) | with_reducible assumption | with_reducible refine keeps_patientEnter ‹_› ?_ | with_reducible apply keeps_wakeAt | with_reducible apply keeps_updSub | with_reducible apply keeps_writeMem | with_reducible refine Keeps.ite1 ?_ ?_ | with_reducible refine Keeps.ite ?_ ?_ | split | fail_if_no_progress (with_reducible apply Keeps.update) | intro _ _ | dsimp only)

theorem keeps_windowRead {s : State} {v : Via} {a : Nat} {n : Nat} (hk : Keeps s0 s) :
    Keeps s0 (windowRead s v a n).1 := by
  unfold windowRead
  repeat' (first | (extract_lets +onlyGivenNames x; first | (refine (fun hx : Keeps s0 x => ?_) ?_ <;> [clear_value x; subst x]) | (refine (fun hx : KeepsF Prod.fst s0 x => ?_) ?_ <;> [(clear_value x; replace hx := hx.fst); (subst x; refine KeepsF.ofFst ?_)]) | (have _f := fun a => x a; clear _f; subst x) | clear_value x) | with_reducible assumption | with_reducible apply keeps_updIo | with_reducible refine Keeps.ite1 ?_ ?_ | with_reducible refine Keeps.ite ?_ ?_ | split | fail_if_no_progress (with_reducible apply Keeps.update) | intro _ _ | dsimp only)

theorem keeps_windowWrite {s : State} {v : Via} {a : Nat} {bs : List Byte} {bad : List (Nat × Nat)} (hk : Keeps s0 s) :
    Keeps s0 (windowWrite s v a bs bad).1 := by
  unfold windowWrite
  repeat' (first | (extract_lets +onlyGivenNames x; first | (refine (fun hx : Keeps s0 x => ?_) ?_ <;> [clear_value x; subst x]) | (refine (fun hx : KeepsF Prod.fst s0 x => ?_) ?_ <;> [(clear_value x; replace hx := hx.fst); (subst x; refine KeepsF.ofFst ?_)]) | (have _f := fun a => x a; clear _f; subst x) | clear_value x) | with_reducible assumption | with_reducible apply keeps_updIo | with_reducible refine Keeps.ite1 ?_ ?_ | with_reducible refine Keeps.ite ?_ ?_ | split | fail_if_no_progress (with_reducible apply Keeps.update) | intro _ _ | dsimp only)

theorem keeps_stopRefuses {s : State} {v : Via} {cause : Nat} {a : Nat} {n : Nat} (hk : Keeps s0 s) :
    Keeps s0 (stopRefuses s v cause a n) := by
  unfold stopRefuses
  repeat' (first | (extract_lets +onlyGivenNames x; first | (refine (fun hx : Keeps s0 x => ?_) ?_ <;> [clear_value x; subst x]) | (refine (fun hx : KeepsF Prod.fst s0 x => ?_) ?_ <;> [(clear_value x; replace hx := hx.fst); (subst x; refine KeepsF.ofFst ?_)]) | (have _f := fun a => x a; clear _f; subst x) | clear_value x) | with_reducible assumption | with_reducible apply keeps_fault | with_reducible refine Keeps.ite1 ?_ ?_ | with_reducible refine Keeps.ite ?_ ?_ | split | dsimp only)

theorem keeps_dropAbandon {s : State} {x : Nat × Nat × Bool} (hk : Keeps s0 s) :
    Keeps s0 (dropAbandon s x) := by
  unfold dropAbandon
  repeat' (first | (extract_lets +onlyGivenNames x; first | (refine (fun hx : Keeps s0 x => ?_) ?_ <;> [clear_value x; subst x]) | (refine (fun hx : KeepsF Prod.fst s0 x => ?_) ?_ <;> [(clear_value x; replace hx := hx.fst); (subst x; refine KeepsF.ofFst ?_)]) | (have _f := fun a => x a; clear _f; subst x) | clear_value x) | with_reducible assumption | with_reducible apply keeps_updMortar | with_reducible apply keeps_abandon | with_reducible refine Keeps.ite1 ?_ ?_ | with_reducible refine Keeps.ite ?_ ?_ | split | fail_if_no_progress (with_reducible apply Keeps.update) | intro _ _ | dsimp only)

theorem keeps_placeRead {s : State} {v : Via} {a : Nat} {n : Nat} (hk : Keeps s0 s) :
    Keeps s0 (placeRead s v a n).1 := by
  unfold placeRead
  repeat' (first | (extract_lets +onlyGivenNames x; first | (refine (fun hx : Keeps s0 x => ?_) ?_ <;> [clear_value x; subst x]) | (refine (fun hx : KeepsF Prod.fst s0 x => ?_) ?_ <;> [(clear_value x; replace hx := hx.fst); (subst x; refine KeepsF.ofFst ?_)]) | (have _f := fun a => x a; clear _f; subst x) | clear_value x) | with_reducible assumption | with_reducible apply keeps_hostRead | with_reducible apply keeps_windowRead | with_reducible apply keeps_readMem | with_reducible refine Keeps.ite1 ?_ ?_ | with_reducible refine Keeps.ite ?_ ?_ | split | fail_if_no_progress (with_reducible apply Keeps.update) | dsimp only)

theorem keeps_placeWrite {s : State} {v : Via} {a : Nat} {bs : List Byte} {bad : List (Nat × Nat)} {relaxed : Bool} (hk : Keeps s0 s) :
    Keeps s0 (placeWrite s v a bs bad relaxed).1 := by
  unfold placeWrite
  repeat' (first | (extract_lets +onlyGivenNames x; first | (refine (fun hx : Keeps s0 x => ?_) ?_ <;> [clear_value x; subst x]) | (refine (fun hx : KeepsF Prod.fst s0 x => ?_) ?_ <;> [(clear_value x; replace hx := hx.fst); (subst x; refine KeepsF.ofFst ?_)]) | (have _f := fun a => x a; clear _f; subst x) | clear_value x) | with_reducible assumption | with_reducible apply keeps_hostWrite | with_reducible apply keeps_windowWrite | with_reducible apply keeps_writeMem | with_reducible refine Keeps.ite1 ?_ ?_ | with_reducible refine Keeps.ite ?_ ?_ | split | fail_if_no_progress (with_reducible apply Keeps.update) | dsimp only)

theorem keeps_carryRead {s : State} {v : Via} {a : Nat} {n : Nat} {f : State → State × Got} (hk : Keeps s0 s) (hf : ∀ v0, Keeps s0 v0 → Keeps s0 (f v0).1) :
    Keeps s0 (carryRead s v a n f).1 := by
  unfold carryRead
  repeat' (first | (extract_lets +onlyGivenNames x; first | (refine (fun hx : Keeps s0 x => ?_) ?_ <;> [clear_value x; subst x]) | (refine (fun hx : KeepsF Prod.fst s0 x => ?_) ?_ <;> [(clear_value x; replace hx := hx.fst); (subst x; refine KeepsF.ofFst ?_)]) | (have _f := fun a => x a; clear _f; subst x) | clear_value x) | with_reducible assumption | with_reducible apply hf | with_reducible apply keeps_stopRefuses | with_reducible apply keeps_dropAbandon | with_reducible apply keeps_countFlits | with_reducible refine Keeps.ite1 ?_ ?_ | with_reducible refine Keeps.ite ?_ ?_ | split | fail_if_no_progress (with_reducible apply Keeps.update) | dsimp only)

theorem keeps_carryWrite {s : State} {v : Via} {a : Nat} {n : Nat} {f : State → State × Nat} (hk : Keeps s0 s) (hf : ∀ v0, Keeps s0 v0 → Keeps s0 (f v0).1) :
    Keeps s0 (carryWrite s v a n f).1 := by
  unfold carryWrite
  repeat' (first | (extract_lets +onlyGivenNames x; first | (refine (fun hx : Keeps s0 x => ?_) ?_ <;> [clear_value x; subst x]) | (refine (fun hx : KeepsF Prod.fst s0 x => ?_) ?_ <;> [(clear_value x; replace hx := hx.fst); (subst x; refine KeepsF.ofFst ?_)]) | (have _f := fun a => x a; clear _f; subst x) | clear_value x) | with_reducible assumption | with_reducible apply hf | with_reducible apply keeps_stopRefuses | with_reducible apply keeps_dropAbandon | with_reducible apply keeps_countFlits | with_reducible refine Keeps.ite1 ?_ ?_ | with_reducible refine Keeps.ite ?_ ?_ | split | fail_if_no_progress (with_reducible apply Keeps.update) | dsimp only)

theorem keeps_carryCall {α : Type} {s : State} {v : Via} {isl : Nat} {out : Nat} {back : Nat} {lost : Nat → α} {f : State → State × α} (hk : Keeps s0 s) (hf : ∀ v0, Keeps s0 v0 → Keeps s0 (f v0).1) :
    Keeps s0 (carryCall s v isl out back lost f).1 := by
  unfold carryCall
  repeat' (first | (extract_lets +onlyGivenNames x; first | (refine (fun hx : Keeps s0 x => ?_) ?_ <;> [clear_value x; subst x]) | (refine (fun hx : KeepsF Prod.fst s0 x => ?_) ?_ <;> [(clear_value x; replace hx := hx.fst); (subst x; refine KeepsF.ofFst ?_)]) | (have _f := fun a => x a; clear _f; subst x) | clear_value x) | with_reducible assumption | with_reducible apply hf | with_reducible apply keeps_dropAbandon | with_reducible apply keeps_countFlits | with_reducible apply keeps_wake | with_reducible refine Keeps.ite1 ?_ ?_ | with_reducible refine Keeps.ite ?_ ?_ | split | fail_if_no_progress (with_reducible apply Keeps.update) | dsimp only)

theorem keeps_devRead {s : State} {v : Via} {a : Nat} {n : Nat} (hk : Keeps s0 s) :
    Keeps s0 (devRead s v a n).1 := by
  unfold devRead
  repeat' (first | (extract_lets +onlyGivenNames x; first | (refine (fun hx : Keeps s0 x => ?_) ?_ <;> [clear_value x; subst x]) | (refine (fun hx : KeepsF Prod.fst s0 x => ?_) ?_ <;> [(clear_value x; replace hx := hx.fst); (subst x; refine KeepsF.ofFst ?_)]) | (have _f := fun a => x a; clear _f; subst x) | clear_value x) | with_reducible assumption | with_reducible apply keeps_carryRead | with_reducible apply keeps_placeRead | with_reducible refine Keeps.ite1 ?_ ?_ | with_reducible refine Keeps.ite ?_ ?_ | split | intro _ _ | dsimp only)

theorem keeps_devWrite {s : State} {v : Via} {a : Nat} {bs : List Byte} {bad : List (Nat × Nat)} {relaxed : Bool} (hk : Keeps s0 s) :
    Keeps s0 (devWrite s v a bs bad relaxed).1 := by
  unfold devWrite
  repeat' (first | (extract_lets +onlyGivenNames x; first | (refine (fun hx : Keeps s0 x => ?_) ?_ <;> [clear_value x; subst x]) | (refine (fun hx : KeepsF Prod.fst s0 x => ?_) ?_ <;> [(clear_value x; replace hx := hx.fst); (subst x; refine KeepsF.ofFst ?_)]) | (have _f := fun a => x a; clear _f; subst x) | clear_value x) | with_reducible assumption | with_reducible apply keeps_carryWrite | with_reducible apply keeps_placeWrite | with_reducible refine Keeps.ite1 ?_ ?_ | with_reducible refine Keeps.ite ?_ ?_ | split | intro _ _ | dsimp only)

theorem keeps_patientWrite {s : State} {v : Via} {a : Nat} {bs : List Byte} {bad : List (Nat × Nat)} (hk : Keeps s0 s) :
    Keeps s0 (patientWrite s v a bs bad).1 := by
  unfold patientWrite
  repeat' (first | (extract_lets +onlyGivenNames x; first | (refine (fun hx : Keeps s0 x => ?_) ?_ <;> [clear_value x; subst x]) | (refine (fun hx : KeepsF Prod.fst s0 x => ?_) ?_ <;> [(clear_value x; replace hx := hx.fst); (subst x; refine KeepsF.ofFst ?_)]) | (have _f := fun a => x a; clear _f; subst x) | clear_value x) | with_reducible assumption | with_reducible apply keeps_carryWrite | with_reducible apply keeps_writeMemPatient | with_reducible apply keeps_devWrite | with_reducible refine Keeps.ite1 ?_ ?_ | with_reducible refine Keeps.ite ?_ ?_ | split | fail_if_no_progress (with_reducible apply Keeps.update) | intro _ _ | dsimp only)

theorem keeps_readPieces {z0 : List (Nat × Nat)} {z1 : State} {z2 : Via} (hk : Keeps s0 z1) :
    Keeps s0 (readPieces z0 z1 z2).1 := by
  induction z0 generalizing z1 z2 with
  | nil =>
    unfold readPieces
    repeat' (first | (extract_lets +onlyGivenNames x; first | (refine (fun hx : Keeps s0 x => ?_) ?_ <;> [clear_value x; subst x]) | (refine (fun hx : KeepsF Prod.fst s0 x => ?_) ?_ <;> [(clear_value x; replace hx := hx.fst); (subst x; refine KeepsF.ofFst ?_)]) | (have _f := fun a => x a; clear _f; subst x) | clear_value x) | with_reducible assumption | with_reducible apply keeps_devRead | with_reducible refine Keeps.ite1 ?_ ?_ | with_reducible refine Keeps.ite ?_ ?_ | split | intro _ _ | dsimp only)
  | cons y ys ihk =>
    obtain ⟨_,_⟩ := y
    unfold readPieces
    repeat' (first | (extract_lets +onlyGivenNames x; first | (refine (fun hx : Keeps s0 x => ?_) ?_ <;> [clear_value x; subst x]) | (refine (fun hx : KeepsF Prod.fst s0 x => ?_) ?_ <;> [(clear_value x; replace hx := hx.fst); (subst x; refine KeepsF.ofFst ?_)]) | (have _f := fun a => x a; clear _f; subst x) | clear_value x) | with_reducible assumption | with_reducible apply ihk | with_reducible apply keeps_devRead | with_reducible refine Keeps.ite1 ?_ ?_ | with_reducible refine Keeps.ite ?_ ?_ | split | intro _ _ | dsimp only)

theorem keeps_readRange {s : State} {v : Via} {a : Nat} {n : Nat} (hk : Keeps s0 s) :
    Keeps s0 (readRange s v a n).1 := by
  unfold readRange
  repeat' (first | (extract_lets +onlyGivenNames x; first | (refine (fun hx : Keeps s0 x => ?_) ?_ <;> [clear_value x; subst x]) | (refine (fun hx : KeepsF Prod.fst s0 x => ?_) ?_ <;> [(clear_value x; replace hx := hx.fst); (subst x; refine KeepsF.ofFst ?_)]) | (have _f := fun a => x a; clear _f; subst x) | clear_value x) | with_reducible assumption | with_reducible apply keeps_readPieces | with_reducible refine Keeps.ite1 ?_ ?_ | with_reducible refine Keeps.ite ?_ ?_ | split | dsimp only)

theorem keeps_writePieces {z0 : List (Nat × Nat)} {z1 : State} {z2 : Via} {z3 : Nat} {z4 : List Byte} {z5 : List (Nat × Nat)} (hk : Keeps s0 z1) :
    Keeps s0 (writePieces z0 z1 z2 z3 z4 z5).1 := by
  induction z0 generalizing z1 z2 z3 z4 z5 with
  | nil =>
    unfold writePieces
    repeat' (first | (extract_lets +onlyGivenNames x; first | (refine (fun hx : Keeps s0 x => ?_) ?_ <;> [clear_value x; subst x]) | (refine (fun hx : KeepsF Prod.fst s0 x => ?_) ?_ <;> [(clear_value x; replace hx := hx.fst); (subst x; refine KeepsF.ofFst ?_)]) | (have _f := fun a => x a; clear _f; subst x) | clear_value x) | with_reducible assumption | with_reducible apply keeps_devWrite | with_reducible refine Keeps.ite1 ?_ ?_ | with_reducible refine Keeps.ite ?_ ?_ | split | dsimp only)
  | cons y ys ihk =>
    obtain ⟨_,_⟩ := y
    unfold writePieces
    repeat' (first | (extract_lets +onlyGivenNames x; first | (refine (fun hx : Keeps s0 x => ?_) ?_ <;> [clear_value x; subst x]) | (refine (fun hx : KeepsF Prod.fst s0 x => ?_) ?_ <;> [(clear_value x; replace hx := hx.fst); (subst x; refine KeepsF.ofFst ?_)]) | (have _f := fun a => x a; clear _f; subst x) | clear_value x) | with_reducible assumption | with_reducible apply ihk | with_reducible apply keeps_devWrite | with_reducible refine Keeps.ite1 ?_ ?_ | with_reducible refine Keeps.ite ?_ ?_ | split | dsimp only)

theorem keeps_writeRange {s : State} {v : Via} {a : Nat} {bs : List Byte} {bad : List (Nat × Nat)} (hk : Keeps s0 s) :
    Keeps s0 (writeRange s v a bs bad).1 := by
  unfold writeRange
  repeat' (first | (extract_lets +onlyGivenNames x; first | (refine (fun hx : Keeps s0 x => ?_) ?_ <;> [clear_value x; subst x]) | (refine (fun hx : KeepsF Prod.fst s0 x => ?_) ?_ <;> [(clear_value x; replace hx := hx.fst); (subst x; refine KeepsF.ofFst ?_)]) | (have _f := fun a => x a; clear _f; subst x) | clear_value x) | with_reducible assumption | with_reducible apply keeps_writePieces | with_reducible refine Keeps.ite1 ?_ ?_ | with_reducible refine Keeps.ite ?_ ?_ | split | dsimp only)

theorem keeps_patientPieces {z0 : List (Nat × Nat)} {z1 : State} {z2 : Via} {z3 : Nat} {z4 : List Byte} {z5 : List (Nat × Nat)} (hk : Keeps s0 z1) :
    Keeps s0 (patientPieces z0 z1 z2 z3 z4 z5).1 := by
  induction z0 generalizing z1 z2 z3 z4 z5 with
  | nil =>
    unfold patientPieces
    repeat' (first | (extract_lets +onlyGivenNames x; first | (refine (fun hx : Keeps s0 x => ?_) ?_ <;> [clear_value x; subst x]) | (refine (fun hx : KeepsF Prod.fst s0 x => ?_) ?_ <;> [(clear_value x; replace hx := hx.fst); (subst x; refine KeepsF.ofFst ?_)]) | (have _f := fun a => x a; clear _f; subst x) | clear_value x) | with_reducible assumption | with_reducible apply keeps_patientWrite | with_reducible refine Keeps.ite1 ?_ ?_ | with_reducible refine Keeps.ite ?_ ?_ | split | dsimp only)
  | cons y ys ihk =>
    obtain ⟨_,_⟩ := y
    unfold patientPieces
    repeat' (first | (extract_lets +onlyGivenNames x; first | (refine (fun hx : Keeps s0 x => ?_) ?_ <;> [clear_value x; subst x]) | (refine (fun hx : KeepsF Prod.fst s0 x => ?_) ?_ <;> [(clear_value x; replace hx := hx.fst); (subst x; refine KeepsF.ofFst ?_)]) | (have _f := fun a => x a; clear _f; subst x) | clear_value x) | with_reducible assumption | with_reducible apply ihk | with_reducible apply keeps_patientWrite | with_reducible refine Keeps.ite1 ?_ ?_ | with_reducible refine Keeps.ite ?_ ?_ | split | dsimp only)

theorem keeps_patientRange {s : State} {v : Via} {a : Nat} {bs : List Byte} {bad : List (Nat × Nat)} (hk : Keeps s0 s) :
    Keeps s0 (patientRange s v a bs bad).1 := by
  unfold patientRange
  repeat' (first | (extract_lets +onlyGivenNames x; first | (refine (fun hx : Keeps s0 x => ?_) ?_ <;> [clear_value x; subst x]) | (refine (fun hx : KeepsF Prod.fst s0 x => ?_) ?_ <;> [(clear_value x; replace hx := hx.fst); (subst x; refine KeepsF.ofFst ?_)]) | (have _f := fun a => x a; clear _f; subst x) | clear_value x) | with_reducible assumption | with_reducible apply keeps_patientPieces | with_reducible refine Keeps.ite1 ?_ ?_ | with_reducible refine Keeps.ite ?_ ?_ | split | dsimp only)

theorem keeps_mediaRead {s : State} {v : Via} {a : Nat} {n : Nat} (hk : Keeps s0 s) :
    Keeps s0 (mediaRead s v a n).1 := by
  unfold mediaRead
  repeat' (first | (extract_lets +onlyGivenNames x; first | (refine (fun hx : Keeps s0 x => ?_) ?_ <;> [clear_value x; subst x]) | (refine (fun hx : KeepsF Prod.fst s0 x => ?_) ?_ <;> [(clear_value x; replace hx := hx.fst); (subst x; refine KeepsF.ofFst ?_)]) | (have _f := fun a => x a; clear _f; subst x) | clear_value x) | with_reducible assumption | with_reducible apply keeps_readRange | with_reducible refine Keeps.ite1 ?_ ?_ | with_reducible refine Keeps.ite ?_ ?_ | split | dsimp only)

theorem keeps_mediaWrite {s : State} {v : Via} {a : Nat} {bs : List Byte} {bad : List (Nat × Nat)} (hk : Keeps s0 s) :
    Keeps s0 (mediaWrite s v a bs bad).1 := by
  unfold mediaWrite
  repeat' (first | (extract_lets +onlyGivenNames x; first | (refine (fun hx : Keeps s0 x => ?_) ?_ <;> [clear_value x; subst x]) | (refine (fun hx : KeepsF Prod.fst s0 x => ?_) ?_ <;> [(clear_value x; replace hx := hx.fst); (subst x; refine KeepsF.ofFst ?_)]) | (have _f := fun a => x a; clear _f; subst x) | clear_value x) | with_reducible assumption | with_reducible apply keeps_writeRange | with_reducible refine Keeps.ite1 ?_ ?_ | with_reducible refine Keeps.ite ?_ ?_ | split | dsimp only)

end Sys2Proof.Laws
end

