-- ==== Sys2Proof/Laws/KeepsTimeBase.lean ====
section
/-!
SUPPORT. Laws/KeepsTimeBase.lean: the operations of Machine/TimeBase.lean keep the queue, the clock and the form of the memory.
-/
namespace Sys2Proof.Laws
open Sys2Proof Sys2Proof.Machine

variable {s0 : State}
set_option linter.unreachableTactic false
set_option linter.unusedTactic false

theorem keeps_fresh {s : State} {w : Nat} (h : Keeps s0 s) : Keeps s0 (fresh s w).1 :=
  ⟨h.pending, h.clock, Nat.le_succ_of_le h.drawn, h.mem⟩

theorem keeps_faultOpen {s : State} {pg : Nat} {cause : Nat} {req : Req} (hk : Keeps s0 s) :
    Keeps s0 (faultOpen s pg cause req) := by
  unfold faultOpen
  repeat' (first | (extract_lets +onlyGivenNames x; first | (refine (fun hx : Keeps s0 x => ?_) ?_ <;> [clear_value x; subst x]) | (refine (fun hx : KeepsF Prod.fst s0 x => ?_) ?_ <;> [(clear_value x; replace hx := hx.fst); (subst x; refine KeepsF.ofFst ?_)]) | (have _f := fun a => x a; clear _f; subst x) | clear_value x) | with_reducible assumption | with_reducible apply keeps_fresh | with_reducible apply keeps_fault | dsimp only)

theorem keeps_tbStep {s : State} {req : Req} {v : Nat} (hk : Keeps s0 s) :
    Keeps s0 (tbStep s req v) := by
  unfold tbStep
  repeat' (first | with_reducible assumption | with_reducible apply keeps_faultOpen | with_reducible refine Keeps.ite ?_ ?_ | fail_if_no_progress (with_reducible apply Keeps.update) | split | dsimp only)

theorem keeps_tbSlew {s : State} {v : Nat} (hk : Keeps s0 s) :
    Keeps s0 (tbSlew s v) := by
  unfold tbSlew
  repeat' (first | with_reducible assumption | fail_if_no_progress (with_reducible apply Keeps.update) | dsimp only)

theorem keeps_tbRate {s : State} (hk : Keeps s0 s) :
    Keeps s0 (tbRate s) := by
  unfold tbRate
  repeat' (first | with_reducible assumption | fail_if_no_progress (with_reducible apply Keeps.update) | dsimp only)

theorem keeps_tbLocked {s : State} (hk : Keeps s0 s) :
    Keeps s0 (tbLocked s) := by
  unfold tbLocked
  repeat' (first | (extract_lets +onlyGivenNames x; first | (refine (fun hx : Keeps s0 x => ?_) ?_ <;> [clear_value x; subst x]) | (refine (fun hx : KeepsF Prod.fst s0 x => ?_) ?_ <;> [(clear_value x; replace hx := hx.fst); (subst x; refine KeepsF.ofFst ?_)]) | (have _f := fun a => x a; clear _f; subst x) | clear_value x) | with_reducible assumption | with_reducible apply keeps_raise | with_reducible refine Keeps.ite1 ?_ ?_ | with_reducible refine Keeps.ite ?_ ?_ | split | fail_if_no_progress (with_reducible apply Keeps.update) | dsimp only)

theorem keeps_execTbHoldover {s : State} (hk : Keeps s0 s) :
    KeepsO s0 (execTbHoldover s) := by
  unfold execTbHoldover
  repeat' (first | with_reducible assumption | with_reducible apply keeps_raise | with_reducible refine KeepsO.next ?_ | with_reducible refine KeepsO.ite ?_ ?_ | with_reducible refine Keeps.ite ?_ ?_ | with_reducible refine Keeps.ite1 ?_ ?_ | fail_if_no_progress (with_reducible apply Keeps.update) | split | dsimp only)

end Sys2Proof.Laws
end

