-- ==== Sys2Proof/Laws/KeepsHod.lean ====
section
/-!
SUPPORT. Laws/KeepsHod.lean: the operations of Machine/Hod.lean keep the queue, the clock and the form of the memory.
-/
namespace Sys2Proof.Laws
open Sys2Proof Sys2Proof.Machine

variable {s0 : State}
set_option linter.unreachableTactic false
set_option linter.unusedTactic false

theorem keeps_putCtx {s : State} {q : Nat} {c : Nat} (hk : Keeps s0 s) :
    Keeps s0 (putCtx s q c) := by
  unfold putCtx
  repeat' (first | (extract_lets +onlyGivenNames x; first | (refine (fun hx : Keeps s0 x => ?_) ?_ <;> [clear_value x; subst x]) | (refine (fun hx : KeepsF Prod.fst s0 x => ?_) ?_ <;> [(clear_value x; replace hx := hx.fst); (subst x; refine KeepsF.ofFst ?_)]) | (have _f := fun a => x a; clear _f; subst x) | clear_value x) | with_reducible assumption | with_reducible apply keeps_setBytes | with_reducible refine Keeps.ite1 ?_ ?_ | with_reducible refine Keeps.ite ?_ ?_ | split | fail_if_no_progress (with_reducible apply Keeps.update) | intro _ _ | dsimp only)

theorem keeps_detach {s : State} {q : Nat} {cause : Nat} (hk : Keeps s0 s) :
    Keeps s0 (detach s q cause) := by
  unfold detach
  repeat' (first | (extract_lets +onlyGivenNames x; first | (refine (fun hx : Keeps s0 x => ?_) ?_ <;> [clear_value x; subst x]) | (refine (fun hx : KeepsF Prod.fst s0 x => ?_) ?_ <;> [(clear_value x; replace hx := hx.fst); (subst x; refine KeepsF.ofFst ?_)]) | (have _f := fun a => x a; clear _f; subst x) | clear_value x) | with_reducible assumption | with_reducible apply keeps_putCtx | with_reducible apply keeps_setReg | with_reducible apply keeps_raise | fail_if_no_progress (with_reducible apply Keeps.update) | dsimp only)

theorem keeps_readCtx {s : State} {q : Nat} (hk : Keeps s0 s) :
    Keeps s0 (readCtx s q).1 := by
  unfold readCtx
  repeat' (first | (extract_lets +onlyGivenNames x; first | (refine (fun hx : Keeps s0 x => ?_) ?_ <;> [clear_value x; subst x]) | (refine (fun hx : KeepsF Prod.fst s0 x => ?_) ?_ <;> [(clear_value x; replace hx := hx.fst); (subst x; refine KeepsF.ofFst ?_)]) | (have _f := fun a => x a; clear _f; subst x) | clear_value x) | with_reducible assumption | with_reducible apply keeps_checkRange | with_reducible apply keeps_detach | with_reducible apply keeps_raise | with_reducible apply keeps_hwFault | with_reducible refine Keeps.ite1 ?_ ?_ | with_reducible refine Keeps.ite ?_ ?_ | split | fail_if_no_progress (with_reducible apply Keeps.update) | dsimp only)

theorem keeps_updDpt {s : State} {f : Dispatcher → Dispatcher} (hk : Keeps s0 s) :
    Keeps s0 (updDpt s f) := by
  unfold updDpt
  repeat' (first | with_reducible assumption | fail_if_no_progress (with_reducible apply Keeps.update) | dsimp only)

theorem keeps_partEvent {s : State} {p : Nat} {b : Nat} (hk : Keeps s0 s) :
    Keeps s0 (partEvent s p b) := by
  unfold partEvent
  repeat' (first | (extract_lets +onlyGivenNames x; first | (refine (fun hx : Keeps s0 x => ?_) ?_ <;> [clear_value x; subst x]) | (refine (fun hx : KeepsF Prod.fst s0 x => ?_) ?_ <;> [(clear_value x; replace hx := hx.fst); (subst x; refine KeepsF.ofFst ?_)]) | (have _f := fun a => x a; clear _f; subst x) | clear_value x) | with_reducible assumption | with_reducible apply keeps_updDpt | with_reducible apply keeps_sendMsix | with_reducible refine Keeps.ite ?_ ?_ | fail_if_no_progress (with_reducible apply Keeps.update) | split | dsimp only)

theorem keeps_queueEvent {s : State} {q : Nat} {b : Nat} (hk : Keeps s0 s) :
    Keeps s0 (queueEvent s q b) := by
  unfold queueEvent
  repeat' (first | (extract_lets +onlyGivenNames x; first | (refine (fun hx : Keeps s0 x => ?_) ?_ <;> [clear_value x; subst x]) | (refine (fun hx : KeepsF Prod.fst s0 x => ?_) ?_ <;> [(clear_value x; replace hx := hx.fst); (subst x; refine KeepsF.ofFst ?_)]) | (have _f := fun a => x a; clear _f; subst x) | clear_value x) | with_reducible assumption | with_reducible apply keeps_putCtx | with_reducible apply keeps_sendMsix | with_reducible apply keeps_toRecorder | with_reducible refine Keeps.ite ?_ ?_ | split | dsimp only)

theorem keeps_queueEvents {s : State} {q : Nat} {d0 : Nat} {d1 : Nat} {refused : Bool} (hk : Keeps s0 s) :
    Keeps s0 (queueEvents s q d0 d1 refused) := by
  unfold queueEvents
  repeat' (first | (extract_lets +onlyGivenNames x; first | (refine (fun hx : Keeps s0 x => ?_) ?_ <;> [clear_value x; subst x]) | (refine (fun hx : KeepsF Prod.fst s0 x => ?_) ?_ <;> [(clear_value x; replace hx := hx.fst); (subst x; refine KeepsF.ofFst ?_)]) | (have _f := fun a => x a; clear _f; subst x) | clear_value x) | with_reducible assumption | with_reducible apply keeps_queueEvent | with_reducible refine Keeps.ite ?_ ?_ | with_reducible refine Keeps.foldl (fun _ _ _ => ?_) ?_ | with_reducible refine Keeps.foldl1 (fun _ _ _ => ?_) ?_ | split | dsimp only)

theorem keeps_disableQueue {s : State} {q : Nat} {c : Nat} (hk : Keeps s0 s) :
    Keeps s0 (disableQueue s q c) := by
  unfold disableQueue
  repeat' (first | with_reducible assumption | with_reducible apply keeps_putCtx | with_reducible refine Keeps.ite ?_ ?_ | split | dsimp only)

theorem keeps_enableQueue {s : State} {req : Req} {q : Nat} {c : Nat} (hk : Keeps s0 s) :
    Keeps s0 (enableQueue s req q c) := by
  unfold enableQueue
  repeat' (first | (extract_lets +onlyGivenNames x; first | (refine (fun hx : Keeps s0 x => ?_) ?_ <;> [clear_value x; subst x]) | (refine (fun hx : KeepsF Prod.fst s0 x => ?_) ?_ <;> [(clear_value x; replace hx := hx.fst); (subst x; refine KeepsF.ofFst ?_)]) | (have _f := fun a => x a; clear _f; subst x) | clear_value x) | with_reducible assumption | with_reducible apply keeps_fault | with_reducible apply keeps_disableQueue | with_reducible apply keeps_putCtx | with_reducible apply keeps_detach | with_reducible refine Keeps.ite1 ?_ ?_ | with_reducible refine Keeps.ite ?_ ?_ | split | dsimp only)

theorem keeps_ctxWrite {s : State} {req : Req} {q : Nat} {o : Nat} {bs : List Byte} (hk : Keeps s0 s) :
    Keeps s0 (ctxWrite s req q o bs) := by
  unfold ctxWrite
  repeat' (first | (extract_lets +onlyGivenNames x; first | (refine (fun hx : Keeps s0 x => ?_) ?_ <;> [clear_value x; subst x]) | (refine (fun hx : KeepsF Prod.fst s0 x => ?_) ?_ <;> [(clear_value x; replace hx := hx.fst); (subst x; refine KeepsF.ofFst ?_)]) | (have _f := fun a => x a; clear _f; subst x) | clear_value x) | with_reducible assumption | with_reducible apply keeps_readCtx | with_reducible apply keeps_fault | with_reducible apply keeps_enableQueue | with_reducible apply keeps_disableQueue | with_reducible apply keeps_putCtx | with_reducible refine Keeps.ite1 ?_ ?_ | with_reducible refine Keeps.ite ?_ ?_ | split | dsimp only)

theorem keeps_writeW1 {s : State} {req : Req} {q : Nat} {w : Nat} (hk : Keeps s0 s) :
    Keeps s0 (writeW1 s req q w) := by
  unfold writeW1
  repeat' (first | (extract_lets +onlyGivenNames x; first | (refine (fun hx : Keeps s0 x => ?_) ?_ <;> [clear_value x; subst x]) | (refine (fun hx : KeepsF Prod.fst s0 x => ?_) ?_ <;> [(clear_value x; replace hx := hx.fst); (subst x; refine KeepsF.ofFst ?_)]) | (have _f := fun a => x a; clear _f; subst x) | clear_value x) | with_reducible assumption | with_reducible apply keeps_fault | with_reducible apply keeps_ctxWrite | with_reducible refine Keeps.ite1 ?_ ?_ | with_reducible refine Keeps.ite ?_ ?_ | split | fail_if_no_progress (with_reducible apply Keeps.update) | dsimp only)

theorem keeps_execQueueEnable {req : Req} {queue : Nat} {w1 : W32} {s : State} (hk : Keeps s0 s) :
    KeepsO s0 (execQueueEnable req queue w1 s) := by
  unfold execQueueEnable
  repeat' (first | (extract_lets +onlyGivenNames x; first | (refine (fun hx : Keeps s0 x => ?_) ?_ <;> [clear_value x; subst x]) | (refine (fun hx : KeepsF Prod.fst s0 x => ?_) ?_ <;> [(clear_value x; replace hx := hx.fst); (subst x; refine KeepsF.ofFst ?_)]) | (have _f := fun a => x a; clear _f; subst x) | clear_value x) | with_reducible assumption | with_reducible apply keeps_writeW1 | with_reducible refine KeepsO.next ?_ | with_reducible refine KeepsO.ite ?_ ?_ | with_reducible refine Keeps.ite1 ?_ ?_ | with_reducible refine Keeps.ite ?_ ?_ | split | dsimp only)

theorem keeps_execQueueDisable {req : Req} {queue : Nat} {w1 : W32} {s : State} (hk : Keeps s0 s) :
    KeepsO s0 (execQueueDisable req queue w1 s) := by
  unfold execQueueDisable
  repeat' (first | (extract_lets +onlyGivenNames x; first | (refine (fun hx : Keeps s0 x => ?_) ?_ <;> [clear_value x; subst x]) | (refine (fun hx : KeepsF Prod.fst s0 x => ?_) ?_ <;> [(clear_value x; replace hx := hx.fst); (subst x; refine KeepsF.ofFst ?_)]) | (have _f := fun a => x a; clear _f; subst x) | clear_value x) | with_reducible assumption | with_reducible apply keeps_writeW1 | with_reducible refine KeepsO.next ?_ | with_reducible refine KeepsO.ite ?_ ?_ | with_reducible refine Keeps.ite1 ?_ ?_ | with_reducible refine Keeps.ite ?_ ?_ | split | dsimp only)

theorem keeps_answer {s : State} {st : Nat} {es : List Byte} {bad : List (Nat × Nat)} (hk : Keeps s0 s) :
    Keeps s0 (answer s st es bad) := by
  unfold answer
  repeat' (first | (extract_lets +onlyGivenNames x; first | (refine (fun hx : Keeps s0 x => ?_) ?_ <;> [clear_value x; subst x]) | (refine (fun hx : KeepsF Prod.fst s0 x => ?_) ?_ <;> [(clear_value x; replace hx := hx.fst); (subst x; refine KeepsF.ofFst ?_)]) | (have _f := fun a => x a; clear _f; subst x) | clear_value x) | with_reducible assumption | with_reducible refine Keeps.ite1 ?_ ?_ | with_reducible refine Keeps.ite ?_ ?_ | split | fail_if_no_progress (with_reducible apply Keeps.update) | dsimp only)

theorem keeps_opCheck {s : State} {req : Req} {q : Nat} {c : Nat} {roleOk : Bool} {countOk : Bool} {n : Nat} (hk : Keeps s0 s) :
    Keeps s0 (opCheck s req q c roleOk countOk n).1 := by
  unfold opCheck
  repeat' (first | (extract_lets +onlyGivenNames x; first | (refine (fun hx : Keeps s0 x => ?_) ?_ <;> [clear_value x; subst x]) | (refine (fun hx : KeepsF Prod.fst s0 x => ?_) ?_ <;> [(clear_value x; replace hx := hx.fst); (subst x; refine KeepsF.ofFst ?_)]) | (have _f := fun a => x a; clear _f; subst x) | clear_value x) | with_reducible assumption | with_reducible apply keeps_fault | with_reducible refine Keeps.ite1 ?_ ?_ | with_reducible refine Keeps.ite ?_ ?_ | split | dsimp only)

theorem keeps_urgentTime {s : State} {q : Nat} {c : Nat} {cycles : Nat} (hk : Keeps s0 s) :
    Keeps s0 (urgentTime s q c cycles) := by
  unfold urgentTime
  repeat' (first | (extract_lets +onlyGivenNames x; first | (refine (fun hx : Keeps s0 x => ?_) ?_ <;> [clear_value x; subst x]) | (refine (fun hx : KeepsF Prod.fst s0 x => ?_) ?_ <;> [(clear_value x; replace hx := hx.fst); (subst x; refine KeepsF.ofFst ?_)]) | (have _f := fun a => x a; clear _f; subst x) | clear_value x) | with_reducible assumption | with_reducible apply keeps_wf | with_reducible apply keeps_raise | with_reducible apply keeps_hwFault | with_reducible refine Keeps.ite ?_ ?_ | split | dsimp only)

theorem keeps_urgentFree {s : State} {q : Nat} {c : Nat} (hk : Keeps s0 s) :
    Keeps s0 (urgentFree s q c) := by
  unfold urgentFree
  repeat' (first | (extract_lets +onlyGivenNames x; first | (refine (fun hx : Keeps s0 x => ?_) ?_ <;> [clear_value x; subst x]) | (refine (fun hx : KeepsF Prod.fst s0 x => ?_) ?_ <;> [(clear_value x; replace hx := hx.fst); (subst x; refine KeepsF.ofFst ?_)]) | (have _f := fun a => x a; clear _f; subst x) | clear_value x) | with_reducible assumption | with_reducible apply keeps_fresh | with_reducible apply keeps_urgentTime | with_reducible refine Keeps.ite1 ?_ ?_ | with_reducible refine Keeps.ite ?_ ?_ | split | dsimp only)

theorem keeps_hodCycle {s : State} {q : Nat} {n : Nat} {m : Nat} (hk : Keeps s0 s) :
    Keeps s0 (hodCycle s q n m).1 := by
  unfold hodCycle
  repeat' (first | (extract_lets +onlyGivenNames x; first | (refine (fun hx : Keeps s0 x => ?_) ?_ <;> [clear_value x; subst x]) | (refine (fun hx : KeepsF Prod.fst s0 x => ?_) ?_ <;> [(clear_value x; replace hx := hx.fst); (subst x; refine KeepsF.ofFst ?_)]) | (have _f := fun a => x a; clear _f; subst x) | clear_value x) | with_reducible assumption | with_reducible apply keeps_putCtx | with_reducible apply keeps_bump | with_reducible apply keeps_queueEvents | with_reducible refine Keeps.ite1 ?_ ?_ | with_reducible refine Keeps.ite ?_ ?_ | split | dsimp only)

theorem keeps_commitCycle {s : State} {q : Nat} {m : Nat} (hk : Keeps s0 s) :
    Keeps s0 (commitCycle s q m) := by
  unfold commitCycle
  repeat' (first | (extract_lets +onlyGivenNames x; first | (refine (fun hx : Keeps s0 x => ?_) ?_ <;> [clear_value x; subst x]) | (refine (fun hx : KeepsF Prod.fst s0 x => ?_) ?_ <;> [(clear_value x; replace hx := hx.fst); (subst x; refine KeepsF.ofFst ?_)]) | (have _f := fun a => x a; clear _f; subst x) | clear_value x) | with_reducible assumption | with_reducible apply keeps_readCtx | with_reducible apply keeps_hodCycle | with_reducible apply keeps_putCtx | with_reducible apply keeps_bump | with_reducible apply keeps_queueEvents | with_reducible refine Keeps.ite1 ?_ ?_ | with_reducible refine Keeps.ite ?_ ?_ | split | fail_if_no_progress (with_reducible apply Keeps.update) | dsimp only)

theorem keeps_ringFailed {s : State} {q : Nat} {st : Nat} (hk : Keeps s0 s) :
    Keeps s0 (ringFailed s q st) := by
  unfold ringFailed
  repeat' (first | (extract_lets +onlyGivenNames x; first | (refine (fun hx : Keeps s0 x => ?_) ?_ <;> [clear_value x; subst x]) | (refine (fun hx : KeepsF Prod.fst s0 x => ?_) ?_ <;> [(clear_value x; replace hx := hx.fst); (subst x; refine KeepsF.ofFst ?_)]) | (have _f := fun a => x a; clear _f; subst x) | clear_value x) | with_reducible assumption | with_reducible apply keeps_detach | with_reducible apply keeps_hwFault | with_reducible refine Keeps.ite ?_ ?_ | split | dsimp only)

theorem keeps_ringWrite {s : State} {q : Nat} {a : Nat} {e : List Byte} {bad : Bool} (hk : Keeps s0 s) :
    Keeps s0 (ringWrite s q a e bad).1 := by
  unfold ringWrite
  repeat' (first | (extract_lets +onlyGivenNames x; first | (refine (fun hx : Keeps s0 x => ?_) ?_ <;> [clear_value x; subst x]) | (refine (fun hx : KeepsF Prod.fst s0 x => ?_) ?_ <;> [(clear_value x; replace hx := hx.fst); (subst x; refine KeepsF.ofFst ?_)]) | (have _f := fun a => x a; clear _f; subst x) | clear_value x) | with_reducible assumption | with_reducible apply keeps_devWrite | with_reducible apply keeps_patientWrite | with_reducible refine Keeps.ite1 ?_ ?_ | with_reducible refine Keeps.ite ?_ ?_ | split | fail_if_no_progress (with_reducible apply Keeps.update) | dsimp only [id] | dsimp only)

theorem keeps_ringWrites {z0 : List (Nat × List Byte × Bool)} {z1 : State} {z2 : Nat} (hk : Keeps s0 z1) :
    Keeps s0 (ringWrites z0 z1 z2) := by
  induction z0 generalizing z1 z2 with
  | nil =>
    unfold ringWrites
    repeat' (first | (extract_lets +onlyGivenNames x; first | (refine (fun hx : Keeps s0 x => ?_) ?_ <;> [clear_value x; subst x]) | (refine (fun hx : KeepsF Prod.fst s0 x => ?_) ?_ <;> [(clear_value x; replace hx := hx.fst); (subst x; refine KeepsF.ofFst ?_)]) | (have _f := fun a => x a; clear _f; subst x) | clear_value x) | with_reducible assumption | with_reducible apply keeps_ringWrite | with_reducible apply keeps_ringFailed | with_reducible refine Keeps.ite1 ?_ ?_ | with_reducible refine Keeps.ite ?_ ?_ | split | dsimp only)
  | cons y ys ihk =>
    obtain ⟨_,_,_⟩ := y
    unfold ringWrites
    repeat' (first | (extract_lets +onlyGivenNames x; first | (refine (fun hx : Keeps s0 x => ?_) ?_ <;> [clear_value x; subst x]) | (refine (fun hx : KeepsF Prod.fst s0 x => ?_) ?_ <;> [(clear_value x; replace hx := hx.fst); (subst x; refine KeepsF.ofFst ?_)]) | (have _f := fun a => x a; clear _f; subst x) | clear_value x) | with_reducible assumption | with_reducible apply ihk | with_reducible apply keeps_ringWrite | with_reducible apply keeps_ringFailed | with_reducible refine Keeps.ite1 ?_ ?_ | with_reducible refine Keeps.ite ?_ ?_ | split | dsimp only)

theorem keeps_pushCheck {s : State} {req : Req} {q : Nat} {c : Nat} {es : List (List Byte)} (hk : Keeps s0 s) :
    Keeps s0 (pushCheck s req q c es).1 := by
  unfold pushCheck
  repeat' (first | (extract_lets +onlyGivenNames x; first | (refine (fun hx : Keeps s0 x => ?_) ?_ <;> [clear_value x; subst x]) | (refine (fun hx : KeepsF Prod.fst s0 x => ?_) ?_ <;> [(clear_value x; replace hx := hx.fst); (subst x; refine KeepsF.ofFst ?_)]) | (have _f := fun a => x a; clear _f; subst x) | clear_value x) | with_reducible assumption | with_reducible apply keeps_opCheck | with_reducible refine Keeps.ite1 ?_ ?_ | with_reducible refine Keeps.ite ?_ ?_ | split | dsimp only)

theorem keeps_admitPushes {s : State} {q : Nat} {ps : List (List (List Byte) × List Nat)} (hk : Keeps s0 s) :
    Keeps s0 (admitPushes s q ps).1 := by
  unfold admitPushes
  repeat' (first | (extract_lets +onlyGivenNames x; first | (refine (fun hx : Keeps s0 x => ?_) ?_ <;> [clear_value x; subst x]) | (refine (fun hx : KeepsF Prod.fst s0 x => ?_) ?_ <;> [(clear_value x; replace hx := hx.fst); (subst x; refine KeepsF.ofFst ?_)]) | (have _f := fun a => x a; clear _f; subst x) | clear_value x) | with_reducible assumption | with_reducible apply keeps_queueEvents | with_reducible apply keeps_bump | with_reducible apply keeps_putCtx | with_reducible apply keeps_ringWrites | with_reducible refine Keeps.ite1 ?_ ?_ | with_reducible refine Keeps.ite ?_ ?_ | split | fail_if_no_progress (with_reducible apply Keeps.update) | intro _ _ | dsimp only)

theorem keeps_updSlots {s : State} {f : SMap SlotPush → SMap SlotPush} (hk : Keeps s0 s) :
    Keeps s0 (updSlots s f) := by
  unfold updSlots
  repeat' (first | (extract_lets +onlyGivenNames x; first | (refine (fun hx : Keeps s0 x => ?_) ?_ <;> [clear_value x; subst x]) | (refine (fun hx : KeepsF Prod.fst s0 x => ?_) ?_ <;> [(clear_value x; replace hx := hx.fst); (subst x; refine KeepsF.ofFst ?_)]) | (have _f := fun a => x a; clear _f; subst x) | clear_value x) | with_reducible assumption | with_reducible refine Keeps.ite1 ?_ ?_ | with_reducible refine Keeps.ite ?_ ?_ | split | fail_if_no_progress (with_reducible apply Keeps.update) | dsimp only)

theorem keeps_holdPush {s : State} {q : Nat} {c : Nat} {n : Nat} {ps : List (Req × List (List Byte) × List Nat)} (hk : Keeps s0 s) :
    Keeps s0 (holdPush s q c n ps) := by
  unfold holdPush
  repeat' (first | (extract_lets +onlyGivenNames x; first | (refine (fun hx : Keeps s0 x => ?_) ?_ <;> [clear_value x; subst x]) | (refine (fun hx : KeepsF Prod.fst s0 x => ?_) ?_ <;> [(clear_value x; replace hx := hx.fst); (subst x; refine KeepsF.ofFst ?_)]) | (have _f := fun a => x a; clear _f; subst x) | clear_value x) | with_reducible assumption | with_reducible apply keeps_updSlots | with_reducible refine Keeps.ite1 ?_ ?_ | with_reducible refine Keeps.ite ?_ ?_ | split | intro _ _ | dsimp only)

theorem keeps_dropHeld {s : State} {q : Nat} {c : Nat} (hk : Keeps s0 s) :
    Keeps s0 (dropHeld s q c) := by
  unfold dropHeld
  repeat' (first | (extract_lets +onlyGivenNames x; first | (refine (fun hx : Keeps s0 x => ?_) ?_ <;> [clear_value x; subst x]) | (refine (fun hx : KeepsF Prod.fst s0 x => ?_) ?_ <;> [(clear_value x; replace hx := hx.fst); (subst x; refine KeepsF.ofFst ?_)]) | (have _f := fun a => x a; clear _f; subst x) | clear_value x) | with_reducible assumption | with_reducible apply keeps_updSlots | with_reducible refine Keeps.ite1 ?_ ?_ | with_reducible refine Keeps.ite ?_ ?_ | split | intro _ _ | dsimp only)

theorem keeps_admitSlot {s : State} {slot : Nat} (hk : Keeps s0 s) :
    Keeps s0 (admitSlot s slot) := by
  unfold admitSlot
  repeat' (first | (extract_lets +onlyGivenNames x; first | (refine (fun hx : Keeps s0 x => ?_) ?_ <;> [clear_value x; subst x]) | (refine (fun hx : KeepsF Prod.fst s0 x => ?_) ?_ <;> [(clear_value x; replace hx := hx.fst); (subst x; refine KeepsF.ofFst ?_)]) | (have _f := fun a => x a; clear _f; subst x) | clear_value x) | with_reducible assumption | with_reducible apply keeps_updSlots | with_reducible apply keeps_hodCycle | with_reducible apply keeps_admitPushes | with_reducible apply keeps_urgentFree | with_reducible apply keeps_answer | with_reducible refine Keeps.ite1 ?_ ?_ | with_reducible refine Keeps.ite ?_ ?_ | split | fail_if_no_progress (with_reducible apply Keeps.update) | dsimp only)

theorem keeps_urgentFirst {s : State} {c : Nat} (hk : Keeps s0 s) :
    Keeps s0 (urgentFirst s c) := by
  unfold urgentFirst
  repeat' (first | (extract_lets +onlyGivenNames x; first | (refine (fun hx : Keeps s0 x => ?_) ?_ <;> [clear_value x; subst x]) | (refine (fun hx : KeepsF Prod.fst s0 x => ?_) ?_ <;> [(clear_value x; replace hx := hx.fst); (subst x; refine KeepsF.ofFst ?_)]) | (have _f := fun a => x a; clear _f; subst x) | clear_value x) | with_reducible assumption | with_reducible apply keeps_admitSlot | with_reducible refine Keeps.ite1 ?_ ?_ | with_reducible refine Keeps.ite ?_ ?_ | with_reducible refine Keeps.foldl (fun _ _ _ => ?_) ?_ | with_reducible refine Keeps.foldl1 (fun _ _ _ => ?_) ?_ | split | intro _ _ | dsimp only)

theorem keeps_takeQueue {s : State} {q : Nat} (hk : Keeps s0 s) :
    Keeps s0 (takeQueue s q).1 := by
  unfold takeQueue
  repeat' (first | (extract_lets +onlyGivenNames x; first | (refine (fun hx : Keeps s0 x => ?_) ?_ <;> [clear_value x; subst x]) | (refine (fun hx : KeepsF Prod.fst s0 x => ?_) ?_ <;> [(clear_value x; replace hx := hx.fst); (subst x; refine KeepsF.ofFst ?_)]) | (have _f := fun a => x a; clear _f; subst x) | clear_value x) | with_reducible assumption | with_reducible apply keeps_readCtx | with_reducible apply keeps_urgentFirst | with_reducible refine Keeps.ite1 ?_ ?_ | with_reducible refine Keeps.ite ?_ ?_ | split | dsimp only)

theorem keeps_devPush {s : State} {req : Req} {q : Nat} {es : List (List Byte)} {bad : List Nat} (hk : Keeps s0 s) :
    Keeps s0 (devPush s req q es bad).1 := by
  unfold devPush
  repeat' (first | (extract_lets +onlyGivenNames x; first | (refine (fun hx : Keeps s0 x => ?_) ?_ <;> [clear_value x; subst x]) | (refine (fun hx : KeepsF Prod.fst s0 x => ?_) ?_ <;> [(clear_value x; replace hx := hx.fst); (subst x; refine KeepsF.ofFst ?_)]) | (have _f := fun a => x a; clear _f; subst x) | clear_value x) | with_reducible assumption | with_reducible apply keeps_takeQueue | with_reducible apply keeps_pushCheck | with_reducible apply keeps_admitPushes | with_reducible apply keeps_dropHeld | with_reducible refine Keeps.ite1 ?_ ?_ | with_reducible refine Keeps.ite ?_ ?_ | split | dsimp only)

theorem keeps_devPushFree {s : State} {q : Nat} {e : List Byte} (hk : Keeps s0 s) :
    Keeps s0 (devPushFree s q e).1 := by
  unfold devPushFree
  repeat' (first | (extract_lets +onlyGivenNames x; first | (refine (fun hx : Keeps s0 x => ?_) ?_ <;> [clear_value x; subst x]) | (refine (fun hx : KeepsF Prod.fst s0 x => ?_) ?_ <;> [(clear_value x; replace hx := hx.fst); (subst x; refine KeepsF.ofFst ?_)]) | (have _f := fun a => x a; clear _f; subst x) | clear_value x) | with_reducible assumption | with_reducible apply keeps_devPush | with_reducible apply keeps_urgentFree | with_reducible refine Keeps.ite1 ?_ ?_ | with_reducible refine Keeps.ite ?_ ?_ | split | dsimp only)

theorem keeps_trigPush {s : State} {q : Nat} {n : Nat} {cycles : Nat} (hk : Keeps s0 s) :
    Keeps s0 (trigPush s q n cycles).1 := by
  unfold trigPush
  repeat' (first | (extract_lets +onlyGivenNames x; first | (refine (fun hx : Keeps s0 x => ?_) ?_ <;> [clear_value x; subst x]) | (refine (fun hx : KeepsF Prod.fst s0 x => ?_) ?_ <;> [(clear_value x; replace hx := hx.fst); (subst x; refine KeepsF.ofFst ?_)]) | (have _f := fun a => x a; clear _f; subst x) | clear_value x) | with_reducible assumption | with_reducible apply keeps_takeQueue | with_reducible apply keeps_opCheck | with_reducible apply keeps_hodCycle | with_reducible apply keeps_dropHeld | with_reducible apply keeps_urgentTime | with_reducible refine Keeps.ite1 ?_ ?_ | with_reducible refine Keeps.ite ?_ ?_ | split | dsimp only)

theorem keeps_ringRead {s : State} {q : Nat} {a : Nat} (hk : Keeps s0 s) :
    Keeps s0 (ringRead s q a).1 := by
  unfold ringRead
  repeat' (first | (extract_lets +onlyGivenNames x; first | (refine (fun hx : Keeps s0 x => ?_) ?_ <;> [clear_value x; subst x]) | (refine (fun hx : KeepsF Prod.fst s0 x => ?_) ?_ <;> [(clear_value x; replace hx := hx.fst); (subst x; refine KeepsF.ofFst ?_)]) | (have _f := fun a => x a; clear _f; subst x) | clear_value x) | with_reducible assumption | with_reducible apply keeps_devRead | with_reducible apply keeps_ringFailed | with_reducible refine Keeps.ite1 ?_ ?_ | with_reducible refine Keeps.ite ?_ ?_ | split | dsimp only)

theorem keeps_ringReads {z0 : Nat} {z1 : State} {z2 : Nat} {z3 : Nat} (hk : Keeps s0 z1) :
    Keeps s0 (ringReads z0 z1 z2 z3).1 := by
  induction z0 generalizing z1 z3 with
  | zero => rw [ringReads]; exact hk
  | succ m ih =>
    rw [ringReads]
    exact Keeps.ite1 (keeps_ringRead hk) (ih (keeps_ringRead hk))

theorem keeps_ackQueue {s : State} {q : Nat} {ack : Nat} (hk : Keeps s0 s) :
    Keeps s0 (ackQueue s q ack) := by
  unfold ackQueue
  repeat' (first | (extract_lets +onlyGivenNames x; first | (refine (fun hx : Keeps s0 x => ?_) ?_ <;> [clear_value x; subst x]) | (refine (fun hx : KeepsF Prod.fst s0 x => ?_) ?_ <;> [(clear_value x; replace hx := hx.fst); (subst x; refine KeepsF.ofFst ?_)]) | (have _f := fun a => x a; clear _f; subst x) | clear_value x) | with_reducible assumption | with_reducible apply keeps_putCtx | with_reducible refine Keeps.ite ?_ ?_ | split | dsimp only)

theorem keeps_doorbellPush {s : State} {req : Req} {q : Nat} {c : Nat} {n : Nat} {m : Nat} {cycles : Nat} (hk : Keeps s0 s) :
    Keeps s0 (doorbellPush s req q c n m cycles) := by
  unfold doorbellPush
  repeat' (first | (extract_lets +onlyGivenNames x; first | (refine (fun hx : Keeps s0 x => ?_) ?_ <;> [clear_value x; subst x]) | (refine (fun hx : KeepsF Prod.fst s0 x => ?_) ?_ <;> [(clear_value x; replace hx := hx.fst); (subst x; refine KeepsF.ofFst ?_)]) | (have _f := fun a => x a; clear _f; subst x) | clear_value x) | with_reducible assumption | with_reducible apply keeps_hodCycle | with_reducible apply keeps_fault | with_reducible apply keeps_dropHeld | with_reducible apply keeps_urgentTime | with_reducible refine Keeps.ite1 ?_ ?_ | with_reducible refine Keeps.ite ?_ ?_ | split | dsimp only)

theorem keeps_meetCycle {s : State} {q : Nat} {m : Nat} {meet : HodMeet} (hk : Keeps s0 s) :
    Keeps s0 (meetCycle s q m meet) := by
  unfold meetCycle
  repeat' (first | (extract_lets +onlyGivenNames x; first | (refine (fun hx : Keeps s0 x => ?_) ?_ <;> [clear_value x; subst x]) | (refine (fun hx : KeepsF Prod.fst s0 x => ?_) ?_ <;> [(clear_value x; replace hx := hx.fst); (subst x; refine KeepsF.ofFst ?_)]) | (have _f := fun a => x a; clear _f; subst x) | clear_value x) | with_reducible assumption | with_reducible apply keeps_hodCycle | with_reducible apply keeps_opCheck | with_reducible apply keeps_dropHeld | with_reducible apply keeps_urgentTime | with_reducible apply keeps_doorbell | with_reducible apply keeps_fault | with_reducible apply keeps_doorbellPush | with_reducible apply keeps_commitCycle | with_reducible refine Keeps.ite1 ?_ ?_ | with_reducible refine Keeps.ite ?_ ?_ | split | fail_if_no_progress (with_reducible apply Keeps.update) | dsimp only)

theorem keeps_hodPop {s : State} {req : Req} {role : Nat} {q : Nat} {n : Nat} {meet : HodMeet} (hk : Keeps s0 s) :
    Keeps s0 (hodPop s req role q n meet).1 := by
  unfold hodPop
  repeat' (first | (extract_lets +onlyGivenNames x; first | (refine (fun hx : Keeps s0 x => ?_) ?_ <;> [clear_value x; subst x]) | (refine (fun hx : KeepsF Prod.fst s0 x => ?_) ?_ <;> [(clear_value x; replace hx := hx.fst); (subst x; refine KeepsF.ofFst ?_)]) | (have _f := fun a => x a; clear _f; subst x) | clear_value x) | with_reducible assumption | with_reducible apply keeps_takeQueue | with_reducible apply keeps_opCheck | with_reducible apply keeps_meetCycle | with_reducible apply keeps_ringReads | with_reducible refine Keeps.ite1 ?_ ?_ | with_reducible refine Keeps.ite ?_ ?_ | split | dsimp only)

theorem keeps_queueDisableDone {queue : Nat} {s : State} (hk : Keeps s0 s) :
    Keeps s0 (queueDisableDone queue s) := by
  unfold queueDisableDone
  repeat' (first | (extract_lets +onlyGivenNames x; first | (refine (fun hx : Keeps s0 x => ?_) ?_ <;> [clear_value x; subst x]) | (refine (fun hx : KeepsF Prod.fst s0 x => ?_) ?_ <;> [(clear_value x; replace hx := hx.fst); (subst x; refine KeepsF.ofFst ?_)]) | (have _f := fun a => x a; clear _f; subst x) | clear_value x) | with_reducible assumption | with_reducible apply keeps_commitCycle | with_reducible apply keeps_putCtx | with_reducible refine Keeps.ite1 ?_ ?_ | with_reducible refine Keeps.ite ?_ ?_ | with_reducible refine Keeps.foldl (fun _ _ _ => ?_) ?_ | with_reducible refine Keeps.foldl1 (fun _ _ _ => ?_) ?_ | split | intro _ _ | dsimp only)

theorem keeps_pushCommit {queue : Nat} {s : State} (hk : Keeps s0 s) :
    Keeps s0 (pushCommit queue s) := by
  unfold pushCommit
  repeat' (first | (extract_lets +onlyGivenNames x; first | (refine (fun hx : Keeps s0 x => ?_) ?_ <;> [clear_value x; subst x]) | (refine (fun hx : KeepsF Prod.fst s0 x => ?_) ?_ <;> [(clear_value x; replace hx := hx.fst); (subst x; refine KeepsF.ofFst ?_)]) | (have _f := fun a => x a; clear _f; subst x) | clear_value x) | with_reducible assumption | with_reducible apply keeps_commitCycle | with_reducible refine Keeps.ite1 ?_ ?_ | with_reducible refine Keeps.ite ?_ ?_ | split | dsimp only)

theorem keeps_triggerPush {queue : Nat} {count : Nat} {cycles : Nat} {hold : Bool} {s : State} (hk : Keeps s0 s) :
    Keeps s0 (triggerPush queue count cycles hold s) := by
  unfold triggerPush
  repeat' (first | (extract_lets +onlyGivenNames x; first | (refine (fun hx : Keeps s0 x => ?_) ?_ <;> [clear_value x; subst x]) | (refine (fun hx : KeepsF Prod.fst s0 x => ?_) ?_ <;> [(clear_value x; replace hx := hx.fst); (subst x; refine KeepsF.ofFst ?_)]) | (have _f := fun a => x a; clear _f; subst x) | clear_value x) | with_reducible assumption | with_reducible apply keeps_opCheck | with_reducible apply keeps_answer | with_reducible apply keeps_holdPush | with_reducible apply keeps_trigPush | with_reducible refine Keeps.ite1 ?_ ?_ | with_reducible refine Keeps.ite ?_ ?_ | split | dsimp only)

theorem keeps_doorbell {s : State} {req : Req} {q : Nat} {v : Nat} {cycles : Nat} {meet : HodMeet} (hk : Keeps s0 s) :
    Keeps s0 (doorbell s req q v cycles meet) := by
  unfold doorbell
  repeat' (first | (extract_lets +onlyGivenNames x; first | (refine (fun hx : Keeps s0 x => ?_) ?_ <;> [clear_value x; subst x]) | (refine (fun hx : KeepsF Prod.fst s0 x => ?_) ?_ <;> [(clear_value x; replace hx := hx.fst); (subst x; refine KeepsF.ofFst ?_)]) | (have _f := fun a => x a; clear _f; subst x) | clear_value x) | with_reducible assumption | with_reducible apply keeps_fault | with_reducible apply keeps_takeQueue | with_reducible apply keeps_ackQueue | with_reducible apply keeps_doorbellPush | with_reducible apply keeps_meetCycle | with_reducible refine Keeps.ite1 ?_ ?_ | with_reducible refine Keeps.ite ?_ ?_ | split | dsimp only)

theorem keeps_doorbellRead {s : State} {req : Req} {q : Nat} (hk : Keeps s0 s) :
    Keeps s0 (doorbellRead s req q).1 := by
  unfold doorbellRead
  repeat' (first | (extract_lets +onlyGivenNames x; first | (refine (fun hx : Keeps s0 x => ?_) ?_ <;> [clear_value x; subst x]) | (refine (fun hx : KeepsF Prod.fst s0 x => ?_) ?_ <;> [(clear_value x; replace hx := hx.fst); (subst x; refine KeepsF.ofFst ?_)]) | (have _f := fun a => x a; clear _f; subst x) | clear_value x) | with_reducible assumption | with_reducible apply keeps_readCtx | with_reducible refine Keeps.ite1 ?_ ?_ | with_reducible refine Keeps.ite ?_ ?_ | split | dsimp only)

theorem keeps_doorbellPushed {req : Req} {queue : Nat} {count : Nat} {ack : Nat} {cycles : Nat} {hold : Bool} {s : State} (hk : Keeps s0 s) :
    Keeps s0 (doorbellPushed req queue count ack cycles hold s) := by
  unfold doorbellPushed
  repeat' (first | (extract_lets +onlyGivenNames x; first | (refine (fun hx : Keeps s0 x => ?_) ?_ <;> [clear_value x; subst x]) | (refine (fun hx : KeepsF Prod.fst s0 x => ?_) ?_ <;> [(clear_value x; replace hx := hx.fst); (subst x; refine KeepsF.ofFst ?_)]) | (have _f := fun a => x a; clear _f; subst x) | clear_value x) | with_reducible assumption | with_reducible apply keeps_holdPush | with_reducible apply keeps_ackQueue | with_reducible apply keeps_doorbell | with_reducible refine Keeps.ite1 ?_ ?_ | with_reducible refine Keeps.ite ?_ ?_ | split | dsimp only)

theorem keeps_cqCheck {s : State} {sq : Nat} {cq : Nat} (hk : Keeps s0 s) :
    Keeps s0 (cqCheck s sq cq).1 := by
  unfold cqCheck
  repeat' (first | (extract_lets +onlyGivenNames x; first | (refine (fun hx : Keeps s0 x => ?_) ?_ <;> [clear_value x; subst x]) | (refine (fun hx : KeepsF Prod.fst s0 x => ?_) ?_ <;> [(clear_value x; replace hx := hx.fst); (subst x; refine KeepsF.ofFst ?_)]) | (have _f := fun a => x a; clear _f; subst x) | clear_value x) | with_reducible assumption | with_reducible apply keeps_readCtx | with_reducible refine Keeps.ite1 ?_ ?_ | with_reducible refine Keeps.ite ?_ ?_ | split | dsimp only)

theorem keeps_copyRun {z0 : List (Nat × Nat × Nat)} {z1 : State} {z2 : Via} {z3 : Nat} {z4 : Bool} (hk : Keeps s0 z1) :
    Keeps s0 (copyRun z0 z1 z2 z3 z4).1 := by
  induction z0 generalizing z1 z2 z3 z4 with
  | nil =>
    unfold copyRun
    repeat' (first | (extract_lets +onlyGivenNames x; first | (refine (fun hx : Keeps s0 x => ?_) ?_ <;> [clear_value x; subst x]) | (refine (fun hx : KeepsF Prod.fst s0 x => ?_) ?_ <;> [(clear_value x; replace hx := hx.fst); (subst x; refine KeepsF.ofFst ?_)]) | (have _f := fun a => x a; clear _f; subst x) | clear_value x) | with_reducible assumption | with_reducible apply keeps_devRead | with_reducible apply keeps_devWrite | with_reducible refine Keeps.ite1 ?_ ?_ | with_reducible refine Keeps.ite ?_ ?_ | split | dsimp only)
  | cons y ys ihk =>
    obtain ⟨_,_,_⟩ := y
    unfold copyRun
    repeat' (first | (extract_lets +onlyGivenNames x; first | (refine (fun hx : Keeps s0 x => ?_) ?_ <;> [clear_value x; subst x]) | (refine (fun hx : KeepsF Prod.fst s0 x => ?_) ?_ <;> [(clear_value x; replace hx := hx.fst); (subst x; refine KeepsF.ofFst ?_)]) | (have _f := fun a => x a; clear _f; subst x) | clear_value x) | with_reducible assumption | with_reducible apply ihk | with_reducible apply keeps_devRead | with_reducible apply keeps_devWrite | with_reducible refine Keeps.ite1 ?_ ?_ | with_reducible refine Keeps.ite ?_ ?_ | split | dsimp only)

theorem keeps_fillRun {z0 : List (Nat × Nat)} {z1 : State} {z2 : Via} {z3 : List Byte} {z4 : Nat} {z5 : Nat} (hk : Keeps s0 z1) :
    Keeps s0 (fillRun z0 z1 z2 z3 z4 z5).1 := by
  induction z0 generalizing z1 z2 z3 z4 z5 with
  | nil =>
    unfold fillRun
    repeat' (first | (extract_lets +onlyGivenNames x; first | (refine (fun hx : Keeps s0 x => ?_) ?_ <;> [clear_value x; subst x]) | (refine (fun hx : KeepsF Prod.fst s0 x => ?_) ?_ <;> [(clear_value x; replace hx := hx.fst); (subst x; refine KeepsF.ofFst ?_)]) | (have _f := fun a => x a; clear _f; subst x) | clear_value x) | with_reducible assumption | with_reducible apply keeps_devWrite | with_reducible refine Keeps.ite1 ?_ ?_ | with_reducible refine Keeps.ite ?_ ?_ | split | intro _ _ | dsimp only)
  | cons y ys ihk =>
    obtain ⟨_,_⟩ := y
    unfold fillRun
    repeat' (first | (extract_lets +onlyGivenNames x; first | (refine (fun hx : Keeps s0 x => ?_) ?_ <;> [clear_value x; subst x]) | (refine (fun hx : KeepsF Prod.fst s0 x => ?_) ?_ <;> [(clear_value x; replace hx := hx.fst); (subst x; refine KeepsF.ofFst ?_)]) | (have _f := fun a => x a; clear _f; subst x) | clear_value x) | with_reducible assumption | with_reducible apply ihk | with_reducible apply keeps_devWrite | with_reducible refine Keeps.ite1 ?_ ?_ | with_reducible refine Keeps.ite ?_ ?_ | split | intro _ _ | dsimp only)

theorem keeps_copyExecute {s : State} {q : Nat} {d : CopyDesc} (hk : Keeps s0 s) :
    Keeps s0 (copyExecute s q d).1 := by
  unfold copyExecute
  repeat' (first | (extract_lets +onlyGivenNames x; first | (refine (fun hx : Keeps s0 x => ?_) ?_ <;> [clear_value x; subst x]) | (refine (fun hx : KeepsF Prod.fst s0 x => ?_) ?_ <;> [(clear_value x; replace hx := hx.fst); (subst x; refine KeepsF.ofFst ?_)]) | (have _f := fun a => x a; clear _f; subst x) | clear_value x) | with_reducible assumption | with_reducible apply keeps_raise | with_reducible apply keeps_fault | with_reducible apply keeps_copyRun | with_reducible apply keeps_fillRun | with_reducible refine Keeps.ite1 ?_ ?_ | with_reducible refine Keeps.ite ?_ ?_ | split | dsimp only)

theorem keeps_badDescriptor {s : State} {q : Nat} (hk : Keeps s0 s) :
    Keeps s0 (badDescriptor s q) := by
  unfold badDescriptor
  repeat' (first | (extract_lets +onlyGivenNames x; first | (refine (fun hx : Keeps s0 x => ?_) ?_ <;> [clear_value x; subst x]) | (refine (fun hx : KeepsF Prod.fst s0 x => ?_) ?_ <;> [(clear_value x; replace hx := hx.fst); (subst x; refine KeepsF.ofFst ?_)]) | (have _f := fun a => x a; clear _f; subst x) | clear_value x) | with_reducible assumption | with_reducible apply keeps_fresh | with_reducible apply keeps_fault | with_reducible apply keeps_partEvent | with_reducible refine Keeps.ite1 ?_ ?_ | with_reducible refine Keeps.ite ?_ ?_ | split | dsimp only)

theorem keeps_copyStart {s : State} {q : Nat} {meet : HodMeet} (hk : Keeps s0 s) :
    Keeps s0 (copyStart s q meet) := by
  unfold copyStart
  repeat' (first | (extract_lets +onlyGivenNames x; first | (refine (fun hx : Keeps s0 x => ?_) ?_ <;> [clear_value x; subst x]) | (refine (fun hx : KeepsF Prod.fst s0 x => ?_) ?_ <;> [(clear_value x; replace hx := hx.fst); (subst x; refine KeepsF.ofFst ?_)]) | (have _f := fun a => x a; clear _f; subst x) | clear_value x) | with_reducible assumption | with_reducible apply keeps_hodPop | with_reducible apply keeps_badDescriptor | with_reducible apply keeps_cqCheck | with_reducible apply keeps_copyExecute | with_reducible refine Keeps.ite1 ?_ ?_ | with_reducible refine Keeps.ite ?_ ?_ | split | fail_if_no_progress (with_reducible apply Keeps.update) | dsimp only)

theorem keeps_pushRecord {s : State} {cq : Nat} {rec : List Byte} {cycles : Option Nat} (hk : Keeps s0 s) :
    Keeps s0 (pushRecord s cq rec cycles).1 := by
  unfold pushRecord
  repeat' (first | (extract_lets +onlyGivenNames x; first | (refine (fun hx : Keeps s0 x => ?_) ?_ <;> [clear_value x; subst x]) | (refine (fun hx : KeepsF Prod.fst s0 x => ?_) ?_ <;> [(clear_value x; replace hx := hx.fst); (subst x; refine KeepsF.ofFst ?_)]) | (have _f := fun a => x a; clear _f; subst x) | clear_value x) | with_reducible assumption | with_reducible apply keeps_devPushFree | with_reducible apply keeps_devPush | with_reducible apply keeps_urgentTime | with_reducible refine Keeps.ite1 ?_ ?_ | with_reducible refine Keeps.ite ?_ ?_ | split | fail_if_no_progress (with_reducible apply Keeps.update) | dsimp only)

theorem keeps_pushCompletion {s : State} {sq : Nat} {cq : Nat} {rec : List Byte} {copy : Bool} {cycles : Option Nat} (hk : Keeps s0 s) :
    Keeps s0 (pushCompletion s sq cq rec copy cycles) := by
  unfold pushCompletion
  repeat' (first | (extract_lets +onlyGivenNames x; first | (refine (fun hx : Keeps s0 x => ?_) ?_ <;> [clear_value x; subst x]) | (refine (fun hx : KeepsF Prod.fst s0 x => ?_) ?_ <;> [(clear_value x; replace hx := hx.fst); (subst x; refine KeepsF.ofFst ?_)]) | (have _f := fun a => x a; clear _f; subst x) | clear_value x) | with_reducible assumption | with_reducible apply keeps_pushRecord | with_reducible refine Keeps.ite1 ?_ ?_ | with_reducible refine Keeps.ite ?_ ?_ | split | fail_if_no_progress (with_reducible apply Keeps.update) | dsimp only)

theorem keeps_copyFinish {s : State} {j : CopyJob} {cycles : Option Nat} (hk : Keeps s0 s) :
    Keeps s0 (copyFinish s j cycles) := by
  unfold copyFinish
  repeat' (first | (extract_lets +onlyGivenNames x; first | (refine (fun hx : Keeps s0 x => ?_) ?_ <;> [clear_value x; subst x]) | (refine (fun hx : KeepsF Prod.fst s0 x => ?_) ?_ <;> [(clear_value x; replace hx := hx.fst); (subst x; refine KeepsF.ofFst ?_)]) | (have _f := fun a => x a; clear _f; subst x) | clear_value x) | with_reducible assumption | with_reducible apply keeps_cqCheck | with_reducible apply keeps_badDescriptor | with_reducible apply keeps_pushCompletion | with_reducible refine Keeps.ite1 ?_ ?_ | with_reducible refine Keeps.ite ?_ ?_ | split | fail_if_no_progress (with_reducible apply Keeps.update) | dsimp only)

theorem keeps_copyComplete {queue : Nat} {cycles : Nat} {s : State} (hk : Keeps s0 s) :
    KeepsO s0 (copyComplete queue cycles s) := by
  unfold copyComplete
  repeat' (first | (extract_lets +onlyGivenNames x; first | (refine (fun hx : Keeps s0 x => ?_) ?_ <;> [clear_value x; subst x]) | (refine (fun hx : KeepsF Prod.fst s0 x => ?_) ?_ <;> [(clear_value x; replace hx := hx.fst); (subst x; refine KeepsF.ofFst ?_)]) | (have _f := fun a => x a; clear _f; subst x) | clear_value x) | with_reducible assumption | with_reducible apply keeps_copyFinish | with_reducible refine KeepsO.next ?_ | with_reducible refine KeepsO.ite ?_ ?_ | with_reducible refine Keeps.ite1 ?_ ?_ | with_reducible refine Keeps.ite ?_ ?_ | split | fail_if_no_progress (with_reducible apply Keeps.update) | intro _ _ | dsimp only)

theorem keeps_cqPushRetry {queue : Nat} {cycles : Nat} {s : State} (hk : Keeps s0 s) :
    KeepsO s0 (cqPushRetry queue cycles s) := by
  unfold cqPushRetry
  repeat' (first | (extract_lets +onlyGivenNames x; first | (refine (fun hx : Keeps s0 x => ?_) ?_ <;> [clear_value x; subst x]) | (refine (fun hx : KeepsF Prod.fst s0 x => ?_) ?_ <;> [(clear_value x; replace hx := hx.fst); (subst x; refine KeepsF.ofFst ?_)]) | (have _f := fun a => x a; clear _f; subst x) | clear_value x) | with_reducible assumption | with_reducible apply keeps_pushRecord | with_reducible refine KeepsO.next ?_ | with_reducible refine KeepsO.ite ?_ ?_ | with_reducible refine Keeps.ite1 ?_ ?_ | with_reducible refine Keeps.ite ?_ ?_ | split | fail_if_no_progress (with_reducible apply Keeps.update) | intro _ _ | dsimp only)

theorem keeps_devicePush {req : Req} {queue : Nat} {entries : List (List Byte)} {bad : List Nat} {cycles : Nat} {hold : Bool} {s : State} (hk : Keeps s0 s) :
    KeepsO s0 (devicePush req queue entries bad cycles hold s) := by
  unfold devicePush
  repeat' (first | (extract_lets +onlyGivenNames x; first | (refine (fun hx : Keeps s0 x => ?_) ?_ <;> [clear_value x; subst x]) | (refine (fun hx : KeepsF Prod.fst s0 x => ?_) ?_ <;> [(clear_value x; replace hx := hx.fst); (subst x; refine KeepsF.ofFst ?_)]) | (have _f := fun a => x a; clear _f; subst x) | clear_value x) | with_reducible assumption | with_reducible apply keeps_takeQueue | with_reducible apply keeps_pushCheck | with_reducible apply keeps_holdPush | with_reducible apply keeps_answer | with_reducible apply keeps_devPush | with_reducible apply keeps_urgentTime | with_reducible refine KeepsO.next ?_ | with_reducible refine KeepsO.ite ?_ ?_ | with_reducible refine Keeps.ite1 ?_ ?_ | with_reducible refine Keeps.ite ?_ ?_ | split | dsimp only)

theorem keeps_popFrom {s : State} {v : Via} {role : Nat} {q : Nat} {meet : HodMeet} (hk : Keeps s0 s) :
    Keeps s0 (popFrom s v role q meet).1 := by
  unfold popFrom
  repeat' (first | (extract_lets +onlyGivenNames x; first | (refine (fun hx : Keeps s0 x => ?_) ?_ <;> [clear_value x; subst x]) | (refine (fun hx : KeepsF Prod.fst s0 x => ?_) ?_ <;> [(clear_value x; replace hx := hx.fst); (subst x; refine KeepsF.ofFst ?_)]) | (have _f := fun a => x a; clear _f; subst x) | clear_value x) | with_reducible assumption | with_reducible apply keeps_carryCall | with_reducible apply keeps_hodPop | with_reducible refine Keeps.ite1 ?_ ?_ | with_reducible refine Keeps.ite ?_ ?_ | split | intro _ _ | dsimp only)

theorem keeps_pushFrom {s : State} {v : Via} {q : Nat} {e : List Byte} (hk : Keeps s0 s) :
    Keeps s0 (pushFrom s v q e).1 := by
  unfold pushFrom
  repeat' (first | (extract_lets +onlyGivenNames x; first | (refine (fun hx : Keeps s0 x => ?_) ?_ <;> [clear_value x; subst x]) | (refine (fun hx : KeepsF Prod.fst s0 x => ?_) ?_ <;> [(clear_value x; replace hx := hx.fst); (subst x; refine KeepsF.ofFst ?_)]) | (have _f := fun a => x a; clear _f; subst x) | clear_value x) | with_reducible assumption | with_reducible apply keeps_carryCall | with_reducible apply keeps_devPushFree | with_reducible refine Keeps.ite1 ?_ ?_ | with_reducible refine Keeps.ite ?_ ?_ | split | intro _ _ | dsimp only)

theorem keeps_triggerFrom {s : State} {v : Via} {q : Nat} {n : Nat} {cycles : Nat} (hk : Keeps s0 s) :
    Keeps s0 (triggerFrom s v q n cycles).1 := by
  unfold triggerFrom
  repeat' (first | (extract_lets +onlyGivenNames x; first | (refine (fun hx : Keeps s0 x => ?_) ?_ <;> [clear_value x; subst x]) | (refine (fun hx : KeepsF Prod.fst s0 x => ?_) ?_ <;> [(clear_value x; replace hx := hx.fst); (subst x; refine KeepsF.ofFst ?_)]) | (have _f := fun a => x a; clear _f; subst x) | clear_value x) | with_reducible assumption | with_reducible apply keeps_carryCall | with_reducible apply keeps_trigPush | with_reducible refine Keeps.ite1 ?_ ?_ | with_reducible refine Keeps.ite ?_ ?_ | split | intro _ _ | dsimp only)

end Sys2Proof.Laws
end

