-- ==== Sys2Proof/Laws/KeepsQuarry.lean ====
section
/-!
SUPPORT. Laws/KeepsQuarry.lean: the operations of Machine/Quarry.lean keep the queue, the clock and the form of the memory.
-/
namespace Sys2Proof.Laws
open Sys2Proof Sys2Proof.Machine

variable {s0 : State}
set_option linter.unreachableTactic false
set_option linter.unusedTactic false

theorem keeps_putBuf {s : State} {p : Nat} {n : Nat} {b : Buffer} (hk : Keeps s0 s) :
    Keeps s0 (putBuf s p n b) := by
  unfold putBuf
  repeat' (first | with_reducible assumption | fail_if_no_progress (with_reducible apply Keeps.update) | dsimp only)

theorem keeps_putUsed {s : State} {i : Nat} {p : Nat} {n : Nat} (hk : Keeps s0 s) :
    Keeps s0 (putUsed s i p n) := by
  unfold putUsed
  repeat' (first | with_reducible assumption | fail_if_no_progress (with_reducible apply Keeps.update) | dsimp only)

theorem keeps_updQry {s : State} {f : Quarry → Quarry} (hk : Keeps s0 s) :
    Keeps s0 (updQry s f) := by
  unfold updQry
  repeat' (first | (extract_lets +onlyGivenNames x; first | (refine (fun hx : Keeps s0 x => ?_) ?_ <;> [clear_value x; subst x]) | (refine (fun hx : KeepsF Prod.fst s0 x => ?_) ?_ <;> [(clear_value x; replace hx := hx.fst); (subst x; refine KeepsF.ofFst ?_)]) | (have _f := fun a => x a; clear _f; subst x) | clear_value x) | with_reducible assumption | with_reducible refine Keeps.ite1 ?_ ?_ | with_reducible refine Keeps.ite ?_ ?_ | split | fail_if_no_progress (with_reducible apply Keeps.update) | dsimp only)

theorem keeps_fencePool {s : State} {p : Nat} {ix : Nat} (hk : Keeps s0 s) :
    Keeps s0 (fencePool s p ix) := by
  unfold fencePool
  repeat' (first | (extract_lets +onlyGivenNames x; first | (refine (fun hx : Keeps s0 x => ?_) ?_ <;> [clear_value x; subst x]) | (refine (fun hx : KeepsF Prod.fst s0 x => ?_) ?_ <;> [(clear_value x; replace hx := hx.fst); (subst x; refine KeepsF.ofFst ?_)]) | (have _f := fun a => x a; clear _f; subst x) | clear_value x) | with_reducible assumption | with_reducible apply keeps_updQry | with_reducible apply keeps_raise | with_reducible apply keeps_hwFault | with_reducible refine Keeps.ite1 ?_ ?_ | with_reducible refine Keeps.ite ?_ ?_ | split | fail_if_no_progress (with_reducible apply Keeps.update) | intro _ _ | dsimp only)

theorem keeps_strike {s : State} {ue : List Upset} (hk : Keeps s0 s) :
    Keeps s0 (strike s ue) := by
  unfold strike
  repeat' (first | (extract_lets +onlyGivenNames x; first | (refine (fun hx : Keeps s0 x => ?_) ?_ <;> [clear_value x; subst x]) | (refine (fun hx : KeepsF Prod.fst s0 x => ?_) ?_ <;> [(clear_value x; replace hx := hx.fst); (subst x; refine KeepsF.ofFst ?_)]) | (have _f := fun a => x a; clear _f; subst x) | clear_value x) | with_reducible assumption | with_reducible apply keeps_updQry | with_reducible refine Keeps.ite1 ?_ ?_ | with_reducible refine Keeps.ite ?_ ?_ | split | fail_if_no_progress (with_reducible apply Keeps.update) | intro _ _ | dsimp only)

theorem keeps_inspectWord {s : State} {p : Nat} {ix : Nat} {bitmap : Bool} (hk : Keeps s0 s) :
    Keeps s0 (inspectWord s p ix bitmap).1 := by
  unfold inspectWord
  repeat' (first | (extract_lets +onlyGivenNames x; first | (refine (fun hx : Keeps s0 x => ?_) ?_ <;> [clear_value x; subst x]) | (refine (fun hx : KeepsF Prod.fst s0 x => ?_) ?_ <;> [(clear_value x; replace hx := hx.fst); (subst x; refine KeepsF.ofFst ?_)]) | (have _f := fun a => x a; clear _f; subst x) | clear_value x) | with_reducible assumption | with_reducible apply keeps_fencePool | with_reducible refine Keeps.ite1 ?_ ?_ | with_reducible refine Keeps.ite ?_ ?_ | split | intro _ _ | dsimp only)

theorem keeps_reclaimBuf {i : Nat} {s : State} {p : Nat} {n : Nat} (hk : Keeps s0 s) :
    Keeps s0 (reclaimBuf i s p n) := by
  unfold reclaimBuf
  repeat' (first | (extract_lets +onlyGivenNames x; first | (refine (fun hx : Keeps s0 x => ?_) ?_ <;> [clear_value x; subst x]) | (refine (fun hx : KeepsF Prod.fst s0 x => ?_) ?_ <;> [(clear_value x; replace hx := hx.fst); (subst x; refine KeepsF.ofFst ?_)]) | (have _f := fun a => x a; clear _f; subst x) | clear_value x) | with_reducible assumption | with_reducible apply keeps_putBuf | with_reducible apply keeps_putUsed | with_reducible refine Keeps.ite ?_ ?_ | split | dsimp only)

theorem keeps_reclaimPool {i : Nat} {s : State} {p : Nat} {a : Nat} {z : Nat} (hk : Keeps s0 s) :
    Keeps s0 (reclaimPool i s p a z) := by
  unfold reclaimPool
  repeat' (first | (extract_lets +onlyGivenNames x; first | (refine (fun hx : Keeps s0 x => ?_) ?_ <;> [clear_value x; subst x]) | (refine (fun hx : KeepsF Prod.fst s0 x => ?_) ?_ <;> [(clear_value x; replace hx := hx.fst); (subst x; refine KeepsF.ofFst ?_)]) | (have _f := fun a => x a; clear _f; subst x) | clear_value x) | with_reducible assumption | with_reducible apply keeps_reclaimBuf | with_reducible apply keeps_fencePool | with_reducible refine Keeps.ite1 ?_ ?_ | with_reducible refine Keeps.ite ?_ ?_ | with_reducible refine Keeps.foldl (fun _ _ _ => ?_) ?_ | with_reducible refine Keeps.foldl1 (fun _ _ _ => ?_) ?_ | split | fail_if_no_progress (with_reducible apply Keeps.update) | intro _ _ | dsimp only)

theorem keeps_scanOn {i : Nat} {z0 : List Nat} {z1 : State} {z2 : Nat} (hk : Keeps s0 z1) :
    Keeps s0 (scanOn i z0 z1 z2) := by
  induction z0 generalizing z1 z2 with
  | nil =>
    unfold scanOn
    repeat' (first | (extract_lets +onlyGivenNames x; first | (refine (fun hx : Keeps s0 x => ?_) ?_ <;> [clear_value x; subst x]) | (refine (fun hx : KeepsF Prod.fst s0 x => ?_) ?_ <;> [(clear_value x; replace hx := hx.fst); (subst x; refine KeepsF.ofFst ?_)]) | (have _f := fun a => x a; clear _f; subst x) | clear_value x) | with_reducible assumption | with_reducible apply keeps_reclaimPool | with_reducible apply keeps_updQry | with_reducible refine Keeps.ite1 ?_ ?_ | with_reducible refine Keeps.ite ?_ ?_ | split | fail_if_no_progress (with_reducible apply Keeps.update) | intro _ _ | dsimp only)
  | cons y ys ihk =>
    unfold scanOn
    repeat' (first | (extract_lets +onlyGivenNames x; first | (refine (fun hx : Keeps s0 x => ?_) ?_ <;> [clear_value x; subst x]) | (refine (fun hx : KeepsF Prod.fst s0 x => ?_) ?_ <;> [(clear_value x; replace hx := hx.fst); (subst x; refine KeepsF.ofFst ?_)]) | (have _f := fun a => x a; clear _f; subst x) | clear_value x) | with_reducible assumption | with_reducible apply ihk | with_reducible apply keeps_reclaimPool | with_reducible apply keeps_updQry | with_reducible refine Keeps.ite1 ?_ ?_ | with_reducible refine Keeps.ite ?_ ?_ | split | fail_if_no_progress (with_reducible apply Keeps.update) | intro _ _ | dsimp only)

theorem keeps_scanSome {s : State} (hk : Keeps s0 s) :
    Keeps s0 (scanSome s) := by
  unfold scanSome
  repeat' (first | (extract_lets +onlyGivenNames x; first | (refine (fun hx : Keeps s0 x => ?_) ?_ <;> [clear_value x; subst x]) | (refine (fun hx : KeepsF Prod.fst s0 x => ?_) ?_ <;> [(clear_value x; replace hx := hx.fst); (subst x; refine KeepsF.ofFst ?_)]) | (have _f := fun a => x a; clear _f; subst x) | clear_value x) | with_reducible assumption | with_reducible apply keeps_fresh | with_reducible apply keeps_scanOn | with_reducible refine Keeps.ite1 ?_ ?_ | with_reducible refine Keeps.ite ?_ ?_ | split | fail_if_no_progress (with_reducible apply Keeps.update) | dsimp only)

theorem keeps_allocate {s : State} {i : Nat} {size : Nat} (hk : Keeps s0 s) :
    Keeps s0 (allocate s i size).1 := by
  unfold allocate
  repeat' (first | (extract_lets +onlyGivenNames x; first | (refine (fun hx : Keeps s0 x => ?_) ?_ <;> [clear_value x; subst x]) | (refine (fun hx : KeepsF Prod.fst s0 x => ?_) ?_ <;> [(clear_value x; replace hx := hx.fst); (subst x; refine KeepsF.ofFst ?_)]) | (have _f := fun a => x a; clear _f; subst x) | clear_value x) | with_reducible assumption | with_reducible apply keeps_scanSome | with_reducible apply keeps_raise | with_reducible apply keeps_bump | with_reducible apply keeps_fencePool | with_reducible apply keeps_putBuf | with_reducible apply keeps_putUsed | with_reducible refine Keeps.ite1 ?_ ?_ | with_reducible refine Keeps.ite ?_ ?_ | split | fail_if_no_progress (with_reducible apply Keeps.update) | intro _ _ | dsimp only)

theorem keeps_badFree {s : State} {req : Req} {cause : Nat} {h : Nat} (hk : Keeps s0 s) :
    Keeps s0 (badFree s req cause h) := by
  unfold badFree
  repeat' (first | with_reducible assumption | with_reducible apply keeps_raise | with_reducible apply keeps_fault | dsimp only)

theorem keeps_freeHandle {s : State} {req : Req} {i : Nat} {h : Nat} (hk : Keeps s0 s) :
    Keeps s0 (freeHandle s req i h).1 := by
  unfold freeHandle
  repeat' (first | (extract_lets +onlyGivenNames x; first | (refine (fun hx : Keeps s0 x => ?_) ?_ <;> [clear_value x; subst x]) | (refine (fun hx : KeepsF Prod.fst s0 x => ?_) ?_ <;> [(clear_value x; replace hx := hx.fst); (subst x; refine KeepsF.ofFst ?_)]) | (have _f := fun a => x a; clear _f; subst x) | clear_value x) | with_reducible assumption | with_reducible apply keeps_scanSome | with_reducible apply keeps_badFree | with_reducible apply keeps_fencePool | with_reducible apply keeps_putBuf | with_reducible apply keeps_putUsed | with_reducible apply keeps_bump | with_reducible refine Keeps.ite1 ?_ ?_ | with_reducible refine Keeps.ite ?_ ?_ | split | fail_if_no_progress (with_reducible apply Keeps.update) | dsimp only)

theorem keeps_freeOwn {s : State} {i : Nat} {h : Nat} (hk : Keeps s0 s) :
    Keeps s0 (freeOwn s i h) := by
  unfold freeOwn
  repeat' (first | (extract_lets +onlyGivenNames x; first | (refine (fun hx : Keeps s0 x => ?_) ?_ <;> [clear_value x; subst x]) | (refine (fun hx : KeepsF Prod.fst s0 x => ?_) ?_ <;> [(clear_value x; replace hx := hx.fst); (subst x; refine KeepsF.ofFst ?_)]) | (have _f := fun a => x a; clear _f; subst x) | clear_value x) | with_reducible assumption | with_reducible apply keeps_freeHandle | with_reducible refine Keeps.ite1 ?_ ?_ | with_reducible refine Keeps.ite ?_ ?_ | split | dsimp only)

theorem keeps_allocFrom {s : State} {v : Via} {i : Nat} {size : Nat} (hk : Keeps s0 s) :
    Keeps s0 (allocFrom s v i size).1 := by
  unfold allocFrom
  repeat' (first | (extract_lets +onlyGivenNames x; first | (refine (fun hx : Keeps s0 x => ?_) ?_ <;> [clear_value x; subst x]) | (refine (fun hx : KeepsF Prod.fst s0 x => ?_) ?_ <;> [(clear_value x; replace hx := hx.fst); (subst x; refine KeepsF.ofFst ?_)]) | (have _f := fun a => x a; clear _f; subst x) | clear_value x) | with_reducible assumption | with_reducible apply keeps_carryCall | with_reducible apply keeps_allocate | with_reducible refine Keeps.ite1 ?_ ?_ | with_reducible refine Keeps.ite ?_ ?_ | split | intro _ _ | dsimp only)

theorem keeps_freeFrom {s : State} {v : Via} {i : Nat} {h : Nat} (hk : Keeps s0 s) :
    Keeps s0 (freeFrom s v i h) := by
  unfold freeFrom
  repeat' (first | (extract_lets +onlyGivenNames x; first | (refine (fun hx : Keeps s0 x => ?_) ?_ <;> [clear_value x; subst x]) | (refine (fun hx : KeepsF Prod.fst s0 x => ?_) ?_ <;> [(clear_value x; replace hx := hx.fst); (subst x; refine KeepsF.ofFst ?_)]) | (have _f := fun a => x a; clear _f; subst x) | clear_value x) | with_reducible assumption | with_reducible apply keeps_carryCall | with_reducible apply keeps_freeHandle | with_reducible refine Keeps.ite1 ?_ ?_ | with_reducible refine Keeps.ite ?_ ?_ | split | intro _ _ | dsimp only)

theorem keeps_answerQry {s : State} {st : Nat} {h : Nat} {a : Nat} (hk : Keeps s0 s) :
    Keeps s0 (answerQry s st h a) := by
  unfold answerQry
  repeat' (first | with_reducible assumption | fail_if_no_progress (with_reducible apply Keeps.update) | dsimp only)

theorem keeps_pfAllocated {s : State} {r : Alloc} (hk : Keeps s0 s) :
    Keeps s0 (pfAllocated s r) := by
  unfold pfAllocated
  repeat' (first | (extract_lets +onlyGivenNames x; first | (refine (fun hx : Keeps s0 x => ?_) ?_ <;> [clear_value x; subst x]) | (refine (fun hx : KeepsF Prod.fst s0 x => ?_) ?_ <;> [(clear_value x; replace hx := hx.fst); (subst x; refine KeepsF.ofFst ?_)]) | (have _f := fun a => x a; clear _f; subst x) | clear_value x) | with_reducible assumption | with_reducible apply keeps_wf | with_reducible apply keeps_setReg | with_reducible refine Keeps.ite1 ?_ ?_ | with_reducible refine Keeps.ite ?_ ?_ | split | dsimp only)

theorem keeps_execAllocate {ident : Nat} {size : Nat} {ue : List Upset} {s : State} (hk : Keeps s0 s) :
    KeepsO s0 (execAllocate ident size ue s) := by
  unfold execAllocate
  repeat' (first | (extract_lets +onlyGivenNames x; first | (refine (fun hx : Keeps s0 x => ?_) ?_ <;> [clear_value x; subst x]) | (refine (fun hx : KeepsF Prod.fst s0 x => ?_) ?_ <;> [(clear_value x; replace hx := hx.fst); (subst x; refine KeepsF.ofFst ?_)]) | (have _f := fun a => x a; clear _f; subst x) | clear_value x) | with_reducible assumption | with_reducible apply keeps_allocate | with_reducible apply keeps_strike | with_reducible apply keeps_answerQry | with_reducible apply keeps_pfAllocated | with_reducible refine KeepsO.next ?_ | with_reducible refine KeepsO.ite ?_ ?_ | with_reducible refine Keeps.ite1 ?_ ?_ | with_reducible refine Keeps.ite ?_ ?_ | split | dsimp only)

theorem keeps_execFree {req : Req} {ident : Nat} {handle : Nat} {ue : List Upset} {s : State} (hk : Keeps s0 s) :
    KeepsO s0 (execFree req ident handle ue s) := by
  unfold execFree
  repeat' (first | (extract_lets +onlyGivenNames x; first | (refine (fun hx : Keeps s0 x => ?_) ?_ <;> [clear_value x; subst x]) | (refine (fun hx : KeepsF Prod.fst s0 x => ?_) ?_ <;> [(clear_value x; replace hx := hx.fst); (subst x; refine KeepsF.ofFst ?_)]) | (have _f := fun a => x a; clear _f; subst x) | clear_value x) | with_reducible assumption | with_reducible apply keeps_freeHandle | with_reducible apply keeps_strike | with_reducible apply keeps_answerQry | with_reducible apply keeps_wf | with_reducible refine KeepsO.next ?_ | with_reducible refine KeepsO.ite ?_ ?_ | with_reducible refine Keeps.ite1 ?_ ?_ | with_reducible refine Keeps.ite ?_ ?_ | split | dsimp only)

theorem keeps_startReclaim {s : State} {i : Nat} (hk : Keeps s0 s) :
    Keeps s0 (startReclaim s i) := by
  unfold startReclaim
  repeat' (first | (extract_lets +onlyGivenNames x; first | (refine (fun hx : Keeps s0 x => ?_) ?_ <;> [clear_value x; subst x]) | (refine (fun hx : KeepsF Prod.fst s0 x => ?_) ?_ <;> [(clear_value x; replace hx := hx.fst); (subst x; refine KeepsF.ofFst ?_)]) | (have _f := fun a => x a; clear _f; subst x) | clear_value x) | with_reducible assumption | with_reducible apply keeps_updQry | with_reducible refine Keeps.ite1 ?_ ?_ | with_reducible refine Keeps.ite ?_ ?_ | split | fail_if_no_progress (with_reducible apply Keeps.update) | intro _ _ | dsimp only)

theorem keeps_execReclaim {req : Req} {ident : Nat} {s : State} (hk : Keeps s0 s) :
    KeepsO s0 (execReclaim req ident s) := by
  unfold execReclaim
  repeat' (first | (extract_lets +onlyGivenNames x; first | (refine (fun hx : Keeps s0 x => ?_) ?_ <;> [clear_value x; subst x]) | (refine (fun hx : KeepsF Prod.fst s0 x => ?_) ?_ <;> [(clear_value x; replace hx := hx.fst); (subst x; refine KeepsF.ofFst ?_)]) | (have _f := fun a => x a; clear _f; subst x) | clear_value x) | with_reducible assumption | with_reducible apply keeps_fault | with_reducible apply keeps_wf | with_reducible apply keeps_startReclaim | with_reducible refine KeepsO.next ?_ | with_reducible refine KeepsO.ite ?_ ?_ | with_reducible refine Keeps.ite1 ?_ ?_ | with_reducible refine Keeps.ite ?_ ?_ | split | dsimp only)

theorem keeps_execReclaimDone {ue : List (Nat × Nat)} {s : State} (hk : Keeps s0 s) :
    KeepsO s0 (execReclaimDone ue s) := by
  unfold execReclaimDone
  repeat' (first | (extract_lets +onlyGivenNames x; first | (refine (fun hx : Keeps s0 x => ?_) ?_ <;> [clear_value x; subst x]) | (refine (fun hx : KeepsF Prod.fst s0 x => ?_) ?_ <;> [(clear_value x; replace hx := hx.fst); (subst x; refine KeepsF.ofFst ?_)]) | (have _f := fun a => x a; clear _f; subst x) | clear_value x) | with_reducible assumption | with_reducible apply keeps_scanOn | with_reducible apply keeps_strike | with_reducible apply keeps_updQry | with_reducible refine KeepsO.next ?_ | with_reducible refine KeepsO.ite ?_ ?_ | with_reducible refine Keeps.ite1 ?_ ?_ | with_reducible refine Keeps.ite ?_ ?_ | split | fail_if_no_progress (with_reducible apply Keeps.update) | intro _ _ | dsimp only)

theorem keeps_reinitPool {s : State} {p : Nat} (hk : Keeps s0 s) :
    Keeps s0 (reinitPool s p) := by
  unfold reinitPool
  repeat' (first | (extract_lets +onlyGivenNames x; first | (refine (fun hx : Keeps s0 x => ?_) ?_ <;> [clear_value x; subst x]) | (refine (fun hx : KeepsF Prod.fst s0 x => ?_) ?_ <;> [(clear_value x; replace hx := hx.fst); (subst x; refine KeepsF.ofFst ?_)]) | (have _f := fun a => x a; clear _f; subst x) | clear_value x) | with_reducible assumption | with_reducible refine Keeps.ite1 ?_ ?_ | with_reducible refine Keeps.ite ?_ ?_ | split | fail_if_no_progress (with_reducible apply Keeps.update) | intro _ _ | dsimp only)

theorem keeps_qryPf {s : State} {req : Req} {op : Nat} (hk : Keeps s0 s) :
    Keeps s0 (qryPf s req op) := by
  unfold qryPf
  repeat' (first | (extract_lets +onlyGivenNames x; first | (refine (fun hx : Keeps s0 x => ?_) ?_ <;> [clear_value x; subst x]) | (refine (fun hx : KeepsF Prod.fst s0 x => ?_) ?_ <;> [(clear_value x; replace hx := hx.fst); (subst x; refine KeepsF.ofFst ?_)]) | (have _f := fun a => x a; clear _f; subst x) | clear_value x) | with_reducible assumption | with_reducible apply keeps_wf | with_reducible apply keeps_fault | with_reducible apply keeps_allocate | with_reducible apply keeps_pfAllocated | with_reducible apply keeps_freeHandle | with_reducible apply keeps_startReclaim | with_reducible refine Keeps.ite1 ?_ ?_ | with_reducible refine Keeps.ite ?_ ?_ | split | fail_if_no_progress (with_reducible apply Keeps.update) | dsimp only)

end Sys2Proof.Laws
end

