-- ==== Sys2Proof/Laws/KeepsLedger.lean ====
section
/-!
SUPPORT. Laws/KeepsLedger.lean: the operations of Machine/Ledger.lean keep the queue, the clock and the form of the memory.
-/
namespace Sys2Proof.Laws
open Sys2Proof Sys2Proof.Machine

variable {s0 : State}
set_option linter.unreachableTactic false
set_option linter.unusedTactic false

theorem keeps_updPlb {s : State} {f : Plumb → Plumb} (hk : Keeps s0 s) :
    Keeps s0 (updPlb s f) := by
  unfold updPlb
  repeat' (first | with_reducible assumption | fail_if_no_progress (with_reducible apply Keeps.update) | dsimp only)

theorem keeps_spend {s : State} {c : Nat} {e : Nat} (hk : Keeps s0 s) :
    Keeps s0 (spend s c e) := by
  unfold spend
  repeat' (first | with_reducible assumption | with_reducible apply keeps_updPlb | fail_if_no_progress (with_reducible apply Keeps.update) | dsimp only)

theorem keeps_debitJob {s : State} {m : Model} {n : Nat} (hk : Keeps s0 s) :
    Keeps s0 (debitJob s m n) := by
  unfold debitJob
  repeat' (first | (extract_lets +onlyGivenNames x; first | (refine (fun hx : Keeps s0 x => ?_) ?_ <;> [clear_value x; subst x]) | (refine (fun hx : KeepsF Prod.fst s0 x => ?_) ?_ <;> [(clear_value x; replace hx := hx.fst); (subst x; refine KeepsF.ofFst ?_)]) | (have _f := fun a => x a; clear _f; subst x) | clear_value x) | with_reducible assumption | with_reducible apply keeps_spend | with_reducible apply keeps_updPlb | with_reducible apply keeps_bump | with_reducible apply keeps_raise | with_reducible apply keeps_hwFault | with_reducible refine Keeps.ite ?_ ?_ | fail_if_no_progress (with_reducible apply Keeps.update) | split | dsimp only)

theorem keeps_mediaDebit {s : State} {c : Nat} {g : Nat} {cost : Nat} (hk : Keeps s0 s) :
    Keeps s0 (mediaDebit s c g cost) := by
  unfold mediaDebit
  repeat' (first | (extract_lets +onlyGivenNames x; first | (refine (fun hx : Keeps s0 x => ?_) ?_ <;> [clear_value x; subst x]) | (refine (fun hx : KeepsF Prod.fst s0 x => ?_) ?_ <;> [(clear_value x; replace hx := hx.fst); (subst x; refine KeepsF.ofFst ?_)]) | (have _f := fun a => x a; clear _f; subst x) | clear_value x) | with_reducible assumption | with_reducible apply keeps_spend | with_reducible apply keeps_updPlb | with_reducible refine Keeps.ite ?_ ?_ | fail_if_no_progress (with_reducible apply Keeps.update) | split | dsimp only)

theorem keeps_solveDebit {s : State} {c : Nat} {uj : Nat} (hk : Keeps s0 s) :
    Keeps s0 (solveDebit s c uj) := by
  unfold solveDebit
  repeat' (first | with_reducible assumption | with_reducible apply keeps_updPlb | with_reducible apply keeps_spend | fail_if_no_progress (with_reducible apply Keeps.update) | dsimp only)

end Sys2Proof.Laws
end

