-- ==== Sys2Proof/Laws/KeepsDispatcher.lean ====
section
/-!
SUPPORT. Laws/KeepsDispatcher.lean: the operations of Machine/Dispatcher.lean keep the queue, the clock and the form of the memory.
-/
namespace Sys2Proof.Laws
open Sys2Proof Sys2Proof.Machine

variable {s0 : State}
set_option linter.unreachableTactic false
set_option linter.unusedTactic false

theorem keeps_updModel {s : State} {m : Nat} {f : Model → Model} (hk : Keeps s0 s) :
    Keeps s0 (updModel s m f) := by
  unfold updModel
  repeat' (first | with_reducible assumption | with_reducible apply keeps_updDpt | fail_if_no_progress (with_reducible apply Keeps.update) | dsimp only)

theorem keeps_updCore {s : State} {n : Nat} {f : Core → Core} (hk : Keeps s0 s) :
    Keeps s0 (updCore s n f) := by
  unfold updCore
  repeat' (first | with_reducible assumption | fail_if_no_progress (with_reducible apply Keeps.update) | dsimp only)

theorem keeps_settlePart {now : Bool} {s : State} {p : Nat} (hk : Keeps s0 s) :
    Keeps s0 (settlePart now s p) := by
  unfold settlePart
  repeat' (first | (extract_lets +onlyGivenNames x; first | (refine (fun hx : Keeps s0 x => ?_) ?_ <;> [clear_value x; subst x]) | (refine (fun hx : KeepsF Prod.fst s0 x => ?_) ?_ <;> [(clear_value x; replace hx := hx.fst); (subst x; refine KeepsF.ofFst ?_)]) | (have _f := fun a => x a; clear _f; subst x) | clear_value x) | with_reducible assumption | with_reducible apply keeps_updDpt | with_reducible apply keeps_partEvent | with_reducible apply keeps_raise | with_reducible refine Keeps.ite ?_ ?_ | fail_if_no_progress (with_reducible apply Keeps.update) | split | dsimp only)

theorem keeps_settleParts {s : State} (hk : Keeps s0 s) :
    Keeps s0 (settleParts s) := by
  unfold settleParts
  repeat' (first | with_reducible assumption | with_reducible apply keeps_settlePart | with_reducible refine Keeps.foldl (fun _ _ _ => ?_) ?_ | with_reducible refine Keeps.foldl1 (fun _ _ _ => ?_) ?_ | dsimp only)

theorem keeps_execPartitionQuiesced {part : Nat} {s : State} (hk : Keeps s0 s) :
    KeepsO s0 (execPartitionQuiesced part s) := by
  unfold execPartitionQuiesced
  repeat' (first | with_reducible assumption | with_reducible apply keeps_settlePart | with_reducible refine KeepsO.next ?_ | dsimp only)

theorem keeps_freeBatch {s : State} {ident : Nat} {rec_ : List Byte} (hk : Keeps s0 s) :
    Keeps s0 (freeBatch s ident rec_) := by
  unfold freeBatch
  repeat' (first | (extract_lets +onlyGivenNames x; first | (refine (fun hx : Keeps s0 x => ?_) ?_ <;> [clear_value x; subst x]) | (refine (fun hx : KeepsF Prod.fst s0 x => ?_) ?_ <;> [(clear_value x; replace hx := hx.fst); (subst x; refine KeepsF.ofFst ?_)]) | (have _f := fun a => x a; clear _f; subst x) | clear_value x) | with_reducible assumption | with_reducible apply keeps_freeFrom | with_reducible refine Keeps.ite1 ?_ ?_ | with_reducible refine Keeps.ite ?_ ?_ | split | dsimp only)

theorem keeps_pushNoResult {s : State} {j : Job} {tag : Nat} {ts : Nat} {concealed : Bool} (hk : Keeps s0 s) :
    Keeps s0 (pushNoResult s j tag ts concealed) := by
  unfold pushNoResult
  repeat' (first | (extract_lets +onlyGivenNames x; first | (refine (fun hx : Keeps s0 x => ?_) ?_ <;> [clear_value x; subst x]) | (refine (fun hx : KeepsF Prod.fst s0 x => ?_) ?_ <;> [(clear_value x; replace hx := hx.fst); (subst x; refine KeepsF.ofFst ?_)]) | (have _f := fun a => x a; clear _f; subst x) | clear_value x) | with_reducible assumption | with_reducible apply keeps_pushFrom | with_reducible apply keeps_raise | with_reducible apply keeps_hwFault | with_reducible apply keeps_bump | with_reducible refine Keeps.ite1 ?_ ?_ | with_reducible refine Keeps.ite ?_ ?_ | split | dsimp only)

theorem keeps_emitNoResults {s : State} {ident : Nat} {j : Job} (hk : Keeps s0 s) :
    Keeps s0 (emitNoResults s ident j) := by
  unfold emitNoResults
  repeat' (first | (extract_lets +onlyGivenNames x; first | (refine (fun hx : Keeps s0 x => ?_) ?_ <;> [clear_value x; subst x]) | (refine (fun hx : KeepsF Prod.fst s0 x => ?_) ?_ <;> [(clear_value x; replace hx := hx.fst); (subst x; refine KeepsF.ofFst ?_)]) | (have _f := fun a => x a; clear _f; subst x) | clear_value x) | with_reducible assumption | with_reducible apply keeps_readRange | with_reducible apply keeps_pushNoResult | with_reducible apply keeps_freeBatch | with_reducible refine Keeps.ite1 ?_ ?_ | with_reducible refine Keeps.ite ?_ ?_ | with_reducible refine Keeps.foldl (fun _ _ _ => ?_) ?_ | with_reducible refine Keeps.foldl1 (fun _ _ _ => ?_) ?_ | split | intro _ _ | dsimp only)

theorem keeps_noResults {s : State} {ident : Nat} {j : Job} (hk : Keeps s0 s) :
    Keeps s0 (noResults s ident j) := by
  unfold noResults
  repeat' (first | (extract_lets +onlyGivenNames x; first | (refine (fun hx : Keeps s0 x => ?_) ?_ <;> [clear_value x; subst x]) | (refine (fun hx : KeepsF Prod.fst s0 x => ?_) ?_ <;> [(clear_value x; replace hx := hx.fst); (subst x; refine KeepsF.ofFst ?_)]) | (have _f := fun a => x a; clear _f; subst x) | clear_value x) | with_reducible assumption | with_reducible apply keeps_updDpt | with_reducible apply keeps_emitNoResults | with_reducible refine Keeps.ite1 ?_ ?_ | with_reducible refine Keeps.ite ?_ ?_ | split | fail_if_no_progress (with_reducible apply Keeps.update) | intro _ _ | dsimp only)

theorem keeps_resumeNoResults {s : State} (hk : Keeps s0 s) :
    Keeps s0 (resumeNoResults s) := by
  unfold resumeNoResults
  repeat' (first | (extract_lets +onlyGivenNames x; first | (refine (fun hx : Keeps s0 x => ?_) ?_ <;> [clear_value x; subst x]) | (refine (fun hx : KeepsF Prod.fst s0 x => ?_) ?_ <;> [(clear_value x; replace hx := hx.fst); (subst x; refine KeepsF.ofFst ?_)]) | (have _f := fun a => x a; clear _f; subst x) | clear_value x) | with_reducible assumption | with_reducible apply keeps_emitNoResults | with_reducible apply keeps_updDpt | with_reducible apply keeps_noResults | with_reducible refine Keeps.ite1 ?_ ?_ | with_reducible refine Keeps.ite ?_ ?_ | with_reducible refine Keeps.foldl (fun _ _ _ => ?_) ?_ | with_reducible refine Keeps.foldl1 (fun _ _ _ => ?_) ?_ | split | fail_if_no_progress (with_reducible apply Keeps.update) | intro _ _ | dsimp only)

theorem keeps_dispose {s : State} {ident : Nat} {j : Job} {action : Nat} {ended : Bool} (hk : Keeps s0 s) :
    Keeps s0 (dispose s ident j action ended) := by
  unfold dispose
  repeat' (first | (extract_lets +onlyGivenNames x; first | (refine (fun hx : Keeps s0 x => ?_) ?_ <;> [clear_value x; subst x]) | (refine (fun hx : KeepsF Prod.fst s0 x => ?_) ?_ <;> [(clear_value x; replace hx := hx.fst); (subst x; refine KeepsF.ofFst ?_)]) | (have _f := fun a => x a; clear _f; subst x) | clear_value x) | with_reducible assumption | with_reducible apply keeps_freeBatch | with_reducible apply keeps_updDpt | with_reducible apply keeps_noResults | with_reducible refine Keeps.ite ?_ ?_ | split | fail_if_no_progress (with_reducible apply Keeps.update) | dsimp only)

theorem keeps_reportMiss {s : State} {j : Job} {action : Nat} {running : Bool} (hk : Keeps s0 s) :
    Keeps s0 (reportMiss s j action running) := by
  unfold reportMiss
  repeat' (first | (extract_lets +onlyGivenNames x; first | (refine (fun hx : Keeps s0 x => ?_) ?_ <;> [clear_value x; subst x]) | (refine (fun hx : KeepsF Prod.fst s0 x => ?_) ?_ <;> [(clear_value x; replace hx := hx.fst); (subst x; refine KeepsF.ofFst ?_)]) | (have _f := fun a => x a; clear _f; subst x) | clear_value x) | with_reducible assumption | with_reducible apply keeps_bump | with_reducible apply keeps_setReg | with_reducible apply keeps_updModel | with_reducible apply keeps_updDpt | with_reducible apply keeps_raise | with_reducible apply keeps_hwFault | with_reducible apply keeps_sentinelJob | with_reducible apply keeps_signalFyp | with_reducible apply keeps_partEvent | with_reducible refine Keeps.ite1 ?_ ?_ | with_reducible refine Keeps.ite ?_ ?_ | split | fail_if_no_progress (with_reducible apply Keeps.update) | intro _ _ | dsimp only)

theorem keeps_sendAbort {s : State} {n : Nat} {urgent : Bool} (hk : Keeps s0 s) :
    Keeps s0 (sendAbort s n urgent) := by
  unfold sendAbort
  repeat' (first | (extract_lets +onlyGivenNames x; first | (refine (fun hx : Keeps s0 x => ?_) ?_ <;> [clear_value x; subst x]) | (refine (fun hx : KeepsF Prod.fst s0 x => ?_) ?_ <;> [(clear_value x; replace hx := hx.fst); (subst x; refine KeepsF.ofFst ?_)]) | (have _f := fun a => x a; clear _f; subst x) | clear_value x) | with_reducible assumption | with_reducible apply keeps_updDpt | with_reducible apply keeps_countFlits | with_reducible apply keeps_wake | with_reducible refine Keeps.ite1 ?_ ?_ | with_reducible refine Keeps.ite ?_ ?_ | split | fail_if_no_progress (with_reducible apply Keeps.update) | intro _ _ | dsimp only)

theorem keeps_dropAborts {s : State} {n : Nat} {urgent : Bool} (hk : Keeps s0 s) :
    Keeps s0 (dropAborts s n urgent) := by
  unfold dropAborts
  repeat' (first | (extract_lets +onlyGivenNames x; first | (refine (fun hx : Keeps s0 x => ?_) ?_ <;> [clear_value x; subst x]) | (refine (fun hx : KeepsF Prod.fst s0 x => ?_) ?_ <;> [(clear_value x; replace hx := hx.fst); (subst x; refine KeepsF.ofFst ?_)]) | (have _f := fun a => x a; clear _f; subst x) | clear_value x) | with_reducible assumption | with_reducible apply keeps_updDpt | with_reducible refine Keeps.ite1 ?_ ?_ | with_reducible refine Keeps.ite ?_ ?_ | split | fail_if_no_progress (with_reducible apply Keeps.update) | intro _ _ | dsimp only)

theorem keeps_missAborted {s : State} {n : Nat} {j : Job} (hk : Keeps s0 s) :
    Keeps s0 (missAborted s n j) := by
  unfold missAborted
  repeat' (first | (extract_lets +onlyGivenNames x; first | (refine (fun hx : Keeps s0 x => ?_) ?_ <;> [clear_value x; subst x]) | (refine (fun hx : KeepsF Prod.fst s0 x => ?_) ?_ <;> [(clear_value x; replace hx := hx.fst); (subst x; refine KeepsF.ofFst ?_)]) | (have _f := fun a => x a; clear _f; subst x) | clear_value x) | with_reducible assumption | with_reducible apply keeps_dispose | with_reducible apply keeps_reportMiss | with_reducible refine Keeps.ite ?_ ?_ | split | dsimp only)

theorem keeps_popJob {s : State} {m : Nat} {meet : HodMeet} (hk : Keeps s0 s) :
    Keeps s0 (popJob s m meet).1 := by
  unfold popJob
  repeat' (first | (extract_lets +onlyGivenNames x; first | (refine (fun hx : Keeps s0 x => ?_) ?_ <;> [clear_value x; subst x]) | (refine (fun hx : KeepsF Prod.fst s0 x => ?_) ?_ <;> [(clear_value x; replace hx := hx.fst); (subst x; refine KeepsF.ofFst ?_)]) | (have _f := fun a => x a; clear _f; subst x) | clear_value x) | with_reducible assumption | with_reducible apply keeps_popFrom | with_reducible apply keeps_updModel | with_reducible apply keeps_reportMiss | with_reducible apply keeps_pushNoResult | with_reducible refine Keeps.ite1 ?_ ?_ | with_reducible refine Keeps.ite ?_ ?_ | split | fail_if_no_progress (with_reducible apply Keeps.update) | intro _ _ | dsimp only)

theorem keeps_updJobAt {s : State} {n : Nat} {urgent : Bool} {f : Job → Job} (hk : Keeps s0 s) :
    Keeps s0 (updJobAt s n urgent f) := by
  unfold updJobAt
  repeat' (first | (extract_lets +onlyGivenNames x; first | (refine (fun hx : Keeps s0 x => ?_) ?_ <;> [clear_value x; subst x]) | (refine (fun hx : KeepsF Prod.fst s0 x => ?_) ?_ <;> [(clear_value x; replace hx := hx.fst); (subst x; refine KeepsF.ofFst ?_)]) | (have _f := fun a => x a; clear _f; subst x) | clear_value x) | with_reducible assumption | with_reducible apply keeps_updDpt | with_reducible apply keeps_updCore | with_reducible refine Keeps.ite1 ?_ ?_ | with_reducible refine Keeps.ite ?_ ?_ | split | fail_if_no_progress (with_reducible apply Keeps.update) | intro _ _ | dsimp only)

theorem keeps_miss {s : State} {m : Nat} {o : Outjob} {meet : HodMeet} (hk : Keeps s0 s) :
    Keeps s0 (miss s m o meet) := by
  unfold miss
  repeat' (first | (extract_lets +onlyGivenNames x; first | (refine (fun hx : Keeps s0 x => ?_) ?_ <;> [clear_value x; subst x]) | (refine (fun hx : KeepsF Prod.fst s0 x => ?_) ?_ <;> [(clear_value x; replace hx := hx.fst); (subst x; refine KeepsF.ofFst ?_)]) | (have _f := fun a => x a; clear _f; subst x) | clear_value x) | with_reducible assumption | with_reducible apply keeps_reportMiss | with_reducible apply keeps_updJobAt | with_reducible apply keeps_dispose | with_reducible apply keeps_sendAbort | with_reducible apply keeps_updDpt | with_reducible apply keeps_updModel | with_reducible apply keeps_popJob | with_reducible refine Keeps.ite1 ?_ ?_ | with_reducible refine Keeps.ite ?_ ?_ | split | fail_if_no_progress (with_reducible apply Keeps.update) | intro _ _ | dsimp only)

theorem keeps_deadlinePass {model : Nat} {meet : HodMeet} {s : State} (hk : Keeps s0 s) :
    Keeps s0 (deadlinePass model meet s) := by
  unfold deadlinePass
  repeat' (first | (extract_lets +onlyGivenNames x; first | (refine (fun hx : Keeps s0 x => ?_) ?_ <;> [clear_value x; subst x]) | (refine (fun hx : KeepsF Prod.fst s0 x => ?_) ?_ <;> [(clear_value x; replace hx := hx.fst); (subst x; refine KeepsF.ofFst ?_)]) | (have _f := fun a => x a; clear _f; subst x) | clear_value x) | with_reducible assumption | with_reducible apply keeps_settleParts | with_reducible apply keeps_miss | with_reducible refine Keeps.ite1 ?_ ?_ | with_reducible refine Keeps.ite ?_ ?_ | split | fail_if_no_progress (with_reducible apply Keeps.update) | dsimp only)

theorem keeps_sendStart {s : State} {n : Nat} {urgent : Bool} {j : Job} (hk : Keeps s0 s) :
    Keeps s0 (sendStart s n urgent j) := by
  unfold sendStart
  repeat' (first | (extract_lets +onlyGivenNames x; first | (refine (fun hx : Keeps s0 x => ?_) ?_ <;> [clear_value x; subst x]) | (refine (fun hx : KeepsF Prod.fst s0 x => ?_) ?_ <;> [(clear_value x; replace hx := hx.fst); (subst x; refine KeepsF.ofFst ?_)]) | (have _f := fun a => x a; clear _f; subst x) | clear_value x) | with_reducible assumption | with_reducible apply keeps_debitJob | with_reducible apply keeps_updDpt | with_reducible apply keeps_countFlits | with_reducible apply keeps_wake | with_reducible apply keeps_injFire | with_reducible apply keeps_raise | with_reducible refine Keeps.ite1 ?_ ?_ | with_reducible refine Keeps.ite ?_ ?_ | split | fail_if_no_progress (with_reducible apply Keeps.update) | intro _ _ | dsimp only)

theorem keeps_missSuspended {s : State} {m : Nat} {meet : HodMeet} (hk : Keeps s0 s) :
    Keeps s0 (missSuspended s m meet) := by
  unfold missSuspended
  repeat' (first | (extract_lets +onlyGivenNames x; first | (refine (fun hx : Keeps s0 x => ?_) ?_ <;> [clear_value x; subst x]) | (refine (fun hx : KeepsF Prod.fst s0 x => ?_) ?_ <;> [(clear_value x; replace hx := hx.fst); (subst x; refine KeepsF.ofFst ?_)]) | (have _f := fun a => x a; clear _f; subst x) | clear_value x) | with_reducible assumption | with_reducible apply keeps_miss | with_reducible refine Keeps.ite1 ?_ ?_ | with_reducible refine Keeps.ite ?_ ?_ | split | fail_if_no_progress (with_reducible apply Keeps.update) | intro _ _ | dsimp only)

theorem keeps_dispatchNormal {core : Nat} {meet : HodMeet} {s : State} (hk : Keeps s0 s) :
    Keeps s0 (dispatchNormal core meet s) := by
  unfold dispatchNormal
  repeat' (first | (extract_lets +onlyGivenNames x; first | (refine (fun hx : Keeps s0 x => ?_) ?_ <;> [clear_value x; subst x]) | (refine (fun hx : KeepsF Prod.fst s0 x => ?_) ?_ <;> [(clear_value x; replace hx := hx.fst); (subst x; refine KeepsF.ofFst ?_)]) | (have _f := fun a => x a; clear _f; subst x) | clear_value x) | with_reducible assumption | with_reducible apply keeps_settleParts | with_reducible apply keeps_miss | with_reducible apply keeps_sendStart | with_reducible apply keeps_updDpt | with_reducible apply keeps_missSuspended | with_reducible apply keeps_popJob | with_reducible refine Keeps.ite1 ?_ ?_ | with_reducible refine Keeps.ite ?_ ?_ | split | fail_if_no_progress (with_reducible apply Keeps.update) | intro _ _ | dsimp only)

theorem keeps_dispatchUrgent {meet : HodMeet} {s : State} (hk : Keeps s0 s) :
    Keeps s0 (dispatchUrgent meet s) := by
  unfold dispatchUrgent
  repeat' (first | (extract_lets +onlyGivenNames x; first | (refine (fun hx : Keeps s0 x => ?_) ?_ <;> [clear_value x; subst x]) | (refine (fun hx : KeepsF Prod.fst s0 x => ?_) ?_ <;> [(clear_value x; replace hx := hx.fst); (subst x; refine KeepsF.ofFst ?_)]) | (have _f := fun a => x a; clear _f; subst x) | clear_value x) | with_reducible assumption | with_reducible apply keeps_settleParts | with_reducible apply keeps_miss | with_reducible apply keeps_sendStart | with_reducible apply keeps_updDpt | with_reducible apply keeps_missSuspended | with_reducible apply keeps_popJob | with_reducible refine Keeps.ite1 ?_ ?_ | with_reducible refine Keeps.ite ?_ ?_ | split | fail_if_no_progress (with_reducible apply Keeps.update) | intro _ _ | dsimp only)

theorem keeps_driftEntry {s : State} {m : Nat} {count : Nat} (hk : Keeps s0 s) :
    Keeps s0 (driftEntry s m count) := by
  unfold driftEntry
  repeat' (first | (extract_lets +onlyGivenNames x; first | (refine (fun hx : Keeps s0 x => ?_) ?_ <;> [clear_value x; subst x]) | (refine (fun hx : KeepsF Prod.fst s0 x => ?_) ?_ <;> [(clear_value x; replace hx := hx.fst); (subst x; refine KeepsF.ofFst ?_)]) | (have _f := fun a => x a; clear _f; subst x) | clear_value x) | with_reducible assumption | with_reducible apply keeps_updModel | with_reducible apply keeps_partEvent | with_reducible apply keeps_raiseRecord | with_reducible refine Keeps.ite ?_ ?_ | with_reducible refine Keeps.foldl (fun _ _ _ => ?_) ?_ | with_reducible refine Keeps.foldl1 (fun _ _ _ => ?_) ?_ | fail_if_no_progress (with_reducible apply Keeps.update) | split | dsimp only)

theorem keeps_mismatchEntry {s : State} {n : Nat} {mism : Bool} (hk : Keeps s0 s) :
    Keeps s0 (mismatchEntry s n mism) := by
  unfold mismatchEntry
  repeat' (first | (extract_lets +onlyGivenNames x; first | (refine (fun hx : Keeps s0 x => ?_) ?_ <;> [clear_value x; subst x]) | (refine (fun hx : KeepsF Prod.fst s0 x => ?_) ?_ <;> [(clear_value x; replace hx := hx.fst); (subst x; refine KeepsF.ofFst ?_)]) | (have _f := fun a => x a; clear _f; subst x) | clear_value x) | with_reducible assumption | with_reducible apply keeps_updDpt | with_reducible apply keeps_wb | with_reducible apply keeps_raise | with_reducible apply keeps_hwFault | with_reducible refine Keeps.ite1 ?_ ?_ | with_reducible refine Keeps.ite ?_ ?_ | split | fail_if_no_progress (with_reducible apply Keeps.update) | intro _ _ | dsimp only)

theorem keeps_jobEnded {s : State} {n : Nat} {j : Job} {code : Nat} {count : Nat} {mism : Bool} (hk : Keeps s0 s) :
    Keeps s0 (jobEnded s n j code count mism) := by
  unfold jobEnded
  repeat' (first | (extract_lets +onlyGivenNames x; first | (refine (fun hx : Keeps s0 x => ?_) ?_ <;> [clear_value x; subst x]) | (refine (fun hx : KeepsF Prod.fst s0 x => ?_) ?_ <;> [(clear_value x; replace hx := hx.fst); (subst x; refine KeepsF.ofFst ?_)]) | (have _f := fun a => x a; clear _f; subst x) | clear_value x) | with_reducible assumption | with_reducible apply keeps_updModel | with_reducible apply keeps_bump | with_reducible apply keeps_mismatchEntry | with_reducible apply keeps_driftEntry | with_reducible apply keeps_sentinelJob | with_reducible apply keeps_dispose | with_reducible apply keeps_freeBatch | with_reducible apply keeps_settleParts | with_reducible refine Keeps.ite ?_ ?_ | split | fail_if_no_progress (with_reducible apply Keeps.update) | dsimp only)

theorem keeps_execWindowGrant {sub : Nat} {late : Bool} {s : State} (hk : Keeps s0 s) :
    KeepsO s0 (execWindowGrant sub late s) := by
  unfold execWindowGrant
  repeat' (first | (extract_lets +onlyGivenNames x; first | (refine (fun hx : Keeps s0 x => ?_) ?_ <;> [clear_value x; subst x]) | (refine (fun hx : KeepsF Prod.fst s0 x => ?_) ?_ <;> [(clear_value x; replace hx := hx.fst); (subst x; refine KeepsF.ofFst ?_)]) | (have _f := fun a => x a; clear _f; subst x) | clear_value x) | with_reducible assumption | with_reducible apply keeps_updSub | with_reducible apply keeps_setReg | with_reducible apply keeps_raise | with_reducible refine KeepsO.next ?_ | with_reducible refine KeepsO.ite ?_ ?_ | with_reducible refine Keeps.ite1 ?_ ?_ | with_reducible refine Keeps.ite ?_ ?_ | split | fail_if_no_progress (with_reducible apply Keeps.update) | intro _ _ | dsimp only)

theorem keeps_dramLost {s : State} {u : Nat} (hk : Keeps s0 s) :
    Keeps s0 (dramLost s u) := by
  unfold dramLost
  repeat' (first | (extract_lets +onlyGivenNames x; first | (refine (fun hx : Keeps s0 x => ?_) ?_ <;> [clear_value x; subst x]) | (refine (fun hx : KeepsF Prod.fst s0 x => ?_) ?_ <;> [(clear_value x; replace hx := hx.fst); (subst x; refine KeepsF.ofFst ?_)]) | (have _f := fun a => x a; clear _f; subst x) | clear_value x) | with_reducible assumption | with_reducible apply keeps_wb | with_reducible apply keeps_updModel | with_reducible apply keeps_sendAbort | with_reducible apply keeps_missAborted | with_reducible apply keeps_updJobAt | with_reducible apply keeps_settleParts | with_reducible refine Keeps.ite1 ?_ ?_ | with_reducible refine Keeps.ite ?_ ?_ | with_reducible refine Keeps.foldl (fun _ _ _ => ?_) ?_ | with_reducible refine Keeps.foldl1 (fun _ _ _ => ?_) ?_ | split | fail_if_no_progress (with_reducible apply Keeps.update) | intro _ _ | dsimp only)

theorem keeps_dramBack {s : State} (hk : Keeps s0 s) :
    Keeps s0 (dramBack s) := by
  unfold dramBack
  repeat' (first | (extract_lets +onlyGivenNames x; first | (refine (fun hx : Keeps s0 x => ?_) ?_ <;> [clear_value x; subst x]) | (refine (fun hx : KeepsF Prod.fst s0 x => ?_) ?_ <;> [(clear_value x; replace hx := hx.fst); (subst x; refine KeepsF.ofFst ?_)]) | (have _f := fun a => x a; clear _f; subst x) | clear_value x) | with_reducible assumption | with_reducible apply keeps_updModel | with_reducible apply keeps_settleParts | with_reducible apply keeps_wb | with_reducible refine Keeps.foldl (fun _ _ _ => ?_) ?_ | with_reducible refine Keeps.foldl1 (fun _ _ _ => ?_) ?_ | fail_if_no_progress (with_reducible apply Keeps.update) | dsimp only)

end Sys2Proof.Laws
end

