-- ==== Sys2Proof/Laws/KeepsPci.lean ====
section
/-!
SUPPORT. Laws/KeepsPci.lean: the operations of Machine/Pci.lean keep the queue, the clock and the form of the memory.
-/
namespace Sys2Proof.Laws
open Sys2Proof Sys2Proof.Machine

variable {s0 : State}
set_option linter.unreachableTactic false
set_option linter.unusedTactic false

theorem keeps_unsupported {s : State} {fn : Nat} {posted : Bool} {write : Bool} {len : Nat} {header : List Nat} {a : Option Nat} (hk : Keeps s0 s) :
    Keeps s0 (unsupported s fn posted write len header a) := by
  unfold unsupported
  repeat' (first | (extract_lets +onlyGivenNames x; first | (refine (fun hx : Keeps s0 x => ?_) ?_ <;> [clear_value x; subst x]) | (refine (fun hx : KeepsF Prod.fst s0 x => ?_) ?_ <;> [(clear_value x; replace hx := hx.fst); (subst x; refine KeepsF.ofFst ?_)]) | (have _f := fun a => x a; clear _f; subst x) | clear_value x) | with_reducible assumption | with_reducible apply keeps_fault | with_reducible apply keeps_logAer | with_reducible apply keeps_logAdvisory | with_reducible refine Keeps.ite1 ?_ ?_ | with_reducible refine Keeps.ite ?_ ?_ | split | dsimp only)

theorem keeps_inbound {s : State} (hk : Keeps s0 s) :
    Keeps s0 (inbound s) := by
  unfold inbound
  repeat' (first | (extract_lets +onlyGivenNames x; first | (refine (fun hx : Keeps s0 x => ?_) ?_ <;> [clear_value x; subst x]) | (refine (fun hx : KeepsF Prod.fst s0 x => ?_) ?_ <;> [(clear_value x; replace hx := hx.fst); (subst x; refine KeepsF.ofFst ?_)]) | (have _f := fun a => x a; clear _f; subst x) | clear_value x) | with_reducible assumption | with_reducible refine Keeps.ite1 ?_ ?_ | with_reducible refine Keeps.ite ?_ ?_ | split | fail_if_no_progress (with_reducible apply Keeps.update) | dsimp only)

theorem keeps_completeUr {s : State} {fn : Nat} (hk : Keeps s0 s) :
    Keeps s0 (completeUr s fn) := by
  unfold completeUr
  repeat' (first | with_reducible assumption | with_reducible apply keeps_sendHost | dsimp only)

theorem keeps_completeCa {s : State} {fn : Nat} (hk : Keeps s0 s) :
    Keeps s0 (completeCa s fn) := by
  unfold completeCa
  repeat' (first | with_reducible assumption | with_reducible apply keeps_sendHost | dsimp only)

theorem keeps_execLinkTrain {s : State} (hk : Keeps s0 s) :
    KeepsO s0 (execLinkTrain s) := by
  unfold execLinkTrain
  repeat' (first | (extract_lets +onlyGivenNames x; first | (refine (fun hx : Keeps s0 x => ?_) ?_ <;> [clear_value x; subst x]) | (refine (fun hx : KeepsF Prod.fst s0 x => ?_) ?_ <;> [(clear_value x; replace hx := hx.fst); (subst x; refine KeepsF.ofFst ?_)]) | (have _f := fun a => x a; clear _f; subst x) | clear_value x) | with_reducible assumption | with_reducible refine KeepsO.next ?_ | with_reducible refine KeepsO.ite ?_ ?_ | with_reducible refine Keeps.ite1 ?_ ?_ | with_reducible refine Keeps.ite ?_ ?_ | split | fail_if_no_progress (with_reducible apply Keeps.update) | dsimp only)

theorem keeps_execLinkUp {speed : Nat} {width : Nat} {s : State} (hk : Keeps s0 s) :
    KeepsO s0 (execLinkUp speed width s) := by
  unfold execLinkUp
  repeat' (first | (extract_lets +onlyGivenNames x; first | (refine (fun hx : Keeps s0 x => ?_) ?_ <;> [clear_value x; subst x]) | (refine (fun hx : KeepsF Prod.fst s0 x => ?_) ?_ <;> [(clear_value x; replace hx := hx.fst); (subst x; refine KeepsF.ofFst ?_)]) | (have _f := fun a => x a; clear _f; subst x) | clear_value x) | with_reducible assumption | with_reducible apply keeps_raise | with_reducible refine KeepsO.next ?_ | with_reducible refine KeepsO.ite ?_ ?_ | with_reducible refine Keeps.ite ?_ ?_ | with_reducible refine Keeps.ite1 ?_ ?_ | fail_if_no_progress (with_reducible apply Keeps.update) | split | dsimp only)

theorem keeps_issueReads {a0 : List (Nat × Nat × Nat × Nat)} {a1 : State} (hk : Keeps s0 a1) :
    Keeps s0 (issueReads a0 a1) := by
  induction a0 generalizing a1 with
  | nil =>
    unfold issueReads
    repeat' (first | with_reducible assumption | with_reducible apply keeps_sendRead | with_reducible refine Keeps.ite ?_ ?_ | split | fail_if_no_progress (with_reducible apply Keeps.update) | dsimp only)
  | cons y ys ihk =>
    unfold issueReads
    repeat' (first | with_reducible assumption | with_reducible apply ihk | with_reducible apply keeps_sendRead | with_reducible refine Keeps.ite ?_ ?_ | split | fail_if_no_progress (with_reducible apply Keeps.update) | dsimp only)

theorem keeps_execHwinRequest {req : Req} {addr : Nat} {len : Nat} {data : Option (List Byte)} {bad : List (Nat × Nat)} {bulk : Bool} {s : State} (hk : Keeps s0 s) :
    KeepsO s0 (execHwinRequest req addr len data bad bulk s) := by
  unfold execHwinRequest
  repeat' (first | (extract_lets +onlyGivenNames x; first | (refine (fun hx : Keeps s0 x => ?_) ?_ <;> [clear_value x; subst x]) | (refine (fun hx : KeepsF Prod.fst s0 x => ?_) ?_ <;> [(clear_value x; replace hx := hx.fst); (subst x; refine KeepsF.ofFst ?_)]) | (have _f := fun a => x a; clear _f; subst x) | clear_value x) | with_reducible assumption | with_reducible apply keeps_hwinRefuse | with_reducible apply keeps_issueReads | with_reducible refine KeepsO.next ?_ | with_reducible refine KeepsO.ite ?_ ?_ | with_reducible refine Keeps.ite1 ?_ ?_ | with_reducible refine Keeps.ite ?_ ?_ | split | fail_if_no_progress (with_reducible apply Keeps.update) | intro _ _ | dsimp only)

theorem keeps_execTagWaitIssue {s : State} (hk : Keeps s0 s) :
    KeepsO s0 (execTagWaitIssue s) := by
  unfold execTagWaitIssue
  repeat' (first | with_reducible assumption | with_reducible apply keeps_issueReads | with_reducible refine KeepsO.next ?_ | dsimp only)

theorem keeps_finishRead {s : State} {r : DevRead} (hk : Keeps s0 s) :
    Keeps s0 (finishRead s r) := by
  unfold finishRead
  repeat' (first | (extract_lets +onlyGivenNames x; first | (refine (fun hx : Keeps s0 x => ?_) ?_ <;> [clear_value x; subst x]) | (refine (fun hx : KeepsF Prod.fst s0 x => ?_) ?_ <;> [(clear_value x; replace hx := hx.fst); (subst x; refine KeepsF.ofFst ?_)]) | (have _f := fun a => x a; clear _f; subst x) | clear_value x) | with_reducible assumption | with_reducible refine Keeps.ite1 ?_ ?_ | with_reducible refine Keeps.ite ?_ ?_ | split | fail_if_no_progress (with_reducible apply Keeps.update) | intro _ _ | dsimp only)

theorem keeps_updRead {s : State} {id : Nat} {f : DevRead → DevRead} (hk : Keeps s0 s) :
    Keeps s0 (updRead s id f) := by
  unfold updRead
  repeat' (first | (extract_lets +onlyGivenNames x; first | (refine (fun hx : Keeps s0 x => ?_) ?_ <;> [clear_value x; subst x]) | (refine (fun hx : KeepsF Prod.fst s0 x => ?_) ?_ <;> [(clear_value x; replace hx := hx.fst); (subst x; refine KeepsF.ofFst ?_)]) | (have _f := fun a => x a; clear _f; subst x) | clear_value x) | with_reducible assumption | with_reducible apply keeps_finishRead | with_reducible refine Keeps.ite ?_ ?_ | split | fail_if_no_progress (with_reducible apply Keeps.update) | dsimp only)

theorem keeps_failRead {s : State} {o : Outstanding} (hk : Keeps s0 s) :
    Keeps s0 (failRead s o) := by
  unfold failRead
  repeat' (first | (extract_lets +onlyGivenNames x; first | (refine (fun hx : Keeps s0 x => ?_) ?_ <;> [clear_value x; subst x]) | (refine (fun hx : KeepsF Prod.fst s0 x => ?_) ?_ <;> [(clear_value x; replace hx := hx.fst); (subst x; refine KeepsF.ofFst ?_)]) | (have _f := fun a => x a; clear _f; subst x) | clear_value x) | with_reducible assumption | with_reducible apply keeps_updRead | with_reducible refine Keeps.ite1 ?_ ?_ | with_reducible refine Keeps.ite ?_ ?_ | with_reducible refine Keeps.foldl (fun _ _ _ => ?_) ?_ | with_reducible refine Keeps.foldl1 (fun _ _ _ => ?_) ?_ | split | fail_if_no_progress (with_reducible apply Keeps.update) | intro _ _ | dsimp only)

theorem keeps_dropCompletion {s : State} {tag : Nat} {left : Nat} {status : Nat} {n : Nat} (hk : Keeps s0 s) :
    Keeps s0 (dropCompletion s tag left status n) := by
  unfold dropCompletion
  repeat' (first | (extract_lets +onlyGivenNames x; first | (refine (fun hx : Keeps s0 x => ?_) ?_ <;> [clear_value x; subst x]) | (refine (fun hx : KeepsF Prod.fst s0 x => ?_) ?_ <;> [(clear_value x; replace hx := hx.fst); (subst x; refine KeepsF.ofFst ?_)]) | (have _f := fun a => x a; clear _f; subst x) | clear_value x) | with_reducible assumption | with_reducible refine Keeps.ite1 ?_ ?_ | with_reducible refine Keeps.ite ?_ ?_ | split | fail_if_no_progress (with_reducible apply Keeps.update) | dsimp only)

theorem keeps_aerOther {s : State} {fn : Nat} {bitNo : Nat} {advisory : Bool} {hdr : List Nat} (hk : Keeps s0 s) :
    Keeps s0 (aerOther s fn bitNo advisory hdr) := by
  unfold aerOther
  repeat' (first | (extract_lets +onlyGivenNames x; first | (refine (fun hx : Keeps s0 x => ?_) ?_ <;> [clear_value x; subst x]) | (refine (fun hx : KeepsF Prod.fst s0 x => ?_) ?_ <;> [(clear_value x; replace hx := hx.fst); (subst x; refine KeepsF.ofFst ?_)]) | (have _f := fun a => x a; clear _f; subst x) | clear_value x) | with_reducible assumption | with_reducible apply keeps_fault | with_reducible apply keeps_logAdvisory | with_reducible apply keeps_logAer | with_reducible refine Keeps.ite1 ?_ ?_ | with_reducible refine Keeps.ite ?_ ?_ | split | dsimp only)

theorem keeps_execCompletionArrive {tag : Nat} {status : Nat} {ep : Bool} {data : List Byte} {hdr : List Nat} {s : State} (hk : Keeps s0 s) :
    KeepsO s0 (execCompletionArrive tag status ep data hdr s) := by
  unfold execCompletionArrive
  repeat' (first | (extract_lets +onlyGivenNames x; first | (refine (fun hx : Keeps s0 x => ?_) ?_ <;> [clear_value x; subst x]) | (refine (fun hx : KeepsF Prod.fst s0 x => ?_) ?_ <;> [(clear_value x; replace hx := hx.fst); (subst x; refine KeepsF.ofFst ?_)]) | (have _f := fun a => x a; clear _f; subst x) | clear_value x) | with_reducible assumption | with_reducible apply keeps_inbound | with_reducible apply keeps_dropCompletion | with_reducible apply keeps_aerOther | with_reducible apply keeps_failRead | with_reducible apply keeps_fault | with_reducible apply keeps_poisonIn | with_reducible apply keeps_updRead | with_reducible refine KeepsO.next ?_ | with_reducible refine KeepsO.ite ?_ ?_ | with_reducible refine Keeps.ite1 ?_ ?_ | with_reducible refine Keeps.ite ?_ ?_ | with_reducible refine Keeps.foldl (fun _ _ _ => ?_) ?_ | with_reducible refine Keeps.foldl1 (fun _ _ _ => ?_) ?_ | split | fail_if_no_progress (with_reducible apply Keeps.update) | intro _ _ | dsimp only)

theorem keeps_execCplTimeout {tag : Nat} {s : State} (hk : Keeps s0 s) :
    KeepsO s0 (execCplTimeout tag s) := by
  unfold execCplTimeout
  repeat' (first | (extract_lets +onlyGivenNames x; first | (refine (fun hx : Keeps s0 x => ?_) ?_ <;> [clear_value x; subst x]) | (refine (fun hx : KeepsF Prod.fst s0 x => ?_) ?_ <;> [(clear_value x; replace hx := hx.fst); (subst x; refine KeepsF.ofFst ?_)]) | (have _f := fun a => x a; clear _f; subst x) | clear_value x) | with_reducible assumption | with_reducible apply keeps_fault | with_reducible apply keeps_raise | with_reducible apply keeps_logAer | with_reducible apply keeps_failRead | with_reducible refine KeepsO.next ?_ | with_reducible refine KeepsO.ite ?_ ?_ | with_reducible refine Keeps.ite1 ?_ ?_ | with_reducible refine Keeps.ite ?_ ?_ | split | fail_if_no_progress (with_reducible apply Keeps.update) | intro _ _ | dsimp only)

theorem keeps_writeDone {s : State} {w : DevWrite} (hk : Keeps s0 s) :
    Keeps s0 (writeDone s w) := by
  unfold writeDone
  repeat' (first | (extract_lets +onlyGivenNames x; first | (refine (fun hx : Keeps s0 x => ?_) ?_ <;> [clear_value x; subst x]) | (refine (fun hx : KeepsF Prod.fst s0 x => ?_) ?_ <;> [(clear_value x; replace hx := hx.fst); (subst x; refine KeepsF.ofFst ?_)]) | (have _f := fun a => x a; clear _f; subst x) | clear_value x) | with_reducible assumption | with_reducible refine Keeps.ite1 ?_ ?_ | with_reducible refine Keeps.ite ?_ ?_ | split | fail_if_no_progress (with_reducible apply Keeps.update) | dsimp only)

theorem keeps_execPostedWriteSent {s : State} (hk : Keeps s0 s) :
    KeepsO s0 (execPostedWriteSent s) := by
  unfold execPostedWriteSent
  repeat' (first | (extract_lets +onlyGivenNames x; first | (refine (fun hx : Keeps s0 x => ?_) ?_ <;> [clear_value x; subst x]) | (refine (fun hx : KeepsF Prod.fst s0 x => ?_) ?_ <;> [(clear_value x; replace hx := hx.fst); (subst x; refine KeepsF.ofFst ?_)]) | (have _f := fun a => x a; clear _f; subst x) | clear_value x) | with_reducible assumption | with_reducible apply keeps_writeDone | with_reducible apply keeps_sendHost | with_reducible apply keeps_fault | with_reducible refine KeepsO.next ?_ | with_reducible refine KeepsO.ite ?_ ?_ | with_reducible refine Keeps.ite1 ?_ ?_ | with_reducible refine Keeps.ite ?_ ?_ | split | fail_if_no_progress (with_reducible apply Keeps.update) | dsimp only)

theorem keeps_sendPending {s : State} {fn : Nat} {vec : Nat} (hk : Keeps s0 s) :
    Keeps s0 (sendPending s fn vec) := by
  unfold sendPending
  repeat' (first | (extract_lets +onlyGivenNames x; first | (refine (fun hx : Keeps s0 x => ?_) ?_ <;> [clear_value x; subst x]) | (refine (fun hx : KeepsF Prod.fst s0 x => ?_) ?_ <;> [(clear_value x; replace hx := hx.fst); (subst x; refine KeepsF.ofFst ?_)]) | (have _f := fun a => x a; clear _f; subst x) | clear_value x) | with_reducible assumption | with_reducible apply keeps_sendAfterWrites | with_reducible apply keeps_updFunc | with_reducible refine Keeps.ite1 ?_ ?_ | with_reducible refine Keeps.ite ?_ ?_ | split | fail_if_no_progress (with_reducible apply Keeps.update) | intro _ _ | dsimp only)

theorem keeps_resumeSends {s : State} {fn : Nat} (hk : Keeps s0 s) :
    Keeps s0 (resumeSends s fn) := by
  unfold resumeSends
  repeat' (first | with_reducible assumption | with_reducible apply keeps_sendPending | with_reducible refine Keeps.foldl (fun _ _ _ => ?_) ?_ | with_reducible refine Keeps.foldl1 (fun _ _ _ => ?_) ?_ | dsimp only)

theorem keeps_setMask {s : State} {fn : Nat} {vec : Nat} {m : Bool} (hk : Keeps s0 s) :
    Keeps s0 (setMask s fn vec m) := by
  unfold setMask
  repeat' (first | (extract_lets +onlyGivenNames x; first | (refine (fun hx : Keeps s0 x => ?_) ?_ <;> [clear_value x; subst x]) | (refine (fun hx : KeepsF Prod.fst s0 x => ?_) ?_ <;> [(clear_value x; replace hx := hx.fst); (subst x; refine KeepsF.ofFst ?_)]) | (have _f := fun a => x a; clear _f; subst x) | clear_value x) | with_reducible assumption | with_reducible apply keeps_updFunc | with_reducible apply keeps_sendPending | fail_if_no_progress (with_reducible apply Keeps.update) | dsimp only)

theorem keeps_execMsixUnmask {fn : Nat} {vector : Nat} {due : Bool} {s : State} (hk : Keeps s0 s) :
    KeepsO s0 (execMsixUnmask fn vector due s) := by
  unfold execMsixUnmask
  repeat' (first | (extract_lets +onlyGivenNames x; first | (refine (fun hx : Keeps s0 x => ?_) ?_ <;> [clear_value x; subst x]) | (refine (fun hx : KeepsF Prod.fst s0 x => ?_) ?_ <;> [(clear_value x; replace hx := hx.fst); (subst x; refine KeepsF.ofFst ?_)]) | (have _f := fun a => x a; clear _f; subst x) | clear_value x) | with_reducible assumption | with_reducible apply keeps_setMask | with_reducible apply keeps_updFunc | with_reducible refine KeepsO.next ?_ | with_reducible refine KeepsO.ite ?_ ?_ | with_reducible refine Keeps.ite1 ?_ ?_ | with_reducible refine Keeps.ite ?_ ?_ | split | fail_if_no_progress (with_reducible apply Keeps.update) | intro _ _ | dsimp only)

theorem keeps_execFunctionSendResume {fn : Nat} {s : State} (hk : Keeps s0 s) :
    KeepsO s0 (execFunctionSendResume fn s) := by
  unfold execFunctionSendResume
  repeat' (first | with_reducible assumption | with_reducible apply keeps_resumeSends | with_reducible apply keeps_updFunc | with_reducible refine KeepsO.next ?_ | fail_if_no_progress (with_reducible apply Keeps.update) | dsimp only)

theorem keeps_execPowerStateChange {fn : Nat} {d3 : Bool} {s : State} (hk : Keeps s0 s) :
    KeepsO s0 (execPowerStateChange fn d3 s) := by
  unfold execPowerStateChange
  repeat' (first | with_reducible assumption | with_reducible apply keeps_resumeSends | with_reducible apply keeps_updFunc | with_reducible refine KeepsO.next ?_ | fail_if_no_progress (with_reducible apply Keeps.update) | dsimp only)

theorem keeps_execL1Entry {s : State} (hk : Keeps s0 s) :
    KeepsO s0 (execL1Entry s) := by
  unfold execL1Entry
  repeat' (first | (extract_lets +onlyGivenNames x; first | (refine (fun hx : Keeps s0 x => ?_) ?_ <;> [clear_value x; subst x]) | (refine (fun hx : KeepsF Prod.fst s0 x => ?_) ?_ <;> [(clear_value x; replace hx := hx.fst); (subst x; refine KeepsF.ofFst ?_)]) | (have _f := fun a => x a; clear _f; subst x) | clear_value x) | with_reducible assumption | with_reducible apply keeps_sendHost | with_reducible refine KeepsO.next ?_ | with_reducible refine KeepsO.ite ?_ ?_ | with_reducible refine Keeps.ite1 ?_ ?_ | with_reducible refine Keeps.ite ?_ ?_ | split | fail_if_no_progress (with_reducible apply Keeps.update) | intro _ _ | dsimp only)

theorem keeps_dropWrite {s : State} {w : DevWrite} (hk : Keeps s0 s) :
    Keeps s0 (dropWrite s w) := by
  unfold dropWrite
  repeat' (first | (extract_lets +onlyGivenNames x; first | (refine (fun hx : Keeps s0 x => ?_) ?_ <;> [clear_value x; subst x]) | (refine (fun hx : KeepsF Prod.fst s0 x => ?_) ?_ <;> [(clear_value x; replace hx := hx.fst); (subst x; refine KeepsF.ofFst ?_)]) | (have _f := fun a => x a; clear _f; subst x) | clear_value x) | with_reducible assumption | with_reducible apply keeps_ringFailed | with_reducible refine Keeps.ite1 ?_ ?_ | with_reducible refine Keeps.ite ?_ ?_ | split | fail_if_no_progress (with_reducible apply Keeps.update) | dsimp only)

theorem keeps_discardWrites {s : State} {p : Nat → Bool} (hk : Keeps s0 s) :
    Keeps s0 (discardWrites s p) := by
  unfold discardWrites
  repeat' (first | (extract_lets +onlyGivenNames x; first | (refine (fun hx : Keeps s0 x => ?_) ?_ <;> [clear_value x; subst x]) | (refine (fun hx : KeepsF Prod.fst s0 x => ?_) ?_ <;> [(clear_value x; replace hx := hx.fst); (subst x; refine KeepsF.ofFst ?_)]) | (have _f := fun a => x a; clear _f; subst x) | clear_value x) | with_reducible assumption | with_reducible apply keeps_dropWrite | with_reducible refine Keeps.ite1 ?_ ?_ | with_reducible refine Keeps.ite ?_ ?_ | with_reducible refine Keeps.foldl (fun _ _ _ => ?_) ?_ | with_reducible refine Keeps.foldl1 (fun _ _ _ => ?_) ?_ | split | fail_if_no_progress (with_reducible apply Keeps.update) | intro _ _ | dsimp only)

theorem keeps_poisonReads {s : State} {p : Nat → Bool} (hk : Keeps s0 s) :
    Keeps s0 (poisonReads s p) := by
  unfold poisonReads
  repeat' (first | (extract_lets +onlyGivenNames x; first | (refine (fun hx : Keeps s0 x => ?_) ?_ <;> [clear_value x; subst x]) | (refine (fun hx : KeepsF Prod.fst s0 x => ?_) ?_ <;> [(clear_value x; replace hx := hx.fst); (subst x; refine KeepsF.ofFst ?_)]) | (have _f := fun a => x a; clear _f; subst x) | clear_value x) | with_reducible assumption | with_reducible refine Keeps.ite1 ?_ ?_ | with_reducible refine Keeps.ite ?_ ?_ | with_reducible refine Keeps.foldl (fun _ _ _ => ?_) ?_ | with_reducible refine Keeps.foldl1 (fun _ _ _ => ?_) ?_ | split | fail_if_no_progress (with_reducible apply Keeps.update) | intro _ _ | dsimp only [id] | dsimp only)

theorem keeps_resetVf {s : State} {v : Nat} (hk : Keeps s0 s) :
    Keeps s0 (resetVf s v) := by
  unfold resetVf
  repeat' (first | (extract_lets +onlyGivenNames x; first | (refine (fun hx : Keeps s0 x => ?_) ?_ <;> [clear_value x; subst x]) | (refine (fun hx : KeepsF Prod.fst s0 x => ?_) ?_ <;> [(clear_value x; replace hx := hx.fst); (subst x; refine KeepsF.ofFst ?_)]) | (have _f := fun a => x a; clear _f; subst x) | clear_value x) | with_reducible assumption | with_reducible apply keeps_updFunc | with_reducible apply keeps_poisonReads | with_reducible apply keeps_discardWrites | dsimp only)

theorem keeps_clearVfEnable {s : State} (hk : Keeps s0 s) :
    Keeps s0 (clearVfEnable s) := by
  unfold clearVfEnable
  repeat' (first | (extract_lets +onlyGivenNames x; first | (refine (fun hx : Keeps s0 x => ?_) ?_ <;> [clear_value x; subst x]) | (refine (fun hx : KeepsF Prod.fst s0 x => ?_) ?_ <;> [(clear_value x; replace hx := hx.fst); (subst x; refine KeepsF.ofFst ?_)]) | (have _f := fun a => x a; clear _f; subst x) | clear_value x) | with_reducible assumption | with_reducible apply keeps_raise | with_reducible apply keeps_updFunc | with_reducible apply keeps_resetVf | with_reducible refine Keeps.ite1 ?_ ?_ | with_reducible refine Keeps.ite ?_ ?_ | with_reducible refine Keeps.foldl (fun _ _ _ => ?_) ?_ | with_reducible refine Keeps.foldl1 (fun _ _ _ => ?_) ?_ | split | fail_if_no_progress (with_reducible apply Keeps.update) | intro _ _ | dsimp only)

theorem keeps_resetPf {s : State} (hk : Keeps s0 s) :
    Keeps s0 (resetPf s) := by
  unfold resetPf
  repeat' (first | (extract_lets +onlyGivenNames x; first | (refine (fun hx : Keeps s0 x => ?_) ?_ <;> [clear_value x; subst x]) | (refine (fun hx : KeepsF Prod.fst s0 x => ?_) ?_ <;> [(clear_value x; replace hx := hx.fst); (subst x; refine KeepsF.ofFst ?_)]) | (have _f := fun a => x a; clear _f; subst x) | clear_value x) | with_reducible assumption | with_reducible apply keeps_clearVfEnable | with_reducible apply keeps_updFunc | with_reducible apply keeps_poisonReads | with_reducible apply keeps_discardWrites | fail_if_no_progress (with_reducible apply Keeps.update) | dsimp only)

theorem keeps_execVfFlr {vf : Nat} {s : State} (hk : Keeps s0 s) :
    KeepsO s0 (execVfFlr vf s) := by
  unfold execVfFlr
  repeat' (first | with_reducible assumption | with_reducible apply keeps_resetVf | with_reducible refine KeepsO.next ?_ | with_reducible refine KeepsO.ite ?_ ?_ | with_reducible refine Keeps.ite ?_ ?_ | with_reducible refine Keeps.ite1 ?_ ?_ | split | dsimp only)

theorem keeps_execPfFlr {s : State} (hk : Keeps s0 s) :
    KeepsO s0 (execPfFlr s) := by
  unfold execPfFlr
  repeat' (first | with_reducible assumption | with_reducible apply keeps_resetPf | with_reducible refine KeepsO.next ?_ | dsimp only)

theorem keeps_execFlrDone {fn : Nat} {s : State} (hk : Keeps s0 s) :
    KeepsO s0 (execFlrDone fn s) := by
  unfold execFlrDone
  repeat' (first | with_reducible assumption | with_reducible apply keeps_raise | with_reducible apply keeps_updFunc | with_reducible refine KeepsO.next ?_ | with_reducible refine KeepsO.ite ?_ ?_ | with_reducible refine Keeps.ite ?_ ?_ | with_reducible refine Keeps.ite1 ?_ ?_ | fail_if_no_progress (with_reducible apply Keeps.update) | split | dsimp only)

theorem keeps_resetEndpoint {s : State} (hk : Keeps s0 s) :
    Keeps s0 (resetEndpoint s) := by
  unfold resetEndpoint
  repeat' (first | (extract_lets +onlyGivenNames x; first | (refine (fun hx : Keeps s0 x => ?_) ?_ <;> [clear_value x; subst x]) | (refine (fun hx : KeepsF Prod.fst s0 x => ?_) ?_ <;> [(clear_value x; replace hx := hx.fst); (subst x; refine KeepsF.ofFst ?_)]) | (have _f := fun a => x a; clear _f; subst x) | clear_value x) | with_reducible assumption | with_reducible apply keeps_poisonReads | with_reducible apply keeps_resetRegs | with_reducible apply keeps_dropWrite | with_reducible refine Keeps.ite1 ?_ ?_ | with_reducible refine Keeps.ite ?_ ?_ | with_reducible refine Keeps.foldl (fun _ _ _ => ?_) ?_ | with_reducible refine Keeps.foldl1 (fun _ _ _ => ?_) ?_ | split | fail_if_no_progress (with_reducible apply Keeps.update) | intro _ _ | dsimp only)

theorem keeps_execEndpointReset {cause : EndpointReset} {s : State} (hk : Keeps s0 s) :
    KeepsO s0 (execEndpointReset cause s) := by
  unfold execEndpointReset
  repeat' (first | with_reducible assumption | with_reducible apply keeps_raise | with_reducible apply keeps_resetEndpoint | with_reducible refine KeepsO.next ?_ | split | fail_if_no_progress (with_reducible apply Keeps.update) | dsimp only)

theorem keeps_execInboundUnsupportedTlp {fn : Nat} {kind : TlpKind} {len : Nat} {hdr : List Nat} {s : State} (hk : Keeps s0 s) :
    KeepsO s0 (execInboundUnsupportedTlp fn kind len hdr s) := by
  unfold execInboundUnsupportedTlp
  repeat' (first | (extract_lets +onlyGivenNames x; first | (refine (fun hx : Keeps s0 x => ?_) ?_ <;> [clear_value x; subst x]) | (refine (fun hx : KeepsF Prod.fst s0 x => ?_) ?_ <;> [(clear_value x; replace hx := hx.fst); (subst x; refine KeepsF.ofFst ?_)]) | (have _f := fun a => x a; clear _f; subst x) | clear_value x) | with_reducible assumption | with_reducible apply keeps_inbound | with_reducible apply keeps_unsupported | with_reducible apply keeps_completeUr | with_reducible apply keeps_aerOther | with_reducible apply keeps_logCor | with_reducible refine KeepsO.next ?_ | with_reducible refine KeepsO.ite ?_ ?_ | with_reducible refine Keeps.ite1 ?_ ?_ | with_reducible refine Keeps.ite ?_ ?_ | split | fail_if_no_progress (with_reducible apply Keeps.update) | intro _ _ | dsimp only)

theorem keeps_execDisabledVfRequest {posted : Bool} {write : Bool} {len : Nat} {hdr : List Nat} {s : State} (hk : Keeps s0 s) :
    KeepsO s0 (execDisabledVfRequest posted write len hdr s) := by
  unfold execDisabledVfRequest
  repeat' (first | (extract_lets +onlyGivenNames x; first | (refine (fun hx : Keeps s0 x => ?_) ?_ <;> [clear_value x; subst x]) | (refine (fun hx : KeepsF Prod.fst s0 x => ?_) ?_ <;> [(clear_value x; replace hx := hx.fst); (subst x; refine KeepsF.ofFst ?_)]) | (have _f := fun a => x a; clear _f; subst x) | clear_value x) | with_reducible assumption | with_reducible apply keeps_unsupported | with_reducible apply keeps_inbound | with_reducible apply keeps_completeUr | with_reducible refine KeepsO.next ?_ | with_reducible refine KeepsO.ite ?_ ?_ | with_reducible refine Keeps.ite1 ?_ ?_ | with_reducible refine Keeps.ite ?_ ?_ | split | dsimp only)

end Sys2Proof.Laws
end

