-- ==== Sys2Proof/Laws/KeepsIngress.lean ====
section
/-!
SUPPORT. Laws/KeepsIngress.lean: the operations of Machine/Ingress.lean keep the queue, the clock and the form of the memory.
-/
namespace Sys2Proof.Laws
open Sys2Proof Sys2Proof.Machine

variable {s0 : State}
set_option linter.unreachableTactic false
set_option linter.unusedTactic false

theorem keeps_updSrc {s : State} {n : Nat} {f : Source → Source} (hk : Keeps s0 s) :
    Keeps s0 (updSrc s n f) := by
  unfold updSrc
  repeat' (first | with_reducible assumption | fail_if_no_progress (with_reducible apply Keeps.update) | dsimp only)

theorem keeps_refuseFrame {s : State} {d : Decl} {cause : Nat} {detail : Nat} (hk : Keeps s0 s) :
    Keeps s0 (refuseFrame s d cause detail) := by
  unfold refuseFrame
  repeat' (first | with_reducible assumption | with_reducible apply keeps_raise | with_reducible apply keeps_hwFault | with_reducible apply keeps_bump | dsimp only)

theorem keeps_dropFrame {s : State} {src : Nat} {cause : Nat} {detail : Nat} (hk : Keeps s0 s) :
    Keeps s0 (dropFrame s src cause detail) := by
  unfold dropFrame
  repeat' (first | (extract_lets +onlyGivenNames x; first | (refine (fun hx : Keeps s0 x => ?_) ?_ <;> [clear_value x; subst x]) | (refine (fun hx : KeepsF Prod.fst s0 x => ?_) ?_ <;> [(clear_value x; replace hx := hx.fst); (subst x; refine KeepsF.ofFst ?_)]) | (have _f := fun a => x a; clear _f; subst x) | clear_value x) | with_reducible assumption | with_reducible apply keeps_updSrc | with_reducible apply keeps_freeFrom | with_reducible apply keeps_raise | with_reducible apply keeps_hwFault | with_reducible apply keeps_bump | with_reducible refine Keeps.ite1 ?_ ?_ | with_reducible refine Keeps.ite ?_ ?_ | split | fail_if_no_progress (with_reducible apply Keeps.update) | intro _ _ | dsimp only)

theorem keeps_nextSeq {s : State} {slot : Nat} (hk : Keeps s0 s) :
    Keeps s0 (nextSeq s slot).1 := by
  unfold nextSeq
  repeat' (first | (extract_lets +onlyGivenNames x; first | (refine (fun hx : Keeps s0 x => ?_) ?_ <;> [clear_value x; subst x]) | (refine (fun hx : KeepsF Prod.fst s0 x => ?_) ?_ <;> [(clear_value x; replace hx := hx.fst); (subst x; refine KeepsF.ofFst ?_)]) | (have _f := fun a => x a; clear _f; subst x) | clear_value x) | with_reducible assumption | fail_if_no_progress (with_reducible apply Keeps.update) | dsimp only)

theorem keeps_startCheck {s : State} {d : Decl} {k : Source} (hk : Keeps s0 s) :
    Keeps s0 (startCheck s d k).1 := by
  unfold startCheck
  repeat' (first | (extract_lets +onlyGivenNames x; first | (refine (fun hx : Keeps s0 x => ?_) ?_ <;> [clear_value x; subst x]) | (refine (fun hx : KeepsF Prod.fst s0 x => ?_) ?_ <;> [(clear_value x; replace hx := hx.fst); (subst x; refine KeepsF.ofFst ?_)]) | (have _f := fun a => x a; clear _f; subst x) | clear_value x) | with_reducible assumption | with_reducible apply keeps_readCtx | with_reducible refine Keeps.ite1 ?_ ?_ | with_reducible refine Keeps.ite ?_ ?_ | split | dsimp only)

theorem keeps_thinned {s : State} {src : Nat} {d : Decl} (hk : Keeps s0 s) :
    Keeps s0 (thinned s src d).1 := by
  unfold thinned
  repeat' (first | (extract_lets +onlyGivenNames x; first | (refine (fun hx : Keeps s0 x => ?_) ?_ <;> [clear_value x; subst x]) | (refine (fun hx : KeepsF Prod.fst s0 x => ?_) ?_ <;> [(clear_value x; replace hx := hx.fst); (subst x; refine KeepsF.ofFst ?_)]) | (have _f := fun a => x a; clear _f; subst x) | clear_value x) | with_reducible assumption | with_reducible apply keeps_updSrc | with_reducible refine Keeps.ite1 ?_ ?_ | with_reducible refine Keeps.ite ?_ ?_ | fail_if_no_progress (with_reducible apply Keeps.update) | split | dsimp only)

theorem keeps_acceptStart {s : State} {src : Nat} {f : Frame} (hk : Keeps s0 s) :
    Keeps s0 (acceptStart s src f) := by
  unfold acceptStart
  repeat' (first | (extract_lets +onlyGivenNames x; first | (refine (fun hx : Keeps s0 x => ?_) ?_ <;> [clear_value x; subst x]) | (refine (fun hx : KeepsF Prod.fst s0 x => ?_) ?_ <;> [(clear_value x; replace hx := hx.fst); (subst x; refine KeepsF.ofFst ?_)]) | (have _f := fun a => x a; clear _f; subst x) | clear_value x) | with_reducible assumption | with_reducible apply keeps_updSrc | with_reducible refine Keeps.ite1 ?_ ?_ | with_reducible refine Keeps.ite ?_ ?_ | split | fail_if_no_progress (with_reducible apply Keeps.update) | intro _ _ | dsimp only)

theorem keeps_endStall {s : State} {slot : Nat} (hk : Keeps s0 s) :
    Keeps s0 (endStall s slot) := by
  unfold endStall
  repeat' (first | with_reducible assumption | with_reducible apply keeps_tellFlt | with_reducible refine Keeps.ite ?_ ?_ | split | dsimp only)

theorem keeps_stallSource {s : State} {src : Nat} (hk : Keeps s0 s) :
    Keeps s0 (stallSource s src) := by
  unfold stallSource
  repeat' (first | (extract_lets +onlyGivenNames x; first | (refine (fun hx : Keeps s0 x => ?_) ?_ <;> [clear_value x; subst x]) | (refine (fun hx : KeepsF Prod.fst s0 x => ?_) ?_ <;> [(clear_value x; replace hx := hx.fst); (subst x; refine KeepsF.ofFst ?_)]) | (have _f := fun a => x a; clear _f; subst x) | clear_value x) | with_reducible assumption | with_reducible apply keeps_updSrc | with_reducible apply keeps_raiseRecord | with_reducible apply keeps_tellFlt | fail_if_no_progress (with_reducible apply Keeps.update) | dsimp only)

theorem keeps_measured {s : State} {p : Nat} {rx : CsiRx} (hk : Keeps s0 s) :
    Keeps s0 (measured s p rx) := by
  unfold measured
  repeat' (first | (extract_lets +onlyGivenNames x; first | (refine (fun hx : Keeps s0 x => ?_) ?_ <;> [clear_value x; subst x]) | (refine (fun hx : KeepsF Prod.fst s0 x => ?_) ?_ <;> [(clear_value x; replace hx := hx.fst); (subst x; refine KeepsF.ofFst ?_)]) | (have _f := fun a => x a; clear _f; subst x) | clear_value x) | with_reducible assumption | with_reducible apply keeps_wf | with_reducible refine Keeps.ite1 ?_ ?_ | with_reducible refine Keeps.ite ?_ ?_ | split | dsimp only)

theorem keeps_csiPacket {s : State} {p : Nat} {rx : CsiRx} (hk : Keeps s0 s) :
    Keeps s0 (csiPacket s p rx).1 := by
  unfold csiPacket
  repeat' (first | (extract_lets +onlyGivenNames x; first | (refine (fun hx : Keeps s0 x => ?_) ?_ <;> [clear_value x; subst x]) | (refine (fun hx : KeepsF Prod.fst s0 x => ?_) ?_ <;> [(clear_value x; replace hx := hx.fst); (subst x; refine KeepsF.ofFst ?_)]) | (have _f := fun a => x a; clear _f; subst x) | clear_value x) | with_reducible assumption | with_reducible apply keeps_measured | with_reducible apply keeps_wake | with_reducible apply keeps_bump | with_reducible refine Keeps.ite1 ?_ ?_ | with_reducible refine Keeps.ite ?_ ?_ | split | fail_if_no_progress (with_reducible apply Keeps.update) | dsimp only)

theorem keeps_execCsiFrameStart {port : Nat} {vc : Nat} {frame : Nat} {rx : CsiRx} {s : State} (hk : Keeps s0 s) :
    KeepsO s0 (execCsiFrameStart port vc frame rx s) := by
  unfold execCsiFrameStart
  repeat' (first | (extract_lets +onlyGivenNames x; first | (refine (fun hx : Keeps s0 x => ?_) ?_ <;> [clear_value x; subst x]) | (refine (fun hx : KeepsF Prod.fst s0 x => ?_) ?_ <;> [(clear_value x; replace hx := hx.fst); (subst x; refine KeepsF.ofFst ?_)]) | (have _f := fun a => x a; clear _f; subst x) | clear_value x) | with_reducible assumption | with_reducible apply keeps_csiPacket | with_reducible apply keeps_dropFrame | with_reducible apply keeps_refuseFrame | with_reducible apply keeps_nextSeq | with_reducible apply keeps_thinned | with_reducible apply keeps_bump | with_reducible apply keeps_startCheck | with_reducible apply keeps_updSrc | with_reducible refine KeepsO.next ?_ | with_reducible refine KeepsO.ite ?_ ?_ | with_reducible refine Keeps.ite1 ?_ ?_ | with_reducible refine Keeps.ite ?_ ?_ | split | fail_if_no_progress (with_reducible apply Keeps.update) | intro _ _ | dsimp only)

theorem keeps_storeLine {s : State} {src : Nat} {d : Decl} {f : Frame} {data : List Byte} {crcOk : Bool} {fixed : Bool} (hk : Keeps s0 s) :
    Keeps s0 (storeLine s src d f data crcOk fixed) := by
  unfold storeLine
  repeat' (first | (extract_lets +onlyGivenNames x; first | (refine (fun hx : Keeps s0 x => ?_) ?_ <;> [clear_value x; subst x]) | (refine (fun hx : KeepsF Prod.fst s0 x => ?_) ?_ <;> [(clear_value x; replace hx := hx.fst); (subst x; refine KeepsF.ofFst ?_)]) | (have _f := fun a => x a; clear _f; subst x) | clear_value x) | with_reducible assumption | with_reducible apply keeps_injFire | with_reducible apply keeps_dropFrame | with_reducible apply keeps_bump | with_reducible apply keeps_patientRange | with_reducible apply keeps_updSrc | with_reducible refine Keeps.ite1 ?_ ?_ | with_reducible refine Keeps.ite ?_ ?_ | split | fail_if_no_progress (with_reducible apply Keeps.update) | intro _ _ | dsimp only)

theorem keeps_csiFirstLine {port : Nat} {vc : Nat} {dt : Nat} {wc : Nat} {data : List Byte} {crcOk : Bool} {rx : CsiRx} {s : State} (hk : Keeps s0 s) :
    Keeps s0 (csiFirstLine port vc dt wc data crcOk rx s) := by
  unfold csiFirstLine
  repeat' (first | (extract_lets +onlyGivenNames x; first | (refine (fun hx : Keeps s0 x => ?_) ?_ <;> [clear_value x; subst x]) | (refine (fun hx : KeepsF Prod.fst s0 x => ?_) ?_ <;> [(clear_value x; replace hx := hx.fst); (subst x; refine KeepsF.ofFst ?_)]) | (have _f := fun a => x a; clear _f; subst x) | clear_value x) | with_reducible assumption | with_reducible apply keeps_csiPacket | with_reducible apply keeps_bump | with_reducible apply keeps_updSrc | with_reducible apply keeps_refuseFrame | with_reducible apply keeps_allocFrom | with_reducible apply keeps_storeLine | with_reducible apply keeps_acceptStart | with_reducible refine Keeps.ite1 ?_ ?_ | with_reducible refine Keeps.ite ?_ ?_ | split | fail_if_no_progress (with_reducible apply Keeps.update) | intro _ _ | dsimp only)

theorem keeps_csiLine {port : Nat} {vc : Nat} {dt : Nat} {wc : Nat} {data : List Byte} {crcOk : Bool} {rx : CsiRx} {s : State} (hk : Keeps s0 s) :
    Keeps s0 (csiLine port vc dt wc data crcOk rx s) := by
  unfold csiLine
  repeat' (first | (extract_lets +onlyGivenNames x; first | (refine (fun hx : Keeps s0 x => ?_) ?_ <;> [clear_value x; subst x]) | (refine (fun hx : KeepsF Prod.fst s0 x => ?_) ?_ <;> [(clear_value x; replace hx := hx.fst); (subst x; refine KeepsF.ofFst ?_)]) | (have _f := fun a => x a; clear _f; subst x) | clear_value x) | with_reducible assumption | with_reducible apply keeps_csiPacket | with_reducible apply keeps_bump | with_reducible apply keeps_dropFrame | with_reducible apply keeps_storeLine | with_reducible refine Keeps.ite1 ?_ ?_ | with_reducible refine Keeps.ite ?_ ?_ | split | fail_if_no_progress (with_reducible apply Keeps.update) | dsimp only)

theorem keeps_endFrame {s : State} {src : Nat} {f : Frame} (hk : Keeps s0 s) :
    Keeps s0 (endFrame s src f) := by
  unfold endFrame
  repeat' (first | (extract_lets +onlyGivenNames x; first | (refine (fun hx : Keeps s0 x => ?_) ?_ <;> [clear_value x; subst x]) | (refine (fun hx : KeepsF Prod.fst s0 x => ?_) ?_ <;> [(clear_value x; replace hx := hx.fst); (subst x; refine KeepsF.ofFst ?_)]) | (have _f := fun a => x a; clear _f; subst x) | clear_value x) | with_reducible assumption | with_reducible apply keeps_patientWrite | with_reducible apply keeps_dropFrame | with_reducible apply keeps_updSrc | with_reducible refine Keeps.ite1 ?_ ?_ | with_reducible refine Keeps.ite ?_ ?_ | split | fail_if_no_progress (with_reducible apply Keeps.update) | intro _ _ | dsimp only)

theorem keeps_csiFrameEnd {port : Nat} {vc : Nat} {rx : CsiRx} {s : State} (hk : Keeps s0 s) :
    Keeps s0 (csiFrameEnd port vc rx s) := by
  unfold csiFrameEnd
  repeat' (first | (extract_lets +onlyGivenNames x; first | (refine (fun hx : Keeps s0 x => ?_) ?_ <;> [clear_value x; subst x]) | (refine (fun hx : KeepsF Prod.fst s0 x => ?_) ?_ <;> [(clear_value x; replace hx := hx.fst); (subst x; refine KeepsF.ofFst ?_)]) | (have _f := fun a => x a; clear _f; subst x) | clear_value x) | with_reducible assumption | with_reducible apply keeps_csiPacket | with_reducible apply keeps_bump | with_reducible apply keeps_dropFrame | with_reducible apply keeps_endFrame | with_reducible refine Keeps.ite1 ?_ ?_ | with_reducible refine Keeps.ite ?_ ?_ | split | fail_if_no_progress (with_reducible apply Keeps.update) | dsimp only)

theorem keeps_sendTrigger {s : State} {src : Nat} {cycles : Nat} (hk : Keeps s0 s) :
    Keeps s0 (sendTrigger s src cycles).1 := by
  unfold sendTrigger
  repeat' (first | (extract_lets +onlyGivenNames x; first | (refine (fun hx : Keeps s0 x => ?_) ?_ <;> [clear_value x; subst x]) | (refine (fun hx : KeepsF Prod.fst s0 x => ?_) ?_ <;> [(clear_value x; replace hx := hx.fst); (subst x; refine KeepsF.ofFst ?_)]) | (have _f := fun a => x a; clear _f; subst x) | clear_value x) | with_reducible assumption | with_reducible apply keeps_updSrc | with_reducible apply keeps_triggerFrom | with_reducible apply keeps_delivered | with_reducible apply keeps_endStall | with_reducible apply keeps_bump | with_reducible apply keeps_freeFrom | with_reducible apply keeps_raise | with_reducible apply keeps_hwFault | with_reducible refine Keeps.ite1 ?_ ?_ | with_reducible refine Keeps.ite ?_ ?_ | split | fail_if_no_progress (with_reducible apply Keeps.update) | intro _ _ | dsimp only)

theorem keeps_frameTrigger {source : Nat} {cycles : Nat} {s : State} (hk : Keeps s0 s) :
    Keeps s0 (frameTrigger source cycles s) := by
  unfold frameTrigger
  repeat' (first | (extract_lets +onlyGivenNames x; first | (refine (fun hx : Keeps s0 x => ?_) ?_ <;> [clear_value x; subst x]) | (refine (fun hx : KeepsF Prod.fst s0 x => ?_) ?_ <;> [(clear_value x; replace hx := hx.fst); (subst x; refine KeepsF.ofFst ?_)]) | (have _f := fun a => x a; clear _f; subst x) | clear_value x) | with_reducible assumption | with_reducible apply keeps_sendTrigger | with_reducible apply keeps_wake | with_reducible refine Keeps.ite1 ?_ ?_ | with_reducible refine Keeps.ite ?_ ?_ | split | dsimp only)

theorem keeps_execCsiDeskewDone {port : Nat} {rx : CsiRx} {s : State} (hk : Keeps s0 s) :
    KeepsO s0 (execCsiDeskewDone port rx s) := by
  unfold execCsiDeskewDone
  repeat' (first | (extract_lets +onlyGivenNames x; first | (refine (fun hx : Keeps s0 x => ?_) ?_ <;> [clear_value x; subst x]) | (refine (fun hx : KeepsF Prod.fst s0 x => ?_) ?_ <;> [(clear_value x; replace hx := hx.fst); (subst x; refine KeepsF.ofFst ?_)]) | (have _f := fun a => x a; clear _f; subst x) | clear_value x) | with_reducible assumption | with_reducible apply keeps_wb | with_reducible apply keeps_measured | with_reducible apply keeps_wake | with_reducible refine KeepsO.next ?_ | with_reducible refine KeepsO.ite ?_ ?_ | with_reducible refine Keeps.ite1 ?_ ?_ | with_reducible refine Keeps.ite ?_ ?_ | split | dsimp only)

theorem keeps_storeStream {s : State} {src : Nat} {f : Frame} {bs : List Byte} (hk : Keeps s0 s) :
    Keeps s0 (storeStream s src f bs).1 := by
  unfold storeStream
  repeat' (first | (extract_lets +onlyGivenNames x; first | (refine (fun hx : Keeps s0 x => ?_) ?_ <;> [clear_value x; subst x]) | (refine (fun hx : KeepsF Prod.fst s0 x => ?_) ?_ <;> [(clear_value x; replace hx := hx.fst); (subst x; refine KeepsF.ofFst ?_)]) | (have _f := fun a => x a; clear _f; subst x) | clear_value x) | with_reducible assumption | with_reducible apply keeps_dropFrame | with_reducible apply keeps_patientRange | with_reducible apply keeps_updSrc | with_reducible refine Keeps.ite1 ?_ ?_ | with_reducible refine Keeps.ite ?_ ?_ | split | fail_if_no_progress (with_reducible apply Keeps.update) | intro _ _ | dsimp only)

theorem keeps_avtpSkip {s : State} {src : Nat} {a : Avtp} (hk : Keeps s0 s) :
    Keeps s0 (avtpSkip s src a) := by
  unfold avtpSkip
  repeat' (first | with_reducible assumption | with_reducible apply keeps_updSrc | fail_if_no_progress (with_reducible apply Keeps.update) | dsimp only)

theorem keeps_avtpStore {s : State} {src : Nat} {a : Avtp} {f : Frame} (hk : Keeps s0 s) :
    Keeps s0 (avtpStore s src a f) := by
  unfold avtpStore
  repeat' (first | (extract_lets +onlyGivenNames x; first | (refine (fun hx : Keeps s0 x => ?_) ?_ <;> [clear_value x; subst x]) | (refine (fun hx : KeepsF Prod.fst s0 x => ?_) ?_ <;> [(clear_value x; replace hx := hx.fst); (subst x; refine KeepsF.ofFst ?_)]) | (have _f := fun a => x a; clear _f; subst x) | clear_value x) | with_reducible assumption | with_reducible apply keeps_storeStream | with_reducible apply keeps_avtpSkip | with_reducible apply keeps_endFrame | with_reducible refine Keeps.ite ?_ ?_ | split | fail_if_no_progress (with_reducible apply Keeps.update) | dsimp only)

theorem keeps_avtpStart {s : State} {src : Nat} {a : Avtp} {d : Decl} {k : Source} (hk : Keeps s0 s) :
    Keeps s0 (avtpStart s src a d k) := by
  unfold avtpStart
  repeat' (first | (extract_lets +onlyGivenNames x; first | (refine (fun hx : Keeps s0 x => ?_) ?_ <;> [clear_value x; subst x]) | (refine (fun hx : KeepsF Prod.fst s0 x => ?_) ?_ <;> [(clear_value x; replace hx := hx.fst); (subst x; refine KeepsF.ofFst ?_)]) | (have _f := fun a => x a; clear _f; subst x) | clear_value x) | with_reducible assumption | with_reducible apply keeps_nextSeq | with_reducible apply keeps_thinned | with_reducible apply keeps_avtpSkip | with_reducible apply keeps_startCheck | with_reducible apply keeps_refuseFrame | with_reducible apply keeps_allocFrom | with_reducible apply keeps_avtpStore | with_reducible apply keeps_acceptStart | with_reducible refine Keeps.ite1 ?_ ?_ | with_reducible refine Keeps.ite ?_ ?_ | split | fail_if_no_progress (with_reducible apply Keeps.update) | dsimp only)

theorem keeps_avtpStream {s : State} {m : Nat} {src : Nat} {a : Avtp} (hk : Keeps s0 s) :
    Keeps s0 (avtpStream s m src a) := by
  unfold avtpStream
  repeat' (first | (extract_lets +onlyGivenNames x; first | (refine (fun hx : Keeps s0 x => ?_) ?_ <;> [clear_value x; subst x]) | (refine (fun hx : KeepsF Prod.fst s0 x => ?_) ?_ <;> [(clear_value x; replace hx := hx.fst); (subst x; refine KeepsF.ofFst ?_)]) | (have _f := fun a => x a; clear _f; subst x) | clear_value x) | with_reducible assumption | with_reducible apply keeps_bump | with_reducible apply keeps_updSrc | with_reducible apply keeps_avtpStore | with_reducible apply keeps_avtpSkip | with_reducible apply keeps_refuseFrame | with_reducible apply keeps_nextSeq | with_reducible apply keeps_avtpStart | with_reducible refine Keeps.ite1 ?_ ?_ | with_reducible refine Keeps.ite ?_ ?_ | split | fail_if_no_progress (with_reducible apply Keeps.update) | intro _ _ | dsimp only)

theorem keeps_avtpPacket {s : State} {m : Nat} {pk : List Byte} (hk : Keeps s0 s) :
    Keeps s0 (avtpPacket s m pk) := by
  unfold avtpPacket
  repeat' (first | (extract_lets +onlyGivenNames x; first | (refine (fun hx : Keeps s0 x => ?_) ?_ <;> [clear_value x; subst x]) | (refine (fun hx : KeepsF Prod.fst s0 x => ?_) ?_ <;> [(clear_value x; replace hx := hx.fst); (subst x; refine KeepsF.ofFst ?_)]) | (have _f := fun a => x a; clear _f; subst x) | clear_value x) | with_reducible assumption | with_reducible apply keeps_bump | with_reducible apply keeps_raise | with_reducible apply keeps_hwFault | with_reducible apply keeps_avtpStream | with_reducible refine Keeps.ite ?_ ?_ | split | dsimp only)

theorem keeps_ptpReceive {s : State} {m : Nat} {fr : List Byte} (hk : Keeps s0 s) :
    Keeps s0 (ptpReceive s m fr) := by
  unfold ptpReceive
  repeat' (first | (extract_lets +onlyGivenNames x; first | (refine (fun hx : Keeps s0 x => ?_) ?_ <;> [clear_value x; subst x]) | (refine (fun hx : KeepsF Prod.fst s0 x => ?_) ?_ <;> [(clear_value x; replace hx := hx.fst); (subst x; refine KeepsF.ofFst ?_)]) | (have _f := fun a => x a; clear _f; subst x) | clear_value x) | with_reducible assumption | with_reducible apply keeps_hwFault | with_reducible apply keeps_raise | with_reducible refine Keeps.ite ?_ ?_ | fail_if_no_progress (with_reducible apply Keeps.update) | split | dsimp only)

theorem keeps_ethFrame {mac : Nat} {frame : List Byte} {fcsOk : Bool} {s : State} (hk : Keeps s0 s) :
    Keeps s0 (ethFrame mac frame fcsOk s) := by
  unfold ethFrame
  repeat' (first | (extract_lets +onlyGivenNames x; first | (refine (fun hx : Keeps s0 x => ?_) ?_ <;> [clear_value x; subst x]) | (refine (fun hx : KeepsF Prod.fst s0 x => ?_) ?_ <;> [(clear_value x; replace hx := hx.fst); (subst x; refine KeepsF.ofFst ?_)]) | (have _f := fun a => x a; clear _f; subst x) | clear_value x) | with_reducible assumption | with_reducible apply keeps_wake | with_reducible apply keeps_bump | with_reducible apply keeps_avtpPacket | with_reducible apply keeps_ptpReceive | with_reducible refine Keeps.ite1 ?_ ?_ | with_reducible refine Keeps.ite ?_ ?_ | split | dsimp only)

theorem keeps_avtpReceive {mac : Nat} {packet : List Byte} {s : State} (hk : Keeps s0 s) :
    Keeps s0 (avtpReceive mac packet s) := by
  unfold avtpReceive
  repeat' (first | (extract_lets +onlyGivenNames x; first | (refine (fun hx : Keeps s0 x => ?_) ?_ <;> [clear_value x; subst x]) | (refine (fun hx : KeepsF Prod.fst s0 x => ?_) ?_ <;> [(clear_value x; replace hx := hx.fst); (subst x; refine KeepsF.ofFst ?_)]) | (have _f := fun a => x a; clear _f; subst x) | clear_value x) | with_reducible assumption | with_reducible apply keeps_avtpPacket | with_reducible apply keeps_wake | with_reducible refine Keeps.ite1 ?_ ?_ | with_reducible refine Keeps.ite ?_ ?_ | split | dsimp only)

theorem keeps_execPtpRx {mac : Nat} {frame : List Byte} {s : State} (hk : Keeps s0 s) :
    KeepsO s0 (execPtpRx mac frame s) := by
  unfold execPtpRx
  repeat' (first | (extract_lets +onlyGivenNames x; first | (refine (fun hx : Keeps s0 x => ?_) ?_ <;> [clear_value x; subst x]) | (refine (fun hx : KeepsF Prod.fst s0 x => ?_) ?_ <;> [(clear_value x; replace hx := hx.fst); (subst x; refine KeepsF.ofFst ?_)]) | (have _f := fun a => x a; clear _f; subst x) | clear_value x) | with_reducible assumption | with_reducible apply keeps_ptpReceive | with_reducible apply keeps_wake | with_reducible refine KeepsO.next ?_ | with_reducible refine KeepsO.ite ?_ ?_ | with_reducible refine Keeps.ite1 ?_ ?_ | with_reducible refine Keeps.ite ?_ ?_ | split | dsimp only)

theorem keeps_ptpPop {s : State} {m : Nat} (hk : Keeps s0 s) :
    Keeps s0 (ptpPop s m) := by
  unfold ptpPop
  repeat' (first | with_reducible assumption | fail_if_no_progress (with_reducible apply Keeps.update) | dsimp only)

theorem keeps_ptpSend {s : State} {m : Nat} (hk : Keeps s0 s) :
    Keeps s0 (ptpSend s m) := by
  unfold ptpSend
  repeat' (first | (extract_lets +onlyGivenNames x; first | (refine (fun hx : Keeps s0 x => ?_) ?_ <;> [clear_value x; subst x]) | (refine (fun hx : KeepsF Prod.fst s0 x => ?_) ?_ <;> [(clear_value x; replace hx := hx.fst); (subst x; refine KeepsF.ofFst ?_)]) | (have _f := fun a => x a; clear _f; subst x) | clear_value x) | with_reducible assumption | with_reducible apply keeps_wb | with_reducible apply keeps_setReg | with_reducible refine Keeps.ite ?_ ?_ | fail_if_no_progress (with_reducible apply Keeps.update) | split | dsimp only)

theorem keeps_execPtpTxDone {mac : Nat} {s : State} (hk : Keeps s0 s) :
    KeepsO s0 (execPtpTxDone mac s) := by
  unfold execPtpTxDone
  repeat' (first | with_reducible assumption | with_reducible apply keeps_raise | with_reducible apply keeps_wb | with_reducible refine KeepsO.next ?_ | with_reducible refine KeepsO.ite ?_ ?_ | with_reducible refine Keeps.ite ?_ ?_ | with_reducible refine Keeps.ite1 ?_ ?_ | split | dsimp only)

theorem keeps_hostPushComplete {s : State} {pg : Nat} {sq : Nat} {cq : Nat} {user : List Byte} {complete : Bool} {st : Nat} {seq : Nat} {info : Nat} (hk : Keeps s0 s) :
    Keeps s0 (hostPushComplete s pg sq cq user complete st seq info) := by
  unfold hostPushComplete
  repeat' (first | (extract_lets +onlyGivenNames x; first | (refine (fun hx : Keeps s0 x => ?_) ?_ <;> [clear_value x; subst x]) | (refine (fun hx : KeepsF Prod.fst s0 x => ?_) ?_ <;> [(clear_value x; replace hx := hx.fst); (subst x; refine KeepsF.ofFst ?_)]) | (have _f := fun a => x a; clear _f; subst x) | clear_value x) | with_reducible assumption | with_reducible apply keeps_cqCheck | with_reducible apply keeps_fresh | with_reducible apply keeps_hwFault | with_reducible apply keeps_partEvent | with_reducible apply keeps_carryCall | with_reducible apply keeps_pushCompletion | with_reducible refine Keeps.ite1 ?_ ?_ | with_reducible refine Keeps.ite ?_ ?_ | split | intro _ _ | dsimp only)

theorem keeps_hostPushDesc {mac : Nat} {entry : Nat} {meet : HodMeet} {s : State} (hk : Keeps s0 s) :
    Keeps s0 (hostPushDesc mac entry meet s) := by
  unfold hostPushDesc
  repeat' (first | (extract_lets +onlyGivenNames x; first | (refine (fun hx : Keeps s0 x => ?_) ?_ <;> [clear_value x; subst x]) | (refine (fun hx : KeepsF Prod.fst s0 x => ?_) ?_ <;> [(clear_value x; replace hx := hx.fst); (subst x; refine KeepsF.ofFst ?_)]) | (have _f := fun a => x a; clear _f; subst x) | clear_value x) | with_reducible assumption | with_reducible apply keeps_popFrom | with_reducible apply keeps_wake | with_reducible apply keeps_nextSeq | with_reducible apply keeps_hostPushComplete | with_reducible apply keeps_refuseFrame | with_reducible apply keeps_thinned | with_reducible apply keeps_startCheck | with_reducible apply keeps_allocFrom | with_reducible apply keeps_acceptStart | with_reducible apply keeps_readRange | with_reducible apply keeps_dropFrame | with_reducible apply keeps_patientRange | with_reducible apply keeps_updSrc | with_reducible refine Keeps.ite1 ?_ ?_ | with_reducible refine Keeps.ite ?_ ?_ | split | fail_if_no_progress (with_reducible apply Keeps.update) | intro _ _ | dsimp only)

theorem keeps_hostPushDone {source : Nat} {cycles : Nat} {s : State} (hk : Keeps s0 s) :
    Keeps s0 (hostPushDone source cycles s) := by
  unfold hostPushDone
  repeat' (first | (extract_lets +onlyGivenNames x; first | (refine (fun hx : Keeps s0 x => ?_) ?_ <;> [clear_value x; subst x]) | (refine (fun hx : KeepsF Prod.fst s0 x => ?_) ?_ <;> [(clear_value x; replace hx := hx.fst); (subst x; refine KeepsF.ofFst ?_)]) | (have _f := fun a => x a; clear _f; subst x) | clear_value x) | with_reducible assumption | with_reducible apply keeps_endFrame | with_reducible apply keeps_wake | with_reducible apply keeps_block | with_reducible apply keeps_sendTrigger | with_reducible apply keeps_hostPushComplete | with_reducible refine Keeps.ite1 ?_ ?_ | with_reducible refine Keeps.ite ?_ ?_ | split | fail_if_no_progress (with_reducible apply Keeps.update) | dsimp only)

theorem keeps_execStreamStall {source : Nat} {s : State} (hk : Keeps s0 s) :
    KeepsO s0 (execStreamStall source s) := by
  unfold execStreamStall
  repeat' (first | (extract_lets +onlyGivenNames x; first | (refine (fun hx : Keeps s0 x => ?_) ?_ <;> [clear_value x; subst x]) | (refine (fun hx : KeepsF Prod.fst s0 x => ?_) ?_ <;> [(clear_value x; replace hx := hx.fst); (subst x; refine KeepsF.ofFst ?_)]) | (have _f := fun a => x a; clear _f; subst x) | clear_value x) | with_reducible assumption | with_reducible apply keeps_stallSource | with_reducible refine KeepsO.next ?_ | with_reducible refine KeepsO.ite ?_ ?_ | with_reducible refine Keeps.ite ?_ ?_ | with_reducible refine Keeps.ite1 ?_ ?_ | split | dsimp only)

end Sys2Proof.Laws
end

