-- ==== Sys2Proof/Laws/KeepsDeveloper.lean ====
section
/-!
SUPPORT. Laws/KeepsDeveloper.lean: the operations of Machine/Developer.lean keep the queue, the clock and the form of the memory.
-/
namespace Sys2Proof.Laws
open Sys2Proof Sys2Proof.Machine

variable {s0 : State}
set_option linter.unreachableTactic false
set_option linter.unusedTactic false

theorem keeps_updDev {s : State} {n : Nat} {f : DevSlot → DevSlot} (hk : Keeps s0 s) :
    Keeps s0 (updDev s n f) := by
  unfold updDev
  repeat' (first | with_reducible assumption | fail_if_no_progress (with_reducible apply Keeps.update) | dsimp only)

theorem keeps_devLose {s : State} {e : Nat} {n : Nat} {cause : Nat} {info : Nat} (hk : Keeps s0 s) :
    Keeps s0 (devLose s e n cause info) := by
  unfold devLose
  repeat' (first | (extract_lets +onlyGivenNames x; first | (refine (fun hx : Keeps s0 x => ?_) ?_ <;> [clear_value x; subst x]) | (refine (fun hx : KeepsF Prod.fst s0 x => ?_) ?_ <;> [(clear_value x; replace hx := hx.fst); (subst x; refine KeepsF.ofFst ?_)]) | (have _f := fun a => x a; clear _f; subst x) | clear_value x) | with_reducible assumption | with_reducible apply keeps_bump | with_reducible apply keeps_raise | with_reducible apply keeps_hwFault | with_reducible refine Keeps.ite1 ?_ ?_ | with_reducible refine Keeps.ite ?_ ?_ | split | dsimp only)

theorem keeps_devDrop {s : State} {e : Nat} {n : Nat} {h : Nat} {cause : Nat} {info : Nat} (hk : Keeps s0 s) :
    Keeps s0 (devDrop s e n h cause info) := by
  unfold devDrop
  repeat' (first | (extract_lets +onlyGivenNames x; first | (refine (fun hx : Keeps s0 x => ?_) ?_ <;> [clear_value x; subst x]) | (refine (fun hx : KeepsF Prod.fst s0 x => ?_) ?_ <;> [(clear_value x; replace hx := hx.fst); (subst x; refine KeepsF.ofFst ?_)]) | (have _f := fun a => x a; clear _f; subst x) | clear_value x) | with_reducible assumption | with_reducible apply keeps_devLose | with_reducible apply keeps_freeFrom | with_reducible refine Keeps.ite1 ?_ ?_ | with_reducible refine Keeps.ite ?_ ?_ | split | dsimp only)

theorem keeps_devWaitRap {s : State} {e : Nat} {n : Nat} (hk : Keeps s0 s) :
    Keeps s0 (devWaitRap s e n) := by
  unfold devWaitRap
  repeat' (first | with_reducible assumption | with_reducible apply keeps_raise | with_reducible apply keeps_updDev | fail_if_no_progress (with_reducible apply Keeps.update) | dsimp only)

theorem keeps_allocPlanes {s : State} {n : Nat} {y : Nat} {c : Nat} (hk : Keeps s0 s) :
    Keeps s0 (allocPlanes s n y c).1 := by
  unfold allocPlanes
  repeat' (first | (extract_lets +onlyGivenNames x; first | (refine (fun hx : Keeps s0 x => ?_) ?_ <;> [clear_value x; subst x]) | (refine (fun hx : KeepsF Prod.fst s0 x => ?_) ?_ <;> [(clear_value x; replace hx := hx.fst); (subst x; refine KeepsF.ofFst ?_)]) | (have _f := fun a => x a; clear _f; subst x) | clear_value x) | with_reducible assumption | with_reducible apply keeps_allocFrom | with_reducible apply keeps_freeFrom | with_reducible refine Keeps.ite1 ?_ ?_ | with_reducible refine Keeps.ite ?_ ?_ | split | fail_if_no_progress (with_reducible apply Keeps.update) | dsimp only)

theorem keeps_freePic {s : State} {n : Nat} {p : Pic} (hk : Keeps s0 s) :
    Keeps s0 (freePic s n p) := by
  unfold freePic
  repeat' (first | (extract_lets +onlyGivenNames x; first | (refine (fun hx : Keeps s0 x => ?_) ?_ <;> [clear_value x; subst x]) | (refine (fun hx : KeepsF Prod.fst s0 x => ?_) ?_ <;> [(clear_value x; replace hx := hx.fst); (subst x; refine KeepsF.ofFst ?_)]) | (have _f := fun a => x a; clear _f; subst x) | clear_value x) | with_reducible assumption | with_reducible apply keeps_freeFrom | with_reducible refine Keeps.ite1 ?_ ?_ | with_reducible refine Keeps.ite ?_ ?_ | split | dsimp only)

theorem keeps_allocPics {z0 : List Bool} {z1 : State} {z2 : Nat} {z3 : Nat} {z4 : Nat} (hk : Keeps s0 z1) :
    Keeps s0 (allocPics z0 z1 z2 z3 z4).1 := by
  induction z0 generalizing z1 z2 z3 z4 with
  | nil =>
    unfold allocPics
    repeat' (first | (extract_lets +onlyGivenNames x; first | (refine (fun hx : Keeps s0 x => ?_) ?_ <;> [clear_value x; subst x]) | (refine (fun hx : KeepsF Prod.fst s0 x => ?_) ?_ <;> [(clear_value x; replace hx := hx.fst); (subst x; refine KeepsF.ofFst ?_)]) | (have _f := fun a => x a; clear _f; subst x) | clear_value x) | with_reducible assumption | with_reducible apply keeps_allocPlanes | with_reducible apply keeps_freePic | with_reducible refine Keeps.ite1 ?_ ?_ | with_reducible refine Keeps.ite ?_ ?_ | split | dsimp only)
  | cons y ys ihk =>
    unfold allocPics
    repeat' (first | (extract_lets +onlyGivenNames x; first | (refine (fun hx : Keeps s0 x => ?_) ?_ <;> [clear_value x; subst x]) | (refine (fun hx : KeepsF Prod.fst s0 x => ?_) ?_ <;> [(clear_value x; replace hx := hx.fst); (subst x; refine KeepsF.ofFst ?_)]) | (have _f := fun a => x a; clear _f; subst x) | clear_value x) | with_reducible assumption | with_reducible apply ihk | with_reducible apply keeps_allocPlanes | with_reducible apply keeps_freePic | with_reducible refine Keeps.ite1 ?_ ?_ | with_reducible refine Keeps.ite ?_ ?_ | split | dsimp only)

theorem keeps_devStart {s : State} {e : Nat} {n : Nat} {bs : List Byte} {h : Nat} {rap : Bool} {refs : List Bool} (hk : Keeps s0 s) :
    Keeps s0 (devStart s e n bs h rap refs) := by
  unfold devStart
  repeat' (first | (extract_lets +onlyGivenNames x; first | (refine (fun hx : Keeps s0 x => ?_) ?_ <;> [clear_value x; subst x]) | (refine (fun hx : KeepsF Prod.fst s0 x => ?_) ?_ <;> [(clear_value x; replace hx := hx.fst); (subst x; refine KeepsF.ofFst ?_)]) | (have _f := fun a => x a; clear _f; subst x) | clear_value x) | with_reducible assumption | with_reducible apply keeps_allocPics | with_reducible apply keeps_devDrop | with_reducible apply keeps_mediaDebit | with_reducible refine Keeps.ite1 ?_ ?_ | with_reducible refine Keeps.ite ?_ ?_ | split | fail_if_no_progress (with_reducible apply Keeps.update) | intro _ _ | dsimp only)

theorem keeps_devEngineSelect {engine : Nat} {hdr : Option SeqHdr} {rap : Bool} {refs : List Bool} {meet : HodMeet} {s : State} (hk : Keeps s0 s) :
    Keeps s0 (devEngineSelect engine hdr rap refs meet s) := by
  unfold devEngineSelect
  repeat' (first | (extract_lets +onlyGivenNames x; first | (refine (fun hx : Keeps s0 x => ?_) ?_ <;> [clear_value x; subst x]) | (refine (fun hx : KeepsF Prod.fst s0 x => ?_) ?_ <;> [(clear_value x; replace hx := hx.fst); (subst x; refine KeepsF.ofFst ?_)]) | (have _f := fun a => x a; clear _f; subst x) | clear_value x) | with_reducible assumption | with_reducible apply keeps_wake | with_reducible apply keeps_popFrom | with_reducible apply keeps_devLose | with_reducible apply keeps_devDrop | with_reducible apply keeps_updDev | with_reducible apply keeps_bump | with_reducible apply keeps_freeFrom | with_reducible apply keeps_devWaitRap | with_reducible apply keeps_raise | with_reducible apply keeps_devStart | with_reducible refine Keeps.ite1 ?_ ?_ | with_reducible refine Keeps.ite ?_ ?_ | split | fail_if_no_progress (with_reducible apply Keeps.update) | intro _ _ | dsimp only)

theorem keeps_reportDamage {s : State} {e : Nat} {n : Nat} {seq : Nat} {d : Damage} (hk : Keeps s0 s) :
    Keeps s0 (reportDamage s e n seq d) := by
  unfold reportDamage
  repeat' (first | (extract_lets +onlyGivenNames x; first | (refine (fun hx : Keeps s0 x => ?_) ?_ <;> [clear_value x; subst x]) | (refine (fun hx : KeepsF Prod.fst s0 x => ?_) ?_ <;> [(clear_value x; replace hx := hx.fst); (subst x; refine KeepsF.ofFst ?_)]) | (have _f := fun a => x a; clear _f; subst x) | clear_value x) | with_reducible assumption | with_reducible apply keeps_bump | with_reducible apply keeps_setReg | with_reducible apply keeps_raiseRecord | with_reducible refine Keeps.foldl (fun _ _ _ => ?_) ?_ | with_reducible refine Keeps.foldl1 (fun _ _ _ => ?_) ?_ | dsimp only)

theorem keeps_writePlanes {s : State} {v : Via} {p : Pic} {y : List Byte} {c : List Byte} (hk : Keeps s0 s) :
    Keeps s0 (writePlanes s v p y c).1 := by
  unfold writePlanes
  repeat' (first | (extract_lets +onlyGivenNames x; first | (refine (fun hx : Keeps s0 x => ?_) ?_ <;> [clear_value x; subst x]) | (refine (fun hx : KeepsF Prod.fst s0 x => ?_) ?_ <;> [(clear_value x; replace hx := hx.fst); (subst x; refine KeepsF.ofFst ?_)]) | (have _f := fun a => x a; clear _f; subst x) | clear_value x) | with_reducible assumption | with_reducible apply keeps_mediaWrite | with_reducible refine Keeps.ite1 ?_ ?_ | with_reducible refine Keeps.ite ?_ ?_ | split | dsimp only)

theorem keeps_readRuns {z0 : List (Nat × Nat)} {z1 : State} {z2 : Via} {z3 : Nat} (hk : Keeps s0 z1) :
    Keeps s0 (readRuns z0 z1 z2 z3).1 := by
  induction z0 generalizing z1 z2 z3 with
  | nil =>
    unfold readRuns
    repeat' (first | (extract_lets +onlyGivenNames x; first | (refine (fun hx : Keeps s0 x => ?_) ?_ <;> [clear_value x; subst x]) | (refine (fun hx : KeepsF Prod.fst s0 x => ?_) ?_ <;> [(clear_value x; replace hx := hx.fst); (subst x; refine KeepsF.ofFst ?_)]) | (have _f := fun a => x a; clear _f; subst x) | clear_value x) | with_reducible assumption | with_reducible apply keeps_mediaRead | with_reducible refine Keeps.ite1 ?_ ?_ | with_reducible refine Keeps.ite ?_ ?_ | split | intro _ _ | dsimp only)
  | cons y ys ihk =>
    obtain ⟨_,_⟩ := y
    unfold readRuns
    repeat' (first | (extract_lets +onlyGivenNames x; first | (refine (fun hx : Keeps s0 x => ?_) ?_ <;> [clear_value x; subst x]) | (refine (fun hx : KeepsF Prod.fst s0 x => ?_) ?_ <;> [(clear_value x; replace hx := hx.fst); (subst x; refine KeepsF.ofFst ?_)]) | (have _f := fun a => x a; clear _f; subst x) | clear_value x) | with_reducible assumption | with_reducible apply ihk | with_reducible apply keeps_mediaRead | with_reducible refine Keeps.ite1 ?_ ?_ | with_reducible refine Keeps.ite ?_ ?_ | split | intro _ _ | dsimp only)

theorem keeps_readGood {s : State} {v : Via} {good : Option Pic} {ry : List (Nat × Nat)} {rc : List (Nat × Nat)} (hk : Keeps s0 s) :
    Keeps s0 (readGood s v good ry rc).1 := by
  unfold readGood
  repeat' (first | (extract_lets +onlyGivenNames x; first | (refine (fun hx : Keeps s0 x => ?_) ?_ <;> [clear_value x; subst x]) | (refine (fun hx : KeepsF Prod.fst s0 x => ?_) ?_ <;> [(clear_value x; replace hx := hx.fst); (subst x; refine KeepsF.ofFst ?_)]) | (have _f := fun a => x a; clear _f; subst x) | clear_value x) | with_reducible assumption | with_reducible apply keeps_readRuns | with_reducible refine Keeps.ite1 ?_ ?_ | with_reducible refine Keeps.ite ?_ ?_ | split | fail_if_no_progress (with_reducible apply Keeps.update) | dsimp only)

theorem keeps_concealRange {v : Via} {good : Option Pic} {d10 : Bool} {ry : List (Nat × Nat)} {rc : List (Nat × Nat)} {a : State × List Byte × List Byte × Bool} (ha : Keeps s0 a.1) :
    Keeps s0 (concealRange v good d10 ry rc a).1 := by
  unfold concealRange
  repeat' (first | (extract_lets +onlyGivenNames x; first | (refine (fun hx : Keeps s0 x => ?_) ?_ <;> [clear_value x; subst x]) | (refine (fun hx : KeepsF Prod.fst s0 x => ?_) ?_ <;> [(clear_value x; replace hx := hx.fst); (subst x; refine KeepsF.ofFst ?_)]) | (have _f := fun a => x a; clear _f; subst x) | clear_value x) | with_reducible assumption | with_reducible apply keeps_readGood | with_reducible refine Keeps.ite1 ?_ ?_ | with_reducible refine Keeps.ite ?_ ?_ | with_reducible refine Keeps.foldl (fun _ _ _ => ?_) ?_ | with_reducible refine Keeps.foldl1 (fun _ _ _ => ?_) ?_ | split | intro _ _ | dsimp only)

theorem keeps_readRefs {z0 : List (Nat × Nat × Nat)} {z1 : State} {z2 : Via} {z3 : List Pic} (hk : Keeps s0 z1) :
    Keeps s0 (readRefs z0 z1 z2 z3).1 := by
  induction z0 generalizing z1 z2 z3 with
  | nil =>
    unfold readRefs
    repeat' (first | (extract_lets +onlyGivenNames x; first | (refine (fun hx : Keeps s0 x => ?_) ?_ <;> [clear_value x; subst x]) | (refine (fun hx : KeepsF Prod.fst s0 x => ?_) ?_ <;> [(clear_value x; replace hx := hx.fst); (subst x; refine KeepsF.ofFst ?_)]) | (have _f := fun a => x a; clear _f; subst x) | clear_value x) | with_reducible assumption | with_reducible apply keeps_mediaRead | with_reducible refine Keeps.ite1 ?_ ?_ | with_reducible refine Keeps.ite ?_ ?_ | split | fail_if_no_progress (with_reducible apply Keeps.update) | dsimp only)
  | cons y ys ihk =>
    obtain ⟨_,_,_⟩ := y
    unfold readRefs
    repeat' (first | (extract_lets +onlyGivenNames x; first | (refine (fun hx : Keeps s0 x => ?_) ?_ <;> [clear_value x; subst x]) | (refine (fun hx : KeepsF Prod.fst s0 x => ?_) ?_ <;> [(clear_value x; replace hx := hx.fst); (subst x; refine KeepsF.ofFst ?_)]) | (have _f := fun a => x a; clear _f; subst x) | clear_value x) | with_reducible assumption | with_reducible apply ihk | with_reducible apply keeps_mediaRead | with_reducible refine Keeps.ite1 ?_ ?_ | with_reducible refine Keeps.ite ?_ ?_ | split | fail_if_no_progress (with_reducible apply Keeps.update) | dsimp only)

theorem keeps_unitDamage {s : State} {v : Via} {held : List Pic} {input : Got} {kind : Nat} {i : Nat} {u : DecUnit} (hk : Keeps s0 s) :
    Keeps s0 (unitDamage s v held input kind i u).1 := by
  unfold unitDamage
  repeat' (first | (extract_lets +onlyGivenNames x; first | (refine (fun hx : Keeps s0 x => ?_) ?_ <;> [clear_value x; subst x]) | (refine (fun hx : KeepsF Prod.fst s0 x => ?_) ?_ <;> [(clear_value x; replace hx := hx.fst); (subst x; refine KeepsF.ofFst ?_)]) | (have _f := fun a => x a; clear _f; subst x) | clear_value x) | with_reducible assumption | with_reducible apply keeps_readRefs | with_reducible refine Keeps.ite1 ?_ ?_ | with_reducible refine Keeps.ite ?_ ?_ | split | intro _ _ | dsimp only)

theorem keeps_damageOf {s : State} {v : Via} {held : List Pic} {input : Got} {d : DecPic} {blocks : Nat} (hk : Keeps s0 s) :
    Keeps s0 (damageOf s v held input d blocks).1 := by
  unfold damageOf
  repeat' (first | (extract_lets +onlyGivenNames x; first | (refine (fun hx : Keeps s0 x => ?_) ?_ <;> [clear_value x; subst x]) | (refine (fun hx : KeepsF Prod.fst s0 x => ?_) ?_ <;> [(clear_value x; replace hx := hx.fst); (subst x; refine KeepsF.ofFst ?_)]) | (have _f := fun a => x a; clear _f; subst x) | clear_value x) | with_reducible assumption | with_reducible apply keeps_unitDamage | with_reducible refine Keeps.ite1 ?_ ?_ | with_reducible refine Keeps.ite ?_ ?_ | with_reducible refine Keeps.foldl (fun _ _ _ => ?_) ?_ | with_reducible refine Keeps.foldl1 (fun _ _ _ => ?_) ?_ | split | intro _ _ | dsimp only)

theorem keeps_emitPics {s : State} {n : Nat} {count : Nat} {bs : List Byte} (hk : Keeps s0 s) :
    Keeps s0 (emitPics s n count bs) := by
  unfold emitPics
  repeat' (first | (extract_lets +onlyGivenNames x; first | (refine (fun hx : Keeps s0 x => ?_) ?_ <;> [clear_value x; subst x]) | (refine (fun hx : KeepsF Prod.fst s0 x => ?_) ?_ <;> [(clear_value x; replace hx := hx.fst); (subst x; refine KeepsF.ofFst ?_)]) | (have _f := fun a => x a; clear _f; subst x) | clear_value x) | with_reducible assumption | with_reducible apply keeps_updDev | with_reducible refine Keeps.ite1 ?_ ?_ | with_reducible refine Keeps.ite ?_ ?_ | with_reducible refine Keeps.foldl (fun _ _ _ => ?_) ?_ | with_reducible refine Keeps.foldl1 (fun _ _ _ => ?_) ?_ | split | intro _ _ | dsimp only)

theorem keeps_picLost {s : State} {e : Nat} {n : Nat} {p : Pic × Option Pic} {st : Nat} (hk : Keeps s0 s) :
    Keeps s0 (picLost s e n p st) := by
  unfold picLost
  repeat' (first | (extract_lets +onlyGivenNames x; first | (refine (fun hx : Keeps s0 x => ?_) ?_ <;> [clear_value x; subst x]) | (refine (fun hx : KeepsF Prod.fst s0 x => ?_) ?_ <;> [(clear_value x; replace hx := hx.fst); (subst x; refine KeepsF.ofFst ?_)]) | (have _f := fun a => x a; clear _f; subst x) | clear_value x) | with_reducible assumption | with_reducible apply keeps_freePic | with_reducible apply keeps_devLose | with_reducible refine Keeps.ite1 ?_ ?_ | with_reducible refine Keeps.ite ?_ ?_ | split | fail_if_no_progress (with_reducible apply Keeps.update) | dsimp only)

theorem keeps_decodePic {e : Nat} {w : DevWork} {v : Via} {input : Got} {s : State} {x : (Pic × Option Pic) × DecPic} (hk : Keeps s0 s) :
    Keeps s0 (decodePic e w v input s x) := by
  unfold decodePic
  repeat' (first | (extract_lets +onlyGivenNames x; first | (refine (fun hx : Keeps s0 x => ?_) ?_ <;> [clear_value x; subst x]) | (refine (fun hx : KeepsF Prod.fst s0 x => ?_) ?_ <;> [(clear_value x; replace hx := hx.fst); (subst x; refine KeepsF.ofFst ?_)]) | (have _f := fun a => x a; clear _f; subst x) | clear_value x) | with_reducible assumption | with_reducible apply keeps_damageOf | with_reducible apply keeps_concealRange | with_reducible apply keeps_reportDamage | with_reducible apply keeps_freePic | with_reducible apply keeps_updDev | with_reducible apply keeps_writePlanes | with_reducible apply keeps_picLost | with_reducible refine Keeps.ite1 ?_ ?_ | with_reducible refine Keeps.ite ?_ ?_ | with_reducible refine Keeps.foldl (fun _ _ _ => ?_) ?_ | with_reducible refine Keeps.foldl1 (fun _ _ _ => ?_) ?_ | split | fail_if_no_progress (with_reducible apply Keeps.update) | intro _ _ | dsimp only)

theorem keeps_showExisting {e : Nat} {n : Nat} {v : Via} {bs : List Byte} {s : State} {o : Nat} (hk : Keeps s0 s) :
    Keeps s0 (showExisting e n v bs s o) := by
  unfold showExisting
  repeat' (first | (extract_lets +onlyGivenNames x; first | (refine (fun hx : Keeps s0 x => ?_) ?_ <;> [clear_value x; subst x]) | (refine (fun hx : KeepsF Prod.fst s0 x => ?_) ?_ <;> [(clear_value x; replace hx := hx.fst); (subst x; refine KeepsF.ofFst ?_)]) | (have _f := fun a => x a; clear _f; subst x) | clear_value x) | with_reducible assumption | with_reducible apply keeps_updDev | with_reducible apply keeps_allocPlanes | with_reducible apply keeps_devLose | with_reducible apply keeps_mediaRead | with_reducible apply keeps_mediaWrite | with_reducible apply keeps_picLost | with_reducible refine Keeps.ite1 ?_ ?_ | with_reducible refine Keeps.ite ?_ ?_ | split | fail_if_no_progress (with_reducible apply Keeps.update) | intro _ _ | dsimp only)

theorem keeps_devDecodeDone {engine : Nat} {out : Decoding} {us : Nat} {stallNs : Nat} {s : State} (hk : Keeps s0 s) :
    Keeps s0 (devDecodeDone engine out us stallNs s) := by
  unfold devDecodeDone
  repeat' (first | (extract_lets +onlyGivenNames x; first | (refine (fun hx : Keeps s0 x => ?_) ?_ <;> [clear_value x; subst x]) | (refine (fun hx : KeepsF Prod.fst s0 x => ?_) ?_ <;> [(clear_value x; replace hx := hx.fst); (subst x; refine KeepsF.ofFst ?_)]) | (have _f := fun a => x a; clear _f; subst x) | clear_value x) | with_reducible assumption | with_reducible apply keeps_wake | with_reducible apply keeps_mediaRead | with_reducible apply keeps_bump | with_reducible apply keeps_freeFrom | with_reducible apply keeps_decodePic | with_reducible apply keeps_freePic | with_reducible apply keeps_updDev | with_reducible apply keeps_showExisting | with_reducible apply keeps_emitPics | with_reducible refine Keeps.ite1 ?_ ?_ | with_reducible refine Keeps.ite ?_ ?_ | with_reducible refine Keeps.foldl (fun _ _ _ => ?_) ?_ | with_reducible refine Keeps.foldl1 (fun _ _ _ => ?_) ?_ | split | fail_if_no_progress (with_reducible apply Keeps.update) | intro _ _ | dsimp only)

theorem keeps_devPictureOutput {slot : Nat} {s : State} (hk : Keeps s0 s) :
    Keeps s0 (devPictureOutput slot s) := by
  unfold devPictureOutput
  repeat' (first | (extract_lets +onlyGivenNames x; first | (refine (fun hx : Keeps s0 x => ?_) ?_ <;> [clear_value x; subst x]) | (refine (fun hx : KeepsF Prod.fst s0 x => ?_) ?_ <;> [(clear_value x; replace hx := hx.fst); (subst x; refine KeepsF.ofFst ?_)]) | (have _f := fun a => x a; clear _f; subst x) | clear_value x) | with_reducible assumption | with_reducible apply keeps_updDev | with_reducible apply keeps_wake | with_reducible apply keeps_pushFrom | with_reducible apply keeps_bump | with_reducible apply keeps_devLose | with_reducible apply keeps_freePic | with_reducible refine Keeps.ite1 ?_ ?_ | with_reducible refine Keeps.ite ?_ ?_ | split | fail_if_no_progress (with_reducible apply Keeps.update) | intro _ _ | dsimp only)

theorem keeps_devOutputFlush {slot : Nat} {s : State} (hk : Keeps s0 s) :
    Keeps s0 (devOutputFlush slot s) := by
  unfold devOutputFlush
  repeat' (first | (extract_lets +onlyGivenNames x; first | (refine (fun hx : Keeps s0 x => ?_) ?_ <;> [clear_value x; subst x]) | (refine (fun hx : KeepsF Prod.fst s0 x => ?_) ?_ <;> [(clear_value x; replace hx := hx.fst); (subst x; refine KeepsF.ofFst ?_)]) | (have _f := fun a => x a; clear _f; subst x) | clear_value x) | with_reducible assumption | with_reducible apply keeps_emitPics | with_reducible apply keeps_wake | with_reducible refine Keeps.ite1 ?_ ?_ | with_reducible refine Keeps.ite ?_ ?_ | split | dsimp only)

theorem keeps_devResync {s : State} {n : Nat} (hk : Keeps s0 s) :
    Keeps s0 (devResync s n) := by
  unfold devResync
  repeat' (first | with_reducible assumption | with_reducible apply keeps_updDev | fail_if_no_progress (with_reducible apply Keeps.update) | dsimp only)

theorem keeps_devResyncDone {slot : Nat} {s : State} (hk : Keeps s0 s) :
    Keeps s0 (devResyncDone slot s) := by
  unfold devResyncDone
  repeat' (first | (extract_lets +onlyGivenNames x; first | (refine (fun hx : Keeps s0 x => ?_) ?_ <;> [clear_value x; subst x]) | (refine (fun hx : KeepsF Prod.fst s0 x => ?_) ?_ <;> [(clear_value x; replace hx := hx.fst); (subst x; refine KeepsF.ofFst ?_)]) | (have _f := fun a => x a; clear _f; subst x) | clear_value x) | with_reducible assumption | with_reducible apply keeps_freePic | with_reducible apply keeps_wake | with_reducible apply keeps_updDev | with_reducible apply keeps_raise | with_reducible apply keeps_wb | with_reducible refine Keeps.ite1 ?_ ?_ | with_reducible refine Keeps.ite ?_ ?_ | with_reducible refine Keeps.foldl (fun _ _ _ => ?_) ?_ | with_reducible refine Keeps.foldl1 (fun _ _ _ => ?_) ?_ | split | fail_if_no_progress (with_reducible apply Keeps.update) | intro _ _ | dsimp only)

end Sys2Proof.Laws
end

