-- ==== Sys2Proof/Laws/KeepsEnlarger.lean ====
section
/-!
SUPPORT. Laws/KeepsEnlarger.lean: the operations of Machine/Enlarger.lean keep the queue, the clock and the form of the memory.
-/
namespace Sys2Proof.Laws
open Sys2Proof Sys2Proof.Machine

variable {s0 : State}
set_option linter.unreachableTactic false
set_option linter.unusedTactic false

theorem keeps_updBatch {s : State} {id : Nat} {f : Batch → Batch} (hk : Keeps s0 s) :
    Keeps s0 (updBatch s id f) := by
  unfold updBatch
  repeat' (first | with_reducible assumption | with_reducible refine Keeps.ite ?_ ?_ | fail_if_no_progress (with_reducible apply Keeps.update) | split | dsimp only)

theorem keeps_assignLanes {s : State} {b : Batch} (hk : Keeps s0 s) :
    Keeps s0 (assignLanes s b).1 := by
  unfold assignLanes
  repeat' (first | (extract_lets +onlyGivenNames x; first | (refine (fun hx : Keeps s0 x => ?_) ?_ <;> [clear_value x; subst x]) | (refine (fun hx : KeepsF Prod.fst s0 x => ?_) ?_ <;> [(clear_value x; replace hx := hx.fst); (subst x; refine KeepsF.ofFst ?_)]) | (have _f := fun a => x a; clear _f; subst x) | clear_value x) | with_reducible assumption | with_reducible apply keeps_updBatch | with_reducible refine Keeps.ite1 ?_ ?_ | with_reducible refine Keeps.ite ?_ ?_ | with_reducible refine Keeps.foldl (fun _ _ _ => ?_) ?_ | with_reducible refine Keeps.foldl1 (fun _ _ _ => ?_) ?_ | fail_if_no_progress (with_reducible apply Keeps.update) | split | dsimp only)

theorem keeps_laneRequest {s : State} {g : Nat} {ident : Nat} (hk : Keeps s0 s) :
    Keeps s0 (laneRequest s g ident).1 := by
  unfold laneRequest
  repeat' (first | (extract_lets +onlyGivenNames x; first | (refine (fun hx : Keeps s0 x => ?_) ?_ <;> [clear_value x; subst x]) | (refine (fun hx : KeepsF Prod.fst s0 x => ?_) ?_ <;> [(clear_value x; replace hx := hx.fst); (subst x; refine KeepsF.ofFst ?_)]) | (have _f := fun a => x a; clear _f; subst x) | clear_value x) | with_reducible assumption | with_reducible apply keeps_assignLanes | with_reducible apply keeps_bump | with_reducible apply keeps_raise | with_reducible apply keeps_hwFault | with_reducible apply keeps_allocFrom | with_reducible refine Keeps.ite1 ?_ ?_ | with_reducible refine Keeps.ite ?_ ?_ | split | fail_if_no_progress (with_reducible apply Keeps.update) | dsimp only [id] | dsimp only)

theorem keeps_lanesDone {s : State} {id : Nat} {ls : List Nat} {ok : Bool} {tag : Nat} {ts : Nat} {flags : Nat} (hk : Keeps s0 s) :
    Keeps s0 (lanesDone s id ls ok tag ts flags) := by
  unfold lanesDone
  repeat' (first | with_reducible assumption | with_reducible apply keeps_updBatch | with_reducible refine Keeps.foldl (fun _ _ _ => ?_) ?_ | with_reducible refine Keeps.foldl1 (fun _ _ _ => ?_) ?_ | fail_if_no_progress (with_reducible apply Keeps.update) | dsimp only)

theorem keeps_dropBatch {s : State} {id : Nat} (hk : Keeps s0 s) :
    Keeps s0 (dropBatch s id) := by
  unfold dropBatch
  repeat' (first | with_reducible assumption | fail_if_no_progress (with_reducible apply Keeps.update) | dsimp only)

theorem keeps_releaseFailed {s : State} {b : Batch} {st : Nat} (hk : Keeps s0 s) :
    Keeps s0 (releaseFailed s b st) := by
  unfold releaseFailed
  repeat' (first | (extract_lets +onlyGivenNames x; first | (refine (fun hx : Keeps s0 x => ?_) ?_ <;> [clear_value x; subst x]) | (refine (fun hx : KeepsF Prod.fst s0 x => ?_) ?_ <;> [(clear_value x; replace hx := hx.fst); (subst x; refine KeepsF.ofFst ?_)]) | (have _f := fun a => x a; clear _f; subst x) | clear_value x) | with_reducible assumption | with_reducible apply keeps_freeFrom | with_reducible apply keeps_dropBatch | with_reducible apply keeps_raise | with_reducible apply keeps_hwFault | with_reducible refine Keeps.ite1 ?_ ?_ | with_reducible refine Keeps.ite ?_ ?_ | split | dsimp only [id] | dsimp only)

theorem keeps_execFillTimer {group : Nat} {s : State} (hk : Keeps s0 s) :
    KeepsO s0 (execFillTimer group s) := by
  unfold execFillTimer
  repeat' (first | (extract_lets +onlyGivenNames x; first | (refine (fun hx : Keeps s0 x => ?_) ?_ <;> [clear_value x; subst x]) | (refine (fun hx : KeepsF Prod.fst s0 x => ?_) ?_ <;> [(clear_value x; replace hx := hx.fst); (subst x; refine KeepsF.ofFst ?_)]) | (have _f := fun a => x a; clear _f; subst x) | clear_value x) | with_reducible assumption | with_reducible apply keeps_updBatch | with_reducible apply keeps_wake | with_reducible refine KeepsO.next ?_ | with_reducible refine KeepsO.ite ?_ ?_ | with_reducible refine Keeps.ite1 ?_ ?_ | with_reducible refine Keeps.ite ?_ ?_ | split | fail_if_no_progress (with_reducible apply Keeps.update) | intro _ _ | dsimp only [id] | dsimp only)

theorem keeps_padLane {s : State} {b : Batch} {src : Option Nat} {l : Nat} (hk : Keeps s0 s) :
    Keeps s0 (padLane s b src l).1 := by
  unfold padLane
  repeat' (first | (extract_lets +onlyGivenNames x; first | (refine (fun hx : Keeps s0 x => ?_) ?_ <;> [clear_value x; subst x]) | (refine (fun hx : KeepsF Prod.fst s0 x => ?_) ?_ <;> [(clear_value x; replace hx := hx.fst); (subst x; refine KeepsF.ofFst ?_)]) | (have _f := fun a => x a; clear _f; subst x) | clear_value x) | with_reducible assumption | with_reducible apply keeps_mediaWrite | with_reducible apply keeps_mediaRead | with_reducible refine Keeps.ite1 ?_ ?_ | with_reducible refine Keeps.ite ?_ ?_ | split | fail_if_no_progress (with_reducible apply Keeps.update) | dsimp only)

theorem keeps_eslBatchRelease {group : Nat} {s : State} (hk : Keeps s0 s) :
    Keeps s0 (eslBatchRelease group s) := by
  unfold eslBatchRelease
  repeat' (first | (extract_lets +onlyGivenNames x; first | (refine (fun hx : Keeps s0 x => ?_) ?_ <;> [clear_value x; subst x]) | (refine (fun hx : KeepsF Prod.fst s0 x => ?_) ?_ <;> [(clear_value x; replace hx := hx.fst); (subst x; refine KeepsF.ofFst ?_)]) | (have _f := fun a => x a; clear _f; subst x) | clear_value x) | with_reducible assumption | with_reducible apply keeps_wake | with_reducible apply keeps_bump | with_reducible apply keeps_freeFrom | with_reducible apply keeps_dropBatch | with_reducible apply keeps_releaseFailed | with_reducible apply keeps_padLane | with_reducible apply keeps_mediaWrite | with_reducible apply keeps_setReg | with_reducible apply keeps_updBatch | with_reducible refine Keeps.ite1 ?_ ?_ | with_reducible refine Keeps.ite ?_ ?_ | with_reducible refine Keeps.foldl (fun _ _ _ => ?_) ?_ | with_reducible refine Keeps.foldl1 (fun _ _ _ => ?_) ?_ | split | fail_if_no_progress (with_reducible apply Keeps.update) | intro _ _ | dsimp only [id] | dsimp only)

theorem keeps_eslBatchTrigger {group : Nat} {cycles : Nat} {s : State} (hk : Keeps s0 s) :
    Keeps s0 (eslBatchTrigger group cycles s) := by
  unfold eslBatchTrigger
  repeat' (first | (extract_lets +onlyGivenNames x; first | (refine (fun hx : Keeps s0 x => ?_) ?_ <;> [clear_value x; subst x]) | (refine (fun hx : KeepsF Prod.fst s0 x => ?_) ?_ <;> [(clear_value x; replace hx := hx.fst); (subst x; refine KeepsF.ofFst ?_)]) | (have _f := fun a => x a; clear _f; subst x) | clear_value x) | with_reducible assumption | with_reducible apply keeps_triggerFrom | with_reducible apply keeps_wake | with_reducible apply keeps_releaseFailed | with_reducible apply keeps_bump | with_reducible apply keeps_dropBatch | with_reducible refine Keeps.ite1 ?_ ?_ | with_reducible refine Keeps.ite ?_ ?_ | split | fail_if_no_progress (with_reducible apply Keeps.update) | intro _ _ | dsimp only [id] | dsimp only)

theorem keeps_setEng {s : State} {e : Nat} {f : Option EnlFrame} (hk : Keeps s0 s) :
    Keeps s0 (setEng s e f) := by
  unfold setEng
  repeat' (first | with_reducible assumption | fail_if_no_progress (with_reducible apply Keeps.update) | dsimp only)

theorem keeps_freeInput {s : State} {n : Nat} {rec_ : List Byte} (hk : Keeps s0 s) :
    Keeps s0 (freeInput s n rec_) := by
  unfold freeInput
  repeat' (first | (extract_lets +onlyGivenNames x; first | (refine (fun hx : Keeps s0 x => ?_) ?_ <;> [clear_value x; subst x]) | (refine (fun hx : KeepsF Prod.fst s0 x => ?_) ?_ <;> [(clear_value x; replace hx := hx.fst); (subst x; refine KeepsF.ofFst ?_)]) | (have _f := fun a => x a; clear _f; subst x) | clear_value x) | with_reducible assumption | with_reducible apply keeps_freeFrom | with_reducible refine Keeps.ite1 ?_ ?_ | with_reducible refine Keeps.ite ?_ ?_ | split | dsimp only)

theorem keeps_enlDrop {s : State} {e : Nat} {n : Nat} {rec_ : List Byte} {cause : Nat} {info : Nat} (hk : Keeps s0 s) :
    Keeps s0 (enlDrop s e n rec_ cause info) := by
  unfold enlDrop
  repeat' (first | (extract_lets +onlyGivenNames x; first | (refine (fun hx : Keeps s0 x => ?_) ?_ <;> [clear_value x; subst x]) | (refine (fun hx : KeepsF Prod.fst s0 x => ?_) ?_ <;> [(clear_value x; replace hx := hx.fst); (subst x; refine KeepsF.ofFst ?_)]) | (have _f := fun a => x a; clear _f; subst x) | clear_value x) | with_reducible assumption | with_reducible apply keeps_bump | with_reducible apply keeps_freeInput | with_reducible apply keeps_raise | with_reducible apply keeps_hwFault | dsimp only)

theorem keeps_enlLose {s : State} {e : Nat} {n : Nat} {q : Nat} (hk : Keeps s0 s) :
    Keeps s0 (enlLose s e n q) := by
  unfold enlLose
  repeat' (first | (extract_lets +onlyGivenNames x; first | (refine (fun hx : Keeps s0 x => ?_) ?_ <;> [clear_value x; subst x]) | (refine (fun hx : KeepsF Prod.fst s0 x => ?_) ?_ <;> [(clear_value x; replace hx := hx.fst); (subst x; refine KeepsF.ofFst ?_)]) | (have _f := fun a => x a; clear _f; subst x) | clear_value x) | with_reducible assumption | with_reducible apply keeps_raise | with_reducible apply keeps_hwFault | with_reducible apply keeps_bump | with_reducible refine Keeps.ite1 ?_ ?_ | with_reducible refine Keeps.ite ?_ ?_ | split | dsimp only)

theorem keeps_frameEnd {s : State} {e : Nat} (hk : Keeps s0 s) :
    Keeps s0 (frameEnd s e) := by
  unfold frameEnd
  repeat' (first | with_reducible assumption | with_reducible apply keeps_setEng | with_reducible apply keeps_bump | with_reducible apply keeps_freeInput | with_reducible refine Keeps.ite ?_ ?_ | split | dsimp only)

theorem keeps_latchList {s : State} {e : Nat} {n : Nat} {rec_ : List Byte} {list : List Byte} (hk : Keeps s0 s) :
    Keeps s0 (latchList s e n rec_ list).1 := by
  unfold latchList
  repeat' (first | (extract_lets +onlyGivenNames x; first | (refine (fun hx : Keeps s0 x => ?_) ?_ <;> [clear_value x; subst x]) | (refine (fun hx : KeepsF Prod.fst s0 x => ?_) ?_ <;> [(clear_value x; replace hx := hx.fst); (subst x; refine KeepsF.ofFst ?_)]) | (have _f := fun a => x a; clear _f; subst x) | clear_value x) | with_reducible assumption | with_reducible apply keeps_bump | with_reducible apply keeps_raise | with_reducible apply keeps_hwFault | with_reducible refine Keeps.ite1 ?_ ?_ | with_reducible refine Keeps.ite ?_ ?_ | with_reducible refine Keeps.foldl (fun _ _ _ => ?_) ?_ | with_reducible refine Keeps.foldl1 (fun _ _ _ => ?_) ?_ | split | dsimp only)

theorem keeps_readList {s : State} {n sel : Nat} (hk : Keeps s0 s) : Keeps s0 (readList s n sel).1 := by
  have key (h l : State × Got) (a : Keeps s0 h.1) (b : Keeps s0 l.1) :
      Keeps s0 (if field h.2.data 0 1 = 0 then (h.1, h.2, ({ st := MS.ok, data := [] } : Got)) else (l.1, h.2, l.2)).1 := by
    split <;> assumption
  exact key _ _ (keeps_mediaRead hk) (keeps_mediaRead (keeps_mediaRead hk))

theorem keeps_startFrame {s : State} {engine : Nat} {n : Nat} {c : Nat} {b : List Byte} (hk : Keeps s0 s) :
    Keeps s0 (startFrame s engine n c b) := by
  unfold startFrame
  repeat' (first | (extract_lets +onlyGivenNames x; first | (refine (fun hx : Keeps s0 x => ?_) ?_ <;> [clear_value x; subst x]) | (refine (fun hx : KeepsF Prod.fst s0 x => ?_) ?_ <;> [(clear_value x; replace hx := hx.fst); (subst x; refine KeepsF.ofFst ?_)]) | (have _f := fun a => x a; clear _f; subst x) | clear_value x) | with_reducible assumption | with_reducible apply keeps_readList | with_reducible apply keeps_enlDrop | with_reducible apply keeps_latchList | with_reducible apply keeps_mediaDebit | with_reducible apply keeps_frameEnd | with_reducible apply keeps_setEng | with_reducible refine Keeps.ite1 ?_ ?_ | with_reducible refine Keeps.ite ?_ ?_ | split | dsimp only)

theorem keeps_enlEngineSelect {engine : Nat} {meet : HodMeet} {s : State} (hk : Keeps s0 s) :
    Keeps s0 (enlEngineSelect engine meet s) := by
  unfold enlEngineSelect
  repeat' (first | (extract_lets +onlyGivenNames x; first | (refine (fun hx : Keeps s0 x => ?_) ?_ <;> [clear_value x; subst x]) | (refine (fun hx : KeepsF Prod.fst s0 x => ?_) ?_ <;> [(clear_value x; replace hx := hx.fst); (subst x; refine KeepsF.ofFst ?_)]) | (have _f := fun a => x a; clear _f; subst x) | clear_value x) | with_reducible assumption | with_reducible apply keeps_wake | with_reducible apply keeps_setEng | with_reducible apply keeps_popFrom | with_reducible apply keeps_enlLose | with_reducible apply keeps_enlDrop | with_reducible apply keeps_startFrame | with_reducible refine Keeps.ite1 ?_ ?_ | with_reducible refine Keeps.ite ?_ ?_ | split | fail_if_no_progress (with_reducible apply Keeps.update) | dsimp only)

theorem keeps_execEslLaneRequest {engine : Nat} {s : State} (hk : Keeps s0 s) :
    KeepsO s0 (execEslLaneRequest engine s) := by
  unfold execEslLaneRequest
  repeat' (first | (extract_lets +onlyGivenNames x; first | (refine (fun hx : Keeps s0 x => ?_) ?_ <;> [clear_value x; subst x]) | (refine (fun hx : KeepsF Prod.fst s0 x => ?_) ?_ <;> [(clear_value x; replace hx := hx.fst); (subst x; refine KeepsF.ofFst ?_)]) | (have _f := fun a => x a; clear _f; subst x) | clear_value x) | with_reducible assumption | with_reducible apply keeps_laneRequest | with_reducible apply keeps_wake | with_reducible apply keeps_setEng | with_reducible apply keeps_bump | with_reducible apply keeps_hwFault | with_reducible apply keeps_frameEnd | with_reducible apply keeps_raise | with_reducible refine KeepsO.next ?_ | with_reducible refine KeepsO.ite ?_ ?_ | with_reducible refine Keeps.ite1 ?_ ?_ | with_reducible refine Keeps.ite ?_ ?_ | split | fail_if_no_progress (with_reducible apply Keeps.update) | dsimp only)

theorem keeps_abandon {s : State} {e : Nat} {f : EnlFrame} {r : EnlRoi} {cause : Nat} {st : Nat} (hk : Keeps s0 s) :
    Keeps s0 (abandon s e f r cause st) := by
  unfold abandon
  repeat' (first | (extract_lets +onlyGivenNames x; first | (refine (fun hx : Keeps s0 x => ?_) ?_ <;> [clear_value x; subst x]) | (refine (fun hx : KeepsF Prod.fst s0 x => ?_) ?_ <;> [(clear_value x; replace hx := hx.fst); (subst x; refine KeepsF.ofFst ?_)]) | (have _f := fun a => x a; clear _f; subst x) | clear_value x) | with_reducible assumption | with_reducible apply keeps_lanesDone | with_reducible apply keeps_raise | with_reducible apply keeps_hwFault | with_reducible apply keeps_frameEnd | with_reducible apply keeps_setEng | fail_if_no_progress (with_reducible apply Keeps.update) | dsimp only)

theorem keeps_writeLine {s : State} {v : Via} {r : Roi} {base : Nat} {j : Nat} {planes : List (List Byte)} (hk : Keeps s0 s) :
    Keeps s0 (writeLine s v r base j planes).1 := by
  unfold writeLine
  repeat' (first | (extract_lets +onlyGivenNames x; first | (refine (fun hx : Keeps s0 x => ?_) ?_ <;> [clear_value x; subst x]) | (refine (fun hx : KeepsF Prod.fst s0 x => ?_) ?_ <;> [(clear_value x; replace hx := hx.fst); (subst x; refine KeepsF.ofFst ?_)]) | (have _f := fun a => x a; clear _f; subst x) | clear_value x) | with_reducible assumption | with_reducible apply keeps_mediaWrite | with_reducible refine Keeps.ite1 ?_ ?_ | with_reducible refine Keeps.ite ?_ ?_ | with_reducible refine Keeps.foldl (fun _ _ _ => ?_) ?_ | with_reducible refine Keeps.foldl1 (fun _ _ _ => ?_) ?_ | split | intro _ _ | dsimp only)

theorem keeps_enlTileEnd {engine : Nat} {us : Nat} {stallNs : Nat} {s : State} (hk : Keeps s0 s) :
    Keeps s0 (enlTileEnd engine us stallNs s) := by
  unfold enlTileEnd
  repeat' (first | (extract_lets +onlyGivenNames x; first | (refine (fun hx : Keeps s0 x => ?_) ?_ <;> [clear_value x; subst x]) | (refine (fun hx : KeepsF Prod.fst s0 x => ?_) ?_ <;> [(clear_value x; replace hx := hx.fst); (subst x; refine KeepsF.ofFst ?_)]) | (have _f := fun a => x a; clear _f; subst x) | clear_value x) | with_reducible assumption | with_reducible apply keeps_wake | with_reducible apply keeps_mediaRead | with_reducible apply keeps_bump | with_reducible apply keeps_abandon | with_reducible apply keeps_buffered | with_reducible apply keeps_writeLine | with_reducible apply keeps_setEng | with_reducible refine Keeps.ite1 ?_ ?_ | with_reducible refine Keeps.ite ?_ ?_ | with_reducible refine Keeps.foldl (fun _ _ _ => ?_) ?_ | with_reducible refine Keeps.foldl1 (fun _ _ _ => ?_) ?_ | split | fail_if_no_progress (with_reducible apply Keeps.update) | intro _ _ | dsimp only [id] | dsimp only)

theorem keeps_enlSampleComplete {engine : Nat} {s : State} (hk : Keeps s0 s) :
    Keeps s0 (enlSampleComplete engine s) := by
  unfold enlSampleComplete
  repeat' (first | (extract_lets +onlyGivenNames x; first | (refine (fun hx : Keeps s0 x => ?_) ?_ <;> [clear_value x; subst x]) | (refine (fun hx : KeepsF Prod.fst s0 x => ?_) ?_ <;> [(clear_value x; replace hx := hx.fst); (subst x; refine KeepsF.ofFst ?_)]) | (have _f := fun a => x a; clear _f; subst x) | clear_value x) | with_reducible assumption | with_reducible apply keeps_wake | with_reducible apply keeps_mediaWrite | with_reducible apply keeps_abandon | with_reducible apply keeps_poisonRange | with_reducible apply keeps_lanesDone | with_reducible apply keeps_frameEnd | with_reducible apply keeps_setEng | with_reducible refine Keeps.ite1 ?_ ?_ | with_reducible refine Keeps.ite ?_ ?_ | with_reducible refine Keeps.foldl (fun _ _ _ => ?_) ?_ | with_reducible refine Keeps.foldl1 (fun _ _ _ => ?_) ?_ | split | fail_if_no_progress (with_reducible apply Keeps.update) | intro _ _ | dsimp only [id] | dsimp only)

theorem keeps_historyWrite {s : State} {k : Nat} {bs : List Byte} (hk : Keeps s0 s) :
    Keeps s0 (historyWrite s k bs).1 := by
  unfold historyWrite
  repeat' (first | (extract_lets +onlyGivenNames x; first | (refine (fun hx : Keeps s0 x => ?_) ?_ <;> [clear_value x; subst x]) | (refine (fun hx : KeepsF Prod.fst s0 x => ?_) ?_ <;> [(clear_value x; replace hx := hx.fst); (subst x; refine KeepsF.ofFst ?_)]) | (have _f := fun a => x a; clear _f; subst x) | clear_value x) | with_reducible assumption | with_reducible apply keeps_patientRange | with_reducible refine Keeps.ite1 ?_ ?_ | with_reducible refine Keeps.ite ?_ ?_ | split | dsimp only)

theorem keeps_historyPass {s : State} {ts : Nat} {failed : Bool} (hk : Keeps s0 s) :
    Keeps s0 (historyPass s ts failed) := by
  unfold historyPass
  repeat' (first | (extract_lets +onlyGivenNames x; first | (refine (fun hx : Keeps s0 x => ?_) ?_ <;> [clear_value x; subst x]) | (refine (fun hx : KeepsF Prod.fst s0 x => ?_) ?_ <;> [(clear_value x; replace hx := hx.fst); (subst x; refine KeepsF.ofFst ?_)]) | (have _f := fun a => x a; clear _f; subst x) | clear_value x) | with_reducible assumption | with_reducible apply keeps_setReg | with_reducible refine Keeps.ite ?_ ?_ | fail_if_no_progress (with_reducible apply Keeps.update) | split | dsimp only)

theorem keeps_historyRestart {s : State} (hk : Keeps s0 s) :
    Keeps s0 (historyRestart s) := by
  unfold historyRestart
  repeat' (first | with_reducible assumption | fail_if_no_progress (with_reducible apply Keeps.update) | dsimp only)

theorem keeps_readBlocks {s : State} {v : Via} {ks : List Nat} {at_ : Nat → Nat} {size : Nat} (hk : Keeps s0 s) :
    Keeps s0 (readBlocks s v ks at_ size).1 := by
  unfold readBlocks
  repeat' (first | (extract_lets +onlyGivenNames x; first | (refine (fun hx : Keeps s0 x => ?_) ?_ <;> [clear_value x; subst x]) | (refine (fun hx : KeepsF Prod.fst s0 x => ?_) ?_ <;> [(clear_value x; replace hx := hx.fst); (subst x; refine KeepsF.ofFst ?_)]) | (have _f := fun a => x a; clear _f; subst x) | clear_value x) | with_reducible assumption | with_reducible apply keeps_mediaRead | with_reducible refine Keeps.ite1 ?_ ?_ | with_reducible refine Keeps.ite ?_ ?_ | with_reducible refine Keeps.foldl (fun _ _ _ => ?_) ?_ | with_reducible refine Keeps.foldl1 (fun _ _ _ => ?_) ?_ | split | intro _ _ | dsimp only)

theorem keeps_writeLanes {s : State} {v : Via} {b : Batch} {ls : List Nat} {data : List Byte} {bad : List (Nat × Nat)} (hk : Keeps s0 s) :
    Keeps s0 (writeLanes s v b ls data bad).1 := by
  unfold writeLanes
  repeat' (first | (extract_lets +onlyGivenNames x; first | (refine (fun hx : Keeps s0 x => ?_) ?_ <;> [clear_value x; subst x]) | (refine (fun hx : KeepsF Prod.fst s0 x => ?_) ?_ <;> [(clear_value x; replace hx := hx.fst); (subst x; refine KeepsF.ofFst ?_)]) | (have _f := fun a => x a; clear _f; subst x) | clear_value x) | with_reducible assumption | with_reducible apply keeps_mediaWrite | with_reducible refine Keeps.ite1 ?_ ?_ | with_reducible refine Keeps.ite ?_ ?_ | with_reducible refine Keeps.foldl (fun _ _ _ => ?_) ?_ | with_reducible refine Keeps.foldl1 (fun _ _ _ => ?_) ?_ | split | intro _ _ | dsimp only)

theorem keeps_fillWindow {s : State} {g : Nat} {n : Nat} {id : Nat} {ls : List Nat} (hk : Keeps s0 s) :
    Keeps s0 (fillWindow s g n id ls) := by
  unfold fillWindow
  repeat' (first | (extract_lets +onlyGivenNames x; first | (refine (fun hx : Keeps s0 x => ?_) ?_ <;> [clear_value x; subst x]) | (refine (fun hx : KeepsF Prod.fst s0 x => ?_) ?_ <;> [(clear_value x; replace hx := hx.fst); (subst x; refine KeepsF.ofFst ?_)]) | (have _f := fun a => x a; clear _f; subst x) | clear_value x) | with_reducible assumption | with_reducible apply keeps_readBlocks | with_reducible apply keeps_lanesDone | with_reducible apply keeps_writeLanes | with_reducible refine Keeps.ite1 ?_ ?_ | with_reducible refine Keeps.ite ?_ ?_ | split | fail_if_no_progress (with_reducible apply Keeps.update) | intro _ _ | dsimp only)

theorem keeps_eslAudioWindow {s : State} (hk : Keeps s0 s) :
    Keeps s0 (eslAudioWindow s) := by
  unfold eslAudioWindow
  repeat' (first | (extract_lets +onlyGivenNames x; first | (refine (fun hx : Keeps s0 x => ?_) ?_ <;> [clear_value x; subst x]) | (refine (fun hx : KeepsF Prod.fst s0 x => ?_) ?_ <;> [(clear_value x; replace hx := hx.fst); (subst x; refine KeepsF.ofFst ?_)]) | (have _f := fun a => x a; clear _f; subst x) | clear_value x) | with_reducible assumption | with_reducible apply keeps_laneRequest | with_reducible apply keeps_wake | with_reducible apply keeps_raise | with_reducible apply keeps_hwFault | with_reducible apply keeps_lanesDone | with_reducible apply keeps_fillWindow | with_reducible refine Keeps.ite1 ?_ ?_ | with_reducible refine Keeps.ite ?_ ?_ | split | fail_if_no_progress (with_reducible apply Keeps.update) | intro _ _ | dsimp only [id] | dsimp only)

end Sys2Proof.Laws
end

