-- ==== Sys2Proof/Laws/KeepsAudio.lean ====
section
/-!
SUPPORT. Laws/KeepsAudio.lean: the operations of Machine/Audio.lean keep the queue, the clock and the form of the memory.
-/
namespace Sys2Proof.Laws
open Sys2Proof Sys2Proof.Machine

variable {s0 : State}
set_option linter.unreachableTactic false
set_option linter.unusedTactic false

theorem keeps_updAud {s : State} {f : Audio → Audio} (hk : Keeps s0 s) :
    Keeps s0 (updAud s f) := by
  unfold updAud
  repeat' (first | with_reducible assumption | fail_if_no_progress (with_reducible apply Keeps.update) | dsimp only)

theorem keeps_micBlock {times : List (List Int)} {ts : Nat} {s : State} (hk : Keeps s0 s) :
    Keeps s0 (micBlock times ts s) := by
  unfold micBlock
  repeat' (first | (extract_lets +onlyGivenNames x; first | (refine (fun hx : Keeps s0 x => ?_) ?_ <;> [clear_value x; subst x]) | (refine (fun hx : KeepsF Prod.fst s0 x => ?_) ?_ <;> [(clear_value x; replace hx := hx.fst); (subst x; refine KeepsF.ofFst ?_)]) | (have _f := fun a => x a; clear _f; subst x) | clear_value x) | with_reducible assumption | with_reducible apply keeps_bump | with_reducible apply keeps_wake | with_reducible apply keeps_historyWrite | with_reducible apply keeps_hwFault | with_reducible apply keeps_updAud | with_reducible refine Keeps.ite1 ?_ ?_ | with_reducible refine Keeps.ite ?_ ?_ | split | fail_if_no_progress (with_reducible apply Keeps.update) | intro _ _ | dsimp only)

theorem keeps_execMicBlockHandoff {s : State} (hk : Keeps s0 s) :
    KeepsO s0 (execMicBlockHandoff s) := by
  unfold execMicBlockHandoff
  repeat' (first | (extract_lets +onlyGivenNames x; first | (refine (fun hx : Keeps s0 x => ?_) ?_ <;> [clear_value x; subst x]) | (refine (fun hx : KeepsF Prod.fst s0 x => ?_) ?_ <;> [(clear_value x; replace hx := hx.fst); (subst x; refine KeepsF.ofFst ?_)]) | (have _f := fun a => x a; clear _f; subst x) | clear_value x) | with_reducible assumption | with_reducible apply keeps_updAud | with_reducible apply keeps_setReg | with_reducible apply keeps_historyPass | with_reducible refine KeepsO.next ?_ | with_reducible refine KeepsO.ite ?_ ?_ | with_reducible refine Keeps.ite1 ?_ ?_ | with_reducible refine Keeps.ite ?_ ?_ | split | fail_if_no_progress (with_reducible apply Keeps.update) | intro _ _ | dsimp only)

theorem keeps_execMicStuck {mic : Nat} {s : State} (hk : Keeps s0 s) :
    KeepsO s0 (execMicStuck mic s) := by
  unfold execMicStuck
  repeat' (first | (extract_lets +onlyGivenNames x; first | (refine (fun hx : Keeps s0 x => ?_) ?_ <;> [clear_value x; subst x]) | (refine (fun hx : KeepsF Prod.fst s0 x => ?_) ?_ <;> [(clear_value x; replace hx := hx.fst); (subst x; refine KeepsF.ofFst ?_)]) | (have _f := fun a => x a; clear _f; subst x) | clear_value x) | with_reducible assumption | with_reducible apply keeps_wb | with_reducible apply keeps_raise | with_reducible apply keeps_hwFault | with_reducible refine KeepsO.next ?_ | with_reducible refine KeepsO.ite ?_ ?_ | with_reducible refine Keeps.ite ?_ ?_ | with_reducible refine Keeps.ite1 ?_ ?_ | split | dsimp only)

theorem keeps_execMicStuckClear {mic : Nat} {s : State} (hk : Keeps s0 s) :
    KeepsO s0 (execMicStuckClear mic s) := by
  unfold execMicStuckClear
  repeat' (first | with_reducible assumption | with_reducible apply keeps_wb | with_reducible refine KeepsO.next ?_ | with_reducible refine KeepsO.ite ?_ ?_ | with_reducible refine Keeps.ite ?_ ?_ | with_reducible refine Keeps.ite1 ?_ ?_ | split | dsimp only)

theorem keeps_putPpm {s : State} {ppm : Int} (hk : Keeps s0 s) :
    Keeps s0 (putPpm s ppm) := by
  unfold putPpm
  repeat' (first | with_reducible assumption | with_reducible apply keeps_wf | dsimp only)

theorem keeps_execTdmInLost {ppm : Int} {s : State} (hk : Keeps s0 s) :
    KeepsO s0 (execTdmInLost ppm s) := by
  unfold execTdmInLost
  repeat' (first | (extract_lets +onlyGivenNames x; first | (refine (fun hx : Keeps s0 x => ?_) ?_ <;> [clear_value x; subst x]) | (refine (fun hx : KeepsF Prod.fst s0 x => ?_) ?_ <;> [(clear_value x; replace hx := hx.fst); (subst x; refine KeepsF.ofFst ?_)]) | (have _f := fun a => x a; clear _f; subst x) | clear_value x) | with_reducible assumption | with_reducible apply keeps_putPpm | with_reducible apply keeps_wb | with_reducible apply keeps_raise | with_reducible apply keeps_hwFault | with_reducible refine KeepsO.next ?_ | with_reducible refine KeepsO.ite ?_ ?_ | with_reducible refine Keeps.ite ?_ ?_ | with_reducible refine Keeps.ite1 ?_ ?_ | split | dsimp only)

theorem keeps_execTdmInRelock {ppm : Int} {s : State} (hk : Keeps s0 s) :
    KeepsO s0 (execTdmInRelock ppm s) := by
  unfold execTdmInRelock
  repeat' (first | (extract_lets +onlyGivenNames x; first | (refine (fun hx : Keeps s0 x => ?_) ?_ <;> [clear_value x; subst x]) | (refine (fun hx : KeepsF Prod.fst s0 x => ?_) ?_ <;> [(clear_value x; replace hx := hx.fst); (subst x; refine KeepsF.ofFst ?_)]) | (have _f := fun a => x a; clear _f; subst x) | clear_value x) | with_reducible assumption | with_reducible apply keeps_putPpm | with_reducible apply keeps_updAud | with_reducible apply keeps_wb | with_reducible refine KeepsO.next ?_ | with_reducible refine KeepsO.ite ?_ ?_ | with_reducible refine Keeps.ite ?_ ?_ | with_reducible refine Keeps.ite1 ?_ ?_ | fail_if_no_progress (with_reducible apply Keeps.update) | split | dsimp only)

theorem keeps_audSettle {s : State} (hk : Keeps s0 s) :
    Keeps s0 (audSettle s) := by
  unfold audSettle
  repeat' (first | (extract_lets +onlyGivenNames x; first | (refine (fun hx : Keeps s0 x => ?_) ?_ <;> [clear_value x; subst x]) | (refine (fun hx : KeepsF Prod.fst s0 x => ?_) ?_ <;> [(clear_value x; replace hx := hx.fst); (subst x; refine KeepsF.ofFst ?_)]) | (have _f := fun a => x a; clear _f; subst x) | clear_value x) | with_reducible assumption | with_reducible apply keeps_updAud | with_reducible apply keeps_raise | with_reducible apply keeps_signalFyp | with_reducible refine Keeps.ite ?_ ?_ | fail_if_no_progress (with_reducible apply Keeps.update) | split | dsimp only)

theorem keeps_alertEntryPop {meet : HodMeet} {s : State} (hk : Keeps s0 s) :
    Keeps s0 (alertEntryPop meet s) := by
  unfold alertEntryPop
  repeat' (first | (extract_lets +onlyGivenNames x; first | (refine (fun hx : Keeps s0 x => ?_) ?_ <;> [clear_value x; subst x]) | (refine (fun hx : KeepsF Prod.fst s0 x => ?_) ?_ <;> [(clear_value x; replace hx := hx.fst); (subst x; refine KeepsF.ofFst ?_)]) | (have _f := fun a => x a; clear _f; subst x) | clear_value x) | with_reducible assumption | with_reducible apply keeps_popFrom | with_reducible apply keeps_wake | with_reducible apply keeps_updAud | with_reducible refine Keeps.ite1 ?_ ?_ | with_reducible refine Keeps.ite ?_ ?_ | split | fail_if_no_progress (with_reducible apply Keeps.update) | intro _ _ | dsimp only)

theorem keeps_endAlert {s : State} (hk : Keeps s0 s) :
    Keeps s0 (endAlert s) := by
  unfold endAlert
  repeat' (first | (extract_lets +onlyGivenNames x; first | (refine (fun hx : Keeps s0 x => ?_) ?_ <;> [clear_value x; subst x]) | (refine (fun hx : KeepsF Prod.fst s0 x => ?_) ?_ <;> [(clear_value x; replace hx := hx.fst); (subst x; refine KeepsF.ofFst ?_)]) | (have _f := fun a => x a; clear _f; subst x) | clear_value x) | with_reducible assumption | with_reducible apply keeps_signalFyp | with_reducible apply keeps_updAud | with_reducible refine Keeps.ite ?_ ?_ | split | fail_if_no_progress (with_reducible apply Keeps.update) | dsimp only)

theorem keeps_startAlert {s : State} {level : Nat} {tone : Nat} {haptic : Nat} {tag : Nat} {can : Bool} {hold : Bool} (hk : Keeps s0 s) :
    Keeps s0 (startAlert s level tone haptic tag can hold) := by
  unfold startAlert
  repeat' (first | (extract_lets +onlyGivenNames x; first | (refine (fun hx : Keeps s0 x => ?_) ?_ <;> [clear_value x; subst x]) | (refine (fun hx : KeepsF Prod.fst s0 x => ?_) ?_ <;> [(clear_value x; replace hx := hx.fst); (subst x; refine KeepsF.ofFst ?_)]) | (have _f := fun a => x a; clear _f; subst x) | clear_value x) | with_reducible assumption | with_reducible apply keeps_hwFault | with_reducible apply keeps_updAud | with_reducible apply keeps_bump | with_reducible apply keeps_toRecorder | with_reducible apply keeps_raiseP | with_reducible apply keeps_signalFyp | with_reducible refine Keeps.ite ?_ ?_ | fail_if_no_progress (with_reducible apply Keeps.update) | split | dsimp only)

theorem keeps_applyEntry {s : State} {e : List Byte × Bool} (hk : Keeps s0 s) :
    Keeps s0 (applyEntry s e) := by
  unfold applyEntry
  repeat' (first | (extract_lets +onlyGivenNames x; first | (refine (fun hx : Keeps s0 x => ?_) ?_ <;> [clear_value x; subst x]) | (refine (fun hx : KeepsF Prod.fst s0 x => ?_) ?_ <;> [(clear_value x; replace hx := hx.fst); (subst x; refine KeepsF.ofFst ?_)]) | (have _f := fun a => x a; clear _f; subst x) | clear_value x) | with_reducible assumption | with_reducible apply keeps_hwFault | with_reducible apply keeps_endAlert | with_reducible apply keeps_bump | with_reducible apply keeps_startAlert | with_reducible refine Keeps.ite ?_ ?_ | split | dsimp only)

theorem keeps_execAlertHoldExpire {s : State} (hk : Keeps s0 s) :
    KeepsO s0 (execAlertHoldExpire s) := by
  unfold execAlertHoldExpire
  repeat' (first | with_reducible assumption | with_reducible apply keeps_endAlert | with_reducible refine KeepsO.next ?_ | with_reducible refine KeepsO.ite ?_ ?_ | with_reducible refine Keeps.ite ?_ ?_ | with_reducible refine Keeps.ite1 ?_ ?_ | split | dsimp only)

theorem keeps_sourceGain {s : State} {i : Nat} {k : Duck} (hk : Keeps s0 s) :
    Keeps s0 (sourceGain s i k).1 := by
  unfold sourceGain
  repeat' (first | (extract_lets +onlyGivenNames x; first | (refine (fun hx : Keeps s0 x => ?_) ?_ <;> [clear_value x; subst x]) | (refine (fun hx : KeepsF Prod.fst s0 x => ?_) ?_ <;> [(clear_value x; replace hx := hx.fst); (subst x; refine KeepsF.ofFst ?_)]) | (have _f := fun a => x a; clear _f; subst x) | clear_value x) | with_reducible assumption | with_reducible apply keeps_fresh | with_reducible refine Keeps.ite1 ?_ ?_ | with_reducible refine Keeps.ite ?_ ?_ | split | dsimp only)

theorem keeps_execTdmOutFrame {src : List Int} {s : State} (hk : Keeps s0 s) :
    KeepsO s0 (execTdmOutFrame src s) := by
  unfold execTdmOutFrame
  repeat' (first | (extract_lets +onlyGivenNames x; first | (refine (fun hx : Keeps s0 x => ?_) ?_ <;> [clear_value x; subst x]) | (refine (fun hx : KeepsF Prod.fst s0 x => ?_) ?_ <;> [(clear_value x; replace hx := hx.fst); (subst x; refine KeepsF.ofFst ?_)]) | (have _f := fun a => x a; clear _f; subst x) | clear_value x) | with_reducible assumption | with_reducible apply keeps_updAud | with_reducible apply keeps_wake | with_reducible apply keeps_applyEntry | with_reducible apply keeps_sourceGain | with_reducible apply keeps_bump | with_reducible refine KeepsO.next ?_ | with_reducible refine KeepsO.ite ?_ ?_ | with_reducible refine Keeps.ite1 ?_ ?_ | with_reducible refine Keeps.ite ?_ ?_ | with_reducible refine Keeps.foldl (fun _ _ _ => ?_) ?_ | with_reducible refine Keeps.foldl1 (fun _ _ _ => ?_) ?_ | split | fail_if_no_progress (with_reducible apply Keeps.update) | intro _ _ | dsimp only)

theorem keeps_ampReport {s : State} {c : Nat} {k : Amp} (hk : Keeps s0 s) :
    Keeps s0 (ampReport s c k) := by
  unfold ampReport
  repeat' (first | with_reducible assumption | with_reducible apply keeps_updAud | fail_if_no_progress (with_reducible apply Keeps.update) | dsimp only)

theorem keeps_execAmpLatch {chan : Nat} {cls : Nat} {s : State} (hk : Keeps s0 s) :
    KeepsO s0 (execAmpLatch chan cls s) := by
  unfold execAmpLatch
  repeat' (first | with_reducible assumption | with_reducible apply keeps_ampReport | with_reducible refine KeepsO.next ?_ | with_reducible refine KeepsO.ite ?_ ?_ | with_reducible refine Keeps.ite ?_ ?_ | with_reducible refine Keeps.ite1 ?_ ?_ | split | dsimp only)

theorem keeps_execAmpIdlePulse {chan : Nat} {cls : Nat} {s : State} (hk : Keeps s0 s) :
    KeepsO s0 (execAmpIdlePulse chan cls s) := by
  unfold execAmpIdlePulse
  repeat' (first | with_reducible assumption | with_reducible apply keeps_ampReport | with_reducible refine KeepsO.next ?_ | with_reducible refine KeepsO.ite ?_ ?_ | with_reducible refine Keeps.ite ?_ ?_ | with_reducible refine Keeps.ite1 ?_ ?_ | split | dsimp only)

theorem keeps_execAmpRetry {chan : Nat} {good : Bool} {cls : Nat} {s : State} (hk : Keeps s0 s) :
    KeepsO s0 (execAmpRetry chan good cls s) := by
  unfold execAmpRetry
  repeat' (first | (extract_lets +onlyGivenNames x; first | (refine (fun hx : Keeps s0 x => ?_) ?_ <;> [clear_value x; subst x]) | (refine (fun hx : KeepsF Prod.fst s0 x => ?_) ?_ <;> [(clear_value x; replace hx := hx.fst); (subst x; refine KeepsF.ofFst ?_)]) | (have _f := fun a => x a; clear _f; subst x) | clear_value x) | with_reducible assumption | with_reducible apply keeps_ampReport | with_reducible refine KeepsO.next ?_ | with_reducible refine KeepsO.ite ?_ ?_ | with_reducible refine Keeps.ite1 ?_ ?_ | with_reducible refine Keeps.ite ?_ ?_ | split | fail_if_no_progress (with_reducible apply Keeps.update) | dsimp only)

theorem keeps_ampClear {s : State} {c : Nat} (hk : Keeps s0 s) :
    Keeps s0 (ampClear s c) := by
  unfold ampClear
  repeat' (first | (extract_lets +onlyGivenNames x; first | (refine (fun hx : Keeps s0 x => ?_) ?_ <;> [clear_value x; subst x]) | (refine (fun hx : KeepsF Prod.fst s0 x => ?_) ?_ <;> [(clear_value x; replace hx := hx.fst); (subst x; refine KeepsF.ofFst ?_)]) | (have _f := fun a => x a; clear _f; subst x) | clear_value x) | with_reducible assumption | with_reducible apply keeps_ampReport | with_reducible refine Keeps.ite ?_ ?_ | fail_if_no_progress (with_reducible apply Keeps.update) | split | dsimp only)

theorem keeps_ampDiag {s : State} {c : Nat} {data : Nat} (hk : Keeps s0 s) :
    Keeps s0 (ampDiag s c data) := by
  unfold ampDiag
  repeat' (first | (extract_lets +onlyGivenNames x; first | (refine (fun hx : Keeps s0 x => ?_) ?_ <;> [clear_value x; subst x]) | (refine (fun hx : KeepsF Prod.fst s0 x => ?_) ?_ <;> [(clear_value x; replace hx := hx.fst); (subst x; refine KeepsF.ofFst ?_)]) | (have _f := fun a => x a; clear _f; subst x) | clear_value x) | with_reducible assumption | with_reducible apply keeps_setReg | with_reducible apply keeps_updAud | with_reducible apply keeps_raise | with_reducible apply keeps_fault | with_reducible apply keeps_audSettle | with_reducible refine Keeps.ite ?_ ?_ | split | fail_if_no_progress (with_reducible apply Keeps.update) | dsimp only)

theorem keeps_execAmpDiagWrite {chan : Nat} {data : W32} {s : State} (hk : Keeps s0 s) :
    KeepsO s0 (execAmpDiagWrite chan data s) := by
  unfold execAmpDiagWrite
  repeat' (first | (extract_lets +onlyGivenNames x; first | (refine (fun hx : Keeps s0 x => ?_) ?_ <;> [clear_value x; subst x]) | (refine (fun hx : KeepsF Prod.fst s0 x => ?_) ?_ <;> [(clear_value x; replace hx := hx.fst); (subst x; refine KeepsF.ofFst ?_)]) | (have _f := fun a => x a; clear _f; subst x) | clear_value x) | with_reducible assumption | with_reducible apply keeps_ampDiag | with_reducible apply keeps_wake | with_reducible refine KeepsO.next ?_ | with_reducible refine KeepsO.ite ?_ ?_ | with_reducible refine Keeps.ite1 ?_ ?_ | with_reducible refine Keeps.ite ?_ ?_ | split | fail_if_no_progress (with_reducible apply Keeps.update) | dsimp only)

end Sys2Proof.Laws
end

