-- ==== Sys2Proof/Laws/KeepsKeystone.lean ====
section
/-!
SUPPORT. Laws/KeepsKeystone.lean: the operations of Machine/Keystone.lean keep the queue, the clock and the form of the memory.
-/
namespace Sys2Proof.Laws
open Sys2Proof Sys2Proof.Machine

variable {s0 : State}
set_option linter.unreachableTactic false
set_option linter.unusedTactic false

theorem keeps_updKey {s : State} {f : Keystone → Keystone} (hk : Keeps s0 s) :
    Keeps s0 (updKey s f) := by
  unfold updKey
  repeat' (first | with_reducible assumption | fail_if_no_progress (with_reducible apply Keeps.update) | dsimp only)

theorem keeps_updCtx {s : State} {c : Nat} {f : KeyCtx → KeyCtx} (hk : Keeps s0 s) :
    Keeps s0 (updCtx s c f) := by
  unfold updCtx
  repeat' (first | with_reducible assumption | with_reducible apply keeps_updKey | fail_if_no_progress (with_reducible apply Keeps.update) | dsimp only)

theorem keeps_answerSvc {s : State} {n : Nat} {urgent : Bool} {cause : Nat} {id : Nat} {word : Nat} (hk : Keeps s0 s) :
    Keeps s0 (answerSvc s n urgent cause id word) := by
  unfold answerSvc
  repeat' (first | with_reducible assumption | with_reducible apply keeps_updCore | with_reducible refine Keeps.ite ?_ ?_ | fail_if_no_progress (with_reducible apply Keeps.update) | split | dsimp only)

theorem keeps_keyComplete {s : State} {c : KeyCmd} {st : Nat} (hk : Keeps s0 s) :
    Keeps s0 (keyComplete s c st) := by
  unfold keyComplete
  repeat' (first | (extract_lets +onlyGivenNames x; first | (refine (fun hx : Keeps s0 x => ?_) ?_ <;> [clear_value x; subst x]) | (refine (fun hx : KeepsF Prod.fst s0 x => ?_) ?_ <;> [(clear_value x; replace hx := hx.fst); (subst x; refine KeepsF.ofFst ?_)]) | (have _f := fun a => x a; clear _f; subst x) | clear_value x) | with_reducible assumption | with_reducible apply keeps_updKey | with_reducible apply keeps_bump | with_reducible apply keeps_setReg | with_reducible apply keeps_answerSvc | with_reducible apply keeps_raise | with_reducible refine Keeps.ite ?_ ?_ | split | fail_if_no_progress (with_reducible apply Keeps.update) | dsimp only)

theorem keeps_keyFail {s : State} {c : KeyCmd} {st : Nat} {cause : Nat} {info : Nat} {addr : Option Nat} (hk : Keeps s0 s) :
    Keeps s0 (keyFail s c st cause info addr) := by
  unfold keyFail
  repeat' (first | with_reducible assumption | with_reducible apply keeps_keyComplete | with_reducible apply keeps_fault | dsimp only)

theorem keeps_keySubmit {s : State} {c : KeyCmd} (hk : Keeps s0 s) :
    Keeps s0 (keySubmit s c).1 := by
  unfold keySubmit
  repeat' (first | (extract_lets +onlyGivenNames x; first | (refine (fun hx : Keeps s0 x => ?_) ?_ <;> [clear_value x; subst x]) | (refine (fun hx : KeepsF Prod.fst s0 x => ?_) ?_ <;> [(clear_value x; replace hx := hx.fst); (subst x; refine KeepsF.ofFst ?_)]) | (have _f := fun a => x a; clear _f; subst x) | clear_value x) | with_reducible assumption | with_reducible apply keeps_updKey | with_reducible apply keeps_keyComplete | with_reducible refine Keeps.ite1 ?_ ?_ | with_reducible refine Keeps.ite ?_ ?_ | fail_if_no_progress (with_reducible apply Keeps.update) | split | dsimp only)

theorem keeps_keyPfSubmit {s : State} {x : Nat} (hk : Keeps s0 s) :
    Keeps s0 (keyPfSubmit s x) := by
  unfold keyPfSubmit
  repeat' (first | (extract_lets +onlyGivenNames x; first | (refine (fun hx : Keeps s0 x => ?_) ?_ <;> [clear_value x; subst x]) | (refine (fun hx : KeepsF Prod.fst s0 x => ?_) ?_ <;> [(clear_value x; replace hx := hx.fst); (subst x; refine KeepsF.ofFst ?_)]) | (have _f := fun a => x a; clear _f; subst x) | clear_value x) | with_reducible assumption | with_reducible apply keeps_readRange | with_reducible apply keeps_after | with_reducible apply keeps_keySubmit | with_reducible apply keeps_block | with_reducible refine Keeps.ite1 ?_ ?_ | with_reducible refine Keeps.ite ?_ ?_ | split | fail_if_no_progress (with_reducible apply Keeps.update) | dsimp only)

theorem keeps_keyRun {s : State} {c : KeyCmd} (hk : Keeps s0 s) :
    Keeps s0 (keyRun s c) := by
  unfold keyRun
  repeat' (first | with_reducible assumption | with_reducible apply keeps_updKey | with_reducible refine Keeps.ite ?_ ?_ | fail_if_no_progress (with_reducible apply Keeps.update) | split | dsimp only)

theorem keeps_keyCur {s : State} {c : KeyCmd} (hk : Keeps s0 s) :
    Keeps s0 (keyCur s c) := by
  unfold keyCur
  repeat' (first | with_reducible assumption | with_reducible apply keeps_updKey | fail_if_no_progress (with_reducible apply Keeps.update) | dsimp only)

theorem keeps_keyPark {s : State} {c : KeyCmd} (hk : Keeps s0 s) :
    Keeps s0 (keyPark s c) := by
  unfold keyPark
  repeat' (first | with_reducible assumption | with_reducible apply keeps_updKey | fail_if_no_progress (with_reducible apply Keeps.update) | dsimp only)

theorem keeps_keySwitch {s : State} (hk : Keeps s0 s) :
    Keeps s0 (keySwitch s) := by
  unfold keySwitch
  repeat' (first | (extract_lets +onlyGivenNames x; first | (refine (fun hx : Keeps s0 x => ?_) ?_ <;> [clear_value x; subst x]) | (refine (fun hx : KeepsF Prod.fst s0 x => ?_) ?_ <;> [(clear_value x; replace hx := hx.fst); (subst x; refine KeepsF.ofFst ?_)]) | (have _f := fun a => x a; clear _f; subst x) | clear_value x) | with_reducible assumption | with_reducible apply keeps_keyComplete | with_reducible apply keeps_updCtx | with_reducible apply keeps_keyPark | with_reducible apply keeps_keyRun | with_reducible refine Keeps.ite ?_ ?_ | split | fail_if_no_progress (with_reducible apply Keeps.update) | dsimp only)

theorem keeps_keyFetch {s : State} {c : KeyCmd} {a : Nat} {n : Nat} (hk : Keeps s0 s) :
    Keeps s0 (keyFetch s c a n).1 := by
  unfold keyFetch
  repeat' (first | (extract_lets +onlyGivenNames x; first | (refine (fun hx : Keeps s0 x => ?_) ?_ <;> [clear_value x; subst x]) | (refine (fun hx : KeepsF Prod.fst s0 x => ?_) ?_ <;> [(clear_value x; replace hx := hx.fst); (subst x; refine KeepsF.ofFst ?_)]) | (have _f := fun a => x a; clear _f; subst x) | clear_value x) | with_reducible assumption | with_reducible apply keeps_readRange | with_reducible refine Keeps.ite1 ?_ ?_ | with_reducible refine Keeps.ite ?_ ?_ | split | fail_if_no_progress (with_reducible apply Keeps.update) | dsimp only)

theorem keeps_keySectionsRead {s : State} {c : KeyCmd} {base : Nat} {z0 : List (Nat × Nat)} {z1 : List (List Byte)} (hk : Keeps s0 s) :
    Keeps s0 (keySectionsRead s c base z0 z1).1 := by
  induction z0 generalizing s z1 with
  | nil =>
    unfold keySectionsRead
    repeat' (first | (extract_lets +onlyGivenNames x; first | (refine (fun hx : Keeps s0 x => ?_) ?_ <;> [clear_value x; subst x]) | (refine (fun hx : KeepsF Prod.fst s0 x => ?_) ?_ <;> [(clear_value x; replace hx := hx.fst); (subst x; refine KeepsF.ofFst ?_)]) | (have _f := fun a => x a; clear _f; subst x) | clear_value x) | with_reducible assumption | with_reducible apply keeps_keyFetch | with_reducible refine Keeps.ite1 ?_ ?_ | with_reducible refine Keeps.ite ?_ ?_ | split | dsimp only)
  | cons y ys ihk =>
    obtain ⟨_,_⟩ := y
    unfold keySectionsRead
    repeat' (first | (extract_lets +onlyGivenNames x; first | (refine (fun hx : Keeps s0 x => ?_) ?_ <;> [clear_value x; subst x]) | (refine (fun hx : KeepsF Prod.fst s0 x => ?_) ?_ <;> [(clear_value x; replace hx := hx.fst); (subst x; refine KeepsF.ofFst ?_)]) | (have _f := fun a => x a; clear _f; subst x) | clear_value x) | with_reducible assumption | with_reducible apply ihk | with_reducible apply keeps_keyFetch | with_reducible refine Keeps.ite1 ?_ ?_ | with_reducible refine Keeps.ite ?_ ?_ | split | dsimp only)

theorem keeps_keyResult {s : State} {c : KeyCmd} {k : KeyCtx} {st : Nat} {stage : Nat} {vecs : Option (List Nat × List Nat)} (hk : Keeps s0 s) :
    Keeps s0 (keyResult s c k st stage vecs).1 := by
  unfold keyResult
  repeat' (first | (extract_lets +onlyGivenNames x; first | (refine (fun hx : Keeps s0 x => ?_) ?_ <;> [clear_value x; subst x]) | (refine (fun hx : KeepsF Prod.fst s0 x => ?_) ?_ <;> [(clear_value x; replace hx := hx.fst); (subst x; refine KeepsF.ofFst ?_)]) | (have _f := fun a => x a; clear _f; subst x) | clear_value x) | with_reducible assumption | with_reducible apply keeps_fresh | with_reducible apply keeps_writePieces | with_reducible refine Keeps.ite1 ?_ ?_ | with_reducible refine Keeps.ite ?_ ?_ | split | fail_if_no_progress (with_reducible apply Keeps.update) | dsimp only)

theorem keeps_keyFinish {s : State} {c : KeyCmd} {st : Nat} {stage : Nat} {uj : Nat} {vecs : Option (List Nat × List Nat)} (hk : Keeps s0 s) :
    Keeps s0 (keyFinish s c st stage uj vecs) := by
  unfold keyFinish
  repeat' (first | (extract_lets +onlyGivenNames x; first | (refine (fun hx : Keeps s0 x => ?_) ?_ <;> [clear_value x; subst x]) | (refine (fun hx : KeepsF Prod.fst s0 x => ?_) ?_ <;> [(clear_value x; replace hx := hx.fst); (subst x; refine KeepsF.ofFst ?_)]) | (have _f := fun a => x a; clear _f; subst x) | clear_value x) | with_reducible assumption | with_reducible apply keeps_keyResult | with_reducible apply keeps_solveDebit | with_reducible apply keeps_keyFail | with_reducible apply keeps_keyComplete | with_reducible refine Keeps.ite ?_ ?_ | split | dsimp only)

theorem keeps_keyStart {s : State} {c : KeyCmd} (hk : Keeps s0 s) :
    Keeps s0 (keyStart s c) := by
  unfold keyStart
  repeat' (first | (extract_lets +onlyGivenNames x; first | (refine (fun hx : Keeps s0 x => ?_) ?_ <;> [clear_value x; subst x]) | (refine (fun hx : KeepsF Prod.fst s0 x => ?_) ?_ <;> [(clear_value x; replace hx := hx.fst); (subst x; refine KeepsF.ofFst ?_)]) | (have _f := fun a => x a; clear _f; subst x) | clear_value x) | with_reducible assumption | with_reducible apply keeps_updCtx | with_reducible apply keeps_keyFail | with_reducible apply keeps_keyFetch | with_reducible apply keeps_keyComplete | with_reducible apply keeps_keySectionsRead | with_reducible apply keeps_keyFinish | with_reducible apply keeps_keyCur | with_reducible refine Keeps.ite1 ?_ ?_ | with_reducible refine Keeps.ite ?_ ?_ | split | fail_if_no_progress (with_reducible apply Keeps.update) | intro _ _ | dsimp only)

theorem keeps_keyPlumb {s : State} {c : KeyCmd} (hk : Keeps s0 s) :
    Keeps s0 (keyPlumb s c) := by
  unfold keyPlumb
  repeat' (first | (extract_lets +onlyGivenNames x; first | (refine (fun hx : Keeps s0 x => ?_) ?_ <;> [clear_value x; subst x]) | (refine (fun hx : KeepsF Prod.fst s0 x => ?_) ?_ <;> [(clear_value x; replace hx := hx.fst); (subst x; refine KeepsF.ofFst ?_)]) | (have _f := fun a => x a; clear _f; subst x) | clear_value x) | with_reducible assumption | with_reducible apply keeps_keyRun | with_reducible apply keeps_updCtx | with_reducible refine Keeps.ite1 ?_ ?_ | with_reducible refine Keeps.ite ?_ ?_ | split | fail_if_no_progress (with_reducible apply Keeps.update) | intro _ _ | dsimp only)

theorem keeps_keySolve {s : State} (hk : Keeps s0 s) :
    Keeps s0 (keySolve s) := by
  unfold keySolve
  repeat' (first | (extract_lets +onlyGivenNames x; first | (refine (fun hx : Keeps s0 x => ?_) ?_ <;> [clear_value x; subst x]) | (refine (fun hx : KeepsF Prod.fst s0 x => ?_) ?_ <;> [(clear_value x; replace hx := hx.fst); (subst x; refine KeepsF.ofFst ?_)]) | (have _f := fun a => x a; clear _f; subst x) | clear_value x) | with_reducible assumption | with_reducible apply keeps_keyPlumb | with_reducible apply keeps_wake | with_reducible apply keeps_keyStart | with_reducible apply keeps_keyRun | with_reducible refine Keeps.ite1 ?_ ?_ | with_reducible refine Keeps.ite ?_ ?_ | split | fail_if_no_progress (with_reducible apply Keeps.update) | dsimp only)

theorem keeps_execKeyRelease {s : State} (hk : Keeps s0 s) :
    KeepsO s0 (execKeyRelease s) := by
  unfold execKeyRelease
  repeat' (first | (extract_lets +onlyGivenNames x; first | (refine (fun hx : Keeps s0 x => ?_) ?_ <;> [clear_value x; subst x]) | (refine (fun hx : KeepsF Prod.fst s0 x => ?_) ?_ <;> [(clear_value x; replace hx := hx.fst); (subst x; refine KeepsF.ofFst ?_)]) | (have _f := fun a => x a; clear _f; subst x) | clear_value x) | with_reducible assumption | with_reducible apply keeps_keyRun | with_reducible apply keeps_wake | with_reducible apply keeps_keyFail | with_reducible apply keeps_fresh | with_reducible apply keeps_keyComplete | with_reducible apply keeps_updCtx | with_reducible refine KeepsO.next ?_ | with_reducible refine KeepsO.ite ?_ ?_ | with_reducible refine Keeps.ite1 ?_ ?_ | with_reducible refine Keeps.ite ?_ ?_ | split | fail_if_no_progress (with_reducible apply Keeps.update) | intro _ _ | dsimp only)

theorem keeps_keyTime {s : State} {us : Nat} {stallNs : Nat} (hk : Keeps s0 s) :
    Keeps s0 (keyTime s us stallNs) := by
  unfold keyTime
  repeat' (first | with_reducible assumption | with_reducible apply keeps_bump | dsimp only)

theorem keeps_keySetup {us : Nat} {stallNs : Nat} {uj : Nat} {s : State} (hk : Keeps s0 s) :
    Keeps s0 (keySetup us stallNs uj s) := by
  unfold keySetup
  repeat' (first | (extract_lets +onlyGivenNames x; first | (refine (fun hx : Keeps s0 x => ?_) ?_ <;> [clear_value x; subst x]) | (refine (fun hx : KeepsF Prod.fst s0 x => ?_) ?_ <;> [(clear_value x; replace hx := hx.fst); (subst x; refine KeepsF.ofFst ?_)]) | (have _f := fun a => x a; clear _f; subst x) | clear_value x) | with_reducible assumption | with_reducible apply keeps_keyTime | with_reducible apply keeps_wake | with_reducible apply keeps_keySwitch | with_reducible apply keeps_keyCur | with_reducible apply keeps_updCtx | with_reducible apply keeps_keyFinish | with_reducible refine Keeps.ite1 ?_ ?_ | with_reducible refine Keeps.ite ?_ ?_ | split | fail_if_no_progress (with_reducible apply Keeps.update) | intro _ _ | dsimp only)

theorem keeps_keyIterate {s : State} {c : KeyCmd} {uj : Nat} (hk : Keeps s0 s) :
    Keeps s0 (keyIterate s c uj) := by
  unfold keyIterate
  repeat' (first | (extract_lets +onlyGivenNames x; first | (refine (fun hx : Keeps s0 x => ?_) ?_ <;> [clear_value x; subst x]) | (refine (fun hx : KeepsF Prod.fst s0 x => ?_) ?_ <;> [(clear_value x; replace hx := hx.fst); (subst x; refine KeepsF.ofFst ?_)]) | (have _f := fun a => x a; clear _f; subst x) | clear_value x) | with_reducible assumption | with_reducible apply keeps_bump | with_reducible apply keeps_updCtx | with_reducible apply keeps_keyCur | with_reducible apply keeps_keyFinish | with_reducible apply keeps_fresh | with_reducible refine Keeps.ite ?_ ?_ | split | fail_if_no_progress (with_reducible apply Keeps.update) | dsimp only)

theorem keeps_keySegmentEnd {us : Nat} {stallNs : Nat} {uj : Nat} {s : State} (hk : Keeps s0 s) :
    Keeps s0 (keySegmentEnd us stallNs uj s) := by
  unfold keySegmentEnd
  repeat' (first | (extract_lets +onlyGivenNames x; first | (refine (fun hx : Keeps s0 x => ?_) ?_ <;> [clear_value x; subst x]) | (refine (fun hx : KeepsF Prod.fst s0 x => ?_) ?_ <;> [(clear_value x; replace hx := hx.fst); (subst x; refine KeepsF.ofFst ?_)]) | (have _f := fun a => x a; clear _f; subst x) | clear_value x) | with_reducible assumption | with_reducible apply keeps_keySwitch | with_reducible apply keeps_keyTime | with_reducible apply keeps_wake | with_reducible apply keeps_keyCur | with_reducible apply keeps_bump | with_reducible apply keeps_keyIterate | with_reducible refine Keeps.ite1 ?_ ?_ | with_reducible refine Keeps.ite ?_ ?_ | split | fail_if_no_progress (with_reducible apply Keeps.update) | dsimp only)

theorem keeps_fromHeld {id : Nat} {s : State} (hk : Keeps s0 s) :
    Keeps s0 (fromHeld id s) := by
  unfold fromHeld
  repeat' (first | with_reducible assumption | with_reducible apply keeps_keyComplete | with_reducible apply keeps_updCtx | with_reducible refine Keeps.ite ?_ ?_ | split | fail_if_no_progress (with_reducible apply Keeps.update) | dsimp only)

theorem keeps_keyAbort {s : State} {id : Nat} (hk : Keeps s0 s) :
    Keeps s0 (keyAbort s id) := by
  unfold keyAbort
  repeat' (first | with_reducible assumption | with_reducible apply keeps_keyCur | with_reducible apply keeps_fromHeld | with_reducible refine Keeps.ite ?_ ?_ | split | fail_if_no_progress (with_reducible apply Keeps.update) | dsimp only)

theorem keeps_keyStoreUe {s : State} (hk : Keeps s0 s) :
    Keeps s0 (keyStoreUe s) := by
  unfold keyStoreUe
  repeat' (first | with_reducible assumption | with_reducible apply keeps_raise | with_reducible apply keeps_keyFail | with_reducible apply keeps_updCtx | split | dsimp only)

end Sys2Proof.Laws
end

