-- ==== Sys2Proof/Laws/KeepsLevels.lean ====
section
/-!
SUPPORT. Laws/KeepsLevels.lean: the operations of Machine/Levels.lean keep the queue, the clock and the form of the memory.
-/
namespace Sys2Proof.Laws
open Sys2Proof Sys2Proof.Machine

variable {s0 : State}
set_option linter.unreachableTactic false
set_option linter.unusedTactic false

theorem keeps_settlePage {s : State} {pg : Nat} (hk : Keeps s0 s) :
    Keeps s0 (settlePage s pg) := by
  unfold settlePage
  repeat' (first | (extract_lets +onlyGivenNames x; first | (refine (fun hx : Keeps s0 x => ?_) ?_ <;> [clear_value x; subst x]) | (refine (fun hx : KeepsF Prod.fst s0 x => ?_) ?_ <;> [(clear_value x; replace hx := hx.fst); (subst x; refine KeepsF.ofFst ?_)]) | (have _f := fun a => x a; clear _f; subst x) | clear_value x) | with_reducible assumption | with_reducible apply keeps_raise | with_reducible refine Keeps.ite ?_ ?_ | fail_if_no_progress (with_reducible apply Keeps.update) | split | dsimp only)

theorem keeps_safeLevels {s : State} (hk : Keeps s0 s) :
    Keeps s0 (safeLevels s) := by
  unfold safeLevels
  repeat' (first | (extract_lets +onlyGivenNames x; first | (refine (fun hx : Keeps s0 x => ?_) ?_ <;> [clear_value x; subst x]) | (refine (fun hx : KeepsF Prod.fst s0 x => ?_) ?_ <;> [(clear_value x; replace hx := hx.fst); (subst x; refine KeepsF.ofFst ?_)]) | (have _f := fun a => x a; clear _f; subst x) | clear_value x) | with_reducible assumption | with_reducible apply keeps_safeSet | with_reducible refine Keeps.ite ?_ ?_ | split | dsimp only)

theorem keeps_settle {s : State} (hk : Keeps s0 s) :
    Keeps s0 (settle s) := by
  unfold settle
  repeat' (first | with_reducible assumption | with_reducible apply keeps_safeLevels | with_reducible apply keeps_audSettle | with_reducible apply keeps_settleParts | with_reducible apply keeps_settlePage | with_reducible refine Keeps.foldl (fun _ _ _ => ?_) ?_ | with_reducible refine Keeps.foldl1 (fun _ _ _ => ?_) ?_ | dsimp only)

theorem keeps_coreTick {s : State} {n : Nat} (hk : Keeps s0 s) :
    Keeps s0 (coreTick s n) := by
  unfold coreTick
  repeat' (first | (extract_lets +onlyGivenNames x; first | (refine (fun hx : Keeps s0 x => ?_) ?_ <;> [clear_value x; subst x]) | (refine (fun hx : KeepsF Prod.fst s0 x => ?_) ?_ <;> [(clear_value x; replace hx := hx.fst); (subst x; refine KeepsF.ofFst ?_)]) | (have _f := fun a => x a; clear _f; subst x) | clear_value x) | with_reducible assumption | with_reducible apply keeps_updCore | with_reducible apply keeps_bump | with_reducible refine Keeps.ite1 ?_ ?_ | with_reducible refine Keeps.ite ?_ ?_ | split | fail_if_no_progress (with_reducible apply Keeps.update) | intro _ _ | dsimp only)

end Sys2Proof.Laws
end

