-- ==== Sys2Proof/Laws/KeepsSafelight.lean ====
section
/-!
SUPPORT. Laws/KeepsSafelight.lean: the operations of Machine/Safelight.lean keep the queue, the clock and the form of the memory.
-/
namespace Sys2Proof.Laws
open Sys2Proof Sys2Proof.Machine

variable {s0 : State}
set_option linter.unreachableTactic false
set_option linter.unusedTactic false

theorem keeps_updSfl {s : State} {f : Safelight → Safelight} (hk : Keeps s0 s) :
    Keeps s0 (updSfl s f) := by
  unfold updSfl
  repeat' (first | with_reducible assumption | fail_if_no_progress (with_reducible apply Keeps.update) | dsimp only)

theorem keeps_putBasis {s : State} {b : Nat} {x : Basis} (hk : Keeps s0 s) :
    Keeps s0 (putBasis s b x) := by
  unfold putBasis
  repeat' (first | with_reducible assumption | with_reducible apply keeps_updSfl | fail_if_no_progress (with_reducible apply Keeps.update) | dsimp only)

theorem keeps_putModulus {s : State} {m : Nat} {x : Modulus} (hk : Keeps s0 s) :
    Keeps s0 (putModulus s m x) := by
  unfold putModulus
  repeat' (first | with_reducible assumption | with_reducible apply keeps_updSfl | fail_if_no_progress (with_reducible apply Keeps.update) | dsimp only)

theorem keeps_putVault {s : State} {v : Nat} {x : VaultSlot} (hk : Keeps s0 s) :
    Keeps s0 (putVault s v x) := by
  unfold putVault
  repeat' (first | with_reducible assumption | with_reducible apply keeps_updSfl | fail_if_no_progress (with_reducible apply Keeps.update) | dsimp only)

theorem keeps_sflComplete {s : State} {c : SflCmd} {st : Nat} (hk : Keeps s0 s) :
    Keeps s0 (sflComplete s c st) := by
  unfold sflComplete
  repeat' (first | (extract_lets +onlyGivenNames x; first | (refine (fun hx : Keeps s0 x => ?_) ?_ <;> [clear_value x; subst x]) | (refine (fun hx : KeepsF Prod.fst s0 x => ?_) ?_ <;> [(clear_value x; replace hx := hx.fst); (subst x; refine KeepsF.ofFst ?_)]) | (have _f := fun a => x a; clear _f; subst x) | clear_value x) | with_reducible assumption | with_reducible apply keeps_updSfl | with_reducible apply keeps_bump | with_reducible apply keeps_answerSvc | with_reducible apply keeps_raise | with_reducible refine Keeps.ite ?_ ?_ | split | fail_if_no_progress (with_reducible apply Keeps.update) | dsimp only)

theorem keeps_sflFail {s : State} {c : SflCmd} {st : Nat} {cause : Nat} {info : Nat} {addr : Option Nat} (hk : Keeps s0 s) :
    Keeps s0 (sflFail s c st cause info addr) := by
  unfold sflFail
  repeat' (first | with_reducible assumption | with_reducible apply keeps_sflComplete | with_reducible apply keeps_fault | dsimp only)

theorem keeps_sflSubmit {s : State} {c : SflCmd} (hk : Keeps s0 s) :
    Keeps s0 (sflSubmit s c).1 := by
  unfold sflSubmit
  repeat' (first | (extract_lets +onlyGivenNames x; first | (refine (fun hx : Keeps s0 x => ?_) ?_ <;> [clear_value x; subst x]) | (refine (fun hx : KeepsF Prod.fst s0 x => ?_) ?_ <;> [(clear_value x; replace hx := hx.fst); (subst x; refine KeepsF.ofFst ?_)]) | (have _f := fun a => x a; clear _f; subst x) | clear_value x) | with_reducible assumption | with_reducible apply keeps_updSfl | with_reducible apply keeps_sflComplete | with_reducible refine Keeps.ite1 ?_ ?_ | with_reducible refine Keeps.ite ?_ ?_ | fail_if_no_progress (with_reducible apply Keeps.update) | split | dsimp only)

theorem keeps_sflPfSubmit {s : State} (hk : Keeps s0 s) :
    Keeps s0 (sflPfSubmit s) := by
  unfold sflPfSubmit
  repeat' (first | (extract_lets +onlyGivenNames x; first | (refine (fun hx : Keeps s0 x => ?_) ?_ <;> [clear_value x; subst x]) | (refine (fun hx : KeepsF Prod.fst s0 x => ?_) ?_ <;> [(clear_value x; replace hx := hx.fst); (subst x; refine KeepsF.ofFst ?_)]) | (have _f := fun a => x a; clear _f; subst x) | clear_value x) | with_reducible assumption | with_reducible apply keeps_readRange | with_reducible apply keeps_after | with_reducible apply keeps_sflSubmit | with_reducible apply keeps_block | with_reducible refine Keeps.ite1 ?_ ?_ | with_reducible refine Keeps.ite ?_ ?_ | split | fail_if_no_progress (with_reducible apply Keeps.update) | dsimp only)

theorem keeps_sflRun {s : State} {c : SflCmd} (hk : Keeps s0 s) :
    Keeps s0 (sflRun s c) := by
  unfold sflRun
  repeat' (first | with_reducible assumption | with_reducible apply keeps_updSfl | fail_if_no_progress (with_reducible apply Keeps.update) | dsimp only)

theorem keeps_sflUnusable {s : State} (hk : Keeps s0 s) :
    Keeps s0 (sflUnusable s) := by
  unfold sflUnusable
  repeat' (first | with_reducible assumption | with_reducible apply keeps_sflFail | with_reducible refine Keeps.ite ?_ ?_ | split | dsimp only)

theorem keeps_sflRead {s : State} {c : SflCmd} {z0 : List (Nat × Nat × Nat)} {z1 : List (List Byte)} {z2 : Option Nat} (hk : Keeps s0 s) :
    Keeps s0 (sflRead s c z0 z1 z2).1 := by
  induction z0 generalizing s z1 z2 with
  | nil =>
    unfold sflRead
    repeat' (first | (extract_lets +onlyGivenNames x; first | (refine (fun hx : Keeps s0 x => ?_) ?_ <;> [clear_value x; subst x]) | (refine (fun hx : KeepsF Prod.fst s0 x => ?_) ?_ <;> [(clear_value x; replace hx := hx.fst); (subst x; refine KeepsF.ofFst ?_)]) | (have _f := fun a => x a; clear _f; subst x) | clear_value x) | with_reducible assumption | with_reducible apply keeps_readRange | with_reducible refine Keeps.ite1 ?_ ?_ | with_reducible refine Keeps.ite ?_ ?_ | split | fail_if_no_progress (with_reducible apply Keeps.update) | intro _ _ | dsimp only)
  | cons y ys ihk =>
    obtain ⟨_,_,_⟩ := y
    unfold sflRead
    repeat' (first | (extract_lets +onlyGivenNames x; first | (refine (fun hx : Keeps s0 x => ?_) ?_ <;> [clear_value x; subst x]) | (refine (fun hx : KeepsF Prod.fst s0 x => ?_) ?_ <;> [(clear_value x; replace hx := hx.fst); (subst x; refine KeepsF.ofFst ?_)]) | (have _f := fun a => x a; clear _f; subst x) | clear_value x) | with_reducible assumption | with_reducible apply ihk | with_reducible apply keeps_readRange | with_reducible refine Keeps.ite1 ?_ ?_ | with_reducible refine Keeps.ite ?_ ?_ | split | fail_if_no_progress (with_reducible apply Keeps.update) | intro _ _ | dsimp only)

theorem keeps_sflWrite {s : State} {c : SflCmd} {a : Nat} {bs : List Byte} {p : Option Nat} (hk : Keeps s0 s) :
    Keeps s0 (sflWrite s c a bs p).s := by
  unfold sflWrite
  repeat' (first | (extract_lets +onlyGivenNames x; first | (refine (fun hx : Keeps s0 x => ?_) ?_ <;> [clear_value x; subst x]) | (refine (fun hx : KeepsF Prod.fst s0 x => ?_) ?_ <;> [(clear_value x; replace hx := hx.fst); (subst x; refine KeepsF.ofFst ?_)])| (refine (fun hx : KeepsF SflOut.s s0 x => ?_) ?_ <;> [(clear_value x; replace hx : Keeps s0 x.s := hx.keeps); (subst x; refine KeepsF.of ?_)]) | (have _f := fun a => x a; clear _f; subst x) | clear_value x) | with_reducible assumption | with_reducible apply keeps_writePieces | refine Keeps.iteF SflOut.s ?_ ?_ | refine Keeps.foldlF SflOut.s (fun _ _ _ => ?_) ?_ | with_reducible refine Keeps.ite1 ?_ ?_ | with_reducible refine Keeps.ite ?_ ?_ | split | fail_if_no_progress (with_reducible apply Keeps.update) | dsimp only)

theorem keeps_sflRowOp {s : State} {c : SflCmd} (hk : Keeps s0 s) :
    Keeps s0 (sflRowOp s c).s := by
  unfold sflRowOp
  repeat' (first | (extract_lets +onlyGivenNames x; first | (refine (fun hx : Keeps s0 x => ?_) ?_ <;> [clear_value x; subst x]) | (refine (fun hx : KeepsF Prod.fst s0 x => ?_) ?_ <;> [(clear_value x; replace hx := hx.fst); (subst x; refine KeepsF.ofFst ?_)])| (refine (fun hx : KeepsF SflOut.s s0 x => ?_) ?_ <;> [(clear_value x; replace hx : Keeps s0 x.s := hx.keeps); (subst x; refine KeepsF.of ?_)]) | (have _f := fun a => x a; clear _f; subst x) | clear_value x) | with_reducible assumption | with_reducible apply keeps_sflRead | with_reducible apply keeps_sflWrite | refine Keeps.iteF SflOut.s ?_ ?_ | refine Keeps.foldlF SflOut.s (fun _ _ _ => ?_) ?_ | with_reducible refine Keeps.ite1 ?_ ?_ | with_reducible refine Keeps.ite ?_ ?_ | split | fail_if_no_progress (with_reducible apply Keeps.update) | intro _ _ | dsimp only)

theorem keeps_sflExtOp {s : State} {c : SflCmd} (hk : Keeps s0 s) :
    Keeps s0 (sflExtOp s c).s := by
  unfold sflExtOp
  repeat' (first | (extract_lets +onlyGivenNames x; first | (refine (fun hx : Keeps s0 x => ?_) ?_ <;> [clear_value x; subst x]) | (refine (fun hx : KeepsF Prod.fst s0 x => ?_) ?_ <;> [(clear_value x; replace hx := hx.fst); (subst x; refine KeepsF.ofFst ?_)])| (refine (fun hx : KeepsF SflOut.s s0 x => ?_) ?_ <;> [(clear_value x; replace hx : Keeps s0 x.s := hx.keeps); (subst x; refine KeepsF.of ?_)]) | (have _f := fun a => x a; clear _f; subst x) | clear_value x) | with_reducible assumption | with_reducible apply keeps_sflRead | with_reducible apply keeps_sflWrite | refine Keeps.iteF SflOut.s ?_ ?_ | refine Keeps.foldlF SflOut.s (fun _ _ _ => ?_) ?_ | with_reducible refine Keeps.ite1 ?_ ?_ | with_reducible refine Keeps.ite ?_ ?_ | split | fail_if_no_progress (with_reducible apply Keeps.update) | dsimp only)

theorem keeps_sflLargeOp {s : State} {c : SflCmd} (hk : Keeps s0 s) :
    Keeps s0 (sflLargeOp s c).s := by
  unfold sflLargeOp
  repeat' (first | (extract_lets +onlyGivenNames x; first | (refine (fun hx : Keeps s0 x => ?_) ?_ <;> [clear_value x; subst x]) | (refine (fun hx : KeepsF Prod.fst s0 x => ?_) ?_ <;> [(clear_value x; replace hx := hx.fst); (subst x; refine KeepsF.ofFst ?_)])| (refine (fun hx : KeepsF SflOut.s s0 x => ?_) ?_ <;> [(clear_value x; replace hx : Keeps s0 x.s := hx.keeps); (subst x; refine KeepsF.of ?_)]) | (have _f := fun a => x a; clear _f; subst x) | clear_value x) | with_reducible assumption | with_reducible apply keeps_sflRead | with_reducible apply keeps_sflWrite | refine Keeps.iteF SflOut.s ?_ ?_ | refine Keeps.foldlF SflOut.s (fun _ _ _ => ?_) ?_ | with_reducible refine Keeps.ite1 ?_ ?_ | with_reducible refine Keeps.ite ?_ ?_ | split | fail_if_no_progress (with_reducible apply Keeps.update) | dsimp only)

theorem keeps_sflBasisOp {s : State} {c : SflCmd} (hk : Keeps s0 s) :
    Keeps s0 (sflBasisOp s c).s := by
  unfold sflBasisOp
  repeat' (first | (extract_lets +onlyGivenNames x; first | (refine (fun hx : Keeps s0 x => ?_) ?_ <;> [clear_value x; subst x]) | (refine (fun hx : KeepsF Prod.fst s0 x => ?_) ?_ <;> [(clear_value x; replace hx := hx.fst); (subst x; refine KeepsF.ofFst ?_)])| (refine (fun hx : KeepsF SflOut.s s0 x => ?_) ?_ <;> [(clear_value x; replace hx : Keeps s0 x.s := hx.keeps); (subst x; refine KeepsF.of ?_)]) | (have _f := fun a => x a; clear _f; subst x) | clear_value x) | with_reducible assumption | with_reducible apply keeps_putBasis | with_reducible apply keeps_sflRead | refine Keeps.iteF SflOut.s ?_ ?_ | refine Keeps.foldlF SflOut.s (fun _ _ _ => ?_) ?_ | with_reducible refine Keeps.ite1 ?_ ?_ | with_reducible refine Keeps.ite ?_ ?_ | split | fail_if_no_progress (with_reducible apply Keeps.update) | intro _ _ | dsimp only)

theorem keeps_sflModulusOp {s : State} {c : SflCmd} (hk : Keeps s0 s) :
    Keeps s0 (sflModulusOp s c).s := by
  unfold sflModulusOp
  repeat' (first | (extract_lets +onlyGivenNames x; first | (refine (fun hx : Keeps s0 x => ?_) ?_ <;> [clear_value x; subst x]) | (refine (fun hx : KeepsF Prod.fst s0 x => ?_) ?_ <;> [(clear_value x; replace hx := hx.fst); (subst x; refine KeepsF.ofFst ?_)])| (refine (fun hx : KeepsF SflOut.s s0 x => ?_) ?_ <;> [(clear_value x; replace hx : Keeps s0 x.s := hx.keeps); (subst x; refine KeepsF.of ?_)]) | (have _f := fun a => x a; clear _f; subst x) | clear_value x) | with_reducible assumption | with_reducible apply keeps_sflRead | with_reducible apply keeps_putModulus | refine Keeps.iteF SflOut.s ?_ ?_ | refine Keeps.foldlF SflOut.s (fun _ _ _ => ?_) ?_ | with_reducible refine Keeps.ite1 ?_ ?_ | with_reducible refine Keeps.ite ?_ ?_ | split | fail_if_no_progress (with_reducible apply Keeps.update) | dsimp only)

theorem keeps_sflImportOp {s : State} {c : SflCmd} (hk : Keeps s0 s) :
    Keeps s0 (sflImportOp s c).s := by
  unfold sflImportOp
  repeat' (first | (extract_lets +onlyGivenNames x; first | (refine (fun hx : Keeps s0 x => ?_) ?_ <;> [clear_value x; subst x]) | (refine (fun hx : KeepsF Prod.fst s0 x => ?_) ?_ <;> [(clear_value x; replace hx := hx.fst); (subst x; refine KeepsF.ofFst ?_)])| (refine (fun hx : KeepsF SflOut.s s0 x => ?_) ?_ <;> [(clear_value x; replace hx : Keeps s0 x.s := hx.keeps); (subst x; refine KeepsF.of ?_)]) | (have _f := fun a => x a; clear _f; subst x) | clear_value x) | with_reducible assumption | with_reducible apply keeps_sflRead | with_reducible apply keeps_putVault | refine Keeps.iteF SflOut.s ?_ ?_ | refine Keeps.foldlF SflOut.s (fun _ _ _ => ?_) ?_ | with_reducible refine Keeps.ite1 ?_ ?_ | with_reducible refine Keeps.ite ?_ ?_ | split | fail_if_no_progress (with_reducible apply Keeps.update) | intro _ _ | dsimp only)

theorem keeps_sflOperation {s : State} {c : SflCmd} (hk : Keeps s0 s) :
    Keeps s0 (sflOperation s c).s := by
  unfold sflOperation
  repeat' (first | (extract_lets +onlyGivenNames x; first | (refine (fun hx : Keeps s0 x => ?_) ?_ <;> [clear_value x; subst x]) | (refine (fun hx : KeepsF Prod.fst s0 x => ?_) ?_ <;> [(clear_value x; replace hx := hx.fst); (subst x; refine KeepsF.ofFst ?_)])| (refine (fun hx : KeepsF SflOut.s s0 x => ?_) ?_ <;> [(clear_value x; replace hx : Keeps s0 x.s := hx.keeps); (subst x; refine KeepsF.of ?_)]) | (have _f := fun a => x a; clear _f; subst x) | clear_value x) | with_reducible assumption | with_reducible apply keeps_sflBasisOp | with_reducible apply keeps_sflModulusOp | with_reducible apply keeps_sflExtOp | with_reducible apply keeps_sflLargeOp | with_reducible apply keeps_sflImportOp | with_reducible apply keeps_putVault | with_reducible apply keeps_sflRowOp | refine Keeps.iteF SflOut.s ?_ ?_ | refine Keeps.foldlF SflOut.s (fun _ _ _ => ?_) ?_ | with_reducible refine Keeps.ite1 ?_ ?_ | with_reducible refine Keeps.ite ?_ ?_ | split | fail_if_no_progress (with_reducible apply Keeps.update) | dsimp only)

theorem keeps_sflChecks {s : State} {c : SflCmd} {t0 : State}
    (e : sflChecks s c = some t0) (hk : Keeps s0 s) : Keeps s0 t0 := by
  unfold sflChecks at e
  repeat' (first | (cases e; done) | (obtain rfl := Option.some.inj e; repeat' (first | (extract_lets +onlyGivenNames x; first | (refine (fun hx : Keeps s0 x => ?_) ?_ <;> [clear_value x; subst x]) | (refine (fun hx : KeepsF Prod.fst s0 x => ?_) ?_ <;> [(clear_value x; replace hx := hx.fst); (subst x; refine KeepsF.ofFst ?_)]) | (have _f := fun a => x a; clear _f; subst x) | clear_value x) | with_reducible assumption | with_reducible apply keeps_sflFail | with_reducible apply keeps_sflComplete | with_reducible apply keeps_raise | with_reducible apply keeps_fault | with_reducible refine Keeps.ite1 ?_ ?_ | with_reducible refine Keeps.ite ?_ ?_ | split | fail_if_no_progress (with_reducible apply Keeps.update) | intro _ _ | dsimp only)) | split at e | dsimp only at e)

theorem keeps_sflRow {op : Nat} {s : State} (hk : Keeps s0 s) :
    Keeps s0 (sflRow op s) := by
  unfold sflRow
  repeat' (first | (extract_lets +onlyGivenNames x; first | (refine (fun hx : Keeps s0 x => ?_) ?_ <;> [clear_value x; subst x]) | (refine (fun hx : KeepsF Prod.fst s0 x => ?_) ?_ <;> [(clear_value x; replace hx := hx.fst); (subst x; refine KeepsF.ofFst ?_)])| (refine (fun hx : KeepsF SflOut.s s0 x => ?_) ?_ <;> [(clear_value x; replace hx : Keeps s0 x.s := hx.keeps); (subst x; refine KeepsF.of ?_)]) | (have _f := fun a => x a; clear _f; subst x) | clear_value x) | with_reducible assumption | with_reducible apply keeps_wake | with_reducible refine keeps_sflChecks ‹_› ?_ | with_reducible apply keeps_sflOperation | with_reducible apply keeps_sflRun | with_reducible apply keeps_updSfl | with_reducible apply keeps_sflFail | with_reducible apply keeps_sflComplete | refine Keeps.iteF SflOut.s ?_ ?_ | refine Keeps.foldlF SflOut.s (fun _ _ _ => ?_) ?_ | with_reducible refine Keeps.ite1 ?_ ?_ | with_reducible refine Keeps.ite ?_ ?_ | split | fail_if_no_progress (with_reducible apply Keeps.update) | intro _ _ | dsimp only)

theorem keeps_sflPark {s : State} {c : SflCmd} (hk : Keeps s0 s) :
    Keeps s0 (sflPark s c) := by
  unfold sflPark
  repeat' (first | with_reducible assumption | with_reducible apply keeps_updSfl | fail_if_no_progress (with_reducible apply Keeps.update) | dsimp only)

theorem keeps_execSflOperationEnd {us : Nat} {stallNs : Nat} {uj : Nat} {s : State} (hk : Keeps s0 s) :
    KeepsO s0 (execSflOperationEnd us stallNs uj s) := by
  unfold execSflOperationEnd
  repeat' (first | (extract_lets +onlyGivenNames x; first | (refine (fun hx : Keeps s0 x => ?_) ?_ <;> [clear_value x; subst x]) | (refine (fun hx : KeepsF Prod.fst s0 x => ?_) ?_ <;> [(clear_value x; replace hx := hx.fst); (subst x; refine KeepsF.ofFst ?_)]) | (have _f := fun a => x a; clear _f; subst x) | clear_value x) | with_reducible assumption | with_reducible apply keeps_sflUnusable | with_reducible apply keeps_bump | with_reducible apply keeps_wake | with_reducible apply keeps_solveDebit | with_reducible apply keeps_sflFail | with_reducible apply keeps_sflComplete | with_reducible apply keeps_sflPark | with_reducible refine KeepsO.next ?_ | with_reducible refine KeepsO.ite ?_ ?_ | with_reducible refine Keeps.ite1 ?_ ?_ | with_reducible refine Keeps.ite ?_ ?_ | split | fail_if_no_progress (with_reducible apply Keeps.update) | dsimp only)

theorem keeps_sflWaiting {id : Nat} {s : State} (hk : Keeps s0 s) :
    Keeps s0 (sflWaiting id s) := by
  unfold sflWaiting
  repeat' (first | with_reducible assumption | with_reducible apply keeps_sflComplete | split | dsimp only)

theorem keeps_sflAbort {s : State} {id : Nat} (hk : Keeps s0 s) :
    Keeps s0 (sflAbort s id) := by
  unfold sflAbort
  repeat' (first | with_reducible assumption | with_reducible apply keeps_updSfl | with_reducible apply keeps_sflWaiting | with_reducible refine Keeps.ite ?_ ?_ | split | fail_if_no_progress (with_reducible apply Keeps.update) | dsimp only)

theorem keeps_sflStoreUe {s : State} {basis : Bool} {n : Nat} (hk : Keeps s0 s) :
    Keeps s0 (sflStoreUe s basis n) := by
  unfold sflStoreUe
  repeat' (first | (extract_lets +onlyGivenNames x; first | (refine (fun hx : Keeps s0 x => ?_) ?_ <;> [clear_value x; subst x]) | (refine (fun hx : KeepsF Prod.fst s0 x => ?_) ?_ <;> [(clear_value x; replace hx := hx.fst); (subst x; refine KeepsF.ofFst ?_)]) | (have _f := fun a => x a; clear _f; subst x) | clear_value x) | with_reducible assumption | with_reducible apply keeps_putBasis | with_reducible apply keeps_putVault | with_reducible apply keeps_sflComplete | with_reducible apply keeps_raise | with_reducible apply keeps_hwFault | with_reducible refine Keeps.ite ?_ ?_ | split | dsimp only)

end Sys2Proof.Laws
end

