-- ==== Sys2Proof/Laws/KeepsCsh.lean ====
section
/-!
SUPPORT. Laws/KeepsCsh.lean: the operations of Machine/Csh.lean keep the queue, the clock and the form of the memory.
-/
namespace Sys2Proof.Laws
open Sys2Proof Sys2Proof.Machine

variable {s0 : State}
set_option linter.unreachableTactic false
set_option linter.unusedTactic false

theorem keeps_updCsh {s : State} {f : Csh → Csh} (hk : Keeps s0 s) :
    Keeps s0 (updCsh s f) := by
  unfold updCsh
  repeat' (first | with_reducible assumption | fail_if_no_progress (with_reducible apply Keeps.update) | dsimp only)

theorem keeps_putEntry {s : State} {i : Nat} {b : List Byte} (hk : Keeps s0 s) :
    Keeps s0 (putEntry s i b) := by
  unfold putEntry
  repeat' (first | with_reducible assumption | with_reducible apply keeps_updCsh | fail_if_no_progress (with_reducible apply Keeps.update) | dsimp only)

theorem keeps_writeSteps {s : State} {b : List Byte} {k : Nat} (hk : Keeps s0 s) :
    Keeps s0 (writeSteps s b k) := by
  unfold writeSteps
  repeat' (first | (extract_lets +onlyGivenNames x; first | (refine (fun hx : Keeps s0 x => ?_) ?_ <;> [clear_value x; subst x]) | (refine (fun hx : KeepsF Prod.fst s0 x => ?_) ?_ <;> [(clear_value x; replace hx := hx.fst); (subst x; refine KeepsF.ofFst ?_)]) | (have _f := fun a => x a; clear _f; subst x) | clear_value x) | with_reducible assumption | with_reducible apply keeps_updCsh | with_reducible apply keeps_putEntry | with_reducible refine Keeps.ite ?_ ?_ | fail_if_no_progress (with_reducible apply Keeps.update) | split | dsimp only)

theorem keeps_writeRecord {s : State} {b : List Byte} (hk : Keeps s0 s) :
    Keeps s0 (writeRecord s b) := by
  unfold writeRecord
  repeat' (first | with_reducible assumption | with_reducible apply keeps_writeSteps | dsimp only)

theorem keeps_occArrive {s : State} {o : Occurrence} (hk : Keeps s0 s) :
    Keeps s0 (occArrive s o) := by
  unfold occArrive
  repeat' (first | (extract_lets +onlyGivenNames x; first | (refine (fun hx : Keeps s0 x => ?_) ?_ <;> [clear_value x; subst x]) | (refine (fun hx : KeepsF Prod.fst s0 x => ?_) ?_ <;> [(clear_value x; replace hx := hx.fst); (subst x; refine KeepsF.ofFst ?_)]) | (have _f := fun a => x a; clear _f; subst x) | clear_value x) | with_reducible assumption | with_reducible apply keeps_raise | with_reducible apply keeps_updCsh | with_reducible apply keeps_bump | with_reducible apply keeps_peak | with_reducible refine Keeps.ite ?_ ?_ | fail_if_no_progress (with_reducible apply Keeps.update) | split | dsimp only)

theorem keeps_execCshOccurrence {n : Nat} {s : State} (hk : Keeps s0 s) :
    KeepsO s0 (execCshOccurrence n s) := by
  unfold execCshOccurrence
  repeat' (first | (extract_lets +onlyGivenNames x; first | (refine (fun hx : Keeps s0 x => ?_) ?_ <;> [clear_value x; subst x]) | (refine (fun hx : KeepsF Prod.fst s0 x => ?_) ?_ <;> [(clear_value x; replace hx := hx.fst); (subst x; refine KeepsF.ofFst ?_)]) | (have _f := fun a => x a; clear _f; subst x) | clear_value x) | with_reducible assumption | with_reducible apply keeps_occArrive | with_reducible refine KeepsO.next ?_ | with_reducible refine KeepsO.ite ?_ ?_ | with_reducible refine Keeps.ite ?_ ?_ | with_reducible refine Keeps.ite1 ?_ ?_ | with_reducible refine Keeps.foldl (fun _ _ _ => ?_) ?_ | with_reducible refine Keeps.foldl1 (fun _ _ _ => ?_) ?_ | fail_if_no_progress (with_reducible apply Keeps.update) | split | dsimp only)

theorem keeps_execCshAccept {s : State} (hk : Keeps s0 s) :
    KeepsO s0 (execCshAccept s) := by
  unfold execCshAccept
  repeat' (first | with_reducible assumption | with_reducible apply keeps_updCsh | with_reducible refine KeepsO.next ?_ | split | fail_if_no_progress (with_reducible apply Keeps.update) | dsimp only)

theorem keeps_execCshRecordWrite {s : State} (hk : Keeps s0 s) :
    KeepsO s0 (execCshRecordWrite s) := by
  unfold execCshRecordWrite
  repeat' (first | (extract_lets +onlyGivenNames x; first | (refine (fun hx : Keeps s0 x => ?_) ?_ <;> [clear_value x; subst x]) | (refine (fun hx : KeepsF Prod.fst s0 x => ?_) ?_ <;> [(clear_value x; replace hx := hx.fst); (subst x; refine KeepsF.ofFst ?_)]) | (have _f := fun a => x a; clear _f; subst x) | clear_value x) | with_reducible assumption | with_reducible apply keeps_writeRecord | with_reducible apply keeps_updCsh | with_reducible refine KeepsO.next ?_ | with_reducible refine KeepsO.ite ?_ ?_ | with_reducible refine Keeps.ite ?_ ?_ | with_reducible refine Keeps.ite1 ?_ ?_ | split | fail_if_no_progress (with_reducible apply Keeps.update) | dsimp only)

theorem keeps_snapRead {s : State} {sel : Nat} (hk : Keeps s0 s) :
    Keeps s0 (snapRead s sel).1 := by
  unfold snapRead
  repeat' (first | (extract_lets +onlyGivenNames x; first | (refine (fun hx : Keeps s0 x => ?_) ?_ <;> [clear_value x; subst x]) | (refine (fun hx : KeepsF Prod.fst s0 x => ?_) ?_ <;> [(clear_value x; replace hx := hx.fst); (subst x; refine KeepsF.ofFst ?_)]) | (have _f := fun a => x a; clear _f; subst x) | clear_value x) | with_reducible assumption | with_reducible apply keeps_wake | with_reducible apply keeps_fresh | with_reducible refine Keeps.ite1 ?_ ?_ | with_reducible refine Keeps.ite ?_ ?_ | split | fail_if_no_progress (with_reducible apply Keeps.update) | dsimp only)

theorem keeps_continuations {t : Nat} {sels : List Nat} {vals : List Nat} {a3 : Nat} {a4 : State} (hk : Keeps s0 a4) :
    Keeps s0 (continuations t sels vals a3 a4) := by
  induction a3 generalizing t sels vals a4 with
  | zero =>
    unfold continuations
    repeat' (first | (extract_lets +onlyGivenNames x; first | (refine (fun hx : Keeps s0 x => ?_) ?_ <;> [clear_value x; subst x]) | (refine (fun hx : KeepsF Prod.fst s0 x => ?_) ?_ <;> [(clear_value x; replace hx := hx.fst); (subst x; refine KeepsF.ofFst ?_)]) | (have _f := fun a => x a; clear _f; subst x) | clear_value x) | with_reducible assumption | with_reducible apply keeps_updCsh | with_reducible apply keeps_writeRecord | with_reducible refine Keeps.ite ?_ ?_ | fail_if_no_progress (with_reducible apply Keeps.update) | split | dsimp only)
  | succ m ihk =>
    unfold continuations
    repeat' (first | (extract_lets +onlyGivenNames x; first | (refine (fun hx : Keeps s0 x => ?_) ?_ <;> [clear_value x; subst x]) | (refine (fun hx : KeepsF Prod.fst s0 x => ?_) ?_ <;> [(clear_value x; replace hx := hx.fst); (subst x; refine KeepsF.ofFst ?_)]) | (have _f := fun a => x a; clear _f; subst x) | clear_value x) | with_reducible assumption | with_reducible apply ihk | with_reducible apply keeps_updCsh | with_reducible apply keeps_writeRecord | with_reducible refine Keeps.ite ?_ ?_ | fail_if_no_progress (with_reducible apply Keeps.update) | split | dsimp only)

theorem keeps_execCshSnapshot {s : State} (hk : Keeps s0 s) :
    KeepsO s0 (execCshSnapshot s) := by
  unfold execCshSnapshot
  repeat' (first | (extract_lets +onlyGivenNames x; first | (refine (fun hx : Keeps s0 x => ?_) ?_ <;> [clear_value x; subst x]) | (refine (fun hx : KeepsF Prod.fst s0 x => ?_) ?_ <;> [(clear_value x; replace hx := hx.fst); (subst x; refine KeepsF.ofFst ?_)]) | (have _f := fun a => x a; clear _f; subst x) | clear_value x) | with_reducible assumption | with_reducible apply keeps_snapRead | with_reducible apply keeps_continuations | with_reducible apply keeps_updCsh | with_reducible refine KeepsO.next ?_ | with_reducible refine KeepsO.ite ?_ ?_ | with_reducible refine Keeps.ite ?_ ?_ | with_reducible refine Keeps.ite1 ?_ ?_ | with_reducible refine Keeps.foldl (fun _ _ _ => ?_) ?_ | with_reducible refine Keeps.foldl1 (fun _ _ _ => ?_) ?_ | split | fail_if_no_progress (with_reducible apply Keeps.update) | dsimp only)

theorem keeps_softRecord {s : State} {req : Req} {code : Nat} {params : List Nat} (hk : Keeps s0 s) :
    Keeps s0 (softRecord s req code params) := by
  unfold softRecord
  repeat' (first | with_reducible assumption | with_reducible apply keeps_toRecorder | dsimp only)

theorem keeps_cshSoftware {s : State} {req : Req} {code : Nat} (hk : Keeps s0 s) :
    Keeps s0 (cshSoftware s req code) := by
  unfold cshSoftware
  repeat' (first | with_reducible assumption | with_reducible apply keeps_softRecord | dsimp only)

theorem keeps_cshExtEnable {s : State} {req : Req} (hk : Keeps s0 s) :
    Keeps s0 (cshExtEnable s req) := by
  unfold cshExtEnable
  repeat' (first | (extract_lets +onlyGivenNames x; first | (refine (fun hx : Keeps s0 x => ?_) ?_ <;> [clear_value x; subst x]) | (refine (fun hx : KeepsF Prod.fst s0 x => ?_) ?_ <;> [(clear_value x; replace hx := hx.fst); (subst x; refine KeepsF.ofFst ?_)]) | (have _f := fun a => x a; clear _f; subst x) | clear_value x) | with_reducible assumption | with_reducible apply keeps_setReg | with_reducible apply keeps_wb | with_reducible apply keeps_fault | with_reducible refine Keeps.ite ?_ ?_ | split | dsimp only)

theorem keeps_copyWrites {s : State} {a : Nat} {b : List Byte} {poison : Bool} (hk : Keeps s0 s) :
    Keeps s0 (copyWrites s a b poison).1 := by
  unfold copyWrites
  repeat' (first | (extract_lets +onlyGivenNames x; first | (refine (fun hx : Keeps s0 x => ?_) ?_ <;> [clear_value x; subst x]) | (refine (fun hx : KeepsF Prod.fst s0 x => ?_) ?_ <;> [(clear_value x; replace hx := hx.fst); (subst x; refine KeepsF.ofFst ?_)]) | (have _f := fun a => x a; clear _f; subst x) | clear_value x) | with_reducible assumption | with_reducible apply keeps_devWrite | with_reducible refine Keeps.ite1 ?_ ?_ | with_reducible refine Keeps.ite ?_ ?_ | split | fail_if_no_progress (with_reducible apply Keeps.update) | dsimp only)

theorem keeps_cshExtCopy {s : State} (hk : Keeps s0 s) :
    Keeps s0 (cshExtCopy s) := by
  unfold cshExtCopy
  repeat' (first | (extract_lets +onlyGivenNames x; first | (refine (fun hx : Keeps s0 x => ?_) ?_ <;> [clear_value x; subst x]) | (refine (fun hx : KeepsF Prod.fst s0 x => ?_) ?_ <;> [(clear_value x; replace hx := hx.fst); (subst x; refine KeepsF.ofFst ?_)]) | (have _f := fun a => x a; clear _f; subst x) | clear_value x) | with_reducible assumption | with_reducible apply keeps_bump | with_reducible apply keeps_copyWrites | with_reducible apply keeps_setReg | with_reducible apply keeps_raise | with_reducible apply keeps_hwFault | with_reducible apply keeps_wb | with_reducible refine Keeps.ite1 ?_ ?_ | with_reducible refine Keeps.ite ?_ ?_ | split | dsimp only)

theorem keeps_cshSoftReset {s : State} (hk : Keeps s0 s) :
    Keeps s0 (cshSoftReset s) := by
  unfold cshSoftReset
  repeat' (first | (extract_lets +onlyGivenNames x; first | (refine (fun hx : Keeps s0 x => ?_) ?_ <;> [clear_value x; subst x]) | (refine (fun hx : KeepsF Prod.fst s0 x => ?_) ?_ <;> [(clear_value x; replace hx := hx.fst); (subst x; refine KeepsF.ofFst ?_)]) | (have _f := fun a => x a; clear _f; subst x) | clear_value x) | with_reducible assumption | with_reducible apply keeps_setReg | with_reducible apply keeps_updCsh | fail_if_no_progress (with_reducible apply Keeps.update) | dsimp only)

theorem keeps_tornWrite {s : State} {k : Nat} (hk : Keeps s0 s) :
    Keeps s0 (tornWrite s k) := by
  unfold tornWrite
  repeat' (first | with_reducible assumption | with_reducible apply keeps_writeSteps | split | dsimp only)

theorem keeps_resetRecord {s : State} (hk : Keeps s0 s) :
    Keeps s0 (resetRecord s) := by
  unfold resetRecord
  repeat' (first | with_reducible assumption | with_reducible apply keeps_updCsh | fail_if_no_progress (with_reducible apply Keeps.update) | dsimp only)

end Sys2Proof.Laws
end

