-- ==== Sys2Proof/Laws/KeepsFlt.lean ====
section
/-!
SUPPORT. Laws/KeepsFlt.lean: the operations of Machine/Flt.lean keep the queue, the clock and the form of the memory.
-/
namespace Sys2Proof.Laws
open Sys2Proof Sys2Proof.Machine

variable {s0 : State}
set_option linter.unreachableTactic false
set_option linter.unusedTactic false

theorem keeps_lastFault {s : State} {pg : Nat} {cause : Nat} {sev : Nat} (hk : Keeps s0 s) :
    Keeps s0 (lastFault s pg cause sev) := by
  unfold lastFault
  repeat' (first | (extract_lets +onlyGivenNames x; first | (refine (fun hx : Keeps s0 x => ?_) ?_ <;> [clear_value x; subst x]) | (refine (fun hx : KeepsF Prod.fst s0 x => ?_) ?_ <;> [(clear_value x; replace hx := hx.fst); (subst x; refine KeepsF.ofFst ?_)]) | (have _f := fun a => x a; clear _f; subst x) | clear_value x) | with_reducible assumption | with_reducible apply keeps_setReg | with_reducible refine Keeps.ite ?_ ?_ | split | dsimp only)

theorem keeps_classify {s : State} {pg : Nat} {cause : Nat} {info : Nat} (hk : Keeps s0 s) :
    Keeps s0 (classify s pg cause info) := by
  unfold classify
  repeat' (first | (extract_lets +onlyGivenNames x; first | (refine (fun hx : Keeps s0 x => ?_) ?_ <;> [clear_value x; subst x]) | (refine (fun hx : KeepsF Prod.fst s0 x => ?_) ?_ <;> [(clear_value x; replace hx := hx.fst); (subst x; refine KeepsF.ofFst ?_)]) | (have _f := fun a => x a; clear _f; subst x) | clear_value x) | with_reducible assumption | with_reducible apply keeps_bump | with_reducible apply keeps_lastFault | with_reducible apply keeps_raise | with_reducible apply keeps_signalFyp | with_reducible apply keeps_safeSet | split | dsimp only)

theorem keeps_takeMsg {s : State} {m : FltMsg} (hk : Keeps s0 s) :
    Keeps s0 (takeMsg s m) := by
  unfold takeMsg
  repeat' (first | (extract_lets +onlyGivenNames x; first | (refine (fun hx : Keeps s0 x => ?_) ?_ <;> [clear_value x; subst x]) | (refine (fun hx : KeepsF Prod.fst s0 x => ?_) ?_ <;> [(clear_value x; replace hx := hx.fst); (subst x; refine KeepsF.ofFst ?_)]) | (have _f := fun a => x a; clear _f; subst x) | clear_value x) | with_reducible assumption | with_reducible apply keeps_classify | with_reducible apply keeps_bump | with_reducible apply keeps_safeSet | exact KeepsO.fault | with_reducible refine Keeps.ite ?_ ?_ | split | fail_if_no_progress (with_reducible apply Keeps.update) | dsimp only)

theorem keeps_execFltFaultArrive {n : Nat} {s : State} (hk : Keeps s0 s) :
    KeepsO s0 (execFltFaultArrive n s) := by
  unfold execFltFaultArrive
  repeat' (first | (extract_lets +onlyGivenNames x; first | (refine (fun hx : Keeps s0 x => ?_) ?_ <;> [clear_value x; subst x]) | (refine (fun hx : KeepsF Prod.fst s0 x => ?_) ?_ <;> [(clear_value x; replace hx := hx.fst); (subst x; refine KeepsF.ofFst ?_)]) | (have _f := fun a => x a; clear _f; subst x) | clear_value x) | with_reducible assumption | with_reducible apply keeps_takeMsg | with_reducible refine KeepsO.next ?_ | with_reducible refine Keeps.foldl (fun _ _ _ => ?_) ?_ | with_reducible refine Keeps.foldl1 (fun _ _ _ => ?_) ?_ | fail_if_no_progress (with_reducible apply Keeps.update) | dsimp only)

theorem keeps_safeClear {s : State} {req : Req} {seen : Bool} {v : Nat} (hk : Keeps s0 s) :
    Keeps s0 (safeClear s req seen v) := by
  unfold safeClear
  repeat' (first | (extract_lets +onlyGivenNames x; first | (refine (fun hx : Keeps s0 x => ?_) ?_ <;> [clear_value x; subst x]) | (refine (fun hx : KeepsF Prod.fst s0 x => ?_) ?_ <;> [(clear_value x; replace hx := hx.fst); (subst x; refine KeepsF.ofFst ?_)]) | (have _f := fun a => x a; clear _f; subst x) | clear_value x) | with_reducible assumption | with_reducible apply keeps_fault | with_reducible apply keeps_setReg | with_reducible apply keeps_safeSet | with_reducible refine Keeps.ite ?_ ?_ | with_reducible refine Keeps.foldl (fun _ _ _ => ?_) ?_ | with_reducible refine Keeps.foldl1 (fun _ _ _ => ?_) ?_ | split | dsimp only)

theorem keeps_clearLast {s : State} (hk : Keeps s0 s) :
    Keeps s0 (clearLast s) := by
  unfold clearLast
  repeat' (first | with_reducible assumption | with_reducible apply keeps_setReg | dsimp only)

theorem keeps_arm {s : State} {target : Nat} (hk : Keeps s0 s) :
    Keeps s0 (arm s target) := by
  unfold arm
  repeat' (first | (extract_lets +onlyGivenNames x; first | (refine (fun hx : Keeps s0 x => ?_) ?_ <;> [clear_value x; subst x]) | (refine (fun hx : KeepsF Prod.fst s0 x => ?_) ?_ <;> [(clear_value x; replace hx := hx.fst); (subst x; refine KeepsF.ofFst ?_)]) | (have _f := fun a => x a; clear _f; subst x) | clear_value x) | with_reducible assumption | with_reducible apply keeps_setReg | with_reducible apply keeps_raiseRecord | fail_if_no_progress (with_reducible apply Keeps.update) | dsimp only)

theorem keeps_fireHeat {s : State} {trip : Bool} (hk : Keeps s0 s) :
    Keeps s0 (fireHeat s trip) := by
  unfold fireHeat
  repeat' (first | (extract_lets +onlyGivenNames x; first | (refine (fun hx : Keeps s0 x => ?_) ?_ <;> [clear_value x; subst x]) | (refine (fun hx : KeepsF Prod.fst s0 x => ?_) ?_ <;> [(clear_value x; replace hx := hx.fst); (subst x; refine KeepsF.ofFst ?_)]) | (have _f := fun a => x a; clear _f; subst x) | clear_value x) | with_reducible assumption | with_reducible apply keeps_raiseRecord | with_reducible apply keeps_wf | with_reducible refine Keeps.ite ?_ ?_ | fail_if_no_progress (with_reducible apply Keeps.update) | split | dsimp only)

theorem keeps_inject {s : State} {req : Req} {v : Nat} (hk : Keeps s0 s) :
    Keeps s0 (inject s req v) := by
  unfold inject
  repeat' (first | (extract_lets +onlyGivenNames x; first | (refine (fun hx : Keeps s0 x => ?_) ?_ <;> [clear_value x; subst x]) | (refine (fun hx : KeepsF Prod.fst s0 x => ?_) ?_ <;> [(clear_value x; replace hx := hx.fst); (subst x; refine KeepsF.ofFst ?_)]) | (have _f := fun a => x a; clear _f; subst x) | clear_value x) | with_reducible assumption | with_reducible apply keeps_fault | with_reducible apply keeps_arm | with_reducible apply keeps_fireHeat | with_reducible refine Keeps.ite ?_ ?_ | split | dsimp only)

theorem keeps_execInjectionExpire {s : State} (hk : Keeps s0 s) :
    KeepsO s0 (execInjectionExpire s) := by
  unfold execInjectionExpire
  repeat' (first | with_reducible assumption | with_reducible apply keeps_wf | with_reducible refine KeepsO.next ?_ | with_reducible refine KeepsO.ite ?_ ?_ | with_reducible refine Keeps.ite ?_ ?_ | with_reducible refine Keeps.ite1 ?_ ?_ | split | dsimp only)

end Sys2Proof.Laws
end

