-- ==== Sys2Proof/Laws/KeepsManifest.lean ====
section
/-!
SUPPORT. Laws/KeepsManifest.lean: the operations of Machine/Manifest.lean keep the queue, the clock and the form of the memory.
-/
namespace Sys2Proof.Laws
open Sys2Proof Sys2Proof.Machine

variable {s0 : State}
set_option linter.unreachableTactic false
set_option linter.unusedTactic false

theorem keeps_setFlash {s : State} {a : Nat} {bs : List Byte} (hk : Keeps s0 s) :
    Keeps s0 (setFlash s a bs) := by
  unfold setFlash
  repeat' (first | with_reducible assumption | with_reducible refine Keeps.foldl (fun _ _ _ => ?_) ?_ | with_reducible refine Keeps.foldl1 (fun _ _ _ => ?_) ?_ | fail_if_no_progress (with_reducible apply Keeps.update) | dsimp only)

end Sys2Proof.Laws
end

