-- ==== Sys2Proof/Laws/KeepsBoot.lean ====
section
/-!
SUPPORT. Laws/KeepsBoot.lean: the operations of Machine/Boot.lean keep the queue, the clock and the form of the memory.
-/
namespace Sys2Proof.Laws
open Sys2Proof Sys2Proof.Machine

variable {s0 : State}
set_option linter.unreachableTactic false
set_option linter.unusedTactic false

theorem keeps_updBoot {s : State} {f : Boot → Boot} (hk : Keeps s0 s) :
    Keeps s0 (updBoot s f) := by
  unfold updBoot
  repeat' (first | with_reducible assumption | fail_if_no_progress (with_reducible apply Keeps.update) | dsimp only)

theorem keeps_dieReset {s : State} {cause : Nat} {kept : Bool} (hk : Keeps s0 s) : Keeps s0 (dieReset s cause kept) := by
  refine hk.trans ?_
  cases kept
  · exact ⟨rfl, rfl, Nat.le_refl _, fun _ => rfl⟩
  · exact ⟨rfl, rfl, Nat.le_refl _, fun _ => rfl⟩

theorem keeps_powerOff {s : State} (hk : Keeps s0 s) :
    Keeps s0 (powerOff s) := by
  unfold powerOff
  repeat' (first | with_reducible assumption | with_reducible apply keeps_updBoot | with_reducible apply keeps_dieReset | fail_if_no_progress (with_reducible apply Keeps.update) | dsimp only)

theorem keeps_execSupplyRamp {s : State} (hk : Keeps s0 s) :
    KeepsO s0 (execSupplyRamp s) := by
  unfold execSupplyRamp
  repeat' (first | with_reducible assumption | with_reducible apply keeps_updBoot | with_reducible apply keeps_dieReset | with_reducible refine KeepsO.next ?_ | with_reducible refine KeepsO.ite ?_ ?_ | with_reducible refine Keeps.ite ?_ ?_ | with_reducible refine Keeps.ite1 ?_ ?_ | fail_if_no_progress (with_reducible apply Keeps.update) | split | dsimp only)

theorem keeps_execBrownout {s : State} (hk : Keeps s0 s) :
    KeepsO s0 (execBrownout s) := by
  unfold execBrownout
  repeat' (first | with_reducible assumption | with_reducible apply keeps_dieReset | with_reducible refine KeepsO.next ?_ | with_reducible refine KeepsO.ite ?_ ?_ | with_reducible refine Keeps.ite ?_ ?_ | with_reducible refine Keeps.ite1 ?_ ?_ | split | dsimp only)

theorem keeps_execSupplyLow {mv : Nat} {us : Nat} {s : State} (hk : Keeps s0 s) :
    KeepsO s0 (execSupplyLow mv us s) := by
  unfold execSupplyLow
  repeat' (first | with_reducible assumption | with_reducible apply keeps_hwFault | with_reducible refine KeepsO.next ?_ | with_reducible refine KeepsO.ite ?_ ?_ | with_reducible refine Keeps.ite ?_ ?_ | with_reducible refine Keeps.ite1 ?_ ?_ | split | dsimp only)

theorem keeps_execPinReset {torn : Nat} {s : State} (hk : Keeps s0 s) :
    KeepsO s0 (execPinReset torn s) := by
  unfold execPinReset
  repeat' (first | with_reducible assumption | with_reducible apply keeps_dieReset | with_reducible apply keeps_tornWrite | with_reducible refine KeepsO.next ?_ | with_reducible refine KeepsO.ite ?_ ?_ | with_reducible refine Keeps.ite ?_ ?_ | with_reducible refine Keeps.ite1 ?_ ?_ | split | dsimp only)

theorem keeps_execResetRelease {s : State} (hk : Keeps s0 s) :
    KeepsO s0 (execResetRelease s) := by
  unfold execResetRelease
  repeat' (first | (extract_lets +onlyGivenNames x; first | (refine (fun hx : Keeps s0 x => ?_) ?_ <;> [clear_value x; subst x]) | (refine (fun hx : KeepsF Prod.fst s0 x => ?_) ?_ <;> [(clear_value x; replace hx := hx.fst); (subst x; refine KeepsF.ofFst ?_)]) | (have _f := fun a => x a; clear _f; subst x) | clear_value x) | with_reducible assumption | with_reducible apply keeps_updBoot | with_reducible apply keeps_wb | with_reducible apply keeps_updIsl | with_reducible apply keeps_resetRecord | with_reducible apply keeps_softRecord | with_reducible refine KeepsO.next ?_ | with_reducible refine KeepsO.ite ?_ ?_ | with_reducible refine Keeps.ite ?_ ?_ | with_reducible refine Keeps.ite1 ?_ ?_ | with_reducible refine Keeps.foldl (fun _ _ _ => ?_) ?_ | with_reducible refine Keeps.foldl1 (fun _ _ _ => ?_) ?_ | fail_if_no_progress (with_reducible apply Keeps.update) | split | dsimp only)

theorem keeps_bootEnds {s : State} {ph : Nat} (hk : Keeps s0 s) :
    Keeps s0 (bootEnds s ph) := by
  unfold bootEnds
  repeat' (first | (extract_lets +onlyGivenNames x; first | (refine (fun hx : Keeps s0 x => ?_) ?_ <;> [clear_value x; subst x]) | (refine (fun hx : KeepsF Prod.fst s0 x => ?_) ?_ <;> [(clear_value x; replace hx := hx.fst); (subst x; refine KeepsF.ofFst ?_)]) | (have _f := fun a => x a; clear _f; subst x) | clear_value x) | with_reducible assumption | with_reducible apply keeps_setReg | with_reducible apply keeps_wb | with_reducible apply keeps_wf | dsimp only)

theorem keeps_powerOnly {s : State} {on : List Nat} (hk : Keeps s0 s) :
    Keeps s0 (powerOnly s on) := by
  unfold powerOnly
  repeat' (first | (extract_lets +onlyGivenNames x; first | (refine (fun hx : Keeps s0 x => ?_) ?_ <;> [clear_value x; subst x]) | (refine (fun hx : KeepsF Prod.fst s0 x => ?_) ?_ <;> [(clear_value x; replace hx := hx.fst); (subst x; refine KeepsF.ofFst ?_)]) | (have _f := fun a => x a; clear _f; subst x) | clear_value x) | with_reducible assumption | with_reducible apply keeps_setReg | with_reducible apply keeps_updIsl | with_reducible apply keeps_putOff | with_reducible refine Keeps.ite1 ?_ ?_ | with_reducible refine Keeps.ite ?_ ?_ | with_reducible refine Keeps.foldl (fun _ _ _ => ?_) ?_ | with_reducible refine Keeps.foldl1 (fun _ _ _ => ?_) ?_ | split | intro _ _ | dsimp only)

theorem keeps_enterService {s : State} {ph : Nat} {w : Why} (hk : Keeps s0 s) :
    Keeps s0 (enterService s ph w) := by
  unfold enterService
  repeat' (first | (extract_lets +onlyGivenNames x; first | (refine (fun hx : Keeps s0 x => ?_) ?_ <;> [clear_value x; subst x]) | (refine (fun hx : KeepsF Prod.fst s0 x => ?_) ?_ <;> [(clear_value x; replace hx := hx.fst); (subst x; refine KeepsF.ofFst ?_)]) | (have _f := fun a => x a; clear _f; subst x) | clear_value x) | with_reducible assumption | with_reducible apply keeps_powerOnly | with_reducible apply keeps_setReg | with_reducible apply keeps_signalFyp | with_reducible apply keeps_raise | with_reducible apply keeps_bootEnds | with_reducible refine Keeps.ite ?_ ?_ | split | dsimp only)

theorem keeps_writeDir {s : State} {d : List Byte} (hk : Keeps s0 s) :
    Keeps s0 (writeDir s d) := by
  unfold writeDir
  repeat' (first | (extract_lets +onlyGivenNames x; first | (refine (fun hx : Keeps s0 x => ?_) ?_ <;> [clear_value x; subst x]) | (refine (fun hx : KeepsF Prod.fst s0 x => ?_) ?_ <;> [(clear_value x; replace hx := hx.fst); (subst x; refine KeepsF.ofFst ?_)]) | (have _f := fun a => x a; clear _f; subst x) | clear_value x) | with_reducible assumption | with_reducible apply keeps_setFlash | with_reducible apply keeps_raise | with_reducible refine Keeps.ite ?_ ?_ | split | dsimp only)

theorem keeps_markBad {s : State} {kind : Nat} {ab : Nat} (hk : Keeps s0 s) :
    Keeps s0 (markBad s kind ab) := by
  unfold markBad
  repeat' (first | with_reducible assumption | with_reducible apply keeps_raise | with_reducible apply keeps_wb | with_reducible apply keeps_writeDir | dsimp only)

theorem keeps_trySlot {kind : Nat} {k : Pick} {ab : Nat} (hk : Keeps s0 k.s) :
    Keeps s0 (trySlot kind k ab).s := by
  unfold trySlot
  repeat' (first | (extract_lets +onlyGivenNames x; first | (refine (fun hx : Keeps s0 x => ?_) ?_ <;> [clear_value x; subst x]) | (refine (fun hx : KeepsF Prod.fst s0 x => ?_) ?_ <;> [(clear_value x; replace hx := hx.fst); (subst x; refine KeepsF.ofFst ?_)]) | (refine (fun hx : KeepsF Pick.s s0 x => ?_) ?_ <;> [(clear_value x; replace hx : Keeps s0 x.s := hx.keeps); (subst x; refine KeepsF.of ?_)]) | (have _f := fun a => x a; clear _f; subst x) | clear_value x) | with_reducible assumption | with_reducible apply keeps_Pick_s | with_reducible apply keeps_markBad | refine Keeps.iteF Pick.s ?_ ?_ | refine Keeps.foldlF Pick.s (fun _ _ _ => ?_) ?_ | with_reducible refine Keeps.foldl (fun _ _ _ => ?_) ?_ | with_reducible refine Keeps.ite ?_ ?_ | with_reducible refine Keeps.ite ?_ ?_ | fail_if_no_progress (with_reducible apply Keeps.update) | split | dsimp only)

theorem keeps_tryTrial {kind : Nat} {k : Pick} {ab : Nat} (hk : Keeps s0 k.s) :
    Keeps s0 (tryTrial kind k ab).s := by
  unfold tryTrial
  repeat' (first | (extract_lets +onlyGivenNames x; first | (refine (fun hx : Keeps s0 x => ?_) ?_ <;> [clear_value x; subst x]) | (refine (fun hx : KeepsF Prod.fst s0 x => ?_) ?_ <;> [(clear_value x; replace hx := hx.fst); (subst x; refine KeepsF.ofFst ?_)]) | (refine (fun hx : KeepsF Pick.s s0 x => ?_) ?_ <;> [(clear_value x; replace hx : Keeps s0 x.s := hx.keeps); (subst x; refine KeepsF.of ?_)]) | (have _f := fun a => x a; clear _f; subst x) | clear_value x) | with_reducible assumption | with_reducible apply keeps_Pick_s | with_reducible apply keeps_markBad | with_reducible apply keeps_writeDir | with_reducible apply keeps_trySlot | refine Keeps.iteF Pick.s ?_ ?_ | refine Keeps.foldlF Pick.s (fun _ _ _ => ?_) ?_ | with_reducible refine Keeps.foldl (fun _ _ _ => ?_) ?_ | with_reducible refine Keeps.ite ?_ ?_ | with_reducible refine Keeps.ite ?_ ?_ | fail_if_no_progress (with_reducible apply Keeps.update) | split | dsimp only)

theorem keeps_selectSlot {s : State} {kind : Nat} {gl : List Bool} (hk : Keeps s0 s) : Keeps s0 (selectSlot s kind gl).s := by
  unfold selectSlot
  exact Keeps.foldlF (fun x : Pick => x.s) (fun _ _ h => keeps_trySlot h) (keeps_tryTrial (keeps_tryTrial hk))

theorem keeps_execImageSelect {glitch : List Bool} {s : State} (hk : Keeps s0 s) :
    KeepsO s0 (execImageSelect glitch s) := by
  unfold execImageSelect
  repeat' (first | (extract_lets +onlyGivenNames x; first | (refine (fun hx : Keeps s0 x => ?_) ?_ <;> [clear_value x; subst x]) | (refine (fun hx : KeepsF Prod.fst s0 x => ?_) ?_ <;> [(clear_value x; replace hx := hx.fst); (subst x; refine KeepsF.ofFst ?_)]) | (refine (fun hx : KeepsF Pick.s s0 x => ?_) ?_ <;> [(clear_value x; replace hx : Keeps s0 x.s := hx.keeps); (subst x; refine KeepsF.of ?_)]) | (have _f := fun a => x a; clear _f; subst x) | clear_value x) | with_reducible assumption | with_reducible apply keeps_wb | with_reducible apply keeps_selectSlot | with_reducible apply keeps_enterService | with_reducible apply keeps_Pick_s | with_reducible apply keeps_updBoot | with_reducible apply keeps_setReg | with_reducible apply keeps_wf | with_reducible refine KeepsO.next ?_ | refine Keeps.iteF Pick.s ?_ ?_ | refine Keeps.foldlF Pick.s (fun _ _ _ => ?_) ?_ | with_reducible refine Keeps.foldl (fun _ _ _ => ?_) ?_ | with_reducible refine KeepsO.ite ?_ ?_ | with_reducible refine Keeps.ite ?_ ?_ | with_reducible refine Keeps.ite1 ?_ ?_ | split | fail_if_no_progress (with_reducible apply Keeps.update) | dsimp only)

theorem keeps_execManifestCheck {glitch : List Bool} {s : State} (hk : Keeps s0 s) :
    KeepsO s0 (execManifestCheck glitch s) := by
  unfold execManifestCheck
  repeat' (first | (extract_lets +onlyGivenNames x; first | (refine (fun hx : Keeps s0 x => ?_) ?_ <;> [clear_value x; subst x]) | (refine (fun hx : KeepsF Prod.fst s0 x => ?_) ?_ <;> [(clear_value x; replace hx := hx.fst); (subst x; refine KeepsF.ofFst ?_)]) | (refine (fun hx : KeepsF Pick.s s0 x => ?_) ?_ <;> [(clear_value x; replace hx : Keeps s0 x.s := hx.keeps); (subst x; refine KeepsF.of ?_)]) | (have _f := fun a => x a; clear _f; subst x) | clear_value x) | with_reducible assumption | with_reducible apply keeps_selectSlot | with_reducible apply keeps_enterService | with_reducible apply keeps_Pick_s | with_reducible apply keeps_wb | with_reducible apply keeps_setReg | with_reducible apply keeps_wf | with_reducible apply keeps_updBoot | with_reducible refine KeepsO.next ?_ | refine Keeps.iteF Pick.s ?_ ?_ | refine Keeps.foldlF Pick.s (fun _ _ _ => ?_) ?_ | with_reducible refine Keeps.foldl (fun _ _ _ => ?_) ?_ | with_reducible refine KeepsO.ite ?_ ?_ | with_reducible refine Keeps.ite ?_ ?_ | with_reducible refine Keeps.ite1 ?_ ?_ | with_reducible refine Keeps.foldl (fun _ _ _ => ?_) ?_ | with_reducible refine Keeps.foldl1 (fun _ _ _ => ?_) ?_ | split | fail_if_no_progress (with_reducible apply Keeps.update) | dsimp only)

theorem keeps_setWord {s : State} {off : Nat} {w : Nat} (hk : Keeps s0 s) :
    Keeps s0 (setWord s off w) := by
  unfold setWord
  repeat' (first | with_reducible assumption | with_reducible apply keeps_setReg | dsimp only)

theorem keeps_putColumns {s : State} {n : Nat} {cols : List Nat} {bist : Bool} {new : Bool} (hk : Keeps s0 s) :
    Keeps s0 (putColumns s n cols bist new) := by
  unfold putColumns
  repeat' (first | (extract_lets +onlyGivenNames x; first | (refine (fun hx : Keeps s0 x => ?_) ?_ <;> [clear_value x; subst x]) | (refine (fun hx : KeepsF Prod.fst s0 x => ?_) ?_ <;> [(clear_value x; replace hx := hx.fst); (subst x; refine KeepsF.ofFst ?_)]) | (have _f := fun a => x a; clear _f; subst x) | clear_value x) | with_reducible assumption | with_reducible apply keeps_setWord | with_reducible refine Keeps.foldl (fun _ _ _ => ?_) ?_ | with_reducible refine Keeps.foldl1 (fun _ _ _ => ?_) ?_ | dsimp only)

theorem keeps_execIslandBringup {s : State} (hk : Keeps s0 s) :
    KeepsO s0 (execIslandBringup s) := by
  unfold execIslandBringup
  repeat' (first | (extract_lets +onlyGivenNames x; first | (refine (fun hx : Keeps s0 x => ?_) ?_ <;> [clear_value x; subst x]) | (refine (fun hx : KeepsF Prod.fst s0 x => ?_) ?_ <;> [(clear_value x; replace hx := hx.fst); (subst x; refine KeepsF.ofFst ?_)]) | (have _f := fun a => x a; clear _f; subst x) | clear_value x) | with_reducible assumption | with_reducible apply keeps_setWord | with_reducible apply keeps_updIsl | with_reducible apply keeps_putColumns | with_reducible apply keeps_wf | with_reducible apply keeps_wb | with_reducible refine KeepsO.next ?_ | with_reducible refine KeepsO.ite ?_ ?_ | with_reducible refine Keeps.ite ?_ ?_ | with_reducible refine Keeps.ite1 ?_ ?_ | with_reducible refine Keeps.foldl (fun _ _ _ => ?_) ?_ | with_reducible refine Keeps.foldl1 (fun _ _ _ => ?_) ?_ | split | dsimp only)

theorem keeps_selfTest {s : State} {bist : List (Nat × Nat × Nat)} (hk : Keeps s0 s) :
    Keeps s0 (selfTest s bist) := by
  unfold selfTest
  repeat' (first | (extract_lets +onlyGivenNames x; first | (refine (fun hx : Keeps s0 x => ?_) ?_ <;> [clear_value x; subst x]) | (refine (fun hx : KeepsF Prod.fst s0 x => ?_) ?_ <;> [(clear_value x; replace hx := hx.fst); (subst x; refine KeepsF.ofFst ?_)]) | (have _f := fun a => x a; clear _f; subst x) | clear_value x) | with_reducible assumption | with_reducible apply keeps_putColumns | with_reducible apply keeps_putOff | with_reducible apply keeps_setWord | with_reducible apply keeps_raise | with_reducible refine Keeps.ite1 ?_ ?_ | with_reducible refine Keeps.ite ?_ ?_ | with_reducible refine Keeps.foldl (fun _ _ _ => ?_) ?_ | with_reducible refine Keeps.foldl1 (fun _ _ _ => ?_) ?_ | split | intro _ _ | dsimp only)

theorem keeps_ledgerBuffer {s : State} (hk : Keeps s0 s) :
    Keeps s0 (ledgerBuffer s) := by
  unfold ledgerBuffer
  repeat' (first | (extract_lets +onlyGivenNames x; first | (refine (fun hx : Keeps s0 x => ?_) ?_ <;> [clear_value x; subst x]) | (refine (fun hx : KeepsF Prod.fst s0 x => ?_) ?_ <;> [(clear_value x; replace hx := hx.fst); (subst x; refine KeepsF.ofFst ?_)]) | (have _f := fun a => x a; clear _f; subst x) | clear_value x) | with_reducible assumption | with_reducible apply keeps_updBoot | fail_if_no_progress (with_reducible apply Keeps.update) | dsimp only)

theorem keeps_freeTrain {s : State} (hk : Keeps s0 s) :
    Keeps s0 (freeTrain s).1 := by
  unfold freeTrain
  repeat' (first | (extract_lets +onlyGivenNames x; first | (refine (fun hx : Keeps s0 x => ?_) ?_ <;> [clear_value x; subst x]) | (refine (fun hx : KeepsF Prod.fst s0 x => ?_) ?_ <;> [(clear_value x; replace hx := hx.fst); (subst x; refine KeepsF.ofFst ?_)]) | (have _f := fun a => x a; clear _f; subst x) | clear_value x) | with_reducible assumption | with_reducible apply keeps_fresh | with_reducible refine Keeps.ite1 ?_ ?_ | with_reducible refine Keeps.ite ?_ ?_ | split | dsimp only)

theorem keeps_trainSub {trains : List (Nat × Train)} {a : State × List Nat} {u : Nat} (ha : Keeps s0 a.1) :
    Keeps s0 (trainSub trains a u).1 := by
  unfold trainSub
  repeat' (first | (extract_lets +onlyGivenNames x; first | (refine (fun hx : Keeps s0 x => ?_) ?_ <;> [clear_value x; subst x]) | (refine (fun hx : KeepsF Prod.fst s0 x => ?_) ?_ <;> [(clear_value x; replace hx := hx.fst); (subst x; refine KeepsF.ofFst ?_)]) | (have _f := fun a => x a; clear _f; subst x) | clear_value x) | with_reducible assumption | with_reducible apply keeps_freeTrain | with_reducible apply keeps_putTrain | with_reducible apply keeps_step | with_reducible apply keeps_hwFault | with_reducible refine Keeps.ite1 ?_ ?_ | with_reducible refine Keeps.ite ?_ ?_ | split | fail_if_no_progress (with_reducible apply Keeps.update) | dsimp only)

theorem keeps_execDramTraining {trains : List (Nat × Train)} {bist : List (Nat × Nat × Nat)} {drfm : Bool} {rfm : Nat} {s : State} (hk : Keeps s0 s) :
    KeepsO s0 (execDramTraining trains bist drfm rfm s) := by
  unfold execDramTraining
  repeat' (first | (extract_lets +onlyGivenNames x; first | (refine (fun hx : Keeps s0 x => ?_) ?_ <;> [clear_value x; subst x]) | (refine (fun hx : KeepsF Prod.fst s0 x => ?_) ?_ <;> [(clear_value x; replace hx := hx.fst); (subst x; refine KeepsF.ofFst ?_)]) | (have _f := fun a => x a; clear _f; subst x) | clear_value x) | with_reducible assumption | with_reducible apply keeps_trainSub | with_reducible apply keeps_ledgerBuffer | with_reducible apply keeps_selfTest | with_reducible apply keeps_enterService | with_reducible apply keeps_wb | with_reducible apply keeps_updSub | with_reducible apply keeps_clearMem | with_reducible apply keeps_wf | with_reducible refine KeepsO.next ?_ | with_reducible refine KeepsO.ite ?_ ?_ | with_reducible refine Keeps.ite1 ?_ ?_ | with_reducible refine Keeps.ite ?_ ?_ | with_reducible refine Keeps.foldl (fun _ _ _ => ?_) ?_ | with_reducible refine Keeps.foldl1 (fun _ _ _ => ?_) ?_ | split | fail_if_no_progress (with_reducible apply Keeps.update) | intro _ _ | dsimp only)

theorem keeps_execLocalModelHash {s : State} (hk : Keeps s0 s) :
    KeepsO s0 (execLocalModelHash s) := by
  unfold execLocalModelHash
  repeat' (first | (extract_lets +onlyGivenNames x; first | (refine (fun hx : Keeps s0 x => ?_) ?_ <;> [clear_value x; subst x]) | (refine (fun hx : KeepsF Prod.fst s0 x => ?_) ?_ <;> [(clear_value x; replace hx := hx.fst); (subst x; refine KeepsF.ofFst ?_)]) | (have _f := fun a => x a; clear _f; subst x) | clear_value x) | with_reducible assumption | with_reducible apply keeps_enterService | with_reducible apply keeps_wf | with_reducible apply keeps_updAud | with_reducible refine KeepsO.next ?_ | with_reducible refine KeepsO.ite ?_ ?_ | with_reducible refine Keeps.ite ?_ ?_ | with_reducible refine Keeps.ite1 ?_ ?_ | split | fail_if_no_progress (with_reducible apply Keeps.update) | dsimp only)

theorem keeps_bootConfirm {s : State} (hk : Keeps s0 s) :
    Keeps s0 (bootConfirm s) := by
  unfold bootConfirm
  repeat' (first | with_reducible assumption | with_reducible apply keeps_updBoot | with_reducible refine Keeps.ite ?_ ?_ | fail_if_no_progress (with_reducible apply Keeps.update) | split | dsimp only)

theorem keeps_execDirectoryWriteDone {s : State} (hk : Keeps s0 s) :
    KeepsO s0 (execDirectoryWriteDone s) := by
  unfold execDirectoryWriteDone
  repeat' (first | (extract_lets +onlyGivenNames x; first | (refine (fun hx : Keeps s0 x => ?_) ?_ <;> [clear_value x; subst x]) | (refine (fun hx : KeepsF Prod.fst s0 x => ?_) ?_ <;> [(clear_value x; replace hx := hx.fst); (subst x; refine KeepsF.ofFst ?_)]) | (have _f := fun a => x a; clear _f; subst x) | clear_value x) | with_reducible assumption | with_reducible apply keeps_writeDir | with_reducible apply keeps_updBoot | with_reducible refine KeepsO.next ?_ | with_reducible refine KeepsO.ite ?_ ?_ | with_reducible refine Keeps.ite ?_ ?_ | with_reducible refine Keeps.ite1 ?_ ?_ | with_reducible refine Keeps.foldl (fun _ _ _ => ?_) ?_ | with_reducible refine Keeps.foldl1 (fun _ _ _ => ?_) ?_ | fail_if_no_progress (with_reducible apply Keeps.update) | split | dsimp only)

theorem keeps_flashStart {s : State} {req : Req} {op : Nat} (hk : Keeps s0 s) :
    Keeps s0 (flashStart s req op) := by
  unfold flashStart
  repeat' (first | (extract_lets +onlyGivenNames x; first | (refine (fun hx : Keeps s0 x => ?_) ?_ <;> [clear_value x; subst x]) | (refine (fun hx : KeepsF Prod.fst s0 x => ?_) ?_ <;> [(clear_value x; replace hx := hx.fst); (subst x; refine KeepsF.ofFst ?_)]) | (have _f := fun a => x a; clear _f; subst x) | clear_value x) | with_reducible assumption | with_reducible apply keeps_raise | with_reducible apply keeps_fault | with_reducible apply keeps_updBoot | with_reducible refine Keeps.ite ?_ ?_ | fail_if_no_progress (with_reducible apply Keeps.update) | split | dsimp only)

theorem keeps_install {s : State} {a : Nat} (hk : Keeps s0 s) :
    Keeps s0 (install s a) := by
  unfold install
  repeat' (first | (extract_lets +onlyGivenNames x; first | (refine (fun hx : Keeps s0 x => ?_) ?_ <;> [clear_value x; subst x]) | (refine (fun hx : KeepsF Prod.fst s0 x => ?_) ?_ <;> [(clear_value x; replace hx := hx.fst); (subst x; refine KeepsF.ofFst ?_)]) | (have _f := fun a => x a; clear _f; subst x) | clear_value x) | with_reducible assumption | with_reducible apply keeps_raise | with_reducible apply keeps_hwFault | with_reducible apply keeps_writeDir | with_reducible refine Keeps.ite ?_ ?_ | split | dsimp only)

theorem keeps_putFlashData {s : State} {bs : List Byte} (hk : Keeps s0 s) :
    Keeps s0 (putFlashData s bs) := by
  unfold putFlashData
  repeat' (first | with_reducible assumption | with_reducible apply keeps_setWord | with_reducible refine Keeps.foldl (fun _ _ _ => ?_) ?_ | with_reducible refine Keeps.foldl1 (fun _ _ _ => ?_) ?_ | dsimp only)

theorem keeps_execFlashDone {s : State} (hk : Keeps s0 s) :
    KeepsO s0 (execFlashDone s) := by
  unfold execFlashDone
  repeat' (first | (extract_lets +onlyGivenNames x; first | (refine (fun hx : Keeps s0 x => ?_) ?_ <;> [clear_value x; subst x]) | (refine (fun hx : KeepsF Prod.fst s0 x => ?_) ?_ <;> [(clear_value x; replace hx := hx.fst); (subst x; refine KeepsF.ofFst ?_)]) | (have _f := fun a => x a; clear _f; subst x) | clear_value x) | with_reducible assumption | with_reducible apply keeps_updBoot | with_reducible apply keeps_raise | with_reducible apply keeps_putFlashData | with_reducible apply keeps_setFlash | with_reducible apply keeps_install | with_reducible refine KeepsO.next ?_ | split | fail_if_no_progress (with_reducible apply Keeps.update) | dsimp only)

theorem keeps_freshBytes {a0 : Nat} {a1 : State} {a2 : List Byte} (hk : Keeps s0 a1) :
    Keeps s0 (freshBytes a0 a1 a2).1 := by
  induction a0 generalizing a1 a2 with
  | zero =>
    unfold freshBytes
    repeat' (first | (extract_lets +onlyGivenNames x; first | (refine (fun hx : Keeps s0 x => ?_) ?_ <;> [clear_value x; subst x]) | (refine (fun hx : KeepsF Prod.fst s0 x => ?_) ?_ <;> [(clear_value x; replace hx := hx.fst); (subst x; refine KeepsF.ofFst ?_)]) | (have _f := fun a => x a; clear _f; subst x) | clear_value x) | with_reducible assumption | with_reducible apply keeps_fresh | dsimp only)
  | succ m ihk =>
    unfold freshBytes
    repeat' (first | (extract_lets +onlyGivenNames x; first | (refine (fun hx : Keeps s0 x => ?_) ?_ <;> [clear_value x; subst x]) | (refine (fun hx : KeepsF Prod.fst s0 x => ?_) ?_ <;> [(clear_value x; replace hx := hx.fst); (subst x; refine KeepsF.ofFst ?_)]) | (have _f := fun a => x a; clear _f; subst x) | clear_value x) | with_reducible assumption | with_reducible apply ihk | with_reducible apply keeps_fresh | dsimp only)

theorem keeps_execFlashTimeout {s : State} (hk : Keeps s0 s) :
    KeepsO s0 (execFlashTimeout s) := by
  unfold execFlashTimeout
  repeat' (first | (extract_lets +onlyGivenNames x; first | (refine (fun hx : Keeps s0 x => ?_) ?_ <;> [clear_value x; subst x]) | (refine (fun hx : KeepsF Prod.fst s0 x => ?_) ?_ <;> [(clear_value x; replace hx := hx.fst); (subst x; refine KeepsF.ofFst ?_)]) | (have _f := fun a => x a; clear _f; subst x) | clear_value x) | with_reducible assumption | with_reducible apply keeps_updBoot | with_reducible apply keeps_freshBytes | with_reducible apply keeps_putFlashData | with_reducible apply keeps_setFlash | with_reducible apply keeps_raise | with_reducible apply keeps_hwFault | with_reducible refine KeepsO.next ?_ | split | fail_if_no_progress (with_reducible apply Keeps.update) | dsimp only)

theorem keeps_execOtpDone {s : State} (hk : Keeps s0 s) :
    KeepsO s0 (execOtpDone s) := by
  unfold execOtpDone
  repeat' (first | (extract_lets +onlyGivenNames x; first | (refine (fun hx : Keeps s0 x => ?_) ?_ <;> [clear_value x; subst x]) | (refine (fun hx : KeepsF Prod.fst s0 x => ?_) ?_ <;> [(clear_value x; replace hx := hx.fst); (subst x; refine KeepsF.ofFst ?_)]) | (have _f := fun a => x a; clear _f; subst x) | clear_value x) | with_reducible assumption | with_reducible apply keeps_updBoot | with_reducible apply keeps_raise | with_reducible refine KeepsO.next ?_ | split | fail_if_no_progress (with_reducible apply Keeps.update) | dsimp only)

end Sys2Proof.Laws
end

