-- ==== Sys2Proof/Laws/KeepsSeam.lean ====
section
/-!
SUPPORT. Laws/KeepsSeam.lean: the operations of Machine/Seam.lean keep the queue, the clock and the form of the memory.
-/
namespace Sys2Proof.Laws
open Sys2Proof Sys2Proof.Machine

variable {s0 : State}
set_option linter.unreachableTactic false
set_option linter.unusedTactic false

theorem keeps_vote {s : State} {pg : Nat} (hk : Keeps s0 s) :
    Keeps s0 (vote s pg).1 := by
  unfold vote
  repeat' (first | (extract_lets +onlyGivenNames x; first | (refine (fun hx : Keeps s0 x => ?_) ?_ <;> [clear_value x; subst x]) | (refine (fun hx : KeepsF Prod.fst s0 x => ?_) ?_ <;> [(clear_value x; replace hx := hx.fst); (subst x; refine KeepsF.ofFst ?_)]) | (have _f := fun a => x a; clear _f; subst x) | clear_value x) | with_reducible assumption | with_reducible apply keeps_hwFault | with_reducible refine Keeps.ite1 ?_ ?_ | with_reducible refine Keeps.ite ?_ ?_ | split | fail_if_no_progress (with_reducible apply Keeps.update) | intro _ _ | dsimp only)

theorem keeps_commitPage {e : Nat} {s : State} {pg : Nat} (hk : Keeps s0 s) :
    Keeps s0 (commitPage e s pg) := by
  unfold commitPage
  repeat' (first | (extract_lets +onlyGivenNames x; first | (refine (fun hx : Keeps s0 x => ?_) ?_ <;> [clear_value x; subst x]) | (refine (fun hx : KeepsF Prod.fst s0 x => ?_) ?_ <;> [(clear_value x; replace hx := hx.fst); (subst x; refine KeepsF.ofFst ?_)]) | (have _f := fun a => x a; clear _f; subst x) | clear_value x) | with_reducible assumption | with_reducible apply keeps_setReg | with_reducible apply keeps_raise | with_reducible apply keeps_wf | with_reducible refine Keeps.foldl (fun _ _ _ => ?_) ?_ | with_reducible refine Keeps.foldl1 (fun _ _ _ => ?_) ?_ | split | fail_if_no_progress (with_reducible apply Keeps.update) | dsimp only)

theorem keeps_switchLayout {s : State} {spare : Bool} (hk : Keeps s0 s) :
    Keeps s0 (switchLayout s spare) := by
  unfold switchLayout
  repeat' (first | (extract_lets +onlyGivenNames x; first | (refine (fun hx : Keeps s0 x => ?_) ?_ <;> [clear_value x; subst x]) | (refine (fun hx : KeepsF Prod.fst s0 x => ?_) ?_ <;> [(clear_value x; replace hx := hx.fst); (subst x; refine KeepsF.ofFst ?_)]) | (have _f := fun a => x a; clear _f; subst x) | clear_value x) | with_reducible assumption | with_reducible apply keeps_clearMem | with_reducible apply keeps_updSub | with_reducible apply keeps_dramRespond | with_reducible apply keeps_releaseAcks | with_reducible apply keeps_placeFreed | with_reducible refine Keeps.ite1 ?_ ?_ | with_reducible refine Keeps.ite ?_ ?_ | with_reducible refine Keeps.foldl (fun _ _ _ => ?_) ?_ | with_reducible refine Keeps.foldl1 (fun _ _ _ => ?_) ?_ | split | fail_if_no_progress (with_reducible apply Keeps.update) | intro _ _ | dsimp only)

theorem keeps_enableSource {s : State} {k : Nat} (hk : Keeps s0 s) :
    Keeps s0 (enableSource s k) := by
  unfold enableSource
  repeat' (first | (extract_lets +onlyGivenNames x; first | (refine (fun hx : Keeps s0 x => ?_) ?_ <;> [clear_value x; subst x]) | (refine (fun hx : KeepsF Prod.fst s0 x => ?_) ?_ <;> [(clear_value x; replace hx := hx.fst); (subst x; refine KeepsF.ofFst ?_)]) | (have _f := fun a => x a; clear _f; subst x) | clear_value x) | with_reducible assumption | with_reducible apply keeps_updSrc | fail_if_no_progress (with_reducible apply Keeps.update) | dsimp only)

theorem keeps_returnCores {s : State} (hk : Keeps s0 s) :
    Keeps s0 (returnCores s) := by
  unfold returnCores
  repeat' (first | (extract_lets +onlyGivenNames x; first | (refine (fun hx : Keeps s0 x => ?_) ?_ <;> [clear_value x; subst x]) | (refine (fun hx : KeepsF Prod.fst s0 x => ?_) ?_ <;> [(clear_value x; replace hx := hx.fst); (subst x; refine KeepsF.ofFst ?_)]) | (have _f := fun a => x a; clear _f; subst x) | clear_value x) | with_reducible assumption | with_reducible apply keeps_wf | with_reducible apply keeps_updDpt | with_reducible refine Keeps.foldl (fun _ _ _ => ?_) ?_ | with_reducible refine Keeps.foldl1 (fun _ _ _ => ?_) ?_ | split | fail_if_no_progress (with_reducible apply Keeps.update) | dsimp only)

theorem keeps_commitEffects {old : State} {pages : List Nat} {s : State} (hkold : Keeps s0 old) (hks : Keeps s0 s) :
    Keeps s0 (commitEffects old pages s) := by
  unfold commitEffects
  repeat' (first | (extract_lets +onlyGivenNames x; first | (refine (fun hx : Keeps s0 x => ?_) ?_ <;> [clear_value x; subst x]) | (refine (fun hx : KeepsF Prod.fst s0 x => ?_) ?_ <;> [(clear_value x; replace hx := hx.fst); (subst x; refine KeepsF.ofFst ?_)]) | (have _f := fun a => x a; clear _f; subst x) | clear_value x) | with_reducible assumption | with_reducible apply keeps_reinitPool | with_reducible apply keeps_switchLayout | with_reducible apply keeps_settleParts | with_reducible apply keeps_returnCores | with_reducible apply keeps_updCtx | with_reducible apply keeps_updAud | with_reducible apply keeps_historyRestart | with_reducible apply keeps_holdMedia | with_reducible apply keeps_enableSource | with_reducible refine Keeps.ite1 ?_ ?_ | with_reducible refine Keeps.ite ?_ ?_ | with_reducible refine Keeps.foldl (fun _ _ _ => ?_) ?_ | with_reducible refine Keeps.foldl1 (fun _ _ _ => ?_) ?_ | split | fail_if_no_progress (with_reducible apply Keeps.update) | intro _ _ | dsimp only)

theorem keeps_commitPages {s : State} {pages : List Nat} {e : Nat} (hk : Keeps s0 s) :
    Keeps s0 (commitPages s pages e) := by
  unfold commitPages
  repeat' (first | with_reducible assumption | with_reducible apply keeps_commitEffects | with_reducible apply keeps_commitPage | with_reducible refine Keeps.foldl (fun _ _ _ => ?_) ?_ | with_reducible refine Keeps.foldl1 (fun _ _ _ => ?_) ?_ | dsimp only)

theorem keeps_seamEnd {s : State} {result : Nat} {cause : Nat} {e : Nat} (hk : Keeps s0 s) :
    Keeps s0 (seamEnd s result cause e) := by
  unfold seamEnd
  repeat' (first | (extract_lets +onlyGivenNames x; first | (refine (fun hx : Keeps s0 x => ?_) ?_ <;> [clear_value x; subst x]) | (refine (fun hx : KeepsF Prod.fst s0 x => ?_) ?_ <;> [(clear_value x; replace hx := hx.fst); (subst x; refine KeepsF.ofFst ?_)]) | (have _f := fun a => x a; clear _f; subst x) | clear_value x) | with_reducible assumption | with_reducible apply keeps_setReg | with_reducible apply keeps_bump | with_reducible apply keeps_wf | with_reducible refine Keeps.ite ?_ ?_ | split | dsimp only)

theorem keeps_seamCommit {s : State} (hk : Keeps s0 s) :
    Keeps s0 (seamCommit s) := by
  unfold seamCommit
  repeat' (first | (extract_lets +onlyGivenNames x; first | (refine (fun hx : Keeps s0 x => ?_) ?_ <;> [clear_value x; subst x]) | (refine (fun hx : KeepsF Prod.fst s0 x => ?_) ?_ <;> [(clear_value x; replace hx := hx.fst); (subst x; refine KeepsF.ofFst ?_)]) | (have _f := fun a => x a; clear _f; subst x) | clear_value x) | with_reducible assumption | with_reducible apply keeps_commitPages | with_reducible apply keeps_seamEnd | with_reducible apply keeps_wf | with_reducible apply keeps_raise | with_reducible apply keeps_toRecorder | with_reducible refine Keeps.ite ?_ ?_ | split | dsimp only)

theorem keeps_seamAbort {s : State} {cause : Nat} (hk : Keeps s0 s) :
    Keeps s0 (seamAbort s cause) := by
  unfold seamAbort
  repeat' (first | with_reducible assumption | with_reducible apply keeps_seamCommit | with_reducible apply keeps_raise | with_reducible apply keeps_seamEnd | with_reducible refine Keeps.ite ?_ ?_ | split | dsimp only)

theorem keeps_seamLoses {s : State} {isl : Nat} (hk : Keeps s0 s) :
    Keeps s0 (seamLoses s isl) := by
  unfold seamLoses
  repeat' (first | with_reducible assumption | with_reducible apply keeps_seamAbort | with_reducible refine Keeps.ite ?_ ?_ | split | dsimp only)

theorem keeps_seamResets {s : State} {pg : Nat} (hk : Keeps s0 s) :
    Keeps s0 (seamResets s pg) := by
  unfold seamResets
  repeat' (first | with_reducible assumption | with_reducible apply keeps_seamAbort | with_reducible refine Keeps.ite ?_ ?_ | split | dsimp only)

theorem keeps_seamSoftReset {s : State} (hk : Keeps s0 s) :
    Keeps s0 (seamSoftReset s) := by
  unfold seamSoftReset
  repeat' (first | with_reducible assumption | with_reducible apply keeps_raise | with_reducible apply keeps_seamEnd | with_reducible refine Keeps.ite ?_ ?_ | split | dsimp only)

theorem keeps_seamPrepare {s : State} (hk : Keeps s0 s) :
    Keeps s0 (seamPrepare s) := by
  unfold seamPrepare
  repeat' (first | (extract_lets +onlyGivenNames x; first | (refine (fun hx : Keeps s0 x => ?_) ?_ <;> [clear_value x; subst x]) | (refine (fun hx : KeepsF Prod.fst s0 x => ?_) ?_ <;> [(clear_value x; replace hx := hx.fst); (subst x; refine KeepsF.ofFst ?_)]) | (have _f := fun a => x a; clear _f; subst x) | clear_value x) | with_reducible assumption | with_reducible apply keeps_setReg | with_reducible apply keeps_wf | with_reducible refine Keeps.foldl (fun _ _ _ => ?_) ?_ | with_reducible refine Keeps.foldl1 (fun _ _ _ => ?_) ?_ | fail_if_no_progress (with_reducible apply Keeps.update) | dsimp only)

theorem keeps_seamCommand {s : State} {op : Nat} (hk : Keeps s0 s) :
    Keeps s0 (seamCommand s op) := by
  unfold seamCommand
  repeat' (first | (extract_lets +onlyGivenNames x; first | (refine (fun hx : Keeps s0 x => ?_) ?_ <;> [clear_value x; subst x]) | (refine (fun hx : KeepsF Prod.fst s0 x => ?_) ?_ <;> [(clear_value x; replace hx := hx.fst); (subst x; refine KeepsF.ofFst ?_)]) | (have _f := fun a => x a; clear _f; subst x) | clear_value x) | with_reducible assumption | with_reducible apply keeps_seamPrepare | with_reducible apply keeps_seamAbort | split | fail_if_no_progress (with_reducible apply Keeps.update) | dsimp only)

theorem keeps_captureMismatch {s : State} (hk : Keeps s0 s) :
    Keeps s0 (captureMismatch s) := by
  unfold captureMismatch
  repeat' (first | (extract_lets +onlyGivenNames x; first | (refine (fun hx : Keeps s0 x => ?_) ?_ <;> [clear_value x; subst x]) | (refine (fun hx : KeepsF Prod.fst s0 x => ?_) ?_ <;> [(clear_value x; replace hx := hx.fst); (subst x; refine KeepsF.ofFst ?_)]) | (have _f := fun a => x a; clear _f; subst x) | clear_value x) | with_reducible assumption | with_reducible apply keeps_hwFault | with_reducible refine Keeps.ite1 ?_ ?_ | with_reducible refine Keeps.ite ?_ ?_ | with_reducible refine Keeps.foldl (fun _ _ _ => ?_) ?_ | with_reducible refine Keeps.foldl1 (fun _ _ _ => ?_) ?_ | split | intro _ _ | dsimp only)

theorem keeps_execSeamCheckDone {s : State} (hk : Keeps s0 s) :
    KeepsO s0 (execSeamCheckDone s) := by
  unfold execSeamCheckDone
  repeat' (first | (extract_lets +onlyGivenNames x; first | (refine (fun hx : Keeps s0 x => ?_) ?_ <;> [clear_value x; subst x]) | (refine (fun hx : KeepsF Prod.fst s0 x => ?_) ?_ <;> [(clear_value x; replace hx := hx.fst); (subst x; refine KeepsF.ofFst ?_)]) | (have _f := fun a => x a; clear _f; subst x) | clear_value x) | with_reducible assumption | with_reducible apply keeps_captureMismatch | with_reducible apply keeps_seamAbort | with_reducible apply keeps_setReg | with_reducible apply keeps_wf | with_reducible refine KeepsO.next ?_ | with_reducible refine KeepsO.ite ?_ ?_ | with_reducible refine Keeps.ite1 ?_ ?_ | with_reducible refine Keeps.ite ?_ ?_ | split | fail_if_no_progress (with_reducible apply Keeps.update) | dsimp only)

theorem keeps_votes {a0 : List Nat} {a1 : State} (hk : Keeps s0 a1) : Keeps s0 (votes a0 a1).1 := by
  induction a0 generalizing a1 with
  | nil => exact hk
  | cons y ys ihk => exact Keeps.pairP rfl (ihk (keeps_vote hk))

theorem keeps_seamVoted {s : State} {cannot : List (Nat × Nat)} (h : Keeps s0 s) : Keeps s0 (seamVoted s cannot) := by
  cases cannot with
  | nil => exact keeps_wf h
  | cons y ys => exact keeps_seamAbort (keeps_setReg (keeps_setReg (keeps_setReg h)))

theorem keeps_execSeamVotesDone {s : State} (hk : Keeps s0 s) : KeepsO s0 (execSeamVotesDone s) :=
  KeepsO.ite (KeepsO.next hk) (KeepsO.next (keeps_seamVoted (keeps_votes hk)))

theorem keeps_execSeamCommit {s : State} (hk : Keeps s0 s) :
    KeepsO s0 (execSeamCommit s) := by
  unfold execSeamCommit
  repeat' (first | with_reducible assumption | with_reducible apply keeps_seamCommit | with_reducible refine KeepsO.next ?_ | with_reducible refine KeepsO.ite ?_ ?_ | with_reducible refine Keeps.ite ?_ ?_ | with_reducible refine Keeps.ite1 ?_ ?_ | split | dsimp only)

theorem keeps_execSeamTimeout {s : State} (hk : Keeps s0 s) :
    KeepsO s0 (execSeamTimeout s) := by
  unfold execSeamTimeout
  repeat' (first | with_reducible assumption | with_reducible apply keeps_seamAbort | with_reducible refine KeepsO.next ?_ | dsimp only)

end Sys2Proof.Laws
end

