-- ==== Sys2Proof/Laws/KeepsLoader.lean ====
section
/-!
SUPPORT. Laws/KeepsLoader.lean: the operations of Machine/Loader.lean keep the queue, the clock and the form of the memory.
-/
namespace Sys2Proof.Laws
open Sys2Proof Sys2Proof.Machine

variable {s0 : State}
set_option linter.unreachableTactic false
set_option linter.unusedTactic false

theorem keeps_putImage {s : State} {a : Nat} {n : Nat} {bs : List Byte} (hk : Keeps s0 s) :
    Keeps s0 (putImage s a n bs) := by
  unfold putImage
  repeat' (first | with_reducible assumption | with_reducible apply keeps_setBytes | with_reducible apply keeps_clearMem | dsimp only)

theorem keeps_placeModel {k : Loader} {i : Nat} {f : List Byte} {me : List Byte} {e : List Byte} {v : Variant} {cores : List Nat} {off : Nat} (hk : Keeps s0 k.s) :
    Keeps s0 (placeModel k i f me e v cores off).s := by
  unfold placeModel
  repeat' (first | (extract_lets +onlyGivenNames x; first | (refine (fun hx : Keeps s0 x => ?_) ?_ <;> [clear_value x; subst x]) | (refine (fun hx : KeepsF Prod.fst s0 x => ?_) ?_ <;> [(clear_value x; replace hx := hx.fst); (subst x; refine KeepsF.ofFst ?_)])| (refine (fun hx : KeepsF Loader.s s0 x => ?_) ?_ <;> [(clear_value x; replace hx : Keeps s0 x.s := hx.keeps); (subst x; refine KeepsF.of ?_)]) | (have _f := fun a => x a; clear _f; subst x) | clear_value x) | with_reducible assumption | with_reducible apply keeps_putImage | with_reducible apply keeps_updModel | refine Keeps.iteF Loader.s ?_ ?_ | refine Keeps.foldlF Loader.s (fun _ _ _ => ?_) ?_ | with_reducible refine Keeps.ite1 ?_ ?_ | with_reducible refine Keeps.ite ?_ ?_ | with_reducible refine Keeps.foldl (fun _ _ _ => ?_) ?_ | with_reducible refine Keeps.foldl1 (fun _ _ _ => ?_) ?_ | split | fail_if_no_progress (with_reducible apply Keeps.update) | intro _ _ | dsimp only)

theorem keeps_loadModel_pickVariant {c : List Byte} {rs : List DeclRec} {k : Loader} {i : Nat} {f me e : List Byte} {vs : List Variant} {t : Loader}
    (h : pickVariant c rs k i f me e vs = .inl t) (hk : Keeps s0 k.s) : Keeps s0 t.s := by
  induction vs generalizing t with
  | nil => cases h
  | cons v vs ih =>
    have step : ∀ why rows, (match pickVariant c rs k i f me e vs with
        | .inl p => Sum.inl p
        | .inr (_, more) => Sum.inr ((why : Nat), (rows : List (List Nat)) ++ more)) = Sum.inl t → Keeps s0 t.s := by
      intro why rows h
      split at h
      · next q hq => cases h; exact ih hq
      · cases h
    unfold pickVariant at h
    dsimp only at h
    split at h
    · exact step _ _ h
    · split at h
      · exact step _ _ h
      · split at h
        · exact step _ _ h
        · split at h
          · exact step _ _ h
          · cases h; exact keeps_placeModel hk

theorem keeps_loadModel {c : List Byte} {rs : List DeclRec} {k : Loader} {i : Nat} (hk : Keeps s0 k.s) :
    Keeps s0 (loadModel c rs k i).s := by
  unfold loadModel
  dsimp only
  repeat' split
  all_goals first | exact hk | (rename_i hq _; exact keeps_loadModel_pickVariant hq hk)

theorem keeps_loadLocal {s : State} {c : List Byte} {rs : List DeclRec} (hk : Keeps s0 s) : Keeps s0 (loadLocal s c rs).s := by
  unfold loadLocal
  exact Keeps.foldlF (fun x : Loader => x.s) (fun _ _ h => keeps_loadModel h) hk

theorem keeps_showRefusal {c : List Byte} {s : State} {r : Refused} (hk : Keeps s0 s) :
    Keeps s0 (showRefusal c s r) := by
  unfold showRefusal
  repeat' (first | (extract_lets +onlyGivenNames x; first | (refine (fun hx : Keeps s0 x => ?_) ?_ <;> [clear_value x; subst x]) | (refine (fun hx : KeepsF Prod.fst s0 x => ?_) ?_ <;> [(clear_value x; replace hx := hx.fst); (subst x; refine KeepsF.ofFst ?_)]) | (have _f := fun a => x a; clear _f; subst x) | clear_value x) | with_reducible assumption | with_reducible apply keeps_softRecord | with_reducible apply keeps_setReg | with_reducible apply keeps_partEvent | with_reducible apply keeps_raise | with_reducible apply keeps_fault | with_reducible refine Keeps.foldl (fun _ _ _ => ?_) ?_ | with_reducible refine Keeps.foldl1 (fun _ _ _ => ?_) ?_ | dsimp only)

theorem keeps_bootWord {s : State} {off : Nat} {w : Nat} (hk : Keeps s0 s) :
    Keeps s0 (bootWord s off w) := by
  unfold bootWord
  repeat' (first | (extract_lets +onlyGivenNames x; first | (refine (fun hx : Keeps s0 x => ?_) ?_ <;> [clear_value x; subst x]) | (refine (fun hx : KeepsF Prod.fst s0 x => ?_) ?_ <;> [(clear_value x; replace hx := hx.fst); (subst x; refine KeepsF.ofFst ?_)]) | (have _f := fun a => x a; clear _f; subst x) | clear_value x) | with_reducible assumption | with_reducible apply keeps_setReg | split | fail_if_no_progress (with_reducible apply Keeps.update) | dsimp only)

theorem keeps_bootWords {s : State} {l : List (Nat × Nat)} (hk : Keeps s0 s) :
    Keeps s0 (bootWords s l) := by
  unfold bootWords
  repeat' (first | with_reducible assumption | with_reducible apply keeps_bootWord | with_reducible refine Keeps.foldl (fun _ _ _ => ?_) ?_ | with_reducible refine Keeps.foldl1 (fun _ _ _ => ?_) ?_ | dsimp only)

theorem keeps_applyRecord {s : State} {r : DeclRec} (hk : Keeps s0 s) :
    Keeps s0 (applyRecord s r) := by
  unfold applyRecord
  repeat' (first | (extract_lets +onlyGivenNames x; first | (refine (fun hx : Keeps s0 x => ?_) ?_ <;> [clear_value x; subst x]) | (refine (fun hx : KeepsF Prod.fst s0 x => ?_) ?_ <;> [(clear_value x; replace hx := hx.fst); (subst x; refine KeepsF.ofFst ?_)]) | (have _f := fun a => x a; clear _f; subst x) | clear_value x) | with_reducible assumption | with_reducible apply keeps_bootWords | with_reducible apply keeps_putCtx | with_reducible apply keeps_setBytes | split | dsimp only)

theorem keeps_showQueues {rs : List DeclRec} {s : State} {p : Nat} (hk : Keeps s0 s) :
    Keeps s0 (showQueues rs s p) := by
  unfold showQueues
  repeat' (first | (extract_lets +onlyGivenNames x; first | (refine (fun hx : Keeps s0 x => ?_) ?_ <;> [clear_value x; subst x]) | (refine (fun hx : KeepsF Prod.fst s0 x => ?_) ?_ <;> [(clear_value x; replace hx := hx.fst); (subst x; refine KeepsF.ofFst ?_)]) | (have _f := fun a => x a; clear _f; subst x) | clear_value x) | with_reducible assumption | with_reducible apply keeps_updDpt | with_reducible refine Keeps.foldl (fun _ _ _ => ?_) ?_ | with_reducible refine Keeps.foldl1 (fun _ _ _ => ?_) ?_ | split | fail_if_no_progress (with_reducible apply Keeps.update) | dsimp only)

theorem keeps_applyManifest {s : State} {c : List Byte} {rs : List DeclRec} (hk : Keeps s0 s) :
    Keeps s0 (applyManifest s c rs) := by
  unfold applyManifest
  repeat' (first | (extract_lets +onlyGivenNames x; first | (refine (fun hx : Keeps s0 x => ?_) ?_ <;> [clear_value x; subst x]) | (refine (fun hx : KeepsF Prod.fst s0 x => ?_) ?_ <;> [(clear_value x; replace hx := hx.fst); (subst x; refine KeepsF.ofFst ?_)]) | (have _f := fun a => x a; clear _f; subst x) | clear_value x) | with_reducible assumption | with_reducible apply keeps_bootWords | with_reducible apply keeps_showQueues | with_reducible apply keeps_applyRecord | with_reducible apply keeps_updPlb | with_reducible apply keeps_wb | with_reducible apply keeps_setReg | with_reducible apply keeps_seamCommit | with_reducible refine Keeps.foldl (fun _ _ _ => ?_) ?_ | with_reducible refine Keeps.foldl1 (fun _ _ _ => ?_) ?_ | fail_if_no_progress (with_reducible apply Keeps.update) | dsimp only)

theorem keeps_enableQueues {s : State} {rs : List DeclRec} (hk : Keeps s0 s) :
    Keeps s0 (enableQueues s rs) := by
  unfold enableQueues
  repeat' (first | with_reducible assumption | with_reducible apply keeps_enableQueue | with_reducible refine Keeps.foldl (fun _ _ _ => ?_) ?_ | with_reducible refine Keeps.foldl1 (fun _ _ _ => ?_) ?_ | dsimp only)

theorem keeps_execBootEnable {s : State} (hk : Keeps s0 s) :
    KeepsO s0 (execBootEnable s) := by
  unfold execBootEnable
  repeat' (first | (extract_lets +onlyGivenNames x; first | (refine (fun hx : Keeps s0 x => ?_) ?_ <;> [clear_value x; subst x]) | (refine (fun hx : KeepsF Prod.fst s0 x => ?_) ?_ <;> [(clear_value x; replace hx := hx.fst); (subst x; refine KeepsF.ofFst ?_)]) | (refine (fun hx : KeepsF Loader.s s0 x => ?_) ?_ <;> [(clear_value x; replace hx : Keeps s0 x.s := hx.keeps); (subst x; refine KeepsF.of ?_)]) | (have _f := fun a => x a; clear _f; subst x) | clear_value x) | with_reducible assumption | with_reducible apply keeps_loadLocal | with_reducible apply keeps_enableQueues | with_reducible apply keeps_applyManifest | with_reducible apply keeps_enterService | with_reducible apply keeps_showRefusal | with_reducible apply keeps_Loader_s | with_reducible apply keeps_updDpt | with_reducible apply keeps_settleParts | with_reducible apply keeps_bootEnds | with_reducible apply keeps_openLedger | with_reducible refine KeepsO.next ?_ | refine Keeps.iteF Loader.s ?_ ?_ | refine Keeps.foldlF Loader.s (fun _ _ _ => ?_) ?_ | with_reducible refine Keeps.foldl (fun _ _ _ => ?_) ?_ | with_reducible refine KeepsO.ite ?_ ?_ | with_reducible refine Keeps.ite ?_ ?_ | with_reducible refine Keeps.ite1 ?_ ?_ | with_reducible refine Keeps.foldl (fun _ _ _ => ?_) ?_ | with_reducible refine Keeps.foldl1 (fun _ _ _ => ?_) ?_ | split | fail_if_no_progress (with_reducible apply Keeps.update) | dsimp only)

theorem keeps_execStreamEnable {s : State} (hk : Keeps s0 s) :
    KeepsO s0 (execStreamEnable s) := by
  unfold execStreamEnable
  repeat' (first | (extract_lets +onlyGivenNames x; first | (refine (fun hx : Keeps s0 x => ?_) ?_ <;> [clear_value x; subst x]) | (refine (fun hx : KeepsF Prod.fst s0 x => ?_) ?_ <;> [(clear_value x; replace hx := hx.fst); (subst x; refine KeepsF.ofFst ?_)]) | (have _f := fun a => x a; clear _f; subst x) | clear_value x) | with_reducible assumption | with_reducible apply keeps_enableSource | with_reducible apply keeps_setReg | with_reducible refine KeepsO.next ?_ | with_reducible refine KeepsO.ite ?_ ?_ | with_reducible refine Keeps.ite ?_ ?_ | with_reducible refine Keeps.ite1 ?_ ?_ | with_reducible refine Keeps.foldl (fun _ _ _ => ?_) ?_ | with_reducible refine Keeps.foldl1 (fun _ _ _ => ?_) ?_ | fail_if_no_progress (with_reducible apply Keeps.update) | split | dsimp only)

end Sys2Proof.Laws
end

