-- ==== Sys2Proof/Laws/KeepsPower.lean ====
section
/-!
SUPPORT. Laws/KeepsPower.lean: the operations of Machine/Power.lean keep the queue, the clock and the form of the memory.
-/
namespace Sys2Proof.Laws
open Sys2Proof Sys2Proof.Machine

variable {s0 : State}
set_option linter.unreachableTactic false
set_option linter.unusedTactic false

theorem keeps_changePower {s : State} {n : Nat} {f : Island → Island} (hk : Keeps s0 s) :
    Keeps s0 (changePower s n f) := by
  unfold changePower
  repeat' (first | with_reducible assumption | with_reducible apply keeps_changeIsland | with_reducible apply keeps_seamLoses | with_reducible refine Keeps.ite ?_ ?_ | split | dsimp only)

theorem keeps_askState {s : State} {n : Nat} {t : IslState} (hk : Keeps s0 s) :
    Keeps s0 (askState s n t) := by
  unfold askState
  repeat' (first | with_reducible assumption | with_reducible apply keeps_updIsl | with_reducible apply keeps_changePower | with_reducible refine Keeps.ite ?_ ?_ | fail_if_no_progress (with_reducible apply Keeps.update) | split | dsimp only)

theorem keeps_newPolicy {s : State} {n : Nat} (hk : Keeps s0 s) :
    Keeps s0 (newPolicy s n) := by
  unfold newPolicy
  repeat' (first | with_reducible assumption | with_reducible apply keeps_askState | with_reducible apply keeps_wake | with_reducible apply keeps_updIsl | with_reducible refine Keeps.ite ?_ ?_ | split | fail_if_no_progress (with_reducible apply Keeps.update) | dsimp only)

theorem keeps_execOpPointStepDone {isl : Nat} {s : State} (hk : Keeps s0 s) :
    KeepsO s0 (execOpPointStepDone isl s) := by
  unfold execOpPointStepDone
  repeat' (first | (extract_lets +onlyGivenNames x; first | (refine (fun hx : Keeps s0 x => ?_) ?_ <;> [clear_value x; subst x]) | (refine (fun hx : KeepsF Prod.fst s0 x => ?_) ?_ <;> [(clear_value x; replace hx := hx.fst); (subst x; refine KeepsF.ofFst ?_)]) | (have _f := fun a => x a; clear _f; subst x) | clear_value x) | with_reducible assumption | with_reducible apply keeps_changePower | with_reducible refine KeepsO.next ?_ | with_reducible refine KeepsO.ite ?_ ?_ | with_reducible refine Keeps.ite1 ?_ ?_ | with_reducible refine Keeps.ite ?_ ?_ | split | intro _ _ | dsimp only)

theorem keeps_execIslandGate {isl : Nat} {retain : Bool} {s : State} (hk : Keeps s0 s) :
    KeepsO s0 (execIslandGate isl retain s) := by
  unfold execIslandGate
  repeat' (first | (extract_lets +onlyGivenNames x; first | (refine (fun hx : Keeps s0 x => ?_) ?_ <;> [clear_value x; subst x]) | (refine (fun hx : KeepsF Prod.fst s0 x => ?_) ?_ <;> [(clear_value x; replace hx := hx.fst); (subst x; refine KeepsF.ofFst ?_)]) | (have _f := fun a => x a; clear _f; subst x) | clear_value x) | with_reducible assumption | with_reducible apply keeps_askState | with_reducible refine KeepsO.next ?_ | with_reducible refine KeepsO.ite ?_ ?_ | with_reducible refine Keeps.ite1 ?_ ?_ | with_reducible refine Keeps.ite ?_ ?_ | split | dsimp only)

theorem keeps_execIslandPowerUp {isl : Nat} {s : State} (hk : Keeps s0 s) :
    KeepsO s0 (execIslandPowerUp isl s) := by
  unfold execIslandPowerUp
  repeat' (first | (extract_lets +onlyGivenNames x; first | (refine (fun hx : Keeps s0 x => ?_) ?_ <;> [clear_value x; subst x]) | (refine (fun hx : KeepsF Prod.fst s0 x => ?_) ?_ <;> [(clear_value x; replace hx := hx.fst); (subst x; refine KeepsF.ofFst ?_)]) | (have _f := fun a => x a; clear _f; subst x) | clear_value x) | with_reducible assumption | with_reducible apply keeps_updIsl | with_reducible apply keeps_loseEngines | with_reducible refine KeepsO.next ?_ | with_reducible refine KeepsO.ite ?_ ?_ | with_reducible refine Keeps.ite1 ?_ ?_ | with_reducible refine Keeps.ite ?_ ?_ | split | intro _ _ | dsimp only)

theorem keeps_execIslandInitDone {isl : Nat} {s : State} (hk : Keeps s0 s) :
    KeepsO s0 (execIslandInitDone isl s) := by
  unfold execIslandInitDone
  repeat' (first | (extract_lets +onlyGivenNames x; first | (refine (fun hx : Keeps s0 x => ?_) ?_ <;> [clear_value x; subst x]) | (refine (fun hx : KeepsF Prod.fst s0 x => ?_) ?_ <;> [(clear_value x; replace hx := hx.fst); (subst x; refine KeepsF.ofFst ?_)]) | (have _f := fun a => x a; clear _f; subst x) | clear_value x) | with_reducible assumption | with_reducible apply keeps_updIsl | with_reducible apply keeps_requestPoint | with_reducible refine KeepsO.next ?_ | with_reducible refine KeepsO.ite ?_ ?_ | with_reducible refine Keeps.ite1 ?_ ?_ | with_reducible refine Keeps.ite ?_ ?_ | split | intro _ _ | dsimp only)

theorem keeps_withdrawFenced {s : State} {n : Nat} (hk : Keeps s0 s) :
    Keeps s0 (withdrawFenced s n) := by
  unfold withdrawFenced
  repeat' (first | (extract_lets +onlyGivenNames x; first | (refine (fun hx : Keeps s0 x => ?_) ?_ <;> [clear_value x; subst x]) | (refine (fun hx : KeepsF Prod.fst s0 x => ?_) ?_ <;> [(clear_value x; replace hx := hx.fst); (subst x; refine KeepsF.ofFst ?_)]) | (have _f := fun a => x a; clear _f; subst x) | clear_value x) | with_reducible assumption | with_reducible apply keeps_raise | with_reducible apply keeps_hwFault | with_reducible apply keeps_wb | with_reducible refine Keeps.ite ?_ ?_ | split | dsimp only)

theorem keeps_fenceUnit {s : State} {unit : Nat} (hk : Keeps s0 s) :
    Keeps s0 (fenceUnit s unit) := by
  unfold fenceUnit
  repeat' (first | (extract_lets +onlyGivenNames x; first | (refine (fun hx : Keeps s0 x => ?_) ?_ <;> [clear_value x; subst x]) | (refine (fun hx : KeepsF Prod.fst s0 x => ?_) ?_ <;> [(clear_value x; replace hx := hx.fst); (subst x; refine KeepsF.ofFst ?_)]) | (have _f := fun a => x a; clear _f; subst x) | clear_value x) | with_reducible assumption | with_reducible apply keeps_answer | with_reducible refine Keeps.ite ?_ ?_ | fail_if_no_progress (with_reducible apply Keeps.update) | split | dsimp only)

theorem keeps_fenceOutcome {s : State} {n : Nat} (hk : Keeps s0 s) :
    Keeps s0 (fenceOutcome s n) := by
  unfold fenceOutcome
  repeat' (first | with_reducible assumption | with_reducible apply keeps_updDpt | with_reducible apply keeps_withdrawFenced | with_reducible apply keeps_fenceUnit | with_reducible apply keeps_fenceSub | with_reducible apply keeps_answerFenced | with_reducible apply keeps_stallSource | with_reducible refine Keeps.ite ?_ ?_ | with_reducible refine Keeps.foldl (fun _ _ _ => ?_) ?_ | with_reducible refine Keeps.foldl1 (fun _ _ _ => ?_) ?_ | fail_if_no_progress (with_reducible apply Keeps.update) | split | dsimp only)

theorem keeps_islandFence {isl : Nat} {s : State} (hk : Keeps s0 s) :
    Keeps s0 (islandFence isl s) := by
  unfold islandFence
  repeat' (first | (extract_lets +onlyGivenNames x; first | (refine (fun hx : Keeps s0 x => ?_) ?_ <;> [clear_value x; subst x]) | (refine (fun hx : KeepsF Prod.fst s0 x => ?_) ?_ <;> [(clear_value x; replace hx := hx.fst); (subst x; refine KeepsF.ofFst ?_)]) | (have _f := fun a => x a; clear _f; subst x) | clear_value x) | with_reducible assumption | with_reducible apply keeps_updIsl | with_reducible apply keeps_seamLoses | with_reducible apply keeps_step | with_reducible apply keeps_settle | with_reducible apply keeps_fenceOutcome | with_reducible refine Keeps.ite1 ?_ ?_ | with_reducible refine Keeps.ite ?_ ?_ | split | fail_if_no_progress (with_reducible apply Keeps.update) | intro _ _ | dsimp only)

theorem keeps_execSramScrubStep {bank : Nat} {busy : Bool} {s : State} (hk : Keeps s0 s) :
    KeepsO s0 (execSramScrubStep bank busy s) := by
  unfold execSramScrubStep
  repeat' (first | (extract_lets +onlyGivenNames x; first | (refine (fun hx : Keeps s0 x => ?_) ?_ <;> [clear_value x; subst x]) | (refine (fun hx : KeepsF Prod.fst s0 x => ?_) ?_ <;> [(clear_value x; replace hx := hx.fst); (subst x; refine KeepsF.ofFst ?_)]) | (have _f := fun a => x a; clear _f; subst x) | clear_value x) | with_reducible assumption | with_reducible apply keeps_checkRange | with_reducible apply keeps_setReg | with_reducible refine KeepsO.next ?_ | with_reducible refine KeepsO.ite ?_ ?_ | with_reducible refine Keeps.ite1 ?_ ?_ | with_reducible refine Keeps.ite ?_ ?_ | split | fail_if_no_progress (with_reducible apply Keeps.update) | intro _ _ | dsimp only)

end Sys2Proof.Laws
end

