-- ==== Sys2Proof/Laws/KeepsSoftReset.lean ====
section
/-!
SUPPORT. Laws/KeepsSoftReset.lean: the operations of Machine/SoftReset.lean keep the queue, the clock and the form of the memory.
-/
namespace Sys2Proof.Laws
open Sys2Proof Sys2Proof.Machine

variable {s0 : State}
set_option linter.unreachableTactic false
set_option linter.unusedTactic false

theorem keeps_resetJob {n : Nat} {urgent : Bool} {s : State} (hk : Keeps s0 s) :
    Keeps s0 (resetJob n urgent s) := by
  unfold resetJob
  repeat' (first | (extract_lets +onlyGivenNames x; first | (refine (fun hx : Keeps s0 x => ?_) ?_ <;> [clear_value x; subst x]) | (refine (fun hx : KeepsF Prod.fst s0 x => ?_) ?_ <;> [(clear_value x; replace hx := hx.fst); (subst x; refine KeepsF.ofFst ?_)]) | (have _f := fun a => x a; clear _f; subst x) | clear_value x) | with_reducible assumption | with_reducible apply keeps_sendAbort | with_reducible apply keeps_updJobAt | with_reducible apply keeps_missAborted | with_reducible refine Keeps.ite1 ?_ ?_ | with_reducible refine Keeps.ite ?_ ?_ | split | fail_if_no_progress (with_reducible apply Keeps.update) | intro _ _ | dsimp only)

theorem keeps_resetSources {s : State} {lo : Nat} {n : Nat} (hk : Keeps s0 s) :
    Keeps s0 (resetSources s lo n) := by
  unfold resetSources
  repeat' (first | (extract_lets +onlyGivenNames x; first | (refine (fun hx : Keeps s0 x => ?_) ?_ <;> [clear_value x; subst x]) | (refine (fun hx : KeepsF Prod.fst s0 x => ?_) ?_ <;> [(clear_value x; replace hx := hx.fst); (subst x; refine KeepsF.ofFst ?_)]) | (have _f := fun a => x a; clear _f; subst x) | clear_value x) | with_reducible assumption | with_reducible apply keeps_updSrc | with_reducible apply keeps_freeOwn | with_reducible refine Keeps.ite ?_ ?_ | with_reducible refine Keeps.foldl (fun _ _ _ => ?_) ?_ | with_reducible refine Keeps.foldl1 (fun _ _ _ => ?_) ?_ | split | fail_if_no_progress (with_reducible apply Keeps.update) | dsimp only)

theorem keeps_resetDev {s : State} {e : Nat} (hk : Keeps s0 s) :
    Keeps s0 (resetDev s e) := by
  unfold resetDev
  repeat' (first | (extract_lets +onlyGivenNames x; first | (refine (fun hx : Keeps s0 x => ?_) ?_ <;> [clear_value x; subst x]) | (refine (fun hx : KeepsF Prod.fst s0 x => ?_) ?_ <;> [(clear_value x; replace hx := hx.fst); (subst x; refine KeepsF.ofFst ?_)]) | (have _f := fun a => x a; clear _f; subst x) | clear_value x) | with_reducible assumption | with_reducible apply keeps_freeOwn | with_reducible apply keeps_freePic | with_reducible apply keeps_updDev | with_reducible refine Keeps.ite1 ?_ ?_ | with_reducible refine Keeps.ite ?_ ?_ | with_reducible refine Keeps.foldl (fun _ _ _ => ?_) ?_ | with_reducible refine Keeps.foldl1 (fun _ _ _ => ?_) ?_ | split | fail_if_no_progress (with_reducible apply Keeps.update) | intro _ _ | dsimp only)

theorem keeps_resetEnl {s : State} {e : Nat} (hk : Keeps s0 s) :
    Keeps s0 (resetEnl s e) := by
  unfold resetEnl
  repeat' (first | (extract_lets +onlyGivenNames x; first | (refine (fun hx : Keeps s0 x => ?_) ?_ <;> [clear_value x; subst x]) | (refine (fun hx : KeepsF Prod.fst s0 x => ?_) ?_ <;> [(clear_value x; replace hx := hx.fst); (subst x; refine KeepsF.ofFst ?_)]) | (have _f := fun a => x a; clear _f; subst x) | clear_value x) | with_reducible assumption | with_reducible apply keeps_lanesDone | with_reducible apply keeps_freeInput | with_reducible apply keeps_setEng | split | dsimp only)

theorem keeps_resetKey {s : State} (hk : Keeps s0 s) :
    Keeps s0 (resetKey s) := by
  unfold resetKey
  repeat' (first | (extract_lets +onlyGivenNames x; first | (refine (fun hx : Keeps s0 x => ?_) ?_ <;> [clear_value x; subst x]) | (refine (fun hx : KeepsF Prod.fst s0 x => ?_) ?_ <;> [(clear_value x; replace hx := hx.fst); (subst x; refine KeepsF.ofFst ?_)]) | (have _f := fun a => x a; clear _f; subst x) | clear_value x) | with_reducible assumption | with_reducible apply keeps_updKey | with_reducible apply keeps_fromHeld | with_reducible refine Keeps.foldl (fun _ _ _ => ?_) ?_ | with_reducible refine Keeps.foldl1 (fun _ _ _ => ?_) ?_ | split | fail_if_no_progress (with_reducible apply Keeps.update) | dsimp only)

theorem keeps_resetSfl {s : State} (hk : Keeps s0 s) :
    Keeps s0 (resetSfl s) := by
  unfold resetSfl
  repeat' (first | (extract_lets +onlyGivenNames x; first | (refine (fun hx : Keeps s0 x => ?_) ?_ <;> [clear_value x; subst x]) | (refine (fun hx : KeepsF Prod.fst s0 x => ?_) ?_ <;> [(clear_value x; replace hx := hx.fst); (subst x; refine KeepsF.ofFst ?_)]) | (have _f := fun a => x a; clear _f; subst x) | clear_value x) | with_reducible assumption | with_reducible apply keeps_updSfl | with_reducible apply keeps_sflWaiting | with_reducible refine Keeps.foldl (fun _ _ _ => ?_) ?_ | with_reducible refine Keeps.foldl1 (fun _ _ _ => ?_) ?_ | split | fail_if_no_progress (with_reducible apply Keeps.update) | dsimp only)

theorem keeps_resetPlan {s : State} (hk : Keeps s0 s) :
    Keeps s0 (resetPlan s) := by
  unfold resetPlan
  repeat' (first | (extract_lets +onlyGivenNames x; first | (refine (fun hx : Keeps s0 x => ?_) ?_ <;> [clear_value x; subst x]) | (refine (fun hx : KeepsF Prod.fst s0 x => ?_) ?_ <;> [(clear_value x; replace hx := hx.fst); (subst x; refine KeepsF.ofFst ?_)]) | (have _f := fun a => x a; clear _f; subst x) | clear_value x) | with_reducible assumption | with_reducible apply keeps_raise | with_reducible apply keeps_hwFault | with_reducible apply keeps_updPlb | with_reducible apply keeps_keyAbort | with_reducible refine Keeps.ite1 ?_ ?_ | with_reducible refine Keeps.ite ?_ ?_ | split | fail_if_no_progress (with_reducible apply Keeps.update) | intro _ _ | dsimp only [id] | dsimp only)

theorem keeps_softWork {s : State} {pg : Nat} (hk : Keeps s0 s) :
    Keeps s0 (softWork s pg) := by
  unfold softWork
  repeat' (first | (extract_lets +onlyGivenNames x; first | (refine (fun hx : Keeps s0 x => ?_) ?_ <;> [clear_value x; subst x]) | (refine (fun hx : KeepsF Prod.fst s0 x => ?_) ?_ <;> [(clear_value x; replace hx := hx.fst); (subst x; refine KeepsF.ofFst ?_)]) | (have _f := fun a => x a; clear _f; subst x) | clear_value x) | with_reducible assumption | with_reducible apply keeps_seamSoftReset | with_reducible apply keeps_resetPlan | with_reducible apply keeps_answer | with_reducible apply keeps_resetJob | with_reducible apply keeps_resetDev | with_reducible apply keeps_resetEnl | with_reducible apply keeps_resetSources | with_reducible refine Keeps.ite1 ?_ ?_ | with_reducible refine Keeps.ite ?_ ?_ | split | fail_if_no_progress (with_reducible apply Keeps.update) | intro _ _ | dsimp only)

theorem keeps_softAfter {old : State} {s : State} {pg : Nat} (hk : Keeps s0 s) :
    Keeps s0 (softAfter old s pg) := by
  unfold softAfter
  repeat' (first | with_reducible assumption | with_reducible apply keeps_cshSoftReset | with_reducible apply keeps_resetKey | with_reducible apply keeps_resetSfl | with_reducible apply keeps_wb | with_reducible apply keeps_wf | with_reducible refine Keeps.foldl (fun _ _ _ => ?_) ?_ | with_reducible refine Keeps.foldl1 (fun _ _ _ => ?_) ?_ | split | dsimp only)

theorem keeps_softReset {s : State} {pg : Nat} (hk : Keeps s0 s) :
    Keeps s0 (softReset s pg) := by
  unfold softReset
  repeat' (first | (extract_lets +onlyGivenNames x; first | (refine (fun hx : Keeps s0 x => ?_) ?_ <;> [clear_value x; subst x]) | (refine (fun hx : KeepsF Prod.fst s0 x => ?_) ?_ <;> [(clear_value x; replace hx := hx.fst); (subst x; refine KeepsF.ofFst ?_)]) | (have _f := fun a => x a; clear _f; subst x) | clear_value x) | with_reducible assumption | with_reducible apply keeps_softWork | with_reducible apply keeps_seamResets | with_reducible apply keeps_resetRegs | with_reducible apply keeps_wb | with_reducible apply keeps_softAfter | dsimp only)

theorem keeps_execSoftResetDone {page : Nat} {s : State} (hk : Keeps s0 s) :
    KeepsO s0 (execSoftResetDone page s) := by
  unfold execSoftResetDone
  repeat' (first | with_reducible assumption | with_reducible apply keeps_wb | with_reducible refine KeepsO.next ?_ | with_reducible refine KeepsO.ite ?_ ?_ | with_reducible refine Keeps.ite ?_ ?_ | with_reducible refine Keeps.ite1 ?_ ?_ | split | dsimp only)

end Sys2Proof.Laws
end

