-- ==== Sys2Proof/Laws/KeepsRegAccess.lean ====
section
/-!
SUPPORT. Laws/KeepsRegAccess.lean: the operations of Machine/RegAccess.lean keep the queue, the clock and the form of the memory.
-/
namespace Sys2Proof.Laws
open Sys2Proof Sys2Proof.Machine

variable {s0 : State}
set_option linter.unreachableTactic false
set_option linter.unusedTactic false

theorem keeps_regRead {s : State} {req : Req} {off : Nat} (hk : Keeps s0 s) :
    Keeps s0 (regRead s req off).1 := by
  unfold regRead
  repeat' (first | (extract_lets +onlyGivenNames x; first | (refine (fun hx : Keeps s0 x => ?_) ?_ <;> [clear_value x; subst x]) | (refine (fun hx : KeepsF Prod.fst s0 x => ?_) ?_ <;> [(clear_value x; replace hx := hx.fst); (subst x; refine KeepsF.ofFst ?_)]) | (have _f := fun a => x a; clear _f; subst x) | clear_value x) | with_reducible assumption | with_reducible apply keeps_fault | with_reducible apply keeps_readReg | with_reducible apply keeps_wake | with_reducible refine Keeps.ite1 ?_ ?_ | with_reducible refine Keeps.ite ?_ ?_ | split | dsimp only)

theorem keeps_regStore {s : State} {req : Req} {r : RegSpec} {off : Nat} {w : Nat} (hk : Keeps s0 s) :
    Keeps s0 (regStore s req r off w) := by
  unfold regStore
  repeat' (first | (extract_lets +onlyGivenNames x; first | (refine (fun hx : Keeps s0 x => ?_) ?_ <;> [clear_value x; subst x]) | (refine (fun hx : KeepsF Prod.fst s0 x => ?_) ?_ <;> [(clear_value x; replace hx := hx.fst); (subst x; refine KeepsF.ofFst ?_)]) | (have _f := fun a => x a; clear _f; subst x) | clear_value x) | with_reducible assumption | with_reducible apply keeps_setReg | with_reducible refine Keeps.ite ?_ ?_ | fail_if_no_progress (with_reducible apply Keeps.update) | split | dsimp only)

theorem keeps_freshNotice {s : State} {pg : Nat} (hk : Keeps s0 s) :
    Keeps s0 (freshNotice s pg) := by
  unfold freshNotice
  repeat' (first | with_reducible assumption | with_reducible apply keeps_notify | with_reducible refine Keeps.ite ?_ ?_ | split | dsimp only)

theorem keeps_ctrlWrite {s : State} {req : Req} {r : RegSpec} {pg : Nat} {w : Nat} (hk : Keeps s0 s) :
    Keeps s0 (ctrlWrite s req r pg w) := by
  unfold ctrlWrite
  repeat' (first | (extract_lets +onlyGivenNames x; first | (refine (fun hx : Keeps s0 x => ?_) ?_ <;> [clear_value x; subst x]) | (refine (fun hx : KeepsF Prod.fst s0 x => ?_) ?_ <;> [(clear_value x; replace hx := hx.fst); (subst x; refine KeepsF.ofFst ?_)]) | (have _f := fun a => x a; clear _f; subst x) | clear_value x) | with_reducible assumption | with_reducible apply keeps_regStore | with_reducible apply keeps_fault | with_reducible apply keeps_setReg | with_reducible apply keeps_settlePage | with_reducible apply keeps_softReset | with_reducible refine Keeps.ite ?_ ?_ | split | dsimp only)

theorem keeps_flashWrite {s : State} {req : Req} {r : RegSpec} {w : Nat} (hk : Keeps s0 s) :
    Keeps s0 (flashWrite s req r w) := by
  unfold flashWrite
  repeat' (first | (extract_lets +onlyGivenNames x; first | (refine (fun hx : Keeps s0 x => ?_) ?_ <;> [clear_value x; subst x]) | (refine (fun hx : KeepsF Prod.fst s0 x => ?_) ?_ <;> [(clear_value x; replace hx := hx.fst); (subst x; refine KeepsF.ofFst ?_)]) | (have _f := fun a => x a; clear _f; subst x) | clear_value x) | with_reducible assumption | with_reducible apply keeps_regStore | with_reducible apply keeps_fault | with_reducible apply keeps_flashStart | with_reducible refine Keeps.ite ?_ ?_ | split | dsimp only)

theorem keeps_seamWrite {s : State} {req : Req} {r : RegSpec} {w : Nat} (hk : Keeps s0 s) :
    Keeps s0 (seamWrite s req r w) := by
  unfold seamWrite
  repeat' (first | (extract_lets +onlyGivenNames x; first | (refine (fun hx : Keeps s0 x => ?_) ?_ <;> [clear_value x; subst x]) | (refine (fun hx : KeepsF Prod.fst s0 x => ?_) ?_ <;> [(clear_value x; replace hx := hx.fst); (subst x; refine KeepsF.ofFst ?_)]) | (have _f := fun a => x a; clear _f; subst x) | clear_value x) | with_reducible assumption | with_reducible apply keeps_regStore | with_reducible apply keeps_fault | with_reducible apply keeps_seamCommand | with_reducible refine Keeps.ite ?_ ?_ | split | dsimp only)

theorem keeps_softwareWrite {s : State} {req : Req} {r : RegSpec} {w : Nat} (hk : Keeps s0 s) :
    Keeps s0 (softwareWrite s req r w) := by
  unfold softwareWrite
  repeat' (first | (extract_lets +onlyGivenNames x; first | (refine (fun hx : Keeps s0 x => ?_) ?_ <;> [clear_value x; subst x]) | (refine (fun hx : KeepsF Prod.fst s0 x => ?_) ?_ <;> [(clear_value x; replace hx := hx.fst); (subst x; refine KeepsF.ofFst ?_)]) | (have _f := fun a => x a; clear _f; subst x) | clear_value x) | with_reducible assumption | with_reducible apply keeps_fault | with_reducible apply keeps_regStore | with_reducible apply keeps_cshSoftware | with_reducible refine Keeps.ite ?_ ?_ | split | dsimp only)

theorem keeps_policyWrite {s : State} {req : Req} {r : RegSpec} {n : Nat} {w : Nat} (hk : Keeps s0 s) :
    Keeps s0 (policyWrite s req r n w) := by
  unfold policyWrite
  repeat' (first | with_reducible assumption | with_reducible apply keeps_fault | with_reducible apply keeps_newPolicy | with_reducible apply keeps_regStore | with_reducible refine Keeps.ite ?_ ?_ | split | dsimp only)

theorem keeps_regAct {s : State} {req : Req} {r : RegSpec} {off : Nat} {w : Nat} (hk : Keeps s0 s) :
    Keeps s0 (regAct s req r off w) := by
  unfold regAct
  repeat' (first | (extract_lets +onlyGivenNames x; first | (refine (fun hx : Keeps s0 x => ?_) ?_ <;> [clear_value x; subst x]) | (refine (fun hx : KeepsF Prod.fst s0 x => ?_) ?_ <;> [(clear_value x; replace hx := hx.fst); (subst x; refine KeepsF.ofFst ?_)]) | (have _f := fun a => x a; clear _f; subst x) | clear_value x) | with_reducible assumption | with_reducible apply keeps_regStore | with_reducible apply keeps_ctrlWrite | with_reducible apply keeps_freshNotice | with_reducible apply keeps_raiseWith | with_reducible apply keeps_policyWrite | with_reducible apply keeps_tbRate | with_reducible apply keeps_tbSlew | with_reducible apply keeps_tbStep | with_reducible apply keeps_tbLocked | with_reducible apply keeps_fault | with_reducible apply keeps_bootConfirm | with_reducible apply keeps_dieReset | with_reducible apply keeps_flashWrite | with_reducible apply keeps_updBoot | with_reducible apply keeps_safeClear | with_reducible apply keeps_clearLast | with_reducible apply keeps_inject | with_reducible apply keeps_seamWrite | with_reducible apply keeps_cshExtEnable | with_reducible apply keeps_softwareWrite | with_reducible apply keeps_updPlb | with_reducible apply keeps_settleParts | with_reducible apply keeps_qryPf | with_reducible apply keeps_ampDiag | with_reducible apply keeps_ampClear | with_reducible apply keeps_keyPfSubmit | with_reducible apply keeps_sflPfSubmit | with_reducible apply keeps_ptpPop | with_reducible apply keeps_ptpSend | with_reducible apply keeps_devResync | with_reducible refine Keeps.ite1 ?_ ?_ | with_reducible refine Keeps.ite ?_ ?_ | with_reducible refine Keeps.foldl (fun _ _ _ => ?_) ?_ | with_reducible refine Keeps.foldl1 (fun _ _ _ => ?_) ?_ | split | fail_if_no_progress (with_reducible apply Keeps.update) | intro _ _ | dsimp only)

theorem keeps_regWrite {s : State} {req : Req} {off : Nat} {w : Nat} {part : Bool} (hk : Keeps s0 s) :
    Keeps s0 (regWrite s req off w part).1 := by
  unfold regWrite
  repeat' (first | (extract_lets +onlyGivenNames x; first | (refine (fun hx : Keeps s0 x => ?_) ?_ <;> [clear_value x; subst x]) | (refine (fun hx : KeepsF Prod.fst s0 x => ?_) ?_ <;> [(clear_value x; replace hx := hx.fst); (subst x; refine KeepsF.ofFst ?_)]) | (have _f := fun a => x a; clear _f; subst x) | clear_value x) | with_reducible assumption | with_reducible apply keeps_fault | with_reducible apply keeps_wake | with_reducible apply keeps_regAct | with_reducible refine Keeps.ite1 ?_ ?_ | with_reducible refine Keeps.ite ?_ ?_ | with_reducible refine Keeps.foldl (fun _ _ _ => ?_) ?_ | with_reducible refine Keeps.foldl1 (fun _ _ _ => ?_) ?_ | split | fail_if_no_progress (with_reducible apply Keeps.update) | intro _ _ | dsimp only)

theorem keeps_pageWrite {s : State} {req : Req} {off : Nat} {n : Nat} {v : Nat} (hk : Keeps s0 s) :
    Keeps s0 (pageWrite s req off n v).1 := by
  unfold pageWrite
  repeat' (first | (extract_lets +onlyGivenNames x; first | (refine (fun hx : Keeps s0 x => ?_) ?_ <;> [clear_value x; subst x]) | (refine (fun hx : KeepsF Prod.fst s0 x => ?_) ?_ <;> [(clear_value x; replace hx := hx.fst); (subst x; refine KeepsF.ofFst ?_)]) | (have _f := fun a => x a; clear _f; subst x) | clear_value x) | with_reducible assumption | with_reducible apply keeps_regWrite | with_reducible apply keeps_wake | with_reducible refine Keeps.ite1 ?_ ?_ | with_reducible refine Keeps.ite ?_ ?_ | split | fail_if_no_progress (with_reducible apply Keeps.update) | dsimp only)

theorem keeps_readWords {req : Req} {a1 : Nat} {a2 : State} {a3 : Nat} (hk : Keeps s0 a2) :
    Keeps s0 (readWords req a1 a2 a3).1 := by
  induction a1 generalizing req a2 a3 with
  | zero =>
    unfold readWords
    repeat' (first | (extract_lets +onlyGivenNames x; first | (refine (fun hx : Keeps s0 x => ?_) ?_ <;> [clear_value x; subst x]) | (refine (fun hx : KeepsF Prod.fst s0 x => ?_) ?_ <;> [(clear_value x; replace hx := hx.fst); (subst x; refine KeepsF.ofFst ?_)]) | (have _f := fun a => x a; clear _f; subst x) | clear_value x) | with_reducible assumption | with_reducible apply keeps_regRead | with_reducible refine Keeps.ite1 ?_ ?_ | with_reducible refine Keeps.ite ?_ ?_ | split | dsimp only)
  | succ m ihk =>
    unfold readWords
    repeat' (first | (extract_lets +onlyGivenNames x; first | (refine (fun hx : Keeps s0 x => ?_) ?_ <;> [clear_value x; subst x]) | (refine (fun hx : KeepsF Prod.fst s0 x => ?_) ?_ <;> [(clear_value x; replace hx := hx.fst); (subst x; refine KeepsF.ofFst ?_)]) | (have _f := fun a => x a; clear _f; subst x) | clear_value x) | with_reducible assumption | with_reducible apply ihk | with_reducible apply keeps_regRead | with_reducible refine Keeps.ite1 ?_ ?_ | with_reducible refine Keeps.ite ?_ ?_ | split | dsimp only)

theorem keeps_pageRead {s : State} {req : Req} {off : Nat} {n : Nat} (hk : Keeps s0 s) :
    Keeps s0 (pageRead s req off n).1 := by
  unfold pageRead
  repeat' (first | (extract_lets +onlyGivenNames x; first | (refine (fun hx : Keeps s0 x => ?_) ?_ <;> [clear_value x; subst x]) | (refine (fun hx : KeepsF Prod.fst s0 x => ?_) ?_ <;> [(clear_value x; replace hx := hx.fst); (subst x; refine KeepsF.ofFst ?_)]) | (have _f := fun a => x a; clear _f; subst x) | clear_value x) | with_reducible assumption | with_reducible apply keeps_readWords | with_reducible refine Keeps.ite1 ?_ ?_ | with_reducible refine Keeps.ite ?_ ?_ | split | dsimp only)

end Sys2Proof.Laws
end

