-- ==== Sys2Proof/Laws/KeepsTableWindow.lean ====
section
/-!
SUPPORT. Laws/KeepsTableWindow.lean: the operations of Machine/TableWindow.lean keep the queue, the clock and the form of the memory.
-/
namespace Sys2Proof.Laws
open Sys2Proof Sys2Proof.Machine

variable {s0 : State}
set_option linter.unreachableTactic false
set_option linter.unusedTactic false

theorem keeps_startModel {s : State} {i : Nat} (hk : Keeps s0 s) :
    Keeps s0 (startModel s i) := by
  unfold startModel
  repeat' (first | (extract_lets +onlyGivenNames x; first | (refine (fun hx : Keeps s0 x => ?_) ?_ <;> [clear_value x; subst x]) | (refine (fun hx : KeepsF Prod.fst s0 x => ?_) ?_ <;> [(clear_value x; replace hx := hx.fst); (subst x; refine KeepsF.ofFst ?_)]) | (have _f := fun a => x a; clear _f; subst x) | clear_value x) | with_reducible assumption | with_reducible apply keeps_fresh | with_reducible apply keeps_updModel | with_reducible refine Keeps.foldl (fun _ _ _ => ?_) ?_ | with_reducible refine Keeps.foldl1 (fun _ _ _ => ?_) ?_ | fail_if_no_progress (with_reducible apply Keeps.update) | dsimp only)

theorem keeps_markModel {s : State} {i : Nat} {bs : List Byte} {poison : Bool} (hk : Keeps s0 s) :
    Keeps s0 (markModel s i bs poison) := by
  unfold markModel
  repeat' (first | (extract_lets +onlyGivenNames x; first | (refine (fun hx : Keeps s0 x => ?_) ?_ <;> [clear_value x; subst x]) | (refine (fun hx : KeepsF Prod.fst s0 x => ?_) ?_ <;> [(clear_value x; replace hx := hx.fst); (subst x; refine KeepsF.ofFst ?_)]) | (have _f := fun a => x a; clear _f; subst x) | clear_value x) | with_reducible assumption | with_reducible apply keeps_updModel | with_reducible refine Keeps.ite1 ?_ ?_ | with_reducible refine Keeps.ite ?_ ?_ | split | fail_if_no_progress (with_reducible apply Keeps.update) | intro _ _ | dsimp only)

theorem keeps_modelWrite {s : State} {req : Req} {i : Nat} {o : Nat} {bs : List Byte} {poison : Bool} (hk : Keeps s0 s) :
    Keeps s0 (modelWrite s req i o bs poison) := by
  unfold modelWrite
  repeat' (first | (extract_lets +onlyGivenNames x; first | (refine (fun hx : Keeps s0 x => ?_) ?_ <;> [clear_value x; subst x]) | (refine (fun hx : KeepsF Prod.fst s0 x => ?_) ?_ <;> [(clear_value x; replace hx := hx.fst); (subst x; refine KeepsF.ofFst ?_)]) | (have _f := fun a => x a; clear _f; subst x) | clear_value x) | with_reducible assumption | with_reducible apply keeps_fault | with_reducible apply keeps_markModel | with_reducible apply keeps_updModel | with_reducible apply keeps_startModel | with_reducible refine Keeps.ite1 ?_ ?_ | with_reducible refine Keeps.ite ?_ ?_ | split | intro _ _ | dsimp only)

theorem keeps_ctxStore {s : State} {req : Req} {q : Nat} {o : Nat} {bs : List Byte} {poison : Bool} (hk : Keeps s0 s) :
    Keeps s0 (ctxStore s req q o bs poison) := by
  unfold ctxStore
  repeat' (first | (extract_lets +onlyGivenNames x; first | (refine (fun hx : Keeps s0 x => ?_) ?_ <;> [clear_value x; subst x]) | (refine (fun hx : KeepsF Prod.fst s0 x => ?_) ?_ <;> [(clear_value x; replace hx := hx.fst); (subst x; refine KeepsF.ofFst ?_)]) | (have _f := fun a => x a; clear _f; subst x) | clear_value x) | with_reducible assumption | with_reducible apply keeps_ctxWrite | with_reducible apply keeps_markGranule | with_reducible refine Keeps.ite1 ?_ ?_ | with_reducible refine Keeps.ite ?_ ?_ | split | dsimp only)

theorem keeps_tableRead {s : State} {req : Req} {off : Nat} {n : Nat} {ue : Bool} (hk : Keeps s0 s) :
    Keeps s0 (tableRead s req off n ue).1 := by
  unfold tableRead
  repeat' (first | (extract_lets +onlyGivenNames x; first | (refine (fun hx : Keeps s0 x => ?_) ?_ <;> [clear_value x; subst x]) | (refine (fun hx : KeepsF Prod.fst s0 x => ?_) ?_ <;> [(clear_value x; replace hx := hx.fst); (subst x; refine KeepsF.ofFst ?_)]) | (have _f := fun a => x a; clear _f; subst x) | clear_value x) | with_reducible assumption | with_reducible apply keeps_fault | with_reducible apply keeps_readCtx | with_reducible apply keeps_updCsh | with_reducible apply keeps_inspectWord | with_reducible refine Keeps.ite1 ?_ ?_ | with_reducible refine Keeps.ite ?_ ?_ | split | fail_if_no_progress (with_reducible apply Keeps.update) | intro _ _ | dsimp only)

theorem keeps_tableWrite {s : State} {req : Req} {off : Nat} {bs : List Byte} {poison : Bool} (hk : Keeps s0 s) :
    Keeps s0 (tableWrite s req off bs poison).1 := by
  unfold tableWrite
  repeat' (first | (extract_lets +onlyGivenNames x; first | (refine (fun hx : Keeps s0 x => ?_) ?_ <;> [clear_value x; subst x]) | (refine (fun hx : KeepsF Prod.fst s0 x => ?_) ?_ <;> [(clear_value x; replace hx := hx.fst); (subst x; refine KeepsF.ofFst ?_)]) | (have _f := fun a => x a; clear _f; subst x) | clear_value x) | with_reducible assumption | with_reducible apply keeps_fault | with_reducible apply keeps_ctxStore | with_reducible apply keeps_modelWrite | with_reducible refine Keeps.ite1 ?_ ?_ | with_reducible refine Keeps.ite ?_ ?_ | split | fail_if_no_progress (with_reducible apply Keeps.update) | dsimp only)

theorem keeps_busLoad {s : State} {req : Req} {a : Nat} {n : Nat} (hk : Keeps s0 s) :
    Keeps s0 (busLoad s req a n).1 := by
  unfold busLoad
  repeat' (first | with_reducible assumption | with_reducible apply keeps_pageRead | with_reducible apply keeps_tableRead | with_reducible refine Keeps.ite1 ?_ ?_ | with_reducible refine Keeps.ite ?_ ?_ | split | dsimp only)

theorem keeps_busStore {s : State} {req : Req} {a : Nat} {bs : List Byte} {poison : Bool} (hk : Keeps s0 s) :
    Keeps s0 (busStore s req a bs poison).1 := by
  unfold busStore
  repeat' (first | (extract_lets +onlyGivenNames x; first | (refine (fun hx : Keeps s0 x => ?_) ?_ <;> [clear_value x; subst x]) | (refine (fun hx : KeepsF Prod.fst s0 x => ?_) ?_ <;> [(clear_value x; replace hx := hx.fst); (subst x; refine KeepsF.ofFst ?_)]) | (have _f := fun a => x a; clear _f; subst x) | clear_value x) | with_reducible assumption | with_reducible apply keeps_pageWrite | with_reducible apply keeps_tableWrite | with_reducible refine Keeps.ite1 ?_ ?_ | with_reducible refine Keeps.ite ?_ ?_ | split | dsimp only)

theorem keeps_placeLoad {s : State} {v : Via} {a : Nat} {n : Nat} (hk : Keeps s0 s) :
    Keeps s0 (placeLoad s v a n).1 := by
  unfold placeLoad
  repeat' (first | (extract_lets +onlyGivenNames x; first | (refine (fun hx : Keeps s0 x => ?_) ?_ <;> [clear_value x; subst x]) | (refine (fun hx : KeepsF Prod.fst s0 x => ?_) ?_ <;> [(clear_value x; replace hx := hx.fst); (subst x; refine KeepsF.ofFst ?_)]) | (have _f := fun a => x a; clear _f; subst x) | clear_value x) | with_reducible assumption | with_reducible apply keeps_busLoad | with_reducible apply keeps_placeRead | with_reducible refine Keeps.ite1 ?_ ?_ | with_reducible refine Keeps.ite ?_ ?_ | split | dsimp only)

theorem keeps_placeStore {s : State} {v : Via} {a : Nat} {bs : List Byte} {bad : List (Nat × Nat)} {relaxed : Bool} (hk : Keeps s0 s) :
    Keeps s0 (placeStore s v a bs bad relaxed).1 := by
  unfold placeStore
  repeat' (first | (extract_lets +onlyGivenNames x; first | (refine (fun hx : Keeps s0 x => ?_) ?_ <;> [clear_value x; subst x]) | (refine (fun hx : KeepsF Prod.fst s0 x => ?_) ?_ <;> [(clear_value x; replace hx := hx.fst); (subst x; refine KeepsF.ofFst ?_)]) | (have _f := fun a => x a; clear _f; subst x) | clear_value x) | with_reducible assumption | with_reducible apply keeps_busStore | with_reducible apply keeps_placeWrite | with_reducible refine Keeps.ite1 ?_ ?_ | with_reducible refine Keeps.ite ?_ ?_ | split | dsimp only)

theorem keeps_serveLoads {f : State → Host.Outcome State Fault Refusal} {host : List Cpl} {s1 : State} {n : Nat} {s : State} {got : List (Nat × List Byte)}
    (h1 : Keeps s0 s1) (hk : Keeps s0 s) (hf : ∀ v, Keeps s0 v → KeepsO s0 (f v)) : KeepsO s0 (serveLoads f host s1 n s got) := by
  induction n generalizing s got with
  | zero => exact KeepsO.next h1
  | succ n ih =>
    rw [serveLoads]
    obtain ⟨t, e, ht⟩ := hf _ (keeps_updIo (f := fun _ => { host := host, loads := got }) hk)
    simp only [e]
    split
    · exact KeepsO.next (keeps_holdStuck h1)
    · split
      · exact KeepsO.next ht
      · exact ih (keeps_busLoad hk)

theorem keeps_storePosted {s : State} {p : Req × Nat × List Byte × Bool} (hk : Keeps s0 s) : Keeps s0 (storePosted s p) := by
  unfold storePosted
  obtain ⟨t, e, ht⟩ := keeps_serveLoads (host := []) (n := 64) (got := []) hk hk
    (fun v hv => KeepsO.next (keeps_after (keeps_busStore (req := p.1) (a := p.2.1) (bs := p.2.2.1) (poison := p.2.2.2) hv)))
  rw [e]; exact ht

theorem keeps_served {host : List Cpl} {f : State → Host.Outcome State Fault Refusal} {s : State} (hk : Keeps s0 s)
    (hf : ∀ v, Keeps s0 v → KeepsO s0 (f v)) : KeepsO s0 (served host f s) := by
  unfold served
  obtain ⟨t, e, ht⟩ := keeps_serveLoads (host := host) (n := 65536) (got := []) hk hk hf
  simp only [e]
  exact KeepsO.next (keeps_updIo (Keeps.foldl (fun _ _ h => keeps_storePosted h) ht))

theorem keeps_serves {host : List Cpl} {f : State → State} {s : State} (hk : Keeps s0 s) (hf : ∀ v0, Keeps s0 v0 → Keeps s0 (f v0)) :
    KeepsO s0 (serves host f s) := by
  unfold serves
  repeat' (first | (extract_lets +onlyGivenNames x; first | (refine (fun hx : Keeps s0 x => ?_) ?_ <;> [clear_value x; subst x]) | (refine (fun hx : KeepsF Prod.fst s0 x => ?_) ?_ <;> [(clear_value x; replace hx := hx.fst); (subst x; refine KeepsF.ofFst ?_)]) | (have _f := fun a => x a; clear _f; subst x) | clear_value x) | with_reducible assumption | with_reducible apply hf | with_reducible refine keeps_served ‹_› (fun _ _ => ?_) | with_reducible refine KeepsO.next ?_ | with_reducible refine KeepsO.ite ?_ ?_ | with_reducible refine Keeps.ite1 ?_ ?_ | with_reducible refine Keeps.ite ?_ ?_ | split | intro _ _ | dsimp only)

theorem keeps_servesIf {f : State → State} {s : State} (hk : Keeps s0 s) (hf : ∀ v0, Keeps s0 v0 → Keeps s0 (f v0)) :
    KeepsO s0 (servesIf f s) := by
  unfold servesIf
  repeat' (first | (extract_lets +onlyGivenNames x; first | (refine (fun hx : Keeps s0 x => ?_) ?_ <;> [clear_value x; subst x]) | (refine (fun hx : KeepsF Prod.fst s0 x => ?_) ?_ <;> [(clear_value x; replace hx := hx.fst); (subst x; refine KeepsF.ofFst ?_)]) | (have _f := fun a => x a; clear _f; subst x) | clear_value x) | with_reducible assumption | with_reducible apply hf | with_reducible apply keeps_serves | with_reducible refine KeepsO.next ?_ | with_reducible refine KeepsO.ite ?_ ?_ | with_reducible refine Keeps.ite1 ?_ ?_ | with_reducible refine Keeps.ite ?_ ?_ | split | dsimp only)

theorem keeps_execTableWindowRead {req : Req} {off : Nat} {len : Nat} {ue : Bool} {s : State} (hk : Keeps s0 s) :
    KeepsO s0 (execTableWindowRead req off len ue s) := by
  unfold execTableWindowRead
  repeat' (first | (extract_lets +onlyGivenNames x; first | (refine (fun hx : Keeps s0 x => ?_) ?_ <;> [clear_value x; subst x]) | (refine (fun hx : KeepsF Prod.fst s0 x => ?_) ?_ <;> [(clear_value x; replace hx := hx.fst); (subst x; refine KeepsF.ofFst ?_)]) | (have _f := fun a => x a; clear _f; subst x) | clear_value x) | with_reducible assumption | with_reducible apply keeps_tableRead | with_reducible refine KeepsO.next ?_ | with_reducible refine KeepsO.ite ?_ ?_ | with_reducible refine Keeps.ite1 ?_ ?_ | with_reducible refine Keeps.ite ?_ ?_ | split | fail_if_no_progress (with_reducible apply Keeps.update) | dsimp only)

theorem keeps_execTableWindowWrite {req : Req} {off : Nat} {data : List Byte} {s : State} (hk : Keeps s0 s) :
    KeepsO s0 (execTableWindowWrite req off data s) := by
  unfold execTableWindowWrite
  repeat' (first | (extract_lets +onlyGivenNames x; first | (refine (fun hx : Keeps s0 x => ?_) ?_ <;> [clear_value x; subst x]) | (refine (fun hx : KeepsF Prod.fst s0 x => ?_) ?_ <;> [(clear_value x; replace hx := hx.fst); (subst x; refine KeepsF.ofFst ?_)]) | (have _f := fun a => x a; clear _f; subst x) | clear_value x) | with_reducible assumption | with_reducible apply keeps_after | with_reducible apply keeps_tableWrite | with_reducible refine KeepsO.next ?_ | with_reducible refine KeepsO.ite ?_ ?_ | with_reducible refine Keeps.ite1 ?_ ?_ | with_reducible refine Keeps.ite ?_ ?_ | split | dsimp only)

end Sys2Proof.Laws
end

