-- ==== Sys2Proof/Laws/KeepsMover.lean ====
section
/-!
SUPPORT. Laws/KeepsMover.lean: the operations of Machine/Mover.lean keep the queue, the clock and the form of the memory.
-/
namespace Sys2Proof.Laws
open Sys2Proof Sys2Proof.Machine

variable {s0 : State}
set_option linter.unreachableTactic false
set_option linter.unusedTactic false

theorem keeps_writeBuffer {s : State} {n : Nat} {kind : Nat} {half : Nat} {arr : Nat} {o : Nat} {bs : List Byte} {bad : List (Nat × Nat)} (hk : Keeps s0 s) :
    Keeps s0 (writeBuffer s n kind half arr o bs bad) := by
  unfold writeBuffer
  repeat' (first | (extract_lets +onlyGivenNames x; first | (refine (fun hx : Keeps s0 x => ?_) ?_ <;> [clear_value x; subst x]) | (refine (fun hx : KeepsF Prod.fst s0 x => ?_) ?_ <;> [(clear_value x; replace hx := hx.fst); (subst x; refine KeepsF.ofFst ?_)]) | (have _f := fun a => x a; clear _f; subst x) | clear_value x) | with_reducible assumption | with_reducible apply keeps_overwrite | with_reducible apply keeps_updCore | with_reducible apply keeps_flipStore | with_reducible refine Keeps.ite1 ?_ ?_ | with_reducible refine Keeps.ite ?_ ?_ | with_reducible refine Keeps.foldl (fun _ _ _ => ?_) ?_ | with_reducible refine Keeps.foldl1 (fun _ _ _ => ?_) ?_ | split | intro _ _ | dsimp only)

theorem keeps_coreRead {s : State} {n : Nat} {v : Via} {a : Nat} {len : Nat} (hk : Keeps s0 s) :
    Keeps s0 (coreRead s n v a len).1 := by
  unfold coreRead
  repeat' (first | (extract_lets +onlyGivenNames x; first | (refine (fun hx : Keeps s0 x => ?_) ?_ <;> [clear_value x; subst x]) | (refine (fun hx : KeepsF Prod.fst s0 x => ?_) ?_ <;> [(clear_value x; replace hx := hx.fst); (subst x; refine KeepsF.ofFst ?_)]) | (have _f := fun a => x a; clear _f; subst x) | clear_value x) | with_reducible assumption | with_reducible apply keeps_localRead | with_reducible apply keeps_carryRead | with_reducible apply keeps_placeLoad | with_reducible refine Keeps.ite1 ?_ ?_ | with_reducible refine Keeps.ite ?_ ?_ | split | intro _ _ | dsimp only)

theorem keeps_coreWrite {s : State} {n : Nat} {v : Via} {a : Nat} {bs : List Byte} {bad : List (Nat × Nat)} (hk : Keeps s0 s) :
    Keeps s0 (coreWrite s n v a bs bad).1 := by
  unfold coreWrite
  repeat' (first | (extract_lets +onlyGivenNames x; first | (refine (fun hx : Keeps s0 x => ?_) ?_ <;> [clear_value x; subst x]) | (refine (fun hx : KeepsF Prod.fst s0 x => ?_) ?_ <;> [(clear_value x; replace hx := hx.fst); (subst x; refine KeepsF.ofFst ?_)]) | (have _f := fun a => x a; clear _f; subst x) | clear_value x) | with_reducible assumption | with_reducible apply keeps_localWrite | with_reducible apply keeps_carryWrite | with_reducible apply keeps_placeStore | with_reducible refine Keeps.ite1 ?_ ?_ | with_reducible refine Keeps.ite ?_ ?_ | split | intro _ _ | dsimp only)

theorem keeps_pieceData {s : State} {n : Nat} {m : MoverOp} {o : Nat} {len : Nat} (hk : Keeps s0 s) :
    Keeps s0 (pieceData s n m o len).1 := by
  refine KeepsF.fst ?_
  unfold pieceData
  repeat' (first | (extract_lets +onlyGivenNames x; first | (refine (fun hx : Keeps s0 x => ?_) ?_ <;> [clear_value x; subst x]) | (refine (fun hx : KeepsF Prod.fst s0 x => ?_) ?_ <;> [(clear_value x; replace hx := hx.fst); (subst x; refine KeepsF.ofFst ?_)]) | (have _f := fun a => x a; clear _f; subst x) | clear_value x) | with_reducible refine KeepsF.ite ?_ ?_ | with_reducible refine KeepsF.pair ?_ | (with_reducible refine KeepsF.ofFst ?_; with_reducible apply keeps_coreRead) | with_reducible assumption | with_reducible apply keeps_coreRead | with_reducible refine Keeps.ite1 ?_ ?_ | with_reducible refine Keeps.ite ?_ ?_ | split | with_reducible refine KeepsF.ofFst ?_ | intro _ _ | dsimp only)

theorem keeps_gatherPiece {s : State} {n : Nat} {i : Nat} {m : MoverOp} {o : Nat} {bs : List Byte} {bad : List (Nat × Nat)} (hk : Keeps s0 s) :
    Keeps s0 (gatherPiece s n i m o bs bad) := by
  unfold gatherPiece
  repeat' (first | (extract_lets +onlyGivenNames x; first | (refine (fun hx : Keeps s0 x => ?_) ?_ <;> [clear_value x; subst x]) | (refine (fun hx : KeepsF Prod.fst s0 x => ?_) ?_ <;> [(clear_value x; replace hx := hx.fst); (subst x; refine KeepsF.ofFst ?_)]) | (have _f := fun a => x a; clear _f; subst x) | clear_value x) | with_reducible assumption | with_reducible apply keeps_updCore | with_reducible apply keeps_writeBuffer | with_reducible refine Keeps.ite1 ?_ ?_ | with_reducible refine Keeps.ite ?_ ?_ | split | fail_if_no_progress (with_reducible apply Keeps.update) | intro _ _ | dsimp only)

theorem keeps_answerPiece {core : Nat} {mover : Nat} {s : State} (hk : Keeps s0 s) :
    Keeps s0 (answerPiece core mover s) := by
  unfold answerPiece
  repeat' (first | (extract_lets +onlyGivenNames x; first | (refine (fun hx : Keeps s0 x => ?_) ?_ <;> [clear_value x; subst x]) | (refine (fun hx : KeepsF Prod.fst s0 x => ?_) ?_ <;> [(clear_value x; replace hx := hx.fst); (subst x; refine KeepsF.ofFst ?_)]) | (have _f := fun a => x a; clear _f; subst x) | clear_value x) | with_reducible assumption | with_reducible apply keeps_bump | with_reducible apply keeps_gatherPiece | with_reducible apply keeps_injFire | with_reducible apply keeps_pieceData | with_reducible apply keeps_updCore | with_reducible apply keeps_writeBuffer | with_reducible apply keeps_coreWrite | with_reducible refine Keeps.ite1 ?_ ?_ | with_reducible refine Keeps.ite ?_ ?_ | split | fail_if_no_progress (with_reducible apply Keeps.update) | intro _ _ | dsimp only)

theorem keeps_execMoverPieceResponse {core : Nat} {mover : Nat} {host : List Cpl} {s : State} (hk : Keeps s0 s) :
    KeepsO s0 (execMoverPieceResponse core mover host s) := by
  unfold execMoverPieceResponse
  repeat' (first | (extract_lets +onlyGivenNames x; first | (refine (fun hx : Keeps s0 x => ?_) ?_ <;> [clear_value x; subst x]) | (refine (fun hx : KeepsF Prod.fst s0 x => ?_) ?_ <;> [(clear_value x; replace hx := hx.fst); (subst x; refine KeepsF.ofFst ?_)]) | (have _f := fun a => x a; clear _f; subst x) | clear_value x) | with_reducible assumption | with_reducible refine keeps_served ‹_› (fun _ _ => ?_) | with_reducible apply keeps_answerPiece | with_reducible refine KeepsO.next ?_ | with_reducible refine KeepsO.ite ?_ ?_ | with_reducible refine Keeps.ite1 ?_ ?_ | with_reducible refine Keeps.ite ?_ ?_ | split | intro _ _ | dsimp only)

end Sys2Proof.Laws
end

