-- ==== Sys2Proof/Laws/KeepsSvc.lean ====
section
/-!
SUPPORT. Laws/KeepsSvc.lean: the operations of Machine/Svc.lean keep the queue, the clock and the form of the memory.
-/
namespace Sys2Proof.Laws
open Sys2Proof Sys2Proof.Machine

variable {s0 : State}
set_option linter.unreachableTactic false
set_option linter.unusedTactic false

theorem keeps_svcSubmit_svcItem {it : Item} {t : State × Nat} (hk : Keeps s0 t.1) : Keeps s0 (svcSubmit.svcItem it t).1 := by
  unfold svcSubmit.svcItem; split <;> exact hk

theorem keeps_svcSubmit {s : State} {n : Nat} {urgent : Bool} {unit : Nat} {addr : Nat} {reg : Nat} (hk : Keeps s0 s) :
    Keeps s0 (svcSubmit s n urgent unit addr reg).1 := by
  unfold svcSubmit
  repeat' (first | (extract_lets +onlyGivenNames x; first | (refine (fun hx : Keeps s0 x => ?_) ?_ <;> [clear_value x; subst x]) | (refine (fun hx : KeepsF Prod.fst s0 x => ?_) ?_ <;> [(clear_value x; replace hx := hx.fst); (subst x; refine KeepsF.ofFst ?_)]) | (have _f := fun a => x a; clear _f; subst x) | clear_value x) | with_reducible assumption | with_reducible apply keeps_svcSubmit_svcItem | with_reducible apply keeps_localRead | with_reducible apply keeps_carryCall | with_reducible apply keeps_keySubmit | with_reducible apply keeps_block | with_reducible apply keeps_sflSubmit | with_reducible refine Keeps.ite1 ?_ ?_ | with_reducible refine Keeps.ite ?_ ?_ | split | fail_if_no_progress (with_reducible apply Keeps.update) | intro _ _ | dsimp only)

theorem keeps_svcAbort {s : State} {b : Bank} (hk : Keeps s0 s) :
    Keeps s0 (svcAbort s b) := by
  unfold svcAbort
  repeat' (first | with_reducible assumption | with_reducible apply keeps_keyAbort | with_reducible apply keeps_sflAbort | with_reducible refine Keeps.ite ?_ ?_ | with_reducible refine Keeps.foldl (fun _ _ _ => ?_) ?_ | with_reducible refine Keeps.foldl1 (fun _ _ _ => ?_) ?_ | split | dsimp only)

end Sys2Proof.Laws
end

