-- ==== Sys2Proof/Laws/KeepsIssue.lean ====
section
/-!
SUPPORT. Laws/KeepsIssue.lean: the operations of Machine/Issue.lean keep the queue, the clock and the form of the memory.
-/
namespace Sys2Proof.Laws
open Sys2Proof Sys2Proof.Machine

variable {s0 : State}
set_option linter.unreachableTactic false
set_option linter.unusedTactic false

theorem keeps_reportCounts {s : State} {n : Nat} {urgent : Bool} (hk : Keeps s0 s) :
    Keeps s0 (reportCounts s n urgent) := by
  unfold reportCounts
  repeat' (first | (extract_lets +onlyGivenNames x; first | (refine (fun hx : Keeps s0 x => ?_) ?_ <;> [clear_value x; subst x]) | (refine (fun hx : KeepsF Prod.fst s0 x => ?_) ?_ <;> [(clear_value x; replace hx := hx.fst); (subst x; refine KeepsF.ofFst ?_)]) | (have _f := fun a => x a; clear _f; subst x) | clear_value x) | with_reducible assumption | with_reducible apply keeps_updDpt | with_reducible apply keeps_dropAborts | with_reducible refine Keeps.ite1 ?_ ?_ | with_reducible refine Keeps.ite ?_ ?_ | split | fail_if_no_progress (with_reducible apply Keeps.update) | intro _ _ | dsimp only)

theorem keeps_takeException {s : State} {n : Nat} {urgent : Bool} {e : Exc} (hk : Keeps s0 s) :
    Keeps s0 (takeException s n urgent e) := by
  unfold takeException
  repeat' (first | (extract_lets +onlyGivenNames x; first | (refine (fun hx : Keeps s0 x => ?_) ?_ <;> [clear_value x; subst x]) | (refine (fun hx : KeepsF Prod.fst s0 x => ?_) ?_ <;> [(clear_value x; replace hx := hx.fst); (subst x; refine KeepsF.ofFst ?_)]) | (have _f := fun a => x a; clear _f; subst x) | clear_value x) | with_reducible assumption | with_reducible apply keeps_setReg | with_reducible apply keeps_fault | with_reducible apply keeps_raise | with_reducible apply keeps_missAborted | with_reducible apply keeps_reportCounts | with_reducible apply keeps_settleParts | with_reducible apply keeps_updCore | with_reducible refine Keeps.ite1 ?_ ?_ | with_reducible refine Keeps.ite ?_ ?_ | split | fail_if_no_progress (with_reducible apply Keeps.update) | intro _ _ | dsimp only)

theorem keeps_scalarEffect {s : State} {n : Nat} {k : Bank} {b : Nat} (hk : Keeps s0 s) :
    Keeps s0 (scalarEffect s n k b).1 := by
  refine KeepsF.fst ?_
  unfold scalarEffect
  repeat' (first | (extract_lets +onlyGivenNames x; first | (refine (fun hx : Keeps s0 x => ?_) ?_ <;> [clear_value x; subst x]) | (refine (fun hx : KeepsF Prod.fst s0 x => ?_) ?_ <;> [(clear_value x; replace hx := hx.fst); (subst x; refine KeepsF.ofFst ?_)]) | (have _f := fun a => x a; clear _f; subst x) | clear_value x) | with_reducible refine KeepsF.ite ?_ ?_ | with_reducible refine KeepsF.pair ?_ | (with_reducible refine KeepsF.ofFst ?_; with_reducible apply keeps_localRead) | (with_reducible refine KeepsF.ofFst ?_; with_reducible apply keeps_coreRead) | with_reducible assumption | with_reducible apply keeps_localRead | with_reducible apply keeps_coreRead | with_reducible refine Keeps.ite1 ?_ ?_ | with_reducible refine Keeps.ite ?_ ?_ | split | with_reducible refine KeepsF.ofFst ?_ | fail_if_no_progress (with_reducible apply Keeps.update) | intro _ _ | dsimp only)

theorem keeps_scalarStore {s : State} {n : Nat} {k : Bank} {b : Nat} (hk : Keeps s0 s) :
    Keeps s0 (scalarStore s n k b) := by
  unfold scalarStore
  repeat' (first | (extract_lets +onlyGivenNames x; first | (refine (fun hx : Keeps s0 x => ?_) ?_ <;> [clear_value x; subst x]) | (refine (fun hx : KeepsF Prod.fst s0 x => ?_) ?_ <;> [(clear_value x; replace hx := hx.fst); (subst x; refine KeepsF.ofFst ?_)]) | (have _f := fun a => x a; clear _f; subst x) | clear_value x) | with_reducible assumption | with_reducible apply keeps_after | with_reducible apply keeps_coreWrite | with_reducible refine Keeps.ite1 ?_ ?_ | with_reducible refine Keeps.ite ?_ ?_ | split | dsimp only)

theorem keeps_corePush {s : State} {n : Nat} {v : Via} {rd : Nat} {q : Nat} {d : Nat} {c : Nat} {cycles : Nat} (hk : Keeps s0 s) :
    Keeps s0 (corePush s n v rd q d c cycles).1 := by
  unfold corePush
  repeat' (first | (extract_lets +onlyGivenNames x; first | (refine (fun hx : Keeps s0 x => ?_) ?_ <;> [clear_value x; subst x]) | (refine (fun hx : KeepsF Prod.fst s0 x => ?_) ?_ <;> [(clear_value x; replace hx := hx.fst); (subst x; refine KeepsF.ofFst ?_)]) | (have _f := fun a => x a; clear _f; subst x) | clear_value x) | with_reducible assumption | with_reducible apply keeps_localRead | with_reducible apply keeps_carryCall | with_reducible apply keeps_devPush | with_reducible apply keeps_urgentTime | with_reducible refine Keeps.ite1 ?_ ?_ | with_reducible refine Keeps.ite ?_ ?_ | split | intro _ _ | dsimp only)

theorem keeps_corePop {s : State} {n : Nat} {v : Via} {rd : Nat} {q : Nat} {d : Nat} {c : Nat} {meet : HodMeet} (hk : Keeps s0 s) :
    Keeps s0 (corePop s n v rd q d c meet).1 := by
  unfold corePop
  repeat' (first | (extract_lets +onlyGivenNames x; first | (refine (fun hx : Keeps s0 x => ?_) ?_ <;> [clear_value x; subst x]) | (refine (fun hx : KeepsF Prod.fst s0 x => ?_) ?_ <;> [(clear_value x; replace hx := hx.fst); (subst x; refine KeepsF.ofFst ?_)]) | (have _f := fun a => x a; clear _f; subst x) | clear_value x) | with_reducible assumption | with_reducible apply keeps_carryCall | with_reducible apply keeps_hodPop | with_reducible apply keeps_after | with_reducible apply keeps_localWrite | with_reducible refine Keeps.ite1 ?_ ?_ | with_reducible refine Keeps.ite ?_ ?_ | split | intro _ _ | dsimp only)

theorem keeps_controlEffect {s : State} {n : Nat} {urgent : Bool} {k : Bank} {b : Nat} {cycles : Nat} {meet : HodMeet} (hk : Keeps s0 s) :
    Keeps s0 (controlEffect s n urgent k b cycles meet).1 := by
  unfold controlEffect
  repeat' (first | (extract_lets +onlyGivenNames x; first | (refine (fun hx : Keeps s0 x => ?_) ?_ <;> [clear_value x; subst x]) | (refine (fun hx : KeepsF Prod.fst s0 x => ?_) ?_ <;> [(clear_value x; replace hx := hx.fst); (subst x; refine KeepsF.ofFst ?_)]) | (have _f := fun a => x a; clear _f; subst x) | clear_value x) | with_reducible assumption | with_reducible apply keeps_wb | with_reducible apply keeps_corePush | with_reducible apply keeps_corePop | with_reducible apply keeps_carryCall | with_reducible apply keeps_doorbellRead | with_reducible apply keeps_allocate | with_reducible apply keeps_freeHandle | with_reducible apply keeps_svcSubmit | with_reducible refine Keeps.ite1 ?_ ?_ | with_reducible refine Keeps.ite ?_ ?_ | split | fail_if_no_progress (with_reducible apply Keeps.update) | intro _ _ | dsimp only)

theorem keeps_vectorEffect {s : State} {k : Bank} {b : Nat} {i : Nat} (hk : Keeps s0 s) :
    Keeps s0 (vectorEffect s k b i).1 := by
  unfold vectorEffect
  repeat' (first | (extract_lets +onlyGivenNames x; first | (refine (fun hx : Keeps s0 x => ?_) ?_ <;> [clear_value x; subst x]) | (refine (fun hx : KeepsF Prod.fst s0 x => ?_) ?_ <;> [(clear_value x; replace hx := hx.fst); (subst x; refine KeepsF.ofFst ?_)]) | (have _f := fun a => x a; clear _f; subst x) | clear_value x) | with_reducible assumption | with_reducible apply keeps_localRead | with_reducible refine Keeps.ite1 ?_ ?_ | with_reducible refine Keeps.ite ?_ ?_ | split | fail_if_no_progress (with_reducible apply Keeps.update) | intro _ _ | dsimp only)

theorem keeps_vectorStore {s : State} {k : Bank} {b : Nat} {i : Nat} (hk : Keeps s0 s) :
    Keeps s0 (vectorStore s k b i) := by
  unfold vectorStore
  repeat' (first | (extract_lets +onlyGivenNames x; first | (refine (fun hx : Keeps s0 x => ?_) ?_ <;> [clear_value x; subst x]) | (refine (fun hx : KeepsF Prod.fst s0 x => ?_) ?_ <;> [(clear_value x; replace hx := hx.fst); (subst x; refine KeepsF.ofFst ?_)]) | (have _f := fun a => x a; clear _f; subst x) | clear_value x) | with_reducible assumption | with_reducible apply keeps_after | with_reducible apply keeps_localWrite | with_reducible refine Keeps.ite1 ?_ ?_ | with_reducible refine Keeps.ite ?_ ?_ | split | intro _ _ | dsimp only)

theorem keeps_reportStart {s : State} {n : Nat} {k : Bank} (hk : Keeps s0 s) :
    Keeps s0 (reportStart s n k) := by
  unfold reportStart
  repeat' (first | (extract_lets +onlyGivenNames x; first | (refine (fun hx : Keeps s0 x => ?_) ?_ <;> [clear_value x; subst x]) | (refine (fun hx : KeepsF Prod.fst s0 x => ?_) ?_ <;> [(clear_value x; replace hx := hx.fst); (subst x; refine KeepsF.ofFst ?_)]) | (have _f := fun a => x a; clear _f; subst x) | clear_value x) | with_reducible assumption | with_reducible apply keeps_peak | with_reducible apply keeps_raise | with_reducible apply keeps_hwFault | with_reducible refine Keeps.ite ?_ ?_ | split | dsimp only)

theorem keeps_issueEffects {s : State} {n : Nat} {urgent : Bool} {b : Nat} {cycles : Nat} {meet : HodMeet} {c : ArrayCmd} (hk : Keeps s0 s) :
    Keeps s0 (issueEffects s n urgent b cycles meet c) := by
  unfold issueEffects
  repeat' (first | (extract_lets +onlyGivenNames x; first | (refine (fun hx : Keeps s0 x => ?_) ?_ <;> [clear_value x; subst x]) | (refine (fun hx : KeepsF Prod.fst s0 x => ?_) ?_ <;> [(clear_value x; replace hx := hx.fst); (subst x; refine KeepsF.ofFst ?_)]) | (have _f := fun a => x a; clear _f; subst x) | clear_value x) | with_reducible assumption | with_reducible apply keeps_vectorEffect | with_reducible apply keeps_scalarEffect | with_reducible apply keeps_controlEffect | with_reducible apply keeps_vectorStore | with_reducible apply keeps_scalarStore | with_reducible apply keeps_reportStart | with_reducible apply keeps_bump | with_reducible apply keeps_touchRegs | with_reducible apply keeps_updCore | with_reducible refine Keeps.ite1 ?_ ?_ | with_reducible refine Keeps.ite ?_ ?_ | split | fail_if_no_progress (with_reducible apply Keeps.update) | intro _ _ | dsimp only)

theorem keeps_fetchNext {s : State} {n : Nat} {urgent : Bool} (hk : Keeps s0 s) :
    Keeps s0 (fetchNext s n urgent) := by
  unfold fetchNext
  repeat' (first | (extract_lets +onlyGivenNames x; first | (refine (fun hx : Keeps s0 x => ?_) ?_ <;> [clear_value x; subst x]) | (refine (fun hx : KeepsF Prod.fst s0 x => ?_) ?_ <;> [(clear_value x; replace hx := hx.fst); (subst x; refine KeepsF.ofFst ?_)]) | (have _f := fun a => x a; clear _f; subst x) | clear_value x) | with_reducible assumption | with_reducible apply keeps_checkRange | with_reducible refine Keeps.ite1 ?_ ?_ | with_reducible refine Keeps.ite ?_ ?_ | split | dsimp only)

theorem keeps_skipNops {z0 : Nat} {z1 : State} {z2 : Nat} {z3 : Bool} (hk : Keeps s0 z1) :
    Keeps s0 (skipNops z0 z1 z2 z3) := by
  induction z0 generalizing z1 z2 z3 with
  | zero =>
    unfold skipNops
    repeat' (first | (extract_lets +onlyGivenNames x; first | (refine (fun hx : Keeps s0 x => ?_) ?_ <;> [clear_value x; subst x]) | (refine (fun hx : KeepsF Prod.fst s0 x => ?_) ?_ <;> [(clear_value x; replace hx := hx.fst); (subst x; refine KeepsF.ofFst ?_)]) | (have _f := fun a => x a; clear _f; subst x) | clear_value x) | with_reducible assumption | with_reducible apply keeps_fetchNext | with_reducible apply keeps_issueEffects | with_reducible refine Keeps.ite1 ?_ ?_ | with_reducible refine Keeps.ite ?_ ?_ | split | dsimp only)
  | succ y ihk =>
    unfold skipNops
    repeat' (first | (extract_lets +onlyGivenNames x; first | (refine (fun hx : Keeps s0 x => ?_) ?_ <;> [clear_value x; subst x]) | (refine (fun hx : KeepsF Prod.fst s0 x => ?_) ?_ <;> [(clear_value x; replace hx := hx.fst); (subst x; refine KeepsF.ofFst ?_)]) | (have _f := fun a => x a; clear _f; subst x) | clear_value x) | with_reducible assumption | with_reducible apply ihk | with_reducible apply keeps_fetchNext | with_reducible apply keeps_issueEffects | with_reducible refine Keeps.ite1 ?_ ?_ | with_reducible refine Keeps.ite ?_ ?_ | split | dsimp only)

theorem keeps_meetReads {s : State} {n : Nat} {urgent : Bool} {b : Nat} {c : ArrayCmd} {upto : Nat} (hk : Keeps s0 s) :
    Keeps s0 (meetReads s n urgent b c upto) := by
  unfold meetReads
  repeat' (first | (extract_lets +onlyGivenNames x; first | (refine (fun hx : Keeps s0 x => ?_) ?_ <;> [clear_value x; subst x]) | (refine (fun hx : KeepsF Prod.fst s0 x => ?_) ?_ <;> [(clear_value x; replace hx := hx.fst); (subst x; refine KeepsF.ofFst ?_)]) | (have _f := fun a => x a; clear _f; subst x) | clear_value x) | with_reducible assumption | with_reducible apply keeps_meetFlips | with_reducible apply keeps_checkRange | with_reducible refine Keeps.ite1 ?_ ?_ | with_reducible refine Keeps.ite ?_ ?_ | split | intro _ _ | dsimp only)

theorem keeps_decodePoint {s : State} {n : Nat} (hk : Keeps s0 s) :
    Keeps s0 (decodePoint s n) := by
  unfold decodePoint
  repeat' (first | (extract_lets +onlyGivenNames x; first | (refine (fun hx : Keeps s0 x => ?_) ?_ <;> [clear_value x; subst x]) | (refine (fun hx : KeepsF Prod.fst s0 x => ?_) ?_ <;> [(clear_value x; replace hx := hx.fst); (subst x; refine KeepsF.ofFst ?_)]) | (have _f := fun a => x a; clear _f; subst x) | clear_value x) | with_reducible assumption | with_reducible apply keeps_updCore | with_reducible apply keeps_hwFault | with_reducible refine Keeps.ite1 ?_ ?_ | with_reducible refine Keeps.ite ?_ ?_ | split | fail_if_no_progress (with_reducible apply Keeps.update) | intro _ _ | dsimp only)

theorem keeps_readyCmd {s : State} {n : Nat} {urgent : Bool} (hk : Keeps s0 s) :
    Keeps s0 (readyCmd s n urgent).1 := by
  unfold readyCmd
  repeat' (first | (extract_lets +onlyGivenNames x; first | (refine (fun hx : Keeps s0 x => ?_) ?_ <;> [clear_value x; subst x]) | (refine (fun hx : KeepsF Prod.fst s0 x => ?_) ?_ <;> [(clear_value x; replace hx := hx.fst); (subst x; refine KeepsF.ofFst ?_)]) | (have _f := fun a => x a; clear _f; subst x) | clear_value x) | with_reducible assumption | with_reducible apply keeps_fresh | with_reducible refine Keeps.ite1 ?_ ?_ | with_reducible refine Keeps.ite ?_ ?_ | split | dsimp only)

theorem keeps_tryIssue {s : State} {n : Nat} {urgent : Bool} {cycles : Nat} {meet : HodMeet} (hk : Keeps s0 s) :
    Keeps s0 (tryIssue s n urgent cycles meet) := by
  unfold tryIssue
  repeat' (first | (extract_lets +onlyGivenNames x; first | (refine (fun hx : Keeps s0 x => ?_) ?_ <;> [clear_value x; subst x]) | (refine (fun hx : KeepsF Prod.fst s0 x => ?_) ?_ <;> [(clear_value x; replace hx := hx.fst); (subst x; refine KeepsF.ofFst ?_)]) | (have _f := fun a => x a; clear _f; subst x) | clear_value x) | with_reducible assumption | with_reducible apply keeps_readyCmd | with_reducible apply keeps_updCore | with_reducible apply keeps_bump | with_reducible apply keeps_meetReads | with_reducible apply keeps_takeException | with_reducible apply keeps_issueEffects | with_reducible refine Keeps.ite1 ?_ ?_ | with_reducible refine Keeps.ite ?_ ?_ | split | fail_if_no_progress (with_reducible apply Keeps.update) | intro _ _ | dsimp only)

theorem keeps_issueBundle {n : Nat} {kind : SlotKind} {ops : List Nat} {cycles : Nat} {meet : HodMeet} {start : State} (hk : Keeps s0 start) :
    Keeps s0 (issueBundle n kind ops cycles meet start) := by
  unfold issueBundle
  repeat' (first | (extract_lets +onlyGivenNames x; first | (refine (fun hx : Keeps s0 x => ?_) ?_ <;> [clear_value x; subst x]) | (refine (fun hx : KeepsF Prod.fst s0 x => ?_) ?_ <;> [(clear_value x; replace hx := hx.fst); (subst x; refine KeepsF.ofFst ?_)]) | (have _f := fun a => x a; clear _f; subst x) | clear_value x) | with_reducible assumption | with_reducible apply keeps_skipNops | with_reducible apply keeps_takeException | with_reducible apply keeps_decodePoint | with_reducible apply keeps_tryIssue | with_reducible refine Keeps.ite1 ?_ ?_ | with_reducible refine Keeps.ite ?_ ?_ | split | fail_if_no_progress (with_reducible apply Keeps.update) | dsimp only)

theorem keeps_issueRow {n : Nat} {kind : SlotKind} {ops : List Nat} {cycles : Nat} {meet : HodMeet} {host : List Cpl} {s : State} (hk : Keeps s0 s) :
    KeepsO s0 (issueRow n kind ops cycles meet host s) := by
  unfold issueRow
  repeat' (first | (extract_lets +onlyGivenNames x; first | (refine (fun hx : Keeps s0 x => ?_) ?_ <;> [clear_value x; subst x]) | (refine (fun hx : KeepsF Prod.fst s0 x => ?_) ?_ <;> [(clear_value x; replace hx := hx.fst); (subst x; refine KeepsF.ofFst ?_)]) | (have _f := fun a => x a; clear _f; subst x) | clear_value x) | with_reducible assumption | with_reducible refine keeps_served ‹_› (fun _ _ => ?_) | with_reducible apply keeps_issueBundle | with_reducible refine KeepsO.next ?_ | with_reducible refine KeepsO.ite ?_ ?_ | with_reducible refine Keeps.ite1 ?_ ?_ | with_reducible refine Keeps.ite ?_ ?_ | split | intro _ _ | dsimp only)

end Sys2Proof.Laws
end

