-- ==== Sys2Proof/Laws/KeepsConfigSpace.lean ====
section
/-!
SUPPORT. Laws/KeepsConfigSpace.lean: the operations of Machine/ConfigSpace.lean keep the queue, the clock and the form of the memory.
-/
namespace Sys2Proof.Laws
open Sys2Proof Sys2Proof.Machine

variable {s0 : State}
set_option linter.unreachableTactic false
set_option linter.unusedTactic false

theorem keeps_sriovControl {s : State} {w : Nat} (hk : Keeps s0 s) :
    Keeps s0 (sriovControl s w) := by
  unfold sriovControl
  repeat' (first | (extract_lets +onlyGivenNames x; first | (refine (fun hx : Keeps s0 x => ?_) ?_ <;> [clear_value x; subst x]) | (refine (fun hx : KeepsF Prod.fst s0 x => ?_) ?_ <;> [(clear_value x; replace hx := hx.fst); (subst x; refine KeepsF.ofFst ?_)]) | (have _f := fun a => x a; clear _f; subst x) | clear_value x) | with_reducible assumption | with_reducible apply keeps_clearVfEnable | with_reducible refine Keeps.ite ?_ ?_ | fail_if_no_progress (with_reducible apply Keeps.update) | split | dsimp only)

theorem keeps_cfgWrite {s : State} {fn : Nat} {off : Nat} {be : Nat} {data : Nat} (hk : Keeps s0 s) :
    Keeps s0 (cfgWrite s fn off be data) := by
  unfold cfgWrite
  repeat' (first | (extract_lets +onlyGivenNames x; first | (refine (fun hx : Keeps s0 x => ?_) ?_ <;> [clear_value x; subst x]) | (refine (fun hx : KeepsF Prod.fst s0 x => ?_) ?_ <;> [(clear_value x; replace hx := hx.fst); (subst x; refine KeepsF.ofFst ?_)]) | (have _f := fun a => x a; clear _f; subst x) | clear_value x) | with_reducible assumption | with_reducible apply keeps_sriovControl | with_reducible apply keeps_resetPf | with_reducible apply keeps_resetVf | with_reducible apply keeps_updFunc | with_reducible apply keeps_resumeSends | with_reducible refine Keeps.ite ?_ ?_ | fail_if_no_progress (with_reducible apply Keeps.update) | split | dsimp only)

theorem keeps_turnedAway {s : State} {fn : Nat} {posted : Bool} {write : Bool} {len : Nat} {hdr : List Nat} {t0 : State}
    (e : turnedAway s fn posted write len hdr = some t0) (hk : Keeps s0 s) : Keeps s0 t0 := by
  unfold turnedAway at e
  repeat' (first | (cases e; done) | (obtain rfl := Option.some.inj e; repeat' (first | (extract_lets +onlyGivenNames x; first | (refine (fun hx : Keeps s0 x => ?_) ?_ <;> [clear_value x; subst x]) | (refine (fun hx : KeepsF Prod.fst s0 x => ?_) ?_ <;> [(clear_value x; replace hx := hx.fst); (subst x; refine KeepsF.ofFst ?_)]) | (have _f := fun a => x a; clear _f; subst x) | clear_value x) | with_reducible assumption | with_reducible apply keeps_completeUr | with_reducible apply keeps_unsupported | with_reducible refine Keeps.ite1 ?_ ?_ | with_reducible refine Keeps.ite ?_ ?_ | split | intro _ _ | dsimp only)) | split at e | dsimp only at e)

theorem keeps_execConfigRequest {fn : Nat} {reg : Nat} {write : Bool} {be : Nat} {data : W32} {hdr : List Nat} {s : State} (hk : Keeps s0 s) :
    KeepsO s0 (execConfigRequest fn reg write be data hdr s) := by
  unfold execConfigRequest
  repeat' (first | (extract_lets +onlyGivenNames x; first | (refine (fun hx : Keeps s0 x => ?_) ?_ <;> [clear_value x; subst x]) | (refine (fun hx : KeepsF Prod.fst s0 x => ?_) ?_ <;> [(clear_value x; replace hx := hx.fst); (subst x; refine KeepsF.ofFst ?_)]) | (have _f := fun a => x a; clear _f; subst x) | clear_value x) | with_reducible assumption | with_reducible apply keeps_inbound | with_reducible refine keeps_turnedAway ‹_› ?_ | with_reducible apply keeps_cfgWrite | with_reducible apply keeps_sendHost | with_reducible refine KeepsO.next ?_ | with_reducible refine KeepsO.ite ?_ ?_ | with_reducible refine Keeps.ite1 ?_ ?_ | with_reducible refine Keeps.ite ?_ ?_ | split | fail_if_no_progress (with_reducible apply Keeps.update) | dsimp only)

end Sys2Proof.Laws
end

