-- ==== Sys2Proof/Laws/KeepsModule.lean ====
section
/-!
SUPPORT. Laws/KeepsModule.lean: the operations of Machine/Module.lean keep the queue, the clock and the form of the memory.
-/
namespace Sys2Proof.Laws
open Sys2Proof Sys2Proof.Machine

variable {s0 : State}
set_option linter.unreachableTactic false
set_option linter.unusedTactic false

theorem keeps_updMod {s : State} {f : Module → Module} (hk : Keeps s0 s) :
    Keeps s0 (updMod s f) := by
  unfold updMod
  repeat' (first | with_reducible assumption | fail_if_no_progress (with_reducible apply Keeps.update) | dsimp only)

theorem keeps_fypRecord {s : State} {code : Nat} {params : List Nat} (hk : Keeps s0 s) :
    Keeps s0 (fypRecord s code params) := by
  unfold fypRecord
  repeat' (first | with_reducible assumption | with_reducible apply keeps_softRecord | with_reducible apply keeps_updMod | with_reducible refine Keeps.ite ?_ ?_ | fail_if_no_progress (with_reducible apply Keeps.update) | split | dsimp only)

theorem keeps_sendCan {s : State} {k : Nat} {data : List Byte} (hk : Keeps s0 s) :
    Keeps s0 (sendCan s k data) := by
  unfold sendCan
  repeat' (first | (extract_lets +onlyGivenNames x; first | (refine (fun hx : Keeps s0 x => ?_) ?_ <;> [clear_value x; subst x]) | (refine (fun hx : KeepsF Prod.fst s0 x => ?_) ?_ <;> [(clear_value x; replace hx := hx.fst); (subst x; refine KeepsF.ofFst ?_)]) | (have _f := fun a => x a; clear _f; subst x) | clear_value x) | with_reducible assumption | with_reducible apply keeps_updMod | with_reducible refine Keeps.ite ?_ ?_ | fail_if_no_progress (with_reducible apply Keeps.update) | split | dsimp only)

theorem keeps_statusFrame {s : State} (hk : Keeps s0 s) :
    Keeps s0 (statusFrame s) := by
  unfold statusFrame
  repeat' (first | (extract_lets +onlyGivenNames x; first | (refine (fun hx : Keeps s0 x => ?_) ?_ <;> [clear_value x; subst x]) | (refine (fun hx : KeepsF Prod.fst s0 x => ?_) ?_ <;> [(clear_value x; replace hx := hx.fst); (subst x; refine KeepsF.ofFst ?_)]) | (have _f := fun a => x a; clear _f; subst x) | clear_value x) | with_reducible assumption | with_reducible apply keeps_sendCan | with_reducible apply keeps_fresh | with_reducible refine Keeps.ite ?_ ?_ | split | dsimp only)

theorem keeps_degradedFrame {s : State} {cause : Nat} (hk : Keeps s0 s) :
    Keeps s0 (degradedFrame s cause) := by
  unfold degradedFrame
  repeat' (first | (extract_lets +onlyGivenNames x; first | (refine (fun hx : Keeps s0 x => ?_) ?_ <;> [clear_value x; subst x]) | (refine (fun hx : KeepsF Prod.fst s0 x => ?_) ?_ <;> [(clear_value x; replace hx := hx.fst); (subst x; refine KeepsF.ofFst ?_)]) | (have _f := fun a => x a; clear _f; subst x) | clear_value x) | with_reducible assumption | with_reducible apply keeps_sendCan | with_reducible apply keeps_updMod | fail_if_no_progress (with_reducible apply Keeps.update) | dsimp only)

theorem keeps_enterMod {s : State} {st : Nat} {cause : Nat} (hk : Keeps s0 s) :
    Keeps s0 (enterMod s st cause) := by
  unfold enterMod
  repeat' (first | (extract_lets +onlyGivenNames x; first | (refine (fun hx : Keeps s0 x => ?_) ?_ <;> [clear_value x; subst x]) | (refine (fun hx : KeepsF Prod.fst s0 x => ?_) ?_ <;> [(clear_value x; replace hx := hx.fst); (subst x; refine KeepsF.ofFst ?_)]) | (have _f := fun a => x a; clear _f; subst x) | clear_value x) | with_reducible assumption | with_reducible apply keeps_fypRecord | with_reducible apply keeps_statusFrame | with_reducible apply keeps_updMod | with_reducible refine Keeps.ite ?_ ?_ | fail_if_no_progress (with_reducible apply Keeps.update) | split | dsimp only)

theorem keeps_settleMod {s : State} (hk : Keeps s0 s) :
    Keeps s0 (settleMod s) := by
  unfold settleMod
  repeat' (first | (extract_lets +onlyGivenNames x; first | (refine (fun hx : Keeps s0 x => ?_) ?_ <;> [clear_value x; subst x]) | (refine (fun hx : KeepsF Prod.fst s0 x => ?_) ?_ <;> [(clear_value x; replace hx := hx.fst); (subst x; refine KeepsF.ofFst ?_)]) | (have _f := fun a => x a; clear _f; subst x) | clear_value x) | with_reducible assumption | with_reducible apply keeps_enterMod | dsimp only)

theorem keeps_shutCode {s : State} {a1 : ShutCause} (hk : Keeps s0 s) : Keeps s0 (shutCode s a1).1 := by
  cases a1 <;> first | exact hk | exact keeps_fresh hk

theorem keeps_shutState {s : State} {a1 : ShutCause} (hk : Keeps s0 s) : Keeps s0 (shutState s a1).1 := by
  cases a1 <;> first | exact hk | exact keeps_fresh hk

theorem keeps_shutDown {s : State} {why : ShutCause} (hk : Keeps s0 s) :
    Keeps s0 (shutDown s why) := by
  unfold shutDown
  repeat' (first | (extract_lets +onlyGivenNames x; first | (refine (fun hx : Keeps s0 x => ?_) ?_ <;> [clear_value x; subst x]) | (refine (fun hx : KeepsF Prod.fst s0 x => ?_) ?_ <;> [(clear_value x; replace hx := hx.fst); (subst x; refine KeepsF.ofFst ?_)]) | (have _f := fun a => x a; clear _f; subst x) | clear_value x) | with_reducible assumption | with_reducible apply keeps_shutCode | with_reducible apply keeps_fypRecord | with_reducible apply keeps_updMod | with_reducible apply keeps_powerOff | with_reducible apply keeps_shutState | with_reducible apply keeps_enterMod | with_reducible refine Keeps.ite ?_ ?_ | fail_if_no_progress (with_reducible apply Keeps.update) | split | dsimp only)

theorem keeps_startDie {s : State} {service : Bool} {cause : Nat} (hk : Keeps s0 s) :
    Keeps s0 (startDie s service cause) := by
  unfold startDie
  repeat' (first | (extract_lets +onlyGivenNames x; first | (refine (fun hx : Keeps s0 x => ?_) ?_ <;> [clear_value x; subst x]) | (refine (fun hx : KeepsF Prod.fst s0 x => ?_) ?_ <;> [(clear_value x; replace hx := hx.fst); (subst x; refine KeepsF.ofFst ?_)]) | (have _f := fun a => x a; clear _f; subst x) | clear_value x) | with_reducible assumption | with_reducible apply keeps_updMod | with_reducible apply keeps_enterMod | fail_if_no_progress (with_reducible apply Keeps.update) | dsimp only)

theorem keeps_vinTo {mv : Int} {ma : Nat} {s : State} (hk : Keeps s0 s) :
    Keeps s0 (vinTo mv ma s) := by
  unfold vinTo
  repeat' (first | (extract_lets +onlyGivenNames x; first | (refine (fun hx : Keeps s0 x => ?_) ?_ <;> [clear_value x; subst x]) | (refine (fun hx : KeepsF Prod.fst s0 x => ?_) ?_ <;> [(clear_value x; replace hx := hx.fst); (subst x; refine KeepsF.ofFst ?_)]) | (have _f := fun a => x a; clear _f; subst x) | clear_value x) | with_reducible assumption | with_reducible apply keeps_updMod | with_reducible apply keeps_shutDown | with_reducible apply keeps_enterMod | with_reducible refine Keeps.ite ?_ ?_ | fail_if_no_progress (with_reducible apply Keeps.update) | split | dsimp only)

theorem keeps_execVinChange {mv : Int} {ma : Nat} {s : State} (hv : ¬(mv < -16000 ∨ 18000 < mv)) (hk : Keeps s0 s) :
    KeepsO s0 (execVinChange mv ma s) := by
  unfold execVinChange
  rw [if_neg hv]
  exact KeepsO.next (keeps_vinTo hk)

theorem keeps_execVinRangeTimeout {s : State} (hk : Keeps s0 s) :
    KeepsO s0 (execVinRangeTimeout s) := by
  unfold execVinRangeTimeout
  repeat' (first | (extract_lets +onlyGivenNames x; first | (refine (fun hx : Keeps s0 x => ?_) ?_ <;> [clear_value x; subst x]) | (refine (fun hx : KeepsF Prod.fst s0 x => ?_) ?_ <;> [(clear_value x; replace hx := hx.fst); (subst x; refine KeepsF.ofFst ?_)]) | (have _f := fun a => x a; clear _f; subst x) | clear_value x) | with_reducible assumption | with_reducible apply keeps_updMod | with_reducible apply keeps_degradedFrame | with_reducible apply keeps_shutDown | with_reducible refine KeepsO.next ?_ | with_reducible refine KeepsO.ite ?_ ?_ | with_reducible refine Keeps.ite ?_ ?_ | with_reducible refine Keeps.ite1 ?_ ?_ | fail_if_no_progress (with_reducible apply Keeps.update) | split | dsimp only)

theorem keeps_execOrderlyShutdown {why : ShutCause} {s : State} (hk : Keeps s0 s) :
    KeepsO s0 (execOrderlyShutdown why s) := by
  unfold execOrderlyShutdown
  repeat' (first | with_reducible assumption | with_reducible apply keeps_shutDown | with_reducible refine KeepsO.next ?_ | dsimp only)

theorem keeps_wakeRises {s : State} (hk : Keeps s0 s) :
    Keeps s0 (wakeRises s) := by
  unfold wakeRises
  repeat' (first | (extract_lets +onlyGivenNames x; first | (refine (fun hx : Keeps s0 x => ?_) ?_ <;> [clear_value x; subst x]) | (refine (fun hx : KeepsF Prod.fst s0 x => ?_) ?_ <;> [(clear_value x; replace hx := hx.fst); (subst x; refine KeepsF.ofFst ?_)]) | (have _f := fun a => x a; clear _f; subst x) | clear_value x) | with_reducible assumption | with_reducible apply keeps_updMod | with_reducible apply keeps_wake | with_reducible apply keeps_wakeAt | with_reducible refine Keeps.ite1 ?_ ?_ | with_reducible refine Keeps.ite ?_ ?_ | split | fail_if_no_progress (with_reducible apply Keeps.update) | intro _ _ | dsimp only)

theorem keeps_execModuleStart {rose : Bool} {s : State} (hk : Keeps s0 s) :
    KeepsO s0 (execModuleStart rose s) := by
  unfold execModuleStart
  repeat' (first | (extract_lets +onlyGivenNames x; first | (refine (fun hx : Keeps s0 x => ?_) ?_ <;> [clear_value x; subst x]) | (refine (fun hx : KeepsF Prod.fst s0 x => ?_) ?_ <;> [(clear_value x; replace hx := hx.fst); (subst x; refine KeepsF.ofFst ?_)]) | (have _f := fun a => x a; clear _f; subst x) | clear_value x) | with_reducible assumption | with_reducible apply keeps_wakeRises | with_reducible apply keeps_startDie | with_reducible refine KeepsO.next ?_ | with_reducible refine KeepsO.ite ?_ ?_ | with_reducible refine Keeps.ite ?_ ?_ | with_reducible refine Keeps.ite1 ?_ ?_ | split | dsimp only)

theorem keeps_execRailFault {s : State} (hk : Keeps s0 s) :
    KeepsO s0 (execRailFault s) := by
  unfold execRailFault
  repeat' (first | with_reducible assumption | with_reducible apply keeps_shutDown | with_reducible refine KeepsO.next ?_ | dsimp only)

theorem keeps_execWakeTimeout {s : State} (hk : Keeps s0 s) :
    KeepsO s0 (execWakeTimeout s) := by
  unfold execWakeTimeout
  repeat' (first | with_reducible assumption | with_reducible apply keeps_updMod | with_reducible apply keeps_shutDown | with_reducible refine KeepsO.next ?_ | fail_if_no_progress (with_reducible apply Keeps.update) | dsimp only)

theorem keeps_hostBack {s : State} (hk : Keeps s0 s) :
    Keeps s0 (hostBack s) := by
  unfold hostBack
  repeat' (first | with_reducible assumption | with_reducible apply keeps_settleMod | with_reducible apply keeps_updMod | fail_if_no_progress (with_reducible apply Keeps.update) | dsimp only)

theorem keeps_heartbeat {s : State} {count : Nat} (hk : Keeps s0 s) :
    Keeps s0 (heartbeat s count) := by
  unfold heartbeat
  repeat' (first | (extract_lets +onlyGivenNames x; first | (refine (fun hx : Keeps s0 x => ?_) ?_ <;> [clear_value x; subst x]) | (refine (fun hx : KeepsF Prod.fst s0 x => ?_) ?_ <;> [(clear_value x; replace hx := hx.fst); (subst x; refine KeepsF.ofFst ?_)]) | (have _f := fun a => x a; clear _f; subst x) | clear_value x) | with_reducible assumption | with_reducible apply keeps_updMod | with_reducible apply keeps_hostBack | with_reducible refine Keeps.ite ?_ ?_ | fail_if_no_progress (with_reducible apply Keeps.update) | split | dsimp only)

theorem keeps_execHeartbeat {count : W32} {s : State} (hk : Keeps s0 s) :
    KeepsO s0 (execHeartbeat count s) := by
  unfold execHeartbeat
  repeat' (first | with_reducible assumption | with_reducible apply keeps_heartbeat | with_reducible refine KeepsO.next ?_ | dsimp only)

theorem keeps_execHostLost {why : HostLoss} {s : State} (hk : Keeps s0 s) :
    KeepsO s0 (execHostLost why s) := by
  unfold execHostLost
  repeat' (first | (extract_lets +onlyGivenNames x; first | (refine (fun hx : Keeps s0 x => ?_) ?_ <;> [clear_value x; subst x]) | (refine (fun hx : KeepsF Prod.fst s0 x => ?_) ?_ <;> [(clear_value x; replace hx := hx.fst); (subst x; refine KeepsF.ofFst ?_)]) | (have _f := fun a => x a; clear _f; subst x) | clear_value x) | with_reducible assumption | with_reducible apply keeps_heartbeat | with_reducible apply keeps_settleMod | with_reducible apply keeps_updMod | with_reducible refine KeepsO.next ?_ | with_reducible refine KeepsO.ite ?_ ?_ | with_reducible refine Keeps.ite1 ?_ ?_ | with_reducible refine Keeps.ite ?_ ?_ | split | fail_if_no_progress (with_reducible apply Keeps.update) | intro _ _ | dsimp only)

theorem keeps_execLockstepMismatch {s : State} (hk : Keeps s0 s) :
    KeepsO s0 (execLockstepMismatch s) := by
  unfold execLockstepMismatch
  repeat' (first | (extract_lets +onlyGivenNames x; first | (refine (fun hx : Keeps s0 x => ?_) ?_ <;> [clear_value x; subst x]) | (refine (fun hx : KeepsF Prod.fst s0 x => ?_) ?_ <;> [(clear_value x; replace hx := hx.fst); (subst x; refine KeepsF.ofFst ?_)]) | (have _f := fun a => x a; clear _f; subst x) | clear_value x) | with_reducible assumption | with_reducible apply keeps_updMod | with_reducible apply keeps_shutDown | with_reducible refine KeepsO.next ?_ | with_reducible refine KeepsO.ite ?_ ?_ | with_reducible refine Keeps.ite ?_ ?_ | with_reducible refine Keeps.ite1 ?_ ?_ | split | fail_if_no_progress (with_reducible apply Keeps.update) | dsimp only)

theorem keeps_execLockstepResetDone {s : State} (hk : Keeps s0 s) :
    KeepsO s0 (execLockstepResetDone s) := by
  unfold execLockstepResetDone
  repeat' (first | (extract_lets +onlyGivenNames x; first | (refine (fun hx : Keeps s0 x => ?_) ?_ <;> [clear_value x; subst x]) | (refine (fun hx : KeepsF Prod.fst s0 x => ?_) ?_ <;> [(clear_value x; replace hx := hx.fst); (subst x; refine KeepsF.ofFst ?_)]) | (have _f := fun a => x a; clear _f; subst x) | clear_value x) | with_reducible assumption | with_reducible apply keeps_settleMod | with_reducible apply keeps_updMod | with_reducible apply keeps_fypRecord | with_reducible apply keeps_statusFrame | with_reducible refine KeepsO.next ?_ | with_reducible refine KeepsO.ite ?_ ?_ | with_reducible refine Keeps.ite ?_ ?_ | with_reducible refine Keeps.ite1 ?_ ?_ | fail_if_no_progress (with_reducible apply Keeps.update) | split | dsimp only)

theorem keeps_execThermalTripOff {s : State} (hk : Keeps s0 s) :
    KeepsO s0 (execThermalTripOff s) := by
  unfold execThermalTripOff
  repeat' (first | (extract_lets +onlyGivenNames x; first | (refine (fun hx : Keeps s0 x => ?_) ?_ <;> [clear_value x; subst x]) | (refine (fun hx : KeepsF Prod.fst s0 x => ?_) ?_ <;> [(clear_value x; replace hx := hx.fst); (subst x; refine KeepsF.ofFst ?_)]) | (have _f := fun a => x a; clear _f; subst x) | clear_value x) | with_reducible assumption | with_reducible apply keeps_fresh | with_reducible apply keeps_updMod | with_reducible apply keeps_powerOff | with_reducible apply keeps_shutDown | with_reducible apply keeps_degradedFrame | with_reducible refine KeepsO.next ?_ | with_reducible refine KeepsO.ite ?_ ?_ | with_reducible refine Keeps.ite ?_ ?_ | with_reducible refine Keeps.ite1 ?_ ?_ | fail_if_no_progress (with_reducible apply Keeps.update) | split | dsimp only)

theorem keeps_execTripRestart {s : State} (hk : Keeps s0 s) :
    KeepsO s0 (execTripRestart s) := by
  unfold execTripRestart
  repeat' (first | (extract_lets +onlyGivenNames x; first | (refine (fun hx : Keeps s0 x => ?_) ?_ <;> [clear_value x; subst x]) | (refine (fun hx : KeepsF Prod.fst s0 x => ?_) ?_ <;> [(clear_value x; replace hx := hx.fst); (subst x; refine KeepsF.ofFst ?_)]) | (have _f := fun a => x a; clear _f; subst x) | clear_value x) | with_reducible assumption | with_reducible apply keeps_updMod | with_reducible apply keeps_startDie | with_reducible refine KeepsO.next ?_ | with_reducible refine KeepsO.ite ?_ ?_ | with_reducible refine Keeps.ite ?_ ?_ | with_reducible refine Keeps.ite1 ?_ ?_ | fail_if_no_progress (with_reducible apply Keeps.update) | split | dsimp only)

theorem keeps_fypHaptic {s : State} {always : Bool} (hk : Keeps s0 s) :
    Keeps s0 (fypHaptic s always) := by
  unfold fypHaptic
  repeat' (first | with_reducible assumption | with_reducible apply keeps_updMod | with_reducible refine Keeps.ite ?_ ?_ | fail_if_no_progress (with_reducible apply Keeps.update) | split | dsimp only)

theorem keeps_risenFrames {s : State} {rises : Nat} (hk : Keeps s0 s) :
    Keeps s0 (risenFrames s rises) := by
  unfold risenFrames
  repeat' (first | (extract_lets +onlyGivenNames x; first | (refine (fun hx : Keeps s0 x => ?_) ?_ <;> [clear_value x; subst x]) | (refine (fun hx : KeepsF Prod.fst s0 x => ?_) ?_ <;> [(clear_value x; replace hx := hx.fst); (subst x; refine KeepsF.ofFst ?_)]) | (have _f := fun a => x a; clear _f; subst x) | clear_value x) | with_reducible assumption | with_reducible apply keeps_fypHaptic | with_reducible apply keeps_degradedFrame | with_reducible apply keeps_fresh | with_reducible refine Keeps.ite ?_ ?_ | split | dsimp only)

theorem keeps_execFypSafetySample {s : State} (hk : Keeps s0 s) :
    KeepsO s0 (execFypSafetySample s) := by
  unfold execFypSafetySample
  repeat' (first | (extract_lets +onlyGivenNames x; first | (refine (fun hx : Keeps s0 x => ?_) ?_ <;> [clear_value x; subst x]) | (refine (fun hx : KeepsF Prod.fst s0 x => ?_) ?_ <;> [(clear_value x; replace hx := hx.fst); (subst x; refine KeepsF.ofFst ?_)]) | (have _f := fun a => x a; clear _f; subst x) | clear_value x) | with_reducible assumption | with_reducible apply keeps_settleMod | with_reducible apply keeps_updMod | with_reducible apply keeps_statusFrame | with_reducible apply keeps_risenFrames | with_reducible apply keeps_degradedFrame | with_reducible refine KeepsO.next ?_ | with_reducible refine KeepsO.ite ?_ ?_ | with_reducible refine Keeps.ite ?_ ?_ | with_reducible refine Keeps.ite1 ?_ ?_ | fail_if_no_progress (with_reducible apply Keeps.update) | split | dsimp only)

theorem keeps_execFabLost {s : State} (hk : Keeps s0 s) :
    KeepsO s0 (execFabLost s) := by
  unfold execFabLost
  repeat' (first | (extract_lets +onlyGivenNames x; first | (refine (fun hx : Keeps s0 x => ?_) ?_ <;> [clear_value x; subst x]) | (refine (fun hx : KeepsF Prod.fst s0 x => ?_) ?_ <;> [(clear_value x; replace hx := hx.fst); (subst x; refine KeepsF.ofFst ?_)]) | (have _f := fun a => x a; clear _f; subst x) | clear_value x) | with_reducible assumption | with_reducible apply keeps_fypHaptic | with_reducible apply keeps_degradedFrame | with_reducible apply keeps_updMod | with_reducible apply keeps_shutDown | with_reducible apply keeps_startDie | with_reducible refine KeepsO.next ?_ | with_reducible refine KeepsO.ite ?_ ?_ | with_reducible refine Keeps.ite ?_ ?_ | with_reducible refine Keeps.ite1 ?_ ?_ | fail_if_no_progress (with_reducible apply Keeps.update) | split | dsimp only)

theorem keeps_execCoolantUpdate {cold : Int} {reg : Int} {s : State} (hk : Keeps s0 s) :
    KeepsO s0 (execCoolantUpdate cold reg s) := by
  unfold execCoolantUpdate
  repeat' (first | (extract_lets +onlyGivenNames x; first | (refine (fun hx : Keeps s0 x => ?_) ?_ <;> [clear_value x; subst x]) | (refine (fun hx : KeepsF Prod.fst s0 x => ?_) ?_ <;> [(clear_value x; replace hx := hx.fst); (subst x; refine KeepsF.ofFst ?_)]) | (have _f := fun a => x a; clear _f; subst x) | clear_value x) | with_reducible assumption | with_reducible apply keeps_updMod | with_reducible apply keeps_pageWrite | with_reducible refine KeepsO.next ?_ | with_reducible refine KeepsO.ite ?_ ?_ | with_reducible refine Keeps.ite1 ?_ ?_ | with_reducible refine Keeps.ite ?_ ?_ | split | fail_if_no_progress (with_reducible apply Keeps.update) | intro _ _ | dsimp only)

theorem keeps_writeLedger {s : State} {bitmap : List Byte} (hk : Keeps s0 s) :
    Keeps s0 (writeLedger s bitmap) := by
  unfold writeLedger
  repeat' (first | (extract_lets +onlyGivenNames x; first | (refine (fun hx : Keeps s0 x => ?_) ?_ <;> [clear_value x; subst x]) | (refine (fun hx : KeepsF Prod.fst s0 x => ?_) ?_ <;> [(clear_value x; replace hx := hx.fst); (subst x; refine KeepsF.ofFst ?_)]) | (have _f := fun a => x a; clear _f; subst x) | clear_value x) | with_reducible assumption | with_reducible apply keeps_updMod | split | fail_if_no_progress (with_reducible apply Keeps.update) | dsimp only)

theorem keeps_ledgerTaken {s : State} {bitmap : List Byte} (hk : Keeps s0 s) :
    Keeps s0 (ledgerTaken s bitmap) := by
  unfold ledgerTaken
  repeat' (first | with_reducible assumption | with_reducible apply keeps_wf | with_reducible apply keeps_updBoot | fail_if_no_progress (with_reducible apply Keeps.update) | dsimp only)

theorem keeps_execLedgerDeliver {s : State} (hk : Keeps s0 s) :
    KeepsO s0 (execLedgerDeliver s) := by
  unfold execLedgerDeliver
  repeat' (first | (extract_lets +onlyGivenNames x; first | (refine (fun hx : Keeps s0 x => ?_) ?_ <;> [clear_value x; subst x]) | (refine (fun hx : KeepsF Prod.fst s0 x => ?_) ?_ <;> [(clear_value x; replace hx := hx.fst); (subst x; refine KeepsF.ofFst ?_)]) | (have _f := fun a => x a; clear _f; subst x) | clear_value x) | with_reducible assumption | with_reducible apply keeps_fypRecord | with_reducible apply keeps_ledgerTaken | with_reducible apply keeps_writeLedger | with_reducible refine KeepsO.next ?_ | with_reducible refine KeepsO.ite ?_ ?_ | with_reducible refine Keeps.ite ?_ ?_ | with_reducible refine Keeps.ite1 ?_ ?_ | split | dsimp only)

theorem keeps_execLedgerTimeout {s : State} (hk : Keeps s0 s) :
    KeepsO s0 (execLedgerTimeout s) := by
  unfold execLedgerTimeout
  repeat' (first | with_reducible assumption | with_reducible apply keeps_softRecord | with_reducible apply keeps_ledgerTaken | with_reducible refine KeepsO.next ?_ | with_reducible refine KeepsO.ite ?_ ?_ | with_reducible refine Keeps.ite ?_ ?_ | with_reducible refine Keeps.ite1 ?_ ?_ | split | dsimp only)

theorem keeps_execLedgerUpdate {s : State} (hk : Keeps s0 s) :
    KeepsO s0 (execLedgerUpdate s) := by
  unfold execLedgerUpdate
  repeat' (first | (extract_lets +onlyGivenNames x; first | (refine (fun hx : Keeps s0 x => ?_) ?_ <;> [clear_value x; subst x]) | (refine (fun hx : KeepsF Prod.fst s0 x => ?_) ?_ <;> [(clear_value x; replace hx := hx.fst); (subst x; refine KeepsF.ofFst ?_)]) | (have _f := fun a => x a; clear _f; subst x) | clear_value x) | with_reducible assumption | with_reducible apply keeps_fypRecord | with_reducible apply keeps_writeLedger | with_reducible refine KeepsO.next ?_ | with_reducible refine KeepsO.ite ?_ ?_ | with_reducible refine Keeps.ite ?_ ?_ | with_reducible refine Keeps.ite1 ?_ ?_ | split | dsimp only)

theorem keeps_fypRun {s : State} {cmd : Nat} (hk : Keeps s0 s) :
    Keeps s0 (fypRun s cmd) := by
  unfold fypRun
  repeat' (first | (extract_lets +onlyGivenNames x; first | (refine (fun hx : Keeps s0 x => ?_) ?_ <;> [clear_value x; subst x]) | (refine (fun hx : KeepsF Prod.fst s0 x => ?_) ?_ <;> [(clear_value x; replace hx := hx.fst); (subst x; refine KeepsF.ofFst ?_)]) | (have _f := fun a => x a; clear _f; subst x) | clear_value x) | with_reducible assumption | with_reducible apply keeps_shutDown | with_reducible apply keeps_startDie | with_reducible apply keeps_updMod | with_reducible refine Keeps.ite ?_ ?_ | split | fail_if_no_progress (with_reducible apply Keeps.update) | dsimp only)

theorem keeps_fypCommand {s : State} {cmd : Nat} {key : Nat} {wake : Bool} (hk : Keeps s0 s) :
    Keeps s0 (fypCommand s cmd key wake) := by
  unfold fypCommand
  repeat' (first | (extract_lets +onlyGivenNames x; first | (refine (fun hx : Keeps s0 x => ?_) ?_ <;> [clear_value x; subst x]) | (refine (fun hx : KeepsF Prod.fst s0 x => ?_) ?_ <;> [(clear_value x; replace hx := hx.fst); (subst x; refine KeepsF.ofFst ?_)]) | (have _f := fun a => x a; clear _f; subst x) | clear_value x) | with_reducible assumption | with_reducible apply keeps_fypRun | with_reducible apply keeps_updMod | with_reducible refine Keeps.ite ?_ ?_ | fail_if_no_progress (with_reducible apply Keeps.update) | split | dsimp only)

theorem keeps_execRestart {key : Nat} {wake : Bool} {s : State} (hk : Keeps s0 s) :
    KeepsO s0 (execRestart key wake s) := by
  unfold execRestart
  repeat' (first | with_reducible assumption | with_reducible apply keeps_fypCommand | with_reducible refine KeepsO.next ?_ | dsimp only)

theorem keeps_execServiceBoot {key : Nat} {wake : Bool} {s : State} (hk : Keeps s0 s) :
    KeepsO s0 (execServiceBoot key wake s) := by
  unfold execServiceBoot
  repeat' (first | with_reducible assumption | with_reducible apply keeps_fypCommand | with_reducible refine KeepsO.next ?_ | dsimp only)

theorem keeps_execShutdown {key : Nat} {wake : Bool} {s : State} (hk : Keeps s0 s) :
    KeepsO s0 (execShutdown key wake s) := by
  unfold execShutdown
  repeat' (first | with_reducible assumption | with_reducible apply keeps_fypCommand | with_reducible refine KeepsO.next ?_ | dsimp only)

theorem keeps_execLedgerClear {key : Nat} {wake : Bool} {s : State} (hk : Keeps s0 s) :
    KeepsO s0 (execLedgerClear key wake s) := by
  unfold execLedgerClear
  repeat' (first | with_reducible assumption | with_reducible apply keeps_fypCommand | with_reducible refine KeepsO.next ?_ | dsimp only)

theorem keeps_execCanSet {key : Nat} {wake : Bool} {s : State} (hk : Keeps s0 s) :
    KeepsO s0 (execCanSet key wake s) := by
  unfold execCanSet
  repeat' (first | with_reducible assumption | with_reducible apply keeps_fypCommand | with_reducible refine KeepsO.next ?_ | dsimp only)

theorem keeps_hostCfg {s : State} {w : Nat} (hk : Keeps s0 s) :
    Keeps s0 (hostCfg s w) := by
  unfold hostCfg
  repeat' (first | (extract_lets +onlyGivenNames x; first | (refine (fun hx : Keeps s0 x => ?_) ?_ <;> [clear_value x; subst x]) | (refine (fun hx : KeepsF Prod.fst s0 x => ?_) ?_ <;> [(clear_value x; replace hx := hx.fst); (subst x; refine KeepsF.ofFst ?_)]) | (have _f := fun a => x a; clear _f; subst x) | clear_value x) | with_reducible assumption | with_reducible apply keeps_fresh | with_reducible apply keeps_updMod | with_reducible refine Keeps.ite ?_ ?_ | fail_if_no_progress (with_reducible apply Keeps.update) | split | dsimp only)

theorem keeps_mailboxSet {s : State} {off : Nat} {w : Nat} (hk : Keeps s0 s) :
    Keeps s0 (mailboxSet s off w) := by
  unfold mailboxSet
  repeat' (first | with_reducible assumption | with_reducible apply keeps_heartbeat | with_reducible apply keeps_hostCfg | with_reducible apply keeps_updMod | with_reducible apply keeps_fypCommand | split | fail_if_no_progress (with_reducible apply Keeps.update) | dsimp only)

theorem keeps_execMailboxWrite {off : Nat} {data : List Byte} {s : State} (hk : Keeps s0 s) :
    KeepsO s0 (execMailboxWrite off data s) := by
  unfold execMailboxWrite
  repeat' (first | with_reducible assumption | with_reducible apply keeps_mailboxSet | with_reducible refine KeepsO.next ?_ | with_reducible refine KeepsO.ite ?_ ?_ | with_reducible refine Keeps.ite ?_ ?_ | with_reducible refine Keeps.ite1 ?_ ?_ | with_reducible refine Keeps.foldl (fun _ _ _ => ?_) ?_ | with_reducible refine Keeps.foldl1 (fun _ _ _ => ?_) ?_ | split | dsimp only)

theorem keeps_execAlertFrame {s : State} (hk : Keeps s0 s) :
    KeepsO s0 (execAlertFrame s) := by
  unfold execAlertFrame
  repeat' (first | (extract_lets +onlyGivenNames x; first | (refine (fun hx : Keeps s0 x => ?_) ?_ <;> [clear_value x; subst x]) | (refine (fun hx : KeepsF Prod.fst s0 x => ?_) ?_ <;> [(clear_value x; replace hx := hx.fst); (subst x; refine KeepsF.ofFst ?_)]) | (have _f := fun a => x a; clear _f; subst x) | clear_value x) | with_reducible assumption | with_reducible apply keeps_sendCan | with_reducible apply keeps_updMod | with_reducible refine KeepsO.next ?_ | with_reducible refine KeepsO.ite ?_ ?_ | with_reducible refine Keeps.ite ?_ ?_ | with_reducible refine Keeps.ite1 ?_ ?_ | split | fail_if_no_progress (with_reducible apply Keeps.update) | dsimp only)

theorem keeps_execStatusFrame {s : State} (hk : Keeps s0 s) :
    KeepsO s0 (execStatusFrame s) := by
  unfold execStatusFrame
  repeat' (first | with_reducible assumption | with_reducible apply keeps_statusFrame | with_reducible refine KeepsO.next ?_ | dsimp only)

theorem keeps_execDegradedFrame {s : State} (hk : Keeps s0 s) :
    KeepsO s0 (execDegradedFrame s) := by
  unfold execDegradedFrame
  repeat' (first | with_reducible assumption | with_reducible apply keeps_updMod | with_reducible apply keeps_degradedFrame | with_reducible refine KeepsO.next ?_ | with_reducible refine KeepsO.ite ?_ ?_ | with_reducible refine Keeps.ite ?_ ?_ | with_reducible refine Keeps.ite1 ?_ ?_ | split | fail_if_no_progress (with_reducible apply Keeps.update) | dsimp only)

theorem keeps_execVehicle {data : List Byte} {s : State} (hk : Keeps s0 s) :
    KeepsO s0 (execVehicle data s) := by
  unfold execVehicle
  repeat' (first | (extract_lets +onlyGivenNames x; first | (refine (fun hx : Keeps s0 x => ?_) ?_ <;> [clear_value x; subst x]) | (refine (fun hx : KeepsF Prod.fst s0 x => ?_) ?_ <;> [(clear_value x; replace hx := hx.fst); (subst x; refine KeepsF.ofFst ?_)]) | (have _f := fun a => x a; clear _f; subst x) | clear_value x) | with_reducible assumption | with_reducible apply keeps_updMod | with_reducible refine KeepsO.next ?_ | with_reducible refine KeepsO.ite ?_ ?_ | with_reducible refine Keeps.ite ?_ ?_ | with_reducible refine Keeps.ite1 ?_ ?_ | fail_if_no_progress (with_reducible apply Keeps.update) | split | dsimp only)

theorem keeps_execVehicleTimeout {s : State} (hk : Keeps s0 s) :
    KeepsO s0 (execVehicleTimeout s) := by
  unfold execVehicleTimeout
  repeat' (first | with_reducible assumption | with_reducible apply keeps_updMod | with_reducible refine KeepsO.next ?_ | fail_if_no_progress (with_reducible apply Keeps.update) | dsimp only)

end Sys2Proof.Laws
end

