-- ==== Sys2Proof/Laws/KeepsPciTlp.lean ====
section
/-!
SUPPORT. Laws/KeepsPciTlp.lean: the operations of Machine/PciTlp.lean keep the queue, the clock and the form of the memory.
-/
namespace Sys2Proof.Laws
open Sys2Proof Sys2Proof.Machine

variable {s0 : State}
set_option linter.unreachableTactic false
set_option linter.unusedTactic false

theorem keeps_msixWrite {s : State} {fn : Nat} {o : Nat} {bs : List Byte} (hk : Keeps s0 s) :
    Keeps s0 (msixWrite s fn o bs) := by
  unfold msixWrite
  repeat' (first | (extract_lets +onlyGivenNames x; first | (refine (fun hx : Keeps s0 x => ?_) ?_ <;> [clear_value x; subst x]) | (refine (fun hx : KeepsF Prod.fst s0 x => ?_) ?_ <;> [(clear_value x; replace hx := hx.fst); (subst x; refine KeepsF.ofFst ?_)]) | (have _f := fun a => x a; clear _f; subst x) | clear_value x) | with_reducible assumption | with_reducible apply keeps_sendPending | with_reducible apply keeps_updFunc | fail_if_no_progress (with_reducible apply Keeps.update) | dsimp only)

theorem keeps_updView {s : State} {p : Nat} {f : PartView → PartView} (hk : Keeps s0 s) :
    Keeps s0 (updView s p f) := by
  unfold updView
  repeat' (first | with_reducible assumption | with_reducible apply keeps_updDpt | fail_if_no_progress (with_reducible apply Keeps.update) | dsimp only)

theorem keeps_viewRead {s : State} {p : Nat} {off : Nat} (hk : Keeps s0 s) :
    Keeps s0 (viewRead s p off).1 := by
  unfold viewRead
  repeat' (first | with_reducible assumption | with_reducible apply keeps_updView | with_reducible refine Keeps.ite1 ?_ ?_ | with_reducible refine Keeps.ite ?_ ?_ | fail_if_no_progress (with_reducible apply Keeps.update) | split | dsimp only)

theorem keeps_setViewQry {s : State} {p : Nat} {i : Nat} {w : Nat} (hk : Keeps s0 s) :
    Keeps s0 (setViewQry s p i w) := by
  unfold setViewQry
  repeat' (first | with_reducible assumption | with_reducible apply keeps_updView | fail_if_no_progress (with_reducible apply Keeps.update) | dsimp only)

theorem keeps_viewQuarry {s : State} {p : Nat} {op : Nat} (hk : Keeps s0 s) :
    Keeps s0 (viewQuarry s p op) := by
  unfold viewQuarry
  repeat' (first | (extract_lets +onlyGivenNames x; first | (refine (fun hx : Keeps s0 x => ?_) ?_ <;> [clear_value x; subst x]) | (refine (fun hx : KeepsF Prod.fst s0 x => ?_) ?_ <;> [(clear_value x; replace hx := hx.fst); (subst x; refine KeepsF.ofFst ?_)]) | (have _f := fun a => x a; clear _f; subst x) | clear_value x) | with_reducible assumption | with_reducible apply keeps_allocate | with_reducible apply keeps_setViewQry | with_reducible apply keeps_freeHandle | with_reducible refine Keeps.ite1 ?_ ?_ | with_reducible refine Keeps.ite ?_ ?_ | split | dsimp only)

theorem keeps_viewNotice {s : State} {p : Nat} (hk : Keeps s0 s) :
    Keeps s0 (viewNotice s p) := by
  unfold viewNotice
  repeat' (first | (extract_lets +onlyGivenNames x; first | (refine (fun hx : Keeps s0 x => ?_) ?_ <;> [clear_value x; subst x]) | (refine (fun hx : KeepsF Prod.fst s0 x => ?_) ?_ <;> [(clear_value x; replace hx := hx.fst); (subst x; refine KeepsF.ofFst ?_)]) | (have _f := fun a => x a; clear _f; subst x) | clear_value x) | with_reducible assumption | with_reducible apply keeps_sendMsix | with_reducible refine Keeps.ite ?_ ?_ | split | dsimp only)

theorem keeps_viewSet {s : State} {p : Nat} {off : Nat} {w : Nat} (hk : Keeps s0 s) :
    Keeps s0 (viewSet s p off w) := by
  unfold viewSet
  repeat' (first | (extract_lets +onlyGivenNames x; first | (refine (fun hx : Keeps s0 x => ?_) ?_ <;> [clear_value x; subst x]) | (refine (fun hx : KeepsF Prod.fst s0 x => ?_) ?_ <;> [(clear_value x; replace hx := hx.fst); (subst x; refine KeepsF.ofFst ?_)]) | (have _f := fun a => x a; clear _f; subst x) | clear_value x) | with_reducible assumption | with_reducible apply keeps_settleParts | with_reducible apply keeps_updView | with_reducible apply keeps_viewNotice | with_reducible apply keeps_setViewQry | with_reducible apply keeps_viewQuarry | with_reducible refine Keeps.ite ?_ ?_ | split | fail_if_no_progress (with_reducible apply Keeps.update) | dsimp only)

theorem keeps_viewWrite {s : State} {p : Nat} {off : Nat} {w : Nat} {part : Bool} (hk : Keeps s0 s) :
    Keeps s0 (viewWrite s p off w part) := by
  unfold viewWrite
  repeat' (first | (extract_lets +onlyGivenNames x; first | (refine (fun hx : Keeps s0 x => ?_) ?_ <;> [clear_value x; subst x]) | (refine (fun hx : KeepsF Prod.fst s0 x => ?_) ?_ <;> [(clear_value x; replace hx := hx.fst); (subst x; refine KeepsF.ofFst ?_)]) | (have _f := fun a => x a; clear _f; subst x) | clear_value x) | with_reducible assumption | with_reducible apply keeps_fault | with_reducible apply keeps_viewSet | with_reducible refine Keeps.ite1 ?_ ?_ | with_reducible refine Keeps.ite ?_ ?_ | split | fail_if_no_progress (with_reducible apply Keeps.update) | dsimp only)

theorem keeps_viewWords {p : Nat} {z0 : Nat} {z1 : State} {z2 : Nat} (hk : Keeps s0 z1) :
    Keeps s0 (viewWords p z0 z1 z2).1 := by
  induction z0 generalizing z1 z2 with
  | zero =>
    unfold viewWords
    repeat' (first | (extract_lets +onlyGivenNames x; first | (refine (fun hx : Keeps s0 x => ?_) ?_ <;> [clear_value x; subst x]) | (refine (fun hx : KeepsF Prod.fst s0 x => ?_) ?_ <;> [(clear_value x; replace hx := hx.fst); (subst x; refine KeepsF.ofFst ?_)]) | (have _f := fun a => x a; clear _f; subst x) | clear_value x) | with_reducible assumption | with_reducible apply keeps_viewRead | with_reducible refine Keeps.ite1 ?_ ?_ | with_reducible refine Keeps.ite ?_ ?_ | split | dsimp only)
  | succ y ihk =>
    unfold viewWords
    repeat' (first | (extract_lets +onlyGivenNames x; first | (refine (fun hx : Keeps s0 x => ?_) ?_ <;> [clear_value x; subst x]) | (refine (fun hx : KeepsF Prod.fst s0 x => ?_) ?_ <;> [(clear_value x; replace hx := hx.fst); (subst x; refine KeepsF.ofFst ?_)]) | (have _f := fun a => x a; clear _f; subst x) | clear_value x) | with_reducible assumption | with_reducible apply ihk | with_reducible apply keeps_viewRead | with_reducible refine Keeps.ite1 ?_ ?_ | with_reducible refine Keeps.ite ?_ ?_ | split | dsimp only)

theorem keeps_doorbellTlp {s : State} {req : Req} {q : Nat} {o : Nat} {bs : List Byte} {cycles : Nat} (hk : Keeps s0 s) :
    Keeps s0 (doorbellTlp s req q o bs cycles) := by
  unfold doorbellTlp
  repeat' (first | (extract_lets +onlyGivenNames x; first | (refine (fun hx : Keeps s0 x => ?_) ?_ <;> [clear_value x; subst x]) | (refine (fun hx : KeepsF Prod.fst s0 x => ?_) ?_ <;> [(clear_value x; replace hx := hx.fst); (subst x; refine KeepsF.ofFst ?_)]) | (have _f := fun a => x a; clear _f; subst x) | clear_value x) | with_reducible assumption | with_reducible apply keeps_doorbell | with_reducible apply keeps_fault | with_reducible refine Keeps.ite1 ?_ ?_ | with_reducible refine Keeps.ite ?_ ?_ | split | dsimp only)

theorem keeps_doorbellWords {req : Req} {z0 : Nat} {z1 : State} {z2 : Nat} (hk : Keeps s0 z1) :
    Keeps s0 (doorbellWords req z0 z1 z2).1 := by
  induction z0 generalizing z1 z2 with
  | zero =>
    unfold doorbellWords
    repeat' (first | (extract_lets +onlyGivenNames x; first | (refine (fun hx : Keeps s0 x => ?_) ?_ <;> [clear_value x; subst x]) | (refine (fun hx : KeepsF Prod.fst s0 x => ?_) ?_ <;> [(clear_value x; replace hx := hx.fst); (subst x; refine KeepsF.ofFst ?_)]) | (have _f := fun a => x a; clear _f; subst x) | clear_value x) | with_reducible assumption | with_reducible apply keeps_doorbellRead | with_reducible refine Keeps.ite1 ?_ ?_ | with_reducible refine Keeps.ite ?_ ?_ | split | dsimp only)
  | succ y ihk =>
    unfold doorbellWords
    repeat' (first | (extract_lets +onlyGivenNames x; first | (refine (fun hx : Keeps s0 x => ?_) ?_ <;> [clear_value x; subst x]) | (refine (fun hx : KeepsF Prod.fst s0 x => ?_) ?_ <;> [(clear_value x; replace hx := hx.fst); (subst x; refine KeepsF.ofFst ?_)]) | (have _f := fun a => x a; clear _f; subst x) | clear_value x) | with_reducible assumption | with_reducible apply ihk | with_reducible apply keeps_doorbellRead | with_reducible refine Keeps.ite1 ?_ ?_ | with_reducible refine Keeps.ite ?_ ?_ | split | dsimp only)

theorem keeps_doorbellBytes {s : State} {req : Req} {first : Nat} {o : Nat} {n : Nat} (hk : Keeps s0 s) :
    Keeps s0 (doorbellBytes s req first o n).1 := by
  unfold doorbellBytes
  repeat' (first | (extract_lets +onlyGivenNames x; first | (refine (fun hx : Keeps s0 x => ?_) ?_ <;> [clear_value x; subst x]) | (refine (fun hx : KeepsF Prod.fst s0 x => ?_) ?_ <;> [(clear_value x; replace hx := hx.fst); (subst x; refine KeepsF.ofFst ?_)]) | (have _f := fun a => x a; clear _f; subst x) | clear_value x) | with_reducible assumption | with_reducible apply keeps_doorbellWords | with_reducible refine Keeps.ite1 ?_ ?_ | with_reducible refine Keeps.ite ?_ ?_ | split | dsimp only)

theorem keeps_logAbort {s : State} {fn : Nat} {write : Bool} {hdr : List Nat} (hk : Keeps s0 s) :
    Keeps s0 (logAbort s fn write hdr) := by
  unfold logAbort
  repeat' (first | (extract_lets +onlyGivenNames x; first | (refine (fun hx : Keeps s0 x => ?_) ?_ <;> [clear_value x; subst x]) | (refine (fun hx : KeepsF Prod.fst s0 x => ?_) ?_ <;> [(clear_value x; replace hx := hx.fst); (subst x; refine KeepsF.ofFst ?_)]) | (have _f := fun a => x a; clear _f; subst x) | clear_value x) | with_reducible assumption | with_reducible apply keeps_logAer | with_reducible apply keeps_logAdvisory | with_reducible refine Keeps.ite1 ?_ ?_ | with_reducible refine Keeps.ite ?_ ?_ | split | dsimp only)

theorem keeps_windowRefused {s : State} {fn : Nat} {a : Nat} {write : Bool} {len : Nat} {hdr : List Nat} (hk : Keeps s0 s) :
    Keeps s0 (windowRefused s fn a write len hdr) := by
  unfold windowRefused
  repeat' (first | (extract_lets +onlyGivenNames x; first | (refine (fun hx : Keeps s0 x => ?_) ?_ <;> [clear_value x; subst x]) | (refine (fun hx : KeepsF Prod.fst s0 x => ?_) ?_ <;> [(clear_value x; replace hx := hx.fst); (subst x; refine KeepsF.ofFst ?_)]) | (have _f := fun a => x a; clear _f; subst x) | clear_value x) | with_reducible assumption | with_reducible apply keeps_bump | with_reducible apply keeps_fault | with_reducible apply keeps_logAbort | with_reducible apply keeps_raise | with_reducible refine Keeps.ite1 ?_ ?_ | with_reducible refine Keeps.ite ?_ ?_ | split | dsimp only)

theorem keeps_pieceFailed {s : State} {fn : Nat} {a : Nat} {st : Nat} {write : Bool} {hdr : List Nat} (hk : Keeps s0 s) :
    Keeps s0 (pieceFailed s fn a st write hdr) := by
  unfold pieceFailed
  repeat' (first | (extract_lets +onlyGivenNames x; first | (refine (fun hx : Keeps s0 x => ?_) ?_ <;> [clear_value x; subst x]) | (refine (fun hx : KeepsF Prod.fst s0 x => ?_) ?_ <;> [(clear_value x; replace hx := hx.fst); (subst x; refine KeepsF.ofFst ?_)]) | (have _f := fun a => x a; clear _f; subst x) | clear_value x) | with_reducible assumption | with_reducible apply keeps_logAbort | with_reducible apply keeps_fault | with_reducible refine Keeps.ite1 ?_ ?_ | with_reducible refine Keeps.ite ?_ ?_ | split | dsimp only)

theorem keeps_readTlp {fn : Nat} {z0 : List (Nat × Nat)} {z1 : State} (hk : Keeps s0 z1) :
    Keeps s0 (readTlp fn z0 z1).1 := by
  induction z0 generalizing z1 with
  | nil =>
    unfold readTlp
    repeat' (first | (extract_lets +onlyGivenNames x; first | (refine (fun hx : Keeps s0 x => ?_) ?_ <;> [clear_value x; subst x]) | (refine (fun hx : KeepsF Prod.fst s0 x => ?_) ?_ <;> [(clear_value x; replace hx := hx.fst); (subst x; refine KeepsF.ofFst ?_)]) | (have _f := fun a => x a; clear _f; subst x) | clear_value x) | with_reducible assumption | with_reducible apply keeps_carryRead | with_reducible apply keeps_placeLoad | with_reducible refine Keeps.ite1 ?_ ?_ | with_reducible refine Keeps.ite ?_ ?_ | split | intro _ _ | dsimp only)
  | cons y ys ihk =>
    obtain ⟨_,_⟩ := y
    unfold readTlp
    repeat' (first | (extract_lets +onlyGivenNames x; first | (refine (fun hx : Keeps s0 x => ?_) ?_ <;> [clear_value x; subst x]) | (refine (fun hx : KeepsF Prod.fst s0 x => ?_) ?_ <;> [(clear_value x; replace hx := hx.fst); (subst x; refine KeepsF.ofFst ?_)]) | (have _f := fun a => x a; clear _f; subst x) | clear_value x) | with_reducible assumption | with_reducible apply ihk | with_reducible apply keeps_carryRead | with_reducible apply keeps_placeLoad | with_reducible refine Keeps.ite1 ?_ ?_ | with_reducible refine Keeps.ite ?_ ?_ | split | intro _ _ | dsimp only)

theorem keeps_writeTlp {fn : Nat} {ep : Bool} {z0 : List (Nat × Nat)} {z1 : State} {z2 : List Byte} (hk : Keeps s0 z1) :
    Keeps s0 (writeTlp fn ep z0 z1 z2).1 := by
  induction z0 generalizing z1 z2 with
  | nil =>
    unfold writeTlp
    repeat' (first | (extract_lets +onlyGivenNames x; first | (refine (fun hx : Keeps s0 x => ?_) ?_ <;> [clear_value x; subst x]) | (refine (fun hx : KeepsF Prod.fst s0 x => ?_) ?_ <;> [(clear_value x; replace hx := hx.fst); (subst x; refine KeepsF.ofFst ?_)]) | (have _f := fun a => x a; clear _f; subst x) | clear_value x) | with_reducible assumption | with_reducible apply keeps_carryWrite | with_reducible apply keeps_placeStore | with_reducible refine Keeps.ite1 ?_ ?_ | with_reducible refine Keeps.ite ?_ ?_ | split | intro _ _ | dsimp only)
  | cons y ys ihk =>
    obtain ⟨_,_⟩ := y
    unfold writeTlp
    repeat' (first | (extract_lets +onlyGivenNames x; first | (refine (fun hx : Keeps s0 x => ?_) ?_ <;> [clear_value x; subst x]) | (refine (fun hx : KeepsF Prod.fst s0 x => ?_) ?_ <;> [(clear_value x; replace hx := hx.fst); (subst x; refine KeepsF.ofFst ?_)]) | (have _f := fun a => x a; clear _f; subst x) | clear_value x) | with_reducible assumption | with_reducible apply ihk | with_reducible apply keeps_carryWrite | with_reducible apply keeps_placeStore | with_reducible refine Keeps.ite1 ?_ ?_ | with_reducible refine Keeps.ite ?_ ?_ | split | intro _ _ | dsimp only)

theorem keeps_readView {s : State} {fn : Nat} {o : Nat} {n : Nat} (hk : Keeps s0 s) :
    Keeps s0 (readView s fn o n).1 := by
  refine KeepsF.fst ?_
  unfold readView
  repeat' (first | (extract_lets +onlyGivenNames x; first | (refine (fun hx : Keeps s0 x => ?_) ?_ <;> [clear_value x; subst x]) | (refine (fun hx : KeepsF Prod.fst s0 x => ?_) ?_ <;> [(clear_value x; replace hx := hx.fst); (subst x; refine KeepsF.ofFst ?_)]) | (have _f := fun a => x a; clear _f; subst x) | clear_value x) | with_reducible refine KeepsF.ite ?_ ?_ | with_reducible refine KeepsF.pair ?_ | (with_reducible refine KeepsF.ofFst ?_; with_reducible apply keeps_viewWords) | (with_reducible refine KeepsF.ofFst ?_; with_reducible apply keeps_doorbellBytes) | with_reducible assumption | with_reducible apply keeps_viewWords | with_reducible apply keeps_doorbellBytes | with_reducible refine Keeps.ite1 ?_ ?_ | with_reducible refine Keeps.ite ?_ ?_ | split | with_reducible refine KeepsF.ofFst ?_ | dsimp only)

theorem keeps_writeView {s : State} {fn : Nat} {o : Nat} {bs : List Byte} {cycles : Nat} (hk : Keeps s0 s) :
    Keeps s0 (writeView s fn o bs cycles).1 := by
  unfold writeView
  repeat' (first | (extract_lets +onlyGivenNames x; first | (refine (fun hx : Keeps s0 x => ?_) ?_ <;> [clear_value x; subst x]) | (refine (fun hx : KeepsF Prod.fst s0 x => ?_) ?_ <;> [(clear_value x; replace hx := hx.fst); (subst x; refine KeepsF.ofFst ?_)]) | (have _f := fun a => x a; clear _f; subst x) | clear_value x) | with_reducible assumption | with_reducible apply keeps_viewWrite | with_reducible apply keeps_msixWrite | with_reducible apply keeps_doorbellTlp | with_reducible refine Keeps.ite1 ?_ ?_ | with_reducible refine Keeps.ite ?_ ?_ | with_reducible refine Keeps.foldl (fun _ _ _ => ?_) ?_ | with_reducible refine Keeps.foldl1 (fun _ _ _ => ?_) ?_ | split | intro _ _ | dsimp only)

theorem keeps_readViews {fn : Nat} {z0 : List (Nat × Nat)} {z1 : State} (hk : Keeps s0 z1) :
    Keeps s0 (readViews fn z0 z1).1 := by
  induction z0 generalizing z1 with
  | nil =>
    unfold readViews
    repeat' (first | (extract_lets +onlyGivenNames x; first | (refine (fun hx : Keeps s0 x => ?_) ?_ <;> [clear_value x; subst x]) | (refine (fun hx : KeepsF Prod.fst s0 x => ?_) ?_ <;> [(clear_value x; replace hx := hx.fst); (subst x; refine KeepsF.ofFst ?_)]) | (have _f := fun a => x a; clear _f; subst x) | clear_value x) | with_reducible assumption | with_reducible apply keeps_readView | with_reducible refine Keeps.ite1 ?_ ?_ | with_reducible refine Keeps.ite ?_ ?_ | split | dsimp only)
  | cons y ys ihk =>
    obtain ⟨_,_⟩ := y
    unfold readViews
    repeat' (first | (extract_lets +onlyGivenNames x; first | (refine (fun hx : Keeps s0 x => ?_) ?_ <;> [clear_value x; subst x]) | (refine (fun hx : KeepsF Prod.fst s0 x => ?_) ?_ <;> [(clear_value x; replace hx := hx.fst); (subst x; refine KeepsF.ofFst ?_)]) | (have _f := fun a => x a; clear _f; subst x) | clear_value x) | with_reducible assumption | with_reducible apply ihk | with_reducible apply keeps_readView | with_reducible refine Keeps.ite1 ?_ ?_ | with_reducible refine Keeps.ite ?_ ?_ | split | dsimp only)

theorem keeps_writeViews {fn : Nat} {cycles : Nat} {z0 : List (Nat × Nat)} {z1 : State} {z2 : List Byte} (hk : Keeps s0 z1) :
    Keeps s0 (writeViews fn cycles z0 z1 z2).1 := by
  induction z0 generalizing z1 z2 with
  | nil =>
    unfold writeViews
    repeat' (first | (extract_lets +onlyGivenNames x; first | (refine (fun hx : Keeps s0 x => ?_) ?_ <;> [clear_value x; subst x]) | (refine (fun hx : KeepsF Prod.fst s0 x => ?_) ?_ <;> [(clear_value x; replace hx := hx.fst); (subst x; refine KeepsF.ofFst ?_)]) | (have _f := fun a => x a; clear _f; subst x) | clear_value x) | with_reducible assumption | with_reducible apply keeps_writeView | with_reducible refine Keeps.ite1 ?_ ?_ | with_reducible refine Keeps.ite ?_ ?_ | split | dsimp only)
  | cons y ys ihk =>
    obtain ⟨_,_⟩ := y
    unfold writeViews
    repeat' (first | (extract_lets +onlyGivenNames x; first | (refine (fun hx : Keeps s0 x => ?_) ?_ <;> [clear_value x; subst x]) | (refine (fun hx : KeepsF Prod.fst s0 x => ?_) ?_ <;> [(clear_value x; replace hx := hx.fst); (subst x; refine KeepsF.ofFst ?_)]) | (have _f := fun a => x a; clear _f; subst x) | clear_value x) | with_reducible assumption | with_reducible apply ihk | with_reducible apply keeps_writeView | with_reducible refine Keeps.ite1 ?_ ?_ | with_reducible refine Keeps.ite ?_ ?_ | split | dsimp only)

theorem keeps_completeRead {s : State} {fn : Nat} {a : Nat} {st : Nat} {bs : List Byte} {hdr : List Nat} (hk : Keeps s0 s) :
    Keeps s0 (completeRead s fn a st bs hdr) := by
  unfold completeRead
  repeat' (first | (extract_lets +onlyGivenNames x; first | (refine (fun hx : Keeps s0 x => ?_) ?_ <;> [clear_value x; subst x]) | (refine (fun hx : KeepsF Prod.fst s0 x => ?_) ?_ <;> [(clear_value x; replace hx := hx.fst); (subst x; refine KeepsF.ofFst ?_)]) | (have _f := fun a => x a; clear _f; subst x) | clear_value x) | with_reducible assumption | with_reducible apply keeps_completeCa | with_reducible apply keeps_pieceFailed | with_reducible apply keeps_sendHost | with_reducible apply keeps_fault | with_reducible refine Keeps.ite1 ?_ ?_ | with_reducible refine Keeps.ite ?_ ?_ | split | dsimp only)

theorem keeps_readTarget {s : State} {fn : Nat} {t : Target} {n : Nat} {hdr : List Nat} (hk : Keeps s0 s) :
    Keeps s0 (readTarget s fn t n hdr) := by
  unfold readTarget
  repeat' (first | (extract_lets +onlyGivenNames x; first | (refine (fun hx : Keeps s0 x => ?_) ?_ <;> [clear_value x; subst x]) | (refine (fun hx : KeepsF Prod.fst s0 x => ?_) ?_ <;> [(clear_value x; replace hx := hx.fst); (subst x; refine KeepsF.ofFst ?_)]) | (have _f := fun a => x a; clear _f; subst x) | clear_value x) | with_reducible assumption | with_reducible apply keeps_completeRead | with_reducible apply keeps_readTlp | with_reducible apply keeps_doorbellBytes | with_reducible apply keeps_readViews | with_reducible apply keeps_completeCa | with_reducible apply keeps_windowRefused | with_reducible refine Keeps.ite1 ?_ ?_ | with_reducible refine Keeps.ite ?_ ?_ | split | fail_if_no_progress (with_reducible apply Keeps.update) | dsimp only)

theorem keeps_writeTarget {s : State} {fn : Nat} {t : Target} {bs : List Byte} {ep : Bool} {cycles : Nat} {hdr : List Nat} (hk : Keeps s0 s) :
    Keeps s0 (writeTarget s fn t bs ep cycles hdr) := by
  unfold writeTarget
  repeat' (first | (extract_lets +onlyGivenNames x; first | (refine (fun hx : Keeps s0 x => ?_) ?_ <;> [clear_value x; subst x]) | (refine (fun hx : KeepsF Prod.fst s0 x => ?_) ?_ <;> [(clear_value x; replace hx := hx.fst); (subst x; refine KeepsF.ofFst ?_)]) | (have _f := fun a => x a; clear _f; subst x) | clear_value x) | with_reducible assumption | with_reducible apply keeps_pieceFailed | with_reducible apply keeps_windowRefused | with_reducible apply keeps_writeTlp | with_reducible apply keeps_poisonIn | with_reducible apply keeps_msixWrite | with_reducible apply keeps_doorbellTlp | with_reducible apply keeps_writeViews | with_reducible refine Keeps.ite1 ?_ ?_ | with_reducible refine Keeps.ite ?_ ?_ | with_reducible refine Keeps.foldl (fun _ _ _ => ?_) ?_ | with_reducible refine Keeps.foldl1 (fun _ _ _ => ?_) ?_ | split | fail_if_no_progress (with_reducible apply Keeps.update) | intro _ _ | dsimp only)

theorem keeps_execInboundReadTlp {fn : Nat} {addr : Nat} {len : Nat} {hdr : List Nat} {s : State} (hk : Keeps s0 s) :
    KeepsO s0 (execInboundReadTlp fn addr len hdr s) := by
  unfold execInboundReadTlp
  repeat' (first | (extract_lets +onlyGivenNames x; first | (refine (fun hx : Keeps s0 x => ?_) ?_ <;> [clear_value x; subst x]) | (refine (fun hx : KeepsF Prod.fst s0 x => ?_) ?_ <;> [(clear_value x; replace hx := hx.fst); (subst x; refine KeepsF.ofFst ?_)]) | (have _f := fun a => x a; clear _f; subst x) | clear_value x) | with_reducible assumption | with_reducible apply keeps_inbound | with_reducible refine keeps_turnedAway ‹_› ?_ | with_reducible refine keeps_served ‹_› (fun _ _ => ?_) | with_reducible apply keeps_readTarget | with_reducible apply keeps_completeUr | with_reducible apply keeps_unsupported | with_reducible refine KeepsO.next ?_ | with_reducible refine KeepsO.ite ?_ ?_ | with_reducible refine Keeps.ite1 ?_ ?_ | with_reducible refine Keeps.ite ?_ ?_ | split | fail_if_no_progress (with_reducible apply Keeps.update) | intro _ _ | dsimp only)

theorem keeps_execInboundWriteTlp {fn : Nat} {addr : Nat} {data : List Byte} {ep : Bool} {host : List Cpl} {cycles : Nat} {hdr : List Nat} {s : State} (hk : Keeps s0 s) :
    KeepsO s0 (execInboundWriteTlp fn addr data ep host cycles hdr s) := by
  unfold execInboundWriteTlp
  repeat' (first | (extract_lets +onlyGivenNames x; first | (refine (fun hx : Keeps s0 x => ?_) ?_ <;> [clear_value x; subst x]) | (refine (fun hx : KeepsF Prod.fst s0 x => ?_) ?_ <;> [(clear_value x; replace hx := hx.fst); (subst x; refine KeepsF.ofFst ?_)]) | (have _f := fun a => x a; clear _f; subst x) | clear_value x) | with_reducible assumption | with_reducible apply keeps_inbound | with_reducible refine keeps_turnedAway ‹_› ?_ | with_reducible refine keeps_served ‹_› (fun _ _ => ?_) | with_reducible apply keeps_writeTarget | with_reducible apply keeps_unsupported | with_reducible refine KeepsO.next ?_ | with_reducible refine KeepsO.ite ?_ ?_ | with_reducible refine Keeps.ite1 ?_ ?_ | with_reducible refine Keeps.ite ?_ ?_ | split | fail_if_no_progress (with_reducible apply Keeps.update) | intro _ _ | dsimp only)

end Sys2Proof.Laws
end

