-- ==== Sys2Proof/Laws/KeepsPorts.lean ====
section
/-!
SUPPORT. Laws/KeepsPorts.lean: the operations of Machine/Ports.lean keep the queue, the clock and the form of the memory.
-/
namespace Sys2Proof.Laws
open Sys2Proof Sys2Proof.Machine

variable {s0 : State}
set_option linter.unreachableTactic false
set_option linter.unusedTactic false

theorem keeps_mgmtStore {s : State} {a : Nat} {w : Nat} (hk : Keeps s0 s) :
    Keeps s0 (mgmtStore s a w) := by
  unfold mgmtStore
  repeat' (first | (extract_lets +onlyGivenNames x; first | (refine (fun hx : Keeps s0 x => ?_) ?_ <;> [clear_value x; subst x]) | (refine (fun hx : KeepsF Prod.fst s0 x => ?_) ?_ <;> [(clear_value x; replace hx := hx.fst); (subst x; refine KeepsF.ofFst ?_)]) | (have _f := fun a => x a; clear _f; subst x) | clear_value x) | with_reducible assumption | with_reducible apply keeps_pageWrite | with_reducible apply keeps_updBoot | with_reducible apply keeps_ledgerTaken | with_reducible refine Keeps.ite1 ?_ ?_ | with_reducible refine Keeps.ite ?_ ?_ | split | fail_if_no_progress (with_reducible apply Keeps.update) | intro _ _ | dsimp only)

theorem keeps_mgmtLoad {s : State} {a : Nat} (hk : Keeps s0 s) :
    Keeps s0 (mgmtLoad s a).1 := by
  unfold mgmtLoad
  repeat' (first | (extract_lets +onlyGivenNames x; first | (refine (fun hx : Keeps s0 x => ?_) ?_ <;> [clear_value x; subst x]) | (refine (fun hx : KeepsF Prod.fst s0 x => ?_) ?_ <;> [(clear_value x; replace hx := hx.fst); (subst x; refine KeepsF.ofFst ?_)]) | (have _f := fun a => x a; clear _f; subst x) | clear_value x) | with_reducible assumption | with_reducible apply keeps_pageRead | with_reducible refine Keeps.ite1 ?_ ?_ | with_reducible refine Keeps.ite ?_ ?_ | split | dsimp only)

theorem keeps_mgmtStores {a0 : Nat} {a1 : State} {a2 : Nat} {a3 : List Byte} (hk : Keeps s0 a1) :
    Keeps s0 (mgmtStores a0 a1 a2 a3) := by
  induction a0 generalizing a1 a2 a3 with
  | zero =>
    unfold mgmtStores
    repeat' (first | with_reducible assumption | with_reducible apply keeps_mgmtStore | dsimp only)
  | succ m ihk =>
    unfold mgmtStores
    repeat' (first | with_reducible assumption | with_reducible apply ihk | with_reducible apply keeps_mgmtStore | dsimp only)

theorem keeps_mgmtLoads {a0 : Nat} {a1 : State} {a2 : Nat} (hk : Keeps s0 a1) :
    Keeps s0 (mgmtLoads a0 a1 a2).1 := by
  induction a0 generalizing a1 a2 with
  | zero =>
    unfold mgmtLoads
    repeat' (first | (extract_lets +onlyGivenNames x; first | (refine (fun hx : Keeps s0 x => ?_) ?_ <;> [clear_value x; subst x]) | (refine (fun hx : KeepsF Prod.fst s0 x => ?_) ?_ <;> [(clear_value x; replace hx := hx.fst); (subst x; refine KeepsF.ofFst ?_)]) | (have _f := fun a => x a; clear _f; subst x) | clear_value x) | with_reducible assumption | with_reducible apply keeps_mgmtLoad | dsimp only)
  | succ m ihk =>
    unfold mgmtLoads
    repeat' (first | (extract_lets +onlyGivenNames x; first | (refine (fun hx : Keeps s0 x => ?_) ?_ <;> [clear_value x; subst x]) | (refine (fun hx : KeepsF Prod.fst s0 x => ?_) ?_ <;> [(clear_value x; replace hx := hx.fst); (subst x; refine KeepsF.ofFst ?_)]) | (have _f := fun a => x a; clear _f; subst x) | clear_value x) | with_reducible assumption | with_reducible apply ihk | with_reducible apply keeps_mgmtLoad | dsimp only)

theorem keeps_execMgmtWrite {addr : Nat} {data : List Byte} {s : State} (hk : Keeps s0 s) :
    KeepsO s0 (execMgmtWrite addr data s) := by
  unfold execMgmtWrite
  repeat' (first | (extract_lets +onlyGivenNames x; first | (refine (fun hx : Keeps s0 x => ?_) ?_ <;> [clear_value x; subst x]) | (refine (fun hx : KeepsF Prod.fst s0 x => ?_) ?_ <;> [(clear_value x; replace hx := hx.fst); (subst x; refine KeepsF.ofFst ?_)]) | (have _f := fun a => x a; clear _f; subst x) | clear_value x) | with_reducible assumption | with_reducible refine keeps_served ‹_› (fun _ _ => ?_) | with_reducible apply keeps_mgmtStores | with_reducible refine KeepsO.next ?_ | with_reducible refine KeepsO.ite ?_ ?_ | with_reducible refine Keeps.ite1 ?_ ?_ | with_reducible refine Keeps.ite ?_ ?_ | split | intro _ _ | dsimp only)

theorem keeps_execMgmtRead {addr : Nat} {words : Nat} {s : State} (hk : Keeps s0 s) :
    KeepsO s0 (execMgmtRead addr words s) := by
  unfold execMgmtRead
  repeat' (first | (extract_lets +onlyGivenNames x; first | (refine (fun hx : Keeps s0 x => ?_) ?_ <;> [clear_value x; subst x]) | (refine (fun hx : KeepsF Prod.fst s0 x => ?_) ?_ <;> [(clear_value x; replace hx := hx.fst); (subst x; refine KeepsF.ofFst ?_)]) | (have _f := fun a => x a; clear _f; subst x) | clear_value x) | with_reducible assumption | with_reducible apply keeps_mgmtLoads | with_reducible refine KeepsO.next ?_ | with_reducible refine KeepsO.ite ?_ ?_ | with_reducible refine Keeps.ite ?_ ?_ | with_reducible refine Keeps.ite1 ?_ ?_ | fail_if_no_progress (with_reducible apply Keeps.update) | split | dsimp only)

theorem keeps_tapTake {s : State} {f : Tap → Tap} (hk : Keeps s0 s) :
    Keeps s0 (tapTake s f) := by
  unfold tapTake
  repeat' (first | with_reducible assumption | with_reducible refine Keeps.ite ?_ ?_ | fail_if_no_progress (with_reducible apply Keeps.update) | split | dsimp only)

theorem keeps_execExtest {data : Nat} {pins : Nat} {s : State} (hk : Keeps s0 s) :
    KeepsO s0 (execExtest data pins s) := by
  unfold execExtest
  repeat' (first | with_reducible assumption | with_reducible apply keeps_tapTake | with_reducible refine KeepsO.next ?_ | dsimp only)

theorem keeps_execSamplePreload {data : Nat} {pins : Nat} {s : State} (hk : Keeps s0 s) :
    KeepsO s0 (execSamplePreload data pins s) := by
  unfold execSamplePreload
  repeat' (first | with_reducible assumption | with_reducible apply keeps_tapTake | with_reducible refine KeepsO.next ?_ | dsimp only)

theorem keeps_execIdcode {s : State} (hk : Keeps s0 s) :
    KeepsO s0 (execIdcode s) := by
  unfold execIdcode
  repeat' (first | with_reducible assumption | with_reducible apply keeps_tapTake | with_reducible refine KeepsO.next ?_ | fail_if_no_progress (with_reducible apply Keeps.update) | dsimp only)

theorem keeps_execBypass {s : State} (hk : Keeps s0 s) :
    KeepsO s0 (execBypass s) := by
  unfold execBypass
  repeat' (first | with_reducible assumption | with_reducible apply keeps_tapTake | with_reducible refine KeepsO.next ?_ | fail_if_no_progress (with_reducible apply Keeps.update) | dsimp only)

theorem keeps_execTapReset {s : State} (hk : Keeps s0 s) :
    KeepsO s0 (execTapReset s) := by
  unfold execTapReset
  repeat' (first | with_reducible assumption | with_reducible apply keeps_tapTake | with_reducible refine KeepsO.next ?_ | fail_if_no_progress (with_reducible apply Keeps.update) | dsimp only)

theorem keeps_execEthLinkChange {mac : Nat} {up : Bool} {s : State} (hk : Keeps s0 s) :
    KeepsO s0 (execEthLinkChange mac up s) := by
  unfold execEthLinkChange
  repeat' (first | with_reducible assumption | with_reducible apply keeps_raise | with_reducible apply keeps_wb | with_reducible refine KeepsO.next ?_ | with_reducible refine KeepsO.ite ?_ ?_ | with_reducible refine Keeps.ite ?_ ?_ | with_reducible refine Keeps.ite1 ?_ ?_ | split | dsimp only)

theorem keeps_execCsiIgnoredPacket {port : Nat} {dt : Nat} {rx : CsiRx} {s : State} (hk : Keeps s0 s) :
    KeepsO s0 (execCsiIgnoredPacket port dt rx s) := by
  unfold execCsiIgnoredPacket
  repeat' (first | (extract_lets +onlyGivenNames x; first | (refine (fun hx : Keeps s0 x => ?_) ?_ <;> [clear_value x; subst x]) | (refine (fun hx : KeepsF Prod.fst s0 x => ?_) ?_ <;> [(clear_value x; replace hx := hx.fst); (subst x; refine KeepsF.ofFst ?_)]) | (have _f := fun a => x a; clear _f; subst x) | clear_value x) | with_reducible assumption | with_reducible apply keeps_csiPacket | with_reducible apply keeps_bump | with_reducible refine KeepsO.next ?_ | with_reducible refine KeepsO.ite ?_ ?_ | with_reducible refine Keeps.ite1 ?_ ?_ | with_reducible refine Keeps.ite ?_ ?_ | split | fail_if_no_progress (with_reducible apply Keeps.update) | dsimp only)

end Sys2Proof.Laws
end

