-- ==== Sys2Proof/Laws/KeepsRegRows.lean ====
section
/-!
SUPPORT. Laws/KeepsRegRows.lean: the operations of Machine/RegRows.lean keep the queue, the clock and the form of the memory.
-/
namespace Sys2Proof.Laws
open Sys2Proof Sys2Proof.Machine

variable {s0 : State}
set_option linter.unreachableTactic false
set_option linter.unusedTactic false

theorem keeps_writeN {host : List Cpl} {s : State} {req : Req} {off : Nat} {n : Nat} {w : Nat} (hk : Keeps s0 s) :
    KeepsO s0 (writeN host s req off n w) := by
  unfold writeN
  repeat' (first | (extract_lets +onlyGivenNames x; first | (refine (fun hx : Keeps s0 x => ?_) ?_ <;> [clear_value x; subst x]) | (refine (fun hx : KeepsF Prod.fst s0 x => ?_) ?_ <;> [(clear_value x; replace hx := hx.fst); (subst x; refine KeepsF.ofFst ?_)]) | (have _f := fun a => x a; clear _f; subst x) | clear_value x) | with_reducible assumption | with_reducible refine keeps_served ‹_› (fun _ _ => ?_) | with_reducible apply keeps_after | with_reducible apply keeps_pageWrite | with_reducible refine KeepsO.next ?_ | with_reducible refine KeepsO.ite ?_ ?_ | with_reducible refine Keeps.ite1 ?_ ?_ | with_reducible refine Keeps.ite ?_ ?_ | split | intro _ _ | dsimp only)

theorem keeps_write1 {s : State} {req : Req} {off : Nat} {w : Nat} {host : List Cpl} (hk : Keeps s0 s) :
    KeepsO s0 (write1 s req off w host) := by
  unfold write1
  repeat' (first | (extract_lets +onlyGivenNames x; first | (refine (fun hx : Keeps s0 x => ?_) ?_ <;> [clear_value x; subst x]) | (refine (fun hx : KeepsF Prod.fst s0 x => ?_) ?_ <;> [(clear_value x; replace hx := hx.fst); (subst x; refine KeepsF.ofFst ?_)]) | (have _f := fun a => x a; clear _f; subst x) | clear_value x) | with_reducible assumption | with_reducible apply keeps_writeN | with_reducible refine KeepsO.next ?_ | with_reducible refine KeepsO.ite ?_ ?_ | with_reducible refine Keeps.ite1 ?_ ?_ | with_reducible refine Keeps.ite ?_ ?_ | split | dsimp only)

theorem keeps_execRegisterWrite {req : Req} {off : Nat} {width : Nat} {data : W64} {s : State} (hk : Keeps s0 s) :
    KeepsO s0 (execRegisterWrite req off width data s) := by
  unfold execRegisterWrite
  repeat' (first | (extract_lets +onlyGivenNames x; first | (refine (fun hx : Keeps s0 x => ?_) ?_ <;> [clear_value x; subst x]) | (refine (fun hx : KeepsF Prod.fst s0 x => ?_) ?_ <;> [(clear_value x; replace hx := hx.fst); (subst x; refine KeepsF.ofFst ?_)]) | (have _f := fun a => x a; clear _f; subst x) | clear_value x) | with_reducible assumption | with_reducible apply keeps_writeN | with_reducible refine KeepsO.next ?_ | with_reducible refine KeepsO.ite ?_ ?_ | with_reducible refine Keeps.ite1 ?_ ?_ | with_reducible refine Keeps.ite ?_ ?_ | split | dsimp only)

theorem keeps_execRcRead {req : Req} {off : Nat} {s : State} (hk : Keeps s0 s) :
    KeepsO s0 (execRcRead req off s) := by
  unfold execRcRead
  repeat' (first | (extract_lets +onlyGivenNames x; first | (refine (fun hx : Keeps s0 x => ?_) ?_ <;> [clear_value x; subst x]) | (refine (fun hx : KeepsF Prod.fst s0 x => ?_) ?_ <;> [(clear_value x; replace hx := hx.fst); (subst x; refine KeepsF.ofFst ?_)]) | (have _f := fun a => x a; clear _f; subst x) | clear_value x) | with_reducible assumption | with_reducible apply keeps_pageRead | with_reducible refine KeepsO.next ?_ | with_reducible refine KeepsO.ite ?_ ?_ | with_reducible refine Keeps.ite1 ?_ ?_ | with_reducible refine Keeps.ite ?_ ?_ | split | fail_if_no_progress (with_reducible apply Keeps.update) | dsimp only)

theorem keeps_execEvtStatusClear {req : Req} {page : Nat} {data : W32} {s : State} (hk : Keeps s0 s) :
    KeepsO s0 (execEvtStatusClear req page data s) := by
  unfold execEvtStatusClear
  repeat' (first | with_reducible assumption | with_reducible apply keeps_write1 | with_reducible refine KeepsO.next ?_ | dsimp only)

theorem keeps_execEvtEnableWrite {req : Req} {page : Nat} {data : W32} {s : State} (hk : Keeps s0 s) :
    KeepsO s0 (execEvtEnableWrite req page data s) := by
  unfold execEvtEnableWrite
  repeat' (first | with_reducible assumption | with_reducible apply keeps_write1 | with_reducible refine KeepsO.next ?_ | dsimp only)

theorem keeps_execEvtForce {req : Req} {page : Nat} {data : W32} {s : State} (hk : Keeps s0 s) :
    KeepsO s0 (execEvtForce req page data s) := by
  unfold execEvtForce
  repeat' (first | with_reducible assumption | with_reducible apply keeps_write1 | with_reducible refine KeepsO.next ?_ | dsimp only)

theorem keeps_execLockSet {req : Req} {page : Nat} {s : State} (hk : Keeps s0 s) :
    KeepsO s0 (execLockSet req page s) := by
  unfold execLockSet
  repeat' (first | with_reducible assumption | with_reducible apply keeps_write1 | with_reducible refine KeepsO.next ?_ | dsimp only)

theorem keeps_execEnableWrite {req : Req} {page : Nat} {data : W32} {s : State} (hk : Keeps s0 s) :
    KeepsO s0 (execEnableWrite req page data s) := by
  unfold execEnableWrite
  repeat' (first | with_reducible assumption | with_reducible apply keeps_write1 | with_reducible refine KeepsO.next ?_ | dsimp only)

theorem keeps_execSoftReset {req : Req} {page : Nat} {data : W32} {s : State} (hk : Keeps s0 s) :
    KeepsO s0 (execSoftReset req page data s) := by
  unfold execSoftReset
  repeat' (first | with_reducible assumption | with_reducible apply keeps_write1 | with_reducible refine KeepsO.next ?_ | dsimp only)

theorem keeps_execAonIslCtrlWrite {req : Req} {isl : Nat} {data : W32} {s : State} (hk : Keeps s0 s) :
    KeepsO s0 (execAonIslCtrlWrite req isl data s) := by
  unfold execAonIslCtrlWrite
  repeat' (first | with_reducible assumption | with_reducible apply keeps_write1 | with_reducible refine KeepsO.next ?_ | with_reducible refine KeepsO.ite ?_ ?_ | with_reducible refine Keeps.ite ?_ ?_ | with_reducible refine Keeps.ite1 ?_ ?_ | split | dsimp only)

theorem keeps_execBootResetReq {req : Req} {data : W32} {torn : Nat} {s : State} (hk : Keeps s0 s) :
    KeepsO s0 (execBootResetReq req data torn s) := by
  unfold execBootResetReq
  repeat' (first | (extract_lets +onlyGivenNames x; first | (refine (fun hx : Keeps s0 x => ?_) ?_ <;> [clear_value x; subst x]) | (refine (fun hx : KeepsF Prod.fst s0 x => ?_) ?_ <;> [(clear_value x; replace hx := hx.fst); (subst x; refine KeepsF.ofFst ?_)]) | (have _f := fun a => x a; clear _f; subst x) | clear_value x) | with_reducible assumption | with_reducible apply keeps_pageWrite | with_reducible apply keeps_tornWrite | with_reducible refine KeepsO.next ?_ | with_reducible refine KeepsO.ite ?_ ?_ | with_reducible refine Keeps.ite1 ?_ ?_ | with_reducible refine Keeps.ite ?_ ?_ | split | dsimp only)

theorem keeps_execBootConfirm {req : Req} {data : W32} {s : State} (hk : Keeps s0 s) :
    KeepsO s0 (execBootConfirm req data s) := by
  unfold execBootConfirm
  repeat' (first | with_reducible assumption | with_reducible apply keeps_write1 | with_reducible refine KeepsO.next ?_ | dsimp only)

theorem keeps_execFlashRead {req : Req} {s : State} (hk : Keeps s0 s) :
    KeepsO s0 (execFlashRead req s) := by
  unfold execFlashRead
  repeat' (first | with_reducible assumption | with_reducible apply keeps_write1 | with_reducible refine KeepsO.next ?_ | dsimp only)

theorem keeps_execFlashProgram {req : Req} {s : State} (hk : Keeps s0 s) :
    KeepsO s0 (execFlashProgram req s) := by
  unfold execFlashProgram
  repeat' (first | with_reducible assumption | with_reducible apply keeps_write1 | with_reducible refine KeepsO.next ?_ | dsimp only)

theorem keeps_execFlashErase {req : Req} {s : State} (hk : Keeps s0 s) :
    KeepsO s0 (execFlashErase req s) := by
  unfold execFlashErase
  repeat' (first | with_reducible assumption | with_reducible apply keeps_write1 | with_reducible refine KeepsO.next ?_ | dsimp only)

theorem keeps_execFlashInstall {req : Req} {s : State} (hk : Keeps s0 s) :
    KeepsO s0 (execFlashInstall req s) := by
  unfold execFlashInstall
  repeat' (first | with_reducible assumption | with_reducible apply keeps_write1 | with_reducible refine KeepsO.next ?_ | dsimp only)

theorem keeps_execAdvanceRollback {req : Req} {data : W32} {s : State} (hk : Keeps s0 s) :
    KeepsO s0 (execAdvanceRollback req data s) := by
  unfold execAdvanceRollback
  repeat' (first | with_reducible assumption | with_reducible apply keeps_write1 | with_reducible refine KeepsO.next ?_ | dsimp only)

theorem keeps_execRevokeKey {req : Req} {data : W32} {s : State} (hk : Keeps s0 s) :
    KeepsO s0 (execRevokeKey req data s) := by
  unfold execRevokeKey
  repeat' (first | with_reducible assumption | with_reducible apply keeps_write1 | with_reducible refine KeepsO.next ?_ | dsimp only)

theorem keeps_execRetire {req : Req} {data : W32} {s : State} (hk : Keeps s0 s) :
    KeepsO s0 (execRetire req data s) := by
  unfold execRetire
  repeat' (first | with_reducible assumption | with_reducible apply keeps_write1 | with_reducible refine KeepsO.next ?_ | dsimp only)

theorem keeps_execRetrainForce {req : Req} {page : Nat} {data : W32} {s : State} (hk : Keeps s0 s) :
    KeepsO s0 (execRetrainForce req page data s) := by
  unfold execRetrainForce
  repeat' (first | with_reducible assumption | with_reducible apply keeps_write1 | with_reducible refine KeepsO.next ?_ | with_reducible refine KeepsO.ite ?_ ?_ | with_reducible refine Keeps.ite ?_ ?_ | with_reducible refine Keeps.ite1 ?_ ?_ | split | dsimp only)

theorem keeps_execPtpRxPop {req : Req} {mac : Nat} {data : W32} {s : State} (hk : Keeps s0 s) :
    KeepsO s0 (execPtpRxPop req mac data s) := by
  unfold execPtpRxPop
  repeat' (first | with_reducible assumption | with_reducible apply keeps_write1 | with_reducible refine KeepsO.next ?_ | with_reducible refine KeepsO.ite ?_ ?_ | with_reducible refine Keeps.ite ?_ ?_ | with_reducible refine Keeps.ite1 ?_ ?_ | split | dsimp only)

theorem keeps_execPtpTxSend {req : Req} {mac : Nat} {data : W32} {s : State} (hk : Keeps s0 s) :
    KeepsO s0 (execPtpTxSend req mac data s) := by
  unfold execPtpTxSend
  repeat' (first | with_reducible assumption | with_reducible apply keeps_write1 | with_reducible refine KeepsO.next ?_ | with_reducible refine KeepsO.ite ?_ ?_ | with_reducible refine Keeps.ite ?_ ?_ | with_reducible refine Keeps.ite1 ?_ ?_ | split | dsimp only)

theorem keeps_execTbStep {req : Req} {data : W32} {s : State} (hk : Keeps s0 s) :
    KeepsO s0 (execTbStep req data s) := by
  unfold execTbStep
  repeat' (first | with_reducible assumption | with_reducible apply keeps_write1 | with_reducible refine KeepsO.next ?_ | dsimp only)

theorem keeps_execTbSlew {req : Req} {data : W32} {s : State} (hk : Keeps s0 s) :
    KeepsO s0 (execTbSlew req data s) := by
  unfold execTbSlew
  repeat' (first | with_reducible assumption | with_reducible apply keeps_write1 | with_reducible refine KeepsO.next ?_ | dsimp only)

theorem keeps_execTbRate {req : Req} {data : W32} {s : State} (hk : Keeps s0 s) :
    KeepsO s0 (execTbRate req data s) := by
  unfold execTbRate
  repeat' (first | with_reducible assumption | with_reducible apply keeps_write1 | with_reducible refine KeepsO.next ?_ | dsimp only)

theorem keeps_execTbServoLocked {req : Req} {data : W32} {s : State} (hk : Keeps s0 s) :
    KeepsO s0 (execTbServoLocked req data s) := by
  unfold execTbServoLocked
  repeat' (first | with_reducible assumption | with_reducible apply keeps_write1 | with_reducible refine KeepsO.next ?_ | dsimp only)

theorem keeps_execDevResync {req : Req} {slot : Nat} {data : W32} {s : State} (hk : Keeps s0 s) :
    KeepsO s0 (execDevResync req slot data s) := by
  unfold execDevResync
  repeat' (first | with_reducible assumption | with_reducible apply keeps_write1 | with_reducible refine KeepsO.next ?_ | with_reducible refine KeepsO.ite ?_ ?_ | with_reducible refine Keeps.ite ?_ ?_ | with_reducible refine Keeps.ite1 ?_ ?_ | split | dsimp only)

theorem keeps_execPartitionQuiesce {req : Req} {part : Nat} {data : W32} {s : State} (hk : Keeps s0 s) :
    KeepsO s0 (execPartitionQuiesce req part data s) := by
  unfold execPartitionQuiesce
  repeat' (first | with_reducible assumption | with_reducible apply keeps_write1 | with_reducible refine KeepsO.next ?_ | with_reducible refine KeepsO.ite ?_ ?_ | with_reducible refine Keeps.ite ?_ ?_ | with_reducible refine Keeps.ite1 ?_ ?_ | split | dsimp only)

theorem keeps_execKeyPfSubmit {req : Req} {ctx : Nat} {data : W32} {host : List Cpl} {s : State} (hk : Keeps s0 s) :
    KeepsO s0 (execKeyPfSubmit req ctx data host s) := by
  unfold execKeyPfSubmit
  repeat' (first | (extract_lets +onlyGivenNames x; first | (refine (fun hx : Keeps s0 x => ?_) ?_ <;> [clear_value x; subst x]) | (refine (fun hx : KeepsF Prod.fst s0 x => ?_) ?_ <;> [(clear_value x; replace hx := hx.fst); (subst x; refine KeepsF.ofFst ?_)]) | (have _f := fun a => x a; clear _f; subst x) | clear_value x) | with_reducible assumption | with_reducible apply keeps_write1 | with_reducible refine KeepsO.next ?_ | with_reducible refine KeepsO.ite ?_ ?_ | with_reducible refine Keeps.ite1 ?_ ?_ | with_reducible refine Keeps.ite ?_ ?_ | split | dsimp only)

theorem keeps_execSflPfSubmit {req : Req} {data : W32} {host : List Cpl} {s : State} (hk : Keeps s0 s) :
    KeepsO s0 (execSflPfSubmit req data host s) := by
  unfold execSflPfSubmit
  repeat' (first | (extract_lets +onlyGivenNames x; first | (refine (fun hx : Keeps s0 x => ?_) ?_ <;> [clear_value x; subst x]) | (refine (fun hx : KeepsF Prod.fst s0 x => ?_) ?_ <;> [(clear_value x; replace hx := hx.fst); (subst x; refine KeepsF.ofFst ?_)]) | (have _f := fun a => x a; clear _f; subst x) | clear_value x) | with_reducible assumption | with_reducible apply keeps_write1 | with_reducible refine KeepsO.next ?_ | with_reducible refine KeepsO.ite ?_ ?_ | with_reducible refine Keeps.ite1 ?_ ?_ | with_reducible refine Keeps.ite ?_ ?_ | split | dsimp only)

theorem keeps_execAmpClear {req : Req} {chan : Nat} {data : W32} {s : State} (hk : Keeps s0 s) :
    KeepsO s0 (execAmpClear req chan data s) := by
  unfold execAmpClear
  repeat' (first | with_reducible assumption | with_reducible apply keeps_write1 | with_reducible refine KeepsO.next ?_ | with_reducible refine KeepsO.ite ?_ ?_ | with_reducible refine Keeps.ite ?_ ?_ | with_reducible refine Keeps.ite1 ?_ ?_ | split | dsimp only)

theorem keeps_execPrepare {req : Req} {s : State} (hk : Keeps s0 s) :
    KeepsO s0 (execPrepare req s) := by
  unfold execPrepare
  repeat' (first | with_reducible assumption | with_reducible apply keeps_write1 | with_reducible refine KeepsO.next ?_ | dsimp only)

theorem keeps_execAbort {req : Req} {s : State} (hk : Keeps s0 s) :
    KeepsO s0 (execAbort req s) := by
  unfold execAbort
  repeat' (first | with_reducible assumption | with_reducible apply keeps_write1 | with_reducible refine KeepsO.next ?_ | dsimp only)

theorem keeps_execDiscard {req : Req} {s : State} (hk : Keeps s0 s) :
    KeepsO s0 (execDiscard req s) := by
  unfold execDiscard
  repeat' (first | with_reducible assumption | with_reducible apply keeps_write1 | with_reducible refine KeepsO.next ?_ | dsimp only)

theorem keeps_execCshExtEnable {req : Req} {data : W32} {s : State} (hk : Keeps s0 s) :
    KeepsO s0 (execCshExtEnable req data s) := by
  unfold execCshExtEnable
  repeat' (first | with_reducible assumption | with_reducible apply keeps_write1 | with_reducible refine KeepsO.next ?_ | dsimp only)

theorem keeps_execCshSwRecord {req : Req} {data : W32} {s : State} (hk : Keeps s0 s) :
    KeepsO s0 (execCshSwRecord req data s) := by
  unfold execCshSwRecord
  repeat' (first | with_reducible assumption | with_reducible apply keeps_write1 | with_reducible refine KeepsO.next ?_ | dsimp only)

theorem keeps_execSafeStatusClear {req : Req} {seen : Bool} {data : W32} {s : State} (hk : Keeps s0 s) :
    KeepsO s0 (execSafeStatusClear req seen data s) := by
  unfold execSafeStatusClear
  repeat' (first | with_reducible assumption | with_reducible apply keeps_write1 | with_reducible refine KeepsO.next ?_ | with_reducible refine KeepsO.ite ?_ ?_ | with_reducible refine Keeps.ite ?_ ?_ | with_reducible refine Keeps.ite1 ?_ ?_ | split | dsimp only)

theorem keeps_execClearLast {req : Req} {data : W32} {s : State} (hk : Keeps s0 s) :
    KeepsO s0 (execClearLast req data s) := by
  unfold execClearLast
  repeat' (first | with_reducible assumption | with_reducible apply keeps_write1 | with_reducible refine KeepsO.next ?_ | dsimp only)

theorem keeps_injWrite {t : Nat} {req : Req} {data : W32} {s : State} (hk : Keeps s0 s) :
    KeepsO s0 (injWrite t req data s) := by
  unfold injWrite
  repeat' (first | with_reducible assumption | with_reducible apply keeps_write1 | with_reducible refine KeepsO.next ?_ | dsimp only)

theorem keeps_execSramCe {req : Req} {data : W32} {s : State} (hk : Keeps s0 s) :
    KeepsO s0 (execSramCe req data s) := by
  unfold execSramCe
  repeat' (first | with_reducible assumption | with_reducible apply keeps_injWrite | with_reducible refine KeepsO.next ?_ | dsimp only)

theorem keeps_execSramUe {req : Req} {data : W32} {s : State} (hk : Keeps s0 s) :
    KeepsO s0 (execSramUe req data s) := by
  unfold execSramUe
  repeat' (first | with_reducible assumption | with_reducible apply keeps_injWrite | with_reducible refine KeepsO.next ?_ | dsimp only)

theorem keeps_execPair {req : Req} {data : W32} {s : State} (hk : Keeps s0 s) :
    KeepsO s0 (execPair req data s) := by
  unfold execPair
  repeat' (first | with_reducible assumption | with_reducible apply keeps_injWrite | with_reducible refine KeepsO.next ?_ | dsimp only)

theorem keeps_execCsiCrc {req : Req} {data : W32} {s : State} (hk : Keeps s0 s) :
    KeepsO s0 (execCsiCrc req data s) := by
  unfold execCsiCrc
  repeat' (first | with_reducible assumption | with_reducible apply keeps_injWrite | with_reducible refine KeepsO.next ?_ | dsimp only)

theorem keeps_execDramCa {req : Req} {data : W32} {s : State} (hk : Keeps s0 s) :
    KeepsO s0 (execDramCa req data s) := by
  unfold execDramCa
  repeat' (first | with_reducible assumption | with_reducible apply keeps_injWrite | with_reducible refine KeepsO.next ?_ | dsimp only)

theorem keeps_execDramCrc {req : Req} {data : W32} {s : State} (hk : Keeps s0 s) :
    KeepsO s0 (execDramCrc req data s) := by
  unfold execDramCrc
  repeat' (first | with_reducible assumption | with_reducible apply keeps_injWrite | with_reducible refine KeepsO.next ?_ | dsimp only)

theorem keeps_execDelay {req : Req} {data : W32} {s : State} (hk : Keeps s0 s) :
    KeepsO s0 (execDelay req data s) := by
  unfold execDelay
  repeat' (first | with_reducible assumption | with_reducible apply keeps_injWrite | with_reducible refine KeepsO.next ?_ | dsimp only)

theorem keeps_execHoldRead {req : Req} {data : W32} {s : State} (hk : Keeps s0 s) :
    KeepsO s0 (execHoldRead req data s) := by
  unfold execHoldRead
  repeat' (first | with_reducible assumption | with_reducible apply keeps_injWrite | with_reducible refine KeepsO.next ?_ | dsimp only)

theorem keeps_execTemp {req : Req} {data : W32} {s : State} (hk : Keeps s0 s) :
    KeepsO s0 (execTemp req data s) := by
  unfold execTemp
  repeat' (first | with_reducible assumption | with_reducible apply keeps_injWrite | with_reducible refine KeepsO.next ?_ | dsimp only)

theorem keeps_execTripTest {req : Req} {data : W32} {s : State} (hk : Keeps s0 s) :
    KeepsO s0 (execTripTest req data s) := by
  unfold execTripTest
  repeat' (first | with_reducible assumption | with_reducible apply keeps_injWrite | with_reducible refine KeepsO.next ?_ | dsimp only)

end Sys2Proof.Laws
end

