-- ==== Sys2Proof/WellFormed.lean ====
section
/-!
DEFINITION. WellFormed.lean: which commands are well formed: every index among its operands names something that the block has, and every length and
word fits where the spec puts it.
-/
namespace Sys2Proof

/-- The requester is one of the PF, VF 1 to 8, core 0 to 7, Fypajo, the boot ROM and the hardware (02 R43). -/
def reqOk : Req → Bool
  | .vf v => decide (1 ≤ v) && decide (v ≤ 8)
  | .core n => decide (n < 8)
  | _ => true

/-- A TLP header holds four dwords at most (05 R164). -/
def headerOk (h : List Nat) : Bool := decide (h.length ≤ 4) && h.all fun w => decide (w < 2 ^ 32)

/-- A training runs steps 1 to 8 and measures ranges of eight bits (06 R218). -/
def trainOk (t : Train) : Bool :=
  (t.fails.all fun k => decide (1 ≤ k) && decide (k ≤ 8)) && decide (t.rdEye < 256) && decide (t.wrEye < 256) && decide (t.caEye < 256)

/-- A class (03 R188). -/
def classOk (cls : Option Nat) : Bool := cls.all fun c => decide (c < 4)

/-- The bytes of a request: of the data that it writes, else of what it reads. -/
def dataLen (data : Option (List Byte)) (len : Nat) : Nat := match data with | some bs => bs.length | none => len

/-- Poisoned ranges lie within the bytes of a request. -/
def badOk (bad : List (Nat × Nat)) (n : Nat) : Bool := bad.all fun r => decide (r.1 + r.2 ≤ n)

/-- The stop and local port at which a requester presents a request (03 R69): a core its own, the functions the endpoint's, Fypajo and the boot ROM the AON
agent's, the hardware any. -/
def stopOk (req : Req) (src port : Nat) : Bool :=
  match req with
  | .core n => decide (src = if n < 4 then n + 7 else n + 9) && decide (port = 0)
  | .pf | .vf _ => decide (src = 0) && decide (port = 0)
  | .fyp | .boot => decide (src = 5) && decide (port = 0)
  | .hw => decide (src < 24) && decide (port < 2)

/-- A requester that reaches a queue together with a pop. -/
def meetOk (m : HodMeet) : Bool := match m with | .doorbell req _ _ => reqOk req | _ => true

/-- A word of Quarry's store: of one of the eight pools. -/
def upsetOk (u : Upset) : Bool := decide (u.pool < 8) && decide (u.ix < 65536)

/-- What a CSI-2 receiver can observe (09 R299). -/
def rxOk (x : CsiRx) : Bool :=
  decide (1 ≤ x.lanes) && decide (x.lanes ≤ 4) && decide (80 ≤ x.mbps) && decide (x.mbps ≤ 4500) && decide (x.ulps < 16) && decide (x.header < 4)

/-- A bit of AER's status registers (05 R164). -/
def kindOk (k : TlpKind) : Bool := match k with | .uncorrectable b | .correctable b => decide (b < 32) | _ => true

/-- The command is well formed. -/
def wellFormed (i : Instr) : Bool :=
  match i with
  | .registerWrite req off width _ => reqOk req && decide (off < 0x40000) && [1, 2, 4, 8].contains width
  | .rcRead req off => reqOk req && decide (off < 0x40000) && decide (off % 4 = 0)
  | .evtStatusClear req page _ => reqOk req && decide (page < 64)
  | .evtEnableWrite req page _ => reqOk req && decide (page < 64)
  | .evtForce req page _ => reqOk req && decide (page < 64)
  | .enableWrite req page _ => reqOk req && decide (page < 64)
  | .softReset req page _ => reqOk req && decide (page < 64)
  | .softResetDone page => decide (page < 64)
  | .tableWindowRead req off len _ => reqOk req && decide (off < 0x1000000) && decide (len ≤ 512)
  | .tableWindowWrite req off data => reqOk req && decide (off < 0x1000000) && decide (data.length ≤ 512)
  | .xingTimeout dst src _ _ _ => decide (dst < 39) && decide (src < 39)
  | .opPointRequest isl _ _ => decide (isl < 39)
  | .opPointStepDone isl => decide (isl < 39)
  | .stepLate isl _ => decide (isl < 39)
  | .regFault isl _ _ => decide (isl < 39)
  | .islandFence isl => decide (isl < 39)
  | .aonIslCtrlWrite req isl _ => reqOk req && decide (isl < 39)
  | .islandGate isl _ => decide (isl < 39)
  | .islandPowerUp isl => decide (isl < 39)
  | .islandInitDone isl => decide (isl < 39)
  | .mortarRequestInject req src port _ addr len data bad cls =>
    reqOk req && stopOk req src port && decide (addr < 2 ^ 48) && decide (len ≤ 512) && badOk bad (dataLen data len) && classOk cls
  | .mortarRequestArrive _ _ => true
  | .writeAck _ => true
  | .sramScrubStep bank _ => decide (bank < 272)
  | .supplyLow _ _ => true
  | .pinReset torn => decide (torn ≤ 4)
  | .bootResetReq req _ torn => reqOk req && decide (torn ≤ 4)
  | .imageSelect _ => true
  | .manifestCheck _ => true
  | .dramTraining trains _ _ _ => trains.all fun t => decide (t.1 < 8) && trainOk t.2
  | .linkUp speed width => decide (1 ≤ speed) && decide (speed ≤ 4) && [1, 2, 4, 8].contains width
  | .endpointReset _ => true
  | .configRequest fn reg _ be _ hdr => decide (fn ≤ 8) && decide (reg < 0x1000) && decide (reg % 4 = 0) && decide (be < 16) && headerOk hdr
  | .inboundReadTlp fn addr len hdr => decide (fn ≤ 8) && decide (addr < 2 ^ 64) && decide (len ≤ 4096) && headerOk hdr
  | .inboundWriteTlp fn addr data _ _ _ hdr => decide (fn ≤ 8) && decide (addr < 2 ^ 64) && decide (data.length ≤ 512) && headerOk hdr
  | .inboundUnsupportedTlp fn kind _ hdr => decide (fn ≤ 8) && kindOk kind && headerOk hdr
  | .disabledVfRequest _ _ _ hdr => headerOk hdr
  | .hwinRequest req addr len data bad _ => reqOk req && decide (addr < 2 ^ 48) && badOk bad (dataLen data len)
  | .completionArrive tag status _ _ hdr => decide (tag < 1024) && decide (status < 8) && headerOk hdr
  | .cplTimeout tag => decide (tag < 1024)
  | .msixUnmask fn vector _ => decide (fn ≤ 8) && decide (vector < (if fn = 0 then 2048 else 64))
  | .functionSendResume fn => decide (fn ≤ 8)
  | .vfFlr vf => decide (1 ≤ vf) && decide (vf ≤ 8)
  | .flrDone fn => decide (fn ≤ 8)
  | .powerStateChange fn _ => decide (fn ≤ 8)
  | .dramRequestAccept src req cls _ addr len data bad =>
    decide (src < 48) && reqOk req && classOk cls && decide (addr < 2 ^ 48) && badOk bad (dataLen data len)
  | .dramRead sub => decide (sub < 8)
  | .dramWrite sub => decide (sub < 8)
  | .requestAge sub _ _ => decide (sub < 8)
  | .rowActivate sub bank row src => decide (sub < 8) && decide (bank < 32) && decide (row < 65536) && decide (src < 64)
  | .mitigationIssue sub bank => decide (sub < 8) && decide (bank < 32)
  | .actTableClear sub => decide (sub < 8)
  | .throttleWindowEnd sub => decide (sub < 8)
  | .refreshTick sub => decide (sub < 8)
  | .refreshIssue sub => decide (sub < 8)
  | .refreshPullin sub => decide (sub < 8)
  | .mr4Poll sub rate => decide (sub < 8) && decide (rate < 8)
  | .powerDownEntry sub => decide (sub < 8)
  | .retrainPause sub _ _ => decide (sub < 8)
  | .retrainForce req page _ => reqOk req && decide (page < 64)
  | .retrainWindow sub t => decide (sub < 8) && trainOk t
  | .dramAlert sub _ => decide (sub < 8)
  | .alertRecovery sub _ _ => decide (sub < 8)
  | .retryEntryRetire sub _ => decide (sub < 8)
  | .dramPatrolScrub sub => decide (sub < 8)
  | .queueEnable req queue _ => reqOk req && decide (queue < 65536)
  | .queueDisable req queue _ => reqOk req && decide (queue < 65536)
  | .queueDisableDone queue => decide (queue < 65536)
  | .devicePush req queue entries _ _ _ => reqOk req && decide (queue < 65536) && (entries.all fun e => decide (e.length = 64))
  | .pushCommit queue => decide (queue < 65536)
  | .triggerPush queue _ _ _ => decide (queue < 65536)
  | .devicePop req queue _ meet _ => reqOk req && decide (queue < 65536) && meetOk meet
  | .doorbellPushed req queue _ _ _ _ => reqOk req && decide (queue < 65536)
  | .doorbellPopped req queue _ _ meet => reqOk req && decide (queue < 65536) && meetOk meet
  | .doorbellAck req queue _ => reqOk req && decide (queue < 65536)
  | .copyDescriptor queue meet _ => decide (queue < 65536) && meetOk meet
  | .fillDescriptor queue meet _ => decide (queue < 65536) && meetOk meet
  | .copyComplete queue _ => decide (queue < 65536)
  | .cqPushRetry queue _ => decide (queue < 65536)
  | .allocate ident _ ue => decide (ident ≤ 53) && ue.all upsetOk
  | .free req ident _ ue => reqOk req && decide (ident ≤ 53) && ue.all upsetOk
  | .reclaim req ident => reqOk req && decide (ident < 64)
  | .reclaimDone ue => ue.all fun e => decide (e.1 < 8) && decide (e.2 < 65536)
  | .csiFrameStart port vc _ rx => decide (port < 8) && decide (vc < 16) && rxOk rx
  | .csiFirstLine port vc dt wc _ _ rx => decide (port < 8) && decide (vc < 16) && decide (dt < 64) && decide (wc < 65536) && rxOk rx
  | .csiLine port vc dt wc _ _ rx => decide (port < 8) && decide (vc < 16) && decide (dt < 64) && decide (wc < 65536) && rxOk rx
  | .csiFrameEnd port vc rx => decide (port < 8) && decide (vc < 16) && rxOk rx
  | .frameTrigger source _ => decide (source < 200)
  | .csiDeskewDone port rx => decide (port < 8) && rxOk rx
  | .ethFrameReceive mac _ _ => decide (mac < 2)
  | .avtpPacket mac _ => decide (mac < 2)
  | .ptpRx mac _ => decide (mac < 2)
  | .ptpTxSend req mac _ => reqOk req && decide (mac < 2)
  | .ptpTxDone mac => decide (mac < 2)
  | .hostPushDesc mac _ meet _ => decide (mac < 2) && meetOk meet
  | .hostPushReadDone source _ => decide (source < 200)
  | .streamStall source => decide (source < 200)
  | .devEngineSelect engine _ _ _ meet _ => decide (engine < 6) && meetOk meet
  | .devDecodeDone engine _ _ _ => decide (engine < 6)
  | .devPictureOutput slot => decide (slot < 36)
  | .devOutputFlush slot => decide (slot < 36)
  | .devResyncDone slot => decide (slot < 36)
  | .enlEngineSelect engine meet _ => decide (engine < 4) && meetOk meet
  | .enlTileEnd engine _ _ => decide (engine < 4)
  | .enlSampleComplete engine => decide (engine < 4)
  | .eslLaneRequest engine => decide (engine < 4)
  | .fillTimer group => decide (group < 64)
  | .eslBatchRelease group => decide (group < 64)
  | .eslBatchTrigger group _ => decide (group < 64)
  | .jobStart core _ _ => decide (core < 8)
  | .preemptionPoint core _ => decide (core < 8)
  | .itemArrive core _ _ => decide (core < 8)
  | .stallTimeout core => decide (core < 8)
  | .ppLate core _ => decide (core < 8)
  | .jobEnd core => decide (core < 8)
  | .jobAbort core _ => decide (core < 8)
  | .arrayCommandComplete core => decide (core < 8)
  | .moverPieceResponse core mover _ => decide (core < 8) && decide (mover < 2)
  | .loopEndEvaluate core => decide (core < 8)
  | .addSubAndOrXorSllSrlSra core => decide (core < 8)
  | .sltSltu core => decide (core < 8)
  | .minMaxMinuMaxu core => decide (core < 8)
  | .addsSubs core => decide (core < 8)
  | .mul core => decide (core < 8)
  | .mulhMulhu core => decide (core < 8)
  | .divDivuRemRemu core => decide (core < 8)
  | .clzPopc core => decide (core < 8)
  | .cmpeqCmpneCmpltCmpltuCmpgeCmpgeu core => decide (core < 8)
  | .pandPorPxorPandn core => decide (core < 8)
  | .pmovx core => decide (core < 8)
  | .xmovp core => decide (core < 8)
  | .faddFsubFmulFdivFminFmax core => decide (core < 8)
  | .fsqrt core => decide (core < 8)
  | .fcvtif core => decide (core < 8)
  | .fcvtfi core => decide (core < 8)
  | .fcmpltFcmpeq core => decide (core < 8)
  | .ldbLdbuLdhLdhuLdwLdwuLdd core => decide (core < 8)
  | .stbSthStwStd core => decide (core < 8)
  | .br core => decide (core < 8)
  | .jal core => decide (core < 8)
  | .jr core => decide (core < 8)
  | .loop core => decide (core < 8)
  | .lclr core => decide (core < 8)
  | .lrd core => decide (core < 8)
  | .endjob core => decide (core < 8)
  | .fence core => decide (core < 8)
  | .mwait core => decide (core < 8)
  | .await core => decide (core < 8)
  | .rdstat core => decide (core < 8)
  | .clrstat core => decide (core < 8)
  | .hpush core _ => decide (core < 8)
  | .hpop core meet _ => decide (core < 8) && meetOk meet
  | .hpeek core => decide (core < 8)
  | .qalloc core => decide (core < 8)
  | .qfree core => decide (core < 8)
  | .svc core => decide (core < 8)
  | .load core => decide (core < 8)
  | .store core => decide (core < 8)
  | .copy core => decide (core < 8)
  | .gather core => decide (core < 8)
  | .fill core => decide (core < 8)
  | .mma core => decide (core < 8)
  | .drain core => decide (core < 8)
  | .aclr core => decide (core < 8)
  | .vld core => decide (core < 8)
  | .vst core => decide (core < 8)
  | .vbcast core => decide (core < 8)
  | .vmov core => decide (core < 8)
  | .vaddVsub core => decide (core < 8)
  | .vmul core => decide (core < 8)
  | .vmulh core => decide (core < 8)
  | .vmac core => decide (core < 8)
  | .vminVmax core => decide (core < 8)
  | .vabsVneg core => decide (core < 8)
  | .vandVorVxor core => decide (core < 8)
  | .vshlVshr core => decide (core < 8)
  | .vshrr core => decide (core < 8)
  | .vcmpeqVcmpltVcmple core => decide (core < 8)
  | .vsel core => decide (core < 8)
  | .vcvt core => decide (core < 8)
  | .vrmax core => decide (core < 8)
  | .vrsum core => decide (core < 8)
  | .vpool core => decide (core < 8)
  | .vqrow core => decide (core < 8)
  | .vrcpVrsqrtVexp core => decide (core < 8)
  | .vshuf core => decide (core < 8)
  | .dispatchNormal core meet _ => decide (core < 8) && meetOk meet
  | .partitionQuiesced part => decide (part < 8)
  | .deadlinePass model meet _ => decide (model < 256) && meetOk meet
  | .windowGrant sub _ => decide (sub < 8)
  | .sensorSample sensor sample _ => decide (sensor < 24) && decide (-32768 ≤ sample) && decide (sample < 32768)
  | .periodBoundary _ => true
  | .planAccept _ _ _ => true
  | .planAbandon _ _ _ => true
  | .keySolve _ => true
  | .keySetup _ _ _ => true
  | .keySegmentEnd _ _ _ => true
  | .keyPfSubmit req ctx _ _ => reqOk req && decide (ctx < 3)
  | .loadBasis _ => true
  | .loadModulus _ => true
  | .sflMul _ => true
  | .sflAdd _ => true
  | .sflSub _ => true
  | .muladd _ => true
  | .mask _ => true
  | .ntt _ => true
  | .intt _ => true
  | .auto _ => true
  | .baseExt _ => true
  | .lmul _ => true
  | .ladd _ => true
  | .vaultImport _ => true
  | .sflOperationEnd _ _ _ => true
  | .sflPfSubmit req _ _ => reqOk req
  | .micBlock _ _ => true
  | .micStuck mic => decide (mic < 16)
  | .tdmInLost _ => true
  | .tdmInRelock _ => true
  | .tdmOutFrame _ => true
  | .alertEntryPop meet _ => meetOk meet
  | .ampLatch chan cls => decide (chan < 2) && decide (cls < 8)
  | .ampIdlePulse chan cls => decide (chan < 2) && decide (cls < 8)
  | .ampRetry chan _ cls => decide (chan < 2) && decide (cls < 8)
  | .ampDiagWrite chan _ => decide (chan < 2)
  | .cshOccurrence _ => true
  | .cshSwRecord req _ => reqOk req
  | .fltFaultArrive _ => true
  | .vinChange mv ma => decide (-16000 ≤ mv) && decide (mv ≤ 18000) && decide (ma < 65536)
  | .orderlyShutdown _ => true
  | .moduleStart _ => true
  | .heartbeat _ => true
  | .hostLost _ => true
  | .coolantUpdate cold reg => decide (-32768 ≤ cold) && decide (cold < 32768) && decide (-32768 ≤ reg) && decide (reg < 32768)
  | .vehicle data => decide (data.length = 8)
  | .mgmtWrite addr _ => decide (addr < 2 ^ 24)
  | .mgmtRead addr _ => decide (addr < 2 ^ 24)
  | .extest data pins => decide (data < 2 ^ 1764) && decide (pins < 2 ^ 1764)
  | .samplePreload data pins => decide (data < 2 ^ 1764) && decide (pins < 2 ^ 1764)
  | .regReturn isl => decide (isl < 39)
  | .micStuckClear mic => decide (mic < 16)
  | .ethLinkChange mac _ => decide (mac < 2)
  | .csiIgnoredPacket port dt rx => decide (port < 8) && decide (dt < 64) && rxOk rx
  | .mailboxWrite off _ => decide (off < 256)
  | .supplyRamp => true
  | .brownout => true
  | .resetRelease => true
  | .islandBringup => true
  | .localModelHash => true
  | .bootEnable => true
  | .streamEnable => true
  | .directoryWriteDone => true
  | .flashDone => true
  | .flashTimeout => true
  | .otpDone => true
  | .linkTrain => true
  | .tagWaitIssue => true
  | .postedWriteSent => true
  | .pfFlr => true
  | .l1Entry => true
  | .layoutReady => true
  | .tbHoldover => true
  | .eslAudioWindow => true
  | .dispatchUrgent meet _ => meetOk meet
  | .clampRelease => true
  | .keyRelease => true
  | .vaultClear => true
  | .micBlockHandoff => true
  | .alertHoldExpire => true
  | .seamCheckDone => true
  | .seamVotesDone => true
  | .seamCommit => true
  | .seamTimeout => true
  | .cshAccept => true
  | .cshRecordWrite => true
  | .cshSnapshot => true
  | .cshExtCopy => true
  | .injectionExpire => true
  | .vinRangeTimeout => true
  | .railFault => true
  | .lockstepMismatch => true
  | .thermalTripOff => true
  | .tripRestart => true
  | .fypSafetySample => true
  | .fabLost => true
  | .ledgerDeliver => true
  | .ledgerUpdate => true
  | .ledgerTimeout => true
  | .wakeTimeout => true
  | .alertFrame => true
  | .statusFrame => true
  | .degradedFrame => true
  | .vehicleTimeout => true
  | .idcode => true
  | .bypass => true
  | .lockstepResetDone => true
  | .tapReset => true
  | .lockSet req page => reqOk req && decide (page < 64)
  | .bootConfirm req _ => reqOk req
  | .flashRead req => reqOk req
  | .flashProgram req => reqOk req
  | .flashErase req => reqOk req
  | .flashInstall req => reqOk req
  | .advanceRollback req _ => reqOk req
  | .revokeKey req _ => reqOk req
  | .retire req _ => reqOk req
  | .ptpRxPop req mac _ => reqOk req && decide (mac < 2)
  | .tbStep req _ => reqOk req
  | .tbSlew req _ => reqOk req
  | .tbRate req _ => reqOk req
  | .tbServoLocked req _ => reqOk req
  | .devResync req slot _ => reqOk req && decide (slot < 36)
  | .partitionQuiesce req part _ => reqOk req && decide (part < 8)
  | .ampClear req chan _ => reqOk req && decide (chan < 2)
  | .prepare req => reqOk req
  | .abort req => reqOk req
  | .discard req => reqOk req
  | .cshExtEnable req _ => reqOk req
  | .safeStatusClear req _ _ => reqOk req
  | .clearLast req _ => reqOk req
  | .sramCe req _ => reqOk req
  | .sramUe req _ => reqOk req
  | .pair req _ => reqOk req
  | .csiCrc req _ => reqOk req
  | .dramCa req _ => reqOk req
  | .dramCrc req _ => reqOk req
  | .delay req _ => reqOk req
  | .holdRead req _ => reqOk req
  | .temp req _ => reqOk req
  | .tripTest req _ => reqOk req
  | .restart key _ => decide (key < 65536)
  | .serviceBoot key _ => decide (key < 65536)
  | .shutdown key _ => decide (key < 65536)
  | .ledgerClear key _ => decide (key < 65536)
  | .canSet key _ => decide (key < 65536)

end Sys2Proof
end

