-- ==== Sys2Proof/Tests/Slice0.lean ====
section
/-!
SUPPORT. Tests/Slice0.lean: the model's own tests: an ill-formed command for every check of WellFormed; for every statement of the certificate that has
hypotheses, a state and operands that meet them, clause by clause; and values that the spec works out.
-/
open Sys2Proof Sys2Proof.Machine Sys2Proof.Claims

namespace Sys2Proof.Tests

section
set_option Elab.async false

/-! Ill-formed commands. -/

/-- What a CSI-2 receiver observes, at the limits of its ranges. -/
def rx : CsiRx := { lanes := 4, mbps := 4500, ulps := 15, header := 0 }

/-- Ill-formed commands, one for each check, are refused (1). -/
theorem test_wellFormed_1 : ([
      .registerWrite (.vf 9) 0 4 0, .registerWrite .pf 0x40000 4 0, .registerWrite .pf 0 3 0, .rcRead (.vf 9) 0, .rcRead .pf 0x40000, .rcRead .pf 2,
      .evtStatusClear (.vf 9) 0 0, .evtStatusClear .pf 64 0, .evtEnableWrite (.vf 9) 0 0, .evtEnableWrite .pf 64 0, .evtForce (.vf 9) 0 0,
      .evtForce .pf 64 0, .enableWrite (.vf 9) 0 0, .enableWrite .pf 64 0, .softReset (.vf 9) 0 0, .softReset .pf 64 0, .softResetDone 64,
      .tableWindowRead (.vf 9) 0 0 false, .tableWindowRead .pf 0x1000000 0 false, .tableWindowRead .pf 0 513 false, .tableWindowWrite (.vf 9) 0 [],
      .tableWindowWrite .pf 0x1000000 [], .tableWindowWrite .pf 0 (List.replicate 513 0), .xingTimeout 39 0 0 false [], .xingTimeout 0 39 0 false [],
      .opPointRequest 39 0 0, .opPointStepDone 39, .stepLate 39 0, .regFault 39 false 0, .islandFence 39, .aonIslCtrlWrite (.vf 9) 0 0,
      .aonIslCtrlWrite .pf 39 0, .islandGate 39 false, .islandPowerUp 39, .islandInitDone 39,
      .mortarRequestInject (.vf 9) 0 0 .normal 0 0 none [] none, .mortarRequestInject (.core 0) 0 0 .normal 0 0 none [] none,
      .mortarRequestInject .pf 0 0 .normal (2 ^ 48) 0 none [] none, .mortarRequestInject .pf 0 0 .normal 0 513 none [] none,
      .mortarRequestInject .pf 0 0 .normal 0 0 none [(0, 1)] none, .mortarRequestInject .pf 0 0 .normal 0 0 none [] (some 4),
      .sramScrubStep 272 false, .pinReset 5, .bootResetReq (.vf 9) 0 0, .bootResetReq .pf 0 5] : List Instr).all (fun i => !wellFormed i) = true := by decide +kernel

/-- Ill-formed commands, one for each check, are refused (2). -/
theorem test_wellFormed_2 : ([
      .dramTraining [(8, { fails := none, rdEye := 0, wrEye := 0, caEye := 0 })] [] false 0,
      .dramTraining [(0, { fails := some 0, rdEye := 0, wrEye := 0, caEye := 0 })] [] false 0, .linkUp 0 1, .linkUp 5 1, .linkUp 1 3,
      .configRequest 9 0 false 0 0 [], .configRequest 0 0x1000 false 0 0 [], .configRequest 0 2 false 0 0 [], .configRequest 0 0 false 16 0 [],
      .configRequest 0 0 false 0 0 [0, 0, 0, 0, 0], .inboundReadTlp 9 0 0 [], .inboundReadTlp 0 (2 ^ 64) 0 [], .inboundReadTlp 0 0 4097 [],
      .inboundReadTlp 0 0 0 [0, 0, 0, 0, 0], .inboundWriteTlp 9 0 [] false [] 0 [], .inboundWriteTlp 0 (2 ^ 64) [] false [] 0 [],
      .inboundWriteTlp 0 0 (List.replicate 513 0) false [] 0 [], .inboundWriteTlp 0 0 [] false [] 0 [0, 0, 0, 0, 0],
      .inboundUnsupportedTlp 9 .read 0 [], .inboundUnsupportedTlp 0 (.correctable 32) 0 [], .inboundUnsupportedTlp 0 .read 0 [0, 0, 0, 0, 0],
      .disabledVfRequest false false 0 [0, 0, 0, 0, 0], .hwinRequest (.vf 9) 0 0 none [] false, .hwinRequest .pf (2 ^ 48) 0 none [] false,
      .hwinRequest .pf 0 0 none [(0, 1)] false, .completionArrive 1024 0 false [] [], .completionArrive 0 8 false [] [],
      .completionArrive 0 0 false [] [0, 0, 0, 0, 0], .cplTimeout 1024, .msixUnmask 9 0 false, .msixUnmask 0 2048 false, .msixUnmask 1 64 false,
      .functionSendResume 9, .vfFlr 0, .vfFlr 9, .flrDone 9, .powerStateChange 9 false, .dramRequestAccept 48 .pf none .normal 0 0 none [],
      .dramRequestAccept 0 (.vf 9) none .normal 0 0 none [], .dramRequestAccept 0 .pf (some 4) .normal 0 0 none [],
      .dramRequestAccept 0 .pf none .normal (2 ^ 48) 0 none [], .dramRequestAccept 0 .pf none .normal 0 0 none [(0, 1)], .dramRead 8, .dramWrite 8,
      .requestAge 8 0 false] : List Instr).all (fun i => !wellFormed i) = true := by decide +kernel

/-- Ill-formed commands, one for each check, are refused (3). -/
theorem test_wellFormed_3 : ([
      .rowActivate 8 0 0 0, .rowActivate 0 32 0 0, .rowActivate 0 0 65536 0, .rowActivate 0 0 0 64, .mitigationIssue 8 0, .mitigationIssue 0 32,
      .actTableClear 8, .throttleWindowEnd 8, .refreshTick 8, .refreshIssue 8, .refreshPullin 8, .mr4Poll 8 0, .mr4Poll 0 8, .powerDownEntry 8,
      .retrainPause 8 { low := true, cur := true, high := true } { low := true, cur := true, high := true }, .retrainForce (.vf 9) 0 0,
      .retrainForce .pf 64 0, .retrainWindow 8 { fails := none, rdEye := 0, wrEye := 0, caEye := 0 },
      .retrainWindow 0 { fails := some 9, rdEye := 0, wrEye := 0, caEye := 0 },
      .retrainWindow 0 { fails := none, rdEye := 256, wrEye := 0, caEye := 0 }, .dramAlert 8 false, .alertRecovery 8 false false,
      .retryEntryRetire 8 false, .dramPatrolScrub 8, .queueEnable (.vf 9) 0 0, .queueEnable .pf 65536 0, .queueDisable (.vf 9) 0 0,
      .queueDisable .pf 65536 0, .queueDisableDone 65536, .devicePush (.vf 9) 0 [] [] 0 false, .devicePush .pf 65536 [] [] 0 false, .devicePush .pf 0 [[]] [] 0 false,
      .pushCommit 65536, .triggerPush 65536 0 0 false, .devicePop (.vf 9) 0 0 .alone [], .devicePop .pf 65536 0 .alone [],
      .devicePop .pf 0 0 (.doorbell (.vf 9) 1 0) [], .doorbellPushed (.vf 9) 0 0 0 0 false, .doorbellPushed .pf 65536 0 0 0 false,
      .doorbellPopped (.vf 9) 0 0 0 .alone, .doorbellPopped .pf 65536 0 0 .alone, .doorbellPopped .pf 0 0 0 (.doorbell (.vf 9) 1 0),
      .doorbellAck (.vf 9) 0 0, .doorbellAck .pf 65536 0, .copyDescriptor 65536 .alone []] : List Instr).all (fun i => !wellFormed i) = true := by decide +kernel

/-- Ill-formed commands, one for each check, are refused (4). -/
theorem test_wellFormed_4 : ([
      .copyDescriptor 0 (.doorbell (.vf 9) 1 0) [], .fillDescriptor 65536 .alone [], .fillDescriptor 0 (.doorbell (.vf 9) 1 0) [],
      .copyComplete 65536 0, .cqPushRetry 65536 0, .allocate 54 0 [], .allocate 0 0 [{ pool := 8, ix := 0 }],
      .allocate 0 0 [{ pool := 0, ix := 65536 }], .free (.vf 9) 0 0 [], .free .pf 54 0 [], .free .pf 0 0 [{ pool := 8, ix := 0 }],
      .free .pf 0 0 [{ pool := 0, ix := 65536 }], .reclaim (.vf 9) 0, .reclaim .pf 64, .reclaimDone [(8, 0)], .reclaimDone [(0, 65536)],
      .csiFrameStart 8 0 0 rx, .csiFrameStart 0 16 0 rx, .csiFirstLine 8 0 0 0 [] false rx, .csiFirstLine 0 16 0 0 [] false rx,
      .csiFirstLine 0 0 64 0 [] false rx, .csiFirstLine 0 0 0 65536 [] false rx, .csiLine 8 0 0 0 [] false rx,
      .csiLine 0 16 0 0 [] false rx, .csiLine 0 0 64 0 [] false rx, .csiLine 0 0 0 65536 [] false rx, .csiFrameEnd 8 0 rx,
      .csiFrameEnd 0 16 rx, .csiFrameEnd 0 0 { rx with lanes := 0 }, .csiFrameEnd 0 0 { rx with lanes := 5 }, .csiFrameEnd 0 0 { rx with mbps := 79 },
      .csiFrameEnd 0 0 { rx with mbps := 4501 }, .csiFrameEnd 0 0 { rx with ulps := 16 }, .csiFrameEnd 0 0 { rx with header := 4 },
      .frameTrigger 200 0, .csiDeskewDone 8 rx, .ethFrameReceive 2 [] false, .avtpPacket 2 [], .ptpRx 2 [],
      .ptpTxSend (.vf 9) 0 0, .ptpTxSend .pf 2 0, .ptpTxDone 2, .hostPushDesc 2 0 .alone [], .hostPushDesc 0 0 (.doorbell (.vf 9) 1 0) [],
      .hostPushReadDone 200 0, .streamStall 200, .devEngineSelect 6 none false [] .alone [],
      .devEngineSelect 0 none false [] (.doorbell (.vf 9) 1 0) [], .devDecodeDone 6 { pics := [], emit := 0 } 0 0,
      .devPictureOutput 36, .devOutputFlush 36] : List Instr).all (fun i => !wellFormed i) = true := by decide +kernel

/-- Ill-formed commands, one for each check, are refused (5). -/
theorem test_wellFormed_5 : ([
      .devResyncDone 36, .enlEngineSelect 4 .alone [], .enlEngineSelect 0 (.doorbell (.vf 9) 1 0) [], .enlTileEnd 4 0 0, .enlSampleComplete 4,
      .eslLaneRequest 4, .fillTimer 64, .eslBatchRelease 64, .eslBatchTrigger 64 0, .jobStart 8 false 0, .preemptionPoint 8 0, .itemArrive 8 false 0,
      .stallTimeout 8, .ppLate 8 0, .jobEnd 8, .jobAbort 8 false, .arrayCommandComplete 8, .moverPieceResponse 8 0 [], .moverPieceResponse 0 2 [],
      .loopEndEvaluate 8, .addSubAndOrXorSllSrlSra 8, .sltSltu 8, .minMaxMinuMaxu 8, .addsSubs 8, .mul 8, .mulhMulhu 8, .divDivuRemRemu 8, .clzPopc 8,
      .cmpeqCmpneCmpltCmpltuCmpgeCmpgeu 8, .pandPorPxorPandn 8, .pmovx 8, .xmovp 8, .faddFsubFmulFdivFminFmax 8, .fsqrt 8, .fcvtif 8, .fcvtfi 8,
      .fcmpltFcmpeq 8, .ldbLdbuLdhLdhuLdwLdwuLdd 8, .stbSthStwStd 8, .br 8, .jal 8, .jr 8, .loop 8, .lclr 8, .lrd 8] : List Instr).all (fun i => !wellFormed i) = true := by decide +kernel

/-- Ill-formed commands, one for each check, are refused (6). -/
theorem test_wellFormed_6 : ([
      .endjob 8, .fence 8, .mwait 8, .await 8, .rdstat 8, .clrstat 8, .hpush 8 0, .hpop 8 .alone [], .hpop 0 (.doorbell (.vf 9) 1 0) [], .hpeek 8,
      .qalloc 8, .qfree 8, .svc 8, .load 8, .store 8, .copy 8, .gather 8, .fill 8, .mma 8, .drain 8, .aclr 8, .vld 8, .vst 8, .vbcast 8, .vmov 8,
      .vaddVsub 8, .vmul 8, .vmulh 8, .vmac 8, .vminVmax 8, .vabsVneg 8, .vandVorVxor 8, .vshlVshr 8, .vshrr 8, .vcmpeqVcmpltVcmple 8, .vsel 8,
      .vcvt 8, .vrmax 8, .vrsum 8, .vpool 8, .vqrow 8, .vrcpVrsqrtVexp 8, .vshuf 8, .dispatchNormal 8 .alone [],
      .dispatchNormal 0 (.doorbell (.vf 9) 1 0) []] : List Instr).all (fun i => !wellFormed i) = true := by decide +kernel

/-- Ill-formed commands, one for each check, are refused (7). -/
theorem test_wellFormed_7 : ([
      .partitionQuiesced 8, .deadlinePass 256 .alone [], .deadlinePass 0 (.doorbell (.vf 9) 1 0) [], .windowGrant 8 false, .sensorSample 24 0 false,
      .sensorSample 0 (-32769) false, .sensorSample 0 32768 false, .keyPfSubmit (.vf 9) 0 0 [], .keyPfSubmit .pf 3 0 [], .sflPfSubmit (.vf 9) 0 [],
      .micStuck 16, .alertEntryPop (.doorbell (.vf 9) 1 0) [], .ampLatch 2 0, .ampLatch 0 8, .ampIdlePulse 2 0, .ampIdlePulse 0 8,
      .ampRetry 2 false 0, .ampRetry 0 false 8, .ampDiagWrite 2 0, .cshSwRecord (.vf 9) 0, .vinChange (-16001) 0, .vinChange 18001 0,
      .vinChange 0 65536, .coolantUpdate (-32769) 0, .coolantUpdate 32768 0, .coolantUpdate 0 (-32769), .coolantUpdate 0 32768, .vehicle [],
      .mgmtWrite (2 ^ 24) [], .mgmtRead (2 ^ 24) 0, .extest (2 ^ 1764) 0, .extest 0 (2 ^ 1764), .samplePreload (2 ^ 1764) 0,
      .samplePreload 0 (2 ^ 1764), .regReturn 39, .micStuckClear 16, .ethLinkChange 2 false, .csiIgnoredPacket 8 0 rx,
      .csiIgnoredPacket 0 64 rx, .mailboxWrite 256 [], .dispatchUrgent (.doorbell (.vf 9) 1 0) [], .lockSet (.vf 9) 0, .lockSet .pf 64,
      .bootConfirm (.vf 9) 0, .flashRead (.vf 9)] : List Instr).all (fun i => !wellFormed i) = true := by decide +kernel

/-- Ill-formed commands, one for each check, are refused (8). -/
theorem test_wellFormed_8 : ([
      .flashProgram (.vf 9), .flashErase (.vf 9), .flashInstall (.vf 9), .advanceRollback (.vf 9) 0, .revokeKey (.vf 9) 0, .retire (.vf 9) 0,
      .ptpRxPop (.vf 9) 0 0, .ptpRxPop .pf 2 0, .tbStep (.vf 9) 0, .tbSlew (.vf 9) 0, .tbRate (.vf 9) 0, .tbServoLocked (.vf 9) 0,
      .devResync (.vf 9) 0 0, .devResync .pf 36 0, .partitionQuiesce (.vf 9) 0 0, .partitionQuiesce .pf 8 0, .ampClear (.vf 9) 0 0, .ampClear .pf 2 0,
      .prepare (.vf 9), .abort (.vf 9), .discard (.vf 9), .cshExtEnable (.vf 9) 0, .safeStatusClear (.vf 9) false 0, .clearLast (.vf 9) 0,
      .sramCe (.vf 9) 0, .sramUe (.vf 9) 0, .pair (.vf 9) 0, .csiCrc (.vf 9) 0, .dramCa (.vf 9) 0, .dramCrc (.vf 9) 0, .delay (.vf 9) 0,
      .holdRead (.vf 9) 0, .temp (.vf 9) 0, .tripTest (.vf 9) 0, .restart 65536 false, .serviceBoot 65536 false, .shutdown 65536 false,
      .ledgerClear 65536 false, .canSet 65536 false] : List Instr).all (fun i => !wellFormed i) = true := by decide +kernel

/-! States that the tests share. -/

/-- The die is up and every island runs. -/
def up0 : State :=
  { State.reset with boot := { State.reset.boot with powered := true, held := false }, isl := List.replicate 39 { st := .on, point := ⟨500, 160⟩ } }

/-- The same, with a window of partition 0 over the whole internal map. -/
def up : State :=
  setReg (setReg (setReg up0 (R.PCI_PWIN_BASE_HI 0) 0x7F0000) (R.PCI_PWIN_LIMIT_LO 0) 0xFFFFF000) (R.PCI_PWIN_LIMIT_HI 0) 0xFFFF

/-- The page is enabled. -/
def en (s : State) (pg : Nat) : State := wb s (hdr pg 0x10) 0 true

/-- Core 0 runs a job of its normal bank at the bundle `b`. -/
def atBundle (b : Nat) (f : Bank → Bank) : State :=
  updCore (setBytes (en up (P.ash 0)) 0 (leBytes 128 b)) 0 fun k =>
    { k with active := 1, normal := f { k.normal with x := List.replicate 32 0, v := List.replicate 32 {}, loops := List.replicate 4 {} } }

/-- The words of the slots (13 R395, R418, R423, R436; 15 R466), each at its place in the bundle. -/
def sSlot (op rd rs1 rs2 sel imm : Nat) : Nat :=
  (op * 2 ^ 56 + rd * 2 ^ 47 + rs1 * 2 ^ 42 + rs2 * 2 ^ 37 + sel * 2 ^ 33 + imm * 2 ^ 17) * 2 ^ 960
def cSlot (op rd rs1 rs2 sel imm l : Nat) : Nat :=
  (op * 2 ^ 56 + rd * 2 ^ 47 + rs1 * 2 ^ 42 + rs2 * 2 ^ 37 + sel * 2 ^ 33 + imm * 2 ^ 17 + l * 2 ^ 15) * 2 ^ 896
def vSlot (op vd va vb vc xs t : Nat) : Nat :=
  (op * 2 ^ 120 + vd * 2 ^ 111 + va * 2 ^ 106 + vb * 2 ^ 101 + vc * 2 ^ 96 + xs * 2 ^ 91 + t * 2 ^ 84) * 2 ^ 768
def mSlot (op ra rb rc dst len : Nat) : Nat :=
  (op * 2 ^ 122 + ra * 2 ^ 113 + rb * 2 ^ 108 + rc * 2 ^ 103 + dst * 2 ^ 96 + (len - 1) * 2 ^ 72) * 2 ^ 256
def regs (l : List (Nat × Nat)) (k : Bank) : Bank := { k with x := l.foldl (fun x e => x.set e.1 (BitVec.ofNat 64 e.2)) k.x }
def bk (s : State) : Bank := bankNow s 0 false

/-- No request of the command has to wait. -/
def unheld (t : State) : Bool := !t.mortar.io.blocked && t.mortar.io.want.isNone && t.mortar.io.posted.isEmpty

theorem unheld_of {t : State} (h : unheld t = true) : Unheld t := by
  simpa [unheld, Unheld, and_assoc] using h

def k12 : Bank → Bank := regs [(1, 5), (2, 0xFFFFFFFFFFFFFFF7)]
def vk (k : Bank) : Bank := { regs [(1, 0x1000)] k with v := (List.range 32).map fun i => { data := 0x1234567 * i * 3 } }

/-! The queue. -/

theorem witness_EmptyQueueLetsOneCyclePass : State.reset.pending = [] := rfl

theorem witness_EveryCommandRunsAndKeepsTheQueue :
    (∀ mv ma, Instr.vinChange (-16000) 0 = .vinChange mv ma → -16000 ≤ mv ∧ mv ≤ 18000)
      ∧ (∀ mv ma, Instr.vinChange 18000 0 = .vinChange mv ma → -16000 ≤ mv ∧ mv ≤ 18000)
      ∧ ∀ mv ma, Instr.idcode = .vinChange mv ma → -16000 ≤ mv ∧ mv ≤ 18000 :=
  ⟨fun _ _ h => by cases h; decide, fun _ _ h => by cases h; decide, fun _ _ h => by cases h⟩

/-- A step that stores and one that does not, from a canonical memory. -/
theorem witness_StepKeepsMemoryCanonical :
    ([atBundle (sSlot 0x4B 0 1 2 1 0) (regs [(1, 0x1000), (2, 0x1122334455667788)]), atBundle (sSlot 1 3 1 2 0 0) k12].zip
      [Instr.stbSthStwStd 0, .addSubAndOrXorSllSrlSra 0]).all (fun x =>
        Memory.wf x.1.mem && match step { x.1 with pending := [x.2] } with | .next _ => true | _ => false) = true := by decide +kernel

theorem witness_SupplyOutsideSurvivalStops : ((-16001 : Int) < -16000 ∨ (18000 : Int) < -16001) ∧ ((18001 : Int) < -16000 ∨ (18000 : Int) < 18001) := by decide

/-! Cores. -/

/-- The operations of the S slot: every opcode, and those that the claims on integers and predicates name. -/
def intOps : List Nat := (List.range 26).drop 1
def predOps : List Nat := [0x20, 0x21, 0x22, 0x23, 0x24, 0x25, 0x28, 0x29, 0x2A, 0x2B, 0x2C, 0x2D]
def floatOps : List Nat := [0x30, 0x33, 0x36, 0x37, 0x38, 0x39, 0x3A]

theorem witness_ScalarRowsIssue : (intOps ++ predOps ++ floatOps).all (fun op =>
    let b := sSlot op 3 1 2 0 0
    Issues (atBundle b k12) 0 false b && scOp false (slotC b) != 0x10 && scOp false (slotC b) != 0x11 && slotRuns b (bk (atBundle b k12)) 0
      && (scalarRow 0 (scOp true (slotS b))).isSome) = true := by decide +kernel

theorem witness_IntegerScalarResult : intOps.all (fun op =>
    let b := sSlot op 3 1 2 0 0
    let s := atBundle b k12
    Issues s 0 false b && onlyS b && slotRuns b (bk s) 0 && decide (Straight (bk s)) && decide ((bk s).x.length = 32)
      && decide (sOperands b (bk s) = ((5 : BitVec 64).toNat, (0xFFFFFFFFFFFFFFF7 : BitVec 64).toNat)) && decide (scOp true (slotS b) = op)
      && (scalarRow 0 op).isSome) = true := by decide +kernel

/-- The lowest and the highest address of the core's own SRAM that a byte fits at. -/
theorem witness_ScalarLoadResult : ([(0x40, 0), (0x41, 0), (0x42, 0), (0x43, 0), (0x44, 0), (0x45, 0), (0x46, 0), (0x46, 0x3FFFF8), (0x40, 0x3FFFFF)] : List (Nat × Nat)).all (fun p =>
    let b := sSlot p.1 3 1 0 0 0
    let s := atBundle b (regs [(1, p.2)])
    let a := sAddress b (bk s)
    Issues s 0 false b && onlyS b && slotRuns b (bk s) 0 && decide (Straight (bk s)) && decide ((bk s).x.length = 32) && decide (a = p.2) && inOwn 0 a 1
      && decide (s.eccErr = []) && decide (badRanges s a (accessSize p.1).1 = []) && decide (islandStatus s 19 = MS.ok)) = true := by
  decide +kernel

theorem witness_ScalarStoreResult : ([(0x48, 0x1000), (0x49, 0x1000), (0x4A, 0x1000), (0x4B, 0x1000), (0x4B, 0x3FFFF8), (0x48, 0x3FFFFF)] : List (Nat × Nat)).all (fun p =>
    let b := sSlot p.1 0 1 2 1 0
    let s := atBundle b (regs [(1, p.2), (2, 0x1122334455667788)])
    let a := sAddress b (bk s)
    Issues s 0 false b && onlyS b && slotRuns b (bk s) 0 && decide (Straight (bk s)) && decide (a = p.2) && inOwn 0 a 1
      && decide (s.eccErr = []) && decide (islandStatus s 19 = MS.ok)) = true := by decide +kernel

theorem witness_PredicateScalarResult : predOps.all (fun op =>
    let b := sSlot op 3 1 2 0 0
    let s := atBundle b fun k => { k12 k with p := 4 }
    Issues s 0 false b && onlyS b && slotRuns b (bk s) 0 && decide (Straight (bk s)) && decide ((bk s).x.length = 32) && decide ((bk s).p < 256)
      && decide (scOp true (slotS b) = op) && (scalarRow 0 op).isSome
      && decide ((sOperands b (bk s)).1 < 2 ^ 64) && decide ((sOperands b (bk s)).2 < 2 ^ 64)) = true := by decide +kernel

theorem witness_FloatScalarNaN : floatOps.all (fun op =>
    let b := sSlot op 3 1 2 0 0
    let s := atBundle b (regs [(1, if op = 0x37 then 0 else 0x7F800001), (2, 0x3F800000)])
    let x := (sOperands b (bk s)).1
    Issues s 0 false b && onlyS b && slotRuns b (bk s) 0 && decide ((bk s).x.length = 32) && (scalarRow 0 (scOp true (slotS b))).isSome
      && decide (scRd (slotS b) = 3) && (if op = 0x37 then decide (x = 0) else decide (bits x 30 23 = 255 ∧ bits x 22 0 ≠ 0))) = true := by decide +kernel

def controlOps : List Nat := [1, 2, 3, 4, 5, 6, 8, 9, 10, 11, 12, 13, 0x12, 0x18, 0x19, 0x20]

/-- The control rows; HPUSH and HPOP. -/
theorem witness_ControlRowsIssue :
    controlOps.all (fun op =>
      let b := cSlot op (if op = 4 ∨ op = 1 then 0 else 4) 1 0 0 (if op = 4 then 2 else 0) 0
      let s := atBundle b (regs [(1, 0x80)])
      Issues s 0 false b && slotRuns b (bk s) 1 && decide (scOp false (slotC b) = op) && (controlRow 0 op).isSome) = true
    ∧ ([0x10, 0x11] : List Nat).all (fun op =>
      let b := cSlot op 4 1 2 0 0 0
      let s := atBundle b (regs [(1, 0x80), (2, 0x2000)])
      Ready s 0 false b && slotRuns b (bk s) 1 && decide (scOp false (slotC b) = op)
        && unheld (issueEffects (withHost s []) 0 false b 0 .alone (cmdNow s 0 false b))) = true := by
  constructor <;> decide +kernel

/-- Forwards, to the bundle itself, and a jump that links. -/
theorem witness_BranchesAndJumps : ([(1, 3), (1, 0), (2, 3), (2, 0), (3, 0)] : List (Nat × Nat)).all (fun p =>
    let b := cSlot p.1 (if p.1 = 1 then 0 else 3) (if p.1 = 3 then 1 else 0) 0 0 p.2 0
    let s := atBundle b (regs [(1, 0x2000)])
    Issues s 0 false b && onlyC b && slotRuns b (bk s) 1 && decide ((bk s).x.length = 32) && decide ((bk s).pc < 2 ^ 63)
      && decide (scOp false (slotC b) = p.1)) = true := by decide +kernel

/-- A count of 5 and a count of 0; the clear and the read of a loop. -/
theorem witness_LoopInstructions : ([(4, 5), (4, 0), (5, 5), (6, 5)] : List (Nat × Nat)).all (fun p =>
    let b := cSlot p.1 (if p.1 = 6 then 3 else 0) (if p.1 = 4 then 1 else 0) 0 0 (if p.1 = 4 then 2 else 0) 1
    let s := atBundle b fun k => { regs [(1, p.2)] k with loops := if p.1 = 4 then k.loops else k.loops.set 1 { count := 5, active := true, start := 128, stop := 256 } }
    Issues s 0 false b && onlyC b && slotRuns b (bk s) 1 && decide ((bk s).x.length = 32) && decide ((bk s).loops.length = 4)
      && decide (scOp false (slotC b) = p.1) && (p.1 != 6 || decide (Straight (bk s)))) = true := by decide +kernel

/-- ENDJOB, CLRSTAT, the words of RDSTAT, FENCE, MWAIT and AWAIT. -/
theorem witness_StatusAndWaits : ([(8, 128), (8, 0), (13, 1), (12, 0), (12, 1), (12, 2), (12, 4), (9, 0), (10, 0), (11, 0)] : List (Nat × Nat)).all (fun p =>
    let b := cSlot p.1 (if p.1 = 12 then 3 else 0) 0 0 0 p.2 0
    let s := atBundle b fun k => { k with preempted := true }
    Issues s 0 false b && onlyC b && slotRuns b (bk s) 1 && decide ((bk s).x.length = 32) && decide (scOp false (slotC b) = p.1)
      && (p.1 != 13 || bit (scImm (slotC b)) 0) && (p.1 != 12 || (decide (scRd (slotC b) = 3) && decide (bits (scImm (slotC b)) 3 0 = p.2)))
      && (decide (11 < p.1 ∨ p.1 < 9) || decide (Straight (bk s)))) = true := by decide +kernel

/-- Every vector opcode, with a type that it takes. -/
def vectorOps : List (Nat × Nat) :=
  [(3, 1), (8, 1), (9, 1), (10, 3), (11, 1), (12, 1), (13, 1), (15, 1), (16, 1), (0x14, 1), (0x17, 1), (0x19, 1), (0x1C, 1), (0x1F, 1), (0x20, 1),
   (0x24, 1), (0x25, 1), (0x28, 1), (0x29, 5), (0x2C, 5), (0x30, 1)]
def vectorWord (p : Nat × Nat) : Nat :=
  let r := vReads p.1
  vSlot p.1 4 (if r.1 then 1 else 0) (if r.2.1 then 2 else 0) (if r.2.2.1 then 3 else 0) (if p.1 = 3 then 1 else 0) p.2

theorem witness_VectorResult : vectorOps.all (fun p =>
    let b := vectorWord p
    let s := atBundle b vk
    Issues s 0 false b && onlyV b && slotRuns b (bk s) 2 && decide (Straight (bk s)) && decide ((bk s).v.length = 32) && (vectorRow 0 (vOp (slotV b 0))).isSome
      && decide (vOp (slotV b 0) = p.1) && decide (vVd (slotV b 0) + 1 < 32)) = true := by decide +kernel

def vld : Nat := vSlot 1 4 0 0 0 1 0
def vst : Nat := vSlot 2 0 1 0 0 1 0
def vmov : Nat := vSlot 4 4 1 0 0 0 0

theorem witness_VectorMoveLoadStore : [vld, vst, vmov].all (fun b =>
    let s := atBundle b vk
    Issues s 0 false b && onlyV b && slotRuns b (bk s) 2 && decide ((bk s).v.length = 32) && decide (s.eccErr = [])
      && decide (islandStatus s 19 = MS.ok) && (b == vmov || decide (vAddress b (slotV b 0) (bk s) = 0x1000)) && decide (badRanges s 0x1000 256 = [])) = true := by
  decide +kernel

theorem witness_VectorRowsIssue : ([vld, vst, vmov] ++ vectorOps.map vectorWord).all (fun b =>
    let s := atBundle b vk
    Issues s 0 false b && scOp false (slotC b) != 0x10 && scOp false (slotC b) != 0x11 && slotRuns b (bk s) 2
      && (vectorRow 0 (vOp (slotV b 0))).isSome) = true := by decide +kernel

theorem witness_ArrayAndMoverRowsIssue :
    ([1, 4, 5] : List Nat).all (fun op =>
      let b := op * 2 ^ 632 + (if op = 1 then 2 ^ 601 else 0)
      let s := atBundle b id
      Issues s 0 false b && scOp false (slotC b) != 0x10 && scOp false (slotC b) != 0x11 && slotRuns b (bk s) 4 && onlyUnits b
        && (arrayRow 0 (aOp (slotA b))).isSome) = true
    ∧ ([1, 2, 3, 4, 5] : List Nat).all (fun op =>
      let b := if op = 4 then mSlot 4 1 2 3 2 1 else mSlot op 1 2 3 0 64
      let s := atBundle b (if op = 4 then regs [(1, 0x1000), (2, 2 ^ 32 + 2 ^ 48), (3, 8 + 8 * 2 ^ 16 + 2 ^ 32 + 2 ^ 48)] else regs [(1, 0x1000), (2, 0x2000), (3, 0x4000)])
      Issues s 0 false b && slotRuns b (bk s) 5 && onlyUnits b && decide ((coreOf s 0).movers.length = 2) && (moverRow 0 (mOp (slotM b 0))).isSome) = true := by
  decide +kernel

/-- A reserved opcode in the S slot; one in the C slot of a bundle whose S slot loads from an address that is not aligned. -/
theorem witness_ReservedBundleTakesIllegal :
    ([(0x7F * 2 ^ 1016, 0), (sSlot 0x46 3 1 0 0 0 + 0x7F * 2 ^ 952, 1)] : List (Nat × Nat)).all (fun p =>
      let b := p.1
      let s := atBundle b (regs [(1, 1)])
      let k := coreOf s 0
      decide (bankAtWork s 0 = some false ∧ nextBundle s 0 false = b ∧ illegalSlot b (bk s) = some p.2 ∧ inOwn 0 (bk s).pc 128 = true
        ∧ (bk s).ended = none ∧ (bk s).atEnd = false ∧ awaitsPoint s 0 false = false ∧ k.stalled = false ∧ aSel (slotA b) ≠ 1
        ∧ waitFor 0 k false b (cmdNow s 0 false b) p.2 = none ∧ k.flips = [] ∧ s.eccErr = [] ∧ s.dram.eccFlips = [] ∧ fetchBad s 0 false = false
        ∧ rf s R.FLT_INJ_STATUS 1 0 ≠ 1)
        && match bundleExc s 0 k false b (cmdNow s 0 false b) with
          | some e => (decide (p.2 = 0) == decide (e = { cause := EX.illegal, slot := p.2 })) && unheld (takeException (withHost s []) 0 false e)
          | none => false) = true := by decide +kernel

/-! Registers. -/

/-- The register at the offset accepts the word. -/
def acceptedAt (s : State) (req : Req) (off w : Nat) : Bool :=
  match findReg off with
  | some r => decide (Accepted s req off w r)
  | none => false

theorem accepted_of_acceptedAt {s : State} {req : Req} {off w : Nat} (h : acceptedAt s req off w = true) : ∃ r, Accepted s req off w r := by
  unfold acceptedAt at h
  split at h
  · exact ⟨_, of_decide_eq_true h⟩
  · cases h

/-- The command is one of the register commands, its register accepts its word, and nothing that it starts has to wait. -/
def takes (c : Instr) : Bool :=
  match registerOf c with
  | some (req, off, w, host) =>
    decide (off % 4 = 0) && match findReg off with
      | some r => decide (Accepted up req off w r) && unheld (regAct (awake (withHost up host) off) req r off w)
      | none => false
  | none => false

theorem witness_RegisterCommandsTakeEffect :
    ([.evtStatusClear .pf 9 0x100, .evtEnableWrite .pf 9 1, .evtForce .pf 9 0x100, .lockSet .pf 7, .enableWrite .pf 9 1, .softReset .pf 9 2,
      .aonIslCtrlWrite .pf 38 0, .bootConfirm .pf 1, .flashRead .pf, .flashProgram .pf, .flashErase .pf, .flashInstall .pf,
      .advanceRollback .pf 0x5EED0001, .revokeKey .pf 0x5EED0002, .retire .pf 0x5EED0003, .retrainForce .pf 19 0x100, .ptpRxPop .pf 1 1,
      .ptpTxSend .pf 1 0x80000040, .tbStep .pf 1, .tbSlew .pf 1, .tbRate .pf 1, .tbServoLocked .pf 0x1401, .devResync .pf 35 1,
      .partitionQuiesce .pf 7 2, .keyPfSubmit .pf 2 0x80000000 [], .sflPfSubmit .pf 0x80000000 [], .ampClear .pf 1 1] : List Instr).all takes = true
    ∧ ([.prepare .pf, .abort .pf,
      .discard .pf, .cshExtEnable .pf 1, .cshSwRecord .pf 0x80000001, .safeStatusClear .pf false 1, .safeStatusClear .pf true 1, .clearLast .pf 1,
      .sramCe .pf 0x1F0D8001, .sramUe .pf 0x1F0D8001, .pair .pf 0x1F0D8001, .csiCrc .pf 0x1F0D8001, .dramCa .pf 0x1F0D8001,
      .dramCrc .pf 0x1F0D8001, .delay .pf 0x1F0D8001, .holdRead .pf 0x1F0D8001, .temp .pf 0x1F0D8001, .tripTest .pf 0x1F0D8001,
      .registerWrite .pf (hdr 9 0x24) 4 1] : List Instr).all takes = true := by
  constructor <;> decide +kernel

theorem witness_ResetRequestResetsTheDie :
    (match findReg R.BOOT_RESET_REQ with
      | some r => [Req.pf, .fyp].all fun req => [0, 2, 4].all fun torn =>
          decide (Accepted up req R.BOOT_RESET_REQ 0x15EED r)
            && decide (writeCauses (awake (tornWrite up torn) R.BOOT_RESET_REQ) req r R.BOOT_RESET_REQ 0x15EED = [])
            && decide (pageRefusal (tornWrite up torn) R.BOOT_RESET_REQ = none) && decide ((tornWrite up torn).boot.held = false)
      | none => false) = true := by decide +kernel

theorem witness_AccessCodesGovernEachBit :
    [R.SEAM_TIMEOUT, hdr 4 0x20, R.CSI_VC_CFG 0 0].all (fun off => match findReg off with
      | some r => [0, 31].all fun i => decide (i < 32) && holdsW1s r == false
      | none => false) = true := by decide +kernel

theorem witness_DroppedWritesChangeNothing :
    up.boot.held = false ∧ R.SEAM_TIMEOUT < 0x40000 ∧ 0x100 ≤ R.SEAM_TIMEOUT % 0x1000 ∧ pageRefusal up R.SEAM_TIMEOUT = none ∧ R.SEAM_TIMEOUT % 4 = 0
      ∧ (match findReg R.SEAM_TIMEOUT with
        | some r => decide (writeCauses (awake up R.SEAM_TIMEOUT) .pf r R.SEAM_TIMEOUT 0xFFFFFFFF ≠ [])
        | none => false) = true
      ∧ ((3 < 4 ∨ R.SEAM_TIMEOUT % 4 ≠ 0) ∧ ¬(3 = 8 ∧ R.SEAM_TIMEOUT % 8 = 0))
      ∧ (pageRefusal up (R.SEAM_TIMEOUT + 2) = none ∧ (8 < 4 ∨ (R.SEAM_TIMEOUT + 2) % 4 ≠ 0) ∧ ¬(8 = 8 ∧ (R.SEAM_TIMEOUT + 2) % 8 = 0)) := by
  decide +kernel

theorem witness_FirstFaultIsCaptured : 255 < 256 ∧ rb up (hdr 9 0x20) 0 = false ∧ rb (raise up 9 0) (hdr 9 0x20) 0 = true := by decide +kernel

theorem witness_ReadAnswersTheWord :
    up.boot.held = false ∧ 0x3FFFC % 4 = 0 ∧ 0x3FFFC + 4 ≤ 0x40000 ∧ pageOf (0x3FFFC / 0x1000) = none ∧ pageOf (R.SEAM_TIMEOUT / 0x1000) ≠ none
      ∧ R.SEAM_TIMEOUT % 4 = 0 := by decide +kernel

theorem witness_EventRegisters :
    (acceptedAt up .pf (hdr 9 0x28) 0x100 = true ∧ (findReg (hdr 9 0x28)).map (·.name) = some "EVT_FORCE" ∧ bit 0x100 8 = true)
      ∧ (acceptedAt (raise up 9 8) .pf (hdr 9 0x20) 0x100 = true ∧ (findReg (hdr 9 0x20)).map (·.name) = some "EVT_STATUS"
        ∧ (findReg (hdr 9 0x20)).map (fun r => bit (maskWhere r fun a => decide (a = .w1c)) 8) = some true)
      ∧ pageOf 9 ≠ none := by decide +kernel

theorem witness_LockStops :
    (match findReg (hdr P.seam 0x1C), findReg R.SEAM_TIMEOUT, exec (.lockSet .pf P.seam) up with
      | some r, some q, .next t =>
        decide (Accepted up .pf (hdr P.seam 0x1C) 1 r) && decide (r.name = "LOCK")
          && bit (plainMask r .pf (hdr P.seam 0x1C) ||| maskWhere r fun a => decide (a = .w1s)) 0
          && decide (P.seam < 64 ∧ R.SEAM_TIMEOUT / 0x1000 = P.seam ∧ R.SEAM_TIMEOUT % 4 = 0 ∧ 0x100 ≤ R.SEAM_TIMEOUT % 0x1000)
          && decide (((rd t R.SEAM_TIMEOUT).toNat ^^^ 7) &&& (maskWhere q (fun a => decide (a = .lk)) &&& plainMask q .fyp R.SEAM_TIMEOUT) ≠ 0)
      | _, _, _ => false) = true := by decide +kernel

/-- Slot 0 of the table window selects a table, with or without permission to write. -/
def tabled (sel : Nat) : State := setReg (en (en (en (en up P.hod) P.qry) P.dpt) P.key) (R.SYS_TWIN_SEL 0) sel

/-- The last bytes of an entry of each table; table 0; one byte past an entry; the software's fields of a model table entry; a table that is only read. -/
theorem witness_TableWindowAnswers :
    up.boot.held = false
      ∧ [(1, 0x1FFF60 + 28, 4), (2, 4, 4), (3, 0x4000 - 64, 64), (3, 0x4000, 32), (4, 16, 16), (5, 32, 32)].all (fun p =>
        let s := tabled p.1
        let k := slotOf s p.2.1
        decide (p.2.1 < 0x1000000 ∧ k.2.1 = p.1 ∧ k.2.1 ≠ 0 ∧ tableRefusal s k.2.1 = none ∧ CleanCtx s (k.2.2 / 32) ∧ s.qry.upsets = []) && inTable k.2.1 k.2.2 p.2.2) = true
      ∧ ((slotOf (tabled 0) 0).2.1 = 0 ∧ (slotOf (tabled 1) 28).2.1 ≠ 0 ∧ inTable 1 (slotOf (tabled 1) 28).2.2 5 = false)
      ∧ (let s := tabled 0x103
        let k := slotOf s 0x40
        let m := modelOf s 1
        let b := putBytes (modelBytes m) 0 (0 :: 2 :: List.replicate 46 0)
        k.2.1 = 3 ∧ k.2.2 = 0x40 ∧ inTable 3 0x40 48 = true ∧ tableWritable s .pf k = true ∧ tableRefusal s 3 = none ∧ modelLegal m b = true ∧ m.st = 0
          ∧ ¬(m.st = 0 ∧ field b 0 1 = 1))
      ∧ (inTable 3 0x7C 8 = false ∧ tableWritable (tabled 3) .pf (slotOf (tabled 3) 0x40) = false
        ∧ tableWritable (tabled 0x103) .fyp (slotOf (tabled 0x103) 0x40) = false) := by decide +kernel

/-! Islands, SRAM and the mesh. -/

/-- Island 19 in a step to 750 MHz, with what waits for its end. -/
def stepping (f : Island → Island) : State := updIsl up 19 fun i => f { i with point := ⟨600, 110⟩, step := some ⟨750, 123⟩ }

/-- A point asked in a step, the point reached, another; a fixed clock and a point that is not the group's; the end of a step. -/
theorem witness_OperatingPointRequests :
    (islandGroup 19 = some 0 ∧ (⟨600, 110⟩ : Point) ∈ grpPoints 0 ∧ (⟨1200, 160⟩ : Point) ∈ grpPoints 0 ∧ pointGranted up 19 0 ⟨600, 110⟩ = true
        ∧ pointGranted up 19 0 ⟨1200, 160⟩ = true)
      ∧ (19 < (stepping id).isl.length ∧ (island (stepping id) 19).live = true ∧ (island (stepping id) 19).step = some ⟨750, 123⟩
        ∧ pointGranted (stepping id) 19 0 ⟨1200, 160⟩ = true)
      ∧ (let s := stepping fun i => { i with step := none }
        (island s 19).live = true ∧ (island s 19).step = none ∧ (island s 19).point = ⟨600, 110⟩ ∧ (island s 19).point ≠ ⟨1200, 160⟩
          ∧ pointGranted s 19 0 ⟨600, 110⟩ = true ∧ pointGranted s 19 0 ⟨1200, 160⟩ = true)
      ∧ (38 < up.isl.length ∧ islandGroup 38 = none
        ∧ pointGranted { up with plb := { up.plb with opened := true } } 19 0 ⟨1200, 160⟩ = false)
      ∧ [(⟨900, 135⟩ : Point), ⟨750, 123⟩].all (fun q =>
        let k := island (stepping fun i => { i with nextPoint := some q }) 19
        decide (k.st ≠ .off ∧ k.step = some ⟨750, 123⟩ ∧ k.excursion = false ∧ k.nextState = none ∧ k.nextPoint = some q)) = true
      ∧ (let k := island (stepping id) 19
        k.st ≠ .off ∧ k.excursion = false ∧ k.nextState = none ∧ k.nextPoint = none)
      ∧ (let s := stepping fun i => { i with nextState := some .gated }
        (island s 19).nextState = some .gated ∧ mayEnter s 19 .gated = true ∧ (island s 19).nextPoint = none ∧ (island s 19).excursion = false) := by
  decide +kernel

/-- The first and the last island, and the two sides of the SRAM banks. -/
theorem witness_IslandSupervision :
    ((island (stepping id) 19).step.isSome = true ∧ (island (stepping id) 19).late = false)
      ∧ ((island up 38).live = true ∧ (island up 38).excursion = false ∧ (island up 38).fenced = false ∧ (island up 1).live = true)
      ∧ [1, 2, 19, 38].all (fun n => let s := updIsl up n fun i => { i with excursion := true }
          decide ((island s n).excursion = true ∧ (island s n).fenced = false ∧ n < s.isl.length)
            && unheld (settle (fenceOutcome (updIsl (seamLoses (withHost s []) n) n fun i =>
              { i with fenced := true, step := none, nextPoint := none, nextState := none }) n))) = true
      ∧ [3, 19, 38].all (fun n =>
          let a := setReg up (R.AON_ISL_CTRL n) 0
          let b := setReg up (R.AON_ISL_CTRL n) 4
          let c := updIsl a n fun i => { i with st := .off }
          let d := updIsl c n fun i => { i with initing := true }
          decide (rf a (R.AON_ISL_CTRL n) 1 0 = 0 ∧ dmcInUse a n = false ∧ (island a n).st = .on) && islandRuns a n && islandIdle a n
            && decide (rf b (R.AON_ISL_CTRL n) 1 0 = 0 ∧ dmcInUse b n = false) && islandRuns b n && islandIdle b n && rb b (R.AON_ISL_CTRL n) 2
            && !staysUp b n
            && decide (c.boot.held = false ∧ rf c (R.AON_ISL_CTRL n) 1 0 ≠ 2 ∧ (island c n).st = .off ∧ (island c n).fenced = false)
            && (island d n).initing) = true
      ∧ up.scrubPos.length = 272
      ∧ [0, 15, 16, 47, 48, 271].all (fun b =>
          (if b < 16 then rb up R.MTR_SCRUB_CTRL 0 else rb up (R.ASH_SRAMCFG ((b - 16) / 32)) 0)
          && decide ((island up (bankIsland b)).st ≠ .off ∧ (island up (bankIsland b)).st ≠ .retain ∧ (island up (bankIsland b)).fenced = false
            ∧ (island up (bankIsland b)).initing = false)) = true := by
  decide +kernel

theorem witness_MortarInjection :
    islandRuns up 2 = true ∧ injectRefusal up (channelFor up .pf 3 1 .normal) 0x08000000 512 = none
      ∧ injectRefusal up .normal 0x1000 64 = none ∧ (injectRefusal up (channelFor up .hw 20 0 .urgent) 0x1000 65).isSome = true ∧ 20 < 24 := by decide +kernel

def onMesh (d : Option (List Byte)) (addr : Nat) : Packet := { id := 3, req := .pf, src := 3, port := 0, chan := .normal, addr := addr, len := 64, data := d }
def mesh (p : Packet) : State := updMortar up fun m => { m with flight := [p], nextId := 4 }
def acknowledged : Reply := { req := .pf, agent := agentNo up 0x1000, chan := .normal, write := true, resp := { id := 2, status := 0 } }

/-- A read and a write that arrive; a request abandoned; an acknowledgement; a crossing with no packet of the number. -/
theorem witness_MortarArrivalAndAcknowledgement :
    [none, some (List.replicate 64 1)].all (fun d => [0x1000, 0x08000000].all fun a =>
      let p := onMesh d a
      let s := mesh p
      islandRuns s 2 && decide (placeOf p.addr = .coreSram 0 ∨ placeOf p.addr = .bank 0) && inTurn s p && decide (NoneBefore s p)
        && decide ((s.mortar.flight.find? fun q => q.id = p.id) = some p) && decide (placeStatus s p.addr = MS.ok ∧ s.eccErr = [])
        && decide (badRanges s p.addr p.len = [])
        && decide (s.boot.held = false ∧ (s.mortar.acks.find? fun r => r.resp.id = p.id) = none)) = true
    ∧ (let s := updMortar up fun m => { m with acks := [acknowledged], nextId := 4 }
      (∀ q ∈ s.mortar.acks, q.write = true)
        ∧ (s.mortar.acks.find? fun r => r.write && decide (r.resp.id = 2) && mayReturn s r) = some acknowledged
        ∧ s.boot.held = false ∧ (s.mortar.acks.find? fun r => r.resp.id = 3) = none ∧ (s.mortar.flight.find? fun p => p.id = 3) = none) := by decide +kernel

/-! The endpoint. -/

def linked (f : Pci → Pci) : State := { up with pci := f { up.pci with inReset := false, speed := 4, width := 8 } }
def oneFn (fn : Nat) (f : Func → Func) (p : Pci) : Pci := { p with funcs := updAt p.funcs fn f }

theorem witness_LinkAndFunctionEvents :
    (up.boot.powered = true ∧ up.boot.held = false)
      ∧ (linked fun p => { p with training := true, speed := 0 }).pci.training = true
      ∧ (let s := linked (oneFn 0 fun f => { f with aspmL1 := true })
        (funcOf s 0).aspmL1 = true ∧ s.pci.outstanding = [] ∧ s.pci.waiting = [] ∧ s.pci.writes = [] ∧ s.pci.speed ≠ 0 ∧ s.pci.l1 = false)
      ∧ [0, 8].all (fun fn => decide (fn < up.pci.funcs.length)) = true
      ∧ [1, 8].all (fun fn => vfOn (linked fun p => { p with vfEnable := true, numVfs := 8 }) fn) = true
      ∧ [0, 8].all (fun fn => (funcOf (linked (oneFn fn fun f => { f with flr := true })) fn).flr) = true := by decide +kernel

def windowOpen : State := setReg (setReg (linked (oneFn 0 fun f => { f with bme := true })) (R.PCI_HWIN_CFG_HI 0) 16) (R.PCI_HWIN_CFG 0) 16
def requested (s : State) (len : Nat) (data : Option (List Byte)) : State :=
  match exec (.hwinRequest .pf 0x800000000000 len data [] false) s with
  | .next t => t
  | _ => s

/-- A closed window; one open up to 16 pages: its last byte, and one byte past it; a write of one packet and of several. -/
theorem witness_HostWindowRequests :
    placeOf 0x800000000000 = .host 0 ∧ (island up 1).fenced = false ∧ rb up (R.PCI_HWIN_CFG_HI 0) 4 = false
      ∧ (island windowOpen 1).fenced = false ∧ hwinRefusal windowOpen 0 0 0x10000 = none
      ∧ 0 + 0x10001 > rf windowOpen (R.PCI_HWIN_CFG 0) 30 0 * 0x1000
      ∧ (let t := requested windowOpen 0 (some [1, 2, 3, 4])
        (island t 1).fenced = false ∧ t.pci.writes.any (fun x => x.id.isSome && decide (x.tlps.length ≤ 1)) = true)
      ∧ (let t := requested windowOpen 0 (some (List.replicate 300 1))
        (island t 1).fenced = false ∧ (t.pci.writes.head?.map fun x => decide (2 ≤ x.tlps.length)) = some true) := by decide +kernel

/-- No request holds the tag: one that a reset holds, and one that nothing holds; the whole of a read of 64 bytes, and a part. -/
theorem witness_CompletionsAndTimeouts :
    (let s := linked fun p => { p with heldTags := p.heldTags.set 9 64 }
     (s.pci.outstanding.find? fun o => o.tag = 9) = none ∧ s.pci.heldTags.get 9 = some 64 ∧ 64 ≤ (List.replicate 64 (1 : Byte)).length
      ∧ (List.replicate 63 (1 : Byte)).length < 64 ∧ s.pci.heldTags.get 8 = none ∧ (funcOf s 0).cplDisable = false)
      ∧ (let t := requested windowOpen 64 none
        (funcOf t 0).cplDisable = false ∧ ((t.pci.outstanding.find? fun o => o.tag = 0).map fun o =>
          decide ((List.replicate 64 (1 : Byte)).length = o.len ∧ (List.replicate 32 (1 : Byte)).length < o.len)) = some true)
      ∧ (4 : Nat) ≠ 0 ∧ (funcOf (linked (oneFn 0 fun f => { f with cplDisable := true })) 0).cplDisable = true := by decide +kernel

def barred : State := linked (oneFn 0 fun f => { f with mse := true, cfg := [(0x18, 0xF0000000)] })

theorem witness_HostRequests :
    let a := inbound barred
    answers barred = true ∧ turnedAway a 0 false false 4 [] = none ∧ turnedAway a 0 false true 4 [] = none
      ∧ (memOn a 0 = true ∧ turnedAway a 0 true true 4 [] = none ∧ ((decodeBar a 0 0xF0000000).map fun t =>
        unheld (readTarget (withHost a []) 0 t 4 []) && unheld (writeTarget (withHost a []) 0 t [1, 2, 3, 4] false 0 [])) = some true)
      ∧ decodeBar a 0 0xFFFFFFFF00000000 = none := by decide +kernel

/-! DRAM. -/

/-- Subchannel 0 runs, unless `f` says otherwise, under a layout that gives region 0 to it alone. -/
def dram0 (f : SubCh → SubCh) : State :=
  { up with dram := { up.dram with sub := updAt up.dram.sub 0 fun k => f { k with st := .run }, layouts := [List.replicate 32 1] } }
def dramReq (w : Option (List Byte)) : DramReq :=
  { src := 5, req := .pf, cls := 2, cls0 := 2, chan := .normal, addr := 0x1000000000, loc := 0, len := 4, data := w, at_ := 0 }
def dramFull : State :=
  dram0 fun k => { k with reads := List.replicate 64 (dramReq none), writes := List.replicate 64 (dramReq (some [1, 2, 3, 4])) }
def dramOne : State :=
  dram0 fun k => updBank { k with reads := [dramReq none] } 0 fun b => { b with row := some 0 }
def dramOneW : State :=
  dram0 fun k => updBank { k with writes := [dramReq (some [1, 2, 3, 4])] } 0 fun b => { b with row := some 0 }

theorem witness_DramRequestQueues :
    let s := dram0 id
    (0 < s.dram.sub.length ∧ placeOf 0x1000000000 = .dram ∧ dramTarget s 0x1000000000 = some (0, 0) ∧ (subch s 0).st ≠ .fenced
        ∧ queueFull (subch s 0).reads = false ∧ queueFull (subch s 0).writes = false ∧ (subch s 0).acks = [] ∧ (subch s 1).acks = []
        ∧ readBefore s 0 5 .normal s.dram.seq = false)
      ∧ (dramTarget dramFull 0x1000000000 = some (0, 0) ∧ (subch dramFull 0).st ≠ .fenced ∧ queueFull (subch dramFull 0).reads = true
        ∧ queueFull (subch dramFull 0).writes = true)
      ∧ (let s := dram0 fun k => { k with st := .fenced }
        dramTarget s 0x1000000000 = some (0, 0) ∧ (subch s 0).st = .fenced ∧ (subch s 0).acks = [] ∧ (subch s 1).acks = []
          ∧ readBefore s 0 5 .normal s.dram.seq = false)
      ∧ (let k := subch dramOne 0
        k.live = true ∧ k.draining = false ∧ hasRoom dramOne 0 (dramReq none) = true ∧ k.stopped = [] ∧ pickReq dramOne 0 k.reads = some (0, dramReq none)
          ∧ (bankAt k (bankOf 0)).row = some (rowOf 0) ∧ k.acks = [] ∧ (subch dramOne 1).acks = [] ∧ k.writes = [] ∧ dramOne.eccErr = []
          ∧ dramOne.dram.eccFlips = [] ∧ badRanges dramOne 0x1000000000 4 = [])
      ∧ (let k := subch dramOneW 0
        k.live = true ∧ k.reads = [] ∧ hasRoom dramOneW 0 (dramReq (some [1, 2, 3, 4])) = true ∧ k.stopped = [] ∧ pickReq dramOneW 0 k.writes = some (0, dramReq (some [1, 2, 3, 4]))
          ∧ (bankAt k (bankOf 0)).row = some (rowOf 0)) := by decide +kernel

def mitigating : State := dram0 fun k => updBank k 3 fun b => { b with mitig := [(7, 5)], row := some 1 }
def rolled : State :=
  { (dram0 fun k => updBank k 3 fun b => { b with rolling := 9 }) with
    dram := { (dram0 fun k => updBank k 3 fun b => { b with rolling := 9 }).dram with rfmThreshold := 9 } }
def owing (n : Int) : State := dram0 fun k => { k with owed := n }

theorem witness_DramUpkeep :
    let s := dram0 id
    let k := subch s 0
    (0 < 8 ∧ s.dram.sub.length = 8 ∧ k.live = true ∧ retryRoom k = true ∧ mayActivate s 0 3 5 = true)
      ∧ ((subch mitigating 0).live = true ∧ retryRoom (subch mitigating 0) = true ∧ (bankAt (subch mitigating 0) 3).mitig = (7, 5) :: [])
      ∧ ((subch rolled 0).live = true ∧ retryRoom (subch rolled 0) = true ∧ (bankAt (subch rolled 0) 3).mitig = [] ∧ rfmDue rolled 0 3 = true)
      ∧ (ticks k = true ∧ k.owed + 1 < rf s (R.DMC_REF_CTRL (0 / 2)) 3 0)
      ∧ (refreshes (subch (owing 7) 0) = true ∧ 0 < rf (owing 7) (R.DMC_REF_CTRL (0 / 2)) 3 0
        ∧ (rf (owing 7) (R.DMC_REF_CTRL (0 / 2)) 3 0 : Int) ≤ (subch (owing 7) 0).owed + 1)
      ∧ (refreshes (subch (owing 1) 0) = true ∧ retryRoom (subch (owing 1) 0) = true ∧ 1 ≤ (subch (owing 1) 0).owed
        ∧ ∀ r ∈ (subch (owing 1) 0).reads ++ (subch (owing 1) 0).writes, r.cls = 3)
      ∧ (refreshes (subch (owing (-7)) 0) = true ∧ retryRoom (subch (owing (-7)) 0) = true ∧ -8 < (subch (owing (-7)) 0).owed
        ∧ rf (owing (-7)) (R.DMC_REF_CTRL (0 / 2)) 15 8 ≠ 0 ∧ (subch (owing (-7)) 0).reads = [] ∧ (subch (owing (-7)) 0).writes = [])
      ∧ rf s (R.DMC_PD_CTRL (0 / 2)) 15 0 ≠ 0
      ∧ (rb s (R.DMC_SCRUB_CTRL (0 / 2)) 0 = true
        ∧ ((internalOf s 0 k.patrol).map fun a => (engineCommand s 0 (patrolReq s a k.patrol)).isSome) = some true) := by decide +kernel

def edge : Probe := { low := true, cur := true, high := false }
def blind : Probe := { low := false, cur := false, high := false }
def trained (fails : Option Nat) (eye : Nat) : Train := { fails := fails, rdEye := eye, wrEye := eye, caEye := eye }

theorem witness_DramTrainingAndAlerts :
    let s := dram0 id
    ((subch s 0).live = true ∧ rb s (R.DMC_RETRAIN_CTRL (0 / 2)) 0 = true ∧ (probeMove edge).isSome = true)
      ∧ probeMove blind = none
      ∧ (let s := dram0 fun k => { k with st := .window }
        (subch s 0).st = .window ∧ (subch s 0).alert = false ∧ s.dpt.noResults = [] ∧ unheld (retrainWindow 0 (trained none 7) (withHost s [])) = true)
      ∧ (trainFails (trained none 8) = none ∧ trainFails (trained none 7) ≠ none ∧ trainFails (trained (some 8) 8) ≠ none)
      ∧ (ticks (subch s 0) = true ∧ (subch s 0).replaying = 0)
      ∧ (ticks (subch (dram0 fun k => { k with replaying := 1 }) 0) = true ∧ (subch (dram0 fun k => { k with replaying := 1 }) 0).replaying ≠ 0
        ∧ unheld (dramAlert 0 true (withHost (dram0 fun k => { k with replaying := 1 }) [])) = true)
      ∧ ((subch (dram0 fun k => { k with alert := true }) 0).alert = true ∧ (dram0 fun k => { k with alert := true }).dpt.noResults = [])
      ∧ (let t := { (dram0 fun k => { k with st := .filling }) with dram := { (dram0 fun k => { k with st := .filling }).dram with filling := [3] } }
        (subch t 0).st = .filling ∧ fillsSub t 0 = true ∧ unheld (layoutReady (withHost t [])) = true) := by decide +kernel

/-! Hod and Quarry. -/

/-- A context of capacity 16 whose ring lies at 0x1000, and a state in which queue `q` has it. -/
def context (prod cons head tail depth : Nat) (isEn : Bool) : Nat :=
  let c := putBits (putBits 0 31 0 0x1000) 63 32 (4 * 2 ^ 16 + (if isEn then 2 ^ 31 else 0))
  let c := putBits (putBits c 95 64 (head + tail * 65536)) 127 96 depth
  cput (cput (cput c 4 18 17 prod) 4 20 19 cons) 4 22 21 (if isEn then 1 else 0)
def queue (q c : Nat) : State := putCtx (en up P.hod) q c
def reserving : State :=
  let s := queue 7 (cput (context 1 1 0 2 0 true) 4 16 0 2)
  { s with hod := { s.hod with inflight := [⟨7, 2⟩] } }

/-- Queue 7 with such a context, urgent, with slot 0. -/
def urgentQueue (c : Nat) : State := queue 7 (putBit c 60 true)

theorem witness_QueueContexts :
    (let s := queue 65535 (context 1 1 0 0 0 false)
     let w := putBit (4 * 2 ^ 16) 31 true
     65535 < 65536 ∧ CleanCtx s 65535 ∧ s.hod.slots = [] ∧ tableRefusal s 1 = none ∧ ctxEn (peekCtx s 65535) = false ∧ pushesOf s 65535 = []
        ∧ w &&& 0x08E00000 = 0 ∧ 3 ≤ bits w 20 16 ∧ bits w 20 16 ≤ 16 ∧ bit w 28 = false ∧ ringOk s (putBits (peekCtx s 65535) 63 32 w) = true
        ∧ pushWaits s 65535 = false ∧ islandStatus s 18 = MS.ok)
      ∧ (let s := queue 65535 (context 1 1 0 0 0 false)
        let w := putBit (4 * 2 ^ 16) 31 true + 2 ^ 28 + 2 ^ 24
        CleanCtx s 65535 ∧ s.hod.slots = [] ∧ w &&& 0x08E00000 = 0 ∧ bit w 28 = true
          ∧ (∀ e ∈ s.hod.cache, e.1 = 65535 ∨ ctxSlot e.2 ≠ ctxSlot (peekCtx s 65535))
          ∧ ringOk s (putBits (peekCtx s 65535) 63 32 w) = false)
      ∧ (let s := queue 7 (context 0 0 0 3 3 true)
        let w := putBit (4 * 2 ^ 16) 31 false
        CleanCtx s 7 ∧ tableRefusal s 1 = none ∧ ctxEn (peekCtx s 7) = true ∧ pushesOf s 7 = [] ∧ w &&& 0x08E00000 = 0 ∧ 3 ≤ bits w 20 16
          ∧ bits w 20 16 ≤ 16
          ∧ hodStops s = false ∧ otherPart s .pf (peekCtx s 7) = false ∧ ctxState (peekCtx s 7) ≠ 2 ∧ ctxProd (peekCtx s 7) = 0
          ∧ ctxDepth (peekCtx s 7) + ctxResv (peekCtx s 7) + 13 ≤ ctxCap (peekCtx s 7)
          ∧ ctxCap (peekCtx s 7) < ctxDepth (peekCtx s 7) + ctxResv (peekCtx s 7) + 14 ∧ ctxDepth (peekCtx s 7) ≤ ctxCap (peekCtx s 7)
          ∧ ctxCons (peekCtx s 7) = 0 ∧ 3 ≤ ctxDepth (peekCtx s 7) ∧ ctxDepth (peekCtx s 7) ≤ 65536
          ∧ ctxResv (peekCtx s 7) + ctxDepth (peekCtx s 7) ≤ ctxCap (peekCtx s 7))
      ∧ (let s := urgentQueue (context 0 0 0 3 3 true)
        CleanCtx s 7 ∧ s.hod.slots = [] ∧ ctxEn (peekCtx s 7) = true ∧ hodStops s = false ∧ otherPart s .pf (peekCtx s 7) = false
          ∧ ctxProd (peekCtx s 7) = 0 ∧ ctxUrgent (peekCtx s 7) = true ∧ ctxState (peekCtx s 7) = 1) := by decide +kernel

theorem witness_QueueContexts_commits :
      (CleanCtx reserving 7 ∧ reserving.hod.slots = [] ∧ pushesOf reserving 7 = [⟨7, 2⟩] ∧ pushWaits reserving 7 = false ∧ islandStatus reserving 18 = MS.ok
        ∧ 2 ≤ ctxResv (peekCtx reserving 7) ∧ ctxDepth (peekCtx reserving 7) + 2 ≤ 65536) := by decide +kernel

/-- A queue whose consumer is the copy engine, with two descriptors, and its completion queue 9; a completion record that is held. -/
def copying : State := putCtx (queue 7 (context 1 3 0 2 2 true)) 9 (context 1 0 0 0 0 true)
def heldRecord : State := { copying with hod := { copying.hod with heldCq := [{ sq := 7, cq := 9, record := [], copy := true }] } }

theorem witness_PushesPopsAndCopies :
    (let s := queue 7 (context 1 1 0 0 0 false)
     CleanCtx s 7 ∧ s.hod.slots = [] ∧ ctxEn (peekCtx s 7) = false)
      ∧ (let s := queue 7 (cput (context 1 1 0 2 2 true) 4 22 21 2)
        CleanCtx s 7 ∧ hodStops s = false ∧ ctxEn (peekCtx s 7) = true ∧ ctxState (peekCtx s 7) = 2)
      ∧ (let s := queue 7 (context 2 1 0 2 2 true)
        CleanCtx s 7 ∧ hodStops s = false ∧ ctxEn (peekCtx s 7) = true ∧ ctxState (peekCtx s 7) ≠ 2 ∧ ctxProd (peekCtx s 7) = 2
          ∧ ctxUrgent (peekCtx s 7) = false ∧ ctxDepth (peekCtx s 7) + ctxResv (peekCtx s 7) + 1 ≤ ctxCap (peekCtx s 7)
          ∧ otherPart s .pf (peekCtx s 7) = false ∧ ctxCons (peekCtx s 7) = 1 ∧ ctxDepth (peekCtx s 7) < 3)
      ∧ (let s := urgentQueue (context 2 1 0 2 2 true)
        CleanCtx s 7 ∧ s.hod.slots = [] ∧ ctxUrgent (peekCtx s 7) = true ∧ ctxProd (peekCtx s 7) = 2
          ∧ ctxDepth (peekCtx s 7) + ctxResv (peekCtx s 7) + 15 > ctxCap (peekCtx s 7)
          ∧ ¬ctxDepth (peekCtx s 7) + ctxResv (peekCtx s 7) + 14 > ctxCap (peekCtx s 7))
      ∧ (let s := urgentQueue (context 1 1 0 2 2 true)
        CleanCtx s 7 ∧ hodStops s = false ∧ ctxEn (peekCtx s 7) = true ∧ ctxState (peekCtx s 7) ≠ 2 ∧ otherPart s .pf (peekCtx s 7) = false
          ∧ ctxProd (peekCtx s 7) = 1 ∧ ctxRecord (peekCtx s 7) = false ∧ ctxUrgent (peekCtx s 7) = true)
      ∧ [1, 2].all (fun op =>
        let s := setBytes copying 0x1000 [op, 0, 9, 0]
        let p := withHost s []
        let r := hodPop p .hw 3 7 1 .alone
        copyReady s 7 && decide (r.2.1 = HS.ok) && (cqCheck r.1 7 (copyDesc r.2.2.data).cq).2 && unheld (copyStart p 7 .alone)
          && decide (nextOpcode s 7 [] = 2) == decide (op = (2 : Byte))) = true
      ∧ (match exec (.copyDescriptor 7 .alone []) (setBytes copying 0x1000 [1, 0, 9, 0]) with
        | .next t => (t.hod.copies.find? fun j => j.sq = 7).isSome
        | _ => false) = true
      ∧ ((heldRecord.hod.heldCq.find? fun h => h.sq = 7).isSome = true ∧ (pushRecord heldRecord 9 [] (some 0)).2 ≠ HS.full
        ∧ (pushRecord (putCtx heldRecord 9 (context 1 0 0 0 16 true)) 9 [] (some 0)).2 = HS.full)
      ∧ (let s := queue 7 (context 1 1 0 2 2 true)
        CleanCtx s 7 ∧ hodStops s = false ∧ ctxEn (peekCtx s 7) = true ∧ ctxState (peekCtx s 7) ≠ 2 ∧ otherPart s .pf (peekCtx s 7) = false
          ∧ ctxProd (peekCtx s 7) = 1 ∧ ctxRecord (peekCtx s 7) = false ∧ ctxDepth (peekCtx s 7) + ctxResv (peekCtx s 7) + 14 ≤ ctxCap (peekCtx s 7)
          ∧ ((match devicePush .pf 7 [[1], [2]] [] 0 false (withHost s []) with | .next u => unheld u | _ => false) = true)
          ∧ ctxCons (peekCtx s 7) = 1 ∧ 2 ≤ ctxDepth (peekCtx s 7)
          ∧ (let r := ringReads 2 (hodCycle (withHost s []) 7 0 2).1 7 (ctxHead (peekCtx s 7))
            r.2.st ≤ 1 ∧ unheld r.1 = true)) := by decide +kernel

/-- Pool 0 of four buffers of 256 bytes. -/
def pooled : State := setReg (en up P.qry) (R.QRY_POOL_CFG 0) 0x80000004
def taken (owner : Nat) : State := { pooled with qry := { pooled.qry with bufs := [(0, { gen := 1, owner := owner, used := true })] } }

theorem witness_BufferPools :
    (accepts pooled P.qry = true ∧ pooled.qry.scan = none)
      ∧ ((firstIdx 8 fun p => poolEn pooled p && decide (256 ≤ poolSize p)) = some 0 ∧ 0 ∉ pooled.qry.fenced
        ∧ meetUpset pooled 0 (some (lowestFree (allocated pooled 0) 0)) = none
        ∧ lowestFree (allocated pooled 0) 0 < poolCount pooled 0 ∧ lowestFree (allocated pooled 0) 0 < 65536)
      ∧ [(53, 0), (39, 39)].all (fun p =>
        let s := taken p.2
        accepts s P.qry && decide (s.qry.scan = none ∧ idReq p.1 = (if p.1 = 53 then .pf else .core 3)) && poolEn s 0
          && decide (0 < poolCount s 0 ∧ (bufOf s 0 0).gen < 256 ∧ meetUpset s 0 (some 0) = none ∧ 0 ∉ s.qry.fenced) && (bufOf s 0 0).used
          && mayFree s p.1 (bufOf s 0 0).owner && decide (2 ≠ (bufOf s 0 0).gen)) = true
      ∧ (3 < poolCount pooled 0 ∧ poolEn pooled 0 = true ∧ (bufOf pooled 0 3).gen < 256 ∧ (bufOf pooled 0 3).used = false
        ∧ meetUpset pooled 0 (some 3) = none ∧ 255 ≠ (bufOf pooled 0 3).gen)
      ∧ (pooled.qry.upsets = [] ∧ pooled.qry.scanAt = 0 ∧ 0 < poolCount (taken 5) 0 ∧ (bufOf (taken 5) 0 0).owner = 5) := by decide +kernel

/-! Ingress. -/

/-- CSI-2 port 1, virtual channel 2: RAW8, 64 bytes by 2 lines, slot 5, trigger queue 9. -/
def csiOn : State := setReg (en (en up (P.csi 1)) P.qry) (R.CSI_PHY_STATUS 1) 4
def csiRing : Nat := cput (cput (putBits (putBits 0 31 0 0x100000) 63 32 (4 * 2 ^ 16 + 2 ^ 31)) 4 22 21 1) 4 18 17 2
def csiDecl : State :=
  let s := setReg (setReg csiOn (R.CSI_VC_CFG 1 2) (5 + 64 + 256 + 65536)) (R.CSI_VC_DIM 1 2) (64 + 2 * 65536)
  let s := setReg (setReg s (R.CSI_VC_RQ 1 2) (30 + 9 * 65536)) (R.CSI_VC_CTRL 1 2) 1
  setReg (setReg (setReg (putCtx s 9 csiRing) (R.QRY_POOL_CFG 0) 0x80000004) (R.QRY_POOL_BASE_LO 0) 0x200000) (R.QRY_QUOTA 5 0) 0x80008
def csiFrame (lines : Nat) (got : Bool) : Frame :=
  { slot := 5, kind := 1, seq := 1, num := 3, epoch := 0, ts := 0, got := got, handle := 0, addr := 0x200000, size := 128, lines := lines }
def inFrame (f : Frame) : State := updSrc csiDecl (csiSrc 1 2) fun k => { k with frame := some f }

/-- A burst at 80 Mbps whose packet header had one bit corrected; one whose header cannot be corrected. -/
def slow : CsiRx := { lanes := 1, mbps := 80, header := 1 }
def broken : CsiRx := { slow with header := 2 }
def packetTaken (s : State) : Bool := decide ((csiPacket s 1 slow).2 = some true ∧ (csiPacket (withHost s []) 1 slow).2 = some true)

theorem witness_CsiFrames :
    let src := csiSrc 1 2
    let h (s : State) := (csiPacket (withHost s []) 1 slow).1
    let d := declOf (h csiDecl) src
    accepts csiOn (P.csi 1) = true
      ∧ (let p := (csiPacket csiOn 1 slow).1
        packetTaken csiOn = true ∧ (srcOf p src).frame = none ∧ (declOf p src).valid = false)
      ∧ (let p := (csiPacket csiDecl 1 slow).1
        let q := nextSeq p d.slot
        packetTaken csiDecl = true ∧ (srcOf p src).frame = none ∧ (declOf p src).valid = true ∧ (declOf p src).en = true ∧ (declOf p src).cls ≠ 0
          ∧ (startCheck q.1 d (srcOf q.1 src)).2 = none)
      ∧ (let s := putCtx csiDecl 9 0
        let p := (csiPacket s 1 slow).1
        let q := nextSeq p d.slot
        packetTaken s = true ∧ (declOf p src).en = true ∧ (startCheck q.1 (declOf p src) (srcOf q.1 src)).2.isSome = true)
      ∧ (let s := inFrame (csiFrame 0 false)
        let al := allocFrom (h s) (streamVia d none) d.slot (strideOf d * d.height)
        let g := { csiFrame 0 false with got := true, handle := al.2.handle, addr := al.2.addr, size := strideOf d * d.height }
        packetTaken s = true ∧ (srcOf (h s) src).frame = some (csiFrame 0 false) ∧ rawType 0x2B = true ∧ rawType 0x2A = true
          ∧ 0x2B ≠ (rawFormat d.format d.width).2.2 ∧ 63 ≠ (rawFormat d.format d.width).2.1
          ∧ rawType (rawFormat d.format d.width).2.2 = true ∧ al.2.st = QS.ok
          ∧ unheld (storeLine (acceptStart al.1 src g) src d g (List.replicate 64 1) true true) = true)
      ∧ (let s := inFrame (csiFrame 1 true)
        packetTaken s = true ∧ (srcOf (h s) src).frame = some (csiFrame 1 true) ∧ rawType (rawFormat d.format d.width).2.2 = true ∧ 1 < d.height
          ∧ unheld (storeLine (h s) src d (csiFrame 1 true) (List.replicate 64 1) true true) = true)
      ∧ (let s := inFrame (csiFrame 2 true)
        packetTaken s = true ∧ (srcOf (h s) src).frame = some (csiFrame 2 true) ∧ d.height ≤ 2
          ∧ unheld (endFrame (h s) src { csiFrame 2 true with tEnd := tbNs (h s), fixed := true }) = true)
      ∧ (4 ≤ 0x12 ∧ rawType 0x12 = false ∧ 16 ≤ 0x12 ∧ 4 ≤ 8 ∧ 8 < 16 ∧ rawType 8 = false)
      ∧ (csiPacket csiOn 1 broken).2 = none := by decide +kernel

def eth : State := en up (P.eth 1)
def streamed : State := setReg eth (R.ETH_STR_CFG 1 0) (5 + 64 + 256)
def avtp : List Byte := List.replicate 20 0 ++ [0, 4] ++ List.replicate 8 0
def ready : State := updSrc csiDecl (csiSrc 1 2) fun k => { k with ready := [csiFrame 2 true] }

/-- Entry 0 of MAC 1 takes host pushes of at most 1 KiB from queue 11, whose ring holds a descriptor of 64 bytes at 0x2000. -/
def pushing : State :=
  let s := en (en eth P.qry) P.hod
  let s := setReg (setReg (setReg s (R.ETH_STR_CFG 1 0) (5 + 128 + 256 + 2 ^ 13 + 2 ^ 16)) (R.ETH_STR_CTRL 1 0) 1) (R.ETH_STR_ID_LO 1 0) 11
  let s := setReg (setReg (setReg s (R.ETH_STR_RQ 1 0) (30 + 9 * 65536)) (R.QRY_POOL_CFG 1) 0x80000004) (R.QRY_POOL_BASE_LO 1) 0x200000
  let s := setReg s (R.QRY_QUOTA 5 0) 0x80008
  setBytes (putCtx (putCtx s 9 csiRing) 11 (context 0 1 0 1 1 true)) 0x1000 ([1, 0, 0, 0, 5, 0, 0, 0] ++ leBytes 8 64 ++ leBytes 8 0x2000)
/-- Its frame is read, and its completion goes to queue 12. -/
def pushedFrame : Frame := { csiFrame 0 false with kind := 3, sq := 11, cq := 12 }
def hostPush : State := updSrc (putCtx pushing 12 (context 1 0 0 0 0 true)) (ethSrc 1 0) fun k => { k with frame := some pushedFrame }
def pushTaken : State × Nat × Got := popFrom (wake (withHost pushing []) 37) (streamVia (declOf pushing (ethSrc 1 0)) none) 1 11 .alone

theorem witness_EthernetAndTriggers :
    (let d := declOf pushing (ethSrc 1 0)
     let bs := pushTaken.2.2.data
     let q := nextSeq pushTaken.1 d.slot
     let k := startCheck q.1 d (srcOf q.1 (ethSrc 1 0))
     let al := allocFrom k.1 (streamVia d none) d.slot d.maxBytes
     let f := pushFrame k.1 d bs q.2 11 al.2
     let v := streamVia d (some d.cls)
     let g := readRange (acceptStart al.1 (ethSrc 1 0) f) v (field bs 16 6) (field bs 8 4)
     let w := patientRange g.1 v f.addr g.2.data g.2.bad
     0 < 36 ∧ accepts pushing (P.eth 1) = true ∧ d.valid = true ∧ d.en = true ∧ d.kind = 3 ∧ d.cls ≠ 0 ∧ (srcOf pushing (ethSrc 1 0)).frame = none
       ∧ rf pushing (R.ETH_STR_ID_LO 1 0) 15 0 = 11 ∧ pushing.hod.heldCq = [] ∧ pushTaken.2.1 = HS.ok ∧ descOk d bs = true
       ∧ windowOk q.1 (ctxPart (peekCtx q.1 11)) .hod .read (field bs 16 6) (field bs 8 4) = true ∧ k.2 = none
       ∧ al.2.st = QS.ok ∧ g.2.st ≤ 1 ∧ w.2 = MS.ok ∧ unheld w.1 = true) ∧
    (ofBe (((List.replicate 12 (0 : Byte) ++ [0x22, 0xF0]).drop 12).take 2) = 0x22F0 ∧ ofBe (((List.replicate 12 (0 : Byte) ++ [0x88, 0xF7]).drop 12).take 2) = 0x88F7) ∧
    (1 < 2 ∧ eth.ing.ptpRx.length = 2 ∧ accepts eth (P.eth 1) = true ∧ (nth eth.ing.ptpRx 1 []).length < 8)
      ∧ ((List.replicate 128 (1 : Byte)).length ≤ 128 ∧ (List.replicate 27 (1 : Byte)).length < 28)
      ∧ (accepts streamed (P.eth 1) = true ∧ 28 ≤ avtp.length ∧ 4 ≤ ofBe ((avtp.drop 20).take 2) ∧ 24 + ofBe ((avtp.drop 20).take 2) ≤ avtp.length
        ∧ avtpEntry (wake (withHost streamed []) 37) 1 (ofBe ((avtp.drop 4).take 8)) = some 0
        ∧ (let w := wake (withHost streamed []) 37
          unheld (avtpStream w 1 (ethSrc 1 0) (avtpRead w (ethSrc 1 0) avtp 4)) = true))
      ∧ rb (setReg eth (R.ETH_PTP_TX_CTRL 1) (2 ^ 30)) (R.ETH_PTP_TX_CTRL 1) 30 = true
      ∧ (islandRuns eth 37 = true ∧ rb eth (R.ETH_LINK_STATUS 1) 0 ≠ true)
      ∧ ((srcOf ready (csiSrc 1 2)).ready = csiFrame 2 true :: [] ∧ islandRuns ready (islandAt (declOf ready (csiSrc 1 2)).page) = true
        ∧ frameWaits ready (csiSrc 1 2) = false ∧ unheld (frameTrigger (csiSrc 1 2) 0 (withHost ready [])) = true)
      ∧ ((srcOf hostPush (ethSrc 1 0)).frame ≠ none
        ∧ (srcOf hostPush (ethSrc 1 0)).frame = some pushedFrame
        ∧ islandRuns hostPush (islandAt (declOf hostPush (ethSrc 1 0)).page) = true ∧ writeStops hostPush 0x200000 128 = false
        ∧ unheld (hostPushDone (ethSrc 1 0) 0 (withHost hostPush [])) = true)
      ∧ (csiSrc 1 2 < 200 ∧ (declOf csiDecl (csiSrc 1 2)).valid = true ∧ (srcOf csiDecl (csiSrc 1 2)).stalled = false
        ∧ (declOf csiDecl (csiSrc 1 2)).en = true) := by decide +kernel

/-! Media engines. -/

def pic : Pic := { hY := 0, hC := 8, aY := 0, aC := 0, depth10 := false, width := 64, height := 2 }
def devSt (f : DevSlot → DevSlot) : State :=
  let s := en (en (en up (P.dev 0)) P.qry) P.hod
  { s with dev := { s.dev with slots := updAt s.dev.slots 5 f } }
/-- Entry 0 of MAC 0 feeds slot 5 by trigger queue 9, whose ring holds one entry; the pictures leave by queue 10. -/
def devFed : State :=
  let s := devSt id
  let s := setReg (setReg (setReg s (R.ETH_STR_CFG 0 0) (5 + 256 + 2 ^ 13)) (R.ETH_STR_DIM 0 0) (64 + 2 * 65536)) (R.ETH_STR_RQ 0 0) (30 + 9 * 65536)
  let s := putCtx (putCtx (setReg s (R.DEV_SLOT_CFG 0 5) (10 + 65536)) 9 (putBits (cput (cput csiRing 4 20 19 1) 4 18 17 2) 127 96 1)) 10 (cput csiRing 4 18 17 1)
  { s with plb := { s.plb with partLeft := List.replicate 8 1000000, grpLeft := List.replicate 12 1000000 } }
/-- The entry names a live buffer, in the slot's format. -/
def devLive : State :=
  let s := { devFed with qry := { devFed.qry with bufs := [(0, { gen := 1, owner := 5, used := true })] } }
  setBytes (setBytes s 0x100000 (leBytes 4 (2 ^ 19))) (0x100000 + 50) (leBytes 1 (declOf devFed 128).format)
def devPop (s : State) (c p n : Nat) : State × Nat × Got :=
  let w := wake (withHost s []) 27
  popFrom { w with dev := { w.dev with rrPart := SMap.set w.dev.rrPart c p, rrSlot := SMap.set w.dev.rrSlot (8 * c + p) n } } devVia 1
    (declOf s ((slotSource s n).getD 0)).queue .alone
/-- The slot decodes, and the pool has planes for it. -/
def devGoing : State := updDev (setReg (setReg devLive (R.QRY_POOL_CFG 0) 0x80000008) (R.QRY_QUOTA 5 0) 0x80008) 5 fun k => { k with st := 1, width := 64, height := 2 }
def devOut : Decoding :=
  { pics := [{ luma := [1], chroma := [], units := [{ off := 0, len := 1, first := 0, last := 7 }], block := 16, keep := true, order := 4 }], emit := 1 }
def devWork : DevWork := { slot := 5, record := List.replicate 64 0, pics := [(pic, some { pic with aY := 0x1000 })], rap := true }

theorem witness_VideoDecoding :
    (islandRuns devFed 27 = true ∧ devIdle devFed = some 0)
      ∧ (let s := putCtx devFed 9 (putBits (cput (cput csiRing 4 20 19 2) 4 18 17 2) 127 96 1)
        match devChoose s with
        | some (c, p, n) => let r := devPop s c p n
            decide (devIdle s = some 0 ∧ r.2.1 ≠ HS.ok ∧ r.2.1 ≠ HS.poison) && unheld r.1
        | none => false) = true
      ∧ (match devChoose devFed with
        | some (c, p, n) => let r := devPop devFed c p n
            decide (r.2.1 = HS.ok ∧ handleLive r.1 (field r.2.2.data 0 4) = false) && unheld r.1
        | none => false) = true
      ∧ ([(devGoing, false), (updDev devGoing 5 fun k => { k with st := 0, seq := some { profile := 0, level := 0, width := 64, height := 2 } }, true)].all fun x =>
        match devChoose x.1 with
        | some (c, p, n) => let r := devPop x.1 c p n
            let d := declOf x.1 ((slotSource x.1 n).getD 0)
            decide (devIdle x.1 = some 0 ∧ r.2.1 = HS.ok ∧ handleLive r.1 (field r.2.2.data 0 4) = true ∧ field r.2.2.data 50 1 = d.format ∧ d.width ≠ 65
              ∧ ((devSlot r.1 n).st ≠ 0 ∨ (x.2 = true ∧ (devSlot r.1 n).seq.isSome = true))) && unheld r.1
        | none => false) = true
      ∧ (match devChoose devGoing with
        | some (c, p, n) => let r := devPop devGoing c p n
            let k := devSlot r.1 n
            let z := planeSizes k.width k.height k.depth10
            decide (devGoing.dev.eng.length = 6 ∧ devIdle devGoing = some 0 ∧ r.2.1 = HS.ok
              ∧ handleLive r.1 (field r.2.2.data 0 4) = true ∧ field r.2.2.data 50 1 = (declOf devGoing ((slotSource devGoing n).getD 0)).format
              ∧ k.st ≠ 0 ∧ (allocPics [true] (updDev r.1 n fun k => { k with last := r.2.2.data }) n z.2.1 z.2.2).2.1 = QS.ok) && unheld r.1
        | none => false) = true
      ∧ (let s := { devSt id with dev := { (devSt id).dev with eng := updAt (devSt id).dev.eng 5 fun _ => some devWork } }
        islandRuns s 27 = true ∧ nth s.dev.eng 5 none = some devWork ∧ unheld (devDecodeDone 5 devOut 3 4 (withHost s [])) = true)
      ∧ (devSlot (devSt fun k => { k with out := [pic] }) 5).out = pic :: []
        ∧ unheld (devPictureOutput 5 (withHost (devSt fun k => { k with out := [pic] }) [])) = true
      ∧ ((devSlot (devSt fun k => { k with st := 3 }) 5).st = 3 ∧ devBusy (devSt fun k => { k with st := 3 }) 5 = false) := by decide +kernel

def enlOn : State := en (en (en (en up (P.enl 0)) P.esl) P.qry) P.hod
def enlFrame : EnlFrame := { slot := 5, record := List.replicate 64 0, list := List.replicate 96 0, sel := 0, todo := [0] }
def enlDone : EnlFrame := { enlFrame with todo := [], roi := some { entry := 0, batch := 3, lanes := [0] } }
def batch : Batch :=
  { id := 3, group := 0, ident := 36, handle := 0, addr := 0x200000, slot := 512, paired := false, lanes := List.replicate 4 {}, tOpen := 0, epoch := 1 }
def enlSt (f : Option EnlFrame) (b : List Batch) : State :=
  { enlOn with enl := { enlOn.enl with eng := updAt enlOn.enl.eng 0 fun _ => f }, esl := { enlOn.esl with batches := b, nextId := 4 } }
def full : Batch := { batch with closed := true, lanes := List.replicate 4 { assigned := true, done := true, ok := true } }
def parked : State := { enlOn with enl := { enlOn.enl with parked := [enlFrame] } }
/-- Entry 0 of MAC 0 feeds slot 5 of the engines by queue 9; its list at 0x300000 is empty. -/
def enlFed (record : List Byte) : State :=
  let s := en (en devLive (P.enl 0)) P.esl
  let s := setReg (setReg s (R.ENL_SLOT_CFG 0 5) (9 + 65536)) (R.ENL_SLOT_LIST_LO 0 5) 0x300000
  setBytes (setReg s (R.ENL_SLOT_LIST_HI 0 5) 65536) 0x100000 record
def enlPop (s : State) (c p n : Nat) : State × Nat × Got :=
  let w := wake (withHost s []) 28
  popFrom { w with enl := { w.enl with rrPart := SMap.set w.enl.rrPart c p, rrSlot := SMap.set w.enl.rrSlot (8 * c + p) n } } enlVia 1
    (rf s (R.ENL_SLOT_CFG 0 n) 15 0) .alone
/-- A region of 64 by 2 pixels, not scaled, whose first tile is to come, of a frame of 64 by 2 in a live buffer. -/
def enlTiling : EnlFrame :=
  { enlFrame with
    record := leBytes 4 (2 ^ 19) ++ [5, 0, 0, 0] ++ leBytes 8 0x200000 ++ List.replicate 48 0,
    list := List.replicate 64 0 ++ ([0, 0, 0, 0, 64, 0, 2, 0, 64, 0, 2, 0] : List Byte) ++ List.replicate 20 0, todo := [],
    roi := some { entry := 0, batch := 3, lanes := [0] } }

theorem witness_RegionsAndBatches :
    (0 < parked.enl.eng.length ∧ islandRuns parked 28 = true ∧ islandRuns parked 29 = true ∧ enlIdle parked = some 0
        ∧ (enlChoose parked).map (·.2.2) = some 5
        ∧ (parked.enl.parked.find? fun x => x.slot = 5) = some enlFrame)
      ∧ [(leBytes 4 (2 ^ 19) ++ [6], false), (leBytes 4 (2 ^ 19) ++ [5], true)].all (fun x =>
        let s := enlFed x.1
        match enlChoose s with
        | some (c, p, n) =>
          let r := enlPop s c p n
          decide (n = 5 ∧ enlIdle s = some 0 ∧ (s.enl.parked.find? fun x => x.slot = n) = none ∧ r.2.1 = HS.ok
            ∧ inputOk r.1 n r.2.2.data = x.2) && unheld r.1 && unheld (startFrame r.1 0 n c r.2.2.data)
        | none => false) = true
      ∧ (let s := enlSt (some enlFrame) [batch]
        nth s.enl.eng 0 none = some enlFrame ∧ enlFrame.roi = none ∧ enlFrame.todo = [0] ∧ accepts s P.esl = true
          ∧ groupHeld s (roiOf enlFrame.list 0).group = false
          ∧ (laneRequest (wake (wake s 28) 29) (roiOf enlFrame.list 0).group enlFrame.slot).2 = .inr (3, [0]))
      ∧ (let s := enlSt (some enlFrame) []
        accepts s P.esl = true ∧ groupHeld s (roiOf enlFrame.list 0).group = false
          ∧ (match (laneRequest (wake (wake s 28) 29) (roiOf enlFrame.list 0).group enlFrame.slot).2 with | .inl _ => true | .inr _ => false) = true)
      ∧ (let s := enlSt (some enlTiling) [batch]
        nth s.enl.eng 0 none = some enlTiling ∧ (s.esl.batches.find? fun b => some b.id = enlTiling.roi.map (·.batch)) = some batch
          ∧ 0 < (roiOf enlTiling.list 0).dh ∧ unheld (enlTileEnd 0 1 0 (withHost s [])) = true)
      ∧ (let s := enlSt (some enlDone) [batch]
        nth s.enl.eng 0 none = some enlDone ∧ enlDone.todo = [] ∧ (s.esl.batches.find? fun b => some b.id = enlDone.roi.map (·.batch)) = some batch
          ∧ (roiOf enlDone.list 0).dh ≤ 0 ∧ unheld (enlSampleComplete 0 (withHost s [])) = true)
      ∧ fillingBatch (enlSt none [batch]) 0 = some batch
      ∧ (((enlSt none [full]).esl.batches.any fun b => b.group = 0 && b.written) = false ∧ ((enlSt none [full]).esl.batches.find? fun b => b.group = 0 && b.ready) = some full ∧ unheld (eslBatchRelease 0 (withHost (enlSt none [full]) [])) = true)
      ∧ ((enlSt none [{ full with written := true }]).esl.batches.find? fun b => b.group = 0 && b.written) = some { full with written := true }
      ∧ (let s := { enlOn with esl := { enlOn.esl with due := [4] } }
        s.esl.due = 4 :: [] ∧ accepts s P.esl = true ∧ groupHeld s (rf s R.ESL_AUDIO_CFG 5 0) = false ∧ unheld (eslAudioWindow (withHost s [])) = true) := by decide +kernel

/-! Cores and the dispatcher. -/

def aJob : Job := { model := 3, variant := 0, cls := 1, record := List.replicate 64 0, addr := 0x200000, deadline := 5, selected := 0, epoch := 1 }
def aStart (u : Bool) : JobStart := { core := 0, urgent := u, entry := 0x1000, xs := [1, 2, 3, 4, 5, 6], job := aJob }
def starting (u : Bool) (active : Nat) : State := updCore (updDpt up fun d => { d with starts := [aStart u] }) 0 fun k => { k with active := active }
def atPoint (f : Core → Core) : State := updCore (atBundle (2 ^ 959) id) 0 f
def item : Item := { regs := [31], cause := 1, res := some (0, [77], false) }
def load : MoverOp :=
  { urgent := false, op := 1, src := 0x200000, dst := 0, dstKind := 1, half := 0, arr := 0, boff := 0, pattern := 0, len := 64, grain := false,
    bulk := false, pieces := [(0, 64)], seq := 0 }
def pieceOf (s : State) (m : MoverOp) : State × Nat × List Byte × List (Nat × Nat) :=
  let p := withHost s []
  pieceData (if placeOf m.src = .coreSram 0 then p else (injFire p 8 fun a => a % 8 = 0).1) 0 m 0 64
def coreWith (f : Core → Core) : State := updCore up 0 fun k => f { k with active := 1 }
def looping (count : Nat) : State :=
  coreWith fun k => { k with normal := { k.normal with pc := 0x200, atEnd := true, loops := updAt k.normal.loops 1 fun _ => { count := count, active := true, start := 0x80, stop := 0x200 } } }

theorem witness_CoreEvents :
    (0 < 8 ∧ 0 < up.cores.length ∧ islandRuns up 19 = true)
      ∧ (let s := { starting true 0 with isl := State.reset.isl }
        islandRuns s 19 = false ∧ (s.dpt.starts.find? fun j => j.core = 0 && j.urgent = true) = some (aStart true)
          ∧ abandonTo s (bankMessage true) 19 = none
          ∧ unheld (settleParts (missAborted (dropAborts (updDpt (withHost s []) fun d => { d with starts := d.starts.erase (aStart true) }) 0 true) 0 aJob)) = true)
      ∧ [true, false].all (fun u => [0, 1].all fun a => decide ((((starting u a).dpt.starts.find? fun j => j.core = 0 && j.urgent = u) = some (aStart u))
          ∧ (coreOf (starting u a) 0).active = a ∧ abandonTo (starting u a) (bankMessage u) 19 = none)) = true
      ∧ (let k := coreOf (atPoint id) 0
        k.active = 1 ∧ ppMark (nextBundle (atPoint id) 0 false) = true ∧ inOwn 0 k.normal.pc 128 = true ∧ k.normal.decoded = 0 ∧ k.normal.ended = none ∧ k.normal.atEnd = false ∧ k.cmds.all (·.urgent) = true
          ∧ k.waitUrgent = none ∧ (atPoint id).eccErr = [] ∧ (atPoint id).dram.eccFlips = [] ∧ fetchBad (atPoint id) 0 false = false)
      ∧ (let s := atPoint fun k => { k with waitUrgent := some (aStart true) }
        (coreOf s 0).waitUrgent = some (aStart true) ∧ (aStart true).urgent = true ∧ ppMark (nextBundle s 0 false) = true
          ∧ fetchBad s 0 false = false)
      ∧ ((coreOf (atPoint fun k => { k with cmds := [{ urgent := false, op := 1 }] }) 0).cmds.all (·.urgent) = false)
      ∧ (let s := setReg (coreWith id) (R.ASH_MODE 0) 16
        (coreOf s 0).active = 1 ∧ rb s (R.ASH_MODE 0) 4 = true ∧ rf s (R.ASH_PP 0) 15 0 < rf s (R.ASH_PP 0) 15 0 + 1 ∧ (coreOf s 0).late = false)
      ∧ (let s := coreWith fun k => { k with normal := { k.normal with items := [item], job := some aJob, x := List.replicate 32 0 } }
        (bankNow s 0 false).items[0]? = some item ∧ item.res = some (0, [77], false) ∧ (bankNow s 0 false).job.isSome = true
          ∧ (bankNow s 0 false).x.length = 32 ∧ item.regs = [31] ∧ (coreOf s 0).flips = [])
      ∧ (let s := coreWith fun k => { k with stalled := true }
        bankAtWork s 0 = some false ∧ (coreOf s 0).stalled = true
          ∧ unheld (takeException (withHost s []) 0 false { cause := EX.stallTimeout, slot := 7 }) = true) := by decide +kernel

theorem witness_CoreEvents_ends :
    (let s := coreWith fun k => { k with normal := { k.normal with ended := some 3, job := some aJob } }
     bankAtWork s 0 = some false ∧ (bankNow s 0 false).ended = some 3 ∧ (bankNow s 0 false).job = some aJob
          ∧ (bankNow s 0 false).endFailed = none ∧ (∀ m ∈ (coreOf s 0).movers.flatMap id, m.failed = none) ∧ answered (coreOf s 0) false = true
          ∧ unheld (jobEnded (updCore (reportCounts (withHost s []) 0 false) 0 fun k => leaveBank k false) 0 aJob 3 0 (bankNow s 0 false).mismatch) = true)
      ∧ (let s := updDpt (coreWith fun k => { k with normal := { k.normal with job := some aJob } }) fun d => { d with aborts := [(0, false)] }
        (0, false) ∈ s.dpt.aborts ∧ abandonTo s dptVia 19 = none ∧ (bankNow s 0 false).job ≠ none ∧ (coreOf s 0).active = 1 ∧ (coreOf s 0).held = false ∧ (coreOf s 0).waitUrgent = none
          ∧ (coreOf s 0).waitNormal = none)
      ∧ [load, { load with op := 2, dst := 0x3000, dstKind := 0 }, { load with op := 2, dst := 0x800000000000, dstKind := 0 },
          { load with src := 0x800000000000 }, { load with op := 4 }].all (fun m =>
          let s := coreWith fun k => { k with movers := [[m], []] }
          let r := pieceOf s m
          let w := coreWrite r.1 0 (moverVia s 0 m) m.dst r.2.2.1 r.2.2.2
          decide (((nth (coreOf s 0).movers 0 []).find? fun m => m.failed.isNone) = some m ∧ fillWaits (coreOf s 0) m = false)
            && (decide (m.src = 0x800000000000) == decide (r.2.1 ≠ 0)) && unheld r.1
            && (m.dstKind == 1 || (decide (m.dst = 0x800000000000) == decide (w.2 ≠ MS.ok)) && unheld w.1)) = true
      ∧ (let s := updDpt up fun d => { d with aborts := [(0, true)] }
        (0, true) ∈ s.dpt.aborts ∧ (bankNow s 0 true).job = none)
      ∧ (let s := coreWith fun k => { k with cmds := [{ urgent := false, op := 1 }] }
        (coreOf s 0).cmds = [{ urgent := false, op := 1 }] ∧ arraysHeld s 0 = false)
      ∧ (let s := updCore (atBundle (sSlot 1 3 1 2 0 0) k12) 0 fun k =>
          { k with stalled := true, cmds := [{ urgent := false, op := 1 }], normal := { k.normal with items := [{ item with regs := [1] }] } }
        arraysHeld s 0 = true)
      ∧ (let s := coreWith fun k => { k with movers := [[load], []], cmds := [{ urgent := false, op := 1, wh := 0, wl := true }] }
        ((nth (coreOf s 0).movers 0 []).find? fun m => m.failed.isNone) = some load ∧ load.pieces = [(0, 64)] ∧ halfHeld (coreOf s 0) load = true)
      ∧ [1, 2].all (fun c =>
          let s := looping c
          let l : Loop := { count := c, active := true, start := 0x80, stop := 0x200 }
          decide (bankAtWork s 0 = some false ∧ (bankNow s 0 false).ended = none ∧ (bankNow s 0 false).atEnd = true
            ∧ innerLoop (bankNow s 0 false).loops (bankNow s 0 false).pc = some (1, l) ∧ 1 < (bankNow s 0 false).loops.length
            ∧ innerLoop ((bankNow s 0 false).loops.set 1 { l with count := 0, active := false }) (bankNow s 0 false).pc = none)) = true := by decide +kernel

def aModel : Model := { st := 1, cls := 1, part := 0, cores := 1, inQ := 0, outQ := 1, fallback := 0xFFFF, deadline := 100 }
def dispatching (m : Model) (fb : List Job) : State :=
  let s := en (en (en (en up P.dpt) (P.ash 0)) P.hod) P.qry
  let s := wb (wb (wb (wb s (R.DPT_PART_CFG 0) 12 true) (R.DPT_PART_CTRL 0) 0 true) (R.DPT_PART_CTRL 0) 8 true) (R.ASH_MODE 0) 3 true
  { s with
    dpt := { s.dpt with models := [(3, m), (4, aModel)], fallbacks := fb }
    plb := { s.plb with
      opened := true, partLeft := List.replicate 8 1000000000, grpLeft := List.replicate 12 1000000000, partAllow := List.replicate 8 1000000000,
      grpAllow := List.replicate 12 1000000000 } }
def running (m : Model) : State := updCore (dispatching m []) 0 fun k => { k with active := 1, normal := { k.normal with job := some aJob } }

/-- Queue 20, urgent for class 0, holds one record of zeros for model 3. -/
def queued (cls : Nat) : State :=
  putCtx (dispatching { aModel with cls := cls, inQ := 20 } []) 20 (putBit (context 1 2 0 1 1 true) 60 (cls = 0))

theorem witness_DispatchAndDeadlines :
    (let s := dispatching aModel [aJob]
     s.dpt.state.length = 8 ∧ accepts s P.dpt = true ∧ bankFree s 0 false = true ∧ fallbackFor s 0 1 = some aJob ∧ (modelOf s aJob.model).st ≠ 2)
      ∧ (let s := dispatching { aModel with st := 2 } [aJob]
        bankFree s 0 false = true ∧ fallbackFor s 0 1 = some aJob ∧ (modelOf s aJob.model).st = 2
          ∧ unheld (settleParts (miss (withHost s []) aJob.model (.fallback aJob) .alone)) = true)
      ∧ (∀ c, c < 4 → 1 ≤ c → fallbackFor (dispatching aModel []) 0 c = none ∧ candidates (dispatching aModel []) 0 c = [])
      ∧ (let s := queued 2
        let p := updDpt (withHost s []) fun d => { d with last := SMap.set d.last (0 * 4 + 2) 3 }
        accepts s P.dpt = true ∧ bankFree s 0 false = true ∧ (∀ k, k < 2 → 1 ≤ k → fallbackFor s 0 k = none ∧ candidates s 0 k = [])
          ∧ fallbackFor s 0 2 = none ∧ dispatchNormal.nextRound (candidates s 0 2) (s.dpt.last.get (0 * 4 + 2)) = some 3 ∧ (modelOf s 3).st ≠ 2
          ∧ (popJob p 3 .alone).2.isSome = true ∧ unheld (popJob p 3 .alone).1 = true)
      ∧ (let s := queued 0
        accepts s P.dpt = true ∧ urgentFallback s = none
          ∧ ((presented s).find? fun e => (modelOf s e.2).st = 2 || (urgentCore s (modelOf s e.2)).isSome).map (·.2) = some 3
          ∧ (modelOf s 3).st ≠ 2 ∧ (urgentCore s (modelOf s 3)).isSome = true ∧ (popJob (withHost s []) 3 .alone).2.isSome = true
          ∧ unheld (popJob (withHost s []) 3 .alone).1 = true)
      ∧ (let s := dispatching { aModel with cls := 0 } [{ aJob with cls := 0 }]
        accepts s P.dpt = true ∧ urgentFallback s = some { aJob with cls := 0 } ∧ (modelOf s 3).st ≠ 2)
      ∧ (let s := dispatching { aModel with cls := 0, st := 2 } [{ aJob with cls := 0 }]
        urgentFallback s = some { aJob with cls := 0 } ∧ (modelOf s 3).st = 2
          ∧ unheld (settleParts (miss (withHost s []) 3 (.fallback { aJob with cls := 0 }) .alone)) = true) := by decide +kernel

theorem witness_DispatchAndDeadlines_deadlines :
    armed (dispatching aModel []) 255 = none
      ∧ (armed (running aModel) 3 = some (.running 0 false aJob) ∧ actionOf (running aModel) aJob (modelOf (running aModel) 3).action = 0)
      ∧ (let s := running { aModel with action := 1, fallback := 4 }
        armed s 3 = some (.running 0 false aJob) ∧ actionOf s aJob (modelOf s 3).action = 1)
      ∧ (let s := dram0 fun k => { k with winReq := true }
        0 < s.dram.sub.length ∧ (subch s 0).winReq = true ∧ (subch s 0).alert = false
          ∧ s.dpt.models.all (fun e => (runningJobs s e.1).all fun j => decide (j.2.2.cls ≠ 1)) = true)
      ∧ (let s := wb (dispatching aModel []) (R.DPT_PART_CTRL 0) 1 true
        rb s (R.DPT_PART_CFG 0) 12 = true ∧ rb s (R.DPT_PART_CTRL 0) 0 = true ∧ quiesceAsked s 0 = true ∧ runningOf s 0 = 0) := by decide +kernel

/-! Plumb, Keystone, Safelight. -/

def plbOn : State := en up P.plb
def aProgram : Program :=
  { lo := List.replicate 12 0, hi := List.replicate 12 1, d0 := List.replicate 12 0, dk := List.replicate 12 0, c := List.replicate 12 0, pb := 0,
    tc := 0, tm := 0, cap := 0, tLimit := 0 }
def solving : State := { plbOn with plb := { plbOn.plb with opened := true, solving := some 7, prog := some aProgram } }

theorem witness_SensorsAndPlans :
    (23 < 24 ∧ plbOn.flt.heat = none ∧ (-320 : Int) ≤ -320 ∧ (1200 : Int) ≤ 1200 ∧ (968 : Int) ≤ 968 ∧ rb plbOn R.PLB_SENSOR_FAIL 23 = false)
      ∧ (rb (setReg plbOn R.PLB_STATUS 0x100) R.PLB_STATUS 9 = false ∧ hottest (setReg plbOn R.PLB_STATUS 0x100) (List.range 24) ≤ 928)
      ∧ rb (setReg plbOn R.PLB_STATUS 0x300) R.PLB_STATUS 9 = true
      ∧ (solving.plb.opened = true ∧ 1999 < 2000 ∧ solving.plb.solving = some 7 ∧ solving.plb.prog = some aProgram) := by decide +kernel

def keyOn (f : Keystone → Keystone) : State :=
  let s := en (en up P.key) P.plb
  { s with plb := { s.plb with grpLeft := List.replicate 12 1000 }, key := f s.key }
def solveCmd : KeyCmd := { id := 1, ctx := 3, issuer := .hw }
def releaseCmd : KeyCmd := { id := 1, ctx := 0, issuer := .core 0, block := [2] ++ List.replicate 63 0 }
def setupCmd : KeyCmd := { id := 1, ctx := 0, issuer := .core 0, st := 1 }
def bare : KeyCtx := { factored := true, n := 1, m := 0, p := [], sigma := 0, order := [0], rows := [[]] }

/-- A SOLVE of a holder whose block lies at 0x1000 of core 0. -/
def holderCmd (st : Nat) : KeyCmd := { id := 1, ctx := 0, issuer := .core 0, block := [1] ++ List.replicate 63 0, st := st }

theorem witness_KeystoneSegments :
    (let s := keyOn fun k => { k with held := [solveCmd] }
     s.key.cur = none ∧ accepts s P.key = true ∧ keyChoose s = some solveCmd ∧ solveCmd.st = 0 ∧ solveCmd.issuer = .hw)
      ∧ (let s := keyOn fun k => { k with held := [holderCmd 0] }
        keyChoose s = some (holderCmd 0) ∧ (holderCmd 0).issuer ≠ .hw ∧ field (holderCmd 0).block 0 1 ≠ 2
          ∧ unheld (keyStart (keyRun (wake (withHost s []) 30) (holderCmd 0)) (holderCmd 0)) = true)
      ∧ (let s := keyOn fun k => { k with held := [releaseCmd] }
        s.key.cur = none ∧ keyChoose s = some releaseCmd ∧ releaseCmd.issuer ≠ .hw ∧ field releaseCmd.block 0 1 = 2 ∧ releaseCmd.bad = false
          ∧ keyBlockOk releaseCmd.block = true ∧ keyOwner s releaseCmd = true ∧ releaseCmd.ctx < s.key.ctx.length)
      ∧ (let s := keyOn fun k => { k with cur := some setupCmd }
        islandRuns s 30 = true ∧ s.key.cur = some setupCmd ∧ setupCmd.stop = false ∧ setupCmd.issuer ≠ .hw ∧ (factorise (keyCtx s 0)).isSome = true
          ∧ setupCmd.ctx < s.key.ctx.length)
      ∧ (let s := keyOn fun k => { k with cur := some setupCmd, ctx := updAt k.ctx 0 fun _ => bare }
        islandRuns s 30 = true ∧ factorise (keyCtx s 0) = none ∧ unheld (keySetup 1 0 0 (withHost s [])) = true)
      ∧ (let s := keyOn fun k => { k with cur := some { solveCmd with st := 1 } }
        s.key.cur = some { solveCmd with st := 1 } ∧ solveCmd.stop = false ∧ solveCmd.ctx < s.key.ctx.length)
      ∧ (let s := keyOn fun k => { k with cur := some { solveCmd with st := 2 } }
        islandRuns s 30 = true ∧ s.key.cur = some { solveCmd with st := 2 } ∧ s.key.held = [])
      ∧ (let s := keyOn fun k => { k with cur := some (holderCmd 2) }
        s.key.cur = some (holderCmd 2) ∧ (holderCmd 2).stop = false ∧ unheld (keySegmentEnd 1 0 0 (withHost s [])) = true) := by decide +kernel

def sflCmd (op : Nat) (started : Bool) : SflCmd :=
  { id := 1, issuer := .pf, part := 8, cls := 2, started := started, block := [BitVec.ofNat 8 op] ++ List.replicate 127 0 }
def sflOn (c : SflCmd) : State :=
  let s := en up P.sfl
  setBytes { s with plb := { s.plb with grpLeft := List.replicate 12 1000 }, sfl := { s.sfl with held := [c] } } 0 (leBytes 8 (2 ^ 30 + 1) ++ leBytes 8 (2 ^ 30))

/-- Every opcode: a command that passes its checks, one that does not, and one of another opcode. A command has an operation to come. -/
theorem witness_SafelightOperations :
    [0x01, 0x02, 0x10, 0x11, 0x12, 0x13, 0x14, 0x18, 0x19, 0x1A, 0x1B, 0x20, 0x21, 0x30].all (fun op =>
      let c := sflCmd op true
      let d := sflCmd op false
      let p := wake (withHost (sflOn c) []) 31
      let r := sflOperation (sflRun p c) c
      (sflInstr op []).isSome && accepts (sflOn c) P.sfl
        && decide ((sflOn c).sfl.cur = none ∧ sflChoose (sflOn c) = some c ∧ c.bad = 0 ∧ c.op = op ∧ sflChecks p c = none ∧ r.stop = none) && unheld r.s
        && decide (sflChoose (sflOn d) = some d) && (sflChecks (wake (withHost (sflOn d) []) 31) d).isSome && decide ((sflCmd 0x31 true).op ≠ op)) = true
    ∧ (let c := sflCmd 0x31 true
      sflChoose (sflOn c) = some c ∧ c.op = 0x31 ∧ sflChecks (wake (withHost (sflOn c) []) 31) c = none ∧ c.vslot < (sflOn c).sfl.vault.length ∧ islandRuns (sflOn c) 31 = true
        ∧ c.poison = none ∧ c.stop = false ∧ c.ops < sflTotal (sflOn c) c) := by decide +kernel

/-- The least and the greatest value of the range, for the moduli 3 and 2⁶⁰ − 1. -/
theorem witness_BarrettReductionIsRemainder :
    0 < 3 ∧ 0 < 2 ^ (2 * bitLen 3 + 4) ∧ 2 ^ (2 * bitLen (2 ^ 60 - 1) + 4) - 1 < 2 ^ (2 * bitLen (2 ^ 60 - 1) + 4) := by decide +kernel

/-! Audio. -/

def audOn : State := wb (en (en (en up P.aud) P.esl) P.hod) R.ESL_AUDIO_CFG 6 true
def micOn : State := wb audOn R.AUD_MIC_CFG 0 true
def alertQueue : State :=
  putCtx (wf audOn R.AUD_ALERT_CFG 15 0 9) 9 (putBits (cput (cput csiRing 4 20 19 1) 4 18 17 0) 127 96 1)
def ampAt (st tries : Nat) : State := { audOn with aud := { audOn.aud with amps := [{}, { st := st, tries := tries }] } }

theorem witness_AudioPath :
    (accepts micOn P.aud = true ∧ rb micOn R.AUD_MIC_CFG 0 = true ∧ rb micOn R.ESL_AUDIO_CFG 6 = true
        ∧ unheld (micBlock [[1, 2], [3, 4]] 7 (withHost micOn [])) = true)
      ∧ (let s := { audOn with aud := { audOn.aud with handoff := [(32, 7, MS.ok)] } }
        s.aud.handoff = (32, 7, MS.ok) :: [] ∧ writeStops s (historyAddr s s.esl.blocks 32) 32 = false)
      ∧ (rb (wb audOn R.AUD_MIC_CFG 31 true) R.AUD_MIC_CFG (16 + 15) = true ∧ rb (wb audOn R.AUD_MIC_CFG 31 true) R.AUD_MIC_STATUS 15 = false)
      ∧ (rb (wb audOn R.AUD_TDM_IN_STATUS 0 true) R.AUD_TDM_IN_STATUS 0 = true ∧ rb (wb audOn R.AUD_TDM_IN_STATUS 0 false) R.AUD_TDM_IN_STATUS 0 = false)
      ∧ (accepts alertQueue P.aud = true ∧ rf alertQueue R.AUD_ALERT_CFG 15 0 ≠ 0xFFFF
        ∧ (let r := popFrom (wake (withHost alertQueue []) 38) (engineVia 38) 1 (rf alertQueue R.AUD_ALERT_CFG 15 0) .alone
          r.2.1 = HS.ok ∧ unheld r.1 = true))
      ∧ ({ level := 2, tone := 1, can := false, hold := true } : Alert).hold = true
      ∧ (islandRuns audOn 38 = true ∧ islandRuns up 38 = true ∧ accepts up P.aud = false)
      ∧ ((ampAt 0 0).aud.amps.length = 2 ∧ (ampOf (ampAt 0 0) 1).st = 0 ∧ 9 % 8 ≠ 0 ∧ 8 % 8 = 0 ∧ (ampOf (ampAt 1 7) 1).st = 1 ∧ (ampOf (ampAt 2 0) 1).st = 2)
      ∧ ampOk audOn 1 = true := by decide +kernel

/-! Seam, Contact Sheet, FLT. -/

def seamAt (n : Nat) : State := wf (en up P.seam) R.SEAM_STATE 1 0 n
/-- The dispatcher's page is named, and a partition is enabled that nothing declares. -/
def seamBad : State := wb (wb (seamAt 1) R.SEAM_MASK_LO P.dpt true) (R.DPT_PART_CTRL 2) 0 true
def anOccurrence : Occurrence := { code := 0x1234, origin := 3, detail := 1, params := [1, 2, 3, 4] }
def anAccepted (written : Bool) : Accepted := { occ := anOccurrence, ts := 77, triggers := [2, 3], written := written }
def cshAt (f : Csh → Csh) : State := { seamAt 0 with csh := f (seamAt 0).csh }
/-- The external ring lies in DRAM, or in no region of the layout. -/
def extCopying (layout : List Nat) : State :=
  let s := wb { setReg (cshAt id) R.CSH_EXT_SEQ 8 with csh := { (cshAt id).csh with seq := 9 } } R.CSH_CTRL 0 true
  let s := setReg (setReg (setReg s R.CSH_EXT_BASE_HI 0x10) R.CSH_EXT_SIZE 1) R.CSH_EXT_BASE_LO 0
  { s with dram := { s.dram with layouts := [layout], sub := updAt s.dram.sub 0 fun c => { c with st := .run } } }
def stalledSentinel : State :=
  setReg (setReg { seamAt 0 with toFlt := [.stall 5] } (R.CSI_VC_CFG 0 0) (5 + 64)) (R.CSI_VC_CTRL 0 0) 1

theorem witness_SeamRecorderAndFlt :
    (seamState (seamAt 1) = 1 ∧ seamFailure (seamAt 1) = none)
      ∧ (seamState seamBad = 1 ∧ (seamFailure seamBad).isSome = true)
      ∧ (seamState (seamAt 2) = 2 ∧ (votes (seamMembers (seamAt 2)) (seamAt 2)).2 = [] ∧ mayCommit (seamAt 2) = false ∧ seamState (seamAt 2) ≠ 0)
      ∧ (mayCommit (seamAt 3) = true ∧ seamState (seamAt 0) = 0)
      ∧ (let s := { cshAt id with toCsh := List.replicate 65 anOccurrence }
        s.boot.held = false ∧ cshHeld s + 64 ≤ 64)
      ∧ (cshAt fun c => { c with arrived := [anOccurrence] }).csh.arrived = anOccurrence :: []
      ∧ (let s := cshAt fun c => { c with fifo := [anAccepted false], seq := 2 ^ 32 - 1, lost := true }
        s.csh.fifo = anAccepted false :: [] ∧ (cshEntry s (cshSlot s.csh.seq)).length = 32)
      ∧ ((anAccepted true).triggers = 2 :: [3] ∧ (anAccepted true).written = true)
      ∧ rb (cshAt id) R.CSH_CTRL 0 = false
      ∧ [1, 0].all (fun mask =>
        let s := extCopying (List.replicate 32 mask)
        let n := (rd s R.CSH_EXT_SEQ).toNat
        let w := copyWrites (bump (withHost s []) R.CSH_EXT_SKIPPED 31 0 0) ((extRange s).1 + 32 * (n % (2048 * rf s R.CSH_EXT_SIZE 9 0)))
          (cshEntry s (cshSlot n)) (s.csh.bad.contains (cshSlot n / 2))
        rb s R.CSH_CTRL 0 && decide (s.csh.seq = (n + 1) % 2 ^ 32) && unheld w.1 && (decide (mask = 1) == decide (w.2 = MS.ok))) = true
      ∧ (stalledSentinel.toFlt = .stall 5 :: [] ∧ slotSentinel stalledSentinel 5 = true)
      ∧ rf (wf up R.FLT_INJ_STATUS 1 0 1) R.FLT_INJ_STATUS 1 0 = 1 := by decide +kernel

/-! Boot. -/

def phaseAt (n : Nat) : State := wf up R.BOOT_PHASE 3 0 n
def resetHeld : State := { State.reset with boot := { State.reset.boot with powered := true, held := true, cause := 2 } }
def busy (op : Nat) : State := { up with boot := { up.boot with op := some (op, 0x20000), otpOp := some (op % 4, 2), dirOp := true } }

theorem witness_BootSequence :
    (State.reset.boot.powered = false ∧ up.boot.powered = true ∧ up.boot.held = false ∧ 10 ≤ 10 ∧ 1620 ≤ 1620 ∧ 1709 < 1710)
      ∧ (resetHeld.boot.powered = true ∧ resetHeld.boot.held = true ∧ resetHeld.boot.cause < 32 ∧ resetHeld.isl.length = 39)
      ∧ [1, 2, 3, 4, 5, 6, 7].all (fun n => decide ((phaseAt n).boot.held = false ∧ phase (phaseAt n) = n)) = true
      ∧ (phaseAt 1).boot.otp.lifecycle ≠ 0
      ∧ nextEpoch (wf (phaseAt 7) R.SEAM_EPOCH_NOW 15 0 1) = 2
      ∧ [1, 2, 3].all (fun n => decide ((busy n).boot.op = some (n, 0x20000) ∧ (busy n).boot.otpOp = some (n, 2) ∧ (busy n).boot.dirOp = true)) = true := by
  decide +kernel

/-! The module and its ports. -/

def modAt (f : Module → Module) : State := { up with jione := f { up.jione with rails := true, st := 3, wake := true } }
def modOff : State := { State.reset with jione := { State.reset.jione with wake := true, st := 1 } }

theorem witness_ModuleSupervision :
    ((-16000 : Int) ≤ -16000 ∧ (18000 : Int) ≤ 18000)
      ∧ (modOn (modAt fun j => { j with mv := 8000 }) = true ∧ vinFull (modAt fun j => { j with mv := 8000 }) = false)
      ∧ mayStart modOff = true
      ∧ ((modAt id).jione.st ≠ 0 ∧ (5 : W32).toNat ≠ (modAt id).jione.beat)
      ∧ (fypOn (modAt fun j => { j with linked := true }) = true ∧ (modAt fun j => { j with linked := true }).pci.speed = 0)
      ∧ (fypOn (modAt id) = true ∧ (modAt id).jione.mismatches = 0 ∧ 1 ≤ (modAt fun j => { j with mismatches := 1 }).jione.mismatches)
      ∧ (modOn (modAt id) = true ∧ 2 ≤ (modAt fun j => { j with trips := 2 }).jione.trips)
      ∧ (let s := modAt fun j => { j with tripWait := true, cold := 679 }
        s.jione.tripWait = true ∧ s.jione.stay = false ∧ s.jione.cold < 680)
      ∧ (dieUp (modAt id) = true ∧ (modAt id).jione.resetting = false)
      ∧ (let s := wb (wf (modAt id) R.BOOT_PHASE 3 0 7) R.FLT_SAFE_STATUS 9 true
        dieUp s = true ∧ phase s = 7 ∧ rb s R.FLT_SAFE_STATUS 9 = true ∧ s.jione.fabRestarts < 2)
      ∧ dieUp modOff = false
      ∧ (let s := wf (modAt id) R.BOOT_PHASE 3 0 6
        dieUp s = true ∧ fypOn s = true ∧ phase s = 6)
      ∧ (let s := wb (modAt id) (R.ASH_CLASS 7) 5 true
        dieUp s = true ∧ fypOn s = true ∧ rb s (R.ASH_CLASS 7) 5 = true)
      ∧ (ledgerOpen (modAt id) = true ∧ ∀ n, n < 8 → rb (modAt id) (R.ASH_CLASS n) 5 = false) := by decide +kernel

def vehicleFrame : List Byte := [1, 0, 0, 0, 0, 0, 5] ++ leBytes 1 (crc8 0x1D 0xFF [1, 0, 0, 0, 0, 0, 5])

theorem witness_MailboxAndFrames :
    ((modAt id).jione.st ≠ 0 ∧ 0xA55B % 65536 ≠ 0xA55A ∧ 0xA55A % 65536 = 0xA55A)
      ∧ ((modAt fun j => { j with moving := false }).jione.moving = false ∧ mayStart (shutDown (modAt fun j => { j with moving := false }) .command) = true
        ∧ (modAt fun j => { j with moving := true }).jione.moving = true)
      ∧ (dieUp (wf (modAt id) R.BOOT_PHASE 3 0 8) = true ∧ phase (wf (modAt id) R.BOOT_PHASE 3 0 8) = 8)
      ∧ ([0xFF, 0, 0, 1] : List Byte).length = 4
      ∧ (fypOn (modAt id) = true ∧ (modAt id).jione.resetting = false ∧ (modAt id).jione.canEn = true ∧ (modAt id).boot.powered = true)
      ∧ (persisting (wf (modAt id) R.BOOT_PHASE 3 0 8) ≠ 0 ∧ persisting modOff = 0 ∧ modOff.jione.st ≠ 0)
      ∧ (vehicleFrame.length = 8 ∧ crc8 0x1D 0xFF (vehicleFrame.take 7) = field vehicleFrame 7 1 ∧ (modAt id).jione.heard ≠ some (field vehicleFrame 6 1 % 16)) := by
  decide +kernel

theorem witness_PortsAndHoldover :
    (up.boot.powered = true ∧ State.reset.boot.powered = false ∧ dieUp modOff = false)
      ∧ (dieUp (modAt id) = true ∧ 0x100000 ≤ 0x100000 ∧ 0x1007FB < 0x1007FC ∧ ([1, 2, 3, 4] : List Byte).length = 4)
      ∧ (0x3FFFC < 0x40000 ∧ unheld (pageWrite (withHost (modAt id) []) .fyp R.PLB_T_COOL 4 77).1 = true)
      ∧ (let s := modAt id
        ledgerOpen s = true ∧ dieUp s = true)
      ∧ ({ up with tb := { up.tb with state := 1 } } : State).tb.state = 1
      ∧ up.tb.state ≠ 1 := by decide +kernel

/-! Values that the spec works out, and values computed by hand. -/

/-- The next state of the command, or the state before where there is none. -/
def after (c : Instr) (s : State) : State := match exec c s with | .next t => t | _ => s

/-- 02, Worked examples: a refused write of HOD_CTRL and its report; the second one sets OVERFLOW. -/
theorem test_refused_write_is_captured :
    (let t := after (.registerWrite .pf (P.hod * 0x1000 + 0x10) 4 0x100) up
     rd t (hdr P.hod 0x30) = 0x00000AF0 ∧ rd t (hdr P.hod 0x34) = 0x00000100 ∧ rd t (hdr P.hod 0x38) = 0x40009010 ∧ rd t (hdr P.hod 0x3C) = 0x80000000)
      ∧ (let t := after (.registerWrite .pf (P.hod * 0x1000 + 0x10) 4 0x100) (after (.registerWrite .pf (P.hod * 0x1000 + 0x10) 4 0x100) up)
        rd t (hdr P.hod 0x30) = 0x00010AF0) := by decide +kernel

/-- 06, Worked examples: regions 0 to 15 with mask 0x0F, 16 to 31 with 0xF0: 0x0010_4000_1600 goes to subchannel 3 at 0x1000_0400, row 0x1000, bank
group 2. -/
theorem test_dram_decoding :
    (let s := { up with dram := { up.dram with layouts := [List.replicate 16 0x0F ++ List.replicate 16 0xF0] } }
     dramTarget s 0x001040001600 = some (3, 0x10000400)) ∧ rowOf 0x10000400 = 0x1000 := by decide +kernel

/-- 08, Worked examples: pool 3 of 1,024 buffers at 0x0C00_0000; buffer 6 of generation 3 is allocated with handle 0x0020_0033, freed, and a second free is a
DOUBLE_FREE. -/
theorem test_quarry_allocation :
    (let s := setReg (setReg (en up P.qry) (R.QRY_POOL_CFG 3) 0x80000400) (R.QRY_POOL_BASE_LO 3) 0x0C000000
     let b (i g : Nat) : Nat × Buffer := (3 * 65536 + i, { gen := g, owner := 53, used := decide (i < 6) })
     let s := { s with qry := { s.qry with bufs := [b 0 1, b 1 1, b 2 1, b 3 1, b 4 1, b 5 1, b 6 3] } }
     let t := after (.allocate 53 12000 []) s
     let u := after (.free .pf 53 0x00200033 []) t
     let v := after (.free (.core 3) 39 0x00200033 []) u
     t.qry.handle = 0x00200033 ∧ t.qry.addr = 0x0C018000 ∧ t.qry.status = QS.ok ∧ u.qry.status = QS.ok
       ∧ v.qry.status = QS.doubleFree ∧ rd v (hdr P.qry 0x30) = 0x13000B01 ∧ rd v (hdr P.qry 0x34) = 0x00200033) := by decide +kernel

/-- 15, Worked examples: one granule, encoded and decoded. -/
theorem test_grain_granule :
    (let x (i : Nat) : Int := if i = 10 then 90 else if i = 37 then -100 else if i = 52 then 45 else -20 + (i % 15 : Nat)
     let e := grainEncode ((List.range 64).map fun i => BitVec.ofInt 8 (x i))
     let d := (grainDecode e).1
     ofLe (e.take 8) = 0x002DD27255A2B1EC
       ∧ [0, 3, 14, 10, 37].map (fun i => (nth d i 0).toInt) = [-19, -17, -5, 90, -100]) := by decide +kernel

/-- The integer instructions on 5 and −9, by hand. -/
theorem test_integer_values :
    ([(1, 2 ^ 64 - 4), (2, 14), (3, 5), (4, 2 ^ 64 - 9), (5, 2 ^ 64 - 14), (6, 5 * 2 ^ 55), (7, 0), (8, 0), (9, 0), (10, 1), (11, 2 ^ 64 - 9), (12, 5),
      (13, 5), (14, 2 ^ 64 - 9), (15, 2 ^ 64 - 4), (16, 14), (17, 2 ^ 64 - 45), (18, 2 ^ 64 - 1), (19, 4), (20, 0), (21, 0), (22, 5), (23, 5), (24, 61),
      (25, 2)] : List (Nat × Nat)).all (fun p =>
        match scalarRow 0 p.1 with
        | some i => decide (xr (bk (after i (atBundle (sSlot p.1 3 1 2 0 0) k12))) 3 = p.2)
        | none => false) = true := by decide +kernel

/-- The loads of the bytes 80 FF FF FF 00 00 00 00, by hand. -/
theorem test_load_extensions :
    ([(0x40, 2 ^ 64 - 128), (0x41, 128), (0x42, 2 ^ 64 - 128), (0x43, 0xFF80), (0x44, 2 ^ 64 - 128), (0x45, 0xFFFFFF80), (0x46, 0xFFFFFF80)] :
      List (Nat × Nat)).all (fun p =>
        xr (bk (after (.ldbLdbuLdhLdhuLdwLdwuLdd 0) (setBytes (atBundle (sSlot p.1 3 1 0 0 0) (regs [(1, 0x1000)])) 0x1000 (leBytes 8 0xFFFFFF80)))) 3
          = p.2) = true := by decide +kernel

/-- The word of IDCODE (26 R780). -/
theorem test_idcode : (after .idcode up).tap.shift = 0x1009656B := by decide +kernel

end

end Sys2Proof.Tests
end

section
/-! Register words: the fields of a register, what a write stores by its access codes (R23, R24), and the registers of the table. -/
namespace Sys2Proof.RegisterPages
open Sys2Proof Sys2Proof.Machine Sys2Proof.Laws Sys2Proof.Claims

/-! Fields and masks. -/

theorem testBit_bits (v hi lo i : Nat) : (bits v hi lo).testBit i = (decide (i < hi + 1 - lo) && v.testBit (lo + i)) := by
  unfold bits
  rw [Nat.testBit_mod_two_pow, Nat.testBit_shiftRight]

/-- A field reads what was written to it. -/
theorem rf_wf_self {s : State} {off hi lo x : Nat} (h : hi < 32) : rf (wf s off hi lo x) off hi lo = x % 2 ^ (hi + 1 - lo) := by
  refine Nat.eq_of_testBit_eq fun i => ?_
  unfold rf wf
  rw [rd_setReg_self, BitVec.toNat_ofNat, testBit_bits, Nat.testBit_mod_two_pow, testBit_putBits, Nat.testBit_mod_two_pow]
  by_cases hi' : i < hi + 1 - lo
  · have h1 : lo + i < 32 := by omega
    have h2 : lo ≤ lo + i ∧ lo + i ≤ hi := by omega
    simp [hi', h1, h2]
  · simp [hi']

/-- A field reads as before where another field of its register was written. -/
theorem rf_wf_disjoint {s : State} {off hi lo x hi' lo' : Nat} (h : hi' < 32) (d : hi' < lo ∨ hi < lo') :
    rf (wf s off hi lo x) off hi' lo' = rf s off hi' lo' := by
  refine Nat.eq_of_testBit_eq fun i => ?_
  unfold rf wf
  rw [rd_setReg_self, BitVec.toNat_ofNat, testBit_bits, testBit_bits, Nat.testBit_mod_two_pow, testBit_putBits]
  by_cases hi' : i < hi' + 1 - lo'
  · have h1 : lo' + i < 32 := by omega
    have h2 : ¬(lo ≤ lo' + i ∧ lo' + i ≤ hi) := by omega
    simp [hi', h1, h2]
  · simp [hi']

/-- The complement of a mask within 32 bits. -/
theorem testBit_complement {m i : Nat} (hm : m < 2 ^ 32) (hi : i < 32) : (2 ^ 32 - 1 - m).testBit i = !m.testBit i := by
  rw [Nat.sub_sub, Nat.add_comm, Nat.testBit_two_pow_sub_succ hm]
  simp [hi]

/-- `mix` takes the bits of its mask from the word. -/
theorem testBit_mix {v m w i : Nat} (hm : m < 2 ^ 32) (hi : i < 32) :
    (mix v m w).testBit i = if m.testBit i then w.testBit i else v.testBit i := by
  unfold mix
  rw [Nat.testBit_or, Nat.testBit_and, Nat.testBit_and, testBit_complement hm hi]
  cases m.testBit i <;> simp

/-- The fields of a register lie in its 32 bits. -/
def Fits (r : RegSpec) : Prop := ∀ f ∈ r.fields, f.hi < 32

theorem mask_lt {f : FieldSpec} (h : f.hi < 32) : f.mask < 2 ^ 32 := by
  refine Nat.lt_pow_two_of_testBit _ fun i hi => ?_
  unfold FieldSpec.mask
  rw [Nat.testBit_shiftLeft, Nat.testBit_two_pow_sub_one]
  have : ¬(i - f.lo < f.hi + 1 - f.lo) := by omega
  simp [this]

theorem maskWhere_lt {r : RegSpec} (fit : Fits r) (p : Access → Bool) : maskWhere r p < 2 ^ 32 := by
  unfold maskWhere
  refine List.foldlRecOn (motive := fun m => m < 2 ^ 32) _ _ (by decide) fun m hm f hf => ?_
  split
  · exact Nat.or_lt_two_pow hm (mask_lt (fit f hf))
  · exact hm

theorem putBits_zero_lt {m hi lo : Nat} (hm : m < 2 ^ 32) : putBits m hi lo 0 < 2 ^ 32 := by
  refine Nat.lt_pow_two_of_testBit _ fun i hi => ?_
  rw [testBit_putBits, Nat.testBit_lt_two_pow (Nat.lt_of_lt_of_le hm (Nat.pow_le_pow_right (by decide) hi))]
  simp

theorem plainMask_lt {r : RegSpec} (fit : Fits r) (req : Req) (off : Nat) : plainMask r req off < 2 ^ 32 := by
  unfold plainMask
  dsimp only
  split
  · refine List.foldlRecOn (motive := fun m => m < 2 ^ 32) _ _ (maskWhere_lt fit _) fun m hm i _ => ?_
    split
    · exact putBits_zero_lt hm
    · exact hm
  · exact maskWhere_lt fit _

/-! What a write stores (R23, R24). -/

/-- The word of a write before its W1S fields: RW and LK fields written, W1C fields cleared. -/
def clearedWord (s : State) (req : Req) (r : RegSpec) (off w : Nat) : Nat :=
  mix (rd s off).toNat (plainMask r req off) w &&& (2 ^ 32 - 1 - (w &&& maskWhere r (decide <| · = .w1c)))

/-- The word that a write leaves in the active copy. -/
def storedWord (s : State) (req : Req) (r : RegSpec) (off w : Nat) : Nat :=
  if holdsW1s r then clearedWord s req r off w ||| (w &&& maskWhere r (decide <| · = .w1s)) else clearedWord s req r off w

theorem testBit_clearedWord {s : State} {req : Req} {r : RegSpec} {off w i : Nat} (fit : Fits r) (hi : i < 32) (hw : w < 2 ^ 32) :
    (clearedWord s req r off w).testBit i =
      ((if (plainMask r req off).testBit i then w.testBit i else (rd s off).toNat.testBit i)
        && !(w.testBit i && (maskWhere r fun a => decide (a = .w1c)).testBit i)) := by
  have hc : w &&& maskWhere r (fun a => decide (a = .w1c)) < 2 ^ 32 := Nat.lt_of_le_of_lt Nat.and_le_left hw
  unfold clearedWord
  rw [Nat.testBit_and, testBit_mix (plainMask_lt fit req off) hi, testBit_complement hc hi, Nat.testBit_and]

theorem rd_regStore_self (s : State) (req : Req) (r : RegSpec) (off w : Nat) :
    rd (regStore s req r off w) off = BitVec.ofNat 32 (storedWord s req r off w) := by
  unfold regStore
  dsimp only
  split <;> exact rd_setReg_self _ _ _

/-- Another register reads as before, in both copies. -/
theorem regStore_ne {s : State} {req : Req} {r : RegSpec} {off w o : Nat} (h : o ≠ off) :
    rd (regStore s req r off w) o = rd s o ∧ stagedOf (regStore s req r off w) o = stagedOf s o := by
  have hrd (v : W32) : rd (setReg s off v) o = rd s o := rd_setReg_ne h
  unfold regStore
  dsimp only
  split
  · exact ⟨hrd _, congrArg ((s.staged.get o).getD ·) (hrd _)⟩
  · refine ⟨hrd _, ?_⟩
    unfold stagedOf
    exact (congrArg _ (hrd _)).trans (SMap.getD_put_ne h)

/-- Bit `i` of the active copy after a write. -/
theorem rb_regStore {s : State} {req : Req} {r : RegSpec} {off w i : Nat} (fit : Fits r) (hi : i < 32) (hw : w < 2 ^ 32) :
    rb (regStore s req r off w) off i =
      if holdsW1s r && (bit (maskWhere r fun a => decide (a = .w1s)) i && bit w i) then true
      else if bit (maskWhere r fun a => decide (a = .w1c)) i && bit w i then false
      else if bit (plainMask r req off) i then bit w i else rb s off i := by
  unfold rb bit
  rw [rd_regStore_self, BitVec.toNat_ofNat, Nat.testBit_mod_two_pow]
  unfold storedWord
  cases hold : holdsW1s r <;> cases hb : w.testBit i <;> simp [hi, hb, Nat.testBit_or, testBit_clearedWord fit hi hw, Bool.and_comm, Bool.or_comm]

/-- The staged copy takes the bits of the staged fields. -/
theorem bit_stagedOf_regStore {s : State} {req : Req} {r : RegSpec} {off w i : Nat} (fit : Fits r) (hi : i < 32)
    (h : bit (maskWhere r fun a => decide (a = .st)) i = true) : bit (stagedOf (regStore s req r off w) off).toNat i = bit w i := by
  have hm := maskWhere_lt fit fun a => decide (a = .st)
  have hne : maskWhere r (fun a => decide (a = .st)) ≠ 0 := fun e => by simp [e, bit] at h
  have hst : stagedOf (regStore s req r off w) off = BitVec.ofNat 32 (mix (storedWord s req r off w) (maskWhere r fun a => decide (a = .st))
      (mix (stagedOf s off).toNat (maskWhere r fun a => decide (a = .st)) w)) := by
    have hrd := rd_regStore_self s req r off w
    unfold stagedOf
    rw [hrd]
    unfold regStore
    rw [if_neg hne]
    exact SMap.getD_put_self
  unfold bit at h ⊢
  rw [hst, BitVec.toNat_ofNat, Nat.testBit_mod_two_pow, testBit_mix hm hi, testBit_mix hm hi, if_pos h, if_pos h]
  simp [hi]

/-! The registers of the table. -/

/-- The pages of a kind hold no register that the first of them lacks. -/
theorem blockRegs_subset {k : Page} {i : Nat} {r : RegSpec} (h : r ∈ blockRegs k i) : r ∈ blockRegs k 0 := by
  cases k with
  | dev | enl =>
    simp only [blockRegs] at h ⊢
    split at h
    · exact h
    · exact List.mem_of_mem_filter h
  | _ => exact h

theorem blockRegs_fit (k : Page) (i : Nat) : ∀ r ∈ blockRegs k i, Fits r := by
  have all (k : Page) : (blockRegs k 0).all (fun r => r.fields.all fun f => decide (f.hi < 32)) = true := by
    cases k <;> decide +kernel
  intro r hr f hf
  exact of_decide_eq_true (List.all_eq_true.1 (List.all_eq_true.1 (all k) r (blockRegs_subset hr)) f hf)

theorem headerRegs_fit (k : Page) (i : Nat) : ∀ r ∈ headerRegs k i, Fits r := by
  have evt (a : Access) (v : Nat) : ∀ f ∈ evtFields k a v, f.hi < 32 := by
    cases k <;> simp [evtFields, evtTop]
  simpa [headerRegs, Fits] using ⟨evt .w1c 0, evt .rw 1, evt .wo 0⟩

/-- The register at an offset has its fields within its 32 bits. -/
theorem findReg_fits {off : Nat} {r : RegSpec} (h : findReg off = some r) : Fits r := by
  unfold findReg at h
  split at h
  · cases h
  · next k i _ =>
    dsimp only at h
    split at h
    · next q hq => cases h; exact blockRegs_fit k i _ (List.mem_of_find?_eq_some hq)
    · split at h
      · cases h; intro f hf; simp at hf; simp [hf]
      · exact headerRegs_fit k i _ (List.mem_of_find?_eq_some h)

/-- R23, R24 for the registers that the pages hold: what O24 states, with the specification that lies at the offset. -/
theorem regStore_follows_access_codes {s : State} {req : Req} {r : RegSpec} {off w i : Nat} (hr : findReg off = some r) (hi : i < 32)
    (hw : w < 2 ^ 32) (hold : holdsW1s r = false) :
    rb (regStore s req r off w) off i =
        (if bit (maskWhere r fun a => decide (a = .w1c)) i && bit w i then false
        else if bit (plainMask r req off) i then bit w i else rb s off i)
      ∧ (bit (maskWhere r fun a => decide (a = .st)) i = true → bit (stagedOf (regStore s req r off w) off).toNat i = bit w i)
      ∧ ∀ o, o ≠ off → rd (regStore s req r off w) o = rd s o ∧ stagedOf (regStore s req r off w) o = stagedOf s o :=
  ⟨by simp [rb_regStore (findReg_fits hr) hi hw, hold], bit_stagedOf_regStore (findReg_fits hr) hi, fun _ => regStore_ne⟩

/-- A specification that no page holds: its one field lies above bit 31. -/
def strayField : RegSpec := ⟨"", 0, 1, 4, 1, 0, [⟨32, 32, .rw, 0, 0, 1⟩]⟩

/-- Refutes O24: the statement speaks of every `RegSpec`, also of one with a field above bit 31, of which `mix` keeps no bit outside the field: bit 0,
which no field holds, falls from 1 to 0. For the registers of the pages the law holds (`regStore_follows_access_codes`). -/
theorem not_accessCodesGovernEachBit : ¬ Obligations.AccessCodesGovernEachBit := by
  unfold Obligations.AccessCodesGovernEachBit
  intro h
  have hbit := (h (setReg State.reset 0 1) .pf strayField 0 0 0 (by decide) (by decide) (by decide)).1
  exact absurd hbit (by decide +kernel)

end Sys2Proof.RegisterPages
end

section
/-! Faults of a page: the capture of the first and the count of the further ones (R43, R44); the state after reset. -/
namespace Sys2Proof.RegisterPages
open Sys2Proof Sys2Proof.Machine Sys2Proof.Laws Sys2Proof.Claims

/-- Settles O5: the stores of the reset state are empty, and a register that is not listed reads its reset word. -/
theorem resetIsCanonicalAndEmpty : Obligations.ResetIsCanonicalAndEmpty := ⟨rfl, rfl, rfl, fun _ => rfl⟩

/-! What a fault does to its page's registers (R43, R44). -/

/-- The four words of a capture. -/
def captured (s : State) (pg cause : Nat) (req : Req) (info : Nat) (a : Option Nat) : State :=
  let s := setReg s (hdr pg 0x30) (BitVec.ofNat 32 (blockTypeAt pg * 256 + cause + reqCode req * 0x1000000))
  let s := setReg s (hdr pg 0x34) (BitVec.ofNat 32 info)
  let s := setReg s (hdr pg 0x38) (BitVec.ofNat 32 (a.getD 0))
  setReg s (hdr pg 0x3C) (BitVec.ofNat 32 (bits (a.getD 0) 47 32 + b2n a.isSome * 0x80000000))

theorem regs_fault (s : State) (pg cause : Nat) (req : Req) (info : Nat) (a : Option Nat) :
    (fault s pg cause req info a).regs =
      if rb s (hdr pg 0x20) 0 then (bump s (hdr pg 0x30) 23 16 1).regs else (raise (captured s pg cause req info a) pg 0).regs := by
  unfold fault captured
  dsimp only
  rw [apply_ite State.regs, toRecorder_regs, tellFlt_regs, ite_self, apply_ite State.regs]

section
variable {s : State} {pg cause info : Nat} {req : Req} {a : Option Nat}

/-- A fault that finds FAULT set counts in OVERFLOW alone. -/
theorem rd_fault_of_set (h : rb s (hdr pg 0x20) 0 = true) (o : Nat) : rd (fault s pg cause req info a) o = rd (bump s (hdr pg 0x30) 23 16 1) o := by
  unfold rd
  rw [regs_fault, if_pos h]

/-- A fault that finds FAULT clear is captured, and raises it. -/
theorem rd_fault_of_clear (h : rb s (hdr pg 0x20) 0 = false) (o : Nat) :
    rd (fault s pg cause req info a) o = rd (raise (captured s pg cause req info a) pg 0) o := by
  unfold rd
  rw [regs_fault, if_neg (by simp [h])]

/-- FAULT reads 1 after a fault. -/
theorem rb_fault (s : State) (pg cause : Nat) (req : Req) (info : Nat) (a : Option Nat) : rb (fault s pg cause req info a) (hdr pg 0x20) 0 = true := by
  cases h : rb s (hdr pg 0x20) 0 with
  | true =>
    unfold rb
    rw [rd_fault_of_set h, rd_bump_ne (by unfold hdr; omega)]
    exact h
  | false =>
    unfold rb
    rw [rd_fault_of_clear h]
    exact rb_raise _ _ (by decide)

theorem rd_captured_ne {o : Nat} (h : o ≠ hdr pg 0x30 ∧ o ≠ hdr pg 0x34 ∧ o ≠ hdr pg 0x38 ∧ o ≠ hdr pg 0x3C) :
    rd (captured s pg cause req info a) o = rd s o := by
  obtain ⟨h30, h34, h38, h3C⟩ := h
  unfold captured
  rw [rd_setReg_ne h3C, rd_setReg_ne h38, rd_setReg_ne h34, rd_setReg_ne h30]

/-- The four words of a capture, each at its register. -/
theorem rd_captured :
    rd (captured s pg cause req info a) (hdr pg 0x30) = BitVec.ofNat 32 (blockTypeAt pg * 256 + cause + reqCode req * 0x1000000)
      ∧ rd (captured s pg cause req info a) (hdr pg 0x34) = BitVec.ofNat 32 info
      ∧ rd (captured s pg cause req info a) (hdr pg 0x38) = BitVec.ofNat 32 (a.getD 0)
      ∧ rd (captured s pg cause req info a) (hdr pg 0x3C) = BitVec.ofNat 32 (bits (a.getD 0) 47 32 + b2n a.isSome * 0x80000000) := by
  have hne {x y : Nat} (h : x ≠ y) : hdr pg x ≠ hdr pg y := by unfold hdr; omega
  unfold captured
  refine ⟨?_, ?_, ?_, rd_setReg_self _ _ _⟩
  · rw [rd_setReg_ne (hne (by decide)), rd_setReg_ne (hne (by decide)), rd_setReg_ne (hne (by decide)), rd_setReg_self]
  · rw [rd_setReg_ne (hne (by decide)), rd_setReg_ne (hne (by decide)), rd_setReg_self]
  · rw [rd_setReg_ne (hne (by decide)), rd_setReg_self]

/-- A fault reaches no block register. -/
theorem rd_fault_block {o : Nat} (h : 0x100 ≤ o % 0x1000) : rd (fault s pg cause req info a) o = rd s o := by
  have hne {x : Nat} (hx : x < 0x100) : o ≠ hdr pg x := by unfold hdr; omega
  cases hf : rb s (hdr pg 0x20) 0 with
  | true => rw [rd_fault_of_set hf, rd_bump_ne (hne (by decide))]
  | false =>
    rw [rd_fault_of_clear hf, rd_raise_ne (hne (by decide)),
      rd_captured_ne ⟨hne (by decide), hne (by decide), hne (by decide), hne (by decide)⟩]
end

theorem blockTypeAt_lt (pg : Nat) : blockTypeAt pg < 256 := by
  unfold blockTypeAt
  cases pageOf pg with
  | none => decide
  | some p =>
    have h (k : Page) : blockType k < 256 := by cases k <;> decide
    exact h p.1

/-- Settles O26, by what a fault does to the registers where FAULT is clear and where it is set. -/
theorem firstFaultIsCaptured : Obligations.FirstFaultIsCaptured := by
  unfold Obligations.FirstFaultIsCaptured
  intro s pg cause info req a hcause t code
  have hne {x y : Nat} (h : x ≠ y) : hdr pg x ≠ hdr pg y := by unfold hdr; omega
  refine ⟨fun h => ?_, fun h => ?_⟩
  · have hrd {x : Nat} (hx : x ≠ 0x20) : rd t (hdr pg x) = rd (captured s pg cause req info a) (hdr pg x) := by
      rw [rd_fault_of_clear h, rd_raise_ne (hne hx)]
    obtain ⟨h30, h34, h38, h3C⟩ := @rd_captured s pg cause info req a
    have hb := blockTypeAt_lt pg
    have hcode : (rd t code).toNat = (blockTypeAt pg * 256 + cause + reqCode req * 0x1000000) % 2 ^ 32 := by
      rw [hrd (by decide), h30, BitVec.toNat_ofNat]
    have hfield (hi lo : Nat) : rf t code hi lo
        = (blockTypeAt pg * 256 + cause + reqCode req * 0x1000000) % 2 ^ 32 / 2 ^ lo % 2 ^ (hi + 1 - lo) := by
      unfold rf bits
      rw [hcode, Nat.shiftRight_eq_div_pow]
    have hhi : (rd t (hdr pg 0x3C)).toNat = (bits (a.getD 0) 47 32 + b2n a.isSome * 0x80000000) % 2 ^ 32 := by
      rw [hrd (by decide), h3C, BitVec.toNat_ofNat]
    have h47 : bits (a.getD 0) 47 32 < 65536 := Nat.mod_lt _ (by decide)
    refine ⟨?_, ?_, ?_, ?_, (hrd (by decide)).trans h34, (hrd (by decide)).trans h38, ?_, ?_, rb_fault s pg cause req info a⟩
    · rw [hfield]; omega
    · rw [hfield]; omega
    · rw [hfield]; omega
    · rw [hfield]; omega
    · unfold rf; rw [hhi]; generalize bits (a.getD 0) 47 32 = x at *
      cases a.isSome <;> simp [bits, b2n, Nat.shiftRight_eq_div_pow] <;> omega
    · unfold rb; rw [hhi]; generalize bits (a.getD 0) 47 32 = x at *
      cases a.isSome <;> simp [bit, b2n, Nat.testBit_eq_decide_div_mod_eq] <;> omega
  · have hcode (hi lo : Nat) : rf t code hi lo = rf (bump s code 23 16 1) code hi lo := by unfold rf; rw [rd_fault_of_set h]
    refine ⟨?_, ?_, ?_, fun o ho => ?_, rb_fault s pg cause req info a⟩
    · rw [hcode, bump, rf_wf_self (by decide)]; unfold satAdd; omega
    · rw [hcode]; exact rf_wf_disjoint (by decide) (by decide)
    · rw [hcode]; exact rf_wf_disjoint (by decide) (by decide)
    · rw [rd_fault_of_set h, rd_bump_ne]
      rcases ho with rfl | rfl | rfl <;> exact hne (by decide)

end Sys2Proof.RegisterPages
end

section
/-! Accesses of the page window: a write of one register, accepted, dropped or partial (R19, R25, R26, R30), and a read (R18, R32). -/
namespace Sys2Proof.RegisterPages
open Sys2Proof Sys2Proof.Machine Sys2Proof.Laws Sys2Proof.Claims

/-! A command's requests where none has to wait. -/

/-- A command that presents no request that has to wait is served by one run of its work. -/
theorem served_next {host : List Cpl} {f : State → Host.Outcome State Fault Refusal} {s t : State} (hf : f (withHost s host) = .next t)
    (hu : Unheld t) : served host f s = .next (given s t) := by
  obtain ⟨hblocked, hwant, hposted⟩ := hu
  have hserve (n : Nat) : serveLoads f host s (n + 1) s [] = .next t := by
    have hf' : f (updIo s fun _ => { host := host, loads := [] }) = .next t := hf
    simp [serveLoads, hf', hblocked, hwant]
  unfold served
  rw [hserve 65535]
  simp [hposted]

theorem wake_withHost (s : State) (host : List Cpl) (n : Nat) : wake (withHost s host) n = withHost (wake s n) host := by
  simp only [wake, apply_ite (withHost · host)]
  rfl

theorem wake_regs (s : State) (n : Nat) : (wake s n).regs = s.regs := by
  unfold wake
  split <;> rfl

theorem wake_staged (s : State) (n : Nat) : (wake s n).staged = s.staged := by
  unfold wake
  split <;> rfl

theorem wake_mem (s : State) (n : Nat) : (wake s n).mem = s.mem := by
  unfold wake
  split <;> rfl

theorem wake_mortar (s : State) (n : Nat) : (wake s n).mortar = s.mortar := by
  unfold wake
  split <;> rfl

/-- A state in which the command has done nothing with Mortar holds no request. -/
theorem unheld_of_mortar {s t : State} {host : List Cpl} (h : t.mortar = (withHost s host).mortar) : Unheld t := by
  unfold Unheld
  rw [h]
  exact ⟨rfl, rfl, rfl⟩

/-! Writes of one register (R19, R25, R26, R30). -/

/-- The rules on a write read nothing of Mortar. -/
theorem writeCauses_withHost (s : State) (host : List Cpl) (req : Req) (r : RegSpec) (off w : Nat) :
    writeCauses (awake (withHost s host) off) req r off w = writeCauses (awake s off) req r off w := by
  rw [awake, wake_withHost]
  rfl

/-- An accepted write brings about what its register's write brings about. -/
theorem pageWrite_accepted {s : State} {req : Req} {off w : Nat} {r : RegSpec} (h : Accepted s req off w r) (h4 : off % 4 = 0) (host : List Cpl) :
    pageWrite (withHost s host) req off 4 w = (regAct (awake (withHost s host) off) req r off w, MS.ok) := by
  obtain ⟨-, hoff, hw, hpage, hfind, hcauses⟩ := h
  have hp : pageRefusal (withHost s host) off = none := hpage
  have hc := (writeCauses_withHost s host req r off w).trans hcauses
  unfold pageWrite
  rw [if_neg (by omega), if_pos ⟨rfl, h4⟩, Nat.mod_eq_of_lt hw]
  unfold regWrite
  rw [hp]
  simp only [Bool.false_eq_true, if_false, hfind, hc]

theorem writeN_next {s t : State} {req : Req} {off n w st : Nat} {host : List Cpl} (up : s.boot.held = false)
    (h : pageWrite (withHost s host) req off n w = (t, st)) (hu : Unheld t) : writeN host s req off n w = .next (given s t) := by
  unfold writeN
  rw [if_neg (by simp [up])]
  exact served_next (by rw [h]; rfl) hu

/-- An accepted write whose engines' requests do not wait. -/
theorem write1_accepted {s : State} {req : Req} {off w : Nat} {r : RegSpec} {host : List Cpl} (h : Accepted s req off w r) (h4 : off % 4 = 0)
    (hu : Unheld (regAct (awake (withHost s host) off) req r off w)) :
    write1 s req off w host = .next (given s (regAct (awake (withHost s host) off) req r off w)) :=
  writeN_next h.1 (pageWrite_accepted h h4 host) hu

/-- A register command is one aligned write of 32 bits. -/
theorem exec_of_registerOf {c : Instr} {req : Req} {off w : Nat} {host : List Cpl} (s : State) (h : registerOf c = some (req, off, w, host)) :
    exec c s = write1 s req off w host := by
  cases c
  case aonIslCtrlWrite | retrainForce | ptpRxPop | ptpTxSend | devResync | partitionQuiesce | keyPfSubmit | ampClear =>
    obtain ⟨hc, h⟩ := Option.ite_none_right_eq_some.1 h
    cases h
    exact if_pos hc
  case registerWrite =>
    obtain ⟨⟨hwidth, -⟩, h⟩ := Option.ite_none_right_eq_some.1 h
    cases h
    subst hwidth
    rfl
  case evtStatusClear | evtEnableWrite | evtForce | lockSet | enableWrite | softReset | bootConfirm | flashRead | flashProgram | flashErase
      | flashInstall | advanceRollback | revokeKey | retire | tbStep | tbSlew | tbRate | tbServoLocked | sflPfSubmit | prepare | abort | discard
      | cshExtEnable | cshSwRecord | safeStatusClear | clearLast | sramCe | sramUe | pair | csiCrc | dramCa | dramCrc | delay | holdRead | temp
      | tripTest =>
    cases h
    rfl
  all_goals cases h

/-- Settles O22: each of these commands is one aligned write, and no rule drops its word. -/
theorem registerCommandsTakeEffect : Obligations.RegisterCommandsTakeEffect := by
  unfold Obligations.RegisterCommandsTakeEffect
  intro c s req off w host r t hc h4 hacc hu
  exact (exec_of_registerOf s hc).trans (write1_accepted hacc h4 hu)


/-! Faults that a write or an access leaves on its page (R19, R25, R43). -/

/-- A write that rules drop is captured once for each. -/
def faults (s : State) (pg : Nat) (causes : List Nat) (req : Req) (info : Nat) (a : Option Nat) : State :=
  causes.foldl (fun s c => fault s pg c req info a) s

theorem faults_cons (s : State) (pg c : Nat) (cs : List Nat) (req : Req) (info : Nat) (a : Option Nat) :
    faults s pg (c :: cs) req info a = faults (fault s pg c req info a) pg cs req info a := rfl

theorem onPage_faults (s : State) (pg : Nat) (causes : List Nat) (req : Req) (info : Nat) (a : Option Nat) :
    OnPage pg s (faults s pg causes req info a) := by
  induction causes generalizing s with
  | nil => exact .refl _ _
  | cons c cs ih =>
    rw [faults_cons]
    exact OnPage.trans (onPage_fault c req info a) (ih _)

theorem rd_faults_block {s : State} {pg : Nat} {causes : List Nat} {req : Req} {info : Nat} {a : Option Nat} {o : Nat} (h : 0x100 ≤ o % 0x1000) :
    rd (faults s pg causes req info a) o = rd s o := by
  induction causes generalizing s with
  | nil => rfl
  | cons c cs ih => rw [faults_cons, ih, rd_fault_block h]

theorem rb_faults {s : State} {pg : Nat} {causes : List Nat} {req : Req} {info : Nat} {a : Option Nat} (h : causes ≠ []) :
    rb (faults s pg causes req info a) (hdr pg 0x20) 0 = true := by
  induction causes generalizing s with
  | nil => exact absurd rfl h
  | cons c cs ih =>
    rw [faults_cons]
    cases cs with
    | nil => exact rb_fault _ _ _ _ _ _
    | cons d ds => exact ih (List.cons_ne_nil _ _)

/-- What a page's faults leave as it was. -/
theorem unchanged_of_onPage {pg : Nat} {s t : State} (h : OnPage pg s t) : t.mem = s.mem ∧ t.staged = s.staged ∧ t.mortar = s.mortar ∧ t.dpt = s.dpt :=
  ⟨(congrArg State.mem h.rest :), (congrArg State.staged h.rest :), (congrArg State.mortar h.rest :), (congrArg State.dpt h.rest :)⟩

/-- The command of a write that its page turns away: the faults stand, and nothing else. -/
theorem registerWrite_faults {s : State} {req : Req} {off width : Nat} {data : W64} {causes : List Nat} {info st : Nat} (up : s.boot.held = false)
    (h : pageWrite (withHost s []) req off width (data.toNat % 2 ^ (8 * min width 8))
      = (faults (awake (withHost s []) off) (off / 0x1000) causes req info (some (regAddr off)), st)) (ne : causes ≠ []) :
    Runs (.registerWrite req off width data) s fun t => (∀ o, 0x100 ≤ o % 0x1000 → rd t o = rd s o) ∧ t.staged = s.staged ∧ SameBytes s t
      ∧ Raised t (off / 0x1000) 0 := by
  obtain ⟨hmem, hstaged, hmortar, -⟩ :=
    unchanged_of_onPage (onPage_faults (awake (withHost s []) off) (off / 0x1000) causes req info (some (regAddr off)))
  have hu := unheld_of_mortar (s := s) (host := []) (hmortar.trans (wake_mortar _ _))
  refine ⟨_, writeN_next up h hu, fun o ho => ?_, hstaged.trans (wake_staged _ _), fun a => ?_, rb_faults ne⟩
  · refine (rd_faults_block ho).trans ?_
    unfold rd
    rw [awake, wake_regs]
    rfl
  · exact congrArg (SMap.getD · a 0) (hmem.trans (wake_mem _ _))

/-- A write of 32 bits that rules drop. -/
theorem pageWrite_dropped {s : State} {req : Req} {off w : Nat} {r : RegSpec} (hoff : off < 0x40000) (h4 : off % 4 = 0) (hw : w < 2 ^ 32)
    (hpage : pageRefusal s off = none) (hfind : findReg off = some r) (hc : writeCauses (awake s off) req r off w ≠ []) (host : List Cpl) :
    pageWrite (withHost s host) req off 4 w
      = (faults (awake (withHost s host) off) (off / 0x1000) (writeCauses (awake s off) req r off w) req w (some (regAddr off)), MS.ok) := by
  have hp : pageRefusal (withHost s host) off = none := hpage
  unfold pageWrite
  rw [if_neg (by omega), if_pos ⟨rfl, h4⟩, Nat.mod_eq_of_lt hw]
  unfold regWrite
  rw [hp]
  simp only [Bool.false_eq_true, if_false, hfind, writeCauses_withHost]
  rfl

/-- A write that is narrow or not aligned: its page captures PARTIAL_WRITE. -/
theorem pageWrite_partial {s : State} {req : Req} {off n v : Nat} (hoff : off < 0x40000) (hpage : pageRefusal s off = none)
    (hn : n < 4 ∨ n = 8 ∨ off % 4 ≠ 0) (h8 : ¬(n = 8 ∧ off % 8 = 0)) (host : List Cpl) :
    ∃ info, pageWrite (withHost s host) req off n v
      = (faults (awake (withHost s host) off) (off / 0x1000) [0xF3] req info (some (regAddr off)), MS.ok) := by
  have hp : pageRefusal (withHost s host) off = none := hpage
  refine ⟨if v % 2 ^ 32 = 0 then v / 2 ^ 32 % 2 ^ 32 else v % 2 ^ 32, ?_⟩
  unfold pageWrite
  rw [if_neg (by omega), if_neg (by omega), if_neg h8, if_pos hn]
  unfold regWrite
  rw [hp]
  rfl

/-- Settles O25: what is left of the write are faults, which reach no block register. -/
theorem droppedWritesChangeNothing : Obligations.DroppedWritesChangeNothing := by
  unfold Obligations.DroppedWritesChangeNothing
  intro s req off w hup hoff hblock hpage
  refine ⟨fun r h4 hfind hc => ?_, fun width hn h8 => ?_⟩
  · have hw := pageWrite_dropped hoff h4 (Nat.mod_lt _ (by decide)) hpage hfind hc []
    obtain ⟨t, ht, hrd, hst, hmem, hraised⟩ := registerWrite_faults (data := w) hup hw hc
    exact ⟨t, ht, hrd _ hblock, by unfold stagedOf; rw [hst, hrd _ hblock], hmem, hraised⟩
  · obtain ⟨info, hw⟩ := pageWrite_partial (req := req) (v := w.toNat % 2 ^ (8 * min width 8)) hoff hpage hn h8 []
    obtain ⟨t, ht, hrd, -, hmem, hraised⟩ := registerWrite_faults hup hw (by decide)
    exact ⟨t, ht, fun o _ ho => hrd o ho, hmem, hraised⟩

/-! Reads (R18, R32). -/

/-- A read of one register answers the bytes of its word. -/
theorem pageRead_word {s : State} {req : Req} {off : Nat} (h4 : off % 4 = 0) (hoff : off + 4 ≤ 0x40000) :
    pageRead s req off 4 = ((regRead s req off).1, (regRead s req off).2.1, leBytes 4 (regRead s req off).2.2) := by
  have hone : (off + 4 - 1) / 4 + 1 - off / 4 = 1 := by omega
  have hoff4 : off / 4 * 4 = off := by omega
  unfold pageRead
  rw [if_neg (by omega), hone, hoff4]
  simp only [readWords, h4, List.drop_zero, List.append_nil]
  refine Prod.ext rfl (Prod.ext ?_ ?_)
  · dsimp only
    split
    · rfl
    · next h => exact (not_not.1 h).symm
  · exact List.take_of_length_le (by simp)

/-- A read at a page that is not populated answers zero. -/
theorem regRead_unpopulated {s : State} {req : Req} {off : Nat} (h : pageOf (off / 0x1000) = none) : regRead s req off = (s, MS.ok, 0) := by
  simp [regRead, pageRefusal, h]

/-- Settles O27: the access covers one register. -/
theorem readAnswersTheWord : Obligations.ReadAnswersTheWord := by
  unfold Obligations.ReadAnswersTheWord
  intro s req off hup h4 hoff
  have hread : exec (.rcRead req off) s
      = .next { (regRead s req off).1 with readData := leBytes 4 (regRead s req off).2.2, readSt := (regRead s req off).2.1 } := by
    show execRcRead req off s = _
    unfold execRcRead
    rw [if_neg (by simp [hup]), show off / 4 * 4 = off by omega, pageRead_word h4 hoff]
  refine ⟨⟨_, hread, rfl⟩, fun hpage => hread.trans ?_⟩
  rw [regRead_unpopulated hpage, show leBytes 4 0 = [0, 0, 0, 0] by decide]

end Sys2Proof.RegisterPages
end

section
/-! The registers of the common header that a write acts through: EVT_FORCE, EVT_STATUS and LOCK (R23, R26, R36). -/
namespace Sys2Proof.RegisterPages
open Sys2Proof Sys2Proof.Machine Sys2Proof.Laws Sys2Proof.Claims

/-! What a write of EVT_FORCE, EVT_STATUS and LOCK brings about (R23, R26, R36). -/

/-- A register command whose write leaves Mortar alone gives what the write gives. -/
theorem runs_of_registerOf {c : Instr} {s : State} {req : Req} {off w : Nat} {r : RegSpec} {P : State → Prop}
    (hc : registerOf c = some (req, off, w, [])) (h4 : off % 4 = 0) (hacc : Accepted s req off w r)
    (hm : (regAct (awake (withHost s []) off) req r off w).mortar = (awake (withHost s []) off).mortar)
    (hP : P (given s (regAct (awake (withHost s []) off) req r off w))) : Runs c s P :=
  ⟨_, (exec_of_registerOf s hc).trans (write1_accepted hacc h4 (unheld_of_mortar (hm.trans (wake_mortar _ _)))), hP⟩

/-- The forced events of a page, one after the other. -/
def forced (s : State) (pg : Nat) (events : List Nat) : State := events.foldl (fun s b => raiseWith s pg b true none) s

theorem forced_cons (s : State) (pg b : Nat) (bs : List Nat) : forced s pg (b :: bs) = forced (raiseWith s pg b true none) pg bs := rfl

theorem onPage_forced (s : State) (pg : Nat) (events : List Nat) : OnPage pg s (forced s pg events) := by
  induction events generalizing s with
  | nil => exact .refl _ _
  | cons b bs ih =>
    rw [forced_cons]
    exact OnPage.trans (onPage_raiseWith b true none) (ih _)

/-- An event bit after an event of its page. -/
theorem rb_raiseWith {s : State} {pg b i : Nat} {isForced : Bool} {params : Option (List Nat)} (h : i < 32) :
    rb (raiseWith s pg b isForced params) (hdr pg 0x20) i = (rb s (hdr pg 0x20) i || decide (i = b)) := by
  cases hset : rb s (hdr pg 0x20) b with
  | true =>
    have hsame : rb (raiseWith s pg b isForced params) (hdr pg 0x20) i = rb s (hdr pg 0x20) i := by
      unfold rb rd
      rw [regs_raiseWith, if_pos hset]
    rw [hsame]
    by_cases hib : i = b
    · simp [hib, hset]
    · simp [hib]
  | false =>
    have hrises : rb (raiseWith s pg b isForced params) (hdr pg 0x20) i = rb (wb s (hdr pg 0x20) b true) (hdr pg 0x20) i := by
      unfold rb rd
      rw [regs_raiseWith, if_neg (by simp [hset])]
    rw [hrises]
    by_cases hib : i = b
    · subst hib
      simp [rb_wb_self h]
    · simp [rb_wb_ne h hib, hib]

theorem rb_forced {s : State} {pg i : Nat} {events : List Nat} (h : i < 32) :
    rb (forced s pg events) (hdr pg 0x20) i = (rb s (hdr pg 0x20) i || decide (i ∈ events)) := by
  induction events generalizing s with
  | nil => simp [forced]
  | cons b bs ih => rw [forced_cons, ih, rb_raiseWith h]; simp [Bool.or_assoc]

theorem regAct_evtForce {s : State} {req : Req} {r : RegSpec} {off w : Nat} (h : r.name = "EVT_FORCE") :
    regAct s req r off w = forced s (off / 0x1000) (bitList w 32) := by
  unfold regAct forced
  simp only [h]

theorem regAct_evtStatus {s : State} {req : Req} {r : RegSpec} {off w : Nat} (h : r.name = "EVT_STATUS") :
    regAct s req r off w = freshNotice (regStore s req r off w) (off / 0x1000) := by
  unfold regAct
  simp only [h]

theorem regAct_lock {s : State} {req : Req} {r : RegSpec} {off w : Nat} (h : r.name = "LOCK") : regAct s req r off w = regStore s req r off w := by
  unfold regAct
  rw [h]
  rfl

theorem regStore_mortar (s : State) (req : Req) (r : RegSpec) (off w : Nat) : (regStore s req r off w).mortar = s.mortar := by
  unfold regStore
  dsimp only
  split <;> rfl

/-- A fresh notification changes no register. -/
theorem freshNotice_regs (s : State) (pg : Nat) : (freshNotice s pg).regs = s.regs := by
  unfold freshNotice
  split
  · exact regs_notify _ _
  · rfl

theorem freshNotice_mortar (s : State) (pg : Nat) : (freshNotice s pg).mortar = s.mortar := by
  unfold freshNotice
  split
  · exact (unchanged_of_onPage (onPage_notify (pg := pg) pg)).2.2.1
  · rfl

theorem hdr_aligned {pg x : Nat} (h : x % 4 = 0) : hdr pg x % 4 = 0 := by
  unfold hdr
  omega

/-- Settles O28, by what a forced event, a W1C bit and the end of a reset do to their bit. -/
theorem eventRegisters : Obligations.EventRegisters := by
  unfold Obligations.EventRegisters
  intro s req page w r i hi
  refine ⟨fun hacc hname hbit _ => ?_, fun hacc hname _ hbit hw1c => ?_, fun hpage => ?_⟩
  · have hact (u : State) : regAct u req r (hdr page 0x28) w.toNat = forced u page (bitList w.toNat 32) := by
      rw [regAct_evtForce hname, hdr_page (by decide)]
    have hmem : i ∈ bitList w.toNat 32 := List.mem_filter.2 ⟨List.mem_range.2 hi, hbit⟩
    refine runs_of_registerOf (c := .evtForce req page w) rfl (hdr_aligned (by decide)) hacc ?_ ?_
    · rw [hact]
      exact (unchanged_of_onPage (onPage_forced _ _ _)).2.2.1
    · rw [hact]
      exact (rb_forced hi).trans (by simp [hmem])
  · have hact (u : State) : regAct u req r (hdr page 0x20) w.toNat = freshNotice (regStore u req r (hdr page 0x20) w.toNat) page := by
      rw [regAct_evtStatus hname, hdr_page (by decide)]
    obtain ⟨-, -, hw, -, hfind, -⟩ := id hacc
    refine runs_of_registerOf (c := .evtStatusClear req page w) rfl (hdr_aligned (by decide)) hacc ?_ ?_
    · rw [hact, freshNotice_mortar, regStore_mortar]
    · rw [hact]
      have hregs (u : State) : rb (given s (freshNotice u page)) (hdr page 0x20) i = rb u (hdr page 0x20) i := by
        show rb (freshNotice u page) _ _ = _
        unfold rb rd
        rw [freshNotice_regs]
      rw [hregs, rb_regStore (findReg_fits hfind) hi hw]
      simp [holdsW1s, hname, hw1c, hbit]
  · refine ⟨_, rfl, ?_⟩
    rw [if_pos (Option.isSome_iff_ne_none.2 hpage)]
    exact rb_wb_self (by decide)

/-- LOCK of a page is the register of its header, whose one field is W1S. -/
theorem findReg_lock {pg : Nat} {r : RegSpec} (h : findReg (hdr pg 0x1C) = some r) : bit (maskWhere r fun a => decide (a = .w1s)) 0 = true := by
  have hblock (k : Page) (i : Nat) : (blockRegs k i).find? (regHit · 0x1C) = none := by
    have hall (k : Page) : (blockRegs k 0).all (fun r => !regHit r 0x1C) = true := by cases k <;> decide +kernel
    refine List.find?_eq_none.2 fun r hr => ?_
    simpa using List.all_eq_true.1 (hall k) r (blockRegs_subset hr)
  unfold findReg at h
  rw [hdr_page (by decide), show hdr pg 0x1C % 0x1000 = 0x1C by unfold hdr; omega] at h
  split at h
  · cases h
  · next k i _ =>
    simp only [hblock] at h
    simp [headerRegs, regHit] at h
    subst h
    decide

/-- Settles O29: LOCK reads 1 after the write, and that is the condition of cause 0xF1. -/
theorem lockStops : Obligations.LockStops := by
  unfold Obligations.LockStops
  intro s req by_ page off w r q hacc hname _ _ hpg _ _
  obtain ⟨-, -, hw, -, hfind, -⟩ := id hacc
  refine runs_of_registerOf (c := .lockSet req page) rfl (hdr_aligned (by decide)) hacc ?_ ?_
  · rw [regAct_lock hname, regStore_mortar]
  · rw [regAct_lock hname]
    intro _ hchange
    have hlocked : rb (regStore (awake (withHost s []) (hdr page 0x1C)) req r (hdr page 0x1C) 1) (hdr page 0x1C) 0 = true := by
      rw [rb_regStore (findReg_fits hfind) (by decide) hw, findReg_lock hfind]
      simp [holdsW1s, hname, bit]
    unfold writeCauses
    refine List.mem_append_left _ (List.mem_append_right _ ?_)
    rw [hpg]
    have : rb (given s (regStore (awake (withHost s []) (hdr page 0x1C)) req r (hdr page 0x1C) 1)) (hdr page 0x1C) 0 = true := hlocked
    rw [this]
    simp [hchange]

end Sys2Proof.RegisterPages
end

section
/-! The table window: reads within an entry and outside (R48 to R50), writes of the model table (R49, R51). -/
namespace Sys2Proof.RegisterPages
open Sys2Proof Sys2Proof.Machine Sys2Proof.Laws Sys2Proof.Claims

/-! Reads of the table window (R48 to R50). -/

/-- The contexts lie in bank 15 of Mortar's SRAM (R221). -/
theorem placeOf_ctxAddr {q : Nat} (h : q < 65536) : placeOf (ctxAddr q) = .bank ((ctxAddr q - 0x08000000) / 0x00800000) := by
  unfold placeOf ctxAddr
  rw [if_neg (by omega), if_pos (by omega)]

/-- Hod's read of a context without an error changes nothing. -/
theorem readCtx_clean {s : State} {q : Nat} (hq : q < 65536) (h : CleanCtx s q) : (readCtx s q).1 = s := by
  obtain ⟨hecc, hpoison, -⟩ := h
  have hcheck : checkRange s 0 (ctxAddr q) 32 = s := by
    unfold checkRange
    rw [if_neg (by decide), placeOf_ctxAddr hq]
    simp [hecc]
  unfold readCtx
  split
  · rfl
  · simp [hcheck, hpoison]

/-- A bitmap word without an error is inspected without effect. -/
theorem inspectWord_clean {s : State} (h : s.qry.upsets = []) (p ix : Nat) (bitmap : Bool) : inspectWord s p ix bitmap = (s, false) := by
  simp [inspectWord, h]

/-- An access within an entry lies in its table. -/
theorem inTable_iff {t o n : Nat} :
    inTable t o n = true ↔ 4 ≤ n ∧ n ≤ 64 ∧ o + n ≤ tableSize t ∧ o % entrySize t o + n ≤ entrySize t o := by
  simp [inTable, and_assoc]

/-- The state in which a table's entry is read: an uncorrectable word of the ring is marked. -/
def entryState (s : State) (ue : Bool) (t o : Nat) : State := if ue ∧ t = 5 then updCsh s fun c => { c with bad := NSet.add c.bad (o / 64) } else s

theorem entryState_mem (s : State) (ue : Bool) (t o : Nat) : (entryState s ue t o).mem = s.mem := by
  unfold entryState
  split <;> rfl

theorem entryState_qry (s : State) (ue : Bool) (t o : Nat) : (entryState s ue t o).qry = s.qry := by
  unfold entryState
  split <;> rfl

theorem entryBytes_entryState (s : State) (ue : Bool) (t o a : Nat) : entryBytes (entryState s ue t o) t a = entryBytes s t a := by
  unfold entryState
  split
  · next h => simp [entryBytes, h.2, cshEntry, updCsh]
  · rfl

/-- A read within one entry answers the entry's bytes. -/
theorem tableRead_entry {s : State} {req : Req} {off len t o : Nat} {ue : Bool} (hoff : off < 0x1000000) (hslot : (slotOf s off).2 = (t, o))
    (ht : t ≠ 0) (hin : inTable t o len = true) (hpage : tableRefusal s t = none) (hctx : t = 1 → CleanCtx s (o / 32))
    (hqry : t = 2 → s.qry.upsets = []) :
    ∃ st, tableRead s req off len ue = (entryState s ue t (o - o % entrySize t o), st,
      ((entryBytes s t (o - o % entrySize t o)).drop (o % entrySize t o)).take len) := by
  have hread : (if t = 1 then (readCtx s ((o - o % entrySize t o) / 32)).1 else s) = s := by
    split
    · next h1 =>
      subst h1
      obtain ⟨h4, -, hsize, -⟩ := inTable_iff.1 hin
      have hq : (o - o % 32) / 32 = o / 32 := by omega
      have hlt : o / 32 < 65536 := by simp [tableSize] at hsize; omega
      exact (congrArg (fun q => (readCtx s q).1) hq).trans (readCtx_clean hlt (hctx rfl))
    · rfl
  have hinspect (p ix : Nat) : (if t = 2 then inspectWord (entryState s ue t (o - o % entrySize t o)) p ix true
      else (entryState s ue t (o - o % entrySize t o), false)) = (entryState s ue t (o - o % entrySize t o), false) := by
    split
    · next h2 =>
      refine inspectWord_clean ?_ p ix true
      rw [entryState_qry]
      exact hqry h2
    · rfl
  refine ⟨if tableEntryBad (entryState s ue t (o - o % entrySize t o)) t (o - o % entrySize t o) then MS.poison else MS.ok, ?_⟩
  unfold tableRead
  simp only [hslot, if_neg ht, hin, if_neg (Nat.not_le.2 hoff), Bool.not_true, Bool.false_eq_true, if_false, hpage, hread]
  rw [← entryState, hinspect]
  simp only [entryBytes_entryState]
  rfl

/-- A slot with TABLE 0 reads zero. -/
theorem tableRead_zero {s : State} {req : Req} {off len : Nat} {ue : Bool} (hoff : off < 0x1000000) (ht : (slotOf s off).2.1 = 0) (h4 : 4 ≤ len)
    (h64 : len ≤ 64) : tableRead s req off len ue = (s, MS.ok, List.replicate len 0) := by
  unfold tableRead
  simp [ht, h4, h64, Nat.not_le.2 hoff]

/-- An access that leaves its entry, its table or the sizes of R50 is captured and reads zero. -/
theorem tableRead_outside {s : State} {req : Req} {off len : Nat} {ue : Bool} (hoff : off < 0x1000000)
    (h : ((slotOf s off).2.1 = 0 ∧ (len < 4 ∨ 64 < len)) ∨ ((slotOf s off).2.1 ≠ 0 ∧ inTable (slotOf s off).2.1 (slotOf s off).2.2 len = false)) :
    tableRead s req off len ue = (fault s P.sys 0xF6 req 0 (some (0x41000000 + off)), MS.ok, List.replicate len 0) := by
  have hrange : (if (slotOf s off).2.1 = 0 then decide (4 ≤ len) && decide (len ≤ 64) else inTable (slotOf s off).2.1 (slotOf s off).2.2 len) = false := by
    rcases h with ⟨ht, hlen⟩ | ⟨ht, hin⟩
    · rw [if_pos ht]
      simp only [Bool.and_eq_false_iff, decide_eq_false_iff_not]
      omega
    · rw [if_neg ht, hin]
  unfold tableRead
  simp [hrange, Nat.not_le.2 hoff]

/-! Writes of the model table (R49, R51, 17 Tables). -/

theorem modelOf_updModel_self (s : State) (i : Nat) (f : Model → Model) : modelOf (updModel s i f) i = f (modelOf s i) := SMap.getD_put_self

theorem modelOf_updModel_ne {s : State} {i j : Nat} {f : Model → Model} (h : j ≠ i) : modelOf (updModel s i f) j = modelOf s j := SMap.getD_put_ne h

/-- From `s` to `u` nothing but the model table changes. -/
def OnlyModels (s u : State) : Prop := { u with dpt := { u.dpt with models := s.dpt.models } } = s

/-- What `OnlyModels` says is a frame that changes no register. -/
theorem frame_of_onlyModels {s u : State} (h : OnlyModels s u) : Frame s { u with dpt := { u.dpt with models := s.dpt.models } } [] := by
  have hback : { u with dpt := { u.dpt with models := s.dpt.models } } = s := h
  rw [hback]
  exact ⟨rfl, fun _ _ => rfl⟩

theorem onlyModels_refl (s : State) : OnlyModels s s := rfl

theorem onlyModels_updModel {s u : State} (h : OnlyModels s u) (i : Nat) (f : Model → Model) : OnlyModels s (updModel u i f) := h

/-- An allowed write puts its bytes into the software's fields of its entry. -/
theorem modelWrite_allowed {s : State} {req : Req} {i o : Nat} {bs : List Byte} (hsoft : ¬(48 ≤ o ∧ o + bs.length ≤ 58))
    (hlegal : modelLegal (modelOf s i) (putBytes (modelBytes (modelOf s i)) o bs) = true)
    (hquiet : (modelOf s i).st = 0 ∨ isQuiet s (modelOf s i).part = true)
    (hstay : ¬((modelOf s i).st = 0 ∧ field (putBytes (modelBytes (modelOf s i)) o bs) 0 1 = 1)) :
    modelWrite s req i o bs false = markModel (updModel s i fun m => modelFrom m (putBytes (modelBytes (modelOf s i)) o bs)) i bs false := by
  unfold modelWrite
  have hq : ¬((modelOf s i).st ≠ 0 ∧ (!isQuiet s (modelOf s i).part) = true) := by
    rintro ⟨hst, hno⟩
    rcases hquiet with h | h
    · exact hst h
    · simp [h] at hno
  dsimp only
  rw [if_neg hsoft, if_neg (by simp [hlegal]), if_neg hq, if_neg hstay]

/-- Poison is no field that software writes. -/
theorem modelFrom_bad (m : Model) (b : List Byte) : (modelFrom m b).bad = m.bad := rfl

/-- Clean bytes mark no entry; an entry written whole is clean. -/
theorem modelOf_markModel_self (s : State) (i : Nat) (bs : List Byte) :
    modelOf (markModel s i bs false) i = { modelOf s i with bad := (modelOf s i).bad && decide (bs.length ≠ 64) } := by
  unfold markModel
  rw [if_neg (by decide)]
  split
  · next h => rw [modelOf_updModel_self]; simp [h]
  · next h => simp [h]

theorem modelOf_markModel_ne {s : State} {i j : Nat} {bs : List Byte} (h : j ≠ i) : modelOf (markModel s i bs false) j = modelOf s j := by
  unfold markModel
  rw [if_neg (by decide)]
  split
  · exact modelOf_updModel_ne h
  · rfl

theorem onlyModels_markModel {s u : State} (h : OnlyModels s u) (i : Nat) (bs : List Byte) : OnlyModels s (markModel u i bs false) := by
  unfold markModel
  rw [if_neg (by decide)]
  split
  · exact onlyModels_updModel h _ _
  · exact h

/-- What an allowed write of the model table leaves. -/
theorem modelWrite_effect {s : State} {req : Req} {i o : Nat} {bs : List Byte} {m : Model} {b : List Byte} (hm : modelOf s i = m)
    (hb : putBytes (modelBytes m) o bs = b) (hsoft : ¬(48 ≤ o ∧ o + bs.length ≤ 58)) (hlegal : modelLegal m b = true)
    (hquiet : m.st = 0 ∨ isQuiet s m.part = true) (hstay : ¬(m.st = 0 ∧ field b 0 1 = 1)) :
    modelOf (modelWrite s req i o bs false) i = { modelFrom m b with bad := m.bad && decide (bs.length ≠ 64) }
      ∧ (∀ j, j ≠ i → modelOf (modelWrite s req i o bs false) j = modelOf s j) ∧ OnlyModels s (modelWrite s req i o bs false) := by
  subst hm hb
  rw [modelWrite_allowed hsoft hlegal hquiet hstay]
  refine ⟨?_, fun j hj => ?_, onlyModels_markModel (onlyModels_updModel (onlyModels_refl s) _ _) _ _⟩
  · rw [modelOf_markModel_self, modelOf_updModel_self, modelFrom_bad]
  · rw [modelOf_markModel_ne hj, modelOf_updModel_ne hj]

/-- A write that its table and its slot allow is the write of the model table's entry. -/
theorem tableWrite_model {s : State} {req : Req} {off o : Nat} {bs : List Byte} (hoff : off < 0x1000000) (hslot : (slotOf s off).2 = (3, o))
    (hin : inTable 3 o bs.length = true) (hperm : tableWritable s req (slotOf s off) = true) (hpage : tableRefusal s 3 = none) :
    tableWrite s req off bs false = (modelWrite s req (o / 64) (o % 64) bs false, MS.ok) := by
  unfold tableWrite
  simp [hslot, hin, hperm, hpage, Nat.not_le.2 hoff]

/-- The causes of a write that leaves its table or is not permitted, lowest first (R45). -/
def refusedCauses (range perm : Bool) : List Nat := (if range then [] else [0xF6]) ++ if perm then [] else [0xF7]

/-- A write outside its table or without permission is captured, and nothing else. -/
theorem tableWrite_refused {s : State} {req : Req} {off : Nat} {bs : List Byte} (hoff : off < 0x1000000)
    (h : inTable (slotOf s off).2.1 (slotOf s off).2.2 bs.length = false ∨ tableWritable s req (slotOf s off) = false) :
    tableWrite s req off bs false = (faults s P.sys (refusedCauses (inTable (slotOf s off).2.1 (slotOf s off).2.2 bs.length)
      (tableWritable s req (slotOf s off))) req (ofLe (bs.take 4)) (some (0x41000000 + off)), MS.ok) := by
  unfold tableWrite
  cases hin : inTable (slotOf s off).2.1 (slotOf s off).2.2 bs.length <;> cases hperm : tableWritable s req (slotOf s off)
  case true.true => simp [hin, hperm] at h
  all_goals simp [hin, hperm, Nat.not_le.2 hoff, refusedCauses, faults]

/-- The commands of the table window give what its accesses give. -/
theorem exec_tableWindowRead {s u : State} {req : Req} {off len st : Nat} {ue : Bool} {bytes : List Byte} (hup : s.boot.held = false)
    (h : tableRead s req off len ue = (u, st, bytes)) :
    exec (.tableWindowRead req off len ue) s = .next { u with readData := bytes, readSt := st } := by
  show execTableWindowRead req off len ue s = _
  unfold execTableWindowRead
  rw [if_neg (by simp [hup]), h]

theorem exec_tableWindowWrite {s u : State} {req : Req} {off st : Nat} {data : List Byte} (hup : s.boot.held = false)
    (h : tableWrite s req off data false = (u, st)) : exec (.tableWindowWrite req off data) s = .next u := by
  show execTableWindowWrite req off data s = _
  unfold execTableWindowWrite
  rw [if_neg (by simp [hup]), h]
  rfl

theorem sameBytes_of_mem {s u : State} (h : u.mem = s.mem) : SameBytes s u := fun a => congrArg (SMap.getD · a 0) h

/-- Settles O30, clause by clause: the read of an entry, of a slot without a table and outside a table; the allowed and the refused write. -/
theorem tableWindowAnswers : Obligations.TableWindowAnswers := by
  unfold Obligations.TableWindowAnswers
  intro s req off len ue data hup hoff k t o z m b
  refine ⟨fun ht hin hpage hctx hqry => ?_, fun ht h4 h64 => ?_, fun hout => ?_, fun ht hmodel hin hperm hpage hsoft hlegal hquiet hstay => ?_,
    fun hout => ?_⟩
  · obtain ⟨st, h⟩ := tableRead_entry (req := req) (ue := ue) hoff rfl ht hin hpage hctx hqry
    exact ⟨_, exec_tableWindowRead hup h, rfl, sameBytes_of_mem (entryState_mem _ _ _ _)⟩
  · exact exec_tableWindowRead hup (tableRead_zero hoff ht h4 h64)
  · have hfault := onPage_fault (pg := P.sys) (s := s) 0xF6 req 0 (some (0x41000000 + off))
    exact ⟨_, exec_tableWindowRead hup (tableRead_outside hoff hout), rfl, sameBytes_of_mem (unchanged_of_onPage hfault).1, rb_fault _ _ _ _ _ _⟩
  · have hslot : (slotOf s off).2 = (3, o) := Prod.ext ht rfl
    have hsoft' : ¬(48 ≤ o % 64 ∧ o % 64 + data.length ≤ 58) := by omega
    have h := tableWrite_model (req := req) hoff hslot (ht ▸ hin) hperm (ht ▸ hpage)
    obtain ⟨hself, hother, honly⟩ := modelWrite_effect (req := req) (m := m) (b := b) rfl rfl hsoft' hlegal hquiet hstay
    exact ⟨_, exec_tableWindowWrite hup h, hself, hother, frame_of_onlyModels honly⟩
  · have hfaults := onPage_faults s P.sys (refusedCauses (inTable t o data.length) (tableWritable s req k)) req (ofLe (data.take 4))
      (some (0x41000000 + off))
    have hne : refusedCauses (inTable t o data.length) (tableWritable s req k) ≠ [] := by
      rcases hout with h | h <;> simp [refusedCauses, h]
    obtain ⟨hmem, -, -, hdpt⟩ := unchanged_of_onPage hfaults
    exact ⟨_, exec_tableWindowWrite hup (tableWrite_refused hoff hout), sameBytes_of_mem hmem, congrArg Dispatcher.models hdpt, rb_faults hne⟩

end Sys2Proof.RegisterPages
end

section
/-! Steps: what every command and every AON cycle keeps (notes/assumptions/1.md; 03 R82, R85, R86). -/
namespace Sys2Proof.Steps
open Sys2Proof Sys2Proof.Machine Sys2Proof.Laws

/-- The supply voltage of a command is survivable, where it brings one. -/
def Survivable (c : Instr) : Prop := ∀ mv ma, c = .vinChange mv ma → -16000 ≤ mv ∧ mv ≤ 18000

/-- Every command whose supply voltage is survivable keeps the queue, the clock and the form of the memory: each is kept by the command's meaning. -/
theorem keeps_exec (s : State) (c : Instr) (hc : Survivable c) : KeepsO s (exec c s) := by
  cases c with unfold exec
  | registerWrite => exact keeps_execRegisterWrite (.refl s)
  | rcRead => exact keeps_execRcRead (.refl s)
  | evtStatusClear => exact keeps_execEvtStatusClear (.refl s)
  | evtEnableWrite => exact keeps_execEvtEnableWrite (.refl s)
  | evtForce => exact keeps_execEvtForce (.refl s)
  | enableWrite => exact keeps_execEnableWrite (.refl s)
  | softReset => exact keeps_execSoftReset (.refl s)
  | softResetDone => exact keeps_execSoftResetDone (.refl s)
  | tableWindowRead => exact keeps_execTableWindowRead (.refl s)
  | tableWindowWrite => exact keeps_execTableWindowWrite (.refl s)
  | xingTimeout => exact keeps_execXingTimeout (.refl s)
  | opPointRequest => exact keeps_execOpPointRequest (.refl s)
  | opPointStepDone => exact keeps_execOpPointStepDone (.refl s)
  | stepLate => exact keeps_execStepLate (.refl s)
  | regFault => exact keeps_execRegFault (.refl s)
  | islandFence => exact keeps_execIslandFence (.refl s)
  | aonIslCtrlWrite => exact keeps_execAonIslCtrlWrite (.refl s)
  | islandGate => exact keeps_execIslandGate (.refl s)
  | islandPowerUp => exact keeps_execIslandPowerUp (.refl s)
  | islandInitDone => exact keeps_execIslandInitDone (.refl s)
  | mortarRequestInject => exact keeps_execMortarRequestInject (.refl s)
  | mortarRequestArrive => exact keeps_execMortarRequestArrive (.refl s)
  | writeAck => exact keeps_execWriteAck (.refl s)
  | sramScrubStep => exact keeps_execSramScrubStep (.refl s)
  | supplyLow => exact keeps_execSupplyLow (.refl s)
  | pinReset => exact keeps_execPinReset (.refl s)
  | bootResetReq => exact keeps_execBootResetReq (.refl s)
  | imageSelect => exact keeps_execImageSelect (.refl s)
  | manifestCheck => exact keeps_execManifestCheck (.refl s)
  | dramTraining => exact keeps_execDramTraining (.refl s)
  | linkUp => exact keeps_execLinkUp (.refl s)
  | endpointReset => exact keeps_execEndpointReset (.refl s)
  | configRequest => exact keeps_execConfigRequest (.refl s)
  | inboundReadTlp => exact keeps_execInboundReadTlp (.refl s)
  | inboundWriteTlp => exact keeps_execInboundWriteTlp (.refl s)
  | inboundUnsupportedTlp => exact keeps_execInboundUnsupportedTlp (.refl s)
  | disabledVfRequest => exact keeps_execDisabledVfRequest (.refl s)
  | hwinRequest => exact keeps_execHwinRequest (.refl s)
  | completionArrive => exact keeps_execCompletionArrive (.refl s)
  | cplTimeout => exact keeps_execCplTimeout (.refl s)
  | msixUnmask => exact keeps_execMsixUnmask (.refl s)
  | functionSendResume => exact keeps_execFunctionSendResume (.refl s)
  | vfFlr => exact keeps_execVfFlr (.refl s)
  | flrDone => exact keeps_execFlrDone (.refl s)
  | powerStateChange => exact keeps_execPowerStateChange (.refl s)
  | dramRequestAccept => exact keeps_execDramRequestAccept (.refl s)
  | dramRead => exact keeps_execDramRead (.refl s)
  | dramWrite => exact keeps_execDramWrite (.refl s)
  | requestAge => exact keeps_execRequestAge (.refl s)
  | rowActivate => exact keeps_execRowActivate (.refl s)
  | mitigationIssue => exact keeps_execMitigationIssue (.refl s)
  | actTableClear => exact keeps_execActTableClear (.refl s)
  | throttleWindowEnd => exact keeps_execThrottleWindowEnd (.refl s)
  | refreshTick => exact keeps_execRefreshTick (.refl s)
  | refreshIssue => exact keeps_execRefreshIssue (.refl s)
  | refreshPullin => exact keeps_execRefreshPullin (.refl s)
  | mr4Poll => exact keeps_execMr4Poll (.refl s)
  | powerDownEntry => exact keeps_execPowerDownEntry (.refl s)
  | retrainPause => exact keeps_execRetrainPause (.refl s)
  | retrainForce => exact keeps_execRetrainForce (.refl s)
  | retrainWindow => exact keeps_execRetrainWindow (.refl s)
  | dramAlert => exact keeps_execDramAlert (.refl s)
  | alertRecovery => exact keeps_execAlertRecovery (.refl s)
  | retryEntryRetire => exact keeps_execRetryEntryRetire (.refl s)
  | dramPatrolScrub => exact keeps_execDramPatrolScrub (.refl s)
  | queueEnable => exact keeps_execQueueEnable (.refl s)
  | queueDisable => exact keeps_execQueueDisable (.refl s)
  | queueDisableDone => exact keeps_execQueueDisableDone (.refl s)
  | devicePush => exact keeps_execDevicePush (.refl s)
  | pushCommit => exact keeps_execPushCommit (.refl s)
  | triggerPush => exact keeps_execTriggerPush (.refl s)
  | devicePop => exact keeps_execDevicePop (.refl s)
  | doorbellPushed => exact keeps_execDoorbellPushed (.refl s)
  | doorbellPopped => exact keeps_execDoorbellPopped (.refl s)
  | doorbellAck => exact keeps_execDoorbellAck (.refl s)
  | copyDescriptor => exact keeps_execCopyDescriptor (.refl s)
  | fillDescriptor => exact keeps_execFillDescriptor (.refl s)
  | copyComplete => exact keeps_execCopyComplete (.refl s)
  | cqPushRetry => exact keeps_execCqPushRetry (.refl s)
  | allocate => exact keeps_execAllocate (.refl s)
  | free => exact keeps_execFree (.refl s)
  | reclaim => exact keeps_execReclaim (.refl s)
  | reclaimDone => exact keeps_execReclaimDone (.refl s)
  | csiFrameStart => exact keeps_execCsiFrameStart (.refl s)
  | csiFirstLine => exact keeps_execCsiFirstLine (.refl s)
  | csiLine => exact keeps_execCsiLine (.refl s)
  | csiFrameEnd => exact keeps_execCsiFrameEnd (.refl s)
  | frameTrigger => exact keeps_execFrameTrigger (.refl s)
  | csiDeskewDone => exact keeps_execCsiDeskewDone (.refl s)
  | ethFrameReceive => exact keeps_execEthFrameReceive (.refl s)
  | avtpPacket => exact keeps_execAvtpPacket (.refl s)
  | ptpRx => exact keeps_execPtpRx (.refl s)
  | ptpTxSend => exact keeps_execPtpTxSend (.refl s)
  | ptpTxDone => exact keeps_execPtpTxDone (.refl s)
  | hostPushDesc => exact keeps_execHostPushDesc (.refl s)
  | hostPushReadDone => exact keeps_execHostPushReadDone (.refl s)
  | streamStall => exact keeps_execStreamStall (.refl s)
  | devEngineSelect => exact keeps_execDevEngineSelect (.refl s)
  | devDecodeDone => exact keeps_execDevDecodeDone (.refl s)
  | devPictureOutput => exact keeps_execDevPictureOutput (.refl s)
  | devOutputFlush => exact keeps_execDevOutputFlush (.refl s)
  | devResyncDone => exact keeps_execDevResyncDone (.refl s)
  | enlEngineSelect => exact keeps_execEnlEngineSelect (.refl s)
  | enlTileEnd => exact keeps_execEnlTileEnd (.refl s)
  | enlSampleComplete => exact keeps_execEnlSampleComplete (.refl s)
  | eslLaneRequest => exact keeps_execEslLaneRequest (.refl s)
  | fillTimer => exact keeps_execFillTimer (.refl s)
  | eslBatchRelease => exact keeps_execEslBatchRelease (.refl s)
  | eslBatchTrigger => exact keeps_execEslBatchTrigger (.refl s)
  | jobStart => exact keeps_execJobStart (.refl s)
  | preemptionPoint => exact keeps_execPreemptionPoint (.refl s)
  | itemArrive => exact keeps_execItemArrive (.refl s)
  | stallTimeout => exact keeps_execStallTimeout (.refl s)
  | ppLate => exact keeps_execPpLate (.refl s)
  | jobEnd => exact keeps_execJobEnd (.refl s)
  | jobAbort => exact keeps_execJobAbort (.refl s)
  | arrayCommandComplete => exact keeps_execArrayCommandComplete (.refl s)
  | moverPieceResponse => exact keeps_execMoverPieceResponse (.refl s)
  | loopEndEvaluate => exact keeps_execLoopEndEvaluate (.refl s)
  | addSubAndOrXorSllSrlSra => exact keeps_execAddSubAndOrXorSllSrlSra (.refl s)
  | sltSltu => exact keeps_execSltSltu (.refl s)
  | minMaxMinuMaxu => exact keeps_execMinMaxMinuMaxu (.refl s)
  | addsSubs => exact keeps_execAddsSubs (.refl s)
  | mul => exact keeps_execMul (.refl s)
  | mulhMulhu => exact keeps_execMulhMulhu (.refl s)
  | divDivuRemRemu => exact keeps_execDivDivuRemRemu (.refl s)
  | clzPopc => exact keeps_execClzPopc (.refl s)
  | cmpeqCmpneCmpltCmpltuCmpgeCmpgeu => exact keeps_execCmpeqCmpneCmpltCmpltuCmpgeCmpgeu (.refl s)
  | pandPorPxorPandn => exact keeps_execPandPorPxorPandn (.refl s)
  | pmovx => exact keeps_execPmovx (.refl s)
  | xmovp => exact keeps_execXmovp (.refl s)
  | faddFsubFmulFdivFminFmax => exact keeps_execFaddFsubFmulFdivFminFmax (.refl s)
  | fsqrt => exact keeps_execFsqrt (.refl s)
  | fcvtif => exact keeps_execFcvtif (.refl s)
  | fcvtfi => exact keeps_execFcvtfi (.refl s)
  | fcmpltFcmpeq => exact keeps_execFcmpltFcmpeq (.refl s)
  | ldbLdbuLdhLdhuLdwLdwuLdd => exact keeps_execLdbLdbuLdhLdhuLdwLdwuLdd (.refl s)
  | stbSthStwStd => exact keeps_execStbSthStwStd (.refl s)
  | br => exact keeps_execBr (.refl s)
  | jal => exact keeps_execJal (.refl s)
  | jr => exact keeps_execJr (.refl s)
  | loop => exact keeps_execLoop (.refl s)
  | lclr => exact keeps_execLclr (.refl s)
  | lrd => exact keeps_execLrd (.refl s)
  | endjob => exact keeps_execEndjob (.refl s)
  | fence => exact keeps_execFence (.refl s)
  | mwait => exact keeps_execMwait (.refl s)
  | await => exact keeps_execAwait (.refl s)
  | rdstat => exact keeps_execRdstat (.refl s)
  | clrstat => exact keeps_execClrstat (.refl s)
  | hpush => exact keeps_execHpush (.refl s)
  | hpop => exact keeps_execHpop (.refl s)
  | hpeek => exact keeps_execHpeek (.refl s)
  | qalloc => exact keeps_execQalloc (.refl s)
  | qfree => exact keeps_execQfree (.refl s)
  | svc => exact keeps_execSvc (.refl s)
  | load => exact keeps_execLoad (.refl s)
  | store => exact keeps_execStore (.refl s)
  | copy => exact keeps_execCopy (.refl s)
  | gather => exact keeps_execGather (.refl s)
  | fill => exact keeps_execFill (.refl s)
  | mma => exact keeps_execMma (.refl s)
  | drain => exact keeps_execDrain (.refl s)
  | aclr => exact keeps_execAclr (.refl s)
  | vld => exact keeps_execVld (.refl s)
  | vst => exact keeps_execVst (.refl s)
  | vbcast => exact keeps_execVbcast (.refl s)
  | vmov => exact keeps_execVmov (.refl s)
  | vaddVsub => exact keeps_execVaddVsub (.refl s)
  | vmul => exact keeps_execVmul (.refl s)
  | vmulh => exact keeps_execVmulh (.refl s)
  | vmac => exact keeps_execVmac (.refl s)
  | vminVmax => exact keeps_execVminVmax (.refl s)
  | vabsVneg => exact keeps_execVabsVneg (.refl s)
  | vandVorVxor => exact keeps_execVandVorVxor (.refl s)
  | vshlVshr => exact keeps_execVshlVshr (.refl s)
  | vshrr => exact keeps_execVshrr (.refl s)
  | vcmpeqVcmpltVcmple => exact keeps_execVcmpeqVcmpltVcmple (.refl s)
  | vsel => exact keeps_execVsel (.refl s)
  | vcvt => exact keeps_execVcvt (.refl s)
  | vrmax => exact keeps_execVrmax (.refl s)
  | vrsum => exact keeps_execVrsum (.refl s)
  | vpool => exact keeps_execVpool (.refl s)
  | vqrow => exact keeps_execVqrow (.refl s)
  | vrcpVrsqrtVexp => exact keeps_execVrcpVrsqrtVexp (.refl s)
  | vshuf => exact keeps_execVshuf (.refl s)
  | dispatchNormal => exact keeps_execDispatchNormal (.refl s)
  | partitionQuiesced => exact keeps_execPartitionQuiesced (.refl s)
  | deadlinePass => exact keeps_execDeadlinePass (.refl s)
  | windowGrant => exact keeps_execWindowGrant (.refl s)
  | sensorSample => exact keeps_execSensorSample (.refl s)
  | periodBoundary => exact keeps_execPeriodBoundary (.refl s)
  | planAccept => exact keeps_execPlanAccept (.refl s)
  | planAbandon => exact keeps_execPlanAbandon (.refl s)
  | keySolve => exact keeps_execKeySolve (.refl s)
  | keySetup => exact keeps_execKeySetup (.refl s)
  | keySegmentEnd => exact keeps_execKeySegmentEnd (.refl s)
  | keyPfSubmit => exact keeps_execKeyPfSubmit (.refl s)
  | loadBasis => exact keeps_execLoadBasis (.refl s)
  | loadModulus => exact keeps_execLoadModulus (.refl s)
  | sflMul => exact keeps_execSflMul (.refl s)
  | sflAdd => exact keeps_execSflAdd (.refl s)
  | sflSub => exact keeps_execSflSub (.refl s)
  | muladd => exact keeps_execMuladd (.refl s)
  | mask => exact keeps_execMask (.refl s)
  | ntt => exact keeps_execNtt (.refl s)
  | intt => exact keeps_execIntt (.refl s)
  | auto => exact keeps_execAuto (.refl s)
  | baseExt => exact keeps_execBaseExt (.refl s)
  | lmul => exact keeps_execLmul (.refl s)
  | ladd => exact keeps_execLadd (.refl s)
  | vaultImport => exact keeps_execVaultImport (.refl s)
  | sflOperationEnd => exact keeps_execSflOperationEnd (.refl s)
  | sflPfSubmit => exact keeps_execSflPfSubmit (.refl s)
  | micBlock => exact keeps_execMicBlock (.refl s)
  | micStuck => exact keeps_execMicStuck (.refl s)
  | tdmInLost => exact keeps_execTdmInLost (.refl s)
  | tdmInRelock => exact keeps_execTdmInRelock (.refl s)
  | tdmOutFrame => exact keeps_execTdmOutFrame (.refl s)
  | alertEntryPop => exact keeps_execAlertEntryPop (.refl s)
  | ampLatch => exact keeps_execAmpLatch (.refl s)
  | ampIdlePulse => exact keeps_execAmpIdlePulse (.refl s)
  | ampRetry => exact keeps_execAmpRetry (.refl s)
  | ampDiagWrite => exact keeps_execAmpDiagWrite (.refl s)
  | cshOccurrence => exact keeps_execCshOccurrence (.refl s)
  | cshSwRecord => exact keeps_execCshSwRecord (.refl s)
  | fltFaultArrive => exact keeps_execFltFaultArrive (.refl s)
  | vinChange mv ma =>
    obtain ⟨hlo, hhi⟩ := hc mv ma rfl
    exact keeps_execVinChange (by omega) (.refl s)
  | orderlyShutdown => exact keeps_execOrderlyShutdown (.refl s)
  | moduleStart => exact keeps_execModuleStart (.refl s)
  | heartbeat => exact keeps_execHeartbeat (.refl s)
  | hostLost => exact keeps_execHostLost (.refl s)
  | coolantUpdate => exact keeps_execCoolantUpdate (.refl s)
  | vehicle => exact keeps_execVehicle (.refl s)
  | mgmtWrite => exact keeps_execMgmtWrite (.refl s)
  | mgmtRead => exact keeps_execMgmtRead (.refl s)
  | extest => exact keeps_execExtest (.refl s)
  | samplePreload => exact keeps_execSamplePreload (.refl s)
  | regReturn => exact keeps_execRegReturn (.refl s)
  | micStuckClear => exact keeps_execMicStuckClear (.refl s)
  | ethLinkChange => exact keeps_execEthLinkChange (.refl s)
  | csiIgnoredPacket => exact keeps_execCsiIgnoredPacket (.refl s)
  | mailboxWrite => exact keeps_execMailboxWrite (.refl s)
  | supplyRamp => exact keeps_execSupplyRamp (.refl s)
  | brownout => exact keeps_execBrownout (.refl s)
  | resetRelease => exact keeps_execResetRelease (.refl s)
  | islandBringup => exact keeps_execIslandBringup (.refl s)
  | localModelHash => exact keeps_execLocalModelHash (.refl s)
  | bootEnable => exact keeps_execBootEnable (.refl s)
  | streamEnable => exact keeps_execStreamEnable (.refl s)
  | directoryWriteDone => exact keeps_execDirectoryWriteDone (.refl s)
  | flashDone => exact keeps_execFlashDone (.refl s)
  | flashTimeout => exact keeps_execFlashTimeout (.refl s)
  | otpDone => exact keeps_execOtpDone (.refl s)
  | linkTrain => exact keeps_execLinkTrain (.refl s)
  | tagWaitIssue => exact keeps_execTagWaitIssue (.refl s)
  | postedWriteSent => exact keeps_execPostedWriteSent (.refl s)
  | pfFlr => exact keeps_execPfFlr (.refl s)
  | l1Entry => exact keeps_execL1Entry (.refl s)
  | layoutReady => exact keeps_execLayoutReady (.refl s)
  | tbHoldover => exact keeps_execTbHoldover (.refl s)
  | eslAudioWindow => exact keeps_execEslAudioWindow (.refl s)
  | dispatchUrgent => exact keeps_execDispatchUrgent (.refl s)
  | clampRelease => exact keeps_execClampRelease (.refl s)
  | keyRelease => exact keeps_execKeyRelease (.refl s)
  | vaultClear => exact keeps_execVaultClear (.refl s)
  | micBlockHandoff => exact keeps_execMicBlockHandoff (.refl s)
  | alertHoldExpire => exact keeps_execAlertHoldExpire (.refl s)
  | seamCheckDone => exact keeps_execSeamCheckDone (.refl s)
  | seamVotesDone => exact keeps_execSeamVotesDone (.refl s)
  | seamCommit => exact keeps_execSeamCommit (.refl s)
  | seamTimeout => exact keeps_execSeamTimeout (.refl s)
  | cshAccept => exact keeps_execCshAccept (.refl s)
  | cshRecordWrite => exact keeps_execCshRecordWrite (.refl s)
  | cshSnapshot => exact keeps_execCshSnapshot (.refl s)
  | cshExtCopy => exact keeps_execCshExtCopy (.refl s)
  | injectionExpire => exact keeps_execInjectionExpire (.refl s)
  | vinRangeTimeout => exact keeps_execVinRangeTimeout (.refl s)
  | railFault => exact keeps_execRailFault (.refl s)
  | lockstepMismatch => exact keeps_execLockstepMismatch (.refl s)
  | thermalTripOff => exact keeps_execThermalTripOff (.refl s)
  | tripRestart => exact keeps_execTripRestart (.refl s)
  | fypSafetySample => exact keeps_execFypSafetySample (.refl s)
  | fabLost => exact keeps_execFabLost (.refl s)
  | ledgerDeliver => exact keeps_execLedgerDeliver (.refl s)
  | ledgerUpdate => exact keeps_execLedgerUpdate (.refl s)
  | ledgerTimeout => exact keeps_execLedgerTimeout (.refl s)
  | wakeTimeout => exact keeps_execWakeTimeout (.refl s)
  | alertFrame => exact keeps_execAlertFrame (.refl s)
  | statusFrame => exact keeps_execStatusFrame (.refl s)
  | degradedFrame => exact keeps_execDegradedFrame (.refl s)
  | vehicleTimeout => exact keeps_execVehicleTimeout (.refl s)
  | idcode => exact keeps_execIdcode (.refl s)
  | bypass => exact keeps_execBypass (.refl s)
  | lockstepResetDone => exact keeps_execLockstepResetDone (.refl s)
  | tapReset => exact keeps_execTapReset (.refl s)
  | lockSet => exact keeps_execLockSet (.refl s)
  | bootConfirm => exact keeps_execBootConfirm (.refl s)
  | flashRead => exact keeps_execFlashRead (.refl s)
  | flashProgram => exact keeps_execFlashProgram (.refl s)
  | flashErase => exact keeps_execFlashErase (.refl s)
  | flashInstall => exact keeps_execFlashInstall (.refl s)
  | advanceRollback => exact keeps_execAdvanceRollback (.refl s)
  | revokeKey => exact keeps_execRevokeKey (.refl s)
  | retire => exact keeps_execRetire (.refl s)
  | ptpRxPop => exact keeps_execPtpRxPop (.refl s)
  | tbStep => exact keeps_execTbStep (.refl s)
  | tbSlew => exact keeps_execTbSlew (.refl s)
  | tbRate => exact keeps_execTbRate (.refl s)
  | tbServoLocked => exact keeps_execTbServoLocked (.refl s)
  | devResync => exact keeps_execDevResync (.refl s)
  | partitionQuiesce => exact keeps_execPartitionQuiesce (.refl s)
  | ampClear => exact keeps_execAmpClear (.refl s)
  | prepare => exact keeps_execPrepare (.refl s)
  | abort => exact keeps_execAbort (.refl s)
  | discard => exact keeps_execDiscard (.refl s)
  | cshExtEnable => exact keeps_execCshExtEnable (.refl s)
  | safeStatusClear => exact keeps_execSafeStatusClear (.refl s)
  | clearLast => exact keeps_execClearLast (.refl s)
  | sramCe => exact keeps_execSramCe (.refl s)
  | sramUe => exact keeps_execSramUe (.refl s)
  | pair => exact keeps_execPair (.refl s)
  | csiCrc => exact keeps_execCsiCrc (.refl s)
  | dramCa => exact keeps_execDramCa (.refl s)
  | dramCrc => exact keeps_execDramCrc (.refl s)
  | delay => exact keeps_execDelay (.refl s)
  | holdRead => exact keeps_execHoldRead (.refl s)
  | temp => exact keeps_execTemp (.refl s)
  | tripTest => exact keeps_execTripTest (.refl s)
  | restart => exact keeps_execRestart (.refl s)
  | serviceBoot => exact keeps_execServiceBoot (.refl s)
  | shutdown => exact keeps_execShutdown (.refl s)
  | ledgerClear => exact keeps_execLedgerClear (.refl s)
  | canSet => exact keeps_execCanSet (.refl s)

/-- Outside the range in which the module survives a command answers no next state. -/
theorem exec_not_survivable {c : Instr} (s : State) (h : ¬Survivable c) : exec c s = .fault .vinOutsideSurvival := by
  unfold Survivable at h
  push Not at h
  obtain ⟨mv, ma, rfl, hmv⟩ := h
  exact if_pos (by omega)

theorem keeps_of_exec_next {c : Instr} {s t : State} (h : exec c s = .next t) : Keeps s t := by
  by_cases hc : Survivable c
  · obtain ⟨u, hu, hk⟩ := keeps_exec s c hc
    rw [h] at hu
    cases hu
    exact hk
  · rw [exec_not_survivable s hc] at h
    cases h

/-- An AON cycle keeps what a command keeps, but for the clock, which it advances. -/
theorem keeps_tick (s : State) : Keeps { s with clock := s.clock + 1 } (tick s) := by
  unfold tick
  refine .ite (.refl _) (keeps_settle (.foldl (fun _ _ h => keeps_coreTick h) ?_))
  exact .update (.refl _)

/-- Settles O4: a command keeps the form of the memory, and so does an AON cycle. -/
theorem stepKeepsMemoryCanonical : Obligations.StepKeepsMemoryCanonical := by
  unfold Obligations.StepKeepsMemoryCanonical
  intro s t hmem hstep
  unfold step at hstep
  split at hstep
  · cases hstep
    exact (keeps_tick s).mem hmem
  · exact (keeps_of_exec_next hstep).mem hmem

/-- Settles O2: an empty queue stays as it is in the cycle that passes. -/
theorem emptyQueueLetsOneCyclePass : Obligations.EmptyQueueLetsOneCyclePass := by
  unfold Obligations.EmptyQueueLetsOneCyclePass
  intro s hq
  have hk := keeps_tick s
  refine ⟨tick s, ?_, hk.pending.trans hq, hk.clock⟩
  unfold step
  rw [hq]

end Sys2Proof.Steps
end

section
/-! Islands: the operating points that are asked of them and the end of a step (R54, R64 to R66). -/
namespace Sys2Proof.Islands
open Sys2Proof Sys2Proof.Machine Sys2Proof.Laws Sys2Proof.Claims

/-! An island, and the state with one island changed. -/

theorem island_updIsl_self {s : State} {n : Nat} (h : n < s.isl.length) (f : Island → Island) : island (updIsl s n f) n = f (island s n) := by
  unfold island updIsl nth updAt
  simp [h]

/-- A state that differs from `s` in its islands alone is within every frame. -/
theorem frame_of_isl {s t : State} (h : { t with isl := s.isl } = s) (ps : List Nat) : Frame s { t with isl := s.isl } ps := by
  rw [h]
  exact ⟨rfl, fun _ _ => rfl⟩

theorem frame_updIsl (s : State) (n : Nat) (f : Island → Island) (ps : List Nat) : Frame s { updIsl s n f with isl := s.isl } ps := frame_of_isl rfl ps

/-- Whether an island is fenced, and its step in progress. -/
def fenceView (i : Island) : Bool × Option Point := (i.fenced, i.step)

/-- What every island shows of its fence and its step. -/
def fences (s : State) : List (Bool × Option Point) := s.isl.map fenceView

@[simp] theorem fences_wake (s : State) (n : Nat) : fences (wake s n) = fences s := by
  unfold fences wake updAt
  split
  · refine List.ext_getElem? fun k => ?_
    simp only [List.getElem?_map, List.getElem?_modify]
    cases s.isl[k]? with
    | none => rfl
    | some i => by_cases h : n = k <;> simp [h, fenceView]
  · rfl

/-- An island that stays powered changes as its function gives, and loses nothing. -/
theorem changePower_powered {s : State} {n : Nat} {f : Island → Island} (h : n < s.isl.length) (hst : (f (island s n)).st ≠ .off) :
    changePower s n f = updIsl s n f := by
  unfold changePower changeIsland
  rw [if_neg fun hoff => hst hoff.2]
  dsimp only
  rw [island_updIsl_self h, if_neg fun hoff => hst hoff.2]

/-! A point that is asked (R64, R65). -/

/-- What a granted point does to its island at AON cycle `now`. -/
def pointAsked (now : Nat) (p : Point) (i : Island) : Island :=
  if !i.live then i
  else if i.step.isSome then { i with nextPoint := some p }
  else if p = i.point then i
  else { i with step := some p, stepAt := now, late := false }

theorem requestPoint_group {s : State} {n g : Nat} {p : Point} (hg : islandGroup n = some g) (hp : p ∈ grpPoints g) :
    requestPoint s n p = updIsl s n (pointAsked s.clock p) := by
  have hc : (grpPoints g).contains p = true := List.contains_iff_mem.2 hp
  unfold requestPoint
  rw [hg]
  simp only [hc]
  rfl

theorem exec_opPointRequest_granted {s : State} {n f v g : Nat} (hg : islandGroup n = some g) (hp : (⟨f, v⟩ : Point) ∈ grpPoints g)
    (hgrant : pointGranted s n g ⟨f, v⟩ = true) : exec (.opPointRequest n f v) s = .next (updIsl s n (pointAsked s.clock ⟨f, v⟩)) := by
  show execOpPointRequest n f v s = _
  unfold execOpPointRequest
  rw [hg]
  dsimp only
  rw [if_pos hgrant, requestPoint_group hg hp]

theorem exec_opPointRequest_no_occasion {s : State} {n f v : Nat} (h : ∀ g, islandGroup n = some g → pointGranted s n g ⟨f, v⟩ = false) :
    exec (.opPointRequest n f v) s = .next s := by
  show execOpPointRequest n f v s = _
  unfold execOpPointRequest
  split
  · rfl
  · next g hg => simp [h g hg]

theorem pointAsked_in_step {now : Nat} {p q : Point} {i : Island} (hl : i.live = true) (h : i.step = some q) :
    pointAsked now p i = { i with nextPoint := some p } := by
  simp [pointAsked, hl, h]

theorem pointAsked_reached {now : Nat} {p : Point} {i : Island} (h : i.step = none) (hp : i.point = p) : pointAsked now p i = i := by
  simp [pointAsked, h, hp]

theorem pointAsked_starts {now : Nat} {p : Point} {i : Island} (hl : i.live = true) (h : i.step = none) (hp : i.point ≠ p) :
    pointAsked now p i = { i with step := some p, stepAt := now, late := false } := by
  simp [pointAsked, hl, h, hp.symm]

/-! The end of a step (R65, R66). -/

/-- The island at the point that its step has reached. -/
def arrived (p : Point) (i : Island) : Island := { i with point := p, step := none, late := false, nextPoint := none }

theorem stepDone_point {now : Nat} {may : IslState → Bool} {i : Island} {p q : Point} (hs : i.step = some p) (he : i.excursion = false)
    (hw : i.nextState = none) (hq : i.nextPoint = some q) :
    stepDone now may i = if q = p then arrived p i else { arrived p i with step := some q, stepAt := now } := by
  by_cases h : q = p <;> simp [stepDone, arrived, Option.filter, hs, he, hw, hq, h]

theorem stepDone_alone {now : Nat} {may : IslState → Bool} {i : Island} {p : Point} (hs : i.step = some p) (he : i.excursion = false)
    (hw : i.nextState = none) (hq : i.nextPoint = none) : stepDone now may i = arrived p i := by
  simp [stepDone, arrived, hs, he, hw, hq]

theorem stepDone_state {now : Nat} {may : IslState → Bool} {i : Island} {p : Point} {w : IslState} (hs : i.step = some p) (he : i.excursion = false)
    (hw : i.nextState = some w) (hq : i.nextPoint = none) (hm : may w = true) : stepDone now may i = enterState (arrived p i) w := by
  simp [stepDone, arrived, hs, he, hw, hq, hm]

theorem enterState_powered {i : Island} {w : IslState} (h : w ≠ .off) : enterState i w = { i with st := w, nextState := none } := by
  cases w with
  | off => exact absurd rfl h
  | retain | gated | on => rfl

/-- The end of a step, where its island stays powered. -/
theorem runs_opPointStepDone {s : State} {n : Nat} {i : Island} {P : State → Prop} (h : n < s.isl.length)
    (hi : stepDone s.clock (fun t => mayEnter s n t && (decide (t = .off) || islandIdle s n)) (island s n) = i) (hst : i.st ≠ .off)
    (hP : ∀ t, island t n = i → Frame s { t with isl := s.isl } [] → P t) : Runs (.opPointStepDone n) s P := by
  subst hi
  refine ⟨_, ?_, hP _ (island_updIsl_self h _) (frame_updIsl s n _ [])⟩
  show execOpPointStepDone n s = _
  unfold execOpPointStepDone
  rw [changePower_powered h hst]

/-- Settles O31, clause by clause: the point asked in a step, the one reached, another; the requests without occasion; the end of a step with a point, nothing,
or a state change waiting. -/
theorem operatingPointRequests : Obligations.OperatingPointRequests := by
  unfold Obligations.OperatingPointRequests
  intro s n f v hn
  refine ⟨fun g hg hp hgrant hl => ?_, exec_opPointRequest_no_occasion, fun p q hst hs he hw hq => ?_, fun p hst hs he hw hq => ?_,
    fun p w hst hs he hw hoff hmay hidle hq => ?_⟩
  · have hruns {i : Island} (hi : pointAsked s.clock ⟨f, v⟩ (island s n) = i) :
        Runs (.opPointRequest n f v) s fun t => island t n = i ∧ Frame s { t with isl := s.isl } [] :=
      ⟨_, exec_opPointRequest_granted hg hp hgrant, (island_updIsl_self hn _).trans hi, frame_updIsl s n _ []⟩
    exact ⟨fun q hs => hruns (pointAsked_in_step hl hs), fun hs hpt => hruns (pointAsked_reached hs hpt),
      fun hs hpt => hruns (pointAsked_starts hl hs hpt)⟩
  · refine runs_opPointStepDone hn (stepDone_point hs he hw hq) ?_ fun t hi hf => ?_
    · split <;> exact hst
    · rw [hi]
      by_cases h : q = p <;> simp [h, arrived, hf]
  · exact runs_opPointStepDone hn (stepDone_alone hs he hw hq) hst fun t hi hf => by simp [hi, arrived, hf]
  · have hdone := stepDone_state (now := s.clock) (may := fun t => mayEnter s n t && (decide (t = .off) || islandIdle s n)) hs he hw hq
      (by simp [hmay, hidle])
    rw [enterState_powered hoff] at hdone
    exact runs_opPointStepDone hn hdone hoff fun t hi hf => by simp [hi, arrived, hf]

end Sys2Proof.Islands
end

section
/-! The mesh: requests that are presented at a stop (R72, R74, R83, R84, R792). -/
namespace Sys2Proof.Mesh
open Sys2Proof Sys2Proof.Machine Sys2Proof.Laws Sys2Proof.Claims Sys2Proof.RegisterPages

/-- What changes nothing but a page and messages is within the frame of that page. -/
theorem frame_of_onPage {pg : Nat} {s u : State} (h : OnPage pg s u) : Frame s u [pg] := by
  refine ⟨?_, fun off ho => h.regs off fun e => ho (List.mem_singleton.2 e)⟩
  have hback : back s u = back s { s with
      regs := u.regs, fypSignals := u.fypSignals, toFlt := u.toFlt, toCsh := u.toCsh,
      pci := { s.pci with sent := u.pci.sent, funcs := u.pci.funcs, l1 := u.pci.l1, writes := u.pci.writes } } := congrArg (back s) h.rest
  exact hback

/-- The number of bytes of a request. -/
def requestBytes (len : Nat) (data : Option (List Byte)) : Nat := match data with | some bs => bs.length | none => len

/-- The packet of a request that is presented at a stop. -/
def presented (s : State) (req : Req) (src port : Nat) (chan : Chan) (addr len : Nat) (data : Option (List Byte)) (bad : List (Nat × Nat))
    (cls : Option Nat) : Packet :=
  { id := s.mortar.nextId, req := req, src := src, port := port % 2, chan := channelFor s req src (port % 2) chan, addr := addr,
    len := requestBytes len data, data := data, bad := bad, cls := classFor s req cls }

section
variable {s : State} {req : Req} {src port : Nat} {chan : Chan} {addr len : Nat} {data : Option (List Byte)} {bad : List (Nat × Nat)} {cls : Option Nat}

/-- A request that its stop accepts goes into flight. -/
theorem exec_inject_accepted (hrun : islandRuns s 2 = true) (hsrc : src < 24)
    (h : injectRefusal s (channelFor s req src (port % 2) chan) addr (requestBytes len data) = none) :
    exec (.mortarRequestInject req src port chan addr len data bad cls) s =
      .next (updMortar s fun m => { m with
        nextId := m.nextId + 1,
        flight := m.flight ++ [presented s req src port chan addr len data bad cls] }) := by
  show execMortarRequestInject req src port chan addr len data bad cls s = _
  unfold execMortarRequestInject
  rw [if_neg (by simp [hrun, hsrc])]
  change (match injectRefusal s (channelFor s req src (port % 2) chan) addr (requestBytes len data) with | some (st, cause) => _ | none => _) = _
  rw [h]
  rfl

/-- A request that its stop refuses is captured and answered. -/
theorem exec_inject_refused {st cause : Nat} (hrun : islandRuns s 2 = true) (hsrc : src < 24)
    (h : injectRefusal s (channelFor s req src (port % 2) chan) addr (requestBytes len data) = some (st, cause)) :
    exec (.mortarRequestInject req src port chan addr len data bad cls) s =
      .next (respond (fault (updMortar s fun m => { m with nextId := m.nextId + 1 }) P.mtr cause req
        ((if cause = 5 then 0 else min (requestBytes len data) 1023) + src * 1024) (some addr)) { id := s.mortar.nextId, status := st }) := by
  show execMortarRequestInject req src port chan addr len data bad cls s = _
  unfold execMortarRequestInject
  rw [if_neg (by simp [hrun, hsrc])]
  change (match injectRefusal s (channelFor s req src (port % 2) chan) addr (requestBytes len data) with | some (st, cause) => _ | none => _) = _
  rw [h]
  rfl
end

/-- Settles O33: the request that its stop accepts, and the one that it refuses. -/
theorem mortarInjection : Obligations.MortarInjection := by
  unfold Obligations.MortarInjection
  intro s req src port chan addr len data bad cls n c p hrun hsrc
  refine ⟨fun h => ⟨_, exec_inject_accepted hrun hsrc h, rfl, rfl, fun _ _ => rfl⟩, fun st cause h => ⟨_, exec_inject_refused hrun hsrc h, ?_⟩⟩
  obtain ⟨hmem, -, hmortar, -⟩ := unchanged_of_onPage (onPage_fault (pg := P.mtr) (s := updMortar s fun m => { m with nextId := m.nextId + 1 }) cause req
    ((if cause = 5 then 0 else min n 1023) + src * 1024) (some addr))
  exact ⟨(congrArg Mortar.flight hmortar :), congrArg (List.cons _) (congrArg Mortar.responses hmortar :), sameBytes_of_mem hmem, rb_fault _ _ _ _ _ _⟩

end Sys2Proof.Mesh
end

section
/-! SRAM at a request: what a check, a wake and a store leave unchanged (R60, R87 to R91, R791). -/
namespace Sys2Proof.Mesh
open Sys2Proof Sys2Proof.Machine Sys2Proof.Laws Sys2Proof.Claims Sys2Proof.RegisterPages Sys2Proof.Islands

/-- From `s` to `t` nothing changes but registers, messages, the power states of islands, poison and the stored bit errors. -/
structure Checks (s t : State) : Prop where
  rest : t = { s with
    regs := t.regs, fypSignals := t.fypSignals, toFlt := t.toFlt, toCsh := t.toCsh, isl := t.isl, poison := t.poison, eccErr := t.eccErr,
    dram := { s.dram with eccFlips := t.dram.eccFlips },
    pci := { s.pci with sent := t.pci.sent, funcs := t.pci.funcs, l1 := t.pci.l1, writes := t.pci.writes } }
  fences : fences t = fences s

section
variable {s t u : State}

theorem Checks.refl (s : State) : Checks s s := ⟨rfl, rfl⟩

theorem Checks.trans (h : Checks s t) (k : Checks t u) : Checks s u := by
  refine ⟨?_, k.fences.trans h.fences⟩
  have hr := h.rest
  have kr := k.rest
  rw [hr] at kr
  exact kr

theorem Checks.ite {c : Prop} [Decidable c] (ht : Checks s t) (hu : Checks s u) : Checks s (if c then t else u) := by
  split <;> assumption

theorem Checks.foldl {α : Type} {f : State → α → State} (hf : ∀ s x, Checks s (f s x)) (l : List α) (s : State) : Checks s (l.foldl f s) := by
  induction l generalizing s with
  | nil => exact .refl s
  | cons x l ih => exact (hf s x).trans (ih _)

theorem checks_of_onPage {pg : Nat} (h : OnPage pg s t) : Checks s t := by
  constructor
  · rw [h.rest]
  · rw [h.rest]
    rfl

theorem Checks.mem (h : Checks s t) : t.mem = s.mem := (congrArg State.mem h.rest :)

theorem Checks.mortar (h : Checks s t) : t.mortar = s.mortar := (congrArg State.mortar h.rest :)

theorem Checks.scrubPos (h : Checks s t) : t.scrubPos = s.scrubPos := (congrArg State.scrubPos h.rest :)

theorem Checks.agentNo (h : Checks s t) (a : Nat) : agentNo t a = agentNo s a := by
  rw [h.rest]
  rfl
end

/-! Checks at a read. -/

section
variable {s t : State}

theorem checks_markGranule (s : State) (g : Nat) : Checks s (markGranule s g) := ⟨rfl, rfl⟩

theorem Checks.markGranule (h : Checks s t) {g : Nat} : Checks s (markGranule t g) := h.trans ⟨rfl, rfl⟩

theorem Checks.bump (h : Checks s t) {off hi lo n : Nat} : Checks s (bump t off hi lo n) := h.trans ⟨rfl, rfl⟩

theorem Checks.raise (h : Checks s t) {pg b : Nat} : Checks s (raise t pg b) := h.trans (checks_of_onPage (onPage_raise b))

theorem Checks.fault (h : Checks s t) {pg cause : Nat} {req : Req} {info : Nat} {a : Option Nat} : Checks s (fault t pg cause req info a) :=
  h.trans (checks_of_onPage (onPage_fault cause req info a))

theorem Checks.countCe (h : Checks s t) {a : Nat} : Checks s (countCe t a) := by
  unfold Machine.countCe
  split
  · exact .ite h.bump.raise h.bump
  · exact h.bump
  · exact h

theorem Checks.foundUe (h : Checks s t) {a scrub : Nat} : Checks s (foundUe t a scrub) := by
  unfold Machine.foundUe
  split
  · exact h.markGranule.bump.fault.raise
  · exact h.markGranule.bump.fault.raise
  · exact h.markGranule
end

theorem checks_checkWord (s : State) (scrub w : Nat) : Checks s (checkWord s scrub w) := by
  unfold checkWord
  split
  · exact .refl s
  · have hdel : Checks s { s with eccErr := s.eccErr.del w } := ⟨rfl, rfl⟩
    exact .ite hdel.countCe hdel.foundUe

theorem checks_checkBurst (s : State) (scrub g : Nat) : Checks s (checkBurst s scrub g) := by
  unfold checkBurst
  refine .ite (.refl s) ?_
  have hclean : Checks s { freshEcc s g with eccErr := s.eccErr.filter fun e => decide (e.1 / 8 ≠ g) } := ⟨rfl, rfl⟩
  have hmark := Checks.ite (c := poisoned s g = true) (hclean.markGranule (g := g)) (hclean.trans (u := clearGranule _ g) ⟨rfl, rfl⟩)
  dsimp only
  split
  · exact hmark
  · exact .ite (.raise (.ite hmark.bump.markGranule.bump.fault hmark.bump.markGranule.bump.fault)) hmark.bump

theorem checks_checkRange (s : State) (scrub a n : Nat) : Checks s (checkRange s scrub a n) := by
  unfold checkRange
  refine .ite (.refl s) ?_
  split
  · exact .ite (.refl s) (.foldl (fun s g => checks_checkBurst s scrub g) _ s)
  · exact .foldl (fun s w => checks_checkWord s scrub w) _ s

theorem checks_checkParts (s : State) (a n : Nat) : Checks s (checkParts s a n) := by
  unfold checkParts
  split
  · exact .foldl (fun s g => checks_checkBurst s 0 g) _ s
  · exact .foldl (fun s w => checks_checkWord s 0 w) _ s

/-- Of SRAM without a stored error a check finds nothing. -/
theorem checkRange_sram_clean {s : State} {a : Nat} (h : s.eccErr = []) (ha : placeOf a ≠ .dram) (scrub n : Nat) : checkRange s scrub a n = s := by
  unfold checkRange
  split
  · rfl
  · split
    · next hd => exact absurd hd ha
    · simp [h]

/-! Wakes and stores. -/

theorem checks_wake (s : State) (n : Nat) : Checks s (wake s n) := by
  refine ⟨?_, fences_wake s n⟩
  unfold wake
  split <;> rfl

theorem checks_wakeAt (s : State) (a : Nat) : Checks s (wakeAt s a) := by
  unfold wakeAt
  split
  · exact checks_wake s _
  · exact .refl s

theorem checks_injFire (s : State) (target : Nat) (p : Nat → Bool) : Checks s (injFire s target p).1 := by
  unfold injFire
  split
  · have h : Checks s (wf s R.FLT_INJ_STATUS 1 0 2) := ⟨rfl, rfl⟩
    refine h.trans ?_
    unfold raiseRecord
    exact .ite (.ite ⟨rfl, rfl⟩ (.refl _)) (checks_of_onPage (onPage_raiseP 11 _))
  · exact .refl s

theorem checks_injectSram (s : State) (a : Nat) : Checks s (injectSram s a) := by
  have hset (u : State) (e : SMap Nat) : Checks u { u with eccErr := e } := ⟨rfl, rfl⟩
  unfold injectSram
  exact .ite ((checks_injFire s 1 _).trans (hset _ _)) (.ite ((checks_injFire s 2 _).trans (hset _ _)) (.refl s))

theorem mem_setBytes_congr {s t : State} (h : t.mem = s.mem) (a : Nat) (bs : List Byte) : (setBytes t a bs).mem = (setBytes s a bs).mem := by
  induction bs generalizing s t a with
  | nil => exact h
  | cons b bs ih => exact ih (congrArg (SMap.put · a b 0) h) (a + 1)

theorem Checks.setBytes {s t : State} (h : Checks s t) (a : Nat) (bs : List Byte) : Checks (setBytes s a bs) (setBytes t a bs) := by
  have hmem := mem_setBytes_congr h.mem a bs
  rw [setBytes_rest s, setBytes_rest t, hmem]
  exact ⟨congrArg (fun x : State => { x with mem := (Machine.setBytes s a bs).mem }) h.rest, h.fences⟩

/-- A store puts its bytes into memory and changes nothing else there. -/
theorem checks_storeBytes (s : State) (a : Nat) (bs : List Byte) (bad : List (Nat × Nat)) : Checks (setBytes s a bs) (storeBytes s a bs bad) := by
  unfold storeBytes
  cases bs with
  | nil => exact .refl s
  | cons b bs =>
    have hparts : Checks s { checkParts s a (b :: bs).length with
        eccErr := (checkParts s a (b :: bs).length).eccErr.filter fun e => !(decide (a / 8 ≤ e.1) && decide (e.1 ≤ (a + (b :: bs).length - 1) / 8)) } :=
      (checks_checkParts s a _).trans ⟨rfl, rfl⟩
    rw [if_neg (by simp)]
    refine (hparts.setBytes a (b :: bs)).trans <| (checks_injectSram _ a).trans <| .trans (.foldl (fun _ _ => ?_) _ _) (.foldl checks_markGranule _ _)
    exact ⟨rfl, rfl⟩

end Sys2Proof.Mesh
end

section
/-! The mesh: what SRAM does with a request, and the turn in which responses return (R57, R78, R84, R88). -/
namespace Sys2Proof.Mesh
open Sys2Proof Sys2Proof.Machine Sys2Proof.Laws Sys2Proof.Claims Sys2Proof.RegisterPages

/-- The address lies in the SRAM of a core or in a bank of Mortar. -/
def InSram (a : Nat) : Prop := ∃ b, placeOf a = .bank b ∨ placeOf a = .coreSram b

/-! What SRAM does with a request (R84, R88). -/

section
variable {s : State} {v : Via} {a n : Nat} {bs : List Byte} {bad : List (Nat × Nat)}

theorem InSram.not_dram (h : InSram a) : placeOf a ≠ .dram := by
  obtain ⟨b, h | h⟩ := h <;> simp [h]

theorem InSram.not_inWindows (h : InSram a) : inWindows a = false := by
  have hlow : a < 0x10000000 := by
    by_contra hhigh
    obtain ⟨b, h⟩ := h
    unfold placeOf at h
    simp only [show ¬a < 0x08000000 by omega, show ¬a < 0x10000000 by omega, if_false] at h
    repeat' split at h
    all_goals simp at h
  unfold inWindows
  simp
  omega

/-- A read that reaches SRAM is a read by its holder. -/
theorem placeLoad_sram (h : InSram a) : placeLoad s v a n = localRead s a n := by
  unfold placeLoad placeRead readMem
  rw [h.not_inWindows]
  obtain ⟨b, h | h⟩ := h <;> simp [h]

theorem placeStore_sram {relaxed : Bool} (h : InSram a) : placeStore s v a bs bad relaxed = localWrite s a bs bad := by
  unfold placeStore placeWrite writeMem
  rw [h.not_inWindows]
  obtain ⟨b, h | h⟩ := h <;> simp [h]

theorem checks_localRead (s : State) (a n : Nat) : Checks s (localRead s a n).1 := by
  unfold localRead
  split
  · exact (checks_wakeAt s a).trans (checks_checkRange _ 0 a n)
  · exact .refl s

/-- Bytes without error and poison are read as they lie there. -/
theorem localRead_clean (hst : placeStatus s a = MS.ok) (hecc : s.eccErr = []) (hbad : badRanges s a n = []) (ha : InSram a) :
    (localRead s a n).2 = { st := MS.ok, data := memBytes s a n } := by
  have hw : wakeAt s a = { s with isl := (wakeAt s a).isl } := by
    unfold wakeAt wake
    split
    · split <;> rfl
    · rfl
  have hclean : checkRange (wakeAt s a) 0 a n = wakeAt s a := checkRange_sram_clean (by rw [hw]; exact hecc) ha.not_dram 0 n
  have hbytes : memBytes (wakeAt s a) a n = memBytes s a n := by rw [hw]; rfl
  have hranges : badRanges (wakeAt s a) a n = [] := by rw [hw]; exact hbad
  unfold localRead
  rw [hst]
  simp [hclean, hbytes, hranges, readStatus]

/-- A write by the holder of its bytes leaves every byte outside them, and puts them at their place where the island takes the write. -/
theorem localWrite_mem (s : State) (a : Nat) (bs : List Byte) (bad : List (Nat × Nat)) :
    (placeStatus s a = MS.ok → ∀ i, i < bs.length → memByte (localWrite s a bs bad).1 (a + i) = nth bs i 0)
      ∧ ∀ c, (c < a ∨ a + bs.length ≤ c) → memByte (localWrite s a bs bad).1 c = memByte s c := by
  have hstore : ∀ c, memByte (storeBytes (wakeAt s a) a bs bad) c = memByte (setBytes s a bs) c := fun c => by
    unfold memByte
    rw [(checks_storeBytes _ a bs bad).mem, mem_setBytes_congr (checks_wakeAt s a).mem]
  unfold localWrite
  split
  · refine ⟨fun _ i hi => ?_, fun c hc => (hstore c).trans (memByte_setBytes_ne hc)⟩
    rw [hstore, memByte_setBytes hi]
    simp [nth, hi]
  · next hst => exact ⟨fun h => absurd h hst, fun c _ => rfl⟩

theorem localWrite_mortar (s : State) (a : Nat) (bs : List Byte) (bad : List (Nat × Nat)) : (localWrite s a bs bad).1.mortar = s.mortar := by
  unfold localWrite
  split
  · rw [(checks_storeBytes _ a bs bad).mortar, setBytes_rest]
    exact (checks_wakeAt s a).mortar
  · rfl
end

/-! Turns (R78). -/

theorem earlier_congr {s t : State} (h : Checks s t) (req : Req) (agent : Nat) (chan : Chan) (id : Nat) :
    earlier t req agent chan id = earlier s req agent chan id := by
  unfold earlier
  simp only [h.mortar, h.agentNo]

/-- A packet that leaves the mesh leaves no other out of its turn. -/
theorem earlier_filter {s : State} {req : Req} {agent : Nat} {chan : Chan} {id : Nat} (h : earlier s req agent chan id = false) (keep : Packet → Bool) :
    earlier (updMortar s fun m => { m with flight := m.flight.filter keep }) req agent chan id = false := by
  unfold earlier at *
  rw [List.any_eq_false] at *
  exact fun q hq => h q (List.mem_filter.1 hq).1

theorem drainReplies_of_writes {s : State} (h : ∀ r ∈ s.mortar.acks, r.write = true) (n : Nat) : drainReplies n s = s := by
  cases n with
  | zero => rfl
  | succ n =>
    have hnone : (s.mortar.acks.find? fun r => !r.write && mayReturn s r) = none := List.find?_eq_none.2 fun r hr => by simp [h r hr]
    simp [drainReplies, hnone]

theorem reply_write {s : State} {p : Packet} {r : Response} (h : ∀ q ∈ s.mortar.acks, q.write = true) :
    reply s p true r = updMortar s fun m =>
      { m with acks := m.acks ++ [{ req := p.req, agent := agentNo s p.addr, chan := p.chan, write := true, resp := r }] } := by
  refine drainReplies_of_writes (fun q hq => ?_) _
  rcases List.mem_append.1 hq with hq | hq
  · exact h q hq
  · rw [List.mem_singleton.1 hq]

/-- The response of a packet in its turn returns at once. -/
theorem reply_read {s : State} {p : Packet} {r : Response} (hid : r.id = p.id) (hturn : inTurn s p = true)
    (halone : NoneBefore s p) : reply s p false r = respond s r := by
  let x : Reply := { req := p.req, agent := agentNo s p.addr, chan := p.chan, write := false, resp := r }
  let u := updMortar s fun m => { m with acks := m.acks ++ [x] }
  have hmay : mayReturn u x = true := by
    have hearlier : earlier u x.req x.agent x.chan x.resp.id = false := by
      have hfirst : earlier s p.req (agentNo s p.addr) p.chan r.id = false := by simpa [inTurn, hid] using hturn
      exact hfirst
    have hacks : (u.mortar.acks.any fun q => decide (q.resp.id < x.resp.id) && decide (q.req = x.req) && decide (q.chan = x.chan)
        && decide (q.agent = x.agent)) = false := by
      refine List.any_eq_false.2 fun q hq => ?_
      rcases List.mem_append.1 hq with hq | hq
      · have hother := (halone q hq).2
        simp only [Bool.and_eq_true, decide_eq_true_eq]
        exact fun h => hother ⟨h.1.1.2, h.2, h.1.2⟩
      · rw [List.mem_singleton.1 hq]
        simp
    simp [mayReturn, hearlier, hacks]
  have hold : ∀ q ∈ s.mortar.acks, ¬(!q.write && mayReturn u q) = true := fun q hq => by simp [(halone q hq).1]
  have hfind : (u.mortar.acks.find? fun q => !q.write && mayReturn u q) = some x := by
    rw [show u.mortar.acks = s.mortar.acks ++ [x] from rfl, List.find?_append, List.find?_eq_none.2 hold]
    simp [hmay, x]
  have hnot : x ∉ s.mortar.acks := fun hx => Bool.noConfusion (halone x hx).1
  have herase : (s.mortar.acks ++ [x]).erase x = s.mortar.acks := by
    rw [List.erase_append_right _ hnot]
    simp
  have hdrop : dropReply u x = s := by
    show updMortar u (fun m => { m with acks := (s.mortar.acks ++ [x]).erase x }) = s
    rw [herase]
    rfl
  have hlength : u.mortar.acks.length = s.mortar.acks.length + 1 := List.length_append
  show drainReplies u.mortar.acks.length u = _
  rw [hlength, drainReplies, hfind]
  dsimp only
  rw [hdrop]
  exact drainReplies_of_writes (s := respond s r) (fun q hq => (halone q hq).1) _

end Sys2Proof.Mesh
end

section
/-! The mesh: packets that arrive at SRAM, acknowledgements, and crossings that time out (R58, R78, R80, R81). -/
namespace Sys2Proof.Mesh
open Sys2Proof Sys2Proof.Machine Sys2Proof.Laws Sys2Proof.Claims Sys2Proof.RegisterPages

/-! A packet at its agent (R78, R80, R81). -/

/-- The mesh without a packet. -/
def offMesh (s : State) (p : Packet) : State := updMortar s fun m => { m with flight := m.flight.filter (·.id ≠ p.id) }

/-- The state in which the agent of a packet performs it: its flits and its transit are counted. -/
def arriving (s : State) (p : Packet) (k : Nat) : State :=
  urgentTransit (countFlits (offMesh s p) p.chan (1 + match p.data with | some bs => dataFlits bs.length | none => 0)) p k

theorem onPage_countFlits (s : State) (c : Chan) (n : Nat) : OnPage P.mtr s (countFlits s c n) := by
  unfold countFlits
  cases c <;> exact onPage_bump (by decide)

theorem onPage_urgentTransit (s : State) (p : Packet) (k : Nat) : OnPage P.mtr s (urgentTransit s p k) := by
  unfold urgentTransit
  have hpeak : OnPage P.mtr s (peak s R.MTR_URGENT_PEAK 15 0 k) := onPage_wf (by decide)
  exact .ite (.refl _ _) (.ite hpeak ((hpeak.trans (onPage_fault _ _ _ _)).trans (onPage_raise _)))

theorem onPage_arriving (s : State) (p : Packet) (k : Nat) : OnPage P.mtr (offMesh s p) (arriving s p k) :=
  (onPage_countFlits _ _ _).trans (onPage_urgentTransit _ _ _)

section
variable {s t u : State} {p : Packet} {k : Nat}

/-- What an SRAM holds, and the status with which it answers, are those of the state before the arrival. -/
theorem placeStatus_arriving (a : Nat) : placeStatus (arriving s p k) a = placeStatus s a := by
  rw [(onPage_arriving s p k).rest]
  rfl

theorem memBytes_arriving (a n : Nat) : memBytes (arriving s p k) a n = memBytes s a n := by
  rw [(onPage_arriving s p k).rest]
  rfl

theorem badRanges_arriving (a n : Nat) : badRanges (arriving s p k) a n = badRanges s a n := by
  rw [(onPage_arriving s p k).rest]
  rfl

theorem eccErr_arriving : (arriving s p k).eccErr = s.eccErr := (congrArg State.eccErr (onPage_arriving s p k).rest :)

theorem mortar_arriving : (arriving s p k).mortar = (offMesh s p).mortar := (congrArg State.mortar (onPage_arriving s p k).rest :)

theorem mem_arriving : (arriving s p k).mem = s.mem := (congrArg State.mem (onPage_arriving s p k).rest :)

theorem Checks.offMesh (h : Checks s t) (p : Packet) : Checks (offMesh s p) (offMesh t p) := by
  refine ⟨?_, h.fences⟩
  rw [h.rest]
  rfl

/-- A packet that was in its turn stays so while it is performed, and nothing comes before its response. -/
theorem turn_of_checks (h : Checks (offMesh s p) u) (hturn : inTurn s p = true) (hnone : NoneBefore s p) : inTurn u p = true ∧ NoneBefore u p := by
  have hagent : agentNo u p.addr = agentNo s p.addr := h.agentNo p.addr
  constructor
  · have hfirst : earlier s p.req (agentNo s p.addr) p.chan p.id = false := by simpa [inTurn] using hturn
    have hoff : earlier (offMesh s p) p.req (agentNo s p.addr) p.chan p.id = false := earlier_filter hfirst _
    simp [inTurn, hagent, earlier_congr h, hoff]
  · intro r hr
    rw [h.mortar] at hr
    rw [hagent]
    exact hnone r hr

theorem perform_read (hdata : p.data = none) (hsram : InSram p.addr) :
    perform s p = ((localRead s p.addr p.len).1,
      { id := p.id, status := (localRead s p.addr p.len).2.st, data := (localRead s p.addr p.len).2.data, bad := (localRead s p.addr p.len).2.bad }) := by
  unfold perform
  rw [hdata]
  dsimp only
  rw [placeLoad_sram hsram]

theorem perform_write {bs : List Byte} (hdata : p.data = some bs) (hsram : InSram p.addr) :
    perform s p = ((localWrite s p.addr bs p.bad).1, { id := p.id, status := (localWrite s p.addr bs p.bad).2 }) := by
  unfold perform
  rw [hdata]
  dsimp only
  rw [placeStore_sram hsram]

/-- A packet in its turn that its place does not hold up is performed and answered. -/
theorem land_performed (hturn : inTurn s p = true) (hio : (perform (arriving s p k) p).1.mortar.io.blocked = false) :
    land s (p, k) = reply (if p.data.isSome then (perform (arriving s p k) p).1
      else countFlits (perform (arriving s p k) p).1 p.chan (1 + dataFlits p.len)) p p.data.isSome (perform (arriving s p k) p).2 := by
  unfold land
  dsimp only
  rw [if_neg (by simp [hturn])]
  exact if_neg (by rw [Bool.and_eq_true]; exact fun h => Bool.noConfusion (hio.symm.trans h.1))

/-- A read of SRAM that lands in its turn is answered. -/
theorem land_read (hturn : inTurn s p = true) (hnone : NoneBefore s p) (hdata : p.data = none) (hsram : InSram p.addr)
    (hio : s.mortar.io.blocked = false) :
    ∃ u, Checks (offMesh s p) u ∧ land s (p, k) = respond u (perform (arriving s p k) p).2 := by
  have hperform := perform_read (s := arriving s p k) hdata hsram
  have hread : Checks (offMesh s p) (perform (arriving s p k) p).1 := by
    rw [hperform]
    exact (checks_of_onPage (onPage_arriving s p k)).trans (checks_localRead _ _ _)
  have hu := hread.trans (checks_of_onPage (onPage_countFlits _ p.chan (1 + dataFlits p.len)))
  obtain ⟨ht, hn⟩ := turn_of_checks hu hturn hnone
  refine ⟨_, hu, ?_⟩
  rw [land_performed hturn (by rw [hread.mortar]; exact hio), hdata, ← reply_read (by rw [hperform]) ht hn]
  rfl

/-- A write of SRAM that lands in its turn waits for its acknowledgement. -/
theorem land_write {bs : List Byte} (hturn : inTurn s p = true) (hwrites : ∀ r ∈ s.mortar.acks, r.write = true) (hdata : p.data = some bs)
    (hsram : InSram p.addr) (hio : s.mortar.io.blocked = false) :
    ∃ r : Reply, r.write = true ∧ r.resp.id = p.id ∧ land s (p, k) =
      updMortar (perform (arriving s p k) p).1 fun m => { m with acks := m.acks ++ [r] } := by
  have hperform := perform_write (s := arriving s p k) hdata hsram
  have hmortar : (perform (arriving s p k) p).1.mortar = (offMesh s p).mortar := by
    rw [hperform]
    exact (localWrite_mortar _ _ _ _).trans mortar_arriving
  have hland := land_performed hturn (by rw [hmortar]; exact hio)
  rw [hdata] at hland
  have hacks : ∀ q ∈ (perform (arriving s p k) p).1.mortar.acks, q.write = true := fun q hq => hwrites q (by rw [hmortar] at hq; exact hq)
  exact ⟨_, rfl, by rw [hperform], hland.trans (reply_write hacks)⟩
end

/-! The commands of the mesh. -/

theorem unheld_of_io {t : State} {host : List Cpl} (h : t.mortar.io = { host := host }) : Unheld t := by
  unfold Unheld
  rw [h]
  exact ⟨rfl, rfl, rfl⟩

theorem arrivalOrder_single {p : Packet} (h : InSram p.addr) (k : Nat) : arrivalOrder [(p, k)] = [(p, k)] := by
  have hkey : pageKey p = none := by
    unfold pageKey
    obtain ⟨b, h | h⟩ := h <;> rw [h]
  simp [arrivalOrder, rankInsert, hkey]

/-- One packet that reaches SRAM is landed, where none of its requests waits. -/
theorem exec_arrive {s : State} {p : Packet} {k : Nat} {host : List Cpl} (hrun : islandRuns s 2 = true) (hsram : InSram p.addr)
    (hfind : (s.mortar.flight.find? fun q => q.id = p.id) = some p) (hu : Unheld (land (withHost s host) (p, k))) :
    exec (.mortarRequestArrive [(p.id, k)] host) s = .next (given s (land (withHost s host) (p, k))) := by
  show execMortarRequestArrive [(p.id, k)] host s = _
  unfold execMortarRequestArrive
  rw [if_neg (by simp [hrun])]
  refine served_next ?_ hu
  simp [hfind, arrivalOrder_single hsram]

theorem onPage_xingCapture (s : State) (dst src : Nat) : OnPage P.aon s (xingCapture s dst src) :=
  ((onPage_hwFault _ _).trans (onPage_raise _)).trans (onPage_bump (by decide))

/-- A crossing timeout raises its event of AON. -/
theorem raised_xingCapture (s : State) (dst src : Nat) : rb (xingCapture s dst src) (hdr P.aon 0x20) 8 = true := by
  unfold rb xingCapture
  rw [rd_bump_ne (by decide)]
  exact rb_raise _ _ (by decide)

section
variable {s : State} {p : Packet} {k : Nat} {host : List Cpl}

/-- The response of a read of SRAM. -/
theorem response_clean (hdata : p.data = none) (hsram : InSram p.addr) (hst : placeStatus s p.addr = MS.ok) (hecc : s.eccErr = [])
    (hbad : badRanges s p.addr p.len = []) :
    (perform (arriving s p k) p).2 = { id := p.id, status := MS.ok, data := memBytes s p.addr p.len } := by
  rw [perform_read hdata hsram, localRead_clean (by rw [placeStatus_arriving, hst]) (by rw [eccErr_arriving, hecc])
    (by rw [badRanges_arriving, hbad]) hsram, memBytes_arriving]

/-- A read that reaches SRAM in its turn is answered, and memory reads as before. -/
theorem runs_arrive_read (hrun : islandRuns s 2 = true) (hsram : InSram p.addr) (hturn : inTurn s p = true) (hnone : NoneBefore s p)
    (hfind : (s.mortar.flight.find? fun q => q.id = p.id) = some p) (hdata : p.data = none) :
    Runs (.mortarRequestArrive [(p.id, k)] host) s fun t =>
      t.mortar.responses = (perform (arriving (withHost s host) p k) p).2 :: s.mortar.responses
        ∧ t.mortar.flight = s.mortar.flight.filter (fun q => q.id ≠ p.id) ∧ SameBytes s t := by
  obtain ⟨u, hu, hland⟩ := land_read (s := withHost s host) (k := k) hturn hnone hdata hsram rfl
  have hmortar : u.mortar = (offMesh (withHost s host) p).mortar := hu.mortar
  have hexec := exec_arrive (k := k) (host := host) hrun hsram hfind
  rw [hland] at hexec
  refine ⟨_, hexec ?_, ?_, ?_, sameBytes_of_mem hu.mem⟩
  · exact unheld_of_io (congrArg Mortar.io hmortar :)
  · exact congrArg (List.cons _) (congrArg Mortar.responses hmortar :)
  · exact (congrArg Mortar.flight hmortar :)

/-- A write that reaches SRAM in its turn puts its bytes there, and its acknowledgement waits. -/
theorem runs_arrive_write {bs : List Byte} (hrun : islandRuns s 2 = true) (hsram : InSram p.addr) (hturn : inTurn s p = true)
    (hnone : NoneBefore s p) (hfind : (s.mortar.flight.find? fun q => q.id = p.id) = some p) (hdata : p.data = some bs) :
    Runs (.mortarRequestArrive [(p.id, k)] host) s fun t =>
      (∃ r, t.mortar.acks = s.mortar.acks ++ [r] ∧ r.write = true ∧ r.resp.id = p.id) ∧ t.mortar.responses = s.mortar.responses
        ∧ (placeStatus s p.addr = MS.ok → ∀ i, i < bs.length → memByte t (p.addr + i) = nth bs i 0)
        ∧ ∀ a, (a < p.addr ∨ p.addr + bs.length ≤ a) → memByte t a = memByte s a := by
  obtain ⟨r, hwrite, hid, hland⟩ := land_write (s := withHost s host) (k := k) hturn (fun q hq => (hnone q hq).1) hdata hsram rfl
  rw [perform_write hdata hsram] at hland
  have hmortar := (localWrite_mortar (arriving (withHost s host) p k) p.addr bs p.bad).trans mortar_arriving
  obtain ⟨hput, hother⟩ := localWrite_mem (arriving (withHost s host) p k) p.addr bs p.bad
  have hexec := exec_arrive (k := k) (host := host) hrun hsram hfind
  rw [hland] at hexec
  refine ⟨_, hexec ?_, ⟨r, ?_, hwrite, hid⟩, ?_, fun hst => ?_, fun a ha => ?_⟩
  · exact unheld_of_io (congrArg Mortar.io hmortar :)
  · exact congrArg (· ++ [r]) (congrArg Mortar.acks hmortar :)
  · exact (congrArg Mortar.responses hmortar :)
  · exact hput (placeStatus_arriving _ |>.trans hst)
  · exact (hother a ha).trans (congrArg (SMap.getD · a 0) mem_arriving)

/-- A request in flight that its crossing abandons is answered ISLAND_OFF and leaves the mesh. -/
theorem runs_xingTimeout_request {dst src : Nat} (hturn : inTurn s p = true) (hnone : NoneBefore s p)
    (hfind : (s.mortar.flight.find? fun q => q.id = p.id) = some p) (hup : s.boot.held = false) (hdst : dst < 39) (hsrc : src < 39)
    (hacks : (s.mortar.acks.find? fun r => r.resp.id = p.id) = none) :
    Runs (.xingTimeout dst src p.id false host) s fun t =>
      t.mortar.responses = { id := p.id, status := MS.islandOff } :: s.mortar.responses
        ∧ t.mortar.flight = s.mortar.flight.filter (fun q => q.id ≠ p.id) ∧ Raised t P.aon 8 ∧ SameBytes s t := by
  have hcapture := checks_of_onPage (onPage_xingCapture (withHost s host) dst src)
  have hu := hcapture.offMesh p
  obtain ⟨ht, hn⟩ := turn_of_checks (s := withHost s host) hu hturn hnone
  have hmortar : (offMesh (xingCapture (withHost s host) dst src) p).mortar = (offMesh (withHost s host) p).mortar := hu.mortar
  have hexec : exec (.xingTimeout dst src p.id false host) s
      = .next (given s (respond (offMesh (xingCapture (withHost s host) dst src) p) { id := p.id, status := MS.islandOff })) := by
    show execXingTimeout dst src p.id false host s = _
    unfold execXingTimeout
    rw [if_neg (by simp [hup, hdst, hsrc]), hacks, hfind, ← reply_read rfl ht hn]
    refine served_next rfl ?_
    rw [reply_read rfl ht hn]
    exact unheld_of_io (congrArg Mortar.io hmortar :)
  exact ⟨_, hexec, congrArg (List.cons _) (congrArg Mortar.responses hmortar :), (congrArg Mortar.flight hmortar :), raised_xingCapture _ _ _,
    sameBytes_of_mem hu.mem⟩
end

/-- What changes the mesh, a page and messages is within the frame of that page. -/
theorem frame_mortar {pg : Nat} {s u : State} {f : Mortar → Mortar} (h : OnPage pg (updMortar s f) u) : Frame s { u with mortar := s.mortar } [pg] :=
  frame_of_onPage ⟨congrArg (fun x : State => { x with mortar := s.mortar }) h.rest, h.regs⟩

/-- An acknowledgement returns in its turn. -/
theorem runs_writeAck {s : State} {id : Nat} {r : Reply} (hwrites : ∀ q ∈ s.mortar.acks, q.write = true)
    (hfind : (s.mortar.acks.find? fun r => r.write && decide (r.resp.id = id) && mayReturn s r) = some r) :
    Runs (.writeAck id) s fun t =>
      t.mortar.responses = r.resp :: s.mortar.responses ∧ t.mortar.acks = s.mortar.acks.erase r ∧ Frame s { t with mortar := s.mortar } [P.mtr] := by
  have hpage := onPage_countFlits (dropReply s r) r.chan 1
  have hmortar : (countFlits (dropReply s r) r.chan 1).mortar = (dropReply s r).mortar := (congrArg State.mortar hpage.rest :)
  have hacks : (countFlits (dropReply s r) r.chan 1).mortar.acks = s.mortar.acks.erase r := (congrArg Mortar.acks hmortar :)
  refine ⟨respond (countFlits (dropReply s r) r.chan 1) r.resp, ?_, congrArg (List.cons _) (congrArg Mortar.responses hmortar :), hacks,
    frame_mortar (u := countFlits (dropReply s r) r.chan 1) hpage⟩
  show execWriteAck id s = _
  unfold execWriteAck
  rw [hfind]
  dsimp only
  rw [drainReplies_of_writes]
  exact fun q hq => hwrites q (List.mem_of_mem_erase (hacks ▸ hq))

/-- A crossing timeout that meets no packet waits for the next request of an engine. -/
theorem runs_xingTimeout_engine {s : State} {dst src id : Nat} {resp : Bool} {host : List Cpl} (hup : s.boot.held = false) (hdst : dst < 39)
    (hsrc : src < 39) (hacks : (s.mortar.acks.find? fun r => r.resp.id = id) = none) (hflight : (s.mortar.flight.find? fun p => p.id = id) = none) :
    Runs (.xingTimeout dst src id resp host) s fun t =>
      t.mortar = { s.mortar with abandon := s.mortar.abandon ++ [(src, dst, resp)] } ∧ Raised t P.aon 8
        ∧ Frame s { t with mortar := s.mortar } [P.aon] := by
  have hpage := onPage_xingCapture s dst src
  have hmortar : (xingCapture s dst src).mortar = s.mortar := (congrArg State.mortar hpage.rest :)
  refine ⟨updMortar (xingCapture s dst src) fun m => { m with abandon := m.abandon ++ [(src, dst, resp)] }, ?_,
    congrArg (fun m : Mortar => { m with abandon := m.abandon ++ [(src, dst, resp)] }) hmortar, raised_xingCapture s dst src,
    frame_mortar (f := fun m => m) (u := xingCapture s dst src) hpage⟩
  show execXingTimeout dst src id resp host s = _
  unfold execXingTimeout
  rw [if_neg (by simp [hup, hdst, hsrc]), hacks, hflight]

/-- Settles O34: a read and a write that land at SRAM, a packet abandoned at its crossing; an acknowledgement, a crossing without a packet of the number. -/
theorem mortarArrivalAndAcknowledgement : Obligations.MortarArrivalAndAcknowledgement := by
  unfold Obligations.MortarArrivalAndAcknowledgement
  refine ⟨fun s p k b host hrun hplace hturn hnone hfind => ⟨fun hdata => ?_, fun bs hdata => ?_, fun dst src hup hdst hsrc hacks => ?_⟩,
    fun s id host => ⟨fun r hwrites hfind => ?_, fun dst src resp hup hdst hsrc hacks hflight => ?_⟩⟩
  · obtain ⟨t, hexec, hresponses, hflight, hmem⟩ := runs_arrive_read (k := k) (host := host) hrun ⟨b, hplace⟩ hturn hnone hfind hdata
    exact ⟨t, hexec, ⟨_, hresponses, by rw [perform_read hdata ⟨b, hplace⟩], response_clean (s := withHost s host) hdata ⟨b, hplace⟩⟩, hflight, hmem⟩
  · exact runs_arrive_write hrun ⟨b, hplace⟩ hturn hnone hfind hdata
  · exact runs_xingTimeout_request hturn hnone hfind hup hdst hsrc hacks
  · exact runs_writeAck hwrites hfind
  · exact runs_xingTimeout_engine hup hdst hsrc hacks hflight

end Sys2Proof.Mesh
end

section
/-! Fences and steps of islands: what leaves them (R58, R95). -/
namespace Sys2Proof.Fences
open Sys2Proof Sys2Proof.Machine Sys2Proof.Laws Sys2Proof.RegisterPages Sys2Proof.Islands Sys2Proof.Mesh

/-- The fences and the steps lie in the island list, and in no other field. -/
@[simp] theorem fences_mk (x1 x2 x3 x4 x5 x6 x7 x8 x9 x10 isl x12 x13 x14 x15 x16 x17 x18 x19 x20 x21 x22 x23 x24 x25 x26 x27
    x28 x29 x30 x31 x32 x33 x34 x35 x36 x37 x38) :
    fences ⟨x1, x2, x3, x4, x5, x6, x7, x8, x9, x10, isl, x12, x13, x14, x15, x16, x17, x18, x19, x20, x21,
      x22, x23, x24, x25, x26, x27, x28, x29, x30, x31, x32, x33, x34, x35, x36, x37, x38⟩ =
    isl.map fenceView := (rfl)

@[simp] theorem map_fenceView (s : State) : s.isl.map fenceView = fences s := (rfl)

theorem fences_of_onPage {pg : Nat} {s t : State} (h : OnPage pg s t) : fences t = fences s := (checks_of_onPage h).fences

@[simp] theorem fences_ite {c : Prop} [Decidable c] {s t : State} : fences (if c then s else t) = if c then fences s else fences t := apply_ite fences c s t

@[simp] theorem fences_ite_fst {α : Type} {c : Prop} [Decidable c] {p q : State × α} :
    fences (if c then p else q).1 = if c then fences p.1 else fences q.1 := by
  split <;> rfl

@[simp] theorem fences_foldl {α : Type} {f : State → α → State} (hf : ∀ s x, fences (f s x) = fences s) (l : List α) (s : State) :
    fences (l.foldl f s) = fences s := by
  induction l generalizing s with
  | nil => rfl
  | cons x l ih => exact (ih _).trans (hf s x)

/-! Registers, messages, events and faults. -/

@[simp] theorem fences_setReg (s : State) (off : Nat) (v : W32) : fences (setReg s off v) = fences s := (rfl)

@[simp] theorem fences_wf (s : State) (off hi lo x : Nat) : fences (wf s off hi lo x) = fences s := (rfl)

@[simp] theorem fences_bump (s : State) (off hi lo n : Nat) : fences (bump s off hi lo n) = fences s := (rfl)

@[simp] theorem fences_sendHost (s : State) (m : HostMsg) : fences (sendHost s m) = fences s := (rfl)

@[simp] theorem fences_sendAfterWrites (s : State) (fn : Nat) (m : HostMsg) : fences (sendAfterWrites s fn m) = fences s := by simp [sendAfterWrites]

@[simp] theorem fences_updFunc (s : State) (fn : Nat) (f : Func → Func) : fences (updFunc s fn f) = fences s := (rfl)

@[simp] theorem fences_sendMsix (s : State) (fn vec : Nat) : fences (sendMsix s fn vec) = fences s := by simp [sendMsix]

@[simp] theorem fences_signalFyp (s : State) (g : FypSignal) : fences (signalFyp s g) = fences s := (rfl)

@[simp] theorem fences_tellFlt (s : State) (m : FltMsg) : fences (tellFlt s m) = fences s := (rfl)

@[simp] theorem fences_toRecorder (s : State) (o : Occurrence) : fences (toRecorder s o) = fences s := (rfl)

@[simp] theorem fences_wb (s : State) (off i : Nat) (b : Bool) : fences (wb s off i b) = fences s := (rfl)

@[simp] theorem fences_raise (s : State) (pg b : Nat) : fences (raise s pg b) = fences s := fences_of_onPage (onPage_raise b)

@[simp] theorem fences_fault (s : State) (pg cause : Nat) (req : Req) (info : Nat) (addr : Option Nat) :
    fences (fault s pg cause req info addr) = fences s := fences_of_onPage (onPage_fault cause req info addr)

/-! The answers of a DRAM subchannel. -/

@[simp] theorem fences_dramRespond (s : State) (src : Nat) (chan : Chan) (st : Nat) (data : List Byte) (bad : List (Nat × Nat)) :
    fences (dramRespond s src chan st data bad) = fences s := (rfl)

@[simp] theorem fences_updSub (s : State) (u : Nat) (f : SubCh → SubCh) : fences (updSub s u f) = fences s := (rfl)

@[simp] theorem fences_releaseAcks (s : State) (u : Nat) : fences (releaseAcks s u) = fences s := by simp [releaseAcks]

@[simp] theorem fences_respondInTurn (s : State) (u seq : Nat) (r : DramResp) : fences (respondInTurn s u seq r) = fences s := by simp [respondInTurn]

@[simp] theorem fences_answerFenced (s : State) (u : Nat) : fences (answerFenced s u) = fences s := by
  refine (fences_foldl (fun s r => ?_) _ _).trans (fences_updSub s u _)
  split <;> simp

/-! The way over a stop, and Quarry's handles. -/

@[simp] theorem fences_countFlits (s : State) (c : Chan) (n : Nat) : fences (countFlits s c n) = fences s := (rfl)

@[simp] theorem fences_dropAbandon (s : State) (x : Nat × Nat × Bool) : fences (dropAbandon s x) = fences s := (rfl)

theorem fences_carryCall {α : Type} {f : State → State × α} (hf : ∀ u, fences (f u).1 = fences u) (s : State) (v : Via) (isl out back : Nat)
    (lost : Nat → α) : fences (carryCall s v isl out back lost f).1 = fences s := by
  unfold carryCall
  split <;> simp [hf]

@[simp] theorem fences_badFree (s : State) (req : Req) (cause h : Nat) : fences (badFree s req cause h) = fences s := by simp [badFree]

@[simp] theorem fences_hwFault (s : State) (pg cause info : Nat) :
    fences (hwFault s pg cause info) = fences s := fences_of_onPage (onPage_hwFault cause info)

@[simp] theorem fences_updQry (s : State) (f : Quarry → Quarry) : fences (updQry s f) = fences s := (rfl)

@[simp] theorem fences_fencePool (s : State) (p ix : Nat) : fences (fencePool s p ix) = fences s := by simp [fencePool]

@[simp] theorem fences_putBuf (s : State) (p n : Nat) (b : Buffer) : fences (putBuf s p n b) = fences s := (rfl)

@[simp] theorem fences_putUsed (s : State) (i p n : Nat) : fences (putUsed s i p n) = fences s := (rfl)

@[simp] theorem fences_fresh (s : State) (w : Nat) : fences (fresh s w).1 = fences s := (rfl)

@[simp] theorem fences_reclaimBuf (i : Nat) (s : State) (p n : Nat) : fences (reclaimBuf i s p n) = fences s := by simp [reclaimBuf]

@[simp] theorem fences_reclaimPool (i : Nat) (s : State) (p a z : Nat) : fences (reclaimPool i s p a z) = fences s := by
  unfold reclaimPool
  dsimp only
  split <;> simp

@[simp] theorem fences_scanOn (i : Nat) (ps : List Nat) (s : State) (k : Nat) : fences (scanOn i ps s k) = fences s := by
  induction ps generalizing s k with
  | nil => rfl
  | cons p ps ih =>
    unfold scanOn
    simp [ih]

@[simp] theorem fences_scanSome (s : State) : fences (scanSome s) = fences s := by
  unfold scanSome
  split <;> simp

@[simp] theorem fences_freeHandle (s : State) (req : Req) (i h : Nat) : fences (freeHandle s req i h).1 = fences s := by
  unfold freeHandle
  dsimp only
  repeat' split
  all_goals simp

@[simp] theorem fences_freeFrom (s : State) (v : Via) (i h : Nat) :
    fences (freeFrom s v i h) = fences s := by
  unfold freeFrom
  exact fences_carryCall (fun u => fences_freeHandle u .hw i h) s v _ _ _ _

@[simp] theorem fences_freeBatch (s : State) (ident : Nat) (rec_ : List Byte) : fences (freeBatch s ident rec_) = fences s := by simp [freeBatch]

/-! The bytes of memory and the queue contexts. -/

@[simp] theorem fences_setBytes (s : State) (a : Nat) (bs : List Byte) : fences (setBytes s a bs) = fences s := by
  induction bs generalizing s a with
  | nil => rfl
  | cons b bs ih => exact ih (setByte s a b) (a + 1)

@[simp] theorem fences_putCtx (s : State) (q c : Nat) : fences (putCtx s q c) = fences s := by simp [putCtx]

@[simp] theorem fences_queueEvent (s : State) (q b : Nat) : fences (queueEvent s q b) = fences s := by
  unfold queueEvent
  dsimp only
  repeat' split
  all_goals simp

@[simp] theorem fences_queueEvents (s : State) (q d0 d1 : Nat) (refused : Bool) : fences (queueEvents s q d0 d1 refused) = fences s := by
  simp [queueEvents]

@[simp] theorem fences_detach (s : State) (q cause : Nat) : fences (detach s q cause) = fences s := by simp [detach]

@[simp] theorem fences_ringFailed (s : State) (q st : Nat) : fences (ringFailed s q st) = fences s := by simp [ringFailed]

/-! Writes: to the host, to DRAM and to SRAM. -/

@[simp] theorem fences_stopRefuses (s : State) (v : Via) (cause a n : Nat) : fences (stopRefuses s v cause a n) = fences s := by simp [stopRefuses]

theorem fences_carryWrite {f : State → State × Nat} (hf : ∀ u, fences (f u).1 = fences u) (s : State) (v : Via) (a n : Nat) :
    fences (carryWrite s v a n f).1 = fences s := by
  unfold carryWrite
  split <;> simp [hf]

@[simp] theorem fences_updIo (s : State) (f : Io → Io) : fences (updIo s f) = fences s := (rfl)

@[simp] theorem fences_block (s : State) : fences (block s) = fences s := (rfl)

@[simp] theorem fences_hwinRefuse (s : State) (cause : Nat) (req : Req) (w a : Nat) : fences (hwinRefuse s cause req w a) = fences s := by
  simp [hwinRefuse]

@[simp] theorem fences_hostWrite (s : State) (req : Req) (w a : Nat) (bs : List Byte) (bad : List (Nat × Nat)) (relaxed : Bool) :
    fences (hostWrite s req w a bs bad relaxed).1 = fences s := by
  unfold hostWrite
  split
  · rfl
  · split <;> simp

@[simp] theorem fences_windowWrite (s : State) (v : Via) (a : Nat) (bs : List Byte) (bad : List (Nat × Nat)) :
    fences (windowWrite s v a bs bad).1 = fences s := (rfl)

@[simp] theorem fences_drainState (s : State) (u : Nat) : fences (drainState s u) = fences s := by simp [drainState]

@[simp] theorem fences_raiseP (s : State) (pg b : Nat) (params : List Nat) :
    fences (raiseP s pg b params) = fences s := fences_of_onPage (onPage_raiseP b params)

@[simp] theorem fences_raiseRecord (s : State) (pg b : Nat) (params : List Nat) : fences (raiseRecord s pg b params) = fences s := by
  simp [raiseRecord]

@[simp] theorem fences_injFire (s : State) (target : Nat) (p : Nat → Bool) : fences (injFire s target p).1 = fences s :=
  (checks_injFire s target p).fences

@[simp] theorem fences_logCmd (s : State) (u : Nat) (c : DramCmd) : fences (logCmd s u c) = fences s := (rfl)

@[simp] theorem fences_issueCommand (s : State) (u : Nat) (r : DramReq) : fences (issueCommand s u r) = fences s := by simp [issueCommand]

@[simp] theorem fences_chargeMitig (s : State) (u src : Nat) : fences (chargeMitig s u src) = fences s := by simp [chargeMitig]

@[simp] theorem fences_activate (s : State) (u b row src : Nat) : fences (activate s u b row src) = fences s := by simp [activate]

@[simp] theorem fences_openFor (s : State) (u : Nat) (r : DramReq) : fences (openFor s u r) = fences s := by simp [openFor]

@[simp] theorem fences_acceptWrite (s : State) (u : Nat) (r : DramReq) : fences (acceptWrite s u r) = fences s := by simp [acceptWrite]

@[simp] theorem fences_enterQueue (s : State) (u : Nat) (r : DramReq) : fences (enterQueue s u r) = fences s := by simp [enterQueue]

@[simp] theorem fences_admitStopped (u n : Nat) (s : State) : fences (admitStopped u n s) = fences s := by
  induction n generalizing s with
  | zero => rfl
  | succ n ih =>
    unfold admitStopped
    split <;> simp [ih]

@[simp] theorem fences_placeFreed (s : State) (u : Nat) : fences (placeFreed s u) = fences s := by simp [placeFreed]

@[simp] theorem fences_checkBurst (s : State) (scrub g : Nat) : fences (checkBurst s scrub g) = fences s := (checks_checkBurst s scrub g).fences

@[simp] theorem fences_storeBytes (s : State) (a : Nat) (bs : List Byte) (bad : List (Nat × Nat)) :
    fences (storeBytes s a bs bad) = fences s := (checks_storeBytes s a bs bad).fences.trans (fences_setBytes s a bs)

@[simp] theorem fences_issueWrite (s : State) (u i : Nat) (r : DramReq) : fences (issueWrite s u i r) = fences s := by simp [issueWrite]

@[simp] theorem fences_makeRoom (s : State) (u n w : Nat) : fences (makeRoom s u n w) = fences s := (rfl)

theorem fences_drainOne {s t : State} {u : Nat} (h : drainOne s u = some t) : fences t = fences s := by
  unfold drainOne at h
  split at h
  · cases h
  · split at h
    · cases h
    · cases h
      simp

theorem fences_engineWrite {s t : State} {u : Nat} {r : DramReq} (h : engineWrite s u r = some t) : fences t = fences s := by
  unfold engineWrite at h
  dsimp only at h
  split at h
  · cases h
  · split at h
    · obtain ⟨d, hd, he⟩ := Option.bind_eq_some_iff.mp h
      split at he
      · cases he
      · cases he
        simpa using fences_drainOne hd
    · cases h
      simp

@[simp] theorem fences_fencedWrite (s : State) (v : Via) (u a n : Nat) : fences (fencedWrite s v u a n) = fences s := by simp [fencedWrite]

@[simp] theorem fences_wakeAt (s : State) (a : Nat) : fences (wakeAt s a) = fences s := (checks_wakeAt s a).fences

@[simp] theorem fences_localWrite (s : State) (a : Nat) (bs : List Byte) (bad : List (Nat × Nat)) : fences (localWrite s a bs bad).1 = fences s := by
  unfold localWrite
  split <;> simp

@[simp] theorem fences_writeMem (s : State) (v : Via) (a : Nat) (bs : List Byte) (bad : List (Nat × Nat)) :
    fences (writeMem s v a bs bad).1 = fences s := by
  unfold writeMem
  split
  · split
    · simp
    · next h => simpa using fences_engineWrite h
  · simp
  · simp

@[simp] theorem fences_placeWrite (s : State) (v : Via) (a : Nat) (bs : List Byte) (bad : List (Nat × Nat)) (relaxed : Bool) :
    fences (placeWrite s v a bs bad relaxed).1 = fences s := by
  unfold placeWrite
  split <;> simp

@[simp] theorem fences_devWrite (s : State) (v : Via) (a : Nat) (bs : List Byte) (bad : List (Nat × Nat)) (relaxed : Bool) :
    fences (devWrite s v a bs bad relaxed).1 = fences s := by
  unfold devWrite
  exact fences_carryWrite (fun u => fences_placeWrite u v a bs bad relaxed) s v a _

theorem fences_patientEnter {s t : State} {u : Nat} {r : DramReq} (h : patientEnter s u r = some t) : fences t = fences s := by
  unfold patientEnter at h
  split at h
  · exact fences_engineWrite h
  · cases h

@[simp] theorem fences_writeMemPatient (s : State) (v : Via) (a : Nat) (bs : List Byte) (bad : List (Nat × Nat)) :
    fences (writeMemPatient s v a bs bad).1 = fences s := by
  unfold writeMemPatient
  split
  · dsimp only
    split
    · simp
    · next h => simpa using fences_patientEnter h
  · simp

@[simp] theorem fences_patientWrite (s : State) (v : Via) (a : Nat) (bs : List Byte) (bad : List (Nat × Nat)) :
    fences (patientWrite s v a bs bad).1 = fences s := by
  unfold patientWrite
  split
  · rfl
  · exact fences_carryWrite (fun u => fences_writeMemPatient u v a bs bad) s v a _
  · exact fences_devWrite s v a bs bad false

/-! Pushes into a ring. -/

@[simp] theorem fences_ringWrite (s : State) (q a : Nat) (e : List Byte) (bad : Bool) : fences (ringWrite s q a e bad).1 = fences s := by
  unfold ringWrite
  dsimp only
  split <;> simp

@[simp] theorem fences_ringWrites (es : List (Nat × List Byte × Bool)) (s : State) (q : Nat) : fences (ringWrites es s q) = fences s := by
  induction es generalizing s with
  | nil => rfl
  | cons e es ih =>
    obtain ⟨i, bs, b⟩ := e
    unfold ringWrites
    simp [ih]

@[simp] theorem fences_admitPushes (s : State) (q : Nat) (ps : List (List (List Byte) × List Nat)) : fences (admitPushes s q ps).1 = fences s := by
  simp [admitPushes]

@[simp] theorem fences_updSlots (s : State) (f : SMap SlotPush → SMap SlotPush) : fences (updSlots s f) = fences s := (rfl)

@[simp] theorem fences_dropHeld (s : State) (q c : Nat) : fences (dropHeld s q c) = fences s := by simp [dropHeld]

@[simp] theorem fences_opCheck (s : State) (req : Req) (q c : Nat) (roleOk countOk : Bool) (n : Nat) :
    fences (opCheck s req q c roleOk countOk n).1 = fences s := by
  unfold opCheck
  simp

@[simp] theorem fences_pushCheck (s : State) (req : Req) (q c : Nat) (es : List (List Byte)) : fences (pushCheck s req q c es).1 = fences s := by
  simp [pushCheck]

@[simp] theorem fences_checkRange (s : State) (scrub a n : Nat) : fences (checkRange s scrub a n) = fences s := (checks_checkRange s scrub a n).fences

@[simp] theorem fences_readCtx (s : State) (q : Nat) : fences (readCtx s q).1 = fences s := by
  unfold readCtx
  split <;> simp

@[simp] theorem fences_answer (s : State) (st : Nat) (es : List Byte) (bad : List (Nat × Nat)) : fences (answer s st es bad) = fences s := (rfl)

@[simp] theorem fences_hodCycle (s : State) (q n m : Nat) : fences (hodCycle s q n m).1 = fences s := by simp [hodCycle]

@[simp] theorem fences_urgentTime (s : State) (q c cycles : Nat) : fences (urgentTime s q c cycles) = fences s := by simp [urgentTime]

@[simp] theorem fences_urgentFree (s : State) (q c : Nat) : fences (urgentFree s q c) = fences s := by simp [urgentFree]

@[simp] theorem fences_admitSlot (s : State) (slot : Nat) : fences (admitSlot s slot) = fences s := by
  unfold admitSlot
  split <;> simp

@[simp] theorem fences_urgentFirst (s : State) (c : Nat) : fences (urgentFirst s c) = fences s := by simp [urgentFirst]

@[simp] theorem fences_takeQueue (s : State) (q : Nat) : fences (takeQueue s q).1 = fences s := by simp [takeQueue]

@[simp] theorem fences_devPush (s : State) (req : Req) (q : Nat) (es : List (List Byte)) (bad : List Nat) :
    fences (devPush s req q es bad).1 = fences s := by
  simp [devPush]

@[simp] theorem fences_devPushFree (s : State) (q : Nat) (e : List Byte) : fences (devPushFree s q e).1 = fences s := by simp [devPushFree]

@[simp] theorem fences_pushFrom (s : State) (v : Via) (q : Nat) (e : List Byte) :
    fences (pushFrom s v q e).1 = fences s := by
  unfold pushFrom
  exact fences_carryCall (fun u => fences_devPushFree u q e) s _ _ _ _ _

@[simp] theorem fences_pushNoResult (s : State) (j : Job) (tag ts : Nat) (concealed : Bool) :
    fences (pushNoResult s j tag ts concealed) = fences s := by
  simp [pushNoResult]

/-! Reads: from the host, from DRAM and from SRAM. -/

theorem fences_carryRead {f : State → State × Got} (hf : ∀ u, fences (f u).1 = fences u) (s : State) (v : Via) (a n : Nat) :
    fences (carryRead s v a n f).1 = fences s := by
  unfold carryRead
  split <;> simp [hf]

@[simp] theorem fences_logCor (s : State) (fn bitNo : Nat) : fences (logCor s fn bitNo) = fences s := (rfl)

@[simp] theorem fences_logAer (s : State) (fn bitNo : Nat) (header : List Nat) : fences (logAer s fn bitNo header) = fences s := by simp [logAer]

@[simp] theorem fences_poisonIn (s : State) (req : Req) (fn : Nat) (a : Option Nat) (hdr : List Nat) : fences (poisonIn s req fn a hdr) = fences s := by
  simp [poisonIn]

theorem fences_hostAnswer {hold : State → State} (hhold : ∀ u, fences (hold u) = fences u) (s : State) (fn a0 tag n : Nat) :
    fences (hostAnswer s fn a0 tag n hold).1 = fences s := by
  unfold hostAnswer
  dsimp only
  split
  · simp
  · simp [hhold]
  · simp

@[simp] theorem fences_peak (s : State) (off hi lo x : Nat) : fences (peak s off hi lo x) = fences s := (rfl)

@[simp] theorem fences_sendRead (s : State) (id fn a n tag : Nat) : fences (sendRead s id fn a n tag) = fences s := by simp [sendRead]

@[simp] theorem fences_hostRequest (s : State) (r : StuckRead) (a n : Nat) : fences (hostRequest s r a n).1 = fences s := by
  unfold hostRequest
  split
  · simp
  · exact (fences_hostAnswer (by simp) _ _ _ _ _).trans (by simp)

@[simp] theorem fences_hostRequests (k : StuckRead) (ps : List (Nat × Nat)) (s : State) : fences (hostRequests k ps s).1 = fences s := by
  induction ps generalizing s with
  | nil => rfl
  | cons p ps ih => exact (ih _).trans (fences_hostRequest s k p.1 p.2)

@[simp] theorem fences_hostRead (s : State) (req : Req) (w a n : Nat) : fences (hostRead s req w a n).1 = fences s := by
  unfold hostRead
  split
  · have hsame (u : State) : fences (id u) = fences u := rfl
    simp [fences_hostAnswer hsame]
  · split
    · rfl
    · split <;> simp

@[simp] theorem fences_arrayRead (s : State) (u a n seq : Nat) : fences (arrayRead s u a n seq).1 = fences s :=
  fences_foldl (fun s g => fences_checkBurst s 0 g) _ s

@[simp] theorem fences_mitigate (s : State) (u b : Nat) : fences (mitigate s u b) = fences s := by
  unfold mitigate
  split <;> simp

@[simp] theorem fences_mitigateAll (s : State) (u b : Nat) : fences (mitigateAll s u b) = fences s := by simp [mitigateAll]

theorem fences_engineCommand {s t : State} {u : Nat} {r : DramReq} (h : engineCommand s u r = some t) : fences t = fences s := by
  unfold engineCommand at h
  dsimp only at h
  split at h
  · cases h
  · cases h
    simp

@[simp] theorem fences_localRead (s : State) (a n : Nat) : fences (localRead s a n).1 = fences s := by
  unfold localRead
  split <;> simp

@[simp] theorem fences_readMem (s : State) (v : Via) (a n : Nat) : fences (readMem s v a n).1 = fences s := by
  unfold readMem
  split
  · split
    · simp
    · next h => simpa using fences_engineCommand h
  · simp

@[simp] theorem fences_windowRead (s : State) (v : Via) (a n : Nat) : fences (windowRead s v a n).1 = fences s := by
  unfold windowRead
  split <;> simp

@[simp] theorem fences_placeRead (s : State) (v : Via) (a n : Nat) : fences (placeRead s v a n).1 = fences s := by
  unfold placeRead
  split <;> simp

@[simp] theorem fences_devRead (s : State) (v : Via) (a n : Nat) :
    fences (devRead s v a n).1 = fences s := by
  unfold devRead
  exact fences_carryRead (fun u => fences_placeRead u v a n) s v a n

@[simp] theorem fences_readPieces (ps : List (Nat × Nat)) (s : State) (v : Via) : fences (readPieces ps s v).1 = fences s := by
  induction ps generalizing s with
  | nil => rfl
  | cons p ps ih =>
    unfold readPieces
    simp [ih]

@[simp] theorem fences_readRange (s : State) (v : Via) (a n : Nat) : fences (readRange s v a n).1 = fences s := by simp [readRange]

/-! Jobs and partitions of the dispatcher. -/

@[simp] theorem fences_emitNoResults (s : State) (ident : Nat) (j : Job) : fences (emitNoResults s ident j) = fences s := by
  unfold emitNoResults
  simp

@[simp] theorem fences_updDpt (s : State) (f : Dispatcher → Dispatcher) : fences (updDpt s f) = fences s := (rfl)

@[simp] theorem fences_noResults (s : State) (ident : Nat) (j : Job) : fences (noResults s ident j) = fences s := by simp [noResults]

@[simp] theorem fences_dispose (s : State) (ident : Nat) (j : Job) (action : Nat) (ended : Bool) :
    fences (dispose s ident j action ended) = fences s := by
  unfold dispose
  split <;> simp

@[simp] theorem fences_partEvent (s : State) (p b : Nat) : fences (partEvent s p b) = fences s := by simp [partEvent]

@[simp] theorem fences_safeSet (s : State) (b : Nat) (on : Bool) : fences (safeSet s b on) = fences s := by simp [safeSet]

@[simp] theorem fences_sentinelJob (s : State) (missed : Bool) : fences (sentinelJob s missed) = fences s := by simp [sentinelJob]

@[simp] theorem fences_updModel (s : State) (m : Nat) (f : Model → Model) : fences (updModel s m f) = fences s := (rfl)

@[simp] theorem fences_reportMiss (s : State) (j : Job) (action : Nat) (running : Bool) : fences (reportMiss s j action running) = fences s := by
  simp [reportMiss]

@[simp] theorem fences_missAborted (s : State) (n : Nat) (j : Job) : fences (missAborted s n j) = fences s := by simp [missAborted]

@[simp] theorem fences_sendAbort (s : State) (n : Nat) (urgent : Bool) : fences (sendAbort s n urgent) = fences s := by simp [sendAbort]

@[simp] theorem fences_settlePart (now : Bool) (s : State) (p : Nat) : fences (settlePart now s p) = fences s := by simp [settlePart]

@[simp] theorem fences_settleParts (s : State) : fences (settleParts s) = fences s := by simp [settleParts]

@[simp] theorem fences_updJobAt (s : State) (n : Nat) (urgent : Bool) (f : Job → Job) : fences (updJobAt s n urgent f) = fences s := (rfl)

@[simp] theorem fences_dramLost (s : State) (u : Nat) : fences (dramLost s u) = fences s := by simp [dramLost]

@[simp] theorem fences_resumeNoResults (s : State) : fences (resumeNoResults s) = fences s := by simp [resumeNoResults]

/-! What a fence brings, and what settles after an instruction. -/

@[simp] theorem fences_fenceSub (s : State) (u : Nat) : fences (fenceSub s u) = fences s := by simp [fenceSub]

@[simp] theorem fences_fenceUnit (s : State) (unit : Nat) : fences (fenceUnit s unit) = fences s := by simp [fenceUnit]

@[simp] theorem fences_updSrc (s : State) (n : Nat) (f : Source → Source) : fences (updSrc s n f) = fences s := (rfl)

@[simp] theorem fences_stallSource (s : State) (src : Nat) : fences (stallSource s src) = fences s := by simp [stallSource]

@[simp] theorem fences_withdrawFenced (s : State) (n : Nat) : fences (withdrawFenced s n) = fences s := by simp [withdrawFenced]

@[simp] theorem fences_fenceOutcome (s : State) (n : Nat) : fences (fenceOutcome s n) = fences s := by simp [fenceOutcome]

@[simp] theorem fences_updAud (s : State) (f : Audio → Audio) : fences (updAud s f) = fences s := (rfl)

@[simp] theorem fences_audSettle (s : State) : fences (audSettle s) = fences s := by simp [audSettle]

@[simp] theorem fences_safeLevels (s : State) : fences (safeLevels s) = fences s := by simp [safeLevels]

@[simp] theorem fences_settlePage (s : State) (pg : Nat) : fences (settlePage s pg) = fences s := by simp [settlePage]

@[simp] theorem fences_settle (s : State) : fences (settle s) = fences s := by simp [settle]

end Sys2Proof.Fences
end

section
/-! The number of islands, on the way of a change set that an island's fence ends. -/
namespace Sys2Proof.Fences
open Sys2Proof Sys2Proof.Machine Sys2Proof.Islands

theorem isl_length_of_fences {s t : State} (h : fences t = fences s) : t.isl.length = s.isl.length := by
  unfold fences at h
  simpa only [List.length_map] using congrArg List.length h

@[simp] theorem fences_clearMem (s : State) (a n : Nat) : fences (clearMem s a n) = fences s := by simp [clearMem]

@[simp] theorem fences_loseEngines (s : State) (n : Nat) : fences (loseEngines s n) = fences s := by simp [loseEngines]

@[simp] theorem fences_reinitPool (s : State) (p : Nat) : fences (reinitPool s p) = fences s := (rfl)

@[simp] theorem fences_switchLayout (s : State) (spare : Bool) : fences (switchLayout s spare) = fences s := by
  unfold switchLayout
  dsimp only
  refine (fences_foldl (fun u k => by simp) _ _).trans ((fences_foldl (fun u r => ?_) _ _).trans ?_)
  · split <;> simp
  · simp

@[simp] theorem fences_returnCores (s : State) : fences (returnCores s) = fences s := by simp [returnCores]

@[simp] theorem fences_updCtx (s : State) (c : Nat) (f : KeyCtx → KeyCtx) : fences (updCtx s c f) = fences s := (rfl)

@[simp] theorem fences_historyRestart (s : State) : fences (historyRestart s) = fences s := (rfl)

@[simp] theorem fences_enableSource (s : State) (k : Nat) : fences (enableSource s k) = fences s := (rfl)

@[simp] theorem fences_commitPage (e : Nat) (s : State) (pg : Nat) : fences (commitPage e s pg) = fences s := by simp [commitPage]

@[simp] theorem fences_seamEnd (s : State) (result cause e : Nat) : fences (seamEnd s result cause e) = fences s := by simp [seamEnd]

theorem isl_length_updIsl (s : State) (n : Nat) (f : Island → Island) : (updIsl s n f).isl.length = s.isl.length := by simp [updIsl, updAt]

theorem isl_length_keepUp (s : State) (n : Nat) : (keepUp s n).isl.length = s.isl.length := by
  have hloses := isl_length_of_fences (fences_loseEngines s n)
  unfold keepUp
  dsimp only
  split
  · rfl
  · split <;> simp [isl_length_updIsl, hloses]

theorem isl_length_requestPoint (s : State) (n : Nat) (p : Point) : (requestPoint s n p).isl.length = s.isl.length := by
  unfold requestPoint
  split
  · rfl
  · split <;> simp [isl_length_updIsl]

theorem isl_length_foldl {α : Type} {f : State → α → State} (hf : ∀ s x, (f s x).isl.length = s.isl.length) (l : List α) (s : State) :
    (l.foldl f s).isl.length = s.isl.length := by
  induction l generalizing s with
  | nil => rfl
  | cons x l ih => exact (ih _).trans (hf s x)

theorem isl_length_raiseFloor (s : State) (g : Nat) : (raiseFloor s g).isl.length = s.isl.length := by
  unfold raiseFloor
  dsimp only
  split
  · exact isl_length_of_fences (by simp)
  · exact (isl_length_foldl (fun s n => isl_length_requestPoint s n _) _ _).trans (isl_length_of_fences (by simp))

theorem isl_length_holdMedia (s : State) : (holdMedia s).isl.length = s.isl.length := by
  unfold holdMedia
  split
  · rw [isl_length_raiseFloor, isl_length_keepUp, isl_length_keepUp]
  · rfl

theorem isl_length_commitEffects (old : State) (pages : List Nat) (s : State) : (commitEffects old pages s).isl.length = s.isl.length := by
  unfold commitEffects
  dsimp only
  refine (isl_length_of_fences (fences_foldl (fun u k => by simp) _ _)).trans ?_
  split
  · exact isl_length_of_fences (by simp)
  · exact (isl_length_holdMedia _).trans (isl_length_of_fences (by simp))

theorem isl_length_commitPages (s : State) (pages : List Nat) (e : Nat) : (commitPages s pages e).isl.length = s.isl.length :=
  (isl_length_commitEffects s pages _).trans (isl_length_of_fences (fences_foldl (fences_commitPage e) pages s))

theorem isl_length_seamCommit (s : State) : (seamCommit s).isl.length = s.isl.length :=
  (isl_length_of_fences (by simp [seamCommit])).trans (isl_length_commitPages s (seamMembers s) (nextEpoch s))

theorem isl_length_seamLoses (s : State) (n : Nat) : (seamLoses s n).isl.length = s.isl.length := by
  unfold seamLoses seamAbort
  split
  · split
    · rfl
    · split
      · exact isl_length_seamCommit s
      · exact isl_length_of_fences (by simp)
  · rfl

/-- An island that shows the same in `fences` is fenced and in a step as before. -/
theorem fenceView_island {s t : State} (h : fences t = fences s) (n : Nat) : fenceView (island t n) = fenceView (island s n) := by
  have hview (u : State) : fenceView (island u n) = (fences u).getD n (fenceView {}) := by
    unfold island nth fences
    rw [List.getD_eq_getElem?_getD, List.getElem?_map, Option.getD_map]
  rw [hview t, hview s, h]

end Sys2Proof.Fences
end

section
/-! Islands under supervision: late steps, regulators, fences, gating, power-up and scrubbing (R59, R64, R66 to R68, R92, R95). -/
namespace Sys2Proof.Islands
open Sys2Proof Sys2Proof.Machine Sys2Proof.Laws Sys2Proof.Claims Sys2Proof.RegisterPages Sys2Proof.Mesh Sys2Proof.Fences

/-! A step that runs late, and a regulator's fault, are captured by AON. -/

/-- What AON captures after island `n` changes leaves that island so, and is within the frame of AON's page. -/
theorem island_captured {s t : State} {n : Nat} {f : Island → Island} (hn : n < s.isl.length) (h : OnPage P.aon (updIsl s n f) t) :
    island t n = f (island s n) ∧ Frame s { t with isl := s.isl } [P.aon] := by
  have hisl : t.isl = (updIsl s n f).isl := (congrArg State.isl h.rest :)
  refine ⟨?_, frame_of_onPage ⟨congrArg (fun x : State => { x with isl := s.isl }) h.rest, h.regs⟩⟩
  rw [island, hisl]
  exact island_updIsl_self hn f

theorem runs_stepLate {s : State} {n : Nat} (hn : n < s.isl.length) (ns : Nat) (hstep : (island s n).step.isSome = true)
    (hlate : (island s n).late = false) : Runs (.stepLate n ns) s fun t =>
      (island t n).late = true ∧ Raised t P.aon 10 ∧ Frame s { t with isl := s.isl } [P.aon] := by
  have hpage : OnPage P.aon (updIsl s n fun i => { i with late := true })
      (raise (hwFault (updIsl s n fun i => { i with late := true }) P.aon 4 (n + min ns 0xFFFF * 0x10000)) P.aon 10) :=
    (onPage_hwFault _ _).trans (onPage_raise _)
  obtain ⟨hi, hframe⟩ := island_captured hn hpage
  refine ⟨_, ?_, congrArg Island.late hi, rb_raise _ _ (by decide), hframe⟩
  show execStepLate n ns s = _
  simp [execStepLate, hstep, hlate]

theorem runs_regFault {s : State} {n : Nat} (hn : n < s.isl.length) (high : Bool) (dev : Nat) (h0 : n ≠ 0) (hlive : (island s n).live = true)
    (hexc : (island s n).excursion = false) : Runs (.regFault n high dev) s fun t =>
      (island t n).excursion = true ∧ Raised t P.aon 9 ∧ Frame s { t with isl := s.isl } [P.aon] := by
  have hpage : OnPage P.aon (updIsl s n fun i => { i with excursion := true })
      (raise (hwFault (bump (updIsl s n fun i => { i with excursion := true }) R.AON_REG_FAULTS 15 0 1) P.aon (if high then 3 else 2)
        (n + min dev 255 * 0x100)) P.aon 9) :=
    (onPage_bump (by decide)).trans ((onPage_hwFault _ _).trans (onPage_raise _))
  obtain ⟨hi, hframe⟩ := island_captured hn hpage
  refine ⟨_, ?_, congrArg Island.excursion hi, rb_raise _ _ (by decide), hframe⟩
  show execRegFault n high dev s = _
  simp [execRegFault, h0, hlive, hexc]

theorem runs_regReturn {s : State} {n : Nat} (hn : n < s.isl.length) (hf : (island s n).fenced = false) :
    Runs (.regReturn n) s fun t => (island t n).excursion = false ∧ Frame s { t with isl := s.isl } [] := by
  refine ⟨_, rfl, ?_, frame_updIsl s n _ []⟩
  rw [island_updIsl_self hn]
  simp [hf]

/-! An excursion that lasts. -/

/-- The state after island `n` is fenced. -/
def fencing (s : State) (n : Nat) : State :=
  settle (fenceOutcome (updIsl (seamLoses s n) n fun i => { i with fenced := true, step := none, nextPoint := none, nextState := none }) n)

theorem gives_islandFence {s : State} {n : Nat} (h0 : n ≠ 0) (hexc : (island s n).excursion = true) (hf : (island s n).fenced = false)
    (hu : Unheld (fencing (withHost s []) n)) : Gives (.islandFence n) s (given s (fencing (withHost s []) n)) := by
  refine served_next (congrArg Host.Outcome.next ?_) hu
  have hexc' : (island (withHost s []) n).excursion = true := hexc
  have hf' : (island (withHost s []) n).fenced = false := hf
  unfold islandFence
  exact if_neg (by simp [h0, hexc', hf'])

/-- What a fence brings, and what settles after it, leaves the island fenced and without a step. -/
theorem island_fencing {s : State} {n : Nat} (hn : n < s.isl.length) :
    (island (fencing s n) n).fenced = true ∧ (island (fencing s n) n).step = none := by
  have hview := fenceView_island ((fences_settle _).trans (fences_fenceOutcome _ n) : fences (fencing s n) = _) n
  rw [island_updIsl_self ((isl_length_seamLoses s n).symm ▸ hn)] at hview
  exact Prod.mk.inj hview

/-! Gating, and the way back up. -/

section
variable {s : State} {n : Nat} (hlow : 3 ≤ n) (hhigh : n ≤ 38)
include hlow hhigh

theorem gives_islandGate (hpol : rf s (R.AON_ISL_CTRL n) 1 0 = 0) (hruns : islandRuns s n = true) (hidle : islandIdle s n = true)
    (huse : dmcInUse s n = false) (hon : (island s n).st = .on) : Gives (.islandGate n false) s (askState s n .gated) := by
  show execIslandGate n false s = _
  unfold execIslandGate
  rw [if_neg (by simp [hpol, hruns, hidle, huse]; omega), if_pos (by decide), if_pos hon]

theorem gives_islandRetain (hpol : rf s (R.AON_ISL_CTRL n) 1 0 = 0) (hruns : islandRuns s n = true) (hidle : islandIdle s n = true)
    (huse : dmcInUse s n = false) (hretain : rb s (R.AON_ISL_CTRL n) 2 = true) (hstays : staysUp s n = false) :
    Gives (.islandGate n true) s (askState s n .retain) := by
  show execIslandGate n true s = _
  unfold execIslandGate
  rw [if_neg (by simp [hpol, hruns, hidle, huse]; omega), if_neg (by decide), if_pos (by simp [hretain, hstays])]

theorem runs_islandPowerUp (hn : n < s.isl.length) (hheld : s.boot.held = false) (hpol : rf s (R.AON_ISL_CTRL n) 1 0 ≠ 2)
    (hoff : (island s n).st = .off) (hf : (island s n).fenced = false) :
    Runs (.islandPowerUp n) s fun t => (island t n).initing = true ∧ islandRuns t n = false := by
  have hlength := isl_length_of_fences (fences_loseEngines s n)
  have hi : island (updIsl (loseEngines s n) n fun _ => { initing := true }) n = { initing := true } := island_updIsl_self (hlength ▸ hn) _
  refine ⟨_, ?_, congrArg Island.initing hi, ?_⟩
  · show execIslandPowerUp n s = _
    unfold execIslandPowerUp
    rw [if_neg (by simp [hheld, hpol, hoff, hf]; omega)]
  · unfold islandRuns
    rw [← island, hi]
    rfl
end

/-- A point that is asked changes no power state, no point and no writing of the stores. -/
theorem island_requestPoint {s : State} {n : Nat} {p : Point} (hn : n < s.isl.length) :
    (island (requestPoint s n p) n).st = (island s n).st ∧ (island (requestPoint s n p) n).point = (island s n).point
      ∧ (island (requestPoint s n p) n).initing = (island s n).initing := by
  unfold requestPoint
  split
  · exact ⟨rfl, rfl, rfl⟩
  · split
    · exact ⟨rfl, rfl, rfl⟩
    · rw [island_updIsl_self hn]
      split
      · exact ⟨rfl, rfl, rfl⟩
      · split
        · exact ⟨rfl, rfl, rfl⟩
        · split <;> exact ⟨rfl, rfl, rfl⟩

/-- The state after the stores of island `n` are written: it is ON at its starting point. -/
def initialised (s : State) (n : Nat) : State := updIsl s n fun _ => { st := .on, point := startPoint n }

theorem exec_islandInitDone {s : State} {n : Nat} (hinit : (island s n).initing = true) :
    exec (.islandInitDone n) s = .next (if (n = 28 ∨ n = 29) ∧ sentinelOn (initialised s n) then
      requestPoint (initialised s n) n (nth (grpPoints 9) (rf (initialised s n) (R.PLB_GRP_POINT 9) 2 0) ⟨0, 0⟩) else initialised s n) := by
  show execIslandInitDone n s = _
  unfold execIslandInitDone
  exact if_neg (by simp [hinit])

theorem runs_islandInitDone {s : State} {n : Nat} (hn : n < s.isl.length) (hinit : (island s n).initing = true) :
    Runs (.islandInitDone n) s fun t => (island t n).st = .on ∧ (island t n).point = startPoint n ∧ (island t n).initing = false := by
  have hi : island (initialised s n) n = { st := .on, point := startPoint n } := island_updIsl_self hn _
  have hn' : n < (initialised s n).isl.length := (isl_length_updIsl s n _).symm ▸ hn
  refine ⟨_, exec_islandInitDone hinit, ?_⟩
  split
  · obtain ⟨hst, hpoint, hiniting⟩ := island_requestPoint (p := nth (grpPoints 9) (rf (initialised s n) (R.PLB_GRP_POINT 9) 2 0) ⟨0, 0⟩) hn'
    rw [hst, hpoint, hiniting, hi]
    exact ⟨rfl, rfl, rfl⟩
  · rw [hi]
    exact ⟨rfl, rfl, rfl⟩

/-! A scrub step. -/

theorem nth_updAt_self {α : Type} {l : List α} {k : Nat} (h : k < l.length) (f : α → α) (d : α) : nth (updAt l k f) k d = f (nth l k d) := by
  simp [nth, updAt, h]

/-- The state after the granule at a bank's scrub position has been checked, where the bank is not busy. -/
def scrubChecked (s : State) (bank : Nat) (busy : Bool) : State :=
  if busy then s else checkRange s 1 (bankGranule bank (nth s.scrubPos bank 0)) 64

theorem checks_scrubChecked (s : State) (bank : Nat) (busy : Bool) : Checks s (scrubChecked s bank busy) :=
  .ite (.refl s) (checks_checkRange s _ _ _)

/-- The state after a bank's scrub position has gone on. -/
def scrubbed (s : State) (bank : Nat) (busy : Bool) : State :=
  { scrubChecked s bank busy with
    scrubPos := updAt (scrubChecked s bank busy).scrubPos bank fun _ => (nth s.scrubPos bank 0 + 1) % bankGranules bank }

theorem runs_sramScrubStep {s : State} {bank : Nat} (busy : Bool) (hb : bank < 272) (hlength : s.scrubPos.length = 272)
    (hon : (if bank < 16 then rb s R.MTR_SCRUB_CTRL 0 else rb s (R.ASH_SRAMCFG ((bank - 16) / 32)) 0) = true)
    (hoff : (island s (bankIsland bank)).st ≠ .off) (hretain : (island s (bankIsland bank)).st ≠ .retain)
    (hf : (island s (bankIsland bank)).fenced = false) (hinit : (island s (bankIsland bank)).initing = false) :
    Runs (.sramScrubStep bank busy) s fun t =>
      nth t.scrubPos bank 0 = (nth s.scrubPos bank 0 + 1) % bankGranules bank ∧ SameBytes s t := by
  have hcheck := checks_scrubChecked s bank busy
  have hexec : exec (.sramScrubStep bank busy) s = .next (if bank < 16 then
      setReg (scrubbed s bank busy) R.MTR_SCRUB_POS (BitVec.ofNat 32 (bank + 16 * nth s.scrubPos bank 0)) else scrubbed s bank busy) := by
    show execSramScrubStep bank busy s = _
    unfold execSramScrubStep
    exact if_neg (by simp [hon, hoff, hretain, hf, hinit]; omega)
  have hpos : nth (scrubbed s bank busy).scrubPos bank 0 = (nth s.scrubPos bank 0 + 1) % bankGranules bank :=
    nth_updAt_self (by rw [hcheck.scrubPos]; omega) _ _
  refine ⟨_, hexec, ?_⟩
  split <;> exact ⟨hpos, sameBytes_of_mem hcheck.mem⟩

/-- Settles O32, clause by clause: a late step, a regulator's fault and its return, the fence, gating and retention, power-up and its end, a scrub step. -/
theorem islandSupervision : Obligations.IslandSupervision := by
  unfold Obligations.IslandSupervision
  intro s n ns dev high hn
  refine ⟨runs_stepLate hn ns, runs_regFault hn high dev, runs_regReturn hn, fun h0 hexc hf _ => ⟨island_fencing hn, gives_islandFence h0 hexc hf⟩,
    fun hlow hhigh => ⟨gives_islandGate hlow hhigh, gives_islandRetain hlow hhigh, runs_islandPowerUp hlow hhigh hn, runs_islandInitDone hn⟩,
    fun bank busy => runs_sramScrubStep busy⟩

end Sys2Proof.Islands
end

section
/-! Resets of the die: BOOT_RESET_REQ (R101). -/
namespace Sys2Proof.PowerUp
open Sys2Proof Sys2Proof.Machine Sys2Proof.Laws Sys2Proof.Claims Sys2Proof.RegisterPages

/-- An accepted write brings about what its register's write brings about, whatever the requests of the command in progress have met. -/
theorem pageWrite_regAct {s : State} {req : Req} {off w : Nat} {r : RegSpec} (h : Accepted s req off w r) (h4 : off % 4 = 0) :
    pageWrite s req off 4 w = (regAct (awake s off) req r off w, MS.ok) := by
  obtain ⟨-, hoff, hw, hpage, hfind, hcauses⟩ := h
  unfold pageWrite
  rw [if_neg (by omega), if_pos ⟨rfl, h4⟩, Nat.mod_eq_of_lt hw]
  unfold regWrite
  rw [hpage]
  simp only [Bool.false_eq_true, if_false, hfind, hcauses]

theorem findReg_bootResetReq {r : RegSpec} (h : findReg R.BOOT_RESET_REQ = some r) : r.name = "BOOT_RESET_REQ" := by
  have hname : (findReg R.BOOT_RESET_REQ).map (·.name) = some "BOOT_RESET_REQ" := by decide +kernel
  rw [h] at hname
  exact Option.some.inj hname

/-- The key with RESET, from a requester that may, resets the die. -/
theorem regAct_bootResetReq {s : State} {req : Req} {r : RegSpec} {off w : Nat} (hname : r.name = "BOOT_RESET_REQ") (hkey : bits w 15 0 = 0x5EED)
    (hreset : bit w 16 = true) (hreq : req = .pf ∨ req = .fyp) : regAct s req r off w = dieReset s 3 true := by
  have hmay : (bit w 16 && (req == .pf || req == .fyp)) = true := by
    rcases hreq with rfl | rfl <;> simp [hreset]
  unfold regAct
  simp only [hname, hkey, hmay]
  simp

/-- Settles O23: the write resets the die, and so it does after the record being written has broken off. -/
theorem resetRequestResetsTheDie : Obligations.ResetRequestResetsTheDie := by
  unfold Obligations.ResetRequestResetsTheDie
  intro s req w torn r hacc hcauses hpage hup hkey hreset hreq
  obtain ⟨hheld, hoff, hw, -, hfind, -⟩ := id hacc
  have hwrite {u : State} (hu : Accepted u req R.BOOT_RESET_REQ w.toNat r) :
      (pageWrite u req R.BOOT_RESET_REQ 4 w.toNat).1 = dieReset (awake u R.BOOT_RESET_REQ) 3 true := by
    rw [pageWrite_regAct hu (by decide), regAct_bootResetReq (findReg_bootResetReq hfind) hkey hreset hreq]
  show execBootResetReq req w torn s = _
  unfold execBootResetReq
  rw [if_neg (by simp [hheld]), hwrite hacc, hwrite ⟨hup, hoff, hw, hpage, hfind, hcauses⟩]
  rfl

end Sys2Proof.PowerUp
end

section
/-! Supply and resets of the die (04 R98 to R101; 23 R704, R715; 26 R770). -/
namespace Sys2Proof.PowerUp
open Sys2Proof Sys2Proof.Machine Sys2Proof.Laws Sys2Proof.Claims Sys2Proof.RegisterPages Sys2Proof.Islands

/-- What every step of a fold leaves as it was, the fold leaves as it was. -/
theorem foldl_keeps {α β : Type} {g : State → β} {f : State → α → State} (hf : ∀ s x, g (f s x) = g s) (l : List α) (s : State) :
    g (l.foldl f s) = g s :=
  List.foldlRecOn (motive := fun t => g t = g s) l f rfl fun t ht x _ => (hf t x).trans ht

theorem boot_of_onPage {pg : Nat} {s t : State} (h : OnPage pg s t) : t.boot = s.boot := (congrArg State.boot h.rest :)

theorem mem_of_onPage {pg : Nat} {s t : State} (h : OnPage pg s t) : t.mem = s.mem := (unchanged_of_onPage h).1

/-! A reset. -/

/-- A record that breaks off changes the recorder alone. -/
theorem tornWrite_regs (s : State) (k : Nat) : (tornWrite s k).regs = s.regs := by
  have hsteps (u : State) (b : List Byte) (n : Nat) : (writeSteps u b n).regs = u.regs := by
    unfold writeSteps
    dsimp only [updCsh, putEntry]
    repeat' split
    all_goals rfl
  unfold tornWrite
  split
  · exact hsteps _ _ _
  · rfl

/-- A reset that keeps registers keeps FLT_SAFE_SEEN (R101). -/
theorem rd_safeSeen_dieReset (s : State) (cause : Nat) : rd (dieReset s cause true) R.FLT_SAFE_SEEN = rd s R.FLT_SAFE_SEEN :=
  rd_setReg_self _ _ _

theorem runs_supplyRamp {s : State} (hoff : s.boot.powered = false) : Runs .supplyRamp s fun t =>
    t.boot.powered = true ∧ t.boot.held = true ∧ t.mem = [] ∧ t.boot.otp = s.boot.otp := by
  refine ⟨updBoot (dieReset s 0 false) fun b => { b with powered := true }, ?_, rfl, rfl, rfl, rfl⟩
  show execSupplyRamp s = _
  unfold execSupplyRamp
  exact if_neg (by simp [hoff])

theorem runs_brownout {s : State} (hon : s.boot.powered = true) (hup : s.boot.held = false) : Runs .brownout s fun t =>
    t.boot.held = true ∧ t.boot.cause = 1 ∧ t.mem = [] ∧ t.boot.flash = s.boot.flash ∧ t.csh.ring = [] := by
  refine ⟨dieReset s 1 false, ?_, rfl, rfl, rfl, rfl, rfl⟩
  show execBrownout s = _
  unfold execBrownout
  exact if_neg (by simp [hon, hup])

theorem runs_pinReset {s : State} (torn : Nat) (hon : s.boot.powered = true) : Runs (.pinReset torn) s fun t =>
    t.boot.held = true ∧ t.boot.cause = 2 ∧ t.mem = [] ∧ t.csh.ring = (tornWrite s torn).csh.ring ∧ rd t R.FLT_SAFE_SEEN = rd s R.FLT_SAFE_SEEN := by
  refine ⟨dieReset (tornWrite s torn) 2 true, if_pos hon, rfl, rfl, rfl, rfl, (rd_safeSeen_dieReset _ _).trans ?_⟩
  unfold rd
  rw [tornWrite_regs]

theorem runs_supplyLow {s : State} {mv us : Nat} (hup : s.boot.held = false) (hus : 10 ≤ us) (hlow : 1620 ≤ mv) (hhigh : mv < 1710) :
    Runs (.supplyLow mv us) s fun t => Raised t P.aon 0 ∧ SameBytes s t := by
  refine ⟨hwFault s P.aon 6 (mv % 65536 + min us 65535 * 65536), ?_, rb_fault _ _ _ _ _ _, sameBytes_of_mem (mem_of_onPage (onPage_hwFault _ _))⟩
  show execSupplyLow mv us s = _
  unfold execSupplyLow
  exact if_neg (by simp [hup]; omega)

/-! The release of reset (R99, R100). -/

/-- The die at the release of reset: SERVICE_N is sampled, the cause is shown, islands 1 and 2 are on. -/
def released (s : State) : State :=
  let s := updBoot s fun b => { b with held := false, strap := s.jione.service, released := s.clock }
  let s := wb s R.BOOT_RESET_CAUSE s.boot.cause true
  [1, 2].foldl (fun s n => updIsl s n fun _ => { st := .on, point := startPoint n }) s

/-- The records that Fypajo owes go to the recorder, behind what is on its way, and change nothing else. -/
theorem softRecords_rest (l : List SwRecord) (s : State) :
    ∃ q, l.foldl (fun s r => softRecord s .fyp r.code r.params) s = { s with toCsh := q } := by
  induction l generalizing s with
  | nil => exact ⟨s.toCsh, rfl⟩
  | cons r l ih => exact ih _

theorem island_released {s : State} (h : s.isl.length = 39) : (island (released s) 1).st = .on := by
  simp [island, released, updIsl, updBoot, updAt, nth, h]

theorem runs_resetRelease {s : State} (hon : s.boot.powered = true) (hheld : s.boot.held = true) (hcause : s.boot.cause < 32)
    (hisl : s.isl.length = 39) : Runs .resetRelease s fun t =>
      t.boot.held = false ∧ t.boot.strap = s.jione.service ∧ rb t R.BOOT_RESET_CAUSE s.boot.cause = true ∧ (island t 1).st = .on
        ∧ ∃ o, t.csh.arrived = o :: s.csh.arrived ∧ o.code = 0xC001 := by
  obtain ⟨q, hq⟩ := softRecords_rest s.jione.later (resetRecord (released s))
  refine ⟨{ resetRecord (released s) with toCsh := q, jione := { s.jione with later := [] } }, ?_, rfl, rfl,
    rb_wb_self (s := updBoot s _) (b := true) hcause, island_released hisl, _, rfl, rfl⟩
  show execResetRelease s = _
  unfold execResetRelease
  rw [if_neg (by simp [hon, hheld])]
  exact congrArg (fun u : State => Host.Outcome.next { u with jione := { u.jione with later := [] } }) hq

end Sys2Proof.PowerUp
end

section
/-! The phases of a boot: BOOT_PHASE, the service and the recovery state, and the choice of an image and a manifest (04 R110 to R120). -/
namespace Sys2Proof.PowerUp
open Sys2Proof Sys2Proof.Machine Sys2Proof.Laws Sys2Proof.Claims Sys2Proof.RegisterPages Sys2Proof.Islands

/-! BOOT_PHASE. -/

theorem phase_of_rd {s t : State} (h : rd t R.BOOT_PHASE = rd s R.BOOT_PHASE) : phase t = phase s := by
  unfold phase rf
  rw [h]

theorem phase_wf {s : State} {ph : Nat} (h : ph < 16) : phase (wf s R.BOOT_PHASE 3 0 ph) = ph :=
  (rf_wf_self (by decide)).trans (Nat.mod_eq_of_lt h)

/-- The ROM's end shows its phase. -/
theorem phase_bootEnds {s : State} {ph : Nat} (h : ph < 16) : phase (bootEnds s ph) = ph :=
  (phase_of_rd (rd_wb_ne (by decide))).trans (phase_wf h)

/-! Islands that lose their power keep the boot state. -/

theorem boot_loseEngines (s : State) (n : Nat) : (loseEngines s n).boot = s.boot := by
  simp [loseEngines, apply_ite State.boot, clearMem, updSub]

theorem boot_loseIsland (s : State) (n : Nat) : (loseIsland s n).boot = s.boot :=
  (boot_loseEngines _ n).trans (foldl_keeps (g := State.boot) (by intros; rfl) (pagesIn n) s)

theorem boot_putOff (s : State) (n : Nat) : (putOff s n).boot = s.boot := by
  unfold putOff changeIsland
  split
  · rfl
  · split
    · rfl
    · dsimp only
      split
      · exact boot_loseIsland _ n
      · rfl

theorem boot_powerOnly (s : State) (on : List Nat) : (powerOnly s on).boot = s.boot := by
  refine foldl_keeps (g := State.boot) (fun s n => ?_) _ s
  dsimp only
  repeat' split
  · rfl
  · rfl
  · rfl
  · exact boot_putOff _ n

/-! The service and the recovery state (R113, R119, R120). -/

section
variable (s : State) (ph : Nat) (w : Why)

theorem boot_enterService : (enterService s ph w).boot = s.boot :=
  (boot_of_onPage (onPage_raise _)).trans (boot_powerOnly s _)

theorem raised_enterService : Raised (enterService s ph w) P.boot 8 := rb_raise _ P.boot (by decide)
end

theorem phase_enterService {s : State} {ph : Nat} {w : Why} (h : ph < 16) : phase (enterService s ph w) = ph :=
  (phase_of_rd (rd_raise_ne (by decide))).trans (phase_bootEnds h)

/-- The service state: phase 8, with its event. -/
theorem service_entered (s : State) (w : Why) : phase (enterService s 8 w) = 8 ∧ Raised (enterService s 8 w) P.boot 8 :=
  ⟨phase_enterService (by decide), raised_enterService s 8 w⟩

/-! Step 4: the image. -/

/-- The state in which the image of a slot has been taken: its identity and its registers. -/
def imageTaken (s : State) (ab : Nat) : State :=
  let c := containerIn s 0 ab
  let s := updBoot s fun b => { b with image := some { slot := ab, sec := cSec c, build := cBuild c, key := cKey c } }
  let s := wb s R.BOOT_SLOTS 0 (decide (ab = 1))
  setReg s R.BOOT_IMAGE_VER (BitVec.ofNat 32 (cBuild c % 65536 + cSec c % 256 * 65536))

/-- What follows the image: the service state where SERVICE_N was low, step 5 otherwise (R113). -/
def imageBooted (s : State) (ab : Nat) : State :=
  if (imageTaken s ab).boot.strap then enterService (imageTaken s ab) 8 (0x10, 0, 0) else wf (imageTaken s ab) R.BOOT_PHASE 3 0 2

theorem imageBooted_effect (s : State) (ab : Nat) :
    phase (imageBooted s ab) = (if s.boot.strap then 8 else 2) ∧ ∃ m, (imageBooted s ab).boot.image = some m ∧ m.slot = ab := by
  have hstrap : (imageTaken s ab).boot.strap = s.boot.strap := rfl
  unfold imageBooted
  rw [hstrap]
  split
  · refine ⟨phase_enterService (by decide), ?_⟩
    rw [boot_enterService]
    exact ⟨_, rfl, rfl⟩
  · exact ⟨phase_wf (by decide), _, rfl, rfl⟩

section
variable {s : State} {glitch : List Bool} (hup : s.boot.held = false)

/-! BOOT_SLOTS shows whether a copy of the directory governs (R105) before the slots of the image are tried; `k` is their choice. -/

section
variable {k : Pick} (hph : phase s = 1) (hlc : s.boot.otp.lifecycle ≠ 0)
  (hk : selectSlot (wb s R.BOOT_SLOTS 5 (dirGovern s).isNone) 0 glitch = k)
include hup hph hlc hk

theorem runs_imageSelect_none (hnone : k.got = none) : Runs (.imageSelect glitch) s fun t => phase t = 9 ∧ Raised t P.boot 8 := by
  refine ⟨enterService k.s 9 (1, 0, 0), ?_, phase_enterService (by decide), raised_enterService _ _ _⟩
  show execImageSelect glitch s = _
  unfold execImageSelect
  rw [if_neg (by simp [hup, hph, hlc])]
  dsimp only
  rw [hk, hnone]

theorem runs_imageSelect_some {ab : Nat} (hsome : k.got = some ab) : Runs (.imageSelect glitch) s fun t =>
    phase t = (if k.s.boot.strap then 8 else 2) ∧ ∃ m, t.boot.image = some m ∧ m.slot = ab := by
  refine ⟨imageBooted k.s ab, ?_, imageBooted_effect _ ab⟩
  show execImageSelect glitch s = _
  unfold execImageSelect
  rw [if_neg (by simp [hup, hph, hlc])]
  dsimp only
  rw [hk, hsome]
  rfl
end

include hup

/-! Steps 5 to 8. -/

theorem runs_manifestCheck (hph : phase s = 2) : Runs (.manifestCheck glitch) s fun t =>
    if (selectSlot s 1 glitch).got = none then phase t = 8 ∧ Raised t P.boot 8 else phase t = 3 ∨ (phase t = 8 ∧ Raised t P.boot 8) := by
  show ∃ t, execManifestCheck glitch s = .next t ∧ _
  unfold execManifestCheck
  rw [if_neg (by simp [hup, hph])]
  dsimp only
  generalize selectSlot s 1 glitch = k
  cases hgot : k.got with
  | none =>
    refine ⟨_, rfl, ?_⟩
    rw [if_pos rfl]
    exact service_entered _ _
  | some ab =>
    simp only [reduceCtorEq, if_false]
    split
    · exact ⟨_, rfl, .inr (service_entered _ _)⟩
    · exact ⟨_, rfl, .inl (phase_wf (by decide))⟩

theorem runs_islandBringup (hph : phase s = 3) : Runs .islandBringup s fun t => phase t = 4 ∧ rb t (hdr P.aon 0x1C) 0 = true := by
  show ∃ t, execIslandBringup s = .next t ∧ _
  unfold execIslandBringup
  rw [if_neg (by simp [hup, hph])]
  refine ⟨_, rfl, phase_wf (by decide), ?_⟩
  unfold rb
  rw [rd_wf_ne (by decide)]
  exact rb_wb_self (by decide)

theorem runs_dramTraining (trains : List (Nat × Train)) (bist : List (Nat × Nat × Nat)) (drfm : Bool) (rfm : Nat) (hph : phase s = 4) :
    Runs (.dramTraining trains bist drfm rfm) s fun t => phase t = 5 ∨ (phase t = 8 ∧ Raised t P.boot 8) := by
  show ∃ t, execDramTraining trains bist drfm rfm s = .next t ∧ _
  unfold execDramTraining
  rw [if_neg (by simp [hup, hph])]
  extract_lets c ls used r failed s spare lost
  clear_value lost
  split
  · exact ⟨_, rfl, .inr (service_entered _ _)⟩
  · split
    · exact ⟨_, rfl, .inr (service_entered _ _)⟩
    · exact ⟨_, rfl, .inl (phase_wf (by decide))⟩

theorem runs_localModelHash (hph : phase s = 5) : Runs .localModelHash s fun t => phase t = 6 ∨ (phase t = 8 ∧ Raised t P.boot 8) := by
  show ∃ t, execLocalModelHash s = .next t ∧ _
  unfold execLocalModelHash
  rw [if_neg (by simp [hup, hph])]
  extract_lets
  split
  · exact ⟨_, rfl, .inr (service_entered _ _)⟩
  · exact ⟨_, rfl, .inl (phase_wf (by decide))⟩

end

/-! Step 9 (R122, R126). -/

/-- A partition's new state changes no register but those of DPT. -/
theorem rd_settlePart {s : State} {p off : Nat} {now : Bool} (h : off ≠ hdr P.dpt 0x20) : rd (settlePart now s p) off = rd s off := by
  have hevent (u : State) (p b : Nat) : rd (partEvent u p b) off = rd u off := by
    unfold partEvent rd
    dsimp only
    split
    · rfl
    · split
      · rw [regs_sendMsix]; rfl
      · rfl
  unfold settlePart
  dsimp only
  split
  · rfl
  · rw [hevent, rd_raise_ne h]
    rfl

theorem phase_settleParts (s : State) : phase (settleParts s) = phase s :=
  phase_of_rd (foldl_keeps (g := (rd · R.BOOT_PHASE)) (fun _ _ => rd_settlePart (by decide)) _ s)

theorem runs_bootEnable {s : State} (hup : s.boot.held = false) (hph : phase s = 6) :
    Runs .bootEnable s fun t => phase t = 7 ∨ (phase t = 8 ∧ Raised t P.boot 8) := by
  show ∃ t, execBootEnable s = .next t ∧ _
  unfold execBootEnable
  rw [if_neg (by simp [hup, hph])]
  extract_lets
  split
  · exact ⟨_, rfl, .inr (service_entered _ _)⟩
  · exact ⟨_, rfl, .inl ((phase_settleParts _).trans (phase_bootEnds (by decide)))⟩

/-! Step 10 (R126): the streams. -/

/-- The register that holds a source's EN (09 Register map). -/
def enableReg (k : Nat) : Nat := if k < 128 then R.CSI_VC_CTRL (k / 16) (k % 16) else R.ETH_STR_CTRL ((k - 128) / 36) ((k - 128) % 36)

theorem declOf_en (s : State) (k : Nat) : (declOf s k).en = rb s (enableReg k) 0 := by
  unfold declOf enableReg
  split <;> rfl

/-- EN of a source is committed where it is 0 yet. -/
def streamStarted (s : State) (k : Nat) : State :=
  if rb s (enableReg k) 0 then s else enableSource (setReg { s with staged := SMap.del s.staged (enableReg k) } (enableReg k) 1) k

theorem rd_streamStarted_ne {s : State} {k off : Nat} (h : off ≠ enableReg k) : rd (streamStarted s k) off = rd s off := by
  unfold streamStarted
  split
  · rfl
  · exact rd_setReg_ne h

theorem rb_streamStarted_self (s : State) (k : Nat) : rb (streamStarted s k) (enableReg k) 0 = true := by
  unfold streamStarted
  split
  · assumption
  · exact (congrArg (fun w : W32 => bit w.toNat 0) (rd_setReg_self _ _ _)).trans (by decide)

/-- A source that was enabled stays so. -/
theorem rb_streamStarted {s : State} {j : Nat} (h : rb s (enableReg j) 0 = true) (k : Nat) : rb (streamStarted s k) (enableReg j) 0 = true := by
  by_cases hjk : enableReg j = enableReg k
  · rw [hjk]
    exact rb_streamStarted_self s k
  · unfold rb
    rw [rd_streamStarted_ne hjk]
    exact h

theorem phase_streamStarted (s : State) (k : Nat) : phase (streamStarted s k) = phase s := by
  refine phase_of_rd (rd_streamStarted_ne ?_)
  unfold enableReg R.CSI_VC_CTRL R.ETH_STR_CTRL R.BOOT_PHASE
  split <;> omega

theorem rb_streamsStarted {ks : List Nat} {s : State} {j : Nat} (h : j ∈ ks ∨ rb s (enableReg j) 0 = true) :
    rb (ks.foldl streamStarted s) (enableReg j) 0 = true := by
  induction ks generalizing s with
  | nil => simpa using h
  | cons k ks ih =>
    refine ih ?_
    rcases h with h | h
    · rcases List.mem_cons.1 h with rfl | h
      · exact .inr (rb_streamStarted_self s j)
      · exact .inl h
    · exact .inr (rb_streamStarted h k)

/-- The sources of the manifest's streams that are enabled at start-up. -/
def startStreams (c : List Byte) : List Nat := ((List.range (entries c 1).length).filter fun i => sOn (entryOf c 1 i)).map (streamSource c)

theorem exec_streamEnable {s : State} (hup : s.boot.held = false) (hph : phase s = 7) (hepoch : nextEpoch s = 2) :
    exec .streamEnable s = .next ((startStreams s.boot.man).foldl streamStarted s) := by
  show execStreamEnable s = _
  unfold execStreamEnable
  rw [if_neg (by simp [hup, hph, hepoch])]
  rfl

theorem runs_streamEnable {s : State} (hup : s.boot.held = false) (hph : phase s = 7) (hepoch : nextEpoch s = 2) : Runs .streamEnable s fun t =>
    phase t = 7 ∧ ∀ i, i < (entries s.boot.man 1).length → sOn (entryOf s.boot.man 1 i) = true → (declOf t (streamSource s.boot.man i)).en = true := by
  refine ⟨_, exec_streamEnable hup hph hepoch, (foldl_keeps phase_streamStarted _ s).trans hph, fun i hi hon => ?_⟩
  rw [declOf_en]
  exact rb_streamsStarted (.inl (List.mem_map_of_mem (List.mem_filter.2 ⟨List.mem_range.2 hi, hon⟩)))

end Sys2Proof.PowerUp
end

section
/-! The directory, flash operations and OTP commands: each ends with its event (04 R102 to R105, R109, R112, R125). -/
namespace Sys2Proof.PowerUp
open Sys2Proof Sys2Proof.Machine Sys2Proof.Laws Sys2Proof.Claims Sys2Proof.RegisterPages

section
variable (s : State) (a : Nat) (bs : List Byte)
@[simp] theorem setFlash_mem : (setFlash s a bs).mem = s.mem := rfl
@[simp] theorem setFlash_op : (setFlash s a bs).boot.op = s.boot.op := rfl
@[simp] theorem setFlash_dirOp : (setFlash s a bs).boot.dirOp = s.boot.dirOp := rfl
end

/-- From `s` to `t` an operation on the flash ends: BOOT.FLASH_DONE is raised last; memory and the operations in progress stay as they were. -/
def FlashEnds (s t : State) : Prop :=
  ∃ u, t = raise u P.boot 10 ∧ u.mem = s.mem ∧ u.boot.op = s.boot.op ∧ u.boot.dirOp = s.boot.dirOp

theorem FlashEnds.effect {s t : State} (h : FlashEnds s t) :
    t.boot.op = s.boot.op ∧ t.boot.dirOp = s.boot.dirOp ∧ Raised t P.boot 10 ∧ SameBytes s t := by
  obtain ⟨u, rfl, hmem, hop, hdir⟩ := h
  have hboot := boot_of_onPage (onPage_raise (s := u) (pg := P.boot) 10)
  exact ⟨(congrArg Boot.op hboot).trans hop, (congrArg Boot.dirOp hboot).trans hdir, rb_raise _ _ (by decide),
    sameBytes_of_mem ((mem_of_onPage (onPage_raise 10)).trans hmem)⟩

/-- A write of the directory changes the flash and raises its event (R104, R105). -/
theorem flashEnds_writeDir (s : State) (d : List Byte) : FlashEnds s (writeDir s d) := by
  unfold writeDir
  extract_lets u
  refine ⟨u, rfl, ?_⟩
  cases hgovern : dirGovern s with
  | none => simp [u, hgovern]
  | some k => simp [u, hgovern]

theorem flashEnds_hwFault (s : State) (cause info : Nat) : FlashEnds s (raise (hwFault s P.boot cause info) P.boot 10) :=
  have hpage := onPage_hwFault (s := s) (pg := P.boot) cause info
  ⟨_, rfl, mem_of_onPage hpage, congrArg Boot.op (boot_of_onPage hpage), congrArg Boot.dirOp (boot_of_onPage hpage)⟩

/-- INSTALL ends with its slot in TRIAL, or with the fault of its refusal (R109). -/
theorem flashEnds_install (s : State) (a : Nat) : FlashEnds s (install s a) := by
  unfold install
  split
  · exact flashEnds_hwFault s 4 1
  · dsimp only
    split
    · exact flashEnds_writeDir s _
    · exact flashEnds_hwFault s 5 _
    · exact flashEnds_hwFault s 4 _

/-- BOOT_FLASH_DATA lies in the registers. -/
theorem putFlashData_rest (s : State) (bs : List Byte) : (putFlashData s bs).mem = s.mem ∧ (putFlashData s bs).boot = s.boot :=
  ⟨foldl_keeps (g := State.mem) (by intros; rfl) _ s, foldl_keeps (g := State.boot) (by intros; rfl) _ s⟩

/-- Bytes that the spec leaves open are drawn, and nothing else changes. -/
theorem freshBytes_rest (n : Nat) (s : State) (bs : List Byte) : (freshBytes n s bs).1.mem = s.mem ∧ (freshBytes n s bs).1.boot = s.boot := by
  induction n generalizing s bs with
  | zero => exact ⟨rfl, rfl⟩
  | succ n ih => exact ih (fresh s 8).1 _

/-! DIRECTORY_WRITE_DONE (R104, R112). -/

theorem runs_directoryWriteDone {s : State} (hup : s.boot.held = false) (hop : s.boot.dirOp = true) : Runs .directoryWriteDone s fun t =>
    t.boot.dirOp = false ∧ Raised t P.boot 10 ∧ SameBytes s t := by
  show ∃ t, execDirectoryWriteDone s = .next t ∧ _
  unfold execDirectoryWriteDone
  rw [if_neg (by simp [hup, hop])]
  obtain ⟨-, hdir, hraised, hmem⟩ := (flashEnds_writeDir (updBoot s fun b => { b with dirOp := false }) _).effect
  exact ⟨_, rfl, hdir, hraised, hmem⟩

/-! FLASH_DONE and FLASH_TIMEOUT (R102). -/

/-- The state in which no flash operation is in progress. -/
abbrev flashIdle (s : State) : State := updBoot s fun b => { b with op := none }

theorem runs_flashDone {s : State} {e : Nat × Nat} (hop : s.boot.op = some e) : Runs .flashDone s fun t =>
    t.boot.op = none ∧ Raised t P.boot 10 ∧ SameBytes s t := by
  obtain ⟨op, a⟩ := e
  have hends : ∃ t, execFlashDone s = .next t ∧ FlashEnds (flashIdle s) t := by
    unfold execFlashDone
    rw [hop]
    refine ⟨_, rfl, ?_⟩
    split
    · obtain ⟨hmem, hboot⟩ := putFlashData_rest (flashIdle s) (flashBytes (flashIdle s) a 256)
      exact ⟨_, rfl, hmem, congrArg Boot.op hboot, congrArg Boot.dirOp hboot⟩
    · exact ⟨_, rfl, setFlash_mem _ _ _, setFlash_op _ _ _, setFlash_dirOp _ _ _⟩
    · exact ⟨_, rfl, setFlash_mem _ _ _, setFlash_op _ _ _, setFlash_dirOp _ _ _⟩
    · exact flashEnds_install _ a
  obtain ⟨t, ht, hflash⟩ := hends
  obtain ⟨hidle, -, hraised, hmem⟩ := hflash.effect
  exact ⟨t, ht, hidle, hraised, hmem⟩

/-- What an operation that gave no completion leaves: what it was reading or writing is open. -/
def flashLost (s : State) (op a : Nat) : State :=
  match op with
  | 1 => let r := freshBytes 256 s []; putFlashData r.1 r.2
  | 2 => let r := freshBytes 256 s []; setFlash r.1 a r.2
  | 3 => let r := freshBytes 65536 s []; setFlash r.1 a r.2
  | _ => s

theorem flashLost_rest (s : State) (op a : Nat) : (flashLost s op a).mem = s.mem ∧ (flashLost s op a).boot.op = s.boot.op := by
  have hfresh (n : Nat) := freshBytes_rest n s []
  unfold flashLost
  split
  · obtain ⟨hmem, hboot⟩ := putFlashData_rest (freshBytes 256 s []).1 (freshBytes 256 s []).2
    exact ⟨hmem.trans (hfresh 256).1, congrArg Boot.op (hboot.trans (hfresh 256).2)⟩
  · exact ⟨(setFlash_mem _ _ _).trans (hfresh 256).1, (setFlash_op _ _ _).trans (congrArg Boot.op (hfresh 256).2)⟩
  · exact ⟨(setFlash_mem _ _ _).trans (hfresh 65536).1, (setFlash_op _ _ _).trans (congrArg Boot.op (hfresh 65536).2)⟩
  · exact ⟨rfl, rfl⟩

theorem exec_flashTimeout {s : State} {op a : Nat} (hop : s.boot.op = some (op, a)) :
    exec .flashTimeout s = .next (raise (hwFault (flashLost (flashIdle s) op a) P.boot 1 op) P.boot 10) := by
  show execFlashTimeout s = _
  unfold execFlashTimeout
  rw [hop]
  rfl

theorem runs_flashTimeout {s : State} {e : Nat × Nat} (hop : s.boot.op = some e) : Runs .flashTimeout s fun t =>
    t.boot.op = none ∧ Raised t P.boot 10 ∧ Raised t P.boot 0 ∧ SameBytes s t := by
  obtain ⟨hmem, hidle⟩ := flashLost_rest (flashIdle s) e.1 e.2
  obtain ⟨hop', -, hraised, hsame⟩ := (flashEnds_hwFault (flashLost (flashIdle s) e.1 e.2) 1 e.1).effect
  refine ⟨_, exec_flashTimeout hop, hop'.trans hidle, hraised, ?_, fun a => (hsame a).trans (sameBytes_of_mem hmem a)⟩
  exact (rb_raise_ne (by decide) (by decide)).trans (rb_fault _ _ _ _ _ _)

/-! OTP_DONE (R125). -/

/-- What an OTP command fuses. -/
def fused (s : State) (cmd arg : Nat) : Otp :=
  match cmd with
  | 1 => { s.boot.otp with rollback := max s.boot.otp.rollback ((s.boot.image.map (·.sec)).getD 0) }
  | 2 => { s.boot.otp with revoked := s.boot.otp.revoked ||| 2 ^ arg }
  | _ => { s.boot.otp with lifecycle := 3 }

theorem exec_otpDone {s : State} {cmd arg : Nat} (hop : s.boot.otpOp = some (cmd, arg)) :
    exec .otpDone s = .next (raise (updBoot s fun b => { b with otpOp := none, otp := fused s cmd arg }) P.boot 11) := by
  show execOtpDone s = _
  unfold execOtpDone
  rw [hop]
  rfl

theorem runs_otpDone {s : State} {cmd arg : Nat} (hop : s.boot.otpOp = some (cmd, arg)) : Runs .otpDone s fun t =>
    t.boot.otpOp = none ∧ Raised t P.boot 11 ∧ SameBytes s t
      ∧ (cmd = 1 → t.boot.otp.rollback = max s.boot.otp.rollback ((s.boot.image.map (·.sec)).getD 0))
      ∧ (cmd = 2 → t.boot.otp.revoked = s.boot.otp.revoked ||| 2 ^ arg) ∧ (cmd = 3 → t.boot.otp.lifecycle = 3) := by
  refine ⟨_, exec_otpDone hop, ?_⟩
  beta_reduce
  rw [boot_of_onPage (onPage_raise (pg := P.boot) 11)]
  refine ⟨rfl, rb_raise _ _ (by decide), sameBytes_of_mem ((mem_of_onPage (onPage_raise 11)).trans rfl), ?_, ?_, ?_⟩ <;>
  · rintro rfl
    rfl

/-- Settles O57, clause by clause: the supply and the resets, the phases, the directory, the flash and OTP. -/
theorem bootSequence : Obligations.BootSequence := by
  unfold Obligations.BootSequence
  intro s glitch
  refine ⟨runs_supplyRamp, runs_brownout, runs_pinReset, fun mv us => runs_supplyLow, runs_resetRelease, fun hup => ?_,
    fun e hop => ⟨runs_flashDone hop, runs_flashTimeout hop⟩, fun cmd arg => runs_otpDone⟩
  exact ⟨fun hph hlc => ⟨runs_imageSelect_none hup hph hlc rfl, fun ab => runs_imageSelect_some hup hph hlc rfl⟩, runs_manifestCheck hup,
    runs_islandBringup hup, runs_dramTraining hup, runs_localModelHash hup, runs_bootEnable hup, runs_streamEnable hup,
    runs_directoryWriteDone hup⟩

end Sys2Proof.PowerUp
end

section
/-! The endpoint: messages to the host and the error log leave its requests and the bytes of memory as they were (05 R157, R161, R164, R165). -/
namespace Sys2Proof.Endpoint
open Sys2Proof Sys2Proof.Machine Sys2Proof.Laws Sys2Proof.Claims Sys2Proof.RegisterPages Sys2Proof.Islands Sys2Proof.PowerUp

section
variable {s t u : State} {pg : Nat}

/-! What the events and faults of a page leave of the endpoint and of memory. -/

theorem sameBytes_of_onPage (h : OnPage pg s t) : SameBytes s t := sameBytes_of_mem (mem_of_onPage h)

theorem pci_of_onPage (h : OnPage pg s t) :
    t.pci = { s.pci with sent := t.pci.sent, funcs := t.pci.funcs, l1 := t.pci.l1, writes := t.pci.writes } := (congrArg State.pci h.rest :)

theorem outstanding_of_onPage (h : OnPage pg s t) : t.pci.outstanding = s.pci.outstanding := (congrArg Pci.outstanding (pci_of_onPage h) :)

theorem heldTags_of_onPage (h : OnPage pg s t) : t.pci.heldTags = s.pci.heldTags := (congrArg Pci.heldTags (pci_of_onPage h) :)

theorem reads_of_onPage (h : OnPage pg s t) : t.pci.reads = s.pci.reads := (congrArg Pci.reads (pci_of_onPage h) :)

theorem answers_of_onPage (h : OnPage pg s t) : t.pci.answers = s.pci.answers := (congrArg Pci.answers (pci_of_onPage h) :)

theorem speed_of_onPage (h : OnPage pg s t) : t.pci.speed = s.pci.speed := (congrArg Pci.speed (pci_of_onPage h) :)

theorem width_of_onPage (h : OnPage pg s t) : t.pci.width = s.pci.width := (congrArg Pci.width (pci_of_onPage h) :)

theorem training_of_onPage (h : OnPage pg s t) : t.pci.training = s.pci.training := (congrArg Pci.training (pci_of_onPage h) :)
end

/-! A function of the endpoint. -/

theorem funcOf_updFunc_self {s : State} {fn : Nat} (h : fn < s.pci.funcs.length) (f : Func → Func) : funcOf (updFunc s fn f) fn = f (funcOf s fn) :=
  nth_updAt_self h f {}

/-- A function but for its pending bits. -/
def besidesPba (f : Func) : Func := { f with pba := [] }

theorem map_updAt_of_eq {α β : Type} {g : α → β} {f : α → α} (hf : ∀ x, g (f x) = g x) (l : List α) (k : Nat) :
    (updAt l k f).map g = l.map g := by
  refine List.ext_getElem? fun i => ?_
  simp only [updAt, List.getElem?_map, List.getElem?_modify]
  cases l[i]? with
  | none => rfl
  | some x => by_cases h : k = i <;> simp [h, hf]

/-! Messages. -/

/-- From `s` to `t` the endpoint does no more than send messages, set and clear pending bits and answer device requests; a message that has to
wait joins the device writes, where there are any (R157). -/
structure Talks (s t : State) : Prop where
  rest : t.pci = { s.pci with
    funcs := t.pci.funcs, l1 := t.pci.l1, sent := t.pci.sent, writes := t.pci.writes, answers := t.pci.answers }
  funcs : t.pci.funcs.map besidesPba = s.pci.funcs.map besidesPba
  writes : ∃ ms, t.pci.writes = s.pci.writes ++ ms ∧ ∀ m ∈ ms, m.id = none
  idle : s.pci.writes = [] → t.pci.writes = []

section
variable {s t u : State}

theorem talks_of_pci (h : t.pci = s.pci) : Talks s t := by
  refine ⟨?_, ?_, ⟨[], ?_⟩, ?_⟩ <;> simp [h]

theorem Talks.refl (s : State) : Talks s s := talks_of_pci rfl

theorem Talks.trans (h : Talks s t) (k : Talks t u) : Talks s u := by
  obtain ⟨hrest, hfuncs, ⟨ms, hms, hid⟩, hidle⟩ := h
  obtain ⟨krest, kfuncs, ⟨ns, hns, kid⟩, kidle⟩ := k
  refine ⟨?_, kfuncs.trans hfuncs, ⟨ms ++ ns, by rw [hns, hms, List.append_assoc], ?_⟩, fun h => kidle (hidle h)⟩
  · rw [hrest] at krest
    exact krest
  · exact fun m hm => (List.mem_append.1 hm).elim (hid m) (kid m)

theorem Talks.ite {c : Prop} [Decidable c] (ht : Talks s t) (hu : Talks s u) : Talks s (if c then t else u) := by
  split <;> assumption

theorem Talks.foldl {α : Type} {f : State → α → State} (hf : ∀ s x, Talks s (f s x)) (l : List α) (s : State) : Talks s (l.foldl f s) := by
  induction l generalizing s with
  | nil => exact .refl s
  | cons x l ih => exact (hf s x).trans (ih _)

/-- Each function keeps all but its pending bits. -/
theorem Talks.func (h : Talks s t) (fn : Nat) : besidesPba (funcOf t fn) = besidesPba (funcOf s fn) := by
  have hget := congrArg (·[fn]?) h.funcs
  simp only [List.getElem?_map] at hget
  unfold funcOf nth
  cases hs : s.pci.funcs[fn]? <;> cases ht : t.pci.funcs[fn]? <;> simp_all
end

theorem talks_sendHost (s : State) (m : HostMsg) : Talks s (sendHost s m) := ⟨rfl, rfl, ⟨[], by simp [sendHost]⟩, id⟩

theorem talks_sendAfterWrites (s : State) (fn : Nat) (m : HostMsg) : Talks s (sendAfterWrites s fn m) := by
  unfold sendAfterWrites
  split
  · exact talks_sendHost s m
  · next h => exact ⟨rfl, rfl, ⟨_, rfl, by simp⟩, fun hnil => absurd (List.isEmpty_iff.2 hnil) h⟩

theorem talks_updFunc {s : State} {fn : Nat} {f : Func → Func} (hf : ∀ x, besidesPba (f x) = besidesPba x) : Talks s (updFunc s fn f) :=
  ⟨rfl, map_updAt_of_eq hf _ _, ⟨[], by simp [updFunc]⟩, id⟩

theorem talks_sendMsix (s : State) (fn vec : Nat) : Talks s (sendMsix s fn vec) := by
  unfold sendMsix
  exact .ite (.refl s) (.ite (talks_updFunc fun _ => rfl) (talks_sendAfterWrites _ _ _))

section
variable {s t : State}

theorem Talks.setReg (h : Talks s t) {off : Nat} {v : W32} : Talks s (setReg t off v) := h.trans (talks_of_pci rfl)

theorem Talks.tellFlt (h : Talks s t) {m : FltMsg} : Talks s (tellFlt t m) := h.trans (talks_of_pci rfl)

theorem Talks.toRecorder (h : Talks s t) {o : Occurrence} : Talks s (toRecorder t o) := h.trans (talks_of_pci rfl)

theorem Talks.notify (h : Talks s t) {pg : Nat} : Talks s (notify t pg) := by
  have hsent := Talks.ite (c := rb t (hdr pg 0x2C) 16 = true) (h.trans (talks_sendMsix t 0 (rf t (hdr pg 0x2C) 10 0))) h
  unfold Machine.notify
  exact .ite (hsent.trans (talks_of_pci rfl)) hsent

theorem Talks.raise (h : Talks s t) {pg b : Nat} : Talks s (raise t pg b) := by
  have hset : Talks s (wb t (hdr pg 0x20) b true) := h.setReg
  have htold (c : Prop) [Decidable c] {u : State} (hu : Talks s u) : Talks s (if c then Machine.tellFlt u (.event pg b) else u) := .ite hu.tellFlt hu
  unfold Machine.raise raiseWith
  exact .ite h (.ite (.toRecorder (htold _ (.ite hset.notify hset))) (htold _ (.ite hset.notify hset)))

theorem Talks.fault (h : Talks s t) {pg cause : Nat} {req : Req} {info : Nat} {a : Option Nat} : Talks s (fault t pg cause req info a) := by
  unfold Machine.fault
  refine .ite (.toRecorder (.tellFlt ?_)) (.tellFlt ?_) <;> exact .ite h.setReg (.raise (.setReg (.setReg (.setReg (.setReg h)))))
end

/-! Vectors that are pending (R161, R797). -/

theorem talks_sendPending (s : State) (fn vec : Nat) : Talks s (sendPending s fn vec) := by
  unfold sendPending
  have hclear : Talks s (updFunc s fn fun f => { f with pba := NSet.del f.pba vec }) := talks_updFunc fun _ => rfl
  exact .ite (hclear.trans (talks_sendAfterWrites _ _ _)) (.refl s)

theorem mem_sendPending (s : State) (fn vec : Nat) : (sendPending s fn vec).mem = s.mem := by
  unfold sendPending
  dsimp only
  split
  · exact (mem_of_onPage (pg := P.pci) (onPage_sendAfterWrites _ _)).trans (updFunc_mem _ _ _)
  · rfl

theorem talks_resumeSends (s : State) (fn : Nat) : Talks s (resumeSends s fn) := Talks.foldl (fun s v => talks_sendPending s fn v) _ s

theorem mem_resumeSends (s : State) (fn : Nat) : (resumeSends s fn).mem = s.mem := foldl_keeps (fun s v => mem_sendPending s fn v) _ s

/-! The error log (R164, R165). -/

section
variable (s : State) (fn bitNo : Nat) (header : List Nat)

/-- An error that is logged changes functions of the endpoint, and raises PCI.AER. -/
theorem logAer_eq_raise : ∃ fs, logAer s fn bitNo header = raise { s with pci := { s.pci with funcs := fs } } P.pci 14 := by
  unfold logAer
  dsimp only
  split <;> exact ⟨_, rfl⟩

theorem onPage_logAer : OnPage P.pci s (logAer s fn bitNo header) := by
  obtain ⟨fs, h⟩ := logAer_eq_raise s fn bitNo header
  rw [h]
  have hlogged : OnPage P.pci s { s with pci := { s.pci with funcs := fs } } := ⟨rfl, fun _ _ => rfl⟩
  exact hlogged.trans (onPage_raise 14)

theorem onPage_logAdvisory : OnPage P.pci s (logAdvisory s fn bitNo header) := by
  have h := onPage_logAer s fn bitNo header
  unfold logAdvisory
  exact .ite h (h.trans (onPage_updFunc _ _))

theorem raised_logAer {b : Nat} (hb : b < 14) (h : Raised s P.pci b) : Raised (logAer s fn bitNo header) P.pci b := by
  obtain ⟨fs, he⟩ := logAer_eq_raise s fn bitNo header
  rw [he]
  exact (rb_raise_ne (by omega) (by omega)).trans h

theorem raised_logAdvisory {b : Nat} (hb : b < 14) (h : Raised s P.pci b) : Raised (logAdvisory s fn bitNo header) P.pci b := by
  have hl := raised_logAer s fn bitNo header hb h
  unfold logAdvisory
  dsimp only
  split <;> exact hl
end

/-- An Unsupported Request is captured and logged (R142, R165); it touches no byte of memory. -/
theorem unsupported_effect (s : State) (fn : Nat) (posted write : Bool) (len : Nat) (header : List Nat) (a : Option Nat) :
    OnPage P.pci s (unsupported s fn posted write len header a) ∧ Raised (unsupported s fn posted write len header a) P.pci 0 := by
  have hpage : OnPage P.pci s (fault s P.pci 2 (fnReq fn) (tlpInfo fn write len) a) := onPage_fault _ _ _ _
  have hraised : Raised (fault s P.pci 2 (fnReq fn) (tlpInfo fn write len) a) P.pci 0 := rb_fault _ _ _ _ _ _
  unfold unsupported
  dsimp only
  split
  · exact ⟨hpage.trans (onPage_logAer _ _ _ _), raised_logAer _ _ _ _ (by decide) hraised⟩
  · exact ⟨hpage.trans (onPage_logAdvisory _ _ _ _), raised_logAdvisory _ _ _ _ (by decide) hraised⟩

end Sys2Proof.Endpoint
end

section
/-! Requests of the host: configuration, BARs, and what the endpoint does not support (05 R133 to R143, R164, R165, R798). -/
namespace Sys2Proof.Endpoint
open Sys2Proof Sys2Proof.Machine Sys2Proof.Laws Sys2Proof.Claims Sys2Proof.RegisterPages

section
variable {s : State} {fn addr len : Nat} {hdr : List Nat}

theorem exec_configRequest {reg be : Nat} {write : Bool} {data : W32} (hans : answers s = true)
    (hto : turnedAway (inbound s) fn false write 4 hdr = none) : exec (.configRequest fn reg write be data hdr) s = .next
      (if write then cfgWrite (sendHost (inbound s) (.completion fn 0 false [])) fn (reg % 0x1000 / 4 * 4) be data.toNat
      else sendHost (inbound s) (.completion fn 0 false (leBytes 4 (cfgRead (inbound s) fn (reg % 0x1000 / 4 * 4))))) := by
  have hup : answers (inbound s) = true := hans
  show execConfigRequest fn reg write be data hdr s = _
  unfold execConfigRequest
  dsimp only
  rw [if_neg (by simp [hup]), hto]
  cases write <;> rfl

/-- A read that a BAR answers is served; where no request of it waits, it gives what its target does. -/
theorem gives_inboundReadTlp {t : Target} (hans : answers s = true) (hto : turnedAway (inbound s) fn false false len hdr = none)
    (hbar : decodeBar (inbound s) fn addr = some t) (hmem : memOn (inbound s) fn = true)
    (hu : Unheld (readTarget (withHost (inbound s) []) fn t len hdr)) :
    Gives (.inboundReadTlp fn addr len hdr) s (given s (readTarget (withHost (inbound s) []) fn t len hdr)) := by
  show execInboundReadTlp fn addr len hdr s = _
  unfold execInboundReadTlp
  dsimp only
  rw [if_neg (by simp [hans]), hto, hbar, hmem]
  exact served_next rfl hu

/-- A write that a BAR answers, likewise. -/
theorem gives_inboundWriteTlp {data : List Byte} {ep : Bool} {host : List Cpl} {cycles : Nat} {t : Target} (hans : answers s = true)
    (hto : turnedAway (inbound s) fn true true data.length hdr = none) (hbar : decodeBar (inbound s) fn addr = some t)
    (hmem : memOn (inbound s) fn = true) (hu : Unheld (writeTarget (withHost (inbound s) host) fn t data ep cycles hdr)) :
    Gives (.inboundWriteTlp fn addr data ep host cycles hdr) s
      (given s (writeTarget (withHost (inbound s) host) fn t data ep cycles hdr)) := by
  show execInboundWriteTlp fn addr data ep host cycles hdr s = _
  unfold execInboundWriteTlp
  dsimp only
  rw [if_neg (by simp [hans]), hto, hbar, hmem]
  exact served_next rfl hu

/-- Traffic that arrives touches no byte of memory. -/
theorem sameBytes_inbound {t : State} (h : SameBytes (inbound s) t) : SameBytes s t := h

/-- A read that no BAR answers is an Unsupported Request. -/
theorem exec_inboundReadTlp_unsupported (hans : answers s = true) (hto : turnedAway (inbound s) fn false false len hdr = none)
    (hno : decodeBar (inbound s) fn addr = none ∨ memOn (inbound s) fn = false) : exec (.inboundReadTlp fn addr len hdr) s =
      .next (completeUr (unsupported (inbound s) fn false false len hdr ((decodeBar (inbound s) fn addr).bind (targetAddr fn))) fn) := by
  show execInboundReadTlp fn addr len hdr s = _
  unfold execInboundReadTlp
  dsimp only
  rw [if_neg (by simp [hans]), hto]
  dsimp only
  split
  · next hbar hmem => simp [hbar, hmem] at hno
  · rfl

theorem runs_inboundReadTlp_unsupported (hans : answers s = true) (hto : turnedAway (inbound s) fn false false len hdr = none)
    (hno : decodeBar (inbound s) fn addr = none ∨ memOn (inbound s) fn = false) : Runs (.inboundReadTlp fn addr len hdr) s fun t =>
      (∃ rest, t.pci.sent = .completion fn 1 false [] :: rest) ∧ Raised t P.pci 0 ∧ SameBytes s t := by
  obtain ⟨hpage, hraised⟩ := unsupported_effect (inbound s) fn false false len hdr ((decodeBar (inbound s) fn addr).bind (targetAddr fn))
  exact ⟨_, exec_inboundReadTlp_unsupported hans hto hno, ⟨_, rfl⟩, hraised,
    sameBytes_inbound (sameBytes_of_onPage (hpage.trans (onPage_sendHost (.completion fn 1 false []))))⟩

/-- A write that no BAR answers is one without a completion. -/
theorem exec_inboundWriteTlp_unsupported {data : List Byte} {ep : Bool} {host : List Cpl} {cycles : Nat} (hans : answers s = true)
    (hto : turnedAway (inbound s) fn true true data.length hdr = none)
    (hno : decodeBar (inbound s) fn addr = none ∨ memOn (inbound s) fn = false) : exec (.inboundWriteTlp fn addr data ep host cycles hdr) s =
      .next (unsupported (inbound s) fn true true data.length hdr ((decodeBar (inbound s) fn addr).bind (targetAddr fn))) := by
  show execInboundWriteTlp fn addr data ep host cycles hdr s = _
  unfold execInboundWriteTlp
  dsimp only
  rw [if_neg (by simp [hans]), hto]
  dsimp only
  split
  · next hbar hmem => simp [hbar, hmem] at hno
  · rfl

theorem runs_inboundWriteTlp_unsupported {data : List Byte} {ep : Bool} {host : List Cpl} {cycles : Nat} (hans : answers s = true)
    (hto : turnedAway (inbound s) fn true true data.length hdr = none)
    (hno : decodeBar (inbound s) fn addr = none ∨ memOn (inbound s) fn = false) :
    Runs (.inboundWriteTlp fn addr data ep host cycles hdr) s fun t => Raised t P.pci 0 ∧ SameBytes s t := by
  obtain ⟨hpage, hraised⟩ := unsupported_effect (inbound s) fn true true data.length hdr ((decodeBar (inbound s) fn addr).bind (targetAddr fn))
  exact ⟨_, exec_inboundWriteTlp_unsupported hans hto hno, hraised, sameBytes_inbound (sameBytes_of_onPage hpage)⟩
end

/-- Settles O38, clause by clause: configuration reads and writes, memory accesses that a BAR answers and that none does, and what is not supported. -/
theorem hostRequests : Obligations.HostRequests := by
  unfold Obligations.HostRequests
  intro s fn hdr hans a
  refine ⟨fun reg data be hto => ⟨_, exec_configRequest hans hto, rfl, fun _ => rfl⟩, fun reg data be hto => exec_configRequest hans hto,
    fun addr len t hto hbar hmem => gives_inboundReadTlp hans hto hbar hmem,
    fun addr len hto hno => runs_inboundReadTlp_unsupported hans hto hno,
    fun addr data ep host cycles t hto hbar hmem => gives_inboundWriteTlp hans hto hbar hmem,
    fun addr data ep host cycles hto hno => runs_inboundWriteTlp_unsupported hans hto hno, fun kind len hkind => ?_, fun write len => ?_⟩
  · rcases hkind with rfl | rfl <;> exact ⟨_, rfl, _, rfl⟩
  · exact ⟨_, rfl, ⟨_, rfl⟩, (unsupported_effect (inbound s) 0 false write len hdr none).2⟩

end Sys2Proof.Endpoint
end

section
/-! Completions of outstanding reads and their timeout (05 R152, R153, R166, R796). -/
namespace Sys2Proof.Endpoint
open Sys2Proof Sys2Proof.Machine Sys2Proof.Laws Sys2Proof.Claims Sys2Proof.RegisterPages

/-! What a device read does as one of its requests ends: tags and registers stay. -/

theorem finishRead_rest (s : State) (r : DevRead) :
    (finishRead s r).pci.outstanding = s.pci.outstanding ∧ (finishRead s r).regs = s.regs := by
  unfold finishRead
  split <;> exact ⟨rfl, rfl⟩

theorem updRead_rest (s : State) (id : Nat) (f : DevRead → DevRead) :
    (updRead s id f).pci.outstanding = s.pci.outstanding ∧ (updRead s id f).regs = s.regs := by
  unfold updRead
  split
  · exact ⟨rfl, rfl⟩
  · exact finishRead_rest _ _

theorem outstanding_failRead (s : State) (o : Outstanding) : (failRead s o).pci.outstanding = s.pci.outstanding.erase o := (updRead_rest _ _ _).1

theorem raised_failRead {s : State} {b : Nat} (o : Outstanding) (h : Raised s P.pci b) : Raised (failRead s o) P.pci b := by
  have hregs : (failRead s o).regs = s.regs := (updRead_rest _ _ _).2
  unfold Raised rb rd at h ⊢
  rw [hregs]
  exact h

/-- An error that R165 lists as AER_OTHER: captured, and no byte of memory touched. -/
theorem aerOther_advisory_effect (s : State) (fn bitNo : Nat) (hdr : List Nat) :
    OnPage P.pci s (aerOther s fn bitNo true hdr) ∧ Raised (aerOther s fn bitNo true hdr) P.pci 0 :=
  ⟨OnPage.trans (onPage_fault _ _ _ _) (onPage_logAdvisory _ _ _ _), raised_logAdvisory _ _ _ _ (by decide) (rb_fault _ _ _ _ _ _)⟩

/-! A tag that no request holds. -/

section
variable {s : State} {tag : Nat} {ep : Bool} {data : List Byte} {hdr : List Nat} {status : Nat}

theorem exec_completionArrive_held {left : Nat} (hnone : (s.pci.outstanding.find? fun o => o.tag = tag) = none)
    (hheld : s.pci.heldTags.get tag = some left) :
    exec (.completionArrive tag status ep data hdr) s = .next (dropCompletion (inbound s) tag left status data.length) := by
  show execCompletionArrive tag status ep data hdr s = _
  unfold execCompletionArrive
  dsimp only [inbound]
  rw [hnone, hheld]

theorem exec_completionArrive_stray (hnone : (s.pci.outstanding.find? fun o => o.tag = tag) = none) (hheld : s.pci.heldTags.get tag = none) :
    exec (.completionArrive tag status ep data hdr) s = .next (aerOther (inbound s) 0 16 true hdr) := by
  show execCompletionArrive tag status ep data hdr s = _
  unfold execCompletionArrive
  dsimp only [inbound]
  rw [hnone, hheld]

theorem exec_cplTimeout_free (hen : (funcOf s 0).cplDisable = false) (hnone : (s.pci.outstanding.find? fun o => o.tag = tag) = none) :
    exec (.cplTimeout tag) s = .next { s with pci := { s.pci with heldTags := s.pci.heldTags.del tag } } := by
  show execCplTimeout tag s = _
  unfold execCplTimeout
  rw [if_neg (by simp [hen]), hnone]

/-- A held tag is free once the last of its completion has come, or one with a bad status (R166). -/
theorem heldTags_dropCompletion_last {left n : Nat} (h : status ≠ 0 ∨ left ≤ n) :
    (dropCompletion (inbound s) tag left status n).pci.heldTags.get tag = none := by
  unfold dropCompletion
  rw [if_pos h]
  exact SMap.get_del_self

theorem heldTags_dropCompletion_part {left n : Nat} (hok : status = 0) (h : n < left) :
    (dropCompletion (inbound s) tag left status n).pci.heldTags.get tag = some (left - n) := by
  unfold dropCompletion
  rw [if_neg (by omega)]
  exact SMap.get_set_self

/-! The tag of a request. -/

variable {o : Outstanding}

/-- The address that the capture of a failed request shows: that of its device read. -/
def readAddr (s : State) (o : Outstanding) : Nat := ((s.pci.reads.find? (·.id = o.read)).map (·.addr)).getD o.addr

theorem exec_completionArrive_failed (hfind : (s.pci.outstanding.find? fun o => o.tag = tag) = some o) (hst : status ≠ 0) :
    exec (.completionArrive tag status ep data hdr) s =
      .next (failRead (fault (inbound s) P.pci 4 .hw (o.fn + status % 8 * 16 + tag * 65536) (some (readAddr s o))) o) := by
  show execCompletionArrive tag status ep data hdr s = _
  unfold execCompletionArrive
  dsimp only [inbound]
  rw [hfind]
  exact if_pos hst

/-- A completion brings its bytes to the device read of its request. -/
theorem exec_completionArrive_brings (hfind : (s.pci.outstanding.find? fun o => o.tag = tag) = some o) :
    ∃ u f, exec (.completionArrive tag 0 false data hdr) s = .next (updRead u o.read f) ∧
      u.pci.outstanding =
        if o.len - min data.length o.len = 0 then s.pci.outstanding.erase o
        else s.pci.outstanding.map fun q =>
          if q.tag = tag then { o with addr := o.addr + min data.length o.len, len := o.len - min data.length o.len } else q := by
  show ∃ u f, execCompletionArrive tag 0 false data hdr s = .next (updRead u o.read f) ∧ _
  unfold execCompletionArrive
  dsimp only [inbound]
  rw [hfind]
  exact ⟨_, _, if_neg (by simp), rfl⟩

theorem runs_completionArrive_whole (hfind : (s.pci.outstanding.find? fun o => o.tag = tag) = some o) (hlen : data.length = o.len) :
    Runs (.completionArrive tag 0 false data hdr) s fun t => t.pci.outstanding = s.pci.outstanding.erase o := by
  obtain ⟨u, f, hexec, hu⟩ := exec_completionArrive_brings (data := data) (hdr := hdr) hfind
  refine ⟨_, hexec, ((updRead_rest u o.read f).1.trans hu).trans ?_⟩
  rw [if_pos (by omega)]

theorem runs_completionArrive_part (hfind : (s.pci.outstanding.find? fun o => o.tag = tag) = some o) (hlen : data.length < o.len) :
    Runs (.completionArrive tag 0 false data hdr) s fun t => t.pci.outstanding = s.pci.outstanding.map fun q =>
      if q.tag = tag then { o with addr := o.addr + data.length, len := o.len - data.length } else q := by
  obtain ⟨u, f, hexec, hu⟩ := exec_completionArrive_brings (data := data) (hdr := hdr) hfind
  refine ⟨_, hexec, ((updRead_rest u o.read f).1.trans hu).trans ?_⟩
  rw [if_neg (by omega), Nat.min_eq_left (by omega)]

theorem runs_completionArrive_failed (hfind : (s.pci.outstanding.find? fun o => o.tag = tag) = some o) (hst : status ≠ 0) :
    Runs (.completionArrive tag status ep data hdr) s fun t => t.pci.outstanding = s.pci.outstanding.erase o ∧ Raised t P.pci 0 := by
  refine ⟨_, exec_completionArrive_failed hfind hst, (outstanding_failRead _ _).trans ?_, raised_failRead o (rb_fault _ _ _ _ _ _)⟩
  exact congrArg (·.erase o) (outstanding_of_onPage (onPage_fault 4 .hw _ _))

theorem exec_cplTimeout_held (hen : (funcOf s 0).cplDisable = false) (hfind : (s.pci.outstanding.find? fun o => o.tag = tag) = some o) :
    exec (.cplTimeout tag) s =
      .next (failRead (raise (logAer (fault s P.pci 3 .hw (o.fn + tag * 65536) (some (readAddr s o))) o.fn 14 []) P.pci 12) o) := by
  show execCplTimeout tag s = _
  unfold execCplTimeout
  rw [if_neg (by simp [hen]), hfind]
  rfl

theorem runs_cplTimeout_held (hen : (funcOf s 0).cplDisable = false) (hfind : (s.pci.outstanding.find? fun o => o.tag = tag) = some o) :
    Runs (.cplTimeout tag) s fun t => t.pci.outstanding = s.pci.outstanding.erase o ∧ Raised t P.pci 12 ∧ Raised t P.pci 0 := by
  have hraised : Raised (logAer (fault s P.pci 3 .hw (o.fn + tag * 65536) (some (readAddr s o))) o.fn 14 []) P.pci 0 :=
    raised_logAer _ _ _ _ (by decide) (rb_fault _ _ _ _ _ _)
  refine ⟨_, exec_cplTimeout_held hen hfind, (outstanding_failRead _ _).trans ?_, raised_failRead o (rb_raise _ _ (by decide)),
    raised_failRead o ((rb_raise_ne (by decide) (by decide)).trans hraised)⟩
  exact congrArg (·.erase o) (outstanding_of_onPage (((onPage_fault 3 .hw _ _).trans (onPage_logAer _ _ _ _)).trans (onPage_raise 12)))
end

/-- Settles O37, clause by clause: a tag that no request holds, the tag of a request, and timeouts that are disabled. -/
theorem completionsAndTimeouts : Obligations.CompletionsAndTimeouts := by
  unfold Obligations.CompletionsAndTimeouts
  intro s tag ep data hdr status
  refine ⟨fun hnone => ⟨fun left hheld => ?_, fun hheld => ?_, fun hen => ⟨_, exec_cplTimeout_free hen hnone, SMap.get_del_self⟩⟩,
    fun o hfind => ⟨runs_completionArrive_whole hfind, runs_completionArrive_part hfind, runs_completionArrive_failed hfind,
      fun hen => runs_cplTimeout_held hen hfind⟩, fun hdis => if_pos hdis⟩
  · exact ⟨fun h => ⟨_, exec_completionArrive_held hnone hheld, heldTags_dropCompletion_last h⟩,
      fun hok h => ⟨_, exec_completionArrive_held hnone hheld, heldTags_dropCompletion_part hok h⟩⟩
  · obtain ⟨hpage, hraised⟩ := aerOther_advisory_effect (inbound s) 0 16 hdr
    exact ⟨_, exec_completionArrive_stray hnone hheld, (outstanding_of_onPage hpage :), (heldTags_of_onPage hpage :), hraised,
      sameBytes_inbound (sameBytes_of_onPage hpage)⟩

end Sys2Proof.Endpoint
end

section
/-! Device requests to host memory: refusals, posted writes and reads (05 R147 to R150, R155, R799). -/
namespace Sys2Proof.Endpoint
open Sys2Proof Sys2Proof.Machine Sys2Proof.Laws Sys2Proof.Claims Sys2Proof.RegisterPages Sys2Proof.Mesh

/-! Refusals (R147). -/

/-- A device request is let through only where the endpoint is out of reset, its window is open and holds the range, and its function may
master the bus. -/
theorem of_hwinRefusal_eq_none {s : State} {w d n : Nat} (h : hwinRefusal s w d n = none) :
    s.pci.inReset = false ∧ rb s (R.PCI_HWIN_CFG_HI w) 4 = true ∧ d + n ≤ rf s (R.PCI_HWIN_CFG w) 30 0 * 0x1000
      ∧ (funcOf s (hwinFn s w)).bme = true ∧ (funcOf s (hwinFn s w)).d3 = false ∧ (funcOf s (hwinFn s w)).flr = false
      ∧ (hwinFn s w ≠ 0 → s.pci.vfEnable = true) := by
  unfold hwinRefusal at h
  split at h
  · cases h
  · split at h
    · cases h
    · dsimp only at h
      split at h
      · cases h
      · split at h
        · cases h
        · next hreset hwindow hmaster hvf =>
          simp only [Bool.or_eq_true, Bool.not_eq_true', decide_eq_true_eq, not_or, Bool.not_eq_false, Bool.not_eq_true] at hreset hwindow hmaster
          exact ⟨hreset, hwindow.1, by omega, hmaster.1.1, hmaster.1.2, hmaster.2, fun hfn => by_contra fun hoff => hvf ⟨hfn, by simp [hoff]⟩⟩

/-- A device request takes its number. -/
def numbered (s : State) : State := { s with pci := { s.pci with nextId := s.pci.nextId + 1 } }

/-- A device request is answered. -/
def answered (s : State) (r : Response) : State := { s with pci := { s.pci with answers := r :: s.pci.answers } }

section
variable {s : State} {req : Req} {addr w len cause : Nat} {data : Option (List Byte)} {bad : List (Nat × Nat)} {bulk : Bool}

theorem exec_hwinRequest_refused (hplace : placeOf addr = .host w) (hfence : (island s 1).fenced = false)
    (h : hwinRefusal s w (addr - 0x800000000000 - w * 0x80000000000) (requestBytes len data) = some cause) :
    exec (.hwinRequest req addr len data bad bulk) s =
      .next (answered (hwinRefuse (numbered s) cause req w addr) { id := s.pci.nextId, status := MS.refused }) := by
  have hopen : (island (numbered s) 1).fenced = false := hfence
  have hrefused : hwinRefusal (numbered s) w (addr - 0x800000000000 - w * 0x80000000000) (requestBytes len data) = some cause := h
  show execHwinRequest req addr len data bad bulk s = _
  unfold execHwinRequest
  rw [hplace]
  change (if (island (numbered s) 1).fenced = true then _ else
    match hwinRefusal (numbered s) w (addr - 0x800000000000 - w * 0x80000000000) (requestBytes len data) with | some c => _ | none => _) = _
  rw [if_neg (by simp [hopen]), hrefused]
  rfl

/-- A write that an open window takes, as it waits to leave. -/
def waitingWrite (s : State) (req : Req) (w addr : Nat) (bs : List Byte) (bad : List (Nat × Nat)) (bulk : Bool) : DevWrite :=
  { id := some s.pci.nextId, req := req, fn := hwinFn s w, addr := addr,
    tlps := hostWriteTlps s w addr bs bad (bulk && rb s R.PCI_MASTER_CTRL 0 && (funcOf s (hwinFn s w)).relaxed) }

theorem exec_hwinRequest_write {bs : List Byte} (hplace : placeOf addr = .host w) (hfence : (island s 1).fenced = false)
    (h : hwinRefusal s w (addr - 0x800000000000 - w * 0x80000000000) bs.length = none) :
    exec (.hwinRequest req addr len (some bs) bad bulk) s =
      .next { numbered s with pci := { (numbered s).pci with writes := s.pci.writes ++ [waitingWrite s req w addr bs bad bulk] } } := by
  have hopen : (island (numbered s) 1).fenced = false := hfence
  have hallowed : hwinRefusal (numbered s) w (addr - 0x800000000000 - w * 0x80000000000) bs.length = none := h
  show execHwinRequest req addr len (some bs) bad bulk s = _
  unfold execHwinRequest
  rw [hplace]
  change (if (island (numbered s) 1).fenced = true then _ else
    match hwinRefusal (numbered s) w (addr - 0x800000000000 - w * 0x80000000000) bs.length with | some c => _ | none => _) = _
  rw [if_neg (by simp [hopen]), hallowed]
  rfl

/-- The memory read requests that carry a read through an open window (R148). -/
def readParts (s : State) (w addr len : Nat) : List (Nat × Nat) :=
  readRequests (min 512 (128 * 2 ^ (funcOf s (hwinFn s w)).mrrs)) (hostAddr s w addr - addr) (len + 1) addr len

/-- A read through an open window, none of it answered yet. -/
def startedRead (s : State) (req : Req) (w addr len : Nat) : DevRead :=
  { id := s.pci.nextId, req := req, fn := hwinFn s w, addr := addr, len := len, left := (readParts s w addr len).length }

theorem exec_hwinRequest_read (hplace : placeOf addr = .host w) (hfence : (island s 1).fenced = false)
    (h : hwinRefusal s w (addr - 0x800000000000 - w * 0x80000000000) len = none) :
    exec (.hwinRequest req addr len none bad bulk) s =
      .next (issueReads (s.pci.waiting ++ (readParts s w addr len).map fun r => (s.pci.nextId, hwinFn s w, r.1, r.2))
        { numbered s with pci := { (numbered s).pci with reads := s.pci.reads ++ [startedRead s req w addr len] } }) := by
  have hopen : (island (numbered s) 1).fenced = false := hfence
  have hallowed : hwinRefusal (numbered s) w (addr - 0x800000000000 - w * 0x80000000000) len = none := h
  show execHwinRequest req addr len none bad bulk s = _
  unfold execHwinRequest
  rw [hplace]
  change (if (island (numbered s) 1).fenced = true then _ else
    match hwinRefusal (numbered s) w (addr - 0x800000000000 - w * 0x80000000000) len with | some c => _ | none => _) = _
  rw [if_neg (by simp [hopen]), hallowed]
  rfl

/-- The requests that are sent belong to reads under way, and start none. -/
theorem reads_issueReads (ws : List (Nat × Nat × Nat × Nat)) (s : State) : (issueReads ws s).pci.reads = s.pci.reads := by
  induction ws generalizing s with
  | nil => rfl
  | cons x ws ih =>
    obtain ⟨id, fn, a, n⟩ := x
    unfold issueReads
    split
    · exact ih _
    · rfl

/-- A refusal is counted; where it has a cause it is captured (R147). -/
theorem hwinRefuse_effect (s : State) (cause : Nat) (req : Req) (w a : Nat) :
    OnPage P.pci s (hwinRefuse s cause req w a) ∧ Talks s (hwinRefuse s cause req w a)
      ∧ rf (hwinRefuse s cause req w a) R.PCI_REFUSALS 31 16 = min 65535 (rf s R.PCI_REFUSALS 31 16 + 1) := by
  have hcounted : OnPage P.pci s (bump s R.PCI_REFUSALS 31 16 1) := onPage_bump (by decide)
  have htalks : Talks s (bump s R.PCI_REFUSALS 31 16 1) := talks_of_pci (bump_pci _ _ _ _ _)
  have hcount : rf (bump s R.PCI_REFUSALS 31 16 1) R.PCI_REFUSALS 31 16 = min 65535 (rf s R.PCI_REFUSALS 31 16 + 1) := by
    rw [bump, rf_wf_self (by decide)]
    unfold satAdd
    omega
  unfold hwinRefuse
  dsimp only
  split
  · exact ⟨hcounted, htalks, hcount⟩
  · refine ⟨hcounted.trans (onPage_fault _ _ _ _), htalks.fault, Eq.trans ?_ hcount⟩
    unfold rf
    rw [rd_fault_block (by decide)]

theorem runs_hwinRequest_refused (hplace : placeOf addr = .host w) (hfence : (island s 1).fenced = false)
    (h : hwinRefusal s w (addr - 0x800000000000 - w * 0x80000000000) (requestBytes len data) = some cause) :
    Runs (.hwinRequest req addr len data bad bulk) s fun t =>
      (∃ rest, t.pci.answers = { id := s.pci.nextId, status := MS.refused } :: rest) ∧ t.pci.reads = s.pci.reads
        ∧ (∀ x ∈ t.pci.writes, x ∈ s.pci.writes ∨ x.id = none)
        ∧ rf t R.PCI_REFUSALS 31 16 = min 65535 (rf s R.PCI_REFUSALS 31 16 + 1) ∧ SameBytes s t := by
  obtain ⟨hpage, htalks, hcount⟩ := hwinRefuse_effect (numbered s) cause req w addr
  obtain ⟨ms, hms, hid⟩ := htalks.writes
  have hsame : SameBytes (numbered s) _ := sameBytes_of_onPage hpage
  refine ⟨_, exec_hwinRequest_refused hplace hfence h, ⟨_, rfl⟩, (reads_of_onPage hpage :), fun x hx => ?_, hcount, hsame⟩
  exact (List.mem_append.1 (hms ▸ hx : x ∈ s.pci.writes ++ ms)).imp_right (hid x)
end

/-! Device writes that leave (R155, R799). -/

/-- A TLP of the oldest device write has left: `rest` are the writes that still wait. -/
def departed (s : State) (m : HostMsg) (rest : List DevWrite) : State :=
  { sendHost s m with pci := { (sendHost s m).pci with writes := rest } }

section
variable {s : State} {x : DevWrite} {xs : List DevWrite}

theorem exec_postedWriteSent_empty (hw : s.pci.writes = x :: xs) (htlps : x.tlps = []) :
    exec .postedWriteSent s = .next (writeDone { s with pci := { s.pci with writes := xs } } x) := by
  show execPostedWriteSent s = _
  unfold execPostedWriteSent
  rw [hw]
  dsimp only
  rw [htlps]

/-- The next TLP of the oldest write has left; the last of them acknowledges the write. -/
def sentTlp (s : State) (x : DevWrite) (m : HostMsg) (ms : List HostMsg) (xs : List DevWrite) : State :=
  if ms.isEmpty then writeDone (departed s m xs) x else departed s m ({ x with tlps := ms } :: xs)

theorem exec_postedWriteSent_cons {m : HostMsg} {ms : List HostMsg} (hw : s.pci.writes = x :: xs) (htlps : x.tlps = m :: ms) :
    exec .postedWriteSent s = .next
      (if epSet m && !ms.any epSet then fault (sentTlp s x m ms xs) P.pci 6 x.req x.fn (some x.addr) else sentTlp s x m ms xs) := by
  show execPostedWriteSent s = _
  unfold execPostedWriteSent
  rw [hw]
  dsimp only
  rw [htlps]
  cases ms <;> rfl

/-- Where POISON_OUT is captured, the answers stay, and its messages go behind the writes that wait. -/
theorem fault_if_effect (c : Bool) (u : State) (cause : Nat) (req : Req) (info : Nat) (a : Option Nat) :
    (∃ ms, (if c then fault u P.pci cause req info a else u).pci.writes = u.pci.writes ++ ms ∧ ∀ m ∈ ms, m.id = none)
      ∧ (if c then fault u P.pci cause req info a else u).pci.answers = u.pci.answers :=
  ⟨(Talks.ite (.fault (.refl u)) (.refl u)).writes, answers_of_onPage (.ite (onPage_fault cause req info a) (.refl P.pci u))⟩

theorem writeDone_some {u : State} {i : Nat} (hid : x.id = some i) : writeDone u x = answered u { id := i, status := MS.ok } := by
  unfold writeDone
  rw [hid]
  rfl

theorem runs_postedWriteSent_last {i : Nat} (hw : s.pci.writes = x :: xs) (hid : x.id = some i) (hlen : x.tlps.length ≤ 1) :
    Runs .postedWriteSent s fun t => (∃ ms, t.pci.writes = xs ++ ms ∧ ∀ m ∈ ms, m.id = none)
      ∧ t.pci.answers = { id := i, status := MS.ok } :: s.pci.answers := by
  cases htlps : x.tlps with
  | nil =>
    refine ⟨_, exec_postedWriteSent_empty hw htlps, ?_⟩
    rw [writeDone_some hid]
    exact ⟨⟨[], (List.append_nil _).symm, by simp⟩, rfl⟩
  | cons m ms =>
    obtain rfl : ms = [] := by simpa [htlps] using hlen
    have heffect := fault_if_effect (epSet m && !([] : List HostMsg).any epSet) (sentTlp s x m [] xs) 6 x.req x.fn (some x.addr)
    have hsent : sentTlp s x m [] xs = answered (departed s m xs) { id := i, status := MS.ok } := writeDone_some hid
    refine ⟨_, exec_postedWriteSent_cons hw htlps, ?_⟩
    rw [hsent] at heffect ⊢
    exact heffect

theorem runs_postedWriteSent_next {m n : HostMsg} {r : List HostMsg} (hw : s.pci.writes = x :: xs) (htlps : x.tlps = m :: n :: r) :
    Runs .postedWriteSent s fun t => (∃ ms, t.pci.writes = { x with tlps := n :: r } :: (xs ++ ms) ∧ ∀ m ∈ ms, m.id = none)
      ∧ t.pci.answers = s.pci.answers := by
  exact ⟨_, exec_postedWriteSent_cons hw htlps,
    fault_if_effect (epSet m && !(n :: r).any epSet) (sentTlp s x m (n :: r) xs) 6 x.req x.fn (some x.addr)⟩
end

/-- Settles O36, clause by clause: the refusals of R147, writes and reads of an open window, the write that leaves, and reads that wait for a tag. -/
theorem hostWindowRequests : Obligations.HostWindowRequests := by
  unfold Obligations.HostWindowRequests
  intro s req addr w bad bulk hplace hfence d
  refine ⟨fun len data => ?_, fun len bs h => ⟨_, exec_hwinRequest_write hplace hfence h, _, rfl, rfl, rfl, rfl⟩,
    fun len h => ⟨_, exec_hwinRequest_read hplace hfence h, _, reads_issueReads _ _, rfl, rfl, rfl⟩,
    fun x xs i => runs_postedWriteSent_last, fun x xs m n r => runs_postedWriteSent_next, rfl⟩
  intro n fn hcases
  cases h : hwinRefusal s w d (requestBytes len data) with
  | some cause => exact runs_hwinRequest_refused hplace hfence h
  | none =>
    obtain ⟨hreset, hwindow, hrange, hbme, hd3, hflr, hvf⟩ := of_hwinRefusal_eq_none h
    have hrange' : d + n ≤ rf s (R.PCI_HWIN_CFG w) 30 0 * 0x1000 := hrange
    rcases hcases with hc | hc | hc | hc | hc | hc | hc
    · simp [hc] at hwindow
    · omega
    · exact absurd hbme (by simpa using hc)
    · simp [hd3, fn] at hc
    · simp [hflr, fn] at hc
    · exact absurd (hvf hc.1) (by simp [hc.2])
    · simp [hreset] at hc

end Sys2Proof.Endpoint
end

section
/-! The link, L1, power states, resets of the endpoint and of its functions, and vectors that are unmasked (05 R161, R162, R166 to R171, R797). -/
namespace Sys2Proof.Endpoint
open Sys2Proof Sys2Proof.Machine Sys2Proof.Laws Sys2Proof.Claims Sys2Proof.RegisterPages Sys2Proof.Islands Sys2Proof.PowerUp

/-! The link (R129, R169, R171). -/

theorem runs_linkTrain {s : State} (hon : s.boot.powered = true) (hup : s.boot.held = false) :
    Runs .linkTrain s fun t => t.pci.inReset = false ∧ t.pci.training = true ∧ SameBytes s t := by
  have hexec : exec .linkTrain s =
      .next { s with pci := { s.pci with inReset := false, training := true }, jione := { s.jione with perst := true } } :=
    congrArg Host.Outcome.next (if_neg (by simp [hon, hup]))
  exact ⟨_, hexec, rfl, rfl, fun _ => rfl⟩

/-- The link has come up with a speed and a width. -/
def linkedUp (s : State) (speed width : Nat) : State :=
  { s with pci := { s.pci with training := false, speed := speed, width := width }, jione := { s.jione with linked := true } }

theorem exec_linkUp {s : State} {speed width : Nat} (htrain : s.pci.training = true) :
    exec (.linkUp speed width) s = .next (if speed < 4 ∨ width < 8 then raise (raise (linkedUp s speed width) P.pci 8) P.pci 10
      else raise (linkedUp s speed width) P.pci 8) := by
  show execLinkUp speed width s = _
  unfold execLinkUp
  rw [if_neg (by simp [htrain])]
  rfl

theorem runs_linkUp {s : State} {speed width : Nat} (htrain : s.pci.training = true) : Runs (.linkUp speed width) s fun t =>
    t.pci.speed = speed ∧ t.pci.width = width ∧ t.pci.training = false ∧ Raised t P.pci 8 ∧ (speed < 4 ∨ width < 8 → Raised t P.pci 10) := by
  have hup : OnPage P.pci (linkedUp s speed width) (raise (linkedUp s speed width) P.pci 8) := onPage_raise 8
  have hraised : Raised (raise (linkedUp s speed width) P.pci 8) P.pci 8 := rb_raise _ _ (by decide)
  refine ⟨_, exec_linkUp htrain, ?_⟩
  split
  · have hslow := hup.trans (onPage_raise 10)
    exact ⟨(speed_of_onPage hslow :), (width_of_onPage hslow :), (training_of_onPage hslow :), (rb_raise_ne (by decide) (by decide)).trans hraised,
      fun _ => rb_raise _ _ (by decide)⟩
  · next hfull => exact ⟨(speed_of_onPage hup :), (width_of_onPage hup :), (training_of_onPage hup :), hraised, fun h => absurd h hfull⟩

theorem runs_l1Entry {s : State} (haspm : (funcOf s 0).aspmL1 = true) (hout : s.pci.outstanding = []) (hwait : s.pci.waiting = [])
    (hwrites : s.pci.writes = []) (hspeed : s.pci.speed ≠ 0) (hl1 : s.pci.l1 = false) :
    Runs .l1Entry s fun t => t.pci.l1 = true ∧ t.pci.sent = .l1Request :: s.pci.sent := by
  have hexec : exec .l1Entry s = .next { sendHost s .l1Request with pci := { (sendHost s .l1Request).pci with l1 := true } } := by
    show execL1Entry s = _
    unfold execL1Entry
    rw [if_pos (by simp [haspm, hout, hwait, hwrites, hspeed, hl1])]
  exact ⟨_, hexec, rfl, rfl⟩

/-! Device writes that a reset discards (R235, R799). -/

theorem talks_putCtx (s : State) (q c : Nat) : Talks s (putCtx s q c) := by
  refine talks_of_pci ?_
  unfold putCtx
  dsimp only
  split
  · rw [setBytes_rest]
  · rfl

theorem talks_ringFailed (s : State) (q st : Nat) : Talks s (ringFailed s q st) := by
  have hput (c : Nat) : Talks s { putCtx s q c with hod := { (putCtx s q c).hod with inflight := (putCtx s q c).hod.inflight.filter (·.queue ≠ q) } } :=
    (talks_putCtx s q c).trans (talks_of_pci rfl)
  unfold ringFailed detach hwFault
  exact .fault (.raise (.setReg (hput _)))

theorem talks_answered (s : State) (r : Response) : Talks s (answered s r) := ⟨rfl, rfl, ⟨[], by simp [answered]⟩, id⟩

theorem talks_dropWrite (s : State) (w : DevWrite) : Talks s (dropWrite s w) := by
  unfold dropWrite
  split
  · exact talks_answered s _
  · exact talks_ringFailed s _ _
  · exact .refl s

/-- A write that is not of a ring touches no byte of memory as it is discarded. -/
theorem mem_dropWrite {s : State} {w : DevWrite} (h : w.queue = none) : (dropWrite s w).mem = s.mem := by
  unfold dropWrite
  rw [h]
  split
  · rfl
  · contradiction
  · rfl

theorem mem_foldl_dropWrite {ws : List DevWrite} (h : ∀ w ∈ ws, w.queue = none) (s : State) : (ws.foldl dropWrite s).mem = s.mem := by
  induction ws generalizing s with
  | nil => rfl
  | cons w ws ih => exact (ih (fun v hv => h v (List.mem_cons_of_mem _ hv)) _).trans (mem_dropWrite (h w List.mem_cons_self))

/-! The reset of the endpoint (R170). -/

/-- The endpoint in reset, before it answers the writes that it discards. -/
def cleared (s : State) : State :=
  let s := poisonReads { s with pci := { s.pci with writes := [] } } fun _ => true
  let s := resetRegs s P.pci (fun a => a == .st || a == .lk) fun o => o == hdr P.pci 0x18 || o == hdr P.pci 0x1C
  { s with pci := { answers := s.pci.answers, sent := s.pci.sent, nextId := s.pci.nextId, stuck := s.pci.stuck } }

theorem exec_endpointReset (s : State) (cause : EndpointReset) :
    ∃ j, exec (.endpointReset cause) s = .next { raise (s.pci.writes.foldl dropWrite (cleared s)) P.pci 9 with jione := j } := by
  cases cause with
  | perst => exact ⟨_, rfl⟩
  | hotReset | linkDown => exact ⟨(raise (resetEndpoint s) P.pci 9).jione, rfl⟩

theorem runs_endpointReset (s : State) (cause : EndpointReset) : Runs (.endpointReset cause) s fun t =>
    t.pci.inReset = true ∧ t.pci.speed = 0 ∧ t.pci.outstanding = [] ∧ t.pci.reads = [] ∧ t.pci.writes = [] ∧ Raised t P.pci 9
      ∧ ((∀ w ∈ s.pci.writes, w.queue = none) → SameBytes s t) := by
  obtain ⟨j, hexec⟩ := exec_endpointReset s cause
  have htalks : Talks (cleared s) (raise (s.pci.writes.foldl dropWrite (cleared s)) P.pci 9) := .raise (.foldl talks_dropWrite _ _)
  have hraised : Raised (raise (s.pci.writes.foldl dropWrite (cleared s)) P.pci 9) P.pci 9 := rb_raise _ _ (by decide)
  refine ⟨_, hexec, (congrArg Pci.inReset htalks.rest :), (congrArg Pci.speed htalks.rest :), (congrArg Pci.outstanding htalks.rest :),
    (congrArg Pci.reads htalks.rest :), htalks.idle rfl, hraised, fun hrings => sameBytes_of_mem ?_⟩
  exact (mem_of_onPage (onPage_raise 9)).trans (mem_foldl_dropWrite hrings _)

/-! Power states and vectors (R161, R162, R168, R797). -/

section
variable {s : State} {fn : Nat}

theorem runs_powerStateChange (hfn : fn < s.pci.funcs.length) (d3 : Bool) :
    Runs (.powerStateChange fn d3) s fun t => (funcOf t fn).d3 = d3 ∧ SameBytes s t := by
  refine ⟨resumeSends (updFunc s fn fun f => { f with d3 := d3 }) fn, rfl, ?_, sameBytes_of_mem (mem_resumeSends _ _)⟩
  refine (congrArg Func.d3 ((talks_resumeSends _ fn).func fn)).trans ?_
  rw [funcOf_updFunc_self hfn]
  rfl

theorem runs_functionSendResume (hfn : fn < s.pci.funcs.length) :
    Runs (.functionSendResume fn) s fun t => (funcOf t fn).bme = true ∧ (funcOf t fn).d3 = false := by
  have hfunc := (talks_resumeSends (updFunc s fn fun f => { f with bme := true, d3 := false }) fn).func fn
  rw [funcOf_updFunc_self hfn] at hfunc
  exact ⟨_, rfl, congrArg Func.bme hfunc, congrArg Func.d3 hfunc⟩

/-- A vector that is masked or unmasked stays so, whatever is sent on it. -/
theorem masked_setMask (hfn : fn < s.pci.funcs.length) (vec : Nat) (m : Bool) :
    (SMap.getD (funcOf (setMask s fn vec m) fn).table vec {}).masked = m := by
  have htable := congrArg Func.table ((talks_sendPending
    (updFunc s fn fun f => { f with table := SMap.put f.table vec { SMap.getD f.table vec {} with masked := m } {} }) fn vec).func fn)
  rw [funcOf_updFunc_self hfn] at htable
  unfold setMask
  refine (congrArg (fun t : SMap MsixEntry => (SMap.getD t vec {}).masked) htable).trans ?_
  exact congrArg MsixEntry.masked SMap.getD_put_self

theorem runs_msixUnmask (hfn : fn < s.pci.funcs.length) (v : Nat) (due : Bool) :
    Runs (.msixUnmask fn v due) s fun t => (SMap.getD (funcOf t fn).table v {}).masked = false := by
  refine ⟨_, rfl, masked_setMask ?_ v false⟩
  split
  · rw [updFunc, updAt, List.length_modify]
    exact hfn
  · exact hfn

/-! Resets of functions (R166, R167). -/

theorem talks_discardWrites (p : Nat → Bool) :
    Talks { s with pci := { s.pci with writes := s.pci.writes.filter fun w => !p w.fn } } (discardWrites s p) := .foldl talks_dropWrite _ _

/-- The function that is reset, once its device writes are discarded and its reads poisoned. -/
theorem func_discardWrites (p : Nat → Bool) (k : Nat) : besidesPba (funcOf (discardWrites s p) k) = besidesPba (funcOf s k) :=
  (talks_discardWrites p).func k

theorem not_mem_reads_poisonReads (u : State) : ∀ r ∈ (poisonReads u (· = fn)).pci.reads, r.fn ≠ fn := by
  intro r hr
  simpa using (List.mem_filter.1 hr).2

theorem runs_vfFlr (hfn : fn < s.pci.funcs.length) (hon : vfOn s fn = true) : Runs (.vfFlr fn) s fun t =>
    (funcOf t fn).flr = true ∧ (funcOf t fn).table = [] ∧ ∀ r ∈ t.pci.reads, r.fn ≠ fn := by
  have hfunc := func_discardWrites (s := updFunc s fn fun _ => { flr := true }) (· = fn) fn
  rw [funcOf_updFunc_self hfn] at hfunc
  exact ⟨resetVf s fn, if_pos hon, congrArg Func.flr hfunc, congrArg Func.table hfunc, not_mem_reads_poisonReads _⟩

theorem vfEnable_discardWrites (p : Nat → Bool) :
    (discardWrites s p).pci.vfEnable = s.pci.vfEnable ∧ (discardWrites s p).pci.numVfs = s.pci.numVfs :=
  ⟨(congrArg Pci.vfEnable (talks_discardWrites p).rest :), (congrArg Pci.numVfs (talks_discardWrites p).rest :)⟩

theorem vfEnable_clearVfEnable (s : State) : (clearVfEnable s).pci.vfEnable = false := by
  unfold clearVfEnable
  refine foldl_keeps (g := fun u => u.pci.vfEnable) (fun u v => ?_) _ _
  have hpci := (Talks.raise (.refl (updFunc (resetVf u v) v fun f => { f with flr := false })) (pg := P.pci) (b := 13)).rest
  exact (congrArg Pci.vfEnable hpci :).trans (vfEnable_discardWrites (s := updFunc u v fun _ => { flr := true }) (· = v)).1

theorem runs_pfFlr (s : State) : Runs .pfFlr s fun t => t.pci.vfEnable = false ∧ t.pci.numVfs = 0 ∧ ∀ r ∈ t.pci.reads, r.fn ≠ 0 := by
  obtain ⟨hvf, hnum⟩ := vfEnable_discardWrites
    (s := updFunc { clearVfEnable s with pci := { (clearVfEnable s).pci with ari := false, numVfs := 0, vfMse := false } } 0 fun _ => { flr := true }) (· = 0)
  exact ⟨resetPf s, rfl, hvf.trans (vfEnable_clearVfEnable s), hnum, not_mem_reads_poisonReads _⟩

theorem runs_flrDone (hfn : fn < s.pci.funcs.length) (hflr : (funcOf s fn).flr = true) :
    Runs (.flrDone fn) s fun t => (funcOf t fn).flr = false ∧ Raised t P.pci 13 := by
  have hfunc := (Talks.raise (.refl (updFunc s fn fun f => { f with flr := false })) (pg := P.pci) (b := 13)).func fn
  rw [funcOf_updFunc_self hfn] at hfunc
  exact ⟨_, if_pos hflr, congrArg Func.flr hfunc, rb_raise _ _ (by decide)⟩
end

/-- Settles O35, clause by clause: the link and L1, then the events of a function. -/
theorem linkAndFunctionEvents : Obligations.LinkAndFunctionEvents := by
  unfold Obligations.LinkAndFunctionEvents
  intro s
  exact ⟨runs_linkTrain, fun speed width => runs_linkUp, runs_endpointReset s, runs_l1Entry, fun fn hfn =>
    ⟨runs_powerStateChange hfn, runs_functionSendResume hfn, runs_msixUnmask hfn, runs_vfFlr hfn, runs_pfFlr s, runs_flrDone hfn⟩⟩

end Sys2Proof.Endpoint
end

section
/-! The DRAM subsystem: what its commands change of a subchannel and what they leave (06 R182, R189, R194 to R202, R210). -/
namespace Sys2Proof.Subchannels
open Sys2Proof Sys2Proof.Machine Sys2Proof.Laws Sys2Proof.Claims Sys2Proof.Islands

section
variable {s t : State} {u v : Nat} {f : SubCh → SubCh}

theorem subch_updSub_self (h : u < s.dram.sub.length) : subch (updSub s u f) u = f (subch s u) := nth_updAt_self h f {}

theorem subch_updSub_ne (h : v ≠ u) : subch (updSub s u f) v = subch s v := by
  simp [subch, updSub, updAt, nth, h.symm]

@[simp] theorem length_updSub : (updSub s u f).dram.sub.length = s.dram.sub.length := by simp [updSub, updAt]

theorem dram_of_onPage {pg : Nat} (h : OnPage pg s t) : t.dram = s.dram := (congrArg State.dram h.rest :)

@[simp] theorem subch_bump {off hi lo n : Nat} : subch (bump s off hi lo n) v = subch s v := rfl

theorem nth_map {α β : Type} (g : α → β) (l : List α) (i : Nat) (d : α) : nth (l.map g) i (g d) = g (nth l i d) := by
  simp [nth, List.getElem?_map, Option.getD_map]
end

/-! What every subchannel keeps. -/

/-- On the way from `s` to `t` every subchannel keeps its `g`. -/
def KeepsSub {α : Type} (g : SubCh → α) (s t : State) : Prop := t.dram.sub.map g = s.dram.sub.map g

section
variable {α : Type} {g : SubCh → α} {s t w : State} {u : Nat}

theorem KeepsSub.refl (s : State) : KeepsSub g s s := rfl

theorem KeepsSub.trans (h : KeepsSub g s t) (k : KeepsSub g t w) : KeepsSub g s w := Eq.trans k h

theorem KeepsSub.ite {c : Prop} [Decidable c] (ht : KeepsSub g s t) (hw : KeepsSub g s w) : KeepsSub g s (if c then t else w) := by
  split <;> assumption

theorem KeepsSub.of_dram (h : KeepsSub g s t) (hd : w.dram = t.dram) : KeepsSub g s w :=
  (congrArg (fun d : Dram => d.sub.map g) hd).trans h

theorem KeepsSub.raise (h : KeepsSub g s t) {pg b : Nat} : KeepsSub g s (raise t pg b) := h.of_dram (dram_of_onPage (onPage_raise b))

theorem KeepsSub.wf (h : KeepsSub g s t) {off hi lo x : Nat} : KeepsSub g s (wf t off hi lo x) := h

theorem KeepsSub.bump (h : KeepsSub g s t) {off hi lo n : Nat} : KeepsSub g s (bump t off hi lo n) := h

theorem KeepsSub.updSub (h : KeepsSub g s t) {f : SubCh → SubCh} (hf : ∀ k, g (f k) = g k) : KeepsSub g s (updSub t u f) :=
  h.trans (Endpoint.map_updAt_of_eq hf _ u)

theorem KeepsSub.subch (h : KeepsSub g s t) (u : Nat) : g (subch t u) = g (subch s u) := by
  rw [Machine.subch, Machine.subch, ← nth_map g, ← nth_map g, show t.dram.sub.map g = s.dram.sub.map g from h]

theorem KeepsSub.length (h : KeepsSub g s t) : t.dram.sub.length = s.dram.sub.length := by
  simpa using congrArg List.length h
end

/-! The frame of a command of the DRAM subsystem. -/

/-- From `s` to `t` nothing changes but the DRAM subsystem, registers of the pages `ps` and the messages of their events. -/
structure OnDram (ps : List Nat) (s t : State) : Prop where
  rest : t = { s with
    regs := t.regs, fypSignals := t.fypSignals, toFlt := t.toFlt, toCsh := t.toCsh, dram := t.dram,
    pci := { s.pci with sent := t.pci.sent, funcs := t.pci.funcs, l1 := t.pci.l1, writes := t.pci.writes } }
  regs : ∀ off, off / 0x1000 ∉ ps → rd t off = rd s off

section
variable {ps : List Nat} {s t w : State}

theorem OnDram.refl (s : State) : OnDram ps s s := ⟨rfl, fun _ _ => rfl⟩

theorem OnDram.trans (h : OnDram ps s t) (k : OnDram ps t w) : OnDram ps s w := by
  refine ⟨?_, fun off ho => (k.regs off ho).trans (h.regs off ho)⟩
  have hr := h.rest
  have kr := k.rest
  rw [hr] at kr
  exact kr

theorem OnDram.ite {c : Prop} [Decidable c] (ht : OnDram ps s t) (hw : OnDram ps s w) : OnDram ps s (if c then t else w) := by
  split <;> assumption

theorem onDram_of_onPage {pg : Nat} (h : OnPage pg s t) (hp : pg ∈ ps) : OnDram ps s t := by
  refine ⟨?_, fun off ho => h.regs off fun e => ho (e ▸ hp)⟩
  rw [h.rest]

theorem OnDram.raise (h : OnDram ps s t) {pg : Nat} (hp : pg ∈ ps) (b : Nat) : OnDram ps s (raise t pg b) :=
  h.trans (onDram_of_onPage (onPage_raise b) hp)

theorem OnDram.setReg (h : OnDram ps s t) {off : Nat} (hp : off / 0x1000 ∈ ps) {x : W32} : OnDram ps s (setReg t off x) :=
  h.trans (onDram_of_onPage (onPage_setReg rfl) hp)

theorem OnDram.wb (h : OnDram ps s t) {off : Nat} (hp : off / 0x1000 ∈ ps) {i : Nat} {b : Bool} : OnDram ps s (wb t off i b) := h.setReg hp

/-- A change of the DRAM subsystem alone. -/
theorem OnDram.dram (h : OnDram ps s t) {d : Dram} : OnDram ps s { t with dram := d } := h.trans ⟨rfl, fun _ _ => rfl⟩

theorem OnDram.updSub (h : OnDram ps s t) {u : Nat} {f : SubCh → SubCh} : OnDram ps s (updSub t u f) := h.dram

theorem OnDram.frame (h : OnDram ps s t) : Frame s { t with dram := s.dram } ps := by
  refine ⟨?_, h.regs⟩
  rw [h.rest]
  rfl

theorem OnDram.mem (h : OnDram ps s t) : t.mem = s.mem := (congrArg State.mem h.rest :)
end

/-! What the commands of a subchannel leave alone. -/

/-- A subchannel without what its commands change: the banks and the counts of activates, the buffers for replay, OWED and power-down. -/
def steady (k : SubCh) : SubCh :=
  { k with owed := 0, pd := false, retry := [], held := [], replaying := 0, replayed := 0, leftCmds := 0, leftWrites := 0, banks := [], charged := [],
           throttled := [], lastAct := [], lastUse := 0 }

/-- From `s` to `t` commands are issued: of the DRAM subsystem nothing changes but what commands change of the subchannels, outside it registers of the pages `ps`
and messages. -/
structure Commands (ps : List Nat) (s t : State) : Prop where
  onDram : OnDram ps s t
  dram : t.dram = { s.dram with sub := t.dram.sub }
  steady : KeepsSub steady s t

section
variable {ps : List Nat} {s t w : State} {u : Nat}

theorem Commands.refl (s : State) : Commands ps s s := ⟨.refl s, rfl, rfl⟩

theorem Commands.trans (h : Commands ps s t) (k : Commands ps t w) : Commands ps s w := by
  refine ⟨h.onDram.trans k.onDram, ?_, h.steady.trans k.steady⟩
  have kd := k.dram
  rw [h.dram] at kd
  exact kd

theorem Commands.ite {c : Prop} [Decidable c] (ht : Commands ps s t) (hw : Commands ps s w) : Commands ps s (if c then t else w) := by
  split <;> assumption

theorem Commands.foldl {α : Type} {f : State → α → State} (hf : ∀ t x, Commands ps s t → Commands ps s (f t x)) (l : List α) (h : Commands ps s t) :
    Commands ps s (l.foldl f t) := by
  induction l generalizing t with
  | nil => exact h
  | cons x l ih => exact ih (hf t x h)

theorem Commands.frame (h : Commands ps s t) : Frame s { t with dram := s.dram } ps := h.onDram.frame

theorem Commands.mem (h : Commands ps s t) : t.mem = s.mem := h.onDram.mem

theorem Commands.length (h : Commands ps s t) : t.dram.sub.length = s.dram.sub.length := h.steady.length

theorem Commands.subch (h : Commands ps s t) (u : Nat) : Subchannels.steady (subch t u) = Subchannels.steady (subch s u) := h.steady.subch u

theorem commands_of_onPage {pg : Nat} (h : OnPage pg s t) (hp : pg ∈ ps) : Commands ps s t := by
  have hd := dram_of_onPage h
  exact ⟨onDram_of_onPage h hp, by rw [hd], (KeepsSub.refl s).of_dram hd⟩

theorem Commands.raise (h : Commands ps s t) {pg : Nat} (hp : pg ∈ ps) {b : Nat} : Commands ps s (raise t pg b) :=
  h.trans (commands_of_onPage (onPage_raise b) hp)

theorem Commands.wf (h : Commands ps s t) {off : Nat} (hp : off / 0x1000 ∈ ps) {hi lo x : Nat} : Commands ps s (wf t off hi lo x) :=
  h.trans (commands_of_onPage (onPage_wf rfl) hp)

theorem Commands.bump (h : Commands ps s t) {off : Nat} (hp : off / 0x1000 ∈ ps) {hi lo n : Nat} : Commands ps s (bump t off hi lo n) := h.wf hp

theorem Commands.updSub (h : Commands ps s t) {f : SubCh → SubCh} (hf : ∀ k, Subchannels.steady (f k) = Subchannels.steady k) :
    Commands ps s (updSub t u f) :=
  h.trans ⟨(OnDram.refl t).updSub, rfl, (KeepsSub.refl t).updSub hf⟩

theorem Commands.logCmd (h : Commands ps s t) {c : DramCmd} : Commands ps s (logCmd t u c) := h.updSub fun _ => by rfl

theorem Commands.makeRoom (h : Commands ps s t) {n x : Nat} : Commands ps s (makeRoom t u n x) := h.updSub fun _ => by rfl

theorem Commands.refab (h : Commands ps s t) : Commands ps s (refab t u) := (h.updSub fun _ => by rfl).logCmd

theorem Commands.refreshOnce (h : Commands ps s t) : Commands ps s (refreshOnce t u) := h.refab.updSub fun _ => by rfl

theorem refreshMany_zero (s : State) (u : Nat) : refreshMany s u 0 = s := by
  conv_lhs => unfold refreshMany

theorem refreshMany_succ (s : State) (u n : Nat) : refreshMany s u (n + 1) = refreshMany (refreshOnce (makeRoom s u 1 0) u) u n := by
  conv_lhs => unfold refreshMany

theorem Commands.refreshMany (h : Commands ps s t) (n : Nat) : Commands ps s (refreshMany t u n) := by
  induction n generalizing t with
  | zero => rwa [refreshMany_zero]
  | succ n ih =>
    rw [refreshMany_succ]
    exact ih h.makeRoom.refreshOnce
end

/-! The commands whose registers and events lie on the page of the subchannel's controller. -/

theorem subReg_mem {ps : List Nat} {q i o : Nat} (hp : P.dmc q ∈ ps) (hi : i < 2) (ho : 0x10000 ≤ o ∧ o < 0x10F00) :
    (o + 0x1000 * q + 32 * i) / 0x1000 ∈ ps := by
  rwa [show (o + 0x1000 * q + 32 * i) / 0x1000 = 16 + q by omega]

section
variable {ps : List Nat} {s t : State} {u : Nat}

theorem Commands.chargeMitig (h : Commands ps s t) (hp : P.dmc (u / 2) ∈ ps) {src : Nat} : Commands ps s (chargeMitig t u src) := by
  have hpage : R.DMC_SUB_THROTTLE (u / 2) (u % 2) / 0x1000 ∈ ps := subReg_mem hp (Nat.mod_lt u two_pos) (by decide)
  have hcharged : Commands ps s (Machine.updSub t u fun k => { k with charged := SMap.set k.charged src (SMap.getD (Machine.subch t u).charged src 0 + 1) }) :=
    h.updSub fun _ => by rfl
  unfold Machine.chargeMitig
  exact .ite h (.ite (.raise (.wf (.bump (hcharged.updSub fun _ => by rfl) hpage) hpage) hp) hcharged)

theorem Commands.activate (h : Commands ps s t) (hp : P.dmc (u / 2) ∈ ps) {b row src : Nat} : Commands ps s (activate t u b row src) := by
  have hrow (d : SubCh → SMap Nat) (g : DramBank → DramBank) :
      Commands ps s (Machine.updSub (Machine.logCmd t u (.activate b row src)) u fun k => updBank { k with lastAct := d k } b g) :=
    h.logCmd.updSub fun _ => by rfl
  unfold Machine.activate
  exact .ite (hrow _ _) (.ite (.chargeMitig ((hrow _ _).updSub fun _ => by rfl) hp) ((hrow _ _).updSub fun _ => by rfl))

theorem Commands.mitigate (h : Commands ps s t) (hp : P.dmc (u / 2) ∈ ps) {b : Nat} : Commands ps s (mitigate t u b) := by
  have hpage : R.DMC_SUB_MITIG (u / 2) (u % 2) / 0x1000 ∈ ps := subReg_mem hp (Nat.mod_lt u two_pos) (by decide)
  unfold Machine.mitigate
  split
  · exact (h.logCmd.updSub fun _ => by rfl).bump hpage
  · exact .ite (h.logCmd.updSub fun _ => by rfl) h

theorem Commands.mitigateAll (h : Commands ps s t) (hp : P.dmc (u / 2) ∈ ps) {b : Nat} : Commands ps s (mitigateAll t u b) :=
  .foldl (fun _ _ k => k.mitigate hp) _ h

theorem Commands.openFor (h : Commands ps s t) (hp : P.dmc (u / 2) ∈ ps) {r : DramReq} : Commands ps s (openFor t u r) := .ite h (h.activate hp)

theorem onPage_injFire (s : State) (target : Nat) (p : Nat → Bool) : OnPage P.flt s (injFire s target p).1 := by
  unfold injFire
  split
  · refine OnPage.trans (t := wf s R.FLT_INJ_STATUS 1 0 2) (onPage_wf (by decide)) ?_
    unfold raiseRecord
    exact .ite (.ite (onPage_toRecorder _) (.refl _ _)) (onPage_raiseP _ _)
  · exact .refl _ _

theorem Commands.issueCommand (h : Commands ps s t) (hp : P.flt ∈ ps) {r : DramReq} : Commands ps s (issueCommand t u r) := by
  have hfire (w : State) (target : Nat) (p : Nat → Bool) : Commands ps w (injFire w target p).1 := commands_of_onPage (onPage_injFire w target p) hp
  have hparity := h.trans (hfire t 5 fun a => a % 8 = u)
  have hcrc : Commands ps s (if r.data.isSome then (injFire (injFire t 5 fun a => a % 8 = u).1 6 fun a => a % 8 = u).1
      else (injFire t 5 fun a => a % 8 = u).1) := .ite (hparity.trans (hfire _ 6 _)) hparity
  exact (Commands.foldl (fun _ _ k => k.logCmd) (cmdsOf r) hcrc).updSub fun _ => by rfl

theorem Commands.makeUp (h : Commands ps s t) (hp : P.dmc (u / 2) ∈ ps) : Commands ps s (makeUp t u) := by
  have hpage : R.DMC_SUB_REFBURST (u / 2) (u % 2) / 0x1000 ∈ ps := subReg_mem hp (Nat.mod_lt u two_pos) (by decide)
  unfold Machine.makeUp
  exact .ite ((h.refreshMany _).bump hpage) h

theorem Commands.reopen (h : Commands ps s t) (hp : P.dmc (u / 2) ∈ ps) {b row src : Nat} : Commands ps s (reopen t u b row src) :=
  .ite h ((h.makeRoom.mitigateAll hp).activate hp)

theorem Commands.replayCmd (h : Commands ps s t) (hp : P.dmc (u / 2) ∈ ps) (c : DramCmd) : Commands ps s (replayCmd u t c) := by
  cases c with
  | activate b row src => exact h.reopen hp
  | read b row col src => exact (h.reopen hp).makeRoom.logCmd
  | write b row col src => exact (h.reopen hp).makeRoom.logCmd
  | refresh => exact h.makeRoom.refab
  | mitigate b r => exact (h.makeRoom.updSub fun _ => by rfl).logCmd

theorem Commands.replayAll (h : Commands ps s t) (hp : P.dmc (u / 2) ∈ ps) {kind : Nat} {cs : List DramCmd} : Commands ps s (replayAll t u kind cs) :=
  .ite (h.updSub fun _ => by rfl) (.updSub (.foldl (fun _ c k => k.replayCmd hp c) _ (.ite (h.updSub fun _ => by rfl) h)) fun _ => by rfl)

theorem Commands.recover (h : Commands ps s t) (hp : P.dmc (u / 2) ∈ ps) {parity : Bool} : Commands ps s (recover t u parity) :=
  .ite (.replayAll (h.updSub fun _ => by rfl) hp) (h.replayAll hp)
end

end Sys2Proof.Subchannels
end

section
/-! Activates and mitigations, refresh, power-down and the patrol scrub of a subchannel (06 R187, R193 to R203). -/
namespace Sys2Proof.Subchannels
open Sys2Proof Sys2Proof.Machine Sys2Proof.Laws Sys2Proof.Claims Sys2Proof.Mesh Sys2Proof.RegisterPages

/-! Activates (R197, R198). -/

theorem bankAt_updBank_self (k : SubCh) (b : Nat) (f : DramBank → DramBank) : bankAt (updBank k b f) b = f (bankAt k b) := SMap.getD_put_self

/-- The open row and the rolling count of activates of bank `b`. -/
def opening (b : Nat) (k : SubCh) : Option Nat × Nat := ((bankAt k b).row, (bankAt k b).rolling)

theorem opening_updBank {b : Nat} {f : DramBank → DramBank} (hrow : ∀ d, (f d).row = d.row) (hrolling : ∀ d, (f d).rolling = d.rolling) (k : SubCh) :
    opening b (updBank k b f) = opening b k := by
  simp only [opening, bankAt_updBank_self, hrow, hrolling]

/-- The row of a bank is open, and its activate is counted in the rolling count. -/
def opened (s : State) (u b row src : Nat) : State :=
  updSub (logCmd s u (.activate b row src)) u fun k =>
    updBank { k with lastAct := SMap.set k.lastAct (src * 64 + b) s.clock } b fun d => { d with row := some row, rolling := d.rolling + 1 }

section
variable {s t : State} {u b : Nat}

theorem length_logCmd (h : u < s.dram.sub.length) (c : DramCmd) : u < (logCmd s u c).dram.sub.length := by simpa [logCmd] using h

theorem subch_logCmd (h : u < s.dram.sub.length) (c : DramCmd) :
    subch (logCmd s u c) u = { subch s u with retry := (subch s u).retry ++ [c], pd := false } := subch_updSub_self h

theorem opening_opened (hu : u < s.dram.sub.length) (row src : Nat) :
    opening b (subch (opened s u b row src) u) = (some row, (bankAt (subch s u) b).rolling + 1) := by
  unfold opening opened
  rw [subch_updSub_self (length_logCmd hu _), bankAt_updBank_self, subch_logCmd hu]
  rfl

theorem KeepsSub.chargeMitig {α : Type} {g : SubCh → α} (h : KeepsSub g s t) {src : Nat} (hcharged : ∀ k c, g { k with charged := c } = g k)
    (hthrottled : ∀ k x, g { k with throttled := x } = g k) : KeepsSub g s (chargeMitig t u src) := by
  unfold Machine.chargeMitig
  exact .ite h (.ite (.raise (.wf (.bump (.updSub (.updSub h fun k => hcharged k _) fun k => hthrottled k _)))) (h.updSub fun k => hcharged k _))

/-- What an activate notes in the table of its bank, and the mitigation that this calls for, leave the open row and the rolling count. -/
theorem opening_activate (s : State) (u b row src : Nat) : KeepsSub (opening b) (opened s u b row src) (activate s u b row src) := by
  have hnoted (f : DramBank → DramBank) (hrow : ∀ d, (f d).row = d.row) (hrolling : ∀ d, (f d).rolling = d.rolling) :
      KeepsSub (opening b) (opened s u b row src) (updSub (opened s u b row src) u fun k => updBank k b f) :=
    (KeepsSub.refl _).updSub fun k => opening_updBank hrow hrolling k
  unfold activate
  change KeepsSub _ _ (if !rb (opened s u b row src) (R.DMC_ACT_CTRL (u / 2)) 16 then opened s u b row src else _)
  refine .ite (.refl _) (.ite (.chargeMitig (hnoted _ ?_ ?_) ?_ ?_) (hnoted _ ?_ ?_))
  all_goals intros; rfl

theorem runs_rowActivate (hu : u < s.dram.sub.length) {row src : Nat} (hlive : (subch s u).live = true) (hroom : retryRoom (subch s u) = true)
    (hmay : mayActivate s u b src = true) : Runs (.rowActivate u b row src) s fun t =>
      (bankAt (subch t u) b).row = some row ∧ (bankAt (subch t u) b).rolling = (bankAt (subch s u) b).rolling + 1
        ∧ Frame s { t with dram := s.dram } [P.dmc (u / 2)] := by
  have hopen := ((opening_activate s u b row src).subch u).trans (opening_opened hu row src)
  exact ⟨_, if_pos (by simp [hlive, hroom, hmay]), congrArg Prod.fst hopen, congrArg Prod.snd hopen, ((Commands.refl s).activate (by simp)).frame⟩

/-! Mitigations (R197, R199). -/

theorem exec_mitigationIssue (hlive : (subch s u).live = true) (hroom : retryRoom (subch s u) = true) :
    exec (.mitigationIssue u b) s = .next (mitigate s u b) := congrArg Host.Outcome.next (if_pos (by simp [hlive, hroom]))

/-- The command with which a bank's first mitigation in the queue is issued, which names row `r` where the components advertise DRFMsb. -/
def mitigation (s : State) (b r : Nat) : DramCmd := .mitigate b (if s.dram.drfm then some r else none)

theorem mitigate_queued {m : Nat × Nat} {ms : List (Nat × Nat)} (h : (bankAt (subch s u) b).mitig = m :: ms) :
    mitigate s u b = bump (updSub (logCmd s u (mitigation s b m.1)) u fun k => updBank k b fun d =>
      { (if s.dram.drfm then { d with row := none } else lowered s d) with mitig := ms }) (R.DMC_SUB_MITIG (u / 2) (u % 2)) 31 0 1 := by
  unfold mitigate
  rw [h]
  rfl

theorem mitigate_due (h : (bankAt (subch s u) b).mitig = []) (hdue : rfmDue s u b = true) :
    mitigate s u b = updSub (logCmd s u (.mitigate b none)) u fun k => updBank k b (lowered s) := by
  unfold mitigate
  rw [h]
  exact if_pos hdue

theorem runs_mitigationIssue_queued (hu : u < s.dram.sub.length) {m : Nat × Nat} {ms : List (Nat × Nat)} (hlive : (subch s u).live = true)
    (hroom : retryRoom (subch s u) = true) (hmitig : (bankAt (subch s u) b).mitig = m :: ms) : Runs (.mitigationIssue u b) s fun t =>
      (bankAt (subch t u) b).mitig = ms ∧ (bankAt (subch t u) b).row = none ∧ (∃ c, (subch t u).retry = (subch s u).retry ++ [c])
        ∧ Frame s { t with dram := s.dram } [P.dmc (u / 2)] := by
  have hsub := subch_updSub_self (length_logCmd hu (mitigation s b m.1)) (f := fun k => updBank k b fun d =>
    { (if s.dram.drfm then { d with row := none } else lowered s d) with mitig := ms })
  rw [subch_logCmd hu] at hsub
  refine ⟨_, exec_mitigationIssue hlive hroom, ?_, ?_, ⟨mitigation s b m.1, ?_⟩, ((Commands.refl s).mitigate (by simp)).frame⟩ <;>
    rw [mitigate_queued hmitig, subch_bump, hsub]
  · rw [bankAt_updBank_self]
  · rw [bankAt_updBank_self]
    dsimp only
    split <;> rfl
  · rfl

theorem runs_mitigationIssue_due (hu : u < s.dram.sub.length) (hlive : (subch s u).live = true) (hroom : retryRoom (subch s u) = true)
    (hmitig : (bankAt (subch s u) b).mitig = []) (hdue : rfmDue s u b = true) : Runs (.mitigationIssue u b) s fun t =>
      (bankAt (subch t u) b).rolling = (bankAt (subch s u) b).rolling - s.dram.rfmThreshold ∧ Frame s { t with dram := s.dram } [] := by
  refine ⟨_, (exec_mitigationIssue hlive hroom).trans (congrArg _ (mitigate_due hmitig hdue)), ?_, ((Commands.refl s).logCmd.updSub fun _ => by rfl).frame⟩
  rw [subch_updSub_self (length_logCmd hu _), bankAt_updBank_self, subch_logCmd hu]
  rfl

/-! The activate tables and the throttle window (R200, R202). -/

theorem getD_of_forall {α : Type} {p : α → Prop} {m : SMap α} {d : α} (hd : p d) (hm : ∀ e ∈ m, p e.2) (i : Nat) : p (SMap.getD m i d) := by
  induction m with
  | nil => exact hd
  | cons e m ih =>
    obtain ⟨j, x⟩ := e
    unfold SMap.getD SMap.get
    split
    · exact hm (j, x) List.mem_cons_self
    · exact ih fun e he => hm e (List.mem_cons_of_mem _ he)

/-- What holds of a bank with no entry and of every bank as changed holds of each bank after a change of all of them. -/
theorem bankAt_changed {p : DramBank → Prop} {f : DramBank → DramBank} {k : SubCh} (h0 : p {}) (hf : ∀ d, p (f d))
    (hk : k.banks = ((subch s u).banks.map fun e => (e.1, f e.2)).filter fun e => e.2 ≠ {}) (i : Nat) : p (bankAt k i) := by
  refine getD_of_forall h0 (fun e he => ?_) i
  rw [hk] at he
  obtain ⟨e', -, rfl⟩ := List.mem_map.1 (List.mem_filter.1 he).1
  exact hf _

theorem runs_actTableClear (hu : u < s.dram.sub.length) :
    Runs (.actTableClear u) s fun t => (∀ i, (bankAt (subch t u) i).table = []) ∧ Frame s { t with dram := s.dram } [] := by
  refine ⟨_, rfl, fun i => ?_, ((Commands.refl s).updSub fun _ => by rfl).frame⟩
  rw [subch_updSub_self hu]
  exact bankAt_changed (p := fun d => d.table = []) (f := fun d => { d with table := [] }) rfl (fun _ => rfl) rfl i

theorem runs_throttleWindowEnd (hu : u < s.dram.sub.length) :
    Runs (.throttleWindowEnd u) s fun t => (subch t u).charged = [] ∧ (subch t u).throttled = [] ∧ Frame s { t with dram := s.dram } [] := by
  refine ⟨_, rfl, ?_, ?_, ((Commands.refl s).updSub fun _ => by rfl).frame⟩ <;> rw [subch_updSub_self hu]

/-! Refresh (R193 to R196). -/

theorem subch_refreshOnce (hu : u < s.dram.sub.length) :
    (subch (refreshOnce s u) u).owed = (subch s u).owed - 1 ∧ ∀ i, (bankAt (subch (refreshOnce s u) u) i).row = none := by
  have hlen {f : SubCh → SubCh} : u < (updSub s u f).dram.sub.length := by simpa using hu
  unfold refreshOnce refab
  rw [subch_updSub_self (length_logCmd hlen _), subch_logCmd hlen, subch_updSub_self hu]
  exact ⟨rfl, fun i => bankAt_changed (s := s) (u := u) (p := fun d => d.row = none) (f := lowered s) rfl (fun _ => rfl) rfl i⟩

theorem subch_makeRoom (hu : u < s.dram.sub.length) (n x : Nat) :
    (subch (makeRoom s u n x) u).owed = (subch s u).owed ∧ (subch (makeRoom s u n x) u).banks = (subch s u).banks := by
  unfold makeRoom
  rw [subch_updSub_self hu]
  exact ⟨rfl, rfl⟩

theorem owed_refreshMany (n : Nat) (hu : u < s.dram.sub.length) : (subch (refreshMany s u n) u).owed = (subch s u).owed - n := by
  induction n generalizing s with
  | zero => rw [refreshMany_zero, Nat.cast_zero, sub_zero]
  | succ n ih =>
    have hroom : u < (makeRoom s u 1 0).dram.sub.length := by simpa [makeRoom] using hu
    have honce : u < (refreshOnce (makeRoom s u 1 0) u).dram.sub.length := by rwa [((Commands.refl _).refreshOnce (ps := [])).length]
    rw [refreshMany_succ, ih honce, (subch_refreshOnce hroom).1, (subch_makeRoom hu 1 0).1]
    push_cast
    ring

/-- A refresh closes every row, and none of those that follow it opens one. -/
theorem row_refreshMany (n : Nat) (hu : u < s.dram.sub.length) (h : 0 < n ∨ ∀ i, (bankAt (subch s u) i).row = none) (i : Nat) :
    (bankAt (subch (refreshMany s u n) u) i).row = none := by
  induction n generalizing s with
  | zero =>
    rw [refreshMany_zero]
    exact h.resolve_left (Nat.lt_irrefl 0) i
  | succ n ih =>
    have hroom : u < (makeRoom s u 1 0).dram.sub.length := by simpa [makeRoom] using hu
    have honce : u < (refreshOnce (makeRoom s u 1 0) u).dram.sub.length := by rwa [((Commands.refl _).refreshOnce (ps := [])).length]
    rw [refreshMany_succ]
    exact ih honce (.inr (subch_refreshOnce hroom).2)

/-- The state in which a tick of the refresh interval is counted. -/
def ticked (s : State) (u : Nat) : State := updSub s u fun k => { k with owed := k.owed + 1 }

theorem exec_refreshTick (h : ticks (subch s u) = true) : exec (.refreshTick u) s = .next (makeUp (ticked s u) u) := if_neg (by simp [h])

theorem runs_refreshTick_owed (hu : u < s.dram.sub.length) (ht : ticks (subch s u) = true)
    (hmost : (subch s u).owed + 1 < rf s (R.DMC_REF_CTRL (u / 2)) 3 0) : Runs (.refreshTick u) s fun t =>
      (subch t u).owed = (subch s u).owed + 1 ∧ Frame s { t with dram := s.dram } [] := by
  have howed : (subch (ticked s u) u).owed = (subch s u).owed + 1 := congrArg SubCh.owed (subch_updSub_self hu)
  have hnone : makeUp (ticked s u) u = ticked s u := if_neg fun h => absurd (howed ▸ h.2) (not_le.2 hmost)
  exact ⟨_, (exec_refreshTick ht).trans (congrArg _ hnone), howed, ((Commands.refl s).updSub fun _ => by rfl).frame⟩

theorem runs_refreshTick_makeUp (hu : u < s.dram.sub.length) (hr : refreshes (subch s u) = true) (hpos : 0 < rf s (R.DMC_REF_CTRL (u / 2)) 3 0)
    (hmost : rf s (R.DMC_REF_CTRL (u / 2)) 3 0 ≤ (subch s u).owed + 1) : Runs (.refreshTick u) s fun t =>
      (subch t u).owed = 0 ∧ (∀ i, (bankAt (subch t u) i).row = none) ∧ Frame s { t with dram := s.dram } [P.dmc (u / 2)] := by
  have hsub : subch (ticked s u) u = { subch s u with owed := (subch s u).owed + 1 } := subch_updSub_self hu
  have hlen : u < (ticked s u).dram.sub.length := by simpa [ticked] using hu
  have ht : ticks (subch s u) = true := (Bool.and_eq_true_iff.1 hr).1
  have hburst : makeUp (ticked s u) u
      = bump (refreshMany (ticked s u) u ((subch s u).owed + 1).toNat) (R.DMC_SUB_REFBURST (u / 2) (u % 2)) 15 0 1 := by
    unfold makeUp
    rw [hsub]
    exact if_pos ⟨hr, hmost⟩
  refine ⟨_, exec_refreshTick ht, ?_, fun i => ?_, (((Commands.refl s).updSub fun _ => by rfl).makeUp (by simp)).frame⟩
  · rw [hburst, subch_bump, owed_refreshMany _ hlen, hsub]
    dsimp only
    omega
  · rw [hburst, subch_bump]
    exact row_refreshMany _ hlen (.inl (by omega)) i

theorem runs_refreshIssue (hu : u < s.dram.sub.length) (hr : refreshes (subch s u) = true) (hroom : retryRoom (subch s u) = true)
    (howed : 1 ≤ (subch s u).owed) (hbulk : ∀ r ∈ (subch s u).reads ++ (subch s u).writes, r.cls = 3) : Runs (.refreshIssue u) s fun t =>
      (subch t u).owed = (subch s u).owed - 1 ∧ Frame s { t with dram := s.dram } [] :=
  ⟨_, if_pos (by simpa [hr, hroom, howed, or_imp, forall_and] using hbulk), (subch_refreshOnce hu).1, (Commands.refl s).refreshOnce.frame⟩

theorem runs_refreshPullin (hu : u < s.dram.sub.length) (hr : refreshes (subch s u) = true) (hroom : retryRoom (subch s u) = true)
    (howed : -8 < (subch s u).owed) (hidle : rf s (R.DMC_REF_CTRL (u / 2)) 15 8 ≠ 0) (hreads : (subch s u).reads = []) (hwrites : (subch s u).writes = []) :
    Runs (.refreshPullin u) s fun t => (subch t u).owed = (subch s u).owed - 1 ∧ Frame s { t with dram := s.dram } [P.dmc (u / 2)] := by
  refine ⟨_, if_pos (by simp [hr, hroom, howed, hidle, noRequest, hreads, hwrites]), ?_,
    ((Commands.refl s).refreshOnce.bump (subReg_mem (by simp) (Nat.mod_lt u two_pos) (by decide))).frame⟩
  rw [subch_bump, (subch_refreshOnce hu).1]

theorem runs_mr4Poll (hu : u < s.dram.sub.length) (rate : Nat) (hr : refreshes (subch s u) = true) : Runs (.mr4Poll u rate) s fun t =>
    (subch t u).rate = min rate 2 ∧ (2 ≤ rate → Raised t (P.dmc (u / 2)) 13) ∧ Frame s { t with dram := s.dram } [P.dmc (u / 2)] := by
  have hrate : (subch (updSub s u fun k => { k with rate := min rate 2 }) u).rate = min rate 2 := congrArg SubCh.rate (subch_updSub_self hu)
  have hpolled : OnDram [P.dmc (u / 2)] s (updSub s u fun k => { k with rate := min rate 2 }) := (OnDram.refl s).updSub
  refine ⟨_, if_neg (by simp [hr]), ?_, fun h => ?_, (OnDram.ite (hpolled.raise (by simp) 13) hpolled).frame⟩
  · split
    · rw [subch, dram_of_onPage (onPage_raise 13)]
      exact hrate
    · exact hrate
  · rw [if_pos h]
    exact rb_raise _ _ (by decide)

/-! Power-down and the patrol scrub (R187, R203). -/

theorem runs_powerDownEntry (hu : u < s.dram.sub.length) (hlive : (subch s u).live = true) (hreads : (subch s u).reads = [])
    (hwrites : (subch s u).writes = []) (hpd : rf s (R.DMC_PD_CTRL (u / 2)) 15 0 ≠ 0) : Runs (.powerDownEntry u) s fun t =>
      (subch t u).pd = true ∧ Frame s { t with dram := s.dram } [] :=
  ⟨_, if_pos (by simp [hlive, noRequest, hreads, hwrites, hpd]), congrArg SubCh.pd (subch_updSub_self hu), ((Commands.refl s).updSub fun _ => by rfl).frame⟩

/-- A read that is served within a command issues commands, and is noted among what the requests of the command met. -/
theorem commands_engineCommand {r : DramReq} (h : engineCommand s u r = some t) : ∃ w f, t = updIo w f ∧ Commands [P.dmc (u / 2), P.flt] s w := by
  unfold engineCommand at h
  dsimp only at h
  split at h
  · cases h
  · cases h
    exact ⟨_, _, rfl, .issueCommand (.ite (Commands.refl s).makeRoom (.openFor ((Commands.refl s).makeRoom.mitigateAll (by simp)) (by simp))) (by simp)⟩

theorem runs_dramPatrolScrub (hu : u < s.dram.sub.length) {a : Nat} (hlive : (subch s u).live = true) (hroom : retryRoom (subch s u) = true)
    (hon : rb s (R.DMC_SCRUB_CTRL (u / 2)) 0 = true) (ha : internalOf s u (subch s u).patrol = some a)
    (hserved : engineCommand s u (patrolReq s a (subch s u).patrol) ≠ none) :
    Runs (.dramPatrolScrub u) s fun t => (subch t u).patrol = (subch s u).patrol + 64 ∧ SameBytes s t := by
  obtain ⟨t, ht⟩ := Option.ne_none_iff_exists'.1 hserved
  obtain ⟨w, f, rfl, hw⟩ := commands_engineCommand ht
  have hcheck := checks_checkBurst (updIo w f) 1 (a / 64)
  have hsub : (checkBurst (updIo w f) 1 (a / 64)).dram.sub = w.dram.sub := (congrArg (fun x : State => x.dram.sub) hcheck.rest :)
  have hpatrol : (subch (checkBurst (updIo w f) 1 (a / 64)) u).patrol = (subch s u).patrol := by
    rw [subch, hsub]
    exact (congrArg SubCh.patrol (hw.subch u) :)
  refine ⟨updIo (updSub (checkBurst (updIo w f) 1 (a / 64)) u fun k => { k with patrol := k.patrol + 64 }) fun _ => s.mortar.io, ?_, ?_,
    sameBytes_of_mem (hcheck.mem.trans hw.mem)⟩
  · show execDramPatrolScrub u s = _
    unfold execDramPatrolScrub
    dsimp only
    rw [if_neg (by simp [hlive, hroom, hon]), ha]
    dsimp only
    rw [ht]
  · rw [← hpatrol]
    exact congrArg SubCh.patrol (subch_updSub_self (by rwa [hsub, hw.length]))

end

/-- Settles O40, clause by clause: activates and mitigations, the windows that end, refresh, the poll of MR4, power-down and the patrol scrub. -/
theorem dramUpkeep : Obligations.DramUpkeep := by
  unfold Obligations.DramUpkeep
  intro s u b hu hlength
  have hlen : u < s.dram.sub.length := hlength ▸ hu
  exact ⟨fun _ _ => runs_rowActivate hlen, fun _ _ => runs_mitigationIssue_queued hlen, runs_mitigationIssue_due hlen, runs_actTableClear hlen,
    runs_throttleWindowEnd hlen, runs_refreshTick_owed hlen, runs_refreshTick_makeUp hlen, runs_refreshIssue hlen, runs_refreshPullin hlen,
    runs_mr4Poll hlen, runs_powerDownEntry hlen, fun _ => runs_dramPatrolScrub hlen⟩

end Sys2Proof.Subchannels
end

section
/-! The request queues of a subchannel: entry, acknowledgement, service and ageing (06 R176, R179, R185 to R192, R215). -/
namespace Sys2Proof.Subchannels
open Sys2Proof Sys2Proof.Machine Sys2Proof.Laws Sys2Proof.Claims Sys2Proof.Mesh Sys2Proof.RegisterPages

/-! Responses and the reads that hold them back (R190, R191). -/

/-- A subchannel without the responses that wait and without DRAINING. -/
def lined (k : SubCh) : SubCh := { k with acks := [], draining := false }

/-- The reads that wait at a subchannel. -/
def waitingReads (k : SubCh) : List DramReq := (k.reads ++ k.writes ++ k.stopped).filter (·.data.isNone)

/-- The responses that wait at the controller of subchannel `u` and that no earlier read holds back. -/
def released (s : State) (u : Nat) : List (Nat × DramResp) :=
  ((subch s (u / 2 * 2)).acks ++ (subch s (u / 2 * 2 + 1)).acks).filter fun a => !readBefore s u a.2.src a.2.chan a.1

/-- No response waits at the controller of subchannel `u`. -/
def Quiet (s : State) (u : Nat) : Prop := (subch s (u / 2 * 2)).acks = [] ∧ (subch s (u / 2 * 2 + 1)).acks = []

section
variable {α : Type} {g : SubCh → α} {ps : List Nat} {s t : State} {u : Nat}

theorem KeepsSub.comp {β : Type} (h : KeepsSub g s t) (φ : α → β) : KeepsSub (fun k => φ (g k)) s t := by
  have hmap := congrArg (List.map φ) (show t.dram.sub.map g = s.dram.sub.map g from h)
  rwa [List.map_map, List.map_map] at hmap

theorem KeepsSub.foldl {β : Type} {f : State → β → State} (hf : ∀ t x, KeepsSub g s t → KeepsSub g s (f t x)) (l : List β) (h : KeepsSub g s t) :
    KeepsSub g s (l.foldl f t) := by
  induction l generalizing t with
  | nil => exact h
  | cons x l ih => exact ih (hf t x h)

theorem keepsSub_of_checks (h : Checks s t) : KeepsSub g s t := (congrArg (fun w : State => w.dram.sub.map g) h.rest :)

theorem KeepsSub.dramRespond (h : KeepsSub g s t) {src st : Nat} {chan : Chan} {data : List Byte} {bad : List (Nat × Nat)} :
    KeepsSub g s (dramRespond t src chan st data bad) := h

theorem KeepsSub.releaseAcks (h : KeepsSub g s t) (hacks : ∀ k a, g { k with acks := a } = g k) : KeepsSub g s (releaseAcks t u) :=
  .foldl (fun _ _ k => k.dramRespond) _ (.foldl (fun _ _ k => k.updSub fun k => hacks k _) _ h)

theorem KeepsSub.drainState (h : KeepsSub g s t) (hdraining : ∀ k x, g { k with draining := x } = g k) : KeepsSub g s (drainState t u) :=
  .ite (h.updSub fun k => hdraining k _) (.ite (h.updSub fun k => hdraining k _) h)

theorem OnDram.foldl {β : Type} {f : State → β → State} (hf : ∀ t x, OnDram ps s t → OnDram ps s (f t x)) (l : List β) (h : OnDram ps s t) :
    OnDram ps s (l.foldl f t) := by
  induction l generalizing t with
  | nil => exact h
  | cons x l ih => exact ih (hf t x h)

theorem OnDram.releaseAcks (h : OnDram ps s t) : OnDram ps s (releaseAcks t u) := .foldl (fun _ _ k => k.dram) _ (.foldl (fun _ _ k => k.updSub) _ h)

theorem OnDram.respondInTurn (h : OnDram ps s t) {seq : Nat} {r : DramResp} : OnDram ps s (respondInTurn t u seq r) := h.updSub.releaseAcks

theorem OnDram.drainState (h : OnDram ps s t) : OnDram ps s (drainState t u) := .ite h.updSub (.ite h.updSub h)

theorem OnDram.enterQueue (h : OnDram ps s t) {r : DramReq} : OnDram ps s (enterQueue t u r) :=
  .ite (.drainState (.ite h.updSub.respondInTurn h.updSub)) h.updSub

theorem readBefore_eq (s : State) (u src : Nat) (chan : Chan) (seq : Nat) :
    readBefore s u src chan seq = (waitingReads (subch s (u / 2 * 2)) ++ waitingReads (subch s (u / 2 * 2 + 1))).any fun e =>
      decide (e.src = src) && decide (e.chan = chan) && decide (e.seq < seq) := by
  simp only [readBefore, waitingAt, waitingReads, ← List.filter_append, List.any_filter, List.append_assoc, Bool.and_assoc]

theorem readBefore_congr (h : KeepsSub waitingReads s t) (u src : Nat) (chan : Chan) (seq : Nat) :
    readBefore t u src chan seq = readBefore s u src chan seq := by
  rw [readBefore_eq, readBefore_eq, h.subch, h.subch]

theorem Quiet.congr (h : Quiet s u) (k : KeepsSub SubCh.acks s t) : Quiet t u := ⟨(k.subch _).trans h.1, (k.subch _).trans h.2⟩

theorem resp_foldl_updSub (f : SubCh → SubCh) (l : List Nat) (s : State) : (l.foldl (fun s v => updSub s v f) s).dram.resp = s.dram.resp :=
  PowerUp.foldl_keeps (g := fun s => s.dram.resp) (f := fun s v => updSub s v f) (fun _ _ => rfl) l s

theorem resp_foldl_dramRespond (l : List (Nat × DramResp)) (s : State) :
    (l.foldl (fun s a => dramRespond s a.2.src a.2.chan a.2.status a.2.data a.2.bad) s).dram.resp = (l.map (·.2)).reverse ++ s.dram.resp := by
  induction l generalizing s with
  | nil => rfl
  | cons a l ih =>
    rw [List.foldl_cons, ih]
    simp [dramRespond]

/-- The responses that are released are given, in the order of acceptance. -/
theorem resp_releaseAcks (s : State) (u : Nat) :
    (releaseAcks s u).dram.resp = (((released s u).foldl (fun l a => ackInsert a l) []).map (·.2)).reverse ++ s.dram.resp :=
  (resp_foldl_dramRespond _ _).trans (congrArg _ (resp_foldl_updSub _ _ s))

theorem resp_drainState (s : State) (u : Nat) : (drainState s u).dram.resp = s.dram.resp := by
  unfold drainState
  dsimp only
  repeat' split
  all_goals rfl

theorem resp_releaseAcks_quiet (h : Quiet s u) : (releaseAcks s u).dram.resp = s.dram.resp := by
  rw [resp_releaseAcks, released, h.1, h.2]
  rfl

/-- Where nothing waits, a response that no earlier read holds back is given at once. -/
theorem resp_respondInTurn (hu : u < s.dram.sub.length) (hquiet : Quiet s u) {seq : Nat} {r : DramResp}
    (hbefore : readBefore s u r.src r.chan seq = false) : (respondInTurn s u seq r).dram.resp = r :: s.dram.resp := by
  have hreads : KeepsSub waitingReads s (updSub s u fun k => { k with acks := k.acks ++ [(seq, r)] }) := (KeepsSub.refl s).updSub fun _ => by rfl
  have hreleased : released (updSub s u fun k => { k with acks := k.acks ++ [(seq, r)] }) u = [(seq, r)] := by
    have hacks : (subch (updSub s u fun k => { k with acks := k.acks ++ [(seq, r)] }) (u / 2 * 2)).acks
        ++ (subch (updSub s u fun k => { k with acks := k.acks ++ [(seq, r)] }) (u / 2 * 2 + 1)).acks = [(seq, r)] := by
      obtain ⟨hlow, hhigh⟩ := hquiet
      rcases show u / 2 * 2 = u ∨ u / 2 * 2 + 1 = u by omega with h | h
      · rw [h] at hlow hhigh ⊢
        rw [subch_updSub_self hu, subch_updSub_ne (by omega)]
        simp [hlow, hhigh]
      · rw [subch_updSub_ne (by omega), h, subch_updSub_self hu]
        rw [h] at hhigh
        simp [hlow, hhigh]
    rw [released, hacks]
    simp [readBefore_congr hreads, hbefore]
  unfold respondInTurn
  rw [resp_releaseAcks, hreleased]
  rfl

/-- A write takes its place in the write buffer. -/
def bufferedWrite (s : State) (u : Nat) (r : DramReq) : State := updSub s u fun k => { k with writes := k.writes ++ [r], pd := false, lastUse := s.clock }

section
variable {r : DramReq} {bs : List Byte} (hu : u < s.dram.sub.length) (hdata : r.data = some bs) (hack : r.ack = true)
include hdata hack

theorem enterQueue_write (s : State) (u : Nat) : enterQueue s u r
    = drainState (respondInTurn (bufferedWrite s u r) u r.seq { src := r.src, chan := r.chan, status := MS.ok, data := [] }) u := by
  unfold enterQueue acceptWrite
  rw [hdata, hack]
  rfl

include hu

theorem writes_enterQueue_write : (subch (enterQueue s u r) u).writes = (subch s u).writes ++ [r] := by
  have hlined : KeepsSub lined (bufferedWrite s u r) (enterQueue s u r) := by
    rw [enterQueue_write hdata hack]
    exact (((KeepsSub.refl _).updSub fun _ => by rfl).releaseAcks fun _ _ => rfl).drainState fun _ _ => rfl
  exact (congrArg SubCh.writes (hlined.subch u) :).trans (congrArg SubCh.writes (subch_updSub_self hu))

theorem resp_enterQueue_write (hquiet : Quiet s u) (hbefore : readBefore s u r.src r.chan r.seq = false) :
    (enterQueue s u r).dram.resp = { src := r.src, chan := r.chan, status := MS.ok, data := [] } :: s.dram.resp := by
  have hacks : KeepsSub SubCh.acks s (bufferedWrite s u r) := (KeepsSub.refl s).updSub fun _ => by rfl
  have hreads : KeepsSub waitingReads s (bufferedWrite s u r) :=
    (KeepsSub.refl s).updSub fun k => by simp [waitingReads, List.filter_append, hdata]
  have hlen : u < (bufferedWrite s u r).dram.sub.length := by rwa [hacks.length]
  rw [enterQueue_write hdata hack, resp_drainState, resp_respondInTurn hlen (hquiet.congr hacks) ((readBefore_congr hreads ..).trans hbefore)]
  rfl
end
end

/-! Requests that are accepted (R188, R190 to R192, R215). -/

/-- A request as the controller takes it in: its class as it is served, its length, its place in the order of acceptance. -/
def newReq (s : State) (src : Nat) (req : Req) (cls : Option Nat) (chan : Chan) (addr l len : Nat) (data : Option (List Byte)) (bad : List (Nat × Nat)) :
    DramReq :=
  { src := src, req := req, cls := servedClass chan cls, cls0 := servedClass chan cls, chan := chan, addr := addr, loc := l,
    len := requestBytes len data, data := data, bad := bad, at_ := s.clock, seq := s.dram.seq }

/-- One request more has been accepted. -/
def counted (s : State) : State := { s with dram := { s.dram with seq := s.dram.seq + 1 } }

section
variable {s : State} {u l src addr len : Nat} {req : Req} {cls : Option Nat} {chan : Chan} {data : Option (List Byte)} {bs : List Byte}
  {bad : List (Nat × Nat)}

theorem exec_dramRequestAccept_queued (hplace : placeOf addr = .dram) (htarget : dramTarget s addr = some (u, l)) (hst : (subch s u).st ≠ .fenced)
    (hroom : queueFull (if data.isSome then (subch s u).writes else (subch s u).reads) = false) :
    exec (.dramRequestAccept src req cls chan addr len data bad) s = .next (enterQueue (counted s) u (newReq s src req cls chan addr l len data bad)) := by
  show execDramRequestAccept src req cls chan addr len data bad s = _
  unfold execDramRequestAccept
  rw [hplace, htarget]
  dsimp only
  rw [if_neg hst, if_neg (by simp [hroom])]
  cases data <;> rfl

theorem exec_dramRequestAccept_full (hplace : placeOf addr = .dram) (htarget : dramTarget s addr = some (u, l)) (hst : (subch s u).st ≠ .fenced)
    (hfull : queueFull (if data.isSome then (subch s u).writes else (subch s u).reads) = true) :
    exec (.dramRequestAccept src req cls chan addr len data bad) s = .next (if chan = .urgent then
      updSub (counted s) u fun k => { k with stopped := k.stopped ++ [newReq s src req cls chan addr l len data bad] } else s) := by
  show execDramRequestAccept src req cls chan addr len data bad s = _
  unfold execDramRequestAccept
  rw [hplace, htarget]
  dsimp only
  rw [if_neg hst, if_pos hfull]
  cases data <;> rfl

theorem exec_dramRequestAccept_fenced (hplace : placeOf addr = .dram) (htarget : dramTarget s addr = some (u, l)) (hst : (subch s u).st = .fenced) :
    exec (.dramRequestAccept src req cls chan addr len none bad) s = .next (respondInTurn (counted s) u s.dram.seq
      { src := src, chan := chan, status := MS.fenced, data := List.replicate len 0, bad := [(0, len)] }) := by
  show execDramRequestAccept src req cls chan addr len none bad s = _
  unfold execDramRequestAccept
  rw [hplace, htarget]
  dsimp only
  rw [if_pos hst]
  rfl

theorem runs_dramRequestAccept_read (hu : u < s.dram.sub.length) (hplace : placeOf addr = .dram) (htarget : dramTarget s addr = some (u, l))
    (hst : (subch s u).st ≠ .fenced) (hroom : queueFull (subch s u).reads = false) :
    Runs (.dramRequestAccept src req cls chan addr len none bad) s fun t =>
      (∃ r, (subch t u).reads = (subch s u).reads ++ [r] ∧ r.src = src ∧ r.addr = addr ∧ r.loc = l ∧ r.len = len ∧ r.cls = servedClass chan cls)
        ∧ t.dram.resp = s.dram.resp ∧ Frame s { t with dram := s.dram } [] :=
  ⟨_, exec_dramRequestAccept_queued hplace htarget hst hroom,
    ⟨_, congrArg SubCh.reads (subch_updSub_self (s := counted s) hu), rfl, rfl, rfl, rfl, rfl⟩, rfl, (OnDram.refl s).dram.updSub.frame⟩

theorem runs_dramRequestAccept_write (hu : u < s.dram.sub.length) (hplace : placeOf addr = .dram) (htarget : dramTarget s addr = some (u, l))
    (hst : (subch s u).st ≠ .fenced) (hroom : queueFull (subch s u).writes = false) (hquiet : Quiet s u)
    (hbefore : readBefore s u src chan s.dram.seq = false) : Runs (.dramRequestAccept src req cls chan addr len (some bs) bad) s fun t =>
      (∃ r, (subch t u).writes = (subch s u).writes ++ [r] ∧ r.addr = addr ∧ r.data = some bs ∧ r.bad = bad)
        ∧ t.dram.resp = { src := src, chan := chan, status := MS.ok, data := [] } :: s.dram.resp ∧ Frame s { t with dram := s.dram } [] := by
  have hexec := exec_dramRequestAccept_queued (src := src) (req := req) (cls := cls) (chan := chan) (len := len) (data := some bs) (bad := bad)
    hplace htarget hst hroom
  have hquiet' : Quiet (counted s) u := hquiet
  exact ⟨_, hexec, ⟨_, writes_enterQueue_write hu rfl rfl, rfl, rfl, rfl⟩, resp_enterQueue_write hu rfl rfl hquiet' hbefore,
    (OnDram.refl s).dram.enterQueue.frame⟩

theorem runs_dramRequestAccept_stopped (hu : u < s.dram.sub.length) (hplace : placeOf addr = .dram) (htarget : dramTarget s addr = some (u, l))
    (hst : (subch s u).st ≠ .fenced) (hfull : queueFull (if data.isSome then (subch s u).writes else (subch s u).reads) = true)
    (hurgent : chan = .urgent) : Runs (.dramRequestAccept src req cls chan addr len data bad) s fun t =>
      (∃ r, (subch t u).stopped = (subch s u).stopped ++ [r] ∧ r.addr = addr ∧ r.data = data ∧ r.cls = 1) ∧ (subch t u).reads = (subch s u).reads
        ∧ (subch t u).writes = (subch s u).writes ∧ t.dram.resp = s.dram.resp ∧ Frame s { t with dram := s.dram } [] := by
  have hexec := (exec_dramRequestAccept_full (src := src) (req := req) (cls := cls) (chan := chan) (len := len) (bad := bad) hplace htarget hst hfull).trans
    (congrArg _ (if_pos hurgent))
  have hsub := subch_updSub_self (s := counted s) hu
    (f := fun k => { k with stopped := k.stopped ++ [newReq s src req cls chan addr l len data bad] })
  exact ⟨_, hexec, ⟨_, congrArg SubCh.stopped hsub, rfl, rfl, if_pos hurgent⟩, (congrArg SubCh.reads hsub :), (congrArg SubCh.writes hsub :), rfl,
    (OnDram.refl s).dram.updSub.frame⟩

theorem runs_dramRequestAccept_fenced (hu : u < s.dram.sub.length) (hplace : placeOf addr = .dram) (htarget : dramTarget s addr = some (u, l))
    (hst : (subch s u).st = .fenced) (hquiet : Quiet s u) (hbefore : readBefore s u src chan s.dram.seq = false) :
    Runs (.dramRequestAccept src req cls chan addr len none bad) s fun t =>
      t.dram.resp = { src := src, chan := chan, status := MS.fenced, data := List.replicate len 0, bad := [(0, len)] } :: s.dram.resp ∧ SameBytes s t :=
  ⟨_, exec_dramRequestAccept_fenced hplace htarget hst, resp_respondInTurn (s := counted s) hu hquiet hbefore,
    sameBytes_of_mem ((OnDram.refl (ps := []) s).dram.respondInTurn).mem⟩
end

end Sys2Proof.Subchannels
end

section
/-! The request queues of a subchannel: the request that is picked is served, and ageing (06 R185, R186, R189, R190). -/
namespace Sys2Proof.Subchannels
open Sys2Proof Sys2Proof.Machine Sys2Proof.Laws Sys2Proof.Claims Sys2Proof.Mesh Sys2Proof.RegisterPages

/-! What serving a request leaves. -/

/-- What of a subchannel the service of a request leaves, but for the queue that it is taken from. -/
def unserved (k : SubCh) : SubCh := lined (steady k)

section
variable {α : Type} {g : SubCh → α} {s t : State} {u : Nat} {r : DramReq}

theorem Commands.unserved {ps : List Nat} (h : Commands ps s t) : KeepsSub Subchannels.unserved s t := h.steady.comp lined

theorem openFor_open (h : (bankAt (subch s u) (bankOf r.loc)).row = some (rowOf r.loc)) : openFor s u r = s := if_pos h

theorem placeFreed_of_stopped (h : (subch s u).stopped = []) : placeFreed s u = s := by
  unfold placeFreed
  rw [h]
  rfl

theorem checkBurst_clean (hecc : s.eccErr = []) (hflips : s.dram.eccFlips = []) (scrub b : Nat) : checkBurst s scrub b = s := by
  have hf : eccFlips s b = 0 := by rw [eccFlips, hflips]; rfl
  have hword (k : Nat) : wordErr s b k = 0 := by
    rw [wordErr, hf, hecc]
    simp [SMap.getD, SMap.get, popc8, bitList, bits, bit]
  unfold checkBurst
  exact if_pos ⟨hf, by simp [hword]⟩

theorem badRanges_congr (hpoison : t.poison = s.poison) (hflips : t.dram.eccFlips = s.dram.eccFlips) (a n : Nat) : badRanges t a n = badRanges s a n := by
  have hpoisoned : poisoned t = poisoned s := by
    funext b
    unfold poisoned eccFlips
    rw [hpoison, hflips]
  simp only [badRanges, hpoisoned]

theorem memBytes_congr (h : t.mem = s.mem) (a n : Nat) : memBytes t a n = memBytes s a n := by
  unfold memBytes
  congr 1
  funext b
  rw [memByte, h]
  rfl

theorem checks_arrayRead (s : State) (u a n seq : Nat) : Checks s (arrayRead s u a n seq).1 := .foldl (fun w b => checks_checkBurst w 0 b) _ s

/-- Where no write is buffered and no bit has flipped, a read brings the bytes of memory. -/
theorem arrayRead_clean {a n : Nat} (hwrites : (subch s u).writes = []) (hecc : s.eccErr = []) (hflips : s.dram.eccFlips = [])
    (hbad : badRanges s a n = []) (seq : Nat) : (arrayRead s u a n seq).2 = { st := MS.ok, data := memBytes s a n, bad := [] } := by
  have hchecked (bs : List Nat) : bs.foldl (fun w b => checkBurst w 0 b) s = s :=
    List.foldlRecOn (motive := fun w => w = s) bs _ rfl fun w hw b _ => by rw [hw, checkBurst_clean hecc hflips]
  unfold arrayRead
  simp only [hwrites, List.filter_nil, List.foldl_nil, hchecked, hbad]
  rfl

theorem held_issueCommand (hu : u < s.dram.sub.length) (h : r.data.isSome = true) :
    (subch (issueCommand s u r) u).held = (subch s u).held ++ burstsOf r := by
  have hfire (w : State) (target : Nat) (p : Nat → Bool) : KeepsSub SubCh.held w (injFire w target p).1 :=
    (KeepsSub.refl w).of_dram (dram_of_onPage (onPage_injFire w target p))
  have hissued : KeepsSub SubCh.held s ((cmdsOf r).foldl (fun w c => logCmd w u c) (injFire (injFire s 5 fun a => a % 8 = u).1 6 fun a => a % 8 = u).1) :=
    .foldl (fun _ _ k => k.updSub fun _ => by rfl) _ ((hfire s 5 _).trans (hfire _ 6 _))
  unfold issueCommand
  simp only [h, if_true]
  rw [subch_updSub_self (by rwa [hissued.length])]
  dsimp only
  rw [hissued.subch]
end

/-! Reads (R185, R189). -/

section
variable {s : State} {u i : Nat} {r : DramReq}

/-- The state in which the read that is taken from place `i` of its queue has issued its commands. -/
def readIssued (s : State) (u i : Nat) (r : DramReq) : State := issueCommand (updSub s u fun k => { k with reads := k.reads.eraseIdx i }) u r

/-- The state in which the bursts of that read have been checked, and its answer. -/
def readPerformed (s : State) (u i : Nat) (r : DramReq) : State × Got := arrayRead (readIssued s u i r) u r.addr r.len r.seq

/-- The state in which that read has been answered. -/
def readResponded (s : State) (u i : Nat) (r : DramReq) : State :=
  dramRespond (readPerformed s u i r).1 r.src r.chan (readPerformed s u i r).2.st (readPerformed s u i r).2.data (readPerformed s u i r).2.bad

theorem exec_dramRead (hlive : (subch s u).live = true) (hdrain : (subch s u).draining = false) (hpick : pickReq s u (subch s u).reads = some (i, r))
    (hroom : hasRoom s u r = true) (hopen : (bankAt (subch s u) (bankOf r.loc)).row = some (rowOf r.loc)) :
    exec (.dramRead u) s = .next (readAnswered (readResponded s u i r) u) := by
  show execDramRead u s = _
  unfold execDramRead
  dsimp only
  rw [if_neg (by simp [hlive, hdrain]), hpick]
  dsimp only
  rw [if_neg (by simp [hroom]), openFor_open hopen]
  rfl

theorem commands_readIssued (s : State) (u i : Nat) (r : DramReq) :
    Commands [P.flt] (updSub s u fun k => { k with reads := k.reads.eraseIdx i }) (readIssued s u i r) := (Commands.refl _).issueCommand (by simp)

theorem unserved_readResponded (s : State) (u i : Nat) (r : DramReq) :
    KeepsSub unserved (updSub s u fun k => { k with reads := k.reads.eraseIdx i }) (readResponded s u i r) :=
  ((commands_readIssued s u i r).unserved.trans (keepsSub_of_checks (checks_arrayRead _ _ _ _ _))).dramRespond

theorem subch_readResponded (hu : u < s.dram.sub.length) :
    unserved (subch (readResponded s u i r) u) = unserved { subch s u with reads := (subch s u).reads.eraseIdx i } :=
  ((unserved_readResponded s u i r).subch u).trans (congrArg unserved (subch_updSub_self hu))

theorem mem_readResponded (s : State) (u i : Nat) (r : DramReq) : (readResponded s u i r).mem = s.mem :=
  (checks_arrayRead _ _ _ _ _).mem.trans (commands_readIssued s u i r).mem

theorem resp_readResponded (s : State) (u i : Nat) (r : DramReq) : (readResponded s u i r).dram.resp =
    { src := r.src, chan := r.chan, status := (readPerformed s u i r).2.st, data := (readPerformed s u i r).2.data, bad := (readPerformed s u i r).2.bad }
      :: s.dram.resp := by
  have hissued : (readIssued s u i r).dram.resp = s.dram.resp := (congrArg Dram.resp (commands_readIssued s u i r).dram :)
  have hchecked := congrArg (fun w : State => w.dram.resp) (checks_arrayRead (readIssued s u i r) u r.addr r.len r.seq).rest
  exact congrArg _ ((show _ = (readIssued s u i r).dram.resp from hchecked).trans hissued)

theorem quiet_readResponded (h : Quiet s u) : Quiet (readResponded s u i r) u := by
  have hacks : KeepsSub SubCh.acks s (readResponded s u i r) :=
    (KeepsSub.updSub (KeepsSub.refl s) fun _ => by rfl).trans (((commands_readIssued s u i r).steady.comp SubCh.acks).trans
      (keepsSub_of_checks (checks_arrayRead _ _ _ _ _))).dramRespond
  exact h.congr hacks

/-- Where nothing waits behind it at the controller or at the stop, a read that has been answered lets nothing follow. -/
theorem readAnswered_quiet {t : State} (hstopped : (subch t u).stopped = []) :
    readAnswered t u = releaseAcks t u := by
  have hlined : KeepsSub lined t (releaseAcks t u) := (KeepsSub.refl t).releaseAcks fun _ _ => rfl
  exact placeFreed_of_stopped ((congrArg SubCh.stopped (hlined.subch u) :).trans hstopped)

theorem runs_dramRead (hu : u < s.dram.sub.length) (hlive : (subch s u).live = true) (hdrain : (subch s u).draining = false)
    (hpick : pickReq s u (subch s u).reads = some (i, r)) (hroom : hasRoom s u r = true)
    (hopen : (bankAt (subch s u) (bankOf r.loc)).row = some (rowOf r.loc)) (hquiet : Quiet s u) (hstopped : (subch s u).stopped = []) :
    Runs (.dramRead u) s fun t => (subch t u).reads = (subch s u).reads.eraseIdx i ∧ SameBytes s t ∧ ∃ x, t.dram.resp = x :: s.dram.resp ∧ x.src = r.src
      ∧ x.chan = r.chan ∧ ((subch s u).writes = [] → s.eccErr = [] → s.dram.eccFlips = [] → badRanges s r.addr r.len = [] →
        x.data = memBytes s r.addr r.len ∧ x.status = MS.ok) := by
  have hsub := subch_readResponded (i := i) (r := r) hu
  have hanswered := readAnswered_quiet (t := readResponded s u i r) ((congrArg SubCh.stopped hsub :).trans hstopped)
  have hreleased : KeepsSub SubCh.reads (readResponded s u i r) (releaseAcks (readResponded s u i r) u) := (KeepsSub.refl _).releaseAcks fun _ _ => rfl
  have hserved : (subch (readResponded s u i r) u).reads = (subch s u).reads.eraseIdx i := (congrArg SubCh.reads hsub :)
  have hresp := (resp_releaseAcks_quiet (quiet_readResponded (i := i) (r := r) hquiet)).trans (resp_readResponded s u i r)
  have hexec := (exec_dramRead hlive hdrain hpick hroom hopen).trans (congrArg Host.Outcome.next hanswered)
  refine ⟨_, hexec, ?_, ?_, _, hresp, rfl, rfl, ?_⟩
  · exact (hreleased.subch u).trans hserved
  · exact sameBytes_of_mem (((OnDram.refl (ps := []) _).releaseAcks).mem.trans (mem_readResponded s u i r))
  · intro hwrites hecc hflips hbad
    have hissued := commands_readIssued s u i r
    have hw : (subch (readIssued s u i r) u).writes = [] :=
      (congrArg SubCh.writes (hissued.subch u) :).trans ((congrArg SubCh.writes (subch_updSub_self hu)).trans hwrites)
    have hrest := hissued.onDram.rest
    have hpoison : (readIssued s u i r).poison = s.poison := (congrArg State.poison hrest :)
    have hfield : (readIssued s u i r).dram.eccFlips = s.dram.eccFlips := (congrArg Dram.eccFlips hissued.dram :)
    have hgot := arrayRead_clean hw ((congrArg State.eccErr hrest :).trans hecc) (hfield.trans hflips)
      ((badRanges_congr hpoison hfield r.addr r.len).trans hbad) r.seq
    exact ⟨(congrArg Got.data hgot).trans (memBytes_congr (s := s) hissued.mem _ _), congrArg Got.st hgot⟩
end

/-! Writes (R186, R190). -/

section
variable {s : State} {u i : Nat} {r : DramReq} {bs : List Byte}

/-- The state in which the write that is taken from place `i` of the write buffer has issued its commands. -/
def writeIssued (s : State) (u i : Nat) (r : DramReq) : State := issueCommand (updSub s u fun k => { k with writes := k.writes.eraseIdx i }) u r

/-- The state in which its bytes are stored. -/
def writeStored (s : State) (u i : Nat) (r : DramReq) (bs : List Byte) : State := drainState (storeBytes (writeIssued s u i r) r.addr bs r.bad) u

theorem commands_writeIssued (s : State) (u i : Nat) (r : DramReq) :
    Commands [P.flt] (updSub s u fun k => { k with writes := k.writes.eraseIdx i }) (writeIssued s u i r) := (Commands.refl _).issueCommand (by simp)

theorem KeepsSub.storeBytes {α : Type} {g : SubCh → α} (s : State) (a : Nat) (bs : List Byte) (bad : List (Nat × Nat)) :
    KeepsSub g s (storeBytes s a bs bad) :=
  ((KeepsSub.refl s).of_dram (congrArg State.dram (setBytes_rest s a bs) :)).trans (keepsSub_of_checks (checks_storeBytes s a bs bad))

theorem lined_writeStored (s : State) (u i : Nat) (r : DramReq) (bs : List Byte) : KeepsSub lined (writeIssued s u i r) (writeStored s u i r bs) :=
  (KeepsSub.storeBytes _ _ _ _).drainState fun _ _ => rfl

theorem subch_writeStored (hu : u < s.dram.sub.length) :
    unserved (subch (writeStored s u i r bs) u) = unserved { subch s u with writes := (subch s u).writes.eraseIdx i } :=
  (((commands_writeIssued s u i r).unserved.trans ((lined_writeStored s u i r bs).comp steady)).subch u).trans
    (congrArg unserved (subch_updSub_self hu))

theorem mem_writeStored (s : State) (u i : Nat) (r : DramReq) (bs : List Byte) : (writeStored s u i r bs).mem = (setBytes s r.addr bs).mem :=
  ((OnDram.refl (ps := []) (storeBytes (writeIssued s u i r) r.addr bs r.bad)).drainState).mem.trans
    ((checks_storeBytes _ _ _ _).mem.trans (mem_setBytes_congr (s := s) (commands_writeIssued s u i r).mem r.addr bs))

theorem exec_dramWrite (hu : u < s.dram.sub.length) (hlive : (subch s u).live = true) (hdrain : (subch s u).draining = true ∨ (subch s u).reads = [])
    (hpick : pickReq s u (subch s u).writes = some (i, r)) (hroom : hasRoom s u r = true) (hdata : r.data = some bs)
    (hopen : (bankAt (subch s u) (bankOf r.loc)).row = some (rowOf r.loc)) (hstopped : (subch s u).stopped = []) :
    exec (.dramWrite u) s = .next (writeStored s u i r bs) := by
  have hissue : issueWrite s u i r = placeFreed (writeStored s u i r bs) u := by
    unfold issueWrite
    rw [openFor_open hopen, hdata]
    rfl
  have hturn : ((subch s u).draining || (subch s u).reads.isEmpty) = true := by simpa using hdrain
  show execDramWrite u s = _
  unfold execDramWrite
  dsimp only
  rw [if_neg (by simp [hlive, hturn]), hpick]
  dsimp only
  rw [if_neg (by simp [hroom]), hissue, placeFreed_of_stopped ((congrArg SubCh.stopped (subch_writeStored hu) :).trans hstopped)]

theorem runs_dramWrite (hu : u < s.dram.sub.length) (hlive : (subch s u).live = true) (hdrain : (subch s u).draining = true ∨ (subch s u).reads = [])
    (hpick : pickReq s u (subch s u).writes = some (i, r)) (hroom : hasRoom s u r = true) (hdata : r.data = some bs)
    (hopen : (bankAt (subch s u) (bankOf r.loc)).row = some (rowOf r.loc)) (hstopped : (subch s u).stopped = []) :
    Runs (.dramWrite u) s fun t => (subch t u).writes = (subch s u).writes.eraseIdx i ∧ (subch t u).held = (subch s u).held ++ burstsOf r
      ∧ (∀ j, j < bs.length → memByte t (r.addr + j) = nth bs j 0) ∧ (∀ a, (a < r.addr ∨ r.addr + bs.length ≤ a) → memByte t a = memByte s a) := by
  have hbyte (a : Nat) : memByte (writeStored s u i r bs) a = memByte (setBytes s r.addr bs) a :=
    congrArg (SMap.getD · a 0) (mem_writeStored s u i r bs)
  refine ⟨_, exec_dramWrite hu hlive hdrain hpick hroom hdata hopen hstopped, (congrArg SubCh.writes (subch_writeStored hu) :), ?_, fun j hj => ?_,
    fun a ha => (hbyte a).trans (memByte_setBytes_ne ha)⟩
  · have hlen : u < (updSub s u fun k => { k with writes := k.writes.eraseIdx i }).dram.sub.length := by simpa using hu
    refine (congrArg SubCh.held ((lined_writeStored s u i r bs).subch u) :).trans ((held_issueCommand hlen (by simp [hdata])).trans ?_)
    rw [subch_updSub_self hu]
  · rw [hbyte, memByte_setBytes hj]
    simp [nth, hj]
end

/-! Ageing (R189). -/

theorem runs_requestAge {s : State} {u : Nat} (hu : u < s.dram.sub.length) (i : Nat) : Runs (.requestAge u i false) s fun t =>
    (subch t u).reads = (subch s u).reads.modify i (fun r => { r with cls := if r.cls0 = 3 then min r.cls 2 else 1 })
      ∧ (subch t u).writes = (subch s u).writes ∧ Frame s { t with dram := s.dram } [] := by
  refine ⟨_, rfl, ?_, ?_, (OnDram.refl s).updSub.frame⟩ <;> rw [subch_updSub_self hu] <;> rfl

/-- Settles O39, clause by clause: a request that is accepted, kept at the stop or answered FENCED; a read, a write, and ageing. -/
theorem dramRequestQueues : Obligations.DramRequestQueues := by
  unfold Obligations.DramRequestQueues
  intro s u hu
  exact ⟨fun l src addr len req cls chan bs bad hplace htarget =>
      ⟨runs_dramRequestAccept_read hu hplace htarget, runs_dramRequestAccept_write hu hplace htarget,
        fun data hst hfull => ⟨fun hchan => (exec_dramRequestAccept_full hplace htarget hst hfull).trans (congrArg _ (if_neg hchan)),
          runs_dramRequestAccept_stopped hu hplace htarget hst hfull⟩,
        runs_dramRequestAccept_fenced hu hplace htarget⟩,
    fun i r => runs_dramRead hu, fun i r bs => runs_dramWrite hu, runs_requestAge hu⟩

end Sys2Proof.Subchannels
end

section
/-! What lasts through the requests of engines: the state of a subchannel, its waiting reads, and the events of every page (06 R209, R214, R215). -/
namespace Sys2Proof.Subchannels
open Sys2Proof Sys2Proof.Machine Sys2Proof.Laws Sys2Proof.Claims Sys2Proof.Mesh Sys2Proof.RegisterPages

/-- A subchannel's state and how many reads wait at it. -/
def lane (k : SubCh) : SubState × Nat := (k.st, k.reads.length + k.stopped.countP (·.data.isNone))

/-- From `s` to `t` every subchannel keeps its state and the number of its waiting reads, the same regions are refilled, and no event is cleared. -/
structure Lasts (s t : State) : Prop where
  lanes : KeepsSub lane s t
  filling : t.dram.filling = s.dram.filling
  events : ∀ pg b, b < 32 → rb s (hdr pg 0x20) b = true → rb t (hdr pg 0x20) b = true

section
variable {s t w : State} {u : Nat}

theorem Lasts.refl (s : State) : Lasts s s := ⟨rfl, rfl, fun _ _ _ h => h⟩

theorem Lasts.trans (h : Lasts s t) (k : Lasts t w) : Lasts s w :=
  ⟨h.lanes.trans k.lanes, k.filling.trans h.filling, fun pg b hb hs => k.events pg b hb (h.events pg b hb hs)⟩

theorem Lasts.ite {c : Prop} [Decidable c] (ht : Lasts s t) (hw : Lasts s w) : Lasts s (if c then t else w) := by
  split <;> assumption

theorem Lasts.iteFst {α : Type} {c : Prop} [Decidable c] {p q : State × α} (hp : Lasts s p.1) (hq : Lasts s q.1) :
    Lasts s (if c then p else q).1 := by
  split <;> assumption

theorem Lasts.foldl {α : Type} {f : State → α → State} (hf : ∀ t x, Lasts s t → Lasts s (f t x)) (l : List α) (h : Lasts s t) :
    Lasts s (l.foldl f t) := by
  induction l generalizing t with
  | nil => exact h
  | cons x l ih => exact ih (hf t x h)

/-- A change of neither the registers nor a subchannel. -/
theorem Lasts.same (h : Lasts s t) (hw : (w.regs, w.dram.sub, w.dram.filling) = (t.regs, t.dram.sub, t.dram.filling)) : Lasts s w := by
  obtain ⟨hregs, hdram⟩ := Prod.mk.inj hw
  obtain ⟨hsub, hfilling⟩ := Prod.mk.inj hdram
  refine h.trans ⟨congrArg (List.map lane) hsub, hfilling, fun pg b _ hs => ?_⟩
  rwa [rb, rd, hregs]

theorem Lasts.subch (h : Lasts s t) (u : Nat) : lane (subch t u) = lane (subch s u) := h.lanes.subch u

theorem Lasts.raised (h : Lasts s t) {pg b : Nat} (hb : b < 32) (hs : Raised s pg b) : Raised t pg b := h.events pg b hb hs

theorem Lasts.updSub (h : Lasts s t) {f : SubCh → SubCh} (hf : ∀ k, lane (f k) = lane k) : Lasts s (updSub t u f) :=
  h.trans ⟨(KeepsSub.refl t).updSub hf, rfl, fun _ _ _ hs => hs⟩

/-- A change of one subchannel that keeps the state and the waiting reads it has now. -/
theorem Lasts.updSubAt (h : Lasts s t) {f : SubCh → SubCh} (hf : lane (f (Machine.subch t u)) = lane (Machine.subch t u)) :
    Lasts s (Machine.updSub t u f) := by
  refine h.trans ⟨?_, rfl, fun _ _ _ hs => hs⟩
  refine List.ext_getElem? fun i => ?_
  simp only [Machine.updSub, updAt, List.getElem?_map, List.getElem?_modify]
  unfold Machine.subch nth at hf
  split
  · next hi =>
    subst hi
    cases hk : t.dram.sub[u]? with
    | none => rfl
    | some k => simpa [hk] using hf
  · simp
end

/-! Registers, events and faults. -/

section
variable {s t : State}

theorem Lasts.setReg (h : Lasts s t) {off : Nat} {v : W32} (ho : off % 0x1000 ≠ 0x20) : Lasts s (setReg t off v) := by
  refine h.trans ⟨rfl, rfl, fun pg b _ hs => ?_⟩
  have hne : hdr pg 0x20 ≠ off := fun e => ho (by rw [← e, hdr]; omega)
  unfold rb
  rwa [rd_setReg_ne hne]

theorem Lasts.wf (h : Lasts s t) {off hi lo x : Nat} (ho : off % 0x1000 ≠ 0x20) : Lasts s (wf t off hi lo x) := h.setReg ho

theorem Lasts.wb (h : Lasts s t) {off i : Nat} {b : Bool} (ho : off % 0x1000 ≠ 0x20) : Lasts s (wb t off i b) := h.setReg ho

theorem Lasts.bump (h : Lasts s t) {off hi lo n : Nat} (ho : off % 0x1000 ≠ 0x20) : Lasts s (bump t off hi lo n) := h.setReg ho

theorem Lasts.peak (h : Lasts s t) {off hi lo x : Nat} (ho : off % 0x1000 ≠ 0x20) : Lasts s (peak t off hi lo x) := h.setReg ho

/-- The registers of a subchannel on its controller's page are not EVT_STATUS. -/
theorem subReg_ne {q u o : Nat} (ho : 0x10100 ≤ o ∧ o < 0x10F00) : (o + 0x1000 * q + 32 * (u % 2)) % 0x1000 ≠ 0x20 := by omega

theorem Lasts.raiseWith (h : Lasts s t) {pg b : Nat} {isForced : Bool} {params : Option (List Nat)} : Lasts s (raiseWith t pg b isForced params) := by
  have hpage : OnPage pg t (Machine.raiseWith t pg b isForced params) := onPage_raiseWith b isForced params
  refine h.trans ⟨(KeepsSub.refl t).of_dram (dram_of_onPage hpage), congrArg Dram.filling (dram_of_onPage hpage), fun q i hi hs => ?_⟩
  by_cases hq : q = pg
  · subst hq
    rw [rb_raiseWith hi, hs, Bool.true_or]
  · have hother : hdr q 0x20 / 0x1000 ≠ pg := by rwa [hdr_page (by decide)]
    rwa [rb, hpage.regs _ hother]

theorem Lasts.raise (h : Lasts s t) {pg b : Nat} : Lasts s (raise t pg b) := h.raiseWith

theorem Lasts.raiseP (h : Lasts s t) {pg b : Nat} {params : List Nat} : Lasts s (raiseP t pg b params) := h.raiseWith

theorem Lasts.toRecorder (h : Lasts s t) {x : Occurrence} : Lasts s (toRecorder t x) := h.same (by rfl)

theorem Lasts.tellFlt (h : Lasts s t) {m : FltMsg} : Lasts s (tellFlt t m) := h.same (by rfl)

theorem Lasts.fault (h : Lasts s t) {pg cause : Nat} {req : Req} {info : Nat} {a : Option Nat} : Lasts s (fault t pg cause req info a) := by
  have hheader (o : Nat) (ho : 0x20 < o ∧ o < 0x1000) {w : State} {v : W32} (hw : Lasts s w) : Lasts s (Machine.setReg w (hdr pg o) v) :=
    hw.setReg (by rw [hdr]; omega)
  have hcaptured {x y z v : W32} : Lasts s (if rb t (hdr pg 0x20) 0 then Machine.bump t (hdr pg 0x30) 23 16 1
      else Machine.raise (Machine.setReg (Machine.setReg (Machine.setReg (Machine.setReg t (hdr pg 0x30) x) (hdr pg 0x34) y) (hdr pg 0x38) z)
        (hdr pg 0x3C) v) pg 0) :=
    .ite (hheader 0x30 (by decide) h)
      (.raise (hheader 0x3C (by decide) (hheader 0x38 (by decide) (hheader 0x34 (by decide) (hheader 0x30 (by decide) h)))))
  unfold Machine.fault
  exact .ite hcaptured.tellFlt.toRecorder hcaptured.tellFlt

theorem Lasts.hwFault (h : Lasts s t) {pg cause info : Nat} : Lasts s (hwFault t pg cause info) := h.fault

theorem Lasts.raiseRecord (h : Lasts s t) {pg b : Nat} {params : List Nat} : Lasts s (raiseRecord t pg b params) :=
  .ite (.ite h.toRecorder h) h.raiseP

theorem Lasts.sendHost (h : Lasts s t) {m : HostMsg} : Lasts s (sendHost t m) := h.same (by rfl)

theorem Lasts.updFunc (h : Lasts s t) {fn : Nat} {f : Func → Func} : Lasts s (updFunc t fn f) := h.same (by rfl)

theorem Lasts.sendMsix (h : Lasts s t) {fn vec : Nat} : Lasts s (sendMsix t fn vec) :=
  .ite h (.ite h.updFunc (.ite h.sendHost (h.same (by rfl))))

theorem Lasts.injFire (h : Lasts s t) {target : Nat} {p : Nat → Bool} : Lasts s (injFire t target p).1 := by
  unfold Machine.injFire
  exact .iteFst (Lasts.raiseRecord (h.wf (by decide))) h

theorem Lasts.countFlits (h : Lasts s t) {c : Chan} {n : Nat} : Lasts s (countFlits t c n) := by
  cases c <;> exact h.bump (by decide)

theorem Lasts.wake (h : Lasts s t) {n : Nat} : Lasts s (wake t n) := .ite (h.same (by rfl)) h

theorem Lasts.wakeAt (h : Lasts s t) {a : Nat} : Lasts s (wakeAt t a) := by
  unfold Machine.wakeAt
  split
  · exact h.wake
  · exact h

theorem Lasts.updIo (h : Lasts s t) {f : Io → Io} : Lasts s (updIo t f) := h.same (by rfl)

theorem Lasts.block (h : Lasts s t) : Lasts s (block t) := h.updIo
end

/-! Bytes, their poison and their checks. -/

theorem bank_lt {a b : Nat} (h : placeOf a = .bank b) : b < 16 := by
  unfold placeOf at h
  split at h
  · cases h
  · split at h
    · cases h
      omega
    · repeat' split at h
      all_goals cases h

section
variable {s t : State} {u : Nat}

theorem Lasts.markGranule (h : Lasts s t) {g : Nat} : Lasts s (markGranule t g) := h.same (by rfl)

theorem Lasts.clearGranule (h : Lasts s t) {g : Nat} : Lasts s (clearGranule t g) := h.same (by rfl)

theorem Lasts.countCe (h : Lasts s t) {a : Nat} : Lasts s (countCe t a) := by
  unfold Machine.countCe
  split
  · next b hb =>
    have hcount := h.bump (off := R.MTR_ECC_COUNT b) (hi := 15) (lo := 0) (n := 1) (by have := bank_lt hb; rw [R.MTR_ECC_COUNT]; omega)
    exact .ite hcount.raise hcount
  · next n hn => exact h.bump (by rw [R.ASH_ECC]; omega)
  · exact h

theorem Lasts.foundUe (h : Lasts s t) {a scrub : Nat} : Lasts s (foundUe t a scrub) := by
  unfold Machine.foundUe
  split
  · next b hb => exact (h.markGranule.bump (by have := bank_lt hb; rw [R.MTR_ECC_COUNT]; omega)).fault.raise
  · exact (h.markGranule.bump (by rw [R.ASH_ECC]; omega)).fault.raise
  · exact h.markGranule

theorem Lasts.checkWord (h : Lasts s t) {scrub x : Nat} : Lasts s (checkWord t scrub x) := by
  unfold Machine.checkWord
  split
  · exact h
  · next e _ => exact .ite (Lasts.same h (w := { t with eccErr := t.eccErr.del x }) (by rfl)).countCe (Lasts.same h (w := { t with eccErr := t.eccErr.del x }) (by rfl)).foundUe

theorem Lasts.checkBurst (h : Lasts s t) {scrub g : Nat} : Lasts s (checkBurst t scrub g) := by
  unfold Machine.checkBurst
  refine .ite h ?_
  have hclean : Lasts s { freshEcc t g with eccErr := t.eccErr.filter fun e => decide (e.1 / 8 ≠ g) } := h.same (by rfl)
  have hmark := Lasts.ite (c := poisoned t g = true) (hclean.markGranule (g := g)) (hclean.clearGranule (g := g))
  dsimp only
  split
  · exact hmark
  · next v _ _ =>
    have hne := subReg_ne (q := v / 2) (u := v) (o := 0x10144) (by decide)
    exact .ite (.raise (.ite ((hmark.bump hne).markGranule.bump hne).fault ((hmark.bump hne).markGranule.bump hne).fault)) (hmark.bump hne)

theorem Lasts.checkRange (h : Lasts s t) {scrub a n : Nat} : Lasts s (checkRange t scrub a n) := by
  unfold Machine.checkRange
  refine .ite h ?_
  split
  · exact .ite h (.foldl (fun _ _ k => k.checkBurst) _ h)
  · exact .foldl (fun _ _ k => k.checkWord) _ h

theorem Lasts.checkParts (h : Lasts s t) {a n : Nat} : Lasts s (checkParts t a n) := by
  unfold Machine.checkParts
  split
  · exact .foldl (fun _ _ k => k.checkBurst) _ h
  · exact .foldl (fun _ _ k => k.checkWord) _ h

theorem Lasts.injectSram (h : Lasts s t) {a : Nat} : Lasts s (injectSram t a) := by
  unfold Machine.injectSram
  exact .ite (h.injFire.same (by rfl)) (.ite (h.injFire.same (by rfl)) h)

theorem Lasts.setBytes (h : Lasts s t) {a : Nat} {bs : List Byte} : Lasts s (setBytes t a bs) := by
  rw [setBytes_rest]
  exact h.same (by rfl)

theorem Lasts.storeBytes (h : Lasts s t) {a : Nat} {bs : List Byte} {bad : List (Nat × Nat)} : Lasts s (storeBytes t a bs bad) := by
  unfold Machine.storeBytes
  refine .ite h ?_
  exact .foldl (fun _ _ k => k.markGranule) _
    (.foldl (fun _ _ k => (k.same (by rfl))) _ (.injectSram (.setBytes (h.checkParts.same (by rfl)))))

/-! The queues of a subchannel and its commands. -/

theorem Lasts.releaseAcks (h : Lasts s t) : Lasts s (releaseAcks t u) :=
  .foldl (fun _ _ k => (k.same (by rfl))) _ (.foldl (fun _ _ k => k.updSub fun _ => by rfl) _ h)

theorem Lasts.respondInTurn (h : Lasts s t) {seq : Nat} {r : DramResp} : Lasts s (respondInTurn t u seq r) := (h.updSub fun _ => by rfl).releaseAcks

theorem Lasts.drainState (h : Lasts s t) : Lasts s (drainState t u) := .ite (h.updSub fun _ => by rfl) (.ite (h.updSub fun _ => by rfl) h)

theorem Lasts.logCmd (h : Lasts s t) {c : DramCmd} : Lasts s (logCmd t u c) := h.updSub fun _ => by rfl

theorem Lasts.makeRoom (h : Lasts s t) {n x : Nat} : Lasts s (makeRoom t u n x) := h.updSub fun _ => by rfl

theorem Lasts.issueCommand (h : Lasts s t) {r : DramReq} : Lasts s (issueCommand t u r) := by
  have hinjected : Lasts s (if r.data.isSome then (Machine.injFire (Machine.injFire t 5 fun a => a % 8 = u).1 6 fun a => a % 8 = u).1
      else (Machine.injFire t 5 fun a => a % 8 = u).1) := .ite h.injFire.injFire h.injFire
  exact (Lasts.foldl (fun _ _ k => k.logCmd) (cmdsOf r) hinjected).updSub fun _ => by rfl

theorem Lasts.chargeMitig (h : Lasts s t) {src : Nat} : Lasts s (chargeMitig t u src) := by
  have hne := subReg_ne (q := u / 2) (u := u) (o := 0x10154) (by decide)
  have hcharged : Lasts s (Machine.updSub t u fun k => { k with charged := SMap.set k.charged src (SMap.getD (Machine.subch t u).charged src 0 + 1) }) :=
    h.updSub fun _ => by rfl
  unfold Machine.chargeMitig
  exact .ite h (.ite (((hcharged.updSub (f := fun k => { k with throttled := NSet.add k.throttled src }) fun _ => by rfl).bump hne).wf hne).raise hcharged)

theorem Lasts.activate (h : Lasts s t) {b row src : Nat} : Lasts s (activate t u b row src) := by
  have hrow (d : SubCh → SMap Nat) (g : DramBank → DramBank) :
      Lasts s (Machine.updSub (Machine.logCmd t u (.activate b row src)) u fun k => updBank { k with lastAct := d k } b g) :=
    h.logCmd.updSub fun _ => by rfl
  unfold Machine.activate
  exact .ite (hrow _ _) (.ite (.chargeMitig ((hrow _ _).updSub fun _ => by rfl)) ((hrow _ _).updSub fun _ => by rfl))

theorem Lasts.openFor (h : Lasts s t) {r : DramReq} : Lasts s (openFor t u r) := .ite h h.activate

theorem Lasts.mitigate (h : Lasts s t) {b : Nat} : Lasts s (mitigate t u b) := by
  unfold Machine.mitigate
  split
  · exact (h.logCmd.updSub fun _ => by rfl).bump (subReg_ne (o := 0x1014C) (by decide))
  · exact .ite (h.logCmd.updSub fun _ => by rfl) h

theorem Lasts.mitigateAll (h : Lasts s t) {b : Nat} : Lasts s (mitigateAll t u b) := .foldl (fun _ _ k => k.mitigate) _ h

theorem Lasts.acceptWrite (h : Lasts s t) {r : DramReq} : Lasts s (acceptWrite t u r) := .drainState (.ite (h.updSub fun _ => by rfl).respondInTurn (h.updSub fun _ => by rfl))

theorem updSub_updSub (s : State) (u : Nat) (f g : SubCh → SubCh) : updSub (updSub s u f) u g = updSub s u fun k => g (f k) := by
  simp [updSub, updAt, List.modify_modify_eq, Function.comp_def]

/-- A request that leaves the stop for its queue stays among the waiting ones. -/
theorem lane_admitted {k : SubCh} {r : DramReq} (hr : r ∈ k.stopped) (hdata : r.data = none) :
    lane { k with stopped := k.stopped.erase r, reads := k.reads ++ [r] } = lane k := by
  have hpos : 0 < k.stopped.countP (·.data.isNone) := List.countP_pos_iff.2 ⟨r, hr, by simp [hdata]⟩
  have hcount := List.countP_erase (fun r : DramReq => r.data.isNone) k.stopped r
  simp only [hr, hdata, Option.isNone_none, and_self, if_true] at hcount
  simp only [lane, hcount, List.length_append, List.length_singleton, Prod.mk.injEq, true_and]
  omega

theorem lane_erase {k : SubCh} {r : DramReq} (hdata : r.data.isSome = true) : lane { k with stopped := k.stopped.erase r } = lane k := by
  have hnone : r.data.isNone = false := by rw [← Option.not_isSome, hdata]; rfl
  simp [lane, List.countP_erase, hnone]

theorem Lasts.enterFromStop (h : Lasts s t) {r : DramReq} (hr : r ∈ (Machine.subch t u).stopped) :
    Lasts s (enterQueue (Machine.updSub t u fun k => { k with stopped := k.stopped.erase r }) u r) := by
  unfold enterQueue
  split
  · next hdata => exact (h.updSubAt (lane_erase hdata)).acceptWrite
  · next hdata =>
    rw [updSub_updSub]
    exact h.updSubAt (lane_admitted hr (by simpa using hdata))

theorem Lasts.admitStopped (h : Lasts s t) (n : Nat) : Lasts s (admitStopped u n t) := by
  induction n generalizing t with
  | zero => exact h
  | succ n ih =>
    unfold Machine.admitStopped
    split
    · exact h
    · next hr => exact ih (h.enterFromStop (List.mem_of_find?_eq_some hr))

theorem Lasts.placeFreed (h : Lasts s t) : Lasts s (placeFreed t u) := h.admitStopped _

theorem Lasts.issueWrite (h : Lasts s t) {i : Nat} {r : DramReq} : Lasts s (issueWrite t u i r) := by
  unfold Machine.issueWrite
  exact (Lasts.storeBytes (Lasts.issueCommand (h.openFor.updSub fun _ => by rfl))).drainState.placeFreed

theorem Lasts.drainOne (h : Lasts s t) {w : State} (hw : drainOne t u = some w) : Lasts s w := by
  unfold Machine.drainOne at hw
  split at hw
  · cases hw
  · split at hw
    · cases hw
    · cases hw
      exact Lasts.issueWrite h.makeRoom.updIo

theorem Lasts.engineWrite (h : Lasts s t) {w : State} {r : DramReq} (hdata : r.data.isSome = true) (hw : engineWrite t u r = some w) : Lasts s w := by
  have henter {x : State} (k : Lasts s x) : Lasts s (enterQueue { x with dram := { x.dram with seq := x.dram.seq + 1 } } u { r with seq := x.dram.seq }) := by
    rw [enterQueue, if_pos (show ({ r with seq := x.dram.seq } : DramReq).data.isSome = true from hdata)]
    exact .acceptWrite (k.same (by rfl))
  unfold Machine.engineWrite at hw
  dsimp only at hw
  split at hw
  · cases hw
  · split at hw
    · obtain ⟨d, hd, he⟩ := Option.bind_eq_some_iff.mp hw
      split at he
      · cases he
      · cases he
        exact henter (h.drainOne hd)
    · cases hw
      exact henter h

theorem Lasts.engineCommand (h : Lasts s t) {w : State} {r : DramReq} (hw : engineCommand t u r = some w) : Lasts s w := by
  unfold Machine.engineCommand at hw
  dsimp only at hw
  split at hw
  · cases hw
  · cases hw
    exact (Lasts.issueCommand (.ite h.makeRoom h.makeRoom.mitigateAll.openFor)).updIo

theorem Lasts.arrayRead (h : Lasts s t) {a n seq : Nat} : Lasts s (arrayRead t u a n seq).1 := .foldl (fun _ _ k => k.checkBurst) _ h
end

end Sys2Proof.Subchannels
end

section
/-! What lasts through the requests of engines: Quarry's handles, queue contexts, writes and reads of every place, the jobs of the dispatcher (06 R209, R214, R217). -/
namespace Sys2Proof.Subchannels
open Sys2Proof Sys2Proof.Machine Sys2Proof.Laws Sys2Proof.Claims Sys2Proof.Mesh Sys2Proof.RegisterPages

/-! The way over a stop, and Quarry's handles. -/

section
variable {s t : State}

theorem Lasts.dropAbandon (h : Lasts s t) {x : Nat × Nat × Bool} : Lasts s (dropAbandon t x) := h.same (by rfl)

theorem Lasts.carryCall {α : Type} (h : Lasts s t) {v : Via} {isl out back : Nat} {lost : Nat → α} {f : State → State × α}
    (hf : ∀ w, Lasts s w → Lasts s (f w).1) : Lasts s (carryCall t v isl out back lost f).1 := by
  unfold Machine.carryCall
  split
  · exact .ite (hf _ h.dropAbandon) h.dropAbandon
  · exact .iteFst h.wake.countFlits (hf _ h.wake.countFlits)

theorem Lasts.stopRefuses (h : Lasts s t) {v : Via} {cause a n : Nat} : Lasts s (stopRefuses t v cause a n) := h.fault

theorem Lasts.carryWrite (h : Lasts s t) {v : Via} {a n : Nat} {f : State → State × Nat} (hf : ∀ w, Lasts s w → Lasts s (f w).1) :
    Lasts s (carryWrite t v a n f).1 := by
  unfold Machine.carryWrite
  split
  · exact h.stopRefuses
  · exact .ite (hf _ h.dropAbandon) h.dropAbandon
  · exact (hf _ h.countFlits).countFlits

theorem Lasts.carryRead (h : Lasts s t) {v : Via} {a n : Nat} {f : State → State × Got} (hf : ∀ w, Lasts s w → Lasts s (f w).1) :
    Lasts s (carryRead t v a n f).1 := by
  unfold Machine.carryRead
  split
  · exact h.stopRefuses
  · exact .ite (hf _ h.dropAbandon) h.dropAbandon
  · exact (hf _ h.countFlits).countFlits

theorem Lasts.badFree (h : Lasts s t) {req : Req} {cause x : Nat} : Lasts s (badFree t req cause x) := h.fault.raise

theorem Lasts.updQry (h : Lasts s t) {f : Quarry → Quarry} : Lasts s (updQry t f) := h.same (by rfl)

theorem Lasts.fencePool (h : Lasts s t) {p ix : Nat} : Lasts s (fencePool t p ix) := h.updQry.hwFault.raise

theorem Lasts.putBuf (h : Lasts s t) {p n : Nat} {b : Buffer} : Lasts s (putBuf t p n b) := h.same (by rfl)

theorem Lasts.putUsed (h : Lasts s t) {i p n : Nat} : Lasts s (putUsed t i p n) := h.same (by rfl)

theorem Lasts.fresh (h : Lasts s t) {x : Nat} : Lasts s (fresh t x).1 := h.same (by rfl)

theorem Lasts.reclaimBuf (h : Lasts s t) {i p n : Nat} : Lasts s (reclaimBuf i t p n) := .ite h (.ite h.putBuf.putUsed h.putBuf)

theorem Lasts.reclaimPool (h : Lasts s t) {i p a z : Nat} : Lasts s (reclaimPool i t p a z) := by
  unfold Machine.reclaimPool
  dsimp only
  split
  · exact .fencePool (.foldl (fun _ _ k => k.reclaimBuf) _ h)
  · exact .foldl (fun _ _ k => k.reclaimBuf) _ h

theorem Lasts.scanOn (h : Lasts s t) {i k : Nat} (ps : List Nat) : Lasts s (scanOn i ps t k) := by
  induction ps generalizing t k with
  | nil => exact h
  | cons p ps ih =>
    unfold Machine.scanOn
    exact .ite (.ite h.reclaimPool.updQry h.reclaimPool) (ih h.reclaimPool.updQry)

theorem Lasts.scanSome (h : Lasts s t) : Lasts s (scanSome t) := by
  unfold Machine.scanSome
  split
  · exact h
  · exact h.fresh.scanOn _

theorem Lasts.freeHandle (h : Lasts s t) {req : Req} {i x : Nat} : Lasts s (freeHandle t req i x).1 := by
  have k := h.scanSome
  unfold Machine.freeHandle
  dsimp only
  refine .iteFst k.badFree (.iteFst k (.iteFst k.badFree (.iteFst k ?_)))
  split
  · exact k.fencePool
  · exact .iteFst k.badFree (.iteFst k.badFree (.iteFst k.badFree (k.putBuf.putUsed.bump (by decide))))

theorem Lasts.freeFrom (h : Lasts s t) {v : Via} {i x : Nat} : Lasts s (freeFrom t v i x) := h.carryCall fun _ k => k.freeHandle

theorem Lasts.freeBatch (h : Lasts s t) {ident : Nat} {rec_ : List Byte} : Lasts s (freeBatch t ident rec_) := .ite h h.freeFrom
end

/-! Queue contexts. -/

section
variable {s t : State}

theorem Lasts.putCtx (h : Lasts s t) {q c : Nat} : Lasts s (putCtx t q c) := by
  have hbytes (e : SMap Nat) : Lasts s (if ctxBankUp t then Machine.setBytes { t with eccErr := e } (ctxAddr q) (leBytes 32 c) else t) :=
    .ite (Lasts.setBytes (h.same (by rfl))) h
  exact (hbytes _).same (by rfl)

theorem Lasts.queueEvent (h : Lasts s t) {q b : Nat} : Lasts s (queueEvent t q b) := by
  have hrecord {w : State} {x : Occurrence} {c : Prop} [Decidable c] (k : Lasts s w) : Lasts s (if c then Machine.toRecorder w x else w) :=
    .ite k.toRecorder k
  unfold Machine.queueEvent
  refine .ite h (hrecord (.ite h.putCtx ?_))
  split
  · exact h.putCtx.sendMsix
  · exact h.putCtx.sendMsix
  · exact h.putCtx

theorem Lasts.queueEvents (h : Lasts s t) {q d0 d1 : Nat} {refused : Bool} : Lasts s (queueEvents t q d0 d1 refused) :=
  .foldl (fun _ _ k => k.queueEvent) _ h

theorem Lasts.detach (h : Lasts s t) {q cause : Nat} : Lasts s (detach t q cause) := Lasts.raise (Lasts.setReg (Lasts.same h.putCtx (by rfl)) (by decide))

theorem Lasts.ringFailed (h : Lasts s t) {q st : Nat} : Lasts s (ringFailed t q st) := h.detach.hwFault
end

/-! Writes: to the host, to DRAM and to SRAM. -/

section
variable {s t : State} {u : Nat}

theorem Lasts.hwinRefuse (h : Lasts s t) {cause : Nat} {req : Req} {x a : Nat} : Lasts s (hwinRefuse t cause req x a) :=
  .ite (h.bump (by decide)) (h.bump (by decide)).fault

theorem Lasts.hostWrite (h : Lasts s t) {req : Req} {x a : Nat} {bs : List Byte} {bad : List (Nat × Nat)} {relaxed : Bool} :
    Lasts s (hostWrite t req x a bs bad relaxed).1 := by
  have hsent (ms : List HostMsg) : Lasts s (ms.foldl Machine.sendHost t) := .foldl (fun _ _ k => k.sendHost) ms h
  unfold Machine.hostWrite
  refine .iteFst h ?_
  split
  · exact h.hwinRefuse
  · exact .iteFst h.block (.ite (hsent _) (hsent _).fault)

theorem Lasts.windowWrite (h : Lasts s t) {v : Via} {a : Nat} {bs : List Byte} {bad : List (Nat × Nat)} : Lasts s (windowWrite t v a bs bad).1 := h.same (by rfl)

theorem Lasts.fencedWrite (h : Lasts s t) {v : Via} {a n : Nat} : Lasts s (fencedWrite t v u a n) := .ite h.fault h

theorem Lasts.localWrite (h : Lasts s t) {a : Nat} {bs : List Byte} {bad : List (Nat × Nat)} : Lasts s (localWrite t a bs bad).1 := by
  unfold Machine.localWrite
  split
  · exact h.wakeAt.storeBytes
  · exact h

theorem Lasts.writeMem (h : Lasts s t) {v : Via} {a : Nat} {bs : List Byte} {bad : List (Nat × Nat)} : Lasts s (writeMem t v a bs bad).1 := by
  unfold Machine.writeMem
  split
  · split
    · exact h.block
    · next hw => exact h.wakeAt.engineWrite rfl hw
  · exact h.fencedWrite
  · exact h.localWrite

theorem Lasts.placeWrite (h : Lasts s t) {v : Via} {a : Nat} {bs : List Byte} {bad : List (Nat × Nat)} {relaxed : Bool} :
    Lasts s (placeWrite t v a bs bad relaxed).1 := by
  unfold Machine.placeWrite
  split
  · exact h.hostWrite
  · exact h.windowWrite
  · exact h.windowWrite
  · exact h.writeMem

theorem Lasts.devWrite (h : Lasts s t) {v : Via} {a : Nat} {bs : List Byte} {bad : List (Nat × Nat)} {relaxed : Bool} :
    Lasts s (devWrite t v a bs bad relaxed).1 := h.carryWrite fun _ k => k.placeWrite

theorem Lasts.patientEnter (h : Lasts s t) {w : State} {r : DramReq} (hdata : r.data.isSome = true) (hw : patientEnter t u r = some w) : Lasts s w := by
  unfold Machine.patientEnter at hw
  split at hw
  · exact h.engineWrite hdata hw
  · cases hw

/-- A write that waits at the stop is not among the waiting reads. -/
theorem lane_stopped {r : DramReq} (hdata : r.data.isNone = false) (k : SubCh) : lane { k with stopped := k.stopped ++ [r] } = lane k := by
  simp [lane, List.countP_append, hdata]

theorem Lasts.writeMemPatient (h : Lasts s t) {v : Via} {a : Nat} {bs : List Byte} {bad : List (Nat × Nat)} : Lasts s (writeMemPatient t v a bs bad).1 := by
  unfold Machine.writeMemPatient
  split
  · dsimp only
    split
    · exact Lasts.updSub (h.same (by rfl)) (lane_stopped rfl)
    · next hw => exact h.wakeAt.patientEnter rfl hw
  · exact h.writeMem

theorem Lasts.patientWrite (h : Lasts s t) {v : Via} {a : Nat} {bs : List Byte} {bad : List (Nat × Nat)} : Lasts s (patientWrite t v a bs bad).1 := by
  unfold Machine.patientWrite
  split
  · exact h
  · exact h.carryWrite fun _ k => k.writeMemPatient
  · exact h.devWrite

theorem Lasts.ringWrite (h : Lasts s t) {q a : Nat} {e : List Byte} {bad : Bool} : Lasts s (ringWrite t q a e bad).1 := by
  unfold Machine.ringWrite
  dsimp only
  split
  · exact .iteFst (h.same (by rfl)) h.devWrite
  · exact h.patientWrite

theorem Lasts.ringWrites (h : Lasts s t) {q : Nat} (es : List (Nat × List Byte × Bool)) : Lasts s (ringWrites es t q) := by
  induction es generalizing t with
  | nil => exact h
  | cons e es ih => exact .ite h.ringWrite.ringFailed (ih h.ringWrite)
end

/-! Reads: from the host, from DRAM and from SRAM. -/

section
variable {s t : State}

theorem Lasts.logAer (h : Lasts s t) {fn bitNo : Nat} {header : List Nat} : Lasts s (logAer t fn bitNo header) :=
  .raise (.ite (Lasts.updFunc h.updFunc) h.updFunc)

theorem Lasts.poisonIn (h : Lasts s t) {req : Req} {fn : Nat} {a : Option Nat} {hdr : List Nat} : Lasts s (poisonIn t req fn a hdr) := h.fault.logAer

theorem Lasts.hostAnswer (h : Lasts s t) {fn a tag n : Nat} {hold : State → State} (hhold : ∀ w, Lasts s w → Lasts s (hold w)) :
    Lasts s (hostAnswer t fn a tag n hold).1 := by
  have hpoison (i : Io → Io) (eps : List (List Nat)) : Lasts s (eps.foldl (fun s h => Machine.poisonIn s .hw fn (some a) h) (Machine.updIo t i)) :=
    .foldl (fun _ _ k => k.poisonIn) eps h.updIo
  unfold Machine.hostAnswer
  dsimp only
  split
  · exact hpoison _ _
  · exact .iteFst (hhold _ (hpoison _ _)).block (hpoison _ _).fault.logAer.raise
  · exact (hpoison _ _).fault

theorem Lasts.sendRead (h : Lasts s t) {id fn a n tag : Nat} : Lasts s (sendRead t id fn a n tag) := Lasts.peak (h.same (by rfl)) (by decide)

theorem Lasts.hostRequest (h : Lasts s t) {r : StuckRead} {a n : Nat} : Lasts s (hostRequest t r a n).1 := by
  unfold Machine.hostRequest
  split
  · exact h.block
  · exact h.sendRead.hostAnswer fun _ k => k.updIo

theorem Lasts.hostRequests (h : Lasts s t) {k : StuckRead} (ps : List (Nat × Nat)) : Lasts s (hostRequests k ps t).1 := by
  induction ps generalizing t with
  | nil => exact h
  | cons p ps ih => exact ih h.hostRequest

theorem Lasts.hostRead (h : Lasts s t) {req : Req} {x a n : Nat} : Lasts s (hostRead t req x a n).1 := by
  unfold Machine.hostRead
  split
  · exact .iteFst (h.same (by rfl)) (Lasts.hostAnswer (h.same (by rfl)) fun _ k => k)
  · refine .iteFst h ?_
    split
    · exact h.hwinRefuse
    · exact .iteFst h.block (Lasts.same (h.hostRequests _) (by rfl))

theorem Lasts.localRead (h : Lasts s t) {a n : Nat} : Lasts s (localRead t a n).1 := by
  unfold Machine.localRead
  split
  · exact h.wakeAt.checkRange
  · exact h

theorem Lasts.readMem (h : Lasts s t) {v : Via} {a n : Nat} : Lasts s (readMem t v a n).1 := by
  unfold Machine.readMem
  split
  · split
    · exact h.block
    · next hw => exact (h.wakeAt.engineCommand hw).arrayRead
  · exact h.localRead

theorem Lasts.windowRead (h : Lasts s t) {v : Via} {a n : Nat} : Lasts s (windowRead t v a n).1 := by
  unfold Machine.windowRead
  split
  · exact h.same (by rfl)
  · exact h.same (by rfl)

theorem Lasts.placeRead (h : Lasts s t) {v : Via} {a n : Nat} : Lasts s (placeRead t v a n).1 := by
  unfold Machine.placeRead
  split
  · exact h.hostRead
  · exact h.windowRead
  · exact h.windowRead
  · exact h.readMem

theorem Lasts.devRead (h : Lasts s t) {v : Via} {a n : Nat} : Lasts s (devRead t v a n).1 := h.carryRead fun _ k => k.placeRead

theorem Lasts.readPieces (h : Lasts s t) {v : Via} (ps : List (Nat × Nat)) : Lasts s (readPieces ps t v).1 := by
  induction ps generalizing t with
  | nil => exact h
  | cons p ps ih => exact .iteFst h.devRead (ih h.devRead)

theorem Lasts.readRange (h : Lasts s t) {v : Via} {a n : Nat} : Lasts s (readRange t v a n).1 := h.readPieces _
end

/-! Pushes into a ring. -/

section
variable {s t : State}

theorem Lasts.admitPushes (h : Lasts s t) {q : Nat} {ps : List (List (List Byte) × List Nat)} : Lasts s (admitPushes t q ps).1 := by
  unfold Machine.admitPushes
  exact .iteFst (h.bump (by decide)).queueEvents (Lasts.ringWrites (Lasts.same h.putCtx (by rfl)) _)

theorem Lasts.updSlots (h : Lasts s t) {f : SMap SlotPush → SMap SlotPush} : Lasts s (updSlots t f) := h.same (by rfl)

theorem Lasts.dropHeld (h : Lasts s t) {q c : Nat} : Lasts s (dropHeld t q c) := .ite h.updSlots h

theorem Lasts.opCheck (h : Lasts s t) {req : Req} {q c : Nat} {roleOk countOk : Bool} {n : Nat} : Lasts s (opCheck t req q c roleOk countOk n).1 := by
  unfold Machine.opCheck
  exact .iteFst h (.iteFst h (.iteFst h.fault (.iteFst h.fault (.iteFst h.fault h))))

theorem Lasts.readCtx (h : Lasts s t) {q : Nat} : Lasts s (readCtx t q).1 := by
  unfold Machine.readCtx
  split
  · exact h
  · exact .ite h.checkRange.detach.hwFault.raise h.checkRange

theorem Lasts.answer (h : Lasts s t) {st : Nat} {es : List Byte} {bad : List (Nat × Nat)} : Lasts s (answer t st es bad) := h.same (by rfl)

theorem Lasts.hodCycle (h : Lasts s t) {q n m : Nat} : Lasts s (hodCycle t q n m).1 := by
  have hpushed (c : Nat) (full : Bool) : Lasts s (if full then Machine.bump (Machine.putCtx t q c) R.HOD_REFUSED 31 0 1
      else if n = 0 then Machine.putCtx t q c else Machine.bump (Machine.putCtx t q c) R.HOD_PUSHES 31 0 1) :=
    .ite (h.putCtx.bump (by decide)) (.ite h.putCtx (h.putCtx.bump (by decide)))
  exact Lasts.queueEvents (.ite (hpushed _ _) ((hpushed _ _).bump (by decide)))

theorem Lasts.urgentTime (h : Lasts s t) {q c cycles : Nat} : Lasts s (urgentTime t q c cycles) := by
  have hpeak {x y : Nat} {p : Prop} [Decidable p] :
      Lasts s (if p then Machine.wf (Machine.wf t R.HOD_URGENT_PEAK 7 0 x) R.HOD_URGENT_PEAK 15 8 y else t) := .ite ((h.wf (by decide)).wf (by decide)) h
  exact .ite h (.ite hpeak.hwFault.raise hpeak)

theorem Lasts.urgentFree (h : Lasts s t) {q c : Nat} : Lasts s (urgentFree t q c) := .ite h h.fresh.urgentTime

theorem Lasts.admitSlot (h : Lasts s t) {slot : Nat} : Lasts s (admitSlot t slot) := by
  unfold Machine.admitSlot
  split
  · exact h
  · next p _ =>
    have hslots : Lasts s (Machine.updSlots t (·.del slot)) := h.updSlots
    have hpushed := Lasts.iteFst (c := p.pushes.isEmpty = true) (hslots.hodCycle (q := p.queue) (n := p.count) (m := 0))
      (hslots.admitPushes (q := p.queue) (ps := heldData p))
    exact .ite h (.ite (.ite (.ite hpushed.urgentFree hpushed) (Lasts.answer (.ite hpushed.urgentFree hpushed))) (.ite hslots hslots.answer))

theorem Lasts.urgentFirst (h : Lasts s t) {c : Nat} : Lasts s (urgentFirst t c) := .foldl (fun _ _ k => k.admitSlot) _ h

theorem Lasts.takeQueue (h : Lasts s t) {q : Nat} : Lasts s (takeQueue t q).1 := h.readCtx.urgentFirst

theorem Lasts.devPush (h : Lasts s t) {req : Req} {q : Nat} {es : List (List Byte)} {bad : List Nat} : Lasts s (devPush t req q es bad).1 := by
  have hchecked : Lasts s (pushCheck (Machine.takeQueue t q).1 req q (Machine.takeQueue t q).2 es).1 := h.takeQueue.opCheck
  exact .iteFst hchecked hchecked.dropHeld.admitPushes

theorem Lasts.devPushFree (h : Lasts s t) {q : Nat} {e : List Byte} : Lasts s (devPushFree t q e).1 := .ite h.devPush.urgentFree h.devPush

theorem Lasts.pushFrom (h : Lasts s t) {v : Via} {q : Nat} {e : List Byte} : Lasts s (pushFrom t v q e).1 := h.carryCall fun _ k => k.devPushFree

theorem Lasts.pushNoResult (h : Lasts s t) {j : Job} {tag ts : Nat} {concealed : Bool} : Lasts s (pushNoResult t j tag ts concealed) :=
  .ite h.pushFrom (h.pushFrom.bump (by decide)).hwFault.raise
end

/-! Jobs and partitions of the dispatcher. -/

section
variable {s t : State}

theorem Lasts.emitNoResults (h : Lasts s t) {ident : Nat} {j : Job} : Lasts s (emitNoResults t ident j) :=
  .freeBatch (.ite h.readRange.pushNoResult (.foldl (fun _ _ k => .ite k.pushNoResult k) _ h.readRange))

theorem Lasts.updDpt (h : Lasts s t) {f : Dispatcher → Dispatcher} : Lasts s (updDpt t f) := h.same (by rfl)

theorem Lasts.noResults (h : Lasts s t) {ident : Nat} {j : Job} : Lasts s (noResults t ident j) := .ite h.updDpt h.emitNoResults

theorem Lasts.dispose (h : Lasts s t) {ident : Nat} {j : Job} {action : Nat} {ended : Bool} : Lasts s (dispose t ident j action ended) := by
  unfold Machine.dispose
  split
  · exact .ite h.freeBatch h
  · exact h.updDpt
  · exact h.noResults

theorem Lasts.partEvent (h : Lasts s t) {p b : Nat} : Lasts s (partEvent t p b) := .ite h (.ite h.updDpt.sendMsix h.updDpt)

theorem Lasts.safeSet (h : Lasts s t) {b : Nat} {on : Bool} : Lasts s (safeSet t b on) := by
  have hset := Lasts.ite (c := on = true) (Lasts.wb (off := R.FLT_SAFE_SEEN) (i := b) (b := true) (h.wb (off := R.FLT_SAFE_STATUS) (i := b) (b := on) (by decide)) (by decide))
    (h.wb (off := R.FLT_SAFE_STATUS) (i := b) (b := on) (by decide))
  exact .ite h (.ite hset.raise hset)

theorem Lasts.sentinelJob (h : Lasts s t) {missed : Bool} : Lasts s (sentinelJob t missed) := by
  have hmissed : Lasts s (Machine.wf (Machine.bump t R.FLT_SENT_STATUS 7 0 1) R.FLT_SENT_STATUS 31 16 0) := (h.bump (by decide)).wf (by decide)
  have hdone : Lasts s (Machine.wf (Machine.bump { t with flt := { t.flt with sentDone := true } } R.FLT_SENT_STATUS 31 16 1) R.FLT_SENT_STATUS 7 0 0) :=
    Lasts.wf (Lasts.bump (h.same (by rfl)) (by decide)) (by decide)
  exact .ite (.ite hmissed.safeSet hmissed) (.ite hdone.safeSet hdone)

theorem Lasts.updModel (h : Lasts s t) {m : Nat} {f : Model → Model} : Lasts s (updModel t m f) := h.updDpt

theorem Lasts.signalFyp (h : Lasts s t) {g : FypSignal} : Lasts s (signalFyp t g) := h.same (by rfl)

theorem Lasts.reportMiss (h : Lasts s t) {j : Job} {action : Nat} {running : Bool} : Lasts s (reportMiss t j action running) := by
  have hcounted {x : W32} {f : Model → Model} {g : Dispatcher → Dispatcher} :
      Lasts s (Machine.updDpt (Machine.updModel (Machine.setReg (Machine.bump t R.SBT_MISSES 31 0 1) R.SBT_LAST_MISS x) j.model f) g) :=
    Lasts.updDpt (Lasts.updModel ((h.bump (by decide)).setReg (by decide)))
  exact .partEvent (.ite (.sentinelJob (.signalFyp (.raise (.raise (.hwFault (hcounted.bump (by decide))))))) hcounted.hwFault.raise)

theorem Lasts.missAborted (h : Lasts s t) {n : Nat} {j : Job} : Lasts s (missAborted t n j) := .ite h (.ite h.dispose h.reportMiss.dispose)

theorem Lasts.sendAbort (h : Lasts s t) {n : Nat} {urgent : Bool} : Lasts s (sendAbort t n urgent) := h.wake.countFlits.updDpt

theorem Lasts.settlePart (h : Lasts s t) {now : Bool} {p : Nat} : Lasts s (settlePart now t p) := .ite h h.updDpt.raise.partEvent

theorem Lasts.settleParts (h : Lasts s t) : Lasts s (settleParts t) := .foldl (fun _ _ k => k.settlePart) _ h

theorem Lasts.updJobAt (h : Lasts s t) {n : Nat} {urgent : Bool} {f : Job → Job} : Lasts s (updJobAt t n urgent f) := h.same (by rfl)

theorem partStatus_ne (p : Nat) : R.DPT_PART_STATUS p % 0x1000 ≠ 0x20 := by
  rw [R.DPT_PART_STATUS]
  omega

theorem Lasts.dramLost (h : Lasts s t) {u : Nat} : Lasts s (dramLost t u) :=
  .settleParts (.foldl (fun _ _ k => .foldl (fun _ _ k => k.sendAbort.missAborted.updJobAt) _ k.updModel) _
    (.foldl (fun _ p k => k.wb (partStatus_ne p)) _ h))

theorem Lasts.dramBack (h : Lasts s t) : Lasts s (dramBack t) :=
  .settleParts (.foldl (fun _ p k => k.wb (partStatus_ne p)) _ (.foldl (fun _ _ k => k.updModel) _ h))

theorem Lasts.resumeNoResults (h : Lasts s t) : Lasts s (resumeNoResults t) := .foldl (fun _ _ k => k.emitNoResults) _ h.updDpt
end

end Sys2Proof.Subchannels
end

section
/-! Retraining, alerts and their recovery, and the end of a refill (06 R204 to R217). -/
namespace Sys2Proof.Subchannels
open Sys2Proof Sys2Proof.Machine Sys2Proof.Laws Sys2Proof.Claims Sys2Proof.Mesh Sys2Proof.RegisterPages

/-! Commands that present requests, where none of them has to wait. -/

section
variable {c : Instr} {f : State → State} {ps : List Nat} {s t w : State} {u : Nat} {P : State → Prop}

theorem OnDram.mortar (h : OnDram ps s t) : t.mortar = s.mortar := (congrArg State.mortar h.rest :)

theorem OnDram.noResults (h : OnDram ps s t) : t.dpt.noResults = s.dpt.noResults := (congrArg (fun x : State => x.dpt.noResults) h.rest :)

theorem OnDram.given (h : OnDram ps (withHost s []) w) : OnDram ps s (given s w) :=
  ⟨(congrArg (fun x : State => Claims.given s x) h.rest).trans rfl, h.regs⟩

/-- A command whose work stays in the DRAM subsystem and its registers presents no request that waits. -/
theorem runs_of_onDram (hexec : exec c s = serves [] f s) (h : OnDram ps (withHost s []) (f (withHost s []))) (hP : P (given s (f (withHost s [])))) :
    Runs c s P := ⟨_, hexec.trans (served_next rfl (unheld_of_mortar h.mortar)), hP⟩

theorem completes_of_serves (hexec : exec c s = serves [] f s) (hP : P (f (withHost s []))) : Completes c s (f (withHost s [])) P :=
  ⟨hP, fun hu => hexec.trans (served_next rfl hu)⟩

/-- Where no job waits to have its no-results entries written, nothing resumes. -/
theorem resumeNoResults_none (h : s.dpt.noResults = []) : resumeNoResults s = s := by
  unfold resumeNoResults
  rw [h]
  show { s with dpt := { s.dpt with noResults := s.dpt.noResults.filter fun e => !List.contains [] e } } = s
  rw [List.filter_eq_self.2 fun _ _ => by simp]
end

/-! Retraining in a pause (R204 to R207). -/

/-- The state in which the probes of a retraining pause are run: refreshes have come first where OWED calls for them, and the banks are precharged. -/
def paused (s : State) (u : Nat) : State :=
  let w := wb s (R.DMC_RETRAIN_CTRL (u / 2)) (8 + u % 2) false
  updSub (refreshMany w u ((subch s u).owed - ((rf w (R.DMC_REF_CTRL (u / 2)) 3 0 : Nat) - 3)).toNat) u fun k => { precharge k with pd := false }

/-- Both sides have moved towards their passing settings. -/
def retrained (s : State) (u : Nat) (x y : Int) : State :=
  updSub (paused s u) u fun k => { k with rdSet := k.rdSet + x, wrSet := k.wrSet + y, st := if k.st = .drifting then .run else k.st }

/-- A side finds no passing setting: the subchannel drifts and requests a window. -/
def drifted (s : State) (u : Nat) (x y : Int) : State :=
  updSub (paused s u) u fun k => { k with rdSet := k.rdSet + x, wrSet := k.wrSet + y, st := .drifting, winReq := true }

/-- The request of the window stands at the dispatcher and is reported. -/
def windowRequested (s : State) (u : Nat) (x y : Int) : State :=
  raise (setReg (drifted s u x y) R.DPT_WINDOW (BitVec.ofNat 32 (u % 8 + 8 + 16 * rf (drifted s u x y) R.DPT_WINDOW 4 4))) (P.dmc (u / 2)) 9

theorem window_mem (q : Nat) : R.DPT_WINDOW / 0x1000 ∈ [P.dmc q, P.dpt] := List.mem_cons_of_mem _ (List.mem_singleton.2 rfl)

section
variable {s : State} {u : Nat} {rd wr : Probe}

theorem settings_of_steady {k n : SubCh} (h : steady k = steady n) : k.rdSet = n.rdSet ∧ k.wrSet = n.wrSet ∧ k.winReq = n.winReq ∧ k.alert = n.alert :=
  ⟨(congrArg SubCh.rdSet h :), (congrArg SubCh.wrSet h :), (congrArg SubCh.winReq h :), (congrArg SubCh.alert h :)⟩

theorem commands_paused (s : State) (u : Nat) : Commands [P.dmc (u / 2), P.dpt] s (paused s u) := by
  have hpage : R.DMC_RETRAIN_CTRL (u / 2) / 0x1000 ∈ [P.dmc (u / 2), P.dpt] := by
    simp only [R.DMC_RETRAIN_CTRL, P.dmc, List.mem_cons]
    omega
  exact (((Commands.refl s).wf hpage).refreshMany _).updSub fun _ => by rfl

theorem length_paused (hu : u < s.dram.sub.length) : u < (paused s u).dram.sub.length := by rwa [(commands_paused s u).length]

theorem exec_retrainPause_passes {x y : Int} (hlive : (subch s u).live = true)
    (hon : rb s (R.DMC_RETRAIN_CTRL (u / 2)) 0 = true ∨ rb s (R.DMC_RETRAIN_CTRL (u / 2)) (8 + u % 2) = true) (hx : probeMove rd = some x)
    (hy : probeMove wr = some y) :
    exec (.retrainPause u rd wr) s = .next (if (subch s u).winReq then withdrawWindow (retrained s u x y) u else retrained s u x y) := by
  show execRetrainPause u rd wr s = _
  unfold execRetrainPause
  rw [if_neg (by rcases hon with h | h <;> simp [hlive, h]), hx, hy]
  rfl

theorem runs_retrainPause_passes (hu : u < s.dram.sub.length) {x y : Int} (hlive : (subch s u).live = true)
    (hon : rb s (R.DMC_RETRAIN_CTRL (u / 2)) 0 = true ∨ rb s (R.DMC_RETRAIN_CTRL (u / 2)) (8 + u % 2) = true) (hx : probeMove rd = some x)
    (hy : probeMove wr = some y) : Runs (.retrainPause u rd wr) s fun t =>
      (subch t u).rdSet = (subch s u).rdSet + x ∧ (subch t u).wrSet = (subch s u).wrSet + y ∧ (subch t u).winReq = false
        ∧ Frame s { t with dram := s.dram } [P.dmc (u / 2), P.dpt] := by
  obtain ⟨hrdSet, hwrSet, hwinReq, -⟩ := settings_of_steady ((commands_paused s u).subch u)
  have hlen : u < (retrained s u x y).dram.sub.length := by simpa [retrained] using length_paused hu
  have hsub : subch (retrained s u x y) u = { subch (paused s u) u with
      rdSet := (subch (paused s u) u).rdSet + x, wrSet := (subch (paused s u) u).wrSet + y,
      st := if (subch (paused s u) u).st = .drifting then .run else (subch (paused s u) u).st } := subch_updSub_self (length_paused hu)
  rw [hrdSet, hwrSet] at hsub
  have hmoved : OnDram [P.dmc (u / 2), P.dpt] s (retrained s u x y) := (commands_paused s u).onDram.updSub
  refine ⟨_, exec_retrainPause_passes hlive hon hx hy, ?_⟩
  cases hreq : (subch s u).winReq with
  | false =>
    rw [if_neg (by simp), hsub]
    exact ⟨rfl, rfl, hwinReq.trans hreq, hmoved.frame⟩
  | true =>
    have hwithdrawn : subch (withdrawWindow (retrained s u x y) u) u = { subch (retrained s u x y) u with winReq := false } := subch_updSub_self hlen
    rw [if_pos rfl, hwithdrawn, hsub]
    exact ⟨rfl, rfl, rfl, (hmoved.updSub.wb (window_mem _)).frame⟩

theorem exec_retrainPause_drifts (hlive : (subch s u).live = true)
    (hon : rb s (R.DMC_RETRAIN_CTRL (u / 2)) 0 = true ∨ rb s (R.DMC_RETRAIN_CTRL (u / 2)) (8 + u % 2) = true)
    (hnone : probeMove rd = none ∨ probeMove wr = none) :
    exec (.retrainPause u rd wr) s = .next (windowRequested s u ((probeMove rd).getD 0) ((probeMove wr).getD 0)) := by
  show execRetrainPause u rd wr s = _
  unfold execRetrainPause
  rw [if_neg (by rcases hon with h | h <;> simp [hlive, h])]
  dsimp only
  split
  · next hx hy => simp [hx, hy] at hnone
  · rfl

theorem runs_retrainPause_drifts (hu : u < s.dram.sub.length) (hlive : (subch s u).live = true)
    (hon : rb s (R.DMC_RETRAIN_CTRL (u / 2)) 0 = true ∨ rb s (R.DMC_RETRAIN_CTRL (u / 2)) (8 + u % 2) = true)
    (hnone : probeMove rd = none ∨ probeMove wr = none) : Runs (.retrainPause u rd wr) s fun t =>
      (subch t u).st = .drifting ∧ (subch t u).winReq = true ∧ Raised t (P.dmc (u / 2)) 9 ∧ Frame s { t with dram := s.dram } [P.dmc (u / 2), P.dpt] := by
  have hdrifted (x y : Int) : OnDram [P.dmc (u / 2), P.dpt] s (drifted s u x y) := (commands_paused s u).onDram.updSub
  have hsub (x y : Int) : subch (windowRequested s u x y) u = { subch (paused s u) u with
      rdSet := (subch (paused s u) u).rdSet + x, wrSet := (subch (paused s u) u).wrSet + y, st := .drifting, winReq := true } := by
    rw [subch, windowRequested, dram_of_onPage (onPage_raise 9)]
    exact subch_updSub_self (length_paused hu)
  exact ⟨_, exec_retrainPause_drifts hlive hon hnone, congrArg SubCh.st (hsub _ _), congrArg SubCh.winReq (hsub _ _), rb_raise _ _ (by decide),
    (((hdrifted _ _).setReg (window_mem _)).raise (by simp) 9).frame⟩
end

/-! Fences of a subchannel (R209, R214, R215). -/

/-- A subchannel is fenced, and nothing waits at it. -/
def cleared (s : State) (u : Nat) : State :=
  updSub s u fun k => { k with st := .fenced, winReq := false, reads := [], writes := [], stopped := [], retry := [], held := [],
                               alert := false, replaying := 0, leftCmds := 0, leftWrites := 0, draining := false, pd := false }

section
variable {s : State} {u : Nat}

theorem lasts_fenceSub (s : State) (u : Nat) : Lasts (cleared s u) (fenceSub s u) := (Lasts.refl (cleared s u)).releaseAcks.raise.resumeNoResults.dramLost

theorem raised_fenceSub (s : State) (u : Nat) : Raised (fenceSub s u) (P.dmc (u / 2)) 10 :=
  (Lasts.refl (raise (releaseAcks (cleared s u) u) (P.dmc (u / 2)) 10)).resumeNoResults.dramLost.raised (by decide) (rb_raise _ _ (by decide))

theorem subch_fenceSub (hu : u < s.dram.sub.length) : (subch (fenceSub s u) u).st = .fenced ∧ (subch (fenceSub s u) u).reads = [] := by
  have hcleared : lane (subch (cleared s u) u) = (.fenced, 0) := by
    rw [cleared, subch_updSub_self hu]
    rfl
  have hlane := ((lasts_fenceSub s u).subch u).trans hcleared
  have hreads : (subch (fenceSub s u) u).reads.length + (subch (fenceSub s u) u).stopped.countP (·.data.isNone) = 0 := congrArg Prod.snd hlane
  exact ⟨congrArg Prod.fst hlane, List.length_eq_zero_iff.1 (Nat.add_eq_zero_iff.1 hreads).1⟩

/-- The answers to the requests that wait at a fenced subchannel. -/
theorem lasts_answerFenced (s : State) (u : Nat) : Lasts (updSub s u fun k => { k with reads := [], stopped := [] }) (answerFenced s u) := by
  refine .foldl (fun t r k => ?_) _ (.refl _)
  split
  · exact .ite k.fault.respondInTurn k.fault
  · exact k.respondInTurn

/-- After the answers and the fence: the subchannel is fenced, no read waits, and the events that were raised before stay. -/
theorem fenced_answered (hu : u < s.dram.sub.length) : (subch (fenceSub (answerFenced s u) u) u).st = .fenced
    ∧ (subch (fenceSub (answerFenced s u) u) u).reads = []
    ∧ ∀ pg b, b < 32 → Raised s pg b → Raised (fenceSub (answerFenced s u) u) pg b := by
  have hlen : u < (answerFenced s u).dram.sub.length := by rw [(lasts_answerFenced s u).lanes.length]; simpa using hu
  obtain ⟨hst, hreads⟩ := subch_fenceSub hlen
  exact ⟨hst, hreads, fun pg b hb h => (lasts_fenceSub (answerFenced s u) u).raised hb ((lasts_answerFenced s u).raised hb h)⟩
end

/-! Training windows (R208, R209). -/

/-- The result of a training stands in its registers: DMC_SUB_TRAIN, and whether another subchannel has a window. -/
def trainingNoted (s : State) (u : Nat) (t : Train) : State :=
  wb (putTrain s u t) R.DPT_WINDOW 4 (((List.range 8).filter (· ≠ u)).any fun v => decide ((subch (putTrain s u t) v).st = .window))

/-- The window of a training that passes has ended. -/
def windowEnded (s : State) (u : Nat) (t : Train) : State :=
  updSub (trainingNoted s u t) u fun k => { k with st := if fillsSub s u then .filling else .run, winReq := false }

section
variable {s : State} {u : Nat}

theorem onPage_putTrain (s : State) (u : Nat) (t : Train) : OnPage (P.dmc (u / 2)) s (putTrain s u t) := by
  have hpage : R.DMC_SUB_TRAIN (u / 2) (u % 2) / 0x1000 = P.dmc (u / 2) := by
    rw [R.DMC_SUB_TRAIN, P.dmc]
    omega
  have hwritten {w : State} {hi lo x : Nat} (h : OnPage (P.dmc (u / 2)) s w) : OnPage (P.dmc (u / 2)) s (wf w (R.DMC_SUB_TRAIN (u / 2) (u % 2)) hi lo x) :=
    h.trans (onPage_wf hpage)
  have hlast : OnPage (P.dmc (u / 2)) s (wf (wf s (R.DMC_SUB_TRAIN (u / 2) (u % 2)) 3 0 ((trainFails t).getD 8)) (R.DMC_SUB_TRAIN (u / 2) (u % 2)) 5 4
      (if (trainFails t).isSome then 2 else 1)) := hwritten (hwritten (.refl _ s))
  have hca := OnPage.ite (c := 3 ≤ (trainFails t).getD 8) (hwritten (hi := 31) (lo := 24) (x := min t.caEye 255) hlast) hlast
  have hrd := OnPage.ite (c := 6 ≤ (trainFails t).getD 8) (hwritten (hi := 15) (lo := 8) (x := min t.rdEye 255) hca) hca
  exact .ite (hwritten hrd) hrd

theorem onDram_trainingNoted (s : State) (u : Nat) (t : Train) : OnDram [P.dmc (u / 2), P.dpt] s (trainingNoted s u t) :=
  (onDram_of_onPage (onPage_putTrain s u t) (by simp)).wb (window_mem _)

theorem dram_trainingNoted (s : State) (u : Nat) (t : Train) : (trainingNoted s u t).dram = s.dram :=
  (show _ = (putTrain s u t).dram from rfl).trans (dram_of_onPage (onPage_putTrain s u t))

theorem fillsSub_trainingNoted (s : State) (u : Nat) (t : Train) : fillsSub (trainingNoted s u t) u = fillsSub s u := by
  unfold fillsSub layoutMasks
  rw [dram_trainingNoted]

theorem retrainWindow_passes {t : Train} (hst : (subch s u).st = .window) (halert : (subch s u).alert = false) (hpasses : trainFails t = none) :
    retrainWindow u t s = resumeNoResults (windowEnded s u t) := by
  unfold retrainWindow
  rw [if_neg (by simp [hst, halert]), hpasses, windowEnded, ← fillsSub_trainingNoted s u t]
  rfl

theorem retrainWindow_fails {t : Train} {step : Nat} (hst : (subch s u).st = .window) (halert : (subch s u).alert = false)
    (hfails : trainFails t = some step) :
    retrainWindow u t s = fenceSub (answerFenced (hwFault (trainingNoted s u t) (P.dmc (u / 2)) 5 (u % 2 + step * 256)) u) u := by
  unfold retrainWindow
  rw [if_neg (by simp [hst, halert]), hfails]
  rfl

theorem runs_retrainWindow_passes (hu : u < s.dram.sub.length) {t : Train} (hst : (subch s u).st = .window) (halert : (subch s u).alert = false)
    (hpasses : trainFails t = none) (hnone : s.dpt.noResults = []) : Runs (.retrainWindow u t) s fun n =>
      (subch n u).st = (if fillsSub s u then .filling else .run) ∧ (subch n u).winReq = false
        ∧ Frame s { n with dram := s.dram } [P.dmc (u / 2), P.dpt] := by
  have hended : OnDram [P.dmc (u / 2), P.dpt] (withHost s []) (windowEnded (withHost s []) u t) := (onDram_trainingNoted _ u t).updSub
  have hwindow : retrainWindow u t (withHost s []) = windowEnded (withHost s []) u t :=
    (retrainWindow_passes (s := withHost s []) hst halert hpasses).trans (resumeNoResults_none (hended.noResults.trans hnone))
  have hsub : subch (windowEnded (withHost s []) u t) u = { subch (trainingNoted (withHost s []) u t) u with
      st := if fillsSub (withHost s []) u then .filling else .run, winReq := false } := subch_updSub_self (by rwa [dram_trainingNoted])
  refine runs_of_onDram rfl (by rwa [hwindow]) ?_
  rw [hwindow]
  exact ⟨congrArg SubCh.st hsub, congrArg SubCh.winReq hsub, hended.given.frame⟩

theorem completes_retrainWindow_fails (hu : u < s.dram.sub.length) {t : Train} (hst : (subch s u).st = .window) (halert : (subch s u).alert = false)
    (hfails : trainFails t ≠ none) : Completes (.retrainWindow u t) s (retrainWindow u t (withHost s [])) fun n =>
      (subch n u).st = .fenced ∧ (subch n u).reads = [] ∧ Raised n (P.dmc (u / 2)) 0 ∧ Raised n (P.dmc (u / 2)) 10 := by
  obtain ⟨step, hstep⟩ := Option.ne_none_iff_exists'.1 hfails
  have hlen : u < (hwFault (trainingNoted (withHost s []) u t) (P.dmc (u / 2)) 5 (u % 2 + step * 256)).dram.sub.length := by
    rwa [dram_of_onPage (onPage_hwFault _ _), dram_trainingNoted]
  obtain ⟨hfenced, hreads, hraised⟩ := fenced_answered hlen
  refine completes_of_serves rfl ?_
  rw [retrainWindow_fails (s := withHost s []) hst halert hstep]
  exact ⟨hfenced, hreads, hraised _ _ (by decide) (rb_fault _ _ _ _ _ _), raised_fenceSub _ u⟩

/-- An alert holds the steps of a window (R211). -/
theorem gives_retrainWindow_alert (t : Train) (halert : (subch s u).alert = true) : Gives (.retrainWindow u t) s s := by
  have hheld : retrainWindow u t (withHost s []) = withHost s [] := if_pos (by simp [show (subch (withHost s []) u).alert = true from halert])
  show exec (.retrainWindow u t) s = .next (given s (withHost s []))
  exact served_next (congrArg Host.Outcome.next hheld) ⟨rfl, rfl, rfl⟩
end

/-! Alerts and their recovery (R211 to R214). -/

/-- The errors that the components report are counted. -/
def errorsCounted (s : State) (u : Nat) (parity crc : Bool) : State :=
  let o := R.DMC_SUB_REPLAY (u / 2) (u % 2)
  let w := if parity then bump s o 15 0 1 else s
  if crc then bump w o 31 16 1 else w

/-- The errors are counted, and the alert of the subchannel has ended. -/
def recovering (s : State) (u : Nat) (parity crc : Bool) : State := updSub (errorsCounted s u parity crc) u fun k => { k with alert := false }

/-- The state in which the replay of a recovery is over, and refreshes are made up for. -/
def recovered (s : State) (u : Nat) (parity crc : Bool) : State :=
  if parity || crc then makeUp (raise (recover (recovering s u parity crc) u parity) (P.dmc (u / 2)) 11) u else makeUp (recovering s u parity crc) u

section
variable {s t : State} {u : Nat}

theorem runs_dramAlert (hu : u < s.dram.sub.length) {replay : Bool} (hticks : ticks (subch s u) = true) (hplain : replay = false ∨ (subch s u).replaying = 0) :
    Runs (.dramAlert u replay) s fun t => (subch t u).alert = true ∧ Frame s { t with dram := s.dram } [] := by
  have halert : dramAlert u replay (withHost s []) = updSub (withHost s []) u fun k => { k with alert := true } := by
    have hreplay : ¬(replay && decide ((subch (withHost s []) u).replaying ≠ 0)) = true := by
      show ¬(replay && decide ((subch s u).replaying ≠ 0)) = true
      rcases hplain with h | h <;> simp [h]
    exact (if_neg (by rw [show subch (withHost s []) u = subch s u from rfl, hticks]; simp)).trans (if_neg hreplay)
  have hstopped : OnDram [] (withHost s []) (dramAlert u replay (withHost s [])) := by
    rw [halert]
    exact (OnDram.refl _).updSub
  refine runs_of_onDram rfl hstopped ⟨?_, hstopped.given.frame⟩
  rw [halert]
  exact congrArg SubCh.alert (subch_updSub_self (s := withHost s []) hu)

theorem completes_dramAlert_replay (hu : u < s.dram.sub.length) (hticks : ticks (subch s u) = true) (hreplay : (subch s u).replaying ≠ 0) :
    Completes (.dramAlert u true) s (dramAlert u true (withHost s [])) fun t => (subch t u).st = .fenced ∧ Raised t (P.dmc (u / 2)) 0 := by
  have halert : dramAlert u true (withHost s []) = fenceSub (answerFenced (hwFault (withHost s []) (P.dmc (u / 2)) (2 + (subch s u).replaying)
      (u % 2 + min (subch s u).replayed 255 * 256)) u) u :=
    (if_neg (by rw [show subch (withHost s []) u = subch s u from rfl, hticks]; simp)).trans
      (if_pos (show (true && decide ((subch s u).replaying ≠ 0)) = true by simpa using hreplay))
  have hlen : u < (hwFault (withHost s []) (P.dmc (u / 2)) (2 + (subch s u).replaying) (u % 2 + min (subch s u).replayed 255 * 256)).dram.sub.length := by
    rwa [dram_of_onPage (onPage_hwFault _ _)]
  obtain ⟨hfenced, -, hraised⟩ := fenced_answered hlen
  refine completes_of_serves rfl ?_
  rw [halert]
  exact ⟨hfenced, hraised _ _ (by decide) (rb_fault _ _ _ _ _ _)⟩

/-- The refreshes that are made up for clear no event. -/
theorem raised_makeUp {pg b : Nat} (h : Raised s pg b) : Raised (makeUp s u) pg b := by
  have hrefreshed (n : Nat) : Raised (refreshMany s u n) pg b := by
    unfold Raised rb
    rwa [((Commands.refl (ps := []) s).refreshMany n).onDram.regs _ (by simp)]
  have hne : hdr pg 0x20 ≠ R.DMC_SUB_REFBURST (u / 2) (u % 2) := by
    rw [hdr, R.DMC_SUB_REFBURST]
    omega
  unfold makeUp
  split
  · unfold Raised rb
    rw [rd_bump_ne hne]
    exact hrefreshed _
  · exact h

theorem onPage_errorsCounted (s : State) (u : Nat) (parity crc : Bool) : OnPage (P.dmc (u / 2)) s (errorsCounted s u parity crc) := by
  have hpage : R.DMC_SUB_REPLAY (u / 2) (u % 2) / 0x1000 = P.dmc (u / 2) := by
    rw [R.DMC_SUB_REPLAY, P.dmc]
    omega
  have hparity := OnPage.ite (c := parity = true) (onPage_bump (s := s) (hi := 15) (lo := 0) (n := 1) hpage) (.refl _ s)
  exact .ite (hparity.trans (onPage_bump hpage)) hparity

theorem onDram_recovering (s : State) (u : Nat) (parity crc : Bool) : OnDram [P.dmc (u / 2)] s (recovering s u parity crc) :=
  (onDram_of_onPage (onPage_errorsCounted s u parity crc) (by simp)).updSub

theorem subch_recovering (hu : u < s.dram.sub.length) (parity crc : Bool) : (subch (recovering s u parity crc) u).alert = false :=
  congrArg SubCh.alert (subch_updSub_self (by rwa [dram_of_onPage (onPage_errorsCounted s u parity crc)]))

theorem commands_recovered (s : State) (u : Nat) (parity crc : Bool) : Commands [P.dmc (u / 2)] (recovering s u parity crc) (recovered s u parity crc) :=
  .ite ((((Commands.refl _).recover (by simp)).raise (by simp)).makeUp (by simp)) ((Commands.refl _).makeUp (by simp))

theorem alertRecovery_eq {parity crc : Bool} (halert : (subch s u).alert = true) :
    alertRecovery u parity crc s = resumeNoResults (recovered s u parity crc) := if_neg (by simp [halert])

theorem runs_alertRecovery (hu : u < s.dram.sub.length) (parity crc : Bool) (halert : (subch s u).alert = true) (hnone : s.dpt.noResults = []) :
    Runs (.alertRecovery u parity crc) s fun t =>
      (subch t u).alert = false ∧ ((parity || crc) = true → Raised t (P.dmc (u / 2)) 11) ∧ Frame s { t with dram := s.dram } [P.dmc (u / 2)] := by
  have hrecovered : OnDram [P.dmc (u / 2)] (withHost s []) (recovered (withHost s []) u parity crc) :=
    (onDram_recovering _ u parity crc).trans (commands_recovered _ u parity crc).onDram
  have hrecovery : alertRecovery u parity crc (withHost s []) = recovered (withHost s []) u parity crc :=
    (alertRecovery_eq (s := withHost s []) halert).trans (resumeNoResults_none (hrecovered.noResults.trans hnone))
  obtain ⟨-, -, -, hkept⟩ := settings_of_steady ((commands_recovered (withHost s []) u parity crc).subch u)
  refine runs_of_onDram rfl (by rwa [hrecovery]) ?_
  rw [hrecovery]
  refine ⟨hkept.trans (subch_recovering (s := withHost s []) hu parity crc), fun herror => ?_, hrecovered.given.frame⟩
  show Raised (recovered (withHost s []) u parity crc) _ _
  rw [recovered, if_pos herror]
  exact raised_makeUp (rb_raise _ _ (by decide))

end

/-! The retry buffer and the end of a refill (R210, R217). -/

/-- A replay has ended once none of its commands and writes is left in the buffers. -/
def replayEnded (k : SubCh) : SubCh := if k.leftCmds = 0 ∧ k.leftWrites = 0 then { k with replaying := 0 } else k

/-- A subchannel of a region that was refilled runs. -/
def endFilling (s : State) (v : Nat) : State := updSub s v fun k => { k with st := if k.st = .filling then .run else k.st }

/-- The subchannels of the regions that are being refilled. -/
def refilled (s : State) : List Nat := (List.range 8).filter fun u => fillsSub s u && decide ((subch s u).st ≠ .fenced)

/-- No region is refilled any more, and the subchannels that filled run. -/
def filled (s : State) : State := (refilled s).foldl endFilling { s with dram := { s.dram with filling := [] } }

/-- The end of the refill is reported. -/
def reported (s : State) : State := (List.range 4).foldl (fun w c => if (refilled s).any (· / 2 = c) then raise w (P.dmc c) 14 else w) (filled s)

section
variable {s : State} {u : Nat}

theorem buffers_replayEnded (k : SubCh) : (replayEnded k).retry = k.retry ∧ (replayEnded k).held = k.held := by
  unfold replayEnded
  split <;> exact ⟨rfl, rfl⟩

theorem runs_retryEntryRetire_command (hu : u < s.dram.sub.length) : Runs (.retryEntryRetire u false) s fun t =>
    (subch t u).retry = (subch s u).retry.drop 1 ∧ (subch t u).held = (subch s u).held ∧ Frame s { t with dram := s.dram } [] := by
  have hsub := subch_updSub_self (f := fun k => replayEnded { k with retry := k.retry.drop 1, leftCmds := k.leftCmds - 1 }) hu
  obtain ⟨hretry, hheld⟩ := buffers_replayEnded { subch s u with retry := (subch s u).retry.drop 1, leftCmds := (subch s u).leftCmds - 1 }
  exact ⟨_, rfl, (congrArg SubCh.retry hsub).trans hretry, (congrArg SubCh.held hsub).trans hheld, (OnDram.refl s).updSub.frame⟩

theorem runs_retryEntryRetire_write (hu : u < s.dram.sub.length) : Runs (.retryEntryRetire u true) s fun t =>
    (subch t u).held = (subch s u).held.drop 1 ∧ (subch t u).retry = (subch s u).retry ∧ Frame s { t with dram := s.dram } [] := by
  have hsub := subch_updSub_self (f := fun k => replayEnded { k with held := k.held.drop 1, leftWrites := k.leftWrites - 1 }) hu
  obtain ⟨hretry, hheld⟩ := buffers_replayEnded { subch s u with held := (subch s u).held.drop 1, leftWrites := (subch s u).leftWrites - 1 }
  exact ⟨_, rfl, (congrArg SubCh.held hsub).trans hheld, (congrArg SubCh.retry hsub).trans hretry, (OnDram.refl s).updSub.frame⟩

theorem st_endFilling (hu : u < s.dram.sub.length) (v : Nat) :
    (subch (endFilling s v) u).st = if v = u ∧ (subch s u).st = .filling then .run else (subch s u).st := by
  by_cases h : v = u
  · subst h
    rw [endFilling, subch_updSub_self hu]
    simp
  · rw [endFilling, subch_updSub_ne (Ne.symm h), if_neg fun k => h k.1]

/-- A subchannel that runs, or that fills and is among those that end to fill, runs in the end. -/
theorem st_foldl_endFilling (us : List Nat) (hu : u < s.dram.sub.length) (h : (subch s u).st = .run ∨ (subch s u).st = .filling ∧ u ∈ us) :
    (subch (us.foldl endFilling s) u).st = .run := by
  induction us generalizing s with
  | nil => exact h.resolve_right (by simp)
  | cons v us ih =>
    refine ih (by simpa [endFilling] using hu) ?_
    rw [st_endFilling hu]
    rcases h with h | ⟨h, hmem⟩
    · exact .inl (by simp [h])
    · by_cases hv : v = u
      · exact .inl (by simp [hv, h])
      · exact .inr ⟨by simp [hv, h], (List.mem_cons.1 hmem).resolve_left (Ne.symm hv)⟩

theorem filling_filled (s : State) : (filled s).dram.filling = [] := 
  PowerUp.foldl_keeps (g := fun s => s.dram.filling) (f := endFilling) (fun _ _ => rfl) (refilled s) _

theorem layoutReady_eq (h : s.dram.filling ≠ []) :
    layoutReady s = dramBack (resumeNoResults (wf (reported s) R.SYS_CAP_MEM 31 16 (dataGib (reported s)))) := if_neg (by simpa using h)

theorem lasts_layoutReady (h : s.dram.filling ≠ []) : Lasts (filled s) (layoutReady s) := by
  have hreported : Lasts (filled s) (reported s) := .foldl (fun _ _ k => .ite k.raise k) _ (.refl _)
  rw [layoutReady_eq h]
  exact (hreported.wf (by decide)).resumeNoResults.dramBack

theorem completes_layoutReady (hu : u < 8) (hlen : u < s.dram.sub.length) (hst : (subch s u).st = .filling) (hfills : fillsSub s u = true) :
    Completes .layoutReady s (layoutReady (withHost s [])) fun t => (subch t u).st = .run ∧ t.dram.filling = [] := by
  have hne : s.dram.filling ≠ [] := by
    intro hnil
    simp [fillsSub, hnil] at hfills
  have hmem : u ∈ refilled (withHost s []) := by
    refine List.mem_filter.2 ⟨List.mem_range.2 hu, ?_⟩
    rw [show fillsSub (withHost s []) u = true from hfills, show (subch (withHost s []) u).st = .filling from hst]
    rfl
  have hrun : (subch (filled (withHost s [])) u).st = .run := st_foldl_endFilling _ hlen (.inr ⟨hst, hmem⟩)
  have hlasts := lasts_layoutReady (s := withHost s []) hne
  exact completes_of_serves rfl ⟨(congrArg Prod.fst (hlasts.subch u) :).trans hrun, hlasts.filling.trans (filling_filled _)⟩
end

/-- Settles O41, clause by clause: the two ends of a retraining pause, the ends of a window, alerts, their recovery, the retry buffer and the end of a refill. -/
theorem dramTrainingAndAlerts : Obligations.DramTrainingAndAlerts := by
  unfold Obligations.DramTrainingAndAlerts
  intro s u hu hlength
  have hlen : u < s.dram.sub.length := hlength ▸ hu
  exact ⟨fun _ _ _ _ => runs_retrainPause_passes hlen, fun _ _ => runs_retrainPause_drifts hlen,
    fun _ hst halert => ⟨runs_retrainWindow_passes hlen hst halert, completes_retrainWindow_fails hlen hst halert⟩, gives_retrainWindow_alert,
    fun _ => runs_dramAlert hlen, completes_dramAlert_replay hlen, runs_alertRecovery hlen, runs_retryEntryRetire_command hlen,
    runs_retryEntryRetire_write hlen, completes_layoutReady hu hlen⟩

end Sys2Proof.Subchannels
end

section
/-! Queue contexts: their fields, where they lie, and what work on a queue's context leaves alone (07 R221 to R224, R240, R251). -/
namespace Sys2Proof.Queues
open Sys2Proof Sys2Proof.Machine Sys2Proof.Laws Sys2Proof.Claims Sys2Proof.RegisterPages Sys2Proof.Mesh Sys2Proof.PowerUp

/-! Fields of a context. -/

theorem bits_congr {v w hi lo : Nat} (h : ∀ i, lo ≤ i → i ≤ hi → v.testBit i = w.testBit i) : bits v hi lo = bits w hi lo := by
  refine Nat.eq_of_testBit_eq fun i => ?_
  rw [testBit_bits, testBit_bits]
  by_cases hi' : i < hi + 1 - lo
  · rw [h (lo + i) (by omega) (by omega)]
  · simp [hi']

theorem cf_lt (c w hi lo : Nat) : cf c w hi lo < 2 ^ (32 * w + hi + 1 - (32 * w + lo)) := Nat.mod_lt _ (Nat.two_pow_pos _)

section
variable {c w hi lo x : Nat}

theorem cf_cput_self : cf (cput c w hi lo x) w hi lo = x % 2 ^ (hi + 1 - lo) := by
  refine Nat.eq_of_testBit_eq fun i => ?_
  rw [cf, cput, testBit_bits, testBit_putBits, Nat.testBit_mod_two_pow, show 32 * w + hi + 1 - (32 * w + lo) = hi + 1 - lo by omega]
  by_cases h : i < hi + 1 - lo
  · rw [if_pos (by omega), Nat.add_sub_cancel_left]
  · simp [h]

theorem cf_cput_ne {w' hi' lo' : Nat} (h : 32 * w' + hi' < 32 * w + lo ∨ 32 * w + hi < 32 * w' + lo') :
    cf (cput c w hi lo x) w' hi' lo' = cf c w' hi' lo' :=
  bits_congr fun i _ _ => by rw [cput, testBit_putBits, if_neg (by omega)]

theorem bit_cput_ne {i : Nat} (h : i < 32 * w + lo ∨ 32 * w + hi < i) : bit (cput c w hi lo x) i = bit c i := by
  rw [bit, cput, testBit_putBits, if_neg (by omega), bit]

/-- A field that is written as it reads leaves the context as it is. -/
theorem cput_cf (c w hi lo : Nat) : cput c w hi lo (cf c w hi lo) = c := by
  refine Nat.eq_of_testBit_eq fun i => ?_
  rw [cput, testBit_putBits]
  split
  · rw [cf, testBit_bits, decide_eq_true (by omega), Bool.true_and, Nat.add_sub_cancel' (by omega)]
  · rfl
end

/-- A context agrees with another but for its pending events. -/
def Agrees (c d : Nat) : Prop := ∀ i, i < 256 → (i < 200 ∨ 204 < i) → d.testBit i = c.testBit i

section
variable {c d e : Nat}

theorem Agrees.refl (c : Nat) : Agrees c c := fun _ _ _ => rfl

theorem Agrees.trans (h : Agrees c d) (k : Agrees d e) : Agrees c e := fun i hi hp => (k i hi hp).trans (h i hi hp)

theorem Agrees.cf (h : Agrees c d) {w hi lo : Nat} (hw : 32 * w + hi < 256) (hp : 32 * w + hi < 200 ∨ 204 < 32 * w + lo) :
    cf d w hi lo = cf c w hi lo := bits_congr fun i _ _ => h i (by omega) (by omega)

theorem Agrees.head (h : Agrees c d) : ctxHead d = ctxHead c := h.cf (by decide) (by decide)

theorem Agrees.tail (h : Agrees c d) : ctxTail d = ctxTail c := h.cf (by decide) (by decide)

theorem Agrees.depth (h : Agrees c d) : ctxDepth d = ctxDepth c := h.cf (by decide) (by decide)

theorem Agrees.resv (h : Agrees c d) : ctxResv d = ctxResv c := h.cf (by decide) (by decide)
end

/-! Where a context lies (R221, R223). -/

theorem memBytes_setBytes (s : State) (a : Nat) (bs : List Byte) : memBytes (setBytes s a bs) a bs.length = bs := by
  refine List.ext_getElem (by simp [memBytes, span]) fun i _ h => ?_
  simpa [memBytes, span] using memByte_setBytes h

theorem peekCtx_congr {s t : State} {q : Nat} (hcache : t.hod.cache = s.hod.cache) (hmem : t.mem = s.mem) : peekCtx t q = peekCtx s q := by
  have hbytes : memBytes t (ctxAddr q) 32 = memBytes s (ctxAddr q) 32 := List.map_congr_left fun a _ => sameBytes_of_mem hmem a
  rw [peekCtx, peekCtx, hcache, hbytes]

theorem putCtx_rest (s : State) (q c : Nat) : putCtx s q c =
    { s with mem := (putCtx s q c).mem, eccErr := (putCtx s q c).eccErr, hod := { s.hod with cache := (putCtx s q c).hod.cache } } := by
  unfold putCtx
  dsimp only
  split
  · rw [setBytes_rest]
  · rfl

theorem mem_putCtx {s : State} {q c : Nat} (hup : ctxBankUp s = true) : (putCtx s q c).mem = (setBytes s (ctxAddr q) (leBytes 32 c)).mem := by
  unfold putCtx
  rw [if_pos hup]
  exact mem_setBytes_congr rfl _ _

theorem cache_putCtx (s : State) (q c : Nat) :
    (putCtx s q c).hod.cache = if ctxEn c && ctxUrgent c then SMap.set s.hod.cache q c else SMap.del s.hod.cache q := by
  unfold putCtx
  dsimp only
  rw [apply_ite State.hod, setBytes_rest, ite_self]

/-- A context that its bank takes is read as it was stored: whole from the on-die copy, its 32 bytes from the bank. -/
theorem peekCtx_putCtx {s : State} {q c : Nat} (hup : ctxBankUp s = true) :
    peekCtx (putCtx s q c) q = if ctxEn c && ctxUrgent c then c else c % 2 ^ 256 := by
  have hbytes := memBytes_setBytes s (ctxAddr q) (leBytes 32 c)
  rw [leBytes_length] at hbytes
  unfold peekCtx
  rw [cache_putCtx, Subchannels.memBytes_congr (mem_putCtx hup), hbytes, ofLe_leBytes, show 256 ^ 32 = 2 ^ 256 by norm_num]
  split
  · rw [SMap.get_set_self, Option.getD_some]
  · rw [SMap.get_del_self, Option.getD_none]

theorem testBit_peekCtx_putCtx {s : State} {q c i : Nat} (hup : ctxBankUp s = true) (hi : i < 256) :
    (peekCtx (putCtx s q c) q).testBit i = c.testBit i := by
  rw [peekCtx_putCtx hup]
  split
  · rfl
  · rw [Nat.testBit_mod_two_pow, decide_eq_true hi, Bool.true_and]

theorem cf_peekCtx_putCtx {s : State} {q c w hi lo : Nat} (hup : ctxBankUp s = true) (hw : 32 * w + hi < 256) :
    cf (peekCtx (putCtx s q c) q) w hi lo = cf c w hi lo := bits_congr fun _ _ _ => testBit_peekCtx_putCtx hup (by omega)

theorem agrees_putCtx {s : State} {q : Nat} (hup : ctxBankUp s = true) (c : Nat) : Agrees c (peekCtx (putCtx s q c) q) :=
  fun _ hi _ => testBit_peekCtx_putCtx hup hi

/-- The context of `q` reads without an error, whatever it holds (R236). -/
def Readable (s : State) (q : Nat) : Prop := s.eccErr = [] ∧ poisoned s (ctxAddr q / 64) = false

theorem readable_of_clean {s : State} {q : Nat} (h : CleanCtx s q) : Readable s q := ⟨h.1, h.2.1⟩

theorem readCtx_readable {s : State} {q : Nat} (hq : q < 65536) (h : Readable s q) : readCtx s q = (s, peekCtx s q) := by
  obtain ⟨hecc, hpoison⟩ := h
  have hcheck : checkRange s 0 (ctxAddr q) 32 = s := checkRange_sram_clean hecc (by simp [placeOf_ctxAddr hq]) 0 32
  unfold readCtx
  split
  · next c hc => rw [peekCtx, hc, Option.getD_some]
  · simp [hcheck, hpoison]

/-! The frame of work on contexts. -/

/-- From `s` to `t` contexts are stored: nothing changes but memory and its stored errors, the on-die copies, registers and messages. -/
structure Contexts (s t : State) : Prop where
  rest : t = { s with
    regs := t.regs, fypSignals := t.fypSignals, toFlt := t.toFlt, toCsh := t.toCsh, mem := t.mem, eccErr := t.eccErr,
    hod := { s.hod with cache := t.hod.cache },
    pci := { s.pci with sent := t.pci.sent, funcs := t.pci.funcs, l1 := t.pci.l1, writes := t.pci.writes } }
  clean : s.eccErr = [] → t.eccErr = []

section
variable {s t u : State} {q : Nat}

theorem Contexts.refl (s : State) : Contexts s s := ⟨rfl, id⟩

theorem Contexts.trans (h : Contexts s t) (k : Contexts t u) : Contexts s u := by
  refine ⟨?_, fun he => k.clean (h.clean he)⟩
  have hr := h.rest
  have kr := k.rest
  rw [hr] at kr
  exact kr

theorem Contexts.ite {c : Prop} [Decidable c] (ht : Contexts s t) (hu : Contexts s u) : Contexts s (if c then t else u) := by
  split <;> assumption

theorem contexts_of_onPage {pg : Nat} (h : OnPage pg s t) : Contexts s t :=
  ⟨by rw [h.rest], fun he => (congrArg State.eccErr h.rest :).trans he⟩

theorem contexts_putCtx (s : State) (q c : Nat) : Contexts s (putCtx s q c) := by
  refine ⟨by rw [putCtx_rest], fun he => ?_⟩
  unfold putCtx
  dsimp only
  split
  · rw [setBytes_rest, he]
    rfl
  · exact he

theorem Contexts.hod (h : Contexts s t) : t.hod = { s.hod with cache := t.hod.cache } := (congrArg State.hod h.rest :)

theorem Contexts.mortar (h : Contexts s t) : t.mortar = s.mortar := (congrArg State.mortar h.rest :)

theorem Contexts.slots (h : Contexts s t) : t.hod.slots = s.hod.slots := (congrArg Hod.slots h.hod :)

theorem Contexts.inflight (h : Contexts s t) : t.hod.inflight = s.hod.inflight := (congrArg Hod.inflight h.hod :)

theorem Contexts.pushesOf (h : Contexts s t) : pushesOf t q = pushesOf s q := by
  rw [Machine.pushesOf, h.inflight, Machine.pushesOf]

theorem Contexts.islandStatus (h : Contexts s t) (n : Nat) : islandStatus t n = islandStatus s n := by
  rw [h.rest]
  rfl

theorem Contexts.ctxBankUp (h : Contexts s t) : ctxBankUp t = ctxBankUp s := by
  rw [Machine.ctxBankUp, h.islandStatus, Machine.ctxBankUp]

theorem Contexts.readable (h : Contexts s t) (hs : Readable s q) : Readable t q := by
  refine ⟨h.clean hs.1, Eq.trans ?_ hs.2⟩
  rw [h.rest]
  rfl

/-- What an event, a fault or a register does leaves every context. -/
theorem peekCtx_of_onPage {pg : Nat} (h : OnPage pg s t) : peekCtx t q = peekCtx s q :=
  peekCtx_congr (congrArg (fun s : State => s.hod.cache) h.rest :) (mem_of_onPage h)
end

/-! Queue events (R240, R251). -/

/-- From `s` to `t` events of queue `q` occur: bits of its EVT_PEND rise, and messages are sent. -/
structure Occurs (q : Nat) (s t : State) : Prop where
  contexts : Contexts s t
  ctx : ctxBankUp s = true → Agrees (peekCtx s q) (peekCtx t q)
  regs : ∀ off, rd t off = rd s off

section
variable {s t u : State} {q : Nat}

theorem Occurs.refl (q : Nat) (s : State) : Occurs q s s := ⟨.refl s, fun _ => .refl _, fun _ => rfl⟩

theorem Occurs.trans (h : Occurs q s t) (k : Occurs q t u) : Occurs q s u :=
  ⟨h.contexts.trans k.contexts, fun hup => (h.ctx hup).trans (k.ctx (h.contexts.ctxBankUp.trans hup)), fun off => (k.regs off).trans (h.regs off)⟩

/-- What changes messages alone lies within the frame of every page. -/
theorem Occurs.sends (h : Occurs q s t) (k : ∀ pg, OnPage pg t u) : Occurs q s u :=
  ⟨h.contexts.trans (contexts_of_onPage (k 0)), fun hup => (peekCtx_of_onPage (k 0)).symm ▸ h.ctx hup,
    fun off => ((k (off / 0x1000 + 1)).regs off (by omega)).trans (h.regs off)⟩

theorem occurs_pending {b : Nat} (hb : b < 5) : Occurs q s (putCtx s q (putBit (peekCtx s q) (32 * 6 + 8 + b) true)) := by
  refine ⟨contexts_putCtx _ _ _, fun hup => Agrees.trans (fun i _ hp => ?_) (agrees_putCtx hup _), fun _ => by rw [putCtx_rest]; rfl⟩
  rw [putBit, testBit_putBits, if_neg (by omega)]

theorem occurs_queueEvent {b : Nat} (hb : b < 5) : Occurs q s (queueEvent s q b) := by
  have hnoted := occurs_pending (s := s) (q := q) hb
  have hrecord {w : State} {x : Occurrence} {c : Prop} [Decidable c] (h : Occurs q s w) : Occurs q s (if c then toRecorder w x else w) := by
    split
    · exact h.sends fun _ => onPage_toRecorder x
    · exact h
  unfold queueEvent
  dsimp only
  split
  · exact .refl q s
  · refine hrecord ?_
    split
    · exact hnoted
    · split
      · exact hnoted.sends fun _ => onPage_sendMsix _ _
      · exact hnoted.sends fun _ => onPage_sendMsix _ _
      · exact hnoted

theorem occurs_queueEvents (s : State) (q d0 d1 : Nat) (refused : Bool) : Occurs q s (queueEvents s q d0 d1 refused) := by
  unfold queueEvents
  refine List.foldlRecOn (motive := Occurs q s) _ _ (.refl q s) fun t ht b hb => ht.trans (occurs_queueEvent ?_)
  simp only [List.mem_append, List.mem_ite_nil_right, List.mem_singleton] at hb
  omega
end

end Sys2Proof.Queues
end

section
/-! Cycles of a queue: a push in the ring with a pop, and the commit of a push that carries data (07 R228 to R231, R238 to R240, R245). -/
namespace Sys2Proof.Queues
open Sys2Proof Sys2Proof.Machine Sys2Proof.Laws Sys2Proof.Claims Sys2Proof.RegisterPages Sys2Proof.PowerUp

/-! A push in the ring and a pop (R228, R230, R231). -/

/-- A push of `n` entries does not fit (R228). -/
def isFull (c n : Nat) : Bool := decide (ctxDepth c + ctxResv c + n > ctxCap c)

/-- The entries that a push of `n` adds. -/
def admitted (c n : Nat) : Nat := if isFull c n then 0 else n

/-- The context after a cycle that adds `k` entries and takes `m`. -/
def cycledCtx (c k m : Nat) : Nat :=
  cput (cput (cput c 2 31 16 ((ctxTail c + k) % ctxCap c)) 2 15 0 ((ctxHead c + m) % ctxCap c)) 3 16 0 (ctxDepth c + k - m)

/-- The counts of a cycle. -/
def counted (s : State) (full : Bool) (n m : Nat) : State :=
  let s := if full then bump s R.HOD_REFUSED 31 0 1 else if n = 0 then s else bump s R.HOD_PUSHES 31 0 1
  if m = 0 then s else bump s R.HOD_POPS 31 0 1

section
variable {s t : State} {c k m n q : Nat}

theorem hodCycle_eq (s : State) (q n m : Nat) :
    hodCycle s q n m =
      (queueEvents (counted (putCtx s q (cycledCtx (peekCtx s q) (admitted (peekCtx s q) n) m)) (isFull (peekCtx s q) n) n m) q (ctxDepth (peekCtx s q))
        (ctxDepth (peekCtx s q) + admitted (peekCtx s q) n - m) (isFull (peekCtx s q) n), if isFull (peekCtx s q) n then HS.full else HS.ok) := rfl

theorem onPage_counted (s : State) (full : Bool) (n m : Nat) : OnPage P.hod s (counted s full n m) := by
  have hbump (u : State) (off : Nat) (h : off / 0x1000 = P.hod) : OnPage P.hod u (bump u off 31 0 1) := onPage_bump h
  have hpush := OnPage.ite (c := full = true) (hbump s R.HOD_REFUSED (by decide)) (.ite (c := n = 0) (.refl _ s) (hbump s R.HOD_PUSHES (by decide)))
  exact .ite hpush (hpush.trans (hbump _ _ (by decide)))

theorem hodCycle_status (s : State) (q n m : Nat) : (hodCycle s q n m).2 = if isFull (peekCtx s q) n then HS.full else HS.ok := by
  rw [hodCycle_eq]

theorem contexts_hodCycle (s : State) (q n m : Nat) : Contexts s (hodCycle s q n m).1 := by
  rw [hodCycle_eq]
  exact ((contexts_putCtx _ _ _).trans (contexts_of_onPage (onPage_counted _ _ _ _))).trans (occurs_queueEvents _ _ _ _ _).contexts

theorem agrees_hodCycle (hup : ctxBankUp s = true) (n m : Nat) :
    Agrees (cycledCtx (peekCtx s q) (admitted (peekCtx s q) n) m) (peekCtx (hodCycle s q n m).1 q) := by
  have hput := agrees_putCtx (q := q) hup (cycledCtx (peekCtx s q) (admitted (peekCtx s q) n) m)
  have hpage := onPage_counted (putCtx s q (cycledCtx (peekCtx s q) (admitted (peekCtx s q) n) m)) (isFull (peekCtx s q) n) n m
  rw [← peekCtx_of_onPage hpage] at hput
  rw [hodCycle_eq]
  exact hput.trans ((occurs_queueEvents _ _ _ _ _).ctx ((contexts_of_onPage hpage).ctxBankUp.trans ((contexts_putCtx _ _ _).ctxBankUp.trans hup)))

theorem cap_le (c : Nat) : ctxCap c ≤ 2 ^ 16 := Nat.pow_le_pow_right (by decide) (by omega)

theorem depth_lt (c : Nat) : ctxDepth c < 2 ^ 17 := cf_lt c 3 16 0

/-- An index taken modulo the capacity fits its field. -/
theorem index_mod (x c : Nat) : x % ctxCap c % 2 ^ 16 = x % ctxCap c :=
  Nat.mod_eq_of_lt (Nat.lt_of_lt_of_le (Nat.mod_lt _ (Nat.two_pow_pos _)) (cap_le c))

theorem depth_cycledCtx (h : ctxDepth c + k - m < 2 ^ 17) : ctxDepth (cycledCtx c k m) = ctxDepth c + k - m := by
  rw [ctxDepth, cycledCtx, cf_cput_self]
  exact Nat.mod_eq_of_lt h

theorem head_cycledCtx (c k m : Nat) : ctxHead (cycledCtx c k m) = (ctxHead c + m) % ctxCap c := by
  rw [ctxHead, cycledCtx, cf_cput_ne (by decide), cf_cput_self]
  exact index_mod _ c

theorem tail_cycledCtx (c k m : Nat) : ctxTail (cycledCtx c k m) = (ctxTail c + k) % ctxCap c := by
  rw [ctxTail, cycledCtx, cf_cput_ne (by decide), cf_cput_ne (by decide), cf_cput_self]
  exact index_mod _ c

/-- A refused push is counted in HOD_REFUSED, which saturates. -/
theorem refused_hodCycle (h : isFull (peekCtx s q) n = true) :
    rf (hodCycle s q n 0).1 R.HOD_REFUSED 31 0 = min (2 ^ 32 - 1) (rf s R.HOD_REFUSED 31 0 + 1) := by
  have hput (x : Nat) : rf (putCtx s q x) R.HOD_REFUSED 31 0 = rf s R.HOD_REFUSED 31 0 := by
    rw [putCtx_rest]
    rfl
  rw [hodCycle_eq, rf, (occurs_queueEvents _ _ _ _ _).regs, counted, h, if_pos rfl, if_pos rfl]
  exact (rf_wf_self (by decide)).trans (by rw [hput, satAdd]; omega)

/-! The time of an urgent admission (R245). -/

theorem onPage_urgentTime (s : State) (q c cycles : Nat) : OnPage P.hod s (urgentTime s q c cycles) := by
  have hpeak (x y : Nat) : OnPage P.hod s (wf (wf s R.HOD_URGENT_PEAK 7 0 x) R.HOD_URGENT_PEAK 15 8 y) :=
    .trans (onPage_wf (by decide)) (onPage_wf (by decide))
  have hnoted := OnPage.ite (c := cycles > rf s R.HOD_URGENT_PEAK 7 0) (hpeak (min cycles 255) (ctxSlot c)) (.refl P.hod s)
  exact .ite (.refl _ s) (.ite ((hnoted.trans (onPage_hwFault _ _)).trans (onPage_raise _)) hnoted)

/-- The push half of a cycle, with the time of its admission. -/
def timed (s : State) (q c n m cycles : Nat) : State :=
  if (hodCycle s q n m).2 = HS.ok then urgentTime (hodCycle s q n m).1 q c cycles else (hodCycle s q n m).1

theorem onPage_timed (s : State) (q c n m cycles : Nat) : OnPage P.hod (hodCycle s q n m).1 (timed s q c n m cycles) :=
  .ite (onPage_urgentTime _ _ _ _) (.refl _ _)

theorem contexts_timed (s : State) (q c n m cycles : Nat) : Contexts s (timed s q c n m cycles) :=
  (contexts_hodCycle s q n m).trans (contexts_of_onPage (onPage_timed s q c n m cycles))

theorem agrees_timed (hup : ctxBankUp s = true) (x n m cycles : Nat) :
    Agrees (cycledCtx (peekCtx s q) (admitted (peekCtx s q) n) m) (peekCtx (timed s q x n m cycles) q) := by
  rw [peekCtx_of_onPage (onPage_timed s q x n m cycles)]
  exact agrees_hodCycle hup n m

theorem timed_of_full (h : isFull (peekCtx s q) n = true) (c m cycles : Nat) : timed s q c n m cycles = (hodCycle s q n m).1 := by
  rw [timed, hodCycle_status, h, if_pos rfl]
  exact if_neg (by decide)

/-! The commit of a push (R229, R239). -/

/-- The context after the commit of `k` reserved entries with a pop of `m`. -/
def committedCtx (c k m : Nat) : Nat :=
  cput (cput (cput c 4 16 0 (ctxResv c - k)) 2 15 0 ((ctxHead c + m) % ctxCap c)) 3 16 0 (ctxDepth c + k - m)

/-- The push has left the pushes in flight. -/
def withdrawn (s : State) (p : Push) : State := { s with hod := { s.hod with inflight := s.hod.inflight.erase p } }

/-- The state in which push `p` of queue `q` is committed and counted, before its events. -/
def committed (s : State) (q : Nat) (p : Push) : State :=
  bump (withdrawn (putCtx s q (committedCtx (peekCtx s q) p.count 0)) p) R.HOD_PUSHES 31 0 1

theorem commitCycle_eq (hq : q < 65536) (hr : Readable s q) {p : Push} {ps : List Push} (hp : pushesOf s q = p :: ps) :
    commitCycle s q 0 = queueEvents (committed s q p) q (ctxDepth (peekCtx s q)) (ctxDepth (peekCtx s q) + p.count - 0) false := by
  unfold commitCycle
  dsimp only
  rw [readCtx_readable hq hr, hp]
  rfl

theorem contexts_committed (s : State) (q : Nat) (p : Push) : Contexts (withdrawn s p) (committed s q p) := by
  have hput := contexts_putCtx s q (committedCtx (peekCtx s q) p.count 0)
  have hstored : Contexts (withdrawn s p) (withdrawn (putCtx s q (committedCtx (peekCtx s q) p.count 0)) p) := by
    refine ⟨?_, hput.clean⟩
    rw [putCtx_rest]
    rfl
  exact hstored.trans (contexts_of_onPage (onPage_bump (pg := P.hod) (by decide)))

theorem contexts_commitCycle (hq : q < 65536) (hr : Readable s q) {p : Push} {ps : List Push} (hp : pushesOf s q = p :: ps) :
    Contexts (withdrawn s p) (commitCycle s q 0) := by
  rw [commitCycle_eq hq hr hp]
  exact (contexts_committed s q p).trans (occurs_queueEvents _ _ _ _ _).contexts

theorem agrees_commitCycle (hq : q < 65536) (hr : Readable s q) (hup : ctxBankUp s = true) {p : Push} {ps : List Push} (hp : pushesOf s q = p :: ps) :
    Agrees (committedCtx (peekCtx s q) p.count 0) (peekCtx (commitCycle s q 0) q) := by
  have hput := agrees_putCtx (q := q) hup (committedCtx (peekCtx s q) p.count 0)
  have hstored : peekCtx (committed s q p) q = peekCtx (putCtx s q (committedCtx (peekCtx s q) p.count 0)) q := peekCtx_congr rfl rfl
  have hbank : ctxBankUp (committed s q p) = true := (contexts_committed s q p).ctxBankUp.trans hup
  rw [← hstored] at hput
  rw [commitCycle_eq hq hr hp]
  exact hput.trans ((occurs_queueEvents _ _ _ _ _).ctx hbank)

/-- A commit takes the oldest push of its queue out of those in flight. -/
theorem pushesOf_commitCycle (hq : q < 65536) (hr : Readable s q) {p : Push} {ps : List Push} (hp : pushesOf s q = p :: ps) :
    pushesOf (commitCycle s q 0) q = ps := by
  have herase : pushesOf (withdrawn s p) q = (pushesOf s q).erase p := List.erase_filter.symm
  rw [(contexts_commitCycle hq hr hp).pushesOf, herase, hp, List.erase_cons_head]
end

end Sys2Proof.Queues
end

section
/-! Word W1 of a context: what a write of it stores, and the ends of EN (07 R224 to R227). -/
namespace Sys2Proof.Queues
open Sys2Proof Sys2Proof.Machine Sys2Proof.Laws Sys2Proof.Claims Sys2Proof.RegisterPages Sys2Proof.PowerUp

/-! The bytes of a context. -/

theorem ofLe_append (as bs : List Byte) : ofLe (as ++ bs) = ofLe as + 256 ^ as.length * ofLe bs := by
  induction as with
  | nil => simp [ofLe]
  | cons a as ih =>
    simp only [List.cons_append, ofLe, ih, List.length_cons, Nat.pow_succ]
    ring

theorem take_leBytes {k n : Nat} (h : k ≤ n) (v : Nat) : (leBytes n v).take k = leBytes k v := by
  induction k generalizing n v with
  | zero => rfl
  | succ k ih =>
    obtain ⟨n, rfl⟩ := Nat.exists_eq_add_of_le' (Nat.one_le_of_lt h)
    rw [leBytes, List.take_succ_cons, ih (by omega), leBytes]

theorem drop_leBytes (k n v : Nat) : (leBytes n v).drop k = leBytes (n - k) (v / 256 ^ k) := by
  induction k generalizing n v with
  | zero => simp
  | succ k ih =>
    cases n with
    | zero => simp [leBytes]
    | succ n => rw [leBytes, List.drop_succ_cons, ih, Nat.div_div_eq_div_mul, Nat.pow_succ', Nat.add_sub_add_right]

/-- A context with word W1 written. -/
abbrev withW1 (c w : Nat) : Nat := putBits c 63 32 w

section
variable {s : State} {c q w : Nat} {req : Req}

theorem ofLe_putBytes_w1 (hc : c < 2 ^ 256) : ofLe (putBytes (leBytes 32 c) 4 (leBytes 4 w)) = withW1 c w := by
  rw [putBytes, ofLe_append, ofLe_append, leBytes_length, take_leBytes (by decide), drop_leBytes, List.length_append, leBytes_length, leBytes_length,
    ofLe_leBytes, ofLe_leBytes, ofLe_leBytes]
  simp only [withW1, putBits, bits, Nat.shiftRight_eq_div_pow, Nat.shiftLeft_eq]
  norm_num
  omega

theorem testBit_withW1 (c w i : Nat) : (withW1 c w).testBit i = if 32 ≤ i ∧ i ≤ 63 then w.testBit (i - 32) else c.testBit i := testBit_putBits c 63 32 w i

theorem cf_withW1 (c : Nat) {w w' hi lo : Nat} (h : 32 * w' + hi < 32 ∨ 63 < 32 * w' + lo) : cf (withW1 c w) w' hi lo = cf c w' hi lo :=
  bits_congr fun i _ _ => by rw [testBit_withW1, if_neg (by omega)]

theorem log2_withW1 (c w : Nat) : ctxLog2 (withW1 c w) = bits w 20 16 := by
  refine Nat.eq_of_testBit_eq fun i => ?_
  rw [ctxLog2, cf, testBit_bits, testBit_bits, testBit_withW1]
  by_cases h : i < 5
  · rw [if_pos (by omega), show 32 * 1 + 16 + i - 32 = 16 + i by omega]
  · simp [h]

theorem en_withW1 (c w : Nat) : ctxEn (withW1 c w) = bit w 31 := by rw [ctxEn, bit, testBit_withW1, if_pos (by decide), bit]

theorem urgent_withW1 (c w : Nat) : ctxUrgent (withW1 c w) = bit w 28 := by rw [ctxUrgent, bit, testBit_withW1, if_pos (by decide), bit]

/-- No reserved bit of W1 is written 1. -/
theorem reserved_withW1 (h : w &&& 0x08E00000 = 0) (c : Nat) : withW1 c w &&& (2 ^ (8 * 4) - 1) * 2 ^ (8 * 4) &&& ctxReserved = 0 := by
  have hmask : (2 ^ (8 * 4) - 1) * 2 ^ (8 * 4) &&& ctxReserved = 0x08E00000 <<< 32 := by decide +kernel
  refine Nat.eq_of_testBit_eq fun i => ?_
  rw [Nat.and_assoc, hmask, Nat.testBit_and, Nat.testBit_shiftLeft, testBit_withW1, Nat.zero_testBit]
  by_cases h32 : 32 ≤ i
  · by_cases h63 : i ≤ 63
    · have hbit := congrArg (·.testBit (i - 32)) h
      simpa [h32, h63] using hbit
    · have hpow : 2 ^ 28 ≤ 2 ^ (i - 32) := Nat.pow_le_pow_right (by decide) (by omega)
      have hbig : Nat.testBit 0x08E00000 (i - 32) = false := Nat.testBit_lt_two_pow (Nat.lt_of_lt_of_le (by decide) hpow)
      simp [hbig]
  · simp [h32]

/-- No field that is RO is changed. -/
theorem ro_withW1 (c w : Nat) : (withW1 c w ^^^ c) &&& ctxRo = 0 := by
  have hro : ctxRo = (0xFFFFFFFF + 2 ^ 32 * 0x0001FFFF + 2 ^ 64 * 0xFF61FFFF) <<< 64 := by decide +kernel
  refine Nat.eq_of_testBit_eq fun i => ?_
  rw [hro, Nat.testBit_and, Nat.testBit_shiftLeft, Nat.testBit_xor, testBit_withW1, Nat.zero_testBit]
  by_cases h : 64 ≤ i
  · rw [if_neg (by omega)]
    simp
  · simp [h]

/-- What a legal write of W1 does: EN with 1 enables the queue, EN from 1 to 0 disables it (R225 to R227). -/
theorem ctxWrite_w1 (hq : q < 65536) (h : CleanCtx s q) (hres : w &&& 0x08E00000 = 0) (hlo : 3 ≤ bits w 20 16) (hhi : bits w 20 16 ≤ 16) :
    ctxWrite s req q 4 (leBytes 4 w) =
      if bit w 31 then enableQueue s req q (withW1 (peekCtx s q) w)
      else if ctxEn (peekCtx s q) then disableQueue s q (withW1 (peekCtx s q) w)
      else putCtx s q (withW1 (peekCtx s q) w) := by
  have hmiss : cf ((2 ^ (8 * 4) - 1) * 2 ^ (8 * 4)) 3 31 24 = 0 ∧ cf ((2 ^ (8 * 4) - 1) * 2 ^ (8 * 4)) 4 18 17 = 0
      ∧ cf ((2 ^ (8 * 4) - 1) * 2 ^ (8 * 4)) 4 22 21 = 0 ∧ cf ((2 ^ (8 * 4) - 1) * 2 ^ (8 * 4)) 6 14 13 = 0
      ∧ cf ((2 ^ (8 * 4) - 1) * 2 ^ (8 * 4)) 6 26 16 = 0 ∧ cf ((2 ^ (8 * 4) - 1) * 2 ^ (8 * 4)) 6 12 8 = 0 := by decide +kernel
  obtain ⟨hslot, hprod, hstate, htarget, hvector, hevents⟩ := hmiss
  have hen : cf ((2 ^ (8 * 4) - 1) * 2 ^ (8 * 4)) 1 31 31 ≠ 0 := by decide +kernel
  have hpend : cput (withW1 (peekCtx s q) w) 6 12 8 (cf (peekCtx s q) 6 12 8 &&& 31) = withW1 (peekCtx s q) w := by
    rw [show 31 = 2 ^ 5 - 1 from rfl, Nat.and_two_pow_sub_one_of_lt_two_pow (cf_lt _ 6 12 8),
      ← cf_withW1 (peekCtx s q) (w := w) (w' := 6) (hi := 12) (lo := 8) (by decide)]
    exact cput_cf _ _ _ _
  unfold ctxWrite
  dsimp only
  rw [readCtx_readable hq (readable_of_clean h), leBytes_length, ofLe_putBytes_w1 h.2.2, reserved_withW1 hres, ro_withW1]
  simp only [hslot, hprod, hstate, htarget, hvector, hevents, hen, log2_withW1, Nat.not_lt.2 hlo, Nat.not_lt.2 hhi, en_withW1, hpend, ne_eq, not_true_eq_false,
    not_false_eq_true, decide_false, decide_true, Bool.false_and, Bool.and_false, Bool.or_self, Bool.false_eq_true, if_false, Nat.and_zero, Nat.xor_zero,
    Bool.or_true, Bool.and_true]
  cases bit w 31 <;> simp
end

/-! The ends of EN (R226, R227). -/

section
variable {s : State} {c q cause : Nat} {req : Req}

theorem bit_putBit_self (v i : Nat) (b : Bool) : bit (putBit v i b) i = b := by
  rw [bit, putBit, testBit_putBits, if_pos (by simp), Nat.sub_self]
  cases b <;> rfl

theorem ctxBankUp_of_table (h : tableRefusal s 1 = none) : ctxBankUp s = true := by
  unfold tableRefusal at h
  split at h
  · cases h
  · split at h
    · cases h
    · next hup => simpa [ctxBankUp] using hup

/-- The pushes of queue `q` have left those in flight. -/
def dropPushes (s : State) (q : Nat) : State := { s with hod := { s.hod with inflight := s.hod.inflight.filter (·.queue ≠ q) } }

theorem detach_eq (s : State) (q cause : Nat) :
    detach s q cause = raise (setReg (dropPushes (putCtx s q (cput (cput (peekCtx s q) 4 22 21 2) 4 31 24 cause)) q) R.HOD_LAST_DETACHED
      (BitVec.ofNat 32 (q % 65536 + cause * 65536))) P.hod 8 := by
  rw [detach]
  rfl

theorem peekCtx_detach (s : State) (q cause : Nat) :
    peekCtx (detach s q cause) q = peekCtx (putCtx s q (cput (cput (peekCtx s q) 4 22 21 2) 4 31 24 cause)) q := by
  have hdropped (u : State) : peekCtx (dropPushes u q) q = peekCtx u q := peekCtx_congr rfl rfl
  rw [detach_eq, peekCtx_of_onPage (onPage_raise 8), peekCtx_of_onPage (onPage_setReg (pg := P.hod) (by decide)), hdropped]

theorem state_detach (hup : ctxBankUp s = true) : ctxState (peekCtx (detach s q cause) q) = 2 := by
  rw [peekCtx_detach, ctxState, cf_peekCtx_putCtx hup (by decide), cf_cput_ne (by decide), cf_cput_self]
  rfl

theorem enableQueue_active (hslot : slotHeld s q c = false) (hring : ringOk s c = true) :
    enableQueue s req q c = putCtx s q (cput (cput c 4 22 21 1) 4 31 24 0) := by
  rw [enableQueue, hslot, hring]
  rfl

theorem enableQueue_detached (hslot : slotHeld s q c = false) (hring : ringOk s c = false) : enableQueue s req q c = detach (putCtx s q c) q 1 := by
  rw [enableQueue, hslot, hring]
  rfl

/-- No other enabled queue holds the urgent slot. -/
theorem slotHeld_withW1 {w : Nat} (h : bit w 28 = true → ∀ e ∈ s.hod.cache, e.1 = q ∨ ctxSlot e.2 ≠ ctxSlot c) : slotHeld s q (withW1 c w) = false := by
  rw [slotHeld, urgent_withW1, ctxSlot, cf_withW1 c (by decide)]
  cases hb : bit w 28 with
  | false => rfl
  | true =>
    rw [Bool.true_and, List.any_eq_false]
    intro e he
    have := h hb e he
    simp only [Bool.and_eq_true, decide_eq_true_eq, not_and]
    exact fun hne => this.resolve_left hne
end

section
variable {s : State} {q : Nat} {req : Req} {w1 : W32}

theorem exec_queueEnable (hq : q < 65536) (h : CleanCtx s q) (hpage : tableRefusal s 1 = none) (hres : putBit w1.toNat 31 true &&& 0x08E00000 = 0)
    (hlo : 3 ≤ bits (putBit w1.toNat 31 true) 20 16) (hhi : bits (putBit w1.toNat 31 true) 20 16 ≤ 16) :
    exec (.queueEnable req q w1) s = .next (enableQueue s req q (withW1 (peekCtx s q) (putBit w1.toNat 31 true))) := by
  show execQueueEnable req q w1 s = _
  rw [execQueueEnable, Nat.mod_eq_of_lt hq, writeW1, hpage]
  dsimp only
  rw [ctxWrite_w1 hq h hres hlo hhi, if_pos (bit_putBit_self _ _ _)]

theorem exec_queueDisable (hq : q < 65536) (h : CleanCtx s q) (hpage : tableRefusal s 1 = none) (hres : putBit w1.toNat 31 false &&& 0x08E00000 = 0)
    (hlo : 3 ≤ bits (putBit w1.toNat 31 false) 20 16) (hhi : bits (putBit w1.toNat 31 false) 20 16 ≤ 16) (hen : ctxEn (peekCtx s q) = true) :
    exec (.queueDisable req q w1) s = .next (disableQueue s q (withW1 (peekCtx s q) (putBit w1.toNat 31 false))) := by
  show execQueueDisable req q w1 s = _
  rw [execQueueDisable, Nat.mod_eq_of_lt hq, writeW1, hpage]
  dsimp only
  rw [ctxWrite_w1 hq h hres hlo hhi, if_neg (by simp [bit_putBit_self]), if_pos hen]

theorem runs_queueEnable_active (hq : q < 65536) (h : CleanCtx s q) (hpage : tableRefusal s 1 = none) (hres : putBit w1.toNat 31 true &&& 0x08E00000 = 0)
    (hlo : 3 ≤ bits (putBit w1.toNat 31 true) 20 16) (hhi : bits (putBit w1.toNat 31 true) 20 16 ≤ 16)
    (hslot : bit (putBit w1.toNat 31 true) 28 = true → ∀ e ∈ s.hod.cache, e.1 = q ∨ ctxSlot e.2 ≠ ctxSlot (peekCtx s q))
    (hring : ringOk s (withW1 (peekCtx s q) (putBit w1.toNat 31 true)) = true) : Runs (.queueEnable req q w1) s fun t =>
      ctxEn (peekCtx t q) = true ∧ ctxState (peekCtx t q) = 1 ∧ ctxDepth (peekCtx t q) = ctxDepth (peekCtx s q) := by
  have hup := ctxBankUp_of_table hpage
  refine ⟨_, (exec_queueEnable hq h hpage hres hlo hhi).trans (congrArg _ (enableQueue_active (slotHeld_withW1 hslot) hring)), ?_, ?_, ?_⟩
  · rw [ctxEn, bit, testBit_peekCtx_putCtx hup (by decide), ← bit, bit_cput_ne (by decide), bit_cput_ne (by decide)]
    exact (en_withW1 _ _).trans (bit_putBit_self _ _ _)
  · rw [ctxState, cf_peekCtx_putCtx hup (by decide), cf_cput_ne (by decide), cf_cput_self]
    rfl
  · rw [ctxDepth, cf_peekCtx_putCtx hup (by decide), cf_cput_ne (by decide), cf_cput_ne (by decide), cf_withW1 _ (by decide)]

theorem runs_queueEnable_detached (hq : q < 65536) (h : CleanCtx s q) (hpage : tableRefusal s 1 = none) (hres : putBit w1.toNat 31 true &&& 0x08E00000 = 0)
    (hlo : 3 ≤ bits (putBit w1.toNat 31 true) 20 16) (hhi : bits (putBit w1.toNat 31 true) 20 16 ≤ 16)
    (hslot : bit (putBit w1.toNat 31 true) 28 = true → ∀ e ∈ s.hod.cache, e.1 = q ∨ ctxSlot e.2 ≠ ctxSlot (peekCtx s q))
    (hring : ringOk s (withW1 (peekCtx s q) (putBit w1.toNat 31 true)) = false) : Runs (.queueEnable req q w1) s fun t =>
      ctxState (peekCtx t q) = 2 ∧ Raised t P.hod 8 :=
  ⟨_, (exec_queueEnable hq h hpage hres hlo hhi).trans (congrArg _ (enableQueue_detached (slotHeld_withW1 hslot) hring)),
    state_detach ((contexts_putCtx _ _ _).ctxBankUp.trans (ctxBankUp_of_table hpage)), rb_raise _ _ (by decide)⟩

theorem runs_queueDisable (hq : q < 65536) (h : CleanCtx s q) (hpage : tableRefusal s 1 = none) (hen : ctxEn (peekCtx s q) = true)
    (hpushes : pushesOf s q = []) (hres : putBit w1.toNat 31 false &&& 0x08E00000 = 0)
    (hlo : 3 ≤ bits (putBit w1.toNat 31 false) 20 16) (hhi : bits (putBit w1.toNat 31 false) 20 16 ≤ 16) : Runs (.queueDisable req q w1) s fun t =>
      ctxEn (peekCtx t q) = false ∧ ctxState (peekCtx t q) = 0 ∧ ctxDepth (peekCtx t q) = ctxDepth (peekCtx s q) := by
  have hup := ctxBankUp_of_table hpage
  have hstored (c : Nat) : disableQueue s q c = putCtx s q (cput c 4 22 21 0) := if_pos (by rw [hpushes]; rfl)
  refine ⟨_, (exec_queueDisable hq h hpage hres hlo hhi hen).trans (congrArg _ (hstored _)), ?_, ?_, ?_⟩
  · rw [ctxEn, bit, testBit_peekCtx_putCtx hup (by decide), ← bit, bit_cput_ne (by decide)]
    exact (en_withW1 _ _).trans (bit_putBit_self _ _ _)
  · rw [ctxState, cf_peekCtx_putCtx hup (by decide), cf_cput_self]
    rfl
  · rw [ctxDepth, cf_peekCtx_putCtx hup (by decide), cf_cput_ne (by decide), cf_withW1 _ (by decide)]
end

end Sys2Proof.Queues
end

section
/-! Doorbells, commits and the end of a disable (07 R227, R229, R241, R242, R247, R248). -/
namespace Sys2Proof.Queues
open Sys2Proof Sys2Proof.Machine Sys2Proof.Laws Sys2Proof.Claims Sys2Proof.RegisterPages Sys2Proof.PowerUp

/-! Hod takes an operation where no urgent operation waits. -/

section
variable {s : State} {c q n : Nat} {req : Req}

theorem takeQueue_readable (hq : q < 65536) (h : Readable s q) (hslots : s.hod.slots = []) : takeQueue s q = (s, peekCtx s q) := by
  have hfirst : urgentFirst s (peekCtx s q) = s := by
    rw [urgentFirst, hslots]
    rfl
  rw [takeQueue, readCtx_readable hq h]
  exact Prod.ext hfirst (congrArg (peekCtx · q) hfirst)

theorem heldPush_nil (hslots : s.hod.slots = []) (q c : Nat) : heldPush s q c = { queue := q } := by
  rw [heldPush, hslots]
  exact ite_self _

theorem dropHeld_nil (hslots : s.hod.slots = []) (q c : Nat) : dropHeld s q c = s := by
  rw [dropHeld, hslots]
  exact if_neg (by simp [SMap.get])

/-- A push waits alone in the slot of its queue. -/
theorem slots_holdPush (hslots : s.hod.slots = []) (q c n : Nat) (ps : List (Req × List (List Byte) × List Nat)) :
    (holdPush s q c n ps).hod.slots.get (ctxSlot c) = some { queue := q, count := n, pushes := ps } := by
  rw [holdPush, heldPush_nil hslots, updSlots]
  dsimp only
  rw [SMap.get_set_self, Nat.zero_add, List.nil_append]

theorem hodStops_false (h : hodStops s = false) : ctxBankUp s = true := by
  simpa [hodStops, ctxBankUp] using (Bool.or_eq_false_iff.1 h).2

theorem hodStops_putCtx (s : State) (q c : Nat) : hodStops (putCtx s q c) = hodStops s := by
  rw [putCtx_rest]
  rfl

/-- A command that presents no request is done at once. -/
theorem runs_of_servesIf {i : Instr} {f : State → State} {t : State} {P : State → Prop} (hexec : exec i s = servesIf f s) (hwork : f s = t)
    (hmortar : t.mortar = s.mortar) (hP : P t) : Runs i s P :=
  ⟨t, hexec.trans ((if_pos (by rw [hwork, hmortar])).trans (congrArg _ hwork)), hP⟩
end

/-! The word of a doorbell (R247). -/

theorem doorbell_fields {n ack : Nat} (hn : n < 2 ^ 17) (hack : ack < 32) (op : Bool) :
    bits (n + b2n op * 2 ^ 17 + ack * 2 ^ 24) 16 0 = n ∧ bits (n + b2n op * 2 ^ 17 + ack * 2 ^ 24) 23 18 = 0
      ∧ bits (n + b2n op * 2 ^ 17 + ack * 2 ^ 24) 63 29 = 0 ∧ bits (n + b2n op * 2 ^ 17 + ack * 2 ^ 24) 28 24 = ack
      ∧ bit (n + b2n op * 2 ^ 17 + ack * 2 ^ 24) 17 = op := by
  simp only [bits, bit, Nat.testBit_eq_decide_div_mod_eq, Nat.shiftRight_eq_div_pow]
  cases op
  · simp only [b2n, Bool.false_eq_true, if_false, decide_eq_false_iff_not]
    omega
  · simp only [b2n, if_true, decide_eq_true_eq]
    omega

section
variable {s : State} {q n ack cycles : Nat} {req : Req} {meet : HodMeet}

/-- A doorbell that Hod takes from a requester that may ring it: its ACK, then its push or its pop (R247, R248). -/
theorem doorbell_taken (hq : q < 65536) (h : Readable s q) (hslots : s.hod.slots = []) (hn : n ≤ 65536) (hack : ack < 32) (op : Bool)
    (hen : ctxEn (peekCtx s q) = true) (hstop : hodStops s = false) (hpart : otherPart s req (peekCtx s q) = false) :
    doorbell s req q (n + b2n op * 2 ^ 17 + ack * 2 ^ 24) cycles meet =
      if !op then (if n = 0 then ackQueue s q ack else doorbellPush (ackQueue s q ack) req q (peekCtx s q) n 0 cycles)
      else if n = 0 ∨ ctxState (peekCtx s q) = 2 then meetCycle (ackQueue s q ack) q 0 meet
      else if ctxCons (peekCtx s q) ≠ 0 then meetCycle (fault (ackQueue s q ack) P.hod 6 req q none) q 0 meet
      else if n > ctxDepth (peekCtx s q) then meetCycle (fault (ackQueue s q ack) P.hod 0x0A req q none) q 0 meet
      else meetCycle (ackQueue s q ack) q n meet := by
  obtain ⟨hcount, hlow, hhigh, hbits, hop⟩ := doorbell_fields (n := n) (by omega) hack op
  have hacked : hodStops (ackQueue s q ack) = false := by
    unfold ackQueue
    dsimp only
    split
    · exact hstop
    · exact (hodStops_putCtx _ _ _).trans hstop
  unfold doorbell
  simp only [hcount, hlow, hhigh, hbits, hop, takeQueue_readable hq h hslots, hen, hpart, hacked, Nat.not_lt.2 hn]
  simp

theorem ackQueue_zero (s : State) (q : Nat) : ackQueue s q 0 = s := by
  unfold ackQueue
  exact if_pos rfl

theorem doorbellPush_taken {c : Nat} (hslots : s.hod.slots = []) (hen : ctxEn c = true) (hstop : hodStops s = false) (hstate : ctxState c ≠ 2)
    (hprod : ctxProd c = 0 ∨ ctxProd c = 2) (hn : n ≠ 0) : doorbellPush s req q c n 0 cycles = timed s q c n 0 cycles := by
  unfold doorbellPush
  dsimp only
  rw [if_neg (by simp [hen, hstop]), if_neg (by simp [hn, hstate]), if_neg (by omega), dropHeld_nil hslots, heldPush_nil hslots]
  rfl

/-- A doorbell's push does a cycle, whose admission is timed. -/
theorem runs_doorbellPushed {P : State → Prop} (hq : q < 65536) (h : Readable s q) (hslots : s.hod.slots = []) (hen : ctxEn (peekCtx s q) = true)
    (hstop : hodStops s = false) (hpart : otherPart s req (peekCtx s q) = false) (hstate : ctxState (peekCtx s q) ≠ 2)
    (hprod : ctxProd (peekCtx s q) = 0 ∨ ctxProd (peekCtx s q) = 2) (h1 : 1 ≤ n) (hn : n ≤ 65536) (hP : P (timed s q (peekCtx s q) n 0 cycles)) :
    Runs (.doorbellPushed req q n 0 cycles false) s P := by
  have hword : n % 2 ^ 17 + 0 % 32 * 2 ^ 24 = n + b2n false * 2 ^ 17 + 0 * 2 ^ 24 := by rw [Nat.mod_eq_of_lt (by omega)]; rfl
  have hwork : doorbellPushed req q n 0 cycles false s = timed s q (peekCtx s q) n 0 cycles := by
    unfold doorbellPushed
    dsimp only
    rw [Nat.mod_eq_of_lt hq, hword, doorbell_taken hq h hslots hn (by decide) false hen hstop hpart, ackQueue_zero]
    simp only [Bool.false_and, Bool.false_eq_true, if_false, Bool.not_false, if_true, if_neg (Nat.ne_of_gt h1)]
    exact doorbellPush_taken hslots hen hstop hstate hprod (by omega)
  exact runs_of_servesIf rfl hwork (contexts_timed _ _ _ _ _ _).mortar hP

theorem admitted_fits {c : Nat} (h : ctxDepth c + ctxResv c + n ≤ ctxCap c) : admitted c n = n := by
  rw [admitted, isFull, decide_eq_false (by omega)]
  rfl

theorem isFull_of_lt {c : Nat} (h : ctxCap c < ctxDepth c + ctxResv c + n) : isFull c n = true := decide_eq_true h

theorem runs_doorbellPushed_fits (hq : q < 65536) (h : Readable s q) (hslots : s.hod.slots = []) (hen : ctxEn (peekCtx s q) = true)
    (hstop : hodStops s = false) (hpart : otherPart s req (peekCtx s q) = false) (hstate : ctxState (peekCtx s q) ≠ 2)
    (hprod : ctxProd (peekCtx s q) = 0 ∨ ctxProd (peekCtx s q) = 2) (h1 : 1 ≤ n) (hn : n ≤ 65536)
    (hfits : ctxDepth (peekCtx s q) + ctxResv (peekCtx s q) + n ≤ ctxCap (peekCtx s q)) : Runs (.doorbellPushed req q n 0 cycles false) s fun t =>
      ctxDepth (peekCtx t q) = ctxDepth (peekCtx s q) + n ∧ ctxTail (peekCtx t q) = (ctxTail (peekCtx s q) + n) % ctxCap (peekCtx s q)
        ∧ ctxHead (peekCtx t q) = ctxHead (peekCtx s q) % ctxCap (peekCtx s q) := by
  have hctx := agrees_timed (q := q) (hodStops_false hstop) (peekCtx s q) n 0 cycles
  rw [admitted_fits hfits] at hctx
  have hcap := cap_le (peekCtx s q)
  exact runs_doorbellPushed hq h hslots hen hstop hpart hstate hprod h1 hn
    ⟨hctx.depth.trans (depth_cycledCtx (by omega)), hctx.tail.trans (tail_cycledCtx _ _ _), hctx.head.trans (head_cycledCtx _ _ _)⟩

theorem runs_doorbellPushed_full (hq : q < 65536) (h : Readable s q) (hslots : s.hod.slots = []) (hen : ctxEn (peekCtx s q) = true)
    (hstop : hodStops s = false) (hpart : otherPart s req (peekCtx s q) = false) (hstate : ctxState (peekCtx s q) ≠ 2)
    (hprod : ctxProd (peekCtx s q) = 0 ∨ ctxProd (peekCtx s q) = 2) (h1 : 1 ≤ n) (hn : n ≤ 65536)
    (hfull : ctxCap (peekCtx s q) < ctxDepth (peekCtx s q) + ctxResv (peekCtx s q) + n) : Runs (.doorbellPushed req q n 0 cycles false) s fun t =>
      ctxDepth (peekCtx t q) = ctxDepth (peekCtx s q) ∧ rf t R.HOD_REFUSED 31 0 = min (2 ^ 32 - 1) (rf s R.HOD_REFUSED 31 0 + 1) := by
  have hfull' := isFull_of_lt hfull
  have hctx := agrees_hodCycle (q := q) (hodStops_false hstop) n 0
  rw [admitted, hfull', if_pos rfl] at hctx
  refine runs_doorbellPushed hq h hslots hen hstop hpart hstate hprod h1 hn ?_
  rw [timed_of_full hfull']
  exact ⟨hctx.depth.trans (depth_cycledCtx (depth_lt _)), refused_hodCycle hfull'⟩

theorem runs_doorbellPushed_hold (hq : q < 65536) (hslots : s.hod.slots = []) (hen : ctxEn (peekCtx s q) = true)
    (hstop : hodStops s = false) (hpart : otherPart s req (peekCtx s q) = false)
    (hprod : ctxProd (peekCtx s q) = 0 ∨ ctxProd (peekCtx s q) = 2) (h1 : 1 ≤ n) (hn : n ≤ 65536) (hurgent : ctxUrgent (peekCtx s q) = true)
    (hactive : ctxState (peekCtx s q) = 1) : Runs (.doorbellPushed req q n 0 cycles true) s fun t =>
      t.hod.slots.get (ctxSlot (peekCtx s q)) = some { queue := q, count := n } ∧ peekCtx t q = peekCtx s q ∧ SameBytes s t := by
  have hwork : doorbellPushed req q n 0 cycles true s = holdPush s q (peekCtx s q) n [] := by
    unfold doorbellPushed
    dsimp only
    rw [Nat.mod_eq_of_lt hq, ackQueue_zero]
    exact if_pos (by simp [hen, hstop, hpart, hurgent, hactive, h1, hn, hprod])
  exact runs_of_servesIf rfl hwork rfl ⟨slots_holdPush hslots _ _ _ _, peekCtx_congr rfl rfl, fun _ => rfl⟩

theorem runs_doorbellPopped (hq : q < 65536) (h : Readable s q) (hslots : s.hod.slots = []) (hen : ctxEn (peekCtx s q) = true)
    (hstop : hodStops s = false) (hpart : otherPart s req (peekCtx s q) = false) (hstate : ctxState (peekCtx s q) ≠ 2) (hcons : ctxCons (peekCtx s q) = 0)
    (h1 : 1 ≤ n) (hn : n ≤ ctxDepth (peekCtx s q)) (hmost : ctxDepth (peekCtx s q) ≤ 65536)
    (hcap : ctxResv (peekCtx s q) + ctxDepth (peekCtx s q) ≤ ctxCap (peekCtx s q)) : Runs (.doorbellPopped req q n 0 .alone) s fun t =>
      ctxDepth (peekCtx t q) = ctxDepth (peekCtx s q) - n ∧ ctxHead (peekCtx t q) = (ctxHead (peekCtx s q) + n) % ctxCap (peekCtx s q) := by
  have hword : n % 2 ^ 17 + 2 ^ 17 + 0 % 32 * 2 ^ 24 = n + b2n true * 2 ^ 17 + 0 * 2 ^ 24 := by rw [Nat.mod_eq_of_lt (by omega)]; rfl
  have hwork : doorbell s req (q % 65536) (n % 2 ^ 17 + 2 ^ 17 + 0 % 32 * 2 ^ 24) 0 .alone = (hodCycle s q 0 n).1 := by
    rw [Nat.mod_eq_of_lt hq, hword, doorbell_taken hq h hslots (by omega) (by decide) true hen hstop hpart, ackQueue_zero]
    simp only [Bool.not_true, Bool.false_eq_true, if_false, hstate, Nat.ne_of_gt h1, or_self, hcons, ne_eq, not_true_eq_false, Nat.not_lt.2 hn]
    exact if_neg (by omega)
  have hctx := agrees_hodCycle (q := q) (hodStops_false hstop) 0 n
  rw [admitted_fits (by omega)] at hctx
  exact runs_of_servesIf (f := fun s => doorbell s req (q % 65536) (n % 2 ^ 17 + 2 ^ 17 + 0 % 32 * 2 ^ 24) 0 .alone) rfl hwork (contexts_hodCycle _ _ _ _).mortar
    ⟨hctx.depth.trans (depth_cycledCtx (by omega)), hctx.head.trans (head_cycledCtx _ _ _)⟩

theorem runs_doorbellAck (hq : q < 65536) (h : Readable s q) (hslots : s.hod.slots = []) (hen : ctxEn (peekCtx s q) = true)
    (hstop : hodStops s = false) (hpart : otherPart s req (peekCtx s q) = false) (ack : Nat) : Runs (.doorbellAck req q ack) s fun t =>
      cf (peekCtx t q) 6 12 8 = cf (peekCtx s q) 6 12 8 &&& (31 ^^^ ack % 32) := by
  have hword : ack % 32 * 2 ^ 24 = 0 + b2n false * 2 ^ 17 + ack % 32 * 2 ^ 24 := by simp [b2n]
  have hwork : doorbell s req (q % 65536) (ack % 32 * 2 ^ 24) 0 .alone = ackQueue s q (ack % 32) := by
    rw [Nat.mod_eq_of_lt hq, hword, doorbell_taken hq h hslots (by decide) (Nat.mod_lt _ (by decide)) false hen hstop hpart]
    rfl
  have hlt : cf (peekCtx s q) 6 12 8 < 2 ^ 5 := cf_lt _ 6 12 8
  have hmortar : (ackQueue s q (ack % 32)).mortar = s.mortar := (Contexts.ite (.refl s) (contexts_putCtx _ _ _)).mortar
  refine runs_of_servesIf (f := fun s => doorbell s req (q % 65536) (ack % 32 * 2 ^ 24) 0 .alone) rfl hwork hmortar ?_
  unfold ackQueue
  dsimp only
  rw [Nat.mod_mod]
  split
  · next h0 => rw [h0, Nat.xor_zero, show 31 = 2 ^ 5 - 1 from rfl, Nat.and_two_pow_sub_one_of_lt_two_pow hlt]
  · rw [cf_peekCtx_putCtx (hodStops_false hstop) (by decide), cf_cput_self]
    exact Nat.mod_eq_of_lt (Nat.lt_of_le_of_lt Nat.and_le_left hlt)
end

/-! Commits (R227, R229). -/

section
variable {s : State} {q : Nat}

theorem ctxReach_of_up (hup : ctxBankUp s = true) (q : Nat) : ctxReach s q = true := by rw [ctxReach, hup, Bool.true_or]

theorem runs_pushCommit (hq : q < 65536) (h : Readable s q) {p : Push} {ps : List Push} (hp : pushesOf s q = p :: ps) (hwaits : pushWaits s q = false)
    (hup : ctxBankUp s = true) (hresv : p.count ≤ ctxResv (peekCtx s q)) (hdepth : ctxDepth (peekCtx s q) + p.count ≤ 65536) :
    Runs (.pushCommit q) s fun t => ctxDepth (peekCtx t q) = ctxDepth (peekCtx s q) + p.count ∧ ctxResv (peekCtx t q) = ctxResv (peekCtx s q) - p.count
      ∧ t.hod.inflight = s.hod.inflight.erase p := by
  have hwork : pushCommit q s = commitCycle s q 0 := by
    unfold pushCommit
    rw [Nat.mod_eq_of_lt hq]
    exact if_neg (by simp [hp, hwaits, ctxReach_of_up hup])
  have hcontexts := contexts_commitCycle hq h hp
  have hctx := agrees_commitCycle hq h hup hp
  have hlt : ctxResv (peekCtx s q) < 2 ^ 17 := cf_lt _ 4 16 0
  refine runs_of_servesIf rfl hwork hcontexts.mortar ⟨hctx.depth.trans ?_, hctx.resv.trans ?_, hcontexts.inflight⟩
  · rw [ctxDepth, committedCtx, cf_cput_self]
    exact Nat.mod_eq_of_lt (by omega)
  · rw [ctxResv, committedCtx, cf_cput_ne (by decide), cf_cput_ne (by decide), cf_cput_self]
    exact Nat.mod_eq_of_lt (by omega)

/-- The pushes of a queue commit one after the other. -/
theorem foldl_commitCycle (hq : q < 65536) (h : Readable s q) (ps : List Push) (hps : pushesOf s q = ps) :
    pushesOf (ps.foldl (fun s _ => commitCycle s q 0) s) q = [] ∧ (ps.foldl (fun s _ => commitCycle s q 0) s).mortar = s.mortar := by
  induction ps generalizing s with
  | nil => exact ⟨hps, rfl⟩
  | cons p ps ih =>
    have hcontexts := contexts_commitCycle hq h hps
    obtain ⟨hpushes, hmortar⟩ := ih (hcontexts.readable (show Readable (withdrawn s p) q from h)) (pushesOf_commitCycle hq h hps)
    exact ⟨hpushes, hmortar.trans hcontexts.mortar⟩

theorem runs_queueDisableDone (hq : q < 65536) (h : Readable s q) (hen : ctxEn (peekCtx s q) = false) (hwaits : pushWaits s q = false)
    (hup : ctxBankUp s = true) : Runs (.queueDisableDone q) s fun t =>
      pushesOf t q = [] ∧ (pushesOf s q = [] → ctxState (peekCtx t q) = 0) := by
  have hwork : queueDisableDone q s = putCtx ((pushesOf s q).foldl (fun s _ => commitCycle s q 0) s) q
      (cput (peekCtx ((pushesOf s q).foldl (fun s _ => commitCycle s q 0) s) q) 4 22 21 0) := by
    unfold queueDisableDone
    rw [Nat.mod_eq_of_lt hq]
    exact if_neg (by simp [hen, hwaits, ctxReach_of_up hup])
  obtain ⟨hpushes, hmortar⟩ := foldl_commitCycle hq h (pushesOf s q) rfl
  refine runs_of_servesIf rfl hwork ((contexts_putCtx _ _ _).mortar.trans hmortar) ⟨(contexts_putCtx _ _ _).pushesOf.trans hpushes, fun hnone => ?_⟩
  rw [hnone, List.foldl_nil, ctxState, cf_peekCtx_putCtx hup (by decide), cf_cput_self]
  rfl
end

/-- Settles O42, clause by clause: EN written 1 and 0, the end of a disable, doorbells that push, pop and acknowledge, and a commit. -/
theorem queueContexts : Obligations.QueueContexts := by
  unfold Obligations.QueueContexts
  intro s req q hq hclean hslots c
  have hr := readable_of_clean hclean
  exact ⟨fun _ hpage _ _ hres hlo hhi hslot => ⟨runs_queueEnable_active hq hclean hpage hres hlo hhi hslot,
      runs_queueEnable_detached hq hclean hpage hres hlo hhi hslot⟩,
    fun _ => runs_queueDisable hq hclean, fun hen hwaits hup => runs_queueDisableDone hq hr hen hwaits (decide_eq_true hup),
    fun n cycles hen hstop hpart hstate hprod h1 hn => ⟨runs_doorbellPushed_fits hq hr hslots hen hstop hpart hstate hprod h1 hn,
      fun hfull _ => runs_doorbellPushed_full hq hr hslots hen hstop hpart hstate hprod h1 hn hfull,
      runs_doorbellPushed_hold hq hslots hen hstop hpart hprod h1 hn⟩,
    fun _ => runs_doorbellPopped hq hr hslots, fun ack hen hstop hpart => runs_doorbellAck hq hr hslots hen hstop hpart ack,
    fun _ _ hp hwaits hup => runs_pushCommit hq hr hp hwaits (decide_eq_true hup)⟩

end Sys2Proof.Queues
end

section
/-! What the requests of engines keep: Hod, and whether each island answers (R58, R95). -/
namespace Sys2Proof.Queues
open Sys2Proof Sys2Proof.Machine Sys2Proof.Laws Sys2Proof.Claims Sys2Proof.RegisterPages Sys2Proof.Mesh Sys2Proof.Subchannels

/-- Whether an island is fenced, OFF or being initialised. -/
def powerView (i : Island) : Bool × Bool × Bool := (i.fenced, decide (i.st = .off), i.initing)

/-- From `s` to `t` what `g` shows of Hod stays, and so does whether each island answers. -/
structure Keeps {α : Type} (g : Hod → α) (s t : State) : Prop where
  hod : g t.hod = g s.hod
  islands : t.isl.map powerView = s.isl.map powerView

section
variable {α β : Type} {g : Hod → α} {s t w : State}

theorem Keeps.refl (g : Hod → α) (s : State) : Keeps g s s := ⟨rfl, rfl⟩

theorem Keeps.trans (h : Keeps g s t) (k : Keeps g t w) : Keeps g s w := ⟨k.hod.trans h.hod, k.islands.trans h.islands⟩

theorem Keeps.ite {c : Prop} [Decidable c] (ht : Keeps g s t) (hw : Keeps g s w) : Keeps g s (if c then t else w) := by
  split <;> assumption

theorem Keeps.iteFst {c : Prop} [Decidable c] {p q : State × β} (hp : Keeps g s p.1) (hq : Keeps g s q.1) : Keeps g s (if c then p else q).1 := by
  split <;> assumption

theorem Keeps.foldl {f : State → β → State} (hf : ∀ t x, Keeps g s t → Keeps g s (f t x)) (l : List β) (h : Keeps g s t) : Keeps g s (l.foldl f t) := by
  induction l generalizing t with
  | nil => exact h
  | cons x l ih => exact ih (hf t x h)

/-- A change outside Hod and the islands. -/
theorem Keeps.same (h : Keeps g s t) (hw : (w.hod, w.isl) = (t.hod, t.isl)) : Keeps g s w := by
  obtain ⟨hhod, hisl⟩ := Prod.mk.inj hw
  exact h.trans ⟨by rw [hhod], by rw [hisl]⟩

theorem Keeps.onPage {pg : Nat} (h : Keeps g s t) (k : OnPage pg t w) : Keeps g s w :=
  h.same (Prod.ext (congrArg State.hod k.rest :) (congrArg State.isl k.rest :))

theorem Keeps.onDram {ps : List Nat} (h : Keeps g s t) (k : OnDram ps t w) : Keeps g s w :=
  h.same (Prod.ext (congrArg State.hod k.rest :) (congrArg State.isl k.rest :))

theorem Keeps.islandStatus (h : Keeps g s t) (n : Nat) : islandStatus t n = islandStatus s n := by
  have hview (u : State) : powerView (island u n) = nth (u.isl.map powerView) n (powerView {}) := (nth_map powerView u.isl n {}).symm
  have hn : powerView (island t n) = powerView (island s n) := by rw [hview, hview, h.islands]
  obtain ⟨hfenced, hrest⟩ := Prod.mk.inj hn
  obtain ⟨hoff, hiniting⟩ := Prod.mk.inj hrest
  simp only [Machine.islandStatus, hfenced, hiniting, decide_eq_decide.1 hoff]

theorem Keeps.ctxBankUp (h : Keeps g s t) : ctxBankUp t = ctxBankUp s := by
  rw [Machine.ctxBankUp, h.islandStatus, Machine.ctxBankUp]
end

/-! Registers, events and faults. -/

section
variable {α : Type} {g : Hod → α} {s t w : State}

theorem Keeps.bump (h : Keeps g s t) {off hi lo n : Nat} : Keeps g s (bump t off hi lo n) := h.same (by rfl)

theorem Keeps.peak (h : Keeps g s t) {off hi lo x : Nat} : Keeps g s (peak t off hi lo x) := h.same (by rfl)

theorem Keeps.raise (h : Keeps g s t) {pg b : Nat} : Keeps g s (raise t pg b) := h.onPage (onPage_raise b)

theorem Keeps.fault (h : Keeps g s t) {pg cause : Nat} {req : Req} {info : Nat} {a : Option Nat} : Keeps g s (fault t pg cause req info a) :=
  h.onPage (onPage_fault cause req info a)

theorem Keeps.hwFault (h : Keeps g s t) {pg cause info : Nat} : Keeps g s (hwFault t pg cause info) := h.fault

theorem Keeps.injFire (h : Keeps g s t) {target : Nat} {p : Nat → Bool} : Keeps g s (injFire t target p).1 := h.onPage (onPage_injFire t target p)

theorem Keeps.countFlits (h : Keeps g s t) {c : Chan} {n : Nat} : Keeps g s (countFlits t c n) := h.bump

theorem Keeps.updIo (h : Keeps g s t) {f : Io → Io} : Keeps g s (updIo t f) := h.same (by rfl)

theorem Keeps.block (h : Keeps g s t) : Keeps g s (block t) := h.updIo

/-- An island that is gated or retains its state wakes: it answers before and after. -/
theorem Keeps.wake (h : Keeps g s t) {n : Nat} : Keeps g s (wake t n) := by
  unfold Machine.wake
  split
  · next hst =>
    refine h.trans ⟨rfl, List.ext_getElem? fun k => ?_⟩
    simp only [updAt, List.getElem?_map, List.getElem?_modify]
    by_cases hk : n = k
    · subst hk
      cases hi : t.isl[n]? with
      | none => simp
      | some i =>
        have hn : nth t.isl n {} = i := by simp [nth, hi]
        rw [hn] at hst
        rcases hst with hst | hst <;> simp [powerView, hst]
    · simp [hk]
  · exact h

theorem Keeps.wakeAt (h : Keeps g s t) {a : Nat} : Keeps g s (wakeAt t a) := by
  unfold Machine.wakeAt
  split
  · exact h.wake
  · exact h
end

/-! Bytes, their poison and their checks. -/

section
variable {α : Type} {g : Hod → α} {s t w : State}

theorem Keeps.markGranule (h : Keeps g s t) {n : Nat} : Keeps g s (markGranule t n) := h.same (by rfl)

theorem Keeps.countCe (h : Keeps g s t) {a : Nat} : Keeps g s (countCe t a) := by
  unfold Machine.countCe
  split
  · exact .ite h.bump.raise h.bump
  · exact h.bump
  · exact h

theorem Keeps.foundUe (h : Keeps g s t) {a scrub : Nat} : Keeps g s (foundUe t a scrub) := by
  unfold Machine.foundUe
  split
  · exact h.markGranule.bump.fault.raise
  · exact h.markGranule.bump.fault.raise
  · exact h.markGranule

theorem Keeps.checkWord (h : Keeps g s t) {scrub x : Nat} : Keeps g s (checkWord t scrub x) := by
  have hclean : Keeps g s { t with eccErr := t.eccErr.del x } := h.same (by rfl)
  unfold Machine.checkWord
  split
  · exact h
  · exact .ite hclean.countCe hclean.foundUe

theorem Keeps.clearGranule (h : Keeps g s t) {n : Nat} : Keeps g s (clearGranule t n) := h.same (by rfl)

theorem Keeps.checkBurst (h : Keeps g s t) {scrub n : Nat} : Keeps g s (checkBurst t scrub n) := by
  have hclean : Keeps g s { freshEcc t n with eccErr := t.eccErr.filter fun e => decide (e.1 / 8 ≠ n) } := h.same (by rfl)
  have hmark := Keeps.ite (c := poisoned t n = true) (hclean.markGranule (n := n)) (hclean.clearGranule (n := n))
  unfold Machine.checkBurst
  refine .ite h ?_
  dsimp only
  split
  · exact hmark
  · exact .ite (.raise (.ite hmark.bump.markGranule.bump.fault hmark.bump.markGranule.bump.fault)) hmark.bump

theorem Keeps.checkRange (h : Keeps g s t) {scrub a n : Nat} : Keeps g s (checkRange t scrub a n) := by
  unfold Machine.checkRange
  refine .ite h ?_
  split
  · exact .ite h (.foldl (fun _ _ k => k.checkBurst) _ h)
  · exact .foldl (fun _ _ k => k.checkWord) _ h

theorem Keeps.checkParts (h : Keeps g s t) {a n : Nat} : Keeps g s (checkParts t a n) := by
  unfold Machine.checkParts
  split
  · exact .foldl (fun _ _ k => k.checkBurst) _ h
  · exact .foldl (fun _ _ k => k.checkWord) _ h

theorem Keeps.setBytes (h : Keeps g s t) {a : Nat} {bs : List Byte} : Keeps g s (setBytes t a bs) := by
  rw [setBytes_rest]
  exact h.same (by rfl)

theorem Keeps.injectSram (h : Keeps g s t) {a : Nat} : Keeps g s (injectSram t a) := by
  unfold Machine.injectSram
  exact .ite (h.injFire.same (by rfl)) (.ite (h.injFire.same (by rfl)) h)

theorem Keeps.storeBytes (h : Keeps g s t) {a : Nat} {bs : List Byte} {bad : List (Nat × Nat)} : Keeps g s (storeBytes t a bs bad) := by
  unfold Machine.storeBytes
  exact .ite h (.foldl (fun _ _ k => k.markGranule) _ (.foldl (fun _ _ k => k.same (by rfl)) _ (.injectSram (.setBytes (h.checkParts.same (by rfl))))))

theorem Keeps.localWrite (h : Keeps g s t) {a : Nat} {bs : List Byte} {bad : List (Nat × Nat)} : Keeps g s (localWrite t a bs bad).1 := by
  unfold Machine.localWrite
  split
  · exact h.wakeAt.storeBytes
  · exact h

theorem Keeps.localRead (h : Keeps g s t) {a n : Nat} : Keeps g s (localRead t a n).1 := by
  unfold Machine.localRead
  split
  · exact h.wakeAt.checkRange
  · exact h
end

/-! The queues of a subchannel, and the requests that one command presents to it. -/

section
variable {α : Type} {g : Hod → α} {s t w : State} {u : Nat} {r : DramReq}

theorem Keeps.updSub (h : Keeps g s t) {f : SubCh → SubCh} : Keeps g s (updSub t u f) := h.same (by rfl)

theorem Keeps.admitStopped (h : Keeps g s t) (n : Nat) : Keeps g s (admitStopped u n t) := by
  induction n generalizing t with
  | zero => exact h
  | succ n ih =>
    unfold Machine.admitStopped
    split
    · exact h
    · exact ih (h.onDram (ps := []) (OnDram.refl t).updSub.enterQueue)

theorem Keeps.issueWrite (h : Keeps g s t) {i : Nat} : Keeps g s (issueWrite t u i r) := by
  have hissued : Keeps g s (issueCommand (Machine.updSub (openFor t u r) u fun k => { k with writes := k.writes.eraseIdx i }) u r) :=
    (Keeps.updSub (h.onDram ((Commands.refl (ps := [P.dmc (u / 2)]) t).openFor (by simp)).onDram)).onDram
      ((Commands.refl (ps := [P.flt]) _).issueCommand (by simp)).onDram
  exact (hissued.storeBytes.onDram (ps := []) (OnDram.refl _).drainState).admitStopped _

theorem Keeps.drainOne (h : Keeps g s t) (hw : drainOne t u = some w) : Keeps g s w := by
  unfold Machine.drainOne at hw
  split at hw
  · cases hw
  · split at hw
    · cases hw
    · cases hw
      exact Keeps.issueWrite (h.updSub (f := fun k => _)).updIo

theorem Keeps.engineWrite (h : Keeps g s t) (hw : engineWrite t u r = some w) : Keeps g s w := by
  have henter {x : State} (k : Keeps g s x) : Keeps g s (enterQueue { x with dram := { x.dram with seq := x.dram.seq + 1 } } u { r with seq := x.dram.seq }) :=
    k.onDram (ps := []) (OnDram.refl x).dram.enterQueue
  unfold Machine.engineWrite at hw
  dsimp only at hw
  split at hw
  · cases hw
  · split at hw
    · obtain ⟨d, hd, he⟩ := Option.bind_eq_some_iff.mp hw
      split at he
      · cases he
      · cases he
        exact henter (h.drainOne hd)
    · cases hw
      exact henter h

theorem Keeps.patientEnter (h : Keeps g s t) (hw : patientEnter t u r = some w) : Keeps g s w := by
  unfold Machine.patientEnter at hw
  split at hw
  · exact h.engineWrite hw
  · cases hw

theorem Keeps.engineCommand (h : Keeps g s t) (hw : engineCommand t u r = some w) : Keeps g s w := by
  obtain ⟨x, f, rfl, hx⟩ := commands_engineCommand hw
  exact (h.onDram hx.onDram).updIo

theorem Keeps.arrayRead (h : Keeps g s t) {a n seq : Nat} : Keeps g s (arrayRead t u a n seq).1 := .foldl (fun _ _ k => k.checkBurst) _ h
end

/-! Writes: to the host, to a window, to DRAM and to SRAM. -/

section
variable {α : Type} {g : Hod → α} {s t : State} {v : Via} {a : Nat} {bs : List Byte} {bad : List (Nat × Nat)}

theorem Keeps.hwinRefuse (h : Keeps g s t) {cause : Nat} {req : Req} {x a : Nat} : Keeps g s (hwinRefuse t cause req x a) := .ite h.bump h.bump.fault

theorem Keeps.hostWrite (h : Keeps g s t) {req : Req} {x : Nat} {relaxed : Bool} : Keeps g s (hostWrite t req x a bs bad relaxed).1 := by
  have hsent (ms : List HostMsg) : Keeps g s (ms.foldl sendHost t) := .foldl (fun _ _ k => k.same (by rfl)) ms h
  unfold Machine.hostWrite
  refine .iteFst h ?_
  split
  · exact h.hwinRefuse
  · exact .iteFst h.block (.ite (hsent _) (hsent _).fault)

theorem Keeps.writeMem (h : Keeps g s t) : Keeps g s (writeMem t v a bs bad).1 := by
  unfold Machine.writeMem
  split
  · split
    · exact h.block
    · next hw => exact h.wakeAt.engineWrite hw
  · exact .ite h.fault h
  · exact h.localWrite

theorem Keeps.placeWrite (h : Keeps g s t) {relaxed : Bool} : Keeps g s (placeWrite t v a bs bad relaxed).1 := by
  unfold Machine.placeWrite
  split
  · exact h.hostWrite
  · exact h.same (by rfl)
  · exact h.same (by rfl)
  · exact h.writeMem

theorem Keeps.carryWrite (h : Keeps g s t) {n : Nat} {f : State → State × Nat} (hf : ∀ w, Keeps g s w → Keeps g s (f w).1) :
    Keeps g s (carryWrite t v a n f).1 := by
  unfold Machine.carryWrite
  split
  · exact h.fault
  · exact .ite (hf _ (h.same (by rfl))) (h.same (by rfl))
  · exact (hf _ h.countFlits).countFlits

theorem Keeps.devWrite (h : Keeps g s t) {relaxed : Bool} : Keeps g s (devWrite t v a bs bad relaxed).1 := h.carryWrite fun _ k => k.placeWrite

theorem Keeps.writeMemPatient (h : Keeps g s t) : Keeps g s (writeMemPatient t v a bs bad).1 := by
  unfold Machine.writeMemPatient
  split
  · dsimp only
    split
    · exact Keeps.updSub (h.same (by rfl))
    · next hw => exact h.wakeAt.patientEnter hw
  · exact h.writeMem

theorem Keeps.patientWrite (h : Keeps g s t) : Keeps g s (patientWrite t v a bs bad).1 := by
  unfold Machine.patientWrite
  split
  · exact h
  · exact h.carryWrite fun _ k => k.writeMemPatient
  · exact h.devWrite

theorem Keeps.ringWrite (h : Keeps g s t) {q : Nat} {e : List Byte} {b : Bool} : Keeps g s (ringWrite t q a e b).1 := by
  unfold Machine.ringWrite
  dsimp only
  split
  · exact .iteFst (h.same (by rfl)) h.devWrite
  · exact h.patientWrite
end

/-! Reads: from the host, from a window, from DRAM and from SRAM. -/

section
variable {α : Type} {g : Hod → α} {s t : State} {v : Via} {a n : Nat}

theorem Keeps.logAer (h : Keeps g s t) {fn bitNo : Nat} {header : List Nat} : Keeps g s (logAer t fn bitNo header) := h.onPage (Endpoint.onPage_logAer _ _ _ _)

theorem Keeps.hostAnswer (h : Keeps g s t) {fn tag : Nat} {hold : State → State} (hhold : ∀ w, Keeps g s w → Keeps g s (hold w)) :
    Keeps g s (hostAnswer t fn a tag n hold).1 := by
  have hpoison (i : Io → Io) (eps : List (List Nat)) : Keeps g s (eps.foldl (fun s h => poisonIn s .hw fn (some a) h) (Machine.updIo t i)) :=
    .foldl (fun _ _ k => k.fault.logAer) eps h.updIo
  unfold Machine.hostAnswer
  dsimp only
  split
  · exact hpoison _ _
  · exact .iteFst (hhold _ (hpoison _ _)).block (hpoison _ _).fault.logAer.raise
  · exact (hpoison _ _).fault

theorem Keeps.sendRead (h : Keeps g s t) {id fn tag : Nat} : Keeps g s (sendRead t id fn a n tag) := Keeps.peak (h.same (by rfl))

theorem Keeps.hostRequest (h : Keeps g s t) {r : StuckRead} : Keeps g s (hostRequest t r a n).1 := by
  unfold Machine.hostRequest
  split
  · exact h.block
  · exact h.sendRead.hostAnswer fun _ k => k.updIo

theorem Keeps.hostRequests (h : Keeps g s t) {k : StuckRead} (ps : List (Nat × Nat)) : Keeps g s (hostRequests k ps t).1 := by
  induction ps generalizing t with
  | nil => exact h
  | cons p ps ih => exact ih h.hostRequest

theorem Keeps.hostRead (h : Keeps g s t) {req : Req} {x : Nat} : Keeps g s (hostRead t req x a n).1 := by
  unfold Machine.hostRead
  split
  · exact .iteFst (h.same (by rfl)) (Keeps.hostAnswer (h.same (by rfl)) fun _ k => k)
  · refine .iteFst h ?_
    split
    · exact h.hwinRefuse
    · exact .iteFst h.block (Keeps.same (h.hostRequests _) (by rfl))

theorem Keeps.readMem (h : Keeps g s t) : Keeps g s (readMem t v a n).1 := by
  unfold Machine.readMem
  split
  · split
    · exact h.block
    · next hw => exact (h.wakeAt.engineCommand hw).arrayRead
  · exact h.localRead

theorem Keeps.windowRead (h : Keeps g s t) : Keeps g s (windowRead t v a n).1 := by
  unfold Machine.windowRead
  split
  · exact h.same (by rfl)
  · exact h.same (by rfl)

theorem Keeps.placeRead (h : Keeps g s t) : Keeps g s (placeRead t v a n).1 := by
  unfold Machine.placeRead
  split
  · exact h.hostRead
  · exact h.windowRead
  · exact h.windowRead
  · exact h.readMem

theorem Keeps.devRead (h : Keeps g s t) : Keeps g s (devRead t v a n).1 := by
  unfold Machine.devRead Machine.carryRead
  split
  · exact h.fault
  · exact .ite (Keeps.placeRead (h.same (by rfl))) (h.same (by rfl))
  · exact h.countFlits.placeRead.countFlits
end

end Sys2Proof.Queues
end

section
/-! The descriptors of the copy engine, which no push, pop or ring access adds to or takes from (07 R253 to R258). -/
namespace Sys2Proof.Queues
open Sys2Proof Sys2Proof.Machine Sys2Proof.Laws Sys2Proof.Claims Sys2Proof.RegisterPages

/-- Push `p` has joined the pushes in flight. -/
def joined (s : State) (p : Push) : State := { s with hod := { s.hod with inflight := s.hod.inflight ++ [p] } }

/-- The descriptors that wait to complete, and the completions that are held. -/
def progress (x : Hod) : List CopyJob × List HeldCompletion := (x.copies, x.heldCq)

section
variable {s t w : State} {q c : Nat} {req : Req}

/-- What work on contexts stores is no descriptor. -/
theorem Keeps.contexts (h : Keeps progress s t) (k : Contexts t w) : Keeps progress s w :=
  h.trans ⟨by rw [k.hod]; rfl, by rw [show w.isl = t.isl from (congrArg State.isl k.rest :)]⟩

theorem Keeps.setReg (h : Keeps progress s t) {off : Nat} {x : W32} : Keeps progress s (setReg t off x) := h.same (by rfl)

theorem Keeps.dropPushes (h : Keeps progress s t) : Keeps progress s (dropPushes t q) := h.trans ⟨rfl, rfl⟩

theorem Keeps.detach (h : Keeps progress s t) {cause : Nat} : Keeps progress s (detach t q cause) := by
  rw [detach_eq]
  exact (h.contexts (contexts_putCtx _ _ _)).dropPushes.setReg.raise

theorem Keeps.ringFailed (h : Keeps progress s t) {st : Nat} : Keeps progress s (ringFailed t q st) := h.detach.hwFault

theorem Keeps.ringWrites (h : Keeps progress s t) (es : List (Nat × List Byte × Bool)) : Keeps progress s (ringWrites es t q) := by
  induction es generalizing t with
  | nil => exact h
  | cons e es ih => exact .ite h.ringWrite.ringFailed (ih h.ringWrite)

theorem Keeps.ringRead (h : Keeps progress s t) {a : Nat} : Keeps progress s (ringRead t q a).1 := .iteFst h.devRead.ringFailed h.devRead

theorem Keeps.ringReads (h : Keeps progress s t) (n i : Nat) : Keeps progress s (ringReads n t q i).1 := by
  induction n generalizing t i with
  | zero => exact h
  | succ n ih => exact .iteFst h.ringRead (ih h.ringRead _)

theorem Keeps.readCtx (h : Keeps progress s t) : Keeps progress s (readCtx t q).1 := by
  unfold Machine.readCtx
  split
  · exact h
  · exact .ite h.checkRange.detach.hwFault.raise h.checkRange

theorem Keeps.hodCycle (h : Keeps progress s t) {n m : Nat} : Keeps progress s (hodCycle t q n m).1 := h.contexts (contexts_hodCycle _ _ _ _)

theorem Keeps.joined (h : Keeps progress s t) {p : Push} : Keeps progress s (joined t p) := h.trans ⟨rfl, rfl⟩

theorem Keeps.admitPushes (h : Keeps progress s t) {ps : List (List (List Byte) × List Nat)} : Keeps progress s (admitPushes t q ps).1 :=
  .iteFst (h.bump.contexts (occurs_queueEvents _ _ _ _ _).contexts) ((h.contexts (contexts_putCtx _ _ _)).joined.ringWrites _)

theorem Keeps.urgentTime (h : Keeps progress s t) {cycles : Nat} : Keeps progress s (urgentTime t q c cycles) := h.onPage (onPage_urgentTime _ _ _ _)

theorem Keeps.fresh (h : Keeps progress s t) {n : Nat} : Keeps progress s (fresh t n).1 := h.same (by rfl)

theorem Keeps.urgentFree (h : Keeps progress s t) : Keeps progress s (urgentFree t q c) := .ite h h.fresh.urgentTime

theorem Keeps.updSlots (h : Keeps progress s t) {f : SMap SlotPush → SMap SlotPush} : Keeps progress s (updSlots t f) := h.trans ⟨rfl, rfl⟩

theorem Keeps.answer (h : Keeps progress s t) {st : Nat} {es : List Byte} {bad : List (Nat × Nat)} : Keeps progress s (answer t st es bad) :=
  h.trans ⟨rfl, rfl⟩

theorem Keeps.admitSlot (h : Keeps progress s t) {slot : Nat} : Keeps progress s (admitSlot t slot) := by
  unfold Machine.admitSlot
  split
  · exact h
  · next p _ =>
    have hslots : Keeps progress s (Machine.updSlots t (·.del slot)) := h.updSlots
    have hpushed := Keeps.iteFst (c := p.pushes.isEmpty = true) (hslots.hodCycle (q := p.queue) (n := p.count) (m := 0))
      (hslots.admitPushes (q := p.queue) (ps := heldData p))
    exact .ite h (.ite (.ite (.ite hpushed.urgentFree hpushed) (Keeps.answer (.ite hpushed.urgentFree hpushed))) (.ite hslots hslots.answer))

theorem Keeps.takeQueue (h : Keeps progress s t) : Keeps progress s (takeQueue t q).1 := .foldl (fun _ _ k => k.admitSlot) _ h.readCtx

theorem Keeps.opCheck (h : Keeps progress s t) {roleOk countOk : Bool} {n : Nat} : Keeps progress s (opCheck t req q c roleOk countOk n).1 := by
  unfold Machine.opCheck
  exact .iteFst h (.iteFst h (.iteFst h.fault (.iteFst h.fault (.iteFst h.fault h))))

theorem Keeps.devPush (h : Keeps progress s t) {es : List (List Byte)} {bad : List Nat} : Keeps progress s (devPush t req q es bad).1 := by
  have hchecked : Keeps progress s (pushCheck (Machine.takeQueue t q).1 req q (Machine.takeQueue t q).2 es).1 := h.takeQueue.opCheck
  exact .iteFst hchecked (Keeps.admitPushes (.ite hchecked.updSlots hchecked))

theorem Keeps.pushRecord (h : Keeps progress s t) {rec : List Byte} {cycles : Nat} : Keeps progress s (pushRecord t q rec (some cycles)).1 :=
  .ite h.devPush.urgentTime h.devPush

theorem Keeps.meetNothing (h : Keeps progress s t) {m : Nat} : Keeps progress s (meetCycle t q m .alone) := .ite h h.hodCycle

/-- A pop that nothing meets. -/
theorem Keeps.hodPop (h : Keeps progress s t) {role n : Nat} : Keeps progress s (hodPop t req role q n .alone).1 := by
  have hpopped {roleOk countOk : Bool} {m : Nat} :
      Keeps progress s (meetCycle (Machine.opCheck (Machine.takeQueue t q).1 req q (Machine.takeQueue t q).2 roleOk countOk n).1 q m .alone) :=
    h.takeQueue.opCheck.meetNothing
  unfold Machine.hodPop
  exact .iteFst hpopped (.iteFst hpopped (.iteFst (hpopped.ringReads _ _) (hpopped.ringReads _ _)))

theorem Keeps.cqCheck (h : Keeps progress s t) {cq : Nat} : Keeps progress s (cqCheck t q cq).1 := h.readCtx

theorem Keeps.partEvent (h : Keeps progress s t) {p b : Nat} : Keeps progress s (partEvent t p b) := by
  have hpending (f : Dispatcher → Dispatcher) : Keeps progress s (updDpt t f) := h.same (by rfl)
  exact .ite h (.ite ((hpending _).onPage (pg := 0) (onPage_sendMsix _ _)) (hpending _))

theorem Keeps.badDescriptor (h : Keeps progress s t) : Keeps progress s (badDescriptor t q) := h.fault.fresh.partEvent

theorem Keeps.copyRun (h : Keeps progress s t) {v : Via} (ps : List (Nat × Nat × Nat)) (done : Nat) (p : Bool) :
    Keeps progress s (copyRun ps t v done p).1 := by
  induction ps generalizing t done p with
  | nil => exact h
  | cons x ps ih => exact .iteFst h.devRead (.iteFst h.devRead.devWrite (ih h.devRead.devWrite _ _))

theorem Keeps.fillRun (h : Keeps progress s t) {v : Via} {pat : List Byte} {dst : Nat} (ps : List (Nat × Nat)) (done : Nat) :
    Keeps progress s (fillRun ps t v pat dst done).1 := by
  induction ps generalizing t done with
  | nil => exact h
  | cons x ps ih => exact .iteFst h.devWrite (ih h.devWrite _)

theorem Keeps.copyExecute (h : Keeps progress s t) {d : CopyDesc} : Keeps progress s (copyExecute t q d).1 := by
  unfold Machine.copyExecute
  exact .iteFst h (.iteFst h.fault.raise (.iteFst h.fault.raise (.iteFst (h.copyRun _ _ _) (h.fillRun _ _))))
end

end Sys2Proof.Queues
end

section
/-! Device pushes, trigger pushes and pops (07 R228 to R235, R242). -/
namespace Sys2Proof.Queues
open Sys2Proof Sys2Proof.Machine Sys2Proof.Laws Sys2Proof.Claims Sys2Proof.RegisterPages Sys2Proof.PowerUp

/-! Commands whose requests are served. -/

section
variable {i : Instr} {f : State → Host.Outcome State Fault Refusal} {host : List Cpl} {s t : State} {P : State → Prop}

theorem runs_of_served (hexec : exec i s = served host f s) (hwork : f (withHost s host) = .next t) (hu : Unheld t) (hP : P (given s t)) : Runs i s P :=
  ⟨_, hexec.trans (served_next hwork hu), hP⟩

theorem completes_of_served (hexec : exec i s = served [] f s) (hwork : f (withHost s []) = .next t) (hP : P t) : Completes i s t P :=
  ⟨hP, fun hu => hexec.trans (served_next hwork hu)⟩
end

/-! The checks of an operation (R227, R233, R234). -/

section
variable {s : State} {req : Req} {q c n : Nat} {roleOk countOk : Bool}

theorem opCheck_disabled (hen : ctxEn c = false) : opCheck s req q c roleOk countOk n = (s, HS.disabled) := if_pos (by simp [hen])

theorem opCheck_detached (hstop : hodStops s = false) (hen : ctxEn c = true) (hstate : ctxState c = 2) :
    opCheck s req q c roleOk countOk n = (s, HS.detached) := by
  simp only [opCheck, hstop, hen, hstate, Bool.not_true, Bool.or_self, Bool.false_eq_true, if_false, if_true]

theorem opCheck_ok (hstop : hodStops s = false) (hen : ctxEn c = true) (hstate : ctxState c ≠ 2) (hpart : otherPart s req c = false) :
    opCheck s req q c true true n = (s, HS.ok) := by
  simp only [opCheck, hstop, hen, hstate, hpart, Bool.not_true, Bool.or_self, Bool.false_eq_true, if_false]

theorem pushCheck_ok {es : List (List Byte)} (hstop : hodStops s = false) (hen : ctxEn c = true) (hstate : ctxState c ≠ 2)
    (hpart : otherPart s req c = false) (hprod : ctxProd c = 1) (hrecord : ctxRecord c = false) (h1 : 1 ≤ es.length) (hn : es.length ≤ 16) :
    pushCheck s req q c es = (s, HS.ok) := by
  have hcount : pushCountOk c es = true := by simp [pushCountOk, hrecord, h1, hn]
  rw [pushCheck, hcount, hprod]
  exact opCheck_ok hstop hen hstate hpart
end

theorem peekCtx_answer (s : State) (st : Nat) (es : List Byte) (bad : List (Nat × Nat)) (q : Nat) : peekCtx (answer s st es bad) q = peekCtx s q :=
  peekCtx_congr rfl rfl

/-! Pushes that carry data (R228, R229). -/

section
variable {s : State} {req : Req} {q st cycles : Nat} {es : List (List Byte)} {bad : List Nat} {hold : Bool}

theorem devicePush_refused (hq : q < 65536) (h : Readable s q) (hslots : s.hod.slots = [])
    (hcheck : pushCheck s req q (peekCtx s q) es = (s, st)) (hst : st ≠ HS.ok) :
    devicePush req q es bad cycles hold s = .next (answer s st [] []) := by
  simp only [devicePush, devPush, Nat.mod_eq_of_lt hq, takeQueue_readable hq h hslots, hcheck, ne_eq, hst, not_false_eq_true, if_true, if_false, ite_self]

theorem devicePush_held (hq : q < 65536) (h : Readable s q) (hslots : s.hod.slots = [])
    (hcheck : pushCheck s req q (peekCtx s q) es = (s, HS.ok)) (hurgent : ctxUrgent (peekCtx s q) = true) :
    devicePush req q es bad cycles true s = .next (holdPush s q (peekCtx s q) 0 [(req, es, bad)]) := by
  simp only [devicePush, Nat.mod_eq_of_lt hq, takeQueue_readable hq h hslots, hcheck, hurgent, Bool.and_self, if_true]

/-- A push that passes its checks is admitted, and the time of its admission is taken. -/
def pushed (s : State) (q cycles : Nat) (es : List (List Byte)) (bad : List Nat) : State :=
  let r := admitPushes s q [(es, bad)]
  answer (if r.2 = HS.ok then urgentTime r.1 q (peekCtx r.1 q) cycles else r.1) r.2 [] []

theorem devicePush_taken (hq : q < 65536) (h : Readable s q) (hslots : s.hod.slots = [])
    (hcheck : pushCheck s req q (peekCtx s q) es = (s, HS.ok)) : devicePush req q es bad cycles false s = .next (pushed s q cycles es bad) := by
  simp only [devicePush, devPush, Nat.mod_eq_of_lt hq, takeQueue_readable hq h hslots, hcheck, dropHeld_nil hslots, heldPush_nil hslots,
    Bool.false_and, Bool.false_eq_true, if_false, ne_eq, not_true_eq_false, heldData, List.map_nil, List.nil_append]
  rfl

theorem admitPushes_full (hfull : ctxCap (peekCtx s q) < ctxDepth (peekCtx s q) + ctxResv (peekCtx s q) + es.length) :
    admitPushes s q [(es, bad)]
      = (queueEvents (bump s R.HOD_REFUSED 31 0 1) q (ctxDepth (peekCtx s q)) (ctxDepth (peekCtx s q)) true, HS.full) :=
  if_pos (by simpa using hfull)

/-- A push that fits is reserved and joins the pushes in flight; then its entries are written. -/
theorem admitPushes_fits (hfits : ctxDepth (peekCtx s q) + ctxResv (peekCtx s q) + es.length ≤ ctxCap (peekCtx s q)) :
    ∃ c ws, admitPushes s q [(es, bad)] = (ringWrites ws (joined (putCtx s q c) ⟨q, es.length⟩) q, HS.ok) := by
  have hn : ([(es, bad)].map (·.1.length)).sum = es.length := Nat.add_zero _
  unfold admitPushes
  dsimp only
  rw [hn, if_neg (Nat.not_lt.2 hfits)]
  exact ⟨_, _, rfl⟩

theorem state_ringFailed (hup : ctxBankUp s = true) (st : Nat) : ctxState (peekCtx (ringFailed s q st) q) = 2 := by
  unfold ringFailed
  dsimp only
  rw [peekCtx_of_onPage (onPage_hwFault _ _)]
  exact state_detach hup

theorem ringWrites_cons (s : State) (q i : Nat) (e : List Byte) (b : Bool) (ws : List (Nat × List Byte × Bool)) :
    ringWrites ((i, e, b) :: ws) s q =
      if (ringWrite s q (ringAddr (peekCtx s q) i) (padTo 64 e) b).2 ≠ MS.ok
      then ringFailed (ringWrite s q (ringAddr (peekCtx s q) i) (padTo 64 e) b).1 q (ringWrite s q (ringAddr (peekCtx s q) i) (padTo 64 e) b).2
      else ringWrites ws (ringWrite s q (ringAddr (peekCtx s q) i) (padTo 64 e) b).1 q := rfl

/-- The entries are written with the pushes in flight as they are, or one fails and the queue is detached (R235). -/
theorem ringWrites_ends (hup : ctxBankUp s = true) (ws : List (Nat × List Byte × Bool)) :
    (ringWrites ws s q).hod.inflight = s.hod.inflight ∨ ctxState (peekCtx (ringWrites ws s q) q) = 2 := by
  induction ws generalizing s with
  | nil => exact .inl rfl
  | cons w ws ih =>
    obtain ⟨i, e, b⟩ := w
    have hkeeps : Keeps Hod.inflight s (ringWrite s q (ringAddr (peekCtx s q) i) (padTo 64 e) b).1 := (Keeps.refl _ s).ringWrite
    have hbank := hkeeps.ctxBankUp.trans hup
    rw [ringWrites_cons]
    split
    · exact .inr (state_ringFailed hbank _)
    · exact (ih hbank).imp_left fun hin => hin.trans hkeeps.hod

theorem pushed_full (hfull : ctxCap (peekCtx s q) < ctxDepth (peekCtx s q) + ctxResv (peekCtx s q) + es.length) :
    (pushed s q cycles es bad).hod.status = HS.full ∧ pushesOf (pushed s q cycles es bad) q = pushesOf s q
      ∧ (pushed s q cycles es bad).mortar = s.mortar := by
  have hcontexts : Contexts s (queueEvents (bump s R.HOD_REFUSED 31 0 1) q (ctxDepth (peekCtx s q)) (ctxDepth (peekCtx s q)) true) :=
    (contexts_of_onPage (onPage_bump (pg := P.hod) (by decide))).trans (occurs_queueEvents _ _ _ _ _).contexts
  unfold pushed
  rw [admitPushes_full hfull]
  exact ⟨rfl, hcontexts.pushesOf, hcontexts.mortar⟩

theorem pushed_fits (hup : ctxBankUp s = true)
    (hfits : ctxDepth (peekCtx s q) + ctxResv (peekCtx s q) + es.length ≤ ctxCap (peekCtx s q)) :
    (pushed s q cycles es bad).hod.status = HS.ok
      ∧ (pushesOf (pushed s q cycles es bad) q = pushesOf s q ++ [⟨q, es.length⟩] ∨ ctxState (peekCtx (pushed s q cycles es bad) q) = 2) := by
  obtain ⟨c, ws, hadmit⟩ := admitPushes_fits (bad := bad) hfits
  have hbank : ctxBankUp (joined (putCtx s q c) ⟨q, es.length⟩) = true := (contexts_putCtx s q c).ctxBankUp.trans hup
  have hinflight : (joined (putCtx s q c) ⟨q, es.length⟩).hod.inflight = s.hod.inflight ++ [⟨q, es.length⟩] :=
    congrArg (· ++ [_]) (contexts_putCtx s q c).inflight
  unfold pushed
  rw [hadmit]
  dsimp only
  rw [if_pos rfl]
  refine ⟨rfl, ?_⟩
  generalize hwritten : ringWrites ws (joined (putCtx s q c) ⟨q, es.length⟩) q = w
  have htimed := onPage_urgentTime w q (peekCtx w q) cycles
  have hends := ringWrites_ends (q := q) hbank ws
  rw [hwritten, hinflight] at hends
  refine hends.imp (fun hin => ?_) fun hstate => ?_
  · have hin' : (urgentTime w q (peekCtx w q) cycles).hod.inflight = s.hod.inflight ++ [⟨q, es.length⟩] :=
      (contexts_of_onPage htimed).inflight.trans hin
    rw [pushesOf, show (answer _ HS.ok [] []).hod.inflight = _ from hin', List.filter_append, pushesOf]
    simp
  · rwa [peekCtx_answer, peekCtx_of_onPage htimed]
end

section
variable {s : State} {req : Req} {q cycles : Nat} {es : List (List Byte)} {bad : List Nat}

/-- The work of a command is done on the state with the host's answers, whose queues and memory are those before it. -/
theorem peekCtx_withHost (s : State) (host : List Cpl) (q : Nat) : peekCtx (withHost s host) q = peekCtx s q := peekCtx_congr rfl rfl

theorem readable_withHost (h : Readable s q) (host : List Cpl) : Readable (withHost s host) q := h

theorem runs_devicePush_refused {st : Nat} {hold : Bool} (hq : q < 65536) (h : Readable s q) (hslots : s.hod.slots = [])
    (hcheck : pushCheck (withHost s []) req q (peekCtx s q) es = (withHost s [], st)) (hst : st ≠ HS.ok) :
    Runs (.devicePush req q es bad cycles hold) s fun t => t.hod.status = st ∧ SameBytes s t :=
  runs_of_served rfl (devicePush_refused hq (readable_withHost h []) hslots (by rwa [peekCtx_withHost]) hst) (unheld_of_mortar rfl)
    ⟨rfl, sameBytes_of_mem rfl⟩

variable (hq : q < 65536) (h : Readable s q) (hslots : s.hod.slots = [])
include hq h hslots

theorem runs_devicePush_hold (hcheck : pushCheck (withHost s []) req q (peekCtx s q) es = (withHost s [], HS.ok))
    (hurgent : ctxUrgent (peekCtx s q) = true) : Runs (.devicePush req q es bad cycles true) s fun t =>
      t.hod.slots.get (ctxSlot (peekCtx s q)) = some { queue := q, pushes := [(req, es, bad)] } ∧ pushesOf t q = pushesOf s q ∧ SameBytes s t := by
  have hwork := devicePush_held (s := withHost s []) (bad := bad) (cycles := cycles) hq (readable_withHost h []) hslots
    (by rwa [peekCtx_withHost]) (by rwa [peekCtx_withHost])
  rw [peekCtx_withHost] at hwork
  exact runs_of_served rfl hwork (unheld_of_mortar rfl)
    ⟨slots_holdPush (s := withHost s []) hslots q (peekCtx s q) 0 [(req, es, bad)], rfl, sameBytes_of_mem rfl⟩

theorem completes_devicePush_fits (hcheck : pushCheck (withHost s []) req q (peekCtx s q) es = (withHost s [], HS.ok)) (hup : ctxBankUp s = true)
    (hfits : ctxDepth (peekCtx s q) + ctxResv (peekCtx s q) + es.length ≤ ctxCap (peekCtx s q)) :
    ∃ u, devicePush req q es bad cycles false (withHost s []) = .next u ∧ Completes (.devicePush req q es bad cycles false) s u fun t =>
      t.hod.status = HS.ok ∧ (pushesOf t q = pushesOf s q ++ [⟨q, es.length⟩] ∨ ctxState (peekCtx t q) = 2) := by
  have hwork := devicePush_taken (s := withHost s []) (bad := bad) (cycles := cycles) hq (readable_withHost h []) hslots (by rwa [peekCtx_withHost])
  exact ⟨_, hwork, completes_of_served rfl hwork (pushed_fits (s := withHost s []) hup (by rwa [peekCtx_withHost]))⟩

theorem runs_devicePush_full (hcheck : pushCheck (withHost s []) req q (peekCtx s q) es = (withHost s [], HS.ok))
    (hfull : ctxCap (peekCtx s q) < ctxDepth (peekCtx s q) + ctxResv (peekCtx s q) + es.length) :
    Runs (.devicePush req q es bad cycles false) s fun t => t.hod.status = HS.full ∧ pushesOf t q = pushesOf s q := by
  have hwork := devicePush_taken (s := withHost s []) (bad := bad) (cycles := cycles) hq (readable_withHost h []) hslots (by rwa [peekCtx_withHost])
  obtain ⟨hstatus, hpushes, hmortar⟩ := pushed_full (s := withHost s []) (bad := bad) (cycles := cycles) (by rwa [peekCtx_withHost])
  exact runs_of_served rfl hwork (unheld_of_mortar hmortar) ⟨hstatus, hpushes⟩
end

/-! Trigger pushes (R230, R242). -/

section
variable {s : State} {q n cycles : Nat}

theorem trigPush_taken (hq : q < 65536) (h : Readable s q) (hslots : s.hod.slots = [])
    (hcheck : opCheck s .hw q (peekCtx s q) (decide (ctxProd (peekCtx s q) = 2)) true n = (s, HS.ok)) :
    trigPush s q n cycles = (timed s q (peekCtx s q) n 0 cycles, (hodCycle s q n 0).2) := by
  simp only [trigPush, takeQueue_readable hq h hslots, hcheck, dropHeld_nil hslots, heldPush_nil hslots, ne_eq, not_true_eq_false, if_false, Nat.add_zero]
  rfl

theorem triggerPush_now (hq : q < 65536) (h1 : 1 ≤ n) : triggerPush q n cycles false s =
    answer (trigPush s q (if ctxUrgent (peekCtx s q) then n else 1) cycles).1 (trigPush s q (if ctxUrgent (peekCtx s q) then n else 1) cycles).2 [] [] := by
  simp only [triggerPush, Nat.mod_eq_of_lt hq, Nat.min_eq_right h1, Bool.false_and, Bool.false_eq_true, if_false]

theorem triggerPush_held (hq : q < 65536) (hurgent : ctxUrgent (peekCtx s q) = true)
    (hcheck : opCheck s .hw q (peekCtx s q) (decide (ctxProd (peekCtx s q) = 2)) true n = (s, HS.ok)) :
    triggerPush q n cycles true s = answer (holdPush s q (peekCtx s q) n []) HS.ok [] [] := by
  simp only [triggerPush, Nat.mod_eq_of_lt hq, hurgent, hcheck, Bool.and_self, if_true]

/-- A trigger push of `k` entries, its status and its depth. -/
theorem timed_trigger {k : Nat} (hup : ctxBankUp s = true) :
    if ctxDepth (peekCtx s q) + ctxResv (peekCtx s q) + k > ctxCap (peekCtx s q) then (hodCycle s q k 0).2 = HS.full
    else (hodCycle s q k 0).2 = HS.ok ∧ ctxDepth (peekCtx (timed s q (peekCtx s q) k 0 cycles) q) = ctxDepth (peekCtx s q) + k := by
  rw [hodCycle_status]
  split
  · next hfull => rw [isFull_of_lt hfull, if_pos rfl]
  · next hfits =>
    have hctx := agrees_timed (q := q) hup (peekCtx s q) k 0 cycles
    rw [admitted_fits (Nat.not_lt.1 hfits)] at hctx
    have hcap := cap_le (peekCtx s q)
    have hnot : isFull (peekCtx s q) k = false := decide_eq_false hfits
    exact ⟨by rw [hnot]; rfl, hctx.depth.trans (depth_cycledCtx (by omega))⟩

theorem runs_triggerPush (hq : q < 65536) (h : Readable s q) (hslots : s.hod.slots = []) (h1 : 1 ≤ n) (hstop : hodStops s = false)
    (hen : ctxEn (peekCtx s q) = true) (hstate : ctxState (peekCtx s q) ≠ 2) (hprod : ctxProd (peekCtx s q) = 2) :
    (Runs (.triggerPush q n cycles false) s fun t =>
        if ctxDepth (peekCtx s q) + ctxResv (peekCtx s q) + (if ctxUrgent (peekCtx s q) then n else 1) > ctxCap (peekCtx s q) then t.hod.status = HS.full
        else t.hod.status = HS.ok ∧ ctxDepth (peekCtx t q) = ctxDepth (peekCtx s q) + if ctxUrgent (peekCtx s q) then n else 1)
      ∧ (ctxUrgent (peekCtx s q) = true → Runs (.triggerPush q n cycles true) s fun t =>
        t.hod.status = HS.ok ∧ t.hod.slots.get (ctxSlot (peekCtx s q)) = some { queue := q, count := n } ∧ SameBytes s t) := by
  have hcheck (k : Nat) : opCheck s .hw q (peekCtx s q) (decide (ctxProd (peekCtx s q) = 2)) true k = (s, HS.ok) := by
    rw [hprod]
    exact opCheck_ok hstop hen hstate rfl
  refine ⟨?_, fun hurgent => ?_⟩
  · generalize hk : (if ctxUrgent (peekCtx s q) then n else 1) = k
    have hwork : triggerPush q n cycles false s = answer (timed s q (peekCtx s q) k 0 cycles) (hodCycle s q k 0).2 [] [] := by
      rw [triggerPush_now hq h1, hk, trigPush_taken hq h hslots (hcheck k)]
    refine runs_of_servesIf rfl hwork (contexts_timed _ _ _ _ _ _).mortar ?_
    rw [peekCtx_answer]
    exact timed_trigger (hodStops_false hstop)
  · exact runs_of_servesIf rfl (triggerPush_held hq hurgent (hcheck n)) rfl ⟨rfl, slots_holdPush hslots q (peekCtx s q) n [], fun _ => rfl⟩
end

/-! Pops (R231, R235). -/

section
variable {s : State} {req : Req} {q n role : Nat}

theorem hodPop_empty (hq : q < 65536) (h : Readable s q) (hslots : s.hod.slots = [])
    (hcheck : opCheck s req q (peekCtx s q) (decide (ctxCons (peekCtx s q) = role)) (decide (1 ≤ n) && decide (n ≤ 16)) n = (s, HS.ok))
    (hdepth : ctxDepth (peekCtx s q) < n) : hodPop s req role q n .alone = (s, HS.empty, { st := 0, data := [] }) := by
  simp only [hodPop, takeQueue_readable hq h hslots, hcheck, Nat.not_le.2 hdepth, and_false, if_false, if_true, ne_eq, not_true_eq_false, meetCycle]

theorem hodPop_taken (hq : q < 65536) (h : Readable s q) (hslots : s.hod.slots = [])
    (hcheck : opCheck s req q (peekCtx s q) (decide (ctxCons (peekCtx s q) = role)) (decide (1 ≤ n) && decide (n ≤ 16)) n = (s, HS.ok))
    (h1 : 1 ≤ n) (hdepth : n ≤ ctxDepth (peekCtx s q)) (hst : (ringReads n (hodCycle s q 0 n).1 q (ctxHead (peekCtx s q))).2.st ≤ 1) :
    hodPop s req role q n .alone = ((ringReads n (hodCycle s q 0 n).1 q (ctxHead (peekCtx s q))).1,
      if (ringReads n (hodCycle s q 0 n).1 q (ctxHead (peekCtx s q))).2.st = 1 then HS.poison else HS.ok,
      (ringReads n (hodCycle s q 0 n).1 q (ctxHead (peekCtx s q))).2) := by
  simp only [hodPop, takeQueue_readable hq h hslots, hcheck, hdepth, and_self, if_true, ne_eq, not_true_eq_false, if_false, Nat.ne_of_gt h1, meetCycle,
    gt_iff_lt, Nat.not_lt.2 hst]

/-- A pop takes its entries from the depth. -/
theorem depth_popped (hup : ctxBankUp s = true) : ctxDepth (peekCtx (hodCycle s q 0 n).1 q) = ctxDepth (peekCtx s q) - n := by
  have hlt := depth_lt (peekCtx s q)
  have hnone : admitted (peekCtx s q) 0 = 0 := ite_self 0
  have hctx := agrees_hodCycle (q := q) hup 0 n
  rw [hnone] at hctx
  exact hctx.depth.trans (depth_cycledCtx (by omega))

theorem popCheck_ok {u : State} {c : Nat} (h1 : 1 ≤ n) (hn : n ≤ 16) (hstop : hodStops u = false) (hen : ctxEn c = true) (hstate : ctxState c ≠ 2)
    (hpart : otherPart u req c = false) (hcons : ctxCons c = role) :
    opCheck u req q c (decide (ctxCons c = role)) (decide (1 ≤ n) && decide (n ≤ 16)) n = (u, HS.ok) := by
  rw [decide_eq_true hcons, decide_eq_true h1, decide_eq_true hn]
  exact opCheck_ok hstop hen hstate hpart

theorem runs_devicePop_empty (hq : q < 65536) (h : Readable s q) (hslots : s.hod.slots = []) (host : List Cpl)
    (hcheck : opCheck (withHost s host) req q (peekCtx s q) (decide (ctxCons (peekCtx s q) = 1)) (decide (1 ≤ n) && decide (n ≤ 16)) n
      = (withHost s host, HS.ok))
    (hdepth : ctxDepth (peekCtx s q) < n) :
    Runs (.devicePop req q n .alone host) s fun t => t.hod.status = HS.empty ∧ t.hod.popped = [] ∧ SameBytes s t := by
  have hpop := hodPop_empty (s := withHost s host) (req := req) (role := 1) (n := n) hq (readable_withHost h host) hslots
    (by rwa [peekCtx_withHost]) (by rwa [peekCtx_withHost])
  refine runs_of_served (t := answer (withHost s host) HS.empty [] []) rfl ?_ (unheld_of_mortar rfl) ⟨rfl, rfl, sameBytes_of_mem rfl⟩
  dsimp only
  rw [Nat.mod_eq_of_lt hq, hpop]

theorem gives_devicePop (hq : q < 65536) (h : Readable s q) (hslots : s.hod.slots = []) (host : List Cpl)
    (hcheck : opCheck (withHost s host) req q (peekCtx s q) (decide (ctxCons (peekCtx s q) = 1)) (decide (1 ≤ n) && decide (n ≤ 16)) n
      = (withHost s host, HS.ok))
    (h1 : 1 ≤ n) (hdepth : n ≤ ctxDepth (peekCtx s q)) {r : State × Got}
    (hr : ringReads n (hodCycle (withHost s host) q 0 n).1 q (ctxHead (peekCtx s q)) = r) (hst : r.2.st ≤ 1) (hu : Unheld r.1) :
    Gives (.devicePop req q n .alone host) s (given s (answer r.1 (if r.2.st = 1 then HS.poison else HS.ok) r.2.data r.2.bad)) := by
  subst hr
  have hpop := hodPop_taken (s := withHost s host) (req := req) (role := 1) (n := n) hq (readable_withHost h host) hslots
    (by rwa [peekCtx_withHost]) h1 (by rwa [peekCtx_withHost]) (by rwa [peekCtx_withHost])
  rw [peekCtx_withHost] at hpop
  refine served_next ?_ hu
  dsimp only
  rw [Nat.mod_eq_of_lt hq, hpop]
end

end Sys2Proof.Queues
end

section
/-! The copy engine: a descriptor starts, ends, and has its completion retried (07 R253 to R258). -/
namespace Sys2Proof.Queues
open Sys2Proof Sys2Proof.Machine Sys2Proof.Laws Sys2Proof.Claims Sys2Proof.RegisterPages Sys2Proof.PowerUp

section
variable {s : State} {q cycles : Nat} {host : List Cpl}

/-- A descriptor that is popped and that its completion queue can report joins those in progress. -/
theorem copies_copyStart {r : State × Nat × Got} (hr : hodPop s .hw 3 q 1 .alone = r) (hpop : r.2.1 = HS.ok)
    (hcheck : (cqCheck r.1 q (copyDesc r.2.2.data).cq).2 = true) :
    ∃ j, (copyStart s q .alone).hod.copies = s.hod.copies ++ [j] ∧ j.sq = q ∧ j.cq = (copyDesc r.2.2.data).cq := by
  have hpopped : Keeps progress s r.1 := hr ▸ (Keeps.refl _ s).hodPop
  have hexecuted : Keeps progress s (copyExecute (cqCheck r.1 q (copyDesc r.2.2.data).cq).1 q (copyDesc r.2.2.data)).1 := hpopped.cqCheck.copyExecute
  have hcopies := congrArg Prod.fst hexecuted.hod
  unfold copyStart
  dsimp only
  rw [hr, if_neg (by rw [hpop]; decide), if_neg (not_not.2 hpop), hcheck, Bool.not_true, if_neg Bool.false_ne_true]
  exact ⟨_, congrArg (· ++ [_]) hcopies, rfl, rfl⟩

theorem runs_copyDescriptor {P : State → Prop} (hq : q < 65536) (hready : copyReady s q = true) (hop : nextOpcode s q host ≠ 2)
    (hu : Unheld (copyStart (withHost s host) q .alone)) (hP : P (given s (copyStart (withHost s host) q .alone))) :
    Runs (.copyDescriptor q .alone host) s P := by
  refine runs_of_served (f := fun s => .next (copyStart s (q % 65536) .alone)) (if_pos ?_) (by rw [Nat.mod_eq_of_lt hq]) hu hP
  rw [Nat.mod_eq_of_lt hq, hready, decide_eq_true hop, Bool.and_self]

theorem runs_fillDescriptor {P : State → Prop} (hq : q < 65536) (hready : copyReady s q = true) (hop : nextOpcode s q host = 2)
    (hu : Unheld (copyStart (withHost s host) q .alone)) (hP : P (given s (copyStart (withHost s host) q .alone))) :
    Runs (.fillDescriptor q .alone host) s P := by
  refine runs_of_served (f := fun s => .next (copyStart s (q % 65536) .alone)) (if_pos ?_) (by rw [Nat.mod_eq_of_lt hq]) hu hP
  rw [Nat.mod_eq_of_lt hq, hready, decide_eq_true hop, Bool.and_self]

/-- The descriptor has left those in progress. -/
def ended (s : State) (j : CopyJob) : State := { s with hod := { s.hod with copies := s.hod.copies.erase j } }

/-- The push of a completion, held or not, leaves the descriptors in progress as they are. -/
theorem copies_pushCompletion (s : State) (sq cq : Nat) (rec : List Byte) (copy : Bool) :
    (pushCompletion s sq cq rec copy (some cycles)).hod.copies = s.hod.copies := by
  have hpushed := congrArg Prod.fst ((Keeps.refl progress s).pushRecord (q := cq) (rec := rec) (cycles := cycles)).hod
  unfold pushCompletion
  dsimp only
  split
  · exact hpushed
  · exact hpushed

theorem copies_copyFinish (s : State) (j : CopyJob) : (copyFinish s j (some cycles)).hod.copies = s.hod.copies.erase j := by
  have hchecked : Keeps progress (ended s j) (cqCheck (ended s j) j.sq j.cq).1 := (Keeps.refl _ _).cqCheck
  have hcopies := congrArg Prod.fst hchecked.hod
  show (if _ then _ else if _ then _ else _ : State).hod.copies = (ended s j).hod.copies
  split
  · exact congrArg Prod.fst hchecked.badDescriptor.hod
  · split
    · exact hcopies
    · exact (copies_pushCompletion _ _ _ _ _).trans hcopies

theorem completes_copyComplete (hq : q < 65536) {j : CopyJob} (hj : (s.hod.copies.find? fun j => j.sq = q) = some j) :
    Completes (.copyComplete q cycles) s (copyFinish (withHost s []) j (some cycles)) fun t => t.hod.copies = s.hod.copies.erase j := by
  refine completes_of_served (f := copyComplete q cycles) rfl ?_ (copies_copyFinish _ j)
  unfold copyComplete
  rw [Nat.mod_eq_of_lt hq, show (withHost s []).hod.copies = s.hod.copies from rfl, hj]

/-- The completions held by `s` are `left`. -/
def withHeld (s : State) (left : List HeldCompletion) : State := { s with hod := { s.hod with heldCq := left } }

theorem withHeld_self (s : State) : withHeld s s.hod.heldCq = s := rfl

theorem completes_cqPushRetry (hq : q < 65536) {h : HeldCompletion} (hh : (s.hod.heldCq.find? fun h => h.sq = q) = some h) {r : State × Nat}
    (hr : pushRecord (withHost s []) h.cq h.record (some cycles) = r) :
    Completes (.cqPushRetry q cycles) s (withHeld r.1 (if r.2 = HS.full then s.hod.heldCq else s.hod.heldCq.erase h)) fun t =>
      t.hod.heldCq = if r.2 = HS.full then s.hod.heldCq else s.hod.heldCq.erase h := by
  have hheld : r.1.hod.heldCq = s.hod.heldCq := by
    rw [← hr]
    exact congrArg Prod.snd ((Keeps.refl progress (withHost s [])).pushRecord (q := h.cq) (rec := h.record) (cycles := cycles)).hod
  refine completes_of_served (f := cqPushRetry q cycles) rfl ?_ rfl
  have hwork : cqPushRetry q cycles (withHost s []) = .next (if r.2 = HS.full then r.1 else withHeld r.1 (r.1.hod.heldCq.erase h)) := by
    unfold cqPushRetry
    rw [Nat.mod_eq_of_lt hq, show (withHost s []).hod.heldCq = s.hod.heldCq from rfl, hh]
    dsimp only
    rw [hr]
    rfl
  rw [hwork, ← hheld]
  split
  · rw [withHeld_self]
  · rfl
end

/-- Settles O43, clause by clause: device pushes refused, held, admitted and full, trigger pushes, pops, descriptors, their ends and the retry of a completion. -/
theorem pushesPopsAndCopies : Obligations.PushesPopsAndCopies := by
  unfold Obligations.PushesPopsAndCopies
  intro s req q hq hclean hslots c
  have hr := readable_of_clean hclean
  refine ⟨fun es bad cycles hold hen => ?_, fun es bad cycles hold hstop hen hstate => ?_,
    fun es bad cycles hstop hen hstate hpart hprod hrecord h1 hn => ?_, fun n cycles h1 hstop hen hstate hprod => ?_,
    fun n host h1 hn hstop hen hstate hpart hcons hdepth => ?_, fun n host h1 hn hstop hen hstate hpart hcons hdepth hst hu => ?_,
    fun host hready hpop hcheck hu => ?_, fun j cycles hj => completes_copyComplete hq hj, fun h cycles hh => completes_cqPushRetry hq hh rfl⟩
  · exact runs_devicePush_refused hq hr hslots (opCheck_disabled hen) (by decide)
  · exact runs_devicePush_refused hq hr hslots (opCheck_detached (s := withHost s []) hstop hen hstate) (by decide)
  · have hcheck := pushCheck_ok (s := withHost s []) (req := req) (q := q) hstop hen hstate hpart hprod hrecord h1 hn
    exact ⟨runs_devicePush_hold hq hr hslots hcheck, completes_devicePush_fits hq hr hslots hcheck (hodStops_false hstop),
      runs_devicePush_full hq hr hslots hcheck⟩
  · exact runs_triggerPush hq hr hslots h1 hstop hen hstate hprod
  · exact runs_devicePop_empty hq hr hslots host (popCheck_ok (u := withHost s host) h1 hn hstop hen hstate hpart hcons) hdepth
  · refine ⟨(depth_popped (s := withHost s host) (hodStops_false hstop)).trans (by rw [peekCtx_withHost]), ?_⟩
    exact gives_devicePop hq hr hslots host (popCheck_ok (u := withHost s host) h1 hn hstop hen hstate hpart hcons) h1 hdepth rfl hst hu
  · have hjob := copies_copyStart rfl hpop hcheck
    exact ⟨fun hop => runs_copyDescriptor hq hready hop hu hjob, fun hop => runs_fillDescriptor hq hready hop hu hjob⟩

end Sys2Proof.Queues
end

section
/-! The buffers of Quarry: records, USED, handles and what the PF interface shows (08 R266, R269, R271). -/
namespace Sys2Proof.Buffers
open Sys2Proof Sys2Proof.Machine Sys2Proof.Laws Sys2Proof.Claims Sys2Proof.RegisterPages

section
variable {s t u : State} {i p n : Nat}

/-! Records and USED. -/

@[simp] theorem bufOf_putBuf_self (s : State) (p n : Nat) (b : Buffer) : bufOf (putBuf s p n b) p n = b := SMap.getD_put_self

theorem bufOf_putBuf (s : State) (p n p' n' : Nat) (b : Buffer) :
    bufOf (putBuf s p' n' b) p n = if p * 65536 + n = p' * 65536 + n' then b else bufOf s p n := by
  split
  · next hkey =>
    unfold bufOf
    rw [hkey]
    exact SMap.getD_put_self
  · next hkey => exact SMap.getD_put_ne hkey

@[simp] theorem usedOf_putUsed_self (s : State) (i p n : Nat) : usedOf (putUsed s i p n) i p = n := SMap.getD_put_self

theorem bufOf_of_bufs (h : t.qry.bufs = s.qry.bufs) (p n : Nat) : bufOf t p n = bufOf s p n := congrArg (fun m : SMap Buffer => m.getD (p * 65536 + n) {}) h

theorem bufOf_congr (h : t.qry = s.qry) (p n : Nat) : bufOf t p n = bufOf s p n := bufOf_of_bufs (congrArg Quarry.bufs h) p n

theorem usedOf_congr (h : t.qry = s.qry) (i p : Nat) : usedOf t i p = usedOf s i p := congrArg (fun q : Quarry => SMap.getD q.used (i * 8 + p) 0) h

theorem poolCount_congr (h : t.regs = s.regs) (p : Nat) : poolCount t p = poolCount s p :=
  congrArg (fun m : SMap W32 => bits (m.getD (R.QRY_POOL_CFG p) (resetWord (R.QRY_POOL_CFG p))).toNat 16 0) h

theorem qry_of_onPage {pg : Nat} (h : OnPage pg s t) : t.qry = s.qry := (congrArg State.qry h.rest :)

/-! Handles (R266). -/

theorem handleOf_fields {g : Nat} (hp : p < 8) (hn : n < 65536) (hg : g < 256) :
    handleOf p n g < 2 ^ 27 ∧ handleOf p n g % 8 = p ∧ bits (handleOf p n g) 18 3 = n ∧ bits (handleOf p n g) 26 19 = g := by
  simp only [handleOf, bits, Nat.shiftRight_eq_div_pow, Nat.mod_eq_of_lt hg]
  omega

/-! The registers of the PF interface show the answer of an operation (08 Register page); the state of Quarry and the events of its page stay. -/

/-- `t` holds the state of Quarry, the memory and the events of Quarry's page as `u` does. -/
structure Shows (u t : State) : Prop where
  qry : t.qry = u.qry
  mem : t.mem = u.mem
  events : rd t (hdr P.qry 0x20) = rd u (hdr P.qry 0x20)

theorem Shows.refl (u : State) : Shows u u := ⟨rfl, rfl, rfl⟩

theorem Shows.setReg (h : Shows u t) {off : Nat} (hoff : hdr P.qry 0x20 ≠ off) (v : W32) : Shows u (setReg t off v) :=
  ⟨h.qry, h.mem, (rd_setReg_ne hoff).trans h.events⟩

theorem Shows.wf (h : Shows u t) {off : Nat} (hoff : hdr P.qry 0x20 ≠ off) (hi lo x : Nat) : Shows u (wf t off hi lo x) := h.setReg hoff _

theorem Shows.ite {c : Prop} [Decidable c] {v : State} (ht : Shows u t) (hv : Shows u v) : Shows u (if c then t else v) := by
  split <;> assumption

theorem Shows.pfAllocated (h : Shows u t) (r : Alloc) : Shows u (pfAllocated t r) := by
  have hst := h.wf (off := R.QRY_PF_RESULT) (by decide) 3 0 r.st
  exact (Shows.setReg (.ite (hst.setReg (by decide) _) hst) (by decide) _).setReg (by decide) _

theorem Shows.sameBytes (h : Shows u t) (hu : u.mem = s.mem) : SameBytes s t := sameBytes_of_mem (h.mem.trans hu)

theorem Shows.raised (h : Shows u t) {b : Nat} (hu : Raised u P.qry b) : Raised t P.qry b :=
  (congrArg (fun w : W32 => bit w.toNat b) h.events).trans hu

/-! The store and the scan at an operation. -/

theorem strike_nil (s : State) : strike s [] = s :=
  congrArg (fun us => ({ s with qry := { s.qry with upsets := us } } : State)) (List.append_nil s.qry.upsets)

theorem scanSome_idle (hscan : s.qry.scan = none) : scanSome s = s := by
  unfold scanSome
  rw [hscan]
end

end Sys2Proof.Buffers
end

section
/-! Allocates and frees of buffers, and the start of a reclaim (08 R266, R269 to R274, R279). -/
namespace Sys2Proof.Buffers
open Sys2Proof Sys2Proof.Machine Sys2Proof.Laws Sys2Proof.Claims

section
variable {s : State} {i p n : Nat}

/-! Allocates (R270, R271). -/

/-- Buffer `n` of pool `p` is granted to identity `i`. -/
def granted (s : State) (i p n : Nat) : State :=
  bump (putUsed (putBuf s p n { gen := ((bufOf s p n).gen + 1) % 256, owner := i, used := true }) i p (usedOf s i p + 1)) R.QRY_ALLOCS 31 0 1

theorem bufOf_granted (s : State) (i p n : Nat) : bufOf (granted s i p n) p n = { gen := ((bufOf s p n).gen + 1) % 256, owner := i, used := true } :=
  bufOf_putBuf_self s p n _

theorem usedOf_granted (s : State) (i p n : Nat) : usedOf (granted s i p n) i p = usedOf s i p + 1 := usedOf_putUsed_self _ i p _

/-- What the issuer is answered about buffer `n` of pool `p`. -/
def grant (s : State) (p n : Nat) : Alloc :=
  { st := QS.ok, handle := handleOf p n (((bufOf s p n).gen + 1) % 256), addr := poolBase s p + n * poolSize p }

theorem allocate_granted {size : Nat} (hacc : accepts s P.qry = true) (hscan : s.qry.scan = none)
    (hpool : (firstIdx 8 fun p => poolEn s p && decide (size ≤ poolSize p)) = some p) (hsize : size ≠ 0) (hfence : p ∉ s.qry.fenced)
    (hquota : i = 53 ∨ quotaOf s i p = 0xFFFF ∨ usedOf s i p < quotaOf s i p) (hmeet : meetUpset s p (some (lowestFree (allocated s p) 0)) = none)
    (hfree : lowestFree (allocated s p) 0 < poolCount s p) :
    allocate s i size = (granted s i p (lowestFree (allocated s p) 0), grant s p (lowestFree (allocated s p) 0)) := by
  have hwithin : ¬(i ≠ 53 ∧ quotaOf s i p ≠ 0xFFFF ∧ usedOf s i p ≥ quotaOf s i p) := by omega
  unfold allocate
  rw [scanSome_idle hscan]
  simp only [hacc, hscan, hpool, hsize, hfence, hwithin, hmeet, hfree, Nat.not_le.2 hfree, Bool.not_true, Bool.false_eq_true, Option.map_none,
    reduceCtorEq, List.contains_iff_mem, ge_iff_le, if_true, if_false]
  rfl

theorem allocate_noSize (hacc : accepts s P.qry = true) (hscan : s.qry.scan = none) (i : Nat) : allocate s i 0 = (s, { st := QS.noPool }) := by
  unfold allocate
  rw [scanSome_idle hscan]
  simp only [hacc, hscan, Bool.not_true, Bool.false_eq_true, Option.map_none, reduceCtorEq, if_true, if_false]

theorem runs_allocate {size : Nat} {r : State × Alloc} (hi : i ≤ 53) (hr : allocate s i size = r) :
    Runs (.allocate i size []) s (Shows (answerQry r.1 r.2.st r.2.handle r.2.addr)) := by
  refine ⟨_, ?_, .ite (c := i = 53) (.pfAllocated (.refl _) r.2) (.refl _)⟩
  show execAllocate i size [] s = _
  unfold execAllocate
  rw [if_neg (Nat.not_lt.2 hi), strike_nil, hr]

theorem runs_allocate_granted (hi : i ≤ 53) {size : Nat} (hr : allocate s i size = (granted s i p n, grant s p n)) :
    Runs (.allocate i size []) s fun t =>
      t.qry.status = QS.ok ∧ t.qry.handle = handleOf p n (((bufOf s p n).gen + 1) % 256) ∧ t.qry.addr = poolBase s p + n * poolSize p
        ∧ bufOf t p n = { gen := ((bufOf s p n).gen + 1) % 256, owner := i, used := true } ∧ usedOf t i p = usedOf s i p + 1 ∧ SameBytes s t := by
  obtain ⟨t, hexec, hshows⟩ := runs_allocate hi hr
  refine ⟨t, hexec, ?_⟩
  beta_reduce
  rw [hshows.qry]
  exact ⟨rfl, rfl, rfl, (bufOf_congr hshows.qry p n).trans (bufOf_granted s i p n), (usedOf_congr hshows.qry i p).trans (usedOf_granted s i p n),
    hshows.sameBytes rfl⟩

/-! Frees (R272 to R274). -/

/-- Buffer `n` of pool `p` has returned to its pool. -/
def freed (s : State) (p n : Nat) : State :=
  let owner := (bufOf s p n).owner
  bump (putUsed (putBuf s p n { bufOf s p n with used := false }) owner p (usedOf s owner p - 1)) R.QRY_FREES 31 0 1

theorem used_freed (s : State) (p n : Nat) : (bufOf (freed s p n) p n).used = false := congrArg Buffer.used (bufOf_putBuf_self s p n _)

theorem qry_badFree (s : State) (req : Req) (cause h : Nat) : (badFree s req cause h).qry = s.qry :=
  qry_of_onPage ((onPage_fault cause req h none).trans (onPage_raise (pg := P.qry) 10))

theorem raised_badFree (s : State) (req : Req) (cause h : Nat) : Raised (badFree s req cause h) P.qry 10 := rb_raise _ _ (by decide)

/-- A free of a handle of an existing buffer, in a pool that is enabled and whole, goes by the generation and the bitmap bit. -/
theorem freeHandle_exists {req : Req} {g : Nat} (hacc : accepts s P.qry = true) (hscan : s.qry.scan = none) (hp : p < 8) (hcount : n < poolCount s p)
    (hn : n < 65536) (hen : poolEn s p = true) (hfence : p ∉ s.qry.fenced) (hg : g < 256) (hmeet : meetUpset s p (some n) = none) :
    freeHandle s req i (handleOf p n g) =
      if g ≠ (bufOf s p n).gen then (badFree s req 2 (handleOf p n g), QS.stale)
      else if !(bufOf s p n).used then (badFree s req 1 (handleOf p n g), QS.doubleFree)
      else if !mayFree s i (bufOf s p n).owner then (badFree s req 4 (handleOf p n g), QS.notOwner)
      else (freed s p n, QS.ok) := by
  obtain ⟨hlt, hpool, hindex, hgen⟩ := handleOf_fields hp hn hg
  have hvalid : ¬(handleOf p n g ≥ 2 ^ 27 ∨ (!poolEn s p) = true ∨ n ≥ poolCount s p) := by
    rw [hen]
    simp only [Bool.not_true, Bool.false_eq_true, false_or]
    omega
  unfold freeHandle
  rw [scanSome_idle hscan]
  dsimp only
  rw [hpool, hindex, hgen, hmeet, if_neg (by simp [hacc]), if_neg (by simp [hscan]), if_neg hvalid, if_neg (by simpa using hfence)]
  rfl

theorem runs_free {req : Req} {h : Nat} {r : State × Nat} (hi : i ≤ 53) (hreq : idReq i = req) (hr : freeHandle s req i h = r) :
    Runs (.free req i h []) s (Shows (answerQry r.1 r.2 h 0)) := by
  refine ⟨_, ?_, .ite (c := i = 53) (.wf (.refl _) (off := R.QRY_PF_RESULT) (by decide) 3 0 r.2) (.refl _)⟩
  show execFree req i h [] s = _
  unfold execFree
  rw [if_neg (not_or.2 ⟨Nat.not_lt.2 hi, not_not.2 hreq⟩), strike_nil, hr]

theorem runs_free_ok {req : Req} {h : Nat} (hi : i ≤ 53) (hreq : idReq i = req) (hr : freeHandle s req i h = (freed s p n, QS.ok)) :
    Runs (.free req i h []) s fun t => t.qry.status = QS.ok ∧ (bufOf t p n).used = false ∧ SameBytes s t := by
  obtain ⟨t, hexec, hshows⟩ := runs_free hi hreq hr
  refine ⟨t, hexec, congrArg Quarry.status hshows.qry, ?_, hshows.sameBytes rfl⟩
  exact (congrArg Buffer.used (bufOf_congr hshows.qry p n)).trans (used_freed s p n)

theorem runs_free_refused {req : Req} {h cause st : Nat} (hi : i ≤ 53) (hreq : idReq i = req) (hr : freeHandle s req i h = (badFree s req cause h, st))
    (p n : Nat) : Runs (.free req i h []) s fun t => t.qry.status = st ∧ bufOf t p n = bufOf s p n ∧ Raised t P.qry 10 := by
  obtain ⟨t, hexec, hshows⟩ := runs_free hi hreq hr
  refine ⟨t, hexec, congrArg Quarry.status hshows.qry, ?_, hshows.raised (raised_badFree s req cause h)⟩
  exact (bufOf_congr hshows.qry p n).trans (bufOf_congr (qry_badFree s req cause h) p n)

/-! A reclaim starts (R279). -/

theorem runs_reclaim (hacc : accepts s P.qry = true) (hscan : s.qry.scan = none) (i : Nat) :
    Runs (.reclaim .pf i) s (Shows (startReclaim s i)) := by
  refine ⟨_, ?_, .wf (.refl _) (off := R.QRY_PF_RESULT) (by decide) 3 0 QS.ok⟩
  show execReclaim .pf i s = _
  unfold execReclaim
  rw [if_neg (not_not.2 rfl), if_neg (by simp [hscan]), if_neg (by simp [hacc])]
end

end Sys2Proof.Buffers
end

section
/-! The scan of a reclaim to its end, where it meets no uncorrectable word (08 R279): every buffer of its identity is freed. -/
namespace Sys2Proof.Buffers
open Sys2Proof Sys2Proof.Machine Sys2Proof.Laws Sys2Proof.Claims

/-- From `s` to `t` a scan for identity `i` has gone on: a record stays as it is, or it is one of `i`'s and its buffer is free. -/
structure Scanned (i : Nat) (s t : State) : Prop where
  regs : t.regs = s.regs
  upsets : t.qry.upsets = s.qry.upsets
  record : ∀ p n, bufOf t p n = bufOf s p n ∨ ((bufOf s p n).owner = i ∧ (bufOf t p n).owner = i ∧ (bufOf t p n).used = false)

section
variable {i p n : Nat} {s t u : State}

theorem Scanned.refl (i : Nat) (s : State) : Scanned i s s := ⟨rfl, rfl, fun _ _ => .inl rfl⟩

theorem Scanned.owner (h : Scanned i s t) (howner : (bufOf s p n).owner = i) : (bufOf t p n).owner = i := by
  rcases h.record p n with hsame | ⟨-, hafter, -⟩
  · rw [hsame, howner]
  · exact hafter

theorem Scanned.free (h : Scanned i s t) (hfree : (bufOf s p n).used = false) : (bufOf t p n).used = false := by
  rcases h.record p n with hsame | ⟨-, -, hafter⟩
  · rw [hsame, hfree]
  · exact hafter

theorem Scanned.trans (h : Scanned i s t) (k : Scanned i t u) : Scanned i s u := by
  refine ⟨k.regs.trans h.regs, k.upsets.trans h.upsets, fun p n => ?_⟩
  rcases h.record p n with hsame | ⟨hbefore, howner, hfree⟩
  · rw [← hsame]
    exact k.record p n
  · exact .inr ⟨hbefore, k.owner howner, k.free hfree⟩

/-! One record. -/

/-- The record of a buffer of identity `i` as the scan leaves it. -/
def reclaimed (i : Nat) (b : Buffer) : Buffer := { gen := (b.gen + 1) % 256, owner := i, used := false }

/-- The scan passes over the record of another identity. -/
theorem reclaimBuf_other (h : (bufOf s p n).owner ≠ i) : reclaimBuf i s p n = s := if_pos h

theorem reclaimBuf_own (h : (bufOf s p n).owner = i) : (reclaimBuf i s p n).regs = s.regs ∧ (reclaimBuf i s p n).qry.upsets = s.qry.upsets
    ∧ (reclaimBuf i s p n).qry.bufs = (putBuf s p n (reclaimed i (bufOf s p n))).qry.bufs := by
  unfold reclaimBuf
  rw [if_neg (not_not.2 h)]
  dsimp only
  split
  · exact ⟨rfl, rfl, rfl⟩
  · exact ⟨rfl, rfl, rfl⟩

theorem bufOf_reclaimBuf (h : (bufOf s p n).owner = i) (p' n' : Nat) :
    bufOf (reclaimBuf i s p n) p' n' = if p' * 65536 + n' = p * 65536 + n then reclaimed i (bufOf s p n) else bufOf s p' n' :=
  (bufOf_of_bufs (reclaimBuf_own h).2.2 p' n').trans (bufOf_putBuf s p' n' p n _)

theorem used_reclaimBuf (h : (bufOf s p n).owner = i) : (bufOf (reclaimBuf i s p n) p n).used = false := by
  rw [bufOf_reclaimBuf h, if_pos rfl]
  rfl

theorem scanned_reclaimBuf (i : Nat) (s : State) (p n : Nat) : Scanned i s (reclaimBuf i s p n) := by
  by_cases h : (bufOf s p n).owner = i
  · obtain ⟨hregs, hupsets, -⟩ := reclaimBuf_own h
    refine ⟨hregs, hupsets, fun p' n' => ?_⟩
    rw [bufOf_reclaimBuf h]
    split
    · next hkey =>
      have hsame : bufOf s p' n' = bufOf s p n := congrArg (fun k => SMap.getD s.qry.bufs k {}) hkey
      exact .inr ⟨(congrArg Buffer.owner hsame).trans h, rfl, rfl⟩
    · exact .inl rfl
  · rw [reclaimBuf_other h]
    exact .refl i s

/-! The records of a pool. -/

theorem scanned_foldl (i p : Nat) (ns : List Nat) (s : State) : Scanned i s (ns.foldl (fun s n => reclaimBuf i s p n) s) := by
  induction ns generalizing s with
  | nil => exact .refl i s
  | cons n ns ih => exact (scanned_reclaimBuf i s p n).trans (ih _)

theorem used_foldl (ns : List Nat) (hmem : n ∈ ns) (howner : (bufOf s p n).owner = i) :
    (bufOf (ns.foldl (fun s n => reclaimBuf i s p n) s) p n).used = false := by
  induction ns generalizing s with
  | nil => cases hmem
  | cons m ns ih =>
    rcases List.mem_cons.1 hmem with rfl | htail
    · exact (scanned_foldl i p ns _).free (used_reclaimBuf howner)
    · exact ih htail ((scanned_reclaimBuf i s p m).owner howner)

/-- The records of pool `p` below `z` that a scan for identity `i` reads: every one for identity 0, which owns the records that are not listed. -/
def records (i : Nat) (s : State) (p z : Nat) : List Nat :=
  if i = 0 then span 0 z
  else ((s.qry.bufs.filter fun e => decide (e.1 / 65536 = p)).map (·.1 % 65536)).filter fun n => decide (0 ≤ n) && decide (n < z)

theorem mem_of_getD_ne {α : Type} {m : SMap α} {k : Nat} {d : α} (h : SMap.getD m k d ≠ d) : (k, SMap.getD m k d) ∈ m := by
  induction m with
  | nil => exact absurd rfl h
  | cons e m ih =>
    obtain ⟨j, v⟩ := e
    unfold SMap.getD SMap.get at h ⊢
    split
    · next hkey => exact hkey ▸ List.mem_cons_self
    · next hkey =>
      rw [if_neg hkey] at h
      exact List.mem_cons_of_mem _ (ih h)

theorem mem_records {z : Nat} (hz : n < z) (hn : n < 65536) (howner : (bufOf s p n).owner = i) : n ∈ records i s p z := by
  unfold records
  split
  · exact List.mem_map.2 ⟨n, List.mem_range.2 hz, Nat.zero_add n⟩
  · next hi =>
    have hlisted : (p * 65536 + n, bufOf s p n) ∈ s.qry.bufs := mem_of_getD_ne fun hdefault => hi (by
      rw [← howner]
      exact congrArg Buffer.owner hdefault)
    have hkey : (p * 65536 + n) / 65536 = p := by omega
    have hindex : (p * 65536 + n) % 65536 = n := by omega
    exact List.mem_filter.2 ⟨List.mem_map.2 ⟨_, List.mem_filter.2 ⟨hlisted, decide_eq_true hkey⟩, hindex⟩, by simp [hz]⟩

theorem scanStop_none (hupsets : s.qry.upsets = []) (i p a z : Nat) : scanStop s i p a z = none := by
  simp [scanStop, hupsets]

theorem reclaimPool_whole (hupsets : s.qry.upsets = []) (i p z : Nat) :
    reclaimPool i s p 0 z = (records i s p z).foldl (fun s n => reclaimBuf i s p n) s := by
  unfold reclaimPool
  rw [scanStop_none hupsets]
  rfl

theorem scanned_reclaimPool (hupsets : s.qry.upsets = []) (i p z : Nat) : Scanned i s (reclaimPool i s p 0 z) := by
  rw [reclaimPool_whole hupsets]
  exact scanned_foldl i p _ s

/-! The pools. -/

/-- The state after the scan of pool `p`, from which the next pool is scanned. -/
def passed (i : Nat) (s : State) (p : Nat) : State :=
  updQry (reclaimPool i s p 0 (poolCount s p)) fun q => { q with scanAt := 0, scan := q.scan.map fun c => (c.1, c.2.filter (· ≠ p)) }

theorem scanned_passed (hupsets : s.qry.upsets = []) (i p : Nat) : Scanned i s (passed i s p) := by
  obtain ⟨hregs, hups, hrecord⟩ := scanned_reclaimPool hupsets i p (poolCount s p)
  exact ⟨hregs, hups, hrecord⟩

theorem used_passed (hupsets : s.qry.upsets = []) (hcount : n < poolCount s p) (hn : n < 65536) (howner : (bufOf s p n).owner = i) :
    (bufOf (passed i s p) p n).used = false := by
  have hfolded := used_foldl (records i s p (poolCount s p)) (mem_records hcount hn howner) howner
  rwa [← reclaimPool_whole hupsets] at hfolded

/-- With records enough to go, a pool is scanned whole before the next. -/
theorem scanOn_cons_whole (i p : Nat) (ps : List Nat) {k : Nat} (hupsets : s.qry.upsets = []) (hat : s.qry.scanAt = 0) (hk : poolCount s p ≤ k) :
    scanOn i (p :: ps) s k = scanOn i ps (passed i s p) (k - poolCount s p) := by
  have hend : min (poolCount s p) (0 + k) = poolCount s p := by omega
  have hpool : poolCount (reclaimPool i s p 0 (poolCount s p)) p = poolCount s p := poolCount_congr (scanned_reclaimPool hupsets i p _).regs p
  simp only [scanOn, hat, hend, hpool, Nat.sub_zero, Nat.lt_irrefl, if_false]
  rfl

theorem scanOn_whole (ps : List Nat) {k : Nat} (hupsets : s.qry.upsets = []) (hat : s.qry.scanAt = 0) (hcount : ∀ p, poolCount s p ≤ 65536)
    (hk : ps.length * 65536 ≤ k) :
    Scanned i s (scanOn i ps s k) ∧ ∀ p ∈ ps, ∀ n, n < poolCount s p → (bufOf s p n).owner = i → (bufOf (scanOn i ps s k) p n).used = false := by
  induction ps generalizing s k with
  | nil => exact ⟨.refl i s, fun p hp => absurd hp List.not_mem_nil⟩
  | cons p ps ih =>
    have hp := hcount p
    have hpassed := scanned_passed hupsets i p
    have hpool (q : Nat) : poolCount (passed i s p) q = poolCount s q := poolCount_congr hpassed.regs q
    rw [List.length_cons, Nat.succ_mul] at hk
    obtain ⟨hscanned, hfreed⟩ := ih (s := passed i s p) (k := k - poolCount s p) (hpassed.upsets.trans hupsets) rfl (fun q => (hpool q).trans_le (hcount q))
      (Nat.le_sub_of_add_le ((Nat.add_le_add_left hp _).trans hk))
    rw [scanOn_cons_whole i p ps hupsets hat (by omega)]
    refine ⟨hpassed.trans hscanned, fun q hq n hn howner => ?_⟩
    rcases List.mem_cons.1 hq with rfl | htail
    · exact hscanned.free (used_passed hupsets hn (by omega) howner)
    · exact hfreed q htail n (by rwa [hpool]) (hpassed.owner howner)
end

/-! RECLAIM_DONE. -/

/-- A reclaim of identity `i` with the pools `ps` to scan. -/
def reclaiming (s : State) (i : Nat) (ps : List Nat) : State := { s with qry := { s.qry with scan := some (i, ps) } }

section
variable {s : State} {i : Nat} {ps : List Nat}

/-- The end of the scan of `r`, where the records `ue` have become uncorrectable. -/
def scanEnd (r : State) (i : Nat) (ps : List Nat) (ue : List (Nat × Nat)) : State :=
  updQry (scanOn i ps (strike r (ue.map fun e => { pool := e.1, ix := e.2, bitmap := false })) (8 * 65536)) fun q => { q with scan := none, scanAt := 0 }

theorem gives_reclaimDone (s : State) (i : Nat) (ps : List Nat) (ue : List (Nat × Nat)) :
    Gives (.reclaimDone ue) (reclaiming s i ps) (scanEnd (reclaiming s i ps) i ps ue) := rfl

theorem used_scanEnd (hupsets : s.qry.upsets = []) (hat : s.qry.scanAt = 0) (hlength : ps.length ≤ 8) (hcount : ∀ p, poolCount s p ≤ 65536)
    {p n : Nat} (hp : p ∈ ps) (hn : n < poolCount s p) (howner : (bufOf s p n).owner = i) :
    (bufOf (scanEnd (reclaiming s i ps) i ps []) p n).used = false := by
  have hused := (scanOn_whole (s := reclaiming s i ps) (i := i) ps hupsets hat hcount (Nat.mul_le_mul_right _ hlength)).2 p hp n hn howner
  have hstrike : strike (reclaiming s i ps) (([] : List (Nat × Nat)).map fun e => { pool := e.1, ix := e.2, bitmap := false }) = reclaiming s i ps :=
    strike_nil _
  unfold scanEnd
  rw [hstrike]
  exact hused
end

/-- Settles O44, clause by clause: allocates granted and of size 0, frees taken, doubled and stale, the start of a reclaim and its end. -/
theorem bufferPools : Obligations.BufferPools := by
  unfold Obligations.BufferPools
  intro s req i hacc hscan hi
  refine ⟨fun size p hpool hsize hfence hquota hmeet hfree _ => ?_, fun size hsize => ?_, fun p n hreq hp hcount hn hen hfence hgen hmeet => ?_, ?_,
    fun ue ps => ⟨_, gives_reclaimDone s i ps ue, rfl, fun hue hupsets hat hlength hcount p hp n hn howner => ?_⟩⟩
  · exact runs_allocate_granted hi (allocate_granted hacc hscan hpool hsize hfence hquota hmeet hfree)
  · subst hsize
    obtain ⟨t, hexec, hshows⟩ := runs_allocate hi (allocate_noSize hacc hscan i)
    exact ⟨t, hexec, congrArg Quarry.status hshows.qry⟩
  · have hfree {g : Nat} (hg : g < 256) := freeHandle_exists (i := i) (req := req) hacc hscan hp hcount hn hen hfence hg hmeet
    refine ⟨fun hused hmay => runs_free_ok hi hreq ?_, fun hunused => runs_free_refused (cause := 1) hi hreq ?_ p n,
      fun g hg hstale => runs_free_refused (cause := 2) hi hreq ?_ p n⟩
    · rw [hfree hgen, if_neg (not_not.2 rfl), if_neg (by simp [hused]), if_neg (by simp [hmay])]
    · rw [hfree hgen, if_neg (not_not.2 rfl), if_pos (by simp [hunused])]
    · rw [hfree hg, if_pos hstale]
  · obtain ⟨t, hexec, hshows⟩ := runs_reclaim hacc hscan i
    refine ⟨t, hexec, (congrArg Quarry.scan hshows.qry).trans ?_, congrArg Quarry.status hshows.qry, (congrArg Quarry.bufs hshows.qry :)⟩
    show some (i % 64, _) = some (i, _)
    rw [Nat.mod_eq_of_lt (by omega)]
  · subst hue
    exact used_scanEnd hupsets hat hlength hcount hp hn howner

end Sys2Proof.Buffers
end

section
/-! What the requests of engines leave alone: the sources of frames, and all that belongs to the other blocks (03 R58, R70 to R84; 07 R228 to R242; 08 R270 to R276). -/
namespace Sys2Proof.Streams
open Sys2Proof Sys2Proof.Machine Sys2Proof.Laws Sys2Proof.Mesh Sys2Proof.Subchannels Sys2Proof.Queues

/-! Operations of Quarry (08 R270 to R276, R279, R280). -/

/-- From `s` to `t` Quarry works: nothing changes but its state, the free values drawn, registers and messages. -/
structure OnQuarry (s t : State) : Prop where
  rest : t = { s with
    regs := t.regs, fypSignals := t.fypSignals, toFlt := t.toFlt, toCsh := t.toCsh, drawn := t.drawn, pci := t.pci, qry := t.qry }

section
variable {s t w : State} {i p : Nat}

theorem OnQuarry.refl (s : State) : OnQuarry s s := ⟨rfl⟩

theorem OnQuarry.trans (h : OnQuarry s t) (k : OnQuarry t w) : OnQuarry s w := by
  have hr := h.rest
  have kr := k.rest
  rw [hr] at kr
  exact ⟨kr⟩

theorem OnQuarry.ite {c : Prop} [Decidable c] (ht : OnQuarry s t) (hw : OnQuarry s w) : OnQuarry s (if c then t else w) := by
  split <;> assumption

theorem OnQuarry.iteFst {α : Type} {c : Prop} [Decidable c] {x y : State × α} (hx : OnQuarry s x.1) (hy : OnQuarry s y.1) :
    OnQuarry s (if c then x else y).1 := by
  split <;> assumption

theorem OnQuarry.onPage {pg : Nat} (h : OnQuarry s t) (k : OnPage pg t w) : OnQuarry s w := h.trans ⟨by rw [k.rest]⟩

theorem OnQuarry.raise (h : OnQuarry s t) {pg b : Nat} : OnQuarry s (raise t pg b) := h.onPage (onPage_raise b)

theorem OnQuarry.bump (h : OnQuarry s t) {off hi lo n : Nat} : OnQuarry s (bump t off hi lo n) := h.trans ⟨rfl⟩

theorem OnQuarry.putBuf (h : OnQuarry s t) {n : Nat} {b : Buffer} : OnQuarry s (putBuf t p n b) := h.trans ⟨rfl⟩

theorem OnQuarry.putUsed (h : OnQuarry s t) {n : Nat} : OnQuarry s (putUsed t i p n) := h.trans ⟨rfl⟩

theorem OnQuarry.fencePool (h : OnQuarry s t) {ix : Nat} : OnQuarry s (fencePool t p ix) :=
  .raise (.onPage (h.trans (w := updQry t _) ⟨rfl⟩) (onPage_hwFault _ _))

theorem OnQuarry.badFree (h : OnQuarry s t) {req : Req} {cause x : Nat} : OnQuarry s (badFree t req cause x) := .raise (h.onPage (onPage_fault _ _ _ _))

theorem OnQuarry.reclaimBuf (h : OnQuarry s t) {n : Nat} : OnQuarry s (reclaimBuf i t p n) := .ite h (.ite h.putBuf.putUsed h.putBuf)

theorem OnQuarry.reclaimPool (h : OnQuarry s t) {a z : Nat} : OnQuarry s (reclaimPool i t p a z) := by
  have hbufs (ns : List Nat) : OnQuarry s (ns.foldl (fun s n => Machine.reclaimBuf i s p n) t) :=
    List.foldlRecOn ns _ h fun _ k _ _ => k.reclaimBuf
  unfold Machine.reclaimPool
  dsimp only
  split
  · exact (hbufs _).fencePool
  · exact hbufs _

theorem OnQuarry.scanOn (h : OnQuarry s t) {k : Nat} (ps : List Nat) : OnQuarry s (scanOn i ps t k) := by
  induction ps generalizing t k with
  | nil => exact h
  | cons p ps ih => exact .ite (.ite (h.reclaimPool.trans ⟨rfl⟩) h.reclaimPool) (ih (h.reclaimPool.trans ⟨rfl⟩))

theorem OnQuarry.scanSome (h : OnQuarry s t) : OnQuarry s (scanSome t) := by
  unfold Machine.scanSome
  split
  · exact h
  · exact .scanOn (h.trans ⟨rfl⟩) _

theorem OnQuarry.freeHandle (h : OnQuarry s t) {req : Req} {x : Nat} : OnQuarry s (freeHandle t req i x).1 := by
  have k := h.scanSome
  unfold Machine.freeHandle
  refine .iteFst k.badFree (.iteFst k (.iteFst k.badFree (.iteFst k ?_)))
  split
  · exact k.fencePool
  · exact .iteFst k.badFree (.iteFst k.badFree (.iteFst k.badFree k.putBuf.putUsed.bump))

theorem OnQuarry.allocate (h : OnQuarry s t) {size : Nat} : OnQuarry s (allocate t i size).1 := by
  have k := h.scanSome
  unfold Machine.allocate
  refine .iteFst k (.iteFst k ?_)
  split
  · exact k
  · refine .iteFst k (.iteFst k.bump.raise ?_)
    dsimp only
    split
    · exact k.fencePool
    · exact .iteFst k.bump.raise k.putBuf.putUsed.bump

theorem OnQuarry.mortar (h : OnQuarry s t) : t.mortar = s.mortar := (congrArg State.mortar h.rest :)
end

/-! What the requests of engines reach. -/

/-- From `s` to `t` requests of engines are presented and performed: outside the registers, the messages, the islands and the mesh, memory, the endpoint, the
DRAM subsystem, Hod, Quarry and the dispatcher nothing changes. -/
structure Reaches (s t : State) : Prop where
  rest : t = { s with
    regs := t.regs, fypSignals := t.fypSignals, toFlt := t.toFlt, toCsh := t.toCsh, isl := t.isl, mortar := t.mortar, mem := t.mem, poison := t.poison,
    eccErr := t.eccErr, drawn := t.drawn, pci := t.pci, dram := t.dram, hod := t.hod, qry := t.qry, dpt := t.dpt }

section
variable {s t w : State}

theorem Reaches.refl (s : State) : Reaches s s := ⟨rfl⟩

theorem Reaches.trans (h : Reaches s t) (k : Reaches t w) : Reaches s w := by
  have hr := h.rest
  have kr := k.rest
  rw [hr] at kr
  exact ⟨kr⟩

theorem Reaches.ite {c : Prop} [Decidable c] (ht : Reaches s t) (hw : Reaches s w) : Reaches s (if c then t else w) := by
  split <;> assumption

theorem Reaches.iteFst {α : Type} {c : Prop} [Decidable c] {x y : State × α} (hx : Reaches s x.1) (hy : Reaches s y.1) :
    Reaches s (if c then x else y).1 := by
  split <;> assumption

theorem Reaches.foldl {α : Type} {f : State → α → State} (hf : ∀ t x, Reaches s t → Reaches s (f t x)) (l : List α) (h : Reaches s t) :
    Reaches s (l.foldl f t) := List.foldlRecOn l f h fun _ k _ _ => hf _ _ k

theorem Reaches.onPage {pg : Nat} (h : Reaches s t) (k : OnPage pg t w) : Reaches s w := h.trans ⟨by rw [k.rest]⟩

theorem Reaches.onDram {ps : List Nat} (h : Reaches s t) (k : OnDram ps t w) : Reaches s w := h.trans ⟨by rw [k.rest]⟩

theorem Reaches.checks (h : Reaches s t) (k : Checks t w) : Reaches s w := h.trans ⟨by rw [k.rest]⟩

theorem Reaches.contexts (h : Reaches s t) (k : Contexts t w) : Reaches s w := h.trans ⟨by rw [k.rest]⟩

theorem Reaches.onQuarry (h : Reaches s t) (k : OnQuarry t w) : Reaches s w := h.trans ⟨by rw [k.rest]⟩

theorem Reaches.ing (h : Reaches s t) : t.ing = s.ing := (congrArg State.ing h.rest :)

theorem Reaches.fault (h : Reaches s t) {pg cause : Nat} {req : Req} {info : Nat} {a : Option Nat} : Reaches s (fault t pg cause req info a) :=
  h.onPage (onPage_fault cause req info a)

theorem Reaches.hwFault (h : Reaches s t) {pg cause info : Nat} : Reaches s (hwFault t pg cause info) := h.fault

theorem Reaches.raise (h : Reaches s t) {pg b : Nat} : Reaches s (raise t pg b) := h.onPage (onPage_raise b)

theorem Reaches.bump (h : Reaches s t) {off hi lo n : Nat} : Reaches s (bump t off hi lo n) := h.trans ⟨rfl⟩

theorem Reaches.wake (h : Reaches s t) {n : Nat} : Reaches s (wake t n) := h.checks (checks_wake t n)

theorem Reaches.countFlits (h : Reaches s t) {c : Chan} {n : Nat} : Reaches s (countFlits t c n) := h.bump

theorem Reaches.block (h : Reaches s t) : Reaches s (block t) := h.trans ⟨rfl⟩
end

/-! Writes: to the host, to a window, to DRAM and to SRAM. -/

section
variable {s t w : State} {v : Via} {u a : Nat} {r : DramReq} {bs : List Byte} {bad : List (Nat × Nat)}

theorem Reaches.storeBytes (h : Reaches s t) : Reaches s (storeBytes t a bs bad) := by
  refine Reaches.checks (h.trans ⟨?_⟩) (checks_storeBytes t a bs bad)
  rw [setBytes_rest]

theorem Reaches.admitStopped (h : Reaches s t) (n : Nat) : Reaches s (admitStopped u n t) := by
  induction n generalizing t with
  | zero => exact h
  | succ n ih =>
    unfold Machine.admitStopped
    split
    · exact h
    · exact ih (h.onDram (ps := []) (OnDram.refl t).updSub.enterQueue)

theorem Reaches.issueWrite (h : Reaches s t) {i : Nat} : Reaches s (issueWrite t u i r) := by
  have hopened : Reaches s (openFor t u r) := h.onDram ((Commands.refl (ps := [P.dmc (u / 2)]) t).openFor (by simp)).onDram
  have htaken : Reaches s (updSub (openFor t u r) u fun k => { k with writes := k.writes.eraseIdx i }) := hopened.trans ⟨rfl⟩
  have hissued := htaken.onDram ((Commands.refl (ps := [P.flt]) _).issueCommand (u := u) (r := r) (by simp)).onDram
  exact (hissued.storeBytes.onDram (ps := []) (OnDram.refl _).drainState).admitStopped _

theorem Reaches.drainOne (h : Reaches s t) (hw : drainOne t u = some w) : Reaches s w := by
  unfold Machine.drainOne at hw
  split at hw
  · cases hw
  · split at hw
    · cases hw
    · cases hw
      exact Reaches.issueWrite (h.trans ⟨rfl⟩)

theorem Reaches.engineWrite (h : Reaches s t) (hw : engineWrite t u r = some w) : Reaches s w := by
  have henter {x : State} (k : Reaches s x) : Reaches s (enterQueue { x with dram := { x.dram with seq := x.dram.seq + 1 } } u { r with seq := x.dram.seq }) :=
    k.onDram (ps := []) (OnDram.refl x).dram.enterQueue
  unfold Machine.engineWrite at hw
  dsimp only at hw
  split at hw
  · cases hw
  · split at hw
    · obtain ⟨d, hd, he⟩ := Option.bind_eq_some_iff.mp hw
      split at he
      · cases he
      · cases he
        exact henter (h.drainOne hd)
    · cases hw
      exact henter h

theorem Reaches.hostWrite (h : Reaches s t) {req : Req} {x : Nat} {relaxed : Bool} : Reaches s (hostWrite t req x a bs bad relaxed).1 := by
  have hsent (ms : List HostMsg) : Reaches s (ms.foldl sendHost t) := .foldl (fun _ _ k => k.trans ⟨rfl⟩) ms h
  unfold Machine.hostWrite
  refine .iteFst h ?_
  split
  · exact .ite h.bump h.bump.fault
  · exact .iteFst h.block (.ite (hsent _) (hsent _).fault)

theorem Reaches.localWrite (h : Reaches s t) : Reaches s (localWrite t a bs bad).1 := by
  unfold Machine.localWrite
  split
  · exact (h.checks (checks_wakeAt t a)).storeBytes
  · exact h

theorem Reaches.writeMem (h : Reaches s t) : Reaches s (writeMem t v a bs bad).1 := by
  unfold Machine.writeMem
  split
  · split
    · exact h.block
    · next hw => exact (h.checks (checks_wakeAt t a)).engineWrite hw
  · exact .ite h.fault h
  · exact h.localWrite

theorem Reaches.placeWrite (h : Reaches s t) {relaxed : Bool} : Reaches s (placeWrite t v a bs bad relaxed).1 := by
  unfold Machine.placeWrite
  split
  · exact h.hostWrite
  · exact h.trans ⟨rfl⟩
  · exact h.trans ⟨rfl⟩
  · exact h.writeMem

theorem Reaches.carryWrite (h : Reaches s t) {n : Nat} {f : State → State × Nat} (hf : ∀ w, Reaches s w → Reaches s (f w).1) :
    Reaches s (carryWrite t v a n f).1 := by
  unfold Machine.carryWrite
  split
  · exact h.fault
  · exact .ite (hf _ (h.trans ⟨rfl⟩)) (h.trans ⟨rfl⟩)
  · exact (hf _ h.countFlits).countFlits

theorem Reaches.devWrite (h : Reaches s t) {relaxed : Bool} : Reaches s (devWrite t v a bs bad relaxed).1 := h.carryWrite fun _ k => k.placeWrite

theorem Reaches.writeMemPatient (h : Reaches s t) : Reaches s (writeMemPatient t v a bs bad).1 := by
  unfold Machine.writeMemPatient
  split
  · dsimp only
    split
    · exact h.trans ⟨rfl⟩
    · next hw =>
      unfold patientEnter at hw
      split at hw
      · exact (h.checks (checks_wakeAt t a)).engineWrite hw
      · cases hw
  · exact h.writeMem

theorem Reaches.patientWrite (h : Reaches s t) : Reaches s (patientWrite t v a bs bad).1 := by
  unfold Machine.patientWrite
  split
  · exact h
  · exact h.carryWrite fun _ k => k.writeMemPatient
  · exact h.devWrite
end

/-! Contexts and pushes of queues (07 R228 to R242). -/

section
variable {s t w : State} {q c : Nat} {req : Req}

theorem Reaches.detach (h : Reaches s t) {cause : Nat} : Reaches s (detach t q cause) :=
  .raise (Reaches.trans (h.contexts (contexts_putCtx t q _)) ⟨rfl⟩)

theorem Reaches.readCtx (h : Reaches s t) : Reaches s (readCtx t q).1 := by
  have hchecked := h.checks (checks_checkRange t 0 (ctxAddr q) 32)
  unfold Machine.readCtx
  split
  · exact h
  · exact .ite hchecked.detach.hwFault.raise hchecked

theorem Reaches.ringWrite (h : Reaches s t) {a : Nat} {e : List Byte} {b : Bool} : Reaches s (ringWrite t q a e b).1 := by
  unfold Machine.ringWrite
  dsimp only
  split
  · exact .iteFst (h.trans ⟨rfl⟩) h.devWrite
  · exact h.patientWrite

theorem Reaches.ringWrites (h : Reaches s t) (es : List (Nat × List Byte × Bool)) : Reaches s (ringWrites es t q) := by
  induction es generalizing t with
  | nil => exact h
  | cons e es ih => exact .ite h.ringWrite.detach.hwFault (ih h.ringWrite)

theorem Reaches.hodCycle (h : Reaches s t) {n m : Nat} : Reaches s (hodCycle t q n m).1 := h.contexts (contexts_hodCycle t q n m)

theorem Reaches.admitPushes (h : Reaches s t) {ps : List (List (List Byte) × List Nat)} : Reaches s (admitPushes t q ps).1 := by
  have hreserved (c : Nat) : Reaches s (joined (putCtx t q c) ⟨q, (ps.map (·.1.length)).sum⟩) := (h.contexts (contexts_putCtx t q c)).trans ⟨rfl⟩
  exact .iteFst (h.bump.contexts (occurs_queueEvents _ _ _ _ _).contexts) ((hreserved _).ringWrites _)

theorem Reaches.urgentTime (h : Reaches s t) {cycles : Nat} : Reaches s (urgentTime t q c cycles) := h.onPage (onPage_urgentTime t q c cycles)

theorem Reaches.urgentFree (h : Reaches s t) : Reaches s (urgentFree t q c) := .ite h (.urgentTime (h.trans ⟨rfl⟩))

theorem Reaches.answer (h : Reaches s t) {st : Nat} {es : List Byte} {bad : List (Nat × Nat)} : Reaches s (answer t st es bad) := h.trans ⟨rfl⟩

theorem Reaches.dropHeld (h : Reaches s t) : Reaches s (dropHeld t q c) := .ite (h.trans ⟨rfl⟩) h

theorem Reaches.admitSlot (h : Reaches s t) {slot : Nat} : Reaches s (admitSlot t slot) := by
  unfold Machine.admitSlot
  split
  · exact h
  · next p _ =>
    have hslots : Reaches s (updSlots t (·.del slot)) := h.trans ⟨rfl⟩
    have hpushed := Reaches.iteFst (c := p.pushes.isEmpty = true) (hslots.hodCycle (q := p.queue) (n := p.count) (m := 0))
      (hslots.admitPushes (q := p.queue) (ps := heldData p))
    exact .ite h (.ite (.ite (.ite hpushed.urgentFree hpushed) (Reaches.answer (.ite hpushed.urgentFree hpushed))) (.ite hslots hslots.answer))

theorem Reaches.takeQueue (h : Reaches s t) : Reaches s (takeQueue t q).1 := .foldl (fun _ _ k => k.admitSlot) _ h.readCtx

theorem Reaches.opCheck (h : Reaches s t) {roleOk countOk : Bool} {n : Nat} : Reaches s (opCheck t req q c roleOk countOk n).1 := by
  unfold Machine.opCheck
  exact .iteFst h (.iteFst h (.iteFst h.fault (.iteFst h.fault (.iteFst h.fault h))))

theorem Reaches.devPushFree (h : Reaches s t) {e : List Byte} : Reaches s (devPushFree t q e).1 := by
  have hchecked : Reaches s (pushCheck (Machine.takeQueue t q).1 .hw q (Machine.takeQueue t q).2 [e]).1 := h.takeQueue.opCheck
  have hpushed : Reaches s (devPush t .hw q [e] []).1 := .iteFst hchecked hchecked.dropHeld.admitPushes
  exact .ite hpushed.urgentFree hpushed

theorem Reaches.trigPush (h : Reaches s t) {n cycles : Nat} : Reaches s (trigPush t q n cycles).1 := by
  unfold Machine.trigPush
  exact .iteFst h.takeQueue.opCheck (.ite h.takeQueue.opCheck.dropHeld.hodCycle.urgentTime h.takeQueue.opCheck.dropHeld.hodCycle)

/-- The push of a completion whose admission no command measures. -/
theorem Reaches.pushCompletion (h : Reaches s t) {sq : Nat} {rec : List Byte} {copy : Bool} : Reaches s (pushCompletion t sq q rec copy none) :=
  .ite (h.devPushFree.trans ⟨rfl⟩) h.devPushFree

theorem Reaches.partEvent (h : Reaches s t) {p b : Nat} : Reaches s (partEvent t p b) := by
  have hpending (f : Dispatcher → Dispatcher) : Reaches s (updDpt t f) := h.trans ⟨rfl⟩
  exact .ite h (.ite ((hpending _).onPage (pg := 0) (onPage_sendMsix _ _)) (hpending _))
end

/-! Messages of engines to Hod and Quarry (R58, R71). -/

section
variable {s t w : State} {v : Via} {isl out back : Nat} {α : Type} {lost : Nat → α} {f : State → State × α}

theorem Reaches.carryCall (h : Reaches s t) (hf : ∀ w, Reaches s w → Reaches s (f w).1) : Reaches s (carryCall t v isl out back lost f).1 := by
  unfold Machine.carryCall
  split
  · exact .ite (hf _ (h.trans ⟨rfl⟩)) (h.trans ⟨rfl⟩)
  · exact .iteFst h.wake.countFlits (hf _ h.wake.countFlits)

theorem Reaches.freeFrom (h : Reaches s t) {i x : Nat} : Reaches s (freeFrom t v i x) := h.carryCall fun w k => k.onQuarry (OnQuarry.refl w).freeHandle

theorem Reaches.triggerFrom (h : Reaches s t) {q n cycles : Nat} : Reaches s (triggerFrom t v q n cycles).1 := h.carryCall fun _ k => k.trigPush

/-- A message leaves the requests of the command as what it brings about leaves them. -/
theorem io_carryCall (hf : ∀ w, (f w).1.mortar.io = w.mortar.io) : (carryCall s v isl out back lost f).1.mortar.io = s.mortar.io := by
  have hwoken : (countFlits (wake s isl) v.chan (messageFlits v.chan out + messageFlits v.chan back)).mortar.io = s.mortar.io :=
    congrArg Mortar.io (RegisterPages.wake_mortar s isl)
  unfold carryCall
  split
  · next x _ =>
    rw [apply_ite State.mortar, apply_ite Mortar.io, hf, show (dropAbandon s x).mortar.io = s.mortar.io from rfl, ite_self]
  · dsimp only
    split
    · exact hwoken
    · rw [hf, hwoken]

theorem io_freeFrom (s : State) (v : Via) (i x : Nat) : (freeFrom s v i x).mortar.io = s.mortar.io :=
  io_carryCall fun w => congrArg Mortar.io (OnQuarry.refl w).freeHandle.mortar

theorem io_allocFrom (s : State) (v : Via) (i size : Nat) : (allocFrom s v i size).1.mortar.io = s.mortar.io :=
  io_carryCall fun w => congrArg Mortar.io (OnQuarry.refl w).allocate.mortar
end

end Sys2Proof.Streams
end

section
/-! Sources of frames: a frame that is refused, dropped, or ends (09 R288 to R293). -/
namespace Sys2Proof.Streams
open Sys2Proof Sys2Proof.Machine Sys2Proof.Laws Sys2Proof.Claims Sys2Proof.Mesh

/-! A source, and the state with one source changed. -/

section
variable {s t : State} {n : Nat}

@[simp] theorem srcOf_updSrc_self (s : State) (n : Nat) (f : Source → Source) : srcOf (updSrc s n f) n = f (srcOf s n) := SMap.getD_put_self

theorem srcOf_congr (h : t.ing = s.ing) (n : Nat) : srcOf t n = srcOf s n := congrArg (fun x : Ingress => SMap.getD x.src n {}) h

theorem ing_of_onPage {pg : Nat} (h : OnPage pg s t) : t.ing = s.ing := (congrArg State.ing h.rest :)

theorem mortar_of_onPage {pg : Nat} (h : OnPage pg s t) : t.mortar = s.mortar := (congrArg State.mortar h.rest :)

/-- A field that counts reads one more, up to its largest value. -/
theorem rf_bump_self {off hi lo : Nat} (h : hi < 32) :
    rf (bump s off hi lo 1) off hi lo = min (2 ^ (hi + 1 - lo) - 1) (rf s off hi lo + 1) := by
  have hpos := Nat.two_pow_pos (hi + 1 - lo)
  rw [bump, RegisterPages.rf_wf_self h, satAdd, Nat.mod_eq_of_lt (by omega)]
end

/-! Commands whose requests are served. -/

section
variable {c : Instr} {f : State → State} {host : List Cpl} {s t : State} {P : State → Prop}

theorem gives_of_serves (hexec : exec c s = serves host f s) (hwork : f (withHost s host) = t) (hu : Unheld t) : Gives c s (given s t) :=
  hexec.trans (RegisterPages.served_next (congrArg _ hwork) hu)

theorem runs_of_serves (hexec : exec c s = serves host f s) (hwork : f (withHost s host) = t) (hu : Unheld t) (hP : P (given s t)) : Runs c s P :=
  ⟨_, gives_of_serves hexec hwork hu, hP⟩
end

/-! A frame that is refused (R288, R291). -/

section
variable {s : State} {d : Decl} {src cause detail : Nat}

theorem onPage_refuseFrame : OnPage d.page (bump s d.drops 15 0 1) (refuseFrame s d cause detail) := (onPage_hwFault _ _).trans (onPage_raise 8)

theorem raised_refuseFrame : Raised (refuseFrame s d cause detail) d.page 8 := rb_raise _ _ (by decide)

theorem srcOf_refuseFrame : srcOf (refuseFrame s d cause detail) src = srcOf s src :=
  srcOf_congr ((ing_of_onPage onPage_refuseFrame).trans (bump_ing s d.drops 15 0 1)) src

theorem mortar_refuseFrame : (refuseFrame s d cause detail).mortar = s.mortar :=
  (mortar_of_onPage onPage_refuseFrame).trans (bump_mortar s d.drops 15 0 1)
end

/-! A frame that is dropped (R289, R291). -/

section
variable {s : State} {src cause detail : Nat}

theorem dropFrame_none (h : (srcOf s src).frame = none) : dropFrame s src cause detail = s := by
  unfold dropFrame
  rw [h]

/-- The drop of a frame of a source declared as `d` is counted and reported. -/
def reportDrop (s : State) (d : Decl) (cause detail : Nat) : State :=
  raise (hwFault (bump s d.drops 31 16 1) d.page cause (ingInfo d detail)) d.page 9

theorem onPage_reportDrop {d : Decl} : OnPage d.page (bump s d.drops 31 16 1) (reportDrop s d cause detail) :=
  (onPage_hwFault _ _).trans (onPage_raise 9)

theorem raised_reportDrop {d : Decl} : Raised (reportDrop s d cause detail) d.page 9 := rb_raise _ _ (by decide)

theorem srcOf_reportDrop {d : Decl} : srcOf (reportDrop s d cause detail) src = srcOf s src :=
  srcOf_congr ((ing_of_onPage onPage_reportDrop).trans (bump_ing s d.drops 31 16 1)) src

theorem mortar_reportDrop {d : Decl} : (reportDrop s d cause detail).mortar = s.mortar :=
  (mortar_of_onPage onPage_reportDrop).trans (bump_mortar s d.drops 31 16 1)

/-- The source without its frame, whose buffer is free. -/
def withoutFrame (s : State) (src : Nat) (f : Frame) : State :=
  let u := updSrc s src fun k => { k with frame := none }
  if f.got then freeFrom u (engineVia (islandAt (declOf s src).page)) f.slot f.handle else u

theorem reaches_withoutFrame (s : State) (src : Nat) (f : Frame) : Reaches (updSrc s src fun k => { k with frame := none }) (withoutFrame s src f) :=
  .ite (Reaches.refl _).freeFrom (.refl _)

theorem io_withoutFrame (s : State) (src : Nat) (f : Frame) : (withoutFrame s src f).mortar.io = s.mortar.io := by
  unfold withoutFrame
  dsimp only
  split
  · exact io_freeFrom _ _ _ _
  · rfl

theorem dropFrame_some {f : Frame} (h : (srcOf s src).frame = some f) :
    dropFrame s src cause detail = reportDrop (withoutFrame s src f) (declOf s src) cause detail := by
  unfold dropFrame
  rw [h]
  rfl

theorem frame_dropFrame (s : State) (src cause detail : Nat) : (srcOf (dropFrame s src cause detail) src).frame = none := by
  cases h : (srcOf s src).frame with
  | none => rw [dropFrame_none h, h]
  | some f =>
    rw [dropFrame_some h, srcOf_reportDrop, srcOf_congr (reaches_withoutFrame s src f).ing, srcOf_updSrc_self]

theorem raised_dropFrame {f : Frame} (h : (srcOf s src).frame = some f) : Raised (dropFrame s src cause detail) (declOf s src).page 9 := by
  rw [dropFrame_some h]
  exact raised_reportDrop

theorem io_dropFrame (s : State) (src cause detail : Nat) : (dropFrame s src cause detail).mortar.io = s.mortar.io := by
  cases h : (srcOf s src).frame with
  | none => rw [dropFrame_none h]
  | some f =>
    rw [dropFrame_some h, mortar_reportDrop]
    exact io_withoutFrame s src f
end

/-! A frame starts (R288, R571) and ends (R293). -/

section
variable {s : State} {d : Decl} {k : Source} {src : Nat}

/-- Only sources of sentinel class are thinned. -/
theorem thinned_passed (h : d.cls ≠ 0 ∨ rb s R.PLB_SENT 9 = false) : thinned s src d = (s, false) := if_pos (by simpa [or_comm] using h)

theorem reaches_startCheck (s : State) (d : Decl) (k : Source) : Reaches s (startCheck s d k).1 := .iteFst (.refl s) (Reaches.refl s).readCtx

theorem frame_endFrame (s : State) (src : Nat) (f : Frame) : (srcOf (endFrame s src f) src).frame = none := by
  unfold endFrame
  dsimp only
  split
  · exact frame_dropFrame _ _ _ _
  · rw [srcOf_updSrc_self]
end

/-! Commands that end with a frame refused or dropped. -/

section
variable {c : Instr} {g : State → State} {s x : State} {src cause detail : Nat}

theorem runs_refused {d : Decl} (hexec : exec c s = serves [] g s) (hwork : g (withHost s []) = refuseFrame x d cause detail)
    (hio : x.mortar.io = { host := [] }) (hframe : (srcOf x src).frame = none) :
    Runs c s fun t => (srcOf t src).frame = none ∧ Raised t d.page 8 :=
  runs_of_serves hexec hwork (unheld_of_io ((congrArg Mortar.io mortar_refuseFrame).trans hio))
    ⟨(congrArg Source.frame srcOf_refuseFrame).trans hframe, raised_refuseFrame (s := x)⟩

theorem runs_dropped {f : Frame} (hexec : exec c s = serves [] g s) (hwork : g (withHost s []) = dropFrame x src cause detail)
    (hio : x.mortar.io = { host := [] }) (hframe : (srcOf x src).frame = some f) :
    Runs c s fun t => (srcOf t src).frame = none ∧ Raised t (declOf x src).page 9 :=
  runs_of_serves hexec hwork (unheld_of_io ((io_dropFrame _ _ _ _).trans hio)) ⟨frame_dropFrame x src cause detail, raised_dropFrame hframe⟩
end

end Sys2Proof.Streams
end

section
/-! CSI-2: packets that reach a port, and the frames that they make (09 R287 to R293, R299 to R301). -/
namespace Sys2Proof.Streams
open Sys2Proof Sys2Proof.Machine Sys2Proof.Laws Sys2Proof.Claims Sys2Proof.RegisterPages

/-! A packet reaches its port (R300, R301). -/

section
variable {s u h : State} {port vc : Nat} {rx : CsiRx} {fixed : Bool}

theorem onPage_measured (s : State) (p : Nat) (rx : CsiRx) : OnPage (P.csi p) s (measured s p rx) := by
  have hpage : R.CSI_PHY_STATUS p / 0x1000 = P.csi p := by
    show (0x14100 + 0x1000 * p) / 0x1000 = 20 + p
    omega
  have hlanes : OnPage (P.csi p) s (wf (wf s (R.CSI_PHY_STATUS p) 2 0 rx.lanes) (R.CSI_PHY_STATUS p) 15 3 rx.mbps) :=
    (onPage_wf hpage).trans (onPage_wf hpage)
  exact (OnPage.ite hlanes (.refl _ s)).trans (onPage_wf hpage)

theorem onPage_csiPacket (s : State) (p : Nat) (rx : CsiRx) : OnPage (P.csi p) (wake s 36) (csiPacket s p rx).1 := by
  have hmeasured := onPage_measured (wake s 36) p rx
  have hcount (hi lo : Nat) : OnPage (P.csi p) (wake s 36) (bump (measured (wake s 36) p rx) (R.CSI_ERRORS p) hi lo 1) := by
    refine hmeasured.trans (onPage_bump ?_)
    show (0x14104 + 0x1000 * p) / 0x1000 = 20 + p
    omega
  unfold csiPacket
  dsimp only
  split
  · exact hmeasured
  · split
    · exact hmeasured
    · exact hcount 15 8
    · exact hcount 23 16
    · exact hcount 7 0

theorem mem_csiPacket (s : State) (p : Nat) (rx : CsiRx) : (csiPacket s p rx).1.mem = s.mem :=
  (PowerUp.mem_of_onPage (onPage_csiPacket s p rx)).trans (wake_mem s 36)

theorem mortar_csiPacket (s : State) (p : Nat) (rx : CsiRx) : (csiPacket s p rx).1.mortar = s.mortar :=
  (mortar_of_onPage (onPage_csiPacket s p rx)).trans (wake_mortar s 36)

theorem csiSrc_lt (hport : port < 8) (hvc : vc < 16) : csiSrc port vc < 128 := by
  unfold csiSrc
  omega

theorem csiSrc_div (hvc : vc < 16) : csiSrc port vc / 16 = port := by
  unfold csiSrc
  omega

theorem page_csi (s : State) (hport : port < 8) (hvc : vc < 16) : (declOf s (csiSrc port vc)).page = P.csi port := by
  unfold declOf
  rw [if_pos (csiSrc_lt hport hvc)]
  exact congrArg P.csi (csiSrc_div hvc)

/-- A packet of channel `vc` reaches port `port`, which takes it and leaves `h`; `fixed` says whether its header was corrected. -/
structure Takes (u : State) (port vc : Nat) (rx : CsiRx) (h : State) (fixed : Bool) : Prop where
  port_lt : port < 8
  vc_lt : vc < 16
  accepting : accepts u (P.csi port) = true
  packet : csiPacket u port rx = (h, some fixed)

theorem Takes.runs (k : Takes u port vc rx h fixed) : ¬(port ≥ 8 ∨ vc ≥ 16 ∨ (!accepts u (P.csi port)) = true) := by
  have hport := k.port_lt
  have hvc := k.vc_lt
  simp [k.accepting]
  omega

theorem Takes.mortar (k : Takes u port vc rx h fixed) : h.mortar = u.mortar := by
  rw [← mortar_csiPacket u port rx, k.packet]

theorem Takes.page (k : Takes u port vc rx h fixed) (s : State) : (declOf s (csiSrc port vc)).page = P.csi port := page_csi s k.port_lt k.vc_lt
end

/-! A frame starts (R288, R290). -/

section
variable {s p : State} {port vc num : Nat} {rx : CsiRx} {fixed : Bool}

/-- The frame that a frame start opens on source `src` in `s`, with the sequence number `seq`. -/
def opened (s : State) (d : Decl) (seq num : Nat) (fixed : Bool) : Machine.Frame :=
  { slot := d.slot, kind := 1, seq := seq, num := num % 65536, epoch := pageEpoch s d.page, ts := tbNs s, fixed := fixed,
    unsynced := decide (s.tb.state ≠ 1), began := nowNs s }

/-- The start of a frame of source `src`, declared as `d`, is checked at `p`. -/
def checkedStart (p : State) (src : Nat) (d : Decl) : State × Option (Nat × Nat) := startCheck (nextSeq p d.slot).1 d (srcOf (nextSeq p d.slot).1 src)

theorem srcOf_checkedStart (p : State) (src : Nat) (d : Decl) : srcOf (checkedStart p src d).1 src = srcOf p src :=
  srcOf_congr (reaches_startCheck _ d _).ing src

/-- A checked start opens the frame `f`, or is refused with the cause and the detail that its checks gave. -/
def started (s : State) (src : Nat) (d : Decl) (f : Machine.Frame) : Option (Nat × Nat) → State
  | some c => refuseFrame s d c.1 c.2
  | none => updSrc s src fun k => { k with frame := some f }

theorem csiFrameStart_notTaken (hport : port < 8) (hvc : vc < 16) (hacc : accepts s (P.csi port) = true) (hnone : (csiPacket s port rx).2 = none) :
    Gives (.csiFrameStart port vc num rx) s (csiPacket s port rx).1 := by
  show execCsiFrameStart port vc num rx s = _
  unfold execCsiFrameStart
  rw [if_neg (by simp [hacc]; omega)]
  dsimp only
  rw [hnone]

theorem csiFrameStart_undeclared (k : Takes s port vc rx p fixed) (hframe : (srcOf p (csiSrc port vc)).frame = none)
    (hvalid : (declOf p (csiSrc port vc)).valid = false) :
    Gives (.csiFrameStart port vc num rx) s (refuseFrame p (declOf p (csiSrc port vc)) IC.undeclared 0) := by
  show execCsiFrameStart port vc num rx s = _
  unfold execCsiFrameStart
  simp only [if_neg k.runs, k.packet, dropFrame_none hframe, hvalid, Bool.not_false, if_true]

/-- The start of a declared and enabled source that is not thinned goes by its checks. -/
theorem csiFrameStart_enabled (k : Takes s port vc rx p fixed) (hframe : (srcOf p (csiSrc port vc)).frame = none) {d : Decl}
    (hd : declOf p (csiSrc port vc) = d) (hvalid : d.valid = true) (hen : d.en = true) (hcls : d.cls ≠ 0 ∨ rb p R.PLB_SENT 9 = false)
    {o : Option (Nat × Nat)} (hchecks : (checkedStart p (csiSrc port vc) d).2 = o) :
    Gives (.csiFrameStart port vc num rx) s
      (started (checkedStart p (csiSrc port vc) d).1 (csiSrc port vc) d (opened (checkedStart p (csiSrc port vc) d).1 d (nextSeq p d.slot).2 num fixed) o) := by
  have hthin : thinned (nextSeq p d.slot).1 (csiSrc port vc) d = ((nextSeq p d.slot).1, false) := thinned_passed hcls
  show execCsiFrameStart port vc num rx s = _
  unfold execCsiFrameStart
  simp only [if_neg k.runs, k.packet, dropFrame_none hframe, hd, hvalid, hen, hthin, Bool.not_true, Bool.false_eq_true, if_false, if_true]
  rw [← hchecks, checkedStart]
  generalize startCheck (nextSeq p d.slot).1 d (srcOf (nextSeq p d.slot).1 (csiSrc port vc)) = g
  obtain ⟨g, cause⟩ := g
  cases cause <;> rfl
end

/-! Lines (R288, R289): at `h` the frame `f` runs. -/

section
variable {u h : State} {port vc dt wc : Nat} {rx : CsiRx} {fixed crcOk : Bool} {f : Machine.Frame} {data : List Byte}

theorem csiFirstLine_eq (k : Takes u port vc rx h fixed) (hframe : (srcOf h (csiSrc port vc)).frame = some f) (hgot : f.got = false)
    (hraw : rawType dt = true) :
    csiFirstLine port vc dt wc data crcOk rx u =
      let src := csiSrc port vc
      let d := declOf h src
      let r := rawFormat d.format d.width
      let x := updSrc h src fun k => { k with frame := none }
      if dt ≠ r.2.2 then refuseFrame x d IC.format wc
      else if wc ≠ r.2.1 then refuseFrame x d IC.width wc
      else
        let a := allocFrom h (streamVia d none) d.slot (strideOf d * d.height)
        if a.2.st ≠ QS.ok then refuseFrame (updSrc a.1 src fun k => { k with frame := none }) d IC.pool 0
        else
          let g := { f with got := true, handle := a.2.handle, addr := a.2.addr, size := strideOf d * d.height }
          storeLine (acceptStart a.1 src g) src d g (data.take wc) crcOk fixed := by
  unfold csiFirstLine
  simp only [if_neg k.runs, k.packet, hraw, hframe, hgot, Option.isNone_some, Bool.and_false, Bool.not_true, Bool.false_eq_true, if_false]

theorem csiLine_eq (k : Takes u port vc rx h fixed) (hframe : (srcOf h (csiSrc port vc)).frame = some f) (hgot : f.got = true)
    (hraw : rawType dt = true) :
    csiLine port vc dt wc data crcOk rx u =
      let src := csiSrc port vc
      let d := declOf h src
      let r := rawFormat d.format d.width
      if dt ≠ r.2.2 then dropFrame h src IC.format wc
      else if wc ≠ r.2.1 then dropFrame h src IC.width wc
      else if f.lines ≥ d.height then dropFrame h src IC.heightOver f.lines
      else storeLine h src d f (data.take wc) crcOk fixed := by
  unfold csiLine
  simp only [if_neg k.runs, k.packet, hraw, hframe, hgot, Option.isNone_some, Bool.and_false, Bool.not_true, Bool.false_eq_true, if_false]

/-- A line with a bad CRC drops its frame, from a state that has met an injection and counted the line. -/
theorem storeLine_badCrc (s : State) (src : Nat) (d : Decl) (f : Machine.Frame) (data : List Byte) (fixed : Bool) :
    ∃ x, storeLine s src d f data false fixed = dropFrame x src IC.crc f.lines ∧ x.mortar = s.mortar ∧ x.ing = s.ing := by
  have hfired := Subchannels.onPage_injFire s 4 fun a => a % 8 = src / 16
  refine ⟨bump (injFire s 4 fun a => a % 8 = src / 16).1 (R.CSI_ERRORS (src / 16)) 31 24 1, ?_, (bump_mortar _ _ _ _ _).trans (mortar_of_onPage hfired),
    (bump_ing _ _ _ _ _).trans (ing_of_onPage hfired)⟩
  unfold storeLine
  dsimp only
  rw [Bool.not_false, Bool.true_or, if_pos rfl]

/-- A line of a wrong type, of a wrong length, one too many or with a bad CRC drops the frame. -/
theorem csiLine_bad (k : Takes u port vc rx h fixed) (hframe : (srcOf h (csiSrc port vc)).frame = some f) (hgot : f.got = true)
    (hraw : rawType dt = true)
    (hbad : let d := declOf h (csiSrc port vc)
      dt ≠ (rawFormat d.format d.width).2.2 ∨ wc ≠ (rawFormat d.format d.width).2.1 ∨ d.height ≤ f.lines ∨ crcOk = false) :
    ∃ x cause detail, csiLine port vc dt wc data crcOk rx u = dropFrame x (csiSrc port vc) cause detail ∧ x.mortar = h.mortar ∧ x.ing = h.ing := by
  rw [csiLine_eq k hframe hgot hraw]
  dsimp only at hbad ⊢
  split
  · exact ⟨h, _, _, rfl, rfl, rfl⟩
  · next htype =>
    split
    · exact ⟨h, _, _, rfl, rfl, rfl⟩
    · next hlength =>
      split
      · exact ⟨h, _, _, rfl, rfl, rfl⟩
      · next hheight =>
        obtain rfl : crcOk = false := ((hbad.resolve_left htype).resolve_left hlength).resolve_left hheight
        obtain ⟨x, hx, hsame⟩ := storeLine_badCrc h (csiSrc port vc) (declOf h (csiSrc port vc)) f (data.take wc) fixed
        exact ⟨x, _, _, hx, hsame⟩

/-- A first line of a wrong type or length refuses the frame. -/
theorem csiFirstLine_bad (k : Takes u port vc rx h fixed) (hframe : (srcOf h (csiSrc port vc)).frame = some f) (hgot : f.got = false)
    (hraw : rawType dt = true)
    (hbad : let d := declOf h (csiSrc port vc)
      dt ≠ (rawFormat d.format d.width).2.2 ∨ wc ≠ (rawFormat d.format d.width).2.1) :
    ∃ cause detail, csiFirstLine port vc dt wc data crcOk rx u =
      refuseFrame (updSrc h (csiSrc port vc) fun k => { k with frame := none }) (declOf h (csiSrc port vc)) cause detail := by
  rw [csiFirstLine_eq k hframe hgot hraw]
  dsimp only at hbad ⊢
  split
  · exact ⟨_, _, rfl⟩
  · next htype => exact ⟨_, _, if_pos (hbad.resolve_left htype)⟩

/-- A first line of the declared type and length has the buffer of its frame allocated, and is stored there. -/
theorem csiFirstLine_good (k : Takes u port vc rx h fixed) (hframe : (srcOf h (csiSrc port vc)).frame = some f) (hgot : f.got = false) {d : Decl}
    (hd : declOf h (csiSrc port vc) = d) (hraw : rawType (rawFormat d.format d.width).2.2 = true) :
    csiFirstLine port vc (rawFormat d.format d.width).2.2 (rawFormat d.format d.width).2.1 data crcOk rx u =
      let src := csiSrc port vc
      let a := allocFrom h (streamVia d none) d.slot (strideOf d * d.height)
      let g := { f with got := true, handle := a.2.handle, addr := a.2.addr, size := strideOf d * d.height }
      if a.2.st ≠ QS.ok then refuseFrame (updSrc a.1 src fun k => { k with frame := none }) d IC.pool 0
      else storeLine (acceptStart a.1 src g) src d g (data.take (rawFormat d.format d.width).2.1) crcOk fixed := by
  subst hd
  rw [csiFirstLine_eq k hframe hgot hraw]
  dsimp only
  rw [if_neg (not_not.2 rfl), if_neg (not_not.2 rfl)]

theorem csiFrameEnd_eq (k : Takes u port vc rx h fixed) (hframe : (srcOf h (csiSrc port vc)).frame = some f) :
    csiFrameEnd port vc rx u =
      if f.lines < (declOf h (csiSrc port vc)).height then dropFrame h (csiSrc port vc) IC.heightShort f.lines
      else endFrame h (csiSrc port vc) { f with tEnd := tbNs h, fixed := f.fixed || fixed } := by
  unfold csiFrameEnd
  simp only [if_neg k.runs, k.packet, hframe]
end

/-! Deskew and ignored packets (R299 to R301). -/

section
variable {s : State} {port dt : Nat} {rx : CsiRx}

theorem runs_csiDeskewDone (hport : port < 8) (hacc : accepts s (P.csi port) = true) :
    Runs (.csiDeskewDone port rx) s fun t => rb t (R.CSI_PHY_STATUS port) 16 = true ∧ SameBytes s t := by
  have hmem := (PowerUp.mem_of_onPage (onPage_measured (wake s 36) port rx)).trans (wake_mem s 36)
  refine ⟨wb (measured (wake s 36) port rx) (R.CSI_PHY_STATUS port) 16 true, ?_, rb_wb_self (by decide), sameBytes_of_mem ((wb_mem _ _ _ _).trans hmem)⟩
  show execCsiDeskewDone port rx s = _
  rw [execCsiDeskewDone, if_pos ⟨hport, hacc⟩]

theorem csiIgnoredPacket_eq (hport : port < 8) (hacc : accepts s (P.csi port) = true) (hdt : 4 ≤ dt) (hraw : rawType dt = false) :
    exec (.csiIgnoredPacket port dt rx) s = .next (match (csiPacket s port rx).2 with
      | none => (csiPacket s port rx).1
      | some _ => if 8 ≤ dt ∧ dt < 16 then (csiPacket s port rx).1 else bump (csiPacket s port rx).1 (R.CSI_IGNORED port) 31 16 1) := by
  show execCsiIgnoredPacket port dt rx s = _
  unfold execCsiIgnoredPacket
  rw [if_neg (by simp [hraw, hacc]; omega)]
  generalize csiPacket s port rx = k
  obtain ⟨p, taken⟩ := k
  cases taken <;> rfl
end

/-- Settles O45, clause by clause: the frame start, the first line refused and stored, a line dropped and stored, the frame end, deskew, packets of other data
types, and packets that the port does not take. -/
theorem csiFrames : Obligations.CsiFrames := by
  unfold Obligations.CsiFrames
  intro s port vc rx fixed hport hvc hacc
  have hio : (csiPacket (withHost s []) port rx).1.mortar.io = { host := [] } := congrArg Mortar.io (mortar_csiPacket (withHost s []) port rx)
  have htakes (h : (csiPacket s port rx).2 = some fixed) : Takes s port vc rx (csiPacket s port rx).1 fixed := ⟨hport, hvc, hacc, Prod.ext rfl h⟩
  have hserved (h : (csiPacket (withHost s []) port rx).2 = some fixed) :
      Takes (withHost s []) port vc rx (csiPacket (withHost s []) port rx).1 fixed := ⟨hport, hvc, hacc, Prod.ext rfl h⟩
  have hpage (t : State) := page_csi t hport hvc
  refine ⟨fun num ht hframe => ⟨fun hvalid => ?_, fun hvalid hen hcls hg => ?_, fun e hvalid hen hcls hg => ?_⟩,
    fun f dt wc data crcOk ht hframe hgot hraw hbad => ?_, fun f data crcOk ht hframe hgot hraw => ⟨fun hst hu => ?_, fun hst => ?_⟩,
    fun f dt wc data crcOk ht hframe hgot hraw hbad => ?_, fun f data ht hframe hgot hraw hlines hu => ?_,
    fun f ht hframe => ⟨fun hlines => ?_, fun hlines => ?_⟩, runs_csiDeskewDone hport hacc,
    fun dt hdt hraw ht => ⟨fun hother => ?_, fun h8 h16 => ?_⟩, fun num dt hnone => ⟨?_, fun hdt hraw => ?_⟩⟩
  · refine ⟨_, csiFrameStart_undeclared (htakes ht.1) hframe hvalid, (congrArg Source.frame srcOf_refuseFrame).trans hframe, ?_⟩
    rw [← hpage]
    exact raised_refuseFrame
  · refine ⟨_, csiFrameStart_enabled (htakes ht.1) hframe rfl hvalid hen hcls hg, _,
      congrArg Source.frame (srcOf_updSrc_self _ _ _), rfl, rfl, rfl, rfl, rfl, rfl, fun _ => rfl⟩
  · refine ⟨_, csiFrameStart_enabled (htakes ht.1) hframe rfl hvalid hen hcls hg, ?_, ?_⟩
    · exact (congrArg Source.frame (srcOf_refuseFrame.trans (srcOf_checkedStart _ _ _))).trans hframe
    · rw [← hpage]
      exact raised_refuseFrame
  · obtain ⟨cause, detail, hwork⟩ := csiFirstLine_bad (hserved ht.2) hframe hgot hraw hbad
    rw [← hpage]
    exact runs_refused rfl hwork hio (congrArg Source.frame (srcOf_updSrc_self _ _ _))
  · exact gives_of_serves rfl ((csiFirstLine_good (hserved ht.2) hframe hgot rfl hraw).trans (if_neg (not_not.2 hst))) hu
  · rw [← hpage]
    exact runs_refused rfl ((csiFirstLine_good (hserved ht.2) hframe hgot rfl hraw).trans (if_pos hst)) ((io_allocFrom _ _ _ _).trans hio) (congrArg Source.frame (srcOf_updSrc_self _ _ _))
  · obtain ⟨x, cause, detail, hwork, hmortar, hing⟩ := csiLine_bad (hserved ht.2) hframe hgot hraw hbad
    rw [← hpage]
    exact runs_dropped rfl hwork ((congrArg Mortar.io hmortar).trans hio) ((congrArg Source.frame (srcOf_congr hing _)).trans hframe)
  · refine gives_of_serves rfl ?_ hu
    rw [csiLine_eq (hserved ht.2) hframe hgot hraw]
    dsimp only
    rw [if_neg (not_not.2 rfl), if_neg (not_not.2 rfl), if_neg (Nat.not_le.2 hlines)]
  · rw [← hpage]
    exact runs_dropped rfl ((csiFrameEnd_eq (hserved ht.2) hframe).trans (if_pos hlines)) hio hframe
  · have hwork := (csiFrameEnd_eq (hserved ht.2) hframe).trans (if_neg (Nat.not_lt.2 hlines))
    rw [← hwork]
    refine Subchannels.completes_of_serves rfl ?_
    rw [hwork]
    exact frame_endFrame _ _ _
  · refine ⟨_, csiIgnoredPacket_eq hport hacc hdt hraw, ?_⟩
    rw [ht.1]
    dsimp only
    rw [if_neg (by omega)]
    exact ⟨rf_bump_self (by decide), sameBytes_of_mem ((bump_mem _ _ _ _ _).trans (mem_csiPacket s port rx))⟩
  · refine (csiIgnoredPacket_eq hport hacc hdt hraw).trans ?_
    rw [ht.1]
    exact congrArg _ (if_pos ⟨h8, h16⟩)
  · exact csiFrameStart_notTaken hport hvc hacc hnone
  · rw [Gives, csiIgnoredPacket_eq hport hacc hdt hraw, hnone]

end Sys2Proof.Streams
end

section
/-! Ethernet: frames, AVTP packets, PTP and the link (09 R298, R302 to R304). -/
namespace Sys2Proof.Streams
open Sys2Proof Sys2Proof.Machine Sys2Proof.Laws Sys2Proof.Claims Sys2Proof.RegisterPages

section
variable {s u : State} {mac n : Nat} {frame packet : List Byte}

theorem ing_wake (s : State) (n : Nat) : (wake s n).ing = s.ing := (Reaches.refl s).wake.ing

theorem tbNs_wake (s : State) (n : Nat) : tbNs (wake s n) = tbNs s := by
  unfold wake
  split <;> rfl

theorem rf_wake (s : State) (n off hi lo : Nat) : rf (wake s n) off hi lo = rf s off hi lo := by
  rw [rf, rd, wake_regs]
  rfl

/-- The island of the MACs, awake for the work of a command. -/
def ethAwake (s : State) : State := wake (withHost s []) 37

theorem unheld_of_ethAwake {t : State} (h : t.mortar = (ethAwake s).mortar) : Unheld t := unheld_of_mortar (h.trans (wake_mortar _ 37))

/-- Work that a field counts, and nothing else. -/
theorem runs_counted {c : Instr} {g : State → State} {off hi lo : Nat} (hexec : exec c s = serves [] g s)
    (hwork : g (withHost s []) = bump (ethAwake s) off hi lo 1) (hhi : hi < 32) :
    Runs c s fun t => rf t off hi lo = min (2 ^ (hi + 1 - lo) - 1) (rf s off hi lo + 1) ∧ t.ing = s.ing ∧ SameBytes s t := by
  have hcount : rf (bump (ethAwake s) off hi lo 1) off hi lo = min (2 ^ (hi + 1 - lo) - 1) (rf s off hi lo + 1) := by
    rw [rf_bump_self hhi, ethAwake, rf_wake]
    rfl
  have hing : (bump (ethAwake s) off hi lo 1).ing = s.ing := (bump_ing _ _ _ _ _).trans (ing_wake _ 37)
  have hmem : (bump (ethAwake s) off hi lo 1).mem = s.mem := (bump_mem _ _ _ _ _).trans (wake_mem _ 37)
  exact runs_of_serves hexec hwork (unheld_of_ethAwake (bump_mortar _ _ _ _ _))
    ⟨hcount, (updIo_ing _ _).trans hing, sameBytes_of_mem ((updIo_mem _ _).trans hmem)⟩

/-! Frames and AVTP packets (R302, R303). -/

theorem ethFrame_badFcs (hmac : mac < 2) (hacc : accepts u (P.eth mac) = true) :
    ethFrame mac frame false u = bump (wake u 37) (R.ETH_RX_DROPS mac) 15 0 1 := by
  unfold ethFrame
  rw [if_neg (by simp [hacc]; omega)]
  rfl

/-- A whole frame without a VLAN tag is given to what its type names. -/
theorem ethFrame_untagged (hmac : mac < 2) (hacc : accepts u (P.eth mac) = true) (hlength : frame.length ≤ 1518)
    (htag : ofBe ((frame.drop 12).take 2) ≠ 0x8100) :
    ethFrame mac frame true u =
      if ofBe ((frame.drop 12).take 2) = 0x22F0 then avtpPacket (wake u 37) mac (frame.drop 14)
      else if ofBe ((frame.drop 12).take 2) = 0x88F7 then ptpReceive (wake u 37) mac frame
      else bump (wake u 37) (R.ETH_RX_DROPS mac) 31 16 1 := by
  unfold ethFrame
  rw [if_neg (by simp [hacc]; omega)]
  simp only [htag, Bool.not_true, Bool.false_eq_true, if_false]
  rw [if_neg (by omega)]

theorem avtpReceive_eq (hmac : mac < 2) (hacc : accepts u (P.eth mac) = true) : avtpReceive mac packet u = avtpPacket (wake u 37) mac packet := by
  unfold avtpReceive
  rw [if_neg (by simp [hacc]; omega)]

theorem avtpPacket_short (h : packet.length < 28) : avtpPacket u mac packet = bump u (R.ETH_AVTP_ERRS mac) 31 16 1 := by
  unfold avtpPacket
  exact if_pos (.inl h)

theorem avtpPacket_declared {e : Nat} (hlong : 28 ≤ packet.length) (hlen : 4 ≤ ofBe ((packet.drop 20).take 2))
    (hwhole : 24 + ofBe ((packet.drop 20).take 2) ≤ packet.length) (hentry : avtpEntry u mac (ofBe ((packet.drop 4).take 8)) = some e) :
    avtpPacket u mac packet = avtpStream u mac (ethSrc mac e) (avtpRead u (ethSrc mac e) packet (ofBe ((packet.drop 20).take 2))) := by
  unfold avtpPacket
  dsimp only
  rw [if_neg (by omega), hentry]

/-! PTP and the link (R298, R302). -/

/-- A PTP frame has entered the receive FIFO of its MAC. -/
def ptpQueued (s : State) (m : Nat) (fr : List Byte) : State :=
  { s with ing := { s.ing with ptpRx := updAt s.ing.ptpRx m (· ++ [(fr, tbNs s)]) } }

theorem ptpReceive_queued (hroom : (nth u.ing.ptpRx mac []).length < 8) (hlength : frame.length ≤ 128) :
    ptpReceive u mac frame = raise (ptpQueued u mac frame) (P.eth mac) 11 := by
  unfold ptpReceive
  exact if_neg (by omega)

theorem ptpRx_received (hmac : mac < u.ing.ptpRx.length) (hroom : (nth u.ing.ptpRx mac []).length < 8) (hlength : frame.length ≤ 128) :
    nth (ptpReceive u mac frame).ing.ptpRx mac [] = nth u.ing.ptpRx mac [] ++ [(frame, tbNs u)] ∧ Raised (ptpReceive u mac frame) (P.eth mac) 11 := by
  rw [ptpReceive_queued hroom hlength]
  refine ⟨?_, rb_raise _ _ (by decide)⟩
  rw [ing_of_onPage (onPage_raise 11)]
  exact Islands.nth_updAt_self hmac _ []

/-- The frame lies in the FIFO of a MAC whose island was woken for it. -/
theorem ptpRx_awake (hlen : s.ing.ptpRx.length = 2) (hmac : mac < 2) (hroom : (nth s.ing.ptpRx mac []).length < 8) (hlength : frame.length ≤ 128) :
    nth (ptpReceive (wake s 37) mac frame).ing.ptpRx mac [] = nth s.ing.ptpRx mac [] ++ [(frame, tbNs s)]
      ∧ Raised (ptpReceive (wake s 37) mac frame) (P.eth mac) 11 := by
  have hing := ing_wake s 37
  have hreceived := ptpRx_received (u := wake s 37) (mac := mac) (frame := frame) (by rw [hing]; omega) (by rwa [hing]) hlength
  rwa [hing, tbNs_wake] at hreceived

theorem mortar_ptpReceive (u : State) (mac : Nat) (frame : List Byte) : (ptpReceive u mac frame).mortar = u.mortar := by
  unfold ptpReceive
  dsimp only
  split
  · exact mortar_of_onPage (onPage_hwFault _ _)
  · exact mortar_of_onPage (s := ptpQueued u mac frame) (onPage_raise 11)

/-- A bit of a block register that is written as an event of its page rises. -/
theorem rb_raise_wb {pg off i b : Nat} {v : Bool} (hoff : 0x100 ≤ off % 0x1000) (hi : i < 32) : rb (raise (wb s off i v) pg b) off i = v := by
  rw [rb, rd_raise_ne (by unfold hdr; omega)]
  exact rb_wb_self hi

theorem exec_ptpRx (hmac : mac < 2) (hacc : accepts s (P.eth mac) = true) : exec (.ptpRx mac frame) s = .next (ptpReceive (wake s 37) mac frame) := by
  show execPtpRx mac frame s = _
  unfold execPtpRx
  rw [if_neg (by simp [hacc]; omega)]

theorem runs_ptpTxDone (hmac : mac < 2) (hbusy : rb s (R.ETH_PTP_TX_CTRL mac) 30 = true) :
    Runs (.ptpTxDone mac) s fun t => rb t (R.ETH_PTP_TX_CTRL mac) 30 = false ∧ Raised t (P.eth mac) 12 := by
  refine ⟨raise (wb s (R.ETH_PTP_TX_CTRL mac) 30 false) (P.eth mac) 12, ?_, rb_raise_wb (by unfold R.ETH_PTP_TX_CTRL; omega) (by decide),
    rb_raise _ _ (by decide)⟩
  show execPtpTxDone mac s = _
  rw [execPtpTxDone, if_pos ⟨hmac, hbusy⟩]

theorem runs_ethLinkChange {up : Bool} (hmac : mac < 2) (hruns : islandRuns s 37 = true) (hchange : rb s (R.ETH_LINK_STATUS mac) 0 ≠ up) :
    Runs (.ethLinkChange mac up) s fun t => rb t (R.ETH_LINK_STATUS mac) 0 = up ∧ Raised t (P.eth mac) 13 := by
  refine ⟨raise (wb s (R.ETH_LINK_STATUS mac) 0 up) (P.eth mac) 13, ?_, rb_raise_wb (by unfold R.ETH_LINK_STATUS; omega) (by decide),
    rb_raise _ _ (by decide)⟩
  show execEthLinkChange mac up s = _
  rw [execEthLinkChange, if_neg (by simp [hruns, hchange]; omega)]
end

end Sys2Proof.Streams
end

section
/-! Triggers, host push and stalls of sources (09 R293, R305 to R308). -/
namespace Sys2Proof.Streams
open Sys2Proof Sys2Proof.Machine Sys2Proof.Laws Sys2Proof.Claims Sys2Proof.RegisterPages

/-! Triggers (R293). -/

section
variable {s : State} {src cycles : Nat} {f : Machine.Frame} {fs : List Machine.Frame}

/-- The trigger of the oldest delivered frame is presented, which is no longer due. -/
def triggered (s : State) (src cycles : Nat) (fs : List Machine.Frame) : State × Nat :=
  triggerFrom (updSrc s src fun k => { k with ready := fs }) { streamVia (declOf s src) none with chan := .urgent } (declOf s src).queue 1 cycles

theorem srcOf_triggered (s : State) (src cycles : Nat) (fs : List Machine.Frame) :
    srcOf (triggered s src cycles fs).1 src = { srcOf s src with ready := fs } :=
  (srcOf_congr (Reaches.refl _).triggerFrom.ing src).trans (srcOf_updSrc_self _ _ _)

theorem srcOf_endStall (s : State) (slot src : Nat) : srcOf (endStall s slot) src = srcOf s src := by
  unfold endStall
  split <;> rfl

/-- A change of the source stays as the end of a stall and the count of the frame follow it. -/
theorem srcOf_counted (s : State) (src : Nat) (g : Source → Source) (slot off : Nat) :
    srcOf (bump (endStall (updSrc s src g) slot) off 31 0 1) src = g (srcOf s src) := (srcOf_endStall _ _ _).trans (srcOf_updSrc_self _ _ _)

/-- A trigger that was taken leaves its frame delivered; one that was refused drops the frame. -/
theorem sendTrigger_due (hready : (srcOf s src).ready = f :: fs) :
    (srcOf (sendTrigger s src cycles).1 src).ready = fs ∧ (srcOf (sendTrigger s src cycles).1 src).frame = (srcOf s src).frame
      ∧ (if (sendTrigger s src cycles).2 then (srcOf (sendTrigger s src cycles).1 src).delivered = true
        else Raised (sendTrigger s src cycles).1 (declOf s src).page 9) := by
  have hsrc := srcOf_triggered s src cycles fs
  unfold sendTrigger
  rw [hready]
  dsimp only
  split
  · refine ⟨?_, ?_, ?_⟩
    · rw [srcOf_counted]
      exact (congrArg Source.ready hsrc :)
    · rw [srcOf_counted]
      exact (congrArg Source.frame hsrc :)
    · rw [if_pos rfl, srcOf_counted]
  · have hdropped : srcOf (reportDrop (freeFrom (triggered s src cycles fs).1 (streamVia (declOf s src) none) f.slot f.handle) (declOf s src) IC.queue 0) src
        = { srcOf s src with ready := fs } :=
      srcOf_reportDrop.trans ((srcOf_congr (Reaches.refl _).freeFrom.ing src).trans hsrc)
    exact ⟨(congrArg Source.ready hdropped :), (congrArg Source.frame hdropped :), rb_raise _ _ (by decide)⟩

/-- Work that stops and waits has changed no source. -/
theorem srcOf_ite_block (p : Prop) [Decidable p] (s : State) (src : Nat) : srcOf (if p then block s else s) src = srcOf s src := by
  split
  · exact srcOf_congr (updIo_ing _ _) src
  · rfl

theorem frame_sendTrigger (s : State) (src cycles : Nat) : (srcOf (sendTrigger s src cycles).1 src).frame = (srcOf s src).frame := by
  cases hready : (srcOf s src).ready with
  | nil =>
    unfold sendTrigger
    rw [hready]
  | cons f fs => exact (sendTrigger_due hready).2.1

/-- The page of a source is the same in every state. -/
theorem page_declOf (s t : State) (src : Nat) : (declOf t src).page = (declOf s src).page := by
  unfold declOf
  split <;> rfl

/-- The trigger of a due frame whose writes wait at no stop is sent. -/
theorem frameTrigger_sent (hruns : islandRuns s (islandAt (declOf s src).page) = true) (hwaits : frameWaits s src = false) :
    frameTrigger src cycles s = (sendTrigger (wake s (islandAt (declOf s src).page)) src cycles).1 := by
  unfold frameTrigger
  exact if_pos (by simp [hruns, hwaits])

theorem frameTrigger_due (hready : (srcOf s src).ready = f :: fs) (hruns : islandRuns s (islandAt (declOf s src).page) = true)
    (hwaits : frameWaits s src = false) :
    (srcOf (frameTrigger src cycles s) src).ready = fs
      ∧ (if (sendTrigger (wake s (islandAt (declOf s src).page)) src cycles).2 then (srcOf (frameTrigger src cycles s) src).delivered = true
        else Raised (frameTrigger src cycles s) (declOf s src).page 9) := by
  have hawake : (srcOf (wake s (islandAt (declOf s src).page)) src).ready = f :: fs := by rwa [srcOf_congr (ing_wake _ _)]
  obtain ⟨hfs, -, houtcome⟩ := sendTrigger_due (cycles := cycles) hawake
  rw [page_declOf s (wake s _) src] at houtcome
  rw [frameTrigger_sent hruns hwaits]
  exact ⟨hfs, houtcome⟩
end

/-- What a command that is served leaves in a source. -/
theorem srcOf_given_updSrc (s t : State) (src : Nat) (g : Source → Source) : srcOf (given s (updSrc t src g)) src = g (srcOf t src) :=
  srcOf_updSrc_self t src g

/-! Host push (R305 to R307). -/

section
variable {s u : State} {mac entry src cycles : Nat}

theorem Reaches.hostPushComplete {t : State} (h : Reaches s t) {pg sq cq st seq info : Nat} {user : List Byte} {complete : Bool} :
    Reaches s (hostPushComplete t pg sq cq user complete st seq info) := by
  have hchecked : Reaches s (cqCheck t sq cq).1 := h.readCtx
  exact .ite (Reaches.partEvent (hchecked.hwFault.trans (w := (fresh _ _).1) ⟨rfl⟩)) (.ite hchecked (hchecked.carryCall fun _ k => k.pushCompletion))

/-- A descriptor that R305 and R306 accept is none of the malformed ones. -/
theorem descOk_fields {d : Decl} {bs : List Byte} (h : Claims.descOk d bs = true) :
    (decide (field bs 0 1 ≠ 1) || decide (field bs 1 1 ≥ 2) || decide (field bs 4 1 ≠ d.slot) || decide (field bs 5 3 ≠ 0)
      || decide (field bs 8 4 > d.maxBytes) || decide (field bs 12 4 ≠ 0) || decide (field bs 22 2 ≠ 0) || decide (field bs 40 24 ≠ 0)) = false := by
  simp only [Claims.descOk, Bool.and_eq_true, decide_eq_true_eq] at h
  obtain ⟨⟨⟨⟨⟨⟨⟨htype, hflags⟩, hslot⟩, hzero5⟩, hlength⟩, hzero12⟩, hzero22⟩, hzero40⟩ := h
  simp [htype, hslot, hzero5, hlength, hzero12, hzero22, hzero40, hflags]

/-- While a frame of its entry runs, no descriptor is popped. -/
theorem hostPushDesc_busy {meet : HodMeet} (h : (srcOf u (ethSrc mac entry)).frame ≠ none) : hostPushDesc mac entry meet u = u := by
  unfold hostPushDesc
  exact if_pos (.inr (.inr (.inr (.inr (.inr (.inl (Option.isSome_iff_ne_none.2 h)))))))

/-- A descriptor that passes every check, and whose data are read and written, opens its frame. -/
theorem hostPushDesc_opens {d : Decl} {sq : Nat} {r : State × Nat × Got} {q : State × Nat} {k : State × Option (Nat × Nat)} {al : State × Alloc}
    {f : Machine.Frame} {g : State × Got} {w : State × Nat}
    (hd : declOf u (ethSrc mac entry) = d) (hsq : rf u (R.ETH_STR_ID_LO mac entry) 15 0 = sq)
    (hr : popFrom (wake u 37) (streamVia d none) 1 sq .alone = r) (hq : nextSeq r.1 d.slot = q)
    (hk : startCheck q.1 d (srcOf q.1 (ethSrc mac entry)) = k) (hal : allocFrom k.1 (streamVia d none) d.slot d.maxBytes = al)
    (hf : Claims.pushFrame k.1 d r.2.2.data q.2 sq al.2 = f)
    (hg : readRange (acceptStart al.1 (ethSrc mac entry) f) (streamVia d (some d.cls)) (field r.2.2.data 16 6) (field r.2.2.data 8 4) = g)
    (hw : patientRange g.1 (streamVia d (some d.cls)) f.addr g.2.data g.2.bad = w)
    (hmac : mac < 2) (hentry : entry < 36) (hacc : accepts u (P.eth mac) = true) (hvalid : d.valid = true) (hen : d.en = true) (hkind : d.kind = 3)
    (hcls : d.cls ≠ 0) (hframe : (srcOf u (ethSrc mac entry)).frame = none) (hheld : ∀ h ∈ u.hod.heldCq, h.sq ≠ sq) (hpop : r.2.1 = HS.ok)
    (hdesc : Claims.descOk d r.2.2.data = true)
    (hwindow : windowOk q.1 (ctxPart (peekCtx q.1 sq)) .hod .read (field r.2.2.data 16 6) (field r.2.2.data 8 4) = true) (hchecks : k.2 = none)
    (hgranted : al.2.st = QS.ok) (hread : g.2.st ≤ 1) (hwritten : w.2 = MS.ok) :
    hostPushDesc mac entry .alone u = updSrc w.1 (ethSrc mac entry) fun k =>
      { k with frame := some { f with bytes := field r.2.2.data 8 4, poison := !g.2.bad.isEmpty } } := by
  have hthin : thinned q.1 (ethSrc mac entry) d = (q.1, false) := thinned_passed (.inl hcls)
  have hnone : (u.hod.heldCq.any fun h => decide (h.sq = sq)) = false := List.any_eq_false.2 fun h hh => by simpa using hheld h hh
  have hbad := descOk_fields hdesc
  subst hf
  unfold hostPushDesc
  dsimp only
  rw [hd, hsq, if_neg (by simp [hacc, hvalid, hkind, hframe, hnone]; omega), hr, if_neg (by rw [hpop]; decide), hq, hen, if_pos rfl, hthin,
    if_neg (by rw [hpop]; decide), if_neg Bool.false_ne_true, if_neg (by rw [hbad]; exact Bool.false_ne_true), hwindow,
    if_neg (by decide), hk, hchecks]
  dsimp only [Claims.pushFrame] at hg hw ⊢
  rw [hal, if_neg (not_not.2 hgranted), hg, if_neg (Nat.not_lt.2 hread), hw, if_neg (not_not.2 hwritten)]

/-- The data of a host-push frame are written: no frame of its source runs any longer. -/
theorem frame_hostPushDone {f : Machine.Frame} (hframe : (srcOf u src).frame = some f) (hkind : f.kind = 3)
    (hruns : islandRuns u (islandAt (declOf u src).page) = true) (hstops : writeStops u f.addr f.size = false) :
    (srcOf (hostPushDone src cycles u) src).frame = none := by
  unfold hostPushDone
  rw [hframe]
  dsimp only
  rw [if_neg (by simp [hkind, hruns, hstops]), srcOf_congr (Reaches.refl _).hostPushComplete.ing, frame_sendTrigger, srcOf_ite_block]
  exact frame_endFrame _ _ _
end

/-! Stalls (R308). -/

section
variable {s : State} {src : Nat}

theorem onPage_raiseRecord (s : State) (pg b : Nat) (params : List Nat) : OnPage pg s (raiseRecord s pg b params) :=
  .ite (.ite (onPage_toRecorder _) (.refl pg s)) (onPage_raiseP b params)

theorem raised_raiseRecord (s : State) (pg : Nat) {b : Nat} (params : List Nat) (hb : b < 32) : Raised (raiseRecord s pg b params) pg b := by
  unfold raiseRecord
  split
  · next hset => split <;> exact hset
  · unfold raiseP Raised
    rw [rb_raiseWith hb, decide_eq_true rfl, Bool.or_true]

theorem ing_stallSource (s : State) (src : Nat) : (stallSource s src).ing = (updSrc s src fun k => { k with stalled := true }).ing := by
  unfold stallSource
  exact (tellFlt_ing _ _).trans (ing_of_onPage (onPage_raiseRecord _ _ _ _))

theorem raised_stallSource (s : State) (src : Nat) : Raised (stallSource s src) (declOf s src).page 10 := by
  unfold stallSource Raised rb rd
  rw [tellFlt_regs]
  exact raised_raiseRecord _ _ _ (by decide)

theorem runs_streamStall (hsrc : src < 200) (hvalid : (declOf s src).valid = true) (hstalled : (srcOf s src).stalled = false)
    (hen : (declOf s src).en = true) :
    Runs (.streamStall src) s fun t => (srcOf t src).stalled = true ∧ Raised t (declOf s src).page 10 := by
  refine ⟨stallSource s src, ?_, ?_, raised_stallSource s src⟩
  · show execStreamStall src s = _
    unfold execStreamStall
    dsimp only
    rw [if_neg (by simp [hvalid, hstalled, hen]; omega)]
  · rw [srcOf_congr (ing_stallSource s src), srcOf_updSrc_self]
end

/-- Settles O46, clause by clause: frames of Ethernet, PTP and AVTP, the end of a transmission and a change of the link, triggers, host push, and stalls. -/
theorem ethernetAndTriggers : Obligations.EthernetAndTriggers := by
  unfold Obligations.EthernetAndTriggers
  intro s mac hmac hlen
  refine ⟨fun frame hacc => ?_, fun frame hacc hlength htype hu => ?_, fun frame hacc hroom hlength htype => ?_, fun frame hacc hroom hlength => ?_,
    fun pk hacc hshort => ?_, fun pk e hacc hlong hpay hwhole hentry hu => ?_, runs_ptpTxDone hmac, fun up => runs_ethLinkChange hmac,
    fun source f fs cycles hready hruns hwaits => ?_, fun entry meet host hframe => ?_, ?_, fun source f cycles hframe hkind hruns hstops => ?_,
    fun source => runs_streamStall⟩
  · exact runs_counted rfl (ethFrame_badFcs (u := withHost s []) hmac hacc) (by decide)
  · refine gives_of_serves rfl ((ethFrame_untagged (u := withHost s []) hmac hacc hlength (by rw [htype]; decide)).trans ?_) hu
    rw [if_pos htype]
  · refine runs_of_serves rfl (t := ptpReceive (ethAwake s) mac frame) ?_ (unheld_of_ethAwake (mortar_ptpReceive _ _ _))
      (ptpRx_awake (s := withHost s []) hlen hmac hroom hlength)
    rw [ethFrame_untagged (u := withHost s []) hmac hacc (hlength.trans (by decide)) (by rw [htype]; decide), if_neg (by rw [htype]; decide), if_pos htype]
    rfl
  · exact ⟨_, exec_ptpRx hmac hacc, ptpRx_awake hlen hmac hroom hlength⟩
  · exact runs_counted rfl ((avtpReceive_eq (u := withHost s []) hmac hacc).trans (avtpPacket_short hshort)) (by decide)
  · exact gives_of_serves rfl ((avtpReceive_eq (u := withHost s []) hmac hacc).trans (avtpPacket_declared hlong hpay hwhole hentry)) hu
  · exact Subchannels.completes_of_serves rfl (frameTrigger_due (s := withHost s []) hready hruns hwaits)
  · exact gives_of_serves (t := withHost s host) rfl (hostPushDesc_busy (u := withHost s host) hframe) (unheld_of_mortar (s := s) (host := host) rfl)
  · intro entry host src d sq r bs q k al f v g w hentry hacc hvalid hen hkind hcls hframe hheld hpop hdesc hwindow hchecks hgranted hread hwritten hu
    have hr : popFrom (wake (withHost s host) 37) (streamVia d none) 1 sq .alone = r := rfl
    have hq : nextSeq r.1 d.slot = q := rfl
    have hk : startCheck q.1 d (srcOf q.1 src) = k := rfl
    have hal : allocFrom k.1 (streamVia d none) d.slot d.maxBytes = al := rfl
    have hf : Claims.pushFrame k.1 d bs q.2 sq al.2 = f := rfl
    have hg : readRange (acceptStart al.1 src f) v (field bs 16 6) (field bs 8 4) = g := rfl
    have hw : patientRange g.1 v f.addr g.2.data g.2.bad = w := rfl
    have hwork := hostPushDesc_opens (u := withHost s host) rfl rfl hr hq hk hal hf hg hw hmac hentry hacc hvalid hen hkind hcls hframe hheld hpop hdesc
      hwindow hchecks hgranted hread hwritten
    clear_value w g f al k q r
    refine runs_of_serves rfl hwork hu ?_
    exact congrArg Source.frame (srcOf_given_updSrc s w.1 src _)
  · exact Subchannels.completes_of_serves rfl (frame_hostPushDone (u := withHost s []) hframe hkind hruns hstops)

end Sys2Proof.Streams
end

section
/-! What reads, writes, pops and pushes of engines leave alone: what a request brings about stays within `Reaches` (03 R58, R70 to R84; 07 R228 to R242). -/
namespace Sys2Proof.Streams
open Sys2Proof Sys2Proof.Machine Sys2Proof.Laws Sys2Proof.Mesh Sys2Proof.Subchannels Sys2Proof.Queues

/-! Reads: from the host, from a window, from DRAM and from SRAM. -/

section
variable {s t : State} {v : Via} {a n : Nat}

theorem Reaches.updIo (h : Reaches s t) {f : Io → Io} : Reaches s (updIo t f) := h.trans ⟨rfl⟩

theorem Reaches.logAer (h : Reaches s t) {fn bitNo : Nat} {header : List Nat} : Reaches s (logAer t fn bitNo header) :=
  h.onPage (Endpoint.onPage_logAer t fn bitNo header)

theorem Reaches.hwinRefuse (h : Reaches s t) {cause : Nat} {req : Req} {x : Nat} : Reaches s (hwinRefuse t cause req x a) := .ite h.bump h.bump.fault

theorem Reaches.hostAnswer (h : Reaches s t) {fn tag : Nat} {hold : State → State} (hhold : ∀ w, Reaches s w → Reaches s (hold w)) :
    Reaches s (hostAnswer t fn a tag n hold).1 := by
  have hpoison (i : Io → Io) (eps : List (List Nat)) : Reaches s (eps.foldl (fun s h => poisonIn s .hw fn (some a) h) (Machine.updIo t i)) :=
    .foldl (fun _ _ k => k.fault.logAer) eps h.updIo
  unfold Machine.hostAnswer
  dsimp only
  split
  · exact hpoison _ _
  · exact .iteFst (hhold _ (hpoison _ _)).block (hpoison _ _).fault.logAer.raise
  · exact (hpoison _ _).fault

theorem Reaches.peak (h : Reaches s t) {off hi lo x : Nat} : Reaches s (peak t off hi lo x) := h.trans ⟨rfl⟩

theorem Reaches.sendRead (h : Reaches s t) {id fn tag : Nat} : Reaches s (sendRead t id fn a n tag) := Reaches.peak (h.trans ⟨by rfl⟩)

theorem Reaches.hostRequest (h : Reaches s t) {r : StuckRead} : Reaches s (hostRequest t r a n).1 := by
  unfold Machine.hostRequest
  split
  · exact h.block
  · exact h.sendRead.hostAnswer fun _ k => k.updIo

theorem Reaches.hostRequests (h : Reaches s t) {k : StuckRead} (ps : List (Nat × Nat)) : Reaches s (hostRequests k ps t).1 := by
  induction ps generalizing t with
  | nil => exact h
  | cons p ps ih => exact ih h.hostRequest

theorem Reaches.hostRead (h : Reaches s t) {req : Req} {x : Nat} : Reaches s (hostRead t req x a n).1 := by
  unfold Machine.hostRead
  split
  · exact .iteFst (h.trans ⟨rfl⟩) (Reaches.hostAnswer (h.trans ⟨rfl⟩) fun _ k => k)
  · refine .iteFst h ?_
    split
    · exact h.hwinRefuse
    · exact .iteFst h.block ((h.hostRequests _).trans ⟨rfl⟩)

theorem Reaches.windowRead (h : Reaches s t) : Reaches s (windowRead t v a n).1 := by
  unfold Machine.windowRead
  split
  · exact h.trans ⟨rfl⟩
  · exact h.trans ⟨rfl⟩

theorem Reaches.readMem (h : Reaches s t) : Reaches s (readMem t v a n).1 := by
  unfold Machine.readMem
  split
  · split
    · exact h.block
    · next hw =>
      obtain ⟨x, f, rfl, hx⟩ := commands_engineCommand hw
      exact ((h.checks (checks_wakeAt t a)).onDram hx.onDram).updIo.checks (checks_arrayRead _ _ _ _ _)
  · exact h.checks (checks_localRead t a n)

theorem Reaches.placeRead (h : Reaches s t) : Reaches s (placeRead t v a n).1 := by
  unfold Machine.placeRead
  split
  · exact h.hostRead
  · exact h.windowRead
  · exact h.windowRead
  · exact h.readMem

theorem Reaches.devRead (h : Reaches s t) : Reaches s (devRead t v a n).1 := by
  unfold Machine.devRead Machine.carryRead
  split
  · exact h.fault
  · exact .ite (Reaches.placeRead (h.trans ⟨rfl⟩)) (h.trans ⟨rfl⟩)
  · exact h.countFlits.placeRead.countFlits

theorem Reaches.readPieces (h : Reaches s t) (ps : List (Nat × Nat)) : Reaches s (readPieces ps t v).1 := by
  induction ps generalizing t with
  | nil => exact h
  | cons p ps ih => exact .iteFst h.devRead (ih h.devRead)

theorem Reaches.mediaRead (h : Reaches s t) : Reaches s (mediaRead t v a n).1 := .iteFst (h.readPieces _) h

theorem Reaches.writePieces (h : Reaches s t) {bs : List Byte} {bad : List (Nat × Nat)} (ps : List (Nat × Nat)) :
    Reaches s (writePieces ps t v a bs bad).1 := by
  induction ps generalizing t with
  | nil => exact h
  | cons p ps ih => exact .iteFst h.devWrite (ih h.devWrite)

theorem Reaches.mediaWrite (h : Reaches s t) {bs : List Byte} {bad : List (Nat × Nat)} : Reaches s (mediaWrite t v a bs bad).1 :=
  .iteFst (h.writePieces _) h
end

/-! Pops, with what meets them, and pushes (07 R228 to R239). -/

section
variable {s t : State} {q c : Nat} {req : Req}

theorem Reaches.ringRead (h : Reaches s t) {a : Nat} : Reaches s (ringRead t q a).1 := .iteFst h.devRead.detach.hwFault h.devRead

theorem Reaches.ringReads (h : Reaches s t) (n i : Nat) : Reaches s (ringReads n t q i).1 := by
  induction n generalizing t i with
  | zero => exact h
  | succ n ih => exact .iteFst h.ringRead (ih h.ringRead _)

theorem Reaches.commitCycle (h : Reaches s t) {m : Nat} : Reaches s (commitCycle t q m) := by
  unfold Machine.commitCycle
  dsimp only
  split
  · exact h.readCtx.hodCycle
  · next p _ _ =>
    have hput (x : Nat) : Reaches s (putCtx (Machine.readCtx t q).1 q x) := h.readCtx.contexts (contexts_putCtx _ q x)
    have hwithdrawn (x : Nat) : Reaches s (withdrawn (putCtx (Machine.readCtx t q).1 q x) p) := (hput x).trans ⟨rfl⟩
    exact (Reaches.ite (hwithdrawn _).bump (hwithdrawn _).bump.bump).contexts (occurs_queueEvents _ _ _ _ _).contexts

/-- A pop of no entry or of some, which nothing meets. -/
theorem Reaches.popAlone (h : Reaches s t) {m : Nat} : Reaches s (if m = 0 then t else (Machine.hodCycle t q 0 m).1) := .ite h h.hodCycle

/-- A push that meets a pop, and the measure of its admission. -/
theorem Reaches.timedCycle (h : Reaches s t) {n m cycles : Nat} :
    Reaches s (if (Machine.hodCycle t q n m).2 = HS.ok then Machine.urgentTime (Machine.hodCycle t q n m).1 q c cycles else (Machine.hodCycle t q n m).1) :=
  .ite h.hodCycle.urgentTime h.hodCycle

theorem Reaches.doorbellPush (h : Reaches s t) {n m cycles : Nat} : Reaches s (doorbellPush t req q c n m cycles) := by
  unfold Machine.doorbellPush
  exact .ite h.fault.popAlone (.ite h.popAlone (.ite h.fault.popAlone h.dropHeld.timedCycle))

theorem Reaches.meetCycle (h : Reaches s t) {m : Nat} {meet : HodMeet} : Reaches s (meetCycle t q m meet) := by
  unfold Machine.meetCycle
  cases meet with
  | alone => exact h.popAlone
  | trigger cycles => exact .ite h.opCheck.popAlone h.opCheck.dropHeld.timedCycle
  | doorbell req n cycles => exact .ite h.fault.popAlone (.ite h.fault.popAlone h.doorbellPush)
  | commit => exact .ite h.popAlone h.commitCycle

theorem Reaches.hodPop (h : Reaches s t) {role n : Nat} {meet : HodMeet} : Reaches s (hodPop t req role q n meet).1 := by
  have hmet {roleOk countOk : Bool} {m : Nat} :
      Reaches s (Machine.meetCycle (Machine.opCheck (Machine.takeQueue t q).1 req q (Machine.takeQueue t q).2 roleOk countOk n).1 q m meet) :=
    h.takeQueue.opCheck.meetCycle
  unfold Machine.hodPop
  exact .iteFst hmet (.iteFst hmet (.iteFst (hmet.ringReads _ _) (hmet.ringReads _ _)))

theorem Reaches.popFrom (h : Reaches s t) {v : Via} {role : Nat} {meet : HodMeet} : Reaches s (popFrom t v role q meet).1 := h.carryCall fun _ k => k.hodPop

theorem Reaches.pushFrom (h : Reaches s t) {v : Via} {e : List Byte} : Reaches s (pushFrom t v q e).1 := h.carryCall fun _ k => k.devPushFree

theorem Reaches.allocFrom (h : Reaches s t) {v : Via} {i size : Nat} : Reaches s (allocFrom t v i size).1 :=
  h.carryCall fun w k => k.onQuarry (OnQuarry.refl w).allocate

theorem Reaches.dev (h : Reaches s t) : t.dev = s.dev := (congrArg State.dev h.rest :)
end

end Sys2Proof.Streams
end

section
/-! Developer's slots and engines, and what its requests leave alone (10 R315 to R320, R329 to R333). -/
namespace Sys2Proof.Decoder
open Sys2Proof Sys2Proof.Machine Sys2Proof.Laws Sys2Proof.Claims Sys2Proof.Streams

/-! A slot, and the state with one slot changed. -/

section
variable {s t : State} {n : Nat}

theorem dev_of_onPage {pg : Nat} (h : OnPage pg s t) : t.dev = s.dev := (congrArg State.dev h.rest :)

theorem devSlot_congr (h : t.dev = s.dev) (n : Nat) : devSlot t n = devSlot s n := congrArg (fun x : Machine.Developer => nth x.slots n {}) h

/-- A slot that is changed; beyond the slots there is nothing to change. -/
theorem devSlot_updDev_self {f : DevSlot → DevSlot} (h : devSlot s n = {} → f {} = {}) : devSlot (updDev s n f) n = f (devSlot s n) := by
  unfold devSlot nth at h
  unfold devSlot updDev nth updAt
  rw [List.getElem?_modify_eq]
  cases hslot : s.dev.slots[n]? with
  | none =>
    rw [hslot] at h
    exact (h rfl).symm
  | some k => rfl

theorem ne_blank_of_st (h : (devSlot s n).st ≠ 0) : devSlot s n ≠ {} := fun hblank => h (by rw [hblank])
end

/-! What Developer's requests to Quarry leave alone. -/

/-- From `s` to `t` Developer asks Quarry for buffers, gives them back, and reports: what its requests do not reach stays, and none of them has to wait. -/
structure Asks (s t : State) : Prop where
  reaches : Reaches s t
  io : t.mortar.io = s.mortar.io

section
variable {s t : State} {e n : Nat}

theorem Asks.refl (s : State) : Asks s s := ⟨.refl s, rfl⟩

theorem Asks.dev (h : Asks s t) : t.dev = s.dev := h.reaches.dev

theorem unheld_of_io_eq (h : t.mortar.io = s.mortar.io) (hs : Unheld s) : Unheld t := by
  unfold Unheld
  rwa [h]

theorem Asks.unheld (h : Asks s t) (hs : Unheld s) : Unheld t := unheld_of_io_eq h.io hs

theorem Asks.iteFst {α : Type} {c : Prop} [Decidable c] {x y : State × α} (hx : Asks s x.1) (hy : Asks s y.1) : Asks s (if c then x else y).1 := by
  split <;> assumption

theorem Asks.onPage {pg : Nat} {w : State} (h : Asks s t) (k : OnPage pg t w) : Asks s w :=
  ⟨h.reaches.onPage k, (congrArg Mortar.io (mortar_of_onPage k)).trans h.io⟩

theorem Asks.bump (h : Asks s t) {off hi lo x : Nat} : Asks s (bump t off hi lo x) := ⟨h.reaches.bump, h.io⟩

theorem Asks.freeFrom (h : Asks s t) {v : Via} {x : Nat} : Asks s (freeFrom t v n x) := ⟨h.reaches.freeFrom, (io_freeFrom t v n x).trans h.io⟩

theorem Asks.allocFrom (h : Asks s t) {v : Via} {x : Nat} : Asks s (allocFrom t v n x).1 := ⟨h.reaches.allocFrom, (io_allocFrom t v n x).trans h.io⟩

theorem Asks.freePic (h : Asks s t) {p : Pic} : Asks s (freePic t n p) := h.freeFrom.freeFrom

theorem Asks.allocPlanes (h : Asks s t) {y c : Nat} : Asks s (allocPlanes t n y c).1 := by
  unfold Machine.allocPlanes
  exact .iteFst h.allocFrom (.iteFst h.allocFrom.allocFrom.freeFrom h.allocFrom.allocFrom)

theorem Asks.allocPics (h : Asks s t) {y c : Nat} (refs : List Bool) : Asks s (allocPics refs t n y c).1 := by
  induction refs generalizing t with
  | nil => exact h
  | cons ref refs ih =>
    cases ref with
    | false => exact .iteFst h.allocPlanes (.iteFst h.allocPlanes.freePic (.iteFst (ih h.allocPlanes).freePic (ih h.allocPlanes)))
    | true =>
      have hboth := h.allocPlanes (n := n) (y := y) (c := c) |>.allocPlanes (n := n) (y := y) (c := c)
      exact .iteFst h.allocPlanes (.iteFst hboth.freePic (.iteFst (ih hboth).freePic.freePic (ih hboth)))

/-- An allocation whose failure would show has not failed. -/
theorem granted_of_ok {u : State} {st : Nat} {l : List (Pic × Option Pic)} {z : State × Nat × List (Pic × Option Pic)}
    (hok : (if st ≠ QS.ok then (u, st, l) else z).2.1 = QS.ok) : st = QS.ok := by
  by_contra hst
  rw [if_pos hst] at hok
  exact hst hok

/-- Where every plane is granted, each picture of the frame has its buffers. -/
theorem length_allocPics {y c : Nat} (refs : List Bool) (hok : (allocPics refs t n y c).2.1 = QS.ok) : (allocPics refs t n y c).2.2.length = refs.length := by
  induction refs generalizing t with
  | nil => rfl
  | cons ref refs ih =>
    unfold allocPics at hok ⊢
    dsimp only at hok ⊢
    have hfirst := granted_of_ok hok
    rw [if_neg (not_not.2 hfirst)] at hok ⊢
    have hsecond := granted_of_ok hok
    rw [if_neg (not_not.2 hsecond)] at hok ⊢
    have hrest := granted_of_ok hok
    rw [if_neg (not_not.2 hrest)]
    exact congrArg Nat.succ (ih hrest)
end

/-! A frame that is dropped (R318). -/

section
variable {s t : State} {e n h cause info : Nat}

theorem Asks.devLose (h : Asks s t) : Asks s (devLose t e n cause info) := (h.bump.onPage (onPage_hwFault _ _)).onPage (onPage_raise 9)

theorem Asks.devDrop (k : Asks s t) : Asks s (devDrop t e n h cause info) := k.freeFrom.devLose

theorem raised_devLose : Raised (devLose t e n cause info) (P.dev e) 9 := rb_raise _ _ (by decide)

theorem st_devWaitRap : (devSlot (devWaitRap t e n) n).st = 0 := by
  unfold devWaitRap
  rw [devSlot_congr (dev_of_onPage (onPage_raise 10)), devSlot_updDev_self fun _ => rfl]

theorem raised_devWaitRap : Raised (devWaitRap t e n) (P.dev e) 10 := rb_raise _ _ (by decide)

/-- The event of the slot leaves the event of the drop as it is. -/
theorem raised_devWaitRap_devDrop : Raised (devWaitRap (devDrop t e n h cause info) e n) (P.dev e) 9 := by
  have hdropped : Raised (devDrop t e n h cause info) (P.dev e) 9 := raised_devLose
  unfold devWaitRap Raised
  rw [raise, RegisterPages.rb_raiseWith (by decide)]
  exact Bool.or_eq_true_iff.2 (.inl hdropped)

theorem unheld_devWaitRap (hu : Unheld t) : Unheld (devWaitRap t e n) :=
  ((Asks.refl (updDev t n fun d => { d with st := 0 })).onPage (onPage_raise 10)).unheld hu
end

end Sys2Proof.Decoder
end

section
/-! The end of a frame's decoding: whatever becomes of its pictures, no engine takes or loses work (10 R319, R320, R329 to R333). -/
namespace Sys2Proof.Decoder
open Sys2Proof Sys2Proof.Machine Sys2Proof.Laws Sys2Proof.Claims Sys2Proof.Streams

/-- From `s` to `t` Developer's engines keep the frames that they decode. -/
structure KeepsWork (s t : State) : Prop where
  eng : t.dev.eng = s.dev.eng

section
variable {s t w : State} {e n : Nat} {v : Via}

theorem KeepsWork.refl (s : State) : KeepsWork s s := ⟨rfl⟩

theorem KeepsWork.reaches (h : KeepsWork s t) (k : Reaches t w) : KeepsWork s w := ⟨(congrArg Machine.Developer.eng k.dev).trans h.eng⟩

theorem KeepsWork.asks (h : KeepsWork s t) (k : Asks t w) : KeepsWork s w := h.reaches k.reaches

theorem KeepsWork.updDev (h : KeepsWork s t) {f : DevSlot → DevSlot} : KeepsWork s (updDev t n f) := ⟨h.eng⟩

theorem KeepsWork.bump (h : KeepsWork s t) {off hi lo x : Nat} : KeepsWork s (bump t off hi lo x) := ⟨h.eng⟩

theorem KeepsWork.setReg (h : KeepsWork s t) {off : Nat} {x : W32} : KeepsWork s (setReg t off x) := ⟨h.eng⟩

theorem KeepsWork.ite {c : Prop} [Decidable c] (ht : KeepsWork s t) (hw : KeepsWork s w) : KeepsWork s (if c then t else w) := by
  split <;> assumption

theorem KeepsWork.foldl {α : Type} {f : State → α → State} (hf : ∀ t x, KeepsWork s t → KeepsWork s (f t x)) (l : List α) (h : KeepsWork s t) :
    KeepsWork s (l.foldl f t) := List.foldlRecOn l f h fun _ k _ _ => hf _ _ k

theorem KeepsWork.freePic (h : KeepsWork s t) {p : Pic} : KeepsWork s (freePic t n p) := h.asks (Asks.refl t).freePic

theorem KeepsWork.devLose (h : KeepsWork s t) {cause info : Nat} : KeepsWork s (devLose t e n cause info) := h.asks (Asks.refl t).devLose

theorem KeepsWork.mediaRead (h : KeepsWork s t) {a len : Nat} : KeepsWork s (mediaRead t v a len).1 := h.reaches (Reaches.refl t).mediaRead

theorem KeepsWork.mediaWrite (h : KeepsWork s t) {a : Nat} {bs : List Byte} {bad : List (Nat × Nat)} : KeepsWork s (mediaWrite t v a bs bad).1 :=
  h.reaches (Reaches.refl t).mediaWrite

theorem KeepsWork.iteFst {α : Type} {c : Prop} [Decidable c] {x y : State × α} (hx : KeepsWork s x.1) (hy : KeepsWork s y.1) :
    KeepsWork s (if c then x else y).1 := by
  split <;> assumption

theorem KeepsWork.foldlFst {α β : Type} {f : State × β → α → State × β} (hf : ∀ a x, KeepsWork s a.1 → KeepsWork s (f a x).1) (l : List α)
    {a : State × β} (h : KeepsWork s a.1) : KeepsWork s (l.foldl f a).1 :=
  List.foldlRecOn (motive := fun a => KeepsWork s a.1) l f h fun _ k _ _ => hf _ _ k
end

/-! The reads of references and the damage of a picture (R329 to R333). -/

section
variable {s t : State} {e n : Nat} {v : Via}

theorem KeepsWork.readRuns (h : KeepsWork s t) {base : Nat} (rs : List (Nat × Nat)) : KeepsWork s (readRuns rs t v base).1 := by
  induction rs generalizing t with
  | nil => exact h
  | cons r rs ih => exact .iteFst h.mediaRead (ih h.mediaRead)

theorem KeepsWork.readGood (h : KeepsWork s t) {good : Option Pic} {ry rc : List (Nat × Nat)} : KeepsWork s (readGood t v good ry rc).1 := by
  cases good with
  | none => exact h
  | some p => exact (h.readRuns ry).readRuns rc

theorem KeepsWork.readRefs (h : KeepsWork s t) {held : List Pic} (rs : List (Nat × Nat × Nat)) : KeepsWork s (readRefs rs t v held).1 := by
  induction rs generalizing t with
  | nil => exact h
  | cons r rs ih =>
    unfold Machine.readRefs
    split
    · exact ih h
    · exact ih h.mediaRead.mediaRead

theorem KeepsWork.concealRange {a : State × List Byte × List Byte × Bool} (h : KeepsWork s a.1) {good : Option Pic} {d10 : Bool}
    {ry rc : List (Nat × Nat)} : KeepsWork s (concealRange v good d10 ry rc a).1 := h.readGood

theorem KeepsWork.damageOf (h : KeepsWork s t) {held : List Pic} {input : Got} {d : DecPic} {blocks : Nat} :
    KeepsWork s (damageOf t v held input d blocks).1 := by
  refine .foldlFst (fun a u k => ?_) _ h
  exact k.readRefs u.1.refs

theorem KeepsWork.reportDamage (h : KeepsWork s t) {seq : Nat} {d : Damage} : KeepsWork s (reportDamage t e n seq d) := by
  unfold Machine.reportDamage
  exact (KeepsWork.foldl (fun _ _ k => k.setReg) _ h.bump).reaches ((Reaches.refl _).onPage (onPage_raiseRecord _ _ _ _))
end

/-! The pictures of a frame, and those that it shows again (R319, R320). -/

section
variable {s t : State} {e n : Nat} {v : Via}

theorem KeepsWork.picLost (h : KeepsWork s t) {p : Pic × Option Pic} {st : Nat} : KeepsWork s (picLost t e n p st) := by
  unfold Machine.picLost
  refine KeepsWork.devLose ?_
  split
  · exact h.freePic.freePic
  · exact h.freePic

theorem KeepsWork.writePlanes (h : KeepsWork s t) {p : Pic} {y c : List Byte} : KeepsWork s (writePlanes t v p y c).1 :=
  .iteFst h.mediaWrite h.mediaWrite.mediaWrite

theorem KeepsWork.decodePic (h : KeepsWork s t) {w : DevWork} {input : Got} {x : (Pic × Option Pic) × DecPic} :
    KeepsWork s (decodePic e w v input t x) := by
  unfold Machine.decodePic
  extract_lets n p d k bps z side per found damage hurt runs good mid pic y c reps reported released settled tainted stored written mark kept
  have hfound : KeepsWork s found.1 := h.damageOf
  have hpic : KeepsWork s pic.1 := .foldlFst (fun _ _ k => k.concealRange) _ hfound
  have hreported : KeepsWork s reported := .foldl (fun _ _ k => k.reportDamage) _ hpic
  have hreleased : KeepsWork s released := .foldl (fun _ _ k => k.freePic) _ hreported
  have hsettled : KeepsWork s settled := hreleased.updDev
  have hstored : KeepsWork s stored.1 := by
    unfold stored
    split
    · exact .iteFst hsettled.writePlanes hsettled
    · exact hsettled
  have hwritten : KeepsWork s written.1 := .iteFst hstored hstored.writePlanes
  have hkept : KeepsWork s kept := by
    unfold kept
    split
    · exact .ite hwritten.updDev hwritten.freePic
    · exact hwritten
  exact .ite hwritten.picLost (.ite hkept.updDev hkept.freePic)

theorem KeepsWork.showExisting (h : KeepsWork s t) {bs : List Byte} {o : Nat} : KeepsWork s (showExisting e n v bs t o) := by
  unfold Machine.showExisting
  extract_lets k
  split
  · exact h.updDev
  · split
    · exact h
    · next p _ =>
      extract_lets z a q y c lost grey luma chroma shown
      have hgranted : KeepsWork s a.1 := h.asks (Asks.refl t).allocPlanes
      have hluma : KeepsWork s luma.1 := hgranted.mediaRead.mediaRead.mediaWrite
      have hchroma : KeepsWork s chroma.1 := .iteFst hluma hluma.mediaWrite
      exact .ite hgranted.devLose (.ite hchroma.picLost hchroma.updDev)

theorem KeepsWork.emitPics (h : KeepsWork s t) {count : Nat} {bs : List Byte} : KeepsWork s (emitPics t n count bs) := h.updDev
end

/-- The end of a decode leaves its engine idle. -/
theorem idle_devDecodeDone {s : State} {e : Nat} {w : DevWork} {out : Decoding} {us stall : Nat} (hruns : islandRuns s 27 = true)
    (hwork : nth s.dev.eng e none = some w) : nth (devDecodeDone e out us stall s).dev.eng e none = none := by
  unfold devDecodeDone
  rw [if_neg (by simp [hruns]), hwork]
  dsimp -zeta only
  extract_lets n k awake cluster idle v input busy counted freed decoded dropped running shown emitted
  have hidle : nth idle.dev.eng e none = none := by
    unfold idle nth updAt
    rw [List.getElem?_modify_eq]
    cases awake.dev.eng[e]? <;> rfl
  have hcounted : KeepsWork idle counted := (KeepsWork.refl idle).mediaRead.bump.bump.bump.bump
  have hdecoded : KeepsWork idle decoded := .foldl (fun _ _ k => k.decodePic) _ (hcounted.asks (Asks.refl counted).freeFrom)
  have hdropped : KeepsWork idle dropped := by
    refine .foldl (fun t p k => ?_) _ hdecoded
    dsimp only
    split
    · exact k.freePic.freePic
    · exact k.freePic
  have hemitted : KeepsWork idle emitted := .emitPics (.foldl (fun _ _ k => k.showExisting) _ hdropped.updDev)
  have hend : KeepsWork idle (if out.endSeq then emitPics emitted n (devSlot emitted n).wait.length w.record else emitted) :=
    .ite hemitted.emitPics hemitted
  rw [hend.eng, hidle]

end Sys2Proof.Decoder
end

section
/-! Developer's commands: a frame is taken, pictures leave, a slot is flushed or resynchronised (10 R317 to R321, R325, R335). -/
namespace Sys2Proof.Decoder
open Sys2Proof Sys2Proof.Machine Sys2Proof.Laws Sys2Proof.Claims Sys2Proof.Streams

/-! An idle engine takes its next frame (R317, R318, R325). -/

section
variable {u : State} {e c p n : Nat} {hdr : Option SeqHdr} {rap : Bool} {refs : List Bool} {meet : HodMeet} {d : Decl} {r : State × Nat × Got}

/-- The engine that chooses is idle. -/
theorem idle_of_devIdle (h : devIdle u = some e) : e < 6 ∧ nth u.dev.eng e none = none := by
  have hpred := List.find?_some h
  rw [Bool.and_eq_true, Option.isNone_iff_eq_none] at hpred
  exact ⟨List.mem_range.1 (List.mem_of_find?_eq_some h), hpred.2⟩

/-- The choice that an engine makes, and the input record that Hod answers it with. -/
structure Selects (u : State) (e c p n : Nat) (meet : HodMeet) (d : Decl) (r : State × Nat × Got) : Prop where
  idle : devIdle u = some e
  choice : devChoose u = some (c, p, n)
  decl : declOf u ((slotSource u n).getD 0) = d
  popped : popFrom { wake u 27 with
    dev := { (wake u 27).dev with rrPart := SMap.set (wake u 27).dev.rrPart c p, rrSlot := SMap.set (wake u 27).dev.rrSlot (8 * c + p) n } }
    devVia 1 d.queue meet = r

theorem Selects.eng (k : Selects u e c p n meet d r) : r.1.dev.eng = u.dev.eng := by
  rw [← k.popped, (Reaches.refl _).popFrom.dev]
  exact (congrArg Machine.Developer.eng (Reaches.refl u).wake.dev :)

theorem devEngineSelect_failed (k : Selects u e c p n meet d r) (hok : r.2.1 ≠ HS.ok) (hpoison : r.2.1 ≠ HS.poison) :
    devEngineSelect e hdr rap refs meet u = r.1 := by
  unfold devEngineSelect
  rw [if_neg (not_not.2 k.idle), k.choice]
  dsimp only
  rw [k.decl, k.popped, if_pos ⟨hok, hpoison⟩]

theorem devEngineSelect_poisoned (k : Selects u e c p n meet d r) (hpoison : r.2.1 = HS.poison) :
    devEngineSelect e hdr rap refs meet u = devLose r.1 e n 5 (d.queue * 65536) := by
  unfold devEngineSelect
  rw [if_neg (not_not.2 k.idle), k.choice]
  dsimp only
  rw [k.decl, k.popped, if_neg fun h => h.2 hpoison, if_pos hpoison]

theorem devEngineSelect_dead (k : Selects u e c p n meet d r) (hok : r.2.1 = HS.ok) (hdead : handleLive r.1 (field r.2.2.data 0 4) = false) :
    devEngineSelect e hdr rap refs meet u = devDrop r.1 e n (field r.2.2.data 0 4) 5 (d.queue * 65536) := by
  unfold devEngineSelect
  rw [if_neg (not_not.2 k.idle), k.choice]
  dsimp only
  rw [k.decl, k.popped, if_neg fun h => h.1 hok, if_neg (by rw [hok]; decide), if_pos (.inl (by simp [hdead]))]

/-- A header that is not accepted, or has another size than declared, drops its frame and leaves the slot waiting. -/
theorem devEngineSelect_refused {q : SeqHdr} (k : Selects u e c p n meet d r) (hok : r.2.1 = HS.ok) (hlive : handleLive r.1 (field r.2.2.data 0 4) = true)
    (hformat : field r.2.2.data 50 1 = d.format) (hpoint : (devSlot r.1 n).st ≠ 0 ∨ (rap = true ∧ (devSlot r.1 n).seq.isSome = true))
    (hbad : hdrAccepted d.format q = false ∨ q.width ≠ d.width ∨ q.height ≠ d.height) :
    ∃ cause info, devEngineSelect e (some q) rap refs meet u
      = devWaitRap (devDrop (updDev r.1 n fun k => { k with last := r.2.2.data }) e n (field r.2.2.data 0 4) cause info) e n := by
  have hgoes (known : Bool) : ¬(decide ((devSlot r.1 n).st = 0) && !(rap && ((devSlot r.1 n).seq.isSome || known))) = true := by
    rcases hpoint with hst | ⟨hrap, hseq⟩
    · simp [hst]
    · simp [hrap, hseq]
  unfold devEngineSelect
  rw [if_neg (not_not.2 k.idle), k.choice]
  dsimp only
  rw [k.decl, k.popped, if_neg fun h => h.1 hok, if_neg (by rw [hok]; decide), if_neg (by simp [hlive, hformat]), if_neg (hgoes _)]
  by_cases hright : hdrAccepted d.format q = false
  · rw [if_pos (by simp [hright])]
    exact ⟨_, _, rfl⟩
  · have hsize : ¬(q.width = d.width ∧ q.height = d.height) := fun h => (hbad.resolve_left hright).elim (· h.1) (· h.2)
    rw [if_neg (by simpa using hright), if_pos (by rw [← Bool.decide_and, decide_eq_false hsize]; decide)]
    exact ⟨_, _, rfl⟩

/-- A frame without a header, of a slot that decodes, goes on to its planes. -/
theorem devEngineSelect_plain (k : Selects u e c p n meet d r) (hok : r.2.1 = HS.ok) (hlive : handleLive r.1 (field r.2.2.data 0 4) = true)
    (hformat : field r.2.2.data 50 1 = d.format) (hst : (devSlot r.1 n).st ≠ 0) :
    devEngineSelect e none rap refs meet u
      = devStart (updDev r.1 n fun k => { k with last := r.2.2.data }) e n r.2.2.data (field r.2.2.data 0 4) rap refs := by
  unfold devEngineSelect
  rw [if_neg (not_not.2 k.idle), k.choice]
  dsimp only
  rw [k.decl, k.popped, if_neg fun h => h.1 hok, if_neg (by rw [hok]; decide), if_neg (by simp [hlive, hformat]), if_neg (by simp [hst])]
end

/-! A frame starts once its planes are allocated (R318 condition 5). -/

section
variable {s : State} {e n h : Nat} {bs : List Byte} {rap : Bool} {refs : List Bool}

theorem dev_mediaDebit (s : State) (c g cost : Nat) : (mediaDebit s c g cost).dev = s.dev := by
  unfold mediaDebit
  split <;> rfl

theorem mortar_mediaDebit (s : State) (c g cost : Nat) : (mediaDebit s c g cost).mortar = s.mortar := by
  unfold mediaDebit
  split <;> rfl

theorem devStart_granted {z : Nat × Nat × Nat} (hz : planeSizes (devSlot s n).width (devSlot s n).height (devSlot s n).depth10 = z)
    (hok : (allocPics refs s n z.2.1 z.2.2).2.1 = QS.ok) (hengine : e < s.dev.eng.length) (hu : Unheld s) :
    Unheld (devStart s e n bs h rap refs) ∧ ∃ w, nth (devStart s e n bs h rap refs).dev.eng e none = some w ∧ w.slot = n ∧ w.record = bs
      ∧ w.pics.length = refs.length ∧ w.rap = rap := by
  have hasks : Asks s (allocPics refs s n z.2.1 z.2.2).1 := (Asks.refl s).allocPics refs
  unfold devStart
  dsimp only
  rw [hz, if_neg (not_not.2 hok)]
  refine ⟨?_, _, Islands.nth_updAt_self ?_ _ _, rfl, rfl, (List.length_map _).trans (length_allocPics refs hok), rfl⟩
  · have hio := congrArg Mortar.io (mortar_mediaDebit (allocPics refs s n z.2.1 z.2.2).1 (slotClass s n) 8 (devCost s n))
    exact unheld_of_io_eq (hio.trans hasks.io) hu
  · rwa [dev_mediaDebit, hasks.dev]
end

/-! Pictures leave in output order (R320, R321). -/

section
variable {k : DevSlot} {bs : List Byte}

/-- The pictures awaiting output that are shown. -/
def shownOf (k : DevSlot) : List Pic := k.wait.filter (!·.hidden)

theorem firstOut_mem {ps : List Pic} {p : Pic} (h : firstOut ps = some p) : p ∈ ps ∧ p.hidden = false := by
  have hmem : ∀ p, firstOut ps = some p → p ∈ ps.filter fun p => !p.hidden := by
    unfold firstOut
    refine List.foldlRecOn (motive := fun o => ∀ p, o = some p → p ∈ ps.filter fun p => !p.hidden) _ _ ?_ fun o ho x hx p hp => ?_
    · exact fun _ hnone => nomatch hnone
    · cases o with
      | none =>
        cases hp
        exact hx
      | some q =>
        dsimp only at hp
        split at hp
        · cases hp
          exact hx
        · exact ho p hp
  simpa using hmem p h

theorem firstOut_none {ps : List Pic} (h : firstOut ps = none) : ps.filter (!·.hidden) = [] := by
  unfold firstOut at h
  cases hshown : ps.filter (!·.hidden) with
  | nil => rfl
  | cons x xs =>
    rw [hshown, List.foldl_cons] at h
    refine absurd h (List.foldlRecOn (motive := (· ≠ none)) xs _ (Option.some_ne_none x) fun o ho y _ => ?_)
    cases o with
    | none => exact Option.some_ne_none y
    | some q =>
      dsimp only
      split
      · exact Option.some_ne_none y
      · exact ho

/-- One emission: a shown picture leaves where there is one, and a hidden one stays. -/
theorem emitOne_effect (bs : List Byte) (k : DevSlot) :
    (emitOne bs k).wait.filter (·.hidden) = k.wait.filter (·.hidden) ∧ (shownOf (emitOne bs k)).length = (shownOf k).length - 1
      ∧ (emitOne bs k).out.length + (shownOf (emitOne bs k)).length = k.out.length + (shownOf k).length := by
  unfold emitOne shownOf
  cases hout : firstOut k.wait with
  | none => simp [firstOut_none hout]
  | some p =>
    obtain ⟨hmem, hshown⟩ := firstOut_mem hout
    have hin : p ∈ k.wait.filter (!·.hidden) := List.mem_filter.2 ⟨hmem, by simp [hshown]⟩
    have hpos := List.length_pos_of_mem hin
    have hhidden : p ∉ k.wait.filter (·.hidden) := fun h => by simp [hshown] at h
    dsimp only
    rw [← List.erase_filter, ← List.erase_filter, List.erase_of_not_mem hhidden, List.length_erase_of_mem hin, List.length_append, List.length_singleton]
    exact ⟨rfl, rfl, by omega⟩

/-- As many emissions as there are shown pictures, or more, let all of them leave. -/
theorem emitAll_effect {α : Type} (l : List α) (h : (shownOf k).length ≤ l.length) :
    (l.foldl (fun k _ => emitOne bs k) k).wait = k.wait.filter (·.hidden)
      ∧ (l.foldl (fun k _ => emitOne bs k) k).out.length = k.out.length + (shownOf k).length := by
  induction l generalizing k with
  | nil =>
    have hnone : shownOf k = [] := List.eq_nil_of_length_eq_zero (Nat.le_zero.1 h)
    refine ⟨(List.filter_eq_self.2 fun p hp => ?_).symm, by simp [hnone]⟩
    simpa using List.filter_eq_nil_iff.1 hnone p hp
  | cons x l ih =>
    obtain ⟨hhidden, hshown, hout⟩ := emitOne_effect bs k
    rw [List.length_cons] at h
    obtain ⟨hwait, hlength⟩ := ih (k := emitOne bs k) (by omega)
    exact ⟨hwait.trans hhidden, hlength.trans hout⟩
end

section
variable {s : State} {n : Nat}

theorem emitPics_all (s : State) (n : Nat) (bs : List Byte) :
    (devSlot (emitPics s n (devSlot s n).wait.length bs) n).wait = (devSlot s n).wait.filter (·.hidden)
      ∧ (devSlot (emitPics s n (devSlot s n).wait.length bs) n).out.length
        = (devSlot s n).out.length + ((devSlot s n).wait.filter (!·.hidden)).length := by
  unfold emitPics
  rw [devSlot_updDev_self fun hblank => by rw [hblank]; rfl]
  exact emitAll_effect _ (by rw [List.length_range]; exact List.length_filter_le _ _)

theorem runs_devOutputFlush (hruns : islandRuns s 27 = true) : Runs (.devOutputFlush n) s fun t =>
    (devSlot t n).wait = (devSlot s n).wait.filter (·.hidden)
      ∧ (devSlot t n).out.length = (devSlot s n).out.length + ((devSlot s n).wait.filter (!·.hidden)).length ∧ SameBytes s t := by
  have hawake : devSlot (wake s 27) n = devSlot s n := devSlot_congr (Reaches.refl s).wake.dev n
  have hemitted := emitPics_all (wake s 27) n (devSlot s n).last
  rw [hawake] at hemitted
  obtain ⟨hwait, hout⟩ := hemitted
  refine ⟨emitPics (wake s 27) n (devSlot s n).wait.length (devSlot s n).last, ?_, hwait, hout, fun a => ?_⟩
  · show Host.Outcome.next (devOutputFlush n s) = _
    unfold devOutputFlush
    rw [if_neg (by simp [hruns])]
  · exact congrArg (SMap.getD · a 0) (RegisterPages.wake_mem s 27)

/-- The oldest emitted picture leaves, whether its record is taken or the picture is dropped. -/
theorem out_devPictureOutput {p : Pic} {ps : List Pic} (hruns : islandRuns s 27 = true) (hout : (devSlot s n).out = p :: ps) :
    (devSlot (devPictureOutput n s) n).out = ps := by
  have hslot : devSlot (wake s 27) n = devSlot s n := devSlot_congr (Reaches.refl s).wake.dev n
  have htaken : (devSlot (updDev (wake s 27) n fun k => { k with out := ps }) n).out = ps := by
    rw [devSlot_updDev_self fun hblank => absurd hout (by rw [← hslot, hblank]; exact (List.cons_ne_nil p ps).symm)]
  unfold devPictureOutput
  rw [if_neg (by simp [hruns]), hout]
  dsimp only
  have hpushed {q : Nat} {rec : List Byte} := (Reaches.refl (updDev (wake s 27) n fun k => { k with out := ps })).pushFrom (v := devVia) (q := q) (e := rec)
  split
  · rw [devSlot_congr (hpushed.bump).dev, htaken]
  · rw [devSlot_congr (hpushed.trans (Asks.refl _).freePic.devLose.reaches).dev, htaken]
end

/-! The end of a resynchronisation (R335). -/

section
variable {s : State} {n : Nat}

/-- The state after every picture that a slot holds has been given back. -/
def picturesFreed (s : State) (n : Nat) : State := ((devSlot s n).refs ++ (devSlot s n).wait).foldl (fun s p => freePic s n p) (wake s 27)

theorem asks_picturesFreed (s : State) (n : Nat) : Asks s (picturesFreed s n) :=
  List.foldlRecOn _ _ ⟨(Reaches.refl s).wake, congrArg Mortar.io (RegisterPages.wake_mortar s 27)⟩ fun _ k _ _ => k.freePic

/-- The state in which a slot starts anew. -/
def resynced (s : State) (n : Nat) : State :=
  wb (updDev (picturesFreed s n) n fun k => { k with st := 0, refs := [], wait := [] }) (R.DEV_SLOT_CTRL 0 n) 0 false

theorem devResyncDone_eq (hruns : islandRuns s 27 = true) (hst : (devSlot s n).st = 3) (hbusy : devBusy s n = false) :
    devResyncDone n s = raise (resynced s n) (P.dev 0) 10 := by
  unfold devResyncDone
  rw [if_neg (by simp [hruns])]
  dsimp only
  rw [if_neg (by simp [hst, hbusy])]
  rfl

theorem devSlot_resynced (s : State) (n : Nat) :
    (devSlot (resynced s n) n).st = 0 ∧ (devSlot (resynced s n) n).refs = [] ∧ (devSlot (resynced s n) n).wait = [] := by
  have hslot : devSlot (resynced s n) n = { devSlot (picturesFreed s n) n with st := 0, refs := [], wait := [] } :=
    (devSlot_congr (wb_dev ..) n).trans (devSlot_updDev_self fun _ => rfl)
  rw [hslot]
  exact ⟨rfl, rfl, rfl⟩

theorem runs_devResyncDone (hruns : islandRuns s 27 = true) (hst : (devSlot s n).st = 3) (hbusy : devBusy s n = false) :
    Runs (.devResyncDone n) s fun t => (devSlot t n).st = 0 ∧ (devSlot t n).refs = [] ∧ (devSlot t n).wait = [] ∧ Raised t (P.dev 0) 10 := by
  have hraised : OnPage (P.dev 0) (resynced (withHost s []) n) (raise (resynced (withHost s []) n) (P.dev 0) 10) := onPage_raise 10
  have hslot : devSlot (given s (raise (resynced (withHost s []) n) (P.dev 0) 10)) n = devSlot (resynced (withHost s []) n) n :=
    devSlot_congr (dev_of_onPage hraised) n
  have hio : (raise (resynced (withHost s []) n) (P.dev 0) 10).mortar.io = { host := [] } :=
    (congrArg Mortar.io (mortar_of_onPage hraised)).trans (asks_picturesFreed (withHost s []) n).io
  refine runs_of_serves rfl (devResyncDone_eq (s := withHost s []) hruns hst hbusy) (Mesh.unheld_of_io hio) ?_
  obtain ⟨hst, hrefs, hwait⟩ := devSlot_resynced (withHost s []) n
  rw [hslot]
  exact ⟨hst, hrefs, hwait, rb_raise _ _ (by decide)⟩
end

/-! DEV_ENGINE_SELECT, where the pop has to wait for nothing. -/

section
variable {s t : State} {e c p n : Nat} {hdr : Option SeqHdr} {rap : Bool} {refs : List Bool} {meet : HodMeet} {host : List Cpl} {d : Decl}
  {r : State × Nat × Got}

/-- A frame that is lost leaves its engine as it was. -/
theorem runs_lost (k : Selects (withHost s host) e c p n meet d r) (hu : Unheld r.1) (hwork : devEngineSelect e hdr rap refs meet (withHost s host) = t)
    (hasks : Asks r.1 t) (hraised : Raised t (P.dev e) 9) :
    Runs (.devEngineSelect e hdr rap refs meet host) s fun t => nth t.dev.eng e none = none ∧ Raised t (P.dev e) 9 := by
  have hidle : nth t.dev.eng e none = none := by
    rw [hasks.dev, k.eng]
    exact (idle_of_devIdle k.idle).2
  exact runs_of_serves rfl hwork (hasks.unheld hu) ⟨hidle, hraised⟩

/-- A frame of a slot that decodes starts once its planes are granted. -/
theorem runs_started (k : Selects (withHost s host) e c p n meet d r) (hu : Unheld r.1) (hengines : s.dev.eng.length = 6) (hok : r.2.1 = HS.ok)
    (hlive : handleLive r.1 (field r.2.2.data 0 4) = true) (hformat : field r.2.2.data 50 1 = d.format) (hst : (devSlot r.1 n).st ≠ 0)
    {z : Nat × Nat × Nat} (hz : planeSizes (devSlot r.1 n).width (devSlot r.1 n).height (devSlot r.1 n).depth10 = z)
    (hgranted : (allocPics refs (updDev r.1 n fun k => { k with last := r.2.2.data }) n z.2.1 z.2.2).2.1 = QS.ok) :
    Runs (.devEngineSelect e none rap refs meet host) s fun t => ∃ w, nth t.dev.eng e none = some w ∧ w.slot = n ∧ w.record = r.2.2.data
      ∧ w.pics.length = refs.length ∧ w.rap = rap := by
  have hslot : devSlot (updDev r.1 n fun k => { k with last := r.2.2.data }) n = { devSlot r.1 n with last := r.2.2.data } :=
    devSlot_updDev_self fun hblank => absurd hblank (ne_blank_of_st hst)
  have hengine : e < r.1.dev.eng.length := by
    rw [k.eng]
    exact (idle_of_devIdle k.idle).1.trans_eq hengines.symm
  obtain ⟨hunheld, hstarted⟩ := devStart_granted (h := field r.2.2.data 0 4) (bs := r.2.2.data) (rap := rap)
    (s := updDev r.1 n fun k => { k with last := r.2.2.data }) (by rw [hslot]; exact hz) hgranted hengine hu
  exact runs_of_serves rfl (devEngineSelect_plain k hok hlive hformat hst) hunheld hstarted
end

/-- Settles O47, command by command: what an engine makes of the record that it takes, the end of a decode, the output of a picture, a flush, and the end of a
resynchronisation. -/
theorem videoDecoding : Obligations.VideoDecoding := by
  unfold Obligations.VideoDecoding
  intro s e n hruns
  refine ⟨fun c p hdr rap refs meet host hidle hchoose => ?_, fun w out us stall hwork => ?_, fun p ps hout => ?_, runs_devOutputFlush hruns,
    runs_devResyncDone hruns⟩
  · intro d w r h hu
    have hselects : Selects (withHost s host) e c p n meet d r := ⟨hidle, hchoose, rfl, rfl⟩
    clear_value r
    refine ⟨fun hok hpoison => ?_, fun hlost => ?_, fun q hok hlive hformat hhdr hpoint hbad => ?_, ?_⟩
    · exact gives_of_serves rfl (devEngineSelect_failed hselects hok hpoison) hu
    · rcases hlost with hpoison | ⟨hok, hdead⟩
      · exact runs_lost hselects hu (devEngineSelect_poisoned hselects hpoison) (Asks.refl r.1).devLose raised_devLose
      · exact runs_lost hselects hu (devEngineSelect_dead hselects hok hdead) (Asks.refl r.1).devDrop raised_devLose
    · subst hhdr
      obtain ⟨cause, info, hwork⟩ := devEngineSelect_refused (refs := refs) hselects hok hlive hformat hpoint hbad
      exact runs_of_serves rfl hwork (unheld_devWaitRap ((Asks.refl _).devDrop.unheld hu))
        ⟨st_devWaitRap, raised_devWaitRap_devDrop, raised_devWaitRap⟩
    · intro bs k z hlength hok hlive hformat hst hhdr hgranted
      subst hhdr
      exact runs_started hselects hu hlength hok hlive hformat hst rfl hgranted
  · exact Subchannels.completes_of_serves rfl (idle_devDecodeDone (s := withHost s []) hruns hwork)
  · exact Subchannels.completes_of_serves rfl (out_devPictureOutput (s := withHost s []) hruns hout)

end Sys2Proof.Decoder
end

section
/-! A region whose lanes are refused: its event, which the end of its frame keeps where the frame is of one of the 36 slots (11 R353, R355). -/
namespace Sys2Proof.Regions
open Sys2Proof Sys2Proof.Machine Sys2Proof.Laws Sys2Proof.Claims Sys2Proof.Streams Sys2Proof.Subchannels

/-! The end of a frame (R353). -/

section
variable {s t : State} {e : Nat} {f : EnlFrame}

/-- The frame that is placed on an engine is the one that it holds. -/
theorem eq_of_nth_setEng {x : Option EnlFrame} (h : nth (setEng s e x).enl.eng e none = some f) : x = some f := by
  unfold setEng nth updAt at h
  rw [List.getElem?_modify_eq] at h
  cases heng : s.enl.eng[e]? with
  | none => rw [heng] at h; cases h
  | some _ => rw [heng] at h; exact h

theorem lasts_freeInput (h : Lasts s t) {n : Nat} {bs : List Byte} : Lasts s (freeInput t n bs) := .ite h.freeFrom.freeFrom h.freeFrom

/-- The count of frames of each of the 36 slots is no EVT_STATUS. -/
theorem slotCount_ne_status {n : Nat} (h : n < 36) : R.ENL_SLOT_COUNT 0 n % 0x1000 ≠ 0x20 := by
  unfold R.ENL_SLOT_COUNT
  omega

theorem lasts_frameEnd (h : Lasts s t) (hslot : ∀ f, nth t.enl.eng e none = some f → f.slot < 36) : Lasts s (frameEnd t e) := by
  unfold frameEnd
  split
  · next f hf =>
    have hcounted : Lasts s (bump (freeInput t f.slot f.record) (R.ENL_SLOT_COUNT 0 f.slot) 11 0 1) :=
      (lasts_freeInput h).bump (slotCount_ne_status (hslot f hf))
    exact .ite (hcounted.same (by rfl)) h
  · exact h
end

/-! ESL_LANE_REQUEST whose lanes are refused (R355). -/

/-- The region of entry `i`, refused for `why`, is skipped, counted and reported; the frame goes on with `rest`. -/
def regionRefused (s : State) (e : Nat) (f : EnlFrame) (i : Nat) (rest : List Nat) (why : Nat) : State :=
  raise (hwFault (bump (setEng s e (some { f with todo := rest })) (R.ENL_SLOT_COUNT 0 f.slot) 21 12 1) (P.enl e) 6
    (enlInfo f.slot i ((roiOf f.list i).group * 65536 + why * 2 ^ 24))) (P.enl e) 8

section
variable {s : State} {e i why : Nat} {f : EnlFrame} {rest : List Nat}

theorem raised_regionRefused : Raised (regionRefused s e f i rest why) (P.enl e) 8 := rb_raise _ _ (by decide)

theorem slot_regionRefused {k : EnlFrame} (h : nth (regionRefused s e f i rest why).enl.eng e none = some k) : k.slot = f.slot := by
  have hreaches : Reaches (setEng s e (some { f with todo := rest })) (regionRefused s e f i rest why) := (Reaches.refl _).bump.hwFault.raise
  have henl : (regionRefused s e f i rest why).enl = (setEng s e (some { f with todo := rest })).enl := (congrArg State.enl hreaches.rest :)
  rw [henl] at h
  cases eq_of_nth_setEng h
  rfl

/-- The conditions under which an engine asks for the lanes of its next region, and the refusal that it meets. -/
structure Refused (s : State) (e : Nat) (f : EnlFrame) (i : Nat) (rest : List Nat) (why : Nat) : Prop where
  runs : islandRuns s 28 = true
  frame : nth s.enl.eng e none = some f
  between : f.roi = none
  next : f.todo = i :: rest
  accepts : accepts s P.esl = true
  free : groupHeld s (roiOf f.list i).group = false
  answer : (laneRequest (wake (wake s 28) 29) (roiOf f.list i).group f.slot).2 = .inl why

theorem Refused.exec (k : Refused s e f i rest why) :
    exec (.eslLaneRequest e) s
      = .next (frameEnd (regionRefused (laneRequest (wake (wake s 28) 29) (roiOf f.list i).group f.slot).1 e f i rest why) e) := by
  show execEslLaneRequest e s = _
  unfold execEslLaneRequest
  rw [if_neg (by simp [k.runs]), k.frame]
  dsimp only
  rw [k.between, k.next]
  dsimp only
  rw [if_neg (by simp [k.accepts, k.free]), k.answer, regionRefused, k.between]

/-- What O48 states of a refusal, for the frames of the device's slots. -/
theorem Refused.raised (k : Refused s e f i rest why) (hslot : f.slot < 36) : Runs (.eslLaneRequest e) s fun t => Raised t (P.enl e) 8 :=
  have hlasts := lasts_frameEnd (e := e) (Lasts.refl (regionRefused (laneRequest (wake (wake s 28) 29) (roiOf f.list i).group f.slot).1 e f i rest why))
    fun _ hf => (slot_regionRefused hf).trans_lt hslot
  ⟨_, k.exec, hlasts.raised (by decide) raised_regionRefused⟩
end

/-! A frame of a slot that the device does not have. -/

/-- A frame of slot 584, with one region left. -/
def strayFrame : EnlFrame := { slot := 584, record := List.replicate 64 0, list := List.replicate 96 0, sel := 0, todo := [0] }

/-- Engine 1 holds the frame, no pool of Quarry is enabled, and the lower 8 events of the engine's page are set. -/
def strayState : State :=
  let s := { State.reset with isl := List.replicate 39 { st := .on }, enl := { eng := [none, some strayFrame, none, none] } }
  setReg (setReg s (hdr P.esl 0x10) 1) (hdr (P.enl 1) 0x20) 0xFF

theorem stray_refused : Refused strayState 1 strayFrame 0 [] 2 :=
  ⟨by decide +kernel, rfl, rfl, rfl, by decide +kernel, by decide +kernel, by decide +kernel⟩

/-- The frames of slot 584 would be counted in EVT_STATUS of engine 1. -/
theorem slotCount_stray : R.ENL_SLOT_COUNT 0 strayFrame.slot = hdr (P.enl 1) 0x20 := rfl

/-- The region that is refused is the last of its frame, whose count takes bits 11 to 0 of EVT_STATUS from 0x1FF to 0x200: bit 8 falls. -/
theorem not_raised_stray :
    ¬ Raised (frameEnd (regionRefused (laneRequest (wake (wake strayState 28) 29) (roiOf strayFrame.list 0).group strayFrame.slot).1
      1 strayFrame 0 [] 2) 1) (P.enl 1) 8 := by
  unfold Raised
  decide +kernel

/-- Refutes O48: the statement speaks of every state, also of one whose engine holds a frame of slot 584, where the device has 36; the frame's end clears
the event of its refused region. For the frames of the device's slots that clause holds (`Refused.raised`). -/
theorem not_regionsAndBatches : ¬ Obligations.RegionsAndBatches := by
  unfold Obligations.RegionsAndBatches
  intro h
  have k := stray_refused
  obtain ⟨-, -, hlanes, -⟩ := h strayState 1 0 (by decide) k.runs (by decide +kernel)
  obtain ⟨t, hexec, hraised⟩ := (hlanes strayFrame 0 [] k.frame k.between k.next k.accepts k.free).2 2 k.answer
  cases k.exec.symm.trans hexec
  exact not_raised_stray hraised

end Sys2Proof.Regions
end

section
/-! The next bundle of a core, where nothing but its own slots decides what becomes of it (12 R371, 13 R393, R396, R397, R399, R407, R408). -/
namespace Sys2Proof.Bundles
open Sys2Proof Sys2Proof.Machine Sys2Proof.Laws Sys2Proof.Claims

/-! What `Ready` and a reserved bundle have in common. -/

/-- Bank `u` runs on core `n` and fetches `b` as its next bundle: it has work left, the bundle holds something, lies in the core's SRAM, is no preemption
point that is still to be decoded, and no bit that it may read has flipped. -/
structure Fetched (s : State) (n : Nat) (u : Bool) (b : Nat) : Prop where
  atWork : bankAtWork s n = some u
  bundle : nextBundle s n u = b
  performs : isNop b = false
  notEnded : (bankNow s n u).ended = none
  notAtEnd : (bankNow s n u).atEnd = false
  decoded : awaitsPoint s n u = false
  inside : inOwn n (bankNow s n u).pc 128 = true
  notHeld : ((coreOf s n).stalled && !u && ppMark b) = false
  operand : (slotRuns b (bankNow s n u) 4 && decide (aSel (slotA b) = 1)) = false
  noFlips : (coreOf s n).flips = []
  noSramErr : s.eccErr = []
  noDramErr : s.dram.eccFlips = []
  sound : fetchBad s n u = false

/-- The bundle that is fetched has nothing reserved, waits for nothing and takes no exception. -/
structure Free (s : State) (n : Nat) (u : Bool) (b : Nat) : Prop extends Fetched s n u b where
  legal : illegalSlot b (bankNow s n u) = none
  noWait : waitFor n (coreOf s n) u b (cmdNow s n u b) 7 = none
  noExc : bundleExc s n (coreOf s n) u b (cmdNow s n u b) = none

section
variable {s : State} {n b : Nat} {u : Bool} {kind : SlotKind} {ops : List Nat} {cycles : Nat} {meet : HodMeet}

theorem free_of_ready (h : Ready s n u b = true) : Free s n u b := by
  simp only [Ready, Bool.and_eq_true, decide_eq_true_eq, Bool.not_eq_true', Option.isNone_iff_eq_none, List.isEmpty_iff] at h
  obtain ⟨⟨⟨⟨⟨⟨⟨⟨⟨⟨⟨⟨⟨⟨⟨⟨⟨⟨-, -⟩, atWork⟩, bundle⟩, performs⟩, notEnded⟩, notAtEnd⟩, decoded⟩, legal⟩, inside⟩, notHeld⟩, operand⟩, noWait⟩, noFlips⟩,
    noExc⟩, noSramErr⟩, noDramErr⟩, sound⟩, -⟩ := h
  exact { atWork, bundle, performs, notEnded, notAtEnd, decoded, inside, notHeld, operand, noFlips, noSramErr, noDramErr, sound, legal, noExc
          noWait := Option.map_eq_none_iff.mp noWait }

theorem running_of_atWork (h : bankAtWork s n = some u) : runningBank (coreOf s n) = some u := by
  unfold bankAtWork at h
  split at h
  · exact h
  · cases h

/-- A state in which a command's requests are presented has the same next bundle. -/
theorem Fetched.withHost (h : Fetched s n u b) (host : List Cpl) : Fetched (withHost s host) n u b :=
  ⟨h.atWork, h.bundle, h.performs, h.notEnded, h.notAtEnd, h.decoded, h.inside, h.notHeld, h.operand, h.noFlips, h.noSramErr, h.noDramErr, h.sound⟩

theorem Free.withHost (h : Free s n u b) (host : List Cpl) : Free (withHost s host) n u b := ⟨h.toFetched.withHost host, h.legal, h.noWait, h.noExc⟩

/-! The stages of an issue. -/

theorem meetFlips_none (h : (coreOf s n).flips = []) (hit : Nat → Nat → Bool) : meetFlips s n hit = s := by
  unfold meetFlips
  rw [h]
  rfl

theorem Fetched.skipNops (h : Fetched s n u b) (fuel : Nat) : skipNops (fuel + 1) s n u = s := by
  have hfetch : fetchNext s n u = s := fetchNext_clean h.noSramErr h.noDramErr n u
  rw [skipNops_stop h.inside (by rw [hfetch, h.bundle]; exact h.performs), hfetch]

theorem Fetched.readyCmd (h : Fetched s n u b) : readyCmd s n u = (s, cmdNow s n u b) := by
  have hoperand := h.operand
  unfold Machine.readyCmd
  rw [h.bundle]
  dsimp only
  rw [if_neg (by simpa using hoperand)]

theorem Fetched.meetReads (h : Fetched s n u b) (c : ArrayCmd) (upto : Nat) : meetReads s n u b c upto = s := by
  unfold Machine.meetReads
  dsimp only
  rw [meetFlips_none h.noFlips, checkRange_clean h.noSramErr h.noDramErr, ite_self]

/-- A row whose instruction the bundle holds, or any row where the bundle holds something reserved, tries to issue it. -/
theorem Fetched.issueBundle (h : Fetched s n u b) (hrow : (holdsRow b kind ops || (illegalSlot b (bankNow s n u)).isSome) = true) :
    issueBundle n kind ops cycles meet s = tryIssue s n u cycles meet := by
  have hskip := h.skipNops 131071
  unfold Machine.issueBundle
  simp only [h.atWork, hskip, h.bundle, h.notEnded, h.notAtEnd, h.inside, h.decoded, h.sound, h.notHeld]
  simp [hrow, running_of_atWork h.atWork]

theorem Free.tryIssue (h : Free s n u b) : tryIssue s n u cycles meet = issueEffects s n u b cycles meet (cmdNow s n u b) := by
  unfold Machine.tryIssue
  simp only [h.bundle, h.legal, h.readyCmd, Option.getD_none, h.noWait, h.meetReads, h.noExc]

theorem Fetched.tryIssue_exc {j : Nat} {e : Exc} (h : Fetched s n u b) (hillegal : illegalSlot b (bankNow s n u) = some j)
    (hwait : waitFor n (coreOf s n) u b (cmdNow s n u b) j = none) (hexc : bundleExc s n (coreOf s n) u b (cmdNow s n u b) = some e) :
    tryIssue s n u cycles meet = takeException s n u e := by
  unfold Machine.tryIssue
  simp only [h.bundle, hillegal, h.readyCmd, Option.getD_some, hwait, h.meetReads, hexc]

/-- Requests are presented where the bundle takes an exception, and where it pushes or pops. -/
theorem Fetched.presents (h : Fetched s n u b)
    (hask : (bundleExc s n (coreOf s n) u b (cmdNow s n u b)).isSome = true
      ∨ slotRuns b (bankNow s n u) 1 = true ∧ (scOp false (slotC b) = 0x10 ∨ scOp false (slotC b) = 0x11)) : presents n s = true := by
  have hskip := h.skipNops 131071
  unfold Machine.presents
  simp only [h.atWork, hskip, h.bundle, h.readyCmd, h.meetReads, h.inside, h.sound]
  rcases hask with hexc | ⟨hruns, hop⟩
  · simp [hexc]
  · rcases hop with hop | hop <;> simp [hruns, hop]

/-! What a row answers. -/

theorem gives_of_issues {i : Instr} (hexec : exec i s = issueRow n kind ops 0 .alone [] s) (hrow : holdsRow b kind ops = true)
    (h : Issues s n u b = true) : Gives i s (issued s n u b) := by
  obtain ⟨hready, hpresents⟩ := (Bool.and_eq_true _ _).mp h
  have hfree := free_of_ready hready
  have hissued : issueBundle n kind ops 0 .alone s = issued s n u b := (hfree.issueBundle (by simp [hrow])).trans hfree.tryIssue
  rw [Gives, hexec, issueRow, if_neg (by simpa using hpresents), hissued]

theorem gives_of_presents {i : Instr} {host : List Cpl} {t : State} (hexec : exec i s = issueRow n kind ops cycles meet host s)
    (hpresents : presents n s = true) (hissue : issueBundle n kind ops cycles meet (withHost s host) = t) (hu : Unheld t) : Gives i s (given s t) := by
  rw [Gives, hexec, issueRow, if_pos hpresents]
  exact RegisterPages.served_next (congrArg _ hissue) hu

/-- HPUSH and HPOP present their request with the bundle's. -/
theorem gives_of_ready {i : Instr} {host : List Cpl} (hexec : exec i s = issueRow n kind ops cycles meet host s) (hrow : holdsRow b kind ops = true)
    (h : Ready s n u b = true) (hruns : slotRuns b (bankNow s n u) 1 = true) (hop : scOp false (slotC b) = 0x10 ∨ scOp false (slotC b) = 0x11)
    (hu : Unheld (issueEffects (withHost s host) n u b cycles meet (cmdNow s n u b))) :
    Gives i s (given s (issueEffects (withHost s host) n u b cycles meet (cmdNow s n u b))) := by
  have hfree := free_of_ready h
  have hhost := hfree.withHost host
  exact gives_of_presents hexec (hfree.presents (.inr ⟨hruns, hop⟩)) ((hhost.issueBundle (by simp [hrow])).trans hhost.tryIssue) hu
end

end Sys2Proof.Bundles
end

section
/-! The rows of the scalar and the control instructions (13 R396, R418, R423, R426, R430 to R432). -/
namespace Sys2Proof.Bundles
open Sys2Proof Sys2Proof.Machine Sys2Proof.Laws Sys2Proof.Claims

section
variable {n op b : Nat} {i : Instr} {ops : List Nat}

theorem holdsRow_scalar (hpush : scOp false (slotC b) ≠ 0x10) (hpop : scOp false (slotC b) ≠ 0x11) (h : scOp true (slotS b) ∈ ops) :
    holdsRow b .s ops = true := by
  simpa [holdsRow, hpush, hpop] using h

theorem holdsRow_control (h : scOp false (slotC b) ∈ ops) : holdsRow b .c ops = true := by
  simp [holdsRow, h]

/-- A row of the S slot of core `n` names the opcode. -/
def NamedBy (n op : Nat) (i : Instr) : Prop := ∃ ops, op ∈ ops ∧ ∀ s, exec i s = issueRow n .s ops 0 .alone [] s

theorem namedBy_ite {p : Prop} [Decidable p] {k : Instr} {rest : Option Instr} (hexec : ∀ s, exec i s = issueRow n .s ops 0 .alone [] s)
    (hop : p → op ∈ ops) (hrest : rest = some k → NamedBy n op k) : (if p then some i else rest) = some k → NamedBy n op k := by
  split
  · next h =>
    rintro ⟨⟩
    exact ⟨ops, hop h, hexec⟩
  · exact hrest

/-- Each of the 19 rows of scalar instructions names the opcodes that `scalarRow` gives it. -/
theorem namedBy_of_scalarRow : scalarRow n op = some i → NamedBy n op i := by
  unfold scalarRow
  iterate 19 refine namedBy_ite (fun _ => rfl) (by simp only [List.mem_cons, List.not_mem_nil, or_false]; omega) ?_
  exact nofun

/-- The row of a control opcode is a row of the C slot that names the opcode. -/
theorem exec_controlRow (h : controlRow n op = some i) : ∀ s, exec i s = issueRow n .c [op] 0 .alone [] s := by
  unfold controlRow at h
  split at h <;> cases h <;> exact fun _ => rfl
end

/-- Settles O7: each row names the opcodes of its instructions, and a bundle that is ready issues whole under the row of any of them. -/
theorem scalarRowsIssue : Obligations.ScalarRowsIssue := by
  unfold Obligations.ScalarRowsIssue
  intro s n u b i hissues hpush hpop _ hrow
  obtain ⟨ops, hop, hexec⟩ := namedBy_of_scalarRow hrow
  exact gives_of_issues (hexec s) (holdsRow_scalar hpush hpop hop) hissues

/-- Settles O13, row by row: those without operands, HPUSH, HPOP. -/
theorem controlRowsIssue : Obligations.ControlRowsIssue := by
  unfold Obligations.ControlRowsIssue
  intro s n u b
  refine ⟨fun hissues _ i hrow => ?_, fun cycles => ?_, fun meet host => ?_⟩
  · exact gives_of_issues (exec_controlRow hrow s) (holdsRow_control (List.mem_singleton.mpr rfl)) hissues
  · intro t hready hruns hop hu
    exact gives_of_ready (ops := [0x10]) rfl (holdsRow_control (by simp [hop])) hready hruns (.inl hop) hu
  · intro t hready hruns hop hu
    exact gives_of_ready (ops := [0x11]) rfl (holdsRow_control (by simp [hop])) hready hruns (.inr hop) hu

end Sys2Proof.Bundles
end

section
/-! The exceptions of a bundle's slots, and the bundle that holds something reserved (13 R397, R399, R408, R424, R434, R467, R468). -/
namespace Sys2Proof.Bundles
open Sys2Proof Sys2Proof.Machine Sys2Proof.Laws Sys2Proof.Claims

/-- An exception, where there is one, is of slot `i`. -/
def OfSlot (i : Nat) (x : Option Exc) : Prop := ∀ e, x = some e → e.slot = i

section
variable {s : State} {n b i : Nat} {u : Bool} {k : Core} {bk : Bank} {c : ArrayCmd}

theorem OfSlot.none : OfSlot i none := nofun

theorem OfSlot.some {e : Exc} (h : e.slot = i) : OfSlot i (some e) := by
  rintro _ ⟨⟩
  exact h

theorem OfSlot.ite {p : Prop} [Decidable p] {x y : Option Exc} (hx : OfSlot i x) (hy : OfSlot i y) : OfSlot i (if p then x else y) := by
  split <;> assumption

theorem ofSlot_regExc : OfSlot i (regExc bk b i) := by
  intro e he
  obtain ⟨r, -, hr⟩ := List.exists_of_findSome?_eq_some he
  split at hr
  · cases hr
    rfl
  · obtain ⟨f, -, rfl⟩ := Option.map_eq_some_iff.mp hr
    rfl

theorem ofSlot_scalarExc : OfSlot 0 (scalarExc s n bk b) :=
  .ite .none (.ite (.some rfl) (.ite (.some rfl) (.ite (.some rfl) .none)))

/-- A mover instruction that failed is an exception of the slot that waits for it. -/
theorem ofSlot_failed {x : Option (Nat × Nat)} :
    OfSlot i (match x with | some f => some { cause := EX.reqFailed, slot := i, st := f.1, addr := some f.2 } | none => none) := by
  cases x with
  | none => exact .none
  | some f => exact .some rfl

theorem ofSlot_controlExc : OfSlot 1 (controlExc s n k u b) := by
  unfold controlExc
  dsimp only
  split
  · exact .ite (.some rfl) (.ite (.some rfl) .none)
  · exact .ite (.some rfl) (.ite (.some rfl) .none)
  · exact .ite (.some rfl) (.ite (.some rfl) .none)
  · exact ofSlot_failed
  · exact ofSlot_failed
  · exact .ite (.some rfl) (.ite (.some rfl) .none)
  · exact .ite (.some rfl) (.ite (.some rfl) .none)
  · exact .ite (.some rfl) (.ite (.some rfl) .none)
  · exact .none

theorem ofSlot_vectorExc : OfSlot i (vectorExc s n bk b i) :=
  .ite (.ite (.some rfl) (.ite (.some rfl) (.ite (.some rfl) (.ite (.some rfl) .none)))) (.ite (.some rfl) .none)

theorem ofSlot_arrayExc : OfSlot 4 (arrayExc s n k bk b c) := by
  unfold arrayExc
  dsimp only
  split
  · exact .some rfl
  · refine .ite (.ite (.some rfl) (.ite (.some rfl) .none)) (.ite ?_ (.ite (.some rfl) .none))
    iterate 10 refine .ite (.some rfl) ?_
    exact .none

theorem ofSlot_moverExc {m : MoverOp} {piece : Nat} : OfSlot i (moverExc s n m piece i) := by
  unfold moverExc
  iterate 6 refine .ite (.some rfl) ?_
  exact .none
end

/-- The exception of slot `i` of a bundle, where the slot's predicate holds: of a register that it reads, else of its instruction (R397). -/
def slotExc (s : State) (n : Nat) (k : Core) (u : Bool) (b : Nat) (c : ArrayCmd) (i : Nat) : Option Exc :=
  let bk := bankOf' k u
  if !slotRuns b bk i then none
  else match regExc bk b i with
    | some e => some e
    | none => match i with
      | 0 => scalarExc s n bk b
      | 1 => controlExc s n k u b
      | 4 => arrayExc s n k bk b c
      | 5 | 6 => let w := slotM b (i - 5); moverExc s n (moverOp w bk u 0) (mPiece w) i
      | _ => vectorExc s n bk b i

section
variable {s : State} {n b j : Nat} {u : Bool} {k : Core} {c : ArrayCmd}

theorem ofSlot_slotExc (i : Nat) : OfSlot i (slotExc s n k u b c i) := by
  unfold slotExc
  refine .ite .none ?_
  split
  · next e he => exact fun _ h => ofSlot_regExc _ (he.trans h)
  · split
    · exact ofSlot_scalarExc
    · exact ofSlot_controlExc
    · exact ofSlot_arrayExc
    · exact ofSlot_moverExc
    · exact ofSlot_moverExc
    · exact ofSlot_vectorExc

/-- A bundle that slot `j` makes ILLEGAL takes the exception of its first slot before `j` that has one, else ILLEGAL. -/
theorem bundleExc_illegal (h : illegalSlot b (bankOf' k u) = some j) :
    bundleExc s n k u b c = some (((List.range j).findSome? (slotExc s n k u b c)).getD { cause := EX.illegal, slot := j }) := by
  unfold bundleExc
  dsimp only
  rw [h]
  split
  · next e he => rw [show (List.range j).findSome? (slotExc s n k u b c) = some e from he, Option.getD_some]
  · next he hj =>
    cases hj
    rw [show (List.range j).findSome? (slotExc s n k u b c) = none from he, Option.getD_none]
  · next hj => cases hj

theorem bundleExc_reserved (h : illegalSlot b (bankOf' k u) = some j) :
    ∃ e, bundleExc s n k u b c = some e ∧ (e = { cause := EX.illegal, slot := j } ∨ e.slot < j) := by
  refine ⟨_, bundleExc_illegal h, ?_⟩
  cases hfirst : (List.range j).findSome? (slotExc s n k u b c) with
  | none => exact .inl rfl
  | some e =>
    obtain ⟨i, hi, he⟩ := List.exists_of_findSome?_eq_some hfirst
    exact .inr ((ofSlot_slotExc i e he).trans_lt (List.mem_range.mp hi))

/-- A bundle that holds something reserved is not passed over. -/
theorem performs_of_illegal {bk : Bank} (h : illegalSlot b bk = some j) : isNop b = false := by
  by_contra hnop
  simp only [isNop, Bool.not_eq_false, Bool.and_eq_true, decide_eq_true_eq] at hnop
  obtain ⟨⟨⟨⟨⟨⟨⟨-, hcontrol⟩, -⟩, -⟩, -⟩, -⟩, -⟩, hok⟩ := hnop
  have hbad : badSlot b ≠ 0 := by
    simp only [bundleOk, Bool.and_eq_true] at hok
    obtain ⟨⟨⟨⟨⟨⟨⟨⟨hscalar, -⟩, -⟩, -⟩, -⟩, -⟩, -⟩, -⟩, -⟩ := hok
    unfold badSlot
    rw [if_neg (by simp [hscalar])]
    split_ifs <;> decide
  have hclash : loopClash b bk = false := by simp [loopClash, hcontrol]
  simp [illegalSlot, hbad, hclash, hok] at h
end

/-- Settles O21: the exception is the first of the slots before the reserved one, else ILLEGAL; the row takes it, whatever it names. -/
theorem reservedBundleTakesIllegal : Obligations.ReservedBundleTakesIllegal := by
  unfold Obligations.ReservedBundleTakesIllegal
  intro s n u b j i k bk _ atWork bundle hillegal inside notEnded notAtEnd decoded notHeld operand hwait noFlips noSramErr noDramErr sound _ hi
  have hfetched : Fetched s n u b :=
    { atWork, bundle, notEnded, notAtEnd, decoded, inside, noFlips, noSramErr, noDramErr, sound
      performs := performs_of_illegal hillegal
      notHeld := by simpa using notHeld
      operand := by simpa using operand }
  obtain ⟨kind, ops, hexec⟩ : ∃ kind ops, exec i s = issueRow n kind ops 0 .alone [] s := by
    rcases hi with rfl | rfl | rfl | rfl | rfl <;> exact ⟨_, _, rfl⟩
  obtain ⟨e, hexc, hslot⟩ := bundleExc_reserved (s := s) (n := n) (c := cmdNow s n u b) hillegal
  refine ⟨e, hexc, hslot, fun hu => ?_⟩
  have hhost := hfetched.withHost []
  have hreserved : (illegalSlot b (bankNow s n u)).isSome = true := Option.isSome_iff_exists.mpr ⟨j, hillegal⟩
  exact gives_of_presents hexec (hfetched.presents (.inl (Option.isSome_iff_exists.mpr ⟨e, hexc⟩)))
    ((hhost.issueBundle (Bool.or_eq_true_iff.mpr (.inr hreserved))).trans (hhost.tryIssue_exc hillegal hwait hexc)) hu

end Sys2Proof.Bundles
end

section
/-! The cores, one bank of a core, and what the operations on a core's stores leave (12 R370 to R375, R402, R403). -/
namespace Sys2Proof.Cores
open Sys2Proof Sys2Proof.Machine Sys2Proof.Laws Sys2Proof.Claims

section
variable {s t w : State} {n : Nat} {u : Bool} {k : Core}

theorem coreOf_updCore_self (h : n < s.cores.length) (f : Core → Core) : coreOf (updCore s n f) n = f (coreOf s n) := Islands.nth_updAt_self h f {}

@[simp] theorem bankOf'_updBank'_self (k : Core) (u : Bool) (f : Bank → Bank) : bankOf' (updBank' k u f) u = f (bankOf' k u) := by
  cases u <;> rfl

@[simp] theorem updBank'_cmds (k : Core) (u : Bool) (f : Bank → Bank) : (updBank' k u f).cmds = k.cmds := by
  cases u <;> rfl

theorem bankNow_updBank' (h : n < s.cores.length) (u : Bool) (f : Bank → Bank) :
    bankNow (updCore s n fun k => updBank' k u f) n u = f (bankNow s n u) := by
  rw [bankNow, coreOf_updCore_self h, bankOf'_updBank'_self]

theorem coreOf_congr (h : t.cores = s.cores) (n : Nat) : coreOf t n = coreOf s n := congrArg (fun l : List Core => nth l n {}) h

theorem cores_of_onPage {pg : Nat} (h : OnPage pg s t) : t.cores = s.cores := (congrArg State.cores h.rest :)

theorem cores_wake (s : State) (i : Nat) : (wake s i).cores = s.cores := (congrArg State.cores (Mesh.checks_wake s i).rest :)

theorem cores_injFire (s : State) (target : Nat) (p : Nat → Bool) : (injFire s target p).1.cores = s.cores :=
  cores_of_onPage (Subchannels.onPage_injFire s target p)

theorem bankAtWork_of_runs (hn : n < 8) (hruns : islandRuns s (19 + n) = true) : bankAtWork s n = runningBank (coreOf s n) := if_pos (by simp [hn, hruns])

/-! What every core keeps. -/

/-- On the way from `s` to `t` every core keeps its `g`. -/
def KeepsCores {α : Type} (g : Core → α) (s t : State) : Prop := t.cores.map g = s.cores.map g

section
variable {α : Type} {g : Core → α}

theorem KeepsCores.of_cores (h : t.cores = s.cores) : KeepsCores g s t := congrArg (List.map g) h

theorem KeepsCores.trans (h : KeepsCores g s t) (k : KeepsCores g t w) : KeepsCores g s w := Eq.trans k h

theorem KeepsCores.ite {c : Prop} [Decidable c] (ht : KeepsCores g s t) (hw : KeepsCores g s w) : KeepsCores g s (if c then t else w) := by
  split <;> assumption

theorem KeepsCores.foldl {β : Type} {f : State → β → State} (hf : ∀ t x, KeepsCores g s t → KeepsCores g s (f t x)) (l : List β) (h : KeepsCores g s t) :
    KeepsCores g s (l.foldl f t) := List.foldlRecOn l f h fun _ k _ _ => hf _ _ k

theorem KeepsCores.updCore (h : KeepsCores g s t) {f : Core → Core} (hf : ∀ k, g (f k) = g k) : KeepsCores g s (updCore t n f) :=
  h.trans (Endpoint.map_updAt_of_eq hf _ n)

theorem KeepsCores.coreOf (h : KeepsCores g s t) (n : Nat) : g (coreOf t n) = g (coreOf s n) := by
  rw [Machine.coreOf, Machine.coreOf, ← Subchannels.nth_map g, ← Subchannels.nth_map g, show t.cores.map g = s.cores.map g from h]

theorem KeepsCores.length (h : KeepsCores g s t) : t.cores.length = s.cores.length := by
  simpa using congrArg List.length h

/-- An injection into a store of a core changes the flipped bits of that core alone. -/
theorem KeepsCores.flipStore (h : KeepsCores g s t) (hg : ∀ k x, g { k with flips := x } = g k) {store i : Nat} : KeepsCores g s (flipStore t n store i) := by
  have hfired (target : Nat) (p : Nat → Bool) : KeepsCores g s (injFire t target p).1 := h.trans (.of_cores (cores_injFire t target p))
  exact .ite ((hfired _ _).updCore fun k => hg k _) (.ite ((hfired _ _).updCore fun k => hg k _) h)
end

/-! The stores of a core (R402). -/

/-- From `s` to `t` a store of a core is read or written: nothing changes but the cores, registers and messages, and each core keeps its array commands. -/
structure OnCores (s t : State) : Prop where
  rest : t = { s with
    regs := t.regs, fypSignals := t.fypSignals, toFlt := t.toFlt, toCsh := t.toCsh, cores := t.cores,
    pci := { s.pci with sent := t.pci.sent, funcs := t.pci.funcs, l1 := t.pci.l1, writes := t.pci.writes } }
  cmds : KeepsCores Core.cmds s t

theorem OnCores.refl (s : State) : OnCores s s := ⟨rfl, rfl⟩

theorem OnCores.trans (h : OnCores s t) (k : OnCores t w) : OnCores s w := by
  refine ⟨?_, h.cmds.trans k.cmds⟩
  have hr := h.rest
  have kr := k.rest
  rw [hr] at kr
  exact kr

theorem OnCores.ite {c : Prop} [Decidable c] (ht : OnCores s t) (hw : OnCores s w) : OnCores s (if c then t else w) := by
  split <;> assumption

theorem OnCores.foldl {α : Type} {f : State → α → State} (hf : ∀ t x, OnCores s t → OnCores s (f t x)) (l : List α) (h : OnCores s t) :
    OnCores s (l.foldl f t) := List.foldlRecOn l f h fun _ k _ _ => hf _ _ k

theorem OnCores.onPage {pg : Nat} (h : OnCores s t) (k : OnPage pg t w) : OnCores s w := h.trans ⟨by rw [k.rest], .of_cores (cores_of_onPage k)⟩

theorem OnCores.bump (h : OnCores s t) {off hi lo x : Nat} : OnCores s (bump t off hi lo x) := h.trans ⟨rfl, rfl⟩

theorem OnCores.wb (h : OnCores s t) {off i : Nat} {b : Bool} : OnCores s (wb t off i b) := h.trans ⟨rfl, rfl⟩

theorem OnCores.updCore (h : OnCores s t) {f : Core → Core} (hf : ∀ k, (f k).cmds = k.cmds) : OnCores s (updCore t n f) :=
  ⟨h.trans (w := Machine.updCore t n f) ⟨rfl, (KeepsCores.of_cores rfl).updCore hf⟩ |>.rest, h.cmds.updCore hf⟩

theorem OnCores.mortar (h : OnCores s t) : t.mortar = s.mortar := (congrArg State.mortar h.rest :)

theorem OnCores.flipStore (h : OnCores s t) {store i : Nat} : OnCores s (flipStore t n store i) := by
  have hfired (target : Nat) (p : Nat → Bool) : OnCores s (injFire t target p).1 := h.onPage (Subchannels.onPage_injFire t target p)
  exact .ite ((hfired _ _).updCore fun _ => rfl) (.ite ((hfired _ _).updCore fun _ => rfl) h)

theorem OnCores.meetFlips (h : OnCores s t) {hit : Nat → Nat → Bool} : OnCores s (meetFlips t n hit) := by
  refine .foldl (fun v f k => ?_) _ h
  have herased : OnCores s (Machine.updCore v n fun c => { c with flips := c.flips.erase f }) := k.updCore fun _ => rfl
  refine .ite herased.bump (.onPage (.onPage (OnCores.bump (herased.updCore fun c => ?_)) (onPage_hwFault _ _)) (onPage_raise 11))
  split
  · rfl
  · rfl
  · rfl
  · exact updBank'_cmds _ _ _

theorem OnCores.overwrite (h : OnCores s t) {store i len : Nat} : OnCores s (overwrite t n store i len) := .ite h (h.meetFlips.updCore fun _ => rfl)

theorem OnCores.overwriteAcc (h : OnCores s t) {row m c0 cols : Nat} : OnCores s (overwriteAcc t n row m c0 cols) :=
  .ite h (.foldl (fun _ _ k => .foldl (fun _ _ k => k.overwrite) _ k) _ h)

theorem cmds_putBuffer (k : Core) (kind half arr o : Nat) (bs : List Byte) (bad : List (Nat × Nat)) : (putBuffer k kind half arr o bs bad).cmds = k.cmds := by
  unfold putBuffer
  split
  · rfl
  · exact List.foldlRecOn (motive := fun c : Core => c.cmds = k.cmds) _ _ rfl fun _ hc _ _ => hc

theorem OnCores.writeBuffer (h : OnCores s t) {kind half arr o : Nat} {bs : List Byte} {bad : List (Nat × Nat)} :
    OnCores s (writeBuffer t n kind half arr o bs bad) :=
  .ite h (.flipStore (.updCore (.foldl (fun _ _ k => k.overwrite) _ h) fun k => cmds_putBuffer k _ _ _ _ _ _))

/-- In a core without flipped bits, registers about to be written meet no more than an injection. -/
theorem touchRegs_unflipped {places : List Nat} (h : (coreOf s n).flips = []) :
    touchRegs s n places = s ∨ ∃ p, touchRegs s n places = flipStore s n 4 p := by
  have hoverwrite (p : Nat) : overwrite s n 4 p 1 = s := if_pos (.inr (by rw [h]; rfl))
  cases places with
  | nil => exact .inl rfl
  | cons p ps =>
    refine .inr ⟨p, ?_⟩
    unfold touchRegs
    dsimp only
    rw [List.foldlRecOn (motive := fun v => v = s) (p :: ps) _ rfl fun v hv q _ => by rw [hv, hoverwrite]]
end

end Sys2Proof.Cores
end

section
/-! The completion of an array command: whatever it does, the commands behind it stay (14 R449, R453 to R459, R462). -/
namespace Sys2Proof.Cores
open Sys2Proof Sys2Proof.Machine Sys2Proof.Laws Sys2Proof.Claims

section
variable {s t : State} {n : Nat} {c : ArrayCmd}

theorem cmds_runMma (k : Core) (c : ArrayCmd) : (runMma k c).1.cmds = k.cmds :=
  List.foldlRecOn (motive := fun d : Core => d.cmds = k.cmds) _ _ rfl fun _ hd _ _ => hd

theorem OnCores.pairMismatch (h : OnCores s t) {u : Bool} {k : Core} {p : Nat} : OnCores s (pairMismatch t n u k c p) := by
  unfold Machine.pairMismatch
  split
  · exact h
  · refine .onPage (.updCore ?_ fun k => updBank'_cmds k _ _) (onPage_raise 9)
    exact .ite (h.wb.bump.onPage (onPage_hwFault _ _)) h.wb.bump

theorem cores_localWrite (s : State) (a : Nat) (bs : List Byte) (bad : List (Nat × Nat)) : (localWrite s a bs bad).1.cores = s.cores :=
  (congrArg State.cores (Streams.Reaches.localWrite (.refl s)).rest :)

theorem cmds_runDrain (s : State) (n : Nat) (c : ArrayCmd) : KeepsCores Core.cmds s (runDrain s n c) := by
  unfold runDrain
  extract_lets j met k x struck paired rows compared written cleared
  have hmet : OnCores s met := (OnCores.refl s).meetFlips.onPage (Subchannels.onPage_injFire _ _ _)
  have hcompared : OnCores s compared := .ite (.foldl (fun _ _ k => k.pairMismatch) _ hmet) hmet
  have hwritten : KeepsCores Core.cmds s written := by
    refine .foldl (fun t w k => ?_) _ hcompared.cmds
    dsimp only
    split
    · exact k.trans (OnCores.refl t).writeBuffer.cmds
    · exact k.trans (.of_cores (cores_localWrite t _ _ _))
  have hcleared : KeepsCores Core.cmds s cleared := .ite (hwritten.trans (OnCores.refl written).overwriteAcc.flipStore.cmds) hwritten
  refine hcleared.updCore fun k => ?_
  rw [updBank'_cmds]
  split <;> rfl

/-- The state after the effect of the array command `c`, which has not left the array unit yet. -/
def effected (s : State) (n : Nat) (c : ArrayCmd) : State :=
  match c.op with
  | 1 =>
    let paired := rb s (R.ASH_MODE n) 5
    let s := meetFlips s n (mmaReads (coreOf s n) c)
    let s := overwriteAcc s n c.row c.m 0 c.n
    let s := updCore s n fun k =>
      let r := runMma k c
      updBank' r.1 c.urgent fun b => { b with accSat := satAdd 32 b.accSat (countSats paired r.2) }
    flipStore s n 3 (accKey 0 c.row 0)
  | 4 => runDrain s n c
  | _ => updCore (flipStore (overwriteAcc s n c.row c.m 0 512) n 3 (accKey 0 c.row 0)) n fun k => clearAcc k c.row c.m 0 512

theorem cmds_effected (s : State) (n : Nat) (c : ArrayCmd) : KeepsCores Core.cmds s (effected s n c) := by
  unfold effected
  split
  · exact OnCores.cmds (.flipStore (.updCore (OnCores.refl s).meetFlips.overwriteAcc fun k => (updBank'_cmds _ _ _).trans (cmds_runMma k c)))
  · exact cmds_runDrain s n c
  · exact OnCores.cmds (.updCore (OnCores.refl s).overwriteAcc.flipStore fun _ => rfl)

theorem exec_arrayCommandComplete {cs : List ArrayCmd} (hruns : islandRuns s (19 + n) = true) (hcmds : (coreOf s n).cmds = c :: cs)
    (hheld : arraysHeld s n = false) :
    exec (.arrayCommandComplete n) s = .next (updCore (effected s n c) n fun k => { k with cmds := k.cmds.tail }) := by
  show execArrayCommandComplete n s = _
  unfold execArrayCommandComplete
  rw [if_pos (by simp [hruns, hheld]), hcmds]
  rfl

/-- ARRAY_COMMAND_COMPLETE (14 R462). -/
theorem runs_arrayCommandComplete {cs : List ArrayCmd} (hlen : n < s.cores.length) (hruns : islandRuns s (19 + n) = true)
    (hcmds : (coreOf s n).cmds = c :: cs) (hheld : arraysHeld s n = false) :
    Runs (.arrayCommandComplete n) s fun t => (coreOf t n).cmds = cs := by
  have hkeeps := cmds_effected s n c
  refine ⟨_, exec_arrayCommandComplete hruns hcmds hheld, ?_⟩
  beta_reduce
  rw [coreOf_updCore_self (by rwa [hkeeps.length])]
  show (coreOf (effected s n c) n).cmds.tail = cs
  rw [hkeeps.coreOf, hcmds, List.tail_cons]

/-- ARRAY_COMMAND_COMPLETE while a stall holds the arrays (12 R393, 16 R497). -/
theorem gives_arrayCommandComplete_held (hheld : arraysHeld s n = true) : Gives (.arrayCommandComplete n) s s := by
  show execArrayCommandComplete n s = _
  unfold execArrayCommandComplete
  rw [if_neg (by simp [hheld])]
end

end Sys2Proof.Cores
end

section
/-! Job starts, preemption points and their interval (12 R373, R374, R378, R379, 13 R429, R443, 16 R498). -/
namespace Sys2Proof.Cores
open Sys2Proof Sys2Proof.Machine Sys2Proof.Laws Sys2Proof.Claims Sys2Proof.RegisterPages

section
variable {s : State} {n : Nat} {u : Bool} {k : Core} {j : JobStart}

/-! The bank of a job that begins (R373, R443). -/

theorem active_beginJob (k : Core) (j : JobStart) : (beginJob k j).active = if j.urgent then 2 else 1 := rfl

theorem bank_beginJob (k : Core) (j : JobStart) :
    (bankOf' (beginJob k j) j.urgent).pc = j.entry ∧ (bankOf' (beginJob k j) j.urgent).job = some j.job
      ∧ (bankOf' (beginJob k j) j.urgent).x = [0] ++ (List.range 6).map (fun i => BitVec.ofNat 64 (nth j.xs i 0)) ++ List.replicate 25 0 := by
  cases hu : j.urgent <;> simp [beginJob, updBank', bankOf', hu]

/-- x1 to x6 hold the words of the job start; the other registers read zero. -/
theorem xr_beginJob (k : Core) (j : JobStart) : (∀ i, i < 6 → xr (bankOf' (beginJob k j) j.urgent) (i + 1) = nth j.xs i 0 % 2 ^ 64)
    ∧ ∀ d, 6 < d → xr (bankOf' (beginJob k j) j.urgent) d = 0 := by
  obtain ⟨-, -, hx⟩ := bank_beginJob k j
  constructor
  · intro i hi
    rw [xr, if_neg (by omega), hx, nth, List.append_assoc, List.singleton_append, List.getElem?_cons_succ, List.getElem?_append_left (by simpa using hi),
      List.getElem?_map, List.getElem?_range hi]
    exact BitVec.toNat_ofNat _ _
  · intro d hd
    rw [xr, if_neg (by omega), hx, nth, List.getElem?_append_right (by simp; omega), List.getElem?_replicate]
    split <;> rfl

/-! A start that reaches its core (R373, R374). -/

/-- Core `k` when the start `j` of bank `u` has reached it: it waits, and begins where no bank is active. -/
def joined (k : Core) (u : Bool) (j : JobStart) : Core :=
  let k : Core := if u then { k with waitUrgent := some j } else { k with waitNormal := some j }
  if k.active = 0 then startWaiting k else k

theorem joined_waits (h : k.active ≠ 0) : (if u then (joined k u j).waitUrgent else (joined k u j).waitNormal) = some j := by
  cases u <;> simp [joined, h]

theorem joined_begins (h : k.active = 0) (hwait : u = true ∨ k.waitUrgent = none) : ∃ k', joined k u j = beginJob k' j := by
  cases u with
  | true => exact ⟨{ k with waitUrgent := none }, if_pos h⟩
  | false =>
    obtain hu | hnone := hwait
    · cases hu
    · refine ⟨{ k with waitNormal := none }, (if_pos h).trans ?_⟩
      simp [startWaiting, hnone]

theorem urgent_of_find {l : List JobStart} (h : (l.find? fun j => j.core = n && j.urgent = u) = some j) : j.urgent = u := by
  have hfound := List.find?_some h
  simp only [Bool.and_eq_true, decide_eq_true_eq] at hfound
  exact hfound.2

/-- The dispatcher without the start `j`, which has reached its core. -/
def startTaken (s : State) (j : JobStart) : State := updDpt s fun d => { d with starts := d.starts.erase j }

theorem startArrives_runs {ns : Nat} (hfind : (s.dpt.starts.find? fun j => j.core = n && j.urgent = u) = some j)
    (hgone : abandonTo s (bankMessage u) (19 + n) = none) (hruns : islandRuns s (19 + n) = true) :
    startArrives n u ns s = updCore (wake (startTaken s j) (19 + n)) n fun k => joined k u { j with ns := ns } := by
  have hgone' : abandonTo (startTaken s j) (bankMessage u) (19 + n) = none := hgone
  have hruns' : islandRuns (startTaken s j) (19 + n) = true := hruns
  unfold startArrives
  rw [hfind]
  dsimp only
  rw [← startTaken, hgone']
  dsimp only
  rw [if_neg (by simp [hruns'])]
  rfl

/-- JOB_START of a core that runs (12 R373, R374). -/
theorem runs_jobStart {ns : Nat} (hlen : n < s.cores.length) (hruns : islandRuns s (19 + n) = true)
    (hfind : (s.dpt.starts.find? fun j => j.core = n && j.urgent = u) = some j) (hgone : abandonTo s (bankMessage u) (19 + n) = none) :
    Runs (.jobStart n u ns) s fun t => t.dpt.starts = s.dpt.starts.erase j ∧ SameBytes s t
      ∧ ((coreOf s n).active ≠ 0 → (if u then (coreOf t n).waitUrgent else (coreOf t n).waitNormal) = some { j with ns := ns })
      ∧ ((coreOf s n).active = 0 → (u = true ∨ (coreOf s n).waitUrgent = none) → (coreOf t n).active = (if u then 2 else 1)
          ∧ (bankNow t n u).pc = j.entry ∧ (bankNow t n u).job = some j.job
          ∧ (∀ i, i < 6 → xr (bankNow t n u) (i + 1) = nth j.xs i 0 % 2 ^ 64) ∧ ∀ d, 6 < d → xr (bankNow t n u) d = 0) := by
  have hwork := startArrives_runs (s := withHost s []) (ns := ns) hfind hgone hruns
  have hcore : coreOf (startArrives n u ns (withHost s [])) n = joined (coreOf s n) u { j with ns := ns } := by
    rw [hwork, coreOf_updCore_self (by rwa [cores_wake]), coreOf_congr (cores_wake _ _)]
    rfl
  have hdpt : (wake (startTaken (withHost s []) j) (19 + n)).dpt = (startTaken s j).dpt := (congrArg State.dpt (Mesh.checks_wake _ _).rest :)
  refine Streams.runs_of_serves rfl hwork (unheld_of_mortar (s := s) (host := []) (wake_mortar _ _)) ⟨congrArg (·.starts) hdpt, ?_, ?_, ?_⟩
  · exact sameBytes_of_mem (wake_mem (startTaken (withHost s []) j) (19 + n))
  · rw [← hwork]
    intro hactive
    rw [show coreOf (given s (startArrives n u ns (withHost s []))) n = _ from hcore]
    exact joined_waits hactive
  · rw [← hwork]
    intro hactive hwait
    have hu := urgent_of_find hfind
    obtain ⟨k', hbegins⟩ := joined_begins (u := u) (j := { j with ns := ns }) hactive hwait
    rw [bankNow, show coreOf (given s (startArrives n u ns (withHost s []))) n = _ from hcore.trans hbegins]
    obtain ⟨hpc, hjob, -⟩ := bank_beginJob k' { j with ns := ns }
    obtain ⟨hwords, hzero⟩ := xr_beginJob k' { j with ns := ns }
    subst hu
    exact ⟨active_beginJob _ _, hpc, hjob, hwords, hzero⟩

/-- JOB_START of a core that is OFF or fenced (log entry 123). -/
theorem gives_jobStart_lost {ns : Nat} (hruns : islandRuns s (19 + n) = false)
    (hfind : (s.dpt.starts.find? fun j => j.core = n && j.urgent = u) = some j) (hgone : abandonTo s (bankMessage u) (19 + n) = none)
    (hu : Unheld (settleParts (missAborted (dropAborts (startTaken (withHost s []) j) n u) n j.job))) :
    Gives (.jobStart n u ns) s (given s (settleParts (missAborted (dropAborts (startTaken (withHost s []) j) n u) n j.job))) := by
  have hfind' : ((withHost s []).dpt.starts.find? fun j => j.core = n && j.urgent = u) = some j := hfind
  have hgone' : abandonTo (startTaken (withHost s []) j) (bankMessage u) (19 + n) = none := hgone
  have hruns' : islandRuns (startTaken (withHost s []) j) (19 + n) = false := hruns
  refine Streams.gives_of_serves rfl ?_ hu
  unfold startArrives
  rw [hfind']
  dsimp only
  rw [← startTaken, hgone']
  dsimp only
  rw [if_pos (by simp [hruns'])]

/-! Preemption points (R373, R378, R379). -/

/-- The bundle that the normal bank fetches next is a preemption point, not decoded yet or held by a stall. -/
structure AtPoint (s : State) (n : Nat) : Prop where
  small : n < 8
  runs : islandRuns s (19 + n) = true
  active : (coreOf s n).active = 1
  point : ppMark (nextBundle s n false) = true
  inside : inOwn n (coreOf s n).normal.pc 128 = true
  undecoded : (coreOf s n).normal.decoded = 0 ∨ (coreOf s n).stalled = true
  notEnded : (coreOf s n).normal.ended = none
  notAtEnd : (coreOf s n).normal.atEnd = false
  noSramErr : s.eccErr = []
  noDramErr : s.dram.eccFlips = []
  sound : fetchBad s n false = false

theorem atWork_normal (hn : n < 8) (hruns : islandRuns s (19 + n) = true) (h : (coreOf s n).active = 1) : bankAtWork s n = some false :=
  (bankAtWork_of_runs hn hruns).trans (if_pos h)

/-- The state with the interval since the last preemption point in its peak field, where the point counts (R378). -/
def intervalNoted (s : State) (n cycles : Nat) : State :=
  if rb s (R.ASH_MODE n) 4 && (coreOf s n).cmds.all (·.urgent) then peak s (R.ASH_PP n) 31 16 cycles else s

theorem cores_intervalNoted (s : State) (n cycles : Nat) : (intervalNoted s n cycles).cores = s.cores := by
  rw [intervalNoted, apply_ite State.cores, peak_cores, ite_self]

theorem mem_intervalNoted (s : State) (n cycles : Nat) : (intervalNoted s n cycles).mem = s.mem := by
  rw [intervalNoted, apply_ite State.mem, peak_mem, ite_self]

theorem AtPoint.gives (h : AtPoint s n) (cycles : Nat) : Gives (.preemptionPoint n cycles) s (decodePoint (intervalNoted s n cycles) n) := by
  have hundecoded := h.undecoded
  show execPreemptionPoint n cycles s = _
  unfold execPreemptionPoint
  rw [if_neg (not_not.mpr (atWork_normal h.small h.runs h.active)), if_pos h.point, fetchNext_clean h.noSramErr h.noDramErr]
  dsimp only
  rw [if_neg (by simp [h.inside, h.point, h.sound, h.notEnded, h.notAtEnd]; tauto)]
  rfl

theorem decodePoint_busy (h : (coreOf s n).cmds.all (·.urgent) = false) : decodePoint s n
    = updCore (hwFault s (P.ash n) 0x0B 0) n fun k => { k with normal := { k.normal with decoded := 2 } } := by
  unfold decodePoint
  rw [if_pos (by rw [← List.not_all_eq_any_not, h]; rfl)]

/-- Core `k` after a preemption point: an urgent start that waits begins its job, or the normal bank goes on (R373). -/
def pointTaken (k : Core) : Core :=
  match k.waitUrgent with
  | some j => beginJob { k with held := true, waitUrgent := none } j
  | none => { k with normal := { k.normal with decoded := 1 } }

theorem pointTaken_none (h : k.waitUrgent = none) : pointTaken k = { k with normal := { k.normal with decoded := 1 } } := by
  rw [pointTaken, h]

theorem pointTaken_some (h : k.waitUrgent = some j) : pointTaken k = beginJob { k with held := true, waitUrgent := none } j := by
  rw [pointTaken, h]

theorem decodePoint_idle (h : (coreOf s n).cmds.all (·.urgent) = true) : decodePoint s n = updCore s n pointTaken := by
  have hnone : ¬ (coreOf s n).cmds.any (fun c => !c.urgent) = true := by
    rw [← List.not_all_eq_any_not, h]
    simp
  unfold decodePoint
  exact if_neg hnone

/-- PREEMPTION_POINT while an array command of the normal bank is in flight (12 R379). -/
theorem AtPoint.runs_busy (h : AtPoint s n) (hlen : n < s.cores.length) (cycles : Nat) (hcmds : (coreOf s n).cmds.all (·.urgent) = false) :
    Runs (.preemptionPoint n cycles) s fun t => (coreOf t n).normal.decoded = 2 ∧ Raised t (P.ash n) 0 := by
  have hcores : (hwFault (intervalNoted s n cycles) (P.ash n) 0x0B 0).cores = s.cores :=
    (cores_of_onPage (onPage_hwFault _ _)).trans (cores_intervalNoted s n cycles)
  refine ⟨_, h.gives cycles, ?_⟩
  rw [decodePoint_busy (by rwa [coreOf_congr (cores_intervalNoted s n cycles)])]
  refine ⟨?_, rb_fault _ _ _ _ _ _⟩
  rw [coreOf_updCore_self (by rwa [hcores])]

/-- PREEMPTION_POINT where it is one: the core after it, and the memory as it was. -/
theorem AtPoint.idle (h : AtPoint s n) (hlen : n < s.cores.length) (cycles : Nat) (hcmds : (coreOf s n).cmds.all (·.urgent) = true) :
    ∃ t, Gives (.preemptionPoint n cycles) s t ∧ SameBytes s t ∧ coreOf t n = pointTaken (coreOf s n) := by
  have hcores := cores_intervalNoted s n cycles
  refine ⟨_, h.gives cycles, ?_⟩
  rw [decodePoint_idle (by rwa [coreOf_congr hcores])]
  refine ⟨sameBytes_of_mem (mem_intervalNoted s n cycles), ?_⟩
  rw [coreOf_updCore_self (by rwa [hcores]), coreOf_congr hcores]

/-- PREEMPTION_POINT with no urgent start waiting (12 R373). -/
theorem AtPoint.runs_idle (h : AtPoint s n) (hlen : n < s.cores.length) (cycles : Nat) (hcmds : (coreOf s n).cmds.all (·.urgent) = true)
    (hwait : (coreOf s n).waitUrgent = none) :
    Runs (.preemptionPoint n cycles) s fun t => (coreOf t n).normal.decoded = 1 ∧ (coreOf t n).active = 1 ∧ SameBytes s t := by
  obtain ⟨t, hexec, hbytes, hcore⟩ := h.idle hlen cycles hcmds
  rw [pointTaken_none hwait] at hcore
  refine ⟨t, hexec, ?_, ?_, hbytes⟩
  · rw [hcore]
  · rw [hcore]
    exact h.active

/-- PREEMPTION_POINT with an urgent start waiting: its job begins, and the normal bank is held as it stands (12 R373, R374). -/
theorem AtPoint.runs_urgent (h : AtPoint s n) (hlen : n < s.cores.length) (cycles : Nat) (hcmds : (coreOf s n).cmds.all (·.urgent) = true)
    (hwait : (coreOf s n).waitUrgent = some j) (hj : j.urgent = true) :
    Runs (.preemptionPoint n cycles) s fun t => (coreOf t n).active = 2 ∧ (coreOf t n).held = true ∧ (coreOf t n).waitUrgent = none
      ∧ (coreOf t n).urgent.pc = j.entry ∧ (coreOf t n).normal = (coreOf s n).normal ∧ SameBytes s t := by
  obtain ⟨t, hexec, hbytes, hcore⟩ := h.idle hlen cycles hcmds
  rw [pointTaken_some hwait] at hcore
  refine ⟨t, hexec, ?_⟩
  beta_reduce
  rw [hcore]
  simp [beginJob, updBank', hj, hbytes]

/-- The state in which the interval since the last preemption point is captured as late (R378). -/
def lateCaptured (s : State) (n cycles : Nat) : State :=
  raise (hwFault (peak s (R.ASH_PP n) 31 16 cycles) (P.ash n) 0x0A (min cycles 65535)) (P.ash n) 10

theorem cores_lateCaptured (s : State) (n cycles : Nat) : (lateCaptured s n cycles).cores = s.cores := by
  rw [lateCaptured, cores_of_onPage (onPage_raise 10), cores_of_onPage (onPage_hwFault _ _), peak_cores]

theorem raised_lateCaptured (s : State) (n cycles : Nat) : Raised (lateCaptured s n cycles) (P.ash n) 10 ∧ Raised (lateCaptured s n cycles) (P.ash n) 0 :=
  ⟨rb_raise _ _ (by decide), (rb_raise_ne (by decide) (by decide)).trans (rb_fault _ _ _ _ _ _)⟩

/-- PP_LATE of an interval that was not reported yet (12 R378). -/
theorem runs_ppLate {cycles : Nat} (hn : n < 8) (hlen : n < s.cores.length) (hruns : islandRuns s (19 + n) = true) (hactive : (coreOf s n).active = 1)
    (hmode : rb s (R.ASH_MODE n) 4 = true) (hlimit : rf s (R.ASH_PP n) 15 0 < cycles) (hlate : (coreOf s n).late = false) :
    Runs (.ppLate n cycles) s fun t => (coreOf t n).late = true ∧ Raised t (P.ash n) 10 ∧ Raised t (P.ash n) 0 := by
  have hwork := atWork_normal hn hruns hactive
  refine ⟨updCore (lateCaptured s n cycles) n fun k => { k with late := true }, ?_, ?_, raised_lateCaptured s n cycles⟩
  · show execPpLate n cycles s = _
    unfold execPpLate
    dsimp only
    rw [if_neg (by simp [hwork, hmode, hlimit]), if_neg (by simp [hlate])]
    rfl
  · rw [coreOf_updCore_self (by rwa [cores_lateCaptured])]
end

end Sys2Proof.Cores
end

section
/-! Items that arrive, stalls, pieces of movers, and the ends of jobs and loops (12 R393, R395 to R397, 13 R425, R427, R436 to R442). -/
namespace Sys2Proof.Cores
open Sys2Proof Sys2Proof.Machine Sys2Proof.Laws Sys2Proof.Claims Sys2Proof.RegisterPages

/-! Items (R393). -/

section
variable {b : Bank} {it : Item} {r : Nat × List Nat × Bool}

/-- The items of a bank stay in number when registers are written, but for those that the write adds. -/
theorem length_items_writeBank (b : Bank) (e : Effect) : (writeBank b e).items.length = b.items.length + e.items.length := by
  have hfold {α : Type} (f : Bank → α → Bank) (hf : ∀ c w, (f c w).items = c.items) (l : List α) (c : Bank) : (l.foldl f c).items = c.items :=
    List.foldlRecOn (motive := fun d : Bank => d.items = c.items) l f rfl fun d hd w _ => (hf d w).trans hd
  unfold writeBank
  dsimp only
  rw [List.length_append, hfold, hfold, hfold, List.length_map]
  · exact fun _ _ => by split <;> rfl
  · exact fun _ _ => by split <;> rfl
  · exact fun _ _ => rfl

/-- A write of one scalar register. -/
theorem x_writeBank_single {d v : Nat} {bad : Bool} {froms : List (Nat × Nat)} (hd : d ≠ 0) :
    (writeBank b { froms := froms, xs := [(d, v, bad)] }).x = b.x.set d (BitVec.ofNat 64 v) := by
  simp [writeBank, hd]

theorem length_items_arrive (h : it ∈ b.items) : (arrive b it r).items.length + 1 = b.items.length := by
  have herased : (b.items.erase it).length + 1 = b.items.length := by
    have hpos := List.length_pos_of_mem h
    rw [List.length_erase_of_mem h]
    omega
  unfold arrive
  split
  · exact herased
  · rw [length_items_writeBank]
    exact herased

theorem arrive_failed (h : r.1 > 1) : (arrive b it r).items = b.items.erase it ∧ (arrive b it r).x = b.x := by
  unfold arrive
  rw [if_pos h]
  exact ⟨rfl, rfl⟩

/-- An item of one register that did not fail writes its word there, and no other scalar register. -/
theorem xr_arrive {d v : Nat} (hlen : b.x.length = 32) (hst : r.1 ≤ 1) (hregs : it.regs = [d]) (hvals : r.2.1 = [v]) (hd : 1 ≤ d ∧ d < 32) (i : Nat) :
    xr (arrive b it r) i = if i = d then v % 2 ^ 64 else xr b i := by
  have hx : (arrive b it r).x = b.x.set d (BitVec.ofNat 64 (v % 2 ^ 64)) := by
    unfold arrive
    rw [if_neg (by omega)]
    simp only [hregs, hvals, List.zip_cons_cons, List.zip_nil_left, List.map_cons, List.map_nil]
    exact x_writeBank_single (by omega)
  unfold xr nth
  rw [hx, List.getElem?_set]
  by_cases hi : i = d
  · subst hi
    rw [if_neg (by omega), if_pos rfl, if_pos (by omega), if_pos rfl]
    simp
  · rw [if_neg (Ne.symm hi), if_neg hi]
end

section
variable {s : State} {n : Nat} {u : Bool}

theorem touchRegs_keeps (h : (coreOf s n).flips = []) (places : List Nat) :
    KeepsCores (fun k => bankOf' k u) s (touchRegs s n places) := by
  obtain hsame | ⟨p, hfired⟩ := touchRegs_unflipped (places := places) h
  · rw [hsame]
    exact .of_cores rfl
  · rw [hfired]
    exact (KeepsCores.of_cores rfl).flipStore fun _ _ => by cases u <;> rfl

/-- ITEM_ARRIVE: the item's bank is what its arrival makes of it. -/
theorem runs_itemArrive {i : Nat} {it : Item} {r : Nat × List Nat × Bool} (hlen : n < s.cores.length) (hitem : (bankNow s n u).items[i]? = some it)
    (hres : it.res = some r) (hflips : (coreOf s n).flips = []) : Runs (.itemArrive n u i) s fun t => bankNow t n u = arrive (bankNow s n u) it r := by
  let touched := if r.1 ≤ 1 then touchRegs s n ((it.regs.filter (· ≠ 0)).map (regPlace u)) else s
  let arrived := updCore touched n fun k => updBank' k u fun b => arrive b it r
  have htouched : KeepsCores (fun k => bankOf' k u) s touched := .ite (touchRegs_keeps hflips _) (.of_cores rfl)
  have harrived : bankNow arrived n u = arrive (bankNow s n u) it r :=
    (bankNow_updBank' (by rwa [htouched.length]) u _).trans (congrArg (arrive · it r) (htouched.coreOf n))
  refine ⟨if it.cause = 10 then (injFire arrived 8 fun a => a % 8 = n).1 else arrived, ?_, ?_⟩
  · show execItemArrive n u i s = _
    unfold execItemArrive
    rw [hitem]
    dsimp only
    rw [hres]
  · split
    · exact (congrArg (bankOf' · u) (coreOf_congr (cores_injFire arrived 8 _) n)).trans harrived
    · exact harrived

/-! A stall that lasts too long (R395). -/

theorem gives_stallTimeout (hn : n < 8) (hruns : islandRuns s (19 + n) = true) (hbank : runningBank (coreOf s n) = some u)
    (hstalled : (coreOf s n).stalled = true) (hu : Unheld (takeException (withHost s []) n u { cause := EX.stallTimeout, slot := 7 })) :
    Gives (.stallTimeout n) s (given s (takeException (withHost s []) n u { cause := EX.stallTimeout, slot := 7 })) := by
  refine Streams.gives_of_serves (f := fun s => takeException s n u { cause := EX.stallTimeout, slot := 7 }) ?_ rfl hu
  show execStallTimeout n s = _
  unfold execStallTimeout
  dsimp only
  rw [bankAtWork_of_runs hn hruns, hbank]
  dsimp only
  rw [if_pos hstalled]

/-! The end of a job (13 R425). -/

/-- The state in which the bank's job has ended and its counts have been reported (R425, R482, R533). -/
def ended (s : State) (n : Nat) (u : Bool) (j : Job) (code : Nat) : State :=
  jobEnded (updCore (reportCounts s n u) n fun k => leaveBank k u) n j code (satAdd 32 (bankNow s n u).accSat (bankNow s n u).outSat)
    (bankNow s n u).mismatch

theorem endJob_answered {j : Job} {code : Nat} (hn : n < 8) (hruns : islandRuns s (19 + n) = true) (hbank : runningBank (coreOf s n) = some u)
    (hended : (bankNow s n u).ended = some code) (hjob : (bankNow s n u).job = some j) (hitems : (bankNow s n u).endFailed = none)
    (hmovers : ∀ m ∈ (coreOf s n).movers.flatMap id, m.failed = none) (hanswered : answered (coreOf s n) u = true) :
    endJob n s = ended s n u j code := by
  have hbroken : ((coreOf s n).movers.flatMap fun q => q).findSome? (fun m => if m.urgent = u then m.failed else none) = none :=
    List.findSome?_eq_none_iff.mpr fun m hm => by rw [hmovers m hm, ite_self]
  unfold endJob
  dsimp only
  rw [bankAtWork_of_runs hn hruns, hbank]
  dsimp only
  rw [hended, hjob]
  dsimp only
  rw [hitems, hbroken]
  dsimp only
  rw [if_neg (by simp [hanswered])]
  rfl

/-! Pieces of movers (13 R436 to R442). -/

section
variable {j : Nat} {m : MoverOp} {host : List Cpl}

/-- The oldest instruction of mover `j` that has not failed. -/
def Oldest (s : State) (n j : Nat) (m : MoverOp) : Prop := (nth (coreOf s n).movers j []).find? (fun m => m.failed.isNone) = some m

theorem answerPiece_held (hruns : islandRuns s (19 + n) = true) (hm : Oldest s n j m) (hheld : halfHeld (coreOf s n) m = true) :
    answerPiece n j s = bump s (R.ASH_STALL n 8) 31 0 1 := by
  unfold answerPiece
  dsimp only
  rw [if_pos hruns, show _ = some m from hm]
  dsimp only
  rw [if_pos hheld]

/-- MOVER_PIECE_RESPONSE while an array command holds the half that the instruction fills (12 R383). -/
theorem runs_moverPieceResponse_held (hruns : islandRuns s (19 + n) = true) (hm : Oldest s n j m) (hheld : halfHeld (coreOf s n) m = true) :
    Runs (.moverPieceResponse n j host) s fun t =>
      rf t (R.ASH_STALL n 8) 31 0 = min (2 ^ 32 - 1) (rf s (R.ASH_STALL n 8) 31 0 + 1) ∧ SameBytes s t :=
  Streams.runs_of_serves (f := answerPiece n j) rfl (answerPiece_held (s := withHost s host) hruns hm hheld)
    (unheld_of_mortar (s := s) (host := host) rfl) ⟨Streams.rf_bump_self (s := withHost s host) (by decide), sameBytes_of_mem rfl⟩

/-- The state in which the piece is performed: an armed injection may have met its read (R730). -/
def pieceMet (s : State) (n : Nat) (m : MoverOp) : State := if placeOf m.src = .coreSram n then s else (injFire s 8 fun a => a % 8 = n).1

/-- What becomes of a piece of `len` bytes at offset `o` whose data are read (R439, R441, R442). -/
def pieceWritten (s : State) (n j : Nat) (m : MoverOp) (o : Nat) (r : State × Nat × List Byte × List (Nat × Nat)) : State :=
  if r.2.1 ≠ 0 then updCore r.1 n fun k => failMover k j m.seq r.2.1 (m.src + (if m.grain && decide (m.op = 2) then 2 else 1) * o)
  else if m.op = 4 then gatherPiece r.1 n j m o r.2.2.1 r.2.2.2
  else
    let f := if m.grain && decide (m.op = 1) then 2 else 1
    if m.dstKind ≠ 0 then updCore (writeBuffer r.1 n m.dstKind m.half m.arr (m.boff + f * o) r.2.2.1 r.2.2.2) n fun k => popPiece k j m.seq
    else
      let w := coreWrite r.1 n (moverVia s n m) (m.dst + f * o) r.2.2.1 r.2.2.2
      if w.2 ≠ MS.ok then updCore w.1 n fun k => failMover k j m.seq w.2 (m.dst + f * o) else updCore w.1 n fun k => popPiece k j m.seq

theorem answerPiece_free {o len : Nat} {ps : List (Nat × Nat)} (hruns : islandRuns s (19 + n) = true) (hm : Oldest s n j m)
    (hpieces : m.pieces = (o, len) :: ps) (hfree : fillWaits (coreOf s n) m = false) :
    answerPiece n j s = pieceWritten (pieceMet s n m) n j m o (pieceData (pieceMet s n m) n m o len) := by
  have hheld : halfHeld (coreOf s n) m = false := (Bool.or_eq_false_iff.mp hfree).1
  unfold answerPiece
  dsimp only
  rw [if_pos hruns, show _ = some m from hm]
  dsimp only
  rw [if_neg (by simp [hheld]), if_neg (by simp [hfree]), hpieces]
  rfl

theorem mortar_gatherPiece (s : State) (n j : Nat) (m : MoverOp) (o : Nat) (bs : List Byte) (bad : List (Nat × Nat)) :
    (gatherPiece s n j m o bs bad).mortar = s.mortar := by
  unfold gatherPiece
  dsimp only
  split
  · exact (OnCores.refl s).writeBuffer.mortar
  · rfl
end

/-! The end bundle of a loop (13 R427). -/

/-- A bank after the evaluation at its end bundle (R427, R428). -/
def loopsEvaluated (b : Bank) : Bank :=
  let r := evalLoops 4 b.loops b.pc
  { b with loops := r.1, pc := r.2, atEnd := false, decoded := 0 }

theorem evaluateEnd_atEnd (hn : n < 8) (hruns : islandRuns s (19 + n) = true) (hbank : runningBank (coreOf s n) = some u)
    (hended : (bankNow s n u).ended = none) (hatEnd : (bankNow s n u).atEnd = true) :
    evaluateEnd n s = updCore s n fun k => updBank' k u loopsEvaluated := by
  unfold evaluateEnd
  rw [bankAtWork_of_runs hn hruns, hbank]
  dsimp only
  simp only [hatEnd, hended, if_true, Option.isSome_none, Bool.true_or, Bool.not_true, Bool.or_false, Bool.false_eq_true, if_false]
  rfl

/-- LOOP_END_EVALUATE: the loops and the next bundle are those of the evaluation. -/
theorem runs_loopEndEvaluate {ls : List Loop} {a : Nat} (hn : n < 8) (hlen : n < s.cores.length) (hruns : islandRuns s (19 + n) = true)
    (hbank : runningBank (coreOf s n) = some u) (hended : (bankNow s n u).ended = none) (hatEnd : (bankNow s n u).atEnd = true)
    (heval : evalLoops 4 (bankNow s n u).loops (bankNow s n u).pc = (ls, a)) :
    Runs (.loopEndEvaluate n) s fun t => (bankNow t n u).pc = a ∧ (bankNow t n u).loops = ls ∧ (bankNow t n u).x = (bankNow s n u).x ∧ SameBytes s t := by
  have hwork := evaluateEnd_atEnd (s := withHost s []) hn hruns hbank hended hatEnd
  have hbank := bankNow_updBank' (s := withHost s []) (n := n) hlen u loopsEvaluated
  refine Streams.runs_of_serves (f := evaluateEnd n) rfl hwork (unheld_of_mortar (s := s) (host := []) rfl) ⟨?_, ?_, ?_, sameBytes_of_mem rfl⟩
  · exact (congrArg Bank.pc hbank).trans (congrArg Prod.snd heval)
  · exact (congrArg Bank.loops hbank).trans (congrArg Prod.fst heval)
  · exact (congrArg Bank.x hbank :)

theorem evalLoops_again {ls : List Loop} {pc i : Nat} {l : Loop} (h : innerLoop ls pc = some (i, l)) (hcount : 2 ≤ l.count) :
    evalLoops 4 ls pc = (ls.set i { l with count := l.count - 1 }, l.start) := by
  unfold evalLoops
  rw [h]
  exact if_pos hcount

theorem evalLoops_last {ls : List Loop} {pc i : Nat} {l : Loop} (h : innerLoop ls pc = some (i, l)) (hcount : l.count ≤ 1)
    (houter : innerLoop (ls.set i { l with count := 0, active := false }) pc = none) :
    evalLoops 4 ls pc = (ls.set i { l with count := 0, active := false }, pc + 128) := by
  unfold evalLoops
  rw [h]
  dsimp only
  rw [if_neg (by omega)]
  unfold evalLoops
  rw [houter]

theorem nth_set_self {α : Type} {l : List α} {i : Nat} (h : i < l.length) (x d : α) : nth (l.set i x) i d = x := by
  simp [nth, h]
end

end Sys2Proof.Cores
end

section
/-! The abort of a job, and the commands that reach a core from outside its bundles (12 R375, R401, 13 R425, 15 R482, 17 R535). -/
namespace Sys2Proof.Cores
open Sys2Proof Sys2Proof.Machine Sys2Proof.Laws Sys2Proof.Claims Sys2Proof.RegisterPages

/-! The states of partitions are brought up to date (17 R525). -/

/-- From `s` to `t` nothing changes but registers, messages, and the states and views of partitions. -/
structure Settles (s t : State) : Prop where
  rest : t = { s with
    regs := t.regs, fypSignals := t.fypSignals, toFlt := t.toFlt, toCsh := t.toCsh,
    pci := { s.pci with sent := t.pci.sent, funcs := t.pci.funcs, l1 := t.pci.l1, writes := t.pci.writes },
    dpt := { s.dpt with state := t.dpt.state, views := t.dpt.views } }

section
variable {s t w : State} {n : Nat} {u : Bool}

theorem Settles.refl (s : State) : Settles s s := ⟨rfl⟩

theorem Settles.trans (h : Settles s t) (k : Settles t w) : Settles s w := by
  have hr := h.rest
  have kr := k.rest
  rw [hr] at kr
  exact ⟨kr⟩

theorem Settles.ite {c : Prop} [Decidable c] (ht : Settles s t) (hw : Settles s w) : Settles s (if c then t else w) := by
  split <;> assumption

theorem Settles.onPage {pg : Nat} (h : Settles s t) (k : OnPage pg t w) : Settles s w := h.trans ⟨by rw [k.rest]⟩

theorem Settles.partEvent (h : Settles s t) {p b : Nat} : Settles s (partEvent t p b) := by
  have hpending (f : Dispatcher → Dispatcher) (hf : f t.dpt = { t.dpt with views := (f t.dpt).views }) : Settles s (updDpt t f) :=
    h.trans ⟨by rw [updDpt, hf]⟩
  unfold Machine.partEvent
  exact .ite h (.ite ((hpending _ rfl).onPage (pg := 0) (onPage_sendMsix _ _)) (hpending _ rfl))

theorem Settles.settlePart (h : Settles s t) {now : Bool} {p : Nat} : Settles s (settlePart now t p) :=
  .ite h (.partEvent (.onPage (h.trans (w := updDpt t _) ⟨rfl⟩) (onPage_raise 13)))

theorem settles_settleParts (s : State) : Settles s (settleParts s) := List.foldlRecOn _ _ (Settles.refl s) fun _ k _ _ => k.settlePart

theorem Settles.mem (h : Settles s t) : t.mem = s.mem := (congrArg State.mem h.rest :)

theorem Settles.cores (h : Settles s t) : t.cores = s.cores := (congrArg State.cores h.rest :)

theorem Settles.aborts (h : Settles s t) : t.dpt.aborts = s.dpt.aborts := (congrArg (fun w : State => w.dpt.aborts) h.rest :)

theorem Settles.starts (h : Settles s t) : t.dpt.starts = s.dpt.starts := (congrArg (fun w : State => w.dpt.starts) h.rest :)

/-! The service calls of a job that is aborted (R616, R645). -/

/-- The bank that runs on a core, whether a job is held, and the starts that wait. -/
def occupancy (k : Core) : Nat × Bool × Option JobStart × Option JobStart := (k.active, k.held, k.waitUrgent, k.waitNormal)

theorem occupancy_updBank' (k : Core) (u : Bool) (f : Bank → Bank) : occupancy (updBank' k u f) = occupancy k := by
  cases u <;> rfl

/-- From `s` to `t` commands of Keystone and Safelight are told to end: memory stays, and so does what occupies each core. -/
structure Withdraws (s t : State) : Prop where
  mem : t.mem = s.mem
  cores : KeepsCores occupancy s t

theorem Withdraws.refl (s : State) : Withdraws s s := ⟨rfl, rfl⟩

theorem Withdraws.trans (h : Withdraws s t) (k : Withdraws t w) : Withdraws s w := ⟨k.mem.trans h.mem, h.cores.trans k.cores⟩

theorem Withdraws.of_eq (hmem : t.mem = s.mem) (hcores : t.cores = s.cores) : Withdraws s t := ⟨hmem, .of_cores hcores⟩

theorem Withdraws.answerSvc (h : Withdraws s t) {cause id word : Nat} : Withdraws s (answerSvc t n u cause id word) :=
  ⟨h.mem, h.cores.updCore fun k => occupancy_updBank' k _ _⟩

theorem Withdraws.onPage {pg : Nat} (h : Withdraws s t) (k : OnPage pg t w) : Withdraws s w :=
  h.trans (.of_eq (congrArg State.mem k.rest :) (cores_of_onPage k))

theorem withdraws_keyComplete (s : State) (c : KeyCmd) (st : Nat) : Withdraws s (keyComplete s c st) := by
  have hcounted (w : State) : w = bump (updKey s fun k => { k with cur := k.cur.filter fun d => d.id ≠ c.id, held := k.held.filter fun d => d.id ≠ c.id })
      R.KEY_CMDS 31 0 1 → Withdraws s (if c.ctx < 4 then setReg w (R.KEY_CTX_LAST c.ctx) (BitVec.ofNat 32 (st + c.iter * 256)) else w) := by
    rintro rfl
    split
    · exact .of_eq rfl rfl
    · exact .of_eq rfl rfl
  unfold keyComplete
  dsimp only
  split
  · exact (hcounted _ rfl).answerSvc
  · exact (hcounted _ rfl).onPage (onPage_raise 8)
  · exact hcounted _ rfl

theorem withdraws_sflComplete (s : State) (c : SflCmd) (st : Nat) : Withdraws s (sflComplete s c st) := by
  have hcounted (w : State) : w = bump (updSfl s fun k => { k with cur := k.cur.filter fun d => d.id ≠ c.id, held := k.held.filter fun d => d.id ≠ c.id })
      R.SFL_CMDS 31 0 1 → Withdraws s w := by
    rintro rfl
    exact .of_eq rfl rfl
  unfold sflComplete
  dsimp only
  split
  · exact (hcounted _ rfl).answerSvc
  · refine .onPage ((hcounted _ rfl).trans ?_) (onPage_raise 8)
    exact .of_eq rfl rfl

theorem withdraws_keyAbort (s : State) (id : Nat) : Withdraws s (keyAbort s id) := by
  have hheld : Withdraws s (fromHeld id s) := by
    unfold fromHeld
    split
    · refine Withdraws.trans ?_ (withdraws_keyComplete _ _ _)
      split
      · exact .of_eq rfl rfl
      · exact .refl s
    · exact .refl s
  unfold keyAbort
  split
  · split
    · exact .of_eq rfl rfl
    · exact hheld
  · exact hheld

theorem withdraws_sflAbort (s : State) (id : Nat) : Withdraws s (sflAbort s id) := by
  have hheld : Withdraws s (sflWaiting id s) := by
    unfold sflWaiting
    split
    · exact withdraws_sflComplete _ _ _
    · exact .refl s
  unfold sflAbort
  split
  · split
    · exact .of_eq rfl rfl
    · exact hheld
  · exact hheld

theorem withdraws_svcAbort (s : State) (b : Bank) : Withdraws s (svcAbort s b) := by
  refine List.foldlRecOn _ _ (Withdraws.refl s) fun t k it _ => ?_
  split
  · split
    · exact k
    · split
      · exact k.trans (withdraws_keyAbort t _)
      · split
        · exact k.trans (withdraws_sflAbort t _)
        · exact k
  · exact k

/-! JOB_ABORT (17 R535). -/

/-- A bank whose job is over leaves its core with nothing that runs, where nothing waits there. -/
theorem leaveBank_alone {k : Core} (hactive : k.active = if u then 2 else 1) (hheld : k.held = false) (hurgent : k.waitUrgent = none)
    (hnormal : k.waitNormal = none) : (leaveBank k u).active = 0 ∧ (bankOf' (leaveBank k u) u).job = none := by
  cases u <;> simp [leaveBank, updBank', startWaiting, bankOf', hheld, hurgent, hnormal, show k.active = _ from hactive]

/-- The dispatcher without the abort message to bank `u` of core `n`. -/
def abortTaken (s : State) (n : Nat) (u : Bool) : State := updDpt s fun d => { d with aborts := d.aborts.erase (n, u) }

theorem settles_keeps (s : State) : (settleParts s).mem = s.mem ∧ (settleParts s).dpt.aborts = s.dpt.aborts
    ∧ (settleParts s).dpt.starts = s.dpt.starts ∧ coreOf (settleParts s) n = coreOf s n := by
  have h := settles_settleParts s
  exact ⟨h.mem, h.aborts, h.starts, coreOf_congr h.cores n⟩

/-- The state in which the bank's calls are withdrawn and its counts are reported (R482, R535). -/
def jobWithdrawn (s : State) (n : Nat) (u : Bool) : State := reportCounts (svcAbort (abortTaken s n u) (bankNow s n u)) n u

theorem withdraws_jobWithdrawn (s : State) (n : Nat) (u : Bool) : Withdraws s (jobWithdrawn s n u) := by
  have htaken : Withdraws s (abortTaken s n u) := .of_eq rfl rfl
  have hcalls := htaken.trans (withdraws_svcAbort (abortTaken s n u) (bankNow s n u))
  exact ⟨hcalls.mem, hcalls.cores⟩

/-- The state in which bank `u` of core `n` has no start left, neither waiting nor on its way (log entry 124). -/
def startsDropped (s : State) (n : Nat) (u : Bool) : State :=
  updCore (updDpt (abortTaken s n u) fun d => { d with starts := d.starts.filter fun w => w.core ≠ n ∨ w.urgent ≠ u }) n fun k =>
    if u then { k with waitUrgent := none } else { k with waitNormal := none }

/-- An abort message to bank `u` of core `n` that the dispatcher has not abandoned. -/
structure AbortDue (s : State) (n : Nat) (u : Bool) : Prop where
  due : (n, u) ∈ s.dpt.aborts
  kept : abandonTo s dptVia (19 + n) = none

theorem AbortDue.execJobAbort_eq (h : AbortDue s n u) : execJobAbort n u s = if (bankNow s n u).job.isNone then
    .next (settleParts (startsDropped s n u)) else .next (settleParts (updCore (jobWithdrawn s n u) n fun k => leaveBank k u)) := by
  have hgone : abandonTo (abortTaken s n u) dptVia (19 + n) = none := h.kept
  unfold execJobAbort
  rw [if_neg (by simp [h.due])]
  dsimp only
  rw [← abortTaken, hgone]
  rfl

/-- JOB_ABORT of a bank that runs a job alone on its core. -/
theorem AbortDue.runs_running (h : AbortDue s n u) (hlen : n < s.cores.length) (hjob : (bankNow s n u).job ≠ none)
    (hactive : (coreOf s n).active = if u then 2 else 1) (hheld : (coreOf s n).held = false)
    (hurgent : (coreOf s n).waitUrgent = none) (hnormal : (coreOf s n).waitNormal = none) :
    Runs (.jobAbort n u) s fun t => (n, u) ∉ t.dpt.aborts ∧ (coreOf t n).active = 0 ∧ (bankNow t n u).job = none ∧ SameBytes s t := by
  have hwithdraws := withdraws_jobWithdrawn s n u
  obtain ⟨hmem, haborts, -, hcore⟩ := settles_keeps (n := n) (updCore (jobWithdrawn s n u) n fun k => leaveBank k u)
  rw [coreOf_updCore_self (by rwa [hwithdraws.cores.length])] at hcore
  have hstays : occupancy (coreOf (jobWithdrawn s n u) n) = occupancy (coreOf s n) := hwithdraws.cores.coreOf n
  simp only [occupancy, Prod.mk.injEq] at hstays
  obtain ⟨hsameActive, hsameHeld, hsameUrgent, hsameNormal⟩ := hstays
  have halone := leaveBank_alone (hsameActive.trans hactive) (hsameHeld.trans hheld) (hsameUrgent.trans hurgent) (hsameNormal.trans hnormal)
  refine ⟨_, h.execJobAbort_eq.trans (if_neg (by simpa using hjob)), ?_, ?_, ?_, ?_⟩
  · rw [haborts]
    simp [jobWithdrawn, reportCounts, dropAborts, updDpt, updCore]
  · rw [hcore]
    exact halone.1
  · rw [bankNow, hcore]
    exact halone.2
  · exact sameBytes_of_mem (hmem.trans hwithdraws.mem)

/-- JOB_ABORT of a bank with no job (log entry 124). -/
theorem AbortDue.runs_idle (h : AbortDue s n u) (hlen : n < s.cores.length) (hjob : (bankNow s n u).job = none) :
    Runs (.jobAbort n u) s fun t => t.dpt.aborts = s.dpt.aborts.erase (n, u) ∧ (∀ w ∈ t.dpt.starts, w.core ≠ n ∨ w.urgent ≠ u)
      ∧ (if u then (coreOf t n).waitUrgent else (coreOf t n).waitNormal) = none ∧ SameBytes s t := by
  obtain ⟨hmem, haborts, hstarts, hcore⟩ := settles_keeps (n := n) (startsDropped s n u)
  replace hcore := hcore.trans (coreOf_updCore_self hlen _)
  refine ⟨_, h.execJobAbort_eq.trans (if_pos (by simp [hjob])), haborts, ?_, ?_, sameBytes_of_mem hmem⟩
  · rw [hstarts]
    intro w hw
    simpa using (List.mem_filter.mp hw).2
  · rw [hcore]
    cases u <;> rfl
end

/-! The pieces of a mover, case by case (13 R439, R441, R442). -/

section
variable {s : State} {n j : Nat} {m : MoverOp}

theorem unheld_updCore {f : Core → Core} (h : Unheld s) : Unheld (updCore s n f) := h

theorem unheld_of_sameMortar {t : State} (h : Unheld s) (hmortar : t.mortar = s.mortar) : Unheld t := by
  unfold Unheld
  rwa [hmortar]

variable {o : Nat} {r : State × Nat × List Byte × List (Nat × Nat)}

/-- MOVER_PIECE_RESPONSE of a piece whose data are `r`, read in the state `a`. -/
theorem gives_moverPieceResponse {len : Nat} {ps : List (Nat × Nat)} {host : List Cpl} {a t : State} (hruns : islandRuns s (19 + n) = true)
    (hm : Oldest s n j m) (hpieces : m.pieces = (o, len) :: ps) (hfree : fillWaits (coreOf s n) m = false)
    (ha : pieceMet (withHost s host) n m = a) (hr : pieceData a n m o len = r) (ht : pieceWritten a n j m o r = t) (hu : Unheld t) :
    Gives (.moverPieceResponse n j host) s (given s t) := by
  refine Streams.gives_of_serves (f := answerPiece n j) rfl ?_ hu
  rw [answerPiece_free (s := withHost s host) hruns hm hpieces hfree, ha, hr, ht]

theorem pieceWritten_unread (h : r.2.1 ≠ 0) : pieceWritten s n j m o r
    = updCore r.1 n fun k => failMover k j m.seq r.2.1 (m.src + (if m.grain && decide (m.op = 2) then 2 else 1) * o) := if_pos h

theorem pieceWritten_gather (h : r.2.1 = 0) (hop : m.op = 4) : pieceWritten s n j m o r = gatherPiece r.1 n j m o r.2.2.1 r.2.2.2 :=
  (if_neg (not_not.mpr h)).trans (if_pos hop)

theorem pieceWritten_buffer (h : r.2.1 = 0) (hop : m.op ≠ 4) (hkind : m.dstKind ≠ 0) : pieceWritten s n j m o r
    = updCore (writeBuffer r.1 n m.dstKind m.half m.arr (m.boff + (if m.grain && decide (m.op = 1) then 2 else 1) * o) r.2.2.1 r.2.2.2) n fun k =>
      popPiece k j m.seq := ((if_neg (not_not.mpr h)).trans (if_neg hop)).trans (if_pos hkind)

theorem pieceWritten_stored {w : State × Nat} (h : r.2.1 = 0) (hop : m.op ≠ 4) (hkind : m.dstKind = 0)
    (hw : coreWrite r.1 n (moverVia s n m) (m.dst + (if m.grain && decide (m.op = 1) then 2 else 1) * o) r.2.2.1 r.2.2.2 = w) (hok : w.2 = MS.ok) :
    pieceWritten s n j m o r = updCore w.1 n fun k => popPiece k j m.seq := by
  subst hw
  exact (((if_neg (not_not.mpr h)).trans (if_neg hop)).trans (if_neg (not_not.mpr hkind))).trans (if_neg (not_not.mpr hok))

theorem pieceWritten_notStored {w : State × Nat} (h : r.2.1 = 0) (hop : m.op ≠ 4) (hkind : m.dstKind = 0)
    (hw : coreWrite r.1 n (moverVia s n m) (m.dst + (if m.grain && decide (m.op = 1) then 2 else 1) * o) r.2.2.1 r.2.2.2 = w) (hfailed : w.2 ≠ MS.ok) :
    pieceWritten s n j m o r
      = updCore w.1 n fun k => failMover k j m.seq w.2 (m.dst + (if m.grain && decide (m.op = 1) then 2 else 1) * o) := by
  subst hw
  exact (((if_neg (not_not.mpr h)).trans (if_neg hop)).trans (if_neg (not_not.mpr hkind))).trans (if_pos hfailed)
end

/-- Settles O49, from one lemma for each command. -/
theorem coreEvents : Obligations.CoreEvents := by
  unfold Obligations.CoreEvents
  intro s n hn hlen
  refine ⟨fun hruns => ⟨?start, ?point, ?late, ?item, ?stall, ?jobEnd, ?array, ?arrayHeld, ?pieceHeld, ?piece, ?loopEnd⟩, ?abort, ?lost⟩
  case start => exact fun j u ns hfind hgone => runs_jobStart hlen hruns hfind hgone
  case point =>
    intro cycles hactive hpoint hinside hundecoded hended hatEnd hecc hflips hsound
    have h : AtPoint s n := ⟨hn, hruns, hactive, hpoint, hinside, hundecoded, hended, hatEnd, hecc, hflips, hsound⟩
    exact ⟨fun hcmds => ⟨h.runs_idle hlen cycles hcmds, fun j => h.runs_urgent hlen cycles hcmds⟩, h.runs_busy hlen cycles⟩
  case late => exact fun cycles hactive hmode hlimit hlate => runs_ppLate hn hlen hruns hactive hmode hlimit hlate
  case item =>
    intro u i it r hitem hres hflips
    obtain ⟨t, hexec, hbank⟩ := runs_itemArrive hlen hitem hres hflips
    refine ⟨t, hexec, ?_⟩
    beta_reduce
    rw [hbank]
    exact ⟨length_items_arrive (List.mem_of_getElem? hitem), arrive_failed,
      fun d v hx hst hregs hvals hd hd' => xr_arrive hx hst hregs hvals ⟨hd, hd'⟩⟩
  case stall => exact fun u hbank hstalled hu => gives_stallTimeout hn hruns hbank hstalled hu
  case jobEnd =>
    intro u j code hbank hended hjob hitems hmovers hanswered sat t hu
    exact Streams.gives_of_serves (f := endJob n) rfl (endJob_answered (s := withHost s []) hn hruns hbank hended hjob hitems hmovers hanswered) hu
  case array => exact fun c cs hcmds hheld => runs_arrayCommandComplete hlen hruns hcmds hheld
  case arrayHeld => exact fun c cs _ hheld => gives_arrayCommandComplete_held hheld
  case pieceHeld => exact fun j m host hm hheld => runs_moverPieceResponse_held hruns hm hheld
  case piece =>
    intro j m o len ps host hm hpieces hfree p a r f w b from_
    have hgives {t : State} (ht : pieceWritten a n j m o r = t) (hu : Unheld t) : Gives (.moverPieceResponse n j host) s (given s t) :=
      gives_moverPieceResponse hruns hm hpieces hfree rfl rfl ht hu
    refine ⟨fun hst hu => ?unread, fun hst hop hkind hw hu => ?stored, fun hst hop hkind hw hu => ?notStored, fun hst hop hkind hu => ?buffered,
      fun hst hop hu => ?gathered⟩
    case unread => exact hgives (pieceWritten_unread hst) (unheld_updCore hu)
    case stored => exact hgives (pieceWritten_stored (w := w) hst hop hkind rfl hw) (unheld_updCore hu)
    case notStored => exact hgives (pieceWritten_notStored (w := w) hst hop hkind rfl hw) (unheld_updCore hu)
    case buffered =>
      have hb : Unheld b := unheld_of_sameMortar hu (OnCores.refl r.1).writeBuffer.mortar
      exact hgives (pieceWritten_buffer hst hop hkind) (unheld_updCore hb)
    case gathered => exact hgives (pieceWritten_gather hst hop) (unheld_of_sameMortar hu (mortar_gatherPiece _ _ _ _ _ _ _))
  case loopEnd =>
    intro u i l hbank hended hatEnd hinner hi
    constructor
    · intro hcount
      obtain ⟨t, hexec, hpc, hloops, hx, hbytes⟩ := runs_loopEndEvaluate hn hlen hruns hbank hended hatEnd (evalLoops_again hinner hcount)
      exact ⟨t, hexec, hpc, by rw [hloops, nth_set_self hi], hx, hbytes⟩
    · intro hcount houter
      obtain ⟨t, hexec, hpc, hloops, -⟩ := runs_loopEndEvaluate hn hlen hruns hbank hended hatEnd (evalLoops_last hinner hcount houter)
      exact ⟨t, hexec, hpc, by rw [hloops, nth_set_self hi]⟩
  case abort =>
    intro u hdue hkept
    have h : AbortDue s n u := ⟨hdue, hkept⟩
    exact ⟨h.runs_running hlen, h.runs_idle hlen⟩
  case lost =>
    intro hruns j u ns hfind hgone t hu
    exact gives_jobStart_lost hruns hfind hgone hu

end Sys2Proof.Cores
end

section
/-! The step, and how a module supply outside its range ends (25 R732). -/
namespace Sys2Proof.Steps
open Sys2Proof Sys2Proof.Machine Sys2Proof.Claims

/-- Settles O1: the front of the queue is taken off before its command runs. -/
theorem stepRunsTheFrontCommand : Obligations.StepRunsTheFrontCommand := fun _ _ => rfl

/-- Settles O3: every survivable command keeps the queue and the clock, as each row of the model was shown to. -/
theorem everyCommandRunsAndKeepsTheQueue : Obligations.EveryCommandRunsAndKeepsTheQueue := by
  unfold Obligations.EveryCommandRunsAndKeepsTheQueue
  intro c s hsurvivable
  obtain ⟨t, hexec, hkeeps⟩ := keeps_exec s c hsurvivable
  exact ⟨t, hexec, hkeeps.pending, hkeeps.clock, hkeeps.drawn⟩

/-- Settles O6: the range is tested before anything else of the supply. -/
theorem supplyOutsideSurvivalStops : Obligations.SupplyOutsideSurvivalStops := by
  unfold Obligations.SupplyOutsideSurvivalStops
  intro mv ma s houtside
  refine exec_not_survivable s fun hsurvivable => ?_
  have hinside := hsurvivable mv ma rfl
  omega

end Sys2Proof.Steps
end

section
/-! Safelight's reduction (20 R623, R624). -/
namespace Sys2Proof.Reduction
open Sys2Proof Sys2Proof.Machine

section
variable {A B m x : Nat}

/-- The quotient estimate of R624 with `A` and `B` for its two powers of 2. -/
def estimate (A B m x : Nat) : Nat := x / A * (A * B / m) / B

theorem estimate_mul_le (hA : 0 < A) (hB : 0 < B) : estimate A B m x * m ≤ x := by
  refine Nat.le_of_mul_le_mul_right ?_ (Nat.mul_pos hA hB)
  calc estimate A B m x * m * (A * B) = estimate A B m x * B * m * A := by ring
    _ ≤ x / A * (A * B / m) * m * A := Nat.mul_le_mul_right A (Nat.mul_le_mul_right m (Nat.div_mul_le_self _ B))
    _ = x / A * A * (A * B / m * m) := by ring
    _ ≤ x * (A * B) := Nat.mul_le_mul (Nat.div_mul_le_self x A) (Nat.div_mul_le_self _ m)

/-- Each of the three divisions of the estimate loses less than one modulus. -/
theorem lt_estimate_mul_add (hA : 0 < A) (hB : 0 < B) (hm : A ≤ m) (hx : x < A * B) : x < estimate A B m x * m + 3 * m := by
  have hpos : 0 < m := hA.trans_le hm
  have hfirst : x / A * A + x % A = x := Nat.div_add_mod' x A
  have hrecip : A * B / m * m + A * B % m = A * B := Nat.div_add_mod' _ m
  have hlast : estimate A B m x * B + x / A * (A * B / m) % B = x / A * (A * B / m) := Nat.div_add_mod' _ B
  have hfirstLost : x % A * B ≤ m * B := Nat.mul_le_mul_right B ((Nat.mod_lt x hA).le.trans hm)
  have hrecipLost : x / A * (A * B % m) ≤ B * m := Nat.mul_le_mul (Nat.div_lt_of_lt_mul hx).le (Nat.mod_lt _ hpos).le
  have hlastLost : x / A * (A * B / m) % B * m < B * m := Nat.mul_lt_mul_of_pos_right (Nat.mod_lt _ hB) hpos
  refine Nat.lt_of_mul_lt_mul_right (a := B) ?_
  have hexact : x * B = estimate A B m x * m * B + x / A * (A * B / m) % B * m + x / A * (A * B % m) + x % A * B := by
    calc x * B = x / A * (A * B) + x % A * B := by rw [← Nat.mul_assoc, ← Nat.add_mul, hfirst]
      _ = x / A * (A * B / m * m + A * B % m) + x % A * B := by rw [hrecip]
      _ = x / A * (A * B / m) * m + x / A * (A * B % m) + x % A * B := by ring
      _ = (estimate A B m x * B + x / A * (A * B / m) % B) * m + x / A * (A * B % m) + x % A * B := by rw [hlast]
      _ = _ := by ring
  rw [hexact, Nat.add_mul, Nat.mul_assoc 3]
  rw [Nat.mul_comm B m] at hrecipLost hlastLost
  omega

/-- Two conditional subtractions bring a value below three moduli to its remainder. -/
theorem subOnce_subOnce (h : x < 3 * m) : subOnce (subOnce x m) m = x % m := by
  unfold subOnce
  split_ifs with hfirst hsecond
  · rw [Nat.mod_eq_sub_mod hfirst, Nat.mod_eq_sub_mod hsecond, Nat.mod_eq_of_lt (by omega)]
  · rw [Nat.mod_eq_sub_mod hfirst, Nat.mod_eq_of_lt (by omega)]
  · rw [Nat.mod_eq_of_lt (by omega)]

/-- A positive number has its highest bit at `bitLen - 1`. -/
theorem two_pow_le_of_bitLen (h : 0 < m) : 0 < bitLen m ∧ 2 ^ (bitLen m - 1) ≤ m := by
  rw [bitLen, if_neg h.ne']
  exact ⟨Nat.succ_pos _, Nat.log2_self_le h.ne'⟩
end

/-- Settles O54: the quotient of R624 is at most two below the true one, so its two subtractions leave the remainder. -/
theorem barrettReductionIsRemainder : Obligations.BarrettReductionIsRemainder := by
  unfold Obligations.BarrettReductionIsRemainder
  intro m x hm hx k t r r1 r2
  obtain ⟨hk, hlow⟩ := two_pow_le_of_bitLen hm
  have hsplit : 2 ^ (2 * k + 4) = 2 ^ (k - 1) * 2 ^ (k + 5) := by
    rw [← pow_add]
    congr 1
    omega
  have ht : t = estimate (2 ^ (k - 1)) (2 ^ (k + 5)) m x := by rw [estimate, ← hsplit]
  have hle : t * m ≤ x := ht ▸ estimate_mul_le (by positivity) (by positivity)
  have hlt : x < t * m + 3 * m := ht ▸ lt_estimate_mul_add (by positivity) (by positivity) hlow (hsplit ▸ hx)
  refine ⟨rfl, ?_, hle⟩
  calc r2 = r % m := subOnce_subOnce (by omega)
    _ = x % m := by
      rw [Nat.mul_comm] at hle
      rw [show r = x - m * t by rw [Nat.mul_comm], Nat.sub_mul_mod hle]

end Sys2Proof.Reduction
end

section
/-! The rows of the vector instructions (13 R393, R396, 15 R466). -/
namespace Sys2Proof.Bundles
open Sys2Proof Sys2Proof.Machine Sys2Proof.Claims

section
variable {n j op b : Nat} {i : Instr} {ops : List Nat}

theorem holdsRow_vector (hpush : scOp false (slotC b) ≠ 0x10) (hpop : scOp false (slotC b) ≠ 0x11) (hj : j < 2) (h : vOp (slotV b j) ∈ ops) :
    holdsRow b .v ops = true := by
  have hslot : vOp (slotV b 0) ∈ ops ∨ vOp (slotV b 1) ∈ ops := by
    interval_cases j
    · exact .inl h
    · exact .inr h
  simpa [holdsRow, hpush, hpop] using hslot

/-- The row of a vector opcode is a row of the V slots that names the opcode. -/
theorem exec_vectorRow (h : vectorRow n op = some i) : ∃ ops, op ∈ ops ∧ ∀ s, exec i s = issueRow n .v ops 0 .alone [] s := by
  unfold vectorRow at h
  split at h <;> cases h <;> exact ⟨_, by decide, fun _ => rfl⟩
end

/-- Settles O17: each row names the opcodes of its instructions in either V slot. -/
theorem vectorRowsIssue : Obligations.VectorRowsIssue := by
  unfold Obligations.VectorRowsIssue
  intro s n u b j i hissues hpush hpop hj _ hrow
  obtain ⟨ops, hop, hexec⟩ := exec_vectorRow hrow
  exact gives_of_issues (hexec s) (holdsRow_vector hpush hpop hj hop) hissues

end Sys2Proof.Bundles
end

section
/-! Frames, step by step, and registers of a page that stays. -/
namespace Sys2Proof.Frames
open Sys2Proof Sys2Proof.Machine Sys2Proof.Laws Sys2Proof.Claims

section
variable {s t w : State} {pg : Nat} {ps qs : List Nat}

theorem frame_refl (s : State) : Frame s s ps := ⟨rfl, fun _ _ => rfl⟩

/-- Taking the registers and messages of `s` back twice is taking them back once. -/
theorem back_back (s t w : State) : back s (back t w) = back s w := rfl

theorem frame_trans (h : Frame s t ps) (k : Frame t w ps) : Frame s w ps := by
  obtain ⟨hback, hregs⟩ := h
  obtain ⟨kback, kregs⟩ := k
  refine ⟨?_, fun off ho => (kregs off ho).trans (hregs off ho)⟩
  rw [← back_back s t w, kback, hback]

theorem frame_mono (h : Frame s t ps) (hsub : ps ⊆ qs) : Frame s t qs := ⟨h.1, fun off ho => h.2 off fun hin => ho (hsub hin)⟩

/-- A step that changes nothing but registers of a page and messages stays within a frame that has the page. -/
theorem frame_onPage (h : Frame s t ps) (k : OnPage pg t w) (hpg : pg ∈ ps) : Frame s w ps :=
  frame_trans h (frame_mono (Mesh.frame_of_onPage k) (by simpa using hpg))

/-- The memory is among what a frame keeps. -/
theorem mem_of_frame (h : Frame s t ps) : t.mem = s.mem := (congrArg State.mem h.1 :)

theorem sameBytes_of_frame (h : Frame s t ps) : SameBytes s t := RegisterPages.sameBytes_of_mem (mem_of_frame h)

/-- The cores may be taken back as well. -/
theorem frame_cores (h : Frame s t ps) : Frame s { t with cores := s.cores } ps :=
  ⟨congrArg (fun x : State => { x with cores := s.cores }) h.1, h.2⟩

/-- A part of the state that changed first may be taken back at the end. -/
theorem frame_tb {x : TimeBase} (h : Frame { s with tb := x } t ps) : Frame s { t with tb := s.tb } ps :=
  ⟨congrArg (fun w : State => { w with tb := s.tb }) h.1, h.2⟩

theorem frame_aud {x : Audio} (h : Frame { s with aud := x } t ps) : Frame s { t with aud := s.aud } ps :=
  ⟨congrArg (fun w : State => { w with aud := s.aud }) h.1, h.2⟩

theorem frame_csh {x : Csh} (h : Frame { s with csh := x } t ps) : Frame s { t with csh := s.csh } ps :=
  ⟨congrArg (fun w : State => { w with csh := s.csh }) h.1, h.2⟩

theorem rf_of_onPage {off hi lo : Nat} (h : OnPage pg s t) (hoff : off / 0x1000 ≠ pg) : rf t off hi lo = rf s off hi lo := by
  rw [rf, rf, h.regs off hoff]
end

end Sys2Proof.Frames
end

section
/-! A bundle issues: the bank and the core after it, and what stays (12 R371, 13 R396, R401, R410, R423, R427). -/
namespace Sys2Proof.Effects
open Sys2Proof Sys2Proof.Machine Sys2Proof.Laws Sys2Proof.Claims Sys2Proof.Bundles Sys2Proof.Cores Sys2Proof.Frames

/-! The stages of an issue, by name. -/

/-- What the slots of a bundle do one after the other: the state, and what they write into the bank. -/
def performed (s : State) (n : Nat) (u : Bool) (b : Nat) : State × Effect :=
  let k := bankNow s n u
  let v0 := vectorEffect s k b 0
  let v1 := vectorEffect v0.1 k b 1
  let a := scalarEffect v1.1 n k b
  let d := controlEffect a.1 n u k b 0 .alone
  (vectorStore (vectorStore (scalarStore d.1 n k b) k b 0) k b 1,
    { xs := a.2.xs ++ d.2.xs, froms := a.2.froms, ps := a.2.ps, vs := v0.2.vs ++ v1.2.vs, items := a.2.items ++ d.2.items })

/-- The state `t` in which the bundle of core `n` and the start of its bank's job are counted (R539). -/
def counted (t : State) (n : Nat) (k : Bank) : State := reportStart (bump t (R.ASH_BUNDLES n) 31 0 1) n k

/-- The places of the register store that the writes of a bundle touch (R402). -/
def places (u : Bool) (e : Effect) : List Nat :=
  ((e.xs.filter (·.1 ≠ 0)).map fun w => regPlace u w.1) ++ e.vs.map fun w => vregPlace u w.1

/-- The opcode of the C slot, 0 where its predicate does not hold. -/
def controlOp (b : Nat) (k : Bank) : Nat := if slotRuns b k 1 then scOp false (slotC b) else 0

/-- The bank `bk` with what a bundle issued on the bank `k` leaves in it besides its writes and the bundle address. -/
def noted (u : Bool) (b : Nat) (c : ArrayCmd) (k bk : Bank) : Bank :=
  { bk with loops := loopsAfter b k, decoded := 0, startNs := none, wsIssued := bk.wsIssued || (slotRuns b k 4 && c.op = 1 && c.df = 0),
            preempted := bk.preempted && !(controlOp b k = 0x0D && bit (scImm (slotC b)) 0 && !u) }

/-- The bank `bk` with the next bundle address, or the end of the job or of a loop (R423, R427). -/
def goOn (b : Nat) (k bk : Bank) : Bank :=
  if controlOp b k = 0x08 then { bk with ended := some (bits (scImm (slotC b)) 7 0) }
  else match transfer b k with
    | some t => { bk with pc := t }
    | none => if (innerLoop (loopsAfter b k) k.pc).isSome then { bk with atEnd := true } else { bk with pc := k.pc + 128 }

/-- The bank `bk` of the core after a bundle that was issued on the bank `k` and writes `e`. -/
def nextBank (u : Bool) (b : Nat) (c : ArrayCmd) (e : Effect) (k bk : Bank) : Bank := goOn b k (noted u b c k (writeBank bk e))

/-- The core `core` after such a bundle, but for the bank. -/
def nextUnits (u : Bool) (b : Nat) (c : ArrayCmd) (k : Bank) (core : Core) : Core :=
  let units := acceptUnits { core with seq := core.seq + 1 } k u b c
  { units with stalled := false, late := if ppMark b && !u && decide (k.decoded = 1) then false else units.late }

/-- The items of a bundle take their place in issue order. -/
def numbered (e : Effect) (seq : Nat) : Effect := { e with items := e.items.map fun it => { it with seq := seq } }

/-- The core after a bundle. -/
def nextCore (u : Bool) (b : Nat) (c : ArrayCmd) (e : Effect) (k : Bank) (core : Core) : Core :=
  updBank' (nextUnits u b c k core) u (nextBank u b c (numbered e core.seq) k)

section
variable {s : State} {n b : Nat} {u : Bool}

theorem issued_eq (s : State) (n : Nat) (u : Bool) (b : Nat) :
    issued s n u b = updCore (touchRegs (counted (performed s n u b).1 n (bankNow s n u)) n (places u (performed s n u b).2)) n
      (nextCore u b (cmdNow s n u b) (performed s n u b).2 (bankNow s n u)) := rfl

/-! The bank after the writes of a bundle. -/

section
variable {k bk : Bank} {e : Effect} {c : ArrayCmd}

/-- The write of one scalar register, of one predicate and of one vector register into a bank (R410, R421, R469). -/
def putX (froms : List (Nat × Nat)) (b : Bank) (w : Nat × Nat × Bool) : Bank :=
  if w.1 = 0 then b
  else { b with x := b.x.set w.1 (BitVec.ofNat 64 w.2.1), failed := SMap.del b.failed w.1,
                poisoned := if w.2.2 then NSet.add b.poisoned w.1 else NSet.del b.poisoned w.1,
                poisonAt := match if w.2.2 then froms.find? (·.1 = w.1) else none with
                  | some f => SMap.set b.poisonAt w.1 f.2
                  | none => SMap.del b.poisonAt w.1 }
def putP (b : Bank) (w : Nat × Bool) : Bank := if w.1 = 0 then b else { b with p := putBit b.p w.1 w.2 }
def putV (b : Bank) (w : Nat × VReg) : Bank := { b with v := b.v.set w.1 w.2 }

/-- The bank whose waiting items no longer reach the registers `new`. -/
def redirected (b : Bank) (new : List Nat) : Bank :=
  { b with items := b.items.map fun it => { it with regs := it.regs.map fun r => if new.contains r then 0 else r } }

/-- The bank with the items `its` added. -/
def joinItems (b : Bank) (its : List Item) : Bank := { b with items := b.items ++ its }

theorem writeBank_eq (k : Bank) (e : Effect) : writeBank k e =
    joinItems (e.vs.foldl putV (e.ps.foldl putP (e.xs.foldl (putX e.froms) (redirected k (e.xs.map (·.1) ++ e.items.flatMap (·.regs)))))) e.items := rfl

theorem foldl_keeps {α β γ : Type} {f : β → α → β} (g : β → γ) (hf : ∀ x a, g (f x a) = g x) (l : List α) (x : β) : g (l.foldl f x) = g x :=
  List.foldlRecOn (motive := fun y => g y = g x) l f rfl fun _ hy a _ => (hf _ a).trans hy

/-- The fields of a bank that no write of a bundle reaches. -/
def control (k : Bank) : Nat × Option Nat × Bool × List Loop × Bool × Bool × Nat := (k.pc, k.ended, k.atEnd, k.loops, k.preempted, k.wsIssued, k.decoded)

theorem control_putX (froms : List (Nat × Nat)) (b : Bank) (w : Nat × Nat × Bool) : control (putX froms b w) = control b := by
  unfold putX
  split <;> rfl

theorem control_putP (b : Bank) (w : Nat × Bool) : control (putP b w) = control b := by
  unfold putP
  split <;> rfl

theorem control_writeBank (k : Bank) (e : Effect) : control (writeBank k e) = control k := by
  rw [writeBank_eq]
  exact (foldl_keeps (f := putV) control (fun _ _ => rfl) e.vs _).trans ((foldl_keeps control control_putP e.ps _).trans (foldl_keeps control (control_putX e.froms) e.xs _))

/-- The scalar registers and the predicates after one write: register 0 stays (R410). -/
def setX (x : List W64) (w : Nat × Nat × Bool) : List W64 := if w.1 = 0 then x else x.set w.1 (BitVec.ofNat 64 w.2.1)
def setP (p : Nat) (w : Nat × Bool) : Nat := if w.1 = 0 then p else putBit p w.1 w.2

theorem x_putX (froms : List (Nat × Nat)) (b : Bank) (w : Nat × Nat × Bool) : (putX froms b w).x = setX b.x w := by
  unfold putX setX
  split <;> rfl

theorem p_putX (froms : List (Nat × Nat)) (b : Bank) (w : Nat × Nat × Bool) : (putX froms b w).p = b.p := by
  unfold putX
  split <;> rfl

theorem v_putX (froms : List (Nat × Nat)) (b : Bank) (w : Nat × Nat × Bool) : (putX froms b w).v = b.v := by
  unfold putX
  split <;> rfl

theorem x_putP (b : Bank) (w : Nat × Bool) : (putP b w).x = b.x := by
  unfold putP
  split <;> rfl

theorem p_putP (b : Bank) (w : Nat × Bool) : (putP b w).p = setP b.p w := by
  unfold putP setP
  split <;> rfl

theorem v_putP (b : Bank) (w : Nat × Bool) : (putP b w).v = b.v := by
  unfold putP
  split <;> rfl

theorem x_writeBank (k : Bank) (e : Effect) : (writeBank k e).x = e.xs.foldl setX k.x := by
  rw [writeBank_eq]
  refine (foldl_keeps (f := putV) Bank.x (fun _ _ => rfl) e.vs _).trans ((foldl_keeps Bank.x x_putP e.ps _).trans ?_)
  exact (List.foldl_hom Bank.x fun b w => (x_putX e.froms b w).symm).symm

theorem p_writeBank (k : Bank) (e : Effect) : (writeBank k e).p = e.ps.foldl setP k.p := by
  rw [writeBank_eq]
  refine (foldl_keeps (f := putV) Bank.p (fun _ _ => rfl) e.vs _).trans ((List.foldl_hom Bank.p fun b w => (p_putP b w).symm).symm.trans ?_)
  rw [foldl_keeps Bank.p (p_putX e.froms)]
  rfl

theorem v_writeBank (k : Bank) (e : Effect) : (writeBank k e).v = e.vs.foldl (fun v w => v.set w.1 w.2) k.v := by
  rw [writeBank_eq]
  refine (List.foldl_hom (g₁ := putV) (g₂ := fun v w => v.set w.1 w.2) Bank.v fun _ _ => rfl).symm.trans ?_
  rw [foldl_keeps Bank.v v_putP, foldl_keeps Bank.v (v_putX e.froms)]
  rfl
end

/-! The bank after a bundle. -/

section
variable {k : Bank} {c : ArrayCmd} {e : Effect}

/-- The registers and the flags of a bank, which the bundle address and the ends are not among. -/
def kept (k : Bank) : List W64 × Nat × List VReg × List Loop × Bool := (k.x, k.p, k.v, k.loops, k.preempted)

theorem kept_goOn (b : Nat) (k bk : Bank) : kept (goOn b k bk) = kept bk := by
  unfold goOn
  split
  · rfl
  · split
    · rfl
    · split <;> rfl

theorem kept_nextBank (u : Bool) (b : Nat) (c : ArrayCmd) (e : Effect) (k bk : Bank) :
    kept (nextBank u b c e k bk) = kept (noted u b c k (writeBank bk e)) := kept_goOn b k _

theorem x_nextBank (u : Bool) (b : Nat) (c : ArrayCmd) (e : Effect) (k bk : Bank) : (nextBank u b c e k bk).x = e.xs.foldl setX bk.x :=
  (congrArg (·.1) (kept_nextBank u b c e k bk)).trans (x_writeBank bk e)

theorem p_nextBank (u : Bool) (b : Nat) (c : ArrayCmd) (e : Effect) (k bk : Bank) : (nextBank u b c e k bk).p = e.ps.foldl setP bk.p :=
  (congrArg (·.2.1) (kept_nextBank u b c e k bk)).trans (p_writeBank bk e)

theorem v_nextBank (u : Bool) (b : Nat) (c : ArrayCmd) (e : Effect) (k bk : Bank) :
    (nextBank u b c e k bk).v = e.vs.foldl (fun v w => v.set w.1 w.2) bk.v :=
  (congrArg (·.2.2.1) (kept_nextBank u b c e k bk)).trans (v_writeBank bk e)

theorem loops_nextBank (u : Bool) (b : Nat) (c : ArrayCmd) (e : Effect) (k bk : Bank) : (nextBank u b c e k bk).loops = loopsAfter b k :=
  congrArg (·.2.2.2.1) (kept_nextBank u b c e k bk)

theorem preempted_nextBank (u : Bool) (b : Nat) (c : ArrayCmd) (e : Effect) (k bk : Bank) : (nextBank u b c e k bk).preempted =
    (bk.preempted && !(controlOp b k = 0x0D && bit (scImm (slotC b)) 0 && !u)) := by
  refine (congrArg (·.2.2.2.2) (kept_nextBank u b c e k bk)).trans ?_
  have hpreempted : (writeBank bk e).preempted = bk.preempted := congrArg (·.2.2.2.2.1) (control_writeBank bk e)
  simp only [kept, noted, hpreempted]

/-- A bundle that transfers control goes to its target. -/
theorem pc_nextBank_of_transfer {t : Nat} (hop : controlOp b k ≠ 0x08) (h : transfer b k = some t) (bk : Bank) : (nextBank u b c e k bk).pc = t := by
  rw [nextBank, goOn, if_neg hop, h]

/-- A bundle that neither ends the job nor transfers control nor ends a loop is followed by the next in memory. -/
theorem pc_nextBank_straight (hop : controlOp b k ≠ 0x08) (h : transfer b k = none) (hloop : innerLoop (loopsAfter b k) k.pc = none) (bk : Bank) :
    (nextBank u b c e k bk).pc = k.pc + 128 := by
  rw [nextBank, goOn, if_neg hop, h, hloop]
  rfl

theorem ended_nextBank (hop : controlOp b k = 0x08) (bk : Bank) : (nextBank u b c e k bk).ended = some (bits (scImm (slotC b)) 7 0) := by
  rw [nextBank, goOn, if_pos hop]
end

/-! The core after a bundle. -/

section
variable {k : Bank} {c : ArrayCmd} {e : Effect}

theorem bankOf'_updMover (core : Core) (i : Nat) (f : List MoverOp → List MoverOp) (v : Bool) : bankOf' (updMover core i f) v = bankOf' core v := by
  cases v <;> rfl

theorem bankOf'_acceptUnits (core : Core) (k : Bank) (u : Bool) (b : Nat) (c : ArrayCmd) (v : Bool) :
    bankOf' (acceptUnits core k u b c) v = bankOf' core v := by
  unfold acceptUnits
  refine (foldl_keeps (fun core => bankOf' core v) (fun core i => ?_) _ _).trans ?_
  · dsimp only
    split
    · rfl
    · exact bankOf'_updMover _ _ _ v
  · split <;> cases v <;> rfl

theorem bankOf'_nextUnits (core : Core) (v : Bool) : bankOf' (nextUnits u b c k core) v = bankOf' core v := by
  refine Eq.trans ?_ ((bankOf'_acceptUnits { core with seq := core.seq + 1 } k u b c v).trans ?_) <;> cases v <;> rfl

theorem bankOf'_updBank'_other (core : Core) (u : Bool) (f : Bank → Bank) : bankOf' (updBank' core u f) (!u) = bankOf' core (!u) := by
  cases u <;> rfl

theorem coreOf_updCore_ne {t : State} {n m : Nat} {f : Core → Core} (h : m ≠ n) : coreOf (updCore t n f) m = coreOf t m := by
  rw [coreOf, coreOf, nth, nth, show (updCore t n f).cores = t.cores.modify n f from rfl, List.getElem?_modify_ne f _ (Ne.symm h)]

theorem bankOf'_nextCore (core : Core) : bankOf' (nextCore u b c e k core) u = nextBank u b c (numbered e core.seq) k (bankOf' core u) := by
  rw [nextCore, bankOf'_updBank'_self, bankOf'_nextUnits]

theorem bankOf'_nextCore_other (core : Core) : bankOf' (nextCore u b c e k core) (!u) = bankOf' core (!u) := by
  rw [nextCore, bankOf'_updBank'_other, bankOf'_nextUnits]
end

/-! The state after a bundle. -/

/-- Core `n` issues the bundle `b` on its bank `u`: no bit of its stores has flipped and no injection is armed. -/
structure Issuing (s : State) (n : Nat) (u : Bool) (b : Nat) : Prop extends Free s n u b where
  small : n < 8
  inRange : n < s.cores.length
  unarmed : rf s R.FLT_INJ_STATUS 1 0 ≠ 1
  within : presents n s = false

theorem issuing_of_issues (h : Issues s n u b = true) : Issuing s n u b := by
  obtain ⟨hready, hpresents⟩ := (Bool.and_eq_true _ _).mp h
  have hranges := hready
  simp only [Ready, Bool.and_eq_true, decide_eq_true_eq, and_assoc] at hranges
  obtain ⟨small, inRange, -, -, -, -, -, -, -, -, -, -, -, -, -, -, -, -, unarmed⟩ := hranges
  exact { free_of_ready hready with small, inRange, unarmed, within := by simpa using hpresents }

theorem injFire_unarmed (h : rf s R.FLT_INJ_STATUS 1 0 ≠ 1) (target : Nat) (p : Nat → Bool) : injFire s target p = (s, false) :=
  if_neg fun hfires => h hfires.1

theorem touchRegs_unarmed (hflips : (coreOf s n).flips = []) (h : rf s R.FLT_INJ_STATUS 1 0 ≠ 1) (ps : List Nat) : touchRegs s n ps = s := by
  obtain hsame | ⟨p, hfired⟩ := touchRegs_unflipped (places := ps) hflips
  · exact hsame
  · rw [hfired, flipStore, injFire_unarmed h, injFire_unarmed h]
    rfl

theorem onPage_reportStart (t : State) (n : Nat) (k : Bank) : OnPage P.dpt t (reportStart t n k) := by
  have hpeak (ns : Nat) : OnPage P.dpt t (peak t R.DPT_URGENT_PEAK 15 0 ns) := onPage_wf (by decide)
  unfold reportStart
  split
  · exact .refl _ _
  · exact .ite (((hpeak _).trans (onPage_hwFault _ _)).trans (onPage_raise _)) (hpeak _)

theorem onPage_bundles (t : State) (n : Nat) : OnPage (P.ash n) t (bump t (R.ASH_BUNDLES n) 31 0 1) := onPage_bump (by unfold R.ASH_BUNDLES P.ash; omega)

section
variable {t : State} {k : Bank}

theorem cores_counted : (counted t n k).cores = t.cores :=
  (cores_of_onPage (onPage_reportStart _ n k)).trans (cores_of_onPage (onPage_bundles t n))

theorem frame_counted : Frame t (counted t n k) [P.ash n, P.dpt] :=
  frame_onPage (frame_onPage (frame_refl t) (onPage_bundles t n) (by simp)) (onPage_reportStart _ n k) (by simp)

theorem mem_counted : (counted t n k).mem = t.mem :=
  (mem_of_frame frame_counted)

theorem unarmed_counted (h : rf t R.FLT_INJ_STATUS 1 0 ≠ 1) : rf (counted t n k) R.FLT_INJ_STATUS 1 0 ≠ 1 := by
  have hash : rf (bump t (R.ASH_BUNDLES n) 31 0 1) R.FLT_INJ_STATUS 1 0 = rf t R.FLT_INJ_STATUS 1 0 :=
    rf_of_onPage (onPage_bundles t n) (by unfold R.FLT_INJ_STATUS P.ash; omega)
  rwa [counted, rf_of_onPage (onPage_reportStart _ n k) (by decide), hash]
end

/-! What a bundle leaves, where nothing but its slots acts on the core. -/

/-- The slots leave the cores, and no injection meets the registers that they write. -/
structure Quiet (s : State) (n : Nat) (u : Bool) (b : Nat) : Prop where
  cores : (performed s n u b).1.cores = s.cores
  unmet : places u (performed s n u b).2 = [] ∨ rf (performed s n u b).1 R.FLT_INJ_STATUS 1 0 ≠ 1

/-- The effect of the bundle's slots with its items in issue order. -/
def effectOf (s : State) (n : Nat) (u : Bool) (b : Nat) : Effect := numbered (performed s n u b).2 (coreOf s n).seq

theorem issued_quiet (h : Issuing s n u b) (hq : Quiet s n u b) : issued s n u b =
    updCore (counted (performed s n u b).1 n (bankNow s n u)) n (nextCore u b (cmdNow s n u b) (performed s n u b).2 (bankNow s n u)) := by
  have hflips : (coreOf (counted (performed s n u b).1 n (bankNow s n u)) n).flips = [] := by
    rw [coreOf_congr (cores_counted.trans hq.cores), h.noFlips]
  have htouch : touchRegs (counted (performed s n u b).1 n (bankNow s n u)) n (places u (performed s n u b).2) =
      counted (performed s n u b).1 n (bankNow s n u) := by
    obtain hnone | hunarmed := hq.unmet
    · rw [hnone]
      rfl
    · exact touchRegs_unarmed hflips (unarmed_counted hunarmed) _
  rw [issued_eq, htouch]

theorem coreOf_issued (h : Issuing s n u b) (hq : Quiet s n u b) :
    coreOf (issued s n u b) n = nextCore u b (cmdNow s n u b) (performed s n u b).2 (bankNow s n u) (coreOf s n) := by
  have hcores := cores_counted (t := (performed s n u b).1) (n := n) (k := bankNow s n u)
  rw [issued_quiet h hq, coreOf_updCore_self (by rw [hcores, hq.cores]; exact h.inRange), coreOf_congr (hcores.trans hq.cores)]

/-- The bank that issued, after its bundle. -/
theorem bankNow_issued (h : Issuing s n u b) (hq : Quiet s n u b) :
    bankNow (issued s n u b) n u = nextBank u b (cmdNow s n u b) (effectOf s n u b) (bankNow s n u) (bankNow s n u) := by
  rw [bankNow, coreOf_issued h hq, bankOf'_nextCore]
  rfl

theorem otherBanks_issued (h : Issuing s n u b) (hq : Quiet s n u b) : OtherBanks s (issued s n u b) n u := by
  constructor
  · rw [bankNow, coreOf_issued h hq, bankOf'_nextCore_other]
  · intro m hm
    rw [issued_quiet h hq, coreOf_updCore_ne hm, coreOf_congr (cores_counted.trans hq.cores)]

theorem mem_issued (h : Issuing s n u b) (hq : Quiet s n u b) : (issued s n u b).mem = (performed s n u b).1.mem := by
  rw [issued_quiet h hq]
  exact mem_counted

/-- A bundle that asks nothing of the machine changes no more of it than its cores and counters. -/
theorem frame_issued (h : Issuing s n u b) (hsame : (performed s n u b).1 = s) :
    Frame s { issued s n u b with cores := s.cores } [P.ash n, P.dpt] := by
  rw [issued_quiet h ⟨by rw [hsame], .inr (by rw [hsame]; exact h.unarmed)⟩, hsame]
  have hframe := frame_cores (frame_counted (t := s) (n := n) (k := bankNow s n u))
  exact hframe
end

end Sys2Proof.Effects
end

section
/-! The slots of a bundle that holds one instruction, and a register after one write (13 R396, R408, R410, R411). -/
namespace Sys2Proof.Effects
open Sys2Proof Sys2Proof.Machine Sys2Proof.Laws Sys2Proof.Claims Sys2Proof.Bundles

section
variable {s : State} {n b i : Nat} {u : Bool} {k : Bank}

/-! Slots that hold no instruction. -/

/-- Every slot but the S slot is idle; but the C slot; but V slot 0; but the A and M slots. -/
theorem idle_of_onlyS (h : onlyS b = true) (k : Bank) : ∀ i, i ≠ 0 → i < 7 → slotRuns b k i = false := by
  simp only [onlyS, Bool.and_eq_true, decide_eq_true_eq] at h
  obtain ⟨⟨⟨⟨⟨hc, hv0⟩, hv1⟩, ha⟩, hm0⟩, hm1⟩ := h
  intro i h0 h7
  interval_cases i <;> simp_all [slotRuns]

theorem idle_of_onlyC (h : onlyC b = true) (k : Bank) : ∀ i, i ≠ 1 → i < 7 → slotRuns b k i = false := by
  simp only [onlyC, Bool.and_eq_true, decide_eq_true_eq] at h
  obtain ⟨⟨⟨⟨⟨hs, hv0⟩, hv1⟩, ha⟩, hm0⟩, hm1⟩ := h
  intro i h1 h7
  interval_cases i <;> simp_all [slotRuns]

theorem idle_of_onlyV (h : onlyV b = true) (k : Bank) : ∀ i, i ≠ 2 → i < 7 → slotRuns b k i = false := by
  simp only [onlyV, Bool.and_eq_true, decide_eq_true_eq] at h
  obtain ⟨⟨⟨⟨⟨hs, hc⟩, hv1⟩, ha⟩, hm0⟩, hm1⟩ := h
  intro i h2 h7
  interval_cases i <;> simp_all [slotRuns]

theorem idle_of_onlyUnits (h : onlyUnits b = true) (k : Bank) : ∀ i, i < 4 → slotRuns b k i = false := by
  simp only [onlyUnits, Bool.and_eq_true, decide_eq_true_eq] at h
  obtain ⟨⟨⟨hs, hc⟩, hv0⟩, hv1⟩ := h
  intro i h4
  interval_cases i <;> simp_all [slotRuns]

theorem scalarEffect_idle (h : slotRuns b k 0 = false) : scalarEffect s n k b = (s, {}) := if_pos (by simp [h])

theorem scalarStore_idle (h : slotRuns b k 0 = false) : scalarStore s n k b = s := if_pos (by simp [h])

theorem controlEffect_idle {cycles : Nat} {meet : HodMeet} (h : slotRuns b k 1 = false) : controlEffect s n u k b cycles meet = (s, {}) := if_pos (by simp [h])

theorem vectorEffect_idle (h : slotRuns b k (2 + i) = false) : vectorEffect s k b i = (s, {}) := if_pos (by simp [h])

theorem vectorStore_idle (h : slotRuns b k (2 + i) = false) : vectorStore s k b i = s := if_pos (by simp [h])

theorem controlOp_idle (h : slotRuns b k 1 = false) : controlOp b k = 0 := if_neg (by simp [h])

theorem transfer_idle (h : slotRuns b k 1 = false) : transfer b k = none := if_pos (by simp [h])

theorem loopsAfter_idle (h : slotRuns b k 1 = false) : loopsAfter b k = k.loops := if_pos (by simp [h])

end

/-! What the one instruction does is what the bundle does. -/

section
variable {s : State} {n b : Nat} {u : Bool}

theorem performed_onlyS (h : onlyS b = true) : performed s n u b =
    (scalarStore (scalarEffect s n (bankNow s n u) b).1 n (bankNow s n u) b,
      { xs := (scalarEffect s n (bankNow s n u) b).2.xs, froms := (scalarEffect s n (bankNow s n u) b).2.froms,
        ps := (scalarEffect s n (bankNow s n u) b).2.ps, items := (scalarEffect s n (bankNow s n u) b).2.items }) := by
  simp [performed, vectorEffect_idle, vectorStore_idle, controlEffect_idle, idle_of_onlyS h]

theorem performed_onlyC (h : onlyC b = true) : performed s n u b =
    ((controlEffect s n u (bankNow s n u) b 0 .alone).1,
      { xs := (controlEffect s n u (bankNow s n u) b 0 .alone).2.xs, items := (controlEffect s n u (bankNow s n u) b 0 .alone).2.items }) := by
  simp [performed, vectorEffect_idle, vectorStore_idle, scalarEffect_idle, scalarStore_idle, idle_of_onlyC h]

theorem performed_onlyV (h : onlyV b = true) : performed s n u b =
    (vectorStore (vectorEffect s (bankNow s n u) b 0).1 (bankNow s n u) b 0, { vs := (vectorEffect s (bankNow s n u) b 0).2.vs }) := by
  simp [performed, vectorEffect_idle, vectorStore_idle, scalarEffect_idle, scalarStore_idle, controlEffect_idle, idle_of_onlyV h]

theorem performed_onlyUnits (h : onlyUnits b = true) : performed s n u b = (s, {}) := by
  simp [performed, vectorEffect_idle, vectorStore_idle, scalarEffect_idle, scalarStore_idle, controlEffect_idle, idle_of_onlyUnits h]
end

/-! A row runs its bundle. -/

section
variable {s : State} {n b : Nat} {u : Bool} {i : Instr} {P : State → Prop}

theorem runs_scalar (h : Issues s n u b = true) (honly : onlyS b = true) (hrow : scalarRow n (scOp true (slotS b)) = some i) (hP : P (issued s n u b)) :
    Runs i s P := by
  have hcontrol : scOp false (slotC b) = 0 := by
    simp only [onlyS, Bool.and_eq_true, decide_eq_true_eq] at honly
    exact honly.1.1.1.1.1
  obtain ⟨ops, hop, hexec⟩ := namedBy_of_scalarRow hrow
  exact ⟨_, gives_of_issues (hexec s) (holdsRow_scalar (by simp [hcontrol]) (by simp [hcontrol]) hop) h, hP⟩

theorem runs_control (h : Issues s n u b = true) (hrow : controlRow n (scOp false (slotC b)) = some i) (hP : P (issued s n u b)) : Runs i s P :=
  ⟨_, gives_of_issues (exec_controlRow hrow s) (holdsRow_control (List.mem_singleton.mpr rfl)) h, hP⟩

theorem runs_vector (h : Issues s n u b = true) (honly : onlyV b = true) (hrow : vectorRow n (vOp (slotV b 0)) = some i) (hP : P (issued s n u b)) :
    Runs i s P := by
  have hcontrol : scOp false (slotC b) = 0 := by
    simp only [onlyV, Bool.and_eq_true, decide_eq_true_eq] at honly
    exact honly.1.1.1.1.2
  obtain ⟨ops, hop, hexec⟩ := exec_vectorRow hrow
  exact ⟨_, gives_of_issues (hexec s) (holdsRow_vector (by simp [hcontrol]) (by simp [hcontrol]) (by decide) hop) h, hP⟩
end

/-! A register after one write. -/

section
variable {k bk : Bank} {d v : Nat} {bad : Bool}

theorem bits_lt (v hi lo : Nat) : bits v hi lo < 2 ^ (hi + 1 - lo) := Nat.mod_lt _ (Nat.two_pow_pos _)

theorem nth_set {α : Type} {l : List α} {x y : α} (hd : d < l.length) (i : Nat) : nth (l.set d x) i y = if i = d then x else nth l i y := by
  unfold nth
  rw [List.getElem?_set]
  by_cases hi : i = d
  · simp [hi, hd]
  · rw [if_neg (Ne.symm hi), if_neg hi]

theorem xr_set (hx : bk.x = setX k.x (d, v, bad)) (hlen : k.x.length = 32) (hd : d < 32) (i : Nat) :
    xr bk i = if i ≠ 0 ∧ i = d then v % 2 ^ 64 else xr k i := by
  unfold xr
  rw [hx, setX]
  by_cases hi : i = 0
  · simp [hi]
  · by_cases h0 : d = 0
    · simp [hi, h0]
    · rw [if_neg hi, if_neg h0, nth_set (by rw [hlen]; exact hd)]
      by_cases hid : i = d
      · rw [if_pos hid, if_pos (And.intro hi hid), BitVec.toNat_ofNat]
      · rw [if_neg hid, if_neg fun h => hid h.2, if_neg hi]

theorem xr_congr (h : bk.x = k.x) (i : Nat) : xr bk i = xr k i := by
  unfold xr
  rw [h]

theorem bit_setP (p : Nat) {d : Nat} (hd : d ≠ 0) (q : Bool) (i : Nat) : bit (setP p (d, q)) i = if i = d then q else bit p i := by
  rw [setP, if_neg hd, putBit, bit, testBit_putBits]
  by_cases hid : i = d
  · cases q <;> simp [hid, b2n]
  · rw [if_neg (by omega), if_neg hid]
    rfl

theorem pr_set {q : Bool} (hp : bk.p = setP k.p (d, q)) (i : Nat) : pr bk i = if i ≠ 0 ∧ i = d then q else pr k i := by
  unfold pr
  rw [hp]
  by_cases hi : i = 0
  · simp [hi]
  · by_cases h0 : d = 0
    · simp [hi, h0, setP]
    · rw [bit_setP _ h0]
      by_cases hid : i = d
      · simp [hid, h0]
      · simp [hi, hid]
end

/-! A bundle that asks nothing of the machine and writes `e` into its bank. -/

/-- The bundle `b` of bank `u` of core `n` issues; its slots write `e` and change nothing else. -/
structure Acts (s : State) (n : Nat) (u : Bool) (b : Nat) (e : Effect) : Prop extends Issuing s n u b where
  performed : performed s n u b = (s, e)

section
variable {s : State} {n b : Nat} {u : Bool} {e : Effect}

theorem Acts.same (h : Acts s n u b e) : (Effects.performed s n u b).1 = s := by rw [h.performed]

theorem Acts.quiet (h : Acts s n u b e) : Quiet s n u b := ⟨by rw [h.same], .inr (by rw [h.same]; exact h.unarmed)⟩

theorem Acts.others (h : Acts s n u b e) : OtherBanks s (issued s n u b) n u := otherBanks_issued h.toIssuing h.quiet

theorem Acts.frame (h : Acts s n u b e) : Frame s { issued s n u b with cores := s.cores } [P.ash n, P.dpt] := frame_issued h.toIssuing h.same

theorem x_issued (h : Issuing s n u b) (hq : Quiet s n u b) : (bankNow (issued s n u b) n u).x = (performed s n u b).2.xs.foldl setX (bankNow s n u).x := by
  rw [bankNow_issued h hq, x_nextBank]
  rfl

theorem p_issued (h : Issuing s n u b) (hq : Quiet s n u b) : (bankNow (issued s n u b) n u).p = (performed s n u b).2.ps.foldl setP (bankNow s n u).p := by
  rw [bankNow_issued h hq, p_nextBank]
  rfl

theorem v_issued (h : Issuing s n u b) (hq : Quiet s n u b) :
    (bankNow (issued s n u b) n u).v = (performed s n u b).2.vs.foldl (fun v w => v.set w.1 w.2) (bankNow s n u).v := by
  rw [bankNow_issued h hq, v_nextBank]
  rfl

theorem loops_issued (h : Issuing s n u b) (hq : Quiet s n u b) : (bankNow (issued s n u b) n u).loops = loopsAfter b (bankNow s n u) := by
  rw [bankNow_issued h hq, loops_nextBank]

theorem Acts.x (h : Acts s n u b e) : (bankNow (issued s n u b) n u).x = e.xs.foldl setX (bankNow s n u).x := by
  rw [x_issued h.toIssuing h.quiet, h.performed]

theorem Acts.p (h : Acts s n u b e) : (bankNow (issued s n u b) n u).p = e.ps.foldl setP (bankNow s n u).p := by
  rw [p_issued h.toIssuing h.quiet, h.performed]

theorem Acts.v (h : Acts s n u b e) : (bankNow (issued s n u b) n u).v = e.vs.foldl (fun v w => v.set w.1 w.2) (bankNow s n u).v := by
  rw [v_issued h.toIssuing h.quiet, h.performed]

/-- One scalar register is written. -/
theorem Acts.xr {d v : Nat} {bad : Bool} (h : Acts s n u b e) (hxs : e.xs = [(d, v, bad)]) (hwide : (bankNow s n u).x.length = 32) (hd : d < 32) (i : Nat) :
    Machine.xr (bankNow (issued s n u b) n u) i = if i ≠ 0 ∧ i = d then v % 2 ^ 64 else Machine.xr (bankNow s n u) i := by
  refine xr_set (bad := bad) ?_ hwide hd i
  rw [h.x, hxs]
  rfl

/-- No scalar register is written. -/
theorem Acts.xr_same (h : Acts s n u b e) (hxs : e.xs = []) (i : Nat) : Machine.xr (bankNow (issued s n u b) n u) i = Machine.xr (bankNow s n u) i := by
  refine xr_congr ?_ i
  rw [h.x, hxs]
  rfl

/-- One predicate is written. -/
theorem Acts.pr {d : Nat} {q : Bool} (h : Acts s n u b e) (hps : e.ps = [(d, q)]) (i : Nat) :
    Machine.pr (bankNow (issued s n u b) n u) i = if i ≠ 0 ∧ i = d then q else Machine.pr (bankNow s n u) i := by
  refine pr_set ?_ i
  rw [h.p, hps]
  rfl

/-- A bundle whose C slot holds no instruction is followed by the next, where no loop ends there. -/
theorem pc_issued_idle (h : Issuing s n u b) (hq : Quiet s n u b) (hidle : slotRuns b (bankNow s n u) 1 = false) (hstraight : Straight (bankNow s n u)) :
    (bankNow (issued s n u b) n u).pc = (bankNow s n u).pc + 128 := by
  rw [bankNow_issued h hq]
  refine pc_nextBank_straight ?_ (transfer_idle hidle) ?_ _
  · rw [controlOp_idle hidle]
    decide
  · rwa [loopsAfter_idle hidle]
end

end Sys2Proof.Effects
end

section
/-! The integer operations of the S slot on 64-bit words (13 R419). -/
namespace Sys2Proof.Scalar
open Sys2Proof Sys2Proof.Machine

section
variable (x y : BitVec 64)

theorem s64_toNat : s64 x.toNat = x.toInt := by
  have hlt := x.isLt
  rw [s64, sx, BitVec.toInt_eq_toNat_cond, Nat.mod_eq_of_lt hlt]
  split_ifs <;> omega

theorem ofNat_unsx (z : Int) : BitVec.ofNat 64 (unsx 64 z) = BitVec.ofInt 64 z := by
  refine BitVec.eq_of_toNat_eq ?_
  rw [BitVec.toNat_ofNat, BitVec.toNat_ofInt, unsx]
  omega

theorem ofNat_toNat (z : BitVec 64) : BitVec.ofNat 64 z.toNat = z := by simp

theorem ofInt_toInt_div (m : Nat) : BitVec.ofInt 64 (x.toInt / (2 ^ m : Nat)) = x.sshiftRight m := by
  rw [BitVec.sshiftRight, Int.shiftRight_eq_div_pow]

/-- ADD to SRA (opcodes 0x01 to 0x08). -/
theorem aluResult_add : BitVec.ofNat 64 (aluResult 0x01 x.toNat y.toNat) = x + y := by
  rw [aluResult, ← BitVec.toNat_add, ofNat_toNat]

theorem aluResult_sub : BitVec.ofNat 64 (aluResult 0x02 x.toNat y.toNat) = x - y := by
  rw [aluResult, ofNat_unsx]
  refine BitVec.eq_of_toNat_eq ?_
  have hx := x.isLt
  have hy := y.isLt
  rw [BitVec.toNat_sub, BitVec.toNat_ofInt]
  omega

theorem aluResult_and : BitVec.ofNat 64 (aluResult 0x03 x.toNat y.toNat) = x &&& y := by rw [aluResult, ← BitVec.toNat_and, ofNat_toNat]

theorem aluResult_or : BitVec.ofNat 64 (aluResult 0x04 x.toNat y.toNat) = x ||| y := by rw [aluResult, ← BitVec.toNat_or, ofNat_toNat]

theorem aluResult_xor : BitVec.ofNat 64 (aluResult 0x05 x.toNat y.toNat) = x ^^^ y := by rw [aluResult, ← BitVec.toNat_xor, ofNat_toNat]

theorem aluResult_sll : BitVec.ofNat 64 (aluResult 0x06 x.toNat y.toNat) = x <<< (y.toNat % 64) := by
  rw [aluResult, ← BitVec.toNat_shiftLeft, ofNat_toNat]

theorem aluResult_srl : BitVec.ofNat 64 (aluResult 0x07 x.toNat y.toNat) = x >>> (y.toNat % 64) := by
  rw [aluResult, ← BitVec.toNat_ushiftRight, ofNat_toNat]

theorem aluResult_sra : BitVec.ofNat 64 (aluResult 0x08 x.toNat y.toNat) = x.sshiftRight (y.toNat % 64) := by
  rw [aluResult, ofNat_unsx, s64_toNat, ofInt_toInt_div] <;> decide

/-- The comparisons of two's complement numbers and of magnitudes. -/
theorem s64_lt : (s64 x.toNat < s64 y.toNat) ↔ x.slt y = true := by
  rw [s64_toNat, s64_toNat, BitVec.slt_iff_toInt_lt]

theorem toNat_lt : (x.toNat < y.toNat) ↔ x.ult y = true := BitVec.ult_iff_toNat_lt.symm

theorem setLessResult_slt : BitVec.ofNat 64 (setLessResult 0x09 x.toNat y.toNat) = if x.slt y then 1 else 0 := by
  simp only [setLessResult, b2n, if_pos, s64_lt]
  cases x.slt y <;> rfl

theorem setLessResult_ult : BitVec.ofNat 64 (setLessResult 0x0A x.toNat y.toNat) = if x.ult y then 1 else 0 := by
  simp only [setLessResult, b2n, if_neg (show ¬(0x0A : Nat) = 0x09 by decide), toNat_lt]
  cases x.ult y <;> rfl

theorem minMaxResult_min : BitVec.ofNat 64 (minMaxResult 0x0B x.toNat y.toNat) = if x.slt y then x else y := by
  simp only [minMaxResult, s64_lt]
  split <;> exact ofNat_toNat _

theorem minMaxResult_max : BitVec.ofNat 64 (minMaxResult 0x0C x.toNat y.toNat) = if x.slt y then y else x := by
  simp only [minMaxResult, s64_lt]
  split <;> exact ofNat_toNat _

theorem minMaxResult_minu : BitVec.ofNat 64 (minMaxResult 0x0D x.toNat y.toNat) = if x.ult y then x else y := by
  simp only [minMaxResult, ← toNat_lt]
  split
  · rw [Nat.min_eq_left (by omega), ofNat_toNat]
  · rw [Nat.min_eq_right (by omega), ofNat_toNat]

theorem minMaxResult_maxu : BitVec.ofNat 64 (minMaxResult 0x0E x.toNat y.toNat) = if x.ult y then y else x := by
  simp only [minMaxResult, ← toNat_lt]
  split
  · rw [Nat.max_eq_right (by omega), ofNat_toNat]
  · rw [Nat.max_eq_left (by omega), ofNat_toNat]

theorem satI_eq (z : Int) : satI 64 z = max (-(2 ^ 63)) (min (2 ^ 63 - 1) z) := by
  simp only [satI]
  split_ifs <;> omega

theorem satResult_adds : BitVec.ofNat 64 (satResult 0x0F x.toNat y.toNat) =
    BitVec.ofInt 64 (max (-(2 ^ 63)) (min (2 ^ 63 - 1) (x.toInt + y.toInt))) := by
  rw [satResult, ofNat_unsx, if_pos rfl, satI_eq, s64_toNat, s64_toNat]

theorem satResult_subs : BitVec.ofNat 64 (satResult 0x10 x.toNat y.toNat) =
    BitVec.ofInt 64 (max (-(2 ^ 63)) (min (2 ^ 63 - 1) (x.toInt - y.toInt))) := by
  rw [satResult, ofNat_unsx, if_neg (by decide), satI_eq, s64_toNat, s64_toNat]

theorem mulResult_mul : BitVec.ofNat 64 (mulResult x.toNat y.toNat) = x * y := by rw [mulResult, ← BitVec.toNat_mul, ofNat_toNat]

theorem mulHighResult_mulh : BitVec.ofNat 64 (mulHighResult 0x12 x.toNat y.toNat) = BitVec.ofInt 64 (x.toInt * y.toInt / 2 ^ 64) := by
  rw [mulHighResult, if_pos rfl, ofNat_unsx, s64_toNat, s64_toNat]
  rfl

theorem toNat_eq_zero : y.toNat = 0 ↔ y = 0 := ⟨fun h => BitVec.eq_of_toNat_eq h, fun h => by rw [h]; rfl⟩

theorem divResult_div : BitVec.ofNat 64 (divResult 0x14 x.toNat y.toNat) = if y = 0 then BitVec.allOnes 64 else x.sdiv y := by
  simp only [divResult, toNat_eq_zero]
  split
  · rfl
  · rw [ofNat_unsx, s64_toNat, s64_toNat]
    refine BitVec.eq_of_toInt_eq ?_
    rw [BitVec.toInt_ofInt, BitVec.toInt_sdiv]

theorem divResult_divu : BitVec.ofNat 64 (divResult 0x15 x.toNat y.toNat) = if y = 0 then BitVec.allOnes 64 else x / y := by
  simp only [divResult, toNat_eq_zero]
  split
  · rfl
  · rw [← BitVec.toNat_udiv]
    exact ofNat_toNat _

theorem divResult_rem : BitVec.ofNat 64 (divResult 0x16 x.toNat y.toNat) = if y = 0 then x else x.srem y := by
  simp only [divResult, toNat_eq_zero]
  split
  · exact ofNat_toNat x
  · rw [ofNat_unsx, s64_toNat, s64_toNat, ← BitVec.toInt_srem, BitVec.ofInt_toInt]

theorem divResult_remu : BitVec.ofNat 64 (divResult 0x17 x.toNat y.toNat) = if y = 0 then x else x % y := by
  simp only [divResult, toNat_eq_zero]
  split
  · exact ofNat_toNat x
  · rw [← BitVec.toNat_umod]
    exact ofNat_toNat _

theorem countResult_clz : countResult 0x18 x.toNat = 64 - if x.toNat = 0 then 0 else x.toNat.log2 + 1 := rfl

theorem countResult_popc : countResult 0x19 x.toNat = ((List.range 64).filter x.getLsbD).length := rfl
end

end Sys2Proof.Scalar
end

section
/-! The S slot: computations write one register, comparisons one predicate, and nothing else (13 R397, R410, R418 to R422). -/
namespace Sys2Proof.Scalar
open Sys2Proof Sys2Proof.Machine Sys2Proof.Claims Sys2Proof.Bundles Sys2Proof.Effects

section
variable {s : State} {n b : Nat} {u : Bool} {k : Bank}

/-! What the S slot does with a computation. -/

theorem scalarEffect_value {v : Nat} (hruns : slotRuns b k 0 = true) (hload : ¬(0x40 ≤ scOp true (slotS b) ∧ scOp true (slotS b) ≤ 0x46))
    (hmovp : scOp true (slotS b) ≠ 0x2D)
    (hpred : scalarPred (scOp true (slotS b)) (sOperands b k).1 (sOperands b k).2 k (scRs1 (slotS b)) (scRs2 (slotS b)) = none)
    (hvalue : scalarValue (scOp true (slotS b)) (sOperands b k).1 (sOperands b k).2 k.p = some v) :
    scalarEffect s n k b = (s, { xs := [(scRd (slotS b), v, false)] }) := by
  unfold scalarEffect
  simp only [hruns, hpred, hvalue, if_neg hload, if_neg hmovp]
  rfl

theorem scalarEffect_pred {q : Bool} (hruns : slotRuns b k 0 = true) (hload : ¬(0x40 ≤ scOp true (slotS b) ∧ scOp true (slotS b) ≤ 0x46))
    (hmovp : scOp true (slotS b) ≠ 0x2D)
    (hpred : scalarPred (scOp true (slotS b)) (sOperands b k).1 (sOperands b k).2 k (scRs1 (slotS b)) (scRs2 (slotS b)) = some q) :
    scalarEffect s n k b = (s, { ps := [(scRd (slotS b), q)] }) := by
  unfold scalarEffect
  simp only [hruns, hpred, if_neg hload, if_neg hmovp]
  rfl

theorem scalarEffect_movp (hruns : slotRuns b k 0 = true) (hop : scOp true (slotS b) = 0x2D) :
    scalarEffect s n k b = (s, { ps := (span 1 7).map fun i => (i, bit (sOperands b k).1 i) }) := by
  unfold scalarEffect
  simp only [hruns, hop]
  rfl

theorem scalarStore_computes (hop : scOp true (slotS b) < 0x48) : scalarStore s n k b = s := if_pos (by simp; omega)

/-- A bundle whose S slot computes does what the slot does. -/
theorem performed_computes {e : Effect} (honly : onlyS b = true) (hop : scOp true (slotS b) < 0x48)
    (heffect : scalarEffect s n (bankNow s n u) b = (s, e)) :
    performed s n u b = (s, { xs := e.xs, froms := e.froms, ps := e.ps, items := e.items }) := by
  rw [performed_onlyS honly, heffect, scalarStore_computes hop]

theorem scRd_lt (w : Nat) : scRd w < 32 := bits_lt w 51 47

/-- A computation writes its value into its register. -/
theorem acts_of_value {v : Nat} (h : Issues s n u b = true) (honly : onlyS b = true) (hruns : slotRuns b (bankNow s n u) 0 = true)
    (hop : scOp true (slotS b) < 0x40) (hmovp : scOp true (slotS b) ≠ 0x2D)
    (hpred : scalarPred (scOp true (slotS b)) (sOperands b (bankNow s n u)).1 (sOperands b (bankNow s n u)).2 (bankNow s n u) (scRs1 (slotS b))
      (scRs2 (slotS b)) = none)
    (hvalue : scalarValue (scOp true (slotS b)) (sOperands b (bankNow s n u)).1 (sOperands b (bankNow s n u)).2 (bankNow s n u).p = some v) :
    Acts s n u b { xs := [(scRd (slotS b), v, false)] } :=
  { issuing_of_issues h with performed := performed_computes honly (by omega) (scalarEffect_value hruns (by omega) hmovp hpred hvalue) }

/-- A comparison or predicate operation writes its predicate. -/
theorem acts_of_pred {q : Bool} (h : Issues s n u b = true) (honly : onlyS b = true) (hruns : slotRuns b (bankNow s n u) 0 = true)
    (hop : scOp true (slotS b) < 0x40) (hmovp : scOp true (slotS b) ≠ 0x2D)
    (hpred : scalarPred (scOp true (slotS b)) (sOperands b (bankNow s n u)).1 (sOperands b (bankNow s n u)).2 (bankNow s n u) (scRs1 (slotS b))
      (scRs2 (slotS b)) = some q) : Acts s n u b { ps := [(scRd (slotS b), q)] } :=
  { issuing_of_issues h with performed := performed_computes honly (by omega) (scalarEffect_pred hruns (by omega) hmovp hpred) }
end

/-! The integer operations. -/

theorem scalarPred_integer {o a b : Nat} {k : Bank} {r q : Nat} (h : o ≤ 0x19) : scalarPred o a b k r q = none := by
  unfold scalarPred
  rw [if_neg (by omega), if_neg (by omega), if_neg (by omega)]

/-- Settles O8: the S slot of the bundle writes the value of R419, and nothing else of the machine changes but counters. -/
theorem integerScalarResult : Obligations.IntegerScalarResult := by
  unfold Obligations.IntegerScalarResult
  refine ⟨fun s n k b hop => if_pos (by simp; omega), ?_⟩
  intro s n u b i x y r hissues honly hruns hstraight hwide hx hy hrow hresult
  have hvalue : scOp true (slotS b) ≤ 0x19 ∧ ∃ v, BitVec.ofNat 64 v = r ∧
      scalarValue (scOp true (slotS b)) x.toNat y.toNat (bankNow s n u).p = some v := by
    clear hrow hruns
    generalize scOp true (slotS b) = o at hresult
    split at hresult
    case h_1 => exact ⟨by decide, _, hresult ▸ aluResult_add x y, rfl⟩
    case h_2 => exact ⟨by decide, _, hresult ▸ aluResult_sub x y, rfl⟩
    case h_3 => exact ⟨by decide, _, hresult ▸ aluResult_and x y, rfl⟩
    case h_4 => exact ⟨by decide, _, hresult ▸ aluResult_or x y, rfl⟩
    case h_5 => exact ⟨by decide, _, hresult ▸ aluResult_xor x y, rfl⟩
    case h_6 => exact ⟨by decide, _, hresult ▸ aluResult_sll x y, rfl⟩
    case h_7 => exact ⟨by decide, _, hresult ▸ aluResult_srl x y, rfl⟩
    case h_8 => exact ⟨by decide, _, hresult ▸ aluResult_sra x y, rfl⟩
    case h_9 => exact ⟨by decide, _, hresult ▸ setLessResult_slt x y, rfl⟩
    case h_10 => exact ⟨by decide, _, hresult ▸ setLessResult_ult x y, rfl⟩
    case h_11 => exact ⟨by decide, _, hresult ▸ minMaxResult_min x y, rfl⟩
    case h_12 => exact ⟨by decide, _, hresult ▸ minMaxResult_max x y, rfl⟩
    case h_13 => exact ⟨by decide, _, hresult ▸ minMaxResult_minu x y, rfl⟩
    case h_14 => exact ⟨by decide, _, hresult ▸ minMaxResult_maxu x y, rfl⟩
    case h_15 => exact ⟨by decide, _, hresult ▸ satResult_adds x y, rfl⟩
    case h_16 => exact ⟨by decide, _, hresult ▸ satResult_subs x y, rfl⟩
    case h_17 => exact ⟨by decide, _, hresult ▸ mulResult_mul x y, rfl⟩
    case h_18 => exact ⟨by decide, _, hresult ▸ mulHighResult_mulh x y, rfl⟩
    case h_19 => exact ⟨by decide, _, hresult ▸ rfl, rfl⟩
    case h_20 => exact ⟨by decide, _, hresult ▸ divResult_div x y, rfl⟩
    case h_21 => exact ⟨by decide, _, hresult ▸ divResult_divu x y, rfl⟩
    case h_22 => exact ⟨by decide, _, hresult ▸ divResult_rem x y, rfl⟩
    case h_23 => exact ⟨by decide, _, hresult ▸ divResult_remu x y, rfl⟩
    case h_24 => exact ⟨by decide, _, by rw [countResult_clz, ← hresult, ofNat_toNat], rfl⟩
    case h_25 => exact ⟨by decide, _, by rw [countResult_popc, ← hresult, ofNat_toNat], rfl⟩
    case h_26 => exact hresult.elim
  obtain ⟨hop, v, hv, hvalue⟩ := hvalue
  have h := acts_of_value (v := v) hissues honly hruns (by omega) (by omega) (scalarPred_integer hop) (by rw [hx, hy, hvalue])
  have hpc := pc_issued_idle h.toIssuing h.quiet (idle_of_onlyS honly _ 1 (by decide) (by decide)) hstraight
  refine runs_scalar hissues honly hrow ⟨fun d => ?_, hpc, h.p, h.v, h.others, h.frame⟩
  rw [h.xr rfl hwide (scRd_lt _), ← hv, BitVec.toNat_ofNat]

end Sys2Proof.Scalar
end

section
/-! Comparisons, predicate operations and FP32 values of the S slot (13 R410, R418, R422). -/
namespace Sys2Proof.Scalar
open Sys2Proof Sys2Proof.Machine Sys2Proof.Laws Sys2Proof.Claims Sys2Proof.Bundles Sys2Proof.Effects

section
variable {s : State} {n b : Nat} {u : Bool}

/-- PMOVX brings the predicates into a register (R418). -/
theorem acts_pmovx (h : Issues s n u b = true) (honly : onlyS b = true) (hruns : slotRuns b (bankNow s n u) 0 = true)
    (hop : scOp true (slotS b) = 0x2C) : Acts s n u b { xs := [(scRd (slotS b), (bankNow s n u).p % 256, false)] } :=
  acts_of_value h honly hruns (by omega) (by omega) (by rw [hop]; rfl) (by rw [hop]; rfl)

/-- XMOVP brings seven bits of a register into the predicates (R418). -/
theorem acts_xmovp (h : Issues s n u b = true) (honly : onlyS b = true) (hruns : slotRuns b (bankNow s n u) 0 = true)
    (hop : scOp true (slotS b) = 0x2D) : Acts s n u b { ps := (span 1 7).map fun i => (i, bit (sOperands b (bankNow s n u)).1 i) } :=
  { issuing_of_issues h with performed := performed_computes honly (by omega) (scalarEffect_movp hruns hop) }

/-- The predicates after all but p0 are written. -/
theorem bit_foldl_setP (p x d : Nat) (hd : 1 ≤ d) (hd' : d ≤ 7) : bit (((span 1 7).map fun i => (i, bit x i)).foldl setP p) d = bit x d := by
  have hspan : span 1 7 = [1, 2, 3, 4, 5, 6, 7] := rfl
  simp only [hspan, List.map_cons, List.map_nil, List.foldl_cons, List.foldl_nil, bit_setP, ne_eq, OfNat.ofNat_ne_zero, not_false_eq_true, one_ne_zero]
  interval_cases d <;> rfl
end

/-! What the comparisons of words say. -/

section
variable {x y : Nat}

theorem s64_lt_ofNat (hx : x < 2 ^ 64) (hy : y < 2 ^ 64) : s64 x < s64 y ↔ (BitVec.ofNat 64 x).slt (BitVec.ofNat 64 y) = true := by
  rw [← s64_lt, BitVec.toNat_ofNat, BitVec.toNat_ofNat, Nat.mod_eq_of_lt hx, Nat.mod_eq_of_lt hy]

theorem compareResult_lt (hx : x < 2 ^ 64) (hy : y < 2 ^ 64) : compareResult 0x22 x y = (BitVec.ofNat 64 x).slt (BitVec.ofNat 64 y) := by
  rw [Bool.eq_iff_iff, compareResult, decide_eq_true_iff, s64_lt_ofNat hx hy]

theorem compareResult_ge (hx : x < 2 ^ 64) (hy : y < 2 ^ 64) : compareResult 0x24 x y = !(BitVec.ofNat 64 x).slt (BitVec.ofNat 64 y) := by
  rw [Bool.eq_iff_iff, compareResult, decide_eq_true_iff, Bool.not_eq_true', ← Bool.not_eq_true, ← s64_lt_ofNat hx hy, Int.not_lt]

theorem compareResult_ltu (hx : x < 2 ^ 64) (hy : y < 2 ^ 64) : compareResult 0x23 x y = decide (x % 2 ^ 64 < y % 2 ^ 64) := by
  rw [Nat.mod_eq_of_lt hx, Nat.mod_eq_of_lt hy]
  rfl

theorem compareResult_geu (hx : x < 2 ^ 64) (hy : y < 2 ^ 64) : compareResult 0x25 x y = decide (y % 2 ^ 64 ≤ x % 2 ^ 64) := by
  rw [Nat.mod_eq_of_lt hx, Nat.mod_eq_of_lt hy]
  rfl
end

/-- Settles O11: PMOVX, XMOVP, and the comparisons and predicate operations, each of which writes one predicate. -/
theorem predicateScalarResult : Obligations.PredicateScalarResult := by
  unfold Obligations.PredicateScalarResult
  intro s n u b i k w x y hissues honly hruns hstraight hwide hp hrow
  refine ⟨fun hop => ?pmovx, fun hop => ?xmovp, fun q hq hx hy => ?compare⟩
  case pmovx =>
    have h := acts_pmovx hissues honly hruns hop
    refine runs_scalar hissues honly hrow fun d => ?_
    rw [h.xr rfl hwide (scRd_lt w), Nat.mod_eq_of_lt hp, Nat.mod_eq_of_lt (by omega)]
  case xmovp =>
    have h := acts_xmovp hissues honly hruns hop
    refine runs_scalar hissues honly hrow ⟨fun d hd hd' => ?_, h.xr_same rfl⟩
    rw [pr, h.p, bit_foldl_setP _ _ _ hd hd', decide_eq_false (by omega), Bool.false_or]
  case compare =>
    have hpred : scOp true w < 0x2C ∧ scalarPred (scOp true w) x y k (scRs1 w) (scRs2 w) = some q := by
      clear hrow
      generalize scOp true w = o at hq
      split at hq
      case h_1 => exact ⟨by decide, hq ▸ rfl⟩
      case h_2 => exact ⟨by decide, hq ▸ rfl⟩
      case h_3 => exact ⟨by decide, hq ▸ congrArg some (compareResult_lt hx hy)⟩
      case h_4 => exact ⟨by decide, hq ▸ congrArg some (compareResult_ltu hx hy)⟩
      case h_5 => exact ⟨by decide, hq ▸ congrArg some (compareResult_ge hx hy)⟩
      case h_6 => exact ⟨by decide, hq ▸ congrArg some (compareResult_geu hx hy)⟩
      case h_7 => exact ⟨by decide, hq ▸ rfl⟩
      case h_8 => exact ⟨by decide, hq ▸ rfl⟩
      case h_9 => exact ⟨by decide, hq ▸ rfl⟩
      case h_10 => exact ⟨by decide, hq ▸ rfl⟩
      case h_11 => exact hq.elim
    obtain ⟨hop, hpred⟩ := hpred
    have hlow : scOp true w < 0x40 ∧ scOp true w ≠ 0x2D := by omega
    have h := acts_of_pred hissues honly hruns hlow.1 hlow.2 hpred
    exact runs_scalar hissues honly hrow ⟨fun d _ => h.pr rfl d, h.xr_same rfl, h.v, h.others, h.frame⟩

/-! FP32 (R422). -/

/-- The pattern of an FP32 NaN. -/
def NanBits (v : Nat) : Prop := bits v 30 23 = 255 ∧ bits v 22 0 ≠ 0

theorem f32_nan {v : Nat} (h : NanBits v) : f32 (v % 2 ^ 32) = .nan := by
  obtain ⟨hex, hm⟩ := h
  simp only [bits, Nat.shiftRight_eq_div_pow] at hex hm
  have hexponent : v % 2 ^ 32 % 2 ^ (8 + 23) / 2 ^ 23 = 2 ^ 8 - 1 := by omega
  have hmantissa : v % 2 ^ 32 % 2 ^ (8 + 23) % 2 ^ 23 ≠ 0 := by omega
  unfold f32 fdec
  simp only [hexponent, hmantissa, if_false]
  rfl

section
variable {x y o : Nat}

/-- FADD to FDIV with a NaN. -/
theorem floatResult_nan (ho : 0x30 ≤ o ∧ o ≤ 0x33) (h : NanBits x ∨ NanBits y) : floatResult o x y = 0x7FC00000 := by
  obtain ⟨hlow, hhigh⟩ := ho
  unfold floatResult
  rcases h with h | h
  · rw [f32_nan h]
    interval_cases o <;> rfl
  · rw [f32_nan h]
    generalize f32 (x % 2 ^ 32) = a
    interval_cases o <;> cases a <;> rfl

theorem rootResult_nan (h : NanBits x) : rootResult x = 0x7FC00000 := by
  rw [rootResult, f32_nan h]
  rfl

theorem toIntResult_nan (h : NanBits x) : toIntResult x = 0 := by
  rw [toIntResult, f32_nan h]
  rfl

/-- FCMPLT and FCMPEQ with a NaN. -/
theorem floatCompare_nan (h : NanBits x ∨ NanBits y) : floatCompare o x y = false := by
  unfold floatCompare
  rcases h with h | h
  · rw [f32_nan h]
    split <;> rfl
  · rw [f32_nan h]
    generalize f32 (x % 2 ^ 32) = a
    split <;> cases a <;> rfl
end

/-- Settles O12: the FP32 functions on a NaN, each in its row. -/
theorem floatScalarNaN : Obligations.FloatScalarNaN := by
  unfold Obligations.FloatScalarNaN
  intro s n u b i k w nan x y hissues honly hruns hwide hrow hrd
  have hwrites (v : Nat) (hop : 0x30 ≤ scOp true w ∧ scOp true w ≤ 0x38) (hvalue : scalarValue (scOp true w) x y k.p = some v) (hv : v < 2 ^ 64) :
      Runs i s fun t => xr (bankNow t n u) (scRd w) = v := by
    have hpred : scalarPred (scOp true w) x y k (scRs1 w) (scRs2 w) = none := by
      unfold scalarPred
      rw [if_neg (by omega), if_neg (by omega), if_neg (by omega)]
    have hlow : scOp true w < 0x40 ∧ scOp true w ≠ 0x2D := by omega
    have h := acts_of_value hissues honly hruns hlow.1 hlow.2 hpred hvalue
    refine runs_scalar hissues honly hrow ?_
    rw [h.xr rfl hwide (scRd_lt w), if_pos ⟨hrd, rfl⟩, Nat.mod_eq_of_lt hv]
  refine ⟨?arithmetic, ?compare, ?toInt, ?fromInt⟩
  case arithmetic =>
    rintro (⟨hlow, hhigh, hnan⟩ | ⟨hop, hnan⟩)
    · refine hwrites _ ⟨hlow, by omega⟩ ?_ (by decide)
      rw [← floatResult_nan ⟨hlow, hhigh⟩ hnan]
      obtain ho | ho | ho | ho : scOp true w = 0x30 ∨ scOp true w = 0x31 ∨ scOp true w = 0x32 ∨ scOp true w = 0x33 := by omega
      all_goals rw [ho]; rfl
    · refine hwrites _ (by omega) ?_ (by decide)
      rw [← rootResult_nan hnan, hop]
      rfl
  case compare =>
    rintro ⟨hop, hnan, -⟩
    have hpred : scalarPred (scOp true w) x y k (scRs1 w) (scRs2 w) = some false := by
      rw [← floatCompare_nan (o := scOp true w) hnan]
      obtain ho | ho := hop
      all_goals rw [ho]; rfl
    have hlow : scOp true w < 0x40 ∧ scOp true w ≠ 0x2D := by omega
    have h := acts_of_pred hissues honly hruns hlow.1 hlow.2 hpred
    refine runs_scalar hissues honly hrow ?_
    rw [h.pr rfl, if_pos ⟨hrd, rfl⟩]
  case toInt =>
    rintro ⟨hop, hnan⟩
    refine hwrites _ (by omega) ?_ (by decide)
    rw [← toIntResult_nan hnan, hop]
    rfl
  case fromInt =>
    rintro ⟨hop, hx⟩
    refine hwrites _ (by omega) ?_ (by decide)
    rw [hx, hop]
    rfl

end Sys2Proof.Scalar
end

section
/-! The C slot: branches, jumps, loops, status words and the waits (13 R423, R426, R427). -/
namespace Sys2Proof.Control
open Sys2Proof Sys2Proof.Machine Sys2Proof.Laws Sys2Proof.Claims Sys2Proof.Bundles Sys2Proof.Effects

section
variable {s : State} {n b : Nat} {u : Bool} {k : Bank}

/-! What the C slot does, opcode by opcode. -/

/-- BR, LOOP, LCLR, ENDJOB, FENCE, MWAIT and AWAIT write no register. -/
theorem controlEffect_none (hop : scOp false (slotC b) ∈ [0x01, 0x04, 0x05, 0x08, 0x09, 0x0A, 0x0B]) : controlEffect s n u k b 0 .alone = (s, {}) := by
  unfold controlEffect
  dsimp only
  generalize scOp false (slotC b) = o at hop
  split
  · rfl
  · simp only [List.mem_cons, List.not_mem_nil, or_false] at hop
    rcases hop with rfl | rfl | rfl | rfl | rfl | rfl | rfl <;> rfl

theorem controlEffect_link (hruns : slotRuns b k 1 = true) (hop : scOp false (slotC b) = 0x02 ∨ scOp false (slotC b) = 0x03) :
    controlEffect s n u k b 0 .alone = (s, { xs := [(scRd (slotC b), (k.pc + 128) % 2 ^ 64, false)] }) := by
  unfold controlEffect
  rw [if_neg (by simp [hruns])]
  rcases hop with hop | hop <;> rw [hop] <;> rfl

theorem controlEffect_lrd (hruns : slotRuns b k 1 = true) (hop : scOp false (slotC b) = 0x06) :
    controlEffect s n u k b 0 .alone = (s, { xs := [(scRd (slotC b), (nth k.loops (scL (slotC b)) {}).count, false)] }) := by
  unfold controlEffect
  rw [if_neg (by simp [hruns]), hop]
  rfl

theorem controlEffect_rdstat (hruns : slotRuns b k 1 = true) (hop : scOp false (slotC b) = 0x0C) :
    controlEffect s n u k b 0 .alone = (s, { xs := [(scRd (slotC b), statWord s n u k (bits (scImm (slotC b)) 3 0), false)] }) := by
  unfold controlEffect
  rw [if_neg (by simp [hruns]), hop]
  rfl

/-- CLRSTAT writes no register of the bank. -/
theorem controlEffect_clrstat (hruns : slotRuns b k 1 = true) (hop : scOp false (slotC b) = 0x0D) : controlEffect s n u k b 0 .alone =
    (let t := if bit (scImm (slotC b)) 1 then wb s (R.ASH_PAIR_STATUS n) 0 false else s
     if bit (scImm (slotC b)) 2 then wb t (R.ASH_PAIR_STATUS n) 1 false else t, {}) := by
  unfold controlEffect
  rw [if_neg (by simp [hruns]), hop]
  rfl

theorem acts_onlyC {e : Effect} (h : Issues s n u b = true) (honly : onlyC b = true)
    (heffect : controlEffect s n u (bankNow s n u) b 0 .alone = (s, e)) : Acts s n u b { xs := e.xs, items := e.items } :=
  { issuing_of_issues h with performed := by rw [performed_onlyC honly, heffect] }

/-! Where the C slot goes. -/

theorem controlOp_runs (hruns : slotRuns b k 1 = true) : controlOp b k = scOp false (slotC b) := if_pos hruns

theorem transfer_rel (hruns : slotRuns b k 1 = true) (hop : scOp false (slotC b) = 0x01 ∨ scOp false (slotC b) = 0x02) :
    transfer b k = some (unsx 64 (s64 k.pc + 128 * sx 16 (scImm (slotC b)))) := by
  unfold transfer
  rw [if_neg (by simp [hruns])]
  rcases hop with hop | hop <;> rw [hop] <;> rfl

theorem transfer_jr (hruns : slotRuns b k 1 = true) (hop : scOp false (slotC b) = 0x03) : transfer b k = some (xr k (scRs1 (slotC b))) := by
  unfold transfer
  rw [if_neg (by simp [hruns]), hop]
  rfl

theorem transfer_loop (hruns : slotRuns b k 1 = true) (hop : scOp false (slotC b) = 0x04)
    (hcount : operandB b (scSel (slotC b)) (xr k (scRs1 (slotC b))) 0 % 2 ^ 32 = 0) :
    transfer b k = some (unsx 64 (s64 k.pc + 128 * sx 16 (scImm (slotC b))) + 128) := by
  unfold transfer
  rw [if_neg (by simp [hruns]), hop]
  exact if_pos hcount

/-- FENCE, MWAIT and AWAIT pass to the next bundle and leave the loops. -/
theorem transfer_wait (hop : scOp false (slotC b) ∈ [0x09, 0x0A, 0x0B]) : transfer b k = none ∧ loopsAfter b k = k.loops := by
  unfold transfer loopsAfter
  dsimp only
  generalize scOp false (slotC b) = o at hop
  simp only [List.mem_cons, List.not_mem_nil, or_false] at hop
  rcases hop with rfl | rfl | rfl
  all_goals exact ⟨ite_self _, ite_self _⟩

theorem loopsAfter_loop (hruns : slotRuns b k 1 = true) (hop : scOp false (slotC b) = 0x04) : loopsAfter b k =
    k.loops.set (scL (slotC b))
      { count := operandB b (scSel (slotC b)) (xr k (scRs1 (slotC b))) 0 % 2 ^ 32,
        active := decide (operandB b (scSel (slotC b)) (xr k (scRs1 (slotC b))) 0 % 2 ^ 32 ≠ 0), start := k.pc + 128,
        stop := unsx 64 (s64 k.pc + 128 * sx 16 (scImm (slotC b))) } := by
  unfold loopsAfter
  rw [if_neg (by simp [hruns]), hop]
  rfl

theorem loopsAfter_lclr (hruns : slotRuns b k 1 = true) (hop : scOp false (slotC b) = 0x05) :
    loopsAfter b k = k.loops.modify (scL (slotC b)) fun l => { l with count := 0, active := false } := by
  unfold loopsAfter
  rw [if_neg (by simp [hruns]), hop]
  rfl

theorem loopsAfter_lrd (hop : scOp false (slotC b) = 0x06) : loopsAfter b k = k.loops := by
  unfold loopsAfter
  dsimp only
  rw [hop]
  exact ite_self _

/-- The target of a relative branch, as a word. -/
theorem unsx_rel (pc imm : Nat) : unsx 64 (s64 pc + 128 * sx 16 imm) = (BitVec.ofNat 64 pc + 128 * (BitVec.ofNat 16 imm).signExtend 64).toNat := by
  have himm : (BitVec.ofNat 16 imm).signExtend 64 = BitVec.ofInt 64 (sx 16 imm) := by
    rw [BitVec.signExtend, sx, BitVec.toInt_eq_toNat_cond, BitVec.toNat_ofNat]
    congr 1
    split_ifs <;> omega
  have hpc : BitVec.ofNat 64 pc = BitVec.ofInt 64 (s64 pc) := by
    rw [← Scalar.ofNat_unsx]
    refine BitVec.eq_of_toNat_eq ?_
    rw [BitVec.toNat_ofNat, BitVec.toNat_ofNat, s64, sx, unsx]
    split_ifs <;> omega
  have hsum : BitVec.ofNat 64 pc + 128 * (BitVec.ofNat 16 imm).signExtend 64 = BitVec.ofInt 64 (s64 pc + 128 * sx 16 imm) := by
    rw [hpc, himm, BitVec.ofInt_add, BitVec.ofInt_mul]
    rfl
  rw [hsum, BitVec.toNat_ofInt, unsx]

theorem pc_issued_of_transfer {e : Effect} {t : Nat} (h : Acts s n u b e) (hruns : slotRuns b (bankNow s n u) 1 = true)
    (hop : scOp false (slotC b) ≠ 0x08) (ht : transfer b (bankNow s n u) = some t) : (bankNow (issued s n u b) n u).pc = t := by
  rw [bankNow_issued h.toIssuing h.quiet]
  exact pc_nextBank_of_transfer (by rwa [controlOp_runs hruns]) ht _

theorem pc_issued_wait {e : Effect} (h : Acts s n u b e) (hruns : slotRuns b (bankNow s n u) 1 = true)
    (hop : scOp false (slotC b) ∈ [0x09, 0x0A, 0x0B]) (hstraight : Straight (bankNow s n u)) :
    (bankNow (issued s n u b) n u).pc = (bankNow s n u).pc + 128 := by
  obtain ⟨hnone, hloops⟩ := transfer_wait (k := bankNow s n u) hop
  rw [bankNow_issued h.toIssuing h.quiet]
  refine pc_nextBank_straight ?_ hnone (by rwa [hloops]) _
  rw [controlOp_runs hruns]
  intro hend
  rw [hend] at hop
  exact absurd hop (by decide)
end

/-- Settles O14: each transfer by its own target; JAL and JR write their link. -/
theorem branchesAndJumps : Obligations.BranchesAndJumps := by
  unfold Obligations.BranchesAndJumps
  intro s n u b k w rel hissues honly hruns hwide hpc
  have hlink {v : Nat} (hv : v = (k.pc + 128) % 2 ^ 64) : v % 2 ^ 64 = k.pc + 128 := by omega
  refine ⟨fun hop => ?br, fun hop => ?jal, fun hop => ?jr⟩
  case br =>
    have h := acts_onlyC hissues honly (controlEffect_none (by rw [hop]; decide))
    refine runs_control hissues (by rw [hop]; rfl) ⟨?_, h.x, h.others, h.frame⟩
    rw [pc_issued_of_transfer h hruns (by rw [hop]; decide) (transfer_rel hruns (.inl hop)), unsx_rel]
  case jal =>
    have h := acts_onlyC hissues honly (controlEffect_link hruns (.inl hop))
    refine runs_control hissues (by rw [hop]; rfl) ⟨?_, fun d => ?_, h.others, h.frame⟩
    · rw [pc_issued_of_transfer h hruns (by rw [hop]; decide) (transfer_rel hruns (.inr hop)), unsx_rel]
    · rw [h.xr rfl hwide (Scalar.scRd_lt w), hlink rfl]
  case jr =>
    have h := acts_onlyC hissues honly (controlEffect_link hruns (.inr hop))
    refine runs_control hissues (by rw [hop]; rfl) ⟨pc_issued_of_transfer h hruns (by rw [hop]; decide) (transfer_jr hruns hop), fun d => ?_, h.others, h.frame⟩
    rw [h.xr rfl hwide (Scalar.scRd_lt w), hlink rfl]

theorem scL_lt (w : Nat) : scL w < 4 := bits_lt w 16 15

/-- Settles O15: the loops after the C slot, and the transfer past the end of a loop of count 0. -/
theorem loopInstructions : Obligations.LoopInstructions := by
  unfold Obligations.LoopInstructions
  intro s n u b k w count stop hissues honly hruns hwide hloops
  have hl : scL w < k.loops.length := hloops ▸ scL_lt w
  refine ⟨fun hop => ?loop, fun hop => ?lclr, fun hop hstraight => ?lrd⟩
  case loop =>
    have h := acts_onlyC hissues honly (controlEffect_none (by rw [hop]; decide))
    refine runs_control hissues (by rw [hop]; rfl) ⟨?_, fun hcount => ?_⟩
    · rw [loops_issued h.toIssuing h.quiet, loopsAfter_loop hruns hop, Cores.nth_set_self hl]
    · exact pc_issued_of_transfer h hruns (by rw [hop]; decide) (transfer_loop hruns hop hcount)
  case lclr =>
    have h := acts_onlyC hissues honly (controlEffect_none (by rw [hop]; decide))
    have hcleared : nth (bankNow (issued s n u b) n u).loops (scL w) {} = { nth k.loops (scL w) {} with count := 0, active := false } := by
      rw [loops_issued h.toIssuing h.quiet, loopsAfter_lclr hruns hop]
      exact Islands.nth_updAt_self hl _ _
    refine runs_control hissues (by rw [hop]; rfl) ?_
    rw [hcleared]
    exact ⟨rfl, rfl⟩
  case lrd =>
    have h := acts_onlyC hissues honly (controlEffect_lrd hruns hop)
    refine runs_control hissues (by rw [hop]; rfl) ⟨h.xr rfl hwide (Scalar.scRd_lt w), ?_⟩
    rw [loops_issued h.toIssuing h.quiet, loopsAfter_lrd hop]

/-! RDSTAT (R426). -/

section
variable {s : State} {n b : Nat} {u : Bool}

theorem rf_lt (s : State) (off hi lo : Nat) : rf s off hi lo < 2 ^ (hi + 1 - lo) := bits_lt _ hi lo

/-- The register that RDSTAT writes holds the word, cut to 64 bits. -/
theorem runs_rdstat (h : Issues s n u b = true) (honly : onlyC b = true) (hruns : slotRuns b (bankNow s n u) 1 = true)
    (hwide : (bankNow s n u).x.length = 32) (hop : scOp false (slotC b) = 0x0C) (hrd : scRd (slotC b) ≠ 0) {v : Nat}
    (hv : statWord s n u (bankNow s n u) (bits (scImm (slotC b)) 3 0) % 2 ^ 64 = v) :
    Runs (.rdstat n) s fun t => xr (bankNow t n u) (scRd (slotC b)) = v := by
  have hacts := acts_onlyC h honly (controlEffect_rdstat hruns hop)
  refine runs_control h (by rw [hop]; rfl) ?_
  rw [hacts.xr rfl hwide (Scalar.scRd_lt _), if_pos ⟨hrd, rfl⟩, hv]

/-- CLRSTAT leaves the cores and writes no register, so nothing but the flag changes in the bank. -/
theorem quiet_clrstat (honly : onlyC b = true) (hruns : slotRuns b (bankNow s n u) 1 = true) (hop : scOp false (slotC b) = 0x0D) : Quiet s n u b := by
  refine ⟨?_, .inl ?_⟩
  · rw [performed_onlyC honly, controlEffect_clrstat hruns hop]
    dsimp only
    split <;> split <;> rfl
  · rw [performed_onlyC honly, controlEffect_clrstat hruns hop]
    rfl
end

/-- Settles O16: ENDJOB, CLRSTAT, the words of RDSTAT, and the waits. -/
theorem statusAndWaits : Obligations.StatusAndWaits := by
  unfold Obligations.StatusAndWaits
  intro s n u b k w hissues honly hruns hwide
  refine ⟨fun hop => ?endjob, fun hop hbit hu => ?clrstat, fun hop hrd => ?rdstat, fun i hstraight hi => ?wait⟩
  case endjob =>
    have h := acts_onlyC hissues honly (controlEffect_none (by rw [hop]; decide))
    refine runs_control hissues (by rw [hop]; rfl) ?_
    rw [bankNow_issued h.toIssuing h.quiet, ended_nextBank (by rwa [controlOp_runs hruns])]
  case clrstat =>
    have h := issuing_of_issues hissues
    refine runs_control hissues (by rw [hop]; rfl) ?_
    rw [bankNow_issued h (quiet_clrstat honly hruns hop), preempted_nextBank, controlOp_runs hruns, hop, hbit, hu]
    simp
  case rdstat =>
    have hword {v : Nat} (hv : statWord s n u k (bits (scImm w) 3 0) % 2 ^ 64 = v) :=
      runs_rdstat hissues honly hruns hwide hop hrd hv
    have hsmall := (issuing_of_issues hissues).small
    refine ⟨fun hsel => hword ?_, fun hsel => hword ?_, fun hsel => hword ?_, fun hsel => hword ?_⟩
    · rw [hsel, statWord]
      cases u
      · cases k.preempted <;> rfl
      · rfl
    · rw [hsel, statWord]
      exact Nat.mod_eq_of_lt ((rf_lt s _ 1 0).trans (by decide))
    · rw [hsel, statWord]
      have hpart : corePart s n < 8 := rf_lt s _ 2 0
      have hbank : b2n u ≤ 1 := by cases u <;> decide
      omega
    · rw [hsel, statWord]
      · exact Nat.mod_mod _ _
      all_goals decide
  case wait =>
    have hop : scOp false w ∈ [0x09, 0x0A, 0x0B] := by
      rcases hi with ⟨hop, -⟩ | ⟨hop, -⟩ | ⟨hop, -⟩ <;> rw [hop] <;> decide
    have hrow : controlRow n (scOp false w) = some i := by
      rcases hi with ⟨hop, rfl⟩ | ⟨hop, rfl⟩ | ⟨hop, rfl⟩ <;> rw [hop] <;> rfl
    have h := acts_onlyC hissues honly (controlEffect_none (List.mem_of_mem_drop (i := 4) hop))
    exact runs_control hissues hrow ⟨pc_issued_wait h hruns hop hstraight, h.x, h.p, h.v, h.others, h.frame⟩

end Sys2Proof.Control
end

section
/-! A core's own SRAM: addresses without an exception, loads and stores (03 R60, R90, 13 R420, 15 R467). -/
namespace Sys2Proof.Effects
open Sys2Proof Sys2Proof.Machine Sys2Proof.Laws Sys2Proof.Claims Sys2Proof.Bundles

section
variable {s : State} {n b i a z : Nat} {u : Bool} {k : Bank}

/-! No slot of a bundle that issues takes an exception. -/

theorem Issuing.slotExc_none (h : Issuing s n u b) (hi : i < 7) : slotExc s n (coreOf s n) u b (cmdNow s n u b) i = none := by
  have hexc := h.noExc
  unfold bundleExc at hexc
  dsimp only at hexc
  rw [h.legal] at hexc
  split at hexc
  · cases hexc
  · next hj => cases hj
  · next hnone _ => exact List.findSome?_eq_none_iff.mp hnone i (List.mem_range.mpr hi)

theorem Issuing.scalarExc_none (h : Issuing s n u b) (hruns : slotRuns b (bankNow s n u) 0 = true) : scalarExc s n (bankNow s n u) b = none := by
  have hslot := h.slotExc_none (i := 0) (by decide)
  unfold slotExc at hslot
  rw [if_neg (by simp [hruns])] at hslot
  split at hslot
  · cases hslot
  · exact hslot

theorem Issuing.vectorExc_none (h : Issuing s n u b) (hruns : slotRuns b (bankNow s n u) 2 = true) : vectorExc s n (bankNow s n u) b 2 = none := by
  have hslot := h.slotExc_none (i := 2) (by decide)
  unfold slotExc at hslot
  rw [if_neg (by simp [hruns])] at hslot
  split at hslot
  · cases hslot
  · exact hslot

theorem of_ite_none {p : Prop} [Decidable p] {e : Exc} {x : Option Exc} (h : (if p then some e else x) = none) : ¬p ∧ x = none := by
  split at h
  · cases h
  · exact ⟨‹_›, h⟩

/-- A scalar access that takes no exception is aligned. -/
theorem aligned_of_scalarExc (h : scalarExc s n k b = none) (hop : 0x40 ≤ scOp true (slotS b) ∧ scOp true (slotS b) ≤ 0x4B) :
    sAddress b k % (accessSize (scOp true (slotS b))).1 = 0 := by
  unfold scalarExc at h
  rw [if_neg (by simp [hop])] at h
  obtain ⟨-, h⟩ := of_ite_none h
  obtain ⟨halign, -⟩ := of_ite_none h
  exact not_not.mp halign

theorem inOwn_of_vectorExc (h : vectorExc s n k b 2 = none) (hop : vOp (slotV b 0) = 1 ∨ vOp (slotV b 0) = 2) :
    inOwn n (vAddress b (slotV b 0) k) 256 = true := by
  unfold vectorExc at h
  rw [if_pos hop] at h
  obtain ⟨-, h⟩ := of_ite_none h
  obtain ⟨-, h⟩ := of_ite_none h
  obtain ⟨hout, -⟩ := of_ite_none h
  simpa using hout

/-- An aligned access that begins in a core's SRAM lies in it. -/
theorem inOwn_of_aligned (hz : z ∣ 0x01000000) (halign : a % z = 0) (h : inOwn n a 1 = true) : inOwn n a z = true := by
  have hzpos : 0 < z := Nat.pos_of_dvd_of_pos hz (by decide)
  obtain ⟨q, hq⟩ := hz
  obtain ⟨p, rfl⟩ : z ∣ a := Nat.dvd_of_mod_eq_zero halign
  unfold inOwn sramBase at *
  simp only [Bool.and_eq_true, decide_eq_true_eq] at *
  obtain ⟨hlow, hhigh⟩ := h
  refine ⟨hlow, ?_⟩
  rw [hq, ← Nat.mul_assoc, Nat.mul_comm n z, Nat.mul_assoc, ← Nat.mul_add] at hhigh ⊢
  have hlt : p < n * q + q := Nat.lt_of_mul_lt_mul_left (a := z) (by omega)
  calc z * p + z = z * (p + 1) := by ring
    _ ≤ z * (n * q + q) := Nat.mul_le_mul_left z hlt

theorem placeOf_own (hn : n < 8) (h : inOwn n a 1 = true) : placeOf a = .coreSram n := by
  unfold inOwn sramBase at h
  simp only [Bool.and_eq_true, decide_eq_true_eq] at h
  unfold placeOf
  rw [if_pos (by omega)]
  congr 1
  omega

theorem inOwn_one (hz : 0 < z) (h : inOwn n a z = true) : inOwn n a 1 = true := by
  unfold inOwn at *
  simp only [Bool.and_eq_true, decide_eq_true_eq] at *
  omega

/-! Reads and writes of it by the core. -/

/-- Waking an island changes the islands alone. -/
theorem wakeAt_rest (s : State) (a : Nat) : wakeAt s a = { s with isl := (wakeAt s a).isl } := by
  unfold wakeAt
  split
  · unfold wake
    split <;> rfl
  · rfl

theorem placeStatus_own (hn : n < 8) (h : inOwn n a 1 = true) (hok : islandStatus s (19 + n) = MS.ok) : placeStatus s a = 0 := by
  unfold placeStatus
  rw [placeOf_own hn h]
  exact hok

theorem localRead_own (hn : n < 8) (h : inOwn n a 1 = true) (hok : islandStatus s (19 + n) = MS.ok) (hecc : s.eccErr = []) (hbad : badRanges s a z = []) :
    localRead s a z = (wakeAt s a, { st := MS.ok, data := memBytes s a z, bad := [] }) := by
  have hrest := wakeAt_rest s a
  have hclean : checkRange (wakeAt s a) 0 a z = wakeAt s a :=
    Mesh.checkRange_sram_clean (by rw [hrest]; exact hecc) (by rw [placeOf_own hn h]; nofun) 0 z
  have hbad' : badRanges (wakeAt s a) a z = [] := by
    rw [hrest]
    exact hbad
  have hdata : memBytes (wakeAt s a) a z = memBytes s a z := by
    rw [hrest]
    rfl
  unfold localRead
  rw [placeStatus_own hn h hok]
  simp only [hclean, hbad', hdata]
  rfl

theorem localWrite_own (hn : n < 8) (h : inOwn n a 1 = true) (hok : islandStatus s (19 + n) = MS.ok) (bs : List Byte) (bad : List (Nat × Nat)) :
    (localWrite s a bs bad).1 = storeBytes (wakeAt s a) a bs bad := by
  unfold localWrite
  rw [placeStatus_own hn h hok]
  rfl

/-- The memory of `t` is that of `s` with the bytes `bs` stored at `a`. -/
def Stored (s t : State) (a : Nat) (bs : List Byte) : Prop := t.mem = (setBytes s a bs).mem

theorem stored_own (s : State) (a : Nat) (bs : List Byte) (bad : List (Nat × Nat)) : Stored s (storeBytes (wakeAt s a) a bs bad) a bs :=
  (Mesh.checks_storeBytes (wakeAt s a) a bs bad).mem.trans (Mesh.mem_setBytes_congr (Mesh.checks_wakeAt s a).mem a bs)

theorem cores_storeBytes (s : State) (a : Nat) (bs : List Byte) (bad : List (Nat × Nat)) : (storeBytes (wakeAt s a) a bs bad).cores = s.cores :=
  calc (storeBytes (wakeAt s a) a bs bad).cores = (setBytes (wakeAt s a) a bs).cores := (congrArg State.cores (Mesh.checks_storeBytes (wakeAt s a) a bs bad).rest :)
    _ = (wakeAt s a).cores := (congrArg State.cores (setBytes_rest (wakeAt s a) a bs) :)
    _ = s.cores := (congrArg State.cores (wakeAt_rest s a) :)

variable {t : State} {bs : List Byte}

theorem Stored.byte (h : Stored s t a bs) (hi : i < bs.length) : memByte t (a + i) = bs[i] := by
  rw [memByte, show t.mem = _ from h]
  exact memByte_setBytes hi

theorem Stored.other (h : Stored s t a bs) {c : Nat} (hc : c < a ∨ a + bs.length ≤ c) : memByte t c = memByte s c := by
  rw [memByte, show t.mem = _ from h]
  exact memByte_setBytes_ne hc

/-- The bytes of a stored number. -/
theorem Stored.digit {v : Nat} (h : Stored s t a (leBytes z v)) (hi : i < z) : (memByte t (a + i)).toNat = v / 256 ^ i % 256 := by
  rw [h.byte (by simpa using hi), leBytes_get]

/-- `n` bytes spell a number below `256 ^ n`. -/
theorem ofLe_lt (bs : List Byte) : ofLe bs < 256 ^ bs.length := by
  induction bs with
  | nil => decide
  | cons b bs ih =>
    have hb := b.isLt
    rw [ofLe, List.length_cons, pow_succ]
    omega

theorem ofLe_memBytes_lt (s : State) (a z : Nat) : ofLe (memBytes s a z) < 256 ^ z := by
  have hlt := ofLe_lt (memBytes s a z)
  rwa [show (memBytes s a z).length = z by simp [memBytes, span]] at hlt
end

end Sys2Proof.Effects
end

section
/-! Scalar loads and stores of a core's own SRAM (13 R418, R420). -/
namespace Sys2Proof.Scalar
open Sys2Proof Sys2Proof.Machine Sys2Proof.Laws Sys2Proof.Claims Sys2Proof.Bundles Sys2Proof.Effects

section
variable {s : State} {n b : Nat} {u : Bool} {k : Bank}

theorem scalarEffect_load (hruns : slotRuns b k 0 = true) (hop : 0x40 ≤ scOp true (slotS b) ∧ scOp true (slotS b) ≤ 0x46)
    (hown : inOwn n (sAddress b k) 1 = true) :
    scalarEffect s n k b =
      (let r := localRead s (sAddress b k) (accessSize (scOp true (slotS b))).1
       (r.1, { xs := [(scRd (slotS b), extendLoad (scOp true (slotS b)) (ofLe r.2.data), !r.2.bad.isEmpty)],
               froms := [(scRd (slotS b), sAddress b k % 2 ^ 48)] })) := by
  unfold scalarEffect
  rw [if_neg (by simp [hruns]), if_pos hop, if_pos hown]

theorem scalarEffect_store (hop : 0x48 ≤ scOp true (slotS b) ∧ scOp true (slotS b) ≤ 0x4B) : scalarEffect s n k b = (s, {}) := by
  have hpred : scalarPred (scOp true (slotS b)) (sOperands b k).1 (sOperands b k).2 k (scRs1 (slotS b)) (scRs2 (slotS b)) = none := by
    unfold scalarPred
    rw [if_neg (by omega), if_neg (by omega), if_neg (by omega)]
  have hvalue : scalarValue (scOp true (slotS b)) (sOperands b k).1 (sOperands b k).2 k.p = none := by
    unfold scalarValue
    iterate 13 rw [if_neg (by omega)]
  unfold scalarEffect
  simp only [hpred, hvalue, if_neg (show ¬(0x40 ≤ scOp true (slotS b) ∧ scOp true (slotS b) ≤ 0x46) by omega),
    if_neg (show ¬scOp true (slotS b) = 0x2D by omega), ite_self]

theorem coreWrite_own {v : Via} {a : Nat} {bs : List Byte} {bad : List (Nat × Nat)} (h : inOwn n a bs.length = true) :
    coreWrite s n v a bs bad = localWrite s a bs bad := if_pos h

theorem scalarStore_runs (hruns : slotRuns b k 0 = true) (hop : 0x48 ≤ scOp true (slotS b) ∧ scOp true (slotS b) ≤ 0x4B)
    (hown : inOwn n (sAddress b k) (accessSize (scOp true (slotS b))).1 = true) : scalarStore s n k b =
      (localWrite s (sAddress b k) (leBytes (accessSize (scOp true (slotS b))).1 (xr k (scRs2 (slotS b)))) []).1 := by
  unfold scalarStore
  rw [if_neg (by simp [hruns, hop])]
  dsimp only
  rw [after, coreWrite_own (by rwa [leBytes_length])]

/-- The size of an access divides the size of a core's SRAM. -/
theorem accessSize_dvd (o : Nat) : (accessSize o).1 ∣ 0x01000000 := by
  have hsize : (accessSize o).1 = 1 ∨ (accessSize o).1 = 2 ∨ (accessSize o).1 = 4 ∨ (accessSize o).1 = 8 := by
    unfold accessSize
    split <;> decide
  obtain h | h | h | h := hsize <;> rw [h] <;> exact Nat.dvd_of_mod_eq_zero rfl

/-- An access of a bundle that issues lies in the core's own SRAM where it begins there. -/
theorem inOwn_access (h : Issuing s n u b) (hruns : slotRuns b (bankNow s n u) 0 = true)
    (hop : 0x40 ≤ scOp true (slotS b) ∧ scOp true (slotS b) ≤ 0x4B) (hown : inOwn n (sAddress b (bankNow s n u)) 1 = true) :
    inOwn n (sAddress b (bankNow s n u)) (accessSize (scOp true (slotS b))).1 = true :=
  inOwn_of_aligned (accessSize_dvd _) (aligned_of_scalarExc (h.scalarExc_none hruns) hop) hown

theorem performed_load (h : Issuing s n u b) (honly : onlyS b = true) (hruns : slotRuns b (bankNow s n u) 0 = true)
    (hop : 0x40 ≤ scOp true (slotS b) ∧ scOp true (slotS b) ≤ 0x46) (hown : inOwn n (sAddress b (bankNow s n u)) 1 = true)
    (hok : islandStatus s (19 + n) = MS.ok) (hbad : badRanges s (sAddress b (bankNow s n u)) (accessSize (scOp true (slotS b))).1 = []) :
    performed s n u b = (wakeAt s (sAddress b (bankNow s n u)),
      { xs := [(scRd (slotS b), extendLoad (scOp true (slotS b)) (ofLe (memBytes s (sAddress b (bankNow s n u)) (accessSize (scOp true (slotS b))).1)), false)],
        froms := [(scRd (slotS b), sAddress b (bankNow s n u) % 2 ^ 48)] }) := by
  rw [performed_onlyS honly, scalarEffect_load hruns hop hown, localRead_own h.small hown hok h.noSramErr hbad, scalarStore_computes (by omega)]
  rfl

theorem performed_store (h : Issuing s n u b) (honly : onlyS b = true) (hruns : slotRuns b (bankNow s n u) 0 = true)
    (hop : 0x48 ≤ scOp true (slotS b) ∧ scOp true (slotS b) ≤ 0x4B) (hown : inOwn n (sAddress b (bankNow s n u)) 1 = true)
    (hok : islandStatus s (19 + n) = MS.ok) :
    performed s n u b = (storeBytes (wakeAt s (sAddress b (bankNow s n u))) (sAddress b (bankNow s n u))
      (leBytes (accessSize (scOp true (slotS b))).1 (xr (bankNow s n u) (scRs2 (slotS b)))) [], {}) := by
  rw [performed_onlyS honly, scalarEffect_store hop, scalarStore_runs hruns hop (inOwn_access h hruns (by omega) hown), localWrite_own h.small hown hok]

/-- A read of own SRAM leaves the cores and the registers, so no injection meets what it writes. -/
theorem quiet_of_wakeAt (h : Issuing s n u b) {a : Nat} (hsame : (performed s n u b).1 = wakeAt s a) : Quiet s n u b := by
  have hrest := wakeAt_rest s a
  refine ⟨?_, .inr ?_⟩
  · rw [hsame, hrest]
  · rw [hsame, hrest]
    exact h.unarmed
end

/-- A loaded value of the width of its access, extended to a register (R418). -/
theorem extendLoad_signed {o v : Nat} (h : (accessSize o).2 = true) : extendLoad o v % 2 ^ 64 = unsx 64 (sx (8 * (accessSize o).1) v) := by
  unfold extendLoad
  rw [if_pos h]
  unfold unsx
  omega

theorem extendLoad_unsigned {o v : Nat} (h : (accessSize o).2 = false) (hv : v < 256 ^ (accessSize o).1) : extendLoad o v % 2 ^ 64 = v := by
  have hsize : 2 ^ (8 * (accessSize o).1) = 256 ^ (accessSize o).1 := by rw [pow_mul]; rfl
  have hwidth : 256 ^ (accessSize o).1 ≤ 2 ^ 64 := by
    unfold accessSize
    split <;> decide
  unfold extendLoad
  rw [if_neg (by simp [h]), hsize, Nat.mod_eq_of_lt hv, Nat.mod_eq_of_lt (by omega)]

/-- Settles O9: the address lies in own SRAM and nothing there is poisoned, so the register takes the extended bytes. -/
theorem scalarLoadResult : Obligations.ScalarLoadResult := by
  unfold Obligations.ScalarLoadResult
  intro s n u b k o a hissues honly hruns hstraight hwide hlow hhigh hown hbad hok
  have h := issuing_of_issues hissues
  have hperformed := performed_load h honly hruns ⟨hlow, hhigh⟩ hown hok hbad
  have hq : Quiet s n u b := quiet_of_wakeAt (a := a) h (by rw [hperformed])
  have hrow : scalarRow n (scOp true (slotS b)) = some (.ldbLdbuLdhLdhuLdwLdwuLdd n) := by
    have hlow' : 0x40 ≤ scOp true (slotS b) := hlow
    have hhigh' : scOp true (slotS b) ≤ 0x46 := hhigh
    generalize scOp true (slotS b) = o at hlow' hhigh'
    interval_cases o <;> rfl
  have hx := x_issued h hq
  rw [hperformed] at hx
  refine runs_scalar hissues honly hrow ⟨fun d => ?_, pc_issued_idle h hq (idle_of_onlyS honly _ 1 (by decide) (by decide)) hstraight,
    otherBanks_issued h hq, fun c => ?_⟩
  · rw [xr_set (bad := false) hx hwide (scRd_lt _) d]
    refine if_congr Iff.rfl ?_ rfl
    change extendLoad o (ofLe (memBytes s a (accessSize o).1)) % 2 ^ 64 = _
    have hlt := ofLe_memBytes_lt s a
    clear_value o
    interval_cases o
    · exact extendLoad_signed rfl
    · exact extendLoad_unsigned rfl (hlt 1)
    · exact extendLoad_signed rfl
    · exact extendLoad_unsigned rfl (hlt 2)
    · exact extendLoad_signed rfl
    · exact extendLoad_unsigned rfl (hlt 4)
    · exact extendLoad_unsigned rfl (hlt 8)
  · rw [memByte, mem_issued h hq, hperformed, wakeAt_rest]
    rfl

/-- Settles O10: the store puts its bytes into own SRAM and leaves the cores. -/
theorem scalarStoreResult : Obligations.ScalarStoreResult := by
  unfold Obligations.ScalarStoreResult
  intro s n u b k o a z hissues honly hruns hstraight hlow hhigh hown hok
  have h := issuing_of_issues hissues
  have hperformed := performed_store h honly hruns ⟨hlow, hhigh⟩ hown hok
  have hstored : Stored s (performed s n u b).1 a (leBytes z (xr k (scRs2 (slotS b)))) := by
    rw [hperformed]
    exact stored_own s a _ []
  have hq : Quiet s n u b := ⟨by rw [hperformed]; exact cores_storeBytes s a _ _, .inl (by rw [hperformed]; rfl)⟩
  have hrow : scalarRow n (scOp true (slotS b)) = some (.stbSthStwStd n) := by
    have hlow' : 0x48 ≤ scOp true (slotS b) := hlow
    have hhigh' : scOp true (slotS b) ≤ 0x4B := hhigh
    generalize scOp true (slotS b) = o at hlow' hhigh'
    interval_cases o <;> rfl
  have hissued : Stored s (issued s n u b) a (leBytes z (xr k (scRs2 (slotS b)))) := by
    rw [Stored, mem_issued h hq]
    exact hstored
  refine runs_scalar hissues honly hrow ⟨fun i hi => hissued.digit hi, fun c hc => hissued.other (by simpa using hc), fun d => xr_congr ?_ d, ?_, ?_,
    otherBanks_issued h hq⟩
  · rw [x_issued h hq, hperformed]
    rfl
  · rw [p_issued h hq, hperformed]
    rfl
  · rw [v_issued h hq, hperformed]
    rfl

end Sys2Proof.Scalar
end

section
/-! The V slots: results, moves, loads and stores (15 R464 to R469). -/
namespace Sys2Proof.Vector
open Sys2Proof Sys2Proof.Machine Sys2Proof.Laws Sys2Proof.Claims Sys2Proof.Bundles Sys2Proof.Effects

section
variable {s : State} {n b : Nat} {u : Bool} {k : Bank}

/-- What an operation of V slot 0 computes: one vector, or two. -/
def resultOf (k : Bank) (b : Nat) : Nat × Option Nat :=
  let w := slotV b 0
  let r (j : Nat) : Nat := (nth k.v j {}).data
  vectorResult w (vOperand b w k) (r (vVa w)) (r (vVb w)) (r (vVc w)) (r (vVd w)) ((span (vVa w) (vR w)).map r)

theorem vectorEffect_one (hruns : slotRuns b k 2 = true) (hld : vOp (slotV b 0) ≠ 0x01) (hst : vOp (slotV b 0) ≠ 0x02) (hmov : vOp (slotV b 0) ≠ 0x04)
    (hone : (resultOf k b).2 = none) : vectorEffect s k b 0 = (s, { vs := [(vVd (slotV b 0), { data := (resultOf k b).1, marks := 0 })] }) := by
  unfold vectorEffect
  rw [if_neg (by simp [hruns, hst]), if_neg hld, if_neg hmov]
  unfold resultOf at *
  dsimp only at *
  rw [hone]

theorem vectorEffect_two {y : Nat} (hruns : slotRuns b k 2 = true) (hld : vOp (slotV b 0) ≠ 0x01) (hst : vOp (slotV b 0) ≠ 0x02)
    (hmov : vOp (slotV b 0) ≠ 0x04) (htwo : (resultOf k b).2 = some y) : vectorEffect s k b 0 =
      (s, { vs := [(vVd (slotV b 0), { data := (resultOf k b).1, marks := 0 }), (vVd (slotV b 0) + 1, { data := y, marks := 0 })] }) := by
  unfold vectorEffect
  rw [if_neg (by simp [hruns, hst]), if_neg hld, if_neg hmov]
  unfold resultOf at *
  dsimp only at *
  rw [htwo]

theorem vectorEffect_move (hruns : slotRuns b k 2 = true) (hop : vOp (slotV b 0) = 0x04) :
    vectorEffect s k b 0 = (s, { vs := [(vVd (slotV b 0), nth k.v (vVa (slotV b 0)) {})] }) := by
  unfold vectorEffect
  rw [if_neg (by simp [hruns, hop]), if_neg (by rw [hop]; decide), if_pos hop]

theorem vectorEffect_load (hruns : slotRuns b k 2 = true) (hop : vOp (slotV b 0) = 0x01) :
    vectorEffect s k b 0 =
      (let g := localRead s (vAddress b (slotV b 0) k) 256
       (g.1, { vs := [(vVd (slotV b 0), { data := ofLe g.2.data, marks := quarterMarks g.2.bad })] })) := by
  unfold vectorEffect
  rw [if_neg (by simp [hruns, hop]), if_pos hop]

theorem quarterMarks_nil : quarterMarks [] = 0 := by decide

theorem vectorEffect_store (hop : vOp (slotV b 0) = 0x02) : vectorEffect s k b 0 = (s, {}) := if_pos (by simp [hop])

theorem vectorStore_other (hop : vOp (slotV b 0) ≠ 0x02) : vectorStore s k b 0 = s := if_pos (by simp [hop])

theorem vectorStore_runs (hruns : slotRuns b k 2 = true) (hop : vOp (slotV b 0) = 0x02) : vectorStore s k b 0 =
    (localWrite s (vAddress b (slotV b 0) k) (leBytes 256 (nth k.v (vVa (slotV b 0)) {}).data)
      ((bitList (nth k.v (vVa (slotV b 0)) {}).marks 4).map fun q => (64 * q, 64))).1 := if_neg (by simp [hruns, hop])

theorem acts_onlyV {e : Effect} (h : Issues s n u b = true) (honly : onlyV b = true) (hop : vOp (slotV b 0) ≠ 0x02)
    (heffect : vectorEffect s (bankNow s n u) b 0 = (s, e)) : Acts s n u b { vs := e.vs } :=
  { issuing_of_issues h with performed := by rw [performed_onlyV honly, heffect, vectorStore_other hop] }

theorem vVd_lt (w : Nat) : vVd w < 32 := bits_lt w 115 111

/-- Two neighbouring registers are written. -/
theorem nth_set_set {v : List VReg} {d : Nat} {x y : VReg} (hd : d + 1 < v.length) (i : Nat) :
    nth ((v.set d x).set (d + 1) y) i {} = if i = d then x else if i = d + 1 then y else nth v i {} := by
  rw [nth_set (by simpa using hd), nth_set (by omega)]
  split_ifs with hsecond hfirst
  · omega
  all_goals rfl
end

/-- Settles O18: the V slot writes its one or two registers, and nothing else of the bank or of the machine but counters. -/
theorem vectorResult : Obligations.VectorResult := by
  unfold Obligations.VectorResult
  intro s n u b i k w r res hissues honly hruns hstraight hwide hrow hld hst hmov hpair
  have hidle := idle_of_onlyV honly k 1 (by decide) (by decide)
  cases hsecond : res.2 with
  | none =>
    have h := acts_onlyV hissues honly hst (vectorEffect_one hruns hld hst hmov hsecond)
    refine runs_vector hissues honly hrow ⟨fun d => ?_, h.x, h.p, pc_issued_idle h.toIssuing h.quiet hidle hstraight, h.others, h.frame⟩
    rw [h.v]
    exact nth_set (by rw [hwide]; exact vVd_lt w) d
  | some y =>
    have h := acts_onlyV hissues honly hst (vectorEffect_two hruns hld hst hmov hsecond)
    refine runs_vector hissues honly hrow ⟨fun d => ?_, h.x, h.p, pc_issued_idle h.toIssuing h.quiet hidle hstraight, h.others, h.frame⟩
    rw [h.v]
    exact nth_set_set (by rw [hwide]; exact hpair (by rw [hsecond]; nofun)) d

/-! VLD and VST (R467). -/

section
variable {s : State} {n b : Nat} {u : Bool}

/-- The address of a load or store that issues. -/
theorem inOwn_vAddress (h : Issuing s n u b) (hruns : slotRuns b (bankNow s n u) 2 = true) (hop : vOp (slotV b 0) = 1 ∨ vOp (slotV b 0) = 2) :
    inOwn n (vAddress b (slotV b 0) (bankNow s n u)) 1 = true :=
  inOwn_one (by decide) (inOwn_of_vectorExc (h.vectorExc_none hruns) hop)

theorem performed_vld (h : Issuing s n u b) (honly : onlyV b = true) (hruns : slotRuns b (bankNow s n u) 2 = true) (hop : vOp (slotV b 0) = 0x01)
    (hok : islandStatus s (19 + n) = MS.ok) (hbad : badRanges s (vAddress b (slotV b 0) (bankNow s n u)) 256 = []) :
    performed s n u b = (wakeAt s (vAddress b (slotV b 0) (bankNow s n u)),
      { vs := [(vVd (slotV b 0), { data := ofLe (memBytes s (vAddress b (slotV b 0) (bankNow s n u)) 256), marks := 0 })] }) := by
  rw [performed_onlyV honly, vectorEffect_load hruns hop, localRead_own h.small (inOwn_vAddress h hruns (.inl hop)) hok h.noSramErr hbad,
    vectorStore_other (by rw [hop]; decide)]
  simp only [quarterMarks_nil]

theorem performed_vst (h : Issuing s n u b) (honly : onlyV b = true) (hruns : slotRuns b (bankNow s n u) 2 = true) (hop : vOp (slotV b 0) = 0x02)
    (hok : islandStatus s (19 + n) = MS.ok) :
    ∃ bad, performed s n u b = (storeBytes (wakeAt s (vAddress b (slotV b 0) (bankNow s n u))) (vAddress b (slotV b 0) (bankNow s n u))
      (leBytes 256 (nth (bankNow s n u).v (vVa (slotV b 0)) {}).data) bad, {}) := by
  refine ⟨(bitList (nth (bankNow s n u).v (vVa (slotV b 0)) {}).marks 4).map fun q => (64 * q, 64), ?_⟩
  rw [performed_onlyV honly, vectorEffect_store hop, vectorStore_runs hruns hop, localWrite_own h.small (inOwn_vAddress h hruns (.inr hop)) hok]
end

/-- Settles O19: VMOV moves a register with its marks, VLD reads own SRAM, VST writes it. -/
theorem vectorMoveLoadStore : Obligations.VectorMoveLoadStore := by
  unfold Obligations.VectorMoveLoadStore
  intro s n u b k w a hissues honly hruns hwide
  have h := issuing_of_issues hissues
  refine ⟨fun hop => ?move, fun hop hok hbad => ?load, fun hop hok => ?store⟩
  case move =>
    have hacts := acts_onlyV hissues honly (by rw [hop]; decide) (vectorEffect_move hruns hop)
    refine runs_vector hissues honly (by rw [hop]; rfl) fun d => ?_
    rw [hacts.v]
    exact nth_set (by rw [hwide]; exact vVd_lt w) d
  case load =>
    have hperformed := performed_vld h honly hruns hop hok hbad
    have hq : Quiet s n u b := Scalar.quiet_of_wakeAt (a := a) h (by rw [hperformed])
    refine runs_vector hissues honly (by rw [hop]; rfl) ⟨?_, fun c => ?_⟩
    · rw [v_issued h hq, hperformed]
      exact Cores.nth_set_self (by rw [hwide]; exact vVd_lt w) _ _
    · rw [memByte, mem_issued h hq, hperformed, wakeAt_rest]
      rfl
  case store =>
    obtain ⟨bad, hperformed⟩ := performed_vst h honly hruns hop hok
    have hq : Quiet s n u b := ⟨by rw [hperformed]; exact cores_storeBytes s a _ _, .inl (by rw [hperformed]; rfl)⟩
    have hissued : Stored s (issued s n u b) a (leBytes 256 (nth k.v (vVa w) {}).data) := by
      rw [Stored, mem_issued h hq, hperformed]
      exact stored_own s a _ bad
    refine runs_vector hissues honly (by rw [hop]; rfl) ⟨fun i hi => hissued.digit hi, fun c hc => hissued.other (by simpa using hc), ?_, ?_,
      otherBanks_issued h hq⟩
    · rw [v_issued h hq, hperformed]
      rfl
    · rw [x_issued h hq, hperformed]
      rfl

end Sys2Proof.Vector
end

section
/-! The A and M slots: what a bundle's units accept (13 R436, R437, 14 R446, R461). -/
namespace Sys2Proof.Units
open Sys2Proof Sys2Proof.Machine Sys2Proof.Laws Sys2Proof.Claims Sys2Proof.Bundles Sys2Proof.Effects Sys2Proof.Cores

section
variable {n op b j : Nat} {i : Instr} {ops : List Nat}

theorem holdsRow_array (hpush : scOp false (slotC b) ≠ 0x10) (hpop : scOp false (slotC b) ≠ 0x11) (h : aOp (slotA b) ∈ ops) : holdsRow b .a ops = true := by
  simpa [holdsRow, hpush, hpop] using h

theorem holdsRow_mover (hpush : scOp false (slotC b) ≠ 0x10) (hpop : scOp false (slotC b) ≠ 0x11) (hj : j < 2) (h : mOp (slotM b j) ∈ ops) :
    holdsRow b .m ops = true := by
  have hslot : mOp (slotM b 0) ∈ ops ∨ mOp (slotM b 1) ∈ ops := by
    interval_cases j
    · exact .inl h
    · exact .inr h
  simpa [holdsRow, hpush, hpop] using hslot

/-- The row of an array opcode, and of a mover opcode, names that opcode. -/
theorem exec_arrayRow (h : arrayRow n op = some i) : ∀ s, exec i s = issueRow n .a [op] 0 .alone [] s := by
  unfold arrayRow at h
  split at h <;> cases h <;> exact fun _ => rfl

theorem exec_moverRow (h : moverRow n op = some i) : ∀ s, exec i s = issueRow n .m [op] 0 .alone [] s := by
  unfold moverRow at h
  split at h <;> cases h <;> exact fun _ => rfl
end

/-! Acceptance. -/

section
variable {k : Core} {bk : Bank} {u : Bool} {b j : Nat} {c : ArrayCmd}

/-- The core with the array command of a bundle accepted. -/
def withCmd (k : Core) (bk : Bank) (b : Nat) (c : ArrayCmd) : Core := if slotRuns b bk 4 then { k with cmds := k.cmds ++ [c] } else k

/-- The instruction of M slot `i` as its mover takes it: failed where an earlier one of that mover has failed (R439). -/
def accepted (k : Core) (bk : Bank) (u : Bool) (b i : Nat) : MoverOp :=
  let m := moverOp (slotM b i) bk u k.seq
  let broken := (nth k.movers i []).findSome? (·.failed)
  if broken.isSome then { m with failed := broken, pieces := [] } else m

/-- The core with the instruction of M slot `i` accepted. -/
def withMover (k : Core) (bk : Bank) (u : Bool) (b i : Nat) : Core :=
  if !slotRuns b bk (5 + i) then k else updMover { k with seq := k.seq + 1 } i fun q => q ++ [accepted k bk u b i]

theorem acceptUnits_eq : acceptUnits k bk u b c = withMover (withMover (withCmd k bk b c) bk u b 0) bk u b 1 := rfl

theorem accepted_fields : (accepted k bk u b j).op = mOp (slotM b j) ∧ (accepted k bk u b j).urgent = u := by
  unfold accepted
  dsimp only
  split <;> exact ⟨rfl, rfl⟩

theorem cmds_withMover : (withMover k bk u b j).cmds = k.cmds := by
  unfold withMover
  split <;> rfl

theorem movers_withCmd : (withCmd k bk b c).movers = k.movers := by
  unfold withCmd
  split <;> rfl

theorem movers_withMover_length : (withMover k bk u b j).movers.length = k.movers.length := by
  unfold withMover
  split
  · rfl
  · exact List.length_modify _ _ _

theorem movers_withMover_self (hruns : slotRuns b bk (5 + j) = true) (hj : j < k.movers.length) :
    nth (withMover k bk u b j).movers j [] = nth k.movers j [] ++ [accepted k bk u b j] := by
  rw [withMover, if_neg (by simp [hruns])]
  exact Islands.nth_updAt_self hj _ _

theorem movers_withMover_ne {i : Nat} (h : i ≠ j) : nth (withMover k bk u b j).movers i [] = nth k.movers i [] := by
  unfold withMover
  split
  · rfl
  · rw [updMover, updAt, nth, List.getElem?_modify_ne _ _ (Ne.symm h)]
    rfl

theorem cmds_acceptUnits (hruns : slotRuns b bk 4 = true) : (acceptUnits k bk u b c).cmds = k.cmds ++ [c] := by
  rw [acceptUnits_eq, cmds_withMover, cmds_withMover, withCmd, if_pos hruns]

/-- The mover of an M slot takes its instruction behind those that it has. -/
theorem movers_acceptUnits (hj : j < 2) (hruns : slotRuns b bk (5 + j) = true) (hlen : k.movers.length = 2) :
    ∃ m, nth (acceptUnits k bk u b c).movers j [] = nth k.movers j [] ++ [m] ∧ m.op = mOp (slotM b j) ∧ m.urgent = u := by
  rw [acceptUnits_eq]
  obtain rfl | rfl : j = 0 ∨ j = 1 := by omega
  · refine ⟨accepted (withCmd k bk b c) bk u b 0, ?_, accepted_fields⟩
    rw [movers_withMover_ne (by decide), movers_withMover_self hruns (by rw [movers_withCmd, hlen]; decide), movers_withCmd]
  · refine ⟨accepted (withMover (withCmd k bk b c) bk u b 0) bk u b 1, ?_, accepted_fields⟩
    rw [movers_withMover_self hruns (by rw [movers_withMover_length, movers_withCmd, hlen]; decide), movers_withMover_ne (by decide), movers_withCmd]
end

section
variable {s : State} {n b : Nat} {u : Bool}

/-- A core's lists after a bundle are those that it accepted. -/
theorem units_nextCore (u : Bool) (b : Nat) (c : ArrayCmd) (e : Effect) (k : Bank) (core : Core) :
    (nextCore u b c e k core).cmds = (acceptUnits { core with seq := core.seq + 1 } k u b c).cmds
      ∧ (nextCore u b c e k core).movers = (acceptUnits { core with seq := core.seq + 1 } k u b c).movers := by
  cases u <;> exact ⟨rfl, rfl⟩

theorem sameBytes_of_acts {e : Effect} (h : Acts s n u b e) : SameBytes s (issued s n u b) :=
  RegisterPages.sameBytes_of_mem (by rw [mem_issued h.toIssuing h.quiet, h.same])

theorem acts_onlyUnits (h : Issues s n u b = true) (honly : onlyUnits b = true) : Acts s n u b {} :=
  { issuing_of_issues h with performed := performed_onlyUnits honly }
end

/-- Settles O20: the bundle issues under the row of either unit; alone it changes nothing but the unit's list and the bundle address. -/
theorem arrayAndMoverRowsIssue : Obligations.ArrayAndMoverRowsIssue := by
  unfold Obligations.ArrayAndMoverRowsIssue
  intro s n u b i t hissues hpush hpop
  refine ⟨fun hruns hrow => ⟨?_, fun honly => ?_⟩, fun j hj hruns hlen hrow => ⟨?_, fun honly => ?_⟩⟩
  · exact gives_of_issues (exec_arrayRow hrow s) (holdsRow_array hpush hpop (List.mem_singleton.mpr rfl)) hissues
  · have h := acts_onlyUnits hissues honly
    refine ⟨?_, sameBytes_of_acts h, h.x⟩
    rw [coreOf_issued h.toIssuing h.quiet, (units_nextCore _ _ _ _ _ _).1, cmds_acceptUnits hruns]
  · exact gives_of_issues (exec_moverRow hrow s) (holdsRow_mover hpush hpop hj (List.mem_singleton.mpr rfl)) hissues
  · have h := acts_onlyUnits hissues honly
    refine ⟨sameBytes_of_acts h, h.x, ?_⟩
    rw [coreOf_issued h.toIssuing h.quiet, (units_nextCore _ _ _ _ _ _).2]
    exact movers_acceptUnits hj hruns hlen

end Sys2Proof.Units
end

section
/-! The test access port, the management port and the holdover of the time base (26 R776, R780, R781; 09 R296). -/
namespace Sys2Proof.Ports
open Sys2Proof Sys2Proof.Machine Sys2Proof.Laws Sys2Proof.Claims Sys2Proof.Frames

section
variable {s : State} {a : Nat} {d : List Byte}

theorem tapTake_powered (h : s.boot.powered = true) (f : Tap → Tap) : tapTake s f = { s with tap := f s.tap } := if_pos h

theorem frame_tapTake (s : State) (f : Tap → Tap) : Frame s { tapTake s f with tap := s.tap } [] := by
  unfold tapTake
  split <;> exact frame_refl s

/-! The management port: one word. -/

theorem field_word (h : d.length = 4) : field d 0 4 = ofLe d := by
  rw [field, List.drop_zero, List.take_of_length_le h.le]

theorem mgmtStores_word (h : d.length = 4) (ha : a < 2 ^ 24) : mgmtStores (d.length / 4) s a d = mgmtStore s a (ofLe d) := by
  rw [h]
  show mgmtStore s (a % 2 ^ 24) (field d 0 4) = _
  rw [Nat.mod_eq_of_lt ha, field_word h]

theorem mgmtLoads_word (ha : a < 2 ^ 24) : mgmtLoads 1 s a = mgmtLoad s a := by
  have hpair : mgmtLoads 1 s a = ((mgmtLoad s (a % 2 ^ 24)).1, (mgmtLoad s (a % 2 ^ 24)).2 ++ []) := rfl
  rw [hpair, Nat.mod_eq_of_lt ha, List.append_nil]

/-- The ledger buffer with a word written at an address into it. -/
@[irreducible] def wordWritten (a w : Nat) (ledger : List Byte) : List Byte := (putBytes ledger (a - 0x100000) (leBytes 4 w)).take 2048

theorem wordWritten_eq (a w : Nat) (ledger : List Byte) : wordWritten a w ledger = (putBytes ledger (a - 0x100000) (leBytes 4 w)).take 2048 := by
  unfold wordWritten
  rfl

theorem wordWritten_last (w : Nat) (ledger : List Byte) : wordWritten 0x1007FC w ledger = (putBytes ledger 0x7FC (leBytes 4 w)).take 2048 := by
  rw [wordWritten_eq, show 0x1007FC - 0x100000 = 0x7FC by norm_num]

def ledgerWritten (s : State) (a w : Nat) : State := updBoot s fun b => { b with ledger := wordWritten a w b.ledger }

/-- A change of the boot block by a word leaves everything else, and asks for nothing. -/
theorem frame_given_updBoot (s : State) (f : Boot → Boot) : Frame s { given s (updBoot (withHost s []) f) with boot := s.boot } [] := frame_refl s

theorem rd_given_updBoot (s : State) (f : Boot → Boot) (off : Nat) : rd (given s (updBoot (withHost s []) f)) off = rd s off := rfl

theorem unheld_updBoot (s : State) (f : Boot → Boot) : Unheld (updBoot (withHost s []) f) := ⟨rfl, rfl, rfl⟩

theorem unheld_ledgerTaken {t : State} (h : Unheld t) (bitmap : List Byte) : Unheld (ledgerTaken t bitmap) := h

/-- The buffer after a command of the host has changed it. -/
theorem ledger_given_updBoot (s : State) (f : List Byte → List Byte) :
    (given s (updBoot (withHost s []) fun b => { b with ledger := f b.ledger })).boot.ledger = f s.boot.ledger := rfl

theorem ledger_given (s : State) (a w : Nat) : (given s (ledgerWritten (withHost s []) a w)).boot.ledger = wordWritten a w s.boot.ledger :=
  ledger_given_updBoot s (wordWritten a w)

theorem ledger_given_taken (s : State) (bitmap : List Byte) (t : State) : (given s (ledgerTaken t bitmap)).boot.ledger = bitmap := rfl

theorem mgmtStore_ledger (hlow : 0x100000 ≤ a) (hhigh : a < 0x1007FC) (w : Nat) : mgmtStore s a w = ledgerWritten s a w := by
  have hbuffer : ledgerBase ≤ a ∧ a < ledgerBase + 0x800 := by unfold ledgerBase; omega
  unfold mgmtStore
  have hinner : ¬(decide (a = 0x1007FC) && ledgerOpen s) = true := by simp; omega
  rw [if_neg (by omega), if_pos hbuffer]
  dsimp only
  rw [if_neg hinner]
  unfold ledgerWritten wordWritten ledgerBase
  rfl

/-- The last word of the buffer ends the ledger request. -/
theorem mgmtStore_ledger_last (h : ledgerOpen s = true) (w : Nat) :
    mgmtStore s 0x1007FC w = ledgerTaken (ledgerWritten s 0x1007FC w) (ledgerWritten s 0x1007FC w).boot.ledger := by
  unfold mgmtStore
  rw [if_neg (by norm_num), if_pos (by norm_num [ledgerBase])]
  dsimp only
  rw [if_pos (by simp [h])]
  unfold ledgerWritten wordWritten ledgerBase
  rfl

theorem mgmtStore_page (ha : a < 0x40000) (w : Nat) : mgmtStore s a w = (pageWrite s .fyp a 4 w).1 := if_pos ha

theorem mgmtLoad_page (ha : a < 0x40000) : mgmtLoad s a = ((pageRead s .fyp a 4).1, (pageRead s .fyp a 4).2.2) := if_pos ha

theorem mgmtLoad_ledger (hlow : 0x100000 ≤ a) (hhigh : a < 0x100800) : mgmtLoad s a = (s, padTo 4 ((s.boot.ledger.drop (a - 0x100000)).take 4)) := by
  have hbuffer : ledgerBase ≤ a ∧ a < ledgerBase + 0x800 := by unfold ledgerBase; omega
  unfold mgmtLoad
  rw [if_neg (by omega), if_pos hbuffer]
  rfl

theorem phase_ledgerTaken (s : State) (bitmap : List Byte) : phase (ledgerTaken s bitmap) = 1 := RegisterPages.rf_wf_self (by decide)

/-- A word that is written while the die runs. -/
theorem gives_mgmtWrite {t : State} (hup : dieUp s = true) (hd : d.length = 4) (ha : a < 2 ^ 24) (ht : mgmtStore (withHost s []) a (ofLe d) = t) (hu : Unheld t) :
    Gives (.mgmtWrite a d) s (given s t) := by
  show execMgmtWrite a d s = _
  rw [execMgmtWrite, if_pos hup]
  exact RegisterPages.served_next (congrArg _ ((mgmtStores_word hd ha).trans ht)) hu

theorem gives_mgmtRead {t : State} {bs : List Byte} (hup : dieUp s = true) (ha : a < 2 ^ 24) (hload : mgmtLoad s a = (t, bs)) :
    Gives (.mgmtRead a 1) s { t with readData := bs } := by
  show execMgmtRead a 1 s = _
  rw [execMgmtRead, if_neg (by simp [hup]), mgmtLoads_word ha, hload]
end

/-- Settles O60: the instructions of the test access port, the words of the management port, and the holdover. -/
theorem portsAndHoldover : Obligations.PortsAndHoldover := by
  unfold Obligations.PortsAndHoldover
  intro s
  refine ⟨fun hpowered => ?tap, fun hoff => ?unpowered, fun hdown => ?down, fun a d hup hlow hhigh hd => ⟨?write, ?read⟩, fun d hup hopen hd => ?last,
    fun a d hup ha hd => ⟨fun hu => ?pageWrite, ?pageRead⟩, fun hlocked => ?holdover, fun hother => ?free⟩
  case tap =>
    refine ⟨fun data pins => ?_, fun data pins => ?_, ⟨_, rfl, ?_⟩, ⟨_, rfl, ?_⟩, ⟨_, rfl, ?_⟩⟩
    · exact congrArg _ (tapTake_powered hpowered _)
    · exact congrArg _ (tapTake_powered hpowered _)
    · refine ⟨?_, ?_, ?_, ?_, frame_tapTake s _⟩ <;> rw [tapTake_powered hpowered]
    · refine ⟨?_, ?_, ?_, ?_, frame_tapTake s _⟩ <;> rw [tapTake_powered hpowered]
    · refine ⟨?_, ?_, frame_tapTake s _⟩ <;> rw [tapTake_powered hpowered]
  case unpowered => exact fun data pins => congrArg _ (if_neg (by simp [hoff]))
  case down => exact fun a d words => ⟨if_neg (by simp [hdown]), if_pos (by simp [hdown])⟩
  case write =>
    have ha : a < 2 ^ 24 := by omega
    refine ⟨_, gives_mgmtWrite hup hd ha (mgmtStore_ledger hlow hhigh _) (unheld_updBoot s _), ?_, rd_given_updBoot s _ _, frame_given_updBoot s _⟩
    exact (ledger_given s a (ofLe d)).trans (wordWritten_eq _ _ _)
  case read =>
    refine ⟨_, gives_mgmtRead hup (by omega) (mgmtLoad_ledger hlow (by omega)), ?_, RegisterPages.sameBytes_of_mem rfl⟩
    dsimp only
  case last =>
    have hopen' : ledgerOpen (withHost s []) = true := hopen
    refine ⟨_, gives_mgmtWrite hup hd (by norm_num) (mgmtStore_ledger_last hopen' _) (unheld_ledgerTaken (unheld_updBoot s _) _), phase_ledgerTaken _ _, rfl, ?_⟩
    rw [ledger_given_taken]
    exact (ledger_given s 0x1007FC (ofLe d)).trans (wordWritten_last _ _)
  case pageWrite => exact gives_mgmtWrite hup hd (by omega) (mgmtStore_page ha _) hu
  case pageRead => exact gives_mgmtRead hup (by omega) (mgmtLoad_page ha)
  case holdover =>
    have hraised := onPage_raise (s := { s with tb := { s.tb with state := 2 } }) (pg := P.aon) 11
    refine ⟨_, if_pos hlocked, ?_, rb_raise _ _ (by decide), frame_tb (Mesh.frame_of_onPage hraised)⟩
    rw [hraised.rest]
  case free => exact if_neg hother

end Sys2Proof.Ports
end

section
/-! Fypajo's records and frames, and what they leave: the layer of the module's supervision and of its mailbox (25 R734, R739, R754). -/
namespace Sys2Proof.Fypajo
open Sys2Proof Sys2Proof.Machine Sys2Proof.Laws Sys2Proof.Claims

/-- The module `j` with what Fypajo tells of it taken from `k`: its state and cause, the events, the frames, the haptic pattern, the records that are owed. -/
def told (j k : Module) : Module :=
  { j with st := k.st, cause := k.cause, events := k.events, later := k.later, frames := k.frames, alive := k.alive, degraded := k.degraded,
           patterns := k.patterns }

/-- From `s` to `t` Fypajo has only told of the module: in records to the recorder, in frames, in its own registers and by free values. -/
def Tells (s t : State) : Prop := t = { s with drawn := t.drawn, toCsh := t.toCsh, jione := told s.jione t.jione }

section
variable {s t u : State}

theorem tells_refl (s : State) : Tells s s := rfl

theorem Tells.trans (h : Tells s t) (k : Tells t u) : Tells s u :=
  Eq.trans (b := ({ t with drawn := u.drawn, toCsh := u.toCsh, jione := told t.jione u.jione } : State)) k
    (congrArg (fun x : State => { x with drawn := u.drawn, toCsh := u.toCsh, jione := told x.jione u.jione }) h)

theorem Tells.jione (h : Tells s t) : t.jione = told s.jione t.jione := (congrArg State.jione h :)

theorem Tells.boot (h : Tells s t) : t.boot = s.boot := (congrArg State.boot h :)

theorem Tells.mem (h : Tells s t) : t.mem = s.mem := (congrArg State.mem h :)

theorem Tells.regs (h : Tells s t) : t.regs = s.regs := (congrArg State.regs h :)

/-- A field of the module that tells nothing. -/
theorem Tells.field {α : Type} (f : Module → α) (h : Tells s t) (hf : ∀ j k, f (told j k) = f j) : f t.jione = f s.jione :=
  (congrArg f h.jione).trans (hf _ _)

theorem Tells.rails (h : Tells s t) : t.jione.rails = s.jione.rails := h.field (·.rails) fun _ _ => rfl

theorem Tells.modOn (h : Tells s t) : modOn t = modOn s := by rw [Machine.modOn, Machine.modOn, h.rails, h.boot]

theorem Tells.phase (h : Tells s t) : phase t = phase s := by rw [Machine.phase, Machine.phase, rf, rf, rd, rd, h.regs]

/-! Each telling. -/

theorem tells_updMod (f : Module → Module) (hf : f s.jione = told s.jione (f s.jione)) : Tells s (updMod s f) :=
  congrArg (fun j => ({ s with jione := j } : State)) hf

theorem tells_fresh (w : Nat) : Tells s (fresh s w).1 := rfl

theorem tells_fypRecord (code : Nat) (params : List Nat) : Tells s (fypRecord s code params) := by
  unfold fypRecord
  split
  · exact rfl
  · exact tells_updMod _ rfl

theorem tells_sendCan (k : Nat) (data : List Byte) : Tells s (sendCan s k data) := by
  unfold sendCan
  dsimp only
  split
  · exact tells_refl s
  · exact tells_updMod _ rfl

theorem tells_statusFrame : Tells s (statusFrame s) := by
  unfold statusFrame
  split
  · exact tells_sendCan _ _
  · exact (tells_fresh 27).trans (tells_sendCan _ _)

theorem tells_degradedFrame (cause : Nat) : Tells s (degradedFrame s cause) := by
  unfold degradedFrame
  exact (tells_sendCan 2 _).trans (tells_updMod _ rfl)

theorem tells_enterMod (st cause : Nat) : Tells s (enterMod s st cause) := by
  unfold enterMod
  split
  · exact tells_refl s
  · exact (tells_fypRecord _ _).trans ((tells_updMod _ rfl).trans tells_statusFrame)

theorem tells_settleMod : Tells s (settleMod s) := tells_enterMod _ _

theorem tells_fypHaptic (always : Bool) : Tells s (fypHaptic s always) := by
  unfold fypHaptic
  split
  · exact tells_refl s
  · exact tells_updMod _ rfl

theorem tells_risenFrames (rises : Nat) : Tells s (risenFrames s rises) := by
  have hstep : ∀ {x y : State} (b : Bool), Tells s x → Tells x y → Tells s (if b then y else x) := by
    intro x y b hx hy
    split
    · exact hx.trans hy
    · exact hx
  unfold risenFrames
  dsimp only
  refine hstep _ (hstep _ (hstep _ (tells_refl s) ?_) ?_) ?_
  · exact (tells_degradedFrame _).trans (tells_fypHaptic _)
  · exact (tells_degradedFrame _).trans (tells_fypHaptic _)
  · exact (tells_fresh 8).trans ((tells_degradedFrame _).trans (tells_fypHaptic _))

/-! The shutdown and the start. -/

theorem tells_shutCode (why : ShutCause) : Tells s (shutCode s why).1 := by
  cases why with
  | rail | fabLost | lockstep => exact tells_fresh 32
  | vin | trip | command | wake => exact tells_refl s

theorem tells_shutState (why : ShutCause) : Tells s (shutState s why).1 := by
  cases why with
  | lockstep => exact tells_fresh 8
  | vin | rail | trip | fabLost | command | wake => exact tells_refl s

/-- The module without its supply: the die reset and unpowered, the rails off. -/
def unpowered (s : State) : State := updMod (powerOff s) fun j => { j with rails := false, perst := j.perst }

theorem jione_unpowered (s : State) : (unpowered s).jione = { s.jione with rails := false } := rfl

/-- A shutdown tells of it, takes the supply away, and tells of the state that this leads to. -/
theorem shutDown_on (h : modOn s = true) (why : ShutCause) : ∃ x, Tells s x ∧ Tells (unpowered x) (shutDown s why) := by
  unfold shutDown
  rw [if_neg (by simp [h])]
  dsimp only
  refine ⟨_, ?_, (tells_shutState why).trans (tells_enterMod _ _)⟩
  split
  · exact (tells_shutCode why).trans (tells_fypRecord _ _)
  · exact (tells_shutCode why).trans (tells_updMod _ rfl)

theorem shutDown_off (h : modOn s = false) (why : ShutCause) : shutDown s why = s := if_pos (by simp [h])

/-- A shutdown leaves the module in STANDBY. -/
theorem modOn_shutDown (s : State) (why : ShutCause) : modOn (shutDown s why) = false := by
  cases h : modOn s with
  | false => rwa [shutDown_off h]
  | true =>
    obtain ⟨x, -, hend⟩ := shutDown_on h why
    exact hend.modOn.trans rfl

theorem mem_shutDown (h : modOn s = true) (why : ShutCause) : (shutDown s why).mem = [] := by
  obtain ⟨x, -, hend⟩ := shutDown_on h why
  exact hend.mem.trans rfl

/-- A shutdown changes of the module nothing but its rails and what it tells. -/
theorem shutDown_field {α : Type} (f : Module → α) (why : ShutCause) (htold : ∀ j k, f (told j k) = f j)
    (hrails : ∀ j, f { j with rails := false } = f j) : f (shutDown s why).jione = f s.jione := by
  cases h : modOn s with
  | false => rw [shutDown_off h]
  | true =>
    obtain ⟨x, hx, hend⟩ := shutDown_on h why
    rw [hend.field f htold, jione_unpowered, hrails, hx.field f htold]

/-- The module as a start leaves it before it tells of it. -/
def started (j : Module) (service : Bool) : Module := { j with rails := true, service := service, tripWait := false }

theorem startDie_field {α : Type} (f : Module → α) (service : Bool) (cause : Nat) (htold : ∀ j k, f (told j k) = f j) :
    f (startDie s service cause).jione = f (started s.jione service) := (tells_enterMod _ _).field f htold
end

end Sys2Proof.Fypajo
end

section
/-! The module's supervision (25 R732 to R750). -/
namespace Sys2Proof.Fypajo
open Sys2Proof Sys2Proof.Machine Sys2Proof.Laws Sys2Proof.Claims

section
variable {s t : State}

/-! The supply. -/

theorem vinTo_volts (mv : Int) (ma : Nat) (s : State) :
    (vinTo mv ma s).jione.mv = mv ∧ (vinTo mv ma s).jione.ma = ma ∧ (mv < 6000 → modOn (vinTo mv ma s) = false) := by
  have hdown : ∀ x : State, modOn (shutDown x .vin) = false ∧ (shutDown x .vin).jione.mv = x.jione.mv ∧ (shutDown x .vin).jione.ma = x.jione.ma :=
    fun x => ⟨modOn_shutDown x _, shutDown_field (·.mv) _ (fun _ _ => rfl) fun _ => rfl, shutDown_field (·.ma) _ (fun _ _ => rfl) fun _ => rfl⟩
  have hreset : ∀ (x : State) (b : Bool), modOn (if b then updMod x mailboxReset else x) = modOn x
      ∧ (if b then updMod x mailboxReset else x).jione.mv = x.jione.mv ∧ (if b then updMod x mailboxReset else x).jione.ma = x.jione.ma := by
    intro x b
    cases b <;> exact ⟨rfl, rfl, rfl⟩
  have htell : ∀ (x : State) (c : Nat), modOn (enterMod x (modState x) c) = modOn x ∧ (enterMod x (modState x) c).jione.mv = x.jione.mv
      ∧ (enterMod x (modState x) c).jione.ma = x.jione.ma :=
    fun x c => have h := tells_enterMod (s := x) (modState x) c
      ⟨h.modOn, h.field (·.mv) fun _ _ => rfl, h.field (·.ma) fun _ _ => rfl⟩
  unfold vinTo
  dsimp only
  rw [(htell _ _).1, (htell _ _).2.1, (htell _ _).2.2, (hreset _ _).1, (hreset _ _).2.1, (hreset _ _).2.2]
  split
  · rw [(hdown _).1, (hdown _).2.1, (hdown _).2.2]
    refine ⟨?_, ?_, fun _ => rfl⟩ <;> split <;> rfl
  · exact ⟨rfl, rfl, fun h => absurd h ‹_›⟩

/-! Starts and stops. -/

theorem fields_startDie (s : State) (service : Bool) (cause : Nat) :
    (startDie s service cause).jione.rails = true ∧ (startDie s service cause).jione.service = service
      ∧ (startDie s service cause).jione.tripWait = false ∧ (startDie s service cause).jione.fabRestarts = s.jione.fabRestarts :=
  ⟨startDie_field (·.rails) _ _ fun _ _ => rfl, startDie_field (·.service) _ _ fun _ _ => rfl, startDie_field (·.tripWait) _ _ fun _ _ => rfl,
    startDie_field (·.fabRestarts) _ _ fun _ _ => rfl⟩

theorem runs_moduleStart (h : mayStart s = true) : Runs (.moduleStart false) s fun t => t.jione.rails = true ∧ t.jione.service = false := by
  have hexec : exec (.moduleStart false) s = .next (startDie s false 1) := by
    show Host.Outcome.next (if mayStart s then startDie s false 1 else s) = _
    rw [if_pos h]
  obtain ⟨hrails, hservice, -, -⟩ := fields_startDie s false 1
  exact ⟨_, hexec, hrails, hservice⟩

theorem runs_tripRestart (hwait : s.jione.tripWait = true) (hstay : s.jione.stay = false) (hcold : s.jione.cold < 680) :
    Runs .tripRestart s fun t => t.jione.tripWait = false := by
  refine ⟨_, if_neg (by simp [hwait, hstay]; omega), ?_⟩
  split
  · exact (fields_startDie _ _ _).2.2.1
  · rfl

theorem runs_fabLost (hup : dieUp s = true) (hphase : phase s = 7) (hlost : rb s R.FLT_SAFE_STATUS 9 = true) (hreset : s.jione.resetting = false)
    (hfew : s.jione.fabRestarts < 2) : Runs .fabLost s fun t => t.jione.fabRestarts = s.jione.fabRestarts + 1 := by
  have htold : Tells s (fypHaptic (degradedFrame s 4) true) := (tells_degradedFrame _).trans (tells_fypHaptic _)
  have hcount : (fypHaptic (degradedFrame s 4) true).jione.fabRestarts = s.jione.fabRestarts := htold.field (·.fabRestarts) fun _ _ => rfl
  show ∃ t, execFabLost s = .next t ∧ _
  unfold execFabLost
  rw [if_neg (by simp [hup, hphase, hlost, hreset])]
  dsimp only
  rw [if_neg (by omega)]
  have hshut : (shutDown (fypHaptic (degradedFrame s 4) true) .fabLost).jione.fabRestarts + 1 = s.jione.fabRestarts + 1 := by
    rw [shutDown_field (·.fabRestarts) .fabLost (fun _ _ => rfl) fun _ => rfl, hcount]
  refine ⟨_, rfl, ?_⟩
  split
  · exact (fields_startDie _ _ _).2.2.2.trans hshut
  · exact hshut

theorem runs_thermalTripOff (h : modOn s = true) : Runs .thermalTripOff s fun t =>
    modOn t = false ∧ t.jione.tripWait = true ∧ t.jione.trips = min 255 (s.jione.trips + 1) ∧ (2 ≤ s.jione.trips → t.jione.stay = true) := by
  show ∃ t, execThermalTripOff s = .next t ∧ _
  unfold execThermalTripOff
  rw [if_neg (by simp [h])]
  refine ⟨_, rfl, ?_⟩
  have hoff : modOn (shutDown (updMod (powerOff (fresh s 32).1) fun j => { j with rails := true }) .trip) = false := modOn_shutDown _ _
  have htrips : (shutDown (updMod (powerOff (fresh s 32).1) fun j => { j with rails := true }) .trip).jione.trips = s.jione.trips :=
    shutDown_field (·.trips) .trip (fun _ _ => rfl) fun _ => rfl
  have hframe := fun x : State => tells_degradedFrame (s := x) 6
  rw [(hframe _).modOn, (hframe _).field (·.tripWait) fun _ _ => rfl, (hframe _).field (·.trips) fun _ _ => rfl,
    (hframe _).field (·.stay) fun _ _ => rfl]
  refine ⟨hoff, rfl, ?_, fun htwo => ?_⟩
  · exact congrArg (fun n => min 255 (n + 1)) htrips
  · exact Bool.or_eq_true_iff.mpr (.inr (decide_eq_true (by omega)))

theorem runs_lockstepMismatch_second (hon : fypOn s = true) (hone : 1 ≤ s.jione.mismatches) :
    Runs .lockstepMismatch s fun t => modOn t = false ∧ t.jione.stay = true := by
  show ∃ t, execLockstepMismatch s = .next t ∧ _
  unfold execLockstepMismatch
  rw [if_neg (by simp [hon])]
  dsimp only
  rw [if_pos (by omega)]
  exact ⟨_, rfl, modOn_shutDown _ _, rfl⟩

theorem runs_lockstepMismatch_first (hon : fypOn s = true) (hzero : s.jione.mismatches = 0) :
    Runs .lockstepMismatch s fun t => t.jione.resetting = true ∧ t.jione.mismatches = 1 ∧ t.jione.moving = true := by
  show ∃ t, execLockstepMismatch s = .next t ∧ _
  unfold execLockstepMismatch
  rw [if_neg (by simp [hon])]
  dsimp only
  rw [if_neg (by omega)]
  exact ⟨_, rfl, rfl, congrArg (· + 1) hzero, rfl⟩

/-! The host and the samples. -/

theorem heartbeat_fields {n : Nat} (hst : s.jione.st ≠ 0) (hn : n ≠ s.jione.beat) : (heartbeat s n).jione.beat = n ∧ (heartbeat s n).jione.beaten = true := by
  unfold heartbeat
  rw [if_neg (by simp [hst, hn])]
  dsimp only
  split
  · have hset := tells_settleMod (s := updMod (updMod s fun j => { j with beat := n, beaten := true }) fun j => { j with lost := false })
    exact ⟨hset.field (·.beat) fun _ _ => rfl, hset.field (·.beaten) fun _ _ => rfl⟩
  · exact ⟨rfl, rfl⟩

theorem runs_hostLost (hon : fypOn s = true) (hlinked : s.jione.linked = true) (hspeed : s.pci.speed = 0) :
    Runs (.hostLost .link) s fun t => t.jione.lost = true := by
  have hseen : (fypOn s && (s.jione.linked && !linkSeen s)) = true := by simp [hon, hlinked, linkSeen, hspeed]
  have hexec : exec (.hostLost .link) s = .next (settleMod (updMod s fun j => { j with lost := true })) := congrArg Host.Outcome.next (if_pos hseen)
  exact ⟨_, hexec, tells_settleMod.field (·.lost) fun _ _ => rfl⟩

theorem runs_fypSafetySample (hon : fypOn s = true) (hreset : s.jione.resetting = false) (hup : dieUp s = true) :
    Runs .fypSafetySample s fun t => t.jione.sampled = rf s R.FLT_SAFE_STATUS 12 0 + b2n (faultLow s) * 2 ^ 13 := by
  have hstep : ∀ {x y z : State} (b : Bool), Tells x y → Tells y z → Tells x (if b then z else y) := by
    intro x y z b hy hz
    split
    · exact hy.trans hz
    · exact hy
  show ∃ t, execFypSafetySample s = .next t ∧ _
  unfold execFypSafetySample
  rw [if_neg (by simp [hon, hreset]), if_pos hup]
  extract_lets old now low back settled warned risen
  have hrisen : Tells settled risen := hstep _ (hstep _ (tells_refl settled) tells_statusFrame) (tells_risenFrames _)
  have hsettled : settled.jione.sampled = now + b2n low * 2 ^ 13 := tells_settleMod.field (·.sampled) fun _ _ => rfl
  split
  · exact ⟨_, rfl, (((hrisen.trans (tells_updMod _ rfl)).trans (tells_degradedFrame 3)).field (·.sampled) fun _ _ => rfl).trans hsettled⟩
  · exact ⟨_, rfl, (hrisen.field (·.sampled) fun _ _ => rfl).trans hsettled⟩

/-! The ledger. -/

theorem runs_lockstepResetDone (h : s.jione.resetting = true) : Runs .lockstepResetDone s fun t => t.jione.resetting = false :=
  ⟨_, if_neg (by simp [h]), (tells_settleMod.trans (tells_statusFrame.trans (tells_fypRecord _ _))).field (·.resetting) fun _ _ => rfl⟩

theorem phase_taken (s : State) (bitmap : List Byte) : phase (ledgerTaken s bitmap) = 1 ∧ (ledgerTaken s bitmap).boot.ledgerIn = true :=
  ⟨RegisterPages.rf_wf_self (by decide), rfl⟩

theorem runs_ledgerDeliver (hopen : ledgerOpen s = true) (hon : fypOn s = true) (hreset : s.jione.resetting = false) :
    Runs .ledgerDeliver s fun t => phase t = 1 ∧ t.boot.ledgerIn = true := by
  show ∃ t, execLedgerDeliver s = .next t ∧ _
  unfold execLedgerDeliver
  rw [if_neg (by simp [hopen, hon, hreset])]
  extract_lets empty mine
  split
  · have hrecord := tells_fypRecord (s := ledgerTaken (writeLedger s empty) empty) 0xD105 [0xFFFFFFFF]
    obtain ⟨hphase, hin⟩ := phase_taken (writeLedger s empty) empty
    exact ⟨_, rfl, hrecord.phase.trans hphase, (congrArg Boot.ledgerIn hrecord.boot).trans hin⟩
  · split
    · exact ⟨_, rfl, phase_taken _ _⟩
    · exact ⟨_, rfl, phase_taken _ _⟩

theorem runs_ledgerTimeout (hopen : ledgerOpen s = true) :
    Runs .ledgerTimeout s fun t => phase t = 1 ∧ t.boot.ledgerIn = true ∧ t.boot.ledger = List.replicate 2048 0 := by
  obtain ⟨hphase, hin⟩ := phase_taken s (List.replicate 2048 0)
  exact ⟨_, if_neg (by simp [hopen]), hphase, hin, rfl⟩

theorem ledgerUpdate_none (h : ∀ n, n < 8 → rb s (R.ASH_CLASS n) 5 = false) : Gives .ledgerUpdate s s := by
  have hany : ((List.range 8).any fun n => rb s (R.ASH_CLASS n) 5) = false := by
    simpa using h
  exact if_pos (by rw [hany]; simp)

end

/-- Settles O58: each command of the supervision, by what a telling, a shutdown and a start leave of the module. -/
theorem moduleSupervision : Obligations.ModuleSupervision := by
  unfold Obligations.ModuleSupervision
  intro s
  refine ⟨fun mv ma hlow hhigh => ?vin, fun hon hvin => ?range, fun why => ⟨_, rfl, modOn_shutDown s why, fun hon => mem_shutDown hon why⟩,
    ⟨_, rfl, modOn_shutDown s _⟩, ⟨_, rfl, modOn_shutDown s _, rfl⟩, runs_moduleStart, fun n hst hn => ⟨_, rfl, heartbeat_fields hst hn⟩,
    runs_hostLost, runs_lockstepMismatch_first, runs_lockstepMismatch_second, runs_lockstepResetDone, runs_thermalTripOff, runs_tripRestart,
    runs_fypSafetySample, runs_fabLost, fun cold reg hup hon hreset hphase => ?cool, fun cold reg hdown => ?warm, runs_ledgerDeliver, runs_ledgerTimeout,
    fun _ => ledgerUpdate_none, fun n hup hon hn hbit => ?update⟩
  case vin => exact ⟨_, if_neg (by omega), vinTo_volts mv ma s⟩
  case range =>
    exact ⟨_, if_neg (by simp [hon, hvin]), (tells_degradedFrame 7).modOn.trans (modOn_shutDown _ _)⟩
  case cool =>
    have hserve : (dieUp s && fypOn s && !s.jione.resetting && (decide (phase s = 6) || decide (phase s = 7))) = true := by
      simpa [hup, hon, hreset] using hphase
    exact if_pos hserve
  case warm =>
    have hserve : ¬(dieUp s && fypOn s && !s.jione.resetting && (decide (phase s = 6) || decide (phase s = 7))) = true := by simp [hdown]
    exact if_neg hserve
  case update =>
    have hany : ((List.range 8).any fun n => rb s (R.ASH_CLASS n) 5) = true := List.any_eq_true.mpr ⟨n, List.mem_range.mpr hn, hbit⟩
    have hguard : ¬(!dieUp s || !fypOn s || !((List.range 8).any fun n => rb s (R.ASH_CLASS n) 5)) = true := by simp [hup, hon, hany]
    refine ⟨fun hmore => ?_, fun hsame => ?_⟩
    · exact (if_neg hguard).trans (if_neg hmore)
    · exact (if_neg hguard).trans (if_pos hsame)

end Sys2Proof.Fypajo
end

section
/-! The mailbox, the CAN frames and the vehicle (25 R751 to R755). -/
namespace Sys2Proof.Fypajo
open Sys2Proof Sys2Proof.Machine Sys2Proof.Laws Sys2Proof.Claims Sys2Proof.Frames

section
variable {s : State} {key cmd : Nat} {wake : Bool}

/-! A command of the mailbox. -/

theorem fypCommand_key (hst : s.jione.st ≠ 0) (hkey : key % 65536 ≠ 0xA55A) :
    fypCommand s cmd key wake = { s with jione := { s.jione with result := 2, done := true } } := by
  unfold fypCommand
  rw [if_pos hkey, if_neg hst]
  rfl

theorem fypCommand_moving (hst : s.jione.st ≠ 0) (hkey : key % 65536 = 0xA55A) (hcmd : 1 ≤ cmd ∧ cmd ≤ 3) (hmoving : s.jione.moving = true) :
    fypCommand s cmd key true = { s with jione := { s.jione with result := 3, done := true } } := by
  have hknown : ¬(cmd = 0 ∨ cmd > 5) := by omega
  have hawake : ¬(s.jione.wake && !true) = true := by simp
  simp only [fypCommand, if_neg (not_not.mpr hkey), if_neg hknown, if_neg hawake, if_pos (And.intro hcmd.2 hmoving), if_neg hst]
  rfl

/-- A command that nothing turns away. -/
theorem fypCommand_accepted (hst : s.jione.st ≠ 0) (hkey : key % 65536 = 0xA55A) (hcmd : 1 ≤ cmd ∧ cmd ≤ 5) (hstill : cmd ≤ 3 → s.jione.moving = false)
    (hrecovery : cmd = 4 → dieUp s = true ∧ phase s = 8) :
    fypCommand s cmd key true = updMod (fypRun s cmd) fun j => { j with result := 0, done := true } := by
  have hknown : ¬(cmd = 0 ∨ cmd > 5) := by omega
  have hmoving : ¬(cmd ≤ 3 ∧ s.jione.moving = true) := fun h => by simp [hstill h.1] at h
  have hclear : ¬(cmd = 4 ∧ ¬(dieUp s = true ∧ phase s = 8)) := fun h => h.2 (hrecovery h.1)
  have hawake : ¬(s.jione.wake && !true) = true := by simp
  simp only [fypCommand, if_neg (not_not.mpr hkey), if_neg hknown, if_neg hawake, if_neg hmoving, if_neg hclear, if_neg hst]
  rfl

/-- What RESTART and SERVICE_BOOT do where nothing keeps the module in STANDBY after the shutdown. -/
theorem fypRun_start (h : mayStart (shutDown s .command) = true) :
    fypRun s 1 = startDie (shutDown s .command) false 0x0A ∧ fypRun s 2 = startDie (shutDown s .command) true 0x0A := ⟨if_pos h, if_pos h⟩

/-! A write of a mailbox register. -/

theorem mailboxWrite_word {off : Nat} {d : List Byte} (hst : s.jione.st ≠ 0) (hoff : off % 4 = 0) (hd : d.length = 4) :
    Gives (.mailboxWrite off d) s (mailboxSet s off (ofLe d)) := by
  show execMailboxWrite off d s = _
  rw [execMailboxWrite, if_neg (by omega), hd, ← Ports.field_word hd]
  rfl

/-! CAN frames. -/

theorem length_padTo (n : Nat) (d : List Byte) : (padTo n d).length = n := by
  rw [padTo, List.length_append, List.length_take, List.length_replicate]
  omega

/-- A frame goes out behind its identifier with eight bytes. -/
theorem frames_sendCan (hon : fypOn s = true) (hreset : s.jione.resetting = false) (hcan : s.jione.canEn = true) (k : Nat) (data : List Byte) :
    ∃ b, (sendCan s k data).jione.frames = (s.jione.canBase + k, b) :: s.jione.frames ∧ b.length = 8 := by
  unfold sendCan
  rw [if_neg (by simp [hon, hreset, hcan])]
  refine ⟨_, rfl, ?_⟩
  rw [List.length_append, List.length_append, length_padTo, leBytes_length, leBytes_length]

theorem runs_degradedFrame (h : persisting s ≠ 0) : Runs .degradedFrame s fun t => t.jione.degraded = persisting s % 256 := by
  obtain ⟨c, hc⟩ := Nat.exists_eq_succ_of_ne_zero h
  have hexec : exec .degradedFrame s = .next (degradedFrame s (persisting s)) := by
    show execDegradedFrame s = _
    rw [execDegradedFrame, hc]
    rfl
  exact ⟨_, hexec, rfl⟩

theorem runs_degradedFrame_none (h : persisting s = 0) : Runs .degradedFrame s fun t => t.jione.degraded = 0 := by
  show ∃ t, execDegradedFrame s = .next t ∧ _
  rw [execDegradedFrame, h]
  by_cases hzero : s.jione.degraded = 0
  · exact ⟨_, if_pos hzero, hzero⟩
  · exact ⟨_, if_neg hzero, rfl⟩

theorem runs_alertFrame {a : Alert} (ha : s.aud.alert = some a) (hon : fypOn s = true) (hreset : s.jione.resetting = false) (hcan : s.jione.canEn = true) :
    Runs .alertFrame s fun t => t.jione.playing = true ∧ ∃ b, t.jione.frames = (s.jione.canBase, b) :: s.jione.frames ∧ b.length = 8 := by
  show ∃ t, execAlertFrame s = .next t ∧ _
  unfold execAlertFrame
  rw [ha]
  exact ⟨_, rfl, rfl, frames_sendCan hon hreset hcan 0 _⟩

theorem runs_vehicle {d : List Byte} (hon : fypOn s = true) (hreset : s.jione.resetting = false) (hd : d.length = 8)
    (hcrc : crc8 0x1D 0xFF (d.take 7) = field d 7 1) (hnew : s.jione.heard ≠ some (field d 6 1 % 16)) :
    Gives (.vehicle d) s (updMod s fun j => { j with heard := some (field d 6 1 % 16), moving := bit (field d 0 1) 0 }) := by
  have hguard : ¬(!fypOn s || s.jione.resetting || decide (d.length ≠ 8) || decide (crc8 0x1D 0xFF (d.take 7) ≠ field d 7 1)
      || decide (s.jione.heard = some (field d 6 1 % 16))) = true := by
    simp [hon, hreset, hd, hcrc, hnew]
  exact if_neg hguard
end

/-- Settles O59: the mailbox's answers, its registers, the frames and the vehicle. -/
theorem mailboxAndFrames : Obligations.MailboxAndFrames := by
  unfold Obligations.MailboxAndFrames
  intro s key wake hst
  refine ⟨fun i hkey hi => ?wrong, fun hkey hwake hstill => ⟨?shutdown, fun hstart => ⟨?restart, ?service⟩⟩, fun hkey hwake hmoving i hi => ?moving,
    fun hkey hwake => ?canSet, fun hkey hwake hup hphase => ?clear, fun d hd => ⟨?events, ?argument⟩,
    fun a ha hon hreset hcan => runs_alertFrame ha hon hreset hcan, fun hpowered hon hreset hcan => ?status, runs_degradedFrame, runs_degradedFrame_none,
    fun d hon hreset hd hcrc hnew => ⟨_, runs_vehicle hon hreset hd hcrc hnew, rfl, rfl, frame_refl s⟩, ⟨_, rfl, rfl, frame_refl s⟩⟩
  case wrong =>
    obtain rfl | rfl | rfl | rfl | rfl := hi <;> exact congrArg Host.Outcome.next (fypCommand_key hst hkey)
  case shutdown =>
    subst hwake
    exact ⟨_, congrArg Host.Outcome.next (fypCommand_accepted hst hkey (by omega) (fun _ => hstill) (by omega)), modOn_shutDown s .command, rfl, rfl, rfl⟩
  case restart =>
    subst hwake
    obtain ⟨hrails, hservice, -, -⟩ := fields_startDie (shutDown s .command) false 0x0A
    refine ⟨_, congrArg Host.Outcome.next (fypCommand_accepted hst hkey (by omega) (fun _ => hstill) (by omega)), ?_⟩
    rw [(fypRun_start hstart).1]
    exact ⟨hrails, hservice, rfl⟩
  case service =>
    subst hwake
    obtain ⟨hrails, hservice, -, -⟩ := fields_startDie (shutDown s .command) true 0x0A
    refine ⟨_, congrArg Host.Outcome.next (fypCommand_accepted hst hkey (by omega) (fun _ => hstill) (by omega)), ?_⟩
    rw [(fypRun_start hstart).2]
    exact ⟨hrails, hservice, rfl⟩
  case moving =>
    subst hwake
    obtain rfl | rfl | rfl := hi <;> exact congrArg Host.Outcome.next (fypCommand_moving hst hkey (by omega) hmoving)
  case canSet =>
    subst hwake
    exact ⟨_, congrArg Host.Outcome.next (fypCommand_accepted hst hkey (by omega) (by omega) (by omega)), rfl, rfl, rfl, frame_refl s⟩
  case clear =>
    subst hwake
    exact ⟨_, congrArg Host.Outcome.next (fypCommand_accepted hst hkey (by omega) (by omega) (fun _ => ⟨hup, hphase⟩)), rfl, rfl⟩
  case events => exact ⟨_, mailboxWrite_word hst (by norm_num) hd, rfl, frame_refl s⟩
  case argument => exact ⟨_, mailboxWrite_word hst (by norm_num) hd, rfl, frame_refl s⟩
  case status =>
    have hframe : statusFrame s = sendCan s 1 (statusBytes s) := if_pos hpowered
    refine ⟨_, rfl, ?_⟩
    rw [hframe]
    exact frames_sendCan hon hreset hcan 1 _

end Sys2Proof.Fypajo
end

section
/-! Microphones, host audio, the alert path, the output frame and the amplifier (chapter 21). -/
namespace Sys2Proof.Sound
open Sys2Proof Sys2Proof.Machine Sys2Proof.Laws Sys2Proof.Claims Sys2Proof.Frames Sys2Proof.Streams

section
variable {s t u : State} {off : Nat}

theorem rd_raise_block {pg b : Nat} (h : 0x100 ≤ off % 0x1000) : rd (raise s pg b) off = rd s off := rd_raise_ne (by unfold hdr; omega)

theorem rd_hwFault_block {pg cause info : Nat} (h : 0x100 ≤ off % 0x1000) : rd (hwFault s pg cause info) off = rd s off :=
  RegisterPages.rd_fault_block h

/-- A hardware fault and then an event of its page raise both bits. -/
theorem raised_fault_event {pg cause info b : Nat} {req : Req} {a : Option Nat} (hb : b < 32) (hne : b ≠ 0) :
    Raised (raise (fault s pg cause req info a) pg b) pg b ∧ Raised (raise (fault s pg cause req info a) pg b) pg 0 :=
  ⟨rb_raise _ _ hb, (rb_raise_ne (by decide) hne.symm).trans (RegisterPages.rb_fault _ _ _ _ _ _)⟩

theorem Reaches.aud (h : Reaches s t) : t.aud = s.aud := (congrArg State.aud h.rest :)

theorem aud_wake (s : State) (n : Nat) : (wake s n).aud = s.aud := Reaches.aud (Reaches.refl s).wake

theorem drawn_wake (s : State) (n : Nat) : (wake s n).drawn = s.drawn := (congrArg State.drawn (Mesh.checks_wake s n).rest :)

@[simp] theorem rb_updAud (s : State) (f : Audio → Audio) (off i : Nat) : rb (updAud s f) off i = rb s off i := rfl

theorem frame_updAud {ps : List Nat} (f : Audio → Audio) (h : Frame s t ps) : Frame s { updAud t f with aud := s.aud } ps :=
  ⟨congrArg (fun w : State => { w with aud := s.aud }) h.1, h.2⟩

/-! Microphone blocks (R648 to R652). -/

theorem Reaches.patientPieces {v : Via} {a0 : Nat} {bs : List Byte} {bad : List (Nat × Nat)} (ps : List (Nat × Nat)) (h : Reaches s t) :
    Reaches s (patientPieces ps t v a0 bs bad).1 := by
  induction ps generalizing t with
  | nil => exact h
  | cons p ps ih => exact .iteFst h.patientWrite (ih h.patientWrite)

theorem Reaches.historyWrite (h : Reaches s t) {k : Nat} {bs : List Byte} : Reaches s (historyWrite t k bs).1 := Reaches.patientPieces _ h

theorem handoff_micBlock {times : List (List Int)} {ts : Nat} (hacc : accepts s P.aud = true) (hen : rb s R.AUD_MIC_CFG 0 = true)
    (hhistory : rb s R.ESL_AUDIO_CFG 6 = true) : ∃ n st, (micBlock times ts s).aud.handoff = s.aud.handoff ++ [(n, ts, st)] := by
  unfold micBlock
  rw [if_neg (by simp [hacc, hen, hhistory])]
  extract_lets xs bs counted written done
  have hwritten : Reaches s written.1 := Reaches.historyWrite (Reaches.refl s).wake.bump
  have hdone : done.aud = s.aud := Reaches.aud (.ite hwritten hwritten.hwFault)
  exact ⟨_, _, congrArg (fun x : Audio => x.handoff ++ [_]) hdone⟩

/-- A block passed to Easel changes of the registers only those of the two blocks. -/
theorem frame_handoff (s : State) (n : Nat) (v : W32) :
    Frame s (setReg (setReg (setReg s R.AUD_BLOCK v) R.ESL_AUDIO_BLOCK v) R.ESL_AUDIO_POS (BitVec.ofNat 32 n)) [P.aud, P.esl] :=
  frame_onPage (frame_onPage (frame_onPage (frame_refl s) (onPage_setReg (pg := P.aud) (by decide)) (by simp)) (onPage_setReg (pg := P.esl) (by decide)) (by simp))
    (onPage_setReg (pg := P.esl) (by decide)) (by simp)

theorem runs_micBlockHandoff {n ts st : Nat} {rest : List (Nat × Nat × Nat)} (hhead : s.aud.handoff = (n, ts, st) :: rest)
    (hgo : writeStops s (historyAddr s s.esl.blocks n) n = false) : Runs .micBlockHandoff s fun t =>
      t.aud.handoff = rest ∧ t.esl.blocks = s.esl.blocks + 1 ∧ rd t R.AUD_BLOCK = BitVec.ofNat 32 n
        ∧ Frame s { t with aud := s.aud, esl := s.esl } [P.aud, P.esl] := by
  show ∃ t, execMicBlockHandoff s = .next t ∧ _
  unfold execMicBlockHandoff
  rw [hhead]
  dsimp only
  rw [if_neg (by simp [hgo])]
  refine ⟨_, rfl, rfl, rfl, ?_, frame_handoff s _ _⟩
  exact (rd_setReg_ne (by decide)).trans ((rd_setReg_ne (by decide)).trans (rd_setReg_self _ _ _))

theorem runs_micStuck {m : Nat} (hm : m < 16) (hen : rb s R.AUD_MIC_CFG (16 + m) = true) (hok : rb s R.AUD_MIC_STATUS m = false) :
    Runs (.micStuck m) s fun t => rb t R.AUD_MIC_STATUS m = true ∧ Raised t P.aud 12 ∧ Raised t P.aud 0 ∧ Frame s t [P.aud] := by
  have hguard : ¬(m ≥ 16 ∨ (!rb s R.AUD_MIC_CFG (16 + m)) = true ∨ rb s R.AUD_MIC_STATUS m = true) := by
    simp [hen, hok]
    omega
  obtain ⟨hevent, hfault⟩ := raised_fault_event (s := wb s R.AUD_MIC_STATUS m true) (pg := P.aud) (cause := 5) (req := .hw)
    (info := rf (wb s R.AUD_MIC_STATUS m true) R.AUD_MIC_STATUS 15 0) (a := none) (b := 12) (by decide) (by decide)
  refine ⟨_, if_neg hguard, ?_, hevent, hfault, ?_⟩
  · unfold rb
    rw [rd_raise_block (by decide), rd_hwFault_block (by decide)]
    exact rb_wb_self (by omega)
  · exact Mesh.frame_of_onPage (((onPage_wb (by decide)).trans (onPage_hwFault _ _)).trans (onPage_raise _))

/-! Host audio in (R654). -/

theorem rd_putPpm_ne {ppm : Int} (h : off ≠ R.AUD_TDM_IN_STATUS) : rd (putPpm s ppm) off = rd s off := rd_wf_ne h

theorem rb_putPpm (s : State) (ppm : Int) : rb (putPpm s ppm) R.AUD_TDM_IN_STATUS 0 = rb s R.AUD_TDM_IN_STATUS 0 := by
  unfold putPpm
  rw [rb_wf (by decide), if_neg (by decide)]

theorem onPage_putPpm (s : State) (ppm : Int) : OnPage P.aud s (putPpm s ppm) := onPage_wf (by decide)

theorem runs_tdmInLost {ppm : Int} (hlock : rb s R.AUD_TDM_IN_STATUS 0 = true) : Runs (.tdmInLost ppm) s fun t =>
    rb t R.AUD_TDM_IN_STATUS 0 = false ∧ Raised t P.aud 11 ∧ Frame s t [P.aud] := by
  refine ⟨_, if_neg (by simp [hlock]), ?_, rb_raise _ _ (by decide), ?_⟩
  · unfold rb
    rw [rd_raise_block (by decide), rd_hwFault_block (by decide)]
    exact rb_wb_self (by decide)
  · exact Mesh.frame_of_onPage ((((onPage_putPpm s ppm).trans (onPage_wb (by decide))).trans (onPage_hwFault _ _)).trans (onPage_raise _))

theorem runs_tdmInRelock {ppm : Int} (hlost : rb s R.AUD_TDM_IN_STATUS 0 = false) : Runs (.tdmInRelock ppm) s fun t =>
    rb t R.AUD_TDM_IN_STATUS 0 = true ∧ t.aud.ramp = rf s R.AUD_DUCK_TIME 23 8 * 48 ∧ Frame s { t with aud := s.aud } [P.aud] := by
  have hguard : ¬rb (putPpm s ppm) R.AUD_TDM_IN_STATUS 0 = true := by simp [rb_putPpm, hlost]
  have hramp : rf (putPpm s ppm) R.AUD_DUCK_TIME 23 8 = rf s R.AUD_DUCK_TIME 23 8 := by rw [rf, rf, rd_putPpm_ne (by decide)]
  have hexec : exec (.tdmInRelock ppm) s = .next (updAud (wb (putPpm s ppm) R.AUD_TDM_IN_STATUS 0 true) fun a =>
      { a with ramp := rf (putPpm s ppm) R.AUD_DUCK_TIME 23 8 * 48 }) := by
    show execTdmInRelock ppm s = _
    unfold execTdmInRelock
    exact if_neg hguard
  have hlocked : rb (wb (putPpm s ppm) R.AUD_TDM_IN_STATUS 0 true) R.AUD_TDM_IN_STATUS 0 = true := rb_wb_self (by decide)
  have hpage : OnPage P.aud s (wb (putPpm s ppm) R.AUD_TDM_IN_STATUS 0 true) := (onPage_putPpm s ppm).trans (onPage_wb (by decide))
  refine ⟨_, hexec, ?_, ?_, frame_updAud _ (Mesh.frame_of_onPage hpage)⟩
  · rw [rb_updAud, hlocked]
  · rw [updAud, hramp]

/-! The alert queue (R661, R662). -/

theorem alertEntryPop_taken {meet : HodMeet} (hacc : accepts s P.aud = true) (hqueue : rf s R.AUD_ALERT_CFG 15 0 ≠ 0xFFFF)
    (hgot : (popFrom (wake s 38) (engineVia 38) 1 (rf s R.AUD_ALERT_CFG 15 0) meet).2.1 = HS.ok
      ∨ (popFrom (wake s 38) (engineVia 38) 1 (rf s R.AUD_ALERT_CFG 15 0) meet).2.1 = HS.poison) :
    alertEntryPop meet s =
      let r := popFrom (wake s 38) (engineVia 38) 1 (rf s R.AUD_ALERT_CFG 15 0) meet
      updAud r.1 fun a => { a with popped := a.popped ++ [(r.2.2.data, decide (r.2.1 = HS.poison))] } := by
  unfold alertEntryPop
  rw [if_neg (by simp [hacc, hqueue]), if_pos hgot]

theorem endAlert_some {a : Alert} (ha : s.aud.alert = some a) :
    endAlert s = updAud (if a.can then signalFyp s .alert else s) fun k => { k with alert := none, fade := some (a.tone, 48), pattern := 0, hapFrame := 0 } := by
  unfold endAlert
  rw [ha]

theorem runs_alertHoldExpire {a : Alert} (ha : s.aud.alert = some a) (hhold : a.hold = true) : Runs .alertHoldExpire s fun t =>
    t.aud.alert = none ∧ t.aud.pattern = 0 ∧ t.aud.fade = some (a.tone, 48) ∧ Frame s { t with aud := s.aud } [] := by
  have hexec : exec .alertHoldExpire s = .next (endAlert s) := if_pos (by rw [ha]; exact hhold)
  refine ⟨_, hexec, ?_⟩
  rw [endAlert_some ha]
  refine ⟨rfl, rfl, rfl, ?_⟩
  split <;> exact frame_refl s
end

/-! The output frame (R654 to R657). -/

/-- From `s` to `t` the audio block works: its own state, its page, messages, free values, and the popped entries stay. -/
structure Plays (s t : State) : Prop where
  frame : Frame s { t with aud := s.aud, drawn := s.drawn } [P.aud]
  popped : t.aud.popped = s.aud.popped

section
variable {s t u : State}

theorem Plays.refl (s : State) : Plays s s := ⟨frame_refl s, rfl⟩

theorem Plays.onPage (h : Plays s t) (k : OnPage P.aud t u) : Plays s u := by
  have hside : OnPage P.aud { t with aud := s.aud, drawn := s.drawn } { u with aud := s.aud, drawn := s.drawn } :=
    ⟨congrArg (fun x : State => { x with aud := s.aud, drawn := s.drawn }) k.rest, k.regs⟩
  have haud : u.aud = t.aud := (congrArg State.aud k.rest :)
  exact ⟨frame_onPage h.frame hside (by simp), haud ▸ h.popped⟩

theorem Plays.updAud (h : Plays s t) {f : Audio → Audio} (hf : (f t.aud).popped = t.aud.popped) : Plays s (updAud t f) := ⟨h.frame, hf.trans h.popped⟩

theorem Plays.fresh (h : Plays s t) {w : Nat} : Plays s (fresh t w).1 := ⟨h.frame, h.popped⟩

theorem Plays.ite {c : Prop} [Decidable c] (ht : Plays s t) (hu : Plays s u) : Plays s (if c then t else u) := by
  split <;> assumption

theorem Plays.iteFst {α : Type} {c : Prop} [Decidable c] {x y : State × α} (hx : Plays s x.1) (hy : Plays s y.1) : Plays s (if c then x else y).1 := by
  split <;> assumption

theorem Plays.endAlert (h : Plays s t) : Plays s (endAlert t) := by
  unfold Machine.endAlert
  split
  · exact h
  · exact .updAud (.ite (h.onPage (onPage_signalFyp _)) h) rfl

theorem Plays.startAlert (h : Plays s t) {level tone haptic tag : Nat} {can hold : Bool} : Plays s (startAlert t level tone haptic tag can hold) := by
  have hchecked : Plays s (if tone ≥ toneCount t then hwFault t P.aud 3 tone else t) := .ite (h.onPage (onPage_hwFault _ _)) h
  unfold Machine.startAlert
  extract_lets checked played heard patterned started counted params recorded raised
  have hcounted : Plays s counted := (hchecked.updAud rfl).onPage (onPage_bump (by decide))
  have hraised : Plays s raised := (Plays.ite (hcounted.onPage (onPage_toRecorder _)) hcounted).onPage (onPage_raiseP _ _)
  exact .ite (hraised.onPage (onPage_signalFyp _)) hraised

theorem Plays.applyEntry (h : Plays s t) {e : List Byte × Bool} : Plays s (applyEntry t e) := by
  have hchecked : ∀ b : Bool, Plays s (if b then hwFault t P.aud 2 (rf t R.AUD_ALERT_CFG 15 0) else t) := fun _ => .ite (h.onPage (onPage_hwFault _ _)) h
  unfold Machine.applyEntry
  exact .ite (hchecked _).endAlert (.ite ((hchecked _).onPage (onPage_bump (by decide))) (.ite (hchecked _).startAlert (hchecked _).startAlert))

theorem Plays.entries (h : Plays s t) (es : List (List Byte × Bool)) : Plays s (es.foldl Machine.applyEntry t) :=
  List.foldlRecOn es _ h fun _ k _ _ => k.applyEntry

theorem Plays.sourceGain (h : Plays s t) {i : Nat} {k : Duck} : Plays s (sourceGain t i k).1 := by
  unfold Machine.sourceGain
  extract_lets g lo hi
  exact .iteFst h (h.fresh (w := 80))

theorem satI_bounds (w : Nat) (x : Int) : -((2 ^ (w - 1) : Nat) : Int) ≤ satI w x ∧ satI w x ≤ ((2 ^ (w - 1) : Nat) : Int) - 1 := by
  have hpos : 0 < 2 ^ (w - 1) := Nat.two_pow_pos _
  unfold satI
  dsimp only
  split
  · omega
  · split <;> omega

theorem runs_tdmOutFrame_off {src : List Int} (hrun : islandRuns s 38 = true) (hacc : accepts s P.aud = false) : Runs (.tdmOutFrame src) s fun t =>
    t.aud.out = [0, 0] ∧ t.aud.haptic = false ∧ Frame (wake s 38) { t with aud := s.aud } [] := by
  have hexec : exec (.tdmOutFrame src) s = .next (updAud (wake s 38) fun a => { a with out := [0, 0], haptic := false }) := by
    show execTdmOutFrame src s = _
    unfold execTdmOutFrame
    rw [if_neg (by simp [hrun]), if_pos (by simp [hacc])]
  refine ⟨_, hexec, rfl, rfl, ?_⟩
  rw [← aud_wake s 38]
  exact frame_refl _

theorem runs_tdmOutFrame {src : List Int} (hrun : islandRuns s 38 = true) (hacc : accepts s P.aud = true) : Runs (.tdmOutFrame src) s fun t =>
    t.aud.popped = [] ∧ t.aud.out.length = 2 ∧ (∀ v ∈ t.aud.out, -(2 ^ 23) ≤ v ∧ v ≤ 2 ^ 23 - 1)
      ∧ Frame (wake s 38) { t with aud := s.aud, drawn := s.drawn } [P.aud] := by
  show ∃ t, execTdmOutFrame src s = .next t ∧ _
  unfold execTdmOutFrame
  rw [if_neg (by simp [hrun]), if_neg (by simp [hacc])]
  extract_lets applied lock shown quieted ducked gains mixed tone carry sum clips line counted
  have happlied : Plays (updAud (wake s 38) fun a => { a with popped := [] }) applied := .entries (.refl _) _
  have hducked : Plays (updAud (wake s 38) fun a => { a with popped := [] }) ducked := (happlied.updAud rfl).updAud rfl
  have hmixed : Plays (updAud (wake s 38) fun a => { a with popped := [] }) gains.1 :=
    List.foldlRecOn (List.range 16) _ (motive := fun p : State × List Nat => Plays _ p.1) hducked fun _ k _ _ => k.sourceGain
  have hcounted : Plays (updAud (wake s 38) fun a => { a with popped := [] }) counted := hmixed.onPage (onPage_bump (by decide))
  clear_value counted sum
  refine ⟨_, rfl, hcounted.popped, ?_, ?_, ?_⟩
  · show (List.map (fun c => satI 24 (sum c)) (List.range 2)).length = 2
    rw [List.length_map, List.length_range]
  · show ∀ v ∈ List.map (fun c => satI 24 (sum c)) (List.range 2), _
    intro v hv
    obtain ⟨c, -, rfl⟩ := List.mem_map.mp hv
    exact satI_bounds 24 (sum c)
  · rw [← drawn_wake s 38]
    have haud := frame_aud hcounted.frame
    rw [aud_wake] at haud
    exact haud

end

/-! The amplifier (R673 to R677). -/

section
variable {s t : State} {c : Nat}

theorem ampOf_ampReport (hc : c < s.aud.amps.length) (k : Amp) : ampOf (ampReport s c k) c = k := Islands.nth_updAt_self hc _ _

theorem length_ampReport (s : State) (c : Nat) (k : Amp) : (ampReport s c k).aud.amps.length = s.aud.amps.length := by simp [ampReport, updAud, updAt]

theorem frame_ampReport {ps : List Nat} (h : Frame s { t with aud := s.aud } ps) (k : Amp) : Frame s { ampReport t c k with aud := s.aud } ps := h

theorem runs_ampLatched {i : Instr} {k : Amp} (hc : c < s.aud.amps.length) (hexec : exec i s = .next (ampReport s c k)) :
    Runs i s fun t => ampOf t c = k ∧ Frame s { t with aud := s.aud } [] :=
  ⟨_, hexec, ampOf_ampReport hc k, frame_ampReport (frame_refl s) k⟩

theorem runs_ampRetry {good : Bool} {cls : Nat} (hc : c < 2) (hlen : c < s.aud.amps.length) (hst : (ampOf s c).st = 1 ∨ (ampOf s c).st = 2) :
    Runs (.ampRetry c good cls) s fun t =>
      (good = true → (ampOf t c).st = 0) ∧ (good = false → (ampOf t c).st = if (ampOf s c).tries + 1 ≥ 8 then 3 else 1)
        ∧ (ampOf t c).tries = (ampOf s c).tries + 1 ∧ Frame s { t with aud := s.aud } [] := by
  have hguard : ¬(c ≥ 2 ∨ (ampOf s c).st = 0 ∨ (ampOf s c).st = 3) := by omega
  refine ⟨_, if_neg hguard, ?_⟩
  dsimp only
  rw [ampOf_ampReport (by rwa [length_ampReport])]
  cases good with
  | true => exact ⟨fun _ => rfl, nofun, rfl, frame_ampReport (frame_ampReport (frame_refl s) _) _⟩
  | false => exact ⟨nofun, fun _ => rfl, rfl, frame_ampReport (frame_ampReport (frame_refl s) _) _⟩

/-! What a write of AUD_AMP_DIAG leaves (R672, R675). -/

/-- From `s` to `t` the audio block tells of a change: block registers, memory and the events other than LEVEL's stay. -/
structure Informs (s t : State) : Prop where
  block : ∀ off, 0x100 ≤ off % 0x1000 → rd t off = rd s off
  mem : t.mem = s.mem
  events : ∀ b, b < 32 → b ≠ 10 → Raised s P.aud b → Raised t P.aud b

theorem Informs.refl (s : State) : Informs s s := ⟨fun _ _ => rfl, rfl, fun _ _ _ h => h⟩

theorem Informs.updAud (h : Informs s t) (f : Audio → Audio) : Informs s (updAud t f) := ⟨h.block, h.mem, h.events⟩

theorem Informs.raise (h : Informs s t) (b : Nat) : Informs s (raise t P.aud b) where
  block off hoff := (rd_raise_block hoff).trans (h.block off hoff)
  mem := (PowerUp.mem_of_onPage (onPage_raise b)).trans h.mem
  events i hi hne hs := by
    by_cases hib : i = b
    · subst hib
      exact rb_raise _ _ hi
    · exact (rb_raise_ne hi hib).trans (h.events i hi hne hs)

theorem informs_audSettle (s : State) : Informs s (audSettle s) := by
  unfold audSettle
  extract_lets level was updated raised signalled
  have hsignalled : Informs s signalled := by
    have hraised := ((Informs.refl s).updAud fun a => { a with level := level }).raise 10
    exact ⟨hraised.block, hraised.mem, hraised.events⟩
  split
  · exact .refl s
  · split
    · exact hsignalled.updAud _
    · exact hsignalled

/-- The word that a write of AUD_AMP_DIAG leaves in the register. -/
def diagWord (data : Nat) : W32 := BitVec.ofNat 32 (data % 4 + bits data 6 4 * 16 + bits data 11 8 * 256)

theorem bits_diagWord (data : Nat) : bits (diagWord data).toNat 1 0 = data % 4 ∧ bits (diagWord data).toNat 6 4 = bits data 6 4
    ∧ bits (diagWord data).toNat 11 8 = bits data 11 8 := by
  simp only [diagWord, BitVec.toNat_ofNat, bits, Nat.shiftRight_eq_div_pow]
  omega

/-- The register and the reports as a write of AUD_AMP_DIAG leaves them. -/
def diagNoted (s : State) (c data : Nat) : State :=
  updAud (setReg s (R.AUD_AMP_DIAG c) (diagWord data)) fun a =>
    { a with reports := match a.reports.find? (·.1 = c) with | some r => a.reports.erase r | none => a.reports }

/-- The events that the change brings. -/
def diagTold (s u : State) (c data : Nat) : State :=
  if ampOk s c && !ampOk u c then raise (fault u P.aud 1 .fyp (c + bits data 6 4 * 16 + bits data 11 8 * 256) none) P.aud 9
  else if !ampOk s c && ampOk u c then raise u P.aud 13
  else u

theorem ampDiag_eq (s : State) (c data : Nat) : ampDiag s c data = audSettle (diagTold s (diagNoted s c data) c data) := rfl

theorem rd_diagTold (s u : State) (c data : Nat) (off : Nat) (h : 0x100 ≤ off % 0x1000) : rd (diagTold s u c data) off = rd u off := by
  unfold diagTold
  split
  · rw [rd_raise_block h, RegisterPages.rd_fault_block h]
  · split
    · exact rd_raise_block h
    · rfl

theorem mem_diagTold (s u : State) (c data : Nat) : (diagTold s u c data).mem = u.mem := by
  unfold diagTold
  split
  · exact PowerUp.mem_of_onPage ((onPage_fault _ _ _ _).trans (onPage_raise _))
  · split
    · exact PowerUp.mem_of_onPage (onPage_raise _)
    · rfl

theorem ampDiag_shows (hc : c < 2) (w : Nat) :
    rf (ampDiag s c w) (R.AUD_AMP_DIAG c) 1 0 = w % 4 ∧ rf (ampDiag s c w) (R.AUD_AMP_DIAG c) 6 4 = bits w 6 4
      ∧ rf (ampDiag s c w) (R.AUD_AMP_DIAG c) 11 8 = bits w 11 8
      ∧ (ampOk s c = true → w % 4 ≠ 0 → Raised (ampDiag s c w) P.aud 9 ∧ Raised (ampDiag s c w) P.aud 0) ∧ (ampDiag s c w).mem = s.mem := by
  obtain ⟨hstate, hclass, htries⟩ := bits_diagWord w
  have hnoted : rd (diagNoted s c w) (R.AUD_AMP_DIAG c) = diagWord w := rd_setReg_self _ _ _
  have hblock : 0x100 ≤ R.AUD_AMP_DIAG c % 0x1000 := by
    show 0x100 ≤ (0xD200 + 8 * c) % 0x1000
    omega
  rw [ampDiag_eq]
  have hsettle := informs_audSettle (diagTold s (diagNoted s c w) c w)
  rw [rf, rf, rf, hsettle.block _ hblock, rd_diagTold _ _ _ _ _ hblock, hnoted]
  refine ⟨hstate, hclass, htries, fun hok hfault => ?_, hsettle.mem.trans (mem_diagTold _ _ _ _)⟩
  have hnow : ampOk (diagNoted s c w) c = false := by
    rw [ampOk, rf, hnoted, hstate]
    exact decide_eq_false hfault
  have htold : Raised (diagTold s (diagNoted s c w) c w) P.aud 9 ∧ Raised (diagTold s (diagNoted s c w) c w) P.aud 0 := by
    rw [diagTold, hok, hnow]
    exact raised_fault_event (by decide) (by decide)
  exact ⟨hsettle.events 9 (by decide) (by decide) htold.1, hsettle.events 0 (by decide) (by decide) htold.2⟩

theorem exec_ampDiagWrite {w : W32} (hc : c < 2) (hrun : islandRuns s 38 = true) :
    exec (.ampDiagWrite c w) s = .next (updMod (ampDiag (wake s 38) c w.toNat) fun j => { j with events := j.events ||| 4 }) := by
  have hguard : ¬(c ≥ 2 ∨ (!islandRuns s 38) = true) := by
    simp [hrun]
    omega
  exact if_neg hguard

theorem runs_ampDiagWrite {w : W32} (hc : c < 2) (hrun : islandRuns s 38 = true) : Runs (.ampDiagWrite c w) s fun t =>
    rf t (R.AUD_AMP_DIAG c) 1 0 = w.toNat % 4 ∧ rf t (R.AUD_AMP_DIAG c) 6 4 = bits w.toNat 6 4 ∧ rf t (R.AUD_AMP_DIAG c) 11 8 = bits w.toNat 11 8
      ∧ (ampOk s c = true → w.toNat % 4 ≠ 0 → Raised t P.aud 9 ∧ Raised t P.aud 0) ∧ SameBytes s t := by
  have hexec := exec_ampDiagWrite (w := w) hc hrun
  have hshows := ampDiag_shows (s := wake s 38) hc w.toNat
  have hok : ampOk (wake s 38) c = ampOk s c := by rw [ampOk, ampOk, rf_wake]
  rw [hok, RegisterPages.wake_mem] at hshows
  generalize ampDiag (wake s 38) c w.toNat = u at hexec hshows
  obtain ⟨hstate, hclass, htries, hevents, hmem⟩ := hshows
  exact ⟨_, hexec, hstate, hclass, htries, hevents, RegisterPages.sameBytes_of_mem hmem⟩
end

/-- Settles O55: each command of the audio path. -/
theorem audioPath : Obligations.AudioPath := by
  unfold Obligations.AudioPath
  intro s
  refine ⟨fun times ts hacc hen hhistory => ⟨handoff_micBlock (s := withHost s []) hacc hen hhistory, fun hu => gives_of_serves rfl rfl hu⟩,
    fun n ts st rest hhead hgo => runs_micBlockHandoff hhead hgo, fun m hm hen hok => runs_micStuck hm hen hok, fun m hm => ?clear,
    fun ppm => runs_tdmInLost, fun ppm => runs_tdmInRelock, fun meet host => ?pop, fun a ha hhold => runs_alertHoldExpire ha hhold,
    fun src hrun hacc => runs_tdmOutFrame hrun hacc, fun src hrun hacc => runs_tdmOutFrame_off hrun hacc,
    fun c cls good hc hlen => ⟨fun hst => ?latch, fun hst hcls => ?pulse, fun hst hcls => ?quiet, fun hst => runs_ampRetry hc (by omega) hst⟩,
    fun c w hc hrun => runs_ampDiagWrite hc hrun⟩
  case clear => exact ⟨_, if_neg (by omega), rb_wb_self (by omega), Mesh.frame_of_onPage (onPage_wb (by decide))⟩
  case pop =>
    intro r hacc hqueue hgot hu
    have hwork := alertEntryPop_taken (s := withHost s host) (meet := meet) hacc hqueue hgot
    have haud : r.1.aud = s.aud := Reaches.aud (Reaches.refl s).updIo.wake.popFrom
    exact runs_of_serves rfl hwork hu (congrArg (fun a : Audio => a.popped ++ [(r.2.2.data, decide (r.2.1 = HS.poison))]) haud)
  case latch => exact runs_ampLatched (by omega) (if_neg (by omega))
  case pulse => exact runs_ampLatched (by omega) (if_neg (by omega))
  case quiet => exact if_pos (.inr (.inr hcls))

end Sys2Proof.Sound
end

section
/-! What Keystone's commands leave: the layer of its segments and of Plumb's program (19 R595, R608, R612, R616). -/
namespace Sys2Proof.Solver
open Sys2Proof Sys2Proof.Machine Sys2Proof.Laws Sys2Proof.Claims Sys2Proof.Frames Sys2Proof.Streams

/-- From `s` to `t` nothing changes but Keystone, the cores, registers of Keystone's page and messages. -/
def OnKey (s t : State) : Prop := OnPage P.key s { t with key := s.key, cores := s.cores }

section
variable {s t u : State}

theorem OnKey.refl (s : State) : OnKey s s := OnPage.refl P.key s

theorem OnKey.trans (h : OnKey s t) (k : OnKey t u) : OnKey s u :=
  OnPage.trans h ⟨congrArg (fun x : State => { x with key := s.key, cores := s.cores }) k.rest, k.regs⟩

theorem OnKey.onPage (h : OnKey s t) (k : OnPage P.key t u) : OnKey s u :=
  OnPage.trans h ⟨congrArg (fun x : State => { x with key := s.key, cores := s.cores }) k.rest, k.regs⟩

theorem OnKey.updKey (h : OnKey s t) (f : Keystone → Keystone) : OnKey s (updKey t f) := h

theorem OnKey.ite {c : Prop} [Decidable c] (ht : OnKey s t) (hu : OnKey s u) : OnKey s (if c then t else u) := by
  split <;> assumption

theorem OnKey.iteFst {α : Type} {c : Prop} [Decidable c] {x y : State × α} (hx : OnKey s x.1) (hy : OnKey s y.1) : OnKey s (if c then x else y).1 := by
  split <;> assumption

theorem OnKey.updCtx (h : OnKey s t) (c : Nat) (f : KeyCtx → KeyCtx) : OnKey s (updCtx t c f) := h.updKey _

theorem OnKey.keyCur (h : OnKey s t) (c : KeyCmd) : OnKey s (keyCur t c) := h.updKey _

theorem OnKey.keyPark (h : OnKey s t) (c : KeyCmd) : OnKey s (keyPark t c) := h.updKey _

theorem OnKey.keyRun (h : OnKey s t) (c : KeyCmd) : OnKey s (keyRun t c) := h.updKey _

theorem OnKey.mem (h : OnKey s t) : t.mem = s.mem := (congrArg State.mem h.rest :)

theorem OnKey.plb (h : OnKey s t) : t.plb = s.plb := (congrArg State.plb h.rest :)

theorem OnKey.mortar (h : OnKey s t) : t.mortar = s.mortar := (congrArg State.mortar h.rest :)

theorem OnKey.rd (h : OnKey s t) {off : Nat} (hoff : off / 0x1000 ≠ P.key) : rd t off = rd s off := h.regs off hoff

theorem key_onPage {pg : Nat} (h : OnPage pg s t) : t.key = s.key := (congrArg State.key h.rest :)

/-! A command completes. -/

/-- Keystone without a command. -/
def without (k : Keystone) (id : Nat) : Keystone := { k with cur := k.cur.filter fun d => d.id ≠ id, held := k.held.filter fun d => d.id ≠ id }

/-- The counts at the end of a command. -/
def counted (s : State) (c : KeyCmd) (st : Nat) : State :=
  let s := bump (updKey s fun k => without k c.id) R.KEY_CMDS 31 0 1
  if c.ctx < 4 then setReg s (R.KEY_CTX_LAST c.ctx) (BitVec.ofNat 32 (st + c.iter * 256)) else s

theorem onKey_counted (s : State) (c : KeyCmd) (st : Nat) : OnKey s (counted s c st) := by
  have hbumped : OnKey s (bump (updKey s fun k => without k c.id) R.KEY_CMDS 31 0 1) := ((OnKey.refl s).updKey _).onPage (onPage_bump (pg := P.key) (by decide))
  unfold counted
  dsimp only
  split
  · exact hbumped.onPage (onPage_setReg (pg := P.key) (by show (0xE148 + 16 * c.ctx) / 0x1000 = 14; omega))
  · exact hbumped

theorem key_counted (s : State) (c : KeyCmd) (st : Nat) : (counted s c st).key = without s.key c.id := by
  unfold counted
  dsimp only
  split <;> rfl

theorem keyComplete_cases (s : State) (c : KeyCmd) (st : Nat) :
    (∃ n cause id word, keyComplete s c st = answerSvc (counted s c st) n c.urgent cause id word)
      ∨ keyComplete s c st = raise (counted s c st) P.key 8 ∨ keyComplete s c st = counted s c st := by
  unfold keyComplete
  dsimp only
  split
  · exact .inl ⟨_, _, _, _, rfl⟩
  · exact .inr (.inl rfl)
  · exact .inr (.inr rfl)

theorem onKey_keyComplete (s : State) (c : KeyCmd) (st : Nat) : OnKey s (keyComplete s c st) := by
  obtain ⟨n, cause, id, word, h⟩ | h | h := keyComplete_cases s c st
  · rw [h]
    exact onKey_counted s c st
  · rw [h]
    exact (onKey_counted s c st).onPage (onPage_raise 8)
  · rw [h]
    exact onKey_counted s c st

theorem key_keyComplete (s : State) (c : KeyCmd) (st : Nat) : (keyComplete s c st).key = without s.key c.id := by
  obtain ⟨n, cause, id, word, h⟩ | h | h := keyComplete_cases s c st
  · rw [h]
    exact key_counted s c st
  · rw [h, key_onPage (onPage_raise 8), key_counted]
  · rw [h, key_counted]

theorem key_keyFail (s : State) (c : KeyCmd) (st cause info : Nat) (addr : Option Nat) : (keyFail s c st cause info addr).key = without s.key c.id := by
  unfold keyFail
  rw [key_keyComplete, key_onPage (onPage_fault _ _ _ _)]

theorem onKey_keySubmit (s : State) (c : KeyCmd) : OnKey s (keySubmit s c).1 := by
  unfold keySubmit
  extract_lets numbered counted n
  have hcounted : OnKey s counted := (OnKey.refl s).updKey _
  exact .iteFst (hcounted.trans (onKey_keyComplete _ _ _)) (hcounted.updKey _)

/-! A segment end. -/

/-- The running command makes way: one that is told to stop ends, another is parked. -/
def madeWay (s : State) : State :=
  match s.key.cur with
  | some c => if c.stop then keyComplete (if c.st = 1 then updCtx s c.ctx fun k => { k with factored := false } else s) c KS.aborted else keyPark s c
  | none => s

theorem keySwitch_eq (s : State) : keySwitch s = match keyChoose (madeWay s) with
    | some c => if c.st > 0 then keyRun (madeWay s) c else madeWay s
    | none => madeWay s := by
  unfold keySwitch madeWay
  rfl

theorem onKey_madeWay (s : State) : OnKey s (madeWay s) := by
  unfold madeWay
  split
  · split
    · exact OnKey.trans (.ite ((OnKey.refl s).updCtx _ _) (OnKey.refl s)) (onKey_keyComplete _ _ _)
    · exact (OnKey.refl s).keyPark _
  · exact OnKey.refl s

theorem onKey_keySwitch (s : State) : OnKey s (keySwitch s) := by
  rw [keySwitch_eq]
  split
  · exact .ite ((onKey_madeWay s).keyRun _) (onKey_madeWay s)
  · exact onKey_madeWay s

/-- Taking the chosen command leaves the contexts. -/
theorem ctx_keySwitch_way (s : State) : (keySwitch s).key.ctx = (madeWay s).key.ctx := by
  rw [keySwitch_eq]
  split
  · split <;> rfl
  · rfl

/-- Where the running command is not told to stop, the contexts stay. -/
theorem ctx_keySwitch (h : ∀ c, s.key.cur = some c → c.stop = false) : (keySwitch s).key.ctx = s.key.ctx := by
  rw [ctx_keySwitch_way, madeWay]
  split
  · next c hc =>
    rw [if_neg (by simp [h c hc])]
    rfl
  · rfl

theorem onKey_keyAbort (s : State) (id : Nat) : OnKey s (keyAbort s id) := by
  have hheld : OnKey s (fromHeld id s) := by
    unfold fromHeld
    split
    · exact OnKey.trans (.ite ((OnKey.refl s).updCtx _ _) (OnKey.refl s)) (onKey_keyComplete _ _ _)
    · exact OnKey.refl s
  unfold keyAbort
  split
  · exact .ite ((OnKey.refl s).keyCur _) hheld
  · exact hheld

/-! A result and its debit. -/

theorem Reaches.key (h : Reaches s t) : t.key = s.key := (congrArg State.key h.rest :)

theorem reaches_keyResult (s : State) (c : KeyCmd) (k : KeyCtx) (st stage : Nat) (vecs : Option (List Nat × List Nat)) :
    Reaches s (keyResult s c k st stage vecs).1 := by
  unfold keyResult
  extract_lets drawn stated flags res head body a written
  have hdrawn : Reaches s drawn.1 := .iteFst ⟨rfl⟩ (.refl s)
  have hwritten : Reaches s written.1 := hdrawn.writePieces _
  exact hwritten
end

end Sys2Proof.Solver
end

section
/-! Keystone: solve, release, factorisation and segments (19 R594 to R612). -/
namespace Sys2Proof.Solver
open Sys2Proof Sys2Proof.Machine Sys2Proof.Laws Sys2Proof.Claims Sys2Proof.Frames Sys2Proof.Streams

section
variable {s t : State} {c : KeyCmd} {us stall uj : Nat} {host : List Cpl}

theorem keyCtx_updCtx_self {k : Nat} (h : k < s.key.ctx.length) (f : KeyCtx → KeyCtx) : keyCtx (updCtx s k f) k = f (keyCtx s k) :=
  Islands.nth_updAt_self h f {}

theorem keyCtx_congr (h : t.key.ctx = s.key.ctx) (k : Nat) : keyCtx t k = keyCtx s k := by
  rw [keyCtx, keyCtx, h]

theorem key_wake (s : State) (n : Nat) : (wake s n).key = s.key := Reaches.key (Reaches.refl s).wake

/-- A command that leaves without its own number leaves the engine idle. -/
theorem without_cur {k : Keystone} (h : k.cur = some c) : (without k c.id).cur = none := by
  show k.cur.filter (fun d => decide (d.id ≠ c.id)) = none
  rw [h]
  simp [Option.filter]

/-! A start, and a release. -/

theorem keyPlumb_cur (s : State) (c : KeyCmd) :
    (keyPlumb s c).key.cur = some { c with st := if (keyCtx s 3).factored then 2 else 1, tStart := tbNs s } := by
  unfold keyPlumb
  dsimp only
  split
  · rfl
  · rfl

theorem onKey_keyPlumb (s : State) (c : KeyCmd) : OnKey s (keyPlumb s c) := by
  unfold keyPlumb
  exact .ite ((OnKey.refl s).keyRun _) (((OnKey.refl s).updCtx _ _).keyRun _)

theorem keySolve_takes (hidle : s.key.cur = none) (hacc : accepts s P.key = true) (hchosen : keyChoose s = some c) (hst : c.st = 0)
    (hsolve : ¬(c.issuer ≠ .hw ∧ field c.block 0 1 = 2)) :
    keySolve s = if c.issuer = .hw then keyPlumb (wake s 30) c else keyStart (keyRun (wake s 30) c) c := by
  have htake : ¬(c.st > 0 ∨ (c.issuer ≠ .hw ∧ field c.block 0 1 = 2)) := by
    rintro (h | h)
    · omega
    · exact hsolve h
  unfold keySolve
  rw [if_neg (by simp [hidle, hacc]), hchosen]
  exact if_neg htake

theorem runs_keySolve_plumb (hidle : s.key.cur = none) (hacc : accepts s P.key = true) (hchosen : keyChoose s = some c) (hst : c.st = 0)
    (hw : c.issuer = .hw) : Runs (.keySolve host) s fun t =>
      t.key.cur = some { c with st := if (keyCtx s 3).factored then 2 else 1, tStart := tbNs s } ∧ SameBytes s t := by
  have hwork : keySolve (withHost s host) = keyPlumb (wake (withHost s host) 30) c :=
    (keySolve_takes (s := withHost s host) hidle hacc hchosen hst (fun h => h.1 hw)).trans (if_pos hw)
  have hon := onKey_keyPlumb (wake (withHost s host) 30) c
  refine runs_of_serves rfl hwork (RegisterPages.unheld_of_mortar (hon.mortar.trans (RegisterPages.wake_mortar _ 30))) ⟨?_, RegisterPages.sameBytes_of_mem ?_⟩
  · have hctx : keyCtx (wake (withHost s host) 30) 3 = keyCtx s 3 := keyCtx_congr (congrArg Keystone.ctx (key_wake (withHost s host) 30)) 3
    have hcur := keyPlumb_cur (wake (withHost s host) 30) c
    rw [hctx, tbNs_wake] at hcur
    exact hcur
  · exact hon.mem.trans (RegisterPages.wake_mem _ 30)

theorem keyOwner_congr (h : t.regs = s.regs) (c : KeyCmd) : keyOwner t c = keyOwner s c := by
  unfold keyOwner rf rd
  rw [h]

/-- The context of a RELEASE is discarded, its command in the engine. -/
def released (s : State) (c : KeyCmd) : State := updCtx (fresh (keyRun (wake s 30) c) 16).1 c.ctx fun _ => {}

theorem cur_released (s : State) (c : KeyCmd) : (released s c).key.cur = some c := rfl

theorem mem_released (s : State) (c : KeyCmd) : (released s c).mem = s.mem := by
  have hkept : ∀ w : State, (updCtx (fresh (keyRun w c) 16).1 c.ctx fun _ => {}).mem = w.mem := fun _ => rfl
  exact (hkept _).trans (RegisterPages.wake_mem s 30)

theorem keyCtx_released (h : c.ctx < s.key.ctx.length) : keyCtx (released s c) c.ctx = {} := by
  have hlen : c.ctx < (fresh (keyRun (wake s 30) c) 16).1.key.ctx.length := by
    show c.ctx < (wake s 30).key.ctx.length
    rwa [key_wake]
  exact keyCtx_updCtx_self hlen _

theorem exec_keyRelease (hidle : s.key.cur = none) (hacc : accepts s P.key = true) (hchosen : keyChoose s = some c) (hst : c.st = 0)
    (hissuer : c.issuer ≠ .hw) (hop : field c.block 0 1 = 2) (hgood : c.bad = false) (hblock : keyBlockOk c.block = true) (howner : keyOwner s c = true) :
    ∃ st, exec .keyRelease s = .next (keyComplete (released s c) c st) := by
  have htake : ¬(c.st > 0 ∨ c.issuer = .hw ∨ field c.block 0 1 ≠ 2) := by
    rintro (h | h | h)
    · omega
    · exact hissuer h
    · exact h hop
  have hown : keyOwner (keyRun (wake s 30) c) c = true := (keyOwner_congr (RegisterPages.wake_regs s 30) c).trans howner
  refine ⟨1 + (fresh (keyRun (wake s 30) c) 16).2 % 14, ?_⟩
  show execKeyRelease s = _
  unfold execKeyRelease released
  rw [if_neg (by simp [hidle, hacc]), hchosen]
  dsimp only
  rw [if_neg htake, if_neg (by simp [hgood]), if_neg (by simp [hblock]), if_neg (by simp [hown])]

theorem runs_keyRelease (hidle : s.key.cur = none) (hacc : accepts s P.key = true) (hchosen : keyChoose s = some c) (hst : c.st = 0)
    (hissuer : c.issuer ≠ .hw) (hop : field c.block 0 1 = 2) (hgood : c.bad = false) (hblock : keyBlockOk c.block = true) (howner : keyOwner s c = true)
    (hctx : c.ctx < s.key.ctx.length) : Runs .keyRelease s fun t => keyCtx t c.ctx = {} ∧ t.key.cur = none ∧ c ∉ t.key.held ∧ SameBytes s t := by
  obtain ⟨st, hexec⟩ := exec_keyRelease hidle hacc hchosen hst hissuer hop hgood hblock howner
  have hkey := key_keyComplete (released s c) c st
  refine ⟨_, hexec, ?_, ?_, ?_,
    RegisterPages.sameBytes_of_mem ((onKey_keyComplete _ c st).mem.trans (mem_released s c))⟩
  · rw [keyCtx, hkey]
    exact keyCtx_released hctx
  · rw [hkey]
    exact without_cur (cur_released s c)
  · rw [hkey]
    intro hin
    simpa using (List.mem_filter.mp hin).2

/-! A segment's end. -/

/-- The state in which a segment's end finds the engine, its time counted. -/
def paced (s : State) (us stall : Nat) : State := keyTime (wake s 30) us stall

theorem key_paced (s : State) (us stall : Nat) : (paced s us stall).key = s.key := key_wake s 30

theorem mem_paced (s : State) (us stall : Nat) : (paced s us stall).mem = s.mem := RegisterPages.wake_mem s 30

theorem mortar_paced (s : State) (us stall : Nat) : (paced s us stall).mortar = s.mortar := RegisterPages.wake_mortar s 30

theorem keyCtx_paced (s : State) (us stall k : Nat) : keyCtx (paced s us stall) k = keyCtx s k := keyCtx_congr (congrArg Keystone.ctx (key_paced s us stall)) k

theorem key_keyFinish (s : State) (c : KeyCmd) (st stage uj : Nat) (vecs : Option (List Nat × List Nat)) :
    (keyFinish s c st stage uj vecs).key = without s.key c.id := by
  unfold keyFinish
  extract_lets result debited
  have hresult : result.1.key = s.key := Reaches.key (reaches_keyResult s c _ st stage vecs)
  clear_value result
  have hdebited : debited.key = s.key := by
    rw [← hresult, apply_ite State.key]
    exact ite_self _
  clear_value debited
  split
  · rw [key_keyFail, hdebited]
  · rw [key_keyComplete, hdebited]

/-- A factorisation's last segment ends (R602). -/
theorem keySetup_running (hrun : islandRuns s 30 = true) (hcur : s.key.cur = some c) (hst : c.st = 1) (hgo : c.stop = false) :
    keySetup us stall uj s =
      if c.issuer = .hw then keySwitch (keyCur (updCtx (paced s us stall) c.ctx fun k => { k with factored := true }) { c with st := 2 })
      else match factorise (keyCtx (paced s us stall) c.ctx) with
        | none => keySwitch (keyFinish (updCtx (paced s us stall) c.ctx fun k => { k with factored := false }) c KS.factorFailed 2 uj none)
        | some k => keySwitch (keyCur (updCtx (paced s us stall) c.ctx fun _ => k) { c with st := 2 }) := by
  unfold keySetup
  rw [if_neg (by simp [hrun]), hcur]
  dsimp only
  rw [if_neg (by simp [hst]), if_neg (by simp [hgo])]
  rfl

theorem keySegmentEnd_running (hrun : islandRuns s 30 = true) (hcur : s.key.cur = some c) (hst : c.st = 2) (hgo : c.stop = false) :
    keySegmentEnd us stall uj s =
      if c.issuer = .hw then keySwitch (keyCur (bump (paced s us stall) R.KEY_ITERS 31 0 1) { c with iter := c.iter + 1 })
      else keySwitch (keyIterate (paced s us stall) c uj) := by
  unfold keySegmentEnd
  rw [if_neg (by simp [hrun]), hcur]
  dsimp only
  rw [if_neg (by simp [hst, hgo])]
  rfl

/-- A context that is replaced while its command goes on holds what replaced it after the segment. -/
theorem ctx_going_on {k : Nat} {d : KeyCmd} (hk : k < s.key.ctx.length) (hgo : d.stop = false) (f : KeyCtx → KeyCtx) :
    keyCtx (keySwitch (keyCur (updCtx s k f) d)) k = f (keyCtx s k) := by
  have hstay : (keySwitch (keyCur (updCtx s k f) d)).key.ctx = (keyCur (updCtx s k f) d).key.ctx := ctx_keySwitch fun e he => by
    obtain rfl := Option.some.inj he
    exact hgo
  rw [keyCtx_congr hstay]
  exact keyCtx_updCtx_self hk f

/-- Where the work of a served command is Keystone's own, it asks for nothing and leaves memory. -/
theorem runs_onKey {i : Instr} {f : State → State} {P : State → Prop} (hexec : exec i s = serves host f s) (hwork : f (withHost s host) = t)
    (hon : OnKey (paced (withHost s host) us stall) t) (hP : SameBytes s (given s t) → P (given s t)) : Runs i s P :=
  runs_of_serves hexec hwork (RegisterPages.unheld_of_mortar (hon.mortar.trans (mortar_paced _ us stall)))
    (hP (RegisterPages.sameBytes_of_mem (hon.mem.trans (mem_paced _ us stall))))

theorem runs_keySetup_plumb (hrun : islandRuns s 30 = true) (hcur : s.key.cur = some c) (hst : c.st = 1) (hgo : c.stop = false)
    (hctx : c.ctx < s.key.ctx.length) (hw : c.issuer = .hw) :
    Runs (.keySetup us stall uj) s fun t => (keyCtx t c.ctx).factored = true ∧ SameBytes s t := by
  have hlen : c.ctx < (paced (withHost s []) us stall).key.ctx.length := by rwa [key_paced]
  have hwork := (keySetup_running (us := us) (stall := stall) (uj := uj) (s := withHost s []) hrun hcur hst hgo).trans (if_pos hw)
  refine runs_onKey (us := us) (stall := stall) rfl hwork ((((OnKey.refl _).updCtx _ _).keyCur _).trans (onKey_keySwitch _)) fun hsame => ⟨?_, hsame⟩
  have hfinal := ctx_going_on (d := { c with st := 2 }) hlen hgo fun k => { k with factored := true }
  exact congrArg KeyCtx.factored hfinal

theorem runs_keySetup_factored {k : KeyCtx} (hrun : islandRuns s 30 = true) (hcur : s.key.cur = some c) (hst : c.st = 1) (hgo : c.stop = false)
    (hctx : c.ctx < s.key.ctx.length) (hissuer : c.issuer ≠ .hw) (hfactor : factorise (keyCtx s c.ctx) = some k) :
    Runs (.keySetup us stall uj) s fun t => keyCtx t c.ctx = k ∧ SameBytes s t := by
  have hlen : c.ctx < (paced (withHost s []) us stall).key.ctx.length := by rwa [key_paced]
  have hfactored : factorise (keyCtx (paced (withHost s []) us stall) c.ctx) = some k := (congrArg factorise (keyCtx_paced _ us stall c.ctx)).trans hfactor
  have hwork := (keySetup_running (us := us) (stall := stall) (uj := uj) (s := withHost s []) hrun hcur hst hgo).trans (if_neg hissuer)
  rw [hfactored] at hwork
  refine runs_onKey (us := us) (stall := stall) rfl hwork ((((OnKey.refl _).updCtx _ _).keyCur _).trans (onKey_keySwitch _)) fun hsame => ⟨?_, hsame⟩
  exact ctx_going_on (d := { c with st := 2 }) hlen hgo fun _ => k

theorem factored_keySetup_failed (hrun : islandRuns s 30 = true) (hcur : s.key.cur = some c) (hst : c.st = 1) (hgo : c.stop = false)
    (hctx : c.ctx < s.key.ctx.length) (hissuer : c.issuer ≠ .hw) (hfactor : factorise (keyCtx s c.ctx) = none) :
    (keyCtx (keySetup us stall uj s) c.ctx).factored = false := by
  have hlen : c.ctx < (paced s us stall).key.ctx.length := by rwa [key_paced]
  have hwork := (keySetup_running (us := us) (stall := stall) (uj := uj) hrun hcur hst hgo).trans (if_neg hissuer)
  rw [keyCtx_paced, hfactor] at hwork
  have hkey := key_keyFinish (updCtx (paced s us stall) c.ctx fun k => { k with factored := false }) c KS.factorFailed 2 uj none
  have hidle : (keyFinish (updCtx (paced s us stall) c.ctx fun k => { k with factored := false }) c KS.factorFailed 2 uj none).key.cur = none := by
    rw [hkey]
    exact without_cur ((congrArg Keystone.cur (key_paced s us stall)).trans hcur)
  rw [hwork, keyCtx_congr (ctx_keySwitch fun d hd => by simp [hidle] at hd), keyCtx, hkey]
  exact congrArg KeyCtx.factored (keyCtx_updCtx_self hlen _)

/-! An iteration. -/

theorem choose_parked {d : KeyCmd} (hw : d.issuer = .hw) : ∃ e, keyChoose (keyPark s d) = some e ∧ (e = d ∨ e ∈ s.key.held) := by
  have hin : d ∈ (keyPark s d).key.held := List.mem_append_right _ (List.mem_cons_self ..)
  obtain ⟨e, he⟩ : ∃ e, ((keyPark s d).key.held.find? fun c => decide (c.issuer = .hw)) = some e :=
    Option.isSome_iff_exists.mp (List.find?_isSome.mpr ⟨d, hin, decide_eq_true hw⟩)
  refine ⟨e, by rw [keyChoose, he], ?_⟩
  rcases List.mem_append.mp (List.mem_of_find?_eq_some he) with h | h
  · exact .inr (List.mem_of_mem_filter h)
  · rcases List.mem_cons.mp h with h | h
    · exact .inl h
    · exact .inr (List.mem_of_mem_filter h)

/-- Plumb's command, when its segment ends, runs on or waits. -/
theorem mem_keySwitch_plumb {d : KeyCmd} (hw : d.issuer = .hw) (hgo : d.stop = false) (hcur : s.key.cur = some d)
    (hother : ∀ e ∈ s.key.held, e.id ≠ d.id) : d ∈ (keySwitch s).key.cur.toList ++ (keySwitch s).key.held := by
  have hway : madeWay s = keyPark s d := by
    rw [madeWay, hcur]
    exact if_neg (by simp [hgo])
  have hin : d ∈ (keyPark s d).key.held := List.mem_append_right _ (List.mem_cons_self ..)
  obtain ⟨e, hchosen, he⟩ := choose_parked (s := s) hw
  rw [keySwitch_eq, hway, hchosen]
  dsimp only
  split
  · rcases he with rfl | he
    · exact List.mem_append_left _ (by simp [keyRun, updKey])
    · refine List.mem_append_right _ (List.mem_filter.mpr ⟨hin, ?_⟩)
      exact decide_eq_true (Ne.symm (hother e he))
  · exact List.mem_append_right _ hin

theorem runs_keySegmentEnd_plumb (hrun : islandRuns s 30 = true) (hcur : s.key.cur = some c) (hst : c.st = 2) (hgo : c.stop = false)
    (hw : c.issuer = .hw) (hother : ∀ d ∈ s.key.held, d.id ≠ c.id) : Runs (.keySegmentEnd us stall uj) s fun t =>
      { c with iter := c.iter + 1 } ∈ t.key.cur.toList ++ t.key.held ∧ SameBytes s t := by
  have hwork := (keySegmentEnd_running (us := us) (stall := stall) (uj := uj) (s := withHost s []) hrun hcur hst hgo).trans (if_pos hw)
  have hheld : (paced (withHost s []) us stall).key.held = s.key.held := congrArg Keystone.held (key_paced (withHost s []) us stall)
  refine runs_onKey (us := us) (stall := stall) rfl hwork
    ((((OnKey.refl _).onPage (onPage_bump (pg := P.key) (by decide))).keyCur _).trans (onKey_keySwitch _)) fun hsame => ⟨?_, hsame⟩
  exact mem_keySwitch_plumb (d := { c with iter := c.iter + 1 }) hw hgo rfl fun d hd => hother d (hheld ▸ hd)

/-- A SOLVE that completes after its context was replaced leaves the engine idle and the context as it is. -/
theorem keyFinish_leaves {x : State} {ctx : List KeyCtx} {d : KeyCmd} {st stage : Nat} {vecs : Option (List Nat × List Nat)} (hctx : x.key.ctx = ctx)
    (hcur : x.key.cur = some c) (hid : d.id = c.id) :
    (keyFinish x d st stage uj vecs).key.ctx = ctx ∧ ∀ e, (keyFinish x d st stage uj vecs).key.cur = some e → e.stop = false := by
  rw [key_keyFinish, hid]
  refine ⟨hctx, fun e he => ?_⟩
  have hnone : (without x.key c.id).cur = none := without_cur hcur
  simp [hnone] at he

theorem keyIterate_leaves (hcur : s.key.cur = some c) (hgo : c.stop = false) :
    (keyIterate s c uj).key.ctx = updAt s.key.ctx c.ctx (fun _ => iterate (keyCtx s c.ctx))
      ∧ ∀ d, (keyIterate s c uj).key.cur = some d → d.stop = false := by
  unfold keyIterate
  extract_lets k iterated c' y dx dy
  have hctx : iterated.key.ctx = updAt s.key.ctx c.ctx (fun _ => iterate (keyCtx s c.ctx)) := rfl
  have hrunning : iterated.key.cur = some c := hcur
  have hid : c'.id = c.id := rfl
  have hstop : c'.stop = false := hgo
  clear_value k iterated c'
  split
  · refine ⟨hctx, fun d hd => ?_⟩
    obtain rfl := Option.some.inj hd
    split <;> exact hstop
  · exact keyFinish_leaves hctx hrunning hid
  · next drawn _ _ _ _ =>
    have hdrawn : drawn.1.key = iterated.key := rfl
    clear_value drawn
    exact keyFinish_leaves (hdrawn ▸ hctx) (hdrawn ▸ hrunning) hid

theorem ctx_keySegmentEnd (hrun : islandRuns s 30 = true) (hcur : s.key.cur = some c) (hst : c.st = 2) (hgo : c.stop = false) (hissuer : c.issuer ≠ .hw)
    (hctx : c.ctx < s.key.ctx.length) : keyCtx (keySegmentEnd us stall uj s) c.ctx = iterate (keyCtx s c.ctx) := by
  have hwork := (keySegmentEnd_running (us := us) (stall := stall) (uj := uj) hrun hcur hst hgo).trans (if_neg hissuer)
  have hlen : c.ctx < (paced s us stall).key.ctx.length := by rwa [key_paced]
  obtain ⟨hnew, hon⟩ := keyIterate_leaves (uj := uj) ((congrArg Keystone.cur (key_paced s us stall)).trans hcur) hgo
  rw [hwork, keyCtx_congr (ctx_keySwitch hon)]
  unfold keyCtx
  rw [hnew, Islands.nth_updAt_self hlen]
  exact congrArg iterate (keyCtx_paced s us stall c.ctx)
end

/-- Settles O52: what each step of Keystone leaves in its contexts and its list. -/
theorem keystoneSegments : Obligations.KeystoneSegments := by
  unfold Obligations.KeystoneSegments
  intro s host us stall uj
  refine ⟨fun c hidle hacc hchosen hst => ⟨fun hw => runs_keySolve_plumb hidle hacc hchosen hst hw, ?start⟩,
    fun c hidle hacc hchosen hst hissuer hop hgood hblock howner hctx => runs_keyRelease hidle hacc hchosen hst hissuer hop hgood hblock howner hctx,
    fun c hrun hcur hst hgo hctx => ⟨fun hw => runs_keySetup_plumb hrun hcur hst hgo hctx hw,
      fun k hissuer hfactor => runs_keySetup_factored hrun hcur hst hgo hctx hissuer hfactor,
      fun hissuer hfactor => ⟨factored_keySetup_failed (s := withHost s []) hrun hcur hst hgo hctx hissuer hfactor, fun hu => gives_of_serves rfl rfl hu⟩⟩,
    fun c hrun hcur hst hgo => ⟨fun hw hother => runs_keySegmentEnd_plumb hrun hcur hst hgo hw hother,
      fun hissuer hctx => ⟨ctx_keySegmentEnd (s := withHost s []) hrun hcur hst hgo hissuer hctx, fun hu => gives_of_serves rfl rfl hu⟩⟩⟩
  case start =>
    intro u hissuer hop hu
    have htaken := keySolve_takes (s := withHost s host) hidle hacc hchosen hst fun h => hop h.2
    exact gives_of_serves rfl (htaken.trans (if_neg hissuer)) hu

end Sys2Proof.Solver
end

section
/-! Plumb: the sensors, the clamp and the trip, the period and the plan (18 R556 to R590). -/
namespace Sys2Proof.Plumbing
open Sys2Proof Sys2Proof.Machine Sys2Proof.Laws Sys2Proof.Claims Sys2Proof.Frames Sys2Proof.Subchannels Sys2Proof.Sound Sys2Proof.Solver

/-- From `s` to `t` Plumb warns: memory, the samples, the failed sensors and the events stay, and no bit of PLB_STATUS falls. -/
structure Warns (s t : State) : Prop where
  lasts : Lasts s t
  mem : t.mem = s.mem
  regs : ∀ off, 0x6124 ≤ off → off < 0x6400 → rd t off = rd s off
  status : ∀ b, b < 32 → rb s R.PLB_STATUS b = true → rb t R.PLB_STATUS b = true

section
variable {s t u : State}

theorem requestPoint_rest (s : State) (n : Nat) (p : Point) : requestPoint s n p = { s with isl := (requestPoint s n p).isl } := by
  unfold requestPoint
  split
  · rfl
  · split <;> rfl

theorem Warns.refl (s : State) : Warns s s := ⟨.refl s, rfl, fun _ _ _ => rfl, fun _ _ h => h⟩

theorem Warns.trans (h : Warns s t) (k : Warns t u) : Warns s u :=
  ⟨h.lasts.trans k.lasts, k.mem.trans h.mem, fun off hl hh => (k.regs off hl hh).trans (h.regs off hl hh), fun b hb hs => k.status b hb (h.status b hb hs)⟩

theorem Warns.ite {c : Prop} [Decidable c] (ht : Warns s t) (hu : Warns s u) : Warns s (if c then t else u) := by
  split <;> assumption

theorem Warns.setReg (h : Warns s t) {off : Nat} {v : W32} (hheader : off % 0x1000 ≠ 0x20) (hstatus : off ≠ R.PLB_STATUS)
    (hshown : off < 0x6124 ∨ 0x6400 ≤ off) : Warns s (setReg t off v) where
  lasts := h.lasts.setReg hheader
  mem := h.mem
  regs o hlow hhigh := (rd_setReg_ne (by omega)).trans (h.regs o hlow hhigh)
  status b hb hs := by
    rw [rb, rd_setReg_ne hstatus.symm]
    exact h.status b hb hs

theorem Warns.flag (h : Warns s t) {b : Nat} (hb : b < 32) : Warns s (wb t R.PLB_STATUS b true) where
  lasts := h.lasts.wb (by decide)
  mem := h.mem
  regs o hlow _ := (rd_wb_ne (by show o ≠ 0x6104; omega)).trans (h.regs o hlow ‹_›)
  status i hi hs := by
    by_cases hib : i = b
    · rw [hib]
      exact rb_wb_self hb
    · exact (rb_wb_ne hi hib).trans (h.status i hi hs)

theorem Warns.hwFault (h : Warns s t) {cause info : Nat} : Warns s (hwFault t P.plb cause info) where
  lasts := h.lasts.hwFault
  mem := (PowerUp.mem_of_onPage (onPage_hwFault _ _)).trans h.mem
  regs o hlow hhigh := (rd_hwFault_block (by omega)).trans (h.regs o hlow hhigh)
  status b hb hs := by
    rw [rb, rd_hwFault_block (by decide)]
    exact h.status b hb hs

theorem Warns.raise (h : Warns s t) {b : Nat} : Warns s (raise t P.plb b) where
  lasts := h.lasts.raise
  mem := (PowerUp.mem_of_onPage (onPage_raise _)).trans h.mem
  regs o hlow hhigh := (rd_raise_block (by omega)).trans (h.regs o hlow hhigh)
  status i hi hs := by
    rw [rb, rd_raise_block (by decide)]
    exact h.status i hi hs

theorem Warns.clampMessages (h : Warns s t) : Warns s (clampMessages t) := h.setReg (by decide) (by decide) (by decide)

theorem Warns.requestPoint (h : Warns s t) {n : Nat} {p : Point} : Warns s (requestPoint t n p) := by
  rw [requestPoint_rest]
  exact ⟨h.lasts.same rfl, h.mem, h.regs, h.status⟩

theorem Warns.requests (h : Warns s t) (l : List Nat) (p : Point) : Warns s (l.foldl (fun s n => Machine.requestPoint s n p) t) :=
  List.foldlRecOn l _ h fun _ k _ _ => k.requestPoint

/-! The clamp and the trip (R588, R590). -/

theorem warns_engageClamp (s : State) (i : Nat) (v : Int) : Warns s (engageClamp s i v) :=
  .ite (.refl s) ((Warns.refl s).flag (by decide)).hwFault.raise.clampMessages

theorem status_clampMessages (s : State) (b : Nat) : rb (clampMessages s) R.PLB_STATUS b = rb s R.PLB_STATUS b := by
  rw [rb, rb, clampMessages, countFlits, rd_bump_ne (by decide)]

theorem clamped_engageClamp (s : State) (i : Nat) (v : Int) : rb (engageClamp s i v) R.PLB_STATUS 8 = true := by
  unfold engageClamp
  split
  · assumption
  · have hflag : Warns (wb s R.PLB_STATUS 8 true) (raise (Machine.hwFault (wb s R.PLB_STATUS 8 true) P.plb 3 (unsx 16 v + i * 65536)) P.plb 9) :=
      (Warns.refl _).hwFault.raise
    rw [status_clampMessages]
    exact hflag.status 8 (by decide) (rb_wb_self (by decide))

/-- THERM_TRIP_N falls. -/
def tripped (s : State) (i : Nat) (v : Int) : State := raise (hwFault (wb s R.PLB_STATUS 9 true) P.plb 4 (unsx 16 v + i * 65536)) P.plb 10

/-- Every scaled island is placed at point 0. -/
def placed (s : State) : State := (List.range 11).foldl (fun s g =>
  (grpIslands g).foldl (fun s n => requestPoint s n (nth (grpPoints g) 0 ⟨0, 0⟩)) (wf s (R.PLB_GRP_POINT g) 2 0 0)) s

theorem engageTrip_eq (s : State) (i : Nat) (v : Int) : engageTrip s i v =
    if rb (engageClamp s i v) R.PLB_STATUS 9 then engageClamp s i v else placed (tripped (engageClamp s i v) i v) := rfl

theorem warns_placed (s : State) : Warns s (placed s) := by
  refine List.foldlRecOn (List.range 11) _ (Warns.refl s) fun t h g hg => Warns.requests ?_ _ _
  have hlt : g < 11 := List.mem_range.mp hg
  have hoff : R.PLB_GRP_POINT g = 0x6400 + 16 * g := rfl
  exact h.setReg (by omega) (by show R.PLB_GRP_POINT g ≠ 0x6104; omega) (by omega)

theorem warns_tripped (s : State) (i : Nat) (v : Int) : Warns s (tripped s i v) := ((Warns.refl s).flag (by decide)).hwFault.raise

theorem tripped_status (s : State) (i : Nat) (v : Int) : rb (tripped s i v) R.PLB_STATUS 9 = true :=
  Warns.status (Warns.refl (wb s R.PLB_STATUS 9 true)).hwFault.raise 9 (by decide) (rb_wb_self (by decide))

theorem warns_engageTrip (s : State) (i : Nat) (v : Int) : Warns s (engageTrip s i v) := by
  rw [engageTrip_eq]
  exact .ite (warns_engageClamp s i v) ((warns_engageClamp s i v).trans ((warns_tripped _ i v).trans (warns_placed _)))

theorem tripped_engageTrip (s : State) (i : Nat) (v : Int) :
    rb (engageTrip s i v) R.PLB_STATUS 9 = true ∧ rb (engageTrip s i v) R.PLB_STATUS 8 = true := by
  rw [engageTrip_eq]
  split
  · exact ⟨‹_›, clamped_engageClamp s i v⟩
  · have h := warns_placed (tripped (engageClamp s i v) i v)
    exact ⟨h.status 9 (by decide) (tripped_status _ i v),
      h.status 8 (by decide) ((warns_tripped _ i v).status 8 (by decide) (clamped_engageClamp s i v))⟩

/-! A sample (R556, R557). -/

/-- The state with a sample in its register. -/
def sampled (s : State) (i : Nat) (v : Int) : State := setReg s (R.PLB_TEMP i) (BitVec.ofNat 32 (unsx 16 v))

/-- What a sample engages. -/
def answered (s : State) (i : Nat) (v : Int) : State :=
  let s := if v ≥ 968 then engageClamp s i v else s
  if v ≥ 1040 then engageTrip s i v else s

theorem takeSample_eq (s : State) (i : Nat) (v : Int) : takeSample s i v = answered (setHot (sampled s i v)) i v := rfl

theorem warns_answered (s : State) (i : Nat) (v : Int) : Warns s (answered s i v) := by
  have hclamp : Warns s (if v ≥ 968 then engageClamp s i v else s) := .ite (warns_engageClamp s i v) (.refl s)
  exact .ite (hclamp.trans (warns_engageTrip _ i v)) hclamp

theorem warns_takeSample (s : State) (i : Nat) (v : Int) : Warns (sampled s i v) (takeSample s i v) := by
  rw [takeSample_eq]
  exact Warns.trans ((Warns.refl _).setReg (by decide) (by decide) (by decide)) (warns_answered _ i v)

theorem status_takeSample (s : State) (i : Nat) (v : Int) :
    (968 ≤ v → rb (takeSample s i v) R.PLB_STATUS 8 = true)
      ∧ (1040 ≤ v → rb (takeSample s i v) R.PLB_STATUS 9 = true ∧ rb (takeSample s i v) R.PLB_STATUS 8 = true) := by
  rw [takeSample_eq]
  unfold answered
  refine ⟨fun h => ?_, fun h => ?_⟩
  · rw [if_pos h]
    split
    · exact (tripped_engageTrip _ i v).2
    · exact clamped_engageClamp _ i v
  · rw [if_pos h]
    exact tripped_engageTrip _ i v

theorem sx_unsx {v : Int} (hlow : -320 ≤ v) (hhigh : v ≤ 1200) : sx 16 (bits (BitVec.ofNat 32 (unsx 16 v)).toNat 15 0) = v := by
  have hshown : unsx 16 v < 65536 ∧ ((unsx 16 v : Nat) : Int) = v % 65536 := by
    unfold unsx
    omega
  generalize unsx 16 v = n at hshown
  simp only [sx, bits, BitVec.toNat_ofNat, Nat.shiftRight_zero]
  norm_num
  split <;> omega

theorem runs_sensorSample_good {i : Nat} {v : Int} (hi : i < 24) (hheat : s.flt.heat = none) (hlow : -320 ≤ v) (hhigh : v ≤ 1200)
    (hok : rb s R.PLB_SENSOR_FAIL i = false) : Runs (.sensorSample i v true) s fun t =>
      tempOf t i = v ∧ (968 ≤ v → rb t R.PLB_STATUS 8 = true) ∧ (1040 ≤ v → rb t R.PLB_STATUS 9 = true ∧ rb t R.PLB_STATUS 8 = true) ∧ SameBytes s t := by
  have hheated : heated s i v = v := by rw [heated, hheat]
  have hexec : exec (.sensorSample i v true) s = .next (takeSample s i v) := by
    have hbad : (!true || decide (v < -320) || decide (v > 1200)) = false := by simp; omega
    show execSensorSample i v true s = _
    unfold execSensorSample
    rw [if_neg (by omega), hheated]
    simp only [hbad, hok]
    rfl
  have hwarns := warns_takeSample s i v
  obtain ⟨hclamp, htrip⟩ := status_takeSample s i v
  have hoff : R.PLB_TEMP i = 0x6180 + 4 * i := rfl
  refine ⟨_, hexec, ?_, hclamp, htrip, RegisterPages.sameBytes_of_mem hwarns.mem⟩
  rw [tempOf, rf, hwarns.regs _ (by omega) (by omega), sampled, rd_setReg_self]
  exact sx_unsx hlow hhigh

/-- A substitute sample keeps a failed sensor marked and the fault raised. -/
theorem takeSample_failed {i : Nat} {v : Int} (hi : i < 24) (hfail : rb s R.PLB_SENSOR_FAIL i = true) (hfault : Raised s P.plb 0) :
    rb (takeSample s i v) R.PLB_SENSOR_FAIL i = true ∧ Raised (takeSample s i v) P.plb 0 ∧ (takeSample s i v).mem = s.mem := by
  have hwarns := warns_takeSample s i v
  have hoff : R.PLB_TEMP i = 0x6180 + 4 * i := rfl
  refine ⟨?_, hwarns.lasts.raised (by decide) ?_, hwarns.mem⟩
  · rw [rb, hwarns.regs _ (by decide) (by decide), sampled, rd_setReg_ne (by show (0x6124 : Nat) ≠ _; omega)]
    exact hfail
  · rw [Raised, rb, sampled, rd_setReg_ne (by show hdr 6 0x20 ≠ _; unfold hdr; omega)]
    exact hfault

/-- A sensor that fails is marked, and the fault raised. -/
def markedFailed (s : State) (i info : Nat) : State := wb (hwFault s P.plb 5 info) R.PLB_SENSOR_FAIL i true

theorem markedFailed_shows (s : State) {i : Nat} (hi : i < 32) (info : Nat) :
    rb (markedFailed s i info) R.PLB_SENSOR_FAIL i = true ∧ Raised (markedFailed s i info) P.plb 0 ∧ (markedFailed s i info).mem = s.mem := by
  refine ⟨rb_wb_self hi, ?_, PowerUp.mem_of_onPage ((onPage_hwFault _ _).trans (onPage_wb (pg := P.plb) (by decide)))⟩
  rw [Raised, markedFailed, rb_wb_off (by decide)]
  exact RegisterPages.rb_fault _ _ _ _ _ _

theorem exec_sensorSample_bad {i : Nat} {v : Int} (hi : i < 24) (hok : rb s R.PLB_SENSOR_FAIL i = false) :
    ∃ info x w, exec (.sensorSample i v false) s = .next (takeSample x i w) ∧ x.regs = (markedFailed s i info).regs ∧ x.mem = (markedFailed s i info).mem := by
  refine ⟨i + unsx 16 (heated s i v) * 65536, ?_⟩
  show ∃ x w, execSensorSample i v false s = _ ∧ _
  unfold execSensorSample
  rw [if_neg (by omega)]
  simp only [hok, Bool.not_false, Bool.true_or, Bool.not_true, Bool.false_and, Bool.and_self, if_true, Bool.false_eq_true, if_false]
  split
  · exact ⟨_, _, rfl, rfl, rfl⟩
  · exact ⟨_, _, rfl, rfl, rfl⟩

theorem runs_sensorSample_bad {i : Nat} {v : Int} (hi : i < 24) (hok : rb s R.PLB_SENSOR_FAIL i = false) : Runs (.sensorSample i v false) s fun t =>
    rb t R.PLB_SENSOR_FAIL i = true ∧ Raised t P.plb 0 ∧ SameBytes s t := by
  obtain ⟨info, x, w, hexec, hregs, hmem⟩ := exec_sensorSample_bad (v := v) hi hok
  obtain ⟨hfail, hfault, hsame⟩ := markedFailed_shows s (i := i) (by omega) info
  have hread : ∀ off b, rb x off b = rb (markedFailed s i info) off b := fun off b => by rw [rb, rb, rd, rd, hregs]
  obtain ⟨hmarked, hraised, hkept⟩ := takeSample_failed (v := w) hi ((hread _ _).trans hfail) ((hread _ _).trans hfault)
  exact ⟨_, hexec, hmarked, hraised, RegisterPages.sameBytes_of_mem (hkept.trans (hmem.trans hsame))⟩

theorem runs_clampRelease (htrip : rb s R.PLB_STATUS 9 = false) (hcool : hottest s (List.range 24) ≤ 928) : Runs .clampRelease s fun t =>
    rb t R.PLB_STATUS 8 = false ∧ Frame s t [P.plb, P.mtr] := by
  have hguard : ¬(rb s R.PLB_STATUS 9 = true ∨ hottest s (List.range 24) > 928) := by simp [htrip]; omega
  refine ⟨_, if_neg hguard, ?_, ?_⟩
  · rw [status_clampMessages]
    exact rb_wb_self (by decide)
  · exact frame_onPage (frame_onPage (frame_refl s) (onPage_wb (pg := P.plb) (by decide)) (by simp)) (onPage_bump (pg := P.mtr) (by decide)) (by simp)
end

/-! The period (R561, R563, R577). -/

/-- From `s` to `t` PLB_PERIOD stays. -/
def SamePeriod (s t : State) : Prop := rd t R.PLB_PERIOD = rd s R.PLB_PERIOD

section
variable {s t : State} {us iter : Nat}

theorem SamePeriod.setReg (h : SamePeriod s t) {off : Nat} {v : W32} (hoff : off ≠ R.PLB_PERIOD) : SamePeriod s (setReg t off v) :=
  (rd_setReg_ne hoff.symm).trans h

theorem SamePeriod.requests (h : SamePeriod s t) (l : List Nat) (p : Point) : SamePeriod s (l.foldl (fun s n => requestPoint s n p) t) := by
  refine List.foldlRecOn l _ h fun u k n _ => ?_
  rw [requestPoint_rest]
  exact k

theorem SamePeriod.grantGroup (h : SamePeriod s t) (g power : Nat) : SamePeriod s (grantGroup t g power) := by
  unfold Machine.grantGroup
  extract_lets i was worded
  have hworded : SamePeriod s worded := h.setReg (by show 0x6400 + 16 * g ≠ 0x612C; omega)
  clear_value worded
  split
  · exact hworded
  · exact hworded.requests _ _

theorem SamePeriod.grantPeriod (h : SamePeriod s t) (power : List Nat) (keep : Nat) : SamePeriod s (grantPeriod t power keep) :=
  List.foldlRecOn (List.range 12) _ h fun _ k g _ => k.grantGroup g _

theorem SamePeriod.setSource (h : SamePeriod s t) (src row : Nat) : SamePeriod s (setSource t src row) :=
  SamePeriod.setReg (SamePeriod.setReg h (by decide)) (by decide)

/-- An event of Plumb, the sources changed before it. -/
theorem SamePeriod.raiseSources (h : SamePeriod s t) {b : Nat} {sources : Ingress} : SamePeriod s (raise { t with ing := sources } P.plb b) :=
  (rd_raise_block (by decide)).trans h

theorem SamePeriod.setThin (h : SamePeriod s t) (on : Bool) : SamePeriod s (setThin t on) := by
  unfold Machine.setThin
  extract_lets was worded
  have hworded : SamePeriod s worded := h.setReg (by decide)
  clear_value worded
  split
  · exact hworded.raiseSources
  · exact hworded

/-- A fault with an event leaves PLB_PERIOD and Plumb's own state. -/
theorem period_faulted (s : State) (cause info b : Nat) :
    rd (raise (hwFault s P.plb cause info) P.plb b) R.PLB_PERIOD = rd s R.PLB_PERIOD ∧ (raise (hwFault s P.plb cause info) P.plb b).plb = s.plb :=
  ⟨(rd_raise_block (by decide)).trans (rd_hwFault_block (by decide)), (congrArg State.plb ((onPage_hwFault _ _).trans (onPage_raise _)).rest :)⟩

theorem runs_periodBoundary {uj : List Nat} (hopen : s.plb.opened = true) : Runs (.periodBoundary uj) s fun t =>
    rd t R.PLB_PERIOD = rd s R.PLB_PERIOD + 1 ∧ t.plb.plan = none := by
  show ∃ t, execPeriodBoundary uj s = .next t ∧ _
  unfold execPeriodBoundary
  rw [if_neg (by simp [hopen])]
  extract_lets measured mean pb row forced thin thinned keep first granted counted prog formed
  have hthinned : SamePeriod s thinned := SamePeriod.setThin (t := measured) rfl thin
  have hgranted : SamePeriod s granted := by
    show SamePeriod s (if forced then _ else _)
    split
    · exact (hthinned.setSource _ _).grantPeriod _ _
    · split
      · exact SamePeriod.grantPeriod (SamePeriod.setReg hthinned (by decide)) _ _
      · split
        · exact (hthinned.setSource _ _).grantPeriod _ _
        · exact SamePeriod.grantPeriod (SamePeriod.setReg (hthinned.setSource _ _) (by decide)) _ _
  have hformed : rd formed R.PLB_PERIOD = rd s R.PLB_PERIOD + 1 := (rd_setReg_self _ _ _).trans (congrArg (· + 1) hgranted)
  have hplan : formed.plb.plan = none := rfl
  clear_value formed
  split
  · exact ⟨_, rfl, hformed, hplan⟩
  · split
    · obtain ⟨hperiod, hplb⟩ := period_faulted formed 7 (min 65535 ((prog.lo.sum + pb) / 10000)) 13
      exact ⟨_, rfl, hperiod.trans hformed, (congrArg Plumb.plan hplb).trans hplan⟩
    · have hsubmit := onKey_keySubmit formed { id := 0, ctx := 3, issuer := .hw, cls := 0 }
      exact ⟨_, rfl, (hsubmit.rd (by decide)).trans hformed, (congrArg Plumb.plan hsubmit.plb).trans hplan⟩

/-! The plan (R575, R576). -/

theorem onKey_endSolve (s : State) (id st iter : Nat) : OnKey (updPlb s fun b => { b with solving := none }) (endSolve s id st iter) := by
  unfold endSolve
  dsimp only
  split
  · exact (onKey_keyComplete _ _ _).trans (onKey_keySwitch _)
  · exact .refl _

theorem runs_planAccept {x : List Nat} {id : Nat} {p : Program} (hus : us < 2000) (hsolving : s.plb.solving = some id) (hprog : s.plb.prog = some p) :
    Runs (.planAccept us iter x) s fun t =>
      t.plb.plan = some (planPower p x) ∧ t.plb.solving = none ∧ t.plb.degraded = false ∧ SameBytes s t := by
  have hend := onKey_endSolve s id KS.solved iter
  have hsolved : (endSolve s id KS.solved iter).plb.solving = none := (congrArg Plumb.solving hend.plb).trans rfl
  have hmem : (endSolve s id KS.solved iter).mem = s.mem := hend.mem
  have hexec : exec (.planAccept us iter x) s = .next (updPlb (setReg (endSolve s id KS.solved iter) R.PLB_PLAN
      (BitVec.ofNat 32 (us + KS.solved * 4096 + min iter 255 * 65536))) fun b => { b with plan := some (planPower p x), degraded := false }) := by
    show execPlanAccept us iter x s = _
    unfold execPlanAccept
    rw [hsolving, hprog]
    exact if_neg (by omega)
  exact ⟨_, hexec, rfl, hsolved, rfl, RegisterPages.sameBytes_of_mem hmem⟩

/-- The command of a plan that is given up ends now, or at its next segment end. -/
def planEnded (s : State) (us iter status id : Nat) : State :=
  if decide (us ≥ 2000) then keyAbort (updPlb s fun b => { b with solving := none }) id else endSolve s id (status % 16) iter

theorem onKey_planEnded (s : State) (us iter status id : Nat) :
    OnKey (updPlb s fun b => { b with solving := none }) (planEnded s us iter status id) := .ite (onKey_keyAbort _ id) (onKey_endSolve s id _ iter)

/-- Plumb without a plan. -/
def planless (s : State) (us iter status : Nat) : State :=
  updPlb (setReg s R.PLB_PLAN (BitVec.ofNat 32 ((if decide (us ≥ 2000) then 2047 else us) + status % 16 * 4096 + min iter 255 * 65536)))
    fun b => { b with plan := none, degraded := true }

theorem runs_planAbandon {status id : Nat} (hsolving : s.plb.solving = some id) : Runs (.planAbandon us iter status) s fun t =>
    t.plb.plan = none ∧ t.plb.solving = none ∧ t.plb.degraded = true ∧ Raised t P.plb 8 ∧ Raised t P.plb 0 ∧ SameBytes s t := by
  have hend := onKey_planEnded s us iter status id
  have hsolved : (planless (planEnded s us iter status id) us iter status).plb.solving = none := (congrArg Plumb.solving hend.plb).trans rfl
  have hmem : (planless (planEnded s us iter status id) us iter status).mem = s.mem := hend.mem
  have hplan : (planless (planEnded s us iter status id) us iter status).plb.plan = none
    ∧ (planless (planEnded s us iter status id) us iter status).plb.degraded = true := ⟨rfl, rfl⟩
  have hexec : ∃ cause info, exec (.planAbandon us iter status) s
      = .next (raise (hwFault (planless (planEnded s us iter status id) us iter status) P.plb cause info) P.plb 8) := by
    show ∃ cause info, execPlanAbandon us iter status s = _
    unfold execPlanAbandon
    rw [hsolving]
    cases hlate : decide (us ≥ 2000) with
    | true =>
      refine ⟨1, (rd (planless (planEnded s us iter status id) us iter status) R.PLB_PERIOD).toNat, ?_⟩
      unfold planless planEnded
      simp only [hlate, if_true]
    | false =>
      refine ⟨2, status % 16 + min iter 255 * 256, ?_⟩
      unfold planless planEnded
      simp only [hlate, Bool.false_eq_true, if_false]
  obtain ⟨cause, info, hexec⟩ := hexec
  generalize planless (planEnded s us iter status id) us iter status = u at *
  obtain ⟨hnone, hdegraded⟩ := hplan
  obtain ⟨-, hplb⟩ := period_faulted u cause info 8
  obtain ⟨hevent, hfault⟩ := raised_fault_event (s := u) (pg := P.plb) (cause := cause) (req := .hw) (info := info) (a := none) (b := 8)
    (by decide) (by decide)
  refine ⟨_, hexec, ?_, ?_, ?_, hevent, hfault, RegisterPages.sameBytes_of_mem ((PowerUp.mem_of_onPage ((onPage_hwFault _ _).trans (onPage_raise _))).trans hmem)⟩
  · rw [hplb, hnone]
  · rw [hplb, hsolved]
  · rw [hplb, hdegraded]
end

/-- Settles O51: samples, the clamp, the period and the plan. -/
theorem sensorsAndPlans : Obligations.SensorsAndPlans := by
  unfold Obligations.SensorsAndPlans
  intro s
  exact ⟨fun i v hi hheat hlow hhigh hok => runs_sensorSample_good hi hheat hlow hhigh hok, fun i v hi hok => runs_sensorSample_bad hi hok,
    runs_clampRelease, fun htrip => if_pos (.inl htrip), fun uj => runs_periodBoundary,
    fun us iter x id p hus hsolving hprog => runs_planAccept hus hsolving hprog, fun us iter st id hsolving => runs_planAbandon hsolving⟩

end Sys2Proof.Plumbing
end

section
/-! Marks of the dispatcher and of Stop Bath: a layer about what a miss, a start and the states of partitions leave (17 R525, R532, R545). -/
namespace Sys2Proof.Dispatch
open Sys2Proof Sys2Proof.Machine Sys2Proof.Laws Sys2Proof.Claims Sys2Proof.Frames Sys2Proof.Subchannels

/-- What a mark leaves: memory, Mortar, and the dispatcher's starts, fallback jobs and aborts. -/
def kept (s : State) : SMap Byte × Mortar × List JobStart × List Job × List (Nat × Bool) :=
  (s.mem, s.mortar, s.dpt.starts, s.dpt.fallbacks, s.dpt.aborts)

/-- From `s` to `t` something is counted, noted or told: no event is cleared, and what a mark leaves stays. -/
structure Marks (s t : State) : Prop where
  same : kept t = kept s
  lasts : Lasts s t

section
variable {s t u : State}

theorem Marks.refl (s : State) : Marks s s := ⟨rfl, .refl s⟩

theorem Marks.trans (h : Marks s t) (k : Marks t u) : Marks s u := ⟨k.same.trans h.same, h.lasts.trans k.lasts⟩

theorem Marks.ite {c : Prop} [Decidable c] (ht : Marks s t) (hu : Marks s u) : Marks s (if c then t else u) := by
  split <;> assumption

theorem Marks.mem (h : Marks s t) : t.mem = s.mem := congrArg (·.1) h.same

theorem Marks.mortar (h : Marks s t) : t.mortar = s.mortar := congrArg (·.2.1) h.same

theorem Marks.starts (h : Marks s t) : t.dpt.starts = s.dpt.starts := congrArg (·.2.2.1) h.same

theorem Marks.fallbacks (h : Marks s t) : t.dpt.fallbacks = s.dpt.fallbacks := congrArg (·.2.2.2.1) h.same

theorem Marks.aborts (h : Marks s t) : t.dpt.aborts = s.dpt.aborts := congrArg (·.2.2.2.2) h.same

theorem kept_onPage {pg : Nat} (h : OnPage pg s t) : kept t = kept s := (congrArg kept h.rest :)

theorem kept_checks (h : Mesh.Checks s t) : kept t = kept s := (congrArg kept h.rest :)

theorem Marks.setReg (h : Marks s t) {off : Nat} {v : W32} (hoff : off % 0x1000 ≠ 0x20) : Marks s (setReg t off v) :=
  ⟨h.same, h.lasts.setReg hoff⟩

theorem Marks.raise (h : Marks s t) {pg b : Nat} : Marks s (raise t pg b) := ⟨(kept_onPage (onPage_raise b)).trans h.same, h.lasts.raise⟩

theorem Marks.hwFault (h : Marks s t) {pg cause info : Nat} : Marks s (hwFault t pg cause info) :=
  ⟨(kept_onPage (onPage_hwFault cause info)).trans h.same, h.lasts.hwFault⟩

theorem Marks.signalFyp (h : Marks s t) {g : FypSignal} : Marks s (signalFyp t g) := ⟨h.same, h.lasts.signalFyp⟩

theorem Marks.sendMsix (h : Marks s t) {fn vec : Nat} : Marks s (sendMsix t fn vec) :=
  ⟨(kept_onPage (pg := 0) (onPage_sendMsix fn vec)).trans h.same, h.lasts.sendMsix⟩

theorem Marks.wake (h : Marks s t) {n : Nat} : Marks s (wake t n) := ⟨(kept_checks (Mesh.checks_wake t n)).trans h.same, h.lasts.wake⟩

theorem Marks.countFlits (h : Marks s t) {c : Chan} {n : Nat} : Marks s (countFlits t c n) := ⟨h.same, h.lasts.countFlits⟩

theorem Marks.injFire (h : Marks s t) {target : Nat} {p : Nat → Bool} : Marks s (injFire t target p).1 :=
  ⟨(kept_checks (Mesh.checks_injFire t target p)).trans h.same, h.lasts.injFire⟩

theorem Marks.updPlb (h : Marks s t) {f : Plumb → Plumb} : Marks s (updPlb t f) := ⟨h.same, h.lasts.same rfl⟩

theorem Marks.sentDone (h : Marks s t) : Marks s { t with flt := { t.flt with sentDone := true } } := ⟨h.same, h.lasts.same rfl⟩

/-- A change of the dispatcher that leaves its starts, fallback jobs and aborts. -/
theorem Marks.updDpt (h : Marks s t) {f : Dispatcher → Dispatcher}
    (hf : ((f t.dpt).starts, (f t.dpt).fallbacks, (f t.dpt).aborts) = (t.dpt.starts, t.dpt.fallbacks, t.dpt.aborts)) : Marks s (updDpt t f) :=
  ⟨(congrArg (fun l : List JobStart × List Job × List (Nat × Bool) => (t.mem, t.mortar, l)) hf).trans h.same, h.lasts.updDpt⟩

theorem Marks.updModel (h : Marks s t) {m : Nat} {f : Model → Model} : Marks s (updModel t m f) := h.updDpt rfl

theorem Marks.partEvent (h : Marks s t) {p b : Nat} : Marks s (partEvent t p b) := by
  unfold Machine.partEvent
  exact .ite h (.ite (Marks.sendMsix (h.updDpt rfl)) (h.updDpt rfl))

theorem Marks.safeSet (h : Marks s t) {b : Nat} {on : Bool} : Marks s (safeSet t b on) := by
  have hset : Marks s (wb t R.FLT_SAFE_STATUS b on) := h.setReg (by decide)
  have hseen : Marks s (wb (wb t R.FLT_SAFE_STATUS b on) R.FLT_SAFE_SEEN b true) := hset.setReg (by decide)
  have hboth := Marks.ite (c := on = true) hseen hset
  unfold Machine.safeSet
  exact .ite h (.ite hboth.raise hboth)

theorem Marks.sentinelJob (h : Marks s t) {missed : Bool} : Marks s (sentinelJob t missed) := by
  have hmissed : Marks s (wf (bump t R.FLT_SENT_STATUS 7 0 1) R.FLT_SENT_STATUS 31 16 0) := Marks.setReg (Marks.setReg h (by decide)) (by decide)
  have hdone : Marks s (wf (bump { t with flt := { t.flt with sentDone := true } } R.FLT_SENT_STATUS 31 16 1) R.FLT_SENT_STATUS 7 0 0) :=
    Marks.setReg (Marks.setReg h.sentDone (by decide)) (by decide)
  exact .ite (.ite hmissed.safeSet hmissed) (.ite hdone.safeSet hdone)

theorem Marks.settlePart (h : Marks s t) {now : Bool} {p : Nat} : Marks s (settlePart now t p) :=
  .ite h (Marks.partEvent (Marks.raise (h.updDpt rfl)))

theorem Marks.settleParts (h : Marks s t) : Marks s (settleParts t) := List.foldlRecOn _ _ h fun _ k _ _ => k.settlePart

theorem Marks.debitJob (h : Marks s t) {m : Model} {n : Nat} : Marks s (debitJob t m n) := by
  unfold Machine.debitJob
  extract_lets e spent left excess again reserved counted overdrawn
  have hspent : Marks s spent := h.updPlb
  have hreserved : Marks s reserved := hspent.updPlb
  have hover : Marks s counted := hreserved.setReg (by decide)
  have hoverdrawn : Marks s overdrawn := hover.updPlb
  exact .ite (.ite hreserved (.ite hover hoverdrawn.hwFault.raise)) hspent.updPlb

/-! A miss that is counted (R545). -/

/-- The counts of a miss. -/
def missCounted (s : State) (j : Job) (info : Nat) : State :=
  updDpt (updModel (setReg (bump s R.SBT_MISSES 31 0 1) R.SBT_LAST_MISS (BitVec.ofNat 32 info)) j.model fun m => { m with misses := satAdd 32 m.misses 1 })
    fun d => { d with views := updAt d.views (modelOf s j.model).part fun v => { v with misses := satAdd 32 v.misses 1 } }

/-- The events of a miss. -/
def missRaised (s : State) (j : Job) (info : Nat) : State :=
  if j.cls = 0 then raise (raise (hwFault (bump s R.SBT_SENTINEL_MISSES 31 0 1) P.sbt 2 info) P.sbt 8) P.sbt 9 else raise (hwFault s P.sbt 1 info) P.sbt 8

theorem reportMiss_eq (s : State) (j : Job) (action : Nat) (running : Bool) :
    let info := j.model % 65536 + action % 4 * 65536 + b2n running * 2 ^ 18
    reportMiss s j action running =
      partEvent (if j.cls = 0 then sentinelJob (signalFyp (missRaised (missCounted s j info) j info) .sentinelMiss) true
        else missRaised (missCounted s j info) j info) (modelOf s j.model).part 1 := by
  unfold reportMiss missRaised missCounted
  split <;> rfl

theorem marks_missCounted (s : State) (j : Job) (info : Nat) : Marks s (missCounted s j info) :=
  Marks.updDpt (Marks.updModel (Marks.setReg (Marks.setReg (.refl s) (by decide)) (by decide))) rfl

theorem marks_missRaised (s : State) (j : Job) (info : Nat) : Marks s (missRaised s j info) :=
  .ite (Marks.raise (Marks.raise (Marks.hwFault ((Marks.refl s).setReg (by decide))))) (Marks.refl s).hwFault.raise

theorem raised_missRaised (s : State) (j : Job) (info : Nat) :
    Raised (missRaised s j info) P.sbt 8 ∧ (j.cls = 0 → Raised (missRaised s j info) P.sbt 9) := by
  unfold missRaised
  split
  · exact ⟨(Lasts.refl _).raise.raised (by decide) (rb_raise _ _ (by decide)), fun _ => rb_raise _ _ (by decide)⟩
  · exact ⟨rb_raise _ _ (by decide), fun h => absurd h ‹_›⟩

/-- A miss that is reported raises its events, and is nothing but a mark. -/
theorem reportMiss_marks (s : State) (j : Job) (action : Nat) (running : Bool) :
    Marks s (reportMiss s j action running) ∧ Raised (reportMiss s j action running) P.sbt 8
      ∧ (j.cls = 0 → Raised (reportMiss s j action running) P.sbt 9) := by
  rw [reportMiss_eq]
  generalize j.model % 65536 + action % 4 * 65536 + b2n running * 2 ^ 18 = info
  have hraised : Marks s (missRaised (missCounted s j info) j info) := (marks_missCounted s j info).trans (marks_missRaised _ j info)
  have htold := Marks.refl (missRaised (missCounted s j info) j info)
  have hafter := Marks.partEvent (p := (modelOf s j.model).part) (b := 1)
    (Marks.ite (c := j.cls = 0) (Marks.sentinelJob (missed := true) (Marks.signalFyp (g := .sentinelMiss) htold)) htold)
  obtain ⟨hmiss, hsentinel⟩ := raised_missRaised (missCounted s j info) j info
  exact ⟨hraised.trans hafter, hafter.lasts.raised (by decide) hmiss, fun h => hafter.lasts.raised (by decide) (hsentinel h)⟩

/-! A start that is sent (R532). -/

theorem sendStart_list (s : State) (n : Nat) (urgent : Bool) (j : Job) :
    ∃ x, (sendStart s n urgent j).dpt.starts = s.dpt.starts ++ [x] ∧ x.core = n ∧ x.urgent = urgent ∧ x.job.model = j.model
      ∧ (sendStart s n urgent j).dpt.fallbacks = s.dpt.fallbacks ∧ (sendStart s n urgent j).mortar = s.mortar ∧ (sendStart s n urgent j).mem = s.mem := by
  unfold sendStart
  extract_lets m base j' x6 debited st ch sent fired
  have hdebited : Marks s (countFlits (wake debited (19 + n)) ch (messageFlits ch 64)) := (Marks.refl s).debitJob.wake.countFlits
  have hstarts : sent.dpt.starts = (countFlits (wake debited (19 + n)) ch (messageFlits ch 64)).dpt.starts ++ [st] := rfl
  have hfallbacks : sent.dpt.fallbacks = (countFlits (wake debited (19 + n)) ch (messageFlits ch 64)).dpt.fallbacks := rfl
  have hmortar : sent.mortar = (countFlits (wake debited (19 + n)) ch (messageFlits ch 64)).mortar := rfl
  have hmem : sent.mem = (countFlits (wake debited (19 + n)) ch (messageFlits ch 64)).mem := rfl
  have hst : st.core = n ∧ st.urgent = urgent ∧ st.job.model = j.model := ⟨rfl, rfl, rfl⟩
  rw [hdebited.starts] at hstarts
  rw [hdebited.fallbacks] at hfallbacks
  rw [hdebited.mortar] at hmortar
  rw [hdebited.mem] at hmem
  have hfired : Marks sent fired := .ite (Marks.refl sent).injFire (.refl sent)
  have hend : Marks sent (if j'.fallback then raise fired P.sbt 10 else fired) := .ite hfired.raise hfired
  obtain ⟨hcore, hurgent, hmodel⟩ := hst
  exact ⟨st, hend.starts.trans hstarts, hcore, hurgent, hmodel, hend.fallbacks.trans hfallbacks, hend.mortar.trans hmortar, hend.mem.trans hmem⟩

/-- A start and the states of partitions after it ask nothing of Mortar. -/
theorem unheld_started {n : Nat} {urgent : Bool} {j : Job} (h : Unheld s) : Unheld (settleParts (sendStart s n urgent j)) := by
  obtain ⟨x, -, -, -, -, -, hmortar, -⟩ := sendStart_list s n urgent j
  have hsettled := (Marks.refl (sendStart s n urgent j)).settleParts.mortar
  unfold Unheld
  rw [hsettled, hmortar]
  exact h
end

end Sys2Proof.Dispatch
end

section
/-! The host's completions of a command change nothing of memory as a read sees it: checks and stores (03 R87 to R91, 06 R190) with them and without. -/
namespace Sys2Proof.Hosted
open Sys2Proof Sys2Proof.Machine Sys2Proof.Laws Sys2Proof.Claims

/-- `withHost`, kept folded: `simp` then carries it to the outside of an operation. -/
def hosted (s : State) (host : List Cpl) : State := withHost s host

section
variable {s : State} {host : List Cpl}

theorem ite_hosted {c : Prop} [Decidable c] {u v x y : State} (hx : u = hosted x host) (hy : v = hosted y host) :
    (if c then u else v) = hosted (if c then x else y) host := by
  split <;> assumption

@[simp] theorem hosted_ite {c : Prop} [Decidable c] (x y : State) : (if c then hosted x host else hosted y host) = hosted (if c then x else y) host :=
  ite_hosted rfl rfl

@[simp] theorem rf_hosted (off hi lo : Nat) : rf (hosted s host) off hi lo = rf s off hi lo := rfl

@[simp] theorem rb_hosted (off i : Nat) : rb (hosted s host) off i = rb s off i := rfl

@[simp] theorem setReg_hosted (off : Nat) (v : W32) : setReg (hosted s host) off v = hosted (setReg s off v) host := rfl

@[simp] theorem wf_hosted (off hi lo x : Nat) : wf (hosted s host) off hi lo x = hosted (wf s off hi lo x) host := rfl

@[simp] theorem wb_hosted (off i : Nat) (b : Bool) : wb (hosted s host) off i b = hosted (wb s off i b) host := rfl

@[simp] theorem bump_hosted (off hi lo n : Nat) : bump (hosted s host) off hi lo n = hosted (bump s off hi lo n) host := rfl

@[simp] theorem signalFyp_hosted (g : FypSignal) : signalFyp (hosted s host) g = hosted (signalFyp s g) host := rfl

@[simp] theorem tellFlt_hosted (m : FltMsg) : tellFlt (hosted s host) m = hosted (tellFlt s m) host := rfl

@[simp] theorem toRecorder_hosted (o : Occurrence) : toRecorder (hosted s host) o = hosted (toRecorder s o) host := rfl

@[simp] theorem summary_hosted (pg : Nat) : summary (hosted s host) pg = summary s pg := rfl

@[simp] theorem pageOccurrence_hosted (pg b : Nat) (isForced : Bool) (params : Option (List Nat)) :
    pageOccurrence (hosted s host) pg b isForced params = pageOccurrence s pg b isForced params := rfl

@[simp] theorem markGranule_hosted (g : Nat) : markGranule (hosted s host) g = hosted (markGranule s g) host := rfl

@[simp] theorem dramTarget_hosted (a : Nat) : dramTarget (hosted s host) a = dramTarget s a := rfl

@[simp] theorem sendMsix_hosted (fn vec : Nat) : sendMsix (hosted s host) fn vec = hosted (sendMsix s fn vec) host :=
  ite_hosted rfl (ite_hosted rfl (ite_hosted rfl rfl))

@[simp] theorem notify_hosted (pg : Nat) : notify (hosted s host) pg = hosted (notify s pg) host := by
  simp [notify]

@[simp] theorem raiseWith_hosted (pg b : Nat) (isForced : Bool) (params : Option (List Nat)) :
    raiseWith (hosted s host) pg b isForced params = hosted (raiseWith s pg b isForced params) host := by
  simp [raiseWith]

@[simp] theorem raise_hosted (pg b : Nat) : raise (hosted s host) pg b = hosted (raise s pg b) host := raiseWith_hosted _ _ _ _

@[simp] theorem fault_hosted (pg cause : Nat) (req : Req) (info : Nat) (addr : Option Nat) :
    fault (hosted s host) pg cause req info addr = hosted (fault s pg cause req info addr) host := by
  simp -implicitDefEqProofs [fault]

@[simp] theorem countCe_hosted (a : Nat) : countCe (hosted s host) a = hosted (countCe s a) host := by
  unfold countCe
  split <;> simp

@[simp] theorem foundUe_hosted (a scrub : Nat) : foundUe (hosted s host) a scrub = hosted (foundUe s a scrub) host := by
  unfold foundUe
  simp only [markGranule_hosted]
  split <;> simp

theorem checkWord_hosted (scrub w : Nat) : checkWord (hosted s host) scrub w = hosted (checkWord s scrub w) host := by
  unfold checkWord
  rw [show (hosted s host).eccErr = s.eccErr from rfl]
  split
  · rfl
  · exact ite_hosted (countCe_hosted (s := { s with eccErr := s.eccErr.del w }) _) (foundUe_hosted (s := { s with eccErr := s.eccErr.del w }) _ _)

/-- The errors of a burst are taken out of the store, its granule is marked or clean. -/
def burstTaken (s : State) (g : Nat) : State :=
  if poisoned s g then markGranule { freshEcc s g with eccErr := s.eccErr.filter fun e => decide (e.1 / 8 ≠ g) } g
  else clearGranule { freshEcc s g with eccErr := s.eccErr.filter fun e => decide (e.1 / 8 ≠ g) } g

theorem burstTaken_hosted (g : Nat) : burstTaken (hosted s host) g = hosted (burstTaken s g) host := ite_hosted rfl rfl

/-- What a burst's errors are counted and reported as. -/
def burstNoted (s : State) (scrub g : Nat) (es : List Nat) (f : Nat) : State :=
  match dramTarget s (64 * g) with
  | none => s
  | some (u, _) =>
    let count := R.DMC_SUB_ECC (u / 2) (u % 2)
    let s := bump s count 15 0 (es.countP (· = 1))
    if es.any (2 ≤ ·) ∨ bits f 87 72 ≠ 0 then
      let s := bump (markGranule s g) count 31 16 1
      let s := if es.any (2 ≤ ·) then fault s (P.dmc (u / 2)) 1 .hw (u % 2 + 2 * scrub) (some (64 * g))
        else fault s (P.dmc (u / 2)) 2 .hw (u % 2) (some (64 * g))
      raise s (P.dmc (u / 2)) 8
    else s

theorem burstNoted_hosted (scrub g : Nat) (es : List Nat) (f : Nat) :
    burstNoted (hosted s host) scrub g es f = hosted (burstNoted s scrub g es f) host := by
  unfold burstNoted
  rw [dramTarget_hosted]
  split <;> simp

theorem checkBurst_eq (s : State) (scrub g : Nat) : checkBurst s scrub g =
    if eccFlips s g = 0 ∧ ((List.range 8).map (wordErr s g)).all (· = 0) then s
    else burstNoted (burstTaken s g) scrub g ((List.range 8).map (wordErr s g)) (eccFlips s g) := rfl

theorem checkBurst_hosted (scrub g : Nat) : checkBurst (hosted s host) scrub g = hosted (checkBurst s scrub g) host := by
  rw [checkBurst_eq, checkBurst_eq, burstTaken_hosted, burstNoted_hosted]
  exact ite_hosted rfl rfl

theorem foldl_hosted {α : Type} {f : State → α → State} (hf : ∀ s x, f (hosted s host) x = hosted (f s x) host) (l : List α) (s : State) :
    l.foldl f (hosted s host) = hosted (l.foldl f s) host := by
  induction l generalizing s with
  | nil => rfl
  | cons x l ih => rw [List.foldl_cons, List.foldl_cons, hf, ih]

theorem checkParts_hosted (a n : Nat) : checkParts (hosted s host) a n = hosted (checkParts s a n) host := by
  unfold checkParts
  split
  · exact foldl_hosted (fun _ _ => checkBurst_hosted _ _) _ _
  · exact foldl_hosted (fun _ _ => checkWord_hosted _ _) _ _

theorem raiseRecord_hosted (pg b : Nat) (params : List Nat) : raiseRecord (hosted s host) pg b params = hosted (raiseRecord s pg b params) host :=
  ite_hosted (ite_hosted rfl rfl) (raiseWith_hosted _ _ _ _)

theorem injFire_hosted (target : Nat) (p : Nat → Bool) :
    injFire (hosted s host) target p = (hosted (injFire s target p).1 host, (injFire s target p).2) := by
  unfold injFire
  simp only [rf_hosted, wf_hosted, raiseRecord_hosted, show (hosted s host).flt = s.flt from rfl]
  split <;> rfl

theorem injectSram_hosted (a : Nat) : injectSram (hosted s host) a = hosted (injectSram s a) host := by
  unfold injectSram
  simp only [injFire_hosted]
  exact ite_hosted rfl (ite_hosted rfl rfl)

theorem setBytes_hosted (a : Nat) (bs : List Byte) : setBytes (hosted s host) a bs = hosted (setBytes s a bs) host := by
  rw [setBytes_rest, setBytes_rest s, Mesh.mem_setBytes_congr (s := s) (t := hosted s host) rfl]
  rfl

/-- A store's bytes with valid check bits, before the poison of its source. -/
def cleanStored (s : State) (a : Nat) (bs : List Byte) : State :=
  (wholeOf a bs.length).foldl (fun s g => freshEcc (clearGranule s g) g) (injectSram (setBytes
    { checkParts s a bs.length with eccErr := (checkParts s a bs.length).eccErr.filter fun e => !(decide (a / 8 ≤ e.1) && decide (e.1 ≤ (a + bs.length - 1) / 8)) } a bs) a)

theorem cleanStored_hosted (a : Nat) (bs : List Byte) : cleanStored (hosted s host) a bs = hosted (cleanStored s a bs) host := by
  unfold cleanStored
  rw [checkParts_hosted]
  generalize checkParts s a bs.length = u
  rw [← foldl_hosted (fun _ _ => rfl), ← injectSram_hosted, ← setBytes_hosted]
  rfl

theorem storeBytes_eq (s : State) (a : Nat) (bs : List Byte) (bad : List (Nat × Nat)) :
    storeBytes s a bs bad = if bs.length = 0 then s else (hitBy a bad).foldl markGranule (cleanStored s a bs) := rfl

theorem storeBytes_hosted (a : Nat) (bs : List Byte) (bad : List (Nat × Nat)) :
    storeBytes (hosted s host) a bs bad = hosted (storeBytes s a bs bad) host := by
  rw [storeBytes_eq, storeBytes_eq, cleanStored_hosted, foldl_hosted fun _ _ => rfl]
  exact ite_hosted rfl rfl

theorem buffered_hosted : buffered (hosted s host) = hosted (buffered s) host :=
  foldl_hosted (fun _ _ => storeBytes_hosted _ _ _) _ _

/-- Memory as a read sees it does not depend on the host's completions. -/
theorem buffered_withHost (s : State) (host : List Cpl) : buffered (withHost s host) = withHost (buffered s) host := buffered_hosted

end
end Sys2Proof.Hosted
end

section
/-! Dispatch, deadlines, training windows and quiesced partitions (17 R525 to R552). -/
namespace Sys2Proof.Dispatch
open Sys2Proof Sys2Proof.Machine Sys2Proof.Laws Sys2Proof.Claims Sys2Proof.Frames Sys2Proof.Subchannels Sys2Proof.Streams

section
variable {s t : State} {n c m : Nat} {j : Job} {meet : HodMeet} {host : List Cpl}

/-! What the dispatcher chooses by does not depend on the host's completions. -/

theorem headRecord_withHost (s : State) (host : List Cpl) (q : Nat) : headRecord (withHost s host) q = headRecord s q := by
  rw [headRecord, headRecord, Queues.peekCtx_withHost, Hosted.buffered_withHost]
  rfl

theorem outstanding_withHost (s : State) (host : List Cpl) (m : Nat) : outstanding (withHost s host) m = outstanding s m := by
  rw [outstanding, outstanding, Hosted.buffered_withHost, headRecord_withHost (q := (modelOf (withHost s host) m).inQ)]
  rfl

theorem armed_withHost (s : State) (host : List Cpl) (m : Nat) : armed (withHost s host) m = armed s m := by
  rw [armed, armed, outstanding_withHost]

theorem candidates_withHost (s : State) (host : List Cpl) (n c : Nat) : candidates (withHost s host) n c = candidates s n c := by
  unfold candidates
  simp only [headRecord_withHost]
  rfl

/-- A class that gives nothing gives nothing with the host's completions either. -/
theorem empty_withHost {k : Nat} (host : List Cpl) (h : fallbackFor s n k = none ∧ candidates s n k = []) :
    fallbackFor (withHost s host) n k = none ∧ candidates (withHost s host) n k = [] :=
  ⟨h.1, (candidates_withHost s host n k).trans h.2⟩

theorem presented_withHost (s : State) (host : List Cpl) : presented (withHost s host) = presented s := by
  unfold presented
  simp only [headRecord_withHost, Queues.peekCtx_withHost]
  rfl

/-! The choice for a normal bank (R526 to R529). -/

/-- What a core's normal bank takes of a class. -/
def picked (s : State) (n c : Nat) : Option (Job ⊕ Nat × Nat) :=
  match fallbackFor s n c with
  | some j => some (.inl j)
  | none => (dispatchNormal.nextRound (candidates s n c) (s.dpt.last.get (n * 4 + c))).map fun m => .inr (c, m)

theorem dispatchNormal_eq (n : Nat) (meet : HodMeet) (s : State) : dispatchNormal n meet s =
    if n ≥ 8 ∨ !accepts s P.dpt ∨ !bankFree s n false then s
    else match [1, 2, 3].findSome? (picked s n) with
      | none => s
      | some (.inl j) =>
        if (modelOf s j.model).st = 2 then settleParts (miss s j.model (.fallback j) meet)
        else settleParts (sendStart (updDpt s fun d => { d with fallbacks := d.fallbacks.erase j }) n false j)
      | some (.inr (c, m)) =>
        if (modelOf s m).st = 2 then missSuspended (updDpt s fun d => { d with last := SMap.set d.last (n * 4 + c) m }) m meet
        else match (popJob (updDpt s fun d => { d with last := SMap.set d.last (n * 4 + c) m }) m meet).2 with
          | some j => settleParts (sendStart (popJob (updDpt s fun d => { d with last := SMap.set d.last (n * 4 + c) m }) m meet).1 n false j)
          | none => (popJob (updDpt s fun d => { d with last := SMap.set d.last (n * 4 + c) m }) m meet).1 := rfl

theorem nextRound_nil (last : Option Nat) : dispatchNormal.nextRound [] last = none := by
  cases last <;> rfl

theorem picked_none (hfallback : fallbackFor s n c = none) (hqueue : candidates s n c = []) : picked s n c = none := by
  rw [picked, hfallback, hqueue, nextRound_nil]
  rfl

theorem picked_fallback (h : fallbackFor s n c = some j) : picked s n c = some (.inl j) := by
  rw [picked, h]

theorem picked_queue (hfallback : fallbackFor s n c = none) (hnext : dispatchNormal.nextRound (candidates s n c) (s.dpt.last.get (n * 4 + c)) = some m) :
    picked s n c = some (.inr (c, m)) := by
  rw [picked, hfallback, hnext]
  rfl

/-- The first class that gives something is taken. -/
theorem first_of_classes {α : Type} {f : Nat → Option α} {x : α} (hlow : 1 ≤ c) (hhigh : c ≤ 3) (hbefore : ∀ k, 1 ≤ k → k < c → f k = none)
    (hx : f c = some x) : [1, 2, 3].findSome? f = some x := by
  obtain rfl | rfl | rfl : c = 1 ∨ c = 2 ∨ c = 3 := by omega
  · simp [hx]
  · simp [hbefore 1, hx]
  · simp [hbefore 1, hbefore 2, hx]

theorem picked_first {x : Job ⊕ Nat × Nat} (hlow : 1 ≤ c) (hhigh : c ≤ 3) (hbefore : ∀ k, 1 ≤ k → k < c → fallbackFor s n k = none ∧ candidates s n k = [])
    (hx : picked s n c = some x) : [1, 2, 3].findSome? (picked s n) = some x :=
  first_of_classes hlow hhigh (fun k hk hkc => picked_none (hbefore k hk hkc).1 (hbefore k hk hkc).2) hx

theorem dispatchNormal_picks {x : Job ⊕ Nat × Nat} (hn : n < 8) (hacc : accepts s P.dpt = true) (hfree : bankFree s n false = true) (hlow : 1 ≤ c)
    (hhigh : c ≤ 3) (hbefore : ∀ k, 1 ≤ k → k < c → fallbackFor s n k = none ∧ candidates s n k = []) (hx : picked s n c = some x) :
    ¬(n ≥ 8 ∨ (!accepts s P.dpt) = true ∨ (!bankFree s n false) = true) ∧ [1, 2, 3].findSome? (picked s n) = some x :=
  ⟨by simp [hacc, hfree]; omega, picked_first hlow hhigh hbefore hx⟩

/-- A fallback job leaves its list for a core. -/
def fallbackSent (s : State) (n : Nat) (urgent : Bool) (j : Job) : State :=
  settleParts (sendStart (updDpt s fun d => { d with fallbacks := d.fallbacks.erase j }) n urgent j)

theorem fallbackSent_lists (s : State) (n : Nat) (urgent : Bool) (j : Job) :
    (fallbackSent s n urgent j).dpt.fallbacks = s.dpt.fallbacks.erase j
      ∧ (∃ x, (fallbackSent s n urgent j).dpt.starts = s.dpt.starts ++ [x] ∧ x.core = n ∧ x.urgent = urgent ∧ x.job.model = j.model)
      ∧ (fallbackSent s n urgent j).mortar = s.mortar := by
  obtain ⟨x, hstarts, hcore, hurgent, hmodel, hfallbacks, hmortar, -⟩ :=
    sendStart_list (updDpt s fun d => { d with fallbacks := d.fallbacks.erase j }) n urgent j
  have hsettled := (Marks.refl (sendStart (updDpt s fun d => { d with fallbacks := d.fallbacks.erase j }) n urgent j)).settleParts
  exact ⟨hsettled.fallbacks.trans hfallbacks, ⟨x, hsettled.starts.trans hstarts, hcore, hurgent, hmodel⟩, hsettled.mortar.trans hmortar⟩

theorem dispatchNormal_fallback (hn : n < 8) (hacc : accepts s P.dpt = true) (hfree : bankFree s n false = true) (hlow : 1 ≤ c) (hhigh : c ≤ 3)
    (hbefore : ∀ k, 1 ≤ k → k < c → fallbackFor s n k = none ∧ candidates s n k = []) (hj : fallbackFor s n c = some j) :
    dispatchNormal n meet s = if (modelOf s j.model).st = 2 then settleParts (miss s j.model (.fallback j) meet) else fallbackSent s n false j := by
  obtain ⟨hguard, hfirst⟩ := dispatchNormal_picks hn hacc hfree hlow hhigh hbefore (picked_fallback hj)
  rw [dispatchNormal_eq, if_neg hguard, hfirst]
  rfl

theorem dispatchNormal_queue {r : State × Option Job} (hn : n < 8) (hacc : accepts s P.dpt = true) (hfree : bankFree s n false = true) (hlow : 1 ≤ c)
    (hhigh : c ≤ 3) (hbefore : ∀ k, 1 ≤ k → k < c → fallbackFor s n k = none ∧ candidates s n k = []) (hnone : fallbackFor s n c = none)
    (hnext : dispatchNormal.nextRound (candidates s n c) (s.dpt.last.get (n * 4 + c)) = some m) (hst : (modelOf s m).st ≠ 2)
    (hr : popJob (updDpt s fun d => { d with last := SMap.set d.last (n * 4 + c) m }) m meet = r) (hj : r.2 = some j) :
    dispatchNormal n meet s = settleParts (sendStart r.1 n false j) := by
  obtain ⟨hguard, hfirst⟩ := dispatchNormal_picks hn hacc hfree hlow hhigh hbefore (picked_queue hnone hnext)
  rw [dispatchNormal_eq, if_neg hguard, hfirst]
  dsimp only
  rw [if_neg hst, hr, hj]

theorem dispatchNormal_idle (hnone : ∀ c, 1 ≤ c → c ≤ 3 → fallbackFor s n c = none ∧ candidates s n c = []) : dispatchNormal n meet s = s := by
  have hclass (c : Nat) (hlow : 1 ≤ c) (hhigh : c ≤ 3) : picked s n c = none := picked_none (hnone c hlow hhigh).1 (hnone c hlow hhigh).2
  have hfirst : [1, 2, 3].findSome? (picked s n) = none := by
    simp [hclass 1, hclass 2, hclass 3]
  rw [dispatchNormal_eq, hfirst]
  exact ite_self _

/-! The choice for an urgent bank (R530). -/

theorem dispatchUrgent_fallback (hacc : accepts s P.dpt = true) (hj : urgentFallback s = some j) :
    dispatchUrgent meet s = if (modelOf s j.model).st = 2 then settleParts (miss s j.model (.fallback j) meet)
      else fallbackSent s ((urgentCore s (modelOf s j.model)).getD 0) true j := by
  unfold dispatchUrgent
  rw [if_neg (by simp [hacc]), hj]
  rfl

/-- The fallback job that goes first has a core, unless its model is suspended. -/
theorem urgentFallback_core (hj : urgentFallback s = some j) (hst : (modelOf s j.model).st ≠ 2) :
    some ((urgentCore s (modelOf s j.model)).getD 0) = urgentCore s (modelOf s j.model) := by
  have hpred := List.find?_some hj
  simp only [hst, if_false, Bool.and_eq_true] at hpred
  obtain ⟨core, hcore⟩ := Option.isSome_iff_exists.mp hpred.2
  rw [hcore]
  rfl

theorem dispatchUrgent_queue {k : Nat} {r : State × Option Job} (hacc : accepts s P.dpt = true) (hnone : urgentFallback s = none)
    (hfirst : ((presented s).find? fun e => decide ((modelOf s e.2).st = 2) || (urgentCore s (modelOf s e.2)).isSome) = some (k, m))
    (hst : (modelOf s m).st ≠ 2) (hcore : urgentCore s (modelOf s m) = some n) (hr : popJob s m meet = r) (hj : r.2 = some j) :
    dispatchUrgent meet s = settleParts (sendStart r.1 n true j) := by
  unfold dispatchUrgent
  rw [if_neg (by simp [hacc]), hnone]
  dsimp only
  rw [hfirst]
  dsimp only
  rw [if_neg hst, hr, hj, hcore]
  rfl

/-! A deadline that passes (R544 to R546). -/

theorem deadlinePass_armed {o : Outjob} (ho : armed s m = some o) : deadlinePass m meet s = settleParts (miss s m o meet) := by
  unfold deadlinePass
  rw [ho]

/-- What a miss that no action follows shows: its events, and memory and Mortar as before. -/
def Noted (s : State) (j : Job) (t : State) : Prop :=
  t.mem = s.mem ∧ t.mortar = s.mortar ∧ Raised t P.sbt 8 ∧ (j.cls = 0 → Raised t P.sbt 9)

/-- A miss that is reported stays noted in what leaves memory, Mortar and registers. -/
theorem noted_reportMiss {f : State → State} (action : Nat) (running : Bool) (hmem : ∀ w, (f w).mem = w.mem) (hmortar : ∀ w, (f w).mortar = w.mortar)
    (hregs : ∀ w, (f w).regs = w.regs) : Noted s j (f (reportMiss s j action running)) := by
  obtain ⟨hmarks, hmiss, hsentinel⟩ := reportMiss_marks s j action running
  have hraised (w : State) (b : Nat) (h : Raised w P.sbt b) : Raised (f w) P.sbt b := by
    rw [Raised, rb, rd, hregs]
    exact h
  exact ⟨(hmem _).trans hmarks.mem, (hmortar _).trans hmarks.mortar, hraised _ 8 hmiss, fun h => hraised _ 9 (hsentinel h)⟩

/-- A miss that no action follows notes it at the job, and is a mark of memory, Mortar and events. -/
theorem miss_noted {o : Outjob} (hnone : actionOf s o.job (modelOf s m).action = 0) : Noted s o.job (miss s m o meet) := by
  cases o with
  | running n u j =>
    have heq : miss s m (.running n u j) meet = updJobAt (reportMiss s j 0 true) n u fun j => { j with reported := true, disposed := decide (0 ≠ 0) } := by
      simp only [miss, Outjob.job] at hnone ⊢
      rw [hnone]
      rfl
    exact heq ▸ noted_reportMiss (f := fun w => updJobAt w n u fun j => { j with reported := true, disposed := decide (0 ≠ 0) }) 0 true (fun _ => rfl)
      (fun _ => rfl) fun _ => rfl
  | fallback j =>
    have heq : miss s m (.fallback j) meet
        = updDpt (reportMiss s j 0 false) fun d => { d with fallbacks := d.fallbacks.map fun f => if f = j then { f with reported := true } else f } := by
      simp only [miss, Outjob.job] at hnone ⊢
      rw [hnone]
      rfl
    exact heq ▸ noted_reportMiss (f := fun w => updDpt w fun d => { d with fallbacks := d.fallbacks.map fun f => if f = j then { f with reported := true } else f })
      0 false (fun _ => rfl) (fun _ => rfl) fun _ => rfl
  | queued j =>
    have heq : miss s m (.queued j) meet = updModel (reportMiss s j 0 false) m fun k => { k with headReported := true } := by
      simp only [miss, Outjob.job] at hnone ⊢
      rw [hnone]
      rfl
    exact heq ▸ noted_reportMiss (f := fun w => updModel w m fun k => { k with headReported := true }) 0 false (fun _ => rfl) (fun _ => rfl) fun _ => rfl

/-- A running job that is missed with a fallback: it is told to stop, and a fallback job takes its batch. -/
def abortedFor (s : State) (n : Nat) (u : Bool) (j : Job) : State :=
  dispose (sendAbort (updJobAt (reportMiss s j 1 true) n u fun j => { j with reported := true, disposed := decide (1 ≠ 0) }) n u) (36 + n) j 1 false

theorem miss_running_fallback {u : Bool} (hact : actionOf s j (modelOf s m).action = 1) : miss s m (.running n u j) meet = abortedFor s n u j := by
  simp only [miss]
  rw [hact]
  rfl

theorem abortedFor_shows (s : State) (n : Nat) (u : Bool) (j : Job) :
    (abortedFor s n u j).mem = s.mem ∧ (abortedFor s n u j).mortar = s.mortar ∧ Raised (abortedFor s n u j) P.sbt 8
      ∧ (j.cls = 0 → Raised (abortedFor s n u j) P.sbt 9) ∧ (n, u) ∈ (abortedFor s n u j).dpt.aborts
      ∧ (abortedFor s n u j).dpt.fallbacks.length = s.dpt.fallbacks.length + 1 := by
  have hnoted : Noted s j (updJobAt (reportMiss s j 1 true) n u fun j => { j with reported := true, disposed := decide (1 ≠ 0) }) :=
    noted_reportMiss (f := fun w => updJobAt w n u fun j => { j with reported := true, disposed := decide (1 ≠ 0) }) 1 true (fun _ => rfl) (fun _ => rfl) fun _ => rfl
  have hkept (w : State) : (updJobAt w n u fun j => { j with reported := true, disposed := decide (1 ≠ 0) }).dpt.fallbacks = w.dpt.fallbacks := rfl
  have hfallbacks := (hkept (reportMiss s j 1 true)).trans (reportMiss_marks s j 1 true).1.fallbacks
  unfold abortedFor sendAbort
  generalize (updJobAt (reportMiss s j 1 true) n u fun j => { j with reported := true, disposed := decide (1 ≠ 0) }) = noted at hnoted hfallbacks
  obtain ⟨hmem, hmortar, hmiss, hsentinel⟩ := hnoted
  have hsent : Marks noted (countFlits (wake noted (19 + n)) .urgent (messageFlits .urgent 0)) := (Marks.refl noted).wake.countFlits
  generalize countFlits (wake noted (19 + n)) .urgent (messageFlits .urgent 0) = sent at hsent
  refine ⟨hsent.mem.trans hmem, hsent.mortar.trans hmortar, hsent.lasts.raised (by decide) hmiss,
    fun h => hsent.lasts.raised (by decide) (hsentinel h), List.mem_append_right _ (List.mem_singleton.mpr rfl), ?_⟩
  rw [← hfallbacks, ← hsent.fallbacks]
  exact List.length_append

theorem runs_deadline_noted {o : Outjob} (ho : armed s m = some o) (hnone : actionOf s o.job (modelOf s m).action = 0) :
    Runs (.deadlinePass m meet host) s fun t => Raised t P.sbt 8 ∧ (o.job.cls = 0 → Raised t P.sbt 9) ∧ SameBytes s t := by
  have hwork : deadlinePass m meet (withHost s host) = settleParts (miss (withHost s host) m o meet) := deadlinePass_armed ((armed_withHost s host m).trans ho)
  obtain ⟨hmem, hmortar, hmiss, hsentinel⟩ := miss_noted (s := withHost s host) (m := m) (meet := meet) (o := o) hnone
  generalize miss (withHost s host) m o meet = u at *
  have hsettled := (Marks.refl u).settleParts
  exact runs_of_serves rfl hwork (RegisterPages.unheld_of_mortar (hsettled.mortar.trans hmortar)) ⟨hsettled.lasts.raised (by decide) hmiss,
    fun h => hsettled.lasts.raised (by decide) (hsentinel h), RegisterPages.sameBytes_of_mem (hsettled.mem.trans hmem)⟩

theorem runs_deadline_fallback {u : Bool} (ho : armed s m = some (.running n u j)) (hact : actionOf s j (modelOf s m).action = 1) :
    Runs (.deadlinePass m meet host) s fun t => Raised t P.sbt 8 ∧ (j.cls = 0 → Raised t P.sbt 9) ∧ (n, u) ∈ t.dpt.aborts
      ∧ t.dpt.fallbacks.length = s.dpt.fallbacks.length + 1 ∧ SameBytes s t := by
  have hwork : deadlinePass m meet (withHost s host) = settleParts (abortedFor (withHost s host) n u j) :=
    (deadlinePass_armed ((armed_withHost s host m).trans ho)).trans (congrArg settleParts (miss_running_fallback (s := withHost s host) hact))
  obtain ⟨hmem, hmortar, hmiss, hsentinel, haborts, hlength⟩ := abortedFor_shows (withHost s host) n u j
  generalize abortedFor (withHost s host) n u j = v at *
  have hsettled := (Marks.refl v).settleParts
  exact runs_of_serves rfl hwork (RegisterPages.unheld_of_mortar (hsettled.mortar.trans hmortar)) ⟨hsettled.lasts.raised (by decide) hmiss,
    fun h => hsettled.lasts.raised (by decide) (hsentinel h), hsettled.aborts.symm ▸ haborts, (congrArg List.length hsettled.fallbacks).trans hlength,
    RegisterPages.sameBytes_of_mem (hsettled.mem.trans hmem)⟩

/-! A window, and a partition that becomes quiet (R525, R552). -/

theorem bit_windowWord (u : Nat) (b : Bool) : bit (BitVec.ofNat 32 (u % 8 + 16 + 8 * b2n b)).toNat 4 = true := by
  have hlt : u % 8 < 8 := Nat.mod_lt _ (by decide)
  generalize u % 8 = k at hlt
  revert b
  decide +revert

theorem runs_windowGrant {u : Nat} {late : Bool} (hu : u < s.dram.sub.length) (hwin : (subch s u).winReq = true) (halert : (subch s u).alert = false)
    (hprompt : late = true ∨ ∀ e ∈ s.dpt.models, bit (rf s (R.DPT_PART_CFG e.2.part) 23 16) u = true → ∀ j ∈ runningJobs s e.1, j.2.2.cls ≠ 1) :
    Runs (.windowGrant u late) s fun t =>
      (subch t u).st = .window ∧ (subch t u).winReq = false ∧ rb t R.DPT_WINDOW 4 = true ∧ Raised t P.dpt 12 ∧ SameBytes s t := by
  have hprompt' : ¬((s.dpt.models.any fun e => bit (rf s (R.DPT_PART_CFG e.2.part) 23 16) u && (runningJobs s e.1).any fun j => decide (j.2.2.cls = 1)) = true
      ∧ (!late) = true) := by
    rintro ⟨hany, hlate⟩
    rcases hprompt with h | h
    · simp [h] at hlate
    · obtain ⟨e, he, hboth⟩ := List.any_eq_true.mp hany
      obtain ⟨huses, hjobs⟩ := Bool.and_eq_true_iff.mp hboth
      obtain ⟨job, hjob, hcls⟩ := List.any_eq_true.mp hjobs
      exact h e he huses job hjob (of_decide_eq_true hcls)
  have hexec : exec (.windowGrant u late) s = .next (raise (setReg (updSub s u fun k => { precharge k with st := .window, winReq := false }) R.DPT_WINDOW
      (BitVec.ofNat 32 (u % 8 + 16 + 8 * b2n ((updSub s u fun k => { precharge k with st := .window, winReq := false }).dram.sub.any (·.winReq))))) P.dpt 12) := by
    show execWindowGrant u late s = _
    unfold execWindowGrant
    exact if_neg (by simp only [hwin, halert]; simpa using hprompt')
  have hsub := subch_updSub_self (f := fun k => { precharge k with st := .window, winReq := false }) hu
  have hmem : (updSub s u fun k => { precharge k with st := .window, winReq := false }).mem = s.mem := rfl
  generalize updSub s u (fun k => { precharge k with st := .window, winReq := false }) = granted at hexec hsub hmem
  refine ⟨_, hexec, ?_⟩
  generalize hword : BitVec.ofNat 32 (u % 8 + 16 + 8 * b2n (granted.dram.sub.any (·.winReq))) = word
  have hpage : OnPage P.dpt (setReg granted R.DPT_WINDOW word) (raise (setReg granted R.DPT_WINDOW word) P.dpt 12) := onPage_raise 12
  have hdram : (raise (setReg granted R.DPT_WINDOW word) P.dpt 12).dram = granted.dram := (congrArg (·.dram) hpage.rest :)
  have hsubch : subch (raise (setReg granted R.DPT_WINDOW word) P.dpt 12) u = subch granted u := by
    rw [subch, hdram]
    rfl
  rw [hsubch, hsub]
  have hgranted : rb (raise (setReg granted R.DPT_WINDOW word) P.dpt 12) R.DPT_WINDOW 4 = true := by
    rw [rb, Sound.rd_raise_block (by decide), rd_setReg_self, ← hword]
    exact bit_windowWord u _
  exact ⟨rfl, rfl, hgranted, rb_raise _ _ (by decide), RegisterPages.sameBytes_of_mem ((PowerUp.mem_of_onPage hpage).trans hmem)⟩

theorem partEvent_state (s : State) (p b : Nat) : (partEvent s p b).dpt.state = s.dpt.state := by
  have hsend (u : State) (fn vec : Nat) : (sendMsix u fn vec).dpt.state = u.dpt.state := (congrArg (·.dpt.state) (onPage_sendMsix (pg := 0) fn vec).rest :)
  unfold partEvent
  extract_lets v e noted
  split
  · rfl
  · split
    · exact hsend noted _ _
    · rfl

theorem settlePart_quiesced {p : Nat} (hlen : s.dpt.state.length = 8) (hp : p < 8) (hquiet : partStateOf s p true = 4) :
    nth (settlePart true s p).dpt.state p 0 = 4 ∧ (nth s.dpt.state p 0 ≠ 4 → Raised (settlePart true s p) P.dpt 13) := by
  have heq : settlePart true s p = if 4 = nth s.dpt.state p 0 then s
      else partEvent (raise (updDpt s fun d => { d with state := updAt d.state p fun _ => 4 }) P.dpt 13) p 0 := by
    rw [settlePart, hquiet]
  by_cases h : 4 = nth s.dpt.state p 0
  · rw [heq, if_pos h]
    exact ⟨h.symm, fun hne => absurd h.symm hne⟩
  · rw [heq, if_neg h]
    have hstate : (updDpt s fun d => { d with state := updAt d.state p fun _ => 4 }).dpt.state = updAt s.dpt.state p fun _ => 4 := rfl
    generalize updDpt s (fun d => { d with state := updAt d.state p fun _ => 4 }) = quiet at hstate
    have hraise : (raise quiet P.dpt 13).dpt.state = quiet.dpt.state := (congrArg (·.dpt.state) (onPage_raise (pg := P.dpt) 13).rest :)
    refine ⟨?_, fun _ => (Marks.refl _).partEvent.lasts.raised (by decide) (rb_raise _ _ (by decide))⟩
    rw [partEvent_state, hraise, hstate]
    exact Islands.nth_updAt_self (hlen.symm ▸ hp) _ _

theorem runs_partitionQuiesced {p : Nat} (hlen : s.dpt.state.length = 8) (hp : p < 8) (hpresent : rb s (R.DPT_PART_CFG p) 12 = true)
    (henabled : rb s (R.DPT_PART_CTRL p) 0 = true) (hasked : quiesceAsked s p = true) (hrunning : runningOf s p = 0) :
    Runs (.partitionQuiesced p) s fun t => nth t.dpt.state p 0 = 4 ∧ (nth s.dpt.state p 0 ≠ 4 → Raised t P.dpt 13) ∧ SameBytes s t := by
  have hquiet : partStateOf s p true = 4 := by
    simp [partStateOf, hpresent, henabled, hasked, hrunning]
  have hexec : exec (.partitionQuiesced p) s = .next (settlePart true s p) := by
    show execPartitionQuiesced p s = _
    rw [execPartitionQuiesced, Nat.mod_eq_of_lt hp]
  obtain ⟨hstate, hraised⟩ := settlePart_quiesced hlen hp hquiet
  exact ⟨_, hexec, hstate, hraised, RegisterPages.sameBytes_of_mem (Marks.refl s).settlePart.mem⟩

/-! The commands, with the completions the host gives them. -/

theorem runs_dispatchNormal_fallback (hn : n < 8) (hacc : accepts s P.dpt = true) (hfree : bankFree s n false = true) (hlow : 1 ≤ c) (hhigh : c ≤ 3)
    (hbefore : ∀ k, 1 ≤ k → k < c → fallbackFor s n k = none ∧ candidates s n k = []) (hj : fallbackFor s n c = some j) (hst : (modelOf s j.model).st ≠ 2) :
    Runs (.dispatchNormal n meet host) s fun t =>
      t.dpt.fallbacks = s.dpt.fallbacks.erase j ∧ ∃ x, t.dpt.starts = s.dpt.starts ++ [x] ∧ x.core = n ∧ x.urgent = false ∧ x.job.model = j.model := by
  have hwork : dispatchNormal n meet (withHost s host) = fallbackSent (withHost s host) n false j :=
    (dispatchNormal_fallback (s := withHost s host) hn hacc hfree hlow hhigh (fun k hk hkc => empty_withHost host (hbefore k hk hkc)) hj).trans
      (if_neg hst)
  obtain ⟨hfallbacks, hstarts, hmortar⟩ := fallbackSent_lists (withHost s host) n false j
  exact runs_of_serves rfl hwork (RegisterPages.unheld_of_mortar hmortar) ⟨hfallbacks, hstarts⟩

theorem runs_dispatchUrgent_fallback (hacc : accepts s P.dpt = true) (hj : urgentFallback s = some j) (hst : (modelOf s j.model).st ≠ 2) :
    Runs (.dispatchUrgent meet host) s fun t => t.dpt.fallbacks = s.dpt.fallbacks.erase j ∧ ∃ x, t.dpt.starts = s.dpt.starts ++ [x] ∧ x.urgent = true
      ∧ some x.core = urgentCore s (modelOf s j.model) ∧ x.job.model = j.model := by
  have hwork : dispatchUrgent meet (withHost s host) = fallbackSent (withHost s host) ((urgentCore s (modelOf s j.model)).getD 0) true j :=
    (dispatchUrgent_fallback (s := withHost s host) hacc hj).trans (if_neg hst)
  obtain ⟨hfallbacks, ⟨x, hstarts, hcore, hurgent, hmodel⟩, hmortar⟩ :=
    fallbackSent_lists (withHost s host) ((urgentCore s (modelOf s j.model)).getD 0) true j
  exact runs_of_serves rfl hwork (RegisterPages.unheld_of_mortar hmortar)
    ⟨hfallbacks, x, hstarts, hurgent, (congrArg some hcore).trans (urgentFallback_core hj hst), hmodel⟩

/-- A command of the dispatcher that finds nothing to do leaves the state as it was. -/
theorem gives_idle {i : Instr} {f : State → State} (hexec : exec i s = serves host f s) (hwork : f (withHost s host) = withHost s host) : Gives i s s :=
  gives_of_serves (t := withHost s host) hexec hwork (RegisterPages.unheld_of_mortar (host := host) rfl)

end

/-- Settles O50: the choice for a normal and for an urgent bank, deadlines, windows and quiesced partitions. -/
theorem dispatchAndDeadlines : Obligations.DispatchAndDeadlines := by
  intro s hlen
  refine ⟨fun n c j meet host hn hacc hfree hlow hhigh hbefore hj => ⟨runs_dispatchNormal_fallback hn hacc hfree hlow hhigh hbefore hj, ?_⟩, ?_, ?_,
    fun j meet host => runs_dispatchUrgent_fallback, ?_, ?_, ?_, fun m o meet host => runs_deadline_noted, fun m n u j meet host => runs_deadline_fallback,
    fun u late => runs_windowGrant, fun p => runs_partitionQuiesced hlen⟩
  · intro u hst hu
    exact gives_of_serves rfl ((dispatchNormal_fallback (s := withHost s host) hn hacc hfree hlow hhigh
      (fun k hk hkc => empty_withHost host (hbefore k hk hkc)) hj).trans (if_pos hst)) hu
  · intro n c m j meet host r hn hacc hfree hlow hhigh hbefore hnone hnext hst hj hu
    exact gives_of_serves rfl (dispatchNormal_queue (s := withHost s host) hn hacc hfree hlow hhigh
      (fun k hk hkc => empty_withHost host (hbefore k hk hkc)) hnone
      ((congrArg (dispatchNormal.nextRound · _) (candidates_withHost s host n c)).trans hnext) hst rfl hj) (unheld_started hu)
  · intro n meet host hnone
    exact gives_idle rfl (dispatchNormal_idle fun c hlow hhigh => empty_withHost host (hnone c hlow hhigh))
  · intro j meet host hacc hj hst u hu
    exact gives_of_serves rfl ((dispatchUrgent_fallback (s := withHost s host) hacc hj).trans (if_pos hst)) hu
  · intro k m n j meet host r hacc hnone hfirst hst hcore hj hu
    exact gives_of_serves rfl (dispatchUrgent_queue (s := withHost s host) hacc hnone ((congrArg (List.find? _) (presented_withHost s host)).trans hfirst) hst hcore
      rfl hj) (unheld_started hu)
  · intro m meet host hnone
    refine gives_idle rfl ?_
    unfold deadlinePass
    rw [armed_withHost, hnone]

end Sys2Proof.Dispatch
end

section
/-! Safelight: its operations, the checks before them and their ends (20 R626, R631, R640, R643). -/
namespace Sys2Proof.Vault
open Sys2Proof Sys2Proof.Machine Sys2Proof.Laws Sys2Proof.Claims Sys2Proof.Frames Sys2Proof.Streams

section
variable {s t u : State} {c : SflCmd} {op : Nat} {host : List Cpl}

/-- What a command's end leaves: memory, Mortar, and an engine without a command. -/
structure Ends (s t : State) : Prop where
  mem : t.mem = s.mem
  mortar : t.mortar = s.mortar
  idle : s.sfl.cur = none → t.sfl.cur = none

theorem Ends.refl (s : State) : Ends s s := ⟨rfl, rfl, id⟩

theorem Ends.trans (h : Ends s t) (k : Ends t u) : Ends s u := ⟨k.mem.trans h.mem, k.mortar.trans h.mortar, fun hs => k.idle (h.idle hs)⟩

theorem Ends.ite {b : Prop} [Decidable b] (ht : Ends s t) (hu : Ends s u) : Ends s (if b then t else u) := by
  split <;> assumption

theorem Ends.onPage {pg : Nat} (h : Ends s t) (k : OnPage pg t u) : Ends s u :=
  ⟨(congrArg State.mem k.rest :).trans h.mem, (congrArg State.mortar k.rest :).trans h.mortar,
    fun hs => (congrArg (fun x : State => x.sfl.cur) k.rest :).trans (h.idle hs)⟩

theorem Ends.raise (h : Ends s t) {pg b : Nat} : Ends s (raise t pg b) := h.onPage (onPage_raise b)

theorem Ends.fault (h : Ends s t) {pg cause info : Nat} {req : Req} {addr : Option Nat} : Ends s (fault t pg cause req info addr) :=
  h.onPage (onPage_fault cause req info addr)

theorem Ends.bump (h : Ends s t) {off hi lo n : Nat} : Ends s (bump t off hi lo n) := h.onPage (onPage_bump rfl)

theorem Ends.answerSvc (h : Ends s t) {n cause id word : Nat} {urgent : Bool} : Ends s (answerSvc t n urgent cause id word) := ⟨h.mem, h.mortar, h.idle⟩

theorem Ends.updSfl (h : Ends s t) {f : Safelight → Safelight} (hf : t.sfl.cur = none → (f t.sfl).cur = none) : Ends s (updSfl t f) :=
  ⟨h.mem, h.mortar, fun hs => hf (h.idle hs)⟩

theorem Ends.complete (h : Ends s t) {st : Nat} : Ends s (sflComplete t c st) := by
  have hcounted : Ends s (Machine.bump (Machine.updSfl t fun k => { k with cur := k.cur.filter fun d => d.id ≠ c.id, held := k.held.filter fun d => d.id ≠ c.id })
      R.SFL_CMDS 31 0 1) := Ends.bump (h.updSfl fun hcur => by simp [hcur])
  unfold sflComplete
  extract_lets left counted us
  have hleft : Ends s counted := hcounted
  clear_value counted us
  split
  · exact hleft.answerSvc
  · exact Ends.raise (hleft.updSfl fun hcur => hcur)

theorem Ends.fail (h : Ends s t) {st cause info : Nat} {addr : Option Nat} : Ends s (sflFail t c st cause info addr) := h.fault.complete

theorem Ends.unusable (h : Ends s t) : Ends s (sflUnusable t) := by
  unfold sflUnusable
  split
  · exact h
  · exact .ite h.fail (.ite h.fail (.ite h.fail h))

/-- What a check answers, where it fails, is the end of a command. -/
def EndsWith (s : State) (o : Option State) : Prop := ∀ t, o = some t → Ends s t

theorem EndsWith.none (s : State) : EndsWith s none := fun _ h => nomatch h

theorem EndsWith.some (h : Ends s t) : EndsWith s (some t) := fun _ ht => Option.some.inj ht ▸ h

theorem EndsWith.ite {b : Prop} [Decidable b] {x y : Option State} (hx : EndsWith s x) (hy : EndsWith s y) : EndsWith s (if b then x else y) := by
  split <;> assumption

/-- A check that fails completes the command. -/
theorem ends_checks (s : State) (c : SflCmd) : EndsWith s (sflChecks s c) := by
  have hs := Ends.refl s
  unfold sflChecks
  refine .ite (.none s) (.ite (.some hs.fail) (.ite (.some hs.complete) (.ite (.some hs.complete) (.ite (.some hs.complete) ?_))))
  split
  · exact .some hs.fault.raise.complete
  · split
    · exact .some hs.fail
    · exact .none s

/-! A row of the opcodes. -/

theorem wake_sfl (s : State) (n : Nat) : (wake s n).sfl = s.sfl := by
  unfold wake
  split <;> rfl

/-- The command as it is worked on: started now where it had not started. -/
def begun (s : State) (c : SflCmd) : SflCmd := if c.started then c else { c with started := true, tStart := tbNs s }

theorem begun_wake (s : State) (n : Nat) (c : SflCmd) : begun (wake s n) c = begun s c := by
  rw [begun, begun, tbNs_wake]

theorem exec_sflInstr {i : Instr} (hi : sflInstr op host = some i) : exec i s = serves host (sflRow op) s := by
  unfold sflInstr at hi
  split at hi
  case h_15 => cases hi
  all_goals exact Option.some.inj hi ▸ rfl

theorem sflRow_other (hchoose : sflChoose s = some c) (hop : c.op ≠ op) : sflRow op s = s := by
  unfold sflRow
  rw [hchoose]
  dsimp only
  rw [if_pos (show c.op ≠ op ∨ c.bad ≠ 0 from .inl hop), ite_self]

theorem sflRow_taken (hcur : s.sfl.cur = none) (hacc : accepts s P.sfl = true) (hchoose : sflChoose s = some c) (hbad : c.bad = 0) (hop : c.op = op) :
    sflRow op s = match sflChecks (wake s 31) c with
      | some t => t
      | none =>
        match (sflOperation (sflRun (wake s 31) (begun s c)) (begun s c)).stop with
        | none => updSfl (sflOperation (sflRun (wake s 31) (begun s c)) (begun s c)).s fun k =>
          { k with cur := some (sflOperation (sflRun (wake s 31) (begun s c)) (begun s c)).c }
        | some (st, o, a) =>
          let r := sflOperation (sflRun (wake s 31) (begun s c)) (begun s c)
          if st = SS.window then sflFail r.s r.c st 2 ((begun s c).op + o * 256) (some a)
          else if st = SS.badCommand then sflFail r.s r.c st 1 (begun s c).op none
          else sflComplete r.s r.c st := by
  unfold sflRow
  rw [if_neg (by simp [hcur, hacc]), hchoose]
  dsimp only
  rw [if_neg (by simp [hop, hbad]), ← begun_wake s 31]
  rfl

theorem sflRow_failed (hcur : s.sfl.cur = none) (hacc : accepts s P.sfl = true) (hchoose : sflChoose s = some c) (hbad : c.bad = 0) (hop : c.op = op)
    (hchecks : sflChecks (wake s 31) c = some t) : sflRow op s = t := by
  rw [sflRow_taken hcur hacc hchoose hbad hop, hchecks]

theorem sflRow_operates {r : SflOut} (hcur : s.sfl.cur = none) (hacc : accepts s P.sfl = true) (hchoose : sflChoose s = some c) (hbad : c.bad = 0)
    (hop : c.op = op) (hchecks : sflChecks (wake s 31) c = none) (hr : sflOperation (sflRun (wake s 31) (begun s c)) (begun s c) = r) (hstop : r.stop = none) :
    sflRow op s = updSfl r.s fun k => { k with cur := some r.c } := by
  rw [sflRow_taken hcur hacc hchoose hbad hop, hchecks, hr]
  dsimp only
  rw [hstop]

/-! VAULT_CLEAR (R626). -/

theorem begun_op (s : State) (c : SflCmd) : (begun s c).op = c.op ∧ (begun s c).vslot = c.vslot ∧ (begun s c).id = c.id ∧ (begun s c).ops = c.ops := by
  unfold begun
  split <;> exact ⟨rfl, rfl, rfl, rfl⟩

theorem sflOperation_clear (hop : c.op = 0x31) : sflOperation s c = { s := putVault s c.vslot {}, c := { c with ops := c.ops + 1 } } := by
  simp [sflOperation, SflCmd.large, hop]

/-- The vault slot of a command is empty, and the command in operation has one operation more. -/
def cleared (s : State) (c : SflCmd) : State := updSfl (putVault (sflRun s c) c.vslot {}) fun k => { k with cur := some { c with ops := c.ops + 1 } }

theorem cleared_mem (s : State) (c : SflCmd) : (cleared s c).mem = s.mem := rfl

theorem cleared_mortar (s : State) (c : SflCmd) : (cleared s c).mortar = s.mortar := rfl

theorem cleared_cur (s : State) (c : SflCmd) : (cleared s c).sfl.cur = some { c with ops := c.ops + 1 } := rfl

theorem cleared_slot (h : c.vslot < s.sfl.vault.length) : vaultOf (cleared s c) c.vslot = {} := Islands.nth_updAt_self h (fun _ => {}) {}

theorem runs_vaultClear (hcur : s.sfl.cur = none) (hacc : accepts s P.sfl = true) (hchoose : sflChoose s = some c) (hbad : c.bad = 0) (hop : c.op = 0x31)
    (hchecks : sflChecks (wake (withHost s []) 31) c = none) (hslot : c.vslot < s.sfl.vault.length) : Runs .vaultClear s fun t =>
      vaultOf t c.vslot = {} ∧ (∃ d, t.sfl.cur = some d ∧ d.id = c.id ∧ d.ops = c.ops + 1) ∧ SameBytes s t := by
  obtain ⟨hbegunOp, hbegunSlot, hbegunId, hbegunOps⟩ := begun_op (withHost s []) c
  have hwork : sflRow 0x31 (withHost s []) = cleared (wake (withHost s []) 31) (begun (withHost s []) c) :=
    sflRow_operates (s := withHost s []) hcur hacc hchoose hbad hop hchecks (sflOperation_clear (hbegunOp.trans hop)) rfl
  have hvault : (begun (withHost s []) c).vslot < (wake (withHost s []) 31).sfl.vault.length := by
    rw [wake_sfl, hbegunSlot]
    exact hslot
  have hempty := cleared_slot hvault
  have hmem := (cleared_mem (wake (withHost s []) 31) (begun (withHost s []) c)).trans (RegisterPages.wake_mem _ _)
  have hmortar := (cleared_mortar (wake (withHost s []) 31) (begun (withHost s []) c)).trans (RegisterPages.wake_mortar _ _)
  have hdone := cleared_cur (wake (withHost s []) 31) (begun (withHost s []) c)
  rw [hbegunSlot] at hempty
  generalize cleared (wake (withHost s []) 31) (begun (withHost s []) c) = u at *
  exact runs_of_serves (host := []) rfl hwork (RegisterPages.unheld_of_mortar hmortar)
    ⟨hempty, ⟨_, hdone, hbegunId, congrArg (· + 1) hbegunOps⟩, RegisterPages.sameBytes_of_mem hmem⟩

/-! The end of an operation (R640, R643). -/

theorem sflTotal_congr (h : t.sfl = s.sfl) : sflTotal t c = sflTotal s c := by
  unfold sflTotal basisOf
  rw [h]

/-- An operation is counted and its energy debited. -/
def debited (s : State) (c : SflCmd) (us stall uj : Nat) : State :=
  solveDebit (bump (bump (bump s R.SFL_OPS 31 0 1) R.SFL_BUSY 31 0 us) R.SFL_STALL 31 0 stall) c.cls uj

theorem solveDebit_kept (s : State) (cls uj : Nat) : (solveDebit s cls uj).mem = s.mem ∧ (solveDebit s cls uj).sfl = s.sfl := ⟨rfl, rfl⟩

theorem debited_kept (s : State) (c : SflCmd) (us stall uj : Nat) : (debited s c us stall uj).mem = s.mem ∧ (debited s c us stall uj).sfl = s.sfl := by
  have hpage : OnPage P.sfl s (bump (bump (bump s R.SFL_OPS 31 0 1) R.SFL_BUSY 31 0 us) R.SFL_STALL 31 0 stall) :=
    .trans (.trans (onPage_bump (by decide)) (onPage_bump (by decide))) (onPage_bump (by decide))
  obtain ⟨hmem, hsfl⟩ := solveDebit_kept (bump (bump (bump s R.SFL_OPS 31 0 1) R.SFL_BUSY 31 0 us) R.SFL_STALL 31 0 stall) c.cls uj
  exact ⟨hmem.trans (congrArg State.mem hpage.rest :), hsfl.trans (congrArg State.sfl hpage.rest :)⟩

theorem runs_operationEnd {us stall uj : Nat} (hisland : islandRuns s 31 = true) (hcur : s.sfl.cur = some c) (hpoison : c.poison = none) (hstop : c.stop = false)
    (hops : c.ops < sflTotal s c) : Runs (.sflOperationEnd us stall uj) s fun t => t.sfl.cur = none ∧ SameBytes s t := by
  have htotal : sflTotal (debited (wake s 31) c us stall uj) c = sflTotal s c := sflTotal_congr ((debited_kept _ _ _ _ _).2.trans (wake_sfl s 31))
  have hmem : (debited (wake s 31) c us stall uj).mem = s.mem := (debited_kept _ _ _ _ _).1.trans (RegisterPages.wake_mem s 31)
  have hexec : exec (.sflOperationEnd us stall uj) s = .next (sflUnusable (sflPark (debited (wake s 31) c us stall uj) c)) := by
    show execSflOperationEnd us stall uj s = _
    unfold execSflOperationEnd
    rw [if_neg (by simp [hisland]), hcur]
    dsimp only
    rw [hpoison, hstop]
    dsimp only
    rw [if_neg Bool.false_ne_true, ← debited, if_neg (by omega)]
  generalize debited (wake s 31) c us stall uj = u at hexec hmem
  have hend := (Ends.refl (sflPark u c)).unusable
  exact ⟨_, hexec, hend.idle rfl, RegisterPages.sameBytes_of_mem (hend.mem.trans hmem)⟩

end

/-- Settles O53: the row of another opcode, a check that fails, an operation, VAULT_CLEAR, and an operation's end. -/
theorem safelightOperations : Obligations.SafelightOperations := by
  intro s op host i c hcur hacc hchoose hbad p
  refine ⟨fun hi hop => ?_, fun hi hop t hchecks => ?_, ?_, fun hhost hop hchecks hslot => ?_, fun us stall uj hisland hpoison hstop hops => ?_⟩
  · exact gives_of_serves (t := withHost s host) (exec_sflInstr hi) (sflRow_other (s := withHost s host) hchoose hop)
      (RegisterPages.unheld_of_mortar (host := host) rfl)
  · exact gives_of_serves (exec_sflInstr hi) (sflRow_failed (s := withHost s host) hcur hacc hchoose hbad hop hchecks)
      (RegisterPages.unheld_of_mortar ((ends_checks p c t hchecks).mortar.trans (RegisterPages.wake_mortar _ _)))
  · intro hi hop hchecks d r hstop hu
    exact runs_of_serves (exec_sflInstr hi) (sflRow_operates (s := withHost s host) hcur hacc hchoose hbad hop hchecks rfl hstop) hu ⟨rfl, fun _ => rfl⟩
  · subst hhost
    exact runs_vaultClear hcur hacc hchoose hbad hop hchecks hslot
  · exact runs_operationEnd (s := { s with sfl := { s.sfl with cur := some c, held := [] } }) hisland rfl hpoison hstop hops

end Sys2Proof.Vault
end

section
/-! Seams: the checks, the votes, the commit and the abort of a change set (22 R683, R686, R688, R690). -/
namespace Sys2Proof.ChangeSets
open Sys2Proof Sys2Proof.Machine Sys2Proof.Laws Sys2Proof.Claims Sys2Proof.Frames

section
variable {s t : State} {cause e : Nat}

theorem seamState_congr (h : rd t R.SEAM_STATE = rd s R.SEAM_STATE) : seamState t = seamState s := by
  rw [seamState, seamState, rf, rf, h]

theorem seamState_wf (s : State) {x : Nat} (hx : x < 4) : seamState (wf s R.SEAM_STATE 1 0 x) = x :=
  (RegisterPages.rf_wf_self (by decide)).trans (Nat.mod_eq_of_lt hx)

theorem seamState_raise (s : State) (b : Nat) : seamState (raise s P.seam b) = seamState s := seamState_congr (Sound.rd_raise_block (by decide))

theorem seamState_seamEnd (s : State) (result cause e : Nat) : seamState (seamEnd s result cause e) = 0 := seamState_wf _ (by decide)

theorem onPage_seamEnd (s : State) (result cause e : Nat) : OnPage P.seam s (seamEnd s result cause e) := by
  unfold seamEnd
  extract_lets us noted counted
  have hnoted : OnPage P.seam s noted := .trans (onPage_setReg (by decide)) (onPage_setReg (by decide))
  have hcounted : OnPage P.seam noted counted := .ite (onPage_bump (by decide)) (onPage_bump (by decide))
  clear_value noted counted
  exact .trans hnoted (.trans hcounted (onPage_setReg (by decide)))

/-- A set that is in progress and may not commit ends by the abort. -/
theorem seamAbort_aborts (hstate : seamState s ≠ 0) (hcommit : mayCommit s = false) (cause : Nat) :
    seamState (seamAbort s cause) = 0 ∧ Raised (seamAbort s cause) P.seam 9 ∧ (seamAbort s cause).mem = s.mem := by
  have heq : seamAbort s cause = raise (seamEnd s 2 cause (nextEpoch s)) P.seam 9 := by
    rw [seamAbort, if_neg hstate, hcommit]
    rfl
  have hpage : OnPage P.seam s (raise (seamEnd s 2 cause (nextEpoch s)) P.seam 9) := .trans (onPage_seamEnd _ _ _ _) (onPage_raise 9)
  rw [heq]
  exact ⟨(seamState_raise _ 9).trans (seamState_seamEnd _ _ _ _), rb_raise _ _ (by decide), PowerUp.mem_of_onPage hpage⟩

theorem mayCommit_of_state (h : seamState s ≠ 3) : mayCommit s = false := by
  simp [mayCommit, h]

/-- The captures of LAYOUT_MISMATCH leave memory, and the registers of the seam. -/
theorem captureMismatch_leaves (s : State) : (captureMismatch s).mem = s.mem ∧ rd (captureMismatch s) R.SEAM_STATE = rd s R.SEAM_STATE := by
  unfold captureMismatch
  extract_lets cs spare
  have hcs : ∀ c ∈ cs, c < 4 := fun c hc => List.mem_range.mp (List.mem_filter.mp hc).1
  split
  · exact ⟨rfl, rfl⟩
  · refine List.foldlRecOn (motive := fun t => t.mem = s.mem ∧ rd t R.SEAM_STATE = rd s R.SEAM_STATE) _ _ ⟨rfl, rfl⟩ fun t ht c hc => ?_
    have hpage : R.SEAM_STATE / 0x1000 ≠ P.dmc c := by
      have hlow := hcs c hc
      show 4 ≠ 16 + c
      omega
    exact ⟨(PowerUp.mem_of_onPage (onPage_hwFault _ _)).trans ht.1, (fault_other hpage).trans ht.2⟩

theorem runs_seamCheckDone_pass (hstate : seamState s = 1) (hpass : seamFailure s = none) :
    Runs .seamCheckDone s fun t => seamState t = 2 ∧ Frame s t [P.seam] := by
  have hexec : exec .seamCheckDone s = .next (wf s R.SEAM_STATE 1 0 2) := by
    show execSeamCheckDone s = _
    rw [execSeamCheckDone, if_neg (by omega), hpass]
  exact ⟨_, hexec, seamState_wf s (by decide), Mesh.frame_of_onPage (onPage_setReg (by decide))⟩

theorem runs_seamCheckDone_fail {f : Nat × Nat} (hstate : seamState s = 1) (hfail : seamFailure s = some f) :
    Runs .seamCheckDone s fun t => seamState t = 0 ∧ Raised t P.seam 9 ∧ SameBytes s t := by
  have hexec : exec .seamCheckDone s = .next (seamAbort (setReg (if P.dmc 0 ≤ f.1 ∧ f.1 ≤ P.dmc 3 then captureMismatch s else s) R.SEAM_REASON
      (BitVec.ofNat 32 (f.1 + f.2 * 256))) 2) := by
    show execSeamCheckDone s = _
    rw [execSeamCheckDone, if_neg (by omega), hfail]
  have hcaptured : (if P.dmc 0 ≤ f.1 ∧ f.1 ≤ P.dmc 3 then captureMismatch s else s).mem = s.mem
      ∧ rd (if P.dmc 0 ≤ f.1 ∧ f.1 ≤ P.dmc 3 then captureMismatch s else s) R.SEAM_STATE = rd s R.SEAM_STATE := by
    split
    · exact captureMismatch_leaves s
    · exact ⟨rfl, rfl⟩
  generalize (if P.dmc 0 ≤ f.1 ∧ f.1 ≤ P.dmc 3 then captureMismatch s else s) = captured at hexec hcaptured
  obtain ⟨hmem, hword⟩ := hcaptured
  have hreason : seamState (setReg captured R.SEAM_REASON (BitVec.ofNat 32 (f.1 + f.2 * 256))) = 1 :=
    (seamState_congr ((rd_setReg_ne (by decide)).trans hword)).trans hstate
  obtain ⟨hidle, hraised, hkept⟩ := seamAbort_aborts (hreason.trans_ne (by decide)) (mayCommit_of_state (hreason.trans_ne (by decide))) 2
  exact ⟨_, hexec, hidle, hraised, RegisterPages.sameBytes_of_mem (hkept.trans hmem)⟩

theorem runs_seamVotesDone (hstate : seamState s = 2) (hvotes : (votes (seamMembers s) s).2 = []) : Runs .seamVotesDone s fun t => seamState t = 3 := by
  have hexec : exec .seamVotesDone s = .next (wf (votes (seamMembers s) s).1 R.SEAM_STATE 1 0 3) := by
    show execSeamVotesDone s = _
    rw [execSeamVotesDone, if_neg (by omega), hvotes]
    rfl
  exact ⟨_, hexec, seamState_wf _ (by decide)⟩

/-- The end of a commit: the epoch, the counts, the event, and one record in any case. -/
def committed (s : State) (e : Nat) : State :=
  let s := seamEnd (wf s R.SEAM_EPOCH_NOW 15 0 e) 1 0 e
  let wrote := !rb s (hdr P.seam 0x20) 8 && rb s (hdr P.seam 0x2C) 17
  let s := raise s P.seam 8
  if wrote then s else toRecorder s (pageOccurrence s P.seam 8 false none)

theorem rd_seamEnd_epoch (s : State) (result cause e : Nat) : rd (seamEnd s result cause e) R.SEAM_EPOCH_NOW = rd s R.SEAM_EPOCH_NOW := by
  unfold seamEnd
  extract_lets us noted counted
  have hnoted : rd noted R.SEAM_EPOCH_NOW = rd s R.SEAM_EPOCH_NOW := (rd_setReg_ne (by decide)).trans (rd_setReg_ne (by decide))
  have hcounted : rd counted R.SEAM_EPOCH_NOW = rd noted R.SEAM_EPOCH_NOW := by
    show rd (if result = 1 then bump noted R.SEAM_COUNT 15 0 1 else bump noted R.SEAM_COUNT 31 16 1) _ = _
    split <;> exact rd_bump_ne (by decide)
  exact (rd_wf_ne (by decide)).trans (hcounted.trans hnoted)

theorem committed_shows (s : State) (he : e < 65536) :
    seamState (committed s e) = 0 ∧ rf (committed s e) R.SEAM_EPOCH_NOW 15 0 = e ∧ Raised (committed s e) P.seam 8 := by
  unfold committed
  extract_lets ended wrote raised
  have hended : seamState ended = 0 := seamState_seamEnd _ _ _ _
  have hepoch : rf ended R.SEAM_EPOCH_NOW 15 0 = e := by
    rw [rf, rd_seamEnd_epoch]
    exact (RegisterPages.rf_wf_self (by decide)).trans (Nat.mod_eq_of_lt he)
  have hword : rd raised R.SEAM_EPOCH_NOW = rd ended R.SEAM_EPOCH_NOW := Sound.rd_raise_block (by decide)
  have hraised : seamState raised = 0 ∧ rf raised R.SEAM_EPOCH_NOW 15 0 = e ∧ Raised raised P.seam 8 :=
    ⟨(seamState_raise _ 8).trans hended, by rw [rf, hword]; exact hepoch, rb_raise _ _ (by decide)⟩
  split
  · exact hraised
  · exact hraised

theorem runs_seamCommit (hcommit : mayCommit s = true) :
    Runs .seamCommit s fun t => seamState t = 0 ∧ rf t R.SEAM_EPOCH_NOW 15 0 = nextEpoch s ∧ Raised t P.seam 8 := by
  have hexec : exec .seamCommit s = .next (committed (commitPages s (seamMembers s) (nextEpoch s)) (nextEpoch s)) := by
    show execSeamCommit s = _
    rw [execSeamCommit, hcommit]
    rfl
  exact ⟨_, hexec, committed_shows _ (Nat.mod_lt _ (by decide))⟩

theorem gives_seamCommit_idle (hcommit : mayCommit s = false) : Gives .seamCommit s s := by
  show execSeamCommit s = _
  rw [execSeamCommit, hcommit]
  rfl

theorem runs_seamTimeout (hstate : seamState s ≠ 0) (hcommit : mayCommit s = false) :
    Runs .seamTimeout s fun t => seamState t = 0 ∧ Raised t P.seam 9 ∧ SameBytes s t := by
  obtain ⟨hidle, hraised, hmem⟩ := seamAbort_aborts hstate hcommit 3
  exact ⟨_, rfl, hidle, hraised, RegisterPages.sameBytes_of_mem hmem⟩

theorem gives_seamTimeout_idle (hstate : seamState s = 0) : Gives .seamTimeout s s := by
  show execSeamTimeout s = _
  rw [execSeamTimeout, seamAbort, if_pos hstate]

end
end Sys2Proof.ChangeSets
end

section
/-! The recorder and the fault block (23 R695 to R710, 24 R720 to R731). -/
namespace Sys2Proof.Recorder
open Sys2Proof Sys2Proof.Machine Sys2Proof.Laws Sys2Proof.Claims Sys2Proof.Frames Sys2Proof.Streams

section
variable {s t : State}

/-! Occurrences reach the recorder (R701, R703). -/

theorem occInsert_length (o : Occurrence) (l : List Occurrence) : (occInsert o l).length = l.length + 1 := by
  induction l with
  | nil => rfl
  | cons p ps ih =>
    rw [occInsert]
    split
    · rfl
    · exact congrArg (· + 1) ih

theorem sorted_length (os l : List Occurrence) : (os.foldl (fun l o => occInsert o l) l).length = l.length + os.length := by
  induction os generalizing l with
  | nil => rfl
  | cons o os ih =>
    rw [List.foldl_cons, ih, occInsert_length, List.length_cons]
    omega

/-- What occurrences that find room change: so many more have arrived. -/
structure Arrives (n : Nat) (s t : State) : Prop where
  toCsh : t.toCsh = s.toCsh
  arrived : t.csh.arrived.length = s.csh.arrived.length + n
  held : cshHeld t = cshHeld s + n
  mem : t.mem = s.mem

theorem Arrives.peak {n off hi lo x : Nat} (h : Arrives n s t) : Arrives n s (peak t off hi lo x) := ⟨h.toCsh, h.arrived, h.held, h.mem⟩

theorem arrives_occArrive {o : Occurrence} (hroom : cshHeld s < 64) : Arrives 1 s (occArrive s o) := by
  have heq : occArrive s o = Machine.peak (updCsh s fun c => { c with arrived := c.arrived ++ [o] }) R.CSH_FIFO 22 16
      (cshHeld (updCsh s fun c => { c with arrived := c.arrived ++ [o] })) := if_neg (by omega)
  have hlength : (s.csh.arrived ++ [o]).length = s.csh.arrived.length + 1 := List.length_append
  have hheld : cshHeld (updCsh s fun c => { c with arrived := c.arrived ++ [o] }) = cshHeld s + 1 := by
    show (s.csh.arrived ++ [o]).length + s.csh.fifo.countP (!·.written) = s.csh.arrived.length + s.csh.fifo.countP (!·.written) + 1
    omega
  rw [heq]
  exact Arrives.peak ⟨rfl, hlength, hheld, rfl⟩

theorem arrives_all (os : List Occurrence) (hroom : cshHeld s + os.length ≤ 64) : Arrives os.length s (os.foldl occArrive s) := by
  induction os generalizing s with
  | nil => exact ⟨rfl, rfl, rfl, rfl⟩
  | cons o os ih =>
    rw [List.length_cons] at hroom ⊢
    have hone := arrives_occArrive (s := s) (o := o) (by omega)
    have hrest := ih (s := occArrive s o) (by rw [hone.held]; omega)
    rw [List.foldl_cons]
    exact ⟨hrest.toCsh.trans hone.toCsh, by rw [hrest.arrived, hone.arrived]; omega, by rw [hrest.held, hone.held]; omega, hrest.mem.trans hone.mem⟩

theorem runs_cshOccurrence {n : Nat} (hup : s.boot.held = false) (hroom : cshHeld s + n ≤ 64) : Runs (.cshOccurrence n) s fun t =>
    t.toCsh = s.toCsh.drop n ∧ t.csh.arrived.length = s.csh.arrived.length + min n s.toCsh.length ∧ SameBytes s t := by
  have hexec : exec (.cshOccurrence n) s = .next (((s.toCsh.take n).foldl (fun l o => occInsert o l) []).foldl occArrive { s with toCsh := s.toCsh.drop n }) := by
    show execCshOccurrence n s = _
    rw [execCshOccurrence, hup]
    rfl
  have hcount : ((s.toCsh.take n).foldl (fun l o => occInsert o l) []).length = min n s.toCsh.length := by
    rw [sorted_length, List.length_take, List.length_nil, Nat.zero_add]
  generalize (s.toCsh.take n).foldl (fun l o => occInsert o l) [] = os at hexec hcount
  have hheld : cshHeld { s with toCsh := s.toCsh.drop n } + os.length ≤ 64 := by
    show cshHeld s + os.length ≤ 64
    omega
  have h := arrives_all os hheld
  exact ⟨_, hexec, h.toCsh, hcount ▸ h.arrived, RegisterPages.sameBytes_of_mem h.mem⟩

/-! Occurrences are accepted and written (R702, R704). -/

theorem runs_cshAccept {o : Occurrence} {rest : List Occurrence} (harrived : s.csh.arrived = o :: rest) : Runs .cshAccept s fun t =>
    t.csh.arrived = rest ∧ (∃ a, t.csh.fifo = s.csh.fifo ++ [a] ∧ a.occ = o ∧ a.ts = tbNs s ∧ a.written = false) ∧ Frame s { t with csh := s.csh } [] := by
  have hexec : exec .cshAccept s = .next (updCsh s fun c =>
      { c with arrived := rest, fifo := c.fifo ++ [{ occ := o, ts := tbNs s, triggers := matching s o.code }] }) := by
    show execCshAccept s = _
    rw [execCshAccept, harrived]
  exact ⟨_, hexec, rfl, ⟨_, rfl, rfl, rfl, rfl⟩, rfl, fun _ _ => rfl⟩

theorem cshEntry_putEntry_self (s : State) (i : Nat) (b : List Byte) : cshEntry (putEntry s i b) i = b := SMap.getD_put_self

theorem cshEntry_putEntry_ne {i k : Nat} {b : List Byte} (h : k ≠ i) : cshEntry (putEntry s i b) k = cshEntry s k := SMap.getD_put_ne h

theorem putBytes_length {bs xs : List Byte} {lo : Nat} (h : lo + xs.length ≤ bs.length) : (putBytes bs lo xs).length = bs.length := by
  simp only [putBytes, List.length_append, List.length_take, List.length_drop]
  omega

theorem cshBytes_length (code source mid : Nat) (params : List Nat) (seq flags : Nat) : (cshBytes code source mid params seq flags).length = 32 := by
  simp [cshBytes, List.length_flatMap]

/-- The steps that write a record put its bytes in the place of an entry's. -/
theorem putBytes_record {x b : List Byte} (hx : x.length = 32) (hb : b.length = 32) :
    putBytes (putBytes (putBytes x 24 (List.replicate 8 0)) 0 (b.take 24)) 24 (b.drop 24) = b := by
  have hcleared : (putBytes x 24 (List.replicate 8 0)).length = 32 := (putBytes_length (by simp [hx])).trans hx
  generalize putBytes x 24 (List.replicate 8 0) = y at hcleared
  have hhead : putBytes y 0 (b.take 24) = b.take 24 ++ y.drop 24 := by
    simp [putBytes, hb]
  have htake : (b.take 24 ++ y.drop 24).take 24 = b.take 24 := by
    rw [List.take_append_of_le_length (by simp [hb]), List.take_of_length_le (by simp)]
  have hdrop : (b.take 24 ++ y.drop 24).drop (24 + (b.drop 24).length) = [] := List.drop_eq_nil_of_le (by simp [hb, hcleared])
  rw [hhead, putBytes, htake, hdrop, List.append_nil, List.take_append_drop]

/-- A poisoned granule is written whole: the other entry of it reads zero (R706). -/
def granuleReady (s : State) (i : Nat) : State :=
  if s.csh.bad.contains (i / 2) then
    putEntry (updCsh s fun c => { c with bad := NSet.del c.bad (i / 2) }) (if i % 2 = 0 then i + 1 else i - 1) (List.replicate 32 0)
  else s

/-- The three steps that write an entry. -/
def entryWritten (s : State) (i : Nat) (b : List Byte) : State :=
  let s := putEntry s i (putBytes (cshEntry s i) 24 (List.replicate 8 0))
  let s := putEntry s i (putBytes (cshEntry s i) 0 (b.take 24))
  putEntry s i (putBytes (cshEntry s i) 24 (b.drop 24))

theorem writeRecord_eq (s : State) (b : List Byte) : writeRecord s b =
    entryWritten (granuleReady (updCsh s fun c => { c with seq := (s.csh.seq + 1) % 2 ^ 32 }) (cshSlot s.csh.seq)) (cshSlot s.csh.seq) b := rfl

/-- From `s` to `t` nothing changes but the recorder. -/
def OnCsh (s t : State) : Prop := { t with csh := s.csh } = s

theorem OnCsh.trans {u : State} (h : OnCsh s t) (k : OnCsh t u) : OnCsh s u :=
  (congrArg (fun x : State => ({ x with csh := s.csh } : State)) k).trans h

theorem onCsh_updCsh (s : State) (f : Csh → Csh) : OnCsh s (updCsh s f) := rfl

theorem onCsh_granuleReady (s : State) (i : Nat) : OnCsh s (granuleReady s i) := by
  unfold granuleReady
  split
  · exact (onCsh_updCsh s _).trans (onCsh_updCsh _ _)
  · rfl

theorem onCsh_entryWritten (s : State) (i : Nat) (b : List Byte) : OnCsh s (entryWritten s i b) :=
  (onCsh_updCsh s _).trans ((onCsh_updCsh _ _).trans (onCsh_updCsh _ _))

theorem onCsh_writeRecord (s : State) (b : List Byte) : OnCsh s (writeRecord s b) :=
  writeRecord_eq s b ▸ (onCsh_updCsh s _).trans ((onCsh_granuleReady _ _).trans (onCsh_entryWritten _ _ b))

theorem granuleReady_leaves (s : State) (i : Nat) : cshEntry (granuleReady s i) i = cshEntry s i ∧ (granuleReady s i).csh.seq = s.csh.seq := by
  unfold granuleReady
  split
  · have hother : i ≠ if i % 2 = 0 then i + 1 else i - 1 := by
      split <;> omega
    exact ⟨cshEntry_putEntry_ne hother, rfl⟩
  · exact ⟨rfl, rfl⟩

theorem entryWritten_entry {i : Nat} {b : List Byte} (hx : (cshEntry s i).length = 32) (hb : b.length = 32) : cshEntry (entryWritten s i b) i = b := by
  unfold entryWritten
  dsimp only
  rw [cshEntry_putEntry_self, cshEntry_putEntry_self, cshEntry_putEntry_self, putBytes_record hx hb]

theorem writeRecord_entry {b : List Byte} (hx : (cshEntry s (cshSlot s.csh.seq)).length = 32) (hb : b.length = 32) :
    cshEntry (writeRecord s b) (cshSlot s.csh.seq) = b ∧ (writeRecord s b).csh.seq = (s.csh.seq + 1) % 2 ^ 32 := by
  have hseq (w : State) (i : Nat) : (entryWritten w i b).csh.seq = w.csh.seq := rfl
  obtain ⟨hentry, hready⟩ := granuleReady_leaves (updCsh s fun c => { c with seq := (s.csh.seq + 1) % 2 ^ 32 }) (cshSlot s.csh.seq)
  rw [writeRecord_eq, hseq, hready]
  exact ⟨entryWritten_entry ((congrArg List.length hentry).trans hx) hb, rfl⟩

theorem runs_cshRecordWrite {a : Accepted} {rest : List Accepted} (hfifo : s.csh.fifo = a :: rest) (hnew : a.written = false)
    (hlength : (cshEntry s (cshSlot s.csh.seq)).length = 32) : Runs .cshRecordWrite s fun t =>
      cshEntry t (cshSlot s.csh.seq) = occurrenceBytes s a ∧ t.csh.seq = (s.csh.seq + 1) % 2 ^ 32 ∧ t.csh.lost = false ∧ Frame s { t with csh := s.csh } [] := by
  have hexec : exec .cshRecordWrite s = .next (updCsh (writeRecord s (occurrenceBytes s a)) fun c =>
      { c with lost := false, fifo := if a.triggers.isEmpty then rest else { a with written := true } :: rest }) := by
    show execCshRecordWrite s = _
    rw [execCshRecordWrite, hfifo]
    dsimp only
    rw [if_neg (by simp [hnew])]
  obtain ⟨hentry, hseq⟩ := writeRecord_entry (b := occurrenceBytes s a) hlength (cshBytes_length _ _ _ _ _ _)
  have hrest := onCsh_writeRecord s (occurrenceBytes s a)
  generalize writeRecord s (occurrenceBytes s a) = written at *
  refine ⟨_, hexec, hentry, hseq, rfl, ?_⟩
  have hback : ({ updCsh written fun c => { c with lost := false, fifo := if a.triggers.isEmpty then rest else { a with written := true } :: rest } with
      csh := s.csh } : State) = s := hrest
  rw [hback]
  exact ⟨rfl, fun _ _ => rfl⟩

/-! Snapshots (R707, R708). -/

theorem snapRead_mem (s : State) (sel : Nat) : (snapRead s sel).1.mem = s.mem := by
  unfold snapRead
  extract_lets off n i
  split
  · rfl
  · split
    · rfl
    · split
      · exact RegisterPages.wake_mem s n
      · exact RegisterPages.wake_mem s n

theorem continuations_mem (t : Nat) (sels vals : List Nat) (fuel : Nat) (s : State) : (continuations t sels vals fuel s).mem = s.mem := by
  induction fuel generalizing sels vals s with
  | zero => rfl
  | succ fuel ih =>
    unfold continuations
    extract_lets pick mid b
    split
    · rfl
    · exact (ih _ _ _).trans (congrArg State.mem (onCsh_writeRecord s b) :)

/-- The selectors of a trigger. -/
def selectors (s : State) (t : Nat) : List Nat := (List.range (min 16 (rf s (R.CSH_TRIG t) 20 16))).map (selector s t)

/-- The registers of the selectors are read, in order. -/
def snapped (s : State) (sels : List Nat) : State × List Nat := sels.foldl (fun p x => let q := snapRead p.1 x; (q.1, p.2 ++ [q.2])) (s, [])

theorem snapped_mem (s : State) (sels : List Nat) : (snapped s sels).1.mem = s.mem :=
  List.foldlRecOn (motive := fun p : State × List Nat => p.1.mem = s.mem) _ _ rfl fun p hp k _ => (snapRead_mem p.1 k).trans hp

theorem runs_cshSnapshot {a : Accepted} {rest : List Accepted} {x : Nat} {xs : List Nat} (hfifo : s.csh.fifo = a :: rest) (htriggers : a.triggers = x :: xs)
    (hwritten : a.written = true) : Runs .cshSnapshot s fun t =>
      t.csh.fifo = (if xs = [] then rest else { a with triggers := xs } :: rest) ∧ SameBytes s t := by
  have hexec : exec .cshSnapshot s = .next (updCsh (continuations x (selectors s x) (snapped s (selectors s x)).2 4 (snapped s (selectors s x)).1) fun c =>
      { c with fifo := if xs.isEmpty then rest else { a with triggers := xs } :: rest }) := by
    show execCshSnapshot s = _
    rw [execCshSnapshot, hfifo]
    dsimp only
    rw [htriggers]
    dsimp only
    rw [if_neg (by simp [hwritten])]
    rfl
  have hmem := (continuations_mem x (selectors s x) (snapped s (selectors s x)).2 4 (snapped s (selectors s x)).1).trans (snapped_mem s _)
  generalize continuations x (selectors s x) (snapped s (selectors s x)).2 4 (snapped s (selectors s x)).1 = u at *
  refine ⟨_, hexec, ?_, RegisterPages.sameBytes_of_mem hmem⟩
  show (if xs.isEmpty then rest else { a with triggers := xs } :: rest) = _
  simp only [List.isEmpty_iff]

/-! The extension (R710). -/

theorem gives_cshExtCopy_off (hoff : rb s R.CSH_CTRL 0 = false) : Gives .cshExtCopy s s := by
  have hwork : cshExtCopy (withHost s []) = withHost s [] := by
    unfold cshExtCopy
    exact if_pos (.inl (congrArg (!·) hoff))
  exact gives_of_serves (t := withHost s []) rfl hwork (RegisterPages.unheld_of_mortar (host := []) rfl)

/-- The copy of one record of the ring, that of sequence number `n`. -/
def copied (s : State) (n : Nat) : State × Nat :=
  copyWrites (bump s R.CSH_EXT_SKIPPED 31 0 0) ((extRange s).1 + 32 * (n % (2048 * rf s R.CSH_EXT_SIZE 9 0))) (cshEntry s (cshSlot n)) (s.csh.bad.contains (cshSlot n / 2))

/-- A copy went well: its number is passed. -/
def copyPassed (s : State) (n : Nat) : State := setReg s R.CSH_EXT_SEQ (BitVec.ofNat 32 (n + 1))

/-- A copy failed with a status: the extension is off. -/
def copyStopped (s : State) (n st : Nat) : State :=
  raise (hwFault (wb (setReg s R.CSH_EXT_SEQ (BitVec.ofNat 32 n)) R.CSH_CTRL 0 false) P.csh 1 st) P.csh 9

/-- The next record of the ring is copied, where the copies are one behind. -/
theorem cshExtCopy_next {n : Nat} (hon : rb s R.CSH_CTRL 0 = true) (hn : (rd s R.CSH_EXT_SEQ).toNat = n) (hseq : s.csh.seq = (n + 1) % 2 ^ 32) :
    cshExtCopy s = if (copied s n).2 = MS.ok then copyPassed (copied s n).1 n else copyStopped (copied s n).1 n (copied s n).2 := by
  have hlt : n < 2 ^ 32 := hn ▸ (rd s R.CSH_EXT_SEQ).isLt
  have hbehind : (s.csh.seq + 2 ^ 32 - n) % 2 ^ 32 = 1 := by
    omega
  have hsize : rf (bump s R.CSH_EXT_SKIPPED 31 0 0) R.CSH_EXT_SIZE 9 0 = rf s R.CSH_EXT_SIZE 9 0 := by
    rw [rf, rf, rd_bump_ne (by decide)]
  have hbase : (extRange (bump s R.CSH_EXT_SKIPPED 31 0 0)).1 = (extRange s).1 := by
    simp only [extRange, rf]
    rw [rd_bump_ne (by decide), rd_bump_ne (by decide)]
  unfold cshExtCopy
  rw [hn]
  dsimp only
  rw [hbehind, if_neg (by simp [hon]), Nat.sub_eq_zero_of_le (by decide), Nat.add_zero, Nat.mod_eq_of_lt hlt, hsize, hbase]
  rfl

theorem copyStopped_shows (s : State) (n st : Nat) : rb (copyStopped s n st) R.CSH_CTRL 0 = false ∧ Raised (copyStopped s n st) P.csh 9 := by
  refine ⟨?_, rb_raise _ _ (by decide)⟩
  rw [rb, copyStopped, Sound.rd_raise_block (by decide), Sound.rd_hwFault_block (by decide)]
  exact rb_wb_self (by decide)

theorem runs_cshExtCopy (hon : rb s R.CSH_CTRL 0 = true) (hseq : s.csh.seq = ((rd s R.CSH_EXT_SEQ).toNat + 1) % 2 ^ 32)
    (hu : Unheld (copied (withHost s []) (rd s R.CSH_EXT_SEQ).toNat).1) :
    ((copied (withHost s []) (rd s R.CSH_EXT_SEQ).toNat).2 = MS.ok → Runs .cshExtCopy s fun t => rd t R.CSH_EXT_SEQ = rd s R.CSH_EXT_SEQ + 1)
      ∧ ((copied (withHost s []) (rd s R.CSH_EXT_SEQ).toNat).2 ≠ MS.ok → Runs .cshExtCopy s fun t => rb t R.CSH_CTRL 0 = false ∧ Raised t P.csh 9) := by
  have hwork := cshExtCopy_next (s := withHost s []) hon rfl hseq
  rw [show rd (withHost s []) R.CSH_EXT_SEQ = rd s R.CSH_EXT_SEQ from rfl] at hwork
  generalize copied (withHost s []) (rd s R.CSH_EXT_SEQ).toNat = w at *
  constructor
  · intro hok
    have hnext : rd (copyPassed w.1 (rd s R.CSH_EXT_SEQ).toNat) R.CSH_EXT_SEQ = rd s R.CSH_EXT_SEQ + 1 := by
      rw [copyPassed, rd_setReg_self]
      bv_omega
    exact runs_of_serves rfl (hwork.trans (if_pos hok)) hu hnext
  · intro hfail
    have hstopped := copyStopped_shows w.1 (rd s R.CSH_EXT_SEQ).toNat w.2
    have hmortar : (copyStopped w.1 (rd s R.CSH_EXT_SEQ).toNat w.2).mortar = w.1.mortar := by
      have hset : OnPage P.csh w.1 (wb (setReg w.1 R.CSH_EXT_SEQ (BitVec.ofNat 32 (rd s R.CSH_EXT_SEQ).toNat)) R.CSH_CTRL 0 false) :=
        .trans (onPage_setReg (by decide)) (onPage_setReg (by decide))
      have hpage : OnPage P.csh w.1 (copyStopped w.1 (rd s R.CSH_EXT_SEQ).toNat w.2) := hset.trans (.trans (onPage_hwFault 1 w.2) (onPage_raise 9))
      exact (congrArg State.mortar hpage.rest :)
    refine runs_of_serves rfl (hwork.trans (if_neg hfail)) ?_ hstopped
    rw [Unheld, hmortar]
    exact hu

/-! The fault block (R720, R721, R731). -/

theorem runs_faultArrive_event {pg b : Nat} {rest : List FltMsg} (hmsg : s.toFlt = .event pg b :: rest) : Runs (.fltFaultArrive 1) s fun t =>
    t.toFlt = rest ∧ rf t R.FLT_EVT_COUNT 31 0 = min (2 ^ 32 - 1) (rf s R.FLT_EVT_COUNT 31 0 + 1) ∧ SameBytes s t := by
  have hexec : exec (.fltFaultArrive 1) s = .next (bump { s with toFlt := rest } R.FLT_EVT_COUNT 31 0 1) := by
    show execFltFaultArrive 1 s = _
    rw [execFltFaultArrive, hmsg]
    rfl
  exact ⟨_, hexec, rfl, rf_bump_self (s := { s with toFlt := rest }) (by decide), fun _ => rfl⟩

theorem rb_safeSet {b : Nat} (hb : b < 32) : rb (safeSet s b true) R.FLT_SAFE_STATUS b = true := by
  have hseen : rb (wb (wb s R.FLT_SAFE_STATUS b true) R.FLT_SAFE_SEEN b true) R.FLT_SAFE_STATUS b = true := by
    rw [rb, rd_wb_ne (by decide)]
    exact rb_wb_self hb
  unfold safeSet
  split
  · assumption
  · dsimp only
    rw [if_pos rfl]
    split
    · rw [rb, Sound.rd_raise_block (by decide)]
      exact hseen
    · exact hseen

theorem runs_faultArrive_stall {n : Nat} {rest : List FltMsg} (hmsg : s.toFlt = .stall n :: rest) (hslot : slotSentinel s n = true) :
    Runs (.fltFaultArrive 1) s fun t => rb t R.FLT_SAFE_STATUS 2 = true ∧ SameBytes s t := by
  have hexec : exec (.fltFaultArrive 1) s = .next (safeSet { s with toFlt := rest, flt := { s.flt with stalled := NSet.add s.flt.stalled n } } 2 true) := by
    have hmessage : takeMsg { s with toFlt := rest } (.stall n) = safeSet { s with toFlt := rest, flt := { s.flt with stalled := NSet.add s.flt.stalled n } } 2 true :=
      if_pos hslot
    show execFltFaultArrive 1 s = _
    rw [execFltFaultArrive, hmsg, ← hmessage]
    rfl
  have hset := (Dispatch.Marks.refl { s with toFlt := rest, flt := { s.flt with stalled := NSet.add s.flt.stalled n } }).safeSet (b := 2) (on := true)
  exact ⟨_, hexec, rb_safeSet (by decide), RegisterPages.sameBytes_of_mem hset.mem⟩

theorem runs_injectionExpire (harmed : rf s R.FLT_INJ_STATUS 1 0 = 1) : Runs .injectionExpire s fun t => rf t R.FLT_INJ_STATUS 1 0 = 3 ∧ Frame s t [P.flt] := by
  have hexec : exec .injectionExpire s = .next (wf s R.FLT_INJ_STATUS 1 0 3) := by
    show execInjectionExpire s = _
    rw [execInjectionExpire, if_pos harmed]
  exact ⟨_, hexec, RegisterPages.rf_wf_self (by decide), Mesh.frame_of_onPage (onPage_setReg (by decide))⟩

end

/-- Settles O56: the seams, the recorder and the fault block, clause by clause. -/
theorem seamRecorderAndFlt : Obligations.SeamRecorderAndFlt := by
  intro s
  refine ⟨ChangeSets.runs_seamCheckDone_pass, fun e => ChangeSets.runs_seamCheckDone_fail, ChangeSets.runs_seamVotesDone, ChangeSets.runs_seamCommit,
    ChangeSets.gives_seamCommit_idle, ChangeSets.runs_seamTimeout, ChangeSets.gives_seamTimeout_idle, fun n => runs_cshOccurrence, fun o rest => runs_cshAccept,
    fun a rest => runs_cshRecordWrite, fun a rest x xs => runs_cshSnapshot, gives_cshExtCopy_off, ?_, fun pg b rest => runs_faultArrive_event,
    fun n rest => runs_faultArrive_stall, runs_injectionExpire⟩
  intro n a w
  exact runs_cshExtCopy

end Sys2Proof.Recorder
end
